-- ==== Sys2Proof/Word.lean ====
section
/-! DEFINITION. The word types of the controller (spec/00, "Conventions": bytes, 32-bit registers, 64-bit
registers and timestamps) and the association table the state is written in. -/

namespace Sys2Proof

abbrev Byte := BitVec 8
abbrev Word := BitVec 32
abbrev DWord := BitVec 64

/-- A sparse table: an association list by number. Machine/Ops.lean keeps it sorted with no repeated key. -/
abbrev Tab (α : Type) := List (Nat × α)

end Sys2Proof
end

