-- ==== Sys2Proof/Syntax.lean ====
section
/-! DEFINITION. The commands of the block, whole: one constructor per row of spec/opcode_table.json, with the row's
operands. The table gives the rows no fields, so the operands are those the rules name (notes/assumptions/2.md). -/

namespace Sys2Proof

/-- Who makes a register access (R33, R35). -/
inductive Initiator where
  | host | core | sagger
  deriving DecidableEq, Repr

/-- What resident firmware finds of a command beside its operands: an opcode the tables do not define (R115), or an internal
inconsistency while it carries the command out (R118). -/
inductive Flaw where
  | none | badOpcode | internal
  deriving DecidableEq, Repr

/-- The transport part of a command descriptor (R76): the command ring it is taken from, its tag, FENCE and QUIET, whether some byte or
bit the opcode does not assign is nonzero (R115), and what else is wrong with it. A descriptor whose opcode no table defines has no row
of its own: any row's descriptor may carry it. -/
structure Desc where
  ring  : Fin 8192
  tag   : BitVec 16
  fence : Bool
  quiet : Bool
  rsvd  : Bool
  flaw  : Flaw
  deriving DecidableEq, Repr

/-- What a host read returned (R85). -/
inductive ReadResult where
  | data (bytes : List Byte)
  | ur | ca | poisoned
  deriving DecidableEq, Repr

/-- The faults of a received request (R62, R86). -/
inductive ReqFault where
  | unsupported | abort | poisonedWrite | ecrc
  deriving DecidableEq, Repr

/-- A field of PCI configuration space that software writes (R62, R77, R83 to R85, R87): Maximum Read Request Size and Completion Timeout
range as encoded, latencies in ns. -/
inductive CfgField where
  | readSize (code : Fin 6)
  | relaxed (on : Bool)
  | ltrEnable (on : Bool)
  | maxSnoop (ns : Nat)
  | maxNoSnoop (ns : Nat)
  | ptmEnable (on : Bool)
  | timeoutDisable (on : Bool)
  | timeoutRange (code : BitVec 4)
  | ecrcGen (on : Bool)
  | ecrcCheck (on : Bool)
  | severity (mask : Word)
  deriving DecidableEq, Repr

/-- CSI-2 short packets as a port takes them (R366): Frame Start, Frame End, or one it accepts and ignores. -/
inductive ShortPacket where
  | frameStart | frameEnd | ignored
  deriving DecidableEq, Repr


/-- The commands of the block: one constructor per row of spec/opcode_table.json. -/
inductive Instr where
  /-- NOP (R130). -/
  | nop (d : Desc)
  /-- DEVICE_INFO (R130). -/
  | deviceInfo (d : Desc)
  /-- RING_CREATE (R66). -/
  | ringCreate (d : Desc) (ring : BitVec 16) (typ size : BitVec 8) (tenant paired vector : BitVec 16) (imodCnt : BitVec 8) (imodTime : BitVec 16) (base wb : DWord)
  /-- RING_DESTROY (R130). -/
  | ringDestroy (d : Desc) (ring : BitVec 16)
  /-- RING_DESTROY_DONE (R130). -/
  | ringDestroyDone (ring : Fin 8192)
  /-- RING_QUERY (R130). -/
  | ringQuery (d : Desc) (ring : BitVec 16)
  /-- POWER_STATE (R536). -/
  | powerState (d : Desc) (target : BitVec 8)
  /-- TENANT_ENABLE (R92). -/
  | tenantEnable (d : Desc) (tenant maxJobs maxCopies : BitVec 16)
  /-- TENANT_DISABLE (R111). -/
  | tenantDisable (d : Desc) (tenant : BitVec 16)
  /-- TENANT_DRAIN_KEY_WIPE (R111). -/
  | tenantDrainKeyWipe (tenant : Fin 1024)
  /-- TENANT_DRAIN_DONE (R111). -/
  | tenantDrainDone (tenant : Fin 1024)
  /-- TENANT_QUERY (R112). -/
  | tenantQuery (d : Desc) (tenant : BitVec 16)
  /-- KEY_LOAD (R463). -/
  | keyLoad (d : Desc) (tenant : BitVec 16) (handle : Word)
  /-- QUOTA_GRANT (R466). -/
  | quotaGrant (d : Desc) (tenant : BitVec 16) (handle : Word)
  /-- QUOTA_QUERY (R132). -/
  | quotaQuery (d : Desc) (tenant : BitVec 16)
  /-- JOB_OPEN (R96). -/
  | jobOpen (d : Desc) (job : Word) (nonce : DWord)
  /-- JOB_CLOSE (R96). -/
  | jobClose (d : Desc) (job : Word)
  /-- JOB_ABORT (R96). -/
  | jobAbort (d : Desc) (job : Word)
  /-- JOB_END_DONE (R96). -/
  | jobEndDone (seq : Nat)
  /-- PAGE_LOAD (R97). -/
  | pageLoad (d : Desc) (handle : Word)
  /-- PAGE_RELEASE (R133). -/
  | pageRelease (d : Desc) (job page : Word)
  /-- PAGE_RELEASE_DONE (R133). -/
  | pageReleaseDone (seq : Nat)
  /-- COPY_SUBMIT (R101). -/
  | copySubmit (d : Desc) (handle : Word)
  /-- COPY_WITHDRAW (R107). -/
  | copyWithdraw (d : Desc) (job copy : Word)
  /-- COPY_QUERY (R133). -/
  | copyQuery (d : Desc) (job copy : Word)
  /-- STREAM_OPEN (R135). -/
  | streamOpen (d : Desc) (handle : Word) (kind : BitVec 8) (maxLen job : Word)
  /-- STREAM_FREE (R135). -/
  | streamFree (d : Desc) (handle : Word)
  /-- PARKED_COMMAND_RESUME (R116). -/
  | parkedCommandResume (seq : Nat)
  /-- TILE_LOAD (R181). -/
  | tileLoad (d : Desc) (tile : BitVec 16) (handle : Word)
  /-- TILE_EVICT (R135). -/
  | tileEvict (d : Desc) (tile : BitVec 16)
  /-- SEGMENT_LOAD (R543). -/
  | segmentLoad (d : Desc) (handle : Word)
  /-- PLANE_CONFIG (R208). -/
  | planeConfig (d : Desc) (plane : BitVec 8) (handle : Word)
  /-- PASS_LOAD (R297). -/
  | passLoad (d : Desc) (mask : BitVec 16) (handle : Word)
  /-- KILN_START (R245). -/
  | kilnStart (d : Desc) (mask : BitVec 16)
  /-- KILN_STOP (R246). -/
  | kilnStop (d : Desc) (mask : BitVec 16)
  /-- KILN_STOP_DONE (R246). -/
  | kilnStopDone (seq : Nat)
  /-- HEAD_POWER (R138). -/
  | headPower (d : Desc) (mask : DWord) (action : BitVec 8) (timeout : Word)
  /-- HEAD_POWER_DONE (R138). -/
  | headPowerDone (seq : Nat)
  /-- HEAD_POWER_TIMEOUT (R138). -/
  | headPowerTimeout (seq : Nat) (t : DWord)
  /-- PRESS_STATUS (R137). -/
  | pressStatus (d : Desc)
  /-- NOZZLE_READ (R140). -/
  | nozzleRead (d : Desc) (first : Word) (count : BitVec 16) (buf : DWord) (len : Word)
  /-- NOZZLE_WRITE (R226). -/
  | nozzleWrite (d : Desc) (handle : Word)
  /-- NOZZLE_WRITE_DONE (R227). -/
  | nozzleWriteDone (seq : Nat)
  /-- CURVE_LOAD (R213). -/
  | curveLoad (d : Desc) (first count : BitVec 16) (handle : Word)
  /-- THRESH_LOAD (R214). -/
  | threshLoad (d : Desc) (array : BitVec 8) (handle : Word)
  /-- KERNEL_SELECT (R217). -/
  | kernelSelect (d : Desc) (plane kernel : BitVec 8) (handle : Word)
  /-- SPLIT_MOVE (R200). -/
  | splitMove (d : Desc) (head : BitVec 8) (split : BitVec 16)
  /-- CAL_CONTROL (R407). -/
  | calControl (d : Desc) (mask : BitVec 16) (action : BitVec 8)
  /-- REF_SELECT (R411). -/
  | refSelect (d : Desc) (port action : BitVec 8)
  /-- CAL_STATUS (R413). -/
  | calStatus (d : Desc) (plane : BitVec 8)
  /-- AXIS_CONFIG (R342). -/
  | axisConfig (d : Desc) (axis : BitVec 8) (handle : Word)
  /-- AXIS_ENABLE (R359). -/
  | axisEnable (d : Desc) (mask action : BitVec 8)
  /-- AXIS_MOVE (R344). -/
  | axisMove (d : Desc) (axis profile : BitVec 8) (target : DWord)
  /-- AXIS_STOP (R352). -/
  | axisStop (d : Desc) (mask mode : BitVec 8)
  /-- AXIS_RESUME (R352). -/
  | axisResume (d : Desc) (axis : BitVec 8)
  /-- AXIS_HOME (R355). -/
  | axisHome (d : Desc) (axis homing : BitVec 8) (timeout : Word)
  /-- AXIS_QUERY (R141). -/
  | axisQuery (d : Desc) (axis : BitVec 8)
  /-- MOVE_COMPLETE (R344). -/
  | moveComplete (axis : Fin 8)
  /-- HOMING_COMPLETE (R355). -/
  | homingComplete (axis : Fin 8)
  /-- HOMING_TIMEOUT (R355). -/
  | homingTimeout (axis : Fin 8) (t : DWord)
  /-- CAMERA_CONFIG (R379). -/
  | cameraConfig (d : Desc) (port : BitVec 8) (handle : Word)
  /-- INSPECT_CONTROL (R382). -/
  | inspectControl (d : Desc) (mask inline action : BitVec 8)
  /-- REPROCESS (R384). -/
  | reprocess (d : Desc) (port : BitVec 8) (image : Word)
  /-- DEFECT_FETCH (R394). -/
  | defectFetch (d : Desc) (buf : DWord) (len : Word)
  /-- RECEIPT_FETCH (R143). -/
  | receiptFetch (d : Desc) (buf : DWord) (len : Word)
  /-- ATTEST (R462). -/
  | attest (d : Desc) (buf : DWord) (len : Word) (challenge : BitVec 256)
  /-- DEBUG_UNLOCK (R460). -/
  | debugUnlock (d : Desc) (handle : Word)
  /-- LIFECYCLE_ADVANCE (R457). -/
  | lifecycleAdvance (d : Desc) (target : BitVec 8) (handle : Word)
  /-- CONSUMABLE_SCAN (R482). -/
  | consumableScan (d : Desc) (mask : BitVec 8)
  /-- CONSUMABLE_QUERY (R482). -/
  | consumableQuery (d : Desc) (slot : BitVec 8)
  /-- TALLY_CHECKPOINT (R482). -/
  | tallyCheckpoint (d : Desc)
  /-- PATCH_STATUS (R144). -/
  | patchStatus (d : Desc) (buf : DWord) (len : Word)
  /-- NOZZLE_SNAPSHOT (R240). -/
  | nozzleSnapshot (d : Desc)
  /-- JOURNAL_COMPACT (R493). -/
  | journalCompact (d : Desc)
  /-- MAINT_SPIT (R144). -/
  | maintSpit (d : Desc) (mask : DWord) (drops : BitVec 16) (code : BitVec 8)
  /-- STORE_WRITE (R487). -/
  | storeWrite (d : Desc) (area : BitVec 8) (handle : Word)
  /-- EVENT_FILTER (R505). -/
  | eventFilter (d : Desc) (ring : BitVec 16) (mask : BitVec 256)
  /-- ALARM_FETCH (R508). -/
  | alarmFetch (d : Desc) (buf : DWord) (len : Word)
  /-- ALARM_ACK (R508). -/
  | alarmAck (d : Desc) (code : BitVec 16)
  /-- TRACE_CONFIG (R510). -/
  | traceConfig (d : Desc) (handle : Word)
  /-- STOOK_LIMIT (R502). -/
  | stookLimit (d : Desc) (limit : Word)
  /-- LATCH_COMMAND_COMPLETE (R127). -/
  | latchCommandComplete (seq : Nat)
  /-- COMPLETION_POST (R70). -/
  | completionPost (ring : Fin 8192) (taken : Bool)
  /-- DOORBELL (R73). -/
  | doorbell (ring : Fin 8192) (off : BitVec 12) (write : Bool) (val : Word) (be : BitVec 4)
  /-- HIF_RUN_WRITE (R89). -/
  | hifRunWrite (ini : Initiator) (val : Word) (be : BitVec 4)
  /-- BUS_MASTER_ENABLE_WRITE (R65), with the other fields of configuration space the host writes (notes/assumptions/69.md). -/
  | busMasterEnableWrite (on : Bool) (fields : List CfgField)
  /-- D3HOT_TRANSITION (R65). -/
  | d3hotTransition
  /-- MSIX_VECTOR_UNMASK (R82). -/
  | msixVectorUnmask (vec : Fin 2048)
  /-- HIF_DESCRIPTOR_FETCH (R77). -/
  | hifDescriptorFetch (ring : Fin 8192)
  /-- HIF_DATA_FETCH (R78). -/
  | hifDataFetch
  /-- HOST_READ_COMPLETION (R85). -/
  | hostReadCompletion (tag : Fin 1024) (r : ReadResult)
  /-- COMPLETION_TIMEOUT (R85). -/
  | completionTimeout (tag : Fin 1024)
  /-- BACKGROUND_PROMOTE (R78). -/
  | backgroundPromote (t : DWord)
  /-- RECEIVED_REQUEST_FAULT (R86). -/
  | receivedRequestFault (kind : ReqFault)
  /-- INDEX_WRITEBACK (R68). -/
  | indexWriteback (ring : Fin 8192) (taken : Bool)
  /-- IMOD_TIMEOUT (R82). -/
  | imodTimeout (ring : Fin 8192)
  /-- LTR_RISE_TIMER (R83). -/
  | ltrRiseTimer
  /-- PTM_REQUEST_TIMER (R84). -/
  | ptmRequestTimer
  /-- PTM_TIMEOUT (R84). -/
  | ptmTimeout
  /-- TIM_PTM_MEASUREMENT (R437). -/
  | timPtmMeasurement (sec : Word) (ns : BitVec 30) (frac : BitVec 8)
  /-- BAR_ACCESS_ABORT (R33). -/
  | barAccessAbort (addr : BitVec 24) (len : BitVec 13) (write : Bool)
  /-- UNMAPPED_PAGE_ACCESS (R59). -/
  | unmappedPageAccess (ini : Initiator) (addr : BitVec 24) (write : Bool)
  /-- REGISTER_WRITE (R9). -/
  | registerWrite (ini : Initiator) (addr : BitVec 24) (val : Word) (be : BitVec 4) (more : List (Word × BitVec 4)) (also : List (Initiator × Word))
  /-- RWS_REGISTER_WRITE (R22). -/
  | rwsRegisterWrite (ini : Initiator) (addr : BitVec 24) (val : Word) (be : BitVec 4) (also : List (Initiator × Word))
  /-- RWL_REGISTER_WRITE (R57). -/
  | rwlRegisterWrite (ini : Initiator) (addr : BitVec 24) (val : Word) (be : BitVec 4)
  /-- LOW_WORD_READ (R43). -/
  | lowWordRead (ini : Initiator) (addr : BitVec 24) (more : BitVec 4)
  /-- HIGH_WORD_READ (R43). -/
  | highWordRead (ini : Initiator) (addr : BitVec 24)
  /-- SNAPSHOT_READ (R46). -/
  | snapshotRead (ini : Initiator) (addr : BitVec 24)
  /-- TIM_NS_READ (R433). -/
  | timNsRead (ini : Initiator)
  /-- TIM_XSNAP_READ (R434). -/
  | timXsnapRead (ini : Initiator)
  /-- SAG_NONCE_READ (R445). -/
  | sagNonceRead (ini : Initiator)
  /-- NONCE_EXPIRE (R445). -/
  | nonceExpire (t : DWord)
  /-- PG_IRQ_STAT_CLEAR (R39). -/
  | pgIrqStatClear (ini : Initiator) (page : BitVec 12) (val : Word)
  /-- PG_IRQ_SET (R39). -/
  | pgIrqSet (ini : Initiator) (page : BitVec 12) (val : Word)
  /-- PG_ERR_CLEAR (R40). -/
  | pgErrClear (ini : Initiator) (page : BitVec 12) (val : Word)
  /-- SHADOW_DISCARD (R50). -/
  | shadowDiscard (ini : Initiator) (page : BitVec 12) (val : Word)
  /-- SHADOW_HOLD_WRITE (R52). -/
  | shadowHoldWrite (ini : Initiator) (page : BitVec 12) (val : Word)
  /-- HOLD_RELEASE (R54). -/
  | holdRelease (ini : Initiator) (val : Word)
  /-- CMD_HOLD_RELEASE (R55). -/
  | cmdHoldRelease (ini : Initiator) (val : Word)
  /-- STATUS_W1C_CLEAR (R44). -/
  | statusW1cClear (ini : Initiator) (addr : BitVec 24) (val : Word) (be : BitVec 4)
  /-- COUNTER_CLEAR (R45). -/
  | counterClear (ini : Initiator) (addr : BitVec 24) (val : Word) (be : BitVec 4)
  /-- SOFT_RESET (R37). -/
  | softReset (ini : Initiator) (page : BitVec 12) (val : Word)
  /-- SOFT_RESET_END (R37). -/
  | softResetEnd (page : BitVec 12)
  /-- APPLY_ARM_WRITE (R251). -/
  | applyArmWrite (ini : Initiator) (plane : Fin 16) (val : Word)
  /-- TIL_SPLIT_BAR_WRITE (R201). -/
  | tilSplitBarWrite (ini : Initiator) (val : Word)
  /-- GLZ_BAND_WRITE (R197). -/
  | glzBandWrite (ini : Initiator) (val : Word)
  /-- GLEAN_WINDOW_DISCARD_WRITE (R402). -/
  | gleanWindowDiscardWrite (ini : Initiator) (reg : Fin 8) (val : Word)
  /-- KLN_TRIP_CLEAR (R292). -/
  | klnTripClear (ini : Initiator) (val : Word)
  /-- HLK_PORT_ENABLE (R318). -/
  | hlkPortEnable (ini : Initiator) (head : Fin 64) (val : Word)
  /-- HLK_RETRAIN_WRITE (R319). -/
  | hlkRetrainWrite (ini : Initiator) (head : Fin 64) (val : Word)
  /-- HLK_FAULT_CLEAR (R325). -/
  | hlkFaultClear (ini : Initiator) (head : Fin 64) (val : Word)
  /-- PIF_CHANNEL_ENABLE (R327). -/
  | pifChannelEnable (ini : Initiator) (ch : Fin 4) (val : Word)
  /-- PIF_REARM (R336). -/
  | pifRearm (ini : Initiator) (ch : Fin 4) (val : Word)
  /-- PIF_LOAD (R336). -/
  | pifLoad (ini : Initiator) (ch : Fin 4) (val : Word)
  /-- PIF_IDX_PERIOD_WRITE (R339). -/
  | pifIdxPeriodWrite (ini : Initiator) (ch : Fin 4) (high : Bool) (val : Word)
  /-- MOT_FAULT_CLEAR (R358). -/
  | motFaultClear (ini : Initiator) (axis : Fin 8) (val : Word)
  /-- SHADING_CAPTURE_DARK (R378). -/
  | shadingCaptureDark (ini : Initiator) (port : Fin 4) (val : Word)
  /-- SHADING_CAPTURE_WHITE (R378). -/
  | shadingCaptureWhite (ini : Initiator) (port : Fin 4) (val : Word)
  /-- SHADING_CAPTURE_DONE (R378). -/
  | shadingCaptureDone (port : Fin 4)
  /-- TIM_WRITE_NOW (R435). -/
  | timWriteNow (ini : Initiator) (val : Word)
  /-- TIM_WRITE_AT_SEC (R435). -/
  | timWriteAtSec (ini : Initiator) (val : Word)
  /-- TIM_WRITE_CANCEL (R435). -/
  | timWriteCancel (ini : Initiator) (val : Word)
  /-- TIM_SRC_WRITE (R438). -/
  | timSrcWrite (ini : Initiator) (val : Word)
  /-- TRM_ROLE_OFF (R415). -/
  | trmRoleOff (ini : Initiator) (val : Word)
  /-- TRM_ROLE_FOLLOWER (R417). -/
  | trmRoleFollower (ini : Initiator) (val : Word)
  /-- TRM_ROLE_LEADER (R416). -/
  | trmRoleLeader (ini : Initiator) (val : Word)
  /-- IOCAL_START (R521). -/
  | iocalStart (ini : Initiator) (val : Word)
  /-- GLB_RST_WRITE (R530). -/
  | glbRstWrite (ini : Initiator) (val : Word)
  /-- FAN_MODE_WRITE (R559). -/
  | fanModeWrite (ini : Initiator) (fan : Fin 4) (val : Word)
  /-- THR_STREAM_PREPARE (R164). -/
  | thrStreamPrepare (tenant : Fin 1024) (handle : Word)
  /-- THR_STREAM_PREPARED (R606). -/
  | thrStreamPrepared
  /-- THR_BLOCK_START (R166). -/
  | thrBlockStart (lane : Fin 24)
  /-- THR_BLOCK_DONE (R167). -/
  | thrBlockDone (lane : Fin 24)
  /-- MILL_BLOCK (R174): of the camera image in compression, or of a diagnostic capture of a plane's composited contone (R443). -/
  | millBlock (lane : Fin 2) (capture : Option (Fin 16))
  /-- GLAZE_LINE (R186). -/
  | glazeLine (lane : Fin 4)
  /-- GLAZE_BAND (R187). -/
  | glazeBand (lane : Fin 4)
  /-- GLAZE_POOL_WAIT_END (R189). -/
  | glazePoolWaitEnd
  /-- TILLER_ROW_LINE (R204). -/
  | tillerRowLine (engine : Fin 128) (row : Fin 4)
  /-- ENTRY_RESTORE (R225). -/
  | entryRestore (nozzle : Fin 262144)
  /-- GAP_ROW_LINE (R235). -/
  | gapRowLine (engine : Fin 128) (row : Fin 4)
  /-- FILL_ROW_LINE (R259). -/
  | fillRowLine (engine : Fin 128) (row : Fin 4)
  /-- UNDERRUN_REVERSAL (R260). -/
  | underrunReversal (engine : Fin 128) (row : Fin 4)
  /-- TILLER_SWEEP (R233). -/
  | tillerSweep (nozzle : Fin 262144)
  /-- TILLER_COMPARATOR_TRIP (R220). -/
  | tillerComparatorTrip (engine : Fin 128)
  /-- TILLER_THROTTLE_END (R220). -/
  | tillerThrottleEnd (engine : Fin 128)
  /-- AUTO_SPLIT (R202). -/
  | autoSplit (head : Fin 64)
  /-- PACE_STEP_EDGE (R277). -/
  | paceStepEdge (input : Fin 2) (rising dir clean : Bool) (t : DWord)
  /-- KILN_SHEAF_SHIFT (R256). -/
  | kilnSheafShift (head : Fin 64) (t : DWord)
  /-- ROW_LINE_UNDERRUN (R257). -/
  | rowLineUnderrun (head : Fin 64) (row : Fin 4) (t : DWord)
  /-- FIRE_EDGE (R282). -/
  | fireEdge (head : Fin 64)
  /-- FIRED_WINDOW_COMPARE (R271). -/
  | firedWindowCompare (plane : Fin 16) (win : Fin 16)
  /-- FRAME_MARK_END (R254). -/
  | frameMarkEnd (mark : Fin 4)
  /-- CHANNEL_PAUSE (R278). -/
  | channelPause (ch : Fin 4) (t : DWord)
  /-- PLANE_PAUSE (R287). -/
  | planePause (plane : Fin 16) (t : DWord)
  /-- PAUSE_TICKLE (R288). -/
  | pauseTickle (plane : Fin 16) (t : DWord)
  /-- PAUSE_SPOIL (R289). -/
  | pauseSpoil (plane : Fin 16) (t : DWord)
  /-- TRIP_INPUT (R290). -/
  | tripInput (input : Fin 4) (low : Bool) (t : DWord)
  /-- HLK_FORWARD_FRAME (R309). -/
  | hlkForwardFrame (head : Fin 64)
  /-- HLK_RX_STATUS (R320). -/
  | hlkRxStatus (head : Fin 64) (pg ready : Bool) (lock descr : BitVec 2) (crc miss : BitVec 16) (t : DWord)
  /-- HLK_RX_TEMP (R320). -/
  | hlkRxTemp (head : Fin 64) (temps : BitVec 128) (valid : BitVec 8)
  /-- HLK_RX_FAULT (R320). -/
  | hlkRxFault (head : Fin 64) (code : BitVec 8) (row : BitVec 2) (detail : BitVec 16)
  /-- HLK_RX_ACK (R320). -/
  | hlkRxAck (head : Fin 64) (bank good : Bool)
  /-- HLK_RX_SYNC (R316). -/
  | hlkRxSync (head : Fin 64) (scr : BitVec 23)
  /-- HLK_RX_FRAME_BAD (R314). -/
  | hlkRxFrameBad (head : Fin 64)
  /-- HLK_TRAIN_TIMEOUT (R318). -/
  | hlkTrainTimeout (head : Fin 64)
  /-- HLK_RX_TIMEOUT (R319). -/
  | hlkRxTimeout (head : Fin 64)
  /-- HLK_FLT_N_FAULT (R324). -/
  | hlkFltNFault (head : Fin 64) (low : Bool) (t : DWord)
  /-- HLK_PG_DELAY_EXPIRE (R322). -/
  | hlkPgDelayExpire (head : Fin 64) (t : DWord)
  /-- PIF_ADC_SAMPLE (R328). -/
  | pifAdcSample (ch : Fin 4) (sin cos : BitVec 14) (t : DWord)
  /-- PIF_SQUARE_SAMPLE (R329). -/
  | pifSquareSample (ch : Fin 4) (a b : Bool) (t : DWord)
  /-- PIF_INDEX_CAPTURE (R334). -/
  | pifIndexCapture (ch : Fin 4) (rising : Bool) (t : DWord)
  /-- MOT_GENERATOR_UPDATE (R345). -/
  | motGeneratorUpdate (axis : Fin 8)
  /-- MOT_PWM_PERIOD (R348). -/
  | motPwmPeriod (axis : Fin 8) (ia ib : BitVec 16)
  /-- MOT_SD_FAST_FILTER (R347). -/
  | motSdFastFilter (axis : Fin 8) (phase : Bool) (code : BitVec 16)
  /-- MOT_SD_LOSS (R347). -/
  | motSdLoss (axis : Fin 8) (phase lost : Bool)
  /-- MOT_LIMIT_INPUT (R353). -/
  | motLimitInput (axis : Fin 8) (positive high : Bool)
  /-- MOT_STANDSTILL_TIMER (R356). -/
  | motStandstillTimer (axis : Fin 8)
  /-- MOT_ENABLE_ADMIT (R359). -/
  | motEnableAdmit (t : BitVec 64)
  /-- CSI_LONG_PACKET (R366). -/
  | csiLongPacket (port : Fin 4) (vc vcx : BitVec 2) (dt : BitVec 6) (wc : BitVec 16) (hdrOk crcOk full : Bool) (bytes : List Byte) (t : DWord)
  /-- CSI_SHORT_PACKET (R366). -/
  | csiShortPacket (port : Fin 4) (vc vcx : BitVec 2) (kind : ShortPacket) (hdrOk : Bool) (t : DWord)
  /-- IPL_PIPELINE_LINE (R371). -/
  | iplPipelineLine (t : DWord)
  /-- IPL_STALL_TIMEOUT (R381). -/
  | iplStallTimeout (port : Fin 4) (t : DWord)
  /-- IMAGE_STORE (R383). -/
  | imageStore
  /-- WINNOW_LINE_COMPARE (R390). -/
  | winnowLineCompare (port : Fin 4)
  /-- WINNOW_RULE_TIMEOUT (R396). -/
  | winnowRuleTimeout (copy : Nat) (t : DWord)
  /-- GLEAN_DUMP_SOLVE (R403). -/
  | gleanDumpSolve (plane : Fin 16)
  /-- CAL_PROPOSAL_CHECK (R404). -/
  | calProposalCheck (plane : Fin 16)
  /-- BATCH_CLOSE_TIMER (R471). -/
  | batchCloseTimer (tenant : Fin 1024)
  /-- BATCH_POST (R472). -/
  | batchPost (tenant : Fin 1024)
  /-- TRM_BEACON_SEND (R418). -/
  | trmBeaconSend
  /-- TRM_BEACON_RECEIVE (R422). -/
  | trmBeaconReceive (a b : List Byte) (ra rb : DWord)
  /-- TRM_BEACON_MISSED (R422). -/
  | trmBeaconMissed (t : DWord)
  /-- TRM_FOLLOWER_BURST_SEND (R422). -/
  | trmFollowerBurstSend
  /-- TRM_FOLLOWER_BURST_RECEIVE (R423). -/
  | trmFollowerBurstReceive (slot : Fin 16) (a b : List Byte) (ra rb : DWord)
  /-- TRM_CLAIM_TIMER (R416). -/
  | trmClaimTimer (t : DWord)
  /-- TRM_LEAD_LINE_LOW (R416). -/
  | trmLeadLineLow (low : Bool)
  /-- TIM_SECOND_ROLLOVER (R432). -/
  | timSecondRollover
  /-- TIM_SLEW_END (R437). -/
  | timSlewEnd
  /-- TALLY_CHECKPOINT_TIMER (R480). -/
  | tallyCheckpointTimer
  /-- TALLY_WRITE_BACK (R480). -/
  | tallyWriteBack
  /-- TALLY_CKPT_LATE (R480). -/
  | tallyCkptLate (t : DWord)
  /-- TALLY_I2C_BUSY_RETRY (R477). -/
  | tallyI2cBusyRetry (slot : Fin 16)
  /-- I2C_STRETCH_TIMEOUT (R476). -/
  | i2cStretchTimeout (slot : Fin 16)
  /-- CROCK_RECORD_WRITE (R489). -/
  | crockRecordWrite (good : Bool)
  /-- CROCK_COMPACTION_DONE (R493). -/
  | crockCompactionDone (good : Bool)
  /-- SNAPSHOT_TIMER (R240). -/
  | snapshotTimer
  /-- SNAPSHOT_WRITE (R492). -/
  | snapshotWrite
  /-- CAL_FLUSH_TIMER (R491). -/
  | calFlushTimer
  /-- CROCK_GRACE_END (R498). -/
  | crockGraceEnd (completed : Bool)
  /-- STOOK_EVENT_WRITE (R505). -/
  | stookEventWrite
  /-- STOOK_TRACE_WRITE (R510). -/
  | stookTraceWrite
  /-- STOOK_THROTTLE_TIMER (R514). -/
  | stookThrottleTimer (t : DWord)
  /-- CORE_SLEEP (R512). -/
  | coreSleep (core : Fin 4)
  /-- CORE_WAKE (R512). -/
  | coreWake (core : Fin 4) (ctx : Word) (pc : DWord)
  /-- FIREWALL_DENIAL (R442). -/
  | firewallDenial (debug : Bool) (row : Fin 10) (addr : DWord) (write : Bool)
  /-- BOOT (R448). -/
  | boot (cs0 cs1 : BitVec 16) (id0 id1 : BitVec 8) (speed : BitVec 3) (width : BitVec 4) (good : Bool) (failed : Fin 5)
  /-- POR (R530). -/
  | por (strap : BitVec 5)
  /-- PIN_RESET (R530). -/
  | pinReset (strap : BitVec 5) (cool : Bool)
  /-- HOST_RESET (R530). -/
  | hostReset (source : Fin 4)
  /-- FLR (R532). -/
  | flr
  /-- WDOG_RESET (R533). -/
  | wdogReset
  /-- SAG_FAULT (R451). -/
  | sagFault (cause : Fin 4)
  /-- JTAG_INSTRUCTION (R454). -/
  | jtagInstruction (test : Bool)
  /-- REF_CLOCK_LOSS (R527). -/
  | refClockLoss
  /-- ROOT_PLL_LOSS (R527). -/
  | rootPllLoss
  /-- DDR_PLL_LOSS (R527). -/
  | ddrPllLoss
  /-- DLL_LOCK_CHANGE (R519). -/
  | dllLockChange (locked : Bool) (code : BitVec 10)
  /-- IOCAL_PERIOD (R521). -/
  | iocalPeriod
  /-- IOCAL_DONE (R521). -/
  | iocalDone (errors : List (BitVec 24))
  /-- HEAD_ENABLE_ADMIT (R544). -/
  | headEnableAdmit (t : DWord)
  /-- AUTO_IDLE (R537). -/
  | autoIdle
  /-- POWER_EXIT_DONE (R539). -/
  | powerExitDone
  /-- DEEP_ENTRY (R540). -/
  | deepEntry
  /-- DEEP_WAKE_TIMER (R539). -/
  | deepWakeTimer (t : DWord)
  /-- SUPPLY_OUT_OF_RANGE (R542). -/
  | supplyOutOfRange (supply : Fin 11) (strap : BitVec 5)
  /-- THM_SENSOR_SAMPLE (R548). -/
  | thmSensorSample (sensor : Fin 16) (reading : BitVec 16) (good : Bool) (t : DWord)
  /-- ANALOG_TRIP (R555). -/
  | analogTrip
  /-- SHUTDOWN_HOLD_RELEASE (R554). -/
  | shutdownHoldRelease (t : DWord)
  /-- FAN_TACH_EDGE (R558). -/
  | fanTachEdge (fan : Fin 4) (t : DWord)
  /-- FAN_SPINUP_END (R559). -/
  | fanSpinupEnd (fan : Fin 4) (t : DWord)
  /-- FAN_PAUSE_END (R559). -/
  | fanPauseEnd (fan : Fin 4) (t : DWord)
  /-- FAN_TACH_TIMEOUT (R559). -/
  | fanTachTimeout (fan : Fin 4) (t : DWord)
  /-- FAN_AUTO_UPDATE (R558). -/
  | fanAutoUpdate (fan : Fin 4)
  /-- FAN_SLOW (R561). -/
  | fanSlow (fan : Fin 4) (t : DWord)
  /-- HLK_RX_MARKER_FOUND (R314). -/
  | hlkRxMarkerFound (head : Fin 64) (ofs : BitVec 9)
  /-- HLK_RX_FRAME_GOOD (R314). -/
  | hlkRxFrameGood (head : Fin 64)
  /-- REF_CLOCK_RETURN (R527). -/
  | refClockReturn
  /-- SUPPLY_RETURN (R542). -/
  | supplyReturn (supply : Fin 11)
  /-- MOT_HOME_INPUT (R355). -/
  | motHomeInput (axis : Fin 8) (high : Bool)
  /-- D0_TRANSITION (R65). -/
  | d0Transition
  /-- POWER_ENTRY_DONE (R130). -/
  | powerEntryDone
  /-- RESIDENT_FIRMWARE_READY (R532). -/
  | residentFirmwareReady
  /-- TALLY_EXCHANGE_RESPONSE (R477). -/
  | tallyExchangeResponse (slot : Fin 16) (bytes : List Byte)
  deriving DecidableEq, Repr

end Sys2Proof
end

