-- ==== Sys2Proof/Decode.lean ====
section
/-! DEFINITION. The words of the command table. No row of spec/opcode_table.json has bits, so no word spells a command. -/

namespace Sys2Proof

/-- The command a word of `nbits` bits spells: none, as the table gives no row a bit. -/
def decodeTableWord (_nbits _w : Nat) : Option Instr := none

end Sys2Proof
end

