-- ==== Sys2Proof/Config.lean ====
section
/-! DEFINITION. What an implementation fixes and the spec leaves open, and the functions other standards define: constants
without a body, so that no statement can rest on a value of one. -/

namespace Sys2Proof.Config
open Sys2Proof

/-- A value the spec leaves open after an operation: `w` bits, drawn by the count of draws so far (State.free). -/
opaque freeValue : (w : Nat) → Nat → BitVec w

/-- DRAM space for a swath buffer of this many MiB can be allocated (R295; the spec gives no size of that space). -/
opaque swathFits : Nat → Bool

/-- The DRAM spool holds streams of this total maximum length (R135; the spec gives no size of the spool). -/
opaque spoolFits : Nat → Bool

/-- The DRAM holds density map rings of this many bytes (R388; the spec gives no size of that space). -/
opaque ringFits : Nat → Bool

/-- Mill's 15-bit hash of three bytes (R175; the spec does not give the function). -/
opaque millHash : Byte → Byte → Byte → BitVec 15

/-- The code lengths Mill gives an alphabet of these symbol counts under a limit (R174; the spec gives the limit, not how lengths are
chosen). -/
opaque millLens : Nat → List Nat → List Nat

/-- Mill's repeat choice for a sequence of code lengths: code-length symbols with the values of their extra bits (R174; the spec does not give
the choice). -/
opaque millRepeats : List Nat → List (Nat × Nat)

/-! Cryptography of the standards the spec names (R439, R446, R459, R463, R466, R471, R478). -/

/-- SHA-384. -/
opaque sha384 : List Byte → BitVec 384

/-- ECDSA P-384 verification: public key x then y, digest, signature r then s. -/
opaque ecdsaP384 : List Byte → BitVec 384 → List Byte → Bool

/-- ECDSA P-256 verification: public key x then y, digest, signature r then s. -/
opaque ecdsaP256 : List Byte → BitVec 384 → List Byte → Bool

/-- Steps 1 to 4 of R463 on a wrapped key but for its plain fields: the tenant key, or nothing where the point or the tag is
bad. -/
opaque unwrapKey : List Byte → Option (BitVec 256)

/-- AES-256-GCM opening: key, 96-bit nonce, associated data, ciphertext, tag. -/
opaque gcmOpen : BitVec 256 → List Byte → List Byte → List Byte → List Byte → Option (List Byte)

/-- The session key of R478: nonce, controller's ephemeral key, device public key. -/
opaque tallySession : BitVec 256 → BitVec 512 → List Byte → BitVec 256

/-- The first 16 bytes of HMAC-SHA-384 (R478). -/
opaque tallyMac : BitVec 256 → List Byte → List Byte

/-- Verification of a Tally certificate: the supplier key's hash, the signature kind, the digest and the signature
(R478; the certificate carries no key, so the hash selects it). -/
opaque supplierVerify : BitVec 384 → Nat → BitVec 384 → List Byte → Bool

/-- The supplier keys' hashes that a Tally trust list names, empty unless it is signed with the OEM key of the hash fused (R478; the
spec does not lay the list out). -/
opaque trustList : List Byte → BitVec 384 → List (BitVec 384)

/-- The OEM countersignature of a patch record: hash of the OEM key fused, digest, signature (R446; the record carries no key, so the
hash selects it). -/
opaque oemCounter : BitVec 384 → BitVec 384 → List Byte → Bool

/-! What a part carries from Limveast (R446, R456, R459, R462). -/

opaque serial : BitVec 128
opaque identityPub : BitVec 768
opaque certChain : List Byte

/-- SHA-384 of Limveast's manufacturing, return, debug and patch keys. -/
opaque manufacturingKey : BitVec 384
opaque returnKey : BitVec 384
opaque debugKey : BitVec 384
opaque patchKey : List Byte

/-- The blocks, by block ID, that implement PG_CTRL.CGA (spec/02, PG_CAP.CGATE; no chapter lists them). -/
opaque cgate : Nat → Bool

/-- Length beyond its key of Sagger's sealed record (R440, R488). -/
opaque saggerLen : Fin 1000

end Sys2Proof.Config
end

