-- ==== Sys2Proof/Machine/RegMap.lean ====
section
/-! DEFINITION. The BAR0 addresses of the registers by name, from the register tables of spec/02 to spec/24
(an instance page takes its instance number, an array register its index, each modulo the number there are). -/

namespace Sys2Proof.Reg

/-- GLB_CHIP_ID. -/
abbrev GLB_CHIP_ID : Nat := 0x000040
/-- GLB_STRAP. -/
abbrev GLB_STRAP : Nat := 0x000044
/-- GLB_HOLD_REL. -/
abbrev GLB_HOLD_REL : Nat := 0x000048
/-- HIF_CTRL. -/
abbrev HIF_CTRL : Nat := 0x010040
/-- HIF_STAT. -/
abbrev HIF_STAT : Nat := 0x010044
/-- HIF_SYS_CMD_BASE. -/
abbrev HIF_SYS_CMD_BASE : Nat := 0x010048
/-- HIF_SYS_CPL_BASE. -/
abbrev HIF_SYS_CPL_BASE : Nat := 0x010050
/-- HIF_SYS_WB_BASE. -/
abbrev HIF_SYS_WB_BASE : Nat := 0x010058
/-- HIF_SYS_SIZE. -/
abbrev HIF_SYS_SIZE : Nat := 0x010060
/-- HIF_RING_SEL. -/
abbrev HIF_RING_SEL : Nat := 0x010064
/-- HIF_RING_CTX_A. -/
abbrev HIF_RING_CTX_A : Nat := 0x010068
/-- HIF_RING_CTX_B. -/
abbrev HIF_RING_CTX_B : Nat := 0x01006C
/-- HIF_RING_CTX_C. -/
abbrev HIF_RING_CTX_C : Nat := 0x010070
/-- HIF_RING_CTX_D. -/
abbrev HIF_RING_CTX_D : Nat := 0x010074
/-- HIF_RING_CTX_E. -/
abbrev HIF_RING_CTX_E : Nat := 0x010078
/-- HIF_RING_CTX_F. -/
abbrev HIF_RING_CTX_F : Nat := 0x01007C
/-- HIF_PGIRQ_SEL. -/
abbrev HIF_PGIRQ_SEL : Nat := 0x010080
/-- HIF_PGIRQ_VEC. -/
abbrev HIF_PGIRQ_VEC : Nat := 0x010084
/-- HIF_PGIRQ_NEXT. -/
abbrev HIF_PGIRQ_NEXT : Nat := 0x010088
/-- HIF_SB_STAT. -/
abbrev HIF_SB_STAT : Nat := 0x01008C
/-- HIF_SB_HWM. -/
abbrev HIF_SB_HWM : Nat := 0x010090
/-- HIF_GUARD. -/
abbrev HIF_GUARD : Nat := 0x010094
/-- HIF_HORIZON. -/
abbrev HIF_HORIZON : Nat := 0x010098
/-- HIF_BG_PROMOTE. -/
abbrev HIF_BG_PROMOTE : Nat := 0x01009C
/-- HIF_WB_INTERVAL. -/
abbrev HIF_WB_INTERVAL : Nat := 0x0100A0
/-- HIF_LTR_GUARD. -/
abbrev HIF_LTR_GUARD : Nat := 0x0100A4
/-- HIF_LTR_LAST. -/
abbrev HIF_LTR_LAST : Nat := 0x0100A8
/-- HIF_PTM_PERIOD. -/
abbrev HIF_PTM_PERIOD : Nat := 0x0100AC
/-- HIF_SYS_IMOD. -/
abbrev HIF_SYS_IMOD : Nat := 0x0100B0
/-- HIF_UNMAPPED_CNT. -/
abbrev HIF_UNMAPPED_CNT : Nat := 0x0100C0
/-- HIF_DB_BAD_CNT. -/
abbrev HIF_DB_BAD_CNT : Nat := 0x0100C4
/-- HIF_DB_IGN_CNT. -/
abbrev HIF_DB_IGN_CNT : Nat := 0x0100C8
/-- HIF_CPL_TO_CNT. -/
abbrev HIF_CPL_TO_CNT : Nat := 0x0100CC
/-- HIF_POISON_CNT. -/
abbrev HIF_POISON_CNT : Nat := 0x0100D0
/-- HIF_URCA_CNT. -/
abbrev HIF_URCA_CNT : Nat := 0x0100D4
/-- HIF_PTM_FAIL_CNT. -/
abbrev HIF_PTM_FAIL_CNT : Nat := 0x0100D8
/-- HIF_CNT_CLR. -/
abbrev HIF_CNT_CLR : Nat := 0x0100DC
/-- THR_CTRL. -/
abbrev THR_CTRL : Nat := 0x020040
/-- THR_STAT. -/
abbrev THR_STAT : Nat := 0x020044
/-- THR_LANE_EN. -/
abbrev THR_LANE_EN : Nat := 0x020048
/-- THR_BUDGET. -/
abbrev THR_BUDGET : Nat := 0x02004C
/-- THR_BLK_CNT. -/
abbrev THR_BLK_CNT : Nat := 0x020050
/-- THR_OUT_BYTES. -/
abbrev THR_OUT_BYTES : Nat := 0x020058
/-- THR_IN_BYTES. -/
abbrev THR_IN_BYTES : Nat := 0x020060
/-- THR_ABANDON_CNT. -/
abbrev THR_ABANDON_CNT : Nat := 0x020068
/-- THR_AUTH_CNT. -/
abbrev THR_AUTH_CNT : Nat := 0x02006C
/-- THR_BUDGET_CNT. -/
abbrev THR_BUDGET_CNT : Nat := 0x020070
/-- THR_STREAM_BAD_CNT. -/
abbrev THR_STREAM_BAD_CNT : Nat := 0x020074
/-- THR_LAST_BAD_HDL. -/
abbrev THR_LAST_BAD_HDL : Nat := 0x020078
/-- THR_LAST_BAD_TEN. -/
abbrev THR_LAST_BAD_TEN : Nat := 0x02007C
/-- THR_LAST_BAD_LOC. -/
abbrev THR_LAST_BAD_LOC : Nat := 0x020080
/-- THR_CNT_CLR. -/
abbrev THR_CNT_CLR : Nat := 0x020084
/-- MIL_CTRL. -/
abbrev MIL_CTRL : Nat := 0x021040
/-- MIL_PARAM. -/
abbrev MIL_PARAM : Nat := 0x021044
/-- MIL_BLOCK. -/
abbrev MIL_BLOCK : Nat := 0x021048
/-- MIL_HUSK. -/
abbrev MIL_HUSK : Nat := 0x02104C
/-- MIL_STAT. -/
abbrev MIL_STAT : Nat := 0x021050
/-- MIL_IN_BYTES. -/
abbrev MIL_IN_BYTES : Nat := 0x021058
/-- MIL_OUT_BYTES. -/
abbrev MIL_OUT_BYTES : Nat := 0x021060
/-- MIL_BLK_CNT. -/
abbrev MIL_BLK_CNT : Nat := 0x021068
/-- MIL_STORED_CNT. -/
abbrev MIL_STORED_CNT : Nat := 0x02106C
/-- MIL_FILL_CNT. -/
abbrev MIL_FILL_CNT : Nat := 0x021070
/-- MIL_VERIFY_FAIL_CNT. -/
abbrev MIL_VERIFY_FAIL_CNT : Nat := 0x021074
/-- MIL_CNT_CLR. -/
abbrev MIL_CNT_CLR : Nat := 0x021078
/-- GLZ_CTRL. -/
abbrev GLZ_CTRL : Nat := 0x022040
/-- GLZ_STAT. -/
abbrev GLZ_STAT : Nat := 0x022044
/-- GLZ_BAND. -/
abbrev GLZ_BAND : Nat := 0x022048
/-- GLZ_CACHE_FREE. -/
abbrev GLZ_CACHE_FREE : Nat := 0x02204C
/-- GLZ_TILES. -/
abbrev GLZ_TILES : Nat := 0x022050
/-- GLZ_POOL_FREE. -/
abbrev GLZ_POOL_FREE : Nat := 0x022054
/-- GLZ_OUT_BYTES. -/
abbrev GLZ_OUT_BYTES : Nat := 0x022058
/-- GLZ_PLACE_CNT. -/
abbrev GLZ_PLACE_CNT : Nat := 0x022060
/-- GLZ_WIN_CNT. -/
abbrev GLZ_WIN_CNT : Nat := 0x022068
/-- GLZ_WIN_FAIL_CNT. -/
abbrev GLZ_WIN_FAIL_CNT : Nat := 0x02206C
/-- GLZ_EVICT_CNT. -/
abbrev GLZ_EVICT_CNT : Nat := 0x022070
/-- GLZ_POOL_WAIT_CNT. -/
abbrev GLZ_POOL_WAIT_CNT : Nat := 0x022074
/-- GLZ_LAST_WIN. -/
abbrev GLZ_LAST_WIN : Nat := 0x022078
/-- GLZ_LAST_WIN_CRC. -/
abbrev GLZ_LAST_WIN_CRC : Nat := 0x02207C
/-- GLZ_CNT_CLR. -/
abbrev GLZ_CNT_CLR : Nat := 0x022080
/-- TIL_CTRL. -/
abbrev TIL_CTRL : Nat := 0x030040
/-- TIL_STAT. -/
abbrev TIL_STAT : Nat := 0x030044
/-- TIL_SPLIT_SEL. -/
abbrev TIL_SPLIT_SEL : Nat := 0x030048
/-- TIL_SPLIT_BAR. -/
abbrev TIL_SPLIT_BAR : Nat := 0x03004C
/-- TIL_THROTTLED0. -/
abbrev TIL_THROTTLED0 : Nat := 0x030050
/-- TIL_THROTTLED1. -/
abbrev TIL_THROTTLED1 : Nat := 0x030054
/-- TIL_THROTTLED2. -/
abbrev TIL_THROTTLED2 : Nat := 0x030058
/-- TIL_THROTTLED3. -/
abbrev TIL_THROTTLED3 : Nat := 0x03005C
/-- TIL_SPLIT_CNT. -/
abbrev TIL_SPLIT_CNT : Nat := 0x030060
/-- TIL_CNT_CLR. -/
abbrev TIL_CNT_CLR : Nat := 0x030064
/-- TIL_E_ID. -/
abbrev TIL_E_ID (i : Nat) : Nat := 0x040040 + i % 128 * 0x1000
/-- TIL_E_KERNEL. -/
abbrev TIL_E_KERNEL (i : Nat) : Nat := 0x040044 + i % 128 * 0x1000
/-- TIL_E_SCREEN. -/
abbrev TIL_E_SCREEN (i : Nat) : Nat := 0x040048 + i % 128 * 0x1000
/-- TIL_E_DMAP. -/
abbrev TIL_E_DMAP (i : Nat) : Nat := 0x04004C + i % 128 * 0x1000
/-- TIL_E_LREMAP. -/
abbrev TIL_E_LREMAP (i : Nat) : Nat := 0x040050 + i % 128 * 0x1000
/-- TIL_E_SPLIT. -/
abbrev TIL_E_SPLIT (i : Nat) : Nat := 0x040054 + i % 128 * 0x1000
/-- TIL_E_ROWOFS. -/
abbrev TIL_E_ROWOFS (i : Nat) : Nat := 0x040058 + i % 128 * 0x1000
/-- TIL_E_STAT. -/
abbrev TIL_E_STAT (i : Nat) : Nat := 0x04005C + i % 128 * 0x1000
/-- TIL_E_LINE_CYC. -/
abbrev TIL_E_LINE_CYC (i : Nat) : Nat := 0x040060 + i % 128 * 0x1000
/-- TIL_E_NOZZLES. -/
abbrev TIL_E_NOZZLES (i : Nat) : Nat := 0x040064 + i % 128 * 0x1000
/-- TIL_E_ROWLINES. -/
abbrev TIL_E_ROWLINES (i : Nat) : Nat := 0x040068 + i % 128 * 0x1000
/-- TIL_E_THROTTLE_CNT. -/
abbrev TIL_E_THROTTLE_CNT (i : Nat) : Nat := 0x040070 + i % 128 * 0x1000
/-- TIL_E_STRADDLE_CNT. -/
abbrev TIL_E_STRADDLE_CNT (i : Nat) : Nat := 0x040074 + i % 128 * 0x1000
/-- TIL_E_CNT_CLR. -/
abbrev TIL_E_CNT_CLR (i : Nat) : Nat := 0x040078 + i % 128 * 0x1000
/-- TIL_E_TICKLE. -/
abbrev TIL_E_TICKLE (i : Nat) : Nat := 0x040080 + i % 128 * 0x1000
/-- TIL_E_SPIT_AGE. -/
abbrev TIL_E_SPIT_AGE (i : Nat) : Nat := 0x040084 + i % 128 * 0x1000
/-- TIL_E_DECAP_AGE. -/
abbrev TIL_E_DECAP_AGE (i : Nat) : Nat := 0x040088 + i % 128 * 0x1000
/-- TIL_E_SPIT. -/
abbrev TIL_E_SPIT (i : Nat) : Nat := 0x04008C + i % 128 * 0x1000
/-- TIL_E_WEAR. -/
abbrev TIL_E_WEAR (i : Nat) : Nat := 0x040090 + i % 128 * 0x1000
/-- TIL_E_DROPS. -/
abbrev TIL_E_DROPS (i : Nat) : Nat := 0x040098 + i % 128 * 0x1000
/-- TIL_E_INK. -/
abbrev TIL_E_INK (i : Nat) : Nat := 0x0400A0 + i % 128 * 0x1000
/-- TIL_E_TICKLES. -/
abbrev TIL_E_TICKLES (i : Nat) : Nat := 0x0400A8 + i % 128 * 0x1000
/-- TIL_E_SPITS. -/
abbrev TIL_E_SPITS (i : Nat) : Nat := 0x0400B0 + i % 128 * 0x1000
/-- TIL_E_DECAP_CNT. -/
abbrev TIL_E_DECAP_CNT (i : Nat) : Nat := 0x0400B4 + i % 128 * 0x1000
/-- TIL_E_ENTRY_CRC_CNT. -/
abbrev TIL_E_ENTRY_CRC_CNT (i : Nat) : Nat := 0x0400B8 + i % 128 * 0x1000
/-- TIL_E_CNT_CLR2. -/
abbrev TIL_E_CNT_CLR2 (i : Nat) : Nat := 0x0400BC + i % 128 * 0x1000
/-- TIL_VOL_SEL. -/
abbrev TIL_VOL_SEL : Nat := 0x030068
/-- TIL_VOL_A. -/
abbrev TIL_VOL_A : Nat := 0x03006C
/-- TIL_VOL_B. -/
abbrev TIL_VOL_B : Nat := 0x030070
/-- HLK_KLN_HACT. -/
abbrev HLK_KLN_HACT (i : Nat) : Nat := 0x0D1100 + i % 64 * 0x1000
/-- HLK_KLN_HFRONT. -/
abbrev HLK_KLN_HFRONT (i : Nat) : Nat := 0x0D1104 + i % 64 * 0x1000
/-- HLK_KLN_HSYNC. -/
abbrev HLK_KLN_HSYNC (i : Nat) : Nat := 0x0D1108 + i % 64 * 0x1000
/-- HLK_KLN_HBACK. -/
abbrev HLK_KLN_HBACK (i : Nat) : Nat := 0x0D110C + i % 64 * 0x1000
/-- KLN_CHK_CTRL. -/
abbrev KLN_CHK_CTRL : Nat := 0x0C0040
/-- KLN_PLANES. -/
abbrev KLN_PLANES : Nat := 0x0C0044
/-- KLN_SUST_RATE. -/
abbrev KLN_SUST_RATE : Nat := 0x0C0048
/-- KLN_LIMIT. -/
abbrev KLN_LIMIT : Nat := 0x0C004C
/-- KLN_LT. -/
abbrev KLN_LT : Nat := 0x0C0050
/-- KLN_LT_STAT. -/
abbrev KLN_LT_STAT : Nat := 0x0C0054
/-- KLN_LT_PD_MIN. -/
abbrev KLN_LT_PD_MIN : Nat := 0x0C0058
/-- KLN_LT_SR_MIN. -/
abbrev KLN_LT_SR_MIN : Nat := 0x0C005C
/-- KLN_LT_IDLE. -/
abbrev KLN_LT_IDLE : Nat := 0x0C0060
/-- KLN_BAR_STAT. -/
abbrev KLN_BAR_STAT : Nat := 0x0C0064
/-- KLN_BAR_CNT. -/
abbrev KLN_BAR_CNT : Nat := 0x0C0068
/-- KLN_MARK. -/
abbrev KLN_MARK : Nat := 0x0C006C
/-- KLN_HEAD_SEL. -/
abbrev KLN_HEAD_SEL : Nat := 0x0C0070
/-- KLN_H_LEAD. -/
abbrev KLN_H_LEAD : Nat := 0x0C0074
/-- KLN_H_MARGIN_MIN. -/
abbrev KLN_H_MARGIN_MIN : Nat := 0x0C0078
/-- KLN_H_UNDERRUN_CNT. -/
abbrev KLN_H_UNDERRUN_CNT : Nat := 0x0C007C
/-- KLN_H_RATE. -/
abbrev KLN_H_RATE : Nat := 0x0C0080
/-- KLN_H_CLR. -/
abbrev KLN_H_CLR : Nat := 0x0C0084
/-- KLN_CNT_CLR. -/
abbrev KLN_CNT_CLR : Nat := 0x0C0088
/-- KLN_P_STATE. -/
abbrev KLN_P_STATE (i : Nat) : Nat := 0x0C1040 + i % 16 * 0x1000
/-- KLN_P_CTRL. -/
abbrev KLN_P_CTRL (i : Nat) : Nat := 0x0C1044 + i % 16 * 0x1000
/-- KLN_P_VACT. -/
abbrev KLN_P_VACT (i : Nat) : Nat := 0x0C1048 + i % 16 * 0x1000
/-- KLN_P_VBLANK. -/
abbrev KLN_P_VBLANK (i : Nat) : Nat := 0x0C104C + i % 16 * 0x1000
/-- KLN_P_VSTART. -/
abbrev KLN_P_VSTART (i : Nat) : Nat := 0x0C1050 + i % 16 * 0x1000
/-- KLN_P_SNAP. -/
abbrev KLN_P_SNAP (i : Nat) : Nat := 0x0C1054 + i % 16 * 0x1000
/-- KLN_P_LINE. -/
abbrev KLN_P_LINE (i : Nat) : Nat := 0x0C1058 + i % 16 * 0x1000
/-- KLN_P_RUNLINE. -/
abbrev KLN_P_RUNLINE (i : Nat) : Nat := 0x0C105C + i % 16 * 0x1000
/-- KLN_P_SLOT. -/
abbrev KLN_P_SLOT (i : Nat) : Nat := 0x0C1060 + i % 16 * 0x1000
/-- KLN_P_APPLY_SLOT. -/
abbrev KLN_P_APPLY_SLOT (i : Nat) : Nat := 0x0C1064 + i % 16 * 0x1000
/-- KLN_P_APPLY_CTRL. -/
abbrev KLN_P_APPLY_CTRL (i : Nat) : Nat := 0x0C1068 + i % 16 * 0x1000
/-- KLN_P_FWIN_SEL. -/
abbrev KLN_P_FWIN_SEL (i : Nat) : Nat := 0x0C106C + i % 16 * 0x1000
/-- KLN_P_FWIN_X. -/
abbrev KLN_P_FWIN_X (i : Nat) : Nat := 0x0C1070 + i % 16 * 0x1000
/-- KLN_P_FWIN_W. -/
abbrev KLN_P_FWIN_W (i : Nat) : Nat := 0x0C1074 + i % 16 * 0x1000
/-- KLN_P_FWIN_Y. -/
abbrev KLN_P_FWIN_Y (i : Nat) : Nat := 0x0C1078 + i % 16 * 0x1000
/-- KLN_P_FWIN_H. -/
abbrev KLN_P_FWIN_H (i : Nat) : Nat := 0x0C107C + i % 16 * 0x1000
/-- KLN_P_FWIN_RES. -/
abbrev KLN_P_FWIN_RES (i : Nat) : Nat := 0x0C1080 + i % 16 * 0x1000
/-- KLN_P_FWIN_CRC. -/
abbrev KLN_P_FWIN_CRC (i : Nat) : Nat := 0x0C1084 + i % 16 * 0x1000
/-- KLN_P_FWIN_REF. -/
abbrev KLN_P_FWIN_REF (i : Nat) : Nat := 0x0C1088 + i % 16 * 0x1000
/-- KLN_P_FRAME_CNT. -/
abbrev KLN_P_FRAME_CNT (i : Nat) : Nat := 0x0C108C + i % 16 * 0x1000
/-- KLN_P_EMPTY_CNT. -/
abbrev KLN_P_EMPTY_CNT (i : Nat) : Nat := 0x0C1090 + i % 16 * 0x1000
/-- KLN_P_UNDERRUN_CNT. -/
abbrev KLN_P_UNDERRUN_CNT (i : Nat) : Nat := 0x0C1094 + i % 16 * 0x1000
/-- KLN_P_FWIN_FAIL_CNT. -/
abbrev KLN_P_FWIN_FAIL_CNT (i : Nat) : Nat := 0x0C1098 + i % 16 * 0x1000
/-- KLN_P_DEFER_CNT. -/
abbrev KLN_P_DEFER_CNT (i : Nat) : Nat := 0x0C109C + i % 16 * 0x1000
/-- KLN_P_CNT_CLR. -/
abbrev KLN_P_CNT_CLR (i : Nat) : Nat := 0x0C10A0 + i % 16 * 0x1000
/-- KLN_PC_CFG. -/
abbrev KLN_PC_CFG (j : Nat) : Nat := 0x0C0100 + j % 4 * 0x40
/-- KLN_PC_ENC_PL. -/
abbrev KLN_PC_ENC_PL (j : Nat) : Nat := 0x0C0104 + j % 4 * 0x40
/-- KLN_PC_CORR. -/
abbrev KLN_PC_CORR (j : Nat) : Nat := 0x0C0108 + j % 4 * 0x40
/-- KLN_PC_DEV_LIMIT. -/
abbrev KLN_PC_DEV_LIMIT (j : Nat) : Nat := 0x0C010C + j % 4 * 0x40
/-- KLN_PC_PAUSE. -/
abbrev KLN_PC_PAUSE (j : Nat) : Nat := 0x0C0110 + j % 4 * 0x40
/-- KLN_PC_PTICKLE. -/
abbrev KLN_PC_PTICKLE (j : Nat) : Nat := 0x0C0114 + j % 4 * 0x40
/-- KLN_PC_STAT. -/
abbrev KLN_PC_STAT (j : Nat) : Nat := 0x0C0118 + j % 4 * 0x40
/-- KLN_PC_TPER. -/
abbrev KLN_PC_TPER (j : Nat) : Nat := 0x0C011C + j % 4 * 0x40
/-- KLN_PC_TLAST. -/
abbrev KLN_PC_TLAST (j : Nat) : Nat := 0x0C0120 + j % 4 * 0x40
/-- KLN_PC_STEPS. -/
abbrev KLN_PC_STEPS (j : Nat) : Nat := 0x0C0128 + j % 4 * 0x40
/-- KLN_PC_RATE_ERR_CNT. -/
abbrev KLN_PC_RATE_ERR_CNT (j : Nat) : Nat := 0x0C012C + j % 4 * 0x40
/-- KLN_PC_PAUSE_CNT. -/
abbrev KLN_PC_PAUSE_CNT (j : Nat) : Nat := 0x0C0130 + j % 4 * 0x40
/-- KLN_PC_CNT_CLR. -/
abbrev KLN_PC_CNT_CLR (j : Nat) : Nat := 0x0C0134 + j % 4 * 0x40
/-- KLN_TRIP_STAT. -/
abbrev KLN_TRIP_STAT : Nat := 0x0C0200
/-- KLN_TRIP_CLR. -/
abbrev KLN_TRIP_CLR : Nat := 0x0C0204
/-- KLN_TRIP_QUAL. -/
abbrev KLN_TRIP_QUAL : Nat := 0x0C0208
/-- KLN_TRIP_MAP. -/
abbrev KLN_TRIP_MAP (j : Nat) : Nat := 0x0C0210 + j % 4 * 0x4
/-- KLN_TRIP_CNT. -/
abbrev KLN_TRIP_CNT (j : Nat) : Nat := 0x0C0220 + j % 4 * 0x4
/-- KLN_P_PACE_CFG. -/
abbrev KLN_P_PACE_CFG (i : Nat) : Nat := 0x0C1100 + i % 16 * 0x1000
/-- KLN_P_RATIO. -/
abbrev KLN_P_RATIO (i : Nat) : Nat := 0x0C1104 + i % 16 * 0x1000
/-- KLN_P_TRIM. -/
abbrev KLN_P_TRIM (i : Nat) : Nat := 0x0C1108 + i % 16 * 0x1000
/-- KLN_P_REV_TRIM. -/
abbrev KLN_P_REV_TRIM (i : Nat) : Nat := 0x0C110C + i % 16 * 0x1000
/-- KLN_P_FLIGHT. -/
abbrev KLN_P_FLIGHT (i : Nat) : Nat := 0x0C1110 + i % 16 * 0x1000
/-- KLN_P_PROP. -/
abbrev KLN_P_PROP (i : Nat) : Nat := 0x0C1114 + i % 16 * 0x1000
/-- KLN_P_DEV. -/
abbrev KLN_P_DEV (i : Nat) : Nat := 0x0C1118 + i % 16 * 0x1000
/-- KLN_P_DEV_MAX. -/
abbrev KLN_P_DEV_MAX (i : Nat) : Nat := 0x0C111C + i % 16 * 0x1000
/-- KLN_P_PASS. -/
abbrev KLN_P_PASS (i : Nat) : Nat := 0x0C1120 + i % 16 * 0x1000
/-- KLN_P_BIDI. -/
abbrev KLN_P_BIDI (i : Nat) : Nat := 0x0C1124 + i % 16 * 0x1000
/-- KLN_P_FEED_CPL. -/
abbrev KLN_P_FEED_CPL (i : Nat) : Nat := 0x0C1128 + i % 16 * 0x1000
/-- KLN_P_LATE_EDGE_CNT. -/
abbrev KLN_P_LATE_EDGE_CNT (i : Nat) : Nat := 0x0C112C + i % 16 * 0x1000
/-- KLN_P_DEV_CNT. -/
abbrev KLN_P_DEV_CNT (i : Nat) : Nat := 0x0C1130 + i % 16 * 0x1000
/-- KLN_P_PAUSE_SPOIL_CNT. -/
abbrev KLN_P_PAUSE_SPOIL_CNT (i : Nat) : Nat := 0x0C1134 + i % 16 * 0x1000
/-- KLN_P_FEED_LATE_CNT. -/
abbrev KLN_P_FEED_LATE_CNT (i : Nat) : Nat := 0x0C1138 + i % 16 * 0x1000
/-- KLN_P_CNT_CLR2. -/
abbrev KLN_P_CNT_CLR2 (i : Nat) : Nat := 0x0C113C + i % 16 * 0x1000
/-- HLK_KLN_TRIM. -/
abbrev HLK_KLN_TRIM (i : Nat) : Nat := 0x0D1110 + i % 64 * 0x1000
/-- HLK_KLN_RTRIM01. -/
abbrev HLK_KLN_RTRIM01 (i : Nat) : Nat := 0x0D1114 + i % 64 * 0x1000
/-- HLK_KLN_RTRIM23. -/
abbrev HLK_KLN_RTRIM23 (i : Nat) : Nat := 0x0D1118 + i % 64 * 0x1000
/-- HLK_KLN_FIRE. -/
abbrev HLK_KLN_FIRE (i : Nat) : Nat := 0x0D111C + i % 64 * 0x1000
/-- HLK_KLN_SLIP_CNT. -/
abbrev HLK_KLN_SLIP_CNT (i : Nat) : Nat := 0x0D1120 + i % 64 * 0x1000
/-- HLK_KLN_CLR. -/
abbrev HLK_KLN_CLR (i : Nat) : Nat := 0x0D1124 + i % 64 * 0x1000
/-- HLK_CTRL. -/
abbrev HLK_CTRL (i : Nat) : Nat := 0x0D1040 + i % 64 * 0x1000
/-- HLK_STAT. -/
abbrev HLK_STAT (i : Nat) : Nat := 0x0D1044 + i % 64 * 0x1000
/-- HLK_FAULT. -/
abbrev HLK_FAULT (i : Nat) : Nat := 0x0D1048 + i % 64 * 0x1000
/-- HLK_DRV_STAT. -/
abbrev HLK_DRV_STAT (i : Nat) : Nat := 0x0D104C + i % 64 * 0x1000
/-- HLK_TEMP_SEL. -/
abbrev HLK_TEMP_SEL (i : Nat) : Nat := 0x0D1050 + i % 64 * 0x1000
/-- HLK_TEMP. -/
abbrev HLK_TEMP (i : Nat) : Nat := 0x0D1054 + i % 64 * 0x1000
/-- HLK_TEMP_HI. -/
abbrev HLK_TEMP_HI (i : Nat) : Nat := 0x0D1058 + i % 64 * 0x1000
/-- HLK_PG_DELAY. -/
abbrev HLK_PG_DELAY (i : Nat) : Nat := 0x0D105C + i % 64 * 0x1000
/-- HLK_TRAIN_TMO. -/
abbrev HLK_TRAIN_TMO (i : Nat) : Nat := 0x0D1060 + i % 64 * 0x1000
/-- HLK_RX_TMO. -/
abbrev HLK_RX_TMO (i : Nat) : Nat := 0x0D1064 + i % 64 * 0x1000
/-- HLK_RX_CRC_CNT. -/
abbrev HLK_RX_CRC_CNT (i : Nat) : Nat := 0x0D1068 + i % 64 * 0x1000
/-- HLK_LOCK_LOSS_CNT. -/
abbrev HLK_LOCK_LOSS_CNT (i : Nat) : Nat := 0x0D106C + i % 64 * 0x1000
/-- HLK_RETRAIN_CNT. -/
abbrev HLK_RETRAIN_CNT (i : Nat) : Nat := 0x0D1070 + i % 64 * 0x1000
/-- HLK_VAR_LATE_CNT. -/
abbrev HLK_VAR_LATE_CNT (i : Nat) : Nat := 0x0D1074 + i % 64 * 0x1000
/-- HLK_DESYNC_CNT. -/
abbrev HLK_DESYNC_CNT (i : Nat) : Nat := 0x0D1078 + i % 64 * 0x1000
/-- HLK_CNT_CLR. -/
abbrev HLK_CNT_CLR (i : Nat) : Nat := 0x0D107C + i % 64 * 0x1000
/-- HLK_LAST_FAULT. -/
abbrev HLK_LAST_FAULT (i : Nat) : Nat := 0x0D1080 + i % 64 * 0x1000
/-- PIF_STAT. -/
abbrev PIF_STAT : Nat := 0x111040
/-- PIF_SNAP_ALL. -/
abbrev PIF_SNAP_ALL : Nat := 0x111044
/-- PIF_C_CFG. -/
abbrev PIF_C_CFG (i : Nat) : Nat := 0x112040 + i % 4 * 0x1000
/-- PIF_C_CTRL. -/
abbrev PIF_C_CTRL (i : Nat) : Nat := 0x112044 + i % 4 * 0x1000
/-- PIF_C_STAT. -/
abbrev PIF_C_STAT (i : Nat) : Nat := 0x112048 + i % 4 * 0x1000
/-- PIF_C_OFS. -/
abbrev PIF_C_OFS (i : Nat) : Nat := 0x11204C + i % 4 * 0x1000
/-- PIF_C_TRIM. -/
abbrev PIF_C_TRIM (i : Nat) : Nat := 0x112050 + i % 4 * 0x1000
/-- PIF_C_AMP. -/
abbrev PIF_C_AMP (i : Nat) : Nat := 0x112054 + i % 4 * 0x1000
/-- PIF_C_AMP_QUAL. -/
abbrev PIF_C_AMP_QUAL (i : Nat) : Nat := 0x112058 + i % 4 * 0x1000
/-- PIF_C_DIR_HYST. -/
abbrev PIF_C_DIR_HYST (i : Nat) : Nat := 0x11205C + i % 4 * 0x1000
/-- PIF_C_IDX_PERIOD. -/
abbrev PIF_C_IDX_PERIOD (i : Nat) : Nat := 0x112060 + i % 4 * 0x1000
/-- PIF_C_IDX_WIN. -/
abbrev PIF_C_IDX_WIN (i : Nat) : Nat := 0x112068 + i % 4 * 0x1000
/-- PIF_C_LOAD. -/
abbrev PIF_C_LOAD (i : Nat) : Nat := 0x11206C + i % 4 * 0x1000
/-- PIF_C_SNAP. -/
abbrev PIF_C_SNAP (i : Nat) : Nat := 0x112074 + i % 4 * 0x1000
/-- PIF_C_POS. -/
abbrev PIF_C_POS (i : Nat) : Nat := 0x112078 + i % 4 * 0x1000
/-- PIF_C_VEL. -/
abbrev PIF_C_VEL (i : Nat) : Nat := 0x112080 + i % 4 * 0x1000
/-- PIF_C_TS. -/
abbrev PIF_C_TS (i : Nat) : Nat := 0x112084 + i % 4 * 0x1000
/-- PIF_C_AMPL. -/
abbrev PIF_C_AMPL (i : Nat) : Nat := 0x11208C + i % 4 * 0x1000
/-- PIF_C_MINMAX_S. -/
abbrev PIF_C_MINMAX_S (i : Nat) : Nat := 0x112090 + i % 4 * 0x1000
/-- PIF_C_MINMAX_C. -/
abbrev PIF_C_MINMAX_C (i : Nat) : Nat := 0x112094 + i % 4 * 0x1000
/-- PIF_C_IDX_REF. -/
abbrev PIF_C_IDX_REF (i : Nat) : Nat := 0x112098 + i % 4 * 0x1000
/-- PIF_C_IDX_LAST. -/
abbrev PIF_C_IDX_LAST (i : Nat) : Nat := 0x1120A0 + i % 4 * 0x1000
/-- PIF_C_IDX_ERR. -/
abbrev PIF_C_IDX_ERR (i : Nat) : Nat := 0x1120A8 + i % 4 * 0x1000
/-- PIF_C_IDX_CNT. -/
abbrev PIF_C_IDX_CNT (i : Nat) : Nat := 0x1120AC + i % 4 * 0x1000
/-- PIF_C_MISMATCH_CNT. -/
abbrev PIF_C_MISMATCH_CNT (i : Nat) : Nat := 0x1120B0 + i % 4 * 0x1000
/-- PIF_C_MISSING_CNT. -/
abbrev PIF_C_MISSING_CNT (i : Nat) : Nat := 0x1120B4 + i % 4 * 0x1000
/-- PIF_C_AMP_CNT. -/
abbrev PIF_C_AMP_CNT (i : Nat) : Nat := 0x1120B8 + i % 4 * 0x1000
/-- PIF_C_CNT_CLR. -/
abbrev PIF_C_CNT_CLR (i : Nat) : Nat := 0x1120BC + i % 4 * 0x1000
/-- MOT_STAT. -/
abbrev MOT_STAT : Nat := 0x120040
/-- MOT_SNAP_ALL. -/
abbrev MOT_SNAP_ALL : Nat := 0x120044
/-- MOT_TRIP_MAP. -/
abbrev MOT_TRIP_MAP (j : Nat) : Nat := 0x120050 + j % 4 * 0x4
/-- MOT_A_STAT. -/
abbrev MOT_A_STAT (i : Nat) : Nat := 0x121040 + i % 8 * 0x1000
/-- MOT_A_FAULT. -/
abbrev MOT_A_FAULT (i : Nat) : Nat := 0x121044 + i % 8 * 0x1000
/-- MOT_A_SNAP. -/
abbrev MOT_A_SNAP (i : Nat) : Nat := 0x121048 + i % 8 * 0x1000
/-- MOT_A_POS. -/
abbrev MOT_A_POS (i : Nat) : Nat := 0x121050 + i % 8 * 0x1000
/-- MOT_A_TS. -/
abbrev MOT_A_TS (i : Nat) : Nat := 0x121058 + i % 8 * 0x1000
/-- MOT_A_VEL. -/
abbrev MOT_A_VEL (i : Nat) : Nat := 0x121060 + i % 8 * 0x1000
/-- MOT_A_REMAIN. -/
abbrev MOT_A_REMAIN (i : Nat) : Nat := 0x121068 + i % 8 * 0x1000
/-- MOT_A_LOADV. -/
abbrev MOT_A_LOADV (i : Nat) : Nat := 0x121070 + i % 8 * 0x1000
/-- MOT_A_STALL_CNT. -/
abbrev MOT_A_STALL_CNT (i : Nat) : Nat := 0x121074 + i % 8 * 0x1000
/-- MOT_A_OC_CNT. -/
abbrev MOT_A_OC_CNT (i : Nat) : Nat := 0x121078 + i % 8 * 0x1000
/-- MOT_A_CNT_CLR. -/
abbrev MOT_A_CNT_CLR (i : Nat) : Nat := 0x12107C + i % 8 * 0x1000
/-- MOT_A_CFG. -/
abbrev MOT_A_CFG (i : Nat) : Nat := 0x121080 + i % 8 * 0x1000
/-- MOT_A_PWM. -/
abbrev MOT_A_PWM (i : Nat) : Nat := 0x121084 + i % 8 * 0x1000
/-- MOT_A_SD. -/
abbrev MOT_A_SD (i : Nat) : Nat := 0x121088 + i % 8 * 0x1000
/-- MOT_A_CUR. -/
abbrev MOT_A_CUR (i : Nat) : Nat := 0x12108C + i % 8 * 0x1000
/-- MOT_A_CUR2. -/
abbrev MOT_A_CUR2 (i : Nat) : Nat := 0x121090 + i % 8 * 0x1000
/-- MOT_A_LOOP. -/
abbrev MOT_A_LOOP (i : Nat) : Nat := 0x121094 + i % 8 * 0x1000
/-- MOT_A_ADAPT. -/
abbrev MOT_A_ADAPT (i : Nat) : Nat := 0x121098 + i % 8 * 0x1000
/-- MOT_A_STALL. -/
abbrev MOT_A_STALL (i : Nat) : Nat := 0x12109C + i % 8 * 0x1000
/-- MOT_A_STEPIO. -/
abbrev MOT_A_STEPIO (i : Nat) : Nat := 0x1210A0 + i % 8 * 0x1000
/-- MOT_A_HOMECFG. -/
abbrev MOT_A_HOMECFG (i : Nat) : Nat := 0x1210A4 + i % 8 * 0x1000
/-- MOT_A_HOME_V. -/
abbrev MOT_A_HOME_V (i : Nat) : Nat := 0x1210A8 + i % 8 * 0x1000
/-- MOT_A_HOME_V2. -/
abbrev MOT_A_HOME_V2 (i : Nat) : Nat := 0x1210AC + i % 8 * 0x1000
/-- MOT_A_HOME_POS. -/
abbrev MOT_A_HOME_POS (i : Nat) : Nat := 0x1210B0 + i % 8 * 0x1000
/-- MOT_A_HOME_BACK. -/
abbrev MOT_A_HOME_BACK (i : Nat) : Nat := 0x1210B8 + i % 8 * 0x1000
/-- MOT_A_FB_TOL. -/
abbrev MOT_A_FB_TOL (i : Nat) : Nat := 0x1210BC + i % 8 * 0x1000
/-- MOT_A_SOFT_MIN. -/
abbrev MOT_A_SOFT_MIN (i : Nat) : Nat := 0x1210C0 + i % 8 * 0x1000
/-- MOT_A_SOFT_MAX. -/
abbrev MOT_A_SOFT_MAX (i : Nat) : Nat := 0x1210C8 + i % 8 * 0x1000
/-- MOT_A_DEMG. -/
abbrev MOT_A_DEMG (i : Nat) : Nat := 0x1210D0 + i % 8 * 0x1000
/-- MOT_A_FB_SCALE. -/
abbrev MOT_A_FB_SCALE (i : Nat) : Nat := 0x1210D4 + i % 8 * 0x1000
/-- MOT_A_PROF. -/
abbrev MOT_A_PROF (i : Nat) (j : Nat) : Nat := 0x1210E0 + i % 8 * 0x1000 + j % 4 * 0x10
/-- IPL_CTRL. -/
abbrev IPL_CTRL : Nat := 0x130040
/-- IPL_STAT. -/
abbrev IPL_STAT : Nat := 0x130044
/-- IPL_SLICE. -/
abbrev IPL_SLICE : Nat := 0x130048
/-- IPL_LAG_MAX. -/
abbrev IPL_LAG_MAX : Nat := 0x13004C
/-- IPL_STORE. -/
abbrev IPL_STORE : Nat := 0x130050
/-- IPL_BUSY_CYC. -/
abbrev IPL_BUSY_CYC : Nat := 0x130058
/-- IPL_CNT_CLR. -/
abbrev IPL_CNT_CLR : Nat := 0x130060
/-- IPL_C_STAT. -/
abbrev IPL_C_STAT (i : Nat) : Nat := 0x131040 + i % 4 * 0x1000
/-- IPL_C_CTRL. -/
abbrev IPL_C_CTRL (i : Nat) : Nat := 0x131044 + i % 4 * 0x1000
/-- IPL_C_RATE. -/
abbrev IPL_C_RATE (i : Nat) : Nat := 0x131048 + i % 4 * 0x1000
/-- IPL_C_SNAP. -/
abbrev IPL_C_SNAP (i : Nat) : Nat := 0x13104C + i % 4 * 0x1000
/-- IPL_C_U. -/
abbrev IPL_C_U (i : Nat) : Nat := 0x131050 + i % 4 * 0x1000
/-- IPL_C_T. -/
abbrev IPL_C_T (i : Nat) : Nat := 0x131058 + i % 4 * 0x1000
/-- IPL_C_IMAGE. -/
abbrev IPL_C_IMAGE (i : Nat) : Nat := 0x131060 + i % 4 * 0x1000
/-- IPL_C_OLDEST. -/
abbrev IPL_C_OLDEST (i : Nat) : Nat := 0x131064 + i % 4 * 0x1000
/-- IPL_C_LINES. -/
abbrev IPL_C_LINES (i : Nat) : Nat := 0x131068 + i % 4 * 0x1000
/-- IPL_C_MISS_CNT. -/
abbrev IPL_C_MISS_CNT (i : Nat) : Nat := 0x131070 + i % 4 * 0x1000
/-- IPL_C_HDR_ERR_CNT. -/
abbrev IPL_C_HDR_ERR_CNT (i : Nat) : Nat := 0x131074 + i % 4 * 0x1000
/-- IPL_C_CRC_CNT. -/
abbrev IPL_C_CRC_CNT (i : Nat) : Nat := 0x131078 + i % 4 * 0x1000
/-- IPL_C_FIFO_OVF_CNT. -/
abbrev IPL_C_FIFO_OVF_CNT (i : Nat) : Nat := 0x13107C + i % 4 * 0x1000
/-- IPL_C_DUP_CNT. -/
abbrev IPL_C_DUP_CNT (i : Nat) : Nat := 0x131080 + i % 4 * 0x1000
/-- IPL_C_LAG_SKIP_CNT. -/
abbrev IPL_C_LAG_SKIP_CNT (i : Nat) : Nat := 0x131084 + i % 4 * 0x1000
/-- IPL_C_STALL_CNT. -/
abbrev IPL_C_STALL_CNT (i : Nat) : Nat := 0x131088 + i % 4 * 0x1000
/-- IPL_C_STORE_DROP_CNT. -/
abbrev IPL_C_STORE_DROP_CNT (i : Nat) : Nat := 0x13108C + i % 4 * 0x1000
/-- IPL_C_CNT_CLR. -/
abbrev IPL_C_CNT_CLR (i : Nat) : Nat := 0x131090 + i % 4 * 0x1000
/-- IPL_C_CSI. -/
abbrev IPL_C_CSI (i : Nat) : Nat := 0x131100 + i % 4 * 0x1000
/-- IPL_C_PHY. -/
abbrev IPL_C_PHY (i : Nat) : Nat := 0x131104 + i % 4 * 0x1000
/-- IPL_C_WIDTH. -/
abbrev IPL_C_WIDTH (i : Nat) : Nat := 0x131108 + i % 4 * 0x1000
/-- IPL_C_FRAME. -/
abbrev IPL_C_FRAME (i : Nat) : Nat := 0x13110C + i % 4 * 0x1000
/-- IPL_C_EXPO. -/
abbrev IPL_C_EXPO (i : Nat) : Nat := 0x131110 + i % 4 * 0x1000
/-- IPL_C_COL0. -/
abbrev IPL_C_COL0 (i : Nat) : Nat := 0x131114 + i % 4 * 0x1000
/-- IPL_C_COL1. -/
abbrev IPL_C_COL1 (i : Nat) : Nat := 0x131118 + i % 4 * 0x1000
/-- IPL_C_KNOTS. -/
abbrev IPL_C_KNOTS (i : Nat) : Nat := 0x13111C + i % 4 * 0x1000
/-- IPL_C_WHITE. -/
abbrev IPL_C_WHITE (i : Nat) : Nat := 0x131120 + i % 4 * 0x1000
/-- IPL_C_GUT0. -/
abbrev IPL_C_GUT0 (i : Nat) : Nat := 0x131124 + i % 4 * 0x1000
/-- IPL_C_GUT1. -/
abbrev IPL_C_GUT1 (i : Nat) : Nat := 0x131128 + i % 4 * 0x1000
/-- IPL_C_STALL. -/
abbrev IPL_C_STALL (i : Nat) : Nat := 0x13112C + i % 4 * 0x1000
/-- IPL_C_STORE. -/
abbrev IPL_C_STORE (i : Nat) : Nat := 0x131130 + i % 4 * 0x1000
/-- WIN_CTRL. -/
abbrev WIN_CTRL : Nat := 0x140040
/-- WIN_STAT. -/
abbrev WIN_STAT : Nat := 0x140044
/-- WIN_BIN. -/
abbrev WIN_BIN : Nat := 0x140048
/-- WIN_PRED. -/
abbrev WIN_PRED : Nat := 0x14004C
/-- WIN_DEF. -/
abbrev WIN_DEF : Nat := 0x140050
/-- WIN_STREAK. -/
abbrev WIN_STREAK : Nat := 0x140054
/-- WIN_RULE_TMO. -/
abbrev WIN_RULE_TMO : Nat := 0x140058
/-- WIN_PL_SEL. -/
abbrev WIN_PL_SEL : Nat := 0x14005C
/-- WIN_PL_DM0. -/
abbrev WIN_PL_DM0 : Nat := 0x140060
/-- WIN_PL_DM1. -/
abbrev WIN_PL_DM1 : Nat := 0x140064
/-- WIN_PL_SK0. -/
abbrev WIN_PL_SK0 : Nat := 0x140068
/-- WIN_PL_SK1. -/
abbrev WIN_PL_SK1 : Nat := 0x14006C
/-- WIN_PL_SK2. -/
abbrev WIN_PL_SK2 : Nat := 0x140070
/-- WIN_PL_CK. -/
abbrev WIN_PL_CK : Nat := 0x140074
/-- WIN_COPIES_RULED. -/
abbrev WIN_COPIES_RULED : Nat := 0x140080
/-- WIN_DEFECT_CNT. -/
abbrev WIN_DEFECT_CNT : Nat := 0x140084
/-- WIN_STREAK_CNT. -/
abbrev WIN_STREAK_CNT : Nat := 0x140088
/-- WIN_UNINSP_CNT. -/
abbrev WIN_UNINSP_CNT : Nat := 0x14008C
/-- WIN_DEF_LOST_CNT. -/
abbrev WIN_DEF_LOST_CNT : Nat := 0x140090
/-- WIN_PRED_MISS_CNT. -/
abbrev WIN_PRED_MISS_CNT : Nat := 0x140094
/-- WIN_CNT_CLR. -/
abbrev WIN_CNT_CLR : Nat := 0x140098
/-- GLN_CTRL. -/
abbrev GLN_CTRL : Nat := 0x141040
/-- GLN_QUAL. -/
abbrev GLN_QUAL : Nat := 0x141044
/-- GLN_SPMIN. -/
abbrev GLN_SPMIN : Nat := 0x141048
/-- GLN_PL_SEL. -/
abbrev GLN_PL_SEL : Nat := 0x14104C
/-- GLN_PL_STAT. -/
abbrev GLN_PL_STAT : Nat := 0x141050
/-- GLN_PL_SAMPLES. -/
abbrev GLN_PL_SAMPLES : Nat := 0x141054
/-- GLN_PL_WINDOWS. -/
abbrev GLN_PL_WINDOWS : Nat := 0x141058
/-- GLN_PL_LAST_Q. -/
abbrev GLN_PL_LAST_Q : Nat := 0x14105C
/-- GLN_CNT_CLR. -/
abbrev GLN_CNT_CLR : Nat := 0x141060
/-- CAL_GAIN_LIM. -/
abbrev CAL_GAIN_LIM : Nat := 0x142040
/-- CAL_STEP. -/
abbrev CAL_STEP : Nat := 0x142044
/-- CAL_SMOOTH. -/
abbrev CAL_SMOOTH : Nat := 0x142048
/-- CAL_CHG. -/
abbrev CAL_CHG : Nat := 0x14204C
/-- CAL_MINSAMP. -/
abbrev CAL_MINSAMP : Nat := 0x142050
/-- CAL_REF_TOL. -/
abbrev CAL_REF_TOL : Nat := 0x142054
/-- CAL_SOLVE. -/
abbrev CAL_SOLVE : Nat := 0x142058
/-- CAL_PL_SEL. -/
abbrev CAL_PL_SEL : Nat := 0x14205C
/-- CAL_PL_GBASE. -/
abbrev CAL_PL_GBASE : Nat := 0x142060
/-- CAL_PL_STAT. -/
abbrev CAL_PL_STAT : Nat := 0x142064
/-- CAL_PL_ACC. -/
abbrev CAL_PL_ACC : Nat := 0x142068
/-- CAL_PL_REJ. -/
abbrev CAL_PL_REJ : Nat := 0x14206C
/-- CAL_PL_LAST_SLOT. -/
abbrev CAL_PL_LAST_SLOT : Nat := 0x142070
/-- CAL_REF_SEL. -/
abbrev CAL_REF_SEL : Nat := 0x142074
/-- CAL_REF_MEAN. -/
abbrev CAL_REF_MEAN : Nat := 0x142078
/-- CAL_REF_ANCHOR. -/
abbrev CAL_REF_ANCHOR : Nat := 0x14207C
/-- CAL_REF_STAT. -/
abbrev CAL_REF_STAT : Nat := 0x142080
/-- CAL_CNT_CLR. -/
abbrev CAL_CNT_CLR : Nat := 0x142084
/-- TRM_CTRL. -/
abbrev TRM_CTRL : Nat := 0x150040
/-- TRM_STAT. -/
abbrev TRM_STAT : Nat := 0x150044
/-- TRM_MUTE. -/
abbrev TRM_MUTE : Nat := 0x150048
/-- TRM_STALE. -/
abbrev TRM_STALE : Nat := 0x15004C
/-- TRM_TX_ADV_A. -/
abbrev TRM_TX_ADV_A : Nat := 0x150050
/-- TRM_TX_ADV_B. -/
abbrev TRM_TX_ADV_B : Nat := 0x150054
/-- TRM_START. -/
abbrev TRM_START : Nat := 0x150058
/-- TRM_FRAME. -/
abbrev TRM_FRAME : Nat := 0x15005C
/-- TRM_NODE_SEL. -/
abbrev TRM_NODE_SEL : Nat := 0x150060
/-- TRM_NODE_STAT. -/
abbrev TRM_NODE_STAT : Nat := 0x150064
/-- TRM_NODE_OFS. -/
abbrev TRM_NODE_OFS : Nat := 0x150068
/-- TRM_NODE_RATE. -/
abbrev TRM_NODE_RATE : Nat := 0x15006C
/-- TRM_PRESS_RATE. -/
abbrev TRM_PRESS_RATE : Nat := 0x150070
/-- TRM_BEACON_MISS_CNT. -/
abbrev TRM_BEACON_MISS_CNT : Nat := 0x150074
/-- TRM_CRC_CNT. -/
abbrev TRM_CRC_CNT : Nat := 0x150078
/-- TRM_SLOT_EDGE_CNT. -/
abbrev TRM_SLOT_EDGE_CNT : Nat := 0x15007C
/-- TRM_MUTE_CNT. -/
abbrev TRM_MUTE_CNT : Nat := 0x150080
/-- TRM_SWITCH_CNT. -/
abbrev TRM_SWITCH_CNT : Nat := 0x150084
/-- TRM_CNT_CLR. -/
abbrev TRM_CNT_CLR : Nat := 0x150088
/-- TIM_CTRL. -/
abbrev TIM_CTRL : Nat := 0x005040
/-- TIM_STAT. -/
abbrev TIM_STAT : Nat := 0x005044
/-- TIM_S. -/
abbrev TIM_S : Nat := 0x005048
/-- TIM_NS. -/
abbrev TIM_NS : Nat := 0x00504C
/-- TIM_S_SNAP. -/
abbrev TIM_S_SNAP : Nat := 0x005050
/-- TIM_FRAC. -/
abbrev TIM_FRAC : Nat := 0x005054
/-- TIM_WR_S. -/
abbrev TIM_WR_S : Nat := 0x005058
/-- TIM_WR_NS. -/
abbrev TIM_WR_NS : Nat := 0x00505C
/-- TIM_WR_FRAC. -/
abbrev TIM_WR_FRAC : Nat := 0x005060
/-- TIM_WR_CTRL. -/
abbrev TIM_WR_CTRL : Nat := 0x005064
/-- TIM_RATE. -/
abbrev TIM_RATE : Nat := 0x005068
/-- TIM_STEP_THR. -/
abbrev TIM_STEP_THR : Nat := 0x00506C
/-- TIM_LOCK_THR. -/
abbrev TIM_LOCK_THR : Nat := 0x005070
/-- TIM_ERR. -/
abbrev TIM_ERR : Nat := 0x005074
/-- TIM_PTM_OFS. -/
abbrev TIM_PTM_OFS : Nat := 0x005078
/-- TIM_XSNAP. -/
abbrev TIM_XSNAP : Nat := 0x005080
/-- TIM_X_FT. -/
abbrev TIM_X_FT : Nat := 0x005088
/-- TIM_X_S. -/
abbrev TIM_X_S : Nat := 0x005090
/-- TIM_X_NS. -/
abbrev TIM_X_NS : Nat := 0x005094
/-- TIM_X_FRAC. -/
abbrev TIM_X_FRAC : Nat := 0x005098
/-- TIM_STEP_CNT. -/
abbrev TIM_STEP_CNT : Nat := 0x00509C
/-- TIM_MEAS_CNT. -/
abbrev TIM_MEAS_CNT : Nat := 0x0050A0
/-- TIM_CNT_CLR. -/
abbrev TIM_CNT_CLR : Nat := 0x0050A4
/-- SAG_STAT. -/
abbrev SAG_STAT : Nat := 0x008040
/-- SAG_BOOT. -/
abbrev SAG_BOOT : Nat := 0x008044
/-- SAG_NONCE0. -/
abbrev SAG_NONCE0 : Nat := 0x008048
/-- SAG_NONCE_R. -/
abbrev SAG_NONCE_R (j : Nat) : Nat := 0x00804C + j % 7 * 0x4
/-- SAG_DBG_SCOPE. -/
abbrev SAG_DBG_SCOPE : Nat := 0x008068
/-- SAG_FW_VIOL_CNT. -/
abbrev SAG_FW_VIOL_CNT : Nat := 0x00806C
/-- SAG_LAST_VIOL. -/
abbrev SAG_LAST_VIOL : Nat := 0x008070
/-- SAG_FAULT_CNT. -/
abbrev SAG_FAULT_CNT : Nat := 0x008074
/-- SAG_CNT_CLR. -/
abbrev SAG_CNT_CLR : Nat := 0x008078
/-- TLY_CTRL. -/
abbrev TLY_CTRL : Nat := 0x009040
/-- TLY_STAT. -/
abbrev TLY_STAT : Nat := 0x009044
/-- TLY_CKPT. -/
abbrev TLY_CKPT : Nat := 0x009048
/-- TLY_I2C_CFG. -/
abbrev TLY_I2C_CFG : Nat := 0x00904C
/-- TLY_SLOT_SEL. -/
abbrev TLY_SLOT_SEL : Nat := 0x009050
/-- TLY_SLOT_CFG. -/
abbrev TLY_SLOT_CFG : Nat := 0x009054
/-- TLY_SLOT_HEADS. -/
abbrev TLY_SLOT_HEADS : Nat := 0x009058
/-- TLY_SLOT_STAT. -/
abbrev TLY_SLOT_STAT : Nat := 0x009060
/-- TLY_SLOT_USAGE. -/
abbrev TLY_SLOT_USAGE : Nat := 0x009068
/-- TLY_SLOT_CAP. -/
abbrev TLY_SLOT_CAP : Nat := 0x009070
/-- TLY_SLOT_QUANTUM. -/
abbrev TLY_SLOT_QUANTUM : Nat := 0x009078
/-- TLY_LOSS_CNT. -/
abbrev TLY_LOSS_CNT : Nat := 0x009080
/-- TLY_AUTH_FAIL_CNT. -/
abbrev TLY_AUTH_FAIL_CNT : Nat := 0x009084
/-- TLY_I2C_ERR_CNT. -/
abbrev TLY_I2C_ERR_CNT : Nat := 0x009088
/-- TLY_WB_FAIL_CNT. -/
abbrev TLY_WB_FAIL_CNT : Nat := 0x00908C
/-- TLY_CNT_CLR. -/
abbrev TLY_CNT_CLR : Nat := 0x009090
/-- CRK_STAT. -/
abbrev CRK_STAT : Nat := 0x007040
/-- CRK_DEV0. -/
abbrev CRK_DEV0 : Nat := 0x007044
/-- CRK_DEV1. -/
abbrev CRK_DEV1 : Nat := 0x007048
/-- CRK_COMPACT_AT. -/
abbrev CRK_COMPACT_AT : Nat := 0x00704C
/-- CRK_CAL_PERIOD. -/
abbrev CRK_CAL_PERIOD : Nat := 0x007050
/-- CRK_SEQ. -/
abbrev CRK_SEQ : Nat := 0x007058
/-- CRK_GEN. -/
abbrev CRK_GEN : Nat := 0x007060
/-- CRK_SNAP. -/
abbrev CRK_SNAP : Nat := 0x007064
/-- CRK_PROG_BYTES. -/
abbrev CRK_PROG_BYTES : Nat := 0x007068
/-- CRK_WEAR. -/
abbrev CRK_WEAR : Nat := 0x007070
/-- CRK_TORN_CNT. -/
abbrev CRK_TORN_CNT : Nat := 0x007074
/-- CRK_VERIFY_CNT. -/
abbrev CRK_VERIFY_CNT : Nat := 0x007078
/-- CRK_COMPACT_CNT. -/
abbrev CRK_COMPACT_CNT : Nat := 0x00707C
/-- CRK_GRACE_RES. -/
abbrev CRK_GRACE_RES : Nat := 0x007080
/-- CRK_CNT_CLR. -/
abbrev CRK_CNT_CLR : Nat := 0x007084
/-- STK_CTRL. -/
abbrev STK_CTRL : Nat := 0x006040
/-- STK_STAT. -/
abbrev STK_STAT : Nat := 0x006044
/-- STK_LIMIT. -/
abbrev STK_LIMIT : Nat := 0x006048
/-- STK_ALARM_CNT. -/
abbrev STK_ALARM_CNT : Nat := 0x00604C
/-- STK_ALERT_EN. -/
abbrev STK_ALERT_EN (j : Nat) : Nat := 0x006050 + j % 8 * 0x4
/-- STK_EVT_SEQ. -/
abbrev STK_EVT_SEQ : Nat := 0x006070
/-- STK_EVT_DROP_CNT. -/
abbrev STK_EVT_DROP_CNT : Nat := 0x006074
/-- STK_TR_DROP_CNT. -/
abbrev STK_TR_DROP_CNT : Nat := 0x006078
/-- STK_TR_GAP_CNT. -/
abbrev STK_TR_GAP_CNT : Nat := 0x00607C
/-- STK_HOST_BYTES. -/
abbrev STK_HOST_BYTES : Nat := 0x006080
/-- STK_THROTTLE_CNT. -/
abbrev STK_THROTTLE_CNT : Nat := 0x006088
/-- STK_CNT_CLR. -/
abbrev STK_CNT_CLR : Nat := 0x00608C
/-- CLK_STAT. -/
abbrev CLK_STAT : Nat := 0x001040
/-- CLK_GATED. -/
abbrev CLK_GATED : Nat := 0x001044
/-- CLK_DLL. -/
abbrev CLK_DLL : Nat := 0x001048
/-- CLK_IOCAL_PERIOD. -/
abbrev CLK_IOCAL_PERIOD : Nat := 0x00104C
/-- CLK_IOCAL_CTRL. -/
abbrev CLK_IOCAL_CTRL : Nat := 0x001050
/-- CLK_IOCAL_CNT. -/
abbrev CLK_IOCAL_CNT : Nat := 0x001054
/-- CLK_IOCAL_SEL. -/
abbrev CLK_IOCAL_SEL : Nat := 0x001058
/-- CLK_IOCAL_TRIM. -/
abbrev CLK_IOCAL_TRIM : Nat := 0x00105C
/-- CLK_LOL_CNT. -/
abbrev CLK_LOL_CNT : Nat := 0x001060
/-- CLK_RST_CAUSE. -/
abbrev CLK_RST_CAUSE : Nat := 0x001064
/-- CLK_CDC_SEL. -/
abbrev CLK_CDC_SEL : Nat := 0x001068
/-- CLK_CDC_STALL. -/
abbrev CLK_CDC_STALL : Nat := 0x00106C
/-- CLK_CDC_HWM. -/
abbrev CLK_CDC_HWM : Nat := 0x001070
/-- CLK_CNT_CLR. -/
abbrev CLK_CNT_CLR : Nat := 0x001074
/-- PWR_CTRL. -/
abbrev PWR_CTRL : Nat := 0x002040
/-- PWR_STAT. -/
abbrev PWR_STAT : Nat := 0x002044
/-- PWR_INRUSH_BUDGET. -/
abbrev PWR_INRUSH_BUDGET : Nat := 0x002048
/-- PWR_MIN_GAP. -/
abbrev PWR_MIN_GAP : Nat := 0x00204C
/-- PWR_WIN_CHARGE. -/
abbrev PWR_WIN_CHARGE : Nat := 0x002050
/-- PWR_QUEUE. -/
abbrev PWR_QUEUE : Nat := 0x002054
/-- PWR_SEG_SEL. -/
abbrev PWR_SEG_SEL : Nat := 0x002058
/-- PWR_SEG_HEADS. -/
abbrev PWR_SEG_HEADS : Nat := 0x002060
/-- PWR_HEAD_SEL. -/
abbrev PWR_HEAD_SEL : Nat := 0x002068
/-- PWR_HEAD_INFO. -/
abbrev PWR_HEAD_INFO : Nat := 0x00206C
/-- PWR_SUPPLY. -/
abbrev PWR_SUPPLY : Nat := 0x002070
/-- PWR_DEEP_WAKE. -/
abbrev PWR_DEEP_WAKE : Nat := 0x002074
/-- PWR_WAKE_TO_CNT. -/
abbrev PWR_WAKE_TO_CNT : Nat := 0x002078
/-- PWR_CNT_CLR. -/
abbrev PWR_CNT_CLR : Nat := 0x00207C
/-- GLB_RST. -/
abbrev GLB_RST : Nat := 0x000050
/-- GLB_RST_CAUSE. -/
abbrev GLB_RST_CAUSE : Nat := 0x000054
/-- GLB_WDOG_CNT. -/
abbrev GLB_WDOG_CNT : Nat := 0x000058
/-- THM_STAT. -/
abbrev THM_STAT : Nat := 0x003040
/-- THM_TJ. -/
abbrev THM_TJ : Nat := 0x003044
/-- THM_MAX. -/
abbrev THM_MAX : Nat := 0x003048
/-- THM_WARN_THR. -/
abbrev THM_WARN_THR : Nat := 0x00304C
/-- THM_TIL_THR. -/
abbrev THM_TIL_THR : Nat := 0x003050
/-- THM_SEL. -/
abbrev THM_SEL : Nat := 0x003054
/-- THM_SENSOR. -/
abbrev THM_SENSOR : Nat := 0x003058
/-- THM_WARN_CNT. -/
abbrev THM_WARN_CNT : Nat := 0x00305C
/-- THM_CNT_CLR. -/
abbrev THM_CNT_CLR : Nat := 0x003060
/-- FAN_CFG. -/
abbrev FAN_CFG (j : Nat) : Nat := 0x004100 + j % 4 * 0x20
/-- FAN_CURVE. -/
abbrev FAN_CURVE (j : Nat) : Nat := 0x004104 + j % 4 * 0x20
/-- FAN_TIME. -/
abbrev FAN_TIME (j : Nat) : Nat := 0x004108 + j % 4 * 0x20
/-- FAN_STAT. -/
abbrev FAN_STAT (j : Nat) : Nat := 0x00410C + j % 4 * 0x20
/-- FAN_RPM_MIN. -/
abbrev FAN_RPM_MIN (j : Nat) : Nat := 0x004110 + j % 4 * 0x20
/-- FAN_STALL_CNT. -/
abbrev FAN_STALL_CNT (j : Nat) : Nat := 0x004114 + j % 4 * 0x20
/-- FAN_CNT_CLR. -/
abbrev FAN_CNT_CLR (j : Nat) : Nat := 0x004118 + j % 4 * 0x20

end Sys2Proof.Reg
end

