-- ==== Sys2Proof/Machine/Types.lean ====
section
/-! DEFINITION. The pieces of the machine's state, unit by unit, as plain data. -/

namespace Sys2Proof.Machine
open Sys2Proof

/-! ## Registers and pages (spec/02) -/

/-- What a BAR0 page is (R58). -/
inductive PageKind where
  | glb | clk | pwr | thm | fan | tim | stk | crk | sag | tly | hif | mem | thr | mil | glz | tilC | tilE
  | klnC | klnP | hlk | pifC | pifCh | motC | motA | iplC | iplP | win | gln | cal | trm
  deriving DecidableEq, Repr

/-- Access types of registers (spec/00). `mixed` holds plain and write-one-to-clear bits together; `rwsEven` is the
Tiller's "RWS even, RO odd". -/
inductive Access where
  | ro | rw | wo | rws | rwsEven | mixed
  deriving DecidableEq, Repr

/-- Reset classes of fields (spec/00). -/
inductive RstClass where
  | p | n | h | w | b
  deriving DecidableEq, Repr

/-- A field whose defined range is less than its width: low bit, width, least and greatest value (R41). -/
structure FieldRange where
  lo : Nat
  width : Nat
  min : Nat
  max : Nat
  deriving DecidableEq, Repr

/-- A row of a register table: offset in the page, access, bits a write reaches, write-one-to-clear bits, reset value
and class, whether it is the low word of a 64-bit register, and its field ranges. -/
structure RegDef where
  off : Nat
  acc : Access
  mask : Word
  w1c : Word
  reset : Word
  cls : RstClass
  wide : Bool
  ranges : List FieldRange
  deriving DecidableEq, Repr

/-- What a latch in the present CK_FAB cycle sees of a page: PENDING, HOLD, CMD_HOLD and the shadow as they stood before that cycle
(R23, R50). -/
structure PageWas where
  pending : Bool
  hold : Bool
  cmdHold : Bool
  shd : Tab Word
  deriving DecidableEq, Repr

/-- The common header of a page (spec/02, "The page header"), with what the header does not show: a soft reset in
progress (R37), the CK_FAB cycle in which its shadow or its holds were last touched (its number plus 1; 0: never), how the page stood
before that cycle, and whether a write has landed in the shadow in it (R50). -/
structure Page where
  en : Bool
  cga : Bool
  irqRaw : Word
  irqEn : Word
  errCode : BitVec 16
  errCount : BitVec 8
  pending : Bool
  deferred : Bool
  hold : Bool
  view : Bool
  cmdHold : Bool
  latchCnt : BitVec 16
  owner : BitVec 2
  denyCnt : BitVec 16
  inReset : Bool
  cyc : Nat
  was : PageWas
  wrote : Bool
  deriving DecidableEq, Repr

/-- The register file. Keys are a BAR0 address plus 2^24 times the index of a window register's entry. `act` holds the
value the hardware uses, `shd` the shadow of an RWS register where it differs in having been written since the last
latch; a key in neither holds its reset value. `hold` are the holding registers of R43 and `snap` the captures of R46,
both keyed by address and initiator. `rdata` are the dwords each initiator's latest read returned, in ascending
address order (R33). -/
structure Regs where
  act : Tab Word
  shd : Tab Word
  hold : Tab Word
  snap : Tab Word
  rdata : Tab (List Word)
  deriving DecidableEq, Repr

/-! ## Time (spec/17, "Press time") -/

/-- The fire timebase in 39.0625 ps units and press time with its hidden bits: `frac` counts 2^-48 ns (R432). `uptime` is the
model's own count of the same units since power-on, which no other reset clears. -/
structure Clock where
  fire : DWord
  uptime : Nat
  sec : Word
  ns : Nat
  frac : Nat
  slew : Int
  slewLeft : Nat
  atSec : Bool
  valid : Bool
  locked : Bool
  holdover : Bool
  first : Bool
  goodRun : Nat
  badRun : Nat
  missRun : Nat
  deriving DecidableEq, Repr

/-! ## Host interface (spec/03) -/

inductive RingState where
  | disabled | active | stopped | error
  deriving DecidableEq, Repr

/-- Ring types (R66). -/
inductive RingType where
  | command | completion | data | event | receipt | trace
  deriving DecidableEq, Repr

/-- An entry the controller has written to a controller-produced ring. -/
inductive Record where
  | cpl (status : BitVec 16) (tag : BitVec 16) (ring : Nat) (ci : Nat) (time : DWord) (result : BitVec 112)
  | event (code : BitVec 16) (alarm commit : Bool) (seq : Word) (time : DWord) (payload : List Byte)
  | eventCont (payload : List Byte)
  | gap (firstSeq : Word) (firstTime : DWord) (count : Word) (lastSeq : Word) (lastTime : DWord)
  | receipt (bytes : List Byte)
  | trace (typ core prio : Nat) (seq : Word) (time : DWord) (data : List Byte)
  deriving DecidableEq, Repr

/-- Events lost for a ring since its last gap record (R505). -/
structure Gap where
  count : Word
  firstSeq : Word
  firstTime : DWord
  lastSeq : Word
  lastTime : DWord
  deriving DecidableEq, Repr

/-- A ring (R66) with its indices (R67), interrupt moderation (R82), error field and ignored doorbells (R73, R74), the
command descriptors read and not taken with their FENCE flags, the commands executing when its RING_DESTROY was accepted, the
entries written and not yet freed, and an event ring's block mask and gap (R505). -/
structure Ring where
  state : RingState
  typ : RingType
  log2 : Nat
  base : DWord
  tenant : Nat
  wb : DWord
  pi : Nat
  ci : Nat
  paired : Nat
  vector : Nat
  imodCnt : Nat
  imodTime : Nat
  armed : Bool
  sinceArm : Nat
  timing : Bool
  unsignalled : Bool
  wbPending : Bool
  dbIgn : Nat
  lastErr : BitVec 16
  fetched : Nat
  fences : List Bool
  drains : List Nat
  nextRead : Nat
  entries : List Record
  filter : BitVec 256
  gap : Gap
  destroying : Bool
  deriving DecidableEq, Repr

/-- A host read outstanding on a tag (R77, R85). `descr` reads ring entries; `data` reads stream bytes. -/
inductive ReadKind where
  | descr (ring start count : Nat)
  | data (ring entry tenant handle off : Nat)
  deriving DecidableEq, Repr

structure HostRead where
  kind : ReadKind
  addr : Nat
  len : Nat
  reissued : Bool
  dropped : Bool
  deriving DecidableEq, Repr

/-- A data fetch waiting to be issued (R78): its age, where its bytes go, when it was queued, and whether it has been promoted. -/
structure Fetch where
  seq : Nat
  ring : Nat
  entry : Nat
  tenant : Nat
  handle : Nat
  addr : Nat
  off : Nat
  len : Nat
  since : Nat
  promoted : Bool
  deriving DecidableEq, Repr

/-- The fields of PCI configuration space that software programs and the rules use (R62, R63, R65, R77, R83 to R85, R87): Max Snoop and Max
No-Snoop Latency in ns, the Completion Timeout range of Device Control 2, ECRC generation and checking, the AER severities, one bit an
error as PCI Express places it; `subsystem` is the Subsystem ID above the Subsystem Vendor ID. -/
structure PciCfg where
  busMaster : Bool
  d3hot : Bool
  mrrs : Nat
  relaxed : Bool
  ltrEn : Bool
  maxSnoop : Nat
  maxNoSnoop : Nat
  ptmEn : Bool
  toDisable : Bool
  toRange : Nat
  ecrcGen : Bool
  ecrcCheck : Bool
  severity : Word
  subsystem : Word
  deriving DecidableEq, Repr

/-- What AER reports: requests refused, reads that fail, a completion for no request (R85, R86, R88). -/
inductive AerErr where
  | poisoned | timeout | abort | unexpected | ecrc | unsupported
  deriving DecidableEq, Repr

/-- An AER report: the error and whether its programmed severity is fatal. -/
structure AerRec where
  err : AerErr
  fatal : Bool
  deriving DecidableEq, Repr

/-- An MSI-X table entry but for its mask: message address and data (R64). -/
structure MsixEntry where
  addr : DWord
  data : Word
  deriving DecidableEq, Repr

/-- HIF. `msix` and `masked` are the MSI-X table, `msixPend` its pending bits; `stale` the tags of requests an FLR abandoned that no
completion has freed yet, each with whether Completion Timeout Disable holds it (R87, R88). -/
structure Hif where
  cfg : PciCfg
  rings : Tab Ring
  msix : Tab MsixEntry
  masked : Tab Bool
  msixPend : Tab Bool
  reads : Tab HostRead
  stale : Tab Bool
  fetches : List Fetch
  nextFetch : Nat
  ltrLast : Option (BitVec 16)
  ptmOut : Bool
  aer : List AerRec
  linkSpeed : Nat
  linkWidth : Nat
  dlUp : Bool
  deriving DecidableEq, Repr

/-- What sets a delay line: the master code, and the line's fine trim as CLK_IOCAL_TRIM holds it (R520, R521). -/
structure Tap where
  code : Nat
  trim : Nat
  deriving DecidableEq, Repr

/-- What leaves the controller on a link or into host memory outside the rings, newest first: the model's own record of
its outputs. -/
inductive Out where
  | msix (vec : Nat)
  | index (ring value : Nat)
  | hostWrite (addr : Nat) (bytes : List Byte)
  | hostRead (tag addr len : Nat) (relaxed : Bool)
  | completerAbort | unsupportedRequest
  | ltr (msg : BitVec 16)
  | ptmRequest
  | fire (head row : Nat) (instant : Nat) (tap : Tap)
  | frame (head : Nat) (bytes : List Byte)
  | burst (bus instant : Nat) (bytes : List Byte)
  | step (axis : Nat) (forward : Bool) (instant : Nat)
  | i2c (controller addr : Nat) (bytes : List Byte)
  | mark (m : Nat)
  | sdata (head start : Nat) (codes : List Nat)
  | gates (axis : Nat) (period : Nat) (bridges : List (Nat × Nat × Nat × Nat))
  deriving DecidableEq, Repr

/-! ## Stook (spec/21) -/

structure Event where
  code : BitVec 16
  alarm : Bool
  commit : Bool
  seq : Word
  time : DWord
  tenant : Option Nat
  payload : List Byte
  deriving DecidableEq, Repr

/-- An alarm record (R507). -/
structure AlarmRec where
  count : Word
  first : DWord
  last : DWord
  detail : List Byte
  deriving DecidableEq, Repr

structure TracePkt where
  typ : Nat
  core : Nat
  prio : Nat
  seq : Word
  time : DWord
  data : List Byte
  deriving DecidableEq, Repr

/-- A control core's trace state: its packet number, FIFO, packets dropped or shed by priority since its last GAP, and
whether it sleeps or stalls (R510 to R512). -/
structure CoreTrace where
  seq : Word
  fifo : List TracePkt
  lost : Tab Nat
  owesGap : Bool
  asleep : Bool
  deriving DecidableEq, Repr

/-- One core's trace configuration for one packet type: enable and lowest priority admitted (R510). -/
structure TraceCfg where
  en : Bool
  lowest : Nat
  deriving DecidableEq, Repr

/-- `bucket` is the token bucket of R502 in 1/800 byte, the refill of one CK_FIRE cycle at 1 MB/s; `waitSince` the instant a class began to
wait for it, `waitMark` that from which STK_THROTTLE_CNT has yet to count. -/
structure Stook where
  staging : List Event
  trace : List TracePkt
  alarms : Tab AlarmRec
  cores : Tab CoreTrace
  cfg : Tab TraceCfg
  bucket : Int
  shed : Nat
  shedSince : Nat
  throttled : Bool
  waitSince : Option Nat
  waitMark : Nat
  deriving DecidableEq, Repr

/-! ## Resident firmware's commands (spec/05) -/

/-- A command that has been taken: its transport part, the CI after taking it, its ring's tenant and paired completion ring, and the order
number of its taking (R121, R125). -/
structure Hdr where
  d : Desc
  ci : Nat
  tenant : Nat
  paired : Nat
  seq : Nat
  deriving DecidableEq, Repr

/-- A taken command that has not completed: the command itself, whether it is accepted (R123), the pages that still have
to latch its writes and the slot and lateness of their latches (R127), what it still waits for, the objects it names
(R123), when it was parked, and for a QUOTA_GRANT what to undo: its count, its sequence and the sequence before it (R126). -/
structure Parked where
  h : Hdr
  cmd : Instr
  accepted : Bool
  pages : List Nat
  slot : Word
  late : Bool
  waits : List Nat
  objs : List Nat
  since : Nat
  undo : Option (Nat × Nat × Nat)
  deriving DecidableEq, Repr

/-- A completion kept while its completion ring takes none (R65, R70): the ring, the record (none where QUIET suppresses it), the
command's ring, and the bulk output still to be written before it (R117). -/
structure HeldCpl where
  ring : Nat
  rcd : Option Record
  cmdRing : Nat
  seq : Nat
  writes : List (Nat × List Byte)
  deriving DecidableEq, Repr

/-- A patch record found at boot (R131, R144): sequence, target ROM version, status and length. -/
structure PatchRec where
  seq : Nat
  rom : Nat
  status : Nat
  len : Nat
  deriving DecidableEq, Repr

/-- Resident firmware's commands: those taken and not completed, completions held, the order number of the next taking, the ring other
than 0 served last and whether the latest taking was from ring 0 (R121). -/
structure Firmware where
  parked : List Parked
  held : List HeldCpl
  nextSeq : Nat
  lastServed : Nat
  zeroLast : Bool
  ready : Bool
  deriving DecidableEq, Repr

/-! ## Tenants, jobs, pages, copies, streams (spec/04, spec/05) -/

inductive TenantState where
  | disabled | enabled | draining
  deriving DecidableEq, Repr

/-- A tenant (R91 to R93) with the step its TENANT_DISABLE has reached (R111). -/
structure Tenant where
  state : TenantState
  maxJobs : Nat
  maxCopies : Nat
  grant : Word
  charged : Word
  reserved : Word
  drainStep : Nat
  drainRec : Nat
  deriving DecidableEq, Repr

/-- Where a job stands (R96). -/
inductive JobState where
  | isOpen | closing
  deriving DecidableEq, Repr

structure Job where
  tenant : Nat
  id : Nat
  state : JobState
  nonceBase : DWord
  maxCopy : Nat
  deriving DecidableEq, Repr

structure PagePlane where
  plane : Nat
  width : Nat
  handle : Nat
  deriving DecidableEq, Repr

structure Template where
  tenant : Nat
  job : Nat
  page : Nat
  mask : BitVec 16
  level : Bool
  sealed : Bool
  height : Nat
  planes : List PagePlane
  releasing : Bool
  deriving DecidableEq, Repr

/-- The states of a copy (spec/04, "Copy states"). -/
inductive CopyState where
  | queued | ready | committed | fired | ruled | sealed | voided
  deriving DecidableEq, Repr

/-- A placement entry (spec/04): plane, operation 1 to 4, value, tile or width, destination, RECT_COPY height, source
column and line difference. -/
structure Placement where
  plane : Nat
  op : Nat
  value : Nat
  tile : Nat
  col : Nat
  line : Nat
  height : Nat
  srcCol : Nat
  srcDy : Int
  deriving DecidableEq, Repr

structure Window where
  plane : Nat
  index : Nat
  col : Nat
  line : Nat
  width : Nat
  height : Nat
  crc : Word
  deriving DecidableEq, Repr

/-- The copy flags (R110) but for OK, which is the absence of the others. -/
structure CopyFlags where
  underrun : Bool
  pause : Bool
  trip : Bool
  corrupt : Bool
  content : Bool
  fired : Bool
  defect : Bool
  uninspected : Bool
  refDegraded : Bool
  void : Bool
  deriving DecidableEq, Repr

/-- A copy, with the template it was submitted for as `page0`. `firing` are the planes that have not yet closed its frame, `opened` the planes whose latch for its slot has
come; `lines` the plane lines its frames have fired. -/
structure Copy where
  tenant : Nat
  job : Nat
  page : Nat
  num : Nat
  seq : Nat
  mask : BitVec 16
  placements : List Placement
  windows : List Window
  page0 : Template
  state : CopyState
  flags : CopyFlags
  slot : Option Nat
  planes : Option (List Nat)
  opened : List Nat
  closed : List Nat
  budget : Tab Nat
  cycles : Tab Nat
  begun : List Nat
  placed : List Nat
  commitTime : DWord
  firedAt : Nat
  ruleTime : DWord
  receiptSlot : Bool
  winSeen : Nat
  winBad : Nat
  firedSeen : Nat
  firedBad : Nat
  defects : Nat
  ports : Nat
  /-- The planes whose frame of the copy carries TRIP or PAUSE (R399). -/
  marred : List Nat
  deriving DecidableEq, Repr

/-- One piece of a stream's bytes in the DRAM spool. -/
structure Piece where
  off : Nat
  bytes : List Byte
  deriving DecidableEq, Repr

/-- Preparation of a raster stream by Thresher (R164, R606); a preparation in progress knows what its unsealing found: reason and
segment number. The plaintext of a `freed` stream went with its page (R165). -/
inductive Prep where
  | none
  | busy (found : Option (Nat × Nat))
  | good
  | bad (reason : Nat)
  | freed
  deriving DecidableEq, Repr

/-- Where a block of a prepared stream lies (R164): husk, block within the husk, first output line, line count, byte
offset and compressed length in the plaintext, and the decoded CRC when the husk carries one. -/
structure BlockLoc where
  husk : Nat
  block : Nat
  line : Nat
  lines : Nat
  off : Nat
  len : Nat
  crc : Option Word
  deriving DecidableEq, Repr

/-- A stream (R116, R135): `descs` are the offset, length and SEALED flag of its data descriptors, `plain` its plaintext and
`blocks` its line-to-block map once prepared, `badFor` the pages it is bad for (R165). -/
structure Stream where
  tenant : Nat
  handle : Nat
  kind : Nat
  maxLen : Nat
  job : Nat
  descs : List (Nat × Nat × Bool)
  pieces : List Piece
  lastSeen : Bool
  failed : Bool
  prep : Prep
  plain : List Byte
  level : Bool
  width : Nat
  height : Nat
  sealedPage : Option Nat
  blocks : List BlockLoc
  badFor : List (Nat × Nat)
  deriving DecidableEq, Repr

structure Jobs where
  tenants : Tab Tenant
  jobs : List Job
  templates : List Template
  copies : List Copy
  streams : List Stream
  nextCopySeq : Nat
  deriving DecidableEq, Repr

/-! ## Thresher and Mill (spec/06) -/

/-- A block of a copy's background to be decoded for a pass (R166, R167). -/
structure BlockJob where
  copy : Nat
  plane : Nat
  pass : Nat
  tenant : Nat
  handle : Nat
  loc : BlockLoc
  deriving DecidableEq, Repr

/-- A block in decode: the instant its lane started it, and how many of its lines it has given (R167, R170). -/
structure Lane where
  job : BlockJob
  start : Nat
  given : Nat
  deriving DecidableEq, Repr

/-- A decoded line of a copy on a plane for a pass, released to Glaze when every earlier line is decoded (R167); `taken` once Glaze has
taken it (R171). -/
structure DecLine where
  copy : Nat
  plane : Nat
  pass : Nat
  line : Nat
  bytes : List Byte
  taken : Bool
  deriving DecidableEq, Repr

/-- The unsealing of the stream in preparation: the segments not yet started in offset order, the number and page of the last one
started, the instant the unsealing began and the sealed bytes of the segments started (R164, R606). -/
structure Unseal where
  rest : List (Nat × Nat × Bool)
  prev : Option (Nat × Nat)
  began : Nat
  taken : Nat
  deriving DecidableEq, Repr

/-- `ready` are the streams ready for preparation, `preparing` the one in preparation and `segs` the unsealing of its segments (R164, R606); `queue` the
blocks not started; `lanes` the blocks in decode. -/
structure Thresher where
  ready : List (Nat × Nat)
  preparing : Option (Nat × Nat)
  segs : Option Unseal
  queue : List BlockJob
  lanes : Tab Lane
  lines : List DecLine
  deriving DecidableEq, Repr

/-- A block Mill has written: its bytes, its line count and the CRC of its input (R173). -/
structure MillBlock where
  bytes : List Byte
  lines : Nat
  crc : Word
  deriving DecidableEq, Repr

/-- A Mill job, which both lanes work on (R383): the camera image it compresses, its data type and stride, the input not yet taken and
whether the image has ended, the blocks of the open husk, the husks written, the lines of both (R173, R177), and each line's t, u, slot
and page line. -/
structure MillJob where
  port : Nat
  image : Nat
  dt : Nat
  ended : Bool
  places : List (Nat × Nat × Nat × Int)
  stride : Nat
  input : List Byte
  husk : List MillBlock
  huskLine : Nat
  husks : List Byte
  lines : Nat
  deriving DecidableEq, Repr

/-- A diagnostic capture of composited contone in progress, and its plane (R443). -/
structure MillDiag where
  plane : Nat
  job : MillJob
  deriving DecidableEq, Repr

/-- `diag` is the diagnostic capture in progress, `captures` the streams of those resident firmware has stored, with their planes. -/
structure Mill where
  job : Option MillJob
  diag : Option MillDiag
  captures : List (Nat × List Byte)
  deriving DecidableEq, Repr

/-! ## Glaze (spec/07) -/

/-- A resident tile (R179, R180). `stamp` orders the latest placings (R181); `stream` is the stream it was loaded from, while that is open
(R102). -/
structure Tile where
  tenant : Nat
  id : Nat
  format : Nat
  width : Nat
  height : Nat
  data : List Byte
  granules : Nat
  stamp : Nat
  stream : Option Nat
  deriving DecidableEq, Repr

/-- A composited line of a copy's page on a plane, one value per column. -/
structure PoolLine where
  copy : Nat
  plane : Nat
  line : Nat
  px : List Nat
  deriving DecidableEq, Repr

/-- A copy band holding or awaiting pool space (R187, R189). -/
structure Band where
  copy : Nat
  plane : Nat
  band : Nat
  mib : Nat
  waiting : Bool
  composited : Bool
  deriving DecidableEq, Repr

/-- A line in a head's contone staging: the copy and pass it belongs to, the frame line, its values by plane column, and
the rows that have not yet screened it, as head × 4 + row (R205). -/
structure Staged where
  copy : Nat
  pass : Nat
  line : Nat
  px : List Nat
  rows : List Nat
  deriving DecidableEq, Repr

/-- The running CRC of a content window and the next of its lines to enter it (R192, R194). -/
structure WinAcc where
  copy : Nat
  plane : Nat
  index : Nat
  line : Nat
  crc : Nat
  deriving DecidableEq, Repr

/-- `pool` holds copy bands (R187), `swath` the swaths of scanning passes (R295). `next` is the next line each copy and plane sends to staging and `pass` the pass it serves, `winEn` WIN_EN as it stood
when the copy's first line on the plane entered staging (R193), `late` the copies past FIRED that have not left Glaze (R196); keys are
copy × 16 + plane. -/
structure Glaze where
  tiles : List Tile
  useCount : Nat
  bands : List Band
  pool : List PoolLine
  swath : List PoolLine
  staging : Tab (List Staged)
  wins : List WinAcc
  winEn : Tab Bool
  next : Tab Nat
  passOf : Tab Nat
  late : List Nat
  deriving DecidableEq, Repr

/-! ## Tiller (spec/08, spec/09) -/

/-- A nozzle table entry (R223). -/
structure Entry where
  gain : BitVec 16
  offset : BitVec 16
  curve : BitVec 8
  status : BitVec 8
  variant : BitVec 8
  volClass : BitVec 8
  subA : BitVec 24
  subB : BitVec 24
  fires : BitVec 48
  last : BitVec 32
  ink : BitVec 32
  crc : BitVec 8
  deriving DecidableEq, Repr

/-- Configuration bytes 0 to 13 of an entry waiting for a head's latch: a record with its flags and command (R227), or a
restore, which no command owns (R225), and the CK_FAB cycle that wrote it (R23). -/
structure PendEntry where
  nozzle : Nat
  cfg : Entry
  unretire : Bool
  newHead : Bool
  cmd : Option Nat
  cycle : Nat
  deriving DecidableEq, Repr

/-- What a row-line counted, kept for a reversal (R260): chip nozzle index, code, whether it was a spit, the entry's
last-fire line before it and the volume counted. -/
structure Undo where
  nozzle : Nat
  code : Nat
  vol : Nat
  spit : Bool
  last : BitVec 32
  deriving DecidableEq, Repr

/-- A sheaf: the running line it fires on, its plane line (none: the row is outside the active lines), whether it is a
gap row-line (R235), its codes by position, the engines whose part is still to come, what it changed, when it was complete and, once shifted,
the earliest instant its edge may leave (R256). `split` is the head's split when the row-line began (R199, R201). -/
structure Sheaf where
  f : BitVec 32
  line : Option Nat
  gap : Bool
  slot : Nat
  codes : List Nat
  missing : List Nat
  undo : List Undo
  doneAt : Nat
  ready : Nat
  split : Nat
  deriving DecidableEq, Repr

/-- A fill row-line that engines owe, with the split that says which nozzles are whose; `first` are the engines that owe a reversal before
it, and so run it before any further row-line (R259, R260). While its pulse has not left, `undo` keeps what engines have counted of it. -/
structure Fill where
  f : BitVec 32
  codes : List Nat
  line : Option Nat
  gap : Bool
  slot : Nat
  engines : List Nat
  split : Nat
  first : List Nat
  undo : List Undo
  deriving DecidableEq, Repr

/-- A reversal that engines owe (R260). -/
structure Reversal where
  f : BitVec 32
  undo : List Undo
  engines : List Nat
  split : Nat
  deriving DecidableEq, Repr

/-- A FIRE edge of a row, predicted or armed: the running line, the instant at which it leaves, F, and once armed the code and trim it
leaves with (R280, R282, R520). -/
structure Edge where
  f : BitVec 32
  instant : Nat
  pred : Int
  armed : Bool
  tap : Tap
  deriving DecidableEq, Repr

/-- A head-row between Tiller and head: the next running line to screen, to shift and to predict an edge for, the sheaf
FIFO, the sheaf in the transmit buffer, row-lines declared underrun with the codes to fire, the held codes, edges, fills
and reversals owed, and the trailing edge of the latest FIRE. `started` is set at the plane's start reference. -/
structure Row where
  started : Bool
  nextF : BitVec 32
  nextShift : BitVec 32
  nextEdge : BitVec 32
  fifo : List Sheaf
  tx : List Sheaf
  under : List Fill
  held : List Nat
  edges : List Edge
  fills : List Fill
  reversals : List Reversal
  lastTrail : Nat
  deriving DecidableEq, Repr

/-- A head at Kiln and Tiller: its rows, the leading edge its pair fired last, and the slots whose first underrun it has posted, with
0xFFFFFFFF for a lead-in (R261). -/
structure KHead where
  rows : Tab Row
  lastLead : Nat
  underrunSeen : List Nat
  deriving DecidableEq, Repr

/-- An engine: throttle state (R220), the costs of the latest screening row-line of each
row (R219), and the row and running line of its latest row-line (R260). -/
structure Engine where
  throttled : Bool
  cost : Tab Nat
  lastRun : Option (Nat × BitVec 32)
  deriving DecidableEq, Repr

/-- Curves and arrays wait for the bar latch as `pendCurves` and `pendArrays`, with the CK_FAB cycle of their command (R23, R213, R214). `lastOf` is
the last-fire line of a head's unlisted entries. `arrays` holds the threshold arrays' Granary bytes. `autoDue` are heads
whose throttle state has changed since their split was last chosen, `autoHeads` those with an AUTO split waiting (R202). `spits` are the drops
left of the running MAINT_SPIT commands, by command (R144). -/
structure Tiller where
  entries : Tab Entry
  lastOf : Tab (BitVec 32)
  pend : List PendEntry
  changed : List Nat
  curves : Tab (List Nat)
  pendCurves : List (Nat × Nat × List Nat)
  arrays : List Host.Cell
  pendArrays : List (Nat × Nat × List Byte)
  engines : Tab Engine
  autoDue : List Nat
  autoHeads : List Nat
  spits : Tab Nat
  deriving DecidableEq, Repr

/-! ## Kiln and pacing (spec/10, spec/11) -/

inductive PlaneState where
  | stopped | leadIn | running | stopping
  deriving DecidableEq, Repr

/-- A span of the column map (R207). -/
structure Span where
  c0 : Nat
  head : Nat
  groups : Nat
  prim : List Nat
  sec : List Nat
  secValid : List Bool
  reverse : Bool
  p0 : Nat
  m : Nat
  deriving DecidableEq, Repr

/-- A head's entry of the plane table: fitted rows, positions per row (R13), row offsets, and its trims. -/
structure HeadDecl where
  head : Nat
  rows : List Nat
  positions : Nat
  rowOfs : List Nat
  htrim : Word
  rtrim01 : Word
  rtrim23 : Word
  deriving DecidableEq, Repr

/-- The part of a plane table before its span entries (R137: heads, raster timing, trims). -/
structure PlaneHead where
  vact : Nat
  vfront : Nat
  vsync : Nat
  vback : Nat
  trim : Word
  revTrim : Word
  heads : List HeadDecl
  deriving DecidableEq, Repr

structure PlaneTable where
  head : PlaneHead
  spans : List Span
  deriving DecidableEq, Repr

/-- A pass of a pass table (R296): direction, feed after it, and the row masks. -/
structure Pass where
  reverse : Bool
  feed : Nat
  masks : List (List Byte)
  deriving DecidableEq, Repr

structure PassTable where
  b0 : Int
  axis : Nat
  cpl : Nat
  passes : List Pass
  deriving DecidableEq, Repr

/-- A fired window of the open frame (R270): its clipped rectangle, the codes Kiln sent and the Tiller's reference by
plane line and column, until all have come. -/
structure FiredWin where
  index : Nat
  x : Nat
  w : Nat
  y : Nat
  h : Nat
  slot : Nat
  copy : Option Nat
  kiln : List (Nat × Nat × Nat × Nat)
  til : List (Nat × Nat × Nat × Nat)
  done : Bool
  failed : Bool
  deriving DecidableEq, Repr

/-- A plane (R243 to R251, R277): its raster, position and front, the frame that is open, tables in force and waiting, these with the
CK_FAB cycle that wrote them (R23), and the counts its checks keep. `prevVis` are the blanking lines before the active lines and the active
lines of the frame before the open one (R206), and `underNext` is set by an underrun of the frame still to open (R261). -/
structure Plane where
  group : Nat
  frames : Nat
  encBad : Bool
  swath : Nat
  feed : Option (Nat × Bool)
  tickleAt : Nat
  state : PlaneState
  line : Nat
  runline : BitVec 32
  leadIn : Nat
  referenced : Bool
  x : Int
  front : Int
  lastB : Int
  sense : Int
  xs : List Int
  slot : Option Nat
  nextSlot : Nat
  latchRun : BitVec 32
  prevLatchRun : BitVec 32
  prevVis : Nat × Nat
  underNext : Bool
  copy : Option Nat
  prevCopy : Option Nat
  table : Option PlaneTable
  pendTable : List (Nat × PlaneTable)
  passTable : Option PassTable
  pendPass : List (Nat × PassTable)
  pass : Nat
  passes : Nat
  paused : Bool
  pausedAt : Nat
  spoiled : Bool
  stepsLatch : Int
  encLatch : Int
  devSeen : Bool
  devMax : Nat
  pausedInFrame : Bool
  crossings : List Nat
  aboveRun : Nat
  belowRun : Nat
  rateArmed : Bool
  wins : List FiredWin
  turnaround : Bool
  deriving DecidableEq, Repr

/-- A pace channel (R274 to R278): step timestamps newest first and, beside each, where the channel then stood; where it stands now, in
steps or, from a position channel, in units of 2^-32 line; pause state and when it began, the latest step's direction and instant, and the net
steps. -/
structure Channel where
  ts : List Nat
  trail : List Int
  stand : Int
  paused : Bool
  pausedAt : Nat
  reverse : Bool
  lastEdge : Option Nat
  netSteps : Int
  deriving DecidableEq, Repr

/-- A slot decision (R104): the copy that took it, and the pass of the copy the slot carries. -/
structure Decision where
  copy : Option Nat
  pass : Nat
  deriving DecidableEq, Repr

/-- A trip input (R290, R292): its latch, its level, the instant it last went high (none: high since reset), and CLR_REJECT. -/
structure Trip where
  latched : Bool
  low : Bool
  highSince : Option Nat
  reject : Bool
  deriving DecidableEq, Repr

structure Kiln where
  planes : Tab Plane
  heads : Tab KHead
  channels : Tab Channel
  decisions : Tab Decision
  barArmed : Bool
  barWait : List Nat
  marks : List Nat
  trips : Tab Trip
  lt : Word
  deriving DecidableEq, Repr

/-! ## Head ports (spec/12) -/

inductive Link where
  | off | training | up | retraining | direct
  deriving DecidableEq, Repr

/-- A fire descriptor waiting for its pulse (R310): its tag, row, action (0 LOAD, 1 REPEAT, 2 BLANK) and SWAP. -/
structure FireDesc where
  tag : Nat
  row : Nat
  act : Nat
  swap : Bool
  deriving DecidableEq, Repr

/-- A frame waiting for a forward slot: type, descriptor, FIRST, payload bits. -/
structure OutFrame where
  typ : Nat
  desc : Option FireDesc
  first : Bool
  payload : List Bool
  deriving DecidableEq, Repr

/-- The filling of a waveform-variant bank (R313): bank, next chunk, the variants, and whether the driver's ACK is awaited. -/
structure BankFill where
  bank : Nat
  chunk : Nat
  variants : List Nat
  deriving DecidableEq, Repr

/-- A head port (R304 to R325). `scr` are the two lane scramblers, `rxScr` the return-lane descrambler; `slot` the port frame
slot number, `since` the frames of each lane since its last SYNC frame; `fires` the FIRE count since UP; `fills` the banks
being sent, `ready` whether the bank not in use is ready, `swapDue` the latch whose swap is late (its running line and
slot). -/
structure Port where
  link : Link
  align : Nat
  good : Nat
  cand : Nat
  bad : Nat
  descr : Bool
  scr : List Nat
  rxScr : Nat
  slot : Nat
  since : List Nat
  frames : List OutFrame
  descs : List FireDesc
  fires : Nat
  bank : Nat
  fills : List BankFill
  ready : Bool
  descWait : List (Nat × Nat)
  swapNext : Bool
  swapDue : Option (BitVec 32 × Nat)
  pwren : Bool
  powerAt : Nat
  pg : Bool
  pgSeen : Bool
  fltLow : Bool
  fltHighSince : Nat
  busyUntil : Nat
  stale : Bool
  drvReady : Bool
  temps : List Nat
  tempValid : List Bool
  tempArmed : Bool
  latched : Bool
  cause : Nat
  reject : Bool
  deriving DecidableEq, Repr

/-! ## Position interface (spec/13) -/

/-- A level that counts once it has been stable for three samples (R329). -/
structure Qual where
  level : Bool
  seen : Bool
  run : Nat
  deriving DecidableEq, Repr

/-- A position channel (R326 to R338): 48-bit position, the latest positions for the velocity, the two latest samples, the
previous angle, the qualified inputs, the amplitude run, the direction's extreme, the index reference with its records of
a missing index, mismatch run, and a pending correction. -/
structure PifCh where
  enabled : Bool
  pos : Nat
  vel : Int
  hist : List Nat
  ts : Nat
  prevTs : Nat
  prevPos : Nat
  ang : Nat
  a : Qual
  b : Qual
  ampRun : Nat
  ampBad : Bool
  overBad : Bool
  extreme : Nat
  dir : Bool
  ref : Option Nat
  missed : Nat
  run : Nat
  corr : Option Int
  minA : Option Nat
  minS : Option Int
  maxS : Option Int
  minC : Option Int
  maxC : Option Int
  deriving DecidableEq, Repr

/-! ## Motion (spec/14) -/

inductive AxisState where
  | disabled | enabling | standstill | moving | stopping | fault | tripped
  deriving DecidableEq, Repr

/-- How a motion ends: at its target, by a stop of R352 mode 0 or 1, or under mode 1 by a limit (R353) or a homing timeout
(R355). -/
inductive StopMode where
  | none | mode0 | mode1 | limit | timeout
  deriving DecidableEq, Repr

/-- What moves an axis: a host move, a Kiln feed, or a homing sequence with its phase (0 search, 1 stop,
2 approach, 3 to the index, 4 back off, 5 at its end event). -/
inductive MoveKind where
  | host | feed
  | home (seq phase deadline : Nat)
  deriving DecidableEq, Repr

/-- A move: kind, target in counts, profile, and the parked command it completes. -/
structure Move where
  kind : MoveKind
  target : Int
  profile : Nat
  cmd : Option Nat
  deriving DecidableEq, Repr

/-- A phase of a bridge: integrator, duty, and latest fast-filter run over OC_LIM (R347, R348). -/
structure PhaseLoop where
  acc : Int
  duty : Int
  overRun : Nat
  fast : Int
  lost : Bool
  deriving DecidableEq, Repr

/-- One half-bridge over a PWM period, in CK_FAB cycles of the period (R346): its high-side gate is on from `hiOn` to before `hiOff`, its
low-side gate off from `loOff` to before `loOn`. A gate whose time is over before it would turn on stays off. -/
structure HalfBridge where
  hiOn : Nat
  hiOff : Nat
  loOff : Nat
  loOn : Nat
  deriving DecidableEq, Repr

/-- An axis (R340 to R363). `pos` is the commanded position with 32 fraction bits, `vel` in counts per second. -/
structure Axis where
  state : AxisState
  homed : Bool
  retained : Option Move
  move : Option Move
  feedWait : Option Int
  pos : Int
  vel : Int
  acc : Int
  ts : Nat
  stop : StopMode
  lastDir : Bool
  lastStep : Nat
  phA : PhaseLoop
  phB : PhaseLoop
  duties : List (Int × Int × Int)
  lm : Nat
  scale : Nat
  scaleRun : Nat
  stallRun : Nat
  held : Bool
  applied : Bool
  limN : Bool
  limP : Bool
  homeIn : Bool
  fbRef : Int × Nat
  /-- The half-bridges 0 to 3 of the PWM period that runs; none while every gate is off (R346). -/
  gates : List HalfBridge
  deriving DecidableEq, Repr

/-- `admitAt`: the earliest instant at which the enable queue admits again (R359). -/
structure Motion where
  axes : Tab Axis
  queue : List (Nat × Nat)
  admitAt : Nat
  deriving DecidableEq, Repr

/-! ## Power (spec/23) -/

inductive PowerState where
  | run | idle | standby | deep
  deriving DecidableEq, Repr

/-- A head enable waiting (R545): head and the command it belongs to (none: a STANDBY exit). -/
structure HeadEnable where
  head : Nat
  cmd : Option Nat
  deriving DecidableEq, Repr

/-- The reset kinds that lead to a boot (R530, R540). -/
inductive RstKind where
  | por | pin | sagFault | host | deepExit
  deriving DecidableEq, Repr

/-- The power unit: state; the state an entry or exit is heading for, its cause, whether a DEEP entry has told its command and
the wake source held since with its straps (R540); segment table and declared charges; the enable queue, recent admissions as instant and
charge, the command each powered head was raised for; the heads powered when STANDBY was entered and those of its exit not
yet at power-good, with when that exit queued them; supplies out of range; the boot in progress by the kind of reset it follows, whether a test instruction
holds it, when DEEP was entered, and whether SAG_BOOT_DONE still has to be posted. -/
structure Power where
  state : PowerState
  toward : Option PowerState
  cause : Nat
  told : Bool
  wake : Option (RstKind × Nat)
  segments : Tab Nat
  charges : Tab Nat
  queue : List HeadEnable
  admits : List (Nat × Nat)
  lastAdmit : Option Nat
  raised : Tab (Option Nat)
  standbyHeads : List Nat
  exitHeads : List Nat
  exitAt : Nat
  low : List Nat
  boot : Option RstKind
  jtag : Bool
  deepAt : Nat
  bootHeld : Bool
  deriving DecidableEq, Repr

/-! ## Sagger, receipts and Tally (spec/18, spec/19) -/

/-- A tenant's sealed persistent state (R440, R472): the life-cycle state it is sealed under, the owner digest, grant and
last grant sequence, ceiling, chain head, batch number, last receipt sequence, and the CHARGED its PRINT receipts cover. -/
structure SagRec where
  lc : Nat
  tenant : Nat
  digest : Option (BitVec 384)
  grant : Word
  grantSeq : Nat
  ceiling : Word
  head : BitVec 384
  batch : Nat
  seq : Nat
  covered : Word
  deriving DecidableEq, Repr

/-- What Sagger holds for a tenant: key, owner digest, grants, the persisted charge ceiling and one being written, the
receipt chain with the cause of a restart that is due, and the open batch with the slots its receipts hold. -/
structure SagTenant where
  key : Option (BitVec 256)
  digest : Option (BitVec 384)
  grantSeq : Nat
  ceiling : Word
  ceilNext : Option Word
  head : BitVec 384
  batch : Nat
  seq : Nat
  restart : Option Nat
  covered : Word
  receipts : List (List Byte)
  slots : Nat
  deriving DecidableEq, Repr

/-- A closed batch (R471, R472): the order of its closing over all tenants and chains, its entries, the receipt slots it holds, and whether
its state is persisted. -/
structure Batch where
  id : Nat
  tenant : Nat
  num : Nat
  entries : List (List Byte)
  slots : Nat
  persisted : Bool
  deriving DecidableEq, Repr

/-- Sagger. `fuses` counts the blown copies of the five life-cycle bits (R455); `faultTimes` are instants of the model's
uptime; `signerGone` that the identity key is withdrawn (R461). `loaded`, `rejected` and `patches` are what the boot found
of patch records (R446). -/
structure Sagger where
  fuses : List Nat
  oemHash : BitVec 384
  stage : Nat
  failCode : Nat
  ready : Bool
  halted : Bool
  nonce : Option (BitVec 256)
  nonceAt : Nat
  scopes : Nat
  signerGone : Bool
  faultTimes : List Nat
  tenants : Tab SagTenant
  batches : List Batch
  nextBatch : Nat
  patches : List PatchRec
  patchLevel : Nat
  patchDigest : BitVec 384
  trust : List (BitVec 384)
  deriving DecidableEq, Repr

/-- An exchange with an ID device (R477): opcode (4 for the IDENTIFY of a scan), the usage it writes, BUSY answers so far,
and whether it has been repeated. -/
structure IdExchange where
  op : Nat
  val : DWord
  busy : Nat
  repeated : Bool
  deriving DecidableEq, Repr

/-- A Tally slot (R478 to R482): state, the device's serial, capacity, usage and counter, its public key, the nonce and
ephemeral key of an authentication, the session key, failed polls in a row, exchanges in order, and the scan that waits for
it. -/
structure TlySlot where
  state : Nat
  serial : List Byte
  cap : DWord
  usage : DWord
  devUsage : DWord
  counter : Word
  devKey : List Byte
  nonce : BitVec 256
  eph : BitVec 512
  session : Option (BitVec 256)
  fails : Nat
  exchanges : List IdExchange
  deriving DecidableEq, Repr

/-- Tally: its slots, the instant of the last capture and of the last whose checkpoint completed, whether a checkpoint record is
on its way and write-backs are due, whether the alarm of R480 has been raised since that one, and the usage recovered by
serial (R481). -/
structure Tally where
  slots : Tab TlySlot
  captured : Nat
  prev : Nat
  writing : Bool
  writeBack : Bool
  late : Bool
  recovered : List (List Byte × DWord)
  deriving DecidableEq, Repr

/-! ## Crock (spec/20) -/

inductive CrkState where
  | absent | noJournal | mounted | compacting | readOnly
  deriving DecidableEq, Repr

/-- The record types of R488: CONFIG entries are chip nozzle index and entry bytes 0 to 13, CAL entries index and gain,
TALLY_CKPT slots a slot number with its serial, U and Q, SAGGER a tenant's sealed state. -/
inductive CrkBody where
  | regionHead (gen : Nat)
  | compactDone (gen : Nat)
  | config (entries : List (Nat × List Byte))
  | cal (plane slot : Nat) (gains : List (Nat × Nat))
  | tallyCkpt (time : DWord) (slots : List (Nat × List Byte × Nat × Nat))
  | tallyClose (slot : Nat) (serial : List Byte) (usage : Nat)
  | sagger (key : Nat) (data : SagRec)
  | snap (num ofs len : Nat) (crc : Word) (mask : Nat)
  | gap (addr : Nat)
  deriving DecidableEq, Repr

/-- A committed record: its sequence number, address in its region and body. -/
structure CrkRec where
  seq : Nat
  addr : Nat
  body : CrkBody
  deriving DecidableEq, Repr

/-- A queued record with the cycle it was submitted in and the command or batch it belongs to (R490). -/
structure CrkJob where
  body : CrkBody
  cycle : Nat
  cmd : Option Nat
  batch : Option Nat
  deriving DecidableEq, Repr

/-- A nozzle snapshot: number, ring block, capture time, heads, fire counts by press nozzle identity (R19), and whether a later snapshot
has begun to erase its data in the ring (R240, R492, R497). -/
structure Snap where
  num : Nat
  block : Nat
  time : DWord
  mask : Nat
  counts : List (Nat × Nat)
  lost : Bool
  deriving DecidableEq, Repr

/-- Crock. `logs` and `appends` are the committed records and append points of regions A and B, `torn` the regions and addresses of the
slots without a commit byte (R489, R495); `compacting` a compaction runs, also in READ_ONLY (R489); `cal` the calibration buffer by nozzle with the plane of the gain, `calSlot` its latest slot by plane. `grace` is set in the 2 ms after a
shutdown and says whether a record was in progress, `graceRes` its outcome for the next boot. The
boot configuration copies hold a generation and items, or nothing when not good. -/
structure Crock where
  state : CrkState
  active : Nat
  sizes : Nat × Nat
  gens : Tab Nat
  logs : Tab (List CrkRec)
  appends : Tab Nat
  torn : List (Nat × Nat)
  queue : List CrkJob
  compacting : Bool
  failRun : Nat
  compactCmd : Option Nat
  seq : Nat
  cal : Tab (Nat × Nat)
  calSlot : Tab Nat
  snaps : List Snap
  snapNow : Option Snap
  snapNum : Nat
  ringBlock : Nat
  ringWraps : Nat
  snapCmds : List Nat
  snapAgain : List Nat
  boot : Tab (Nat × List Byte)
  patchArea : List Byte
  grace : Option Bool
  graceRes : Nat
  refused : List Nat
  deriving DecidableEq, Repr


/-! ## Tramline (spec/17) -/

/-- TRM_STAT.STATE. -/
inductive TrmState where
  | off | listen | muted | active | leader | conflict | claiming
  deriving DecidableEq, Repr

/-- The Tramline node (R414 to R431): state, selected bus (true: B), leader chip, the leader's next frame number and the instant its
latest beacon left, when a claim began, whether others pull TRAM_LEAD_N low; a follower's arrivals of the latest beacon and
predictions of the next by bus, its good and missed beacons in a row, frames in a row in which its selected bus failed alone, and
whether it has posted its slot conflict; the leader's slots with a SLOT_EDGE not yet reported, with a MUTE due, with a good burst
in this frame, with any good burst yet, and the slot it reported last; the channels of SRC 5 that have had their first event. -/
structure Trm where
  state : TrmState
  bus : Bool
  chip : Nat
  frame : Nat
  frameAt : Nat
  claimAt : Nat
  lineLow : Bool
  arriveA : Option Nat
  arriveB : Option Nat
  predA : Option Nat
  predB : Option Nat
  goodRun : Nat
  missRun : Nat
  selFail : Nat
  timeValid : Bool
  slotTold : Bool
  sent : Bool
  edges : List Nat
  mutes : List Nat
  seen : List Nat
  known : List Nat
  reported : Nat
  synced : List Nat
  deriving DecidableEq, Repr

/-! ## Clocks, thermal sensors and fans (spec/22, spec/24) -/

/-- Clock supervision and the fire delay line (R516 to R529): what is present or locked, the master code, and whether an I/O
calibration runs. `taps` is what each line is set by, which follows the master code and CLK_IOCAL_TRIM as R520 lets it; `changed` the
CK_FIRE cycle of their latest change; `stepTaps` what the latest edge of each step input was timestamped with. -/
structure Clk where
  refOk : Bool
  onRc : Bool
  rootLock : Bool
  ddrLock : Bool
  dllLock : Bool
  code : Nat
  iocal : Bool
  taps : Tab Tap
  changed : Nat
  stepTaps : Tab Tap
  deriving DecidableEq, Repr

/-- A thermal sensor once sampled (R548, R549): reading in 1/16 °C, validity, and its readings in a row at 125 °C or more. -/
structure Sensor where
  reading : Int
  valid : Bool
  hot : Nat
  deriving DecidableEq, Repr

/-- The thermal unit (R549 to R556): sensors sampled so far, Tj and the sensor that sets it, the warning state, whether THM_MAX
restarts at the next sample, shutdown and its time since Tj fell below 115 °C, the analog trip latch, and THM_WARN_THR before its latest
write with the CK_AON cycle of that write (R550). -/
structure Thm where
  sensors : Tab Sensor
  tj : Int
  hottest : Nat
  warn : Bool
  maxFresh : Bool
  shutdown : Bool
  coolSince : Option Nat
  atrip : Bool
  thrWas : Word
  thrAt : Option Nat
  deriving DecidableEq, Repr

/-- A fan channel (R557 to R561): state, attempt count, SLOW, the instant of the state's entry and FAN_TIME then, its edges since,
the latest edge, the last four periods in µs, the AUTO duty, since when its speed is below or again at FAN_RPM_MIN, and the duty before the
latest write of DUTY or the curve with the PWM period of that write (R562). -/
structure Fan where
  state : Nat
  attempts : Nat
  slow : Bool
  since : Nat
  time : Word
  edges : List Nat
  lastEdge : Option Nat
  periods : List Nat
  auto : Nat
  lowSince : Option Nat
  okSince : Option Nat
  was : Nat
  wrote : Option Nat
  deriving DecidableEq, Repr

/-! ## Cameras, Winnow, the Gleaner and CAL (spec/15, spec/16) -/

/-- IPL_C_STAT.STATE. -/
inductive CamState where
  | off | armed | running | stalled
  deriving DecidableEq, Repr

/-- A received camera line that waits for the pipeline: line time, running position in 1/65,536 line once known (R373), the missing
lines just before it, whether it stands in the in-line buffer, and its data type and payload. -/
structure CamLine where
  t : Nat
  u : Option Nat
  gap : Nat
  inl : Bool
  dt : Nat
  bytes : List Byte
  deriving DecidableEq, Repr

/-- A registered line: slot of its inspection frame, page line, line time, position, first column, the channel values of each column
from there, and the REPROCESS it comes from. -/
structure RegLine where
  slot : Nat
  y : Int
  t : Nat
  u : Nat
  col0 : Nat
  px : List (List Nat)
  repro : Option Nat
  deriving DecidableEq, Repr

/-- What IPL hands Winnow, in order: a registered line, the boundary that closes a slot's inspection frame and whether that frame is
complete, or the end of a REPROCESS. -/
inductive CamItem where
  | line (l : RegLine)
  | close (slot : Nat) (whole : Bool)
  | finish (seq : Nat)
  deriving DecidableEq, Repr

/-- A shading capture (R378): mode, CNT, kept lines to come and the sums so far. -/
structure Capture where
  mode : Nat
  cnt : Nat
  left : Nat
  sums : List Nat
  deriving DecidableEq, Repr

/-- A camera port: state and last stop cause; the instant its stall time runs from; lines that wait; what Winnow has still to take;
the last kept line's u and t; image number; the slot of the open inspection frame, whether no line has been seen since the port was
armed and whether the open frame is complete so far; missing lines since the last line received, and since the last line processed;
lines skipped in the open frame and whether it has posted them; the last registered line; a CSI-2 frame open; knots and shading table,
active and shadow; whether the knots agree with the registers for this frame; the capture in progress; whether CAMERA_CONFIG has
configured the port. -/
structure CamPort where
  state : CamState
  cause : Nat
  quiet : Nat
  waiting : List CamLine
  items : List CamItem
  prev : Option Nat
  lastT : Nat
  image : Nat
  frame : Option Nat
  fresh : Bool
  whole : Bool
  missed : Nat
  carry : Nat
  skipTold : Bool
  prevReg : Option RegLine
  fsOpen : Bool
  knots : List (Nat × Nat)
  pendKnots : Option (List (Nat × Nat))
  table : List Nat
  pendTable : Option (List Nat)
  agree : Bool
  capture : Option Capture
  configured : Bool
  deriving DecidableEq, Repr

/-- A stored image (R383): port, image number, data type, payload bytes per line, its Grist stream, and each line's t, u, slot and page
line. -/
structure StoredImage where
  port : Nat
  num : Nat
  dt : Nat
  stride : Nat
  stream : List Byte
  lines : List (Nat × Nat × Nat × Int)
  deriving DecidableEq, Repr

/-- A REPROCESS in progress (R384): its command, the image and the next of its lines. -/
structure Repro where
  seq : Nat
  port : Nat
  image : Nat
  next : Nat
  deriving DecidableEq, Repr

/-- A plane's frame latch as the inspection frames use it: slot, running line, V_SYNC + V_BACK in force (R374, R389). -/
structure LatchMark where
  slot : Nat
  run : BitVec 32
  blank : Nat
  deriving DecidableEq, Repr

/-- IPL: ports, each plane's latest frame latches and line crossings (instant and running line), newest first, the slice in progress as
port and lines left (R371), the pipeline's work of the last 1 ms, the image store's MiB, its images oldest first, and what is
re-processed. -/
structure Ipl where
  ports : Tab CamPort
  latches : Tab (List LatchMark)
  cross : Tab (List (Nat × BitVec 32))
  slice : Option (Nat × Nat)
  busy : List (Nat × Nat)
  storeMib : Nat
  images : List StoredImage
  repro : List Repro
  deriving DecidableEq, Repr

/-- A bin of a density map ring: slot, bin number, WIN_BIN when it was written, and the summed density of each column (R387). -/
structure DensBin where
  slot : Nat
  bin : Nat
  size : Nat
  acc : Tab Nat
  deriving DecidableEq, Repr

/-- A plane's density map ring: depth and bins, newest first (R388). -/
structure DensRing where
  depth : Nat
  bins : List DensBin
  deriving DecidableEq, Repr

/-- What Winnow keeps of a copy: its kernels have been checked, its lines cannot be predicted, and records written for it. -/
structure Insp where
  checked : Bool
  bad : Bool
  records : Nat
  deriving DecidableEq, Repr

/-- The tiles and streak block of a copy on a port (R392, R393), `repro` for re-processed lines: first page line of the tile row and
lines in it, marked pixels with the largest error and its channel by tile column; the same of the block with the sums of e by column × 4 +
channel, and the columns and channels that have had their record. -/
structure Scan where
  copy : Nat
  port : Nat
  repro : Bool
  tileY : Nat
  tileN : Nat
  tiles : Tab (Nat × Nat × Nat)
  strY : Nat
  strN : Nat
  sums : Tab Int
  told : List Nat
  deriving DecidableEq, Repr

/-- Winnow: rings by plane, and whether they have been reserved; what it keeps of copies; the frames each port has passed, as port, slot
and completeness; records for DEFECT_FETCH. -/
structure Winnow where
  rings : Tab DensRing
  made : Bool
  copies : Tab Insp
  scans : List Scan
  closed : List (Nat × Nat × Bool)
  records : List (List Byte)
  deriving DecidableEq, Repr

/-- A glean window of a plane: lines by port, sp and se by chip nozzle index, sample count (R398, R400). -/
structure GleanWin where
  lines : Tab Nat
  acc : Tab (Nat × Int)
  q : Nat
  deriving DecidableEq, Repr

/-- The Gleaner by plane: open windows, windows closed while the previous dump is held, dumps held with their number, and the number of
the latest dump (R401). -/
structure Gleaner where
  wins : Tab GleanWin
  closed : Tab GleanWin
  dumps : Tab (Nat × GleanWin)
  latest : Tab Nat
  deriving DecidableEq, Repr

/-- A proposal submitted to CAL: its dump's number and sample count, nozzles and gains (R403). -/
structure Proposal where
  dump : Nat
  q : Nat
  entries : List (Nat × Nat)
  deriving DecidableEq, Repr

/-- A port's white reference (R408, R409): gutter lines kept (up to 2^16), state, lines in a row in RECOVERING, M and A by channel (none
before the first line), and δ by channel. -/
structure WhiteRef where
  lines : Nat
  state : Nat
  run : Nat
  m : Tab Nat
  a : Tab Nat
  drift : Tab Nat
  deriving DecidableEq, Repr

/-- CAL: planes set to run, proposals submitted by plane, accepted gains that wait for a latch as plane, nozzle and gain, white
references by port. -/
structure Cal where
  run : List Nat
  props : Tab Proposal
  waiting : List (Nat × Nat × Nat)
  refs : Tab WhiteRef
  deriving DecidableEq, Repr
end Sys2Proof.Machine
end

