-- ==== Sys2Proof/Machine/State.lean ====
section
/-! DEFINITION. The state of the block, the ways a step can stop, and the state after reset. -/

namespace Sys2Proof.Machine
open Sys2Proof

/-- What stops the machine. -/
inductive Fault where
  /-- Never raised: only commands that check the array number reach the threshold arrays (R214), so no command names an
  address outside them. Safe. -/
  | noSuchAddress
  deriving DecidableEq, Repr

/-- Why a command has no meaning. -/
inductive Refusal where
  /-- Raised by `exec` for a command not modelled yet; every command has its meaning, so none raises it. Safe. -/
  | notModelled (mnemonic : String)
  deriving DecidableEq, Repr

/-- The state of the block. `pending` is the queue of commands, first in first out; `free` counts the free values drawn so far
(the model's own field); `out` records what left the controller (the model's own). -/
structure State where
  pending : List Instr
  free : Nat
  out : List Out
  regs : Regs
  pages : Tab Page
  clock : Clock
  hif : Hif
  stk : Stook
  fw : Firmware
  jobs : Jobs
  thr : Thresher
  mil : Mill
  glz : Glaze
  til : Tiller
  kln : Kiln
  ports : Tab Port
  pif : Tab PifCh
  mot : Motion
  pwr : Power
  crk : Crock
  sag : Sagger
  tly : Tally
  trm : Trm
  clk : Clk
  thm : Thm
  fans : Tab Fan
  ipl : Ipl
  win : Winnow
  gln : Gleaner
  cal : Cal
  deriving DecidableEq, Repr

/-- The machine right after a power-on reset, at step 1 of its boot (R448, R530): registers at their reset values, nothing
running, nothing stored, a part as it is delivered (R605), with its supplies and its reference in order. BOOT takes it to
command-ready. -/
def State.reset : State :=
  { pending := [], free := 0, out := [],
    regs := ⟨[], [], [], [], []⟩, pages := [],
    clock := { fire := 0, uptime := 0, sec := 0, ns := 0, frac := 0, slew := 0, slewLeft := 0, atSec := false,
               valid := false, locked := false, holdover := false, first := false, goodRun := 0, badRun := 0, missRun := 0 },
    hif := { cfg := { busMaster := false, d3hot := false, mrrs := 512, relaxed := true, ltrEn := false, maxSnoop := 0,
                      maxNoSnoop := 0, ptmEn := false, toDisable := false, toRange := 0, ecrcGen := false, ecrcCheck := false,
                      severity := 0x462030#32, subsystem := 0x72401E9C#32 },
             rings := [], msix := [], masked := [], msixPend := [], reads := [], stale := [], fetches := [], nextFetch := 0, ltrLast := none,
             ptmOut := false, aer := [], linkSpeed := 0, linkWidth := 0, dlUp := false },
    stk := { staging := [], trace := [], alarms := [], cores := [], cfg := [], bucket := 52428800, shed := 0,
             shedSince := 0, throttled := false, waitSince := none, waitMark := 0 },
    fw := { parked := [], held := [], nextSeq := 0, lastServed := 0, zeroLast := false, ready := false },
    jobs := { tenants := [], jobs := [], templates := [], copies := [], streams := [], nextCopySeq := 0 },
    thr := { ready := [], preparing := none, segs := none, queue := [], lanes := [], lines := [] },
    mil := { job := none, diag := none, captures := [] },
    glz := { tiles := [], useCount := 0, bands := [], pool := [], swath := [], staging := [], wins := [], winEn := [],
             next := [], passOf := [], late := [] },
    til := { entries := [], lastOf := [], pend := [], changed := [], curves := [], pendCurves := [], arrays := [],
             pendArrays := [], engines := [], autoDue := [], autoHeads := [], spits := [] },
    kln := { planes := [], heads := [], channels := [], decisions := [], barArmed := false, barWait := [], marks := [],
             trips := [], lt := 0 },
    ports := [], pif := [], mot := { axes := [], queue := [], admitAt := 0 },
    pwr := { state := .run, toward := none, cause := 0, told := false, wake := none, segments := [], charges := [],
             queue := [], admits := [], lastAdmit := none, raised := [], standbyHeads := [], exitHeads := [], exitAt := 0, low := [],
             boot := some .por, jtag := false, deepAt := 0, bootHeld := false },
    crk := { state := .absent, active := 0, sizes := (0, 0), gens := [], logs := [], appends := [], torn := [],
             queue := [], compacting := false, failRun := 0, compactCmd := none, seq := 0, cal := [], calSlot := [],
             snaps := [], snapNow := none, snapNum := 0, ringBlock := 0, ringWraps := 0, snapCmds := [], snapAgain := [],
             boot := [], patchArea := [], grace := none, graceRes := 0, refused := [] },
    sag := { fuses := [3, 0, 0, 0, 0], oemHash := 0, stage := 0, failCode := 0, ready := false, halted := false,
             nonce := none, nonceAt := 0, scopes := 0, signerGone := false, faultTimes := [], tenants := [], batches := [], nextBatch := 0,
             patches := [], patchLevel := 0, patchDigest := 0, trust := [] },
    tly := { slots := [], captured := 0, prev := 0, writing := false, writeBack := false, late := false, recovered := [] },
    trm := { state := .off, bus := false, chip := 0, frame := 0, frameAt := 0, claimAt := 0, lineLow := false,
             arriveA := none, arriveB := none, predA := none, predB := none, goodRun := 0, missRun := 0, selFail := 0,
             timeValid := false, slotTold := false, sent := false, edges := [], mutes := [], seen := [], known := [],
             reported := 0, synced := [] },
    clk := { refOk := true, onRc := false, rootLock := false, ddrLock := false, dllLock := false, code := 0, iocal := false,
             taps := [], changed := 0, stepTaps := [] },
    thm := { sensors := [], tj := 0, hottest := 0, warn := false, maxFresh := true, shutdown := false, coolSince := none,
             atrip := false, thrWas := 0, thrAt := none },
    fans := [],
    ipl := { ports := [], latches := [], cross := [], slice := none, busy := [], storeMib := 0, images := [], repro := [] },
    win := { rings := [], made := false, copies := [], scans := [], closed := [], records := [] },
    gln := { wins := [], closed := [], dumps := [], latest := [] },
    cal := { run := [], props := [], waiting := [], refs := [] } }

end Sys2Proof.Machine
end

