-- ==== Sys2Proof/Machine/RegTable.lean ====
section
/-! DEFINITION. The register table: every register of BAR0 that spec/ places, by page kind and offset, with its access
type, writable bits, write-one-to-clear bits, reset value, reset class and defined field ranges (R41). Machine-written
from the register and field tables of spec/02 to spec/24. -/

namespace Sys2Proof.Machine

/-- Registers of the glb page (part 0). -/
def regRows_glb0 : List RegDef := [
  ⟨0x040, .ro, 0x0#32, 0x0#32, 0x72400100#32, .p, false, []⟩,
  ⟨0x044, .ro, 0x0#32, 0x0#32, 0x0#32, .n, false, []⟩,
  ⟨0x048, .wo, 0x0#32, 0x0#32, 0x0#32, .h, false, []⟩,
  ⟨0x050, .wo, 0x0#32, 0x0#32, 0x0#32, .h, false, []⟩,
  ⟨0x054, .ro, 0x0#32, 0x0#32, 0x0#32, .p, false, []⟩,
  ⟨0x058, .ro, 0x0#32, 0x0#32, 0x0#32, .n, false, []⟩]

/-- Registers of the clk page (part 0). -/
def regRows_clk0 : List RegDef := [
  ⟨0x040, .ro, 0x0#32, 0x0#32, 0x0#32, .h, false, []⟩,
  ⟨0x044, .ro, 0x0#32, 0x0#32, 0x0#32, .h, false, []⟩,
  ⟨0x048, .ro, 0x0#32, 0x0#32, 0x0#32, .h, false, []⟩,
  ⟨0x04C, .rw, 0xFFFF#32, 0x0#32, 0x64#32, .h, false, [⟨0, 16, 10, 60000⟩]⟩,
  ⟨0x050, .wo, 0x0#32, 0x0#32, 0x0#32, .h, false, []⟩,
  ⟨0x054, .ro, 0x0#32, 0x0#32, 0x0#32, .h, false, []⟩,
  ⟨0x058, .rw, 0x7F#32, 0x0#32, 0x0#32, .h, false, [⟨0, 7, 0, 69⟩]⟩,
  ⟨0x05C, .ro, 0x0#32, 0x0#32, 0x0#32, .h, false, []⟩,
  ⟨0x060, .ro, 0x0#32, 0x0#32, 0x0#32, .n, false, []⟩,
  ⟨0x064, .ro, 0x0#32, 0x0#32, 0x0#32, .n, false, []⟩,
  ⟨0x068, .rw, 0x7#32, 0x0#32, 0x0#32, .h, false, []⟩,
  ⟨0x06C, .ro, 0x0#32, 0x0#32, 0x0#32, .h, false, []⟩,
  ⟨0x070, .ro, 0x0#32, 0x0#32, 0x0#32, .h, false, []⟩,
  ⟨0x074, .wo, 0x0#32, 0x0#32, 0x0#32, .h, false, []⟩]

/-- Registers of the pwr page (part 0). -/
def regRows_pwr0 : List RegDef := [
  ⟨0x040, .rw, 0xFFFF0001#32, 0x0#32, 0x640000#32, .h, false, [⟨16, 16, 1, 65535⟩]⟩,
  ⟨0x044, .ro, 0x0#32, 0x0#32, 0x0#32, .h, false, []⟩,
  ⟨0x048, .rw, 0xFFFF#32, 0x0#32, 0x3E8#32, .h, false, [⟨0, 16, 1, 65535⟩]⟩,
  ⟨0x04C, .rw, 0xFFFF#32, 0x0#32, 0x32#32, .h, false, [⟨0, 16, 10, 1000⟩]⟩,
  ⟨0x050, .ro, 0x0#32, 0x0#32, 0x0#32, .h, false, []⟩,
  ⟨0x054, .ro, 0x0#32, 0x0#32, 0x0#32, .h, false, []⟩,
  ⟨0x058, .rw, 0xF#32, 0x0#32, 0x0#32, .h, false, []⟩,
  ⟨0x060, .ro, 0x0#32, 0x0#32, 0x0#32, .h, true, []⟩,
  ⟨0x064, .ro, 0x0#32, 0x0#32, 0x0#32, .h, false, []⟩,
  ⟨0x068, .rw, 0x3F#32, 0x0#32, 0x0#32, .h, false, []⟩,
  ⟨0x06C, .ro, 0x0#32, 0x0#32, 0x0#32, .h, false, []⟩,
  ⟨0x070, .ro, 0x0#32, 0x0#32, 0x0#32, .h, false, []⟩,
  ⟨0x074, .rw, 0xFFFFFFFF#32, 0x0#32, 0x0#32, .n, false, []⟩,
  ⟨0x078, .ro, 0x0#32, 0x0#32, 0x0#32, .h, false, []⟩,
  ⟨0x07C, .wo, 0x0#32, 0x0#32, 0x0#32, .h, false, []⟩]

/-- Registers of the thm page (part 0). -/
def regRows_thm0 : List RegDef := [
  ⟨0x040, .mixed, 0x0#32, 0x6#32, 0x0#32, .p, false, []⟩,
  ⟨0x044, .ro, 0x0#32, 0x0#32, 0x0#32, .h, false, []⟩,
  ⟨0x048, .ro, 0x0#32, 0x0#32, 0x0#32, .h, false, []⟩,
  ⟨0x04C, .rw, 0xF00FF#32, 0x0#32, 0x5006E#32, .h, false, [⟨0, 8, 40, 110⟩, ⟨16, 4, 1, 15⟩]⟩,
  ⟨0x050, .rw, 0xF00FF#32, 0x0#32, 0x20069#32, .h, false, [⟨0, 8, 80, 120⟩, ⟨16, 4, 1, 15⟩]⟩,
  ⟨0x054, .rw, 0xF#32, 0x0#32, 0x0#32, .h, false, []⟩,
  ⟨0x058, .ro, 0x0#32, 0x0#32, 0x0#32, .h, false, []⟩,
  ⟨0x05C, .ro, 0x0#32, 0x0#32, 0x0#32, .h, false, []⟩,
  ⟨0x060, .wo, 0x0#32, 0x0#32, 0x0#32, .h, false, []⟩]

/-- Registers of the fan page (part 0). -/
def regRows_fan0 : List RegDef := [
  ⟨0x100, .rw, 0xFFFF03#32, 0x0#32, 0x4FF00#32, .h, false, [⟨0, 2, 0, 2⟩, ⟨16, 8, 1, 255⟩]⟩,
  ⟨0x120, .rw, 0xFFFF03#32, 0x0#32, 0x4FF00#32, .h, false, [⟨0, 2, 0, 2⟩, ⟨16, 8, 1, 255⟩]⟩,
  ⟨0x140, .rw, 0xFFFF03#32, 0x0#32, 0x4FF00#32, .h, false, [⟨0, 2, 0, 2⟩, ⟨16, 8, 1, 255⟩]⟩,
  ⟨0x160, .rw, 0xFFFF03#32, 0x0#32, 0x4FF00#32, .h, false, [⟨0, 2, 0, 2⟩, ⟨16, 8, 1, 255⟩]⟩,
  ⟨0x104, .rw, 0xFFFFFF#32, 0x0#32, 0x4D643C#32, .h, false, []⟩,
  ⟨0x124, .rw, 0xFFFFFF#32, 0x0#32, 0x4D643C#32, .h, false, []⟩,
  ⟨0x144, .rw, 0xFFFFFF#32, 0x0#32, 0x4D643C#32, .h, false, []⟩,
  ⟨0x164, .rw, 0xFFFFFF#32, 0x0#32, 0x4D643C#32, .h, false, []⟩,
  ⟨0x108, .rw, 0xFFFFFF#32, 0x0#32, 0x1F414#32, .h, false, [⟨0, 8, 1, 100⟩, ⟨8, 16, 100, 10000⟩]⟩,
  ⟨0x128, .rw, 0xFFFFFF#32, 0x0#32, 0x1F414#32, .h, false, [⟨0, 8, 1, 100⟩, ⟨8, 16, 100, 10000⟩]⟩,
  ⟨0x148, .rw, 0xFFFFFF#32, 0x0#32, 0x1F414#32, .h, false, [⟨0, 8, 1, 100⟩, ⟨8, 16, 100, 10000⟩]⟩,
  ⟨0x168, .rw, 0xFFFFFF#32, 0x0#32, 0x1F414#32, .h, false, [⟨0, 8, 1, 100⟩, ⟨8, 16, 100, 10000⟩]⟩,
  ⟨0x10C, .ro, 0x0#32, 0x0#32, 0x0#32, .h, false, []⟩,
  ⟨0x12C, .ro, 0x0#32, 0x0#32, 0x0#32, .h, false, []⟩,
  ⟨0x14C, .ro, 0x0#32, 0x0#32, 0x0#32, .h, false, []⟩,
  ⟨0x16C, .ro, 0x0#32, 0x0#32, 0x0#32, .h, false, []⟩,
  ⟨0x110, .rw, 0xFFFF#32, 0x0#32, 0x0#32, .h, false, []⟩,
  ⟨0x130, .rw, 0xFFFF#32, 0x0#32, 0x0#32, .h, false, []⟩,
  ⟨0x150, .rw, 0xFFFF#32, 0x0#32, 0x0#32, .h, false, []⟩,
  ⟨0x170, .rw, 0xFFFF#32, 0x0#32, 0x0#32, .h, false, []⟩,
  ⟨0x114, .ro, 0x0#32, 0x0#32, 0x0#32, .h, false, []⟩,
  ⟨0x134, .ro, 0x0#32, 0x0#32, 0x0#32, .h, false, []⟩,
  ⟨0x154, .ro, 0x0#32, 0x0#32, 0x0#32, .h, false, []⟩,
  ⟨0x174, .ro, 0x0#32, 0x0#32, 0x0#32, .h, false, []⟩,
  ⟨0x118, .wo, 0x0#32, 0x0#32, 0x0#32, .h, false, []⟩,
  ⟨0x138, .wo, 0x0#32, 0x0#32, 0x0#32, .h, false, []⟩,
  ⟨0x158, .wo, 0x0#32, 0x0#32, 0x0#32, .h, false, []⟩,
  ⟨0x178, .wo, 0x0#32, 0x0#32, 0x0#32, .h, false, []⟩]

/-- Registers of the tim page (part 0). -/
def regRows_tim0 : List RegDef := [
  ⟨0x040, .rw, 0x3#32, 0x0#32, 0x0#32, .h, false, [⟨0, 2, 0, 2⟩]⟩,
  ⟨0x044, .ro, 0x0#32, 0x0#32, 0x0#32, .h, false, []⟩,
  ⟨0x048, .ro, 0x0#32, 0x0#32, 0x0#32, .h, false, []⟩,
  ⟨0x04C, .ro, 0x0#32, 0x0#32, 0x0#32, .h, false, []⟩,
  ⟨0x050, .ro, 0x0#32, 0x0#32, 0x0#32, .h, false, []⟩,
  ⟨0x054, .ro, 0x0#32, 0x0#32, 0x0#32, .h, false, []⟩,
  ⟨0x058, .rw, 0xFFFFFFFF#32, 0x0#32, 0x0#32, .h, false, []⟩,
  ⟨0x05C, .rw, 0x3FFFFFFF#32, 0x0#32, 0x0#32, .h, false, [⟨0, 30, 0, 999999999⟩]⟩,
  ⟨0x060, .rw, 0xFF#32, 0x0#32, 0x0#32, .h, false, []⟩,
  ⟨0x064, .wo, 0x0#32, 0x0#32, 0x0#32, .h, false, []⟩,
  ⟨0x068, .rw, 0xFFFFFFFF#32, 0x0#32, 0x0#32, .h, false, []⟩,
  ⟨0x06C, .rw, 0xFFFFFFFF#32, 0x0#32, 0xF4240#32, .h, false, [⟨0, 32, 1, 2147483647⟩]⟩,
  ⟨0x070, .rw, 0xFFFFFFFF#32, 0x0#32, 0x3E8#32, .h, false, [⟨0, 32, 1, 2147483647⟩]⟩,
  ⟨0x074, .ro, 0x0#32, 0x0#32, 0x0#32, .h, false, []⟩,
  ⟨0x078, .rw, 0xFFFFFFFF#32, 0x0#32, 0x0#32, .h, true, []⟩,
  ⟨0x07C, .rw, 0xFFFFFFFF#32, 0x0#32, 0x0#32, .h, false, []⟩,
  ⟨0x080, .ro, 0x0#32, 0x0#32, 0x0#32, .h, false, []⟩,
  ⟨0x088, .ro, 0x0#32, 0x0#32, 0x0#32, .h, true, []⟩,
  ⟨0x08C, .ro, 0x0#32, 0x0#32, 0x0#32, .h, false, []⟩,
  ⟨0x090, .ro, 0x0#32, 0x0#32, 0x0#32, .h, false, []⟩,
  ⟨0x094, .ro, 0x0#32, 0x0#32, 0x0#32, .h, false, []⟩,
  ⟨0x098, .ro, 0x0#32, 0x0#32, 0x0#32, .h, false, []⟩,
  ⟨0x09C, .ro, 0x0#32, 0x0#32, 0x0#32, .h, false, []⟩,
  ⟨0x0A0, .ro, 0x0#32, 0x0#32, 0x0#32, .h, false, []⟩,
  ⟨0x0A4, .wo, 0x0#32, 0x0#32, 0x0#32, .h, false, []⟩]

/-- Registers of the stk page (part 0). -/
def regRows_stk0 : List RegDef := [
  ⟨0x040, .rw, 0x3#32, 0x0#32, 0x3#32, .h, false, []⟩,
  ⟨0x044, .ro, 0x0#32, 0x0#32, 0x0#32, .h, false, []⟩,
  ⟨0x048, .rw, 0xFFF#32, 0x0#32, 0x190#32, .h, false, [⟨0, 12, 1, 4000⟩]⟩,
  ⟨0x04C, .ro, 0x0#32, 0x0#32, 0x0#32, .n, false, []⟩,
  ⟨0x050, .rw, 0xFFFFFFFF#32, 0x0#32, 0xFFFFFFFF#32, .n, false, []⟩,
  ⟨0x054, .rw, 0xFFFFFFFF#32, 0x0#32, 0xFFFFFFFF#32, .n, false, []⟩,
  ⟨0x058, .rw, 0xFFFFFFFF#32, 0x0#32, 0xFFFFFFFF#32, .n, false, []⟩,
  ⟨0x05C, .rw, 0xFFFFFFFF#32, 0x0#32, 0xFFFFFFFF#32, .n, false, []⟩,
  ⟨0x060, .rw, 0xFFFFFFFF#32, 0x0#32, 0xFFFFFFFF#32, .n, false, []⟩,
  ⟨0x064, .rw, 0xFFFFFFFF#32, 0x0#32, 0xFFFFFFFF#32, .n, false, []⟩,
  ⟨0x068, .rw, 0xFFFFFFFF#32, 0x0#32, 0xFFFFFFFF#32, .n, false, []⟩,
  ⟨0x06C, .rw, 0xFFFFFFFF#32, 0x0#32, 0xFFFFFFFF#32, .n, false, []⟩,
  ⟨0x070, .ro, 0x0#32, 0x0#32, 0x0#32, .h, false, []⟩,
  ⟨0x074, .ro, 0x0#32, 0x0#32, 0x0#32, .h, false, []⟩,
  ⟨0x078, .ro, 0x0#32, 0x0#32, 0x0#32, .h, false, []⟩,
  ⟨0x07C, .ro, 0x0#32, 0x0#32, 0x0#32, .h, false, []⟩,
  ⟨0x080, .ro, 0x0#32, 0x0#32, 0x0#32, .h, true, []⟩,
  ⟨0x084, .ro, 0x0#32, 0x0#32, 0x0#32, .h, false, []⟩,
  ⟨0x088, .ro, 0x0#32, 0x0#32, 0x0#32, .h, false, []⟩,
  ⟨0x08C, .wo, 0x0#32, 0x0#32, 0x0#32, .h, false, []⟩]

/-- Registers of the crk page (part 0). -/
def regRows_crk0 : List RegDef := [
  ⟨0x040, .ro, 0x0#32, 0x0#32, 0x0#32, .h, false, []⟩,
  ⟨0x044, .ro, 0x0#32, 0x0#32, 0x0#32, .h, false, []⟩,
  ⟨0x048, .ro, 0x0#32, 0x0#32, 0x0#32, .h, false, []⟩,
  ⟨0x04C, .rw, 0xFF#32, 0x0#32, 0xC#32, .h, false, []⟩,
  ⟨0x050, .rw, 0xFFFF#32, 0x0#32, 0x258#32, .h, false, [⟨0, 16, 60, 3600⟩]⟩,
  ⟨0x058, .ro, 0x0#32, 0x0#32, 0x0#32, .h, true, []⟩,
  ⟨0x05C, .ro, 0x0#32, 0x0#32, 0x0#32, .h, false, []⟩,
  ⟨0x060, .ro, 0x0#32, 0x0#32, 0x0#32, .h, false, []⟩,
  ⟨0x064, .ro, 0x0#32, 0x0#32, 0x0#32, .h, false, []⟩,
  ⟨0x068, .ro, 0x0#32, 0x0#32, 0x0#32, .h, true, []⟩,
  ⟨0x06C, .ro, 0x0#32, 0x0#32, 0x0#32, .h, false, []⟩,
  ⟨0x070, .ro, 0x0#32, 0x0#32, 0x0#32, .h, false, []⟩,
  ⟨0x074, .ro, 0x0#32, 0x0#32, 0x0#32, .h, false, []⟩,
  ⟨0x078, .ro, 0x0#32, 0x0#32, 0x0#32, .h, false, []⟩,
  ⟨0x07C, .ro, 0x0#32, 0x0#32, 0x0#32, .h, false, []⟩,
  ⟨0x080, .ro, 0x0#32, 0x0#32, 0x0#32, .h, false, []⟩,
  ⟨0x084, .wo, 0x0#32, 0x0#32, 0x0#32, .h, false, []⟩]

/-- Registers of the sag page (part 0). -/
def regRows_sag0 : List RegDef := [
  ⟨0x040, .ro, 0x0#32, 0x0#32, 0x0#32, .h, false, []⟩,
  ⟨0x044, .ro, 0x0#32, 0x0#32, 0x0#32, .h, false, []⟩,
  ⟨0x048, .ro, 0x0#32, 0x0#32, 0x0#32, .h, false, []⟩,
  ⟨0x04C, .ro, 0x0#32, 0x0#32, 0x0#32, .h, false, []⟩,
  ⟨0x050, .ro, 0x0#32, 0x0#32, 0x0#32, .h, false, []⟩,
  ⟨0x054, .ro, 0x0#32, 0x0#32, 0x0#32, .h, false, []⟩,
  ⟨0x058, .ro, 0x0#32, 0x0#32, 0x0#32, .h, false, []⟩,
  ⟨0x05C, .ro, 0x0#32, 0x0#32, 0x0#32, .h, false, []⟩,
  ⟨0x060, .ro, 0x0#32, 0x0#32, 0x0#32, .h, false, []⟩,
  ⟨0x064, .ro, 0x0#32, 0x0#32, 0x0#32, .h, false, []⟩,
  ⟨0x068, .ro, 0x0#32, 0x0#32, 0x0#32, .h, false, []⟩,
  ⟨0x06C, .ro, 0x0#32, 0x0#32, 0x0#32, .h, false, []⟩,
  ⟨0x070, .ro, 0x0#32, 0x0#32, 0x0#32, .h, false, []⟩,
  ⟨0x074, .ro, 0x0#32, 0x0#32, 0x0#32, .n, false, []⟩,
  ⟨0x078, .wo, 0x0#32, 0x0#32, 0x0#32, .h, false, []⟩]

/-- Registers of the tly page (part 0). -/
def regRows_tly0 : List RegDef := [
  ⟨0x040, .rw, 0x3#32, 0x0#32, 0x0#32, .h, false, []⟩,
  ⟨0x044, .ro, 0x0#32, 0x0#32, 0x0#32, .h, false, []⟩,
  ⟨0x048, .rw, 0xFFFF#32, 0x0#32, 0x3E8#32, .h, false, [⟨0, 16, 100, 60000⟩]⟩,
  ⟨0x04C, .rw, 0xFFF#32, 0x0#32, 0x55#32, .h, false, [⟨0, 2, 0, 2⟩, ⟨2, 2, 0, 2⟩, ⟨4, 2, 0, 2⟩, ⟨6, 2, 0, 2⟩]⟩,
  ⟨0x050, .rw, 0xF#32, 0x0#32, 0x0#32, .h, false, []⟩,
  ⟨0x054, .rw, 0x3FF#32, 0x0#32, 0x0#32, .h, false, []⟩,
  ⟨0x058, .rw, 0xFFFFFFFF#32, 0x0#32, 0x0#32, .h, true, []⟩,
  ⟨0x05C, .rw, 0xFFFFFFFF#32, 0x0#32, 0x0#32, .h, false, []⟩,
  ⟨0x060, .ro, 0x0#32, 0x0#32, 0x0#32, .h, false, []⟩,
  ⟨0x068, .ro, 0x0#32, 0x0#32, 0x0#32, .h, true, []⟩,
  ⟨0x06C, .ro, 0x0#32, 0x0#32, 0x0#32, .h, false, []⟩,
  ⟨0x070, .ro, 0x0#32, 0x0#32, 0x0#32, .h, true, []⟩,
  ⟨0x074, .ro, 0x0#32, 0x0#32, 0x0#32, .h, false, []⟩,
  ⟨0x078, .ro, 0x0#32, 0x0#32, 0x0#32, .h, true, []⟩,
  ⟨0x07C, .ro, 0x0#32, 0x0#32, 0x0#32, .h, false, []⟩,
  ⟨0x080, .ro, 0x0#32, 0x0#32, 0x0#32, .n, false, []⟩,
  ⟨0x084, .ro, 0x0#32, 0x0#32, 0x0#32, .h, false, []⟩,
  ⟨0x088, .ro, 0x0#32, 0x0#32, 0x0#32, .h, false, []⟩,
  ⟨0x08C, .ro, 0x0#32, 0x0#32, 0x0#32, .h, false, []⟩,
  ⟨0x090, .wo, 0x0#32, 0x0#32, 0x0#32, .h, false, []⟩]

/-- Registers of the hif page (part 0). -/
def regRows_hif0 : List RegDef := [
  ⟨0x040, .rw, 0x3#32, 0x0#32, 0x0#32, .h, false, []⟩,
  ⟨0x044, .ro, 0x0#32, 0x0#32, 0x0#32, .h, false, []⟩,
  ⟨0x048, .rw, 0xFFFFFFFF#32, 0x0#32, 0x0#32, .h, true, []⟩,
  ⟨0x04C, .rw, 0xFFFFFFFF#32, 0x0#32, 0x0#32, .h, false, []⟩,
  ⟨0x050, .rw, 0xFFFFFFFF#32, 0x0#32, 0x0#32, .h, true, []⟩,
  ⟨0x054, .rw, 0xFFFFFFFF#32, 0x0#32, 0x0#32, .h, false, []⟩,
  ⟨0x058, .rw, 0xFFFFFFFF#32, 0x0#32, 0x0#32, .h, true, []⟩,
  ⟨0x05C, .rw, 0xFFFFFFFF#32, 0x0#32, 0x0#32, .h, false, []⟩,
  ⟨0x060, .rw, 0x7FFFF#32, 0x0#32, 0x0#32, .h, false, [⟨0, 4, 0, 12⟩, ⟨4, 4, 0, 12⟩]⟩,
  ⟨0x064, .rw, 0x1FFF#32, 0x0#32, 0x0#32, .h, false, []⟩,
  ⟨0x068, .ro, 0x0#32, 0x0#32, 0x0#32, .h, false, []⟩,
  ⟨0x06C, .ro, 0x0#32, 0x0#32, 0x0#32, .h, false, []⟩,
  ⟨0x070, .ro, 0x0#32, 0x0#32, 0x0#32, .h, false, []⟩,
  ⟨0x074, .ro, 0x0#32, 0x0#32, 0x0#32, .h, false, []⟩,
  ⟨0x078, .ro, 0x0#32, 0x0#32, 0x0#32, .h, false, []⟩,
  ⟨0x07C, .ro, 0x0#32, 0x0#32, 0x0#32, .h, false, []⟩,
  ⟨0x080, .rw, 0xFFF#32, 0x0#32, 0x0#32, .h, false, []⟩,
  ⟨0x084, .rw, 0x7FF#32, 0x0#32, 0x0#32, .h, false, []⟩,
  ⟨0x088, .ro, 0x0#32, 0x0#32, 0xFFFF#32, .h, false, []⟩,
  ⟨0x08C, .ro, 0x0#32, 0x0#32, 0x0#32, .h, false, []⟩,
  ⟨0x090, .ro, 0x0#32, 0x0#32, 0x0#32, .h, false, []⟩,
  ⟨0x094, .rw, 0xFFFF#32, 0x0#32, 0x32#32, .h, false, []⟩,
  ⟨0x098, .rw, 0xFF#32, 0x0#32, 0x14#32, .h, false, [⟨0, 8, 1, 255⟩]⟩,
  ⟨0x09C, .rw, 0xFF#32, 0x0#32, 0xA#32, .h, false, [⟨0, 8, 1, 255⟩]⟩,
  ⟨0x0A0, .rw, 0xFF#32, 0x0#32, 0x4#32, .h, false, [⟨0, 8, 1, 255⟩]⟩,
  ⟨0x0A4, .rw, 0xFFFF#32, 0x0#32, 0x14#32, .h, false, []⟩,
  ⟨0x0A8, .ro, 0x0#32, 0x0#32, 0x0#32, .h, false, []⟩,
  ⟨0x0AC, .rw, 0xFF#32, 0x0#32, 0xA#32, .h, false, [⟨0, 8, 1, 255⟩]⟩,
  ⟨0x0B0, .rw, 0xFFFF00FF#32, 0x0#32, 0x1#32, .h, false, [⟨0, 8, 1, 255⟩]⟩,
  ⟨0x0C0, .ro, 0x0#32, 0x0#32, 0x0#32, .h, false, []⟩,
  ⟨0x0C4, .ro, 0x0#32, 0x0#32, 0x0#32, .h, false, []⟩,
  ⟨0x0C8, .ro, 0x0#32, 0x0#32, 0x0#32, .h, false, []⟩,
  ⟨0x0CC, .ro, 0x0#32, 0x0#32, 0x0#32, .h, false, []⟩,
  ⟨0x0D0, .ro, 0x0#32, 0x0#32, 0x0#32, .h, false, []⟩,
  ⟨0x0D4, .ro, 0x0#32, 0x0#32, 0x0#32, .h, false, []⟩,
  ⟨0x0D8, .ro, 0x0#32, 0x0#32, 0x0#32, .h, false, []⟩,
  ⟨0x0DC, .wo, 0x0#32, 0x0#32, 0x0#32, .h, false, []⟩]

/-- Registers of the mem page (part 0). -/
def regRows_mem0 : List RegDef := [
]

/-- Registers of the thr page (part 0). -/
def regRows_thr0 : List RegDef := [
  ⟨0x040, .rw, 0x3#32, 0x0#32, 0x3#32, .h, false, []⟩,
  ⟨0x044, .ro, 0x0#32, 0x0#32, 0x0#32, .h, false, []⟩,
  ⟨0x048, .rw, 0xFFFFFF#32, 0x0#32, 0xFFFFFF#32, .h, false, []⟩,
  ⟨0x04C, .rw, 0xFFFF#32, 0x0#32, 0x400#32, .h, false, [⟨0, 16, 256, 65535⟩]⟩,
  ⟨0x050, .ro, 0x0#32, 0x0#32, 0x0#32, .h, true, []⟩,
  ⟨0x054, .ro, 0x0#32, 0x0#32, 0x0#32, .h, false, []⟩,
  ⟨0x058, .ro, 0x0#32, 0x0#32, 0x0#32, .h, true, []⟩,
  ⟨0x05C, .ro, 0x0#32, 0x0#32, 0x0#32, .h, false, []⟩,
  ⟨0x060, .ro, 0x0#32, 0x0#32, 0x0#32, .h, true, []⟩,
  ⟨0x064, .ro, 0x0#32, 0x0#32, 0x0#32, .h, false, []⟩,
  ⟨0x068, .ro, 0x0#32, 0x0#32, 0x0#32, .h, false, []⟩,
  ⟨0x06C, .ro, 0x0#32, 0x0#32, 0x0#32, .h, false, []⟩,
  ⟨0x070, .ro, 0x0#32, 0x0#32, 0x0#32, .h, false, []⟩,
  ⟨0x074, .ro, 0x0#32, 0x0#32, 0x0#32, .h, false, []⟩,
  ⟨0x078, .ro, 0x0#32, 0x0#32, 0x0#32, .h, false, []⟩,
  ⟨0x07C, .ro, 0x0#32, 0x0#32, 0x0#32, .h, false, []⟩,
  ⟨0x080, .ro, 0x0#32, 0x0#32, 0x0#32, .h, false, []⟩,
  ⟨0x084, .wo, 0x0#32, 0x0#32, 0x0#32, .h, false, []⟩]

/-- Registers of the mil page (part 0). -/
def regRows_mil0 : List RegDef := [
  ⟨0x040, .rw, 0x3#32, 0x0#32, 0x3#32, .h, false, []⟩,
  ⟨0x044, .rw, 0xFFFF03FF#32, 0x0#32, 0x1020210#32, .h, false, [⟨0, 9, 1, 256⟩, ⟨16, 16, 3, 65535⟩]⟩,
  ⟨0x048, .rw, 0x7FFFF#32, 0x0#32, 0x40000#32, .h, false, [⟨0, 19, 1024, 262144⟩]⟩,
  ⟨0x04C, .rw, 0x1FFF#32, 0x0#32, 0x40#32, .h, false, [⟨0, 13, 1, 4096⟩]⟩,
  ⟨0x050, .ro, 0x0#32, 0x0#32, 0x0#32, .h, false, []⟩,
  ⟨0x058, .ro, 0x0#32, 0x0#32, 0x0#32, .h, true, []⟩,
  ⟨0x05C, .ro, 0x0#32, 0x0#32, 0x0#32, .h, false, []⟩,
  ⟨0x060, .ro, 0x0#32, 0x0#32, 0x0#32, .h, true, []⟩,
  ⟨0x064, .ro, 0x0#32, 0x0#32, 0x0#32, .h, false, []⟩,
  ⟨0x068, .ro, 0x0#32, 0x0#32, 0x0#32, .h, false, []⟩,
  ⟨0x06C, .ro, 0x0#32, 0x0#32, 0x0#32, .h, false, []⟩,
  ⟨0x070, .ro, 0x0#32, 0x0#32, 0x0#32, .h, false, []⟩,
  ⟨0x074, .ro, 0x0#32, 0x0#32, 0x0#32, .h, false, []⟩,
  ⟨0x078, .wo, 0x0#32, 0x0#32, 0x0#32, .h, false, []⟩]

/-- Registers of the glz page (part 0). -/
def regRows_glz0 : List RegDef := [
  ⟨0x040, .rw, 0x1F#32, 0x0#32, 0x1F#32, .h, false, []⟩,
  ⟨0x044, .ro, 0x0#32, 0x0#32, 0x0#32, .h, false, []⟩,
  ⟨0x048, .rw, 0x7#32, 0x0#32, 0x4#32, .h, false, []⟩,
  ⟨0x04C, .ro, 0x0#32, 0x0#32, 0x4000#32, .h, false, []⟩,
  ⟨0x050, .ro, 0x0#32, 0x0#32, 0x0#32, .h, false, []⟩,
  ⟨0x054, .ro, 0x0#32, 0x0#32, 0x200#32, .h, false, []⟩,
  ⟨0x058, .ro, 0x0#32, 0x0#32, 0x0#32, .h, true, []⟩,
  ⟨0x05C, .ro, 0x0#32, 0x0#32, 0x0#32, .h, false, []⟩,
  ⟨0x060, .ro, 0x0#32, 0x0#32, 0x0#32, .h, true, []⟩,
  ⟨0x064, .ro, 0x0#32, 0x0#32, 0x0#32, .h, false, []⟩,
  ⟨0x068, .ro, 0x0#32, 0x0#32, 0x0#32, .h, false, []⟩,
  ⟨0x06C, .ro, 0x0#32, 0x0#32, 0x0#32, .h, false, []⟩,
  ⟨0x070, .ro, 0x0#32, 0x0#32, 0x0#32, .h, false, []⟩,
  ⟨0x074, .ro, 0x0#32, 0x0#32, 0x0#32, .h, false, []⟩,
  ⟨0x078, .ro, 0x0#32, 0x0#32, 0x0#32, .h, false, []⟩,
  ⟨0x07C, .ro, 0x0#32, 0x0#32, 0x0#32, .h, false, []⟩,
  ⟨0x080, .wo, 0x0#32, 0x0#32, 0x0#32, .h, false, []⟩]

/-- Registers of the tilC page (part 0). -/
def regRows_tilC0 : List RegDef := [
  ⟨0x040, .rw, 0x1#32, 0x0#32, 0x0#32, .h, false, []⟩,
  ⟨0x044, .ro, 0x0#32, 0x0#32, 0x0#32, .h, false, []⟩,
  ⟨0x048, .rw, 0x3F#32, 0x0#32, 0x0#32, .h, false, []⟩,
  ⟨0x04C, .rws, 0x80000FFF#32, 0x0#32, 0x800#32, .h, false, []⟩,
  ⟨0x050, .ro, 0x0#32, 0x0#32, 0x0#32, .h, false, []⟩,
  ⟨0x054, .ro, 0x0#32, 0x0#32, 0x0#32, .h, false, []⟩,
  ⟨0x058, .ro, 0x0#32, 0x0#32, 0x0#32, .h, false, []⟩,
  ⟨0x05C, .ro, 0x0#32, 0x0#32, 0x0#32, .h, false, []⟩,
  ⟨0x060, .ro, 0x0#32, 0x0#32, 0x0#32, .h, false, []⟩,
  ⟨0x064, .wo, 0x0#32, 0x0#32, 0x0#32, .h, false, []⟩,
  ⟨0x068, .rw, 0xF#32, 0x0#32, 0x0#32, .h, false, []⟩,
  ⟨0x06C, .rws, 0xFFFFFFFF#32, 0x0#32, 0x0#32, .h, false, []⟩,
  ⟨0x070, .rws, 0xFFFF#32, 0x0#32, 0x0#32, .h, false, []⟩]

/-- Registers of the tilE page (part 0). -/
def regRows_tilE0 : List RegDef := [
  ⟨0x040, .ro, 0x0#32, 0x0#32, 0x0#32, .h, false, []⟩,
  ⟨0x044, .rws, 0x7FF#32, 0x0#32, 0x700#32, .b, false, [⟨0, 8, 0, 3⟩]⟩,
  ⟨0x048, .rws, 0x7F7F07#32, 0x0#32, 0x0#32, .b, false, []⟩,
  ⟨0x04C, .rws, 0xFFFFFF#32, 0x0#32, 0xDAC688#32, .b, false, []⟩,
  ⟨0x050, .rws, 0xFFFFFF#32, 0x0#32, 0xFAC688#32, .b, false, []⟩,
  ⟨0x054, .rwsEven, 0xFFF#32, 0x0#32, 0x800#32, .b, false, []⟩,
  ⟨0x058, .rwsEven, 0x1F1F1F1F#32, 0x0#32, 0x0#32, .b, false, [⟨0, 5, 0, 24⟩, ⟨8, 5, 0, 24⟩, ⟨16, 5, 0, 24⟩, ⟨24, 5, 0, 24⟩]⟩,
  ⟨0x05C, .ro, 0x0#32, 0x0#32, 0x0#32, .h, false, []⟩,
  ⟨0x060, .ro, 0x0#32, 0x0#32, 0x0#32, .h, false, []⟩,
  ⟨0x064, .ro, 0x0#32, 0x0#32, 0x800#32, .h, false, []⟩,
  ⟨0x068, .ro, 0x0#32, 0x0#32, 0x0#32, .h, true, []⟩,
  ⟨0x06C, .ro, 0x0#32, 0x0#32, 0x0#32, .h, false, []⟩,
  ⟨0x070, .ro, 0x0#32, 0x0#32, 0x0#32, .h, false, []⟩,
  ⟨0x074, .ro, 0x0#32, 0x0#32, 0x0#32, .h, false, []⟩,
  ⟨0x078, .wo, 0x0#32, 0x0#32, 0x0#32, .h, false, []⟩,
  ⟨0x080, .rwsEven, 0xFFFFFFFF#32, 0x0#32, 0x4000780#32, .b, false, [⟨24, 8, 1, 255⟩]⟩,
  ⟨0x084, .rwsEven, 0xFFFFFF#32, 0x0#32, 0x2EE00#32, .b, false, []⟩,
  ⟨0x088, .rwsEven, 0xFFFFFF#32, 0x0#32, 0x5DC00#32, .b, false, []⟩,
  ⟨0x08C, .rwsEven, 0xFFFF#32, 0x0#32, 0x99#32, .b, false, [⟨0, 3, 1, 6⟩, ⟨5, 3, 0, 6⟩]⟩,
  ⟨0x090, .rwsEven, 0xFF#32, 0x0#32, 0x59#32, .b, false, []⟩,
  ⟨0x098, .ro, 0x0#32, 0x0#32, 0x0#32, .h, true, []⟩,
  ⟨0x09C, .ro, 0x0#32, 0x0#32, 0x0#32, .h, false, []⟩,
  ⟨0x0A0, .ro, 0x0#32, 0x0#32, 0x0#32, .h, true, []⟩,
  ⟨0x0A4, .ro, 0x0#32, 0x0#32, 0x0#32, .h, false, []⟩,
  ⟨0x0A8, .ro, 0x0#32, 0x0#32, 0x0#32, .h, true, []⟩,
  ⟨0x0AC, .ro, 0x0#32, 0x0#32, 0x0#32, .h, false, []⟩,
  ⟨0x0B0, .ro, 0x0#32, 0x0#32, 0x0#32, .h, false, []⟩,
  ⟨0x0B4, .ro, 0x0#32, 0x0#32, 0x0#32, .h, false, []⟩,
  ⟨0x0B8, .ro, 0x0#32, 0x0#32, 0x0#32, .h, false, []⟩,
  ⟨0x0BC, .wo, 0x0#32, 0x0#32, 0x0#32, .h, false, []⟩]

/-- Registers of the klnC page (part 0). -/
def regRows_klnC0 : List RegDef := [
  ⟨0x040, .rws, 0x1#32, 0x0#32, 0x1#32, .h, false, []⟩,
  ⟨0x044, .ro, 0x0#32, 0x0#32, 0x0#32, .h, false, []⟩,
  ⟨0x048, .ro, 0x0#32, 0x0#32, 0x2EE00#32, .h, false, []⟩,
  ⟨0x04C, .ro, 0x0#32, 0x0#32, 0x0#32, .h, false, []⟩,
  ⟨0x050, .ro, 0x0#32, 0x0#32, 0xFFFFFFFF#32, .h, false, []⟩,
  ⟨0x054, .ro, 0x0#32, 0x0#32, 0x0#32, .h, false, []⟩,
  ⟨0x058, .rw, 0xFFFF#32, 0x0#32, 0x14#32, .h, false, []⟩,
  ⟨0x05C, .rw, 0xFFFF#32, 0x0#32, 0xC8#32, .h, false, []⟩,
  ⟨0x060, .rw, 0xFFFF#32, 0x0#32, 0x3E8#32, .h, false, []⟩,
  ⟨0x064, .ro, 0x0#32, 0x0#32, 0x0#32, .h, false, []⟩,
  ⟨0x068, .ro, 0x0#32, 0x0#32, 0x0#32, .h, false, []⟩,
  ⟨0x06C, .rw, 0x8F8F8F8F#32, 0x0#32, 0x0#32, .h, false, []⟩,
  ⟨0x070, .rw, 0x3F#32, 0x0#32, 0x0#32, .h, false, []⟩,
  ⟨0x074, .ro, 0x0#32, 0x0#32, 0x0#32, .h, false, []⟩,
  ⟨0x078, .ro, 0x0#32, 0x0#32, 0xFFFFFFFF#32, .h, false, []⟩,
  ⟨0x07C, .ro, 0x0#32, 0x0#32, 0x0#32, .h, false, []⟩,
  ⟨0x080, .ro, 0x0#32, 0x0#32, 0x2EE00#32, .h, false, []⟩,
  ⟨0x084, .wo, 0x0#32, 0x0#32, 0x0#32, .h, false, []⟩,
  ⟨0x088, .wo, 0x0#32, 0x0#32, 0x0#32, .h, false, []⟩,
  ⟨0x100, .rw, 0x7F77#32, 0x0#32, 0xC00#32, .h, false, []⟩,
  ⟨0x140, .rw, 0x7F77#32, 0x0#32, 0xC00#32, .h, false, []⟩,
  ⟨0x180, .rw, 0x7F77#32, 0x0#32, 0xC00#32, .h, false, []⟩,
  ⟨0x1C0, .rw, 0x7F77#32, 0x0#32, 0xC00#32, .h, false, []⟩,
  ⟨0x104, .rw, 0xFFFFFFFF#32, 0x0#32, 0x0#32, .h, false, []⟩,
  ⟨0x144, .rw, 0xFFFFFFFF#32, 0x0#32, 0x0#32, .h, false, []⟩,
  ⟨0x184, .rw, 0xFFFFFFFF#32, 0x0#32, 0x0#32, .h, false, []⟩,
  ⟨0x1C4, .rw, 0xFFFFFFFF#32, 0x0#32, 0x0#32, .h, false, []⟩,
  ⟨0x108, .rw, 0xFFFFFF#32, 0x0#32, 0x6400#32, .h, false, []⟩,
  ⟨0x148, .rw, 0xFFFFFF#32, 0x0#32, 0x6400#32, .h, false, []⟩,
  ⟨0x188, .rw, 0xFFFFFF#32, 0x0#32, 0x6400#32, .h, false, []⟩,
  ⟨0x1C8, .rw, 0xFFFFFF#32, 0x0#32, 0x6400#32, .h, false, []⟩,
  ⟨0x10C, .rw, 0xFFFFFF#32, 0x0#32, 0x8000#32, .h, false, []⟩,
  ⟨0x14C, .rw, 0xFFFFFF#32, 0x0#32, 0x8000#32, .h, false, []⟩,
  ⟨0x18C, .rw, 0xFFFFFF#32, 0x0#32, 0x8000#32, .h, false, []⟩,
  ⟨0x1CC, .rw, 0xFFFFFF#32, 0x0#32, 0x8000#32, .h, false, []⟩,
  ⟨0x110, .rw, 0xFFFFFFFF#32, 0x0#32, 0xFA000A#32, .h, false, [⟨0, 16, 1, 65535⟩, ⟨16, 16, 1, 65535⟩]⟩,
  ⟨0x150, .rw, 0xFFFFFFFF#32, 0x0#32, 0xFA000A#32, .h, false, [⟨0, 16, 1, 65535⟩, ⟨16, 16, 1, 65535⟩]⟩,
  ⟨0x190, .rw, 0xFFFFFFFF#32, 0x0#32, 0xFA000A#32, .h, false, [⟨0, 16, 1, 65535⟩, ⟨16, 16, 1, 65535⟩]⟩,
  ⟨0x1D0, .rw, 0xFFFFFFFF#32, 0x0#32, 0xFA000A#32, .h, false, [⟨0, 16, 1, 65535⟩, ⟨16, 16, 1, 65535⟩]⟩,
  ⟨0x114, .rw, 0x1FFFF#32, 0x0#32, 0x103E8#32, .h, false, [⟨0, 16, 10, 65535⟩]⟩]

/-- Registers of the klnC page (part 1). -/
def regRows_klnC1 : List RegDef := [
  ⟨0x154, .rw, 0x1FFFF#32, 0x0#32, 0x103E8#32, .h, false, [⟨0, 16, 10, 65535⟩]⟩,
  ⟨0x194, .rw, 0x1FFFF#32, 0x0#32, 0x103E8#32, .h, false, [⟨0, 16, 10, 65535⟩]⟩,
  ⟨0x1D4, .rw, 0x1FFFF#32, 0x0#32, 0x103E8#32, .h, false, [⟨0, 16, 10, 65535⟩]⟩,
  ⟨0x118, .ro, 0x0#32, 0x0#32, 0x0#32, .h, false, []⟩,
  ⟨0x158, .ro, 0x0#32, 0x0#32, 0x0#32, .h, false, []⟩,
  ⟨0x198, .ro, 0x0#32, 0x0#32, 0x0#32, .h, false, []⟩,
  ⟨0x1D8, .ro, 0x0#32, 0x0#32, 0x0#32, .h, false, []⟩,
  ⟨0x11C, .ro, 0x0#32, 0x0#32, 0xFFFFFFFF#32, .h, false, []⟩,
  ⟨0x15C, .ro, 0x0#32, 0x0#32, 0xFFFFFFFF#32, .h, false, []⟩,
  ⟨0x19C, .ro, 0x0#32, 0x0#32, 0xFFFFFFFF#32, .h, false, []⟩,
  ⟨0x1DC, .ro, 0x0#32, 0x0#32, 0xFFFFFFFF#32, .h, false, []⟩,
  ⟨0x120, .ro, 0x0#32, 0x0#32, 0x0#32, .h, true, []⟩,
  ⟨0x124, .ro, 0x0#32, 0x0#32, 0x0#32, .h, false, []⟩,
  ⟨0x160, .ro, 0x0#32, 0x0#32, 0x0#32, .h, true, []⟩,
  ⟨0x164, .ro, 0x0#32, 0x0#32, 0x0#32, .h, false, []⟩,
  ⟨0x1A0, .ro, 0x0#32, 0x0#32, 0x0#32, .h, true, []⟩,
  ⟨0x1A4, .ro, 0x0#32, 0x0#32, 0x0#32, .h, false, []⟩,
  ⟨0x1E0, .ro, 0x0#32, 0x0#32, 0x0#32, .h, true, []⟩,
  ⟨0x1E4, .ro, 0x0#32, 0x0#32, 0x0#32, .h, false, []⟩,
  ⟨0x128, .ro, 0x0#32, 0x0#32, 0x0#32, .h, false, []⟩,
  ⟨0x168, .ro, 0x0#32, 0x0#32, 0x0#32, .h, false, []⟩,
  ⟨0x1A8, .ro, 0x0#32, 0x0#32, 0x0#32, .h, false, []⟩,
  ⟨0x1E8, .ro, 0x0#32, 0x0#32, 0x0#32, .h, false, []⟩,
  ⟨0x12C, .ro, 0x0#32, 0x0#32, 0x0#32, .h, false, []⟩,
  ⟨0x16C, .ro, 0x0#32, 0x0#32, 0x0#32, .h, false, []⟩,
  ⟨0x1AC, .ro, 0x0#32, 0x0#32, 0x0#32, .h, false, []⟩,
  ⟨0x1EC, .ro, 0x0#32, 0x0#32, 0x0#32, .h, false, []⟩,
  ⟨0x130, .ro, 0x0#32, 0x0#32, 0x0#32, .h, false, []⟩,
  ⟨0x170, .ro, 0x0#32, 0x0#32, 0x0#32, .h, false, []⟩,
  ⟨0x1B0, .ro, 0x0#32, 0x0#32, 0x0#32, .h, false, []⟩,
  ⟨0x1F0, .ro, 0x0#32, 0x0#32, 0x0#32, .h, false, []⟩,
  ⟨0x134, .wo, 0x0#32, 0x0#32, 0x0#32, .h, false, []⟩,
  ⟨0x174, .wo, 0x0#32, 0x0#32, 0x0#32, .h, false, []⟩,
  ⟨0x1B4, .wo, 0x0#32, 0x0#32, 0x0#32, .h, false, []⟩,
  ⟨0x1F4, .wo, 0x0#32, 0x0#32, 0x0#32, .h, false, []⟩,
  ⟨0x200, .mixed, 0x0#32, 0xF000#32, 0x0#32, .n, false, []⟩,
  ⟨0x204, .wo, 0x0#32, 0x0#32, 0x0#32, .h, false, []⟩,
  ⟨0x208, .rw, 0xFFFF#32, 0x0#32, 0xA#32, .n, false, [⟨0, 16, 1, 65535⟩]⟩,
  ⟨0x210, .rw, 0xFFFFFFFF#32, 0x0#32, 0xFFFFFFFF#32, .n, false, []⟩,
  ⟨0x214, .rw, 0xFFFFFFFF#32, 0x0#32, 0xFFFFFFFF#32, .n, false, []⟩]

/-- Registers of the klnC page (part 2). -/
def regRows_klnC2 : List RegDef := [
  ⟨0x218, .rw, 0xFFFFFFFF#32, 0x0#32, 0xFFFFFFFF#32, .n, false, []⟩,
  ⟨0x21C, .rw, 0xFFFFFFFF#32, 0x0#32, 0xFFFFFFFF#32, .n, false, []⟩,
  ⟨0x220, .ro, 0x0#32, 0x0#32, 0x0#32, .n, false, []⟩,
  ⟨0x224, .ro, 0x0#32, 0x0#32, 0x0#32, .n, false, []⟩,
  ⟨0x228, .ro, 0x0#32, 0x0#32, 0x0#32, .n, false, []⟩,
  ⟨0x22C, .ro, 0x0#32, 0x0#32, 0x0#32, .n, false, []⟩]

/-- Registers of the klnP page (part 0). -/
def regRows_klnP0 : List RegDef := [
  ⟨0x040, .ro, 0x0#32, 0x0#32, 0x0#32, .h, false, []⟩,
  ⟨0x044, .rws, 0xF3#32, 0x0#32, 0x0#32, .b, false, []⟩,
  ⟨0x048, .rws, 0xFFFFFF#32, 0x0#32, 0x400#32, .b, false, [⟨0, 24, 1, 16777215⟩]⟩,
  ⟨0x04C, .rws, 0xFFFFFFFF#32, 0x0#32, 0x101010#32, .b, false, [⟨8, 8, 1, 255⟩]⟩,
  ⟨0x050, .rw, 0xFFFFFF#32, 0x0#32, 0x0#32, .b, false, []⟩,
  ⟨0x054, .ro, 0x0#32, 0x0#32, 0x0#32, .h, false, []⟩,
  ⟨0x058, .ro, 0x0#32, 0x0#32, 0x0#32, .h, false, []⟩,
  ⟨0x05C, .ro, 0x0#32, 0x0#32, 0x0#32, .h, false, []⟩,
  ⟨0x060, .ro, 0x0#32, 0x0#32, 0x0#32, .h, false, []⟩,
  ⟨0x064, .rw, 0xFFFFFFFF#32, 0x0#32, 0x0#32, .h, false, []⟩,
  ⟨0x068, .mixed, 0x1#32, 0x2#32, 0x0#32, .h, false, []⟩,
  ⟨0x06C, .rw, 0xF#32, 0x0#32, 0x0#32, .h, false, []⟩,
  ⟨0x070, .rws, 0x8003FFFF#32, 0x0#32, 0x0#32, .b, false, []⟩,
  ⟨0x074, .rws, 0x7FFFF#32, 0x0#32, 0x1#32, .b, false, [⟨0, 19, 1, 262144⟩]⟩,
  ⟨0x078, .rws, 0xFFFFFF#32, 0x0#32, 0x0#32, .b, false, []⟩,
  ⟨0x07C, .rws, 0xFFFFFF#32, 0x0#32, 0x1#32, .b, false, [⟨0, 24, 1, 16777215⟩]⟩,
  ⟨0x080, .ro, 0x0#32, 0x0#32, 0x0#32, .h, false, []⟩,
  ⟨0x084, .ro, 0x0#32, 0x0#32, 0x0#32, .h, false, []⟩,
  ⟨0x088, .ro, 0x0#32, 0x0#32, 0x0#32, .h, false, []⟩,
  ⟨0x08C, .ro, 0x0#32, 0x0#32, 0x0#32, .h, false, []⟩,
  ⟨0x090, .ro, 0x0#32, 0x0#32, 0x0#32, .h, false, []⟩,
  ⟨0x094, .ro, 0x0#32, 0x0#32, 0x0#32, .h, false, []⟩,
  ⟨0x098, .ro, 0x0#32, 0x0#32, 0x0#32, .h, false, []⟩,
  ⟨0x09C, .ro, 0x0#32, 0x0#32, 0x0#32, .h, false, []⟩,
  ⟨0x0A0, .wo, 0x0#32, 0x0#32, 0x0#32, .h, false, []⟩,
  ⟨0x100, .rw, 0x33#32, 0x0#32, 0x0#32, .b, false, []⟩,
  ⟨0x104, .rws, 0xFFFFFFFF#32, 0x0#32, 0x10000#32, .b, false, [⟨0, 32, 4096, 16777216⟩]⟩,
  ⟨0x108, .rws, 0xFFFFF#32, 0x0#32, 0x0#32, .b, false, []⟩,
  ⟨0x10C, .rws, 0xFFFFF#32, 0x0#32, 0x10000#32, .b, false, []⟩,
  ⟨0x110, .rws, 0xFFFF#32, 0x0#32, 0x0#32, .b, false, []⟩,
  ⟨0x114, .ro, 0x0#32, 0x0#32, 0x0#32, .h, false, []⟩,
  ⟨0x118, .ro, 0x0#32, 0x0#32, 0x0#32, .h, false, []⟩,
  ⟨0x11C, .ro, 0x0#32, 0x0#32, 0x0#32, .h, false, []⟩,
  ⟨0x120, .ro, 0x0#32, 0x0#32, 0x0#32, .h, false, []⟩,
  ⟨0x124, .rw, 0x7FFFFFF#32, 0x0#32, 0x0#32, .b, false, []⟩,
  ⟨0x128, .rw, 0xFFFFFFFF#32, 0x0#32, 0x0#32, .b, false, []⟩,
  ⟨0x12C, .ro, 0x0#32, 0x0#32, 0x0#32, .h, false, []⟩,
  ⟨0x130, .ro, 0x0#32, 0x0#32, 0x0#32, .h, false, []⟩,
  ⟨0x134, .ro, 0x0#32, 0x0#32, 0x0#32, .h, false, []⟩,
  ⟨0x138, .ro, 0x0#32, 0x0#32, 0x0#32, .h, false, []⟩]

/-- Registers of the klnP page (part 1). -/
def regRows_klnP1 : List RegDef := [
  ⟨0x13C, .wo, 0x0#32, 0x0#32, 0x0#32, .h, false, []⟩]

/-- Registers of the hlk page (part 0). -/
def regRows_hlk0 : List RegDef := [
  ⟨0x100, .rws, 0x7FF#32, 0x0#32, 0x400#32, .b, false, [⟨0, 11, 0, 1024⟩]⟩,
  ⟨0x104, .rws, 0xFFFF#32, 0x0#32, 0xA0#32, .b, false, []⟩,
  ⟨0x108, .rws, 0xFFF#32, 0x0#32, 0x28#32, .b, false, [⟨0, 12, 1, 4095⟩]⟩,
  ⟨0x10C, .rws, 0xFFFF#32, 0x0#32, 0x960#32, .b, false, []⟩,
  ⟨0x110, .rws, 0xFFFF#32, 0x0#32, 0x0#32, .b, false, []⟩,
  ⟨0x114, .rws, 0xFFFFFFFF#32, 0x0#32, 0x0#32, .b, false, []⟩,
  ⟨0x118, .rws, 0xFFFFFFFF#32, 0x0#32, 0x0#32, .b, false, []⟩,
  ⟨0x11C, .rws, 0xFFFFFF#32, 0x0#32, 0x280000#32, .b, false, []⟩,
  ⟨0x120, .ro, 0x0#32, 0x0#32, 0x0#32, .h, false, []⟩,
  ⟨0x124, .wo, 0x0#32, 0x0#32, 0x0#32, .h, false, []⟩,
  ⟨0x040, .mixed, 0x1F#32, 0x0#32, 0x8#32, .h, false, []⟩,
  ⟨0x044, .ro, 0x0#32, 0x0#32, 0x0#32, .h, false, []⟩,
  ⟨0x048, .mixed, 0x0#32, 0x9#32, 0x0#32, .h, false, []⟩,
  ⟨0x04C, .ro, 0x0#32, 0x0#32, 0x0#32, .h, false, []⟩,
  ⟨0x050, .rw, 0x7#32, 0x0#32, 0x0#32, .h, false, []⟩,
  ⟨0x054, .ro, 0x0#32, 0x0#32, 0x0#32, .h, false, []⟩,
  ⟨0x058, .rw, 0xFFFF#32, 0x0#32, 0x500#32, .h, false, []⟩,
  ⟨0x05C, .rw, 0xFFFF#32, 0x0#32, 0xA#32, .h, false, [⟨0, 16, 1, 65535⟩]⟩,
  ⟨0x060, .rw, 0xFFFF#32, 0x0#32, 0xA#32, .h, false, [⟨0, 16, 1, 65535⟩]⟩,
  ⟨0x064, .rw, 0xFFFF#32, 0x0#32, 0x3E8#32, .h, false, [⟨0, 16, 100, 65535⟩]⟩,
  ⟨0x068, .ro, 0x0#32, 0x0#32, 0x0#32, .h, false, []⟩,
  ⟨0x06C, .ro, 0x0#32, 0x0#32, 0x0#32, .h, false, []⟩,
  ⟨0x070, .ro, 0x0#32, 0x0#32, 0x0#32, .h, false, []⟩,
  ⟨0x074, .ro, 0x0#32, 0x0#32, 0x0#32, .h, false, []⟩,
  ⟨0x078, .ro, 0x0#32, 0x0#32, 0x0#32, .h, false, []⟩,
  ⟨0x07C, .wo, 0x0#32, 0x0#32, 0x0#32, .h, false, []⟩,
  ⟨0x080, .ro, 0x0#32, 0x0#32, 0x0#32, .h, false, []⟩]

/-- Registers of the pifC page (part 0). -/
def regRows_pifC0 : List RegDef := [
  ⟨0x040, .ro, 0x0#32, 0x0#32, 0x0#32, .h, false, []⟩,
  ⟨0x044, .ro, 0x0#32, 0x0#32, 0x0#32, .h, false, []⟩]

/-- Registers of the pifCh page (part 0). -/
def regRows_pifCh0 : List RegDef := [
  ⟨0x040, .rw, 0x7F1F#32, 0x0#32, 0x4000#32, .b, false, []⟩,
  ⟨0x044, .wo, 0x0#32, 0x0#32, 0x0#32, .h, false, []⟩,
  ⟨0x048, .mixed, 0x0#32, 0x84#32, 0x0#32, .b, false, []⟩,
  ⟨0x04C, .rw, 0xFFFFFFFF#32, 0x0#32, 0x0#32, .b, false, []⟩,
  ⟨0x050, .rw, 0xFFFFFFFF#32, 0x0#32, 0x4000#32, .b, false, []⟩,
  ⟨0x054, .rw, 0x3FFF3FFF#32, 0x0#32, 0x1E660AAB#32, .b, false, []⟩,
  ⟨0x058, .rw, 0xFF#32, 0x0#32, 0x10#32, .b, false, [⟨0, 8, 1, 255⟩]⟩,
  ⟨0x05C, .rw, 0xFFFF#32, 0x0#32, 0x40#32, .b, false, [⟨0, 16, 1, 65535⟩]⟩,
  ⟨0x060, .rw, 0xFFFFFFFF#32, 0x0#32, 0x0#32, .b, true, []⟩,
  ⟨0x064, .rw, 0xFFFF#32, 0x0#32, 0x0#32, .b, false, []⟩,
  ⟨0x068, .rw, 0xFFFF#32, 0x0#32, 0x4#32, .b, false, []⟩,
  ⟨0x06C, .rw, 0xFFFFFFFF#32, 0x0#32, 0x0#32, .b, true, []⟩,
  ⟨0x070, .rw, 0xFFFF#32, 0x0#32, 0x0#32, .b, false, []⟩,
  ⟨0x074, .ro, 0x0#32, 0x0#32, 0x0#32, .h, false, []⟩,
  ⟨0x078, .ro, 0x0#32, 0x0#32, 0x0#32, .h, true, []⟩,
  ⟨0x07C, .ro, 0x0#32, 0x0#32, 0x0#32, .h, false, []⟩,
  ⟨0x080, .ro, 0x0#32, 0x0#32, 0x0#32, .h, false, []⟩,
  ⟨0x084, .ro, 0x0#32, 0x0#32, 0x0#32, .h, true, []⟩,
  ⟨0x088, .ro, 0x0#32, 0x0#32, 0x0#32, .h, false, []⟩,
  ⟨0x08C, .ro, 0x0#32, 0x0#32, 0x0#32, .h, false, []⟩,
  ⟨0x090, .ro, 0x0#32, 0x0#32, 0x0#32, .h, false, []⟩,
  ⟨0x094, .ro, 0x0#32, 0x0#32, 0x0#32, .h, false, []⟩,
  ⟨0x098, .ro, 0x0#32, 0x0#32, 0x0#32, .h, true, []⟩,
  ⟨0x09C, .ro, 0x0#32, 0x0#32, 0x0#32, .h, false, []⟩,
  ⟨0x0A0, .ro, 0x0#32, 0x0#32, 0x0#32, .h, true, []⟩,
  ⟨0x0A4, .ro, 0x0#32, 0x0#32, 0x0#32, .h, false, []⟩,
  ⟨0x0A8, .ro, 0x0#32, 0x0#32, 0x0#32, .h, false, []⟩,
  ⟨0x0AC, .ro, 0x0#32, 0x0#32, 0x0#32, .h, false, []⟩,
  ⟨0x0B0, .ro, 0x0#32, 0x0#32, 0x0#32, .h, false, []⟩,
  ⟨0x0B4, .ro, 0x0#32, 0x0#32, 0x0#32, .h, false, []⟩,
  ⟨0x0B8, .ro, 0x0#32, 0x0#32, 0x0#32, .h, false, []⟩,
  ⟨0x0BC, .wo, 0x0#32, 0x0#32, 0x0#32, .h, false, []⟩]

/-- Registers of the motC page (part 0). -/
def regRows_motC0 : List RegDef := [
  ⟨0x040, .ro, 0x0#32, 0x0#32, 0x0#32, .h, false, []⟩,
  ⟨0x044, .ro, 0x0#32, 0x0#32, 0x0#32, .h, false, []⟩,
  ⟨0x050, .rw, 0xFF#32, 0x0#32, 0xFF#32, .n, false, []⟩,
  ⟨0x054, .rw, 0xFF#32, 0x0#32, 0xFF#32, .n, false, []⟩,
  ⟨0x058, .rw, 0xFF#32, 0x0#32, 0xFF#32, .n, false, []⟩,
  ⟨0x05C, .rw, 0xFF#32, 0x0#32, 0xFF#32, .n, false, []⟩]

/-- Registers of the motA page (part 0). -/
def regRows_motA0 : List RegDef := [
  ⟨0x040, .ro, 0x0#32, 0x0#32, 0x0#32, .h, false, []⟩,
  ⟨0x044, .mixed, 0x0#32, 0x11F#32, 0x0#32, .h, false, []⟩,
  ⟨0x048, .ro, 0x0#32, 0x0#32, 0x0#32, .h, false, []⟩,
  ⟨0x050, .ro, 0x0#32, 0x0#32, 0x0#32, .h, true, []⟩,
  ⟨0x054, .ro, 0x0#32, 0x0#32, 0x0#32, .h, false, []⟩,
  ⟨0x058, .ro, 0x0#32, 0x0#32, 0x0#32, .h, true, []⟩,
  ⟨0x05C, .ro, 0x0#32, 0x0#32, 0x0#32, .h, false, []⟩,
  ⟨0x060, .ro, 0x0#32, 0x0#32, 0x0#32, .h, false, []⟩,
  ⟨0x068, .ro, 0x0#32, 0x0#32, 0x0#32, .h, true, []⟩,
  ⟨0x06C, .ro, 0x0#32, 0x0#32, 0x0#32, .h, false, []⟩,
  ⟨0x070, .ro, 0x0#32, 0x0#32, 0x0#32, .h, false, []⟩,
  ⟨0x074, .ro, 0x0#32, 0x0#32, 0x0#32, .h, false, []⟩,
  ⟨0x078, .ro, 0x0#32, 0x0#32, 0x0#32, .h, false, []⟩,
  ⟨0x07C, .wo, 0x0#32, 0x0#32, 0x0#32, .h, false, []⟩,
  ⟨0x080, .rw, 0xFFFFF8FF#32, 0x0#32, 0x6400A0#32, .h, false, [⟨2, 4, 0, 8⟩]⟩,
  ⟨0x084, .rw, 0xFFFFFF#32, 0x0#32, 0x102710#32, .h, false, [⟨0, 16, 4000, 40000⟩, ⟨16, 8, 4, 255⟩]⟩,
  ⟨0x088, .rw, 0x31F#32, 0x0#32, 0x104#32, .h, false, [⟨0, 5, 4, 20⟩]⟩,
  ⟨0x08C, .rw, 0xFFFFFFFF#32, 0x0#32, 0x0#32, .h, false, []⟩,
  ⟨0x090, .rw, 0xFFFFFFFF#32, 0x0#32, 0x7FFF0000#32, .h, false, []⟩,
  ⟨0x094, .rw, 0xFFFFFFFF#32, 0x0#32, 0x8001000#32, .h, false, []⟩,
  ⟨0x098, .rw, 0x83FF03FF#32, 0x0#32, 0x1000300#32, .h, false, []⟩,
  ⟨0x09C, .rw, 0xFFFFFFFF#32, 0x0#32, 0x321040#32, .h, false, [⟨10, 4, 1, 15⟩]⟩,
  ⟨0x0A0, .rw, 0xFFFFFFF#32, 0x0#32, 0x190190#32, .h, false, [⟨24, 4, 0, 8⟩]⟩,
  ⟨0x0A4, .rw, 0xF#32, 0x0#32, 0x0#32, .h, false, []⟩,
  ⟨0x0A8, .rw, 0xFFFFFFFF#32, 0x0#32, 0x0#32, .h, false, []⟩,
  ⟨0x0AC, .rw, 0xFFFFFFFF#32, 0x0#32, 0x0#32, .h, false, []⟩,
  ⟨0x0B0, .rw, 0xFFFFFFFF#32, 0x0#32, 0x0#32, .h, true, []⟩,
  ⟨0x0B4, .rw, 0xFFFF#32, 0x0#32, 0x0#32, .h, false, []⟩,
  ⟨0x0B8, .rw, 0xFFFFFFFF#32, 0x0#32, 0x0#32, .h, false, []⟩,
  ⟨0x0BC, .rw, 0xFFFFFFFF#32, 0x0#32, 0x0#32, .h, false, []⟩,
  ⟨0x0C0, .rw, 0xFFFFFFFF#32, 0x0#32, 0x0#32, .h, true, []⟩,
  ⟨0x0C4, .rw, 0xFFFF#32, 0x0#32, 0x0#32, .h, false, []⟩,
  ⟨0x0C8, .rw, 0xFFFFFFFF#32, 0x0#32, 0x0#32, .h, true, []⟩,
  ⟨0x0CC, .rw, 0xFFFF#32, 0x0#32, 0x0#32, .h, false, []⟩,
  ⟨0x0D0, .rw, 0xFFFFFFFF#32, 0x0#32, 0x0#32, .h, false, []⟩,
  ⟨0x0D4, .rw, 0xFFFFFFFF#32, 0x0#32, 0x0#32, .h, false, []⟩,
  ⟨0x0E0, .rw, 0xFFFFFFFF#32, 0x0#32, 0x0#32, .h, false, []⟩,
  ⟨0x0E4, .rw, 0xFFFFFFFF#32, 0x0#32, 0x0#32, .h, false, []⟩,
  ⟨0x0E8, .rw, 0xFFFFFFFF#32, 0x0#32, 0x0#32, .h, false, []⟩,
  ⟨0x0EC, .rw, 0xFFFFFFFF#32, 0x0#32, 0x0#32, .h, false, []⟩]

/-- Registers of the motA page (part 1). -/
def regRows_motA1 : List RegDef := [
  ⟨0x0F0, .rw, 0xFFFFFFFF#32, 0x0#32, 0x0#32, .h, false, []⟩,
  ⟨0x0F4, .rw, 0xFFFFFFFF#32, 0x0#32, 0x0#32, .h, false, []⟩,
  ⟨0x0F8, .rw, 0xFFFFFFFF#32, 0x0#32, 0x0#32, .h, false, []⟩,
  ⟨0x0FC, .rw, 0xFFFFFFFF#32, 0x0#32, 0x0#32, .h, false, []⟩,
  ⟨0x100, .rw, 0xFFFFFFFF#32, 0x0#32, 0x0#32, .h, false, []⟩,
  ⟨0x104, .rw, 0xFFFFFFFF#32, 0x0#32, 0x0#32, .h, false, []⟩,
  ⟨0x108, .rw, 0xFFFFFFFF#32, 0x0#32, 0x0#32, .h, false, []⟩,
  ⟨0x10C, .rw, 0xFFFFFFFF#32, 0x0#32, 0x0#32, .h, false, []⟩,
  ⟨0x110, .rw, 0xFFFFFFFF#32, 0x0#32, 0x0#32, .h, false, []⟩,
  ⟨0x114, .rw, 0xFFFFFFFF#32, 0x0#32, 0x0#32, .h, false, []⟩,
  ⟨0x118, .rw, 0xFFFFFFFF#32, 0x0#32, 0x0#32, .h, false, []⟩,
  ⟨0x11C, .rw, 0xFFFFFFFF#32, 0x0#32, 0x0#32, .h, false, []⟩]

/-- Registers of the iplC page (part 0). -/
def regRows_iplC0 : List RegDef := [
  ⟨0x040, .rw, 0x3F#32, 0x0#32, 0x0#32, .h, false, []⟩,
  ⟨0x044, .ro, 0x0#32, 0x0#32, 0x0#32, .h, false, []⟩,
  ⟨0x048, .rw, 0x1FFF#32, 0x0#32, 0x40#32, .h, false, [⟨0, 13, 8, 4096⟩]⟩,
  ⟨0x04C, .rw, 0x3F#32, 0x0#32, 0x32#32, .h, false, [⟨0, 6, 1, 60⟩]⟩,
  ⟨0x050, .rw, 0x7FFF#32, 0x0#32, 0x400#32, .h, false, [⟨0, 15, 0, 16384⟩]⟩,
  ⟨0x058, .ro, 0x0#32, 0x0#32, 0x0#32, .h, true, []⟩,
  ⟨0x05C, .ro, 0x0#32, 0x0#32, 0x0#32, .h, false, []⟩,
  ⟨0x060, .wo, 0x0#32, 0x0#32, 0x0#32, .h, false, []⟩]

/-- Registers of the iplP page (part 0). -/
def regRows_iplP0 : List RegDef := [
  ⟨0x040, .ro, 0x0#32, 0x0#32, 0x0#32, .h, false, []⟩,
  ⟨0x044, .wo, 0x0#32, 0x0#32, 0x0#32, .h, false, []⟩,
  ⟨0x048, .ro, 0x0#32, 0x0#32, 0x0#32, .h, false, []⟩,
  ⟨0x04C, .ro, 0x0#32, 0x0#32, 0x0#32, .h, false, []⟩,
  ⟨0x050, .ro, 0x0#32, 0x0#32, 0x0#32, .h, true, []⟩,
  ⟨0x054, .ro, 0x0#32, 0x0#32, 0x0#32, .h, false, []⟩,
  ⟨0x058, .ro, 0x0#32, 0x0#32, 0x0#32, .h, true, []⟩,
  ⟨0x05C, .ro, 0x0#32, 0x0#32, 0x0#32, .h, false, []⟩,
  ⟨0x060, .ro, 0x0#32, 0x0#32, 0x0#32, .h, false, []⟩,
  ⟨0x064, .ro, 0x0#32, 0x0#32, 0x0#32, .h, false, []⟩,
  ⟨0x068, .ro, 0x0#32, 0x0#32, 0x0#32, .h, true, []⟩,
  ⟨0x06C, .ro, 0x0#32, 0x0#32, 0x0#32, .h, false, []⟩,
  ⟨0x070, .ro, 0x0#32, 0x0#32, 0x0#32, .h, false, []⟩,
  ⟨0x074, .ro, 0x0#32, 0x0#32, 0x0#32, .h, false, []⟩,
  ⟨0x078, .ro, 0x0#32, 0x0#32, 0x0#32, .h, false, []⟩,
  ⟨0x07C, .ro, 0x0#32, 0x0#32, 0x0#32, .h, false, []⟩,
  ⟨0x080, .ro, 0x0#32, 0x0#32, 0x0#32, .h, false, []⟩,
  ⟨0x084, .ro, 0x0#32, 0x0#32, 0x0#32, .h, false, []⟩,
  ⟨0x088, .ro, 0x0#32, 0x0#32, 0x0#32, .h, false, []⟩,
  ⟨0x08C, .ro, 0x0#32, 0x0#32, 0x0#32, .h, false, []⟩,
  ⟨0x090, .wo, 0x0#32, 0x0#32, 0x0#32, .h, false, []⟩,
  ⟨0x100, .rws, 0x7FF#32, 0x0#32, 0x490#32, .b, false, [⟨8, 3, 1, 4⟩]⟩,
  ⟨0x104, .rws, 0x1FFF1FFF#32, 0x0#32, 0x119400E4#32, .b, false, [⟨16, 13, 80, 4500⟩]⟩,
  ⟨0x108, .rws, 0x7FFF#32, 0x0#32, 0x4000#32, .b, false, [⟨0, 15, 1, 16384⟩]⟩,
  ⟨0x10C, .rws, 0xFFFFFF0F#32, 0x0#32, 0x0#32, .b, false, []⟩,
  ⟨0x110, .rws, 0xFFFFFF#32, 0x0#32, 0x0#32, .b, false, []⟩,
  ⟨0x114, .rws, 0x3FFFF#32, 0x0#32, 0x0#32, .b, false, []⟩,
  ⟨0x118, .rws, 0x3FFFF#32, 0x0#32, 0x3FFF#32, .b, false, []⟩,
  ⟨0x11C, .rws, 0x7F#32, 0x0#32, 0x2#32, .b, false, [⟨0, 7, 2, 64⟩]⟩,
  ⟨0x120, .rws, 0x10FFF#32, 0x0#32, 0x10F00#32, .b, false, []⟩,
  ⟨0x124, .rws, 0xBFFF3FFF#32, 0x0#32, 0x0#32, .b, false, []⟩,
  ⟨0x128, .rws, 0xBFFF3FFF#32, 0x0#32, 0x0#32, .b, false, []⟩,
  ⟨0x12C, .rws, 0xFFFFF#32, 0x0#32, 0x103E8#32, .b, false, [⟨0, 16, 10, 65535⟩]⟩,
  ⟨0x130, .rws, 0xFF01#32, 0x0#32, 0x100#32, .b, false, [⟨8, 8, 1, 255⟩]⟩]

/-- Registers of the win page (part 0). -/
def regRows_win0 : List RegDef := [
  ⟨0x040, .rw, 0x7#32, 0x0#32, 0x7#32, .h, false, []⟩,
  ⟨0x044, .ro, 0x0#32, 0x0#32, 0x0#32, .h, false, []⟩,
  ⟨0x048, .rw, 0xF#32, 0x0#32, 0x5#32, .h, false, [⟨0, 4, 1, 15⟩]⟩,
  ⟨0x04C, .rw, 0xFFFF#32, 0x0#32, 0x2000#32, .h, false, [⟨0, 16, 1024, 65535⟩]⟩,
  ⟨0x050, .rw, 0xFF3FFF#32, 0x0#32, 0x400C19#32, .h, false, [⟨8, 6, 1, 63⟩, ⟨16, 8, 1, 255⟩]⟩,
  ⟨0x054, .rw, 0xFFF0FFF#32, 0x0#32, 0x1000020#32, .h, false, [⟨16, 12, 16, 4095⟩]⟩,
  ⟨0x058, .rw, 0xFFFF#32, 0x0#32, 0x7D0#32, .h, false, [⟨0, 16, 100, 65535⟩]⟩,
  ⟨0x05C, .rw, 0xF#32, 0x0#32, 0x0#32, .h, false, []⟩,
  ⟨0x060, .rw, 0xFFFFFF00#32, 0x0#32, 0x50371E00#32, .h, false, []⟩,
  ⟨0x064, .rw, 0xFFFFFF#32, 0x0#32, 0x9B8269#32, .h, false, []⟩,
  ⟨0x068, .rw, 0xFFFFFF#32, 0x0#32, 0x41404#32, .h, false, []⟩,
  ⟨0x06C, .rw, 0xFFFFFF#32, 0x0#32, 0x14A014#32, .h, false, []⟩,
  ⟨0x070, .rw, 0xFFFFFF#32, 0x0#32, 0x41404#32, .h, false, []⟩,
  ⟨0x074, .rw, 0x3FFFFFF#32, 0x0#32, 0x80#32, .h, false, [⟨24, 2, 0, 2⟩]⟩,
  ⟨0x080, .ro, 0x0#32, 0x0#32, 0x0#32, .h, false, []⟩,
  ⟨0x084, .ro, 0x0#32, 0x0#32, 0x0#32, .h, false, []⟩,
  ⟨0x088, .ro, 0x0#32, 0x0#32, 0x0#32, .h, false, []⟩,
  ⟨0x08C, .ro, 0x0#32, 0x0#32, 0x0#32, .h, false, []⟩,
  ⟨0x090, .ro, 0x0#32, 0x0#32, 0x0#32, .h, false, []⟩,
  ⟨0x094, .ro, 0x0#32, 0x0#32, 0x0#32, .h, false, []⟩,
  ⟨0x098, .wo, 0x0#32, 0x0#32, 0x0#32, .h, false, []⟩]

/-- Registers of the gln page (part 0). -/
def regRows_gln0 : List RegDef := [
  ⟨0x040, .rw, 0xF#32, 0x0#32, 0xE#32, .h, false, [⟨0, 4, 8, 15⟩]⟩,
  ⟨0x044, .rw, 0xFFFFFFFF#32, 0x0#32, 0xF06961E#32, .h, false, []⟩,
  ⟨0x048, .rw, 0xFFFFFF#32, 0x0#32, 0x7D0#32, .h, false, []⟩,
  ⟨0x04C, .rw, 0xF#32, 0x0#32, 0x0#32, .h, false, []⟩,
  ⟨0x050, .ro, 0x0#32, 0x0#32, 0x0#32, .h, false, []⟩,
  ⟨0x054, .ro, 0x0#32, 0x0#32, 0x0#32, .h, false, []⟩,
  ⟨0x058, .ro, 0x0#32, 0x0#32, 0x0#32, .h, false, []⟩,
  ⟨0x05C, .ro, 0x0#32, 0x0#32, 0x0#32, .h, false, []⟩,
  ⟨0x060, .wo, 0x0#32, 0x0#32, 0x0#32, .h, false, []⟩]

/-- Registers of the cal page (part 0). -/
def regRows_cal0 : List RegDef := [
  ⟨0x040, .rws, 0xFFFFFFFF#32, 0x0#32, 0x80002000#32, .h, false, []⟩,
  ⟨0x044, .rws, 0x3FF#32, 0x0#32, 0x1E#32, .h, false, [⟨0, 10, 1, 1000⟩]⟩,
  ⟨0x048, .rws, 0xFFFF#32, 0x0#32, 0xCCD#32, .h, false, []⟩,
  ⟨0x04C, .rws, 0x3FF#32, 0x0#32, 0x32#32, .h, false, [⟨0, 10, 1, 1000⟩]⟩,
  ⟨0x050, .rws, 0xFFFFFFFF#32, 0x0#32, 0xF4240#32, .h, false, []⟩,
  ⟨0x054, .rws, 0x3FF03FF#32, 0x0#32, 0x320014#32, .h, false, []⟩,
  ⟨0x058, .rws, 0xFFFFFF#32, 0x0#32, 0x2980#32, .h, false, [⟨0, 8, 1, 255⟩]⟩,
  ⟨0x05C, .rw, 0xF#32, 0x0#32, 0x0#32, .h, false, []⟩,
  ⟨0x060, .rws, 0xFFFF#32, 0x0#32, 0x4000#32, .h, false, []⟩,
  ⟨0x064, .ro, 0x0#32, 0x0#32, 0x1#32, .h, false, []⟩,
  ⟨0x068, .ro, 0x0#32, 0x0#32, 0x0#32, .h, false, []⟩,
  ⟨0x06C, .ro, 0x0#32, 0x0#32, 0x0#32, .h, false, []⟩,
  ⟨0x070, .ro, 0x0#32, 0x0#32, 0xFFFFFFFF#32, .h, false, []⟩,
  ⟨0x074, .rw, 0xF#32, 0x0#32, 0x0#32, .h, false, []⟩,
  ⟨0x078, .ro, 0x0#32, 0x0#32, 0x0#32, .h, false, []⟩,
  ⟨0x07C, .ro, 0x0#32, 0x0#32, 0x0#32, .h, false, []⟩,
  ⟨0x080, .ro, 0x0#32, 0x0#32, 0x0#32, .h, false, []⟩,
  ⟨0x084, .wo, 0x0#32, 0x0#32, 0x0#32, .h, false, []⟩]

/-- Registers of the trm page (part 0). -/
def regRows_trm0 : List RegDef := [
  ⟨0x040, .rw, 0xFF3F#32, 0x0#32, 0x400C#32, .h, false, [⟨0, 2, 0, 2⟩]⟩,
  ⟨0x044, .ro, 0x0#32, 0x0#32, 0x0#32, .h, false, []⟩,
  ⟨0x048, .ro, 0x0#32, 0x0#32, 0x0#32, .h, false, []⟩,
  ⟨0x04C, .ro, 0x0#32, 0x0#32, 0x0#32, .h, false, []⟩,
  ⟨0x050, .rw, 0xFFFF#32, 0x0#32, 0x0#32, .h, false, []⟩,
  ⟨0x054, .rw, 0xFFFF#32, 0x0#32, 0x0#32, .h, false, []⟩,
  ⟨0x058, .rw, 0xFFFFFFFF#32, 0x0#32, 0x0#32, .h, false, []⟩,
  ⟨0x05C, .ro, 0x0#32, 0x0#32, 0x0#32, .h, false, []⟩,
  ⟨0x060, .rw, 0xF#32, 0x0#32, 0x0#32, .h, false, []⟩,
  ⟨0x064, .ro, 0x0#32, 0x0#32, 0x0#32, .h, false, []⟩,
  ⟨0x068, .ro, 0x0#32, 0x0#32, 0x80008000#32, .h, false, []⟩,
  ⟨0x06C, .ro, 0x0#32, 0x0#32, 0x0#32, .h, false, []⟩,
  ⟨0x070, .ro, 0x0#32, 0x0#32, 0x0#32, .h, false, []⟩,
  ⟨0x074, .ro, 0x0#32, 0x0#32, 0x0#32, .h, false, []⟩,
  ⟨0x078, .ro, 0x0#32, 0x0#32, 0x0#32, .h, false, []⟩,
  ⟨0x07C, .ro, 0x0#32, 0x0#32, 0x0#32, .h, false, []⟩,
  ⟨0x080, .ro, 0x0#32, 0x0#32, 0x0#32, .h, false, []⟩,
  ⟨0x084, .ro, 0x0#32, 0x0#32, 0x0#32, .h, false, []⟩,
  ⟨0x088, .wo, 0x0#32, 0x0#32, 0x0#32, .h, false, []⟩]

/-- The registers of a page kind. -/
def regRows : PageKind → List RegDef
  | .glb => regRows_glb0
  | .clk => regRows_clk0
  | .pwr => regRows_pwr0
  | .thm => regRows_thm0
  | .fan => regRows_fan0
  | .tim => regRows_tim0
  | .stk => regRows_stk0
  | .crk => regRows_crk0
  | .sag => regRows_sag0
  | .tly => regRows_tly0
  | .hif => regRows_hif0
  | .mem => regRows_mem0
  | .thr => regRows_thr0
  | .mil => regRows_mil0
  | .glz => regRows_glz0
  | .tilC => regRows_tilC0
  | .tilE => regRows_tilE0
  | .klnC => regRows_klnC0 ++ regRows_klnC1 ++ regRows_klnC2
  | .klnP => regRows_klnP0 ++ regRows_klnP1
  | .hlk => regRows_hlk0
  | .pifC => regRows_pifC0
  | .pifCh => regRows_pifCh0
  | .motC => regRows_motC0
  | .motA => regRows_motA0 ++ regRows_motA1
  | .iplC => regRows_iplC0
  | .iplP => regRows_iplP0
  | .win => regRows_win0
  | .gln => regRows_gln0
  | .cal => regRows_cal0
  | .trm => regRows_trm0

end Sys2Proof.Machine
end

