-- ==== Sys2Proof/Machine/Ops.lean ====
section
/-! DEFINITION. The named operations over tables, bytes, registers, pages, interrupts, rings, events, alarms and
completions that every family of commands shares. -/

namespace Sys2Proof.Machine
open Sys2Proof

/-! ## Tables -/

/-- The entry of a table at a key. -/
def tfind {α : Type} : Tab α → Nat → Option α
  | [], _ => none
  | (k', v) :: r, k => if k' = k then some v else tfind r k

/-- The entry of a table, or a default. -/
def tget {α : Type} (t : Tab α) (d : α) (k : Nat) : α := (tfind t k).getD d

/-- Write an entry, keeping a sorted table sorted. -/
def tput {α : Type} : Tab α → Nat → α → Tab α
  | [], k, v => [(k, v)]
  | (k', v') :: r, k, v =>
    if k < k' then (k, v) :: (k', v') :: r else if k = k' then (k, v) :: r else (k', v') :: tput r k v

/-- Remove every entry of a key. -/
def tdel {α : Type} : Tab α → Nat → Tab α
  | [], _ => []
  | (k', v') :: r, k => if k' = k then tdel r k else (k', v') :: tdel r k

/-- Keep the entries whose key passes a test. -/
def tfilter {α : Type} (t : Tab α) (p : Nat → Bool) : Tab α := t.filter fun e => p e.1

/-- The entries of one table written over another. -/
def tmerge {α : Type} (new old : Tab α) : Tab α := new.foldr (fun e t => tput t e.1 e.2) old

/-! ## Bytes -/

/-- `n` little-endian bytes of a value (R504, R115). -/
def le : Nat → Nat → List Byte
  | 0, _ => []
  | n + 1, v => BitVec.ofNat 8 v :: le n (v / 256)

/-- The little-endian value of a byte list. -/
def leVal : List Byte → Nat
  | [] => 0
  | b :: r => b.toNat + 256 * leVal r

/-- The little-endian field of `n` bytes at an offset. -/
def leAt (bs : List Byte) (off n : Nat) : Nat := leVal ((bs.drop off).take n)

/-- A two's-complement reading of a value of `n` bits. -/
def signed (n v : Nat) : Int := if v % 2 ^ n < 2 ^ (n - 1) then (v % 2 ^ n : Nat) else ((v % 2 ^ n : Nat) : Int) - 2 ^ n

/-- A two's-complement writing of an integer in `n` bits. -/
def unsigned (n : Nat) (v : Int) : Nat := (v % (2 ^ n : Int)).toNat

/-- Saturate to a signed `n`-bit range. -/
def satS (n : Nat) (v : Int) : Int := max (-(2 ^ (n - 1) : Int)) (min v (2 ^ (n - 1) - 1))

/-- Bits [hi:lo] of a natural number. -/
def bits (hi lo v : Nat) : Nat := v / 2 ^ lo % 2 ^ (hi - lo + 1)

/-- The positions of the set bits of a mask of n bits. -/
def maskBits (n v : Nat) : List Nat := (List.range n).filter fun i => v / 2 ^ i % 2 = 1

/-- Division rounding toward zero. -/
def divZ (a b : Int) : Int := Int.tdiv a b

/-- Division rounding toward minus infinity. -/
def divF (a b : Int) : Int := Int.fdiv a b

/-- Every byte of a range is zero (reserved fields, R115, R97). -/
def allZero (bs : List Byte) : Bool := bs.all (· = 0#8)

/-- The bytes from offset `a` up to `b`. -/
def slice (bs : List Byte) (a b : Nat) : List Byte := (bs.drop a).take (b - a)

/-- One byte of CRC-32C, reflected polynomial 0x82F63B78 (spec/00). -/
def crc32cBit : Nat → Nat → Nat
  | 0, c => c
  | n + 1, c => crc32cBit n (if c % 2 = 1 then (c / 2) ^^^ 0x82F63B78 else c / 2)

/-- CRC-32C of a byte list from a running register value. -/
def crc32cFrom : Nat → List Byte → Nat
  | c, [] => c
  | c, b :: r => crc32cFrom (crc32cBit 8 (c ^^^ b.toNat)) r

/-- CRC-32C: initial value and final exclusive-or all ones. -/
def crc32c (bs : List Byte) : Word := BitVec.ofNat 32 (crc32cFrom 0xFFFFFFFF bs ^^^ 0xFFFFFFFF)

/-- One byte of a most-significant-first CRC of `w` bits. -/
def crcMsbBit (w poly : Nat) : Nat → Nat → Nat
  | 0, c => c
  | n + 1, c => crcMsbBit w poly n ((if c / 2 ^ (w - 1) = 1 then (2 * c) ^^^ poly else 2 * c) % 2 ^ w)

/-- A most-significant-first CRC over bytes. -/
def crcMsb (w poly : Nat) : Nat → List Byte → Nat
  | c, [] => c
  | c, b :: r => crcMsb w poly (crcMsbBit w poly 8 (c ^^^ (b.toNat * 2 ^ (w - 8)))) r

/-! ## Addressed memory: the threshold arrays' Granary bytes (R214) -/

/-- What an address no entry lists reads as: zero, as R535 leaves the arrays. -/
def memUnlisted : Byte := 0#8

/-- The byte at an address. -/
def memRead : List Host.Cell → Nat → Byte
  | [], _ => memUnlisted
  | (a', b) :: r, a => if a' = a then b else memRead r a

/-- Write a byte, keeping the canonical form: addresses strictly rising, nothing listed that reads as unlisted. -/
def memWrite : List Host.Cell → Nat → Byte → List Host.Cell
  | [], a, b => if b = memUnlisted then [] else [(a, b)]
  | (a', b') :: r, a, b =>
    if a < a' then (if b = memUnlisted then (a', b') :: r else (a, b) :: (a', b') :: r)
    else if a = a' then (if b = memUnlisted then r else (a, b) :: r)
    else (a', b') :: memWrite r a b

/-- The listed bytes of a block placed at an address. -/
def memBlock : Nat → List Byte → List Host.Cell
  | _, [] => []
  | a, b :: r => if b = memUnlisted then memBlock (a + 1) r else (a, b) :: memBlock (a + 1) r

/-- Replace the bytes from an address on by a block. -/
def memReplace (m : List Host.Cell) (base : Nat) (bs : List Byte) : List Host.Cell :=
  m.filter (fun c => decide (c.1 < base)) ++ memBlock base bs ++
    m.filter (fun c => decide (base + bs.length ≤ c.1))

/-- The canonical form of a memory from a least address on. -/
def memWfFrom : Nat → List Host.Cell → Bool
  | _, [] => true
  | lo, (a, b) :: r => decide (lo ≤ a) && decide (b ≠ memUnlisted) && memWfFrom (a + 1) r

/-- The canonical form of a memory. -/
def Memory.wf (m : List Host.Cell) : Bool := memWfFrom 0 m

/-! ## Time -/

/-- The 64-bit form of press time: seconds, nanoseconds, two fraction bits (spec/00). -/
def stamp (s : State) : DWord :=
  BitVec.ofNat 64 (s.clock.sec.toNat * 2 ^ 32 + s.clock.ns * 4 + s.clock.frac / 2 ^ 46)

/-- The fire timebase now, in 39.0625 ps units. -/
def now (s : State) : Nat := s.clock.fire.toNat

/-- An output leaves the controller. -/
def emit (o : Out) (s : State) : State := { s with out := o :: s.out }

/-! ## The address map (R58) -/

/-- The page kind and instance of a BAR0 page number; none is an unmapped page (R59). -/
def pageOf (n : Nat) : Option (PageKind × Nat) :=
  if n = 0x000 then some (.glb, 0) else if n = 0x001 then some (.clk, 0) else if n = 0x002 then some (.pwr, 0)
  else if n = 0x003 then some (.thm, 0) else if n = 0x004 then some (.fan, 0) else if n = 0x005 then some (.tim, 0)
  else if n = 0x006 then some (.stk, 0) else if n = 0x007 then some (.crk, 0) else if n = 0x008 then some (.sag, 0)
  else if n = 0x009 then some (.tly, 0) else if n = 0x010 then some (.hif, 0) else if n = 0x011 then some (.mem, 0)
  else if n = 0x020 then some (.thr, 0) else if n = 0x021 then some (.mil, 0) else if n = 0x022 then some (.glz, 0)
  else if n = 0x030 then some (.tilC, 0) else if n = 0x0C0 then some (.klnC, 0) else if n = 0x111 then some (.pifC, 0)
  else if n = 0x120 then some (.motC, 0) else if n = 0x130 then some (.iplC, 0) else if n = 0x140 then some (.win, 0)
  else if n = 0x141 then some (.gln, 0) else if n = 0x142 then some (.cal, 0) else if n = 0x150 then some (.trm, 0)
  else if 0x040 ≤ n ∧ n < 0x0C0 then some (.tilE, n - 0x040)
  else if 0x0C1 ≤ n ∧ n < 0x0D1 then some (.klnP, n - 0x0C1)
  else if 0x0D1 ≤ n ∧ n < 0x111 then some (.hlk, n - 0x0D1)
  else if 0x112 ≤ n ∧ n < 0x116 then some (.pifCh, n - 0x112)
  else if 0x121 ≤ n ∧ n < 0x129 then some (.motA, n - 0x121)
  else if 0x131 ≤ n ∧ n < 0x135 then some (.iplP, n - 0x131)
  else none

/-- The block ID of a page kind (R58). -/
def blockId : PageKind → Nat
  | .glb => 0x01 | .clk => 0x02 | .pwr => 0x03 | .thm => 0x04 | .fan => 0x05 | .tim => 0x06 | .stk => 0x07
  | .crk => 0x08 | .sag => 0x09 | .tly => 0x0A | .hif => 0x10 | .mem => 0x11 | .thr => 0x20 | .mil => 0x21
  | .glz => 0x22 | .tilC => 0x30 | .tilE => 0x30 | .klnC => 0x40 | .klnP => 0x40 | .hlk => 0x41 | .pifC => 0x50
  | .pifCh => 0x50 | .motC => 0x51 | .motA => 0x51 | .iplC => 0x60 | .iplP => 0x60 | .win => 0x61 | .gln => 0x62
  | .cal => 0x63 | .trm => 0x70

/-- PG_CAP.SRST by page kind (R38). -/
def hasSrst : PageKind → Bool
  | .glb | .clk | .pwr | .thm | .tim | .crk | .sag | .hif | .mem => false
  | _ => true

/-- PG_SHADOW.SRC by page kind (R47): 0 none, 1 a plane's frame latch, 2 the bar latch, 3 the inspection boundary. -/
def latchSrc : PageKind → Nat
  | .klnP | .tilE | .hlk => 1
  | .tilC | .klnC | .cal => 2
  | .iplP => 3
  | _ => 0

/-- The page number of a page kind's instance, the instance modulo the number there are. -/
def pgGlb : Nat := 0x000
def pgClk : Nat := 0x001
def pgPwr : Nat := 0x002
def pgThm : Nat := 0x003
def pgFan : Nat := 0x004
def pgTim : Nat := 0x005
def pgStk : Nat := 0x006
def pgCrk : Nat := 0x007
def pgSag : Nat := 0x008
def pgTly : Nat := 0x009
def pgHif : Nat := 0x010
def pgThr : Nat := 0x020
def pgMil : Nat := 0x021
def pgGlz : Nat := 0x022
def pgTilC : Nat := 0x030
def pgTilE (e : Nat) : Nat := 0x040 + e % 128
def pgKlnC : Nat := 0x0C0
def pgKlnP (p : Nat) : Nat := 0x0C1 + p % 16
def pgHlk (h : Nat) : Nat := 0x0D1 + h % 64
def pgPifC : Nat := 0x111
def pgPif (c : Nat) : Nat := 0x112 + c % 4
def pgMotC : Nat := 0x120
def pgMot (a : Nat) : Nat := 0x121 + a % 8
def pgIplC : Nat := 0x130
def pgIpl (k : Nat) : Nat := 0x131 + k % 4
def pgWin : Nat := 0x140
def pgGln : Nat := 0x141
def pgCal : Nat := 0x142
def pgTrm : Nat := 0x150

/-! ## The register file -/

/-- The key of entry `i` behind a window register (an index shown through a select register). -/
def wkey (addr i : Nat) : Nat := addr + i * 0x1000000

/-- The BAR0 address of a key. -/
def keyAddr (k : Nat) : Nat := k % 0x1000000

/-- The row of a register table at an address. -/
def regDef (addr : Nat) : Option RegDef :=
  match pageOf (addr / 0x1000) with
  | none => none
  | some (k, _) => (regRows k).find? fun r => r.off = addr % 0x1000

/-- The reset value of a key (R36: a reserved offset reads zero). -/
def resetWord (k : Nat) : Word :=
  match regDef (keyAddr k) with
  | some r => r.reset
  | none => 0#32

/-- The active value of a register. -/
def rd (s : State) (k : Nat) : Word :=
  match tfind s.regs.act k with
  | some v => v
  | none => resetWord k

/-- The active value as a number. -/
def rn (s : State) (k : Nat) : Nat := (rd s k).toNat

/-- The shadow value of an RWS register; equal to the active one when not written since the last latch (R49). -/
def rdShadow (s : State) (k : Nat) : Word :=
  match tfind s.regs.shd k with
  | some v => v
  | none => rd s k

/-- Write the active value. -/
def wr (k : Nat) (v : Word) (s : State) : State :=
  { s with regs := { s.regs with act := tput s.regs.act k v } }

/-- Write the active value from a number. -/
def wn (k v : Nat) (s : State) : State := wr k (BitVec.ofNat 32 v) s

/-- Write a shadow value. -/
def wrShadow (k : Nat) (v : Word) (s : State) : State :=
  { s with regs := { s.regs with shd := tput s.regs.shd k v } }

/-- Add to a 32-bit counter, saturating at 0xFFFF_FFFF. -/
def inc (k n : Nat) (s : State) : State := wn k (min 0xFFFFFFFF (rn s k + n)) s

/-- The 64-bit value of a register pair. -/
def rn64 (s : State) (k : Nat) : Nat := rn s k + 2 ^ 32 * rn s (k + 4)

/-- Write a 64-bit register pair. -/
def wn64 (k v : Nat) (s : State) : State := wn (k + 4) (v / 2 ^ 32) (wn k v s)

/-- Add to a 64-bit counter. -/
def inc64 (k n : Nat) (s : State) : State := wn64 k (rn64 s k + n) s

/-- Bit `n` of a register. -/
def rbit (s : State) (k n : Nat) : Bool := rn s k / 2 ^ n % 2 = 1

/-- Field [hi:lo] of a register. -/
def rf (s : State) (k hi lo : Nat) : Nat := bits hi lo (rn s k)

/-- Replace field [hi:lo] of a register. -/
def wf (k hi lo v : Nat) (s : State) : State :=
  wn k (rn s k - rf s k hi lo * 2 ^ lo + v % 2 ^ (hi - lo + 1) * 2 ^ lo) s

/-! ## Pages -/

/-- A page header at its reset values. -/
def Page.init (k : PageKind) : Page :=
  { en := !hasSrst k, cga := true, irqRaw := 0, irqEn := 0, errCode := 0, errCount := 0, pending := false,
    deferred := false, hold := false, view := false, cmdHold := false, latchCnt := 0,
    owner := if k = .sag then 0 else 3, denyCnt := 0, inReset := false, cyc := 0, was := ⟨false, false, false, []⟩,
    wrote := false }

/-- The kind of a page number; an unmapped page reads as GLB where its kind is asked for. -/
def pageKind (n : Nat) : PageKind :=
  match pageOf n with
  | some (k, _) => k
  | none => .glb

def getPage (s : State) (n : Nat) : Page := tget s.pages (Page.init (pageKind n)) n

def putPage (n : Nat) (p : Page) (s : State) : State := { s with pages := tput s.pages n p }

def updPage (n : Nat) (f : Page → Page) (s : State) : State := putPage n (f (getPage s n)) s

/-! ## Interrupts (R39, R81, R82) -/

/-- HIF may put requests on the link: Bus Master Enable is 1 and the function is in D0 (R65). -/
def canIssue (s : State) : Bool := s.hif.cfg.busMaster && !s.hif.cfg.d3hot

/-- Send a message for a vector, or keep it pending while the vector is masked (R82) or no request may be issued
(R65). -/
def msixSend (v : Nat) (s : State) : State :=
  if tget s.hif.masked true v || !canIssue s then
    { s with hif := { s.hif with msixPend := tput s.hif.msixPend v true } }
  else emit (.msix v) s

/-- The vector a page's interrupt is routed to: the entry behind HIF_PGIRQ_VEC (R81). -/
def pageVector (s : State) (n : Nat) : Nat := rn s (wkey Reg.HIF_PGIRQ_VEC n)

/-- A page asserts its interrupt while a raised source is enabled (R39). -/
def pageAsserts (p : Page) : Bool := p.irqRaw &&& p.irqEn ≠ 0#32

/-- Change a page header and send its interrupt message when the change makes it assert. -/
def setPageIrq (n : Nat) (p' : Page) (s : State) : State :=
  if !pageAsserts (getPage s n) && pageAsserts p' then msixSend (pageVector s n) (putPage n p' s)
  else putPage n p' s

/-- The interrupt sources of a page: COMMIT_DONE, COMMIT_DEFERRED and PAGE_ERR, and the bits its block's chapter defines; every other
bit of PG_IRQ_RAW, EN, STAT and SET is reserved (R11, R39). -/
def irqSources : PageKind → Word
  | .glb | .hif | .mem | .pifC | .motC | .iplC => 0x007#32
  | .mil | .gln => 0x017#32
  | .clk | .tilC => 0x037#32
  | .pwr | .thm | .sag | .thr | .glz | .klnC | .motA | .win => 0x077#32
  | .fan | .tim | .stk | .tly | .pifCh | .iplP | .cal => 0x0F7#32
  | .tilE => 0x0C7#32
  | .crk | .klnP | .hlk | .trm => 0x1F7#32

/-- Set raw interrupt bits of a page. -/
def raiseBits (n : Nat) (b : Word) (s : State) : State :=
  setPageIrq n { getPage s n with irqRaw := (getPage s n).irqRaw ||| b } s

/-- Set one raw interrupt bit of a page. -/
def raiseIrq (n bit : Nat) (s : State) : State := raiseBits n (BitVec.ofNat 32 (2 ^ bit)) s

/-- Record a page error: code with the block ID, count saturating at 255, PG_IRQ_RAW bit 2 (R40). -/
def recordErr (n code : Nat) (s : State) : State :=
  raiseIrq n 2 (updPage n (fun p => { p with
    errCode := BitVec.ofNat 16 (blockId (pageKind n) * 256 + code),
    errCount := if p.errCount = 255#8 then p.errCount else p.errCount + 1 }) s)

/-! ## Rings (spec/03) -/

/-- A ring that has not been created. -/
def Ring.init : Ring :=
  { state := .disabled, typ := .command, log2 := 0, base := 0, tenant := 0, wb := 0, pi := 0, ci := 0, paired := 0,
    vector := 0, imodCnt := 1, imodTime := 0, armed := false, sinceArm := 0, timing := false, unsignalled := false,
    wbPending := false, dbIgn := 0, lastErr := 0, fetched := 0, fences := [], drains := [], nextRead := 0, entries := [],
    filter := BitVec.allOnes 256, gap := ⟨0, 0, 0, 0, 0⟩, destroying := false }

def ring (s : State) (n : Nat) : Ring := tget s.hif.rings Ring.init n

def putRing (n : Nat) (r : Ring) (s : State) : State :=
  { s with hif := { s.hif with rings := tput s.hif.rings n r } }

def updRing (n : Nat) (f : Ring → Ring) (s : State) : State := putRing n (f (ring s n)) s

/-- Indices count modulo 131,072 (R67). -/
def idxMod : Nat := 131072

/-- (a − b) mod 131,072. -/
def idxSub (a b : Nat) : Nat := (a + idxMod - b % idxMod) % idxMod

/-- Entries a ring can hold (R66). -/
def Ring.size (r : Ring) : Nat := 2 ^ (r.log2 + 4)

/-- Entries a ring holds (R67). -/
def Ring.held (r : Ring) : Nat := idxSub r.pi r.ci

/-- Free entries of a ring. -/
def Ring.room (r : Ring) : Nat := r.size - r.held

/-- The ring's signalling condition of R82 holds at its latest entry. -/
def Ring.due (r : Ring) : Bool := r.armed && (decide (r.imodCnt ≤ r.sinceArm) || decide (r.imodTime = 0))

/-- Bytes of an entry Stook writes to a ring of a type; nothing for the rings it does not write (R501). -/
def RingType.stookEntry : RingType → Nat
  | .event => 32 | .receipt => 64 | .trace => 64 | _ => 0

/-- Stook has written bytes to host memory: they count, and take from the bucket down to 65,536 bytes below zero (R502). -/
def stookWrote (n : Nat) (s : State) : State :=
  inc64 Reg.STK_HOST_BYTES n { s with stk := { s.stk with bucket := max (-(65536 * 800)) (s.stk.bucket - n * 800) } }

/-- Write the ring's index back to its writeback address (R68); Stook's own rings take from its bucket (R502). -/
def writeback (n : Nat) (s : State) : State :=
  if (ring s n).wbPending && canIssue s then
    let r := ring s n
    let v := if r.typ = .command ∨ r.typ = .data then r.ci else r.pi
    let s1 := emit (.index n v) (putRing n { r with wbPending := false } s)
    if r.typ.stookEntry = 0 then s1 else stookWrote 4 s1
  else s

/-- Send a ring's interrupt message, after its index writeback, and disarm it (R68, R82). -/
def signalRing (n : Nat) (s : State) : State :=
  let s1 := writeback n s
  msixSend (ring s1 n).vector
    (updRing n (fun r => { r with armed := false, sinceArm := 0, unsignalled := false, timing := false }) s1)

/-- The controller may write `k` more entries to a ring. -/
def canPost (s : State) (n k : Nat) : Bool :=
  (ring s n).state = .active ∧ k ≤ (ring s n).room ∧ canIssue s

/-- Write entries to a controller-produced ring, move PI and moderate the interrupt (R67, R68, R82). -/
def postRecords (n : Nat) (rs : List Record) (s : State) : State :=
  let s1 := updRing n (fun r => { r with
    entries := r.entries ++ rs, pi := (r.pi + rs.length) % idxMod, wbPending := true,
    sinceArm := if r.armed then r.sinceArm + rs.length else r.sinceArm, unsignalled := true, timing := r.armed }) s
  let z := (ring s1 n).typ.stookEntry
  let s2 := if z = 0 then s1 else stookWrote (z * rs.length) s1
  if (ring s2 n).due then signalRing n s2 else s2

/-! ## Events and alarms (spec/21) -/

/-- The block of an event code. -/
def eventBlock (c : BitVec 16) : Nat := c.toNat / 256

/-- The event ring takes an event: ACTIVE, its mask admits the block, and for a tenant's ring the event names that
tenant (R505). -/
def ringTakes (r : Ring) (e : Event) : Bool :=
  decide (r.state = .active) && decide (r.typ = .event) && r.filter.getLsbD (eventBlock e.code) &&
    (decide (r.tenant = 0) || decide (e.tenant = some r.tenant))

/-- The event rings that take an event, in ring order. -/
def eventRings (s : State) (e : Event) : List Nat :=
  (s.hif.rings.filter fun x => ringTakes x.2 e).map (·.1)

/-- An event is dropped for a ring (R505, R514). -/
def dropEvent (e : Event) (n : Nat) (s : State) : State :=
  raiseIrq pgStk 5 (inc Reg.STK_EVT_DROP_CNT 1 (updRing n (fun r => { r with gap :=
    if r.gap.count = 0 then ⟨1, e.seq, e.time, e.seq, e.time⟩
    else { r.gap with count := if r.gap.count = 0xFFFFFFFF#32 then r.gap.count else r.gap.count + 1,
                      lastSeq := e.seq, lastTime := e.time } }) s))

/-- A block hands Stook an event: it takes the next sequence number and is staged, or is dropped for every ring that
would have received it when the staging queue is full or EV_EN is 0 (R505, R515). -/
def acceptEvent (code : Nat) (alarm commit : Bool) (tenant : Option Nat) (payload : List Byte) (s : State) : State :=
  let e : Event := { code := BitVec.ofNat 16 code, alarm, commit, seq := rd s Reg.STK_EVT_SEQ, time := stamp s, tenant,
                     payload }
  let s1 := wr Reg.STK_EVT_SEQ (e.seq + 1) s
  if rbit s1 Reg.STK_CTRL 0 && decide (s1.stk.staging.length < 512) then
    { s1 with stk := { s1.stk with staging := s1.stk.staging ++ [e] } }
  else (eventRings s1 e).foldl (fun t n => dropEvent e n t) s1

/-- An ordinary event. -/
def event (code : Nat) (tenant : Option Nat) (payload : List Byte) (s : State) : State :=
  acceptEvent code false false tenant payload s

/-- The code of an alarm index (R509). -/
def alarmCode : Nat → Nat
  | 0 => 0x0401 | 1 => 0x0402 | 2 => 0x0501 | 3 => 0x0502 | 4 => 0x0701 | 5 => 0x0801 | 6 => 0x0804 | 7 => 0x0805
  | 8 => 0x0903 | 9 => 0x0906 | 10 => 0x0A01 | 11 => 0x0A03 | 12 => 0x4006 | 13 => 0x4102 | 14 => 0x6303
  | 15 => 0x6304 | 16 => 0x7005 | _ => 0

/-- Raise an alarm: latch or repeat its record and post its event with ALARM set (R507). -/
def raiseAlarm (i : Nat) (tenant : Option Nat) (payload : List Byte) (s : State) : State :=
  let t := stamp s
  let d := payload.take 8
  match tfind s.stk.alarms i with
  | none =>
    let s1 := { s with stk := { s.stk with alarms := tput s.stk.alarms i ⟨1, t, t, d⟩ } }
    acceptEvent (alarmCode i) true false tenant payload (raiseIrq pgStk 4 s1)
  | some r =>
    let c := if r.count = 0xFFFFFFFF#32 then r.count else r.count + 1
    acceptEvent (alarmCode i) true false tenant payload
      { s with stk := { s.stk with alarms := tput s.stk.alarms i ⟨c, r.first, t, d⟩ } }

/-! ## Completions (R118, R125, R70) -/

/-- The completion record of a taken command. -/
def cplRecord (h : Hdr) (status result : Nat) (s : State) : Record :=
  .cpl (BitVec.ofNat 16 status) h.d.tag h.d.ring.val h.ci (stamp s) (BitVec.ofNat 112 result)

/-- Completions of a ring are waiting for room. -/
def heldFor (s : State) (n : Nat) : Bool := s.fw.held.any fun x => x.ring = n

/-- QUIET suppresses the record of a success (spec/03). -/
def suppressed (h : Hdr) (status : Nat) : Bool := h.d.quiet && decide (status < 256)

/-- A completion may take place now: nothing is held for its ring, the ring has room, and where a record or bulk output leaves, HIF may
write it (R65, R70). -/
def mayComplete (h : Hdr) (quiet : Bool) (s : State) : Bool :=
  !heldFor s h.paired && if quiet then decide (0 < (ring s h.paired).room) else canPost s h.paired 1

/-- Bulk output is written to host memory (R117). -/
def hostWrites (ws : List (Nat × List Byte)) (s : State) : State := ws.foldl (fun t w => emit (.hostWrite w.1 w.2) t) s

/-- A taken command leaves the table of commands not completed. -/
def unpark (h : Hdr) (s : State) : State :=
  { s with fw := { s.fw with parked := s.fw.parked.filter fun p => p.h.seq ≠ h.seq } }

/-- A completion is kept until its ring takes it. -/
def holdCpl (x : HeldCpl) (s : State) : State := { s with fw := { s.fw with held := s.fw.held ++ [x] } }

/-- A taken command completes with bulk output: it leaves the table, its output is written, then its record to its completion ring; both
wait while that ring takes nothing (R65, R70, R117). -/
def completeWith (ws : List (Nat × List Byte)) (h : Hdr) (status result : Nat) (s : State) : State :=
  let s1 := unpark h s
  let r := cplRecord h status result s1
  if suppressed h status then
    if mayComplete h true s1 && (ws.isEmpty || canIssue s1) then hostWrites ws s1
    else holdCpl ⟨h.paired, none, h.d.ring.val, h.seq, ws⟩ s1
  else if mayComplete h false s1 then postRecords h.paired [r] (hostWrites ws s1)
  else holdCpl ⟨h.paired, some r, h.d.ring.val, h.seq, ws⟩ s1

/-- A taken command completes (R125). -/
def complete (h : Hdr) (status result : Nat) (s : State) : State := completeWith [] h status result s

/-- A command fails: result bytes are zero (R117). -/
def fail (h : Hdr) (status : Nat) (s : State) : State := complete h status 0 s

/-- A command succeeds with a result. -/
def ok (h : Hdr) (result : Nat) (s : State) : State := complete h 0 result s

/-- A value at a result byte (bytes 16 to 29 of the completion record). -/
def res (byte v : Nat) : Nat := v * 256 ^ (byte - 16)

/-- Bulk output to a host buffer, then the completion (R117). -/
def output (h : Hdr) (addr len result : Nat) (bs : List Byte) (s : State) : State :=
  if len < bs.length then complete h 0x0103 (res 16 bs.length) s
  else completeWith [(addr, bs)] h 0 result s

/-! ## Taking a command (R119 to R123) -/

/-- Ring classes (R119). -/
inductive RingClass where
  | s | o | t
  deriving DecidableEq, Repr

/-- A command of this class is admitted on this ring. -/
def classAdmits (c : RingClass) (n tenant : Nat) : Bool :=
  match c with
  | .s => n = 0
  | .o => tenant = 0
  | .t => true

/-- Commands of a ring taken and not completed, their completion record included. -/
def outstanding (s : State) (n : Nat) : Bool :=
  (s.fw.parked.any fun p => p.h.d.ring.val = n) || s.fw.held.any fun x => x.cmdRing = n

/-- Commands executing: taken, and neither accepted nor completed (R122). -/
def executing (s : State) : List Parked := s.fw.parked.filter fun p => !p.accepted

/-- A command ring whose next command may be taken, but for the order: ACTIVE with a fetched descriptor, its completion ring neither full
nor owed a completion (R70), a FENCE of that command satisfied, and fewer than 16 of its commands executing (R122). -/
def ringReady (s : State) (n : Nat) : Bool :=
  decide ((ring s n).state = .active) && decide ((ring s n).typ = .command) && decide (0 < (ring s n).fetched) &&
    decide (0 < (ring s (ring s n).paired).room) && !heldFor s (ring s n).paired &&
    !((ring s n).fences.headD false && outstanding s n) &&
    decide (((executing s).filter fun p => p.h.d.ring.val = n).length < 16)

/-- The rings other than 0 whose turn may come. -/
def othersReady (s : State) : List Nat := ((s.hif.rings.map (·.1)).filter fun n => decide (n ≠ 0) && ringReady s n)

/-- How far a ring stands behind the ring served last in the round-robin, which wraps at 8,191 (R121). -/
def turnsAway (s : State) (n : Nat) : Nat := (n + 8192 - s.fw.lastServed % 8192 + 8191) % 8192

/-- The next taking is from this ring (R121): every second one from ring 0 while it has a command, the others round-robin in ascending
order from the ring served last. -/
def isTurn (s : State) (n : Nat) : Bool :=
  let others := othersReady s
  if ringReady s 0 && (!s.fw.zeroLast || others.isEmpty) then decide (n = 0)
  else decide (n ≠ 0) && others.all fun m => decide (turnsAway s n ≤ turnsAway s m)

/-- Resident firmware may take a command from the ring: ready, the ring's turn, FENCE satisfied, and fewer than 64 commands executing
(R121, R122). -/
def takeable (d : Desc) (s : State) : Bool :=
  let n := d.ring.val
  s.fw.ready && ringReady s n && isTurn s n && !(d.fence && outstanding s n) && decide ((executing s).length < 64)

/-- The ring's CI passes the command's entry and the writeback becomes due (R69). -/
def taken (d : Desc) (s : State) : State :=
  let n := d.ring.val
  let s1 := updRing n (fun r => { r with
    ci := (r.ci + 1) % idxMod, fetched := r.fetched - 1, fences := r.fences.drop 1, wbPending := true }) s
  { s1 with fw := { s1.fw with
    nextSeq := s1.fw.nextSeq + 1, lastServed := if n = 0 then s1.fw.lastServed else n, zeroLast := decide (n = 0) } }

/-- The header of a command just taken. -/
def hdrOf (d : Desc) (s : State) : Hdr :=
  { d, ci := ((ring s d.ring.val).ci + 1) % idxMod, tenant := (ring s d.ring.val).tenant,
    paired := (ring s d.ring.val).paired, seq := s.fw.nextSeq }

/-- Park a taken command. -/
def park (p : Parked) (s : State) : State :=
  { s with fw := { s.fw with parked := (s.fw.parked.filter fun q => q.h.seq ≠ p.h.seq) ++ [p] } }

/-- A taken command with nothing to wait for yet. -/
def Parked.of (s : State) (h : Hdr) (c : Instr) (accepted : Bool) : Parked :=
  { h, cmd := c, accepted, pages := [], slot := 0xFFFFFFFF#32, late := false, waits := [], objs := [], since := now s, undo := none }

end Sys2Proof.Machine
end

