-- ==== Sys2Proof/Machine/Time.lean ====
section
/-! DEFINITION. Free values, the passing of time, and press time (spec/17, R432 to R438; spec/21, R502). -/

namespace Sys2Proof.Machine
open Sys2Proof

/-! ## Free values -/

/-- Draw a free value of `w` bits and go on to the next draw. -/
def draw (w : Nat) (s : State) : BitVec w × State := (Config.freeValue w s.free, { s with free := s.free + 1 })

/-- An integer within bounds, free between them. -/
def drawIn (lo hi : Int) (s : State) : Int × State :=
  let d := draw 64 s
  (if hi ≤ lo then lo else lo + (d.1.toNat : Int) % (hi - lo + 1), d.2)

/-- What a quotient is rounded by: nothing where it is whole, else up or down, which is left free. -/
def roundUp (whole : Bool) (s : State) : Int × State :=
  (if whole then 0 else (drawIn 0 1 s).1, if whole then s else (drawIn 0 1 s).2)

/-! ## Press time -/

/-- 10^9 ns in units of 2^-48 ns. -/
def secUnits : Nat := 1000000000 * 2 ^ 48

/-- Nanoseconds and fraction of press time in units of 2^-48 ns. -/
def Clock.units (c : Clock) : Nat := c.ns * 2 ^ 48 + c.frac

/-- Press time with other nanoseconds and fraction. -/
def Clock.withUnits (c : Clock) (u : Nat) : Clock := { c with ns := u / 2 ^ 48, frac := u % 2 ^ 48 }

/-- What press time gains in one CK_FIRE cycle (R432). -/
def rateUnits (s : State) (slew : Int) : Nat :=
  (320 * 2 ^ 40 + 320 * satS 32 (signed 32 (rn s Reg.TIM_RATE) + slew)).toNat

/-- The staged time replaces press time; the slew ends, VALID sets and TIM_APPLIED posts (R435). -/
def applyStaged (mode : Nat) (s : State) : State :=
  let c := s.clock
  let c1 := { c with sec := rd s Reg.TIM_WR_S, ns := rf s Reg.TIM_WR_NS 29 0, frac := rf s Reg.TIM_WR_FRAC 7 0 * 2 ^ 40,
                     slew := 0, slewLeft := 0, atSec := false, valid := true }
  raiseIrq pgTim 7 (event 0x0604 none (le 1 mode ++ le 4 (rn s Reg.TIM_WR_S)) { s with clock := c1 })

/-- Press time over `n` cycles at one rate: roll-overs add seconds, or apply the staged value at the first one (R432,
R435). -/
def runPress (n : Nat) (slew : Int) (s : State) : State :=
  let d := rateUnits s slew
  let tot := s.clock.units + n * d
  if tot < secUnits then { s with clock := s.clock.withUnits tot }
  else if s.clock.atSec then
    let s1 := applyStaged 1 s
    let tot1 := s1.clock.units + (tot - secUnits) / d * d
    { s1 with clock := { s1.clock.withUnits (tot1 % secUnits) with
        sec := s1.clock.sec + BitVec.ofNat 32 (tot1 / secUnits) } }
  else { s with clock := { s.clock.withUnits (tot % secUnits) with sec := s.clock.sec + BitVec.ofNat 32 (tot / secUnits) } }

/-- The token bucket refills at STK_LIMIT up to 65,536 bytes, in units of 1/800 byte (R502). -/
def refill (n : Nat) (s : State) : State :=
  { s with stk := { s.stk with bucket := min (65536 * 800) (s.stk.bucket + n * rf s Reg.STK_LIMIT 11 0) } }

/-- `n` cycles of CK_FIRE pass: press time under its slew while that lasts (R437), and the bucket. -/
def passCycles (n : Nat) (s : State) : State :=
  let n1 := min n s.clock.slewLeft
  let s1 := if n1 = 0 then s else
    let t := runPress n1 s.clock.slew s
    let left := t.clock.slewLeft - n1
    { t with clock := { t.clock with slewLeft := left, slew := if left = 0 then 0 else t.clock.slew } }
  let s2 := if n - n1 = 0 then s1 else runPress (n - n1) 0 s1
  refill n s2

/-- One CK_FIRE cycle in units of the fire timebase (R273). -/
def fireCycle : Nat := 32

/-- Time moves on to an instant of the fire timebase; an instant already past leaves it. -/
def advanceTo (t : Nat) (s : State) : State :=
  if t ≤ now s then s
  else
    let n := t / fireCycle - now s / fireCycle
    let s1 := passCycles n s
    { s1 with clock := { s1.clock with fire := BitVec.ofNat 64 t, uptime := s1.clock.uptime + (t - now s) } }

/-- Microseconds and milliseconds in fire timebase units. -/
def us : Nat := 25600
def ms : Nat := 25600000

/-- One cycle of CK_FIRE: what a step does when no command waits. -/
def fireTick (s : State) : State := advanceTo (now s + fireCycle) s

end Sys2Proof.Machine
end

