-- ==== Sys2Proof/Machine/Vault.lean ====
section
/-! DEFINITION. Crock's record queue, Sagger's sealed state, receipt chains and batches, and the charge ceiling (spec/18, spec/19,
spec/20). -/

namespace Sys2Proof.Machine
open Sys2Proof

/-- Crock holds no record at all (R449, R485). -/
def noJournal (s : State) : Bool := decide (s.crk.state = .absent ∨ s.crk.state = .noJournal)

/-! ## Records (R488, R490) -/

/-- Payload length L of a record. -/
def CrkBody.len : CrkBody → Nat
  | .regionHead _ => 8
  | .compactDone _ => 4
  | .config es => 8 + 20 * es.length
  | .cal _ _ gs => 8 + 6 * gs.length
  | .tallyCkpt _ ss => 10 + 32 * ss.length
  | .tallyClose _ _ _ => 32
  | .sagger _ _ => 4 + Config.saggerLen.val
  | .snap _ _ _ _ _ => 24
  | .gap _ => 4

/-- The slot a record fills (R488). -/
def CrkBody.slot (b : CrkBody) : Nat := (21 + b.len + 15) / 16 * 16

/-- Bytes of the queue in use (R490). -/
def queueBytes (s : State) : Nat := (s.crk.queue.map fun j => j.body.slot).sum

/-- Bytes of a journal region: half of what the ring leaves of S (R486). -/
def regionBytes (s : State) : Nat :=
  let total := (s.crk.sizes.1 + s.crk.sizes.2) * 16 - 136
  (total - total * 3 / 10) / 2 * 65536

/-- Crock takes records: it is mounted or compacting, and not in its grace window (R485, R489, R498). -/
def crkAccepts (s : State) : Bool := decide (s.crk.state = .mounted ∨ s.crk.state = .compacting) && s.crk.grace.isNone

/-- The place of a record among those submitted in the same cycle (R490); a GAP record is the first of a boot (R496). -/
def CrkBody.rank : CrkBody → Nat
  | .regionHead _ | .compactDone _ | .gap _ => 0
  | .sagger _ _ => 1
  | .tallyCkpt _ _ => 2
  | .tallyClose _ _ _ => 3
  | .config _ => 4
  | .cal _ _ _ => 5
  | .snap _ _ _ _ _ => 6

/-- A record joins the queue, before those of its own cycle that R490 places after it. -/
def joinQueue (j : CrkJob) (q : List CrkJob) : List CrkJob :=
  let after := fun (k : CrkJob) => decide (k.cycle = j.cycle ∧ j.body.rank < k.body.rank)
  (q.filter fun k => !after k) ++ j :: q.filter after

/-- Submit a record; a CONFIG entry removes its nozzle's gain from the calibration buffer (R490, R491). A record submitted
while Crock takes none is refused, and its command is told so (R489). -/
def crkSubmit (b : CrkBody) (cmd batch : Option Nat) (s : State) : State :=
  if crkAccepts s then
    let drop : Tab (Nat × Nat) := match b with
      | .config es => s.crk.cal.filter fun e => !es.any fun x => x.1 = e.1
      | _ => s.crk.cal
    { s with crk := { s.crk with queue := joinQueue ⟨b, now s / 64, cmd, batch⟩ s.crk.queue, cal := drop } }
  else { s with crk := { s.crk with refused := cmd.toList ++ s.crk.refused } }

/-! ## Tally's count (R479, R480) -/

/-- A Tally slot after reset. -/
def TlySlot.init : TlySlot :=
  { state := 0, serial := List.replicate 16 0, cap := 0, usage := 0, devUsage := 0, counter := 0, devKey := [], nonce := 0,
    eph := 0, session := none, fails := 0, exchanges := [] }

def tlySlot (s : State) (i : Nat) : TlySlot := tget s.tly.slots TlySlot.init i

def updTly (i : Nat) (f : TlySlot → TlySlot) (s : State) : State :=
  { s with tly := { s.tly with slots := tput s.tly.slots i (f (tlySlot s i)) } }

/-- TLY_SLOT_CFG.EN. -/
def tlyEn (s : State) (i : Nat) : Bool := rbit s (wkey Reg.TLY_SLOT_CFG i) 9

/-- The head mask of a slot. -/
def tlyHeads (s : State) (i : Nat) : Nat :=
  rn s (wkey Reg.TLY_SLOT_HEADS i) + 2 ^ 32 * rn s (wkey (Reg.TLY_SLOT_HEADS + 4) i)

/-- The enabled slots (R479). -/
def tlyEnabled (s : State) : List Nat := (List.range 16).filter fun i => tlyEn s i

/-- A slot changes state (R482). -/
def setTly (i st : Nat) (s : State) : State :=
  let x := tlySlot s i
  if x.state = st then s
  else raiseIrq pgTly 4 (event 0x0A02 none (le 1 i ++ le 1 x.state ++ le 1 st ++ x.serial)
    (updTly i (fun y => { y with state := st }) s))

/-- Ink of a head enters every enabled slot that names the head; an AUTHENTIC slot is EXHAUSTED at its capacity (R479,
R482). -/
def tallyInk (h v : Nat) (s : State) : State :=
  if !rbit s Reg.TLY_CTRL 0 then s
  else (tlyEnabled s).foldl (fun t i =>
    if tlyHeads t i / 2 ^ h % 2 = 1 then
      let t1 := updTly i (fun y => { y with usage := y.usage + BitVec.ofNat 64 v }) t
      let y := tlySlot t1 i
      if y.state = 3 ∧ y.cap ≤ y.usage then setTly i 5 t1 else t1
    else t) s

/-- A CLOSE record of a slot (R480). -/
def tallyClose (i : Nat) (s : State) : State :=
  crkSubmit (.tallyClose i (tlySlot s i).serial (tlySlot s i).usage.toNat) none none s

/-! ## Life-cycle (R455, R458) -/

/-- The life-cycle state: the highest bit two of whose three copies are blown (R455). -/
def lifecycle (s : State) : Nat :=
  (List.range 5).foldl (fun b i => if 2 ≤ s.sag.fuses.getD i 0 then i + 1 else b) 0

/-- Sagger seals receipts: it has not halted, is not in SCRAP, and its signer is there (R449, R458, R461). -/
def sealsReceipts (s : State) : Bool := !s.sag.halted && !s.sag.signerGone && decide (lifecycle s ≠ 5)

/-- The chip number (R17). -/
def chipNumber (s : State) : Nat := rf s Reg.GLB_STRAP 3 0

/-! ## Tenants -/

/-- A tenant that has never been enabled; tenant 0 is governed by HIF_CTRL.RUN (R91). Tenant 0 never takes TENANT_ENABLE, so no command
sets its limits; it has the default ones of R92, 16 open jobs and 64 queued copies (DESIGN CHOICE: notes/assumptions/70.md). -/
def Tenant.init : Tenant := ⟨.disabled, 16, 64, 0, 0, 0, 0, 0⟩

def tenant (s : State) (t : Nat) : Tenant := tget s.jobs.tenants Tenant.init t

def updTenant (t : Nat) (f : Tenant → Tenant) (s : State) : State :=
  { s with jobs := { s.jobs with tenants := tput s.jobs.tenants t (f (tenant s t)) } }

/-- A tenant Sagger knows nothing of: its first receipt starts a chain (R473). -/
def SagTenant.init : SagTenant :=
  { key := none, digest := none, grantSeq := 0, ceiling := 0, ceilNext := none, head := 0, batch := 0, seq := 0,
    restart := some 0, covered := 0, receipts := [], slots := 0 }

def sagTenant (s : State) (t : Nat) : SagTenant := tget s.sag.tenants SagTenant.init t

def updSag (t : Nat) (f : SagTenant → SagTenant) (s : State) : State :=
  { s with sag := { s.sag with tenants := tput s.sag.tenants t (f (sagTenant s t)) } }

/-! ## Sealed state (R440, R467, R472) -/

/-- The state Sagger seals for a tenant, with the ceiling it is to persist. -/
def sagRecord (s : State) (t : Nat) : SagRec :=
  let x := sagTenant s t
  { lc := lifecycle s, tenant := t, digest := x.digest, grant := (tenant s t).grant, grantSeq := x.grantSeq,
    ceiling := x.ceilNext.getD x.ceiling, head := x.head, batch := x.batch, seq := x.seq, covered := x.covered }

/-- The Crock key of a tenant's sealed state. -/
def sagKey (t : Nat) : Nat := t

/-- Sagger writes a tenant's sealed state through Crock. -/
def persist (t : Nat) (cmd batch : Option Nat) (s : State) : State :=
  crkSubmit (.sagger (sagKey t) (sagRecord s t)) cmd batch s

/-- An accepted QUOTA_GRANT is not finished 1 ms after its acceptance (R126). -/
def grantOverdue (s : State) (p : Parked) : Bool := p.undo.isSome && decide (p.since + ms < now s)

/-- What an undone grant leaves in Crock's queue: its own record goes, the tenant's others carry the state without it. -/
def grantQueue (t cmd n seq prev : Nat) (q : List CrkJob) : List CrkJob :=
  (q.filter fun j => !decide (j.cmd = some cmd)).map fun j => match j.body with
    | .sagger k d => if d.tenant = t then { j with body := .sagger k { d with
        grant := d.grant - BitVec.ofNat 32 n, grantSeq := if d.grantSeq = seq then prev else d.grantSeq } } else j
    | _ => j

/-- An overdue QUOTA_GRANT fails with 0x0502 and leaves no effect: GRANT and the last sequence are as before it, in Sagger and in what is
persisted (R126). -/
def grantUndo (p : Parked) (s : State) : State :=
  match p.cmd, p.undo with
  | .quotaGrant _ ten _, some (n, seq, prev) =>
    let t := ten.toNat
    let s1 := updSag t (fun y => { y with grantSeq := if y.grantSeq = seq then prev else y.grantSeq })
      (updTenant t (fun y => { y with grant := y.grant - BitVec.ofNat 32 n }) s)
    let later := s1.fw.parked.map fun q => match q.cmd, q.undo with
      | .quotaGrant _ u _, some (m, a, b) => if u = ten ∧ b = seq then { q with undo := some (m, a, prev) } else q
      | _, _ => q
    persist t none none (fail p.h 0x0502 { s1 with
      fw := { s1.fw with parked := later }, crk := { s1.crk with queue := grantQueue t p.h.seq n seq prev s1.crk.queue } })
  | _, _ => s

/-- Write a new ceiling without waiting for the write; with no journal it holds at once (R467). -/
def writeCeiling (t : Nat) (c : Word) (s : State) : State :=
  if noJournal s then updSag t (fun x => { x with ceiling := c, ceilNext := none }) s
  else if crkAccepts s then persist t none none (updSag t (fun x => { x with ceilNext := some c }) s)
  else s

/-- CHARGED has reached the ceiling less 16: Sagger writes CHARGED + 64 (R467). Differences are modulo 2^32 (R93). -/
def ceilingCheck (t : Nat) (s : State) : State :=
  let x := sagTenant s t
  let c := (tenant s t).charged
  if x.ceilNext = none ∧ (x.ceiling - c).toInt ≤ 16 then writeCeiling t (c + 64) s else s

/-! ## Receipt slots (R475) -/

/-- Receipt slots taken: by copies from READY to sealing, by open batches, and by batches the host has not received. -/
def slotsTaken (s : State) : Nat :=
  (s.jobs.copies.filter (·.receiptSlot)).length + (s.sag.tenants.map (·.2.slots)).sum + (s.sag.batches.map (·.slots)).sum

/-- A receipt slot is free. -/
def slotFree (s : State) : Bool := decide (slotsTaken s < 4096)

/-! ## Batches (R471 to R473) -/

/-- The header of a tenant's batch. -/
def batchHeader (s : State) (t : Nat) : List Byte :=
  let x := sagTenant s t
  let fresh := x.restart.isSome
  le 4 0x42524753 ++ [1] ++ le 1 (chipNumber s + if fresh then 16 else 0) ++ le 2 t ++
    le 4 (if fresh then 1 else x.batch + 1) ++ le 2 x.receipts.length ++ le 2 0 ++
    (if fresh then List.replicate 48 0 else le 48 x.head.toNat)

/-- A tenant's open batch closes: it is hashed and signed, with a signature no rule fixes the bits of, the chain moves on, and
its sealed state goes to Crock (R471, R472). -/
def closeBatch (t : Nat) (s : State) : State :=
  let x := sagTenant s t
  if x.receipts = [] then s
  else
    let hd := batchHeader s t
    let hash := Config.sha384 (hd ++ x.receipts.flatten)
    let sig := draw 768 s
    let block := le 96 sig.1.toNat ++ List.replicate 32 0
    let n := if x.restart.isSome then 1 else x.batch + 1
    let s1 := updSag t (fun x => { x with head := hash, batch := n, restart := none, receipts := [], slots := 0 }) sig.2
    let b : Batch := { id := s.sag.nextBatch, tenant := t, num := n, entries := hd :: x.receipts ++ [block.take 64, block.drop 64],
                       slots := x.slots, persisted := noJournal s }
    persist t none (some b.id) { s1 with sag := { s1.sag with
      batches := s1.sag.batches ++ [b], nextBatch := s.sag.nextBatch + 1 } }

/-- The ACTIVE receipt ring of a tenant. -/
def receiptRing (s : State) (t : Nat) : Option Nat :=
  (s.hif.rings.find? fun e => decide (e.2.state = .active ∧ e.2.typ = .receipt ∧ e.2.tenant = t)).map (·.1)

/-- The oldest batch of a tenant the host has not received. -/
def oldestBatch (s : State) (t : Nat) : Option Batch := s.sag.batches.find? fun b => decide (b.tenant = t)

/-- A tenant's oldest batch is ready to write: persisted, with room for all its entries on its ring (R70, R472). -/
def batchReady (s : State) (t : Nat) : Option (Batch × Nat) :=
  match oldestBatch s t, receiptRing s t with
  | some b, some n => if (b.persisted || noJournal s) && canPost s n b.entries.length then some (b, n) else none
  | _, _ => none

/-- Some tenant's receipts are ready to write. -/
def receiptsReady (s : State) : Bool := s.sag.batches.any fun b => (batchReady s b.tenant).isSome

/-- A receipt enters its tenant's chain; the 256th of a batch closes it. `body` is the record but for its sequence number
(R469 to R473). -/
def appendReceipt (t : Nat) (slot : Bool) (body : Nat → List Byte) (s : State) : State :=
  let x := sagTenant s t
  let first := x.restart.isSome && decide (x.receipts = [])
  let seq := if first then 1 else x.seq + 1
  let s1 := match x.restart with
    | some c => if first then event 0x0907 (some t) (le 2 t ++ le 1 c) s else s
    | none => s
  let s2 := updSag t (fun x => { x with
    seq := seq, receipts := x.receipts ++ [body seq], slots := x.slots + if slot then 1 else 0 }) s1
  if 256 ≤ (sagTenant s2 t).receipts.length then closeBatch t s2 else s2

/-- The 64 bytes of a receipt record (R469). -/
def receiptRecord (typ chip t job page copy slot mask flags cw cb fw fb : Nat) (t1 t2 : DWord) (defects ports seq : Nat) :
    List Byte :=
  let cap := fun n => le 2 (min 0xFFFF n)
  le 1 (typ + 16) ++ le 1 chip ++ le 2 t ++ le 4 job ++ le 4 page ++ le 4 copy ++ le 4 slot ++ le 2 mask ++ le 2 flags ++
    cap cw ++ cap cb ++ cap fw ++ cap fb ++ le 8 t1.toNat ++ le 8 t2.toNat ++ le 8 seq ++ cap defects ++ le 1 ports ++
    List.replicate 5 0

/-- The GAP receipt of a boot: the copies charged that no PRINT receipt covers (R474). -/
def gapReceipt (t : Nat) (s : State) : State :=
  let x := sagTenant s t
  let d := (tenant s t).charged - x.covered
  if 0 < d.toInt then
    let now := stamp s
    let s1 := appendReceipt t false (receiptRecord 3 (chipNumber s) t 0 0 d.toNat 0xFFFFFFFF 0 0 0 0 0 0 now now 0 0)
      (updSag t (fun x => { x with covered := x.covered + d }) s)
    event 0x0908 (some t) (le 2 t ++ le 4 d.toNat) s1
  else s

end Sys2Proof.Machine
end

