-- ==== Sys2Proof/Machine/Raster.lean ====
section
/-! DEFINITION. Planes, latches and frames: who follows which latch, RWS writes, frame and bar latches, slot decisions,
commits, and the line counter (spec/01, spec/02, spec/10). -/

namespace Sys2Proof.Machine
open Sys2Proof

/-! ## Byte 28 of an entry (R223, R224) -/

/-- Bytes 0 to 27 of an entry. -/
def entryBytes (e : Entry) : List Byte :=
  le 2 e.gain.toNat ++ le 2 e.offset.toNat ++ [e.curve, e.status, e.variant, e.volClass] ++ le 3 e.subA.toNat ++
    le 3 e.subB.toNat ++ le 6 e.fires.toNat ++ le 4 e.last.toNat ++ le 4 e.ink.toNat

/-- CRC-8, polynomial 0x07 (R224). -/
def crc8 (bs : List Byte) : Byte := BitVec.ofNat 8 (crcMsb 8 0x07 0 bs)

/-- Recompute byte 28. -/
def Entry.seal (e : Entry) : Entry := { e with crc := crc8 (entryBytes e) }

/-- Byte 28 agrees (R225). -/
def Entry.good (e : Entry) : Bool := decide (e.crc = crc8 (entryBytes e))

/-! ## Planes and heads -/

/-- A plane after reset: STOPPED at V_ACTIVE + V_FRONT of the reset timing (R246). -/
def Plane.init : Plane :=
  { group := 0, frames := 0, encBad := false, swath := 0, feed := none, tickleAt := 0, state := .stopped, line := 1040, runline := 0, leadIn := 0, referenced := false, x := 0, front := 0, lastB := 0,
    sense := 1, xs := [], slot := none, nextSlot := 0, latchRun := 0, prevLatchRun := 0, prevVis := (0, 0), underNext := false, copy := none, prevCopy := none,
    table := none, pendTable := [], passTable := none, pendPass := [], pass := 0, passes := 1, paused := false,
    pausedAt := 0, spoiled := false, stepsLatch := 0, encLatch := 0, devSeen := false, devMax := 0,
    pausedInFrame := false, crossings := [], aboveRun := 0, belowRun := 0, rateArmed := true, wins := [],
    turnaround := false }

def plane (s : State) (p : Nat) : Plane := tget s.kln.planes Plane.init p

def putPlane (p : Nat) (x : Plane) (s : State) : State :=
  { s with kln := { s.kln with planes := tput s.kln.planes p x } }

def updPlane (p : Nat) (f : Plane → Plane) (s : State) : State := putPlane p (f (plane s p)) s

/-- The numbers of the planes (R16). -/
def planeNums : List Nat := List.range 16

/-- The heads of a plane's table in force. -/
def planeHeads (s : State) (p : Nat) : List HeadDecl :=
  match (plane s p).table with
  | some t => t.head.heads
  | none => []

/-- The plane whose table in force lists a head (R16). -/
def planeOfHead (s : State) (h : Nat) : Option Nat :=
  planeNums.find? fun p => (planeHeads s p).any fun d => d.head = h

/-- A head's declaration in the table in force. -/
def headDecl (s : State) (h : Nat) : Option HeadDecl :=
  match planeOfHead s h with
  | some p => (planeHeads s p).find? fun d => d.head = h
  | none => none

/-- The fitted rows of a head (R13). -/
def fittedRows (s : State) (h : Nat) : List Nat := ((headDecl s h).map (·.rows)).getD []

/-- Fitted positions per row of a head. -/
def fittedPositions (s : State) (h : Nat) : Nat := ((headDecl s h).map (·.positions)).getD 0

/-- A nozzle of a head is fitted (R12, R13). -/
def isFitted (s : State) (h n : Nat) : Bool :=
  decide (n / 1024 ∈ fittedRows s h) && decide (n % 1024 < fittedPositions s h)

/-- Plane width: the largest c0 + W of its spans (R208). -/
def planeWidth (s : State) (p : Nat) : Nat :=
  match (plane s p).table with
  | some t => (t.spans.map fun x => x.c0 + x.groups * x.m).foldl max 0
  | none => 0

/-! ## Camera ports (spec/15) -/

/-- A camera port after reset: OFF. -/
def CamPort.init : CamPort :=
  { state := .off, cause := 0, quiet := 0, waiting := [], items := [], prev := none, lastT := 0, image := 0, frame := none,
    fresh := true, whole := false, missed := 0, carry := 0, skipTold := false, prevReg := none, fsOpen := false, knots := [],
    pendKnots := none, table := [], pendTable := none, agree := false, capture := none, configured := false }

def cam (s : State) (k : Nat) : CamPort := tget s.ipl.ports CamPort.init k

def updCam (k : Nat) (f : CamPort → CamPort) (s : State) : State :=
  { s with ipl := { s.ipl with ports := tput s.ipl.ports k (f (cam s k)) } }

/-- The camera ports. -/
def camNums : List Nat := List.range 4

/-- The plane a port follows: the active IPL_C_FRAME.PLANE. -/
def camPlane (s : State) (k : Nat) : Nat := rf s (Reg.IPL_C_FRAME k) 3 0

/-- A port runs: it is not OFF. -/
def camRunning (s : State) (k : Nat) : Bool := decide ((cam s k).state ≠ .off)

/-- The page columns of a port, first and last. -/
def camCols (s : State) (k : Nat) : Nat × Nat := (rf s (Reg.IPL_C_COL0 k) 17 0, rf s (Reg.IPL_C_COL1 k) 17 0)

/-! ## Raster timing in force (R243) -/

def vActive (s : State) (p : Nat) : Nat := rn s (Reg.KLN_P_VACT p)
def vFront (s : State) (p : Nat) : Nat := rf s (Reg.KLN_P_VBLANK p) 7 0
def vSync (s : State) (p : Nat) : Nat := rf s (Reg.KLN_P_VBLANK p) 15 8
def vBack (s : State) (p : Nat) : Nat := rf s (Reg.KLN_P_VBLANK p) 31 16
def vTotal (s : State) (p : Nat) : Nat := vActive s p + vFront s p + vSync s p + vBack s p

/-- The counter value of the frame latch (R21). -/
def latchLine (s : State) (p : Nat) : Nat := vActive s p + vFront s p

/-- A plane's line counter: with no frame open, STOPPED or in LEAD_IN, it holds V_ACTIVE + V_FRONT of the timing in force (R245, R246). -/
def planeLine (s : State) (p : Nat) : Nat := if (plane s p).slot = none then latchLine s p else (plane s p).line

/-- The plane counts lines: LEAD_IN, RUNNING or STOPPING. -/
def Plane.live (x : Plane) : Bool := decide (x.state ≠ .stopped)

/-- A plane's clone source, when it is a clone (R268). -/
def cloneSrc (s : State) (p : Nat) : Option Nat :=
  if rbit s (Reg.KLN_P_CTRL p) 1 then some (rf s (Reg.KLN_P_CTRL p) 7 4) else none

/-- The planes of a mask and the clones of those planes, as clones are set up now (R268). -/
def printingPlanes (s : State) (mask : BitVec 16) : List Nat :=
  planeNums.filter fun p => mask.getLsbD p ||
    (match cloneSrc s p with | some q => mask.getLsbD q | none => false)

/-- The printing planes of a copy: those of the latch that decided its slot, and before it those its mask gives now (R268). -/
def copyPlanes (s : State) (x : Copy) : List Nat := x.planes.getD (printingPlanes s x.mask)

/-! ## Who follows which latch (R47, R48) -/

/-- The plane whose frame latch a page follows; none for a page of another source or of a head in no plane. -/
def pagePlane (s : State) (n : Nat) : Option Nat :=
  match pageOf n with
  | some (.klnP, p) => some p
  | some (.tilE, e) => planeOfHead s (e / 2)
  | some (.hlk, h) => planeOfHead s h
  | _ => none

/-- The latch source of a page number (R47). -/
def pageSrc (n : Nat) : Nat :=
  match pageOf n with
  | some (k, _) => latchSrc k
  | none => 0

/-- A page's latch source lets writes apply at once: its plane is STOPPED, its head is in no plane (R48), every plane is
STOPPED for the bar latch, or the camera port is not running (R24, R375). -/
def pageIdle (s : State) (n : Nat) : Bool :=
  match pageSrc n with
  | 1 => match pagePlane s n with
    | some p => decide ((plane s p).state = .stopped)
    | none => true
  | 2 => planeNums.all fun p => !(plane s p).live
  | 3 => match pageOf n with
    | some (_, k) => !camRunning s k || decide ((plane s (camPlane s k)).state = .stopped)
    | none => true
  | _ => true

/-- KLN_P_APPLY_CTRL.ARM of the plane a page follows holds it (R251). -/
def pageArmed (s : State) (n : Nat) : Bool :=
  match pagePlane s n with
  | some p => rbit s (Reg.KLN_P_APPLY_CTRL p) 0
  | none => false

/-! ## Applying a page's shadow (R49, R55) -/

/-- No slot: an idle latch (R127). -/
def noSlot : Nat := 0xFFFFFFFF

/-- The CK_FAB cycle under way: 64 units of the fire timebase. -/
def fabCycle (s : State) : Nat := now s / 64

/-- A change written in a cycle applies at a latch now: one written in the latch's own cycle waits for the next (R23); an idle latch takes
everything. -/
def ripe (s : State) (slot cycle : Nat) : Bool := decide (slot = noSlot) || decide (cycle ≠ fabCycle s)

/-- A latch of a page has applied: the parked commands that wait for it note the slot, but for those of this very cycle. -/
def noteLatch (n slot : Nat) (s : State) : State :=
  let note := fun (q : Parked) =>
    if q.pages.contains n && ripe s slot (q.since / 64) then
      { q with pages := q.pages.filter (· ≠ n), slot := BitVec.ofNat 32 slot }
    else q
  { s with fw := { s.fw with parked := s.fw.parked.map note } }

/-- The head whose split a page holds: that of an even engine page (R200). -/
def splitPage (n : Nat) : Option Nat :=
  match pageOf n with
  | some (.tilE, e) => if e % 2 = 0 then some (e / 2) else none
  | _ => none

/-- TIL_SPLIT_MOVED once a latch has changed a head's split (R200, R202). -/
def splitMoved (n : Nat) (before s : State) : State :=
  match splitPage n with
  | some h =>
    let a := rf before (Reg.TIL_E_SPLIT (2 * h)) 11 0
    let b := rf s (Reg.TIL_E_SPLIT (2 * h)) 11 0
    if a = b then s
    else raiseIrq pgTilC 5 (event 0x3002 none
        (le 1 h ++ le 4 a ++ le 4 b ++ le 1 (if before.til.autoHeads.contains h then 2 else 0))
      { (inc Reg.TIL_SPLIT_CNT 1 s) with til := { s.til with autoHeads := s.til.autoHeads.filter (· ≠ h) } })
  | none => s

/-- The knots and shading table of a camera port apply with its registers, and the CAMERA_CONFIG commands that waited for it complete
(R375, R379). -/
def camApplied (n : Nat) (s : State) : State :=
  match pageOf n with
  | some (.iplP, k) =>
    let s1 := updCam k (fun g => { g with
      knots := g.pendKnots.getD g.knots, table := g.pendTable.getD g.table, pendKnots := none, pendTable := none }) s
    let due := s1.fw.parked.filter fun q => q.accepted && q.pages.isEmpty &&
      (match q.cmd with | .cameraConfig .. => true | _ => false)
    due.foldl (fun t q => complete q.h 0 0 t) s1
  | _ => s

/-- A key lies on a page. -/
def onPage (n k : Nat) : Bool := decide (keyAddr k / 0x1000 = n)

/-- A page is about to be touched: how it stands is kept for a latch in the same cycle (R23, R50). -/
def notePage (n : Nat) (s : State) : State :=
  let p := getPage s n
  if p.cyc = fabCycle s + 1 then s
  else putPage n { p with
    cyc := fabCycle s + 1, was := ⟨p.pending, p.hold, p.cmdHold, tfilter s.regs.shd (onPage n)⟩, wrote := false } s

/-- The page has been touched in the present cycle. -/
def touched (s : State) (n : Nat) : Bool := decide ((getPage s n).cyc = fabCycle s + 1)

/-- What a latch in this cycle would see of a page (R50): its state before the cycle. -/
def pageAsOf (s : State) (n : Nat) : PageWas :=
  let p := getPage s n
  if touched s n then p.was else ⟨p.pending, p.hold, p.cmdHold, tfilter s.regs.shd (onPage n)⟩

/-- HOLD or CMD_HOLD of a page keeps what waits for its latch (R52, R55, R127). -/
def heldAt (s : State) (n slot : Nat) : Bool :=
  if slot = noSlot then (getPage s n).hold || (getPage s n).cmdHold else (pageAsOf s n).hold || (pageAsOf s n).cmdHold

/-- A latch in this cycle would apply the page (R49, R55). -/
def PageWas.applies (w : PageWas) : Bool := w.pending && !w.hold && !w.cmdHold

/-- Values of a page become active: LATCH_CNT, COMMIT_DONE, and the commands and objects that waited for it (R49). `keep` is what stays in
the shadow and `pend` whether it is still pending. -/
def commitPage (n slot : Nat) (vals keep : Tab Word) (pend : Bool) (s : State) : State :=
  let p := getPage s n
  let s1 := { s with regs := { s.regs with
    act := tmerge (tfilter vals (onPage n)) s.regs.act
    shd := tmerge (tfilter keep (onPage n)) (tfilter s.regs.shd fun k => !onPage n k) } }
  let s2 := raiseIrq n 0 (putPage n { p with pending := pend, latchCnt := p.latchCnt + 1 } s1)
  camApplied n (noteLatch n slot (splitMoved n s (acceptEvent (blockId (pageKind n) * 256 + 1) false true none
    (le 2 n ++ le 2 (p.latchCnt + 1).toNat ++ le 4 slot) s2)))

/-- Copy a page's shadow to active, clear PENDING, count and report the commit (R49), as an idle latch does it. -/
def applyPage (n slot : Nat) (s : State) : State :=
  let p := getPage s n
  if p.pending && !p.hold && !p.cmdHold then commitPage n slot s.regs.shd [] false s else s

/-- A latch of a page's source: what was pending before this cycle becomes active, and what the cycle itself wrote stays pending (R23,
R50). -/
def latchPage (n slot : Nat) (s : State) : State :=
  let w := pageAsOf s n
  if !w.applies then s
  else if touched s n then
    let keep := s.regs.shd.filter fun e => !decide (tfind w.shd e.1 = some e.2)
    commitPage n slot w.shd keep ((getPage s n).pending && (getPage s n).wrote) s
  else applyPage n slot s

/-- The pages that follow the bar latch (R47). -/
def barPages : List Nat := [pgTilC, pgKlnC, pgCal]

/-- The pages that follow a plane's frame latch: the plane's own, and the engine and HLK pages of its heads. -/
def framePages (s : State) (p : Nat) : List Nat :=
  pgKlnP p :: (planeHeads s p).flatMap fun d => [pgTilE (2 * d.head), pgTilE (2 * d.head + 1), pgHlk d.head]

/-- The page number that stands for bar-latch changes held outside registers in a parked command's list. -/
def barMark : Nat := 0xFFF

/-- The heads' VALID entries of the split table apply, but for those whose engine page's split applies in the same cycle (R201). -/
def barSplits (skip : List Nat) (s : State) : State :=
  (List.range 64).foldl (fun t h =>
    let k := wkey Reg.TIL_SPLIT_BAR h
    if rbit t k 31 && skip.contains h then wf k 31 31 0 t
    else if rbit t k 31 then
      let old := rn t (Reg.TIL_E_SPLIT (2 * h))
      let new := rf t k 11 0
      let t1 := wn k new (wn (Reg.TIL_E_SPLIT (2 * h)) new t)
      raiseIrq pgTilC 5 (event 0x3002 none (le 1 h ++ le 4 old ++ le 4 new ++ le 1 1) (inc Reg.TIL_SPLIT_CNT 1 t1))
    else t) s

/-- The bar latch's own changes beside registers, which follow TIL common: curves, threshold arrays and the split table, and the commands
that wait for them; a hold of that page keeps them (R213, R214, R201, R127). -/
def barExtras (skip : List Nat) (slot : Nat) (s : State) : State :=
  if heldAt s pgTilC slot then s
  else
    let s1 := { s with til := { s.til with
      curves := (s.til.pendCurves.filter fun e => ripe s slot e.1).foldl (fun m e => tput m e.2.1 e.2.2) s.til.curves,
      pendCurves := s.til.pendCurves.filter fun e => !ripe s slot e.1,
      arrays := (s.til.pendArrays.filter fun e => ripe s slot e.1).foldl (fun m e => memReplace m (e.2.1 * 131072) e.2.2) s.til.arrays,
      pendArrays := s.til.pendArrays.filter fun e => !ripe s slot e.1 } }
    noteLatch barMark slot (barSplits skip s1)

/-- Something that follows TIL common's latch waits outside its registers. -/
def barOwes (s : State) : Bool := !s.til.pendCurves.isEmpty || !s.til.pendArrays.isEmpty

/-- Arm the bar latch with the planes to wait for, or apply at once when no plane runs (R252, R53). An armed bar latch is joined. -/
def armBar (s : State) : State :=
  if s.kln.barArmed then s
  else
    let w := planeNums.filter fun p => (plane s p).live
    if w = [] then barExtras [] noSlot (barPages.foldl (fun t n => applyPage n noSlot t) s)
    else { s with kln := { s.kln with barArmed := true, barWait := w } }

/-- The bar latch (R252, R253). What its own cycle wrote arms the next. -/
def barLatch (skip : List Nat) (slot : Nat) (s : State) : State :=
  let s1 := barPages.foldl (fun t n => latchPage n slot t) s
  let s2 := barExtras skip slot s1
  let s3 := inc Reg.KLN_BAR_CNT 1 { s2 with kln := { s2.kln with barArmed := false, barWait := [] } }
  let left := fun (n : Nat) => !(getPage s3 n).hold && !(getPage s3 n).cmdHold && ((getPage s3 n).pending || (decide (n = pgTilC) && barOwes s3))
  if barPages.any left then armBar s3 else s3

/-- A plane passes its first latch after the arming, or enters STOPPED: it leaves the set, and the bar latch occurs when
the set is empty. -/
def barLeave (skip : List Nat) (p slot : Nat) (s : State) : State :=
  if s.kln.barArmed ∧ p ∈ s.kln.barWait then
    let w := s.kln.barWait.filter (· ≠ p)
    let s1 := { s with kln := { s.kln with barWait := w } }
    if w = [] then barLatch skip slot s1 else s1
  else s

/-- The plane is in vertical blanking after a latch: sync or back porch of an open frame (R250). -/
def afterLatch (s : State) (p : Nat) : Bool :=
  (plane s p).slot.isSome && decide (latchLine s p ≤ (plane s p).line)

/-- An idle latch of a page, unless ARM or a hold keeps it (R24, R52, R251). -/
def idleLatch (n : Nat) (s : State) : State :=
  if pageIdle s n && !pageArmed s n then applyPage n noSlot s else s

/-- The deferral of a write that arrives in blanking after the latch: DEFERRED, its interrupt and the plane's counter
(R50, R250). -/
def deferPage (n : Nat) (s : State) : State :=
  match pagePlane s n with
  | some p =>
    if afterLatch s p then
      inc (Reg.KLN_P_DEFER_CNT p) 1 (raiseIrq n 1 (updPage n (fun g => { g with deferred := true }) s))
    else s
  | none => s

/-- A page of RWS registers becomes PENDING: what its latch source then does (R22, R24, R252). -/
def pendPage (n : Nat) (s : State) : State :=
  let s1 := updPage n (fun g => { g with pending := true, wrote := true }) (notePage n s)
  if pageSrc n = 2 then
    (if (getPage s1 n).hold || (getPage s1 n).cmdHold then s1 else armBar s1)
  else idleLatch n s1

/-- An RWS write lands in the shadow (R22). `hw` is a hardware write, which defers nothing (R284). -/
def rwsWrite (k : Nat) (v : Word) (hw : Bool) (s : State) : State :=
  let n := keyAddr k / 0x1000
  let s1 := wrShadow k v (notePage n s)
  pendPage n (if hw then s1 else deferPage n s1)

/-! ## Copies -/

def updCopy (c : Nat) (f : Copy → Copy) (s : State) : State :=
  { s with jobs := { s.jobs with copies := s.jobs.copies.map fun x => if x.seq = c then f x else x } }

def findCopy (s : State) (c : Nat) : Option Copy := s.jobs.copies.find? fun x => x.seq = c

def template (s : State) (t j p : Nat) : Option Template :=
  s.jobs.templates.find? fun x => x.tenant = t ∧ x.job = j ∧ x.page = p

/-- Set a flag of a copy that is not voided (R110). -/
def flagCopy (c : Option Nat) (f : CopyFlags → CopyFlags) (s : State) : State :=
  match c with
  | some x => updCopy x (fun y => if y.state = .voided then y else { y with flags := f y.flags }) s
  | none => s

/-- Flag a copy whose frame on a plane carries TRIP or PAUSE (R399). -/
def marCopy (p : Nat) (c : Option Nat) (f : CopyFlags → CopyFlags) (s : State) : State :=
  flagCopy c f (match c with | some x => updCopy x (fun y => { y with marred := p :: y.marred }) s | none => s)

/-- Discard a copy's upstream work (R29, R107). -/
def discardWork (c : Nat) (s : State) : State :=
  { s with
    thr := { s.thr with queue := s.thr.queue.filter (·.copy ≠ c), lines := s.thr.lines.filter (·.copy ≠ c),
                        lanes := s.thr.lanes.filter fun e => e.2.job.copy ≠ c },
    glz := { s.glz with late := s.glz.late.filter (· ≠ c), bands := s.glz.bands.filter (·.copy ≠ c), pool := s.glz.pool.filter (·.copy ≠ c), swath := s.glz.swath.filter (·.copy ≠ c),
                        wins := s.glz.wins.filter (·.copy ≠ c),
                        staging := s.glz.staging.map fun e => (e.1, e.2.filter fun x => x.copy ≠ c) } }

/-- No flag. -/
def CopyFlags.none : CopyFlags := ⟨false, false, false, false, false, false, false, false, false, false⟩

/-- The flags of a copy in the bit order of R469. -/
def CopyFlags.word (f : CopyFlags) : Nat :=
  let b := fun (x : Bool) (n : Nat) => if x then 2 ^ n else 0
  let w := b f.underrun 1 + b f.pause 2 + b f.trip 3 + b f.corrupt 4 + b f.content 5 + b f.fired 6 + b f.defect 7 +
    b f.uninspected 8 + b f.refDegraded 9 + b f.void 10
  if w = 0 then 1 else w

/-- The job of a copy is still open or closing. -/
def jobOpen (s : State) (t j : Nat) : Bool := s.jobs.jobs.any fun x => decide (x.tenant = t ∧ x.id = j)

/-- A copy becomes SEALED: it gives its receipt slot to its tenant's open batch and leaves a job that is gone (R470, R475). -/
def sealCopy (c : Nat) (s : State) : State :=
  match findCopy s c with
  | some x =>
    let void := decide (x.state = .voided)
    if !sealsReceipts s || !(void || decide (x.state = .ruled)) then s
    else
      let mask := ((copyPlanes s x).map fun p => 2 ^ p).sum
      let t2 := if void then x.commitTime else x.ruleTime
      let slot := if void then 0xFFFFFFFF else x.slot.getD 0xFFFFFFFF
      let s1 := updCopy c (fun y => { y with state := .sealed, receiptSlot := false }) s
      let s2 := if void then s1 else updSag x.tenant (fun g => { g with covered := g.covered + 1 }) s1
      let s3 := appendReceipt x.tenant true (receiptRecord (if void then 2 else 1) (chipNumber s) x.tenant x.job x.page
        x.num slot mask x.flags.word x.winSeen x.winBad x.firedSeen x.firedBad x.commitTime t2 x.defects x.ports) s2
      if jobOpen s3 x.tenant x.job then s3
      else
        let s4 := discardWork c { s3 with jobs := { s3.jobs with copies := s3.jobs.copies.filter (·.seq ≠ c) } }
        if s4.jobs.copies.any fun y => decide (y.tenant = x.tenant ∧ y.state ≠ .sealed) then s4 else closeBatch x.tenant s4
  | none => s

/-- A VOID receipt is sealed once a slot is free for it (R109, R470). -/
def sealVoid (c : Nat) (s : State) : State :=
  match findCopy s c with
  | some x =>
    if x.state = .voided ∧ (x.receiptSlot ∨ slotFree s) then
      sealCopy c (updCopy c (fun y => { y with receiptSlot := true }) s)
    else s
  | none => s

/-- Void a QUEUED or READY copy: its quota returns, a slot it took runs empty, its upstream work is discarded, and its
receipt is sealed; VOID and, where it says so, CORRUPT are its only flags (R95, R107, R110, R470). -/
def voidCopy (c : Nat) (corrupt : Bool) (s : State) : State :=
  match findCopy s c with
  | some x =>
    if x.state = .queued ∨ x.state = .ready then
      let s1 := updCopy c (fun y => { y with
        state := .voided, slot := none, commitTime := stamp s,
        flags := { CopyFlags.none with void := true, corrupt := corrupt } }) s
      let s2 := updTenant x.tenant (fun t => { t with reserved := t.reserved - 1 }) s1
      let ds := s2.kln.decisions.map fun e => (e.1, if e.2.copy = some c then { e.2 with copy := none } else e.2)
      sealVoid c (discardWork c { s2 with kln := { s2.kln with decisions := ds } })
    else s
  | none => s

/-- A copy that has passed its last boundary is RULED, and its PRINT receipt is sealed (R395, R470). -/
def ruleCopy (c : Nat) (s : State) : State :=
  match findCopy s c with
  | some x =>
    if x.state = .fired then
      sealCopy c (updCopy c (fun y => { y with state := .ruled, ruleTime := stamp s }) s)
    else s
  | none => s

/-! ## Readiness (R102, R467) -/

/-- A tenant is ENABLED; tenant 0 from HIF_CTRL.RUN on (R91). -/
def tenantEnabled (s : State) (t : Nat) : Bool :=
  if t = 0 then rbit s Reg.HIF_CTRL 0 else decide ((tenant s t).state = .enabled)

/-- A stream's bytes in offset order. -/
def Stream.bytes (x : Stream) : List Byte :=
  (List.range x.pieces.length).foldl (fun acc _ =>
    match x.pieces.find? fun p => decide (p.off = acc.length ∧ p.bytes ≠ []) with
    | some p => acc ++ p.bytes
    | none => acc) []

/-- Every byte up to LAST is spooled (R116). -/
def Stream.complete (x : Stream) : Bool :=
  x.lastSeen && !x.failed &&
    decide (x.bytes.length = (x.descs.map fun d => d.1 + d.2.1).foldl max 0)

def findStream (s : State) (t h : Nat) : Option Stream := s.jobs.streams.find? fun x => x.tenant = t ∧ x.handle = h

/-- Conditions 1 to 4 of R102. -/
def mayReady (s : State) (x : Copy) : Bool :=
  tenantEnabled s x.tenant &&
    x.page0.planes.all (fun q => match findStream s x.tenant q.handle with
      | some y => decide (y.prep = .good) && !y.failed
      | none => false) &&
    (!x.page0.sealed || (sagTenant s x.tenant).key.isSome) &&
    x.placements.all fun q => decide (q.op = 4) ||
      s.glz.tiles.any fun t => decide (t.tenant = x.tenant ∧ t.id = q.tile)

/-- READY copies of a tenant. -/
def readyCount (s : State) (t : Nat) : Nat :=
  (s.jobs.copies.filter fun x => decide (x.tenant = t ∧ x.state = .ready)).length

/-- A QUEUED copy becomes READY when R102 and the ceiling of R467 admit it; it takes a receipt slot (R475). -/
def readyCopy (c : Nat) (s : State) : State :=
  match findCopy s c with
  | some x =>
    if x.state = .queued then
      let s1 := ceilingCheck x.tenant s
      let below := decide (0 < ((sagTenant s1 x.tenant).ceiling - (tenant s1 x.tenant).charged
        - BitVec.ofNat 32 (readyCount s1 x.tenant)).toInt)
      if mayReady s1 x && sealsReceipts s1 && below && slotFree s1 then
        updCopy c (fun y => { y with state := .ready, receiptSlot := true }) s1
      else s1
    else s
  | none => s

/-- The copies in press-queue order. -/
def copyOrder (s : State) (p : Copy → Bool) : List Nat :=
  ((s.jobs.copies.filter p).map (·.seq)).foldl (fun l c => l.filter (· < c) ++ c :: l.filter (fun d => !decide (d < c))) []

/-- What waits for a condition of R102 or for a receipt slot is looked at again, in press-queue order. -/
def refreshReady (s : State) : State :=
  let s1 := (copyOrder s fun x => decide (x.state = .voided)).foldl (fun t c => sealVoid c t) s
  (copyOrder s1 fun x => decide (x.state = .queued)).foldl (fun t c => readyCopy c t) s1

/-- The oldest place of the press queue: copies QUEUED or READY with no slot, and COPY_SUBMITs still being checked
(R103, R124). -/
def queueHead (s : State) : Option Copy :=
  let waiting := s.jobs.copies.filter fun c => decide (c.state = .queued ∨ c.state = .ready) && decide (c.slot = none)
  let first := waiting.foldl (fun (b : Option Copy) c =>
    match b with | none => some c | some d => if c.seq < d.seq then some c else b) none
  match first with
  | none => none
  | some c =>
    if s.fw.parked.any (fun q => !q.accepted && decide (q.h.seq < c.seq) &&
        (match q.cmd with | .copySubmit .. => true | _ => false)) then none else some c

/-! ## The frame latch (R249) -/

/-- Passes a copy takes on a plane: the pass table's count, BIDI.PASSES + 1, or 1 (R294, R301). -/
def planePasses (s : State) (p : Nat) : Nat :=
  match rf s (Reg.KLN_P_PACE_CFG p) 5 4 with
  | 1 => ((plane s p).passTable.map fun t => t.passes.length).getD 1
  | 2 => rf s (Reg.KLN_P_BIDI p) 23 16 + 1
  | _ => 1

/-- The plane prints in a scanning mode. -/
def scanning (s : State) (p : Nat) : Bool := decide (rf s (Reg.KLN_P_PACE_CFG p) 5 4 ≠ 0)

/-- The page line at plane column 0 in pass `i` (R296, R301). -/
def passStart (s : State) (p i : Nat) : Int :=
  match rf s (Reg.KLN_P_PACE_CFG p) 5 4 with
  | 1 => match (plane s p).passTable with
    | some t => t.b0 + (((t.passes.take i).map (·.feed)).sum : Nat)
    | none => 0
  | 2 => (i * rf s (Reg.KLN_P_BIDI p) 15 0 : Nat)
  | _ => 0

/-- Pass `i` of a plane runs in reverse: by the pass table, or alternately from KILN_START in mode 2 (R296, R301). -/
def passReverse (s : State) (p i : Nat) : Bool :=
  match rf s (Reg.KLN_P_PACE_CFG p) 5 4 with
  | 1 => match (plane s p).passTable with
    | some t => ((t.passes[i]?).map (·.reverse)).getD false
    | none => false
  | 2 => decide ((plane s p).frames % 2 = 0 ∧ 0 < (plane s p).frames)
  | _ => false

/-- A position of a row may eject in pass `i` (R296, R298). -/
def unmasked (s : State) (p i row pos : Nat) : Bool :=
  if rf s (Reg.KLN_P_PACE_CFG p) 5 4 = 1 then
    match (plane s p).passTable with
    | some t => match t.passes[i]? with
      | some x => bits (pos % 8) (pos % 8) (((x.masks.getD row []).getD (pos / 8) 0#8).toNat) = 1
      | none => true
    | none => true
  else true

/-- The nozzles of a plane column: head, row and position of the primary, and of the secondary when the column is shared,
with the share threshold (R207, R209). -/
structure ColNozzles where
  prim : Nat × Nat
  sec : Option (Nat × Nat)
  theta : Nat
  stitch : Bool
  deriving DecidableEq, Repr

/-- A column lies in a span. -/
def Span.covers (x : Span) (c : Nat) : Bool := decide (x.c0 ≤ c ∧ c < x.c0 + x.groups * x.m)

/-- The nozzle of a span's column in a list of group rows: head, and nozzle number in the head (R207). -/
def Span.nozzle (x : Span) (rows : List Nat) (c : Nat) : Nat × Nat :=
  let k := c - x.c0
  let m := k / x.groups
  (x.head, rows.getD (k % x.groups) 0 * 1024 + (if x.reverse then x.p0 + x.m - 1 - m else x.p0 + m))

/-- The nozzles that serve a column (R207, R209). -/
def colNozzles (t : PlaneTable) (c : Nat) : Option ColNozzles :=
  match t.spans.filter (·.covers c) with
  | [] => none
  | [a] =>
    let g := (c - a.c0) % a.groups
    some ⟨a.nozzle a.prim c, if a.secValid.getD g false then some (a.nozzle a.sec c) else none, 128, false⟩
  | a :: b :: _ =>
    let z := c - b.c0
    let zone := min (a.c0 + a.groups * a.m) (b.c0 + b.groups * b.m) - b.c0
    some ⟨a.nozzle a.prim c, some (b.nozzle b.prim c), (z * 256 + 128) / zone, true⟩

/-- The column a nozzle serves, and whether it serves it as the primary (R207). -/
def nozzleCol (t : PlaneTable) (h n : Nat) : Option (Nat × Bool) :=
  (t.spans.filter fun x => x.head = h).findSome? fun x =>
    (List.range x.groups).findSome? fun g =>
      let pos := n % 1024
      if x.p0 ≤ pos ∧ pos < x.p0 + x.m then
        let m := if x.reverse then x.p0 + x.m - 1 - pos else pos - x.p0
        let c := x.c0 + m * x.groups + g
        if x.prim.getD g 0 = n / 1024 then
          some (c, match colNozzles t c with | some q => decide (q.prim = (h, n)) | none => true)
        else if x.secValid.getD g false ∧ x.sec.getD g 0 = n / 1024 then some (c, false)
        else none
      else none

/-- A plane column prints in pass `i`: its nozzle, or either nozzle of a shared column, is unmasked (R297). -/
def colPrints (s : State) (p i c : Nat) : Bool :=
  match (plane s p).table with
  | some t => match colNozzles t c with
    | some q => unmasked s p i (q.prim.2 / 1024) (q.prim.2 % 1024) ||
        (match q.sec with | some n => unmasked s p i (n.2 / 1024) (n.2 % 1024) | none => false)
    | none => false
  | none => false

/-- How many passes print a page line on a plane (R294, R297). -/
def passesOfLine (s : State) (p l : Nat) : Nat :=
  ((List.range (planePasses s p)).filter fun i =>
    let c := (l : Int) - passStart s p i
    decide (0 ≤ c) && colPrints s p i c.toNat).length

/-- A copy suits a plane at the latch that decides its slot: geometry (R105, R294) and kernel (R216). -/
def copySuits (s : State) (t : Template) (passes p : Nat) : Bool :=
  let w := ((t.planes.find? fun x => x.plane = (cloneSrc s p).getD p).map (·.width)).getD 0
  let geom :=
    if scanning s p then
      decide (w ≤ vActive s p) && decide (planePasses s p = passes) &&
        (decide (rf s (Reg.KLN_P_PACE_CFG p) 5 4 = 2) ||
          (List.range t.height).all fun l => decide (passesOfLine s p l = 1))
    else decide (t.height ≤ vActive s p) && decide (w ≤ planeWidth s p) && decide (passes = 1)
  let kern := (planeHeads s p).all fun d => [2 * d.head, 2 * d.head + 1].all fun e =>
    decide ((rf s (Reg.TIL_E_KERNEL e) 7 0 = 2) ↔ t.level = true)
  geom && kern

/-- Slot n may be taken by the head of the queue: every printing plane, clones among them, is RUNNING, or in LEAD_IN with a first slot at or
below n (R104, R268). -/
def planesReach (s : State) (mask : BitVec 16) (n : Nat) : Bool :=
  (printingPlanes s mask).all fun p =>
    decide ((plane s p).state = .running) ||
    (decide ((plane s p).state = .leadIn) && decide ((plane s p).nextSlot ≤ n))

/-- Record a slot's decision. -/
def decide1 (n : Nat) (d : Decision) (s : State) : State :=
  { s with kln := { s.kln with decisions := tput s.kln.decisions n d } }

/-- Decide slot n at its first frame latch on any plane (R104, R105, R216, R269, R294): the head of the press queue takes
it, or is voided, or the slot runs empty. A copy of N passes takes N slots. -/
def decideSlot (p n : Nat) (s : State) : State :=
  match tfind s.kln.decisions n with
  | some _ => s
  | none =>
    match queueHead s with
    | some c =>
      if decide (c.state = .ready) && planesReach s c.mask n && decide ((plane s p).state = .running) then
        let pl := printingPlanes s c.mask
        let passes := planePasses s (pl.headD 0)
        let cloned := planeNums.any fun q => c.mask.getLsbD q && (cloneSrc s q).isSome
        if !cloned && pl.all (fun q => copySuits s c.page0 passes q) then
          (List.range passes).foldl (fun u i => decide1 (n + i) ⟨some c.seq, i⟩ u)
            (updCopy c.seq (fun y => { y with slot := some n, planes := some pl }) s)
        else decide1 n ⟨none, 0⟩ (voidCopy c.seq false s)
      else decide1 n ⟨none, 0⟩ s
    | none => decide1 n ⟨none, 0⟩ s

/-- Commit a copy at its earliest latch: charge its quota in one step (R29, R95). -/
def commitCopy (c : Nat) (s : State) : State :=
  match findCopy s c with
  | some x =>
    if x.state = .ready ∨ x.state = .queued then
      ceilingCheck x.tenant (updTenant x.tenant (fun t => { t with
          reserved := t.reserved - 1, charged := t.charged + 1 })
        (updCopy c (fun y => { y with state := .committed, commitTime := stamp s }) s))
    else s
  | none => s

/-- The copy a slot carries on a plane: the decided copy when the plane prints it (R104, R106). -/
def slotCopy (s : State) (p n : Nat) : Option Nat :=
  match tfind s.kln.decisions n with
  | some d => match d.copy with
    | some c => match findCopy s c with
      | some x => if p ∈ copyPlanes s x then some c else none
      | none => none
    | none => none
  | none => none

/-- An uncommitted copy that has taken a slot goes back to the head of the queue, and its slots run empty (R139). -/
def returnCopies (p : Nat) (s : State) : State :=
  (s.jobs.copies.filter fun c => decide (c.state = .queued ∨ c.state = .ready) && c.slot.isSome &&
      decide (p ∈ copyPlanes s c)).foldl (fun t c =>
    let ds := t.kln.decisions.map fun e => (e.1, if e.2.copy = some c.seq then { e.2 with copy := none } else e.2)
    updCopy c.seq (fun y => { y with slot := none, planes := none }) { t with kln := { t.kln with decisions := ds } }) s

/-- Clip a window's extent to a limit (R271). -/
def clip (a len limit : Nat) : Nat := if limit ≤ a then 0 else min len (limit - a)

/-- Open the fired windows of the frame a latch opens, from the definitions now active (R270, R271). While FWIN_CMP is 0 nothing is
compared: windows of earlier frames go. -/
def openWindows (p slot : Nat) (s : State) : State :=
  let keep := (plane s p).wins.filter fun w =>
    rbit s Reg.KLN_CHK_CTRL 0 && (plane s p).wins.any fun v => decide (v.slot = w.slot) && !v.done
  let pw := planeWidth s p
  let va := vActive s p
  let ws := (List.range 16).filterMap fun i =>
    let k := fun a => wkey a i
    let x := rf s (k (Reg.KLN_P_FWIN_X p)) 17 0
    let w := rn s (k (Reg.KLN_P_FWIN_W p))
    let y := rn s (k (Reg.KLN_P_FWIN_Y p))
    let h := rn s (k (Reg.KLN_P_FWIN_H p))
    if rbit s (k (Reg.KLN_P_FWIN_X p)) 31 then some (i, x, w, y, h, clip x w pw, clip y h va) else none
  let clipped := ws.any fun q => decide (q.2.2.2.2.2.1 < q.2.2.1 ∨ q.2.2.2.2.2.2 < q.2.2.2.2.1)
  let s1 := updPlane p (fun g => { g with wins := keep ++ (ws.filter fun q =>
      decide (0 < q.2.2.2.2.2.1 ∧ 0 < q.2.2.2.2.2.2)).map fun q =>
    { index := q.1, x := q.2.1, w := q.2.2.2.2.2.1, y := q.2.2.2.1, h := q.2.2.2.2.2.2, slot := slot, copy := g.copy, kiln := [],
      til := [], done := false, failed := false : FiredWin } }) s
  if clipped then recordErr (pgKlnP p) 0x41 s1 else s1

/-- A plane changes state (R248). -/
def setPlaneState (p : Nat) (st : PlaneState) (s : State) : State :=
  let code : PlaneState → Nat := fun x => match x with
    | .stopped => 0 | .leadIn => 1 | .running => 2 | .stopping => 3
  let old := (plane s p).state
  if old = st then s
  else raiseIrq (pgKlnP p) 6 (event 0x4005 none
    (le 1 p ++ le 1 (code old) ++ le 1 (code st) ++ le 4 (plane s p).runline.toNat)
    (updPlane p (fun g => { g with state := st }) s))

/-! ## Verdicts (R395, R396) -/

/-- The width of a copy's page. -/
def pageWidth (x : Copy) : Nat := (x.page0.planes.map (·.width)).foldl max 0

/-- Winnow keeps nothing of copies that are gone. -/
def pruneInsp (s : State) : State :=
  let alive := fun (c : Nat) => s.jobs.copies.any fun x => decide (x.seq = c)
  { s with win := { s.win with copies := tfilter s.win.copies alive, scans := s.win.scans.filter fun x => alive x.copy } }

/-- Winnow's verdict on a FIRED copy goes to Sagger, and the copy becomes RULED. -/
def verdict (c : Nat) (uninsp : Bool) (s : State) : State :=
  match findCopy s c with
  | some x =>
    if x.state = .fired then
      let s1 := inc Reg.WIN_COPIES_RULED 1 (if uninsp then inc Reg.WIN_UNINSP_CNT 1 s else s)
      pruneInsp (ruleCopy c (updCopy c (fun y => { y with
        flags := { y.flags with uninspected := uninsp, defect := decide (0 < y.defects) } }) s1))
    else s
  | none => s

/-- The ports concerned with a copy: those that run and whose columns meet its page. -/
def concerned (s : State) (x : Copy) : List Nat :=
  camNums.filter fun k => camRunning s k && decide ((camCols s k).1 < pageWidth x)

/-- A port's plane prints the copy. -/
def camSees (s : State) (x : Copy) (k : Nat) : Bool := decide (camPlane s k ∈ copyPlanes s x)

/-- Every port concerned has passed the boundary after the copy's frame. -/
def mayRule (s : State) (x : Copy) : Bool :=
  match x.slot with
  | some n => (concerned s x).all fun k => !camSees s x k || s.win.closed.any fun e => decide (e.1 = k ∧ n ≤ e.2.1)
  | none => false

/-- Printing planes of a copy without a density map ring (R388). -/
def noRing (s : State) (x : Copy) : Bool := (copyPlanes s x).any fun p => (tfind s.win.rings p).isNone

/-- The copy has been inspected whole: the ports' columns cover its page, each port's frame for it is complete, and its lines could
be predicted (R388, R391, R395). -/
def inspected (s : State) (x : Copy) : Bool :=
  let ks := concerned s x
  ks.all (fun k => camSees s x k && s.win.closed.any fun e => decide (e = (k, x.slot.getD 0, true))) &&
    ((List.range (pageWidth x)).all fun c => ks.any fun k => decide ((camCols s k).1 ≤ c ∧ c ≤ (camCols s k).2)) &&
    !(tget s.win.copies ⟨false, false, 0⟩ x.seq).bad && !noRing s x

/-- Winnow rules on a copy once it may (R395); a copy without a ring on a plane is counted (R388). -/
def tryRule (c : Nat) (s : State) : State :=
  match findCopy s c with
  | some x =>
    if x.state = .fired ∧ mayRule s x = true then
      verdict c (!inspected s x) (if s.win.made && noRing s x then inc Reg.WIN_PRED_MISS_CNT 1 s else s)
    else s
  | none => s

/-- The FIRED copies that may be ruled are, in press-queue order. -/
def tryRules (s : State) : State :=
  (copyOrder s fun x => decide (x.state = .fired)).foldl (fun t c => tryRule c t) s

/-- A copy has become FIRED: it is ruled UNINSPECTED at once while no port is RUNNING or with a plane in a scanning mode (R396). -/
def ruleFired (c : Nat) (s : State) : State :=
  match findCopy s c with
  | some x =>
    if !(camNums.any fun k => decide ((cam s k).state = .running)) || (copyPlanes s x).any (fun p => scanning s p) then
      verdict c true s
    else tryRule c s
  | none => s

/-- The key of a copy on a plane in Glaze's tables. -/
def glzKey (c p : Nat) : Nat := c * 16 + p

/-- The pass of a copy that has left Glaze on a plane: past any pass there is. -/
def glazeGone : Nat := 0x1000

/-- A copy has left Glaze on a plane. -/
def glazeOut (s : State) (c p : Nat) : Bool := decide (planePasses s p ≤ tget s.glz.passOf 0 (glzKey c p))

/-- A FIRED copy's upstream work: gone once it has left Glaze, and until then Glaze goes on with it (R196). -/
def leaveUpstream (c : Nat) (planes : List Nat) (s : State) : State :=
  if planes.all (glazeOut s c) then discardWork c s else { s with glz := { s.glz with late := c :: s.glz.late } }

/-- Every printing plane has closed a committed copy's last frame and its fired windows have been compared: it is FIRED
(spec/04, "Copy states"). -/
def settleFired (c : Nat) (s : State) : State :=
  match findCopy s c with
  | some x =>
    let pl := copyPlanes s x
    let open1 := pl.any fun p => (plane s p).wins.any fun w => decide (w.copy = some c) && !w.done
    if x.state = .committed ∧ (∀ p ∈ pl, p ∈ x.closed) ∧ !(open1 && rbit s Reg.KLN_CHK_CTRL 0) then
      ruleFired c (leaveUpstream c pl (updCopy c (fun y => { y with state := .fired, firedAt := s.clock.uptime }) s))
    else s
  | none => s

/-- The frame open on a plane closes there, unless further passes of its copy follow. -/
def closeFrame (p : Nat) (s : State) : State :=
  match (plane s p).copy with
  | some c =>
    if (plane s p).pass + 1 < (plane s p).passes then s
    else settleFired c (updCopy c (fun y => { y with closed := if p ∈ y.closed then y.closed else p :: y.closed }) s)
  | none => s

/-- A committed copy on a plane has frames still to fire there (R246). -/
def planeOwes (s : State) (p : Nat) : Bool :=
  s.jobs.copies.any fun c => decide (c.state = .committed) && decide (p ∈ copyPlanes s c) &&
    decide (p ∉ c.closed)

/-- The heads that join a plane with a table: last-fire lines under R234. An entry whose byte 28 disagrees stays as it is: what makes it
good again is a NOZZLE_WRITE or a restore (R225). -/
def joinHeads (p : Nat) (t : PlaneTable) (s : State) : State :=
  let old := (planeHeads s p).map (·.head)
  let f := (plane s p).runline
  (t.head.heads.filter fun d => !old.contains d.head).foldl (fun u d =>
    let age := BitVec.ofNat 32 (rf u (Reg.TIL_E_SPIT_AGE (2 * d.head)) 23 0)
    let last := f - age
    { u with til := { u.til with
        lastOf := tput u.til.lastOf d.head last,
        entries := u.til.entries.map fun e =>
          if e.1 / 4096 = d.head ∧ e.2.good = true then (e.1, Entry.seal { e.2 with last := last }) else e } }) s

/-- The plane table that waits applies with the plane's page (R137, R127). -/
def latchTable (p slot : Nat) (s : State) : State :=
  let due := (plane s p).pendTable.filter fun e => ripe s slot e.1
  match due.getLast? with
  | some e =>
    if heldAt s (pgKlnP p) slot then s
    else noteLatch (0x10000 + p) slot (updPlane p (fun g => { g with
      table := some e.2, pendTable := g.pendTable.filter fun x => !ripe s slot x.1 }) (joinHeads p e.2 s))
  | none => s

end Sys2Proof.Machine
end

