-- ==== Sys2Proof/Machine/Access.lean ====
section
/-! DEFINITION. What every register access goes through: mapped pages, byte enables, owners, soft resets, field ranges, and
the entries behind select registers (spec/02, R32 to R60). -/

namespace Sys2Proof.Machine
open Sys2Proof

/-- The registers shown through a select register: first and last address, select register, high bit of its field. -/
def windows : List (Nat × Nat × Nat × Nat) :=
  [(Reg.HIF_PGIRQ_VEC, Reg.HIF_PGIRQ_VEC, Reg.HIF_PGIRQ_SEL, 11),
   (Reg.TIL_SPLIT_BAR, Reg.TIL_SPLIT_BAR, Reg.TIL_SPLIT_SEL, 5),
   (Reg.TIL_VOL_A, Reg.TIL_VOL_B, Reg.TIL_VOL_SEL, 3),
   (Reg.KLN_H_LEAD, Reg.KLN_H_CLR, Reg.KLN_HEAD_SEL, 5),
   (0x140060, 0x140074, Reg.WIN_PL_SEL, 3),
   (0x141050, 0x14105C, Reg.GLN_PL_SEL, 3),
   (0x142060, 0x142070, Reg.CAL_PL_SEL, 3),
   (0x142078, 0x142080, Reg.CAL_REF_SEL, 3),
   (Reg.TRM_NODE_STAT, Reg.TRM_NODE_RATE, Reg.TRM_NODE_SEL, 3),
   (0x009054, 0x009078, Reg.TLY_SLOT_SEL, 3),
   (Reg.CLK_IOCAL_TRIM, Reg.CLK_IOCAL_TRIM, Reg.CLK_IOCAL_SEL, 6)]

/-- The entry an address shows now: the select register's field, 0 for a register that is not behind one. -/
def windowIndex (s : State) (addr : Nat) : Nat :=
  match pageOf (addr / 0x1000) with
  | some (.klnP, p) =>
    if 0x070 ≤ addr % 0x1000 ∧ addr % 0x1000 ≤ 0x088 ∧ addr % 0x1000 ≠ 0x080 then rf s (Reg.KLN_P_FWIN_SEL p) 3 0 else 0
  | some _ => match windows.find? fun w => decide (w.1 ≤ addr ∧ addr ≤ w.2.1) with
    | some w => rf s w.2.2.1 w.2.2.2 0
    | none => 0
  | none => 0

/-- The key of the register an address reaches now. -/
def keyOf (s : State) (addr : Nat) : Nat := wkey addr (windowIndex s addr)

/-- An initiator may write a page (R56). -/
def admits (ini : Initiator) (owner : BitVec 2) : Bool :=
  match ini with
  | .sagger => true
  | .host => owner = 0 || owner = 3
  | .core => owner = 1 || owner = 3

/-- The block of a page is powered down: PD_TIL and PD_FIRE in STANDBY (R60; spec/23, "Power states and domains"), and during a
boot every page but the mailbox and HIF (R448). -/
def pageOff (s : State) (n : Nat) : Bool :=
  (s.pwr.boot.isSome && decide (n ≠ pgSag ∧ n ≠ pgHif)) ||
  (decide (s.pwr.state = .standby) && match pageKind n with
    | .tilC | .tilE | .thr | .klnC | .klnP => true
    | _ => false)

/-- The page answers in full: mapped and its block powered (R59, R60). -/
def pageUp (s : State) (n : Nat) : Bool := (pageOf n).isSome && !pageOff s n

/-- Registers can be reached: not in shutdown, under the analog trip or in DEEP (R553, R555, R540). -/
def clocked (s : State) : Bool := !s.thm.shutdown && !s.thm.atrip && decide (s.pwr.state ≠ .deep)

/-- A page whose writes are ignored as in a soft reset: in one, or HIF during a boot (R37, R448). -/
def pageBusy (s : State) (n : Nat) : Bool := (getPage s n).inReset || (s.pwr.boot.isSome && decide (n = pgHif))

/-- An access that only HIF counts (R59, R60). -/
def countUnmapped (s : State) : State := inc Reg.HIF_UNMAPPED_CNT 1 s

/-- The owner refuses a write (R56). -/
def denyWrite (n : Nat) (s : State) : State :=
  recordErr n 0x06 (updPage n (fun p => { p with denyCnt := if p.denyCnt = 0xFFFF#16 then p.denyCnt else p.denyCnt + 1 }) s)

/-- A value lies in every field's defined range (R41). -/
def inRange (addr : Nat) (v : Word) : Bool :=
  match regDef addr with
  | some r => r.ranges.all fun f =>
      let x := bits (f.lo + f.width - 1) f.lo v.toNat
      decide (f.min ≤ x ∧ x ≤ f.max)
  | none => true

/-- A write reaches its page's registers: the page is mapped and powered, all byte enables are set, the owner admits the initiator and no
soft reset is in progress (R33, R37, R56, R59, R60). -/
def guardAccess (ini : Initiator) (addr : Nat) (be : BitVec 4) (op : State → State) (s : State) : State :=
  let n := addr / 0x1000
  if !clocked s then s
  else if !pageUp s n then countUnmapped s
  else if be ≠ 0xF#4 then recordErr n 0x01 s
  else if !admits ini (getPage s n).owner then denyWrite n s
  else if pageBusy s n then recordErr n 0x04 s
  else op s

/-- A write whose fields must be in range as well (R41). -/
def guardWrite (ini : Initiator) (addr : Nat) (be : BitVec 4) (v : Word) (op : Word → State → State) (s : State) : State :=
  guardAccess ini addr be (fun t => if inRange addr v then op v t else recordErr (addr / 0x1000) 0x05 t) s

/-- Every byte enable set. -/
def allBytes : BitVec 4 := 0xF#4

/-- A register access is dword-aligned (R33). -/
def aligned (addr : Nat) : Bool := decide (addr % 4 = 0)

/-- An access of `n` dwords is accepted: dword-aligned and, from the host, within one 64-byte block; from a control core or Sagger one
aligned word of 32 or 64 bits (R33; that the host's requests of 8 bytes need no qword alignment within a block is DEDUCED,
notes/assumptions/68.md). -/
def accepted (ini : Initiator) (addr n : Nat) : Bool :=
  aligned addr && match ini with
    | .host => decide (addr % 64 + 4 * n ≤ 64)
    | .core | .sagger => decide (n = 1 ∨ n = 2 ∧ addr % 8 = 0)

/-- The value a plain write leaves: written bits from the value, the rest kept, write-one-to-clear bits cleared (R44). -/
def plainValue (r : RegDef) (old v : Word) : Word := ((v &&& r.mask) ||| (old &&& ~~~r.mask)) &&& ~~~(v &&& r.w1c)

/-- Apply a write to a register of plain or mixed access. -/
def plainPut (addr : Nat) (v : Word) (s : State) : State :=
  let k := keyOf s addr
  match regDef addr with
  | some r => if r.acc = .rw ∨ r.acc = .mixed then wr k (plainValue r (rd s k) v) s else s
  | none => s

/-- Apply a write to a register of plain, mixed or shadowed access; RO, WO and reserved offsets have no effect of this kind
(R36). -/
def applyWrite (addr : Nat) (v : Word) (s : State) : State :=
  let k := keyOf s addr
  match regDef addr with
  | some r =>
    match r.acc with
    | .rw | .mixed => plainPut addr v s
    | .rws => rwsWrite k ((v &&& r.mask) ||| (rdShadow s k &&& ~~~r.mask)) false s
    | .rwsEven =>
      if addr / 0x1000 % 2 = 0 then rwsWrite k ((v &&& r.mask) ||| (rdShadow s k &&& ~~~r.mask)) false s else s
    | .ro | .wo => s
  | none => s

/-- A plain write with all its checks. -/
def plainWrite (ini : Initiator) (addr : Nat) (be : BitVec 4) (v : Word) (s : State) : State :=
  guardWrite ini addr be v (applyWrite addr) s

/-- Clear the counters a clear register's bits select: bit i clears the i-th register of a list (R45). -/
def clearCounters (regs : List (List Nat)) (v : Word) (s : State) : State :=
  (regs.zipIdx).foldl (fun t q => if v.toNat / 2 ^ q.2 % 2 = 1 then q.1.foldl (fun u k => wn k 0 u) t else t) s

/-! ## Reads (R43, R46) -/

/-- The number of an initiator. -/
def iniNum : Initiator → Nat
  | .host => 0 | .core => 1 | .sagger => 2

/-- The key of what an initiator holds or has captured for a register. -/
def iniKey (ini : Initiator) (k : Nat) : Nat := k * 4 + iniNum ini

/-- A read begins: what the initiator's read before it returned is gone. -/
def beginRead (ini : Initiator) (s : State) : State :=
  { s with regs := { s.regs with rdata := tput s.regs.rdata (iniNum ini) [] } }

/-- A read returns the next dword to its initiator. -/
def returns (ini : Initiator) (v : Word) (s : State) : State :=
  { s with regs := { s.regs with rdata := tput s.regs.rdata (iniNum ini) (tget s.regs.rdata [] (iniNum ini) ++ [v]) } }

/-- Capture a member of a snapshot for an initiator (R46). -/
def capture (ini : Initiator) (k : Nat) (v : Word) (s : State) : State :=
  { s with regs := { s.regs with snap := tput s.regs.snap (iniKey ini k) v } }

/-- Capture a 64-bit member. -/
def capture64 (ini : Initiator) (k v : Nat) (s : State) : State :=
  capture ini (k + 4) (BitVec.ofNat 32 (v / 2 ^ 32)) (capture ini k (BitVec.ofNat 32 v) s)

/-- The value a block's own register reads during a soft reset: its reset value (R37), which for a Tiller engine's TIL_E_ID and
TIL_E_SCREEN is the engine's own (spec/08, "TIL_E_ID fields", "TIL_E_SCREEN fields"). -/
def resetRead (s : State) (addr : Nat) : Word :=
  match pageOf (addr / 0x1000) with
  | some (.tilE, e) =>
    if addr % 0x1000 = 0x040 then BitVec.ofNat 32 (e / 2 + e % 2 * 2 ^ 6)
    else if addr % 0x1000 = 0x048 then BitVec.ofNat 32 ((pagePlane s (addr / 0x1000)).getD 0 % 8)
    else resetWord addr
  | _ => resetWord addr

/-- A dword read with its page's answer: an unmapped page reads zero and is counted (R59), a powered-down one answers with PG_ID and
PG_CAP and reads zero elsewhere (R60); during a soft reset the block's own registers read their reset values (R37). -/
def guardRead (ini : Initiator) (addr : Nat) (op : State → State) (s : State) : State :=
  let n := addr / 0x1000
  if !clocked s then s
  else if (pageOf n).isNone then returns ini 0#32 (countUnmapped s)
  else if pageOff s n then (if addr % 0x1000 < 0x008 then op s else returns ini 0#32 s)
  else if pageBusy s n ∧ 0x040 ≤ addr % 0x1000 then returns ini (resetRead s addr) s
  else op s

end Sys2Proof.Machine
end

