-- ==== Sys2Proof/Machine/Nozzle.lean ====
section
/-! DEFINITION. The nozzle table and the ten stages of a row-line (spec/08, spec/09). -/

namespace Sys2Proof.Machine
open Sys2Proof

/-! ## Entries (R223) -/

/-- The default entry of R223 with a last-fire line. -/
def Entry.default (last : BitVec 32) : Entry :=
  Entry.seal { gain := 0x4000, offset := 0, curve := 0, status := 0x0C, variant := 0, volClass := 0, subA := 0, subB := 0,
               fires := 0, last := last, ink := 0, crc := 0 }

/-- The entry of a chip nozzle index (R19). -/
def entry (s : State) (i : Nat) : Entry :=
  match tfind s.til.entries i with
  | some e => e
  | none => Entry.default (tget s.til.lastOf 0#32 (i / 4096))

def putEntry (i : Nat) (e : Entry) (s : State) : State :=
  { s with til := { s.til with entries := tput s.til.entries i e } }

/-- State bits [1:0] of an entry. -/
def Entry.state (e : Entry) : Nat := e.status.toNat % 4

/-- The press nozzle identity (R19): chip number in [21:18]. -/
def pressNozzle (s : State) (i : Nat) : Nat := rf s Reg.GLB_STRAP 3 0 * 262144 + i

/-! ## Engines (R198 to R200, R219) -/

def engine (s : State) (e : Nat) : Engine := tget s.til.engines ⟨false, [], none⟩ e

def updEngine (e : Nat) (f : Engine → Engine) (s : State) : State :=
  { s with til := { s.til with engines := tput s.til.engines e (f (engine s e)) } }

/-- The split of a head in force. -/
def split (s : State) (h : Nat) : Nat := rf s (Reg.TIL_E_SPLIT (2 * h)) 11 0

/-- Engine e serves nozzle n of its head under a split (R198). -/
def servesAt (v e n : Nat) : Bool := if e % 2 = 0 then decide (n < v) else decide (v ≤ n)

/-- Engine e serves nozzle n of its head (R198). -/
def serves (s : State) (e n : Nat) : Bool := servesAt (split s (e / 2)) e n

/-- The fitted nozzles of a row that an engine serves under a split, by position. -/
def servedAt (s : State) (v e r : Nat) : List Nat :=
  (List.range (fittedPositions s (e / 2))).filter fun p =>
    decide (r ∈ fittedRows s (e / 2)) && servesAt v e (r * 1024 + p)

/-- The fitted nozzles of a row that an engine serves, by position. -/
def servedPositions (s : State) (e r : Nat) : List Nat := servedAt s (split s (e / 2)) e r

/-- The engines of a head that serve some fitted nozzle of a row under a split. -/
def rowEngines (s : State) (v h r : Nat) : List Nat :=
  [2 * h, 2 * h + 1].filter fun e => decide (servedAt s v e r ≠ [])

/-- Lanes in use (R220). -/
def lanes (s : State) (e : Nat) : Nat := if (engine s e).throttled then 16 else 32

/-- Kernel cost in lane-operations per nozzle (R216). -/
def kernelCost : Nat → Nat
  | 0 => 36 | 1 => 28 | 2 => 16 | _ => 8

/-- ceil(a ÷ b). -/
def cdiv (a b : Nat) : Nat := (a + b - 1) / b

/-- Line cycles of an engine: the sum of the latest screening costs of the rows it serves (R219). -/
def lineCycles (s : State) (e : Nat) : Nat :=
  ((engine s e).cost.map fun x => if servedPositions s e x.1 = [] then 0 else x.2).sum

/-- Record a row-line's cost and refresh TIL_E_LINE_CYC. -/
def noteCost (e r c : Nat) (s : State) : State :=
  let s1 := updEngine e (fun g => { g with cost := tput g.cost r c }) s
  let l := min 65535 (lineCycles s1 e)
  wn (Reg.TIL_E_LINE_CYC e) (l + 65536 * max l (rf s1 (Reg.TIL_E_LINE_CYC e) 31 16)) s1

/-! ## Kiln's rows -/

def Row.init : Row :=
  { started := false, nextF := 0, nextShift := 0, nextEdge := 0, fifo := [], tx := [], under := [], held := [], edges := [],
    fills := [], reversals := [], lastTrail := 0 }

def khead (s : State) (h : Nat) : KHead := tget s.kln.heads ⟨[], 0, []⟩ h

def updHead (h : Nat) (f : KHead → KHead) (s : State) : State :=
  { s with kln := { s.kln with heads := tput s.kln.heads h (f (khead s h)) } }

def row (s : State) (h r : Nat) : Row := tget (khead s h).rows Row.init r

def updRow (h r : Nat) (f : Row → Row) (s : State) : State :=
  updHead h (fun g => { g with rows := tput g.rows r (f (tget g.rows Row.init r)) }) s

/-! ## What a running line carries (R235, R243) -/

/-- The largest row offset of a head (R300). -/
def omax (s : State) (h : Nat) : Nat :=
  (fittedRows s h).foldl (fun m r => max m (rf s (Reg.TIL_E_ROWOFS (2 * h)) (8 * r + 4) (8 * r))) 0

/-- The row offset of a row, mirrored in a reverse pass of mode 1 (R203, R300). -/
def rowOfs (s : State) (p h r : Nat) : Nat :=
  let o := rf s (Reg.TIL_E_ROWOFS (2 * h)) (8 * r + 4) (8 * r)
  if rf s (Reg.KLN_P_PACE_CFG p) 5 4 = 1 ∧ passReverse s p (plane s p).pass then omax s h - o else o

/-- What a row fires on a running line. -/
inductive LineKind where
  /-- No plane line: blanking, lead-in, or an empty frame outside the active lines. -/
  | blank
  /-- Plane line y of the open frame, or of the frame closed before it (`straddle`, R206). -/
  | active (y : Nat) (straddle : Bool)
  /-- Beyond the next latch: the engine waits for it (R28). -/
  | waits
  deriving DecidableEq, Repr

/-- Signed distance of a running line from a latch. -/
def runDist (f base : BitVec 32) : Int := (f - base).toInt

/-- The running line of the latch that follows: in LEAD_IN that of the plane's first frame (R245). -/
def nextLatch (s : State) (p : Nat) : BitVec 32 :=
  let g := plane s p
  if g.slot = none then g.runline + BitVec.ofNat 32 g.leadIn else g.latchRun + BitVec.ofNat 32 (vTotal s p)

/-- What row r of head h fires on running line f of plane p (R243, R235, R28): a line of the open frame, even on or after the next latch;
else a line of the frame closed before it (R206), by that frame's raster; else none, up to the active lines of the frame still to open. -/
def lineKind (s : State) (p h r : Nat) (f : BitVec 32) : LineKind :=
  let g := plane s p
  let blankLines : Int := vSync s p + vBack s p
  let o : Int := rowOfs s p h r
  let y := runDist f g.latchRun - blankLines - o
  let yPrev := runDist f g.prevLatchRun - g.prevVis.1 - o
  if g.slot.isSome ∧ 0 ≤ y ∧ y < (vActive s p : Int) then .active y.toNat false
  else if g.slot.isSome ∧ 2 ≤ g.frames ∧ 0 ≤ yPrev ∧ yPrev < (g.prevVis.2 : Int) then .active yPrev.toNat true
  else if runDist f (nextLatch s p) < blankLines then .blank
  else .waits

/-- A plane line carries page content of a copy: below the page height in single-pass mode, below the page width in a
scanning mode (R98, R294). -/
def lineHasPage (s : State) (p : Nat) (copy : Option Nat) (y : Nat) : Bool :=
  match copy with
  | some c => match findCopy s c with
    | some x =>
      if scanning s p then
        let w := ((x.page0.planes.find? fun q => q.plane = (cloneSrc s p).getD p).map (·.width)).getD 0
        decide ((if passReverse s p (plane s p).pass then vActive s p - 1 - y else y) < w)
      else decide (y < x.page0.height)
    | none => false
  | none => false

/-! ## Stages 1 to 8 (R210 to R212) -/

/-- The weight and index of a substitute field (R211). -/
def subIndex (b : BitVec 24) : Nat := b.toNat % 262144
def subWeight (b : BitVec 24) : Nat := b.toNat / 262144

/-- The donations to nozzle i on a plane: chip nozzle index of the donor, and weight (R211). -/
def donors (s : State) (t : PlaneTable) (i : Nat) : List (Nat × Nat) :=
  s.til.entries.flatMap fun e =>
    let d := e.1
    let x := e.2
    let partner := match nozzleCol t (d / 4096) (d % 4096) with
      | some (c, _) => match colNozzles t c with
        | some q => decide (q.prim = (i / 4096, i % 4096)) || decide (q.sec = some (i / 4096, i % 4096))
        | none => false
      | none => false
    if x.state ≥ 1 ∧ x.status.toNat / 4 % 2 = 1 ∧ (partner = false ∨ i = d) ∧
        t.head.heads.any (fun g => g.head = d / 4096) then
      [x.subA, x.subB].filterMap fun b =>
        if subWeight b ≠ 0 ∧ subIndex b = i then some (d, subWeight b) else none
    else []

/-- Entry [3i+2:3i] of a map register. -/
def map3 (v i : Nat) : Nat := bits (3 * i + 2) (3 * i) v

/-- Entry of a master tone curve in force; a curve never loaded reads zero (R213, R535). -/
def curveAt (s : State) (c i : Nat) : Nat := (tget s.til.curves [] c).getD i 0 % 4096

/-- Threshold i of a cell (R214). -/
def threshold (s : State) (a x y i : Nat) : Nat :=
  (memRead s.til.arrays (a * 131072 + (y * 128 + x) * 8 + (i - 1))).toNat

/-- The screen level of an input u at a cell: how many thresholds it reaches (R212, stage 5). -/
def screenLevel (s : State) (a x y u : Nat) : Nat :=
  ((List.range 7).filter fun i => decide (threshold s a x y (i + 1) * 256 + 128 ≤ u)).length

/-- Stages 2 to 5 for a value v and donor values with weights: the level, and the stage 2 result (R212). -/
def levelOf (s : State) (e : Nat) (x : Entry) (v col y : Nat) (ds : List (Nat × Nat)) : Nat × Nat :=
  let k := rf s (Reg.TIL_E_KERNEL e) 7 0
  let subEn := rbit s (Reg.TIL_E_KERNEL e) 9
  if k = 2 then
    let lr := rn s (Reg.TIL_E_LREMAP e)
    let s0 := map3 lr (v % 8)
    let sum := if subEn then s0 + (ds.map fun d => (map3 lr (d.1 % 8) * d.2 + 16) / 32).sum else s0
    (min 7 sum, min 7 sum)
  else if k = 3 then (v / 32, v)
  else
    let sv := if k = 0 ∧ subEn then min 255 (v + (ds.map fun d => (d.1 * d.2 + 16) / 32).sum) else v
    let t := curveAt s x.curve.toNat sv
    let u : Int := if rbit s (Reg.TIL_E_KERNEL e) 8 then
        ((t * x.gain.toNat + 512) / 1024 : Nat) + x.offset.toInt
      else (t * 16 : Nat)
    let u1 := (max 0 (min 65535 u)).toNat
    let sc := Reg.TIL_E_SCREEN e
    (screenLevel s (rf s sc 2 0) ((col + rf s sc 14 8) % 128) ((y + rf s sc 22 16) % 128) u1, sv)

/-- The wear phase of a shared column (R239): zero unless both nozzles are wear-eligible. -/
def wearPhase (s : State) (q : ColNozzles) (slot : Nat) : Nat :=
  let idx := fun (n : Nat × Nat) => n.1 * 4096 + n.2
  let ok := fun (n : Nat × Nat) => (entry s (idx n)).status.toNat / 8 % 2 = 1
  match q.sec with
  | some b => if ok q.prim ∧ ok b then rf s (Reg.TIL_E_WEAR (2 * q.prim.1)) 7 0 * slot % 256 else 0
  | none => 0

/-- Stage 8: the nozzle keeps its code on this line (R212, R298). -/
def keeps (s : State) (p e : Nat) (q : ColNozzles) (me : Nat × Nat) (col y slot : Nat) : Bool :=
  match q.sec with
  | none => true
  | some b =>
    let prim := decide (q.prim = me)
    let other := if prim then b else q.prim
    let gone := decide ((entry s (other.1 * 4096 + other.2)).state ≥ 2) ||
      !unmasked s p (plane s p).pass (other.2 / 1024) (other.2 % 1024)
    if gone then true
    else if !rbit s (Reg.TIL_E_KERNEL e) 10 then prim
    else
      let r := (y * 97 + col * 61 + wearPhase s q slot) % 256
      if prim then decide (q.theta ≤ r) else decide (r < q.theta)

/-- Stages 1 to 8 of nozzle n of head h at plane line y under staging line px: the code, and the spit tone q of R236. -/
def stages1to8 (s : State) (p e : Nat) (t : PlaneTable) (h n y slot : Nat) (px : List Nat) : Nat × Nat :=
  match nozzleCol t h n with
  | none => (0, 0)
  | some (col, _) =>
    let x := entry s (h * 4096 + n)
    let v := px.getD col 0
    let ds := (donors s t (h * 4096 + n)).map fun d =>
      (((nozzleCol t (d.1 / 4096) (d.1 % 4096)).map fun c => px.getD c.1 0).getD 0, d.2)
    let lv := levelOf s e x v col y ds
    let k := rf s (Reg.TIL_E_KERNEL e) 7 0
    let q := if k = 2 then lv.2 * 32 else lv.2
    let code := map3 (rn s (Reg.TIL_E_DMAP e)) lv.1
    let c7 := if x.state ≥ 2 then 0 else code
    let c8 := match colNozzles t col with
      | some cn => if keeps s p e cn (h, n) col y slot then c7 else 0
      | none => c7
    (if unmasked s p (plane s p).pass (n / 1024) (n % 1024) then c8 else 0, q)

/-! ## Stages 9 and 10 (R232) -/

/-- The volume of a code for a class (R231). -/
def volume (s : State) (cls code : Nat) : Nat :=
  if code ≤ 4 then rf s (wkey Reg.TIL_VOL_A cls) (8 * code - 1) (8 * code - 8)
  else rf s (wkey Reg.TIL_VOL_B cls) (8 * (code - 4) - 1) (8 * (code - 4) - 8)

/-- Stage 9 (R232, R236): the code after decap, whether it is a spit, and whether decap is exceeded. -/
def stage9 (s : State) (h : Nat) (x : Entry) (col : Nat) (f : BitVec 32) (gap : Bool) (q code : Nat) :
    Nat × Bool × Bool :=
  let b := 2 * h
  let st := x.state
  let age := (f - x.last).toNat
  if st = 3 then (0, false, false)
  else
    let sp := Reg.TIL_E_SPIT b
    let okSpit : Bool :=
      (gap && rbit s sp 3) ||
      (!gap && decide (0 < rf s sp 15 8) && decide (rf s sp 15 8 ≤ q) &&
        decide ((col + f.toNat) % 2 ^ rf s sp 7 5 = 0))
    let spit := decide (code = 0) && decide (st ≤ 1) && decide (x.status.toNat / 16 % 2 = 1) &&
      decide (rf s (Reg.TIL_E_SPIT_AGE b) 23 0 ≤ age) && okSpit
    let c1 := if spit then rf s sp 2 0 else code
    let ta := rf s (Reg.TIL_E_TICKLE b) 23 0
    let tp := rf s (Reg.TIL_E_TICKLE b) 31 24
    let tick := decide (c1 = 0) && rbit s sp 4 && decide (ta ≤ age) && decide ((age - ta) % tp = 0)
    let c2 := if tick then 7 else c1
    let exceeded := (decide (c2 = 0) || decide (c2 = 7)) && decide (age = rf s (Reg.TIL_E_DECAP_AGE b) 23 0)
    (c2, spit, exceeded)

/-- The entry after stage 10 counts a code (R232). -/
def countEntry (s : State) (x : Entry) (f : BitVec 32) (code : Nat) : Entry :=
  if 1 ≤ code ∧ code ≤ 6 then
    Entry.seal { x with
      fires := if x.fires = BitVec.allOnes 48 then x.fires else x.fires + 1,
      last := f, ink := x.ink + BitVec.ofNat 32 (volume s x.volClass.toNat code) }
  else x.seal

/-- The engine's totals count a code, and Tally the ink of its head (R232, R479). -/
def engineCount (e cls code : Nat) (spit : Bool) (s : State) : State :=
  if 1 ≤ code ∧ code ≤ 6 then
    let v := volume s cls code
    let s1 := tallyInk (e / 2) v (inc64 (Reg.TIL_E_INK e) v (inc64 (Reg.TIL_E_DROPS e) 1 s))
    if spit then inc (Reg.TIL_E_SPITS e) 1 s1 else s1
  else if code = 7 then inc64 (Reg.TIL_E_TICKLES e) 1 s
  else s

/-- Stage 10 for a nozzle and its fired or computed code: the engine totals always, the entry unless its CRC is bad
(R225). -/
def stage10 (e i : Nat) (f : BitVec 32) (code : Nat) (spit : Bool) (s : State) : State :=
  let x := entry s i
  let s1 := engineCount e x.volClass.toNat code spit s
  if x.good then
    let y := countEntry s x f code
    let s2 := putEntry i y s1
    if y.fires ≠ x.fires ∧ i ∉ s2.til.changed then
      { s2 with til := { s2.til with changed := i :: s2.til.changed } } else s2
  else s1

/-! ## The shadow of fired windows (R218) -/

/-- A window takes a code at a plane line and column in place of an earlier one; `sec` orders the secondary nozzle after the
primary. -/
def winTake (kilnSide : Bool) (y col : Nat) (sec : Bool) (code : Nat) (w : FiredWin) : FiredWin :=
  if w.x ≤ col ∧ col < w.x + w.w ∧ w.y ≤ y ∧ y < w.y + w.h ∧ w.done = false then
    let q := (y, col, (if sec then 1 else 0), code)
    let other := fun (z : Nat × Nat × Nat × Nat) => decide (z.1 ≠ q.1 ∨ z.2.1 ≠ q.2.1 ∨ z.2.2.1 ≠ q.2.2.1)
    if kilnSide then { w with kiln := q :: w.kiln.filter other } else { w with til := q :: w.til.filter other }
  else w

/-- The Tiller's side of a slot's windows gives up the codes of a row's line, until the codes fired come (R218). -/
def winUntake (p slot h r : Nat) (line : Option Nat) (s : State) : State :=
  match line, (plane s p).table with
  | some y, some t =>
    let cols := (List.range (fittedPositions s h)).filterMap fun pos => nozzleCol t h (r * 1024 + pos)
    let mine := fun (z : Nat × Nat × Nat × Nat) => decide (z.1 = y) && cols.any fun c => decide (z.2.1 = c.1 ∧ z.2.2.1 = if c.2 then 0 else 1)
    updPlane p (fun g => { g with wins := g.wins.map fun w =>
      if w.slot = slot then { w with til := w.til.filter fun z => !mine z } else w }) s
  | _, _ => s

/-! ## Density maps (R387, R388) -/

/-- dm[P][k], the density of a code on a plane. -/
def densityOf (s : State) (p code : Nat) : Nat :=
  if code < 4 then rf s (wkey Reg.WIN_PL_DM0 p) (8 * code + 7) (8 * code)
  else rf s (wkey Reg.WIN_PL_DM1 p) (8 * code - 25) (8 * code - 32)

/-- Add a density to a column of a bin; a new bin overwrites the oldest of a full ring. -/
def ringAdd (slot bin size col d : Nat) (g : DensRing) : DensRing :=
  let mine := fun (b : DensBin) => decide (b.slot = slot ∧ b.bin = bin ∧ b.size = size)
  if g.bins.any mine then
    { g with bins := g.bins.map fun b => if mine b then { b with acc := tput b.acc col (tget b.acc 0 col + d) } else b }
  else { g with bins := (⟨slot, bin, size, [(col, d)]⟩ :: g.bins).take g.depth }

/-- A code fired at page line y of a copy's slot enters the plane's density map. -/
def densityAdd (p slot y col code : Nat) (s : State) : State :=
  match tfind s.win.rings p, slotCopy s p slot with
  | some g, some c => match findCopy s c with
    | some x =>
      if y < x.page0.height then
        let size := rf s Reg.WIN_BIN 3 0
        { s with win := { s.win with rings := tput s.win.rings p (ringAdd slot (y / size) size col (densityOf s p code) g) } }
      else s
    | none => s
  | _, _ => s

/-- A code of nozzle n of head h at plane line y enters one side of the plane's fired windows of its slot (R218, R270), and on Kiln's
side, as it is fired, the density map (R387). -/
def winCode (kilnSide : Bool) (p slot h n : Nat) (line : Option Nat) (code : Nat) (s : State) : State :=
  match line, (plane s p).table with
  | some y, some t => match nozzleCol t h n with
    | some (col, prim) =>
      let take := fun (w : FiredWin) => if w.slot = slot then winTake kilnSide y col (!prim) code w else w
      let s1 := updPlane p (fun g => { g with wins := g.wins.map take }) s
      if kilnSide then densityAdd p slot y col code s1 else s1
    | none => s
  | _, _ => s

/-! ## A row-line (R204, R235) -/

/-- One nozzle of a row-line: R225's check, the stages, and what is kept for a reversal. -/
def nozzleLine (p e h r : Nat) (t : PlaneTable) (f : BitVec 32) (y slot : Nat) (line : Option Nat) (gap : Bool)
    (px : List Nat) (pos : Nat) (acc : State × List (Nat × Nat) × List Undo) : State × List (Nat × Nat) × List Undo :=
  let (s, codes, undo) := acc
  let n := r * 1024 + pos
  let i := h * 4096 + n
  let x := entry s i
  if !x.good then
    let s1 := raiseIrq (pgTilE e) 7 (event 0x3004 none
      (le 4 (pressNozzle s i) ++ le 4 x.crc.toNat ++ le 4 (crc8 (entryBytes x)).toNat)
      (inc (Reg.TIL_E_ENTRY_CRC_CNT e) 1 s))
    (winCode false p slot h n line 0 s1, (pos, 0) :: codes, undo)
  else
    let cq := if gap then (0, 0) else stages1to8 s p e t h n y slot px
    let col := ((nozzleCol t h n).map (·.1)).getD 0
    let (code, spit, exceeded) := stage9 s h x col f gap cq.2 cq.1
    let s1 := if exceeded then raiseIrq (pgTilE e) 6 (event 0x3003 none
        (le 4 (pressNozzle s i) ++ le 4 (rf s (Reg.TIL_E_DECAP_AGE (2 * h)) 23 0)) (inc (Reg.TIL_E_DECAP_CNT e) 1 s))
      else s
    let s2 := stage10 e i f code spit s1
    (winCode false p slot h n line code s2, (pos, code) :: codes,
      if code = 0 then undo else ⟨i, code, volume s x.volClass.toNat code, spit, x.last⟩ :: undo)

/-- The split a row-line runs under: the one it began with, or the one in force (R199, R201). -/
def lineSplit (s : State) (h r : Nat) (f : BitVec 32) : Nat :=
  match (row s h r).fifo.find? fun z => decide (z.f = f) with
  | some z => z.split
  | none => split s h

/-- Put codes into a row's list by position. -/
def placeCodes (codes : List Nat) (cs : List (Nat × Nat)) : List Nat :=
  codes.zipIdx.map fun q => ((cs.find? fun c => c.1 = q.2).map (·.2)).getD q.1

/-- Engine e runs its part of the row-line of running line f, and the sheaf takes the codes; when every engine that serves
the row has run, the row's next running line follows. -/
def runRowLine (p e r : Nat) (t : PlaneTable) (f : BitVec 32) (line : Option Nat) (gap : Bool) (slot : Nat) (px : List Nat)
    (s : State) : State :=
  let h := e / 2
  let v := lineSplit s h r f
  let res := (servedAt s v e r).foldl (fun acc pos => nozzleLine p e h r t f (line.getD 0) slot line gap px pos acc)
    (s, [], [])
  let s1 := res.1
  let others := (rowEngines s v h r).filter (· ≠ e)
  let add := fun (z : Sheaf) => if z.f = f then
      { z with codes := placeCodes z.codes res.2.1, missing := z.missing.filter (· ≠ e), undo := res.2.2 ++ z.undo,
               doneAt := now s } else z
  let fresh : Sheaf := { f, line, gap, slot, codes := placeCodes (List.replicate (fittedPositions s h) 0) res.2.1,
                         missing := others, undo := res.2.2, doneAt := now s, ready := 0, split := v }
  updRow h r (fun g =>
    let fifo := if g.fifo.any (fun x => decide (x.f = f)) then g.fifo.map add else g.fifo ++ [fresh]
    { g with fifo := fifo,
             nextF := if fifo.all (fun x => decide (x.f ≠ f) || x.missing.isEmpty) then f + 1 else g.nextF }) s1

end Sys2Proof.Machine
end

