-- ==== Sys2Proof/Machine/Press.lean ====
section
/-! DEFINITION. What the press's units share: parked commands that wait for heads, planes or axes, head ports, position
channels, axes, and power (spec/12 to spec/14, spec/23). -/

namespace Sys2Proof.Machine
open Sys2Proof

/-! ## Parked commands -/

/-- The parked command with an order number. -/
def findParked (s : State) (seq : Nat) : Option Parked := s.fw.parked.find? fun p => p.h.seq = seq

/-- Complete a parked command by its order number. -/
def completeSeq (seq status result : Nat) (s : State) : State :=
  match findParked s seq with
  | some p => complete p.h status result s
  | none => s

/-- Complete a parked command, when one is named. -/
def completeOpt (o : Option Nat) (status result : Nat) (s : State) : State :=
  match o with
  | some seq => completeSeq seq status result s
  | none => s

/-- Keys of what commands wait for: an axis at standstill, a plane STOPPED, a head at power-good, an axis admitted. -/
def keyAxis (a : Nat) : Nat := 0x100 + a
def keyPlane (p : Nat) : Nat := 0x200 + p
def keyHead (h : Nat) : Nat := 0x300 + h
def keyAdmit (a : Nat) : Nat := 0x400 + a

/-- What a parked command waits for has come: one that waits for nothing more completes, with the result `result`
gives. -/
def arrive (key : Nat) (result : State → Nat) (s : State) : State :=
  let due := s.fw.parked.filter fun p => p.waits.contains key
  due.foldl (fun t p =>
    match findParked t p.h.seq with
    | some q =>
      let w := q.waits.filter (· ≠ key)
      if w = [] then complete q.h 0 (result t) t else
        { t with fw := { t.fw with parked := t.fw.parked.map fun x => if x.h.seq = q.h.seq then { x with waits := w } else x } }
    | none => t) s

/-- What parked commands wait for has come; they complete by a command of their own (KILN_STOP_DONE and its like). -/
def noteArrival (key : Nat) (s : State) : State :=
  { s with fw := { s.fw with parked := s.fw.parked.map fun q => { q with waits := q.waits.filter (· ≠ key) } } }

/-- A plane has reached STOPPED: KILN_STOP commands that wait for it note it (R246). -/
def planeStopped (p : Nat) (s : State) : State := noteArrival (keyPlane p) s

/-- The parked commands with a key in their waits. -/
def waiters (s : State) (key : Nat) : List Parked := s.fw.parked.filter fun p => p.waits.contains key

/-! ## Head ports -/

/-- A head port after reset: OFF, power low. -/
def Port.init : Port :=
  { link := .off, align := 0, good := 0, cand := 0, bad := 0, descr := false, scr := [1, 1], rxScr := 0, slot := 0,
    since := [0, 0], frames := [], descs := [], fires := 0, bank := 0, fills := [], ready := false, descWait := [], swapNext := false,
    swapDue := none, pwren := false, powerAt := 0, pg := false, pgSeen := false, fltLow := false, fltHighSince := 0,
    busyUntil := 0, stale := false, drvReady := false, temps := List.replicate 8 0, tempValid := List.replicate 8 false,
    tempArmed := true, latched := false, cause := 0, reject := false }

def port (s : State) (h : Nat) : Port := tget s.ports Port.init h

def putPort (h : Nat) (x : Port) (s : State) : State := { s with ports := tput s.ports h x }

def updPort (h : Nat) (f : Port → Port) (s : State) : State := putPort h (f (port s h)) s

/-- HLK_CTRL.MODE in force (R306). -/
def portMode (s : State) (h : Nat) : Nat := rf s (Reg.HLK_CTRL h) 1 0

/-- A head counts as enabled (R306). -/
def headEnabled (s : State) (h : Nat) : Bool :=
  decide (portMode s h = 1 ∨ portMode s h = 2) && (getPage s (pgHlk h)).en

/-- A head can receive sheaves and fire: its link is UP or DIRECT and no head fault is latched (R319,
R324), and the master delay loop is locked (R519). -/
def headLive (s : State) (h : Nat) : Bool :=
  s.clk.dllLock && decide ((port s h).link = .up ∨ (port s h).link = .direct) && !(port s h).latched

/-- Heads whose PWREN is high and that are at power-good, as a mask. -/
def poweredMask (s : State) : Nat :=
  ((List.range 64).map fun h => if (port s h).pwren && (port s h).pg then 2 ^ h else 0).sum

/-- The SCLK period of direct mode in fire timebase units (R321). -/
def sclk (s : State) (h : Nat) : Nat := 1024 / 2 ^ rf s (Reg.HLK_CTRL h) 3 2

/-- Codes shifted per row sheaf (R255). -/
def hAct (s : State) (h : Nat) : Nat := rf s (Reg.HLK_KLN_HACT h) 10 0

/-- Forward frames of a sheaf: ceil(3 × H_ACTIVE ÷ 464) (R256). -/
def sheafFrames (s : State) (h : Nat) : Nat := (3 * hAct s h + 463) / 464

/-- The shift time of a sheaf in fire timebase units (R256, R321). -/
def shiftTime (s : State) (h : Nat) : Nat :=
  if portMode s h = 2 then (3 * hAct s h + 4) * sclk s h else sheafFrames s h * 4096

/-- The shift time of a sheaf in picoseconds as R263 uses it, with the direct-mode shift of R321 in its place. -/
def shiftPs (s : State) (h : Nat) : Nat :=
  if portMode s h = 2 then (3 * hAct s h + 4) * (40000 / 2 ^ rf s (Reg.HLK_CTRL h) 3 2) else sheafFrames s h * 160000

/-! ## Position channels -/

/-- A position channel after reset. -/
def PifCh.init : PifCh :=
  { enabled := false, pos := 0, vel := 0, hist := [], ts := 0, prevTs := 0, prevPos := 0, ang := 0, a := ⟨false, false, 0⟩,
    b := ⟨false, false, 0⟩, ampRun := 0, ampBad := false, overBad := false, extreme := 0, dir := false, ref := none,
    missed := 0, run := 0, corr := none, minA := none, minS := none, maxS := none, minC := none, maxC := none }

def pif (s : State) (c : Nat) : PifCh := tget s.pif PifCh.init c

def updPif (c : Nat) (f : PifCh → PifCh) (s : State) : State := { s with pif := tput s.pif c (f (pif s c)) }

/-- Positions count modulo 2^48 (R329). -/
def posMod : Nat := 2 ^ 48

/-- A 48-bit position moved by a difference. -/
def posAdd (p : Nat) (d : Int) : Nat := unsigned 48 ((p : Int) + d)

/-- The signed difference of two 48-bit positions. -/
def posSub (a b : Nat) : Int := signed 48 (unsigned 48 ((a : Int) - b))

/-- A latched fault bit of PIF_C_STAT. -/
def pifFault (s : State) (c : Nat) : Bool := rf s (Reg.PIF_C_STAT c) 5 3 ≠ 0

/-- VALID (R332). -/
def pifValid (s : State) (c : Nat) : Bool := (pif s c).enabled && !pifFault s c

/-- Apply the pending corrections of the channels that follow plane p's latch (R335). -/
def applyCorrections (p slot : Nat) (s : State) : State :=
  (List.range 4).foldl (fun t c =>
    match (pif t c).corr with
    | some e =>
      if rf t (Reg.PIF_C_CFG c) 11 8 = p then
        let t1 := updPif c (fun g => { g with pos := posAdd g.pos (-e), corr := none }) t
        raiseIrq (pgPif c) 7 (event 0x5004 none (le 1 c ++ le 4 (unsigned 32 e) ++ le 1 p ++ le 4 slot) t1)
      else t
    | none => t) s

/-- A pending correction of a channel whose latch plane is STOPPED applies at once (R335). -/
def idleCorrection (c : Nat) (s : State) : State :=
  let p := rf s (Reg.PIF_C_CFG c) 11 8
  if (plane s p).state = .stopped then applyCorrections p noSlot s else s

/-! ## Axes -/

/-- An axis after reset. -/
def Axis.init : Axis :=
  { state := .disabled, homed := false, retained := none, move := none, feedWait := none, pos := 0,
    vel := 0, acc := 0, ts := 0, stop := .none, lastDir := true, lastStep := 0, phA := ⟨0, 0, 0, 0, false⟩,
    phB := ⟨0, 0, 0, 0, false⟩, duties := [], lm := 0, scale := 256, scaleRun := 0, stallRun := 0, held := false,
    applied := false, limN := false, limP := false, homeIn := false, fbRef := (0, 0), gates := [] }

def axis (s : State) (a : Nat) : Axis := tget s.mot.axes Axis.init a

def updAxis (a : Nat) (f : Axis → Axis) (s : State) : State :=
  { s with mot := { s.mot with axes := tput s.mot.axes a (f (axis s a)) } }

/-- MOT_A_STAT.STATE codes. -/
def AxisState.code : AxisState → Nat
  | .disabled => 0 | .enabling => 1 | .standstill => 2 | .moving => 3 | .stopping => 4 | .fault => 5 | .tripped => 6

/-- States in which the axis may drive its outputs (spec/14, axis states). -/
def AxisState.driven : AxisState → Bool
  | .standstill | .moving | .stopping => true
  | .disabled | .enabling | .fault | .tripped => false

/-- The commanded position in counts. -/
def Axis.counts (x : Axis) : Int := divF x.pos (2 ^ 32)

/-- An axis position as the result bytes 16 to 23 of a completion (spec/05). -/
def posRes (x : Axis) : Nat := res 16 (unsigned 64 x.counts)

/-- An axis changes state (MOT_STATE). -/
def setAxis (a : Nat) (st : AxisState) (s : State) : State :=
  let old := (axis s a).state
  if old = st then s
  else raiseIrq (pgMot a) 5 (event 0x5102 none (le 1 a ++ le 1 old.code ++ le 1 st.code)
    (updAxis a (fun x => { x with state := st, gates := if st.driven then x.gates else [] }) s))

/-- Discard a retained move (R352). -/
def dropRetained (a : Nat) (s : State) : State :=
  wn64 (Reg.MOT_A_REMAIN a) 0 (updAxis a (fun x => { x with retained := none }) s)

/-- The command a motion belongs to. -/
def moveCmd (x : Axis) : Option Nat := match x.move with | some m => m.cmd | none => none

/-- The motion is a homing sequence. -/
def homing (x : Axis) : Bool := match x.move with
  | some m => match m.kind with | .home .. => true | _ => false
  | none => false

/-- A fault bit of MOT_A_FAULT is set (R357). -/
def axisFaults (s : State) (a : Nat) : Nat := rf s (Reg.MOT_A_FAULT a) 4 0

/-- A fault bit latches: it is posted, and a retained move is discarded (R352). -/
def latchAxis (a bit : Nat) (s : State) : State :=
  if rbit s (Reg.MOT_A_FAULT a) bit then s
  else
    let s1 := dropRetained a (wf (Reg.MOT_A_FAULT a) bit bit 1 s)
    raiseIrq (pgMot a) 4 (event 0x5101 none
      (le 1 a ++ le 4 (axisFaults s1 a) ++ le 8 (unsigned 64 (axis s1 a).counts) ++ le 8 (stamp s1).toNat) s1)

/-- HOMED clears. -/
def unhome (a : Nat) (s : State) : State := updAxis a (fun x => { x with homed := false }) s

/-- Start a motion: the scale returns to 256 at the start of every move (R349), standstill ends (R356). -/
def startMove (a : Nat) (m : Move) (s : State) : State :=
  setAxis a .moving (updAxis a (fun x => { x with
    move := some m, stop := .none, vel := 0, acc := 0, ts := now s, scale := 256, scaleRun := 0, stallRun := 0,
    duties := [], held := false, applied := false }) s)

/-- A motion is over: the axis is at standstill, its command completes with result r, and commands that wait for
its standstill note it; a feed that waited starts (R356, R363). -/
def endMove (a status r : Nat) (s : State) : State :=
  let x := axis s a
  let s1 := updAxis a (fun y => { y with move := none, stop := .none, vel := 0, acc := 0, held := true }) s
  let s2 := setAxis a .standstill s1
  let s3 := completeOpt (moveCmd x) status r s2
  let s4 := arrive (keyAxis a) (fun _ => 0) s3
  match x.feedWait with
  | some d => startMove a ⟨.feed, x.counts + d, 0, none⟩ (updAxis a (fun y => { y with feedWait := none }) s4)
  | none => s4

/-- Kiln starts a relative feed move (R299, R363): true when it was discarded. -/
def startFeed (a : Nat) (d : Int) (s : State) : Bool × State :=
  match (axis s a).state with
  | .standstill => (false, startMove a ⟨.feed, (axis s a).counts + d, 0, none⟩ s)
  | .moving | .stopping => (false, updAxis a (fun x => { x with feedWait := some d }) s)
  | _ => (true, s)

/-- The axis has settled: at standstill with no feed waiting. -/
def settled (s : State) (a : Nat) : Bool := decide ((axis s a).state = .standstill) && decide ((axis s a).feedWait = none)

/-- A trip latch takes an axis down (R361). -/
def tripAxis (a : Nat) (s : State) : State :=
  let x := axis s a
  let s1 := { s with mot := { s.mot with queue := s.mot.queue.filter (·.1 ≠ a) } }
  let s2 := updAxis a (fun y => { y with move := none, stop := .none, vel := 0, acc := 0, homed := false, feedWait := none,
                                         phA := { y.phA with duty := 0 }, phB := { y.phB with duty := 0 } })
    (dropRetained a s1)
  arrive (keyAxis a) (fun _ => 0) (completeOpt (moveCmd x) 0x0206 (posRes x) (setAxis a .tripped s2))

/-! ## Power -/

/-- The segment a head belongs to (R543). -/
def segmentOf (s : State) (h : Nat) : Option Nat :=
  (List.range 16).find? fun g => tget s.pwr.segments 0 g / 2 ^ h % 2 = 1

/-- A trip latch covers a head's segment (R290). -/
def trip (s : State) (i : Nat) : Trip := tget s.kln.trips ⟨false, false, none, false⟩ i

def tripCoversSegment (s : State) (g : Nat) : Bool :=
  (List.range 4).any fun i => (trip s i).latched && rbit s (Reg.KLN_TRIP_MAP i) (16 + g)

/-- A trip latch covers a plane (R291). -/
def tripCoversPlane (s : State) (p : Nat) : Bool :=
  (List.range 4).any fun i => (trip s i).latched && rbit s (Reg.KLN_TRIP_MAP i) p

/-- A trip latch covers an axis (R360). -/
def tripCoversAxis (s : State) (a : Nat) : Bool :=
  (List.range 4).any fun i => (trip s i).latched && rbit s (Reg.MOT_TRIP_MAP i) a

/-- PWREN of a head goes low: power-good ends; a Tally slot whose last powered head this was gets its CLOSE record (R480). -/
def headOff (h : Nat) (s : State) : State :=
  let s1 := updPort h (fun x => { x with pwren := false, pg := false, pgSeen := false }) s
  if (port s h).pwren then
    ((tlyEnabled s).filter fun i => decide (tlyHeads s i / 2 ^ h % 2 = 1) &&
      (List.range 64).all fun g => decide (tlyHeads s i / 2 ^ g % 2 = 0) || !(port s1 g).pwren).foldl
        (fun t i => tallyClose i t) s1
  else s1

/-- The queued enables of a command are withdrawn (R545). -/
def withdrawCmd (c : Option Nat) (s : State) : State :=
  { s with pwr := { s.pwr with queue := s.pwr.queue.filter (·.cmd ≠ c) } }

end Sys2Proof.Machine
end

