-- ==== Sys2Proof/Machine/Store.lean ====
section
/-! DEFINITION. The entry changes a latch applies, and waveform variants (R226 to R234, R313). -/

namespace Sys2Proof.Machine
open Sys2Proof

/-! ## Entries at a latch (R225, R227, R234) -/

/-- Bytes 0 to 13 of an entry: its configuration. -/
def Entry.cfgBytes (e : Entry) : List Byte := (entryBytes e).take 14

/-- Replace bytes 0 to 13. -/
def Entry.withCfg (e c : Entry) : Entry :=
  { e with gain := c.gain, offset := c.offset, curve := c.curve, status := c.status, variant := c.variant,
           volClass := c.volClass, subA := c.subA, subB := c.subB }

/-- f − SPIT_AGE of a head (R234). -/
def dryLine (s : State) (h : Nat) (f : BitVec 32) : BitVec 32 :=
  f - BitVec.ofNat 32 (rf s (Reg.TIL_E_SPIT_AGE (2 * h)) 23 0)

/-- Nozzles whose fire count changes between snapshots (R240). -/
def noteChanged (i : Nat) (s : State) : State :=
  if i ∈ s.til.changed then s else { s with til := { s.til with changed := i :: s.til.changed } }

/-- The entry after a pending record applies (R227). -/
def appliedEntry (s : State) (f : BitVec 32) (q : PendEntry) : Entry :=
  let e := (entry s q.nozzle).withCfg q.cfg
  Entry.seal (if q.newHead then { e with fires := 0, ink := 0, last := dryLine s (q.nozzle / 4096) f }
    else e)

/-- Split a list into pieces of at most `k`, with fuel. -/
def chunks {α : Type} (k : Nat) : Nat → List α → List (List α)
  | 0, _ => []
  | _, [] => []
  | n + 1, l => l.take k :: chunks k n (l.drop k)

/-! ## Waveform variants (R313) -/

/-- The variants of a head's nozzles; `withPend` takes the pending entry changes in. -/
def variantsOf (s : State) (h : Nat) (withPend : Bool) : List Nat :=
  (List.range 4096).map fun n =>
    let i := h * 4096 + n
    let q := if withPend then (s.til.pend.filter fun q => q.nozzle = i).getLast? else none
    (match q with | some x => x.cfg.variant | none => (entry s i).variant).toNat % 4

/-- Kiln starts, or starts again, to fill the bank not in use with the pending variants. -/
def startFill (h : Nat) (s : State) : State :=
  let x := port s h
  if portMode s h = 1 ∧ x.link = .up then
    putPort h { x with
      ready := false, fills := x.fills.filter (fun b => b.bank = x.bank) ++ [⟨1 - x.bank, 0, variantsOf s h true⟩] } s
  else s

/-- A latch applies changes of byte 6 of a head: the next descriptor swaps banks, or the swap is late. -/
def variantLatch (h : Nat) (f : BitVec 32) (slot : Nat) (s : State) : State :=
  let x := port s h
  if portMode s h = 1 ∧ x.link = .up then
    putPort h (if x.ready then { x with swapNext := true } else { x with swapDue := some (f, slot) }) s
  else s

/-- The accepted gains of the heads a test admits apply before any NOZZLE_WRITE (R405, R406): entries are written and sealed, but for those
whose byte 28 disagrees, which only a NOZZLE_WRITE or a restore makes good (R225); the gains join the calibration buffer, and the planes load
CAL_PL_LAST_SLOT. -/
def applyGains (heads : Nat → Bool) (slot : Nat) (s : State) : State :=
  let due := s.cal.waiting.filter fun q => heads (q.2.1 / 4096)
  let give := fun (i v : Nat) (t : State) =>
    if (entry t i).good then putEntry i (Entry.seal { entry t i with gain := BitVec.ofNat 16 v }) t else t
  let s1 := due.foldl (fun t q => give q.2.1 q.2.2 { t with crk := { t.crk with cal := tput t.crk.cal q.2.1 (q.1, q.2.2), calSlot := tput t.crk.calSlot q.1 slot } })
    { s with cal := { s.cal with waiting := s.cal.waiting.filter fun q => !heads (q.2.1 / 4096) } }
  (due.map (·.1)).eraseDups.foldl (fun t p => wn (wkey Reg.CAL_PL_LAST_SLOT p) slot t) s1

/-- The open glean window of a plane is discarded; a calibrating plane opens a new one (R402). -/
def discardWindow (p : Nat) (s : State) : State := { s with gln := { s.gln with wins := tdel s.gln.wins p } }

/-- A record changes the state or the substitutes of its nozzle. -/
def changesUse (s : State) (q : PendEntry) : Bool :=
  let e := entry s q.nozzle
  decide (e.status.toNat % 8 ≠ q.cfg.status.toNat % 8 ∨ e.subA ≠ q.cfg.subA ∨ e.subB ≠ q.cfg.subB)

/-- The pending entries of the heads a test admits apply, but where a hold of the head's even engine page keeps them (R127), and their
bytes 0 to 13 go to Crock as CONFIG records of at most 49 entries for the command that wrote them (R227, R488). -/
def applyEntries (among : Nat → Bool) (f : BitVec 32) (slot : Nat) (s0 : State) : State :=
  let s := applyGains among slot s0
  let takes := fun (q : PendEntry) => among (q.nozzle / 4096) && ripe s slot q.cycle &&
    (q.cmd.isNone || !heldAt s (pgTilE (2 * (q.nozzle / 4096))) slot)
  let due := s.til.pend.filter takes
  let used := ((due.filter fun q => q.cmd.isSome && changesUse s q).filterMap fun q => planeOfHead s (q.nozzle / 4096)).eraseDups
  let s1 := due.foldl (fun t q => putEntry q.nozzle (appliedEntry t f q)
      (if q.newHead && decide ((entry t q.nozzle).fires ≠ 0) then noteChanged q.nozzle t else t))
    { s with til := { s.til with pend := s.til.pend.filter fun q => !takes q } }
  let vars := ((due.filter fun q => (entry s q.nozzle).variant ≠ q.cfg.variant).map (·.nozzle / 4096)).eraseDups
  let s2 := used.foldl (fun t p => discardWindow p t) (vars.foldl (fun t h => variantLatch h f slot t) s1)
  let cmds := (due.filterMap (·.cmd)).eraseDups
  cmds.foldl (fun t c =>
    let es := (due.filter fun q => q.cmd = some c).map fun q => (q.nozzle, (entry t q.nozzle).cfgBytes)
    let mine := es.map (·.1 / 4096)
    let t1 := (chunks 49 es.length es).foldl (fun u l => crkSubmit (.config l) (some c) none u) t
    { t1 with fw := { t1.fw with parked := t1.fw.parked.map fun q => if q.h.seq = c then
        { q with slot := BitVec.ofNat 32 slot, pages := q.pages.filter fun n => n < 0x20000 || !mine.contains (n - 0x20000) }
        else q } }) s2

end Sys2Proof.Machine
end

