-- ==== Sys2Proof/Machine/Pacing.lean ====
section
/-! DEFINITION. Pace channels, prediction, FIRE edges, underrun, line crossings and the frame latch (spec/10, spec/11). -/

namespace Sys2Proof.Machine
open Sys2Proof

/-! ## Channels -/

def channel (s : State) (k : Nat) : Channel := tget s.kln.channels ⟨[], [], 0, false, 0, false, none, 0⟩ k

def updChannel (k : Nat) (f : Channel → Channel) (s : State) : State :=
  { s with kln := { s.kln with channels := tput s.kln.channels k (f (channel s k)) } }

/-- KLN_PC_CFG.SRC (R274). -/
def pcSrc (s : State) (k : Nat) : Nat := rf s (Reg.KLN_PC_CFG k) 2 0

/-- KLN_PC_CFG.SUBSEL. -/
def pcSub (s : State) (k : Nat) : Nat := rf s (Reg.KLN_PC_CFG k) 6 4

/-- KLN_PC_CFG.AVG. -/
def pcAvg (s : State) (k : Nat) : Nat := rf s (Reg.KLN_PC_CFG k) 11 10

/-- The channel a plane follows (KLN_P_PACE_CFG.CH). -/
def planeChan (s : State) (p : Nat) : Nat := rf s (Reg.KLN_P_PACE_CFG p) 1 0

/-- Steps the period estimate uses: min(2^AVG, entries in history − 1) (R278). -/
def histSteps (avg : Nat) (ts : List Nat) : Nat := min (2 ^ avg) (ts.length - 1)

/-- The step period in 1/256 unit; none without an estimate (R278). -/
def tperOf (avg : Nat) (ts : List Nat) : Option Nat :=
  let n := histSteps avg ts
  if n = 0 then none else some (min 0xFFFFFFFF ((ts.getD 0 0 - ts.getD n 0) * 256 / n))

/-- The pause time of a channel: max(2 × tper ÷ 256, PAUSE_MIN) (R278). -/
def pauseTime (s : State) (k : Nat) : Nat :=
  let pm := rf s (Reg.KLN_PC_PAUSE k) 15 0 * us
  match tperOf (pcAvg s k) (channel s k).ts with
  | some t => max (2 * t / 256) pm
  | none => pm

/-! ## Prediction (R278) -/

/-- The latest pair of steps of the history that brackets a target and ran along the sense. -/
def bracket (sense xt : Int) : List Nat → List Int → Option (Nat × Int × Nat × Int)
  | t0 :: t1 :: ts, x0 :: x1 :: xs =>
    if 0 < sense * (xt - x1) ∧ 0 < sense * (x0 - x1) then some (t0, x0, t1, x1)
    else bracket sense xt (t1 :: ts) (x1 :: xs)
  | _, _ => none

/-- The predicted instant at which the position reaches xt. -/
def predict (avg : Nat) (ts : List Nat) (xs : List Int) (sense xt : Int) : Option Int :=
  match ts, xs with
  | t0 :: _, x0 :: _ =>
    let d := sense * (xt - x0)
    if d ≤ 0 then
      match bracket sense xt ts xs with
      | some (ti, xi, tj, xj) =>
        let dx := sense * (xi - xj)
        some (tj + divF (sense * (xt - xj) * ((ti : Int) - tj) + divF dx 2) dx)
      | none => some (ts.getLastD t0)
    else
      let n := histSteps avg ts
      let dx := sense * (x0 - xs.getD n x0)
      if n = 0 ∨ dx ≤ 0 then none
      else some (t0 + divF (d * ((t0 : Int) - ts.getD n 0) + divF dx 2) dx)
  | _, _ => none

/-- A signed trim field. -/
def strim (w v : Nat) : Int := signed w v

/-- RTRIM[r] of a head. -/
def rtrim (s : State) (h r : Nat) : Int :=
  let k := if r < 2 then Reg.HLK_KLN_RTRIM01 h else Reg.HLK_KLN_RTRIM23 h
  strim 16 (rf s k (16 * (r % 2) + 15) (16 * (r % 2)))

/-- The plane's current pass runs in reverse. -/
def inReverse (s : State) (p : Nat) : Bool := decide ((plane s p).sense < 0)

/-- PTRIM + HTRIM + RTRIM[r] in 1/65,536 line; in a reverse pass PTRIM is KLN_P_REV_TRIM, and in mode 1 the head's trims
change sign (R279, R281, R300, R301). -/
def trims (s : State) (p h r : Nat) : Int :=
  let head := strim 16 (rf s (Reg.HLK_KLN_TRIM h) 15 0) + rtrim s h r
  if inReverse s p then
    strim 20 (rf s (Reg.KLN_P_REV_TRIM p) 19 0) +
      (if rf s (Reg.KLN_P_PACE_CFG p) 5 4 = 1 then -head else head)
  else strim 20 (rf s (Reg.KLN_P_TRIM p) 19 0) + head

/-- The predicted FIRE leading edge of row r of head h on running line f (R279). -/
def edgeTime (s : State) (p h r : Nat) (f : BitVec 32) : Option Int :=
  let g := plane s p
  let k := planeChan s p
  let b := g.lastB + g.sense * runDist f g.runline * 2 ^ 32
  let xt := b + g.sense * trims s p h r * 65536
  (predict (pcAvg s k) (channel s k).ts g.xs g.sense xt).map fun tx =>
    tx - rf s (Reg.KLN_P_FLIGHT p) 15 0 - rf s (Reg.HLK_KLN_FIRE h) 15 0

/-- The predicted instant of a running line's crossing. -/
def lineTime (s : State) (p : Nat) (f : BitVec 32) : Option Int :=
  let g := plane s p
  let k := planeChan s p
  predict (pcAvg s k) (channel s k).ts g.xs g.sense (g.lastB + g.sense * runDist f g.runline * 2 ^ 32)

/-- The leading edge of a running line: armed or eligible, or as predicted. -/
def edgeOf (s : State) (p h r : Nat) (f : BitVec 32) : Option Int :=
  match (row s h r).edges.find? fun e => e.f = f with
  | some e => some (e.instant : Int)
  | none => if (plane s p).paused then none else edgeTime s p h r f

/-! ## Frames of running lines -/

/-- A running line lies on or after the plane's next latch: it belongs to the frame that latch opens. -/
def beyondLatch (s : State) (p : Nat) (f : BitVec 32) : Bool := decide (0 ≤ runDist f (nextLatch s p))

/-- The slot and copy of the frame a running line belongs to; no slot in LEAD_IN and for its lines, and no copy yet for a frame still to open
(R261). -/
def frameOfLine (s : State) (p : Nat) (f : BitVec 32) : Nat × Option Nat :=
  let g := plane s p
  match g.slot with
  | none => (noSlot, none)
  | some n =>
    if beyondLatch s p f then (g.nextSlot, none)
    else if 0 ≤ runDist f g.latchRun then (n, g.copy)
    else if 2 ≤ g.frames then (n - 1, g.prevCopy)
    else (noSlot, none)

/-- The slot whose plane line a row fires on a running line: with a line of the frame closed before the open one its slot, even past the
latch (R206); else that of the frame the running line belongs to. -/
def screenSlot (s : State) (p h r : Nat) (f : BitVec 32) : Nat :=
  match lineKind s p h r f, (plane s p).slot with
  | .active _ st, some n => if st then n - 1 else n
  | _, _ => (frameOfLine s p f).1

/-! ## Underrun (R257 to R261) -/

/-- The codes a repeat would fire: those of the row's latest row-line still to fire, or its held codes (R258). -/
def heldCodes (g : Row) : List Nat :=
  match g.under.getLast?, g.tx.getLast? with
  | some u, _ => u.codes
  | none, some x => x.codes
  | none, none => g.held

/-- Take a row-line out of the row: its sheaf is discarded, what it counted is owed a reversal, and a fill row-line over the
codes fired is owed by every engine that serves the row (R259, R260). -/
def replaceLine (p h r : Nat) (f : BitVec 32) (codes : List Nat) (s : State) : State :=
  let g := row s h r
  let old := (g.fifo ++ g.tx).find? fun x => x.f = f
  let v := match old with | some x => x.split | none => split s h
  let engines := rowEngines s v h r
  let slot := match old with | some x => x.slot | none => screenSlot s p h r f
  let line := match old with
    | some x => x.line
    | none => match lineKind s p h r f with | .active y _ => some y | _ => none
  let done : List Nat := match old with | some x => engines.filter fun e => !x.missing.contains e | none => []
  let undo : List Undo := (old.map (·.undo)).getD []
  winUntake p slot h r line (updRow h r (fun g => { g with
      fifo := g.fifo.filter (·.f ≠ f), tx := g.tx.filter (·.f ≠ f),
      reversals := if done = [] then g.reversals else g.reversals ++ [⟨f, undo, done, v⟩],
      fills := g.fills ++ [⟨f, codes, line, line.isNone, slot, engines, v, done, []⟩],
      nextF := if g.nextF = f then f + 1 else g.nextF }) s)

/-- Count an underrun row-line, flag its copy, or the frame still to open, and post the head's first one in the frame (R261). -/
def countUnderrun (p h r : Nat) (f : BitVec 32) (mode : Nat) (s : State) : State :=
  let fr := frameOfLine s p f
  let line := match lineKind s p h r f with | .active y _ => y | _ => 0xFFFFFFFF
  let s1 := wn (wkey Reg.KLN_H_MARGIN_MIN h) 0
    (inc (Reg.KLN_P_UNDERRUN_CNT p) 1 (inc (wkey Reg.KLN_H_UNDERRUN_CNT h) 1 s))
  let s2 := flagCopy fr.2 (fun c => { c with underrun := true })
    (if beyondLatch s p f then updPlane p (fun g => { g with underNext := true }) s1 else s1)
  if (khead s h).underrunSeen.contains fr.1 then s2
  else raiseIrq (pgKlnP p) 4 (event 0x4002 none
    (le 1 h ++ le 1 r ++ le 1 p ++ le 4 fr.1 ++ le 4 line ++ le 1 mode)
    (updHead h (fun g => { g with underrunSeen := fr.1 :: g.underrunSeen }) s2))

/-- The codes of a row-line that has a fill and no pulse enter Kiln's side of the fired windows (R270, R291). -/
def silentCodes (p h r : Nat) (f : BitVec 32) (s : State) : State :=
  match (row s h r).fills.find? fun x => x.f = f with
  | some x => x.codes.zipIdx.foldl (fun t q => winCode true p x.slot h (r * 1024 + q.2) x.line q.1 t) s
  | none => s

/-- Declare a row-line underrun (R257 to R261): `blank` fires no drop, `silent` has no FIRE pulse either (R319, R324,
R429). -/
def declareUnderrun (p h r : Nat) (f : BitVec 32) (blank silent : Bool) (s : State) : State :=
  let g := row s h r
  let codes := if blank then List.replicate (fittedPositions s h) 0 else heldCodes g
  let s1 := countUnderrun p h r f (if blank then 1 else 0) s
  let s2 := replaceLine p h r f codes s1
  let s3 := updRow h r (fun g => { g with
    nextShift := if g.nextShift = f then f + 1 else g.nextShift,
    nextEdge := if silent ∧ g.nextEdge = f then f + 1 else g.nextEdge,
    edges := if silent then g.edges.filter (·.f ≠ f) else g.edges,
    held := if silent then codes else g.held,
    under := if silent then g.under else g.under ++ (g.fills.filter (·.f = f)).take 1 }) s2
  if silent then silentCodes p h r f s3 else s3

/-! ## Delay lines (R519, R520) -/

/-- What a line is set by, and what the master code and its trim ask of it. -/
def lineTap (s : State) (line : Nat) : Tap := tget s.clk.taps ⟨0, 0⟩ line
def wantTap (s : State) (line : Nat) : Tap := ⟨s.clk.code, rf s (wkey Reg.CLK_IOCAL_TRIM line) 6 0⟩

/-- A FIRE output has an armed edge, or one in flight in this CK_FIRE cycle. -/
def lineBusy (s : State) (h : Nat) : Bool :=
  ((List.range 4).any fun r => (row s h r).edges.any (·.armed)) ||
    decide ((khead s h).lastLead ≠ 0 ∧ now s / 32 ≤ (khead s h).lastLead / 32)

/-- What an edge armed now on a FIRE output leaves with (R520). -/
def armTap (s : State) (h : Nat) : Tap := if lineBusy s h then lineTap s h else wantTap s h

/-- A line takes what it is asked. -/
def setTap (line : Nat) (x : Tap) (s : State) : State := { s with clk := { s.clk with taps := tput s.clk.taps line x } }

/-- A step input's line takes a change of an earlier cycle: an edge in the cycle of the change is timestamped with the code before it
(R520). -/
def settleStep (line : Nat) (s : State) : State := if s.clk.changed < now s / 32 then setTap line (wantTap s line) s else s

/-- A step edge is timestamped with what its input's line is set by. -/
def stampStep (input : Nat) (s : State) : State :=
  let s1 := settleStep (64 + input) s
  { s1 with clk := { s1.clk with stepTaps := tput s1.clk.stepTaps input (lineTap s1 (64 + input)) } }

/-! ## FIRE edges (R280) -/

/-- Spread of eligibility after the latest step: min(tper ÷ 256, 2^24), twice the period under SRC 5 (R280, R429). -/
def reachOf (s : State) (k : Nat) : Option Nat :=
  (tperOf (pcAvg s k) (channel s k).ts).map fun t =>
    min ((if pcSrc s k = 5 then 2 * t else t) / 256) (2 ^ 24)

/-- 80 ns in fire timebase units. -/
def armLead : Nat := 2048

/-- Predict the row's next edges until one is not eligible; an edge less than 80 ns ahead is armed at once, late when it
cannot leave at F, and under SRC 5 it is not fired (R280, R429). -/
def predictEdges (p h r : Nat) : Nat → State → State
  | 0, s => s
  | n + 1, s =>
    let k := planeChan s p
    let g := row s h r
    let f := g.nextEdge + BitVec.ofNat 32 (g.edges.filter fun e => !e.armed).length
    match reachOf s k, edgeTime s p h r f with
    | some reach, some ft =>
      let t := now s
      if ft ≤ ((channel s k).ts.getD 0 0 : Int) + reach then
        if (t : Int) < ft - armLead then
          predictEdges p h r n (updRow h r (fun g => { g with edges := g.edges ++ [⟨f, ft.toNat, ft, false, ⟨0, 0⟩⟩] }) s)
        else
          let late := decide (ft < (t : Int) + armLead)
          if late ∧ pcSrc s k = 5 then
            predictEdges p h r n (declareUnderrun p h r f true true (inc (Reg.KLN_P_LATE_EDGE_CNT p) 1 s))
          else
            let s1 := if late then inc (Reg.KLN_P_LATE_EDGE_CNT p) 1 s else s
            let x := armTap s1 h
            predictEdges p h r n (setTap h x (updRow h r (fun g => { g with
              edges := g.edges ++ [⟨f, (max ft ((t : Int) + armLead)).toNat, ft, true, x⟩], nextEdge := f + 1 }) s1))
      else s
    | _, _ => s

/-- Edges whose arming time has come by instant t are armed, with what their line is set by (R280, R520). -/
def armEdges (h r t : Nat) (s : State) : State :=
  let due := fun (e : Edge) => !e.armed && decide (e.instant ≤ t + armLead)
  if (row s h r).edges.any due then
    let x := armTap s h
    setTap h x (updRow h r (fun g => { g with
      nextEdge := g.nextEdge + BitVec.ofNat 32 (g.edges.filter due).length,
      edges := g.edges.map fun e => if due e then { e with armed := true, tap := x } else e }) s)
  else s

/-- The master code or trims change: edges due are armed with what was in force, a change of an earlier cycle applies to the step inputs,
and every FIRE output with no armed edge and none in flight takes the new one (R520). -/
def retune (change : State → State) (s : State) : State :=
  let s1 := (List.range 64).foldl (fun t h => (List.range 4).foldl (fun u r => armEdges h r (now u) u) t) s
  let s2 := (List.range 6).foldl (fun t i => settleStep (64 + i) t) s1
  let s3 := change s2
  let s4 := { s3 with clk := { s3.clk with changed := now s3 / 32 } }
  (List.range 64).foldl (fun t h => if lineBusy t h then t else setTap h (wantTap t h) t) s4

/-- Edges of a row that one step may make eligible: those of the lines the plane has passed, and of those ahead at the lowest ratio. -/
def edgeReach (s : State) (p h r : Nat) : Nat := 64 + (runDist (plane s p).runline (row s h r).nextEdge).toNat

/-- Recompute the edges of a plane's rows at a step: armed ones stand, the others are predicted again (R280). -/
def refreshEdges (p : Nat) (s : State) : State :=
  (planeHeads s p).foldl (fun t d => d.rows.foldl (fun u r =>
    if (row u d.head r).started && headLive u d.head && !tripCoversPlane u p then
      predictEdges p d.head r (edgeReach u p d.head r)
        (updRow d.head r (fun g => { g with edges := g.edges.filter (·.armed) }) (armEdges d.head r (now u) u))
    else u) t) s

/-! ## Reports at a line crossing (R263 to R267, R608) -/

/-- The rate a head can sustain, and the cause of its limit (R263). -/
def headRate (s : State) (h : Nat) : Nat × Nat :=
  let per := shiftPs s h +
    (rf s (Reg.HLK_KLN_HFRONT h) 15 0 + rf s (Reg.HLK_KLN_HSYNC h) 11 0 + rf s (Reg.HLK_KLN_HBACK h) 15 0) * 1250
  let n := (fittedRows s h).length
  let span := max (n * shiftPs s h) (if n = 0 then 0 else per)
  let hl := if span = 0 then 192000 else 10 ^ 12 / span
  let lc := max (lineCycles s (2 * h)) (lineCycles s (2 * h + 1))
  let til := if lc = 0 then 192000 else 800000000 / lc
  let a := if til < 192000 then (til, 1) else (192000, 0)
  if hl < a.1 then (hl, 2) else a

/-- The planes in LEAD_IN, RUNNING or STOPPING. -/
def livePlanes (s : State) : List Nat := planeNums.filter fun p => (plane s p).live

/-- The heads of live planes, ascending. -/
def liveHeads (s : State) : List Nat :=
  let hs := (livePlanes s).flatMap fun p => (planeHeads s p).map (·.head)
  (List.range 64).filter fun h => hs.contains h

/-- The rate of a head as its plane's latest crossing left it, and its cause (KLN_H_RATE). -/
def heldRate (s : State) (h : Nat) : Nat × Nat :=
  (rf s (wkey Reg.KLN_H_RATE h) 17 0, rf s (wkey Reg.KLN_H_RATE h) 25 24)

/-- A crossing of plane p: its heads' rates, then KLN_SUST_RATE and KLN_LIMIT over the heads of every live plane (R263). -/
def refreshRate (p : Nat) (s : State) : State :=
  let mine := if (plane s p).live then (planeHeads s p).map (·.head) else []
  let s1 := mine.foldl (fun t h => wn (wkey Reg.KLN_H_RATE h) ((headRate t h).1 + (headRate t h).2 * 2 ^ 24) t) s
  match liveHeads s1 with
  | [] => wn Reg.KLN_LIMIT 0 (wn Reg.KLN_SUST_RATE 192000 s1)
  | h0 :: hs =>
    let best := hs.foldl (fun (b : Nat × Nat × Nat) h =>
      let q := heldRate s1 h
      if q.1 < b.2.1 then (h, q.1, q.2) else b) (h0, heldRate s1 h0)
    wn Reg.KLN_LIMIT (best.1 + best.2.2 * 256 + 2 ^ 31) (wn Reg.KLN_SUST_RATE best.2.1 s1)

/-- The measured line rate of a plane over its last 64 crossings (R608). -/
def measuredRate (s : State) (p : Nat) : Option Nat :=
  let c := (plane s p).crossings
  if c.length < 65 then none
  else
    let d := c.getD 0 0 - c.getD 64 0
    if d = 0 then none else some (64 * 10 ^ 16 / (d * 390625))

/-- The rate check of R264 at a crossing. -/
def rateCheck (p : Nat) (s : State) : State :=
  match measuredRate s p with
  | none => s
  | some m =>
    let sust := rn s Reg.KLN_SUST_RATE
    if sust < m then
      let s1 := updPlane p (fun g => { g with aboveRun := g.aboveRun + 1, belowRun := 0 }) s
      if (plane s1 p).aboveRun = 64 ∧ (plane s1 p).rateArmed then
        raiseIrq pgKlnC 4 (event 0x4004 none
          (le 1 p ++ le 4 m ++ le 4 sust ++ le 1 (rf s Reg.KLN_LIMIT 5 0) ++ le 1 (rf s Reg.KLN_LIMIT 9 8))
          (updPlane p (fun g => { g with rateArmed := false }) s1))
      else s1
    else updPlane p (fun g => { g with
      aboveRun := 0, belowRun := g.belowRun + 1, rateArmed := g.rateArmed || decide (64 ≤ g.belowRun + 1) }) s

/-- The amount one step moves a position, in units of 2^-32 line (R277). -/
def lps (ratio : Nat) : Nat := (2 ^ 48 + ratio / 2) / ratio

/-- Nanoseconds from now to an instant of the fire timebase. -/
def nsUntil (s : State) (t : Int) : Nat := ((t - now s) * 390625 / 10000000).toNat

/-- The first plane line of the open frame, from the earliest still to be fired on, that has page content and has not entered
contone staging (R265). -/
def nextUnstaged (s : State) (p h : Nat) : Option Nat :=
  let g := plane s p
  match g.copy with
  | none => none
  | some c =>
    let pass := tget s.glz.passOf 0 (glzKey c p)
    let next := if g.pass < pass then vActive s p else if pass < g.pass then 0 else tget s.glz.next 0 (glzKey c p)
    let lo := max next (runDist g.runline g.latchRun - vSync s p - vBack s p - omax s h).toNat
    ((List.range (vActive s p - lo)).map (· + lo)).find? fun y => lineHasPage s p (some c) y

/-- The latency tolerance of a head (R265): the least time to a FIRE edge of the first line not staged, or to the end of
blanking after the next latch. A time that has no prediction does not limit. -/
def headTolerance (s : State) (p h : Nat) : Nat × Nat :=
  let g := plane s p
  match nextUnstaged s p h with
  | some y =>
    (fittedRows s h).foldl (fun b r =>
      match edgeTime s p h r (g.latchRun + BitVec.ofNat 32 (y + vSync s p + vBack s p + rowOfs s p h r)) with
      | some t => if nsUntil s t < b.1 then (nsUntil s t, r) else b
      | none => b) (0xFFFFFFFE, 0)
  | none =>
    match (if g.referenced then lineTime s p (nextLatch s p + BitVec.ofNat 32 (vSync s p + vBack s p)) else none) with
    | some t => (min 0xFFFFFFFE (nsUntil s t), 0)
    | none => (0xFFFFFFFE, 0)

/-! ## Latency tolerance messages (R83) -/

/-- The smallest scale at which a tolerance fits in 10 bits, with its value rounded down. -/
def ltrEncode (ns : Nat) : Nat :=
  match (List.range 6).find? fun k => decide (ns / 32 ^ k ≤ 1023) with
  | some k => ns / 32 ^ k + 1024 * k
  | none => 1023 + 1024 * 5

/-- The tolerance a message tells, in ns. -/
def ltrNs (m : Nat) : Nat := m % 1024 * 32 ^ (m / 1024 % 8)

/-- The tolerance HIF has to tell now: Kiln's less the guard, within Max Snoop and Max No-Snoop Latency. -/
def ltrTolerance (s : State) : Nat :=
  min (min s.hif.cfg.maxSnoop s.hif.cfg.maxNoSnoop) (rn s Reg.KLN_LT - rf s Reg.HIF_LTR_GUARD 15 0 * 1000)

/-- Send a message, and remember it. -/
def ltrSend (m : Nat) (s : State) : State :=
  emit (.ltr (BitVec.ofNat 16 m)) (wn Reg.HIF_LTR_LAST m { s with hif := { s.hif with ltrLast := some (BitVec.ofNat 16 m) } })

/-- The message of the tolerance now. -/
def ltrNow (s : State) : State := ltrSend (ltrEncode (ltrTolerance s) + 32768) s

/-- A tolerance that has fallen below 75 % of the last value is told at once; when Kiln stops with no copy submitted, the
Requirement bits clear (R83). -/
def ltrUpdate (s : State) : State :=
  if !s.hif.cfg.ltrEn || !canIssue s then s
  else if rn s Reg.KLN_LT = 0xFFFFFFFF then
    match s.hif.ltrLast with
    | some m => if 32768 ≤ m.toNat then ltrSend 0 s else s
    | none => s
  else match s.hif.ltrLast with
    | some m => if m.toNat < 32768 ∨ 4 * ltrTolerance s < 3 * ltrNs m.toNat then ltrNow s else s
    | none => ltrNow s

/-- The grants of DRAM power-down and self-refresh under the latency tolerance that stands (R267). -/
def refreshGrants (s : State) : State :=
  let lt := rn s Reg.KLN_LT
  let pd := if rf s Reg.KLN_LT_PD_MIN 15 0 * 1000 ≤ lt then 512 else 0
  let sr := if rf s Reg.KLN_LT_SR_MIN 15 0 * 1000 ≤ lt then 1024 else 0
  wf Reg.KLN_LT_STAT 10 9 ((pd + sr) / 512) s

/-- KLN_LT, KLN_LT_STAT and the grants to MEM (R265 to R267). -/
def refreshLt (s : State) : State :=
  let ps := livePlanes s
  let put := fun (lt stat : Nat) (t : State) =>
    ltrUpdate (refreshGrants (wn Reg.KLN_LT_STAT stat (wn Reg.KLN_LT lt t)))
  if ps = [] then
    if s.jobs.copies.any fun c => decide (c.state = .queued ∨ c.state = .ready) then
      put (rf s Reg.KLN_LT_IDLE 15 0 * 1000) 256 s
    else put 0xFFFFFFFF 0 s
  else if ps.all fun p => (plane s p).paused then s
  else
    let b := ps.foldl (fun (b : Nat × Nat × Nat) p =>
      (planeHeads s p).foldl (fun b d =>
        let q := headTolerance s p d.head
        if q.1 < b.1 then (q.1, d.head, q.2) else b) b) (0xFFFFFFFE, 0, 0)
    put b.1 (b.2.1 + b.2.2 * 64 + 256) s

/-- The press queue has changed: with every plane STOPPED, the latency tolerance follows it (R266). -/
def refreshIdle (s : State) : State := if livePlanes s = [] then refreshLt s else s

end Sys2Proof.Machine
end

