-- ==== Sys2Proof/Machine/Vision.lean ====
section
/-! DEFINITION. What the press gives the cameras: positions of line times, marks of frame latches, density map rings (spec/15, R373 to
R375; spec/16, R388). -/

namespace Sys2Proof.Machine
open Sys2Proof

/-! ## Line times and positions (R373) -/

/-- A running position in 1/65,536 line, modulo 2^48. -/
def runPos (r : BitVec 32) (frac : Nat) : Nat := (r.toNat * 65536 + frac) % posMod

/-- Where a line time stands among a plane's crossings. -/
inductive Placing where
  /-- At a position. -/
  | placed (u : Nat)
  /-- After the latest crossing: the line waits. -/
  | waits
  /-- Before the first crossing: there is no position. -/
  | nowhere
  deriving DecidableEq, Repr

/-- The position of time t between crossings, newest first; `next` is the instant of the crossing after the head of the list. -/
def placeAt (t : Nat) : Nat → List (Nat × BitVec 32) → Placing
  | _, [] => .nowhere
  | next, (c, r) :: rest =>
    if c ≤ t then .placed (runPos r ((t - c) * 65536 / (next - c))) else placeAt t c rest

/-- u(t) on a plane. -/
def posAt (s : State) (p t : Nat) : Placing :=
  match tget s.ipl.cross [] p with
  | [] => .waits
  | (c, r) :: rest =>
    if c ≤ t then (if (plane s p).paused then .placed (runPos r 0) else .waits) else placeAt t c rest

/-- The lines of a port that wait for a position take it, in capture order; one with none is dropped. -/
def placeLines (k : Nat) (s : State) : State :=
  let p := camPlane s k
  let take := fun (l : CamLine) =>
    if l.u.isSome then some l
    else match posAt s p l.t with
      | .placed u => some { l with u := some u }
      | .waits => some l
      | .nowhere => none
  updCam k (fun g => { g with waiting := g.waiting.filterMap take }) s

/-- The ports that follow a plane. -/
def camsOf (s : State) (p : Nat) : List Nat := camNums.filter fun k => decide (camPlane s k = p)

/-- Line times go back at most this far: the largest IPL_C_EXPO with a margin. -/
def expoSpan : Nat := 2 ^ 25

/-- Keep what may still be needed of a history, newest first: all that passes a test, and the first that does not. -/
def keepRecent {α : Type} (recent : α → Bool) : List α → List α
  | [] => []
  | x :: r => if recent x then x :: keepRecent recent r else [x]

/-- A line crossing of a plane: lines that waited for it are placed. -/
def noteCrossing (p t : Nat) (s : State) : State :=
  let h := (t, (plane s p).runline) :: keepRecent (fun c => decide (t < c.1 + expoSpan)) (tget s.ipl.cross [] p)
  let s1 := { s with ipl := { s.ipl with cross := tput s.ipl.cross p h } }
  (camsOf s1 p).foldl (fun u k => placeLines k u) s1

/-- A plane pauses: lines after its latest crossing take its position (R373). -/
def notePause (p : Nat) (s : State) : State := (camsOf s p).foldl (fun u k => placeLines k u) s

/-- A plane starts or leaves a pause: the stall time of its cameras starts again (R381). -/
def restartStall (p t : Nat) (s : State) : State :=
  (camsOf s p).foldl (fun u k => updCam k (fun g => { g with quiet := max g.quiet t }) u) s

/-! ## Frame latches (R374) -/

/-- A frame latch of a plane opens slot n: its mark for the inspection frames. A mark is kept as long as the largest DELAY can reach. -/
def noteMark (p n : Nat) (s : State) : State :=
  let run := (plane s p).runline
  let m : LatchMark := ⟨n, run, vSync s p + vBack s p⟩
  let h := m :: keepRecent (fun x => decide (runDist run x.run < 2 ^ 25)) (tget s.ipl.latches [] p)
  { s with ipl := { s.ipl with latches := tput s.ipl.latches p h } }

/-- The pages of the cameras that follow a plane apply by idle latch when it is STOPPED (R375). -/
def camIdle (p : Nat) (s : State) : State := (camsOf s p).foldl (fun u k => idleLatch (pgIpl k) u) s

/-! ## Density map rings (R388) -/

/-- DRAM bytes of the rings reserved, with one more of a plane. -/
def ringBytes (s : State) (p : Nat) : Nat :=
  (s.win.rings.map fun e => e.2.depth * planeWidth s e.1).sum + rf s Reg.WIN_PRED 15 0 * planeWidth s p

/-- Reserve a plane's ring, when it fits. -/
def reserveRing (p : Nat) (s : State) : State :=
  if (tfind s.win.rings p).isSome || (plane s p).table.isNone || !Config.ringFits (ringBytes s p) then s
  else { s with win := { s.win with rings := tput s.win.rings p ⟨rf s Reg.WIN_PRED 15 0, []⟩ } }

/-- A plane with no ring gets one at its KILN_START, once rings are in use. -/
def ringAtStart (p : Nat) (s : State) : State := if s.win.made then reserveRing p s else s

end Sys2Proof.Machine
end

