-- ==== Sys2Proof/Machine/Latch.lean ====
section
/-! DEFINITION. The frame latch, line crossings and step events (spec/10, R245 to R254; spec/11, R277 to R301). -/

namespace Sys2Proof.Machine
open Sys2Proof

/-! ## The frame latch (R249) -/

/-- The heads whose TIL_E_SPLIT write applies with their engine page in this latch cycle (R201). -/
def splitHeads (s : State) (p : Nat) : List Nat :=
  ((planeHeads s p).map (·.head)).filter fun h =>
    let w := pageAsOf s (pgTilE (2 * h))
    (tfind w.shd (Reg.TIL_E_SPLIT (2 * h))).isSome && w.applies

/-- Step 1: the pages that follow the plane's latch apply, with the plane table, pass table and entries that wait for it,
and the armed bar latch when this plane was its last (R49, R227, R251, R253, R297). `slot` is none for the latch at which
the plane stops. -/
def latchPages (p : Nat) (slot : Option Nat) (s : State) : State :=
  let ap := Reg.KLN_P_APPLY_CTRL p
  let armed := rbit s ap 0
  let target := rn s (Reg.KLN_P_APPLY_SLOT p)
  let go : Bool := match slot with
    | some n => !armed || decide (target ≤ n)
    | none => !armed
  let n := slot.getD noSlot
  let s0 := if armed && go then wf ap 0 0 0 (if target < n then wf ap 1 1 1 s else s) else s
  let hs := splitHeads s0 p
  let s1 := if go then
      let t := (framePages s0 p).foldl (fun t q => latchPage q n t) s0
      applyEntries (fun h => decide (planeOfHead t h = some p)) (plane t p).runline n
        (latchTable p n t)
    else s0
  let skip := if go then hs else []
  let cloneBad := match cloneSrc s1 p with | some q => (cloneSrc s1 q).isSome | none => false
  let s2 := if cloneBad then
      recordErr (pgKlnP p) 0x40 (wf (Reg.KLN_P_CTRL p) 1 1 0 s1) else s1
  barLeave skip p n s2

/-- The measured ratio of R283 over the frame that closes, in Q16.16 steps per line. -/
def proposal (s : State) (p : Nat) : Option Int :=
  let g := plane s p
  let k := planeChan s p
  let enc := rf s (Reg.KLN_PC_CFG k) 13 12
  let pl := rn s (Reg.KLN_PC_ENC_PL k)
  let steps := (channel s k).netSteps - g.stepsLatch
  let counts := posSub (pif s enc).pos (unsigned 48 g.encLatch)
  let r : Int := rn s (Reg.KLN_P_RATIO p)
  if rbit s (Reg.KLN_PC_CFG k) 14 ∧ pl ≠ 0 ∧ pcSrc s k ≠ 4 ∧ 0 < steps ∧ 0 < counts ∧ g.pausedInFrame = false ∧
      g.encBad = false ∧ 2 ≤ g.frames then
    let rm := divF (steps * pl + divF counts 2) counts
    if (rm - r).natAbs * 20 > r.natAbs then none else some rm
  else none

/-- The ratio correction written into the shadow of KLN_P_RATIO (R284). -/
def correctRatio (p : Nat) (rm : Int) (s : State) : State :=
  let k := planeChan s p
  let gain : Int := rf s (Reg.KLN_PC_CORR k) 7 0
  let r : Int := rn s (Reg.KLN_P_RATIO p)
  let lim := divZ (r * rf s (Reg.KLN_PC_CORR k) 23 8 + 500000) 1000000
  if gain = 0 then s
  else
    let c := max (-lim) (min lim (divF ((rm - r) * gain + 128) 256))
    rwsWrite (Reg.KLN_P_RATIO p) (BitVec.ofInt 32 (r + c)) true s

/-- The encoder check at a latch: proposal and correction, and the counts the next frame starts from (R283, R284). -/
def encoderLatch (p : Nat) (s : State) : State :=
  let m := proposal s p
  let s1 := wn (Reg.KLN_P_PROP p) (match m with | some rm => unsigned 32 rm | none => 0) s
  let s2 := match m with | some rm => correctRatio p rm s1 | none => s1
  let k := planeChan s2 p
  let enc := rf s2 (Reg.KLN_PC_CFG k) 13 12
  updPlane p (fun g => { g with
    stepsLatch := (channel s2 k).netSteps, encLatch := ((pif s2 enc).pos : Int), devSeen := false, devMax := 0,
    pausedInFrame := false, encBad := !pifValid s2 enc }) s2

/-- A0 of R300: active line 0 of the first pass, in lines from the start reference. -/
def passOrigin (s : State) (p : Nat) : Int := rf s (Reg.KLN_P_VSTART p) 23 0 + vSync s p + vBack s p

/-- Sense and front of the pass a scanning latch opens (R300). -/
def setPass (p : Nat) (s : State) : State :=
  if scanning s p then
    let rev := passReverse s p (plane s p).pass
    let a0 := passOrigin s p
    let front := if rev then a0 + vActive s p + vSync s p + vBack s p else a0 - vSync s p - vBack s p
    updPlane p (fun g => { g with
      sense := if rev then -1 else 1, front := front * 2 ^ 32, lastB := front * 2 ^ 32, turnaround := true,
      tickleAt := now s + rf s (Reg.KLN_PC_PTICKLE (planeChan s p)) 15 0 * us }) s
  else s

/-- The feed move at the latch that ends pass `last` (R299, R301). -/
def feedMove (p last : Nat) (s : State) : State :=
  let g := plane s p
  let start := fun (a feed cpl : Nat) =>
    let r := startFeed a (((feed * cpl + 0x8000) / 0x10000 : Nat) : Int) s
    updPlane p (fun g => { g with feed := some (a, r.1) }) r.2
  if g.prevCopy = none then s
  else match rf s (Reg.KLN_P_PACE_CFG p) 5 4 with
    | 1 => match g.passTable with
      | some t => match t.passes[last]? with
        | some x => start t.axis x.feed t.cpl
        | none => s
      | none => s
    | 2 => start (rf s (Reg.KLN_P_BIDI p) 26 24) (rf s (Reg.KLN_P_BIDI p) 15 0) (rn s (Reg.KLN_P_FEED_CPL p))
    | _ => s

/-- Work on copies whose frames a plane has not opened begins again, under the pass table now in force: their blocks, their swath and their
staged lines (R167, R295, R297). -/
def workAgain (p : Nat) (s : State) : State :=
  let cs := (s.jobs.copies.filter fun c => decide (p ∈ copyPlanes s c) && decide (p ∉ c.opened)).map (·.seq)
  let mine := fun (c q : Nat) => decide (q = p) && cs.contains c
  let heads := (planeHeads s p).map (·.head)
  { s with
    jobs := { s.jobs with copies := s.jobs.copies.map fun c => if cs.contains c.seq then { c with begun := c.begun.filter (· % 16 ≠ p) } else c },
    thr := { s.thr with queue := s.thr.queue.filter fun j => !mine j.copy j.plane, lines := s.thr.lines.filter fun l => !mine l.copy l.plane,
                        lanes := s.thr.lanes.filter fun e => !mine e.2.job.copy e.2.job.plane },
    glz := { s.glz with
      bands := s.glz.bands.filter fun b => !mine b.copy b.plane, pool := s.glz.pool.filter fun l => !mine l.copy l.plane,
      swath := s.glz.swath.filter fun l => !mine l.copy l.plane,
      next := tfilter s.glz.next fun k => !mine (k / 16) (k % 16), passOf := tfilter s.glz.passOf fun k => !mine (k / 16) (k % 16),
      staging := s.glz.staging.map fun e => (e.1, if heads.contains e.1 then e.2.filter (fun x => !cs.contains x.copy) else e.2) } }

/-- A pass table applies at a latch that opens a copy's run or an empty frame (R297). -/
def latchPass (p slot : Nat) (s : State) : State :=
  let opensRun := match tfind s.kln.decisions slot with
    | some d => decide (d.copy = none ∨ d.pass = 0 ∨ slotCopy s p slot = none)
    | none => true
  let due := (plane s p).pendPass.filter fun e => ripe s slot e.1
  match due.getLast? with
  | some e => if opensRun && !heldAt s (pgKlnP p) slot then
      workAgain p (noteLatch (0x30000 + p) slot (updPlane p (fun g => { g with
        passTable := some e.2, pendPass := g.pendPass.filter fun x => !ripe s slot x.1 }) s)) else s
  | none => s

/-- The frame that closes is over: its largest deviation is recorded, its copy's frame closes. -/
def frameEnds (p : Nat) (s : State) : State :=
  let g := plane s p
  if g.slot.isSome then
    closeFrame p (if g.devSeen then wn (Reg.KLN_P_DEV_MAX p) g.devMax s else wn (Reg.KLN_P_DEV_MAX p) 0 s)
  else s

/-- Steps 2 to 6 for slot n (R249), with what the pace chapter adds at a latch. -/
def openFrame (p n : Nat) (s : State) : State :=
  let s0 := updPlane p (fun g => { g with frames := g.frames + 1 }) s
  let s1 := decideSlot p n s0
  let s2 := latchPass p n s1
  let c := slotCopy s2 p n
  let s3 := match c with | some x => commitCopy x s2 | none => s2
  let pass := match tfind s3.kln.decisions n with | some d => if c.isSome then d.pass else 0 | none => 0
  let s4 := updPlane p (fun g => { g with
    slot := some n, nextSlot := n + 1, prevLatchRun := g.latchRun, latchRun := g.runline, prevCopy := g.copy, copy := c,
    pass := pass, passes := planePasses s3 p, spoiled := false, underNext := false }) s3
  let s5 := match c with
    | some x => updCopy x (fun y => { y with opened := if p ∈ y.opened then y.opened else p :: y.opened }) s4
    | none => s4
  let s6 := setPass p s5
  let s7 := wn (Reg.KLN_P_PASS p) (pass + (if inReverse s6 p then 256 else 0) + 65536 * (plane s6 p).passes) s6
  let s8 := openWindows p n s7
  let s9 := inc (if c.isSome then Reg.KLN_P_FRAME_CNT p else Reg.KLN_P_EMPTY_CNT p) 1 s8
  let keep := fun (m : Nat) => decide (n ≤ m + 1 ∧ m ≠ noSlot)
  let s10 := (planeHeads s9 p).foldl (fun t d => updHead d.head (fun g => { g with underrunSeen := g.underrunSeen.filter keep }) t) s9
  let s11 := flagCopy c (fun x => { x with
    trip := x.trip || tripCoversPlane s10 p, underrun := x.underrun || (plane s3 p).underNext }) s10
  noteMark p n (feedMove p (plane s p).pass s11)

/-- FRAME_MARK outputs that mark a plane (R254). -/
def markFrame (p : Nat) (s : State) : State :=
  (List.range 4).foldl (fun t m =>
    if rbit t Reg.KLN_MARK (8 * m + 7) && decide (rf t Reg.KLN_MARK (8 * m + 3) (8 * m) = p) then
      emit (.mark m) { t with kln := { t.kln with marks := if m ∈ t.kln.marks then t.kln.marks else m :: t.kln.marks } }
    else t) s

/-- The row-lines of heads that join a plane at a latch start with the latch's running line (R48). -/
def startRows (p : Nat) (fresh : HeadDecl → Nat → Bool) (f : BitVec 32) (s : State) : State :=
  (planeHeads s p).foldl (fun t d => d.rows.foldl (fun u r =>
    if fresh d r then updRow d.head r (fun g => { Row.init with
      started := true, nextF := f, nextShift := f, nextEdge := f, held := g.held, fills := g.fills, reversals := g.reversals }) u
    else u) t) s

/-- The table, pass table and entries that wait for a plane apply by idle latch while it is STOPPED and not armed (R24,
R225, R251). -/
def idleTables (p : Nat) (s : State) : State :=
  if (plane s p).state = .stopped ∧ !rbit s (Reg.KLN_P_APPLY_CTRL p) 0 then
    applyEntries (fun h => decide (planeOfHead s h = some p)) (plane s p).runline noSlot
      (latchPass p noSlot (latchTable p noSlot s))
  else s

/-- The entries that wait for a head apply at once while its plane is STOPPED and not armed, or while it is in no plane (R48). -/
def idleEntries (h : Nat) (s : State) : State :=
  match planeOfHead s h with
  | some p => idleTables p s
  | none => applyEntries (fun g => decide (g = h)) 0 noSlot s

/-- A row of a plane that stops: what its engines counted of sheaves never sent is owed a reversal, and fills stand but for lines whose pulse
never left (R230, R259). -/
def idleRow (s : State) (h r : Nat) (g : Row) : Row :=
  let back := g.fifo.filterMap fun x =>
    let es := (rowEngines s x.split h r).filter fun e => !x.missing.contains e
    if es = [] then none else some ⟨x.f, x.undo, es, x.split⟩
  { Row.init with
    held := g.held, lastTrail := g.lastTrail, reversals := g.reversals ++ back,
    fills := g.fills.filter fun x => !g.under.any fun y => y.f = x.f }

/-- The plane stops: no slot, no frame, rows idle (R246). -/
def stopPlane (p : Nat) (s : State) : State :=
  let s1 := (planeHeads s p).foldl (fun t d => d.rows.foldl (fun u r => updRow d.head r (idleRow u d.head r) u) t) s
  let s2 := updPlane p (fun g => { g with
    line := latchLine s1 p, slot := none, copy := none, prevCopy := none, paused := false, referenced := false,
    turnaround := false, feed := none }) s1
  let s3 := setPlaneState p .stopped s2
  let s4 := (framePages s3 p).foldl (fun t n => idleLatch n t) s3
  camIdle p (applyCorrections p noSlot (planeStopped p (barLeave [] p noSlot (idleTables p s4))))

/-- Step 1 of a latch and what follows from it: the closed frame's raster is kept for its late lines, and the line counter stands at V_ACTIVE +
V_FRONT of the timing now active (R206, R243, R249). -/
def latchStep1 (p : Nat) (slot : Option Nat) (s : State) : State :=
  let vis := (vSync s p + vBack s p, vActive s p)
  let s1 := latchPages p slot s
  updPlane p (fun g => { g with line := latchLine s1 p, prevVis := vis }) s1

/-- The frame latch of a plane (R249), or the latch at which a STOPPING plane stops (R246). -/
def frameLatch (p : Nat) (s : State) : State :=
  let s0 := updPlane p (fun g => { g with line := latchLine s p }) s
  let old := (planeHeads s0 p).map (·.head)
  let s1 := frameEnds p s0
  if (plane s1 p).state = .stopping ∧ !planeOwes s1 p then
    markFrame p (stopPlane p (encoderLatch p (latchStep1 p none s1)))
  else
    let n := (plane s1 p).nextSlot
    let s2 := if (plane s1 p).state = .leadIn then setPlaneState p .running s1 else s1
    let s3 := latchStep1 p (some n) s2
    let s4 := openFrame p n s3
    let s5 := startRows p (fun d r => !old.contains d.head || !(row s4 d.head r).started) (plane s4 p).runline s4
    let s6 := encoderLatch p s5
    markFrame p (applyCorrections p n s6)

/-! ## Line crossings (R244, R245) -/

/-- The feed axis has not settled when a pass reaches its first active line (R299). -/
def feedCheck (p : Nat) (s : State) : State :=
  let g := plane s p
  match g.feed with
  | some (a, lost) =>
    if g.line = 0 then
      let s1 := updPlane p (fun g => { g with feed := none }) s
      if lost || !settled s a then
        raiseIrq (pgKlnP p) 8 (event 0x4009 none (le 1 p ++ le 4 (g.slot.getD noSlot) ++ le 4 g.pass ++ le 1 a)
          (inc (Reg.KLN_P_FEED_LATE_CNT p) 1 s1))
      else s1
    else s
  | none => s

/-- What Kiln recomputes at each line crossing of a plane: rates, the rate check and the latency tolerance (R263 to R265). -/
def crossed (p : Nat) (s : State) : State :=
  refreshLt (if (plane s p).live then rateCheck p (refreshRate p s) else refreshRate p s)

/-- One line crossing of a plane past its start reference, at position b: the running line steps, the lead-in or the line
counter counts, and the latch comes when due. -/
def crossing (p : Nat) (b : Int) (t : Nat) (s : State) : State :=
  let s1 := noteCrossing p t (updPlane p (fun g => { g with
    runline := g.runline + 1, lastB := b, crossings := (t :: g.crossings).take 65, turnaround := false }) s)
  let g := plane s1 p
  let s2 :=
    if g.slot = none then
      let s3 := updPlane p (fun g => { g with leadIn := g.leadIn - 1 }) s1
      if (plane s3 p).leadIn = 0 then frameLatch p s3 else s3
    else
      let l := if vTotal s1 p ≤ g.line + 1 then 0 else g.line + 1
      let s3 := updPlane p (fun g => { g with line := l }) s1
      if l = latchLine s1 p then frameLatch p s3 else feedCheck p s3
  crossed p s2

/-- The multiples of 2^32 a forward or reverse movement of the front passes, in order (R277, R300). -/
def passedLines (sense front x : Int) : List Int :=
  if sense < 0 then
    let top := -divF (-front) (2 ^ 32) - 1
    let bottom := -divF (-x) (2 ^ 32)
    (List.range (top - bottom + 1).toNat).map fun i => (top - (i : Nat)) * 2 ^ 32
  else
    let low := divF front (2 ^ 32) + 1
    (List.range (divF x (2 ^ 32) - low + 1).toNat).map fun i => (low + (i : Nat)) * 2 ^ 32

/-- A scanning latch has taken the front away from a crossing: another sense, or a pass that begins elsewhere (R300). -/
def turnedAway (p : Nat) (sense b : Int) (s : State) : Bool :=
  !(plane s p).live || decide ((plane s p).sense ≠ sense) || ((plane s p).turnaround && decide ((plane s p).front ≠ b))

/-- The front of a plane whose step's crossings are over: X, where X lies past it (R277). -/
def raiseFront (p : Nat) (s : State) : State :=
  updPlane p (fun g => if 0 < g.sense * (g.x - g.front) then { g with front := g.x } else g) s

/-- The crossings one step causes, until the plane stops or a scanning latch takes the front elsewhere. -/
def crossings (p t : Nat) : List Int → State → State
  | [], s => raiseFront p s
  | b :: bs, s =>
    let s1 := crossing p b t s
    if turnedAway p (plane s p).sense b s1 then s1 else crossings p t bs s1

/-- The start reference of a plane (R245, R277): X and the front become the excess over the crossed line, which is line 0;
the reference crossing is the first of the running line. A plane whose own X crossed no line takes line 0 at its X. -/
def takeReference (p : Nat) (b : Option Int) (t : Nat) (s : State) : State :=
  let g := plane s p
  let o := match b with | some v => v | none => g.x
  let rest := passedLines 1 0 (g.x - o)
  let s1 := noteCrossing p t (updPlane p (fun g => { g with
    referenced := true, x := g.x - o, front := g.x - o, lastB := 0, xs := g.xs.map (· - o), crossings := [],
    runline := g.runline + 1, leadIn := rf s (Reg.KLN_P_VSTART p) 23 0 }) s)
  let s2 := startRows p (fun _ _ => true) ((plane s1 p).runline + 1) s1
  let s3 := if (plane s2 p).leadIn = 0 then frameLatch p s2 else s2
  let s4 := crossed p (updPlane p (fun g => { g with crossings := t :: g.crossings }) s3)
  if turnedAway p 1 0 s4 then s4 else crossings p t rest s4

/-! ## Step events (R277, R278) -/

/-- KLN_P_DEV and the deviation check after a step (R285). -/
def deviation (p : Nat) (s : State) : State :=
  let g := plane s p
  let k := planeChan s p
  let enc := rf s (Reg.KLN_PC_CFG k) 13 12
  let pl := rn s (Reg.KLN_PC_ENC_PL k)
  if rbit s (Reg.KLN_PC_CFG k) 14 && decide (pl ≠ 0) && decide (pcSrc s k ≠ 4) && !g.encBad && g.slot.isSome then
    let st := (channel s k).netSteps - g.stepsLatch
    let ec := posSub (pif s enc).pos (unsigned 48 g.encLatch)
    let d := divF (st * lps (rn s (Reg.KLN_P_RATIO p))) 65536 - divF (ec * 2 ^ 32) pl
    let s1 := wn (Reg.KLN_P_DEV p) (unsigned 32 d) (updPlane p (fun g => { g with devMax := max g.devMax d.natAbs }) s)
    let lim := rf s (Reg.KLN_PC_DEV_LIMIT k) 23 0
    if lim ≠ 0 ∧ lim < d.natAbs ∧ g.devSeen = false then
      let c := match g.copy with | some x => findCopy s x | none => none
      let ids := match c with
        | some x => le 2 x.tenant ++ le 4 x.job ++ le 4 x.num
        | none => le 2 0 ++ le 4 0 ++ le 4 0
      raiseIrq (pgKlnP p) 7 (event 0x4008 (c.map (·.tenant))
        (le 1 p ++ le 4 (g.slot.getD noSlot) ++ ids ++ le 4 (unsigned 32 d))
        (inc (Reg.KLN_P_DEV_CNT p) 1 (updPlane p (fun g => { g with devSeen := true }) s1)))
    else s1
  else s

/-- The planes that follow a channel. -/
def followers (s : State) (k : Nat) : List Nat := planeNums.filter fun p => planeChan s p = k

/-- The position change of one event of a channel on a plane: steps times lps, or the encoder's own change (R277, R286,
R428). -/
def moveBy (s : State) (k p : Nat) (d : Int) : Int :=
  if pcSrc s k = 4 then d else d * lps (rn s (Reg.KLN_P_RATIO p))

/-- The channel's part of an event at instant t that moves it by d steps: history, estimate and direction, and leaving
PAUSED (R278, R287). A close edge leaves the history as it is (R275). -/
def channelStep (k t : Nat) (d : Int) (close : Bool) (s : State) : State :=
  let c := channel s k
  let resumed := c.paused
  let s1 := if resumed then
      raiseIrq pgKlnC 6 (event 0x4007 none (le 1 k ++ le 1 0 ++ le 4 ((t - c.pausedAt) / us)) s) else s
  let ts := if close then c.ts else (if resumed then [t] else (t :: c.ts).take 9)
  let trail := if close then c.trail else (if resumed then [c.stand + d] else ((c.stand + d) :: c.trail).take 9)
  let s2 := updChannel k (fun x => { x with
    ts := ts, trail := trail, stand := c.stand + d, paused := false, pausedAt := t, reverse := decide (d < 0), lastEdge := some t,
    netSteps := x.netSteps + (if pcSrc s k = 4 then (if d < 0 then -1 else 1) else d) }) s1
  let s3 := wn (Reg.KLN_PC_STEPS k) (unsigned 32 (channel s2 k).netSteps) (wn64 (Reg.KLN_PC_TLAST k) t s2)
  wn (Reg.KLN_PC_TPER k) ((tperOf (pcAvg s3 k) ts).getD 0xFFFFFFFF) s3

/-- A plane's part of an event: X and the history of positions move; a plane that is STOPPED holds X (R277). -/
def planeStep (k p : Nat) (d : Int) (close resumed : Bool) (s : State) : State :=
  updPlane p (fun g =>
    let x := g.x + moveBy s k p d
    if !g.live then g
    else { g with x := x, xs := if close then g.xs else if resumed then [x] else (x :: g.xs).take 9 }) s

/-- The crossings of a plane that has moved, its pause behind the front, and its deviation (R277, R285, R287). A step
against the sense crosses nothing. -/
def planeFront (p t : Nat) (d : Int) (s : State) : State :=
  let g := plane s p
  if g.live ∧ g.referenced then
    let ahead := decide (0 < g.sense * d) && decide (0 < g.sense * (g.x - g.front))
    let s1 := if ahead then
        let ls := passedLines g.sense g.front g.x
        let s2 := updPlane p (fun g => { g with front := g.x, paused := false, pausedAt := t }) s
        crossings p t ls (if g.paused then restartStall p t s2 else s2)
      else updPlane p (fun g => { g with
        paused := g.paused && decide (g.x ≠ g.front), pausedAt := if g.x = g.front then t else g.pausedAt }) s
    if (plane s1 p).live then deviation p s1 else s1
  else s

/-- The planes of a start group take their reference at the first crossing of any of them (R245). -/
def referenceGroup (k t : Nat) (d : Int) (s : State) : State :=
  let wait := (followers s k).filter fun p => (plane s p).live && !(plane s p).referenced
  let crossed := fun (u : State) (p : Nat) =>
    let g := plane u p
    if 0 < d ∧ g.front < g.x then (passedLines 1 g.front g.x).head? else none
  wait.foldl (fun u p =>
    let g := plane u p
    if g.live && !g.referenced then
      match crossed u p with
      | some _ =>
        let grp := planeNums.filter fun q => (plane u q).live && !(plane u q).referenced &&
          decide ((plane u q).group = g.group)
        grp.foldl (fun v q => takeReference q (crossed u q) t v) u
      | none => updPlane p (fun g => { g with front := max g.front g.x }) u
    else u) s

/-- The start step of R430: planes on the channel whose KLN_PC_STEPS equals TRM_START take their reference there. -/
def startAtStep (k t : Nat) (d : Int) (s : State) : State :=
  let past := signed 32 (unsigned 32 ((channel s k).netSteps - rn s Reg.TRM_START))
  if 0 ≤ past ∧ past < d.natAbs then
    ((followers s k).filter fun p => (plane s p).live && !(plane s p).referenced).foldl (fun u p =>
      takeReference p (some ((plane u p).x - past * lps (rn u (Reg.KLN_P_RATIO p)))) t u) s
  else s

/-- A step event of a channel at instant t, d steps in its direction (R277 to R280). -/
def paceStep (k t : Nat) (d : Int) (close : Bool) (s : State) : State :=
  let s0 := advanceTo t s
  let resumed := (channel s0 k).paused
  let s1 := channelStep k t d close s0
  let ps := followers s1 k
  let s2 := ps.foldl (fun u p => planeStep k p d close resumed u) s1
  let byStep := rbit s2 Reg.TRM_CTRL 5 && decide (pcSrc s2 k ≠ 4)
  let s3 := ps.foldl (fun u p => planeFront p t d u) s2
  let s4 := if byStep then startAtStep k t d s3 else referenceGroup k t d s3
  ps.foldl (fun u p => if (plane u p).live && (plane u p).referenced && !(plane u p).paused then refreshEdges p u else u) s4

end Sys2Proof.Machine
end

