-- ==== Sys2Proof/Machine/Command.lean ====
section
/-! DEFINITION. What every command of resident firmware goes through: taking, its header checks, the order of acceptance,
streams, and the latches of classes F and B (spec/05, R115 to R129). -/

namespace Sys2Proof.Machine
open Sys2Proof

/-! ## Objects (R123) -/

/-- Keys of the objects a command names. -/
def objTenant (t : Nat) : Nat := 1 * 2 ^ 64 + t
def objJob (t j : Nat) : Nat := 2 * 2 ^ 64 + t * 2 ^ 32 + j
def objPage (t j p : Nat) : Nat := 3 * 2 ^ 80 + (t * 2 ^ 32 + j) * 2 ^ 32 + p
def objRing (n : Nat) : Nat := 4 * 2 ^ 64 + n
def objPlane (p : Nat) : Nat := 5 * 2 ^ 64 + p
def objHead (h : Nat) : Nat := 6 * 2 ^ 64 + h
def objAxis (a : Nat) : Nat := 7 * 2 ^ 64 + a
def objPort (k : Nat) : Nat := 8 * 2 ^ 64 + k

/-- The key of a stream a command waits for. -/
def keyStream (t h : Nat) : Nat := 9 * 2 ^ 64 + t * 2 ^ 32 + h

/-- The key of the power state a wake command waits for (R538). -/
def keyRun : Nat := 0x500

/-- The key of a power state at rest, which a POWER_STATE taken during a transition waits for. -/
def keyStill : Nat := 0x502

/-- The key of the Crock records a command waits for. -/
def keyStore : Nat := 0x501

/-- A command's records are committed, or were refused while Crock takes none: none of its own is queued. -/
def recordsDone (s : State) (seq : Nat) : Bool := !s.crk.queue.any fun j => decide (j.cmd = some seq)

/-- The stream a command names: its tenant and handle (R116). -/
def namedStream (h : Hdr) (c : Instr) : Option (Nat × Nat) :=
  match c with
  | .cameraConfig _ _ k | .storeWrite _ _ k | .axisConfig _ _ k | .curveLoad _ _ _ k | .threshLoad _ _ k | .planeConfig _ _ k
  | .passLoad _ _ k | .segmentLoad _ k | .nozzleWrite _ k | .traceConfig _ k | .debugUnlock _ k | .lifecycleAdvance _ _ k
  | .tileLoad _ _ k | .pageLoad _ k | .copySubmit _ k => some (h.tenant, k.toNat)
  | .kernelSelect _ _ _ k => if k = 0#32 then none else some (h.tenant, k.toNat)
  | .keyLoad _ _ k | .quotaGrant _ _ k => some (0, k.toNat)
  | _ => none

/-- The objects a command's stream names, as far as its bytes are spooled: the job and page of a record, the heads of nozzle records and
of a plane table (R123). -/
def streamObjs (s : State) (h : Hdr) (c : Instr) : List Nat :=
  match (namedStream h c).bind fun k => findStream s k.1 k.2 with
  | none => []
  | some x =>
    let bs := x.bytes
    match c with
    | .copySubmit .. | .pageLoad .. =>
      if 8 ≤ bs.length then [objJob h.tenant (leAt bs 0 4), objPage h.tenant (leAt bs 0 4) (leAt bs 4 4)] else []
    | .nozzleWrite .. => (List.range (bs.length / 40)).map fun k => objHead (leAt bs (40 * k) 4 / 4096)
    | .planeConfig .. => (List.range (min (leAt bs 0 2) ((bs.length - 32) / 24))).map fun k => objHead (bs.getD (32 + 24 * k) 0).toNat
    | _ => []

/-- An earlier command that names one of these objects is not yet accepted (R123). -/
def blockedBy (s : State) (seq : Nat) (objs : List Nat) : Bool :=
  s.fw.parked.any fun q => !q.accepted && decide (q.h.seq < seq) &&
    (q.objs ++ streamObjs s q.h q.cmd).any fun o => objs.contains o

/-- Park a command that is not accepted yet, with what it waits for. -/
def parkWaiting (h : Hdr) (c : Instr) (objs waits : List Nat) (s : State) : State :=
  park { Parked.of s h c false with objs := objs, waits := waits } s

/-- Park an accepted command of class W, with what it waits for. -/
def parkAccepted (h : Hdr) (c : Instr) (objs waits : List Nat) (s : State) : State :=
  park { Parked.of s h c true with objs := objs, waits := waits } s

/-- A command at the front of its ring is taken, if it may be, and its header checked: an opcode no table defines 0x0102, reserved bytes
0x0101, ring class 0x0301; an internal inconsistency ends it with 0x0501 and the alarm FW_INTERNAL; then it waits its turn or its checks
and effects begin (R115, R118, R119, R121 to R123). -/
def command (d : Desc) (cls : RingClass) (objs : Nat → List Nat) (c : Instr) (body : Hdr → State → State) (s : State) :
    State :=
  if takeable d s then
    let h := hdrOf d s
    let s1 := taken d s
    if d.flaw = .badOpcode then fail h 0x0102 s1
    else if d.rsvd then fail h 0x0101 (recordErr pgHif 0x45 s1)
    else if !classAdmits cls d.ring.val h.tenant then fail h 0x0301 s1
    else if d.flaw = .internal then fail h 0x0501 (raiseAlarm 4 none [] s1)
    else if blockedBy s1 h.seq (objs h.tenant ++ streamObjs s1 h c) then parkWaiting h c (objs h.tenant) [] s1
    else body h s1
  else s

/-- A query, which never waits (R123). -/
def query (d : Desc) (cls : RingClass) (c : Instr) (body : Hdr → State → State) (s : State) : State :=
  command d cls (fun _ => []) c body s

/-! ## Streams (R116) -/

def updStream (t h : Nat) (f : Stream → Stream) (s : State) : State :=
  { s with jobs := { s.jobs with streams := s.jobs.streams.map fun x =>
      if x.tenant = t ∧ x.handle = h then f x else x } }

/-- The command goes on with a complete stream, in its turn among the commands that name what the stream names (R123); it waits for a
stream that is open, fails with 0x0504 when it failed and with 0x0104 when there is none (R116). -/
def withStream (h : Hdr) (c : Instr) (objs : List Nat) (t handle : Nat) (k : Stream → State → State) (s : State) : State :=
  match findStream s t handle with
  | none => fail h 0x0104 s
  | some x =>
    if x.failed then fail h 0x0504 s
    else if !x.complete then parkWaiting h c objs [keyStream t handle] s
    else if blockedBy s h.seq (streamObjs s h c) then parkWaiting h c objs [] s
    else k x s

/-- A stream carries sealed segments (R161). -/
def Stream.sealed (x : Stream) : Bool := x.descs.any (·.2.2)

/-- Raster streams that have become ready for preparation join Thresher's order (R164, R606); the spec does not order those that become
ready at one instant, as by one KEY_LOAD: the model takes them in the order in which they were opened (DESIGN CHOICE:
notes/assumptions/72.md). -/
def noteReady (s : State) : State :=
  let due := s.jobs.streams.filter fun x =>
    decide (x.kind = 0 ∧ x.prep = .none) && x.complete && (!x.sealed || (sagTenant s x.tenant).key.isSome) &&
      !s.thr.ready.contains (x.tenant, x.handle) && decide (s.thr.preparing ≠ some (x.tenant, x.handle))
  { s with thr := { s.thr with ready := s.thr.ready ++ due.map fun x => (x.tenant, x.handle) } }

/-- The commands that name a stream and are not accepted yet fail (R116). -/
def failWaiters (t handle : Nat) (s : State) : State :=
  (s.fw.parked.filter fun p => !p.accepted && decide (namedStream p.h p.cmd = some (t, handle))).foldl (fun u p => fail p.h 0x0504 u) s

/-- A waiting command takes up its checks again once the stream it waits for is complete and no earlier command bars it. -/
def mayResume (s : State) (p : Parked) : Bool :=
  !p.accepted && !blockedBy s p.h.seq (p.objs ++ streamObjs s p.h p.cmd) &&
    p.waits.all (fun w => s.jobs.streams.any (fun x => decide (w = keyStream x.tenant x.handle) && x.complete) ||
      (decide (w = keyRun) && decide (s.pwr.state = .run) && decide (s.pwr.toward = none)) ||
      (decide (w = keyStill) && decide (s.pwr.toward = none)))

/-! ## Classes F and B (R127) -/

/-- CMD_HOLD of a page as resident firmware sets or clears it (R55, R127). -/
def setCmdHold (b : Bool) (n : Nat) (s : State) : State := updPage n (fun g => { g with cmdHold := b }) (notePage n s)

/-- Write a shadow as a command does, under CMD_HOLD: the page becomes PENDING. -/
def cmdShadow (k : Nat) (v : Word) (s : State) : State :=
  let n := keyAddr k / 0x1000
  updPage n (fun g => { g with pending := true, wrote := true }) (wrShadow k v (notePage n s))

/-- Write a shadow from a number. -/
def cmdShadowN (k v : Nat) (s : State) : State := cmdShadow k (BitVec.ofNat 32 v) s

/-- Whether a release of a page now comes after its plane's latch (R127, R250). -/
def pageLate (s : State) (n : Nat) : Bool :=
  match pagePlane s n with
  | some p => afterLatch s p
  | none => false

/-- CMD_HOLD of the pages a command wrote is released in one cycle (R54, R127): deferral is judged, idle latches apply; the host's HOLD
stays. -/
def releasePages (pages : List Nat) (s : State) : State :=
  let s1 := pages.foldl (fun t n => deferPage n t) (pages.foldl (fun t n => setCmdHold false n t) s)
  pages.foldl (fun t n => if pageSrc n = 2 then (if (getPage t n).hold then t else armBar t) else idleLatch n t) s1

/-- A class F or B command sets CMD_HOLD on its pages, writes them and is parked until their latches (R127); `marks` are changes held
outside registers that wait for a latch too. -/
def cmdLatch (h : Hdr) (c : Instr) (objs pages marks : List Nat) (write : State → State) (s : State) : State :=
  let late := pages.any fun n => pageLate s n && decide (pageSrc n = 1)
  let s1 := park { Parked.of s h c true with objs := objs, pages := pages ++ marks, late := late } s
  releasePages pages (write (pages.foldl (fun t n => setCmdHold true n t) s1))

/-! ## Wake commands (R538) -/

/-- The controller starts back to RUN; an entry in progress finishes first. -/
def startExit (cause : Nat) (s : State) : State :=
  match s.pwr.toward with
  | some _ => s
  | none => { s with pwr := { s.pwr with toward := some .run, cause := cause } }

/-- A wake command goes on in RUN, or waits for the exit it starts (R538). -/
def wake (h : Hdr) (c : Instr) (objs : List Nat) (k : State → State) (s : State) : State :=
  if s.pwr.state = .run ∧ s.pwr.toward = none then k s
  else parkWaiting h c objs [keyRun] (startExit 2 s)

end Sys2Proof.Machine
end

