-- ==== Sys2Proof/Machine/Tally.lean ====
section
/-! DEFINITION. Tally: its I²C exchanges, slot states, checkpoints and write-backs (spec/19, R476 to R483). -/

namespace Sys2Proof.Machine
open Sys2Proof

/-! ## Exchanges (R477) -/

/-- The CRC-16 of a Tally frame (R307, R477). -/
def tallyCrc (bs : List Byte) : List Byte := le 2 (crcMsb 16 0x1021 0xFFFF bs)

/-- A request frame. -/
def tallyFrame (op : Nat) (payload : List Byte) : List Byte :=
  let b := le 1 op ++ le 2 payload.length ++ payload
  b ++ tallyCrc b

/-- What the MAC of R478 covers: opcode, serial, usage and counter. -/
def macInput (x : TlySlot) (usage counter : Nat) : List Byte := le 1 3 ++ x.serial ++ le 8 usage ++ le 4 counter

/-- The MAC under the slot's session key. -/
def slotMac (x : TlySlot) (usage counter : Nat) : List Byte :=
  Config.tallyMac (x.session.getD 0) (macInput x usage counter)

/-- The request of an exchange. -/
def requestOf (x : TlySlot) (e : IdExchange) : List Byte :=
  match e.op with
  | 2 => tallyFrame 2 (le 32 x.nonce.toNat ++ le 64 x.eph.toNat)
  | 3 =>
    let c := (x.counter + 1).toNat
    tallyFrame 3 (le 8 e.val.toNat ++ le 4 c ++ slotMac x e.val.toNat c)
  | _ => tallyFrame 1 []

/-- The controller and address of a slot. -/
def tlyController (s : State) (i : Nat) : Nat := rf s (wkey Reg.TLY_SLOT_CFG i) 1 0
def tlyAddress (s : State) (i : Nat) : Nat := rf s (wkey Reg.TLY_SLOT_CFG i) 8 2

/-- A controller is enabled (TLY_I2C_CFG). -/
def controllerOn (s : State) (k : Nat) : Bool := rbit s Reg.TLY_I2C_CFG (8 + k)

/-- The front exchange of a slot puts its request on the bus. -/
def sendExchange (i : Nat) (s : State) : State :=
  match (tlySlot s i).exchanges with
  | e :: _ =>
    if controllerOn s (tlyController s i) then
      emit (.i2c (tlyController s i) (tlyAddress s i) (requestOf (tlySlot s i) e)) s
    else s
  | [] => s

/-- Queue an exchange; it starts at once when no other is in progress. -/
def pushExchange (i : Nat) (e : IdExchange) (s : State) : State :=
  let s1 := updTly i (fun x => { x with exchanges := x.exchanges ++ [e] }) s
  if (tlySlot s i).exchanges = [] then sendExchange i s1 else s1

/-- Poll a slot with IDENTIFY; `scan` polls for CONSUMABLE_SCAN. -/
def pollSlot (scan : Bool) (i : Nat) (s : State) : State := pushExchange i ⟨if scan then 4 else 1, 0, 0, false⟩ s

/-- The key of a slot a CONSUMABLE_SCAN waits for. -/
def keyTally (i : Nat) : Nat := 0x600 + i

/-- What CONSUMABLE_SCAN returns: devices found and authenticated on its controllers. -/
def scanResult (s : State) (mask : Nat) : Nat :=
  let on := (tlyEnabled s).filter fun i => mask / 2 ^ tlyController s i % 2 = 1
  let st := fun i => (tlySlot s i).state
  res 16 (on.filter fun i => decide (2 ≤ st i ∧ st i ≤ 5)).length +
    res 17 (on.filter fun i => decide (st i = 3 ∨ st i = 5)).length

/-- A slot has nothing left of a scan: the scans that wait for it note it, and complete when it was the last. -/
def scanArrive (i : Nat) (s : State) : State :=
  if (tlySlot s i).exchanges.any fun e => decide (e.op = 4 ∨ e.op = 2) then s
  else (waiters s (keyTally i)).foldl (fun t q =>
    let w := q.waits.filter (· ≠ keyTally i)
    let mask := match q.cmd with | .consumableScan _ m => m.toNat | _ => 0
    if w = [] then complete q.h 0 (scanResult t mask) t else park { q with waits := w } t) s

/-- The front exchange is over: the next starts. -/
def endExchange (i : Nat) (s : State) : State :=
  scanArrive i (sendExchange i (updTly i (fun x => { x with exchanges := x.exchanges.drop 1 }) s))

/-- An exchange has failed (R477, R482): a poll counts towards LOST, a failed write-back is reported, a failed AUTH leaves the
slot PRESENT. -/
def failExchange (i : Nat) (e : IdExchange) (status : Nat) (s : State) : State :=
  match e.op with
  | 2 => endExchange i s
  | 3 =>
    endExchange i (raiseIrq pgTly 7 (event 0x0A04 none (le 1 i ++ (tlySlot s i).serial ++ le 1 status)
      (inc Reg.TLY_WB_FAIL_CNT 1 s)))
  | _ =>
    let s1 := updTly i (fun x => { x with fails := x.fails + 1 }) s
    let x := tlySlot s1 i
    endExchange i (if 3 ≤ x.fails ∧ 2 ≤ x.state ∧ x.state ≤ 5 then setTly i 6 s1 else s1)

/-- An exchange is repeated once, and then fails (R477). -/
def repeatExchange (i : Nat) (e : IdExchange) (status : Nat) (s : State) : State :=
  if e.repeated then failExchange i e status s
  else sendExchange i (updTly i (fun x => { x with exchanges := { e with repeated := true, busy := 0 } :: x.exchanges.drop 1 }) s)

/-! ## IDENTIFY and AUTH (R478, R482) -/

/-- Keep the last usage known of the slot's serial. -/
def rememberUsage (i : Nat) (s : State) : State :=
  let x := tlySlot s i
  { s with tly := { s.tly with
    recovered := (s.tly.recovered.filter fun e => e.1 ≠ x.serial) ++ [(x.serial, x.usage)] } }

/-- Sagger's usage of a serial. -/
def knownUsage (s : State) (serial : List Byte) : DWord := ((s.tly.recovered.find? fun e => e.1 = serial).map (·.2)).getD 0

/-- A certificate is signed by a listed supplier key and names the device (R478). -/
def certGood (s : State) (serial : List Byte) (cap : Nat) (cert : List Byte) : Bool :=
  let key := leAt cert 88 1
  let kind := leAt cert 89 1
  decide (slice cert 0 16 = serial) && decide (leAt cert 16 8 = cap) && decide (key < s.sag.trust.length) && decide (key < 8) &&
    allZero (slice cert 90 96) && decide (kind = 1 ∨ kind = 2) && decide (cert.length = if kind = 1 then 160 else 192) &&
    Config.supplierVerify (s.sag.trust.getD key 0) kind (Config.sha384 (cert.take 96)) (cert.drop 96)

/-- A check of R478 failed. -/
def refuseDevice (i : Nat) (s : State) : State := setTly i 4 (inc Reg.TLY_AUTH_FAIL_CNT 1 s)

/-- IDENTIFY is answered (R477, R478, R482). -/
def identified (i : Nat) (e : IdExchange) (p : List Byte) (s : State) : State :=
  let serial := slice p 0 16
  let cap := leAt p 16 8
  let usage := leAt p 24 8
  let ctr := leAt p 32 4
  let cert := (p.drop 38).take (leAt p 36 2)
  if p.length < 38 ∨ p.length ≠ 38 + leAt p 36 2 then failExchange i e 0 s
  else
    let x := tlySlot s i
    let same := decide (serial = x.serial ∧ 2 ≤ x.state)
    let s1 := updTly i (fun y => { y with fails := 0, devUsage := BitVec.ofNat 64 usage, counter := BitVec.ofNat 32 ctr }) s
    if same && decide (x.state = 3 ∨ x.state = 5 ∨ (x.state = 4 ∧ e.op = 1)) then endExchange i s1
    else
      let known := knownUsage s serial
      let s2 := if same then s1 else
        updTly i (fun y => { y with serial := serial, usage := known }) (if 2 ≤ x.state then rememberUsage i s1 else s1)
      let a := draw 256 s2
      let b := draw 512 a.2
      let s3 := setTly i 2 (updTly i (fun y => { y with
        cap := BitVec.ofNat 64 cap, devKey := slice cert 24 88, nonce := a.1, eph := b.1, session := none }) b.2)
      if certGood s3 serial cap cert then
        endExchange i (updTly i (fun y => { y with exchanges := match y.exchanges with
          | f :: r => f :: ⟨2, 0, 0, false⟩ :: r
          | [] => [] }) s3)
      else endExchange i (refuseDevice i s3)

/-- AUTH is answered (R478, R479). -/
def authenticated (i : Nat) (e : IdExchange) (p : List Byte) (s : State) : State :=
  if p.length ≠ 76 then failExchange i e 0 s
  else
    let x := tlySlot s i
    let usage := leAt p 0 8
    let msg := le 32 x.nonce.toNat ++ le 64 x.eph.toNat ++ x.serial ++ slice p 0 12
    if usage = x.devUsage.toNat ∧ Config.ecdsaP256 x.devKey (Config.sha384 msg) (slice p 12 76) = true then
      let u := max (max usage (knownUsage s x.serial).toNat) x.usage.toNat
      let s1 := updTly i (fun y => { y with
        usage := BitVec.ofNat 64 u, counter := BitVec.ofNat 32 (leAt p 8 4),
        session := some (Config.tallySession x.nonce x.eph x.devKey) }) s
      endExchange i (setTly i (if x.cap.toNat ≤ u then 5 else 3) s1)
    else endExchange i (refuseDevice i s)

/-- WRITE_USAGE is answered: the stored values under the same MAC (R478). -/
def written (i : Nat) (e : IdExchange) (p : List Byte) (s : State) : State :=
  let x := tlySlot s i
  let c := (x.counter + 1).toNat
  if p = le 8 e.val.toNat ++ le 4 c ++ slotMac x e.val.toNat c then
    endExchange i (updTly i (fun y => { y with devUsage := e.val, counter := x.counter + 1 }) s)
  else failExchange i e 0 s

/-- A response is read whole: its length, CRC and status decide (R477). Bytes that are none are no answer. -/
def exchangeResponse (i : Nat) (bytes : List Byte) (s : State) : State :=
  match (tlySlot s i).exchanges with
  | [] => s
  | e :: _ =>
    let n := leAt bytes 1 2
    let status := leAt bytes 0 1
    if bytes = [] then
      let d := draw 8 s
      failExchange i e d.1.toNat d.2
    else if bytes.length ≠ n + 5 ∨ 1024 < n ∨ bytes.drop (3 + n) ≠ tallyCrc (bytes.take (3 + n)) then repeatExchange i e status s
    else match status with
      | 0 =>
        let p := slice bytes 3 (3 + n)
        match e.op with
        | 2 => authenticated i e p s
        | 3 => written i e p s
        | _ => identified i e p s
      | 1 =>
        if 50 ≤ e.busy then repeatExchange i e 1 s
        else updTly i (fun x => { x with exchanges := { e with busy := e.busy + 1 } :: x.exchanges.drop 1 }) s
      | 2 => repeatExchange i e 2 s
      | k => failExchange i e k s

def execTallyExchangeResponse (slot : Fin 16) (bytes : List Byte) (s : State) : Host.Outcome State Fault Refusal :=
  .next (exchangeResponse slot.val bytes s)

/-- A BUSY device is read again (R477). -/
def busyRetry (i : Nat) (s : State) : State :=
  match (tlySlot s i).exchanges with
  | e :: _ => if 0 < e.busy then emit (.i2c (tlyController s i) (tlyAddress s i) []) s else s
  | [] => s

def execTallyI2cBusyRetry (slot : Fin 16) (s : State) : Host.Outcome State Fault Refusal := .next (busyRetry slot.val s)

/-- A target holds SCL low for more than 25 ms: an I²C error, and the transaction ends (R476). -/
def stretchTimeout (i : Nat) (s : State) : State :=
  match (tlySlot s i).exchanges with
  | e :: _ =>
    let d := draw 8 (inc Reg.TLY_I2C_ERR_CNT 1 s)
    failExchange i e d.1.toNat d.2
  | [] => s

def execI2cStretchTimeout (slot : Fin 16) (s : State) : Host.Outcome State Fault Refusal := .next (stretchTimeout slot.val s)

/-! ## Checkpoints (R480) -/

/-- The largest entry of the volume table (R231). -/
def largestVolume (s : State) : Nat :=
  (List.range 16).foldl (fun m c => (List.range 6).foldl (fun k i => max k (volume s c (i + 1))) m) 0

/-- The quantum of a slot (R480). -/
def tallyQuantum (s : State) (i : Nat) : Nat :=
  let n := ((List.range 64).map fun h =>
    if tlyHeads s i / 2 ^ h % 2 = 1 then (fittedRows s h).length * fittedPositions s h else 0).sum
  largestVolume s * n * 192000 * (rf s Reg.TLY_CKPT 15 0 + 250) / 1000

/-- Capture every enabled slot, submit the checkpoint record, and poll (R480, R482). -/
def checkpoint (cmd : Option Nat) (s : State) : State :=
  let ss := (tlyEnabled s).map fun i => (i, (tlySlot s i).serial, (tlySlot s i).usage.toNat, tallyQuantum s i)
  let s1 := crkSubmit (.tallyCkpt (stamp s) ss) cmd none s
  let s2 := { s1 with tly := { s1.tly with captured := s.clock.uptime, writing := s1.tly.writing || crkAccepts s } }
  (tlyEnabled s2).foldl (fun t i => pollSlot false i t) s2

def execTallyCheckpointTimer (s : State) : Host.Outcome State Fault Refusal :=
  .next (if rbit s Reg.TLY_CTRL 0 then checkpoint none s else s)

/-- A checkpoint record is committed: write-backs become due (R480). -/
def checkpointDone (s : State) : State :=
  { s with tly := { s.tly with writing := false, writeBack := true, late := false, prev := s.tly.captured } }

/-- Usage is written back to every AUTHENTIC device (R480). -/
def writeBacks (s : State) : State :=
  if s.tly.writeBack then
    ((tlyEnabled s).filter fun i => decide ((tlySlot s i).state = 3 ∨ (tlySlot s i).state = 5)).foldl
      (fun t i => pushExchange i ⟨3, (tlySlot t i).usage, 0, false⟩ t) { s with tly := { s.tly with writeBack := false } }
  else s

def execTallyWriteBack (s : State) : Host.Outcome State Fault Refusal := .next (writeBacks s)

/-- No checkpoint has completed in time (R480). -/
def checkpointLate (t : Nat) (s : State) : State :=
  let s0 := advanceTo t s
  let age := (s0.clock.uptime - s0.tly.prev) / ms
  if rbit s0 Reg.TLY_CTRL 0 && !s0.tly.late && decide (rf s0 Reg.TLY_CKPT 15 0 + 250 ≤ age) then
    raiseIrq pgTly 6 (raiseAlarm 11 none (le 4 age) { s0 with tly := { s0.tly with late := true } })
  else s

def execTallyCkptLate (t : DWord) (s : State) : Host.Outcome State Fault Refusal := .next (checkpointLate t.toNat s)

/-! ## Commands (R144, R482) -/

/-- CONSUMABLE_SCAN: every enabled slot on the controllers named is polled and authenticated. -/
def bodyConsumableScan (h : Hdr) (c : Instr) (mask : Nat) (s : State) : State :=
  if 16 ≤ mask then fail h 0x0103 s
  else if (maskBits 4 mask).any fun k => !controllerOn s k then fail h 0x0201 s
  else
    let on := (tlyEnabled s).filter fun i => mask / 2 ^ tlyController s i % 2 = 1
    if on = [] then ok h 0 s
    else on.foldl (fun t i => pollSlot true i t) (parkAccepted h c [] (on.map keyTally) s)

def execConsumableScan (d : Desc) (mask : BitVec 8) (s : State) : Host.Outcome State Fault Refusal :=
  .next (command d .o (fun _ => []) (.consumableScan d mask) (fun h => bodyConsumableScan h (.consumableScan d mask) mask.toNat) s)

def consumableQuery (h : Hdr) (i : Nat) (s : State) : State :=
  if 16 ≤ i then fail h 0x0104 s
  else ok h (res 16 (tlySlot s i).usage.toNat + res 24 (tlySlot s i).state) s

def execConsumableQuery (d : Desc) (slot : BitVec 8) (s : State) : Host.Outcome State Fault Refusal :=
  .next (query d .o (.consumableQuery d slot) (fun h => consumableQuery h slot.toNat) s)

/-- TALLY_CHECKPOINT: it completes when its record is committed. -/
def bodyTallyCheckpoint (h : Hdr) (c : Instr) (s : State) : State :=
  if !crkAccepts s then fail h 0x0401 s
  else checkpoint (some h.seq) (parkAccepted h c [] [keyStore] s)

def execTallyCheckpoint (d : Desc) (s : State) : Host.Outcome State Fault Refusal :=
  .next (command d .o (fun _ => []) (.tallyCheckpoint d) (fun h => bodyTallyCheckpoint h (.tallyCheckpoint d)) s)

/-! ## The TLY page (R483) -/

/-- A write of TLY_SLOT_CFG: refused while the slot is enabled unless only EN changes; EN starts and closes the slot. -/
def slotCfgWrite (v : Word) (s : State) : State :=
  let i := rf s Reg.TLY_SLOT_SEL 3 0
  let k := wkey Reg.TLY_SLOT_CFG i
  let on := tlyEn s i
  if on && decide (bits 8 0 v.toNat ≠ rf s k 8 0) then recordErr pgTly 0x40 s
  else
    let s1 := wn k (v.toNat % 1024) s
    if on && !tlyEn s1 i then
      scanArrive i (setTly i 0 (updTly i (fun x => { x with exchanges := [], session := none, fails := 0 })
        (rememberUsage i (tallyClose i s1))))
    else if !on && tlyEn s1 i then setTly i 1 (updTly i (fun x => { x with fails := 0 }) s1)
    else s1

/-- A write of TLY_SLOT_HEADS. -/
def slotHeadsWrite (high : Bool) (v : Word) (s : State) : State :=
  let i := rf s Reg.TLY_SLOT_SEL 3 0
  if tlyEn s i then recordErr pgTly 0x40 s else wr (wkey (Reg.TLY_SLOT_HEADS + if high then 4 else 0) i) v s

/-- A write of TLY_CTRL: the period starts when Tally starts. -/
def tlyCtrlWrite (v : Word) (s : State) : State :=
  let s1 := wn Reg.TLY_CTRL (v.toNat % 4) s
  if !rbit s Reg.TLY_CTRL 0 && rbit s1 Reg.TLY_CTRL 0 then
    { s1 with tly := { s1.tly with captured := s1.clock.uptime, prev := s1.clock.uptime, late := false } }
  else s1

end Sys2Proof.Machine
end

