-- ==== Sys2Proof/Machine/Crock.lean ====
section
/-! DEFINITION. Crock's commands and events: record writes, compaction, snapshots, calibration flushes, the store areas and the
grace period (spec/20, R484 to R500). -/

namespace Sys2Proof.Machine
open Sys2Proof

/-! ## Regions and wear (R486, R499) -/

/-- The log and append point of a region. -/
def crkLog (s : State) (r : Nat) : List CrkRec := tget s.crk.logs [] r
def crkAppend (s : State) (r : Nat) : Nat := tget s.crk.appends 0 r

/-- The generation of a region. -/
def crkGen (s : State) (r : Nat) : Nat := tget s.crk.gens 0 r

/-- 64 KiB blocks of the snapshot ring: 30 % of S (R486). -/
def ringBlocks (s : State) : Nat := ((s.crk.sizes.1 + s.crk.sizes.2) * 16 - 136) * 3 / 10

/-- The store address of a region's start (R486). -/
def regionBase (s : State) (r : Nat) : Nat := 0x880000 + ringBlocks s * 65536 + r * regionBytes s

/-- The highest erase count, from the generations and the ring's wraps (R499). -/
def crkWear (s : State) : Nat := max (max (crkGen s 0 / 2) (crkGen s 1 / 2)) s.crk.ringWraps

/-- CRK_WEAR is raised when the highest count reaches 80,000 (R499). -/
def wearCheck (old : Nat) (s : State) : State :=
  let w := crkWear s
  if old < 80000 ∧ 80000 ≤ w then raiseIrq pgCrk 6 (raiseAlarm 6 none (le 4 w) s) else s

/-! ## Completing what waits for records -/

/-- A command's record is committed: QUOTA_GRANT and TALLY_CHECKPOINT complete with their last one (R466, R144). -/
def storeDone (seq : Nat) (s : State) : State :=
  match findParked s seq with
  | some q =>
    if !q.waits.contains keyStore || !recordsDone s seq then s
    else match q.cmd with
      | .quotaGrant _ t _ => if grantOverdue s q then grantUndo q s else ok q.h (res 16 (tenant s t.toNat).grant.toNat) s
      | .tallyCheckpoint _ => ok q.h 0 s
      | _ => park { q with waits := q.waits.filter (· ≠ keyStore) } s
  | none => s

/-- Sagger's sealed state is persisted: its ceiling holds, and its batch may be posted (R467, R472). -/
def saggerStored (d : SagRec) (batch : Option Nat) (s : State) : State :=
  let s1 := updSag d.tenant (fun x => { x with
    ceiling := d.ceiling, ceilNext := if x.ceilNext = some d.ceiling then none else x.ceilNext }) s
  let bs := s1.sag.batches.map fun b =>
    if batch = some b.id then { b with persisted := true } else b
  refreshReady { s1 with sag := { s1.sag with batches := bs } }

/-! ## Snapshots (R240, R492) -/

/-- Heads of a mask. -/
def headsOf (mask : Nat) : List Nat := maskBits 64 mask

/-- Bytes and ring blocks of a snapshot of some heads. -/
def snapLen (mask : Nat) : Nat := 64 + 24592 * (headsOf mask).length
def snapBlocks (mask : Nat) : Nat := (snapLen mask + 65535) / 65536

/-- Where a snapshot of a mask starts: the next free block, or the ring's start (R492). -/
def snapStartBlock (s : State) (mask : Nat) : Nat :=
  if ringBlocks s < s.crk.ringBlock + snapBlocks mask then 0 else s.crk.ringBlock

/-- A committed snapshot lies in the blocks a snapshot of a mask erases. -/
def snapErases (s : State) (mask : Nat) (x : Snap) : Bool :=
  let b := snapStartBlock s mask
  decide (b < x.block + snapBlocks x.mask ∧ x.block < b + snapBlocks mask)

/-- The latest committed snapshot of a head. -/
def latestSnap (s : State) (h : Nat) : Option Snap := (s.crk.snaps.filter fun x => decide (x.mask / 2 ^ h % 2 = 1)).getLast?

/-- The mask of a snapshot: changed heads, and heads whose latest block it will erase, until no head joins. -/
def growMask : Nat → State → Nat → Nat
  | 0, _, m => m
  | n + 1, s, m =>
    let extra := (List.range 64).filter fun h => decide (m / 2 ^ h % 2 = 0) &&
      (match latestSnap s h with | some x => snapErases s m x | none => false)
    if extra = [] then m else growMask n s (m + (extra.map fun h => 2 ^ h).sum)

/-- A snapshot is captured: every changed entry is read, and changes from now on belong to the next (R240). -/
def snapCapture (s : State) : State :=
  let hs := (List.range 64).filter fun h => s.til.changed.any fun i => i / 4096 = h
  let mask := growMask 64 s (hs.map fun h => 2 ^ h).sum
  let counts := (s.til.entries.filter fun e => decide (mask / 2 ^ (e.1 / 4096) % 2 = 1)).map fun e =>
    (pressNozzle s e.1, e.2.fires.toNat)
  let x : Snap := { num := s.crk.snapNum + 1, block := snapStartBlock s mask, time := stamp s, mask, counts, lost := false }
  { s with crk := { s.crk with snapNow := some x, snapNum := x.num }, til := { s.til with changed := [] } }

/-- The hour has passed (R240). -/
def snapshotTimer (s : State) : State :=
  if crkAccepts s && decide (s.crk.snapNow = none) && decide (s.pwr.state ≠ .deep) then snapCapture s else s

def execSnapshotTimer (s : State) : Host.Outcome State Fault Refusal := .next (snapshotTimer s)

/-- NOZZLE_SNAPSHOT: at once, or after the snapshot that is being written (R492). -/
def bodyNozzleSnapshot (h : Hdr) (c : Instr) (s : State) : State :=
  if !crkAccepts s then fail h 0x0401 s
  else
    let s1 := parkAccepted h c [] [keyStore] s
    match s.crk.snapNow with
    | some _ => { s1 with crk := { s1.crk with snapAgain := s1.crk.snapAgain ++ [h.seq] } }
    | none => snapCapture { s1 with crk := { s1.crk with snapCmds := [h.seq] } }

def execNozzleSnapshot (d : Desc) (s : State) : Host.Outcome State Fault Refusal :=
  .next (command d .o (fun _ => []) (.nozzleSnapshot d) (fun h => bodyNozzleSnapshot h (.nozzleSnapshot d)) s)

/-- A SNAP record waits or is being written: its snapshot's data is in the ring. -/
def snapQueued (s : State) : Bool := s.crk.queue.any fun j => (match j.body with | .snap .. => true | _ => false)

/-- The captured snapshot's data is in the ring, over what it erased; its SNAP record follows (R492). The bytes of its headers
are not all given, so its CRC is free. -/
def snapshotWrite (s : State) : State :=
  match s.crk.snapNow with
  | some x =>
    if !crkAccepts s || snapQueued s then s
    else
      let kept := s.crk.snaps.map fun y => if snapErases s x.mask y then { y with lost := true } else y
      let old := crkWear s
      let wraps := if x.block < s.crk.ringBlock then s.crk.ringWraps + 1 else s.crk.ringWraps
      let d := draw 32 s
      let s1 := { d.2 with crk := { d.2.crk with
        snaps := kept, ringBlock := x.block + snapBlocks x.mask, ringWraps := wraps } }
      let s2 := inc64 Reg.CRK_PROG_BYTES (snapLen x.mask) (wearCheck old s1)
      crkSubmit (.snap x.num (x.block * 65536) (snapLen x.mask) d.1 x.mask) none none s2
  | none => s

def execSnapshotWrite (s : State) : Host.Outcome State Fault Refusal := .next (snapshotWrite s)

/-- The committed snapshots once one more is: those that some head's latest counts lie in (R488). -/
def addSnap (x : Snap) (l : List Snap) : List Snap :=
  let all := l ++ [x]
  all.filter fun y => (headsOf y.mask).any fun h =>
    (all.filter fun z => decide (z.mask / 2 ^ h % 2 = 1)).getLast?.map (·.num) = some y.num

/-- A SNAP record is committed: the snapshot counts, its commands complete, and one that waited starts (R492). -/
def snapCommitted (s : State) : State :=
  match s.crk.snapNow with
  | some x =>
    let s1 := { s with crk := { s.crk with snaps := addSnap x s.crk.snaps, snapNow := none, snapCmds := [] } }
    let s2 := s.crk.snapCmds.foldl (fun t c => completeSeq c 0 0 t) s1
    if s2.crk.snapAgain = [] then s2
    else snapCapture { s2 with crk := { s2.crk with snapCmds := s2.crk.snapAgain, snapAgain := [] } }
  | none => s

/-! ## The calibration buffer (R491) -/

/-- The buffered gains of a plane. -/
def bufferedGains (s : State) (p : Nat) : List (Nat × Nat) :=
  (s.crk.cal.filter fun e => decide (e.2.1 = p)).map fun e => (e.1, e.2.2)

/-- The buffer is flushed as CAL records of at most 165 entries. -/
def calFlush (s : State) : State :=
  if crkAccepts s then
    let s1 := planeNums.foldl (fun t p =>
      let gs := bufferedGains s p
      (chunks 165 gs.length gs).foldl (fun u l => crkSubmit (.cal p (tget s.crk.calSlot 0xFFFFFFFF p) l) none none u) t) s
    { s1 with crk := { s1.crk with cal := [] } }
  else s

def execCalFlushTimer (s : State) : Host.Outcome State Fault Refusal := .next (calFlush s)

/-! ## Compaction (R493, R494) -/

/-- The configuration of a nozzle by the log: CONFIG entries, with later gains folded in. -/
def liveConfig (l : List CrkRec) : Tab (List Byte) :=
  l.foldl (fun t r => match r.body with
    | .config es => es.foldl (fun u e => tput u e.1 e.2) t
    | .cal _ _ gs => gs.foldl (fun u g =>
        tput u g.1 (le 2 g.2 ++ (tget u ((Entry.default 0).cfgBytes) g.1).drop 2)) t
    | _ => t) []

/-- The latest SAGGER record of each key. -/
def liveSagger (l : List CrkRec) : Tab SagRec :=
  l.foldl (fun t r => match r.body with | .sagger k d => tput t k d | _ => t) []

/-- The latest checkpoint and the CLOSE records after it. -/
def liveTally (l : List CrkRec) : List CrkBody :=
  l.foldl (fun t r => match r.body with
    | .tallyCkpt .. => [r.body]
    | .tallyClose .. => t ++ [r.body]
    | _ => t) []

/-- The SNAP records that are the latest of some head. -/
def liveSnaps (l : List CrkRec) : List CrkBody :=
  let all := l.filterMap fun r => (match r.body with
    | .snap n _ _ _ m => some (n, m, r.body) | _ => none : Option (Nat × Nat × CrkBody))
  (all.filter fun x => (headsOf x.2.1).any fun h =>
    (all.filter fun y => decide (y.2.1 / 2 ^ h % 2 = 1)).getLast?.map (·.1) = some x.1).map (·.2.2)

/-- The live set (R493). -/
def liveSet (l : List CrkRec) : List CrkBody :=
  let cfg := liveConfig l
  (chunks 49 cfg.length cfg).map CrkBody.config ++ liveTally l ++ (liveSagger l).map (fun e => .sagger e.1 e.2) ++ liveSnaps l

/-- Records at consecutive addresses and sequence numbers. -/
def placeRecords : Nat → Nat → List CrkBody → List CrkRec
  | _, _, [] => []
  | seq, addr, b :: r => ⟨seq, addr, b⟩ :: placeRecords (seq + 1) (addr + b.slot) r

/-- Bytes a list of records fills. -/
def recordBytes (l : List CrkBody) : Nat := (l.map CrkBody.slot).sum

/-- A compaction starts: the calibration buffer is flushed first (R491, R493). -/
def compactStart (cmd : Option Nat) (s : State) : State :=
  let s1 := calFlush s
  let g := crkGen s1 s1.crk.active + 1
  let live := recordBytes (liveSet (crkLog s1 s1.crk.active))
  raiseIrq pgCrk 5 (event 0x0803 none (le 1 1 ++ le 4 g ++ le 4 live) { s1 with crk := { s1.crk with
    state := if s1.crk.state = .mounted then .compacting else s1.crk.state, compacting := true, compactCmd := cmd } })

/-- The new region is complete and becomes active (R493). -/
def compactDone (s : State) : State :=
  let a := s.crk.active
  let b := 1 - a
  let g := crkGen s a + 1
  let live := liveSet (crkLog s a)
  let all := CrkBody.regionHead g :: live ++ [.compactDone g]
  let old := crkWear s
  let s1 := { s with crk := { s.crk with
    state := .mounted, compacting := false, compactCmd := none, active := b, gens := tput s.crk.gens b g,
    logs := tput s.crk.logs b (placeRecords (s.crk.seq + 1) 0 all), appends := tput s.crk.appends b (recordBytes all),
    torn := s.crk.torn.filter (·.1 ≠ b), seq := s.crk.seq + all.length, failRun := 0 } }
  let s2 := inc Reg.CRK_COMPACT_CNT 1 (inc64 Reg.CRK_PROG_BYTES (all.map fun x => 21 + x.len).sum (wearCheck old s1))
  let s3 := raiseIrq pgCrk 5 (event 0x0803 none (le 1 0 ++ le 4 g ++ le 4 (recordBytes live)) s2)
  completeOpt s.crk.compactCmd 0 0 s3

/-- Crock becomes READ_ONLY after a last failure at an address: queued records are refused, commands that need one fail, and a compaction
starts (R489). -/
def enterReadOnly (addr : Nat) (s : State) : State :=
  let cmds := ((s.crk.queue.filterMap (·.cmd)) ++ s.crk.snapCmds ++ s.crk.snapAgain ++
    (match s.crk.compactCmd with | some c => [c] | none => [])).eraseDups
  let s1 := { s with
    crk := { s.crk with state := .readOnly, failRun := 0, queue := [], snapNow := none, snapCmds := [], snapAgain := [] },
    sag := { s.sag with tenants := s.sag.tenants.map fun e => (e.1, { e.2 with ceilNext := none }) },
    tly := { s.tly with writing := false } }
  let s2 := raiseIrq pgCrk 7 (raiseAlarm 7 none (le 4 addr) s1)
  compactStart none (cmds.foldl (fun t c => completeSeq c 0x0401 0 t) s2)

/-- A compaction ends, or fails after three failures in a row, at an address no rule gives (R489, R493). -/
def compactionEnd (good : Bool) (s : State) : State :=
  if !s.crk.compacting then s
  else if good then compactDone s
  else
    let s1 := inc Reg.CRK_VERIFY_CNT 3 s
    if s.crk.state = .readOnly then { s1 with crk := { s1.crk with compacting := false } }
    else
      let d := draw 32 s1
      enterReadOnly d.1.toNat d.2

def execCrockCompactionDone (good : Bool) (s : State) : Host.Outcome State Fault Refusal := .next (compactionEnd good s)

/-- JOURNAL_COMPACT (R494). -/
def bodyJournalCompact (h : Hdr) (c : Instr) (s : State) : State :=
  if s.crk.compacting then fail h 0x0201 s
  else if !crkAccepts s then fail h 0x0401 s
  else compactStart (some h.seq) (parkAccepted h c [] [keyStore] s)

def execJournalCompact (d : Desc) (s : State) : Host.Outcome State Fault Refusal :=
  .next (command d .o (fun _ => []) (.journalCompact d) (fun h => bodyJournalCompact h (.journalCompact d)) s)

/-! ## Writing a record (R489, R490) -/

/-- What a committed record changes beside the journal. -/
def committed (j : CrkJob) (s : State) : State :=
  let s1 := match j.body with
    | .tallyCkpt .. => checkpointDone s
    | .sagger _ d => saggerStored d j.batch s
    | .snap .. => snapCommitted s
    | _ => s
  match j.cmd with | some c => storeDone c s1 | none => s1

/-- A record enters the active region's log. -/
def appendRecord (b : CrkBody) (s : State) : State :=
  let a := s.crk.active
  let r : CrkRec := ⟨s.crk.seq + 1, crkAppend s a, b⟩
  { s with crk := { s.crk with
    seq := s.crk.seq + 1, logs := tput s.crk.logs a (crkLog s a ++ [r]), appends := tput s.crk.appends a (crkAppend s a + b.slot) } }

/-- The address that follows a slot without a commit byte: the first 16-byte-aligned one at or beyond its start + 1,024, where the scan of
R495 looks for it (R496; notes/assumptions/76.md). -/
def afterTorn (a : Nat) : Nat := (a + 1024 + 15) / 16 * 16

/-- Crock writes the record at the front of its queue: committed, or failed in its first comparison and to be written again at the next
free address (R489). A record the region has no room for waits (R494). -/
def recordWrite (good : Bool) (s : State) : State :=
  match s.crk.queue with
  | [] => s
  | j :: rest =>
    let a := s.crk.active
    if !crkAccepts s || decide (regionBytes s < crkAppend s a + j.body.slot) then s
    else if good then
      let s1 := appendRecord j.body { s with crk := { s.crk with queue := rest, failRun := 0 } }
      let s2 := committed j (inc64 Reg.CRK_PROG_BYTES (21 + j.body.len) s1)
      if s2.crk.state = .mounted ∧ rf s2 Reg.CRK_COMPACT_AT 7 0 * 1048576 < crkAppend s2 a then compactStart none s2 else s2
    else
      let at_ := crkAppend s a
      let s1 := inc64 Reg.CRK_PROG_BYTES (20 + j.body.len) (inc Reg.CRK_VERIFY_CNT 1 { s with crk := { s.crk with
        failRun := s.crk.failRun + 1, seq := s.crk.seq + 1, torn := s.crk.torn ++ [(a, at_)],
        appends := tput s.crk.appends a (afterTorn at_) } })
      if s1.crk.failRun = 3 then enterReadOnly (regionBase s a + at_) s1 else s1

def execCrockRecordWrite (good : Bool) (s : State) : Host.Outcome State Fault Refusal := .next (recordWrite good s)

/-! ## Shutdown (R498) -/

/-- The record in progress when a shutdown or reset cuts Crock: committed, with the snapshot or sealed state it commits, or torn at the
append point. -/
def cutRecord (completed : Bool) (s : State) : State :=
  match s.crk.queue with
  | [] => s
  | j :: _ =>
    if completed then
      let s1 := appendRecord j.body s
      match j.body, s1.crk.snapNow with
      | .sagger _ d, _ => saggerStored d j.batch s1
      | .snap .., some x => { s1 with crk := { s1.crk with snaps := addSnap x s1.crk.snaps } }
      | _, _ => s1
    else { s with crk := { s.crk with torn := s.crk.torn ++ [(s.crk.active, crkAppend s s.crk.active)] } }

/-- A snapshot is cut while its data is being written: which of the blocks ahead it had erased is free (R492, R498). -/
def cutSnapshot (s : State) : State :=
  match s.crk.snapNow with
  | some x =>
    if snapQueued s then s
    else
      let d := draw s.crk.snaps.length s
      let erased := fun (y : Snap × Nat) => if snapErases s x.mask y.1 && d.1.getLsbD y.2 then { y.1 with lost := true } else y.1
      { d.2 with crk := { d.2.crk with snaps := d.2.crk.snaps.zipIdx.map erased } }
  | none => s

/-- A shutdown stops Crock but for a record whose first program has been issued: free whether the front one's had. -/
def graceStart (s0 : State) : State :=
  let s := cutSnapshot s0
  if s.crk.queue = [] ∨ crkAccepts s = false then { s with crk := { s.crk with grace := some false } }
  else
    let d := draw 1 s
    { d.2 with crk := { d.2.crk with grace := some (decide (d.1 = 1#1)) } }

/-- The 2 ms end: the outcome is recorded for the next boot, and the queue is lost. -/
def graceEnd (completed : Bool) (s : State) : State :=
  match s.crk.grace with
  | some busy =>
    let n := s.crk.queue.length
    let lost := if busy then n - 1 else n
    let s1 := if busy then cutRecord completed s else s
    { s1 with crk := { s1.crk with
      state := .absent, grace := none, queue := [], snapNow := none, snapCmds := [], snapAgain := [],
      graceRes := (if busy then (if completed then 1 else 2) else 3) + 256 * min 65535 lost } }
  | none => s

def execCrockGraceEnd (completed : Bool) (s : State) : Host.Outcome State Fault Refusal := .next (graceEnd completed s)

/-! ## STORE_WRITE (R487) -/

/-- The generation of a boot configuration image: magic "BCFG", its own length, a good CRC-32C (R486, R487). -/
def bootGen (img : List Byte) : Option Nat :=
  let n := img.length
  if 20 ≤ n ∧ n ≤ 131072 ∧ leAt img 0 4 = 0x47464342 ∧ leAt img 8 4 = n ∧
      leAt img (n - 4) 4 = (crc32c (img.take (n - 4))).toNat then some (leAt img 4 4) else none

/-- The items of a boot configuration: type and value, with fuel. -/
def bootItems : Nat → List Byte → List (Nat × List Byte)
  | 0, _ => []
  | n + 1, bs => if bs.length < 4 then [] else
      (leAt bs 0 2, slice bs 4 (4 + leAt bs 2 2)) :: bootItems n (bs.drop (4 + leAt bs 2 2))

/-- Bytes of the patch record at the start of some bytes (R446). -/
def patchLen (bs : List Byte) : Nat := 64 + 8 * leAt bs 10 2 + leAt bs 12 4 + 192

/-- A sequence of at most `n` whole patch records runs exactly to the end. -/
def patchesExact : Nat → List Byte → Bool
  | 0, bs => bs.isEmpty
  | n + 1, bs => bs.isEmpty || (decide (leAt bs 0 4 = 0x48435450) && decide (patchLen bs ≤ bs.length) &&
      patchesExact n (bs.drop (patchLen bs)))

/-- The boot copy STORE_WRITE replaces: one that is not good, else the one of lower generation (R487). -/
def bootTarget (s : State) : Nat :=
  match tfind s.crk.boot 0, tfind s.crk.boot 1 with
  | none, _ => 0
  | some _, none => 1
  | some a, some b => if a.1 ≤ b.1 then 0 else 1

/-- STORE_WRITE's effect: the image is written and read back; whether the read-back agrees is free. -/
def storeWrite (h : Hdr) (area : Nat) (x : Stream) (s : State) : State :=
  let img := x.bytes
  let bad := if area = 0 then
      match bootGen img with
      | some g => s.crk.boot.any fun e => decide (g ≤ e.2.1)
      | none => true
    else decide (8388608 < img.length) || !patchesExact 32 img
  if bad then fail h 0x0106 s
  else
    let d := draw 1 s
    let failed := decide (d.1 = 1#1)
    let t := d.2
    let k := bootTarget s
    let copies := if failed then tdel t.crk.boot k else tput t.crk.boot k ((bootGen img).getD 0, img)
    let patches := if failed then [] else img
    let s1 := inc64 Reg.CRK_PROG_BYTES img.length (if area = 0 then { t with crk := { t.crk with boot := copies } }
      else { t with crk := { t.crk with patchArea := patches } })
    if failed then fail h 0x0401 s1 else ok h 0 s1

def bodyStoreWrite (h : Hdr) (c : Instr) (area handle : Nat) (s : State) : State :=
  if 1 < area then fail h 0x0103 s
  else if !crkAccepts s then fail h 0x0201 s
  else withStream h c [] 0 handle (storeWrite h area) s

def execStoreWrite (d : Desc) (area : BitVec 8) (handle : Word) (s : State) : Host.Outcome State Fault Refusal :=
  .next (command d .s (fun _ => []) (.storeWrite d area handle)
    (fun h => bodyStoreWrite h (.storeWrite d area handle) area.toNat handle.toNat) s)

/-! ## Recovery (R495 to R497) -/

/-- The region a boot takes as active (R495). -/
def activeRegion (s : State) : Nat :=
  let done := fun r => (crkLog s r).any fun x => match x.body with | .compactDone _ => true | _ => false
  let head := fun r => (crkLog s r).any fun x => match x.body with | .regionHead _ => true | _ => false
  match done 0, done 1 with
  | true, true => if crkGen s 0 < crkGen s 1 then 1 else 0
  | true, false => 0
  | false, true => 1
  | false, false =>
    if head 0 && head 1 then (if crkGen s 1 < crkGen s 0 then 1 else 0) else if head 1 then 1 else 0

/-- The first region is formatted: a REGION_HEAD of generation 1. -/
def formatRegion (s : State) : State :=
  if crkLog s 0 = [] ∧ crkLog s 1 = [] then
    let r : CrkRec := ⟨s.crk.seq + 1, 0, .regionHead 1⟩
    { s with crk := { s.crk with
      seq := s.crk.seq + 1, active := 0, gens := tput s.crk.gens 0 1, logs := tput s.crk.logs 0 [r],
      appends := tput s.crk.appends 0 r.body.slot } }
  else { s with crk := { s.crk with active := activeRegion s } }

/-- What a scan of a region finds: its committed records, the torn slots it meets, the append point, and the torn slot that ended it. -/
structure CrkScan where
  recs : List CrkRec
  torn : List (Nat × Nat)
  append : Nat
  ended : Option Nat
  deriving DecidableEq, Repr

/-- The scan of R495, steps 2 to 4, from an address: an erased block ends it; a torn slot is met with the sequence of the record before it,
and the scan goes on beyond it only where a committed record of a higher sequence begins. -/
def scanRegion (recs : List CrkRec) (torn : List Nat) : Nat → Nat → Nat → CrkScan
  | 0, pos, _ => ⟨[], [], pos, none⟩
  | n + 1, pos, last =>
    match recs.find? fun r => decide (r.addr = pos) with
    | some r =>
      let t := scanRegion recs torn n (pos + r.body.slot) r.seq
      { t with recs := r :: t.recs }
    | none =>
      if torn.contains pos then
        let q := afterTorn pos
        if recs.any fun r => decide (r.addr = q ∧ last < r.seq) then
          let t := scanRegion recs torn n q last
          { t with torn := (pos, last) :: t.torn }
        else ⟨[], [(pos, last)], q, some pos⟩
      else ⟨[], [], pos, none⟩

/-- The scan of a region as it stands. -/
def crkScan (s : State) (r : Nat) : CrkScan :=
  let l := crkLog s r
  scanRegion l ((s.crk.torn.filter (·.1 = r)).map (·.2)) (2 * l.length + 2) 0 0

/-- Crock recovers the journal: the state by the devices found, the records the scan finds, each torn slot's count and event, and a GAP
record first in the queue after a log that ends torn (R485, R495, R496). -/
def crkRecover (cs0 cs1 : Nat) (s : State) : State :=
  let s0 := { s with crk := { s.crk with sizes := (cs0, cs1), queue := [], compacting := false, failRun := 0 } }
  if cs0 + cs1 < 64 then
    let st := if cs0 + cs1 = 0 then CrkState.absent else .noJournal
    raiseAlarm 5 none (le 1 (if st = .absent then 0 else 1) ++ le 4 cs0 ++ le 4 cs1)
      { s0 with crk := { s0.crk with state := st } }
  else
    let s1 := formatRegion { s0 with crk := { s0.crk with state := .mounted } }
    let r := s1.crk.active
    let x := crkScan s1 r
    let s2 := x.torn.foldl (fun t e =>
      raiseIrq pgCrk 4 (event 0x0802 none (le 4 r ++ le 4 e.1 ++ le 4 e.2) (inc Reg.CRK_TORN_CNT 1 t)))
      { s1 with crk := { s1.crk with
        logs := tput s1.crk.logs r x.recs, appends := tput s1.crk.appends r x.append,
        torn := s1.crk.torn.filter fun e => decide (e.1 ≠ r ∨ e.2 ∈ x.torn.map (·.1)),
        seq := (x.recs.getLast?.map (·.seq)).getD 0,
        queue := (match x.ended with
          | some a => [⟨.gap a, now s1 / 64, none, none⟩]
          | none => []) } }
    if s2.crk.graceRes = 0 then s2
    else event 0x0806 none (le 4 (s2.crk.graceRes % 4) ++ le 4 (s2.crk.graceRes / 256))
      (wn Reg.CRK_GRACE_RES s2.crk.graceRes { s2 with crk := { s2.crk with graceRes := 0 } })

/-- The nozzle entries of the journal: configuration, and counts from the latest snapshot that holds the head (R241, R497). -/
def rebuiltEntries (s : State) : Tab Entry :=
  let l := crkLog s s.crk.active
  let fromCfg := fun (bs : List Byte) (e : Entry) => ({ e with
    gain := BitVec.ofNat 16 (leAt bs 0 2), offset := BitVec.ofNat 16 (leAt bs 2 2), curve := BitVec.ofNat 8 (leAt bs 4 1),
    status := BitVec.ofNat 8 (leAt bs 5 1), variant := BitVec.ofNat 8 (leAt bs 6 1), volClass := BitVec.ofNat 8 (leAt bs 7 1),
    subA := BitVec.ofNat 24 (leAt bs 8 3), subB := BitVec.ofNat 24 (leAt bs 11 3) } : Entry)
  let t1 := (liveConfig l).foldl (fun t e => tput t e.1 (Entry.seal (fromCfg e.2 (Entry.default 0)))) ([] : Tab Entry)
  (List.range 64).foldl (fun t h => match latestSnap s h with
    | some x =>
      if x.lost then t
      else (x.counts.filter fun c => c.1 / 4096 = pressNozzle s (h * 4096) / 4096).foldl (fun u c =>
        let i := c.1 % 262144
        tput u i (Entry.seal { tget u (Entry.default 0) i with fires := BitVec.ofNat 48 c.2 })) t
    | none => t) t1

/-- Heads the journal holds no snapshot of, or one whose data is bad: CRK_SNAP_LOST (R497). -/
def snapLost (s : State) : State :=
  (List.range 64).foldl (fun t h =>
    match latestSnap t h with
    | some x => if x.lost then raiseIrq pgCrk 8 (event 0x0807 none (le 1 h ++ le 4 x.num) t) else t
    | none => raiseIrq pgCrk 8 (event 0x0807 none (le 1 h ++ le 4 0) t)) s

/-- Open slots of the last checkpoint without a later CLOSE start from U + Q (R481). -/
def recoverTally (s : State) : State :=
  let l := liveTally (crkLog s s.crk.active)
  let closed := l.filterMap fun b => match b with | .tallyClose i _ u => some (i, u) | _ => none
  match l.head? with
  | some (.tallyCkpt _ ss) =>
    ss.foldl (fun t x =>
      match closed.find? fun c => c.1 = x.1 with
      | some c => { t with tly := { t.tly with recovered :=
          (t.tly.recovered.filter fun e => e.1 ≠ x.2.1) ++ [(x.2.1, BitVec.ofNat 64 c.2)] } }
      | none =>
        let t1 := { t with tly := { t.tly with recovered :=
          (t.tly.recovered.filter fun e => e.1 ≠ x.2.1) ++ [(x.2.1, BitVec.ofNat 64 (x.2.2.1 + x.2.2.2))] } }
        inc Reg.TLY_LOSS_CNT 1 (raiseIrq pgTly 5 (raiseAlarm 10 none (le 1 x.1 ++ x.2.1 ++ le 8 x.2.2.2) t1))) s
  | _ => s

end Sys2Proof.Machine
end

