-- ==== Sys2Proof/Machine/Gleaner.lean ====
section
/-! DEFINITION. The white reference, the Gleaner's windows, the solver and the CAL gate (spec/16, R398 to R413). -/

namespace Sys2Proof.Machine
open Sys2Proof

/-! ## The white reference (R408 to R411) -/

/-- A port has an enabled gutter range. -/
def gutterOn (s : State) (k : Nat) : Bool := rbit s (Reg.IPL_C_GUT0 k) 31 || rbit s (Reg.IPL_C_GUT1 k) 31

def whiteRef (s : State) (k : Nat) : WhiteRef := tget s.cal.refs ⟨0, 0, 0, [], [], []⟩ k

def putRef (k : Nat) (r : WhiteRef) (s : State) : State := { s with cal := { s.cal with refs := tput s.cal.refs k r } }

/-- The white reference w of a port and channel (R386, R408). -/
def whiteOf (s : State) (k ch : Nat) : Nat :=
  if gutterOn s k then tget (whiteRef s k).m 0 ch / 65536 else rf s (Reg.IPL_C_WHITE k) 11 0

/-- A port takes part in drift and is UNSETTLED, BEYOND or RECOVERING (R404, R410). -/
def refDegraded (s : State) (k : Nat) : Bool :=
  gutterOn s k && decide ((whiteRef s k).state = 0 ∨ (whiteRef s k).state = 3 ∨ (whiteRef s k).state = 4)

/-- A port that runs and whose columns intersect a plane. -/
def inspects (s : State) (k p : Nat) : Bool := camRunning s k && decide ((camCols s k).1 < planeWidth s p)

/-- Drift freezes a plane: a port that inspects it is BEYOND or RECOVERING. -/
def driftFrozen (s : State) (p : Nat) : Bool :=
  camNums.any fun k => inspects s k p && gutterOn s k && decide (3 ≤ (whiteRef s k).state)

/-- CAL_STATUS byte 25 (R407). -/
def calState (s : State) (p : Nat) : Nat := if !s.cal.run.contains p then 1 else if driftFrozen s p then 2 else 0

/-- A plane is calibrating (R398). -/
def calibrating (s : State) (p : Nat) : Bool := decide (calState s p = 0)

/-- The windows of planes that have stopped calibrating are discarded (R402). -/
def refreshWindows (s : State) : State :=
  { s with gln := { s.gln with wins := tfilter s.gln.wins (calibrating s) } }

/-- The drift of M from A in permille; against an anchor of zero it is a free value. -/
def driftOf (m a : Nat) (s : State) : Nat × State :=
  if a = 0 then (if m = 0 then (0, s) else let d := draw 16 s; (d.1.toNat, d.2))
  else (((m : Int) - a).natAbs * 1000 / a, s)

/-- The drifts of a port's channels. -/
def drifts (r : WhiteRef) (s : State) : Tab Nat × State :=
  r.m.foldl (fun acc e => let d := driftOf e.2 (tget r.a 0 e.1) acc.2; (tput acc.1 e.1 d.1, d.2)) ([], s)

/-- The channel that drifts most. -/
def worstDrift (d : Tab Nat) : Nat × Nat := d.foldl (fun b e => if b.2 < e.2 then e else b) (0, 0)

/-- Entering WARN or BEYOND raises its alarm (R409). -/
def refAlarm (k idx : Nat) (r : WhiteRef) (s : State) : State :=
  let w := worstDrift r.drift
  raiseIrq pgCal (idx - 8) (raiseAlarm idx none
    (le 1 k ++ le 1 w.1 ++ le 4 w.2 ++ le 4 (tget r.m 0 w.1) ++ le 4 (tget r.a 0 w.1)) s)

/-- The next state of a white reference with its worst drift, and its run of lines (R409). -/
def refNext (warn limit : Nat) (r : WhiteRef) : Nat × Nat :=
  let d := (worstDrift r.drift).2
  if limit < d then (3, 0)
  else match r.state with
    | 1 | 2 => (if warn < d then 2 else 1, 0)
    | 3 => (if warn < d then 3 else 4, 0)
    | _ => if warn < d then (4, 0) else if 65536 ≤ r.run + 1 then (1, 0) else (4, r.run + 1)

/-- The gutter means of a kept line enter M, and the port's state follows (R408, R409). -/
def whiteLine (k : Nat) (gs : List (Nat × Nat)) (s : State) : State :=
  if gs = [] then s
  else
    let r := whiteRef s k
    let m := gs.foldl (fun t g => tput t g.1 (match tfind t g.1 with
      | some v => ((v : Int) + divF ((g.2 * 65536 : Nat) - (v : Int)) 65536).toNat
      | none => g.2 * 65536)) r.m
    let r1 : WhiteRef := { r with lines := min 65536 (r.lines + 1), m := m }
    if r.state = 0 then
      if r1.lines = 65536 then
        refreshWindows (putRef k { r1 with state := 1, a := m, drift := m.map fun e => (e.1, 0) } s)
      else putRef k r1 s
    else
      let d := drifts r1 s
      let r2 := { r1 with drift := d.1 }
      let n := refNext (rf d.2 Reg.CAL_REF_TOL 9 0) (rf d.2 Reg.CAL_REF_TOL 25 16) r2
      let r3 := { r2 with state := n.1, run := n.2 }
      let s1 := putRef k r3 d.2
      let s2 := if n.1 = r.state then s1
        else if n.1 = 2 then refAlarm k 14 r3 s1
        else if n.1 = 3 then refAlarm k 15 r3 s1 else s1
      refreshWindows s2

/-- A := M on every channel of a port; the port enters INSIDE. -/
def reanchor (k : Nat) (s : State) : State :=
  let r := whiteRef s k
  refreshWindows (putRef k { r with a := r.m, drift := r.m.map fun e => (e.1, 0), state := 1, run := 0 } s)

/-- REF_SELECT (R411). -/
def refSelect (h : Hdr) (port action : Nat) (s : State) : State :=
  if 3 < port then fail h 0x0104 s
  else if 1 < action then fail h 0x0103 s
  else ok h 0 (if action = 1 then reanchor port s else s)

def execRefSelect (d : Desc) (port action : BitVec 8) (s : State) : Host.Outcome State Fault Refusal :=
  .next (command d .o (fun _ => [objPort port.toNat]) (.refSelect d port action)
    (fun h => refSelect h port.toNat action.toNat) s)

/-! ## CAL_CONTROL and CAL_STATUS (R407, R413) -/

/-- CAL_CONTROL: freeze, run, or discard the open window, on planes that a running port inspects. -/
def calControl (h : Hdr) (mask action : Nat) (s : State) : State :=
  let ps := maskBits 16 mask
  if 2 < action then fail h 0x0103 s
  else if ps.any fun p => !camNums.any fun k => inspects s k p then fail h 0x0201 s
  else match action with
    | 0 => ok h 0 (refreshWindows { s with cal := { s.cal with run := s.cal.run.filter fun p => !ps.contains p } })
    | 1 => ok h 0 { s with cal := { s.cal with run := s.cal.run ++ ps.filter fun p => !s.cal.run.contains p } }
    | _ => ok h 0 (ps.foldl (fun t p => discardWindow p t) s)

def execCalControl (d : Desc) (mask : BitVec 16) (action : BitVec 8) (s : State) : Host.Outcome State Fault Refusal :=
  .next (command d .o (fun _ => (maskBits 16 mask.toNat).map objPlane) (.calControl d mask action)
    (fun h => calControl h mask.toNat action.toNat) s)

/-- CAL_PL_STAT: state and the reason of the last rejection. -/
def calReason (s : State) (p : Nat) : Nat := rf s (wkey Reg.CAL_PL_STAT p) 11 8

def calStatus (h : Hdr) (p : Nat) (s : State) : State :=
  if 15 < p then fail h 0x0104 s
  else ok h (res 16 (rn s (wkey Reg.CAL_PL_ACC p)) + res 20 (rn s (wkey Reg.CAL_PL_REJ p)) + res 24 (calReason s p) +
    res 25 (calState s p) + res 26 (rn s (wkey Reg.CAL_PL_LAST_SLOT p))) s

def execCalStatus (d : Desc) (plane : BitVec 8) (s : State) : Host.Outcome State Fault Refusal :=
  .next (query d .o (.calStatus d plane) (fun h => calStatus h plane.toNat) s)

/-! ## Glean windows (R398 to R402) -/

def gleanWin (s : State) (p : Nat) : GleanWin := tget s.gln.wins ⟨[], [], 0⟩ p

def putGlean (p : Nat) (w : GleanWin) (s : State) : State := { s with gln := { s.gln with wins := tput s.gln.wins p w } }

/-- A plane's window is open: calibrating, with no closed window waiting for the dump's release. -/
def windowOpen (s : State) (p : Nat) : Bool := calibrating s p && (tfind s.gln.closed p).isNone

/-- 2^WIN lines of each port. -/
def gleanTarget (s : State) : Nat := 2 ^ rf s Reg.GLN_CTRL 3 0

/-- Every RUNNING port that inspects the plane has contributed its lines, and some port has. -/
def windowFull (s : State) (p : Nat) : Bool :=
  let w := gleanWin s p
  let n := gleanTarget s
  (w.lines.any fun e => decide (n ≤ e.2)) &&
    camNums.all fun k => !(inspects s k p && decide ((cam s k).state = .running)) || decide (n ≤ tget w.lines 0 k)

/-- A window's accumulators become the plane's dump. -/
def writeDump (p : Nat) (w : GleanWin) (s : State) : State :=
  let n := tget s.gln.latest 0 p + 1
  { s with gln := { s.gln with dumps := tput s.gln.dumps p (n, w), latest := tput s.gln.latest p n } }

/-- A full window closes: it is dumped, or waits while the previous dump is held (R401). -/
def closeWindow (p : Nat) (s : State) : State :=
  if windowOpen s p && windowFull s p then
    let w := gleanWin s p
    let s1 := wn (wkey Reg.GLN_PL_LAST_Q p) w.q (inc (wkey Reg.GLN_PL_WINDOWS p) 1 (discardWindow p s))
    let s2 := raiseIrq pgGln 4 (event 0x6201 none (le 1 p ++ le 4 w.q ++ le 4 (gleanTarget s)) s1)
    if (tfind s.gln.dumps p).isSome then { s2 with gln := { s2.gln with closed := tput s2.gln.closed p w } }
    else writeDump p w s2
  else s

/-- Windows that wait only for ports that are RUNNING no more close. -/
def closeWindows (s : State) : State := planeNums.foldl (fun t p => closeWindow p t) s

/-- The dump of a plane is released; a closed window that waited is dumped. -/
def releaseDump (p : Nat) (s : State) : State :=
  let s1 := { s with gln := { s.gln with dumps := tdel s.gln.dumps p } }
  match tfind s1.gln.closed p with
  | some w => writeDump p w { s1 with gln := { s1.gln with closed := tdel s1.gln.closed p } }
  | none => s1

/-- A write to WIN_PL_DM0 to WIN_PL_CK discards the window of the plane selected; one to GLN_CTRL or GLN_QUAL discards every plane's
(R402). -/
def gleanDiscard (addr : Nat) (s : State) : State :=
  if addr = Reg.GLN_CTRL ∨ addr = Reg.GLN_QUAL then { s with gln := { s.gln with wins := [] } }
  else if Reg.WIN_PL_DM0 ≤ addr ∧ addr ≤ Reg.WIN_PL_CK then discardWindow (rf s Reg.WIN_PL_SEL 3 0) s
  else s

/-- The values these registers refuse besides their field ranges (R412; GLN_QUAL's LO above HI). -/
def gleanRefuses (addr : Nat) (v : Word) : Bool :=
  let n := v.toNat
  (decide (addr = Reg.WIN_PL_DM0) && decide (bits 7 0 n ≠ 0)) || (decide (addr = Reg.WIN_PL_DM1) && decide (bits 31 24 n ≠ 0)) ||
    (decide (addr = Reg.GLN_QUAL) && decide (bits 15 8 n < bits 7 0 n))

/-- The write of such a register. -/
def gleanWrite (addr : Nat) (v : Word) (s : State) : State :=
  if gleanRefuses addr v then recordErr (addr / 0x1000) 0x05 s else gleanDiscard addr (plainPut addr v s)

/-- The registers whose write discards windows: WIN_PL_DM0 to WIN_PL_CK, GLN_CTRL and GLN_QUAL. -/
def gleanReg (n : Nat) : Nat := if n < 6 then Reg.WIN_PL_DM0 + 4 * n else Reg.GLN_CTRL + 4 * ((n - 6) % 2)

def execGleanWindowDiscardWrite (ini : Initiator) (reg : Fin 8) (val : Word) (s : State) :
    Host.Outcome State Fault Refusal :=
  .next (guardWrite ini (gleanReg reg.val) allBytes val (gleanWrite (gleanReg reg.val)) s)

/-! ## Solving gains (R403) -/

/-- The fitted nozzles of a plane in ascending chip nozzle index. -/
def planeNozzles (s : State) (p : Nat) : List Nat :=
  (List.range 64).flatMap fun h =>
    if (planeHeads s p).any fun d => d.head = h then
      (fittedRows s h).flatMap fun r => (List.range (fittedPositions s h)).map fun i => h * 4096 + r * 1024 + i
    else []

/-- The nozzles of a plane in state active or weak. -/
def liveNozzles (s : State) (p : Nat) : List Nat := (planeNozzles s p).filter fun i => decide ((entry s i).state ≤ 1)

/-- The gain of a nozzle as it will stand after any accepted, unapplied commit. -/
def gainOf (s : State) (i : Nat) : Nat :=
  match (s.cal.waiting.filter fun q => q.2.1 = i).getLast? with
  | some q => q.2.2
  | none => (entry s i).gain.toNat

/-- A candidate of the solver: nozzle, new gain and weight. -/
def candidate (s : State) (p : Nat) (tsp tse : Int) (w : GleanWin) (i : Nat) : Option (Nat × Nat × Nat) :=
  let x := tget w.acc (0, 0) i
  let sp : Int := x.1
  let g : Int := gainOf s i
  let den := tsp * (sp + x.2)
  if x.1 < rf s Reg.GLN_SPMIN 23 0 ∨ tsp + tse ≤ 0 ∨ den ≤ 0 then none
  else
    let t0 := divF ((rf s (wkey Reg.CAL_PL_GBASE p) 15 0 : Int) * (tsp + tse) * sp + divF den 2) den
    let t := min (max t0 (rf s Reg.CAL_GAIN_LIM 15 0)) (rf s Reg.CAL_GAIN_LIM 31 16)
    let d := t - g
    if d.natAbs < rf s Reg.CAL_SOLVE 23 8 then none
    else
      let st0 := (d.natAbs * rf s Reg.CAL_SOLVE 7 0 + 128) / 256
      let st : Int := min st0 ((gainOf s i) * rf s Reg.CAL_STEP 9 0 / 1000)
      if st = 0 then none else some (i, (if d < 0 then g - st else g + st).toNat, d.natAbs)

/-- Insert a candidate by falling weight, after those of the same weight. -/
def insertCand (c : Nat × Nat × Nat) : List (Nat × Nat × Nat) → List (Nat × Nat × Nat)
  | [] => [c]
  | y :: r => if y.2.2 < c.2.2 then c :: y :: r else y :: insertCand c r

/-- The proposal a dump gives. -/
def propose (s : State) (p id : Nat) (w : GleanWin) : Proposal :=
  let ns := liveNozzles s p
  let tsp : Int := ((ns.map fun i => (tget w.acc (0, 0) i).1).sum : Nat)
  let tse : Int := (ns.map fun i => (tget w.acc (0, 0) i).2).sum
  let cs := (ns.filterMap (candidate s p tsp tse w)).foldl (fun l c => insertCand c l) []
  { dump := id, q := w.q, entries := (cs.take (ns.length * rf s Reg.CAL_CHG 9 0 / 1000)).map fun c => (c.1, c.2.1) }

/-- Resident firmware solves a plane's dump, submits the proposal and releases the dump. -/
def dumpSolve (p : Nat) (s : State) : State :=
  match tfind s.gln.dumps p, tfind s.cal.props p with
  | some (id, w), none => releaseDump p { s with cal := { s.cal with props := tput s.cal.props p (propose s p id w) } }
  | _, _ => s

def execGleanDumpSolve (plane : Fin 16) (s : State) : Host.Outcome State Fault Refusal := .next (dumpSolve plane.val s)

/-! ## The CAL gate (R404 to R406) -/

/-- No nozzle is named twice. -/
def namesDistinct : List (Nat × Nat) → Bool
  | [] => true
  | e :: r => !(r.any fun x => decide (x.1 = e.1)) && namesDistinct r

/-- The gain of a nozzle after a proposal. -/
def gainAfter (s : State) (es : List (Nat × Nat)) (i : Nat) : Nat :=
  ((es.find? fun e => e.1 = i).map (·.2)).getD (gainOf s i)

/-- Adjacent columns whose gains would differ by more than CAL_SMOOTH. -/
def rough (s : State) (p : Nat) (es : List (Nat × Nat)) : Bool :=
  match (plane s p).table with
  | none => false
  | some t => (List.range (planeWidth s p - 1)).any fun c =>
    match colNozzles t c, colNozzles t (c + 1) with
    | some a, some b =>
      let idx := fun (n : Nat × Nat) => n.1 * 4096 + n.2
      let named := fun (n : Nat × Nat) => es.any fun e => decide (e.1 = idx n)
      let far := fun (x y : Nat × Nat) => decide (rf s Reg.CAL_SMOOTH 15 0 <
        ((gainAfter s es (idx x) : Int) - gainAfter s es (idx y)).natAbs)
      let touched := named a.prim || named b.prim || (match a.sec with | some x => named x | none => false) ||
        (match b.sec with | some x => named x | none => false)
      touched && (far a.prim b.prim || (match a.sec, b.sec with | some x, some y => far x y | _, _ => false))
    | _, _ => false

/-- The first check a proposal fails, as its reason (R404). -/
def calReject (s : State) (p : Nat) (x : Proposal) : Option Nat :=
  let ns := planeNozzles s p
  let live := liveNozzles s p
  let gmin := rf s Reg.CAL_GAIN_LIM 15 0
  let gmax := rf s Reg.CAL_GAIN_LIM 31 16
  if (x.entries.any fun e => !live.contains e.1) || !namesDistinct x.entries || decide (x.dump ≠ tget s.gln.latest 0 p) then some 1
  else if !calibrating s p then some 2
  else if camNums.any fun k => inspects s k p && refDegraded s k then some 3
  else if x.q < rn s Reg.CAL_MINSAMP then some 4
  else if s.til.pend.any fun q => q.cmd.isSome && ns.contains q.nozzle then some 5
  else if x.entries.any fun e => decide (e.2 < gmin ∨ gmax < e.2) then some 6
  else if x.entries.any fun e => decide (gainOf s e.1 * rf s Reg.CAL_STEP 9 0 < ((e.2 : Int) - gainOf s e.1).natAbs * 1000) then some 7
  else if rough s p x.entries then some 8
  else if live.length * rf s Reg.CAL_CHG 9 0 < x.entries.length * 1000 then some 9
  else none

/-- CAL accepts a proposal: its gains wait for the plane's latch, the references of running ports take new anchors (R405). -/
def calAccept (p : Nat) (x : Proposal) (s : State) : State :=
  let s1 := { s with cal := { s.cal with waiting := s.cal.waiting ++ x.entries.map fun e => (p, e.1, e.2) } }
  let s2 := (camNums.filter fun k => camRunning s k && gutterOn s k && decide ((whiteRef s k).m ≠ [])).foldl
    (fun t k => reanchor k t) s1
  let s3 := inc (wkey Reg.CAL_PL_ACC p) 1 s2
  idleTables p (raiseIrq pgCal 4 (event 0x6301 none (le 1 p ++ le 4 x.entries.length ++ le 4 x.q) s3))

/-- CAL rejects a proposal whole. -/
def calRefuse (p r : Nat) (x : Proposal) (s : State) : State :=
  raiseIrq pgCal 5 (event 0x6302 none (le 1 p ++ le 1 r ++ le 4 x.entries.length ++ le 4 x.q)
    (wf (wkey Reg.CAL_PL_STAT p) 11 8 r (inc (wkey Reg.CAL_PL_REJ p) 1 s)))

/-- CAL checks a submitted proposal. -/
def proposalCheck (p : Nat) (s : State) : State :=
  match tfind s.cal.props p with
  | none => s
  | some x =>
    let s1 := { s with cal := { s.cal with props := tdel s.cal.props p } }
    match calReject s p x with
    | some r => calRefuse p r x s1
    | none => calAccept p x s1

def execCalProposalCheck (plane : Fin 16) (s : State) : Host.Outcome State Fault Refusal := .next (proposalCheck plane.val s)

end Sys2Proof.Machine
end

