-- ==== Sys2Proof/Machine/Kiln.lean ====
section
/-! DEFINITION. Kiln's commands and events: start, stop, pace steps, shifts, underruns, FIRE edges, fired windows, pauses and
trips (spec/10, spec/11). -/

namespace Sys2Proof.Machine
open Sys2Proof

/-! ## KILN_START and KILN_STOP (R245 to R247) -/

/-- The lowest slot number no plane has decided (R247). -/
def lowestSlot (s : State) : Nat :=
  ((List.range (s.kln.decisions.length + 1)).find? fun n => (tfind s.kln.decisions n).isNone).getD 0

/-- The start step of R430 has been passed: KILN_START fails. -/
def startPassed (s : State) (p : Nat) : Bool :=
  let k := planeChan s p
  rbit s Reg.TRM_CTRL 5 && decide (pcSrc s k ≠ 4) &&
    decide (unsigned 32 ((channel s k).netSteps - rn s Reg.TRM_START) < 2 ^ 31)

/-- MiB of a plane's swath buffer (R295). -/
def swathMiB (s : State) (p : Nat) (level : Bool) : Nat :=
  let full := (vActive s p * planeWidth s p + 1048575) / 1048576
  if level then (2 * full * 3 + 7) / 8 else 2 * full

/-- A plane enters LEAD_IN: X holds, its history of positions is the channel's, ending at X, and the hold copies are zeros (R245, R258,
R277). -/
def startPlane (group slot p : Nat) (s : State) : State :=
  let k := planeChan s p
  let c := channel s k
  let s1 := updPlane p (fun g =>
    { g with
      group := group, frames := 0, referenced := false, xs := c.trail.map (fun a => g.x + moveBy s k p (a - c.trail.headD 0)),
      underNext := false, front := g.x, sense := 1, slot := none,
      nextSlot := slot, copy := none, prevCopy := none, pass := 0, paused := c.paused, pausedAt := c.pausedAt,
      crossings := [], aboveRun := 0, belowRun := 0, rateArmed := true, wins := [], feed := none, turnaround := false,
      spoiled := false, line := latchLine s p }) s
  let s2 := (planeHeads s1 p).foldl (fun t d => d.rows.foldl (fun u r =>
    updRow d.head r (fun g => { Row.init with
      held := List.replicate d.positions 0, lastTrail := g.lastTrail, fills := g.fills, reversals := g.reversals }) u)
    (updHead d.head (fun g => { g with underrunSeen := [] }) t)) s1
  setPlaneState p .leadIn (ringAtStart p (restartStall p (now s) s2))

/-- What KILN_START does once RUN is reached. -/
def kilnStart (h : Hdr) (mask : Nat) (s : State) : State :=
  let ps := maskBits 16 mask
  if ps.any fun p => tripCoversPlane s p then fail h 0x0206 s
  else if ps.any fun p => decide ((plane s p).state ≠ .stopped) || (plane s p).table.isNone ||
      decide (pcSrc s (planeChan s p) = 0) || startPassed s p then fail h 0x0201 s
  else if ps.any fun p => decide (rf s (Reg.KLN_P_PACE_CFG p) 5 4 = 2) && !Config.swathFits (swathMiB s p false) then
    fail h 0x0401 s
  else
    let n := lowestSlot s
    ok h 0 (refreshLt (ps.foldl (fun t p => startPlane h.seq n p t) s))

/-- KILN_START (R245, R247). -/
def bodyKilnStart (h : Hdr) (c : Instr) (mask : Nat) (s : State) : State :=
  wake h c ((maskBits 16 mask).map objPlane) (kilnStart h mask) s

def execKilnStart (d : Desc) (mask : BitVec 16) (s : State) : Host.Outcome State Fault Refusal :=
  .next (command d .o (fun _ => (maskBits 16 mask.toNat).map objPlane) (.kilnStart d mask)
    (fun h => bodyKilnStart h (.kilnStart d mask) mask.toNat) s)

/-- A plane enters STOPPING: uncommitted copies that took a slot go back to the queue (R139, R246). -/
def stopping (p : Nat) (s : State) : State :=
  if (plane s p).state = .leadIn ∨ (plane s p).state = .running then returnCopies p (setPlaneState p .stopping s) else s

/-- KILN_STOP (R137, R246). -/
def bodyKilnStop (h : Hdr) (c : Instr) (mask : Nat) (s : State) : State :=
  let ps := maskBits 16 mask
  if ps = [] then ok h 0 s
  else if ps.any fun p => decide ((plane s p).state = .stopped) then fail h 0x0201 s
  else parkAccepted h c (ps.map objPlane) (ps.map keyPlane) (ps.foldl (fun t p => stopping p t) s)

def execKilnStop (d : Desc) (mask : BitVec 16) (s : State) : Host.Outcome State Fault Refusal :=
  .next (command d .o (fun _ => (maskBits 16 mask.toNat).map objPlane) (.kilnStop d mask)
    (fun h => bodyKilnStop h (.kilnStop d mask) mask.toNat) s)

/-- A parked command that waits for nothing more completes, if it is the kind the test admits. -/
def completeDone (seq : Nat) (kind : Instr → Bool) (result : State → Nat) (s : State) : State :=
  match findParked s seq with
  | some p => if kind p.cmd && p.accepted && decide (p.waits = []) then complete p.h 0 (result s) s else s
  | none => s

/-- KILN_STOP completes once every named plane is STOPPED (R246). -/
def execKilnStopDone (seq : Nat) (s : State) : Host.Outcome State Fault Refusal :=
  .next (completeDone seq (fun c => match c with | .kilnStop .. => true | _ => false) (fun _ => 0) s)

/-- PRESS_STATUS (R137, R262). -/
def pressStatus (s : State) : Nat :=
  let run := ((livePlanes s).map fun p => 2 ^ p).sum
  let trips := ((planeNums.filter fun p => tripCoversPlane s p).map fun p => 2 ^ p).sum
  let low := ((liveHeads s).filter fun h => (fittedRows s h).any fun r =>
    ((row s h r).fifo.filter fun x => x.missing.isEmpty).isEmpty).length
  res 16 run + res 18 trips + res 20 (rn s Reg.KLN_SUST_RATE) + res 24 (rf s Reg.KLN_LIMIT 5 0) + res 28 low

def execPressStatus (d : Desc) (s : State) : Host.Outcome State Fault Refusal :=
  .next (query d .o (.pressStatus d) (fun h t => ok h (pressStatus t) t) s)

/-! ## Pace steps (R274, R275) -/

/-- The selected edge of a PACE input reaches the channels it feeds; an input that breaks R275 moves each by one step either
way or not at all, and may leave the timestamp out and count (R275). While the master delay loop is unlocked an edge has phase 0 and is
counted (R519). -/
def pinStep (k t0 : Nat) (fwd clean : Bool) (s : State) : State :=
  let t := if s.clk.dllLock then t0 else t0 / 32 * 32
  let close := !s.clk.dllLock || match (channel s k).lastEdge with
    | some u => decide (t < u + 1024)
    | none => false
  if clean then
    let s1 := if close then inc (Reg.KLN_PC_RATE_ERR_CNT k) 1 s else s
    paceStep k t (if fwd then 1 else -1) close s1
  else
    let a := drawIn (-1) 1 s
    let b := drawIn 0 3 a.2
    let s1 := if b.1 % 2 = 1 then inc (Reg.KLN_PC_RATE_ERR_CNT k) 1 b.2 else b.2
    if a.1 = 0 then s1 else paceStep k t a.1 (decide (2 ≤ b.1)) s1

/-- An edge of PACE0_STEP or PACE1_STEP (R274, R275). -/
def paceEdge (input t : Nat) (rising dir clean : Bool) (s : State) : State :=
  (List.range 4).foldl (fun u k =>
    if pcSrc u k = input + 1 ∧ (rising = true ∨ rbit u (Reg.KLN_PC_CFG k) 8 = true) then
      pinStep k t (dir != rbit u (Reg.KLN_PC_CFG k) 9) clean u
    else u) (stampStep input (advanceTo t s))

def execPaceStepEdge (input : Fin 2) (rising dir clean : Bool) (t : DWord) (s : State) :
    Host.Outcome State Fault Refusal :=
  .next (paceEdge input.val t.toNat rising dir clean s)

/-! ## Shifts (R256, R309, R310) -/

/-- The running lines of a row whose shift has not started and whose FIRE edge Kiln has predicted: the next, and those whose edges stand. -/
def shiftLines (g : Row) : List (BitVec 32) :=
  g.nextShift :: (g.edges.map (·.f)).filter fun f => decide (0 < runDist f g.nextShift)

/-- The row-lines of a head whose FIRE edge is predicted and whose shift has not started, by shift deadline, ties to the lower row: deadline,
row and running line (R256). -/
def deadlines (s : State) (p h : Nat) : List (Int × Nat × BitVec 32) :=
  let front : Int := rf s (Reg.HLK_KLN_HFRONT h) 15 0 * 32
  let before := fun (y x : Int × Nat × BitVec 32) => decide (y.1 < x.1 ∨ (y.1 = x.1 ∧ y.2.1 ≤ x.2.1))
  ((fittedRows s h).flatMap fun r =>
    if (row s h r).started then
      (shiftLines (row s h r)).filterMap fun f => (edgeOf s p h r f).map fun e => (e - front, r, f)
    else [])
  |>.foldl (fun l x => l.filter (fun y => before y x) ++ x :: l.filter (fun y => !before y x)) []

/-- Latest starts chained backward over the deadlines (R256). -/
def latestStarts (framed : Bool) (shift : Int) : List (Int × Nat × BitVec 32) → List ((Nat × BitVec 32) × Int)
  | [] => []
  | (d, q) :: rest =>
    let later := latestStarts framed shift rest
    let e := match later with | (_, t) :: _ => min d t | [] => d
    let t := if framed then divF (e - shift) 4096 * 4096 else e - shift
    (q, t) :: later

/-- T_ls of a row's row-line of a running line. -/
def latestStartOf (s : State) (p h r : Nat) (f : BitVec 32) : Option Int :=
  ((latestStarts (portMode s h = 1) (shiftTime s h) (deadlines s p h)).find? fun x => decide (x.1 = (r, f))).map (·.2)

/-- T_ls of a row's next row-line. -/
def latestStart (s : State) (p h r : Nat) : Option Int := latestStartOf s p h r (row s h r).nextShift

/-- E of a row's next row-line: none while an earlier one has still to fire (R256). -/
def earliestStart (s : State) (h r : Nat) : Option Nat :=
  let g := row s h r
  if g.tx = [] ∧ g.under = [] then some (g.lastTrail + rf s (Reg.HLK_KLN_HBACK h) 15 0 * 32) else none

/-- The bits of a code, least significant first (R309). -/
def codeBits (c : Nat) : List Bool := [c % 2 = 1, c / 2 % 2 = 1, c / 4 % 2 = 1]

/-- The forward frames of a sheaf with its LOAD descriptor in the first (R309, R310). -/
def sheafOut (s : State) (h : Nat) (codes : List Nat) (d : FireDesc) : List OutFrame :=
  let stream := ((codes ++ List.replicate (hAct s h - codes.length) 0).take (hAct s h)).flatMap codeBits
  (List.range (sheafFrames s h)).map fun k =>
    let part := (stream.drop (464 * k)).take 464
    { typ := 1, desc := if k = 0 then some d else none, first := decide (k = 0),
      payload := part ++ List.replicate (464 - part.length) false : OutFrame }

/-- The number of the FIRE pulse the next descriptor is for, mod 4 (R310). -/
def nextTag (s : State) (h : Nat) : Nat := ((port s h).fires + (port s h).descs.length) % 4

/-- A swap that came late is counted and posted with the line crossings since its latch (R313). -/
def lateSwap (h : Nat) (s : State) : State :=
  match (port s h).swapDue, planeOfHead s h with
  | some (f, slot), some p =>
    raiseIrq (pgHlk h) 8 (event 0x4105 none (le 1 h ++ le 4 slot ++ le 4 ((plane s p).runline - f).toNat)
      (inc (Reg.HLK_VAR_LATE_CNT h) 1 s))
  | _, _ => s

/-- Kiln sends a descriptor: it is outstanding from its frame to its pulse, and it takes a swap that waits (R310, R313). With four
outstanding, a descriptor without a sheaf waits for a pulse to leave. -/
def sendDesc (h r act : Nat) (codes : List Nat) (s0 : State) : State :=
  let x0 := port s0 h
  if 4 ≤ x0.descs.length ∧ act ≠ 0 then updPort h (fun x => { x with descWait := x.descWait ++ [(r, act)] }) s0 else
  let late := x0.swapDue.isSome && x0.ready
  let s := if late then lateSwap h s0 else s0
  let d : FireDesc := ⟨nextTag s h, r, act, x0.swapNext || late⟩
  let idle : OutFrame := { typ := 0, desc := some d, first := false, payload := List.replicate 464 false }
  let fs := if act = 0 then sheafOut s h codes d else [idle]
  updPort h (fun x => { x with
    frames := x.frames ++ fs, descs := x.descs ++ [d], swapNext := false,
    swapDue := if d.swap then none else x.swapDue, ready := x.ready && !d.swap,
    bank := if d.swap then 1 - x.bank else x.bank }) s

/-- A pulse has left the port: its descriptor is no longer outstanding, and one that waits goes out (R310). -/
def pulseLeft (h : Nat) (s : State) : State :=
  let s1 := updPort h (fun x => { x with fires := (x.fires + 1) % 4, descs := x.descs.drop 1 }) s
  match (port s1 h).descWait with
  | q :: rest => sendDesc h q.1 q.2 [] (updPort h (fun x => { x with descWait := rest }) s1)
  | [] => s1

/-- Nanoseconds of a span of fire timebase units. -/
def toNs (d : Int) : Nat := (d * 390625 / 10000000).toNat

/-- The rows whose next sheaf is ready to shift at an instant, by deadline: it is complete, and its earliest start has passed (R256,
R257). -/
def shiftable (s : State) (p h t : Nat) : List (Int × Nat × BitVec 32) :=
  (deadlines s p h).filter fun x =>
    let g := row s h x.2.1
    decide (x.2.2 = g.nextShift) && (g.fifo.any fun z => decide (z.f = g.nextShift) && z.missing.isEmpty) &&
      (match earliestStart s h x.2.1 with | some e => decide (e ≤ t) | none => false)

/-- Codes go out to a head: over the link with a LOAD descriptor, or in direct mode through its shift register, position H_ACTIVE − 1 first
(R309, R310, R321). -/
def sendCodes (h r start : Nat) (codes : List Nat) (s : State) : State :=
  if portMode s h = 1 then sendDesc h r 0 codes s
  else emit (.sdata h start ((codes ++ List.replicate (hAct s h - codes.length) 0).take (hAct s h)).reverse) s

/-- Kiln starts shifting the ready sheaf with the earliest shift deadline whose earliest start has passed (R256, R257,
R262). -/
def sheafShift (h t : Nat) (s : State) : State :=
  match planeOfHead s h with
  | none => s
  | some p =>
    match shiftable s p h t with
    | [] => s
    | (_, r, _) :: _ =>
      if !headLive s h || tripCoversPlane s p || decide (t < (port s h).busyUntil) || decide (4 ≤ (port s h).descs.length)
      then s
      else
        let s0 := advanceTo t s
        let margin := match latestStart s0 p h r with
          | some l => toNs (l - (((row s0 h r).fifo.find? fun z => z.f = (row s0 h r).nextShift).map (·.doneAt)).getD 0)
          | none => 0xFFFFFFFF
        let g := row s0 h r
        let start := if portMode s0 h = 1 then (t + 4095) / 4096 * 4096 else t
        let fin := start + shiftTime s0 h
        match g.fifo.find? fun z => z.f = g.nextShift with
        | none => s
        | some x =>
          let s1 := updRow h r (fun g => { g with
            fifo := g.fifo.filter (·.f ≠ x.f), nextShift := x.f + 1,
            tx := g.tx ++ [{ x with ready := fin + rf s0 (Reg.HLK_KLN_HFRONT h) 15 0 * 32 }] }) s0
          let s2 := wn (wkey Reg.KLN_H_MARGIN_MIN h) (min margin (rn s1 (wkey Reg.KLN_H_MARGIN_MIN h))) s1
          let s3 := updPort h (fun z => { z with busyUntil := fin }) s2
          sendCodes h r start x.codes s3

def execKilnSheafShift (head : Fin 64) (t : DWord) (s : State) : Host.Outcome State Fault Refusal :=
  .next (sheafShift head.val t.toNat s)

/-! ## Underrun (R257, R258, R291, R319) -/

/-- A row-line declared underrun whose pulse will not leave after all: what engines counted of its fill is owed a reversal, and its fill is over
zeros (R260, R291). -/
def unfired (p h r : Nat) (x : Fill) (s : State) : State :=
  let all := rowEngines s x.split h r
  let waiting := (((row s h r).fills.find? fun y => y.f = x.f).map (·.engines)).getD []
  let first := (((row s h r).fills.find? fun y => y.f = x.f).map (·.first)).getD []
  let ran := all.filter fun e => !waiting.contains e
  winUntake p x.slot h r x.line (updRow h r (fun g => { g with
    reversals := if ran = [] then g.reversals else g.reversals ++ [⟨x.f, x.undo, ran, x.split⟩],
    fills := g.fills.filter (·.f ≠ x.f) ++
      [{ x with codes := List.replicate (fittedPositions s h) 0, engines := all, first := first ++ ran, undo := [] }] }) s)

/-- A row-line of which no pulse leaves: no sheaf, a fill over zeros, and zeros on Kiln's side of the fired windows (R270, R291). -/
def tripLine (p h r : Nat) (f : BitVec 32) (s : State) : State :=
  let s1 := match (row s h r).under.find? fun x => x.f = f with
    | some x => unfired p h r x s
    | none => replaceLine p h r f (List.replicate (fittedPositions s h) 0) s
  silentCodes p h r f (updRow h r (fun g => { g with
    nextShift := if g.nextShift = f then f + 1 else g.nextShift,
    nextEdge := if g.nextEdge = f then f + 1 else g.nextEdge,
    edges := g.edges.filter (·.f ≠ f), under := g.under.filter (·.f ≠ f) }) s1)

/-- A head can no longer fire: row-lines sent or declared underrun whose pulse has not left become underruns in blank mode, those sent newly
counted, and no edge stands (R319, R324, R519). -/
def headLost (h : Nat) (s : State) : State :=
  match planeOfHead s h with
  | none => s
  | some p =>
    if !(plane s p).live then s
    else (fittedRows s h).foldl (fun u r =>
      let g := row u h r
      let s1 := g.tx.foldl (fun v x => tripLine p h r x.f (countUnderrun p h r x.f 1 v)) u
      let s2 := g.under.foldl (fun v x => tripLine p h r x.f v) s1
      updRow h r (fun g => { g with edges := [] }) s2) (updPort h (fun x => { x with descs := [], descWait := [] }) s)

/-- What Kiln sends for a row-line it has declared underrun: the descriptor of R310, or in direct mode the codes themselves (R258, R322). -/
def sendUnderrun (h r t : Nat) (blank : Bool) (codes : List Nat) (s : State) : State :=
  if portMode s h = 1 then sendDesc h r (if blank then 2 else 1) [] s
  else sendCodes h r t codes (updPort h (fun z => { z with busyUntil := t + shiftTime s h }) s)

/-- A row-line's latest start passes with its sheaf incomplete, or with its earliest start still to come (R257); a head that
cannot fire underruns in blank mode without a pulse (R319, R324), a tripped plane's row-lines are replaced (R291). -/
def rowUnderrun (h r t : Nat) (s : State) : State :=
  match planeOfHead s h with
  | none => s
  | some p =>
    let g := row s h r
    let f := g.nextShift
    if !g.started || !(plane s p).live then s
    else match latestStart s p h r with
      | none => s
      | some l =>
        let whole := g.fifo.any fun x => decide (x.f = f) && x.missing.isEmpty
        let tooLate := match earliestStart s h r with | some e => decide (l < (e : Int)) | none => true
        if (t : Int) < l || (whole && !tooLate && headLive s h && !tripCoversPlane s p) then s
        else
          let s0 := advanceTo t s
          if tripCoversPlane s0 p then tripLine p h r f s0
          else if !headLive s0 h then declareUnderrun p h r f true true s0
          else
            let blank := rbit s0 (Reg.KLN_P_CTRL p) 0
            let s1 := declareUnderrun p h r f blank false s0
            sendUnderrun h r t blank ((((row s1 h r).under.find? fun x => x.f = f).map (·.codes)).getD []) s1

def execRowLineUnderrun (head : Fin 64) (row : Fin 4) (t : DWord) (s : State) : Host.Outcome State Fault Refusal :=
  .next (rowUnderrun head.val row.val t.toNat s)

/-! ## FIRE edges (R280, R282) -/

/-- The next edges of a head's rows: instant, row, and the edge. -/
def frontEdges (s : State) (h : Nat) : List (Nat × Nat × Edge) :=
  (fittedRows s h).filterMap fun r => (row s h r).edges.head?.map fun e => (e.instant, r, e)

/-- The edge to leave next: the earliest, which was armed first, then by F and the lower row (R282). -/
def nextFire (s : State) (h : Nat) : Option (Nat × Nat × Edge) :=
  (frontEdges s h).foldl (fun (b : Option (Nat × Nat × Edge)) x =>
    match b with
    | none => some x
    | some y =>
      let sooner := x.1 < y.1 ∨ (x.1 = y.1 ∧ (x.2.2.pred < y.2.2.pred ∨ (x.2.2.pred = y.2.2.pred ∧ x.2.1 < y.2.1)))
      if sooner then some x else b) none

/-- The codes a row-line fires: of the sheaf shifted, or of the underrun (R258, R311): codes, plane line, slot, the earliest
instant its pulse may leave. -/
def firing (g : Row) (f : BitVec 32) : Option (List Nat × Option Nat × Nat × Nat) :=
  match g.tx.find? fun x => x.f = f with
  | some x => some (x.codes, x.line, x.slot, x.ready)
  | none => (g.under.find? fun x => x.f = f).map fun x => (x.codes, x.line, x.slot, 0)

/-- A head's next edge leaves its pair: after the shift's end by H_FRONT (R256), spaced from the one before (R282); what it
fires becomes the row's held codes and enters Kiln's side of the fired windows (R258, R270). -/
def fireEdge (h : Nat) (s : State) : State :=
  match planeOfHead s h, nextFire s h with
  | some p, some (_, r, e) =>
    match firing (row s h r) e.f with
    | none => s
    | some (codes, line, slot, ready) =>
      if !headLive s h || tripCoversPlane s p then s
      else
        let at1 := max e.instant ready
        let s1 := if e.instant < at1 then inc (Reg.KLN_P_LATE_EDGE_CNT p) 1 s else s
        let width := rf s1 (Reg.HLK_KLN_HSYNC h) 11 0
        let gap := rf s1 (Reg.HLK_KLN_FIRE h) 23 16
        let last := (khead s1 h).lastLead
        let at2 := if last ≠ 0 ∧ at1 < last + (width + gap) * 32 then last + (width + gap) * 32 else at1
        let s2 := if at1 < at2 then inc (Reg.HLK_KLN_SLIP_CNT h) 1 s1 else s1
        let s3 := emit (.fire h r at2 (if e.armed then e.tap else armTap s2 h)) (advanceTo at2 s2)
        let s4 := updRow h r (fun g => { g with
          tx := g.tx.filter (·.f ≠ e.f), under := g.under.filter (·.f ≠ e.f), edges := g.edges.drop 1, held := codes,
          nextEdge := if g.nextEdge = e.f then e.f + 1 else g.nextEdge, lastTrail := at2 + width * 32 })
          (updHead h (fun g => { g with lastLead := at2 }) s3)
        let s5 := pulseLeft h s4
        codes.zipIdx.foldl (fun t q => winCode true p slot h (r * 1024 + q.2) line q.1 t) s5
  | _, _ => s

def execFireEdge (head : Fin 64) (s : State) : Host.Outcome State Fault Refusal := .next (fireEdge head.val s)

/-! ## Fired windows (R270, R271) -/

/-- Insert a code into a list kept in the order of R218: line, column, primary before secondary. -/
def insertCode (x : Nat × Nat × Nat × Nat) : List (Nat × Nat × Nat × Nat) → List (Nat × Nat × Nat × Nat)
  | [] => [x]
  | y :: r =>
    let k := fun (z : Nat × Nat × Nat × Nat) => (z.1 * 2 ^ 20 + z.2.1) * 2 + z.2.2.1
    if k x ≤ k y then x :: y :: r else y :: insertCode x r

/-- The CRC-32C of a window's codes in the order of R218. -/
def windowCrc (l : List (Nat × Nat × Nat × Nat)) : Word :=
  crc32c (((l.foldl (fun acc x => insertCode x acc) [])).map fun x => BitVec.ofNat 8 x.2.2.2)

/-- The codes a window holds when complete: one for each fitted nozzle of its columns on each of its lines. -/
def windowSize (s : State) (p : Nat) (w : FiredWin) : Nat :=
  match (plane s p).table with
  | none => 0
  | some t =>
    let per := ((List.range w.w).map fun i =>
      match colNozzles t (w.x + i) with
      | some q => (if isFitted s q.prim.1 q.prim.2 then 1 else 0) +
          (match q.sec with | some b => if isFitted s b.1 b.2 then 1 else 0 | none => 0)
      | none => 0).sum
    per * w.h

/-- Add to a copy's counts of fired windows (R469). -/
def countFired (c : Option Nat) (bad : Bool) (s : State) : State :=
  match c with
  | some x => updCopy x (fun y => { y with
      firedSeen := y.firedSeen + 1, firedBad := y.firedBad + if bad then 1 else 0 }) s
  | none => s

/-- Compare the oldest fired window of an index whose two CRCs are complete (R271). -/
def compareWindow (p i : Nat) (s : State) : State :=
  match (plane s p).wins.find? fun w => decide (w.index = i) && !w.done with
  | none => s
  | some w =>
    let n := windowSize s p w
    if !rbit s Reg.KLN_CHK_CTRL 0 || decide (w.kiln.length < n) || decide (w.til.length < n) then s
    else
      let a := windowCrc w.kiln
      let b := windowCrc w.til
      let bad := decide (a ≠ b)
      let s1 := wr (wkey (Reg.KLN_P_FWIN_REF p) i) b (wr (wkey (Reg.KLN_P_FWIN_CRC p) i) a s)
      let s2 := countFired w.copy bad (updPlane p (fun g => { g with wins := g.wins.map fun x =>
        if x.index = i ∧ x.slot = w.slot then { x with done := true, failed := bad } else x }) s1)
      let ws := (plane s2 p).wins.filter fun x => x.slot = w.slot
      let s3 := if ws.all (·.done) then
          wn (Reg.KLN_P_FWIN_RES p) ((ws.map fun x => 2 ^ x.index).sum +
            65536 * ((ws.filter (·.failed)).map fun x => 2 ^ x.index).sum) s2 else s2
      let s4 := if bad then
          let c := match w.copy with | some x => findCopy s3 x | none => none
          let ids := match c with
            | some x => le 2 x.tenant ++ le 4 x.job ++ le 4 x.num
            | none => le 2 0 ++ le 4 0 ++ le 4 0
          raiseIrq (pgKlnP p) 5 (event 0x4003 (c.map (·.tenant))
            (le 1 p ++ le 4 w.slot ++ le 1 i ++ le 4 a.toNat ++ le 4 b.toNat ++ ids)
            (flagCopy w.copy (fun f => { f with fired := true }) (inc (Reg.KLN_P_FWIN_FAIL_CNT p) 1 s3)))
        else s3
      match w.copy with | some x => settleFired x s4 | none => s4

def execFiredWindowCompare (plane : Fin 16) (win : Fin 16) (s : State) : Host.Outcome State Fault Refusal :=
  .next (compareWindow plane.val win.val s)

/-- A write of KLN_MARK: a disabled output is driven low (R254). -/
def markWrite (v : Word) (s : State) : State :=
  let s1 := plainPut Reg.KLN_MARK v s
  { s1 with kln := { s1.kln with marks := s1.kln.marks.filter fun m => rbit s1 Reg.KLN_MARK (8 * m + 7) } }

/-- A FRAME_MARK pulse ends (R254). -/
def execFrameMarkEnd (mark : Fin 4) (s : State) : Host.Outcome State Fault Refusal :=
  .next { s with kln := { s.kln with marks := s.kln.marks.filter (· ≠ mark.val) } }

/-! ## Pauses (R278, R287 to R289) -/

/-- A plane pauses: no other edge is armed, its frame makes no proposal, and the tickle period starts (R283, R287, R288). -/
def pausePlane (k p since : Nat) (s : State) : State :=
  if (plane s p).live then
    notePause p (updPlane p (fun g => { g with
      paused := true, pausedAt := since, pausedInFrame := true, crossings := [], aboveRun := 0, belowRun := 0,
      tickleAt := now s + rf s (Reg.KLN_PC_PTICKLE k) 15 0 * us }) s)
  else s

/-- No step within the pause time: the channel becomes PAUSED (R278, R287). -/
def channelPause (k t : Nat) (s : State) : State :=
  let c := channel s k
  if c.paused || decide (t < c.pausedAt + pauseTime s k) then s
  else
    let s0 := advanceTo t s
    let s1 := updChannel k (fun x => { x with paused := true }) s0
    let s2 := raiseIrq pgKlnC 6 (event 0x4007 none (le 1 k ++ le 1 1 ++ le 4 0) (inc (Reg.KLN_PC_PAUSE_CNT k) 1 s1))
    (followers s2 k).foldl (fun u p => if (plane u p).paused then u else pausePlane k p c.pausedAt u) s2

def execChannelPause (ch : Fin 4) (t : DWord) (s : State) : Host.Outcome State Fault Refusal :=
  .next (channelPause ch.val t.toNat s)

/-- A plane whose position stays behind its front past the pause time pauses (R287). -/
def planePause (p t : Nat) (s : State) : State :=
  let g := plane s p
  let k := planeChan s p
  if !g.live || g.paused || g.turnaround || decide (g.x = g.front) || decide (t ≤ g.pausedAt + pauseTime s k) then s
  else pausePlane k p g.pausedAt (advanceTo t s)

def execPlanePause (plane : Fin 16) (t : DWord) (s : State) : Host.Outcome State Fault Refusal :=
  .next (planePause plane.val t.toNat s)

/-- Pause tickle codes of a row: code 7 for nozzles in states 0 to 2 whose entry is good (R288). -/
def tickleCodes (s : State) (h r : Nat) : List Nat :=
  (List.range (fittedPositions s h)).map fun i =>
    let x := entry s (h * 4096 + r * 1024 + i)
    if x.state ≤ 2 ∧ x.good then 7 else 0

/-- Kiln sends a row codes that belong to no running line and fires them: a shift once the port is free, and the pulse H_FRONT after it; they
become the row's held codes (R255, R258, R288). -/
def loadAndFire (h r : Nat) (codes : List Nat) (s : State) : State :=
  let start := max (now s) (port s h).busyUntil
  let fin := start + shiftTime s h
  let at1 := fin + rf s (Reg.HLK_KLN_HFRONT h) 15 0 * 32
  let s1 := sendCodes h r start codes (updPort h (fun z => { z with busyUntil := fin }) s)
  let s2 := updHead h (fun g => { g with lastLead := at1 }) (emit (.fire h r at1 (armTap s1 h)) s1)
  let s3 := updRow h r (fun g => { g with
    held := codes, lastTrail := at1 + rf s (Reg.HLK_KLN_HSYNC h) 11 0 * 32 }) s2
  pulseLeft h s3

/-- Pause tickles go to a head's fitted rows; they become held codes and count in the engines' TICKLES (R288). -/
def tickleHead (h : Nat) (s : State) : State :=
  (fittedRows s h).foldl (fun t r =>
    let cs := tickleCodes t h r
    loadAndFire h r cs (cs.zipIdx.foldl (fun u q =>
      if q.1 = 7 then inc64 (Reg.TIL_E_TICKLES (if serves u (2 * h) (r * 1024 + q.2) then 2 * h else 2 * h + 1)) 1 u
      else u) t)) s

/-- The PTICKLE period expires in a pause or a turnaround (R288, R300); while a trip latch covers the plane no pulse leaves (R291). -/
def pauseTickle (p t : Nat) (s : State) : State :=
  let g := plane s p
  let k := planeChan s p
  if !(g.paused || (g.turnaround && g.live)) || !rbit s (Reg.KLN_PC_PTICKLE k) 16 || decide (t < g.tickleAt) then s
  else
    let s0 := updPlane p (fun g => { g with tickleAt := g.tickleAt + rf s (Reg.KLN_PC_PTICKLE k) 15 0 * us }) (advanceTo t s)
    (planeHeads s0 p).foldl (fun u d =>
      if (port u d.head).pwren && headLive u d.head && !tripCoversPlane u p && rbit u (Reg.TIL_E_SPIT (2 * d.head)) 4 then
        tickleHead d.head u
      else u) s0

def execPauseTickle (plane : Fin 16) (t : DWord) (s : State) : Host.Outcome State Fault Refusal :=
  .next (pauseTickle plane.val t.toNat s)

/-- A pause passes SPOIL: the open frame's copy is flagged PAUSE and counted once (R289). -/
def pauseSpoil (p t : Nat) (s : State) : State :=
  let g := plane s p
  let k := planeChan s p
  if !g.paused || g.spoiled || decide (t ≤ g.pausedAt + rf s (Reg.KLN_PC_PAUSE k) 31 16 * ms) then s
  else
    let s1 := updPlane p (fun g => { g with spoiled := true }) (advanceTo t s)
    match g.copy with
    | some c => inc (Reg.KLN_P_PAUSE_SPOIL_CNT p) 1 (marCopy p (some c) (fun f => { f with pause := true }) s1)
    | none => s1

def execPauseSpoil (plane : Fin 16) (t : DWord) (s : State) : Host.Outcome State Fault Refusal :=
  .next (pauseSpoil plane.val t.toNat s)

/-! ## Trips (R290 to R293) -/

def updTrip (i : Nat) (f : Trip → Trip) (s : State) : State :=
  { s with kln := { s.kln with trips := tput s.kln.trips i (f (trip s i)) } }

/-- A latch takes a plane: STOPPING, its open frame flagged, and row-lines whose edge had not left replaced (R291). -/
def tripPlane (p : Nat) (s : State) : State :=
  if (plane s p).live then
    let s1 := stopping p (marCopy p (plane s p).copy (fun f => { f with trip := true }) s)
    (planeHeads s1 p).foldl (fun t d => d.rows.foldl (fun u r =>
      let g := row u d.head r
      (g.tx.map (·.f) ++ g.under.map (·.f)).foldl (fun v f => tripLine p d.head r f v)
        (updRow d.head r (fun g => { g with edges := [] }) u))
        (updPort d.head (fun x => { x with descs := [], descWait := [] }) t)) s1
  else s

/-- Queued enables of a command a trip covers are withdrawn, and the command completes with 0x0206 (R545). -/
def tripEnables (s : State) : State :=
  let cmds := (s.pwr.queue.filterMap fun q =>
    match segmentOf s q.head with
    | some g => if tripCoversSegment s g then q.cmd else none
    | none => none).eraseDups
  cmds.foldl (fun t c => completeSeq c 0x0206 (res 16 (poweredMask t)) (withdrawCmd (some c) t)) s

/-- Head power of a tripped segment goes low (R290). -/
def tripSegments (mask : Nat) (s : State) : State :=
  (List.range 64).foldl (fun t h =>
    match segmentOf t h with
    | some g => if mask / 2 ^ g % 2 = 1 then headOff h t else t
    | none => t) s

/-- Axes a latch maps; commands that wait for their admission fail (R359, R361). -/
def tripAxes (i : Nat) (s : State) : State :=
  (List.range 8).foldl (fun t a =>
    if rbit t (Reg.MOT_TRIP_MAP i) a then
      (waiters t (keyAdmit a)).foldl (fun u q => fail q.h 0x0206 u) (tripAxis a t)
    else t) s

/-- TRIP_N[i] low for 2 ns: the latch sets, posts and takes down what its maps name (R290, R291). -/
def setTrip (i t : Nat) (s : State) : State :=
  let s0 := updTrip i (fun x => { x with low := true, highSince := none }) (advanceTo t s)
  if (trip s i).latched then s0
  else
    let s1 := inc (Reg.KLN_TRIP_CNT i) 1 (updTrip i (fun x => { x with latched := true }) s0)
    let map := rn s1 (Reg.KLN_TRIP_MAP i)
    let s2 := raiseIrq pgKlnC 5 (raiseAlarm 12 none (le 4 i ++ le 4 (map % 65536) ++ le 4 (map / 65536) ++ le 8 (stamp s1).toNat) s1)
    let s3 := (maskBits 16 map).foldl (fun u p => tripPlane p u) s2
    tripAxes i (tripEnables (tripSegments (map / 65536) s3))

/-- TRIP_N[i] goes low for 2 ns, or returns high (R290, R292). -/
def tripInput (i t : Nat) (low : Bool) (s : State) : State :=
  if low then setTrip i t s
  else updTrip i (fun x => { x with low := false, highSince := some t }) (advanceTo t s)

def execTripInput (input : Fin 4) (low : Bool) (t : DWord) (s : State) : Host.Outcome State Fault Refusal :=
  .next (tripInput input.val t.toNat low s)

/-- TRIP_N[i] has been high for the qualification time (R292); it is high since reset until it first falls. -/
def tripQualified (s : State) (i : Nat) : Bool :=
  let x := trip s i
  !x.low && match x.highSince with
    | none => true
    | some u => decide (u + rf s Reg.KLN_TRIP_QUAL 15 0 * us < now s)

/-- A write of KLN_TRIP_CLR (R292). -/
def tripClear (v : Word) (s : State) : State :=
  (maskBits 4 v.toNat).foldl (fun t i =>
    if !(trip t i).latched then t
    else if tripQualified t i then updTrip i (fun x => { x with latched := false }) t
    else recordErr pgKlnC 0x43 (updTrip i (fun x => { x with reject := true }) t)) s

def execKlnTripClear (ini : Initiator) (val : Word) (s : State) : Host.Outcome State Fault Refusal :=
  .next (guardWrite ini Reg.KLN_TRIP_CLR allBytes val tripClear s)

/-! ## Slot-targeted commits (R251) -/

/-- A write of KLN_P_APPLY_CTRL: ARM as written, LATE cleared by 1. Clearing ARM lets an idle latch apply what waited. -/
def applyArm (p : Nat) (v : Word) (s : State) : State :=
  let s1 := plainPut (Reg.KLN_P_APPLY_CTRL p) v s
  if rbit s1 (Reg.KLN_P_APPLY_CTRL p) 0 then s1 else idleTables p ((framePages s1 p).foldl (fun t n => idleLatch n t) s1)

def execApplyArmWrite (ini : Initiator) (plane : Fin 16) (val : Word) (s : State) : Host.Outcome State Fault Refusal :=
  .next (guardWrite ini (Reg.KLN_P_APPLY_CTRL plane.val) allBytes val (applyArm plane.val) s)

end Sys2Proof.Machine
end

