-- ==== Sys2Proof/Machine/Grist.lean ====
section
/-! DEFINITION. The Grist format (spec/06): block decoding with its errors and lane cycles, and the checks of a stream's
headers and indexes. -/

namespace Sys2Proof.Machine
open Sys2Proof

/-! ## Error codes (spec/06, "Thresher error codes") -/

def gStruct : Nat := 0x40
def gAuth : Nat := 0x41
def gSegment : Nat := 0x42
def gTable : Nat := 0x43
def gSymbol : Nat := 0x44
def gDistance : Nat := 0x45
def gOverrun : Nat := 0x46
def gShort : Nat := 0x47
def gLength : Nat := 0x48
def gCrc : Nat := 0x49
def gBudget : Nat := 0x4A

/-! ## The bit reader (R151) -/

/-- The unread bits of a coded body: their little-endian value and how many there are. -/
structure BitSrc where
  val : Nat
  left : Nat
  deriving DecidableEq, Repr

/-- An `n`-bit integer field, least significant bit first; a read beyond the body is a LENGTH error. -/
def readBits (n : Nat) (b : BitSrc) : Except Nat (Nat × BitSrc) :=
  if b.left < n then .error gLength else .ok (b.val % 2 ^ n, ⟨b.val / 2 ^ n, b.left - n⟩)

/-! ## Canonical codes (R159, R160) -/

/-- A canonical prefix code: how many symbols have each length from 1 up to the longest used, and the symbols in order
of length and then number. -/
structure Code where
  counts : List Nat
  syms : List Nat
  deriving DecidableEq, Repr

/-- The symbols of one length, in ascending order, of a list of code lengths numbered from `i`. -/
def symsOfLen (len : Nat) : List Nat → Nat → List Nat
  | [], _ => []
  | l :: r, i => if l = len then i :: symsOfLen len r (i + 1) else symsOfLen len r (i + 1)

/-- The canonical code of a list of code lengths; invalid is none. Exactly one used symbol must have length 1; no used
symbol is the empty code (R160 admits it for distances). -/
def mkCode (maxlen : Nat) (lens : List Nat) : Option Code :=
  let used := lens.filter (0 < ·)
  let longest := used.foldl max 0
  let ls := (List.range longest).map (· + 1)
  let c : Code := ⟨ls.map fun l => (symsOfLen l lens 0).length, (ls.map fun l => symsOfLen l lens 0).flatten⟩
  if used.length = 0 then some c
  else if used.length = 1 then (if longest = 1 then some c else none)
  else if (used.map fun l => 2 ^ (maxlen - l)).sum = 2 ^ maxlen then some c else none

/-- Read one symbol, most significant bit first. -/
def decodeSym : List Nat → List Nat → Nat → Nat → BitSrc → Except Nat (Nat × BitSrc)
  | [], _, _, _, _ => .error gSymbol
  | c :: cs, syms, code, first, b =>
    match readBits 1 b with
    | .error e => .error e
    | .ok (bit, b') =>
      let code' := 2 * code + bit
      let first' := 2 * first
      if code' < first' + c then .ok (syms.getD (code' - first') 0, b')
      else decodeSym cs (syms.drop c) code' (first' + c) b'

def readSym (c : Code) (b : BitSrc) : Except Nat (Nat × BitSrc) := decodeSym c.counts c.syms 0 0 b

/-! ## Code tables (R157, R158) -/

/-- The order in which code-length-code lengths are sent (R157). -/
def clOrder : List Nat := [0, 16, 17, 18, 8, 7, 9, 6, 10, 5, 11, 4, 12, 3, 13, 2, 14, 1, 15]

/-- The 3-bit lengths of the code-length symbols. -/
def readClLens : List Nat → BitSrc → Except Nat (List (Nat × Nat) × BitSrc)
  | [], b => .ok ([], b)
  | sym :: r, b =>
    match readBits 3 b with
    | .error e => .error e
    | .ok (v, b1) =>
      match readClLens r b1 with
      | .error e => .error e
      | .ok (l, b2) => .ok ((sym, v) :: l, b2)

/-- The sequence of code lengths, newest first, until `n` have been read (fuel: one entry per symbol). -/
def readLens : Nat → Code → Nat → List Nat → BitSrc → Except Nat (List Nat × BitSrc)
  | 0, _, _, _, _ => .error gTable
  | fuel + 1, c, n, acc, b =>
    if acc.length = n then .ok (acc, b)
    else
      match readSym c b with
      | .error e => .error e
      | .ok (sym, b1) =>
        if sym < 16 then readLens fuel c n (sym :: acc) b1
        else
          let ext := if sym = 16 then 2 else if sym = 17 then 3 else 7
          match readBits ext b1 with
          | .error e => .error e
          | .ok (x, b2) =>
            let k := if sym = 18 then 11 + x else 3 + x
            if sym = 16 ∧ acc = [] then .error gTable
            else if n < acc.length + k then .error gTable
            else readLens fuel c n (List.replicate k (if sym = 16 then acc.headD 0 else 0) ++ acc) b2

/-- The preamble of a CODED body: the literal/length and the distance code. -/
def readTables (b : BitSrc) : Except Nat (Code × Code × BitSrc) :=
  match readBits 6 b with
  | .error e => .error e
  | .ok (hll, b1) =>
  match readBits 5 b1 with
  | .error e => .error e
  | .ok (hd, b2) =>
  match readBits 4 b2 with
  | .error e => .error e
  | .ok (hcl, b3) =>
  if 56 < hll then .error gTable else
  match readClLens (clOrder.take (hcl + 4)) b3 with
  | .error e => .error e
  | .ok (cls, b4) =>
  match mkCode 7 ((List.range 19).map fun i => (cls.find? fun p => p.1 = i).elim 0 (·.2)) with
  | none => .error gTable
  | some clc =>
  if clc.syms = [] then .error gTable else
  let nll := hll + 257
  let n := nll + hd + 1
  match readLens (n + 1) clc n [] b4 with
  | .error e => .error e
  | .ok (rev, b5) =>
  let lens := rev.reverse
  if lens.getD 256 0 = 0 then .error gTable else
  match mkCode 15 (lens.take nll), mkCode 15 (lens.drop nll) with
  | some ll, some dist => .ok (ll, dist, b5)
  | _, _ => .error gTable

/-! ## Symbols (R152 to R156) -/

/-- Extra bits and base of a length code (R152). -/
def lenCode (k : Nat) : Nat × Nat :=
  if k < 8 then (0, k + 3)
  else if k = 27 then (16, 3079)
  else if k = 26 then (10, 2055)
  else
    let e := (k - 8) / 2 + 1
    (e, (2 ^ (e - 1) - 1) * 4 + 11 + 2 ^ e * (k % 2))

/-- Extra bits and base of a distance symbol (R153). -/
def distCode (d : Nat) : Nat × Nat :=
  if d < 4 then (0, d + 1) else (d / 2 - 1, (2 + d % 2) * 2 ^ (d / 2 - 1) + 1)

/-- Copy `n` bytes from distance `dist` back; a source before the block reads 0 (R154, R155). The output is kept newest
first. -/
def copyBack (dist : Nat) : Nat → List Byte → List Byte
  | 0, out => out
  | n + 1, out => copyBack dist n (out.getD (dist - 1) 0#8 :: out)

/-- Lane cycles of a run of literals. -/
def litCycles (r : Nat) : Nat := (r + 1) / 2

/-- What a lane gives for a block: its output or the error it is abandoned with, the cycles spent (R169), the output as far as it goes, and
the cycle in which each whole line of that is written (R171). -/
structure BlockResult where
  out : Except Nat (List Byte)
  cycles : Nat
  part : List Byte
  marks : List Nat

/-- The marks, newest first, once `n` bytes are out in cycle `c`. -/
def markLines (stride n c : Nat) (marks : List Nat) : List Nat := List.replicate (n / stride - marks.length) c ++ marks

/-- The symbols of a coded block (the reference loop of spec/06). The output and the marks are newest first; `run` counts the literals not
yet charged. -/
def decodeLoop : Nat → Code → Code → Nat → Nat → List Byte → List Nat → Nat → Nat → BitSrc → BlockResult
  | 0, _, _, _, _, out, mk, _, cyc, _ => ⟨.error gLength, cyc, out.reverse, mk.reverse⟩
  | fuel + 1, ll, dc, stride, nOut, out, mk, run, cyc, b =>
    let stop := fun (e c : Nat) => (⟨.error e, c, out.reverse, mk.reverse⟩ : BlockResult)
    match readSym ll b with
    | .error e => stop e (cyc + litCycles run)
    | .ok (sym, b1) =>
      if sym < 256 then
        if out.length = nOut then stop gOverrun (cyc + litCycles (run + 1))
        else decodeLoop fuel ll dc stride nOut (BitVec.ofNat 8 sym :: out)
          (markLines stride (out.length + 1) (cyc + litCycles (run + 1)) mk) (run + 1) cyc b1
      else if sym = 256 then
        let c := cyc + litCycles run + 1
        if out.length < nOut then stop gShort c
        else if b1.val ≠ 0 ∨ 8 ≤ b1.left then stop gLength c
        else ⟨.ok out.reverse, c, out.reverse, mk.reverse⟩
      else
        let lc := lenCode ((sym - 257) % 28)
        match readBits lc.1 b1 with
        | .error e => stop e (cyc + litCycles run)
        | .ok (x, b2) =>
          let len := lc.2 + x
          let c := cyc + litCycles run + (len + 3) / 4
          let marks := markLines stride (out.length + len) c mk
          if sym ≤ 284 then
            match readSym dc b2 with
            | .error e => stop e c
            | .ok (d, b3) =>
              let de := distCode d
              match readBits de.1 b3 with
              | .error e => stop e c
              | .ok (y, b4) =>
                if out.length < de.2 + y then stop gDistance c
                else if nOut < out.length + len then stop gOverrun c
                else decodeLoop fuel ll dc stride nOut (copyBack (de.2 + y) len out) marks 0 c b4
          else if nOut < out.length + len then stop gOverrun c
          else decodeLoop fuel ll dc stride nOut (copyBack stride len out) marks 0 c b2

/-- The cycles in which the lines of a STORED or FILL block are written: 4 bytes a cycle after the start (R169). -/
def plainMarks (lines stride : Nat) : List Nat := (List.range lines).map fun i => 8 + ((i + 1) * stride + 3) / 4

/-- Decode one block of `lines` lines (R150, R169): its bytes with the header, without the CRC check. -/
def decodeBlock (lines stride : Nat) (bs : List Byte) : BlockResult :=
  let n := lines * stride
  match bs with
  | t :: h1 :: _ :: _ :: body =>
    if t = 0#8 then ⟨.ok body, 8 + (n + 3) / 4, body, plainMarks lines stride⟩
    else if t = 1#8 then ⟨.ok (List.replicate n h1), 8 + (n + 3) / 4, List.replicate n h1, plainMarks lines stride⟩
    else
      let src : BitSrc := ⟨leVal body, 8 * body.length⟩
      match readTables src with
      | .error e => ⟨.error e, 8 + 512, [], []⟩
      | .ok (ll, dc, b) => decodeLoop (8 * body.length + 1) ll dc stride n [] [] 0 (8 + 512) b
  | _ => ⟨.error gStruct, 8, [], []⟩

/-! ## Stream structure (R145 to R150) -/

/-- The stride of a line (R146). -/
def strideOf (level : Bool) (width : Nat) : Nat := if level then (3 * width + 7) / 8 else width

/-- A block's header agrees with its type (R150). A CODED block of compressed length 4 holds no bit of a body: the model takes that for a
length that disagrees with the table, a STRUCT error of the stream, where it could be a LENGTH error of the block (DESIGN CHOICE:
notes/assumptions/72.md). -/
def blockOk (bs : List Byte) (outLen : Nat) : Bool :=
  let t := leAt bs 0 1
  if t = 0 then allZero (slice bs 1 4) && decide (bs.length = 4 + outLen)
  else if t = 1 then allZero (slice bs 2 4) && decide (bs.length = 4)
  else decide (t = 2) && allZero (slice bs 1 4) && decide (5 ≤ bs.length)

/-- The blocks of a husk from its index: entries not yet read, entry number, line, and byte offset of the next block. -/
def huskBlocks (bs : List Byte) (idx husk stride : Nat) (crcFlag : Bool) : Nat → Nat → Nat → Nat → Option (List BlockLoc)
  | 0, _, _, _ => some []
  | n + 1, i, line, off =>
    let e := slice bs (idx + 16 * i) (idx + 16 * i + 16)
    let len := leAt e 0 4
    let lines := leAt e 4 4
    if e.length = 16 ∧ 1 ≤ lines ∧ lines < 2 ^ 18 ∧ allZero (slice e 12 16) ∧ (crcFlag ∨ leAt e 8 4 = 0) ∧
        lines * stride ≤ 262144 ∧ off + len ≤ bs.length ∧ blockOk (slice bs off (off + len)) (lines * stride) then
      (huskBlocks bs idx husk stride crcFlag n (i + 1) (line + lines) (off + len)).map fun r =>
        { husk, block := i, line, lines, off, len,
          crc := if crcFlag then some (BitVec.ofNat 32 (leAt e 8 4)) else none : BlockLoc } :: r
    else none

/-- The husks of a stream from a byte offset on (fuel: one husk per 16 bytes): the blocks, or none on any breach of R145
to R150. -/
def huskWalk : Nat → List Byte → Nat → Nat → Nat → Nat → Nat → Option (List BlockLoc)
  | 0, _, _, _, _, _, _ => none
  | fuel + 1, bs, stride, height, husk, line, off =>
    if off = bs.length then (if line = height ∧ 0 < husk then some [] else none)
    else
      let h := slice bs off (off + 16)
      let n := leAt h 2 2
      let count := leAt h 8 4
      let flags := leAt h 12 1
      if h.length = 16 ∧ leAt h 0 2 = 0x4B48 ∧ 1 ≤ n ∧ n ≤ 4096 ∧ leAt h 4 4 = line ∧ 1 ≤ count ∧ flags ≤ 1 ∧
          allZero (slice h 13 16) then
        match huskBlocks bs (off + 16) husk stride (decide (flags = 1)) n 0 line (off + 16 + 16 * n) with
        | none => none
        | some bl =>
          if (bl.map (·.lines)).sum = count then
            (huskWalk fuel bs stride height (husk + 1) (line + count)
              (off + 16 + 16 * n + (bl.map (·.len)).sum)).map (bl ++ ·)
          else none
      else none

/-- A checked Grist stream: mode, width, height and line-to-block map. -/
structure GristMap where
  level : Bool
  width : Nat
  height : Nat
  blocks : List BlockLoc
  deriving DecidableEq, Repr

/-- Check a stream's headers and indexes (R145 to R150). -/
def gristMap (bs : List Byte) : Option GristMap :=
  let mode := leAt bs 5 1
  let w := leAt bs 8 4
  let h := leAt bs 12 4
  if 32 ≤ bs.length ∧ leAt bs 0 4 = 0x54535247 ∧ leAt bs 4 1 = 1 ∧ mode ≤ 1 ∧ allZero (slice bs 6 8) ∧
      1 ≤ w ∧ w ≤ 262144 ∧ 1 ≤ h ∧ h ≤ 16777215 ∧ allZero (slice bs 16 32) then
    (huskWalk (bs.length + 1) bs (strideOf (decide (mode = 1)) w) h 0 0 32).map fun bl =>
      ⟨decide (mode = 1), w, h, bl⟩
  else none

end Sys2Proof.Machine
end

