-- ==== Sys2Proof/Machine/Unseal.lean ====
section
/-! DEFINITION. Unsealing the segments of the stream in preparation, each with the key in the slot as it starts (spec/06, R161 to R164,
R606; spec/18, R464, R465). -/

namespace Sys2Proof.Machine
open Sys2Proof

/-- The nonce base of a tenant's job. -/
def nonceBase (s : State) (t j : Nat) : Option DWord :=
  (s.jobs.jobs.find? fun x => decide (x.tenant = t ∧ x.id = j)).map (·.nonceBase)

/-- Unseal one segment of a stream: the number and page of the segment before; its plaintext, number and page, or the error's reason and
segment number (R161, R162). -/
def unsealSeg (key : BitVec 256) (base : DWord) (x : Stream) (prev : Option (Nat × Nat)) (off len : Nat) :
    Except (Nat × Nat) (List Byte × Nat × Nat) :=
  let b := slice x.bytes off (off + len)
  let num := leAt b 12 4
  let l := leAt b 16 4
  let page := leAt b 8 4
  let follows := match prev with
    | some (n, p) => decide (num = n + 1 ∧ page = p)
    | none => true
  if b.length < 48 ∨ l = 0 ∨ 1048528 < l ∨ b.length ≠ 48 + l ∨ leAt b 0 4 ≠ x.tenant ∨ leAt b 4 4 ≠ x.job ∨ follows = false then
    .error (gSegment, num)
  else if !allZero (slice b 20 32) then .error (gStruct, num)
  else match Config.gcmOpen key (le 8 base.toNat ++ le 4 num) (b.take 16) (slice b 32 (32 + l)) (slice b (32 + l) (48 + l)) with
    | none => .error (gAuth, num)
    | some pt => .ok (pt, num, page)

/-- Insert a descriptor into the offset order. -/
def insertDesc (d : Nat × Nat × Bool) : List (Nat × Nat × Bool) → List (Nat × Nat × Bool)
  | [] => [d]
  | e :: r => if d.1 ≤ e.1 then d :: e :: r else e :: insertDesc d r

/-- The instant at which the next segment starts: 64 sealed bytes take one CK_TIL cycle (R606). -/
def Unseal.starts (u : Unseal) : Nat := u.began + fireCycle * (u.taken / 64)

/-- Unsealing has found a stream bad. -/
def unsealFail (t h reason num : Nat) (s : State) : State :=
  updStream t h (fun y => { y with prep := .busy (some (reason, num)), plain := [] }) { s with thr := { s.thr with segs := none } }

/-- The next segment starts, with the key in the slot now (R164). THR_STREAM_BAD gives segment 0 where no segment is read: for a stream
with an unsealed descriptor and for a missing key or job nonce (DESIGN CHOICE: notes/assumptions/72.md). -/
def unsealNext (t h : Nat) (u : Unseal) (s : State) : State :=
  match u.rest, findStream s t h with
  | (off, len, _) :: rest, some x =>
    match (sagTenant s t).key, nonceBase s t x.job with
    | some k, some b => match unsealSeg k b x u.prev off len with
      | .ok (pt, num, page) =>
        updStream t h (fun y => { y with plain := y.plain ++ pt, sealedPage := some page })
          { s with thr := { s.thr with segs := some { u with rest, prev := some (num, page), taken := u.taken + len } } }
      | .error (r, num) => unsealFail t h r num s
    | _, _ => unsealFail t h gSegment 0 s
  | _, _ => s

/-- Segments start one after another: those due by an instant, or all that are left. -/
def unsealRun (due : Option Nat) : Nat → State → State
  | 0, s => s
  | n + 1, s => match s.thr.segs, s.thr.preparing with
    | some u, some (t, h) =>
      if u.rest.isEmpty || due.any (fun e => decide (e < u.starts)) then s else unsealRun due n (unsealNext t h u s)
    | _, _ => s

/-- Segments left to start. -/
def unsealLeft (s : State) : Nat := (s.thr.segs.map (·.rest.length)).getD 0

/-- The segments that have started by now have done so with the key that was in the slot: a key that replaces it in the same cycle counts
after the start (R164). -/
def unsealDue (s : State) : State := unsealRun (some (now s)) (unsealLeft s) s

/-- Thresher starts to prepare the stream whose turn it is: its segments begin to start, or its bytes are taken as they are (R164, R606). -/
def streamPrepare (t h : Nat) (s : State) : State :=
  if s.thr.preparing.isSome ∨ s.thr.ready.head? ≠ some (t, h) then s
  else
    let s1 := { s with thr := { s.thr with ready := s.thr.ready.drop 1 } }
    match findStream s t h with
    | none => s1
    | some x =>
      let u : Unseal := { rest := x.descs.foldl (fun l d => insertDesc d l) [], prev := none, began := now s, taken := 0 }
      let begin := fun (plain : List Byte) (v : State) =>
        updStream t h (fun y => { y with prep := .busy none, plain, sealedPage := none }) v
      let s2 := { s1 with thr := { s1.thr with preparing := some (t, h), segs := none } }
      if !x.sealed then begin x.bytes s2
      else if !x.descs.all (·.2.2) then unsealFail t h gSegment 0 s2
      else unsealDue (begin [] { s2 with thr := { s2.thr with segs := some u } })

def execThrStreamPrepare (tenant : Fin 1024) (handle : Word) (s : State) : Host.Outcome State Fault Refusal :=
  .next (streamPrepare tenant.val handle.toNat s)

end Sys2Proof.Machine
end

