-- ==== Sys2Proof/Machine/Thresher.lean ====
section
/-! DEFINITION. Thresher: judging streams, decoding blocks for copies, the budget and abandoned blocks (spec/06, R165 to R172, R606). -/

namespace Sys2Proof.Machine
open Sys2Proof

/-! ## Bad streams (R165) -/

/-- The copies of a page that a stream is bad for are voided with CORRUPT. -/
def voidPage (t j p : Nat) (s : State) : State :=
  (copyOrder s fun c => decide (c.tenant = t ∧ c.job = j ∧ c.page = p))|> (·.foldl (fun u c => voidCopy c true u) s) |> refreshIdle

/-- Report a bad stream. -/
def streamBad (t h reason seg : Nat) (s : State) : State :=
  let s1 := recordErr pgThr reason (inc Reg.THR_STREAM_BAD_CNT 1 s)
  let s2 := if reason = gAuth then raiseIrq pgThr 5 (inc Reg.THR_AUTH_CNT 1 s1) else s1
  raiseIrq pgThr 6 (event 0x2002 (some t)
    (le 2 t ++ le 4 h ++ le 1 reason ++ (if reason = gAuth ∨ reason = gSegment then le 4 seg else []))
    (wn Reg.THR_LAST_BAD_TEN (t + 65536 * reason) (wn Reg.THR_LAST_BAD_HDL h s2)))

/-- The checks of a prepared stream that depend on a page that names it (R147, R162): the reason it is bad for that page. -/
def pageClash (x : Stream) (t : Template) (q : PagePlane) : Option Nat :=
  if x.level ≠ t.level ∨ x.width ≠ q.width ∨ x.height ≠ t.height ∨ x.sealed ≠ t.sealed then some gStruct
  else match x.sealedPage with
    | some n => if n = t.page then none else some gSegment
    | none => none

/-- Check a page against the streams it names that are prepared, once for each stream (R165). THR_STREAM_BAD gives segment 0 for a page that
is not the segments' page (DESIGN CHOICE: notes/assumptions/72.md). -/
def checkPage (t : Template) (s : State) : State :=
  t.planes.foldl (fun u q =>
    match findStream u t.tenant q.handle with
    | some x =>
      if x.prep = .good ∧ (t.job, t.page) ∉ x.badFor then
        match pageClash x t q with
        | some r => voidPage t.tenant t.job t.page (streamBad x.tenant x.handle r 0
            (updStream x.tenant x.handle (fun y => { y with badFor := (t.job, t.page) :: y.badFor }) u))
        | none => u
      else u
    | none => u) s

/-- The templates that name a stream. -/
def namingPages (s : State) (t h : Nat) : List Template :=
  s.jobs.templates.filter fun x => decide (x.tenant = t) && x.planes.any fun q => decide (q.handle = h)

/-- A stream turns out bad as a whole: it is reported, and the copies of every page that names it are voided. -/
def badStream (t h reason seg : Nat) (s : State) : State :=
  (namingPages s t h).foldl (fun u x => voidPage t x.job x.page u)
    (streamBad t h reason seg (updStream t h (fun y => { y with prep := .bad reason, plain := [] }) s))

/-- A preparation ends: the segments that had not started have by now, and the headers and indexes are checked (R164, R165, R606). -/
def streamPrepared (s0 : State) : State :=
  match s0.thr.preparing with
  | none => s0
  | some (t, h) =>
    let s := unsealRun none (unsealLeft s0) s0
    let s1 := { s with thr := { s.thr with preparing := none, segs := none } }
    match findStream s t h with
    | none => s1
    | some x => match x.prep with
      | .busy (some (r, seg)) => badStream t h r seg s1
      | .busy none => match gristMap x.plain with
        | none => badStream t h gStruct 0 s1
        | some m =>
          let s2 := updStream t h (fun y => { y with
            prep := .good, level := m.level, width := m.width, height := m.height, blocks := m.blocks }) s1
          refreshReady ((namingPages s2 t h).foldl (fun u x => checkPage x u) s2)
      | _ => s1

def execThrStreamPrepared (s : State) : Host.Outcome State Fault Refusal := .next (streamPrepared s)

/-- Pages go: what streams were judged to be for them is forgotten, and the plaintext of a sealed stream goes with its page (R165). -/
def leavePages (gone : Template → Bool) (s : State) : State :=
  let ts := s.jobs.templates.filter gone
  let leave := fun (x : Stream) =>
    let mine := ts.filter fun t => decide (t.tenant = x.tenant) && t.planes.any fun q => decide (q.handle = x.handle)
    let y := { x with badFor := x.badFor.filter fun q => !mine.any fun t => decide (t.job = q.1 ∧ t.page = q.2) }
    if x.prep = .good ∧ (mine.any fun t => decide (x.sealedPage = some t.page)) = true then
      { y with prep := .freed, plain := [], blocks := [] } else y
  { s with jobs := { s.jobs with
      streams := s.jobs.streams.map leave, templates := s.jobs.templates.filter fun t => !gone t } }

/-- A page names a sealed stream whose plaintext went with an earlier page: Thresher prepares it again (R164, R165; DEDUCED:
notes/assumptions/72.md). -/
def prepareAgain (t : Template) (s : State) : State :=
  noteReady { s with jobs := { s.jobs with streams := s.jobs.streams.map fun x =>
    if x.tenant = t.tenant ∧ (t.planes.any fun q => decide (q.handle = x.handle)) = true ∧ x.prep = .freed then
      { x with prep := .none } else x } }

/-! ## Bands (R185, R190, R294, R295) -/

/-- Lines of a band (GLZ_BAND). -/
def bandLines (s : State) : Nat := 2 ^ (rf s Reg.GLZ_BAND 2 0 + 6)

/-- The source plane of a printing plane (R268). -/
def srcPlane (s : State) (p : Nat) : Nat := (cloneSrc s p).getD p

/-- A copy's placements on a printing plane, with their places in the record. -/
def planePlacements (s : State) (x : Copy) (p : Nat) : List (Placement × Nat) :=
  x.placements.zipIdx.filter fun q => decide (q.1.plane = srcPlane s p)

/-- A placement's lines. -/
def Placement.rows (tiles : List Tile) (t : Nat) (q : Placement) : Nat :=
  if q.op = 4 then q.height else ((tiles.find? fun x => decide (x.tenant = t ∧ x.id = q.tile)).map (·.height)).getD 0

/-- A placement crosses lines [y0, y0 + n). -/
def Placement.crosses (tiles : List Tile) (t y0 n : Nat) (q : Placement) : Bool :=
  decide (q.line < y0 + n ∧ y0 < q.line + q.rows tiles t)

/-- A band of a copy on a plane is a copy band (R185). -/
def isCopyBand (s : State) (x : Copy) (p b : Nat) : Bool :=
  (planePlacements s x p).any fun q => decide (q.1.op = 4) && q.1.crosses s.glz.tiles x.tenant (b * bandLines s) (bandLines s)

/-- The page lines of a pass on a plane (R294): from, and up to but not including. -/
def passBand (s : State) (x : Copy) (p pass : Nat) : Nat × Nat :=
  if scanning s p then
    ((passStart s p pass).toNat, min x.page0.height (passStart s p pass + (planeWidth s p : Int)).toNat)
  else (0, x.page0.height)

/-- The page lines whose background a pass needs: its own, with the whole of every copy band they meet (R167, R187, R295). -/
def passNeed (s : State) (x : Copy) (p pass : Nat) : Nat × Nat :=
  let q := passBand s x p pass
  let n := bandLines s
  let last := (q.2 - 1) / n
  if q.2 ≤ q.1 then q
  else (if isCopyBand s x p (q.1 / n) then q.1 / n * n else q.1,
        if isCopyBand s x p last then min x.page0.height ((last + 1) * n) else q.2)

/-! ## Deadlines (R78, R79, R166, R190) -/

/-- The running line of frame line y of pass i of a copy on a plane, once its slot is known: the latch of that frame plus the
lines after it. -/
def frameRunline (s : State) (x : Copy) (p i y : Nat) : Option (BitVec 32) :=
  let g := plane s p
  match x.slot with
  | none => none
  | some n0 =>
    if !g.live then none
    else
      let y0 := vSync s p + vBack s p + y
      match g.slot with
      | some n =>
        if n0 + i < n then
          some (g.prevLatchRun + BitVec.ofNat 32 (g.prevVis.1 + y) - BitVec.ofNat 32 ((n - 1 - n0 - i) * vTotal s p))
        else some (g.latchRun + BitVec.ofNat 32 ((n0 + i - n) * vTotal s p + y0))
      | none => some (g.runline + BitVec.ofNat 32 (g.leadIn + (n0 + i - g.nextSlot) * vTotal s p + y0))

/-- The deadline of frame line y of pass i of a copy on a plane: the earliest predicted FIRE edge of it, less HIF_GUARD. -/
def lineDeadline (s : State) (x : Copy) (p i y : Nat) : Option Int :=
  match frameRunline s x p i y with
  | none => none
  | some f =>
    let ts := (planeHeads s p).flatMap fun d => d.rows.filterMap fun r =>
      edgeTime s p d.head r (f + BitVec.ofNat 32 (rowOfs s p d.head r))
    match ts with
    | [] => none
    | t :: r => some (r.foldl min t - (rf s Reg.HIF_GUARD 15 0 * us : Nat))

/-- The pass that first needs a page line, and the frame line that needs it: the line itself in single-pass mode, the pass's
first active line in a scanning mode (R166, R295). -/
def firstNeed (s : State) (p l : Nat) : Nat × Nat :=
  if scanning s p then
    (((List.range (planePasses s p)).find? fun i =>
      decide (passStart s p i ≤ (l : Int) ∧ (l : Int) < passStart s p i + (planeWidth s p : Int))).getD 0, 0)
  else (0, l)

/-- The deadline of a page line for a pass: a line of a copy band carries that of the band's first line (R190); in a scanning mode the whole
swath carries that of the pass's first active line (R295). -/
def pageDeadline (s : State) (x : Copy) (p pass l : Nat) : Option Int :=
  let b := l / bandLines s
  lineDeadline s x p pass (if scanning s p then 0 else if isCopyBand s x p b then b * bandLines s else l)

/-- An earlier deadline comes first; none comes last. -/
def sooner (a b : Option Int) : Bool :=
  match a, b with
  | some x, some y => decide (x < y)
  | some _, none => true
  | none, _ => false

/-! ## Blocks (R166, R167) -/

/-- The stream of a copy's background on a printing plane, its source's for a clone (R268). -/
def copyStream (s : State) (x : Copy) (p : Nat) : Option Stream :=
  match x.page0.planes.find? fun q => q.plane = srcPlane s p with
  | some q => findStream s x.tenant q.handle
  | none => none

/-- The copies Thresher and Glaze work on, in press-queue order: READY and COMMITTED ones, and those past FIRED that have not left Glaze
(R196). -/
def liveCopies (s : State) : List Copy :=
  (copyOrder s fun c => decide (c.state = .ready ∨ c.state = .committed ∨ c.seq ∈ s.glz.late)).filterMap fun c => findCopy s c

/-- The blocks that hold the lines a pass of a copy needs on a plane (R166, R167). -/
def passBlocks (s : State) (x : Copy) (p pass : Nat) (y : Stream) : List BlockLoc :=
  let q := passNeed s x p pass
  y.blocks.filter fun b => decide (b.line < q.2 ∧ q.1 < b.line + b.lines)

/-- The key of a pass on a plane among those whose blocks a copy has queued. -/
def passKey (p pass : Nat) : Nat := p + 16 * pass

/-- The blocks of copies that have become READY join the queue, plane by plane and pass by pass. -/
def enqueueBlocks (s : State) : State :=
  (liveCopies s).foldl (fun u x => (copyPlanes u x).foldl (fun v p => (List.range (planePasses v p)).foldl (fun w i =>
    if ((findCopy w x.seq).map (·.begun)).getD [] |>.contains (passKey p i) then w
    else match copyStream w x p with
      | none => w
      | some y =>
        let js := (passBlocks w x p i y).map fun b =>
          { copy := x.seq, plane := p, pass := i, tenant := x.tenant, handle := y.handle, loc := b : BlockJob }
        updCopy x.seq (fun z => { z with begun := passKey p i :: z.begun })
          { w with thr := { w.thr with queue := w.thr.queue ++ js } }) v) u) s

/-- The lines of a block that its pass needs: from, and up to but not including (R167). -/
def jobLines (s : State) (x : Copy) (j : BlockJob) : Nat × Nat :=
  let q := passNeed s x j.plane j.pass
  (max j.loc.line q.1, min (j.loc.line + j.loc.lines) q.2)

/-- The deadline of a block: that of its first needed line (R166). -/
def jobDeadline (s : State) (j : BlockJob) : Option Int :=
  match findCopy s j.copy with
  | some x => pageDeadline s x j.plane j.pass (jobLines s x j).1
  | none => none

/-- A block goes before another: earlier deadline, then lower plane, then lower line; the queue's order without deadlines. -/
def jobBefore (s : State) (a b : BlockJob) : Bool :=
  let da := jobDeadline s a
  let db := jobDeadline s b
  sooner da db || (decide (da = db) && da.isSome &&
    decide (a.plane < b.plane ∨ (a.plane = b.plane ∧ a.loc.line < b.loc.line)))

/-- The block to start next. -/
def nextJob (s : State) : Option BlockJob :=
  s.thr.queue.foldl (fun b j => match b with | none => some j | some k => if jobBefore s j k then some j else some k) none

/-! ## Lines (R167, R171) -/

/-- A decoded line of a block. -/
def jobLine (j : BlockJob) (l : Nat) (bytes : List Byte) : DecLine :=
  { copy := j.copy, plane := j.plane, pass := j.pass, line := l, bytes, taken := false }

/-- The lines a to b of a block, as far as its pass needs them, go to Glaze; lines before the pass's band are discarded (R167). -/
def giveLines (x : Copy) (j : BlockJob) (stride : Nat) (out : List Byte) (a b : Nat) (s : State) : State :=
  let q := jobLines s x j
  let ls := ((List.range j.loc.lines).filter fun i => decide (a ≤ i ∧ i < b ∧ q.1 ≤ j.loc.line + i ∧ j.loc.line + i < q.2)).map fun i =>
    jobLine j (j.loc.line + i) (slice out (i * stride) (i * stride + stride))
  { s with thr := { s.thr with lines := s.thr.lines ++ ls } }

/-- What a lane makes of a block, and the stride. -/
def jobResult (s : State) (j : BlockJob) : Option (Nat × BlockResult) :=
  match findStream s j.tenant j.handle with
  | some y =>
    let stride := strideOf y.level y.width
    some (stride, decodeBlock j.loc.lines stride (slice y.plain j.loc.off (j.loc.off + j.loc.len)))
  | none => none

/-- The CK_TIL cycles a lane has spent on its block by an instant, memory stalls apart (R169; DESIGN CHOICE: notes/assumptions/39.md). -/
def Lane.spent (l : Lane) (t : Nat) : Nat := (t - l.start) / fireCycle

/-- The lines a lane has decoded by now are given (R167, R171). -/
def laneLines (lane : Nat) (s : State) : State :=
  match tfind s.thr.lanes lane with
  | none => s
  | some l => match jobResult s l.job, findCopy s l.job.copy with
    | some (stride, r), some x =>
      let n := max l.given (r.marks.filter (· ≤ l.spent (now s))).length
      giveLines x l.job stride r.part l.given n { s with thr := { s.thr with lanes := tput s.thr.lanes lane { l with given := n } } }
    | _, _ => s

/-- What every lane has decoded by now. -/
def decodeDue (s : State) : State := (s.thr.lanes.map (·.1)).foldl (fun t k => laneLines k t) s

/-- The lines of an abandoned block are zeros, but for those Glaze has taken (R171). -/
def zeroLines (x : Copy) (j : BlockJob) (stride : Nat) (s : State) : State :=
  let q := jobLines s x j
  let mine := fun (d : DecLine) => decide (d.copy = j.copy ∧ d.plane = j.plane ∧ d.pass = j.pass ∧ q.1 ≤ d.line ∧ d.line < q.2)
  let kept := s.thr.lines.filter fun d => !mine d || d.taken
  let zeros := (((List.range (q.2 - q.1)).map (q.1 + ·)).filter fun l => !kept.any fun d => mine d && decide (d.line = l)).map fun l =>
    jobLine j l (List.replicate stride 0)
  { s with thr := { s.thr with lines := kept ++ zeros } }

/-- A block is abandoned: its lines are zeros, and it is counted and reported (R171). -/
def abandonBlock (j : BlockJob) (stride reason : Nat) (s : State) : State :=
  let s1 := match findCopy s j.copy with | some x => zeroLines x j stride s | none => s
  let s2 := recordErr pgThr reason (inc Reg.THR_ABANDON_CNT 1 s1)
  let s3 := if reason = gBudget then inc Reg.THR_BUDGET_CNT 1 s2 else s2
  let s4 := wn Reg.THR_LAST_BAD_LOC (j.loc.husk + 2 ^ 20 * j.loc.block)
    (wn Reg.THR_LAST_BAD_TEN (j.tenant + 65536 * reason) (wn Reg.THR_LAST_BAD_HDL j.handle s3))
  let ids := match findCopy s j.copy with | some x => le 4 x.job ++ le 4 x.num | none => le 4 0 ++ le 4 0
  raiseIrq pgThr 4 (event 0x2001 (some j.tenant)
    (le 2 j.tenant ++ le 4 j.handle ++ ids ++ le 1 j.plane ++ le 4 j.loc.husk ++ le 2 j.loc.block ++ le 1 reason) s4)

/-- A copy one of whose blocks was abandoned is voided before its commit and marked CORRUPT after it (R171, R108). -/
def corruptCopy (c : Nat) (s : State) : State :=
  match findCopy s c with
  | some x =>
    if x.state = .queued ∨ x.state = .ready then refreshIdle (voidCopy c true s)
    else flagCopy (some c) (fun f => { f with corrupt := true }) s
  | none => s

/-! ## The budget (R170) -/

/-- Cycles a copy may spend on a plane (R170). -/
def planeBudget (s : State) (x : Copy) (p : Nat) : Nat :=
  match copyStream s x p with
  | some y =>
    let n := ((List.range (planePasses s p)).map fun i =>
      ((passBlocks s x p i y).map fun b => b.lines * strideOf y.level y.width).sum).sum
    rf s Reg.THR_BUDGET 15 0 * cdiv n 1024
  | none => 0

/-- Two blocks share a budget. -/
def sameBudget (j k : BlockJob) : Bool := decide (k.copy = j.copy ∧ k.plane = j.plane)

/-- The cycles that the other lanes have spent on blocks of a block's copy and plane by a cycle of its lane; in that cycle lanes are charged
in ascending order of their blocks' first lines (R170). -/
def othersSpent (s : State) (j : BlockJob) (t : Nat) : Nat :=
  ((s.thr.lanes.filter fun e => sameBudget j e.2.job).map fun e =>
    let c := ((jobResult s e.2.job).map (·.2.cycles)).getD 0
    min (e.2.spent t - if j.loc.line < e.2.job.loc.line then 1 else 0) c).sum

/-- A block's charges up to `c` cycles carry its copy and plane past the budget while it is in decode (R170). -/
def overBudget (s : State) (x : Copy) (l : Lane) (c : Nat) : Bool :=
  rbit s Reg.THR_CTRL 0 &&
    decide (tget x.budget 0 l.job.plane < tget x.cycles 0 l.job.plane + c + othersSpent s l.job (l.start + fireCycle * c))

/-- A charge passes the budget: the block charged and every other unfinished block of the copy and plane are abandoned, those not started at
once and with no lane (R170). -/
def budgetOverrun (j : BlockJob) (stride : Nat) (s : State) : State :=
  let rest := ((s.thr.lanes.map (·.2.job)).filter (sameBudget j)) ++ s.thr.queue.filter (sameBudget j)
  let s1 := { s with thr := { s.thr with
    lanes := s.thr.lanes.filter fun e => !sameBudget j e.2.job, queue := s.thr.queue.filter fun k => !sameBudget j k } }
  corruptCopy j.copy (rest.foldl (fun u k => abandonBlock k stride gBudget u) (abandonBlock j stride gBudget s1))

/-- A lane takes a block: the first of a copy on a plane takes the budget in force, and a first cycle past the budget abandons it (R166,
R170). -/
def laneStart (lane : Nat) (j : BlockJob) (s : State) : State :=
  let l : Lane := { job := j, start := now s, given := 0 }
  let s1 := updCopy j.copy (fun x => if (tfind x.budget j.plane).isSome then x
    else { x with budget := tput x.budget j.plane (planeBudget s x j.plane) }) { s with thr := { s.thr with queue := s.thr.queue.erase j } }
  let past := match findCopy s1 j.copy with | some x => overBudget s1 x l 1 | none => false
  match jobResult s1 j with
  | some (stride, _) => if past then budgetOverrun j stride s1 else { s1 with thr := { s1.thr with lanes := tput s1.thr.lanes lane l } }
  | none => s1

/-- A free enabled lane takes the next block (R166, R172). -/
def blockStart (lane : Nat) (s : State) : State :=
  let s0 := enqueueBlocks s
  if !rbit s Reg.THR_LANE_EN lane || (tfind s.thr.lanes lane).isSome then s0
  else match nextJob s0 with
    | none => s0
    | some j => laneStart lane j s0

def execThrBlockStart (lane : Fin 24) (s : State) : Host.Outcome State Fault Refusal := .next (blockStart lane.val s)

/-- A lane's block ends: decoded whole, or abandoned (R167 to R171). -/
def blockDone (lane : Nat) (s : State) : State :=
  match tfind s.thr.lanes lane with
  | none => s
  | some l =>
    let j := l.job
    let s1 := { s with thr := { s.thr with lanes := tdel s.thr.lanes lane } }
    match jobResult s j, findCopy s j.copy with
    | some (stride, r), some x =>
      let s2 := updCopy j.copy (fun z => { z with cycles := tput z.cycles j.plane (tget z.cycles 0 j.plane + r.cycles) }) s1
      if overBudget s1 x l r.cycles then budgetOverrun j stride s2
      else
        let bad := fun (e : Nat) (t : State) => corruptCopy j.copy (abandonBlock j stride e t)
        match r.out with
        | .error e => bad e s2
        | .ok out =>
          if rbit s Reg.THR_CTRL 1 && (match j.loc.crc with | some c => decide (c ≠ crc32c out) | none => false) then bad gCrc s2
          else giveLines x j stride out l.given j.loc.lines (inc64 Reg.THR_IN_BYTES j.loc.len (inc64 Reg.THR_OUT_BYTES out.length
            (inc64 Reg.THR_BLK_CNT 1 s2)))
    | _, _ => s1

def execThrBlockDone (lane : Fin 24) (s : State) : Host.Outcome State Fault Refusal := .next (blockDone lane.val s)

/-- A line that Thresher has released for a pass of a copy on a plane: it and every earlier one the pass needs are decoded (R167). -/
def released (s : State) (x : Copy) (p pass l : Nat) : Bool :=
  let a := (passNeed s x p pass).1
  (List.range (l + 1 - a)).all fun i => s.thr.lines.any fun d =>
    decide (d.copy = x.seq ∧ d.plane = p ∧ d.pass = pass ∧ d.line = a + i)

/-- Glaze takes `n` lines from y0 on (R171). -/
def tookLines (x : Copy) (p pass y0 n : Nat) (s : State) : State :=
  { s with thr := { s.thr with lines := s.thr.lines.map fun d =>
      if d.copy = x.seq ∧ d.plane = p ∧ d.pass = pass ∧ y0 ≤ d.line ∧ d.line < y0 + n then { d with taken := true } else d } }

/-- No block of a tenant's copies is left to decode (R111 step 4). -/
def thresherDone (s : State) (t : Nat) : Bool :=
  let s0 := enqueueBlocks s
  !(s0.thr.queue.any fun j => decide (j.tenant = t)) && !(s0.thr.lanes.any fun e => decide (e.2.job.tenant = t))

end Sys2Proof.Machine
end

