-- ==== Sys2Proof/Machine/Glaze.lean ====
section
/-! DEFINITION. Glaze: placements, bands, contone staging and content windows (spec/07, R179 to R197; R205, R295, R607). -/

namespace Sys2Proof.Machine
open Sys2Proof

/-! ## Pixels (R146, R179) -/

/-- The columns of a line of `w` columns. -/
def lineVals (level : Bool) (w : Nat) (bs : List Byte) : List Nat :=
  if level then
    let v := leVal bs
    (List.range w).map fun c => v / 2 ^ (3 * c) % 8
  else (List.range w).map fun c => (bs.getD c 0#8).toNat

/-- The stride of a tile (R179). -/
def tileStride (format w : Nat) : Nat := if format = 0 then w else if format = 1 then (3 * w + 7) / 8 else (w + 7) / 8

/-- Pixel (i, j) of a tile; a mask bit is 0 or 1. -/
def Tile.px (t : Tile) (i j : Nat) : Nat :=
  let row := j * tileStride t.format t.width
  if t.format = 0 then (t.data.getD (row + i) 0#8).toNat
  else if t.format = 1 then
    let b := 3 * i
    leAt t.data (row + b / 8) 2 / 2 ^ (b % 8) % 8
  else (t.data.getD (row + i / 8) 0#8).toNat / 2 ^ (i % 8) % 2

/-- Change the columns of a row from x0 on. -/
def setCols (x0 w : Nat) (f : Nat → Nat → Nat) (row : List Nat) : List Nat :=
  row.zipIdx.map fun q => if x0 ≤ q.2 ∧ q.2 < x0 + w then f (q.2 - x0) q.1 else q.1

/-- Apply a placement of tenant t to consecutive lines from y0 on (R184, R187, R191). -/
def applyPlacement (tiles : List Tile) (t y0 : Nat) (rows : List (List Nat)) (q : Placement) : List (List Nat) :=
  if q.op = 4 then
    rows.zipIdx.map fun r =>
      let y := y0 + r.2
      if q.line ≤ y ∧ y < q.line + q.height then
        let src := rows.getD ((y : Int) + q.srcDy - y0).toNat []
        setCols q.col q.tile (fun i _ => src.getD (q.srcCol + i) 0) r.1
      else r.1
  else match tiles.find? fun x => decide (x.tenant = t ∧ x.id = q.tile) with
    | none => rows
    | some z => rows.zipIdx.map fun r =>
      let y := y0 + r.2
      if q.line ≤ y ∧ y < q.line + z.height then
        setCols q.col z.width (fun i v =>
          let p := z.px i (y - q.line)
          if q.op = 1 then p
          else if q.op = 2 then (if p ≠ q.value then p else v)
          else if p = 1 then q.value else v) r.1
      else r.1

/-! ## Composition (R185 to R188) -/

/-- The width of a copy's page on a printing plane, its source's for a clone (R268). -/
def backWidth (s : State) (x : Copy) (p : Nat) : Nat :=
  ((x.page0.planes.find? fun q => decide (q.plane = srcPlane s p)).map (·.width)).getD 0

/-- The background of a copy's page line for a pass, one value per column. -/
def background (s : State) (x : Copy) (p pass l : Nat) : List Nat :=
  match s.thr.lines.find? fun d => decide (d.copy = x.seq ∧ d.plane = p ∧ d.pass = pass ∧ d.line = l) with
  | some d => lineVals x.page0.level (backWidth s x p) d.bytes
  | none => List.replicate (backWidth s x p) 0

/-- `n` composited page lines from y0 on, for a pass. -/
def compose (s : State) (x : Copy) (p pass y0 n : Nat) : List (List Nat) :=
  (planePlacements s x p).foldl (fun rows q => applyPlacement s.glz.tiles x.tenant y0 rows q.1)
    ((List.range n).map fun i => background s x p pass (y0 + i))

/-- The placements that cross these lines are applied: each is counted once for its copy, and its tile is placed (R181,
GLZ_PLACE_CNT). -/
def notePlaced (x : Copy) (p y0 n : Nat) (s : State) : State :=
  ((planePlacements s x p).filter fun q => q.1.crosses s.glz.tiles x.tenant y0 n).foldl (fun u q =>
    let u1 := match findCopy u x.seq with
      | some z => if q.2 ∈ z.placed then u else
          inc64 Reg.GLZ_PLACE_CNT 1 (updCopy x.seq (fun z => { z with placed := q.2 :: z.placed }) u)
      | none => u
    { u1 with glz := { u1.glz with
      useCount := u1.glz.useCount + 1,
      tiles := u1.glz.tiles.map fun t => if q.1.op ≠ 4 ∧ t.tenant = x.tenant ∧ t.id = q.1.tile then
        { t with stamp := u1.glz.useCount } else t } }) s

/-- Bytes of a line of a copy on a plane. -/
def copyStride (s : State) (x : Copy) (p : Nat) : Nat := strideOf x.page0.level (backWidth s x p)

/-! ## Content windows (R192 to R194) -/

/-- A window's last line has entered staging: compare it (R193). -/
def compareContent (x : Copy) (w : Window) (crc : Word) (s : State) : State :=
  let s1 := inc Reg.GLZ_WIN_CNT 1 (updCopy x.seq (fun z => { z with winSeen := z.winSeen + 1 }) s)
  if crc = w.crc then s1
  else
    let s2 := inc Reg.GLZ_WIN_FAIL_CNT 1 (flagCopy (some x.seq) (fun f => { f with content := true })
      (updCopy x.seq (fun z => { z with winBad := z.winBad + 1 }) s1))
    raiseIrq pgGlz 4 (event 0x2201 (some x.tenant)
      (le 2 x.tenant ++ le 4 x.job ++ le 4 x.num ++ le 1 w.plane ++ le 1 w.index ++ le 4 crc.toNat)
      (wr Reg.GLZ_LAST_WIN_CRC crc (wn Reg.GLZ_LAST_WIN (w.plane + 16 * w.index + 256 * x.tenant) s2)))

/-- A page line of a copy enters the windows of its plane the first time Glaze writes it to staging; a clone's lines enter
none (R192, R194, R268). -/
def windowLine (x : Copy) (p l : Nat) (px : List Nat) (s : State) : State :=
  if (cloneSrc s p).isSome || !tget s.glz.winEn false (glzKey x.seq p) then s
  else (x.windows.filter fun w => decide (w.plane = p ∧ w.line ≤ l ∧ l < w.line + w.height)).foldl (fun u w =>
    let a := (u.glz.wins.find? fun a => decide (a.copy = x.seq ∧ a.plane = p ∧ a.index = w.index)).getD
      { copy := x.seq, plane := p, index := w.index, line := w.line, crc := 0xFFFFFFFF }
    if a.line ≠ l then u
    else
      let c := crc32cFrom a.crc (((px.drop w.col).take w.width).map fun v => BitVec.ofNat 8 v)
      let rest := u.glz.wins.filter fun a => !decide (a.copy = x.seq ∧ a.plane = p ∧ a.index = w.index)
      let u1 := { u with glz := { u.glz with wins := { a with line := l + 1, crc := c } :: rest } }
      if l + 1 = w.line + w.height then compareContent x w (BitVec.ofNat 32 (c ^^^ 0xFFFFFFFF)) u1 else u1) s

/-- WIN_EN as it stands when a copy's first line on a plane enters staging is the copy's (R193). -/
def noteWinEn (x : Copy) (p : Nat) (s : State) : State :=
  if (tfind s.glz.winEn (glzKey x.seq p)).isSome then s
  else { s with glz := { s.glz with winEn := tput s.glz.winEn (glzKey x.seq p) (rbit s Reg.GLZ_CTRL 4) } }

/-! ## Staging (R186, R205, R295) -/

/-- The rows of other heads that read a donor column of a head (R205). -/
def donorReaders (s : State) (t : PlaneTable) (h : Nat) : List Nat :=
  (s.til.entries.filter fun e => decide (e.1 / 4096 = h)).flatMap fun e =>
    [e.2.subA, e.2.subB].filterMap fun b =>
      let i := subIndex b
      if subWeight b ≠ 0 ∧ i / 4096 ≠ h ∧ (donors s t i).any (fun d => decide (d.1 = e.1)) = true then
        some (i / 4096 * 4 + i % 4096 / 1024) else none

/-- Every head of a plane has a free staging line (R27, R186). -/
def stagingFree (s : State) (p : Nat) : Bool :=
  (planeHeads s p).all fun d => decide ((tget s.glz.staging [] d.head).length < 32)

/-- The engines have gone past a frame line of a copy's pass in a row: screened, or given up to a fill (R205, R259). -/
def rowPassed (s : State) (x : Copy) (p pass y h r : Nat) : Bool :=
  match frameRunline s x p pass y with
  | some f => (row s h r).started && decide (0 < ((row s h r).nextF - (f + BitVec.ofNat 32 (rowOfs s p h r))).toInt)
  | none => false

/-- The rows that still read a frame line from a head's staging: the head's own and those of other heads that read a donor column of it,
but for those the engines have gone past (R196, R205). -/
def stageRows (s : State) (x : Copy) (p pass y : Nat) (d : HeadDecl) : List Nat :=
  let readers := match (plane s p).table with | some t => donorReaders s t d.head | none => []
  let own := d.rows.map fun r => d.head * 4 + r
  (own ++ (readers.filter fun k => !own.contains k).eraseDups).filter fun k => !rowPassed s x p pass y (k / 4) (k % 4)

/-- A frame line enters the staging of every head of a plane, for the rows that still read it; with none it takes no place there (R196,
R205). -/
def stageLine (x : Copy) (p pass y : Nat) (px : List Nat) (s : State) : State :=
  (planeHeads s p).foldl (fun u d =>
    let rows := stageRows s x p pass y d
    let e : Staged := { copy := x.seq, pass, line := y, px, rows }
    if rows = [] then u
    else { u with glz := { u.glz with staging := tput u.glz.staging d.head (tget u.glz.staging [] d.head ++ [e]) } }) s

/-- Row r of head h has screened, or gives up, frame line y: staging lines no row still reads are free (R205). -/
def lineScreened (h r c pass y : Nat) (s : State) : State :=
  { s with glz := { s.glz with staging := s.glz.staging.map fun e => (e.1, (e.2.map fun x =>
      if x.copy = c ∧ x.pass = pass ∧ x.line = y then { x with rows := x.rows.filter (· ≠ h * 4 + r) } else x).filter
        fun x => !x.rows.isEmpty) } }

/-- The frame lines of a pass that carry page content: from, and up to but not including (R98, R294). -/
def passLines (s : State) (x : Copy) (p pass : Nat) : Nat × Nat :=
  if scanning s p then
    let w := backWidth s x p
    if passReverse s p pass then (vActive s p - w, vActive s p) else (0, w)
  else (0, x.page0.height)

/-- The pass of a copy on a plane that Glaze serves, and its next frame line. -/
def glazeAt (s : State) (x : Copy) (p : Nat) : Nat × Nat :=
  let k := glzKey x.seq p
  let pass := tget s.glz.passOf 0 k
  (pass, (tfind s.glz.next k).getD (passLines s x p pass).1)

/-- A copy has left Glaze on a plane. -/
def glazeLeft (s : State) (x : Copy) (p : Nat) : Bool := glazeOut s x.seq p

/-- A copy's pass is done with at Glaze: its swath, and what is left of its copy bands in the pool. -/
def dropSwath (x : Copy) (p : Nat) (s : State) : State :=
  { s with glz := { s.glz with
      swath := s.glz.swath.filter fun l => !decide (l.copy = x.seq ∧ l.plane = p),
      pool := s.glz.pool.filter fun l => !decide (l.copy = x.seq ∧ l.plane = p),
      bands := s.glz.bands.filter fun l => !decide (l.copy = x.seq ∧ l.plane = p) } }

/-- A copy past FIRED that has left Glaze on every plane leaves nothing behind (R196). -/
def lateDone (x : Copy) (s : State) : State :=
  if x.seq ∈ s.glz.late ∧ (copyPlanes s x).all (fun p => glazeLeft s x p) = true then
    discardWork x.seq { s with glz := { s.glz with late := s.glz.late.filter (· ≠ x.seq) } }
  else s

/-- After a frame line has entered staging: the next line, or the next pass with a swath of its own, or the copy has left. -/
def glazeNext (x : Copy) (p y : Nat) (s : State) : State :=
  let k := glzKey x.seq p
  let pass := (glazeAt s x p).1
  let put := fun (n q : Nat) (u : State) => { u with glz := { u.glz with
    next := tput u.glz.next k n, passOf := tput u.glz.passOf k q } }
  if y + 1 < (passLines s x p pass).2 then put (y + 1) pass s
  else if pass + 1 < planePasses s p then dropSwath x p (put (passLines s x p (pass + 1)).1 (pass + 1) s)
  else lateDone x (dropSwath x p (put 0 glazeGone s))

/-- The pass's frame of a copy has opened on a plane. -/
def frameOpened (s : State) (x : Copy) (p pass : Nat) : Bool :=
  match x.slot with
  | some n => decide (p ∈ x.opened) && (match (plane s p).slot with
    | some m => decide (n + pass ≤ m)
    | none => decide (n + pass < (plane s p).nextSlot))
  | none => false

/-- The copy Glaze works on for a plane: the first in press-queue order that has not left it. A plane whose new table waits
for its latch gets lines of frames that have opened only (R607). -/
def glazeCopy (s : State) (p : Nat) : Option Copy :=
  match (liveCopies s).find? fun x => decide (p ∈ copyPlanes s x) && !glazeLeft s x p with
  | some x => if !(plane s p).pendTable.isEmpty && !frameOpened s x p (glazeAt s x p).1 then none else some x
  | none => none

/-- The next page line Glaze composites for a copy on a plane: in a scanning mode the first of the pass's lines not in the
swath, else the next line. -/
def nextPageLine (s : State) (x : Copy) (p : Nat) : Option Nat :=
  let (pass, y) := glazeAt s x p
  if scanning s p then
    let b := passBand s x p pass
    ((List.range (b.2 - b.1)).map (b.1 + ·)).find? fun l =>
      !s.glz.swath.any fun q => decide (q.copy = x.seq ∧ q.plane = p ∧ q.line = l)
  else some y

/-- A page line's composite is at hand: streamed from a released line, or in the pool. -/
def lineReady (s : State) (x : Copy) (p l : Nat) : Bool :=
  if isCopyBand s x p (l / bandLines s) then
    s.glz.pool.any fun q => decide (q.copy = x.seq ∧ q.plane = p ∧ q.line = l)
  else released s x p (glazeAt s x p).1 l

/-- The line a lane may take on a plane: the copy, and whether it fills staging from a finished swath. -/
def lineWork (s : State) (p : Nat) : Option Copy :=
  match glazeCopy s p with
  | none => none
  | some x => match nextPageLine s x p with
    | some l => if lineReady s x p l && (scanning s p || stagingFree s p) then some x else none
    | none => if stagingFree s p then some x else none

/-- The next copy band of a copy's pass on a plane that is not yet open and whose background is decoded. -/
def nextBand (s : State) (x : Copy) (p : Nat) : Option Nat :=
  let pass := (glazeAt s x p).1
  match nextPageLine s x p with
  | none => none
  | some l =>
    let n := bandLines s
    let last := (passBand s x p pass).2
    match ((List.range (cdiv last n - l / n)).map (l / n + ·)).find? fun b =>
        isCopyBand s x p b && !s.glz.bands.any fun q => decide (q.copy = x.seq ∧ q.plane = p ∧ q.band = b) with
    | some b => if released s x p pass (min x.page0.height ((b + 1) * n) - 1) then some b else none
    | none => none

/-- The copy whose next copy band a lane may open on a plane. -/
def bandWork (s : State) (p : Nat) : Option Copy :=
  match glazeCopy s p with
  | some x => if (nextBand s x p).isSome then some x else none
  | none => none

/-- Work a lane may take: its plane and copy, whether it is a copy band, and its deadline (R190, R194). -/
structure GlazeWork where
  plane : Nat
  copy : Copy
  band : Bool
  due : Option Int

/-- The work of a plane: its next line, and its next copy band. -/
def planeWork (s : State) (p : Nat) : List GlazeWork :=
  let line := match lineWork s p with
    | some x => [{ plane := p, copy := x, band := false,
                   due := lineDeadline s x p (glazeAt s x p).1 (if scanning s p then 0 else (glazeAt s x p).2) : GlazeWork }]
    | none => []
  match bandWork s p with
  | some x => line ++ ((nextBand s x p).map fun b =>
      { plane := p, copy := x, band := true, due := pageDeadline s x p (glazeAt s x p).1 (b * bandLines s) : GlazeWork }).toList
  | none => line

/-- The work a lane takes next: earliest deadline, ties to the lower plane and then the line before the band. -/
def nextWork (s : State) : Option GlazeWork :=
  (planeNums.flatMap (planeWork s)).foldl (fun b w => match b with
    | none => some w
    | some v => if sooner w.due v.due then some w else some v) none

/-- A copy band's last line has entered staging: its pool space is free (R189). -/
def freeBand (x : Copy) (p l : Nat) (s : State) : State :=
  let n := bandLines s
  let rest := s.glz.pool.filter fun q => !decide (q.copy = x.seq ∧ q.plane = p ∧ q.line = l)
  let s1 := { s with glz := { s.glz with pool := rest } }
  if s1.glz.pool.any fun q => decide (q.copy = x.seq ∧ q.plane = p ∧ q.line / n = l / n) then s1
  else
    let open1 := s1.glz.bands.filter fun b => !decide (b.copy = x.seq ∧ b.plane = p ∧ b.band = l / n)
    { s1 with glz := { s1.glz with bands := open1 } }

/-- A composited page line of a copy for a pass, and the state after compositing it. -/
def takeLine (x : Copy) (p pass l : Nat) (s : State) : List Nat × State :=
  if isCopyBand s x p (l / bandLines s) then
    (((s.glz.pool.find? fun q => decide (q.copy = x.seq ∧ q.plane = p ∧ q.line = l)).map (·.px)).getD [], freeBand x p l s)
  else ((compose s x p pass l 1).getD 0 [], notePlaced x p l 1 (tookLines x p pass l 1 s))

/-- A lane's line, where that is the work next in order: a page line into staging or into the swath, or a carriage line from the swath into
staging (R186, R194, R295). -/
def glazeLine (lane : Nat) (s0 : State) : State :=
  let s := decodeDue (enqueueBlocks s0)
  if !rbit s Reg.GLZ_CTRL lane then s
  else match nextWork s with
    | none => s
    | some w =>
      let p := w.plane
      let x := w.copy
      let (pass, y) := glazeAt s x p
      if w.band then s else
      match nextPageLine s x p with
      | some l =>
        let r := takeLine x p pass l s
        let s1 := windowLine x p l r.1 (noteWinEn x p (inc64 Reg.GLZ_OUT_BYTES (copyStride s x p) r.2))
        if scanning s p then
          { s1 with glz := { s1.glz with swath := { copy := x.seq, plane := p, line := l, px := r.1 } :: s1.glz.swath } }
        else refreshLt (glazeNext x p y (stageLine x p pass y r.1 s1))
      | none =>
        let col := if passReverse s p pass then vActive s p - 1 - y else y
        let b := passStart s p pass
        let px := (List.range (planeWidth s p)).map fun c =>
          ((s.glz.swath.find? fun q => decide (q.copy = x.seq ∧ q.plane = p ∧ (q.line : Int) = b + c)).map
            fun q => q.px.getD col 0).getD 0
        glazeNext x p y (stageLine x p pass y px s)

def execGlazeLine (lane : Fin 4) (s : State) : Host.Outcome State Fault Refusal := .next (glazeLine lane.val s)

/-! ## Copy bands (R187, R189) -/

/-- MiB of a copy band. -/
def bandMiB (s : State) (x : Copy) (p : Nat) : Nat := cdiv (copyStride s x p * bandLines s) 1048576

/-- MiB of the pool in use. -/
def poolUsed (s : State) : Nat := ((s.glz.bands.filter fun b => !b.waiting).map (·.mib)).sum

/-- Composite a whole copy band into the pool. -/
def fillBand (x : Copy) (p b : Nat) (s : State) : State :=
  let n := bandLines s
  let y0 := b * n
  let k := min x.page0.height (y0 + n) - y0
  let pass := (glazeAt s x p).1
  let ls := (compose s x p pass y0 k).zipIdx.map fun q => { copy := x.seq, plane := p, line := y0 + q.2, px := q.1 : PoolLine }
  notePlaced x p y0 k (tookLines x p pass y0 k { s with glz := { s.glz with pool := s.glz.pool ++ ls } })

/-- A lane takes the copy band next in order; without pool space it waits (R189, R194). -/
def glazeBand (lane : Nat) (s0 : State) : State :=
  let s := decodeDue (enqueueBlocks s0)
  if !rbit s Reg.GLZ_CTRL lane then s
  else match nextWork s with
    | none => s
    | some w =>
      let p := w.plane
      let x := w.copy
      if !w.band then s else
      match nextBand s x p with
      | none => s
      | some b =>
        let mib := bandMiB s x p
        let fits := decide (poolUsed s + mib ≤ 512)
        let e : Band := { copy := x.seq, plane := p, band := b, mib, waiting := !fits, composited := fits }
        let s1 := { s with glz := { s.glz with bands := s.glz.bands ++ [e] } }
        if fits then fillBand x p b s1
        else raiseIrq pgGlz 6 (event 0x2203 (some x.tenant)
          (le 2 x.tenant ++ le 4 x.job ++ le 4 x.num ++ le 1 p ++ le 4 b) (inc Reg.GLZ_POOL_WAIT_CNT 1 s1))

def execGlazeBand (lane : Fin 4) (s : State) : Host.Outcome State Fault Refusal := .next (glazeBand lane.val s)

/-- Pool space has come free for the oldest waiting band (R189). -/
def poolWaitEnd (s : State) : State :=
  match s.glz.bands.find? (·.waiting) with
  | none => s
  | some w =>
    if poolUsed s + w.mib ≤ 512 then
      match findCopy s w.copy with
      | some x => fillBand x w.plane w.band { s with glz := { s.glz with bands := s.glz.bands.map fun b =>
          if b = w then { b with waiting := false, composited := true } else b } }
      | none => { s with glz := { s.glz with bands := s.glz.bands.filter (· ≠ w) } }
    else s

def execGlazePoolWaitEnd (s : State) : Host.Outcome State Fault Refusal := .next (poolWaitEnd s)

/-- Lines of frames a waiting plane table will govern are discarded, to be composited again: of a copy's passes, those whose frames have not
opened (R607). -/
def discardAhead (p : Nat) (s : State) : State :=
  let heads := (planeHeads s p).map (·.head)
  ((liveCopies s).filter fun x => decide (p ∈ copyPlanes s x)).foldl (fun u x =>
    match (List.range (planePasses u p)).find? fun i => !frameOpened u x p i with
    | none => u
    | some i =>
      let k := glzKey x.seq p
      let staged := { u with glz := { u.glz with staging := u.glz.staging.map fun e =>
        (e.1, if heads.contains e.1 then e.2.filter (fun z => !decide (z.copy = x.seq ∧ i ≤ z.pass)) else e.2) } }
      if (glazeAt u x p).1 < i then staged
      else
        let v := dropSwath x p staged
        { v with glz := { v.glz with next := tdel v.glz.next k, passOf := tput v.glz.passOf k i } }) s

/-- A write of GLZ_BAND is taken only while no copy is before RULED (R197). -/
def glzBandWrite (v : Word) (s : State) : State :=
  if s.jobs.copies.any fun c => decide (c.state = .queued ∨ c.state = .ready ∨ c.state = .committed ∨ c.state = .fired) then
    recordErr pgGlz 0x40 s
  else plainPut Reg.GLZ_BAND v s

def execGlzBandWrite (ini : Initiator) (val : Word) (s : State) : Host.Outcome State Fault Refusal :=
  .next (guardWrite ini Reg.GLZ_BAND allBytes val glzBandWrite s)

/-! ## Tiles (R179 to R182) -/

/-- A tile record breaks R179. -/
def tileGood (bs : List Byte) : Bool :=
  let f := leAt bs 2 1
  let w := leAt bs 4 2
  let h := leAt bs 6 2
  let n := leAt bs 8 4
  decide (16 ≤ bs.length) && decide (leAt bs 0 2 = 0x4C54) && decide (f ≤ 2) && allZero (slice bs 3 4) &&
    decide (1 ≤ w ∧ w ≤ 16383 ∧ 1 ≤ h ∧ h ≤ 4095) && decide (n = tileStride f w * h ∧ n ≤ 1048576) &&
    allZero (slice bs 12 16) && decide (bs.length = 16 + n)

/-- A copy not yet SEALED names a tile (R182). -/
def tilePinned (s : State) (t : Tile) : Bool :=
  s.jobs.copies.any fun c => decide (c.tenant = t.tenant ∧ c.state ≠ .sealed) &&
    c.placements.any fun q => decide (q.op ≠ 4 ∧ q.tile = t.id)

/-- Granules free. -/
def granulesFree (s : State) : Nat := 16384 - (s.glz.tiles.map (·.granules)).sum

/-- The unpinned tile of a tenant least recently placed, ties to the lower ID. -/
def evictee (s : State) (t : Nat) : Option Tile :=
  (s.glz.tiles.filter fun x => decide (x.tenant = t) && !tilePinned s x).foldl (fun b x => match b with
    | none => some x
    | some y => if x.stamp < y.stamp ∨ (x.stamp = y.stamp ∧ x.id < y.id) then some x else b) none

/-- Evict until a tile of `g` granules fits (R181); nothing where it never does. -/
def makeRoom (t g : Nat) : Nat → State → Option State
  | 0, _ => none
  | n + 1, s =>
    if g ≤ granulesFree s ∧ s.glz.tiles.length < 8192 then some s
    else match evictee s t with
      | none => none
      | some x => makeRoom t g n (raiseIrq pgGlz 5 (event 0x2202 (some t) (le 2 t ++ le 2 x.id ++ le 2 x.granules)
          (inc Reg.GLZ_EVICT_CNT 1 { s with glz := { s.glz with tiles := s.glz.tiles.filter (· ≠ x) } })))

/-- TILE_LOAD once its stream is complete (R179 to R181). -/
def tileLoad (h : Hdr) (id : Nat) (x : Stream) (s : State) : State :=
  let bs := x.bytes
  let t := h.tenant
  if !tileGood bs then fail h 0x0106 (recordErr pgGlz 0x41 s)
  else
    let n := leAt bs 8 4
    let g := cdiv n 256
    match makeRoom t g (s.glz.tiles.length + 1) s with
    | none => fail h 0x0401 (recordErr pgGlz 0x42 s)
    | some s1 =>
      let tile : Tile := { tenant := t, id, format := leAt bs 2 1, width := leAt bs 4 2, height := leAt bs 6 2,
                           data := bs.drop 16, granules := g, stamp := s1.glz.useCount, stream := some x.handle }
      ok h 0 { s1 with glz := { s1.glz with tiles := s1.glz.tiles ++ [tile], useCount := s1.glz.useCount + 1 } }

def bodyTileLoad (h : Hdr) (c : Instr) (id handle : Nat) (s : State) : State :=
  if id = 0 then fail h 0x0103 s
  else if s.glz.tiles.any fun x => decide (x.tenant = h.tenant ∧ x.id = id) then fail h 0x0105 s
  else withStream h c [] h.tenant handle (tileLoad h id) s

def execTileLoad (d : Desc) (tile : BitVec 16) (handle : Word) (s : State) : Host.Outcome State Fault Refusal :=
  .next (command d .t (fun _ => []) (.tileLoad d tile handle)
    (fun h => bodyTileLoad h (.tileLoad d tile handle) tile.toNat handle.toNat) s)

/-- TILE_EVICT (R182). -/
def bodyTileEvict (h : Hdr) (id : Nat) (s : State) : State :=
  match s.glz.tiles.find? fun x => decide (x.tenant = h.tenant ∧ x.id = id) with
  | none => fail h 0x0104 s
  | some x =>
    if tilePinned s x then fail h 0x0207 s
    else ok h 0 { s with glz := { s.glz with tiles := s.glz.tiles.filter (· ≠ x) } }

def execTileEvict (d : Desc) (tile : BitVec 16) (s : State) : Host.Outcome State Fault Refusal :=
  .next (command d .t (fun _ => []) (.tileEvict d tile) (fun h => bodyTileEvict h tile.toNat) s)

end Sys2Proof.Machine
end

