-- ==== Sys2Proof/Machine/HeadLink.lean ====
section
/-! DEFINITION. Head ports: the forward frames, link training, the return lane, direct mode and head faults (spec/12, R304 to
R325). -/

namespace Sys2Proof.Machine
open Sys2Proof

/-! ## Frames and scramblers (R307 to R309, R316) -/

/-- One step of a scrambler: the bit it gives and its next state (R308). -/
def scrStep (x : Nat) : Bool × Nat :=
  let o := (x / 2 ^ 22 + x / 2 ^ 17) % 2
  (o = 1, (2 * x + o) % 2 ^ 23)

/-- Scramble bits: the bits sent, and the state after them. -/
def scramble : List Bool → Nat → List Bool × Nat
  | [], x => ([], x)
  | b :: r, x =>
    let q := scrStep x
    let t := scramble r q.2
    ((b != q.1) :: t.1, t.2)

/-- A scrambler `n` bits on. -/
def scrAdvance : Nat → Nat → Nat
  | 0, x => x
  | n + 1, x => scrAdvance n (scrStep x).2

/-- The bits of a value, least significant first. -/
def bitsLsb : Nat → Nat → List Bool
  | 0, _ => []
  | n + 1, v => (v % 2 = 1) :: bitsLsb n (v / 2)

/-- The bits of a value, most significant first. -/
def bitsMsb (n v : Nat) : List Bool := (bitsLsb n v).reverse

/-- The value of bits, most significant first. -/
def ofBitsMsb (l : List Bool) : Nat := l.foldl (fun a b => 2 * a + (if b then 1 else 0)) 0

/-- Pack bits into bytes, the first bit sent in the most significant place, with fuel. -/
def packBits : Nat → List Bool → List Byte
  | 0, _ => []
  | n + 1, l => BitVec.ofNat 8 (ofBitsMsb (l.take 8)) :: packBits n (l.drop 8)

/-- The 16 header bits of a frame (spec/12, "Forward header"). -/
def headerVal (slot : Nat) (f : OutFrame) : Nat :=
  slot % 16 + f.typ % 8 * 16 + (match f.desc with
    | some d => 128 + d.row * 256 + d.act * 1024 + d.tag * 4096 + (if d.swap then 32768 else 0)
    | none => 0) + (if f.first then 16384 else 0)

/-- The 64 bytes of a frame on a lane and the lane's scrambler after it (R307, R308). -/
def frameBytes (slot scr : Nat) (f : OutFrame) : List Byte × Nat :=
  let plain := bitsMsb 16 (headerVal slot f) ++ f.payload
  let body := if f.typ = 3 then (plain, scrAdvance 480 scr) else scramble plain scr
  let bytes := packBits 60 body.1
  ([0x1F#8, 0x35#8] ++ bytes ++ (le 2 (crcMsb 16 0x1021 0xFFFF bytes)).reverse, body.2)

/-- The payload of a SYNC frame: the lane's scrambler at the next frame's first header bit (R316). -/
def syncFrame (scr : Nat) : OutFrame :=
  { typ := 3, desc := none, first := false,
    payload := bitsLsb 32 (scrAdvance 480 scr) ++ bitsLsb 32 0x53594E43 ++ List.replicate 400 false }

/-- A CONFIG frame of a bank's chunk. -/
def configFrame (b : BankFill) : OutFrame :=
  { typ := 2, desc := none, first := false,
    payload := bitsLsb 16 (b.chunk + 32 * b.bank) ++
      (List.range 224).flatMap fun i => bitsLsb 2 (b.variants.getD (224 * b.chunk + i) 0) }

/-- The frame of the next slot: a sheaf or descriptor first, then a SYNC frame that is due, a CONFIG chunk, or IDLE (R309,
R313, R317). -/
def nextFrame (x : Port) : OutFrame :=
  let lane := x.slot % 2
  let sync := syncFrame (x.scr.getD lane 1)
  if x.link ≠ .up then sync
  else match x.frames with
    | f :: _ => f
    | [] =>
      if 64 ≤ x.since.getD lane 0 then sync
      else match x.fills with
        | b :: _ => configFrame b
        | [] => { typ := 0, desc := none, first := false, payload := List.replicate 464 false }

/-- The port after its next frame was sent. -/
def Port.sent (x : Port) (f : OutFrame) (scr : Nat) : Port :=
  let lane := x.slot % 2
  { x with
    slot := x.slot + 1, scr := x.scr.set lane scr,
    since := x.since.set lane (if f.typ = 3 then 0 else x.since.getD lane 0 + 1),
    frames := if f.typ = 0 ∨ f.typ = 1 then x.frames.drop 1 else x.frames,
    fills := if f.typ = 2 then (match x.fills with
        | b :: r => if b.chunk = 18 then r else { b with chunk := b.chunk + 1 } :: r
        | [] => []) else x.fills }

/-- A head port sends its next forward frame (R309, R317). -/
def forwardFrame (h : Nat) (s : State) : State :=
  let x := port s h
  if x.link = .training ∨ x.link = .up ∨ x.link = .retraining then
    let f := nextFrame x
    let b := frameBytes x.slot (x.scr.getD (x.slot % 2) 1) f
    emit (.frame h b.1) (putPort h (x.sent f b.2) s)
  else s

def execHlkForwardFrame (head : Fin 64) (s : State) : Host.Outcome State Fault Refusal := .next (forwardFrame head.val s)

/-! ## Faults (R324, R325) -/

/-- A head fault latches: power off, FIRE inactive, the alarm (R324). -/
def headFault (h cause : Nat) (s : State) : State :=
  if (port s h).latched then s
  else
    let s1 := headLost h (updPort h (fun x => { x with latched := true, cause := cause }) (headOff h s))
    raiseIrq (pgHlk h) 5 (raiseAlarm 13 none (le 1 h ++ le 1 cause ++ le 8 (stamp s).toNat) s1)

/-! ## Link states (R318, R319) -/

def Link.code : Link → Nat
  | .off => 0 | .training => 1 | .up => 2 | .retraining => 3 | .direct => 4

/-- HLK_LINK with a cause. -/
def postLink (h old new cause : Nat) (s : State) : State :=
  raiseIrq (pgHlk h) 4 (event 0x4101 none (le 1 h ++ le 1 old ++ le 1 new ++ le 1 cause) s)

/-- A link state change; leaving UP while powered may be a head fault (R324). -/
def setLink (h : Nat) (l : Link) (cause : Nat) (s : State) : State :=
  let old := (port s h).link
  if old = l then s
  else
    let s0 := postLink h old.code l.code cause (updPort h (fun x => { x with link := l }) s)
    let s1 := if old = .up ∨ old = .direct then headLost h s0 else s0
    if old = .up ∧ rbit s1 (Reg.HLK_CTRL h) 4 = true ∧ (port s1 h).pwren = true then headFault h 3 s1 else s1

/-- A fresh scrambler state: not zero (R308). -/
def drawScr (s : State) : Nat × State :=
  let d := draw 23 s
  (d.1.toNat % (2 ^ 23 - 1) + 1, d.2)

/-- Step 1 of training: both lanes send SYNC frames from fresh scrambler states, the receiver searches (R318). -/
def train (h : Nat) (l : Link) (cause : Nat) (s : State) : State :=
  let a := drawScr s
  let b := drawScr a.2
  setLink h l cause (updPort h (fun x => { x with
    scr := [a.1, b.1], align := 0, good := 0, cand := 0, bad := 0, descr := false, frames := [], descs := [], fills := [],
    ready := false, descWait := [], swapNext := false, swapDue := none, since := [0, 0] }) b.2)

/-- A link that is UP retrains; one in training starts again without being counted (R319). -/
def retrain (h cause : Nat) (s : State) : State :=
  match (port s h).link with
  | .up => train h .retraining cause (inc (Reg.HLK_RETRAIN_CNT h) 1 s)
  | .training => train h .training cause s
  | .retraining => train h .retraining cause s
  | _ => s

/-- The link becomes UP: the fire count restarts and both banks are sent, bank 0 in use (R313, R318). -/
def linkUp (h : Nat) (s : State) : State :=
  setLink h .up 0 (updPort h (fun x => { x with
    fires := 0, descs := [], bank := 0, since := [0, 0],
    fills := [⟨0, 0, variantsOf s h false⟩, ⟨1, 0, variantsOf s h true⟩] }) s)

/-- The port follows its mode and enable: off, direct, or training (R306, R318). -/
def portRefresh (h : Nat) (s : State) : State :=
  let want : Nat := if headEnabled s h then portMode s h else 0
  match want, (port s h).link with
  | 1, .off => train h .training 0 s
  | 1, .direct => train h .training 5 s
  | 1, _ => s
  | 2, .direct => s
  | 2, .off => setLink h .direct 0 s
  | 2, _ => setLink h .direct 5 s
  | _, .off => s
  | _, _ => setLink h .off 5 (updPort h (fun x => { x with
      align := 0, descr := false, frames := [], descs := [], fills := [] }) s)

/-- A write of HLK_CTRL: mode or shift clock refused while the head is powered or its plane runs, then RETRAIN (R306,
R319). -/
def hlkCtrlWrite (h : Nat) (v : Word) (s : State) : State :=
  let changes := decide (bits 3 0 v.toNat ≠ rf s (Reg.HLK_CTRL h) 3 0)
  let runs := match planeOfHead s h with | some p => (plane s p).live | none => false
  if changes && ((port s h).pwren || runs) then recordErr (pgHlk h) 0x40 s
  else
    let s1 := plainPut (Reg.HLK_CTRL h) v s
    portRefresh h (if v.toNat / 32 % 2 = 1 then retrain h 5 s1 else s1)

def execHlkRetrainWrite (ini : Initiator) (head : Fin 64) (val : Word) (s : State) : Host.Outcome State Fault Refusal :=
  .next (guardWrite ini (Reg.HLK_CTRL head.val) allBytes val (hlkCtrlWrite head.val) s)

/-- The cause of a latched head fault is still present (R325). -/
def faultCause (s : State) (h : Nat) : Bool :=
  match (port s h).cause with
  | 3 => decide ((port s h).link = .training ∨ (port s h).link = .retraining ∨ (port s h).link = .off)
  | _ => false

/-- A write of HLK_FAULT: LATCH clears only when FLT_N is high and the cause is gone (R325). -/
def faultClear (h : Nat) (v : Word) (s : State) : State :=
  let s1 := if v.toNat / 8 % 2 = 1 then updPort h (fun x => { x with reject := false }) s else s
  if v.toNat % 2 = 1 ∧ (port s1 h).latched = true then
    if (port s1 h).fltLow || faultCause s1 h then
      recordErr (pgHlk h) 0x41 (updPort h (fun x => { x with reject := true }) s1)
    else updPort h (fun x => { x with latched := false, cause := 0 }) s1
  else s1

def execHlkFaultClear (ini : Initiator) (head : Fin 64) (val : Word) (s : State) : Host.Outcome State Fault Refusal :=
  .next (guardWrite ini (Reg.HLK_FAULT head.val) allBytes val (faultClear head.val) s)

/-! ## The return lane (R314, R316, R318 to R320) -/

/-- The receiver works: a framed port that is enabled. -/
def rxActive (x : Port) : Bool := decide (x.link = .training ∨ x.link = .up ∨ x.link = .retraining)

/-- A good frame in LOCKED: the descrambler moves on, the run of bad frames ends. -/
def rxGood (h : Nat) (s : State) : State :=
  updPort h (fun x => { x with bad := 0, rxScr := scrAdvance 480 x.rxScr }) s

/-- A message is delivered: the lane is LOCKED and descrambled (R316). -/
def delivers (s : State) (h : Nat) : Bool :=
  let x := port s h
  rxActive x && decide (x.align = 2) && x.descr

/-- A message on the return lane: a good frame whose content counts when it is delivered. -/
def message (h : Nat) (op : State → State) (s : State) : State :=
  let x := port s h
  if rxActive x && decide (x.align = 2) then
    let s1 := rxGood h s
    if x.descr then op s1 else s1
  else s

/-- In HUNT a marker becomes the candidate (R314). -/
def markerFound (h ofs : Nat) (s : State) : State :=
  let x := port s h
  if rxActive x && decide (x.align = 0) then putPort h { x with align := 1, cand := ofs, good := 0 } s else s

def execHlkRxMarkerFound (head : Fin 64) (ofs : BitVec 9) (s : State) : Host.Outcome State Fault Refusal :=
  .next (markerFound head.val ofs.toNat s)

/-- A good frame: in CONFIRM it counts towards LOCKED (R314). -/
def frameGood (h : Nat) (s : State) : State :=
  let x := port s h
  if !rxActive x then s
  else if x.align = 1 then
    putPort h { x with good := x.good + 1, align := if x.good + 1 = 4 then 2 else 1, bad := 0 } s
  else if x.align = 2 then rxGood h s
  else s

def execHlkRxFrameGood (head : Fin 64) (s : State) : Host.Outcome State Fault Refusal := .next (frameGood head.val s)

/-- A frame with a bad marker or CRC (R314). -/
def frameBad (h : Nat) (s : State) : State :=
  let x := port s h
  if !rxActive x then s
  else if x.align = 1 then putPort h { x with align := 0, good := 0, cand := x.cand + 1 } s
  else if x.align = 2 then
    let s1 := inc (Reg.HLK_RX_CRC_CNT h) 1 (putPort h { x with bad := x.bad + 1, rxScr := scrAdvance 480 x.rxScr } s)
    if x.bad + 1 = 4 then
      let s2 := inc (Reg.HLK_LOCK_LOSS_CNT h) 1
        (updPort h (fun y => { y with align := 0, bad := 0, descr := false }) s1)
      if x.link = .up then retrain h 2 s2 else s2
    else s1
  else s

def execHlkRxFrameBad (head : Fin 64) (s : State) : Host.Outcome State Fault Refusal := .next (frameBad head.val s)

/-- A SYNC frame loads the descrambler, or is compared with it (R316). -/
def rxSync (h : Nat) (scr : BitVec 23) (s : State) : State :=
  let x := port s h
  if rxActive x && decide (x.align = 2) then
    let s1 := rxGood h s
    let s2 := updPort h (fun y => { y with rxScr := scr.toNat, descr := true }) s1
    if x.descr && decide ((port s1 h).rxScr ≠ scr.toNat) then inc (Reg.HLK_DESYNC_CNT h) 1 s2 else s2
  else s

def execHlkRxSync (head : Fin 64) (scr : BitVec 23) (s : State) : Host.Outcome State Fault Refusal :=
  .next (rxSync head.val scr s)

/-- Power-good reported or lost (R320, R323, R324). -/
def statusPg (h : Nat) (pg : Bool) (s : State) : State :=
  let x := port s h
  if pg then
    if x.pwren && decide (x.link = .up) then
      noteArrival (keyHead h) (putPort h { x with pg := true, pgSeen := true } s)
    else s
  else
    let s1 := putPort h { x with pg := false } s
    if x.pgSeen && x.pwren then headFault h 2 s1 else s1

/-- A STATUS message (R318 to R320). -/
def rxStatus (h : Nat) (pg ready good : Bool) (crc miss : Nat) (s : State) : State :=
  let s1 := wn (Reg.HLK_DRV_STAT h) (crc + 65536 * miss)
    (updPort h (fun x => { x with stale := false, drvReady := ready }) s)
  let s2 := statusPg h pg s1
  match (port s h).link with
  | .up => if good then s2 else retrain h 3 s2
  | .training | .retraining => if good then linkUp h s2 else s2
  | _ => s2

def execHlkRxStatus (head : Fin 64) (pg ready : Bool) (lock descr : BitVec 2) (crc miss : BitVec 16) (t : DWord)
    (s : State) : Host.Outcome State Fault Refusal :=
  .next (message head.val (rxStatus head.val pg ready (lock = 3#2 && descr = 3#2) crc.toNat miss.toNat)
    (advanceTo t.toNat s))

/-- A TEMP message: the readings, and HLK_TEMP_HIGH once (R320). -/
def rxTemp (h temps valid : Nat) (s : State) : State :=
  let vs := (List.range 8).map fun i => bits (16 * i + 15) (16 * i) temps
  let oks := (List.range 8).map fun i => decide (valid / 2 ^ i % 2 = 1)
  let s1 := updPort h (fun x => { x with temps := vs, tempValid := oks }) s
  let hi := signed 16 (rf s (Reg.HLK_TEMP_HI h) 15 0)
  let val := fun i => signed 16 (vs.getD i 0)
  let live := (List.range 8).filter fun i => oks.getD i false
  match live.find? fun i => decide (hi < val i) with
  | some i =>
    if (port s1 h).tempArmed then
      raiseIrq (pgHlk h) 7 (event 0x4104 none (le 1 h ++ le 1 i ++ le 4 (unsigned 32 (val i)))
        (updPort h (fun x => { x with tempArmed := false }) s1))
    else s1
  | none =>
    if live.all fun i => decide (val i ≤ hi - 32) then updPort h (fun x => { x with tempArmed := true }) s1 else s1

def execHlkRxTemp (head : Fin 64) (temps : BitVec 128) (valid : BitVec 8) (s : State) :
    Host.Outcome State Fault Refusal :=
  .next (message head.val (rxTemp head.val temps.toNat valid.toNat) s)

/-- A FAULT message (R320). -/
def rxFault (h code row detail : Nat) (s : State) : State :=
  raiseIrq (pgHlk h) 6 (event 0x4103 none (le 1 h ++ le 1 code ++ le 1 row ++ le 4 detail)
    (wn (Reg.HLK_LAST_FAULT h) (code + 256 * row + 65536 * detail) s))

def execHlkRxFault (head : Fin 64) (code : BitVec 8) (row : BitVec 2) (detail : BitVec 16) (s : State) :
    Host.Outcome State Fault Refusal :=
  .next (message head.val (rxFault head.val code.toNat row.toNat detail.toNat) s)

/-- An ACK makes the bank not in use ready, or starts its fill again (R313, R320). -/
def rxAck (h bank : Nat) (good : Bool) (s : State) : State :=
  let x := port s h
  if good then (if bank = x.bank then s else putPort h { x with ready := true } s)
  else putPort h { x with
    fills := x.fills.filter (·.bank ≠ bank) ++ [⟨bank, 0, variantsOf s h (decide (bank ≠ x.bank))⟩] } s

def execHlkRxAck (head : Fin 64) (bank good : Bool) (s : State) : Host.Outcome State Fault Refusal :=
  .next (message head.val (rxAck head.val (if bank then 1 else 0) good) s)

/-- HLK_TRAIN_TMO expires without UP (R318). -/
def trainTimeout (h : Nat) (s : State) : State :=
  let l := (port s h).link
  if l = .training ∨ l = .retraining then train h l 1 (postLink h l.code l.code 1 s) else s

def execHlkTrainTimeout (head : Fin 64) (s : State) : Host.Outcome State Fault Refusal := .next (trainTimeout head.val s)

/-- No valid STATUS for HLK_RX_TMO (R319). -/
def rxTimeout (h : Nat) (s : State) : State :=
  if (port s h).link = .up then retrain h 4 (updPort h (fun x => { x with stale := true }) s) else s

def execHlkRxTimeout (head : Fin 64) (s : State) : Host.Outcome State Fault Refusal := .next (rxTimeout head.val s)

/-! ## FLT_N and direct mode (R322, R324) -/

/-- FLT_N has been low for 1 µs, or returns high. -/
def fltInput (h t : Nat) (low : Bool) (s : State) : State :=
  let s1 := advanceTo t s
  if low then
    let s2 := updPort h (fun x => { x with fltLow := true }) s1
    if (port s2 h).pwren then headFault h 1 s2 else s2
  else updPort h (fun x => { x with fltLow := false, fltHighSince := t }) s1

def execHlkFltNFault (head : Fin 64) (low : Bool) (t : DWord) (s : State) : Host.Outcome State Fault Refusal :=
  .next (fltInput head.val t.toNat low s)

/-- FLT_N has been high for HLK_PG_DELAY after PWREN (R322). -/
def pgDelay (h t : Nat) (s : State) : State :=
  let x := port s h
  let start := max x.powerAt x.fltHighSince
  if x.link = .direct ∧ x.pwren = true ∧ x.fltLow = false ∧ x.pg = false ∧
      start + rf s (Reg.HLK_PG_DELAY h) 15 0 * ms ≤ t then
    noteArrival (keyHead h) (updPort h (fun y => { y with pg := true, pgSeen := true }) (advanceTo t s))
  else s

def execHlkPgDelayExpire (head : Fin 64) (t : DWord) (s : State) : Host.Outcome State Fault Refusal :=
  .next (pgDelay head.val t.toNat s)

end Sys2Proof.Machine
end

