-- ==== Sys2Proof/Machine/Position.lean ====
section
/-! DEFINITION. The position interface: samples, supervision, indexes, corrections and its control writes (spec/13, R326 to
R339). -/

namespace Sys2Proof.Machine
open Sys2Proof

/-! ## Arithmetic of a sample (R328) -/

/-- The integer square root by bits from 2^n down. -/
def isqrtBits : Nat → Nat → Nat → Nat
  | 0, _, r => r
  | n + 1, v, r => isqrtBits n v (if (r + 2 ^ n) * (r + 2 ^ n) ≤ v then r + 2 ^ n else r)

/-- isqrt of a sample's sum of squares. -/
def isqrt (v : Nat) : Nat := isqrtBits 18 v 0

/-- 2^60 times cosine and sine of 2π × 2^j ÷ 8,192 for j from 10 down to 0. -/
def angleSteps : List (Nat × Int × Int) :=
  [(1024, 815238614083298888, 815238614083298888), (512, 1065160580698383124, 441203958630471860),
   (256, 1130768441178740757, 224923827593068887), (128, 1147369872436662991, 113006068906017470),
   (64, 1151532760162549490, 56571176913125535), (32, 1152574266204915294, 28294110113536504),
   (16, 1152834691737939372, 14148120384212745), (8, 1152899801185339687, 7074193361797233),
   (4, 1152916078738702569, 3537113327227485), (2, 1152920148139012899, 1768558744408523),
   (1, 1152921165489838583, 884279632303724)]

/-- Half-counts of the angle of (k, s) within the first quadrant: each step is taken while the vector lies at or past it. -/
def quadrantHalves (k s : Int) : Nat :=
  (angleSteps.foldl (fun (a : Nat × Int × Int) st =>
    let c := (a.2.1 * st.2.1 - a.2.2 * st.2.2) / 2 ^ 60
    let d := (a.2.1 * st.2.2 + a.2.2 * st.2.1) / 2 ^ 60
    if 0 ≤ c * s - d * k then (a.1 + st.1, c, d) else a) (0, 2 ^ 60, 0)).1

/-- 4,096 × atan2(s, k) ÷ 2π rounded to the nearest integer, mod 4,096 (R328); none at the origin. -/
def atan4096 (s k : Int) : Option Nat :=
  if s = 0 ∧ k = 0 then none
  else
    let h := if 0 ≤ s ∧ 0 < k then quadrantHalves k s
      else if k ≤ 0 ∧ 0 < s then 2048 + quadrantHalves s (-k)
      else if s ≤ 0 ∧ k < 0 then 4096 + quadrantHalves (-k) (-s)
      else 6144 + quadrantHalves (-s) k
    some ((h + 1) / 2 % 4096)

/-- The angle a channel takes: within one count of the exact one, free between (R328); free where there is none. -/
def channelAngle (s k : Int) (st : State) : Nat × State :=
  match atan4096 s k with
  | some a => let e := drawIn (-1) 1 st; (unsigned 12 ((a : Int) + e.1), e.2)
  | none => let d := draw 12 st; (d.1.toNat, d.2)

/-! ## Direction, steps and missing indexes (R286, R330, R337) -/

/-- PIF_C_PG_CTRL.EN of a channel. -/
def pifEnabled (s : State) (c : Nat) : Bool := (pif s c).enabled

/-- DIR follows a movement past the hysteresis (R330). -/
def pifDirection (c : Nat) (s : State) : State :=
  let x := pif s c
  let hyst : Int := rf s (Reg.PIF_C_DIR_HYST c) 15 0
  let away := if x.dir then posSub x.extreme x.pos else posSub x.pos x.extreme
  if hyst ≤ away then
    let s1 := updPif c (fun g => { g with dir := !g.dir, extreme := g.pos }) s
    raiseIrq (pgPif c) 5 (event 0x5008 none (le 1 c ++ le 4 (if x.dir then 0 else 1) ++ le 8 x.pos ++ le 8 (stamp s1).toNat)
      (wf (Reg.PIF_C_STAT c) 2 2 1 s1))
  else if away < 0 then updPif c (fun g => { g with extreme := g.pos }) s
  else s

/-- Position samples 2^VAVG apart give the velocity (R330); before enabling the position counts as 0. -/
def pifVelocity (c : Nat) (s : State) : State :=
  let n := 2 ^ rf s (Reg.PIF_C_CFG c) 14 12
  updPif c (fun g => { g with
    hist := (g.pos :: g.hist).take 129,
    vel := divZ (posSub g.pos ((g.pos :: g.hist).getD n 0) * 256) n }) s

/-- VALID of a channel clears: the frames that name it make no ratio proposal and no deviation check (R333). -/
def encoderBad (c : Nat) (s : State) : State :=
  planeNums.foldl (fun t p =>
    if rf t (Reg.KLN_PC_CFG (planeChan t p)) 13 12 = c then updPlane p (fun g => { g with encBad := true }) t else t) s

/-- A fault of a channel latches (R332). -/
def pifLatch (c bit code : Nat) (payload : List Byte) (s : State) : State :=
  if rbit s (Reg.PIF_C_STAT c) bit then s
  else raiseIrq (pgPif c) 4 (event code none (le 1 c ++ payload ++ le 8 (stamp s).toNat)
    (encoderBad c (wf (Reg.PIF_C_STAT c) bit bit 1 s)))

/-- P, the index period. -/
def idxPeriod (s : State) (c : Nat) : Nat := rn64 s (Reg.PIF_C_IDX_PERIOD c) % 2 ^ 48

/-- Records of a missing index as the position passes 1.5 × P and each further P from the reference (R337). -/
def pifMissing (c : Nat) (s : State) : State :=
  let x := pif s c
  let p := idxPeriod s c
  match x.ref with
  | some ref =>
    if p = 0 ∨ rbit s (Reg.PIF_C_STAT c) 6 = true ∨ pifValid s c = false then s
    else
      let d := 2 * (posSub x.pos ref).natAbs
      let n := if 3 * p ≤ d then (d - 3 * p) / (2 * p) + 1 else 0
      (List.range (n - x.missed)).foldl (fun t _ =>
        raiseIrq (pgPif c) 6 (event 0x5003 none (le 1 c ++ le 8 x.pos ++ le 8 ref)
          (inc (Reg.PIF_C_MISSING_CNT c) 1 (updPif c (fun g => { g with missed := g.missed + 1 }) t)))) s
  | none => s

/-- The change of X one sample brings under SRC 4, in 2^-32 line (R286); free where ENC_PL is 0. -/
def encoderMove (k : Nat) (d : Int) (s : State) : Int × State :=
  let pl := rn s (Reg.KLN_PC_ENC_PL k)
  if pl = 0 then let q := draw 64 s; (q.1.toInt, q.2)
  else (divF (d * 2 ^ 48 + divF pl 2) pl, s)

/-- A valid sample that changes the count is a step event of the channels paced from it (R286, R333). -/
def pifSteps (c t : Nat) (d : Int) (s : State) : State :=
  if d = 0 ∨ pifValid s c = false then s
  else (List.range 4).foldl (fun u k =>
    if pcSrc u k = 4 ∧ pcSub u k = c then
      let m := encoderMove k d u
      paceStep k t m.1 false m.2
    else u) s

/-- The following error exceeds FB_TOL (R354). -/
def followError (s : State) (a : Nat) : Bool :=
  let x := axis s a
  let c := rf s (Reg.MOT_A_CFG a) 12 11
  let tol := rn s (Reg.MOT_A_FB_TOL a)
  let scale := signed 32 (rn s (Reg.MOT_A_FB_SCALE a))
  rbit s (Reg.MOT_A_CFG a) 13 && decide (tol ≠ 0) && pifValid s c &&
    decide (tol * 65536 < ((x.counts - x.fbRef.1) * 65536 - posSub (pif s c).pos x.fbRef.2 * scale).natAbs)

/-- Axes held at standstill check their position at each sample of their channel (R354, R356); a moving axis checks at its updates. -/
def pifFollow (c : Nat) (s : State) : State :=
  (List.range 8).foldl (fun t a =>
    if rf t (Reg.MOT_A_CFG a) 12 11 = c ∧ (axis t a).state = .standstill ∧
        ((axis t a).applied = false ∨ rf t (Reg.MOT_A_CFG a) 7 6 = 2) ∧ followError t a = true ∧
        rbit t (Reg.MOT_A_FAULT a) 3 = false then
      unhome a (latchAxis a 3 t)
    else t) s

/-- A sample moves the position by d counts: velocity, direction, missing indexes, following errors and step events. -/
def pifMove (c t : Nat) (d : Int) (s : State) : State :=
  let s1 := updPif c (fun g => { g with prevTs := g.ts, prevPos := g.pos, ts := t, pos := posAdd g.pos d }) s
  pifSteps c t d (pifFollow c (pifMissing c (pifDirection c (pifVelocity c s1))))

/-! ## Samples (R328, R329, R332) -/

/-- The amplitude's check and registers (R332). -/
def pifAmplitude (c a : Nat) (s : State) : State :=
  let lo := match (pif s c).minA with | some m => min m a | none => a
  let s1 := wn (Reg.PIF_C_AMPL c) (a % 16384 + 65536 * (lo % 16384)) (updPif c (fun g => { g with minA := some lo }) s)
  if a < rf s1 (Reg.PIF_C_AMP c) 13 0 ∨ rf s1 (Reg.PIF_C_AMP c) 29 16 < a then
    let s2 := inc (Reg.PIF_C_AMP_CNT c) 1 (updPif c (fun g => { g with ampRun := g.ampRun + 1 }) s1)
    if rf s2 (Reg.PIF_C_AMP_QUAL c) 7 0 ≤ (pif s2 c).ampRun then
      pifLatch c 3 0x5005 (le 4 a) (updPif c (fun g => { g with ampBad := true }) s2)
    else s2
  else updPif c (fun g => { g with ampRun := 0, ampBad := false }) s1

/-- The raw extremes of sine and cosine (R332). -/
def pifExtremes (c : Nat) (sn cs : Int) (s : State) : State :=
  let x := pif s c
  let mn := fun (o : Option Int) (v : Int) => match o with | some m => min m v | none => v
  let mx := fun (o : Option Int) (v : Int) => match o with | some m => max m v | none => v
  let y := { x with minS := some (mn x.minS sn), maxS := some (mx x.maxS sn), minC := some (mn x.minC cs),
                    maxC := some (mx x.maxC cs) }
  let word := fun (a b : Int) => unsigned 16 a + 65536 * unsigned 16 b
  wn (Reg.PIF_C_MINMAX_C c) (word (mn x.minC cs) (mx x.maxC cs))
    (wn (Reg.PIF_C_MINMAX_S c) (word (mn x.minS sn) (mx x.maxS sn)) (updPif c (fun _ => y) s))

/-- An ANALOG sample (R328). A channel that is not enabled only keeps its angle. -/
def adcSample (c t : Nat) (sn cs : Int) (s : State) : State :=
  if rbit s (Reg.PIF_C_CFG c) 0 then s
  else
    let s0 := advanceTo t s
    let s1v := sn - signed 16 (rf s0 (Reg.PIF_C_OFS c) 15 0)
    let k1 := divF ((cs - signed 16 (rf s0 (Reg.PIF_C_OFS c) 31 16)) * rf s0 (Reg.PIF_C_TRIM c) 15 0 + 8192) 16384
    let s2v := s1v - divF (k1 * signed 16 (rf s0 (Reg.PIF_C_TRIM c) 31 16) + 16384) 32768
    let a := isqrt (s2v * s2v + k1 * k1).natAbs
    let q := channelAngle s2v k1 s0
    let d0 : Int := ((q.1 : Int) - (pif s0 c).ang + 2048) % 4096 - 2048
    let d := if rbit s0 (Reg.PIF_C_CFG c) 1 then -d0 else d0
    let s1 := updPif c (fun g => { g with ang := q.1 }) q.2
    if !(pif s1 c).enabled then s1
    else
      let s2 := pifAmplitude c a (pifExtremes c sn cs s1)
      let fast := decide (1024 < d.natAbs)
      let s3 := updPif c (fun g => { g with overBad := fast }) s2
      pifMove c t d (if fast then pifLatch c 4 0x5006 (le 4 (unsigned 32 d)) s3 else s3)

def execPifAdcSample (ch : Fin 4) (sin cos : BitVec 14) (t : DWord) (s : State) : Host.Outcome State Fault Refusal :=
  .next (adcSample ch.val t.toNat sin.toInt cos.toInt s)

/-- A level counts once it has been stable for three samples (R329). -/
def Qual.sample (q : Qual) (v : Bool) : Qual :=
  let run := if v = q.seen then q.run + 1 else 1
  { level := if 3 ≤ run then v else q.level, seen := v, run := min run 3 }

/-- Quadrature order of A and B: the place of a state in the forward sequence 00, 10, 11, 01. -/
def quadPlace (a b : Bool) : Int :=
  match a, b with
  | false, false => 0 | true, false => 1 | true, true => 2 | false, true => 3

/-- A SQUARE sample at 100 MHz (R329). -/
def squareSample (c t : Nat) (a b : Bool) (s : State) : State :=
  if !rbit s (Reg.PIF_C_CFG c) 0 then s
  else
    let s0 := advanceTo t s
    let x := pif s0 c
    let qa := x.a.sample a
    let qb := x.b.sample b
    let s1 := updPif c (fun g => { g with a := qa, b := qb }) s0
    if !x.enabled then s1
    else
      let both := decide (qa.level ≠ x.a.level) && decide (qb.level ≠ x.b.level)
      let turn := (quadPlace qa.level qb.level - quadPlace x.a.level x.b.level) % 4
      let d0 : Int := if both then 0 else if turn = 1 then 1024 else if turn = 3 then -1024 else 0
      let d := if rbit s1 (Reg.PIF_C_CFG c) 1 then -d0 else d0
      let s2 := if both then pifLatch c 5 0x5007 (le 8 x.pos) s1 else s1
      pifMove c t d s2

def execPifSquareSample (ch : Fin 4) (a b : Bool) (t : DWord) (s : State) : Host.Outcome State Fault Refusal :=
  .next (squareSample ch.val t.toNat a b s)

/-! ## Indexes (R334, R335) -/

/-- The count captured at instant t: between the two samples around it in ANALOG mode (R334), its rounding free. -/
def captureCount (c t : Nat) (s : State) : Nat × State :=
  let x := pif s c
  if rbit s (Reg.PIF_C_CFG c) 0 ∨ x.ts ≤ x.prevTs then (x.pos, s)
  else
    let u := max x.prevTs (min t x.ts)
    let n := posSub x.pos x.prevPos * ((u : Int) - x.prevTs)
    let w : Int := (x.ts : Int) - x.prevTs
    let f := divF n w
    let e := roundUp (decide (n % w = 0)) s
    (posAdd x.prevPos (f + e.1), e.2)

/-- The expected count: the nearest of ref − P, ref and ref + P; which of two that are equally near is free. -/
def expectedIndex (ref p x : Nat) (s : State) : Nat × State :=
  let dist := fun (y : Nat) => (posSub x y).natAbs
  let cands := [ref, posAdd ref (-(p : Int)), posAdd ref p]
  let best := cands.foldl (fun b y => if dist y < dist b then y else b) ref
  let ties := cands.filter fun y => dist y = dist best
  match ties with
  | a :: b :: _ => if a = b then (a, s) else
      let q := drawIn 0 1 s
      (if q.1 = 0 then a else b, q.2)
  | _ => (best, s)

/-- An index agrees or disagrees with its expected count (R334 steps 2 to 4). -/
def judgeIndex (c x xe : Nat) (s : State) : State :=
  let e := posSub x xe
  let s1 := updPif c (fun g => { g with ref := some xe, missed := 0 }) s
  let s2 := wf (Reg.PIF_C_IDX_ERR c) 15 0 (unsigned 16 (max (-32767) (min 32767 e))) (wn64 (Reg.PIF_C_IDX_LAST c) x s1)
  if e.natAbs ≤ rf s2 (Reg.PIF_C_IDX_WIN c) 15 0 then
    let s3 := inc (Reg.PIF_C_IDX_CNT c) 1 (updPif c (fun g => { g with run := 0 }) s2)
    if rbit s3 (Reg.PIF_C_CFG c) 3 then idleCorrection c (updPif c (fun g => { g with corr := some e }) s3) else s3
  else
    let run := (pif s2 c).run + 1
    let s3 := inc (Reg.PIF_C_MISMATCH_CNT c) 1 (updPif c (fun g => { g with run := run }) s2)
    let s4 := raiseIrq (pgPif c) 6 (event 0x5001 none (le 1 c ++ le 8 x ++ le 4 (unsigned 32 e) ++ le 4 run) s3)
    if run = 3 then
      raiseIrq (pgPif c) 6 (event 0x5002 none (le 1 c ++ le 8 x ++ le 4 (unsigned 32 e)) (wf (Reg.PIF_C_STAT c) 6 6 1 s4))
    else s4

/-- An edge of the qualified IDX input at instant t (R333, R334). -/
def indexCapture (c t : Nat) (rising : Bool) (s : State) : State :=
  let cfg := Reg.PIF_C_CFG c
  let s0 := advanceTo t s
  if !rbit s0 cfg 2 || !pifValid s0 c || rbit s0 (Reg.PIF_C_STAT c) 6 || decide (rising = rbit s0 cfg 4) then s0
  else
    let q := captureCount c t s0
    match (pif q.2 c).ref with
    | none =>
      inc (Reg.PIF_C_IDX_CNT c) 1 (wn64 (Reg.PIF_C_IDX_LAST c) q.1
        (updPif c (fun g => { g with ref := some q.1, missed := 0 }) q.2))
    | some ref =>
      let p := idxPeriod q.2 c
      if p = 0 then q.2
      else
        let x := expectedIndex ref p q.1 q.2
        judgeIndex c q.1 x.1 x.2

/-- The homing position is reached: the axis stops there at once, and HOMING_COMPLETE follows (R355). -/
def homeReached (a : Nat) (s : State) : State :=
  updAxis a (fun x => { x with
    vel := 0, acc := 0,
    move := x.move.map fun m => { m with kind := match m.kind with | .home seq _ d => .home seq 5 d | k => k } }) s

/-- An index ends the last phase of a SWITCH_INDEX homing of the axes that use the channel (R355). -/
def homingIndex (c : Nat) (rising : Bool) (s : State) : State :=
  if rising = rbit s (Reg.PIF_C_CFG c) 4 then s
  else (List.range 8).foldl (fun t a =>
    match (axis t a).move with
    | some m => match m.kind with
      | .home seq 3 d => if rf t (Reg.MOT_A_CFG a) 12 11 = c then
          homeReached a t else t
      | _ => t
    | none => t) s

def execPifIndexCapture (ch : Fin 4) (rising : Bool) (t : DWord) (s : State) : Host.Outcome State Fault Refusal :=
  .next (homingIndex ch.val rising (indexCapture ch.val t.toNat rising s))

/-! ## Control writes (R327, R336, R339) -/

/-- REARM (R336). -/
def pifRearm (c : Nat) (s : State) : State :=
  let x := pif s c
  let st := Reg.PIF_C_STAT c
  let amp := rbit s st 3 && x.ampBad
  let fast := rbit s st 4 && x.overBad
  let s1 := updPif c (fun g => { g with ref := none, run := 0, corr := none, missed := 0 }) s
  let s2 := wf st 6 3 ((if amp then 1 else 0) + (if fast then 2 else 0)) s1
  if amp || fast then wf st 7 7 1 s2 else s2

/-- LOAD (R336). -/
def pifLoad (c : Nat) (s : State) : State :=
  let v := rn64 s (Reg.PIF_C_LOAD c) % 2 ^ 48
  updPif c (fun g => { g with pos := v, extreme := v, ref := none, missed := 0 }) s

/-- A write of PIF_C_CTRL: REARM and LOAD as its bits say. -/
def pifCtrlWrite (c : Nat) (v : Word) (s : State) : State :=
  let s1 := if v.toNat % 2 = 1 then pifRearm c s else s
  if v.toNat / 2 % 2 = 1 then pifLoad c s1 else s1

def execPifRearm (ini : Initiator) (ch : Fin 4) (val : Word) (s : State) : Host.Outcome State Fault Refusal :=
  .next (guardWrite ini (Reg.PIF_C_CTRL ch.val) allBytes val (pifCtrlWrite ch.val) s)

def execPifLoad (ini : Initiator) (ch : Fin 4) (val : Word) (s : State) : Host.Outcome State Fault Refusal :=
  .next (guardWrite ini (Reg.PIF_C_CTRL ch.val) allBytes val (pifCtrlWrite ch.val) s)

/-- A write of either word of PIF_C_IDX_PERIOD (R339). -/
def idxPeriodWrite (c : Nat) (high : Bool) (v : Word) (s : State) : State :=
  let s1 := plainPut (Reg.PIF_C_IDX_PERIOD c + if high then 4 else 0) v s
  updPif c (fun g => { g with ref := none, missed := 0, corr := none }) s1

def execPifIdxPeriodWrite (ini : Initiator) (ch : Fin 4) (high : Bool) (val : Word) (s : State) :
    Host.Outcome State Fault Refusal :=
  .next (guardWrite ini (Reg.PIF_C_IDX_PERIOD ch.val + if high then 4 else 0) allBytes val
    (idxPeriodWrite ch.val high) s)

/-- The channel follows PG_CTRL.EN of its page: enabling clears position, faults and index state (R327). -/
def pifRefresh (c : Nat) (s : State) : State :=
  let en := (getPage s (pgPif c)).en
  let x := pif s c
  if en = x.enabled then s
  else if en then
    wf (Reg.PIF_C_STAT c) 6 3 0 (updPif c (fun g => { PifCh.init with
      enabled := true, ang := g.ang, a := g.a, b := g.b, minA := g.minA, minS := g.minS, maxS := g.maxS, minC := g.minC,
      maxC := g.maxC }) s)
  else encoderBad c (updPif c (fun g => { g with enabled := false }) s)

end Sys2Proof.Machine
end

