-- ==== Sys2Proof/Machine/Motion.lean ====
section
/-! DEFINITION. Motion: axes, their generator, current loop, faults, homing, enables and commands (spec/14, R340 to R364). -/

namespace Sys2Proof.Machine
open Sys2Proof

/-! ## The sine table (R348) -/

/-- Sine entries 0 to 63. -/
def sine0 : List Int :=
  [0, 201, 402, 603, 804, 1005, 1206, 1407, 1608, 1809, 2009, 2210, 2410, 2611, 2811, 3012, 3212, 3412, 3612,
   3811, 4011, 4210, 4410, 4609, 4808, 5007, 5205, 5404, 5602, 5800, 5998, 6195, 6393, 6590, 6786, 6983, 7179,
   7375, 7571, 7767, 7962, 8157, 8351, 8545, 8739, 8933, 9126, 9319, 9512, 9704, 9896, 10087, 10278, 10469,
   10659, 10849, 11039, 11228, 11417, 11605, 11793, 11980, 12167, 12353]

/-- Sine entries 64 to 127. -/
def sine1 : List Int :=
  [12539, 12725, 12910, 13094, 13279, 13462, 13645, 13828, 14010, 14191, 14372, 14553, 14732, 14912, 15090, 15269,
   15446, 15623, 15800, 15976, 16151, 16325, 16499, 16673, 16846, 17018, 17189, 17360, 17530, 17700, 17869,
   18037, 18204, 18371, 18537, 18703, 18868, 19032, 19195, 19357, 19519, 19680, 19841, 20000, 20159, 20317,
   20475, 20631, 20787, 20942, 21096, 21250, 21403, 21554, 21705, 21856, 22005, 22154, 22301, 22448, 22594,
   22739, 22884, 23027]

/-- Sine entries 128 to 191. -/
def sine2 : List Int :=
  [23170, 23311, 23452, 23592, 23731, 23870, 24007, 24143, 24279, 24413, 24547, 24680, 24811, 24942, 25072, 25201,
   25329, 25456, 25582, 25708, 25832, 25955, 26077, 26198, 26319, 26438, 26556, 26674, 26790, 26905, 27019,
   27133, 27245, 27356, 27466, 27575, 27683, 27790, 27896, 28001, 28105, 28208, 28310, 28411, 28510, 28609,
   28706, 28803, 28898, 28992, 29085, 29177, 29268, 29358, 29447, 29534, 29621, 29706, 29791, 29874, 29956,
   30037, 30117, 30195]

/-- Sine entries 192 to 255. -/
def sine3 : List Int :=
  [30273, 30349, 30424, 30498, 30571, 30643, 30714, 30783, 30852, 30919, 30985, 31050, 31113, 31176, 31237, 31297,
   31356, 31414, 31470, 31526, 31580, 31633, 31685, 31736, 31785, 31833, 31880, 31926, 31971, 32014, 32057,
   32098, 32137, 32176, 32213, 32250, 32285, 32318, 32351, 32382, 32412, 32441, 32469, 32495, 32521, 32545,
   32567, 32589, 32609, 32628, 32646, 32663, 32678, 32692, 32705, 32717, 32728, 32737, 32745, 32752, 32757,
   32761, 32765, 32766]

/-- sine[k] for k in 0 to 256. -/
def sineQuarter (k : Nat) : Int := (sine0 ++ sine1 ++ sine2 ++ sine3 ++ [32767]).getD k 0

/-- sine[k] := round(32767 × sin(2πk ÷ 1024)). -/
def sine (k : Nat) : Int :=
  let j := k % 1024
  if j ≤ 256 then sineQuarter j else if j ≤ 512 then sineQuarter (512 - j)
  else if j ≤ 768 then -sineQuarter (j - 512) else -sineQuarter (1024 - j)

/-! ## What an axis is set to -/

/-- MOT_A_CFG.MODE. -/
def axisMode (s : State) (a : Nat) : Nat := rf s (Reg.MOT_A_CFG a) 1 0

/-- A limit input is active (R353). -/
def limitActive (s : State) (a : Nat) (positive : Bool) : Bool :=
  (if positive then (axis s a).limP else (axis s a).limN) != rbit s (Reg.MOT_A_HOMECFG a) 2

/-- The home switch is active. -/
def homeActive (s : State) (a : Nat) : Bool := (axis s a).homeIn != rbit s (Reg.MOT_A_HOMECFG a) 1

/-- No fault bars a motion in a direction: none is latched, or LIMIT alone and the motion is away from every active limit
(R353, R357). -/
def mayMove (s : State) (a : Nat) (positive : Bool) : Bool :=
  decide (axisFaults s a = 0) ||
    (decide (axisFaults s a = 16) && !limitActive s a positive)

/-- A field of profile k. -/
def prof (s : State) (a k i : Nat) : Nat := rn s (Reg.MOT_A_PROF a k + 4 * i)

/-- Counts of one microstep or STEP pulse (R343, R351). -/
def microstep (s : State) (a : Nat) : Nat :=
  4096 / 2 ^ (if axisMode s a = 2 then rf s (Reg.MOT_A_STEPIO a) 27 24 else rf s (Reg.MOT_A_CFG a) 5 2)

/-- A 48-bit position register as an integer. -/
def pos48 (s : State) (k : Nat) : Int := signed 48 (rn64 s k)

/-! ## Faults (R347, R350, R352 to R354, R357) -/

/-- The motion is a Kiln feed. -/
def feeding (x : Axis) : Bool := match x.move with
  | some m => match m.kind with | .feed => true | _ => false
  | none => false

/-- STALL with STALL_ACT 1 and FOLLOW: the generator stops at once and the move ends (R350, R354, R357). -/
def stopAtOnce (a : Nat) (s : State) : State :=
  if (axis s a).state = .moving ∨ (axis s a).state = .stopping then endMove a 0x0201 (posRes (axis s a)) s else s

/-- OC or SD_LOSS: every gate off, state FAULT, the move over (R347, R357). -/
def faultOff (a bit : Nat) (s : State) : State :=
  if rbit s (Reg.MOT_A_FAULT a) bit then s
  else
    let x := axis s a
    let s1 := inc (Reg.MOT_A_OC_CNT a) 1 (latchAxis a bit s)
    let s2 := updAxis a (fun y => { y with
      move := none, stop := .none, vel := 0, acc := 0, feedWait := none, homed := y.homed && !homing x,
      phA := { y.phA with duty := 0 }, phB := { y.phB with duty := 0 } }) s1
    arrive (keyAxis a) (fun _ => 0) (completeOpt (moveCmd x) 0x0201 (posRes x) (setAxis a .fault s2))

/-! ## The generator (R343 to R345, R351, R354) -/

/-- Direction, top speed, acceleration, deceleration and jerk of the present motion, and the position it ends at. -/
structure Drive where
  forward : Bool
  vmax : Nat
  amax : Nat
  dmax : Nat
  jerk : Nat
  target : Option Int
  deriving DecidableEq, Repr

/-- What the present motion asks of the generator (R344, R355). -/
def drive (s : State) (a : Nat) (x : Axis) (m : Move) : Drive :=
  let dir := rbit s (Reg.MOT_A_HOMECFG a) 0
  let home := fun (f : Bool) (v : Nat) (t : Option Int) =>
    Drive.mk f v (prof s a 0 1) (prof s a 0 2) (prof s a 0 3) t
  let toward := fun (t : Int) => decide (x.pos ≤ t * 2 ^ 32)
  match m.kind with
  | .host | .feed =>
    ⟨toward m.target, prof s a m.profile 0, prof s a m.profile 1, prof s a m.profile 2, prof s a m.profile 3, some m.target⟩
  | .home _ ph _ =>
    if ph ≤ 1 then home dir (rn s (Reg.MOT_A_HOME_V a)) none
    else if ph = 4 then home (toward m.target) (rn s (Reg.MOT_A_HOME_V2 a)) (some m.target)
    else home (!dir) (rn s (Reg.MOT_A_HOME_V2 a)) none

/-- The axis is slowing to a stop. -/
def slowing (x : Axis) (m : Move) : Bool :=
  decide (x.stop ≠ .none) || (match m.kind with | .home _ 1 _ => true | _ => false)

/-- The speed of the next 10 µs and the acceleration that gives it: free within the limits of the profile and its jerk, or
slowing at DEMG (R344, R352). -/
def nextSpeed (s : State) (a : Nat) (x : Axis) (m : Move) (d : Drive) : (Nat × Int) × State :=
  let v := x.vel.natAbs
  if x.stop = .mode1 ∨ x.stop = .limit ∨ x.stop = .timeout then
    let g := rn s (Reg.MOT_A_DEMG a)
    let q := drawIn (g / 100000 : Nat) ((g + 99999) / 100000 : Nat) s
    ((v - q.1.toNat, 0), q.2)
  else
    let j : Int := (d.jerk * 256 / 100000 + 1 : Nat)
    let top : Int := if slowing x m then max 0 x.acc else min d.amax (x.acc + j)
    let q := drawIn (max (-(d.dmax : Int)) (x.acc - j)) top s
    let r := drawIn 0 1 q.2
    (((max 0 (min (d.vmax : Int) (v + divF q.1 100000 + r.1))).toNat, q.1), r.2)

/-- Multiples of µ (in 2^-32 counts) passed or reached from p0 to p1 in the direction of travel. -/
def passedSteps (mu p0 p1 : Int) : List Int :=
  if p0 ≤ p1 then
    let lo := divF p0 mu + 1
    (List.range (divF p1 mu - lo + 1).toNat).map fun i => (lo + (i : Nat)) * mu
  else
    let hi := -divF (-p0) mu - 1
    (List.range (hi + divF (-p1) mu + 1).toNat).map fun i => (hi - (i : Nat)) * mu

/-- The edge of a STEP pulse: the nearest CK_FAB edge, after the pulse before it is low again (DESIGN CHOICE, log 74), and DIR_SU after a
change of direction (R351). -/
def stepEdge (s : State) (a t start : Nat) (fwd : Bool) : Nat :=
  let io := Reg.MOT_A_STEPIO a
  let x := axis s a
  let e := max ((t + 32) / 64 * 64) (x.lastStep + (rf s io 11 0 + 1) * 64)
  if x.lastDir = fwd then e else max e (start + rf s io 23 12 * 64)

/-- One microstep or STEP pulse at an instant, a step event of the channels paced from the axis (R351, R362). -/
def issueStep (a t start : Nat) (fwd : Bool) (s : State) : State :=
  let u := if axisMode s a = 2 then stepEdge s a t start fwd else t
  let s1 := updAxis a (fun x => { x with lastDir := fwd, lastStep := u }) (emit (.step a fwd u) s)
  (List.range 4).foldl (fun v k =>
    if pcSrc v k = 3 ∧ pcSub v k = a then paceStep k u (if fwd then 1 else -1) false v else v) s1

/-- 10 µs in fire timebase units. -/
def genPeriod : Nat := 256000

/-- The microsteps of one update, each at its interpolated instant (R345); the rounding of an instant is free. -/
def issueSteps (a : Nat) (p0 p1 : Int) (start : Nat) (s : State) : State :=
  (passedSteps (microstep s a * 2 ^ 32) p0 p1).foldl (fun t m =>
    let n := (m - p0).natAbs * genPeriod
    let w := (p1 - p0).natAbs
    let q := roundUp (decide (n % w = 0)) t
    issueStep a (start + n / w + q.1.toNat) start (decide (p0 ≤ p1)) q.2) s

/-- The reference of R354: fixed at enable and at each homing. -/
def fixReference (a : Nat) (s : State) : State :=
  let c := rf s (Reg.MOT_A_CFG a) 12 11
  updAxis a (fun x => { x with fbRef := (x.counts, (pif s c).pos) }) s

/-- A homing phase follows the one that ends with the axis at rest (R355). -/
def homePhase (a : Nat) (s : State) : State :=
  match (axis s a).move with
  | some m => match m.kind with
    | .home seq 1 d => if (axis s a).vel = 0 then
        updAxis a (fun x => { x with move := some { m with kind := .home seq 2 d } }) s else s
    | .home seq 4 d => if (axis s a).pos = m.target * 2 ^ 32 then
        homeReached a s else s
    | _ => s
  | none => s

/-- A homing sequence has found its position and only waits for its end event. -/
def homeFound (m : Move) : Bool := match m.kind with | .home _ 5 _ => true | _ => false

/-- One generator update: velocity, position, the microsteps of the next 10 µs, the following error (R345, R354). -/
def generatorUpdate (a : Nat) (s : State) : State :=
  let x := axis s a
  match x.move with
  | some m =>
    if (x.state ≠ .moving ∧ x.state ≠ .stopping) ∨ homeFound m = true then s
    else
      let d := drive s a x m
      let q := nextSpeed s a x m d
      let dp : Int := (q.1.1 * 2 ^ 32 / 100000 : Nat)
      let arrives := match d.target with
        | some t => decide ((t * 2 ^ 32 - x.pos).natAbs ≤ dp.natAbs)
        | none => false
      let p1 := if arrives then (d.target.getD 0) * 2 ^ 32 else if d.forward then x.pos + dp else x.pos - dp
      let v : Int := if arrives then 0 else if d.forward then q.1.1 else -(q.1.1 : Int)
      let s1 := updAxis a (fun y => { y with
        pos := p1, vel := v, acc := if arrives then 0 else q.1.2, ts := x.ts + genPeriod }) q.2
      let s2 := advanceTo (x.ts + genPeriod) (if p1 = x.pos then s1 else issueSteps a x.pos p1 x.ts s1)
      let s3 := homePhase a s2
      if followError s3 a then stopAtOnce a (unhome a (latchAxis a 3 s3)) else s3
  | none => s

def execMotGeneratorUpdate (axis : Fin 8) (s : State) : Host.Outcome State Fault Refusal :=
  .next (generatorUpdate axis.val s)

/-! ## The current loop and the load margin (R348 to R350) -/

/-- Whether the bridge drives current: moving, or at standstill before the choice applies or under HOLD (R356). -/
def drivesCurrent (s : State) (a : Nat) : Bool :=
  let x := axis s a
  match x.state with
  | .moving | .stopping => true
  | .standstill => !x.applied || decide (rf s (Reg.MOT_A_CFG a) 7 6 = 2)
  | _ => false

/-- i_now (R348). -/
def iNow (s : State) (a : Nat) : Int :=
  let x := axis s a
  if x.state = .moving ∨ x.state = .stopping then (rf s (Reg.MOT_A_CUR a) 15 0 * x.scale / 256 : Nat)
  else (rf s (Reg.MOT_A_CUR a) 31 16 : Nat)

/-- One phase of the loop (R348). -/
def phaseStep (s : State) (a : Nat) (target measured : Int) (p : PhaseLoop) : PhaseLoop :=
  let e := target - measured
  let acc := satS 32 (p.acc + e * rf s (Reg.MOT_A_LOOP a) 31 16)
  let duty := max (-1023) (min 1023 (divF (e * rf s (Reg.MOT_A_LOOP a) 15 0 + divF acc 16) 4096))
  { p with acc := acc, duty := duty }

/-- The scale after a measurement (R349); SMIN is free where I_RUN is 0. -/
def adapt (a lm : Nat) (s : State) : State :=
  let k := Reg.MOT_A_ADAPT a
  if rbit s k 31 then
    let x := axis s a
    let run := rf s (Reg.MOT_A_CUR a) 15 0
    if lm < rf s k 25 16 then updAxis a (fun y => { y with scale := min 256 (y.scale + 32), scaleRun := 0 }) s
    else if rf s k 9 0 < lm then
      if x.scaleRun + 1 = 16 then
        let q := if run = 0 then drawIn 0 256 s else (((256 * rf s (Reg.MOT_A_CUR2 a) 15 0 + run - 1) / run : Nat), s)
        updAxis a (fun y => { y with scale := max q.1.toNat (y.scale - 8), scaleRun := 0 }) q.2
      else updAxis a (fun y => { y with scaleRun := y.scaleRun + 1 }) s
    else updAxis a (fun y => { y with scaleRun := 0 }) s
  else s

/-- The phase of a homing sequence 2 in its search. -/
def stallSearch (x : Axis) : Bool := match x.move with
  | some m => match m.kind with | .home 2 0 _ => true | _ => false
  | none => false

/-- The search of sequence 2 is over: stop at once and back off the other way (R355). -/
def stallFound (a : Nat) (s : State) : State :=
  let back : Int := rn s (Reg.MOT_A_HOME_BACK a)
  let dir : Int := if rbit s (Reg.MOT_A_HOMECFG a) 0 then 1 else -1
  updAxis a (fun x => { x with
    vel := 0, acc := 0, stallRun := 0,
    move := x.move.map fun m => { m with
      target := x.counts - dir * back
      kind := match m.kind with | .home seq _ d => .home seq 4 d | k => k } }) s

/-- A load-margin measurement: adaptation, and a stall (R349, R350). -/
def loadMargin (a lm : Nat) (s : State) : State :=
  let k := Reg.MOT_A_STALL a
  let low := decide (lm ≤ rf s k 9 0)
  let s1 := adapt a lm (updAxis a (fun x => { x with
    lm := lm, stallRun := if low then x.stallRun + 1 else 0 }) s)
  if (axis s1 a).stallRun < rf s1 k 13 10 then s1
  else if stallSearch (axis s1 a) then stallFound a s1
  else if rbit s1 k 15 && !rbit s1 (Reg.MOT_A_FAULT a) 2 then
    let s2 := unhome a (inc (Reg.MOT_A_STALL_CNT a) 1 (latchAxis a 2 s1))
    if rbit s2 k 14 || homing (axis s2 a) then stopAtOnce a s2 else s2
  else s1

/-- The mean magnitude of a phase's duty over the preceding eighth of a full step, its rounding free. -/
def meanDuty (l : List Int) (s : State) : Nat × State :=
  let n := l.length
  let t := (l.map Int.natAbs).sum
  if n = 0 then let q := drawIn 0 1023 s; (q.1.toNat, q.2)
  else if t % n = 0 then (t / n, s)
  else let q := drawIn 0 1 s; (t / n + q.1.toNat, q.2)

/-- A zero crossing of a phase's target between two positions: the full step reached. -/
def fullStep (p0 p1 : Int) : Option Int :=
  if p0 < p1 then (if divF p0 4096 < divF p1 4096 then some (divF p1 4096) else none)
  else if p1 < p0 then
    (if divF (-p0) 4096 < divF (-p1) 4096 then some (-divF (-p1) 4096) else none)
  else none

/-- The measurement of R349 at a PWM period, when the targets passed a zero crossing at speed. -/
def measureLoad (a : Nat) (p0 p1 : Int) (s : State) : State :=
  let x := axis s a
  if (x.state = .moving ∨ x.state = .stopping) ∧ rf s (Reg.MOT_A_STALL a) 31 16 * 4096 ≤ x.vel.natAbs then
    match fullStep p0 p1 with
    | some j =>
      let near := x.duties.filter fun q => decide ((q.1 - j * 4096).natAbs ≤ 512)
      let q := meanDuty (near.map fun q => if j % 2 = 0 then q.2.2 else q.2.1) s
      loadMargin a (1023 - q.1) q.2
    | none => s
  else s

/-- Cycles of a half of the PWM period's on-time of n ÷ 2,048 of the period, on one side of the centre; its rounding to a CK_FAB cycle is
free (R346). -/
def halfTime (period n : Nat) (s : State) : Nat × State :=
  if period * n % 4096 = 0 then (period * n / 4096, s)
  else let q := drawIn 0 1 s; (period * n / 4096 + q.1.toNat, q.2)

/-- A half-bridge whose high side is on for n ÷ 2,048 of the period about its centre; each gate turns on DT cycles after the other has
turned off (R346). -/
def halfBridge (period dt n : Nat) (s : State) : HalfBridge × State :=
  let l := halfTime period n s
  let r := halfTime period n l.2
  let on := period / 2 - l.1
  let off := period / 2 + r.1
  (⟨on + dt, off, on, off + dt⟩, r.2)

/-- The gates (high, low) of a half-bridge at a cycle of its period (R346); the low side stays off until DT after the high side's time
even where that runs into the next period. -/
def HalfBridge.at (b : HalfBridge) (period c : Nat) : Bool × Bool :=
  (decide (b.hiOn ≤ c ∧ c < b.hiOff), decide (c < b.loOff ∧ b.loOn - period ≤ c ∨ b.loOn ≤ c))

/-- The four half-bridges of a period: phase A's duty on 0 and 1, phase B's on 2 and 3 (R340, R346). -/
def bridgePlan (period dt : Nat) (da db : Int) (s : State) : List HalfBridge × State :=
  [1024 + da, 1024 - da, 1024 + db, 1024 - db].foldl (fun (p : List HalfBridge × State) n =>
    let q := halfBridge period dt n.toNat p.2
    (p.1 ++ [q.1], q.2)) ([], s)

/-- The next PWM period drives the bridges with the duties of both phases (R346). -/
def driveBridges (a : Nat) (da db : Int) (s : State) : State :=
  let period := rf s (Reg.MOT_A_PWM a) 15 0
  let q := bridgePlan period (rf s (Reg.MOT_A_PWM a) 23 16) da db s
  emit (.gates a period (q.1.map fun b => (b.hiOn, b.hiOff, b.loOff, b.loOn))) (updAxis a (fun x => { x with gates := q.1 }) q.2)

/-- The gates GH[k] and GL[k] of axis a at a cycle of its PWM period: off unless the axis drives its bridge, the low sides alone on in a
SHORTED standstill, every gate off in an OFF one (R340, R341, R346, R356, R361). -/
def axisGates (s : State) (a k c : Nat) : Bool × Bool :=
  let x := axis s a
  if axisMode s a ≠ 1 ∨ x.state.driven = false then (false, false)
  else if drivesCurrent s a then
    match x.gates[k]? with
    | some b => b.at (rf s (Reg.MOT_A_PWM a) 15 0) c
    | none => (false, false)
  else (false, decide (rf s (Reg.MOT_A_CFG a) 7 6 = 1))

/-- ENA of an axis in STEP_DIR mode: active while the axis is enabled and its standstill choice is not OFF or SHORTED, low when active
under ENA_INV (R351, R356, R360). -/
def axisEna (s : State) (a : Nat) : Bool :=
  let active := (axis s a).state.driven && drivesCurrent s a
  decide (axisMode s a = 2) && (active != rbit s (Reg.MOT_A_CFG a) 15)

/-- One PWM period of an axis in BRIDGE mode with its measured currents (R346, R348, R349). -/
def pwmPeriod (a : Nat) (ma mb : Int) (s : State) : State :=
  let x := axis s a
  if axisMode s a ≠ 1 ∨ drivesCurrent s a = false then s
  else
    let mu : Int := 4096 / 2 ^ rf s (Reg.MOT_A_CFG a) 5 2
    let p := divF x.counts mu * mu
    let idx := (divF (p % 16384) 16).toNat
    let i := iNow s a
    let pa := phaseStep s a (divF (i * sine idx) 32768) ma x.phA
    let pb := phaseStep s a (divF (i * sine (idx + 256)) 32768) mb x.phB
    let p0 := (x.duties.head?.map (·.1)).getD x.counts
    measureLoad a p0 x.counts (driveBridges a pa.duty pb.duty (updAxis a (fun y => { y with
      phA := pa, phB := pb, duties := (x.counts, pa.duty, pb.duty) ::
        y.duties.filter fun q => decide ((q.1 - x.counts).natAbs ≤ 4608) }) s))

def execMotPwmPeriod (axis : Fin 8) (ia ib : BitVec 16) (s : State) : Host.Outcome State Fault Refusal :=
  .next (pwmPeriod axis.val ia.toInt ib.toInt s)

/-! ## Overcurrent and bitstream loss (R347) -/

def updPhase (a : Nat) (b : Bool) (f : PhaseLoop → PhaseLoop) (s : State) : State :=
  updAxis a (fun x => if b then { x with phB := f x.phB } else { x with phA := f x.phA }) s

/-- The axis is powered in BRIDGE mode. -/
def bridgeOn (s : State) (a : Nat) : Bool :=
  decide (axisMode s a = 1) && (match (axis s a).state with
    | .standstill | .moving | .stopping => true
    | _ => false)

/-- An output of a phase's fast filter (R347). -/
def fastFilter (a : Nat) (b : Bool) (code : Int) (s : State) : State :=
  let high := decide (rf s (Reg.MOT_A_CUR2 a) 31 16 < code.natAbs)
  let s1 := updPhase a b (fun p => { p with fast := code, overRun := if high then p.overRun + 1 else 0 }) s
  let p := if b then (axis s1 a).phB else (axis s1 a).phA
  if bridgeOn s1 a && decide (2 ≤ p.overRun) then faultOff a 0 s1 else s1

def execMotSdFastFilter (axis : Fin 8) (phase : Bool) (code : BitVec 16) (s : State) : Host.Outcome State Fault Refusal :=
  .next (fastFilter axis.val phase code.toInt s)

/-- A bitstream has stayed constant for 64 modulator clocks, or toggles again. -/
def sdLoss (a : Nat) (b lost : Bool) (s : State) : State :=
  let s1 := updPhase a b (fun p => { p with lost := lost }) s
  if lost && bridgeOn s1 a then faultOff a 1 s1 else s1

def execMotSdLoss (axis : Fin 8) (phase lost : Bool) (s : State) : Host.Outcome State Fault Refusal :=
  .next (sdLoss axis.val phase lost s)

/-! ## Limits, home switch, standstill (R353, R355, R356) -/

/-- The axis moves toward the positive or negative side. -/
def movesToward (s : State) (a : Nat) (positive : Bool) : Bool :=
  let x := axis s a
  match x.move with
  | some m => decide (x.state = .moving ∨ x.state = .stopping) && decide ((drive s a x m).forward = positive)
  | none => false

/-- A stop begins (R352): the state is STOPPING, the stop as named. -/
def beginStop (a : Nat) (m : StopMode) (s : State) : State :=
  setAxis a .stopping (updAxis a (fun x => { x with stop := m }) s)

/-- A limit input changes (R353). -/
def limitInput (a : Nat) (positive high : Bool) (s : State) : State :=
  let was := limitActive s a positive
  let s1 := updAxis a (fun x => if positive then { x with limP := high } else { x with limN := high }) s
  if rbit s1 (Reg.MOT_A_HOMECFG a) 3 && !was && limitActive s1 a positive && movesToward s1 a positive then
    beginStop a .limit (latchAxis a 4 s1)
  else s1

def execMotLimitInput (axis : Fin 8) (positive high : Bool) (s : State) : Host.Outcome State Fault Refusal :=
  .next (limitInput axis.val positive high s)

/-- The home switch in a homing sequence: it ends the search, or the approach (R355). -/
def homeSwitch (a : Nat) (s : State) : State :=
  let x := axis s a
  match x.move with
  | some m => match m.kind with
    | .home seq ph d =>
      if seq ≤ 1 ∧ ph = 0 ∧ homeActive s a = true then
        updAxis a (fun y => { y with move := some { m with kind := .home seq 1 d } }) s
      else if seq ≤ 1 ∧ ph = 2 ∧ homeActive s a = false then
        if seq = 0 then homeReached a s else updAxis a (fun y => { y with move := some { m with kind := .home seq 3 d } }) s
      else s
    | _ => s
  | none => s

def execMotHomeInput (axis : Fin 8) (high : Bool) (s : State) : Host.Outcome State Fault Refusal :=
  .next (homeSwitch axis.val (updAxis axis.val (fun x => { x with homeIn := high }) s))

/-- SS_DLY after a move the standstill choice applies (R356). -/
def standstillTimer (a : Nat) (s : State) : State :=
  if (axis s a).state = .standstill ∧ (axis s a).held = true then
    updAxis a (fun x => { x with held := false, applied := true }) s
  else s

def execMotStandstillTimer (axis : Fin 8) (s : State) : Host.Outcome State Fault Refusal :=
  .next (standstillTimer axis.val s)

/-! ## Enabling (R359) -/

/-- The spacing of admissions of the enable queue: 100 µs (R359). -/
def admitSpacing : Nat := 100 * us

/-- The front of the enable queue enters STANDSTILL, 100 µs after the one before it at the earliest (R359). A phase whose bitstream is
already constant latches SD_LOSS (R347). -/
def enableAdmit (t : Nat) (s : State) : State :=
  match s.mot.queue with
  | [] => s
  | (a, _) :: rest =>
    if t < s.mot.admitAt then s else
    let s0 := advanceTo t s
    let s1 := { s0 with mot := { s0.mot with queue := rest, admitAt := t + admitSpacing } }
    let s2 := updAxis a (fun x => { x with
      homed := x.homed && rbit s (Reg.MOT_A_CFG a) 13, held := false, applied := false, scale := 256 }) s1
    let s3 := arrive (keyAdmit a) (fun _ => 0) (fixReference a (setAxis a .standstill s2))
    if bridgeOn s3 a && ((axis s3 a).phA.lost || (axis s3 a).phB.lost) then faultOff a 1 s3 else s3

def execMotEnableAdmit (t : DWord) (s : State) : Host.Outcome State Fault Refusal := .next (enableAdmit t.toNat s)

/-- An axis is turned off at once (R359): commands on it end with zero results (R117), a homing in progress leaves HOMED clear. An axis
that a trip latch covers stays TRIPPED (R361). -/
def disableAxis (a : Nat) (s : State) : State :=
  let x := axis s a
  let s1 := { s with mot := { s.mot with queue := s.mot.queue.filter (·.1 ≠ a) } }
  let s2 := updAxis a (fun y => { y with
    move := none, stop := .none, vel := 0, acc := 0, feedWait := none, held := false, applied := false, homed := y.homed && !homing x,
    phA := { y.phA with duty := 0 }, phB := { y.phB with duty := 0 } }) (dropRetained a s1)
  let s3 := completeOpt (moveCmd x) 0x0201 0 (setAxis a (if tripCoversAxis s a then .tripped else .disabled) s2)
  (waiters s3 (keyAdmit a)).foldl (fun t q => fail q.h 0x0201 t) (arrive (keyAxis a) (fun _ => 0) s3)

/-- An axis that AXIS_ENABLE may take: off by mode never, FAULT once its faults are clear (R341, R359). -/
def mayEnable (s : State) (a : Nat) : Bool :=
  decide (axisMode s a ≠ 0) && !(decide ((axis s a).state = .fault) && decide (axisFaults s a ≠ 0))

/-- The axes of a mask that are not enabled yet. -/
def toEnable (s : State) (as : List Nat) : List Nat :=
  as.filter fun a => match (axis s a).state with
    | .disabled | .fault | .tripped | .enabling => true
    | _ => false

/-- AXIS_ENABLE with action 1 in RUN (R359). -/
def axisEnable (h : Hdr) (c : Instr) (as : List Nat) (s : State) : State :=
  if as.any fun a => tripCoversAxis s a then fail h 0x0206 s
  else if as.any fun a => !mayEnable s a then fail h 0x0201 s
  else
    let w := toEnable s as
    let s1 := w.foldl (fun t a =>
      if (axis t a).state = .enabling then t
      else setAxis a .enabling { t with mot := { t.mot with queue := t.mot.queue ++ [(a, h.seq)] } }) s
    if w = [] then ok h 0 s1 else parkAccepted h c (as.map objAxis) (w.map keyAdmit) s1

/-- AXIS_ENABLE (R141, R359). -/
def bodyAxisEnable (h : Hdr) (c : Instr) (mask action : Nat) (s : State) : State :=
  let as := maskBits 8 mask
  if 1 < action then fail h 0x0103 s
  else if action = 0 then ok h 0 (as.foldl (fun t a => disableAxis a t) s)
  else wake h c (as.map objAxis) (axisEnable h c as) s

def execAxisEnable (d : Desc) (mask action : BitVec 8) (s : State) : Host.Outcome State Fault Refusal :=
  .next (command d .o (fun _ => (maskBits 8 mask.toNat).map objAxis) (.axisEnable d mask action)
    (fun h => bodyAxisEnable h (.axisEnable d mask action) mask.toNat action.toNat) s)

/-! ## Moves (R343, R344, R352) -/

/-- Start a move for a command, which is parked until the move is over. -/
def startHost (h : Hdr) (c : Instr) (a : Nat) (k : MoveKind) (target : Int) (profile : Nat) (s : State) : State :=
  startMove a ⟨k, target, profile, some h.seq⟩ (dropRetained a (parkAccepted h c [objAxis a] [] s))

/-- A target is within the position range and the soft limits (R343). -/
def targetOk (s : State) (a : Nat) (t : Int) : Bool :=
  decide (-(2 ^ 47 : Int) ≤ t ∧ t < 2 ^ 47) &&
    (!rbit s (Reg.MOT_A_CFG a) 14 ||
      decide (pos48 s (Reg.MOT_A_SOFT_MIN a) ≤ t ∧ t ≤ pos48 s (Reg.MOT_A_SOFT_MAX a)))

/-- AXIS_MOVE (R141, R343, R357). -/
def bodyAxisMove (h : Hdr) (c : Instr) (a profile : Nat) (t : Int) (s : State) : State :=
  if 8 ≤ a then fail h 0x0104 s
  else if 4 ≤ profile ∨ targetOk s a t = false then fail h 0x0103 s
  else if (axis s a).state ≠ .standstill ∨ mayMove s a (decide ((axis s a).counts ≤ t)) = false then fail h 0x0201 s
  else startHost h c a .host t profile s

def execAxisMove (d : Desc) (axis profile : BitVec 8) (target : DWord) (s : State) : Host.Outcome State Fault Refusal :=
  .next (command d .o (fun _ => [objAxis axis.toNat]) (.axisMove d axis profile target)
    (fun h => bodyAxisMove h (.axisMove d axis profile target) axis.toNat profile.toNat target.toInt) s)

/-- One axis of an AXIS_STOP: a mode 0 stop does not weaken a mode 1 stop (R352). -/
def stopAxis (a mode : Nat) (s : State) : State :=
  let x := axis s a
  if x.state = .moving then beginStop a (if mode = 0 then .mode0 else .mode1) s
  else if x.state = .stopping ∧ x.stop = .mode0 ∧ mode = 1 then updAxis a (fun y => { y with stop := .mode1 }) s
  else s

/-- AXIS_STOP (R141, R352). -/
def bodyAxisStop (h : Hdr) (c : Instr) (mask mode : Nat) (s : State) : State :=
  let as := maskBits 8 mask
  if 1 < mode then fail h 0x0103 s
  else if as.any fun a => match (axis s a).state with
      | .disabled | .enabling | .fault | .tripped => true
      | _ => false then fail h 0x0201 s
  else
    let s1 := as.foldl (fun t a => stopAxis a mode t) s
    let w := as.filter fun a => decide ((axis s1 a).state ≠ .standstill)
    if w = [] then ok h 0 s1 else parkAccepted h c (as.map objAxis) (w.map keyAxis) s1

def execAxisStop (d : Desc) (mask mode : BitVec 8) (s : State) : Host.Outcome State Fault Refusal :=
  .next (command d .o (fun _ => (maskBits 8 mask.toNat).map objAxis) (.axisStop d mask mode)
    (fun h => bodyAxisStop h (.axisStop d mask mode) mask.toNat mode.toNat) s)

/-- AXIS_RESUME (R352). -/
def bodyAxisResume (h : Hdr) (c : Instr) (a : Nat) (s : State) : State :=
  if 8 ≤ a then fail h 0x0104 s
  else match (axis s a).retained with
    | some m =>
      if (axis s a).state ≠ .standstill ∨ mayMove s a (decide ((axis s a).counts ≤ m.target)) = false then
        fail h 0x0201 s
      else startHost h c a .host m.target m.profile s
    | none => fail h 0x0201 s

def execAxisResume (d : Desc) (axis : BitVec 8) (s : State) : Host.Outcome State Fault Refusal :=
  .next (command d .o (fun _ => [objAxis axis.toNat]) (.axisResume d axis)
    (fun h => bodyAxisResume h (.axisResume d axis) axis.toNat) s)

/-- AXIS_QUERY (R141). -/
def bodyAxisQuery (h : Hdr) (a : Nat) (s : State) : State :=
  if 8 ≤ a then fail h 0x0104 s
  else ok h (posRes (axis s a) + res 24 (axis s a).state.code) s

def execAxisQuery (d : Desc) (axis : BitVec 8) (s : State) : Host.Outcome State Fault Refusal :=
  .next (query d .o (.axisQuery d axis) (fun h => bodyAxisQuery h axis.toNat) s)

/-- A move at its target, or stopped, is over: a stopped host move is retained (R344, R352, R357). -/
def moveComplete (a : Nat) (s : State) : State :=
  let x := axis s a
  match x.move with
  | none => s
  | some m =>
    match x.stop with
    | .none =>
      if x.state = .moving ∧ homing x = false ∧ x.pos = m.target * 2 ^ 32 then endMove a 0 (posRes x) s else s
    | .mode0 | .mode1 =>
      if x.state = .stopping ∧ x.vel = 0 then
        match m.kind with
        | .host =>
          endMove a 0 (posRes x) (wn64 (Reg.MOT_A_REMAIN a) (unsigned 64 (m.target - x.counts))
            (updAxis a (fun y => { y with retained := some { m with cmd := none } }) s))
        | .feed => endMove a 0 (posRes x) s
        | .home .. => endMove a 0x0201 0 (unhome a s)
      else s
    | .limit =>
      if x.state = .stopping ∧ x.vel = 0 then endMove a 0x0201 (posRes x) (if homing x then unhome a s else s) else s
    | .timeout => if x.state = .stopping ∧ x.vel = 0 then endMove a 0x0502 0 (unhome a s) else s

def execMoveComplete (axis : Fin 8) (s : State) : Host.Outcome State Fault Refusal := .next (moveComplete axis.val s)

/-! ## Homing (R355) -/

/-- The position of the axis becomes HOME_POS, HOMED is set and posted. -/
def setHome (a seq : Nat) (s : State) : State :=
  let p := pos48 s (Reg.MOT_A_HOME_POS a)
  let s1 := fixReference a (updAxis a (fun x => { x with pos := p * 2 ^ 32, homed := true }) s)
  raiseIrq (pgMot a) 6 (event 0x5103 none (le 1 a ++ le 4 seq ++ le 8 (unsigned 64 p)) s1)

/-- AXIS_HOME (R141, R355). -/
def bodyAxisHome (h : Hdr) (c : Instr) (a seq timeout : Nat) (s : State) : State :=
  if 8 ≤ a then fail h 0x0104 s
  else if 4 ≤ seq then fail h 0x0103 s
  else if tripCoversAxis s a then fail h 0x0206 s
  else if (axis s a).state ≠ .standstill ∨ mayMove s a (rbit s (Reg.MOT_A_HOMECFG a) 0) = false ∨
      (seq = 1 ∧ rbit s (Reg.MOT_A_CFG a) 13 = false) then fail h 0x0201 s
  else if seq = 3 then
    let s1 := setHome a 3 (dropRetained a s)
    ok h (posRes (axis s1 a)) s1
  else
    let ms1 := if timeout = 0 then 30000 else timeout
    homeSwitch a (startHost h c a (.home seq 0 (now s + ms1 * ms)) 0 0 s)

def execAxisHome (d : Desc) (axis homing : BitVec 8) (timeout : Word) (s : State) : Host.Outcome State Fault Refusal :=
  .next (command d .o (fun _ => [objAxis axis.toNat]) (.axisHome d axis homing timeout)
    (fun h => bodyAxisHome h (.axisHome d axis homing timeout) axis.toNat homing.toNat timeout.toNat) s)

/-- The end event of a homing sequence: position, HOMED, completion (R355). -/
def homingComplete (a : Nat) (s : State) : State :=
  match (axis s a).move with
  | some m => match m.kind with
    | .home seq 5 _ =>
      let s1 := setHome a seq s
      endMove a 0 (posRes (axis s1 a)) s1
    | _ => s
  | none => s

def execHomingComplete (axis : Fin 8) (s : State) : Host.Outcome State Fault Refusal :=
  .next (homingComplete axis.val s)

/-- The homing timeout expires: the axis stops (R355). -/
def homingTimeout (a t : Nat) (s : State) : State :=
  match (axis s a).move with
  | some m => match m.kind with
    | .home _ ph d => if t < d ∨ ph = 5 then s else beginStop a .timeout (unhome a (advanceTo t s))
    | _ => s
  | none => s

def execHomingTimeout (axis : Fin 8) (t : DWord) (s : State) : Host.Outcome State Fault Refusal :=
  .next (homingTimeout axis.val t.toNat s)

/-! ## Configuration (R342, R344, R345, R364) -/

/-- The configuration image's words by offset. -/
def imageWord (bs : List Byte) (off : Nat) : Nat := leAt bs (off - 0x80) 4

/-- Every register of the image is in range (R41, R342). -/
def imageRanges (bs : List Byte) : Bool :=
  (regRows .motA).all fun r => decide (r.off < 0x80) || r.ranges.all fun f =>
    let v := bits (f.lo + f.width - 1) f.lo (imageWord bs r.off)
    decide (f.min ≤ v ∧ v ≤ f.max)

/-- The image's enumerations and the limits of R364. -/
def imageLimits (w : Nat → Nat) : Bool :=
  let cfg := w 0x80
  let soft := fun o => signed 48 (w o + 2 ^ 32 * w (o + 4))
  decide (cfg % 4 ≠ 3) && decide (bits 7 6 cfg ≠ 3) &&
    decide (bits 31 16 (w 0x8C) ≤ 0x7FFF) && decide (bits 15 0 (w 0x90) ≤ 0x7FFF) &&
    decide (bits 31 16 (w 0x90) ≤ 0x7FFF) &&
    decide (bits 23 16 (w 0x84) * 4 < bits 15 0 (w 0x84)) &&
    (decide (bits 14 14 cfg = 0) || decide (soft 0xC0 < soft 0xC8))

/-- The image's profiles: nothing 0, and VMAX within the mode's limit (R344, R345). CK_FAB runs at 400 MHz. -/
def imageProfiles (w : Nat → Nat) : Bool :=
  (List.range 4).all fun k =>
    let v := w (0xE0 + 16 * k)
    decide (0 < v) && decide (0 < w (0xE4 + 16 * k)) && decide (0 < w (0xE8 + 16 * k)) && decide (0 < w (0xEC + 16 * k)) &&
      (match w 0x80 % 4 with
      | 1 => decide (v * bits 15 0 (w 0x84) ≤ 2048 * 400000000)
      | 2 => decide (v * 2 * bits 11 0 (w 0xA0) * 2 ^ bits 27 24 (w 0xA0) ≤ 4096 * 400000000)
      | _ => true)

/-- The configuration registers' offsets. -/
def configOffsets : List Nat := ((regRows .motA).filter fun r => decide (0x80 ≤ r.off)).map (·.off)

/-- Apply a whole image in one cycle (R342). -/
def applyImage (a : Nat) (bs : List Byte) (s : State) : State :=
  configOffsets.foldl (fun t off => plainPut (pgMot a * 0x1000 + off) (BitVec.ofNat 32 (imageWord bs off)) t) s

/-- AXIS_CONFIG once its stream is complete. -/
def axisConfig (h : Hdr) (a : Nat) (bs : List Byte) (s : State) : State :=
  if (axis s a).state ≠ .disabled then fail h 0x0201 s
  else if bs.length ≠ 160 ∨ imageRanges bs = false ∨ imageLimits (imageWord bs) = false ∨
      imageProfiles (imageWord bs) = false then fail h 0x0106 s
  else ok h 0 (applyImage a bs s)

/-- AXIS_CONFIG (R141, R342). -/
def bodyAxisConfig (h : Hdr) (c : Instr) (a handle : Nat) (s : State) : State :=
  if 8 ≤ a then fail h 0x0104 s
  else withStream h c [objAxis a] h.tenant handle (fun x => axisConfig h a x.bytes) s

def execAxisConfig (d : Desc) (axis : BitVec 8) (handle : Word) (s : State) : Host.Outcome State Fault Refusal :=
  .next (command d .o (fun _ => [objAxis axis.toNat]) (.axisConfig d axis handle)
    (fun h => bodyAxisConfig h (.axisConfig d axis handle) axis.toNat handle.toNat) s)

/-! ## Fault clears and configuration writes (R342, R358, R364) -/

/-- The condition of a fault bit is still present (R358). -/
def faultPresent (s : State) (a bit : Nat) : Bool :=
  let x := axis s a
  let lim := rf s (Reg.MOT_A_CUR2 a) 31 16
  match bit with
  | 0 | 1 => decide (lim < x.phA.fast.natAbs) || decide (lim < x.phB.fast.natAbs) || x.phA.lost || x.phB.lost
  | 4 => limitActive s a true || limitActive s a false
  | _ => false

/-- A write of MOT_A_FAULT (R358). -/
def motFaultClear (a : Nat) (v : Word) (s : State) : State :=
  let k := Reg.MOT_A_FAULT a
  let s1 := if v.toNat / 256 % 2 = 1 then wf k 8 8 0 s else s
  (List.range 5).foldl (fun t b =>
    if v.toNat / 2 ^ b % 2 = 1 ∧ rbit t k b = true then
      (if faultPresent t a b then recordErr (pgMot a) 0x41 (wf k 8 8 1 t) else wf k b b 0 t)
    else t) s1

def execMotFaultClear (ini : Initiator) (axis : Fin 8) (val : Word) (s : State) : Host.Outcome State Fault Refusal :=
  .next (guardWrite ini (Reg.MOT_A_FAULT axis.val) allBytes val (motFaultClear axis.val) s)

/-- A write of a configuration register: only while DISABLED, and within the limits of R364. -/
def motConfigWrite (a addr : Nat) (v : Word) (s : State) : State :=
  if (axis s a).state ≠ .disabled then recordErr (pgMot a) 0x40 s
  else
    let base := 0x121000 + a * 0x1000
    let w := fun o => if base + o = addr then v.toNat else rn s (base + o)
    if imageLimits w then plainPut addr v s else recordErr (pgMot a) 0x05 s

end Sys2Proof.Machine
end

