-- ==== Sys2Proof/Machine/Sagger.lean ====
section
/-! DEFINITION. Sagger's commands and events: keys, grants, receipts, attestation, tokens, nonces and the firewall (spec/18,
spec/19, R439 to R475). -/

namespace Sys2Proof.Machine
open Sys2Proof

/-- Bytes of a certificate serial; zeros in BLANK, before the serial exists (R459). -/
def serialBytes (s : State) : List Byte := if lifecycle s = 0 then List.replicate 16 0 else le 16 Config.serial.toNat

/-- The identity key can be used (R439, R449, R458, R461). -/
def identityUsable (s : State) : Bool := sealsReceipts s && decide (lifecycle s ≠ 0)

/-- A tenant has an open job or an unsealed copy (R464). -/
def tenantBusy (s : State) (t : Nat) : Bool :=
  (s.jobs.jobs.any fun j => decide (j.tenant = t)) ||
    s.jobs.copies.any fun c => decide (c.tenant = t) && decide (c.state ≠ .sealed)

/-- The operand stream of a relayed command is too long for Sagger's copy (R444). -/
def relayTooLong (x : Stream) : Bool := decide (65536 < x.bytes.length)

/-! ## KEY_LOAD (R132, R463, R464) -/

/-- A new owner: counters, grant sequence and chain start again (R464). -/
def newOwner (t : Nat) (digest : BitVec 384) (s : State) : State :=
  let s1 := closeBatch t s
  let s2 := updTenant t (fun x => { x with grant := 0, charged := 0, reserved := 0 }) s1
  persist t none none (updSag t (fun x => { x with
    digest := some digest, grantSeq := 0, ceiling := 0, ceilNext := none, head := 0, batch := 0, seq := 0,
    restart := match x.restart with | some c => some c | none => some 3,
    covered := 0 }) s2)

/-- Sagger's part of KEY_LOAD. -/
def keyLoad (h : Hdr) (t : Nat) (x : Stream) (s : State) : State :=
  let bs := x.bytes
  if relayTooLong x then fail h 0x0106 s
  else if lifecycle s = 5 then fail h 0x0304 s
  else if !identityUsable s || decide (bs.length ≠ 272) || decide (leAt bs 0 4 ≠ 0x574B4753) || decide (leAt bs 4 1 ≠ 1) ||
      !allZero (slice bs 5 8) || !allZero (slice bs 10 16) || decide (leAt bs 8 2 ≠ t) ||
      decide (slice bs 16 32 ≠ serialBytes s) then fail h 0x0303 s
  else match Config.unwrapKey bs with
    | none => fail h 0x0303 s
    | some k =>
      let digest := Config.sha384 (slice bs 128 224)
      let same := decide ((sagTenant s t).digest = some digest)
      if !same && tenantBusy s t then fail h 0x0201 s
      else
        let s1 := if same then s else newOwner t digest s
        refreshReady (noteReady (ok h 0 (updSag t (fun y => { y with key := some k }) (unsealDue s1))))

def bodyKeyLoad (h : Hdr) (c : Instr) (t handle : Nat) (s : State) : State :=
  if t = 0 ∨ (tenant s t).state ≠ .enabled then fail h 0x0201 s
  else withStream h c [objTenant t] 0 handle (keyLoad h t) s

def execKeyLoad (d : Desc) (tenant : BitVec 16) (handle : Word) (s : State) : Host.Outcome State Fault Refusal :=
  .next (command d .s (fun _ => [objTenant tenant.toNat]) (.keyLoad d tenant handle)
    (fun h => bodyKeyLoad h (.keyLoad d tenant handle) tenant.toNat handle.toNat) s)

/-! ## QUOTA_GRANT and QUOTA_QUERY (R132, R466) -/

/-- A grant passes every check of R466. -/
def grantGood (s : State) (t : Nat) (bs : List Byte) : Bool :=
  let seq := leAt bs 12 4
  decide (bs.length = 256) && decide (leAt bs 0 4 = 0x47514753) && decide (leAt bs 4 1 = 1) && allZero (slice bs 5 8) &&
    allZero (slice bs 10 12) && allZero (slice bs 20 24) && allZero (slice bs 40 64) && decide (leAt bs 8 2 = t) &&
    decide (slice bs 24 40 = serialBytes s) && decide ((sagTenant s t).digest = some (Config.sha384 (slice bs 64 160))) &&
    decide ((sagTenant s t).grantSeq < seq) && decide (0 < leAt bs 16 4) &&
    Config.ecdsaP384 (slice bs 64 160) (Config.sha384 (slice bs 0 160)) (slice bs 160 256)

/-- Sagger's part of QUOTA_GRANT: the grant applies, and the command completes when it is persisted. -/
def quotaGrant (h : Hdr) (c : Instr) (t : Nat) (x : Stream) (s : State) : State :=
  let bs := x.bytes
  if relayTooLong x then fail h 0x0106 s
  else if lifecycle s = 5 then fail h 0x0304 s
  else if !grantGood s t bs then fail h 0x0303 s
  else
    let g := (tenant s t).grant.toNat + leAt bs 16 4
    if 0xFFFFFFFF < g then fail h 0x0103 s
    else if !noJournal s && !crkAccepts s then fail h 0x0401 s
    else
      let s1 := updSag t (fun y => { y with grantSeq := leAt bs 12 4 })
        (updTenant t (fun y => { y with grant := BitVec.ofNat 32 g }) s)
      if noJournal s then ok h (res 16 g) s1
      else persist t (some h.seq) none (park { Parked.of s h c true with
        objs := [objTenant t], waits := [keyStore], undo := some (leAt bs 16 4, leAt bs 12 4, (sagTenant s t).grantSeq) } s1)


def bodyQuotaGrant (h : Hdr) (c : Instr) (t handle : Nat) (s : State) : State :=
  if t = 0 then fail h 0x0201 s
  else withStream h c [objTenant t] 0 handle (quotaGrant h c t) s

def execQuotaGrant (d : Desc) (tenant : BitVec 16) (handle : Word) (s : State) : Host.Outcome State Fault Refusal :=
  .next (command d .s (fun _ => [objTenant tenant.toNat]) (.quotaGrant d tenant handle)
    (fun h => bodyQuotaGrant h (.quotaGrant d tenant handle) tenant.toNat handle.toNat) s)

/-- A query may name a tenant: its ring's own, or any from a ring of tenant 0 (R120). -/
def mayName (h : Hdr) (t : Nat) : Bool := decide (t < 1024) && (decide (h.tenant = 0) || decide (h.tenant = t))

def quotaQuery (h : Hdr) (t : Nat) (s : State) : State :=
  if !mayName h t then fail h 0x0104 s
  else if t = 0 then fail h 0x0201 s
  else
    let x := tenant s t
    ok h (res 16 x.grant.toNat + res 20 x.charged.toNat + res 24 x.reserved.toNat) s

def execQuotaQuery (d : Desc) (tenant : BitVec 16) (s : State) : Host.Outcome State Fault Refusal :=
  .next (query d .t (.quotaQuery d tenant) (fun h => quotaQuery h tenant.toNat) s)

/-! ## Batches (R471, R472, R113) -/

/-- 100 ms after its first receipt a tenant's open batch closes. -/
def execBatchCloseTimer (tenant : Fin 1024) (s : State) : Host.Outcome State Fault Refusal :=
  .next (closeBatch tenant.val s)

def dropBatch (id : Nat) (s : State) : State :=
  { s with sag := { s.sag with batches := s.sag.batches.filter fun b => b.id ≠ id } }

/-- Alarm events stand before receipts in what Stook writes (R501). -/
def alarmFirst (s : State) : Bool :=
  match s.stk.staging with
  | e :: _ => e.alarm && decide (eventRings s e ≠ []) && canIssue s
  | [] => false

/-- A tenant's oldest batch is posted once persisted, if its receipt ring takes all its entries and no alarm event is ready; else it is
held. A batch whose record Crock refused is submitted again (R70, R113, R472, R501). -/
def batchPost (t : Nat) (s : State) : State :=
  match batchReady s t, oldestBatch s t with
  | some (b, n), _ => if alarmFirst s then s else refreshReady (dropBatch b.id (postRecords n (b.entries.map Record.receipt) s))
  | none, some b =>
    if b.persisted || noJournal s || s.crk.queue.any fun j => decide (j.batch = some b.id) then s else persist t none (some b.id) s
  | none, none => s

def execBatchPost (tenant : Fin 1024) (s : State) : Host.Outcome State Fault Refusal := .next (batchPost tenant.val s)

/-- The whole batches, oldest first, that a buffer takes. -/
def fitBatches : Nat → List Batch → List Batch
  | _, [] => []
  | room, b :: r => if 64 * b.entries.length ≤ room then b :: fitBatches (room - 64 * b.entries.length) r else []

/-- RECEIPT_FETCH (R143, R113). -/
def receiptFetch (h : Hdr) (addr len : Nat) (s : State) : State :=
  let mine := s.sag.batches.filter fun b => decide (b.tenant = h.tenant)
  let ready := mine.takeWhile fun b => b.persisted || noJournal s
  let out := fitBatches len ready
  match ready, out with
  | b :: _, [] => complete h 0x0103 (res 16 (64 * b.entries.length)) s
  | _, _ =>
    let bs := (out.flatMap (·.entries)).flatten
    let s1 := out.foldl (fun t b => dropBatch b.id t) s
    refreshReady (completeWith (if bs = [] then [] else [(addr, bs)]) h 0 (res 16 bs.length + res 20 (mine.length - out.length)) s1)

def execReceiptFetch (d : Desc) (buf : DWord) (len : Word) (s : State) : Host.Outcome State Fault Refusal :=
  .next (command d .t (fun _ => []) (.receiptFetch d buf len) (fun h => receiptFetch h buf.toNat len.toNat) s)

/-! ## ATTEST (R462) -/

/-- Patch records loaded (R446). -/
def patchesLoaded (s : State) : Nat := (s.sag.patches.filter fun p => decide (p.status = 0)).length

/-- Bytes 0 to 255 of an attestation record. -/
def attestBody (s : State) (challenge : BitVec 256) : List Byte :=
  le 4 0x54414753 ++ le 1 1 ++ le 1 (lifecycle s) ++ le 1 s.sag.scopes ++ le 1 0 ++ le 4 (rn s Reg.GLB_CHIP_ID) ++
    le 2 0x0104 ++ le 1 0x03 ++ le 1 (patchesLoaded s) ++ le 2 s.sag.patchLevel ++ le 2 0 ++ le 48 s.sag.patchDigest.toNat ++
    serialBytes s ++ le 32 challenge.toNat ++ le 8 (stamp s).toNat ++ le 4 (rn s Reg.SAG_FAULT_CNT) ++
    List.replicate 32 0 ++ le 96 Config.identityPub.toNat

/-- ATTEST: the record, whose signature no rule fixes the bits of, and the chain. -/
def attest (h : Hdr) (addr len : Nat) (challenge : BitVec 256) (s : State) : State :=
  if !identityUsable s then fail h 0x0304 s
  else
    let sig := draw 768 s
    let bs := attestBody s challenge ++ le 96 sig.1.toNat ++ Config.certChain
    output h addr len (res 16 bs.length) bs sig.2

def execAttest (d : Desc) (buf : DWord) (len : Word) (challenge : BitVec 256) (s : State) :
    Host.Outcome State Fault Refusal :=
  .next (command d .t (fun _ => []) (.attest d buf len challenge) (fun h => attest h buf.toNat len.toNat challenge) s)

/-! ## Authorisation tokens (R459) -/

/-- Who signed: a Limveast key, the OEM key, or neither. -/
inductive Signer where
  | limveast | oem
  deriving DecidableEq, Repr

/-- The nonce a token names is consumed when the token is checked (R445). -/
def consumeNonce (bs : List Byte) (s : State) : State :=
  match s.sag.nonce with
  | some n => if slice bs 24 56 = le 32 n.toNat then { s with sag := { s.sag with nonce := none } } else s
  | none => s

/-- The checks of R459 but for the keys: form, serial, nonce and the first signature. -/
def tokenGood (s : State) (bs : List Byte) : Bool :=
  decide (bs.length = 448) && decide (leAt bs 0 4 = 0x4B544753) && allZero (slice bs 6 8) && allZero (slice bs 56 64) &&
    decide (slice bs 8 24 = serialBytes s) &&
    (match s.sag.nonce with | some n => decide (slice bs 24 56 = le 32 n.toNat) | none => false) &&
    Config.ecdsaP384 (slice bs 256 352) (Config.sha384 (slice bs 0 64)) (slice bs 64 160)

/-- The hash of a token's first key. -/
def tokenKey (bs : List Byte) : BitVec 384 := Config.sha384 (slice bs 256 352)

/-- The countersignature verifies under the OEM key (R456, R459). -/
def counterGood (s : State) (bs : List Byte) : Bool :=
  decide (Config.sha384 (slice bs 352 448) = s.sag.oemHash) &&
    Config.ecdsaP384 (slice bs 352 448) (Config.sha384 (slice bs 0 160)) (slice bs 160 256)

/-! ## DEBUG_UNLOCK (R460, R461) -/

/-- The states that admit a scope mask at all. -/
def scopesAdmitted (lc scopes : Nat) : Bool :=
  decide (lc ≠ 5) && (decide (scopes / 8 % 2 = 0) || decide (lc = 0 ∨ lc = 1 ∨ lc = 4))

/-- The signer of a debug token, if its state admits that key. -/
def debugSigner (s : State) (bs : List Byte) (scopes : Nat) : Option Signer :=
  if tokenKey bs = Config.debugKey then some .limveast
  else if tokenKey bs = s.sag.oemHash ∧ (lifecycle s = 2 ∨ lifecycle s = 3) ∧ scopes / 8 % 2 = 0 then some .oem
  else none

/-- Every tenant key slot is wiped (R450, R461). -/
def wipeKeys (s : State) : State :=
  { s with sag := { s.sag with tenants := s.sag.tenants.map fun e => (e.1, { e.2 with key := none }) } }

/-- Open scopes. -/
def openScopes (scopes : Nat) (signer : Signer) (s : State) : State :=
  let s1 := { s with sag := { s.sag with scopes := s.sag.scopes ||| scopes } }
  let s2 := if scopes / 8 % 2 = 1 then wipeKeys { s1 with sag := { s1.sag with signerGone := true } } else s1
  raiseIrq pgSag 6 (event 0x0905 none (le 1 scopes ++ le 1 (if signer = .limveast then 0 else 1)) s2)

def debugUnlock (h : Hdr) (x : Stream) (s : State) : State :=
  let bs := x.bytes
  let scopes := leAt bs 5 1
  let s1 := consumeNonce bs s
  if relayTooLong x then fail h 0x0106 s
  else if leAt bs 4 1 ≠ 2 ∨ !scopesAdmitted (lifecycle s) scopes then fail h 0x0304 s1
  else if !tokenGood s bs || decide (16 ≤ scopes) then fail h 0x0303 s1
  else match debugSigner s bs scopes with
    | none => fail h 0x0303 s1
    | some g => ok h 0 (openScopes scopes g s1)

def bodyDebugUnlock (h : Hdr) (c : Instr) (handle : Nat) (s : State) : State :=
  withStream h c [] h.tenant handle (debugUnlock h) s

def execDebugUnlock (d : Desc) (handle : Word) (s : State) : Host.Outcome State Fault Refusal :=
  .next (command d .s (fun _ => []) (.debugUnlock d handle)
    (fun h => bodyDebugUnlock h (.debugUnlock d handle) handle.toNat) s)

/-! ## LIFECYCLE_ADVANCE (R456, R457) -/

/-- The permitted transitions. -/
def transition (lc target : Nat) : Bool :=
  decide (target ≤ 4 ∧ target = lc + 1) || decide (target = 5 ∧ lc ≠ 5)

/-- The signatures a transition needs. -/
def lifecycleSigned (s : State) (target : Nat) (bs : List Byte) : Bool :=
  let lc := lifecycle s
  let k := tokenKey bs
  let oem := decide (k = s.sag.oemHash) && decide (lc = 2 ∨ lc = 3)
  match target with
  | 1 => decide (k = Config.manufacturingKey)
  | 2 => decide (k = Config.manufacturingKey)
  | 3 => oem
  | 4 => decide (k = Config.returnKey) && counterGood s bs
  | _ => decide (k = Config.manufacturingKey) || oem

/-- Sagger RAM and the key slots are zeroed, and the new state starts afresh (R457, R440, R473). -/
def wipeSagger (cause : Nat) (s : State) : State :=
  { s with
    sag := { s.sag with
      nonce := none, batches := [],
      tenants := s.sag.tenants.map fun e => (e.1, { SagTenant.init with
        restart := if e.2.restart = some 0 then some 0 else some cause }) },
    jobs := { s.jobs with tenants := s.jobs.tenants.map fun e =>
      (e.1, { e.2 with grant := 0, charged := 0, reserved := 0 }) } }

def lifecycleAdvance (h : Hdr) (target : Nat) (x : Stream) (s : State) : State :=
  let bs := x.bytes
  let lc := lifecycle s
  let s1 := consumeNonce bs s
  if relayTooLong x then fail h 0x0106 s
  else if !transition lc target then fail h 0x0304 s1
  else if (s.jobs.tenants.any fun e => decide (e.1 ≠ 0) && decide (e.2.state ≠ .disabled)) ||
      planeNums.any (fun p => (plane s p).live) then fail h 0x0201 s
  else if leAt bs 4 1 ≠ 1 then fail h 0x0304 s1
  else if !tokenGood s bs || decide (leAt bs 5 1 ≠ target) || !lifecycleSigned s target bs then fail h 0x0303 s1
  else
    let s2 := wipeSagger 2 s1
    let s3 := { s2 with sag := { s2.sag with
      fuses := s2.sag.fuses.set (target - 1) 3,
      oemHash := if target = 2 then Config.sha384 (slice bs 352 448) else s2.sag.oemHash } }
    ok h 0 (raiseIrq pgSag 5 (event 0x0904 none (le 1 lc ++ le 1 target) s3))

def bodyLifecycleAdvance (h : Hdr) (c : Instr) (target handle : Nat) (s : State) : State :=
  withStream h c [] h.tenant handle (lifecycleAdvance h target) s

def execLifecycleAdvance (d : Desc) (target : BitVec 8) (handle : Word) (s : State) : Host.Outcome State Fault Refusal :=
  .next (command d .s (fun _ => []) (.lifecycleAdvance d target handle)
    (fun h => bodyLifecycleAdvance h (.lifecycleAdvance d target handle) target.toNat handle.toNat) s)

/-! ## The mailbox nonce (R445) -/

/-- A read of SAG_NONCE0 draws a nonce and captures its other words for the reader. -/
def nonceRead (ini : Initiator) (s : State) : State :=
  let n := draw 256 s
  let w := fun j => BitVec.ofNat 32 (bits (32 * j + 31) (32 * j) n.1.toNat)
  let s1 := { n.2 with sag := { n.2.sag with nonce := some n.1, nonceAt := s.clock.uptime } }
  returns ini (w 0) ((List.range 7).foldl (fun t j => capture ini (Reg.SAG_NONCE_R j) (w (j + 1)) t) s1)

def execSagNonceRead (ini : Initiator) (s : State) : Host.Outcome State Fault Refusal :=
  .next (guardRead ini Reg.SAG_NONCE0 (nonceRead ini) (beginRead ini s))

/-- The outstanding nonce lapses 600 s after it was drawn. -/
def nonceExpire (t : Nat) (s : State) : State :=
  let s1 := advanceTo t s
  if s1.sag.nonce.isSome ∧ s1.sag.nonceAt + 600000 * ms ≤ s1.clock.uptime then
    { s1 with sag := { s1.sag with nonce := none } }
  else s1

def execNonceExpire (t : DWord) (s : State) : Host.Outcome State Fault Refusal := .next (nonceExpire t.toNat s)

/-! ## The firewall (R442) -/

/-- A denied access of a control core or of the debug port: `row` counts the rows of the firewall table from 0. -/
def firewallDenial (debug : Bool) (row addr : Nat) (write : Bool) (s : State) : State :=
  let who := if debug then 3 else 1
  let s1 := wn Reg.SAG_LAST_VIOL (who + 16 * (row + 1)) (inc Reg.SAG_FW_VIOL_CNT 1 s)
  let s2 := raiseIrq pgSag 4 (event 0x0901 none (le 1 who ++ le 1 (row + 1) ++ le 4 addr) s1)
  if write || debug then s2 else returns .core 0#32 (beginRead .core s2)

def execFirewallDenial (debug : Bool) (row : Fin 10) (addr : DWord) (write : Bool) (s : State) :
    Host.Outcome State Fault Refusal :=
  .next (firewallDenial debug row.val addr.toNat write s)

end Sys2Proof.Machine
end

