-- ==== Sys2Proof/Machine/Stook.lean ====
section
/-! DEFINITION. Stook's writers: staged events and gap records, trace and its shedding, sleeping cores, and the host-write cap
(spec/21). -/

namespace Sys2Proof.Machine
open Sys2Proof

/-! ## Events (R503, R505) -/

/-- The entries of an event: one, or two when its payload is longer than 16 bytes. -/
def eventRecords (e : Event) : List Record :=
  .event e.code e.alarm e.commit e.seq e.time e.payload ::
    if e.payload.length ≤ 16 then [] else [.eventCont (e.payload.drop 16)]

/-- The gap record a ring is owed. -/
def gapRecord (g : Gap) : Record := .gap g.firstSeq g.firstTime g.count g.lastSeq g.lastTime

/-- A gap record goes to a ring that is owed one and has two free entries. -/
def writeGap (n : Nat) (s : State) : State :=
  let r := ring s n
  if r.gap.count ≠ 0 ∧ canPost s n 2 then
    postRecords n [gapRecord r.gap] (updRing n (fun r => { r with gap := ⟨0, 0, 0, 0, 0⟩ }) s)
  else s

/-- An event goes to a ring, after the gap record it is owed; without room for both it is dropped for the ring. -/
def writeEvent (e : Event) (n : Nat) (s : State) : State :=
  let s1 := writeGap n s
  let rs := eventRecords e
  if (ring s1 n).gap.count = 0 ∧ canPost s1 n rs.length then postRecords n rs s1 else dropEvent e n s1

/-- The bytes an event takes on a ring. -/
def eventBytes (e : Event) : Nat := 32 * (eventRecords e).length

/-- The bucket holds an entry of this size (R502). -/
def bucketHolds (s : State) (n : Nat) : Bool := decide ((n * 800 : Int) ≤ s.stk.bucket)

/-- A class waits for the bucket from now on. -/
def bucketWait (s : State) : State :=
  match s.stk.waitSince with
  | none => { s with stk := { s.stk with waitSince := some (now s), waitMark := now s, throttled := false } }
  | some _ => s

/-- A wait for the bucket is over: its microseconds count (R502). -/
def bucketGo (s : State) : State :=
  match s.stk.waitSince with
  | some _ => inc Reg.STK_THROTTLE_CNT ((now s - s.stk.waitMark) / us)
      { s with stk := { s.stk with waitSince := none, throttled := false } }
  | none => s

/-- Stook writes the oldest staged event to every ring that takes it. Events stand in sequence order in each ring (R506), so an
ordinary event at the front waits for receipts and the bucket and an alarm's event does not (R501, R502). -/
def stookEventWrite (s : State) : State :=
  match s.stk.staging with
  | [] => s
  | e :: rest =>
    let rings := eventRings s e
    if rings = [] then { s with stk := { s.stk with staging := rest } }
    else if !canIssue s || (!e.alarm && receiptsReady s) then s
    else if !e.alarm && !bucketHolds s (eventBytes e) then bucketWait s
    else
      let s1 := if e.alarm then s else bucketGo s
      rings.foldl (fun t n => writeEvent e n t) { s1 with stk := { s1.stk with staging := rest } }

def execStookEventWrite (s : State) : Host.Outcome State Fault Refusal := .next (stookEventWrite s)

/-! ## Trace (R510, R511, R513) -/

def coreTrace (s : State) (c : Nat) : CoreTrace := tget s.stk.cores ⟨0, [], [], false, false⟩ c

def updCore (c : Nat) (f : CoreTrace → CoreTrace) (s : State) : State :=
  { s with stk := { s.stk with cores := tput s.stk.cores c (f (coreTrace s c)) } }

/-- The packets the trace queue takes. -/
def traceRoom : Nat := 1024

/-- The shed level at a queue fill (R510). -/
def shedAt (n : Nat) : Nat := if n < 512 then 0 else if n < 768 then 1 else if n < 896 then 2 else if n < 1024 then 3 else 4

/-- A level sheds a packet. -/
def sheds (level : Nat) (x : TracePkt) : Bool :=
  match level with
  | 0 => false
  | 1 => decide (6 ≤ x.prio)
  | 2 => decide (4 ≤ x.prio)
  | 3 => decide (1 ≤ x.prio)
  | _ => decide (x.typ ≠ 6)

/-- A packet is shed or discarded: it counts, and its core's next GAP packet tells it by priority. -/
def losePkt (x : TracePkt) (s : State) : State :=
  inc Reg.STK_TR_DROP_CNT 1 (updCore x.core (fun c => { c with
    lost := tput c.lost x.prio (min 0xFFFFFFFF (tget c.lost 0 x.prio + 1)) }) { s with stk := { s.stk with
      shedSince := min 0xFFFFFFFF (s.stk.shedSince + 1) } })

/-- The shed level follows the fill of the queue: TRACE_SHED sets as it leaves 0; when it falls, the cores that lost packets owe
a GAP packet and STK_TRACE_SHED posts (R510, R514). -/
def refreshShed (s : State) : State :=
  let l := shedAt s.stk.trace.length
  let s1 := { s with stk := { s.stk with shed := l } }
  if l < s.stk.shed then
    let cores := s1.stk.cores.map fun c => (c.1, if c.2.lost = [] then c.2 else { c.2 with owesGap := true })
    event 0x0703 none (le 1 l ++ le 4 s1.stk.shedSince) { s1 with stk := { s1.stk with cores := cores, shedSince := 0 } }
  else if s.stk.shed = 0 ∧ 0 < l then raiseIrq pgStk 6 s1
  else s1

/-- A packet enters the trace queue, or is shed, or is discarded while TR_EN is 0 (R510, R515). -/
def queuePkt (x : TracePkt) (s : State) : State :=
  if !rbit s Reg.STK_CTRL 1 || sheds (shedAt s.stk.trace.length) x || decide (traceRoom ≤ s.stk.trace.length) then losePkt x s
  else refreshShed { s with stk := { s.stk with trace := s.stk.trace ++ [x] } }

/-- The GAP packet a core owes goes before its next packet, with one count for each priority. -/
def queueGap (c : Nat) (s : State) : State :=
  let x := coreTrace s c
  if x.owesGap ∧ rbit s Reg.STK_CTRL 1 ∧ s.stk.trace.length < traceRoom then
    let data := (List.range 8).flatMap fun p => le 4 (tget x.lost 0 p)
    let g : TracePkt := { typ := 6, core := c, prio := 0, seq := x.seq, time := stamp s, data := data }
    inc Reg.STK_TR_GAP_CNT 1 (queuePkt g (updCore c (fun y => { y with
      seq := y.seq + 1, lost := [], owesGap := false }) s))
  else s

/-- A core's FIFO holds 128 packets; one that is full drops the core's own (R511). -/
def coreEmit (c typ prio : Nat) (data : List Byte) (s : State) : State :=
  let x := coreTrace s c
  let p : TracePkt := { typ := typ, core := c, prio := prio, seq := x.seq, time := stamp s, data := data }
  let s1 := updCore c (fun y => { y with seq := y.seq + 1 }) s
  if x.fifo.length < 128 then updCore c (fun y => { y with fifo := y.fifo ++ [p] }) s1
  else updCore c (fun y => { y with owesGap := true }) (losePkt p s1)

/-- A core's FIFO empties into the trace queue. -/
def coreFlush (c : Nat) (s : State) : State :=
  let x := coreTrace s c
  x.fifo.foldl (fun t p => queuePkt p (queueGap c t)) (updCore c (fun y => { y with fifo := [] }) s)

/-- A control core goes to sleep (R512). -/
def execCoreSleep (core : Fin 4) (s : State) : Host.Outcome State Fault Refusal :=
  .next (if (coreTrace s core.val).asleep then s
    else updCore core.val (fun c => { c with asleep := true }) (coreFlush core.val (coreEmit core.val 4 0 [] s)))

/-- A control core wakes: a WAKE packet, then a SYNC packet with its context and program counter (R512). -/
def coreWake (core : Nat) (ctx : Word) (pc : DWord) (s : State) : State :=
  if (coreTrace s core).asleep then
    let s1 := updCore core (fun c => { c with asleep := false }) s
    coreFlush core (coreEmit core 3 0 (le 4 ctx.toNat ++ le 4 0 ++ le 8 pc.toNat) (coreEmit core 5 0 [] s1))
  else s

def execCoreWake (core : Fin 4) (ctx : Word) (pc : DWord) (s : State) : Host.Outcome State Fault Refusal :=
  .next (coreWake core.val ctx pc s)

/-- The trace rings trace goes to: those of tenant 0. -/
def traceRings (s : State) : List Nat :=
  (s.hif.rings.filter fun x => decide (x.2.state = .active ∧ x.2.typ = .trace ∧ x.2.tenant = 0)).map (·.1)

/-- A packet's ring entry. -/
def TracePkt.record (x : TracePkt) : Record := .trace x.typ x.core x.prio x.seq x.time x.data

/-- Stook writes the oldest queued packet to the trace rings: trace comes last, waits for the bucket and for every ring's room,
and is discarded while TR_EN is 0 (R501, R502, R510, R515). -/
def stookTraceWrite (s : State) : State :=
  match s.stk.trace with
  | [] => s
  | x :: rest =>
    let rings := traceRings s
    let pop := fun (t : State) => refreshShed { t with stk := { t.stk with trace := rest } }
    if !rbit s Reg.STK_CTRL 1 then pop (losePkt x s)
    else if rings = [] ∨ !canIssue s ∨ rings.any (fun n => !canPost s n 1) ∨
        s.stk.staging.any (fun e => decide (eventRings s e ≠ [])) ∨ receiptsReady s then s
    else if !bucketHolds s 64 then bucketWait s
    else rings.foldl (fun t n => postRecords n [x.record] t) (pop (bucketGo s))

def execStookTraceWrite (s : State) : Host.Outcome State Fault Refusal := .next (stookTraceWrite s)

/-- Events or trace have waited for the bucket for 1 ms (R514). -/
def throttleTimer (t : Nat) (s : State) : State :=
  match s.stk.waitSince with
  | some w =>
    if w + ms ≤ t ∧ s.stk.throttled = false then
      let s1 := advanceTo t s
      raiseIrq pgStk 7 { s1 with stk := { s1.stk with throttled := true } }
    else s
  | none => s

def execStookThrottleTimer (t : DWord) (s : State) : Host.Outcome State Fault Refusal := .next (throttleTimer t.toNat s)

/-- Before STANDBY what the queue and the FIFOs still hold is discarded, and each core's first packet after it is a GAP (R513).
-/
def traceStandby (s : State) : State :=
  let s1 := s.stk.trace.foldl (fun t x => losePkt x t) s
  let s2 := { s1 with stk := { s1.stk with trace := [], shed := 0 } }
  (List.range 4).foldl (fun t c =>
    let u := (coreTrace t c).fifo.foldl (fun v x => losePkt x v) t
    updCore c (fun y => { y with fifo := [], owesGap := true }) u) s2

/-! ## TRACE_CONFIG and STOOK_LIMIT (R510, R502, R144) -/

/-- A trace configuration: for each core its LOG and its FLOW entry of 4 bytes, with [0] enable and byte 1 [2:0] the lowest
priority admitted. -/
def traceCfgGood (bs : List Byte) : Bool :=
  decide (bs.length = 32) && (List.range 8).all fun k =>
    decide ((bs.getD (4 * k) 0).toNat < 2 ∧ (bs.getD (4 * k + 1) 0).toNat < 8) && allZero (slice bs (4 * k + 2) (4 * k + 4))

/-- TRACE_CONFIG once its stream is complete; entries are kept by 2 × core, plus 1 for FLOW. -/
def traceConfig (h : Hdr) (x : Stream) (s : State) : State :=
  if traceCfgGood x.bytes then
    let cfg : Tab TraceCfg := (List.range 8).map fun k =>
      (k, ⟨(x.bytes.getD (4 * k) 0).toNat = 1, (x.bytes.getD (4 * k + 1) 0).toNat⟩)
    ok h 0 { s with stk := { s.stk with cfg := cfg } }
  else fail h 0x0106 s

def bodyTraceConfig (h : Hdr) (c : Instr) (handle : Nat) (s : State) : State :=
  withStream h c [] h.tenant handle (traceConfig h) s

def execTraceConfig (d : Desc) (handle : Word) (s : State) : Host.Outcome State Fault Refusal :=
  .next (command d .o (fun _ => []) (.traceConfig d handle)
    (fun h => bodyTraceConfig h (.traceConfig d handle) handle.toNat) s)

/-- STOOK_LIMIT writes STK_LIMIT (R502). -/
def bodyStookLimit (h : Hdr) (v : Nat) (s : State) : State :=
  if v = 0 ∨ 4000 < v then fail h 0x0103 s else ok h 0 (wn Reg.STK_LIMIT v s)

def execStookLimit (d : Desc) (limit : Word) (s : State) : Host.Outcome State Fault Refusal :=
  .next (command d .o (fun _ => []) (.stookLimit d limit) (fun h => bodyStookLimit h limit.toNat) s)

end Sys2Proof.Machine
end

