-- ==== Sys2Proof/Machine/Work.lean ====
section
/-! DEFINITION. The device, ring, tenant, job, page, copy and stream commands (spec/04; spec/05, R115 to R136). -/

namespace Sys2Proof.Machine
open Sys2Proof

/-! ## Device commands (R130, R131) -/

def execNop (d : Desc) (s : State) : Host.Outcome State Fault Refusal :=
  .next (command d .t (fun _ => []) (.nop d) (fun h => ok h 0) s)

/-- The device information table (R130). -/
def deviceInfo (s : State) : Nat :=
  let leader := if s.trm.state = .leader then 16 else 0
  let loaded := patchesLoaded s
  res 16 (rn s Reg.GLB_CHIP_ID) + res 20 0x0104 + res 22 s.sag.patchLevel + res 24 loaded +
    res 25 (s.sag.patches.length - loaded) + res 26 0x03 + res 27 (lifecycle s) + res 28 (chipNumber s + leader)

def execDeviceInfo (d : Desc) (s : State) : Host.Outcome State Fault Refusal :=
  .next (command d .t (fun _ => []) (.deviceInfo d) (fun h t => ok h (deviceInfo t) t) s)

/-- Ring type of a number. -/
def ringType : Nat → Option RingType
  | 0 => some .command | 1 => some .completion | 2 => some .data | 3 => some .event | 4 => some .receipt | 5 => some .trace
  | _ => none

def RingType.code : RingType → Nat
  | .command => 0 | .completion => 1 | .data => 2 | .event => 3 | .receipt => 4 | .trace => 5

/-- Bytes of an entry. -/
def RingType.entry : RingType → Nat
  | .command | .data | .receipt | .trace => 64
  | .completion | .event => 32

def RingState.code : RingState → Nat
  | .disabled => 0 | .active => 1 | .stopped => 2 | .error => 3

/-- The controller produces the entries of a ring of this type. -/
def RingType.produced : RingType → Bool
  | .command | .data => false
  | _ => true

/-- Operands of RING_CREATE are in range and aligned (R66, R130). -/
def ringOperands (n : Nat) (t : RingType) (size tenant vector imodCnt : Nat) (base wb : Nat) : Bool :=
  decide (2 ≤ n ∧ n < 8192 ∧ size ≤ 12 ∧ tenant < 1024) &&
    decide (base % min 4096 (t.entry * 2 ^ (size + 4)) = 0) && decide (wb % 8 = 0) &&
    (!t.produced || decide (vector < 2048 ∧ 1 ≤ imodCnt))

/-- SAG_BOOT_DONE goes out on the first event ring created after a boot (R448). -/
def postBootDone (s : State) : State :=
  if s.pwr.bootHeld then
    event 0x0902 none (le 1 (lifecycle s) ++ le 4 s.sag.patchLevel ++ le 1 (rn s Reg.GLB_RST_CAUSE))
      { s with pwr := { s.pwr with bootHeld := false } }
  else s

/-- RING_CREATE (R130). -/
def ringCreate (h : Hdr) (n typ size ten paired vector imodCnt imodTime base wb : Nat) (s : State) : State :=
  match ringType typ with
  | none => fail h 0x0103 s
  | some t =>
    let q := ring s paired
    if !ringOperands n t size ten vector imodCnt base wb then fail h 0x0103 s
    else if (ring s n).state ≠ .disabled then fail h 0x0105 s
    else if t = .command ∧ ¬(q.state ≠ .disabled ∧ q.typ = .completion ∧ q.tenant = ten) then fail h 0x0104 s
    else if ten ≠ 0 ∧ (tenant s ten).state = .disabled then fail h 0x0201 s
    else if ten ≠ 0 ∧ (tenant s ten).state = .draining then fail h 0x0204 s
    else
      let r := { Ring.init with
        state := .active, typ := t, log2 := size, base := BitVec.ofNat 64 base, tenant := ten, wb := BitVec.ofNat 64 wb,
        paired := if t = .command then paired else 0, vector := if t.produced then vector else 0,
        imodCnt := if t.produced then imodCnt else 1, imodTime := if t.produced then imodTime else 0 : Ring }
      let s1 := putRing n r s
      ok h 0 (if t = .event then postBootDone s1 else s1)

def execRingCreate (d : Desc) (ring : BitVec 16) (typ size : BitVec 8) (tenant paired vector : BitVec 16)
    (imodCnt : BitVec 8) (imodTime : BitVec 16) (base wb : DWord) (s : State) : Host.Outcome State Fault Refusal :=
  .next (command d .s (fun _ => [objRing ring.toNat, objTenant tenant.toNat])
    (.ringCreate d ring typ size tenant paired vector imodCnt imodTime base wb)
    (fun h => ringCreate h ring.toNat typ.toNat size.toNat tenant.toNat paired.toNat vector.toNat imodCnt.toNat
      imodTime.toNat base.toNat wb.toNat) s)

/-- The key of a ring that is being destroyed. -/
def keyRing (n : Nat) : Nat := 0x10000 + n

/-- RING_DESTROY: the ring is STOPPED and its untaken entries are discarded (R130). -/
def ringDestroy (h : Hdr) (c : Instr) (n : Nat) (s : State) : State :=
  if n < 2 ∨ 8192 ≤ n then fail h 0x0103 s
  else
    let r := ring s n
    if r.state = .disabled then fail h 0x0104 s
    else if r.typ = .completion ∧
        (s.hif.rings.any fun e => decide (e.2.typ = .command ∧ e.2.state ≠ .disabled ∧ e.2.paired = n)) = true then
      fail h 0x0201 s
    else parkAccepted h c [objRing n] [keyRing n]
      (updRing n (fun r => { r with
        state := .stopped, destroying := true, fetched := 0, fences := [],
        drains := ((executing s).filter fun p => decide (p.h.d.ring.val = n)).map (·.h.seq) }) s)

def execRingDestroy (d : Desc) (ring : BitVec 16) (s : State) : Host.Outcome State Fault Refusal :=
  .next (command d .s (fun _ => [objRing ring.toNat]) (.ringDestroy d ring)
    (fun h => ringDestroy h (.ringDestroy d ring) ring.toNat) s)

/-- The commands that were executing when the ring's RING_DESTROY was accepted have completed, and no transfer on it is outstanding
(R130). -/
def ringDrained (s : State) (n : Nat) : Bool :=
  (ring s n).drains.all (fun q => !(s.fw.parked.any fun p => decide (p.h.seq = q)) && !s.fw.held.any fun x => decide (x.seq = q)) &&
    !(s.hif.reads.any fun e => match e.2.kind with
      | .descr r _ _ => decide (r = n)
      | .data r _ _ _ _ => decide (r = n)) &&
    !s.hif.fetches.any fun f => decide (f.ring = n)

/-- A destroyed ring has drained: it is DISABLED and RING_DESTROY completes. -/
def ringDestroyDone (n : Nat) (s : State) : State :=
  if (ring s n).destroying && ringDrained s n then arrive (keyRing n) (fun _ => 0) (putRing n Ring.init s) else s

def execRingDestroyDone (ring : Fin 8192) (s : State) : Host.Outcome State Fault Refusal :=
  .next (ringDestroyDone ring.val s)

def ringQuery (h : Hdr) (n : Nat) (s : State) : State :=
  if 8192 ≤ n then fail h 0x0104 s
  else
    let r := ring s n
    if r.state = .disabled then fail h 0x0104 s
    else ok h (res 16 r.state.code + res 17 r.typ.code + res 18 r.log2 + res 20 r.tenant + res 22 r.pi + res 26 r.ci) s

def execRingQuery (d : Desc) (ring : BitVec 16) (s : State) : Host.Outcome State Fault Refusal :=
  .next (query d .s (.ringQuery d ring) (fun h => ringQuery h ring.toNat) s)

/-- PATCH_STATUS (R144). -/
def patchStatus (h : Hdr) (addr len : Nat) (s : State) : State :=
  output h addr len 0 (s.sag.patches.flatMap fun p =>
    le 4 p.seq ++ le 2 p.rom ++ le 1 p.status ++ le 1 0 ++ le 4 p.len ++ le 4 0) s

def execPatchStatus (d : Desc) (buf : DWord) (len : Word) (s : State) : Host.Outcome State Fault Refusal :=
  .next (command d .s (fun _ => []) (.patchStatus d buf len) (fun h => patchStatus h buf.toNat len.toNat) s)

/-- EVENT_FILTER (R144, R505). -/
def eventFilter (h : Hdr) (n : Nat) (mask : BitVec 256) (s : State) : State :=
  if n < 8192 ∧ (ring s n).typ = .event ∧ (ring s n).state ≠ .disabled then
    ok h 0 (updRing n (fun r => { r with filter := mask }) s)
  else fail h 0x0104 s

def execEventFilter (d : Desc) (ring : BitVec 16) (mask : BitVec 256) (s : State) : Host.Outcome State Fault Refusal :=
  .next (command d .o (fun _ => [objRing ring.toNat]) (.eventFilter d ring mask) (fun h => eventFilter h ring.toNat mask) s)

/-! ## Tenants (R91, R92, R111, R112, R132) -/

/-- TENANT_ENABLE. -/
def tenantEnable (h : Hdr) (t jobs copies : Nat) (s : State) : State :=
  if t = 0 ∨ (tenant s t).state = .enabled then fail h 0x0201 s
  else if (tenant s t).state = .draining then fail h 0x0204 s
  else if 1024 ≤ t ∨ 1024 < jobs ∨ 1024 < copies then fail h 0x0103 s
  else ok h 0 (updTenant t (fun x => { x with
    state := .enabled, maxJobs := if jobs = 0 then 16 else jobs, maxCopies := if copies = 0 then 64 else copies,
    drainStep := 0 }) s)

def execTenantEnable (d : Desc) (tenant maxJobs maxCopies : BitVec 16) (s : State) : Host.Outcome State Fault Refusal :=
  .next (command d .s (fun _ => [objTenant tenant.toNat]) (.tenantEnable d tenant maxJobs maxCopies)
    (fun h => tenantEnable h tenant.toNat maxJobs.toNat maxCopies.toNat) s)

/-- Copies of a tenant in given states. -/
def countCopies (s : State) (t : Nat) (p : CopyState → Bool) : Nat :=
  (s.jobs.copies.filter fun c => decide (c.tenant = t) && p c.state).length

/-- Host reads outstanding for a tenant. -/
def tenantReads (s : State) (t : Nat) : Nat :=
  (s.hif.reads.filter fun e => match e.2.kind with
    | .descr r _ _ => decide ((ring s r).tenant = t)
    | .data _ _ u _ _ => decide (u = t)).length

def TenantState.code : TenantState → Nat
  | .disabled => 0 | .enabled => 1 | .draining => 2

/-- The tenant status record (R112); the DRAM transfers in flight at an instant follow no rule and are a free value. -/
def tenantRecord (t : Nat) (s : State) : Nat × State :=
  let x := tenant s t
  let st := if t = 0 then (if rbit s Reg.HIF_CTRL 0 then 1 else 0) else x.state.code
  let dram := draw 16 s
  let ign := ((s.hif.rings.filter fun e => decide (e.2.tenant = t ∧ e.2.state = .stopped)).map (·.2.dbIgn)).sum
  (res 16 st + res 18 (countCopies s t fun c => decide (c = .queued ∨ c = .ready)) +
    res 20 (countCopies s t fun c => decide (c = .committed ∨ c = .fired ∨ c = .ruled)) + res 22 (tenantReads s t) +
    res 24 dram.1.toNat + res 26 (s.glz.tiles.filter fun y => decide (y.tenant = t)).length + res 28 (min 65535 ign), dram.2)

/-- Steps 1 to 3 of R111: the tenant is DRAINING, its rings stop, its uncommitted copies are voided, its data is discarded. -/
def startDrain (t : Nat) (s : State) : State :=
  let s1 := updTenant t (fun x => { x with state := .draining, drainStep := 3 }) s
  let s2 := { s1 with hif := { s1.hif with
    rings := s1.hif.rings.map fun e =>
      (e.1, if e.2.tenant = t ∧ e.2.state = .active then { e.2 with state := .stopped, fetched := 0, fences := [] } else e.2),
    fetches := s1.hif.fetches.filter fun f => decide (f.tenant ≠ t),
    reads := s1.hif.reads.map fun e => (e.1, match e.2.kind with
      | .data _ _ u _ _ => if u = t then { e.2 with dropped := true } else e.2
      | .descr r _ _ => if (ring s r).tenant = t then { e.2 with dropped := true } else e.2) } }
  refreshIdle ((copyOrder s2 fun c => decide (c.tenant = t ∧ (c.state = .queued ∨ c.state = .ready))).foldl
    (fun u c => voidCopy c false u) s2)

/-- The key of a tenant that drains. -/
def keyTenant (t : Nat) : Nat := 0x20000 + t

/-- TENANT_DISABLE is accepted: its result is the status record as it stood. Whether that record shows state 1 or 2 the spec leaves open
(R111; its example gives TENANT_QUERY's answer at the same time as 2): the model takes it before the tenant enters DRAINING (DESIGN CHOICE:
notes/assumptions/70.md). -/
def tenantDisable (h : Hdr) (c : Instr) (t : Nat) (s : State) : State :=
  if t = 0 ∨ (tenant s t).state = .disabled then fail h 0x0201 s
  else if (tenant s t).state = .draining then fail h 0x0204 s
  else
    let r := tenantRecord t s
    parkAccepted h c [objTenant t] [keyTenant t] (startDrain t (updTenant t (fun x => { x with drainRec := r.1 }) r.2))

def execTenantDisable (d : Desc) (tenant : BitVec 16) (s : State) : Host.Outcome State Fault Refusal :=
  .next (command d .s (fun _ => [objTenant tenant.toNat]) (.tenantDisable d tenant)
    (fun h => tenantDisable h (.tenantDisable d tenant) tenant.toNat) s)

/-- Step 4: no transfer of the tenant is left and its last committed copy has passed Thresher: key and streams go (R111). -/
def drainKeyWipe (t : Nat) (s : State) : State :=
  if (tenant s t).drainStep = 3 ∧ tenantReads s t = 0 ∧ thresherDone s t = true then
    let hs := (s.jobs.streams.filter fun x => decide (x.tenant = t)).map (·.handle)
    let s1 := hs.foldl (fun u k => failWaiters t k u) (updSag t (fun x => { x with key := none }) s)
    updTenant t (fun x => { x with drainStep := 4 }) { s1 with
      jobs := { s1.jobs with streams := s1.jobs.streams.filter fun x => decide (x.tenant ≠ t) },
      glz := { s1.glz with tiles := s1.glz.tiles.map fun x => if x.tenant = t then { x with stream := none } else x },
      thr := { s1.thr with ready := s1.thr.ready.filter fun x => decide (x.1 ≠ t) } }
  else s

def execTenantDrainKeyWipe (tenant : Fin 1024) (s : State) : Host.Outcome State Fault Refusal :=
  .next (drainKeyWipe tenant.val s)

/-- A tenant has no copy short of SEALED. -/
def allSealed (s : State) (t : Nat) : Bool := !s.jobs.copies.any fun c => decide (c.tenant = t ∧ c.state ≠ .sealed)

/-- Steps 5 and 6: the tenant's last copy has left Glaze: tiles, jobs and templates go, and it is DISABLED (R111). The open
batch closes with its last receipt (step 7, R471). -/
def drainDone (t : Nat) (s : State) : State :=
  let left := (liveCopies s).all fun x => decide (x.tenant ≠ t) || (copyPlanes s x).all fun p => glazeLeft s x p
  if (tenant s t).drainStep = 4 ∧ left = true then
    let s1 := updTenant t (fun x => { x with state := .disabled, drainStep := 0 }) { s with
      glz := { s.glz with tiles := s.glz.tiles.filter fun x => decide (x.tenant ≠ t) },
      jobs := { s.jobs with
        jobs := s.jobs.jobs.filter fun x => decide (x.tenant ≠ t),
        templates := s.jobs.templates.filter fun x => decide (x.tenant ≠ t),
        copies := s.jobs.copies.filter fun c => !decide (c.tenant = t ∧ c.state = .sealed) } }
    let s2 := arrive (keyTenant t) (fun u => (tenant u t).drainRec) s1
    if allSealed s2 t then closeBatch t s2 else s2
  else s

def execTenantDrainDone (tenant : Fin 1024) (s : State) : Host.Outcome State Fault Refusal :=
  .next (drainDone tenant.val s)

def tenantQuery (h : Hdr) (t : Nat) (s : State) : State :=
  if !mayName h t then fail h 0x0104 s
  else let r := tenantRecord t s; ok h r.1 r.2

def execTenantQuery (d : Desc) (tenant : BitVec 16) (s : State) : Host.Outcome State Fault Refusal :=
  .next (query d .t (.tenantQuery d tenant) (fun h => tenantQuery h tenant.toNat) s)

/-! ## Jobs (R96, R133) -/

def findJob (s : State) (t j : Nat) : Option Job := s.jobs.jobs.find? fun x => decide (x.tenant = t ∧ x.id = j)

/-- JOB_OPEN (R96, R114, R465). -/
def jobOpenCmd (h : Hdr) (j : Nat) (nonce : DWord) (s : State) : State :=
  let t := h.tenant
  let mine := s.jobs.jobs.filter fun x => decide (x.tenant = t)
  if mine.any fun x => decide (x.id = j ∨ x.nonceBase = nonce) then fail h 0x0105 s
  else if 1024 ≤ s.jobs.jobs.length ∨ (tenant s t).maxJobs ≤ mine.length then fail h 0x0402 s
  else if t ≠ 0 ∧ (tenant s t).state = .draining then fail h 0x0204 s
  else
    let x : Job := { tenant := t, id := j, state := .isOpen, nonceBase := nonce, maxCopy := 0 }
    ok h 0 { s with jobs := { s.jobs with jobs := s.jobs.jobs ++ [x] } }

def execJobOpen (d : Desc) (job : Word) (nonce : DWord) (s : State) : Host.Outcome State Fault Refusal :=
  .next (command d .t (fun t => [objJob t job.toNat]) (.jobOpen d job nonce) (fun h => jobOpenCmd h job.toNat nonce) s)

/-- A job takes no further submissions. -/
def closeJob (t j : Nat) (s : State) : State :=
  { s with jobs := { s.jobs with jobs := s.jobs.jobs.map fun x =>
      if x.tenant = t ∧ x.id = j then { x with state := .closing } else x } }

def jobClose (h : Hdr) (c : Instr) (j : Nat) (s : State) : State :=
  match findJob s h.tenant j with
  | none => fail h 0x0104 s
  | some _ => parkAccepted h c [objJob h.tenant j] [] (closeJob h.tenant j s)

def execJobClose (d : Desc) (job : Word) (s : State) : Host.Outcome State Fault Refusal :=
  .next (command d .t (fun t => [objJob t job.toNat]) (.jobClose d job) (fun h => jobClose h (.jobClose d job) job.toNat) s)

def jobAbort (h : Hdr) (c : Instr) (j : Nat) (s : State) : State :=
  match findJob s h.tenant j with
  | none => fail h 0x0104 s
  | some _ =>
    let s1 := (copyOrder s fun x => decide (x.tenant = h.tenant ∧ x.job = j ∧ (x.state = .queued ∨ x.state = .ready))).foldl
      (fun u x => voidCopy x false u) (closeJob h.tenant j s)
    parkAccepted h c [objJob h.tenant j] [] (refreshIdle s1)

def execJobAbort (d : Desc) (job : Word) (s : State) : Host.Outcome State Fault Refusal :=
  .next (command d .t (fun t => [objJob t job.toNat]) (.jobAbort d job) (fun h => jobAbort h (.jobAbort d job) job.toNat) s)

/-- Every copy of the job of a parked JOB_CLOSE or JOB_ABORT is SEALED: the open batch closes, the job and its templates end,
and the command completes (R96, R467, R471). -/
def jobEndDone (seq : Nat) (s : State) : State :=
  match findParked s seq with
  | none => s
  | some q =>
    let job : Option (Nat × Bool) := match q.cmd with
      | .jobClose _ j => some (j.toNat, true)
      | .jobAbort _ j => some (j.toNat, false)
      | _ => none
    match job with
    | none => s
    | some (j, close) =>
      let t := q.h.tenant
      if !q.accepted || s.jobs.copies.any fun c => decide (c.tenant = t ∧ c.job = j ∧ c.state ≠ .sealed) then s
      else
        let s1 := closeBatch t s
        let s2 := leavePages (fun x => decide (x.tenant = t ∧ x.job = j)) { s1 with jobs := { s1.jobs with
          jobs := s1.jobs.jobs.filter fun x => !decide (x.tenant = t ∧ x.id = j),
          copies := s1.jobs.copies.filter fun c => !decide (c.tenant = t ∧ c.job = j) } }
        let s3 := if close && allSealed s2 t then writeCeiling t (tenant s2 t).charged s2 else s2
        complete q.h 0 0 s3

def execJobEndDone (seq : Nat) (s : State) : Host.Outcome State Fault Refusal := .next (jobEndDone seq s)

/-! ## Pages (R97, R114, R133) -/

/-- The plane entries of a page record. -/
def pagePlanes (bs : List Byte) : List Nat → Nat → Option (List PagePlane)
  | [], _ => some []
  | p :: ps, off =>
    let e := slice bs off (off + 16)
    let w := leAt e 4 4
    if leAt e 0 1 = p ∧ allZero (slice e 1 4) ∧ 1 ≤ w ∧ w ≤ 262144 ∧ allZero (slice e 12 16) then
      (pagePlanes bs ps (off + 16)).map fun r => { plane := p, width := w, handle := leAt e 8 4 : PagePlane } :: r
    else none

/-- The template of a page record, if its format and reserved fields hold. -/
def pageRecord (t : Nat) (bs : List Byte) : Option Template :=
  let mask := leAt bs 8 2
  let h := leAt bs 12 4
  let ps := maskBits 16 mask
  if bs.length = 64 + 16 * ps.length ∧ leAt bs 10 1 ≤ 3 ∧ allZero (slice bs 11 12) ∧ 1 ≤ h ∧ h ≤ 16777215 ∧
      allZero (slice bs 16 64) then
    (pagePlanes bs ps 64).map fun planes =>
      { tenant := t, job := leAt bs 0 4, page := leAt bs 4 4, mask := BitVec.ofNat 16 mask,
        level := decide (leAt bs 10 1 % 2 = 1), sealed := decide (2 ≤ leAt bs 10 1), height := h, planes, releasing := false }
  else none

def pageLoad (h : Hdr) (x : Stream) (s : State) : State :=
  match pageRecord h.tenant x.bytes with
  | none => fail h 0x0106 s
  | some t =>
    let open1 := match findJob s t.tenant t.job with | some j => decide (j.state = .isOpen) | none => false
    let owned := t.planes.all fun q => (findStream s t.tenant q.handle).isSome
    let sealedAny := t.sealed || t.planes.any fun q => ((findStream s t.tenant q.handle).map (·.sealed)).getD false
    let mine := s.jobs.templates.filter fun y => decide (y.tenant = t.tenant ∧ y.job = t.job)
    if !open1 then fail h 0x0104 s
    else if mine.any fun y => decide (y.page = t.page) then fail h 0x0105 s
    else if !owned then fail h 0x0104 s
    else if t.tenant = 0 ∧ sealedAny = true then fail h 0x0106 s
    else if 4096 ≤ mine.length ∨ 16384 ≤ s.jobs.templates.length then fail h 0x0402 s
    else
      let s1 := checkPage t (prepareAgain t { s with jobs := { s.jobs with templates := s.jobs.templates ++ [t] } })
      ok h (res 16 t.job + res 20 t.page) s1

def bodyPageLoad (h : Hdr) (c : Instr) (handle : Nat) (s : State) : State :=
  withStream h c [] h.tenant handle (pageLoad h) s

def execPageLoad (d : Desc) (handle : Word) (s : State) : Host.Outcome State Fault Refusal :=
  .next (command d .t (fun _ => []) (.pageLoad d handle) (fun h => bodyPageLoad h (.pageLoad d handle) handle.toNat) s)

/-- PAGE_RELEASE: no further COPY_SUBMIT names the page. -/
def pageRelease (h : Hdr) (c : Instr) (j p : Nat) (s : State) : State :=
  match template s h.tenant j p with
  | none => fail h 0x0104 s
  | some _ => parkAccepted h c [objJob h.tenant j, objPage h.tenant j p] [] { s with jobs := { s.jobs with
      templates := s.jobs.templates.map fun x =>
        if x.tenant = h.tenant ∧ x.job = j ∧ x.page = p then { x with releasing := true } else x } }

def execPageRelease (d : Desc) (job page : Word) (s : State) : Host.Outcome State Fault Refusal :=
  .next (command d .t (fun t => [objJob t job.toNat, objPage t job.toNat page.toNat]) (.pageRelease d job page)
    (fun h => pageRelease h (.pageRelease d job page) job.toNat page.toNat) s)

/-- PAGE_RELEASE completes when no unsealed copy names the page. -/
def pageReleaseDone (seq : Nat) (s : State) : State :=
  match findParked s seq with
  | none => s
  | some q =>
    let page : Option (Nat × Nat) := match q.cmd with | .pageRelease _ j p => some (j.toNat, p.toNat) | _ => none
    match page with
    | none => s
    | some (j, p) =>
      let t := q.h.tenant
      if !q.accepted || s.jobs.copies.any fun c =>
          decide (c.tenant = t ∧ c.job = j ∧ c.page = p ∧ c.state ≠ .sealed) then s
      else complete q.h 0 0 (leavePages (fun x => decide (x.tenant = t ∧ x.job = j ∧ x.page = p)) s)

def execPageReleaseDone (seq : Nat) (s : State) : Host.Outcome State Fault Refusal := .next (pageReleaseDone seq s)

/-! ## Copies (R94, R100, R101, R107, R133, R134, R183, R188) -/

/-- A placement entry. -/
def placementAt (bs : List Byte) (i : Nat) : Placement :=
  let w := fun k => leAt bs (64 + 16 * i + 4 * k) 4
  { plane := bits 3 0 (w 0), op := bits 7 4 (w 0), value := bits 15 8 (w 0), tile := bits 31 16 (w 0), col := bits 17 0 (w 1),
    line := bits 23 0 (w 2), height := bits 29 18 (w 1), srcCol := bits 17 0 (w 3), srcDy := signed 14 (bits 31 18 (w 3)) }

/-- The reserved fields of a placement entry are zero. -/
def placementClean (bs : List Byte) (i : Nat) : Bool :=
  let w := fun k => leAt bs (64 + 16 * i + 4 * k) 4
  let op := bits 7 4 (w 0)
  decide (bits 31 30 (w 1) = 0 ∧ bits 31 24 (w 2) = 0) && (decide (op = 4) || decide (bits 29 18 (w 1) = 0 ∧ w 3 = 0)) &&
    (decide (op = 2 ∨ op = 3) || decide (bits 15 8 (w 0) = 0))

/-- A window entry at a byte offset. -/
def windowAt (bs : List Byte) (off : Nat) : Window :=
  let w := fun k => leAt bs (off + 4 * k) 4
  { plane := bits 3 0 (w 0), index := bits 7 4 (w 0), col := bits 17 0 (w 1), line := bits 23 0 (w 2), width := bits 18 0 (w 3),
    height := bits 23 0 (w 4), crc := BitVec.ofNat 32 (w 5) }

def windowClean (bs : List Byte) (off : Nat) : Bool :=
  let w := fun k => leAt bs (off + 4 * k) 4
  decide (bits 31 8 (w 0) = 0 ∧ bits 31 18 (w 1) = 0 ∧ bits 31 24 (w 2) = 0 ∧ bits 31 19 (w 3) = 0 ∧ bits 31 24 (w 4) = 0 ∧
    w 6 = 0 ∧ w 7 = 0)

/-- Width and height of a placement. -/
def placementSize (s : State) (t : Nat) (q : Placement) : Nat × Nat :=
  if q.op = 4 then (q.tile, q.height)
  else match s.glz.tiles.find? fun x => decide (x.tenant = t ∧ x.id = q.tile) with
    | some x => (x.width, x.height)
    | none => (0, 0)

/-- A placement suits the page (R183), and a rectangle copy stays in one band (R188). An operation value that R182 reserves suits none, so it
fails with R183's 0x0103 (DESIGN CHOICE: notes/assumptions/71.md). -/
def placementSuits (s : State) (t : Template) (q : Placement) : Bool :=
  let n := bandLines s
  if q.op = 4 then
    decide (1 ≤ q.tile ∧ q.tile ≤ 16383 ∧ 1 ≤ q.height) &&
      decide (q.line / n = (q.line + q.height - 1) / n ∧ 0 ≤ (q.line : Int) + q.srcDy ∧
        ((q.line : Int) + q.srcDy).toNat / n = q.line / n ∧ (((q.line + q.height - 1 : Nat) : Int) + q.srcDy).toNat / n = q.line / n)
  else if 1 ≤ q.op ∧ q.op ≤ 3 then
    match s.glz.tiles.find? fun x => decide (x.tenant = t.tenant ∧ x.id = q.tile) with
    | some x => (if q.op = 3 then decide (x.format = 2) else decide (x.format = if t.level then 1 else 0)) &&
        (!t.level || decide (q.value ≤ 7))
    | none => false
  else false

/-- A rectangle lies within the page on its plane. -/
def insidePage (t : Template) (plane col line w h : Nat) : Bool :=
  let pw := ((t.planes.find? fun q => decide (q.plane = plane)).map (·.width)).getD 0
  decide (col + w ≤ pw ∧ line + h ≤ t.height)

def placementInside (s : State) (t : Template) (q : Placement) : Bool :=
  let z := placementSize s t.tenant q
  insidePage t q.plane q.col q.line z.1 z.2 &&
    (decide (q.op ≠ 4) || insidePage t q.plane q.srcCol ((q.line : Int) + q.srcDy).toNat z.1 z.2)

/-- No (plane, index) pair repeats among windows. -/
def windowsDistinct : List Window → Bool
  | [] => true
  | w :: r => !(r.any fun v => decide (v.plane = w.plane ∧ v.index = w.index)) && windowsDistinct r

/-- The first check of R101 a copy record breaks, as a status; else the copy's template. -/
def copyCheck (s : State) (t : Nat) (bs : List Byte) (ps : List Placement) (ws : List Window) : Except Nat Template :=
  let np := leAt bs 14 2
  let nw := leAt bs 16 2
  let mask := leAt bs 12 2
  let tmpl := template s t (leAt bs 0 4) (leAt bs 4 4)
  if bs.length < 64 ∨ bs.length ≠ 64 + 16 * np + 32 * nw then .error 0x0106
  else if !allZero (slice bs 18 64) || !((List.range np).all fun i => placementClean bs i) ||
      !((List.range nw).all fun i => windowClean bs (64 + 16 * np + 32 * i)) then .error 0x0101
  else match findJob s t (leAt bs 0 4), tmpl with
    | some j, some p =>
      if j.state ≠ .isOpen ∨ p.releasing = true then .error 0x0104
      else if leAt bs 8 4 ≤ j.maxCopy then .error 0x0108
      else if mask = 0 ∨ (maskBits 16 mask).any (fun q => !p.mask.getLsbD q) = true then .error 0x0103
      else if ps.any (fun q => decide (mask / 2 ^ q.plane % 2 = 0)) || ws.any (fun q => decide (mask / 2 ^ q.plane % 2 = 0)) then
        .error 0x0103
      else if ps.any fun q => decide (1 ≤ q.op ∧ q.op ≤ 3) &&
          !s.glz.tiles.any fun x => decide (x.tenant = t ∧ x.id = q.tile) then .error 0x0104
      else if ps.any fun q => !placementSuits s p q then .error 0x0103
      else if ws.any fun w => decide (w.width = 0 ∨ 262144 < w.width ∨ w.height = 0) then .error 0x0103
      else if ps.any (fun q => !placementInside s p q) ||
          ws.any (fun w => !insidePage p w.plane w.col w.line w.width w.height) then .error 0x0109
      else if 16384 < np ∨ 256 < nw ∨ ((List.range 16).any fun k =>
          decide (4096 < (ps.filter fun q => decide (q.plane = k)).length)) = true then .error 0x0103
      else if !windowsDistinct ws then .error 0x0105
      else .ok p
    | _, _ => .error 0x0104

/-- A stream a page names has failed, or is bad, as a whole or for that page (R85, R108, R165). -/
def pageBad (s : State) (t : Template) : Bool :=
  t.planes.any fun q => match findStream s t.tenant q.handle with
    | some x => x.failed || x.badFor.contains (t.job, t.page) || (match x.prep with | .bad _ => true | _ => false)
    | none => false

/-- COPY_SUBMIT once its record is fetched (R101, R124, R134): R101, then the queued-copy limits, then quota. R134 does not place the
DRAINING check, 0x0204: the model makes it between those two (DESIGN CHOICE: notes/assumptions/71.md). -/
def copySubmit (h : Hdr) (x : Stream) (s : State) : State :=
  let bs := x.bytes
  let t := h.tenant
  let ps := (List.range (leAt bs 14 2)).map fun i => placementAt bs i
  let ws := (List.range (leAt bs 16 2)).map fun i => windowAt bs (64 + 16 * leAt bs 14 2 + 32 * i)
  match copyCheck s t bs ps ws with
  | .error e => fail h e s
  | .ok p =>
    let waiting := s.jobs.copies.filter fun c => decide (c.state = .queued ∨ c.state = .ready)
    let y := tenant s t
    if 1024 ≤ waiting.length ∨ y.maxCopies ≤ (waiting.filter fun c => decide (c.tenant = t)).length then fail h 0x0402 s
    else if t ≠ 0 ∧ y.state = .draining then fail h 0x0204 s
    else if t ≠ 0 ∧ y.grant.toNat ≤ y.charged.toNat + y.reserved.toNat then fail h 0x0302 s
    else
      let num := leAt bs 8 4
      let c : Copy := {
        tenant := t, job := p.job, page := p.page, num, seq := h.seq, mask := BitVec.ofNat 16 (leAt bs 12 2),
        placements := ps, windows := ws, page0 := p, state := .queued,
        flags := CopyFlags.none, slot := none, planes := none, opened := [],
        closed := [], budget := [], cycles := [], begun := [], placed := [], commitTime := 0, firedAt := 0, ruleTime := 0,
        receiptSlot := false, winSeen := 0, winBad := 0, firedSeen := 0, firedBad := 0, defects := 0, ports := 0, marred := [] }
      let js := s.jobs.jobs.map fun j => if j.tenant = t ∧ j.id = p.job then { j with maxCopy := num } else j
      let s1 := updTenant t (fun z => { z with reserved := z.reserved + 1 })
        { s with jobs := { s.jobs with copies := s.jobs.copies ++ [c], jobs := js } }
      let s2 := ok h (res 16 p.job + res 20 num) s1
      let s3 := if pageBad s2 p then voidCopy h.seq true s2 else refreshReady s2
      refreshIdle s3

def bodyCopySubmit (h : Hdr) (c : Instr) (handle : Nat) (s : State) : State :=
  withStream h c [] h.tenant handle (copySubmit h) s

def execCopySubmit (d : Desc) (handle : Word) (s : State) : Host.Outcome State Fault Refusal :=
  .next (command d .t (fun _ => []) (.copySubmit d handle) (fun h => bodyCopySubmit h (.copySubmit d handle) handle.toNat) s)

/-- A copy of a tenant by job and number. -/
def namedCopy (s : State) (t j c : Nat) : Option Copy :=
  s.jobs.copies.find? fun x => decide (x.tenant = t ∧ x.job = j ∧ x.num = c)

def copyWithdraw (h : Hdr) (j c : Nat) (s : State) : State :=
  match namedCopy s h.tenant j c with
  | none => fail h 0x0104 s
  | some x => if x.state = .queued ∨ x.state = .ready then ok h 0 (refreshIdle (voidCopy x.seq false s)) else fail h 0x0205 s

def execCopyWithdraw (d : Desc) (job copy : Word) (s : State) : Host.Outcome State Fault Refusal :=
  .next (command d .t (fun t => [objJob t job.toNat]) (.copyWithdraw d job copy)
    (fun h => copyWithdraw h job.toNat copy.toNat) s)

def CopyState.code : CopyState → Nat
  | .queued => 0 | .ready => 1 | .committed => 2 | .fired => 3 | .ruled => 4 | .sealed => 5 | .voided => 6

/-- COPY_QUERY: OK shows once the copy is sealed (R110, R469). -/
def copyQuery (h : Hdr) (j c : Nat) (s : State) : State :=
  match namedCopy s h.tenant j c with
  | none => fail h 0x0104 s
  | some x =>
    let w := x.flags.word
    ok h (res 16 x.state.code + res 18 (if w = 1 ∧ x.state ≠ .sealed then 0 else w) + res 20 (x.slot.getD 0xFFFFFFFF)) s

def execCopyQuery (d : Desc) (job copy : Word) (s : State) : Host.Outcome State Fault Refusal :=
  .next (query d .t (.copyQuery d job copy) (fun h => copyQuery h job.toNat copy.toNat) s)

/-! ## Streams (R116, R135) -/

/-- Spool space all open streams may take. -/
def spoolUse (s : State) : Nat := (s.jobs.streams.map (·.maxLen)).sum

/-- STREAM_OPEN (R135). A nonzero job ID for a stream that is not a raster stream is accepted and kept (DESIGN CHOICE:
notes/assumptions/71.md). -/
def streamOpen (h : Hdr) (handle kind maxLen job : Nat) (s : State) : State :=
  if handle = 0 ∨ 5 < kind then fail h 0x0103 s
  else if (findStream s h.tenant handle).isSome then fail h 0x0105 s
  else if !Config.spoolFits (spoolUse s + maxLen) then fail h 0x0401 s
  else if 4 ≤ kind ∧ h.tenant ≠ 0 then fail h 0x0301 s
  else
    let x : Stream := {
      tenant := h.tenant, handle, kind, maxLen, job, descs := [], pieces := [], lastSeen := false,
      failed := false, prep := .none, plain := [], level := false, width := 0, height := 0,
      sealedPage := none, blocks := [], badFor := [] }
    ok h 0 { s with jobs := { s.jobs with streams := s.jobs.streams ++ [x] } }

def execStreamOpen (d : Desc) (handle : Word) (kind : BitVec 8) (maxLen job : Word) (s : State) :
    Host.Outcome State Fault Refusal :=
  .next (command d .t (fun t => if job = 0#32 then [] else [objJob t job.toNat]) (.streamOpen d handle kind maxLen job)
    (fun h => streamOpen h handle.toNat kind.toNat maxLen.toNat job.toNat) s)

/-- An unsealed copy names a stream, by its page or by a tile of its placements (R102). -/
def streamPinned (s : State) (t h : Nat) : Bool :=
  s.jobs.copies.any fun c => decide (c.tenant = t ∧ c.state ≠ .sealed) &&
    ((c.page0.planes.any fun q => decide (q.handle = h)) ||
      s.glz.tiles.any fun x => decide (x.tenant = t ∧ x.stream = some h) &&
        c.placements.any fun q => decide (q.op ≠ 4 ∧ q.tile = x.id))

/-- STREAM_FREE (R135). Data fetches that are outstanding go on; their bytes enter a stream opened again under the same handle, and are lost
where there is none (DESIGN CHOICE: notes/assumptions/71.md). -/
def streamFree (h : Hdr) (handle : Nat) (s : State) : State :=
  match findStream s h.tenant handle with
  | none => fail h 0x0104 s
  | some _ =>
    if streamPinned s h.tenant handle then fail h 0x0207 s
    else
      let keep := s.jobs.streams.filter fun x => !decide (x.tenant = h.tenant ∧ x.handle = handle)
      let rd := s.thr.ready.filter fun x => decide (x ≠ (h.tenant, handle))
      let tiles := s.glz.tiles.map fun x => if x.tenant = h.tenant ∧ x.stream = some handle then { x with stream := none } else x
      let s1 := { s with
        jobs := { s.jobs with streams := keep }, thr := { s.thr with ready := rd }, glz := { s.glz with tiles := tiles } }
      ok h 0 (failWaiters h.tenant handle s1)

def execStreamFree (d : Desc) (handle : Word) (s : State) : Host.Outcome State Fault Refusal :=
  .next (command d .t (fun _ => []) (.streamFree d handle) (fun h => streamFree h handle.toNat) s)

/-! ## Latches of classes F and B (R127) -/

/-- A command of class F, and one of class B. -/
def isClassF : Instr → Bool
  | .planeConfig .. | .passLoad .. | .kernelSelect .. | .splitMove .. => true
  | _ => false

def isClassB : Instr → Bool
  | .curveLoad .. | .threshLoad .. => true
  | _ => false

/-- The last applying latch of a class F or B command has come (R127). -/
def latchComplete (seq : Nat) (s : State) : State :=
  match findParked s seq with
  | some q =>
    if (isClassF q.cmd || isClassB q.cmd) && q.accepted && q.pages.isEmpty then
      complete q.h (if q.late && isClassF q.cmd then 1 else 0) (res 16 q.slot.toNat) s
    else s
  | none => s

def execLatchCommandComplete (seq : Nat) (s : State) : Host.Outcome State Fault Refusal := .next (latchComplete seq s)

end Sys2Proof.Machine
end

