-- ==== Sys2Proof/Machine/Reset.lean ====
section
/-! DEFINITION. Resets: what each kind leaves and what it returns to its reset value (spec/23, R530 to R535; spec/18, R449 to
R454; spec/03, R88; spec/05, R129). -/

namespace Sys2Proof.Machine
open Sys2Proof

/-- The rank of a reset kind, strongest first (R530); the exit from DEEP acts as a HOST reset. -/
def RstKind.rank : RstKind → Nat
  | .por => 0 | .pin => 1 | .sagFault => 2 | .host => 3 | .deepExit => 3

/-- The reset classes a kind leaves alone (R530, R534). -/
def RstKind.keeps (k : RstKind) (c : RstClass) : Bool :=
  match k with
  | .por => false
  | .pin => decide (c = .p)
  | .sagFault | .host | .deepExit => decide (c = .p) || decide (c = .n)

/-- The registers of the classes that are kept. -/
def keepRegs (keeps : RstClass → Bool) (t : Tab Word) : Tab Word :=
  t.filter fun e => match regDef (keyAddr e.1) with
    | some r => keeps r.cls
    | none => false

/-- The page headers after a reset: owner and lock are of class N, the rest is weaker (spec/02). -/
def keepPages (keepN : Bool) (t : Tab Page) : Tab Page :=
  if keepN then t.map fun e => (e.1, { Page.init (pageKind e.1) with owner := e.2.owner }) else []

/-- A trip input after a reset: its latch is of class N, its level is the pin's (R290, R534). -/
def keepTrip (keepN : Bool) (x : Trip) : Trip :=
  { latched := x.low || (keepN && x.latched), low := x.low, highSince := none, reject := keepN && x.reject }

/-- A head port after a reset: off, with the level of its fault input (R534). -/
def keepPort (x : Port) : Port := { Port.init with fltLow := x.fltLow }

/-- A tenant after a reset: DISABLED, with its counters in Sagger RAM (R92, R534). -/
def keepTenant (x : Tenant) : Tenant := { Tenant.init with grant := x.grant, charged := x.charged, reserved := x.reserved }

/-- Sagger after a reset: keys, nonce and scopes gone (R445, R450, R460), the rest of its RAM kept (R534). -/
def keepSagger (x : Sagger) : Sagger :=
  { x with
    nonce := none, scopes := 0, ready := false, stage := if x.halted then 0xFF else 0,
    failCode := if x.halted then x.failCode else 0,
    tenants := x.tenants.map fun e => (e.1, { e.2 with key := none, ceilNext := none }) }

/-- Every unit but Crock returns to its reset state, and registers of the classes that are kept stay (R534). -/
def clearUnits (keeps : RstClass → Bool) (s : State) : State :=
  let z := State.reset
  let n := keeps .n
  { z with
    pending := s.pending, free := s.free, out := s.out,
    regs := { z.regs with act := keepRegs keeps s.regs.act },
    pages := keepPages n s.pages,
    clock := { z.clock with uptime := s.clock.uptime },
    stk := { z.stk with alarms := if n then s.stk.alarms else [] },
    fw := { z.fw with nextSeq := s.fw.nextSeq },
    jobs := { z.jobs with
      nextCopySeq := s.jobs.nextCopySeq, tenants := s.jobs.tenants.map fun e => (e.1, keepTenant e.2) },
    kln := { z.kln with trips := s.kln.trips.map fun e => (e.1, keepTrip n e.2) },
    ports := s.ports.map fun e => (e.1, keepPort e.2),
    pwr := { z.pwr with boot := none, low := s.pwr.low, jtag := s.pwr.jtag },
    crk := s.crk, sag := keepSagger s.sag,
    clk := { s.clk with rootLock := false, ddrLock := false, dllLock := false, iocal := false, taps := [], changed := 0, stepTaps := [] },
    thm := { s.thm with warn := false, maxFresh := true } }

/-- Sagger RAM is zeroed at power-on and with PD_SAG (R451, R534). -/
def zeroSagger (s : State) : State :=
  { s with
    sag := { s.sag with tenants := [], batches := [] },
    jobs := { s.jobs with tenants := [] } }

/-- Crock's DRAM and queue are lost; the store keeps what was programmed (R490, R491, R534). -/
def crkLose (s : State) : State :=
  { s with crk := { s.crk with
    state := .absent, queue := [], compacting := false, failRun := 0, compactCmd := none, cal := [], calSlot := [],
    snapNow := none, snapCmds := [], snapAgain := [], grace := none } }

/-- A record in progress when a reset comes: not begun, completed or torn, freely; a cut one is not completed (R495, R498). -/
def crkInterrupt (cut : Bool) (s : State) : State :=
  if s.crk.grace.isSome then
    let d := draw 1 s
    graceEnd (!cut && decide (d.1 = 1#1)) d.2
  else if s.crk.queue = [] ∨ crkAccepts s = false then cutSnapshot s
  else
    let d := draw 2 (cutSnapshot s)
    if d.1 = 0#2 then d.2 else cutRecord (!cut && decide (d.1 = 1#2)) d.2

/-- The outputs are forced and the clocks stop outside PD_AON: what those domains held is gone with the boot that must follow
(R553, R555). -/
def haltUnits (s : State) : State :=
  clearUnits (fun c => decide (c = .p) || decide (c = .n)) s

/-- A reset that is a boot: the boot starts at step 1; the strongest kind of those that act governs (R530, R531). -/
def startBoot (k : RstKind) (cause : Nat) (cut : Bool) (s : State) : State :=
  let weaker := match s.pwr.boot with
    | some k0 => decide (k0.rank < k.rank)
    | none => false
  let s1 := clearUnits k.keeps (crkLose (crkInterrupt cut s))
  let s2 := match k with
    | .por => zeroSagger { s1 with
        sag := { s1.sag with halted := false, failCode := 0, stage := 0, signerGone := false, faultTimes := [] },
        thm := { State.reset.thm with shutdown := s1.thm.shutdown } }
    | .pin => { s1 with
        sag := { s1.sag with halted := false, failCode := 0, stage := 0, signerGone := false, faultTimes := [] },
        thm := { s1.thm with atrip := false } }
    | .deepExit => zeroSagger s1
    | .sagFault | .host => s1
  let s3 := { s2 with pwr := { s2.pwr with boot := if weaker then s.pwr.boot else some k } }
  if weaker then s3 else wn Reg.GLB_RST_CAUSE cause s3

/-- DEEP has been told to its command, and PD_AON holds a wake source until the entry ends (R540). -/
def deepHolds (s : State) : Bool := decide (s.pwr.toward = some .deep) && s.pwr.told

/-- EXT_RST_N: a PIN reset samples the straps (R17, R530). Under the analog trip it acts once every comparator reads below 125 °C
(R555); while an entry to DEEP ends it is held (R540). -/
def pinReset (strap : BitVec 5) (cool : Bool) (s : State) : State :=
  if s.thm.atrip && !cool then s
  else if deepHolds s then { s with pwr := { s.pwr with wake := some (.pin, strap.toNat) } }
  else wn Reg.GLB_STRAP strap.toNat (startBoot .pin 1 false s)

def execPinReset (strap : BitVec 5) (cool : Bool) (s : State) : Host.Outcome State Fault Refusal :=
  .next (pinReset strap cool s)

/-- A POR (R530). -/
def porReset (strap : BitVec 5) (s : State) : State := wn Reg.GLB_STRAP strap.toNat (startBoot .por 0 true s)

def execPor (strap : BitVec 5) (s : State) : Host.Outcome State Fault Refusal := .next (porReset strap s)

/-- A HOST reset with its cause: 2 PERST_N, 3 hot reset, 4 link disable, 5 GLB_RST, 6 loss of DDR PLL lock. In shutdown only PERST_N
reaches the controller (R554), and in DEEP it is the wake source (R539, R540). -/
def hostReset (cause : Nat) (s : State) : State :=
  if s.thm.atrip then s
  else if s.thm.shutdown && decide (cause ≠ 2) then s
  else if s.pwr.state = .deep then (if cause = 2 then startBoot .deepExit 8 false s else s)
  else if deepHolds s then (if cause = 2 then { s with pwr := { s.pwr with wake := some (.deepExit, 0) } } else s)
  else startBoot .host cause false s

/-- PERST_N, a hot reset, link disable or GLB_RST: `source` 0 to 3 (R530). -/
def execHostReset (source : Fin 4) (s : State) : Host.Outcome State Fault Refusal := .next (hostReset (source.val + 2) s)

/-- A write of GLB_RST (R547). -/
def glbRst (v : Word) (s : State) : State :=
  if bits 31 16 v.toNat = 0xA5A5 ∧ bits 0 0 v.toNat = 1 then hostReset 5 s else s

def execGlbRstWrite (ini : Initiator) (val : Word) (s : State) : Host.Outcome State Fault Refusal :=
  .next (guardWrite ini Reg.GLB_RST allBytes val glbRst s)

/-- A SAG_FAULT: the alarm and the count, then the reset; the third within 1 s halts Sagger (R451, R452). -/
def sagFault (cause : Nat) (s : State) : State :=
  if !clocked s || s.sag.halted then s
  else
    let u := s.clock.uptime
    let times := (u :: s.sag.faultTimes).filter fun t => decide (u - t ≤ 1000 * ms)
    let s1 := inc Reg.SAG_FAULT_CNT 1 (raiseAlarm 8 none (le 1 cause) s)
    let s2 := startBoot .sagFault 7 false { s1 with sag := { s1.sag with faultTimes := times } }
    if 3 ≤ times.length then { s2 with sag := { s2.sag with halted := true, failCode := 5, stage := 0xFF } } else s2

/-- SAG_FAULT with its cause: 0 watchdog, 1 glitch, 2 TRNG, 3 internal. -/
def execSagFault (cause : Fin 4) (s : State) : Host.Outcome State Fault Refusal := .next (sagFault cause.val s)

/-- A test instruction other than BYPASS, IDCODE or SAMPLE/PRELOAD is loaded and holds a HOST reset, or no longer is, and the boot goes on
(R454). GLB_RST_CAUSE has no code for it. -/
def jtag (test : Bool) (s : State) : State :=
  if !clocked s then s
  else if test then
    let d := draw 4 s
    let s1 := startBoot .host d.1.toNat false d.2
    { s1 with pwr := { s1.pwr with jtag := true } }
  else { s with pwr := { s.pwr with jtag := false } }

def execJtagInstruction (test : Bool) (s : State) : Host.Outcome State Fault Refusal := .next (jtag test s)

/-! ## FLR (R532) -/

/-- A copy is accounted for at an FLR: voided before its commit, else sealed, with UNDERRUN and UNINSPECTED unless it was RULED. -/
def flrCopy (c : Nat) (s : State) : State :=
  match findCopy s c with
  | some x =>
    match x.state with
    | .queued | .ready => voidCopy c false s
    | .committed | .fired =>
      sealCopy c (updCopy c (fun y => { y with
        state := .ruled, ruleTime := stamp s, flags := { y.flags with underrun := true, uninspected := true } }) s)
    | .ruled => sealCopy c s
    | .voided => sealVoid c s
    | .sealed => s
  | none => s

/-- A tenant 0 stream keeps its bytes; a preparation in progress starts again. -/
def flrStream (x : Stream) : Stream := match x.prep with
  | .busy _ => { x with prep := .none }
  | _ => x

/-- Function Level Reset. -/
def flr (s : State) : State :=
  if !clocked s || s.pwr.boot.isSome then s
  else
    let s1 := (copyOrder s fun c => decide (c.state ≠ .sealed)).foldl (fun t c => flrCopy c t) s
    let s2 := ((List.range 64).filter fun h => (port s1 h).pwren).foldl (fun t h => headOff h t) s1
    let s3 := (tlyEnabled s2).foldl (fun t i => rememberUsage i t) s2
    let z := clearUnits (fun c => decide (c = .p) || decide (c = .n)) s3
    let j := s3.jobs
    let s4 := { z with
      hif := { z.hif with
        cfg := { z.hif.cfg with subsystem := s3.hif.cfg.subsystem },
        stale := s3.hif.reads.foldl (fun t e => tput t e.1 s3.hif.cfg.toDisable) s3.hif.stale,
        linkSpeed := s3.hif.linkSpeed, linkWidth := s3.hif.linkWidth, dlUp := s3.hif.dlUp },
      jobs := {
        tenants := z.jobs.tenants, nextCopySeq := j.nextCopySeq,
        jobs := j.jobs.filter fun x => decide (x.tenant = 0),
        templates := j.templates.filter fun x => decide (x.tenant = 0),
        copies := j.copies.filter fun c => !decide (c.tenant ≠ 0 ∧ c.state = .sealed),
        streams := (j.streams.filter fun x => decide (x.tenant = 0)).map flrStream },
      glz := { z.glz with tiles := s3.glz.tiles.filter fun x => decide (x.tenant = 0), useCount := s3.glz.useCount },
      til := { s3.til with pend := [], pendCurves := [], pendArrays := [], autoDue := [], autoHeads := [], spits := [],
                           engines := s3.til.engines.map fun e => (e.1, { e.2 with cost := [], lastRun := none }) },
      tly := { z.tly with recovered := s3.tly.recovered },
      sag := { z.sag with ready := s3.sag.ready, stage := s3.sag.stage, failCode := s3.sag.failCode },
      clk := { s3.clk with iocal := false } }
    noteReady (wf Reg.HIF_STAT 8 8 (rf s Reg.HIF_STAT 8 8) (wn Reg.GLB_RST_CAUSE 9 s4))

def execFlr (s : State) : Host.Outcome State Fault Refusal := .next (flr s)

/-! ## WDOG (R533) -/

/-- The control-core watchdog restarts the cores. -/
def wdog (s : State) : State :=
  if !clocked s || s.pwr.boot.isSome then s
  else
    let s1 := planeNums.foldl (fun t p => stopping p t) s
    let s2 := wipeKeys { s1 with
      fw := { s1.fw with parked := [], ready := false },
      stk := { s1.stk with trace := [], cores := [], shed := 0 },
      sag := { s1.sag with nonce := none, scopes := 0 },
      pwr := { s1.pwr with state := .run, toward := none, told := false, wake := none, exitHeads := [] } }
    let ts := (s2.jobs.tenants.filter fun e => decide (e.1 ≠ 0 ∧ e.2.state = .enabled)).map (·.1)
    let s3 := ts.foldl (fun t k => startDrain k t) s2
    let s4 := if s.pwr.state = .run then s3 else
      let code : PowerState → Nat := fun x => match x with | .run => 0 | .idle => 1 | .standby => 2 | .deep => 3
      raiseIrq pgPwr 4 (event 0x0301 none (le 1 (code s.pwr.state) ++ le 1 0 ++ le 1 4) s3)
    wn Reg.GLB_RST_CAUSE 10 (inc Reg.GLB_WDOG_CNT 1 (raiseAlarm 4 none [1] s4))

def execWdogReset (s : State) : Host.Outcome State Fault Refusal := .next (wdog s)

/-- Resident firmware has reinitialised after an FLR or a WDOG (R532, R533). -/
def firmwareReady (s : State) : State :=
  if clocked s && s.pwr.boot.isNone && !s.sag.halted then { s with fw := { s.fw with ready := true } } else s

def execResidentFirmwareReady (s : State) : Host.Outcome State Fault Refusal := .next (firmwareReady s)

end Sys2Proof.Machine
end

