-- ==== Sys2Proof/Machine/Thermal.lean ====
section
/-! DEFINITION. Thermal sensors, warning, shutdown and analog trip, and the fan channels (spec/24, R548 to R562). -/

namespace Sys2Proof.Machine
open Sys2Proof

/-! ## Fan channels (R557 to R561) -/

/-- A fan channel after reset: OFF. -/
def Fan.init : Fan :=
  { state := 0, attempts := 0, slow := false, since := 0, time := 0x1F414#32, edges := [], lastEdge := none, periods := [],
    auto := 0, lowSince := none, okSince := none, was := 0, wrote := none }

def fan (s : State) (n : Nat) : Fan := tget s.fans Fan.init n

def updFan (n : Nat) (f : Fan → Fan) (s : State) : State := { s with fans := tput s.fans n (f (fan s n)) }

/-- FAN_CFG.MODE. -/
def fanMode (s : State) (n : Nat) : Nat := rf s (Reg.FAN_CFG n) 1 0

/-- The spin-up time and TACH_TMO in force, in fire timebase units (R562: from the state's entry). -/
def Fan.spin (x : Fan) : Nat := bits 7 0 x.time.toNat * 100 * ms
def Fan.tmo (x : Fan) : Nat := bits 23 8 x.time.toNat * ms

/-- The duty of AUTO at a junction temperature in 1/16 °C (R558). -/
def autoDuty (tj : Int) (tLo tHi dLo : Nat) : Nat :=
  if tj ≤ 16 * tLo then dLo
  else if (16 * tHi : Int) ≤ tj then 255
  else dLo + ((255 - dLo) * (tj - 16 * tLo).toNat + 8 * (tHi - tLo)) / (16 * (tHi - tLo))

/-- The duty of AUTO on a channel now. -/
def fanAuto (s : State) (n : Nat) : Nat :=
  autoDuty s.thm.tj (rf s (Reg.FAN_CURVE n) 7 0) (rf s (Reg.FAN_CURVE n) 15 8) (rf s (Reg.FAN_CURVE n) 23 16)

/-- The PWM period of 40 µs that runs (R557). -/
def pwmPeriod40 (s : State) : Nat := s.clock.uptime / (40 * us)

/-- The duty FAN_CFG and the curve ask of a RUNNING channel. -/
def runDuty (s : State) (n : Nat) : Nat := if fanMode s n = 2 then (fan s n).auto else rf s (Reg.FAN_CFG n) 15 8

/-- A write of FAN_CFG or FAN_CURVE begins: the duty before it lasts to the end of the PWM period (R562). -/
def holdDuty (n : Nat) (s : State) : State :=
  if (fan s n).wrote = some (pwmPeriod40 s) then s
  else updFan n (fun y => { y with was := runDuty s n, wrote := some (pwmPeriod40 s) }) s

/-- The duty a channel applies (R552, R559, R562). -/
def fanDuty (s : State) (n : Nat) : Nat :=
  match (fan s n).state with
  | 0 => 0
  | 2 => 0
  | 3 =>
    if s.thm.warn then 255
    else if (fan s n).wrote = some (pwmPeriod40 s) then (fan s n).was
    else runDuty s n
  | _ => 255

/-- Cycles of each 4,000 FANn_PWM is high: throughout while PD_IO is off or held in reset (R557). -/
def pwmHigh (s : State) (n : Nat) : Nat :=
  if s.pwr.state = .deep ∨ s.pwr.boot.isSome ∨ s.thm.shutdown ∨ s.thm.atrip then 4000 else (fanDuty s n * 4000 + 127) / 255

/-- The speed in rpm (R558): 30,000,000 over the mean of the last four periods in µs, 0 until there are four. -/
def Fan.speed (x : Fan) : Nat :=
  if x.periods.length < 4 then 0
  else if x.periods.sum = 0 then 65535
  else min 65535 (30000000 * 4 / x.periods.sum)

/-- The speed against FAN_RPM_MIN: since when it is below, or again at it (R561). -/
def noteSpeed (n : Nat) (s : State) : State :=
  let x := fan s n
  let limit := rf s (Reg.FAN_RPM_MIN n) 15 0
  let low := decide (x.state = 3) && decide (x.speed < limit)
  let u := s.clock.uptime
  updFan n (fun y => { y with
    lowSince := if low then some (y.lowSince.getD u) else none,
    okSince := if y.slow && decide (limit ≤ x.speed) then some (y.okSince.getD u) else none }) s

/-- SLOW clears once the speed has been at FAN_RPM_MIN for a whole TACH_TMO (R561). -/
def endSlow (n : Nat) (s : State) : State :=
  match (fan s n).okSince with
  | some u => if u + (fan s n).tmo ≤ s.clock.uptime then updFan n (fun y => { y with slow := false, okSince := none }) s else s
  | none => s

/-- A channel changes state (R559, R560): FAN_STATE posts, and FAULT and TACH_LOST raise their alarms, whose detail holds the channel
and the attempt count. -/
def setFan (n st : Nat) (s : State) : State :=
  let x := fan s n
  let s1 := updFan n (fun y => { y with
    state := st, since := s.clock.uptime, time := rd s (Reg.FAN_TIME n), edges := [], auto := fanAuto s n,
    slow := y.slow && decide (st ≠ 0) }) s
  let s2 := noteSpeed n (raiseIrq pgFan 7 (event 0x0504 none (le 1 n ++ le 1 x.state ++ le 1 st) s1))
  match st with
  | 4 => raiseIrq pgFan 4 (raiseAlarm 2 none (le 1 n ++ le 4 x.attempts) s2)
  | 5 =>
    let s3 := raiseIrq pgFan 5 (raiseAlarm 3 none (le 1 n ++ le 4 (fanDuty s2 n)) s2)
    { s3 with stk := { s3.stk with alarms := s3.stk.alarms.map fun e =>
        if e.1 = 3 then (e.1, { e.2 with detail := le 1 n ++ le 4 x.attempts }) else e } }
  | _ => s2

/-- A qualified falling edge of the tachometer at instant t (R558 to R561); in mode OFF it is ignored. -/
def tachEdge (n t : Nat) (s0 : State) : State :=
  let s := advanceTo t s0
  let x := fan s n
  let u := s.clock.uptime
  if x.state = 0 then s
  else
    let ps := match x.lastEdge with
      | some v => (((u - v) / us) :: x.periods).take 4
      | none => x.periods
    let s1 := updFan n (fun y => { y with lastEdge := some u, periods := ps, edges := (u :: y.edges).take 256 }) s
    let x1 := fan s1 n
    let need := rf s1 (Reg.FAN_CFG n) 23 16
    let enough := match x1.edges[need - 1]? with
      | some v => decide (u - v ≤ x1.tmo)
      | none => false
    if (x.state = 4 ∨ x.state = 5) ∧ enough = true then setFan n 3 s1
    else endSlow n (noteSpeed n s1)

def execFanTachEdge (fan : Fin 4) (t : DWord) (s : State) : Host.Outcome State Fault Refusal :=
  .next (tachEdge fan.val t.toNat s)

/-- The spin-up ends (R559). -/
def spinupEnd (n t : Nat) (s0 : State) : State :=
  let s := advanceTo t s0
  let x := fan s n
  if x.state = 1 ∧ x.since + x.spin ≤ s.clock.uptime then
    if rf s (Reg.FAN_CFG n) 23 16 ≤ x.edges.length then setFan n 3 s
    else
      let c := x.attempts + 1
      let s1 := raiseIrq pgFan 6 (event 0x0503 none (le 1 n ++ le 4 c ++ le 4 x.edges.length)
        (inc (Reg.FAN_STALL_CNT n) 1 (updFan n (fun y => { y with attempts := c }) s)))
      setFan n (if c ≤ 3 then 2 else 4) s1
  else s

def execFanSpinupEnd (fan : Fin 4) (t : DWord) (s : State) : Host.Outcome State Fault Refusal :=
  .next (spinupEnd fan.val t.toNat s)

/-- The pause of 5 s ends (R559). -/
def pauseEnd (n t : Nat) (s0 : State) : State :=
  let s := advanceTo t s0
  if (fan s n).state = 2 ∧ (fan s n).since + 5000 * ms ≤ s.clock.uptime then setFan n 1 s else s

def execFanPauseEnd (fan : Fin 4) (t : DWord) (s : State) : Host.Outcome State Fault Refusal :=
  .next (pauseEnd fan.val t.toNat s)

/-- No qualified edge for TACH_TMO (R559). -/
def tachTimeout (n t : Nat) (s0 : State) : State :=
  let s := advanceTo t s0
  let x := fan s n
  if x.state = 3 ∧ max x.since (x.lastEdge.getD 0) + x.tmo ≤ s.clock.uptime then setFan n 5 s else s

def execFanTachTimeout (fan : Fin 4) (t : DWord) (s : State) : Host.Outcome State Fault Refusal :=
  .next (tachTimeout fan.val t.toNat s)

/-- Every 100 ms an AUTO channel takes its duty from Tj (R558). -/
def fanAutoUpdate (n : Nat) (s : State) : State :=
  if fanMode s n = 2 then updFan n (fun y => { y with auto := fanAuto s n }) s else s

def execFanAutoUpdate (fan : Fin 4) (s : State) : Host.Outcome State Fault Refusal := .next (fanAutoUpdate fan.val s)

/-- A RUNNING fan has stayed below FAN_RPM_MIN for a whole TACH_TMO (R561). -/
def fanSlow (n t : Nat) (s0 : State) : State :=
  let s := noteSpeed n (advanceTo t s0)
  let x := fan s n
  match x.lowSince with
  | some u =>
    if x.slow = false ∧ u + x.tmo ≤ s.clock.uptime then
      event 0x0505 none (le 1 n ++ le 4 x.speed) (updFan n (fun y => { y with slow := true, okSince := none }) s)
    else s
  | none => s

def execFanSlow (fan : Fin 4) (t : DWord) (s : State) : Host.Outcome State Fault Refusal :=
  .next (fanSlow fan.val t.toNat s)

/-- A write of FAN_CFG: MODE leaving OFF starts SPINUP, MODE OFF ends every state (R559). -/
def fanCfgWrite (n : Nat) (v : Word) (s : State) : State :=
  let old := fanMode s n
  let s1 := plainPut (Reg.FAN_CFG n) v (holdDuty n s)
  let new := fanMode s1 n
  if old = 0 ∧ new ≠ 0 then setFan n 1 (updFan n (fun y => { y with attempts := 0 }) s1)
  else if new = 0 ∧ (fan s1 n).state ≠ 0 then setFan n 0 s1
  else updFan n (fun y => { y with auto := if old = 2 then y.auto else fanAuto s1 n }) s1

def execFanModeWrite (ini : Initiator) (fan : Fin 4) (val : Word) (s : State) : Host.Outcome State Fault Refusal :=
  .next (guardWrite ini (Reg.FAN_CFG fan.val) allBytes val (fanCfgWrite fan.val) s)

/-- A write of FAN_CURVE: T_HI lies above T_LO, and the curve applies at the next PWM period (R562). -/
def fanCurveWrite (n : Nat) (v : Word) (s : State) : State :=
  if bits 15 8 v.toNat ≤ bits 7 0 v.toNat then recordErr pgFan 0x05 s
  else fanAutoUpdate n (plainPut (Reg.FAN_CURVE n) v (holdDuty n s))

/-- FAN_PG_CTRL.SRST returns every channel to OFF (R562). -/
def fansOff (s : State) : State :=
  (List.range 4).foldl (fun t n =>
    let u := wf (Reg.FAN_CFG n) 1 0 0 t
    if (fan u n).state = 0 then u else setFan n 0 u) s

/-! ## Sensors (R548, R549) -/

/-- Sensors sampled and valid. -/
def validSensors (s : State) : Tab Sensor := s.thm.sensors.filter fun e => e.2.valid

/-- Sensors sampled and invalid. -/
def invalidCount (s : State) : Nat := (s.thm.sensors.filter fun e => !e.2.valid).length

/-- The highest valid reading and its sensor. -/
def hottest (s : State) : Option (Int × Nat) :=
  (validSensors s).foldl (fun m e => match m with
    | some (r, _) => if r < e.2.reading then some (e.2.reading, e.1) else m
    | none => some (e.2.reading, e.1)) none

/-- Tj and its sensor as an event carries them. -/
def tjBytes (s : State) : List Byte := le 4 (unsigned 32 s.thm.tj) ++ le 1 s.thm.hottest

/-- Tj in force, THM_MAX, and how long Tj has been below 115 °C (R549, R554). -/
def takeTj (s : State) : State :=
  match hottest s with
  | some (r, k) =>
    let m := signed 16 (rn s Reg.THM_MAX)
    let cool := if r < 115 * 16 then some (s.thm.coolSince.getD s.clock.uptime) else none
    wn Reg.THM_MAX (unsigned 16 (if s.thm.maxFresh then r else max m r))
      { s with thm := { s.thm with tj := r, hottest := k, maxFresh := false, coolSince := cool } }
  | none => { s with thm := { s.thm with coolSince := none } }

/-- The CK_AON cycle of 40 ns. -/
def aonCycle (s : State) : Nat := s.clock.uptime / 1024

/-- A write of THM_WARN_THR begins: one in the cycle of a sample counts after the sample (R550). -/
def holdThr (s : State) : State :=
  if s.thm.thrAt = some (aonCycle s) then s
  else { s with thm := { s.thm with thrWas := rd s Reg.THM_WARN_THR, thrAt := some (aonCycle s) } }

/-- THM_WARN_THR as a sample now compares with it. -/
def warnThr (s : State) : Nat :=
  if s.thm.thrAt = some (aonCycle s) then s.thm.thrWas.toNat else rn s Reg.THM_WARN_THR

/-- The warning state (R549, R552). -/
def warning (s : State) : State :=
  let few := decide (4 < invalidCount s)
  let thr : Int := 16 * bits 7 0 (warnThr s)
  let hyst : Int := 16 * bits 19 16 (warnThr s)
  if !s.thm.warn && (few || decide (thr ≤ s.thm.tj)) then
    raiseIrq pgThm 4 (raiseAlarm 0 none (tjBytes s)
      (inc Reg.THM_WARN_CNT 1 { s with thm := { s.thm with warn := true } }))
  else if s.thm.warn && !few && decide (s.thm.tj < thr - hyst) then
    raiseIrq pgThm 5 (event 0x0403 none (le 4 (unsigned 32 s.thm.tj)) { s with thm := { s.thm with warn := false } })
  else s

/-- The shutdown (R553): outputs forced, the alarm in the always-on domain, clocks stopped, Crock's grace window open. -/
def shutdown (s : State) : State :=
  let s1 := raiseAlarm 1 none (tjBytes s) (wr Reg.THM_STAT (rd s Reg.THM_STAT ||| 2#32) s)
  let s2 := haltUnits (graceStart s1)
  { s2 with thm := { s2.thm with shutdown := true } }

/-- A sensor is read at instant t (R548 to R553). `good` says that its self-check passes. -/
def sensorSample (k : Nat) (raw : BitVec 16) (good : Bool) (t : Nat) (s0 : State) : State :=
  if s0.thm.atrip then s0
  else
    let s := advanceTo t s0
    let r := raw.toInt
    let v := good && decide (-55 * 16 ≤ r ∧ r ≤ 150 * 16)
    let old := tfind s.thm.sensors k
    let hot := if v && decide (125 * 16 ≤ r) then (match old with | some x => x.hot | none => 0) + 1 else 0
    let s1 := { s with thm := { s.thm with sensors := tput s.thm.sensors k ⟨r, v, min 2 hot⟩ } }
    let s2 := match old with
      | some x => if x.valid = v then s1 else
          raiseIrq pgThm 6 (event 0x0404 none (le 1 k ++ le 1 (if v then 1 else 0) ++ le 4 (unsigned 32 r)) s1)
      | none => s1
    let s3 := takeTj s2
    if s.thm.shutdown then s3
    else
      let s4 := warning s3
      if 2 ≤ hot ∨ invalidCount s4 = 16 then shutdown s4 else s4

def execThmSensorSample (sensor : Fin 16) (reading : BitVec 16) (good : Bool) (t : DWord) (s : State) :
    Host.Outcome State Fault Refusal :=
  .next (sensorSample sensor.val reading good t.toNat s)

/-- A 135 °C comparator sets the analog trip latch (R555). -/
def analogTrip (s : State) : State :=
  if s.thm.atrip then s
  else
    let s1 := haltUnits (crkLose (crkInterrupt true (wr Reg.THM_STAT (rd s Reg.THM_STAT ||| 4#32) s)))
    { s1 with thm := { s1.thm with atrip := true, shutdown := false } }

def execAnalogTrip (s : State) : Host.Outcome State Fault Refusal := .next (analogTrip s)

/-- Tj has been below 115 °C for 1 s: the boot that follows a shutdown leaves step 1 (R554). -/
def holdRelease (t : Nat) (s0 : State) : State :=
  let s := advanceTo t s0
  match s.thm.coolSince with
  | some u =>
    if s.thm.shutdown ∧ s.pwr.boot.isSome ∧ u + 1000 * ms ≤ s.clock.uptime then
      { s with thm := { s.thm with shutdown := false } }
    else s
  | none => s

def execShutdownHoldRelease (t : DWord) (s : State) : Host.Outcome State Fault Refusal := .next (holdRelease t.toNat s)

/-- THERM_TRIP_N is low (R556). -/
def thermTripLow (s : State) : Bool := s.thm.shutdown || s.thm.atrip

end Sys2Proof.Machine
end

