-- ==== Sys2Proof/Machine/Servo.lean ====
section
/-! DEFINITION. Press time's servo, its host applies and its timers (spec/17, R432 to R438). -/

namespace Sys2Proof.Machine
open Sys2Proof

/-! ## Measurements (R436 to R438) -/

/-- TIM_CTRL.SRC. -/
def timSrc (s : State) : Nat := rf s Reg.TIM_CTRL 1 0

/-- Press time in 1/256 ns. -/
def pressFine (s : State) : Int := ((s.clock.sec.toNat * 1000000000 + s.clock.ns) * 256 + s.clock.frac / 2 ^ 40 : Nat)

/-- Press time moves by an amount in 1/256 ns; the hidden bits stay. -/
def pressAdd (e : Int) (s : State) : State :=
  let u : Int := (s.clock.sec.toNat * secUnits + s.clock.units : Nat) + e * 2 ^ 40
  let v := (u % (2 ^ 32 * secUnits : Nat)).toNat
  { s with clock := { s.clock.withUnits (v % secUnits) with sec := BitVec.ofNat 32 (v / secUnits) } }

/-- LOCKED changes, with TIM_LOCK. -/
def setLocked (b : Bool) (s : State) : State :=
  if s.clock.locked = b then s
  else raiseIrq pgTim 5 (event 0x0602 none (le 1 (if b then 1 else 0) ++ le 4 (rn s Reg.TIM_ERR))
    { s with clock := { s.clock with locked := b } })

/-- HOLDOVER changes, with TIM_HOLDOVER; entering it ends the slew and clears LOCKED (R438, R437). -/
def setHoldover (b : Bool) (s : State) : State :=
  if s.clock.holdover = b then s
  else
    let s1 := raiseIrq pgTim 6 (event 0x0603 none (le 1 (if b then 1 else 0) ++ le 4 (timSrc s))
      { s with clock := { s.clock with holdover := b } })
    if b then setLocked false { s1 with clock := { s1.clock with slew := 0, slewLeft := 0 } } else s1

/-- An expected measurement fails; the third in a row enters holdover (R438). -/
def measureFails (s : State) : State :=
  let n := min 3 (s.clock.missRun + 1)
  let s1 := { s with clock := { s.clock with missRun := n } }
  if n = 3 then setHoldover true s1 else s1

/-- Counts toward and against LOCKED after a measurement that was no step (R437). -/
def lockRun (e : Int) (s : State) : State :=
  let c := s.clock
  if e.natAbs ≤ rn s Reg.TIM_LOCK_THR * 256 then
    let s1 := { s with clock := { c with goodRun := min 16 (c.goodRun + 1), badRun := 0 } }
    if 16 ≤ c.goodRun + 1 then setLocked true s1 else s1
  else
    let s1 := { s with clock := { c with goodRun := 0, badRun := min 4 (c.badRun + 1) } }
    if 4 ≤ c.badRun + 1 then setLocked false s1 else s1

/-- The servo acts on a measurement e in 1/256 ns over an interval of n cycles (R437). -/
def measure (e : Int) (n : Nat) (s : State) : State :=
  let ns := satS 32 (divZ e 256)
  let s0 := setHoldover false { s with clock := { s.clock with missRun := 0 } }
  let s1 := inc Reg.TIM_MEAS_CNT 1 (wn Reg.TIM_ERR (unsigned 32 ns) s0)
  if s1.clock.first ∨ rn s1 Reg.TIM_STEP_THR * 256 < e.natAbs then
    let s2 := pressAdd e s1
    let c := s2.clock
    let s3 := { s2 with clock := { c with slew := 0, slewLeft := 0, valid := true, first := false, goodRun := 0, badRun := 0 } }
    setLocked false (raiseIrq pgTim 4 (event 0x0601 none (le 4 (timSrc s) ++ le 4 (unsigned 32 ns)) (inc Reg.TIM_STEP_CNT 1 s3)))
  else
    let rate := satS 32 (signed 32 (rn s1 Reg.TIM_RATE) + divZ (e * 2 ^ 40) (5120 * n : Nat))
    let slew := satS 32 (divZ (e * 2 ^ 40) (1280 * n : Nat))
    let s2 := wn Reg.TIM_RATE (unsigned 32 rate) s1
    lockRun e { s2 with clock := { s2.clock with slew := slew, slewLeft := if slew = 0 then 0 else n } }

/-- A PTM result: the root time at the local instant it refers to, which is now (R84, R436). A result no request waits for, or
while another source is chosen, measures nothing. -/
def ptmMeasurement (sec : Word) (ns frac : Nat) (s : State) : State :=
  if s.hif.ptmOut then
    let s1 := { s with hif := { s.hif with ptmOut := false } }
    if timSrc s1 = 1 then
      let root : Int := ((sec.toNat * 1000000000 + ns) * 256 + frac : Nat)
      measure (root + signed 64 (rn64 s1 Reg.TIM_PTM_OFS) * 256 - pressFine s1) (rf s1 Reg.HIF_PTM_PERIOD 7 0 * 800000) s1
    else s1
  else s

def execTimPtmMeasurement (sec : Word) (ns : BitVec 30) (frac : BitVec 8) (s : State) : Host.Outcome State Fault Refusal :=
  .next (ptmMeasurement sec ns.toNat frac.toNat s)

/-! ## Applies (R435) -/

/-- A write of TIM_WR_CTRL: NOW, then AT_SEC, then CANCEL (R435). -/
def timWrCtrl (v : Word) (s : State) : State :=
  let set := fun (b : Bool) (t : State) => { t with clock := { t.clock with atSec := b } }
  let owned := decide (timSrc s ≠ 0)
  let s1 :=
    if v.toNat % 4 = 0 then s
    else if owned then recordErr pgTim 0x40 s
    else
      let t := if v.toNat % 2 = 1 then applyStaged 0 s else s
      if v.toNat / 2 % 2 = 1 then set true t else t
  if v.toNat / 4 % 2 = 1 then set false s1 else s1

/-- A write of TIM_WR_CTRL with its checks. -/
def timWrWrite (ini : Initiator) (val : Word) (s : State) : State := guardWrite ini Reg.TIM_WR_CTRL allBytes val timWrCtrl s

def execTimWriteNow (ini : Initiator) (val : Word) (s : State) : Host.Outcome State Fault Refusal :=
  .next (timWrWrite ini val s)

def execTimWriteAtSec (ini : Initiator) (val : Word) (s : State) : Host.Outcome State Fault Refusal :=
  .next (timWrWrite ini val s)

def execTimWriteCancel (ini : Initiator) (val : Word) (s : State) : Host.Outcome State Fault Refusal :=
  .next (timWrWrite ini val s)

/-- A write of TIM_CTRL: the next measurement is the first of its source, TIM_RATE stays and the slew ends (R437, R438). -/
def timCtrl (v : Word) (s : State) : State :=
  let s1 := plainPut Reg.TIM_CTRL v s
  { s1 with clock := { s1.clock with slew := 0, slewLeft := 0, first := true, missRun := 0 } }

def execTimSrcWrite (ini : Initiator) (val : Word) (s : State) : Host.Outcome State Fault Refusal :=
  .next (guardWrite ini Reg.TIM_CTRL allBytes val timCtrl s)

/-- A write of TIM_RATE is refused while a source is chosen (R435). -/
def timRateWrite (v : Word) (s : State) : State :=
  if timSrc s = 0 then plainPut Reg.TIM_RATE v s else recordErr pgTim 0x40 s

/-! ## Roll-over and the end of a slew (R432, R437) -/

/-- ceil(a ÷ b). -/
def ceilDiv (a b : Nat) : Nat := (a + b - 1) / b

/-- The cycles until nanoseconds reach 10^9. -/
def cyclesToSecond (s : State) : Nat :=
  let rem := secUnits - s.clock.units
  let a := rateUnits s s.clock.slew
  let b := rateUnits s 0
  let m := ceilDiv rem a
  if m ≤ s.clock.slewLeft then m else s.clock.slewLeft + ceilDiv (rem - s.clock.slewLeft * a) b

/-- Time goes on by whole cycles of CK_FIRE. -/
def advanceCycles (n : Nat) (s : State) : State := advanceTo ((now s / fireCycle + n) * fireCycle) s

/-- Time goes on to the next roll-over: seconds advance, and a pending AT_SEC applies (R432, R435). -/
def execTimSecondRollover (s : State) : Host.Outcome State Fault Refusal := .next (advanceCycles (cyclesToSecond s) s)

/-- Time goes on to the end of the slew, which returns to 0 (R437). -/
def execTimSlewEnd (s : State) : Host.Outcome State Fault Refusal := .next (advanceCycles s.clock.slewLeft s)

end Sys2Proof.Machine
end

