-- ==== Sys2Proof/Machine/Tramline.lean ====
section
/-! DEFINITION. Tramline: roles, bursts, alignment, muting, the two buses, and pace and time over it (spec/17, R414 to R431). -/

namespace Sys2Proof.Machine
open Sys2Proof

/-! ## Bursts (R419, R420) -/

/-- The bits of a byte, least significant first. -/
def byteBits (b : Byte) : List Bool := (List.range 8).map fun i => b.getLsbD i

/-- Eight bits to a byte, least significant first. -/
def bitsByte (l : List Bool) : Byte := BitVec.ofNat 8 ((l.zipIdx.map fun q => if q.1 then 2 ^ q.2 else 0).sum)

/-- Bits to bytes, with fuel. -/
def bitsBytes : Nat → List Bool → List Byte
  | 0, _ => []
  | n + 1, l => bitsByte (l.take 8) :: bitsBytes n (l.drop 8)

/-- The additive scrambler x^7 + x^6 + 1 from a state; it undoes itself. -/
def trmScramble : Nat → List Bool → List Bool
  | _, [] => []
  | t, b :: r =>
    let o := (t / 64 + t / 32) % 2
    (b != decide (o = 1)) :: trmScramble ((2 * t + o) % 128) r

/-- The CRC of header and payload. -/
def trmCrc (bs : List Byte) : Nat := crcMsb 16 0x1021 0xFFFF bs

/-- A burst on the bus: preamble, sync word, scrambled header and payload, CRC with bit 15 first. -/
def trmBurst (body : List Byte) : List Byte :=
  [0x55#8, 0x8E#8, 0xB3#8] ++ bitsBytes body.length (trmScramble 0x7F (body.flatMap byteBits)) ++
    bitsBytes 2 ((List.range 16).map fun i => trmCrc body / 2 ^ (15 - i) % 2 = 1)

/-- The header and payload of a received burst of n bytes of both, when its sync word is exact and its CRC valid. -/
def trmOpen (n : Nat) (burst : List Byte) : Option (List Byte) :=
  let body := bitsBytes n (trmScramble 0x7F ((slice burst 3 (3 + n)).flatMap byteBits))
  if burst.length = n + 5 ∧ slice burst 1 3 = [0x8E#8, 0xB3#8] ∧
      bitsBytes 2 ((List.range 16).map fun i => decide (trmCrc body / 2 ^ (15 - i) % 2 = 1)) = burst.drop (n + 3) then some body
  else none

/-- A good beacon's header and payload: TYPE 0 and reserved bits 0 (R420). -/
def goodBeacon (burst : List Byte) : Option (List Byte) :=
  match trmOpen 48 burst with
  | some b =>
    let p := b.drop 2
    if (b.getD 0 0).toNat < 16 ∧ b.getD 1 0 = 0#8 ∧ leAt p 8 4 < 2 ^ 30 ∧ (p.getD 13 0).toNat < 8 ∧ leAt p 14 2 % 2 = 0 ∧
        (p.getD 16 0).toNat < 16 ∧ p.getD 17 0 = 0#8 ∧ (p.getD 42 0).toNat < 16 ∧ allZero (slice p 43 46) = true then some b
    else none
  | none => none

/-- A good follower burst of a slot: TYPE 1, its chip owns the slot, its frame byte matches, reserved bits 0 (R420). -/
def goodFollower (chip slot frame : Nat) (burst : List Byte) : Option (List Byte) :=
  match trmOpen 6 burst with
  | some b =>
    if (b.getD 0 0).toNat = (chip + slot) % 16 + 16 ∧ (b.getD 1 0).toNat = frame % 256 ∧ (b.getD 2 0).toNat < 16 ∧
        b.getD 3 0 = 0#8 then some b
    else none
  | none => none

/-! ## Roles and states (R415, R416) -/

def busOn (s : State) (b : Bool) : Bool := rbit s Reg.TRM_CTRL (if b then 3 else 2)

/-- The node's slot (R417). -/
def trmSlot (s : State) : Nat := (chipNumber s + 16 - s.trm.chip % 16) % 16

def TrmState.code : TrmState → Nat
  | .off => 0 | .listen => 1 | .muted => 2 | .active => 3 | .leader => 4 | .conflict => 5 | .claiming => 6

/-- The node changes state (TRM_STATE); outside OFF, CLAIMING and LEADER no line of its own is driven. -/
def setTrm (st : TrmState) (s : State) : State :=
  let old := s.trm.state
  if old = st then s
  else raiseIrq pgTrm 4 (event 0x7001 none (le 1 old.code ++ le 1 st.code ++ le 4 (rn s Reg.TRM_FRAME))
    { s with trm := { s.trm with state := st } })

/-- The node forgets its alignment. -/
def loseBeacons (s : State) : State :=
  { s with trm := { s.trm with
    arriveA := none, arriveB := none, predA := none, predB := none, goodRun := 0, selFail := 0, sent := true } }

/-- CONFLICT, with its alarm: cause 0 the line was low at a claim, 1 a foreign beacon (R416). -/
def trmConflict (cause : Nat) (s : State) : State :=
  raiseIrq pgTrm 8 (raiseAlarm 16 none (le 1 cause) (setTrm .conflict s))

/-- The node goes to OFF and releases the line. -/
def trmOff (s : State) : State :=
  let s1 := setTrm .off (loseBeacons s)
  { s1 with trm := { s1.trm with missRun := 0, edges := [], mutes := [], seen := [], known := [], reported := 0 } }

/-- A write of TRM_CTRL; a change of ROLE but to 0 needs state OFF (R415 to R417, R427). -/
def trmCtrl (v : Word) (s : State) : State :=
  let role := v.toNat % 4
  if role ≠ 0 ∧ role ≠ rf s Reg.TRM_CTRL 1 0 ∧ s.trm.state ≠ .off then recordErr pgTrm 0x40 s
  else
    let s1 := plainPut Reg.TRM_CTRL v s
    if role = 0 then trmOff s1
    else if s1.trm.state ≠ .off then s1
    else
      let s2 := loseBeacons { s1 with trm := { s1.trm with bus := rbit s1 Reg.TRM_CTRL 4, missRun := 0, slotTold := false } }
      if role = 1 then setTrm .listen s2
      else
        let s3 := setTrm .claiming { s2 with trm := { s2.trm with claimAt := now s2, chip := chipNumber s2 } }
        if s3.trm.lineLow then trmConflict 0 s3 else s3

def trmCtrlWrite (ini : Initiator) (val : Word) (s : State) : State := guardWrite ini Reg.TRM_CTRL allBytes val trmCtrl s

def execTrmRoleOff (ini : Initiator) (val : Word) (s : State) : Host.Outcome State Fault Refusal :=
  .next (trmCtrlWrite ini val s)

def execTrmRoleFollower (ini : Initiator) (val : Word) (s : State) : Host.Outcome State Fault Refusal :=
  .next (trmCtrlWrite ini val s)

def execTrmRoleLeader (ini : Initiator) (val : Word) (s : State) : Host.Outcome State Fault Refusal :=
  .next (trmCtrlWrite ini val s)

/-- TRAM_LEAD_N is pulled low, or released, by another node; low during a claim it is a conflict (R416). -/
def leadLine (low : Bool) (s : State) : State :=
  let s1 := { s with trm := { s.trm with lineLow := low } }
  if low ∧ s1.trm.state = .claiming then trmConflict 0 s1 else s1

def execTrmLeadLineLow (low : Bool) (s : State) : Host.Outcome State Fault Refusal := .next (leadLine low s)

/-! ## The leader (R418, R421, R423) -/

/-- 8 µs in fire timebase units. -/
def trmFrameUnits : Nat := 204800

/-- A slot's offset on a bus in 16 bits, or 0x8000 when none was measured. -/
def ofsWord (o : Option Int) : Nat := match o with | some x => unsigned 16 (satS 16 x) | none => 0x8000

/-- A bit mask of slots. -/
def slotMask (l : List Nat) : Nat := (l.eraseDups.map fun i => 2 ^ i).sum

/-- Slots become STALE. -/
def markStale (l : List Nat) (s : State) : State :=
  l.foldl (fun t i => wf Reg.TRM_STALE i i 1 (wf (wkey Reg.TRM_NODE_STAT i) 8 8 1 t)) s

/-- The slot the next beacon reports: the lowest with a SLOT_EDGE not reported, else the next with a good burst (R423). -/
def reportSlot (s : State) : Nat :=
  match (List.range 16).find? fun i => s.trm.edges.contains i with
  | some i => i
  | none =>
    let order := (List.range 16).map fun i => (s.trm.reported + 1 + i) % 16
    (order.find? fun i => decide (i ≠ 0) && s.trm.seen.contains i).getD 0

/-- A pace of the beacon: net steps and age of a leader channel of source 1, 2 or 3 (R421). -/
def beaconPace (s : State) (k t : Nat) : Bool × Nat × Nat :=
  if 1 ≤ pcSrc s k ∧ pcSrc s k ≤ 3 then
    (true, rn s (Reg.KLN_PC_STEPS k), match (channel s k).lastEdge with | some e => min 0xFFFFFFFF (t - e) | none => 0xFFFFFFFF)
  else (false, 0, 0)

/-- The header and payload of the leader's beacon that leaves at t. -/
def beaconBody (s : State) (t : Nat) : List Byte :=
  let p0 := beaconPace s (rf s Reg.TRM_CTRL 13 12) t
  let p1 := beaconPace s (rf s Reg.TRM_CTRL 15 14) t
  let b := fun (x : Bool) (n : Nat) => if x then 2 ^ n else 0
  let rep := reportSlot s
  let line := rf s Reg.TRM_CTRL 11 8
  le 1 (chipNumber s) ++ le 1 0 ++ le 4 s.trm.frame ++ le 4 s.clock.sec.toNat ++ le 4 s.clock.ns ++ le 1 (s.clock.frac / 2 ^ 40) ++
    le 1 (b s.clock.valid 0 + b p0.1 1 + b p1.1 2) ++ le 2 (slotMask s.trm.mutes) ++ le 1 rep ++ le 1 0 ++
    le 4 (if rep = 0 then 0x80008000 else rn s (wkey Reg.TRM_NODE_OFS rep)) ++
    le 4 p0.2.1 ++ le 4 p0.2.2 ++ le 4 p1.2.1 ++ le 4 p1.2.2 ++ le 4 (plane s line).runline.toNat ++ le 1 line ++ le 3 0

/-- A burst leaves on the enabled buses at an instant of each. -/
def sendBurst (at0 at1 : Nat) (body : List Byte) (s : State) : State :=
  let s1 := if busOn s false then emit (.burst 0 at0 (trmBurst body)) s else s
  if busOn s true then emit (.burst 1 at1 (trmBurst body)) s1 else s1

/-- The leader's beacon leaves at t: the frame before it ends, and slots with no good burst in it are STALE (R418, R427). -/
def beaconAt (t : Nat) (s0 : State) : State :=
  let s := advanceTo t s0
  let x := s.trm
  let absent := (List.range 16).filter fun i => decide (i ≠ 0) && !x.seen.contains i
  let body := beaconBody s t
  let rep := reportSlot s
  let s1 := sendBurst t t body (wn Reg.TRM_MUTE (slotMask x.mutes) (markStale absent s))
  { s1 with trm := { s1.trm with
    frame := (x.frame + 1) % 2 ^ 32, frameAt := t, mutes := [], seen := [], edges := x.edges.filter (· ≠ rep),
    reported := if rep = 0 then x.reported else rep } }

/-- The leader sends its next beacon, one frame after the latest (R418). -/
def execTrmBeaconSend (s : State) : Host.Outcome State Fault Refusal :=
  .next (if s.trm.state = .leader then beaconAt (s.trm.frameAt + trmFrameUnits) s else s)

/-- The line has stayed high for 32 µs: LEADER, and beacon frame 0 at once (R416). -/
def claimTimer (t : Nat) (s : State) : State :=
  if s.trm.state = .claiming ∧ s.trm.lineLow = false ∧ (busOn s false || busOn s true) ∧ s.trm.claimAt + 32 * us ≤ t then
    let s1 := setTrm .leader (advanceTo t s)
    beaconAt t { s1 with trm := { s1.trm with
      frame := 0, edges := [], mutes := [], seen := List.range 16, known := [], reported := 0 } }
  else s

def execTrmClaimTimer (t : DWord) (s : State) : Host.Outcome State Fault Refusal := .next (claimTimer t.toNat s)

/-- The nominal start of a slot, in bit times of the frame (R418). -/
def slotBit (i : Nat) : Nat := 440 + 104 * (i - 1)

/-- The offset of a burst that arrived at r from its slot's nominal start, in 1/64 bit time. -/
def slotOffset (s : State) (i r : Nat) : Int := divF (((r : Int) - s.trm.frameAt) * 5) 8 - slotBit i * 64

/-- The leader judges a slot's offset on a bus (R423): SLOT_EDGE beyond 4 bit times, MUTE beyond 8. -/
def judge (i bus : Nat) (o : Int) (s : State) : State :=
  let pay := le 1 i ++ le 1 bus ++ le 4 (unsigned 32 o)
  let s1 := if 256 < o.natAbs then
      raiseIrq pgTrm 5 (event 0x7002 none pay (inc Reg.TRM_SLOT_EDGE_CNT 1
        { s with trm := { s.trm with edges := if i ∈ s.trm.edges then s.trm.edges else i :: s.trm.edges } }))
    else s
  if 512 < o.natAbs ∧ i ∉ s1.trm.mutes then
    raiseIrq pgTrm 6 (event 0x7003 none pay (inc Reg.TRM_MUTE_CNT 1 { s1 with trm := { s1.trm with mutes := i :: s1.trm.mutes } }))
  else s1

/-- A node's good burst: its chip, payload and rate; STALE clears unless the frame's beacon muted it (R425). -/
def takeNode (i : Nat) (b : List Byte) (s : State) : State :=
  let stale := rbit s Reg.TRM_MUTE i
  let s1 := wn (wkey Reg.TRM_NODE_RATE i) (leAt b 4 2)
    (wn (wkey Reg.TRM_NODE_STAT i) ((b.getD 0 0).toNat % 16 + (if stale then 256 else 0) + 65536 * (b.getD 2 0).toNat) s)
  let s2 := wf Reg.TRM_STALE i i (if stale then 1 else 0) s1
  { s2 with trm := { s2.trm with known := if i ∈ s2.trm.known then s2.trm.known else i :: s2.trm.known } }

/-- What the buses delivered of one burst: the pick of the selected bus, or of the other with a substitution (R427). -/
def pickBus {α : Type} (s : State) (a b : Option α) : Option (α × Bool × Bool) :=
  let sel := if s.trm.bus then b else a
  let oth := if s.trm.bus then a else b
  match sel, oth with
  | some x, _ => some (x, s.trm.bus, false)
  | none, some y => some (y, !s.trm.bus, true)
  | none, none => none

/-- Count a burst that came and was not good. -/
def countBad (burst : List Byte) (good : Bool) (s : State) : State :=
  if burst = [] ∨ good then s else inc Reg.TRM_CRC_CNT 1 s

/-- The bursts of slot i on the two buses, with their arrivals; an empty one did not come (R420, R423, R425, R427). -/
def followerBurst (i : Nat) (a b : List Byte) (ra rb : Nat) (s : State) : State :=
  let x := s.trm
  let lead := decide (x.state = .leader)
  if i = 0 ∨ !(lead || decide (x.state = .listen ∨ x.state = .muted ∨ x.state = .active)) then s
  else
    let frame := if lead then x.frame + 2 ^ 32 - 1 else rn s Reg.TRM_FRAME
    let chip := if lead then chipNumber s else x.chip
    let ga := if busOn s false then goodFollower chip i frame a else none
    let gb := if busOn s true then goodFollower chip i frame b else none
    let s0 := if a = [] ∧ b = [] then s else advanceTo (min (if a = [] then rb else ra) (if b = [] then ra else rb)) s
    let s1 := countBad (if busOn s true then b else []) gb.isSome (countBad (if busOn s false then a else []) ga.isSome s0)
    let oa := ga.map fun _ => slotOffset s i ra
    let ob := gb.map fun _ => slotOffset s i rb
    let s2 := if lead then
        let t := wn (wkey Reg.TRM_NODE_OFS i) (ofsWord oa + 65536 * ofsWord ob) s1
        let t1 := match oa with | some o => judge i 0 o t | none => t
        match ob with | some o => judge i 1 o t1 | none => t1
      else s1
    match pickBus s2 ga gb with
    | some (p, _, sub) =>
      let s3 := if sub then inc Reg.TRM_SWITCH_CNT 1 s2 else s2
      let s4 := { s3 with trm := { s3.trm with seen := if i ∈ s3.trm.seen then s3.trm.seen else i :: s3.trm.seen } }
      if lead ∧ i ∈ s4.trm.mutes then markStale [i] s4 else takeNode i p s4
    | none => markStale [i] s2

def execTrmFollowerBurstReceive (slot : Fin 16) (a b : List Byte) (ra rb : DWord) (s : State) :
    Host.Outcome State Fault Refusal :=
  .next (followerBurst slot.val a b ra.toNat rb.toNat s)

/-- The press rate the leader reports: the least of its own and of the followers whose data is not STALE, and whose it is; ties
go to the leader and then to the lower slot (R431). -/
def pressRate (s : State) : Nat × Nat :=
  ((List.range 16).filter fun i => s.trm.known.contains i && !rbit s Reg.TRM_STALE i).foldl (fun b i =>
    let r := 16 * rf s (wkey Reg.TRM_NODE_RATE i) 15 0
    if r < b.1 then (r, rf s (wkey Reg.TRM_NODE_STAT i) 3 0) else b) (rn s Reg.KLN_SUST_RATE, chipNumber s)

/-! ## The follower (R422, R424, R425) -/

/-- The transmit advance of a bus in 1/64 bit time. -/
def advReg (b : Bool) : Nat := if b then Reg.TRM_TX_ADV_B else Reg.TRM_TX_ADV_A
def adv (s : State) (b : Bool) : Int := signed 16 (rf s (advReg b) 15 0)

/-- Add to a transmit advance, within its 16 bits. -/
def advAdd (b : Bool) (d : Int) (s : State) : State := wn (advReg b) (unsigned 16 (satS 16 (adv s b + d))) s

/-- The one-way delay of a bus in fire timebase units. -/
def oneWay (s : State) (b : Bool) : Int := divF (adv s b * 4) 5

/-- A frame in local units: corrected by TIM_RATE while Tramline is the time source. -/
def frameLocal (s : State) : Int :=
  if timSrc s = 2 then trmFrameUnits - divF (trmFrameUnits * signed 32 (rn s Reg.TIM_RATE)) (2 ^ 40) else trmFrameUnits

/-- The measured offset of an arrival from its prediction, in 1/64 bit time. -/
def beaconDelta (pred : Option Nat) (r : Nat) : Option Int := pred.map fun p => divZ (((r : Int) - p) * 5) 8

/-- A good beacon on one bus: its offset may move the advance, and it sets the arrival and the next prediction. -/
def alignBus (b : Bool) (r : Nat) (s : State) : State :=
  let d := beaconDelta (if b then s.trm.predB else s.trm.predA) r
  let s1 := match d with | some x => if 64 ≤ x.natAbs then advAdd b (2 * x) s else s | none => s
  let p := ((r : Int) + frameLocal s).toNat
  { s1 with trm := if b then { s1.trm with arriveB := some r, predB := some p } else { s1.trm with arriveA := some r, predA := some p } }

/-- The report of the node's own slot moves its advances (R424). -/
def takeReport (p : List Byte) (s : State) : State :=
  let put := fun (b : Bool) (w : Nat) (t : State) =>
    if w = 0x8000 then t
    else
      let o := signed 16 w
      advAdd b (if 256 < o.natAbs then o else divZ o 4) t
  if (p.getD 16 0).toNat = trmSlot s ∧ trmSlot s ≠ 0 then put true (leAt p 20 2) (put false (leAt p 18 2) s) else s

/-- A pace event of a channel of source 5 (R428). -/
def beaconStep (p : List Byte) (k : Nat) (r : Nat) (b : Bool) (s : State) : State :=
  let n := pcSub s k
  let count := leAt p (if n = 0 then 22 else 30) 4
  let age := leAt p (if n = 0 then 26 else 34) 4
  if pcSrc s k = 5 ∧ n ≤ 1 ∧ (p.getD 13 0).toNat / 2 ^ (n + 1) % 2 = 1 ∧ age ≠ 0xFFFFFFFF then
    if k ∉ s.trm.synced then
      let s1 := updChannel k (fun c => { c with netSteps := signed 32 count }) { s with trm := { s.trm with synced := k :: s.trm.synced } }
      wn (Reg.KLN_PC_STEPS k) count s1
    else
      let d := signed 32 (unsigned 32 (count - (channel s k).netSteps))
      if d = 0 then s else paceStep k ((r : Int) - oneWay s b - age).toNat d false s
  else s

/-- The beacon's time is a measurement while Tramline is the source (R436). -/
def beaconTime (p : List Byte) (r : Nat) (b : Bool) (s : State) : State :=
  if timSrc s ≠ 2 then s
  else if (p.getD 13 0).toNat % 2 = 1 then
    let root : Int := ((leAt p 4 4 * 1000000000 + leAt p 8 4) * 256 + leAt p 12 1 : Nat)
    let here := pressFine s - ((now s : Int) - r) * 10
    measure (root + oneWay s b * 10 - here) 6400 s
  else measureFails s

/-- The selected bus after a frame: three in a row it failed alone, and the other is selected (R427). -/
def selectBus (sub : Bool) (frame : Nat) (s : State) : State :=
  if sub then
    let s1 := inc Reg.TRM_SWITCH_CNT 1 s
    if 2 ≤ s1.trm.selFail then
      raiseIrq pgTrm 7 (event 0x7004 none (le 1 (if s1.trm.bus then 0 else 1) ++ le 4 frame)
        { s1 with trm := { s1.trm with bus := !s1.trm.bus, selFail := 0 } })
    else { s1 with trm := { s1.trm with selFail := s1.trm.selFail + 1 } }
  else { s with trm := { s.trm with selFail := 0 } }

/-- LISTEN and MUTED end after three good beacons in a row near their prediction; an own MUTE bit ends ACTIVE (R425). -/
def stepState (muted : Bool) (d : Option Int) (pay : List Byte) (s : State) : State :=
  let i := trmSlot s
  let near := match d with | some x => decide (x.natAbs ≤ 128) | none => false
  let run := if near && !muted then s.trm.goodRun + 1 else 0
  let s1 := { s with trm := { s.trm with goodRun := min 3 run } }
  let s2 := if muted then inc Reg.TRM_MUTE_CNT 1 s1 else s1
  match s.trm.state with
  | .active => if muted then setTrm .muted (raiseIrq pgTrm 6 (event 0x7003 none (le 1 i ++ pay) s2)) else s2
  | .listen | .muted => if 3 ≤ run ∧ i ≠ 0 then setTrm .active s2 else s2
  | _ => s2

/-- A follower whose chip is the leader's has no slot: it is in LISTEN and says so once (R417). -/
def slotConflict (s : State) : State :=
  if trmSlot s = 0 then
    let s1 := setTrm .listen s
    if s1.trm.slotTold then s1
    else raiseIrq pgTrm 8 (event 0x7006 none (le 1 (chipNumber s1) ++ le 1 s1.trm.chip) { s1 with trm := { s1.trm with slotTold := true } })
  else s

/-- A follower aligns to the good beacon it takes, and takes its mute bits, report, time and pace (R422 to R428). -/
def takeBeacon (body : List Byte) (b sub : Bool) (ra rb : Option Nat) (s0 : State) : State :=
  let p := body.drop 2
  let r := (if b then rb else ra).getD 0
  let s := advanceTo r s0
  let frame := leAt p 0 4
  let mutes := leAt p 14 2
  let framed := s.trm.predA.isSome || s.trm.predB.isSome
  let absent := (List.range 16).filter fun i => framed && decide (i ≠ 0 ∧ i ≠ trmSlot s) && !s.trm.seen.contains i
  let d := beaconDelta (if b then s.trm.predB else s.trm.predA) r
  let s1 := { s with trm := { s.trm with
    chip := (body.getD 0 0).toNat % 16, timeValid := (p.getD 13 0).toNat % 2 = 1, missRun := 0, arriveA := none, arriveB := none,
    seen := [], sent := false } }
  let s2 := match ra with | some t => alignBus false t s1 | none => s1
  let s3 := match rb with | some t => alignBus true t s2 | none => s2
  let s4 := markStale (absent ++ maskBits 16 mutes) (wn Reg.TRM_MUTE mutes (wn Reg.TRM_FRAME frame s3))
  let s5 := slotConflict s4
  let own := decide (trmSlot s5 ≠ 0) && decide (mutes / 2 ^ trmSlot s5 % 2 = 1)
  let ofs := if (p.getD 16 0).toNat = trmSlot s5 then leAt p (if b then 20 else 18) 2 else 0x8000
  let s6 := stepState own d (le 1 (if b then 1 else 0) ++ le 4 (unsigned 32 (signed 16 ofs))) s5
  let s7 := takeReport p (selectBus sub frame s6)
  (List.range 4).foldl (fun t k => beaconStep p k r b t) (beaconTime p r b s7)

/-- The beacon of one frame on the two buses, with its arrivals; an empty one did not come (R420, R416). -/
def beaconReceive (a b : List Byte) (ra rb : Nat) (s : State) : State :=
  let ga := if busOn s false then goodBeacon a else none
  let gb := if busOn s true then goodBeacon b else none
  let count := fun (t : State) =>
    countBad (if busOn s true then b else []) gb.isSome (countBad (if busOn s false then a else []) ga.isSome t)
  match s.trm.state with
  | .leader =>
    let s1 := count s
    let foreign := fun (g : Option (List Byte)) => match g with
      | some x => decide ((x.getD 0 0).toNat % 16 ≠ chipNumber s) | none => false
    if foreign ga || foreign gb then trmConflict 1 s1 else s1
  | .listen | .muted | .active =>
    let s1 := count s
    match pickBus s1 ga gb with
    | some (body, bus, sub) => takeBeacon body bus sub (ga.map fun _ => ra) (gb.map fun _ => rb) s1
    | none => s1
  | _ => s

def execTrmBeaconReceive (a b : List Byte) (ra rb : DWord) (s : State) : Host.Outcome State Fault Refusal :=
  .next (beaconReceive a b ra.toNat rb.toNat s)

/-- No good beacon by the prediction plus 16 bit times: it is missed, and the next prediction adds a frame (R422, R425, R438). -/
def beaconMissed (t : Nat) (s : State) : State :=
  let pred := if s.trm.bus then s.trm.predB.orElse fun _ => s.trm.predA else s.trm.predA.orElse fun _ => s.trm.predB
  match pred with
  | some p =>
    if (s.trm.state = .listen ∨ s.trm.state = .muted ∨ s.trm.state = .active) ∧ p + 1639 ≤ t then
      let s1 := inc Reg.TRM_BEACON_MISS_CNT 1 (advanceTo t s)
      let more := fun (o : Option Nat) => o.map fun x => ((x : Int) + frameLocal s).toNat
      let n := min 3 (s1.trm.missRun + 1)
      let s2 := { s1 with trm := { s1.trm with
        missRun := n, goodRun := 0, selFail := 0, arriveA := none, arriveB := none, sent := true,
        predA := more s1.trm.predA, predB := more s1.trm.predB } }
      let s3 := if timSrc s2 = 2 then measureFails s2 else s2
      if n = 3 then loseBeacons (setTrm .listen s3) else s3
    else s
  | none => s

def execTrmBeaconMissed (t : DWord) (s : State) : Host.Outcome State Fault Refusal := .next (beaconMissed t.toNat s)

/-- The instant a follower's burst starts on a bus: from the beacon's arrival there, or on the other bus plus the difference of
the one-way delays (R422). -/
def burstStart (s : State) (b : Bool) : Option Nat :=
  let mine := if b then s.trm.arriveB else s.trm.arriveA
  let other := if b then s.trm.arriveA else s.trm.arriveB
  let r : Option Int := match mine, other with
    | some x, _ => some (x : Int)
    | none, some y => some ((y : Int) + oneWay s b - oneWay s !b)
    | none, none => none
  r.map fun x => (divF (x * 10 + slotBit (trmSlot s) * 1024 - adv s b * 16) 10).toNat

/-- The header and payload of the node's burst. -/
def followerBody (s : State) : List Byte :=
  let b := fun (x : Bool) (n : Nat) => if x then 2 ^ n else 0
  let trips := (List.range 4).any fun i => (trip s i).latched
  let paused := (List.range 4).any fun k => (channel s k).paused
  le 1 (chipNumber s + 16) ++ le 1 (rn s Reg.TRM_FRAME) ++
    le 1 (b trips 0 + b paused 1 + b s.clock.locked 2 + b (!(livePlanes s).isEmpty) 3) ++ le 1 0 ++ le 2 (rn s Reg.KLN_SUST_RATE / 16)

/-- An ACTIVE follower sends its burst of the frame on every enabled bus (R422, R426). -/
def followerSend (s : State) : State :=
  if s.trm.state = .active ∧ s.trm.sent = false then
    match burstStart s false, burstStart s true with
    | some x, some y =>
      let s1 := advanceTo (min x y) s
      sendBurst x y (followerBody s1) { s1 with trm := { s1.trm with sent := true } }
    | _, _ => s
  else s

def execTrmFollowerBurstSend (s : State) : Host.Outcome State Fault Refusal := .next (followerSend s)

end Sys2Proof.Machine
end

