-- ==== Sys2Proof/Machine/Alarm.lean ====
section
/-! DEFINITION. The alarm store's commands and the alert pin (spec/21, R507 to R509). -/

namespace Sys2Proof.Machine
open Sys2Proof

/-- The alarm index of a code, where R509 lists it. -/
def alarmIndex (code : Nat) : Option Nat := (List.range 17).find? fun i => decide (alarmCode i = code)

/-- The condition of an alarm is present (R509); most end at the raise. -/
def alarmActive (s : State) (i : Nat) : Bool :=
  let fanIn := fun st => (List.range 4).any fun n => decide ((fan s n).state = st)
  match i with
  | 0 => decide ((16 * rf s Reg.THM_WARN_THR 7 0 : Int) ≤ s.thm.tj)
  | 2 => fanIn 4
  | 3 => fanIn 5
  | 5 => decide (s.crk.state ≠ .mounted)
  | 7 => decide (s.crk.state = .readOnly)
  | 11 => s.tly.late
  | 12 => (List.range 4).any fun j => (trip s j).latched
  | 13 => (List.range 64).any fun h => (port s h).latched
  | 14 => camNums.any fun k => decide (2 ≤ (whiteRef s k).state)
  | 15 => camNums.any fun k => decide (3 ≤ (whiteRef s k).state)
  | 16 => decide (s.trm.state = .conflict)
  | _ => false

/-- An alarm record as ALARM_FETCH returns it (R507). -/
def alarmBytes (s : State) (i : Nat) (r : AlarmRec) : List Byte :=
  le 2 (alarmCode i) ++ le 1 (if alarmActive s i then 1 else 0) ++ le 1 i ++ le 4 r.count.toNat ++ le 8 r.first.toNat ++
    le 8 r.last.toNat ++ (r.detail ++ List.replicate 8 0#8).take 8

/-- ALARM_FETCH (R508). -/
def alarmFetch (h : Hdr) (buf len : Nat) (s : State) : State :=
  output h buf len 0 (s.stk.alarms.flatMap fun e => alarmBytes s e.1 e.2) s

def execAlarmFetch (d : Desc) (buf : DWord) (len : Word) (s : State) : Host.Outcome State Fault Refusal :=
  .next (query d .o (.alarmFetch d buf len) (fun h => alarmFetch h buf.toNat len.toNat) s)

/-- ALARM_ACK (R508). -/
def alarmAck (h : Hdr) (code : Nat) (s : State) : State :=
  match alarmIndex code with
  | none => fail h 0x0104 s
  | some i =>
    if (tfind s.stk.alarms i).isNone then ok h 0 s
    else if alarmActive s i then fail h 0x0201 s
    else ok h 0 { s with stk := { s.stk with alarms := tdel s.stk.alarms i } }

def execAlarmAck (d : Desc) (code : BitVec 16) (s : State) : Host.Outcome State Fault Refusal :=
  .next (command d .o (fun _ => []) (.alarmAck d code) (fun h => alarmAck h code.toNat) s)

/-- ALERT_N is low: a latched record's index is enabled, or Sagger is halted (R509). -/
def alertLow (s : State) : Bool :=
  s.sag.halted || s.stk.alarms.any fun e => rbit s (Reg.STK_ALERT_EN (e.1 / 32)) (e.1 % 32)

end Sys2Proof.Machine
end

