-- ==== Sys2Proof/Machine/Clocks.lean ====
section
/-! DEFINITION. Clock supervision, the master delay loop and I/O calibration (spec/22, R516 to R529). -/

namespace Sys2Proof.Machine
open Sys2Proof

/-! ## Loss of a clock (R527) -/

/-- Count a loss in a byte of CLK_LOL_CNT, and note it in CLK_RST_CAUSE. -/
def countLoss (byte cause : Nat) (s : State) : State :=
  let hi := 8 * byte + 7
  let lo := 8 * byte
  wn Reg.CLK_RST_CAUSE cause (wf Reg.CLK_LOL_CNT hi lo (min 255 (rf s Reg.CLK_LOL_CNT hi lo + 1)) s)

/-- The root PLL has lost lock: outputs are forced off, and SAG_FAULT with cause glitch follows (R451, R527). -/
def rootLoss (s : State) : State := sagFault 1 { s with clk := { s.clk with rootLock := false, dllLock := false } }

/-- The 25 MHz reference stops: CK_AON goes on CK_RC and the root PLL loses lock. -/
def refLoss (s : State) : State :=
  if s.clk.refOk then
    let s1 := countLoss 0 1 { s with clk := { s.clk with refOk := false, onRc := true } }
    if clocked s then rootLoss (wn Reg.CLK_RST_CAUSE 1 (countLoss 1 2 s1)) else s1
  else s

def execRefClockLoss (s : State) : Host.Outcome State Fault Refusal := .next (refLoss s)

/-- The reference has run again for 1 ms: a boot held at step 1 may go on. -/
def execRefClockReturn (s : State) : Host.Outcome State Fault Refusal :=
  .next { s with clk := { s.clk with refOk := true, onRc := false } }

/-- The root PLL loses lock by itself. -/
def execRootPllLoss (s : State) : Host.Outcome State Fault Refusal :=
  .next (if s.clk.rootLock then rootLoss (countLoss 1 2 s) else s)

/-- The DDR PLL loses lock: a HOST reset follows. -/
def execDdrPllLoss (s : State) : Host.Outcome State Fault Refusal :=
  .next (if s.clk.ddrLock then hostReset 6 (countLoss 2 3 { s with clk := { s.clk with ddrLock := false } }) else s)

/-! ## The master delay loop (R519) -/

/-- The loop gains or loses lock, with its master code; each change of lock posts CLK_DLL. Without lock every row-line is an underrun in
blank mode (R519). A locked loop that is told locked again has corrected its code. -/
def dllChange (locked : Bool) (code : Nat) (s : State) : State :=
  if s.clk.dllLock = locked then
    if locked then retune (fun t => { t with clk := { t.clk with code := code } }) s else s
  else
    let s1 := retune (fun t => { t with clk := { t.clk with dllLock := locked, code := code } }) s
    let s2 := raiseIrq pgClk 4 (event 0x0201 none (le 1 (if locked then 1 else 0) ++ le 4 code) s1)
    if locked then s2 else (List.range 64).foldl (fun t h => headLost h t) s2

/-- It can lock while the root PLL is locked and PD_FIRE is powered. -/
def execDllLockChange (locked : Bool) (code : BitVec 10) (s : State) : Host.Outcome State Fault Refusal :=
  .next (if locked && (!s.clk.rootLock || decide (s.pwr.state = .standby)) then s else dllChange locked code.toNat s)

/-! ## I/O calibration (R521, R529) -/

/-- A calibration starts. -/
def iocalStart (s : State) : State := { s with clk := { s.clk with iocal := true } }

/-- A write of CLK_IOCAL_CTRL. -/
def iocalCtrl (v : Word) (s : State) : State :=
  if bits 0 0 v.toNat = 0 then s
  else if s.clk.iocal then recordErr pgClk 0x41 s
  else iocalStart s

def execIocalStart (ini : Initiator) (val : Word) (s : State) : Host.Outcome State Fault Refusal :=
  .next (guardWrite ini Reg.CLK_IOCAL_CTRL allBytes val iocalCtrl s)

/-- CLK_IOCAL_PERIOD expires, or a sensor has moved 4 °C since the last calibration (R521). -/
def execIocalPeriod (s : State) : Host.Outcome State Fault Refusal :=
  .next (if s.clk.rootLock && s.pwr.boot.isNone then iocalStart s else s)

/-- The nearest whole number of 1/8 taps to an error in 1/256 of one. -/
def nearestUnit (e : Int) : Int := divF (e + 128) 256

/-- A line's trim is set against its measured error; one out of range takes the nearer limit and is reported (R521). -/
def iocalLine (line : Nat) (e : Int) (s : State) : State :=
  let want := nearestUnit (-e)
  let trim := max (-64) (min 63 want)
  let err := satS 8 (nearestUnit e)
  let s1 := wn (wkey Reg.CLK_IOCAL_TRIM line) (unsigned 7 trim + 256 * unsigned 8 err) s
  if want = trim then s1
  else raiseIrq pgClk 5 (event 0x0202 none (le 4 line ++ le 4 (unsigned 32 trim) ++ le 4 (unsigned 32 err) ++ le 1 1)
    (recordErr pgClk 0x40 s1))

/-- A calibration ends, and its trims apply as R520 lets them: `errors` are the measured errors of lines 0 on, in 1/256 of 1/8 tap. The event of its end names no line by a
rule: those bytes are free. -/
def iocalDone (errors : List (BitVec 24)) (s : State) : State :=
  if s.clk.iocal then
    let s1 := retune (fun u => (errors.take 70).zipIdx.foldl (fun t x => iocalLine x.2 x.1.toInt t) u)
      { s with clk := { s.clk with iocal := false } }
    let d := draw 96 s1
    raiseIrq pgClk 5 (event 0x0202 none (le 12 d.1.toNat ++ le 1 0) (inc Reg.CLK_IOCAL_CNT 1 d.2))
  else s

def execIocalDone (errors : List (BitVec 24)) (s : State) : Host.Outcome State Fault Refusal := .next (iocalDone errors s)

/-- CLK_STAT as it reads. -/
def clkStat (s : State) : Nat :=
  let b := fun (x : Bool) (k : Nat) => if x then 2 ^ k else 0
  b s.clk.refOk 0 + b s.clk.onRc 1 + b s.clk.rootLock 2 + b s.clk.ddrLock 3 + b s.clk.dllLock 4 + b s.clk.iocal 5

end Sys2Proof.Machine
end

