-- ==== Sys2Proof/Machine/PowerUnit.lean ====
section
/-! DEFINITION. Power states, the segment table, the wake budget and the supplies (spec/23, R536 to R547; spec/05, R137, R138). -/

namespace Sys2Proof.Machine
open Sys2Proof

/-- PWR_STAT's state codes and those of POWER_STATE and PWR_STATE. -/
def PowerState.code : PowerState → Nat
  | .run => 0 | .idle => 1 | .standby => 2 | .deep => 3

/-- Keys of what POWER_STATE waits for: the end of an entry, the end of an exit. -/
def keyExit : Nat := 0x503
def keyEntry : Nat := 0x504

/-! ## Segments (R137, R543) -/

/-- A segment-table stream keeps every condition of R543. -/
def segmentGood (bs : List Byte) : Bool :=
  let mask := fun g => leAt bs (16 + 16 * g) 8
  decide (bs.length = 528) && decide (leAt bs 0 2 = 0x4553) && allZero (slice bs 2 16) &&
    (List.range 16).all (fun g => allZero (slice bs (24 + 16 * g) (32 + 16 * g)) && decide ((maskBits 64 (mask g)).length ≤ 8)) &&
    (List.range 64).all (fun h => allZero (slice bs (274 + 4 * h) (276 + 4 * h)) &&
      decide (((List.range 16).filter fun g => mask g / 2 ^ h % 2 = 1).length ≤ 1))

/-- SEGMENT_LOAD once its stream is complete: the table is replaced whole. -/
def segmentLoad (h : Hdr) (x : Stream) (s : State) : State :=
  let bs := x.bytes
  if !segmentGood bs then fail h 0x0106 s
  else
    let segs : Tab Nat := (List.range 16).map fun g => (g, leAt bs (16 + 16 * g) 8)
    let s1 := { s with pwr := { s.pwr with
      segments := segs, charges := (List.range 64).map fun k => (k, leAt bs (272 + 4 * k) 2) } }
    if (List.range 64).any fun k => (port s k).pwren && decide (segmentOf s k ≠ segmentOf s1 k) then fail h 0x0201 s
    else ok h 0 s1

def bodySegmentLoad (h : Hdr) (c : Instr) (handle : Nat) (s : State) : State :=
  withStream h c ((List.range 64).map objHead) h.tenant handle (segmentLoad h) s

def execSegmentLoad (d : Desc) (handle : Word) (s : State) : Host.Outcome State Fault Refusal :=
  .next (command d .o (fun _ => (List.range 64).map objHead) (.segmentLoad d handle)
    (fun h => bodySegmentLoad h (.segmentLoad d handle) handle.toNat) s)

/-! ## Head power (R138, R544, R545) -/

/-- A head's declared charge. -/
def charge (s : State) (h : Nat) : Nat := tget s.pwr.charges 0 h

/-- Heads that are neither powered nor queued join the queue in ascending order (R545). -/
def queueHeads (cmd : Option Nat) (hs : List Nat) (s : State) : State :=
  let new := hs.filter fun h => !(port s h).pwren && !(s.pwr.queue.any fun q => decide (q.head = h))
  { s with pwr := { s.pwr with queue := s.pwr.queue ++ new.map fun h => ⟨h, cmd⟩ } }

/-- The charge admitted in the millisecond up to an instant (R544). -/
def winCharge (s : State) (t : Nat) : Nat :=
  ((s.pwr.admits.filter fun x => decide (t < x.1 + ms)).map (·.2)).sum

/-- A head of an enabled Tally slot that is not AUTHENTIC may not be powered while Tally enforces (R482). -/
def tallyForbids (s : State) (h : Nat) : Bool :=
  rbit s Reg.TLY_CTRL 1 && (tlyEnabled s).any fun i => decide (tlyHeads s i / 2 ^ h % 2 = 1) && decide ((tlySlot s i).state ≠ 3)

/-- HEAD_POWER (R20, R137, R138, R545). -/
def bodyHeadPower (h : Hdr) (c : Instr) (mask action : Nat) (s : State) : State :=
  let hs := maskBits 64 mask
  if 1 < action then fail h 0x0103 s
  else if hs.any fun k => !headEnabled s k then fail h 0x0107 s
  else if action = 0 then
    let s1 := { s with pwr := { s.pwr with queue := s.pwr.queue.filter fun q => !hs.contains q.head } }
    let s2 := hs.foldl (fun t k => headOff k t) s1
    ok h (res 16 (poweredMask s2)) s2
  else if hs.any fun k => (segmentOf s k).isNone then fail h 0x0203 s
  else if hs.any fun k => (segmentOf s k).any (tripCoversSegment s) then fail h 0x0206 s
  else if hs.any fun k => decide (rf s Reg.PWR_INRUSH_BUDGET 15 0 < charge s k) then fail h 0x0103 s
  else if hs.any (tallyForbids s) then fail h 0x0303 s
  else
    wake h c (hs.map objHead) (fun s1 =>
      let due := hs.filter fun k => !((port s1 k).pwren && (port s1 k).pg)
      if due = [] then ok h (res 16 (poweredMask s1)) s1
      else parkAccepted h c (hs.map objHead) (due.map keyHead) (queueHeads (some h.seq) hs s1)) s

def execHeadPower (d : Desc) (mask : DWord) (action : BitVec 8) (timeout : Word) (s : State) : Host.Outcome State Fault Refusal :=
  .next (command d .o (fun _ => (maskBits 64 mask.toNat).map objHead) (.headPower d mask action timeout)
    (fun h => bodyHeadPower h (.headPower d mask action timeout) mask.toNat action.toNat) s)

/-- Enables at the front of the queue whose heads a SEGMENT_LOAD has taken out of every segment leave it: power is refused to a head in
no segment (R15). Their command then ends by its timeout (DESIGN CHOICE: notes/assumptions/71.md). -/
def dropUnsegmented (s : State) : State :=
  { s with pwr := { s.pwr with queue := s.pwr.queue.dropWhile fun q => (segmentOf s q.head).isNone } }

/-- Every 10 µs the front of the queue is admitted if the window and the gap allow it (R544, R545). -/
def enableAdmit1 (t : Nat) (s0 : State) : State :=
  let s := dropUnsegmented (advanceTo t s0)
  match s.pwr.queue with
  | q :: rest =>
    let c := charge s q.head
    let u := now s
    let covered := (segmentOf s q.head).any (tripCoversSegment s)
    let gap := match s.pwr.lastAdmit with
      | some v => decide (v + rf s Reg.PWR_MIN_GAP 15 0 * us ≤ u)
      | none => true
    if (s.pwr.state = .run ∨ s.pwr.state = .idle) ∧ covered = false ∧ gap = true ∧ winCharge s u + c ≤ rf s Reg.PWR_INRUSH_BUDGET 15 0 then
      updPort q.head (fun x => { x with pwren := true, powerAt := u, pg := false, pgSeen := false })
        { s with pwr := { s.pwr with
          queue := rest, lastAdmit := some u, raised := tput s.pwr.raised q.head q.cmd,
          admits := (u, c) :: s.pwr.admits.filter fun x => decide (u < x.1 + ms) } }
    else s
  | [] => s

def execHeadEnableAdmit (t : DWord) (s : State) : Host.Outcome State Fault Refusal := .next (enableAdmit1 t.toNat s)

/-- HEAD_POWER, or the POWER_STATE whose exit powered heads again, completes when the last head reports power-good (R138, R539). -/
def execHeadPowerDone (seq : Nat) (s : State) : Host.Outcome State Fault Refusal :=
  .next (match findParked s seq with
  | some p => match p.cmd with
    | .headPower .. => completeDone seq (fun _ => true) (fun t => res 16 (poweredMask t)) s
    | .powerState .. => completeDone seq (fun _ => true) (fun _ => 0) s
    | _ => s
  | none => s)

/-- The enables of a command, or of an exit, not yet at power-good: queued or raised. -/
def enablesOf (s : State) (cmd : Option Nat) : List Nat :=
  (List.range 64).filter fun h => (s.pwr.queue.any fun q => decide (q.head = h ∧ q.cmd = cmd)) ||
    ((port s h).pwren && !(port s h).pg && decide (tfind s.pwr.raised h = some cmd))

/-- A timeout withdraws the enables left (R138): they are counted and named. -/
def wakeTimeout (cmd : Option Nat) (s : State) : State :=
  let left := enablesOf s cmd
  let s1 := withdrawCmd cmd (left.foldl (fun t h => if (port t h).pwren then headOff h t else t) s)
  raiseIrq pgPwr 5 (event 0x0302 none (le 8 ((left.map fun h => 2 ^ h).sum)) (inc Reg.PWR_WAKE_TO_CNT 1 s1))

/-- The heads an exit has still to bring to power-good. -/
def exitPending (s : State) : List Nat := s.pwr.exitHeads.filter fun h => !((port s h).pwren && (port s h).pg)

/-- The timeout of a HEAD_POWER in fire units: its operand in ms, 1,000 for 0 (R137). -/
def powerLimit (timeout : Word) : Nat := (if timeout = 0#32 then 1000 else timeout.toNat) * ms

/-- The timeout of HEAD_POWER, counted from its acceptance, or the 1,000 ms of a STANDBY exit, expires (R138, R539). -/
def powerTimeout (seq t : Nat) (s0 : State) : State :=
  let s := advanceTo t s0
  let exitOver := decide (exitPending s ≠ []) && decide (s.pwr.exitAt + 1000 * ms ≤ now s)
  match findParked s seq with
  | some p => match p.cmd with
    | .headPower _ _ _ timeout =>
      if p.accepted && decide (p.waits ≠ []) && decide (p.since + powerLimit timeout ≤ now s) then
        let s1 := wakeTimeout (some seq) s
        complete p.h 0x0503 (res 16 (poweredMask s1)) s1
      else s
    | .powerState .. =>
      if p.accepted && exitOver && !p.waits.contains keyExit then
        let s1 := wakeTimeout none s
        complete p.h 0x0503 0 { s1 with pwr := { s1.pwr with exitHeads := [] } }
      else s
    | _ => s
  | none =>
    if exitOver && decide (s.pwr.toward = none) then
      let s1 := wakeTimeout none s
      { s1 with pwr := { s1.pwr with exitHeads := [] } }
    else s

def execHeadPowerTimeout (seq : Nat) (t : DWord) (s : State) : Host.Outcome State Fault Refusal :=
  .next (powerTimeout seq t.toNat s)

/-- A write of PWR_INRUSH_BUDGET or PWR_MIN_GAP (R545). -/
def budgetWrite (addr : Nat) (v : Word) (s : State) : State :=
  if s.pwr.queue = [] then plainPut addr v s else recordErr pgPwr 0x40 s

/-! ## Entering a power state (R536, R537) -/

/-- Every plane is STOPPED. -/
def planesStopped (s : State) : Bool := planeNums.all fun p => !(plane s p).live

/-- The status POWER_STATE fails with (R536), or 0. -/
def entryStatus (s : State) (target : Nat) : Nat :=
  if target = 0 then 0
  else if !planesStopped s then (if target = 1 then 0x0201 else 0x0202)
  else if target = 1 then (if s.fw.parked.any fun q => q.accepted && (match q.cmd with | .maintSpit .. => true | _ => false) then 0x0201 else 0)
  else if (List.range 8).any (fun a => decide ((axis s a).state ≠ .disabled)) || s.crk.compacting ||
      decide (s.crk.state = .compacting) then 0x0201
  else if target = 2 then 0
  else if (s.jobs.copies.any fun c => decide (c.state = .queued ∨ c.state = .ready ∨ c.state = .committed ∨ c.state = .fired ∨
        c.state = .ruled)) || s.jobs.tenants.any fun e => decide (e.1 ≠ 0) && decide (e.2.state ≠ .disabled) then 0x0201
  else 0

/-- PWR_STATE posts a change (R539). -/
def powerEvent (old new : PowerState) (cause : Nat) (s : State) : State :=
  raiseIrq pgPwr 4 (event 0x0301 none (le 1 old.code ++ le 1 new.code ++ le 1 cause) s)

/-- The power state a target names. -/
def targetState (n : Nat) : PowerState :=
  match n with | 0 => .run | 1 => .idle | 2 => .standby | _ => .deep

/-- POWER_STATE (R130, R536). -/
def bodyPowerState (h : Hdr) (c : Instr) (target : Nat) (s : State) : State :=
  if 3 < target then fail h 0x0103 s
  else if target = 0 then
    if s.pwr.toward = none ∧ s.pwr.state = .run then ok h 0 s
    else if s.pwr.toward = none ∨ s.pwr.toward = some .run then parkAccepted h c [] [keyExit] (startExit 0 s)
    else parkWaiting h c [] [keyStill] s
  else if s.pwr.toward ≠ none then parkWaiting h c [] [keyStill] s
  else if entryStatus s target ≠ 0 then fail h (entryStatus s target) s
  else if s.pwr.state = targetState target then ok h 0 s
  else parkAccepted h c [] [keyEntry]
    { s with pwr := { s.pwr with toward := some (targetState target), cause := 0, told := false } }

def execPowerState (d : Desc) (target : BitVec 8) (s : State) : Host.Outcome State Fault Refusal :=
  .next (command d .s (fun _ => []) (.powerState d target) (fun h => bodyPowerState h (.powerState d target) target.toNat) s)

/-- The heads powered when STANDBY was entered join the queue again (R539). -/
def repower (s : State) : State :=
  let hs := s.pwr.standbyHeads
  queueHeads none hs { s with pwr := { s.pwr with standbyHeads := [], exitHeads := hs, exitAt := now s } }

/-- PD_TIL and PD_FIRE power down, retained; heads go off, trace is flushed, and the servo is in holdover (R438, R491, R513, R538). -/
def enterStandby (s : State) : State :=
  let on := (List.range 64).filter fun h => (port s h).pwren
  let s1 := calFlush (traceStandby s)
  let s2 := on.foldl (fun t h => headOff h t) { s1 with pwr := { s1.pwr with queue := [], standbyHeads := on } }
  let s3 := if timSrc s2 = 0 then s2 else setHoldover true s2
  dllChange false s3.clk.code s3

/-- STANDBY is left: the delay loop relocks with a free master code, and the heads are powered again (R519, R539). -/
def leaveStandby (s : State) : State :=
  let d := draw 10 s
  repower (dllChange true d.1.toNat d.2)

/-- Commands that waited to wake the controller start its exit (R538). -/
def wakeWaiters (s : State) : State := if waiters s keyRun = [] then s else startExit 2 s

/-- Crock writes what its queue holds, with fuel. -/
def drainCrock : Nat → State → State
  | 0, s => s
  | n + 1, s => drainCrock n (recordWrite true s)

/-- The snapshot of a DEEP entry: captured once one that is being written is committed (R240, R540). -/
def deepSnapshot (s : State) : State :=
  if !crkAccepts s then s
  else if s.crk.snapNow = none then snapCapture s
  else
    let s1 := snapshotWrite s
    let s2 := drainCrock (s1.crk.queue.length + 1) s1
    if s2.crk.snapNow = none then snapCapture s2 else s2

/-- An entry ends: IDLE and STANDBY are entered; of DEEP the steps before its completion are done (R540, steps 1 to 4). -/
def entryDone (s : State) : State :=
  match s.pwr.toward with
  | some .idle =>
    let old := s.pwr.state
    let s1 := { s with pwr := { s.pwr with state := .idle, toward := none } }
    let s2 := if old = .standby then leaveStandby s1 else s1
    wakeWaiters (arrive keyEntry (fun _ => 0) (powerEvent old .idle s.pwr.cause s2))
  | some .standby =>
    let s1 := enterStandby s
    let s2 := { s1 with pwr := { s1.pwr with state := .standby, toward := none } }
    wakeWaiters (arrive keyEntry (fun _ => 0) (powerEvent s.pwr.state .standby s.pwr.cause s2))
  | some .deep =>
    if s.pwr.told then s
    else
      let s1 := (tlyEnabled s).foldl (fun t i => tallyClose i t) (calFlush s)
      let ts := s1.jobs.tenants.map (·.1)
      let s2 := ts.foldl (fun t k => writeCeiling k (tenant t k).charged t) s1
      let s3 := deepSnapshot s2
      let s4 := { s3 with pwr := { s3.pwr with told := true } }
      arrive keyEntry (fun _ => 0) (powerEvent s.pwr.state .deep s.pwr.cause s4)
  | _ => s

def execPowerEntryDone (s : State) : Host.Outcome State Fault Refusal := .next (entryDone s)

/-- The IDLE conditions have held for IDLE_DLY (R537). -/
def autoIdle (s : State) : State :=
  if rbit s Reg.PWR_CTRL 0 && decide (s.pwr.state = .run) && decide (s.pwr.toward = none) && s.fw.ready &&
      decide (entryStatus s 1 = 0) then
    powerEvent .run .idle 1 { s with pwr := { s.pwr with state := .idle, cause := 1 } }
  else s

def execAutoIdle (s : State) : Host.Outcome State Fault Refusal := .next (autoIdle s)

/-- An exit reaches RUN (R539): from STANDBY the delay loop has relocked and the heads are powered again; POWER_STATE waits for
those heads. -/
def exitDone (s : State) : State :=
  if s.pwr.toward = some .run then
    let old := s.pwr.state
    let s1 := { s with pwr := { s.pwr with state := .run, toward := none } }
    let s2 := if old = .standby then leaveStandby s1 else s1
    let s3 := powerEvent old .run s.pwr.cause s2
    (waiters s3 keyExit).foldl (fun t p =>
      match exitPending t with
      | [] => complete p.h 0 0 t
      | hs => park { p with waits := hs.map keyHead } t) s3
  else s

def execPowerExitDone (s : State) : Host.Outcome State Fault Refusal := .next (exitDone s)

/-! ## DEEP (R540) -/

/-- Steps 5 to 7 of DEEP entry: the link goes down, Crock finishes its queue, SRAM and Sagger RAM are zeroed, and every domain but
PD_AON powers off; a wake source held starts the boot. -/
def deepEntry (s : State) : State :=
  if s.pwr.toward = some .deep ∧ s.pwr.told = true then
    let s1 := snapshotWrite s
    let s2 := drainCrock (s1.crk.queue.length + 1) s1
    let w := s.pwr.wake
    let z := zeroSagger (crkLose (haltUnits s2))
    let s3 := { z with pwr := { z.pwr with state := .deep, deepAt := z.clock.uptime } }
    match w with
    | some (.pin, strap) => wn Reg.GLB_STRAP strap (startBoot .pin 1 false s3)
    | some _ => startBoot .deepExit 8 false s3
    | none => s3
  else s

def execDeepEntry (s : State) : Host.Outcome State Fault Refusal := .next (deepEntry s)

/-- PWR_DEEP_WAKE expires (R539). -/
def deepWake (t : Nat) (s0 : State) : State :=
  let s := advanceTo t s0
  if s.pwr.state = .deep ∧ rn s Reg.PWR_DEEP_WAKE ≠ 0 ∧ s.pwr.deepAt + rn s Reg.PWR_DEEP_WAKE * 1000 * ms ≤ s.clock.uptime then
    startBoot .deepExit 8 false s
  else s

def execDeepWakeTimer (t : DWord) (s : State) : Host.Outcome State Fault Refusal := .next (deepWake t.toNat s)

/-! ## Supplies (R541, R542) -/

/-- A supply leaves range: groups A and B (0 to 4) cause POR, with the straps sampled; C and D (5 to 10) cause HOST with the outputs
forced. VDD_AON (0) and VDD_IO (8) cut a Crock program short (R498). GLB_RST_CAUSE has no code for the latter. -/
def supplyLow (k : Nat) (strap : BitVec 5) (s : State) : State :=
  if s.pwr.low.contains k then s
  else
    let s1 := { s with pwr := { s.pwr with low := s.pwr.low ++ [k] } }
    if k ≤ 4 then porReset strap s1
    else if !clocked s then s1
    else
      let d := draw 4 s1
      startBoot .host d.1.toNat (decide (k = 8)) d.2

def execSupplyOutOfRange (supply : Fin 11) (strap : BitVec 5) (s : State) : Host.Outcome State Fault Refusal :=
  .next (supplyLow supply.val strap s)

/-- A supply is in range again: PWR_SUPPLY_LOW posts for groups C and D, and a boot held may go on (R542). -/
def supplyBack (k : Nat) (s : State) : State :=
  if s.pwr.low.contains k then
    let s1 := { s with pwr := { s.pwr with low := s.pwr.low.filter (· ≠ k) } }
    if k ≤ 4 then s1 else raiseIrq pgPwr 6 (event 0x0303 none (le 4 k ++ le 1 0) s1)
  else s

def execSupplyReturn (supply : Fin 11) (s : State) : Host.Outcome State Fault Refusal := .next (supplyBack supply.val s)

end Sys2Proof.Machine
end

