-- ==== Sys2Proof/Machine/Boot.lean ====
section
/-! DEFINITION. The boot: its holds, its failures, patches, the journal, Sagger's state, and command-ready (spec/18, R440, R446 to R449,
R455; spec/19, R468, R474, R481). -/

namespace Sys2Proof.Machine
open Sys2Proof

/-! ## The boot configuration (R486) -/

/-- The boot configuration copy in force: the good one of higher generation. -/
def bootConfig (s : State) : Option (List Byte) :=
  match tfind s.crk.boot 0, tfind s.crk.boot 1 with
  | some a, some b => some (if a.1 < b.1 then b.2 else a.2)
  | some a, none => some a.2
  | none, some b => some b.2
  | none, none => none

/-- The value of an item of the boot configuration. -/
def bootItem (s : State) (typ : Nat) : Option (List Byte) :=
  match bootConfig s with
  | some img => ((bootItems img.length (slice img 16 (img.length - 4))).find? fun x => decide (x.1 = typ)).map (·.2)
  | none => none

/-- Subsystem Vendor ID and Subsystem ID (R63). -/
def subsystemIds (s : State) : Word :=
  match bootItem s 1 with
  | some v => BitVec.ofNat 32 (leAt v 2 2 * 65536 + leAt v 0 2)
  | none => 0x72401E9C#32

/-! ## Patches (R446) -/

/-- The patch records at the start of some bytes, with fuel. -/
def patchScan : Nat → List Byte → List (List Byte)
  | 0, _ => []
  | n + 1, bs =>
    if leAt bs 0 4 = 0x48435450 ∧ patchLen bs ≤ bs.length then bs.take (patchLen bs) :: patchScan n (bs.drop (patchLen bs)) else []

/-- The status of a record by its own checks (R446): 1 form or vendor signature, 2 countersignature, 3 version, 0 none. -/
def patchCheck (s : State) (bs : List Byte) : Nat :=
  let n := bs.length - 192
  let hooks := leAt bs 10 2
  let len := leAt bs 12 4
  let formed := allZero (slice bs 6 8) && allZero (slice bs 16 64) && decide (0 < leAt bs 4 2) &&
    decide (1 ≤ hooks ∧ hooks ≤ 256) && decide (16 ≤ len ∧ len ≤ 131072 ∧ len % 16 = 0)
  let oem := decide (lifecycle s = 2 ∨ lifecycle s = 3)
  if !formed || !Config.ecdsaP384 Config.patchKey (Config.sha384 (bs.take n)) (slice bs n (n + 96)) then 1
  else if oem && !Config.oemCounter s.sag.oemHash (Config.sha384 (bs.take (n + 96))) (slice bs (n + 96) (n + 192)) then 2
  else if leAt bs 8 2 ≠ 0x0104 then 3
  else 0

/-- Insert a record by ascending sequence, after those of equal sequence. -/
def insertPatch (x : Nat × List Byte) : List (Nat × List Byte) → List (Nat × List Byte)
  | [] => [x]
  | y :: r => if leAt x.2 4 2 < leAt y.2 4 2 then x :: y :: r else y :: insertPatch x r

/-- Load records in order: those whose code or hooks do not fit get status 4. Gives the indices that did not fit, and those
loaded. -/
def loadPatches : Nat → Nat → List Nat → List (Nat × List Byte) → List Nat × List (Nat × List Byte)
  | _, _, _, [] => ([], [])
  | room, taken, points, x :: r =>
    let hs := (List.range (leAt x.2 10 2)).map fun k => leAt x.2 (64 + 8 * k) 4
    let fresh := (hs.filter fun p => !points.contains p).eraseDups
    if leAt x.2 12 4 ≤ room ∧ taken + fresh.length ≤ 256 then
      let t := loadPatches (room - leAt x.2 12 4) (taken + fresh.length) (points ++ fresh) r
      (t.1, x :: t.2)
    else
      let t := loadPatches room taken points r
      (x.1 :: t.1, t.2)

/-- Sagger loads the patches of the store (R446). -/
def bootPatches (s : State) : State :=
  let all := patchScan 32 s.crk.patchArea
  let marked := all.zipIdx.map fun x => (x.2, x.1)
  let good := (marked.filter fun x => decide (patchCheck s x.2 = 0)).foldl (fun l x => insertPatch x l) []
  let t := loadPatches 131072 0 [] good
  let status := fun (i : Nat) (bs : List Byte) => if t.1.contains i then 4 else patchCheck s bs
  { s with sag := { s.sag with
    patches := marked.map fun x => ⟨leAt x.2 4 2, leAt x.2 8 2, status x.1 x.2, x.2.length⟩,
    patchLevel := t.2.foldl (fun m x => max m (leAt x.2 4 2)) 0,
    patchDigest := if t.2 = [] then 0 else Config.sha384 (t.2.flatMap (·.2)) } }

/-! ## Sagger's persistent state (R440, R468, R474) -/

/-- A tenant's counters as its sealed record gives them. -/
def restoreTenant (r : SagRec) (s : State) : State :=
  let g : SagTenant := { SagTenant.init with
    digest := r.digest, grantSeq := r.grantSeq, ceiling := r.ceiling, head := r.head, batch := r.batch, seq := r.seq,
    restart := if r.seq = 0 ∧ r.batch = 0 then some 0 else none, covered := r.covered }
  updTenant r.tenant (fun x => { x with grant := r.grant }) (updSag r.tenant (fun _ => g) s)

/-- CHARGED becomes the persisted ceiling, RESERVED 0, and the copies no receipt accounts for get a GAP receipt. -/
def bootTenant (t : Nat) (s : State) : State :=
  gapReceipt t (updTenant t (fun x => { x with charged := (sagTenant s t).ceiling, reserved := 0 }) s)

/-- Sagger unseals its state: what its RAM kept stands, the rest comes from the records of the current life-cycle state; records
that fail authentication start the state afresh (R440). -/
def unsealState (good : Bool) (s : State) : State :=
  let recs := (liveSagger (crkLog s s.crk.active)).filter fun e => decide (e.2.lc = lifecycle s)
  let s1 := if noJournal s || recs = [] then s
    else if good then
      (recs.filter fun e => (tfind s.sag.tenants e.2.tenant).isNone).foldl (fun t e => restoreTenant e.2 t) s
    else
      let s0 := recs.foldl (fun t e => updSag e.2.tenant (fun g => g) t) s
      raiseAlarm 9 none (le 1 (lifecycle s)) (wipeSagger 1 s0)
  (s1.sag.tenants.map (·.1)).foldl (fun t k => bootTenant k t) s1

/-! ## BOOT (R448, R449) -/

/-- The boot may leave step 1: supplies, reference, no analog trip, no shutdown hold, no test instruction (R448, R527, R542, R554). -/
def bootMayRun (s : State) : Bool :=
  s.pwr.boot.isSome && decide (s.pwr.low = []) && s.clk.refOk && !s.thm.atrip && !s.thm.shutdown && !s.pwr.jtag

/-- The link trains (R448, R449). -/
def trainLink (speed width : Nat) (ids : Word) (s : State) : State :=
  { s with hif := { s.hif with
    cfg := { s.hif.cfg with subsystem := ids }, linkSpeed := speed, linkWidth := width, dlUp := decide (speed ≠ 0) } }

/-- Sagger halts: only POR or EXT_RST_N ends it (R449). -/
def haltSagger (code : Nat) (s : State) : State :=
  { s with sag := { s.sag with halted := true, failCode := code, stage := 0xFF } }

/-- Fuse bits of which some copy is blown are completed (R455). -/
def completeFuses (s : State) : State :=
  { s with sag := { s.sag with fuses := s.sag.fuses.map fun n => if n = 0 then 0 else 3 } }

/-- Steps 8 and 9: the journal, Sagger's state, the nozzle entries, command-ready. -/
def bootJournal (cs0 cs1 : Nat) (good : Bool) (s : State) : State :=
  let s1 := crkRecover cs0 cs1 s
  let s2 := if noJournal s1 then s1 else recoverTally (snapLost { s1 with til := { s1.til with entries := rebuiltEntries s1 } })
  let s3 := unsealState good s2
  { s3 with
    pwr := { s3.pwr with boot := none, bootHeld := true },
    sag := { s3.sag with stage := 7, ready := true },
    fw := { s3.fw with ready := true } }

/-- A boot from step 1 to command-ready: the sizes of the two NOR devices in MiB (0 for one absent or unreadable) and their manufacturer
IDs, the rate and width the link trains to, whether sealed state authenticates, and what fails: 0 nothing, 1 ROM integrity, 2 TRNG
health, 3 inconsistent fuses, 4 DRAM training. -/
def boot (cs0 cs1 id0 id1 speed width : Nat) (good : Bool) (failed : Nat) (s : State) : State :=
  if !bootMayRun s then s
  else if s.sag.halted then trainLink speed width 0x72401E9C#32 s
  else if s.sag.failCode ≠ 0 then s
  else if failed = 1 ∨ failed = 2 ∨ failed = 3 then trainLink speed width 0x72401E9C#32 (haltSagger failed s)
  else
    let s1 := completeFuses { s with clk := { s.clk with rootLock := true, ddrLock := decide (failed ≠ 4) } }
    let d := draw 10 s1
    let s2 := dllChange true d.1.toNat d.2
    let s3 := wn Reg.CRK_DEV0 (cs0 + 65536 * id0) (wn Reg.CRK_DEV1 (cs1 + 65536 * id1) s2)
    let s4 := if cs0 + cs1 = 0 then
        { s3 with sag := { s3.sag with patches := [], patchLevel := 0, patchDigest := 0, trust := [] } }
      else bootPatches { s3 with sag := { s3.sag with
      trust := Config.trustList ((bootItem s3 2).getD []) s3.sag.oemHash } }
    let ids := if cs0 + cs1 = 0 then 0x72401E9C#32 else subsystemIds s4
    let s5 := trainLink speed width ids s4
    if failed = 4 then { s5 with sag := { s5.sag with stage := 5, failCode := 4 } }
    else bootJournal cs0 cs1 good s5

def execBoot (cs0 cs1 : BitVec 16) (id0 id1 : BitVec 8) (speed : BitVec 3) (width : BitVec 4) (good : Bool) (failed : Fin 5)
    (s : State) : Host.Outcome State Fault Refusal :=
  .next (boot cs0.toNat cs1.toNat id0.toNat id1.toNat speed.toNat width.toNat good failed.val s)

end Sys2Proof.Machine
end

