-- ==== Sys2Proof/Machine/Mill.lean ====
section
/-! DEFINITION. Mill: the match search, the codes it builds, and the blocks and husks it writes (spec/06, R173 to R178). -/

namespace Sys2Proof.Machine
open Sys2Proof

/-! ## The match search (R175) -/

/-- What Mill sends of a block: a literal, a match by length and distance, or a line-above match by length. -/
inductive MillTok where
  | lit (b : Byte)
  | back (len dist : Nat)
  | above (len : Nat)
  deriving DecidableEq, Repr

/-- How many bytes two sequences share from their starts, up to a limit. -/
def runLen : Nat → List Byte → List Byte → Nat
  | n + 1, a :: r, b :: q => if a = b then runLen n r q + 1 else 0
  | _, _, _ => 0

/-- The longest match a block admits (R152, R175). -/
def maxMatch : Nat := 68614

/-- The line-above match at position p, at the block's first line against the virtual line of zeros. -/
def aboveLen (stride : Nat) (bs : List Byte) (p : Nat) : Nat :=
  runLen maxMatch (bs.drop p) ((List.replicate stride 0#8 ++ bs).drop p)

/-- The hash chain of position p: the earlier positions within 65,536 bytes whose next 3 bytes have its hash, nearest first, as many as
DEPTH. Every position of the block is in it (DEDUCED: notes/assumptions/40.md). -/
def hashChain (depth : Nat) (bs : List Byte) (p : Nat) : List Nat :=
  let key := fun (q : Nat) => match bs.drop q with
    | a :: b :: c :: _ => some (Config.millHash a b c)
    | _ => none
  if (key p).isNone then []
  else (((List.range (min p 65536)).map fun k => p - 1 - k).filter fun q => decide (key q = key p)).take depth

/-- Walk a chain with the best length and distance so far: a longer match takes its place, and a match of NICE bytes ends the walk. -/
def walkChain (nice : Nat) (bs : List Byte) (p : Nat) : List Nat → Nat × Nat → Nat × Nat
  | [], best => best
  | q :: r, best =>
    let n := runLen maxMatch (bs.drop p) (bs.drop q)
    let best1 := if best.1 < n then (n, p - q) else best
    if nice ≤ n then best1 else walkChain nice bs p r best1

/-- MIL_PARAM's fields. -/
structure MillParam where
  depth : Nat
  lazy : Bool
  nice : Nat
  deriving DecidableEq, Repr

/-- The match Mill takes at a position: the longest of at least 3 bytes, ties to the line-above match and then to the shorter distance; its
length, and the distance, 0 for line-above. -/
def bestMatch (m : MillParam) (stride : Nat) (bs : List Byte) (p : Nat) : Option (Nat × Nat) :=
  let b := walkChain m.nice bs p (hashChain m.depth bs p) (aboveLen stride bs p, 0)
  if 3 ≤ b.1 then some b else none

/-- The tokens of a block from a position on (fuel: one token each byte). With LAZY a match gives way to a literal where the next position
yields a strictly longer one. -/
def millTokens (m : MillParam) (stride : Nat) (bs : List Byte) : Nat → Nat → List MillTok
  | 0, _ => []
  | fuel + 1, p => match bs.drop p with
    | [] => []
    | b :: _ => match bestMatch m stride bs p with
      | none => .lit b :: millTokens m stride bs fuel (p + 1)
      | some (n, d) =>
        let later := ((bestMatch m stride bs (p + 1)).map (·.1)).getD 0
        if m.lazy && decide (n < later) then .lit b :: millTokens m stride bs fuel (p + 1)
        else (if d = 0 then .above n else .back n d) :: millTokens m stride bs fuel (p + n)

/-! ## Codes (R159, R160, R174) -/

/-- The number of the code, of those from 0 below `n`, with the greatest base not above a value. -/
def codeFor (base : Nat → Nat) (n v : Nat) : Nat := ((List.range n).filter fun k => decide (base k ≤ v)).getLastD 0

/-- The symbols of a token: the literal/length symbol with its extra bits, and the distance symbol with its own; extra bits as count and
value (R152, R153). -/
def MillTok.syms : MillTok → (Nat × Nat × Nat) × Option (Nat × Nat × Nat)
  | .lit b => ((b.toNat, 0, 0), none)
  | .above n =>
    let k := codeFor (fun k => (lenCode k).2) 28 n
    ((285 + k, (lenCode k).1, n - (lenCode k).2), none)
  | .back n d =>
    let k := codeFor (fun k => (lenCode k).2) 28 n
    let e := codeFor (fun k => (distCode k).2) 32 d
    ((257 + k, (lenCode k).1, n - (lenCode k).2), some (e, (distCode e).1, d - (distCode e).2))

/-- How often each of `n` symbols occurs. -/
def symCounts (n : Nat) (syms : List Nat) : List Nat := (List.range n).map fun i => syms.count i

/-- Code lengths fit counts: the used symbols have the lengths of a valid code within the limit, the others none (R160). -/
def lensFit (limit : Nat) (counts lens : List Nat) : Bool :=
  decide (lens.length = counts.length) && lens.all (· ≤ limit) &&
    ((lens.zip counts).all fun q => decide (q.1 = 0 ↔ q.2 = 0)) && (mkCode limit lens).isSome

/-- Code lengths as even as may be: what stands in where the chosen ones are no valid code. -/
def evenLens (counts : List Nat) : List Nat :=
  let m := (counts.filter (0 < ·)).length
  let b := max 1 (Nat.log2 (2 * m - 1))
  let short := if m ≤ 1 then 0 else 2 ^ b - m
  (counts.zipIdx.map fun q =>
    if q.1 = 0 then 0
    else if ((counts.take q.2).filter (0 < ·)).length < short then b - 1 else b)

/-- The code lengths Mill gives an alphabet (R174). -/
def millCode (limit : Nat) (counts : List Nat) : List Nat :=
  let l := Config.millLens limit counts
  if lensFit limit counts l then l else evenLens counts

/-- The first code of a length (R159). -/
def firstCode (lens : List Nat) : Nat → Nat
  | 0 => 0
  | b + 1 => 2 * (firstCode lens b + if b = 0 then 0 else lens.count b)

/-- A number's bits, least significant first. -/
def lsbBits (n v : Nat) : List Bool := (List.range n).map fun i => v.testBit i

/-- A symbol's code, most significant bit first (R151, R159). -/
def symBits (lens : List Nat) (sym : Nat) : List Bool :=
  let n := lens.getD sym 0
  (lsbBits n (firstCode lens n + (lens.take sym).count n)).reverse

/-! ## The coded body (R157, R158, R174) -/

/-- The code lengths that code-length symbols stand for, newest first. -/
def expandLens : List (Nat × Nat) → List Nat → List Nat
  | [], acc => acc
  | (sym, x) :: r, acc =>
    expandLens r (if sym < 16 then sym :: acc
      else List.replicate (if sym = 18 then 11 + x else 3 + x) (if sym = 16 then acc.headD 0 else 0) ++ acc)

/-- Extra bits of a code-length symbol (R157). -/
def clExtra (sym : Nat) : Nat := if sym < 16 then 0 else if sym = 16 then 2 else if sym = 17 then 3 else 7

/-- The code-length symbols Mill sends for the code lengths: its repeat choice, or each length by itself where that is not one. -/
def lenSyms (lens : List Nat) : List (Nat × Nat) :=
  let l := Config.millRepeats lens
  if (l.all fun q => decide (q.1 ≤ 18 ∧ q.2 < 2 ^ clExtra q.1)) && decide ((l.head?.map (·.1)) ≠ some 16) &&
      decide ((expandLens l []).reverse = lens) then l
  else lens.map fun n => (n, 0)

/-- How many lengths of an alphabet are sent: up to the last used symbol, at least `least`. -/
def sentLen (least : Nat) (lens : List Nat) : Nat :=
  max least (((List.range lens.length).filter fun i => decide (lens.getD i 0 ≠ 0)).getLastD 0 + 1)

/-- Bits as bytes, least significant bit first, padded with zeros (R151). -/
def streamBytes (bits : List Bool) : List Byte :=
  (List.range (cdiv bits.length 8)).map fun k =>
    BitVec.ofNat 8 (((List.range 8).map fun i => if bits.getD (8 * k + i) false then 2 ^ i else 0).sum)

/-- The coded bit stream of a block's tokens. -/
def millBody (toks : List MillTok) : List Byte :=
  let ps := toks.map MillTok.syms
  let ll := millCode 15 (symCounts 313 (ps.map (·.1.1) ++ [256]))
  let dc := millCode 15 (symCounts 32 (ps.filterMap fun q => q.2.map (·.1)))
  let nll := sentLen 257 ll
  let nd := sentLen 1 dc
  let ls := lenSyms (ll.take nll ++ dc.take nd)
  let cl := millCode 7 (symCounts 19 (ls.map (·.1)))
  let order := clOrder.map fun i => cl.getD i 0
  let ncl := sentLen 4 order
  let sym := fun (lens : List Nat) (q : Nat × Nat × Nat) => symBits lens q.1 ++ lsbBits q.2.1 q.2.2
  streamBytes (lsbBits 6 (nll - 257) ++ lsbBits 5 (nd - 1) ++ lsbBits 4 (ncl - 4) ++ (order.take ncl).flatMap (lsbBits 3) ++
    (ls.flatMap fun q => symBits cl q.1 ++ lsbBits (clExtra q.1) q.2) ++
    (ps.flatMap fun q => sym ll q.1 ++ (q.2.map (sym dc)).getD []) ++ symBits ll 256)

/-! ## Blocks and husks (R173, R174, R176, R177) -/

/-- Mill's parameters of the search (R178: those in force as the block starts). -/
def millParam (s : State) : MillParam :=
  { depth := rf s Reg.MIL_PARAM 8 0, lazy := rbit s Reg.MIL_PARAM 9, nice := rf s Reg.MIL_PARAM 31 16 }

/-- The block Mill forms of whole lines, its type chosen by R174 and a coded block verified under R176; whether it was coded and failed. -/
def millForm (s : State) (stride : Nat) (input : List Byte) : List Byte × Bool :=
  let coded := [0x02#8, 0, 0, 0] ++ millBody (millTokens (millParam s) stride input input.length 0)
  let lines := input.length / stride
  if input.all (· = input.headD 0) then ([0x01#8, input.headD 0, 0, 0], false)
  else if 4 + input.length ≤ coded.length then ([0x00#8, 0, 0, 0] ++ input, false)
  else match (decodeBlock lines stride coded).out with
    | .ok out => if out = input then (coded, false) else ([0x00#8, 0, 0, 0] ++ input, true)
    | .error _ => ([0x00#8, 0, 0, 0] ++ input, true)

/-- The husk of a job's blocks (R173, R177). -/
def millHusk (j : MillJob) : List Byte :=
  let lines := (j.husk.map (·.lines)).sum
  le 2 0x4B48 ++ le 2 j.husk.length ++ le 4 j.huskLine ++ le 4 lines ++ le 1 1 ++ List.replicate 3 0 ++
    (j.husk.flatMap fun b => le 4 b.bytes.length ++ le 4 b.lines ++ le 4 b.crc.toNat ++ le 4 0) ++
    j.husk.flatMap (·.bytes)

/-- The open husk of a job is written. -/
def closeHusk (j : MillJob) : MillJob := { j with husks := j.husks ++ millHusk j, husk := [], huskLine := j.lines }

/-- A Mill lane writes the next block of a job; a full husk, or the input's end, closes the husk, with no block left to write too (R173,
R177). -/
def jobBlock (lane : Nat) (j : MillJob) (s : State) : MillJob × State :=
  let want := max 1 (rf s Reg.MIL_BLOCK 18 0 / j.stride)
  let held := j.input.length / j.stride
  let n := min want held
  if !rbit s Reg.MIL_CTRL lane then (j, s)
  else if n = 0 then (if j.ended ∧ j.husk ≠ [] then closeHusk j else j, s)
  else if !j.ended && decide (held < want) then (j, s)
  else
    let input := j.input.take (n * j.stride)
    let (bytes, bad) := millForm s j.stride input
    let first := j.lines
    let b : MillBlock := { bytes, lines := n, crc := crc32c input }
    let j1 := { j with input := j.input.drop (n * j.stride), husk := j.husk ++ [b], lines := j.lines + n }
    let close := decide (rf s Reg.MIL_HUSK 12 0 ≤ j1.husk.length) || (j.ended && decide (j1.input.length < j.stride))
    let s1 := inc64 Reg.MIL_IN_BYTES input.length (inc64 Reg.MIL_OUT_BYTES bytes.length (inc Reg.MIL_BLK_CNT 1 s))
    let s2 := if bytes.headD 0 = 0x00#8 then inc Reg.MIL_STORED_CNT 1 s1
      else if bytes.headD 0 = 0x01#8 then inc Reg.MIL_FILL_CNT 1 s1 else s1
    (if close then closeHusk j1 else j1,
      if bad then raiseIrq pgMil 4 (event 0x2101 none (le 1 lane ++ le 4 first) (inc Reg.MIL_VERIFY_FAIL_CNT 1 s2)) else s2)

/-- A lane's next block of the camera image in compression. -/
def imageBlock (lane : Nat) (s : State) : State :=
  match s.mil.job with
  | none => s
  | some j =>
    let q := jobBlock lane j s
    { q.2 with mil := { q.2.mil with job := some q.1 } }

/-! ## Diagnostic captures (R443) -/

/-- A Grist stream header of a contone stream (R145, R146). -/
def gristHeader (width height : Nat) : List Byte :=
  le 4 0x54535247 ++ le 1 1 ++ le 1 0 ++ le 2 0 ++ le 4 width ++ le 4 height ++ List.replicate 16 0

/-- Sagger enables a capture of a plane's composited contone: its frame carries no copy, or one of tenant 0 (R443). -/
def captureAllowed (s : State) (p : Nat) : Bool :=
  match (plane s p).copy with
  | some c => match findCopy s c with | some x => decide (x.tenant = 0) | none => true
  | none => true

/-- The composited contone in a plane's staging of the copy its frame carries. -/
def stagedLines (s : State) (p : Nat) : List Staged :=
  match (planeHeads s p).head? with
  | some d => (tget s.glz.staging [] d.head).filter fun x => decide (some x.copy = (plane s p).copy)
  | none => []

/-- The Mill job of a capture: the staged lines as they stand, a byte to each column. -/
def captureJob (s : State) (p : Nat) : MillJob :=
  let ls := stagedLines s p
  { port := 0, image := 0, dt := 0, ended := true, places := [], stride := max 1 ((ls.head?.map (·.px.length)).getD 1),
    input := ls.flatMap fun x => x.px.map fun v => BitVec.ofNat 8 v, husk := [], huskLine := 0, husks := [], lines := 0 }

/-- The capture in progress on a plane; else, while none is in progress, a new one where Sagger enables it. -/
def captureOf (s : State) (p : Nat) : Option MillJob :=
  match s.mil.diag with
  | some d => if d.plane = p then some d.job else none
  | none => if captureAllowed s p then some (captureJob s p) else none

/-- A lane's next block of a plane's diagnostic capture; resident firmware stores the stream after the last one. A capture Sagger refuses
has no effect. -/
def captureBlock (lane p : Nat) (s : State) : State :=
  match captureOf s p with
  | none => s
  | some j =>
    let q := jobBlock lane j s
    if q.1.husk ≠ [] ∨ q.1.stride ≤ q.1.input.length then { q.2 with mil := { q.2.mil with diag := some ⟨p, q.1⟩ } }
    else
      let more := if q.1.lines = 0 then [] else [(p, gristHeader q.1.stride q.1.lines ++ q.1.husks)]
      { q.2 with mil := { q.2.mil with diag := none, captures := q.2.mil.captures ++ more } }

/-- MILL_BLOCK of the image or of a capture. -/
def millBlock (lane : Nat) (capture : Option (Fin 16)) (s : State) : State :=
  match capture with
  | none => imageBlock lane s
  | some p => captureBlock lane p.val s

def execMillBlock (lane : Fin 2) (capture : Option (Fin 16)) (s : State) : Host.Outcome State Fault Refusal :=
  .next (millBlock lane.val capture s)

end Sys2Proof.Machine
end

