-- ==== Sys2Proof/Machine/Camera.lean ====
section
/-! DEFINITION. The inspection camera pipeline: packets, the pipeline, shading and registration, stalls, stored images and its commands
(spec/15). -/

namespace Sys2Proof.Machine
open Sys2Proof

/-! ## Formats (R366, R367) -/

/-- Channels of a data type. -/
def dtChannels (dt : Nat) : Nat := if dt = 0x24 then 3 else 1

/-- Payload bytes of a line of w pixels, as CSI-2 packs it. -/
def dtBytes (dt w : Nat) : Nat :=
  match dt with
  | 0x24 => 3 * w
  | 0x2B => w * 5 / 4
  | 0x2C => w * 3 / 2
  | _ => w

/-- RAW10: four bytes of high bits and one of the four low pairs. -/
def unpack10 : List Byte → List Nat
  | a :: b :: c :: d :: e :: r =>
    let lo := fun (i : Nat) => bits (2 * i + 1) (2 * i) e.toNat
    (a.toNat * 4 + lo 0) :: (b.toNat * 4 + lo 1) :: (c.toNat * 4 + lo 2) :: (d.toNat * 4 + lo 3) :: unpack10 r
  | _ => []

/-- RAW12: two bytes of high bits and one of the two low nibbles. -/
def unpack12 : List Byte → List Nat
  | a :: b :: e :: r => (a.toNat * 16 + e.toNat % 16) :: (b.toNat * 16 + e.toNat / 16) :: unpack12 r
  | _ => []

/-- RGB888: blue, green, red on the wire; red is channel 0. -/
def unpackRgb : List Byte → List Nat
  | b :: g :: r :: rest => r.toNat :: g.toNat :: b.toNat :: unpackRgb rest
  | _ => []

/-- The 12-bit samples of a line, pixel by pixel. -/
def samples (dt : Nat) (bs : List Byte) : List Nat :=
  match dt with
  | 0x24 => (unpackRgb bs).map (· * 16)
  | 0x2B => (unpack10 bs).map (· * 4)
  | 0x2C => unpack12 bs
  | _ => bs.map fun b => b.toNat * 16

/-- One channel of a list in pixel-major order. -/
def channelOf (nch ch : Nat) (l : List Nat) : List Nat := (l.zipIdx.filter fun q => q.2 % nch = ch).map (·.1)

/-! ## Shading and registration (R377) -/

/-- A sample corrected by its shading entry; none for a bad pixel. -/
def shadeSample (p entry : Nat) : Option Nat :=
  let g := entry / 65536
  if g = 0 then none
  else some (max 0 (min 4095 (divF ((((p : Int) - (entry % 4096 : Nat)) * g) + 2048) 4096))).toNat

/-- A bad pixel takes the nearest good pixel to its left; the head of the list keeps those with none. -/
def fillLeft : Option Nat → List (Option Nat) → List (Option Nat)
  | _, [] => []
  | _, some v :: r => some v :: fillLeft (some v) r
  | last, none :: r => last :: fillLeft last r

/-- Bad pixels filled: from the left, else from the right, else 0. -/
def fillBad (l : List (Option Nat)) : List Nat :=
  let a := fillLeft none l
  let first := (a.find? (·.isSome)).bind id
  a.map fun v => (v.orElse fun _ => first).getD 0

/-- q of one channel. -/
def shadeChannel (s : State) (k dt ch : Nat) (px : List Nat) : List Nat :=
  let nch := dtChannels dt
  let p := channelOf nch ch px
  if rbit s (Reg.IPL_C_WHITE k) 16 then
    fillBad (p.zipIdx.map fun q => shadeSample q.1 ((cam s k).table.getD (q.2 * nch + ch) 0))
  else p

/-- The knot interval of a column and the camera position there, in 1/256 pixel. -/
def knotPos (c : Nat) : List (Nat × Nat) → Nat
  | (c0, p0) :: (c1, p1) :: r =>
    if c0 ≤ c ∧ c ≤ c1 then
      let span : Int := c1 - c0
      (p0 + divF (((p1 : Int) - p0) * ((c : Int) - c0) * 2 + span) (2 * span)).toNat
    else knotPos c ((c1, p1) :: r)
  | _ => 0

/-- The knots in use. -/
def knotsOf (s : State) (k : Nat) : List (Nat × Nat) := (cam s k).knots.take (rf s (Reg.IPL_C_KNOTS k) 6 0)

/-- The registered value of a column in a channel. -/
def register (w pc : Nat) (q : List Nat) : Nat :=
  let x0 := pc / 256
  let f := if x0 = w - 1 then 0 else pc % 256
  (q.getD x0 0 * (256 - f) + q.getD (x0 + 1) 0 * f + 128) / 256

/-- A line's q by channel. -/
def shadeLine (s : State) (k dt : Nat) (bs : List Byte) : List (List Nat) :=
  (List.range (dtChannels dt)).map fun ch => shadeChannel s k dt ch (samples dt bs)

/-- The registered line: the channel values of each of the port's columns. -/
def registerLine (s : State) (k : Nat) (q : List (List Nat)) : List (List Nat) :=
  let cs := camCols s k
  let w := rf s (Reg.IPL_C_WIDTH k) 14 0
  let ks := knotsOf s k
  (List.range (cs.2 + 1 - cs.1)).map fun i =>
    let pc := knotPos (cs.1 + i) ks
    q.map fun l => register w pc l

/-- The pixels of the enabled gutter ranges of a channel. -/
def gutterPixels (s : State) (k : Nat) (q : List Nat) : List Nat :=
  [Reg.IPL_C_GUT0 k, Reg.IPL_C_GUT1 k].flatMap fun g =>
    if rbit s g 31 then (q.drop (rf s g 13 0)).take (rf s g 29 16 + 1 - rf s g 13 0) else []

/-- The gutter means of a line by channel (R408). -/
def gutterMeans (s : State) (k : Nat) (q : List (List Nat)) : List (Nat × Nat) :=
  q.zipIdx.filterMap fun c =>
    let l := gutterPixels s k c.1
    if l = [] then none else some (c.2, l.sum / l.length)

/-! ## Port states (R376, R381, R382) -/

def CamState.code : CamState → Nat
  | .off => 0 | .armed => 1 | .running => 2 | .stalled => 3

/-- A port changes state (IPL_PORT_STATE). -/
def setCam (k : Nat) (st : CamState) (cause : Nat) (s : State) : State :=
  let old := (cam s k).state
  if old = st then s
  else raiseIrq (pgIpl k) 7 (event 0x6004 none (le 1 k ++ le 1 old.code ++ le 1 st.code ++ le 1 cause)
    (updCam k (fun g => { g with state := st, cause := if st = .off then cause else g.cause }) s))

/-- A port stops: its unprocessed lines are discarded, its open frame is incomplete, an image it compresses ends; writes that wait
apply at once (R375, R376, R382). -/
def camStop (k cause : Nat) (s : State) : State :=
  if !camRunning s k then s
  else
    let g := cam s k
    let tail := match g.frame with | some n => [CamItem.close n false] | none => []
    let s1 := setCam k .off cause (updCam k (fun g => { g with
      waiting := [], items := g.items ++ tail, frame := none, whole := false, prevReg := none }) s)
    let s2 := { wf Reg.IPL_CTRL k k 0 s1 with
      ipl := { s1.ipl with slice := match s1.ipl.slice with | some (j, n) => if j = k then none else some (j, n) | none => none },
      mil := { s1.mil with job := s1.mil.job.map fun j => if j.port = k then { j with ended := true } else j } }
    tryRules (closeWindows (refreshWindows (idleLatch (pgIpl k) s2)))

/-- A port starts: ARMED until its first boundary (R382). -/
def camStart (k : Nat) (s : State) : State :=
  if camRunning s k then s
  else setCam k .armed 0 (wf Reg.IPL_CTRL k k 1 (updCam k (fun g => { g with
    waiting := [], prev := none, frame := none, fresh := true, whole := false, missed := 0, carry := 0, skipTold := false,
    prevReg := none, fsOpen := false, quiet := now s }) s))

/-- The rings are reserved at the first start of a port (R388). -/
def reserveRings (s : State) : State :=
  (planeNums.filter fun p => (plane s p).table.isSome).foldl (fun t p => reserveRing p t)
    { s with win := { s.win with made := true } }

/-- Every plane with a table has its ring. -/
def ringsWhole (s : State) : Bool := planeNums.all fun p => (plane s p).table.isNone || (tfind s.win.rings p).isSome

/-- Bytes a stored image takes of the image store. -/
def StoredImage.size (x : StoredImage) : Nat := x.stream.length

/-- The oldest images go until those left fit (R383). -/
def fitImages (limit : Nat) : List StoredImage → List StoredImage
  | [] => []
  | x :: r => if ((x :: r).map (·.size)).sum ≤ limit then x :: r else fitImages limit r

/-- The oldest stored image of each port shows in IPL_C_OLDEST. -/
def refreshOldest (s : State) : State :=
  camNums.foldl (fun t k =>
    wn (Reg.IPL_C_OLDEST k) (((t.ipl.images.find? fun x => x.port = k).map (·.num)).getD 0) t) s

/-- The image store is taken when the first port starts (R383). -/
def takeStore (s : State) : State :=
  if camNums.any fun k => camRunning s k then s
  else
    let n := rf s Reg.IPL_STORE 14 0
    refreshOldest { s with ipl := { s.ipl with storeMib := n, images := fitImages (n * 1048576) s.ipl.images } }

/-- Ports start. -/
def camStarts (ks : List Nat) (s : State) : State :=
  if ks = [] then s else refreshWindows (ks.foldl (fun t k => camStart k t) (takeStore s))

/-- INSPECT_CONTROL (R382, R383, R388). -/
def inspectControl (h : Hdr) (mask inl action : Nat) (s : State) : State :=
  if 15 < mask ∨ 3 < inl ∨ 1 < action ∨ mask / 2 ^ inl % 2 = 0 then fail h 0x0103 s
  else if action = 0 then ok h 0 ((maskBits 4 mask).foldl (fun t k => camStop k 0 t) s)
  else
    let s1 := if s.win.made then s else reserveRings s
    if !s.win.made && !ringsWhole s1 then fail h 0x0401 s
    else ok h 0 (wf Reg.IPL_CTRL 5 4 inl (camStarts (maskBits 4 mask) s1))

def execInspectControl (d : Desc) (mask inline action : BitVec 8) (s : State) : Host.Outcome State Fault Refusal :=
  .next (command d .o (fun _ => (maskBits 4 mask.toNat).map objPort) (.inspectControl d mask inline action)
    (fun h => inspectControl h mask.toNat inline.toNat action.toNat) s)

/-- A write of IPL_CTRL starts and stops ports as INSPECT_CONTROL does. -/
def iplCtrlWrite (v : Word) (s : State) : State :=
  let s1 := camNums.foldl (fun t k => if v.toNat / 2 ^ k % 2 = 0 then camStop k 0 t else t) s
  let new := camNums.filter fun k => decide (v.toNat / 2 ^ k % 2 = 1) && !camRunning s1 k
  let s2 := if new = [] ∨ s1.win.made = true then s1 else reserveRings s1
  wf Reg.IPL_CTRL 5 4 (bits 5 4 v.toNat) (camStarts new s2)

/-! ## Packets (R365 to R368, R373, R378, R381) -/

/-- A line is missing (R380). -/
def missLine (k : Nat) (s : State) : State :=
  inc (Reg.IPL_C_MISS_CNT k) 1 (updCam k (fun g => { g with missed := g.missed + 1 }) s)

/-- The header of a packet is the port's: its virtual channel, no extension, and a good or corrected ECC (R366). -/
def headerOk (s : State) (k vc vcx : Nat) (hdrOk : Bool) : Bool :=
  hdrOk && decide (vc = rf s (Reg.IPL_C_CSI k) 1 0 ∧ vcx = 0)

/-- Sums of samples, position by position. -/
def addSums : List Nat → List Nat → List Nat
  | a :: r, b :: q => (a + b) :: addSums r q
  | [], q => q
  | r, [] => r

/-- A kept line enters the shading capture in progress (R378). -/
def captureLine (k dt : Nat) (bs : List Byte) (s : State) : State :=
  match (cam s k).capture with
  | some c =>
    if c.left = 0 then s
    else updCam k (fun g => { g with
      capture := some { c with left := c.left - 1, sums := addSums c.sums (samples dt bs) } }) s
  | none => s

/-- A stall ends with the next kept line (R381). -/
def stallEnd (k : Nat) (s : State) : State :=
  if (cam s k).state = .stalled then
    raiseIrq (pgIpl k) 4 (event 0x6001 none (le 1 k ++ le 1 0 ++ le 8 ((cam s k).prev.getD 0) ++ le 8 (stamp s).toNat)
      (setCam k .running 0 s))
  else s

/-- Bytes of a capture ring (R370). -/
def ringSize : Nat := 134217728

/-- The oldest lines of a full capture ring are overwritten; they are missing. -/
def ringOverwrite (k : Nat) (s : State) : State :=
  let g := cam s k
  match g.waiting with
  | l :: r =>
    if ringSize < (g.waiting.map fun x => x.bytes.length).sum then
      inc (Reg.IPL_C_MISS_CNT k) 1 (updCam k (fun g => { g with waiting := r, carry := g.carry + l.gap + 1 }) s)
    else s
  | [] => s

/-- A port keeps a line: timestamped, captured, and queued for the pipeline. -/
def keepLine (k dt t : Nat) (bs : List Byte) (s : State) : State :=
  let s1 := captureLine k dt bs (stallEnd k s)
  let g := cam s1 k
  let l : CamLine := { t := t - rf s (Reg.IPL_C_EXPO k) 23 0, u := none, gap := g.missed,
                       inl := decide (rf s Reg.IPL_CTRL 5 4 = k), dt, bytes := bs }
  ringOverwrite k (placeLines k (updCam k (fun g => { g with waiting := g.waiting ++ [l], missed := 0, quiet := t }) s1))

/-- The in-line buffer of eight lines is full (R369). -/
def inlineFull (s : State) (k : Nat) : Bool :=
  decide (rf s Reg.IPL_CTRL 5 4 = k) && decide (8 ≤ ((cam s k).waiting.filter (·.inl)).length)

/-- A long packet arrives at a port (R366, R368). -/
def longPacket (k vc vcx dt wc : Nat) (hdrOk crcOk full : Bool) (bs : List Byte) (t : Nat) (s0 : State) : State :=
  let s := advanceTo t s0
  let w := rf s (Reg.IPL_C_WIDTH k) 14 0
  if !camRunning s k then s
  else if !headerOk s k vc vcx hdrOk || decide (dt ≠ rf s (Reg.IPL_C_CSI k) 7 2) then
    missLine k (inc (Reg.IPL_C_HDR_ERR_CNT k) 1 s)
  else if !crcOk || decide (wc ≠ dtBytes dt w) || decide (bs.length ≠ wc) then missLine k (inc (Reg.IPL_C_CRC_CNT k) 1 s)
  else if full || inlineFull s k then missLine k (inc (Reg.IPL_C_FIFO_OVF_CNT k) 1 s)
  else keepLine k dt t bs s

def execCsiLongPacket (port : Fin 4) (vc vcx : BitVec 2) (dt : BitVec 6) (wc : BitVec 16) (hdrOk crcOk full : Bool)
    (bytes : List Byte) (t : DWord) (s : State) : Host.Outcome State Fault Refusal :=
  .next (longPacket port.val vc.toNat vcx.toNat dt.toNat wc.toNat hdrOk crcOk full bytes t.toNat s)

/-- A short packet arrives: frames are checked for pairing (R366). -/
def shortPacket (k vc vcx : Nat) (kind : ShortPacket) (hdrOk : Bool) (t : Nat) (s0 : State) : State :=
  let s := advanceTo t s0
  if !camRunning s k then s
  else if !headerOk s k vc vcx hdrOk then inc (Reg.IPL_C_HDR_ERR_CNT k) 1 s
  else match kind with
    | .frameStart =>
      let s1 := updCam k (fun g => { g with fsOpen := true }) s
      if (cam s k).fsOpen then inc (Reg.IPL_C_HDR_ERR_CNT k) 1 s1 else s1
    | .frameEnd => updCam k (fun g => { g with fsOpen := false }) s
    | .ignored => s

def execCsiShortPacket (port : Fin 4) (vc vcx : BitVec 2) (kind : ShortPacket) (hdrOk : Bool) (t : DWord) (s : State) :
    Host.Outcome State Fault Refusal :=
  .next (shortPacket port.val vc.toNat vcx.toNat kind hdrOk t.toNat s)

/-- No kept line for TMO while the plane moves: the port stalls (R381). -/
def stallTimeout (k t : Nat) (s : State) : State :=
  let g := cam s k
  let p := plane s (camPlane s k)
  if g.state ≠ .running ∨ p.paused = true ∨ p.state = .stopped ∨ t < g.quiet + rf s (Reg.IPL_C_STALL k) 15 0 * us then s
  else
    let s1 := advanceTo t s
    let s2 := setCam k .stalled 0 (updCam k (fun g => { g with whole := false }) s1)
    closeWindows (raiseIrq (pgIpl k) 4 (event 0x6001 none
      (le 1 k ++ le 1 1 ++ le 8 (g.prev.getD 0) ++ le 8 (stamp s1).toNat) (inc (Reg.IPL_C_STALL_CNT k) 1 s2)))

def execIplStallTimeout (port : Fin 4) (t : DWord) (s : State) : Host.Outcome State Fault Refusal :=
  .next (stallTimeout port.val t.toNat s)

/-! ## Shading capture (R378) -/

/-- A write of IPL_C_CTRL starts a capture, or is ignored while one is busy. -/
def captWrite (k : Nat) (v : Word) (s : State) : State :=
  let mode := bits 1 0 v.toNat
  let cnt := bits 11 8 v.toNat
  if mode = 0 then s
  else if mode = 3 ∨ 10 < cnt then recordErr (pgIpl k) 0x05 s
  else if (cam s k).capture.isSome then recordErr (pgIpl k) 0x40 s
  else updCam k (fun g => { g with capture := some ⟨mode, cnt, 2 ^ cnt, []⟩ }) s

def execShadingCaptureDark (ini : Initiator) (port : Fin 4) (val : Word) (s : State) : Host.Outcome State Fault Refusal :=
  .next (guardWrite ini (Reg.IPL_C_CTRL port.val) allBytes val (captWrite port.val) s)

def execShadingCaptureWhite (ini : Initiator) (port : Fin 4) (val : Word) (s : State) : Host.Outcome State Fault Refusal :=
  .next (guardWrite ini (Reg.IPL_C_CTRL port.val) allBytes val (captWrite port.val) s)

/-- The mean of 2^CNT sums as R378 rounds it. -/
def captMean (cnt m : Nat) : Nat := if cnt = 0 then m else (m + 2 ^ (cnt - 1)) / 2 ^ cnt

/-- A shading entry after a capture. -/
def captEntry (mode cnt white old m : Nat) : Nat :=
  let a := captMean cnt m
  let d := old % 4096
  if mode = 1 then old / 65536 * 65536 + a % 4096
  else if a < d + 64 then d
  else min 65535 ((white * 4096 + (a - d) / 2) / (a - d)) * 65536 + d

/-- A capture has taken its last line: the result becomes the shadow table (R378). -/
def captDone (k : Nat) (s : State) : State :=
  match (cam s k).capture with
  | some c =>
    if c.left ≠ 0 then s
    else
      let g := cam s k
      let old := g.pendTable.getD g.table
      let white := rf s (Reg.IPL_C_WHITE k) 11 0
      let new := c.sums.zipIdx.map fun q => captEntry c.mode c.cnt white (old.getD q.2 0) q.1
      let nch := dtChannels (rf s (Reg.IPL_C_CSI k) 7 2)
      let bad := ((List.range (new.length / nch)).filter fun x =>
        (List.range nch).any fun ch => decide (new.getD (x * nch + ch) 0 < 65536)).length
      let s1 := updCam k (fun g => { g with capture := none, pendTable := some new }) s
      pendPage (pgIpl k) (raiseIrq (pgIpl k) 6
        (event 0x6003 none (le 1 k ++ le 1 c.mode ++ le 4 (2 ^ c.cnt) ++ le 2 bad) s1))
  | none => s

def execShadingCaptureDone (port : Fin 4) (s : State) : Host.Outcome State Fault Refusal := .next (captDone port.val s)

/-! ## CAMERA_CONFIG (R379) -/

/-- IPL_C_PHY.LMAP names four lanes. -/
def lmapOk (v : Nat) : Bool :=
  let l := fun (i : Nat) => bits (2 * i + 1) (2 * i) v
  decide (l 0 ≠ l 1 ∧ l 0 ≠ l 2 ∧ l 0 ≠ l 3 ∧ l 1 ≠ l 2 ∧ l 1 ≠ l 3 ∧ l 2 ≠ l 3)

/-- A data type a port takes. -/
def dtOk (dt : Nat) : Bool := decide (dt = 0x24 ∨ dt = 0x2A ∨ dt = 0x2B ∨ dt = 0x2C)

/-- The checks of R385 beyond field ranges, on one register's value. -/
def camFieldOk (off v : Nat) : Bool :=
  if off = 0x100 then dtOk (bits 7 2 v) else if off = 0x104 then lmapOk v else true

/-- Word i of the image of page offsets 0x100 to 0x17F. -/
def camWord (bs : List Byte) (i : Nat) : Nat := leAt bs (4 * i) 4

/-- A word of the image keeps to its register: no reserved bit, every field in range. -/
def camWordOk (k : Nat) (bs : List Byte) (i : Nat) : Bool :=
  let v := camWord bs i
  let addr := pgIpl k * 0x1000 + 0x100 + 4 * i
  match regDef addr with
  | some r => decide (BitVec.ofNat 32 v &&& ~~~r.mask = 0#32) && inRange addr (BitVec.ofNat 32 v) && camFieldOk (0x100 + 4 * i) v
  | none => decide (v = 0)

/-- Knots rise strictly in column and move one way in position. -/
def knotsOrdered : List (Nat × Nat) → Bool
  | a :: b :: r => decide (a.1 < b.1) && knotsOrdered (b :: r)
  | _ => true

def knotsMonotonic (up : Bool) : List (Nat × Nat) → Bool
  | a :: b :: r => (if up then decide (a.2 < b.2) else decide (b.2 < a.2)) && knotsMonotonic up (b :: r)
  | _ => true

/-- A CAMERA_CONFIG stream passes the checks of R379. -/
def camConfigOk (s : State) (k : Nat) (bs : List Byte) : Bool :=
  let dt := bits 7 2 (camWord bs 0)
  let w := bits 14 0 (camWord bs 2)
  let c0 := bits 17 0 (camWord bs 5)
  let c1 := bits 17 0 (camWord bs 6)
  let n := bits 6 0 (camWord bs 7)
  let raw := (List.range 64).map fun i => (leAt bs (128 + 8 * i) 4, leAt bs (132 + 8 * i) 4)
  let ks := raw.take n
  let others := camNums.filter fun j => decide (j ≠ k) && (cam s j).configured &&
    decide (bits 3 0 (rdShadow s (Reg.IPL_C_FRAME j)).toNat = bits 3 0 (camWord bs 3))
  decide (bs.length = 640 ∨ bs.length = 640 + 4 * w * dtChannels dt) &&
    ((List.range 32).all fun i => camWordOk k bs i) &&
    decide (c0 ≤ c1 ∧ (dt ≠ 0x2B ∨ w % 4 = 0) ∧ (dt ≠ 0x2C ∨ w % 2 = 0)) &&
    (raw.all fun q => decide (q.1 < 2 ^ 18 ∧ q.2 < 2 ^ 22)) && ((raw.drop n).all fun q => decide (q = (0, 0))) &&
    decide (2 ≤ n ∧ n ≤ 64) && knotsOrdered ks &&
    decide ((ks.headD (0, 0)).1 = c0 ∧ (ks.getLastD (0, 0)).1 = c1) &&
    (knotsMonotonic true ks || knotsMonotonic false ks) && (ks.all fun q => decide (q.2 ≤ (w - 1) * 256)) &&
    (bs.length = 640 || (List.range (w * dtChannels dt)).all fun i => decide (bits 15 12 (leAt bs (640 + 4 * i) 4) = 0)) &&
    !others.any fun j =>
      let a := bits 17 0 (rdShadow s (Reg.IPL_C_COL0 j)).toNat
      let b := bits 17 0 (rdShadow s (Reg.IPL_C_COL1 j)).toNat
      decide (a ≤ c1 ∧ c0 ≤ b)

/-- The stream's registers, knots and table become the port's shadow. -/
def camWrite (k : Nat) (bs : List Byte) (s : State) : State :=
  let s1 := (List.range 13).foldl (fun t i => cmdShadowN (pgIpl k * 0x1000 + 0x100 + 4 * i) (camWord bs i) t) s
  let ks := (List.range (bits 6 0 (camWord bs 7))).map fun i => (leAt bs (128 + 8 * i) 4, leAt bs (132 + 8 * i) 4)
  let tab := (List.range ((bs.length - 640) / 4)).map fun i => leAt bs (640 + 4 * i) 4
  updCam k (fun g => { g with
    pendKnots := some ks, pendTable := if bs.length = 640 then g.pendTable else some tab, configured := true }) s1

/-- CAMERA_CONFIG once its stream is complete: it completes where the port's page applies. -/
def cameraConfig (h : Hdr) (c : Instr) (k : Nat) (x : Stream) (s : State) : State :=
  let bs := x.bytes
  if !camConfigOk s k bs then fail h 0x0106 s
  else
    let s1 := park { Parked.of s h c true with objs := [objPort k], pages := [pgIpl k] } (camWrite k bs s)
    idleLatch (pgIpl k) s1

def bodyCameraConfig (h : Hdr) (c : Instr) (port handle : Nat) (s : State) : State :=
  if 3 < port then fail h 0x0104 s
  else withStream h c [objPort port] h.tenant handle (cameraConfig h c port) s

def execCameraConfig (d : Desc) (port : BitVec 8) (handle : Word) (s : State) : Host.Outcome State Fault Refusal :=
  .next (command d .o (fun _ => [objPort port.toNat]) (.cameraConfig d port handle)
    (fun h => bodyCameraConfig h (.cameraConfig d port handle) port.toNat handle.toNat) s)

/-! ## Inspection frames (R374, R380) -/

/-- The signed distance of two running positions. -/
def runSub (a b : Nat) : Int := posSub a b

/-- A port's camera position at u. -/
def camPos (s : State) (k u : Nat) : Nat := posAdd u (-((rf s (Reg.IPL_C_FRAME k) 31 8 * 65536 : Nat) : Int))

/-- The inspection frame a camera position lies in: the latest frame latch of the port's plane it has reached. -/
def markOf (s : State) (k u : Nat) : Option LatchMark :=
  (tget s.ipl.latches [] (camPlane s k)).find? fun m => decide (0 ≤ runSub (camPos s k u) (runPos m.run 0))

/-- The page line at a camera position (R389). -/
def pageLine (s : State) (k u : Nat) (m : LatchMark) : Int :=
  divF (runSub (camPos s k u) (runPos m.run 0)) 65536 - m.blank

/-- The knot table agrees with the registers, so that the port registers columns (R385). -/
def knotsAgree (s : State) (k : Nat) : Bool :=
  let ks := knotsOf s k
  let n := rf s (Reg.IPL_C_KNOTS k) 6 0
  decide (2 ≤ n ∧ n ≤ 64 ∧ ks.length = n) && knotsOrdered ks &&
    decide ((ks.headD (0, 0)).1 = (camCols s k).1 ∧ (ks.getLastD (0, 0)).1 = (camCols s k).2)

/-- An image falls due: it is compressed, or dropped while another one is (R383). -/
def startImage (k n : Nat) (s : State) : State :=
  let r := Reg.IPL_C_STORE k
  if !rbit s r 0 || decide (n % rf s r 15 8 ≠ 0) then s
  else if s.mil.job.isSome then inc (Reg.IPL_C_STORE_DROP_CNT k) 1 s
  else
    let dt := rf s (Reg.IPL_C_CSI k) 7 2
    let stride := dtBytes dt (rf s (Reg.IPL_C_WIDTH k) 14 0)
    let j : MillJob := { port := k, image := n, dt, ended := false, places := [], stride, input := [], husk := [], huskLine := 0,
                         husks := [], lines := 0 }
    { s with mil := { s.mil with job := some j } }

/-- The image of the frame that closes has all its lines. -/
def endImage (k : Nat) (s : State) : State :=
  { s with mil := { s.mil with job := s.mil.job.map fun j => if j.port = k then { j with ended := true } else j } }

/-- A line enters the image being compressed; one whose lines leave the ring before Mill reads them is abandoned (R383). -/
def feedImage (k t u slot : Nat) (y : Int) (bs : List Byte) (s : State) : State :=
  match s.mil.job with
  | some j =>
    if j.port ≠ k ∨ j.ended = true ∨ j.image ≠ (cam s k).image then s
    else if ringSize < j.input.length + bs.length then
      inc (Reg.IPL_C_STORE_DROP_CNT k) 1 { s with mil := { s.mil with job := none } }
    else { s with mil := { s.mil with job := some { j with input := j.input ++ bs, places := j.places ++ [(t, u, slot, y)] } } }
  | none => s

/-- The boundary that opens slot n's inspection frame (R374 to R376, R383): the frame before it closes, the page applies, the image
number steps; a port whose plane is in a scanning mode stops. -/
def boundary (k n : Nat) (s : State) : State :=
  let g := cam s k
  let tail := match g.frame with | some m => [CamItem.close m g.whole] | none => []
  let s1 := endImage k (updCam k (fun g => { g with items := g.items ++ tail }) s)
  let s2 := applyPage (pgIpl k) n s1
  if scanning s2 (camPlane s2 k) then camStop k 1 (updCam k (fun g => { g with frame := some n, whole := false }) s2)
  else
    let s3 := updCam k (fun g => { g with
      frame := some n, image := g.image + 1, skipTold := false, prevReg := none, agree := knotsAgree s2 k,
      whole := knotsAgree s2 k }) s2
    let s4 := if (cam s3 k).state = .armed then setCam k .running 0 s3 else s3
    startImage k (cam s4 k).image s4

/-! ## The pipeline (R371, R372) -/

/-- Cycles the pipeline spends on a line of a port. -/
def lineCycles8 (s : State) (k : Nat) : Nat := 64 + (rf s (Reg.IPL_C_WIDTH k) 14 0 + 7) / 8

/-- The pipeline works: its busy cycles, and those of the last 1 ms. -/
def pipelineBusy (k : Nat) (s : State) : State :=
  let c := lineCycles8 s k
  let keep := s.ipl.busy.filter fun e => decide (now s < e.1 + ms)
  inc64 Reg.IPL_BUSY_CYC c { s with ipl := { s.ipl with busy := (now s, c) :: keep } }

/-- The mean of two registered lines, rounded down (R380). -/
def meanLine (a b : List (List Nat)) : List (List Nat) := (a.zip b).map fun q => (q.1.zip q.2).map fun v => (v.1 + v.2) / 2

/-- A run of missing lines between two registered lines of a frame is filled; where each filled line lies between them follows no
rule (R380). -/
def fillGap (k : Nat) (a b : RegLine) (m : LatchMark) : Nat → State → State
  | 0, s => s
  | n + 1, s =>
    let d := drawIn 0 (runSub b.u a.u) s
    let u := posAdd a.u d.1
    let l : RegLine := { b with u := u, y := pageLine d.2 k u m, px := meanLine a.px b.px }
    fillGap k a b m n (updCam k (fun g => { g with items := g.items ++ [.line l] }) d.2)

/-- A placed line of an inspection frame is shaded, registered and handed to Winnow (R377, R380, R383, R408). -/
def frameLine (k gap u : Nat) (l : CamLine) (m : LatchMark) (s : State) : State :=
  let q := shadeLine s k l.dt l.bytes
  let g := cam s k
  let y := pageLine s k u m
  let r : RegLine := { slot := m.slot, y, t := l.t, u, col0 := (camCols s k).1,
                       px := if g.agree then registerLine s k q else [], repro := none }
  let fill := decide (gap ≤ rf s (Reg.IPL_C_STALL k) 19 16)
  let s1 := match g.prevReg with
    | some a => if 0 < gap ∧ fill = true then fillGap k a r m gap s else s
    | none => s
  let lost := decide (0 < gap) && !(fill && g.prevReg.isSome)
  let s2 := updCam k (fun g => { g with
    items := g.items ++ [.line r], prevReg := some r, whole := g.whole && !lost, prev := some u, lastT := l.t }) s1
  feedImage k l.t u m.slot y l.bytes (whiteLine k (gutterMeans s2 k q) (inc64 (Reg.IPL_C_LINES k) 1 s2))

/-- A placed line whose turn it is: outside every frame it only passes, at a new frame it is the boundary. A run of missing lines that
reaches a boundary leaves both frames incomplete (R380). -/
def pipeLine (k gap u : Nat) (l : CamLine) (s : State) : State :=
  let g := cam s k
  match markOf s k u with
  | none => updCam k (fun g => { g with fresh := false, prev := some u, lastT := l.t }) s
  | some m =>
    if g.frame = some m.slot then frameLine k gap u l m (pipelineBusy k s)
    else if g.fresh then updCam k (fun g => { g with fresh := false, frame := none, prev := some u, lastT := l.t }) s
    else if g.state = .armed ∧ g.prev.isSome ∧ (match g.prev with | some v => decide (markOf s k v = some m) | none => false) = true then
      updCam k (fun g => { g with prev := some u, lastT := l.t }) s
    else
      let s1 := boundary k m.slot (if 0 < gap then updCam k (fun g => { g with whole := false }) s else s)
      if !camRunning s1 k then s1
      else
        match markOf s1 k u with
        | some m1 => frameLine k gap u l m1 (pipelineBusy k s1)
        | none => s1

/-- A line leaves a port's queue for the pipeline: it saw new medium, or is discarded and counted (R373). -/
def startLine (k : Nat) (s : State) : State :=
  let g := cam s k
  match g.waiting with
  | l :: r => match l.u with
    | some u =>
      let gap := g.carry + l.gap
      let s1 := updCam k (fun g => { g with waiting := r, carry := 0 }) s
      if (match g.prev with | some v => decide (runSub u v ≤ 0) | none => false) then
        inc (Reg.IPL_C_DUP_CNT k) 1 (updCam k (fun g => { g with carry := gap }) s1)
      else pipeLine k gap u l s1
    | none => s
  | [] => s

/-- A port's next line is placed and of the kind asked for: in-line, or through memory. -/
def camReady (s : State) (k : Nat) (inl : Bool) : Bool :=
  match (cam s k).waiting with
  | l :: _ => l.u.isSome && l.inl == inl
  | [] => false

/-- The port whose next line is oldest, ties to the lower. -/
def oldestPort (s : State) (inl : Bool) : Option Nat :=
  (camNums.filter fun k => camReady s k inl).foldl (fun (b : Option Nat) k =>
    let t := fun (j : Nat) => ((cam s j).waiting.head?.map (·.t)).getD 0
    match b with | none => some k | some j => if t k < t j then some k else b) none

/-- Lines of a slice: those at hand in capture order, up to IPL_SLICE and the port's next boundary (R371). -/
def sliceLines (s : State) (k : Nat) : Nat :=
  let run := (cam s k).waiting.takeWhile fun l => l.u.isSome && !l.inl
  let first := run.head?.bind fun l => l.u.bind fun u => markOf s k u
  min (rf s Reg.IPL_SLICE 12 0) (run.takeWhile fun l =>
    match l.u with | some u => decide (markOf s k u = first) | none => false).length

/-- A memory-port line is later than LAG_MAX when it is about to start (R372). -/
def lagged (s : State) (l : CamLine) : Bool := !l.inl && decide (l.t + rf s Reg.IPL_LAG_MAX 5 0 * ms < now s)

/-- Every equally late line of the port is skipped. -/
def skipLate (k : Nat) (s : State) : State :=
  let g := cam s k
  let late := g.waiting.takeWhile (lagged s)
  let n := late.length
  let s1 := updCam k (fun g => { g with
    waiting := g.waiting.drop n, carry := g.carry + n + (late.map (·.gap)).sum, skipTold := true }) s
  let s2 := inc (Reg.IPL_C_LAG_SKIP_CNT k) n (inc (Reg.IPL_C_MISS_CNT k) n s1)
  if g.skipTold then s2 else raiseIrq (pgIpl k) 5 (event 0x6002 none (le 1 k ++ le 4 g.image ++ le 4 n) s2)

/-- A memory port's next line starts, or its late lines are skipped. -/
def memoryLine (k : Nat) (s : State) : State :=
  if ((cam s k).waiting.head?.map (lagged s)).getD false then skipLate k s else startLine k s

/-- The decoded bytes of line i of a stored image. -/
def imageLine (x : StoredImage) (i : Nat) : List Byte :=
  match gristMap x.stream with
  | some g => match g.blocks.find? fun b => decide (b.line ≤ i ∧ i < b.line + b.lines) with
    | some b => match (decodeBlock b.lines x.stride (slice x.stream b.off (b.off + b.len))).out with
      | .ok out => slice out ((i - b.line) * x.stride) ((i - b.line + 1) * x.stride)
      | .error _ => []
    | none => []
  | none => []

/-- The oldest REPROCESS takes its next line through the pipeline; one whose image is gone completes with 0x0104 (R384). -/
def reproLine (s : State) : State :=
  match s.ipl.repro with
  | [] => s
  | x :: rest => match s.ipl.images.find? fun i => decide (i.port = x.port ∧ i.num = x.image) with
    | none => completeSeq x.seq 0x0104 0 { s with ipl := { s.ipl with repro := rest } }
    | some i => match i.lines[x.next]? with
      | none =>
        updCam x.port (fun g => { g with items := g.items ++ [.finish x.seq] }) { s with ipl := { s.ipl with repro := rest } }
      | some (t, u, slot, y) =>
        let q := shadeLine s x.port i.dt (imageLine i x.next)
        let r : RegLine := { slot, y, t, u, col0 := (camCols s x.port).1,
                             px := if knotsAgree s x.port then registerLine s x.port q else [], repro := some x.seq }
        pipelineBusy x.port (updCam x.port (fun g => { g with items := g.items ++ [.line r] })
          { s with ipl := { s.ipl with repro := { x with next := x.next + 1 } :: rest } })

/-- The pipeline takes its next line in the order of R371. -/
def pipelineLine (t : Nat) (s0 : State) : State :=
  let s := advanceTo t s0
  match oldestPort s true with
  | some k => startLine k s
  | none =>
    let inSlice : Option (Nat × Nat) := match s.ipl.slice with
      | some (k, n) => if 0 < n ∧ camReady s k false = true then some (k, n) else none
      | none => none
    match inSlice with
    | some (k, n) => memoryLine k { s with ipl := { s.ipl with slice := some (k, n - 1) } }
    | none => match oldestPort s false with
      | some k => memoryLine k { s with ipl := { s.ipl with slice := some (k, sliceLines s k - 1) } }
      | none => reproLine { s with ipl := { s.ipl with slice := none } }

def execIplPipelineLine (t : DWord) (s : State) : Host.Outcome State Fault Refusal := .next (pipelineLine t.toNat s)

/-! ## Stored images (R383, R384) -/

/-- Mill has written the last block of an image: its stream goes into the image store, over the oldest images where space is needed; one
larger than the store is not stored. -/
def imageStore (s : State) : State :=
  match s.mil.job with
  | none => s
  | some j =>
    if j.ended = false ∨ j.husk ≠ [] ∨ j.stride ≤ j.input.length then s
    else
      let x : StoredImage := { port := j.port, num := j.image, dt := j.dt, stride := j.stride,
                               stream := gristHeader j.stride j.lines ++ j.husks, lines := j.places.take j.lines }
      let s1 := { s with mil := { s.mil with job := none } }
      let limit := s.ipl.storeMib * 1048576
      if j.lines = 0 ∨ limit < x.size then inc (Reg.IPL_C_STORE_DROP_CNT j.port) 1 s1
      else refreshOldest { s1 with ipl := { s1.ipl with images := fitImages limit (s1.ipl.images ++ [x]) } }

def execImageStore (s : State) : Host.Outcome State Fault Refusal := .next (imageStore s)

/-- REPROCESS of a stored image (R384). -/
def reprocess (h : Hdr) (c : Instr) (port image : Nat) (s : State) : State :=
  if s.ipl.images.any fun x => decide (x.port = port ∧ x.num = image) then
    parkAccepted h c [objPort port] [] { s with ipl := { s.ipl with repro := s.ipl.repro ++ [⟨h.seq, port, image, 0⟩] } }
  else fail h 0x0104 s

def execReprocess (d : Desc) (port : BitVec 8) (image : Word) (s : State) : Host.Outcome State Fault Refusal :=
  .next (command d .o (fun _ => [objPort port.toNat]) (.reprocess d port image)
    (fun h => reprocess h (.reprocess d port image) port.toNat image.toNat) s)

end Sys2Proof.Machine
end

