-- ==== Sys2Proof/Machine/Hif.lean ====
section
/-! DEFINITION. Rings, doorbells, fetches, interrupts and the faults of the link (spec/03, R62 to R90). -/

namespace Sys2Proof.Machine
open Sys2Proof

/-! ## Doorbells (R72 to R75) -/

/-- A host-produced ring. -/
def Ring.hostProduced (r : Ring) : Bool := !r.typ.produced

/-- A doorbell's index leaves the host's side of a ring in a valid position (R73). -/
def doorbellValid (r : Ring) (idx : Nat) : Bool :=
  if r.hostProduced then
    decide (idxSub idx r.ci ≤ r.size ∧ idxSub idx r.pi ≤ r.size - idxSub r.pi r.ci)
  else decide (idxSub r.pi idx ≤ idxSub r.pi r.ci)

/-- ARM: the ring is armed; entries not signalled start IMOD_TIME now (R82). -/
def armRing (n : Nat) (s : State) : State :=
  let s1 := updRing n (fun r => { r with armed := true, sinceArm := 0, timing := r.unsignalled }) s
  if (ring s1 n).unsignalled && (ring s1 n).due then signalRing n s1 else s1

/-- A doorbell write (R72 to R75, R538). -/
def doorbell (n : Nat) (v : Word) (be : BitVec 4) (s : State) : State :=
  let r := ring s n
  if r.state ≠ .active then
    inc Reg.HIF_DB_IGN_CNT 1 (updRing n (fun x => { x with dbIgn := min 65535 (x.dbIgn + 1) }) s)
  else
    let idx := bits 16 0 v.toNat
    let bad := decide (be ≠ 0xF#4) || decide (bits 29 17 v.toNat ≠ 0) || decide (bits 31 31 v.toNat ≠ 0)
    if bad || !doorbellValid r idx then
      recordErr pgHif 0x40 (updRing n (fun x => { x with lastErr := 0x1040 }) (inc Reg.HIF_DB_BAD_CNT 1 s))
    else if r.hostProduced then
      let s1 := putRing n { r with pi := idx } s
      if s1.pwr.state = .standby then startExit 3 s1 else s1
    else
      let s1 := putRing n { r with ci := idx, entries := r.entries.drop (idxSub idx r.ci) } s
      if bits 30 30 v.toNat = 1 then armRing n s1 else s1

/-- The host's access to a dword of a ring's BAR2 page: the doorbell at offset 0 takes a write; every other dword ignores it, and a read
returns zero (R61). -/
def barTwo (n off : Nat) (write : Bool) (v : Word) (be : BitVec 4) (s : State) : State :=
  if !clocked s then s
  else if !write then returns .host 0#32 (beginRead .host s)
  else if off = 0 then doorbell n v be s
  else s

def execDoorbell (ring : Fin 8192) (off : BitVec 12) (write : Bool) (val : Word) (be : BitVec 4) (s : State) :
    Host.Outcome State Fault Refusal := .next (barTwo ring.val off.toNat write val be s)

/-- HIF_CTRL.RUN becomes 1: rings 0 and 1 are ACTIVE, empty, and ring 1 is armed (R89, R90). -/
def startRings (s : State) : State :=
  let cmd : Ring := { Ring.init with
    state := .active, typ := .command, log2 := rf s Reg.HIF_SYS_SIZE 3 0, paired := 1,
    base := BitVec.ofNat 64 (rn64 s Reg.HIF_SYS_CMD_BASE), wb := BitVec.ofNat 64 (rn64 s Reg.HIF_SYS_WB_BASE) }
  let cpl : Ring := { Ring.init with
    state := .active, typ := .completion, log2 := rf s Reg.HIF_SYS_SIZE 7 4, vector := rf s Reg.HIF_SYS_SIZE 18 8,
    base := BitVec.ofNat 64 (rn64 s Reg.HIF_SYS_CPL_BASE), wb := BitVec.ofNat 64 (rn64 s Reg.HIF_SYS_WB_BASE + 8),
    imodCnt := rf s Reg.HIF_SYS_IMOD 7 0, imodTime := rf s Reg.HIF_SYS_IMOD 31 16, armed := true }
  putRing 1 cpl (putRing 0 cmd s)

/-- A write of HIF_CTRL: RUN is never cleared by a write. -/
def hifCtrlWrite (v : Word) (s : State) : State :=
  let on := rbit s Reg.HIF_CTRL 0
  let s1 := wn Reg.HIF_CTRL ((if on then 1 else v.toNat % 2) + v.toNat / 2 % 2 * 2) s
  if !on && rbit s1 Reg.HIF_CTRL 0 then startRings s1 else s1

def execHifRunWrite (ini : Initiator) (val : Word) (be : BitVec 4) (s : State) : Host.Outcome State Fault Refusal :=
  .next (guardWrite ini Reg.HIF_CTRL be val hifCtrlWrite s)

/-! ## Bus mastering and device power (R65) -/

/-- Messages kept while no request could be issued go out, where their vector is not masked, after the writebacks of the rings (R68,
R82). -/
def flushMessages (s : State) : State :=
  if canIssue s then
    let s1 := (s.hif.rings.map (·.1)).foldl (fun t n => writeback n t) s
    (s1.hif.msixPend.filter fun e => e.2).foldl (fun t e =>
      if tget t.hif.masked true e.1 then t
      else emit (.msix e.1) { t with hif := { t.hif with msixPend := tput t.hif.msixPend e.1 false } }) s1
  else s

/-- A write of a field of configuration space. -/
def cfgPut (f : CfgField) (c : PciCfg) : PciCfg :=
  match f with
  | .readSize k => { c with mrrs := 128 * 2 ^ k.val }
  | .relaxed b => { c with relaxed := b }
  | .ltrEnable b => { c with ltrEn := b }
  | .maxSnoop n => { c with maxSnoop := n }
  | .maxNoSnoop n => { c with maxNoSnoop := n }
  | .ptmEnable b => { c with ptmEn := b }
  | .timeoutDisable b => { c with toDisable := b }
  | .timeoutRange k => { c with toRange := k.toNat }
  | .ecrcGen b => { c with ecrcGen := b }
  | .ecrcCheck b => { c with ecrcCheck := b }
  | .severity m => { c with severity := m }

/-- A write of configuration space: Bus Master Enable and the fields with it; what could not be sent is sent, and the latency tolerance
is told where it has to be (R65, R68, R82, R83). -/
def configWrite (on : Bool) (fields : List CfgField) (s : State) : State :=
  let c := fields.foldl (fun c f => cfgPut f c) s.hif.cfg
  ltrUpdate (flushMessages { s with hif := { s.hif with cfg := { c with busMaster := on } } })

def execBusMasterEnableWrite (on : Bool) (fields : List CfgField) (s : State) : Host.Outcome State Fault Refusal :=
  .next (configWrite on fields s)

def execD3hotTransition (s : State) : Host.Outcome State Fault Refusal :=
  .next { s with hif := { s.hif with cfg := { s.hif.cfg with d3hot := true } } }

def execD0Transition (s : State) : Host.Outcome State Fault Refusal :=
  .next (flushMessages { s with hif := { s.hif with cfg := { s.hif.cfg with d3hot := false } } })

/-! ## The MSI-X table (R64) -/

/-- The address lies in the MSI-X table or the pending-bit array. -/
def msixArea (addr : Nat) : Bool := decide (0x14000 ≤ addr ∧ addr < 0x1C100)

/-- The MSI-X table entry of a vector. -/
def msixEntry (s : State) (v : Nat) : MsixEntry := tget s.hif.msix ⟨0, 0⟩ v

/-- Unmasking a vector sends its pending message (R82). -/
def unmask (v : Nat) (s : State) : State :=
  let s1 := { s with hif := { s.hif with masked := tput s.hif.masked v false } }
  if tget s1.hif.msixPend false v && canIssue s1 then
    emit (.msix v) { s1 with hif := { s1.hif with msixPend := tput s1.hif.msixPend v false } }
  else s1

/-- A dword of the MSI-X table, address, data and vector control, or of the pending-bit array. -/
def msixRead (s : State) (addr : Nat) : Word :=
  if addr < 0x1C000 then
    let v := (addr - 0x14000) / 16
    match (addr - 0x14000) / 4 % 4 with
    | 0 => (msixEntry s v).addr.setWidth 32
    | 1 => ((msixEntry s v).addr >>> 32).setWidth 32
    | 2 => (msixEntry s v).data
    | _ => if tget s.hif.masked true v then 1#32 else 0#32
  else BitVec.ofNat 32 (((List.range 32).map fun i =>
    if tget s.hif.msixPend false ((addr - 0x1C000) * 8 + i) then 2 ^ i else 0).sum)

/-- A write of a dword of a vector's MSI-X table entry: its address, its data, its mask bit (R64). -/
def msixField (v k : Nat) (x : Word) (s : State) : State :=
  let put := fun (e : MsixEntry) => { s with hif := { s.hif with msix := tput s.hif.msix v e } }
  match k with
  | 0 => put { msixEntry s v with addr := BitVec.ofNat 64 ((msixEntry s v).addr.toNat / 2 ^ 32 * 2 ^ 32 + x.toNat / 4 * 4) }
  | 1 => put { msixEntry s v with addr := BitVec.ofNat 64 ((msixEntry s v).addr.toNat % 2 ^ 32 + x.toNat * 2 ^ 32) }
  | 2 => put { msixEntry s v with data := x }
  | _ => if x.toNat % 2 = 0 then unmask v s else { s with hif := { s.hif with masked := tput s.hif.masked v true } }

/-- A write of a dword of the MSI-X table: address, whose low two bits are zero, data, or the mask of vector control; the pending-bit array
is read-only. -/
def msixWrite (addr : Nat) (x : Word) (s : State) : State :=
  if 0x1C000 ≤ addr then s else msixField ((addr - 0x14000) / 16) ((addr - 0x14000) / 4 % 4) x s

def execMsixVectorUnmask (vec : Fin 2048) (s : State) : Host.Outcome State Fault Refusal := .next (unmask vec.val s)

/-! ## Fetching (R69, R76 to R78) -/

/-- HIF may fetch: it may issue requests, and DRAM serves it (R65, R538). -/
def mayFetch (s : State) : Bool := canIssue s && decide (s.pwr.state = .run ∨ s.pwr.state = .idle)

/-- The read is of ring entries. -/
def HostRead.isDescr (x : HostRead) : Bool := match x.kind with | .descr .. => true | _ => false

/-- Reads outstanding of a kind. -/
def outReads (s : State) (descr : Bool) : Nat := (s.hif.reads.filter fun e => e.2.isDescr = descr).length

/-- The lowest free tag; one of a request an FLR abandoned is not free (R87, R88). -/
def freeTag (s : State) : Nat :=
  ((List.range 768).find? fun t => (tfind s.hif.reads t).isNone && (tfind s.hif.stale t).isNone).getD 768

/-- A read of stream data is issued with relaxed ordering where Device Control enables it (R62). -/
def HostRead.relaxed (x : HostRead) (s : State) : Bool := !x.isDescr && s.hif.cfg.relaxed

/-- Issue a host read on the lowest free tag; the high-water mark follows. -/
def issueRead (kind : ReadKind) (addr len : Nat) (s : State) : State :=
  let tag := freeTag s
  let x : HostRead := ⟨kind, addr, len, false, false⟩
  let reads := tput s.hif.reads tag x
  let s1 := wf Reg.HIF_SB_HWM 9 0 (max (rf s Reg.HIF_SB_HWM 9 0) reads.length) { s with hif := { s.hif with reads := reads } }
  emit (.hostRead tag addr len (x.relaxed s)) s1

/-- The entries a descriptor read of a ring fetches: up to 8, not past the ring's end (R75, R77). -/
def Ring.toRead (r : Ring) : Nat := min (min 8 (idxSub r.pi r.nextRead)) (r.size - r.nextRead % r.size)

/-- A descriptor read of a ring may be issued: entries the doorbell covers, none of its reads outstanding, a reserved tag free (R77). -/
def descrDue (s : State) (n : Nat) : Bool :=
  let r := ring s n
  let busy := s.hif.reads.any fun e => match e.2.kind with | .descr m _ _ => decide (m = n) | _ => false
  mayFetch s && decide (r.state = .active) && r.hostProduced && !busy && decide (0 < r.toRead) && decide (outReads s true < 32) &&
    decide (freeTag s < 768)

/-- A descriptor read of a ring (R75, R77). -/
def descriptorFetch (n : Nat) (s : State) : State :=
  let r := ring s n
  let k := r.toRead
  if descrDue s n then
    issueRead (.descr n r.nextRead k) (r.base.toNat + r.nextRead % r.size * 64) (64 * k)
      (putRing n { r with nextRead := (r.nextRead + k) % idxMod } s)
  else s

def execHifDescriptorFetch (ring : Fin 8192) (s : State) : Host.Outcome State Fault Refusal :=
  .next (descriptorFetch ring.val s)

/-- The copies that need a stream, by the pages and tiles they name, with the planes it serves (R78). -/
def streamNeeds (s : State) (t h : Nat) : List (Copy × Nat) :=
  (liveCopies s).flatMap fun c =>
    if c.tenant = t then
      (c.page0.planes.filter fun q => decide (q.handle = h)).flatMap fun q =>
        (copyPlanes s c).filterMap fun p => if (cloneSrc s p).getD p = q.plane then some (c, p) else none
    else []

/-- The print deadline of a data fetch by Kiln's present prediction, with the lowest head it serves: the earliest of the first needed lines
of the copies that need its bytes, less HIF_GUARD; none where no line has a predicted fire time (R78, R79). -/
def fetchDeadline (s : State) (f : Fetch) : Option (Int × Nat) :=
  (streamNeeds s f.tenant f.handle).foldl (fun b x =>
    let q := firstNeed s x.2 0
    match lineDeadline s x.1 x.2 q.1 q.2, b with
    | some d, some e => if d < e.1 then some (d, ((planeHeads s x.2).map (·.head)).foldl min 63) else some e
    | some d, none => some (d, ((planeHeads s x.2).map (·.head)).foldl min 63)
    | none, b => b) none

/-- A fetch's place: due now where promoted, its deadline within HIF_HORIZON, else background, with none (R78). -/
def fetchPlace (s : State) (f : Fetch) : Option (Int × Nat) :=
  if f.promoted then some ((now s : Int), 0)
  else match fetchDeadline s f with
    | some d => if d.1 ≤ now s + (rf s Reg.HIF_HORIZON 7 0 * ms : Nat) then some d else none
    | none => none

/-- A fetch goes before another: deadline fetches first, the earliest first, then the older request, then the lower head; background fetches
oldest first (R78). -/
def fetchBefore (s : State) (a b : Fetch) : Bool :=
  match fetchPlace s a, fetchPlace s b with
  | some x, some y => decide (x.1 < y.1 ∨ (x.1 = y.1 ∧ (a.since < b.since ∨
      (a.since = b.since ∧ (x.2 < y.2 ∨ (x.2 = y.2 ∧ a.seq < b.seq))))))
  | some _, none => true
  | none, some _ => false
  | none, none => decide (a.since < b.since ∨ (a.since = b.since ∧ a.seq < b.seq))

/-- The data fetch to issue next, by the deadlines of now (R78, R79). -/
def nextFetchOf (s : State) : Option Fetch :=
  s.hif.fetches.foldl (fun b f => match b with
    | none => some f
    | some g => if fetchBefore s f g then some f else some g) none

/-- One data read, once no descriptor read may be issued: it ends at a 4 KiB boundary and at the Maximum Read Request Size (R77, R78). -/
def dataFetch (s : State) : State :=
  match nextFetchOf s with
  | some f =>
    if mayFetch s && decide (outReads s false < 736) && decide (freeTag s < 768) && !(s.hif.rings.any fun e => descrDue s e.1) then
      let n := min (min f.len (4096 - f.addr % 4096)) s.hif.cfg.mrrs
      let rest := s.hif.fetches.filterMap fun g =>
        if g.seq = f.seq then
          (if f.len ≤ n then none else some { g with addr := f.addr + n, off := f.off + n, len := f.len - n })
        else some g
      issueRead (.data f.ring f.entry f.tenant f.handle f.off) f.addr n { s with hif := { s.hif with fetches := rest } }
    else s
  | none => s

def execHifDataFetch (s : State) : Host.Outcome State Fault Refusal := .next (dataFetch s)

/-- A background fetch that has waited past HIF_BG_PROMOTE counts as due now (R78). -/
def bgPromote (t : Nat) (s : State) : State :=
  let s0 := advanceTo t s
  let lim := rf s0 Reg.HIF_BG_PROMOTE 7 0 * ms
  let fs := s0.hif.fetches.map fun f => if f.since + lim < s0.clock.uptime then { f with promoted := true } else f
  { s0 with hif := { s0.hif with fetches := fs } }

def execBackgroundPromote (t : DWord) (s : State) : Host.Outcome State Fault Refusal := .next (bgPromote t.toNat s)

/-! ## What reads return (R69, R71, R76, R85, R88) -/

/-- An entry of a data ring still has bytes to come. -/
def entryBusy (s : State) (n entry : Nat) : Bool :=
  (s.hif.fetches.any fun f => decide (f.ring = n ∧ f.entry = entry)) ||
    s.hif.reads.any fun e => match e.2.kind with
      | .data m k _ _ _ => decide (m = n ∧ k = entry)
      | .descr _ _ _ => false

/-- CI of a data ring passes the entries whose bytes are all spooled, in order (R69). -/
def passEntries : Nat → Nat → State → State
  | 0, _, s => s
  | k + 1, n, s =>
    let r := ring s n
    if r.fetched = 0 ∨ entryBusy s n r.ci = true then s
    else passEntries k n (putRing n { r with ci := (r.ci + 1) % idxMod, fetched := r.fetched - 1, wbPending := true } s)

/-- Pass what a data ring can. -/
def passRing (n : Nat) (s : State) : State := if (ring s n).typ = .data then passEntries (ring s n).fetched n s else s

/-- A stream fails: its waiters fail, and copies that need it are CORRUPT, or voided (R85, R116). -/
def failStream (t h : Nat) (s : State) : State :=
  let s1 := failWaiters t h (updStream t h (fun x => { x with failed := true }) s)
  let need := s1.jobs.copies.filter fun c =>
    decide (c.tenant = t ∧ c.state ≠ .sealed ∧ c.state ≠ .voided) && c.page0.planes.any fun q => decide (q.handle = h)
  need.foldl (fun u c => corruptCopy c.seq u) s1

/-- A data descriptor is refused: consumed, not fetched, its stream failed, DATA_DESC_BAD (R76, R136). -/
def refuseDescriptor (n entry t h : Nat) (s : State) : State :=
  let s1 := recordErr pgHif 0x45 (event 0x1002 (some t) (le 4 n ++ le 4 entry) s)
  match findStream s1 t h with
  | some x => if x.failed then s1 else failStream t h s1
  | none => s1

/-- A data descriptor's 64 bytes (R76, R136, R161). One for a stream that has already failed is refused as the rest, with its own
DATA_DESC_BAD (DESIGN CHOICE: notes/assumptions/71.md). -/
def takeDescriptor (n entry : Nat) (bs : List Byte) (s : State) : State :=
  let t := (ring s n).tenant
  let addr := leAt bs 0 8
  let len := leAt bs 8 4
  let h := leAt bs 12 4
  let off := leAt bs 16 8
  let fl := leAt bs 24 1
  let sealed := decide (fl / 2 % 2 = 1)
  let malformed := decide (4 ≤ fl) || !allZero (slice bs 25 64) || decide (len = 0) || decide (16777216 < len) ||
    (sealed && decide (1048576 < len))
  match findStream s t h with
  | some x =>
    if malformed || x.failed || x.lastSeen || decide (x.maxLen < off + len) then refuseDescriptor n entry t h s
    else
      let s1 := updStream t h (fun y => { y with
        descs := y.descs ++ [(off, len, sealed)], lastSeen := y.lastSeen || decide (fl % 2 = 1) }) s
      let f : Fetch := { seq := s.hif.nextFetch, ring := n, entry := entry, tenant := t, handle := h, addr := addr,
                         off := off, len := len, since := s.clock.uptime, promoted := false }
      { s1 with hif := { s1.hif with fetches := s1.hif.fetches ++ [f], nextFetch := s1.hif.nextFetch + 1 } }
  | none => refuseDescriptor n entry t h s

/-- Cut bytes into 64-byte entries. -/
def entries64 (bs : List Byte) : List (List Byte) := chunks 64 bs.length bs

/-- Ring entries have been read: commands wait to be taken, their FENCE flags known; data descriptors are taken in order. -/
def gotEntries (n start : Nat) (bs : List Byte) (s : State) : State :=
  let es := entries64 bs
  let s1 := updRing n (fun r => { r with
    fetched := r.fetched + es.length, fences := r.fences ++ es.map fun e => decide ((e.getD 1 0#8).toNat % 2 = 1) }) s
  if (ring s n).typ = .data then
    passRing n (es.zipIdx.foldl (fun t e => takeDescriptor n ((start + e.2) % idxMod) e.1 t) s1)
  else s1

/-- Stream bytes have been read into the spool. -/
def gotBytes (n t h off : Nat) (bs : List Byte) (s : State) : State :=
  let s1 := updStream t h (fun x => { x with pieces := x.pieces ++ [⟨off, bs⟩] }) s
  passRing n (noteReady s1)

/-- A ring enters ERROR (R71). -/
def ringError (n : Nat) (err : BitVec 16) (s : State) : State :=
  let s1 := event 0x1001 none (le 4 n) (updRing n (fun r => { r with state := .error, lastErr := err }) s)
  if n < 2 then wf Reg.HIF_STAT 8 8 1 s1 else s1

/-- The place of an error in the AER severity register, as PCI Express gives it. -/
def AerErr.bit : AerErr → Nat
  | .poisoned => 12 | .timeout => 14 | .abort => 15 | .unexpected => 16 | .ecrc => 19 | .unsupported => 20

/-- An error is reported through AER by its programmed severity (R85). -/
def report (e : AerErr) (s : State) : State :=
  { s with hif := { s.hif with aer := s.hif.aer ++ [⟨e, s.hif.cfg.severity.getLsbD e.bit⟩] } }

/-- A read has failed for good (R85): a ring's entries put it in ERROR, stream bytes fail the stream. -/
def failRead (x : HostRead) (code : Nat) (s : State) : State :=
  let s1 := recordErr pgHif code s
  match x.kind with
  | .descr n _ _ => ringError n (BitVec.ofNat 16 (0x1000 + code)) s1
  | .data n _ t h _ =>
    let drop := { s1 with hif := { s1.hif with fetches := s1.hif.fetches.filter fun f => !decide (f.tenant = t ∧ f.handle = h) } }
    passRing n (failStream t h drop)

/-- Remove an outstanding read. -/
def dropRead (tag : Nat) (s : State) : State := { s with hif := { s.hif with reads := tdel s.hif.reads tag } }

/-- The completion of a read whose data is no longer wanted: a failure counts, records and reports as any does (R85, R111). -/
def dropResult (r : ReadResult) (s : State) : State :=
  match r with
  | .data _ => s
  | .poisoned => recordErr pgHif 0x42 (inc Reg.HIF_POISON_CNT 1 (report .poisoned s))
  | .ur => recordErr pgHif 0x43 (inc Reg.HIF_URCA_CNT 1 (report .unsupported s))
  | .ca => recordErr pgHif 0x43 (inc Reg.HIF_URCA_CNT 1 (report .abort s))

/-- A completion arrives: its data goes where the read was for, or the read fails; one for no outstanding read is discarded as an
Unexpected Completion, and the tag of an abandoned request is free again (R85, R88). -/
def readCompletion (tag : Nat) (r : ReadResult) (s : State) : State :=
  match tfind s.hif.reads tag with
  | none => report .unexpected { s with hif := { s.hif with stale := tdel s.hif.stale tag } }
  | some x =>
    let s1 := dropRead tag s
    if x.dropped then dropResult r s1
    else match r with
      | .data bs =>
        if bs.length ≠ x.len then s
        else match x.kind with
          | .descr n start _ => if (ring s1 n).state = .active then gotEntries n start bs s1 else s1
          | .data n _ t h off => gotBytes n t h off bs s1
      | .poisoned => failRead x 0x42 (inc Reg.HIF_POISON_CNT 1 (report .poisoned s1))
      | .ur => failRead x 0x43 (inc Reg.HIF_URCA_CNT 1 (report .unsupported s1))
      | .ca => failRead x 0x43 (inc Reg.HIF_URCA_CNT 1 (report .abort s1))

def execHostReadCompletion (tag : Fin 1024) (r : ReadResult) (s : State) : Host.Outcome State Fault Refusal :=
  .next (readCompletion tag.val r s)

/-- A read's completion timeout expires: one reissue, once requests may be issued, then failure; the tag of an abandoned request that no
disabled timeout holds is free again (R65, R85, R87, R88). -/
def readTimeout (tag : Nat) (s : State) : State :=
  match tfind s.hif.reads tag with
  | none => if tget s.hif.stale true tag then s else { s with hif := { s.hif with stale := tdel s.hif.stale tag } }
  | some x =>
    if s.hif.cfg.toDisable then s
    else if x.reissued then
      let s1 := dropRead tag (inc Reg.HIF_CPL_TO_CNT 1 (report .timeout s))
      if x.dropped then recordErr pgHif 0x41 s1 else failRead x 0x41 s1
    else if canIssue s then
      let s1 := inc Reg.HIF_CPL_TO_CNT 1 (report .timeout s)
      emit (.hostRead tag x.addr x.len (x.relaxed s))
        { s1 with hif := { s1.hif with reads := tput s1.hif.reads tag { x with reissued := true } } }
    else s

def execCompletionTimeout (tag : Fin 1024) (s : State) : Host.Outcome State Fault Refusal := .next (readTimeout tag.val s)

/-! ## Received requests (R33, R59, R60, R86) -/

/-- A request is refused on the link: AER reports it. -/
def refuseRequest (k : ReqFault) (s : State) : State :=
  match k with
  | .unsupported => emit .unsupportedRequest (inc Reg.HIF_URCA_CNT 1 (report .unsupported s))
  | .abort => emit .completerAbort (inc Reg.HIF_URCA_CNT 1 (report .abort s))
  | .poisonedWrite => recordErr pgHif 0x42 (inc Reg.HIF_POISON_CNT 1 (report .poisoned s))
  | .ecrc => if s.hif.cfg.ecrcCheck then report .ecrc s else s

def execReceivedRequestFault (kind : ReqFault) (s : State) : Host.Outcome State Fault Refusal := .next (refuseRequest kind s)

/-- A request across a 64-byte boundary, or longer than 64 bytes, is aborted: a write, being posted, answers nothing (R33). -/
def barAbort (write : Bool) (s : State) : State :=
  if write then inc Reg.HIF_URCA_CNT 1 (report .abort s) else refuseRequest .abort s

def execBarAccessAbort (addr : BitVec 24) (len : BitVec 13) (write : Bool) (s : State) : Host.Outcome State Fault Refusal :=
  .next (if 64 < addr.toNat % 64 + len.toNat then barAbort write s else s)

/-- An access to an unmapped page, or to a dword of a powered-down one, is counted; a read returns zero (R59, R60). -/
def unmappedAccess (ini : Initiator) (addr : Nat) (write : Bool) (s : State) : State :=
  if !clocked s || msixArea addr then s
  else if write then (if pageUp s (addr / 0x1000) then s else countUnmapped s)
  else if (pageOf (addr / 0x1000)).isSome then s
  else returns ini 0#32 (countUnmapped (beginRead ini s))

def execUnmappedPageAccess (ini : Initiator) (addr : BitVec 24) (write : Bool) (s : State) :
    Host.Outcome State Fault Refusal :=
  .next (unmappedAccess ini addr.toNat write s)

/-! ## Writebacks, moderation, completions (R68, R70, R82) -/

/-- A write to a ring's entries or writeback address is not accepted: WB_FAIL, and the ring enters ERROR (R71). -/
def writeFailed (n : Nat) (s : State) : State := ringError n 0x1044 (recordErr pgHif 0x44 s)

/-- A ring's index is written back; `good` says whether the link takes it. -/
def wbDone (n : Nat) (good : Bool) (s : State) : State :=
  if good then writeback n s
  else if (ring s n).wbPending && canIssue s then writeFailed n s else s

def execIndexWriteback (ring : Fin 8192) (taken : Bool) (s : State) : Host.Outcome State Fault Refusal :=
  .next (wbDone ring.val taken s)

/-- IMOD_TIME has passed since the first unsignalled entry of an armed ring. -/
def imodTimeout (n : Nat) (s : State) : State :=
  let r := ring s n
  if decide (r.state = .active) && r.armed && r.unsignalled && r.timing && canIssue s then signalRing n s else s

def execImodTimeout (ring : Fin 8192) (s : State) : Host.Outcome State Fault Refusal := .next (imodTimeout ring.val s)

/-- A held completion may take place: its ring has room and HIF may write what leaves; a STOPPED ring still takes the records of commands
taken before it stopped (R70, R111). -/
def mayPostHeld (s : State) (x : HeldCpl) : Bool :=
  let r := ring s x.ring
  decide (r.state = .active ∨ r.state = .stopped) && decide (0 < r.room) &&
    (canIssue s || (x.rcd.isNone && x.writes.isEmpty))

/-- A completion kept for want of room takes place: its bulk output, then its record; `good` says whether the link takes them (R70,
R71). -/
def completionPost (n : Nat) (good : Bool) (s : State) : State :=
  match s.fw.held.find? fun x => x.ring = n with
  | some x =>
    if mayPostHeld s x then
      let s1 := { s with fw := { s.fw with held := s.fw.held.erase x } }
      if !good then writeFailed n s
      else match x.rcd with
        | some r => postRecords n [r] (hostWrites x.writes s1)
        | none => hostWrites x.writes s1
    else s
  | none => s

def execCompletionPost (ring : Fin 8192) (taken : Bool) (s : State) : Host.Outcome State Fault Refusal :=
  .next (completionPost ring.val taken s)

/-! ## LTR and PTM (R83, R84) -/

/-- The tolerance has stayed above 150 % of the last value for 1 ms. -/
def ltrRise (s : State) : State :=
  match s.hif.ltrLast with
  | some m =>
    if s.hif.cfg.ltrEn && canIssue s && decide (32768 ≤ m.toNat) && decide (rn s Reg.KLN_LT ≠ 0xFFFFFFFF) &&
      decide (3 * ltrNs m.toNat < 2 * ltrTolerance s) then ltrNow s else s
  | none => s

def execLtrRiseTimer (s : State) : Host.Outcome State Fault Refusal := .next (ltrRise s)

/-- HIF_PTM_PERIOD expires. -/
def ptmRequest (s : State) : State :=
  if s.hif.cfg.ptmEn && rbit s Reg.HIF_CTRL 1 && canIssue s then
    emit .ptmRequest { s with hif := { s.hif with ptmOut := true } }
  else s

def execPtmRequestTimer (s : State) : Host.Outcome State Fault Refusal := .next (ptmRequest s)

/-- No response within 1 ms: the request is abandoned. -/
def execPtmTimeout (s : State) : Host.Outcome State Fault Refusal :=
  .next (if s.hif.ptmOut then
      let s1 := inc Reg.HIF_PTM_FAIL_CNT 1 { s with hif := { s.hif with ptmOut := false } }
      if timSrc s1 = 1 then measureFails s1 else s1
    else s)

/-! ## Writes of the HIF page's system-ring registers (R89) -/

/-- SYS_LOCKED while RUN is 1. -/
def sysRingWrite (addr : Nat) (v : Word) (s : State) : State :=
  if rbit s Reg.HIF_CTRL 0 then recordErr pgHif 0x46 s else plainPut addr v s

/-- HIF_PGIRQ_NEXT: the lowest asserting page on vector 0 (R81). -/
def pgirqNext (s : State) : Nat :=
  ((List.range 0x151).find? fun n => (pageOf n).isSome && pageAsserts (getPage s n) && decide (pageVector s n = 0)).getD 0xFFFF

end Sys2Proof.Machine
end

