-- ==== Sys2Proof/Machine/Tiller.lean ====
section
/-! DEFINITION. The Tiller engines at work: row-lines, fills and reversals, entry restores, the sweep, throttling and splits
(spec/08, spec/09, spec/10). -/

namespace Sys2Proof.Machine
open Sys2Proof

/-! ## Row-lines (R204 to R206, R219, R235) -/

/-- A copy's pass on a plane, as its frames count it. -/
def passOfFrame (s : State) (p : Nat) (straddle : Bool) : Nat :=
  if straddle && decide ((plane s p).prevCopy = (plane s p).copy) then (plane s p).pass - 1 else if straddle then
    (plane s p).passes - 1 else (plane s p).pass

/-- An engine owes work that comes before any further row-line: a reversal in some row of its head, or the fill that follows one (R260). -/
def owesFirst (s : State) (e : Nat) : Bool :=
  (List.range 4).any fun r =>
    (row s (e / 2) r).reversals.any (fun x => x.engines.contains e) ||
      (row s (e / 2) r).fills.any fun x => x.engines.contains e && x.first.contains e

/-- The latest start of a row's running line has passed: no engine starts it (R259). -/
def tooLate (s : State) (h r : Nat) (f : BitVec 32) : Bool :=
  match planeOfHead s h with
  | some p => match latestStartOf s p h r f with
    | some l => decide (l < (now s : Int))
    | none => false
  | none => false

/-- The row's next running line may be run by an engine: the row has started, the engine serves it and has not run that line,
the sheaf FIFO has space, its latest start has not passed, and no fill of the row and no reversal comes first (R204, R259, R260). -/
def mayRun (s : State) (e r : Nat) : Bool :=
  let h := e / 2
  let g := row s h r
  let mine := g.fifo.find? fun z => z.f = g.nextF
  g.started && (rowEngines s (lineSplit s h r g.nextF) h r).contains e &&
    (match mine with | some z => z.missing.contains e | none => decide (g.fifo.length < 32)) &&
    !(g.fills.any fun x => x.engines.contains e) && !owesFirst s e && !tooLate s h r g.nextF

/-- Donor entries whose receivers an engine serves in a row (R219). -/
def rowDonors (s : State) (t : PlaneTable) (h : Nat) (r : Nat) (ps : List Nat) : Nat :=
  (ps.map fun pos => (donors s t (h * 4096 + r * 1024 + pos)).length).sum

/-- The cost in CK_TIL cycles of a screening row-line of n nozzles with d donor entries (R219). -/
def rowCost (s : State) (e n d : Nat) : Nat :=
  let l := lanes s e
  16 + cdiv (n * kernelCost (rf s (Reg.TIL_E_KERNEL e) 7 0)) l + cdiv (4 * d) l

/-- An engine has run row r at running line f. -/
def noteRun (e r : Nat) (f : BitVec 32) (s : State) : State := updEngine e (fun g => { g with lastRun := some (r, f) }) s

/-- The sheaf of a running line is whole: every engine that serves the row has run it. -/
def sheafWhole (s : State) (h r : Nat) (f : BitVec 32) : Bool :=
  (row s h r).fifo.any fun z => decide (z.f = f) && z.missing.isEmpty

/-- An engine screens its part of a row-line under a staging line (R204, R206, R219). -/
def screenLine (p e r : Nat) (t : PlaneTable) (f : BitVec 32) (y slot : Nat) (straddle : Bool) (x : Staged) (s : State) :
    State :=
  let h := e / 2
  let ps := servedAt s (lineSplit s h r f) e r
  let s1 := noteRun e r f (runRowLine p e r t f (some y) false slot x.px s)
  let s2 := noteCost e r (rowCost s e ps.length (rowDonors s t h r ps)) (inc64 (Reg.TIL_E_ROWLINES e) 1 s1)
  let s3 := if straddle then inc (Reg.TIL_E_STRADDLE_CNT e) 1 s2 else s2
  if sheafWhole s3 h r f then lineScreened h r x.copy x.pass y s3 else s3

/-- The staging line a row-line of plane line y reads: that of the frame's copy the row has not screened. -/
def stagedFor (s : State) (h r : Nat) (c : Option Nat) (y : Nat) : Option Staged :=
  (tget s.glz.staging [] h).find? fun x => decide (some x.copy = c ∧ x.line = y) && x.rows.contains (h * 4 + r)

/-- The copy of the frame a running line prints for, the frame before it when it straddles the latch. -/
def lineCopy (s : State) (p : Nat) (straddle : Bool) : Option Nat :=
  if straddle then (plane s p).prevCopy else (plane s p).copy

/-- What the row's next running line needs to be run by an engine: a staged line of its plane line, or nothing for a gap row-line; `none` while
it is not ready (R204, R235, R28). -/
inductive RowWork where
  | screen (y : Nat) (straddle : Bool) (x : Staged)
  | gap (line : Option Nat)
  deriving DecidableEq, Repr

/-- The row-line of a row that is ready for an engine. -/
def rowWork (s : State) (p e r : Nat) : Option RowWork :=
  let h := e / 2
  if !mayRun s e r then none
  else match lineKind s p h r (row s h r).nextF with
    | .blank => some (.gap none)
    | .active y st =>
      let c := lineCopy s p st
      if lineHasPage s p c y then (stagedFor s h r c y).map fun x => .screen y st x else some (.gap (some y))
    | .waits => none

/-- The row whose ready row-line an engine takes: the earliest predicted fire time, ties to the lower row; a row-line without a prediction goes
after those that have one (R204). -/
def nextRow (s : State) (p e : Nat) : Option Nat :=
  let h := e / 2
  let key := fun (r : Nat) => edgeOf s p h r (row s h r).nextF
  ((List.range 4).filter fun r => (rowWork s p e r).isSome).foldl (fun (b : Option Nat) r =>
    match b with
    | none => some r
    | some q => match key r, key q with
      | some x, some y => if x < y then some r else b
      | some _, none => some r
      | none, _ => b) none

/-- An engine screens the row's next running line when it prints a page line, that line is staged, and it comes first among the engine's ready
row-lines (R204). -/
def tillerRowLine (e r : Nat) (s : State) : State :=
  match planeOfHead s (e / 2) with
  | none => s
  | some p =>
    if nextRow s p e ≠ some r then s
    else match (plane s p).table, rowWork s p e r with
      | some t, some (.screen y st x) =>
        let f := (row s (e / 2) r).nextF
        screenLine p e r t f y (screenSlot s p (e / 2) r f) st x s
      | _, _ => s

def execTillerRowLine (engine : Fin 128) (row : Fin 4) (s : State) : Host.Outcome State Fault Refusal :=
  .next (tillerRowLine engine.val row.val s)

/-- An engine runs a gap row-line for the row's next running line when that prints no page line and comes first (R235, R28, R204). -/
def gapRowLine (e r : Nat) (s : State) : State :=
  match planeOfHead s (e / 2) with
  | none => s
  | some p =>
    if nextRow s p e ≠ some r then s
    else match (plane s p).table, rowWork s p e r with
      | some t, some (.gap line) =>
        let f := (row s (e / 2) r).nextF
        noteRun e r f (runRowLine p e r t f line true (screenSlot s p (e / 2) r f) [] s)
      | _, _ => s

def execGapRowLine (engine : Fin 128) (row : Fin 4) (s : State) : Host.Outcome State Fault Refusal :=
  .next (gapRowLine engine.val row.val s)

/-! ## Fills and reversals (R259, R260) -/

/-- Stage 10 of a fill row-line over the codes Kiln fired, for the nozzles an engine serves (R259). -/
def fillCodes (p e r : Nat) (x : Fill) (s : State) : State :=
  let h := e / 2
  (servedAt s x.split e r).foldl (fun t pos =>
    let n := r * 1024 + pos
    let code := x.codes.getD pos 0
    winCode false p x.slot h n x.line code (stage10 e (h * 4096 + n) x.f code false t)) s

/-- A fill row-line that took the place of a line never screened frees its staging line (R205). -/
def fillStaging (p h r : Nat) (x : Fill) (s : State) : State :=
  match x.line, slotCopy s p x.slot with
  | some y, some c =>
    match stagedFor s h r (some c) y with
    | some z => lineScreened h r c z.pass y s
    | none => s
  | _, _ => s

/-- The first fill of a row an engine owes, once it owes no reversal of the same running line. -/
def nextFill (s : State) (e r : Nat) : Option Fill :=
  match (row s (e / 2) r).fills.find? fun x => x.engines.contains e with
  | some x =>
    if (row s (e / 2) r).reversals.any fun z => decide (z.f = x.f) && z.engines.contains e then none else some x
  | none => none

/-- What an engine's part of a fill counts. -/
def fillUndo (s : State) (e r : Nat) (x : Fill) : List Undo :=
  (servedAt s x.split e r).filterMap fun pos =>
    let i := e / 2 * 4096 + r * 1024 + pos
    let code := x.codes.getD pos 0
    if code = 0 then none else some ⟨i, code, volume s (entry s i).volClass.toNat code, false, (entry s i).last⟩

/-- An engine runs the fill row-line it owes (R259). -/
def fillRowLine (e r : Nat) (s : State) : State :=
  let h := e / 2
  match planeOfHead s h, nextFill s e r with
  | some p, some x =>
    let left := x.engines.filter (· ≠ e)
    let s1 := updEngine e (fun g => { g with lastRun := none }) (fillCodes p e r x s)
    let keep := fun (z : Fill) => !decide (z.f = x.f ∧ left = [])
    let s2 := updRow h r (fun g =>
      let l := (g.fills.map fun z => if z.f = x.f then { z with engines := left } else z).filter keep
      let mine := fillUndo s e r x
      let kept := g.under.map fun z => if z.f = x.f then { z with undo := mine ++ z.undo } else z
      { g with fills := l, under := kept }) s1
    if left = [] then fillStaging p h r x s2 else s2
  | _, _ => s

def execFillRowLine (engine : Fin 128) (row : Fin 4) (s : State) : Host.Outcome State Fault Refusal :=
  .next (fillRowLine engine.val row.val s)

/-- Take an amount back from a 64-bit engine total. -/
def dec64 (k n : Nat) (s : State) : State := wn64 k (rn64 s k - n) s

/-- The engine totals lose what a code counted (R260); Tally's usage is never reduced. -/
def uncount (e : Nat) (u : Undo) (s : State) : State :=
  if 1 ≤ u.code ∧ u.code ≤ 6 then
    let s1 := dec64 (Reg.TIL_E_INK e) u.vol (dec64 (Reg.TIL_E_DROPS e) 1 s)
    if u.spit then wn (Reg.TIL_E_SPITS e) (rn s1 (Reg.TIL_E_SPITS e) - 1) s1 else s1
  else if u.code = 7 then dec64 (Reg.TIL_E_TICKLES e) 1 s
  else s

/-- One entry's share of a reversal: its counts go back, and its last-fire line while it still reads the reversed line
(R260, R225). -/
def undoEntry (e r : Nat) (f : BitVec 32) (u : Undo) (s : State) : State :=
  let x := entry s u.nozzle
  let s1 := uncount e u s
  if x.good ∧ 1 ≤ u.code ∧ u.code ≤ 6 then
    let last := if x.last ≠ f then x.last
      else if (engine s e).lastRun = some (r, f) then u.last
      else dryLine s (e / 2) f
    let fires := if x.fires = BitVec.allOnes 48 then x.fires else x.fires - 1
    let y : Entry := { x with fires := fires, ink := x.ink - BitVec.ofNat 32 u.vol, last := last }
    putEntry u.nozzle y.seal (if fires = x.fires then s1 else noteChanged u.nozzle s1)
  else s1

/-- An engine reverses its part of a row-line that Kiln declared underrun; the sheaf is gone already (R260). -/
def underrunReversal (e r : Nat) (s : State) : State :=
  let h := e / 2
  match (row s h r).reversals.find? fun x => x.engines.contains e with
  | some x =>
    let mine := x.undo.filter fun u => servesAt x.split e (u.nozzle % 4096)
    let s1 := mine.foldl (fun t u => undoEntry e r x.f u t) s
    let left := x.engines.filter (· ≠ e)
    let keep := fun (z : Reversal) => !decide (z.f = x.f ∧ left = [])
    updRow h r (fun g =>
      let l := (g.reversals.map fun z => if z.f = x.f then { z with engines := left } else z).filter keep
      { g with reversals := l }) s1
  | none => s

def execUnderrunReversal (engine : Fin 128) (row : Fin 4) (s : State) : Host.Outcome State Fault Refusal :=
  .next (underrunReversal engine.val row.val s)

/-! ## Restores and the sweep (R225, R233) -/

/-- Bytes 0 to 13 of an entry, with the rest of another. -/
def cfgEntry (bs : List Byte) (e : Entry) : Entry :=
  { e with gain := BitVec.ofNat 16 (leAt bs 0 2), offset := BitVec.ofNat 16 (leAt bs 2 2), curve := bs.getD 4 0, status := bs.getD 5 0,
           variant := bs.getD 6 0, volClass := bs.getD 7 0, subA := BitVec.ofNat 24 (leAt bs 8 3),
           subB := BitVec.ofNat 24 (leAt bs 11 3) }

/-- The journaled configuration of a nozzle, or the defaults of R223 (R225, R241). -/
def journaled (s : State) (i : Nat) : Entry :=
  match tfind (liveConfig (crkLog s s.crk.active)) i with
  | some bs => cfgEntry bs (Entry.default 0)
  | none => Entry.default 0

/-- Resident firmware restores a mismatching entry at its head's next latch (R225); the last byte of a restore that already
waits is not written again. -/
def entryRestore (i : Nat) (s : State) : State :=
  if (entry s i).good || s.til.pend.any (fun q => decide (q.nozzle = i ∧ q.cmd = none)) then s
  else
    let q : PendEntry := { nozzle := i, cfg := journaled s i, unretire := false, newHead := false, cmd := none, cycle := fabCycle s }
    let s1 := { s with til := { s.til with pend := q :: s.til.pend } }
    idleEntries (i / 4096) (if q.cfg.variant = (entry s i).variant then s1 else startFill (i / 4096) s1)

def execEntryRestore (nozzle : Fin 262144) (s : State) : Host.Outcome State Fault Refusal :=
  .next (entryRestore nozzle.val s)

/-- The sweep visits an entry: an age above 2^30 is set to 2^30 (R233). -/
def tillerSweep (i : Nat) (s : State) : State :=
  match planeOfHead s (i / 4096) with
  | some p =>
    let x := entry s i
    let f := (plane s p).runline
    if isFitted s (i / 4096) (i % 4096) && x.good && decide (2 ^ 30 < (f - x.last).toNat) then
      putEntry i ({ x with last := f - BitVec.ofNat 32 (2 ^ 30) }).seal s
    else s
  | none => s

def execTillerSweep (nozzle : Fin 262144) (s : State) : Host.Outcome State Fault Refusal :=
  .next (tillerSweep nozzle.val s)

/-! ## Throttling and splits (R200 to R202, R220) -/

/-- A change of an engine's throttle state: its event, and while AUTO_SPLIT is 1 its head's split is due to be chosen again (R202, R220). -/
def setThrottle (e : Nat) (on : Bool) (s : State) : State :=
  if (engine s e).throttled = on then s
  else
    let s1 := updEngine e (fun g => { g with throttled := on }) s
    let s2 := if on then inc (Reg.TIL_E_THROTTLE_CNT e) 1 s1 else s1
    let h := e / 2
    raiseIrq pgTilC 4 (event 0x3001 none (le 1 e ++ le 1 (if on then 1 else 0)) { s2 with til := { s2.til with
      autoDue := if rbit s Reg.TIL_CTRL 0 && !s2.til.autoDue.contains h then h :: s2.til.autoDue else s2.til.autoDue } })

/-- The comparator trips: the engine issues on 16 lanes (R220). -/
def execTillerComparatorTrip (engine : Fin 128) (s : State) : Host.Outcome State Fault Refusal :=
  .next (setThrottle engine.val true s)

/-- The comparator has been clear for 1 ms (R220). -/
def execTillerThrottleEnd (engine : Fin 128) (s : State) : Host.Outcome State Fault Refusal :=
  .next (setThrottle engine.val false s)

/-- The entry of a nozzle once every pending write has applied. -/
def standing (s : State) (i : Nat) : Entry :=
  match (s.til.pend.filter fun q => q.nozzle = i).getLast? with
  | some q => (entry s i).withCfg q.cfg
  | none => entry s i

/-- The fitted nozzles of a head. -/
def fittedNozzles (s : State) (h : Nat) : List Nat :=
  (fittedRows s h).flatMap fun r => (List.range (fittedPositions s h)).map fun pos => r * 1024 + pos

/-- Distinct master curves a list of nozzles of a head names. -/
def curveCount (s : State) (h : Nat) (ns : List Nat) : Nat :=
  (ns.map fun n => (standing s (h * 4096 + n)).curve.toNat).eraseDups.length

/-- A split R200 permits: a multiple of 32 from 32 to 4,064, and no engine with more than 64 curves. -/
def splitAllowed (s : State) (h v : Nat) : Bool :=
  decide (v % 32 = 0 ∧ 32 ≤ v ∧ v ≤ 4064) &&
    decide (curveCount s h ((fittedNozzles s h).filter (· < v)) ≤ 64) &&
    decide (curveCount s h ((fittedNozzles s h).filter fun n => !decide (n < v)) ≤ 64)

/-- Line cycles of an engine under a split (R219). -/
def splitCycles (s : State) (t : PlaneTable) (h v : Nat) (upper : Bool) : Nat :=
  ((fittedRows s h).map fun r =>
    let ps := (List.range (fittedPositions s h)).filter fun pos =>
      if upper then decide (v ≤ r * 1024 + pos) else decide (r * 1024 + pos < v)
    if ps = [] then 0 else rowCost s (2 * h + if upper then 1 else 0) ps.length (rowDonors s t h r ps)).sum

/-- The splits R200 could permit. -/
def splitSteps : List Nat := (List.range 127).map fun k => 32 * (k + 1)

/-- The split of least line cycles, ties to the nearest to the one in force and then to the lower (R202). -/
def bestSplit (s : State) (t : PlaneTable) (h : Nat) : Option Nat :=
  let cur := split s h
  let key := fun (v : Nat) => (max (splitCycles s t h v false) (splitCycles s t h v true), if v ≤ cur then cur - v else v - cur)
  (splitSteps.filter fun v => splitAllowed s h v).foldl (fun (b : Option Nat) v =>
    match b with
    | none => some v
    | some u =>
      let x := key v
      let y := key u
      if x.1 < y.1 ∨ (x.1 = y.1 ∧ x.2 < y.2) then some v else some u) none

/-- Resident firmware chooses a head's split again after a throttle change; a choice of the split in force withdraws one that waits (R202). -/
def autoSplit (h : Nat) (s : State) : State :=
  if rbit s Reg.TIL_CTRL 0 && s.til.autoDue.contains h then
    let s1 := { s with til := { s.til with autoDue := s.til.autoDue.filter (· ≠ h) } }
    match (planeOfHead s1 h).bind fun p => (plane s1 p).table with
    | some t => match bestSplit s1 t h with
      | some v =>
        let k := Reg.TIL_E_SPLIT (2 * h)
        let s2 := { s1 with til := { s1.til with autoHeads := s1.til.autoHeads.filter (· ≠ h) } }
        if v = split s1 h then (if tfind s1.regs.shd k = none then s2 else rwsWrite k (BitVec.ofNat 32 v) false s2)
        else rwsWrite k (BitVec.ofNat 32 v) false { s2 with til := { s2.til with autoHeads := h :: s2.til.autoHeads } }
      | none => s1
    | none => s1
  else s

def execAutoSplit (head : Fin 64) (s : State) : Host.Outcome State Fault Refusal := .next (autoSplit head.val s)

/-- A write of TIL_SPLIT_BAR stages or withdraws the selected head's entry of the bar-latch table (R201). -/
def splitBarWrite (v : Word) (s : State) : State :=
  let k := wkey Reg.TIL_SPLIT_BAR (rf s Reg.TIL_SPLIT_SEL 5 0)
  let x := bits 11 0 v.toNat
  if v.toNat / 2 ^ 31 % 2 = 1 then
    if x % 32 = 0 ∧ 32 ≤ x ∧ x ≤ 4064 then pendPage pgTilC (wn k (x + 2 ^ 31) s) else recordErr pgTilC 0x05 s
  else wf k 31 31 0 s

def execTilSplitBarWrite (ini : Initiator) (val : Word) (s : State) : Host.Outcome State Fault Refusal :=
  .next (guardWrite ini Reg.TIL_SPLIT_BAR allBytes val splitBarWrite s)

end Sys2Proof.Machine
end

