-- ==== Sys2Proof/Machine/Planes.lean ====
section
/-! DEFINITION. The nozzle, curve, kernel, split and plane commands (spec/05, R137 and R140; spec/08, spec/09, spec/11). -/

namespace Sys2Proof.Machine
open Sys2Proof

/-! ## NOZZLE_READ (R140) -/

/-- The 32 bytes of an entry (R223). -/
def entryRecord (e : Entry) : List Byte := entryBytes e ++ [e.crc, 0, 0, 0]

/-- A chip nozzle index names a fitted nozzle of an enabled head (R13, R20). -/
def nozzlePresent (s : State) (i : Nat) : Bool :=
  decide (i < 262144) && isFitted s (i / 4096) (i % 4096) && headEnabled s (i / 4096)

/-- NOZZLE_READ (R140). -/
def bodyNozzleRead (h : Hdr) (first count : Nat) (addr len : Nat) (s : State) : State :=
  if count = 0 ∨ 4096 < count ∨ first / 4096 ≠ (first + count - 1) / 4096 then fail h 0x0103 s
  else
    let is := (List.range count).map (· + first)
    if is.any fun i => !nozzlePresent s i then fail h 0x0107 s
    else output h addr len 0 (is.flatMap fun i => entryRecord (entry s i)) s

def execNozzleRead (d : Desc) (first : Word) (count : BitVec 16) (buf : DWord) (len : Word) (s : State) :
    Host.Outcome State Fault Refusal :=
  .next (command d .o (fun _ => [objHead (first.toNat / 4096)]) (.nozzleRead d first count buf len)
    (fun h => bodyNozzleRead h first.toNat count.toNat buf.toNat len.toNat) s)

/-! ## NOZZLE_WRITE (R226 to R228) -/

/-- The entry in 32 bytes. -/
def entryOf (bs : List Byte) : Entry :=
  { cfgEntry bs (Entry.default 0) with crc := bs.getD 28 0 }

/-- A record of 40 bytes. -/
def pendOf (cycle seq : Nat) (bs : List Byte) : PendEntry :=
  let fl := (bs.getD 4 0).toNat
  { nozzle := leAt bs 0 4, cfg := entryOf (bs.drop 8), unretire := fl % 2 = 1, newHead := fl / 2 % 2 = 1, cmd := some seq, cycle }

/-- The format cases of R226 for one record. -/
def recordGood (bs : List Byte) : Bool :=
  let e := bs.drop 8
  decide (leAt bs 0 4 < 262144) && decide ((bs.getD 4 0).toNat < 4) && allZero (slice bs 5 8) &&
    decide ((e.getD 5 0).toNat < 32) && allZero (slice e 29 32) && decide (e.getD 28 0 = crc8 (e.take 28)) &&
    decide ((e.getD 6 0).toNat ≤ 3) && decide ((e.getD 7 0).toNat ≤ 15)

/-- The nozzle donates under R211 but for what its substitutes are: weak, dead or retired with substitution enabled. -/
def Entry.donates (x : Entry) : Bool := decide (1 ≤ x.state) && decide (x.status.toNat / 4 % 2 = 1)

/-- The substitutes an entry names: those of nonzero weight (R211). -/
def Entry.substitutes (x : Entry) : List Nat :=
  ([x.subA, x.subB].filter fun b => subWeight b ≠ 0).map subIndex

/-- The other nozzle of a nozzle's own shared column. -/
def partnerOf (t : PlaneTable) (i : Nat) : Option Nat :=
  match nozzleCol t (i / 4096) (i % 4096) with
  | some (c, _) => match colNozzles t c with
    | some q => q.sec.map fun b =>
        if q.prim = (i / 4096, i % 4096) then b.1 * 4096 + b.2 else q.prim.1 * 4096 + q.prim.2
    | none => none
  | none => none

/-- The receivers a nozzle gives to once every pending write has applied (R211). -/
def receivers (s : State) (d : Nat) : List Nat :=
  let x := standing s d
  let partner := match (planeOfHead s (d / 4096)).bind fun p => (plane s p).table with
    | some t => partnerOf t d
    | none => none
  if x.donates then x.substitutes.filter fun i => decide (some i ≠ partner) else []

/-- Every nozzle with an entry or a pending one. -/
def entryNozzles (s : State) : List Nat := (s.til.entries.map (·.1) ++ s.til.pend.map (·.nozzle)).eraseDups

/-- The cases of R211 that fail a write with 0x0106, with the pending entries in place; `ns` are the nozzles it names. -/
def donorsBad (s : State) (ns : List Nat) : Bool :=
  let gifts := (entryNozzles s).flatMap fun d => receivers s d
  let heads := (ns.map (· / 4096)).eraseDups
  (ns.any fun d => ((standing s d).substitutes).any fun i =>
    decide (planeOfHead s (i / 4096) ≠ planeOfHead s (d / 4096))) ||
  (gifts.eraseDups.any fun i => decide (4 < (gifts.filter (· = i)).length)) ||
  ((List.range 128).any fun e => decide (512 <
    (gifts.filter fun i => decide (i / 4096 = e / 2) && serves s e (i % 4096)).length)) ||
  (heads.any fun h => [2 * h, 2 * h + 1].any fun e =>
    decide (64 < curveCount s h ((fittedNozzles s h).filter fun n => serves s e n)))

/-- Some donor would give to a dead or retired nozzle; a substitute that is the other nozzle of its own shared column gets nothing (R211). -/
def substituteGone (s : State) : Bool :=
  (entryNozzles s).any fun d => (receivers s d).any fun i => decide (2 ≤ (standing s i).state)

/-- The failure status of a NOZZLE_WRITE stream, in the order of R226; none where it is good. -/
def nozzleCheck (s : State) (seq : Nat) (bs : List Byte) : Option Nat :=
  let n := bs.length / 40
  let recs := (List.range n).map fun k => slice bs (40 * k) (40 * k + 40)
  if bs.length % 40 ≠ 0 ∨ bs.length < 40 ∨ 10485760 < bs.length then some 0x0106
  else if recs.any (fun r => !recordGood r) || !decide (recs.map (fun r => leAt r 0 4)).Nodup then some 0x0106
  else
    let ps := recs.map (pendOf (fabCycle s) seq)
    if ps.any fun q => !nozzlePresent s q.nozzle || q.cfg.substitutes.any fun i => !nozzlePresent s i then some 0x0107
    else if ps.any fun q => decide ((standing s q.nozzle).state = 3 ∧ q.cfg.state ≠ 3) && !q.unretire then some 0x0106
    else
      let s1 := { s with til := { s.til with pend := s.til.pend ++ ps } }
      if donorsBad s1 (ps.map (·.nozzle)) || substituteGone s1 then some 0x0106 else none

/-- NOZZLE_WRITE once its stream is complete: the entries wait for their heads' latches, and the command for those and for
its records (R226, R227, R140). -/
def nozzleWrite (h : Hdr) (c : Instr) (x : Stream) (s : State) : State :=
  match nozzleCheck s h.seq x.bytes with
  | some e => fail h e s
  | none =>
    if s.crk.state = .readOnly then fail h 0x0401 s
    else
      let ps := (List.range (x.bytes.length / 40)).map fun k => pendOf (fabCycle s) h.seq (slice x.bytes (40 * k) (40 * k + 40))
      let heads := (ps.map (·.nozzle / 4096)).eraseDups
      let vars := (ps.filter fun q => (standing s q.nozzle).variant ≠ q.cfg.variant).map (·.nozzle / 4096)
      let late := heads.any fun g => match planeOfHead s g with | some p => afterLatch s p | none => false
      let s1 := park { Parked.of s h c true with pages := heads.map (· + 0x20000), late := late, waits := [keyStore] }
        { s with til := { s.til with pend := s.til.pend ++ ps } }
      let s2 := vars.eraseDups.foldl (fun t g => startFill g t) s1
      heads.foldl (fun t g => idleEntries g t) s2

def bodyNozzleWrite (h : Hdr) (c : Instr) (handle : Nat) (s : State) : State :=
  withStream h c [] h.tenant handle (nozzleWrite h c) s

def execNozzleWrite (d : Desc) (handle : Word) (s : State) : Host.Outcome State Fault Refusal :=
  .next (command d .o (fun _ => []) (.nozzleWrite d handle)
    (fun h => bodyNozzleWrite h (.nozzleWrite d handle) handle.toNat) s)

/-- NOZZLE_WRITE completes once its last latch has come and Crock holds its records (R227, R127), with 0x0401 where Crock refused one
(R489). -/
def nozzleWriteDone (seq : Nat) (s : State) : State :=
  match findParked s seq with
  | some p =>
    let mine : Bool := match p.cmd with | .nozzleWrite .. => true | _ => false
    if mine && p.accepted && decide (p.pages = []) && recordsDone s seq then
      if seq ∈ s.crk.refused then fail p.h 0x0401 { s with crk := { s.crk with refused := s.crk.refused.filter (· ≠ seq) } }
      else complete p.h (if p.late then 1 else 0) (res 16 p.slot.toNat) s
    else s
  | none => s

def execNozzleWriteDone (seq : Nat) (s : State) : Host.Outcome State Fault Refusal := .next (nozzleWriteDone seq s)

/-! ## CURVE_LOAD and THRESH_LOAD (R213, R214) -/

/-- A class B change held outside registers: it follows TIL common, under CMD_HOLD while it is written, and arms or joins the bar latch
unless the host holds that page (R252, R127). -/
def barChange (h : Hdr) (c : Instr) (write : State → State) (s : State) : State :=
  let s1 := setCmdHold false pgTilC (write (setCmdHold true pgTilC (park { Parked.of s h c true with pages := [barMark] } s)))
  if (getPage s1 pgTilC).hold then s1 else armBar s1

/-- CURVE_LOAD once its stream is complete. -/
def curveLoad (h : Hdr) (c : Instr) (first count : Nat) (x : Stream) (s : State) : State :=
  let vals := (List.range (256 * count)).map fun i => leAt x.bytes (2 * i) 2
  if x.bytes.length ≠ 512 * count ∨ vals.any (fun v => decide (4096 ≤ v)) then fail h 0x0106 s
  else barChange h c (fun t => (List.range count).foldl (fun u k => { u with til := { u.til with
    pendCurves := u.til.pendCurves ++ [(fabCycle u, first + k, (vals.drop (256 * k)).take 256)] } }) t) s

def bodyCurveLoad (h : Hdr) (c : Instr) (first count handle : Nat) (s : State) : State :=
  if count = 0 ∨ 256 < first + count then fail h 0x0103 s
  else withStream h c [] h.tenant handle (curveLoad h c first count) s

def execCurveLoad (d : Desc) (first count : BitVec 16) (handle : Word) (s : State) : Host.Outcome State Fault Refusal :=
  .next (command d .o (fun _ => []) (.curveLoad d first count handle)
    (fun h => bodyCurveLoad h (.curveLoad d first count handle) first.toNat count.toNat handle.toNat) s)

/-- A cell of a threshold array: seven thresholds that do not decrease, and a zero byte. -/
def cellGood (bs : List Byte) : Bool :=
  (List.range 6).all (fun i => decide ((bs.getD i 0).toNat ≤ (bs.getD (i + 1) 0).toNat)) && decide (bs.getD 7 0 = 0#8)

/-- THRESH_LOAD once its stream is complete. -/
def threshLoad (h : Hdr) (c : Instr) (a : Nat) (x : Stream) (s : State) : State :=
  if x.bytes.length ≠ 131072 ∨ !(List.range 16384).all (fun k => cellGood (slice x.bytes (8 * k) (8 * k + 8))) then
    fail h 0x0106 s
  else barChange h c (fun t => { t with til := { t.til with pendArrays := t.til.pendArrays ++ [(fabCycle t, a, x.bytes)] } }) s

def bodyThreshLoad (h : Hdr) (c : Instr) (a handle : Nat) (s : State) : State :=
  if 7 < a then fail h 0x0103 s else withStream h c [] h.tenant handle (threshLoad h c a) s

def execThreshLoad (d : Desc) (array : BitVec 8) (handle : Word) (s : State) : Host.Outcome State Fault Refusal :=
  .next (command d .o (fun _ => []) (.threshLoad d array handle)
    (fun h => bodyThreshLoad h (.threshLoad d array handle) array.toNat handle.toNat) s)

/-! ## KERNEL_SELECT and SPLIT_MOVE (R216, R217, R200) -/

/-- The parameter block of a handle of 0 (R217). -/
def kernelDefaults (p : Nat) : List Byte :=
  le 1 (p % 8) ++ le 3 0x070000 ++ le 4 0x00DAC688 ++ le 4 0x00FAC688 ++ List.replicate 20 0

/-- The drop map's entries are codes, entry 0 is 0 (R215). -/
def dmapGood (v : Nat) : Bool := decide (v < 2 ^ 24) && decide (v % 8 = 0) && (List.range 8).all fun i => decide (map3 v i ≤ 6)

/-- Reserved fields zero and values in range in a parameter block. -/
def kernelGood (bs : List Byte) : Bool :=
  decide ((bs.getD 0 0).toNat ≤ 7 ∧ (bs.getD 1 0).toNat ≤ 127 ∧ (bs.getD 2 0).toNat ≤ 127 ∧ (bs.getD 3 0).toNat ≤ 7) &&
    dmapGood (leAt bs 4 4) && decide (leAt bs 8 4 < 2 ^ 24) && allZero (slice bs 12 32)

/-- KERNEL_SELECT with its parameter block: every engine of the plane's heads takes the kernel and its parameters. -/
def kernelSelect (h : Hdr) (c : Instr) (p k : Nat) (bs : List Byte) (s : State) : State :=
  if bs.length ≠ 32 then fail h 0x0106 s
  else if !kernelGood bs then fail h 0x0305 s
  else
    let es := (planeHeads s p).flatMap fun d => [2 * d.head, 2 * d.head + 1]
    cmdLatch h c [objPlane p] (es.map pgTilE) [] (fun t => es.foldl (fun u e =>
      cmdShadowN (Reg.TIL_E_LREMAP e) (leAt bs 8 4) (cmdShadowN (Reg.TIL_E_DMAP e) (leAt bs 4 4)
        (cmdShadowN (Reg.TIL_E_SCREEN e)
            ((bs.getD 0 0).toNat + 2 ^ 8 * (bs.getD 1 0).toNat + 2 ^ 16 * (bs.getD 2 0).toNat)
          (cmdShadowN (Reg.TIL_E_KERNEL e) (k + 256 * (bs.getD 3 0).toNat) u)))) t) s

def bodyKernelSelect (h : Hdr) (c : Instr) (p k handle : Nat) (s : State) : State :=
  if 15 < p then fail h 0x0104 s
  else if 3 < k then fail h 0x0305 s
  else if handle = 0 then kernelSelect h c p k (kernelDefaults p) s
  else withStream h c [objPlane p] h.tenant handle (fun x => kernelSelect h c p k x.bytes) s

def execKernelSelect (d : Desc) (plane kernel : BitVec 8) (handle : Word) (s : State) : Host.Outcome State Fault Refusal :=
  .next (command d .o (fun _ => [objPlane plane.toNat]) (.kernelSelect d plane kernel handle)
    (fun h => bodyKernelSelect h (.kernelSelect d plane kernel handle) plane.toNat kernel.toNat handle.toNat) s)

/-- SPLIT_MOVE: it takes precedence over AUTO_SPLIT until the next throttle change (R200, R202). -/
def bodySplitMove (h : Hdr) (c : Instr) (g v : Nat) (s : State) : State :=
  if 63 < g then fail h 0x0104 s
  else if !headEnabled s g then fail h 0x0107 s
  else if !splitAllowed s g v then fail h 0x0103 s
  else
    let e := 2 * g
    let s1 := { s with til := { s.til with
      autoDue := s.til.autoDue.filter (· ≠ g), autoHeads := s.til.autoHeads.filter (· ≠ g) } }
    cmdLatch h c [objHead g] [pgTilE e] [] (cmdShadowN (Reg.TIL_E_SPLIT e) v) s1

def execSplitMove (d : Desc) (head : BitVec 8) (split : BitVec 16) (s : State) : Host.Outcome State Fault Refusal :=
  .next (command d .o (fun _ => [objHead head.toNat]) (.splitMove d head split)
    (fun h => bodySplitMove h (.splitMove d head split) head.toNat split.toNat) s)

/-! ## MAINT_SPIT (R144) -/

/-- The codes of a row for one drop of a code: every nozzle neither dead nor retired whose entry is good fires it. -/
def spitCodes (s : State) (h r code : Nat) : List Nat :=
  (List.range (fittedPositions s h)).map fun pos =>
    let x := entry s (h * 4096 + r * 1024 + pos)
    if x.good && decide (x.state ≤ 1) then code else 0

/-- One drop of a head: each fitted row's codes go out, count as print drops at stage 10 and fire (R144, R230). -/
def spitHead (p code h : Nat) (s : State) : State :=
  if !headLive s h then s
  else (fittedRows s h).foldl (fun t r =>
    let cs := spitCodes t h r code
    loadAndFire h r cs (cs.zipIdx.foldl (fun u q =>
      let n := r * 1024 + q.2
      if q.1 = 0 then u
      else stage10 (if serves u (2 * h) n then 2 * h else 2 * h + 1) (h * 4096 + n) (plane u p).runline q.1 false u) t)) s

/-- What refuses a MAINT_SPIT over heads: a plane that runs, then a trip latch (R144). -/
def spitBars (s : State) (hs : List Nat) : Option Nat :=
  if hs.any fun g => match planeOfHead s g with | some p => (plane s p).live | none => false then some 0x0202
  else if hs.any fun g =>
      (match planeOfHead s g with | some p => tripCoversPlane s p | none => false) ||
      (match segmentOf s g with | some k => tripCoversSegment s k | none => false) then some 0x0206
  else none

/-- MAINT_SPIT once RUN is reached: accepted, it fires drop after drop (R144). -/
def maintSpit (h : Hdr) (c : Instr) (mask n code : Nat) (s : State) : State :=
  let hs := maskBits 64 mask
  if n = 0 ∨ code = 0 ∨ 6 < code then fail h 0x0103 s
  else if hs.any fun g => !headEnabled s g || (planeOfHead s g).isNone then fail h 0x0107 s
  else match spitBars s hs with
    | some e => fail h e s
    | none => parkAccepted h c (hs.map objHead) [] { s with til := { s.til with spits := tput s.til.spits h.seq n } }

/-- The next drop of a running MAINT_SPIT on every head it names; after the last it completes. A plane that has come to run or a trip latch ends
it as it would have refused it. -/
def spitDrop (q : Parked) (mask code : Nat) (s : State) : State :=
  match tfind s.til.spits q.h.seq with
  | none => s
  | some n =>
    let hs := maskBits 64 mask
    let left := fun (t : State) (m : Nat) => { t with til := { t.til with
      spits := if m = 0 then tdel t.til.spits q.h.seq else tput t.til.spits q.h.seq m } }
    match spitBars s hs with
    | some e => fail q.h e (left s 0)
    | none =>
      let s1 := left (hs.foldl (fun t g => match planeOfHead t g with | some p => spitHead p code g t | none => t) s) (n - 1)
      if n ≤ 1 then complete q.h 0 0 s1 else s1

def bodyMaintSpit (h : Hdr) (c : Instr) (mask n code : Nat) (s : State) : State :=
  wake h c ((maskBits 64 mask).map objHead) (maintSpit h c mask n code) s

def execMaintSpit (d : Desc) (mask : DWord) (drops : BitVec 16) (code : BitVec 8) (s : State) :
    Host.Outcome State Fault Refusal :=
  .next (command d .o (fun _ => (maskBits 64 mask.toNat).map objHead) (.maintSpit d mask drops code)
    (fun h => bodyMaintSpit h (.maintSpit d mask drops code) mask.toNat drops.toNat code.toNat) s)

/-! ## PLANE_CONFIG (R203, R207, R208, R322) -/

/-- A span entry of 16 bytes (R207). -/
def spanOf (bs : List Byte) : Span :=
  let b := fun n => (bs.getD n 0).toNat
  let rows := fun (v : Nat) => (List.range 4).map fun g => v / 4 ^ g % 4
  { c0 := leAt bs 0 4, head := b 4, groups := b 5, prim := rows (b 6), sec := rows (b 7),
    secValid := (List.range 4).map fun g => b 8 / 2 ^ g % 2 = 1, reverse := b 9 % 2 = 1, p0 := leAt bs 10 2, m := leAt bs 12 2 }

/-- The fields of a span entry keep their widths and ranges. -/
def spanClean (bs : List Byte) : Bool :=
  let b := fun n => (bs.getD n 0).toNat
  decide (leAt bs 0 4 < 2 ^ 18 ∧ b 4 < 64) && decide (b 5 = 1 ∨ b 5 = 2 ∨ b 5 = 4) && decide (b 8 < 16 ∧ b 9 < 2) &&
    decide (leAt bs 10 2 < 1024 ∧ 1 ≤ leAt bs 12 2 ∧ leAt bs 12 2 ≤ 1024) && allZero (slice bs 14 16)

/-- A head entry of 24 bytes. -/
def headOf (bs : List Byte) : HeadDecl :=
  { head := (bs.getD 0 0).toNat, rows := maskBits 4 (bs.getD 1 0).toNat, positions := leAt bs 2 2,
    rowOfs := (List.range 4).map fun r => (bs.getD (4 + r) 0).toNat, htrim := BitVec.ofNat 32 (leAt bs 8 4),
    rtrim01 := BitVec.ofNat 32 (leAt bs 12 4), rtrim23 := BitVec.ofNat 32 (leAt bs 16 4) }

/-- A register takes a value whole: no reserved bit set and every field in range. -/
def regTakes (addr : Nat) (v : Nat) : Bool :=
  (match regDef addr with | some r => decide (BitVec.ofNat 32 v &&& ~~~r.mask = 0#32) | none => false) &&
    inRange addr (BitVec.ofNat 32 v)

/-- A head entry keeps its widths and ranges. -/
def headClean (bs : List Byte) : Bool :=
  let h := (bs.getD 0 0).toNat
  let rows := (bs.getD 1 0).toNat
  decide (h < 64 ∧ 1 ≤ rows ∧ rows < 16 ∧ 1 ≤ leAt bs 2 2 ∧ leAt bs 2 2 ≤ 1024) && regTakes (Reg.HLK_KLN_TRIM h) (leAt bs 8 4) &&
    regTakes (Reg.HLK_KLN_RTRIM01 h) (leAt bs 12 4) && regTakes (Reg.HLK_KLN_RTRIM23 h) (leAt bs 16 4) &&
    allZero (slice bs 20 24)

/-- A plane table: a header of 32 bytes, its head entries of 24, and one span entry of 16 for each head. -/
def planeTableOf (bs : List Byte) : PlaneTable :=
  let n := leAt bs 0 2
  { head := { vact := leAt bs 4 4, vfront := (bs.getD 8 0).toNat, vsync := (bs.getD 9 0).toNat, vback := leAt bs 10 2,
              trim := BitVec.ofNat 32 (leAt bs 12 4), revTrim := BitVec.ofNat 32 (leAt bs 16 4),
              heads := (List.range n).map fun k => headOf (slice bs (32 + 24 * k) (56 + 24 * k)) },
    spans := (List.range n).map fun k => spanOf (slice bs (32 + 24 * n + 16 * k) (48 + 24 * n + 16 * k)) }

/-- The stream has the shape of a plane table, and its fields their widths and ranges. -/
def planeClean (p : Nat) (bs : List Byte) : Bool :=
  let n := leAt bs 0 2
  decide (1 ≤ n ∧ n ≤ 64 ∧ bs.length = 32 + 40 * n) && allZero (slice bs 2 4) && allZero (slice bs 20 32) &&
    regTakes (Reg.KLN_P_VACT p) (leAt bs 4 4) && regTakes (Reg.KLN_P_VBLANK p) (leAt bs 8 4) &&
    regTakes (Reg.KLN_P_TRIM p) (leAt bs 12 4) && regTakes (Reg.KLN_P_REV_TRIM p) (leAt bs 16 4) &&
    (List.range n).all (fun k => headClean (slice bs (32 + 24 * k) (56 + 24 * k))) &&
    (List.range n).all fun k => spanClean (slice bs (32 + 24 * n + 16 * k) (48 + 24 * n + 16 * k))

/-- A span's groups and positions are fitted, and no group is its own secondary (R208). -/
def spanFits (t : PlaneTable) (x : Span) : Bool :=
  match t.head.heads.find? fun d => d.head = x.head with
  | some d =>
    decide (x.p0 + x.m ≤ 1024 ∧ x.p0 + x.m ≤ d.positions) && (List.range x.groups).all fun g =>
      d.rows.contains (x.prim.getD g 0) &&
        (!x.secValid.getD g false || (d.rows.contains (x.sec.getD g 0) && decide (x.sec.getD g 0 ≠ x.prim.getD g 0)))
  | none => false

/-- Strictly ascending. -/
def ascending : List Nat → Bool
  | a :: b :: r => decide (a < b) && ascending (b :: r)
  | _ => true

/-- A column's spans agree with R208: at most two, consecutive in the map, and no redundant row where there are two. -/
def columnGood (t : PlaneTable) (c : Nat) : Bool :=
  match t.spans.zipIdx.filter fun q => q.1.covers c with
  | [_] => true
  | [a, b] => decide (b.2 = a.2 + 1) && [a.1, b.1].all fun x => !x.secValid.getD ((c - x.c0) % x.groups) false
  | _ => false

/-- The column map keeps R208, and the rows R203 and R322. -/
def planeTableGood (s : State) (t : PlaneTable) : Bool :=
  let w := (t.spans.map fun x => x.c0 + x.groups * x.m).foldl max 0
  decide (t.head.heads.map (·.head)).Nodup && decide (t.spans.map (·.head)).Nodup && ascending (t.spans.map (·.c0)) &&
    t.spans.all (spanFits t) && (List.range w).all (columnGood t) &&
    t.head.heads.all fun d => (d.rowOfs.all fun o => decide (o ≤ 24 ∧ o ≤ t.head.vfront)) &&
      (decide (portMode s d.head ≠ 2) || decide (d.rows.length = 1))

/-- A head is in another plane's table, in force or waiting. -/
def inOtherPlane (s : State) (p h : Nat) : Bool :=
  planeNums.any fun q => decide (q ≠ p) && ((plane s q).table.toList ++ (plane s q).pendTable.map (·.2)).any fun t =>
    t.head.heads.any fun d => decide (d.head = h)

/-- The row-offset register of a head entry. -/
def HeadDecl.ofsWord (d : HeadDecl) : Nat := ((List.range 4).map fun r => d.rowOfs.getD r 0 * 2 ^ (8 * r)).sum

/-- What PLANE_CONFIG writes under CMD_HOLD. -/
def planeWrites (p : Nat) (t : PlaneTable) (s : State) : State :=
  let s1 := cmdShadow (Reg.KLN_P_REV_TRIM p) t.head.revTrim (cmdShadow (Reg.KLN_P_TRIM p) t.head.trim
    (cmdShadowN (Reg.KLN_P_VBLANK p) (t.head.vfront + 2 ^ 8 * t.head.vsync + 2 ^ 16 * t.head.vback)
      (cmdShadowN (Reg.KLN_P_VACT p) t.head.vact s)))
  t.head.heads.foldl (fun u d =>
    cmdShadow (Reg.HLK_KLN_RTRIM23 d.head) d.rtrim23 (cmdShadow (Reg.HLK_KLN_RTRIM01 d.head) d.rtrim01
      (cmdShadow (Reg.HLK_KLN_TRIM d.head) d.htrim (cmdShadowN (Reg.TIL_E_ROWOFS (2 * d.head)) d.ofsWord u))))
    (updPlane p (fun g => { g with pendTable := g.pendTable ++ [(fabCycle s, t)] }) s1)

/-- PLANE_CONFIG once its stream is complete (R203, R208, R20, R16, R607). -/
def planeConfig (h : Hdr) (c : Instr) (p : Nat) (x : Stream) (s : State) : State :=
  let t := planeTableOf x.bytes
  if !planeClean p x.bytes then fail h 0x0106 s
  else if t.head.heads.any fun d => !headEnabled s d.head then fail h 0x0107 s
  else if !planeTableGood s t then fail h 0x0106 s
  else if t.head.heads.any fun d => inOtherPlane s p d.head then fail h 0x0201 s
  else
    let pages := pgKlnP p :: t.head.heads.flatMap fun d => [pgTilE (2 * d.head), pgHlk d.head]
    idleTables p (cmdLatch h c [objPlane p] pages [0x10000 + p] (planeWrites p t) (discardAhead p s))

def bodyPlaneConfig (h : Hdr) (c : Instr) (p handle : Nat) (s : State) : State :=
  if 15 < p then fail h 0x0104 s else withStream h c [objPlane p] h.tenant handle (planeConfig h c p) s

def execPlaneConfig (d : Desc) (plane : BitVec 8) (handle : Word) (s : State) : Host.Outcome State Fault Refusal :=
  .next (command d .o (fun _ => [objPlane plane.toNat]) (.planeConfig d plane handle)
    (fun h => bodyPlaneConfig h (.planeConfig d plane handle) plane.toNat handle.toNat) s)

/-! ## PASS_LOAD (R295 to R297) -/

/-- A pass entry of 528 bytes. -/
def passOf (bs : List Byte) : Pass :=
  { reverse := (bs.getD 0 0).toNat % 2 = 1, feed := leAt bs 4 2,
    masks := (List.range 4).map fun r => slice bs (16 + 128 * r) (144 + 128 * r) }

/-- A pass table stream. -/
def passTableOf (bs : List Byte) : PassTable :=
  { b0 := signed 32 (leAt bs 4 4), axis := (bs.getD 8 0).toNat % 8, cpl := leAt bs 12 4,
    passes := (List.range (leAt bs 2 2)).map fun k => passOf (slice bs (32 + 528 * k) (560 + 528 * k)) }

/-- The format of R296 and the length of R297. -/
def passClean (bs : List Byte) : Bool :=
  let n := leAt bs 2 2
  decide (leAt bs 0 2 = 0x5450 ∧ 1 ≤ n ∧ n ≤ 256 ∧ bs.length = 32 + 528 * n) && decide ((bs.getD 8 0).toNat < 8) &&
    allZero (slice bs 9 12) && decide (leAt bs 12 4 ≠ 0) && allZero (slice bs 16 32) &&
    (List.range n).all fun k =>
      let e := slice bs (32 + 528 * k) (560 + 528 * k)
      decide ((e.getD 0 0).toNat < 2) && allZero (slice e 1 4) && allZero (slice e 6 16)

/-- A pass's mask lets a nozzle eject. -/
def Pass.lets (x : Pass) (n : Nat) : Bool :=
  ((x.masks.getD (n / 1024) []).getD (n % 1024 / 8) 0#8).toNat / 2 ^ (n % 8) % 2 = 1

/-- The page lines a pass prints from its swath start. -/
def passPrints (t : PlaneTable) (w : Nat) (b : Int) (x : Pass) : List Int :=
  (List.range w).filterMap fun c => match colNozzles t c with
    | some q =>
      if (x.lets q.prim.2 || (match q.sec with | some n => x.lets n.2 | none => false)) && decide (0 ≤ b + c) then some (b + c)
      else none
    | none => none

/-- The page lines of every pass, in order. -/
def allPrints (t : PlaneTable) (w : Nat) : Int → List Pass → List Int
  | _, [] => []
  | b, x :: r => passPrints t w b x ++ allPrints t w (b + x.feed) r

/-- No page line is printed by two passes on a plane (R297). -/
def passesDisjoint (s : State) (p : Nat) (t : PassTable) : Bool :=
  match (plane s p).table with
  | some g => decide (allPrints g (planeWidth s p) t.b0 t.passes).Nodup
  | none => true

/-- PASS_LOAD once its stream is complete. -/
def passLoad (h : Hdr) (c : Instr) (mask : Nat) (x : Stream) (s : State) : State :=
  let ps := maskBits 16 mask
  let t := passTableOf x.bytes
  if !passClean x.bytes then fail h 0x0106 s
  else if ps.any fun p => !passesDisjoint s p t then fail h 0x0106 s
  else if ps.any fun p => !Config.swathFits (swathMiB s p false) then fail h 0x0401 s
  else
    let late := ps.any fun p => afterLatch s p
    let s1 := park { Parked.of s h c true with pages := ps.map (· + 0x30000), late := late } s
    ps.foldl (fun u p => idleTables p (updPlane p (fun g => { g with pendPass := g.pendPass ++ [(fabCycle s, t)] }) u)) s1

def bodyPassLoad (h : Hdr) (c : Instr) (mask handle : Nat) (s : State) : State :=
  if (maskBits 16 mask).any fun p => !scanning s p then fail h 0x0201 s
  else withStream h c ((maskBits 16 mask).map objPlane) h.tenant handle (passLoad h c mask) s

def execPassLoad (d : Desc) (mask : BitVec 16) (handle : Word) (s : State) : Host.Outcome State Fault Refusal :=
  .next (command d .o (fun _ => (maskBits 16 mask.toNat).map objPlane) (.passLoad d mask handle)
    (fun h => bodyPassLoad h (.passLoad d mask handle) mask.toNat handle.toNat) s)

end Sys2Proof.Machine
end

