-- ==== Sys2Proof/Machine/Winnow.lean ====
section
/-! DEFINITION. Winnow: absorbance, prediction, comparison, defects, streaks and verdicts, and the samples it gives the Gleaner (spec/16,
R386 to R400). -/

namespace Sys2Proof.Machine
open Sys2Proof

/-! ## Density units (R386) -/

/-- alog[i]: the D-units of i/4096, by the integers it lies between: −100·log10(i/4096) + 0.5 ≥ n exactly when
4096^200 ≥ 10^(2n−1)·i^200. -/
def alog (i : Nat) : Nat :=
  if i = 0 then 255
  else ((List.range 255).filter fun n => decide (10 ^ (2 * n + 1) * i ^ 200 ≤ 4096 ^ 200)).length

/-- The absorbance of a registered sample against white. -/
def absorbance (r w : Nat) : Nat :=
  let w1 := max 1 w
  alog (min 4095 ((r * 4096 + w1 / 2) / w1))

/-! ## The prediction (R387 to R391) -/

/-- The bin a plane's ring holds of a slot. -/
def findBin (s : State) (p n b : Nat) : Option DensBin :=
  (tfind s.win.rings p).bind fun g => g.bins.find? fun x => decide (x.slot = n ∧ x.bin = b ∧ x.size = rf s Reg.WIN_BIN 3 0)

/-- Page lines of a bin of a page. -/
def binLines (size height b : Nat) : Nat := min size (height - b * size)

/-- dmap[P][c][b]: 0 for a bin outside the page. -/
def dmap (s : State) (p n height : Nat) (c : Nat) (b : Int) : Nat :=
  let size := rf s Reg.WIN_BIN 3 0
  if b < 0 ∨ (height : Int) ≤ b * size then 0
  else match findBin s p n b.toNat with
    | some x => let nl := binLines size height b.toNat; min 255 ((tget x.acc 0 c + nl / 2) / nl)
    | none => 0

/-- A plane has fired page line y of slot n: every row has passed it. -/
def firedLine (s : State) (p n y : Nat) : Bool :=
  let g := plane s p
  match g.slot with
  | none => true
  | some m =>
    if m < n then false
    else if n + 1 < m then true
    else
      let base := if m = n then g.latchRun + BitVec.ofNat 32 (vSync s p + vBack s p) else g.prevLatchRun + BitVec.ofNat 32 g.prevVis.1
      (planeHeads s p).all fun d => d.rows.all fun r =>
        let x := row s d.head r
        !x.started || decide (0 < runDist x.nextEdge (base + BitVec.ofNat 32 (y + rowOfs s p d.head r)))

/-- What a line's bins allow: its prediction, a wait, or none since a bin is gone. -/
inductive Predicted where
  | ready | waits | gone
  deriving DecidableEq, Repr

/-- The bins b − 1 to b + 1 of every printing plane of a copy (R388, R390). -/
def binsReady (s : State) (planes : List Nat) (n height b : Nat) : Predicted :=
  let size := rf s Reg.WIN_BIN 3 0
  let bs : List Int := ([(b : Int) - 1, b, b + 1] : List Int).filter fun (i : Int) => decide (0 ≤ i ∧ i * (size : Int) < (height : Int))
  let lastLine := fun (i : Int) => min height ((i.toNat + 1) * size) - 1
  if planes.any fun p => bs.any fun i => !firedLine s p n (lastLine i) then .waits
  else if planes.any fun p => bs.any fun i => (findBin s p n i.toNat).isNone then .gone
  else .ready

/-- sk[P][dy + 1][dx + 1]. -/
def spreadKernel (s : State) (p dy dx : Nat) : Nat :=
  let r := if dy = 0 then Reg.WIN_PL_SK0 else if dy = 1 then Reg.WIN_PL_SK1 else Reg.WIN_PL_SK2
  rf s (wkey r p) (8 * dx + 7) (8 * dx)

/-- A plane's spread kernel sums to 256 (R391). -/
def kernelWhole (s : State) (p : Nat) : Bool :=
  decide (((List.range 3).flatMap fun dy => (List.range 3).map fun dx => spreadKernel s p dy dx).sum = 256)

/-- ck[P][ch]. -/
def channelWeight (s : State) (p ch : Nat) : Nat := rf s (wkey Reg.WIN_PL_CK p) (8 * ch + 7) (8 * ch)

/-- WIN_PL_CK.GCH. -/
def gleanChannel (s : State) (p : Nat) : Nat := rf s (wkey Reg.WIN_PL_CK p) 25 24

/-- sp_P at a column of a bin. -/
def spreadAt (s : State) (p n height c b : Nat) : Nat :=
  let w := planeWidth s p
  (((List.range 3).flatMap fun dy => (List.range 3).map fun dx =>
    spreadKernel s p dy dx * dmap s p n height (min (c + dx - 1) (w - 1)) ((b : Int) + dy - 1)).sum + 128) / 256

/-- A compared pixel: the spread density of each printing plane, and e by channel. -/
structure Pixel where
  col : Nat
  sp : List (Nat × Nat)
  e : List Int
  deriving DecidableEq, Repr

/-- The pixels of a compared line (R390). -/
def comparePixels (s : State) (k : Nat) (planes : List Nat) (height b : Nat) (l : RegLine) : List Pixel :=
  l.px.zipIdx.map fun q =>
    let c := l.col0 + q.2
    let sp := planes.map fun p => (p, spreadAt s p l.slot height c b)
    let e := q.1.zipIdx.map fun v =>
      let x := (sp.map fun z => channelWeight s z.1 v.2 * z.2).sum
      ((absorbance v.1 (whiteOf s k v.2) : Nat) : Int) - (min 255 ((x + 64) / 128) : Nat)
    { col := c, sp, e }

/-- A pixel is marked: its error exceeds PIX_THR in some channel (R392). -/
def marked (s : State) (x : Pixel) : Bool := x.e.any fun v => decide (rf s Reg.WIN_DEF 7 0 < v.natAbs)

/-! ## What is kept of a copy -/

def insp (s : State) (c : Nat) : Insp := tget s.win.copies ⟨false, false, 0⟩ c

def putInsp (c : Nat) (x : Insp) (s : State) : State := { s with win := { s.win with copies := tput s.win.copies c x } }

/-- The tiles and streak block of a copy on a port. -/
def scanOf (s : State) (c k : Nat) (re : Bool) : Scan :=
  (s.win.scans.find? fun x => decide (x.copy = c ∧ x.port = k ∧ x.repro = re)).getD
    ⟨c, k, re, 0, 0, [], 0, 0, [], []⟩

def putScan (x : Scan) (s : State) : State :=
  let rest := s.win.scans.filter fun y => !decide (y.copy = x.copy ∧ y.port = x.port ∧ y.repro = x.repro)
  { s with win := { s.win with scans := rest ++ [x] } }

/-- A defect or streak found in a copy counts for its receipt, unless it comes from re-processing or after the verdict (R395 to
R397). -/
def countFound (c : Nat) (re : Bool) (s : State) : State :=
  if re then s
  else updCopy c (fun y => if y.state = .committed ∨ y.state = .fired then { y with defects := min 65535 (y.defects + 1) } else y) s

/-- Write a record, within DEF_MAX for its copy and 4,096 in all (R394). -/
def writeRecord (c : Nat) (bs : List Byte) (s : State) : State :=
  let x := insp s c
  if rf s Reg.WIN_DEF 23 16 ≤ x.records ∨ 4096 ≤ s.win.records.length then inc Reg.WIN_DEF_LOST_CNT 1 s
  else putInsp c { x with records := x.records + 1 } { s with win := { s.win with records := s.win.records ++ [bs] } }

/-- Bytes 0 to 27 of a record. -/
def recordHead (typ k ch : Nat) (re : Bool) (x : Copy) (col y dev mark : Nat) : List Byte :=
  le 1 typ ++ le 1 (k + 4 * ch + (if re then 16 else 0)) ++ le 2 x.tenant ++ le 4 x.job ++ le 4 x.num ++ le 4 (x.slot.getD 0) ++
    le 4 col ++ le 4 y ++ le 2 dev ++ le 1 mark ++ le 1 0

/-! ## Defects (R392) -/

/-- Add a pixel to its tile: marked pixels, the largest error and its channel. -/
def tileAdd (s : State) (x : Pixel) (t : Tab (Nat × Nat × Nat)) : Tab (Nat × Nat × Nat) :=
  let k := x.col / 8
  let o := tget t (0, 0, 0) k
  let m := x.e.zipIdx.foldl (fun (b : Nat × Nat) v => if b.1 < v.1.natAbs then (v.1.natAbs, v.2) else b) (o.2.1, o.2.2)
  tput t k (o.1 + (if marked s x then 1 else 0), m.1, m.2)

/-- A tile is a defect: it is counted, posted and recorded. -/
def judgeTile (k : Nat) (re : Bool) (c y : Nat) (t : Nat) (e : Nat × Nat × Nat) (time : Nat) (s : State) : State :=
  match findCopy s c with
  | some x =>
    if !rbit s Reg.WIN_CTRL 1 || decide (e.1 < rf s Reg.WIN_DEF 13 8) then s
    else
      let bs := recordHead 1 k e.2.2 re x (t * 8) y e.2.1 e.1 ++ le 4 0xFFFFFFFF ++ le 4 0xFFFFFFFF ++ le 4 0 ++ le 8 time
      let s1 := writeRecord c bs (countFound c re (inc Reg.WIN_DEFECT_CNT 1 s))
      raiseIrq pgWin 4 (event 0x6101 (some x.tenant)
        (le 2 x.tenant ++ le 4 x.job ++ le 4 x.num ++ le 1 k ++ le 4 (t * 8) ++ le 4 y ++ le 4 e.2.1) s1)
  | none => s

/-- The tile row ends: every tile is judged. -/
def endTiles (x : Scan) (s : State) : State :=
  let s1 := x.tiles.foldl (fun t e => judgeTile x.port x.repro x.copy x.tileY e.1 e.2 (stamp s).toNat t) s
  putScan { scanOf s1 x.copy x.port x.repro with tiles := [], tileN := 0 } s1

/-! ## Streaks (R393) -/

/-- m of a column and channel at a block's end, in 1/16 D-unit. -/
def blockMean (x : Scan) (col ch : Nat) : Int := divZ (tget x.sums 0 (col * 4 + ch) * 16) x.strN

/-- The baseline of a column and channel. -/
def baseline (x : Scan) (col ch : Nat) : Int :=
  divZ (blockMean x (col - 4) ch + blockMean x (col - 3) ch + blockMean x (col - 2) ch + blockMean x (col + 2) ch +
    blockMean x (col + 3) ch + blockMean x (col + 4) ch) 6

/-- The nozzles of a column in the first printing plane whose complementary channel is ch (R394). -/
def streakNozzles (s : State) (x : Copy) (col ch : Nat) : Nat × Nat :=
  match (copyPlanes s x).find? fun p => decide (gleanChannel s p = ch) with
  | some p => match (plane s p).table with
    | some t => match colNozzles t col with
      | some q =>
        let id := fun (n : Nat × Nat) => pressNozzle s (n.1 * 4096 + n.2)
        (id q.prim, (q.sec.map id).getD 0xFFFFFFFF)
      | none => (0xFFFFFFFF, 0xFFFFFFFF)
    | none => (0xFFFFFFFF, 0xFFFFFFFF)
  | none => (0xFFFFFFFF, 0xFFFFFFFF)

/-- A column and channel is judged at a block's end. -/
def judgeColumn (x : Scan) (key : Nat) (s : State) : State :=
  let col := key / 4
  let ch := key % 4
  let d := blockMean x col ch - baseline x col ch
  match findCopy s x.copy with
  | some y =>
    if !rbit s Reg.WIN_CTRL 2 || decide (d.natAbs ≤ rf s Reg.WIN_STREAK 11 0) then s
    else
      let s1 := inc Reg.WIN_STREAK_CNT 1 s
      if (scanOf s x.copy x.port x.repro).told.contains key then s1
      else
        let nz := streakNozzles s y col ch
        let bs := recordHead 2 x.port ch x.repro y col x.strY (unsigned 16 d) 0 ++ le 4 nz.1 ++ le 4 nz.2 ++ le 4 0 ++
          le 8 (stamp s).toNat
        let z := scanOf s x.copy x.port x.repro
        let s2 := writeRecord x.copy bs (countFound x.copy x.repro (putScan { z with told := key :: z.told } s1))
        raiseIrq pgWin 5 (event 0x6102 (some y.tenant)
          (le 2 y.tenant ++ le 4 y.job ++ le 4 y.num ++ le 1 x.port ++ le 1 ch ++ le 4 col ++ le 4 (unsigned 32 d) ++
            le 4 nz.1 ++ le 4 nz.2) s2)
  | none => s

/-- A streak block ends: columns at least four from either end of the port's range are judged, unless the block is shorter than half of
SLEN. -/
def endBlock (x : Scan) (s : State) : State :=
  let cs := camCols s x.port
  let judged := (x.sums.map (·.1)).filter fun key => decide (cs.1 + 4 ≤ key / 4 ∧ key / 4 + 4 ≤ cs.2)
  let s1 := if x.strN = 0 ∨ 2 * x.strN < rf s Reg.WIN_STREAK 27 16 then s
    else judged.foldl (fun t key => judgeColumn x key t) s
  putScan { scanOf s1 x.copy x.port x.repro with sums := [], strN := 0 } s1

/-- A compared line enters the tiles and the streak block of its copy on the port. -/
def scanLine (c k : Nat) (re : Bool) (y : Nat) (px : List Pixel) (s : State) : State :=
  let x := scanOf s c k re
  let x1 := { x with
    tileY := if x.tileN = 0 then y else x.tileY, tileN := x.tileN + 1, tiles := px.foldl (fun t p => tileAdd s p t) x.tiles,
    strY := if x.strN = 0 then y else x.strY, strN := x.strN + 1,
    sums := px.foldl (fun t p => p.e.zipIdx.foldl (fun u v => tput u (p.col * 4 + v.2) (tget u 0 (p.col * 4 + v.2) + v.1)) t) x.sums }
  let s1 := putScan x1 s
  let s2 := if 8 ≤ x1.tileN then endTiles x1 s1 else s1
  if rf s Reg.WIN_STREAK 27 16 ≤ x1.strN then endBlock (scanOf s2 c k re) s2 else s2

/-- A copy's lines on a port are over: the tile row and block that are open are judged. -/
def endScan (c k : Nat) (re : Bool) (s : State) : State :=
  let x := scanOf s c k re
  let s1 := if x.tileN = 0 then s else endTiles x s
  let y := scanOf s1 c k re
  if y.strN = 0 then s1 else endBlock y s1

/-! ## Glean samples (R399, R400) -/

/-- A pixel is a glean sample of a plane. -/
def isSample (s : State) (p : Nat) (x : Copy) (n b : Nat) (px : Pixel) : Bool :=
  let ch := gleanChannel s p
  let h := x.page0.height
  let c := px.col
  let w := planeWidth s p
  let at0 := dmap s p n h c b
  let near := (List.range 3).flatMap fun dy => (List.range 3).map fun dx =>
    dmap s p n h (min (c + dx - 1) (w - 1)) ((b : Int) + dy - 1)
  let others := ((px.sp.filter fun z => z.1 ≠ p).map fun z => channelWeight s z.1 ch * z.2).sum
  decide (c < w ∧ rf s Reg.GLN_QUAL 7 0 ≤ at0 ∧ at0 ≤ rf s Reg.GLN_QUAL 15 8) &&
    decide (near.foldl max 0 ≤ near.foldl min 255 + rf s Reg.GLN_QUAL 23 16) &&
    decide ((others + 64) / 128 ≤ rf s Reg.GLN_QUAL 31 24) && !marked s px && !x.marred.contains p

/-- Credit a nozzle with its share of a sample. -/
def creditNozzle (s : State) (pp share : Nat) (e : Int) (i : Nat) (w : GleanWin) : GleanWin :=
  if 2 ≤ (entry s i).state ∨ isFitted s (i / 4096) (i % 4096) = false then w
  else
    let o := tget w.acc (0, 0) i
    { w with acc := tput w.acc i (min 0xFFFFFF (o.1 + (pp * share + 128) / 256), satS 24 (o.2 + divF (e * share + 128) 256)) }

/-- A glean sample credits the nozzles of its column. -/
def creditSample (s : State) (p : Nat) (px : Pixel) (w : GleanWin) : GleanWin :=
  let ch := gleanChannel s p
  let sp := ((px.sp.find? fun z => z.1 = p).map (·.2)).getD 0
  let pp := (channelWeight s p ch * sp + 64) / 128
  let e := px.e.getD ch 0
  let idx := fun (n : Nat × Nat) => n.1 * 4096 + n.2
  match (plane s p).table with
  | none => w
  | some t => match colNozzles t px.col with
    | none => w
    | some q =>
      let w1 := { w with q := min 0xFFFFFFFF (w.q + 1) }
      match q.sec with
      | none => creditNozzle s pp 256 e (idx q.prim) w1
      | some b =>
        let split := decide ((entry s (idx q.prim)).state < 2 ∧ (entry s (idx b)).state < 2)
        creditNozzle s pp (if split then q.theta else 256) e (idx b)
          (creditNozzle s pp (if split then 256 - q.theta else 256) e (idx q.prim) w1)

/-- A compared line enters the open windows of the calibrating planes it prints with (R398). -/
def gleanLine (k : Nat) (x : Copy) (n b : Nat) (px : List Pixel) (s : State) : State :=
  ((copyPlanes s x).filter fun p => windowOpen s p && inspects s k p).foldl (fun t p =>
    let w := gleanWin t p
    if gleanTarget t ≤ tget w.lines 0 k then t
    else
      let w1 := { w with lines := tput w.lines k (tget w.lines 0 k + 1) }
      let w2 := (px.filter (isSample t p x n b)).foldl (fun v z => creditSample t p z v) w1
      closeWindow p (putGlean p w2 t)) s

/-! ## Comparing a line (R389 to R391, R397, R410) -/

/-- The copy a line of a slot saw: it carries one, the port's plane prints it in single-pass mode, and the line is on the page. -/
def seenCopy (s : State) (k : Nat) (l : RegLine) : Option Copy :=
  match s.jobs.copies.find? fun x => decide (x.slot = some l.slot ∧ x.state ≠ .voided) with
  | some x =>
    if rbit s Reg.WIN_CTRL 0 && camSees s x k && !((copyPlanes s x).any fun p => scanning s p) &&
        decide (0 ≤ l.y ∧ l.y < x.page0.height) then some x else none
  | none => none

/-- The first compared line of a copy checks its kernels (R391). -/
def checkKernels (x : Copy) (s : State) : State :=
  let i := insp s x.seq
  if i.checked then s
  else if (copyPlanes s x).all fun p => kernelWhole s p then putInsp x.seq { i with checked := true } s
  else recordErr pgWin 0x40 (putInsp x.seq { i with checked := true, bad := true } s)

/-- A compared line counts for its copy: the port enters the verdict, and a port whose reference is not to be trusted marks it
(R410). -/
def noteCompared (c k : Nat) (s : State) : State :=
  let bad := refDegraded s k
  updCopy c (fun y => if y.state = .committed ∨ y.state = .fired then
    { y with
      ports := if y.ports / 2 ^ k % 2 = 1 then y.ports else y.ports + 2 ^ k,
      flags := { y.flags with refDegraded := y.flags.refDegraded || bad } } else y) s

/-- Winnow takes a registered line; none while it waits for its prediction. -/
def compareLine (k : Nat) (l : RegLine) (s : State) : Option State :=
  match seenCopy s k l with
  | none => some s
  | some x =>
    let s1 := checkKernels x s
    let planes := copyPlanes s1 x
    let b := l.y.toNat / max 1 (rf s1 Reg.WIN_BIN 3 0)
    if (insp s1 x.seq).bad || noRing s1 x then some s1
    else match binsReady s1 planes l.slot x.page0.height b with
      | .waits => none
      | .gone =>
        let s2 := inc Reg.WIN_PRED_MISS_CNT 1 (inc (Reg.IPL_C_MISS_CNT k) 1 s1)
        some (if l.repro.isSome then s2 else putInsp x.seq { insp s2 x.seq with bad := true } s2)
      | .ready =>
        let px := comparePixels s1 k planes x.page0.height b l
        let re := l.repro.isSome
        let s2 := scanLine x.seq k re l.y.toNat px s1
        some (if re then s2 else gleanLine k x l.slot b px (noteCompared x.seq k s2))

/-- A port passes the boundary after slot n (R395). -/
def passFrame (k n : Nat) (whole : Bool) (s : State) : State :=
  let s1 := match s.jobs.copies.find? fun x => decide (x.slot = some n) with
    | some x => endScan x.seq k false s
    | none => s
  tryRules { s1 with win := { s1.win with closed := ((k, n, whole) :: s1.win.closed).take 4096 } }

/-- A REPROCESS has passed Winnow: its open tiles and blocks are judged, and the command completes (R384). -/
def reproFinish (k seq : Nat) (s : State) : State :=
  let s1 := (s.win.scans.filter fun x => x.repro && decide (x.port = k)).foldl (fun t x => endScan x.copy k true t) s
  completeSeq seq 0 0 { s1 with win := { s1.win with scans := s1.win.scans.filter fun x => !(x.repro && decide (x.port = k)) } }

/-- Winnow takes what a port has for it next. -/
def winnowTake (k : Nat) (s : State) : State :=
  let drop := updCam k (fun g => { g with items := g.items.drop 1 })
  match (cam s k).items with
  | .line l :: _ => match compareLine k l s with
    | some t => drop t
    | none => s
  | .close n w :: _ => passFrame k n w (drop s)
  | .finish q :: _ => reproFinish k q (drop s)
  | [] => s

def execWinnowLineCompare (port : Fin 4) (s : State) : Host.Outcome State Fault Refusal := .next (winnowTake port.val s)

/-! ## The ruling time limit, and DEFECT_FETCH (R394, R396) -/

/-- A FIRED copy has not been ruled for WIN_RULE_TMO: it is ruled UNINSPECTED. -/
def ruleTimeout (c t : Nat) (s0 : State) : State :=
  let s := advanceTo t s0
  match findCopy s c with
  | some x =>
    if x.state = .fired ∧ x.firedAt + rf s Reg.WIN_RULE_TMO 15 0 * ms ≤ s.clock.uptime then
      raiseIrq pgWin 6 (event 0x6103 (some x.tenant)
        (le 2 x.tenant ++ le 4 x.job ++ le 4 x.num ++ le 4 (x.slot.getD 0xFFFFFFFF)) (verdict c true s))
    else s0
  | none => s0

def execWinnowRuleTimeout (copy : Nat) (t : DWord) (s : State) : Host.Outcome State Fault Refusal :=
  .next (ruleTimeout copy t.toNat s)

/-- DEFECT_FETCH: the records held go to the host, and are held no more. -/
def defectFetch (h : Hdr) (buf len : Nat) (s : State) : State :=
  let bs := s.win.records.flatMap id
  if len < bs.length then output h buf len 0 bs s
  else output h buf len 0 bs { s with win := { s.win with records := [] } }

def execDefectFetch (d : Desc) (buf : DWord) (len : Word) (s : State) : Host.Outcome State Fault Refusal :=
  .next (command d .o (fun _ => []) (.defectFetch d buf len) (fun h => defectFetch h buf.toNat len.toNat) s)

end Sys2Proof.Machine
end

