-- ==== Sys2Proof/Machine/Status.lean ====
section
/-! DEFINITION. What a read of a register returns: page headers, status registers whose value follows the state, holding
registers and snapshots (spec/02, R33 to R60, and the register tables of every chapter). -/

namespace Sys2Proof.Machine
open Sys2Proof

/-! ## Page headers (spec/02) -/

/-- A bit of a register word. -/
def flag (b : Bool) (n : Nat) : Nat := if b then 2 ^ n else 0

/-- The mask of a list of different bit numbers. -/
def maskSum (l : List Nat) : Nat := (l.map fun i => 2 ^ i).sum

/-- PG_ID.INST of a page (R58). -/
def pageInst (n : Nat) : Nat :=
  match pageOf n with
  | some (k, i) => match k with
    | .tilC | .klnC | .pifC | .motC | .iplC => 0xFF
    | _ => i
  | none => 0

/-- The page holds RWS registers (PG_CAP.SHADOW). -/
def hasShadow (k : PageKind) : Bool := (regRows k).any fun r => decide (r.acc = .rws ∨ r.acc = .rwsEven)

/-- PG_CAP.BLOCK_CAP where a chapter defines it: Thresher's and Mill's lane counts (spec/06). -/
def blockCap : PageKind → Nat
  | .thr => 24
  | .mil => 2
  | _ => 0

/-- PG_CAP of a page. No page of BAR0 holds an RWL register. -/
def pageCap (k : PageKind) : Nat :=
  flag (hasShadow k) 0 + flag (hasSrst k) 2 + flag (Config.cgate (blockId k)) 3 + blockCap k * 65536

/-- A block has work in progress (PG_STAT.BUSY). -/
def blockBusy (s : State) (n : Nat) : Bool :=
  match pageOf n with
  | none => false
  | some (k, i) => match k with
    | .thr => decide (s.thr.lanes ≠ []) || s.thr.preparing.isSome
    | .mil => s.mil.job.isSome || s.mil.diag.isSome
    | .tilE => (khead s (i / 2)).rows.any fun e =>
        (e.2.fills.any fun x => x.engines.contains i) || e.2.reversals.any fun x => x.engines.contains i
    | .klnP => (plane s i).live
    | .hlk => decide ((port s i).frames ≠ []) || decide ((port s i).descs ≠ []) || decide ((port s i).fills ≠ [])
    | .motA => decide ((axis s i).state = .enabling ∨ (axis s i).state = .moving ∨ (axis s i).state = .stopping)
    | .iplC => s.ipl.slice.isSome
    | .iplP => camRunning s i
    | .win => camNums.any fun c => decide ((cam s c).items ≠ [])
    | .cal => decide (s.cal.props ≠ [])
    | .tly => s.tly.slots.any fun e => decide (e.2.exchanges ≠ [])
    | .clk => s.clk.iocal
    | .pwr => s.pwr.toward.isSome || decide (s.pwr.queue ≠ [])
    | .crk => decide (s.crk.queue ≠ []) || s.crk.compacting
    | .sag => !s.sag.ready
    | .hif => decide (s.hif.reads ≠ [])
    | .glb | .thm | .fan | .tim | .stk | .mem | .glz | .tilC | .klnC | .pifC | .pifCh | .motC | .gln | .trm => false

/-- PG_STAT.READY: 0 in a reset or soft reset of the block and while it is powered down; HIF's returns with resident firmware (R37, R60,
R448, R532). -/
def pageReady (s : State) (n : Nat) : Bool :=
  pageUp s n && !(getPage s n).inReset && (decide (n ≠ pgHif) || s.fw.ready)

/-- PG_OWNER.LOCK_OPEN: Sagger opens the locks while its debug scope 2 is open, and for the boot (spec/18). -/
def lockOpen (s : State) : Bool := bits 2 2 s.sag.scopes = 1 || (s.pwr.boot.isSome && !s.sag.halted && decide (s.sag.failCode = 0))

/-- PG_STAT. -/
def pageStat (s : State) (n : Nat) : Nat :=
  let p := getPage s n
  flag (pageReady s n) 0 + flag (blockBusy s n) 1 + flag (decide (p.errCount ≠ 0#8)) 2 + flag p.pending 3 +
    flag (!lockOpen s) 4

/-- PG_SHADOW.PLANE: the plane whose frame latch the page follows, the port's plane on a camera page (R47, R48, R375). -/
def shadowPlane (s : State) (n : Nat) : Nat :=
  match pageOf n with
  | some (.iplP, k) => camPlane s k
  | _ => (pagePlane s n).getD 0

/-- PG_SHADOW. -/
def pageShadow (s : State) (n : Nat) : Nat :=
  let p := getPage s n
  flag p.pending 0 + flag p.deferred 1 + flag p.hold 2 + flag p.view 4 + flag p.cmdHold 5 + shadowPlane s n * 2 ^ 8 +
    latchSrc (pageKind n) * 2 ^ 12 + p.latchCnt.toNat * 2 ^ 16

/-- A dword of a page header. -/
def headerWord (s : State) (n off : Nat) : Nat :=
  let p := getPage s n
  match off with
  | 0x000 => blockId (pageKind n) * 2 ^ 24 + pageInst n * 2 ^ 16 + 0x0200
  | 0x004 => pageCap (pageKind n)
  | 0x008 => flag p.en 0 + flag p.cga 2
  | 0x00C => pageStat s n
  | 0x010 => p.irqRaw.toNat
  | 0x014 => p.irqEn.toNat
  | 0x018 => (p.irqRaw &&& p.irqEn).toNat
  | 0x020 => pageShadow s n
  | 0x024 => p.errCode.toNat + p.errCount.toNat * 2 ^ 16
  | 0x028 => p.owner.toNat + flag (lockOpen s) 8 + p.denyCnt.toNat * 2 ^ 16
  | _ => 0

/-! ## Status registers by chapter -/

/-- A word of a 64-bit status register at `base`. -/
def half (base off v : Nat) : Nat := if off = base then v % 2 ^ 32 else v / 2 ^ 32 % 2 ^ 32

/-- CLK (spec/22). -/
def clkWord (s : State) (off : Nat) : Option Nat :=
  match off with
  | 0x040 => some (clkStat s)
  | 0x048 => some (s.clk.code % 1024 + flag s.clk.dllLock 16)
  | _ => none

/-- Power domains on, PD_AON to PD_IO, and Tiller's subdomains: STANDBY powers PD_TIL and PD_FIRE down (spec/23). -/
def domainsOn (s : State) : Nat := if s.pwr.state = .standby then 0x4F else 0xFF007F

/-- PWR (spec/23). -/
def pwrWord (s : State) (off : Nat) : Option Nat :=
  let h := rf s Reg.PWR_HEAD_SEL 5 0
  match off with
  | 0x044 =>
    some (s.pwr.state.code + flag s.pwr.toward.isSome 2 + domainsOn s % 128 * 2 ^ 4 + domainsOn s / 2 ^ 16 * 2 ^ 16)
  | 0x050 => some (winCharge s (now s))
  | 0x054 => some (s.pwr.queue.length + match s.pwr.queue with
      | q :: _ => q.head * 2 ^ 8 + 2 ^ 15
      | [] => 0)
  | 0x060 | 0x064 => some (half 0x060 off (tget s.pwr.segments 0 (rf s Reg.PWR_SEG_SEL 3 0)))
  | 0x06C => some (charge s h + (segmentOf s h).getD 0 * 2 ^ 16 + flag (segmentOf s h).isSome 20 +
      flag (s.pwr.queue.any fun q => q.head = h) 21)
  | 0x070 => some (maskSum ((List.range 11).filter fun i => !s.pwr.low.contains i))
  | _ => none

/-- THM (spec/24). -/
def thmWord (s : State) (off : Nat) : Option Nat :=
  match off with
  | 0x040 => some (flag s.thm.warn 0 + rf s Reg.THM_STAT 2 1 * 2 + maskSum ((validSensors s).map (·.1)) * 2 ^ 16)
  | 0x044 => some (unsigned 16 s.thm.tj + s.thm.hottest * 2 ^ 16)
  | 0x058 => some (match tfind s.thm.sensors (rf s Reg.THM_SEL 3 0) with
      | some x => unsigned 16 x.reading + flag x.valid 16
      | none => 0)
  | _ => none

/-- FAN (spec/24): FAN_STAT of channel n. -/
def fanWord (s : State) (off : Nat) : Option Nat :=
  if off % 0x20 = 0x0C ∧ 0x100 ≤ off ∧ off < 0x180 then
    let n := (off - 0x100) / 0x20
    let x := fan s n
    some (x.state + x.attempts % 8 * 2 ^ 3 + flag x.slow 6 + fanDuty s n * 2 ^ 8 + x.speed * 2 ^ 16)
  else none

/-- TIM_STAT (spec/17). -/
def timStat (s : State) : Nat :=
  flag s.clock.valid 0 + flag s.clock.locked 1 + flag s.clock.holdover 2 + flag s.clock.atSec 3

/-- TIM (spec/17). -/
def timWord (s : State) (off : Nat) : Option Nat :=
  match off with
  | 0x044 => some (timStat s)
  | 0x048 => some s.clock.sec.toNat
  | 0x04C => some s.clock.ns
  | 0x080 => some (timStat s)
  | _ => none

/-- STK (spec/21). -/
def stkWord (s : State) (off : Nat) : Option Nat :=
  match off with
  | 0x044 => some (s.stk.staging.length + s.stk.trace.length * 2 ^ 10 + s.stk.shed % 8 * 2 ^ 21 + flag (alertLow s) 24)
  | 0x04C => some s.stk.alarms.length
  | 0x088 => s.stk.waitSince.map fun _ =>
      min 0xFFFFFFFF (rn s Reg.STK_THROTTLE_CNT + (now s - s.stk.waitMark) / us)
  | _ => none

/-- CRK_STAT.STATE. -/
def CrkState.code : CrkState → Nat
  | .absent => 0 | .noJournal => 1 | .mounted => 2 | .compacting => 3 | .readOnly => 4

/-- CRK (spec/20). -/
def crkWord (s : State) (off : Nat) : Option Nat :=
  let r := s.crk.active
  match off with
  | 0x040 => some (s.crk.state.code + r % 2 * 2 ^ 3 + flag (decide (s.crk.sizes.2 ≠ 0)) 4 +
      (crkAppend s r * 100 / max 1 (regionBytes s)) % 256 * 2 ^ 8 + min 256 (queueBytes s / 1024) * 2 ^ 16)
  | 0x058 | 0x05C => some (half 0x058 off (((tget s.crk.logs [] r).getLast?.map (·.seq)).getD 0))
  | 0x060 => some (crkGen s r)
  | 0x064 => some ((s.crk.snaps.getLast?.map (·.num)).getD 0)
  | 0x070 => some (crkWear s)
  | _ => none

/-- SAG mailbox (spec/18). -/
def sagWord (s : State) (off : Nat) : Option Nat :=
  match off with
  | 0x040 => some (lifecycle s + flag s.sag.ready 3 + flag s.sag.halted 4 + flag (decide (s.sag.scopes ≠ 0)) 5)
  | 0x044 => some (s.sag.stage + s.sag.failCode * 2 ^ 8)
  | 0x068 => some s.sag.scopes
  | _ => none

/-- TLY (spec/19). -/
def tlyWord (s : State) (off : Nat) : Option Nat :=
  let i := rf s Reg.TLY_SLOT_SEL 3 0
  match off with
  | 0x044 => some (maskSum ((List.range 16).filter fun i => decide ((tlySlot s i).state = 3)) +
      maskSum (tlyEnabled s) * 2 ^ 16)
  | 0x060 => some (tlySlot s i).state
  | 0x068 | 0x06C => some (half 0x068 off (tlySlot s i).usage.toNat)
  | 0x070 | 0x074 => some (half 0x070 off (tlySlot s i).cap.toNat)
  | 0x078 | 0x07C => some (half 0x078 off (tallyQuantum s i))
  | _ => none

/-- HIF (spec/03). -/
def hifWord (s : State) (off : Nat) : Option Nat :=
  let r := ring s (rf s Reg.HIF_RING_SEL 12 0)
  match off with
  | 0x044 => some (s.hif.linkSpeed % 8 + s.hif.linkWidth % 16 * 2 ^ 3 + flag s.hif.dlUp 7 + rf s Reg.HIF_STAT 8 8 * 2 ^ 8)
  | 0x068 => some (r.state.code + r.typ.code * 2 ^ 2 + r.log2 * 2 ^ 5 + r.tenant * 2 ^ 16)
  | 0x06C => some r.pi
  | 0x070 => some r.ci
  | 0x074 => some (r.paired + r.vector * 2 ^ 13 + flag r.armed 24)
  | 0x078 => some (min 65535 r.dbIgn + r.lastErr.toNat * 2 ^ 16)
  | 0x07C => some (r.imodCnt + r.imodTime * 2 ^ 16)
  | 0x088 => some (pgirqNext s)
  | _ => none

/-- THR and MIL (spec/06). -/
def thrWord (s : State) (off : Nat) : Option Nat :=
  match off with
  | 0x044 => some (s.thr.lanes.length + min 8191 s.thr.queue.length * 2 ^ 8)
  | _ => none

/-- GLZ (spec/07); its lanes are at rest between steps. -/
def glzWord (s : State) (off : Nat) : Option Nat :=
  match off with
  | 0x044 => some ((s.glz.bands.filter fun b => !b.waiting).length % 256 * 2 ^ 8)
  | 0x04C => some (granulesFree s)
  | 0x050 => some s.glz.tiles.length
  | 0x054 => some (512 - poolUsed s)
  | _ => none

/-- Engines throttled (R220). -/
def throttledEngines (s : State) : List Nat := (List.range 128).filter fun e => (engine s e).throttled

/-- Tiller common page (spec/08). -/
def tilWord (s : State) (off : Nat) : Option Nat :=
  let t := throttledEngines s
  let group := fun (j : Nat) => maskSum ((t.filter fun e => e / 32 = j).map (· % 32))
  match off with
  | 0x044 => some (t.length + flag (decide (s.til.pendCurves ≠ [])) 8 + maskSum (s.til.pendArrays.map (·.2.1)).eraseDups * 2 ^ 9)
  | 0x050 => some (group 0)
  | 0x054 => some (group 1)
  | 0x058 => some (group 2)
  | 0x05C => some (group 3)
  | _ => none

/-- What an engine's rows wait for: staging, sheaf space, a frame latch (TIL_E_STAT). -/
def engineWaits (s : State) (e : Nat) : Bool × Bool × Bool :=
  let h := e / 2
  match planeOfHead s h with
  | none => (false, false, false)
  | some p =>
    let rows := (fittedRows s h).filter fun r => (row s h r).started && (rowEngines s (lineSplit s h r (row s h r).nextF) h r).contains e
    let mine := fun r => (row s h r).fifo.any fun z => decide (z.f = (row s h r).nextF)
    let kind := fun r => lineKind s p h r (row s h r).nextF
    let staged := fun r => match kind r with
      | .active y st => let c := lineCopy s p st
        lineHasPage s p c y && (stagedFor s h r c y).isNone
      | _ => false
    (rows.any staged, rows.any fun r => !mine r && decide (32 ≤ (row s h r).fifo.length),
      rows.any fun r => decide (kind r = .waits))

/-- The donor entries an engine holds: one for each donation to a nozzle it serves (R211, TIL_E_STAT.DONORS). -/
def engineDonors (s : State) (e : Nat) : Nat :=
  match (planeOfHead s (e / 2)).bind fun p => (plane s p).table with
  | none => 0
  | some t =>
    let mine := (fittedRows s (e / 2)).flatMap fun r => (servedPositions s e r).map fun pos => e / 2 * 4096 + r * 1024 + pos
    (mine.map fun i => (donors s t i).length).sum

/-- A Tiller engine page (spec/08). -/
def tilEWord (s : State) (e off : Nat) : Option Nat :=
  let mine := (fittedNozzles s (e / 2)).filter fun n => serves s e n
  match off with
  | 0x040 => some (e / 2 + e % 2 * 2 ^ 6 + match planeOfHead s (e / 2) with
      | some p => p * 2 ^ 8 + 2 ^ 12 + min 64 (curveCount s (e / 2) mine) * 2 ^ 16
      | none => 0)
  | 0x05C =>
    let w := engineWaits s e
    some (flag (engine s e).throttled 0 + flag w.1 1 + flag w.2.1 2 + flag w.2.2 3 + min 512 (engineDonors s e) * 2 ^ 16)
  | 0x060 =>
    let l := min 65535 (lineCycles s e)
    some (l + 65536 * max l (rf s (Reg.TIL_E_LINE_CYC e) 31 16))
  | 0x064 => (planeOfHead s (e / 2)).map fun _ => mine.length
  | _ => none

/-- Sheaves of a row that every engine has finished. -/
def readySheaves (s : State) (h r : Nat) : Nat := ((row s h r).fifo.filter fun z => z.missing.isEmpty).length

/-- The emptiest fitted row of a head: its ready sheaves and its number. -/
def headLead (s : State) (h : Nat) : Nat × Nat :=
  match fittedRows s h with
  | [] => (0, 0)
  | r :: rs => rs.foldl (fun b q => if readySheaves s h q < b.1 then (readySheaves s h q, q) else b) (readySheaves s h r, r)

/-- TRIP_N[i] has been high for at least the qualification time now (KLN_TRIP_STAT.QUALIFIED). -/
def tripHigh (s : State) (i : Nat) : Bool :=
  !(trip s i).low && match (trip s i).highSince with
    | none => true
    | some u => decide (u + rf s Reg.KLN_TRIP_QUAL 15 0 * us ≤ now s)

/-- Kiln common page (spec/10, spec/11). -/
def klnWord (s : State) (off : Nat) : Option Nat :=
  let trips := fun (f : Nat → Bool) => maskSum ((List.range 4).filter f)
  match off with
  | 0x044 => some (maskSum (livePlanes s) + maskSum (planeNums.filter fun p => (plane s p).paused) * 2 ^ 16)
  | 0x064 => some (maskSum s.kln.barWait + flag s.kln.barArmed 31)
  | 0x074 =>
    let l := headLead s (rf s Reg.KLN_HEAD_SEL 5 0)
    some (l.1 + l.2 * 2 ^ 8)
  | 0x200 => some (trips (fun i => (trip s i).latched) + trips (fun i => (trip s i).low) * 2 ^ 4 +
      trips (tripHigh s) * 2 ^ 8 + trips (fun i => (trip s i).reject) * 2 ^ 12)
  | _ =>
    if off % 0x40 = 0x18 ∧ 0x100 ≤ off ∧ off < 0x200 then
      let k := (off - 0x100) / 0x40
      some (flag (channel s k).paused 0 + flag (tperOf (pcAvg s k) (channel s k).ts).isSome 1 + flag (channel s k).reverse 2)
    else none

/-- KLN_P_STATE.STATE. -/
def PlaneState.code : PlaneState → Nat
  | .stopped => 0 | .leadIn => 1 | .running => 2 | .stopping => 3

/-- A Kiln plane page (spec/10). -/
def klnPWord (s : State) (p off : Nat) : Option Nat :=
  match off with
  | 0x040 => some ((plane s p).state.code + flag (plane s p).paused 2 + flag (cloneSrc s p).isSome 3)
  | _ => none

/-- The line fraction of a plane's front in 1/65,536 line past its last crossing. -/
def lineFraction (s : State) (p : Nat) : Nat :=
  unsigned 16 (divF ((plane s p).sense * ((plane s p).front - (plane s p).lastB)) 65536)

/-- A head port page (spec/12). -/
def hlkWord (s : State) (h off : Nat) : Option Nat :=
  let x := port s h
  let i := rf s (Reg.HLK_TEMP_SEL h) 2 0
  match off with
  | 0x044 => some (x.link.code + x.align * 2 ^ 3 + flag x.descr 5 + flag x.pwren 6 + flag x.pg 7 + flag x.fltLow 8 +
      flag x.latched 9 + flag x.stale 10)
  | 0x048 => some (flag x.latched 0 + x.cause * 2 + flag x.reject 3)
  | 0x054 => some (x.temps.getD i 0 % 65536 + flag (x.tempValid.getD i false) 16)
  | _ => none

/-- PIF_STAT's VALID bits. -/
def pifValids (s : State) : Nat := maskSum ((List.range 4).filter fun c => pifValid s c)

/-- Position interface common page (spec/13). -/
def pifWord (s : State) (off : Nat) : Option Nat :=
  match off with
  | 0x040 => some (pifValids s + maskSum ((List.range 4).filter fun c => rbit s (Reg.PIF_C_STAT c) 6) * 2 ^ 4)
  | 0x044 => some (pifValids s)
  | _ => none

/-- PIF_C_STAT: its stored bits, VALID and DIR. -/
def pifStat (s : State) (c : Nat) : Nat :=
  flag (pifValid s c) 0 + flag (pif s c).dir 1 + rf s (Reg.PIF_C_STAT c) 7 2 * 4

/-- A position channel page (spec/13). -/
def pifChWord (s : State) (c off : Nat) : Option Nat :=
  match off with
  | 0x048 => some (pifStat s c)
  | 0x074 => some (pifStat s c)
  | 0x098 | 0x09C => some (half 0x098 off ((pif s c).ref.getD 0))
  | 0x0A8 => some (rf s (Reg.PIF_C_IDX_ERR c) 15 0 + (pif s c).run % 4 * 2 ^ 16 + flag (pif s c).ref.isSome 30 +
      flag (pif s c).corr.isSome 31)
  | _ => none

/-- MOT_STAT (spec/14). -/
def motStat (s : State) : Nat :=
  let m := fun (f : AxisState → Bool) => maskSum ((List.range 8).filter fun a => f (axis s a).state)
  m (fun x => decide (x = .standstill ∨ x = .moving ∨ x = .stopping)) + m (fun x => decide (x = .moving)) * 2 ^ 8 +
    m (fun x => decide (x = .tripped)) * 2 ^ 16 +
    maskSum ((List.range 8).filter fun a => (s.mot.queue.map (·.1)).contains a) * 2 ^ 24

/-- MOT_A_STAT. -/
def axisStat (s : State) (a : Nat) : Nat :=
  let x := axis s a
  x.state.code + flag x.homed 3 + flag x.retained.isSome 4 + flag (feeding x) 5 + flag x.limN 6 + flag x.limP 7 +
    flag x.homeIn 8

/-- An axis page (spec/14). -/
def motAWord (s : State) (a off : Nat) : Option Nat :=
  match off with
  | 0x040 => some (axisStat s a)
  | 0x048 => some (axisStat s a)
  | 0x070 => some ((axis s a).lm % 1024 + (axis s a).scale % 512 * 2 ^ 16)
  | _ => none

/-- The pipeline's load over the last 1 ms in per cent of CK_FAB's 400,000 cycles (IPL_STAT). -/
def iplLoad (s : State) : Nat :=
  min 100 (((s.ipl.busy.filter fun e => decide (now s < e.1 + ms)).map (·.2)).sum / 4000)

/-- Camera pipeline common page (spec/15). -/
def iplWord (s : State) (off : Nat) : Option Nat :=
  match off with
  | 0x044 => some (maskSum (camNums.filter fun k => decide ((cam s k).state = .running)) +
      maskSum (camNums.filter fun k => decide ((cam s k).state = .stalled)) * 2 ^ 4 + iplLoad s * 2 ^ 16)
  | _ => none

/-- IPL_C_STAT but for the lanes in deskew lock. -/
def camStat (s : State) (k : Nat) : Nat :=
  (cam s k).state.code + flag (decide (rf s Reg.IPL_CTRL 5 4 = k)) 2 +
    flag (cam s k).capture.isSome 3 + (cam s k).cause * 2 ^ 8

/-- Winnow (spec/16). -/
def winWord (s : State) (off : Nat) : Option Nat :=
  match off with
  | 0x044 => some (maskSum (s.win.rings.map (·.1)) + min 4095 s.win.records.length * 2 ^ 16 +
      flag (decide (4096 ≤ s.win.records.length)) 31)
  | _ => none

/-- Lines of the least advanced port of those that inspect a plane (GLN_PL_STAT). -/
def leastLines (s : State) (p : Nat) : Nat :=
  match (camNums.filter fun k => inspects s k p).map fun k => tget (gleanWin s p).lines 0 k with
  | [] => 0
  | n :: r => r.foldl min n

/-- Gleaner (spec/16): the window is WAITING while closed and undumped, open while its plane calibrates. -/
def glnWord (s : State) (off : Nat) : Option Nat :=
  let p := rf s Reg.GLN_PL_SEL 3 0
  match off with
  | 0x050 =>
    some (min 65535 (leastLines s p) +
      (if (tfind s.gln.closed p).isSome then 2 else if calibrating s p then 1 else 0) * 2 ^ 16)
  | 0x054 => some (gleanWin s p).q
  | _ => none

/-- CAL (spec/16). -/
def calWord (s : State) (off : Nat) : Option Nat :=
  let p := rf s Reg.CAL_PL_SEL 3 0
  let k := rf s Reg.CAL_REF_SEL 1 0
  let ch := rf s Reg.CAL_REF_SEL 3 2
  match off with
  | 0x064 => some (calState s p + calReason s p * 2 ^ 8)
  | 0x078 => some (tget (whiteRef s k).m 0 ch)
  | 0x07C => some (tget (whiteRef s k).a 0 ch)
  | 0x080 => some ((whiteRef s k).state % 8 + min 65535 (tget (whiteRef s k).drift 0 ch) * 2 ^ 16)
  | _ => none

/-- TRM (spec/17). -/
def trmWord (s : State) (off : Nat) : Option Nat :=
  match off with
  | 0x044 => some (s.trm.state.code + flag s.trm.bus 3 + s.trm.chip % 16 * 2 ^ 4 + trmSlot s * 2 ^ 8 + flag (s.trm.lineLow || decide (s.trm.state = .leader)) 12 +
      flag s.trm.timeValid 13 + min 3 s.trm.missRun * 2 ^ 16)
  | 0x070 =>
    let r := pressRate s
    some (r.1 % 2 ^ 18 + r.2 * 2 ^ 24 + flag (decide (s.trm.state = .leader)) 31)
  | _ => none

/-- The value of a status register that follows the state; nothing for a register that is stored. -/
def liveWord (s : State) (addr : Nat) : Option Nat :=
  let off := addr % 0x1000
  match pageOf (addr / 0x1000) with
  | none => none
  | some (k, i) => match k with
    | .clk => clkWord s off
    | .pwr => pwrWord s off
    | .thm => thmWord s off
    | .fan => fanWord s off
    | .tim => timWord s off
    | .stk => stkWord s off
    | .crk => crkWord s off
    | .sag => sagWord s off
    | .tly => tlyWord s off
    | .hif => hifWord s off
    | .thr => thrWord s off
    | .glz => glzWord s off
    | .tilC => tilWord s off
    | .tilE => tilEWord s i off
    | .klnC => klnWord s off
    | .klnP => klnPWord s i off
    | .hlk => hlkWord s i off
    | .pifC => pifWord s off
    | .pifCh => pifChWord s i off
    | .motA => motAWord s i off
    | .motC => if off = 0x040 ∨ off = 0x044 then some (motStat s) else none
    | .iplC => iplWord s off
    | .iplP => if off = 0x04C then some (camStat s i) else none
    | .win => winWord s off
    | .gln => glnWord s off
    | .cal => calWord s off
    | .trm => trmWord s off
    | .glb | .mem | .mil => none

/-! ## Registers whose value the spec leaves open -/

/-- Bits of CLK_GATED that may be set: the groups whose pages let their clock be gated (PG_CTRL.CGA). -/
def gateable (s : State) : Nat :=
  maskSum ((List.range 14).filter fun i =>
    if i < 8 then (List.range 16).any fun e => (getPage s (pgTilE (16 * i + e))).cga
    else (getPage s ([pgKlnC, pgGlz, pgThr, pgMil, pgIplC, pgWin].getD (i - 8) 0)).cga)

/-- A register whose content no rule derives from the commands: clock gating at work, the fill of clock-domain crossings and the cycles
stalled on them, which a read finds grown by a free amount since the one before (R45), DRAM operations outstanding, a camera's measured line rate and lanes in deskew lock. -/
def openWord (addr : Nat) (s : State) : Option (Nat × State) :=
  let off := addr % 0x1000
  let free := fun (w : Nat) => let d := draw w s; (d.1.toNat, d.2)
  match pageOf (addr / 0x1000) with
  | some (.clk, _) => match off with
    | 0x044 => some ((free 14).1 &&& gateable s, (free 14).2)
    | 0x06C =>
      let k := wkey Reg.CLK_CDC_STALL (rf s Reg.CLK_CDC_SEL 2 0)
      let v := min 0xFFFFFFFF (rn s k + (free 32).1)
      some (v, wn k v (free 32).2)
    | 0x070 =>
      let k := wkey Reg.CLK_CDC_HWM (rf s Reg.CLK_CDC_SEL 2 0)
      let v := max (rn s k) (free 8).1
      some (v, wn k v (free 8).2)
    | _ => none
  | some (.hif, _) => match off with
    | 0x08C => some (s.hif.reads.length % 1024 + (free 12).1 * 2 ^ 10, (free 12).2)
    | 0x090 => some (rf s Reg.HIF_SB_HWM 9 0 + (free 12).1 * 2 ^ 10, (free 12).2)
    | _ => none
  | some (.iplP, k) => match off with
    | 0x040 => some (camStat s k + (free 4).1 * 2 ^ 4, (free 4).2)
    | 0x048 => some (free 18)
    | 0x04C => some (camStat s k + (free 4).1 * 2 ^ 4, (free 4).2)
    | _ => none
  | _ => none

/-! ## Stored registers, snapshots -/

/-- A member of a snapshot, which reads as its initiator last captured it (R46). -/
def isMember (addr : Nat) : Bool :=
  let off := addr % 0x1000
  match pageOf (addr / 0x1000) with
  | some (.pifCh, _) => decide (0x078 ≤ off ∧ off ≤ 0x088)
  | some (.motA, _) => decide (0x050 ≤ off ∧ off ≤ 0x060)
  | some (.klnP, _) => decide (0x058 ≤ off ∧ off ≤ 0x060)
  | some (.iplP, _) => decide (0x050 ≤ off ∧ off ≤ 0x060)
  | some (.tim, _) => decide (off = 0x050 ∨ off = 0x054 ∨ (0x088 ≤ off ∧ off ≤ 0x098))
  | some (.sag, _) => decide (0x04C ≤ off ∧ off ≤ 0x064)
  | _ => false

/-- The page whose registers an address shows: an odd Tiller engine's split and maintenance registers mirror the even one's. -/
def mirrored (addr : Nat) : Nat :=
  match regDef addr with
  | some r => if r.acc = .rwsEven ∧ addr / 0x1000 % 2 = 1 then addr - 0x1000 else addr
  | none => addr

/-- The stored value of a register: RWS reads as PG_SHADOW.VIEW says; WO and reserved offsets read zero (R36, spec/02). -/
def storedWord (s : State) (addr : Nat) : Word :=
  let k := keyOf s (mirrored addr)
  match regDef addr with
  | none => 0#32
  | some r => match r.acc with
    | .wo => 0#32
    | .rws | .rwsEven => if (getPage s (addr / 0x1000)).view then rd s k else rdShadow s k
    | .ro | .rw | .mixed => rd s k

/-- A dword as a read returns it, with nothing captured or held. -/
def readWord (ini : Initiator) (addr : Nat) (s : State) : Word × State :=
  if addr % 0x1000 < 0x040 then (BitVec.ofNat 32 (headerWord s (addr / 0x1000) (addr % 0x1000)), s)
  else if isMember addr then ((tfind s.regs.snap (iniKey ini addr)).getD 0#32, s)
  else match openWord addr s with
    | some (v, t) => (BitVec.ofNat 32 v, t)
    | none => match liveWord s addr with
      | some v => (BitVec.ofNat 32 v, s)
      | none => (storedWord s addr, s)

/-! ## Snapshots (R46, R338, R433, R434) -/

/-- Capture a position channel's triple. -/
def capturePif (ini : Initiator) (c : Nat) (s : State) : State :=
  let x := pif s c
  capture64 ini (Reg.PIF_C_TS c) x.ts (capture ini (Reg.PIF_C_VEL c) (BitVec.ofInt 32 x.vel)
    (capture64 ini (Reg.PIF_C_POS c) (unsigned 64 (signed 48 x.pos)) s))

/-- Capture an axis's triple. -/
def captureAxis (ini : Initiator) (a : Nat) (s : State) : State :=
  let x := axis s a
  capture ini (Reg.MOT_A_VEL a) (BitVec.ofInt 32 x.vel) (capture64 ini (Reg.MOT_A_TS a) x.ts
    (capture64 ini (Reg.MOT_A_POS a) (unsigned 64 x.counts) s))

/-- Capture a plane's position in its frame. -/
def capturePlane (ini : Initiator) (p : Nat) (s : State) : State :=
  capture ini (Reg.KLN_P_SLOT p) (BitVec.ofNat 32 ((plane s p).slot.getD noSlot)) (capture ini (Reg.KLN_P_RUNLINE p) (plane s p).runline
    (capture ini (Reg.KLN_P_LINE p) (BitVec.ofNat 32 (planeLine s p)) s))

/-- Capture a camera port's latest kept line. -/
def captureCam (ini : Initiator) (k : Nat) (s : State) : State :=
  capture ini (Reg.IPL_C_IMAGE k) (BitVec.ofNat 32 (cam s k).image) (capture64 ini (Reg.IPL_C_T k) (cam s k).lastT
    (capture64 ini (Reg.IPL_C_U k) ((cam s k).prev.getD 0) s))

/-- Capture press time's seconds and fraction at a read of TIM_NS (R433). -/
def captureNs (ini : Initiator) (s : State) : State :=
  capture ini Reg.TIM_FRAC (BitVec.ofNat 32 (s.clock.frac / 2 ^ 40)) (capture ini Reg.TIM_S_SNAP s.clock.sec s)

/-- Capture the fire timebase and press time of one instant (R434). -/
def captureX (ini : Initiator) (s : State) : State :=
  capture ini Reg.TIM_X_FRAC (BitVec.ofNat 32 (s.clock.frac / 2 ^ 40)) (capture ini Reg.TIM_X_NS (BitVec.ofNat 32 s.clock.ns)
    (capture ini Reg.TIM_X_S s.clock.sec (capture64 ini Reg.TIM_X_FT (now s) s)))

/-- A read's captures: the members of its register, if it is a snapshot register. -/
def captures (ini : Initiator) (addr : Nat) (s : State) : State :=
  let off := addr % 0x1000
  match pageOf (addr / 0x1000) with
  | some (.pifC, _) => if off = 0x044 then (List.range 4).foldl (fun t c => capturePif ini c t) s else s
  | some (.pifCh, c) => if off = 0x074 then capturePif ini c s else s
  | some (.motC, _) => if off = 0x044 then (List.range 8).foldl (fun t a => captureAxis ini a t) s else s
  | some (.motA, a) => if off = 0x048 then captureAxis ini a s else s
  | some (.klnP, p) => if off = 0x054 then capturePlane ini p s else s
  | some (.iplP, k) => if off = 0x04C then captureCam ini k s else s
  | some (.tim, _) => if off = 0x04C then captureNs ini s else if off = 0x080 then captureX ini s else s
  | _ => s

/-! ## Reads (R33, R34, R43, R46) -/

/-- The word a read of this address returns is a snapshot register's, where it has a value of its own. -/
def snapWord (ini : Initiator) (addr : Nat) (s : State) : Word × State :=
  match pageOf (addr / 0x1000) with
  | some (.klnP, p) => if addr % 0x1000 = 0x054 then (BitVec.ofNat 32 (lineFraction s p), s) else readWord ini addr s
  | _ => readWord ini addr s

/-- The address is the low word of a 64-bit register. -/
def isWide (addr : Nat) : Bool := match regDef addr with | some r => r.wide | none => false

/-- A read that is neither a snapshot's nor a 64-bit register's: the word as it stands, with any snapshot's captures. -/
def plainRead (ini : Initiator) (addr : Nat) (s : State) : State :=
  let r := snapWord ini addr s
  returns ini r.1 (captures ini addr r.2)

/-- A dword of an address as any read of it acts: the nonce register draws (R445), others capture and return. -/
def dwordRead (ini : Initiator) (addr : Nat) (s : State) : State :=
  if addr = Reg.SAG_NONCE0 then nonceRead ini s else plainRead ini addr s

/-- A read of a 64-bit register's low word: the high word is held for the initiator (R43). -/
def lowRead (ini : Initiator) (addr : Nat) (s : State) : State :=
  if isWide addr then
    let hi := readWord ini (addr + 4) s
    let s1 := { hi.2 with regs := { hi.2.regs with hold := tput hi.2.regs.hold (iniKey ini (keyOf hi.2 (addr + 4))) hi.1 } }
    dwordRead ini addr s1
  else dwordRead ini addr s

/-- A read of a 64-bit register's high word: the held value, which frees it, else the live word (R43). Behind a select register the
holding register is the selected entry's: after the select register has changed, nothing is held for the new entry and its live word
returns (DESIGN CHOICE: notes/assumptions/68.md). -/
def highRead (ini : Initiator) (addr : Nat) (s : State) : State :=
  let k := iniKey ini (keyOf s addr)
  match tfind s.regs.hold k with
  | some v => returns ini v { s with regs := { s.regs with hold := tdel s.regs.hold k } }
  | none => dwordRead ini addr s

/-- The address is the high word of a 64-bit register. -/
def isHigh (addr : Nat) : Bool := decide (4 ≤ addr) && isWide (addr - 4)

/-- A read of any dword. -/
def regRead (ini : Initiator) (addr : Nat) (s : State) : State :=
  if isHigh addr then highRead ini addr s else lowRead ini addr s

/-- A read of a dword of BAR0: of the MSI-X structures by their own rules, of a register with its page's answer (R64). -/
def bar0Read (ini : Initiator) (addr : Nat) (s : State) : State :=
  if msixArea addr then (if clocked s then returns ini (msixRead s addr) s else s)
  else guardRead ini addr (regRead ini addr) s

/-- The dwords of a read of `n` dwords, one after the other in ascending address order (R33). -/
def readRun (ini : Initiator) : Nat → Nat → State → State
  | _, 0, s => s
  | addr, n + 1, s => readRun ini (addr + 4) n (bar0Read ini addr s)

/-- A read of `n` dwords; a host request that crosses a 64-byte block is aborted (R33). -/
def readDwords (ini : Initiator) (addr n : Nat) (s : State) : State :=
  if accepted ini addr n then readRun ini addr n (beginRead ini s)
  else if ini = .host ∧ aligned addr then barAbort false s else s

/-- A read of one dword. -/
def readAt (ini : Initiator) (addr : BitVec 24) (s : State) : State := readDwords ini addr.toNat 1 s

/-- A read of a 64-bit register's low word, with `more` further dwords of the same request. -/
def execLowWordRead (ini : Initiator) (addr : BitVec 24) (more : BitVec 4) (s : State) : Host.Outcome State Fault Refusal :=
  .next (readDwords ini addr.toNat (more.toNat + 1) s)

def execHighWordRead (ini : Initiator) (addr : BitVec 24) (s : State) : Host.Outcome State Fault Refusal :=
  .next (readAt ini addr s)

def execSnapshotRead (ini : Initiator) (addr : BitVec 24) (s : State) : Host.Outcome State Fault Refusal :=
  .next (readAt ini addr s)

def execTimNsRead (ini : Initiator) (s : State) : Host.Outcome State Fault Refusal :=
  .next (bar0Read ini Reg.TIM_NS (beginRead ini s))

def execTimXsnapRead (ini : Initiator) (s : State) : Host.Outcome State Fault Refusal :=
  .next (bar0Read ini Reg.TIM_XSNAP (beginRead ini s))

end Sys2Proof.Machine
end

