-- ==== Sys2Proof/Machine/Registers.lean ====
section
/-! DEFINITION. What a write of a register does: page headers, shadows and holds, soft resets, counter clears, values refused and the
registers that act when written (spec/02, R33 to R57, and the register tables of every chapter). -/

namespace Sys2Proof.Machine
open Sys2Proof

/-! ## Page interrupts and errors (R39, R40) -/

/-- A write of PG_IRQ_STAT clears raw bits. -/
def irqStatWrite (n : Nat) (v : Word) (s : State) : State := updPage n (fun p => { p with irqRaw := p.irqRaw &&& ~~~v }) s

/-- A write of PG_IRQ_EN. -/
def irqEnWrite (n : Nat) (v : Word) (s : State) : State :=
  setPageIrq n { getPage s n with irqEn := v &&& irqSources (pageKind n) } s

/-- A write of PG_IRQ_SET sets raw bits for test. -/
def irqSetWrite (n : Nat) (v : Word) (s : State) : State := raiseBits n (v &&& irqSources (pageKind n)) s

/-- A write of PG_ERR: CLR clears code and count. -/
def pgErrWrite (n : Nat) (v : Word) (s : State) : State :=
  if v.toNat / 2 ^ 31 = 1 then updPage n (fun p => { p with errCode := 0, errCount := 0 }) s else s

/-! ## Shadows and holds (R49 to R55) -/

/-- Every shadow of a page takes its active value, and PENDING clears; the bar-latch split table and a camera port's knots and shading
table are shadows of their pages. -/
def discardShadow (n : Nat) (s : State) : State :=
  let s0 := notePage n s
  let s1 := updPage n (fun p => { p with pending := false, wrote := false })
    { s0 with regs := { s0.regs with shd := tfilter s0.regs.shd fun k => !onPage n k } }
  match pageOf n with
  | some (.tilC, _) => (List.range 64).foldl (fun t h => wf (wkey Reg.TIL_SPLIT_BAR h) 31 31 0 t) s1
  | some (.iplP, k) => updCam k (fun g => { g with pendKnots := none, pendTable := none }) s1
  | _ => s1

/-- A hold of a page has been cleared: pending writes, and the tables, entries and arrays that follow the page, join the bar latch or
apply under an idle latch (R52, R127, R252). -/
def holdCleared (n : Nat) (s : State) : State :=
  let p := getPage s n
  if p.hold || p.cmdHold then s
  else
    let s1 := if p.pending then (if pageSrc n = 2 then armBar s else idleLatch n s) else s
    match pageOf n with
    | some (.klnP, i) => idleTables i s1
    | some (.tilE, e) => if e % 2 = 0 then idleEntries (e / 2) s1 else s1
    | some (.tilC, _) => if barOwes s1 then armBar s1 else s1
    | _ => s1

/-- A write of PG_SHADOW: DEFERRED clears by 1, HOLD and VIEW as written, then DISCARD. -/
def shadowWrite (n : Nat) (v : Word) (s : State) : State :=
  let b := fun i => decide (v.toNat / 2 ^ i % 2 = 1)
  let s1 := updPage n (fun p => { p with deferred := p.deferred && !b 1, hold := b 2, view := b 4 }) (notePage n s)
  let s2 := if b 3 then discardShadow n s1 else s1
  if b 2 then s2 else holdCleared n s2

/-- The pages a GLB_HOLD_REL write selects: those that follow the planes' frame latches, and the bar-latch pages (R48, R54). -/
def holdPages (s : State) (v : Word) : List Nat :=
  (maskBits 16 v.toNat).flatMap (fun p => framePages s p) ++ if v.toNat / 2 ^ 16 % 2 = 1 then barPages else []

/-- A write of GLB_HOLD_REL: HOLD, or from a control core with CMD the command holds, clears on every selected page in one cycle (R54,
R55). -/
def holdRelWrite (ini : Initiator) (v : Word) (s : State) : State :=
  let cmd := decide (v.toNat / 2 ^ 17 % 2 = 1)
  if cmd && decide (ini = .host) then recordErr pgGlb 0x06 s
  else
    let ps := holdPages s v
    let s1 := ps.foldl (fun t n => updPage n (fun p =>
      if cmd && decide (ini = .core) then { p with cmdHold := false } else { p with hold := false }) (notePage n t)) s
    ps.foldl (fun t n => holdCleared n t) s1

/-! ## Enable and soft reset (R37, R38) -/

/-- A block follows PG_CTRL.EN of its page. -/
def enChanged (n : Nat) (s : State) : State :=
  match pageOf n with
  | some (.hlk, h) => portRefresh h s
  | some (.pifCh, c) => pifRefresh c s
  | _ => s

/-- Stook's queues are emptied and counted as dropped (R515). -/
def stookEmpty (s : State) : State :=
  let s1 := s.stk.staging.foldl (fun t e => (eventRings t e).foldl (fun u n => dropEvent e n u) t)
    { s with stk := { s.stk with staging := [] } }
  s1.stk.trace.foldl (fun t x => losePkt x t) { s1 with stk := { s1.stk with trace := [] } }

/-- What a soft reset does to the block beside its registers (R272, R305, R415, R515, R562). -/
def unitReset (n : Nat) (s : State) : State :=
  match pageOf n with
  | some (.hlk, h) => portRefresh h (headOff h s)
  | some (.pifCh, c) => pifRefresh c s
  | some (.fan, _) => fansOff s
  | some (.stk, _) => stookEmpty s
  | some (.trm, _) => trmOff s
  | some (.gln, _) => { s with gln := { s.gln with wins := [] } }
  | some (.tilE, e) => wf (Reg.TIL_E_SCREEN e) 2 0 (shadowPlane s (pgTilE e)) s
  | _ => s

/-- A soft reset begins: class B fields return to their reset values, shadows to the active ones (R37). It is a
reset of kind BLOCK, which the outstanding nonce and open debug scopes do not outlast (R445, R460). -/
def softResetStart (n : Nat) (s : State) : State :=
  let mine := fun k => decide (keyAddr k / 0x1000 = n)
  let isB := fun k => match regDef (keyAddr k) with | some r => decide (r.cls = .b) | none => false
  let act := tfilter s.regs.act fun k => !(mine k && isB k)
  let s1 := discardShadow n { s with regs := { s.regs with act := act }, sag := { s.sag with nonce := none, scopes := 0 } }
  unitReset n (updPage n (fun p => { p with en := !hasSrst (pageKind n), inReset := true }) s1)

/-- A write of PG_CTRL: EN and SRST where the page has them, and CGA. A write of 1 to SRST that R38 ignores is ignored whole, its EN and
CGA bits with it (DEDUCED: notes/assumptions/68.md); one that starts a soft reset writes CGA, and EN takes its reset value. -/
def pgCtrlWrite (n : Nat) (v : Word) (s : State) : State :=
  let b := fun i => decide (v.toNat / 2 ^ i % 2 = 1)
  let cga := fun (t : State) => updPage n (fun p => { p with cga := b 2 }) t
  if !hasSrst (pageKind n) then (if b 1 then s else cga s)
  else if b 1 then (if blockBusy s n then recordErr n 0x03 s else softResetStart n (cga s))
  else enChanged n (updPage n (fun p => { p with en := b 0 }) (cga s))

/-- A soft reset ends. -/
def softResetDone (n : Nat) (s : State) : State := updPage n (fun p => { p with inReset := false }) s

/-- A write of a page header. -/
def headerWrite (n off : Nat) (v : Word) (s : State) : State :=
  match off with
  | 0x008 => pgCtrlWrite n v s
  | 0x014 => irqEnWrite n v s
  | 0x018 => irqStatWrite n v s
  | 0x01C => irqSetWrite n v s
  | 0x020 => shadowWrite n v s
  | 0x024 => pgErrWrite n v s
  | _ => s

/-! ## Counter clears (R45) -/

/-- 32-bit counters from an address on. -/
def words (base n : Nat) : List (List Nat) := (List.range n).map fun i => [base + 4 * i]

/-- 64-bit counters from an address on. -/
def dwords (base n : Nat) : List (List Nat) := (List.range n).map fun i => [base + 8 * i, base + 8 * i + 4]

/-- The registers each bit of a clear register clears, by page kind and offset; `b` is the page's base address. -/
def clearMap (s : State) (k : PageKind) (b off : Nat) : Option (List (List Nat)) :=
  match k, off with
  | .hif, 0x0DC => some (words (b + 0xC0) 7 ++ [[b + 0x90]])
  | .thr, 0x084 => some (dwords (b + 0x50) 3 ++ words (b + 0x68) 4)
  | .mil, 0x078 => some (dwords (b + 0x58) 2 ++ words (b + 0x68) 4)
  | .glz, 0x080 => some (dwords (b + 0x58) 2 ++ words (b + 0x68) 4)
  | .tilC, 0x064 => some (words (b + 0x60) 1)
  | .tilE, 0x078 => some ([[b + 0x68, b + 0x6C]] ++ words (b + 0x70) 2)
  | .tilE, 0x0BC => some (dwords (b + 0x98) 3 ++ words (b + 0xB0) 3)
  | .klnC, 0x084 => some ([[], [wkey Reg.KLN_H_UNDERRUN_CNT (rf s Reg.KLN_HEAD_SEL 5 0)]])
  | .klnC, 0x088 => some (words (b + 0x68) 1)
  | .klnP, 0x0A0 => some (words (b + 0x8C) 5)
  | .klnP, 0x13C => some (words (b + 0x12C) 4)
  | .hlk, 0x124 => some (words (b + 0x120) 1)
  | .hlk, 0x07C => some (words (b + 0x68) 5)
  | .pifCh, 0x0BC => some (words (b + 0xAC) 4 ++ [[b + 0x90, b + 0x94]])
  | .motA, 0x07C => some (words (b + 0x74) 2)
  | .iplC, 0x060 => some (dwords (b + 0x58) 1)
  | .iplP, 0x090 => some (dwords (b + 0x68) 1 ++ words (b + 0x70) 8)
  | .win, 0x098 => some (words (b + 0x80) 6)
  | .gln, 0x060 => some [[wkey Reg.GLN_PL_WINDOWS (rf s Reg.GLN_PL_SEL 3 0)]]
  | .cal, 0x084 => some [[wkey Reg.CAL_PL_ACC (rf s Reg.CAL_PL_SEL 3 0)], [wkey Reg.CAL_PL_REJ (rf s Reg.CAL_PL_SEL 3 0)]]
  | .trm, 0x088 => some (words (b + 0x74) 5)
  | .tim, 0x0A4 => some (words (b + 0x9C) 2)
  | .sag, 0x078 => some (words (b + 0x6C) 1)
  | .tly, 0x090 => some (words (b + 0x80) 4)
  | .crk, 0x084 => some (words (b + 0x74) 3)
  | .stk, 0x08C => some (words (b + 0x74) 3 ++ dwords (b + 0x80) 1 ++ words (b + 0x88) 1)
  | .clk, 0x074 =>
    let x := rf s Reg.CLK_CDC_SEL 2 0
    some ([[b + 0x54], [wkey Reg.CLK_CDC_STALL x, wkey Reg.CLK_CDC_HWM x], [b + 0x60]])
  | .pwr, 0x07C => some (words (b + 0x78) 1)
  | .thm, 0x060 => some (words (b + 0x5C) 1)
  | .klnC, _ =>
    if off % 0x40 = 0x34 ∧ 0x100 ≤ off ∧ off < 0x200 then some (words (b + off - 8) 2) else none
  | .fan, _ => if off % 0x20 = 0x18 ∧ 0x100 ≤ off ∧ off < 0x180 then some (words (b + off - 4) 1) else none
  | _, _ => none

/-- What a clear register restarts besides counters: a count in progress (STK_THROTTLE_CNT), maxima and minima (KLN_H_MARGIN_MIN, TIL_E_LINE_CYC, PIF_C_AMPL and the MINMAX
registers, THM_MAX). -/
def restarts (k : PageKind) (i off : Nat) (v : Word) (s : State) : State :=
  let b := fun n => decide (v.toNat / 2 ^ n % 2 = 1)
  match k, off with
  | .klnC, 0x084 => if b 0 then wn (wkey Reg.KLN_H_MARGIN_MIN (rf s Reg.KLN_HEAD_SEL 5 0)) 0xFFFFFFFF s else s
  | .tilE, 0x078 => if b 3 then wf (Reg.TIL_E_LINE_CYC i) 31 16 0 s else s
  | .pifCh, 0x0BC =>
    if b 4 then
      wf (Reg.PIF_C_AMPL i) 29 16 0 (updPif i (fun x => { x with
        minA := none, minS := none, maxS := none, minC := none, maxC := none }) s)
    else s
  | .stk, 0x08C => if b 4 then { s with stk := { s.stk with waitMark := now s } } else s
  | .thm, 0x060 => if b 1 then { s with thm := { s.thm with maxFresh := true } } else s
  | _, _ => s

/-! ## Values refused beyond a single field's range (R41) -/

/-- What a write would leave in an RWS register's shadow. -/
def shadowOr (s : State) (addr k : Nat) (v : Word) : Nat := if addr = k then v.toNat else (rdShadow s k).toNat

/-- A value R41 refuses by a rule of its register's chapter: R215, R242, R255, R268, R274, R276, R306, R339, R385, R413, R500. -/
def refusesValue (s : State) (addr : Nat) (v : Word) : Bool :=
  let off := addr % 0x1000
  let x := v.toNat
  match pageOf (addr / 0x1000) with
  | some (.tilE, _) => (decide (off = 0x04C) && !dmapGood (x % 2 ^ 24)) ||
      (decide (off = 0x090) && decide (x % 256 ≠ 0 ∧ x % 2 = 0))
  | some (.klnC, _) =>
    decide (off % 0x40 = 0 ∧ 0x100 ≤ off ∧ off < 0x200) &&
      (decide (6 ≤ bits 2 0 x) || decide (bits 2 0 x = 5 ∧ 1 < bits 6 4 x) || decide (bits 2 0 x = 4 ∧ 3 < bits 6 4 x))
  | some (.klnP, p) => (decide (off = 0x044) && decide (bits 7 4 x = p)) || (decide (off = 0x100) && decide (bits 5 4 x = 3))
  | some (.hlk, h) => (decide (off = 0x040) && decide (x % 4 = 3)) ||
      (decide (off = 0x100) && decide (x % 2048 < fittedPositions s h))
  | some (.pifCh, _) => decide (off = 0x054) && decide (bits 29 16 x ≤ bits 13 0 x)
  | some (.iplP, k) => !camFieldOk off x ||
      (decide (off = 0x114 ∨ off = 0x118) &&
        decide (shadowOr s addr (Reg.IPL_C_COL1 k) v % 2 ^ 18 < shadowOr s addr (Reg.IPL_C_COL0 k) v % 2 ^ 18))
  | some (.cal, _) => (decide (off = 0x040) && decide (bits 31 16 x ≤ bits 15 0 x)) ||
      (decide (off = 0x054) && decide (bits 25 16 x ≤ bits 9 0 x))
  | some (.crk, _) => decide (off = 0x04C) && !decide (4 ≤ x % 256 ∧ x % 256 * 1048576 * 4 ≤ regionBytes s * 3)
  | _ => false

/-! ## Registers that act when written -/

/-- A write of KLN_PC_CFG: refused while a plane on the channel is not STOPPED; another source begins its own counts (R276, R429). -/
def paceCfgWrite (k addr : Nat) (v : Word) (s : State) : State :=
  if (followers s k).any fun p => (plane s p).live then recordErr pgKlnC 0x42 s
  else
    let s1 := applyWrite addr v s
    if bits 2 0 v.toNat = pcSrc s k then s1
    else { s1 with trm := { s1.trm with synced := s1.trm.synced.filter (· ≠ k) } }

/-- A write of KLN_TRIP_STAT clears CLR_REJECT bits (R292). -/
def tripStatWrite (v : Word) (s : State) : State :=
  (maskBits 4 (v.toNat / 2 ^ 12)).foldl (fun t i => updTrip i (fun x => { x with reject := false }) t) s

/-- A write of a Tiller engine's register: an odd engine's mirrors refuse it, a split R200 does not permit is refused, and one it permits
replaces a choice of AUTO_SPLIT that waits (R202, R222). -/
def engineWrite (e addr : Nat) (v : Word) (s : State) : State :=
  let mirror : Bool := match regDef addr with | some r => decide (r.acc = .rwsEven) && decide (e % 2 = 1) | none => false
  if mirror then recordErr (pgTilE e) 0x41 s
  else if addr = Reg.TIL_E_SPLIT e then
    if splitAllowed s (e / 2) (v.toNat % 4096) then
      applyWrite addr v { s with til := { s.til with autoHeads := s.til.autoHeads.filter (· ≠ e / 2) } }
    else recordErr (pgTilE e) 0x40 s
  else applyWrite addr v s

/-- A write of KLN_P_PACE_CFG or KLN_P_BIDI while the plane runs is refused (R276). -/
def planePaceWrite (p addr : Nat) (v : Word) (s : State) : State :=
  if (plane s p).live then recordErr (pgKlnP p) 0x42 s else applyWrite addr v s

/-- A write of PIF_C_CFG that changes MODE or INV while the channel is enabled is refused (R327). -/
def pifCfgWrite (c : Nat) (v : Word) (s : State) : State :=
  if (getPage s (pgPif c)).en && decide (v.toNat % 4 ≠ rf s (Reg.PIF_C_CFG c) 1 0) then recordErr (pgPif c) 0x40 s
  else idleCorrection c (plainPut (Reg.PIF_C_CFG c) v s)

/-- A write of MOT_TRIP_MAP: while the latch is set, the axes it names are TRIPPED (R361). -/
def motTripMapWrite (i addr : Nat) (v : Word) (s : State) : State :=
  let s1 := plainPut addr v s
  if (trip s1 i).latched then tripAxes i s1 else s1

/-- A write of a fan channel's registers (R558 to R562). -/
def fanWrite (addr : Nat) (v : Word) (s : State) : State :=
  let off := addr % 0x1000
  if off < 0x100 ∨ 0x180 ≤ off then s
  else
    let n := (off - 0x100) / 0x20
    if off % 0x20 = 0 then fanCfgWrite n v s
    else if off % 0x20 = 4 then fanCurveWrite n v s
    else if off % 0x20 = 0x10 then noteSpeed n (plainPut addr v s)
    else plainPut addr v s

/-- A write of a register of the controller's pages, Tally, HIF or Glaze, with its effect. -/
def systemWrite (ini : Initiator) (k : PageKind) (addr : Nat) (v : Word) (s : State) : State :=
  let off := addr % 0x1000
  let plain := applyWrite addr v s
  match k with
  | .glb => if off = 0x048 then holdRelWrite ini v s else if off = 0x050 then glbRst v s else plain
  | .clk => if off = 0x050 then iocalCtrl v s else plain
  | .pwr => if off = 0x048 ∨ off = 0x04C then budgetWrite addr v s else plain
  | .fan => fanWrite addr v s
  | .thm => applyWrite addr v (if off = 0x04C then holdThr s else s)
  | .tim =>
    if off = 0x040 then timCtrl v s else if off = 0x064 then timWrCtrl v s
    else if off = 0x068 then timRateWrite v s else plain
  | .tly =>
    if off = 0x040 then tlyCtrlWrite v s else if off = 0x054 then slotCfgWrite v s
    else if off = 0x058 then slotHeadsWrite false v s else if off = 0x05C then slotHeadsWrite true v s else plain
  | .hif =>
    if off = 0x040 then hifCtrlWrite v s
    else if (0x048 ≤ off ∧ off ≤ 0x060) ∨ off = 0x0B0 then sysRingWrite addr v s
    else if off = 0x0A4 then ltrUpdate plain else plain
  | .glz => if off = 0x048 then glzBandWrite v s else plain
  | _ => plain

/-- A write of a register of the pages of the press's blocks, with its effect; `i` is the instance. -/
def pressWrite (k : PageKind) (i addr : Nat) (v : Word) (s : State) : State :=
  let off := addr % 0x1000
  let plain := applyWrite addr v s
  match k with
  | .tilC => if off = 0x04C then splitBarWrite v s else plain
  | .tilE => engineWrite i addr v s
  | .klnC =>
    if off = 0x200 then tripStatWrite v s else if off = 0x204 then tripClear v s
    else if off = 0x058 ∨ off = 0x05C then refreshGrants plain else if off = 0x060 then refreshIdle plain
    else if off = 0x06C then markWrite v s
    else if off % 0x40 = 0 ∧ 0x100 ≤ off ∧ off < 0x200 then paceCfgWrite ((off - 0x100) / 0x40) addr v s else plain
  | .klnP =>
    if off = 0x068 then applyArm i v s else if off = 0x100 ∨ off = 0x124 then planePaceWrite i addr v s else plain
  | .hlk => if off = 0x040 then hlkCtrlWrite i v s else if off = 0x048 then faultClear i v s else plain
  | .pifCh =>
    if off = 0x040 then pifCfgWrite i v s else if off = 0x044 then pifCtrlWrite i v s
    else if off = 0x060 then idxPeriodWrite i false v s else if off = 0x064 then idxPeriodWrite i true v s else plain
  | .motC => if 0x050 ≤ off ∧ off < 0x060 then motTripMapWrite ((off - 0x050) / 4) addr v s else plain
  | .motA => if off = 0x044 then motFaultClear i v s else if 0x080 ≤ off then motConfigWrite i addr v s else plain
  | .iplC => if off = 0x040 then iplCtrlWrite v s else plain
  | .iplP => if off = 0x044 then captWrite i v s else plain
  | .win => if 0x060 ≤ off ∧ off ≤ 0x074 then gleanWrite addr v s else plain
  | .gln => if off = 0x040 ∨ off = 0x044 then gleanWrite addr v s else plain
  | .trm => if off = 0x040 then trmCtrl v s else plain
  | _ => plain

/-- A write of a block's own register. -/
def blockWrite (ini : Initiator) (addr : Nat) (v : Word) (s : State) : State :=
  match pageOf (addr / 0x1000) with
  | none => s
  | some (k, i) => match k with
    | .glb | .clk | .pwr | .fan | .thm | .tim | .tly | .hif | .glz => systemWrite ini k addr v s
    | .stk | .crk | .sag | .mem | .thr | .mil | .pifC | .motC | .cal => applyWrite addr v s
    | .tilC | .tilE | .klnC | .klnP | .hlk | .pifCh | .motA | .iplC | .iplP | .win | .gln | .trm => pressWrite k i addr v s

/-- A write that has reached its register; a reserved offset ignores it (R36). -/
def regWrite (ini : Initiator) (addr : Nat) (v : Word) (s : State) : State :=
  let n := addr / 0x1000
  let off := addr % 0x1000
  if off < 0x040 then headerWrite n off v s
  else if (regDef addr).isNone then s
  else if refusesValue s addr v then recordErr n 0x05 s
  else match pageOf n with
    | some (k, i) => match clearMap s k (n * 0x1000) off with
      | some regs => restarts k i off v (clearCounters regs v s)
      | none => blockWrite ini addr v s
    | none => s

/-- A write of a dword of BAR0: the MSI-X table takes it by its own rules, a register with its checks (R33, R37, R41, R56, R59, R60, R64). -/
def dwordWrite (ini : Initiator) (addr : Nat) (be : BitVec 4) (v : Word) (s : State) : State :=
  if msixArea addr then (if clocked s && decide (be = allBytes) then msixWrite addr v s else s)
  else guardWrite ini addr be v (regWrite ini addr) s

/-- A write of any aligned dword. -/
def writeAt (ini : Initiator) (addr : BitVec 24) (be : BitVec 4) (v : Word) (s : State) : State :=
  if aligned addr.toNat then dwordWrite ini addr.toNat be v s else s

/-! ## The commands -/

/-- The dwords of a write request after its first, in ascending address order (R33). -/
def writeRun (ini : Initiator) : Nat → List (Word × BitVec 4) → State → State
  | _, [], s => s
  | addr, d :: ds, s => writeRun ini (addr + 4) ds (dwordWrite ini addr d.2 d.1 s)

/-- A write request of one or more dwords; a host request that crosses a 64-byte block is aborted whole (R33). -/
def writeDwords (ini : Initiator) (addr : Nat) (ds : List (Word × BitVec 4)) (s : State) : State :=
  if accepted ini addr ds.length then writeRun ini addr ds s
  else if ini = .host ∧ aligned addr then barAbort true s else s

/-- Writes of several initiators that reach a register in one CK_FAB cycle, in the order R35 applies them: Sagger's, the control cores',
the host's. -/
def cycleOrder (ws : List (Initiator × Word × BitVec 4)) : List (Initiator × Word × BitVec 4) :=
  ws.filter (fun w => decide (w.1 = .sagger)) ++ ws.filter (fun w => decide (w.1 = .core)) ++
    ws.filter fun w => decide (w.1 = .host)

/-- A write with the writes of other initiators that reach the same register in its cycle (R35). -/
def writeCycle (ini : Initiator) (addr : BitVec 24) (be : BitVec 4) (v : Word) (also : List (Initiator × Word)) (s : State) : State :=
  (cycleOrder ((ini, v, be) :: also.map fun w => (w.1, w.2, allBytes))).foldl (fun t w => writeAt w.1 addr w.2.2 w.2.1 t) s

/-- A register write: the first dword with the writes of the same cycle, then the request's further dwords. -/
def execRegisterWrite (ini : Initiator) (addr : BitVec 24) (val : Word) (be : BitVec 4) (more : List (Word × BitVec 4))
    (also : List (Initiator × Word)) (s : State) : Host.Outcome State Fault Refusal :=
  .next (if more = [] then writeCycle ini addr be val also s else writeDwords ini addr.toNat ((val, be) :: more) s)

def execRwsRegisterWrite (ini : Initiator) (addr : BitVec 24) (val : Word) (be : BitVec 4) (also : List (Initiator × Word))
    (s : State) : Host.Outcome State Fault Refusal := .next (writeCycle ini addr be val also s)

def execStatusW1cClear (ini : Initiator) (addr : BitVec 24) (val : Word) (be : BitVec 4) (s : State) :
    Host.Outcome State Fault Refusal := .next (writeAt ini addr be val s)

def execCounterClear (ini : Initiator) (addr : BitVec 24) (val : Word) (be : BitVec 4) (s : State) :
    Host.Outcome State Fault Refusal := .next (writeAt ini addr be val s)

/-- A write to an RWL register: refused and counted while the lock is closed (R57). The command says that the register is one; BAR0 holds
none. -/
def lockedWrite (ini : Initiator) (n addr : Nat) (v : Word) (s : State) : State :=
  if lockOpen s then (if inRange addr v then regWrite ini addr v s else recordErr n 0x05 s)
  else recordErr n 0x02 (updPage n (fun p => { p with denyCnt := if p.denyCnt = 0xFFFF#16 then p.denyCnt else p.denyCnt + 1 }) s)

def execRwlRegisterWrite (ini : Initiator) (addr : BitVec 24) (val : Word) (be : BitVec 4) (s : State) :
    Host.Outcome State Fault Refusal :=
  .next (if aligned addr.toNat then guardAccess ini addr.toNat be (lockedWrite ini (addr.toNat / 0x1000) addr.toNat val) s else s)

def execPgIrqStatClear (ini : Initiator) (page : BitVec 12) (val : Word) (s : State) : Host.Outcome State Fault Refusal :=
  .next (guardWrite ini (page.toNat * 0x1000 + 0x018) allBytes val (irqStatWrite page.toNat) s)

def execPgIrqSet (ini : Initiator) (page : BitVec 12) (val : Word) (s : State) : Host.Outcome State Fault Refusal :=
  .next (guardWrite ini (page.toNat * 0x1000 + 0x01C) allBytes val (irqSetWrite page.toNat) s)

def execPgErrClear (ini : Initiator) (page : BitVec 12) (val : Word) (s : State) : Host.Outcome State Fault Refusal :=
  .next (guardWrite ini (page.toNat * 0x1000 + 0x024) allBytes val (pgErrWrite page.toNat) s)

def execShadowDiscard (ini : Initiator) (page : BitVec 12) (val : Word) (s : State) : Host.Outcome State Fault Refusal :=
  .next (guardWrite ini (page.toNat * 0x1000 + 0x020) allBytes val (shadowWrite page.toNat) s)

def execShadowHoldWrite (ini : Initiator) (page : BitVec 12) (val : Word) (s : State) : Host.Outcome State Fault Refusal :=
  .next (guardWrite ini (page.toNat * 0x1000 + 0x020) allBytes val (shadowWrite page.toNat) s)

def execHoldRelease (ini : Initiator) (val : Word) (s : State) : Host.Outcome State Fault Refusal :=
  .next (guardWrite ini Reg.GLB_HOLD_REL allBytes val (holdRelWrite ini) s)

def execCmdHoldRelease (ini : Initiator) (val : Word) (s : State) : Host.Outcome State Fault Refusal :=
  .next (guardWrite ini Reg.GLB_HOLD_REL allBytes val (holdRelWrite ini) s)

def execSoftReset (ini : Initiator) (page : BitVec 12) (val : Word) (s : State) : Host.Outcome State Fault Refusal :=
  .next (guardWrite ini (page.toNat * 0x1000 + 0x008) allBytes val (pgCtrlWrite page.toNat) s)

/-- The soft reset of a page ends (R37). -/
def execSoftResetEnd (page : BitVec 12) (s : State) : Host.Outcome State Fault Refusal :=
  .next (if pageUp s page.toNat then softResetDone page.toNat s else s)

def execHlkPortEnable (ini : Initiator) (head : Fin 64) (val : Word) (s : State) : Host.Outcome State Fault Refusal :=
  .next (guardWrite ini (pgHlk head.val * 0x1000 + 0x008) allBytes val (pgCtrlWrite (pgHlk head.val)) s)

def execPifChannelEnable (ini : Initiator) (ch : Fin 4) (val : Word) (s : State) : Host.Outcome State Fault Refusal :=
  .next (guardWrite ini (pgPif ch.val * 0x1000 + 0x008) allBytes val (pgCtrlWrite (pgPif ch.val)) s)

end Sys2Proof.Machine
end

