-- ==== Sys2Proof/Machine/Resume.lean ====
section
/-! DEFINITION. A command that waited takes up its checks again (spec/05, R116, R123; spec/23, R538). -/

namespace Sys2Proof.Machine
open Sys2Proof

/-- The checks and effects of a taken command; only commands of resident firmware are ever parked. -/
def runBody (h : Hdr) (c : Instr) (s : State) : State :=
  match c with
  | .alarmFetch _ buf len => alarmFetch h buf.toNat len.toNat s
  | .alarmAck _ code => alarmAck h code.toNat s
  | .inspectControl _ mask inline action => inspectControl h mask.toNat inline.toNat action.toNat s
  | .cameraConfig d port handle => bodyCameraConfig h (.cameraConfig d port handle) port.toNat handle.toNat s
  | .reprocess d port image => reprocess h (.reprocess d port image) port.toNat image.toNat s
  | .nozzleSnapshot d => bodyNozzleSnapshot h (.nozzleSnapshot d) s
  | .journalCompact d => bodyJournalCompact h (.journalCompact d) s
  | .storeWrite d area handle => bodyStoreWrite h (.storeWrite d area handle) area.toNat handle.toNat s
  | .tileLoad d tile handle => bodyTileLoad h (.tileLoad d tile handle) tile.toNat handle.toNat s
  | .tileEvict _ tile => bodyTileEvict h tile.toNat s
  | .refSelect _ port action => refSelect h port.toNat action.toNat s
  | .calControl _ mask action => calControl h mask.toNat action.toNat s
  | .calStatus _ plane => calStatus h plane.toNat s
  | .kilnStart d mask => bodyKilnStart h (.kilnStart d mask) mask.toNat s
  | .kilnStop d mask => bodyKilnStop h (.kilnStop d mask) mask.toNat s
  | .pressStatus _ => ok h (pressStatus s) s
  | .axisEnable d mask action => bodyAxisEnable h (.axisEnable d mask action) mask.toNat action.toNat s
  | .axisMove d axis profile target => bodyAxisMove h (.axisMove d axis profile target) axis.toNat profile.toNat target.toInt s
  | .axisStop d mask mode => bodyAxisStop h (.axisStop d mask mode) mask.toNat mode.toNat s
  | .axisResume d axis => bodyAxisResume h (.axisResume d axis) axis.toNat s
  | .axisQuery _ axis => bodyAxisQuery h axis.toNat s
  | .axisHome d axis homing timeout => bodyAxisHome h (.axisHome d axis homing timeout) axis.toNat homing.toNat timeout.toNat s
  | .axisConfig d axis handle => bodyAxisConfig h (.axisConfig d axis handle) axis.toNat handle.toNat s
  | .nozzleRead _ first count buf len => bodyNozzleRead h first.toNat count.toNat buf.toNat len.toNat s
  | .nozzleWrite d handle => bodyNozzleWrite h (.nozzleWrite d handle) handle.toNat s
  | .curveLoad d first count handle => bodyCurveLoad h (.curveLoad d first count handle) first.toNat count.toNat handle.toNat s
  | .threshLoad d array handle => bodyThreshLoad h (.threshLoad d array handle) array.toNat handle.toNat s
  | .kernelSelect d plane kernel handle => bodyKernelSelect h (.kernelSelect d plane kernel handle) plane.toNat kernel.toNat handle.toNat s
  | .splitMove d head split => bodySplitMove h (.splitMove d head split) head.toNat split.toNat s
  | .maintSpit d mask drops code => bodyMaintSpit h (.maintSpit d mask drops code) mask.toNat drops.toNat code.toNat s
  | .planeConfig d plane handle => bodyPlaneConfig h (.planeConfig d plane handle) plane.toNat handle.toNat s
  | .passLoad d mask handle => bodyPassLoad h (.passLoad d mask handle) mask.toNat handle.toNat s
  | .segmentLoad d handle => bodySegmentLoad h (.segmentLoad d handle) handle.toNat s
  | .headPower d mask action timeout => bodyHeadPower h (.headPower d mask action timeout) mask.toNat action.toNat s
  | .powerState d target => bodyPowerState h (.powerState d target) target.toNat s
  | .keyLoad d tenant handle => bodyKeyLoad h (.keyLoad d tenant handle) tenant.toNat handle.toNat s
  | .quotaGrant d tenant handle => bodyQuotaGrant h (.quotaGrant d tenant handle) tenant.toNat handle.toNat s
  | .quotaQuery _ tenant => quotaQuery h tenant.toNat s
  | .receiptFetch _ buf len => receiptFetch h buf.toNat len.toNat s
  | .attest _ buf len challenge => attest h buf.toNat len.toNat challenge s
  | .debugUnlock d handle => bodyDebugUnlock h (.debugUnlock d handle) handle.toNat s
  | .lifecycleAdvance d target handle => bodyLifecycleAdvance h (.lifecycleAdvance d target handle) target.toNat handle.toNat s
  | .traceConfig d handle => bodyTraceConfig h (.traceConfig d handle) handle.toNat s
  | .stookLimit _ limit => bodyStookLimit h limit.toNat s
  | .consumableScan d mask => bodyConsumableScan h (.consumableScan d mask) mask.toNat s
  | .consumableQuery _ slot => consumableQuery h slot.toNat s
  | .tallyCheckpoint d => bodyTallyCheckpoint h (.tallyCheckpoint d) s
  | .defectFetch _ buf len => defectFetch h buf.toNat len.toNat s
  | .nop _ => ok h 0 s
  | .deviceInfo _ => ok h (deviceInfo s) s
  | .ringCreate _ ring typ size tenant paired vector imodCnt imodTime base wb => ringCreate h ring.toNat typ.toNat size.toNat tenant.toNat paired.toNat vector.toNat imodCnt.toNat imodTime.toNat base.toNat wb.toNat s
  | .ringDestroy d ring => ringDestroy h (.ringDestroy d ring) ring.toNat s
  | .ringQuery _ ring => ringQuery h ring.toNat s
  | .patchStatus _ buf len => patchStatus h buf.toNat len.toNat s
  | .eventFilter _ ring mask => eventFilter h ring.toNat mask s
  | .tenantEnable _ tenant maxJobs maxCopies => tenantEnable h tenant.toNat maxJobs.toNat maxCopies.toNat s
  | .tenantDisable d tenant => tenantDisable h (.tenantDisable d tenant) tenant.toNat s
  | .tenantQuery _ tenant => tenantQuery h tenant.toNat s
  | .jobOpen _ job nonce => jobOpenCmd h job.toNat nonce s
  | .jobClose d job => jobClose h (.jobClose d job) job.toNat s
  | .jobAbort d job => jobAbort h (.jobAbort d job) job.toNat s
  | .pageLoad d handle => bodyPageLoad h (.pageLoad d handle) handle.toNat s
  | .pageRelease d job page => pageRelease h (.pageRelease d job page) job.toNat page.toNat s
  | .copySubmit d handle => bodyCopySubmit h (.copySubmit d handle) handle.toNat s
  | .copyWithdraw _ job copy => copyWithdraw h job.toNat copy.toNat s
  | .copyQuery _ job copy => copyQuery h job.toNat copy.toNat s
  | .streamOpen _ handle kind maxLen job => streamOpen h handle.toNat kind.toNat maxLen.toNat job.toNat s
  | .streamFree _ handle => streamFree h handle.toNat s
  | _ => s

/-- A command that waits for a stream, an earlier command or RUN goes on once nothing bars it; an accepted QUOTA_GRANT past its bound of
1 ms ends (R126); an accepted MAINT_SPIT fires its next drop (R144). -/
def resume (seq : Nat) (s : State) : State :=
  match findParked s seq with
  | some p =>
    if mayResume s p then runBody p.h p.cmd s
    else if p.accepted && grantOverdue s p then grantUndo p s
    else match p.cmd with
      | .maintSpit _ mask _ code => if p.accepted then spitDrop p mask.toNat code.toNat s else s
      | _ => s
  | none => s

def execParkedCommandResume (seq : Nat) (s : State) : Host.Outcome State Fault Refusal := .next (resume seq s)

end Sys2Proof.Machine
end

