-- ==== Sys2Proof/Machine/Dispatch.lean ====
section
/-! DEFINITION. Every command to its meaning, one arm per constructor (R115, R9). -/

namespace Sys2Proof.Machine
open Sys2Proof

/-- What a command does to everything but the queue. -/
def exec (i : Instr) (s : State) : Host.Outcome State Fault Refusal :=
  match i with
  | .nop d => Sys2Proof.Machine.execNop d s
  | .deviceInfo d => Sys2Proof.Machine.execDeviceInfo d s
  | .ringCreate d ring typ size tenant paired vector imodCnt imodTime base wb => Sys2Proof.Machine.execRingCreate d ring typ size tenant paired vector imodCnt imodTime base wb s
  | .ringDestroy d ring => Sys2Proof.Machine.execRingDestroy d ring s
  | .ringDestroyDone ring => Sys2Proof.Machine.execRingDestroyDone ring s
  | .ringQuery d ring => Sys2Proof.Machine.execRingQuery d ring s
  | .powerState d target => Sys2Proof.Machine.execPowerState d target s
  | .tenantEnable d tenant maxJobs maxCopies => Sys2Proof.Machine.execTenantEnable d tenant maxJobs maxCopies s
  | .tenantDisable d tenant => Sys2Proof.Machine.execTenantDisable d tenant s
  | .tenantDrainKeyWipe tenant => Sys2Proof.Machine.execTenantDrainKeyWipe tenant s
  | .tenantDrainDone tenant => Sys2Proof.Machine.execTenantDrainDone tenant s
  | .tenantQuery d tenant => Sys2Proof.Machine.execTenantQuery d tenant s
  | .keyLoad d tenant handle => Sys2Proof.Machine.execKeyLoad d tenant handle s
  | .quotaGrant d tenant handle => Sys2Proof.Machine.execQuotaGrant d tenant handle s
  | .quotaQuery d tenant => Sys2Proof.Machine.execQuotaQuery d tenant s
  | .jobOpen d job nonce => Sys2Proof.Machine.execJobOpen d job nonce s
  | .jobClose d job => Sys2Proof.Machine.execJobClose d job s
  | .jobAbort d job => Sys2Proof.Machine.execJobAbort d job s
  | .jobEndDone seq => Sys2Proof.Machine.execJobEndDone seq s
  | .pageLoad d handle => Sys2Proof.Machine.execPageLoad d handle s
  | .pageRelease d job page => Sys2Proof.Machine.execPageRelease d job page s
  | .pageReleaseDone seq => Sys2Proof.Machine.execPageReleaseDone seq s
  | .copySubmit d handle => Sys2Proof.Machine.execCopySubmit d handle s
  | .copyWithdraw d job copy => Sys2Proof.Machine.execCopyWithdraw d job copy s
  | .copyQuery d job copy => Sys2Proof.Machine.execCopyQuery d job copy s
  | .streamOpen d handle kind maxLen job => Sys2Proof.Machine.execStreamOpen d handle kind maxLen job s
  | .streamFree d handle => Sys2Proof.Machine.execStreamFree d handle s
  | .parkedCommandResume seq => Sys2Proof.Machine.execParkedCommandResume seq s
  | .tileLoad d tile handle => Sys2Proof.Machine.execTileLoad d tile handle s
  | .tileEvict d tile => Sys2Proof.Machine.execTileEvict d tile s
  | .segmentLoad d handle => Sys2Proof.Machine.execSegmentLoad d handle s
  | .planeConfig d plane handle => Sys2Proof.Machine.execPlaneConfig d plane handle s
  | .passLoad d mask handle => Sys2Proof.Machine.execPassLoad d mask handle s
  | .kilnStart d mask => Sys2Proof.Machine.execKilnStart d mask s
  | .kilnStop d mask => Sys2Proof.Machine.execKilnStop d mask s
  | .kilnStopDone seq => Sys2Proof.Machine.execKilnStopDone seq s
  | .headPower d mask action timeout => Sys2Proof.Machine.execHeadPower d mask action timeout s
  | .headPowerDone seq => Sys2Proof.Machine.execHeadPowerDone seq s
  | .headPowerTimeout seq t => Sys2Proof.Machine.execHeadPowerTimeout seq t s
  | .pressStatus d => Sys2Proof.Machine.execPressStatus d s
  | .nozzleRead d first count buf len => Sys2Proof.Machine.execNozzleRead d first count buf len s
  | .nozzleWrite d handle => Sys2Proof.Machine.execNozzleWrite d handle s
  | .nozzleWriteDone seq => Sys2Proof.Machine.execNozzleWriteDone seq s
  | .curveLoad d first count handle => Sys2Proof.Machine.execCurveLoad d first count handle s
  | .threshLoad d array handle => Sys2Proof.Machine.execThreshLoad d array handle s
  | .kernelSelect d plane kernel handle => Sys2Proof.Machine.execKernelSelect d plane kernel handle s
  | .splitMove d head split => Sys2Proof.Machine.execSplitMove d head split s
  | .calControl d mask action => Sys2Proof.Machine.execCalControl d mask action s
  | .refSelect d port action => Sys2Proof.Machine.execRefSelect d port action s
  | .calStatus d plane => Sys2Proof.Machine.execCalStatus d plane s
  | .axisConfig d axis handle => Sys2Proof.Machine.execAxisConfig d axis handle s
  | .axisEnable d mask action => Sys2Proof.Machine.execAxisEnable d mask action s
  | .axisMove d axis profile target => Sys2Proof.Machine.execAxisMove d axis profile target s
  | .axisStop d mask mode => Sys2Proof.Machine.execAxisStop d mask mode s
  | .axisResume d axis => Sys2Proof.Machine.execAxisResume d axis s
  | .axisHome d axis homing timeout => Sys2Proof.Machine.execAxisHome d axis homing timeout s
  | .axisQuery d axis => Sys2Proof.Machine.execAxisQuery d axis s
  | .moveComplete axis => Sys2Proof.Machine.execMoveComplete axis s
  | .homingComplete axis => Sys2Proof.Machine.execHomingComplete axis s
  | .homingTimeout axis t => Sys2Proof.Machine.execHomingTimeout axis t s
  | .cameraConfig d port handle => Sys2Proof.Machine.execCameraConfig d port handle s
  | .inspectControl d mask inline action => Sys2Proof.Machine.execInspectControl d mask inline action s
  | .reprocess d port image => Sys2Proof.Machine.execReprocess d port image s
  | .defectFetch d buf len => Sys2Proof.Machine.execDefectFetch d buf len s
  | .receiptFetch d buf len => Sys2Proof.Machine.execReceiptFetch d buf len s
  | .attest d buf len challenge => Sys2Proof.Machine.execAttest d buf len challenge s
  | .debugUnlock d handle => Sys2Proof.Machine.execDebugUnlock d handle s
  | .lifecycleAdvance d target handle => Sys2Proof.Machine.execLifecycleAdvance d target handle s
  | .consumableScan d mask => Sys2Proof.Machine.execConsumableScan d mask s
  | .consumableQuery d slot => Sys2Proof.Machine.execConsumableQuery d slot s
  | .tallyCheckpoint d => Sys2Proof.Machine.execTallyCheckpoint d s
  | .patchStatus d buf len => Sys2Proof.Machine.execPatchStatus d buf len s
  | .nozzleSnapshot d => Sys2Proof.Machine.execNozzleSnapshot d s
  | .journalCompact d => Sys2Proof.Machine.execJournalCompact d s
  | .maintSpit d mask drops code => Sys2Proof.Machine.execMaintSpit d mask drops code s
  | .storeWrite d area handle => Sys2Proof.Machine.execStoreWrite d area handle s
  | .eventFilter d ring mask => Sys2Proof.Machine.execEventFilter d ring mask s
  | .alarmFetch d buf len => Sys2Proof.Machine.execAlarmFetch d buf len s
  | .alarmAck d code => Sys2Proof.Machine.execAlarmAck d code s
  | .traceConfig d handle => Sys2Proof.Machine.execTraceConfig d handle s
  | .stookLimit d limit => Sys2Proof.Machine.execStookLimit d limit s
  | .latchCommandComplete seq => Sys2Proof.Machine.execLatchCommandComplete seq s
  | .completionPost ring taken => Sys2Proof.Machine.execCompletionPost ring taken s
  | .doorbell ring off write val be => Sys2Proof.Machine.execDoorbell ring off write val be s
  | .hifRunWrite ini val be => Sys2Proof.Machine.execHifRunWrite ini val be s
  | .busMasterEnableWrite on fields => Sys2Proof.Machine.execBusMasterEnableWrite on fields s
  | .d3hotTransition => Sys2Proof.Machine.execD3hotTransition s
  | .msixVectorUnmask vec => Sys2Proof.Machine.execMsixVectorUnmask vec s
  | .hifDescriptorFetch ring => Sys2Proof.Machine.execHifDescriptorFetch ring s
  | .hifDataFetch => Sys2Proof.Machine.execHifDataFetch s
  | .hostReadCompletion tag r => Sys2Proof.Machine.execHostReadCompletion tag r s
  | .completionTimeout tag => Sys2Proof.Machine.execCompletionTimeout tag s
  | .backgroundPromote t => Sys2Proof.Machine.execBackgroundPromote t s
  | .receivedRequestFault kind => Sys2Proof.Machine.execReceivedRequestFault kind s
  | .indexWriteback ring taken => Sys2Proof.Machine.execIndexWriteback ring taken s
  | .imodTimeout ring => Sys2Proof.Machine.execImodTimeout ring s
  | .ltrRiseTimer => Sys2Proof.Machine.execLtrRiseTimer s
  | .ptmRequestTimer => Sys2Proof.Machine.execPtmRequestTimer s
  | .ptmTimeout => Sys2Proof.Machine.execPtmTimeout s
  | .timPtmMeasurement sec ns frac => Sys2Proof.Machine.execTimPtmMeasurement sec ns frac s
  | .barAccessAbort addr len write => Sys2Proof.Machine.execBarAccessAbort addr len write s
  | .unmappedPageAccess ini addr write => Sys2Proof.Machine.execUnmappedPageAccess ini addr write s
  | .registerWrite ini addr val be more also => Sys2Proof.Machine.execRegisterWrite ini addr val be more also s
  | .rwsRegisterWrite ini addr val be also => Sys2Proof.Machine.execRwsRegisterWrite ini addr val be also s
  | .rwlRegisterWrite ini addr val be => Sys2Proof.Machine.execRwlRegisterWrite ini addr val be s
  | .lowWordRead ini addr more => Sys2Proof.Machine.execLowWordRead ini addr more s
  | .highWordRead ini addr => Sys2Proof.Machine.execHighWordRead ini addr s
  | .snapshotRead ini addr => Sys2Proof.Machine.execSnapshotRead ini addr s
  | .timNsRead ini => Sys2Proof.Machine.execTimNsRead ini s
  | .timXsnapRead ini => Sys2Proof.Machine.execTimXsnapRead ini s
  | .sagNonceRead ini => Sys2Proof.Machine.execSagNonceRead ini s
  | .nonceExpire t => Sys2Proof.Machine.execNonceExpire t s
  | .pgIrqStatClear ini page val => Sys2Proof.Machine.execPgIrqStatClear ini page val s
  | .pgIrqSet ini page val => Sys2Proof.Machine.execPgIrqSet ini page val s
  | .pgErrClear ini page val => Sys2Proof.Machine.execPgErrClear ini page val s
  | .shadowDiscard ini page val => Sys2Proof.Machine.execShadowDiscard ini page val s
  | .shadowHoldWrite ini page val => Sys2Proof.Machine.execShadowHoldWrite ini page val s
  | .holdRelease ini val => Sys2Proof.Machine.execHoldRelease ini val s
  | .cmdHoldRelease ini val => Sys2Proof.Machine.execCmdHoldRelease ini val s
  | .statusW1cClear ini addr val be => Sys2Proof.Machine.execStatusW1cClear ini addr val be s
  | .counterClear ini addr val be => Sys2Proof.Machine.execCounterClear ini addr val be s
  | .softReset ini page val => Sys2Proof.Machine.execSoftReset ini page val s
  | .softResetEnd page => Sys2Proof.Machine.execSoftResetEnd page s
  | .applyArmWrite ini plane val => Sys2Proof.Machine.execApplyArmWrite ini plane val s
  | .tilSplitBarWrite ini val => Sys2Proof.Machine.execTilSplitBarWrite ini val s
  | .glzBandWrite ini val => Sys2Proof.Machine.execGlzBandWrite ini val s
  | .gleanWindowDiscardWrite ini reg val => Sys2Proof.Machine.execGleanWindowDiscardWrite ini reg val s
  | .klnTripClear ini val => Sys2Proof.Machine.execKlnTripClear ini val s
  | .hlkPortEnable ini head val => Sys2Proof.Machine.execHlkPortEnable ini head val s
  | .hlkRetrainWrite ini head val => Sys2Proof.Machine.execHlkRetrainWrite ini head val s
  | .hlkFaultClear ini head val => Sys2Proof.Machine.execHlkFaultClear ini head val s
  | .pifChannelEnable ini ch val => Sys2Proof.Machine.execPifChannelEnable ini ch val s
  | .pifRearm ini ch val => Sys2Proof.Machine.execPifRearm ini ch val s
  | .pifLoad ini ch val => Sys2Proof.Machine.execPifLoad ini ch val s
  | .pifIdxPeriodWrite ini ch high val => Sys2Proof.Machine.execPifIdxPeriodWrite ini ch high val s
  | .motFaultClear ini axis val => Sys2Proof.Machine.execMotFaultClear ini axis val s
  | .shadingCaptureDark ini port val => Sys2Proof.Machine.execShadingCaptureDark ini port val s
  | .shadingCaptureWhite ini port val => Sys2Proof.Machine.execShadingCaptureWhite ini port val s
  | .shadingCaptureDone port => Sys2Proof.Machine.execShadingCaptureDone port s
  | .timWriteNow ini val => Sys2Proof.Machine.execTimWriteNow ini val s
  | .timWriteAtSec ini val => Sys2Proof.Machine.execTimWriteAtSec ini val s
  | .timWriteCancel ini val => Sys2Proof.Machine.execTimWriteCancel ini val s
  | .timSrcWrite ini val => Sys2Proof.Machine.execTimSrcWrite ini val s
  | .trmRoleOff ini val => Sys2Proof.Machine.execTrmRoleOff ini val s
  | .trmRoleFollower ini val => Sys2Proof.Machine.execTrmRoleFollower ini val s
  | .trmRoleLeader ini val => Sys2Proof.Machine.execTrmRoleLeader ini val s
  | .iocalStart ini val => Sys2Proof.Machine.execIocalStart ini val s
  | .glbRstWrite ini val => Sys2Proof.Machine.execGlbRstWrite ini val s
  | .fanModeWrite ini fan val => Sys2Proof.Machine.execFanModeWrite ini fan val s
  | .thrStreamPrepare tenant handle => Sys2Proof.Machine.execThrStreamPrepare tenant handle s
  | .thrStreamPrepared => Sys2Proof.Machine.execThrStreamPrepared s
  | .thrBlockStart lane => Sys2Proof.Machine.execThrBlockStart lane s
  | .thrBlockDone lane => Sys2Proof.Machine.execThrBlockDone lane s
  | .millBlock lane capture => Sys2Proof.Machine.execMillBlock lane capture s
  | .glazeLine lane => Sys2Proof.Machine.execGlazeLine lane s
  | .glazeBand lane => Sys2Proof.Machine.execGlazeBand lane s
  | .glazePoolWaitEnd => Sys2Proof.Machine.execGlazePoolWaitEnd s
  | .tillerRowLine engine row => Sys2Proof.Machine.execTillerRowLine engine row s
  | .entryRestore nozzle => Sys2Proof.Machine.execEntryRestore nozzle s
  | .gapRowLine engine row => Sys2Proof.Machine.execGapRowLine engine row s
  | .fillRowLine engine row => Sys2Proof.Machine.execFillRowLine engine row s
  | .underrunReversal engine row => Sys2Proof.Machine.execUnderrunReversal engine row s
  | .tillerSweep nozzle => Sys2Proof.Machine.execTillerSweep nozzle s
  | .tillerComparatorTrip engine => Sys2Proof.Machine.execTillerComparatorTrip engine s
  | .tillerThrottleEnd engine => Sys2Proof.Machine.execTillerThrottleEnd engine s
  | .autoSplit head => Sys2Proof.Machine.execAutoSplit head s
  | .paceStepEdge input rising dir clean t => Sys2Proof.Machine.execPaceStepEdge input rising dir clean t s
  | .kilnSheafShift head t => Sys2Proof.Machine.execKilnSheafShift head t s
  | .rowLineUnderrun head row t => Sys2Proof.Machine.execRowLineUnderrun head row t s
  | .fireEdge head => Sys2Proof.Machine.execFireEdge head s
  | .firedWindowCompare plane win => Sys2Proof.Machine.execFiredWindowCompare plane win s
  | .frameMarkEnd mark => Sys2Proof.Machine.execFrameMarkEnd mark s
  | .channelPause ch t => Sys2Proof.Machine.execChannelPause ch t s
  | .planePause plane t => Sys2Proof.Machine.execPlanePause plane t s
  | .pauseTickle plane t => Sys2Proof.Machine.execPauseTickle plane t s
  | .pauseSpoil plane t => Sys2Proof.Machine.execPauseSpoil plane t s
  | .tripInput input low t => Sys2Proof.Machine.execTripInput input low t s
  | .hlkForwardFrame head => Sys2Proof.Machine.execHlkForwardFrame head s
  | .hlkRxStatus head pg ready lock descr crc miss t => Sys2Proof.Machine.execHlkRxStatus head pg ready lock descr crc miss t s
  | .hlkRxTemp head temps valid => Sys2Proof.Machine.execHlkRxTemp head temps valid s
  | .hlkRxFault head code row detail => Sys2Proof.Machine.execHlkRxFault head code row detail s
  | .hlkRxAck head bank good => Sys2Proof.Machine.execHlkRxAck head bank good s
  | .hlkRxSync head scr => Sys2Proof.Machine.execHlkRxSync head scr s
  | .hlkRxFrameBad head => Sys2Proof.Machine.execHlkRxFrameBad head s
  | .hlkTrainTimeout head => Sys2Proof.Machine.execHlkTrainTimeout head s
  | .hlkRxTimeout head => Sys2Proof.Machine.execHlkRxTimeout head s
  | .hlkFltNFault head low t => Sys2Proof.Machine.execHlkFltNFault head low t s
  | .hlkPgDelayExpire head t => Sys2Proof.Machine.execHlkPgDelayExpire head t s
  | .pifAdcSample ch sin cos t => Sys2Proof.Machine.execPifAdcSample ch sin cos t s
  | .pifSquareSample ch a b t => Sys2Proof.Machine.execPifSquareSample ch a b t s
  | .pifIndexCapture ch rising t => Sys2Proof.Machine.execPifIndexCapture ch rising t s
  | .motGeneratorUpdate axis => Sys2Proof.Machine.execMotGeneratorUpdate axis s
  | .motPwmPeriod axis ia ib => Sys2Proof.Machine.execMotPwmPeriod axis ia ib s
  | .motSdFastFilter axis phase code => Sys2Proof.Machine.execMotSdFastFilter axis phase code s
  | .motSdLoss axis phase lost => Sys2Proof.Machine.execMotSdLoss axis phase lost s
  | .motLimitInput axis positive high => Sys2Proof.Machine.execMotLimitInput axis positive high s
  | .motStandstillTimer axis => Sys2Proof.Machine.execMotStandstillTimer axis s
  | .motEnableAdmit t => Sys2Proof.Machine.execMotEnableAdmit t s
  | .csiLongPacket port vc vcx dt wc hdrOk crcOk full bytes t => Sys2Proof.Machine.execCsiLongPacket port vc vcx dt wc hdrOk crcOk full bytes t s
  | .csiShortPacket port vc vcx kind hdrOk t => Sys2Proof.Machine.execCsiShortPacket port vc vcx kind hdrOk t s
  | .iplPipelineLine t => Sys2Proof.Machine.execIplPipelineLine t s
  | .iplStallTimeout port t => Sys2Proof.Machine.execIplStallTimeout port t s
  | .imageStore => Sys2Proof.Machine.execImageStore s
  | .winnowLineCompare port => Sys2Proof.Machine.execWinnowLineCompare port s
  | .winnowRuleTimeout copy t => Sys2Proof.Machine.execWinnowRuleTimeout copy t s
  | .gleanDumpSolve plane => Sys2Proof.Machine.execGleanDumpSolve plane s
  | .calProposalCheck plane => Sys2Proof.Machine.execCalProposalCheck plane s
  | .batchCloseTimer tenant => Sys2Proof.Machine.execBatchCloseTimer tenant s
  | .batchPost tenant => Sys2Proof.Machine.execBatchPost tenant s
  | .trmBeaconSend => Sys2Proof.Machine.execTrmBeaconSend s
  | .trmBeaconReceive a b ra rb => Sys2Proof.Machine.execTrmBeaconReceive a b ra rb s
  | .trmBeaconMissed t => Sys2Proof.Machine.execTrmBeaconMissed t s
  | .trmFollowerBurstSend => Sys2Proof.Machine.execTrmFollowerBurstSend s
  | .trmFollowerBurstReceive slot a b ra rb => Sys2Proof.Machine.execTrmFollowerBurstReceive slot a b ra rb s
  | .trmClaimTimer t => Sys2Proof.Machine.execTrmClaimTimer t s
  | .trmLeadLineLow low => Sys2Proof.Machine.execTrmLeadLineLow low s
  | .timSecondRollover => Sys2Proof.Machine.execTimSecondRollover s
  | .timSlewEnd => Sys2Proof.Machine.execTimSlewEnd s
  | .tallyCheckpointTimer => Sys2Proof.Machine.execTallyCheckpointTimer s
  | .tallyWriteBack => Sys2Proof.Machine.execTallyWriteBack s
  | .tallyCkptLate t => Sys2Proof.Machine.execTallyCkptLate t s
  | .tallyI2cBusyRetry slot => Sys2Proof.Machine.execTallyI2cBusyRetry slot s
  | .i2cStretchTimeout slot => Sys2Proof.Machine.execI2cStretchTimeout slot s
  | .crockRecordWrite good => Sys2Proof.Machine.execCrockRecordWrite good s
  | .crockCompactionDone good => Sys2Proof.Machine.execCrockCompactionDone good s
  | .snapshotTimer => Sys2Proof.Machine.execSnapshotTimer s
  | .snapshotWrite => Sys2Proof.Machine.execSnapshotWrite s
  | .calFlushTimer => Sys2Proof.Machine.execCalFlushTimer s
  | .crockGraceEnd completed => Sys2Proof.Machine.execCrockGraceEnd completed s
  | .stookEventWrite => Sys2Proof.Machine.execStookEventWrite s
  | .stookTraceWrite => Sys2Proof.Machine.execStookTraceWrite s
  | .stookThrottleTimer t => Sys2Proof.Machine.execStookThrottleTimer t s
  | .coreSleep core => Sys2Proof.Machine.execCoreSleep core s
  | .coreWake core ctx pc => Sys2Proof.Machine.execCoreWake core ctx pc s
  | .firewallDenial debug row addr write => Sys2Proof.Machine.execFirewallDenial debug row addr write s
  | .boot cs0 cs1 id0 id1 speed width good failed => Sys2Proof.Machine.execBoot cs0 cs1 id0 id1 speed width good failed s
  | .por strap => Sys2Proof.Machine.execPor strap s
  | .pinReset strap cool => Sys2Proof.Machine.execPinReset strap cool s
  | .hostReset source => Sys2Proof.Machine.execHostReset source s
  | .flr => Sys2Proof.Machine.execFlr s
  | .wdogReset => Sys2Proof.Machine.execWdogReset s
  | .sagFault cause => Sys2Proof.Machine.execSagFault cause s
  | .jtagInstruction test => Sys2Proof.Machine.execJtagInstruction test s
  | .refClockLoss => Sys2Proof.Machine.execRefClockLoss s
  | .rootPllLoss => Sys2Proof.Machine.execRootPllLoss s
  | .ddrPllLoss => Sys2Proof.Machine.execDdrPllLoss s
  | .dllLockChange locked code => Sys2Proof.Machine.execDllLockChange locked code s
  | .iocalPeriod => Sys2Proof.Machine.execIocalPeriod s
  | .iocalDone errors => Sys2Proof.Machine.execIocalDone errors s
  | .headEnableAdmit t => Sys2Proof.Machine.execHeadEnableAdmit t s
  | .autoIdle => Sys2Proof.Machine.execAutoIdle s
  | .powerExitDone => Sys2Proof.Machine.execPowerExitDone s
  | .deepEntry => Sys2Proof.Machine.execDeepEntry s
  | .deepWakeTimer t => Sys2Proof.Machine.execDeepWakeTimer t s
  | .supplyOutOfRange supply strap => Sys2Proof.Machine.execSupplyOutOfRange supply strap s
  | .thmSensorSample sensor reading good t => Sys2Proof.Machine.execThmSensorSample sensor reading good t s
  | .analogTrip => Sys2Proof.Machine.execAnalogTrip s
  | .shutdownHoldRelease t => Sys2Proof.Machine.execShutdownHoldRelease t s
  | .fanTachEdge fan t => Sys2Proof.Machine.execFanTachEdge fan t s
  | .fanSpinupEnd fan t => Sys2Proof.Machine.execFanSpinupEnd fan t s
  | .fanPauseEnd fan t => Sys2Proof.Machine.execFanPauseEnd fan t s
  | .fanTachTimeout fan t => Sys2Proof.Machine.execFanTachTimeout fan t s
  | .fanAutoUpdate fan => Sys2Proof.Machine.execFanAutoUpdate fan s
  | .fanSlow fan t => Sys2Proof.Machine.execFanSlow fan t s
  | .hlkRxMarkerFound head ofs => Sys2Proof.Machine.execHlkRxMarkerFound head ofs s
  | .hlkRxFrameGood head => Sys2Proof.Machine.execHlkRxFrameGood head s
  | .refClockReturn => Sys2Proof.Machine.execRefClockReturn s
  | .supplyReturn supply => Sys2Proof.Machine.execSupplyReturn supply s
  | .motHomeInput axis high => Sys2Proof.Machine.execMotHomeInput axis high s
  | .d0Transition => Sys2Proof.Machine.execD0Transition s
  | .powerEntryDone => Sys2Proof.Machine.execPowerEntryDone s
  | .residentFirmwareReady => Sys2Proof.Machine.execResidentFirmwareReady s
  | .tallyExchangeResponse slot bytes => Sys2Proof.Machine.execTallyExchangeResponse slot bytes s

end Sys2Proof.Machine
end

