-- ==== Sys2Proof/Machine/Pins.lean ====
section
/-! DEFINITION. The state of each pin as the state of the controller gives it (spec/25, R575; spec/26, R556). -/

namespace Sys2Proof.Machine
open Sys2Proof

/-- The pins of R575, in the order of its table; a head's, an axis's, a fan's and a camera's carry their number. -/
inductive Pin where
  | headTx (h : Nat) | headRx (h : Nat) | headPwren (h : Nat) | headFlt (h : Nat)
  | motGate (a : Nat) | motInput (a : Nat) | fanPwm (n : Nat)
  | tripN (j : Nat) | extRst | perst | thermTrip | alert | frameMark (m : Nat)
  | tramBus | tramLead | xspiCs (k : Nat) | xspiRst | ddrReset | ddrOut | pcie | cameraEncoder | tdo
  deriving DecidableEq, Repr

/-- What a pin does: an output's level, an input that is taken or not, or `unit` where its unit's own rules drive it. -/
inductive PinState where
  | low | high | highZ | released | input | ignored | unit
  deriving DecidableEq, Repr

/-- The columns of R575's table. -/
inductive PinPhase where
  | reset | run | standby | deep | shutdown
  deriving DecidableEq, Repr

/-- The column that holds: the shutdown or the analog trip, DEEP, a boot, STANDBY, and else RUN, which IDLE reads as. -/
def pinPhase (s : State) : PinPhase :=
  if s.thm.shutdown || s.thm.atrip then .shutdown
  else if s.pwr.state = .deep then .deep
  else if s.pwr.boot.isSome then .reset
  else if s.pwr.state = .standby then .standby
  else .run

/-- A level by a condition. -/
def pinLevel (b : Bool) : PinState := if b then .high else .low

/-- An open-drain output by whether it is driven. -/
def drainOf (b : Bool) : PinState := if b then .low else .released

/-- Outputs of Kiln, the head ports and the motors: low but where their unit drives them, high impedance or pulled down in DEEP. -/
def outputPin (s : State) (pin : Pin) : PinState :=
  match pin, pinPhase s with
  | .headTx _, .deep => .highZ
  | .headTx _, .run => .unit
  | .headTx _, _ => .low
  | .headPwren h, .run => pinLevel (port s h).pwren
  | .motGate _, .run => .unit
  | .frameMark m, .run => pinLevel (s.kln.marks.contains m)
  | _, _ => .low

/-- Inputs: ignored in DEEP and in shutdown. -/
def inputPin (s : State) : PinState :=
  match pinPhase s with
  | .deep | .shutdown => .ignored
  | _ => .input

/-- The state of a pin (R575). -/
def pinState (s : State) (pin : Pin) : PinState :=
  let ph := pinPhase s
  match pin with
  | .headTx _ | .headPwren _ | .motGate _ | .frameMark _ => outputPin s pin
  | .headRx _ | .headFlt _ | .motInput _ | .cameraEncoder => inputPin s
  | .fanPwm n => if pwmHigh s n = 4000 then .high else if pwmHigh s n = 0 then .low else .unit
  | .tripN _ | .extRst | .perst => .input
  | .thermTrip => drainOf (thermTripLow s)
  | .alert => drainOf (alertLow s)
  | .tramBus => if ph = .run ∨ ph = .standby then .unit else .highZ
  | .tramLead => drainOf (decide (ph = .run ∨ ph = .standby) && decide (s.trm.state = .leader))
  | .xspiCs _ =>
    if ph = .run ∨ ph = .standby ∨ (ph = .shutdown ∧ s.crk.grace = some true) then .unit else .high
  | .xspiRst => if ph = .reset ∧ (s.pwr.boot = some .por ∨ s.pwr.boot = some .pin) then .low else .high
  | .ddrReset => pinLevel (decide (ph = .run ∨ ph = .standby))
  | .ddrOut => if ph = .deep then .highZ else .unit
  | .pcie => if ph = .deep then .highZ else .unit
  | .tdo => .highZ

end Sys2Proof.Machine
end

