-- ==== Sys2Proof/Safety.lean ====
section
/-! DEFINITION. The terms statements are written in: the parts of the state, what it is that a command leaves a part unchanged, and
what an untroubled run keeps. -/

namespace Sys2Proof.Machine
open Sys2Proof

/-- The kind of the page a register key lies on. -/
def keyKind (k : Nat) : PageKind := pageKind (keyAddr k / 0x1000)

/-- The parts of the state. `reg K` is the registers and page headers of the pages of a kind; `reads` what reads have captured, held
and returned; `msix` the pending interrupt messages; `memory` the threshold arrays' addressed bytes; `entries` the nozzle entries;
`fuses` the life-cycle fuses. -/
inductive Part where
  | queue | free | out | reg (k : PageKind) | reads | clock | rings | msix | hif | stk | fw | jobs | thr | mil | glz
  | memory | entries | til | kln | ports | pif | mot | pwr | crk | fuses | sag | tly | trm | clk | thm | fans | ipl | win
  | gln | cal
  deriving DecidableEq, Repr

/-- A part reads in `t` as it reads in `s`. -/
def Part.same (s t : State) : Part → Prop
  | .queue => t.pending = s.pending
  | .free => t.free = s.free
  | .out => t.out = s.out
  | .reg k => (∀ a, keyKind a = k → rd t a = rd s a ∧ rdShadow t a = rdShadow s a) ∧
      ∀ n, pageKind n = k → getPage t n = getPage s n
  | .reads => t.regs.hold = s.regs.hold ∧ t.regs.snap = s.regs.snap ∧ t.regs.rdata = s.regs.rdata
  | .clock => t.clock = s.clock
  | .rings => t.hif.rings = s.hif.rings
  | .msix => t.hif.msixPend = s.hif.msixPend
  | .hif => { t.hif with rings := [], msixPend := [] } = { s.hif with rings := [], msixPend := [] }
  | .stk => t.stk = s.stk
  | .fw => t.fw = s.fw
  | .jobs => t.jobs = s.jobs
  | .thr => t.thr = s.thr
  | .mil => t.mil = s.mil
  | .glz => t.glz = s.glz
  | .memory => ∀ a, memRead t.til.arrays a = memRead s.til.arrays a
  | .entries => t.til.entries = s.til.entries ∧ t.til.lastOf = s.til.lastOf
  | .til => { t.til with arrays := [], entries := [], lastOf := [] } =
      { s.til with arrays := [], entries := [], lastOf := [] }
  | .kln => t.kln = s.kln
  | .ports => t.ports = s.ports
  | .pif => t.pif = s.pif
  | .mot => t.mot = s.mot
  | .pwr => t.pwr = s.pwr
  | .crk => t.crk = s.crk
  | .fuses => t.sag.fuses = s.sag.fuses
  | .sag => { t.sag with fuses := [] } = { s.sag with fuses := [] }
  | .tly => t.tly = s.tly
  | .trm => t.trm = s.trm
  | .clk => t.clk = s.clk
  | .thm => t.thm = s.thm
  | .fans => t.fans = s.fans
  | .ipl => t.ipl = s.ipl
  | .win => t.win = s.win
  | .gln => t.gln = s.gln
  | .cal => t.cal = s.cal

/-- Nothing changes but the parts listed. -/
def Only (ps : List Part) (s t : State) : Prop := ∀ p, p ∉ ps → p.same s t

/-- The registers and headers of every page. -/
def allRegs : List Part :=
  [.reg .glb, .reg .clk, .reg .pwr, .reg .thm, .reg .fan, .reg .tim, .reg .stk, .reg .crk, .reg .sag, .reg .tly, .reg .hif,
   .reg .mem, .reg .thr, .reg .mil, .reg .glz, .reg .tilC, .reg .tilE, .reg .klnC, .reg .klnP, .reg .hlk, .reg .pifC,
   .reg .pifCh, .reg .motC, .reg .motA, .reg .iplC, .reg .iplP, .reg .win, .reg .gln, .reg .cal, .reg .trm]

/-- A write to a register's page gets through: the page is mapped and powered, its owner admits the initiator, and no soft reset is in
progress (R37, R56, R59, R60). -/
def Writable (ini : Initiator) (addr : Nat) (s : State) : Bool :=
  clocked s && pageUp s (addr / 0x1000) && admits ini (getPage s (addr / 0x1000)).owner && !pageBusy s (addr / 0x1000)

/-! ## What a command of resident firmware comes to (R115 to R129) -/

/-- A command that names no object. -/
abbrev noObjs : Nat → List Nat := fun _ => []

/-- A command is taken and its checks and effects begin: the ring may give it (R121, R122), its opcode is defined and its reserved bytes are
zero (R115), its ring class is admitted (R119), and no earlier command bars it by the objects it names, itself or in its stream
(R123). -/
def Admitted (d : Desc) (cls : RingClass) (objs : Nat → List Nat) (s : State) : Bool :=
  takeable d s && decide (d.flaw = .none) && !d.rsvd && classAdmits cls d.ring.val (ring s d.ring.val).tenant &&
    !blockedBy s s.fw.nextSeq (objs (ring s d.ring.val).tenant)

/-- What completing with a status and a result leaves in `t` of the records in `s`, `u` being the state it takes place in: the bulk output
`ws` is written and the record is at the end of the paired completion ring, or none is where QUIET suppresses it, or they are held while
that ring takes nothing (R65, R70, R117). -/
def Recorded (h : Hdr) (ws : List (Nat × List Byte)) (status result : Nat) (s u t : State) : Prop :=
  let n := h.paired
  let r := cplRecord h status result s
  let hold := fun (x : Option Record) =>
    (ring t n).entries = (ring s n).entries ∧ t.fw.held = s.fw.held ++ [⟨n, x, h.d.ring.val, h.seq, ws⟩]
  if suppressed h status then
    if mayComplete h true u && (ws.isEmpty || canIssue u) then
      (ring t n).entries = (ring s n).entries ∧ t.fw.held = s.fw.held ∧ ∀ w ∈ ws, .hostWrite w.1 w.2 ∈ t.out
    else hold none
  else if mayComplete h false u then
    (ring t n).entries = (ring s n).entries ++ [r] ∧ (ring t n).pi = ((ring s n).pi + 1) % idxMod ∧ t.fw.held = s.fw.held ∧
      ∀ w ∈ ws, .hostWrite w.1 w.2 ∈ t.out
  else hold (some r)

/-- The command taken in `s` is completed in `t` with bulk output, a status and a result: CI has passed its entry (R69), it is in no table,
and its output and record are as `Recorded` says. -/
def CompletedWith (ws : List (Nat × List Byte)) (d : Desc) (status result : Nat) (s t : State) : Prop :=
  (ring t d.ring.val).ci = (hdrOf d s).ci ∧ (∀ p ∈ t.fw.parked, p.h.seq ≠ (hdrOf d s).seq) ∧
  Recorded (hdrOf d s) ws status result s (taken d s) t

/-- The command taken in `s` is completed in `t` with a status and a result, without bulk output. -/
def Completed (d : Desc) (status result : Nat) (s t : State) : Prop := CompletedWith [] d status result s t

/-- A command that waited, accepted or not, is completed in `t` with a status and a result: it is in no table any more, and its record
is as `Recorded` says. -/
def Finished (h : Hdr) (status result : Nat) (s t : State) : Prop :=
  (∀ p ∈ t.fw.parked, p.h.seq ≠ h.seq) ∧ Recorded h [] status result s s t

/-- The command taken in `s` is accepted and not completed in `t` (R123, R127): CI has passed its entry, and it is in the table of
commands not completed, waiting for the latches of pages and marks and for what its keys name. -/
def Accepted (d : Desc) (c : Instr) (pages waits : List Nat) (s t : State) : Prop :=
  (ring t d.ring.val).ci = (hdrOf d s).ci ∧
  ∃ p ∈ t.fw.parked, p.h = hdrOf d s ∧ p.cmd = c ∧ p.accepted = true ∧ (∀ n ∈ p.pages, n ∈ pages) ∧ p.waits = waits

/-- The command taken in `s` waits in `t` before its acceptance, with what it names and what it waits for (R116, R123, R538). -/
def Waits (d : Desc) (c : Instr) (objs waits : List Nat) (s t : State) : Prop :=
  (ring t d.ring.val).ci = (hdrOf d s).ci ∧
  ∃ p ∈ t.fw.parked, p.h = hdrOf d s ∧ p.cmd = c ∧ p.accepted = false ∧ p.objs = objs ∧ p.waits = waits

/-- Every unit is at rest in `t`, as a reset leaves it (R530, R532, R534): no command is held or waits, no ring, tenant or axis is enabled,
every plane is STOPPED, every head port is OFF with PWREN low, and every key slot is empty. -/
def AtRest (t : State) : Prop :=
  t.fw.parked = [] ∧ t.fw.held = [] ∧ t.fw.ready = false ∧ (∀ n, (ring t n).state = .disabled) ∧
  (∀ i, (tenant t i).state = .disabled) ∧ (∀ h, (port t h).pwren = false ∧ (port t h).link = .off) ∧
  (∀ p, (plane t p).state = .stopped) ∧ (∀ a, (axis t a).state = .disabled) ∧ ∀ i, (sagTenant t i).key = none

/-- No reset stronger than `k` is being carried out in `s` (R531). -/
def Governs (k : RstKind) (s : State) : Prop := ∀ k', s.pwr.boot = some k' → k.rank ≤ k'.rank

/-- The boot that follows a reset of kind `k` has begun in `t`: the units are at rest, the controller is in RUN, and GLB_RST_CAUSE holds the
cause (R530, R531). -/
def Rebooting (k : RstKind) (cause : Nat) (t : State) : Prop :=
  AtRest t ∧ t.pwr.boot = some k ∧ t.pwr.state = .run ∧ rn t Reg.GLB_RST_CAUSE = cause

/-- What taking and completing a command may change beside its own effect. -/
def completionParts : List Part := [.fw, .rings, .msix, .out, .stk, .reg .stk]

/-- What accepting a command may change beside its own effect. -/
def takingParts : List Part := [.fw, .rings]

end Sys2Proof.Machine
end

