-- ==== Sys2Proof/Certificates/Slice0/Obligations.lean ====
section
/-! DEFINITION. The statements of this model, for the provers (OBLIGATIONS.json). -/

open Sys2Proof Sys2Proof.Machine

/-- When a command c stands at the front of the queue, a step is exec of c on the state whose queue is the rest. The queue is the model's own (notes/assumptions/1.md). -/
def Obligations.StepTakesFront : Prop :=
  ∀ (c : Instr) (r : List Instr) (s : State), s.pending = c :: r → step s = exec c { s with pending := r }

/-- With an empty queue a step advances the fire timebase by 32 units of 39.0625 ps, which is one CK_FIRE cycle (R273), and changes nothing but the clocks, Stook's token bucket and what press time's wrap posts. That time passes on an empty queue is the model's choice (notes/assumptions/1.md). -/
def Obligations.IdleTick : Prop :=
  ∀ s : State, s.pending = [] → ∃ t, step s = .next t ∧ t.clock.fire = s.clock.fire + 32 ∧ t.pending = [] ∧
    Only [.clock, .msix, .out, .rings, .stk, .reg .stk, .reg .tim] s t

/-- Whatever command is run in whatever state, the queue of waiting commands in the next state is the queue as it was. Commands enter the queue from outside only; the queue is the model's own (notes/assumptions/1.md). -/
def Obligations.CommandsLeaveTheQueue : Prop :=
  ∀ (i : Instr) (s t : State), exec i s = .next t → t.pending = s.pending

/-- exec answers a next state for every command in every state, and step does for every state: a wrong command completes with a status (R118), a wrong access is refused and counted (R56, R59), and nothing stops the machine. -/
def Obligations.EveryStepAnswers : Prop :=
  (∀ (i : Instr) (s : State), ∃ t, exec i s = .next t) ∧ ∀ s : State, ∃ t, step s = .next t

/-- In the state right after reset the list of the threshold arrays' bytes is in its canonical form: addresses strictly rising and no entry equal to what an unlisted byte reads as. That an unlisted byte reads 0 is the model's choice (notes/assumptions/66.md). -/
def Obligations.ArraysCanonicalAtReset : Prop :=
  Memory.wf State.reset.til.arrays = true ∧ ∀ a, memRead State.reset.til.arrays a = 0

/-- From every state whose threshold arrays' byte list is canonical (addresses strictly rising, no entry equal to what an unlisted byte reads as), a step that answers a next state answers one whose list is canonical: equal array contents are equal data. The bytes are addressed as R214 lays them out. -/
def Obligations.ArraysStayCanonical : Prop :=
  ∀ s t : State, Memory.wf s.til.arrays = true → step s = .next t → Memory.wf t.til.arrays = true

/-- From every state, a step that answers a next state answers one whose life-cycle state (that of the highest fuse bit with two or more copies blown, R455) is not earlier. A command that may change the fuses at all is LIFECYCLE_ADVANCE, its resumption after a wait, or BOOT, which completes the programming of a bit (R455). -/
def Obligations.LifecycleNeverGoesBack : Prop :=
  (∀ s t : State, step s = .next t → lifecycle s ≤ lifecycle t) ∧
  (∀ (i : Instr) (s t : State), exec i s = .next t → t.sag.fuses ≠ s.sag.fuses →
     (∃ d target handle, i = .lifecycleAdvance d target handle) ∨ (∃ seq, i = .parkedCommandResume seq) ∨
       ∃ a b c d e f g h, i = .boot a b c d e f g h)

/-- Right after reset the life-cycle state is 1, VENDOR, as a part is delivered (R605); GLB_CHIP_ID reads 0x7240_0100 (R6); every ring is DISABLED (R88); every plane is STOPPED; every head port is OFF with its power enable low; every Tally slot is empty; the journal is not mounted; no job, copy or stream exists and no command is parked. The values no rule gives are the model's choice (notes/assumptions/3.md, notes/assumptions/4.md). -/
def Obligations.ResetState : Prop :=
  lifecycle State.reset = 1 ∧ rd State.reset Reg.GLB_CHIP_ID = 0x72400100#32 ∧
    (∀ n, (ring State.reset n).state = .disabled) ∧ (∀ p, (plane State.reset p).state = .stopped) ∧
    (∀ h, (port State.reset h).link = .off ∧ (port State.reset h).pwren = false) ∧
    (∀ n, (tlySlot State.reset n).state = 0) ∧ State.reset.crk.state = .absent ∧
    State.reset.jobs.jobs = [] ∧ State.reset.jobs.copies = [] ∧ State.reset.jobs.streams = [] ∧ State.reset.fw.parked = []

/-- For a command at the front of an admitting ring: NOP completes with 0x0000; DEVICE_INFO completes with the device information table of R130; RING_CREATE with operands in range on a DISABLED ring makes it ACTIVE with exactly the fields given, and on an event ring after a boot sends SAG_BOOT_DONE; RING_DESTROY stops the ring and is accepted; RING_DESTROY_DONE on a drained ring that is being destroyed makes it DISABLED and frees what waits for it; RING_QUERY completes with state, type, size, tenant and indices. Each answers a next state and changes nothing outside the parts named. What QUIET, a full completion ring and held completions do to the record is part of Completed. That the commands that wait are told at RING_DESTROY_DONE at once is the model's reading (a row of the opcode table). -/
def Obligations.RingCommandsRun : Prop :=
  (∀ (d : Desc) (s : State), Admitted d .t noObjs s = true →
     ∃ t, exec (.nop d) s = .next t ∧ Completed d 0 0 s t ∧ Only completionParts s t) ∧
  (∀ (d : Desc) (s : State), Admitted d .t noObjs s = true →
     ∃ t, exec (.deviceInfo d) s = .next t ∧ Completed d 0 (deviceInfo s) s t ∧ Only completionParts s t) ∧
  (∀ (d : Desc) (n : BitVec 16) (typ size : BitVec 8) (ten paired vector : BitVec 16) (imodCnt : BitVec 8) (imodTime : BitVec 16)
     (base wb : DWord) (ty : RingType) (s : State),
     Admitted d .s (fun _ => [objRing n.toNat, objTenant ten.toNat]) s = true → ringType typ.toNat = some ty →
     ringOperands n.toNat ty size.toNat ten.toNat vector.toNat imodCnt.toNat base.toNat wb.toNat = true →
     (ring s n.toNat).state = .disabled →
     (ty = .command → (ring s paired.toNat).state ≠ .disabled ∧ (ring s paired.toNat).typ = .completion ∧
       (ring s paired.toNat).tenant = ten.toNat) →
     (ten.toNat ≠ 0 → (tenant s ten.toNat).state = .enabled) → (ring s d.ring.val).paired ≠ n.toNat →
     (s.pwr.bootHeld = true → ty ≠ .event) →
     ∃ t, exec (.ringCreate d n typ size ten paired vector imodCnt imodTime base wb) s = .next t ∧
       (Completed d 0 0 s t ∧
         ring t n.toNat = { Ring.init with
           state := .active, typ := ty, log2 := size.toNat, base := base, tenant := ten.toNat, wb := wb,
           paired := if ty = .command then paired.toNat else 0, vector := if ty.produced then vector.toNat else 0,
           imodCnt := if ty.produced then imodCnt.toNat else 1, imodTime := if ty.produced then imodTime.toNat else 0 }) ∧
       Only (completionParts ++ ([.pwr] : List Part)) s t) ∧
  (∀ (d : Desc) (n : BitVec 16) (typ size : BitVec 8) (ten paired vector : BitVec 16) (imodCnt : BitVec 8) (imodTime : BitVec 16)
     (base wb : DWord) (s : State),
     Admitted d .s (fun _ => [objRing n.toNat, objTenant ten.toNat]) s = true → typ = 3 →
     ringOperands n.toNat .event size.toNat ten.toNat vector.toNat imodCnt.toNat base.toNat wb.toNat = true →
     (ring s n.toNat).state = .disabled → (ten.toNat ≠ 0 → (tenant s ten.toNat).state = .enabled) →
     (ring s d.ring.val).paired ≠ n.toNat → s.pwr.bootHeld = true → rbit s Reg.STK_CTRL 0 = true → s.stk.staging.length < 512 →
     ∃ t, exec (.ringCreate d n typ size ten paired vector imodCnt imodTime base wb) s = .next t ∧
       (Completed d 0 0 s t ∧ (ring t n.toNat).state = .active ∧ (ring t n.toNat).typ = .event ∧ t.pwr.bootHeld = false ∧
         ∃ e, t.stk.staging = s.stk.staging ++ [e] ∧ e.code = 0x0902 ∧ e.seq = rd s Reg.STK_EVT_SEQ ∧
           e.payload = le 1 (lifecycle s) ++ le 4 s.sag.patchLevel ++ le 1 (rn s Reg.GLB_RST_CAUSE)) ∧
       Only (completionParts ++ ([.pwr] : List Part)) s t) ∧
  (∀ (d : Desc) (n : BitVec 16) (s : State), Admitted d .s (fun _ => [objRing n.toNat]) s = true → 2 ≤ n.toNat → n.toNat < 8192 →
     (ring s n.toNat).state ≠ .disabled →
     ((ring s n.toNat).typ = .completion →
       ∀ e ∈ s.hif.rings, e.2.typ = .command → e.2.state ≠ .disabled → e.2.paired ≠ n.toNat) →
     (ring s d.ring.val).paired ≠ n.toNat →
     ∃ t, exec (.ringDestroy d n) s = .next t ∧
       (Accepted d (.ringDestroy d n) [] [keyRing n.toNat] s t ∧ (ring t n.toNat).state = .stopped ∧
         (ring t n.toNat).destroying = true ∧ (ring t n.toNat).fetched = 0) ∧
       Only completionParts s t) ∧
  (∀ (n : Fin 8192) (s : State), (ring s n.val).destroying = true → ringDrained s n.val = true →
     ∃ t, exec (.ringDestroyDone n) s = .next t ∧
       (ring t n.val = Ring.init ∧ (∀ p ∈ t.fw.parked, keyRing n.val ∉ p.waits)) ∧ Only completionParts s t) ∧
  (∀ (d : Desc) (n : BitVec 16) (s : State), Admitted d .s noObjs s = true → n.toNat < 8192 → (ring s n.toNat).state ≠ .disabled →
     n.toNat ≠ d.ring.val →
     ∃ t, exec (.ringQuery d n) s = .next t ∧
       Completed d 0 (res 16 (ring s n.toNat).state.code + res 17 (ring s n.toNat).typ.code + res 18 (ring s n.toNat).log2 +
         res 20 (ring s n.toNat).tenant + res 22 (ring s n.toNat).pi + res 26 (ring s n.toNat).ci) s t ∧ Only completionParts s t) ∧
  (∀ (d : Desc) (n : BitVec 16) (s : State), Admitted d .s noObjs s = true → n.toNat = d.ring.val →
     ∃ t, exec (.ringQuery d n) s = .next t ∧
       Completed d 0 (res 16 1 + res 18 (ring s n.toNat).log2 + res 20 (ring s n.toNat).tenant + res 22 (ring s n.toNat).pi +
         res 26 (hdrOf d s).ci) s t ∧ Only completionParts s t)

/-- TENANT_ENABLE on a DISABLED tenant with limits in range makes it ENABLED with the limits given (16 jobs and 64 copies where 0 is given) and leaves every other tenant. TENANT_DISABLE on an ENABLED tenant makes it DRAINING, stops its rings, leaves none of its copies QUEUED or READY and is accepted. The end of its transfers and of Thresher's work wipes its key and streams; the end of Glaze's work makes it DISABLED, drops its tiles, jobs and templates and frees what waits for it. TENANT_QUERY completes with the status record of R112. Each answers a next state and changes nothing outside the parts named. -/
def Obligations.TenantCommandsRun : Prop :=
  (∀ (d : Desc) (ten jobs copies : BitVec 16) (s : State), Admitted d .s (fun _ => [objTenant ten.toNat]) s = true →
     0 < ten.toNat → ten.toNat < 1024 → (tenant s ten.toNat).state = .disabled → jobs.toNat ≤ 1024 → copies.toNat ≤ 1024 →
     ∃ t, exec (.tenantEnable d ten jobs copies) s = .next t ∧
       (Completed d 0 0 s t ∧
         tenant t ten.toNat = { tenant s ten.toNat with
           state := .enabled, maxJobs := if jobs.toNat = 0 then 16 else jobs.toNat,
           maxCopies := if copies.toNat = 0 then 64 else copies.toNat, drainStep := 0 } ∧
         ∀ u, u ≠ ten.toNat → tenant t u = tenant s u) ∧
       Only (completionParts ++ ([.jobs] : List Part)) s t) ∧
  (∀ (d : Desc) (ten : BitVec 16) (s : State), Admitted d .s (fun _ => [objTenant ten.toNat]) s = true → ten.toNat ≠ 0 →
     (tenant s ten.toNat).state = .enabled →
     ∃ t, exec (.tenantDisable d ten) s = .next t ∧
       (Accepted d (.tenantDisable d ten) [] [keyTenant ten.toNat] s t ∧ (tenant t ten.toNat).state = .draining ∧
         (∀ n, (ring t n).tenant = ten.toNat → (ring t n).state ≠ .active) ∧
         ∀ c x, findCopy t c = some x → x.tenant = ten.toNat → ¬(x.state = .queued ∨ x.state = .ready)) ∧
       Only (completionParts ++ ([.crk, .free, .glz, .hif, .jobs, .kln, .reg .hif, .reg .klnC, .sag, .thr] : List Part)) s t) ∧
  (∀ (ten : Fin 1024) (s : State), (tenant s ten.val).drainStep = 3 → tenantReads s ten.val = 0 → thresherDone s ten.val = true →
     ∃ t, exec (.tenantDrainKeyWipe ten) s = .next t ∧
       ((sagTenant t ten.val).key = none ∧ (tenant t ten.val).drainStep = 4 ∧ (∀ x ∈ t.jobs.streams, x.tenant ≠ ten.val) ∧
         ∀ x ∈ t.thr.ready, x.1 ≠ ten.val) ∧
       Only (completionParts ++ ([.glz, .jobs, .sag, .thr] : List Part)) s t) ∧
  (∀ (ten : Fin 1024) (s : State), (tenant s ten.val).drainStep = 4 →
     (∀ x ∈ liveCopies s, x.tenant = ten.val → ∀ p ∈ copyPlanes s x, glazeLeft s x p = true) →
     ∃ t, exec (.tenantDrainDone ten) s = .next t ∧
       ((tenant t ten.val).state = .disabled ∧ (∀ x ∈ t.glz.tiles, x.tenant ≠ ten.val) ∧ (∀ x ∈ t.jobs.jobs, x.tenant ≠ ten.val) ∧
         (∀ x ∈ t.jobs.templates, x.tenant ≠ ten.val) ∧ ∀ p ∈ t.fw.parked, keyTenant ten.val ∉ p.waits) ∧
       Only (completionParts ++ ([.crk, .free, .glz, .jobs, .sag] : List Part)) s t) ∧
  (∀ (d : Desc) (ten : BitVec 16) (s : State), Admitted d .t noObjs s = true → mayName (hdrOf d s) ten.toNat = true →
     ∃ t, exec (.tenantQuery d ten) s = .next t ∧ Completed d 0 (tenantRecord ten.toNat (taken d s)).1 s t ∧ Only (completionParts ++ ([.free] : List Part)) s t)

/-- JOB_OPEN of a job and nonce the tenant does not hold, within the limits, adds an open job. JOB_CLOSE lets the job take no further submissions and is accepted; JOB_ABORT does the same and leaves none of its copies QUEUED or READY. Once every copy of the job is SEALED, the job and its page templates are gone and its parked command is no longer in the table. Each answers a next state and changes nothing outside the parts named. -/
def Obligations.JobCommandsRun : Prop :=
  (∀ (d : Desc) (j : Word) (nonce : DWord) (s : State), Admitted d .t (fun t => [objJob t j.toNat]) s = true →
     (∀ x ∈ s.jobs.jobs, x.tenant = (hdrOf d s).tenant → x.id ≠ j.toNat ∧ x.nonceBase ≠ nonce) → s.jobs.jobs.length < 1024 →
     (s.jobs.jobs.filter fun x => decide (x.tenant = (hdrOf d s).tenant)).length < (tenant s (hdrOf d s).tenant).maxJobs →
     ((hdrOf d s).tenant ≠ 0 → (tenant s (hdrOf d s).tenant).state ≠ .draining) →
     ∃ t, exec (.jobOpen d j nonce) s = .next t ∧
       (Completed d 0 0 s t ∧ t.jobs.jobs = s.jobs.jobs ++
         [{ tenant := (hdrOf d s).tenant, id := j.toNat, state := .isOpen, nonceBase := nonce, maxCopy := 0 }]) ∧
       Only (completionParts ++ ([.jobs] : List Part)) s t) ∧
  (∀ (d : Desc) (j : Word) (s : State), Admitted d .t (fun t => [objJob t j.toNat]) s = true →
     (findJob s (hdrOf d s).tenant j.toNat).isSome = true →
     ∃ t, exec (.jobClose d j) s = .next t ∧
       (Accepted d (.jobClose d j) [] [] s t ∧ t.jobs.jobs = s.jobs.jobs.map (fun x =>
         if x.tenant = (hdrOf d s).tenant ∧ x.id = j.toNat then { x with state := .closing } else x) ∧
         t.jobs.copies = s.jobs.copies) ∧
       Only (completionParts ++ ([.jobs] : List Part)) s t) ∧
  (∀ (d : Desc) (j : Word) (s : State), Admitted d .t (fun t => [objJob t j.toNat]) s = true →
     (findJob s (hdrOf d s).tenant j.toNat).isSome = true →
     ∃ t, exec (.jobAbort d j) s = .next t ∧
       (Accepted d (.jobAbort d j) [] [] s t ∧ ∀ c x, findCopy t c = some x → x.tenant = (hdrOf d s).tenant → x.job = j.toNat →
         ¬(x.state = .queued ∨ x.state = .ready)) ∧
       Only (completionParts ++ ([.crk, .free, .glz, .hif, .jobs, .kln, .reg .hif, .reg .klnC, .sag, .thr] : List Part)) s t) ∧
  (∀ (q : Parked) (d : Desc) (j : Word) (s : State), findParked s q.h.seq = some q →
     q.cmd = .jobClose d j ∨ q.cmd = .jobAbort d j → q.accepted = true →
     (∀ c ∈ s.jobs.copies, c.tenant = q.h.tenant → c.job = j.toNat → c.state = .sealed) →
     ∃ t, exec (.jobEndDone q.h.seq) s = .next t ∧
       ((∀ x ∈ t.jobs.jobs, ¬(x.tenant = q.h.tenant ∧ x.id = j.toNat)) ∧
         (∀ x ∈ t.jobs.templates, ¬(x.tenant = q.h.tenant ∧ x.job = j.toNat)) ∧ findParked t q.h.seq = none) ∧
       Only (completionParts ++ ([.crk, .free, .jobs, .sag] : List Part)) s t)

/-- PAGE_LOAD of a complete stream whose record is a page of an open job, with streams of the tenant and room in the tables, adds the template and completes with job and page. PAGE_RELEASE of a template marks it and is accepted; once no unsealed copy names the page, PAGE_RELEASE_DONE drops the template and completes the command. LATCH_COMMAND_COMPLETE of an accepted class F or B command whose pages have latched completes it, with status 1 for a late class F command and the frame slot of its latch as result. PARKED_COMMAND_RESUME runs a waiting command's checks and effects once nothing bars it; shown for JOB_OPEN. Each answers a next state and changes nothing outside the parts named. -/
def Obligations.PageCommandsRun : Prop :=
  (∀ (d : Desc) (handle : Word) (x : Stream) (p : Template) (j : Job) (s : State), Admitted d .t (fun _ => streamObjs s (hdrOf d s) (.pageLoad d handle)) s = true →
     findStream s (ring s d.ring.val).tenant handle.toNat = some x → x.failed = false → x.complete = true →
     pageRecord (ring s d.ring.val).tenant x.bytes = some p → findJob s p.tenant p.job = some j → j.state = .isOpen →
     (∀ y ∈ s.jobs.templates, y.tenant = p.tenant → y.job = p.job → y.page ≠ p.page) →
     (∀ q ∈ p.planes, ∃ y, findStream s p.tenant q.handle = some y ∧ (p.tenant = 0 → y.sealed = false) ∧ pageClash y p q = none) →
     (p.tenant = 0 → p.sealed = false) →
     (s.jobs.templates.filter fun y => decide (y.tenant = p.tenant ∧ y.job = p.job)).length < 4096 → s.jobs.templates.length < 16384 →
     ∃ t, exec (.pageLoad d handle) s = .next t ∧
       (Completed d 0 (res 16 p.job + res 20 p.page) s t ∧ t.jobs.templates = s.jobs.templates ++ [p]) ∧ Only (completionParts ++ ([.crk, .free, .glz, .hif, .jobs, .kln, .reg .hif, .reg .klnC, .reg .thr, .sag, .thr] : List Part)) s t) ∧
  (∀ (d : Desc) (job page : Word) (s : State),
     Admitted d .t (fun t => [objJob t job.toNat, objPage t job.toNat page.toNat]) s = true →
     (template s (ring s d.ring.val).tenant job.toNat page.toNat).isSome →
     ∃ t, exec (.pageRelease d job page) s = .next t ∧
       (Accepted d (.pageRelease d job page) [] [] s t ∧
         t.jobs.templates = s.jobs.templates.map fun x =>
           if x.tenant = (ring s d.ring.val).tenant ∧ x.job = job.toNat ∧ x.page = page.toNat then { x with releasing := true } else x) ∧
       Only (completionParts ++ ([.jobs] : List Part)) s t) ∧
  (∀ (q : Parked) (d : Desc) (j p : Word) (s : State), findParked s q.h.seq = some q → q.cmd = .pageRelease d j p → q.accepted = true →
     (∀ c ∈ s.jobs.copies, c.tenant = q.h.tenant → c.job = j.toNat → c.page = p.toNat → c.state = .sealed) →
     ∃ t, exec (.pageReleaseDone q.h.seq) s = .next t ∧
       (Finished q.h 0 0 s t ∧ t.jobs.templates =
         s.jobs.templates.filter fun x => !decide (x.tenant = q.h.tenant ∧ x.job = j.toNat ∧ x.page = p.toNat)) ∧
       Only (completionParts ++ ([.jobs] : List Part)) s t) ∧
  (∀ (q : Parked) (s : State), findParked s q.h.seq = some q → (isClassF q.cmd || isClassB q.cmd) = true → q.accepted = true → q.pages = [] →
     ∃ t, exec (.latchCommandComplete q.h.seq) s = .next t ∧
       Finished q.h (if q.late && isClassF q.cmd then 1 else 0) (res 16 q.slot.toNat) s t ∧ Only completionParts s t) ∧
  (∀ (q : Parked) (d : Desc) (job : Word) (nonce : DWord) (s : State), findParked s q.h.seq = some q → mayResume s q = true →
     q.cmd = .jobOpen d job nonce → (∀ x ∈ s.jobs.jobs, x.tenant = q.h.tenant → x.id ≠ job.toNat ∧ x.nonceBase ≠ nonce) →
     s.jobs.jobs.length < 1024 →
     (s.jobs.jobs.filter fun x => decide (x.tenant = q.h.tenant)).length < (tenant s q.h.tenant).maxJobs →
     (q.h.tenant ≠ 0 → (tenant s q.h.tenant).state ≠ .draining) →
     ∃ t, exec (.parkedCommandResume q.h.seq) s = .next t ∧
       (Finished q.h 0 0 s t ∧ t.jobs.jobs = s.jobs.jobs ++ [⟨q.h.tenant, job.toNat, .isOpen, nonce, 0⟩]) ∧
       Only (completionParts ++ ([.jobs] : List Part)) s t)

/-- COPY_SUBMIT of a complete stream whose record passes the checks of R101, within the limits and the quota, completes with job and copy number and adds the copy, QUEUED or READY, with its record's contents. COPY_WITHDRAW of a QUEUED or READY copy leaves it neither, and completes. COPY_QUERY completes with state, flags and slot. STREAM_OPEN adds an empty stream of the kind asked for. STREAM_FREE of a stream no unsealed copy needs drops it and fails every command not yet accepted that names it. PATCH_STATUS writes the patch records to the host buffer. EVENT_FILTER sets the event ring's mask. Each answers a next state and changes nothing outside the parts named. -/
def Obligations.CopyCommandsRun : Prop :=
  (∀ (d : Desc) (handle : Word) (x : Stream) (p : Template) (s : State), Admitted d .t (fun _ => streamObjs s (hdrOf d s) (.copySubmit d handle)) s = true →
     findStream s (ring s d.ring.val).tenant handle.toNat = some x → x.failed = false → x.complete = true →
     copyCheck s (ring s d.ring.val).tenant x.bytes ((List.range (leAt x.bytes 14 2)).map fun i => placementAt x.bytes i)
       ((List.range (leAt x.bytes 16 2)).map fun i => windowAt x.bytes (64 + 16 * leAt x.bytes 14 2 + 32 * i)) = .ok p →
     (s.jobs.copies.filter fun c => decide (c.state = .queued ∨ c.state = .ready)).length < 1024 →
     ((s.jobs.copies.filter fun c => decide (c.state = .queued ∨ c.state = .ready)).filter fun c =>
       decide (c.tenant = (ring s d.ring.val).tenant)).length < (tenant s (ring s d.ring.val).tenant).maxCopies →
     ((ring s d.ring.val).tenant ≠ 0 → (tenant s (ring s d.ring.val).tenant).state ≠ .draining ∧
       (tenant s (ring s d.ring.val).tenant).charged.toNat + (tenant s (ring s d.ring.val).tenant).reserved.toNat <
         (tenant s (ring s d.ring.val).tenant).grant.toNat) →
     pageBad s p = false → findCopy s s.fw.nextSeq = none →
     ∃ t, exec (.copySubmit d handle) s = .next t ∧
       (Completed d 0 (res 16 p.job + res 20 (leAt x.bytes 8 4)) s t ∧
         ∃ c, findCopy t s.fw.nextSeq = some c ∧ c.tenant = (ring s d.ring.val).tenant ∧ c.job = p.job ∧ c.page = p.page ∧
           c.num = leAt x.bytes 8 4 ∧ c.mask = BitVec.ofNat 16 (leAt x.bytes 12 2) ∧
           c.placements = (List.range (leAt x.bytes 14 2)).map (fun i => placementAt x.bytes i) ∧
           (c.state = .queued ∨ c.state = .ready)) ∧
       Only (completionParts ++ ([.crk, .free, .glz, .hif, .jobs, .kln, .reg .hif, .reg .klnC, .sag, .thr] : List Part)) s t) ∧
  (∀ (d : Desc) (job copy : Word) (x : Copy) (s : State), Admitted d .t (fun t => [objJob t job.toNat]) s = true →
     namedCopy s (ring s d.ring.val).tenant job.toNat copy.toNat = some x → x.state = .queued ∨ x.state = .ready →
     ∃ t, exec (.copyWithdraw d job copy) s = .next t ∧
       ((∀ y, findCopy t x.seq = some y → ¬(y.state = .queued ∨ y.state = .ready)) ∧
         (∀ b, b ≠ x.seq → findCopy t b = findCopy s b) ∧ (∀ p ∈ t.fw.parked, p.h.seq ≠ s.fw.nextSeq)) ∧
       Only (completionParts ++ ([.crk, .free, .glz, .hif, .jobs, .kln, .reg .hif, .reg .klnC, .sag, .thr] : List Part)) s t) ∧
  (∀ (d : Desc) (job copy : Word) (x : Copy) (s : State), Admitted d .t noObjs s = true →
     namedCopy s (ring s d.ring.val).tenant job.toNat copy.toNat = some x →
     ∃ t, exec (.copyQuery d job copy) s = .next t ∧
       Completed d 0 (res 16 x.state.code + res 18 (if x.flags.word = 1 ∧ x.state ≠ .sealed then 0 else x.flags.word) +
         res 20 (x.slot.getD 0xFFFFFFFF)) s t ∧ Only completionParts s t) ∧
  (∀ (d : Desc) (handle : Word) (kind : BitVec 8) (maxLen job : Word) (s : State),
     Admitted d .t (fun t => if job = 0#32 then [] else [objJob t job.toNat]) s = true → handle.toNat ≠ 0 →
     kind.toNat ≤ 5 → findStream s (ring s d.ring.val).tenant handle.toNat = none →
     Config.spoolFits (spoolUse s + maxLen.toNat) = true → (4 ≤ kind.toNat → (ring s d.ring.val).tenant = 0) →
     ∃ t, exec (.streamOpen d handle kind maxLen job) s = .next t ∧
       (Completed d 0 0 s t ∧ ∃ x, t.jobs.streams = s.jobs.streams ++ [x] ∧ x.tenant = (ring s d.ring.val).tenant ∧
         x.handle = handle.toNat ∧ x.kind = kind.toNat ∧ x.maxLen = maxLen.toNat ∧ x.job = job.toNat ∧ x.descs = [] ∧ x.pieces = [] ∧
         x.complete = false ∧ x.failed = false) ∧
       Only (completionParts ++ ([.jobs] : List Part)) s t) ∧
  (∀ (d : Desc) (handle : Word) (s : State), Admitted d .t noObjs s = true →
     (findStream s (ring s d.ring.val).tenant handle.toNat).isSome → streamPinned s (ring s d.ring.val).tenant handle.toNat = false →
     ∃ t, exec (.streamFree d handle) s = .next t ∧
       (findStream t (ring s d.ring.val).tenant handle.toNat = none ∧
         (∀ p ∈ t.fw.parked, p.h.seq ≠ s.fw.nextSeq ∧
           (p.accepted = false → namedStream p.h p.cmd ≠ some ((ring s d.ring.val).tenant, handle.toNat))) ∧
         ((∀ p ∈ s.fw.parked, p.accepted = false → namedStream p.h p.cmd ≠ some ((ring s d.ring.val).tenant, handle.toNat)) →
           Completed d 0 0 s t)) ∧
       Only (completionParts ++ ([.glz, .jobs, .thr] : List Part)) s t) ∧
  (∀ (d : Desc) (buf : DWord) (len : Word) (s : State), Admitted d .s noObjs s = true → 16 * s.sag.patches.length ≤ len.toNat →
     ∃ t, exec (.patchStatus d buf len) s = .next t ∧
       CompletedWith [(buf.toNat, s.sag.patches.flatMap fun p =>
         le 4 p.seq ++ le 2 p.rom ++ le 1 p.status ++ le 1 0 ++ le 4 p.len ++ le 4 0)] d 0 0 s t ∧ Only completionParts s t) ∧
  (∀ (d : Desc) (n : BitVec 16) (mask : BitVec 256) (s : State), Admitted d .o (fun _ => [objRing n.toNat]) s = true → n.toNat < 8192 →
     (ring s n.toNat).typ = .event → (ring s n.toNat).state ≠ .disabled → (ring s d.ring.val).paired ≠ n.toNat →
     ∃ t, exec (.eventFilter d n mask) s = .next t ∧
       (Completed d 0 0 s t ∧ ring t n.toNat = { ring s n.toNat with filter := mask }) ∧ Only completionParts s t)

/-- TILE_LOAD of a good tile under a new identifier adds it, evicting only tiles of the tenant that no unsealed copy names, and completes where it fits without eviction; TILE_EVICT drops an unpinned tile and completes; a write of GLZ_BAND that gets through while no copy is before RULED sets it. An enabled lane takes the line or copy band whose turn it is. A line goes into the staging of every head of the plane with rows that still need it, unless its copy is late (continuous mode), or into the swath (scanning modes); past the page it is a blank line. A copy band is composited into the pool where it fits, and otherwise waits; the oldest waiting band is composited once it fits. Each answers a next state and changes nothing outside the parts named. -/
def Obligations.GlazeRuns : Prop :=
  (∀ (d : Desc) (tile : BitVec 16) (handle : Word) (x : Stream) (s : State), Admitted d .t noObjs s = true → tile.toNat ≠ 0 →
     (∀ y ∈ s.glz.tiles, ¬(y.tenant = (ring s d.ring.val).tenant ∧ y.id = tile.toNat)) →
     findStream s (ring s d.ring.val).tenant handle.toNat = some x → x.failed = false → x.complete = true → tileGood x.bytes = true →
     cdiv (leAt x.bytes 8 4) 256 ≤ granulesFree s → s.glz.tiles.length < 8192 →
     ∃ t, exec (.tileLoad d tile handle) s = .next t ∧
       (Completed d 0 0 s t ∧ t.glz.tiles = s.glz.tiles ++ [{
         tenant := (ring s d.ring.val).tenant, id := tile.toNat, format := leAt x.bytes 2 1, width := leAt x.bytes 4 2,
         height := leAt x.bytes 6 2, data := x.bytes.drop 16, granules := cdiv (leAt x.bytes 8 4) 256, stamp := s.glz.useCount,
         stream := some x.handle }]) ∧
       Only (completionParts ++ ([.glz, .reg .glz] : List Part)) s t) ∧
  (∀ (d : Desc) (tile : BitVec 16) (handle : Word) (x : Stream) (s u : State), Admitted d .t noObjs s = true → tile.toNat ≠ 0 →
     (∀ y ∈ s.glz.tiles, ¬(y.tenant = (ring s d.ring.val).tenant ∧ y.id = tile.toNat)) →
     findStream s (ring s d.ring.val).tenant handle.toNat = some x → x.failed = false → x.complete = true → tileGood x.bytes = true →
     makeRoom (ring s d.ring.val).tenant (cdiv (leAt x.bytes 8 4) 256) (s.glz.tiles.length + 1) (taken d s) = some u →
     ∃ t, exec (.tileLoad d tile handle) s = .next t ∧
       ((∃ z ∈ t.glz.tiles, z.tenant = (ring s d.ring.val).tenant ∧ z.id = tile.toNat ∧ z.width = leAt x.bytes 4 2 ∧
           z.height = leAt x.bytes 6 2 ∧ z.data = x.bytes.drop 16) ∧
         (∀ z ∈ s.glz.tiles, z.tenant ≠ (ring s d.ring.val).tenant ∨ tilePinned s z = true → z ∈ t.glz.tiles) ∧
         ∀ p ∈ t.fw.parked, p.h.seq ≠ s.fw.nextSeq) ∧
       Only (completionParts ++ ([.glz, .reg .glz] : List Part)) s t) ∧
  (∀ (d : Desc) (tile : BitVec 16) (x : Tile) (s : State), Admitted d .t noObjs s = true →
     s.glz.tiles.find? (fun x => decide (x.tenant = (ring s d.ring.val).tenant ∧ x.id = tile.toNat)) = some x → tilePinned s x = false →
     ∃ t, exec (.tileEvict d tile) s = .next t ∧ (Completed d 0 0 s t ∧ t.glz.tiles = s.glz.tiles.filter (· ≠ x)) ∧ Only (completionParts ++ ([.glz] : List Part)) s t) ∧
  (∀ (ini : Initiator) (val : Word) (s : State), Writable ini Reg.GLZ_BAND s = true →
     (∀ c ∈ s.jobs.copies, c.state ≠ .queued ∧ c.state ≠ .ready ∧ c.state ≠ .committed ∧ c.state ≠ .fired) →
     ∃ t, exec (.glzBandWrite ini val) s = .next t ∧ rn t Reg.GLZ_BAND % 8 = val.toNat % 8 ∧ Only [.msix, .out, .reg .glz, .reg .hif] s t) ∧
  (∀ (lane : Fin 4) (w : GlazeWork) (l : Nat) (s : State), rbit s Reg.GLZ_CTRL lane.val = true →
     let u := decodeDue (enqueueBlocks s)
     nextWork u = some w → w.band = false → nextPageLine u w.copy w.plane = some l → scanning u w.plane = false →
     let g := glazeAt u w.copy w.plane
     let r := takeLine w.copy w.plane g.1 l u
     let v := windowLine w.copy w.plane l r.1 (noteWinEn w.copy w.plane (inc64 Reg.GLZ_OUT_BYTES (copyStride u w.copy w.plane) r.2))
     ∃ t, exec (.glazeLine lane) s = .next t ∧
       (w.copy.seq ∉ v.glz.late → ∀ h ∈ planeHeads v w.plane, stageRows v w.copy w.plane g.1 g.2 h ≠ [] →
         ⟨w.copy.seq, g.1, g.2, r.1, stageRows v w.copy w.plane g.1 g.2 h⟩ ∈ tget t.glz.staging [] h.head) ∧
       Only [.glz, .hif, .jobs, .msix, .out, .reg .glz, .reg .hif, .reg .klnC, .reg .stk, .rings, .stk, .thr] s t) ∧
  (∀ (lane : Fin 4) (w : GlazeWork) (l : Nat) (s : State), rbit s Reg.GLZ_CTRL lane.val = true →
     let u := decodeDue (enqueueBlocks s)
     nextWork u = some w → w.band = false → nextPageLine u w.copy w.plane = some l → scanning u w.plane = true →
     ∃ t, exec (.glazeLine lane) s = .next t ∧
       (∃ e ∈ t.glz.swath, e.copy = w.copy.seq ∧ e.plane = w.plane ∧ e.line = l ∧
         e.px = (takeLine w.copy w.plane (glazeAt u w.copy w.plane).1 l u).1) ∧
       Only [.glz, .hif, .jobs, .msix, .out, .reg .glz, .reg .hif, .reg .klnC, .reg .stk, .rings, .stk, .thr] s t) ∧
  (∀ (lane : Fin 4) (w : GlazeWork) (s : State), rbit s Reg.GLZ_CTRL lane.val = true →
     let u := decodeDue (enqueueBlocks s)
     nextWork u = some w → w.band = false → nextPageLine u w.copy w.plane = none →
     let g := glazeAt u w.copy w.plane
     ∃ t, exec (.glazeLine lane) s = .next t ∧
       (w.copy.seq ∉ u.glz.late → ∀ h ∈ planeHeads u w.plane, stageRows u w.copy w.plane g.1 g.2 h ≠ [] →
         ∃ e ∈ tget t.glz.staging [] h.head, e.copy = w.copy.seq ∧ e.pass = g.1 ∧ e.line = g.2 ∧
           e.px.length = planeWidth u w.plane) ∧
       Only [.glz, .hif, .jobs, .msix, .out, .reg .glz, .reg .hif, .reg .klnC, .reg .stk, .rings, .stk, .thr] s t) ∧
  (∀ (lane : Fin 4) (w : GlazeWork) (b : Nat) (s : State), rbit s Reg.GLZ_CTRL lane.val = true →
     let u := decodeDue (enqueueBlocks s)
     nextWork u = some w → w.band = true → nextBand u w.copy w.plane = some b →
     ∃ t, exec (.glazeBand lane) s = .next t ∧
       (if poolUsed u + bandMiB u w.copy w.plane ≤ 512 then
         t.glz.bands = s.glz.bands ++ [⟨w.copy.seq, w.plane, b, bandMiB u w.copy w.plane, false, true⟩] ∧
           ∀ q ∈ (compose u w.copy w.plane (glazeAt u w.copy w.plane).1 (b * bandLines u)
               (min w.copy.page0.height (b * bandLines u + bandLines u) - b * bandLines u)).zipIdx,
             { copy := w.copy.seq, plane := w.plane, line := b * bandLines u + q.2, px := q.1 } ∈ t.glz.pool
       else t.glz.bands = s.glz.bands ++ [⟨w.copy.seq, w.plane, b, bandMiB u w.copy w.plane, true, false⟩] ∧ t.glz.pool = s.glz.pool ∧
         rn t Reg.GLZ_POOL_WAIT_CNT = min 0xFFFFFFFF (rn s Reg.GLZ_POOL_WAIT_CNT + 1)) ∧
       Only [.glz, .jobs, .msix, .out, .reg .glz, .reg .stk, .rings, .stk, .thr] s t) ∧
  (∀ (w : Band) (x : Copy) (s : State), s.glz.bands.find? (·.waiting) = some w → poolUsed s + w.mib ≤ 512 → findCopy s w.copy = some x →
     ∃ t, exec .glazePoolWaitEnd s = .next t ∧
       (t.glz.bands = (s.glz.bands.map fun b => if b = w then { b with waiting := false, composited := true } else b) ∧
         ∀ q ∈ (compose s x w.plane (glazeAt s x w.plane).1 (w.band * bandLines s)
             (min x.page0.height (w.band * bandLines s + bandLines s) - w.band * bandLines s)).zipIdx,
           { copy := x.seq, plane := w.plane, line := w.band * bandLines s + q.2, px := q.1 } ∈ t.glz.pool) ∧
       Only [.glz, .jobs, .reg .glz, .thr] s t)

/-- SEGMENT_LOAD of a complete stream that keeps R543 and moves no powered head replaces segments and charges. HEAD_POWER action 0 leaves each head named unpowered and unqueued and completes with the mask of heads powered and good. Action 1 for enabled heads, its other checks passed in RUN, completes at once where every head named is powered and good, else is accepted with the unpowered heads queued and waits for each head; in another power state it waits for RUN and starts the exit. HEAD_ENABLE_ADMIT raises the enable at the front of the queue, of a head in a segment that no trip covers, once gap and charge window admit it. HEAD_POWER_DONE completes the command when no head is awaited. HEAD_POWER_TIMEOUT, once the command's own limit has passed since its acceptance (1,000 ms for the exit of a power state), switches off the heads left, withdraws what the command queued, counts it and completes with 0x0503. Each answers a next state and changes nothing outside the parts named. -/
def Obligations.HeadPowerRuns : Prop :=
  (∀ (d : Desc) (handle : Word) (x : Stream) (s : State), Admitted d .o (fun _ => (List.range 64).map objHead) s = true →
     findStream s (ring s d.ring.val).tenant handle.toNat = some x → x.failed = false → x.complete = true → segmentGood x.bytes = true →
     (∀ k < 64, (port s k).pwren = true → ∀ u : State, u.pwr.segments = ((List.range 16).map fun g => (g, leAt x.bytes (16 + 16 * g) 8)) →
       segmentOf u k = segmentOf s k) →
     ∃ t, exec (.segmentLoad d handle) s = .next t ∧
       (Completed d 0 0 s t ∧ t.pwr = { s.pwr with
         segments := (List.range 16).map fun g => (g, leAt x.bytes (16 + 16 * g) 8),
         charges := (List.range 64).map fun k => (k, leAt x.bytes (272 + 4 * k) 2) }) ∧ Only (completionParts ++ ([.pwr] : List Part)) s t) ∧
  (∀ (d : Desc) (mask : DWord) (timeout : Word) (s : State),
     Admitted d .o (fun _ => (maskBits 64 mask.toNat).map objHead) s = true →
     (∀ k ∈ maskBits 64 mask.toNat, headEnabled s k = true) →
     ∃ t, exec (.headPower d mask 0 timeout) s = .next t ∧
       (Completed d 0 (res 16 (poweredMask t)) s t ∧
         ∀ k ∈ maskBits 64 mask.toNat, (port t k).pwren = false ∧ ∀ q ∈ t.pwr.queue, q.head ≠ k) ∧
       Only (completionParts ++ ([.crk, .ports, .pwr] : List Part)) s t) ∧
  (∀ (d : Desc) (mask : DWord) (timeout : Word) (s : State),
     Admitted d .o (fun _ => (maskBits 64 mask.toNat).map objHead) s = true →
     (∀ k ∈ maskBits 64 mask.toNat, headEnabled s k = true ∧ (segmentOf s k).isSome ∧ (segmentOf s k).any (tripCoversSegment s) = false ∧
       charge s k ≤ rf s Reg.PWR_INRUSH_BUDGET 15 0 ∧ tallyForbids s k = false) →
     s.pwr.state = .run → s.pwr.toward = none →
     ∃ t, exec (.headPower d mask 1 timeout) s = .next t ∧
       (if ∀ k ∈ maskBits 64 mask.toNat, (port s k).pwren = true ∧ (port s k).pg = true then
         Completed d 0 (res 16 (poweredMask s)) s t
       else Accepted d (.headPower d mask 1 timeout) []
           (((maskBits 64 mask.toNat).filter fun k => !((port s k).pwren && (port s k).pg)).map keyHead) s t ∧
         ∀ k ∈ maskBits 64 mask.toNat, (port s k).pwren = false → ∃ q ∈ t.pwr.queue, q.head = k) ∧
       Only (completionParts ++ ([.crk, .ports, .pwr] : List Part)) s t) ∧
  (∀ (d : Desc) (mask : DWord) (timeout : Word) (s : State),
     Admitted d .o (fun _ => (maskBits 64 mask.toNat).map objHead) s = true →
     (∀ k ∈ maskBits 64 mask.toNat, headEnabled s k = true ∧ (segmentOf s k).isSome ∧ (segmentOf s k).any (tripCoversSegment s) = false ∧
       charge s k ≤ rf s Reg.PWR_INRUSH_BUDGET 15 0 ∧ tallyForbids s k = false) →
     ¬(s.pwr.state = .run ∧ s.pwr.toward = none) →
     ∃ t, exec (.headPower d mask 1 timeout) s = .next t ∧
       (Waits d (.headPower d mask 1 timeout) ((maskBits 64 mask.toNat).map objHead) [keyRun] s t ∧
         (s.pwr.toward = none → t.pwr.toward = some .run)) ∧ Only (completionParts ++ ([.crk, .ports, .pwr] : List Part)) s t) ∧
  (∀ (at_ : DWord) (q : HeadEnable) (rest : List HeadEnable) (s u : State), u = advanceTo at_.toNat s → u.pwr.queue = q :: rest →
     u.pwr.state = .run ∨ u.pwr.state = .idle → (segmentOf u q.head).isSome → (segmentOf u q.head).any (tripCoversSegment u) = false →
     (∀ v, u.pwr.lastAdmit = some v → v + rf u Reg.PWR_MIN_GAP 15 0 * us ≤ now u) →
     winCharge u (now u) + charge u q.head ≤ rf u Reg.PWR_INRUSH_BUDGET 15 0 →
     ∃ t, exec (.headEnableAdmit at_) s = .next t ∧
       ((port t q.head).pwren = true ∧ (port t q.head).pg = false ∧ (port t q.head).powerAt = now u ∧ t.pwr.queue = rest ∧
         t.pwr.lastAdmit = some (now u) ∧ (now u, charge u q.head) ∈ t.pwr.admits) ∧ Only [.clock, .msix, .out, .ports, .pwr, .reg .stk, .reg .tim, .rings, .stk] s t) ∧
  (∀ (q : Parked) (s : State), findParked s q.h.seq = some q → q.accepted = true → q.waits = [] →
     ((∃ d mask action timeout, q.cmd = .headPower d mask action timeout) →
       ∃ t, exec (.headPowerDone q.h.seq) s = .next t ∧ Finished q.h 0 (res 16 (poweredMask s)) s t ∧ Only completionParts s t) ∧
     ((∃ d target, q.cmd = .powerState d target) →
       ∃ t, exec (.headPowerDone q.h.seq) s = .next t ∧ Finished q.h 0 0 s t ∧ Only completionParts s t)) ∧
  (∀ (q : Parked) (d : Desc) (mask : DWord) (action : BitVec 8) (timeout : Word) (at_ : DWord) (s u : State), u = advanceTo at_.toNat s →
     findParked s q.h.seq = some q → q.cmd = .headPower d mask action timeout → q.accepted = true → q.waits ≠ [] →
     q.since + powerLimit timeout ≤ now u →
     ∃ t, exec (.headPowerTimeout q.h.seq at_) s = .next t ∧
       (Finished q.h 0x0503 (res 16 (poweredMask t)) u t ∧ (∀ h ∈ enablesOf s (some q.h.seq), (port t h).pwren = false) ∧
         (∀ e ∈ t.pwr.queue, e.cmd ≠ some q.h.seq) ∧
         rn t Reg.PWR_WAKE_TO_CNT = min 0xFFFFFFFF (rn s Reg.PWR_WAKE_TO_CNT + 1)) ∧
       Only (completionParts ++ ([.clock, .crk, .ports, .pwr, .reg .pwr, .reg .tim] : List Part)) s t) ∧
  (∀ (q : Parked) (d : Desc) (target : BitVec 8) (at_ : DWord) (s u : State), u = advanceTo at_.toNat s → findParked s q.h.seq = some q →
     q.cmd = .powerState d target → q.accepted = true → exitPending s ≠ [] → s.pwr.exitAt + 1000 * ms ≤ now u → keyExit ∉ q.waits →
     ∃ t, exec (.headPowerTimeout q.h.seq at_) s = .next t ∧
       (Finished q.h 0x0503 0 u t ∧ (∀ h ∈ enablesOf s none, (port t h).pwren = false) ∧ t.pwr.exitHeads = [] ∧
         rn t Reg.PWR_WAKE_TO_CNT = min 0xFFFFFFFF (rn s Reg.PWR_WAKE_TO_CNT + 1)) ∧
       Only (completionParts ++ ([.clock, .crk, .ports, .pwr, .reg .pwr, .reg .tim] : List Part)) s t)

/-- POWER_STATE completes where the controller is already at rest in the state named; starts the exit and waits for its end for RUN; starts the entry and waits for its end for a state whose entry conditions hold; and waits for rest during a transition. POWER_ENTRY_DONE ends an entry: IDLE or STANDBY is entered, DEEP is told, and nothing waits for the entry any more. AUTO_IDLE enters IDLE with cause 1 where its conditions hold. POWER_EXIT_DONE reaches RUN, with the delay loop locked. DEEP_ENTRY with no wake source held ends in DEEP with Sagger RAM empty; with one, in a boot. DEEP_WAKE_TIMER on expiry starts a boot, as does a supply leaving range; one back in range is out of range no more. Each answers a next state and changes nothing outside the parts named. -/
def Obligations.PowerStatesRun : Prop :=
  (∀ (d : Desc) (target : BitVec 8) (s : State), Admitted d .s noObjs s = true → target.toNat ≤ 3 → s.pwr.toward = none →
     s.pwr.state = targetState target.toNat → entryStatus s target.toNat = 0 →
     ∃ t, exec (.powerState d target) s = .next t ∧ (Completed d 0 0 s t ∧ t.pwr = s.pwr) ∧ Only (completionParts ++ ([.pwr] : List Part)) s t) ∧
  (∀ (d : Desc) (s : State), Admitted d .s noObjs s = true →
     (s.pwr.toward = none ∧ s.pwr.state ≠ .run) ∨ s.pwr.toward = some .run →
     ∃ t, exec (.powerState d 0) s = .next t ∧
       (Accepted d (.powerState d 0) [] [keyExit] s t ∧ t.pwr.toward = some .run) ∧ Only (completionParts ++ ([.pwr] : List Part)) s t) ∧
  (∀ (d : Desc) (target : BitVec 8) (s : State), Admitted d .s noObjs s = true → 0 < target.toNat → target.toNat ≤ 3 → s.pwr.toward = none →
     s.pwr.state ≠ targetState target.toNat → entryStatus s target.toNat = 0 →
     ∃ t, exec (.powerState d target) s = .next t ∧
       (Accepted d (.powerState d target) [] [keyEntry] s t ∧ t.pwr.toward = some (targetState target.toNat)) ∧ Only (completionParts ++ ([.pwr] : List Part)) s t) ∧
  (∀ (d : Desc) (target : BitVec 8) (s : State), Admitted d .s noObjs s = true → target.toNat ≤ 3 → s.pwr.toward ≠ none →
     ¬(target.toNat = 0 ∧ s.pwr.toward = some .run) →
     ∃ t, exec (.powerState d target) s = .next t ∧
       (Waits d (.powerState d target) [] [keyStill] s t ∧ t.pwr = s.pwr) ∧ Only (completionParts ++ ([.pwr] : List Part)) s t) ∧
  (∀ (s : State), s.pwr.toward = some .idle ∨ s.pwr.toward = some .standby ∨ (s.pwr.toward = some .deep ∧ s.pwr.told = false) →
     ∃ t, exec .powerEntryDone s = .next t ∧
       ((s.pwr.toward = some .deep → t.pwr.told = true ∧ t.pwr.state = s.pwr.state) ∧
         (s.pwr.toward ≠ some .deep → some t.pwr.state = s.pwr.toward) ∧
         (s.pwr.toward = some .standby → t.clk.dllLock = false) ∧ ∀ p ∈ t.fw.parked, keyEntry ∉ p.waits) ∧
       Only (completionParts ++ ([.clk, .clock, .crk, .free, .glz, .jobs, .kln, .ports, .pwr, .reg .clk, .reg .crk, .reg .klnC, .reg .klnP,
         .reg .pwr, .reg .tim, .sag, .thr, .til, .tly, .win] : List Part)) s t) ∧
  (∀ (s : State), rbit s Reg.PWR_CTRL 0 = true → s.pwr.state = .run → s.pwr.toward = none → s.fw.ready = true → entryStatus s 1 = 0 →
     ∃ t, exec .autoIdle s = .next t ∧ t.pwr = { s.pwr with state := .idle, cause := 1 } ∧ Only [.msix, .out, .pwr, .reg .pwr, .reg .stk, .rings, .stk] s t) ∧
  (∀ (s : State), s.pwr.toward = some .run →
     ∃ t, exec .powerExitDone s = .next t ∧
       (t.pwr.state = .run ∧ t.pwr.toward = none ∧ (s.pwr.state = .standby → t.clk.dllLock = true ∧ t.pwr.exitHeads = s.pwr.standbyHeads)) ∧
       Only (completionParts ++ ([.clk, .free, .jobs, .kln, .ports, .pwr, .reg .clk, .reg .klnC, .reg .klnP, .reg .pwr, .win] : List Part)) s t) ∧
  (∀ (s : State), s.pwr.toward = some .deep → s.pwr.told = true → s.pwr.wake = none →
     ∃ t, exec .deepEntry s = .next t ∧
       (t.pwr.state = .deep ∧ t.sag.tenants = [] ∧ t.sag.batches = [] ∧ t.crk.queue = [] ∧ t.jobs.copies = [] ∧ t.fw.ready = false) ∧
       Only (allRegs ++ ([.cal, .clk, .clock, .crk, .entries, .fans, .free, .fw, .gln, .glz, .hif, .ipl, .jobs, .kln, .memory, .mil, .mot, .msix, .out, .pif, .ports, .pwr, .reads, .rings, .sag, .stk, .thm, .thr, .til, .tly, .trm, .win] : List Part)) s t) ∧
  (∀ (s : State) (k : RstKind) (strap : Nat), s.pwr.toward = some .deep → s.pwr.told = true → s.pwr.wake = some (k, strap) →
     ∃ t, exec .deepEntry s = .next t ∧
       (t.pwr.state = .run ∧ t.pwr.boot = (if k = .pin then some .pin else some .deepExit) ∧ t.fw.ready = false) ∧ Only (allRegs ++ ([.cal, .clk, .clock, .crk, .entries, .fans, .free, .fw, .gln, .glz, .hif, .ipl, .jobs, .kln, .memory, .mil, .mot, .msix, .out, .pif, .ports, .pwr, .reads, .rings, .sag, .stk, .thm, .thr, .til, .tly, .trm, .win] : List Part)) s t) ∧
  (∀ (at_ : DWord) (s u : State), u = advanceTo at_.toNat s → u.pwr.state = .deep → rn u Reg.PWR_DEEP_WAKE ≠ 0 →
     u.pwr.deepAt + rn u Reg.PWR_DEEP_WAKE * 1000 * ms ≤ u.clock.uptime →
     ∃ t, exec (.deepWakeTimer at_) s = .next t ∧ (t.pwr.state = .run ∧ t.pwr.boot.isSome ∧ t.fw.ready = false) ∧ Only (allRegs ++ ([.cal, .clk, .clock, .crk, .entries, .fans, .free, .fw, .gln, .glz, .hif, .ipl, .jobs, .kln, .memory, .mil, .mot, .msix, .out, .pif, .ports, .pwr, .reads, .rings, .sag, .stk, .thm, .thr, .til, .tly, .trm, .win] : List Part)) s t) ∧
  (∀ (k : Fin 11) (strap : BitVec 5) (s : State), s.pwr.low.contains k.val = false → k.val ≤ 4 ∨ clocked s = true →
     ∃ t, exec (.supplyOutOfRange k strap) s = .next t ∧
       (t.pwr.low = s.pwr.low ++ [k.val] ∧ t.pwr.boot.isSome ∧ t.fw.ready = false ∧ (k.val ≤ 4 → rn t Reg.GLB_STRAP = strap.toNat)) ∧
       Only (allRegs ++ ([.cal, .clk, .clock, .crk, .entries, .fans, .free, .fw, .gln, .glz, .hif, .ipl, .jobs, .kln, .memory, .mil, .mot, .msix, .out, .pif, .ports, .pwr, .reads, .rings, .sag, .stk, .thm, .thr, .til, .tly, .trm, .win] : List Part)) s t) ∧
  (∀ (k : Fin 11) (s : State), s.pwr.low.contains k.val = true →
     ∃ t, exec (.supplyReturn k) s = .next t ∧ t.pwr = { s.pwr with low := s.pwr.low.filter (· ≠ k.val) } ∧ Only [.msix, .out, .pwr, .reg .pwr, .reg .stk, .rings, .stk] s t)

/-- For a command at the front of an admitting ring whose operand stream is complete and passes Sagger's checks: KEY_LOAD stores the unwrapped key and the owner's digest; QUOTA_GRANT adds the grant, with its sequence number, and completes at once with no journal, else is accepted and completes once persisted; DEBUG_UNLOCK opens the scopes named, consumes the nonce and completes; LIFECYCLE_ADVANCE moves the life cycle to its target, consumes the nonce and zeroes Sagger's RAM; QUOTA_QUERY completes with the three counters; RECEIPT_FETCH writes the batches that fit and completes with length and count left; ATTEST writes a record of its body, a signature no rule fixes and the chain. Signatures and key unwrapping are Config's opaque functions. Each answers a next state and changes nothing outside the parts named. -/
def Obligations.SaggerCommandsRun : Prop :=
  (∀ (d : Desc) (n : BitVec 16) (handle : Word) (x : Stream) (k : BitVec 256) (s : State),
     Admitted d .s (fun _ => [objTenant n.toNat]) s = true → n.toNat ≠ 0 → (tenant s n.toNat).state = .enabled →
     findStream s 0 handle.toNat = some x → x.failed = false → x.complete = true → relayTooLong x = false → lifecycle s ≠ 5 →
     identityUsable s = true → x.bytes.length = 272 → leAt x.bytes 0 4 = 0x574B4753 → leAt x.bytes 4 1 = 1 →
     allZero (slice x.bytes 5 8) = true → allZero (slice x.bytes 10 16) = true → leAt x.bytes 8 2 = n.toNat →
     slice x.bytes 16 32 = serialBytes s → Config.unwrapKey x.bytes = some k →
     ((sagTenant s n.toNat).digest = some (Config.sha384 (slice x.bytes 128 224)) ∨ tenantBusy s n.toNat = false) →
     ∃ t, exec (.keyLoad d n handle) s = .next t ∧
       (Completed d 0 0 s t ∧ (sagTenant t n.toNat).key = some k ∧
         (sagTenant t n.toNat).digest = some (Config.sha384 (slice x.bytes 128 224)) ∧
         ((sagTenant s n.toNat).digest ≠ some (Config.sha384 (slice x.bytes 128 224)) → (sagTenant t n.toNat).grantSeq = 0)) ∧
       Only (completionParts ++ ([.crk, .free, .glz, .jobs, .sag, .thr] : List Part)) s t) ∧
  (∀ (d : Desc) (n : BitVec 16) (handle : Word) (x : Stream) (s : State),
     Admitted d .s (fun _ => [objTenant n.toNat]) s = true → n.toNat ≠ 0 → findStream s 0 handle.toNat = some x → x.failed = false →
     x.complete = true → relayTooLong x = false → lifecycle s ≠ 5 → grantGood s n.toNat x.bytes = true →
     (tenant s n.toNat).grant.toNat + leAt x.bytes 16 4 ≤ 0xFFFFFFFF → noJournal s = true ∨ crkAccepts s = true →
     ∃ t, exec (.quotaGrant d n handle) s = .next t ∧
       ((tenant t n.toNat).grant.toNat = (tenant s n.toNat).grant.toNat + leAt x.bytes 16 4 ∧
         (sagTenant t n.toNat).grantSeq = leAt x.bytes 12 4 ∧
         (noJournal s = true → Completed d 0 (res 16 ((tenant s n.toNat).grant.toNat + leAt x.bytes 16 4)) s t) ∧
         (noJournal s = false → Accepted d (.quotaGrant d n handle) [] [keyStore] s t ∧ recordsDone t s.fw.nextSeq = false)) ∧
       Only (completionParts ++ ([.crk, .jobs, .sag] : List Part)) s t) ∧
  (∀ (d : Desc) (n : BitVec 16) (s : State), Admitted d .t noObjs s = true → mayName (hdrOf d s) n.toNat = true → n.toNat ≠ 0 →
     ∃ t, exec (.quotaQuery d n) s = .next t ∧
       Completed d 0 (res 16 (tenant s n.toNat).grant.toNat + res 20 (tenant s n.toNat).charged.toNat +
         res 24 (tenant s n.toNat).reserved.toNat) s t ∧ Only completionParts s t) ∧
  (∀ (d : Desc) (buf : DWord) (len : Word) (mine out : List Batch) (s : State), Admitted d .t noObjs s = true →
     mine = (s.sag.batches.filter fun b => decide (b.tenant = (ring s d.ring.val).tenant)) →
     out = fitBatches len.toNat (mine.takeWhile fun b => b.persisted || noJournal s) →
     (mine.takeWhile fun b => b.persisted || noJournal s) = [] ∨ out ≠ [] →
     ∃ t, exec (.receiptFetch d buf len) s = .next t ∧
       CompletedWith (if (out.flatMap (·.entries)).flatten = [] then [] else [(buf.toNat, (out.flatMap (·.entries)).flatten)]) d 0
         (res 16 (out.flatMap (·.entries)).flatten.length + res 20 (mine.length - out.length)) s t ∧
       Only (completionParts ++ ([.crk, .free, .glz, .jobs, .sag, .thr] : List Part)) s t) ∧
  (∀ (d : Desc) (buf : DWord) (len : Word) (challenge : BitVec 256) (s : State), Admitted d .t noObjs s = true → identityUsable s = true →
     (attestBody s challenge).length + 96 + Config.certChain.length ≤ len.toNat →
     ∃ t, exec (.attest d buf len challenge) s = .next t ∧
       (∃ sig : BitVec 768, CompletedWith [(buf.toNat, attestBody s challenge ++ le 96 sig.toNat ++ Config.certChain)] d 0
         (res 16 ((attestBody s challenge).length + 96 + Config.certChain.length)) s t) ∧ Only (completionParts ++ ([.free] : List Part)) s t) ∧
  (∀ (d : Desc) (handle : Word) (x : Stream) (g : Signer) (s : State), Admitted d .s noObjs s = true →
     findStream s (ring s d.ring.val).tenant handle.toNat = some x → x.failed = false → x.complete = true → relayTooLong x = false →
     leAt x.bytes 4 1 = 2 → scopesAdmitted (lifecycle s) (leAt x.bytes 5 1) = true → tokenGood s x.bytes = true → leAt x.bytes 5 1 < 16 →
     debugSigner s x.bytes (leAt x.bytes 5 1) = some g →
     ∃ t, exec (.debugUnlock d handle) s = .next t ∧
       (Completed d 0 0 s t ∧ t.sag.scopes = s.sag.scopes ||| leAt x.bytes 5 1 ∧ t.sag.nonce = none ∧
         (leAt x.bytes 5 1 / 8 % 2 = 1 → t.sag.signerGone = true ∧ ∀ e ∈ t.sag.tenants, e.2.key = none)) ∧ Only (completionParts ++ ([.reg .sag, .sag] : List Part)) s t) ∧
  (∀ (d : Desc) (target : BitVec 8) (handle : Word) (x : Stream) (s : State), Admitted d .s noObjs s = true →
     findStream s (ring s d.ring.val).tenant handle.toNat = some x → x.failed = false → x.complete = true → relayTooLong x = false →
     transition (lifecycle s) target.toNat = true → s.sag.fuses.length = 5 →
     (∀ e ∈ s.jobs.tenants, e.1 ≠ 0 → e.2.state = .disabled) → planesStopped s = true → leAt x.bytes 4 1 = 1 →
     tokenGood s x.bytes = true → leAt x.bytes 5 1 = target.toNat → lifecycleSigned s target.toNat x.bytes = true →
     ∃ t, exec (.lifecycleAdvance d target handle) s = .next t ∧
       (Completed d 0 0 s t ∧ lifecycle t = target.toNat ∧ t.sag.nonce = none ∧ t.sag.batches = [] ∧
         (∀ e ∈ t.sag.tenants, e.2.key = none ∧ e.2.digest = none) ∧
         ∀ e ∈ t.jobs.tenants, e.2.grant = 0 ∧ e.2.charged = 0 ∧ e.2.reserved = 0) ∧ Only (completionParts ++ ([.fuses, .jobs, .reg .sag, .sag, .thr] : List Part)) s t)

/-- A read of SAG_NONCE0 that gets through draws a nonce, returns its low word and keeps when it was drawn; 600 s later it lapses. BATCH_CLOSE_TIMER closes a tenant's open batch: its receipts are in a batch with the next number and none stay open. BATCH_POST of the oldest batch, persisted, with room on the tenant's receipt ring writes its entries there. A firewall denial names who and which row, counts, and returns 0 to a core's read. BOOT with all its holds clear reaches command-ready with Sagger ready; a DRAM failure stops it with FAIL_CODE 4, and a failed integrity check, TRNG or fuse check halts Sagger with its code. The nonce's and signature's bits are free. Each answers a next state and changes nothing outside the parts named. -/
def Obligations.SaggerEventsRun : Prop :=
  (∀ (ini : Initiator) (s : State), clocked s = true → pageUp s pgSag = true → pageBusy s pgSag = false →
     ∃ t, exec (.sagNonceRead ini) s = .next t ∧
       (∃ n, t.sag.nonce = some n ∧ t.sag.nonceAt = s.clock.uptime ∧ tget t.regs.rdata [] (iniNum ini) = [BitVec.ofNat 32 n.toNat]) ∧
       Only [.free, .reads, .reg .hif, .sag] s t) ∧
  (∀ (at_ : DWord) (s u : State), u = advanceTo at_.toNat s → u.sag.nonce.isSome → u.sag.nonceAt + 600000 * ms ≤ u.clock.uptime →
     ∃ t, exec (.nonceExpire at_) s = .next t ∧ t.sag = { u.sag with nonce := none } ∧ Only [.clock, .msix, .out, .reg .stk, .reg .tim, .rings, .sag, .stk] s t) ∧
  (∀ (n : Fin 1024) (s : State), (sagTenant s n.val).receipts ≠ [] →
     ∃ t, exec (.batchCloseTimer n) s = .next t ∧
       ((sagTenant t n.val).receipts = [] ∧
         (sagTenant t n.val).batch = (if (sagTenant s n.val).restart.isSome then 1 else (sagTenant s n.val).batch + 1) ∧
         ∃ b, t.sag.batches = s.sag.batches ++ [b] ∧ b.tenant = n.val ∧ b.num = (sagTenant t n.val).batch ∧
           ∃ sig : List (List Byte), b.entries = batchHeader s n.val :: (sagTenant s n.val).receipts ++ sig) ∧ Only [.crk, .free, .sag] s t) ∧
  (∀ (n : Fin 1024) (b : Batch) (r : Nat) (s : State), oldestBatch s n.val = some b → b.persisted = true ∨ noJournal s = true →
     receiptRing s n.val = some r → canPost s r b.entries.length = true → alarmFirst s = false →
     ∃ t, exec (.batchPost n) s = .next t ∧
       ((ring t r).entries = (ring s r).entries ++ b.entries.map Record.receipt ∧
         (ring t r).pi = ((ring s r).pi + b.entries.length) % idxMod ∧ ∀ m, m ≠ r → (ring t m).entries = (ring s m).entries) ∧ Only [.crk, .free, .glz, .jobs, .msix, .out, .reg .stk, .rings, .sag, .stk, .thr] s t) ∧
  (∀ (debug : Bool) (row : Fin 10) (addr : DWord) (write : Bool) (s : State),
     ∃ t, exec (.firewallDenial debug row addr write) s = .next t ∧
       (rn t Reg.SAG_LAST_VIOL = (if debug then 3 else 1) + 16 * (row.val + 1) ∧
         rn t Reg.SAG_FW_VIOL_CNT = min 0xFFFFFFFF (rn s Reg.SAG_FW_VIOL_CNT + 1) ∧
         (debug = false → write = false → tget t.regs.rdata [] (iniNum .core) = [0#32])) ∧ Only [.msix, .out, .reads, .reg .sag, .reg .stk, .rings, .stk] s t) ∧
  (∀ (cs0 cs1 : BitVec 16) (id0 id1 : BitVec 8) (speed : BitVec 3) (width : BitVec 4) (good : Bool) (s : State),
     bootMayRun s = true → s.sag.halted = false → s.sag.failCode = 0 →
     ∃ t, exec (.boot cs0 cs1 id0 id1 speed width good 0) s = .next t ∧
       (t.pwr.boot = none ∧ t.pwr.bootHeld = true ∧ t.fw.ready = true ∧ t.sag.ready = true ∧ t.sag.stage = 7 ∧
         t.hif.linkSpeed = speed.toNat ∧ t.hif.linkWidth = width.toNat ∧ t.clk.dllLock = true) ∧ Only (completionParts ++ ([.clk, .crk, .entries, .free, .fuses, .hif, .jobs, .kln, .ports, .pwr, .reg .clk, .reg .crk, .reg .klnC,
         .reg .klnP, .reg .tly, .sag, .tly, .win] : List Part)) s t) ∧
  (∀ (cs0 cs1 : BitVec 16) (id0 id1 : BitVec 8) (speed : BitVec 3) (width : BitVec 4) (good : Bool) (failed : Fin 5) (s : State),
     bootMayRun s = true → s.sag.halted = false → s.sag.failCode = 0 → failed ≠ 0 →
     ∃ t, exec (.boot cs0 cs1 id0 id1 speed width good failed) s = .next t ∧
       (t.sag.failCode = failed.val ∧ t.pwr.boot = s.pwr.boot ∧ t.fw = s.fw ∧ (failed ≠ 4 → t.sag.halted = true ∧ t.sag.stage = 0xFF)) ∧
       Only (completionParts ++ ([.clk, .crk, .entries, .free, .fuses, .hif, .jobs, .kln, .ports, .pwr, .reg .clk, .reg .crk, .reg .klnC,
         .reg .klnP, .reg .tly, .sag, .tly, .win] : List Part)) s t)

/-- NOZZLE_READ of present nozzles of one head writes their 32-byte records to the host buffer. NOZZLE_WRITE of a good stream is accepted and waits for the latches of its heads and for its records; while the heads' planes run, its entries wait. NOZZLE_WRITE_DONE, once the latches have come and the records are committed, completes it with status 1 if late and the slot as result. CURVE_LOAD and THRESH_LOAD, while the TIL common page is not held, are accepted for the bar latch, and the curves and the array stand as the stream says, waiting or in force. MAINT_SPIT in RUN on heads that print on no running plane and are under no trip is accepted; each of its resumptions fires one drop on the live heads while nothing bars it: each good nozzle entry that is neither dead nor retired and is fitted once counts it and has the plane's running line as its last fire, no other entry changes, and the last drop completes the command. Each answers a next state and changes nothing outside the parts named. -/
def Obligations.NozzleCommandsRun : Prop :=
  (∀ (d : Desc) (first : Word) (count : BitVec 16) (buf : DWord) (len : Word) (s : State), Admitted d .o (fun _ => [objHead (first.toNat / 4096)]) s = true →
     1 ≤ count.toNat → count.toNat ≤ 4096 → first.toNat / 4096 = (first.toNat + count.toNat - 1) / 4096 →
     (∀ i < count.toNat, nozzlePresent s (first.toNat + i) = true) → 32 * count.toNat ≤ len.toNat →
     ∃ t, exec (.nozzleRead d first count buf len) s = .next t ∧
       CompletedWith [(buf.toNat, ((List.range count.toNat).map (· + first.toNat)).flatMap fun i =>
         entryBytes (entry s i) ++ [(entry s i).crc, 0, 0, 0])] d 0 0 s t ∧ Only completionParts s t) ∧
  (∀ (d : Desc) (handle : Word) (x : Stream) (s : State),
     Admitted d .o (fun _ => streamObjs s (hdrOf d s) (.nozzleWrite d handle)) s = true →
     findStream s (ring s d.ring.val).tenant handle.toNat = some x → x.failed = false → x.complete = true →
     nozzleCheck s s.fw.nextSeq x.bytes = none → s.crk.state ≠ .readOnly →
     let ps := (List.range (x.bytes.length / 40)).map fun k => pendOf (fabCycle s) s.fw.nextSeq (slice x.bytes (40 * k) (40 * k + 40))
     ∃ t, exec (.nozzleWrite d handle) s = .next t ∧
       (Accepted d (.nozzleWrite d handle) ((ps.map (·.nozzle / 4096)).eraseDups.map (· + 0x20000)) [keyStore] s t ∧
         ((∀ q ∈ ps, ∃ p, planeOfHead s (q.nozzle / 4096) = some p ∧ (plane s p).state ≠ .stopped) →
           t.til.pend = s.til.pend ++ ps)) ∧
       Only (completionParts ++ ([.cal, .crk, .entries, .gln, .glz, .jobs, .kln, .ports, .reg .cal, .thr, .til] : List Part)) s t) ∧
  (∀ (q : Parked) (d : Desc) (handle : Word) (s : State), findParked s q.h.seq = some q → q.cmd = .nozzleWrite d handle → q.accepted = true →
     q.pages = [] → recordsDone s q.h.seq = true → q.h.seq ∉ s.crk.refused →
     ∃ t, exec (.nozzleWriteDone q.h.seq) s = .next t ∧ Finished q.h (if q.late then 1 else 0) (res 16 q.slot.toNat) s t ∧
       Only completionParts s t) ∧
  (∀ (d : Desc) (first count : BitVec 16) (handle : Word) (x : Stream) (s : State), Admitted d .o noObjs s = true →
     count.toNat ≠ 0 → first.toNat + count.toNat ≤ 256 →
     findStream s (ring s d.ring.val).tenant handle.toNat = some x → x.failed = false → x.complete = true →
     x.bytes.length = 512 * count.toNat → (∀ i < 256 * count.toNat, leAt x.bytes (2 * i) 2 < 4096) →
     ∃ t, exec (.curveLoad d first count handle) s = .next t ∧
       (Accepted d (.curveLoad d first count handle) [barMark] [] s t ∧
         ∀ k < count.toNat, tfind (t.til.pendCurves.foldl (fun m e => tput m e.2.1 e.2.2) t.til.curves) (first.toNat + k) =
           some ((List.range 256).map fun i => leAt x.bytes (2 * (256 * k + i)) 2)) ∧
       Only (completionParts ++ ([.ipl, .kln, .memory, .reg .cal, .reg .klnC, .reg .tilC, .reg .tilE, .til] : List Part)) s t) ∧
  (∀ (d : Desc) (array : BitVec 8) (handle : Word) (x : Stream) (s : State), Admitted d .o noObjs s = true → array.toNat ≤ 7 →
     findStream s (ring s d.ring.val).tenant handle.toNat = some x → x.failed = false → x.complete = true →
     x.bytes.length = 131072 → (∀ k < 16384, cellGood (slice x.bytes (8 * k) (8 * k + 8)) = true) →
     ∃ t, exec (.threshLoad d array handle) s = .next t ∧
       (Accepted d (.threshLoad d array handle) [barMark] [] s t ∧
         ((∃ p ∈ planeNums, (plane s p).state ≠ .stopped) → t.til.pendArrays = s.til.pendArrays ++ [(fabCycle s, array.toNat, x.bytes)] ∧
           ((getPage s pgTilC).hold = false → t.kln.barArmed = true)) ∧
         ((∀ p ∈ planeNums, (plane s p).state = .stopped) → s.kln.barArmed = false → s.til.pendArrays = [] →
           (getPage s pgTilC).hold = false → Memory.wf s.til.arrays = true →
           ∀ i < 131072, memRead t.til.arrays (131072 * array.toNat + i) = x.bytes.getD i 0)) ∧
       Only (completionParts ++ ([.ipl, .kln, .memory, .reg .cal, .reg .klnC, .reg .tilC, .reg .tilE, .til] : List Part)) s t) ∧
  (∀ (d : Desc) (mask : DWord) (drops : BitVec 16) (code : BitVec 8) (s : State),
     Admitted d .o (fun _ => (maskBits 64 mask.toNat).map objHead) s = true → s.pwr.state = .run → s.pwr.toward = none →
     drops.toNat ≠ 0 → 1 ≤ code.toNat → code.toNat ≤ 6 →
     (∀ g ∈ maskBits 64 mask.toNat, headEnabled s g = true ∧ (∃ p, planeOfHead s g = some p ∧ (plane s p).state = .stopped ∧
       tripCoversPlane s p = false) ∧ ∀ k, segmentOf s g = some k → tripCoversSegment s k = false) →
     ∃ t, exec (.maintSpit d mask drops code) s = .next t ∧
       (Accepted d (.maintSpit d mask drops code) [] [] s t ∧ t.til = { s.til with spits := tput s.til.spits s.fw.nextSeq drops.toNat }) ∧
       Only (completionParts ++ ([.til] : List Part)) s t) ∧
  (∀ (q : Parked) (d : Desc) (mask : DWord) (drops : BitVec 16) (code : BitVec 8) (n : Nat) (s : State), findParked s q.h.seq = some q →
     q.cmd = .maintSpit d mask drops code → q.accepted = true → tfind s.til.spits q.h.seq = some n → 1 ≤ code.toNat → code.toNat ≤ 6 →
     spitBars s (maskBits 64 mask.toNat) = none →
     let fired := ((maskBits 64 mask.toNat).filter (headLive s)).flatMap fun g => (fittedNozzles s g).map (g * 4096 + ·)
     ∃ t, exec (.parkedCommandResume q.h.seq) s = .next t ∧
       ((n ≤ 1 → Finished q.h 0 0 s t) ∧ (1 < n → t.fw = s.fw ∧ tfind t.til.spits q.h.seq = some (n - 1)) ∧
         (∀ i, i ∉ fired → entry t i = entry s i) ∧
         ∀ g ∈ maskBits 64 mask.toNat, headLive s g = true → ∀ m ∈ fittedNozzles s g, ∀ p, planeOfHead s g = some p →
           fired.count (g * 4096 + m) = 1 → (entry s (g * 4096 + m)).good = true → (entry s (g * 4096 + m)).state ≤ 1 →
           (entry t (g * 4096 + m)).last = (plane s p).runline ∧
           (entry t (g * 4096 + m)).fires.toNat = min (2 ^ 48 - 1) ((entry s (g * 4096 + m)).fires.toNat + 1)) ∧
       Only (completionParts ++ ([.entries, .kln, .ports, .reg .hlk, .reg .tilE, .reg .tly, .til, .tly] : List Part)) s t)

/-- KERNEL_SELECT with a good parameter block, or with handle 0 and the default block, is accepted for the latches of its plane's engine pages, and the shadows of kernel, screen, drop map and level map of every engine read what it selects. SPLIT_MOVE to an allowed split is accepted for the latch of the head's even engine page, whose shadow reads the split. PLANE_CONFIG of a good table for heads that are enabled and in no other plane is accepted for the latches of its pages and the table, which waits while the plane runs; the plane's shadows read the table's values. PASS_LOAD of a good table onto scanning planes is accepted for the latches at which it applies, and waits while they run. Each answers a next state and changes nothing outside the parts named. -/
def Obligations.PlaneSetupRuns : Prop :=
  (∀ (d : Desc) (p kernel : BitVec 8) (handle : Word) (bs : List Byte) (s : State),
     Admitted d .o (fun _ => [objPlane p.toNat]) s = true → p.toNat ≤ 15 → kernel.toNat ≤ 3 →
     ((handle = 0 ∧ bs = kernelDefaults p.toNat) ∨ (handle ≠ 0 ∧ ∃ x, findStream s (ring s d.ring.val).tenant handle.toNat = some x ∧
       x.failed = false ∧ x.complete = true ∧ x.bytes = bs ∧ bs.length = 32 ∧ kernelGood bs = true)) →
     let es := (planeHeads s p.toNat).flatMap fun g => [2 * g.head, 2 * g.head + 1]
     ∃ t, exec (.kernelSelect d p kernel handle) s = .next t ∧
       (Accepted d (.kernelSelect d p kernel handle) (es.map pgTilE) [] s t ∧
         ∀ e ∈ es, rdShadow t (Reg.TIL_E_KERNEL e) = BitVec.ofNat 32 (kernel.toNat + 256 * (bs.getD 3 0).toNat) ∧
           rdShadow t (Reg.TIL_E_SCREEN e) =
             BitVec.ofNat 32 ((bs.getD 0 0).toNat + 2 ^ 8 * (bs.getD 1 0).toNat + 2 ^ 16 * (bs.getD 2 0).toNat) ∧
           rdShadow t (Reg.TIL_E_DMAP e) = BitVec.ofNat 32 (leAt bs 4 4) ∧
           rdShadow t (Reg.TIL_E_LREMAP e) = BitVec.ofNat 32 (leAt bs 8 4)) ∧
       Only (completionParts ++ ([.ipl, .kln, .memory, .reg .cal, .reg .klnC, .reg .klnP, .reg .tilC, .reg .tilE, .til] : List Part)) s t) ∧
  (∀ (d : Desc) (head : BitVec 8) (sp : BitVec 16) (s : State), Admitted d .o (fun _ => [objHead head.toNat]) s = true →
     head.toNat ≤ 63 → headEnabled s head.toNat = true → splitAllowed s head.toNat sp.toNat = true →
     ∃ t, exec (.splitMove d head sp) s = .next t ∧
       (Accepted d (.splitMove d head sp) [pgTilE (2 * head.toNat)] [] s t ∧
         rdShadow t (Reg.TIL_E_SPLIT (2 * head.toNat)) = BitVec.ofNat 32 sp.toNat) ∧
       Only (completionParts ++ ([.ipl, .kln, .memory, .reg .cal, .reg .klnC, .reg .klnP, .reg .tilC, .reg .tilE, .til] : List Part)) s t) ∧
  (∀ (d : Desc) (p : BitVec 8) (handle : Word) (x : Stream) (s : State),
     Admitted d .o (fun _ => objPlane p.toNat :: streamObjs s (hdrOf d s) (.planeConfig d p handle)) s = true → p.toNat ≤ 15 → findStream s (ring s d.ring.val).tenant handle.toNat = some x → x.failed = false → x.complete = true →
     planeClean p.toNat x.bytes = true → (∀ g ∈ (planeTableOf x.bytes).head.heads, headEnabled s g.head = true) →
     planeTableGood s (planeTableOf x.bytes) = true → (∀ g ∈ (planeTableOf x.bytes).head.heads, inOtherPlane s p.toNat g.head = false) →
     let tb := planeTableOf x.bytes
     ∃ t, exec (.planeConfig d p handle) s = .next t ∧
       (Accepted d (.planeConfig d p handle)
         ((pgKlnP p.toNat :: tb.head.heads.flatMap fun g => [pgTilE (2 * g.head), pgHlk g.head]) ++ [0x10000 + p.toNat]) [] s t ∧
         rdShadow t (Reg.KLN_P_VACT p.toNat) = BitVec.ofNat 32 tb.head.vact ∧
         rdShadow t (Reg.KLN_P_VBLANK p.toNat) = BitVec.ofNat 32 (tb.head.vfront + 2 ^ 8 * tb.head.vsync + 2 ^ 16 * tb.head.vback) ∧
         rdShadow t (Reg.KLN_P_TRIM p.toNat) = tb.head.trim ∧ rdShadow t (Reg.KLN_P_REV_TRIM p.toNat) = tb.head.revTrim ∧
         ((plane s p.toNat).state ≠ .stopped → (plane t p.toNat).pendTable = (plane s p.toNat).pendTable ++ [(fabCycle s, tb)])) ∧
       Only (completionParts ++ ([.cal, .crk, .entries, .gln, .glz, .ipl, .jobs, .kln, .memory, .ports, .reg .cal, .reg .hlk, .reg .klnC,
         .reg .klnP, .reg .tilC, .reg .tilE, .thr, .til] : List Part)) s t) ∧
  (∀ (d : Desc) (mask : BitVec 16) (handle : Word) (x : Stream) (s : State),
     Admitted d .o (fun _ => (maskBits 16 mask.toNat).map objPlane) s = true → (∀ p ∈ maskBits 16 mask.toNat, scanning s p = true) →
     findStream s (ring s d.ring.val).tenant handle.toNat = some x → x.failed = false → x.complete = true →
     passClean x.bytes = true → (∀ p ∈ maskBits 16 mask.toNat, passesDisjoint s p (passTableOf x.bytes) = true ∧
       Config.swathFits (swathMiB s p false) = true) →
     ∃ t, exec (.passLoad d mask handle) s = .next t ∧
       (Accepted d (.passLoad d mask handle) ((maskBits 16 mask.toNat).map (· + 0x30000)) [] s t ∧
         ∀ p ∈ maskBits 16 mask.toNat, (plane s p).state ≠ .stopped → (plane t p).pendPass = (plane s p).pendPass ++ [(fabCycle s, passTableOf x.bytes)]) ∧
       Only (completionParts ++ ([.cal, .crk, .entries, .gln, .glz, .jobs, .kln, .ports, .reg .cal, .thr, .til] : List Part)) s t)

/-- KILN_START in RUN of stopped planes with a table and a pace source, untripped, completes and puts each plane into LEAD_IN without a reference, its next slot the lowest no plane has decided. KILN_STOP of running planes is accepted, puts each into STOPPING, and waits for them; KILN_STOP_DONE, when it waits no more, completes it. PRESS_STATUS completes with the running planes, tripped planes, rate, limit and heads low. A clean edge selected by one channel whose planes are stopped moves its step count by one and stamps it. KILN_SHEAF_SHIFT shifts the first ready sheaf of an untripped live head and moves the row on. ROW_LINE_UNDERRUN of an incomplete sheaf past its latest start counts, moves the row on, and puts a fill row-line in its place. FIRE_EDGE of a live head fires the next edge's codes, which become the held codes, with the tap the edge was armed with. Each answers a next state and changes nothing outside the parts named. -/
def Obligations.PressCommandsRun : Prop :=
  (∀ (d : Desc) (mask : BitVec 16) (s : State), Admitted d .o (fun _ => (maskBits 16 mask.toNat).map objPlane) s = true →
     s.pwr.state = .run → s.pwr.toward = none →
     (∀ p ∈ maskBits 16 mask.toNat, tripCoversPlane s p = false ∧ (plane s p).state = .stopped ∧ (plane s p).table.isSome ∧
       pcSrc s (planeChan s p) ≠ 0 ∧ startPassed s p = false ∧
       (rf s (Reg.KLN_P_PACE_CFG p) 5 4 = 2 → Config.swathFits (swathMiB s p false) = true)) →
     ∃ t, exec (.kilnStart d mask) s = .next t ∧
       (Completed d 0 0 s t ∧ ∀ p ∈ maskBits 16 mask.toNat, (plane t p).state = .leadIn ∧ (plane t p).referenced = false ∧
         (plane t p).nextSlot = lowestSlot s) ∧ Only (completionParts ++ ([.hif, .ipl, .kln, .pwr, .reg .hif, .reg .klnC, .reg .klnP, .win] : List Part)) s t) ∧
  (∀ (d : Desc) (mask : BitVec 16) (s : State), Admitted d .o (fun _ => (maskBits 16 mask.toNat).map objPlane) s = true →
     maskBits 16 mask.toNat ≠ [] → (∀ p ∈ maskBits 16 mask.toNat, (plane s p).state ≠ .stopped) →
     ∃ t, exec (.kilnStop d mask) s = .next t ∧
       (Accepted d (.kilnStop d mask) [] ((maskBits 16 mask.toNat).map keyPlane) s t ∧
         ∀ p ∈ maskBits 16 mask.toNat, (plane t p).state = .stopping) ∧ Only (completionParts ++ ([.jobs, .kln, .reg .klnP] : List Part)) s t) ∧
  (∀ (q : Parked) (d : Desc) (mask : BitVec 16) (s : State), findParked s q.h.seq = some q → q.cmd = .kilnStop d mask → q.accepted = true →
     q.waits = [] → ∃ t, exec (.kilnStopDone q.h.seq) s = .next t ∧ Finished q.h 0 0 s t ∧ Only completionParts s t) ∧
  (∀ (d : Desc) (s : State), Admitted d .o noObjs s = true →
     ∃ t, exec (.pressStatus d) s = .next t ∧
       Completed d 0 (res 16 (((planeNums.filter fun p => decide ((plane s p).state ≠ .stopped)).map fun p => 2 ^ p).sum) +
         res 18 (((planeNums.filter fun p => tripCoversPlane s p).map fun p => 2 ^ p).sum) +
         res 20 (rn s Reg.KLN_SUST_RATE) + res 24 (rf s Reg.KLN_LIMIT 5 0) +
         res 28 ((liveHeads s).filter fun h => (fittedRows s h).any fun r =>
           ((row s h r).fifo.filter fun x => x.missing.isEmpty).isEmpty).length) s t ∧ Only completionParts s t) ∧
  (∀ (input : Fin 2) (rising dir : Bool) (t : DWord) (k : Nat) (s : State), k < 4 → pcSrc s k = input.val + 1 →
     (∀ j < 4, j ≠ k → pcSrc s j ≠ input.val + 1) → (rising = true ∨ rbit s (Reg.KLN_PC_CFG k) 8 = true) → s.clk.dllLock = true →
     (∀ u, (channel s k).lastEdge = some u → u + 1024 ≤ t.toNat) → (∀ p ∈ planeNums, (plane s p).state = .stopped) →
     ∃ u, exec (.paceStepEdge input rising dir true t) s = .next u ∧
       ((channel u k).netSteps = (channel s k).netSteps + (if dir != rbit s (Reg.KLN_PC_CFG k) 9 then 1 else -1) ∧
         (channel u k).lastEdge = some t.toNat ∧ (channel u k).paused = false) ∧ 
       Only (completionParts ++ ([.cal, .clk, .clock, .crk, .entries, .free, .gln, .glz, .hif, .ipl, .jobs, .kln, .memory, .mot, .pif, .ports,
         .reg .cal, .reg .hif, .reg .hlk, .reg .iplP, .reg .klnC, .reg .klnP, .reg .motA, .reg .pifCh, .reg .tilC, .reg .tilE, .reg .tim,
         .reg .win, .sag, .thr, .til, .win] : List Part)) s u) ∧
  (∀ (h : Fin 64) (t : DWord) (p r : Nat) (dl : Int) (f : BitVec 32) (rest : List (Int × Nat × BitVec 32)) (x : Sheaf) (s : State),
     planeOfHead s h.val = some p → shiftable s p h.val t.toNat = (dl, r, f) :: rest → headLive s h.val = true → tripCoversPlane s p = false →
     (port s h.val).busyUntil ≤ t.toNat → (port s h.val).descs.length < 4 →
     ((row s h.val r).fifo.find? fun z => decide (z.f = (row s h.val r).nextShift)) = some x →
     ∃ u, exec (.kilnSheafShift h t) s = .next u ∧
       ((row u h.val r).nextShift = x.f + 1 ∧ (row u h.val r).fifo = (row s h.val r).fifo.filter (fun z => decide (z.f ≠ x.f)) ∧
         (∃ y ∈ (row u h.val r).tx, y.f = x.f ∧ y.codes = x.codes) ∧
         (port u h.val).busyUntil = (if portMode s h.val = 1 then (t.toNat + 4095) / 4096 * 4096 else t.toNat) + shiftTime s h.val) ∧
       Only [.clock, .kln, .msix, .out, .ports, .reg .hlk, .reg .klnC, .reg .stk, .reg .tim, .rings, .stk] s u) ∧
  (∀ (h : Fin 64) (r : Fin 4) (t : DWord) (p : Nat) (l : Int) (s : State), planeOfHead s h.val = some p →
     (row s h.val r.val).started = true → (plane s p).state ≠ .stopped → latestStart s p h.val r.val = some l → l ≤ (t.toNat : Int) →
     ((row s h.val r.val).fifo.any fun x => decide (x.f = (row s h.val r.val).nextShift) && x.missing.isEmpty) = false →
     headLive s h.val = true → tripCoversPlane s p = false →
     ∃ u, exec (.rowLineUnderrun h r t) s = .next u ∧
       ((row u h.val r.val).nextShift = (row s h.val r.val).nextShift + 1 ∧
         rn u (Reg.KLN_P_UNDERRUN_CNT p) = min 0xFFFFFFFF (rn s (Reg.KLN_P_UNDERRUN_CNT p) + 1) ∧
         ∃ y ∈ (row u h.val r.val).under, y.f = (row s h.val r.val).nextShift ) ∧
       Only [.clock, .jobs, .kln, .msix, .out, .ports, .reg .hlk, .reg .klnC, .reg .klnP, .reg .stk, .reg .tim, .rings, .stk, .win] s u) ∧
  (∀ (h : Fin 64) (p i r : Nat) (e : Edge) (codes : List Nat) (line : Option Nat) (slot ready : Nat) (s : State),
     planeOfHead s h.val = some p → nextFire s h.val = some (i, r, e) →
     firing (row s h.val r) e.f = some (codes, line, slot, ready) → headLive s h.val = true → tripCoversPlane s p = false →
     ∃ u, exec (.fireEdge h) s = .next u ∧
       ((row u h.val r).held = codes ∧ (row u h.val r).edges = (row s h.val r).edges.drop 1 ∧
         max e.instant ready ≤ (khead u h.val).lastLead ∧
         ∃ tap, (e.armed = true → tap = e.tap) ∧ .fire h.val r (khead u h.val).lastLead tap ∈ u.out) ∧
       Only [.clock, .kln, .msix, .out, .ports, .reg .hlk, .reg .klnP, .reg .stk, .reg .tim, .rings, .stk, .win] s u)

/-- FIRED_WINDOW_COMPARE of a window whose two sides are whole records both CRCs, and counts a failure exactly when they differ. FRAME_MARK_END ends a mark. CHANNEL_PAUSE after the pause time pauses the channel and counts it; PLANE_PAUSE pauses a live plane that stays behind its front that long. PAUSE_TICKLE in a pause of an untripped plane fires the tickle codes of the live heads that ask for them, which become the held codes, and sets the next period. PAUSE_SPOIL counts a spoiled copy and flags it. TRIP_INPUT low latches the trip, counts it and puts its running planes into STOPPING; high starts its qualification. KLN_TRIP_CLEAR clears the latches it names that are qualified and no other. The write of KLN_P_APPLY_CTRL sets ARM. Each answers a next state and changes nothing outside the parts named. -/
def Obligations.PressEventsRun : Prop :=
  (∀ (p i : Fin 16) (w : FiredWin) (s : State), ((plane s p.val).wins.find? fun w => decide (w.index = i.val) && !w.done) = some w →
     rbit s Reg.KLN_CHK_CTRL 0 = true → windowSize s p.val w ≤ w.kiln.length → windowSize s p.val w ≤ w.til.length →
     ∃ u, exec (.firedWindowCompare p i) s = .next u ∧
       (rd u (wkey (Reg.KLN_P_FWIN_CRC p.val) i.val) = windowCrc w.kiln ∧ rd u (wkey (Reg.KLN_P_FWIN_REF p.val) i.val) = windowCrc w.til ∧
         rn u (Reg.KLN_P_FWIN_FAIL_CNT p.val) = (if windowCrc w.kiln = windowCrc w.til then rn s (Reg.KLN_P_FWIN_FAIL_CNT p.val)
           else min 0xFFFFFFFF (rn s (Reg.KLN_P_FWIN_FAIL_CNT p.val) + 1))) ∧
       Only [.crk, .free, .glz, .jobs, .kln, .msix, .out, .reg .klnP, .reg .stk, .reg .win, .rings, .sag, .stk, .thr, .win] s u) ∧
  (∀ (m : Fin 4) (s : State), ∃ u, exec (.frameMarkEnd m) s = .next u ∧ u.kln.marks = s.kln.marks.filter (fun x => decide (x ≠ m.val)) ∧
     Only [.kln] s u) ∧
  (∀ (k : Fin 4) (t : DWord) (s : State), (channel s k.val).paused = false → (channel s k.val).pausedAt + pauseTime s k.val ≤ t.toNat →
     ∃ u, exec (.channelPause k t) s = .next u ∧
       ((channel u k.val).paused = true ∧ rn u (Reg.KLN_PC_PAUSE_CNT k.val) = min 0xFFFFFFFF (rn s (Reg.KLN_PC_PAUSE_CNT k.val) + 1)) ∧
       Only [.clock, .ipl, .kln, .msix, .out, .reg .klnC, .reg .stk, .reg .tim, .rings, .stk] s u) ∧
  (∀ (p : Fin 16) (t : DWord) (s : State), (plane s p.val).state ≠ .stopped → (plane s p.val).paused = false →
     (plane s p.val).turnaround = false → (plane s p.val).x ≠ (plane s p.val).front →
     (plane s p.val).pausedAt + pauseTime s (planeChan s p.val) < t.toNat →
     ∃ u, exec (.planePause p t) s = .next u ∧ ((plane u p.val).paused = true ∧ (plane u p.val).pausedInFrame = true) ∧
       Only [.clock, .ipl, .kln, .msix, .out, .reg .stk, .reg .tim, .rings, .stk] s u) ∧
  (∀ (p : Fin 16) (t : DWord) (s : State), (plane s p.val).paused = true → rbit s (Reg.KLN_PC_PTICKLE (planeChan s p.val)) 16 = true →
     (plane s p.val).tickleAt ≤ t.toNat →
     ∃ u, exec (.pauseTickle p t) s = .next u ∧
       ((plane u p.val).tickleAt = (plane s p.val).tickleAt + rf s (Reg.KLN_PC_PTICKLE (planeChan s p.val)) 15 0 * us ∧
         ∀ g ∈ planeHeads s p.val, (port s g.head).pwren = true → headLive s g.head = true → tripCoversPlane s p.val = false →
           rbit s (Reg.TIL_E_SPIT (2 * g.head)) 4 = true → ∀ r ∈ fittedRows s g.head, (row u g.head r).held = tickleCodes s g.head r) ∧
       Only [.clock, .kln, .msix, .out, .ports, .reg .hlk, .reg .stk, .reg .tilE, .reg .tim, .rings, .stk] s u) ∧
  (∀ (p : Fin 16) (t : DWord) (c : Nat) (s : State), (plane s p.val).paused = true → (plane s p.val).spoiled = false →
     (plane s p.val).pausedAt + rf s (Reg.KLN_PC_PAUSE (planeChan s p.val)) 31 16 * ms < t.toNat → (plane s p.val).copy = some c →
     ∃ u, exec (.pauseSpoil p t) s = .next u ∧
       ((plane u p.val).spoiled = true ∧ rn u (Reg.KLN_P_PAUSE_SPOIL_CNT p.val) = min 0xFFFFFFFF (rn s (Reg.KLN_P_PAUSE_SPOIL_CNT p.val) + 1) ∧
         ∀ x, findCopy s c = some x → x.state ≠ .voided → findCopy u c =
           some { x with marred := p.val :: x.marred, flags := { x.flags with pause := true } }) ∧
       Only [.clock, .jobs, .kln, .msix, .out, .reg .klnP, .reg .stk, .reg .tim, .rings, .stk] s u) ∧
  (∀ (i : Fin 4) (t : DWord) (s : State), (trip s i.val).latched = false →
     ∃ u, exec (.tripInput i true t) s = .next u ∧
       ((trip u i.val).latched = true ∧ (trip u i.val).low = true ∧
         rn u (Reg.KLN_TRIP_CNT i.val) = min 0xFFFFFFFF (rn s (Reg.KLN_TRIP_CNT i.val) + 1) ∧
         ∀ p ∈ planeNums, rbit s (Reg.KLN_TRIP_MAP i.val) p = true → (plane s p).state ≠ .stopped → (plane u p).state = .stopping) ∧
       Only (completionParts ++ ([.clock, .crk, .jobs, .kln, .mot, .ports, .pwr, .reg .klnC, .reg .klnP, .reg .motA, .reg .tim, .win] : List Part)) s u) ∧
  (∀ (i : Fin 4) (t : DWord) (s : State), ∃ u, exec (.tripInput i false t) s = .next u ∧
     trip u i.val = { trip s i.val with low := false, highSince := some t.toNat } ∧ Only (completionParts ++ ([.clock, .crk, .jobs, .kln, .mot, .ports, .pwr, .reg .klnC, .reg .klnP, .reg .motA, .reg .tim, .win] : List Part)) s u) ∧
  (∀ (ini : Initiator) (v : Word) (s : State), Writable ini Reg.KLN_TRIP_CLR s = true → inRange Reg.KLN_TRIP_CLR v = true →
     ∃ u, exec (.klnTripClear ini v) s = .next u ∧
       (∀ i < 4, (trip u i).latched = ((trip s i).latched && !(v.getLsbD i && tripQualified s i))) ∧
       Only [.kln, .msix, .out, .reg .hif, .reg .klnC] s u) ∧
  (∀ (ini : Initiator) (p : Fin 16) (v : Word) (s : State), Writable ini (Reg.KLN_P_APPLY_CTRL p.val) s = true →
     inRange (Reg.KLN_P_APPLY_CTRL p.val) v = true →
     ∃ u, exec (.applyArmWrite ini p v) s = .next u ∧ rbit u (Reg.KLN_P_APPLY_CTRL p.val) 0 = v.getLsbD 0 ∧
     Only (completionParts ++ ([.cal, .crk, .entries, .gln, .glz, .ipl, .jobs, .kln, .ports, .reg .cal, .reg .hif, .reg .hlk, .reg .klnP,
       .reg .tilC, .reg .tilE, .thr, .til] : List Part)) s u)

/-- A register write with all byte enables to an answering page whose OWNER does not admit its initiator leaves every register and shadow, and in the page header only steps DENY_CNT (saturating), records OWNER_DENIED (error code, count) and sets interrupt bit 2; every other page header is unchanged. A read of an answering page is carried out whatever OWNER holds. Sagger is admitted by every OWNER, and its write is carried out. -/
def Obligations.OwnerRefusesWrites : Prop :=
  (∀ (ini : Initiator) (addr : BitVec 24) (v : Word) (s : State), aligned addr.toNat = true → clocked s = true →
     pageUp s (addr.toNat / 0x1000) = true → admits ini (getPage s (addr.toNat / 0x1000)).owner = false →
     ∃ t, exec (.registerWrite ini addr v allBytes [] []) s = .next t ∧
       ((∀ k, rd t k = rd s k ∧ rdShadow t k = rdShadow s k) ∧
         (getPage t (addr.toNat / 0x1000) = { getPage s (addr.toNat / 0x1000) with
           denyCnt := if (getPage s (addr.toNat / 0x1000)).denyCnt = 0xFFFF#16 then 0xFFFF#16
             else (getPage s (addr.toNat / 0x1000)).denyCnt + 1,
           errCode := BitVec.ofNat 16 (blockId (pageKind (addr.toNat / 0x1000)) * 256 + 0x06),
           errCount := if (getPage s (addr.toNat / 0x1000)).errCount = 255#8 then 255#8
             else (getPage s (addr.toNat / 0x1000)).errCount + 1,
           irqRaw := (getPage s (addr.toNat / 0x1000)).irqRaw ||| 4#32 }) ∧
         ∀ n, n ≠ addr.toNat / 0x1000 → getPage t n = getPage s n) ∧
       Only [.reg (pageKind (addr.toNat / 0x1000)), .msix, .out] s t) ∧
  (∀ (ini : Initiator) (addr : BitVec 24) (s : State), aligned addr.toNat = true → clocked s = true →
     pageUp s (addr.toNat / 0x1000) = true → pageBusy s (addr.toNat / 0x1000) = false →
     exec (.lowWordRead ini addr 0) s = .next (regRead ini addr.toNat (beginRead ini s))) ∧
  ((∀ o, admits .sagger o = true) ∧ ∀ (addr : BitVec 24) (v : Word) (s : State), aligned addr.toNat = true → clocked s = true →
     pageUp s (addr.toNat / 0x1000) = true → pageBusy s (addr.toNat / 0x1000) = false → inRange addr.toNat v = true →
     exec (.registerWrite .sagger addr v allBytes [] []) s = .next (regWrite .sagger addr.toNat v s))

/-- A read or a write of any dword of a page outside the address map (and outside the MSI-X structures, which lie beside it), by any initiator, with any byte enables and value, steps HIF_UNMAPPED_CNT (saturating) and returns zero to a read; every other register, every page header (so every PG_ERR) and everything else is unchanged. The event row for such an access does the same. -/
def Obligations.UnmappedPagesReadZero : Prop :=
  (∀ (ini : Initiator) (addr : BitVec 24) (v : Word) (be : BitVec 4) (s : State), aligned addr.toNat = true → clocked s = true →
     pageOf (addr.toNat / 0x1000) = none → msixArea addr.toNat = false →
     ∃ t, exec (.registerWrite ini addr v be [] []) s = .next t ∧
       (rn t Reg.HIF_UNMAPPED_CNT = min 0xFFFFFFFF (rn s Reg.HIF_UNMAPPED_CNT + 1) ∧
         (∀ k, k ≠ Reg.HIF_UNMAPPED_CNT → rd t k = rd s k) ∧ ∀ n, getPage t n = getPage s n) ∧ Only [.reg .hif] s t) ∧
  (∀ (ini : Initiator) (addr : BitVec 24) (s : State), aligned addr.toNat = true → clocked s = true →
     pageOf (addr.toNat / 0x1000) = none → msixArea addr.toNat = false →
     ∃ t, exec (.lowWordRead ini addr 0) s = .next t ∧
       (tfind t.regs.rdata (iniNum ini) = some [0#32] ∧
         rn t Reg.HIF_UNMAPPED_CNT = min 0xFFFFFFFF (rn s Reg.HIF_UNMAPPED_CNT + 1) ∧
         (∀ k, k ≠ Reg.HIF_UNMAPPED_CNT → rd t k = rd s k) ∧ ∀ n, getPage t n = getPage s n) ∧ Only [.reads, .reg .hif] s t) ∧
  (∀ (ini : Initiator) (addr : BitVec 24) (write : Bool) (s : State), clocked s = true → pageOf (addr.toNat / 0x1000) = none →
     msixArea addr.toNat = false →
     ∃ t, exec (.unmappedPageAccess ini addr write) s = .next t ∧
       ((write = false → tfind t.regs.rdata (iniNum ini) = some [0#32]) ∧
         rn t Reg.HIF_UNMAPPED_CNT = min 0xFFFFFFFF (rn s Reg.HIF_UNMAPPED_CNT + 1) ∧
         (∀ k, k ≠ Reg.HIF_UNMAPPED_CNT → rd t k = rd s k) ∧ ∀ n, getPage t n = getPage s n) ∧ Only [.reads, .reg .hif] s t)

/-- A write of 1 to SRST that reaches a page with SRST whose block is busy leaves everything but the page's error code, count and interrupt bit 2, which record SRST_BUSY. On a page whose PG_CAP.SRST is 0 it is ignored and nothing is recorded; a write with SRST 0 sets CGA there. That the whole write is ignored, its other fields with it, is the model's reading (notes/assumptions/68.md). The pages without SRST are GLB, CLK, PWR, THM, TIM, CRK, the SAG mailbox, HIF and MEM, and no others. -/
def Obligations.SoftResetRefused : Prop :=
  (∀ (ini : Initiator) (page : BitVec 12) (v : Word) (s : State), Writable ini (page.toNat * 0x1000 + 0x008) s = true →
     inRange (page.toNat * 0x1000 + 0x008) v = true → v.getLsbD 1 = true → hasSrst (pageKind page.toNat) = true →
     blockBusy s page.toNat = true →
     ∃ t, exec (.softReset ini page v) s = .next t ∧
       (getPage t page.toNat = { getPage s page.toNat with
           errCode := BitVec.ofNat 16 (blockId (pageKind page.toNat) * 256 + 0x03),
           errCount := if (getPage s page.toNat).errCount = 255#8 then 255#8 else (getPage s page.toNat).errCount + 1,
           irqRaw := (getPage s page.toNat).irqRaw ||| 4#32 } ∧
         (∀ n, n ≠ page.toNat → getPage t n = getPage s n) ∧ t.regs = s.regs) ∧ Only [.reg (pageKind page.toNat), .msix, .out] s t) ∧
  (∀ (ini : Initiator) (page : BitVec 12) (v : Word) (s : State), Writable ini (page.toNat * 0x1000 + 0x008) s = true →
     inRange (page.toNat * 0x1000 + 0x008) v = true → hasSrst (pageKind page.toNat) = false → v.getLsbD 1 = true →
     exec (.softReset ini page v) s = .next s) ∧
  (∀ (ini : Initiator) (page : BitVec 12) (v : Word) (s : State), Writable ini (page.toNat * 0x1000 + 0x008) s = true →
     inRange (page.toNat * 0x1000 + 0x008) v = true → hasSrst (pageKind page.toNat) = false → v.getLsbD 1 = false →
     ∃ t, exec (.softReset ini page v) s = .next t ∧
       (getPage t page.toNat = { getPage s page.toNat with cga := v.getLsbD 2 } ∧
         (∀ n, n ≠ page.toNat → getPage t n = getPage s n) ∧ t.regs = s.regs) ∧ Only [.reg (pageKind page.toNat)] s t) ∧
  (∀ k : PageKind, hasSrst k = false ↔ k ∈ [PageKind.glb, .clk, .pwr, .thm, .tim, .crk, .sag, .hif, .mem])

/-- On a page that admits and answers the initiator, with all byte enables and a value every field admits: a write of an RW register of a block whose registers only hold values leaves the value in the bits a write reaches and every other register as it was; a mixed register also clears the write-one-to-clear bits written 1; an RWS register of a running plane takes the value in its shadow, PENDING is set, and no active value but the deferral counter changes; a clear register zeroes exactly the counters its bits select; an RWL write lands only while the lock is open. -/
def Obligations.RegisterWritesLand : Prop :=
  (∀ (ini : Initiator) (addr : BitVec 24) (v : Word) (r : RegDef) (k : PageKind) (i : Nat) (s : State), aligned addr.toNat = true →
     Writable ini addr.toNat s = true → inRange addr.toNat v = true → refusesValue s addr.toNat v = false →
     0x040 ≤ addr.toNat % 0x1000 → pageOf (addr.toNat / 0x1000) = some (k, i) →
     k ∈ [PageKind.thm, .stk, .crk, .sag, .mem, .thr, .mil, .pifC, .motC, .cal] →
     clearMap s k (addr.toNat / 0x1000 * 0x1000) (addr.toNat % 0x1000) = none → regDef addr.toNat = some r → r.acc = .rw →
     ∃ t, exec (.registerWrite ini addr v allBytes [] []) s = .next t ∧
       (rd t (keyOf s addr.toNat) = plainValue r (rd s (keyOf s addr.toNat)) v ∧
         (∀ a, a ≠ keyOf s addr.toNat → rd t a = rd s a) ∧ (k ≠ .thm → t.thm = s.thm)) ∧
       Only [.reg (keyKind (keyOf s addr.toNat)), .thm] s t) ∧
  (∀ (ini : Initiator) (addr : BitVec 24) (v : Word) (r : RegDef) (k : PageKind) (i : Nat) (s : State), aligned addr.toNat = true →
     Writable ini addr.toNat s = true → inRange addr.toNat v = true → refusesValue s addr.toNat v = false →
     0x040 ≤ addr.toNat % 0x1000 → pageOf (addr.toNat / 0x1000) = some (k, i) →
     k ∈ [PageKind.thm, .stk, .crk, .sag, .mem, .thr, .mil, .pifC, .motC, .cal] →
     clearMap s k (addr.toNat / 0x1000 * 0x1000) (addr.toNat % 0x1000) = none → regDef addr.toNat = some r → r.acc = .mixed →
     ∃ t, exec (.statusW1cClear ini addr v allBytes) s = .next t ∧
       ((∀ b, r.w1c.getLsbD b = true → v.getLsbD b = true → (rd t (keyOf s addr.toNat)).getLsbD b = false) ∧
         (∀ b, r.mask.getLsbD b = false → r.w1c.getLsbD b = true → v.getLsbD b = false →
           (rd t (keyOf s addr.toNat)).getLsbD b = (rd s (keyOf s addr.toNat)).getLsbD b) ∧
         (∀ a, a ≠ keyOf s addr.toNat → rd t a = rd s a) ∧ (k ≠ .thm → t.thm = s.thm)) ∧
       Only [.reg (keyKind (keyOf s addr.toNat)), .thm] s t) ∧
  (∀ (ini : Initiator) (addr : BitVec 24) (v : Word) (r : RegDef) (p : Nat) (s : State), aligned addr.toNat = true →
     Writable ini addr.toNat s = true → inRange addr.toNat v = true → refusesValue s addr.toNat v = false →
     0x040 ≤ addr.toNat % 0x1000 → pageOf (addr.toNat / 0x1000) = some (.klnP, p) →
     addr.toNat % 0x1000 ≠ 0x068 → addr.toNat % 0x1000 ≠ 0x100 → addr.toNat % 0x1000 ≠ 0x124 →
     clearMap s .klnP (addr.toNat / 0x1000 * 0x1000) (addr.toNat % 0x1000) = none → regDef addr.toNat = some r → r.acc = .rws →
     (plane s p).state ≠ .stopped →
     ∃ t, exec (.rwsRegisterWrite ini addr v allBytes []) s = .next t ∧
       (rdShadow t (keyOf s addr.toNat) = ((v &&& r.mask) ||| (rdShadow s (keyOf s addr.toNat) &&& ~~~r.mask)) ∧
         (getPage t (addr.toNat / 0x1000)).pending = true ∧
         ∀ a, a ≠ Reg.KLN_P_DEFER_CNT p → rd t a = rd s a) ∧ Only [.reg .klnP, .msix, .out] s t) ∧
  (∀ (ini : Initiator) (addr : BitVec 24) (v : Word) (k : PageKind) (i : Nat) (l : List (List Nat)) (s : State),
     aligned addr.toNat = true → Writable ini addr.toNat s = true → inRange addr.toNat v = true →
     refusesValue s addr.toNat v = false → 0x040 ≤ addr.toNat % 0x1000 → pageOf (addr.toNat / 0x1000) = some (k, i) →
     clearMap s k (addr.toNat / 0x1000 * 0x1000) (addr.toNat % 0x1000) = some l → k ∉ [PageKind.klnC, .tilE, .pifCh] →
     ∃ t, exec (.counterClear ini addr v allBytes) s = .next t ∧
       ((∀ b ks a, l[b]? = some ks → v.getLsbD b = true → a ∈ ks → rn t a = 0) ∧
         ∀ a, (∀ b ks, l[b]? = some ks → v.getLsbD b = true → a ∉ ks) → rd t a = rd s a) ∧ Only (allRegs ++ ([.stk, .thm] : List Part)) s t) ∧
  (∀ (ini : Initiator) (addr : BitVec 24) (v : Word) (r : RegDef) (k : PageKind) (i : Nat) (s : State), aligned addr.toNat = true →
     Writable ini addr.toNat s = true → inRange addr.toNat v = true → refusesValue s addr.toNat v = false →
     0x040 ≤ addr.toNat % 0x1000 → pageOf (addr.toNat / 0x1000) = some (k, i) →
     k ∈ [PageKind.thm, .stk, .crk, .sag, .mem, .thr, .mil, .pifC, .motC, .cal] →
     clearMap s k (addr.toNat / 0x1000 * 0x1000) (addr.toNat % 0x1000) = none → regDef addr.toNat = some r → r.acc = .rw →
     ∃ t, exec (.rwlRegisterWrite ini addr v allBytes) s = .next t ∧
       ((lockOpen s = true → rd t (keyOf s addr.toNat) = plainValue r (rd s (keyOf s addr.toNat)) v) ∧
         (lockOpen s = false → (∀ a, rd t a = rd s a) ∧
           (getPage t (addr.toNat / 0x1000)).errCode = BitVec.ofNat 16 (blockId (pageKind (addr.toNat / 0x1000)) * 256 + 0x02) ∧
           (getPage t (addr.toNat / 0x1000)).denyCnt = if (getPage s (addr.toNat / 0x1000)).denyCnt = 0xFFFF#16 then 0xFFFF#16
             else (getPage s (addr.toNat / 0x1000)).denyCnt + 1)) ∧
       Only [.reg (keyKind (keyOf s addr.toNat)), .reg (pageKind (addr.toNat / 0x1000)), .msix, .out, .thm] s t)

/-- PG_IRQ_STAT clears the raw bits written 1, PG_IRQ_SET sets those the page has a source for, PG_ERR.CLR clears code and count; PG_SHADOW.DISCARD returns every shadow of the page to its active value and clears PENDING; HOLD and VIEW take the written bits; GLB_HOLD_REL clears HOLD (a core's with CMD: the command holds) on exactly the pages it selects; SRST of an idle page puts it in its soft reset, disabled and with nothing pending, and its end ends it; EN of a head port follows the write and starts training of a framed port that was off, EN of a position channel enables it at position 0. -/
def Obligations.HeaderWritesLand : Prop :=
  (∀ (ini : Initiator) (page : BitVec 12) (v : Word) (s : State), Writable ini (page.toNat * 0x1000 + 0x018) s = true →
     inRange (page.toNat * 0x1000 + 0x018) v = true →
     ∃ t, exec (.pgIrqStatClear ini page v) s = .next t ∧
       (getPage t page.toNat = { getPage s page.toNat with irqRaw := (getPage s page.toNat).irqRaw &&& ~~~v } ∧
         ∀ n, n ≠ page.toNat → getPage t n = getPage s n) ∧ Only [.reg (pageKind page.toNat)] s t) ∧
  (∀ (ini : Initiator) (page : BitVec 12) (v : Word) (s : State), Writable ini (page.toNat * 0x1000 + 0x01C) s = true →
     inRange (page.toNat * 0x1000 + 0x01C) v = true →
     ∃ t, exec (.pgIrqSet ini page v) s = .next t ∧
       (getPage t page.toNat = { getPage s page.toNat with irqRaw := (getPage s page.toNat).irqRaw ||| (v &&& irqSources (pageKind page.toNat)) } ∧
         ∀ n, n ≠ page.toNat → getPage t n = getPage s n) ∧ Only [.reg (pageKind page.toNat), .msix, .out] s t) ∧
  (∀ (ini : Initiator) (page : BitVec 12) (v : Word) (s : State), Writable ini (page.toNat * 0x1000 + 0x024) s = true →
     inRange (page.toNat * 0x1000 + 0x024) v = true → v.getLsbD 31 = true →
     ∃ t, exec (.pgErrClear ini page v) s = .next t ∧
       (getPage t page.toNat = { getPage s page.toNat with errCode := 0, errCount := 0 } ∧
         ∀ n, n ≠ page.toNat → getPage t n = getPage s n) ∧ Only [.reg (pageKind page.toNat)] s t) ∧
  (∀ (ini : Initiator) (page : BitVec 12) (v : Word) (s : State), Writable ini (page.toNat * 0x1000 + 0x020) s = true →
     inRange (page.toNat * 0x1000 + 0x020) v = true → v.getLsbD 3 = true →
     ∃ t, exec (.shadowDiscard ini page v) s = .next t ∧
       ((getPage t page.toNat).pending = false ∧ ∀ k, keyAddr k / 0x1000 = page.toNat → rdShadow t k = rd t k) ∧
       Only (allRegs ++ ([.cal, .crk, .entries, .fw, .gln, .glz, .ipl, .jobs, .kln, .memory, .msix, .out, .ports, .rings, .stk, .thr,
         .til] : List Part)) s t) ∧
  (∀ (ini : Initiator) (page : BitVec 12) (v : Word) (s : State), Writable ini (page.toNat * 0x1000 + 0x020) s = true →
     inRange (page.toNat * 0x1000 + 0x020) v = true → v.getLsbD 3 = false → v.getLsbD 2 = true →
     ∃ t, exec (.shadowHoldWrite ini page v) s = .next t ∧
       (getPage t page.toNat = { getPage (notePage page.toNat s) page.toNat with
           hold := true, view := v.getLsbD 4, deferred := (getPage s page.toNat).deferred && !v.getLsbD 1 } ∧
         ∀ n, n ≠ page.toNat → getPage t n = getPage s n) ∧ Only [.reg (pageKind page.toNat)] s t) ∧
  (∀ (ini : Initiator) (v : Word) (s : State), Writable ini Reg.GLB_HOLD_REL s = true → inRange Reg.GLB_HOLD_REL v = true →
     v.getLsbD 17 = false →
     ∃ t, exec (.holdRelease ini v) s = .next t ∧
       ((∀ n ∈ holdPages s v, (getPage t n).hold = false) ∧ ∀ n, n ∉ holdPages s v → (getPage t n).hold = (getPage s n).hold) ∧
       Only (allRegs ++ ([.cal, .crk, .entries, .fw, .gln, .glz, .ipl, .jobs, .kln, .memory, .msix, .out, .ports, .rings, .stk, .thr,
         .til] : List Part)) s t) ∧
  (∀ (v : Word) (s : State), Writable .core Reg.GLB_HOLD_REL s = true → inRange Reg.GLB_HOLD_REL v = true → v.getLsbD 17 = true →
     ∃ t, exec (.cmdHoldRelease .core v) s = .next t ∧
       ((∀ n ∈ holdPages s v, (getPage t n).cmdHold = false) ∧ ∀ n, (getPage t n).hold = (getPage s n).hold) ∧
       Only (allRegs ++ ([.cal, .crk, .entries, .fw, .gln, .glz, .ipl, .jobs, .kln, .memory, .msix, .out, .ports, .rings, .stk, .thr,
         .til] : List Part)) s t) ∧
  (∀ (ini : Initiator) (page : BitVec 12) (v : Word) (s : State), Writable ini (page.toNat * 0x1000 + 0x008) s = true →
     inRange (page.toNat * 0x1000 + 0x008) v = true → v.getLsbD 1 = true → hasSrst (pageKind page.toNat) = true →
     blockBusy s page.toNat = false →
     ∃ t, exec (.softReset ini page v) s = .next t ∧
       ((getPage t page.toNat).inReset = true ∧ (getPage t page.toNat).en = false ∧ (getPage t page.toNat).pending = false) ∧
       Only (allRegs ++ ([.crk, .fans, .free, .gln, .ipl, .jobs, .kln, .msix, .out, .pif, .ports, .rings, .sag, .stk, .trm,
         .win] : List Part)) s t) ∧
  (∀ (page : BitVec 12) (s : State), pageUp s page.toNat = true →
     ∃ t, exec (.softResetEnd page) s = .next t ∧ (getPage t page.toNat = { getPage s page.toNat with inReset := false } ∧
       ∀ n, n ≠ page.toNat → getPage t n = getPage s n) ∧ Only [.reg (pageKind page.toNat)] s t) ∧
  (∀ (ini : Initiator) (h : Fin 64) (v : Word) (s : State), Writable ini (pgHlk h.val * 0x1000 + 0x008) s = true →
     inRange (pgHlk h.val * 0x1000 + 0x008) v = true → v.getLsbD 1 = false → v.getLsbD 0 = true → portMode s h.val = 1 →
     (port s h.val).link = .off →
     ∃ t, exec (.hlkPortEnable ini h v) s = .next t ∧
       ((getPage t (pgHlk h.val)).en = true ∧ (port t h.val).link = .training ∧ (port t h.val).align = 0 ∧
         ∀ g, g ≠ h.val → port t g = port s g) ∧ Only [.free, .msix, .out, .ports, .reg .hlk, .reg .stk, .rings, .stk] s t) ∧
  (∀ (ini : Initiator) (c : Fin 4) (v : Word) (s : State), Writable ini (pgPif c.val * 0x1000 + 0x008) s = true →
     inRange (pgPif c.val * 0x1000 + 0x008) v = true → v.getLsbD 1 = false → v.getLsbD 0 = true → (pif s c.val).enabled = false →
     ∃ t, exec (.pifChannelEnable ini c v) s = .next t ∧
       ((getPage t (pgPif c.val)).en = true ∧ (pif t c.val).enabled = true ∧ (pif t c.val).pos = 0 ∧ (pif t c.val).ref = none ∧
         ∀ d, d ≠ c.val → pif t d = pif s d) ∧ Only [.pif, .reg .pifCh] s t)

/-- CAL_CONTROL on inspected planes completes and freezes, runs, or discards the open window of, exactly the planes of its mask. REF_SELECT completes and with action 1 makes A the running M of the port and puts it INSIDE. CAL_STATUS completes with the plane's counts, reason, state and last slot. A write of a model register discards the selected plane's window, one of GLN_CTRL or GLN_QUAL every window. Resident firmware turns a held dump into a proposal and releases it; CAL takes a proposal away, and either counts and names the first check it fails, or counts its acceptance and puts every gain in line for the latch. -/
def Obligations.CalibrationRuns : Prop :=
  (∀ (d : Desc) (mask : BitVec 16) (action : BitVec 8) (s : State), Admitted d .o (fun _ => (maskBits 16 mask.toNat).map objPlane) s = true →
     action.toNat ≤ 2 → (∀ p ∈ maskBits 16 mask.toNat, camNums.any (fun k => inspects s k p) = true) →
     ∃ t, exec (.calControl d mask action) s = .next t ∧
       (Completed d 0 0 s t ∧
         (action.toNat = 0 → (∀ p ∈ maskBits 16 mask.toNat, p ∉ t.cal.run) ∧
           ∀ p, p ∉ maskBits 16 mask.toNat → (p ∈ t.cal.run ↔ p ∈ s.cal.run)) ∧
         (action.toNat = 1 → ∀ p, p ∈ t.cal.run ↔ p ∈ s.cal.run ∨ p ∈ maskBits 16 mask.toNat) ∧
         (action.toNat = 2 → ∀ p ∈ maskBits 16 mask.toNat, tfind t.gln.wins p = none)) ∧ Only (completionParts ++ ([.cal, .gln] : List Part)) s t) ∧
  (∀ (d : Desc) (port action : BitVec 8) (s : State), Admitted d .o (fun _ => [objPort port.toNat]) s = true → port.toNat ≤ 3 →
     action.toNat ≤ 1 →
     ∃ t, exec (.refSelect d port action) s = .next t ∧
       (Completed d 0 0 s t ∧ (action.toNat = 0 → t.cal = s.cal) ∧
         (action.toNat = 1 → (whiteRef t port.toNat).state = 1 ∧ (whiteRef t port.toNat).a = (whiteRef s port.toNat).m ∧
           (whiteRef t port.toNat).m = (whiteRef s port.toNat).m)) ∧ Only (completionParts ++ ([.cal, .gln] : List Part)) s t) ∧
  (∀ (d : Desc) (p : BitVec 8) (s : State), Admitted d .o noObjs s = true → p.toNat ≤ 15 →
     ∃ t, exec (.calStatus d p) s = .next t ∧
       Completed d 0 (res 16 (rn s (wkey Reg.CAL_PL_ACC p.toNat)) + res 20 (rn s (wkey Reg.CAL_PL_REJ p.toNat)) +
         res 24 (calReason s p.toNat) + res 25 (calState s p.toNat) + res 26 (rn s (wkey Reg.CAL_PL_LAST_SLOT p.toNat))) s t ∧
       Only completionParts s t) ∧
  (∀ (ini : Initiator) (reg : Fin 8) (v : Word) (s : State), Writable ini (gleanReg reg.val) s = true →
     inRange (gleanReg reg.val) v = true → gleanRefuses (gleanReg reg.val) v = false →
     ∃ t, exec (.gleanWindowDiscardWrite ini reg v) s = .next t ∧
       (if reg.val < 6 then tfind t.gln.wins (rf s Reg.WIN_PL_SEL 3 0) = none ∧
           ∀ p, p ≠ rf s Reg.WIN_PL_SEL 3 0 → tfind t.gln.wins p = tfind s.gln.wins p
         else t.gln.wins = []) ∧ Only [.gln, .msix, .out, .reg .gln, .reg .hif, .reg .win] s t) ∧
  (∀ (p : Fin 16) (id : Nat) (w : GleanWin) (s : State), tfind s.gln.dumps p.val = some (id, w) → tfind s.cal.props p.val = none →
     ∃ t, exec (.gleanDumpSolve p) s = .next t ∧
       (tfind t.cal.props p.val = some (propose s p.val id w) ∧ (tfind s.gln.closed p.val = none → tfind t.gln.dumps p.val = none) ∧
         ∀ x, tfind s.gln.closed p.val = some x → tfind t.gln.dumps p.val = some (tget s.gln.latest 0 p.val + 1, x)) ∧
       Only [.cal, .gln] s t) ∧
  (∀ (p : Fin 16) (x : Proposal) (s : State), tfind s.cal.props p.val = some x → (plane s p.val).state ≠ .stopped →
     ∃ t, exec (.calProposalCheck p) s = .next t ∧
       (tfind t.cal.props p.val = none ∧
         (∀ r, calReject s p.val x = some r → t.cal.waiting = s.cal.waiting ∧
           rn t (wkey Reg.CAL_PL_REJ p.val) = min 0xFFFFFFFF (rn s (wkey Reg.CAL_PL_REJ p.val) + 1) ∧
           rf t (wkey Reg.CAL_PL_STAT p.val) 11 8 = r % 16) ∧
         (calReject s p.val x = none → t.cal.waiting = s.cal.waiting ++ x.entries.map (fun e => (p.val, e.1, e.2)) ∧
           rn t (wkey Reg.CAL_PL_ACC p.val) = min 0xFFFFFFFF (rn s (wkey Reg.CAL_PL_ACC p.val) + 1))) ∧ 
       Only (completionParts ++ ([.cal, .crk, .entries, .gln, .glz, .jobs, .kln, .ports, .reg .cal, .thr, .til] : List Part)) s t)

/-- AXIS_CONFIG of a DISABLED axis with a good image completes, and every configuration register holds the image's word. AXIS_ENABLE with action 1 in RUN is accepted, waits for the admission of each axis not yet enabled, and makes those ENABLING; with action 0 every axis of the mask becomes DISABLED, or TRIPPED where a trip covers it, with no motion. AXIS_MOVE and AXIS_RESUME of an axis at standstill are accepted and the axis moves to the target, the retained move discarded. AXIS_STOP of moving axes is accepted, waits for each and makes it STOPPING in the mode given. AXIS_HOME is accepted and the axis homes, or with sequence 3 completes and makes the present position HOME_POS and sets HOMED. AXIS_QUERY completes with position and state. A write to MOT_A_FAULT clears each latched bit written 1 whose condition is gone. Each answers a next state and changes nothing outside the parts named. -/
def Obligations.AxisCommandsRun : Prop :=
  (∀ (d : Desc) (a : BitVec 8) (handle : Word) (x : Stream) (s : State),
     Admitted d .o (fun _ => [objAxis a.toNat]) s = true → a.toNat < 8 →
     findStream s (ring s d.ring.val).tenant handle.toNat = some x → x.failed = false → x.complete = true →
     (axis s a.toNat).state = .disabled → x.bytes.length = 160 → imageRanges x.bytes = true → imageLimits (imageWord x.bytes) = true →
     imageProfiles (imageWord x.bytes) = true →
     ∃ t, exec (.axisConfig d a handle) s = .next t ∧
       (Completed d 0 0 s t ∧ ∀ r ∈ regRows .motA, 0x80 ≤ r.off → rd t (pgMot a.toNat * 0x1000 + r.off) =
         plainValue r (rd s (pgMot a.toNat * 0x1000 + r.off)) (BitVec.ofNat 32 (imageWord x.bytes r.off))) ∧ Only (completionParts ++ ([.reg .motA] : List Part)) s t) ∧
  (∀ (d : Desc) (mask action : BitVec 8) (s : State),
     Admitted d .o (fun _ => (maskBits 8 mask.toNat).map objAxis) s = true → action.toNat ≤ 1 →
     (action.toNat = 1 → s.pwr.state = .run ∧ s.pwr.toward = none ∧ toEnable s (maskBits 8 mask.toNat) ≠ [] ∧
       ∀ a ∈ maskBits 8 mask.toNat, tripCoversAxis s a = false ∧ mayEnable s a = true) →
     ∃ t, exec (.axisEnable d mask action) s = .next t ∧
       ((action.toNat = 1 → Accepted d (.axisEnable d mask action) [] ((toEnable s (maskBits 8 mask.toNat)).map keyAdmit) s t ∧
           ∀ a ∈ toEnable s (maskBits 8 mask.toNat), (axis t a).state = .enabling) ∧
         (action.toNat = 0 → ∀ a ∈ maskBits 8 mask.toNat, (axis t a).state = (if tripCoversAxis s a then .tripped else .disabled) ∧
           (axis t a).move = none ∧ (axis t a).vel = 0)) ∧
       Only (completionParts ++ ([.mot, .pwr, .reg .motA] : List Part)) s t) ∧
  (∀ (d : Desc) (a profile : BitVec 8) (target : DWord) (s : State), Admitted d .o (fun _ => [objAxis a.toNat]) s = true →
     a.toNat < 8 → profile.toNat < 4 → targetOk s a.toNat target.toInt = true → (axis s a.toNat).state = .standstill →
     mayMove s a.toNat (decide ((axis s a.toNat).counts ≤ target.toInt)) = true →
     ∃ t, exec (.axisMove d a profile target) s = .next t ∧
       (Accepted d (.axisMove d a profile target) [] [] s t ∧ (axis t a.toNat).state = .moving ∧
         (axis t a.toNat).move = some ⟨.host, target.toInt, profile.toNat, some s.fw.nextSeq⟩ ∧ (axis t a.toNat).retained = none ∧
         ∀ b, b ≠ a.toNat → axis t b = axis s b) ∧ Only (completionParts ++ ([.mot, .reg .motA] : List Part)) s t) ∧
  (∀ (d : Desc) (mask mode : BitVec 8) (s : State), Admitted d .o (fun _ => (maskBits 8 mask.toNat).map objAxis) s = true →
     mode.toNat ≤ 1 → maskBits 8 mask.toNat ≠ [] → (∀ a ∈ maskBits 8 mask.toNat, (axis s a).state = .moving) →
     ∃ t, exec (.axisStop d mask mode) s = .next t ∧
       (Accepted d (.axisStop d mask mode) [] ((maskBits 8 mask.toNat).map keyAxis) s t ∧
         ∀ a ∈ maskBits 8 mask.toNat, (axis t a).state = .stopping ∧
           (axis t a).stop = if mode.toNat = 0 then .mode0 else .mode1) ∧ Only (completionParts ++ ([.mot, .reg .motA] : List Part)) s t) ∧
  (∀ (d : Desc) (a : BitVec 8) (m : Move) (s : State), Admitted d .o (fun _ => [objAxis a.toNat]) s = true → a.toNat < 8 →
     (axis s a.toNat).retained = some m → (axis s a.toNat).state = .standstill →
     mayMove s a.toNat (decide ((axis s a.toNat).counts ≤ m.target)) = true →
     ∃ t, exec (.axisResume d a) s = .next t ∧
       (Accepted d (.axisResume d a) [] [] s t ∧ (axis t a.toNat).state = .moving ∧
         (axis t a.toNat).move = some ⟨.host, m.target, m.profile, some s.fw.nextSeq⟩ ∧ (axis t a.toNat).retained = none ∧
         ∀ b, b ≠ a.toNat → axis t b = axis s b) ∧ Only (completionParts ++ ([.mot, .reg .motA] : List Part)) s t) ∧
  (∀ (d : Desc) (a seq : BitVec 8) (timeout : Word) (s : State), Admitted d .o (fun _ => [objAxis a.toNat]) s = true →
     a.toNat < 8 → seq.toNat ≤ 3 → tripCoversAxis s a.toNat = false → (axis s a.toNat).state = .standstill →
     mayMove s a.toNat (rbit s (Reg.MOT_A_HOMECFG a.toNat) 0) = true → (seq.toNat = 1 → rbit s (Reg.MOT_A_CFG a.toNat) 13 = true) →
     ∃ t, exec (.axisHome d a seq timeout) s = .next t ∧
       ((seq.toNat ≤ 2 → Accepted d (.axisHome d a seq timeout) [] [] s t ∧ (axis t a.toNat).state = .moving ∧
           homing (axis t a.toNat) = true ∧ moveCmd (axis t a.toNat) = some s.fw.nextSeq) ∧
         (seq.toNat = 3 → Completed d 0 (res 16 (unsigned 64 (pos48 s (Reg.MOT_A_HOME_POS a.toNat)))) s t ∧
           (axis t a.toNat).homed = true ∧ (axis t a.toNat).counts = pos48 s (Reg.MOT_A_HOME_POS a.toNat) ∧
           (axis t a.toNat).retained = none)) ∧ Only (completionParts ++ ([.mot, .reg .motA] : List Part)) s t) ∧
  (∀ (d : Desc) (a : BitVec 8) (s : State), Admitted d .o noObjs s = true → a.toNat < 8 →
     ∃ t, exec (.axisQuery d a) s = .next t ∧
       Completed d 0 (res 16 (unsigned 64 (axis s a.toNat).counts) + res 24 (axis s a.toNat).state.code) s t ∧ Only completionParts s t) ∧
  (∀ (ini : Initiator) (a : Fin 8) (v : Word) (s : State), Writable ini (Reg.MOT_A_FAULT a.val) s = true →
     inRange (Reg.MOT_A_FAULT a.val) v = true →
     ∃ t, exec (.motFaultClear ini a v) s = .next t ∧
       ((∀ b < 5, v.getLsbD b = true → faultPresent s a.val b = false → rbit t (Reg.MOT_A_FAULT a.val) b = false) ∧
         ∀ b < 5, v.getLsbD b = false ∨ faultPresent s a.val b = true →
           rbit t (Reg.MOT_A_FAULT a.val) b = rbit s (Reg.MOT_A_FAULT a.val) b) ∧ Only [.msix, .out, .reg .hif, .reg .motA] s t)

/-- A generator update of a host move moves axis time on 10 us at a speed within VMAX. A PWM period at standstill computes each phase's duty from the loop law. A second fast-filter code past OC_LIM, or a lost bitstream, of a powered bridge latches its bit and puts the axis in FAULT with duties 0. A limit input that becomes active ahead of a moving axis latches LIMIT and makes it STOPPING. The home switch ends the search of a homing sequence. A move at its target, or stopped, is over: the axis is at STANDSTILL. A homing sequence at its end event makes the position HOME_POS and sets HOMED; one whose timeout expires stops with HOMED clear. SS_DLY after a move the standstill choice applies. The front of the enable queue, 100 us after the admission before it and with both bitstreams live, enters STANDSTILL. Each answers a next state and changes nothing outside the parts named. -/
def Obligations.AxesMove : Prop :=
  (∀ (a : Fin 8) (m : Move) (s : State), (axis s a.val).move = some m → m.kind = .host → (axis s a.val).stop = .none →
     (axis s a.val).state = .moving → rbit s (Reg.MOT_A_CFG a.val) 13 = false → (∀ k < 4, pcSrc s k = 3 → pcSub s k ≠ a.val) →
     ∃ t, exec (.motGeneratorUpdate a) s = .next t ∧
       ((axis t a.val).ts = (axis s a.val).ts + 256000 ∧ (axis t a.val).vel.natAbs ≤ prof s a.val m.profile 0 ∧
         (axis t a.val).move = some m ∧ (axis t a.val).state = .moving) ∧
       Only (completionParts ++ ([.cal, .clk, .clock, .crk, .entries, .free, .gln, .glz, .hif, .ipl, .jobs, .kln, .memory, .mot, .pif, .ports, .reg .cal, .reg .hif, .reg .hlk, .reg .iplP, .reg .klnC, .reg .klnP, .reg .motA, .reg .pifCh, .reg .tilC, .reg .tilE, .reg .tim, .reg .win, .sag, .thr, .til, .win] : List Part)) s t) ∧
  (∀ (a : Fin 8) (ia ib : BitVec 16) (s : State), axisMode s a.val = 1 → (axis s a.val).state = .standstill →
     drivesCurrent s a.val = true →
     let mu : Int := 4096 / 2 ^ rf s (Reg.MOT_A_CFG a.val) 5 2
     let idx := (divF (divF (axis s a.val).counts mu * mu % 16384) 16).toNat
     ∃ t, exec (.motPwmPeriod a ia ib) s = .next t ∧
       ((axis t a.val).phA = phaseStep s a.val (divF (iNow s a.val * sine idx) 32768) ia.toInt (axis s a.val).phA ∧
         (axis t a.val).phB = phaseStep s a.val (divF (iNow s a.val * sine (idx + 256)) 32768) ib.toInt (axis s a.val).phB ∧
         -1023 ≤ (axis t a.val).phA.duty ∧ (axis t a.val).phA.duty ≤ 1023 ∧ ∀ b, b ≠ a.val → axis t b = axis s b) ∧ Only (completionParts ++ ([.free, .mot, .reg .motA] : List Part)) s t) ∧
  (∀ (a : Fin 8) (ph : Bool) (code : BitVec 16) (s : State), bridgeOn s a.val = true → rbit s (Reg.MOT_A_FAULT a.val) 0 = false →
     rf s (Reg.MOT_A_CUR2 a.val) 31 16 < code.toInt.natAbs →
     1 ≤ (if ph then (axis s a.val).phB else (axis s a.val).phA).overRun →
     ∃ t, exec (.motSdFastFilter a ph code) s = .next t ∧
       (rbit t (Reg.MOT_A_FAULT a.val) 0 = true ∧ (axis t a.val).state = .fault ∧ (axis t a.val).move = none ∧
         (axis t a.val).phA.duty = 0 ∧ (axis t a.val).phB.duty = 0 ∧ ∀ b, b ≠ a.val → axis t b = axis s b) ∧ Only (completionParts ++ ([.mot, .reg .motA] : List Part)) s t) ∧
  (∀ (a : Fin 8) (ph : Bool) (s : State), bridgeOn s a.val = true → rbit s (Reg.MOT_A_FAULT a.val) 1 = false →
     ∃ t, exec (.motSdLoss a ph true) s = .next t ∧
       (rbit t (Reg.MOT_A_FAULT a.val) 1 = true ∧ (axis t a.val).state = .fault ∧ (axis t a.val).move = none ∧
         (axis t a.val).phA.duty = 0 ∧ (axis t a.val).phB.duty = 0 ∧ ∀ b, b ≠ a.val → axis t b = axis s b) ∧ Only (completionParts ++ ([.mot, .reg .motA] : List Part)) s t) ∧
  (∀ (a : Fin 8) (positive high : Bool) (s : State), rbit s (Reg.MOT_A_HOMECFG a.val) 3 = true → limitActive s a.val positive = false →
     high = !rbit s (Reg.MOT_A_HOMECFG a.val) 2 → movesToward s a.val positive = true →
     ∃ t, exec (.motLimitInput a positive high) s = .next t ∧
       (limitActive t a.val positive = true ∧ rbit t (Reg.MOT_A_FAULT a.val) 4 = true ∧ (axis t a.val).state = .stopping ∧
         (axis t a.val).stop = .limit ∧ ∀ b, b ≠ a.val → axis t b = axis s b) ∧ Only [.mot, .msix, .out, .reg .motA, .reg .stk, .rings, .stk] s t) ∧
  (∀ (a : Fin 8) (high : Bool) (m : Move) (seq d : Nat) (s : State), (axis s a.val).move = some m → m.kind = .home seq 0 d → seq ≤ 1 →
     high = !rbit s (Reg.MOT_A_HOMECFG a.val) 1 →
     ∃ t, exec (.motHomeInput a high) s = .next t ∧
       (axis t a.val = { axis s a.val with homeIn := high, move := some { m with kind := .home seq 1 d } } ∧
         ∀ b, b ≠ a.val → axis t b = axis s b) ∧ Only [.mot] s t) ∧
  (∀ (a : Fin 8) (m : Move) (s : State), (axis s a.val).move = some m → (∀ q p d, m.kind ≠ .home q p d) →
     (axis s a.val).stop = .none ∧ (axis s a.val).state = .moving ∧ (axis s a.val).pos = m.target * 2 ^ 32 ∨
       ((axis s a.val).stop = .mode0 ∨ (axis s a.val).stop = .mode1) ∧ (axis s a.val).state = .stopping ∧ (axis s a.val).vel = 0 →
     (axis s a.val).feedWait = none →
     ∃ t, exec (.moveComplete a) s = .next t ∧
       ((axis t a.val).state = .standstill ∧ (axis t a.val).move = none ∧ (axis t a.val).stop = .none ∧ (axis t a.val).pos = (axis s a.val).pos ∧
         (m.kind = .host → (axis s a.val).stop ≠ .none → (axis t a.val).retained = some { m with cmd := none }) ∧
         ∀ b, b ≠ a.val → axis t b = axis s b) ∧ Only (completionParts ++ ([.mot, .reg .motA] : List Part)) s t) ∧
  (∀ (a : Fin 8) (m : Move) (seq d : Nat) (s : State), (axis s a.val).move = some m → m.kind = .home seq 5 d →
     (axis s a.val).feedWait = none →
     ∃ t, exec (.homingComplete a) s = .next t ∧
       ((axis t a.val).state = .standstill ∧ (axis t a.val).move = none ∧ (axis t a.val).homed = true ∧
         (axis t a.val).counts = pos48 s (Reg.MOT_A_HOME_POS a.val) ∧ ∀ b, b ≠ a.val → axis t b = axis s b) ∧ Only (completionParts ++ ([.mot, .reg .motA] : List Part)) s t) ∧
  (∀ (a : Fin 8) (ti : DWord) (m : Move) (seq ph d : Nat) (s : State), (axis s a.val).move = some m → m.kind = .home seq ph d →
     d ≤ ti.toNat → ph ≠ 5 →
     ∃ t, exec (.homingTimeout a ti) s = .next t ∧
       (now t = max (now s) ti.toNat ∧ (axis t a.val).state = .stopping ∧ (axis t a.val).stop = .timeout ∧ (axis t a.val).homed = false ∧
         ∀ b, b ≠ a.val → axis t b = axis s b) ∧ Only [.clock, .mot, .msix, .out, .reg .motA, .reg .stk, .reg .tim, .rings, .stk] s t) ∧
  (∀ (a : Fin 8) (s : State), (axis s a.val).state = .standstill → (axis s a.val).held = true →
     ∃ t, exec (.motStandstillTimer a) s = .next t ∧
       (axis t a.val = { axis s a.val with held := false, applied := true } ∧ ∀ b, b ≠ a.val → axis t b = axis s b) ∧
       Only [.mot] s t) ∧
  (∀ (a c : Nat) (rest : List (Nat × Nat)) (ti : DWord) (s : State), s.mot.queue = (a, c) :: rest → s.mot.admitAt ≤ ti.toNat →
     (axis s a).phA.lost = false → (axis s a).phB.lost = false →
     ∃ t, exec (.motEnableAdmit ti) s = .next t ∧
       (t.mot.queue = rest ∧ t.mot.admitAt = ti.toNat + 100 * us ∧ (axis t a).state = .standstill ∧ (axis t a).scale = 256 ∧
         (axis t a).held = false ∧ ∀ b, b ≠ a → axis t b = axis s b) ∧
       Only (completionParts ++ ([.clock, .mot, .reg .motA, .reg .tim] : List Part)) s t)

/-- A write of TIM_WR_CTRL.NOW with SRC 0 replaces press time by the staged seconds, nanoseconds and fraction, ends the slew and sets VALID; AT_SEC alone sets the pending apply, and CANCEL alone clears it. A write of TIM_CTRL chooses the source, ends the slew and keeps TIM_RATE, and the next measurement is the first. The first PTM measurement of a source, awaited with SRC 1, is a step: it counts, clears the wait, holdover and LOCKED, and sets VALID. Time going on to the next roll-over with no slew and no pending apply adds one second, less than one cycle past it. Time going on to the end of a slew leaves slew 0. Each answers a next state and changes nothing outside the parts named. -/
def Obligations.PressTimeRuns : Prop :=
  (∀ (ini : Initiator) (v : Word) (s : State), Writable ini Reg.TIM_WR_CTRL s = true → inRange Reg.TIM_WR_CTRL v = true →
     timSrc s = 0 → v.getLsbD 0 = true → v.getLsbD 1 = false → v.getLsbD 2 = false →
     ∃ t, exec (.timWriteNow ini v) s = .next t ∧
       t.clock = { s.clock with
         sec := rd s Reg.TIM_WR_S, ns := rf s Reg.TIM_WR_NS 29 0, frac := rf s Reg.TIM_WR_FRAC 7 0 * 2 ^ 40,
         slew := 0, slewLeft := 0, atSec := false, valid := true } ∧ Only [.clock, .msix, .out, .reg .hif, .reg .stk, .reg .tim, .rings, .stk] s t) ∧
  (∀ (ini : Initiator) (v : Word) (s : State), Writable ini Reg.TIM_WR_CTRL s = true → inRange Reg.TIM_WR_CTRL v = true →
     timSrc s = 0 → v.getLsbD 0 = false → v.getLsbD 1 = true → v.getLsbD 2 = false →
     ∃ t, exec (.timWriteAtSec ini v) s = .next t ∧ t.clock = { s.clock with atSec := true } ∧ Only [.clock] s t) ∧
  (∀ (ini : Initiator) (v : Word) (s : State), Writable ini Reg.TIM_WR_CTRL s = true → inRange Reg.TIM_WR_CTRL v = true →
     v.getLsbD 0 = false → v.getLsbD 1 = false → v.getLsbD 2 = true →
     ∃ t, exec (.timWriteCancel ini v) s = .next t ∧ t.clock = { s.clock with atSec := false } ∧ Only [.clock] s t) ∧
  (∀ (ini : Initiator) (v : Word) (s : State), Writable ini Reg.TIM_CTRL s = true → inRange Reg.TIM_CTRL v = true →
     ∃ t, exec (.timSrcWrite ini v) s = .next t ∧
       (timSrc t = v.toNat % 4 ∧ rd t Reg.TIM_RATE = rd s Reg.TIM_RATE ∧
         t.clock = { s.clock with slew := 0, slewLeft := 0, first := true, missRun := 0 }) ∧ Only [.clock, .msix, .out, .reg .hif, .reg .tim] s t) ∧
  (∀ (sec : Word) (ns : BitVec 30) (frac : BitVec 8) (s : State), s.hif.ptmOut = true → timSrc s = 1 → s.clock.first = true →
     ∃ t, exec (.timPtmMeasurement sec ns frac) s = .next t ∧
       (t.hif.ptmOut = false ∧ rn t Reg.TIM_MEAS_CNT = min 0xFFFFFFFF (rn s Reg.TIM_MEAS_CNT + 1) ∧
         rn t Reg.TIM_STEP_CNT = min 0xFFFFFFFF (rn s Reg.TIM_STEP_CNT + 1) ∧ t.clock.first = false ∧ t.clock.valid = true ∧
         t.clock.locked = false ∧ t.clock.holdover = false ∧ t.clock.missRun = 0 ∧ t.clock.slew = 0) ∧ Only [.clock, .hif, .msix, .out, .reg .stk, .reg .tim, .rings, .stk] s t) ∧
  (∀ (s : State), s.clock.units < secUnits → s.clock.slewLeft = 0 → s.clock.atSec = false →
     ∃ t, exec .timSecondRollover s = .next t ∧
       (t.clock.sec = s.clock.sec + 1 ∧ t.clock.units < rateUnits s 0 ∧ t.clock.slew = s.clock.slew) ∧ Only [.clock, .msix, .out, .reg .stk, .reg .tim, .rings, .stk] s t) ∧
  (∀ (s : State), s.clock.slewLeft ≠ 0 →
     ∃ t, exec .timSlewEnd s = .next t ∧ (t.clock.slew = 0 ∧ t.clock.slewLeft = 0) ∧ Only [.clock, .msix, .out, .reg .stk, .reg .tim, .rings, .stk] s t)

/-- CAMERA_CONFIG of a good stream puts every word of the image into the shadow of the port's page; where an idle, unarmed, unheld page applies it at once the knots and registers are in force and the command completes (with no other such command waiting for its latch), else it is accepted for the port's page. INSPECT_CONTROL completes and starts exactly, or stops, the ports of its mask. REPROCESS of a stored image is accepted and its work queued. DEFECT_FETCH writes the records held to the host buffer and holds them no more. Each answers a next state and changes nothing outside the parts named. -/
def Obligations.InspectionCommandsRun : Prop :=
  (∀ (d : Desc) (port : BitVec 8) (handle : Word) (x : Stream) (s : State),
     Admitted d .o (fun _ => [objPort port.toNat]) s = true → port.toNat ≤ 3 →
     findStream s (ring s d.ring.val).tenant handle.toNat = some x → x.failed = false → x.complete = true →
     camConfigOk s port.toNat x.bytes = true →
     let ks := (List.range (bits 6 0 (camWord x.bytes 7))).map fun i => (leAt x.bytes (128 + 8 * i) 4, leAt x.bytes (132 + 8 * i) 4)
     let applies := pageIdle s (pgIpl port.toNat) && !(getPage s (pgIpl port.toNat)).hold && !(getPage s (pgIpl port.toNat)).cmdHold
     ∃ t, exec (.cameraConfig d port handle) s = .next t ∧
       ((∀ i < 13, rdShadow t (pgIpl port.toNat * 0x1000 + 0x100 + 4 * i) = BitVec.ofNat 32 (camWord x.bytes i)) ∧
         (cam t port.toNat).configured = true ∧
         (applies = true → (∀ q ∈ s.fw.parked, q.accepted = true → ∀ e p h, q.cmd ≠ .cameraConfig e p h) →
           Completed d 0 0 s t ∧ (cam t port.toNat).knots = ks ∧
           ∀ i < 13, rd t (pgIpl port.toNat * 0x1000 + 0x100 + 4 * i) = BitVec.ofNat 32 (camWord x.bytes i)) ∧
         (applies = false → Accepted d (.cameraConfig d port handle) [pgIpl port.toNat] [] s t ∧
           (cam t port.toNat).pendKnots = some ks)) ∧
       Only (completionParts ++ ([.ipl, .reg .iplP, .reg .tilC, .til] : List Part)) s t) ∧
  (∀ (d : Desc) (mask inline action : BitVec 8) (s : State), Admitted d .o (fun _ => (maskBits 4 mask.toNat).map objPort) s = true →
     mask.toNat ≤ 15 → inline.toNat ≤ 3 → mask.toNat / 2 ^ inline.toNat % 2 = 1 → action.toNat = 1 →
     s.win.made = true ∨ ringsWhole (reserveRings s) = true →
     ∃ t, exec (.inspectControl d mask inline action) s = .next t ∧
       (Completed d 0 0 s t ∧ rf t Reg.IPL_CTRL 5 4 = inline.toNat ∧ (∀ k ∈ maskBits 4 mask.toNat, camRunning t k = true) ∧
         ∀ k, k ∉ maskBits 4 mask.toNat → camRunning t k = camRunning s k) ∧
       Only (completionParts ++ ([.gln, .ipl, .reg .iplC, .reg .iplP, .win] : List Part)) s t) ∧
  (∀ (d : Desc) (mask inline action : BitVec 8) (s : State), Admitted d .o (fun _ => (maskBits 4 mask.toNat).map objPort) s = true →
     mask.toNat ≤ 15 → inline.toNat ≤ 3 → mask.toNat / 2 ^ inline.toNat % 2 = 1 → action.toNat = 0 →
     (∀ q ∈ s.fw.parked, q.accepted = true → ∀ e p h, q.cmd ≠ .cameraConfig e p h) →
     ∃ t, exec (.inspectControl d mask inline action) s = .next t ∧
       (Completed d 0 0 s t ∧ (∀ k ∈ maskBits 4 mask.toNat, camRunning t k = false) ∧
         ∀ k, k ∉ maskBits 4 mask.toNat → camRunning t k = camRunning s k) ∧
       Only (completionParts ++ ([.crk, .free, .gln, .glz, .ipl, .jobs, .mil, .reg .gln, .reg .iplC, .reg .iplP, .reg .tilC, .reg .win,
         .sag, .thr, .til, .win] : List Part)) s t) ∧
  (∀ (d : Desc) (port : BitVec 8) (image : Word) (s : State), Admitted d .o (fun _ => [objPort port.toNat]) s = true →
     (∃ x ∈ s.ipl.images, x.port = port.toNat ∧ x.num = image.toNat) →
     ∃ t, exec (.reprocess d port image) s = .next t ∧
       (Accepted d (.reprocess d port image) [] [] s t ∧
         t.ipl = { s.ipl with repro := s.ipl.repro ++ [⟨s.fw.nextSeq, port.toNat, image.toNat, 0⟩] }) ∧
       Only (completionParts ++ ([.ipl] : List Part)) s t) ∧
  (∀ (d : Desc) (buf : DWord) (len : Word) (s : State), Admitted d .o noObjs s = true → s.win.records.flatten.length ≤ len.toNat →
     ∃ t, exec (.defectFetch d buf len) s = .next t ∧
       (CompletedWith [(buf.toNat, s.win.records.flatten)] d 0 0 s t ∧ t.win = { s.win with records := [] }) ∧
       Only (completionParts ++ ([.win] : List Part)) s t)

/-- CONSUMABLE_SCAN over enabled controllers queues an authenticating poll of each enabled slot on them and is accepted for those slots, or completes where there is none. CONSUMABLE_QUERY completes with the slot's usage and state. TALLY_CHECKPOINT, while Crock takes records, submits the checkpoint record and is accepted for its commit. NOZZLE_SNAPSHOT captures a snapshot, or joins the queue for the next while one is written. JOURNAL_COMPACT starts a compaction and is accepted. STORE_WRITE of a good image either replaces the boot copy of R487, or the patch area, and completes with success, or the read-back disagrees and it completes with 0x0401; which of the two is free. Each answers a next state and changes nothing outside the parts named. -/
def Obligations.RecordCommandsRun : Prop :=
  (∀ (d : Desc) (mask : BitVec 8) (s : State), Admitted d .o noObjs s = true → mask.toNat < 16 →
     (∀ k ∈ maskBits 4 mask.toNat, controllerOn s k = true) →
     let on := (tlyEnabled s).filter fun i => decide (mask.toNat / 2 ^ tlyController s i % 2 = 1)
     ∃ t, exec (.consumableScan d mask) s = .next t ∧
       ((on = [] → Completed d 0 0 s t ∧ t.tly = s.tly) ∧
         (on ≠ [] → Accepted d (.consumableScan d mask) [] (on.map keyTally) s t) ∧
         (∀ i ∈ on, tlySlot t i = { tlySlot s i with exchanges := (tlySlot s i).exchanges ++ [⟨4, 0, 0, false⟩] }) ∧
         ∀ i, i ∉ on → tlySlot t i = tlySlot s i) ∧
       Only (completionParts ++ ([.tly] : List Part)) s t) ∧
  (∀ (d : Desc) (slot : BitVec 8) (s : State), Admitted d .o noObjs s = true → slot.toNat < 16 →
     ∃ t, exec (.consumableQuery d slot) s = .next t ∧
       Completed d 0 (res 16 (tlySlot s slot.toNat).usage.toNat + res 24 (tlySlot s slot.toNat).state) s t ∧ Only completionParts s t) ∧
  (∀ (d : Desc) (s : State), Admitted d .o noObjs s = true → crkAccepts s = true →
     ∃ t, exec (.tallyCheckpoint d) s = .next t ∧
       (Accepted d (.tallyCheckpoint d) [] [keyStore] s t ∧ recordsDone t s.fw.nextSeq = false ∧ t.tly.captured = s.clock.uptime ∧
         t.tly.writing = true) ∧ Only (completionParts ++ ([.crk, .tly] : List Part)) s t) ∧
  (∀ (d : Desc) (s : State), Admitted d .o noObjs s = true → crkAccepts s = true →
     ∃ t, exec (.nozzleSnapshot d) s = .next t ∧
       (Accepted d (.nozzleSnapshot d) [] [keyStore] s t ∧
         (s.crk.snapNow = none → t.crk.snapNow.isSome = true ∧ t.crk.snapNum = s.crk.snapNum + 1 ∧ t.crk.snapCmds = [s.fw.nextSeq] ∧
           t.til.changed = []) ∧
         (s.crk.snapNow.isSome = true → t.crk = { s.crk with snapAgain := s.crk.snapAgain ++ [s.fw.nextSeq] } ∧ t.til = s.til)) ∧
       Only (completionParts ++ ([.crk, .til] : List Part)) s t) ∧
  (∀ (d : Desc) (s : State), Admitted d .o noObjs s = true → crkAccepts s = true → s.crk.compacting = false →
     ∃ t, exec (.journalCompact d) s = .next t ∧
       (Accepted d (.journalCompact d) [] [keyStore] s t ∧ t.crk.compacting = true ∧ t.crk.compactCmd = some s.fw.nextSeq ∧
         t.crk.state = .compacting ∧ t.crk.cal = []) ∧ Only (completionParts ++ ([.crk, .reg .crk] : List Part)) s t) ∧
  (∀ (d : Desc) (area : BitVec 8) (handle : Word) (x : Stream) (s : State), Admitted d .s noObjs s = true → crkAccepts s = true →
     findStream s 0 handle.toNat = some x → x.failed = false → x.complete = true →
     (area.toNat = 0 ∧ ∃ g, bootGen x.bytes = some g ∧ ∀ e ∈ s.crk.boot, e.2.1 < g) ∨
       (area.toNat = 1 ∧ x.bytes.length ≤ 8388608 ∧ patchesExact 32 x.bytes = true) →
     ∃ t, exec (.storeWrite d area handle) s = .next t ∧
       ((Completed d 0 0 s t ∧
           (area.toNat = 0 → tfind t.crk.boot (bootTarget s) = some ((bootGen x.bytes).getD 0, x.bytes)) ∧
           (area.toNat = 1 → t.crk.patchArea = x.bytes)) ∨
         (Completed d 0x0401 0 s t ∧ (area.toNat = 0 → tfind t.crk.boot (bootTarget s) = none) ∧
           (area.toNat = 1 → t.crk.patchArea = []))) ∧
       Only (completionParts ++ ([.crk, .free, .reg .crk] : List Part)) s t)

/-- ALARM_FETCH writes a record for each latched alarm to the host buffer. ALARM_ACK of an alarm whose condition is gone clears its latch and no other. TRACE_CONFIG of a good stream sets the enable and priority of every core's LOG and FLOW channel. STOOK_LIMIT writes STK_LIMIT. Each answers a next state with its command complete and changes nothing outside the parts named. -/
def Obligations.AlarmAndTraceCommandsRun : Prop :=
  (∀ (d : Desc) (buf : DWord) (len : Word) (s : State), Admitted d .o noObjs s = true →
     (s.stk.alarms.flatMap fun e => alarmBytes s e.1 e.2).length ≤ len.toNat →
     ∃ t, exec (.alarmFetch d buf len) s = .next t ∧
       CompletedWith [(buf.toNat, s.stk.alarms.flatMap fun e => alarmBytes s e.1 e.2)] d 0 0 s t ∧ Only completionParts s t) ∧
  (∀ (d : Desc) (code : BitVec 16) (i : Nat) (s : State), Admitted d .o noObjs s = true → alarmIndex code.toNat = some i →
     (tfind s.stk.alarms i).isNone = true ∨ alarmActive s i = false →
     ∃ t, exec (.alarmAck d code) s = .next t ∧
       (Completed d 0 0 s t ∧ tfind t.stk.alarms i = none ∧ ∀ j, j ≠ i → tfind t.stk.alarms j = tfind s.stk.alarms j) ∧
       Only completionParts s t) ∧
  (∀ (d : Desc) (handle : Word) (x : Stream) (s : State), Admitted d .o noObjs s = true →
     findStream s (ring s d.ring.val).tenant handle.toNat = some x → x.failed = false → x.complete = true → traceCfgGood x.bytes = true →
     ∃ t, exec (.traceConfig d handle) s = .next t ∧
       (Completed d 0 0 s t ∧ ∀ k < 8, tfind t.stk.cfg k =
         some ⟨decide ((x.bytes.getD (4 * k) 0).toNat = 1), (x.bytes.getD (4 * k + 1) 0).toNat⟩) ∧ Only completionParts s t) ∧
  (∀ (d : Desc) (limit : Word) (s : State), Admitted d .o noObjs s = true → 1 ≤ limit.toNat → limit.toNat ≤ 4000 →
     ∃ t, exec (.stookLimit d limit) s = .next t ∧ (Completed d 0 0 s t ∧ rn t Reg.STK_LIMIT = limit.toNat) ∧ Only completionParts s t)

/-- A doorbell on an ACTIVE host-produced ring with a valid index moves PI (and ends STANDBY); on an ACTIVE controller-produced ring it moves CI over the entries the host has read, and with ARM arms the ring; on a ring that is not ACTIVE it is ignored and counted; any other dword of the page ignores writes, and a read returns zero. A write of HIF_CTRL that sets RUN makes rings 0 and 1 ACTIVE as the HIF_SYS registers say. A write of configuration space sets Bus Master Enable and the fields it carries; a function in D3hot issues no request, one back in D0 may. Unmasking a vector sends the message pending on it where requests may be issued. Each answers a next state and changes nothing outside the parts named. The fields a BUS_MASTER_ENABLE_WRITE carries beside the bit are the model's operands (notes/assumptions/69.md). -/
def Obligations.HostLinkWrites : Prop :=
  (∀ (n : Fin 8192) (off : BitVec 12) (v : Word) (s : State), clocked s = true → (ring s n.val).state = .active →
     off = 0#12 → bits 29 17 v.toNat = 0 → bits 31 31 v.toNat = 0 → doorbellValid (ring s n.val) (bits 16 0 v.toNat) = true →
     ∃ t, exec (.doorbell n off true v 0xF#4) s = .next t ∧
       (((ring s n.val).hostProduced = true → ring t n.val = { ring s n.val with pi := bits 16 0 v.toNat } ∧
           (s.pwr.state = .standby → s.pwr.toward = none → t.pwr.toward = some .run)) ∧
         ((ring s n.val).hostProduced = false → (ring t n.val).ci = bits 16 0 v.toNat ∧
           (ring t n.val).entries = (ring s n.val).entries.drop (idxSub (bits 16 0 v.toNat) (ring s n.val).ci) ∧
           (bits 30 30 v.toNat = 1 → (ring s n.val).unsignalled = false → (ring t n.val).armed = true ∧ (ring t n.val).sinceArm = 0)) ∧
         ∀ m, m ≠ n.val → ring t m = ring s m) ∧
       Only [.msix, .out, .pwr, .reg .hif, .reg .stk, .rings, .stk] s t) ∧
  (∀ (n : Fin 8192) (off : BitVec 12) (v : Word) (be : BitVec 4) (s : State), clocked s = true → (ring s n.val).state ≠ .active →
     off = 0#12 →
     ∃ t, exec (.doorbell n off true v be) s = .next t ∧
       (ring t n.val = { ring s n.val with dbIgn := min 65535 ((ring s n.val).dbIgn + 1) } ∧
         rn t Reg.HIF_DB_IGN_CNT = min 0xFFFFFFFF (rn s Reg.HIF_DB_IGN_CNT + 1)) ∧
       Only [.reg .hif, .rings] s t) ∧
  (∀ (n : Fin 8192) (off : BitVec 12) (v : Word) (be : BitVec 4) (s : State), off ≠ 0#12 →
     exec (.doorbell n off true v be) s = .next s) ∧
  (∀ (n : Fin 8192) (off : BitVec 12) (v : Word) (be : BitVec 4) (s : State), clocked s = true →
     ∃ t, exec (.doorbell n off false v be) s = .next t ∧ tfind t.regs.rdata (iniNum .host) = some [0#32] ∧ Only [.reads] s t) ∧
  (∀ (ini : Initiator) (v : Word) (s : State), Writable ini Reg.HIF_CTRL s = true → inRange Reg.HIF_CTRL v = true →
     ∃ t, exec (.hifRunWrite ini v 0xF#4) s = .next t ∧
       ((rbit t Reg.HIF_CTRL 0 = (rbit s Reg.HIF_CTRL 0 || v.getLsbD 0)) ∧ (rbit t Reg.HIF_CTRL 1 = v.getLsbD 1) ∧
         (rbit s Reg.HIF_CTRL 0 = false → v.getLsbD 0 = true →
           ring t 0 = { Ring.init with
             state := .active, typ := .command, log2 := rf s Reg.HIF_SYS_SIZE 3 0, paired := 1,
             base := BitVec.ofNat 64 (rn64 s Reg.HIF_SYS_CMD_BASE), wb := BitVec.ofNat 64 (rn64 s Reg.HIF_SYS_WB_BASE) } ∧
           ring t 1 = { Ring.init with
             state := .active, typ := .completion, log2 := rf s Reg.HIF_SYS_SIZE 7 4, vector := rf s Reg.HIF_SYS_SIZE 18 8,
             base := BitVec.ofNat 64 (rn64 s Reg.HIF_SYS_CPL_BASE), wb := BitVec.ofNat 64 (rn64 s Reg.HIF_SYS_WB_BASE + 8),
             imodCnt := rf s Reg.HIF_SYS_IMOD 7 0, imodTime := rf s Reg.HIF_SYS_IMOD 31 16, armed := true }) ∧
         (rbit s Reg.HIF_CTRL 0 = true ∨ v.getLsbD 0 = false → t.hif.rings = s.hif.rings)) ∧
       Only [.msix, .out, .reg .hif, .rings] s t) ∧
  (∀ (on : Bool) (fields : List CfgField) (s : State),
     ∃ t, exec (.busMasterEnableWrite on fields) s = .next t ∧
       (t.hif.cfg = { fields.foldl (fun c f => cfgPut f c) s.hif.cfg with busMaster := on } ∧
         (on = true → s.hif.cfg.d3hot = false → ∀ v, tget t.hif.msixPend false v = true → tget s.hif.masked true v = true)) ∧
       Only [.hif, .msix, .out, .reg .hif, .reg .stk, .rings, .stk] s t) ∧
  (∀ (s : State), ∃ t, exec .d3hotTransition s = .next t ∧ (t.hif.cfg = { s.hif.cfg with d3hot := true } ∧ canIssue t = false) ∧
     Only [.hif] s t) ∧
  (∀ (s : State), ∃ t, exec .d0Transition s = .next t ∧
     (t.hif.cfg = { s.hif.cfg with d3hot := false } ∧ canIssue t = s.hif.cfg.busMaster) ∧
     Only [.hif, .msix, .out, .reg .stk, .rings, .stk] s t) ∧
  (∀ (v : Fin 2048) (s : State), ∃ t, exec (.msixVectorUnmask v) s = .next t ∧
     (tfind t.hif.masked v.val = some false ∧ (∀ w, w ≠ v.val → tfind t.hif.masked w = tfind s.hif.masked w) ∧
       (tget s.hif.msixPend false v.val = true → canIssue s = true →
         t.out = .msix v.val :: s.out ∧ tfind t.hif.msixPend v.val = some false) ∧
       (tget s.hif.msixPend false v.val = false ∨ canIssue s = false → t.out = s.out ∧ t.hif.msixPend = s.hif.msixPend)) ∧
     Only [.hif, .msix, .out] s t)

/-- A descriptor read that is due takes up to 8 of a ring's entries, not past its end, on the lowest free tag. A data read, where no descriptor read is due, takes the next fetch by its deadline, up to a 4 KiB boundary and the Maximum Read Request Size. A read's completion gives its entries to the ring, or its bytes to the stream; one with an error puts the ring in ERROR or fails the stream, and one for no outstanding read is discarded as an Unexpected Completion. A read's first timeout reissues it, its second fails it; none does where Completion Timeout Disable is set. A background fetch that has waited past HIF_BG_PROMOTE is promoted. Each answers a next state and changes nothing outside the parts named. -/
def Obligations.HostLinkFetches : Prop :=
  (∀ (n : Fin 8192) (s : State), descrDue s n.val = true →
     let r := ring s n.val
     let k := min (min 8 (idxSub r.pi r.nextRead)) (r.size - r.nextRead % r.size)
     ∃ t, exec (.hifDescriptorFetch n) s = .next t ∧
       (ring t n.val = { r with nextRead := (r.nextRead + k) % idxMod } ∧
         tfind t.hif.reads (freeTag s) = some ⟨.descr n.val r.nextRead k, r.base.toNat + r.nextRead % r.size * 64, 64 * k, false, false⟩ ∧
         t.out = .hostRead (freeTag s) (r.base.toNat + r.nextRead % r.size * 64) (64 * k) false :: s.out) ∧
       Only [.hif, .out, .reg .hif, .rings] s t) ∧
  (∀ (f : Fetch) (s : State), nextFetchOf s = some f → mayFetch s = true → outReads s false < 736 → freeTag s < 768 →
     (∀ e ∈ s.hif.rings, descrDue s e.1 = false) →
     let n := min (min f.len (4096 - f.addr % 4096)) s.hif.cfg.mrrs
     ∃ t, exec .hifDataFetch s = .next t ∧
       (tfind t.hif.reads (freeTag s) = some ⟨.data f.ring f.entry f.tenant f.handle f.off, f.addr, n, false, false⟩ ∧
         t.out = .hostRead (freeTag s) f.addr n s.hif.cfg.relaxed :: s.out ∧
         (∀ g ∈ s.hif.fetches, g.seq ≠ f.seq → g ∈ t.hif.fetches) ∧
         (∀ g ∈ t.hif.fetches, g.seq = f.seq → n < f.len ∧ g.addr = f.addr + n ∧ g.off = f.off + n ∧ g.len = f.len - n)) ∧
       Only [.hif, .out, .reg .hif] s t) ∧
  (∀ (tag : Fin 1024) (n start k : Nat) (x : HostRead) (bs : List Byte) (s : State), tfind s.hif.reads tag.val = some x →
     x.kind = .descr n start k → x.dropped = false → bs.length = x.len → (ring s n).state = .active → (ring s n).typ ≠ .data →
     ∃ t, exec (.hostReadCompletion tag (.data bs)) s = .next t ∧
       ((ring t n).fetched = (ring s n).fetched + (entries64 bs).length ∧
         (ring t n).fences = (ring s n).fences ++ (entries64 bs).map (fun e => (e.getD 1 0#8).getLsbD 0) ∧
         tfind t.hif.reads tag.val = none) ∧
       Only [.hif, .rings] s t) ∧
  (∀ (tag : Fin 1024) (n entry ten h off : Nat) (x : HostRead) (y : Stream) (bs : List Byte) (s : State),
     tfind s.hif.reads tag.val = some x → x.kind = .data n entry ten h off → x.dropped = false → bs.length = x.len →
     findStream s ten h = some y →
     ∃ t, exec (.hostReadCompletion tag (.data bs)) s = .next t ∧
       (findStream t ten h = some { y with pieces := y.pieces ++ [⟨off, bs⟩] } ∧ tfind t.hif.reads tag.val = none) ∧
       Only [.hif, .jobs, .rings, .thr] s t) ∧
  (∀ (tag : Fin 1024) (x : HostRead) (r : ReadResult) (s : State), tfind s.hif.reads tag.val = some x → x.dropped = false →
     (∀ bs, r ≠ .data bs) →
     ∃ t, exec (.hostReadCompletion tag r) s = .next t ∧
       ((∀ n start k, x.kind = .descr n start k → (ring t n).state = .error) ∧
         (∀ n entry ten h off y, x.kind = .data n entry ten h off → findStream s ten h = some y →
           ∃ z, findStream t ten h = some z ∧ z.failed = true) ∧
         tfind t.hif.reads tag.val = none) ∧
       Only (completionParts ++ ([.crk, .free, .glz, .hif, .jobs, .kln, .reg .hif, .reg .klnC, .sag, .thr] : List Part)) s t) ∧
  (∀ (tag : Fin 1024) (r : ReadResult) (s : State), tfind s.hif.reads tag.val = none →
     ∃ t, exec (.hostReadCompletion tag r) s = .next t ∧
       (t.hif.aer = s.hif.aer ++ [⟨.unexpected, s.hif.cfg.severity.getLsbD 16⟩] ∧ tfind t.hif.stale tag.val = none) ∧ Only [.hif] s t) ∧
  (∀ (tag : Fin 1024) (x : HostRead) (s : State), tfind s.hif.reads tag.val = some x → s.hif.cfg.toDisable = false → x.reissued = false →
     canIssue s = true →
     ∃ t, exec (.completionTimeout tag) s = .next t ∧
       (tfind t.hif.reads tag.val = some { x with reissued := true } ∧
         t.out = .hostRead tag.val x.addr x.len (x.relaxed s) :: s.out ∧
         rn t Reg.HIF_CPL_TO_CNT = min 0xFFFFFFFF (rn s Reg.HIF_CPL_TO_CNT + 1)) ∧
       Only [.hif, .out, .reg .hif] s t) ∧
  (∀ (tag : Fin 1024) (x : HostRead) (s : State), tfind s.hif.reads tag.val = some x → s.hif.cfg.toDisable = false → x.reissued = true →
     ∃ t, exec (.completionTimeout tag) s = .next t ∧
       (tfind t.hif.reads tag.val = none ∧ rn t Reg.HIF_CPL_TO_CNT = min 0xFFFFFFFF (rn s Reg.HIF_CPL_TO_CNT + 1) ∧
         (x.dropped = false → ∀ n start k, x.kind = .descr n start k → (ring t n).state = .error)) ∧
       Only (completionParts ++ ([.crk, .free, .glz, .hif, .jobs, .kln, .reg .hif, .reg .klnC, .sag, .thr] : List Part)) s t) ∧
  (∀ (tag : Fin 1024) (x : HostRead) (s : State), tfind s.hif.reads tag.val = some x → s.hif.cfg.toDisable = true →
     exec (.completionTimeout tag) s = .next s) ∧
  (∀ (v : DWord) (s : State), ∃ t, exec (.backgroundPromote v) s = .next t ∧
     (t.hif.fetches = s.hif.fetches.map (fun f =>
         if f.since + rf s Reg.HIF_BG_PROMOTE 7 0 * ms < t.clock.uptime then { f with promoted := true } else f) ∧
       t.hif.reads = s.hif.reads) ∧
     Only [.clock, .hif, .msix, .out, .reg .stk, .reg .tim, .rings, .stk] s t)

/-- A held completion takes place once its ring has room: its bulk output is written, and its record stands at the ring's end; where the link does not take the write the ring enters ERROR with WB_FAIL. A pending index is written back, or its ring enters ERROR. IMOD_TIME signals an armed ring with unsignalled entries and disarms it. The latency tolerance that stayed above 150 % of the last value is told. HIF_PTM_PERIOD sends a PTM request, whose time-out counts and fails a measurement where PTM is the time source. A refused or poisoned request, and a BAR0 access across a 64-byte boundary, is reported through AER and counted. Each answers a next state and changes nothing outside the parts named. Whether the link takes a write is the model's operand (notes/assumptions/69.md). -/
def Obligations.HostLinkPosts : Prop :=
  (∀ (n : Fin 8192) (x : HeldCpl) (s : State), (s.fw.held.find? fun y => y.ring = n.val) = some x → mayPostHeld s x = true →
     ∃ t, exec (.completionPost n true) s = .next t ∧
       (t.fw.held = s.fw.held.erase x ∧ (∀ w ∈ x.writes, .hostWrite w.1 w.2 ∈ t.out) ∧
         (∀ r, x.rcd = some r → (ring t n.val).entries = (ring s n.val).entries ++ [r] ∧
           (ring t n.val).pi = ((ring s n.val).pi + 1) % idxMod) ∧
         (x.rcd = none → ring t n.val = ring s n.val)) ∧
       Only completionParts s t) ∧
  (∀ (n : Fin 8192) (x : HeldCpl) (s : State), (s.fw.held.find? fun y => y.ring = n.val) = some x → mayPostHeld s x = true →
     ∃ t, exec (.completionPost n false) s = .next t ∧
       ((ring t n.val).state = .error ∧ (ring t n.val).lastErr = 0x1044 ∧ t.fw.held = s.fw.held) ∧
       Only (completionParts ++ ([.reg .hif] : List Part)) s t) ∧
  (∀ (n : Fin 8192) (s : State), (ring s n.val).wbPending = true → canIssue s = true →
     (∃ t, exec (.indexWriteback n true) s = .next t ∧
       (ring t n.val = { ring s n.val with wbPending := false } ∧
         t.out = .index n.val (if (ring s n.val).typ = .command ∨ (ring s n.val).typ = .data then (ring s n.val).ci
           else (ring s n.val).pi) :: s.out) ∧
       Only [.out, .reg .stk, .rings, .stk] s t) ∧
     ∃ t, exec (.indexWriteback n false) s = .next t ∧ ((ring t n.val).state = .error ∧ (ring t n.val).lastErr = 0x1044) ∧
       Only [.msix, .out, .reg .hif, .reg .stk, .rings, .stk] s t) ∧
  (∀ (n : Fin 8192) (s : State), (ring s n.val).state = .active → (ring s n.val).armed = true → (ring s n.val).unsignalled = true →
     (ring s n.val).timing = true → canIssue s = true →
     ∃ t, exec (.imodTimeout n) s = .next t ∧
       ((ring t n.val).armed = false ∧ (ring t n.val).unsignalled = false ∧ (ring t n.val).wbPending = false ∧
         (ring t n.val).entries = (ring s n.val).entries ∧
         (tget s.hif.masked true (ring s n.val).vector = false → .msix (ring s n.val).vector ∈ t.out) ∧
         (tget s.hif.masked true (ring s n.val).vector = true → tfind t.hif.msixPend (ring s n.val).vector = some true)) ∧
       Only [.msix, .out, .reg .stk, .rings, .stk] s t) ∧
  (∀ (m : BitVec 16) (s : State), s.hif.ltrLast = some m → s.hif.cfg.ltrEn = true → canIssue s = true → 32768 ≤ m.toNat →
     rn s Reg.KLN_LT ≠ 0xFFFFFFFF → 3 * ltrNs m.toNat < 2 * ltrTolerance s →
     ∃ t, exec .ltrRiseTimer s = .next t ∧
       (t.hif.ltrLast = some (BitVec.ofNat 16 (ltrEncode (ltrTolerance s) + 32768)) ∧
         t.out = .ltr (BitVec.ofNat 16 (ltrEncode (ltrTolerance s) + 32768)) :: s.out) ∧
       Only [.hif, .out, .reg .hif] s t) ∧
  (∀ (s : State), s.hif.cfg.ptmEn = true → rbit s Reg.HIF_CTRL 1 = true → canIssue s = true →
     ∃ t, exec .ptmRequestTimer s = .next t ∧ (t.hif.ptmOut = true ∧ t.out = .ptmRequest :: s.out) ∧ Only [.hif, .out] s t) ∧
  (∀ (s : State), s.hif.ptmOut = true →
     ∃ t, exec .ptmTimeout s = .next t ∧
       (t.hif.ptmOut = false ∧ rn t Reg.HIF_PTM_FAIL_CNT = min 0xFFFFFFFF (rn s Reg.HIF_PTM_FAIL_CNT + 1) ∧
         (timSrc s = 1 → t.clock.missRun = min 3 (s.clock.missRun + 1)) ∧
         (timSrc s = 1 → 2 ≤ s.clock.missRun → t.clock.holdover = true) ∧
         (timSrc s ≠ 1 → t.clock = s.clock)) ∧
       Only [.clock, .hif, .msix, .out, .reg .hif, .reg .stk, .reg .tim, .rings, .stk] s t) ∧
  (∀ (s : State),
     (∃ t, exec (.receivedRequestFault .unsupported) s = .next t ∧
       (t.hif.aer = s.hif.aer ++ [⟨.unsupported, s.hif.cfg.severity.getLsbD 20⟩] ∧
         rn t Reg.HIF_URCA_CNT = min 0xFFFFFFFF (rn s Reg.HIF_URCA_CNT + 1) ∧ t.out = .unsupportedRequest :: s.out) ∧
       Only [.hif, .out, .reg .hif] s t) ∧
     (∃ t, exec (.receivedRequestFault .abort) s = .next t ∧
       (t.hif.aer = s.hif.aer ++ [⟨.abort, s.hif.cfg.severity.getLsbD 15⟩] ∧
         rn t Reg.HIF_URCA_CNT = min 0xFFFFFFFF (rn s Reg.HIF_URCA_CNT + 1) ∧ t.out = .completerAbort :: s.out) ∧
       Only [.hif, .out, .reg .hif] s t) ∧
     (∃ t, exec (.receivedRequestFault .poisonedWrite) s = .next t ∧
       (t.hif.aer = s.hif.aer ++ [⟨.poisoned, s.hif.cfg.severity.getLsbD 12⟩] ∧
         rn t Reg.HIF_POISON_CNT = min 0xFFFFFFFF (rn s Reg.HIF_POISON_CNT + 1) ∧
         (getPage t pgHif).errCode = BitVec.ofNat 16 (blockId .hif * 256 + 0x42)) ∧
       Only [.hif, .msix, .out, .reg .hif] s t) ∧
     ∃ t, exec (.receivedRequestFault .ecrc) s = .next t ∧
       (s.hif.cfg.ecrcCheck = true → t.hif.aer = s.hif.aer ++ [⟨.ecrc, s.hif.cfg.severity.getLsbD 19⟩]) ∧ Only [.hif] s t) ∧
  (∀ (addr : BitVec 24) (len : BitVec 13) (write : Bool) (s : State), 64 < addr.toNat % 64 + len.toNat →
     ∃ t, exec (.barAccessAbort addr len write) s = .next t ∧
       (t.hif.aer = s.hif.aer ++ [⟨.abort, s.hif.cfg.severity.getLsbD 15⟩] ∧
         rn t Reg.HIF_URCA_CNT = min 0xFFFFFFFF (rn s Reg.HIF_URCA_CNT + 1) ∧
         t.out = if write then s.out else .completerAbort :: s.out) ∧
       Only [.hif, .out, .reg .hif] s t)

/-- A write request of several dwords acts as a write of its first dword and then a write of the rest at the next address (R33). Writes of Sagger, a control core and the host that reach one register in one cycle act in that order, in whatever order they arrive (R35). A read of a 64-bit register's high word returns and frees the word held for the initiator, or, with none held, the live word (R43). A read of a position channel's or a plane's snapshot register, of TIM_NS or of TIM_XSNAP captures its members of that instant for the initiator and returns the register's own value (R46, R338, R433, R434). Each answers a next state and changes nothing outside the parts named. That the held word is the selected entry's is the model's choice (notes/assumptions/68.md). -/
def Obligations.RegisterReadsRun : Prop :=
  (∀ (ini : Initiator) (addr : BitVec 24) (v w : Word) (be be' : BitVec 4) (more : List (Word × BitVec 4)) (s : State),
     accepted ini addr.toNat (more.length + 2) = true →
     ∃ u t, exec (.registerWrite ini addr v be [] []) s = .next u ∧ exec (.registerWrite ini (addr + 4#24) w be' more []) u = .next t ∧
       exec (.registerWrite ini addr v be ((w, be') :: more) []) s = .next t) ∧
  (∀ (addr : BitVec 24) (a b v : Word) (s : State),
     ∃ u w t, exec (.rwsRegisterWrite .sagger addr a allBytes []) s = .next u ∧
       exec (.rwsRegisterWrite .core addr b allBytes []) u = .next w ∧ exec (.rwsRegisterWrite .host addr v allBytes []) w = .next t ∧
       exec (.rwsRegisterWrite .host addr v allBytes [(.core, b), (.sagger, a)]) s = .next t ∧
       exec (.rwsRegisterWrite .sagger addr a allBytes [(.host, v), (.core, b)]) s = .next t) ∧
  (∀ (ini : Initiator) (addr : BitVec 24) (s : State), aligned addr.toNat = true → clocked s = true → msixArea addr.toNat = false →
     pageUp s (addr.toNat / 0x1000) = true → pageBusy s (addr.toNat / 0x1000) = false → isHigh addr.toNat = true →
     (∀ v, tfind s.regs.hold (iniKey ini (keyOf s addr.toNat)) = some v →
       ∃ t, exec (.highWordRead ini addr) s = .next t ∧
         (tfind t.regs.rdata (iniNum ini) = some [v] ∧ tfind t.regs.hold (iniKey ini (keyOf s addr.toNat)) = none ∧
           t.regs.snap = s.regs.snap) ∧ Only [.reads] s t) ∧
     (tfind s.regs.hold (iniKey ini (keyOf s addr.toNat)) = none →
       ∃ t, exec (.highWordRead ini addr) s = .next t ∧ (t = dwordRead ini addr.toNat (beginRead ini s)) ∧
         Only [.free, .reads, .reg .clk, .reg .hif, .sag] s t)) ∧
  (∀ (ini : Initiator) (addr : BitVec 24) (c : Fin 4) (s : State), addr.toNat = Reg.PIF_C_SNAP c.val → clocked s = true →
     pageUp s (pgPif c.val) = true → pageBusy s (pgPif c.val) = false →
     ∃ t, exec (.snapshotRead ini addr) s = .next t ∧
       (tfind t.regs.rdata (iniNum ini) = some [BitVec.ofNat 32 (pifStat s c.val)] ∧
         tfind t.regs.snap (iniKey ini (Reg.PIF_C_VEL c.val)) = some (BitVec.ofInt 32 (pif s c.val).vel) ∧
         tfind t.regs.snap (iniKey ini (Reg.PIF_C_POS c.val)) = some (BitVec.ofNat 32 (unsigned 64 (signed 48 (pif s c.val).pos))) ∧
         tfind t.regs.snap (iniKey ini (Reg.PIF_C_POS c.val + 4)) =
           some (BitVec.ofNat 32 (unsigned 64 (signed 48 (pif s c.val).pos) / 2 ^ 32)) ∧
         tfind t.regs.snap (iniKey ini (Reg.PIF_C_TS c.val)) = some (BitVec.ofNat 32 (pif s c.val).ts) ∧
         tfind t.regs.snap (iniKey ini (Reg.PIF_C_TS c.val + 4)) = some (BitVec.ofNat 32 ((pif s c.val).ts / 2 ^ 32)) ∧
         t.regs.hold = s.regs.hold) ∧ Only [.reads] s t) ∧
  (∀ (ini : Initiator) (addr : BitVec 24) (p : Fin 16) (s : State), addr.toNat = Reg.KLN_P_SNAP p.val → clocked s = true →
     pageUp s (pgKlnP p.val) = true → pageBusy s (pgKlnP p.val) = false →
     ∃ t, exec (.snapshotRead ini addr) s = .next t ∧
       (tfind t.regs.rdata (iniNum ini) = some [BitVec.ofNat 32 (lineFraction s p.val)] ∧
         tfind t.regs.snap (iniKey ini (Reg.KLN_P_LINE p.val)) = some (BitVec.ofNat 32 (planeLine s p.val)) ∧
         tfind t.regs.snap (iniKey ini (Reg.KLN_P_RUNLINE p.val)) = some (plane s p.val).runline ∧
         tfind t.regs.snap (iniKey ini (Reg.KLN_P_SLOT p.val)) = some (BitVec.ofNat 32 ((plane s p.val).slot.getD noSlot)) ∧
         t.regs.hold = s.regs.hold) ∧ Only [.reads] s t) ∧
  (∀ (ini : Initiator) (s : State), clocked s = true → pageUp s pgTim = true → pageBusy s pgTim = false →
     (∃ t, exec (.timNsRead ini) s = .next t ∧
       (tfind t.regs.rdata (iniNum ini) = some [BitVec.ofNat 32 s.clock.ns] ∧
         tfind t.regs.snap (iniKey ini Reg.TIM_S_SNAP) = some s.clock.sec ∧
         tfind t.regs.snap (iniKey ini Reg.TIM_FRAC) = some (BitVec.ofNat 32 (s.clock.frac / 2 ^ 40)) ∧ t.regs.hold = s.regs.hold) ∧
       Only [.reads] s t) ∧
     ∃ t, exec (.timXsnapRead ini) s = .next t ∧
       (tfind t.regs.rdata (iniNum ini) = some [BitVec.ofNat 32 (timStat s)] ∧
         tfind t.regs.snap (iniKey ini Reg.TIM_X_FT) = some (BitVec.ofNat 32 (now s)) ∧
         tfind t.regs.snap (iniKey ini (Reg.TIM_X_FT + 4)) = some (BitVec.ofNat 32 (now s / 2 ^ 32)) ∧
         tfind t.regs.snap (iniKey ini Reg.TIM_X_S) = some s.clock.sec ∧
         tfind t.regs.snap (iniKey ini Reg.TIM_X_NS) = some (BitVec.ofNat 32 s.clock.ns) ∧
         tfind t.regs.snap (iniKey ini Reg.TIM_X_FRAC) = some (BitVec.ofNat 32 (s.clock.frac / 2 ^ 40)) ∧ t.regs.hold = s.regs.hold) ∧
       Only [.reads] s t)

/-- A write of TIL_SPLIT_BAR with VALID and a split from 32 to 4,064 in steps of 32 stages the selected head's entry, which waits for the bar latch while a plane is live or the page is held; one with another split records FIELD_RANGE and stages nothing; one without VALID withdraws the entry. RETRAIN on an UP port starts training afresh and is counted. A write of 1 to HLK_FAULT.LATCH clears the latch where FLT_N is high and the cause is gone, and is refused with REJECT otherwise. REARM of a position channel forgets the reference and the correction; LOAD sets the position; a write of the index period takes the value and forgets the reference. Each answers a next state and changes nothing outside the parts named. -/
def Obligations.UnitRegisterWrites : Prop :=
  (∀ (ini : Initiator) (v : Word) (s : State), Writable ini Reg.TIL_SPLIT_BAR s = true →
     let k := wkey Reg.TIL_SPLIT_BAR (rf s Reg.TIL_SPLIT_SEL 5 0)
     let x := bits 11 0 v.toNat
     (v.getLsbD 31 = true → x % 32 = 0 → 32 ≤ x → x ≤ 4064 →
       (∃ p ∈ planeNums, (plane s p).live = true) ∨ (getPage s pgTilC).hold = true →
       ∃ t, exec (.tilSplitBarWrite ini v) s = .next t ∧
         (rn t k = x + 2 ^ 31 ∧ (getPage t pgTilC).pending = true ∧ (∀ a, a ≠ k → rd t a = rd s a) ∧
           ((getPage s pgTilC).hold = false → (getPage s pgTilC).cmdHold = false → t.kln.barArmed = true)) ∧
         Only (completionParts ++ ([.ipl, .kln, .memory, .reg .cal, .reg .hif, .reg .klnC, .reg .tilC, .reg .tilE, .til] : List Part)) s t) ∧
     (v.getLsbD 31 = true → ¬(x % 32 = 0 ∧ 32 ≤ x ∧ x ≤ 4064) →
       ∃ t, exec (.tilSplitBarWrite ini v) s = .next t ∧
         ((∀ a, rd t a = rd s a) ∧ (getPage t pgTilC).errCode = BitVec.ofNat 16 (blockId .tilC * 256 + 0x05)) ∧
         Only [.msix, .out, .reg .tilC] s t) ∧
     (v.getLsbD 31 = false →
       ∃ t, exec (.tilSplitBarWrite ini v) s = .next t ∧
         (rn t k = rn s k % 2 ^ 31 ∧ ∀ a, a ≠ k → rd t a = rd s a) ∧ Only [.reg .tilC] s t)) ∧
  (∀ (ini : Initiator) (h : Fin 64) (v : Word) (s : State), Writable ini (Reg.HLK_CTRL h.val) s = true →
     bits 3 0 v.toNat = rf s (Reg.HLK_CTRL h.val) 3 0 → v.getLsbD 5 = true → (port s h.val).link = .up →
     headEnabled s h.val = true → portMode s h.val = 1 → v.getLsbD 4 = false ∨ (port s h.val).pwren = false →
     ∃ t, exec (.hlkRetrainWrite ini h v) s = .next t ∧
       ((port t h.val).link = .retraining ∧ (port t h.val).align = 0 ∧ (port t h.val).descr = false ∧ (port t h.val).ready = false ∧
         rn t (Reg.HLK_RETRAIN_CNT h.val) = min 0xFFFFFFFF (rn s (Reg.HLK_RETRAIN_CNT h.val) + 1) ∧
         ∀ g, g ≠ h.val → port t g = port s g) ∧
       Only [.crk, .free, .jobs, .kln, .msix, .out, .ports, .reg .hif, .reg .hlk, .reg .klnC, .reg .klnP, .reg .stk, .rings, .stk, .win] s t) ∧
  (∀ (ini : Initiator) (h : Fin 64) (v : Word) (s : State), Writable ini (Reg.HLK_FAULT h.val) s = true → v.getLsbD 0 = true →
     v.getLsbD 3 = false → (port s h.val).latched = true →
     ((port s h.val).fltLow = false → faultCause s h.val = false →
       ∃ t, exec (.hlkFaultClear ini h v) s = .next t ∧ (port t h.val = { port s h.val with latched := false, cause := 0 }) ∧
         Only [.ports] s t) ∧
     ((port s h.val).fltLow = true ∨ faultCause s h.val = true →
       ∃ t, exec (.hlkFaultClear ini h v) s = .next t ∧
         (port t h.val = { port s h.val with reject := true } ∧
           (getPage t (pgHlk h.val)).errCode = BitVec.ofNat 16 (blockId .hlk * 256 + 0x41)) ∧ Only [.msix, .out, .ports, .reg .hlk] s t)) ∧
  (∀ (ini : Initiator) (c : Fin 4) (v : Word) (s : State), Writable ini (Reg.PIF_C_CTRL c.val) s = true →
     (v.getLsbD 0 = true → v.getLsbD 1 = false →
       ∃ t, exec (.pifRearm ini c v) s = .next t ∧
         (pif t c.val = { pif s c.val with ref := none, run := 0, corr := none, missed := 0 } ∧ ∀ b, b ≠ c.val → pif t b = pif s b) ∧
         Only [.pif, .reg .pifCh] s t) ∧
     (v.getLsbD 0 = false → v.getLsbD 1 = true →
       ∃ t, exec (.pifLoad ini c v) s = .next t ∧
         (pif t c.val = { pif s c.val with
           pos := rn64 s (Reg.PIF_C_LOAD c.val) % 2 ^ 48, extreme := rn64 s (Reg.PIF_C_LOAD c.val) % 2 ^ 48, ref := none, missed := 0 } ∧
           ∀ b, b ≠ c.val → pif t b = pif s b) ∧ Only [.pif] s t)) ∧
  (∀ (ini : Initiator) (c : Fin 4) (high : Bool) (v : Word) (s : State), Writable ini (Reg.PIF_C_IDX_PERIOD c.val) s = true →
     let a := Reg.PIF_C_IDX_PERIOD c.val + if high then 4 else 0
     ∃ t, exec (.pifIdxPeriodWrite ini c high v) s = .next t ∧
       (rd t a = (if high then (v &&& 0xFFFF#32) ||| (rd s a &&& 0xFFFF0000#32) else v) ∧ (∀ b, b ≠ a → rd t b = rd s b) ∧
         pif t c.val = { pif s c.val with ref := none, missed := 0, corr := none }) ∧ Only [.pif, .reg .pifCh] s t)

/-- A write of IPL_C_CTRL on a port with no capture busy starts a dark or a white capture over 2 to the power CNT lines; after its last line the result is the shading table, at once on an idle page, at the page's latch otherwise. A write of TRM_CTRL takes the node to OFF, from OFF to LISTEN as a follower, and from OFF to CLAIMING as a leader, or to CONFLICT where the line is low. A write of CLK_IOCAL_CTRL starts a calibration. A write of GLB_RST with its key is a HOST reset of cause 5, its boot at step 1 with every ring DISABLED. A write of FAN_CFG that leaves mode OFF starts SPINUP, one to OFF ends every state. Each answers a next state and changes nothing outside the parts named. -/
def Obligations.UnitModesChange : Prop :=
  (∀ (ini : Initiator) (k : Fin 4) (v : Word) (s : State), Writable ini (Reg.IPL_C_CTRL k.val) s = true →
     bits 11 8 v.toNat ≤ 10 → (cam s k.val).capture = none →
     (bits 1 0 v.toNat = 1 →
       ∃ t, exec (.shadingCaptureDark ini k v) s = .next t ∧
         (cam t k.val = { cam s k.val with capture := some ⟨1, bits 11 8 v.toNat, 2 ^ bits 11 8 v.toNat, []⟩ }) ∧ Only [.ipl] s t) ∧
     (bits 1 0 v.toNat = 2 →
       ∃ t, exec (.shadingCaptureWhite ini k v) s = .next t ∧
         (cam t k.val = { cam s k.val with capture := some ⟨2, bits 11 8 v.toNat, 2 ^ bits 11 8 v.toNat, []⟩ }) ∧ Only [.ipl] s t)) ∧
  (∀ (k : Fin 4) (c : Capture) (s : State), (cam s k.val).capture = some c → c.left = 0 →
     let old := (cam s k.val).pendTable.getD (cam s k.val).table
     let new := c.sums.zipIdx.map fun q => captEntry c.mode c.cnt (rf s (Reg.IPL_C_WHITE k.val) 11 0) (old.getD q.2 0) q.1
     let applies := pageIdle s (pgIpl k.val) && !(getPage s (pgIpl k.val)).hold && !(getPage s (pgIpl k.val)).cmdHold
     ∃ t, exec (.shadingCaptureDone k) s = .next t ∧
       ((cam t k.val).capture = none ∧ (getPage t (pgIpl k.val)).irqRaw.getLsbD 6 = true ∧
         (applies = true → (cam t k.val).table = new ∧ (cam t k.val).pendTable = none) ∧
         (applies = false → (cam t k.val).pendTable = some new ∧ (cam t k.val).table = (cam s k.val).table)) ∧
       Only (completionParts ++ ([.ipl, .kln, .memory, .reg .cal, .reg .iplP, .reg .klnC, .reg .tilC, .reg .tilE, .til] : List Part)) s t) ∧
  (∀ (ini : Initiator) (v : Word) (s : State), Writable ini Reg.TRM_CTRL s = true →
     (v.toNat % 4 = 0 →
       ∃ t, exec (.trmRoleOff ini v) s = .next t ∧
         (t.trm.state = .off ∧ rf t Reg.TRM_CTRL 1 0 = 0 ∧ t.trm.arriveA = none ∧ t.trm.arriveB = none) ∧
         Only [.msix, .out, .reg .stk, .reg .trm, .rings, .stk, .trm] s t) ∧
     (v.toNat % 4 = 1 → s.trm.state = .off →
       ∃ t, exec (.trmRoleFollower ini v) s = .next t ∧
         (t.trm.state = .listen ∧ rf t Reg.TRM_CTRL 1 0 = 1 ∧ t.trm.bus = v.getLsbD 4 ∧ t.trm.missRun = 0) ∧
         Only [.msix, .out, .reg .stk, .reg .trm, .rings, .stk, .trm] s t) ∧
     (v.toNat % 4 = 2 → s.trm.state = .off →
       ∃ t, exec (.trmRoleLeader ini v) s = .next t ∧
         (t.trm.state = (if s.trm.lineLow then .conflict else .claiming) ∧ rf t Reg.TRM_CTRL 1 0 = 2 ∧ t.trm.bus = v.getLsbD 4 ∧
           t.trm.claimAt = now s) ∧
         Only [.msix, .out, .reg .stk, .reg .trm, .rings, .stk, .trm] s t)) ∧
  (∀ (ini : Initiator) (v : Word) (s : State), Writable ini Reg.CLK_IOCAL_CTRL s = true → v.getLsbD 0 = true → s.clk.iocal = false →
     ∃ t, exec (.iocalStart ini v) s = .next t ∧ (t.clk = { s.clk with iocal := true }) ∧ Only [.clk] s t) ∧
  (∀ (ini : Initiator) (v : Word) (s : State), Writable ini Reg.GLB_RST s = true → bits 31 16 v.toNat = 0xA5A5 → v.getLsbD 0 = true →
     deepHolds s = false →
     ∃ t, exec (.glbRstWrite ini v) s = .next t ∧
       (t.pwr.boot = some .host ∧ rn t Reg.GLB_RST_CAUSE = 5 ∧ (∀ n, (ring t n).state = .disabled) ∧ t.jobs.copies = [] ∧ t.fw.parked = []) ∧
       Only (allRegs ++ ([.cal, .clk, .clock, .crk, .entries, .fans, .free, .fw, .gln, .glz, .hif, .ipl, .jobs, .kln, .memory, .mil,
         .mot, .msix, .out, .pif, .ports, .pwr, .reads, .rings, .sag, .stk, .thm, .thr, .til, .tly, .trm, .win] : List Part)) s t) ∧
  (∀ (ini : Initiator) (n : Fin 4) (v : Word) (s : State), Writable ini (Reg.FAN_CFG n.val) s = true →
     inRange (Reg.FAN_CFG n.val) v = true →
     ∃ t, exec (.fanModeWrite ini n v) s = .next t ∧
       (rd t (Reg.FAN_CFG n.val) = ((v &&& 0xFFFF03#32) ||| (rd s (Reg.FAN_CFG n.val) &&& ~~~0xFFFF03#32)) ∧
         (fanMode s n.val = 0 → bits 1 0 v.toNat ≠ 0 →
           (fan t n.val).state = 1 ∧ (fan t n.val).attempts = 0 ∧ (fan t n.val).since = s.clock.uptime) ∧
         (bits 1 0 v.toNat = 0 → (fan t n.val).state = 0) ∧
         (fanMode s n.val ≠ 0 → bits 1 0 v.toNat ≠ 0 → (fan t n.val).state = (fan s n.val).state) ∧
         ∀ m, m ≠ n.val → fan t m = fan s m) ∧
       Only [.fans, .msix, .out, .reg .fan, .reg .stk, .rings, .stk] s t)

/-- Thresher takes the stream whose turn it is into preparation: an unsealed one with its bytes as they are, a sealed one with an unsealed descriptor as bad, a sealed one by its segments. A preparation ends with a good stream's header and blocks known, or with the stream bad. A free enabled lane takes the next block, here with the budget off; a block that decodes without error gives its lines and is counted, one with an error is abandoned and its copy voided or CORRUPT. A Mill lane forms the next block of the camera image, and of a diagnostic capture where Sagger enables it; a finished image goes into the image store where it fits, and is counted as dropped where it does not. Each answers a next state and changes nothing outside the parts named. -/
def Obligations.CodecEnginesRun : Prop :=
  (∀ (ten : Fin 1024) (h : Word) (x : Stream) (rest : List (Nat × Nat)) (s : State), s.thr.preparing = none →
     s.thr.ready = (ten.val, h.toNat) :: rest → findStream s ten.val h.toNat = some x →
     ∃ t, exec (.thrStreamPrepare ten h) s = .next t ∧
       (t.thr.preparing = some (ten.val, h.toNat) ∧ t.thr.ready = rest ∧
         (x.sealed = false → findStream t ten.val h.toNat = some { x with prep := .busy none, plain := x.bytes, sealedPage := none }) ∧
         (x.sealed = true → x.descs.all (·.2.2) = false →
           findStream t ten.val h.toNat = some { x with prep := .busy (some (gSegment, 0)), plain := [] }) ∧
         ∃ y e, findStream t ten.val h.toNat = some y ∧ y.prep = .busy e) ∧
       Only [.jobs, .thr] s t) ∧
  (∀ (a h : Nat) (x : Stream) (s : State), s.thr.preparing = some (a, h) → s.thr.segs = none → findStream s a h = some x →
     (∀ m, x.prep = .busy none → gristMap x.plain = some m →
       ∃ t, exec .thrStreamPrepared s = .next t ∧
         (t.thr.preparing = none ∧ ∃ y, findStream t a h = some y ∧ y.prep = .good ∧ y.level = m.level ∧ y.width = m.width ∧
           y.height = m.height ∧ y.blocks = m.blocks ∧ y.plain = x.plain) ∧
         Only [.crk, .free, .glz, .hif, .jobs, .kln, .msix, .out, .reg .hif, .reg .klnC, .reg .stk, .reg .thr, .rings, .sag, .stk, .thr] s t) ∧
     (∀ r n, x.prep = .busy (some (r, n)) ∨ (x.prep = .busy none ∧ gristMap x.plain = none ∧ r = gStruct ∧ n = 0) →
       ∃ t, exec .thrStreamPrepared s = .next t ∧
         (t.thr.preparing = none ∧ ∃ y, findStream t a h = some y ∧ y.prep = .bad r ∧ y.plain = []) ∧
         Only [.crk, .free, .glz, .hif, .jobs, .kln, .msix, .out, .reg .hif, .reg .klnC, .reg .stk, .reg .thr, .rings, .sag, .stk, .thr] s t)) ∧
  (∀ (lane : Fin 24) (j : BlockJob) (s : State), rbit s Reg.THR_LANE_EN lane.val = true → tfind s.thr.lanes lane.val = none →
     nextJob (enqueueBlocks s) = some j → (jobResult (enqueueBlocks s) j).isSome = true → rbit s Reg.THR_CTRL 0 = false →
     ∃ t, exec (.thrBlockStart lane) s = .next t ∧
       (tfind t.thr.lanes lane.val = some ⟨j, now s, 0⟩ ∧ t.thr.queue = (enqueueBlocks s).thr.queue.erase j ∧
         ∀ x, findCopy t j.copy = some x → (tfind x.budget j.plane).isSome = true) ∧
       Only [.jobs, .thr] s t) ∧
  (∀ (lane : Fin 24) (l : Lane) (x : Copy) (stride : Nat) (r : BlockResult) (s : State), tfind s.thr.lanes lane.val = some l →
     findCopy s l.job.copy = some x → jobResult s l.job = some (stride, r) → rbit s Reg.THR_CTRL 0 = false →
     (∀ out, r.out = .ok out → rbit s Reg.THR_CTRL 1 = false ∨ (∀ c, l.job.loc.crc = some c → c = crc32c out) →
       ∃ t, exec (.thrBlockDone lane) s = .next t ∧
         (tfind t.thr.lanes lane.val = none ∧ rn64 t Reg.THR_BLK_CNT = (rn64 s Reg.THR_BLK_CNT + 1) % 2 ^ 64 ∧
           (∀ d ∈ s.thr.lines, d ∈ t.thr.lines) ∧
           ∀ i, l.given ≤ i → i < l.job.loc.lines → (jobLines s x l.job).1 ≤ l.job.loc.line + i →
             l.job.loc.line + i < (jobLines s x l.job).2 →
             jobLine l.job (l.job.loc.line + i) (slice out (i * stride) (i * stride + stride)) ∈ t.thr.lines) ∧
         Only [.jobs, .reg .thr, .thr] s t) ∧
     (∀ e, r.out = .error e → x.state ≠ .voided →
       ∃ t, exec (.thrBlockDone lane) s = .next t ∧
         (tfind t.thr.lanes lane.val = none ∧ rn t Reg.THR_ABANDON_CNT = min 0xFFFFFFFF (rn s Reg.THR_ABANDON_CNT + 1) ∧
           ∀ y, findCopy t l.job.copy = some y → y.flags.corrupt = true) ∧
         Only [.crk, .free, .glz, .hif, .jobs, .kln, .msix, .out, .reg .hif, .reg .klnC, .reg .stk, .reg .thr, .rings, .sag, .stk, .thr] s t)) ∧
  (∀ (lane : Fin 2) (j : MillJob) (s : State), s.mil.job = some j → rbit s Reg.MIL_CTRL lane.val = true →
     let want := max 1 (rf s Reg.MIL_BLOCK 18 0 / j.stride)
     let n := min want (j.input.length / j.stride)
     0 < n → j.ended = true ∨ want ≤ j.input.length / j.stride →
     ∃ t, exec (.millBlock lane none) s = .next t ∧
       (rn t Reg.MIL_BLK_CNT = min 0xFFFFFFFF (rn s Reg.MIL_BLK_CNT + 1) ∧
         ∃ k, t.mil.job = some k ∧ k.lines = j.lines + n ∧ k.input = j.input.drop (n * j.stride) ∧ k.stride = j.stride ∧
           t.mil.diag = s.mil.diag) ∧
       Only [.mil, .msix, .out, .reg .mil, .reg .stk, .rings, .stk] s t) ∧
  (∀ (lane : Fin 2) (p : Fin 16) (s : State), s.mil.diag = none →
     (captureAllowed s p.val = false → exec (.millBlock lane (some p)) s = .next s) ∧
     (captureAllowed s p.val = true →
       ∃ t, exec (.millBlock lane (some p)) s = .next t ∧
         (t.mil.job = s.mil.job ∧ ((∃ d, t.mil.diag = some d ∧ d.plane = p.val) ∨
           (t.mil.diag = none ∧ ∃ more, t.mil.captures = s.mil.captures ++ more))) ∧
         Only [.mil, .msix, .out, .reg .mil, .reg .stk, .rings, .stk] s t)) ∧
  (∀ (j : MillJob) (s : State), s.mil.job = some j → j.ended = true → j.husk = [] → j.input.length < j.stride →
     let x : StoredImage := { port := j.port, num := j.image, dt := j.dt, stride := j.stride,
                              stream := gristHeader j.stride j.lines ++ j.husks, lines := j.places.take j.lines }
     let limit := s.ipl.storeMib * 1048576
     ∃ t, exec .imageStore s = .next t ∧
       (t.mil.job = none ∧
         (j.lines ≠ 0 → x.size ≤ limit → t.ipl.images = fitImages limit (s.ipl.images ++ [x])) ∧
         (j.lines = 0 ∨ limit < x.size → t.ipl = s.ipl ∧
           rn t (Reg.IPL_C_STORE_DROP_CNT j.port) = min 0xFFFFFFFF (rn s (Reg.IPL_C_STORE_DROP_CNT j.port) + 1))) ∧
       Only [.ipl, .mil, .reg .iplP] s t)

/-- An engine whose ready row-line of a page line comes first screens it: its part of the sheaf is made, the row-line is counted, and one that straddles a latch as well. One whose ready gap row-line comes first makes its part of that sheaf. An engine that owes a fill runs its part of it and owes it no more; one that owes a reversal reverses its part and owes it no more. A mismatching entry waits for its restore at its head's latch while its plane runs, and is good at once where its head is in no plane. Each answers a next state and changes nothing outside the parts named. -/
def Obligations.TillerEnginesRun : Prop :=
  (∀ (e : Fin 128) (r : Fin 4) (p y : Nat) (tab : PlaneTable) (st : Bool) (x : Staged) (s : State),
     planeOfHead s (e.val / 2) = some p → nextRow s p e.val = some r.val → (plane s p).table = some tab →
     rowWork s p e.val r.val = some (.screen y st x) →
     let f := (row s (e.val / 2) r.val).nextF
     ∃ t, exec (.tillerRowLine e r) s = .next t ∧
       ((engine t e.val).lastRun = some (r.val, f) ∧
         rn64 t (Reg.TIL_E_ROWLINES e.val) = (rn64 s (Reg.TIL_E_ROWLINES e.val) + 1) % 2 ^ 64 ∧
         rn t (Reg.TIL_E_STRADDLE_CNT e.val) =
           (if st then min 0xFFFFFFFF (rn s (Reg.TIL_E_STRADDLE_CNT e.val) + 1) else rn s (Reg.TIL_E_STRADDLE_CNT e.val)) ∧
         ∃ z ∈ (row t (e.val / 2) r.val).fifo, z.f = f ∧ e.val ∉ z.missing) ∧
       Only [.entries, .glz, .kln, .msix, .out, .reg .stk, .reg .tilE, .reg .tly, .rings, .stk, .til, .tly, .win] s t) ∧
  (∀ (e : Fin 128) (r : Fin 4) (p : Nat) (tab : PlaneTable) (line : Option Nat) (s : State),
     planeOfHead s (e.val / 2) = some p → nextRow s p e.val = some r.val → (plane s p).table = some tab →
     rowWork s p e.val r.val = some (.gap line) →
     let f := (row s (e.val / 2) r.val).nextF
     ∃ t, exec (.gapRowLine e r) s = .next t ∧
       ((engine t e.val).lastRun = some (r.val, f) ∧
         rn64 t (Reg.TIL_E_ROWLINES e.val) = rn64 s (Reg.TIL_E_ROWLINES e.val) ∧
         ∃ z ∈ (row t (e.val / 2) r.val).fifo, z.f = f ∧ e.val ∉ z.missing) ∧
       Only [.entries, .kln, .msix, .out, .reg .stk, .reg .tilE, .reg .tly, .rings, .stk, .til, .tly, .win] s t) ∧
  (∀ (e : Fin 128) (r : Fin 4) (p : Nat) (x : Fill) (s : State), planeOfHead s (e.val / 2) = some p → nextFill s e.val r.val = some x →
     ∃ t, exec (.fillRowLine e r) s = .next t ∧
       ((engine t e.val).lastRun = none ∧ ∀ z ∈ (row t (e.val / 2) r.val).fills, z.f = x.f → e.val ∉ z.engines) ∧
       Only [.entries, .glz, .kln, .msix, .out, .reg .stk, .reg .tilE, .reg .tly, .rings, .stk, .til, .tly, .win] s t) ∧
  (∀ (e : Fin 128) (r : Fin 4) (x : Reversal) (s : State),
     ((row s (e.val / 2) r.val).reversals.find? fun x => x.engines.contains e.val) = some x →
     ∃ t, exec (.underrunReversal e r) s = .next t ∧
       ((∀ z ∈ (row t (e.val / 2) r.val).reversals, z.f = x.f → e.val ∉ z.engines) ∧
         (∀ i, (∀ u ∈ x.undo, u.nozzle ≠ i) → entry t i = entry s i) ∧
         (row t (e.val / 2) r.val).fifo = (row s (e.val / 2) r.val).fifo) ∧
       Only [.entries, .kln, .reg .tilE, .til] s t) ∧
  (∀ (i : Fin 262144) (s : State), (entry s i.val).good = false →
     (∀ q ∈ s.til.pend, q.cmd = none → q.nozzle ≠ i.val) →
     (∀ p, planeOfHead s (i.val / 4096) = some p → (plane s p).state ≠ .stopped →
       ∃ t, exec (.entryRestore i) s = .next t ∧
         ((∃ q ∈ t.til.pend, q.nozzle = i.val ∧ q.cmd = none ∧ q.cfg = journaled s i.val ∧ q.newHead = false) ∧
           ∀ j, entry t j = entry s j) ∧ Only [.ports, .til] s t) ∧
     (planeOfHead s (i.val / 4096) = none →
       ∃ t, exec (.entryRestore i) s = .next t ∧
         ((entry t i.val).good = true ∧ ((∀ q ∈ s.til.pend, q.nozzle ≠ i.val) →
           entry t i.val = ((entry s i.val).withCfg (journaled s i.val)).seal)) ∧
         Only [.cal, .crk, .entries, .fw, .gln, .glz, .jobs, .kln, .ports, .reg .cal, .thr, .til] s t))

/-- The sweep brings an entry of an age above 2^30 lines back to 2^30, and changes no other entry. A comparator trip throttles an engine, is counted and reported, and where AUTO_SPLIT is 1 makes the choice of its head's split due; the end of the throttle does the rest but the count. An automatic choice of another split is written to the head's TIL_E_SPLIT and is no more due; a choice of the split in force writes nothing. Each answers a next state and changes nothing outside the parts named. -/
def Obligations.TillerMonitorsRun : Prop :=
  (∀ (i : Fin 262144) (p : Nat) (s : State), planeOfHead s (i.val / 4096) = some p →
     isFitted s (i.val / 4096) (i.val % 4096) = true → (entry s i.val).good = true →
     2 ^ 30 < ((plane s p).runline - (entry s i.val).last).toNat →
     ∃ t, exec (.tillerSweep i) s = .next t ∧
       (entry t i.val = { entry s i.val with last := (plane s p).runline - BitVec.ofNat 32 (2 ^ 30) }.seal ∧
         (entry t i.val).good = true ∧ ∀ j, j ≠ i.val → entry t j = entry s j) ∧ Only [.entries] s t) ∧
  (∀ (i : Fin 262144) (s : State),
     (planeOfHead s (i.val / 4096) = none ∨
       ∃ p, planeOfHead s (i.val / 4096) = some p ∧ ((plane s p).runline - (entry s i.val).last).toNat ≤ 2 ^ 30) →
     exec (.tillerSweep i) s = .next s) ∧
  (∀ (e : Fin 128) (s : State), (engine s e.val).throttled = false →
     ∃ t, exec (.tillerComparatorTrip e) s = .next t ∧
       (engine t e.val = { engine s e.val with throttled := true } ∧
         rn t (Reg.TIL_E_THROTTLE_CNT e.val) = min 0xFFFFFFFF (rn s (Reg.TIL_E_THROTTLE_CNT e.val) + 1) ∧
         (rbit s Reg.TIL_CTRL 0 = true → e.val / 2 ∈ t.til.autoDue) ∧
         (rbit s Reg.TIL_CTRL 0 = false → t.til.autoDue = s.til.autoDue) ∧ (getPage t pgTilC).irqRaw.getLsbD 4 = true) ∧
       Only [.msix, .out, .reg .stk, .reg .tilC, .reg .tilE, .rings, .stk, .til] s t) ∧
  (∀ (e : Fin 128) (s : State), (engine s e.val).throttled = true →
     ∃ t, exec (.tillerThrottleEnd e) s = .next t ∧
       (engine t e.val = { engine s e.val with throttled := false } ∧
         rn t (Reg.TIL_E_THROTTLE_CNT e.val) = rn s (Reg.TIL_E_THROTTLE_CNT e.val) ∧
         (rbit s Reg.TIL_CTRL 0 = true → e.val / 2 ∈ t.til.autoDue) ∧ (getPage t pgTilC).irqRaw.getLsbD 4 = true) ∧
       Only [.msix, .out, .reg .stk, .reg .tilC, .reg .tilE, .rings, .stk, .til] s t) ∧
  (∀ (h : Fin 64) (p v : Nat) (tab : PlaneTable) (s : State), rbit s Reg.TIL_CTRL 0 = true → h.val ∈ s.til.autoDue →
     planeOfHead s h.val = some p → (plane s p).table = some tab → bestSplit s tab h.val = some v →
     (v ≠ split s h.val →
       ∃ t, exec (.autoSplit h) s = .next t ∧
         (rdShadow t (Reg.TIL_E_SPLIT (2 * h.val)) = BitVec.ofNat 32 v ∧ h.val ∉ t.til.autoDue ∧
           ((plane s p).state ≠ .stopped → h.val ∈ t.til.autoHeads ∧ split t h.val = split s h.val)) ∧
         Only (completionParts ++ ([.ipl, .kln, .memory, .reg .cal, .reg .klnC, .reg .klnP, .reg .tilC, .reg .tilE, .til] : List Part)) s t) ∧
     (v = split s h.val → tfind s.regs.shd (Reg.TIL_E_SPLIT (2 * h.val)) = none →
       ∃ t, exec (.autoSplit h) s = .next t ∧
         (h.val ∉ t.til.autoDue ∧ h.val ∉ t.til.autoHeads ∧ split t h.val = split s h.val) ∧ Only [.til] s t))

/-- A port that trains or is UP sends its next forward frame. On a delivered return lane: STATUS with both lanes locked and descrambled brings a training port UP, power-good of a powered UP head is noted, and STATUS without lock retrains; TEMP takes the readings; FAULT is recorded and reported; ACK readies the bank not in use, or starts its fill again; SYNC loads the descrambler, and counts a disagreement. A bad frame sends CONFIRM back to HUNT, is counted in LOCKED, and the fourth in a row loses lock; a marker in HUNT begins CONFIRM, whose fourth good frame is LOCKED. Each answers a next state and changes nothing outside the parts named. -/
def Obligations.HeadLinkReceives : Prop :=
  (∀ (h : Fin 64) (s : State), rxActive (port s h.val) = true →
     let x := port s h.val
     let b := frameBytes x.slot (x.scr.getD (x.slot % 2) 1) (nextFrame x)
     ∃ t, exec (.hlkForwardFrame h) s = .next t ∧
       (t.out = .frame h.val b.1 :: s.out ∧ port t h.val = x.sent (nextFrame x) b.2 ∧ ∀ g, g ≠ h.val → port t g = port s g) ∧
       Only [.out, .ports] s t) ∧
  (∀ (h : Fin 64) (pg ready : Bool) (lock descr : BitVec 2) (crc miss : BitVec 16) (v : DWord) (s : State), delivers s h.val = true →
     ∃ t, exec (.hlkRxStatus h pg ready lock descr crc miss v) s = .next t ∧
       (rn t (Reg.HLK_DRV_STAT h.val) = crc.toNat + 65536 * miss.toNat ∧ (port t h.val).stale = false ∧
         (port t h.val).drvReady = ready ∧
         (lock = 3#2 → descr = 3#2 → (port s h.val).link ≠ .up → (port t h.val).link = .up ∧ (port t h.val).fires = 0 ∧
           (port t h.val).bank = 0 ∧ ((port t h.val).fills.map fun b => (b.bank, b.chunk)) = [(0, 0), (1, 0)]) ∧
         (lock = 3#2 → descr = 3#2 → (port s h.val).link = .up → (port t h.val).link = .up) ∧
         (lock ≠ 3#2 ∨ descr ≠ 3#2 → (port s h.val).link = .up → (port t h.val).link = .retraining) ∧
         (pg = true → (port s h.val).link = .up → (port s h.val).pwren = true → lock = 3#2 → descr = 3#2 →
           (port t h.val).pg = true ∧ (port t h.val).pgSeen = true)) ∧
       Only (completionParts ++ ([.clock, .crk, .free, .jobs, .kln, .ports, .reg .hlk, .reg .klnC, .reg .klnP, .reg .tim, .win] : List Part)) s t) ∧
  (∀ (h : Fin 64) (temps : BitVec 128) (valid : BitVec 8) (s : State), delivers s h.val = true →
     ∃ t, exec (.hlkRxTemp h temps valid) s = .next t ∧
       ((port t h.val).temps = (List.range 8).map (fun i => bits (16 * i + 15) (16 * i) temps.toNat) ∧
         (port t h.val).tempValid = (List.range 8).map (fun i => valid.getLsbD i) ∧ (port t h.val).bad = 0) ∧
       Only [.msix, .out, .ports, .reg .hlk, .reg .stk, .rings, .stk] s t) ∧
  (∀ (h : Fin 64) (code : BitVec 8) (r : BitVec 2) (detail : BitVec 16) (s : State), delivers s h.val = true →
     ∃ t, exec (.hlkRxFault h code r detail) s = .next t ∧
       (rn t (Reg.HLK_LAST_FAULT h.val) = code.toNat + 256 * r.toNat + 65536 * detail.toNat ∧
         (getPage t (pgHlk h.val)).irqRaw.getLsbD 6 = true) ∧
       Only [.msix, .out, .ports, .reg .hlk, .reg .stk, .rings, .stk] s t) ∧
  (∀ (h : Fin 64) (bank good : Bool) (s : State), delivers s h.val = true →
     let b := if bank then 1 else 0
     ∃ t, exec (.hlkRxAck h bank good) s = .next t ∧
       ((good = true → b ≠ (port s h.val).bank → (port t h.val).ready = true ∧ (port t h.val).fills = (port s h.val).fills) ∧
         (good = true → b = (port s h.val).bank → (port t h.val).ready = (port s h.val).ready ∧ (port t h.val).fills = (port s h.val).fills) ∧
         (good = false → (port t h.val).fills = (port s h.val).fills.filter (·.bank ≠ b) ++
           [⟨b, 0, variantsOf s h.val (decide (b ≠ (port s h.val).bank))⟩])) ∧
       Only [.ports] s t) ∧
  (∀ (h : Fin 64) (scr : BitVec 23) (s : State), rxActive (port s h.val) = true → (port s h.val).align = 2 →
     ∃ t, exec (.hlkRxSync h scr) s = .next t ∧
       (port t h.val = { port s h.val with bad := 0, rxScr := scr.toNat, descr := true } ∧
         rn t (Reg.HLK_DESYNC_CNT h.val) =
           if (port s h.val).descr = true ∧ scrAdvance 480 (port s h.val).rxScr ≠ scr.toNat
           then min 0xFFFFFFFF (rn s (Reg.HLK_DESYNC_CNT h.val) + 1) else rn s (Reg.HLK_DESYNC_CNT h.val)) ∧
       Only [.ports, .reg .hlk] s t) ∧
  (∀ (h : Fin 64) (s : State), rxActive (port s h.val) = true →
     ((port s h.val).align = 1 →
       ∃ t, exec (.hlkRxFrameBad h) s = .next t ∧
         (port t h.val = { port s h.val with align := 0, good := 0, cand := (port s h.val).cand + 1 }) ∧ Only [.ports] s t) ∧
     ((port s h.val).align = 2 → (port s h.val).bad + 1 ≠ 4 →
       ∃ t, exec (.hlkRxFrameBad h) s = .next t ∧
         ((port t h.val).bad = (port s h.val).bad + 1 ∧ (port t h.val).align = 2 ∧
           rn t (Reg.HLK_RX_CRC_CNT h.val) = min 0xFFFFFFFF (rn s (Reg.HLK_RX_CRC_CNT h.val) + 1)) ∧ Only [.ports, .reg .hlk] s t) ∧
     ((port s h.val).align = 2 → (port s h.val).bad + 1 = 4 →
       ∃ t, exec (.hlkRxFrameBad h) s = .next t ∧
         ((port t h.val).align = 0 ∧ (port t h.val).descr = false ∧
           rn t (Reg.HLK_LOCK_LOSS_CNT h.val) = min 0xFFFFFFFF (rn s (Reg.HLK_LOCK_LOSS_CNT h.val) + 1) ∧
           ((port s h.val).link = .up → (port t h.val).link = .retraining)) ∧
         Only [.crk, .free, .jobs, .kln, .msix, .out, .ports, .reg .hlk, .reg .klnC, .reg .klnP, .reg .stk, .rings, .stk, .win] s t)) ∧
  (∀ (h : Fin 64) (ofs : BitVec 9) (s : State), rxActive (port s h.val) = true → (port s h.val).align = 0 →
     ∃ t, exec (.hlkRxMarkerFound h ofs) s = .next t ∧
       (port t h.val = { port s h.val with align := 1, cand := ofs.toNat, good := 0 }) ∧ Only [.ports] s t) ∧
  (∀ (h : Fin 64) (s : State), rxActive (port s h.val) = true → (port s h.val).align = 1 →
     ∃ t, exec (.hlkRxFrameGood h) s = .next t ∧
       ((port t h.val).good = (port s h.val).good + 1 ∧
         (port t h.val).align = if (port s h.val).good + 1 = 4 then 2 else 1) ∧ Only [.ports] s t)

/-- HLK_TRAIN_TMO on a training port reports and starts training afresh. HLK_RX_TMO on an UP port marks STATUS stale and retrains, counted. FLT_N low is noted, and on a powered head latches a head fault of cause 1 and turns the power off; FLT_N high is noted with its instant. HLK_PG_DELAY of a powered direct head without fault gives power-good. Each answers a next state and changes nothing outside the parts named. -/
def Obligations.HeadLinkTimersRun : Prop :=
  (∀ (h : Fin 64) (s : State), (port s h.val).link = .training ∨ (port s h.val).link = .retraining →
     ∃ t, exec (.hlkTrainTimeout h) s = .next t ∧
       ((port t h.val).link = (port s h.val).link ∧ (port t h.val).align = 0 ∧ (port t h.val).descr = false ∧
         (getPage t (pgHlk h.val)).irqRaw.getLsbD 4 = true ∧ ∀ g, g ≠ h.val → port t g = port s g) ∧
       Only [.free, .msix, .out, .ports, .reg .hlk, .reg .stk, .rings, .stk] s t) ∧
  (∀ (h : Fin 64) (s : State), (port s h.val).link = .up →
     ∃ t, exec (.hlkRxTimeout h) s = .next t ∧
       ((port t h.val).link = .retraining ∧ (port t h.val).stale = true ∧ (port t h.val).align = 0 ∧
         rn t (Reg.HLK_RETRAIN_CNT h.val) = min 0xFFFFFFFF (rn s (Reg.HLK_RETRAIN_CNT h.val) + 1)) ∧
       Only [.crk, .free, .jobs, .kln, .msix, .out, .ports, .reg .hlk, .reg .klnC, .reg .klnP, .reg .stk, .rings, .stk, .win] s t) ∧
  (∀ (h : Fin 64) (v : DWord) (s : State),
     (∃ t, exec (.hlkFltNFault h true v) s = .next t ∧
       ((port t h.val).fltLow = true ∧
         ((port s h.val).pwren = true → (port t h.val).latched = true ∧
           ((port s h.val).latched = false → (port t h.val).cause = 1 ∧ (port t h.val).pwren = false)) ∧
         ((port s h.val).pwren = false → port t h.val = { port s h.val with fltLow := true })) ∧
       Only [.clock, .crk, .jobs, .kln, .msix, .out, .ports, .reg .hlk, .reg .klnC, .reg .klnP, .reg .stk, .reg .tim, .rings, .stk, .win] s t) ∧
     ∃ t, exec (.hlkFltNFault h false v) s = .next t ∧
       (port t h.val = { port s h.val with fltLow := false, fltHighSince := v.toNat }) ∧
       Only [.clock, .msix, .out, .ports, .reg .stk, .reg .tim, .rings, .stk] s t) ∧
  (∀ (h : Fin 64) (v : DWord) (s : State), (port s h.val).link = .direct → (port s h.val).pwren = true →
     (port s h.val).fltLow = false → (port s h.val).pg = false →
     max (port s h.val).powerAt (port s h.val).fltHighSince + rf s (Reg.HLK_PG_DELAY h.val) 15 0 * ms ≤ v.toNat →
     ∃ t, exec (.hlkPgDelayExpire h v) s = .next t ∧
       ((port t h.val).pg = true ∧ (port t h.val).pgSeen = true ∧ (port t h.val).pwren = true) ∧
       Only (completionParts ++ ([.clock, .ports, .reg .tim] : List Part)) s t)

/-- A SQUARE sample takes the qualified levels, and on an enabled channel, here one that no plane is paced from, moves the position by a quadrature step, none where both levels change at once, with the sample's instant. An ANALOG sample takes an angle within one count of the exact one, and on an enabled channel moves the position by its change. The first index captures the reference; one at the reference agrees with it, is counted and ends a run of mismatches. Each answers a next state and changes nothing outside the parts named. The angle's count is free within its bound (R328). -/
def Obligations.PositionSamplesRun : Prop :=
  (∀ (c : Fin 4) (a b : Bool) (v : DWord) (s : State), rbit s (Reg.PIF_C_CFG c.val) 0 = true →
     (∀ k < 4, ¬(pcSrc s k = 4 ∧ pcSub s k = c.val)) →
     let x := pif s c.val
     let qa := x.a.sample a
     let qb := x.b.sample b
     let both := decide (qa.level ≠ x.a.level) && decide (qb.level ≠ x.b.level)
     let turn := (quadPlace qa.level qb.level - quadPlace x.a.level x.b.level) % 4
     let d : Int := if both then 0 else if turn = 1 then 1024 else if turn = 3 then -1024 else 0
     ∃ t, exec (.pifSquareSample c a b v) s = .next t ∧
       ((pif t c.val).a = qa ∧ (pif t c.val).b = qb ∧
         (x.enabled = false → pif t c.val = { x with a := qa, b := qb }) ∧
         (x.enabled = true → (pif t c.val).pos = posAdd x.pos (if rbit s (Reg.PIF_C_CFG c.val) 1 then -d else d) ∧
           (pif t c.val).ts = v.toNat ∧ (pif t c.val).prevPos = x.pos ∧ (pif t c.val).prevTs = x.ts ∧
           (both = true → rbit t (Reg.PIF_C_STAT c.val) 5 = true)) ∧
         ∀ g, g ≠ c.val → pif t g = pif s g) ∧
       Only (completionParts ++ ([.cal, .clk, .clock, .crk, .entries, .free, .gln, .glz, .hif, .ipl, .jobs, .kln, .memory, .mot, .pif,
         .ports, .reg .cal, .reg .hif, .reg .hlk, .reg .iplP, .reg .klnC, .reg .klnP, .reg .motA, .reg .pifCh, .reg .tilC, .reg .tilE,
         .reg .tim, .reg .win, .sag, .thr, .til, .win] : List Part)) s t) ∧
  (∀ (c : Fin 4) (sn cs : BitVec 14) (v : DWord) (s : State), rbit s (Reg.PIF_C_CFG c.val) 0 = false →
     (∀ k < 4, ¬(pcSrc s k = 4 ∧ pcSub s k = c.val)) →
     let x := pif s c.val
     let u := sn.toInt - signed 16 (rf s (Reg.PIF_C_OFS c.val) 15 0)
     let k := divF ((cs.toInt - signed 16 (rf s (Reg.PIF_C_OFS c.val) 31 16)) * rf s (Reg.PIF_C_TRIM c.val) 15 0 + 8192) 16384
     let w := u - divF (k * signed 16 (rf s (Reg.PIF_C_TRIM c.val) 31 16) + 16384) 32768
     ∃ t, exec (.pifAdcSample c sn cs v) s = .next t ∧
       ((∀ a, atan4096 w k = some a → ∃ e : Int, -1 ≤ e ∧ e ≤ 1 ∧ (pif t c.val).ang = unsigned 12 ((a : Int) + e)) ∧
         (x.enabled = false → pif t c.val = { x with ang := (pif t c.val).ang }) ∧
         (x.enabled = true →
           let d : Int := (((pif t c.val).ang : Int) - x.ang + 2048) % 4096 - 2048
           (pif t c.val).pos = posAdd x.pos (if rbit s (Reg.PIF_C_CFG c.val) 1 then -d else d) ∧
           (pif t c.val).ts = v.toNat ∧ (pif t c.val).prevPos = x.pos ∧ (pif t c.val).prevTs = x.ts ∧
           (1024 < d.natAbs → rbit t (Reg.PIF_C_STAT c.val) 4 = true)) ∧
         ∀ g, g ≠ c.val → pif t g = pif s g) ∧
       Only (completionParts ++ ([.cal, .clk, .clock, .crk, .entries, .free, .gln, .glz, .hif, .ipl, .jobs, .kln, .memory, .mot, .pif,
         .ports, .reg .cal, .reg .hif, .reg .hlk, .reg .iplP, .reg .klnC, .reg .klnP, .reg .motA, .reg .pifCh, .reg .tilC, .reg .tilE,
         .reg .tim, .reg .win, .sag, .thr, .til, .win] : List Part)) s t) ∧
  (∀ (c : Fin 4) (rising : Bool) (v : DWord) (s : State), rbit s (Reg.PIF_C_CFG c.val) 2 = true → pifValid s c.val = true →
     rbit s (Reg.PIF_C_STAT c.val) 6 = false → rising ≠ rbit s (Reg.PIF_C_CFG c.val) 4 → rbit s (Reg.PIF_C_CFG c.val) 0 = true →
     ((pif s c.val).ref = none →
       ∃ t, exec (.pifIndexCapture c rising v) s = .next t ∧
         (pif t c.val = { pif s c.val with ref := some (pif s c.val).pos, missed := 0 } ∧
           rn64 t (Reg.PIF_C_IDX_LAST c.val) = (pif s c.val).pos % 2 ^ 64 ∧
           rn t (Reg.PIF_C_IDX_CNT c.val) = min 0xFFFFFFFF (rn s (Reg.PIF_C_IDX_CNT c.val) + 1)) ∧
         Only [.clock, .free, .mot, .msix, .out, .pif, .reg .pifCh, .reg .stk, .reg .tim, .rings, .stk] s t) ∧
     ((pif s c.val).ref = some (pif s c.val).pos → idxPeriod s c.val ≠ 0 → rbit s (Reg.PIF_C_CFG c.val) 3 = false →
       ∃ t, exec (.pifIndexCapture c rising v) s = .next t ∧
         (pif t c.val = { pif s c.val with missed := 0, run := 0 } ∧ rf t (Reg.PIF_C_IDX_ERR c.val) 15 0 = 0 ∧
           rn t (Reg.PIF_C_IDX_CNT c.val) = min 0xFFFFFFFF (rn s (Reg.PIF_C_IDX_CNT c.val) + 1)) ∧
         Only [.clock, .free, .mot, .msix, .out, .pif, .reg .pifCh, .reg .stk, .reg .tim, .rings, .stk] s t))

/-- A long packet with a good header, CRC and length and room for it on a running port is kept: it ends a stall, enters a capture in progress, and ends the run of missing lines; one with a bad CRC or length is a missing line and counted, as is one with another header. A short packet opens or closes a CSI-2 frame, and a second start in a row is counted. The pipeline takes the oldest in-line line off its port's queue; one that saw no new medium is counted and carries its gap; with no line ready it takes the next line of the oldest REPROCESS, or ends it after its last. A port without a kept line for TMO stalls. Winnow takes what a port has for it next, and waits for a prediction that is not there; a copy not ruled for WIN_RULE_TMO is ruled UNINSPECTED. Each answers a next state and changes nothing outside the parts named. -/
def Obligations.CamerasAndWinnowRun : Prop :=
  (∀ (k : Fin 4) (vc vcx : BitVec 2) (dt : BitVec 6) (wc : BitVec 16) (crcOk : Bool) (bs : List Byte) (v : DWord) (s : State),
     camRunning s k.val = true → headerOk s k.val vc.toNat vcx.toNat true = true → dt.toNat = rf s (Reg.IPL_C_CSI k.val) 7 2 →
     (crcOk = true → wc.toNat = dtBytes dt.toNat (rf s (Reg.IPL_C_WIDTH k.val) 14 0) → bs.length = wc.toNat → inlineFull s k.val = false →
       ∃ t, exec (.csiLongPacket k vc vcx dt wc true crcOk false bs v) s = .next t ∧
         ((cam t k.val).quiet = v.toNat ∧ (cam t k.val).missed = 0 ∧
           (cam t k.val).state = (if (cam s k.val).state = .stalled then .running else (cam s k.val).state) ∧
           (∀ c, (cam s k.val).capture = some c → c.left ≠ 0 →
             (cam t k.val).capture = some { c with left := c.left - 1, sums := addSums c.sums (samples dt.toNat bs) })) ∧
         Only [.clock, .ipl, .msix, .out, .reg .iplP, .reg .stk, .reg .tim, .rings, .stk] s t) ∧
     (crcOk = false ∨ wc.toNat ≠ dtBytes dt.toNat (rf s (Reg.IPL_C_WIDTH k.val) 14 0) ∨ bs.length ≠ wc.toNat →
       ∃ t, exec (.csiLongPacket k vc vcx dt wc true crcOk false bs v) s = .next t ∧
         ((cam t k.val) = { cam s k.val with missed := (cam s k.val).missed + 1 } ∧
           rn t (Reg.IPL_C_CRC_CNT k.val) = min 0xFFFFFFFF (rn s (Reg.IPL_C_CRC_CNT k.val) + 1) ∧
           rn t (Reg.IPL_C_MISS_CNT k.val) = min 0xFFFFFFFF (rn s (Reg.IPL_C_MISS_CNT k.val) + 1)) ∧
         Only [.clock, .ipl, .msix, .out, .reg .iplP, .reg .stk, .reg .tim, .rings, .stk] s t)) ∧
  (∀ (k : Fin 4) (vc vcx : BitVec 2) (v : DWord) (s : State), camRunning s k.val = true →
     headerOk s k.val vc.toNat vcx.toNat true = true →
     (∃ t, exec (.csiShortPacket k vc vcx .frameStart true v) s = .next t ∧
       ((cam t k.val) = { cam s k.val with fsOpen := true } ∧
         rn t (Reg.IPL_C_HDR_ERR_CNT k.val) = if (cam s k.val).fsOpen then min 0xFFFFFFFF (rn s (Reg.IPL_C_HDR_ERR_CNT k.val) + 1)
           else rn s (Reg.IPL_C_HDR_ERR_CNT k.val)) ∧
       Only [.clock, .ipl, .msix, .out, .reg .iplP, .reg .stk, .reg .tim, .rings, .stk] s t) ∧
     ∃ t, exec (.csiShortPacket k vc vcx .frameEnd true v) s = .next t ∧ ((cam t k.val) = { cam s k.val with fsOpen := false }) ∧
       Only [.clock, .ipl, .msix, .out, .reg .stk, .reg .tim, .rings, .stk] s t) ∧
  (∀ (k : Nat) (l : CamLine) (rest : List CamLine) (u : Nat) (v : DWord) (s : State), oldestPort s true = some k →
     (cam s k).waiting = l :: rest → l.u = some u →
     ∃ t, exec (.iplPipelineLine v) s = .next t ∧
       (((cam t k).waiting = rest ∨ (cam t k).waiting = [] ∧ camRunning t k = false) ∧
         ∀ w, (cam s k).prev = some w → runSub u w ≤ 0 →
           (cam t k) = { cam s k with waiting := rest, carry := (cam s k).carry + l.gap } ∧
             rn t (Reg.IPL_C_DUP_CNT k) = min 0xFFFFFFFF (rn s (Reg.IPL_C_DUP_CNT k) + 1)) ∧
       Only (completionParts ++ ([.cal, .clock, .crk, .free, .gln, .glz, .ipl, .jobs, .mil, .reg .cal, .reg .gln, .reg .iplC, .reg .iplP,
         .reg .tilC, .reg .tim, .reg .win, .sag, .thr, .til, .win] : List Part)) s t) ∧
  (∀ (x : Repro) (rest : List Repro) (i : StoredImage) (v : DWord) (s : State), oldestPort s true = none → oldestPort s false = none →
     s.ipl.slice = none → s.ipl.repro = x :: rest →
     (s.ipl.images.find? fun i => decide (i.port = x.port ∧ i.num = x.image)) = some i →
     ∃ t, exec (.iplPipelineLine v) s = .next t ∧
       ((∀ e, i.lines[x.next]? = some e → t.ipl.repro = { x with next := x.next + 1 } :: rest ∧
           (cam t x.port).items.length = (cam s x.port).items.length + 1) ∧
         (i.lines[x.next]? = none → t.ipl.repro = rest ∧ (cam t x.port).items = (cam s x.port).items ++ [.finish x.seq])) ∧
       Only (completionParts ++ ([.cal, .clock, .crk, .free, .gln, .glz, .ipl, .jobs, .mil, .reg .cal, .reg .gln, .reg .iplC, .reg .iplP,
         .reg .tilC, .reg .tim, .reg .win, .sag, .thr, .til, .win] : List Part)) s t) ∧
  (∀ (k : Fin 4) (v : DWord) (s : State), (cam s k.val).state = .running → (plane s (camPlane s k.val)).paused = false →
     (plane s (camPlane s k.val)).state ≠ .stopped → (cam s k.val).quiet + rf s (Reg.IPL_C_STALL k.val) 15 0 * us ≤ v.toNat →
     ∃ t, exec (.iplStallTimeout k v) s = .next t ∧
       ((cam t k.val).state = .stalled ∧ (cam t k.val).whole = false ∧
         rn t (Reg.IPL_C_STALL_CNT k.val) = min 0xFFFFFFFF (rn s (Reg.IPL_C_STALL_CNT k.val) + 1)) ∧
       Only [.clock, .gln, .ipl, .msix, .out, .reg .gln, .reg .iplP, .reg .stk, .reg .tim, .rings, .stk] s t) ∧
  (∀ (k : Fin 4) (s : State),
     (∀ l rest, (cam s k.val).items = .line l :: rest →
       (compareLine k.val l s = none → exec (.winnowLineCompare k) s = .next s) ∧
       ((compareLine k.val l s).isSome = true → ∃ t, exec (.winnowLineCompare k) s = .next t ∧ (cam t k.val).items = rest ∧
         Only (completionParts ++ ([.crk, .free, .gln, .glz, .ipl, .jobs, .reg .gln, .reg .iplP, .reg .win, .sag, .thr, .win] : List Part)) s t)) ∧
     (∀ n w rest, (cam s k.val).items = .close n w :: rest →
       ∃ t, exec (.winnowLineCompare k) s = .next t ∧
         ((cam t k.val).items = rest ∧ ((∀ c ∈ s.jobs.copies, c.state ≠ .fired) →
           t.win.closed = ((k.val, n, w) :: s.win.closed).take 4096)) ∧
         Only (completionParts ++ ([.crk, .free, .gln, .glz, .ipl, .jobs, .reg .gln, .reg .iplP, .reg .win, .sag, .thr, .win] : List Part)) s t) ∧
     (∀ q rest, (cam s k.val).items = .finish q :: rest →
       ∃ t, exec (.winnowLineCompare k) s = .next t ∧
         ((cam t k.val).items = rest ∧ (∀ p ∈ t.fw.parked, p.h.seq ≠ q) ∧ ∀ x ∈ t.win.scans, x.repro = true → x.port ≠ k.val) ∧
         Only (completionParts ++ ([.crk, .free, .gln, .glz, .ipl, .jobs, .reg .gln, .reg .iplP, .reg .win, .sag, .thr, .win] : List Part)) s t)) ∧
  (∀ (c : Nat) (x : Copy) (v : DWord) (s : State), findCopy s c = some x → x.state = .fired →
     x.firedAt + rf s Reg.WIN_RULE_TMO 15 0 * ms ≤ s.clock.uptime →
     ∃ t, exec (.winnowRuleTimeout c v) s = .next t ∧
       ((∀ y, findCopy t c = some y → y.state ≠ .fired ∧ y.flags.uninspected = true) ∧
         rn t Reg.WIN_UNINSP_CNT = min 0xFFFFFFFF (rn s Reg.WIN_UNINSP_CNT + 1) ∧
         rn t Reg.WIN_COPIES_RULED = min 0xFFFFFFFF (rn s Reg.WIN_COPIES_RULED + 1)) ∧
       Only [.clock, .crk, .free, .glz, .jobs, .msix, .out, .reg .stk, .reg .tim, .reg .win, .rings, .sag, .stk, .thr, .win] s t)

/-- A leader sends its next beacon one frame after the latest on the enabled buses and marks slots without a good burst STALE; a claim with the line high for 32 µs makes the node LEADER with beacon 0. A foreign beacon at a leader is a conflict; a follower takes a good beacon's frame, mutes, chip and arrival; a missed one is counted, and the third in a row sends the follower to LISTEN without alignment. An ACTIVE follower sends its burst once a frame; a good burst of a slot is seen and its node's rate taken, none makes the slot STALE. The line's level is taken, and low during a claim is a conflict. Each answers a next state and changes nothing outside the parts named. -/
def Obligations.TramlineRuns : Prop :=
  (∀ (s : State), s.trm.state = .leader →
     ∃ t, exec .trmBeaconSend s = .next t ∧
       (t.trm.frame = (s.trm.frame + 1) % 2 ^ 32 ∧ t.trm.frameAt = s.trm.frameAt + trmFrameUnits ∧ t.trm.mutes = [] ∧ t.trm.seen = [] ∧
         t.trm.state = .leader ∧ rn t Reg.TRM_MUTE = slotMask s.trm.mutes % 2 ^ 32 ∧
         (∀ i < 16, i ≠ 0 → i ∉ s.trm.seen → rbit t Reg.TRM_STALE i = true) ∧
         ∃ body, body.take 6 = le 1 (chipNumber s) ++ le 1 0 ++ le 4 s.trm.frame ∧
           (busOn s false = true → .burst 0 (s.trm.frameAt + trmFrameUnits) (trmBurst body) ∈ t.out) ∧
           (busOn s true = true → .burst 1 (s.trm.frameAt + trmFrameUnits) (trmBurst body) ∈ t.out)) ∧
       Only [.clock, .msix, .out, .reg .stk, .reg .tim, .reg .trm, .rings, .stk, .trm] s t) ∧
  (∀ (v : DWord) (s : State), s.trm.state = .claiming → s.trm.lineLow = false → (busOn s false || busOn s true) = true →
     s.trm.claimAt + 32 * us ≤ v.toNat →
     ∃ t, exec (.trmClaimTimer v) s = .next t ∧
       (t.trm.state = .leader ∧ t.trm.frame = 1 ∧ t.trm.frameAt = v.toNat ∧ t.trm.known = []) ∧
       Only [.clock, .msix, .out, .reg .stk, .reg .tim, .reg .trm, .rings, .stk, .trm] s t) ∧
  (∀ (low : Bool) (s : State),
     ∃ t, exec (.trmLeadLineLow low) s = .next t ∧
       (t.trm.lineLow = low ∧ (low = true → s.trm.state = .claiming → t.trm.state = .conflict) ∧
         (low = false ∨ s.trm.state ≠ .claiming → t.trm = { s.trm with lineLow := low })) ∧
       Only [.msix, .out, .reg .stk, .reg .trm, .rings, .stk, .trm] s t) ∧
  (∀ (a b body : List Byte) (ra rb : DWord) (s : State), busOn s false = true → goodBeacon a = some body →
     (s.trm.state = .leader → (body.getD 0 0).toNat % 16 ≠ chipNumber s →
       ∃ t, exec (.trmBeaconReceive a b ra rb) s = .next t ∧ (t.trm.state = .conflict ∧ (tfind t.stk.alarms 16).isSome = true) ∧
         Only [.msix, .out, .reg .stk, .reg .trm, .rings, .stk, .trm] s t) ∧
     (s.trm.state = .listen ∨ s.trm.state = .muted ∨ s.trm.state = .active → s.trm.bus = false → busOn s true = false →
       ∃ t, exec (.trmBeaconReceive a b ra rb) s = .next t ∧
         (rn t Reg.TRM_FRAME = leAt (body.drop 2) 0 4 ∧ rn t Reg.TRM_MUTE = leAt (body.drop 2) 14 2 ∧
           t.trm.chip = (body.getD 0 0).toNat % 16 ∧ t.trm.missRun = 0 ∧ t.trm.arriveA = some ra.toNat ∧ t.trm.sent = false) ∧
         Only (completionParts ++ ([.cal, .clk, .clock, .crk, .entries, .free, .gln, .glz, .hif, .ipl, .jobs, .kln, .memory, .mot, .pif,
           .ports, .reg .cal, .reg .hif, .reg .hlk, .reg .iplP, .reg .klnC, .reg .klnP, .reg .motA, .reg .pifCh, .reg .tilC, .reg .tilE,
           .reg .tim, .reg .trm, .reg .win, .sag, .thr, .til, .trm, .win] : List Part)) s t)) ∧
  (∀ (p : Nat) (v : DWord) (s : State), s.trm.state = .listen ∨ s.trm.state = .muted ∨ s.trm.state = .active → s.trm.bus = false →
     s.trm.predA = some p → p + 1639 ≤ v.toNat →
     ∃ t, exec (.trmBeaconMissed v) s = .next t ∧
       (rn t Reg.TRM_BEACON_MISS_CNT = min 0xFFFFFFFF (rn s Reg.TRM_BEACON_MISS_CNT + 1) ∧
         t.trm.missRun = min 3 (s.trm.missRun + 1) ∧ t.trm.sent = true ∧
         (2 ≤ s.trm.missRun → t.trm.state = .listen ∧ t.trm.predA = none ∧ t.trm.predB = none) ∧
         (s.trm.missRun < 2 → t.trm.state = s.trm.state ∧ t.trm.predA.isSome = true)) ∧
       Only [.clock, .msix, .out, .reg .stk, .reg .tim, .reg .trm, .rings, .stk, .trm] s t) ∧
  (∀ (x y : Nat) (s : State), s.trm.state = .active → s.trm.sent = false → burstStart s false = some x → burstStart s true = some y →
     ∃ t, exec .trmFollowerBurstSend s = .next t ∧
       (t.trm = { s.trm with sent := true } ∧ ∃ body : List Byte, body.length = 6 ∧
         (busOn s false = true → .burst 0 x (trmBurst body) ∈ t.out) ∧ (busOn s true = true → .burst 1 y (trmBurst body) ∈ t.out)) ∧
       Only [.clock, .msix, .out, .reg .stk, .reg .tim, .rings, .stk, .trm] s t) ∧
  (∀ (i : Fin 16) (a b : List Byte) (ra rb : DWord) (s : State), i.val ≠ 0 →
     s.trm.state = .listen ∨ s.trm.state = .muted ∨ s.trm.state = .active →
     (∀ p, s.trm.bus = false → busOn s false = true → goodFollower s.trm.chip i.val (rn s Reg.TRM_FRAME) a = some p →
       ∃ t, exec (.trmFollowerBurstReceive i a b ra rb) s = .next t ∧
         (i.val ∈ t.trm.seen ∧ i.val ∈ t.trm.known ∧ rn t (wkey Reg.TRM_NODE_RATE i.val) = leAt p 4 2 ∧
           rbit t Reg.TRM_STALE i.val = rbit s Reg.TRM_MUTE i.val) ∧
         Only [.clock, .msix, .out, .reg .stk, .reg .tim, .reg .trm, .rings, .stk, .trm] s t) ∧
     ((busOn s false = false ∨ goodFollower s.trm.chip i.val (rn s Reg.TRM_FRAME) a = none) →
       (busOn s true = false ∨ goodFollower s.trm.chip i.val (rn s Reg.TRM_FRAME) b = none) →
       ∃ t, exec (.trmFollowerBurstReceive i a b ra rb) s = .next t ∧
         (rbit t Reg.TRM_STALE i.val = true ∧ t.trm = s.trm) ∧
         Only [.clock, .msix, .out, .reg .stk, .reg .tim, .reg .trm, .rings, .stk, .trm] s t))

/-- The checkpoint timer captures usage, submits the record where Crock takes records, and polls every enabled slot. Write-backs that are due queue a WRITE_USAGE of each authentic slot. A checkpoint overdue raises its alarm once. A BUSY device is read again; a device that stretches the clock ends its exchange, counted. A response of status 1 is awaited again, one that is malformed is repeated once, a good WRITE_USAGE answer steps the counter, and a good AUTH answer makes the slot authentic, or empty at its capacity. Each answers a next state and changes nothing outside the parts named. -/
def Obligations.TallyRuns : Prop :=
  (∀ (s : State), rbit s Reg.TLY_CTRL 0 = true →
     ∃ t, exec .tallyCheckpointTimer s = .next t ∧
       (t.tly.captured = s.clock.uptime ∧ t.tly.writing = (s.tly.writing || crkAccepts s) ∧
         (∀ i ∈ tlyEnabled s, tlySlot t i = { tlySlot s i with exchanges := (tlySlot s i).exchanges ++ [⟨1, 0, 0, false⟩] }) ∧
         ∀ i, i ∉ tlyEnabled s → tlySlot t i = tlySlot s i) ∧
       Only [.crk, .out, .tly] s t) ∧
  (∀ (s : State), s.tly.writeBack = true →
     ∃ t, exec .tallyWriteBack s = .next t ∧
       (t.tly.writeBack = false ∧
         (∀ i ∈ tlyEnabled s, (tlySlot s i).state = 3 ∨ (tlySlot s i).state = 5 → tlySlot t i = { tlySlot s i with
           exchanges := (tlySlot s i).exchanges ++ [⟨3, (tlySlot s i).usage, 0, false⟩] }) ∧
         ∀ i, i ∉ tlyEnabled s ∨ ((tlySlot s i).state ≠ 3 ∧ (tlySlot s i).state ≠ 5) → tlySlot t i = tlySlot s i) ∧
       Only [.out, .tly] s t) ∧
  (∀ (v : DWord) (s : State), rbit s Reg.TLY_CTRL 0 = true → s.tly.late = false →
     rf s Reg.TLY_CKPT 15 0 + 250 ≤ (s.clock.uptime - s.tly.prev) / ms →
     ∃ t, exec (.tallyCkptLate v) s = .next t ∧
       (t.tly = { s.tly with late := true } ∧ (tfind t.stk.alarms 11).isSome = true ∧ (getPage t pgTly).irqRaw.getLsbD 6 = true) ∧
       Only [.clock, .msix, .out, .reg .stk, .reg .tim, .reg .tly, .rings, .stk, .tly] s t) ∧
  (∀ (i : Fin 16) (e : IdExchange) (r : List IdExchange) (s : State), (tlySlot s i.val).exchanges = e :: r →
     (0 < e.busy → ∃ t, exec (.tallyI2cBusyRetry i) s = .next t ∧
       (t.out = .i2c (tlyController s i.val) (tlyAddress s i.val) [] :: s.out) ∧ Only [.out] s t) ∧
     (∃ t, exec (.i2cStretchTimeout i) s = .next t ∧
       (rn t Reg.TLY_I2C_ERR_CNT = min 0xFFFFFFFF (rn s Reg.TLY_I2C_ERR_CNT + 1) ∧ (tlySlot t i.val).exchanges = r) ∧
       Only (completionParts ++ ([.free, .reg .tly, .tly] : List Part)) s t) ∧
     (∀ bytes : List Byte, bytes ≠ [] → bytes.length ≠ leAt bytes 1 2 + 5 → e.repeated = false →
       ∃ t, exec (.tallyExchangeResponse i bytes) s = .next t ∧
         (tlySlot t i.val = { tlySlot s i.val with exchanges := { e with repeated := true, busy := 0 } :: r } ∧
           (controllerOn s (tlyController s i.val) = true → t.out = .i2c (tlyController s i.val) (tlyAddress s i.val)
             (requestOf (tlySlot s i.val) { e with repeated := true, busy := 0 }) :: s.out)) ∧
         Only [.out, .tly] s t) ∧
     (∀ p : List Byte, p.length ≤ 1024 → e.busy < 50 →
       ∃ t, exec (.tallyExchangeResponse i (le 1 1 ++ le 2 p.length ++ p ++ tallyCrc (le 1 1 ++ le 2 p.length ++ p))) s = .next t ∧
         (tlySlot t i.val = { tlySlot s i.val with exchanges := { e with busy := e.busy + 1 } :: r }) ∧ Only [.tly] s t) ∧
     (∀ p : List Byte, p.length ≤ 1024 → e.op = 3 →
       p = le 8 e.val.toNat ++ le 4 ((tlySlot s i.val).counter + 1).toNat ++
         slotMac (tlySlot s i.val) e.val.toNat ((tlySlot s i.val).counter + 1).toNat →
       ∃ t, exec (.tallyExchangeResponse i (le 1 0 ++ le 2 p.length ++ p ++ tallyCrc (le 1 0 ++ le 2 p.length ++ p))) s = .next t ∧
         (tlySlot t i.val = { tlySlot s i.val with exchanges := r, devUsage := e.val, counter := (tlySlot s i.val).counter + 1 }) ∧
         Only (completionParts ++ ([.free, .reg .tly, .tly] : List Part)) s t) ∧
     (∀ p : List Byte, p.length = 76 → e.op = 2 → leAt p 0 8 = (tlySlot s i.val).devUsage.toNat →
       Config.ecdsaP256 (tlySlot s i.val).devKey (Config.sha384 (le 32 (tlySlot s i.val).nonce.toNat ++ le 64 (tlySlot s i.val).eph.toNat ++
         (tlySlot s i.val).serial ++ slice p 0 12)) (slice p 12 76) = true →
       let u := max (max (leAt p 0 8) (knownUsage s (tlySlot s i.val).serial).toNat) (tlySlot s i.val).usage.toNat
       ∃ t, exec (.tallyExchangeResponse i (le 1 0 ++ le 2 p.length ++ p ++ tallyCrc (le 1 0 ++ le 2 p.length ++ p))) s = .next t ∧
         ((tlySlot t i.val).state = (if (tlySlot s i.val).cap.toNat ≤ u then 5 else 3) ∧ (tlySlot t i.val).usage.toNat = u ∧
           (tlySlot t i.val).session.isSome = true ∧ (tlySlot t i.val).exchanges = r) ∧
         Only (completionParts ++ ([.free, .reg .tly, .tly] : List Part)) s t))

/-- Crock writes the record at the front of its queue where the region has room. A configuration or calibration record of no command that verifies leaves the queue and ends the region's log under the next sequence number; one that fails its comparison stands torn at its address and stays in front. Crock counts each. The records of commands, batches and snapshots run too. A compaction that ends good makes the other region active with the live set between its head and its end; a third failure in a row of one leaves Crock read-only. The hourly snapshot captures the counts that changed, its write puts the data in the ring and queues its record, the calibration buffer's hour empties it, and the grace window's end leaves Crock absent with its outcome kept for the boot. Each answers a next state and changes nothing outside the parts named. -/
def Obligations.CrockRuns : Prop :=
  (∀ (good : Bool) (j : CrkJob) (rest : List CrkJob) (s : State), crkAccepts s = true → s.crk.queue = j :: rest →
     crkAppend s s.crk.active + j.body.slot ≤ regionBytes s →
     ∃ t, exec (.crockRecordWrite good) s = .next t ∧
       (((∃ es, j.body = .config es) ∨ (∃ p k gs, j.body = .cal p k gs)) → good = true → j.cmd = none →
         (s.crk.state = .compacting ∨ crkAppend s s.crk.active + j.body.slot ≤ rf s Reg.CRK_COMPACT_AT 7 0 * 1048576) →
         t.crk = { s.crk with
           queue := rest, failRun := 0, seq := s.crk.seq + 1,
           logs := tput s.crk.logs s.crk.active (crkLog s s.crk.active ++ [⟨s.crk.seq + 1, crkAppend s s.crk.active, j.body⟩]),
           appends := tput s.crk.appends s.crk.active (crkAppend s s.crk.active + j.body.slot) }) ∧
       (good = false → s.crk.failRun < 2 →
         t.crk = { s.crk with
           failRun := s.crk.failRun + 1, seq := s.crk.seq + 1,
           torn := s.crk.torn ++ [(s.crk.active, crkAppend s s.crk.active)],
           appends := tput s.crk.appends s.crk.active (afterTorn (crkAppend s s.crk.active)) } ∧
         rn t Reg.CRK_VERIFY_CNT = min 0xFFFFFFFF (rn s Reg.CRK_VERIFY_CNT + 1)) ∧
       Only (completionParts ++ ([.crk, .free, .glz, .jobs, .reg .crk, .sag, .thr, .til, .tly] : List Part)) s t) ∧
  (∀ (s : State), s.crk.compacting = true →
     let live := liveSet (crkLog s s.crk.active)
     let all := CrkBody.regionHead (crkGen s s.crk.active + 1) :: live ++ [.compactDone (crkGen s s.crk.active + 1)]
     ∃ t, exec (.crockCompactionDone true) s = .next t ∧
       (t.crk.state = .mounted ∧ t.crk.compacting = false ∧ t.crk.active = 1 - s.crk.active ∧
         crkLog t (1 - s.crk.active) = placeRecords (s.crk.seq + 1) 0 all ∧
         crkAppend t (1 - s.crk.active) = recordBytes all ∧ crkGen t (1 - s.crk.active) = crkGen s s.crk.active + 1 ∧
         t.crk.seq = s.crk.seq + all.length ∧ t.crk.queue = s.crk.queue ∧
         (getPage t pgCrk).irqRaw.getLsbD 5 = true) ∧
       Only (completionParts ++ ([.crk, .free, .reg .crk, .sag, .tly] : List Part)) s t) ∧
  (∀ (s : State), s.crk.compacting = true → ∃ t, exec (.crockCompactionDone false) s = .next t ∧
     (t.crk.state = .readOnly ∧ rn t Reg.CRK_VERIFY_CNT = min 0xFFFFFFFF (rn s Reg.CRK_VERIFY_CNT + 3) ∧
       t.crk.active = s.crk.active ∧ t.crk.logs = s.crk.logs ∧ t.crk.appends = s.crk.appends ∧
       (s.crk.state = .readOnly → t.crk = { s.crk with compacting := false })) ∧
     Only (completionParts ++ ([.crk, .free, .reg .crk, .sag, .tly] : List Part)) s t) ∧
  (∀ (s : State), crkAccepts s = true → s.crk.snapNow = none → s.pwr.state ≠ .deep →
     ∃ t, exec .snapshotTimer s = .next t ∧
       (t.crk.snapNum = s.crk.snapNum + 1 ∧ t.til.changed = [] ∧ t.til.entries = s.til.entries ∧
         ∃ x, t.crk.snapNow = some x ∧ x.num = s.crk.snapNum + 1 ∧ x.time = stamp s ∧ x.lost = false) ∧
       Only [.crk, .til] s t) ∧
  (∀ (x : Snap) (s : State), s.crk.snapNow = some x → crkAccepts s = true → snapQueued s = false →
     ∃ t, exec .snapshotWrite s = .next t ∧
       (snapQueued t = true ∧ t.crk.snapNow = some x ∧ t.crk.ringBlock = x.block + snapBlocks x.mask ∧
         t.crk.ringWraps = (if x.block < s.crk.ringBlock then s.crk.ringWraps + 1 else s.crk.ringWraps) ∧
         t.crk.snaps = s.crk.snaps.map fun y => if snapErases s x.mask y then { y with lost := true } else y) ∧
       Only [.crk, .free, .msix, .out, .reg .crk, .reg .stk, .rings, .stk] s t) ∧
  (∀ (s : State), crkAccepts s = true → ∃ t, exec .calFlushTimer s = .next t ∧
     (t.crk.cal = [] ∧ t.crk.logs = s.crk.logs ∧
       (s.crk.cal = [] → t.crk.queue = s.crk.queue)) ∧ Only [.crk] s t) ∧
  (∀ (completed busy : Bool) (s : State), s.crk.grace = some busy →
     let n := s.crk.queue.length
     ∃ t, exec (.crockGraceEnd completed) s = .next t ∧
       (t.crk.state = .absent ∧ t.crk.grace = none ∧ t.crk.queue = [] ∧ t.crk.snapNow = none ∧
         t.crk.graceRes = (if busy then (if completed then 1 else 2) + 256 * min 65535 (n - 1) else 3 + 256 * min 65535 n)) ∧
       Only [.crk, .free, .glz, .jobs, .msix, .out, .reg .stk, .rings, .sag, .stk, .thr] s t)

/-- Stook writes the oldest staged event: one that no ring takes leaves staging; an alarm's, or an ordinary one that no receipt is ahead of and the bucket holds, leaves staging for its rings, and the one ring that has room and is owed no gap gets its entries. The oldest trace packet goes to the trace rings where all have room, nothing is ahead of it and the bucket holds it, and is lost while trace is off. A wait of 1 ms for the bucket raises its interrupt once. A core that goes to sleep, or wakes, emits its packets into the trace queue. Each answers a next state and changes nothing outside the parts named. -/
def Obligations.StookWriters : Prop :=
  (∀ (e : Event) (rest : List Event) (s : State), s.stk.staging = e :: rest → ∃ t, exec .stookEventWrite s = .next t ∧
     ((eventRings s e = [] → t = { s with stk := { s.stk with staging := rest } }) ∧
       (canIssue s = true → (e.alarm = true ∨ (receiptsReady s = false ∧ bucketHolds s (eventBytes e) = true)) →
         t.stk.staging = rest ∧
         ∀ n, eventRings s e = [n] → (ring s n).gap.count = 0 → canPost s n (eventRecords e).length = true →
           (ring t n).pi = ((ring s n).pi + (eventRecords e).length) % idxMod ∧
           (ring t n).entries = (ring s n).entries ++ eventRecords e)) ∧
     Only [.msix, .out, .reg .stk, .rings, .stk] s t) ∧
  (∀ (x : TracePkt) (rest : List TracePkt) (s : State), s.stk.trace = x :: rest → ∃ t, exec .stookTraceWrite s = .next t ∧
     ((rbit s Reg.STK_CTRL 1 = false →
         t.stk.trace = rest ∧ rn t Reg.STK_TR_DROP_CNT = min 0xFFFFFFFF (rn s Reg.STK_TR_DROP_CNT + 1)) ∧
       (rbit s Reg.STK_CTRL 1 = true → traceRings s ≠ [] → canIssue s = true →
         (∀ n ∈ traceRings s, canPost s n 1 = true) → (∀ e ∈ s.stk.staging, eventRings s e = []) → receiptsReady s = false →
         bucketHolds s 64 = true →
         t.stk.trace = rest ∧
         ∀ n, traceRings s = [n] →
           (ring t n).pi = ((ring s n).pi + 1) % idxMod ∧ (ring t n).entries = (ring s n).entries ++ [x.record])) ∧
     Only [.msix, .out, .reg .stk, .rings, .stk] s t) ∧
  (∀ (u : DWord) (w : Nat) (s : State), s.stk.waitSince = some w → s.stk.throttled = false → w + ms ≤ u.toNat →
     ∃ t, exec (.stookThrottleTimer u) s = .next t ∧
       (t.stk.throttled = true ∧ (getPage t pgStk).irqRaw.getLsbD 7 = true) ∧
       Only [.clock, .msix, .out, .reg .stk, .reg .tim, .rings, .stk] s t) ∧
  (∀ (core : Fin 4) (s : State), (coreTrace s core.val).asleep = false → ∃ t, exec (.coreSleep core) s = .next t ∧
     ((coreTrace t core.val).asleep = true ∧ (coreTrace t core.val).fifo = []) ∧
     Only [.msix, .out, .reg .stk, .rings, .stk] s t) ∧
  (∀ (core : Fin 4) (ctx : Word) (pc : DWord) (s : State), (coreTrace s core.val).asleep = true →
     ∃ t, exec (.coreWake core ctx pc) s = .next t ∧
       ((coreTrace t core.val).asleep = false ∧ (coreTrace t core.val).fifo = [] ∧
         ((coreTrace s core.val).fifo = [] → (coreTrace s core.val).owesGap = false → s.stk.shed = 0 → s.stk.trace.length + 2 ≤ 511 →
           rbit s Reg.STK_CTRL 1 = true →
           t.stk.trace = s.stk.trace ++
             [{ typ := 5, core := core.val, prio := 0, seq := (coreTrace s core.val).seq, time := stamp s, data := [] },
              { typ := 3, core := core.val, prio := 0, seq := (coreTrace s core.val).seq + 1, time := stamp s,
                data := le 4 ctx.toNat ++ le 4 0 ++ le 8 pc.toNat }])) ∧
       Only [.msix, .out, .reg .stk, .rings, .stk] s t)

/-- A reset that nothing holds off and that no stronger one governs begins its boot: the units are at rest and GLB_RST_CAUSE holds its cause. A POR and a PIN reset sample the straps and a POR zeroes Sagger's RAM; a HOST reset keeps the alarm store, the accounts of tenants and Sagger's RAM but its keys; PERST_N in DEEP ends DEEP; a SAG_FAULT counts and the third within a second halts Sagger. An FLR brings the units to rest without a boot and keeps tenant 0's jobs and the link. A WDOG stops the planes, empties the keys, drains the enabled tenants but tenant 0, forgets the commands taken, counts and raises its alarm. A JTAG test instruction holds a HOST reset until it is gone. Resident firmware reports that it has reinitialised. -/
def Obligations.ResetsRun : Prop :=
  (∀ (strap : BitVec 5) (s : State), ∃ t, exec (.por strap) s = .next t ∧
     (Rebooting .por 0 t ∧ rn t Reg.GLB_STRAP = strap.toNat ∧ t.sag.tenants = [] ∧ t.jobs.tenants = [] ∧ t.stk.alarms = [] ∧
       t.pending = s.pending)) ∧
  (∀ (strap : BitVec 5) (cool : Bool) (s : State), (s.thm.atrip = true → cool = true) → deepHolds s = false → Governs .pin s →
     ∃ t, exec (.pinReset strap cool) s = .next t ∧
       (Rebooting .pin 1 t ∧ rn t Reg.GLB_STRAP = strap.toNat ∧ t.thm.atrip = false ∧ t.pending = s.pending)) ∧
  (∀ (source : Fin 4) (s : State), s.thm.atrip = false → (s.thm.shutdown = false ∨ source = 0) → deepHolds s = false →
     (s.pwr.state ≠ .deep → Governs .host s → ∃ t, exec (.hostReset source) s = .next t ∧
       (Rebooting .host (source.val + 2) t ∧ t.stk.alarms = s.stk.alarms ∧ t.sag.fuses = s.sag.fuses ∧
         (∀ i, (tenant t i).grant = (tenant s i).grant ∧ (tenant t i).charged = (tenant s i).charged) ∧ t.pending = s.pending)) ∧
     (s.pwr.state = .deep → source = 0 → Governs .deepExit s → ∃ t, exec (.hostReset source) s = .next t ∧
       (Rebooting .deepExit 8 t ∧ t.stk.alarms = s.stk.alarms ∧ t.sag.tenants = [] ∧ t.pending = s.pending))) ∧
  (∀ (cause : Fin 4) (s : State), clocked s = true → s.sag.halted = false → Governs .sagFault s →
     let recent := s.sag.faultTimes.filter fun u => decide (s.clock.uptime - u ≤ 1000 * ms)
     ∃ t, exec (.sagFault cause) s = .next t ∧
       (Rebooting .sagFault 7 t ∧ rn t Reg.SAG_FAULT_CNT = min 0xFFFFFFFF (rn s Reg.SAG_FAULT_CNT + 1) ∧
         (tfind t.stk.alarms 8).isSome = true ∧ t.sag.halted = decide (2 ≤ recent.length) ∧ t.pending = s.pending)) ∧
  (∀ (s : State), clocked s = true → s.pwr.boot = none → ∃ t, exec .flr s = .next t ∧
     (AtRest t ∧ t.pwr.boot = none ∧ t.pwr.state = .run ∧ rn t Reg.GLB_RST_CAUSE = 9 ∧
       t.sag.ready = s.sag.ready ∧ t.hif.linkSpeed = s.hif.linkSpeed ∧ t.hif.linkWidth = s.hif.linkWidth ∧ t.hif.dlUp = s.hif.dlUp ∧
       (∀ x ∈ t.jobs.jobs, x.tenant = 0) ∧ (∀ x ∈ t.jobs.templates, x.tenant = 0) ∧ (∀ x ∈ t.jobs.streams, x.tenant = 0) ∧
       t.pending = s.pending)) ∧
  (∀ (s : State), clocked s = true → s.pwr.boot = none → ∃ t, exec .wdogReset s = .next t ∧
     (t.fw.parked = [] ∧ t.fw.ready = false ∧ t.pwr.state = .run ∧ rn t Reg.GLB_RST_CAUSE = 10 ∧
       rn t Reg.GLB_WDOG_CNT = min 0xFFFFFFFF (rn s Reg.GLB_WDOG_CNT + 1) ∧ (tfind t.stk.alarms 4).isSome = true ∧
       (∀ i, (sagTenant t i).key = none) ∧
       (∀ p ∈ planeNums, (plane s p).state = .leadIn ∨ (plane s p).state = .running → (plane t p).state = .stopping) ∧
       ∀ i, i ≠ 0 → (tenant s i).state = .enabled → (tenant t i).state = .draining) ∧
     Only (completionParts ++ ([.crk, .free, .glz, .hif, .jobs, .kln, .pwr, .reg .glb, .reg .hif, .reg .klnC, .reg .klnP, .reg .pwr,
       .sag, .thr, .til] : List Part)) s t) ∧
  (∀ (s : State), clocked s = true →
     (Governs .host s → ∃ t, exec (.jtagInstruction true) s = .next t ∧
       (AtRest t ∧ t.pwr.boot = some .host ∧ t.pwr.jtag = true ∧ t.pending = s.pending)) ∧
     exec (.jtagInstruction false) s = .next { s with pwr := { s.pwr with jtag := false } }) ∧
  (∀ (s : State), clocked s = true → s.pwr.boot = none → s.sag.halted = false →
     exec .residentFirmwareReady s = .next { s with fw := { s.fw with ready := true } })

/-- The loss of the reference puts CK_AON on its own oscillator and the root PLL out of lock, its return ends both; each loss counts in its byte of CLK_LOL_CNT and is the cause CLK_RST_CAUSE tells. The loss of root PLL lock is a SAG_FAULT of cause glitch and that of DDR PLL lock a HOST reset of cause 6. The delay loop gains or loses lock with its code and its interrupt, and corrects its code under lock. A calibration of the I/O lines starts at its period and ends with each measured line's trim and error, a count and its interrupt. Each answers a next state. -/
def Obligations.ClockEventsRun : Prop :=
  (∀ (s : State), s.clk.refOk = true → ∃ t, exec .refClockLoss s = .next t ∧
     (t.clk.refOk = false ∧ t.clk.onRc = true ∧
       rf t Reg.CLK_LOL_CNT 7 0 = min 255 (rf s Reg.CLK_LOL_CNT 7 0 + 1) ∧ rn t Reg.CLK_RST_CAUSE = 1 ∧
       (clocked s = true → t.clk.rootLock = false ∧ rf t Reg.CLK_LOL_CNT 15 8 = min 255 (rf s Reg.CLK_LOL_CNT 15 8 + 1) ∧
         (s.sag.halted = false → Governs .sagFault s → Rebooting .sagFault 7 t)))) ∧
  (∀ (s : State), exec .refClockReturn s = .next { s with clk := { s.clk with refOk := true, onRc := false } }) ∧
  (∀ (s : State), s.clk.rootLock = true → ∃ t, exec .rootPllLoss s = .next t ∧
     (t.clk.rootLock = false ∧ t.clk.dllLock = false ∧
       rf t Reg.CLK_LOL_CNT 15 8 = min 255 (rf s Reg.CLK_LOL_CNT 15 8 + 1) ∧ rn t Reg.CLK_RST_CAUSE = 2 ∧
       (clocked s = true → s.sag.halted = false → Governs .sagFault s → Rebooting .sagFault 7 t))) ∧
  (∀ (s : State), s.clk.ddrLock = true → ∃ t, exec .ddrPllLoss s = .next t ∧
     (t.clk.ddrLock = false ∧ rf t Reg.CLK_LOL_CNT 23 16 = min 255 (rf s Reg.CLK_LOL_CNT 23 16 + 1) ∧
       rn t Reg.CLK_RST_CAUSE = 3 ∧
       (s.thm.atrip = false → s.thm.shutdown = false → s.pwr.state ≠ .deep → deepHolds s = false → Governs .host s →
         Rebooting .host 6 t))) ∧
  (∀ (locked : Bool) (code : BitVec 10) (s : State), (locked = true → s.clk.rootLock = true ∧ s.pwr.state ≠ .standby) →
     (locked = false → s.clk.dllLock = true) →
     ∃ t, exec (.dllLockChange locked code) s = .next t ∧
       (t.clk.dllLock = locked ∧ t.clk.code = code.toNat ∧
         (s.clk.dllLock ≠ locked → (getPage t pgClk).irqRaw.getLsbD 4 = true)) ∧
       Only [.clk, .jobs, .kln, .msix, .out, .ports, .reg .clk, .reg .klnC, .reg .klnP, .reg .stk, .rings, .stk, .win] s t) ∧
  (∀ (s : State), s.clk.rootLock = true → s.pwr.boot = none →
     exec .iocalPeriod s = .next { s with clk := { s.clk with iocal := true } }) ∧
  (∀ (errors : List (BitVec 24)) (s : State), s.clk.iocal = true → ∃ t, exec (.iocalDone errors) s = .next t ∧
     (t.clk.iocal = false ∧ rn t Reg.CLK_IOCAL_CNT = min 0xFFFFFFFF (rn s Reg.CLK_IOCAL_CNT + 1) ∧
       (getPage t pgClk).irqRaw.getLsbD 5 = true ∧
       ∀ k < 70, ∀ e, errors[k]? = some e → rn t (wkey Reg.CLK_IOCAL_TRIM k) =
         unsigned 7 (max (-64) (min 63 (nearestUnit (-e.toInt)))) + 256 * unsigned 8 (satS 8 (nearestUnit e.toInt))) ∧
     Only [.clk, .free, .kln, .msix, .out, .reg .clk, .reg .stk, .rings, .stk] s t)

/-- A sensor's sample is kept with its validity and how often in a row it read 125 °C or more; one at the warning threshold leaves the warning on, or the shutdown where that follows, and the second in a row at 125 °C or more shuts the controller down. The comparators' trip brings the units to rest and sets its latch; 1 s below 115 °C releases the boot after a shutdown. A fan's tachometer edge is taken, and ends FAULT or TACH_LOST with enough edges within the timeout; its spin-up ends RUNNING, or counts a stall and pauses or faults; its pause ends in SPINUP; its missing edges raise the alarm; AUTO takes its duty from Tj, and a speed below the limit for the timeout reads SLOW. Each answers a next state. -/
def Obligations.ThermalEventsRun : Prop :=
  (∀ (k : Fin 16) (r : BitVec 16) (good : Bool) (u : DWord) (s : State), s.thm.atrip = false →
     let v := good && decide (-55 * 16 ≤ r.toInt ∧ r.toInt ≤ 150 * 16)
     let before := match tfind s.thm.sensors k.val with | some x => x.hot | none => 0
     let hot := if v = true ∧ 125 * 16 ≤ r.toInt then before + 1 else 0
     ∃ t, exec (.thmSensorSample k r good u) s = .next t ∧
       (t.thm.sensors = tput s.thm.sensors k.val ⟨r.toInt, v, min 2 hot⟩ ∧
         (v = true → s.thm.thrAt = none → 16 * (rf s Reg.THM_WARN_THR 7 0 : Int) ≤ r.toInt →
           t.thm.warn = true ∨ t.thm.shutdown = true) ∧
         (2 ≤ hot → s.thm.shutdown = false → t.thm.shutdown = true ∧ AtRest t))) ∧
  (∀ (s : State), s.thm.atrip = false → ∃ t, exec .analogTrip s = .next t ∧
     (t.thm.atrip = true ∧ t.thm.shutdown = false ∧ rbit t Reg.THM_STAT 2 = true ∧ AtRest t)) ∧
  (∀ (u : DWord) (c : Nat) (s : State), s.thm.shutdown = true → s.pwr.boot.isSome = true → s.thm.coolSince = some c →
     c + 1000 * ms ≤ s.clock.uptime + (u.toNat - now s) →
     ∃ t, exec (.shutdownHoldRelease u) s = .next t ∧ (t.thm = { s.thm with shutdown := false }) ∧
       Only [.clock, .msix, .out, .reg .stk, .reg .tim, .rings, .stk, .thm] s t) ∧
  (∀ (i : Fin 4) (u : DWord) (s : State),
     let at' := s.clock.uptime + (u.toNat - now s)
     let x := fan s i.val
     let need := rf s (Reg.FAN_CFG i.val) 23 16
     (x.state ≠ 0 → ∃ t, exec (.fanTachEdge i u) s = .next t ∧
       ((fan t i.val).lastEdge = some at' ∧
         (fan t i.val).periods = (match x.lastEdge with | some e => (((at' - e) / us) :: x.periods).take 4 | none => x.periods) ∧
         ((x.state = 4 ∨ x.state = 5) → (need ≤ 1 ∨ ∃ e, x.edges[need - 2]? = some e ∧ at' - e ≤ x.tmo) → (fan t i.val).state = 3) ∧
         ∀ j, j ≠ i.val → fan t j = fan s j) ∧
       Only [.clock, .fans, .msix, .out, .reg .fan, .reg .stk, .reg .tim, .rings, .stk] s t) ∧
     (x.state = 1 → x.since + x.spin ≤ at' → ∃ t, exec (.fanSpinupEnd i u) s = .next t ∧
       ((need ≤ x.edges.length → (fan t i.val).state = 3 ∧ (fan t i.val).attempts = x.attempts) ∧
         (x.edges.length < need → (fan t i.val).state = (if x.attempts < 3 then 2 else 4) ∧ (fan t i.val).attempts = x.attempts + 1 ∧
           rn t (Reg.FAN_STALL_CNT i.val) = min 0xFFFFFFFF (rn s (Reg.FAN_STALL_CNT i.val) + 1) ∧
           (getPage t pgFan).irqRaw.getLsbD 6 = true) ∧
         ∀ j, j ≠ i.val → fan t j = fan s j) ∧
       Only [.clock, .fans, .msix, .out, .reg .fan, .reg .stk, .reg .tim, .rings, .stk] s t) ∧
     (x.state = 2 → x.since + 5000 * ms ≤ at' → ∃ t, exec (.fanPauseEnd i u) s = .next t ∧
       ((fan t i.val).state = 1 ∧ (fan t i.val).since = at' ∧ ∀ j, j ≠ i.val → fan t j = fan s j) ∧
       Only [.clock, .fans, .msix, .out, .reg .fan, .reg .stk, .reg .tim, .rings, .stk] s t) ∧
     (x.state = 3 → max x.since (x.lastEdge.getD 0) + x.tmo ≤ at' → ∃ t, exec (.fanTachTimeout i u) s = .next t ∧
       ((fan t i.val).state = 5 ∧ (tfind t.stk.alarms 3).isSome = true ∧ (getPage t pgFan).irqRaw.getLsbD 5 = true ∧
         ∀ j, j ≠ i.val → fan t j = fan s j) ∧
       Only [.clock, .fans, .msix, .out, .reg .fan, .reg .stk, .reg .tim, .rings, .stk] s t) ∧
     (fanMode s i.val = 2 → ∃ t, exec (.fanAutoUpdate i) s = .next t ∧
       (fan t i.val = { x with auto := fanAuto s i.val } ∧ ∀ j, j ≠ i.val → fan t j = fan s j) ∧ Only [.fans] s t) ∧
     (∀ low : Nat, x.state = 3 → x.speed < rf s (Reg.FAN_RPM_MIN i.val) 15 0 → x.lowSince = some low → x.slow = false →
       low + x.tmo ≤ at' → ∃ t, exec (.fanSlow i u) s = .next t ∧
       ((fan t i.val).slow = true ∧ (fan t i.val).state = 3 ∧ ∀ j, j ≠ i.val → fan t j = fan s j) ∧
       Only [.clock, .fans, .msix, .out, .reg .stk, .reg .tim, .rings, .stk] s t))

/-- A dword of a mapped page at which the map places nothing, in the page header or among the block's own registers, reads zero and changes nothing, whoever reads it; a write of it, whatever its byte enables and initiator, changes no register, and one that its page admits changes nothing at all. No counter of any page counts it. -/
def Obligations.ReservedOffsetsReadZero : Prop :=
  ∀ (ini : Initiator) (addr : BitVec 24) (s : State), aligned addr.toNat = true → clocked s = true →
    pageUp s (addr.toNat / 0x1000) = true →
    ((0x02C ≤ addr.toNat % 0x1000 ∧ addr.toNat % 0x1000 < 0x040) ∨
      (0x040 ≤ addr.toNat % 0x1000 ∧ regDef addr.toNat = none)) →
    (∃ t, exec (.lowWordRead ini addr 0) s = .next t ∧ tfind t.regs.rdata (iniNum ini) = some [0#32] ∧ Only [.reads] s t) ∧
    (∀ (v : Word) (be : BitVec 4), ∃ t, exec (.registerWrite ini addr v be [] []) s = .next t ∧ t.regs = s.regs) ∧
    (∀ v : Word, Writable ini addr.toNat s = true → exec (.registerWrite ini addr v allBytes [] []) s = .next s)
end

