-- ==== Sys2Proof/Laws/Tables.lean ====
section
/-! SUPPORT. Reading a table after writing it, and the canonical form of the addressed memory. -/

namespace Sys2Proof.Machine
open Sys2Proof

@[simp] theorem tfind_tput_self {α : Type} (t : Tab α) (k : Nat) (v : α) : tfind (tput t k v) k = some v := by
  induction t with
  | nil => simp [tput, tfind]
  | cons e r ih =>
    obtain ⟨j, w⟩ := e
    simp only [tput]
    split
    · simp [tfind]
    · split
      · simp [tfind]
      · rename_i h1 h2
        simp [tfind, ih, Ne.symm h2]

theorem tfind_tput_ne {α : Type} (t : Tab α) {j k : Nat} (v : α) (h : j ≠ k) : tfind (tput t k v) j = tfind t j := by
  induction t with
  | nil => simp [tput, tfind, h.symm]
  | cons e r ih =>
    obtain ⟨i, w⟩ := e
    simp only [tput]
    split
    · simp [tfind, h.symm]
    · split
      · rename_i h2
        subst h2
        simp [tfind, h.symm]
      · simp [tfind, ih]

@[simp] theorem tget_tput_self {α : Type} (t : Tab α) (d : α) (k : Nat) (v : α) : tget (tput t k v) d k = v := by
  simp [tget]

theorem tget_tput_ne {α : Type} (t : Tab α) (d : α) {j k : Nat} (v : α) (h : j ≠ k) :
    tget (tput t k v) d j = tget t d j := by
  simp [tget, tfind_tput_ne t v h]

@[simp] theorem tfind_tdel_self {α : Type} (t : Tab α) (k : Nat) : tfind (tdel t k) k = none := by
  induction t with
  | nil => rfl
  | cons e r ih =>
    obtain ⟨j, w⟩ := e
    simp only [tdel]
    split
    · exact ih
    · rename_i h; simp [tfind, h, ih]

theorem tfind_tdel_ne {α : Type} (t : Tab α) {j k : Nat} (h : j ≠ k) : tfind (tdel t k) j = tfind t j := by
  induction t with
  | nil => rfl
  | cons e r ih =>
    obtain ⟨i, w⟩ := e
    simp only [tdel]
    split
    · rename_i h2; subst h2; simp [tfind, ih, h.symm]
    · simp [tfind, ih]

/-- Filtering a table by keys leaves the entries of the keys that pass, and no others. -/
theorem tfind_tfilter {α : Type} (t : Tab α) (p : Nat → Bool) (k : Nat) :
    tfind (tfilter t p) k = if p k then tfind t k else none := by
  induction t with
  | nil => simp [tfilter, tfind]
  | cons e r ih =>
    obtain ⟨j, w⟩ := e
    simp only [tfilter] at ih
    by_cases hj : p j = true
    · by_cases hk : j = k
      · subst hk; simp [tfilter, tfind, hj]
      · simp [tfilter, tfind, hj, hk, ih]
    · by_cases hk : j = k
      · subst hk; simp [tfilter, tfind, hj, ih]
      · simp [tfilter, tfind, hj, hk, ih]

/-- A table written over another is read first. -/
theorem tfind_tmerge {α : Type} (new old : Tab α) (k : Nat) :
    tfind (tmerge new old) k = match tfind new k with | some v => some v | none => tfind old k := by
  unfold tmerge
  induction new with
  | nil => rfl
  | cons e r ih =>
    obtain ⟨j, v⟩ := e
    rw [List.foldr_cons, tfind]
    by_cases h : j = k
    · subst h
      simp
    · rw [tfind_tput_ne _ _ (Ne.symm h), ih, if_neg h]

/-! ## The addressed memory -/

theorem memWfFrom_le {m : List Host.Cell} {a b : Nat} (hab : a ≤ b) (h : memWfFrom b m = true) : memWfFrom a m = true := by
  cases m with
  | nil => rfl
  | cons c r =>
    obtain ⟨k, v⟩ := c
    simp only [memWfFrom, Bool.and_eq_true, decide_eq_true_eq] at h ⊢
    exact ⟨⟨hab.trans h.1.1, h.1.2⟩, h.2⟩

/-- A byte written keeps the form. -/
theorem memWrite_wf {m : List Host.Cell} {lo a : Nat} (b : Byte) (ha : lo ≤ a) (h : memWfFrom lo m = true) :
    memWfFrom lo (memWrite m a b) = true := by
  induction m generalizing lo with
  | nil =>
    simp only [memWrite]
    split <;> simp_all [memWfFrom]
  | cons c r ih =>
    obtain ⟨k, v⟩ := c
    simp only [memWfFrom, Bool.and_eq_true, decide_eq_true_eq] at h
    simp only [memWrite]
    split
    · split <;> simp_all [memWfFrom]
    · split
      · rename_i h1 h2
        subst h2
        split
        · exact memWfFrom_le (by omega) h.2
        · simp_all [memWfFrom]
      · simp only [memWfFrom, Bool.and_eq_true, decide_eq_true_eq]
        exact ⟨h.1, ih (by omega) h.2⟩

theorem memBlock_wf (a : Nat) (bs : List Byte) : memWfFrom a (memBlock a bs) = true := by
  induction bs generalizing a with
  | nil => rfl
  | cons b r ih =>
    simp only [memBlock]
    split
    · exact memWfFrom_le (Nat.le_succ a) (ih (a + 1))
    · rename_i hb
      simp [memWfFrom, hb, ih]

theorem mem_memBlock {a : Nat} {bs : List Byte} {c : Host.Cell} (h : c ∈ memBlock a bs) : a ≤ c.1 ∧ c.1 < a + bs.length := by
  induction bs generalizing a with
  | nil => simp [memBlock] at h
  | cons b r ih =>
    simp only [memBlock] at h
    split at h
    · have := ih h
      simp only [List.length_cons]; omega
    · rcases List.mem_cons.mp h with rfl | h
      · simp
      · have := ih h
        simp only [List.length_cons]; omega

theorem mem_of_memWfFrom {m : List Host.Cell} {lo : Nat} (h : memWfFrom lo m = true) {c : Host.Cell} (hc : c ∈ m) :
    lo ≤ c.1 := by
  induction m generalizing lo with
  | nil => simp at hc
  | cons d r ih =>
    obtain ⟨k, v⟩ := d
    simp only [memWfFrom, Bool.and_eq_true, decide_eq_true_eq] at h
    rcases List.mem_cons.mp hc with rfl | hc
    · exact h.1.1
    · exact Nat.le_trans (by omega) (ih h.2 hc)

theorem memWfFrom_filter {m : List Host.Cell} {lo : Nat} (p : Host.Cell → Bool) (h : memWfFrom lo m = true) :
    memWfFrom lo (m.filter p) = true := by
  induction m generalizing lo with
  | nil => rfl
  | cons d r ih =>
    obtain ⟨k, v⟩ := d
    simp only [memWfFrom, Bool.and_eq_true, decide_eq_true_eq] at h
    by_cases hp : p (k, v) = true
    · simp only [List.filter_cons_of_pos hp, memWfFrom, Bool.and_eq_true, decide_eq_true_eq]
      exact ⟨h.1, ih h.2⟩
    · rw [List.filter_cons_of_neg hp]
      exact memWfFrom_le (by omega) (ih h.2)

/-- Two canonical lists, one wholly below the other, make one. -/
theorem memWfFrom_append {m n : List Host.Cell} {lo mid : Nat} (hm : memWfFrom lo m = true) (hn : memWfFrom mid n = true)
    (hlo : lo ≤ mid) (hlt : ∀ c ∈ m, c.1 < mid) : memWfFrom lo (m ++ n) = true := by
  induction m generalizing lo with
  | nil => exact memWfFrom_le hlo hn
  | cons d r ih =>
    obtain ⟨k, v⟩ := d
    simp only [memWfFrom, Bool.and_eq_true, decide_eq_true_eq] at hm
    simp only [List.cons_append, memWfFrom, Bool.and_eq_true, decide_eq_true_eq]
    exact ⟨hm.1, ih hm.2 (hlt (k, v) List.mem_cons_self) fun c hc => hlt c (List.mem_cons_of_mem _ hc)⟩

theorem memWfFrom_ge {m : List Host.Cell} {lo x : Nat} (h : memWfFrom lo m = true) (hx : ∀ c ∈ m, x ≤ c.1) :
    memWfFrom x m = true := by
  cases m with
  | nil => rfl
  | cons d r =>
    obtain ⟨k, v⟩ := d
    simp only [memWfFrom, Bool.and_eq_true, decide_eq_true_eq] at h ⊢
    exact ⟨⟨hx (k, v) List.mem_cons_self, h.1.2⟩, h.2⟩

/-- A block placed keeps the form. -/
theorem memReplace_wf {m : List Host.Cell} (base : Nat) (bs : List Byte) (h : Memory.wf m = true) :
    Memory.wf (memReplace m base bs) = true := by
  have hb : memWfFrom base (memBlock base bs ++ m.filter fun c => decide (base + bs.length ≤ c.1)) = true :=
    memWfFrom_append (mid := base + bs.length) (memBlock_wf base bs)
      (memWfFrom_ge (memWfFrom_filter _ h) fun c hc => by simpa using (List.mem_filter.mp hc).2) (Nat.le_add_right _ _)
      fun c hc => (mem_memBlock hc).2
  simpa [Memory.wf, memReplace, List.append_assoc] using
    memWfFrom_append (lo := 0) (memWfFrom_filter (fun c => decide (c.1 < base)) h) hb (Nat.zero_le _)
      fun c hc => by simpa using (List.mem_filter.mp hc).2

/-- Reading a byte just written. -/
@[simp] theorem memRead_memWrite_self {m : List Host.Cell} {lo : Nat} (a : Nat) (b : Byte) (h : memWfFrom lo m = true) :
    memRead (memWrite m a b) a = b := by
  induction m generalizing lo with
  | nil =>
    simp only [memWrite]
    split <;> simp_all [memRead]
  | cons c r ih =>
    obtain ⟨k, v⟩ := c
    simp only [memWfFrom, Bool.and_eq_true, decide_eq_true_eq] at h
    have hout : ∀ {x : Nat} {n : List Host.Cell}, memWfFrom (x + 1) n = true → memRead n x = memUnlisted := by
      intro x n hn
      induction n with
      | nil => rfl
      | cons d q ihq =>
        obtain ⟨j, w⟩ := d
        simp only [memWfFrom, Bool.and_eq_true, decide_eq_true_eq] at hn
        have : j ≠ x := by omega
        simp only [memRead, if_neg this]
        exact ihq (memWfFrom_le (by omega) hn.2)
    simp only [memWrite]
    split
    · rename_i hlt
      split
      · rename_i hb
        have hk : k ≠ a := by omega
        simp only [memRead, if_neg hk, hb]
        exact hout (memWfFrom_le (by omega) h.2)
      · simp [memRead]
    · split
      · rename_i h1 h2
        subst h2
        split
        · rename_i hb; rw [hb]; exact hout h.2
        · simp [memRead]
      · rename_i h1 h2
        simp only [memRead, if_neg (Ne.symm h2)]
        exact ih h.2

/-- A byte written leaves every other address as it was. -/
theorem memRead_memWrite_ne (m : List Host.Cell) {a c : Nat} (b : Byte) (h : c ≠ a) :
    memRead (memWrite m a b) c = memRead m c := by
  induction m with
  | nil =>
    simp only [memWrite]
    split
    · rfl
    · simp [memRead, h.symm]
  | cons e r ih =>
    obtain ⟨k, v⟩ := e
    simp only [memWrite]
    split
    · split
      · rfl
      · simp [memRead, h.symm]
    · split
      · rename_i h1 h2
        subst h2
        split <;> simp [memRead, h.symm]
      · simp only [memRead, ih]

end Sys2Proof.Machine
end

