-- ==== Sys2Proof/Laws/Keeps.lean ====
section
/-! SUPPORT. What every operation keeps: the parts of the state it does not touch, the canonical form of the memory, the
life-cycle fuses that are blown, and the count of free values drawn; and how that passes through the forms operations are
written in. -/

namespace Sys2Proof.Machine
open Sys2Proof

/-- From `s` to `t` only the parts listed change; the memory stays canonical, the life-cycle does not go back (R455), and no draw is
repeated. -/
structure Keeps (ps : List Part) (s t : State) : Prop where
  only : Only ps s t
  mem : Memory.wf s.til.arrays = true → Memory.wf t.til.arrays = true
  life : lifecycle s ≤ lifecycle t
  free : s.free ≤ t.free

theorem Part.same_refl (s : State) (p : Part) : p.same s s := by
  cases p <;> simp [Part.same]

theorem Part.same_trans {s t u : State} (p : Part) (h : p.same s t) (k : p.same t u) : p.same s u := by
  cases p with
  | reg K => exact ⟨fun a ha => ⟨(k.1 a ha).1.trans (h.1 a ha).1, (k.1 a ha).2.trans (h.1 a ha).2⟩,
      fun n hn => (k.2 n hn).trans (h.2 n hn)⟩
  | reads => exact ⟨k.1.trans h.1, k.2.1.trans h.2.1, k.2.2.trans h.2.2⟩
  | memory => exact fun a => (k a).trans (h a)
  | entries => exact ⟨k.1.trans h.1, k.2.trans h.2⟩
  | _ => exact Eq.trans k h

theorem Keeps.refl (ps : List Part) (s : State) : Keeps ps s s :=
  ⟨fun p _ => p.same_refl s, id, le_rfl, le_rfl⟩

theorem Keeps.trans {ps : List Part} {s t u : State} (h : Keeps ps s t) (k : Keeps ps t u) : Keeps ps s u :=
  ⟨fun p hp => p.same_trans (h.only p hp) (k.only p hp), fun hw => k.mem (h.mem hw), h.life.trans k.life, h.free.trans k.free⟩

/-- What a shorter list allows, a longer one does. -/
theorem Keeps.sub {a b ps : List Part} (h : ∀ p ∈ a, p ∈ b) (hb : ∀ p ∈ b, p ∈ ps) : ∀ p ∈ a, p ∈ ps :=
  fun p hp => hb p (h p hp)

theorem Keeps.mono {a b : List Part} {s t : State} (h : Keeps a s t) (hab : ∀ p ∈ a, p ∈ b) : Keeps b s t :=
  ⟨fun p hp => h.only p fun hq => hp (hab p hq), h.mem, h.life, h.free⟩

/-- A fold keeps what its step keeps. -/
theorem Keeps.foldl {α : Type} {ps : List Part} {s0 s : State} {g : State → α → State} {l : List α}
    (hg : ∀ t x, Keeps ps s0 t → Keeps ps s0 (g t x)) (h : Keeps ps s0 s) : Keeps ps s0 (l.foldl g s) := by
  induction l generalizing s with
  | nil => exact h
  | cons x r ih => exact ih (hg s x h)

/-- A fold whose step keeps it for the members of the list. -/
theorem Keeps.foldl_mem {α : Type} {ps : List Part} {s0 s : State} {g : State → α → State} {l : List α}
    (hg : ∀ t x, x ∈ l → Keeps ps s0 t → Keeps ps s0 (g t x)) (h : Keeps ps s0 s) : Keeps ps s0 (l.foldl g s) := by
  induction l generalizing s with
  | nil => exact h
  | cons x r ih => exact ih (fun t y hy => hg t y (List.mem_cons_of_mem x hy)) (hg s x List.mem_cons_self h)

/-- A fold that carries something beside the state. -/
theorem Keeps.foldl_fst {α β : Type} {ps : List Part} {s0 : State} {g : State × β → α → State × β} {l : List α} {z : State × β}
    (hg : ∀ z x, Keeps ps s0 z.1 → Keeps ps s0 (g z x).1) (h : Keeps ps s0 z.1) : Keeps ps s0 (l.foldl g z).1 := by
  induction l generalizing z with
  | nil => exact h
  | cons x r ih => exact ih (hg z x h)

/-- A fold that carries something before the state. -/
theorem Keeps.foldl_snd {α β : Type} {ps : List Part} {s0 : State} {g : β × State → α → β × State} {l : List α} {z : β × State}
    (hg : ∀ z x, Keeps ps s0 z.2 → Keeps ps s0 (g z x).2) (h : Keeps ps s0 z.2) : Keeps ps s0 (l.foldl g z).2 := by
  induction l generalizing z with
  | nil => exact h
  | cons x r ih => exact ih (hg z x h)

/-- The state of a pair. -/
theorem Keeps.fst {α : Type} {ps : List Part} {s0 s : State} {b : α} (h : Keeps ps s0 s) : Keeps ps s0 (s, b).1 := h

theorem Keeps.snd {α : Type} {ps : List Part} {s0 s : State} {b : α} (h : Keeps ps s0 s) : Keeps ps s0 (b, s).2 := h

theorem Keeps.ite {ps : List Part} {s0 s t : State} {c : Prop} [Decidable c] (h : c → Keeps ps s0 s) (k : ¬c → Keeps ps s0 t) :
    Keeps ps s0 (if c then s else t) := by
  split
  · exact h ‹_›
  · exact k ‹_›

theorem Keeps.ite_fst {α : Type} {ps : List Part} {s0 : State} {c : Prop} [Decidable c] {x y : State × α}
    (h : c → Keeps ps s0 x.1) (k : ¬c → Keeps ps s0 y.1) : Keeps ps s0 (if c then x else y).1 := by
  split
  · exact h ‹_›
  · exact k ‹_›

theorem Keeps.ite_snd {α : Type} {ps : List Part} {s0 : State} {c : Prop} [Decidable c] {x y : α × State}
    (h : c → Keeps ps s0 x.2) (k : ¬c → Keeps ps s0 y.2) : Keeps ps s0 (if c then x else y).2 := by
  split
  · exact h ‹_›
  · exact k ‹_›

/-- What is shown from any state with the parts of a list given is shown from the state itself with that list. -/
theorem Keeps.exec {L : List Part} {s : State} {o : Host.Outcome State Fault Refusal}
    (h : ∀ (ps : List Part) (σ : State), (∀ p ∈ L, p ∈ ps) → Keeps ps σ s → ∃ τ, o = .next τ ∧ Keeps ps σ τ) :
    ∃ τ, o = .next τ ∧ Keeps L s τ :=
  h L s (fun _ q => q) (Keeps.refl L s)

/-! ## Updates of one or several fields -/

theorem Keeps.set_out {ps : List Part} {s0 s : State} {v_out : List Out}
    (h_out : Part.out ∈ ps)
    (h : Keeps ps s0 s) : Keeps ps s0 { s with out := v_out } := by
  refine h.trans ⟨fun p hq => ?_, id, le_rfl, le_rfl⟩
  cases p
  all_goals first
    | exact rfl
    | exact ⟨rfl, rfl⟩
    | exact ⟨rfl, rfl, rfl⟩
    | exact fun _ => rfl
    | exact ⟨fun _ _ => ⟨rfl, rfl⟩, fun _ _ => rfl⟩
    | exact absurd h_out hq

theorem Keeps.set_clock {ps : List Part} {s0 s : State} {v_clock : Clock}
    (h_clock : Part.clock ∈ ps)
    (h : Keeps ps s0 s) : Keeps ps s0 { s with clock := v_clock } := by
  refine h.trans ⟨fun p hq => ?_, id, le_rfl, le_rfl⟩
  cases p
  all_goals first
    | exact rfl
    | exact ⟨rfl, rfl⟩
    | exact ⟨rfl, rfl, rfl⟩
    | exact fun _ => rfl
    | exact ⟨fun _ _ => ⟨rfl, rfl⟩, fun _ _ => rfl⟩
    | exact absurd h_clock hq

theorem Keeps.set_stk {ps : List Part} {s0 s : State} {v_stk : Stook}
    (h_stk : Part.stk ∈ ps)
    (h : Keeps ps s0 s) : Keeps ps s0 { s with stk := v_stk } := by
  refine h.trans ⟨fun p hq => ?_, id, le_rfl, le_rfl⟩
  cases p
  all_goals first
    | exact rfl
    | exact ⟨rfl, rfl⟩
    | exact ⟨rfl, rfl, rfl⟩
    | exact fun _ => rfl
    | exact ⟨fun _ _ => ⟨rfl, rfl⟩, fun _ _ => rfl⟩
    | exact absurd h_stk hq

theorem Keeps.set_fw {ps : List Part} {s0 s : State} {v_fw : Firmware}
    (h_fw : Part.fw ∈ ps)
    (h : Keeps ps s0 s) : Keeps ps s0 { s with fw := v_fw } := by
  refine h.trans ⟨fun p hq => ?_, id, le_rfl, le_rfl⟩
  cases p
  all_goals first
    | exact rfl
    | exact ⟨rfl, rfl⟩
    | exact ⟨rfl, rfl, rfl⟩
    | exact fun _ => rfl
    | exact ⟨fun _ _ => ⟨rfl, rfl⟩, fun _ _ => rfl⟩
    | exact absurd h_fw hq

theorem Keeps.set_jobs {ps : List Part} {s0 s : State} {v_jobs : Jobs}
    (h_jobs : Part.jobs ∈ ps)
    (h : Keeps ps s0 s) : Keeps ps s0 { s with jobs := v_jobs } := by
  refine h.trans ⟨fun p hq => ?_, id, le_rfl, le_rfl⟩
  cases p
  all_goals first
    | exact rfl
    | exact ⟨rfl, rfl⟩
    | exact ⟨rfl, rfl, rfl⟩
    | exact fun _ => rfl
    | exact ⟨fun _ _ => ⟨rfl, rfl⟩, fun _ _ => rfl⟩
    | exact absurd h_jobs hq

theorem Keeps.set_thr {ps : List Part} {s0 s : State} {v_thr : Thresher}
    (h_thr : Part.thr ∈ ps)
    (h : Keeps ps s0 s) : Keeps ps s0 { s with thr := v_thr } := by
  refine h.trans ⟨fun p hq => ?_, id, le_rfl, le_rfl⟩
  cases p
  all_goals first
    | exact rfl
    | exact ⟨rfl, rfl⟩
    | exact ⟨rfl, rfl, rfl⟩
    | exact fun _ => rfl
    | exact ⟨fun _ _ => ⟨rfl, rfl⟩, fun _ _ => rfl⟩
    | exact absurd h_thr hq

theorem Keeps.set_mil {ps : List Part} {s0 s : State} {v_mil : Mill}
    (h_mil : Part.mil ∈ ps)
    (h : Keeps ps s0 s) : Keeps ps s0 { s with mil := v_mil } := by
  refine h.trans ⟨fun p hq => ?_, id, le_rfl, le_rfl⟩
  cases p
  all_goals first
    | exact rfl
    | exact ⟨rfl, rfl⟩
    | exact ⟨rfl, rfl, rfl⟩
    | exact fun _ => rfl
    | exact ⟨fun _ _ => ⟨rfl, rfl⟩, fun _ _ => rfl⟩
    | exact absurd h_mil hq

theorem Keeps.set_glz {ps : List Part} {s0 s : State} {v_glz : Glaze}
    (h_glz : Part.glz ∈ ps)
    (h : Keeps ps s0 s) : Keeps ps s0 { s with glz := v_glz } := by
  refine h.trans ⟨fun p hq => ?_, id, le_rfl, le_rfl⟩
  cases p
  all_goals first
    | exact rfl
    | exact ⟨rfl, rfl⟩
    | exact ⟨rfl, rfl, rfl⟩
    | exact fun _ => rfl
    | exact ⟨fun _ _ => ⟨rfl, rfl⟩, fun _ _ => rfl⟩
    | exact absurd h_glz hq

theorem Keeps.set_kln {ps : List Part} {s0 s : State} {v_kln : Kiln}
    (h_kln : Part.kln ∈ ps)
    (h : Keeps ps s0 s) : Keeps ps s0 { s with kln := v_kln } := by
  refine h.trans ⟨fun p hq => ?_, id, le_rfl, le_rfl⟩
  cases p
  all_goals first
    | exact rfl
    | exact ⟨rfl, rfl⟩
    | exact ⟨rfl, rfl, rfl⟩
    | exact fun _ => rfl
    | exact ⟨fun _ _ => ⟨rfl, rfl⟩, fun _ _ => rfl⟩
    | exact absurd h_kln hq

theorem Keeps.set_ports {ps : List Part} {s0 s : State} {v_ports : Tab Port}
    (h_ports : Part.ports ∈ ps)
    (h : Keeps ps s0 s) : Keeps ps s0 { s with ports := v_ports } := by
  refine h.trans ⟨fun p hq => ?_, id, le_rfl, le_rfl⟩
  cases p
  all_goals first
    | exact rfl
    | exact ⟨rfl, rfl⟩
    | exact ⟨rfl, rfl, rfl⟩
    | exact fun _ => rfl
    | exact ⟨fun _ _ => ⟨rfl, rfl⟩, fun _ _ => rfl⟩
    | exact absurd h_ports hq

theorem Keeps.set_pif {ps : List Part} {s0 s : State} {v_pif : Tab PifCh}
    (h_pif : Part.pif ∈ ps)
    (h : Keeps ps s0 s) : Keeps ps s0 { s with pif := v_pif } := by
  refine h.trans ⟨fun p hq => ?_, id, le_rfl, le_rfl⟩
  cases p
  all_goals first
    | exact rfl
    | exact ⟨rfl, rfl⟩
    | exact ⟨rfl, rfl, rfl⟩
    | exact fun _ => rfl
    | exact ⟨fun _ _ => ⟨rfl, rfl⟩, fun _ _ => rfl⟩
    | exact absurd h_pif hq

theorem Keeps.set_mot {ps : List Part} {s0 s : State} {v_mot : Motion}
    (h_mot : Part.mot ∈ ps)
    (h : Keeps ps s0 s) : Keeps ps s0 { s with mot := v_mot } := by
  refine h.trans ⟨fun p hq => ?_, id, le_rfl, le_rfl⟩
  cases p
  all_goals first
    | exact rfl
    | exact ⟨rfl, rfl⟩
    | exact ⟨rfl, rfl, rfl⟩
    | exact fun _ => rfl
    | exact ⟨fun _ _ => ⟨rfl, rfl⟩, fun _ _ => rfl⟩
    | exact absurd h_mot hq

theorem Keeps.set_pwr {ps : List Part} {s0 s : State} {v_pwr : Power}
    (h_pwr : Part.pwr ∈ ps)
    (h : Keeps ps s0 s) : Keeps ps s0 { s with pwr := v_pwr } := by
  refine h.trans ⟨fun p hq => ?_, id, le_rfl, le_rfl⟩
  cases p
  all_goals first
    | exact rfl
    | exact ⟨rfl, rfl⟩
    | exact ⟨rfl, rfl, rfl⟩
    | exact fun _ => rfl
    | exact ⟨fun _ _ => ⟨rfl, rfl⟩, fun _ _ => rfl⟩
    | exact absurd h_pwr hq

theorem Keeps.set_crk {ps : List Part} {s0 s : State} {v_crk : Crock}
    (h_crk : Part.crk ∈ ps)
    (h : Keeps ps s0 s) : Keeps ps s0 { s with crk := v_crk } := by
  refine h.trans ⟨fun p hq => ?_, id, le_rfl, le_rfl⟩
  cases p
  all_goals first
    | exact rfl
    | exact ⟨rfl, rfl⟩
    | exact ⟨rfl, rfl, rfl⟩
    | exact fun _ => rfl
    | exact ⟨fun _ _ => ⟨rfl, rfl⟩, fun _ _ => rfl⟩
    | exact absurd h_crk hq

theorem Keeps.set_tly {ps : List Part} {s0 s : State} {v_tly : Tally}
    (h_tly : Part.tly ∈ ps)
    (h : Keeps ps s0 s) : Keeps ps s0 { s with tly := v_tly } := by
  refine h.trans ⟨fun p hq => ?_, id, le_rfl, le_rfl⟩
  cases p
  all_goals first
    | exact rfl
    | exact ⟨rfl, rfl⟩
    | exact ⟨rfl, rfl, rfl⟩
    | exact fun _ => rfl
    | exact ⟨fun _ _ => ⟨rfl, rfl⟩, fun _ _ => rfl⟩
    | exact absurd h_tly hq

theorem Keeps.set_trm {ps : List Part} {s0 s : State} {v_trm : Trm}
    (h_trm : Part.trm ∈ ps)
    (h : Keeps ps s0 s) : Keeps ps s0 { s with trm := v_trm } := by
  refine h.trans ⟨fun p hq => ?_, id, le_rfl, le_rfl⟩
  cases p
  all_goals first
    | exact rfl
    | exact ⟨rfl, rfl⟩
    | exact ⟨rfl, rfl, rfl⟩
    | exact fun _ => rfl
    | exact ⟨fun _ _ => ⟨rfl, rfl⟩, fun _ _ => rfl⟩
    | exact absurd h_trm hq

theorem Keeps.set_clk {ps : List Part} {s0 s : State} {v_clk : Clk}
    (h_clk : Part.clk ∈ ps)
    (h : Keeps ps s0 s) : Keeps ps s0 { s with clk := v_clk } := by
  refine h.trans ⟨fun p hq => ?_, id, le_rfl, le_rfl⟩
  cases p
  all_goals first
    | exact rfl
    | exact ⟨rfl, rfl⟩
    | exact ⟨rfl, rfl, rfl⟩
    | exact fun _ => rfl
    | exact ⟨fun _ _ => ⟨rfl, rfl⟩, fun _ _ => rfl⟩
    | exact absurd h_clk hq

theorem Keeps.set_thm {ps : List Part} {s0 s : State} {v_thm : Thm}
    (h_thm : Part.thm ∈ ps)
    (h : Keeps ps s0 s) : Keeps ps s0 { s with thm := v_thm } := by
  refine h.trans ⟨fun p hq => ?_, id, le_rfl, le_rfl⟩
  cases p
  all_goals first
    | exact rfl
    | exact ⟨rfl, rfl⟩
    | exact ⟨rfl, rfl, rfl⟩
    | exact fun _ => rfl
    | exact ⟨fun _ _ => ⟨rfl, rfl⟩, fun _ _ => rfl⟩
    | exact absurd h_thm hq

theorem Keeps.set_fans {ps : List Part} {s0 s : State} {v_fans : Tab Fan}
    (h_fans : Part.fans ∈ ps)
    (h : Keeps ps s0 s) : Keeps ps s0 { s with fans := v_fans } := by
  refine h.trans ⟨fun p hq => ?_, id, le_rfl, le_rfl⟩
  cases p
  all_goals first
    | exact rfl
    | exact ⟨rfl, rfl⟩
    | exact ⟨rfl, rfl, rfl⟩
    | exact fun _ => rfl
    | exact ⟨fun _ _ => ⟨rfl, rfl⟩, fun _ _ => rfl⟩
    | exact absurd h_fans hq

theorem Keeps.set_ipl {ps : List Part} {s0 s : State} {v_ipl : Ipl}
    (h_ipl : Part.ipl ∈ ps)
    (h : Keeps ps s0 s) : Keeps ps s0 { s with ipl := v_ipl } := by
  refine h.trans ⟨fun p hq => ?_, id, le_rfl, le_rfl⟩
  cases p
  all_goals first
    | exact rfl
    | exact ⟨rfl, rfl⟩
    | exact ⟨rfl, rfl, rfl⟩
    | exact fun _ => rfl
    | exact ⟨fun _ _ => ⟨rfl, rfl⟩, fun _ _ => rfl⟩
    | exact absurd h_ipl hq

theorem Keeps.set_win {ps : List Part} {s0 s : State} {v_win : Winnow}
    (h_win : Part.win ∈ ps)
    (h : Keeps ps s0 s) : Keeps ps s0 { s with win := v_win } := by
  refine h.trans ⟨fun p hq => ?_, id, le_rfl, le_rfl⟩
  cases p
  all_goals first
    | exact rfl
    | exact ⟨rfl, rfl⟩
    | exact ⟨rfl, rfl, rfl⟩
    | exact fun _ => rfl
    | exact ⟨fun _ _ => ⟨rfl, rfl⟩, fun _ _ => rfl⟩
    | exact absurd h_win hq

theorem Keeps.set_gln {ps : List Part} {s0 s : State} {v_gln : Gleaner}
    (h_gln : Part.gln ∈ ps)
    (h : Keeps ps s0 s) : Keeps ps s0 { s with gln := v_gln } := by
  refine h.trans ⟨fun p hq => ?_, id, le_rfl, le_rfl⟩
  cases p
  all_goals first
    | exact rfl
    | exact ⟨rfl, rfl⟩
    | exact ⟨rfl, rfl, rfl⟩
    | exact fun _ => rfl
    | exact ⟨fun _ _ => ⟨rfl, rfl⟩, fun _ _ => rfl⟩
    | exact absurd h_gln hq

theorem Keeps.set_cal {ps : List Part} {s0 s : State} {v_cal : Cal}
    (h_cal : Part.cal ∈ ps)
    (h : Keeps ps s0 s) : Keeps ps s0 { s with cal := v_cal } := by
  refine h.trans ⟨fun p hq => ?_, id, le_rfl, le_rfl⟩
  cases p
  all_goals first
    | exact rfl
    | exact ⟨rfl, rfl⟩
    | exact ⟨rfl, rfl, rfl⟩
    | exact fun _ => rfl
    | exact ⟨fun _ _ => ⟨rfl, rfl⟩, fun _ _ => rfl⟩
    | exact absurd h_cal hq

theorem Keeps.set_hif {ps : List Part} {s0 s : State} {v_hif : Hif}
    (hr : Part.rings ∈ ps ∨ v_hif.rings = s.hif.rings)
    (hm : Part.msix ∈ ps ∨ v_hif.msixPend = s.hif.msixPend)
    (hh : Part.hif ∈ ps ∨ { v_hif with rings := [], msixPend := [] } = { s.hif with rings := [], msixPend := [] })
    (h : Keeps ps s0 s) : Keeps ps s0 { s with hif := v_hif } := by
  refine h.trans ⟨fun p hq => ?_, id, le_rfl, le_rfl⟩
  cases p
  all_goals first
    | exact rfl
    | exact ⟨rfl, rfl⟩
    | exact ⟨rfl, rfl, rfl⟩
    | exact fun _ => rfl
    | exact ⟨fun _ _ => ⟨rfl, rfl⟩, fun _ _ => rfl⟩
    | exact hr.resolve_left hq
    | exact hm.resolve_left hq
    | exact hh.resolve_left hq

theorem Keeps.set_til {ps : List Part} {s0 s : State} {v_til : Tiller}
    (ha : v_til.arrays = s.til.arrays)
    (he : Part.entries ∈ ps ∨ v_til.entries = s.til.entries ∧ v_til.lastOf = s.til.lastOf)
    (ht : Part.til ∈ ps ∨ { v_til with arrays := [], entries := [], lastOf := [] } =
      { s.til with arrays := [], entries := [], lastOf := [] })
    (h : Keeps ps s0 s) : Keeps ps s0 { s with til := v_til } := by
  refine h.trans ⟨fun p hq => ?_, fun hw => by simpa [ha] using hw, le_rfl, le_rfl⟩
  cases p
  all_goals first
    | exact rfl
    | exact ⟨rfl, rfl⟩
    | exact ⟨rfl, rfl, rfl⟩
    | exact fun _ => rfl
    | exact ⟨fun _ _ => ⟨rfl, rfl⟩, fun _ _ => rfl⟩
    | exact fun a => congrArg (memRead · a) ha
    | exact he.resolve_left hq
    | exact ht.resolve_left hq

theorem Keeps.set_sag {ps : List Part} {s0 s : State} {v_sag : Sagger}
    (hf : v_sag.fuses = s.sag.fuses)
    (hsag : Part.sag ∈ ps)
    (h : Keeps ps s0 s) : Keeps ps s0 { s with sag := v_sag } := by
  refine h.trans ⟨fun p hq => ?_, id, le_of_eq (by simp [lifecycle, hf]), le_rfl⟩
  cases p
  all_goals first
    | exact rfl
    | exact ⟨rfl, rfl⟩
    | exact ⟨rfl, rfl, rfl⟩
    | exact fun _ => rfl
    | exact ⟨fun _ _ => ⟨rfl, rfl⟩, fun _ _ => rfl⟩
    | exact hf
    | exact absurd hsag hq

theorem Keeps.set_jobs_thr {ps : List Part} {s0 s : State} {v_jobs : Jobs} {v_thr : Thresher}
    (h_jobs : Part.jobs ∈ ps)
    (h_thr : Part.thr ∈ ps)
    (h : Keeps ps s0 s) : Keeps ps s0 { s with jobs := v_jobs, thr := v_thr } := by
  refine h.trans ⟨fun p hq => ?_, id, le_rfl, le_rfl⟩
  cases p
  all_goals first
    | exact rfl
    | exact ⟨rfl, rfl⟩
    | exact ⟨rfl, rfl, rfl⟩
    | exact fun _ => rfl
    | exact ⟨fun _ _ => ⟨rfl, rfl⟩, fun _ _ => rfl⟩
    | exact absurd h_jobs hq
    | exact absurd h_thr hq

theorem Keeps.set_jobs_sag {ps : List Part} {s0 s : State} {v_jobs : Jobs} {v_sag : Sagger}
    (h_jobs : Part.jobs ∈ ps)
    (hf : v_sag.fuses = s.sag.fuses)
    (hsag : Part.sag ∈ ps)
    (h : Keeps ps s0 s) : Keeps ps s0 { s with jobs := v_jobs, sag := v_sag } := by
  refine h.trans ⟨fun p hq => ?_, id, le_of_eq (by simp [lifecycle, hf]), le_rfl⟩
  cases p
  all_goals first
    | exact rfl
    | exact ⟨rfl, rfl⟩
    | exact ⟨rfl, rfl, rfl⟩
    | exact fun _ => rfl
    | exact ⟨fun _ _ => ⟨rfl, rfl⟩, fun _ _ => rfl⟩
    | exact absurd h_jobs hq
    | exact hf
    | exact absurd hsag hq

theorem Keeps.set_til_crk {ps : List Part} {s0 s : State} {v_til : Tiller} {v_crk : Crock}
    (ha : v_til.arrays = s.til.arrays)
    (he : Part.entries ∈ ps ∨ v_til.entries = s.til.entries ∧ v_til.lastOf = s.til.lastOf)
    (ht : Part.til ∈ ps ∨ { v_til with arrays := [], entries := [], lastOf := [] } =
      { s.til with arrays := [], entries := [], lastOf := [] })
    (h_crk : Part.crk ∈ ps)
    (h : Keeps ps s0 s) : Keeps ps s0 { s with til := v_til, crk := v_crk } := by
  refine h.trans ⟨fun p hq => ?_, fun hw => by simpa [ha] using hw, le_rfl, le_rfl⟩
  cases p
  all_goals first
    | exact rfl
    | exact ⟨rfl, rfl⟩
    | exact ⟨rfl, rfl, rfl⟩
    | exact fun _ => rfl
    | exact ⟨fun _ _ => ⟨rfl, rfl⟩, fun _ _ => rfl⟩
    | exact fun a => congrArg (memRead · a) ha
    | exact he.resolve_left hq
    | exact ht.resolve_left hq
    | exact absurd h_crk hq

theorem Keeps.set_thr_glz {ps : List Part} {s0 s : State} {v_thr : Thresher} {v_glz : Glaze}
    (h_thr : Part.thr ∈ ps)
    (h_glz : Part.glz ∈ ps)
    (h : Keeps ps s0 s) : Keeps ps s0 { s with thr := v_thr, glz := v_glz } := by
  refine h.trans ⟨fun p hq => ?_, id, le_rfl, le_rfl⟩
  cases p
  all_goals first
    | exact rfl
    | exact ⟨rfl, rfl⟩
    | exact ⟨rfl, rfl, rfl⟩
    | exact fun _ => rfl
    | exact ⟨fun _ _ => ⟨rfl, rfl⟩, fun _ _ => rfl⟩
    | exact absurd h_thr hq
    | exact absurd h_glz hq

theorem Keeps.set_stk_fw_pwr_sag {ps : List Part} {s0 s : State} {v_stk : Stook} {v_fw : Firmware} {v_pwr : Power} {v_sag : Sagger}
    (h_stk : Part.stk ∈ ps)
    (h_fw : Part.fw ∈ ps)
    (h_pwr : Part.pwr ∈ ps)
    (hf : v_sag.fuses = s.sag.fuses)
    (hsag : Part.sag ∈ ps)
    (h : Keeps ps s0 s) : Keeps ps s0 { s with stk := v_stk, fw := v_fw, pwr := v_pwr, sag := v_sag } := by
  refine h.trans ⟨fun p hq => ?_, id, le_of_eq (by simp [lifecycle, hf]), le_rfl⟩
  cases p
  all_goals first
    | exact rfl
    | exact ⟨rfl, rfl⟩
    | exact ⟨rfl, rfl, rfl⟩
    | exact fun _ => rfl
    | exact ⟨fun _ _ => ⟨rfl, rfl⟩, fun _ _ => rfl⟩
    | exact absurd h_stk hq
    | exact absurd h_fw hq
    | exact absurd h_pwr hq
    | exact hf
    | exact absurd hsag hq

theorem Keeps.set_mil_ipl {ps : List Part} {s0 s : State} {v_mil : Mill} {v_ipl : Ipl}
    (h_mil : Part.mil ∈ ps)
    (h_ipl : Part.ipl ∈ ps)
    (h : Keeps ps s0 s) : Keeps ps s0 { s with mil := v_mil, ipl := v_ipl } := by
  refine h.trans ⟨fun p hq => ?_, id, le_rfl, le_rfl⟩
  cases p
  all_goals first
    | exact rfl
    | exact ⟨rfl, rfl⟩
    | exact ⟨rfl, rfl, rfl⟩
    | exact fun _ => rfl
    | exact ⟨fun _ _ => ⟨rfl, rfl⟩, fun _ _ => rfl⟩
    | exact absurd h_mil hq
    | exact absurd h_ipl hq

theorem Keeps.set_jobs_glz {ps : List Part} {s0 s : State} {v_jobs : Jobs} {v_glz : Glaze}
    (h_jobs : Part.jobs ∈ ps)
    (h_glz : Part.glz ∈ ps)
    (h : Keeps ps s0 s) : Keeps ps s0 { s with jobs := v_jobs, glz := v_glz } := by
  refine h.trans ⟨fun p hq => ?_, id, le_rfl, le_rfl⟩
  cases p
  all_goals first
    | exact rfl
    | exact ⟨rfl, rfl⟩
    | exact ⟨rfl, rfl, rfl⟩
    | exact fun _ => rfl
    | exact ⟨fun _ _ => ⟨rfl, rfl⟩, fun _ _ => rfl⟩
    | exact absurd h_jobs hq
    | exact absurd h_glz hq

theorem Keeps.set_hif_jobs_glz_til_sag_tly_clk {ps : List Part} {s0 s : State} {v_hif : Hif} {v_jobs : Jobs} {v_glz : Glaze} {v_til : Tiller} {v_sag : Sagger} {v_tly : Tally} {v_clk : Clk}
    (hr : Part.rings ∈ ps ∨ v_hif.rings = s.hif.rings)
    (hm : Part.msix ∈ ps ∨ v_hif.msixPend = s.hif.msixPend)
    (hh : Part.hif ∈ ps ∨ { v_hif with rings := [], msixPend := [] } = { s.hif with rings := [], msixPend := [] })
    (h_jobs : Part.jobs ∈ ps)
    (h_glz : Part.glz ∈ ps)
    (ha : v_til.arrays = s.til.arrays)
    (he : Part.entries ∈ ps ∨ v_til.entries = s.til.entries ∧ v_til.lastOf = s.til.lastOf)
    (ht : Part.til ∈ ps ∨ { v_til with arrays := [], entries := [], lastOf := [] } =
      { s.til with arrays := [], entries := [], lastOf := [] })
    (hf : v_sag.fuses = s.sag.fuses)
    (hsag : Part.sag ∈ ps)
    (h_tly : Part.tly ∈ ps)
    (h_clk : Part.clk ∈ ps)
    (h : Keeps ps s0 s) : Keeps ps s0 { s with hif := v_hif, jobs := v_jobs, glz := v_glz, til := v_til, sag := v_sag, tly := v_tly, clk := v_clk } := by
  refine h.trans ⟨fun p hq => ?_, fun hw => by simpa [ha] using hw, le_of_eq (by simp [lifecycle, hf]), le_rfl⟩
  cases p
  all_goals first
    | exact rfl
    | exact ⟨rfl, rfl⟩
    | exact ⟨rfl, rfl, rfl⟩
    | exact fun _ => rfl
    | exact ⟨fun _ _ => ⟨rfl, rfl⟩, fun _ _ => rfl⟩
    | exact hr.resolve_left hq
    | exact hm.resolve_left hq
    | exact hh.resolve_left hq
    | exact absurd h_jobs hq
    | exact absurd h_glz hq
    | exact fun a => congrArg (memRead · a) ha
    | exact he.resolve_left hq
    | exact ht.resolve_left hq
    | exact hf
    | exact absurd hsag hq
    | exact absurd h_tly hq
    | exact absurd h_clk hq

theorem Keeps.set_fw_pwr_sag {ps : List Part} {s0 s : State} {v_fw : Firmware} {v_pwr : Power} {v_sag : Sagger}
    (h_fw : Part.fw ∈ ps)
    (h_pwr : Part.pwr ∈ ps)
    (hf : v_sag.fuses = s.sag.fuses)
    (hsag : Part.sag ∈ ps)
    (h : Keeps ps s0 s) : Keeps ps s0 { s with fw := v_fw, pwr := v_pwr, sag := v_sag } := by
  refine h.trans ⟨fun p hq => ?_, id, le_of_eq (by simp [lifecycle, hf]), le_rfl⟩
  cases p
  all_goals first
    | exact rfl
    | exact ⟨rfl, rfl⟩
    | exact ⟨rfl, rfl, rfl⟩
    | exact fun _ => rfl
    | exact ⟨fun _ _ => ⟨rfl, rfl⟩, fun _ _ => rfl⟩
    | exact absurd h_fw hq
    | exact absurd h_pwr hq
    | exact hf
    | exact absurd hsag hq

theorem Keeps.set_crk_sag_tly {ps : List Part} {s0 s : State} {v_crk : Crock} {v_sag : Sagger} {v_tly : Tally}
    (h_crk : Part.crk ∈ ps)
    (hf : v_sag.fuses = s.sag.fuses)
    (hsag : Part.sag ∈ ps)
    (h_tly : Part.tly ∈ ps)
    (h : Keeps ps s0 s) : Keeps ps s0 { s with crk := v_crk, sag := v_sag, tly := v_tly } := by
  refine h.trans ⟨fun p hq => ?_, id, le_of_eq (by simp [lifecycle, hf]), le_rfl⟩
  cases p
  all_goals first
    | exact rfl
    | exact ⟨rfl, rfl⟩
    | exact ⟨rfl, rfl, rfl⟩
    | exact fun _ => rfl
    | exact ⟨fun _ _ => ⟨rfl, rfl⟩, fun _ _ => rfl⟩
    | exact absurd h_crk hq
    | exact hf
    | exact absurd hsag hq
    | exact absurd h_tly hq

theorem Keeps.set_sag_thm {ps : List Part} {s0 s : State} {v_sag : Sagger} {v_thm : Thm}
    (hf : v_sag.fuses = s.sag.fuses)
    (hsag : Part.sag ∈ ps)
    (h_thm : Part.thm ∈ ps)
    (h : Keeps ps s0 s) : Keeps ps s0 { s with sag := v_sag, thm := v_thm } := by
  refine h.trans ⟨fun p hq => ?_, id, le_of_eq (by simp [lifecycle, hf]), le_rfl⟩
  cases p
  all_goals first
    | exact rfl
    | exact ⟨rfl, rfl⟩
    | exact ⟨rfl, rfl, rfl⟩
    | exact fun _ => rfl
    | exact ⟨fun _ _ => ⟨rfl, rfl⟩, fun _ _ => rfl⟩
    | exact hf
    | exact absurd hsag hq
    | exact absurd h_thm hq

theorem Keeps.set_fw_crk {ps : List Part} {s0 s : State} {v_fw : Firmware} {v_crk : Crock}
    (h_fw : Part.fw ∈ ps)
    (h_crk : Part.crk ∈ ps)
    (h : Keeps ps s0 s) : Keeps ps s0 { s with fw := v_fw, crk := v_crk } := by
  refine h.trans ⟨fun p hq => ?_, id, le_rfl, le_rfl⟩
  cases p
  all_goals first
    | exact rfl
    | exact ⟨rfl, rfl⟩
    | exact ⟨rfl, rfl, rfl⟩
    | exact fun _ => rfl
    | exact ⟨fun _ _ => ⟨rfl, rfl⟩, fun _ _ => rfl⟩
    | exact absurd h_fw hq
    | exact absurd h_crk hq

theorem Keeps.set_jobs_thr_glz {ps : List Part} {s0 s : State} {v_jobs : Jobs} {v_thr : Thresher} {v_glz : Glaze}
    (h_jobs : Part.jobs ∈ ps)
    (h_thr : Part.thr ∈ ps)
    (h_glz : Part.glz ∈ ps)
    (h : Keeps ps s0 s) : Keeps ps s0 { s with jobs := v_jobs, thr := v_thr, glz := v_glz } := by
  refine h.trans ⟨fun p hq => ?_, id, le_rfl, le_rfl⟩
  cases p
  all_goals first
    | exact rfl
    | exact ⟨rfl, rfl⟩
    | exact ⟨rfl, rfl, rfl⟩
    | exact fun _ => rfl
    | exact ⟨fun _ _ => ⟨rfl, rfl⟩, fun _ _ => rfl⟩
    | exact absurd h_jobs hq
    | exact absurd h_thr hq
    | exact absurd h_glz hq

/-! ## The register file and the page headers -/

theorem rd_wr_self (k : Nat) (v : Word) (s : State) : rd (wr k v s) k = v := by simp [rd, wr]

theorem rd_wr_ne {j k : Nat} (v : Word) (s : State) (h : j ≠ k) : rd (wr k v s) j = rd s j := by
  simp [rd, wr, tfind_tput_ne _ _ h]

theorem rdShadow_wr_ne {j k : Nat} (v : Word) (s : State) (h : j ≠ k) : rdShadow (wr k v s) j = rdShadow s j := by
  simp only [rdShadow, rd_wr_ne v s h]
  rfl

theorem getPage_putPage_self (n : Nat) (p : Page) (s : State) : getPage (putPage n p s) n = p := by
  simp [getPage, putPage]

theorem getPage_putPage_ne {m n : Nat} (p : Page) (s : State) (h : m ≠ n) : getPage (putPage n p s) m = getPage s m := by
  simp [getPage, putPage, tget_tput_ne _ _ _ h]

/-- A part that a change of one kind of page does not concern. -/
theorem Keeps.regs {ps : List Part} {s0 s t : State} {K : PageKind} (hp : Part.reg K ∈ ps) (h : Keeps ps s0 s)
    (he : { t with regs := s.regs, pages := s.pages } = s)
    (hr : t.regs.hold = s.regs.hold ∧ t.regs.snap = s.regs.snap ∧ t.regs.rdata = s.regs.rdata)
    (hk : ∀ a, keyKind a ≠ K → rd t a = rd s a ∧ rdShadow t a = rdShadow s a)
    (hg : ∀ n, pageKind n ≠ K → getPage t n = getPage s n) : Keeps ps s0 t := by
  obtain ⟨_, _, _, tr, tp, _⟩ := t
  obtain ⟨_, _, _, sr, sp, _⟩ := s
  simp only [State.mk.injEq] at he
  obtain ⟨rfl, rfl, rfl, -, -, rfl, rfl, rfl, rfl, rfl, rfl, rfl, rfl, rfl, rfl, rfl, rfl, rfl, rfl, rfl, rfl, rfl, rfl,
    rfl, rfl, rfl, rfl, rfl, rfl, rfl, rfl⟩ := he
  refine h.trans ⟨fun p hq => ?_, id, le_rfl, le_rfl⟩
  cases p with
  | reg J =>
    have hJ : J ≠ K := fun e => hq (e ▸ hp)
    exact ⟨fun a ha => hk a (by rw [ha]; exact hJ), fun n hn => hg n (by rw [hn]; exact hJ)⟩
  | reads => exact hr
  | memory => exact fun _ => rfl
  | entries => exact ⟨rfl, rfl⟩
  | _ => exact rfl

theorem wr_keeps {ps : List Part} {s0 : State} (k : Nat) (v : Word) (s : State)
    (hp : ∀ p ∈ [Part.reg (keyKind k)], p ∈ ps) (h : Keeps ps s0 s) : Keeps ps s0 (wr k v s) :=
  h.regs (K := keyKind k) (hp _ (by simp)) rfl ⟨rfl, rfl, rfl⟩
    (fun a ha => have hne : a ≠ k := fun e => ha (by rw [e])
      ⟨rd_wr_ne v s hne, rdShadow_wr_ne v s hne⟩) fun _ _ => rfl

theorem wrShadow_keeps {ps : List Part} {s0 : State} (k : Nat) (v : Word) (s : State)
    (hp : ∀ p ∈ [Part.reg (keyKind k)], p ∈ ps) (h : Keeps ps s0 s) : Keeps ps s0 (wrShadow k v s) :=
  h.regs (K := keyKind k) (hp _ (by simp)) rfl ⟨rfl, rfl, rfl⟩
    (fun a ha => have hne : a ≠ k := fun e => ha (by rw [e])
      ⟨rfl, by simp only [rdShadow, wrShadow, tfind_tput_ne _ _ hne]; rfl⟩) fun _ _ => rfl

theorem putPage_keeps {ps : List Part} {s0 : State} (n : Nat) (p : Page) (s : State)
    (hp : ∀ q ∈ [Part.reg (pageKind n)], q ∈ ps) (h : Keeps ps s0 s) : Keeps ps s0 (putPage n p s) :=
  h.regs (K := pageKind n) (hp _ (by simp)) rfl ⟨rfl, rfl, rfl⟩ (fun _ _ => ⟨rfl, rfl⟩)
    fun m hm => getPage_putPage_ne p s fun e => hm (by rw [e])

theorem returns_keeps {ps : List Part} {s0 : State} (ini : Initiator) (v : Word) (s : State)
    (hp : ∀ p ∈ [Part.reads], p ∈ ps) (h : Keeps ps s0 s) : Keeps ps s0 (returns ini v s) := by
  refine h.trans ⟨fun p hq => ?_, id, le_rfl, le_rfl⟩
  cases p with
  | reads => exact absurd (hp _ (by simp)) hq
  | reg K => exact ⟨fun _ _ => ⟨rfl, rfl⟩, fun _ _ => rfl⟩
  | memory => exact fun _ => rfl
  | entries => exact ⟨rfl, rfl⟩
  | _ => exact rfl

/-- A change of what reads have captured or held. -/
theorem Keeps.set_reads {ps : List Part} {s0 s : State} {hold snap : Tab Word} {rdata : Tab (List Word)} (hp : Part.reads ∈ ps)
    (h : Keeps ps s0 s) : Keeps ps s0 { s with regs := { s.regs with hold := hold, snap := snap, rdata := rdata } } := by
  refine h.trans ⟨fun p hq => ?_, id, le_rfl, le_rfl⟩
  cases p with
  | reads => exact absurd hp hq
  | reg K => exact ⟨fun _ _ => ⟨rfl, rfl⟩, fun _ _ => rfl⟩
  | memory => exact fun _ => rfl
  | entries => exact ⟨rfl, rfl⟩
  | _ => exact rfl

theorem draw_keeps {ps : List Part} {s0 : State} (w : Nat) (s : State) (hp : ∀ p ∈ [Part.free], p ∈ ps)
    (h : Keeps ps s0 s) : Keeps ps s0 (draw w s).2 := by
  refine h.trans ⟨fun p hq => ?_, id, le_rfl, Nat.le_succ _⟩
  cases p with
  | free => exact absurd (hp _ (by simp)) hq
  | reg K => exact ⟨fun _ _ => ⟨rfl, rfl⟩, fun _ _ => rfl⟩
  | memory => exact fun _ => rfl
  | entries => exact ⟨rfl, rfl⟩
  | reads => exact ⟨rfl, rfl, rfl⟩
  | _ => exact rfl

/-! ## The life-cycle fuses -/

/-- Blown bits stay blown: then the life-cycle does not go back (R455). -/
theorem lifecycle_mono {s t : State} (h : ∀ i, 2 ≤ s.sag.fuses.getD i 0 → 2 ≤ t.sag.fuses.getD i 0) :
    lifecycle s ≤ lifecycle t := by
  have h0 := h 0
  have h1 := h 1
  have h2 := h 2
  have h3 := h 3
  have h4 := h 4
  simp only [lifecycle, List.range, List.range.loop, List.foldl_cons, List.foldl_nil]
  repeat' split
  all_goals omega

theorem Keeps.set_fuses {ps : List Part} {s0 s : State} {v : Sagger} (hf : Part.fuses ∈ ps) (hs : Part.sag ∈ ps)
    (hm : ∀ i, 2 ≤ s.sag.fuses.getD i 0 → 2 ≤ v.fuses.getD i 0) (h : Keeps ps s0 s) : Keeps ps s0 { s with sag := v } := by
  refine h.trans ⟨fun p hq => ?_, id, lifecycle_mono hm, le_rfl⟩
  cases p with
  | fuses => exact absurd hf hq
  | sag => exact absurd hs hq
  | reg K => exact ⟨fun _ _ => ⟨rfl, rfl⟩, fun _ _ => rfl⟩
  | memory => exact fun _ => rfl
  | entries => exact ⟨rfl, rfl⟩
  | reads => exact ⟨rfl, rfl, rfl⟩
  | _ => exact rfl

theorem mem_allRegs (K : PageKind) : Part.reg K ∈ allRegs := by cases K <;> decide

/-- What a reset of every unit may change. -/
def wideParts : List Part := allRegs ++ [.reads, .clock, .rings, .msix, .hif, .stk, .fw, .jobs, .thr, .mil, .glz, .memory, .entries, .til, .kln, .ports, .pif, .mot,
  .pwr, .sag, .tly, .trm, .clk, .thm, .fans, .ipl, .win, .gln, .cal]

/-- Every part but the queue of commands. -/
def boardParts : List Part := allRegs ++ [.free, .out, .reads, .clock, .rings, .msix, .hif, .stk, .fw, .jobs, .thr, .mil, .glz, .memory, .entries,
  .til, .kln, .ports, .pif, .mot, .pwr, .crk, .fuses, .sag, .tly, .trm, .clk, .thm, .fans, .ipl, .win, .gln, .cal]

theorem Keeps.board {L ps : List Part} (hp : ∀ p ∈ boardParts, p ∈ ps) (hL : Part.queue ∉ L) : ∀ p ∈ L, p ∈ ps := by
  intro p hm
  refine hp p ?_
  cases p with
  | queue => exact absurd hm hL
  | reg K => exact List.mem_append_left _ (mem_allRegs K)
  | _ => decide

theorem Keeps.wide {ps : List Part} {s0 s t : State} (hp : ∀ p ∈ wideParts, p ∈ ps) (hq : t.pending = s.pending)
    (hf : t.free = s.free) (ho : t.out = s.out) (hc : t.crk = s.crk) (hz : t.sag.fuses = s.sag.fuses)
    (ha : t.til.arrays = s.til.arrays ∨ t.til.arrays = []) (h : Keeps ps s0 s) : Keeps ps s0 t := by
  refine h.trans ⟨fun p hn => ?_, fun hw => ?_, lifecycle_mono fun i hi => by rw [hz]; exact hi, by rw [hf]⟩
  · cases p with
    | queue => exact hq
    | free => exact hf
    | out => exact ho
    | crk => exact hc
    | fuses => exact hz
    | reg K => exact absurd (hp _ (List.mem_append_left _ (mem_allRegs K))) hn
    | _ => exact absurd (hp _ (List.mem_append_right _ (by decide))) hn
  · rcases ha with ha | ha
    · rw [ha]; exact hw
    · rw [ha]; rfl

/-! ## The kinds of the pages registers lie on -/

@[simp] theorem keyKind_wkey (k i : Nat) : keyKind (wkey k i) = keyKind k := by
  simp [keyKind, keyAddr, wkey]

@[simp] theorem keyKind_ite (c : Prop) [Decidable c] (a b : Nat) :
    keyKind (if c then a else b) = if c then keyKind a else keyKind b := apply_ite keyKind c a b

@[simp] theorem keyKind_add_ite (c : Prop) [Decidable c] (k a b : Nat) :
    keyKind (k + if c then a else b) = if c then keyKind (k + a) else keyKind (k + b) := by
  split <;> rfl

@[simp] theorem pageKind_add_ite (c : Prop) [Decidable c] (k a b : Nat) :
    pageKind ((k + if c then a else b) / 0x1000) = if c then pageKind ((k + a) / 0x1000) else pageKind ((k + b) / 0x1000) := by
  split <;> rfl

@[simp] theorem keyKind_keyOf (s : State) (a : Nat) : keyKind (keyOf s a) = keyKind a := by simp [keyOf]

@[simp] theorem pageKind_keyAddr (k : Nat) : pageKind (keyAddr k / 0x1000) = keyKind k := rfl

theorem keyKind_of {k n : Nat} (h : k % 0x1000000 / 0x1000 = n) : keyKind k = pageKind n := by
  simp only [keyKind, keyAddr, h]

theorem pageKind_tilE : ∀ i < 128, pageKind (0x040 + i) = .tilE := by decide

@[simp] theorem pageKind_pgTilE (i : Nat) : pageKind (pgTilE i) = .tilE := pageKind_tilE _ (Nat.mod_lt _ (by decide))

theorem keyKind_tilE (off i : Nat) (h : off < 0x1000) : keyKind (0x040000 + off + i % 128 * 0x1000) = .tilE :=
  have hi : i % 128 < 128 := Nat.mod_lt _ (by decide)
  (keyKind_of (n := 0x040 + i % 128) (by omega)).trans (pageKind_tilE _ hi)

theorem pageKind_klnP : ∀ i < 16, pageKind (0x0C1 + i) = .klnP := by decide

@[simp] theorem pageKind_pgKlnP (i : Nat) : pageKind (pgKlnP i) = .klnP := pageKind_klnP _ (Nat.mod_lt _ (by decide))

theorem keyKind_klnP (off i : Nat) (h : off < 0x1000) : keyKind (0x0C1000 + off + i % 16 * 0x1000) = .klnP :=
  have hi : i % 16 < 16 := Nat.mod_lt _ (by decide)
  (keyKind_of (n := 0x0C1 + i % 16) (by omega)).trans (pageKind_klnP _ hi)

theorem pageKind_hlk : ∀ i < 64, pageKind (0x0D1 + i) = .hlk := by decide

@[simp] theorem pageKind_pgHlk (i : Nat) : pageKind (pgHlk i) = .hlk := pageKind_hlk _ (Nat.mod_lt _ (by decide))

theorem keyKind_hlk (off i : Nat) (h : off < 0x1000) : keyKind (0x0D1000 + off + i % 64 * 0x1000) = .hlk :=
  have hi : i % 64 < 64 := Nat.mod_lt _ (by decide)
  (keyKind_of (n := 0x0D1 + i % 64) (by omega)).trans (pageKind_hlk _ hi)

theorem pageKind_pifCh : ∀ i < 4, pageKind (0x112 + i) = .pifCh := by decide

@[simp] theorem pageKind_pgPif (i : Nat) : pageKind (pgPif i) = .pifCh := pageKind_pifCh _ (Nat.mod_lt _ (by decide))

theorem keyKind_pifCh (off i : Nat) (h : off < 0x1000) : keyKind (0x112000 + off + i % 4 * 0x1000) = .pifCh :=
  have hi : i % 4 < 4 := Nat.mod_lt _ (by decide)
  (keyKind_of (n := 0x112 + i % 4) (by omega)).trans (pageKind_pifCh _ hi)

theorem pageKind_motA : ∀ i < 8, pageKind (0x121 + i) = .motA := by decide

@[simp] theorem pageKind_pgMot (i : Nat) : pageKind (pgMot i) = .motA := pageKind_motA _ (Nat.mod_lt _ (by decide))

theorem keyKind_motA (off i : Nat) (h : off < 0x1000) : keyKind (0x121000 + off + i % 8 * 0x1000) = .motA :=
  have hi : i % 8 < 8 := Nat.mod_lt _ (by decide)
  (keyKind_of (n := 0x121 + i % 8) (by omega)).trans (pageKind_motA _ hi)

theorem pageKind_iplP : ∀ i < 4, pageKind (0x131 + i) = .iplP := by decide

@[simp] theorem pageKind_pgIpl (i : Nat) : pageKind (pgIpl i) = .iplP := pageKind_iplP _ (Nat.mod_lt _ (by decide))

theorem keyKind_iplP (off i : Nat) (h : off < 0x1000) : keyKind (0x131000 + off + i % 4 * 0x1000) = .iplP :=
  have hi : i % 4 < 4 := Nat.mod_lt _ (by decide)
  (keyKind_of (n := 0x131 + i % 4) (by omega)).trans (pageKind_iplP _ hi)

end Sys2Proof.Machine
end

