-- ==== Sys2Proof/Laws/Kinds.lean ====
section
/-! SUPPORT. The kind of page each register that an operation writes lies on. -/

namespace Sys2Proof.Machine
open Sys2Proof

@[simp] theorem keyKind_CAL_PL_ACC : keyKind (Reg.CAL_PL_ACC) = .cal := by decide
@[simp] theorem keyKind_CAL_PL_LAST_SLOT : keyKind (Reg.CAL_PL_LAST_SLOT) = .cal := by decide
@[simp] theorem keyKind_CAL_PL_REJ : keyKind (Reg.CAL_PL_REJ) = .cal := by decide
@[simp] theorem keyKind_CAL_PL_STAT : keyKind (Reg.CAL_PL_STAT) = .cal := by decide
@[simp] theorem keyKind_CLK_CDC_HWM : keyKind (Reg.CLK_CDC_HWM) = .clk := by decide
@[simp] theorem keyKind_CLK_CDC_STALL : keyKind (Reg.CLK_CDC_STALL) = .clk := by decide
@[simp] theorem keyKind_CLK_IOCAL_CNT : keyKind (Reg.CLK_IOCAL_CNT) = .clk := by decide
@[simp] theorem keyKind_CLK_IOCAL_CTRL : keyKind (Reg.CLK_IOCAL_CTRL) = .clk := by decide
@[simp] theorem keyKind_CLK_IOCAL_TRIM : keyKind (Reg.CLK_IOCAL_TRIM) = .clk := by decide
@[simp] theorem keyKind_CLK_LOL_CNT : keyKind (Reg.CLK_LOL_CNT) = .clk := by decide
@[simp] theorem keyKind_CLK_RST_CAUSE : keyKind (Reg.CLK_RST_CAUSE) = .clk := by decide
@[simp] theorem keyKind_CRK_COMPACT_CNT : keyKind (Reg.CRK_COMPACT_CNT) = .crk := by decide
@[simp] theorem keyKind_CRK_DEV0 : keyKind (Reg.CRK_DEV0) = .crk := by decide
@[simp] theorem keyKind_CRK_DEV1 : keyKind (Reg.CRK_DEV1) = .crk := by decide
@[simp] theorem keyKind_CRK_GRACE_RES : keyKind (Reg.CRK_GRACE_RES) = .crk := by decide
@[simp] theorem keyKind_CRK_PROG_BYTES : keyKind (Reg.CRK_PROG_BYTES) = .crk := by decide
@[simp] theorem keyKind_CRK_PROG_BYTES4 : keyKind (Reg.CRK_PROG_BYTES + 4) = .crk := by decide
@[simp] theorem keyKind_CRK_TORN_CNT : keyKind (Reg.CRK_TORN_CNT) = .crk := by decide
@[simp] theorem keyKind_CRK_VERIFY_CNT : keyKind (Reg.CRK_VERIFY_CNT) = .crk := by decide
@[simp] theorem keyKind_FAN_CFG (j : Nat) : keyKind (Reg.FAN_CFG j) = .fan :=
  have : j % 4 < 4 := Nat.mod_lt _ (by decide)
  (keyKind_of (n := 0x004) (by simp only [Reg.FAN_CFG]; omega)).trans (by decide)
@[simp] theorem keyKind_FAN_CURVE (j : Nat) : keyKind (Reg.FAN_CURVE j) = .fan :=
  have : j % 4 < 4 := Nat.mod_lt _ (by decide)
  (keyKind_of (n := 0x004) (by simp only [Reg.FAN_CURVE]; omega)).trans (by decide)
@[simp] theorem keyKind_FAN_STALL_CNT (j : Nat) : keyKind (Reg.FAN_STALL_CNT j) = .fan :=
  have : j % 4 < 4 := Nat.mod_lt _ (by decide)
  (keyKind_of (n := 0x004) (by simp only [Reg.FAN_STALL_CNT]; omega)).trans (by decide)
@[simp] theorem keyKind_GLB_HOLD_REL : keyKind (Reg.GLB_HOLD_REL) = .glb := by decide
@[simp] theorem keyKind_GLB_RST : keyKind (Reg.GLB_RST) = .glb := by decide
@[simp] theorem keyKind_GLB_RST_CAUSE : keyKind (Reg.GLB_RST_CAUSE) = .glb := by decide
@[simp] theorem keyKind_GLB_STRAP : keyKind (Reg.GLB_STRAP) = .glb := by decide
@[simp] theorem keyKind_GLB_WDOG_CNT : keyKind (Reg.GLB_WDOG_CNT) = .glb := by decide
@[simp] theorem keyKind_GLN_CTRL : keyKind (Reg.GLN_CTRL) = .gln := by decide
@[simp] theorem keyKind_GLN_CTRL4 : keyKind (Reg.GLN_CTRL + 4) = .gln := by decide
@[simp] theorem keyKind_GLN_PL_LAST_Q : keyKind (Reg.GLN_PL_LAST_Q) = .gln := by decide
@[simp] theorem keyKind_GLN_PL_WINDOWS : keyKind (Reg.GLN_PL_WINDOWS) = .gln := by decide
@[simp] theorem keyKind_GLZ_BAND : keyKind (Reg.GLZ_BAND) = .glz := by decide
@[simp] theorem keyKind_GLZ_EVICT_CNT : keyKind (Reg.GLZ_EVICT_CNT) = .glz := by decide
@[simp] theorem keyKind_GLZ_LAST_WIN : keyKind (Reg.GLZ_LAST_WIN) = .glz := by decide
@[simp] theorem keyKind_GLZ_LAST_WIN_CRC : keyKind (Reg.GLZ_LAST_WIN_CRC) = .glz := by decide
@[simp] theorem keyKind_GLZ_OUT_BYTES : keyKind (Reg.GLZ_OUT_BYTES) = .glz := by decide
@[simp] theorem keyKind_GLZ_OUT_BYTES4 : keyKind (Reg.GLZ_OUT_BYTES + 4) = .glz := by decide
@[simp] theorem keyKind_GLZ_PLACE_CNT : keyKind (Reg.GLZ_PLACE_CNT) = .glz := by decide
@[simp] theorem keyKind_GLZ_PLACE_CNT4 : keyKind (Reg.GLZ_PLACE_CNT + 4) = .glz := by decide
@[simp] theorem keyKind_GLZ_POOL_WAIT_CNT : keyKind (Reg.GLZ_POOL_WAIT_CNT) = .glz := by decide
@[simp] theorem keyKind_GLZ_WIN_CNT : keyKind (Reg.GLZ_WIN_CNT) = .glz := by decide
@[simp] theorem keyKind_GLZ_WIN_FAIL_CNT : keyKind (Reg.GLZ_WIN_FAIL_CNT) = .glz := by decide
@[simp] theorem keyKind_HIF_CPL_TO_CNT : keyKind (Reg.HIF_CPL_TO_CNT) = .hif := by decide
@[simp] theorem keyKind_HIF_CTRL : keyKind (Reg.HIF_CTRL) = .hif := by decide
@[simp] theorem keyKind_HIF_DB_BAD_CNT : keyKind (Reg.HIF_DB_BAD_CNT) = .hif := by decide
@[simp] theorem keyKind_HIF_DB_IGN_CNT : keyKind (Reg.HIF_DB_IGN_CNT) = .hif := by decide
@[simp] theorem keyKind_HIF_LTR_LAST : keyKind (Reg.HIF_LTR_LAST) = .hif := by decide
@[simp] theorem keyKind_HIF_POISON_CNT : keyKind (Reg.HIF_POISON_CNT) = .hif := by decide
@[simp] theorem keyKind_HIF_PTM_FAIL_CNT : keyKind (Reg.HIF_PTM_FAIL_CNT) = .hif := by decide
@[simp] theorem keyKind_HIF_SB_HWM : keyKind (Reg.HIF_SB_HWM) = .hif := by decide
@[simp] theorem keyKind_HIF_STAT : keyKind (Reg.HIF_STAT) = .hif := by decide
@[simp] theorem keyKind_HIF_UNMAPPED_CNT : keyKind (Reg.HIF_UNMAPPED_CNT) = .hif := by decide
@[simp] theorem keyKind_HIF_URCA_CNT : keyKind (Reg.HIF_URCA_CNT) = .hif := by decide
@[simp] theorem keyKind_HLK_CTRL (i : Nat) : keyKind (Reg.HLK_CTRL i) = .hlk := keyKind_hlk 0x040 i (by decide)
@[simp] theorem keyKind_HLK_DESYNC_CNT (i : Nat) : keyKind (Reg.HLK_DESYNC_CNT i) = .hlk := keyKind_hlk 0x078 i (by decide)
@[simp] theorem keyKind_HLK_DRV_STAT (i : Nat) : keyKind (Reg.HLK_DRV_STAT i) = .hlk := keyKind_hlk 0x04C i (by decide)
@[simp] theorem keyKind_HLK_FAULT (i : Nat) : keyKind (Reg.HLK_FAULT i) = .hlk := keyKind_hlk 0x048 i (by decide)
@[simp] theorem keyKind_HLK_KLN_RTRIM01 (i : Nat) : keyKind (Reg.HLK_KLN_RTRIM01 i) = .hlk := keyKind_hlk 0x114 i (by decide)
@[simp] theorem keyKind_HLK_KLN_RTRIM23 (i : Nat) : keyKind (Reg.HLK_KLN_RTRIM23 i) = .hlk := keyKind_hlk 0x118 i (by decide)
@[simp] theorem keyKind_HLK_KLN_SLIP_CNT (i : Nat) : keyKind (Reg.HLK_KLN_SLIP_CNT i) = .hlk := keyKind_hlk 0x120 i (by decide)
@[simp] theorem keyKind_HLK_KLN_TRIM (i : Nat) : keyKind (Reg.HLK_KLN_TRIM i) = .hlk := keyKind_hlk 0x110 i (by decide)
@[simp] theorem keyKind_HLK_LAST_FAULT (i : Nat) : keyKind (Reg.HLK_LAST_FAULT i) = .hlk := keyKind_hlk 0x080 i (by decide)
@[simp] theorem keyKind_HLK_LOCK_LOSS_CNT (i : Nat) : keyKind (Reg.HLK_LOCK_LOSS_CNT i) = .hlk := keyKind_hlk 0x06C i (by decide)
@[simp] theorem keyKind_HLK_RETRAIN_CNT (i : Nat) : keyKind (Reg.HLK_RETRAIN_CNT i) = .hlk := keyKind_hlk 0x070 i (by decide)
@[simp] theorem keyKind_HLK_RX_CRC_CNT (i : Nat) : keyKind (Reg.HLK_RX_CRC_CNT i) = .hlk := keyKind_hlk 0x068 i (by decide)
@[simp] theorem keyKind_HLK_VAR_LATE_CNT (i : Nat) : keyKind (Reg.HLK_VAR_LATE_CNT i) = .hlk := keyKind_hlk 0x074 i (by decide)
@[simp] theorem keyKind_IPL_BUSY_CYC : keyKind (Reg.IPL_BUSY_CYC) = .iplC := by decide
@[simp] theorem keyKind_IPL_BUSY_CYC4 : keyKind (Reg.IPL_BUSY_CYC + 4) = .iplC := by decide
@[simp] theorem keyKind_IPL_CTRL : keyKind (Reg.IPL_CTRL) = .iplC := by decide
@[simp] theorem keyKind_IPL_C_CRC_CNT (i : Nat) : keyKind (Reg.IPL_C_CRC_CNT i) = .iplP := keyKind_iplP 0x078 i (by decide)
@[simp] theorem keyKind_IPL_C_CTRL (i : Nat) : keyKind (Reg.IPL_C_CTRL i) = .iplP := keyKind_iplP 0x044 i (by decide)
@[simp] theorem keyKind_IPL_C_DUP_CNT (i : Nat) : keyKind (Reg.IPL_C_DUP_CNT i) = .iplP := keyKind_iplP 0x080 i (by decide)
@[simp] theorem keyKind_IPL_C_FIFO_OVF_CNT (i : Nat) : keyKind (Reg.IPL_C_FIFO_OVF_CNT i) = .iplP := keyKind_iplP 0x07C i (by decide)
@[simp] theorem keyKind_IPL_C_HDR_ERR_CNT (i : Nat) : keyKind (Reg.IPL_C_HDR_ERR_CNT i) = .iplP := keyKind_iplP 0x074 i (by decide)
@[simp] theorem keyKind_IPL_C_LAG_SKIP_CNT (i : Nat) : keyKind (Reg.IPL_C_LAG_SKIP_CNT i) = .iplP := keyKind_iplP 0x084 i (by decide)
@[simp] theorem keyKind_IPL_C_LINES (i : Nat) : keyKind (Reg.IPL_C_LINES i) = .iplP := keyKind_iplP 0x068 i (by decide)
@[simp] theorem keyKind_IPL_C_LINES4 (i : Nat) : keyKind (Reg.IPL_C_LINES i + 4) = .iplP := by
  rw [show Reg.IPL_C_LINES i + 4 = 0x131000 + 0x06C + i % 4 * 0x1000 by simp only [Reg.IPL_C_LINES]; omega]
  exact keyKind_iplP 0x06C i (by decide)
@[simp] theorem keyKind_IPL_C_MISS_CNT (i : Nat) : keyKind (Reg.IPL_C_MISS_CNT i) = .iplP := keyKind_iplP 0x070 i (by decide)
@[simp] theorem keyKind_IPL_C_OLDEST (i : Nat) : keyKind (Reg.IPL_C_OLDEST i) = .iplP := keyKind_iplP 0x064 i (by decide)
@[simp] theorem keyKind_IPL_C_STALL_CNT (i : Nat) : keyKind (Reg.IPL_C_STALL_CNT i) = .iplP := keyKind_iplP 0x088 i (by decide)
@[simp] theorem keyKind_IPL_C_STORE_DROP_CNT (i : Nat) : keyKind (Reg.IPL_C_STORE_DROP_CNT i) = .iplP := keyKind_iplP 0x08C i (by decide)
@[simp] theorem keyKind_KLN_BAR_CNT : keyKind (Reg.KLN_BAR_CNT) = .klnC := by decide
@[simp] theorem keyKind_KLN_H_MARGIN_MIN : keyKind (Reg.KLN_H_MARGIN_MIN) = .klnC := by decide
@[simp] theorem keyKind_KLN_H_RATE : keyKind (Reg.KLN_H_RATE) = .klnC := by decide
@[simp] theorem keyKind_KLN_H_UNDERRUN_CNT : keyKind (Reg.KLN_H_UNDERRUN_CNT) = .klnC := by decide
@[simp] theorem keyKind_KLN_LIMIT : keyKind (Reg.KLN_LIMIT) = .klnC := by decide
@[simp] theorem keyKind_KLN_LT : keyKind (Reg.KLN_LT) = .klnC := by decide
@[simp] theorem keyKind_KLN_LT_STAT : keyKind (Reg.KLN_LT_STAT) = .klnC := by decide
@[simp] theorem keyKind_KLN_PC_PAUSE_CNT (j : Nat) : keyKind (Reg.KLN_PC_PAUSE_CNT j) = .klnC :=
  have : j % 4 < 4 := Nat.mod_lt _ (by decide)
  (keyKind_of (n := 0x0C0) (by simp only [Reg.KLN_PC_PAUSE_CNT]; omega)).trans (by decide)
@[simp] theorem keyKind_KLN_PC_RATE_ERR_CNT (j : Nat) : keyKind (Reg.KLN_PC_RATE_ERR_CNT j) = .klnC :=
  have : j % 4 < 4 := Nat.mod_lt _ (by decide)
  (keyKind_of (n := 0x0C0) (by simp only [Reg.KLN_PC_RATE_ERR_CNT]; omega)).trans (by decide)
@[simp] theorem keyKind_KLN_PC_STEPS (j : Nat) : keyKind (Reg.KLN_PC_STEPS j) = .klnC :=
  have : j % 4 < 4 := Nat.mod_lt _ (by decide)
  (keyKind_of (n := 0x0C0) (by simp only [Reg.KLN_PC_STEPS]; omega)).trans (by decide)
@[simp] theorem keyKind_KLN_PC_TLAST (j : Nat) : keyKind (Reg.KLN_PC_TLAST j) = .klnC :=
  have : j % 4 < 4 := Nat.mod_lt _ (by decide)
  (keyKind_of (n := 0x0C0) (by simp only [Reg.KLN_PC_TLAST]; omega)).trans (by decide)
@[simp] theorem keyKind_KLN_PC_TLAST4 (j : Nat) : keyKind (Reg.KLN_PC_TLAST j + 4) = .klnC :=
  have : j % 4 < 4 := Nat.mod_lt _ (by decide)
  (keyKind_of (n := 0x0C0) (by simp only [Reg.KLN_PC_TLAST]; omega)).trans (by decide)
@[simp] theorem keyKind_KLN_PC_TPER (j : Nat) : keyKind (Reg.KLN_PC_TPER j) = .klnC :=
  have : j % 4 < 4 := Nat.mod_lt _ (by decide)
  (keyKind_of (n := 0x0C0) (by simp only [Reg.KLN_PC_TPER]; omega)).trans (by decide)
@[simp] theorem keyKind_KLN_P_APPLY_CTRL (i : Nat) : keyKind (Reg.KLN_P_APPLY_CTRL i) = .klnP := keyKind_klnP 0x068 i (by decide)
@[simp] theorem keyKind_KLN_P_CTRL (i : Nat) : keyKind (Reg.KLN_P_CTRL i) = .klnP := keyKind_klnP 0x044 i (by decide)
@[simp] theorem keyKind_KLN_P_DEFER_CNT (i : Nat) : keyKind (Reg.KLN_P_DEFER_CNT i) = .klnP := keyKind_klnP 0x09C i (by decide)
@[simp] theorem keyKind_KLN_P_DEV (i : Nat) : keyKind (Reg.KLN_P_DEV i) = .klnP := keyKind_klnP 0x118 i (by decide)
@[simp] theorem keyKind_KLN_P_DEV_CNT (i : Nat) : keyKind (Reg.KLN_P_DEV_CNT i) = .klnP := keyKind_klnP 0x130 i (by decide)
@[simp] theorem keyKind_KLN_P_DEV_MAX (i : Nat) : keyKind (Reg.KLN_P_DEV_MAX i) = .klnP := keyKind_klnP 0x11C i (by decide)
@[simp] theorem keyKind_KLN_P_EMPTY_CNT (i : Nat) : keyKind (Reg.KLN_P_EMPTY_CNT i) = .klnP := keyKind_klnP 0x090 i (by decide)
@[simp] theorem keyKind_KLN_P_FEED_LATE_CNT (i : Nat) : keyKind (Reg.KLN_P_FEED_LATE_CNT i) = .klnP := keyKind_klnP 0x138 i (by decide)
@[simp] theorem keyKind_KLN_P_FRAME_CNT (i : Nat) : keyKind (Reg.KLN_P_FRAME_CNT i) = .klnP := keyKind_klnP 0x08C i (by decide)
@[simp] theorem keyKind_KLN_P_FWIN_CRC (i : Nat) : keyKind (Reg.KLN_P_FWIN_CRC i) = .klnP := keyKind_klnP 0x084 i (by decide)
@[simp] theorem keyKind_KLN_P_FWIN_FAIL_CNT (i : Nat) : keyKind (Reg.KLN_P_FWIN_FAIL_CNT i) = .klnP := keyKind_klnP 0x098 i (by decide)
@[simp] theorem keyKind_KLN_P_FWIN_REF (i : Nat) : keyKind (Reg.KLN_P_FWIN_REF i) = .klnP := keyKind_klnP 0x088 i (by decide)
@[simp] theorem keyKind_KLN_P_FWIN_RES (i : Nat) : keyKind (Reg.KLN_P_FWIN_RES i) = .klnP := keyKind_klnP 0x080 i (by decide)
@[simp] theorem keyKind_KLN_P_LATE_EDGE_CNT (i : Nat) : keyKind (Reg.KLN_P_LATE_EDGE_CNT i) = .klnP := keyKind_klnP 0x12C i (by decide)
@[simp] theorem keyKind_KLN_P_PASS (i : Nat) : keyKind (Reg.KLN_P_PASS i) = .klnP := keyKind_klnP 0x120 i (by decide)
@[simp] theorem keyKind_KLN_P_PAUSE_SPOIL_CNT (i : Nat) : keyKind (Reg.KLN_P_PAUSE_SPOIL_CNT i) = .klnP := keyKind_klnP 0x134 i (by decide)
@[simp] theorem keyKind_KLN_P_PROP (i : Nat) : keyKind (Reg.KLN_P_PROP i) = .klnP := keyKind_klnP 0x114 i (by decide)
@[simp] theorem keyKind_KLN_P_RATIO (i : Nat) : keyKind (Reg.KLN_P_RATIO i) = .klnP := keyKind_klnP 0x104 i (by decide)
@[simp] theorem keyKind_KLN_P_REV_TRIM (i : Nat) : keyKind (Reg.KLN_P_REV_TRIM i) = .klnP := keyKind_klnP 0x10C i (by decide)
@[simp] theorem keyKind_KLN_P_TRIM (i : Nat) : keyKind (Reg.KLN_P_TRIM i) = .klnP := keyKind_klnP 0x108 i (by decide)
@[simp] theorem keyKind_KLN_P_UNDERRUN_CNT (i : Nat) : keyKind (Reg.KLN_P_UNDERRUN_CNT i) = .klnP := keyKind_klnP 0x094 i (by decide)
@[simp] theorem keyKind_KLN_P_VACT (i : Nat) : keyKind (Reg.KLN_P_VACT i) = .klnP := keyKind_klnP 0x048 i (by decide)
@[simp] theorem keyKind_KLN_P_VBLANK (i : Nat) : keyKind (Reg.KLN_P_VBLANK i) = .klnP := keyKind_klnP 0x04C i (by decide)
@[simp] theorem keyKind_KLN_SUST_RATE : keyKind (Reg.KLN_SUST_RATE) = .klnC := by decide
@[simp] theorem keyKind_KLN_TRIP_CLR : keyKind (Reg.KLN_TRIP_CLR) = .klnC := by decide
@[simp] theorem keyKind_KLN_TRIP_CNT (j : Nat) : keyKind (Reg.KLN_TRIP_CNT j) = .klnC :=
  have : j % 4 < 4 := Nat.mod_lt _ (by decide)
  (keyKind_of (n := 0x0C0) (by simp only [Reg.KLN_TRIP_CNT]; omega)).trans (by decide)
@[simp] theorem keyKind_MIL_BLK_CNT : keyKind (Reg.MIL_BLK_CNT) = .mil := by decide
@[simp] theorem keyKind_MIL_FILL_CNT : keyKind (Reg.MIL_FILL_CNT) = .mil := by decide
@[simp] theorem keyKind_MIL_IN_BYTES : keyKind (Reg.MIL_IN_BYTES) = .mil := by decide
@[simp] theorem keyKind_MIL_IN_BYTES4 : keyKind (Reg.MIL_IN_BYTES + 4) = .mil := by decide
@[simp] theorem keyKind_MIL_OUT_BYTES : keyKind (Reg.MIL_OUT_BYTES) = .mil := by decide
@[simp] theorem keyKind_MIL_OUT_BYTES4 : keyKind (Reg.MIL_OUT_BYTES + 4) = .mil := by decide
@[simp] theorem keyKind_MIL_STORED_CNT : keyKind (Reg.MIL_STORED_CNT) = .mil := by decide
@[simp] theorem keyKind_MIL_VERIFY_FAIL_CNT : keyKind (Reg.MIL_VERIFY_FAIL_CNT) = .mil := by decide
@[simp] theorem keyKind_MOT_A_FAULT (i : Nat) : keyKind (Reg.MOT_A_FAULT i) = .motA := keyKind_motA 0x044 i (by decide)
@[simp] theorem keyKind_MOT_A_OC_CNT (i : Nat) : keyKind (Reg.MOT_A_OC_CNT i) = .motA := keyKind_motA 0x078 i (by decide)
@[simp] theorem keyKind_MOT_A_REMAIN (i : Nat) : keyKind (Reg.MOT_A_REMAIN i) = .motA := keyKind_motA 0x068 i (by decide)
@[simp] theorem keyKind_MOT_A_REMAIN4 (i : Nat) : keyKind (Reg.MOT_A_REMAIN i + 4) = .motA := by
  rw [show Reg.MOT_A_REMAIN i + 4 = 0x121000 + 0x06C + i % 8 * 0x1000 by simp only [Reg.MOT_A_REMAIN]; omega]
  exact keyKind_motA 0x06C i (by decide)
@[simp] theorem keyKind_MOT_A_STALL_CNT (i : Nat) : keyKind (Reg.MOT_A_STALL_CNT i) = .motA := keyKind_motA 0x074 i (by decide)
@[simp] theorem keyKind_PIF_C_AMPL (i : Nat) : keyKind (Reg.PIF_C_AMPL i) = .pifCh := keyKind_pifCh 0x08C i (by decide)
@[simp] theorem keyKind_PIF_C_AMP_CNT (i : Nat) : keyKind (Reg.PIF_C_AMP_CNT i) = .pifCh := keyKind_pifCh 0x0B8 i (by decide)
@[simp] theorem keyKind_PIF_C_CFG (i : Nat) : keyKind (Reg.PIF_C_CFG i) = .pifCh := keyKind_pifCh 0x040 i (by decide)
@[simp] theorem keyKind_PIF_C_CTRL (i : Nat) : keyKind (Reg.PIF_C_CTRL i) = .pifCh := keyKind_pifCh 0x044 i (by decide)
@[simp] theorem keyKind_PIF_C_IDX_CNT (i : Nat) : keyKind (Reg.PIF_C_IDX_CNT i) = .pifCh := keyKind_pifCh 0x0AC i (by decide)
@[simp] theorem keyKind_PIF_C_IDX_ERR (i : Nat) : keyKind (Reg.PIF_C_IDX_ERR i) = .pifCh := keyKind_pifCh 0x0A8 i (by decide)
@[simp] theorem keyKind_PIF_C_IDX_LAST (i : Nat) : keyKind (Reg.PIF_C_IDX_LAST i) = .pifCh := keyKind_pifCh 0x0A0 i (by decide)
@[simp] theorem keyKind_PIF_C_IDX_LAST4 (i : Nat) : keyKind (Reg.PIF_C_IDX_LAST i + 4) = .pifCh := by
  rw [show Reg.PIF_C_IDX_LAST i + 4 = 0x112000 + 0x0A4 + i % 4 * 0x1000 by simp only [Reg.PIF_C_IDX_LAST]; omega]
  exact keyKind_pifCh 0x0A4 i (by decide)
@[simp] theorem keyKind_PIF_C_IDX_PERIOD (i : Nat) : keyKind (Reg.PIF_C_IDX_PERIOD i) = .pifCh := keyKind_pifCh 0x060 i (by decide)
@[simp] theorem keyKind_PIF_C_IDX_PERIOD4 (i : Nat) : keyKind (Reg.PIF_C_IDX_PERIOD i + 4) = .pifCh := by
  rw [show Reg.PIF_C_IDX_PERIOD i + 4 = 0x112000 + 0x064 + i % 4 * 0x1000 by simp only [Reg.PIF_C_IDX_PERIOD]; omega]
  exact keyKind_pifCh 0x064 i (by decide)
@[simp] theorem keyKind_PIF_C_MINMAX_C (i : Nat) : keyKind (Reg.PIF_C_MINMAX_C i) = .pifCh := keyKind_pifCh 0x094 i (by decide)
@[simp] theorem keyKind_PIF_C_MINMAX_S (i : Nat) : keyKind (Reg.PIF_C_MINMAX_S i) = .pifCh := keyKind_pifCh 0x090 i (by decide)
@[simp] theorem keyKind_PIF_C_MISMATCH_CNT (i : Nat) : keyKind (Reg.PIF_C_MISMATCH_CNT i) = .pifCh := keyKind_pifCh 0x0B0 i (by decide)
@[simp] theorem keyKind_PIF_C_MISSING_CNT (i : Nat) : keyKind (Reg.PIF_C_MISSING_CNT i) = .pifCh := keyKind_pifCh 0x0B4 i (by decide)
@[simp] theorem keyKind_PIF_C_STAT (i : Nat) : keyKind (Reg.PIF_C_STAT i) = .pifCh := keyKind_pifCh 0x048 i (by decide)
@[simp] theorem keyKind_PWR_WAKE_TO_CNT : keyKind (Reg.PWR_WAKE_TO_CNT) = .pwr := by decide
@[simp] theorem keyKind_SAG_FAULT_CNT : keyKind (Reg.SAG_FAULT_CNT) = .sag := by decide
@[simp] theorem keyKind_SAG_FW_VIOL_CNT : keyKind (Reg.SAG_FW_VIOL_CNT) = .sag := by decide
@[simp] theorem keyKind_SAG_LAST_VIOL : keyKind (Reg.SAG_LAST_VIOL) = .sag := by decide
@[simp] theorem keyKind_STK_EVT_DROP_CNT : keyKind (Reg.STK_EVT_DROP_CNT) = .stk := by decide
@[simp] theorem keyKind_STK_EVT_SEQ : keyKind (Reg.STK_EVT_SEQ) = .stk := by decide
@[simp] theorem keyKind_STK_HOST_BYTES : keyKind (Reg.STK_HOST_BYTES) = .stk := by decide
@[simp] theorem keyKind_STK_HOST_BYTES4 : keyKind (Reg.STK_HOST_BYTES + 4) = .stk := by decide
@[simp] theorem keyKind_STK_LIMIT : keyKind (Reg.STK_LIMIT) = .stk := by decide
@[simp] theorem keyKind_STK_THROTTLE_CNT : keyKind (Reg.STK_THROTTLE_CNT) = .stk := by decide
@[simp] theorem keyKind_STK_TR_DROP_CNT : keyKind (Reg.STK_TR_DROP_CNT) = .stk := by decide
@[simp] theorem keyKind_STK_TR_GAP_CNT : keyKind (Reg.STK_TR_GAP_CNT) = .stk := by decide
@[simp] theorem keyKind_THM_MAX : keyKind (Reg.THM_MAX) = .thm := by decide
@[simp] theorem keyKind_THM_STAT : keyKind (Reg.THM_STAT) = .thm := by decide
@[simp] theorem keyKind_THM_WARN_CNT : keyKind (Reg.THM_WARN_CNT) = .thm := by decide
@[simp] theorem keyKind_THR_ABANDON_CNT : keyKind (Reg.THR_ABANDON_CNT) = .thr := by decide
@[simp] theorem keyKind_THR_AUTH_CNT : keyKind (Reg.THR_AUTH_CNT) = .thr := by decide
@[simp] theorem keyKind_THR_BLK_CNT : keyKind (Reg.THR_BLK_CNT) = .thr := by decide
@[simp] theorem keyKind_THR_BLK_CNT4 : keyKind (Reg.THR_BLK_CNT + 4) = .thr := by decide
@[simp] theorem keyKind_THR_BUDGET_CNT : keyKind (Reg.THR_BUDGET_CNT) = .thr := by decide
@[simp] theorem keyKind_THR_IN_BYTES : keyKind (Reg.THR_IN_BYTES) = .thr := by decide
@[simp] theorem keyKind_THR_IN_BYTES4 : keyKind (Reg.THR_IN_BYTES + 4) = .thr := by decide
@[simp] theorem keyKind_THR_LAST_BAD_HDL : keyKind (Reg.THR_LAST_BAD_HDL) = .thr := by decide
@[simp] theorem keyKind_THR_LAST_BAD_LOC : keyKind (Reg.THR_LAST_BAD_LOC) = .thr := by decide
@[simp] theorem keyKind_THR_LAST_BAD_TEN : keyKind (Reg.THR_LAST_BAD_TEN) = .thr := by decide
@[simp] theorem keyKind_THR_OUT_BYTES : keyKind (Reg.THR_OUT_BYTES) = .thr := by decide
@[simp] theorem keyKind_THR_OUT_BYTES4 : keyKind (Reg.THR_OUT_BYTES + 4) = .thr := by decide
@[simp] theorem keyKind_THR_STREAM_BAD_CNT : keyKind (Reg.THR_STREAM_BAD_CNT) = .thr := by decide
@[simp] theorem keyKind_TIL_E_DECAP_CNT (i : Nat) : keyKind (Reg.TIL_E_DECAP_CNT i) = .tilE := keyKind_tilE 0x0B4 i (by decide)
@[simp] theorem keyKind_TIL_E_DMAP (i : Nat) : keyKind (Reg.TIL_E_DMAP i) = .tilE := keyKind_tilE 0x04C i (by decide)
@[simp] theorem keyKind_TIL_E_DROPS (i : Nat) : keyKind (Reg.TIL_E_DROPS i) = .tilE := keyKind_tilE 0x098 i (by decide)
@[simp] theorem keyKind_TIL_E_DROPS4 (i : Nat) : keyKind (Reg.TIL_E_DROPS i + 4) = .tilE := by
  rw [show Reg.TIL_E_DROPS i + 4 = 0x040000 + 0x09C + i % 128 * 0x1000 by simp only [Reg.TIL_E_DROPS]; omega]
  exact keyKind_tilE 0x09C i (by decide)
@[simp] theorem keyKind_TIL_E_ENTRY_CRC_CNT (i : Nat) : keyKind (Reg.TIL_E_ENTRY_CRC_CNT i) = .tilE := keyKind_tilE 0x0B8 i (by decide)
@[simp] theorem keyKind_TIL_E_INK (i : Nat) : keyKind (Reg.TIL_E_INK i) = .tilE := keyKind_tilE 0x0A0 i (by decide)
@[simp] theorem keyKind_TIL_E_INK4 (i : Nat) : keyKind (Reg.TIL_E_INK i + 4) = .tilE := by
  rw [show Reg.TIL_E_INK i + 4 = 0x040000 + 0x0A4 + i % 128 * 0x1000 by simp only [Reg.TIL_E_INK]; omega]
  exact keyKind_tilE 0x0A4 i (by decide)
@[simp] theorem keyKind_TIL_E_KERNEL (i : Nat) : keyKind (Reg.TIL_E_KERNEL i) = .tilE := keyKind_tilE 0x044 i (by decide)
@[simp] theorem keyKind_TIL_E_LINE_CYC (i : Nat) : keyKind (Reg.TIL_E_LINE_CYC i) = .tilE := keyKind_tilE 0x060 i (by decide)
@[simp] theorem keyKind_TIL_E_LREMAP (i : Nat) : keyKind (Reg.TIL_E_LREMAP i) = .tilE := keyKind_tilE 0x050 i (by decide)
@[simp] theorem keyKind_TIL_E_ROWLINES (i : Nat) : keyKind (Reg.TIL_E_ROWLINES i) = .tilE := keyKind_tilE 0x068 i (by decide)
@[simp] theorem keyKind_TIL_E_ROWLINES4 (i : Nat) : keyKind (Reg.TIL_E_ROWLINES i + 4) = .tilE := by
  rw [show Reg.TIL_E_ROWLINES i + 4 = 0x040000 + 0x06C + i % 128 * 0x1000 by simp only [Reg.TIL_E_ROWLINES]; omega]
  exact keyKind_tilE 0x06C i (by decide)
@[simp] theorem keyKind_TIL_E_ROWOFS (i : Nat) : keyKind (Reg.TIL_E_ROWOFS i) = .tilE := keyKind_tilE 0x058 i (by decide)
@[simp] theorem keyKind_TIL_E_SCREEN (i : Nat) : keyKind (Reg.TIL_E_SCREEN i) = .tilE := keyKind_tilE 0x048 i (by decide)
@[simp] theorem keyKind_TIL_E_SPITS (i : Nat) : keyKind (Reg.TIL_E_SPITS i) = .tilE := keyKind_tilE 0x0B0 i (by decide)
@[simp] theorem keyKind_TIL_E_SPLIT (i : Nat) : keyKind (Reg.TIL_E_SPLIT i) = .tilE := keyKind_tilE 0x054 i (by decide)
@[simp] theorem keyKind_TIL_E_STRADDLE_CNT (i : Nat) : keyKind (Reg.TIL_E_STRADDLE_CNT i) = .tilE := keyKind_tilE 0x074 i (by decide)
@[simp] theorem keyKind_TIL_E_THROTTLE_CNT (i : Nat) : keyKind (Reg.TIL_E_THROTTLE_CNT i) = .tilE := keyKind_tilE 0x070 i (by decide)
@[simp] theorem keyKind_TIL_E_TICKLES (i : Nat) : keyKind (Reg.TIL_E_TICKLES i) = .tilE := keyKind_tilE 0x0A8 i (by decide)
@[simp] theorem keyKind_TIL_E_TICKLES4 (i : Nat) : keyKind (Reg.TIL_E_TICKLES i + 4) = .tilE := by
  rw [show Reg.TIL_E_TICKLES i + 4 = 0x040000 + 0x0AC + i % 128 * 0x1000 by simp only [Reg.TIL_E_TICKLES]; omega]
  exact keyKind_tilE 0x0AC i (by decide)
@[simp] theorem keyKind_TIL_SPLIT_BAR : keyKind (Reg.TIL_SPLIT_BAR) = .tilC := by decide
@[simp] theorem keyKind_TIL_SPLIT_CNT : keyKind (Reg.TIL_SPLIT_CNT) = .tilC := by decide
@[simp] theorem keyKind_TIM_CTRL : keyKind (Reg.TIM_CTRL) = .tim := by decide
@[simp] theorem keyKind_TIM_ERR : keyKind (Reg.TIM_ERR) = .tim := by decide
@[simp] theorem keyKind_TIM_MEAS_CNT : keyKind (Reg.TIM_MEAS_CNT) = .tim := by decide
@[simp] theorem keyKind_TIM_RATE : keyKind (Reg.TIM_RATE) = .tim := by decide
@[simp] theorem keyKind_TIM_STEP_CNT : keyKind (Reg.TIM_STEP_CNT) = .tim := by decide
@[simp] theorem keyKind_TIM_WR_CTRL : keyKind (Reg.TIM_WR_CTRL) = .tim := by decide
@[simp] theorem keyKind_TLY_AUTH_FAIL_CNT : keyKind (Reg.TLY_AUTH_FAIL_CNT) = .tly := by decide
@[simp] theorem keyKind_TLY_CTRL : keyKind (Reg.TLY_CTRL) = .tly := by decide
@[simp] theorem keyKind_TLY_I2C_ERR_CNT : keyKind (Reg.TLY_I2C_ERR_CNT) = .tly := by decide
@[simp] theorem keyKind_TLY_LOSS_CNT : keyKind (Reg.TLY_LOSS_CNT) = .tly := by decide
@[simp] theorem keyKind_TLY_SLOT_CFG : keyKind (Reg.TLY_SLOT_CFG) = .tly := by decide
@[simp] theorem keyKind_TLY_SLOT_HEADS : keyKind (Reg.TLY_SLOT_HEADS) = .tly := by decide
@[simp] theorem keyKind_TLY_SLOT_HEADS4 : keyKind (Reg.TLY_SLOT_HEADS + 4) = .tly := by decide
@[simp] theorem keyKind_TLY_WB_FAIL_CNT : keyKind (Reg.TLY_WB_FAIL_CNT) = .tly := by decide
@[simp] theorem keyKind_TRM_BEACON_MISS_CNT : keyKind (Reg.TRM_BEACON_MISS_CNT) = .trm := by decide
@[simp] theorem keyKind_TRM_CRC_CNT : keyKind (Reg.TRM_CRC_CNT) = .trm := by decide
@[simp] theorem keyKind_TRM_CTRL : keyKind (Reg.TRM_CTRL) = .trm := by decide
@[simp] theorem keyKind_TRM_FRAME : keyKind (Reg.TRM_FRAME) = .trm := by decide
@[simp] theorem keyKind_TRM_MUTE : keyKind (Reg.TRM_MUTE) = .trm := by decide
@[simp] theorem keyKind_TRM_MUTE_CNT : keyKind (Reg.TRM_MUTE_CNT) = .trm := by decide
@[simp] theorem keyKind_TRM_NODE_OFS : keyKind (Reg.TRM_NODE_OFS) = .trm := by decide
@[simp] theorem keyKind_TRM_NODE_RATE : keyKind (Reg.TRM_NODE_RATE) = .trm := by decide
@[simp] theorem keyKind_TRM_NODE_STAT : keyKind (Reg.TRM_NODE_STAT) = .trm := by decide
@[simp] theorem keyKind_TRM_SLOT_EDGE_CNT : keyKind (Reg.TRM_SLOT_EDGE_CNT) = .trm := by decide
@[simp] theorem keyKind_TRM_STALE : keyKind (Reg.TRM_STALE) = .trm := by decide
@[simp] theorem keyKind_TRM_SWITCH_CNT : keyKind (Reg.TRM_SWITCH_CNT) = .trm := by decide
@[simp] theorem keyKind_TRM_TX_ADV_A : keyKind (Reg.TRM_TX_ADV_A) = .trm := by decide
@[simp] theorem keyKind_TRM_TX_ADV_B : keyKind (Reg.TRM_TX_ADV_B) = .trm := by decide
@[simp] theorem keyKind_WIN_COPIES_RULED : keyKind (Reg.WIN_COPIES_RULED) = .win := by decide
@[simp] theorem keyKind_WIN_DEFECT_CNT : keyKind (Reg.WIN_DEFECT_CNT) = .win := by decide
@[simp] theorem keyKind_WIN_DEF_LOST_CNT : keyKind (Reg.WIN_DEF_LOST_CNT) = .win := by decide
@[simp] theorem keyKind_WIN_PL_DM0 : keyKind (Reg.WIN_PL_DM0) = .win := by decide
@[simp] theorem keyKind_WIN_PL_DM04 : keyKind (Reg.WIN_PL_DM0 + 4) = .win := by decide
@[simp] theorem keyKind_WIN_PRED_MISS_CNT : keyKind (Reg.WIN_PRED_MISS_CNT) = .win := by decide
@[simp] theorem keyKind_WIN_STREAK_CNT : keyKind (Reg.WIN_STREAK_CNT) = .win := by decide
@[simp] theorem keyKind_WIN_UNINSP_CNT : keyKind (Reg.WIN_UNINSP_CNT) = .win := by decide
@[simp] theorem pageKind_CLK_IOCAL_CTRL : pageKind ((Reg.CLK_IOCAL_CTRL) / 0x1000) = .clk := by decide
@[simp] theorem pageKind_FAN_CFG (j : Nat) : pageKind ((Reg.FAN_CFG j) / 0x1000) = .fan := by
  have hj : j % 4 < 4 := Nat.mod_lt _ (by decide)
  rw [show (Reg.FAN_CFG j) / 0x1000 = 0x004 by simp only [Reg.FAN_CFG]; omega]
  decide
@[simp] theorem pageKind_GLB_HOLD_REL : pageKind ((Reg.GLB_HOLD_REL) / 0x1000) = .glb := by decide
@[simp] theorem pageKind_GLB_RST : pageKind ((Reg.GLB_RST) / 0x1000) = .glb := by decide
@[simp] theorem pageKind_GLN_CTRL : pageKind ((Reg.GLN_CTRL) / 0x1000) = .gln := by decide
@[simp] theorem pageKind_GLN_CTRL4 : pageKind ((Reg.GLN_CTRL + 4) / 0x1000) = .gln := by decide
@[simp] theorem pageKind_GLZ_BAND : pageKind ((Reg.GLZ_BAND) / 0x1000) = .glz := by decide
@[simp] theorem pageKind_HIF_CTRL : pageKind ((Reg.HIF_CTRL) / 0x1000) = .hif := by decide
@[simp] theorem pageKind_HLK_CTRL (i : Nat) : pageKind ((Reg.HLK_CTRL i) / 0x1000) = .hlk := by
  have hi : i % 64 < 64 := Nat.mod_lt _ (by decide)
  rw [show (Reg.HLK_CTRL i) / 0x1000 = 0x0D1 + i % 64 by simp only [Reg.HLK_CTRL]; omega]
  exact pageKind_hlk _ hi
@[simp] theorem pageKind_HLK_FAULT (i : Nat) : pageKind ((Reg.HLK_FAULT i) / 0x1000) = .hlk := by
  have hi : i % 64 < 64 := Nat.mod_lt _ (by decide)
  rw [show (Reg.HLK_FAULT i) / 0x1000 = 0x0D1 + i % 64 by simp only [Reg.HLK_FAULT]; omega]
  exact pageKind_hlk _ hi
@[simp] theorem pageKind_IPL_C_CTRL (i : Nat) : pageKind ((Reg.IPL_C_CTRL i) / 0x1000) = .iplP := by
  have hi : i % 4 < 4 := Nat.mod_lt _ (by decide)
  rw [show (Reg.IPL_C_CTRL i) / 0x1000 = 0x131 + i % 4 by simp only [Reg.IPL_C_CTRL]; omega]
  exact pageKind_iplP _ hi
@[simp] theorem pageKind_KLN_P_APPLY_CTRL (i : Nat) : pageKind ((Reg.KLN_P_APPLY_CTRL i) / 0x1000) = .klnP := by
  have hi : i % 16 < 16 := Nat.mod_lt _ (by decide)
  rw [show (Reg.KLN_P_APPLY_CTRL i) / 0x1000 = 0x0C1 + i % 16 by simp only [Reg.KLN_P_APPLY_CTRL]; omega]
  exact pageKind_klnP _ hi
@[simp] theorem pageKind_KLN_TRIP_CLR : pageKind ((Reg.KLN_TRIP_CLR) / 0x1000) = .klnC := by decide
@[simp] theorem pageKind_MOT_A_FAULT (i : Nat) : pageKind ((Reg.MOT_A_FAULT i) / 0x1000) = .motA := by
  have hi : i % 8 < 8 := Nat.mod_lt _ (by decide)
  rw [show (Reg.MOT_A_FAULT i) / 0x1000 = 0x121 + i % 8 by simp only [Reg.MOT_A_FAULT]; omega]
  exact pageKind_motA _ hi
@[simp] theorem pageKind_PIF_C_CTRL (i : Nat) : pageKind ((Reg.PIF_C_CTRL i) / 0x1000) = .pifCh := by
  have hi : i % 4 < 4 := Nat.mod_lt _ (by decide)
  rw [show (Reg.PIF_C_CTRL i) / 0x1000 = 0x112 + i % 4 by simp only [Reg.PIF_C_CTRL]; omega]
  exact pageKind_pifCh _ hi
@[simp] theorem pageKind_PIF_C_IDX_PERIOD (i : Nat) : pageKind ((Reg.PIF_C_IDX_PERIOD i) / 0x1000) = .pifCh := by
  have hi : i % 4 < 4 := Nat.mod_lt _ (by decide)
  rw [show (Reg.PIF_C_IDX_PERIOD i) / 0x1000 = 0x112 + i % 4 by simp only [Reg.PIF_C_IDX_PERIOD]; omega]
  exact pageKind_pifCh _ hi
@[simp] theorem pageKind_PIF_C_IDX_PERIOD4 (i : Nat) : pageKind ((Reg.PIF_C_IDX_PERIOD i + 4) / 0x1000) = .pifCh := by
  have hi : i % 4 < 4 := Nat.mod_lt _ (by decide)
  rw [show (Reg.PIF_C_IDX_PERIOD i + 4) / 0x1000 = 0x112 + i % 4 by simp only [Reg.PIF_C_IDX_PERIOD]; omega]
  exact pageKind_pifCh _ hi
@[simp] theorem pageKind_TIL_SPLIT_BAR : pageKind ((Reg.TIL_SPLIT_BAR) / 0x1000) = .tilC := by decide
@[simp] theorem pageKind_TIM_CTRL : pageKind ((Reg.TIM_CTRL) / 0x1000) = .tim := by decide
@[simp] theorem pageKind_TIM_WR_CTRL : pageKind ((Reg.TIM_WR_CTRL) / 0x1000) = .tim := by decide
@[simp] theorem pageKind_TRM_CTRL : pageKind ((Reg.TRM_CTRL) / 0x1000) = .trm := by decide
@[simp] theorem pageKind_WIN_PL_DM0 : pageKind ((Reg.WIN_PL_DM0) / 0x1000) = .win := by decide
@[simp] theorem pageKind_WIN_PL_DM04 : pageKind ((Reg.WIN_PL_DM0 + 4) / 0x1000) = .win := by decide
@[simp] theorem pageKind_pgCal : pageKind pgCal = .cal := by decide
@[simp] theorem pageKind_pgClk : pageKind pgClk = .clk := by decide
@[simp] theorem pageKind_pgCrk : pageKind pgCrk = .crk := by decide
@[simp] theorem pageKind_pgFan : pageKind pgFan = .fan := by decide
@[simp] theorem pageKind_pgGlb : pageKind pgGlb = .glb := by decide
@[simp] theorem pageKind_pgGln : pageKind pgGln = .gln := by decide
@[simp] theorem pageKind_pgGlz : pageKind pgGlz = .glz := by decide
@[simp] theorem pageKind_pgHif : pageKind pgHif = .hif := by decide
@[simp] theorem pageKind_pgIplC : pageKind pgIplC = .iplC := by decide
@[simp] theorem pageKind_pgKlnC : pageKind pgKlnC = .klnC := by decide
@[simp] theorem pageKind_pgMil : pageKind pgMil = .mil := by decide
@[simp] theorem pageKind_pgMotC : pageKind pgMotC = .motC := by decide
@[simp] theorem pageKind_pgPifC : pageKind pgPifC = .pifC := by decide
@[simp] theorem pageKind_pgPwr : pageKind pgPwr = .pwr := by decide
@[simp] theorem pageKind_pgSag : pageKind pgSag = .sag := by decide
@[simp] theorem pageKind_pgStk : pageKind pgStk = .stk := by decide
@[simp] theorem pageKind_pgThm : pageKind pgThm = .thm := by decide
@[simp] theorem pageKind_pgThr : pageKind pgThr = .thr := by decide
@[simp] theorem pageKind_pgTilC : pageKind pgTilC = .tilC := by decide
@[simp] theorem pageKind_pgTim : pageKind pgTim = .tim := by decide
@[simp] theorem pageKind_pgTly : pageKind pgTly = .tly := by decide
@[simp] theorem pageKind_pgTrm : pageKind pgTrm = .trm := by decide
@[simp] theorem pageKind_pgWin : pageKind pgWin = .win := by decide
@[simp] theorem keyKind_advReg (b : Bool) : keyKind (advReg b) = .trm := by cases b <;> decide
@[simp] theorem keyKind_wkey4 (k i : Nat) : keyKind (wkey k i + 4) = keyKind (k + 4) := by
  simp only [keyKind, keyAddr, wkey]
  congr 2
  omega

end Sys2Proof.Machine
end

