-- ==== Sys2Proof/Laws/KeepsOps.lean ====
section
/-! SUPPORT. What the operations of Machine/Ops.lean change, and what they keep. -/

namespace Sys2Proof.Machine
open Sys2Proof

theorem emit_keeps {ps : List Part} {σ : State} (o : Out) (s : State)
    (hp : ∀ p ∈ [Part.out], p ∈ ps) (h : Keeps ps σ s) : Keeps ps σ (emit o s) := by
  unfold emit
  refine Keeps.set_out (hp _ (by decide)) ?_
  exact h

theorem wn_keeps {ps : List Part} {σ : State} (k : Nat) (v : Nat) (s : State)
    (hp : ∀ p ∈ [Part.reg (keyKind k)], p ∈ ps) (h : Keeps ps σ s) : Keeps ps σ (wn k v s) := by
  unfold wn
  refine wr_keeps _ _ _ (Keeps.sub (by simp) hp) ?_
  exact h

theorem inc_keeps {ps : List Part} {σ : State} (k : Nat) (n : Nat) (s : State)
    (hp : ∀ p ∈ [Part.reg (keyKind k)], p ∈ ps) (h : Keeps ps σ s) : Keeps ps σ (inc k n s) := by
  unfold inc
  refine wn_keeps _ _ _ (Keeps.sub (by simp) hp) ?_
  exact h

theorem wn64_keeps {ps : List Part} {σ : State} (k : Nat) (v : Nat) (s : State)
    (hp : ∀ p ∈ [Part.reg (keyKind (k + 4)), Part.reg (keyKind k)], p ∈ ps) (h : Keeps ps σ s) : Keeps ps σ (wn64 k v s) := by
  unfold wn64
  refine wn_keeps _ _ _ (Keeps.sub (by simp) hp) ?_
  refine wn_keeps _ _ _ (Keeps.sub (by simp) hp) ?_
  exact h

theorem inc64_keeps {ps : List Part} {σ : State} (k : Nat) (n : Nat) (s : State)
    (hp : ∀ p ∈ [Part.reg (keyKind (k + 4)), Part.reg (keyKind k)], p ∈ ps) (h : Keeps ps σ s) : Keeps ps σ (inc64 k n s) := by
  unfold inc64
  refine wn64_keeps _ _ _ (Keeps.sub (by simp) hp) ?_
  exact h

theorem wf_keeps {ps : List Part} {σ : State} (k : Nat) (hi : Nat) (lo : Nat) (v : Nat) (s : State)
    (hp : ∀ p ∈ [Part.reg (keyKind k)], p ∈ ps) (h : Keeps ps σ s) : Keeps ps σ (wf k hi lo v s) := by
  unfold wf
  refine wn_keeps _ _ _ (Keeps.sub (by simp) hp) ?_
  exact h

theorem updPage_keeps {ps : List Part} {σ : State} (n : Nat) (f : Page → Page) (s : State)
    (hp : ∀ p ∈ [Part.reg (pageKind n)], p ∈ ps) (h : Keeps ps σ s) : Keeps ps σ (updPage n f s) := by
  unfold updPage
  refine putPage_keeps _ _ _ (Keeps.sub (by simp) hp) ?_
  exact h

theorem msixSend_keeps {ps : List Part} {σ : State} (v : Nat) (s : State)
    (hp : ∀ p ∈ [Part.msix, Part.out], p ∈ ps) (h : Keeps ps σ s) : Keeps ps σ (msixSend v s) := by
  unfold msixSend
  refine Keeps.ite (fun _ => ?_) fun _ => ?_
  · refine Keeps.set_hif (Or.inr rfl) (Or.inl (hp _ (by decide))) (Or.inr rfl) ?_
    exact h
  · refine emit_keeps _ _ (Keeps.sub (by decide) hp) ?_
    exact h

theorem setPageIrq_keeps {ps : List Part} {σ : State} (n : Nat) (p' : Page) (s : State)
    (hp : ∀ p ∈ [Part.reg (pageKind n), Part.msix, Part.out], p ∈ ps) (h : Keeps ps σ s) : Keeps ps σ (setPageIrq n p' s) := by
  unfold setPageIrq
  refine Keeps.ite (fun _ => ?_) fun _ => ?_
  · refine msixSend_keeps _ _ (Keeps.sub (by simp) hp) ?_
    refine putPage_keeps _ _ _ (Keeps.sub (by simp) hp) ?_
    exact h
  · refine putPage_keeps _ _ _ (Keeps.sub (by simp) hp) ?_
    exact h

theorem raiseBits_keeps {ps : List Part} {σ : State} (n : Nat) (b : Word) (s : State)
    (hp : ∀ p ∈ [Part.reg (pageKind n), Part.msix, Part.out], p ∈ ps) (h : Keeps ps σ s) : Keeps ps σ (raiseBits n b s) := by
  unfold raiseBits
  refine setPageIrq_keeps _ _ _ (Keeps.sub (by simp) hp) ?_
  exact h

theorem raiseIrq_keeps {ps : List Part} {σ : State} (n : Nat) (bit : Nat) (s : State)
    (hp : ∀ p ∈ [Part.reg (pageKind n), Part.msix, Part.out], p ∈ ps) (h : Keeps ps σ s) : Keeps ps σ (raiseIrq n bit s) := by
  unfold raiseIrq
  refine raiseBits_keeps _ _ _ (Keeps.sub (by simp) hp) ?_
  exact h

theorem recordErr_keeps {ps : List Part} {σ : State} (n : Nat) (code : Nat) (s : State)
    (hp : ∀ p ∈ [Part.reg (pageKind n), Part.msix, Part.out], p ∈ ps) (h : Keeps ps σ s) : Keeps ps σ (recordErr n code s) := by
  unfold recordErr
  refine raiseIrq_keeps _ _ _ (Keeps.sub (by simp) hp) ?_
  refine updPage_keeps _ _ _ (Keeps.sub (by simp) hp) ?_
  exact h

theorem putRing_keeps {ps : List Part} {σ : State} (n : Nat) (r : Ring) (s : State)
    (hp : ∀ p ∈ [Part.rings], p ∈ ps) (h : Keeps ps σ s) : Keeps ps σ (putRing n r s) := by
  unfold putRing
  refine Keeps.set_hif (Or.inl (hp _ (by decide))) (Or.inr rfl) (Or.inr rfl) ?_
  exact h

theorem updRing_keeps {ps : List Part} {σ : State} (n : Nat) (f : Ring → Ring) (s : State)
    (hp : ∀ p ∈ [Part.rings], p ∈ ps) (h : Keeps ps σ s) : Keeps ps σ (updRing n f s) := by
  unfold updRing
  refine putRing_keeps _ _ _ (Keeps.sub (by decide) hp) ?_
  exact h

theorem stookWrote_keeps {ps : List Part} {σ : State} (n : Nat) (s : State)
    (hp : ∀ p ∈ [Part.reg .stk, Part.stk], p ∈ ps) (h : Keeps ps σ s) : Keeps ps σ (stookWrote n s) := by
  unfold stookWrote
  refine inc64_keeps _ _ _ (Keeps.sub (by decide) hp) ?_
  refine Keeps.set_stk (hp _ (by decide)) ?_
  exact h

theorem writeback_keeps {ps : List Part} {σ : State} (n : Nat) (s : State)
    (hp : ∀ p ∈ [Part.out, Part.reg .stk, Part.rings, Part.stk], p ∈ ps) (h : Keeps ps σ s) : Keeps ps σ (writeback n s) := by
  unfold writeback
  refine Keeps.ite (fun _ => ?_) fun _ => ?_
  · extract_lets σ1 σ2 σ3
    have hσ3 : Keeps ps σ σ3 := by
      unfold σ3
      refine emit_keeps _ _ (Keeps.sub (by decide) hp) ?_
      refine putRing_keeps _ _ _ (Keeps.sub (by decide) hp) ?_
      exact h
    refine Keeps.ite (fun _ => ?_) fun _ => ?_
    · exact hσ3
    · refine stookWrote_keeps _ _ (Keeps.sub (by decide) hp) ?_
      exact hσ3
  · exact h

theorem signalRing_keeps {ps : List Part} {σ : State} (n : Nat) (s : State)
    (hp : ∀ p ∈ [Part.msix, Part.out, Part.reg .stk, Part.rings, Part.stk], p ∈ ps) (h : Keeps ps σ s) : Keeps ps σ (signalRing n s) := by
  unfold signalRing
  extract_lets σ1
  have hσ1 : Keeps ps σ σ1 := by
    unfold σ1
    refine writeback_keeps _ _ (Keeps.sub (by decide) hp) ?_
    exact h
  refine msixSend_keeps _ _ (Keeps.sub (by decide) hp) ?_
  refine updRing_keeps _ _ _ (Keeps.sub (by decide) hp) ?_
  exact hσ1

theorem postRecords_keeps {ps : List Part} {σ : State} (n : Nat) (rs : List Record) (s : State)
    (hp : ∀ p ∈ [Part.msix, Part.out, Part.reg .stk, Part.rings, Part.stk], p ∈ ps) (h : Keeps ps σ s) : Keeps ps σ (postRecords n rs s) := by
  unfold postRecords
  extract_lets σ1 σ2 σ3
  have hσ1 : Keeps ps σ σ1 := by
    unfold σ1
    refine updRing_keeps _ _ _ (Keeps.sub (by decide) hp) ?_
    exact h
  have hσ3 : Keeps ps σ σ3 := by
    unfold σ3
    refine Keeps.ite (fun _ => ?_) fun _ => ?_
    · exact hσ1
    · refine stookWrote_keeps _ _ (Keeps.sub (by decide) hp) ?_
      exact hσ1
  refine Keeps.ite (fun _ => ?_) fun _ => ?_
  · refine signalRing_keeps _ _ (Keeps.sub (by decide) hp) ?_
    exact hσ3
  · exact hσ3

theorem dropEvent_keeps {ps : List Part} {σ : State} (e : Event) (n : Nat) (s : State)
    (hp : ∀ p ∈ [Part.msix, Part.out, Part.reg .stk, Part.rings], p ∈ ps) (h : Keeps ps σ s) : Keeps ps σ (dropEvent e n s) := by
  unfold dropEvent
  refine raiseIrq_keeps _ _ _ (Keeps.sub (by decide) hp) ?_
  refine inc_keeps _ _ _ (Keeps.sub (by decide) hp) ?_
  refine updRing_keeps _ _ _ (Keeps.sub (by decide) hp) ?_
  exact h

theorem acceptEvent_keeps {ps : List Part} {σ : State} (code : Nat) (alarm : Bool) (commit : Bool) (tenant : Option Nat) (payload : List Byte) (s : State)
    (hp : ∀ p ∈ [Part.msix, Part.out, Part.reg .stk, Part.rings, Part.stk], p ∈ ps) (h : Keeps ps σ s) : Keeps ps σ (acceptEvent code alarm commit tenant payload s) := by
  unfold acceptEvent
  extract_lets σ1 σ2 σ3
  have hσ2 : Keeps ps σ σ2 := by
    unfold σ2
    refine wr_keeps _ _ _ (Keeps.sub (by decide) hp) ?_
    exact h
  refine Keeps.ite (fun _ => ?_) fun _ => ?_
  · refine Keeps.set_stk (hp _ (by decide)) ?_
    exact hσ2
  · refine Keeps.foldl ?_ ?_
    · intro τ4 χ5 hτ6
      refine dropEvent_keeps _ _ _ (Keeps.sub (by decide) hp) ?_
      exact hτ6
    · exact hσ2

theorem event_keeps {ps : List Part} {σ : State} (code : Nat) (tenant : Option Nat) (payload : List Byte) (s : State)
    (hp : ∀ p ∈ [Part.msix, Part.out, Part.reg .stk, Part.rings, Part.stk], p ∈ ps) (h : Keeps ps σ s) : Keeps ps σ (event code tenant payload s) := by
  unfold event
  refine acceptEvent_keeps _ _ _ _ _ _ (Keeps.sub (by decide) hp) ?_
  exact h

theorem raiseAlarm_keeps {ps : List Part} {σ : State} (i : Nat) (tenant : Option Nat) (payload : List Byte) (s : State)
    (hp : ∀ p ∈ [Part.msix, Part.out, Part.reg .stk, Part.rings, Part.stk], p ∈ ps) (h : Keeps ps σ s) : Keeps ps σ (raiseAlarm i tenant payload s) := by
  unfold raiseAlarm
  extract_lets σ1 σ2 σ3 σ4
  have hσ4 : Keeps ps σ σ4 := by
    unfold σ4
    refine Keeps.set_stk (hp _ (by decide)) ?_
    exact h
  split
  · refine acceptEvent_keeps _ _ _ _ _ _ (Keeps.sub (by decide) hp) ?_
    refine raiseIrq_keeps _ _ _ (Keeps.sub (by decide) hp) ?_
    exact hσ4
  · extract_lets σ5
    refine acceptEvent_keeps _ _ _ _ _ _ (Keeps.sub (by decide) hp) ?_
    refine Keeps.set_stk (hp _ (by decide)) ?_
    exact h

theorem hostWrites_keeps {ps : List Part} {σ : State} (ws : List (Nat × List Byte)) (s : State)
    (hp : ∀ p ∈ [Part.out], p ∈ ps) (h : Keeps ps σ s) : Keeps ps σ (hostWrites ws s) := by
  unfold hostWrites
  refine Keeps.foldl ?_ ?_
  · intro τ1 χ2 hτ3
    refine emit_keeps _ _ (Keeps.sub (by decide) hp) ?_
    exact hτ3
  · exact h

theorem unpark_keeps {ps : List Part} {σ : State} (h : Hdr) (s : State)
    (hp : ∀ p ∈ [Part.fw], p ∈ ps) (hs : Keeps ps σ s) : Keeps ps σ (unpark h s) := by
  unfold unpark
  refine Keeps.set_fw (hp _ (by decide)) ?_
  exact hs

theorem holdCpl_keeps {ps : List Part} {σ : State} (x : HeldCpl) (s : State)
    (hp : ∀ p ∈ [Part.fw], p ∈ ps) (h : Keeps ps σ s) : Keeps ps σ (holdCpl x s) := by
  unfold holdCpl
  refine Keeps.set_fw (hp _ (by decide)) ?_
  exact h

theorem completeWith_keeps {ps : List Part} {σ : State} (ws : List (Nat × List Byte)) (h : Hdr) (status : Nat) (result : Nat) (s : State)
    (hp : ∀ p ∈ [Part.fw, Part.msix, Part.out, Part.reg .stk, Part.rings, Part.stk], p ∈ ps) (hs : Keeps ps σ s) : Keeps ps σ (completeWith ws h status result s) := by
  unfold completeWith
  extract_lets σ1 σ2
  have hσ1 : Keeps ps σ σ1 := by
    unfold σ1
    refine unpark_keeps _ _ (Keeps.sub (by decide) hp) ?_
    exact hs
  refine Keeps.ite (fun _ => ?_) fun _ => ?_
  · refine Keeps.ite (fun _ => ?_) fun _ => ?_
    · refine hostWrites_keeps _ _ (Keeps.sub (by decide) hp) ?_
      exact hσ1
    · refine holdCpl_keeps _ _ (Keeps.sub (by decide) hp) ?_
      exact hσ1
  · refine Keeps.ite (fun _ => ?_) fun _ => ?_
    · refine postRecords_keeps _ _ _ (Keeps.sub (by decide) hp) ?_
      refine hostWrites_keeps _ _ (Keeps.sub (by decide) hp) ?_
      exact hσ1
    · refine holdCpl_keeps _ _ (Keeps.sub (by decide) hp) ?_
      exact hσ1

theorem complete_keeps {ps : List Part} {σ : State} (h : Hdr) (status : Nat) (result : Nat) (s : State)
    (hp : ∀ p ∈ [Part.fw, Part.msix, Part.out, Part.reg .stk, Part.rings, Part.stk], p ∈ ps) (hs : Keeps ps σ s) : Keeps ps σ (complete h status result s) := by
  unfold complete
  refine completeWith_keeps _ _ _ _ _ (Keeps.sub (by decide) hp) ?_
  exact hs

theorem fail_keeps {ps : List Part} {σ : State} (h : Hdr) (status : Nat) (s : State)
    (hp : ∀ p ∈ [Part.fw, Part.msix, Part.out, Part.reg .stk, Part.rings, Part.stk], p ∈ ps) (hs : Keeps ps σ s) : Keeps ps σ (fail h status s) := by
  unfold fail
  refine complete_keeps _ _ _ _ (Keeps.sub (by decide) hp) ?_
  exact hs

theorem ok_keeps {ps : List Part} {σ : State} (h : Hdr) (result : Nat) (s : State)
    (hp : ∀ p ∈ [Part.fw, Part.msix, Part.out, Part.reg .stk, Part.rings, Part.stk], p ∈ ps) (hs : Keeps ps σ s) : Keeps ps σ (ok h result s) := by
  unfold ok
  refine complete_keeps _ _ _ _ (Keeps.sub (by decide) hp) ?_
  exact hs

theorem output_keeps {ps : List Part} {σ : State} (h : Hdr) (addr : Nat) (len : Nat) (result : Nat) (bs : List Byte) (s : State)
    (hp : ∀ p ∈ [Part.fw, Part.msix, Part.out, Part.reg .stk, Part.rings, Part.stk], p ∈ ps) (hs : Keeps ps σ s) : Keeps ps σ (output h addr len result bs s) := by
  unfold output
  refine Keeps.ite (fun _ => ?_) fun _ => ?_
  · refine complete_keeps _ _ _ _ (Keeps.sub (by decide) hp) ?_
    exact hs
  · refine completeWith_keeps _ _ _ _ _ (Keeps.sub (by decide) hp) ?_
    exact hs

theorem taken_keeps {ps : List Part} {σ : State} (d : Desc) (s : State)
    (hp : ∀ p ∈ [Part.fw, Part.rings], p ∈ ps) (h : Keeps ps σ s) : Keeps ps σ (taken d s) := by
  unfold taken
  extract_lets σ1 σ2 σ3
  have hσ2 : Keeps ps σ σ2 := by
    unfold σ2
    refine updRing_keeps _ _ _ (Keeps.sub (by decide) hp) ?_
    exact h
  refine Keeps.set_fw (hp _ (by decide)) ?_
  exact hσ2

theorem park_keeps {ps : List Part} {σ : State} (p : Parked) (s : State)
    (hp : ∀ q ∈ [Part.fw], q ∈ ps) (h : Keeps ps σ s) : Keeps ps σ (park p s) := by
  unfold park
  refine Keeps.set_fw (hp _ (by decide)) ?_
  exact h

end Sys2Proof.Machine
end

