-- ==== Sys2Proof/Laws/KeepsTime.lean ====
section
/-! SUPPORT. What the operations of Machine/Time.lean change, and what they keep. -/

namespace Sys2Proof.Machine
open Sys2Proof

theorem drawIn_keeps {ps : List Part} {σ : State} (lo : Int) (hi : Int) (s : State)
    (hp : ∀ p ∈ [Part.free], p ∈ ps) (h : Keeps ps σ s) : Keeps ps σ (drawIn lo hi s).2 := by
  unfold drawIn
  extract_lets σ1
  have hσ12 : Keeps ps σ σ1.2 := by
    unfold σ1
    refine draw_keeps _ _ (Keeps.sub (by decide) hp) ?_
    exact h
  refine Keeps.snd ?_
  exact hσ12

theorem roundUp_keeps {ps : List Part} {σ : State} (whole : Bool) (s : State)
    (hp : ∀ p ∈ [Part.free], p ∈ ps) (h : Keeps ps σ s) : Keeps ps σ (roundUp whole s).2 := by
  unfold roundUp
  refine Keeps.snd ?_
  refine Keeps.ite (fun _ => ?_) fun _ => ?_
  · exact h
  · refine drawIn_keeps _ _ _ (Keeps.sub (by decide) hp) ?_
    exact h

theorem applyStaged_keeps {ps : List Part} {σ : State} (mode : Nat) (s : State)
    (hp : ∀ p ∈ [Part.clock, Part.msix, Part.out, Part.reg .stk, Part.reg .tim, Part.rings, Part.stk], p ∈ ps) (h : Keeps ps σ s) : Keeps ps σ (applyStaged mode s) := by
  unfold applyStaged
  extract_lets σ1 σ2
  refine raiseIrq_keeps _ _ _ (Keeps.sub (by decide) hp) ?_
  refine event_keeps _ _ _ _ (Keeps.sub (by decide) hp) ?_
  refine Keeps.set_clock (hp _ (by decide)) ?_
  exact h

theorem runPress_keeps {ps : List Part} {σ : State} (n : Nat) (slew : Int) (s : State)
    (hp : ∀ p ∈ [Part.clock, Part.msix, Part.out, Part.reg .stk, Part.reg .tim, Part.rings, Part.stk], p ∈ ps) (h : Keeps ps σ s) : Keeps ps σ (runPress n slew s) := by
  unfold runPress
  extract_lets σ1 σ2 σ3 σ4 σ5 σ6
  have hσ3 : Keeps ps σ σ3 := by
    unfold σ3
    refine applyStaged_keeps _ _ (Keeps.sub (by decide) hp) ?_
    exact h
  refine Keeps.ite (fun _ => ?_) fun _ => ?_
  · refine Keeps.set_clock (hp _ (by decide)) ?_
    exact h
  · refine Keeps.ite (fun _ => ?_) fun _ => ?_
    · refine Keeps.set_clock (hp _ (by decide)) ?_
      exact hσ3
    · refine Keeps.set_clock (hp _ (by decide)) ?_
      exact h

theorem refill_keeps {ps : List Part} {σ : State} (n : Nat) (s : State)
    (hp : ∀ p ∈ [Part.stk], p ∈ ps) (h : Keeps ps σ s) : Keeps ps σ (refill n s) := by
  unfold refill
  refine Keeps.set_stk (hp _ (by decide)) ?_
  exact h

theorem passCycles_keeps {ps : List Part} {σ : State} (n : Nat) (s : State)
    (hp : ∀ p ∈ [Part.clock, Part.msix, Part.out, Part.reg .stk, Part.reg .tim, Part.rings, Part.stk], p ∈ ps) (h : Keeps ps σ s) : Keeps ps σ (passCycles n s) := by
  unfold passCycles
  extract_lets σ1 σ2 σ3 σ4 σ5 σ6
  have hσ2 : Keeps ps σ σ2 := by
    unfold σ2
    refine runPress_keeps _ _ _ (Keeps.sub (by decide) hp) ?_
    exact h
  have hσ5 : Keeps ps σ σ5 := by
    unfold σ5
    refine Keeps.ite (fun _ => ?_) fun _ => ?_
    · exact h
    · refine Keeps.set_clock (hp _ (by decide)) ?_
      exact hσ2
  have hσ6 : Keeps ps σ σ6 := by
    unfold σ6
    refine Keeps.ite (fun _ => ?_) fun _ => ?_
    · exact hσ5
    · refine runPress_keeps _ _ _ (Keeps.sub (by decide) hp) ?_
      exact hσ5
  refine refill_keeps _ _ (Keeps.sub (by decide) hp) ?_
  exact hσ6

theorem advanceTo_keeps {ps : List Part} {σ : State} (t : Nat) (s : State)
    (hp : ∀ p ∈ [Part.clock, Part.msix, Part.out, Part.reg .stk, Part.reg .tim, Part.rings, Part.stk], p ∈ ps) (h : Keeps ps σ s) : Keeps ps σ (advanceTo t s) := by
  unfold advanceTo
  refine Keeps.ite (fun _ => ?_) fun _ => ?_
  · exact h
  · extract_lets σ1 σ2 σ3
    have hσ2 : Keeps ps σ σ2 := by
      unfold σ2
      refine passCycles_keeps _ _ (Keeps.sub (by decide) hp) ?_
      exact h
    refine Keeps.set_clock (hp _ (by decide)) ?_
    exact hσ2

theorem fireTick_keeps {ps : List Part} {σ : State} (s : State)
    (hp : ∀ p ∈ [Part.clock, Part.msix, Part.out, Part.reg .stk, Part.reg .tim, Part.rings, Part.stk], p ∈ ps) (h : Keeps ps σ s) : Keeps ps σ (fireTick s) := by
  unfold fireTick
  refine advanceTo_keeps _ _ (Keeps.sub (by decide) hp) ?_
  exact h

end Sys2Proof.Machine
end

