-- ==== Sys2Proof/Laws/KeepsVault.lean ====
section
/-! SUPPORT. What the operations of Machine/Vault.lean change, and what they keep. -/

namespace Sys2Proof.Machine
open Sys2Proof

theorem crkSubmit_keeps {ps : List Part} {σ : State} (b : CrkBody) (cmd : Option Nat) (batch : Option Nat) (s : State)
    (hp : ∀ p ∈ [Part.crk], p ∈ ps) (h : Keeps ps σ s) : Keeps ps σ (crkSubmit b cmd batch s) := by
  unfold crkSubmit
  refine Keeps.ite (fun _ => ?_) fun _ => ?_
  · extract_lets σ1 σ2
    refine Keeps.set_crk (hp _ (by decide)) ?_
    exact h
  · refine Keeps.set_crk (hp _ (by decide)) ?_
    exact h

theorem updTly_keeps {ps : List Part} {σ : State} (i : Nat) (f : TlySlot → TlySlot) (s : State)
    (hp : ∀ p ∈ [Part.tly], p ∈ ps) (h : Keeps ps σ s) : Keeps ps σ (updTly i f s) := by
  unfold updTly
  refine Keeps.set_tly (hp _ (by decide)) ?_
  exact h

theorem setTly_keeps {ps : List Part} {σ : State} (i : Nat) (st : Nat) (s : State)
    (hp : ∀ p ∈ [Part.msix, Part.out, Part.reg .stk, Part.reg .tly, Part.rings, Part.stk, Part.tly], p ∈ ps) (h : Keeps ps σ s) : Keeps ps σ (setTly i st s) := by
  unfold setTly
  extract_lets σ1
  refine Keeps.ite (fun _ => ?_) fun _ => ?_
  · exact h
  · refine raiseIrq_keeps _ _ _ (Keeps.sub (by decide) hp) ?_
    refine event_keeps _ _ _ _ (Keeps.sub (by decide) hp) ?_
    refine updTly_keeps _ _ _ (Keeps.sub (by decide) hp) ?_
    exact h

theorem tallyInk_keeps {ps : List Part} {σ : State} (h : Nat) (v : Nat) (s : State)
    (hp : ∀ p ∈ [Part.msix, Part.out, Part.reg .stk, Part.reg .tly, Part.rings, Part.stk, Part.tly], p ∈ ps) (hs : Keeps ps σ s) : Keeps ps σ (tallyInk h v s) := by
  unfold tallyInk
  refine Keeps.ite (fun _ => ?_) fun _ => ?_
  · exact hs
  · refine Keeps.foldl ?_ ?_
    · intro τ1 χ2 hτ3
      refine Keeps.ite (fun _ => ?_) fun _ => ?_
      · extract_lets σ4 σ5
        have hσ4 : Keeps ps σ σ4 := by
          unfold σ4
          refine updTly_keeps _ _ _ (Keeps.sub (by decide) hp) ?_
          exact hτ3
        refine Keeps.ite (fun _ => ?_) fun _ => ?_
        · refine setTly_keeps _ _ _ (Keeps.sub (by decide) hp) ?_
          exact hσ4
        · exact hσ4
      · exact hτ3
    · exact hs

theorem tallyClose_keeps {ps : List Part} {σ : State} (i : Nat) (s : State)
    (hp : ∀ p ∈ [Part.crk], p ∈ ps) (h : Keeps ps σ s) : Keeps ps σ (tallyClose i s) := by
  unfold tallyClose
  refine crkSubmit_keeps _ _ _ _ (Keeps.sub (by decide) hp) ?_
  exact h

theorem updTenant_keeps {ps : List Part} {σ : State} (t : Nat) (f : Tenant → Tenant) (s : State)
    (hp : ∀ p ∈ [Part.jobs], p ∈ ps) (h : Keeps ps σ s) : Keeps ps σ (updTenant t f s) := by
  unfold updTenant
  refine Keeps.set_jobs (hp _ (by decide)) ?_
  exact h

theorem updSag_keeps {ps : List Part} {σ : State} (t : Nat) (f : SagTenant → SagTenant) (s : State)
    (hp : ∀ p ∈ [Part.sag], p ∈ ps) (h : Keeps ps σ s) : Keeps ps σ (updSag t f s) := by
  unfold updSag
  refine Keeps.set_sag rfl (hp _ (by decide)) ?_
  exact h

theorem persist_keeps {ps : List Part} {σ : State} (t : Nat) (cmd : Option Nat) (batch : Option Nat) (s : State)
    (hp : ∀ p ∈ [Part.crk], p ∈ ps) (h : Keeps ps σ s) : Keeps ps σ (persist t cmd batch s) := by
  unfold persist
  refine crkSubmit_keeps _ _ _ _ (Keeps.sub (by decide) hp) ?_
  exact h

theorem grantUndo_keeps {ps : List Part} {σ : State} (p : Parked) (s : State)
    (hp : ∀ q ∈ [Part.crk, Part.fw, Part.jobs, Part.msix, Part.out, Part.reg .stk, Part.rings, Part.sag, Part.stk], q ∈ ps) (h : Keeps ps σ s) : Keeps ps σ (grantUndo p s) := by
  unfold grantUndo
  split
  · extract_lets σ1 σ2 σ3 σ4 σ5
    have hσ2 : Keeps ps σ σ2 := by
      unfold σ2
      refine updSag_keeps _ _ _ (Keeps.sub (by decide) hp) ?_
      refine updTenant_keeps _ _ _ (Keeps.sub (by decide) hp) ?_
      exact h
    refine persist_keeps _ _ _ _ (Keeps.sub (by decide) hp) ?_
    refine fail_keeps _ _ _ (Keeps.sub (by decide) hp) ?_
    refine Keeps.set_fw_crk (hp _ (by decide)) (hp _ (by decide)) ?_
    exact hσ2
  · exact h

theorem writeCeiling_keeps {ps : List Part} {σ : State} (t : Nat) (c : Word) (s : State)
    (hp : ∀ p ∈ [Part.crk, Part.sag], p ∈ ps) (h : Keeps ps σ s) : Keeps ps σ (writeCeiling t c s) := by
  unfold writeCeiling
  refine Keeps.ite (fun _ => ?_) fun _ => ?_
  · refine updSag_keeps _ _ _ (Keeps.sub (by decide) hp) ?_
    exact h
  · refine Keeps.ite (fun _ => ?_) fun _ => ?_
    · refine persist_keeps _ _ _ _ (Keeps.sub (by decide) hp) ?_
      refine updSag_keeps _ _ _ (Keeps.sub (by decide) hp) ?_
      exact h
    · exact h

theorem ceilingCheck_keeps {ps : List Part} {σ : State} (t : Nat) (s : State)
    (hp : ∀ p ∈ [Part.crk, Part.sag], p ∈ ps) (h : Keeps ps σ s) : Keeps ps σ (ceilingCheck t s) := by
  unfold ceilingCheck
  extract_lets σ1 σ2
  refine Keeps.ite (fun _ => ?_) fun _ => ?_
  · refine writeCeiling_keeps _ _ _ (Keeps.sub (by decide) hp) ?_
    exact h
  · exact h

theorem closeBatch_keeps {ps : List Part} {σ : State} (t : Nat) (s : State)
    (hp : ∀ p ∈ [Part.crk, Part.free, Part.sag], p ∈ ps) (h : Keeps ps σ s) : Keeps ps σ (closeBatch t s) := by
  unfold closeBatch
  extract_lets σ1 σ2 σ3 σ4 σ5 σ6 σ7 σ8 σ9
  have hσ42 : Keeps ps σ σ4.2 := by
    unfold σ4
    refine draw_keeps _ _ (Keeps.sub (by decide) hp) ?_
    exact h
  have hσ7 : Keeps ps σ σ7 := by
    unfold σ7
    refine updSag_keeps _ _ _ (Keeps.sub (by decide) hp) ?_
    exact hσ42
  refine Keeps.ite (fun _ => ?_) fun _ => ?_
  · exact h
  · refine persist_keeps _ _ _ _ (Keeps.sub (by decide) hp) ?_
    refine Keeps.set_sag rfl (hp _ (by decide)) ?_
    exact hσ7

theorem appendReceipt_keeps {ps : List Part} {σ : State} (t : Nat) (slot : Bool) (body : Nat → List Byte) (s : State)
    (hp : ∀ p ∈ [Part.crk, Part.free, Part.msix, Part.out, Part.reg .stk, Part.rings, Part.sag, Part.stk], p ∈ ps) (h : Keeps ps σ s) : Keeps ps σ (appendReceipt t slot body s) := by
  unfold appendReceipt
  extract_lets σ1 σ2 σ3 σ4 σ5
  have hσ4 : Keeps ps σ σ4 := by
    unfold σ4
    split
    · refine Keeps.ite (fun _ => ?_) fun _ => ?_
      · refine event_keeps _ _ _ _ (Keeps.sub (by decide) hp) ?_
        exact h
      · exact h
    · exact h
  have hσ5 : Keeps ps σ σ5 := by
    unfold σ5
    refine updSag_keeps _ _ _ (Keeps.sub (by decide) hp) ?_
    exact hσ4
  refine Keeps.ite (fun _ => ?_) fun _ => ?_
  · refine closeBatch_keeps _ _ (Keeps.sub (by decide) hp) ?_
    exact hσ5
  · exact hσ5

theorem gapReceipt_keeps {ps : List Part} {σ : State} (t : Nat) (s : State)
    (hp : ∀ p ∈ [Part.crk, Part.free, Part.msix, Part.out, Part.reg .stk, Part.rings, Part.sag, Part.stk], p ∈ ps) (h : Keeps ps σ s) : Keeps ps σ (gapReceipt t s) := by
  unfold gapReceipt
  extract_lets σ1 σ2 σ3 σ4
  have hσ4 : Keeps ps σ σ4 := by
    unfold σ4
    refine appendReceipt_keeps _ _ _ _ (Keeps.sub (by decide) hp) ?_
    refine updSag_keeps _ _ _ (Keeps.sub (by decide) hp) ?_
    exact h
  refine Keeps.ite (fun _ => ?_) fun _ => ?_
  · refine event_keeps _ _ _ _ (Keeps.sub (by decide) hp) ?_
    exact hσ4
  · exact h

end Sys2Proof.Machine
end

