-- ==== Sys2Proof/Laws/KeepsRaster.lean ====
section
/-! SUPPORT. What the operations of Machine/Raster.lean change, and what they keep. -/

namespace Sys2Proof.Machine
open Sys2Proof

theorem putPlane_keeps {ps : List Part} {σ : State} (p : Nat) (x : Plane) (s : State)
    (hp : ∀ q ∈ [Part.kln], q ∈ ps) (h : Keeps ps σ s) : Keeps ps σ (putPlane p x s) := by
  unfold putPlane
  refine Keeps.set_kln (hp _ (by decide)) ?_
  exact h

theorem updPlane_keeps {ps : List Part} {σ : State} (p : Nat) (f : Plane → Plane) (s : State)
    (hp : ∀ q ∈ [Part.kln], q ∈ ps) (h : Keeps ps σ s) : Keeps ps σ (updPlane p f s) := by
  unfold updPlane
  refine putPlane_keeps _ _ _ (Keeps.sub (by decide) hp) ?_
  exact h

theorem updCam_keeps {ps : List Part} {σ : State} (k : Nat) (f : CamPort → CamPort) (s : State)
    (hp : ∀ p ∈ [Part.ipl], p ∈ ps) (h : Keeps ps σ s) : Keeps ps σ (updCam k f s) := by
  unfold updCam
  refine Keeps.set_ipl (hp _ (by decide)) ?_
  exact h

theorem noteLatch_keeps {ps : List Part} {σ : State} (n : Nat) (slot : Nat) (s : State)
    (hp : ∀ p ∈ [Part.fw], p ∈ ps) (h : Keeps ps σ s) : Keeps ps σ (noteLatch n slot s) := by
  unfold noteLatch
  extract_lets σ1 σ2
  refine Keeps.set_fw (hp _ (by decide)) ?_
  exact h

theorem splitMoved_keeps {ps : List Part} {σ : State} (n : Nat) (before : State) (s : State)
    (hp : ∀ p ∈ [Part.msix, Part.out, Part.reg .stk, Part.reg .tilC, Part.rings, Part.stk, Part.til], p ∈ ps) (h : Keeps ps σ s) : Keeps ps σ (splitMoved n before s) := by
  unfold splitMoved
  split
  · extract_lets σ1 σ2 σ3 σ4
    have hσ3 : Keeps ps σ σ3 := by
      unfold σ3
      refine inc_keeps _ _ _ (Keeps.sub (by decide) hp) ?_
      exact h
    refine Keeps.ite (fun _ => ?_) fun _ => ?_
    · exact h
    · refine raiseIrq_keeps _ _ _ (Keeps.sub (by decide) hp) ?_
      refine event_keeps _ _ _ _ (Keeps.sub (by decide) hp) ?_
      refine Keeps.set_til rfl (Or.inr ⟨rfl, rfl⟩) (Or.inl (hp _ (by decide))) ?_
      exact hσ3
  · exact h

theorem camApplied_keeps {ps : List Part} {σ : State} (n : Nat) (s : State)
    (hp : ∀ p ∈ [Part.fw, Part.ipl, Part.msix, Part.out, Part.reg .stk, Part.rings, Part.stk], p ∈ ps) (h : Keeps ps σ s) : Keeps ps σ (camApplied n s) := by
  unfold camApplied
  split
  · extract_lets σ1 σ2
    have hσ1 : Keeps ps σ σ1 := by
      unfold σ1
      refine updCam_keeps _ _ _ (Keeps.sub (by decide) hp) ?_
      exact h
    refine Keeps.foldl ?_ ?_
    · intro τ3 χ4 hτ5
      refine complete_keeps _ _ _ _ (Keeps.sub (by decide) hp) ?_
      exact hτ5
    · exact hσ1
  · exact h

theorem notePage_keeps {ps : List Part} {σ : State} (n : Nat) (s : State)
    (hp : ∀ p ∈ [Part.reg (pageKind n)], p ∈ ps) (h : Keeps ps σ s) : Keeps ps σ (notePage n s) := by
  unfold notePage
  extract_lets σ1
  refine Keeps.ite (fun _ => ?_) fun _ => ?_
  · exact h
  · refine putPage_keeps _ _ _ (Keeps.sub (by simp) hp) ?_
    exact h

theorem commitPage_regs {ps : List Part} {s0 s : State} (n : Nat) (vals keep : Tab Word) (hp : Part.reg (pageKind n) ∈ ps)
    (h : Keeps ps s0 s) : Keeps ps s0 { s with regs := { s.regs with
      act := tmerge (tfilter vals (onPage n)) s.regs.act
      shd := tmerge (tfilter keep (onPage n)) (tfilter s.regs.shd fun k => !onPage n k) } } := by
  have hd : ∀ {a : Nat}, keyKind a ≠ pageKind n → onPage n a = false := by
    intro a ha
    exact decide_eq_false fun e => ha (by rw [keyKind, e])
  have hact : ∀ {a : Nat}, keyKind a ≠ pageKind n →
      tfind (tmerge (tfilter vals (onPage n)) s.regs.act) a = tfind s.regs.act a := by
    intro a ha
    rw [tfind_tmerge, tfind_tfilter, hd ha]
    rfl
  refine h.regs (K := pageKind n) hp rfl ⟨rfl, rfl, rfl⟩ (fun a ha => ⟨?_, ?_⟩) fun _ _ => rfl
  · simp only [rd, hact ha]
  · simp only [rdShadow, rd, hact ha, tfind_tmerge, tfind_tfilter, hd ha]
    rfl

theorem commitPage_keeps {ps : List Part} {σ : State} (n slot : Nat) (vals keep : Tab Word) (pend : Bool) (s : State)
    (hp : ∀ p ∈ [Part.reg (pageKind n), Part.fw, Part.ipl, Part.msix, Part.out, Part.reg .stk, Part.reg .tilC, Part.rings, Part.stk, Part.til], p ∈ ps)
    (h : Keeps ps σ s) : Keeps ps σ (commitPage n slot vals keep pend s) := by
  unfold commitPage
  extract_lets p s1 s2
  exact camApplied_keeps _ _ (Keeps.sub (by simp) hp) (noteLatch_keeps _ _ _ (Keeps.sub (by simp) hp)
    (splitMoved_keeps _ _ _ (Keeps.sub (by simp) hp) (acceptEvent_keeps _ _ _ _ _ _ (Keeps.sub (by simp) hp)
      (raiseIrq_keeps _ _ _ (Keeps.sub (by simp) hp) (putPage_keeps _ _ _ (Keeps.sub (by simp) hp)
        (commitPage_regs n vals keep (hp _ (by simp)) h))))))

theorem applyPage_keeps {ps : List Part} {σ : State} (n : Nat) (slot : Nat) (s : State)
    (hp : ∀ p ∈ [Part.reg (pageKind n), Part.fw, Part.ipl, Part.msix, Part.out, Part.reg .stk, Part.reg .tilC, Part.rings, Part.stk, Part.til], p ∈ ps) (h : Keeps ps σ s) : Keeps ps σ (applyPage n slot s) := by
  unfold applyPage
  extract_lets σ1
  refine Keeps.ite (fun _ => ?_) fun _ => ?_
  · refine commitPage_keeps _ _ _ _ _ _ (Keeps.sub (by simp) hp) ?_
    exact h
  · exact h

theorem latchPage_keeps {ps : List Part} {σ : State} (n : Nat) (slot : Nat) (s : State)
    (hp : ∀ p ∈ [Part.reg (pageKind n), Part.fw, Part.ipl, Part.msix, Part.out, Part.reg .stk, Part.reg .tilC, Part.rings, Part.stk, Part.til], p ∈ ps) (h : Keeps ps σ s) : Keeps ps σ (latchPage n slot s) := by
  unfold latchPage
  extract_lets σ1 σ2
  refine Keeps.ite (fun _ => ?_) fun _ => ?_
  · exact h
  · refine Keeps.ite (fun _ => ?_) fun _ => ?_
    · refine commitPage_keeps _ _ _ _ _ _ (Keeps.sub (by simp) hp) ?_
      exact h
    · refine applyPage_keeps _ _ _ (Keeps.sub (by simp) hp) ?_
      exact h

theorem barSplits_keeps {ps : List Part} {σ : State} (skip : List Nat) (s : State)
    (hp : ∀ p ∈ [Part.msix, Part.out, Part.reg .stk, Part.reg .tilC, Part.reg .tilE, Part.rings, Part.stk], p ∈ ps) (h : Keeps ps σ s) : Keeps ps σ (barSplits skip s) := by
  unfold barSplits
  refine Keeps.foldl ?_ ?_
  · intro τ1 χ2 hτ3
    extract_lets σ4 σ5 σ6 σ7
    have hσ7 : Keeps ps σ σ7 := by
      unfold σ7
      refine wn_keeps _ _ _ (Keeps.sub (by simp +zetaDelta) hp) ?_
      refine wn_keeps _ _ _ (Keeps.sub (by simp) hp) ?_
      exact hτ3
    refine Keeps.ite (fun _ => ?_) fun _ => ?_
    · refine wf_keeps _ _ _ _ _ (Keeps.sub (by simp +zetaDelta) hp) ?_
      exact hτ3
    · refine Keeps.ite (fun _ => ?_) fun _ => ?_
      · refine raiseIrq_keeps _ _ _ (Keeps.sub (by decide) hp) ?_
        refine event_keeps _ _ _ _ (Keeps.sub (by decide) hp) ?_
        refine inc_keeps _ _ _ (Keeps.sub (by decide) hp) ?_
        exact hσ7
      · exact hτ3
  · exact h

theorem Keeps.foldl_frame {ps : List Part} {s0 s u : State} {p : Nat} {g : State → Nat → State}
    (hg : ∀ (t : State) (n : Nat), pageKind n = .klnP ∨ pageKind n = .tilE ∨ pageKind n = .hlk → Keeps ps s0 t → Keeps ps s0 (g t n))
    (h : Keeps ps s0 u) : Keeps ps s0 ((framePages s p).foldl g u) := by
  refine Keeps.foldl_mem (fun t n hn ht => hg t n ?_ ht) h
  simp only [framePages, List.mem_cons, List.mem_flatMap, List.not_mem_nil, or_false] at hn
  rcases hn with rfl | ⟨d, -, rfl | rfl | rfl⟩
  · exact Or.inl (pageKind_pgKlnP p)
  · exact Or.inr (Or.inl (pageKind_pgTilE _))
  · exact Or.inr (Or.inl (pageKind_pgTilE _))
  · exact Or.inr (Or.inr (pageKind_pgHlk _))

theorem Keeps.foldl_bar {ps : List Part} {s0 u : State} {g : State → Nat → State}
    (hg : ∀ (t : State) (n : Nat), pageKind n = .tilC ∨ pageKind n = .klnC ∨ pageKind n = .cal → Keeps ps s0 t → Keeps ps s0 (g t n))
    (h : Keeps ps s0 u) : Keeps ps s0 (barPages.foldl g u) := by
  refine Keeps.foldl_mem (fun t n hn ht => hg t n ?_ ht) h
  simp only [barPages, List.mem_cons, List.not_mem_nil, or_false] at hn
  rcases hn with rfl | rfl | rfl <;> decide

theorem barExtras_til {ps : List Part} {s0 s : State} (cs : Tab (List Nat)) (pc : List (Nat × Nat × List Nat))
    (l pa : List (Nat × Nat × List Byte)) (hm : Part.memory ∈ ps) (ht : Part.til ∈ ps) (h : Keeps ps s0 s) :
    Keeps ps s0 { s with til := { s.til with
      curves := cs, pendCurves := pc, arrays := l.foldl (fun m e => memReplace m (e.2.1 * 131072) e.2.2) s.til.arrays,
      pendArrays := pa } } := by
  refine h.trans ⟨fun p hq => ?_, fun hw => ?_, le_rfl, le_rfl⟩
  · cases p with
    | memory => exact absurd hm hq
    | til => exact absurd ht hq
    | reg K => exact ⟨fun _ _ => ⟨rfl, rfl⟩, fun _ _ => rfl⟩
    | entries => exact ⟨rfl, rfl⟩
    | reads => exact ⟨rfl, rfl, rfl⟩
    | _ => exact rfl
  · have hl : ∀ (l : List (Nat × Nat × List Byte)) (m : List Host.Cell), Memory.wf m = true →
        Memory.wf (l.foldl (fun m e => memReplace m (e.2.1 * 131072) e.2.2) m) = true := by
      intro l
      induction l with
      | nil => exact fun _ hm => hm
      | cons e r ih => exact fun m hm => ih _ (memReplace_wf _ _ hm)
    exact hl l _ hw

theorem barExtras_keeps {ps : List Part} {σ : State} (skip : List Nat) (slot : Nat) (s : State)
    (hp : ∀ p ∈ [Part.fw, Part.memory, Part.msix, Part.out, Part.reg .stk, Part.reg .tilC, Part.reg .tilE, Part.rings, Part.stk, Part.til], p ∈ ps) (h : Keeps ps σ s) : Keeps ps σ (barExtras skip slot s) := by
  unfold barExtras
  split
  · exact h
  · extract_lets s1
    exact noteLatch_keeps _ _ _ (Keeps.sub (by decide) hp) (barSplits_keeps _ _ (Keeps.sub (by decide) hp)
      (barExtras_til _ _ _ _ (hp _ (by decide)) (hp _ (by decide)) h))

theorem armBar_keeps {ps : List Part} {σ : State} (s : State)
    (hp : ∀ p ∈ [Part.fw, Part.ipl, Part.kln, Part.memory, Part.msix, Part.out, Part.reg .cal, Part.reg .klnC, Part.reg .stk, Part.reg .tilC, Part.reg .tilE, Part.rings, Part.stk, Part.til], p ∈ ps) (h : Keeps ps σ s) : Keeps ps σ (armBar s) := by
  unfold armBar
  refine Keeps.ite (fun _ => ?_) fun _ => ?_
  · exact h
  · extract_lets σ1 σ2
    refine Keeps.ite (fun _ => ?_) fun _ => ?_
    · refine barExtras_keeps _ _ _ (Keeps.sub (by decide) hp) ?_
      refine Keeps.foldl_bar ?_ ?_
      · intro τ3 χ4 hκ5 hτ6
        refine applyPage_keeps _ _ _ (Keeps.sub (by rcases hκ5 with hκ5 | hκ5 | hκ5 <;> rw [hκ5] <;> decide) hp) ?_
        exact hτ6
      · exact h
    · refine Keeps.set_kln (hp _ (by decide)) ?_
      exact h

theorem barLatch_keeps {ps : List Part} {σ : State} (skip : List Nat) (slot : Nat) (s : State)
    (hp : ∀ p ∈ [Part.fw, Part.ipl, Part.kln, Part.memory, Part.msix, Part.out, Part.reg .cal, Part.reg .klnC, Part.reg .stk, Part.reg .tilC, Part.reg .tilE, Part.rings, Part.stk, Part.til], p ∈ ps) (h : Keeps ps σ s) : Keeps ps σ (barLatch skip slot s) := by
  unfold barLatch
  extract_lets σ1 σ2 σ3 σ4 σ5
  have hσ1 : Keeps ps σ σ1 := by
    unfold σ1
    refine Keeps.foldl_bar ?_ ?_
    · intro τ6 χ7 hκ8 hτ9
      refine latchPage_keeps _ _ _ (Keeps.sub (by rcases hκ8 with hκ8 | hκ8 | hκ8 <;> rw [hκ8] <;> decide) hp) ?_
      exact hτ9
    · exact h
  have hσ2 : Keeps ps σ σ2 := by
    unfold σ2
    refine barExtras_keeps _ _ _ (Keeps.sub (by decide) hp) ?_
    exact hσ1
  have hσ4 : Keeps ps σ σ4 := by
    unfold σ4
    refine inc_keeps _ _ _ (Keeps.sub (by decide) hp) ?_
    refine Keeps.set_kln (hp _ (by decide)) ?_
    exact hσ2
  refine Keeps.ite (fun _ => ?_) fun _ => ?_
  · refine armBar_keeps _ (Keeps.sub (by decide) hp) ?_
    exact hσ4
  · exact hσ4

theorem barLeave_keeps {ps : List Part} {σ : State} (skip : List Nat) (p : Nat) (slot : Nat) (s : State)
    (hp : ∀ q ∈ [Part.fw, Part.ipl, Part.kln, Part.memory, Part.msix, Part.out, Part.reg .cal, Part.reg .klnC, Part.reg .stk, Part.reg .tilC, Part.reg .tilE, Part.rings, Part.stk, Part.til], q ∈ ps) (h : Keeps ps σ s) : Keeps ps σ (barLeave skip p slot s) := by
  unfold barLeave
  refine Keeps.ite (fun _ => ?_) fun _ => ?_
  · extract_lets σ1 σ2 σ3
    have hσ3 : Keeps ps σ σ3 := by
      unfold σ3
      refine Keeps.set_kln (hp _ (by decide)) ?_
      exact h
    refine Keeps.ite (fun _ => ?_) fun _ => ?_
    · refine barLatch_keeps _ _ _ (Keeps.sub (by decide) hp) ?_
      exact hσ3
    · exact hσ3
  · exact h

theorem idleLatch_keeps {ps : List Part} {σ : State} (n : Nat) (s : State)
    (hp : ∀ p ∈ [Part.reg (pageKind n), Part.fw, Part.ipl, Part.msix, Part.out, Part.reg .stk, Part.reg .tilC, Part.rings, Part.stk, Part.til], p ∈ ps) (h : Keeps ps σ s) : Keeps ps σ (idleLatch n s) := by
  unfold idleLatch
  refine Keeps.ite (fun _ => ?_) fun _ => ?_
  · refine applyPage_keeps _ _ _ (Keeps.sub (by simp) hp) ?_
    exact h
  · exact h

theorem deferPage_keeps {ps : List Part} {σ : State} (n : Nat) (s : State)
    (hp : ∀ p ∈ [Part.reg (pageKind n), Part.msix, Part.out, Part.reg .klnP], p ∈ ps) (h : Keeps ps σ s) : Keeps ps σ (deferPage n s) := by
  unfold deferPage
  split
  · refine Keeps.ite (fun _ => ?_) fun _ => ?_
    · refine inc_keeps _ _ _ (Keeps.sub (by simp) hp) ?_
      refine raiseIrq_keeps _ _ _ (Keeps.sub (by simp) hp) ?_
      refine updPage_keeps _ _ _ (Keeps.sub (by simp) hp) ?_
      exact h
    · exact h
  · exact h

theorem pendPage_keeps {ps : List Part} {σ : State} (n : Nat) (s : State)
    (hp : ∀ p ∈ [Part.reg (pageKind n), Part.fw, Part.ipl, Part.kln, Part.memory, Part.msix, Part.out, Part.reg .cal, Part.reg .klnC, Part.reg .stk, Part.reg .tilC, Part.reg .tilE, Part.rings, Part.stk, Part.til], p ∈ ps) (h : Keeps ps σ s) : Keeps ps σ (pendPage n s) := by
  unfold pendPage
  extract_lets σ1
  have hσ1 : Keeps ps σ σ1 := by
    unfold σ1
    refine updPage_keeps _ _ _ (Keeps.sub (by simp) hp) ?_
    refine notePage_keeps _ _ (Keeps.sub (by simp) hp) ?_
    exact h
  refine Keeps.ite (fun _ => ?_) fun _ => ?_
  · refine Keeps.ite (fun _ => ?_) fun _ => ?_
    · exact hσ1
    · refine armBar_keeps _ (Keeps.sub (by simp) hp) ?_
      exact hσ1
  · refine idleLatch_keeps _ _ (Keeps.sub (by simp) hp) ?_
    exact hσ1

theorem rwsWrite_keeps {ps : List Part} {σ : State} (k : Nat) (v : Word) (hw : Bool) (s : State)
    (hp : ∀ p ∈ [Part.reg (keyKind k), Part.fw, Part.ipl, Part.kln, Part.memory, Part.msix, Part.out, Part.reg .cal, Part.reg .klnC, Part.reg .klnP, Part.reg .stk, Part.reg .tilC, Part.reg .tilE, Part.rings, Part.stk, Part.til], p ∈ ps) (h : Keeps ps σ s) : Keeps ps σ (rwsWrite k v hw s) := by
  unfold rwsWrite
  extract_lets σ1 σ2
  have hσ2 : Keeps ps σ σ2 := by
    unfold σ2
    refine wrShadow_keeps _ _ _ (Keeps.sub (by simp) hp) ?_
    refine notePage_keeps _ _ (Keeps.sub (by simp +zetaDelta) hp) ?_
    exact h
  refine pendPage_keeps _ _ (Keeps.sub (by simp +zetaDelta) hp) ?_
  refine Keeps.ite (fun _ => ?_) fun _ => ?_
  · exact hσ2
  · refine deferPage_keeps _ _ (Keeps.sub (by simp +zetaDelta) hp) ?_
    exact hσ2

theorem updCopy_keeps {ps : List Part} {σ : State} (c : Nat) (f : Copy → Copy) (s : State)
    (hp : ∀ p ∈ [Part.jobs], p ∈ ps) (h : Keeps ps σ s) : Keeps ps σ (updCopy c f s) := by
  unfold updCopy
  refine Keeps.set_jobs (hp _ (by decide)) ?_
  exact h

theorem flagCopy_keeps {ps : List Part} {σ : State} (c : Option Nat) (f : CopyFlags → CopyFlags) (s : State)
    (hp : ∀ p ∈ [Part.jobs], p ∈ ps) (h : Keeps ps σ s) : Keeps ps σ (flagCopy c f s) := by
  unfold flagCopy
  split
  · refine updCopy_keeps _ _ _ (Keeps.sub (by decide) hp) ?_
    exact h
  · exact h

theorem marCopy_keeps {ps : List Part} {σ : State} (p : Nat) (c : Option Nat) (f : CopyFlags → CopyFlags) (s : State)
    (hp : ∀ q ∈ [Part.jobs], q ∈ ps) (h : Keeps ps σ s) : Keeps ps σ (marCopy p c f s) := by
  unfold marCopy
  refine flagCopy_keeps _ _ _ (Keeps.sub (by decide) hp) ?_
  split
  · refine updCopy_keeps _ _ _ (Keeps.sub (by decide) hp) ?_
    exact h
  · exact h

theorem discardWork_keeps {ps : List Part} {σ : State} (c : Nat) (s : State)
    (hp : ∀ p ∈ [Part.glz, Part.thr], p ∈ ps) (h : Keeps ps σ s) : Keeps ps σ (discardWork c s) := by
  unfold discardWork
  refine Keeps.set_thr_glz (hp _ (by decide)) (hp _ (by decide)) ?_
  exact h

theorem sealCopy_keeps {ps : List Part} {σ : State} (c : Nat) (s : State)
    (hp : ∀ p ∈ [Part.crk, Part.free, Part.glz, Part.jobs, Part.msix, Part.out, Part.reg .stk, Part.rings, Part.sag, Part.stk, Part.thr], p ∈ ps) (h : Keeps ps σ s) : Keeps ps σ (sealCopy c s) := by
  unfold sealCopy
  split
  · extract_lets σ1 σ2 σ3 σ4 σ5 σ6 σ7 σ8 σ9
    have hσ5 : Keeps ps σ σ5 := by
      unfold σ5
      refine updCopy_keeps _ _ _ (Keeps.sub (by decide) hp) ?_
      exact h
    have hσ6 : Keeps ps σ σ6 := by
      unfold σ6
      refine Keeps.ite (fun _ => ?_) fun _ => ?_
      · exact hσ5
      · refine updSag_keeps _ _ _ (Keeps.sub (by decide) hp) ?_
        exact hσ5
    have hσ7 : Keeps ps σ σ7 := by
      unfold σ7
      refine appendReceipt_keeps _ _ _ _ (Keeps.sub (by decide) hp) ?_
      exact hσ6
    have hσ9 : Keeps ps σ σ9 := by
      unfold σ9
      refine discardWork_keeps _ _ (Keeps.sub (by decide) hp) ?_
      refine Keeps.set_jobs (hp _ (by decide)) ?_
      exact hσ7
    refine Keeps.ite (fun _ => ?_) fun _ => ?_
    · exact h
    · refine Keeps.ite (fun _ => ?_) fun _ => ?_
      · exact hσ7
      · refine Keeps.ite (fun _ => ?_) fun _ => ?_
        · exact hσ9
        · refine closeBatch_keeps _ _ (Keeps.sub (by decide) hp) ?_
          exact hσ9
  · exact h

theorem sealVoid_keeps {ps : List Part} {σ : State} (c : Nat) (s : State)
    (hp : ∀ p ∈ [Part.crk, Part.free, Part.glz, Part.jobs, Part.msix, Part.out, Part.reg .stk, Part.rings, Part.sag, Part.stk, Part.thr], p ∈ ps) (h : Keeps ps σ s) : Keeps ps σ (sealVoid c s) := by
  unfold sealVoid
  split
  · refine Keeps.ite (fun _ => ?_) fun _ => ?_
    · refine sealCopy_keeps _ _ (Keeps.sub (by decide) hp) ?_
      refine updCopy_keeps _ _ _ (Keeps.sub (by decide) hp) ?_
      exact h
    · exact h
  · exact h

theorem voidCopy_keeps {ps : List Part} {σ : State} (c : Nat) (corrupt : Bool) (s : State)
    (hp : ∀ p ∈ [Part.crk, Part.free, Part.glz, Part.jobs, Part.kln, Part.msix, Part.out, Part.reg .stk, Part.rings, Part.sag, Part.stk, Part.thr], p ∈ ps) (h : Keeps ps σ s) : Keeps ps σ (voidCopy c corrupt s) := by
  unfold voidCopy
  split
  · refine Keeps.ite (fun _ => ?_) fun _ => ?_
    · extract_lets σ1 σ2 σ3 σ4 σ5
      have hσ2 : Keeps ps σ σ2 := by
        unfold σ2
        refine updCopy_keeps _ _ _ (Keeps.sub (by decide) hp) ?_
        exact h
      have hσ3 : Keeps ps σ σ3 := by
        unfold σ3
        refine updTenant_keeps _ _ _ (Keeps.sub (by decide) hp) ?_
        exact hσ2
      refine sealVoid_keeps _ _ (Keeps.sub (by decide) hp) ?_
      refine discardWork_keeps _ _ (Keeps.sub (by decide) hp) ?_
      refine Keeps.set_kln (hp _ (by decide)) ?_
      exact hσ3
    · exact h
  · exact h

theorem ruleCopy_keeps {ps : List Part} {σ : State} (c : Nat) (s : State)
    (hp : ∀ p ∈ [Part.crk, Part.free, Part.glz, Part.jobs, Part.msix, Part.out, Part.reg .stk, Part.rings, Part.sag, Part.stk, Part.thr], p ∈ ps) (h : Keeps ps σ s) : Keeps ps σ (ruleCopy c s) := by
  unfold ruleCopy
  split
  · refine Keeps.ite (fun _ => ?_) fun _ => ?_
    · refine sealCopy_keeps _ _ (Keeps.sub (by decide) hp) ?_
      refine updCopy_keeps _ _ _ (Keeps.sub (by decide) hp) ?_
      exact h
    · exact h
  · exact h

theorem readyCopy_keeps {ps : List Part} {σ : State} (c : Nat) (s : State)
    (hp : ∀ p ∈ [Part.crk, Part.jobs, Part.sag], p ∈ ps) (h : Keeps ps σ s) : Keeps ps σ (readyCopy c s) := by
  unfold readyCopy
  split
  · refine Keeps.ite (fun _ => ?_) fun _ => ?_
    · extract_lets σ1 σ2
      have hσ1 : Keeps ps σ σ1 := by
        unfold σ1
        refine ceilingCheck_keeps _ _ (Keeps.sub (by decide) hp) ?_
        exact h
      refine Keeps.ite (fun _ => ?_) fun _ => ?_
      · refine updCopy_keeps _ _ _ (Keeps.sub (by decide) hp) ?_
        exact hσ1
      · exact hσ1
    · exact h
  · exact h

theorem refreshReady_keeps {ps : List Part} {σ : State} (s : State)
    (hp : ∀ p ∈ [Part.crk, Part.free, Part.glz, Part.jobs, Part.msix, Part.out, Part.reg .stk, Part.rings, Part.sag, Part.stk, Part.thr], p ∈ ps) (h : Keeps ps σ s) : Keeps ps σ (refreshReady s) := by
  unfold refreshReady
  extract_lets σ1
  have hσ1 : Keeps ps σ σ1 := by
    unfold σ1
    refine Keeps.foldl ?_ ?_
    · intro τ5 χ6 hτ7
      refine sealVoid_keeps _ _ (Keeps.sub (by decide) hp) ?_
      exact hτ7
    · exact h
  refine Keeps.foldl ?_ ?_
  · intro τ2 χ3 hτ4
    refine readyCopy_keeps _ _ (Keeps.sub (by decide) hp) ?_
    exact hτ4
  · exact hσ1

theorem decide1_keeps {ps : List Part} {σ : State} (n : Nat) (d : Decision) (s : State)
    (hp : ∀ p ∈ [Part.kln], p ∈ ps) (h : Keeps ps σ s) : Keeps ps σ (decide1 n d s) := by
  unfold decide1
  refine Keeps.set_kln (hp _ (by decide)) ?_
  exact h

theorem decideSlot_keeps {ps : List Part} {σ : State} (p : Nat) (n : Nat) (s : State)
    (hp : ∀ q ∈ [Part.crk, Part.free, Part.glz, Part.jobs, Part.kln, Part.msix, Part.out, Part.reg .stk, Part.rings, Part.sag, Part.stk, Part.thr], q ∈ ps) (h : Keeps ps σ s) : Keeps ps σ (decideSlot p n s) := by
  unfold decideSlot
  split
  · exact h
  · split
    · refine Keeps.ite (fun _ => ?_) fun _ => ?_
      · extract_lets σ1 σ2 σ3
        refine Keeps.ite (fun _ => ?_) fun _ => ?_
        · refine Keeps.foldl ?_ ?_
          · intro τ4 χ5 hτ6
            refine decide1_keeps _ _ _ (Keeps.sub (by decide) hp) ?_
            exact hτ6
          · refine updCopy_keeps _ _ _ (Keeps.sub (by decide) hp) ?_
            exact h
        · refine decide1_keeps _ _ _ (Keeps.sub (by decide) hp) ?_
          refine voidCopy_keeps _ _ _ (Keeps.sub (by decide) hp) ?_
          exact h
      · refine decide1_keeps _ _ _ (Keeps.sub (by decide) hp) ?_
        exact h
    · refine decide1_keeps _ _ _ (Keeps.sub (by decide) hp) ?_
      exact h

theorem commitCopy_keeps {ps : List Part} {σ : State} (c : Nat) (s : State)
    (hp : ∀ p ∈ [Part.crk, Part.jobs, Part.sag], p ∈ ps) (h : Keeps ps σ s) : Keeps ps σ (commitCopy c s) := by
  unfold commitCopy
  split
  · refine Keeps.ite (fun _ => ?_) fun _ => ?_
    · refine ceilingCheck_keeps _ _ (Keeps.sub (by decide) hp) ?_
      refine updTenant_keeps _ _ _ (Keeps.sub (by decide) hp) ?_
      refine updCopy_keeps _ _ _ (Keeps.sub (by decide) hp) ?_
      exact h
    · exact h
  · exact h

theorem returnCopies_keeps {ps : List Part} {σ : State} (p : Nat) (s : State)
    (hp : ∀ q ∈ [Part.jobs, Part.kln], q ∈ ps) (h : Keeps ps σ s) : Keeps ps σ (returnCopies p s) := by
  unfold returnCopies
  refine Keeps.foldl ?_ ?_
  · intro τ1 χ2 hτ3
    extract_lets σ4 σ5
    refine updCopy_keeps _ _ _ (Keeps.sub (by decide) hp) ?_
    refine Keeps.set_kln (hp _ (by decide)) ?_
    exact hτ3
  · exact h

theorem openWindows_keeps {ps : List Part} {σ : State} (p : Nat) (slot : Nat) (s : State)
    (hp : ∀ q ∈ [Part.kln, Part.msix, Part.out, Part.reg .klnP], q ∈ ps) (h : Keeps ps σ s) : Keeps ps σ (openWindows p slot s) := by
  unfold openWindows
  extract_lets σ1 σ2 σ3 σ4 σ5 σ6
  have hσ6 : Keeps ps σ σ6 := by
    unfold σ6
    refine updPlane_keeps _ _ _ (Keeps.sub (by decide) hp) ?_
    exact h
  refine Keeps.ite (fun _ => ?_) fun _ => ?_
  · refine recordErr_keeps _ _ _ (Keeps.sub (by simp) hp) ?_
    exact hσ6
  · exact hσ6

theorem setPlaneState_keeps {ps : List Part} {σ : State} (p : Nat) (st : PlaneState) (s : State)
    (hp : ∀ q ∈ [Part.kln, Part.msix, Part.out, Part.reg .klnP, Part.reg .stk, Part.rings, Part.stk], q ∈ ps) (h : Keeps ps σ s) : Keeps ps σ (setPlaneState p st s) := by
  unfold setPlaneState
  extract_lets σ1 σ2
  refine Keeps.ite (fun _ => ?_) fun _ => ?_
  · exact h
  · refine raiseIrq_keeps _ _ _ (Keeps.sub (by simp) hp) ?_
    refine event_keeps _ _ _ _ (Keeps.sub (by decide) hp) ?_
    refine updPlane_keeps _ _ _ (Keeps.sub (by decide) hp) ?_
    exact h

theorem pruneInsp_keeps {ps : List Part} {σ : State} (s : State)
    (hp : ∀ p ∈ [Part.win], p ∈ ps) (h : Keeps ps σ s) : Keeps ps σ (pruneInsp s) := by
  unfold pruneInsp
  extract_lets σ1 σ2
  refine Keeps.set_win (hp _ (by decide)) ?_
  exact h

theorem verdict_keeps {ps : List Part} {σ : State} (c : Nat) (uninsp : Bool) (s : State)
    (hp : ∀ p ∈ [Part.crk, Part.free, Part.glz, Part.jobs, Part.msix, Part.out, Part.reg .stk, Part.reg .win, Part.rings, Part.sag, Part.stk, Part.thr, Part.win], p ∈ ps) (h : Keeps ps σ s) : Keeps ps σ (verdict c uninsp s) := by
  unfold verdict
  split
  · refine Keeps.ite (fun _ => ?_) fun _ => ?_
    · extract_lets σ1
      have hσ1 : Keeps ps σ σ1 := by
        unfold σ1
        refine inc_keeps _ _ _ (Keeps.sub (by decide) hp) ?_
        refine Keeps.ite (fun _ => ?_) fun _ => ?_
        · refine inc_keeps _ _ _ (Keeps.sub (by decide) hp) ?_
          exact h
        · exact h
      refine pruneInsp_keeps _ (Keeps.sub (by decide) hp) ?_
      refine ruleCopy_keeps _ _ (Keeps.sub (by decide) hp) ?_
      refine updCopy_keeps _ _ _ (Keeps.sub (by decide) hp) ?_
      exact hσ1
    · exact h
  · exact h

theorem tryRule_keeps {ps : List Part} {σ : State} (c : Nat) (s : State)
    (hp : ∀ p ∈ [Part.crk, Part.free, Part.glz, Part.jobs, Part.msix, Part.out, Part.reg .stk, Part.reg .win, Part.rings, Part.sag, Part.stk, Part.thr, Part.win], p ∈ ps) (h : Keeps ps σ s) : Keeps ps σ (tryRule c s) := by
  unfold tryRule
  split
  · refine Keeps.ite (fun _ => ?_) fun _ => ?_
    · refine verdict_keeps _ _ _ (Keeps.sub (by decide) hp) ?_
      refine Keeps.ite (fun _ => ?_) fun _ => ?_
      · refine inc_keeps _ _ _ (Keeps.sub (by decide) hp) ?_
        exact h
      · exact h
    · exact h
  · exact h

theorem tryRules_keeps {ps : List Part} {σ : State} (s : State)
    (hp : ∀ p ∈ [Part.crk, Part.free, Part.glz, Part.jobs, Part.msix, Part.out, Part.reg .stk, Part.reg .win, Part.rings, Part.sag, Part.stk, Part.thr, Part.win], p ∈ ps) (h : Keeps ps σ s) : Keeps ps σ (tryRules s) := by
  unfold tryRules
  refine Keeps.foldl ?_ ?_
  · intro τ1 χ2 hτ3
    refine tryRule_keeps _ _ (Keeps.sub (by decide) hp) ?_
    exact hτ3
  · exact h

theorem ruleFired_keeps {ps : List Part} {σ : State} (c : Nat) (s : State)
    (hp : ∀ p ∈ [Part.crk, Part.free, Part.glz, Part.jobs, Part.msix, Part.out, Part.reg .stk, Part.reg .win, Part.rings, Part.sag, Part.stk, Part.thr, Part.win], p ∈ ps) (h : Keeps ps σ s) : Keeps ps σ (ruleFired c s) := by
  unfold ruleFired
  split
  · refine Keeps.ite (fun _ => ?_) fun _ => ?_
    · refine verdict_keeps _ _ _ (Keeps.sub (by decide) hp) ?_
      exact h
    · refine tryRule_keeps _ _ (Keeps.sub (by decide) hp) ?_
      exact h
  · exact h

theorem leaveUpstream_keeps {ps : List Part} {σ : State} (c : Nat) (planes : List Nat) (s : State)
    (hp : ∀ p ∈ [Part.glz, Part.thr], p ∈ ps) (h : Keeps ps σ s) : Keeps ps σ (leaveUpstream c planes s) := by
  unfold leaveUpstream
  refine Keeps.ite (fun _ => ?_) fun _ => ?_
  · refine discardWork_keeps _ _ (Keeps.sub (by decide) hp) ?_
    exact h
  · refine Keeps.set_glz (hp _ (by decide)) ?_
    exact h

theorem settleFired_keeps {ps : List Part} {σ : State} (c : Nat) (s : State)
    (hp : ∀ p ∈ [Part.crk, Part.free, Part.glz, Part.jobs, Part.msix, Part.out, Part.reg .stk, Part.reg .win, Part.rings, Part.sag, Part.stk, Part.thr, Part.win], p ∈ ps) (h : Keeps ps σ s) : Keeps ps σ (settleFired c s) := by
  unfold settleFired
  split
  · extract_lets σ1 σ2
    refine Keeps.ite (fun _ => ?_) fun _ => ?_
    · refine ruleFired_keeps _ _ (Keeps.sub (by decide) hp) ?_
      refine leaveUpstream_keeps _ _ _ (Keeps.sub (by decide) hp) ?_
      refine updCopy_keeps _ _ _ (Keeps.sub (by decide) hp) ?_
      exact h
    · exact h
  · exact h

theorem closeFrame_keeps {ps : List Part} {σ : State} (p : Nat) (s : State)
    (hp : ∀ q ∈ [Part.crk, Part.free, Part.glz, Part.jobs, Part.msix, Part.out, Part.reg .stk, Part.reg .win, Part.rings, Part.sag, Part.stk, Part.thr, Part.win], q ∈ ps) (h : Keeps ps σ s) : Keeps ps σ (closeFrame p s) := by
  unfold closeFrame
  split
  · refine Keeps.ite (fun _ => ?_) fun _ => ?_
    · exact h
    · refine settleFired_keeps _ _ (Keeps.sub (by decide) hp) ?_
      refine updCopy_keeps _ _ _ (Keeps.sub (by decide) hp) ?_
      exact h
  · exact h

theorem joinHeads_keeps {ps : List Part} {σ : State} (p : Nat) (t : PlaneTable) (s : State)
    (hp : ∀ q ∈ [Part.entries], q ∈ ps) (h : Keeps ps σ s) : Keeps ps σ (joinHeads p t s) := by
  unfold joinHeads
  extract_lets σ1 σ2
  refine Keeps.foldl ?_ ?_
  · intro τ3 χ4 hτ5
    extract_lets σ6 σ7 σ8
    refine Keeps.set_til rfl (Or.inl (hp _ (by decide))) (Or.inr rfl) ?_
    exact hτ5
  · exact h

theorem latchTable_keeps {ps : List Part} {σ : State} (p : Nat) (slot : Nat) (s : State)
    (hp : ∀ q ∈ [Part.entries, Part.fw, Part.kln], q ∈ ps) (h : Keeps ps σ s) : Keeps ps σ (latchTable p slot s) := by
  unfold latchTable
  extract_lets σ1
  split
  · refine Keeps.ite (fun _ => ?_) fun _ => ?_
    · exact h
    · refine noteLatch_keeps _ _ _ (Keeps.sub (by decide) hp) ?_
      refine updPlane_keeps _ _ _ (Keeps.sub (by decide) hp) ?_
      refine joinHeads_keeps _ _ _ (Keeps.sub (by decide) hp) ?_
      exact h
  · exact h

end Sys2Proof.Machine
end

