-- ==== Sys2Proof/Laws/KeepsAccess.lean ====
section
/-! SUPPORT. What the operations of Machine/Access.lean change, and what they keep. -/

namespace Sys2Proof.Machine
open Sys2Proof

theorem countUnmapped_keeps {ps : List Part} {σ : State} (s : State)
    (hp : ∀ p ∈ [Part.reg .hif], p ∈ ps) (h : Keeps ps σ s) : Keeps ps σ (countUnmapped s) := by
  unfold countUnmapped
  refine inc_keeps _ _ _ (Keeps.sub (by decide) hp) ?_
  exact h

theorem denyWrite_keeps {ps : List Part} {σ : State} (n : Nat) (s : State)
    (hp : ∀ p ∈ [Part.reg (pageKind n), Part.msix, Part.out], p ∈ ps) (h : Keeps ps σ s) : Keeps ps σ (denyWrite n s) := by
  unfold denyWrite
  refine recordErr_keeps _ _ _ (Keeps.sub (by simp) hp) ?_
  refine updPage_keeps _ _ _ (Keeps.sub (by simp) hp) ?_
  exact h

theorem guardAccess_keeps {ps : List Part} {σ : State} (ini : Initiator) (addr : Nat) (be : BitVec 4) (op : State → State) (s : State)
    (h_op : ∀ (t : State), Keeps ps σ t → Keeps ps σ (op t))
    (hp : ∀ p ∈ [Part.reg (pageKind (addr / 4096)), Part.msix, Part.out, Part.reg .hif], p ∈ ps) (h : Keeps ps σ s) : Keeps ps σ (guardAccess ini addr be op s) := by
  unfold guardAccess
  extract_lets σ1
  refine Keeps.ite (fun _ => ?_) fun _ => ?_
  · exact h
  · refine Keeps.ite (fun _ => ?_) fun _ => ?_
    · refine countUnmapped_keeps _ (Keeps.sub (by simp) hp) ?_
      exact h
    · refine Keeps.ite (fun _ => ?_) fun _ => ?_
      · refine recordErr_keeps _ _ _ (Keeps.sub (by simp +zetaDelta) hp) ?_
        exact h
      · refine Keeps.ite (fun _ => ?_) fun _ => ?_
        · refine denyWrite_keeps _ _ (Keeps.sub (by simp +zetaDelta) hp) ?_
          exact h
        · refine Keeps.ite (fun _ => ?_) fun _ => ?_
          · refine recordErr_keeps _ _ _ (Keeps.sub (by simp +zetaDelta) hp) ?_
            exact h
          · refine h_op _ ?_
            exact h

theorem guardWrite_keeps {ps : List Part} {σ : State} (ini : Initiator) (addr : Nat) (be : BitVec 4) (v : Word) (op : Word → State → State) (s : State)
    (h_op : ∀ (x0 : Word) (t : State), Keeps ps σ t → Keeps ps σ (op x0 t))
    (hp : ∀ p ∈ [Part.reg (pageKind (addr / 4096)), Part.msix, Part.out, Part.reg .hif], p ∈ ps) (h : Keeps ps σ s) : Keeps ps σ (guardWrite ini addr be v op s) := by
  unfold guardWrite
  refine guardAccess_keeps _ _ _ _ _ ?_ (Keeps.sub (by simp) hp) ?_
  · intro τ1 hτ2
    refine Keeps.ite (fun _ => ?_) fun _ => ?_
    · refine h_op _ _ ?_
      exact hτ2
    · refine recordErr_keeps _ _ _ (Keeps.sub (by simp) hp) ?_
      exact hτ2
  · exact h

theorem plainPut_keeps {ps : List Part} {σ : State} (addr : Nat) (v : Word) (s : State)
    (hp : ∀ p ∈ [Part.reg (keyKind addr)], p ∈ ps) (h : Keeps ps σ s) : Keeps ps σ (plainPut addr v s) := by
  unfold plainPut
  extract_lets σ1
  split
  · refine Keeps.ite (fun _ => ?_) fun _ => ?_
    · refine wr_keeps _ _ _ (Keeps.sub (by simp +zetaDelta) hp) ?_
      exact h
    · exact h
  · exact h

theorem applyWrite_keeps {ps : List Part} {σ : State} (addr : Nat) (v : Word) (s : State)
    (hp : ∀ p ∈ [Part.reg (keyKind addr), Part.fw, Part.ipl, Part.kln, Part.memory, Part.msix, Part.out, Part.reg .cal, Part.reg .klnC, Part.reg .klnP, Part.reg .stk, Part.reg .tilC, Part.reg .tilE, Part.rings, Part.stk, Part.til], p ∈ ps) (h : Keeps ps σ s) : Keeps ps σ (applyWrite addr v s) := by
  unfold applyWrite
  extract_lets σ1
  split
  · split
    · refine plainPut_keeps _ _ _ (Keeps.sub (by simp) hp) ?_
      exact h
    · refine plainPut_keeps _ _ _ (Keeps.sub (by simp) hp) ?_
      exact h
    · refine rwsWrite_keeps _ _ _ _ (Keeps.sub (by simp +zetaDelta) hp) ?_
      exact h
    · refine Keeps.ite (fun _ => ?_) fun _ => ?_
      · refine rwsWrite_keeps _ _ _ _ (Keeps.sub (by simp +zetaDelta) hp) ?_
        exact h
      · exact h
    · exact h
    · exact h
  · exact h

theorem plainWrite_keeps {ps : List Part} {σ : State} (ini : Initiator) (addr : Nat) (be : BitVec 4) (v : Word) (s : State)
    (hp : ∀ p ∈ [Part.reg (keyKind addr), Part.reg (pageKind (addr / 4096)), Part.fw, Part.ipl, Part.kln, Part.memory, Part.msix, Part.out, Part.reg .cal, Part.reg .hif, Part.reg .klnC, Part.reg .klnP, Part.reg .stk, Part.reg .tilC, Part.reg .tilE, Part.rings, Part.stk, Part.til], p ∈ ps) (h : Keeps ps σ s) : Keeps ps σ (plainWrite ini addr be v s) := by
  unfold plainWrite
  refine guardWrite_keeps _ _ _ _ _ _ ?_ (Keeps.sub (by simp) hp) ?_
  · intro χ1 τ2 hτ3
    refine applyWrite_keeps _ _ _ (Keeps.sub (by simp) hp) ?_
    exact hτ3
  · exact h

theorem clearCounters_keeps {ps : List Part} {s0 : State} (regs : List (List Nat)) (v : Word) (s : State)
    (hp : ∀ p ∈ allRegs, p ∈ ps) (h : Keeps ps s0 s) : Keeps ps s0 (clearCounters regs v s) := by
  unfold clearCounters
  refine Keeps.foldl (fun t x ht => ?_) h
  split
  · refine Keeps.foldl (fun u k hu => wn_keeps _ _ _ (fun p hq => ?_) hu) ht
    rw [List.mem_singleton.mp hq]
    exact hp _ (mem_allRegs _)
  · exact ht

theorem beginRead_keeps {ps : List Part} {s0 : State} (ini : Initiator) (s : State)
    (hp : ∀ p ∈ [Part.reads], p ∈ ps) (h : Keeps ps s0 s) : Keeps ps s0 (beginRead ini s) :=
  h.set_reads (hp _ (by simp))

theorem capture_keeps {ps : List Part} {s0 : State} (ini : Initiator) (k : Nat) (v : Word) (s : State)
    (hp : ∀ p ∈ [Part.reads], p ∈ ps) (h : Keeps ps s0 s) : Keeps ps s0 (capture ini k v s) :=
  h.set_reads (hp _ (by simp))

theorem capture64_keeps {ps : List Part} {σ : State} (ini : Initiator) (k : Nat) (v : Nat) (s : State)
    (hp : ∀ p ∈ [Part.reads], p ∈ ps) (h : Keeps ps σ s) : Keeps ps σ (capture64 ini k v s) := by
  unfold capture64
  refine capture_keeps _ _ _ _ (Keeps.sub (by decide) hp) ?_
  refine capture_keeps _ _ _ _ (Keeps.sub (by decide) hp) ?_
  exact h

theorem guardRead_keeps {ps : List Part} {σ : State} (ini : Initiator) (addr : Nat) (op : State → State) (s : State)
    (h_op : ∀ (t : State), Keeps ps σ t → Keeps ps σ (op t))
    (hp : ∀ p ∈ [Part.reads, Part.reg .hif], p ∈ ps) (h : Keeps ps σ s) : Keeps ps σ (guardRead ini addr op s) := by
  unfold guardRead
  extract_lets σ1
  refine Keeps.ite (fun _ => ?_) fun _ => ?_
  · exact h
  · refine Keeps.ite (fun _ => ?_) fun _ => ?_
    · refine returns_keeps _ _ _ (Keeps.sub (by decide) hp) ?_
      refine countUnmapped_keeps _ (Keeps.sub (by decide) hp) ?_
      exact h
    · refine Keeps.ite (fun _ => ?_) fun _ => ?_
      · refine Keeps.ite (fun _ => ?_) fun _ => ?_
        · refine h_op _ ?_
          exact h
        · refine returns_keeps _ _ _ (Keeps.sub (by decide) hp) ?_
          exact h
      · refine Keeps.ite (fun _ => ?_) fun _ => ?_
        · refine returns_keeps _ _ _ (Keeps.sub (by decide) hp) ?_
          exact h
        · refine h_op _ ?_
          exact h

end Sys2Proof.Machine
end

