-- ==== Sys2Proof/Laws/State.lean ====
section
/-! SUPPORT. What each named update of the state leaves of every field: one equation a field and update. -/

namespace Sys2Proof.Machine
open Sys2Proof

@[simp] theorem wr_pending (k : Nat) (v : Word) (s : State) : (wr k v s).pending = s.pending := rfl
@[simp] theorem wr_free (k : Nat) (v : Word) (s : State) : (wr k v s).free = s.free := rfl
@[simp] theorem wr_out (k : Nat) (v : Word) (s : State) : (wr k v s).out = s.out := rfl
@[simp] theorem wr_pages (k : Nat) (v : Word) (s : State) : (wr k v s).pages = s.pages := rfl
@[simp] theorem wr_clock (k : Nat) (v : Word) (s : State) : (wr k v s).clock = s.clock := rfl
@[simp] theorem wr_hif (k : Nat) (v : Word) (s : State) : (wr k v s).hif = s.hif := rfl
@[simp] theorem wr_stk (k : Nat) (v : Word) (s : State) : (wr k v s).stk = s.stk := rfl
@[simp] theorem wr_fw (k : Nat) (v : Word) (s : State) : (wr k v s).fw = s.fw := rfl
@[simp] theorem wr_jobs (k : Nat) (v : Word) (s : State) : (wr k v s).jobs = s.jobs := rfl
@[simp] theorem wr_thr (k : Nat) (v : Word) (s : State) : (wr k v s).thr = s.thr := rfl
@[simp] theorem wr_mil (k : Nat) (v : Word) (s : State) : (wr k v s).mil = s.mil := rfl
@[simp] theorem wr_glz (k : Nat) (v : Word) (s : State) : (wr k v s).glz = s.glz := rfl
@[simp] theorem wr_til (k : Nat) (v : Word) (s : State) : (wr k v s).til = s.til := rfl
@[simp] theorem wr_kln (k : Nat) (v : Word) (s : State) : (wr k v s).kln = s.kln := rfl
@[simp] theorem wr_ports (k : Nat) (v : Word) (s : State) : (wr k v s).ports = s.ports := rfl
@[simp] theorem wr_pif (k : Nat) (v : Word) (s : State) : (wr k v s).pif = s.pif := rfl
@[simp] theorem wr_mot (k : Nat) (v : Word) (s : State) : (wr k v s).mot = s.mot := rfl
@[simp] theorem wr_pwr (k : Nat) (v : Word) (s : State) : (wr k v s).pwr = s.pwr := rfl
@[simp] theorem wr_crk (k : Nat) (v : Word) (s : State) : (wr k v s).crk = s.crk := rfl
@[simp] theorem wr_sag (k : Nat) (v : Word) (s : State) : (wr k v s).sag = s.sag := rfl
@[simp] theorem wr_tly (k : Nat) (v : Word) (s : State) : (wr k v s).tly = s.tly := rfl
@[simp] theorem wr_trm (k : Nat) (v : Word) (s : State) : (wr k v s).trm = s.trm := rfl
@[simp] theorem wr_clk (k : Nat) (v : Word) (s : State) : (wr k v s).clk = s.clk := rfl
@[simp] theorem wr_thm (k : Nat) (v : Word) (s : State) : (wr k v s).thm = s.thm := rfl
@[simp] theorem wr_fans (k : Nat) (v : Word) (s : State) : (wr k v s).fans = s.fans := rfl
@[simp] theorem wr_ipl (k : Nat) (v : Word) (s : State) : (wr k v s).ipl = s.ipl := rfl
@[simp] theorem wr_win (k : Nat) (v : Word) (s : State) : (wr k v s).win = s.win := rfl
@[simp] theorem wr_gln (k : Nat) (v : Word) (s : State) : (wr k v s).gln = s.gln := rfl
@[simp] theorem wr_cal (k : Nat) (v : Word) (s : State) : (wr k v s).cal = s.cal := rfl
@[simp] theorem wn_pending (k v : Nat) (s : State) : (wn k v s).pending = s.pending := rfl
@[simp] theorem wn_free (k v : Nat) (s : State) : (wn k v s).free = s.free := rfl
@[simp] theorem wn_out (k v : Nat) (s : State) : (wn k v s).out = s.out := rfl
@[simp] theorem wn_pages (k v : Nat) (s : State) : (wn k v s).pages = s.pages := rfl
@[simp] theorem wn_clock (k v : Nat) (s : State) : (wn k v s).clock = s.clock := rfl
@[simp] theorem wn_hif (k v : Nat) (s : State) : (wn k v s).hif = s.hif := rfl
@[simp] theorem wn_stk (k v : Nat) (s : State) : (wn k v s).stk = s.stk := rfl
@[simp] theorem wn_fw (k v : Nat) (s : State) : (wn k v s).fw = s.fw := rfl
@[simp] theorem wn_jobs (k v : Nat) (s : State) : (wn k v s).jobs = s.jobs := rfl
@[simp] theorem wn_thr (k v : Nat) (s : State) : (wn k v s).thr = s.thr := rfl
@[simp] theorem wn_mil (k v : Nat) (s : State) : (wn k v s).mil = s.mil := rfl
@[simp] theorem wn_glz (k v : Nat) (s : State) : (wn k v s).glz = s.glz := rfl
@[simp] theorem wn_til (k v : Nat) (s : State) : (wn k v s).til = s.til := rfl
@[simp] theorem wn_kln (k v : Nat) (s : State) : (wn k v s).kln = s.kln := rfl
@[simp] theorem wn_ports (k v : Nat) (s : State) : (wn k v s).ports = s.ports := rfl
@[simp] theorem wn_pif (k v : Nat) (s : State) : (wn k v s).pif = s.pif := rfl
@[simp] theorem wn_mot (k v : Nat) (s : State) : (wn k v s).mot = s.mot := rfl
@[simp] theorem wn_pwr (k v : Nat) (s : State) : (wn k v s).pwr = s.pwr := rfl
@[simp] theorem wn_crk (k v : Nat) (s : State) : (wn k v s).crk = s.crk := rfl
@[simp] theorem wn_sag (k v : Nat) (s : State) : (wn k v s).sag = s.sag := rfl
@[simp] theorem wn_tly (k v : Nat) (s : State) : (wn k v s).tly = s.tly := rfl
@[simp] theorem wn_trm (k v : Nat) (s : State) : (wn k v s).trm = s.trm := rfl
@[simp] theorem wn_clk (k v : Nat) (s : State) : (wn k v s).clk = s.clk := rfl
@[simp] theorem wn_thm (k v : Nat) (s : State) : (wn k v s).thm = s.thm := rfl
@[simp] theorem wn_fans (k v : Nat) (s : State) : (wn k v s).fans = s.fans := rfl
@[simp] theorem wn_ipl (k v : Nat) (s : State) : (wn k v s).ipl = s.ipl := rfl
@[simp] theorem wn_win (k v : Nat) (s : State) : (wn k v s).win = s.win := rfl
@[simp] theorem wn_gln (k v : Nat) (s : State) : (wn k v s).gln = s.gln := rfl
@[simp] theorem wn_cal (k v : Nat) (s : State) : (wn k v s).cal = s.cal := rfl
@[simp] theorem wrShadow_pending (k : Nat) (v : Word) (s : State) : (wrShadow k v s).pending = s.pending := rfl
@[simp] theorem wrShadow_free (k : Nat) (v : Word) (s : State) : (wrShadow k v s).free = s.free := rfl
@[simp] theorem wrShadow_out (k : Nat) (v : Word) (s : State) : (wrShadow k v s).out = s.out := rfl
@[simp] theorem wrShadow_pages (k : Nat) (v : Word) (s : State) : (wrShadow k v s).pages = s.pages := rfl
@[simp] theorem wrShadow_clock (k : Nat) (v : Word) (s : State) : (wrShadow k v s).clock = s.clock := rfl
@[simp] theorem wrShadow_hif (k : Nat) (v : Word) (s : State) : (wrShadow k v s).hif = s.hif := rfl
@[simp] theorem wrShadow_stk (k : Nat) (v : Word) (s : State) : (wrShadow k v s).stk = s.stk := rfl
@[simp] theorem wrShadow_fw (k : Nat) (v : Word) (s : State) : (wrShadow k v s).fw = s.fw := rfl
@[simp] theorem wrShadow_jobs (k : Nat) (v : Word) (s : State) : (wrShadow k v s).jobs = s.jobs := rfl
@[simp] theorem wrShadow_thr (k : Nat) (v : Word) (s : State) : (wrShadow k v s).thr = s.thr := rfl
@[simp] theorem wrShadow_mil (k : Nat) (v : Word) (s : State) : (wrShadow k v s).mil = s.mil := rfl
@[simp] theorem wrShadow_glz (k : Nat) (v : Word) (s : State) : (wrShadow k v s).glz = s.glz := rfl
@[simp] theorem wrShadow_til (k : Nat) (v : Word) (s : State) : (wrShadow k v s).til = s.til := rfl
@[simp] theorem wrShadow_kln (k : Nat) (v : Word) (s : State) : (wrShadow k v s).kln = s.kln := rfl
@[simp] theorem wrShadow_ports (k : Nat) (v : Word) (s : State) : (wrShadow k v s).ports = s.ports := rfl
@[simp] theorem wrShadow_pif (k : Nat) (v : Word) (s : State) : (wrShadow k v s).pif = s.pif := rfl
@[simp] theorem wrShadow_mot (k : Nat) (v : Word) (s : State) : (wrShadow k v s).mot = s.mot := rfl
@[simp] theorem wrShadow_pwr (k : Nat) (v : Word) (s : State) : (wrShadow k v s).pwr = s.pwr := rfl
@[simp] theorem wrShadow_crk (k : Nat) (v : Word) (s : State) : (wrShadow k v s).crk = s.crk := rfl
@[simp] theorem wrShadow_sag (k : Nat) (v : Word) (s : State) : (wrShadow k v s).sag = s.sag := rfl
@[simp] theorem wrShadow_tly (k : Nat) (v : Word) (s : State) : (wrShadow k v s).tly = s.tly := rfl
@[simp] theorem wrShadow_trm (k : Nat) (v : Word) (s : State) : (wrShadow k v s).trm = s.trm := rfl
@[simp] theorem wrShadow_clk (k : Nat) (v : Word) (s : State) : (wrShadow k v s).clk = s.clk := rfl
@[simp] theorem wrShadow_thm (k : Nat) (v : Word) (s : State) : (wrShadow k v s).thm = s.thm := rfl
@[simp] theorem wrShadow_fans (k : Nat) (v : Word) (s : State) : (wrShadow k v s).fans = s.fans := rfl
@[simp] theorem wrShadow_ipl (k : Nat) (v : Word) (s : State) : (wrShadow k v s).ipl = s.ipl := rfl
@[simp] theorem wrShadow_win (k : Nat) (v : Word) (s : State) : (wrShadow k v s).win = s.win := rfl
@[simp] theorem wrShadow_gln (k : Nat) (v : Word) (s : State) : (wrShadow k v s).gln = s.gln := rfl
@[simp] theorem wrShadow_cal (k : Nat) (v : Word) (s : State) : (wrShadow k v s).cal = s.cal := rfl
@[simp] theorem wf_pending (k hi lo v : Nat) (s : State) : (wf k hi lo v s).pending = s.pending := rfl
@[simp] theorem wf_free (k hi lo v : Nat) (s : State) : (wf k hi lo v s).free = s.free := rfl
@[simp] theorem wf_out (k hi lo v : Nat) (s : State) : (wf k hi lo v s).out = s.out := rfl
@[simp] theorem wf_pages (k hi lo v : Nat) (s : State) : (wf k hi lo v s).pages = s.pages := rfl
@[simp] theorem wf_clock (k hi lo v : Nat) (s : State) : (wf k hi lo v s).clock = s.clock := rfl
@[simp] theorem wf_hif (k hi lo v : Nat) (s : State) : (wf k hi lo v s).hif = s.hif := rfl
@[simp] theorem wf_stk (k hi lo v : Nat) (s : State) : (wf k hi lo v s).stk = s.stk := rfl
@[simp] theorem wf_fw (k hi lo v : Nat) (s : State) : (wf k hi lo v s).fw = s.fw := rfl
@[simp] theorem wf_jobs (k hi lo v : Nat) (s : State) : (wf k hi lo v s).jobs = s.jobs := rfl
@[simp] theorem wf_thr (k hi lo v : Nat) (s : State) : (wf k hi lo v s).thr = s.thr := rfl
@[simp] theorem wf_mil (k hi lo v : Nat) (s : State) : (wf k hi lo v s).mil = s.mil := rfl
@[simp] theorem wf_glz (k hi lo v : Nat) (s : State) : (wf k hi lo v s).glz = s.glz := rfl
@[simp] theorem wf_til (k hi lo v : Nat) (s : State) : (wf k hi lo v s).til = s.til := rfl
@[simp] theorem wf_kln (k hi lo v : Nat) (s : State) : (wf k hi lo v s).kln = s.kln := rfl
@[simp] theorem wf_ports (k hi lo v : Nat) (s : State) : (wf k hi lo v s).ports = s.ports := rfl
@[simp] theorem wf_pif (k hi lo v : Nat) (s : State) : (wf k hi lo v s).pif = s.pif := rfl
@[simp] theorem wf_mot (k hi lo v : Nat) (s : State) : (wf k hi lo v s).mot = s.mot := rfl
@[simp] theorem wf_pwr (k hi lo v : Nat) (s : State) : (wf k hi lo v s).pwr = s.pwr := rfl
@[simp] theorem wf_crk (k hi lo v : Nat) (s : State) : (wf k hi lo v s).crk = s.crk := rfl
@[simp] theorem wf_sag (k hi lo v : Nat) (s : State) : (wf k hi lo v s).sag = s.sag := rfl
@[simp] theorem wf_tly (k hi lo v : Nat) (s : State) : (wf k hi lo v s).tly = s.tly := rfl
@[simp] theorem wf_trm (k hi lo v : Nat) (s : State) : (wf k hi lo v s).trm = s.trm := rfl
@[simp] theorem wf_clk (k hi lo v : Nat) (s : State) : (wf k hi lo v s).clk = s.clk := rfl
@[simp] theorem wf_thm (k hi lo v : Nat) (s : State) : (wf k hi lo v s).thm = s.thm := rfl
@[simp] theorem wf_fans (k hi lo v : Nat) (s : State) : (wf k hi lo v s).fans = s.fans := rfl
@[simp] theorem wf_ipl (k hi lo v : Nat) (s : State) : (wf k hi lo v s).ipl = s.ipl := rfl
@[simp] theorem wf_win (k hi lo v : Nat) (s : State) : (wf k hi lo v s).win = s.win := rfl
@[simp] theorem wf_gln (k hi lo v : Nat) (s : State) : (wf k hi lo v s).gln = s.gln := rfl
@[simp] theorem wf_cal (k hi lo v : Nat) (s : State) : (wf k hi lo v s).cal = s.cal := rfl
@[simp] theorem inc_pending (k n : Nat) (s : State) : (inc k n s).pending = s.pending := rfl
@[simp] theorem inc_free (k n : Nat) (s : State) : (inc k n s).free = s.free := rfl
@[simp] theorem inc_out (k n : Nat) (s : State) : (inc k n s).out = s.out := rfl
@[simp] theorem inc_pages (k n : Nat) (s : State) : (inc k n s).pages = s.pages := rfl
@[simp] theorem inc_clock (k n : Nat) (s : State) : (inc k n s).clock = s.clock := rfl
@[simp] theorem inc_hif (k n : Nat) (s : State) : (inc k n s).hif = s.hif := rfl
@[simp] theorem inc_stk (k n : Nat) (s : State) : (inc k n s).stk = s.stk := rfl
@[simp] theorem inc_fw (k n : Nat) (s : State) : (inc k n s).fw = s.fw := rfl
@[simp] theorem inc_jobs (k n : Nat) (s : State) : (inc k n s).jobs = s.jobs := rfl
@[simp] theorem inc_thr (k n : Nat) (s : State) : (inc k n s).thr = s.thr := rfl
@[simp] theorem inc_mil (k n : Nat) (s : State) : (inc k n s).mil = s.mil := rfl
@[simp] theorem inc_glz (k n : Nat) (s : State) : (inc k n s).glz = s.glz := rfl
@[simp] theorem inc_til (k n : Nat) (s : State) : (inc k n s).til = s.til := rfl
@[simp] theorem inc_kln (k n : Nat) (s : State) : (inc k n s).kln = s.kln := rfl
@[simp] theorem inc_ports (k n : Nat) (s : State) : (inc k n s).ports = s.ports := rfl
@[simp] theorem inc_pif (k n : Nat) (s : State) : (inc k n s).pif = s.pif := rfl
@[simp] theorem inc_mot (k n : Nat) (s : State) : (inc k n s).mot = s.mot := rfl
@[simp] theorem inc_pwr (k n : Nat) (s : State) : (inc k n s).pwr = s.pwr := rfl
@[simp] theorem inc_crk (k n : Nat) (s : State) : (inc k n s).crk = s.crk := rfl
@[simp] theorem inc_sag (k n : Nat) (s : State) : (inc k n s).sag = s.sag := rfl
@[simp] theorem inc_tly (k n : Nat) (s : State) : (inc k n s).tly = s.tly := rfl
@[simp] theorem inc_trm (k n : Nat) (s : State) : (inc k n s).trm = s.trm := rfl
@[simp] theorem inc_clk (k n : Nat) (s : State) : (inc k n s).clk = s.clk := rfl
@[simp] theorem inc_thm (k n : Nat) (s : State) : (inc k n s).thm = s.thm := rfl
@[simp] theorem inc_fans (k n : Nat) (s : State) : (inc k n s).fans = s.fans := rfl
@[simp] theorem inc_ipl (k n : Nat) (s : State) : (inc k n s).ipl = s.ipl := rfl
@[simp] theorem inc_win (k n : Nat) (s : State) : (inc k n s).win = s.win := rfl
@[simp] theorem inc_gln (k n : Nat) (s : State) : (inc k n s).gln = s.gln := rfl
@[simp] theorem inc_cal (k n : Nat) (s : State) : (inc k n s).cal = s.cal := rfl
@[simp] theorem putPage_pending (n : Nat) (p : Page) (s : State) : (putPage n p s).pending = s.pending := rfl
@[simp] theorem putPage_free (n : Nat) (p : Page) (s : State) : (putPage n p s).free = s.free := rfl
@[simp] theorem putPage_out (n : Nat) (p : Page) (s : State) : (putPage n p s).out = s.out := rfl
@[simp] theorem putPage_regs (n : Nat) (p : Page) (s : State) : (putPage n p s).regs = s.regs := rfl
@[simp] theorem putPage_clock (n : Nat) (p : Page) (s : State) : (putPage n p s).clock = s.clock := rfl
@[simp] theorem putPage_hif (n : Nat) (p : Page) (s : State) : (putPage n p s).hif = s.hif := rfl
@[simp] theorem putPage_stk (n : Nat) (p : Page) (s : State) : (putPage n p s).stk = s.stk := rfl
@[simp] theorem putPage_fw (n : Nat) (p : Page) (s : State) : (putPage n p s).fw = s.fw := rfl
@[simp] theorem putPage_jobs (n : Nat) (p : Page) (s : State) : (putPage n p s).jobs = s.jobs := rfl
@[simp] theorem putPage_thr (n : Nat) (p : Page) (s : State) : (putPage n p s).thr = s.thr := rfl
@[simp] theorem putPage_mil (n : Nat) (p : Page) (s : State) : (putPage n p s).mil = s.mil := rfl
@[simp] theorem putPage_glz (n : Nat) (p : Page) (s : State) : (putPage n p s).glz = s.glz := rfl
@[simp] theorem putPage_til (n : Nat) (p : Page) (s : State) : (putPage n p s).til = s.til := rfl
@[simp] theorem putPage_kln (n : Nat) (p : Page) (s : State) : (putPage n p s).kln = s.kln := rfl
@[simp] theorem putPage_ports (n : Nat) (p : Page) (s : State) : (putPage n p s).ports = s.ports := rfl
@[simp] theorem putPage_pif (n : Nat) (p : Page) (s : State) : (putPage n p s).pif = s.pif := rfl
@[simp] theorem putPage_mot (n : Nat) (p : Page) (s : State) : (putPage n p s).mot = s.mot := rfl
@[simp] theorem putPage_pwr (n : Nat) (p : Page) (s : State) : (putPage n p s).pwr = s.pwr := rfl
@[simp] theorem putPage_crk (n : Nat) (p : Page) (s : State) : (putPage n p s).crk = s.crk := rfl
@[simp] theorem putPage_sag (n : Nat) (p : Page) (s : State) : (putPage n p s).sag = s.sag := rfl
@[simp] theorem putPage_tly (n : Nat) (p : Page) (s : State) : (putPage n p s).tly = s.tly := rfl
@[simp] theorem putPage_trm (n : Nat) (p : Page) (s : State) : (putPage n p s).trm = s.trm := rfl
@[simp] theorem putPage_clk (n : Nat) (p : Page) (s : State) : (putPage n p s).clk = s.clk := rfl
@[simp] theorem putPage_thm (n : Nat) (p : Page) (s : State) : (putPage n p s).thm = s.thm := rfl
@[simp] theorem putPage_fans (n : Nat) (p : Page) (s : State) : (putPage n p s).fans = s.fans := rfl
@[simp] theorem putPage_ipl (n : Nat) (p : Page) (s : State) : (putPage n p s).ipl = s.ipl := rfl
@[simp] theorem putPage_win (n : Nat) (p : Page) (s : State) : (putPage n p s).win = s.win := rfl
@[simp] theorem putPage_gln (n : Nat) (p : Page) (s : State) : (putPage n p s).gln = s.gln := rfl
@[simp] theorem putPage_cal (n : Nat) (p : Page) (s : State) : (putPage n p s).cal = s.cal := rfl
@[simp] theorem updPage_pending (n : Nat) (f : Page → Page) (s : State) : (updPage n f s).pending = s.pending := rfl
@[simp] theorem updPage_free (n : Nat) (f : Page → Page) (s : State) : (updPage n f s).free = s.free := rfl
@[simp] theorem updPage_out (n : Nat) (f : Page → Page) (s : State) : (updPage n f s).out = s.out := rfl
@[simp] theorem updPage_regs (n : Nat) (f : Page → Page) (s : State) : (updPage n f s).regs = s.regs := rfl
@[simp] theorem updPage_clock (n : Nat) (f : Page → Page) (s : State) : (updPage n f s).clock = s.clock := rfl
@[simp] theorem updPage_hif (n : Nat) (f : Page → Page) (s : State) : (updPage n f s).hif = s.hif := rfl
@[simp] theorem updPage_stk (n : Nat) (f : Page → Page) (s : State) : (updPage n f s).stk = s.stk := rfl
@[simp] theorem updPage_fw (n : Nat) (f : Page → Page) (s : State) : (updPage n f s).fw = s.fw := rfl
@[simp] theorem updPage_jobs (n : Nat) (f : Page → Page) (s : State) : (updPage n f s).jobs = s.jobs := rfl
@[simp] theorem updPage_thr (n : Nat) (f : Page → Page) (s : State) : (updPage n f s).thr = s.thr := rfl
@[simp] theorem updPage_mil (n : Nat) (f : Page → Page) (s : State) : (updPage n f s).mil = s.mil := rfl
@[simp] theorem updPage_glz (n : Nat) (f : Page → Page) (s : State) : (updPage n f s).glz = s.glz := rfl
@[simp] theorem updPage_til (n : Nat) (f : Page → Page) (s : State) : (updPage n f s).til = s.til := rfl
@[simp] theorem updPage_kln (n : Nat) (f : Page → Page) (s : State) : (updPage n f s).kln = s.kln := rfl
@[simp] theorem updPage_ports (n : Nat) (f : Page → Page) (s : State) : (updPage n f s).ports = s.ports := rfl
@[simp] theorem updPage_pif (n : Nat) (f : Page → Page) (s : State) : (updPage n f s).pif = s.pif := rfl
@[simp] theorem updPage_mot (n : Nat) (f : Page → Page) (s : State) : (updPage n f s).mot = s.mot := rfl
@[simp] theorem updPage_pwr (n : Nat) (f : Page → Page) (s : State) : (updPage n f s).pwr = s.pwr := rfl
@[simp] theorem updPage_crk (n : Nat) (f : Page → Page) (s : State) : (updPage n f s).crk = s.crk := rfl
@[simp] theorem updPage_sag (n : Nat) (f : Page → Page) (s : State) : (updPage n f s).sag = s.sag := rfl
@[simp] theorem updPage_tly (n : Nat) (f : Page → Page) (s : State) : (updPage n f s).tly = s.tly := rfl
@[simp] theorem updPage_trm (n : Nat) (f : Page → Page) (s : State) : (updPage n f s).trm = s.trm := rfl
@[simp] theorem updPage_clk (n : Nat) (f : Page → Page) (s : State) : (updPage n f s).clk = s.clk := rfl
@[simp] theorem updPage_thm (n : Nat) (f : Page → Page) (s : State) : (updPage n f s).thm = s.thm := rfl
@[simp] theorem updPage_fans (n : Nat) (f : Page → Page) (s : State) : (updPage n f s).fans = s.fans := rfl
@[simp] theorem updPage_ipl (n : Nat) (f : Page → Page) (s : State) : (updPage n f s).ipl = s.ipl := rfl
@[simp] theorem updPage_win (n : Nat) (f : Page → Page) (s : State) : (updPage n f s).win = s.win := rfl
@[simp] theorem updPage_gln (n : Nat) (f : Page → Page) (s : State) : (updPage n f s).gln = s.gln := rfl
@[simp] theorem updPage_cal (n : Nat) (f : Page → Page) (s : State) : (updPage n f s).cal = s.cal := rfl
@[simp] theorem emit_pending (o : Out) (s : State) : (emit o s).pending = s.pending := rfl
@[simp] theorem emit_free (o : Out) (s : State) : (emit o s).free = s.free := rfl
@[simp] theorem emit_regs (o : Out) (s : State) : (emit o s).regs = s.regs := rfl
@[simp] theorem emit_pages (o : Out) (s : State) : (emit o s).pages = s.pages := rfl
@[simp] theorem emit_clock (o : Out) (s : State) : (emit o s).clock = s.clock := rfl
@[simp] theorem emit_hif (o : Out) (s : State) : (emit o s).hif = s.hif := rfl
@[simp] theorem emit_stk (o : Out) (s : State) : (emit o s).stk = s.stk := rfl
@[simp] theorem emit_fw (o : Out) (s : State) : (emit o s).fw = s.fw := rfl
@[simp] theorem emit_jobs (o : Out) (s : State) : (emit o s).jobs = s.jobs := rfl
@[simp] theorem emit_thr (o : Out) (s : State) : (emit o s).thr = s.thr := rfl
@[simp] theorem emit_mil (o : Out) (s : State) : (emit o s).mil = s.mil := rfl
@[simp] theorem emit_glz (o : Out) (s : State) : (emit o s).glz = s.glz := rfl
@[simp] theorem emit_til (o : Out) (s : State) : (emit o s).til = s.til := rfl
@[simp] theorem emit_kln (o : Out) (s : State) : (emit o s).kln = s.kln := rfl
@[simp] theorem emit_ports (o : Out) (s : State) : (emit o s).ports = s.ports := rfl
@[simp] theorem emit_pif (o : Out) (s : State) : (emit o s).pif = s.pif := rfl
@[simp] theorem emit_mot (o : Out) (s : State) : (emit o s).mot = s.mot := rfl
@[simp] theorem emit_pwr (o : Out) (s : State) : (emit o s).pwr = s.pwr := rfl
@[simp] theorem emit_crk (o : Out) (s : State) : (emit o s).crk = s.crk := rfl
@[simp] theorem emit_sag (o : Out) (s : State) : (emit o s).sag = s.sag := rfl
@[simp] theorem emit_tly (o : Out) (s : State) : (emit o s).tly = s.tly := rfl
@[simp] theorem emit_trm (o : Out) (s : State) : (emit o s).trm = s.trm := rfl
@[simp] theorem emit_clk (o : Out) (s : State) : (emit o s).clk = s.clk := rfl
@[simp] theorem emit_thm (o : Out) (s : State) : (emit o s).thm = s.thm := rfl
@[simp] theorem emit_fans (o : Out) (s : State) : (emit o s).fans = s.fans := rfl
@[simp] theorem emit_ipl (o : Out) (s : State) : (emit o s).ipl = s.ipl := rfl
@[simp] theorem emit_win (o : Out) (s : State) : (emit o s).win = s.win := rfl
@[simp] theorem emit_gln (o : Out) (s : State) : (emit o s).gln = s.gln := rfl
@[simp] theorem emit_cal (o : Out) (s : State) : (emit o s).cal = s.cal := rfl
@[simp] theorem putRing_pending (n : Nat) (r : Ring) (s : State) : (putRing n r s).pending = s.pending := rfl
@[simp] theorem putRing_free (n : Nat) (r : Ring) (s : State) : (putRing n r s).free = s.free := rfl
@[simp] theorem putRing_out (n : Nat) (r : Ring) (s : State) : (putRing n r s).out = s.out := rfl
@[simp] theorem putRing_regs (n : Nat) (r : Ring) (s : State) : (putRing n r s).regs = s.regs := rfl
@[simp] theorem putRing_pages (n : Nat) (r : Ring) (s : State) : (putRing n r s).pages = s.pages := rfl
@[simp] theorem putRing_clock (n : Nat) (r : Ring) (s : State) : (putRing n r s).clock = s.clock := rfl
@[simp] theorem putRing_stk (n : Nat) (r : Ring) (s : State) : (putRing n r s).stk = s.stk := rfl
@[simp] theorem putRing_fw (n : Nat) (r : Ring) (s : State) : (putRing n r s).fw = s.fw := rfl
@[simp] theorem putRing_jobs (n : Nat) (r : Ring) (s : State) : (putRing n r s).jobs = s.jobs := rfl
@[simp] theorem putRing_thr (n : Nat) (r : Ring) (s : State) : (putRing n r s).thr = s.thr := rfl
@[simp] theorem putRing_mil (n : Nat) (r : Ring) (s : State) : (putRing n r s).mil = s.mil := rfl
@[simp] theorem putRing_glz (n : Nat) (r : Ring) (s : State) : (putRing n r s).glz = s.glz := rfl
@[simp] theorem putRing_til (n : Nat) (r : Ring) (s : State) : (putRing n r s).til = s.til := rfl
@[simp] theorem putRing_kln (n : Nat) (r : Ring) (s : State) : (putRing n r s).kln = s.kln := rfl
@[simp] theorem putRing_ports (n : Nat) (r : Ring) (s : State) : (putRing n r s).ports = s.ports := rfl
@[simp] theorem putRing_pif (n : Nat) (r : Ring) (s : State) : (putRing n r s).pif = s.pif := rfl
@[simp] theorem putRing_mot (n : Nat) (r : Ring) (s : State) : (putRing n r s).mot = s.mot := rfl
@[simp] theorem putRing_pwr (n : Nat) (r : Ring) (s : State) : (putRing n r s).pwr = s.pwr := rfl
@[simp] theorem putRing_crk (n : Nat) (r : Ring) (s : State) : (putRing n r s).crk = s.crk := rfl
@[simp] theorem putRing_sag (n : Nat) (r : Ring) (s : State) : (putRing n r s).sag = s.sag := rfl
@[simp] theorem putRing_tly (n : Nat) (r : Ring) (s : State) : (putRing n r s).tly = s.tly := rfl
@[simp] theorem putRing_trm (n : Nat) (r : Ring) (s : State) : (putRing n r s).trm = s.trm := rfl
@[simp] theorem putRing_clk (n : Nat) (r : Ring) (s : State) : (putRing n r s).clk = s.clk := rfl
@[simp] theorem putRing_thm (n : Nat) (r : Ring) (s : State) : (putRing n r s).thm = s.thm := rfl
@[simp] theorem putRing_fans (n : Nat) (r : Ring) (s : State) : (putRing n r s).fans = s.fans := rfl
@[simp] theorem putRing_ipl (n : Nat) (r : Ring) (s : State) : (putRing n r s).ipl = s.ipl := rfl
@[simp] theorem putRing_win (n : Nat) (r : Ring) (s : State) : (putRing n r s).win = s.win := rfl
@[simp] theorem putRing_gln (n : Nat) (r : Ring) (s : State) : (putRing n r s).gln = s.gln := rfl
@[simp] theorem putRing_cal (n : Nat) (r : Ring) (s : State) : (putRing n r s).cal = s.cal := rfl
@[simp] theorem updRing_pending (n : Nat) (f : Ring → Ring) (s : State) : (updRing n f s).pending = s.pending := rfl
@[simp] theorem updRing_free (n : Nat) (f : Ring → Ring) (s : State) : (updRing n f s).free = s.free := rfl
@[simp] theorem updRing_out (n : Nat) (f : Ring → Ring) (s : State) : (updRing n f s).out = s.out := rfl
@[simp] theorem updRing_regs (n : Nat) (f : Ring → Ring) (s : State) : (updRing n f s).regs = s.regs := rfl
@[simp] theorem updRing_pages (n : Nat) (f : Ring → Ring) (s : State) : (updRing n f s).pages = s.pages := rfl
@[simp] theorem updRing_clock (n : Nat) (f : Ring → Ring) (s : State) : (updRing n f s).clock = s.clock := rfl
@[simp] theorem updRing_stk (n : Nat) (f : Ring → Ring) (s : State) : (updRing n f s).stk = s.stk := rfl
@[simp] theorem updRing_fw (n : Nat) (f : Ring → Ring) (s : State) : (updRing n f s).fw = s.fw := rfl
@[simp] theorem updRing_jobs (n : Nat) (f : Ring → Ring) (s : State) : (updRing n f s).jobs = s.jobs := rfl
@[simp] theorem updRing_thr (n : Nat) (f : Ring → Ring) (s : State) : (updRing n f s).thr = s.thr := rfl
@[simp] theorem updRing_mil (n : Nat) (f : Ring → Ring) (s : State) : (updRing n f s).mil = s.mil := rfl
@[simp] theorem updRing_glz (n : Nat) (f : Ring → Ring) (s : State) : (updRing n f s).glz = s.glz := rfl
@[simp] theorem updRing_til (n : Nat) (f : Ring → Ring) (s : State) : (updRing n f s).til = s.til := rfl
@[simp] theorem updRing_kln (n : Nat) (f : Ring → Ring) (s : State) : (updRing n f s).kln = s.kln := rfl
@[simp] theorem updRing_ports (n : Nat) (f : Ring → Ring) (s : State) : (updRing n f s).ports = s.ports := rfl
@[simp] theorem updRing_pif (n : Nat) (f : Ring → Ring) (s : State) : (updRing n f s).pif = s.pif := rfl
@[simp] theorem updRing_mot (n : Nat) (f : Ring → Ring) (s : State) : (updRing n f s).mot = s.mot := rfl
@[simp] theorem updRing_pwr (n : Nat) (f : Ring → Ring) (s : State) : (updRing n f s).pwr = s.pwr := rfl
@[simp] theorem updRing_crk (n : Nat) (f : Ring → Ring) (s : State) : (updRing n f s).crk = s.crk := rfl
@[simp] theorem updRing_sag (n : Nat) (f : Ring → Ring) (s : State) : (updRing n f s).sag = s.sag := rfl
@[simp] theorem updRing_tly (n : Nat) (f : Ring → Ring) (s : State) : (updRing n f s).tly = s.tly := rfl
@[simp] theorem updRing_trm (n : Nat) (f : Ring → Ring) (s : State) : (updRing n f s).trm = s.trm := rfl
@[simp] theorem updRing_clk (n : Nat) (f : Ring → Ring) (s : State) : (updRing n f s).clk = s.clk := rfl
@[simp] theorem updRing_thm (n : Nat) (f : Ring → Ring) (s : State) : (updRing n f s).thm = s.thm := rfl
@[simp] theorem updRing_fans (n : Nat) (f : Ring → Ring) (s : State) : (updRing n f s).fans = s.fans := rfl
@[simp] theorem updRing_ipl (n : Nat) (f : Ring → Ring) (s : State) : (updRing n f s).ipl = s.ipl := rfl
@[simp] theorem updRing_win (n : Nat) (f : Ring → Ring) (s : State) : (updRing n f s).win = s.win := rfl
@[simp] theorem updRing_gln (n : Nat) (f : Ring → Ring) (s : State) : (updRing n f s).gln = s.gln := rfl
@[simp] theorem updRing_cal (n : Nat) (f : Ring → Ring) (s : State) : (updRing n f s).cal = s.cal := rfl
@[simp] theorem updStream_pending (t h : Nat) (f : Stream → Stream) (s : State) : (updStream t h f s).pending = s.pending := rfl
@[simp] theorem updStream_free (t h : Nat) (f : Stream → Stream) (s : State) : (updStream t h f s).free = s.free := rfl
@[simp] theorem updStream_out (t h : Nat) (f : Stream → Stream) (s : State) : (updStream t h f s).out = s.out := rfl
@[simp] theorem updStream_regs (t h : Nat) (f : Stream → Stream) (s : State) : (updStream t h f s).regs = s.regs := rfl
@[simp] theorem updStream_pages (t h : Nat) (f : Stream → Stream) (s : State) : (updStream t h f s).pages = s.pages := rfl
@[simp] theorem updStream_clock (t h : Nat) (f : Stream → Stream) (s : State) : (updStream t h f s).clock = s.clock := rfl
@[simp] theorem updStream_hif (t h : Nat) (f : Stream → Stream) (s : State) : (updStream t h f s).hif = s.hif := rfl
@[simp] theorem updStream_stk (t h : Nat) (f : Stream → Stream) (s : State) : (updStream t h f s).stk = s.stk := rfl
@[simp] theorem updStream_fw (t h : Nat) (f : Stream → Stream) (s : State) : (updStream t h f s).fw = s.fw := rfl
@[simp] theorem updStream_thr (t h : Nat) (f : Stream → Stream) (s : State) : (updStream t h f s).thr = s.thr := rfl
@[simp] theorem updStream_mil (t h : Nat) (f : Stream → Stream) (s : State) : (updStream t h f s).mil = s.mil := rfl
@[simp] theorem updStream_glz (t h : Nat) (f : Stream → Stream) (s : State) : (updStream t h f s).glz = s.glz := rfl
@[simp] theorem updStream_til (t h : Nat) (f : Stream → Stream) (s : State) : (updStream t h f s).til = s.til := rfl
@[simp] theorem updStream_kln (t h : Nat) (f : Stream → Stream) (s : State) : (updStream t h f s).kln = s.kln := rfl
@[simp] theorem updStream_ports (t h : Nat) (f : Stream → Stream) (s : State) : (updStream t h f s).ports = s.ports := rfl
@[simp] theorem updStream_pif (t h : Nat) (f : Stream → Stream) (s : State) : (updStream t h f s).pif = s.pif := rfl
@[simp] theorem updStream_mot (t h : Nat) (f : Stream → Stream) (s : State) : (updStream t h f s).mot = s.mot := rfl
@[simp] theorem updStream_pwr (t h : Nat) (f : Stream → Stream) (s : State) : (updStream t h f s).pwr = s.pwr := rfl
@[simp] theorem updStream_crk (t h : Nat) (f : Stream → Stream) (s : State) : (updStream t h f s).crk = s.crk := rfl
@[simp] theorem updStream_sag (t h : Nat) (f : Stream → Stream) (s : State) : (updStream t h f s).sag = s.sag := rfl
@[simp] theorem updStream_tly (t h : Nat) (f : Stream → Stream) (s : State) : (updStream t h f s).tly = s.tly := rfl
@[simp] theorem updStream_trm (t h : Nat) (f : Stream → Stream) (s : State) : (updStream t h f s).trm = s.trm := rfl
@[simp] theorem updStream_clk (t h : Nat) (f : Stream → Stream) (s : State) : (updStream t h f s).clk = s.clk := rfl
@[simp] theorem updStream_thm (t h : Nat) (f : Stream → Stream) (s : State) : (updStream t h f s).thm = s.thm := rfl
@[simp] theorem updStream_fans (t h : Nat) (f : Stream → Stream) (s : State) : (updStream t h f s).fans = s.fans := rfl
@[simp] theorem updStream_ipl (t h : Nat) (f : Stream → Stream) (s : State) : (updStream t h f s).ipl = s.ipl := rfl
@[simp] theorem updStream_win (t h : Nat) (f : Stream → Stream) (s : State) : (updStream t h f s).win = s.win := rfl
@[simp] theorem updStream_gln (t h : Nat) (f : Stream → Stream) (s : State) : (updStream t h f s).gln = s.gln := rfl
@[simp] theorem updStream_cal (t h : Nat) (f : Stream → Stream) (s : State) : (updStream t h f s).cal = s.cal := rfl
@[simp] theorem returns_pending (ini : Initiator) (v : Word) (s : State) : (returns ini v s).pending = s.pending := rfl
@[simp] theorem returns_free (ini : Initiator) (v : Word) (s : State) : (returns ini v s).free = s.free := rfl
@[simp] theorem returns_out (ini : Initiator) (v : Word) (s : State) : (returns ini v s).out = s.out := rfl
@[simp] theorem returns_pages (ini : Initiator) (v : Word) (s : State) : (returns ini v s).pages = s.pages := rfl
@[simp] theorem returns_clock (ini : Initiator) (v : Word) (s : State) : (returns ini v s).clock = s.clock := rfl
@[simp] theorem returns_hif (ini : Initiator) (v : Word) (s : State) : (returns ini v s).hif = s.hif := rfl
@[simp] theorem returns_stk (ini : Initiator) (v : Word) (s : State) : (returns ini v s).stk = s.stk := rfl
@[simp] theorem returns_fw (ini : Initiator) (v : Word) (s : State) : (returns ini v s).fw = s.fw := rfl
@[simp] theorem returns_jobs (ini : Initiator) (v : Word) (s : State) : (returns ini v s).jobs = s.jobs := rfl
@[simp] theorem returns_thr (ini : Initiator) (v : Word) (s : State) : (returns ini v s).thr = s.thr := rfl
@[simp] theorem returns_mil (ini : Initiator) (v : Word) (s : State) : (returns ini v s).mil = s.mil := rfl
@[simp] theorem returns_glz (ini : Initiator) (v : Word) (s : State) : (returns ini v s).glz = s.glz := rfl
@[simp] theorem returns_til (ini : Initiator) (v : Word) (s : State) : (returns ini v s).til = s.til := rfl
@[simp] theorem returns_kln (ini : Initiator) (v : Word) (s : State) : (returns ini v s).kln = s.kln := rfl
@[simp] theorem returns_ports (ini : Initiator) (v : Word) (s : State) : (returns ini v s).ports = s.ports := rfl
@[simp] theorem returns_pif (ini : Initiator) (v : Word) (s : State) : (returns ini v s).pif = s.pif := rfl
@[simp] theorem returns_mot (ini : Initiator) (v : Word) (s : State) : (returns ini v s).mot = s.mot := rfl
@[simp] theorem returns_pwr (ini : Initiator) (v : Word) (s : State) : (returns ini v s).pwr = s.pwr := rfl
@[simp] theorem returns_crk (ini : Initiator) (v : Word) (s : State) : (returns ini v s).crk = s.crk := rfl
@[simp] theorem returns_sag (ini : Initiator) (v : Word) (s : State) : (returns ini v s).sag = s.sag := rfl
@[simp] theorem returns_tly (ini : Initiator) (v : Word) (s : State) : (returns ini v s).tly = s.tly := rfl
@[simp] theorem returns_trm (ini : Initiator) (v : Word) (s : State) : (returns ini v s).trm = s.trm := rfl
@[simp] theorem returns_clk (ini : Initiator) (v : Word) (s : State) : (returns ini v s).clk = s.clk := rfl
@[simp] theorem returns_thm (ini : Initiator) (v : Word) (s : State) : (returns ini v s).thm = s.thm := rfl
@[simp] theorem returns_fans (ini : Initiator) (v : Word) (s : State) : (returns ini v s).fans = s.fans := rfl
@[simp] theorem returns_ipl (ini : Initiator) (v : Word) (s : State) : (returns ini v s).ipl = s.ipl := rfl
@[simp] theorem returns_win (ini : Initiator) (v : Word) (s : State) : (returns ini v s).win = s.win := rfl
@[simp] theorem returns_gln (ini : Initiator) (v : Word) (s : State) : (returns ini v s).gln = s.gln := rfl
@[simp] theorem returns_cal (ini : Initiator) (v : Word) (s : State) : (returns ini v s).cal = s.cal := rfl
@[simp] theorem putPlane_pending (p : Nat) (x : Plane) (s : State) : (putPlane p x s).pending = s.pending := rfl
@[simp] theorem putPlane_free (p : Nat) (x : Plane) (s : State) : (putPlane p x s).free = s.free := rfl
@[simp] theorem putPlane_out (p : Nat) (x : Plane) (s : State) : (putPlane p x s).out = s.out := rfl
@[simp] theorem putPlane_regs (p : Nat) (x : Plane) (s : State) : (putPlane p x s).regs = s.regs := rfl
@[simp] theorem putPlane_pages (p : Nat) (x : Plane) (s : State) : (putPlane p x s).pages = s.pages := rfl
@[simp] theorem putPlane_clock (p : Nat) (x : Plane) (s : State) : (putPlane p x s).clock = s.clock := rfl
@[simp] theorem putPlane_hif (p : Nat) (x : Plane) (s : State) : (putPlane p x s).hif = s.hif := rfl
@[simp] theorem putPlane_stk (p : Nat) (x : Plane) (s : State) : (putPlane p x s).stk = s.stk := rfl
@[simp] theorem putPlane_fw (p : Nat) (x : Plane) (s : State) : (putPlane p x s).fw = s.fw := rfl
@[simp] theorem putPlane_jobs (p : Nat) (x : Plane) (s : State) : (putPlane p x s).jobs = s.jobs := rfl
@[simp] theorem putPlane_thr (p : Nat) (x : Plane) (s : State) : (putPlane p x s).thr = s.thr := rfl
@[simp] theorem putPlane_mil (p : Nat) (x : Plane) (s : State) : (putPlane p x s).mil = s.mil := rfl
@[simp] theorem putPlane_glz (p : Nat) (x : Plane) (s : State) : (putPlane p x s).glz = s.glz := rfl
@[simp] theorem putPlane_til (p : Nat) (x : Plane) (s : State) : (putPlane p x s).til = s.til := rfl
@[simp] theorem putPlane_ports (p : Nat) (x : Plane) (s : State) : (putPlane p x s).ports = s.ports := rfl
@[simp] theorem putPlane_pif (p : Nat) (x : Plane) (s : State) : (putPlane p x s).pif = s.pif := rfl
@[simp] theorem putPlane_mot (p : Nat) (x : Plane) (s : State) : (putPlane p x s).mot = s.mot := rfl
@[simp] theorem putPlane_pwr (p : Nat) (x : Plane) (s : State) : (putPlane p x s).pwr = s.pwr := rfl
@[simp] theorem putPlane_crk (p : Nat) (x : Plane) (s : State) : (putPlane p x s).crk = s.crk := rfl
@[simp] theorem putPlane_sag (p : Nat) (x : Plane) (s : State) : (putPlane p x s).sag = s.sag := rfl
@[simp] theorem putPlane_tly (p : Nat) (x : Plane) (s : State) : (putPlane p x s).tly = s.tly := rfl
@[simp] theorem putPlane_trm (p : Nat) (x : Plane) (s : State) : (putPlane p x s).trm = s.trm := rfl
@[simp] theorem putPlane_clk (p : Nat) (x : Plane) (s : State) : (putPlane p x s).clk = s.clk := rfl
@[simp] theorem putPlane_thm (p : Nat) (x : Plane) (s : State) : (putPlane p x s).thm = s.thm := rfl
@[simp] theorem putPlane_fans (p : Nat) (x : Plane) (s : State) : (putPlane p x s).fans = s.fans := rfl
@[simp] theorem putPlane_ipl (p : Nat) (x : Plane) (s : State) : (putPlane p x s).ipl = s.ipl := rfl
@[simp] theorem putPlane_win (p : Nat) (x : Plane) (s : State) : (putPlane p x s).win = s.win := rfl
@[simp] theorem putPlane_gln (p : Nat) (x : Plane) (s : State) : (putPlane p x s).gln = s.gln := rfl
@[simp] theorem putPlane_cal (p : Nat) (x : Plane) (s : State) : (putPlane p x s).cal = s.cal := rfl
@[simp] theorem updPlane_pending (p : Nat) (f : Plane → Plane) (s : State) : (updPlane p f s).pending = s.pending := rfl
@[simp] theorem updPlane_free (p : Nat) (f : Plane → Plane) (s : State) : (updPlane p f s).free = s.free := rfl
@[simp] theorem updPlane_out (p : Nat) (f : Plane → Plane) (s : State) : (updPlane p f s).out = s.out := rfl
@[simp] theorem updPlane_regs (p : Nat) (f : Plane → Plane) (s : State) : (updPlane p f s).regs = s.regs := rfl
@[simp] theorem updPlane_pages (p : Nat) (f : Plane → Plane) (s : State) : (updPlane p f s).pages = s.pages := rfl
@[simp] theorem updPlane_clock (p : Nat) (f : Plane → Plane) (s : State) : (updPlane p f s).clock = s.clock := rfl
@[simp] theorem updPlane_hif (p : Nat) (f : Plane → Plane) (s : State) : (updPlane p f s).hif = s.hif := rfl
@[simp] theorem updPlane_stk (p : Nat) (f : Plane → Plane) (s : State) : (updPlane p f s).stk = s.stk := rfl
@[simp] theorem updPlane_fw (p : Nat) (f : Plane → Plane) (s : State) : (updPlane p f s).fw = s.fw := rfl
@[simp] theorem updPlane_jobs (p : Nat) (f : Plane → Plane) (s : State) : (updPlane p f s).jobs = s.jobs := rfl
@[simp] theorem updPlane_thr (p : Nat) (f : Plane → Plane) (s : State) : (updPlane p f s).thr = s.thr := rfl
@[simp] theorem updPlane_mil (p : Nat) (f : Plane → Plane) (s : State) : (updPlane p f s).mil = s.mil := rfl
@[simp] theorem updPlane_glz (p : Nat) (f : Plane → Plane) (s : State) : (updPlane p f s).glz = s.glz := rfl
@[simp] theorem updPlane_til (p : Nat) (f : Plane → Plane) (s : State) : (updPlane p f s).til = s.til := rfl
@[simp] theorem updPlane_ports (p : Nat) (f : Plane → Plane) (s : State) : (updPlane p f s).ports = s.ports := rfl
@[simp] theorem updPlane_pif (p : Nat) (f : Plane → Plane) (s : State) : (updPlane p f s).pif = s.pif := rfl
@[simp] theorem updPlane_mot (p : Nat) (f : Plane → Plane) (s : State) : (updPlane p f s).mot = s.mot := rfl
@[simp] theorem updPlane_pwr (p : Nat) (f : Plane → Plane) (s : State) : (updPlane p f s).pwr = s.pwr := rfl
@[simp] theorem updPlane_crk (p : Nat) (f : Plane → Plane) (s : State) : (updPlane p f s).crk = s.crk := rfl
@[simp] theorem updPlane_sag (p : Nat) (f : Plane → Plane) (s : State) : (updPlane p f s).sag = s.sag := rfl
@[simp] theorem updPlane_tly (p : Nat) (f : Plane → Plane) (s : State) : (updPlane p f s).tly = s.tly := rfl
@[simp] theorem updPlane_trm (p : Nat) (f : Plane → Plane) (s : State) : (updPlane p f s).trm = s.trm := rfl
@[simp] theorem updPlane_clk (p : Nat) (f : Plane → Plane) (s : State) : (updPlane p f s).clk = s.clk := rfl
@[simp] theorem updPlane_thm (p : Nat) (f : Plane → Plane) (s : State) : (updPlane p f s).thm = s.thm := rfl
@[simp] theorem updPlane_fans (p : Nat) (f : Plane → Plane) (s : State) : (updPlane p f s).fans = s.fans := rfl
@[simp] theorem updPlane_ipl (p : Nat) (f : Plane → Plane) (s : State) : (updPlane p f s).ipl = s.ipl := rfl
@[simp] theorem updPlane_win (p : Nat) (f : Plane → Plane) (s : State) : (updPlane p f s).win = s.win := rfl
@[simp] theorem updPlane_gln (p : Nat) (f : Plane → Plane) (s : State) : (updPlane p f s).gln = s.gln := rfl
@[simp] theorem updPlane_cal (p : Nat) (f : Plane → Plane) (s : State) : (updPlane p f s).cal = s.cal := rfl
@[simp] theorem updCam_pending (k : Nat) (f : CamPort → CamPort) (s : State) : (updCam k f s).pending = s.pending := rfl
@[simp] theorem updCam_free (k : Nat) (f : CamPort → CamPort) (s : State) : (updCam k f s).free = s.free := rfl
@[simp] theorem updCam_out (k : Nat) (f : CamPort → CamPort) (s : State) : (updCam k f s).out = s.out := rfl
@[simp] theorem updCam_regs (k : Nat) (f : CamPort → CamPort) (s : State) : (updCam k f s).regs = s.regs := rfl
@[simp] theorem updCam_pages (k : Nat) (f : CamPort → CamPort) (s : State) : (updCam k f s).pages = s.pages := rfl
@[simp] theorem updCam_clock (k : Nat) (f : CamPort → CamPort) (s : State) : (updCam k f s).clock = s.clock := rfl
@[simp] theorem updCam_hif (k : Nat) (f : CamPort → CamPort) (s : State) : (updCam k f s).hif = s.hif := rfl
@[simp] theorem updCam_stk (k : Nat) (f : CamPort → CamPort) (s : State) : (updCam k f s).stk = s.stk := rfl
@[simp] theorem updCam_fw (k : Nat) (f : CamPort → CamPort) (s : State) : (updCam k f s).fw = s.fw := rfl
@[simp] theorem updCam_jobs (k : Nat) (f : CamPort → CamPort) (s : State) : (updCam k f s).jobs = s.jobs := rfl
@[simp] theorem updCam_thr (k : Nat) (f : CamPort → CamPort) (s : State) : (updCam k f s).thr = s.thr := rfl
@[simp] theorem updCam_mil (k : Nat) (f : CamPort → CamPort) (s : State) : (updCam k f s).mil = s.mil := rfl
@[simp] theorem updCam_glz (k : Nat) (f : CamPort → CamPort) (s : State) : (updCam k f s).glz = s.glz := rfl
@[simp] theorem updCam_til (k : Nat) (f : CamPort → CamPort) (s : State) : (updCam k f s).til = s.til := rfl
@[simp] theorem updCam_kln (k : Nat) (f : CamPort → CamPort) (s : State) : (updCam k f s).kln = s.kln := rfl
@[simp] theorem updCam_ports (k : Nat) (f : CamPort → CamPort) (s : State) : (updCam k f s).ports = s.ports := rfl
@[simp] theorem updCam_pif (k : Nat) (f : CamPort → CamPort) (s : State) : (updCam k f s).pif = s.pif := rfl
@[simp] theorem updCam_mot (k : Nat) (f : CamPort → CamPort) (s : State) : (updCam k f s).mot = s.mot := rfl
@[simp] theorem updCam_pwr (k : Nat) (f : CamPort → CamPort) (s : State) : (updCam k f s).pwr = s.pwr := rfl
@[simp] theorem updCam_crk (k : Nat) (f : CamPort → CamPort) (s : State) : (updCam k f s).crk = s.crk := rfl
@[simp] theorem updCam_sag (k : Nat) (f : CamPort → CamPort) (s : State) : (updCam k f s).sag = s.sag := rfl
@[simp] theorem updCam_tly (k : Nat) (f : CamPort → CamPort) (s : State) : (updCam k f s).tly = s.tly := rfl
@[simp] theorem updCam_trm (k : Nat) (f : CamPort → CamPort) (s : State) : (updCam k f s).trm = s.trm := rfl
@[simp] theorem updCam_clk (k : Nat) (f : CamPort → CamPort) (s : State) : (updCam k f s).clk = s.clk := rfl
@[simp] theorem updCam_thm (k : Nat) (f : CamPort → CamPort) (s : State) : (updCam k f s).thm = s.thm := rfl
@[simp] theorem updCam_fans (k : Nat) (f : CamPort → CamPort) (s : State) : (updCam k f s).fans = s.fans := rfl
@[simp] theorem updCam_win (k : Nat) (f : CamPort → CamPort) (s : State) : (updCam k f s).win = s.win := rfl
@[simp] theorem updCam_gln (k : Nat) (f : CamPort → CamPort) (s : State) : (updCam k f s).gln = s.gln := rfl
@[simp] theorem updCam_cal (k : Nat) (f : CamPort → CamPort) (s : State) : (updCam k f s).cal = s.cal := rfl
@[simp] theorem updCopy_pending (c : Nat) (f : Copy → Copy) (s : State) : (updCopy c f s).pending = s.pending := rfl
@[simp] theorem updCopy_free (c : Nat) (f : Copy → Copy) (s : State) : (updCopy c f s).free = s.free := rfl
@[simp] theorem updCopy_out (c : Nat) (f : Copy → Copy) (s : State) : (updCopy c f s).out = s.out := rfl
@[simp] theorem updCopy_regs (c : Nat) (f : Copy → Copy) (s : State) : (updCopy c f s).regs = s.regs := rfl
@[simp] theorem updCopy_pages (c : Nat) (f : Copy → Copy) (s : State) : (updCopy c f s).pages = s.pages := rfl
@[simp] theorem updCopy_clock (c : Nat) (f : Copy → Copy) (s : State) : (updCopy c f s).clock = s.clock := rfl
@[simp] theorem updCopy_hif (c : Nat) (f : Copy → Copy) (s : State) : (updCopy c f s).hif = s.hif := rfl
@[simp] theorem updCopy_stk (c : Nat) (f : Copy → Copy) (s : State) : (updCopy c f s).stk = s.stk := rfl
@[simp] theorem updCopy_fw (c : Nat) (f : Copy → Copy) (s : State) : (updCopy c f s).fw = s.fw := rfl
@[simp] theorem updCopy_thr (c : Nat) (f : Copy → Copy) (s : State) : (updCopy c f s).thr = s.thr := rfl
@[simp] theorem updCopy_mil (c : Nat) (f : Copy → Copy) (s : State) : (updCopy c f s).mil = s.mil := rfl
@[simp] theorem updCopy_glz (c : Nat) (f : Copy → Copy) (s : State) : (updCopy c f s).glz = s.glz := rfl
@[simp] theorem updCopy_til (c : Nat) (f : Copy → Copy) (s : State) : (updCopy c f s).til = s.til := rfl
@[simp] theorem updCopy_kln (c : Nat) (f : Copy → Copy) (s : State) : (updCopy c f s).kln = s.kln := rfl
@[simp] theorem updCopy_ports (c : Nat) (f : Copy → Copy) (s : State) : (updCopy c f s).ports = s.ports := rfl
@[simp] theorem updCopy_pif (c : Nat) (f : Copy → Copy) (s : State) : (updCopy c f s).pif = s.pif := rfl
@[simp] theorem updCopy_mot (c : Nat) (f : Copy → Copy) (s : State) : (updCopy c f s).mot = s.mot := rfl
@[simp] theorem updCopy_pwr (c : Nat) (f : Copy → Copy) (s : State) : (updCopy c f s).pwr = s.pwr := rfl
@[simp] theorem updCopy_crk (c : Nat) (f : Copy → Copy) (s : State) : (updCopy c f s).crk = s.crk := rfl
@[simp] theorem updCopy_sag (c : Nat) (f : Copy → Copy) (s : State) : (updCopy c f s).sag = s.sag := rfl
@[simp] theorem updCopy_tly (c : Nat) (f : Copy → Copy) (s : State) : (updCopy c f s).tly = s.tly := rfl
@[simp] theorem updCopy_trm (c : Nat) (f : Copy → Copy) (s : State) : (updCopy c f s).trm = s.trm := rfl
@[simp] theorem updCopy_clk (c : Nat) (f : Copy → Copy) (s : State) : (updCopy c f s).clk = s.clk := rfl
@[simp] theorem updCopy_thm (c : Nat) (f : Copy → Copy) (s : State) : (updCopy c f s).thm = s.thm := rfl
@[simp] theorem updCopy_fans (c : Nat) (f : Copy → Copy) (s : State) : (updCopy c f s).fans = s.fans := rfl
@[simp] theorem updCopy_ipl (c : Nat) (f : Copy → Copy) (s : State) : (updCopy c f s).ipl = s.ipl := rfl
@[simp] theorem updCopy_win (c : Nat) (f : Copy → Copy) (s : State) : (updCopy c f s).win = s.win := rfl
@[simp] theorem updCopy_gln (c : Nat) (f : Copy → Copy) (s : State) : (updCopy c f s).gln = s.gln := rfl
@[simp] theorem updCopy_cal (c : Nat) (f : Copy → Copy) (s : State) : (updCopy c f s).cal = s.cal := rfl
@[simp] theorem updPort_pending (h : Nat) (f : Port → Port) (s : State) : (updPort h f s).pending = s.pending := rfl
@[simp] theorem updPort_free (h : Nat) (f : Port → Port) (s : State) : (updPort h f s).free = s.free := rfl
@[simp] theorem updPort_out (h : Nat) (f : Port → Port) (s : State) : (updPort h f s).out = s.out := rfl
@[simp] theorem updPort_regs (h : Nat) (f : Port → Port) (s : State) : (updPort h f s).regs = s.regs := rfl
@[simp] theorem updPort_pages (h : Nat) (f : Port → Port) (s : State) : (updPort h f s).pages = s.pages := rfl
@[simp] theorem updPort_clock (h : Nat) (f : Port → Port) (s : State) : (updPort h f s).clock = s.clock := rfl
@[simp] theorem updPort_hif (h : Nat) (f : Port → Port) (s : State) : (updPort h f s).hif = s.hif := rfl
@[simp] theorem updPort_stk (h : Nat) (f : Port → Port) (s : State) : (updPort h f s).stk = s.stk := rfl
@[simp] theorem updPort_fw (h : Nat) (f : Port → Port) (s : State) : (updPort h f s).fw = s.fw := rfl
@[simp] theorem updPort_jobs (h : Nat) (f : Port → Port) (s : State) : (updPort h f s).jobs = s.jobs := rfl
@[simp] theorem updPort_thr (h : Nat) (f : Port → Port) (s : State) : (updPort h f s).thr = s.thr := rfl
@[simp] theorem updPort_mil (h : Nat) (f : Port → Port) (s : State) : (updPort h f s).mil = s.mil := rfl
@[simp] theorem updPort_glz (h : Nat) (f : Port → Port) (s : State) : (updPort h f s).glz = s.glz := rfl
@[simp] theorem updPort_til (h : Nat) (f : Port → Port) (s : State) : (updPort h f s).til = s.til := rfl
@[simp] theorem updPort_kln (h : Nat) (f : Port → Port) (s : State) : (updPort h f s).kln = s.kln := rfl
@[simp] theorem updPort_pif (h : Nat) (f : Port → Port) (s : State) : (updPort h f s).pif = s.pif := rfl
@[simp] theorem updPort_mot (h : Nat) (f : Port → Port) (s : State) : (updPort h f s).mot = s.mot := rfl
@[simp] theorem updPort_pwr (h : Nat) (f : Port → Port) (s : State) : (updPort h f s).pwr = s.pwr := rfl
@[simp] theorem updPort_crk (h : Nat) (f : Port → Port) (s : State) : (updPort h f s).crk = s.crk := rfl
@[simp] theorem updPort_sag (h : Nat) (f : Port → Port) (s : State) : (updPort h f s).sag = s.sag := rfl
@[simp] theorem updPort_tly (h : Nat) (f : Port → Port) (s : State) : (updPort h f s).tly = s.tly := rfl
@[simp] theorem updPort_trm (h : Nat) (f : Port → Port) (s : State) : (updPort h f s).trm = s.trm := rfl
@[simp] theorem updPort_clk (h : Nat) (f : Port → Port) (s : State) : (updPort h f s).clk = s.clk := rfl
@[simp] theorem updPort_thm (h : Nat) (f : Port → Port) (s : State) : (updPort h f s).thm = s.thm := rfl
@[simp] theorem updPort_fans (h : Nat) (f : Port → Port) (s : State) : (updPort h f s).fans = s.fans := rfl
@[simp] theorem updPort_ipl (h : Nat) (f : Port → Port) (s : State) : (updPort h f s).ipl = s.ipl := rfl
@[simp] theorem updPort_win (h : Nat) (f : Port → Port) (s : State) : (updPort h f s).win = s.win := rfl
@[simp] theorem updPort_gln (h : Nat) (f : Port → Port) (s : State) : (updPort h f s).gln = s.gln := rfl
@[simp] theorem updPort_cal (h : Nat) (f : Port → Port) (s : State) : (updPort h f s).cal = s.cal := rfl
@[simp] theorem updPif_pending (c : Nat) (f : PifCh → PifCh) (s : State) : (updPif c f s).pending = s.pending := rfl
@[simp] theorem updPif_free (c : Nat) (f : PifCh → PifCh) (s : State) : (updPif c f s).free = s.free := rfl
@[simp] theorem updPif_out (c : Nat) (f : PifCh → PifCh) (s : State) : (updPif c f s).out = s.out := rfl
@[simp] theorem updPif_regs (c : Nat) (f : PifCh → PifCh) (s : State) : (updPif c f s).regs = s.regs := rfl
@[simp] theorem updPif_pages (c : Nat) (f : PifCh → PifCh) (s : State) : (updPif c f s).pages = s.pages := rfl
@[simp] theorem updPif_clock (c : Nat) (f : PifCh → PifCh) (s : State) : (updPif c f s).clock = s.clock := rfl
@[simp] theorem updPif_hif (c : Nat) (f : PifCh → PifCh) (s : State) : (updPif c f s).hif = s.hif := rfl
@[simp] theorem updPif_stk (c : Nat) (f : PifCh → PifCh) (s : State) : (updPif c f s).stk = s.stk := rfl
@[simp] theorem updPif_fw (c : Nat) (f : PifCh → PifCh) (s : State) : (updPif c f s).fw = s.fw := rfl
@[simp] theorem updPif_jobs (c : Nat) (f : PifCh → PifCh) (s : State) : (updPif c f s).jobs = s.jobs := rfl
@[simp] theorem updPif_thr (c : Nat) (f : PifCh → PifCh) (s : State) : (updPif c f s).thr = s.thr := rfl
@[simp] theorem updPif_mil (c : Nat) (f : PifCh → PifCh) (s : State) : (updPif c f s).mil = s.mil := rfl
@[simp] theorem updPif_glz (c : Nat) (f : PifCh → PifCh) (s : State) : (updPif c f s).glz = s.glz := rfl
@[simp] theorem updPif_til (c : Nat) (f : PifCh → PifCh) (s : State) : (updPif c f s).til = s.til := rfl
@[simp] theorem updPif_kln (c : Nat) (f : PifCh → PifCh) (s : State) : (updPif c f s).kln = s.kln := rfl
@[simp] theorem updPif_ports (c : Nat) (f : PifCh → PifCh) (s : State) : (updPif c f s).ports = s.ports := rfl
@[simp] theorem updPif_mot (c : Nat) (f : PifCh → PifCh) (s : State) : (updPif c f s).mot = s.mot := rfl
@[simp] theorem updPif_pwr (c : Nat) (f : PifCh → PifCh) (s : State) : (updPif c f s).pwr = s.pwr := rfl
@[simp] theorem updPif_crk (c : Nat) (f : PifCh → PifCh) (s : State) : (updPif c f s).crk = s.crk := rfl
@[simp] theorem updPif_sag (c : Nat) (f : PifCh → PifCh) (s : State) : (updPif c f s).sag = s.sag := rfl
@[simp] theorem updPif_tly (c : Nat) (f : PifCh → PifCh) (s : State) : (updPif c f s).tly = s.tly := rfl
@[simp] theorem updPif_trm (c : Nat) (f : PifCh → PifCh) (s : State) : (updPif c f s).trm = s.trm := rfl
@[simp] theorem updPif_clk (c : Nat) (f : PifCh → PifCh) (s : State) : (updPif c f s).clk = s.clk := rfl
@[simp] theorem updPif_thm (c : Nat) (f : PifCh → PifCh) (s : State) : (updPif c f s).thm = s.thm := rfl
@[simp] theorem updPif_fans (c : Nat) (f : PifCh → PifCh) (s : State) : (updPif c f s).fans = s.fans := rfl
@[simp] theorem updPif_ipl (c : Nat) (f : PifCh → PifCh) (s : State) : (updPif c f s).ipl = s.ipl := rfl
@[simp] theorem updPif_win (c : Nat) (f : PifCh → PifCh) (s : State) : (updPif c f s).win = s.win := rfl
@[simp] theorem updPif_gln (c : Nat) (f : PifCh → PifCh) (s : State) : (updPif c f s).gln = s.gln := rfl
@[simp] theorem updPif_cal (c : Nat) (f : PifCh → PifCh) (s : State) : (updPif c f s).cal = s.cal := rfl
@[simp] theorem updAxis_pending (a : Nat) (f : Axis → Axis) (s : State) : (updAxis a f s).pending = s.pending := rfl
@[simp] theorem updAxis_free (a : Nat) (f : Axis → Axis) (s : State) : (updAxis a f s).free = s.free := rfl
@[simp] theorem updAxis_out (a : Nat) (f : Axis → Axis) (s : State) : (updAxis a f s).out = s.out := rfl
@[simp] theorem updAxis_regs (a : Nat) (f : Axis → Axis) (s : State) : (updAxis a f s).regs = s.regs := rfl
@[simp] theorem updAxis_pages (a : Nat) (f : Axis → Axis) (s : State) : (updAxis a f s).pages = s.pages := rfl
@[simp] theorem updAxis_clock (a : Nat) (f : Axis → Axis) (s : State) : (updAxis a f s).clock = s.clock := rfl
@[simp] theorem updAxis_hif (a : Nat) (f : Axis → Axis) (s : State) : (updAxis a f s).hif = s.hif := rfl
@[simp] theorem updAxis_stk (a : Nat) (f : Axis → Axis) (s : State) : (updAxis a f s).stk = s.stk := rfl
@[simp] theorem updAxis_fw (a : Nat) (f : Axis → Axis) (s : State) : (updAxis a f s).fw = s.fw := rfl
@[simp] theorem updAxis_jobs (a : Nat) (f : Axis → Axis) (s : State) : (updAxis a f s).jobs = s.jobs := rfl
@[simp] theorem updAxis_thr (a : Nat) (f : Axis → Axis) (s : State) : (updAxis a f s).thr = s.thr := rfl
@[simp] theorem updAxis_mil (a : Nat) (f : Axis → Axis) (s : State) : (updAxis a f s).mil = s.mil := rfl
@[simp] theorem updAxis_glz (a : Nat) (f : Axis → Axis) (s : State) : (updAxis a f s).glz = s.glz := rfl
@[simp] theorem updAxis_til (a : Nat) (f : Axis → Axis) (s : State) : (updAxis a f s).til = s.til := rfl
@[simp] theorem updAxis_kln (a : Nat) (f : Axis → Axis) (s : State) : (updAxis a f s).kln = s.kln := rfl
@[simp] theorem updAxis_ports (a : Nat) (f : Axis → Axis) (s : State) : (updAxis a f s).ports = s.ports := rfl
@[simp] theorem updAxis_pif (a : Nat) (f : Axis → Axis) (s : State) : (updAxis a f s).pif = s.pif := rfl
@[simp] theorem updAxis_pwr (a : Nat) (f : Axis → Axis) (s : State) : (updAxis a f s).pwr = s.pwr := rfl
@[simp] theorem updAxis_crk (a : Nat) (f : Axis → Axis) (s : State) : (updAxis a f s).crk = s.crk := rfl
@[simp] theorem updAxis_sag (a : Nat) (f : Axis → Axis) (s : State) : (updAxis a f s).sag = s.sag := rfl
@[simp] theorem updAxis_tly (a : Nat) (f : Axis → Axis) (s : State) : (updAxis a f s).tly = s.tly := rfl
@[simp] theorem updAxis_trm (a : Nat) (f : Axis → Axis) (s : State) : (updAxis a f s).trm = s.trm := rfl
@[simp] theorem updAxis_clk (a : Nat) (f : Axis → Axis) (s : State) : (updAxis a f s).clk = s.clk := rfl
@[simp] theorem updAxis_thm (a : Nat) (f : Axis → Axis) (s : State) : (updAxis a f s).thm = s.thm := rfl
@[simp] theorem updAxis_fans (a : Nat) (f : Axis → Axis) (s : State) : (updAxis a f s).fans = s.fans := rfl
@[simp] theorem updAxis_ipl (a : Nat) (f : Axis → Axis) (s : State) : (updAxis a f s).ipl = s.ipl := rfl
@[simp] theorem updAxis_win (a : Nat) (f : Axis → Axis) (s : State) : (updAxis a f s).win = s.win := rfl
@[simp] theorem updAxis_gln (a : Nat) (f : Axis → Axis) (s : State) : (updAxis a f s).gln = s.gln := rfl
@[simp] theorem updAxis_cal (a : Nat) (f : Axis → Axis) (s : State) : (updAxis a f s).cal = s.cal := rfl
@[simp] theorem putEntry_pending (i : Nat) (e : Entry) (s : State) : (putEntry i e s).pending = s.pending := rfl
@[simp] theorem putEntry_free (i : Nat) (e : Entry) (s : State) : (putEntry i e s).free = s.free := rfl
@[simp] theorem putEntry_out (i : Nat) (e : Entry) (s : State) : (putEntry i e s).out = s.out := rfl
@[simp] theorem putEntry_regs (i : Nat) (e : Entry) (s : State) : (putEntry i e s).regs = s.regs := rfl
@[simp] theorem putEntry_pages (i : Nat) (e : Entry) (s : State) : (putEntry i e s).pages = s.pages := rfl
@[simp] theorem putEntry_clock (i : Nat) (e : Entry) (s : State) : (putEntry i e s).clock = s.clock := rfl
@[simp] theorem putEntry_hif (i : Nat) (e : Entry) (s : State) : (putEntry i e s).hif = s.hif := rfl
@[simp] theorem putEntry_stk (i : Nat) (e : Entry) (s : State) : (putEntry i e s).stk = s.stk := rfl
@[simp] theorem putEntry_fw (i : Nat) (e : Entry) (s : State) : (putEntry i e s).fw = s.fw := rfl
@[simp] theorem putEntry_jobs (i : Nat) (e : Entry) (s : State) : (putEntry i e s).jobs = s.jobs := rfl
@[simp] theorem putEntry_thr (i : Nat) (e : Entry) (s : State) : (putEntry i e s).thr = s.thr := rfl
@[simp] theorem putEntry_mil (i : Nat) (e : Entry) (s : State) : (putEntry i e s).mil = s.mil := rfl
@[simp] theorem putEntry_glz (i : Nat) (e : Entry) (s : State) : (putEntry i e s).glz = s.glz := rfl
@[simp] theorem putEntry_kln (i : Nat) (e : Entry) (s : State) : (putEntry i e s).kln = s.kln := rfl
@[simp] theorem putEntry_ports (i : Nat) (e : Entry) (s : State) : (putEntry i e s).ports = s.ports := rfl
@[simp] theorem putEntry_pif (i : Nat) (e : Entry) (s : State) : (putEntry i e s).pif = s.pif := rfl
@[simp] theorem putEntry_mot (i : Nat) (e : Entry) (s : State) : (putEntry i e s).mot = s.mot := rfl
@[simp] theorem putEntry_pwr (i : Nat) (e : Entry) (s : State) : (putEntry i e s).pwr = s.pwr := rfl
@[simp] theorem putEntry_crk (i : Nat) (e : Entry) (s : State) : (putEntry i e s).crk = s.crk := rfl
@[simp] theorem putEntry_sag (i : Nat) (e : Entry) (s : State) : (putEntry i e s).sag = s.sag := rfl
@[simp] theorem putEntry_tly (i : Nat) (e : Entry) (s : State) : (putEntry i e s).tly = s.tly := rfl
@[simp] theorem putEntry_trm (i : Nat) (e : Entry) (s : State) : (putEntry i e s).trm = s.trm := rfl
@[simp] theorem putEntry_clk (i : Nat) (e : Entry) (s : State) : (putEntry i e s).clk = s.clk := rfl
@[simp] theorem putEntry_thm (i : Nat) (e : Entry) (s : State) : (putEntry i e s).thm = s.thm := rfl
@[simp] theorem putEntry_fans (i : Nat) (e : Entry) (s : State) : (putEntry i e s).fans = s.fans := rfl
@[simp] theorem putEntry_ipl (i : Nat) (e : Entry) (s : State) : (putEntry i e s).ipl = s.ipl := rfl
@[simp] theorem putEntry_win (i : Nat) (e : Entry) (s : State) : (putEntry i e s).win = s.win := rfl
@[simp] theorem putEntry_gln (i : Nat) (e : Entry) (s : State) : (putEntry i e s).gln = s.gln := rfl
@[simp] theorem putEntry_cal (i : Nat) (e : Entry) (s : State) : (putEntry i e s).cal = s.cal := rfl
@[simp] theorem updEngine_pending (e : Nat) (f : Engine → Engine) (s : State) : (updEngine e f s).pending = s.pending := rfl
@[simp] theorem updEngine_free (e : Nat) (f : Engine → Engine) (s : State) : (updEngine e f s).free = s.free := rfl
@[simp] theorem updEngine_out (e : Nat) (f : Engine → Engine) (s : State) : (updEngine e f s).out = s.out := rfl
@[simp] theorem updEngine_regs (e : Nat) (f : Engine → Engine) (s : State) : (updEngine e f s).regs = s.regs := rfl
@[simp] theorem updEngine_pages (e : Nat) (f : Engine → Engine) (s : State) : (updEngine e f s).pages = s.pages := rfl
@[simp] theorem updEngine_clock (e : Nat) (f : Engine → Engine) (s : State) : (updEngine e f s).clock = s.clock := rfl
@[simp] theorem updEngine_hif (e : Nat) (f : Engine → Engine) (s : State) : (updEngine e f s).hif = s.hif := rfl
@[simp] theorem updEngine_stk (e : Nat) (f : Engine → Engine) (s : State) : (updEngine e f s).stk = s.stk := rfl
@[simp] theorem updEngine_fw (e : Nat) (f : Engine → Engine) (s : State) : (updEngine e f s).fw = s.fw := rfl
@[simp] theorem updEngine_jobs (e : Nat) (f : Engine → Engine) (s : State) : (updEngine e f s).jobs = s.jobs := rfl
@[simp] theorem updEngine_thr (e : Nat) (f : Engine → Engine) (s : State) : (updEngine e f s).thr = s.thr := rfl
@[simp] theorem updEngine_mil (e : Nat) (f : Engine → Engine) (s : State) : (updEngine e f s).mil = s.mil := rfl
@[simp] theorem updEngine_glz (e : Nat) (f : Engine → Engine) (s : State) : (updEngine e f s).glz = s.glz := rfl
@[simp] theorem updEngine_kln (e : Nat) (f : Engine → Engine) (s : State) : (updEngine e f s).kln = s.kln := rfl
@[simp] theorem updEngine_ports (e : Nat) (f : Engine → Engine) (s : State) : (updEngine e f s).ports = s.ports := rfl
@[simp] theorem updEngine_pif (e : Nat) (f : Engine → Engine) (s : State) : (updEngine e f s).pif = s.pif := rfl
@[simp] theorem updEngine_mot (e : Nat) (f : Engine → Engine) (s : State) : (updEngine e f s).mot = s.mot := rfl
@[simp] theorem updEngine_pwr (e : Nat) (f : Engine → Engine) (s : State) : (updEngine e f s).pwr = s.pwr := rfl
@[simp] theorem updEngine_crk (e : Nat) (f : Engine → Engine) (s : State) : (updEngine e f s).crk = s.crk := rfl
@[simp] theorem updEngine_sag (e : Nat) (f : Engine → Engine) (s : State) : (updEngine e f s).sag = s.sag := rfl
@[simp] theorem updEngine_tly (e : Nat) (f : Engine → Engine) (s : State) : (updEngine e f s).tly = s.tly := rfl
@[simp] theorem updEngine_trm (e : Nat) (f : Engine → Engine) (s : State) : (updEngine e f s).trm = s.trm := rfl
@[simp] theorem updEngine_clk (e : Nat) (f : Engine → Engine) (s : State) : (updEngine e f s).clk = s.clk := rfl
@[simp] theorem updEngine_thm (e : Nat) (f : Engine → Engine) (s : State) : (updEngine e f s).thm = s.thm := rfl
@[simp] theorem updEngine_fans (e : Nat) (f : Engine → Engine) (s : State) : (updEngine e f s).fans = s.fans := rfl
@[simp] theorem updEngine_ipl (e : Nat) (f : Engine → Engine) (s : State) : (updEngine e f s).ipl = s.ipl := rfl
@[simp] theorem updEngine_win (e : Nat) (f : Engine → Engine) (s : State) : (updEngine e f s).win = s.win := rfl
@[simp] theorem updEngine_gln (e : Nat) (f : Engine → Engine) (s : State) : (updEngine e f s).gln = s.gln := rfl
@[simp] theorem updEngine_cal (e : Nat) (f : Engine → Engine) (s : State) : (updEngine e f s).cal = s.cal := rfl
@[simp] theorem updFan_pending (n : Nat) (f : Fan → Fan) (s : State) : (updFan n f s).pending = s.pending := rfl
@[simp] theorem updFan_free (n : Nat) (f : Fan → Fan) (s : State) : (updFan n f s).free = s.free := rfl
@[simp] theorem updFan_out (n : Nat) (f : Fan → Fan) (s : State) : (updFan n f s).out = s.out := rfl
@[simp] theorem updFan_regs (n : Nat) (f : Fan → Fan) (s : State) : (updFan n f s).regs = s.regs := rfl
@[simp] theorem updFan_pages (n : Nat) (f : Fan → Fan) (s : State) : (updFan n f s).pages = s.pages := rfl
@[simp] theorem updFan_clock (n : Nat) (f : Fan → Fan) (s : State) : (updFan n f s).clock = s.clock := rfl
@[simp] theorem updFan_hif (n : Nat) (f : Fan → Fan) (s : State) : (updFan n f s).hif = s.hif := rfl
@[simp] theorem updFan_stk (n : Nat) (f : Fan → Fan) (s : State) : (updFan n f s).stk = s.stk := rfl
@[simp] theorem updFan_fw (n : Nat) (f : Fan → Fan) (s : State) : (updFan n f s).fw = s.fw := rfl
@[simp] theorem updFan_jobs (n : Nat) (f : Fan → Fan) (s : State) : (updFan n f s).jobs = s.jobs := rfl
@[simp] theorem updFan_thr (n : Nat) (f : Fan → Fan) (s : State) : (updFan n f s).thr = s.thr := rfl
@[simp] theorem updFan_mil (n : Nat) (f : Fan → Fan) (s : State) : (updFan n f s).mil = s.mil := rfl
@[simp] theorem updFan_glz (n : Nat) (f : Fan → Fan) (s : State) : (updFan n f s).glz = s.glz := rfl
@[simp] theorem updFan_til (n : Nat) (f : Fan → Fan) (s : State) : (updFan n f s).til = s.til := rfl
@[simp] theorem updFan_kln (n : Nat) (f : Fan → Fan) (s : State) : (updFan n f s).kln = s.kln := rfl
@[simp] theorem updFan_ports (n : Nat) (f : Fan → Fan) (s : State) : (updFan n f s).ports = s.ports := rfl
@[simp] theorem updFan_pif (n : Nat) (f : Fan → Fan) (s : State) : (updFan n f s).pif = s.pif := rfl
@[simp] theorem updFan_mot (n : Nat) (f : Fan → Fan) (s : State) : (updFan n f s).mot = s.mot := rfl
@[simp] theorem updFan_pwr (n : Nat) (f : Fan → Fan) (s : State) : (updFan n f s).pwr = s.pwr := rfl
@[simp] theorem updFan_crk (n : Nat) (f : Fan → Fan) (s : State) : (updFan n f s).crk = s.crk := rfl
@[simp] theorem updFan_sag (n : Nat) (f : Fan → Fan) (s : State) : (updFan n f s).sag = s.sag := rfl
@[simp] theorem updFan_tly (n : Nat) (f : Fan → Fan) (s : State) : (updFan n f s).tly = s.tly := rfl
@[simp] theorem updFan_trm (n : Nat) (f : Fan → Fan) (s : State) : (updFan n f s).trm = s.trm := rfl
@[simp] theorem updFan_clk (n : Nat) (f : Fan → Fan) (s : State) : (updFan n f s).clk = s.clk := rfl
@[simp] theorem updFan_thm (n : Nat) (f : Fan → Fan) (s : State) : (updFan n f s).thm = s.thm := rfl
@[simp] theorem updFan_ipl (n : Nat) (f : Fan → Fan) (s : State) : (updFan n f s).ipl = s.ipl := rfl
@[simp] theorem updFan_win (n : Nat) (f : Fan → Fan) (s : State) : (updFan n f s).win = s.win := rfl
@[simp] theorem updFan_gln (n : Nat) (f : Fan → Fan) (s : State) : (updFan n f s).gln = s.gln := rfl
@[simp] theorem updFan_cal (n : Nat) (f : Fan → Fan) (s : State) : (updFan n f s).cal = s.cal := rfl
@[simp] theorem updTly_pending (i : Nat) (f : TlySlot → TlySlot) (s : State) : (updTly i f s).pending = s.pending := rfl
@[simp] theorem updTly_free (i : Nat) (f : TlySlot → TlySlot) (s : State) : (updTly i f s).free = s.free := rfl
@[simp] theorem updTly_out (i : Nat) (f : TlySlot → TlySlot) (s : State) : (updTly i f s).out = s.out := rfl
@[simp] theorem updTly_regs (i : Nat) (f : TlySlot → TlySlot) (s : State) : (updTly i f s).regs = s.regs := rfl
@[simp] theorem updTly_pages (i : Nat) (f : TlySlot → TlySlot) (s : State) : (updTly i f s).pages = s.pages := rfl
@[simp] theorem updTly_clock (i : Nat) (f : TlySlot → TlySlot) (s : State) : (updTly i f s).clock = s.clock := rfl
@[simp] theorem updTly_hif (i : Nat) (f : TlySlot → TlySlot) (s : State) : (updTly i f s).hif = s.hif := rfl
@[simp] theorem updTly_stk (i : Nat) (f : TlySlot → TlySlot) (s : State) : (updTly i f s).stk = s.stk := rfl
@[simp] theorem updTly_fw (i : Nat) (f : TlySlot → TlySlot) (s : State) : (updTly i f s).fw = s.fw := rfl
@[simp] theorem updTly_jobs (i : Nat) (f : TlySlot → TlySlot) (s : State) : (updTly i f s).jobs = s.jobs := rfl
@[simp] theorem updTly_thr (i : Nat) (f : TlySlot → TlySlot) (s : State) : (updTly i f s).thr = s.thr := rfl
@[simp] theorem updTly_mil (i : Nat) (f : TlySlot → TlySlot) (s : State) : (updTly i f s).mil = s.mil := rfl
@[simp] theorem updTly_glz (i : Nat) (f : TlySlot → TlySlot) (s : State) : (updTly i f s).glz = s.glz := rfl
@[simp] theorem updTly_til (i : Nat) (f : TlySlot → TlySlot) (s : State) : (updTly i f s).til = s.til := rfl
@[simp] theorem updTly_kln (i : Nat) (f : TlySlot → TlySlot) (s : State) : (updTly i f s).kln = s.kln := rfl
@[simp] theorem updTly_ports (i : Nat) (f : TlySlot → TlySlot) (s : State) : (updTly i f s).ports = s.ports := rfl
@[simp] theorem updTly_pif (i : Nat) (f : TlySlot → TlySlot) (s : State) : (updTly i f s).pif = s.pif := rfl
@[simp] theorem updTly_mot (i : Nat) (f : TlySlot → TlySlot) (s : State) : (updTly i f s).mot = s.mot := rfl
@[simp] theorem updTly_pwr (i : Nat) (f : TlySlot → TlySlot) (s : State) : (updTly i f s).pwr = s.pwr := rfl
@[simp] theorem updTly_crk (i : Nat) (f : TlySlot → TlySlot) (s : State) : (updTly i f s).crk = s.crk := rfl
@[simp] theorem updTly_sag (i : Nat) (f : TlySlot → TlySlot) (s : State) : (updTly i f s).sag = s.sag := rfl
@[simp] theorem updTly_trm (i : Nat) (f : TlySlot → TlySlot) (s : State) : (updTly i f s).trm = s.trm := rfl
@[simp] theorem updTly_clk (i : Nat) (f : TlySlot → TlySlot) (s : State) : (updTly i f s).clk = s.clk := rfl
@[simp] theorem updTly_thm (i : Nat) (f : TlySlot → TlySlot) (s : State) : (updTly i f s).thm = s.thm := rfl
@[simp] theorem updTly_fans (i : Nat) (f : TlySlot → TlySlot) (s : State) : (updTly i f s).fans = s.fans := rfl
@[simp] theorem updTly_ipl (i : Nat) (f : TlySlot → TlySlot) (s : State) : (updTly i f s).ipl = s.ipl := rfl
@[simp] theorem updTly_win (i : Nat) (f : TlySlot → TlySlot) (s : State) : (updTly i f s).win = s.win := rfl
@[simp] theorem updTly_gln (i : Nat) (f : TlySlot → TlySlot) (s : State) : (updTly i f s).gln = s.gln := rfl
@[simp] theorem updTly_cal (i : Nat) (f : TlySlot → TlySlot) (s : State) : (updTly i f s).cal = s.cal := rfl
@[simp] theorem updTenant_pending (t : Nat) (f : Tenant → Tenant) (s : State) : (updTenant t f s).pending = s.pending := rfl
@[simp] theorem updTenant_free (t : Nat) (f : Tenant → Tenant) (s : State) : (updTenant t f s).free = s.free := rfl
@[simp] theorem updTenant_out (t : Nat) (f : Tenant → Tenant) (s : State) : (updTenant t f s).out = s.out := rfl
@[simp] theorem updTenant_regs (t : Nat) (f : Tenant → Tenant) (s : State) : (updTenant t f s).regs = s.regs := rfl
@[simp] theorem updTenant_pages (t : Nat) (f : Tenant → Tenant) (s : State) : (updTenant t f s).pages = s.pages := rfl
@[simp] theorem updTenant_clock (t : Nat) (f : Tenant → Tenant) (s : State) : (updTenant t f s).clock = s.clock := rfl
@[simp] theorem updTenant_hif (t : Nat) (f : Tenant → Tenant) (s : State) : (updTenant t f s).hif = s.hif := rfl
@[simp] theorem updTenant_stk (t : Nat) (f : Tenant → Tenant) (s : State) : (updTenant t f s).stk = s.stk := rfl
@[simp] theorem updTenant_fw (t : Nat) (f : Tenant → Tenant) (s : State) : (updTenant t f s).fw = s.fw := rfl
@[simp] theorem updTenant_thr (t : Nat) (f : Tenant → Tenant) (s : State) : (updTenant t f s).thr = s.thr := rfl
@[simp] theorem updTenant_mil (t : Nat) (f : Tenant → Tenant) (s : State) : (updTenant t f s).mil = s.mil := rfl
@[simp] theorem updTenant_glz (t : Nat) (f : Tenant → Tenant) (s : State) : (updTenant t f s).glz = s.glz := rfl
@[simp] theorem updTenant_til (t : Nat) (f : Tenant → Tenant) (s : State) : (updTenant t f s).til = s.til := rfl
@[simp] theorem updTenant_kln (t : Nat) (f : Tenant → Tenant) (s : State) : (updTenant t f s).kln = s.kln := rfl
@[simp] theorem updTenant_ports (t : Nat) (f : Tenant → Tenant) (s : State) : (updTenant t f s).ports = s.ports := rfl
@[simp] theorem updTenant_pif (t : Nat) (f : Tenant → Tenant) (s : State) : (updTenant t f s).pif = s.pif := rfl
@[simp] theorem updTenant_mot (t : Nat) (f : Tenant → Tenant) (s : State) : (updTenant t f s).mot = s.mot := rfl
@[simp] theorem updTenant_pwr (t : Nat) (f : Tenant → Tenant) (s : State) : (updTenant t f s).pwr = s.pwr := rfl
@[simp] theorem updTenant_crk (t : Nat) (f : Tenant → Tenant) (s : State) : (updTenant t f s).crk = s.crk := rfl
@[simp] theorem updTenant_sag (t : Nat) (f : Tenant → Tenant) (s : State) : (updTenant t f s).sag = s.sag := rfl
@[simp] theorem updTenant_tly (t : Nat) (f : Tenant → Tenant) (s : State) : (updTenant t f s).tly = s.tly := rfl
@[simp] theorem updTenant_trm (t : Nat) (f : Tenant → Tenant) (s : State) : (updTenant t f s).trm = s.trm := rfl
@[simp] theorem updTenant_clk (t : Nat) (f : Tenant → Tenant) (s : State) : (updTenant t f s).clk = s.clk := rfl
@[simp] theorem updTenant_thm (t : Nat) (f : Tenant → Tenant) (s : State) : (updTenant t f s).thm = s.thm := rfl
@[simp] theorem updTenant_fans (t : Nat) (f : Tenant → Tenant) (s : State) : (updTenant t f s).fans = s.fans := rfl
@[simp] theorem updTenant_ipl (t : Nat) (f : Tenant → Tenant) (s : State) : (updTenant t f s).ipl = s.ipl := rfl
@[simp] theorem updTenant_win (t : Nat) (f : Tenant → Tenant) (s : State) : (updTenant t f s).win = s.win := rfl
@[simp] theorem updTenant_gln (t : Nat) (f : Tenant → Tenant) (s : State) : (updTenant t f s).gln = s.gln := rfl
@[simp] theorem updTenant_cal (t : Nat) (f : Tenant → Tenant) (s : State) : (updTenant t f s).cal = s.cal := rfl
@[simp] theorem updSag_pending (t : Nat) (f : SagTenant → SagTenant) (s : State) : (updSag t f s).pending = s.pending := rfl
@[simp] theorem updSag_free (t : Nat) (f : SagTenant → SagTenant) (s : State) : (updSag t f s).free = s.free := rfl
@[simp] theorem updSag_out (t : Nat) (f : SagTenant → SagTenant) (s : State) : (updSag t f s).out = s.out := rfl
@[simp] theorem updSag_regs (t : Nat) (f : SagTenant → SagTenant) (s : State) : (updSag t f s).regs = s.regs := rfl
@[simp] theorem updSag_pages (t : Nat) (f : SagTenant → SagTenant) (s : State) : (updSag t f s).pages = s.pages := rfl
@[simp] theorem updSag_clock (t : Nat) (f : SagTenant → SagTenant) (s : State) : (updSag t f s).clock = s.clock := rfl
@[simp] theorem updSag_hif (t : Nat) (f : SagTenant → SagTenant) (s : State) : (updSag t f s).hif = s.hif := rfl
@[simp] theorem updSag_stk (t : Nat) (f : SagTenant → SagTenant) (s : State) : (updSag t f s).stk = s.stk := rfl
@[simp] theorem updSag_fw (t : Nat) (f : SagTenant → SagTenant) (s : State) : (updSag t f s).fw = s.fw := rfl
@[simp] theorem updSag_jobs (t : Nat) (f : SagTenant → SagTenant) (s : State) : (updSag t f s).jobs = s.jobs := rfl
@[simp] theorem updSag_thr (t : Nat) (f : SagTenant → SagTenant) (s : State) : (updSag t f s).thr = s.thr := rfl
@[simp] theorem updSag_mil (t : Nat) (f : SagTenant → SagTenant) (s : State) : (updSag t f s).mil = s.mil := rfl
@[simp] theorem updSag_glz (t : Nat) (f : SagTenant → SagTenant) (s : State) : (updSag t f s).glz = s.glz := rfl
@[simp] theorem updSag_til (t : Nat) (f : SagTenant → SagTenant) (s : State) : (updSag t f s).til = s.til := rfl
@[simp] theorem updSag_kln (t : Nat) (f : SagTenant → SagTenant) (s : State) : (updSag t f s).kln = s.kln := rfl
@[simp] theorem updSag_ports (t : Nat) (f : SagTenant → SagTenant) (s : State) : (updSag t f s).ports = s.ports := rfl
@[simp] theorem updSag_pif (t : Nat) (f : SagTenant → SagTenant) (s : State) : (updSag t f s).pif = s.pif := rfl
@[simp] theorem updSag_mot (t : Nat) (f : SagTenant → SagTenant) (s : State) : (updSag t f s).mot = s.mot := rfl
@[simp] theorem updSag_pwr (t : Nat) (f : SagTenant → SagTenant) (s : State) : (updSag t f s).pwr = s.pwr := rfl
@[simp] theorem updSag_crk (t : Nat) (f : SagTenant → SagTenant) (s : State) : (updSag t f s).crk = s.crk := rfl
@[simp] theorem updSag_tly (t : Nat) (f : SagTenant → SagTenant) (s : State) : (updSag t f s).tly = s.tly := rfl
@[simp] theorem updSag_trm (t : Nat) (f : SagTenant → SagTenant) (s : State) : (updSag t f s).trm = s.trm := rfl
@[simp] theorem updSag_clk (t : Nat) (f : SagTenant → SagTenant) (s : State) : (updSag t f s).clk = s.clk := rfl
@[simp] theorem updSag_thm (t : Nat) (f : SagTenant → SagTenant) (s : State) : (updSag t f s).thm = s.thm := rfl
@[simp] theorem updSag_fans (t : Nat) (f : SagTenant → SagTenant) (s : State) : (updSag t f s).fans = s.fans := rfl
@[simp] theorem updSag_ipl (t : Nat) (f : SagTenant → SagTenant) (s : State) : (updSag t f s).ipl = s.ipl := rfl
@[simp] theorem updSag_win (t : Nat) (f : SagTenant → SagTenant) (s : State) : (updSag t f s).win = s.win := rfl
@[simp] theorem updSag_gln (t : Nat) (f : SagTenant → SagTenant) (s : State) : (updSag t f s).gln = s.gln := rfl
@[simp] theorem updSag_cal (t : Nat) (f : SagTenant → SagTenant) (s : State) : (updSag t f s).cal = s.cal := rfl
@[simp] theorem putGlean_pending (p : Nat) (w : GleanWin) (s : State) : (putGlean p w s).pending = s.pending := rfl
@[simp] theorem putGlean_free (p : Nat) (w : GleanWin) (s : State) : (putGlean p w s).free = s.free := rfl
@[simp] theorem putGlean_out (p : Nat) (w : GleanWin) (s : State) : (putGlean p w s).out = s.out := rfl
@[simp] theorem putGlean_regs (p : Nat) (w : GleanWin) (s : State) : (putGlean p w s).regs = s.regs := rfl
@[simp] theorem putGlean_pages (p : Nat) (w : GleanWin) (s : State) : (putGlean p w s).pages = s.pages := rfl
@[simp] theorem putGlean_clock (p : Nat) (w : GleanWin) (s : State) : (putGlean p w s).clock = s.clock := rfl
@[simp] theorem putGlean_hif (p : Nat) (w : GleanWin) (s : State) : (putGlean p w s).hif = s.hif := rfl
@[simp] theorem putGlean_stk (p : Nat) (w : GleanWin) (s : State) : (putGlean p w s).stk = s.stk := rfl
@[simp] theorem putGlean_fw (p : Nat) (w : GleanWin) (s : State) : (putGlean p w s).fw = s.fw := rfl
@[simp] theorem putGlean_jobs (p : Nat) (w : GleanWin) (s : State) : (putGlean p w s).jobs = s.jobs := rfl
@[simp] theorem putGlean_thr (p : Nat) (w : GleanWin) (s : State) : (putGlean p w s).thr = s.thr := rfl
@[simp] theorem putGlean_mil (p : Nat) (w : GleanWin) (s : State) : (putGlean p w s).mil = s.mil := rfl
@[simp] theorem putGlean_glz (p : Nat) (w : GleanWin) (s : State) : (putGlean p w s).glz = s.glz := rfl
@[simp] theorem putGlean_til (p : Nat) (w : GleanWin) (s : State) : (putGlean p w s).til = s.til := rfl
@[simp] theorem putGlean_kln (p : Nat) (w : GleanWin) (s : State) : (putGlean p w s).kln = s.kln := rfl
@[simp] theorem putGlean_ports (p : Nat) (w : GleanWin) (s : State) : (putGlean p w s).ports = s.ports := rfl
@[simp] theorem putGlean_pif (p : Nat) (w : GleanWin) (s : State) : (putGlean p w s).pif = s.pif := rfl
@[simp] theorem putGlean_mot (p : Nat) (w : GleanWin) (s : State) : (putGlean p w s).mot = s.mot := rfl
@[simp] theorem putGlean_pwr (p : Nat) (w : GleanWin) (s : State) : (putGlean p w s).pwr = s.pwr := rfl
@[simp] theorem putGlean_crk (p : Nat) (w : GleanWin) (s : State) : (putGlean p w s).crk = s.crk := rfl
@[simp] theorem putGlean_sag (p : Nat) (w : GleanWin) (s : State) : (putGlean p w s).sag = s.sag := rfl
@[simp] theorem putGlean_tly (p : Nat) (w : GleanWin) (s : State) : (putGlean p w s).tly = s.tly := rfl
@[simp] theorem putGlean_trm (p : Nat) (w : GleanWin) (s : State) : (putGlean p w s).trm = s.trm := rfl
@[simp] theorem putGlean_clk (p : Nat) (w : GleanWin) (s : State) : (putGlean p w s).clk = s.clk := rfl
@[simp] theorem putGlean_thm (p : Nat) (w : GleanWin) (s : State) : (putGlean p w s).thm = s.thm := rfl
@[simp] theorem putGlean_fans (p : Nat) (w : GleanWin) (s : State) : (putGlean p w s).fans = s.fans := rfl
@[simp] theorem putGlean_ipl (p : Nat) (w : GleanWin) (s : State) : (putGlean p w s).ipl = s.ipl := rfl
@[simp] theorem putGlean_win (p : Nat) (w : GleanWin) (s : State) : (putGlean p w s).win = s.win := rfl
@[simp] theorem putGlean_cal (p : Nat) (w : GleanWin) (s : State) : (putGlean p w s).cal = s.cal := rfl
@[simp] theorem putInsp_pending (c : Nat) (x : Insp) (s : State) : (putInsp c x s).pending = s.pending := rfl
@[simp] theorem putInsp_free (c : Nat) (x : Insp) (s : State) : (putInsp c x s).free = s.free := rfl
@[simp] theorem putInsp_out (c : Nat) (x : Insp) (s : State) : (putInsp c x s).out = s.out := rfl
@[simp] theorem putInsp_regs (c : Nat) (x : Insp) (s : State) : (putInsp c x s).regs = s.regs := rfl
@[simp] theorem putInsp_pages (c : Nat) (x : Insp) (s : State) : (putInsp c x s).pages = s.pages := rfl
@[simp] theorem putInsp_clock (c : Nat) (x : Insp) (s : State) : (putInsp c x s).clock = s.clock := rfl
@[simp] theorem putInsp_hif (c : Nat) (x : Insp) (s : State) : (putInsp c x s).hif = s.hif := rfl
@[simp] theorem putInsp_stk (c : Nat) (x : Insp) (s : State) : (putInsp c x s).stk = s.stk := rfl
@[simp] theorem putInsp_fw (c : Nat) (x : Insp) (s : State) : (putInsp c x s).fw = s.fw := rfl
@[simp] theorem putInsp_jobs (c : Nat) (x : Insp) (s : State) : (putInsp c x s).jobs = s.jobs := rfl
@[simp] theorem putInsp_thr (c : Nat) (x : Insp) (s : State) : (putInsp c x s).thr = s.thr := rfl
@[simp] theorem putInsp_mil (c : Nat) (x : Insp) (s : State) : (putInsp c x s).mil = s.mil := rfl
@[simp] theorem putInsp_glz (c : Nat) (x : Insp) (s : State) : (putInsp c x s).glz = s.glz := rfl
@[simp] theorem putInsp_til (c : Nat) (x : Insp) (s : State) : (putInsp c x s).til = s.til := rfl
@[simp] theorem putInsp_kln (c : Nat) (x : Insp) (s : State) : (putInsp c x s).kln = s.kln := rfl
@[simp] theorem putInsp_ports (c : Nat) (x : Insp) (s : State) : (putInsp c x s).ports = s.ports := rfl
@[simp] theorem putInsp_pif (c : Nat) (x : Insp) (s : State) : (putInsp c x s).pif = s.pif := rfl
@[simp] theorem putInsp_mot (c : Nat) (x : Insp) (s : State) : (putInsp c x s).mot = s.mot := rfl
@[simp] theorem putInsp_pwr (c : Nat) (x : Insp) (s : State) : (putInsp c x s).pwr = s.pwr := rfl
@[simp] theorem putInsp_crk (c : Nat) (x : Insp) (s : State) : (putInsp c x s).crk = s.crk := rfl
@[simp] theorem putInsp_sag (c : Nat) (x : Insp) (s : State) : (putInsp c x s).sag = s.sag := rfl
@[simp] theorem putInsp_tly (c : Nat) (x : Insp) (s : State) : (putInsp c x s).tly = s.tly := rfl
@[simp] theorem putInsp_trm (c : Nat) (x : Insp) (s : State) : (putInsp c x s).trm = s.trm := rfl
@[simp] theorem putInsp_clk (c : Nat) (x : Insp) (s : State) : (putInsp c x s).clk = s.clk := rfl
@[simp] theorem putInsp_thm (c : Nat) (x : Insp) (s : State) : (putInsp c x s).thm = s.thm := rfl
@[simp] theorem putInsp_fans (c : Nat) (x : Insp) (s : State) : (putInsp c x s).fans = s.fans := rfl
@[simp] theorem putInsp_ipl (c : Nat) (x : Insp) (s : State) : (putInsp c x s).ipl = s.ipl := rfl
@[simp] theorem putInsp_gln (c : Nat) (x : Insp) (s : State) : (putInsp c x s).gln = s.gln := rfl
@[simp] theorem putInsp_cal (c : Nat) (x : Insp) (s : State) : (putInsp c x s).cal = s.cal := rfl
@[simp] theorem park_pending (p : Parked) (s : State) : (park p s).pending = s.pending := rfl
@[simp] theorem park_free (p : Parked) (s : State) : (park p s).free = s.free := rfl
@[simp] theorem park_out (p : Parked) (s : State) : (park p s).out = s.out := rfl
@[simp] theorem park_regs (p : Parked) (s : State) : (park p s).regs = s.regs := rfl
@[simp] theorem park_pages (p : Parked) (s : State) : (park p s).pages = s.pages := rfl
@[simp] theorem park_clock (p : Parked) (s : State) : (park p s).clock = s.clock := rfl
@[simp] theorem park_hif (p : Parked) (s : State) : (park p s).hif = s.hif := rfl
@[simp] theorem park_stk (p : Parked) (s : State) : (park p s).stk = s.stk := rfl
@[simp] theorem park_jobs (p : Parked) (s : State) : (park p s).jobs = s.jobs := rfl
@[simp] theorem park_thr (p : Parked) (s : State) : (park p s).thr = s.thr := rfl
@[simp] theorem park_mil (p : Parked) (s : State) : (park p s).mil = s.mil := rfl
@[simp] theorem park_glz (p : Parked) (s : State) : (park p s).glz = s.glz := rfl
@[simp] theorem park_til (p : Parked) (s : State) : (park p s).til = s.til := rfl
@[simp] theorem park_kln (p : Parked) (s : State) : (park p s).kln = s.kln := rfl
@[simp] theorem park_ports (p : Parked) (s : State) : (park p s).ports = s.ports := rfl
@[simp] theorem park_pif (p : Parked) (s : State) : (park p s).pif = s.pif := rfl
@[simp] theorem park_mot (p : Parked) (s : State) : (park p s).mot = s.mot := rfl
@[simp] theorem park_pwr (p : Parked) (s : State) : (park p s).pwr = s.pwr := rfl
@[simp] theorem park_crk (p : Parked) (s : State) : (park p s).crk = s.crk := rfl
@[simp] theorem park_sag (p : Parked) (s : State) : (park p s).sag = s.sag := rfl
@[simp] theorem park_tly (p : Parked) (s : State) : (park p s).tly = s.tly := rfl
@[simp] theorem park_trm (p : Parked) (s : State) : (park p s).trm = s.trm := rfl
@[simp] theorem park_clk (p : Parked) (s : State) : (park p s).clk = s.clk := rfl
@[simp] theorem park_thm (p : Parked) (s : State) : (park p s).thm = s.thm := rfl
@[simp] theorem park_fans (p : Parked) (s : State) : (park p s).fans = s.fans := rfl
@[simp] theorem park_ipl (p : Parked) (s : State) : (park p s).ipl = s.ipl := rfl
@[simp] theorem park_win (p : Parked) (s : State) : (park p s).win = s.win := rfl
@[simp] theorem park_gln (p : Parked) (s : State) : (park p s).gln = s.gln := rfl
@[simp] theorem park_cal (p : Parked) (s : State) : (park p s).cal = s.cal := rfl
@[simp] theorem taken_pending (d : Desc) (s : State) : (taken d s).pending = s.pending := rfl
@[simp] theorem taken_free (d : Desc) (s : State) : (taken d s).free = s.free := rfl
@[simp] theorem taken_out (d : Desc) (s : State) : (taken d s).out = s.out := rfl
@[simp] theorem taken_regs (d : Desc) (s : State) : (taken d s).regs = s.regs := rfl
@[simp] theorem taken_pages (d : Desc) (s : State) : (taken d s).pages = s.pages := rfl
@[simp] theorem taken_clock (d : Desc) (s : State) : (taken d s).clock = s.clock := rfl
@[simp] theorem taken_stk (d : Desc) (s : State) : (taken d s).stk = s.stk := rfl
@[simp] theorem taken_jobs (d : Desc) (s : State) : (taken d s).jobs = s.jobs := rfl
@[simp] theorem taken_thr (d : Desc) (s : State) : (taken d s).thr = s.thr := rfl
@[simp] theorem taken_mil (d : Desc) (s : State) : (taken d s).mil = s.mil := rfl
@[simp] theorem taken_glz (d : Desc) (s : State) : (taken d s).glz = s.glz := rfl
@[simp] theorem taken_til (d : Desc) (s : State) : (taken d s).til = s.til := rfl
@[simp] theorem taken_kln (d : Desc) (s : State) : (taken d s).kln = s.kln := rfl
@[simp] theorem taken_ports (d : Desc) (s : State) : (taken d s).ports = s.ports := rfl
@[simp] theorem taken_pif (d : Desc) (s : State) : (taken d s).pif = s.pif := rfl
@[simp] theorem taken_mot (d : Desc) (s : State) : (taken d s).mot = s.mot := rfl
@[simp] theorem taken_pwr (d : Desc) (s : State) : (taken d s).pwr = s.pwr := rfl
@[simp] theorem taken_crk (d : Desc) (s : State) : (taken d s).crk = s.crk := rfl
@[simp] theorem taken_sag (d : Desc) (s : State) : (taken d s).sag = s.sag := rfl
@[simp] theorem taken_tly (d : Desc) (s : State) : (taken d s).tly = s.tly := rfl
@[simp] theorem taken_trm (d : Desc) (s : State) : (taken d s).trm = s.trm := rfl
@[simp] theorem taken_clk (d : Desc) (s : State) : (taken d s).clk = s.clk := rfl
@[simp] theorem taken_thm (d : Desc) (s : State) : (taken d s).thm = s.thm := rfl
@[simp] theorem taken_fans (d : Desc) (s : State) : (taken d s).fans = s.fans := rfl
@[simp] theorem taken_ipl (d : Desc) (s : State) : (taken d s).ipl = s.ipl := rfl
@[simp] theorem taken_win (d : Desc) (s : State) : (taken d s).win = s.win := rfl
@[simp] theorem taken_gln (d : Desc) (s : State) : (taken d s).gln = s.gln := rfl
@[simp] theorem taken_cal (d : Desc) (s : State) : (taken d s).cal = s.cal := rfl
@[simp] theorem draw_pending (w : Nat) (s : State) : (draw w s).2.pending = s.pending := rfl
@[simp] theorem draw_out (w : Nat) (s : State) : (draw w s).2.out = s.out := rfl
@[simp] theorem draw_regs (w : Nat) (s : State) : (draw w s).2.regs = s.regs := rfl
@[simp] theorem draw_pages (w : Nat) (s : State) : (draw w s).2.pages = s.pages := rfl
@[simp] theorem draw_clock (w : Nat) (s : State) : (draw w s).2.clock = s.clock := rfl
@[simp] theorem draw_hif (w : Nat) (s : State) : (draw w s).2.hif = s.hif := rfl
@[simp] theorem draw_stk (w : Nat) (s : State) : (draw w s).2.stk = s.stk := rfl
@[simp] theorem draw_fw (w : Nat) (s : State) : (draw w s).2.fw = s.fw := rfl
@[simp] theorem draw_jobs (w : Nat) (s : State) : (draw w s).2.jobs = s.jobs := rfl
@[simp] theorem draw_thr (w : Nat) (s : State) : (draw w s).2.thr = s.thr := rfl
@[simp] theorem draw_mil (w : Nat) (s : State) : (draw w s).2.mil = s.mil := rfl
@[simp] theorem draw_glz (w : Nat) (s : State) : (draw w s).2.glz = s.glz := rfl
@[simp] theorem draw_til (w : Nat) (s : State) : (draw w s).2.til = s.til := rfl
@[simp] theorem draw_kln (w : Nat) (s : State) : (draw w s).2.kln = s.kln := rfl
@[simp] theorem draw_ports (w : Nat) (s : State) : (draw w s).2.ports = s.ports := rfl
@[simp] theorem draw_pif (w : Nat) (s : State) : (draw w s).2.pif = s.pif := rfl
@[simp] theorem draw_mot (w : Nat) (s : State) : (draw w s).2.mot = s.mot := rfl
@[simp] theorem draw_pwr (w : Nat) (s : State) : (draw w s).2.pwr = s.pwr := rfl
@[simp] theorem draw_crk (w : Nat) (s : State) : (draw w s).2.crk = s.crk := rfl
@[simp] theorem draw_sag (w : Nat) (s : State) : (draw w s).2.sag = s.sag := rfl
@[simp] theorem draw_tly (w : Nat) (s : State) : (draw w s).2.tly = s.tly := rfl
@[simp] theorem draw_trm (w : Nat) (s : State) : (draw w s).2.trm = s.trm := rfl
@[simp] theorem draw_clk (w : Nat) (s : State) : (draw w s).2.clk = s.clk := rfl
@[simp] theorem draw_thm (w : Nat) (s : State) : (draw w s).2.thm = s.thm := rfl
@[simp] theorem draw_fans (w : Nat) (s : State) : (draw w s).2.fans = s.fans := rfl
@[simp] theorem draw_ipl (w : Nat) (s : State) : (draw w s).2.ipl = s.ipl := rfl
@[simp] theorem draw_win (w : Nat) (s : State) : (draw w s).2.win = s.win := rfl
@[simp] theorem draw_gln (w : Nat) (s : State) : (draw w s).2.gln = s.gln := rfl
@[simp] theorem draw_cal (w : Nat) (s : State) : (draw w s).2.cal = s.cal := rfl
@[simp] theorem draw_free (w : Nat) (s : State) : (draw w s).2.free = s.free + 1 := rfl

end Sys2Proof.Machine
end

