-- ==== Sys2Proof/Laws/Access.lean ====
section
/-! SUPPORT. What a write that gets through comes to, and what raising an interrupt or posting an event leaves of the registers. -/

namespace Sys2Proof.Machine
open Sys2Proof

theorem guardAccess_writable {ini : Initiator} {addr : Nat} {s : State} (h : Writable ini addr s = true) (op : State → State) :
    guardAccess ini addr allBytes op s = op s := by
  simp only [Writable, Bool.and_eq_true, Bool.not_eq_true'] at h
  obtain ⟨⟨⟨h1, h2⟩, h3⟩, h4⟩ := h
  simp [guardAccess, h1, h2, h3, h4, allBytes]

theorem guardWrite_writable {ini : Initiator} {addr : Nat} {v : Word} {s : State} (h : Writable ini addr s = true)
    (hr : inRange addr v = true) (op : Word → State → State) : guardWrite ini addr allBytes v op s = op v s := by
  rw [guardWrite, guardAccess_writable h]
  simp [hr]

theorem guardRead_readable {ini : Initiator} {addr : Nat} {s : State} (h1 : clocked s = true) (h2 : pageUp s (addr / 0x1000) = true)
    (h3 : pageBusy s (addr / 0x1000) = false) (op : State → State) : guardRead ini addr op s = op s := by
  simp only [pageUp, Bool.and_eq_true, Bool.not_eq_true', Option.isSome_iff_ne_none] at h2
  simp [guardRead, h1, h2.1, h2.2, h3]

/-- A register that stands behind no select register. -/
def plainKey (addr : Nat) : Bool :=
  match pageOf (addr / 0x1000) with
  | some (.klnP, _) => !decide (0x070 ≤ addr % 0x1000 ∧ addr % 0x1000 ≤ 0x088 ∧ addr % 0x1000 ≠ 0x080)
  | some _ => (windows.find? fun w => decide (w.1 ≤ addr ∧ addr ≤ w.2.1)).isNone
  | none => true

theorem keyOf_plain {addr : Nat} (h : plainKey addr = true) (s : State) : keyOf s addr = addr := by
  have h0 : windowIndex s addr = 0 := by
    rcases hp : pageOf (addr / 0x1000) with _ | ⟨k, p⟩
    · simp [windowIndex, hp]
    · cases k <;> simp only [plainKey, windowIndex, hp, Bool.not_eq_true', decide_eq_false_iff_not,
        Option.isNone_iff_eq_none] at h ⊢ <;> first | rw [h] | rw [if_neg h]
  rw [keyOf, h0]
  simp [wkey]

/-- A plain write puts the value a field at a time. -/
theorem plainPut_rw {addr : Nat} {r : RegDef} (hd : regDef addr = some r) (ha : r.acc = .rw ∨ r.acc = .mixed) (v : Word) (s : State) :
    plainPut addr v s = wr (keyOf s addr) (plainValue r (rd s (keyOf s addr)) v) s := by
  simp [plainPut, hd, ha]

@[simp] theorem rd_putPage (n : Nat) (p : Page) (s : State) (k : Nat) : rd (putPage n p s) k = rd s k := rfl

@[simp] theorem rd_updPage (n : Nat) (f : Page → Page) (s : State) (k : Nat) : rd (updPage n f s) k = rd s k := rfl

@[simp] theorem rd_msixSend (v : Nat) (s : State) (k : Nat) : rd (msixSend v s) k = rd s k := by
  unfold msixSend
  split <;> rfl

@[simp] theorem rd_raiseIrq (n b : Nat) (s : State) (k : Nat) : rd (raiseIrq n b s) k = rd s k := by
  unfold raiseIrq raiseBits setPageIrq
  repeat' split
  all_goals simp

@[simp] theorem rd_recordErr (n c : Nat) (s : State) (k : Nat) : rd (recordErr n c s) k = rd s k := by
  unfold recordErr
  simp

/-- Events touch no register but Stook's. -/
theorem rd_event {code : Nat} {ten : Option Nat} {pl : List Byte} {s : State} {k : Nat} (hk : keyKind k ≠ .stk) :
    rd (event code ten pl s) k = rd s k :=
  (((event_keeps code ten pl s (fun _ q => q) (Keeps.refl _ s)).only (.reg (keyKind k)) (by
    simpa using hk)).1 k rfl).1

/-! ## Page headers -/

theorem getPage_congr {s t : State} (h : t.pages = s.pages) (n : Nat) : getPage t n = getPage s n := by rw [getPage, getPage, h]

theorem getPage_updPage_self (n : Nat) (f : Page → Page) (s : State) : getPage (updPage n f s) n = f (getPage s n) :=
  getPage_putPage_self n _ s

theorem getPage_updPage_ne {m n : Nat} (f : Page → Page) (s : State) (h : m ≠ n) : getPage (updPage n f s) m = getPage s m :=
  getPage_putPage_ne _ s h

theorem msixSend_pages (v : Nat) (s : State) : (msixSend v s).pages = s.pages := by
  unfold msixSend
  split <;> rfl

theorem setPageIrq_page (n : Nat) (p : Page) (s : State) : getPage (setPageIrq n p s) n = p := by
  unfold setPageIrq
  split
  · rw [getPage_congr (msixSend_pages _ _), getPage_putPage_self]
  · rw [getPage_putPage_self]

theorem setPageIrq_page_ne {m n : Nat} (p : Page) (s : State) (h : m ≠ n) : getPage (setPageIrq n p s) m = getPage s m := by
  unfold setPageIrq
  split
  · rw [getPage_congr (msixSend_pages _ _), getPage_putPage_ne p s h]
  · rw [getPage_putPage_ne p s h]

theorem raiseBits_page (n : Nat) (b : Word) (s : State) :
    getPage (raiseBits n b s) n = { getPage s n with irqRaw := (getPage s n).irqRaw ||| b } := setPageIrq_page n _ s

theorem raiseBits_page_ne {m n : Nat} (b : Word) (s : State) (h : m ≠ n) : getPage (raiseBits n b s) m = getPage s m :=
  setPageIrq_page_ne _ s h

theorem setPageIrq_regs (n : Nat) (p : Page) (s : State) : (setPageIrq n p s).regs = s.regs := by
  unfold setPageIrq msixSend
  repeat' split
  all_goals rfl

theorem raiseBits_regs (n : Nat) (b : Word) (s : State) : (raiseBits n b s).regs = s.regs := setPageIrq_regs n _ s

theorem recordErr_regs (n c : Nat) (s : State) : (recordErr n c s).regs = s.regs := raiseBits_regs _ _ _

/-- A recorded error: the code with the block ID, the count, interrupt bit 2 (R40). -/
theorem recordErr_page (n c : Nat) (s : State) : getPage (recordErr n c s) n = { getPage s n with
    errCode := BitVec.ofNat 16 (blockId (pageKind n) * 256 + c),
    errCount := if (getPage s n).errCount = 255#8 then (getPage s n).errCount else (getPage s n).errCount + 1,
    irqRaw := (getPage s n).irqRaw ||| 4#32 } := by
  unfold recordErr raiseIrq
  rw [raiseBits_page, getPage_updPage_self]
  rfl

theorem recordErr_page_ne {m n : Nat} (c : Nat) (s : State) (h : m ≠ n) : getPage (recordErr n c s) m = getPage s m := by
  unfold recordErr raiseIrq
  rw [raiseBits_page_ne _ _ h, getPage_updPage_ne _ _ h]

theorem recordErr_keeps' (n c : Nat) (s : State) : Keeps [.reg (pageKind n), .msix, .out] s (recordErr n c s) :=
  recordErr_keeps n c s (fun _ q => by simpa using q) (Keeps.refl _ s)

end Sys2Proof.Machine
end

