-- ==== Sys2Proof/Laws/KeepsNozzle.lean ====
section
/-! SUPPORT. What the operations of Machine/Nozzle.lean change, and what they keep. -/

namespace Sys2Proof.Machine
open Sys2Proof

theorem putEntry_keeps {ps : List Part} {σ : State} (i : Nat) (e : Entry) (s : State)
    (hp : ∀ p ∈ [Part.entries], p ∈ ps) (h : Keeps ps σ s) : Keeps ps σ (putEntry i e s) := by
  unfold putEntry
  refine Keeps.set_til rfl (Or.inl (hp _ (by decide))) (Or.inr rfl) ?_
  exact h

theorem updEngine_keeps {ps : List Part} {σ : State} (e : Nat) (f : Engine → Engine) (s : State)
    (hp : ∀ p ∈ [Part.til], p ∈ ps) (h : Keeps ps σ s) : Keeps ps σ (updEngine e f s) := by
  unfold updEngine
  refine Keeps.set_til rfl (Or.inr ⟨rfl, rfl⟩) (Or.inl (hp _ (by decide))) ?_
  exact h

theorem noteCost_keeps {ps : List Part} {σ : State} (e : Nat) (r : Nat) (c : Nat) (s : State)
    (hp : ∀ p ∈ [Part.reg .tilE, Part.til], p ∈ ps) (h : Keeps ps σ s) : Keeps ps σ (noteCost e r c s) := by
  unfold noteCost
  extract_lets σ1 σ2
  have hσ1 : Keeps ps σ σ1 := by
    unfold σ1
    refine updEngine_keeps _ _ _ (Keeps.sub (by decide) hp) ?_
    exact h
  refine wn_keeps _ _ _ (Keeps.sub (by simp) hp) ?_
  exact hσ1

theorem updHead_keeps {ps : List Part} {σ : State} (h : Nat) (f : KHead → KHead) (s : State)
    (hp : ∀ p ∈ [Part.kln], p ∈ ps) (hs : Keeps ps σ s) : Keeps ps σ (updHead h f s) := by
  unfold updHead
  refine Keeps.set_kln (hp _ (by decide)) ?_
  exact hs

theorem updRow_keeps {ps : List Part} {σ : State} (h : Nat) (r : Nat) (f : Row → Row) (s : State)
    (hp : ∀ p ∈ [Part.kln], p ∈ ps) (hs : Keeps ps σ s) : Keeps ps σ (updRow h r f s) := by
  unfold updRow
  refine updHead_keeps _ _ _ (Keeps.sub (by decide) hp) ?_
  exact hs

theorem engineCount_keeps {ps : List Part} {σ : State} (e : Nat) (cls : Nat) (code : Nat) (spit : Bool) (s : State)
    (hp : ∀ p ∈ [Part.msix, Part.out, Part.reg .stk, Part.reg .tilE, Part.reg .tly, Part.rings, Part.stk, Part.tly], p ∈ ps) (h : Keeps ps σ s) : Keeps ps σ (engineCount e cls code spit s) := by
  unfold engineCount
  refine Keeps.ite (fun _ => ?_) fun _ => ?_
  · extract_lets σ1 σ2
    have hσ2 : Keeps ps σ σ2 := by
      unfold σ2
      refine tallyInk_keeps _ _ _ (Keeps.sub (by decide) hp) ?_
      refine inc64_keeps _ _ _ (Keeps.sub (by simp) hp) ?_
      refine inc64_keeps _ _ _ (Keeps.sub (by simp) hp) ?_
      exact h
    refine Keeps.ite (fun _ => ?_) fun _ => ?_
    · refine inc_keeps _ _ _ (Keeps.sub (by simp) hp) ?_
      exact hσ2
    · exact hσ2
  · refine Keeps.ite (fun _ => ?_) fun _ => ?_
    · refine inc64_keeps _ _ _ (Keeps.sub (by simp) hp) ?_
      exact h
    · exact h

theorem stage10_keeps {ps : List Part} {σ : State} (e : Nat) (i : Nat) (f : BitVec 32) (code : Nat) (spit : Bool) (s : State)
    (hp : ∀ p ∈ [Part.entries, Part.msix, Part.out, Part.reg .stk, Part.reg .tilE, Part.reg .tly, Part.rings, Part.stk, Part.til, Part.tly], p ∈ ps) (h : Keeps ps σ s) : Keeps ps σ (stage10 e i f code spit s) := by
  unfold stage10
  extract_lets σ1 σ2 σ3 σ4 σ5
  have hσ2 : Keeps ps σ σ2 := by
    unfold σ2
    refine engineCount_keeps _ _ _ _ _ (Keeps.sub (by decide) hp) ?_
    exact h
  have hσ4 : Keeps ps σ σ4 := by
    unfold σ4
    refine putEntry_keeps _ _ _ (Keeps.sub (by decide) hp) ?_
    exact hσ2
  refine Keeps.ite (fun _ => ?_) fun _ => ?_
  · refine Keeps.ite (fun _ => ?_) fun _ => ?_
    · refine Keeps.set_til rfl (Or.inr ⟨rfl, rfl⟩) (Or.inl (hp _ (by decide))) ?_
      exact hσ4
    · exact hσ4
  · exact hσ2

theorem winUntake_keeps {ps : List Part} {σ : State} (p : Nat) (slot : Nat) (h : Nat) (r : Nat) (line : Option Nat) (s : State)
    (hp : ∀ q ∈ [Part.kln], q ∈ ps) (hs : Keeps ps σ s) : Keeps ps σ (winUntake p slot h r line s) := by
  unfold winUntake
  split
  · extract_lets σ1 σ2
    refine updPlane_keeps _ _ _ (Keeps.sub (by decide) hp) ?_
    exact hs
  · exact hs

theorem densityAdd_keeps {ps : List Part} {σ : State} (p : Nat) (slot : Nat) (y : Nat) (col : Nat) (code : Nat) (s : State)
    (hp : ∀ q ∈ [Part.win], q ∈ ps) (h : Keeps ps σ s) : Keeps ps σ (densityAdd p slot y col code s) := by
  unfold densityAdd
  split
  · split
    · refine Keeps.ite (fun _ => ?_) fun _ => ?_
      · extract_lets σ1 σ2
        refine Keeps.set_win (hp _ (by decide)) ?_
        exact h
      · exact h
    · exact h
  · exact h

theorem winCode_keeps {ps : List Part} {σ : State} (kilnSide : Bool) (p : Nat) (slot : Nat) (h : Nat) (n : Nat) (line : Option Nat) (code : Nat) (s : State)
    (hp : ∀ q ∈ [Part.kln, Part.win], q ∈ ps) (hs : Keeps ps σ s) : Keeps ps σ (winCode kilnSide p slot h n line code s) := by
  unfold winCode
  split
  · split
    · extract_lets σ1 σ2
      have hσ2 : Keeps ps σ σ2 := by
        unfold σ2
        refine updPlane_keeps _ _ _ (Keeps.sub (by decide) hp) ?_
        exact hs
      refine Keeps.ite (fun _ => ?_) fun _ => ?_
      · refine densityAdd_keeps _ _ _ _ _ _ (Keeps.sub (by decide) hp) ?_
        exact hσ2
      · exact hσ2
    · exact hs
  · exact hs

theorem nozzleLine_keeps {ps : List Part} {σ : State} (p : Nat) (e : Nat) (h : Nat) (r : Nat) (t : PlaneTable) (f : BitVec 32) (y : Nat) (slot : Nat) (line : Option Nat) (gap : Bool) (px : List Nat) (pos : Nat) (acc : State × List (Nat × Nat) × List Undo)
    (hp : ∀ q ∈ [Part.entries, Part.kln, Part.msix, Part.out, Part.reg .stk, Part.reg .tilE, Part.reg .tly, Part.rings, Part.stk, Part.til, Part.tly, Part.win], q ∈ ps) (hs : Keeps ps σ acc.1) : Keeps ps σ (nozzleLine p e h r t f y slot line gap px pos acc).1 := by
  unfold nozzleLine
  split
  · extract_lets σ1 σ2 σ3 σ4 σ5 σ6
    have hσ4 : Keeps ps σ σ4 := by
      unfold σ4
      refine raiseIrq_keeps _ _ _ (Keeps.sub (by simp) hp) ?_
      refine event_keeps _ _ _ _ (Keeps.sub (by decide) hp) ?_
      refine inc_keeps _ _ _ (Keeps.sub (by simp) hp) ?_
      exact hs
    refine Keeps.ite_fst (fun _ => ?_) fun _ => ?_
    · refine Keeps.fst ?_
      refine winCode_keeps _ _ _ _ _ _ _ _ (Keeps.sub (by decide) hp) ?_
      exact hσ4
    · split
      · extract_lets σ7 σ8
        have hσ7 : Keeps ps σ σ7 := by
          unfold σ7
          refine Keeps.ite (fun _ => ?_) fun _ => ?_
          · refine raiseIrq_keeps _ _ _ (Keeps.sub (by simp) hp) ?_
            refine event_keeps _ _ _ _ (Keeps.sub (by decide) hp) ?_
            refine inc_keeps _ _ _ (Keeps.sub (by simp) hp) ?_
            exact hs
          · exact hs
        have hσ8 : Keeps ps σ σ8 := by
          unfold σ8
          refine stage10_keeps _ _ _ _ _ _ (Keeps.sub (by decide) hp) ?_
          exact hσ7
        refine Keeps.fst ?_
        refine winCode_keeps _ _ _ _ _ _ _ _ (Keeps.sub (by decide) hp) ?_
        exact hσ8

theorem runRowLine_keeps {ps : List Part} {σ : State} (p : Nat) (e : Nat) (r : Nat) (t : PlaneTable) (f : BitVec 32) (line : Option Nat) (gap : Bool) (slot : Nat) (px : List Nat) (s : State)
    (hp : ∀ q ∈ [Part.entries, Part.kln, Part.msix, Part.out, Part.reg .stk, Part.reg .tilE, Part.reg .tly, Part.rings, Part.stk, Part.til, Part.tly, Part.win], q ∈ ps) (h : Keeps ps σ s) : Keeps ps σ (runRowLine p e r t f line gap slot px s) := by
  unfold runRowLine
  extract_lets σ1 σ2 σ3 σ4 σ5 σ6 σ7
  have hσ31 : Keeps ps σ σ3.1 := by
    unfold σ3
    refine Keeps.foldl_fst ?_ ?_
    · intro ζ8 χ9 hτ10
      refine nozzleLine_keeps _ _ _ _ _ _ _ _ _ _ _ _ _ (Keeps.sub (by decide) hp) ?_
      exact hτ10
    · exact h
  have hσ4 : Keeps ps σ σ4 := by
    unfold σ4
    exact hσ31
  refine updRow_keeps _ _ _ _ (Keeps.sub (by decide) hp) ?_
  exact hσ4

end Sys2Proof.Machine
end

