-- ==== Sys2Proof/Laws/KeepsPress.lean ====
section
/-! SUPPORT. What the operations of Machine/Press.lean change, and what they keep. -/

namespace Sys2Proof.Machine
open Sys2Proof

theorem completeSeq_keeps {ps : List Part} {σ : State} (seq : Nat) (status : Nat) (result : Nat) (s : State)
    (hp : ∀ p ∈ [Part.fw, Part.msix, Part.out, Part.reg .stk, Part.rings, Part.stk], p ∈ ps) (h : Keeps ps σ s) : Keeps ps σ (completeSeq seq status result s) := by
  unfold completeSeq
  split
  · refine complete_keeps _ _ _ _ (Keeps.sub (by decide) hp) ?_
    exact h
  · exact h

theorem completeOpt_keeps {ps : List Part} {σ : State} (o : Option Nat) (status : Nat) (result : Nat) (s : State)
    (hp : ∀ p ∈ [Part.fw, Part.msix, Part.out, Part.reg .stk, Part.rings, Part.stk], p ∈ ps) (h : Keeps ps σ s) : Keeps ps σ (completeOpt o status result s) := by
  unfold completeOpt
  split
  · refine completeSeq_keeps _ _ _ _ (Keeps.sub (by decide) hp) ?_
    exact h
  · exact h

theorem arrive_keeps {ps : List Part} {σ : State} (key : Nat) (result : State → Nat) (s : State)
    (hp : ∀ p ∈ [Part.fw, Part.msix, Part.out, Part.reg .stk, Part.rings, Part.stk], p ∈ ps) (h : Keeps ps σ s) : Keeps ps σ (arrive key result s) := by
  unfold arrive
  extract_lets σ1
  refine Keeps.foldl ?_ ?_
  · intro τ2 χ3 hτ4
    split
    · extract_lets σ5 σ6
      refine Keeps.ite (fun _ => ?_) fun _ => ?_
      · refine complete_keeps _ _ _ _ (Keeps.sub (by decide) hp) ?_
        exact hτ4
      · refine Keeps.set_fw (hp _ (by decide)) ?_
        exact hτ4
    · exact hτ4
  · exact h

theorem noteArrival_keeps {ps : List Part} {σ : State} (key : Nat) (s : State)
    (hp : ∀ p ∈ [Part.fw], p ∈ ps) (h : Keeps ps σ s) : Keeps ps σ (noteArrival key s) := by
  unfold noteArrival
  refine Keeps.set_fw (hp _ (by decide)) ?_
  exact h

theorem planeStopped_keeps {ps : List Part} {σ : State} (p : Nat) (s : State)
    (hp : ∀ q ∈ [Part.fw], q ∈ ps) (h : Keeps ps σ s) : Keeps ps σ (planeStopped p s) := by
  unfold planeStopped
  refine noteArrival_keeps _ _ (Keeps.sub (by decide) hp) ?_
  exact h

theorem putPort_keeps {ps : List Part} {σ : State} (h : Nat) (x : Port) (s : State)
    (hp : ∀ p ∈ [Part.ports], p ∈ ps) (hs : Keeps ps σ s) : Keeps ps σ (putPort h x s) := by
  unfold putPort
  refine Keeps.set_ports (hp _ (by decide)) ?_
  exact hs

theorem updPort_keeps {ps : List Part} {σ : State} (h : Nat) (f : Port → Port) (s : State)
    (hp : ∀ p ∈ [Part.ports], p ∈ ps) (hs : Keeps ps σ s) : Keeps ps σ (updPort h f s) := by
  unfold updPort
  refine putPort_keeps _ _ _ (Keeps.sub (by decide) hp) ?_
  exact hs

theorem updPif_keeps {ps : List Part} {σ : State} (c : Nat) (f : PifCh → PifCh) (s : State)
    (hp : ∀ p ∈ [Part.pif], p ∈ ps) (h : Keeps ps σ s) : Keeps ps σ (updPif c f s) := by
  unfold updPif
  refine Keeps.set_pif (hp _ (by decide)) ?_
  exact h

theorem applyCorrections_keeps {ps : List Part} {σ : State} (p : Nat) (slot : Nat) (s : State)
    (hp : ∀ q ∈ [Part.msix, Part.out, Part.pif, Part.reg .pifCh, Part.reg .stk, Part.rings, Part.stk], q ∈ ps) (h : Keeps ps σ s) : Keeps ps σ (applyCorrections p slot s) := by
  unfold applyCorrections
  refine Keeps.foldl ?_ ?_
  · intro τ1 χ2 hτ3
    split
    · refine Keeps.ite (fun _ => ?_) fun _ => ?_
      · extract_lets σ4
        have hσ4 : Keeps ps σ σ4 := by
          unfold σ4
          refine updPif_keeps _ _ _ (Keeps.sub (by decide) hp) ?_
          exact hτ3
        refine raiseIrq_keeps _ _ _ (Keeps.sub (by simp) hp) ?_
        refine event_keeps _ _ _ _ (Keeps.sub (by decide) hp) ?_
        exact hσ4
      · exact hτ3
    · exact hτ3
  · exact h

theorem idleCorrection_keeps {ps : List Part} {σ : State} (c : Nat) (s : State)
    (hp : ∀ p ∈ [Part.msix, Part.out, Part.pif, Part.reg .pifCh, Part.reg .stk, Part.rings, Part.stk], p ∈ ps) (h : Keeps ps σ s) : Keeps ps σ (idleCorrection c s) := by
  unfold idleCorrection
  extract_lets σ1
  refine Keeps.ite (fun _ => ?_) fun _ => ?_
  · refine applyCorrections_keeps _ _ _ (Keeps.sub (by decide) hp) ?_
    exact h
  · exact h

theorem updAxis_keeps {ps : List Part} {σ : State} (a : Nat) (f : Axis → Axis) (s : State)
    (hp : ∀ p ∈ [Part.mot], p ∈ ps) (h : Keeps ps σ s) : Keeps ps σ (updAxis a f s) := by
  unfold updAxis
  refine Keeps.set_mot (hp _ (by decide)) ?_
  exact h

theorem setAxis_keeps {ps : List Part} {σ : State} (a : Nat) (st : AxisState) (s : State)
    (hp : ∀ p ∈ [Part.mot, Part.msix, Part.out, Part.reg .motA, Part.reg .stk, Part.rings, Part.stk], p ∈ ps) (h : Keeps ps σ s) : Keeps ps σ (setAxis a st s) := by
  unfold setAxis
  extract_lets σ1
  refine Keeps.ite (fun _ => ?_) fun _ => ?_
  · exact h
  · refine raiseIrq_keeps _ _ _ (Keeps.sub (by simp) hp) ?_
    refine event_keeps _ _ _ _ (Keeps.sub (by decide) hp) ?_
    refine updAxis_keeps _ _ _ (Keeps.sub (by decide) hp) ?_
    exact h

theorem dropRetained_keeps {ps : List Part} {σ : State} (a : Nat) (s : State)
    (hp : ∀ p ∈ [Part.mot, Part.reg .motA], p ∈ ps) (h : Keeps ps σ s) : Keeps ps σ (dropRetained a s) := by
  unfold dropRetained
  refine wn64_keeps _ _ _ (Keeps.sub (by simp) hp) ?_
  refine updAxis_keeps _ _ _ (Keeps.sub (by decide) hp) ?_
  exact h

theorem latchAxis_keeps {ps : List Part} {σ : State} (a : Nat) (bit : Nat) (s : State)
    (hp : ∀ p ∈ [Part.mot, Part.msix, Part.out, Part.reg .motA, Part.reg .stk, Part.rings, Part.stk], p ∈ ps) (h : Keeps ps σ s) : Keeps ps σ (latchAxis a bit s) := by
  unfold latchAxis
  refine Keeps.ite (fun _ => ?_) fun _ => ?_
  · exact h
  · extract_lets σ1
    have hσ1 : Keeps ps σ σ1 := by
      unfold σ1
      refine dropRetained_keeps _ _ (Keeps.sub (by decide) hp) ?_
      refine wf_keeps _ _ _ _ _ (Keeps.sub (by simp) hp) ?_
      exact h
    refine raiseIrq_keeps _ _ _ (Keeps.sub (by simp) hp) ?_
    refine event_keeps _ _ _ _ (Keeps.sub (by decide) hp) ?_
    exact hσ1

theorem unhome_keeps {ps : List Part} {σ : State} (a : Nat) (s : State)
    (hp : ∀ p ∈ [Part.mot], p ∈ ps) (h : Keeps ps σ s) : Keeps ps σ (unhome a s) := by
  unfold unhome
  refine updAxis_keeps _ _ _ (Keeps.sub (by decide) hp) ?_
  exact h

theorem startMove_keeps {ps : List Part} {σ : State} (a : Nat) (m : Move) (s : State)
    (hp : ∀ p ∈ [Part.mot, Part.msix, Part.out, Part.reg .motA, Part.reg .stk, Part.rings, Part.stk], p ∈ ps) (h : Keeps ps σ s) : Keeps ps σ (startMove a m s) := by
  unfold startMove
  refine setAxis_keeps _ _ _ (Keeps.sub (by decide) hp) ?_
  refine updAxis_keeps _ _ _ (Keeps.sub (by decide) hp) ?_
  exact h

theorem endMove_keeps {ps : List Part} {σ : State} (a : Nat) (status : Nat) (r : Nat) (s : State)
    (hp : ∀ p ∈ [Part.fw, Part.mot, Part.msix, Part.out, Part.reg .motA, Part.reg .stk, Part.rings, Part.stk], p ∈ ps) (h : Keeps ps σ s) : Keeps ps σ (endMove a status r s) := by
  unfold endMove
  extract_lets σ1 σ2 σ3 σ4 σ5
  have hσ2 : Keeps ps σ σ2 := by
    unfold σ2
    refine updAxis_keeps _ _ _ (Keeps.sub (by decide) hp) ?_
    exact h
  have hσ3 : Keeps ps σ σ3 := by
    unfold σ3
    refine setAxis_keeps _ _ _ (Keeps.sub (by decide) hp) ?_
    exact hσ2
  have hσ4 : Keeps ps σ σ4 := by
    unfold σ4
    refine completeOpt_keeps _ _ _ _ (Keeps.sub (by decide) hp) ?_
    exact hσ3
  have hσ5 : Keeps ps σ σ5 := by
    unfold σ5
    refine arrive_keeps _ _ _ (Keeps.sub (by decide) hp) ?_
    exact hσ4
  split
  · refine startMove_keeps _ _ _ (Keeps.sub (by decide) hp) ?_
    refine updAxis_keeps _ _ _ (Keeps.sub (by decide) hp) ?_
    exact hσ5
  · exact hσ5

theorem startFeed_keeps {ps : List Part} {σ : State} (a : Nat) (d : Int) (s : State)
    (hp : ∀ p ∈ [Part.mot, Part.msix, Part.out, Part.reg .motA, Part.reg .stk, Part.rings, Part.stk], p ∈ ps) (h : Keeps ps σ s) : Keeps ps σ (startFeed a d s).2 := by
  unfold startFeed
  split
  · refine Keeps.snd ?_
    refine startMove_keeps _ _ _ (Keeps.sub (by decide) hp) ?_
    exact h
  · refine Keeps.snd ?_
    refine updAxis_keeps _ _ _ (Keeps.sub (by decide) hp) ?_
    exact h
  · refine Keeps.snd ?_
    refine updAxis_keeps _ _ _ (Keeps.sub (by decide) hp) ?_
    exact h
  · exact h

theorem tripAxis_keeps {ps : List Part} {σ : State} (a : Nat) (s : State)
    (hp : ∀ p ∈ [Part.fw, Part.mot, Part.msix, Part.out, Part.reg .motA, Part.reg .stk, Part.rings, Part.stk], p ∈ ps) (h : Keeps ps σ s) : Keeps ps σ (tripAxis a s) := by
  unfold tripAxis
  extract_lets σ1 σ2 σ3 σ4
  have hσ3 : Keeps ps σ σ3 := by
    unfold σ3
    refine Keeps.set_mot (hp _ (by decide)) ?_
    exact h
  have hσ4 : Keeps ps σ σ4 := by
    unfold σ4
    refine updAxis_keeps _ _ _ (Keeps.sub (by decide) hp) ?_
    refine dropRetained_keeps _ _ (Keeps.sub (by decide) hp) ?_
    exact hσ3
  refine arrive_keeps _ _ _ (Keeps.sub (by decide) hp) ?_
  refine completeOpt_keeps _ _ _ _ (Keeps.sub (by decide) hp) ?_
  refine setAxis_keeps _ _ _ (Keeps.sub (by decide) hp) ?_
  exact hσ4

theorem headOff_keeps {ps : List Part} {σ : State} (h : Nat) (s : State)
    (hp : ∀ p ∈ [Part.crk, Part.ports], p ∈ ps) (hs : Keeps ps σ s) : Keeps ps σ (headOff h s) := by
  unfold headOff
  extract_lets σ1
  have hσ1 : Keeps ps σ σ1 := by
    unfold σ1
    refine updPort_keeps _ _ _ (Keeps.sub (by decide) hp) ?_
    exact hs
  refine Keeps.ite (fun _ => ?_) fun _ => ?_
  · refine Keeps.foldl ?_ ?_
    · intro τ2 χ3 hτ4
      refine tallyClose_keeps _ _ (Keeps.sub (by decide) hp) ?_
      exact hτ4
    · exact hσ1
  · exact hσ1

theorem withdrawCmd_keeps {ps : List Part} {σ : State} (c : Option Nat) (s : State)
    (hp : ∀ p ∈ [Part.pwr], p ∈ ps) (h : Keeps ps σ s) : Keeps ps σ (withdrawCmd c s) := by
  unfold withdrawCmd
  refine Keeps.set_pwr (hp _ (by decide)) ?_
  exact h

end Sys2Proof.Machine
end

