-- ==== Sys2Proof/Laws/KeepsStore.lean ====
section
/-! SUPPORT. What the operations of Machine/Store.lean change, and what they keep. -/

namespace Sys2Proof.Machine
open Sys2Proof

theorem noteChanged_keeps {ps : List Part} {σ : State} (i : Nat) (s : State)
    (hp : ∀ p ∈ [Part.til], p ∈ ps) (h : Keeps ps σ s) : Keeps ps σ (noteChanged i s) := by
  unfold noteChanged
  refine Keeps.ite (fun _ => ?_) fun _ => ?_
  · exact h
  · refine Keeps.set_til rfl (Or.inr ⟨rfl, rfl⟩) (Or.inl (hp _ (by decide))) ?_
    exact h

theorem startFill_keeps {ps : List Part} {σ : State} (h : Nat) (s : State)
    (hp : ∀ p ∈ [Part.ports], p ∈ ps) (hs : Keeps ps σ s) : Keeps ps σ (startFill h s) := by
  unfold startFill
  extract_lets σ1
  refine Keeps.ite (fun _ => ?_) fun _ => ?_
  · refine putPort_keeps _ _ _ (Keeps.sub (by decide) hp) ?_
    exact hs
  · exact hs

theorem variantLatch_keeps {ps : List Part} {σ : State} (h : Nat) (f : BitVec 32) (slot : Nat) (s : State)
    (hp : ∀ p ∈ [Part.ports], p ∈ ps) (hs : Keeps ps σ s) : Keeps ps σ (variantLatch h f slot s) := by
  unfold variantLatch
  extract_lets σ1
  refine Keeps.ite (fun _ => ?_) fun _ => ?_
  · refine putPort_keeps _ _ _ (Keeps.sub (by decide) hp) ?_
    exact hs
  · exact hs

theorem applyGains_keeps {ps : List Part} {σ : State} (heads : Nat → Bool) (slot : Nat) (s : State)
    (hp : ∀ p ∈ [Part.cal, Part.crk, Part.entries, Part.reg .cal], p ∈ ps) (h : Keeps ps σ s) : Keeps ps σ (applyGains heads slot s) := by
  unfold applyGains
  extract_lets σ1 σ2 σ3 σ4
  have hσ4 : Keeps ps σ σ4 := by
    unfold σ4
    refine Keeps.foldl ?_ ?_
    · intro τ8 χ9 hτ10
      unfold σ2
      refine Keeps.ite (fun _ => ?_) fun _ => ?_
      · refine putEntry_keeps _ _ _ (Keeps.sub (by decide) hp) ?_
        refine Keeps.set_crk (hp _ (by decide)) ?_
        exact hτ10
      · refine Keeps.set_crk (hp _ (by decide)) ?_
        exact hτ10
    · refine Keeps.set_cal (hp _ (by decide)) ?_
      exact h
  refine Keeps.foldl ?_ ?_
  · intro τ5 χ6 hτ7
    refine wn_keeps _ _ _ (Keeps.sub (by simp) hp) ?_
    exact hτ7
  · exact hσ4

theorem discardWindow_keeps {ps : List Part} {σ : State} (p : Nat) (s : State)
    (hp : ∀ q ∈ [Part.gln], q ∈ ps) (h : Keeps ps σ s) : Keeps ps σ (discardWindow p s) := by
  unfold discardWindow
  refine Keeps.set_gln (hp _ (by decide)) ?_
  exact h

theorem applyEntries_keeps {ps : List Part} {σ : State} (among : Nat → Bool) (f : BitVec 32) (slot : Nat) (s0 : State)
    (hp : ∀ p ∈ [Part.cal, Part.crk, Part.entries, Part.fw, Part.gln, Part.ports, Part.reg .cal, Part.til], p ∈ ps) (h : Keeps ps σ s0) : Keeps ps σ (applyEntries among f slot s0) := by
  unfold applyEntries
  extract_lets σ1 σ2 σ3 σ4 σ5 σ6 σ7 σ8 σ9
  have hσ1 : Keeps ps σ σ1 := by
    unfold σ1
    refine applyGains_keeps _ _ _ (Keeps.sub (by decide) hp) ?_
    exact h
  have hσ6 : Keeps ps σ σ6 := by
    unfold σ6
    refine Keeps.foldl ?_ ?_
    · intro τ26 χ27 hτ28
      refine putEntry_keeps _ _ _ (Keeps.sub (by decide) hp) ?_
      refine Keeps.ite (fun _ => ?_) fun _ => ?_
      · refine noteChanged_keeps _ _ (Keeps.sub (by decide) hp) ?_
        exact hτ28
      · exact hτ28
    · refine Keeps.set_til rfl (Or.inr ⟨rfl, rfl⟩) (Or.inl (hp _ (by decide))) ?_
      exact hσ1
  have hσ8 : Keeps ps σ σ8 := by
    unfold σ8
    refine Keeps.foldl ?_ ?_
    · intro τ20 χ21 hτ22
      refine discardWindow_keeps _ _ (Keeps.sub (by decide) hp) ?_
      exact hτ22
    · refine Keeps.foldl ?_ ?_
      · intro τ23 χ24 hτ25
        refine variantLatch_keeps _ _ _ _ (Keeps.sub (by decide) hp) ?_
        exact hτ25
      · exact hσ6
  refine Keeps.foldl ?_ ?_
  · intro τ10 χ11 hτ12
    extract_lets σ13 σ14 σ15 σ16
    have hσ15 : Keeps ps σ σ15 := by
      unfold σ15
      refine Keeps.foldl ?_ ?_
      · intro τ17 χ18 hτ19
        refine crkSubmit_keeps _ _ _ _ (Keeps.sub (by decide) hp) ?_
        exact hτ19
      · exact hτ12
    refine Keeps.set_fw (hp _ (by decide)) ?_
    exact hσ15
  · exact hσ8

end Sys2Proof.Machine
end

