-- ==== Sys2Proof/Laws/KeepsPacing.lean ====
section
/-! SUPPORT. What the operations of Machine/Pacing.lean change, and what they keep. -/

namespace Sys2Proof.Machine
open Sys2Proof

theorem updChannel_keeps {ps : List Part} {σ : State} (k : Nat) (f : Channel → Channel) (s : State)
    (hp : ∀ p ∈ [Part.kln], p ∈ ps) (h : Keeps ps σ s) : Keeps ps σ (updChannel k f s) := by
  unfold updChannel
  refine Keeps.set_kln (hp _ (by decide)) ?_
  exact h

theorem replaceLine_keeps {ps : List Part} {σ : State} (p : Nat) (h : Nat) (r : Nat) (f : BitVec 32) (codes : List Nat) (s : State)
    (hp : ∀ q ∈ [Part.kln], q ∈ ps) (hs : Keeps ps σ s) : Keeps ps σ (replaceLine p h r f codes s) := by
  unfold replaceLine
  extract_lets σ1 σ2 σ3 σ4 σ5 σ6 σ7 σ8
  refine winUntake_keeps _ _ _ _ _ _ (Keeps.sub (by decide) hp) ?_
  refine updRow_keeps _ _ _ _ (Keeps.sub (by decide) hp) ?_
  exact hs

theorem countUnderrun_keeps {ps : List Part} {σ : State} (p : Nat) (h : Nat) (r : Nat) (f : BitVec 32) (mode : Nat) (s : State)
    (hp : ∀ q ∈ [Part.jobs, Part.kln, Part.msix, Part.out, Part.reg .klnC, Part.reg .klnP, Part.reg .stk, Part.rings, Part.stk], q ∈ ps) (hs : Keeps ps σ s) : Keeps ps σ (countUnderrun p h r f mode s) := by
  unfold countUnderrun
  extract_lets σ1 σ2 σ3 σ4
  have hσ3 : Keeps ps σ σ3 := by
    unfold σ3
    refine wn_keeps _ _ _ (Keeps.sub (by simp) hp) ?_
    refine inc_keeps _ _ _ (Keeps.sub (by simp) hp) ?_
    refine inc_keeps _ _ _ (Keeps.sub (by simp) hp) ?_
    exact hs
  have hσ4 : Keeps ps σ σ4 := by
    unfold σ4
    refine flagCopy_keeps _ _ _ (Keeps.sub (by decide) hp) ?_
    refine Keeps.ite (fun _ => ?_) fun _ => ?_
    · refine updPlane_keeps _ _ _ (Keeps.sub (by decide) hp) ?_
      exact hσ3
    · exact hσ3
  refine Keeps.ite (fun _ => ?_) fun _ => ?_
  · exact hσ4
  · refine raiseIrq_keeps _ _ _ (Keeps.sub (by simp) hp) ?_
    refine event_keeps _ _ _ _ (Keeps.sub (by decide) hp) ?_
    refine updHead_keeps _ _ _ (Keeps.sub (by decide) hp) ?_
    exact hσ4

theorem silentCodes_keeps {ps : List Part} {σ : State} (p : Nat) (h : Nat) (r : Nat) (f : BitVec 32) (s : State)
    (hp : ∀ q ∈ [Part.kln, Part.win], q ∈ ps) (hs : Keeps ps σ s) : Keeps ps σ (silentCodes p h r f s) := by
  unfold silentCodes
  split
  · refine Keeps.foldl ?_ ?_
    · intro τ1 χ2 hτ3
      refine winCode_keeps _ _ _ _ _ _ _ _ (Keeps.sub (by decide) hp) ?_
      exact hτ3
    · exact hs
  · exact hs

theorem declareUnderrun_keeps {ps : List Part} {σ : State} (p : Nat) (h : Nat) (r : Nat) (f : BitVec 32) (blank : Bool) (silent : Bool) (s : State)
    (hp : ∀ q ∈ [Part.jobs, Part.kln, Part.msix, Part.out, Part.reg .klnC, Part.reg .klnP, Part.reg .stk, Part.rings, Part.stk, Part.win], q ∈ ps) (hs : Keeps ps σ s) : Keeps ps σ (declareUnderrun p h r f blank silent s) := by
  unfold declareUnderrun
  extract_lets σ1 σ2 σ3 σ4 σ5
  have hσ3 : Keeps ps σ σ3 := by
    unfold σ3
    refine countUnderrun_keeps _ _ _ _ _ _ (Keeps.sub (by decide) hp) ?_
    exact hs
  have hσ4 : Keeps ps σ σ4 := by
    unfold σ4
    refine replaceLine_keeps _ _ _ _ _ _ (Keeps.sub (by decide) hp) ?_
    exact hσ3
  have hσ5 : Keeps ps σ σ5 := by
    unfold σ5
    refine updRow_keeps _ _ _ _ (Keeps.sub (by decide) hp) ?_
    exact hσ4
  refine Keeps.ite (fun _ => ?_) fun _ => ?_
  · refine silentCodes_keeps _ _ _ _ _ (Keeps.sub (by decide) hp) ?_
    exact hσ5
  · exact hσ5

theorem setTap_keeps {ps : List Part} {σ : State} (line : Nat) (x : Tap) (s : State)
    (hp : ∀ p ∈ [Part.clk], p ∈ ps) (h : Keeps ps σ s) : Keeps ps σ (setTap line x s) := by
  unfold setTap
  refine Keeps.set_clk (hp _ (by decide)) ?_
  exact h

theorem settleStep_keeps {ps : List Part} {σ : State} (line : Nat) (s : State)
    (hp : ∀ p ∈ [Part.clk], p ∈ ps) (h : Keeps ps σ s) : Keeps ps σ (settleStep line s) := by
  unfold settleStep
  refine Keeps.ite (fun _ => ?_) fun _ => ?_
  · refine setTap_keeps _ _ _ (Keeps.sub (by decide) hp) ?_
    exact h
  · exact h

theorem stampStep_keeps {ps : List Part} {σ : State} (input : Nat) (s : State)
    (hp : ∀ p ∈ [Part.clk], p ∈ ps) (h : Keeps ps σ s) : Keeps ps σ (stampStep input s) := by
  unfold stampStep
  extract_lets σ1 σ2
  have hσ1 : Keeps ps σ σ1 := by
    unfold σ1
    refine settleStep_keeps _ _ (Keeps.sub (by decide) hp) ?_
    exact h
  refine Keeps.set_clk (hp _ (by decide)) ?_
  exact hσ1

theorem predictEdges_keeps {ps : List Part} {σ : State} (p : Nat) (h : Nat) (r : Nat) (y0 : Nat) (s : State)
    (hp : ∀ q ∈ [Part.clk, Part.jobs, Part.kln, Part.msix, Part.out, Part.reg .klnC, Part.reg .klnP, Part.reg .stk, Part.rings, Part.stk, Part.win], q ∈ ps) (hs : Keeps ps σ s) : Keeps ps σ (predictEdges p h r y0 s) := by
  induction y0 generalizing p h r s with
  | zero =>
    exact hs
  | succ m ih =>
    unfold predictEdges
    extract_lets σ1 σ2 σ3 σ4
    split
    · refine Keeps.ite (fun _ => ?_) fun _ => ?_
      · refine Keeps.ite (fun _ => ?_) fun _ => ?_
        · refine ih _ _ _ _ ?_
          refine updRow_keeps _ _ _ _ (Keeps.sub (by decide) hp) ?_
          exact hs
        · extract_lets σ5 σ6 σ7
          have hσ6 : Keeps ps σ σ6 := by
            unfold σ6
            refine Keeps.ite (fun _ => ?_) fun _ => ?_
            · refine inc_keeps _ _ _ (Keeps.sub (by simp) hp) ?_
              exact hs
            · exact hs
          refine Keeps.ite (fun _ => ?_) fun _ => ?_
          · refine ih _ _ _ _ ?_
            refine declareUnderrun_keeps _ _ _ _ _ _ _ (Keeps.sub (by decide) hp) ?_
            refine inc_keeps _ _ _ (Keeps.sub (by simp) hp) ?_
            exact hs
          · refine ih _ _ _ _ ?_
            refine setTap_keeps _ _ _ (Keeps.sub (by decide) hp) ?_
            refine updRow_keeps _ _ _ _ (Keeps.sub (by decide) hp) ?_
            exact hσ6
      · exact hs
    · exact hs

theorem armEdges_keeps {ps : List Part} {σ : State} (h : Nat) (r : Nat) (t : Nat) (s : State)
    (hp : ∀ p ∈ [Part.clk, Part.kln], p ∈ ps) (hs : Keeps ps σ s) : Keeps ps σ (armEdges h r t s) := by
  unfold armEdges
  extract_lets σ1 σ2
  refine Keeps.ite (fun _ => ?_) fun _ => ?_
  · refine setTap_keeps _ _ _ (Keeps.sub (by decide) hp) ?_
    refine updRow_keeps _ _ _ _ (Keeps.sub (by decide) hp) ?_
    exact hs
  · exact hs

theorem retune_keeps {ps : List Part} {σ : State} (change : State → State) (s : State)
    (h_change : ∀ (t : State), Keeps ps σ t → Keeps ps σ (change t))
    (hp : ∀ p ∈ [Part.clk, Part.kln], p ∈ ps) (h : Keeps ps σ s) : Keeps ps σ (retune change s) := by
  unfold retune
  extract_lets σ1 σ2 σ3 σ4 σ5
  have hσ1 : Keeps ps σ σ1 := by
    unfold σ1
    refine Keeps.foldl ?_ ?_
    · intro τ12 χ13 hτ14
      refine Keeps.foldl ?_ ?_
      · intro τ15 χ16 hτ17
        refine armEdges_keeps _ _ _ _ (Keeps.sub (by decide) hp) ?_
        exact hτ17
      · exact hτ14
    · exact h
  have hσ2 : Keeps ps σ σ2 := by
    unfold σ2
    refine Keeps.foldl ?_ ?_
    · intro τ9 χ10 hτ11
      refine settleStep_keeps _ _ (Keeps.sub (by decide) hp) ?_
      exact hτ11
    · exact hσ1
  have hσ3 : Keeps ps σ σ3 := by
    unfold σ3
    refine h_change _ ?_
    exact hσ2
  have hσ5 : Keeps ps σ σ5 := by
    unfold σ5
    refine Keeps.set_clk (hp _ (by decide)) ?_
    exact hσ3
  refine Keeps.foldl ?_ ?_
  · intro τ6 χ7 hτ8
    refine Keeps.ite (fun _ => ?_) fun _ => ?_
    · exact hτ8
    · refine setTap_keeps _ _ _ (Keeps.sub (by decide) hp) ?_
      exact hτ8
  · exact hσ5

theorem refreshEdges_keeps {ps : List Part} {σ : State} (p : Nat) (s : State)
    (hp : ∀ q ∈ [Part.clk, Part.jobs, Part.kln, Part.msix, Part.out, Part.reg .klnC, Part.reg .klnP, Part.reg .stk, Part.rings, Part.stk, Part.win], q ∈ ps) (h : Keeps ps σ s) : Keeps ps σ (refreshEdges p s) := by
  unfold refreshEdges
  refine Keeps.foldl ?_ ?_
  · intro τ1 χ2 hτ3
    refine Keeps.foldl ?_ ?_
    · intro τ4 χ5 hτ6
      refine Keeps.ite (fun _ => ?_) fun _ => ?_
      · refine predictEdges_keeps _ _ _ _ _ (Keeps.sub (by decide) hp) ?_
        refine updRow_keeps _ _ _ _ (Keeps.sub (by decide) hp) ?_
        refine armEdges_keeps _ _ _ _ (Keeps.sub (by decide) hp) ?_
        exact hτ6
      · exact hτ6
    · exact hτ3
  · exact h

theorem refreshRate_keeps {ps : List Part} {σ : State} (p : Nat) (s : State)
    (hp : ∀ q ∈ [Part.reg .klnC], q ∈ ps) (h : Keeps ps σ s) : Keeps ps σ (refreshRate p s) := by
  unfold refreshRate
  extract_lets σ1 σ2
  have hσ2 : Keeps ps σ σ2 := by
    unfold σ2
    refine Keeps.foldl ?_ ?_
    · intro τ4 χ5 hτ6
      refine wn_keeps _ _ _ (Keeps.sub (by simp) hp) ?_
      exact hτ6
    · exact h
  split
  · refine wn_keeps _ _ _ (Keeps.sub (by decide) hp) ?_
    refine wn_keeps _ _ _ (Keeps.sub (by decide) hp) ?_
    exact hσ2
  · extract_lets σ3
    refine wn_keeps _ _ _ (Keeps.sub (by decide) hp) ?_
    refine wn_keeps _ _ _ (Keeps.sub (by decide) hp) ?_
    exact hσ2

theorem rateCheck_keeps {ps : List Part} {σ : State} (p : Nat) (s : State)
    (hp : ∀ q ∈ [Part.kln, Part.msix, Part.out, Part.reg .klnC, Part.reg .stk, Part.rings, Part.stk], q ∈ ps) (h : Keeps ps σ s) : Keeps ps σ (rateCheck p s) := by
  unfold rateCheck
  split
  · exact h
  · extract_lets σ1 σ2
    have hσ2 : Keeps ps σ σ2 := by
      unfold σ2
      refine updPlane_keeps _ _ _ (Keeps.sub (by decide) hp) ?_
      exact h
    refine Keeps.ite (fun _ => ?_) fun _ => ?_
    · refine Keeps.ite (fun _ => ?_) fun _ => ?_
      · refine raiseIrq_keeps _ _ _ (Keeps.sub (by decide) hp) ?_
        refine event_keeps _ _ _ _ (Keeps.sub (by decide) hp) ?_
        refine updPlane_keeps _ _ _ (Keeps.sub (by decide) hp) ?_
        exact hσ2
      · exact hσ2
    · refine updPlane_keeps _ _ _ (Keeps.sub (by decide) hp) ?_
      exact h

theorem ltrSend_keeps {ps : List Part} {σ : State} (m : Nat) (s : State)
    (hp : ∀ p ∈ [Part.hif, Part.out, Part.reg .hif], p ∈ ps) (h : Keeps ps σ s) : Keeps ps σ (ltrSend m s) := by
  unfold ltrSend
  refine emit_keeps _ _ (Keeps.sub (by decide) hp) ?_
  refine wn_keeps _ _ _ (Keeps.sub (by decide) hp) ?_
  refine Keeps.set_hif (Or.inr rfl) (Or.inr rfl) (Or.inl (hp _ (by decide))) ?_
  exact h

theorem ltrNow_keeps {ps : List Part} {σ : State} (s : State)
    (hp : ∀ p ∈ [Part.hif, Part.out, Part.reg .hif], p ∈ ps) (h : Keeps ps σ s) : Keeps ps σ (ltrNow s) := by
  unfold ltrNow
  refine ltrSend_keeps _ _ (Keeps.sub (by decide) hp) ?_
  exact h

theorem ltrUpdate_keeps {ps : List Part} {σ : State} (s : State)
    (hp : ∀ p ∈ [Part.hif, Part.out, Part.reg .hif], p ∈ ps) (h : Keeps ps σ s) : Keeps ps σ (ltrUpdate s) := by
  unfold ltrUpdate
  refine Keeps.ite (fun _ => ?_) fun _ => ?_
  · exact h
  · refine Keeps.ite (fun _ => ?_) fun _ => ?_
    · split
      · refine Keeps.ite (fun _ => ?_) fun _ => ?_
        · refine ltrSend_keeps _ _ (Keeps.sub (by decide) hp) ?_
          exact h
        · exact h
      · exact h
    · split
      · refine Keeps.ite (fun _ => ?_) fun _ => ?_
        · refine ltrNow_keeps _ (Keeps.sub (by decide) hp) ?_
          exact h
        · exact h
      · refine ltrNow_keeps _ (Keeps.sub (by decide) hp) ?_
        exact h

theorem refreshGrants_keeps {ps : List Part} {σ : State} (s : State)
    (hp : ∀ p ∈ [Part.reg .klnC], p ∈ ps) (h : Keeps ps σ s) : Keeps ps σ (refreshGrants s) := by
  unfold refreshGrants
  extract_lets σ1 σ2 σ3
  refine wf_keeps _ _ _ _ _ (Keeps.sub (by decide) hp) ?_
  exact h

theorem refreshLt_keeps {ps : List Part} {σ : State} (s : State)
    (hp : ∀ p ∈ [Part.hif, Part.out, Part.reg .hif, Part.reg .klnC], p ∈ ps) (h : Keeps ps σ s) : Keeps ps σ (refreshLt s) := by
  unfold refreshLt
  extract_lets σ1 σ2 σ3
  refine Keeps.ite (fun _ => ?_) fun _ => ?_
  · refine Keeps.ite (fun _ => ?_) fun _ => ?_
    · unfold σ2
      refine ltrUpdate_keeps _ (Keeps.sub (by decide) hp) ?_
      refine refreshGrants_keeps _ (Keeps.sub (by decide) hp) ?_
      refine wn_keeps _ _ _ (Keeps.sub (by decide) hp) ?_
      refine wn_keeps _ _ _ (Keeps.sub (by decide) hp) ?_
      exact h
    · unfold σ2
      refine ltrUpdate_keeps _ (Keeps.sub (by decide) hp) ?_
      refine refreshGrants_keeps _ (Keeps.sub (by decide) hp) ?_
      refine wn_keeps _ _ _ (Keeps.sub (by decide) hp) ?_
      refine wn_keeps _ _ _ (Keeps.sub (by decide) hp) ?_
      exact h
  · refine Keeps.ite (fun _ => ?_) fun _ => ?_
    · exact h
    · unfold σ2
      refine ltrUpdate_keeps _ (Keeps.sub (by decide) hp) ?_
      refine refreshGrants_keeps _ (Keeps.sub (by decide) hp) ?_
      refine wn_keeps _ _ _ (Keeps.sub (by decide) hp) ?_
      refine wn_keeps _ _ _ (Keeps.sub (by decide) hp) ?_
      exact h

theorem refreshIdle_keeps {ps : List Part} {σ : State} (s : State)
    (hp : ∀ p ∈ [Part.hif, Part.out, Part.reg .hif, Part.reg .klnC], p ∈ ps) (h : Keeps ps σ s) : Keeps ps σ (refreshIdle s) := by
  unfold refreshIdle
  refine Keeps.ite (fun _ => ?_) fun _ => ?_
  · refine refreshLt_keeps _ (Keeps.sub (by decide) hp) ?_
    exact h
  · exact h

end Sys2Proof.Machine
end

