-- ==== Sys2Proof/Laws/KeepsVision.lean ====
section
/-! SUPPORT. What the operations of Machine/Vision.lean change, and what they keep. -/

namespace Sys2Proof.Machine
open Sys2Proof

theorem placeLines_keeps {ps : List Part} {σ : State} (k : Nat) (s : State)
    (hp : ∀ p ∈ [Part.ipl], p ∈ ps) (h : Keeps ps σ s) : Keeps ps σ (placeLines k s) := by
  unfold placeLines
  extract_lets σ1 σ2
  refine updCam_keeps _ _ _ (Keeps.sub (by decide) hp) ?_
  exact h

theorem noteCrossing_keeps {ps : List Part} {σ : State} (p : Nat) (t : Nat) (s : State)
    (hp : ∀ q ∈ [Part.ipl], q ∈ ps) (h : Keeps ps σ s) : Keeps ps σ (noteCrossing p t s) := by
  unfold noteCrossing
  extract_lets σ1 σ2 σ3
  have hσ3 : Keeps ps σ σ3 := by
    unfold σ3
    refine Keeps.set_ipl (hp _ (by decide)) ?_
    exact h
  refine Keeps.foldl ?_ ?_
  · intro τ4 χ5 hτ6
    refine placeLines_keeps _ _ (Keeps.sub (by decide) hp) ?_
    exact hτ6
  · exact hσ3

theorem notePause_keeps {ps : List Part} {σ : State} (p : Nat) (s : State)
    (hp : ∀ q ∈ [Part.ipl], q ∈ ps) (h : Keeps ps σ s) : Keeps ps σ (notePause p s) := by
  unfold notePause
  refine Keeps.foldl ?_ ?_
  · intro τ1 χ2 hτ3
    refine placeLines_keeps _ _ (Keeps.sub (by decide) hp) ?_
    exact hτ3
  · exact h

theorem restartStall_keeps {ps : List Part} {σ : State} (p : Nat) (t : Nat) (s : State)
    (hp : ∀ q ∈ [Part.ipl], q ∈ ps) (h : Keeps ps σ s) : Keeps ps σ (restartStall p t s) := by
  unfold restartStall
  refine Keeps.foldl ?_ ?_
  · intro τ1 χ2 hτ3
    refine updCam_keeps _ _ _ (Keeps.sub (by decide) hp) ?_
    exact hτ3
  · exact h

theorem noteMark_keeps {ps : List Part} {σ : State} (p : Nat) (n : Nat) (s : State)
    (hp : ∀ q ∈ [Part.ipl], q ∈ ps) (h : Keeps ps σ s) : Keeps ps σ (noteMark p n s) := by
  unfold noteMark
  extract_lets σ1 σ2 σ3 σ4
  refine Keeps.set_ipl (hp _ (by decide)) ?_
  exact h

theorem camIdle_keeps {ps : List Part} {σ : State} (p : Nat) (s : State)
    (hp : ∀ q ∈ [Part.fw, Part.ipl, Part.msix, Part.out, Part.reg .iplP, Part.reg .stk, Part.reg .tilC, Part.rings, Part.stk, Part.til], q ∈ ps) (h : Keeps ps σ s) : Keeps ps σ (camIdle p s) := by
  unfold camIdle
  refine Keeps.foldl ?_ ?_
  · intro τ1 χ2 hτ3
    refine idleLatch_keeps _ _ (Keeps.sub (by simp) hp) ?_
    exact hτ3
  · exact h

theorem reserveRing_keeps {ps : List Part} {σ : State} (p : Nat) (s : State)
    (hp : ∀ q ∈ [Part.win], q ∈ ps) (h : Keeps ps σ s) : Keeps ps σ (reserveRing p s) := by
  unfold reserveRing
  refine Keeps.ite (fun _ => ?_) fun _ => ?_
  · exact h
  · refine Keeps.set_win (hp _ (by decide)) ?_
    exact h

theorem ringAtStart_keeps {ps : List Part} {σ : State} (p : Nat) (s : State)
    (hp : ∀ q ∈ [Part.win], q ∈ ps) (h : Keeps ps σ s) : Keeps ps σ (ringAtStart p s) := by
  unfold ringAtStart
  refine Keeps.ite (fun _ => ?_) fun _ => ?_
  · refine reserveRing_keeps _ _ (Keeps.sub (by decide) hp) ?_
    exact h
  · exact h

end Sys2Proof.Machine
end

