-- ==== Sys2Proof/Laws/KeepsLatch.lean ====
section
/-! SUPPORT. What the operations of Machine/Latch.lean change, and what they keep. -/

namespace Sys2Proof.Machine
open Sys2Proof

theorem latchPages_keeps {ps : List Part} {σ : State} (p : Nat) (slot : Option Nat) (s : State)
    (hp : ∀ q ∈ [Part.cal, Part.crk, Part.entries, Part.fw, Part.gln, Part.ipl, Part.kln, Part.memory, Part.msix, Part.out, Part.ports, Part.reg .cal, Part.reg .hlk, Part.reg .klnC, Part.reg .klnP, Part.reg .stk, Part.reg .tilC, Part.reg .tilE, Part.rings, Part.stk, Part.til], q ∈ ps) (h : Keeps ps σ s) : Keeps ps σ (latchPages p slot s) := by
  unfold latchPages
  extract_lets σ1 σ2 σ3 σ4 σ5 σ6 σ7 σ8 σ9 σ10 σ11 σ12
  have hσ6 : Keeps ps σ σ6 := by
    unfold σ6
    refine Keeps.ite (fun _ => ?_) fun _ => ?_
    · refine wf_keeps _ _ _ _ _ (Keeps.sub (by simp +zetaDelta) hp) ?_
      refine Keeps.ite (fun _ => ?_) fun _ => ?_
      · refine wf_keeps _ _ _ _ _ (Keeps.sub (by simp +zetaDelta) hp) ?_
        exact h
      · exact h
    · exact h
  have hσ8 : Keeps ps σ σ8 := by
    unfold σ8
    refine Keeps.foldl_frame ?_ ?_
    · intro τ13 χ14 hκ15 hτ16
      refine latchPage_keeps _ _ _ (Keeps.sub (by rcases hκ15 with hκ15 | hκ15 | hκ15 <;> rw [hκ15] <;> decide) hp) ?_
      exact hτ16
    · exact hσ6
  have hσ9 : Keeps ps σ σ9 := by
    unfold σ9
    refine Keeps.ite (fun _ => ?_) fun _ => ?_
    · refine applyEntries_keeps _ _ _ _ (Keeps.sub (by decide) hp) ?_
      refine latchTable_keeps _ _ _ (Keeps.sub (by decide) hp) ?_
      exact hσ8
    · exact hσ6
  have hσ12 : Keeps ps σ σ12 := by
    unfold σ12
    refine Keeps.ite (fun _ => ?_) fun _ => ?_
    · refine recordErr_keeps _ _ _ (Keeps.sub (by simp) hp) ?_
      refine wf_keeps _ _ _ _ _ (Keeps.sub (by simp) hp) ?_
      exact hσ9
    · exact hσ9
  refine barLeave_keeps _ _ _ _ (Keeps.sub (by decide) hp) ?_
  exact hσ12

theorem correctRatio_keeps {ps : List Part} {σ : State} (p : Nat) (rm : Int) (s : State)
    (hp : ∀ q ∈ [Part.fw, Part.ipl, Part.kln, Part.memory, Part.msix, Part.out, Part.reg .cal, Part.reg .klnC, Part.reg .klnP, Part.reg .stk, Part.reg .tilC, Part.reg .tilE, Part.rings, Part.stk, Part.til], q ∈ ps) (h : Keeps ps σ s) : Keeps ps σ (correctRatio p rm s) := by
  unfold correctRatio
  extract_lets σ1 σ2 σ3 σ4 σ5
  refine Keeps.ite (fun _ => ?_) fun _ => ?_
  · exact h
  · refine rwsWrite_keeps _ _ _ _ (Keeps.sub (by simp) hp) ?_
    exact h

theorem encoderLatch_keeps {ps : List Part} {σ : State} (p : Nat) (s : State)
    (hp : ∀ q ∈ [Part.fw, Part.ipl, Part.kln, Part.memory, Part.msix, Part.out, Part.reg .cal, Part.reg .klnC, Part.reg .klnP, Part.reg .stk, Part.reg .tilC, Part.reg .tilE, Part.rings, Part.stk, Part.til], q ∈ ps) (h : Keeps ps σ s) : Keeps ps σ (encoderLatch p s) := by
  unfold encoderLatch
  extract_lets σ1 σ2 σ3 σ4 σ5
  have hσ2 : Keeps ps σ σ2 := by
    unfold σ2
    refine wn_keeps _ _ _ (Keeps.sub (by simp) hp) ?_
    exact h
  have hσ3 : Keeps ps σ σ3 := by
    unfold σ3
    clear_value σ1
    split
    · refine correctRatio_keeps _ _ _ (Keeps.sub (by decide) hp) ?_
      exact hσ2
    · exact hσ2
  refine updPlane_keeps _ _ _ (Keeps.sub (by decide) hp) ?_
  exact hσ3

theorem setPass_keeps {ps : List Part} {σ : State} (p : Nat) (s : State)
    (hp : ∀ q ∈ [Part.kln], q ∈ ps) (h : Keeps ps σ s) : Keeps ps σ (setPass p s) := by
  unfold setPass
  refine Keeps.ite (fun _ => ?_) fun _ => ?_
  · extract_lets σ1 σ2 σ3
    refine updPlane_keeps _ _ _ (Keeps.sub (by decide) hp) ?_
    exact h
  · exact h

theorem feedMove_keeps {ps : List Part} {σ : State} (p : Nat) (last : Nat) (s : State)
    (hp : ∀ q ∈ [Part.kln, Part.mot, Part.msix, Part.out, Part.reg .motA, Part.reg .stk, Part.rings, Part.stk], q ∈ ps) (h : Keeps ps σ s) : Keeps ps σ (feedMove p last s) := by
  unfold feedMove
  extract_lets σ1 σ2
  refine Keeps.ite (fun _ => ?_) fun _ => ?_
  · exact h
  · split
    · split
      · split
        · unfold σ2
          extract_lets σ3
          have hσ32 : Keeps ps σ σ3.2 := by
            unfold σ3
            refine startFeed_keeps _ _ _ (Keeps.sub (by decide) hp) ?_
            exact h
          refine updPlane_keeps _ _ _ (Keeps.sub (by decide) hp) ?_
          exact hσ32
        · exact h
      · exact h
    · unfold σ2
      extract_lets σ4
      have hσ42 : Keeps ps σ σ4.2 := by
        unfold σ4
        refine startFeed_keeps _ _ _ (Keeps.sub (by decide) hp) ?_
        exact h
      refine updPlane_keeps _ _ _ (Keeps.sub (by decide) hp) ?_
      exact hσ42
    · exact h

theorem workAgain_keeps {ps : List Part} {σ : State} (p : Nat) (s : State)
    (hp : ∀ q ∈ [Part.glz, Part.jobs, Part.thr], q ∈ ps) (h : Keeps ps σ s) : Keeps ps σ (workAgain p s) := by
  unfold workAgain
  extract_lets σ1 σ2 σ3 σ4 σ5 σ6
  refine Keeps.set_jobs_thr_glz (hp _ (by decide)) (hp _ (by decide)) (hp _ (by decide)) ?_
  exact h

theorem latchPass_keeps {ps : List Part} {σ : State} (p : Nat) (slot : Nat) (s : State)
    (hp : ∀ q ∈ [Part.fw, Part.glz, Part.jobs, Part.kln, Part.thr], q ∈ ps) (h : Keeps ps σ s) : Keeps ps σ (latchPass p slot s) := by
  unfold latchPass
  extract_lets σ1 σ2
  split
  · refine Keeps.ite (fun _ => ?_) fun _ => ?_
    · refine workAgain_keeps _ _ (Keeps.sub (by decide) hp) ?_
      refine noteLatch_keeps _ _ _ (Keeps.sub (by decide) hp) ?_
      refine updPlane_keeps _ _ _ (Keeps.sub (by decide) hp) ?_
      exact h
    · exact h
  · exact h

theorem frameEnds_keeps {ps : List Part} {σ : State} (p : Nat) (s : State)
    (hp : ∀ q ∈ [Part.crk, Part.free, Part.glz, Part.jobs, Part.msix, Part.out, Part.reg .klnP, Part.reg .stk, Part.reg .win, Part.rings, Part.sag, Part.stk, Part.thr, Part.win], q ∈ ps) (h : Keeps ps σ s) : Keeps ps σ (frameEnds p s) := by
  unfold frameEnds
  extract_lets σ1
  refine Keeps.ite (fun _ => ?_) fun _ => ?_
  · refine closeFrame_keeps _ _ (Keeps.sub (by decide) hp) ?_
    refine Keeps.ite (fun _ => ?_) fun _ => ?_
    · refine wn_keeps _ _ _ (Keeps.sub (by simp) hp) ?_
      exact h
    · refine wn_keeps _ _ _ (Keeps.sub (by simp) hp) ?_
      exact h
  · exact h

theorem openFrame_keeps {ps : List Part} {σ : State} (p : Nat) (n : Nat) (s : State)
    (hp : ∀ q ∈ [Part.crk, Part.free, Part.fw, Part.glz, Part.ipl, Part.jobs, Part.kln, Part.mot, Part.msix, Part.out, Part.reg .klnP, Part.reg .motA, Part.reg .stk, Part.rings, Part.sag, Part.stk, Part.thr], q ∈ ps) (h : Keeps ps σ s) : Keeps ps σ (openFrame p n s) := by
  unfold openFrame
  extract_lets σ1 σ2 σ3 σ4 σ5 σ6 σ7 σ8 σ9 σ10 σ11 σ12 σ13 σ14 σ15
  have hσ1 : Keeps ps σ σ1 := by
    unfold σ1
    refine updPlane_keeps _ _ _ (Keeps.sub (by decide) hp) ?_
    exact h
  have hσ2 : Keeps ps σ σ2 := by
    unfold σ2
    refine decideSlot_keeps _ _ _ (Keeps.sub (by decide) hp) ?_
    exact hσ1
  have hσ3 : Keeps ps σ σ3 := by
    unfold σ3
    refine latchPass_keeps _ _ _ (Keeps.sub (by decide) hp) ?_
    exact hσ2
  have hσ5 : Keeps ps σ σ5 := by
    unfold σ5
    clear_value σ4
    split
    · refine commitCopy_keeps _ _ (Keeps.sub (by decide) hp) ?_
      exact hσ3
    · exact hσ3
  have hσ7 : Keeps ps σ σ7 := by
    unfold σ7
    refine updPlane_keeps _ _ _ (Keeps.sub (by decide) hp) ?_
    exact hσ5
  have hσ8 : Keeps ps σ σ8 := by
    unfold σ8
    clear_value σ4
    split
    · refine updCopy_keeps _ _ _ (Keeps.sub (by decide) hp) ?_
      exact hσ7
    · exact hσ7
  have hσ9 : Keeps ps σ σ9 := by
    unfold σ9
    refine setPass_keeps _ _ (Keeps.sub (by decide) hp) ?_
    exact hσ8
  have hσ10 : Keeps ps σ σ10 := by
    unfold σ10
    refine wn_keeps _ _ _ (Keeps.sub (by simp) hp) ?_
    exact hσ9
  have hσ11 : Keeps ps σ σ11 := by
    unfold σ11
    refine openWindows_keeps _ _ _ (Keeps.sub (by decide) hp) ?_
    exact hσ10
  have hσ12 : Keeps ps σ σ12 := by
    unfold σ12
    refine inc_keeps _ _ _ (Keeps.sub (by simp +zetaDelta) hp) ?_
    exact hσ11
  have hσ14 : Keeps ps σ σ14 := by
    unfold σ14
    refine Keeps.foldl ?_ ?_
    · intro τ16 χ17 hτ18
      refine updHead_keeps _ _ _ (Keeps.sub (by decide) hp) ?_
      exact hτ18
    · exact hσ12
  have hσ15 : Keeps ps σ σ15 := by
    unfold σ15
    refine flagCopy_keeps _ _ _ (Keeps.sub (by decide) hp) ?_
    exact hσ14
  refine noteMark_keeps _ _ _ (Keeps.sub (by decide) hp) ?_
  refine feedMove_keeps _ _ _ (Keeps.sub (by decide) hp) ?_
  exact hσ15

theorem markFrame_keeps {ps : List Part} {σ : State} (p : Nat) (s : State)
    (hp : ∀ q ∈ [Part.kln, Part.out], q ∈ ps) (h : Keeps ps σ s) : Keeps ps σ (markFrame p s) := by
  unfold markFrame
  refine Keeps.foldl ?_ ?_
  · intro τ1 χ2 hτ3
    refine Keeps.ite (fun _ => ?_) fun _ => ?_
    · refine emit_keeps _ _ (Keeps.sub (by decide) hp) ?_
      refine Keeps.set_kln (hp _ (by decide)) ?_
      exact hτ3
    · exact hτ3
  · exact h

theorem startRows_keeps {ps : List Part} {σ : State} (p : Nat) (fresh : HeadDecl → Nat → Bool) (f : BitVec 32) (s : State)
    (hp : ∀ q ∈ [Part.kln], q ∈ ps) (h : Keeps ps σ s) : Keeps ps σ (startRows p fresh f s) := by
  unfold startRows
  refine Keeps.foldl ?_ ?_
  · intro τ1 χ2 hτ3
    refine Keeps.foldl ?_ ?_
    · intro τ4 χ5 hτ6
      refine Keeps.ite (fun _ => ?_) fun _ => ?_
      · refine updRow_keeps _ _ _ _ (Keeps.sub (by decide) hp) ?_
        exact hτ6
      · exact hτ6
    · exact hτ3
  · exact h

theorem idleTables_keeps {ps : List Part} {σ : State} (p : Nat) (s : State)
    (hp : ∀ q ∈ [Part.cal, Part.crk, Part.entries, Part.fw, Part.gln, Part.glz, Part.jobs, Part.kln, Part.ports, Part.reg .cal, Part.thr, Part.til], q ∈ ps) (h : Keeps ps σ s) : Keeps ps σ (idleTables p s) := by
  unfold idleTables
  refine Keeps.ite (fun _ => ?_) fun _ => ?_
  · refine applyEntries_keeps _ _ _ _ (Keeps.sub (by decide) hp) ?_
    refine latchPass_keeps _ _ _ (Keeps.sub (by decide) hp) ?_
    refine latchTable_keeps _ _ _ (Keeps.sub (by decide) hp) ?_
    exact h
  · exact h

theorem idleEntries_keeps {ps : List Part} {σ : State} (h : Nat) (s : State)
    (hp : ∀ p ∈ [Part.cal, Part.crk, Part.entries, Part.fw, Part.gln, Part.glz, Part.jobs, Part.kln, Part.ports, Part.reg .cal, Part.thr, Part.til], p ∈ ps) (hs : Keeps ps σ s) : Keeps ps σ (idleEntries h s) := by
  unfold idleEntries
  split
  · refine idleTables_keeps _ _ (Keeps.sub (by decide) hp) ?_
    exact hs
  · refine applyEntries_keeps _ _ _ _ (Keeps.sub (by decide) hp) ?_
    exact hs

theorem stopPlane_keeps {ps : List Part} {σ : State} (p : Nat) (s : State)
    (hp : ∀ q ∈ [Part.cal, Part.crk, Part.entries, Part.fw, Part.gln, Part.glz, Part.ipl, Part.jobs, Part.kln, Part.memory, Part.msix, Part.out, Part.pif, Part.ports, Part.reg .cal, Part.reg .hlk, Part.reg .iplP, Part.reg .klnC, Part.reg .klnP, Part.reg .pifCh, Part.reg .stk, Part.reg .tilC, Part.reg .tilE, Part.rings, Part.stk, Part.thr, Part.til], q ∈ ps) (h : Keeps ps σ s) : Keeps ps σ (stopPlane p s) := by
  unfold stopPlane
  extract_lets σ1 σ2 σ3 σ4
  have hσ1 : Keeps ps σ σ1 := by
    unfold σ1
    refine Keeps.foldl ?_ ?_
    · intro τ9 χ10 hτ11
      refine Keeps.foldl ?_ ?_
      · intro τ12 χ13 hτ14
        refine updRow_keeps _ _ _ _ (Keeps.sub (by decide) hp) ?_
        exact hτ14
      · exact hτ11
    · exact h
  have hσ2 : Keeps ps σ σ2 := by
    unfold σ2
    refine updPlane_keeps _ _ _ (Keeps.sub (by decide) hp) ?_
    exact hσ1
  have hσ3 : Keeps ps σ σ3 := by
    unfold σ3
    refine setPlaneState_keeps _ _ _ (Keeps.sub (by decide) hp) ?_
    exact hσ2
  have hσ4 : Keeps ps σ σ4 := by
    unfold σ4
    refine Keeps.foldl_frame ?_ ?_
    · intro τ5 χ6 hκ7 hτ8
      refine idleLatch_keeps _ _ (Keeps.sub (by rcases hκ7 with hκ7 | hκ7 | hκ7 <;> rw [hκ7] <;> decide) hp) ?_
      exact hτ8
    · exact hσ3
  refine camIdle_keeps _ _ (Keeps.sub (by decide) hp) ?_
  refine applyCorrections_keeps _ _ _ (Keeps.sub (by decide) hp) ?_
  refine planeStopped_keeps _ _ (Keeps.sub (by decide) hp) ?_
  refine barLeave_keeps _ _ _ _ (Keeps.sub (by decide) hp) ?_
  refine idleTables_keeps _ _ (Keeps.sub (by decide) hp) ?_
  exact hσ4

theorem latchStep1_keeps {ps : List Part} {σ : State} (p : Nat) (slot : Option Nat) (s : State)
    (hp : ∀ q ∈ [Part.cal, Part.crk, Part.entries, Part.fw, Part.gln, Part.ipl, Part.kln, Part.memory, Part.msix, Part.out, Part.ports, Part.reg .cal, Part.reg .hlk, Part.reg .klnC, Part.reg .klnP, Part.reg .stk, Part.reg .tilC, Part.reg .tilE, Part.rings, Part.stk, Part.til], q ∈ ps) (h : Keeps ps σ s) : Keeps ps σ (latchStep1 p slot s) := by
  unfold latchStep1
  extract_lets σ1 σ2
  have hσ2 : Keeps ps σ σ2 := by
    unfold σ2
    refine latchPages_keeps _ _ _ (Keeps.sub (by decide) hp) ?_
    exact h
  refine updPlane_keeps _ _ _ (Keeps.sub (by decide) hp) ?_
  exact hσ2

theorem frameLatch_keeps {ps : List Part} {σ : State} (p : Nat) (s : State)
    (hp : ∀ q ∈ [Part.cal, Part.crk, Part.entries, Part.free, Part.fw, Part.gln, Part.glz, Part.ipl, Part.jobs, Part.kln, Part.memory, Part.mot, Part.msix, Part.out, Part.pif, Part.ports, Part.reg .cal, Part.reg .hlk, Part.reg .iplP, Part.reg .klnC, Part.reg .klnP, Part.reg .motA, Part.reg .pifCh, Part.reg .stk, Part.reg .tilC, Part.reg .tilE, Part.reg .win, Part.rings, Part.sag, Part.stk, Part.thr, Part.til, Part.win], q ∈ ps) (h : Keeps ps σ s) : Keeps ps σ (frameLatch p s) := by
  unfold frameLatch
  extract_lets σ1 σ2 σ3 σ4 σ5 σ6 σ7 σ8 σ9
  have hσ1 : Keeps ps σ σ1 := by
    unfold σ1
    refine updPlane_keeps _ _ _ (Keeps.sub (by decide) hp) ?_
    exact h
  have hσ3 : Keeps ps σ σ3 := by
    unfold σ3
    refine frameEnds_keeps _ _ (Keeps.sub (by decide) hp) ?_
    exact hσ1
  have hσ5 : Keeps ps σ σ5 := by
    unfold σ5
    refine Keeps.ite (fun _ => ?_) fun _ => ?_
    · refine setPlaneState_keeps _ _ _ (Keeps.sub (by decide) hp) ?_
      exact hσ3
    · exact hσ3
  have hσ6 : Keeps ps σ σ6 := by
    unfold σ6
    refine latchStep1_keeps _ _ _ (Keeps.sub (by decide) hp) ?_
    exact hσ5
  have hσ7 : Keeps ps σ σ7 := by
    unfold σ7
    refine openFrame_keeps _ _ _ (Keeps.sub (by decide) hp) ?_
    exact hσ6
  have hσ8 : Keeps ps σ σ8 := by
    unfold σ8
    refine startRows_keeps _ _ _ _ (Keeps.sub (by decide) hp) ?_
    exact hσ7
  have hσ9 : Keeps ps σ σ9 := by
    unfold σ9
    refine encoderLatch_keeps _ _ (Keeps.sub (by decide) hp) ?_
    exact hσ8
  refine Keeps.ite (fun _ => ?_) fun _ => ?_
  · refine markFrame_keeps _ _ (Keeps.sub (by decide) hp) ?_
    refine stopPlane_keeps _ _ (Keeps.sub (by decide) hp) ?_
    refine encoderLatch_keeps _ _ (Keeps.sub (by decide) hp) ?_
    refine latchStep1_keeps _ _ _ (Keeps.sub (by decide) hp) ?_
    exact hσ3
  · refine markFrame_keeps _ _ (Keeps.sub (by decide) hp) ?_
    refine applyCorrections_keeps _ _ _ (Keeps.sub (by decide) hp) ?_
    exact hσ9

theorem feedCheck_keeps {ps : List Part} {σ : State} (p : Nat) (s : State)
    (hp : ∀ q ∈ [Part.kln, Part.msix, Part.out, Part.reg .klnP, Part.reg .stk, Part.rings, Part.stk], q ∈ ps) (h : Keeps ps σ s) : Keeps ps σ (feedCheck p s) := by
  unfold feedCheck
  extract_lets σ1 σ2
  have hσ2 : Keeps ps σ σ2 := by
    unfold σ2
    refine updPlane_keeps _ _ _ (Keeps.sub (by decide) hp) ?_
    exact h
  split
  · refine Keeps.ite (fun _ => ?_) fun _ => ?_
    · refine Keeps.ite (fun _ => ?_) fun _ => ?_
      · refine raiseIrq_keeps _ _ _ (Keeps.sub (by simp) hp) ?_
        refine event_keeps _ _ _ _ (Keeps.sub (by decide) hp) ?_
        refine inc_keeps _ _ _ (Keeps.sub (by simp) hp) ?_
        exact hσ2
      · exact hσ2
    · exact h
  · exact h

theorem crossed_keeps {ps : List Part} {σ : State} (p : Nat) (s : State)
    (hp : ∀ q ∈ [Part.hif, Part.kln, Part.msix, Part.out, Part.reg .hif, Part.reg .klnC, Part.reg .stk, Part.rings, Part.stk], q ∈ ps) (h : Keeps ps σ s) : Keeps ps σ (crossed p s) := by
  unfold crossed
  refine refreshLt_keeps _ (Keeps.sub (by decide) hp) ?_
  refine Keeps.ite (fun _ => ?_) fun _ => ?_
  · refine rateCheck_keeps _ _ (Keeps.sub (by decide) hp) ?_
    refine refreshRate_keeps _ _ (Keeps.sub (by decide) hp) ?_
    exact h
  · refine refreshRate_keeps _ _ (Keeps.sub (by decide) hp) ?_
    exact h

theorem crossing_keeps {ps : List Part} {σ : State} (p : Nat) (b : Int) (t : Nat) (s : State)
    (hp : ∀ q ∈ [Part.cal, Part.crk, Part.entries, Part.free, Part.fw, Part.gln, Part.glz, Part.hif, Part.ipl, Part.jobs, Part.kln, Part.memory, Part.mot, Part.msix, Part.out, Part.pif, Part.ports, Part.reg .cal, Part.reg .hif, Part.reg .hlk, Part.reg .iplP, Part.reg .klnC, Part.reg .klnP, Part.reg .motA, Part.reg .pifCh, Part.reg .stk, Part.reg .tilC, Part.reg .tilE, Part.reg .win, Part.rings, Part.sag, Part.stk, Part.thr, Part.til, Part.win], q ∈ ps) (h : Keeps ps σ s) : Keeps ps σ (crossing p b t s) := by
  unfold crossing
  extract_lets σ1 σ2 σ3 σ4 σ5 σ6
  have hσ1 : Keeps ps σ σ1 := by
    unfold σ1
    refine noteCrossing_keeps _ _ _ (Keeps.sub (by decide) hp) ?_
    refine updPlane_keeps _ _ _ (Keeps.sub (by decide) hp) ?_
    exact h
  have hσ3 : Keeps ps σ σ3 := by
    unfold σ3
    refine updPlane_keeps _ _ _ (Keeps.sub (by decide) hp) ?_
    exact hσ1
  have hσ5 : Keeps ps σ σ5 := by
    unfold σ5
    refine updPlane_keeps _ _ _ (Keeps.sub (by decide) hp) ?_
    exact hσ1
  have hσ6 : Keeps ps σ σ6 := by
    unfold σ6
    refine Keeps.ite (fun _ => ?_) fun _ => ?_
    · refine Keeps.ite (fun _ => ?_) fun _ => ?_
      · refine frameLatch_keeps _ _ (Keeps.sub (by decide) hp) ?_
        exact hσ3
      · exact hσ3
    · refine Keeps.ite (fun _ => ?_) fun _ => ?_
      · refine frameLatch_keeps _ _ (Keeps.sub (by decide) hp) ?_
        exact hσ5
      · refine feedCheck_keeps _ _ (Keeps.sub (by decide) hp) ?_
        exact hσ5
  refine crossed_keeps _ _ (Keeps.sub (by decide) hp) ?_
  exact hσ6

theorem raiseFront_keeps {ps : List Part} {σ : State} (p : Nat) (s : State)
    (hp : ∀ q ∈ [Part.kln], q ∈ ps) (h : Keeps ps σ s) : Keeps ps σ (raiseFront p s) := by
  unfold raiseFront
  refine updPlane_keeps _ _ _ (Keeps.sub (by decide) hp) ?_
  exact h

theorem crossings_keeps {ps : List Part} {σ : State} (p : Nat) (t : Nat) (y0 : List Int) (s : State)
    (hp : ∀ q ∈ [Part.cal, Part.crk, Part.entries, Part.free, Part.fw, Part.gln, Part.glz, Part.hif, Part.ipl, Part.jobs, Part.kln, Part.memory, Part.mot, Part.msix, Part.out, Part.pif, Part.ports, Part.reg .cal, Part.reg .hif, Part.reg .hlk, Part.reg .iplP, Part.reg .klnC, Part.reg .klnP, Part.reg .motA, Part.reg .pifCh, Part.reg .stk, Part.reg .tilC, Part.reg .tilE, Part.reg .win, Part.rings, Part.sag, Part.stk, Part.thr, Part.til, Part.win], q ∈ ps) (h : Keeps ps σ s) : Keeps ps σ (crossings p t y0 s) := by
  induction y0 generalizing p t s with
  | nil =>
    unfold crossings
    refine raiseFront_keeps _ _ (Keeps.sub (by decide) hp) ?_
    exact h
  | cons m r_ ih =>
    unfold crossings
    extract_lets σ1
    have hσ1 : Keeps ps σ σ1 := by
      unfold σ1
      refine crossing_keeps _ _ _ _ (Keeps.sub (by decide) hp) ?_
      exact h
    refine Keeps.ite (fun _ => ?_) fun _ => ?_
    · exact hσ1
    · refine ih _ _ _ ?_
      exact hσ1

theorem takeReference_keeps {ps : List Part} {σ : State} (p : Nat) (b : Option Int) (t : Nat) (s : State)
    (hp : ∀ q ∈ [Part.cal, Part.crk, Part.entries, Part.free, Part.fw, Part.gln, Part.glz, Part.hif, Part.ipl, Part.jobs, Part.kln, Part.memory, Part.mot, Part.msix, Part.out, Part.pif, Part.ports, Part.reg .cal, Part.reg .hif, Part.reg .hlk, Part.reg .iplP, Part.reg .klnC, Part.reg .klnP, Part.reg .motA, Part.reg .pifCh, Part.reg .stk, Part.reg .tilC, Part.reg .tilE, Part.reg .win, Part.rings, Part.sag, Part.stk, Part.thr, Part.til, Part.win], q ∈ ps) (h : Keeps ps σ s) : Keeps ps σ (takeReference p b t s) := by
  unfold takeReference
  extract_lets σ1 σ2 σ3 σ4 σ5 σ6 σ7
  have hσ4 : Keeps ps σ σ4 := by
    unfold σ4
    refine noteCrossing_keeps _ _ _ (Keeps.sub (by decide) hp) ?_
    refine updPlane_keeps _ _ _ (Keeps.sub (by decide) hp) ?_
    exact h
  have hσ5 : Keeps ps σ σ5 := by
    unfold σ5
    refine startRows_keeps _ _ _ _ (Keeps.sub (by decide) hp) ?_
    exact hσ4
  have hσ6 : Keeps ps σ σ6 := by
    unfold σ6
    refine Keeps.ite (fun _ => ?_) fun _ => ?_
    · refine frameLatch_keeps _ _ (Keeps.sub (by decide) hp) ?_
      exact hσ5
    · exact hσ5
  have hσ7 : Keeps ps σ σ7 := by
    unfold σ7
    refine crossed_keeps _ _ (Keeps.sub (by decide) hp) ?_
    refine updPlane_keeps _ _ _ (Keeps.sub (by decide) hp) ?_
    exact hσ6
  refine Keeps.ite (fun _ => ?_) fun _ => ?_
  · exact hσ7
  · refine crossings_keeps _ _ _ _ (Keeps.sub (by decide) hp) ?_
    exact hσ7

theorem deviation_keeps {ps : List Part} {σ : State} (p : Nat) (s : State)
    (hp : ∀ q ∈ [Part.kln, Part.msix, Part.out, Part.reg .klnP, Part.reg .stk, Part.rings, Part.stk], q ∈ ps) (h : Keeps ps σ s) : Keeps ps σ (deviation p s) := by
  unfold deviation
  extract_lets σ1 σ2 σ3 σ4 σ5 σ6 σ7 σ8 σ9 σ10 σ11
  have hσ8 : Keeps ps σ σ8 := by
    unfold σ8
    refine wn_keeps _ _ _ (Keeps.sub (by simp) hp) ?_
    refine updPlane_keeps _ _ _ (Keeps.sub (by decide) hp) ?_
    exact h
  refine Keeps.ite (fun _ => ?_) fun _ => ?_
  · refine Keeps.ite (fun _ => ?_) fun _ => ?_
    · refine raiseIrq_keeps _ _ _ (Keeps.sub (by simp) hp) ?_
      refine event_keeps _ _ _ _ (Keeps.sub (by decide) hp) ?_
      refine inc_keeps _ _ _ (Keeps.sub (by simp) hp) ?_
      refine updPlane_keeps _ _ _ (Keeps.sub (by decide) hp) ?_
      exact hσ8
    · exact hσ8
  · exact h

theorem channelStep_keeps {ps : List Part} {σ : State} (k : Nat) (t : Nat) (d : Int) (close : Bool) (s : State)
    (hp : ∀ p ∈ [Part.kln, Part.msix, Part.out, Part.reg .klnC, Part.reg .stk, Part.rings, Part.stk], p ∈ ps) (h : Keeps ps σ s) : Keeps ps σ (channelStep k t d close s) := by
  unfold channelStep
  extract_lets σ1 σ2 σ3 σ4 σ5 σ6 σ7
  have hσ3 : Keeps ps σ σ3 := by
    unfold σ3
    refine Keeps.ite (fun _ => ?_) fun _ => ?_
    · refine raiseIrq_keeps _ _ _ (Keeps.sub (by decide) hp) ?_
      refine event_keeps _ _ _ _ (Keeps.sub (by decide) hp) ?_
      exact h
    · exact h
  have hσ6 : Keeps ps σ σ6 := by
    unfold σ6
    refine updChannel_keeps _ _ _ (Keeps.sub (by decide) hp) ?_
    exact hσ3
  have hσ7 : Keeps ps σ σ7 := by
    unfold σ7
    refine wn_keeps _ _ _ (Keeps.sub (by simp) hp) ?_
    refine wn64_keeps _ _ _ (Keeps.sub (by simp) hp) ?_
    exact hσ6
  refine wn_keeps _ _ _ (Keeps.sub (by simp) hp) ?_
  exact hσ7

theorem planeStep_keeps {ps : List Part} {σ : State} (k : Nat) (p : Nat) (d : Int) (close : Bool) (resumed : Bool) (s : State)
    (hp : ∀ q ∈ [Part.kln], q ∈ ps) (h : Keeps ps σ s) : Keeps ps σ (planeStep k p d close resumed s) := by
  unfold planeStep
  refine updPlane_keeps _ _ _ (Keeps.sub (by decide) hp) ?_
  exact h

theorem planeFront_keeps {ps : List Part} {σ : State} (p : Nat) (t : Nat) (d : Int) (s : State)
    (hp : ∀ q ∈ [Part.cal, Part.crk, Part.entries, Part.free, Part.fw, Part.gln, Part.glz, Part.hif, Part.ipl, Part.jobs, Part.kln, Part.memory, Part.mot, Part.msix, Part.out, Part.pif, Part.ports, Part.reg .cal, Part.reg .hif, Part.reg .hlk, Part.reg .iplP, Part.reg .klnC, Part.reg .klnP, Part.reg .motA, Part.reg .pifCh, Part.reg .stk, Part.reg .tilC, Part.reg .tilE, Part.reg .win, Part.rings, Part.sag, Part.stk, Part.thr, Part.til, Part.win], q ∈ ps) (h : Keeps ps σ s) : Keeps ps σ (planeFront p t d s) := by
  unfold planeFront
  extract_lets σ1 σ2 σ3 σ4 σ5
  have hσ4 : Keeps ps σ σ4 := by
    unfold σ4
    refine updPlane_keeps _ _ _ (Keeps.sub (by decide) hp) ?_
    exact h
  have hσ5 : Keeps ps σ σ5 := by
    unfold σ5
    refine Keeps.ite (fun _ => ?_) fun _ => ?_
    · refine crossings_keeps _ _ _ _ (Keeps.sub (by decide) hp) ?_
      refine Keeps.ite (fun _ => ?_) fun _ => ?_
      · refine restartStall_keeps _ _ _ (Keeps.sub (by decide) hp) ?_
        exact hσ4
      · exact hσ4
    · refine updPlane_keeps _ _ _ (Keeps.sub (by decide) hp) ?_
      exact h
  refine Keeps.ite (fun _ => ?_) fun _ => ?_
  · refine Keeps.ite (fun _ => ?_) fun _ => ?_
    · refine deviation_keeps _ _ (Keeps.sub (by decide) hp) ?_
      exact hσ5
    · exact hσ5
  · exact h

theorem referenceGroup_keeps {ps : List Part} {σ : State} (k : Nat) (t : Nat) (d : Int) (s : State)
    (hp : ∀ p ∈ [Part.cal, Part.crk, Part.entries, Part.free, Part.fw, Part.gln, Part.glz, Part.hif, Part.ipl, Part.jobs, Part.kln, Part.memory, Part.mot, Part.msix, Part.out, Part.pif, Part.ports, Part.reg .cal, Part.reg .hif, Part.reg .hlk, Part.reg .iplP, Part.reg .klnC, Part.reg .klnP, Part.reg .motA, Part.reg .pifCh, Part.reg .stk, Part.reg .tilC, Part.reg .tilE, Part.reg .win, Part.rings, Part.sag, Part.stk, Part.thr, Part.til, Part.win], p ∈ ps) (h : Keeps ps σ s) : Keeps ps σ (referenceGroup k t d s) := by
  unfold referenceGroup
  extract_lets σ1 σ2
  refine Keeps.foldl ?_ ?_
  · intro τ3 χ4 hτ5
    extract_lets σ6 σ7
    refine Keeps.ite (fun _ => ?_) fun _ => ?_
    · split
      · refine Keeps.foldl ?_ ?_
        · intro τ8 χ9 hτ10
          refine takeReference_keeps _ _ _ _ (Keeps.sub (by decide) hp) ?_
          exact hτ10
        · exact hτ5
      · refine updPlane_keeps _ _ _ (Keeps.sub (by decide) hp) ?_
        exact hτ5
    · exact hτ5
  · exact h

theorem startAtStep_keeps {ps : List Part} {σ : State} (k : Nat) (t : Nat) (d : Int) (s : State)
    (hp : ∀ p ∈ [Part.cal, Part.crk, Part.entries, Part.free, Part.fw, Part.gln, Part.glz, Part.hif, Part.ipl, Part.jobs, Part.kln, Part.memory, Part.mot, Part.msix, Part.out, Part.pif, Part.ports, Part.reg .cal, Part.reg .hif, Part.reg .hlk, Part.reg .iplP, Part.reg .klnC, Part.reg .klnP, Part.reg .motA, Part.reg .pifCh, Part.reg .stk, Part.reg .tilC, Part.reg .tilE, Part.reg .win, Part.rings, Part.sag, Part.stk, Part.thr, Part.til, Part.win], p ∈ ps) (h : Keeps ps σ s) : Keeps ps σ (startAtStep k t d s) := by
  unfold startAtStep
  extract_lets σ1
  refine Keeps.ite (fun _ => ?_) fun _ => ?_
  · refine Keeps.foldl ?_ ?_
    · intro τ2 χ3 hτ4
      refine takeReference_keeps _ _ _ _ (Keeps.sub (by decide) hp) ?_
      exact hτ4
    · exact h
  · exact h

theorem paceStep_keeps {ps : List Part} {σ : State} (k : Nat) (t : Nat) (d : Int) (close : Bool) (s : State)
    (hp : ∀ p ∈ [Part.cal, Part.clk, Part.clock, Part.crk, Part.entries, Part.free, Part.fw, Part.gln, Part.glz, Part.hif, Part.ipl, Part.jobs, Part.kln, Part.memory, Part.mot, Part.msix, Part.out, Part.pif, Part.ports, Part.reg .cal, Part.reg .hif, Part.reg .hlk, Part.reg .iplP, Part.reg .klnC, Part.reg .klnP, Part.reg .motA, Part.reg .pifCh, Part.reg .stk, Part.reg .tilC, Part.reg .tilE, Part.reg .tim, Part.reg .win, Part.rings, Part.sag, Part.stk, Part.thr, Part.til, Part.win], p ∈ ps) (h : Keeps ps σ s) : Keeps ps σ (paceStep k t d close s) := by
  unfold paceStep
  extract_lets σ1 σ2 σ3 σ4 σ5 σ6 σ7 σ8
  have hσ1 : Keeps ps σ σ1 := by
    unfold σ1
    refine advanceTo_keeps _ _ (Keeps.sub (by decide) hp) ?_
    exact h
  have hσ3 : Keeps ps σ σ3 := by
    unfold σ3
    refine channelStep_keeps _ _ _ _ _ (Keeps.sub (by decide) hp) ?_
    exact hσ1
  have hσ5 : Keeps ps σ σ5 := by
    unfold σ5
    refine Keeps.foldl ?_ ?_
    · intro τ15 χ16 hτ17
      refine planeStep_keeps _ _ _ _ _ _ (Keeps.sub (by decide) hp) ?_
      exact hτ17
    · exact hσ3
  have hσ7 : Keeps ps σ σ7 := by
    unfold σ7
    refine Keeps.foldl ?_ ?_
    · intro τ12 χ13 hτ14
      refine planeFront_keeps _ _ _ _ (Keeps.sub (by decide) hp) ?_
      exact hτ14
    · exact hσ5
  have hσ8 : Keeps ps σ σ8 := by
    unfold σ8
    refine Keeps.ite (fun _ => ?_) fun _ => ?_
    · refine startAtStep_keeps _ _ _ _ (Keeps.sub (by decide) hp) ?_
      exact hσ7
    · refine referenceGroup_keeps _ _ _ _ (Keeps.sub (by decide) hp) ?_
      exact hσ7
  refine Keeps.foldl ?_ ?_
  · intro τ9 χ10 hτ11
    refine Keeps.ite (fun _ => ?_) fun _ => ?_
    · refine refreshEdges_keeps _ _ (Keeps.sub (by decide) hp) ?_
      exact hτ11
    · exact hτ11
  · exact hσ8

end Sys2Proof.Machine
end

