-- ==== Sys2Proof/Laws/KeepsCommand.lean ====
section
/-! SUPPORT. What the operations of Machine/Command.lean change, and what they keep. -/

namespace Sys2Proof.Machine
open Sys2Proof

theorem parkWaiting_keeps {ps : List Part} {σ : State} (h : Hdr) (c : Instr) (objs : List Nat) (waits : List Nat) (s : State)
    (hp : ∀ p ∈ [Part.fw], p ∈ ps) (hs : Keeps ps σ s) : Keeps ps σ (parkWaiting h c objs waits s) := by
  unfold parkWaiting
  refine park_keeps _ _ (Keeps.sub (by decide) hp) ?_
  exact hs

theorem parkAccepted_keeps {ps : List Part} {σ : State} (h : Hdr) (c : Instr) (objs : List Nat) (waits : List Nat) (s : State)
    (hp : ∀ p ∈ [Part.fw], p ∈ ps) (hs : Keeps ps σ s) : Keeps ps σ (parkAccepted h c objs waits s) := by
  unfold parkAccepted
  refine park_keeps _ _ (Keeps.sub (by decide) hp) ?_
  exact hs

theorem command_keeps {ps : List Part} {σ : State} (d : Desc) (cls : RingClass) (objs : Nat → List Nat) (c : Instr) (body : Hdr → State → State) (s : State)
    (h_body : ∀ (x0 : Hdr) (t : State), Keeps ps σ t → Keeps ps σ (body x0 t))
    (hp : ∀ p ∈ [Part.fw, Part.msix, Part.out, Part.reg .hif, Part.reg .stk, Part.rings, Part.stk], p ∈ ps) (h : Keeps ps σ s) : Keeps ps σ (command d cls objs c body s) := by
  unfold command
  refine Keeps.ite (fun _ => ?_) fun _ => ?_
  · extract_lets σ1 σ2
    have hσ2 : Keeps ps σ σ2 := by
      unfold σ2
      refine taken_keeps _ _ (Keeps.sub (by decide) hp) ?_
      exact h
    refine Keeps.ite (fun _ => ?_) fun _ => ?_
    · refine fail_keeps _ _ _ (Keeps.sub (by decide) hp) ?_
      exact hσ2
    · refine Keeps.ite (fun _ => ?_) fun _ => ?_
      · refine fail_keeps _ _ _ (Keeps.sub (by decide) hp) ?_
        refine recordErr_keeps _ _ _ (Keeps.sub (by decide) hp) ?_
        exact hσ2
      · refine Keeps.ite (fun _ => ?_) fun _ => ?_
        · refine fail_keeps _ _ _ (Keeps.sub (by decide) hp) ?_
          exact hσ2
        · refine Keeps.ite (fun _ => ?_) fun _ => ?_
          · refine fail_keeps _ _ _ (Keeps.sub (by decide) hp) ?_
            refine raiseAlarm_keeps _ _ _ _ (Keeps.sub (by decide) hp) ?_
            exact hσ2
          · refine Keeps.ite (fun _ => ?_) fun _ => ?_
            · refine parkWaiting_keeps _ _ _ _ _ (Keeps.sub (by decide) hp) ?_
              exact hσ2
            · refine h_body _ _ ?_
              exact hσ2
  · exact h

theorem query_keeps {ps : List Part} {σ : State} (d : Desc) (cls : RingClass) (c : Instr) (body : Hdr → State → State) (s : State)
    (h_body : ∀ (x0 : Hdr) (t : State), Keeps ps σ t → Keeps ps σ (body x0 t))
    (hp : ∀ p ∈ [Part.fw, Part.msix, Part.out, Part.reg .hif, Part.reg .stk, Part.rings, Part.stk], p ∈ ps) (h : Keeps ps σ s) : Keeps ps σ (query d cls c body s) := by
  unfold query
  refine command_keeps _ _ _ _ _ _ ?_ (Keeps.sub (by decide) hp) ?_
  · intro χ1 τ2 hτ3
    refine h_body _ _ ?_
    exact hτ3
  · exact h

theorem updStream_keeps {ps : List Part} {σ : State} (t : Nat) (h : Nat) (f : Stream → Stream) (s : State)
    (hp : ∀ p ∈ [Part.jobs], p ∈ ps) (hs : Keeps ps σ s) : Keeps ps σ (updStream t h f s) := by
  unfold updStream
  refine Keeps.set_jobs (hp _ (by decide)) ?_
  exact hs

theorem withStream_keeps {ps : List Part} {σ : State} (h : Hdr) (c : Instr) (objs : List Nat) (t : Nat) (handle : Nat) (k : Stream → State → State) (s : State)
    (h_k : ∀ (x0 : Stream) (t : State), Keeps ps σ t → Keeps ps σ (k x0 t))
    (hp : ∀ p ∈ [Part.fw, Part.msix, Part.out, Part.reg .stk, Part.rings, Part.stk], p ∈ ps) (hs : Keeps ps σ s) : Keeps ps σ (withStream h c objs t handle k s) := by
  unfold withStream
  split
  · refine fail_keeps _ _ _ (Keeps.sub (by decide) hp) ?_
    exact hs
  · refine Keeps.ite (fun _ => ?_) fun _ => ?_
    · refine fail_keeps _ _ _ (Keeps.sub (by decide) hp) ?_
      exact hs
    · refine Keeps.ite (fun _ => ?_) fun _ => ?_
      · refine parkWaiting_keeps _ _ _ _ _ (Keeps.sub (by decide) hp) ?_
        exact hs
      · refine Keeps.ite (fun _ => ?_) fun _ => ?_
        · refine parkWaiting_keeps _ _ _ _ _ (Keeps.sub (by decide) hp) ?_
          exact hs
        · refine h_k _ _ ?_
          exact hs

theorem noteReady_keeps {ps : List Part} {σ : State} (s : State)
    (hp : ∀ p ∈ [Part.thr], p ∈ ps) (h : Keeps ps σ s) : Keeps ps σ (noteReady s) := by
  unfold noteReady
  extract_lets σ1 σ2
  refine Keeps.set_thr (hp _ (by decide)) ?_
  exact h

theorem failWaiters_keeps {ps : List Part} {σ : State} (t : Nat) (handle : Nat) (s : State)
    (hp : ∀ p ∈ [Part.fw, Part.msix, Part.out, Part.reg .stk, Part.rings, Part.stk], p ∈ ps) (h : Keeps ps σ s) : Keeps ps σ (failWaiters t handle s) := by
  unfold failWaiters
  refine Keeps.foldl ?_ ?_
  · intro τ1 χ2 hτ3
    refine fail_keeps _ _ _ (Keeps.sub (by decide) hp) ?_
    exact hτ3
  · exact h

theorem setCmdHold_keeps {ps : List Part} {σ : State} (b : Bool) (n : Nat) (s : State)
    (hp : ∀ p ∈ [Part.reg (pageKind n)], p ∈ ps) (h : Keeps ps σ s) : Keeps ps σ (setCmdHold b n s) := by
  unfold setCmdHold
  refine updPage_keeps _ _ _ (Keeps.sub (by simp) hp) ?_
  refine notePage_keeps _ _ (Keeps.sub (by simp) hp) ?_
  exact h

theorem cmdShadow_keeps {ps : List Part} {σ : State} (k : Nat) (v : Word) (s : State)
    (hp : ∀ p ∈ [Part.reg (keyKind k)], p ∈ ps) (h : Keeps ps σ s) : Keeps ps σ (cmdShadow k v s) := by
  unfold cmdShadow
  extract_lets σ1
  refine updPage_keeps _ _ _ (Keeps.sub (by simp +zetaDelta) hp) ?_
  refine wrShadow_keeps _ _ _ (Keeps.sub (by simp) hp) ?_
  refine notePage_keeps _ _ (Keeps.sub (by simp +zetaDelta) hp) ?_
  exact h

theorem cmdShadowN_keeps {ps : List Part} {σ : State} (k : Nat) (v : Nat) (s : State)
    (hp : ∀ p ∈ [Part.reg (keyKind k)], p ∈ ps) (h : Keeps ps σ s) : Keeps ps σ (cmdShadowN k v s) := by
  unfold cmdShadowN
  refine cmdShadow_keeps _ _ _ (Keeps.sub (by simp) hp) ?_
  exact h

theorem setCmdHolds_keeps {ps : List Part} {s0 : State} (b : Bool) (pages : List Nat) (s : State)
    (hn : ∀ n ∈ pages, Part.reg (pageKind n) ∈ ps) (h : Keeps ps s0 s) :
    Keeps ps s0 (pages.foldl (fun t n => setCmdHold b n t) s) :=
  Keeps.foldl_mem (fun _ n hm ht => setCmdHold_keeps _ _ _ (fun _ hq => List.mem_singleton.mp hq ▸ hn n hm) ht) h

theorem releasePages_keeps {ps : List Part} {s0 : State} (pages : List Nat) (s : State)
    (hn : ∀ n ∈ pages, Part.reg (pageKind n) ∈ ps) (hp : ∀ p ∈ [Part.fw, Part.ipl, Part.kln, Part.memory, Part.msix, Part.out, Part.reg .cal, Part.reg .klnC, Part.reg .klnP, Part.reg .stk, Part.reg .tilC, Part.reg .tilE, Part.rings, Part.stk, Part.til], p ∈ ps) (h : Keeps ps s0 s) :
    Keeps ps s0 (releasePages pages s) := by
  unfold releasePages
  have hsub : ∀ {L : List Part} {n : Nat}, n ∈ pages → (∀ p ∈ L, p ∈ [Part.fw, Part.ipl, Part.kln, Part.memory, Part.msix, Part.out, Part.reg .cal, Part.reg .klnC, Part.reg .klnP, Part.reg .stk, Part.reg .tilC, Part.reg .tilE, Part.rings, Part.stk, Part.til]) →
      ∀ p ∈ Part.reg (pageKind n) :: L, p ∈ ps := by
    intro L n hm hL p hq
    rcases List.mem_cons.mp hq with rfl | hq
    · exact hn n hm
    · exact hp p (hL p hq)
  refine Keeps.foldl_mem (fun t n hm ht => ?_) (Keeps.foldl_mem (fun t n hm ht => ?_) (setCmdHolds_keeps _ _ _ hn h))
  · refine Keeps.ite (fun _ => Keeps.ite (fun _ => ht) fun _ => ?_) fun _ => ?_
    · exact armBar_keeps _ (Keeps.sub (by decide) hp) ht
    · exact idleLatch_keeps _ _ (hsub hm (by decide)) ht
  · exact deferPage_keeps _ _ (hsub hm (by decide)) ht

theorem cmdLatch_keeps {ps : List Part} {s0 : State} (hd : Hdr) (c : Instr) (objs pages marks : List Nat)
    (write : State → State) (s : State) (hn : ∀ n ∈ pages, Part.reg (pageKind n) ∈ ps)
    (hw : ∀ t, Keeps ps s0 t → Keeps ps s0 (write t)) (hp : ∀ p ∈ [Part.fw, Part.ipl, Part.kln, Part.memory, Part.msix, Part.out, Part.reg .cal, Part.reg .klnC, Part.reg .klnP, Part.reg .stk, Part.reg .tilC, Part.reg .tilE, Part.rings, Part.stk, Part.til], p ∈ ps) (h : Keeps ps s0 s) :
    Keeps ps s0 (cmdLatch hd c objs pages marks write s) := by
  unfold cmdLatch
  exact releasePages_keeps _ _ hn hp (hw _ (setCmdHolds_keeps _ _ _ hn (park_keeps _ _ (Keeps.sub (by decide) hp) h)))

theorem startExit_keeps {ps : List Part} {σ : State} (cause : Nat) (s : State)
    (hp : ∀ p ∈ [Part.pwr], p ∈ ps) (h : Keeps ps σ s) : Keeps ps σ (startExit cause s) := by
  unfold startExit
  split
  · exact h
  · refine Keeps.set_pwr (hp _ (by decide)) ?_
    exact h

theorem wake_keeps {ps : List Part} {σ : State} (h : Hdr) (c : Instr) (objs : List Nat) (k : State → State) (s : State)
    (h_k : ∀ (t : State), Keeps ps σ t → Keeps ps σ (k t))
    (hp : ∀ p ∈ [Part.fw, Part.pwr], p ∈ ps) (hs : Keeps ps σ s) : Keeps ps σ (wake h c objs k s) := by
  unfold wake
  refine Keeps.ite (fun _ => ?_) fun _ => ?_
  · refine h_k _ ?_
    exact hs
  · refine parkWaiting_keeps _ _ _ _ _ (Keeps.sub (by decide) hp) ?_
    refine startExit_keeps _ _ (Keeps.sub (by decide) hp) ?_
    exact hs

end Sys2Proof.Machine
end

