-- ==== Sys2Proof/Laws/KeepsGleaner.lean ====
section
/-! SUPPORT. What the operations of Machine/Gleaner.lean change, and what they keep. -/

namespace Sys2Proof.Machine
open Sys2Proof

theorem putRef_keeps {ps : List Part} {σ : State} (k : Nat) (r : WhiteRef) (s : State)
    (hp : ∀ p ∈ [Part.cal], p ∈ ps) (h : Keeps ps σ s) : Keeps ps σ (putRef k r s) := by
  unfold putRef
  refine Keeps.set_cal (hp _ (by decide)) ?_
  exact h

theorem refreshWindows_keeps {ps : List Part} {σ : State} (s : State)
    (hp : ∀ p ∈ [Part.gln], p ∈ ps) (h : Keeps ps σ s) : Keeps ps σ (refreshWindows s) := by
  unfold refreshWindows
  refine Keeps.set_gln (hp _ (by decide)) ?_
  exact h

theorem driftOf_keeps {ps : List Part} {σ : State} (m : Nat) (a : Nat) (s : State)
    (hp : ∀ p ∈ [Part.free], p ∈ ps) (h : Keeps ps σ s) : Keeps ps σ (driftOf m a s).2 := by
  unfold driftOf
  refine Keeps.ite_snd (fun _ => ?_) fun _ => ?_
  · refine Keeps.ite_snd (fun _ => ?_) fun _ => ?_
    · exact h
    · extract_lets σ1
      have hσ12 : Keeps ps σ σ1.2 := by
        unfold σ1
        refine draw_keeps _ _ (Keeps.sub (by decide) hp) ?_
        exact h
      refine Keeps.snd ?_
      exact hσ12
  · exact h

theorem drifts_keeps {ps : List Part} {σ : State} (r : WhiteRef) (s : State)
    (hp : ∀ p ∈ [Part.free], p ∈ ps) (h : Keeps ps σ s) : Keeps ps σ (drifts r s).2 := by
  unfold drifts
  refine Keeps.foldl_snd ?_ ?_
  · intro ζ1 χ2 hτ3
    extract_lets σ4
    have hσ42 : Keeps ps σ σ4.2 := by
      unfold σ4
      refine driftOf_keeps _ _ _ (Keeps.sub (by decide) hp) ?_
      exact hτ3
    refine Keeps.snd ?_
    exact hσ42
  · exact h

theorem refAlarm_keeps {ps : List Part} {σ : State} (k : Nat) (idx : Nat) (r : WhiteRef) (s : State)
    (hp : ∀ p ∈ [Part.msix, Part.out, Part.reg .cal, Part.reg .stk, Part.rings, Part.stk], p ∈ ps) (h : Keeps ps σ s) : Keeps ps σ (refAlarm k idx r s) := by
  unfold refAlarm
  extract_lets σ1
  refine raiseIrq_keeps _ _ _ (Keeps.sub (by decide) hp) ?_
  refine raiseAlarm_keeps _ _ _ _ (Keeps.sub (by decide) hp) ?_
  exact h

theorem whiteLine_keeps {ps : List Part} {σ : State} (k : Nat) (gs : List (Nat × Nat)) (s : State)
    (hp : ∀ p ∈ [Part.cal, Part.free, Part.gln, Part.msix, Part.out, Part.reg .cal, Part.reg .stk, Part.rings, Part.stk], p ∈ ps) (h : Keeps ps σ s) : Keeps ps σ (whiteLine k gs s) := by
  unfold whiteLine
  refine Keeps.ite (fun _ => ?_) fun _ => ?_
  · exact h
  · extract_lets σ1 σ2 σ3 σ4 σ5 σ6 σ7 σ8 σ9
    have hσ42 : Keeps ps σ σ4.2 := by
      unfold σ4
      refine drifts_keeps _ _ (Keeps.sub (by decide) hp) ?_
      exact h
    have hσ8 : Keeps ps σ σ8 := by
      unfold σ8
      refine putRef_keeps _ _ _ (Keeps.sub (by decide) hp) ?_
      exact hσ42
    have hσ9 : Keeps ps σ σ9 := by
      unfold σ9
      refine Keeps.ite (fun _ => ?_) fun _ => ?_
      · exact hσ8
      · refine Keeps.ite (fun _ => ?_) fun _ => ?_
        · refine refAlarm_keeps _ _ _ _ (Keeps.sub (by decide) hp) ?_
          exact hσ8
        · refine Keeps.ite (fun _ => ?_) fun _ => ?_
          · refine refAlarm_keeps _ _ _ _ (Keeps.sub (by decide) hp) ?_
            exact hσ8
          · exact hσ8
    refine Keeps.ite (fun _ => ?_) fun _ => ?_
    · refine Keeps.ite (fun _ => ?_) fun _ => ?_
      · refine refreshWindows_keeps _ (Keeps.sub (by decide) hp) ?_
        refine putRef_keeps _ _ _ (Keeps.sub (by decide) hp) ?_
        exact h
      · refine putRef_keeps _ _ _ (Keeps.sub (by decide) hp) ?_
        exact h
    · refine refreshWindows_keeps _ (Keeps.sub (by decide) hp) ?_
      exact hσ9

theorem reanchor_keeps {ps : List Part} {σ : State} (k : Nat) (s : State)
    (hp : ∀ p ∈ [Part.cal, Part.gln], p ∈ ps) (h : Keeps ps σ s) : Keeps ps σ (reanchor k s) := by
  unfold reanchor
  extract_lets σ1
  refine refreshWindows_keeps _ (Keeps.sub (by decide) hp) ?_
  refine putRef_keeps _ _ _ (Keeps.sub (by decide) hp) ?_
  exact h

theorem refSelect_keeps {ps : List Part} {σ : State} (h : Hdr) (port : Nat) (action : Nat) (s : State)
    (hp : ∀ p ∈ [Part.cal, Part.fw, Part.gln, Part.msix, Part.out, Part.reg .stk, Part.rings, Part.stk], p ∈ ps) (hs : Keeps ps σ s) : Keeps ps σ (refSelect h port action s) := by
  unfold refSelect
  refine Keeps.ite (fun _ => ?_) fun _ => ?_
  · refine fail_keeps _ _ _ (Keeps.sub (by decide) hp) ?_
    exact hs
  · refine Keeps.ite (fun _ => ?_) fun _ => ?_
    · refine fail_keeps _ _ _ (Keeps.sub (by decide) hp) ?_
      exact hs
    · refine ok_keeps _ _ _ (Keeps.sub (by decide) hp) ?_
      refine Keeps.ite (fun _ => ?_) fun _ => ?_
      · refine reanchor_keeps _ _ (Keeps.sub (by decide) hp) ?_
        exact hs
      · exact hs

theorem execRefSelect_keeps (d : Desc) (port : BitVec 8) (action : BitVec 8) (s : State) :
    ∃ τ, execRefSelect d port action s = .next τ ∧ Keeps [Part.cal, Part.fw, Part.gln, Part.msix, Part.out, Part.reg .hif, Part.reg .stk, Part.rings, Part.stk] s τ := by
  refine Keeps.exec fun ps σ hp h => ?_
  unfold execRefSelect
  refine ⟨_, rfl, ?_⟩
  refine command_keeps _ _ _ _ _ _ ?_ (Keeps.sub (by decide) hp) ?_
  · intro χ1 τ2 hτ3
    refine refSelect_keeps _ _ _ _ (Keeps.sub (by decide) hp) ?_
    exact hτ3
  · exact h

theorem calControl_keeps {ps : List Part} {σ : State} (h : Hdr) (mask : Nat) (action : Nat) (s : State)
    (hp : ∀ p ∈ [Part.cal, Part.fw, Part.gln, Part.msix, Part.out, Part.reg .stk, Part.rings, Part.stk], p ∈ ps) (hs : Keeps ps σ s) : Keeps ps σ (calControl h mask action s) := by
  unfold calControl
  extract_lets σ1 σ2
  refine Keeps.ite (fun _ => ?_) fun _ => ?_
  · refine fail_keeps _ _ _ (Keeps.sub (by decide) hp) ?_
    exact hs
  · refine Keeps.ite (fun _ => ?_) fun _ => ?_
    · refine fail_keeps _ _ _ (Keeps.sub (by decide) hp) ?_
      exact hs
    · split
      · refine ok_keeps _ _ _ (Keeps.sub (by decide) hp) ?_
        refine refreshWindows_keeps _ (Keeps.sub (by decide) hp) ?_
        refine Keeps.set_cal (hp _ (by decide)) ?_
        exact hs
      · refine ok_keeps _ _ _ (Keeps.sub (by decide) hp) ?_
        refine Keeps.set_cal (hp _ (by decide)) ?_
        exact hs
      · refine ok_keeps _ _ _ (Keeps.sub (by decide) hp) ?_
        refine Keeps.foldl ?_ ?_
        · intro τ3 χ4 hτ5
          refine discardWindow_keeps _ _ (Keeps.sub (by decide) hp) ?_
          exact hτ5
        · exact hs

theorem execCalControl_keeps (d : Desc) (mask : BitVec 16) (action : BitVec 8) (s : State) :
    ∃ τ, execCalControl d mask action s = .next τ ∧ Keeps [Part.cal, Part.fw, Part.gln, Part.msix, Part.out, Part.reg .hif, Part.reg .stk, Part.rings, Part.stk] s τ := by
  refine Keeps.exec fun ps σ hp h => ?_
  unfold execCalControl
  refine ⟨_, rfl, ?_⟩
  refine command_keeps _ _ _ _ _ _ ?_ (Keeps.sub (by decide) hp) ?_
  · intro χ1 τ2 hτ3
    refine calControl_keeps _ _ _ _ (Keeps.sub (by decide) hp) ?_
    exact hτ3
  · exact h

theorem calStatus_keeps {ps : List Part} {σ : State} (h : Hdr) (p : Nat) (s : State)
    (hp : ∀ q ∈ [Part.fw, Part.msix, Part.out, Part.reg .stk, Part.rings, Part.stk], q ∈ ps) (hs : Keeps ps σ s) : Keeps ps σ (calStatus h p s) := by
  unfold calStatus
  refine Keeps.ite (fun _ => ?_) fun _ => ?_
  · refine fail_keeps _ _ _ (Keeps.sub (by decide) hp) ?_
    exact hs
  · refine ok_keeps _ _ _ (Keeps.sub (by decide) hp) ?_
    exact hs

theorem execCalStatus_keeps (d : Desc) (plane : BitVec 8) (s : State) :
    ∃ τ, execCalStatus d plane s = .next τ ∧ Keeps [Part.fw, Part.msix, Part.out, Part.reg .hif, Part.reg .stk, Part.rings, Part.stk] s τ := by
  refine Keeps.exec fun ps σ hp h => ?_
  unfold execCalStatus
  refine ⟨_, rfl, ?_⟩
  refine query_keeps _ _ _ _ _ ?_ (Keeps.sub (by decide) hp) ?_
  · intro χ1 τ2 hτ3
    refine calStatus_keeps _ _ _ (Keeps.sub (by decide) hp) ?_
    exact hτ3
  · exact h

theorem putGlean_keeps {ps : List Part} {σ : State} (p : Nat) (w : GleanWin) (s : State)
    (hp : ∀ q ∈ [Part.gln], q ∈ ps) (h : Keeps ps σ s) : Keeps ps σ (putGlean p w s) := by
  unfold putGlean
  refine Keeps.set_gln (hp _ (by decide)) ?_
  exact h

theorem writeDump_keeps {ps : List Part} {σ : State} (p : Nat) (w : GleanWin) (s : State)
    (hp : ∀ q ∈ [Part.gln], q ∈ ps) (h : Keeps ps σ s) : Keeps ps σ (writeDump p w s) := by
  unfold writeDump
  extract_lets σ1 σ2
  refine Keeps.set_gln (hp _ (by decide)) ?_
  exact h

theorem closeWindow_keeps {ps : List Part} {σ : State} (p : Nat) (s : State)
    (hp : ∀ q ∈ [Part.gln, Part.msix, Part.out, Part.reg .gln, Part.reg .stk, Part.rings, Part.stk], q ∈ ps) (h : Keeps ps σ s) : Keeps ps σ (closeWindow p s) := by
  unfold closeWindow
  refine Keeps.ite (fun _ => ?_) fun _ => ?_
  · extract_lets σ1 σ2 σ3 σ4
    have hσ2 : Keeps ps σ σ2 := by
      unfold σ2
      refine wn_keeps _ _ _ (Keeps.sub (by simp) hp) ?_
      refine inc_keeps _ _ _ (Keeps.sub (by simp) hp) ?_
      refine discardWindow_keeps _ _ (Keeps.sub (by decide) hp) ?_
      exact h
    have hσ3 : Keeps ps σ σ3 := by
      unfold σ3
      refine raiseIrq_keeps _ _ _ (Keeps.sub (by decide) hp) ?_
      refine event_keeps _ _ _ _ (Keeps.sub (by decide) hp) ?_
      exact hσ2
    refine Keeps.ite (fun _ => ?_) fun _ => ?_
    · refine Keeps.set_gln (hp _ (by decide)) ?_
      exact hσ3
    · refine writeDump_keeps _ _ _ (Keeps.sub (by decide) hp) ?_
      exact hσ3
  · exact h

theorem closeWindows_keeps {ps : List Part} {σ : State} (s : State)
    (hp : ∀ p ∈ [Part.gln, Part.msix, Part.out, Part.reg .gln, Part.reg .stk, Part.rings, Part.stk], p ∈ ps) (h : Keeps ps σ s) : Keeps ps σ (closeWindows s) := by
  unfold closeWindows
  refine Keeps.foldl ?_ ?_
  · intro τ1 χ2 hτ3
    refine closeWindow_keeps _ _ (Keeps.sub (by decide) hp) ?_
    exact hτ3
  · exact h

theorem releaseDump_keeps {ps : List Part} {σ : State} (p : Nat) (s : State)
    (hp : ∀ q ∈ [Part.gln], q ∈ ps) (h : Keeps ps σ s) : Keeps ps σ (releaseDump p s) := by
  unfold releaseDump
  extract_lets σ1 σ2 σ3
  have hσ2 : Keeps ps σ σ2 := by
    unfold σ2
    refine Keeps.set_gln (hp _ (by decide)) ?_
    exact h
  split
  · refine writeDump_keeps _ _ _ (Keeps.sub (by decide) hp) ?_
    refine Keeps.set_gln (hp _ (by decide)) ?_
    exact hσ2
  · exact hσ2

theorem gleanDiscard_keeps {ps : List Part} {σ : State} (addr : Nat) (s : State)
    (hp : ∀ p ∈ [Part.gln], p ∈ ps) (h : Keeps ps σ s) : Keeps ps σ (gleanDiscard addr s) := by
  unfold gleanDiscard
  refine Keeps.ite (fun _ => ?_) fun _ => ?_
  · refine Keeps.set_gln (hp _ (by decide)) ?_
    exact h
  · refine Keeps.ite (fun _ => ?_) fun _ => ?_
    · refine discardWindow_keeps _ _ (Keeps.sub (by decide) hp) ?_
      exact h
    · exact h

theorem gleanWrite_keeps {ps : List Part} {σ : State} (addr : Nat) (v : Word) (s : State)
    (hp : ∀ p ∈ [Part.reg (keyKind addr), Part.reg (pageKind (addr / 4096)), Part.gln, Part.msix, Part.out], p ∈ ps) (h : Keeps ps σ s) : Keeps ps σ (gleanWrite addr v s) := by
  unfold gleanWrite
  refine Keeps.ite (fun _ => ?_) fun _ => ?_
  · refine recordErr_keeps _ _ _ (Keeps.sub (by simp) hp) ?_
    exact h
  · refine gleanDiscard_keeps _ _ (Keeps.sub (by simp) hp) ?_
    refine plainPut_keeps _ _ _ (Keeps.sub (by simp) hp) ?_
    exact h

theorem execGleanWindowDiscardWrite_keeps (ini : Initiator) (reg : Fin 8) (val : Word) (s : State) :
    ∃ τ, execGleanWindowDiscardWrite ini reg val s = .next τ ∧ Keeps [Part.reg (keyKind (gleanReg ↑reg)), Part.reg (pageKind (gleanReg ↑reg / 4096)), Part.gln, Part.msix, Part.out, Part.reg .hif] s τ := by
  refine Keeps.exec fun ps σ hp h => ?_
  unfold execGleanWindowDiscardWrite
  refine ⟨_, rfl, ?_⟩
  refine guardWrite_keeps _ _ _ _ _ _ ?_ (Keeps.sub (by simp) hp) ?_
  · intro χ1 τ2 hτ3
    refine gleanWrite_keeps _ _ _ (Keeps.sub (by simp) hp) ?_
    exact hτ3
  · exact h

theorem dumpSolve_keeps {ps : List Part} {σ : State} (p : Nat) (s : State)
    (hp : ∀ q ∈ [Part.cal, Part.gln], q ∈ ps) (h : Keeps ps σ s) : Keeps ps σ (dumpSolve p s) := by
  unfold dumpSolve
  split
  · refine releaseDump_keeps _ _ (Keeps.sub (by decide) hp) ?_
    refine Keeps.set_cal (hp _ (by decide)) ?_
    exact h
  · exact h

theorem execGleanDumpSolve_keeps (plane : Fin 16) (s : State) :
    ∃ τ, execGleanDumpSolve plane s = .next τ ∧ Keeps [Part.cal, Part.gln] s τ := by
  refine Keeps.exec fun ps σ hp h => ?_
  unfold execGleanDumpSolve
  refine ⟨_, rfl, ?_⟩
  refine dumpSolve_keeps _ _ (Keeps.sub (by decide) hp) ?_
  exact h

theorem calAccept_keeps {ps : List Part} {σ : State} (p : Nat) (x : Proposal) (s : State)
    (hp : ∀ q ∈ [Part.cal, Part.crk, Part.entries, Part.fw, Part.gln, Part.glz, Part.jobs, Part.kln, Part.msix, Part.out, Part.ports, Part.reg .cal, Part.reg .stk, Part.rings, Part.stk, Part.thr, Part.til], q ∈ ps) (h : Keeps ps σ s) : Keeps ps σ (calAccept p x s) := by
  unfold calAccept
  extract_lets σ1 σ2 σ3 σ4
  have hσ2 : Keeps ps σ σ2 := by
    unfold σ2
    refine Keeps.set_cal (hp _ (by decide)) ?_
    exact h
  have hσ3 : Keeps ps σ σ3 := by
    unfold σ3
    refine Keeps.foldl ?_ ?_
    · intro τ5 χ6 hτ7
      refine reanchor_keeps _ _ (Keeps.sub (by decide) hp) ?_
      exact hτ7
    · exact hσ2
  have hσ4 : Keeps ps σ σ4 := by
    unfold σ4
    refine inc_keeps _ _ _ (Keeps.sub (by simp) hp) ?_
    exact hσ3
  refine idleTables_keeps _ _ (Keeps.sub (by decide) hp) ?_
  refine raiseIrq_keeps _ _ _ (Keeps.sub (by decide) hp) ?_
  refine event_keeps _ _ _ _ (Keeps.sub (by decide) hp) ?_
  exact hσ4

theorem calRefuse_keeps {ps : List Part} {σ : State} (p : Nat) (r : Nat) (x : Proposal) (s : State)
    (hp : ∀ q ∈ [Part.msix, Part.out, Part.reg .cal, Part.reg .stk, Part.rings, Part.stk], q ∈ ps) (h : Keeps ps σ s) : Keeps ps σ (calRefuse p r x s) := by
  unfold calRefuse
  refine raiseIrq_keeps _ _ _ (Keeps.sub (by decide) hp) ?_
  refine event_keeps _ _ _ _ (Keeps.sub (by decide) hp) ?_
  refine wf_keeps _ _ _ _ _ (Keeps.sub (by simp) hp) ?_
  refine inc_keeps _ _ _ (Keeps.sub (by simp) hp) ?_
  exact h

theorem proposalCheck_keeps {ps : List Part} {σ : State} (p : Nat) (s : State)
    (hp : ∀ q ∈ [Part.cal, Part.crk, Part.entries, Part.fw, Part.gln, Part.glz, Part.jobs, Part.kln, Part.msix, Part.out, Part.ports, Part.reg .cal, Part.reg .stk, Part.rings, Part.stk, Part.thr, Part.til], q ∈ ps) (h : Keeps ps σ s) : Keeps ps σ (proposalCheck p s) := by
  unfold proposalCheck
  split
  · exact h
  · extract_lets σ1 σ2
    have hσ2 : Keeps ps σ σ2 := by
      unfold σ2
      refine Keeps.set_cal (hp _ (by decide)) ?_
      exact h
    split
    · refine calRefuse_keeps _ _ _ _ (Keeps.sub (by decide) hp) ?_
      exact hσ2
    · refine calAccept_keeps _ _ _ (Keeps.sub (by decide) hp) ?_
      exact hσ2

theorem execCalProposalCheck_keeps (plane : Fin 16) (s : State) :
    ∃ τ, execCalProposalCheck plane s = .next τ ∧ Keeps [Part.cal, Part.crk, Part.entries, Part.fw, Part.gln, Part.glz, Part.jobs, Part.kln, Part.msix, Part.out, Part.ports, Part.reg .cal, Part.reg .stk, Part.rings, Part.stk, Part.thr, Part.til] s τ := by
  refine Keeps.exec fun ps σ hp h => ?_
  unfold execCalProposalCheck
  refine ⟨_, rfl, ?_⟩
  refine proposalCheck_keeps _ _ (Keeps.sub (by decide) hp) ?_
  exact h

end Sys2Proof.Machine
end

