-- ==== Sys2Proof/Laws/KeepsTally.lean ====
section
/-! SUPPORT. What the operations of Machine/Tally.lean change, and what they keep. -/

namespace Sys2Proof.Machine
open Sys2Proof

theorem sendExchange_keeps {ps : List Part} {σ : State} (i : Nat) (s : State)
    (hp : ∀ p ∈ [Part.out], p ∈ ps) (h : Keeps ps σ s) : Keeps ps σ (sendExchange i s) := by
  unfold sendExchange
  split
  · refine Keeps.ite (fun _ => ?_) fun _ => ?_
    · refine emit_keeps _ _ (Keeps.sub (by decide) hp) ?_
      exact h
    · exact h
  · exact h

theorem pushExchange_keeps {ps : List Part} {σ : State} (i : Nat) (e : IdExchange) (s : State)
    (hp : ∀ p ∈ [Part.out, Part.tly], p ∈ ps) (h : Keeps ps σ s) : Keeps ps σ (pushExchange i e s) := by
  unfold pushExchange
  extract_lets σ1
  have hσ1 : Keeps ps σ σ1 := by
    unfold σ1
    refine updTly_keeps _ _ _ (Keeps.sub (by decide) hp) ?_
    exact h
  refine Keeps.ite (fun _ => ?_) fun _ => ?_
  · refine sendExchange_keeps _ _ (Keeps.sub (by decide) hp) ?_
    exact hσ1
  · exact hσ1

theorem pollSlot_keeps {ps : List Part} {σ : State} (scan : Bool) (i : Nat) (s : State)
    (hp : ∀ p ∈ [Part.out, Part.tly], p ∈ ps) (h : Keeps ps σ s) : Keeps ps σ (pollSlot scan i s) := by
  unfold pollSlot
  refine pushExchange_keeps _ _ _ (Keeps.sub (by decide) hp) ?_
  exact h

theorem scanArrive_keeps {ps : List Part} {σ : State} (i : Nat) (s : State)
    (hp : ∀ p ∈ [Part.fw, Part.msix, Part.out, Part.reg .stk, Part.rings, Part.stk], p ∈ ps) (h : Keeps ps σ s) : Keeps ps σ (scanArrive i s) := by
  unfold scanArrive
  refine Keeps.ite (fun _ => ?_) fun _ => ?_
  · exact h
  · refine Keeps.foldl ?_ ?_
    · intro τ1 χ2 hτ3
      extract_lets σ4 σ5
      refine Keeps.ite (fun _ => ?_) fun _ => ?_
      · refine complete_keeps _ _ _ _ (Keeps.sub (by decide) hp) ?_
        exact hτ3
      · refine park_keeps _ _ (Keeps.sub (by decide) hp) ?_
        exact hτ3
    · exact h

theorem endExchange_keeps {ps : List Part} {σ : State} (i : Nat) (s : State)
    (hp : ∀ p ∈ [Part.fw, Part.msix, Part.out, Part.reg .stk, Part.rings, Part.stk, Part.tly], p ∈ ps) (h : Keeps ps σ s) : Keeps ps σ (endExchange i s) := by
  unfold endExchange
  refine scanArrive_keeps _ _ (Keeps.sub (by decide) hp) ?_
  refine sendExchange_keeps _ _ (Keeps.sub (by decide) hp) ?_
  refine updTly_keeps _ _ _ (Keeps.sub (by decide) hp) ?_
  exact h

theorem failExchange_keeps {ps : List Part} {σ : State} (i : Nat) (e : IdExchange) (status : Nat) (s : State)
    (hp : ∀ p ∈ [Part.fw, Part.msix, Part.out, Part.reg .stk, Part.reg .tly, Part.rings, Part.stk, Part.tly], p ∈ ps) (h : Keeps ps σ s) : Keeps ps σ (failExchange i e status s) := by
  unfold failExchange
  split
  · refine endExchange_keeps _ _ (Keeps.sub (by decide) hp) ?_
    exact h
  · refine endExchange_keeps _ _ (Keeps.sub (by decide) hp) ?_
    refine raiseIrq_keeps _ _ _ (Keeps.sub (by decide) hp) ?_
    refine event_keeps _ _ _ _ (Keeps.sub (by decide) hp) ?_
    refine inc_keeps _ _ _ (Keeps.sub (by decide) hp) ?_
    exact h
  · extract_lets σ1 σ2
    have hσ1 : Keeps ps σ σ1 := by
      unfold σ1
      refine updTly_keeps _ _ _ (Keeps.sub (by decide) hp) ?_
      exact h
    refine endExchange_keeps _ _ (Keeps.sub (by decide) hp) ?_
    refine Keeps.ite (fun _ => ?_) fun _ => ?_
    · refine setTly_keeps _ _ _ (Keeps.sub (by decide) hp) ?_
      exact hσ1
    · exact hσ1

theorem repeatExchange_keeps {ps : List Part} {σ : State} (i : Nat) (e : IdExchange) (status : Nat) (s : State)
    (hp : ∀ p ∈ [Part.fw, Part.msix, Part.out, Part.reg .stk, Part.reg .tly, Part.rings, Part.stk, Part.tly], p ∈ ps) (h : Keeps ps σ s) : Keeps ps σ (repeatExchange i e status s) := by
  unfold repeatExchange
  refine Keeps.ite (fun _ => ?_) fun _ => ?_
  · refine failExchange_keeps _ _ _ _ (Keeps.sub (by decide) hp) ?_
    exact h
  · refine sendExchange_keeps _ _ (Keeps.sub (by decide) hp) ?_
    refine updTly_keeps _ _ _ (Keeps.sub (by decide) hp) ?_
    exact h

theorem rememberUsage_keeps {ps : List Part} {σ : State} (i : Nat) (s : State)
    (hp : ∀ p ∈ [Part.tly], p ∈ ps) (h : Keeps ps σ s) : Keeps ps σ (rememberUsage i s) := by
  unfold rememberUsage
  extract_lets σ1 σ2
  refine Keeps.set_tly (hp _ (by decide)) ?_
  exact h

theorem refuseDevice_keeps {ps : List Part} {σ : State} (i : Nat) (s : State)
    (hp : ∀ p ∈ [Part.msix, Part.out, Part.reg .stk, Part.reg .tly, Part.rings, Part.stk, Part.tly], p ∈ ps) (h : Keeps ps σ s) : Keeps ps σ (refuseDevice i s) := by
  unfold refuseDevice
  refine setTly_keeps _ _ _ (Keeps.sub (by decide) hp) ?_
  refine inc_keeps _ _ _ (Keeps.sub (by decide) hp) ?_
  exact h

theorem identified_keeps {ps : List Part} {σ : State} (i : Nat) (e : IdExchange) (p : List Byte) (s : State)
    (hp : ∀ q ∈ [Part.free, Part.fw, Part.msix, Part.out, Part.reg .stk, Part.reg .tly, Part.rings, Part.stk, Part.tly], q ∈ ps) (h : Keeps ps σ s) : Keeps ps σ (identified i e p s) := by
  unfold identified
  extract_lets σ1 σ2 σ3 σ4 σ5 σ6 σ7 σ8 σ9 σ10 σ11 σ12 σ13
  have hσ8 : Keeps ps σ σ8 := by
    unfold σ8
    refine updTly_keeps _ _ _ (Keeps.sub (by decide) hp) ?_
    exact h
  have hσ10 : Keeps ps σ σ10 := by
    unfold σ10
    refine Keeps.ite (fun _ => ?_) fun _ => ?_
    · exact hσ8
    · refine updTly_keeps _ _ _ (Keeps.sub (by decide) hp) ?_
      refine Keeps.ite (fun _ => ?_) fun _ => ?_
      · refine rememberUsage_keeps _ _ (Keeps.sub (by decide) hp) ?_
        exact hσ8
      · exact hσ8
  have hσ112 : Keeps ps σ σ11.2 := by
    unfold σ11
    refine draw_keeps _ _ (Keeps.sub (by decide) hp) ?_
    exact hσ10
  have hσ122 : Keeps ps σ σ12.2 := by
    unfold σ12
    refine draw_keeps _ _ (Keeps.sub (by decide) hp) ?_
    exact hσ112
  have hσ13 : Keeps ps σ σ13 := by
    unfold σ13
    refine setTly_keeps _ _ _ (Keeps.sub (by decide) hp) ?_
    refine updTly_keeps _ _ _ (Keeps.sub (by decide) hp) ?_
    exact hσ122
  refine Keeps.ite (fun _ => ?_) fun _ => ?_
  · refine failExchange_keeps _ _ _ _ (Keeps.sub (by decide) hp) ?_
    exact h
  · refine Keeps.ite (fun _ => ?_) fun _ => ?_
    · refine endExchange_keeps _ _ (Keeps.sub (by decide) hp) ?_
      exact hσ8
    · refine Keeps.ite (fun _ => ?_) fun _ => ?_
      · refine endExchange_keeps _ _ (Keeps.sub (by decide) hp) ?_
        refine updTly_keeps _ _ _ (Keeps.sub (by decide) hp) ?_
        exact hσ13
      · refine endExchange_keeps _ _ (Keeps.sub (by decide) hp) ?_
        refine refuseDevice_keeps _ _ (Keeps.sub (by decide) hp) ?_
        exact hσ13

theorem authenticated_keeps {ps : List Part} {σ : State} (i : Nat) (e : IdExchange) (p : List Byte) (s : State)
    (hp : ∀ q ∈ [Part.fw, Part.msix, Part.out, Part.reg .stk, Part.reg .tly, Part.rings, Part.stk, Part.tly], q ∈ ps) (h : Keeps ps σ s) : Keeps ps σ (authenticated i e p s) := by
  unfold authenticated
  refine Keeps.ite (fun _ => ?_) fun _ => ?_
  · refine failExchange_keeps _ _ _ _ (Keeps.sub (by decide) hp) ?_
    exact h
  · extract_lets σ1 σ2 σ3 σ4 σ5
    have hσ5 : Keeps ps σ σ5 := by
      unfold σ5
      refine updTly_keeps _ _ _ (Keeps.sub (by decide) hp) ?_
      exact h
    refine Keeps.ite (fun _ => ?_) fun _ => ?_
    · refine endExchange_keeps _ _ (Keeps.sub (by decide) hp) ?_
      refine setTly_keeps _ _ _ (Keeps.sub (by decide) hp) ?_
      exact hσ5
    · refine endExchange_keeps _ _ (Keeps.sub (by decide) hp) ?_
      refine refuseDevice_keeps _ _ (Keeps.sub (by decide) hp) ?_
      exact h

theorem written_keeps {ps : List Part} {σ : State} (i : Nat) (e : IdExchange) (p : List Byte) (s : State)
    (hp : ∀ q ∈ [Part.fw, Part.msix, Part.out, Part.reg .stk, Part.reg .tly, Part.rings, Part.stk, Part.tly], q ∈ ps) (h : Keeps ps σ s) : Keeps ps σ (written i e p s) := by
  unfold written
  extract_lets σ1 σ2
  refine Keeps.ite (fun _ => ?_) fun _ => ?_
  · refine endExchange_keeps _ _ (Keeps.sub (by decide) hp) ?_
    refine updTly_keeps _ _ _ (Keeps.sub (by decide) hp) ?_
    exact h
  · refine failExchange_keeps _ _ _ _ (Keeps.sub (by decide) hp) ?_
    exact h

theorem exchangeResponse_keeps {ps : List Part} {σ : State} (i : Nat) (bytes : List Byte) (s : State)
    (hp : ∀ p ∈ [Part.free, Part.fw, Part.msix, Part.out, Part.reg .stk, Part.reg .tly, Part.rings, Part.stk, Part.tly], p ∈ ps) (h : Keeps ps σ s) : Keeps ps σ (exchangeResponse i bytes s) := by
  unfold exchangeResponse
  split
  · exact h
  · extract_lets σ1 σ2 σ3 σ4
    have hσ32 : Keeps ps σ σ3.2 := by
      unfold σ3
      refine draw_keeps _ _ (Keeps.sub (by decide) hp) ?_
      exact h
    refine Keeps.ite (fun _ => ?_) fun _ => ?_
    · refine failExchange_keeps _ _ _ _ (Keeps.sub (by decide) hp) ?_
      exact hσ32
    · refine Keeps.ite (fun _ => ?_) fun _ => ?_
      · refine repeatExchange_keeps _ _ _ _ (Keeps.sub (by decide) hp) ?_
        exact h
      · clear_value σ2
        split
        · split
          · refine authenticated_keeps _ _ _ _ (Keeps.sub (by decide) hp) ?_
            exact h
          · refine written_keeps _ _ _ _ (Keeps.sub (by decide) hp) ?_
            exact h
          · refine identified_keeps _ _ _ _ (Keeps.sub (by decide) hp) ?_
            exact h
        · refine Keeps.ite (fun _ => ?_) fun _ => ?_
          · refine repeatExchange_keeps _ _ _ _ (Keeps.sub (by decide) hp) ?_
            exact h
          · refine updTly_keeps _ _ _ (Keeps.sub (by decide) hp) ?_
            exact h
        · refine repeatExchange_keeps _ _ _ _ (Keeps.sub (by decide) hp) ?_
          exact h
        · refine failExchange_keeps _ _ _ _ (Keeps.sub (by decide) hp) ?_
          exact h

theorem execTallyExchangeResponse_keeps (slot : Fin 16) (bytes : List Byte) (s : State) :
    ∃ τ, execTallyExchangeResponse slot bytes s = .next τ ∧ Keeps [Part.free, Part.fw, Part.msix, Part.out, Part.reg .stk, Part.reg .tly, Part.rings, Part.stk, Part.tly] s τ := by
  refine Keeps.exec fun ps σ hp h => ?_
  unfold execTallyExchangeResponse
  refine ⟨_, rfl, ?_⟩
  refine exchangeResponse_keeps _ _ _ (Keeps.sub (by decide) hp) ?_
  exact h

theorem busyRetry_keeps {ps : List Part} {σ : State} (i : Nat) (s : State)
    (hp : ∀ p ∈ [Part.out], p ∈ ps) (h : Keeps ps σ s) : Keeps ps σ (busyRetry i s) := by
  unfold busyRetry
  split
  · refine Keeps.ite (fun _ => ?_) fun _ => ?_
    · refine emit_keeps _ _ (Keeps.sub (by decide) hp) ?_
      exact h
    · exact h
  · exact h

theorem execTallyI2cBusyRetry_keeps (slot : Fin 16) (s : State) :
    ∃ τ, execTallyI2cBusyRetry slot s = .next τ ∧ Keeps [Part.out] s τ := by
  refine Keeps.exec fun ps σ hp h => ?_
  unfold execTallyI2cBusyRetry
  refine ⟨_, rfl, ?_⟩
  refine busyRetry_keeps _ _ (Keeps.sub (by decide) hp) ?_
  exact h

theorem stretchTimeout_keeps {ps : List Part} {σ : State} (i : Nat) (s : State)
    (hp : ∀ p ∈ [Part.free, Part.fw, Part.msix, Part.out, Part.reg .stk, Part.reg .tly, Part.rings, Part.stk, Part.tly], p ∈ ps) (h : Keeps ps σ s) : Keeps ps σ (stretchTimeout i s) := by
  unfold stretchTimeout
  split
  · extract_lets σ1
    have hσ12 : Keeps ps σ σ1.2 := by
      unfold σ1
      refine draw_keeps _ _ (Keeps.sub (by decide) hp) ?_
      refine inc_keeps _ _ _ (Keeps.sub (by decide) hp) ?_
      exact h
    refine failExchange_keeps _ _ _ _ (Keeps.sub (by decide) hp) ?_
    exact hσ12
  · exact h

theorem execI2cStretchTimeout_keeps (slot : Fin 16) (s : State) :
    ∃ τ, execI2cStretchTimeout slot s = .next τ ∧ Keeps [Part.free, Part.fw, Part.msix, Part.out, Part.reg .stk, Part.reg .tly, Part.rings, Part.stk, Part.tly] s τ := by
  refine Keeps.exec fun ps σ hp h => ?_
  unfold execI2cStretchTimeout
  refine ⟨_, rfl, ?_⟩
  refine stretchTimeout_keeps _ _ (Keeps.sub (by decide) hp) ?_
  exact h

theorem checkpoint_keeps {ps : List Part} {σ : State} (cmd : Option Nat) (s : State)
    (hp : ∀ p ∈ [Part.crk, Part.out, Part.tly], p ∈ ps) (h : Keeps ps σ s) : Keeps ps σ (checkpoint cmd s) := by
  unfold checkpoint
  extract_lets σ1 σ2 σ3 σ4
  have hσ2 : Keeps ps σ σ2 := by
    unfold σ2
    refine crkSubmit_keeps _ _ _ _ (Keeps.sub (by decide) hp) ?_
    exact h
  have hσ4 : Keeps ps σ σ4 := by
    unfold σ4
    refine Keeps.set_tly (hp _ (by decide)) ?_
    exact hσ2
  refine Keeps.foldl ?_ ?_
  · intro τ5 χ6 hτ7
    refine pollSlot_keeps _ _ _ (Keeps.sub (by decide) hp) ?_
    exact hτ7
  · exact hσ4

theorem execTallyCheckpointTimer_keeps (s : State) :
    ∃ τ, execTallyCheckpointTimer s = .next τ ∧ Keeps [Part.crk, Part.out, Part.tly] s τ := by
  refine Keeps.exec fun ps σ hp h => ?_
  unfold execTallyCheckpointTimer
  refine ⟨_, rfl, ?_⟩
  refine Keeps.ite (fun _ => ?_) fun _ => ?_
  · refine checkpoint_keeps _ _ (Keeps.sub (by decide) hp) ?_
    exact h
  · exact h

theorem checkpointDone_keeps {ps : List Part} {σ : State} (s : State)
    (hp : ∀ p ∈ [Part.tly], p ∈ ps) (h : Keeps ps σ s) : Keeps ps σ (checkpointDone s) := by
  unfold checkpointDone
  refine Keeps.set_tly (hp _ (by decide)) ?_
  exact h

theorem writeBacks_keeps {ps : List Part} {σ : State} (s : State)
    (hp : ∀ p ∈ [Part.out, Part.tly], p ∈ ps) (h : Keeps ps σ s) : Keeps ps σ (writeBacks s) := by
  unfold writeBacks
  refine Keeps.ite (fun _ => ?_) fun _ => ?_
  · refine Keeps.foldl ?_ ?_
    · intro τ1 χ2 hτ3
      refine pushExchange_keeps _ _ _ (Keeps.sub (by decide) hp) ?_
      exact hτ3
    · refine Keeps.set_tly (hp _ (by decide)) ?_
      exact h
  · exact h

theorem execTallyWriteBack_keeps (s : State) :
    ∃ τ, execTallyWriteBack s = .next τ ∧ Keeps [Part.out, Part.tly] s τ := by
  refine Keeps.exec fun ps σ hp h => ?_
  unfold execTallyWriteBack
  refine ⟨_, rfl, ?_⟩
  refine writeBacks_keeps _ (Keeps.sub (by decide) hp) ?_
  exact h

theorem checkpointLate_keeps {ps : List Part} {σ : State} (t : Nat) (s : State)
    (hp : ∀ p ∈ [Part.clock, Part.msix, Part.out, Part.reg .stk, Part.reg .tim, Part.reg .tly, Part.rings, Part.stk, Part.tly], p ∈ ps) (h : Keeps ps σ s) : Keeps ps σ (checkpointLate t s) := by
  unfold checkpointLate
  extract_lets σ1 σ2 σ3
  have hσ1 : Keeps ps σ σ1 := by
    unfold σ1
    refine advanceTo_keeps _ _ (Keeps.sub (by decide) hp) ?_
    exact h
  refine Keeps.ite (fun _ => ?_) fun _ => ?_
  · refine raiseIrq_keeps _ _ _ (Keeps.sub (by decide) hp) ?_
    refine raiseAlarm_keeps _ _ _ _ (Keeps.sub (by decide) hp) ?_
    refine Keeps.set_tly (hp _ (by decide)) ?_
    exact hσ1
  · exact h

theorem execTallyCkptLate_keeps (t : DWord) (s : State) :
    ∃ τ, execTallyCkptLate t s = .next τ ∧ Keeps [Part.clock, Part.msix, Part.out, Part.reg .stk, Part.reg .tim, Part.reg .tly, Part.rings, Part.stk, Part.tly] s τ := by
  refine Keeps.exec fun ps σ hp h => ?_
  unfold execTallyCkptLate
  refine ⟨_, rfl, ?_⟩
  refine checkpointLate_keeps _ _ (Keeps.sub (by decide) hp) ?_
  exact h

theorem bodyConsumableScan_keeps {ps : List Part} {σ : State} (h : Hdr) (c : Instr) (mask : Nat) (s : State)
    (hp : ∀ p ∈ [Part.fw, Part.msix, Part.out, Part.reg .stk, Part.rings, Part.stk, Part.tly], p ∈ ps) (hs : Keeps ps σ s) : Keeps ps σ (bodyConsumableScan h c mask s) := by
  unfold bodyConsumableScan
  refine Keeps.ite (fun _ => ?_) fun _ => ?_
  · refine fail_keeps _ _ _ (Keeps.sub (by decide) hp) ?_
    exact hs
  · refine Keeps.ite (fun _ => ?_) fun _ => ?_
    · refine fail_keeps _ _ _ (Keeps.sub (by decide) hp) ?_
      exact hs
    · extract_lets σ1
      refine Keeps.ite (fun _ => ?_) fun _ => ?_
      · refine ok_keeps _ _ _ (Keeps.sub (by decide) hp) ?_
        exact hs
      · refine Keeps.foldl ?_ ?_
        · intro τ2 χ3 hτ4
          refine pollSlot_keeps _ _ _ (Keeps.sub (by decide) hp) ?_
          exact hτ4
        · refine parkAccepted_keeps _ _ _ _ _ (Keeps.sub (by decide) hp) ?_
          exact hs

theorem execConsumableScan_keeps (d : Desc) (mask : BitVec 8) (s : State) :
    ∃ τ, execConsumableScan d mask s = .next τ ∧ Keeps [Part.fw, Part.msix, Part.out, Part.reg .hif, Part.reg .stk, Part.rings, Part.stk, Part.tly] s τ := by
  refine Keeps.exec fun ps σ hp h => ?_
  unfold execConsumableScan
  refine ⟨_, rfl, ?_⟩
  refine command_keeps _ _ _ _ _ _ ?_ (Keeps.sub (by decide) hp) ?_
  · intro χ1 τ2 hτ3
    refine bodyConsumableScan_keeps _ _ _ _ (Keeps.sub (by decide) hp) ?_
    exact hτ3
  · exact h

theorem consumableQuery_keeps {ps : List Part} {σ : State} (h : Hdr) (i : Nat) (s : State)
    (hp : ∀ p ∈ [Part.fw, Part.msix, Part.out, Part.reg .stk, Part.rings, Part.stk], p ∈ ps) (hs : Keeps ps σ s) : Keeps ps σ (consumableQuery h i s) := by
  unfold consumableQuery
  refine Keeps.ite (fun _ => ?_) fun _ => ?_
  · refine fail_keeps _ _ _ (Keeps.sub (by decide) hp) ?_
    exact hs
  · refine ok_keeps _ _ _ (Keeps.sub (by decide) hp) ?_
    exact hs

theorem execConsumableQuery_keeps (d : Desc) (slot : BitVec 8) (s : State) :
    ∃ τ, execConsumableQuery d slot s = .next τ ∧ Keeps [Part.fw, Part.msix, Part.out, Part.reg .hif, Part.reg .stk, Part.rings, Part.stk] s τ := by
  refine Keeps.exec fun ps σ hp h => ?_
  unfold execConsumableQuery
  refine ⟨_, rfl, ?_⟩
  refine query_keeps _ _ _ _ _ ?_ (Keeps.sub (by decide) hp) ?_
  · intro χ1 τ2 hτ3
    refine consumableQuery_keeps _ _ _ (Keeps.sub (by decide) hp) ?_
    exact hτ3
  · exact h

theorem bodyTallyCheckpoint_keeps {ps : List Part} {σ : State} (h : Hdr) (c : Instr) (s : State)
    (hp : ∀ p ∈ [Part.crk, Part.fw, Part.msix, Part.out, Part.reg .stk, Part.rings, Part.stk, Part.tly], p ∈ ps) (hs : Keeps ps σ s) : Keeps ps σ (bodyTallyCheckpoint h c s) := by
  unfold bodyTallyCheckpoint
  refine Keeps.ite (fun _ => ?_) fun _ => ?_
  · refine fail_keeps _ _ _ (Keeps.sub (by decide) hp) ?_
    exact hs
  · refine checkpoint_keeps _ _ (Keeps.sub (by decide) hp) ?_
    refine parkAccepted_keeps _ _ _ _ _ (Keeps.sub (by decide) hp) ?_
    exact hs

theorem execTallyCheckpoint_keeps (d : Desc) (s : State) :
    ∃ τ, execTallyCheckpoint d s = .next τ ∧ Keeps [Part.crk, Part.fw, Part.msix, Part.out, Part.reg .hif, Part.reg .stk, Part.rings, Part.stk, Part.tly] s τ := by
  refine Keeps.exec fun ps σ hp h => ?_
  unfold execTallyCheckpoint
  refine ⟨_, rfl, ?_⟩
  refine command_keeps _ _ _ _ _ _ ?_ (Keeps.sub (by decide) hp) ?_
  · intro χ1 τ2 hτ3
    refine bodyTallyCheckpoint_keeps _ _ _ (Keeps.sub (by decide) hp) ?_
    exact hτ3
  · exact h

theorem slotCfgWrite_keeps {ps : List Part} {σ : State} (v : Word) (s : State)
    (hp : ∀ p ∈ [Part.crk, Part.fw, Part.msix, Part.out, Part.reg .stk, Part.reg .tly, Part.rings, Part.stk, Part.tly], p ∈ ps) (h : Keeps ps σ s) : Keeps ps σ (slotCfgWrite v s) := by
  unfold slotCfgWrite
  extract_lets σ1 σ2 σ3 σ4
  have hσ4 : Keeps ps σ σ4 := by
    unfold σ4
    refine wn_keeps _ _ _ (Keeps.sub (by simp +zetaDelta) hp) ?_
    exact h
  refine Keeps.ite (fun _ => ?_) fun _ => ?_
  · refine recordErr_keeps _ _ _ (Keeps.sub (by decide) hp) ?_
    exact h
  · refine Keeps.ite (fun _ => ?_) fun _ => ?_
    · refine scanArrive_keeps _ _ (Keeps.sub (by decide) hp) ?_
      refine setTly_keeps _ _ _ (Keeps.sub (by decide) hp) ?_
      refine updTly_keeps _ _ _ (Keeps.sub (by decide) hp) ?_
      refine rememberUsage_keeps _ _ (Keeps.sub (by decide) hp) ?_
      refine tallyClose_keeps _ _ (Keeps.sub (by decide) hp) ?_
      exact hσ4
    · refine Keeps.ite (fun _ => ?_) fun _ => ?_
      · refine setTly_keeps _ _ _ (Keeps.sub (by decide) hp) ?_
        refine updTly_keeps _ _ _ (Keeps.sub (by decide) hp) ?_
        exact hσ4
      · exact hσ4

theorem slotHeadsWrite_keeps {ps : List Part} {σ : State} (high : Bool) (v : Word) (s : State)
    (hp : ∀ p ∈ [Part.msix, Part.out, Part.reg .tly], p ∈ ps) (h : Keeps ps σ s) : Keeps ps σ (slotHeadsWrite high v s) := by
  unfold slotHeadsWrite
  extract_lets σ1
  refine Keeps.ite (fun _ => ?_) fun _ => ?_
  · refine recordErr_keeps _ _ _ (Keeps.sub (by decide) hp) ?_
    exact h
  · refine wr_keeps _ _ _ (Keeps.sub (by simp +zetaDelta) hp) ?_
    exact h

theorem tlyCtrlWrite_keeps {ps : List Part} {σ : State} (v : Word) (s : State)
    (hp : ∀ p ∈ [Part.reg .tly, Part.tly], p ∈ ps) (h : Keeps ps σ s) : Keeps ps σ (tlyCtrlWrite v s) := by
  unfold tlyCtrlWrite
  extract_lets σ1 σ2
  have hσ1 : Keeps ps σ σ1 := by
    unfold σ1
    refine wn_keeps _ _ _ (Keeps.sub (by decide) hp) ?_
    exact h
  refine Keeps.ite (fun _ => ?_) fun _ => ?_
  · refine Keeps.set_tly (hp _ (by decide)) ?_
    exact hσ1
  · exact hσ1

end Sys2Proof.Machine
end

