-- ==== Sys2Proof/Laws/KeepsCrock.lean ====
section
/-! SUPPORT. What the operations of Machine/Crock.lean change, and what they keep. -/

namespace Sys2Proof.Machine
open Sys2Proof

theorem wearCheck_keeps {ps : List Part} {σ : State} (old : Nat) (s : State)
    (hp : ∀ p ∈ [Part.msix, Part.out, Part.reg .crk, Part.reg .stk, Part.rings, Part.stk], p ∈ ps) (h : Keeps ps σ s) : Keeps ps σ (wearCheck old s) := by
  unfold wearCheck
  extract_lets σ1
  refine Keeps.ite (fun _ => ?_) fun _ => ?_
  · refine raiseIrq_keeps _ _ _ (Keeps.sub (by decide) hp) ?_
    refine raiseAlarm_keeps _ _ _ _ (Keeps.sub (by decide) hp) ?_
    exact h
  · exact h

theorem storeDone_keeps {ps : List Part} {σ : State} (seq : Nat) (s : State)
    (hp : ∀ p ∈ [Part.crk, Part.fw, Part.jobs, Part.msix, Part.out, Part.reg .stk, Part.rings, Part.sag, Part.stk], p ∈ ps) (h : Keeps ps σ s) : Keeps ps σ (storeDone seq s) := by
  unfold storeDone
  split
  · refine Keeps.ite (fun _ => ?_) fun _ => ?_
    · exact h
    · split
      · refine Keeps.ite (fun _ => ?_) fun _ => ?_
        · refine grantUndo_keeps _ _ (Keeps.sub (by decide) hp) ?_
          exact h
        · refine ok_keeps _ _ _ (Keeps.sub (by decide) hp) ?_
          exact h
      · refine ok_keeps _ _ _ (Keeps.sub (by decide) hp) ?_
        exact h
      · refine park_keeps _ _ (Keeps.sub (by decide) hp) ?_
        exact h
  · exact h

theorem saggerStored_keeps {ps : List Part} {σ : State} (d : SagRec) (batch : Option Nat) (s : State)
    (hp : ∀ p ∈ [Part.crk, Part.free, Part.glz, Part.jobs, Part.msix, Part.out, Part.reg .stk, Part.rings, Part.sag, Part.stk, Part.thr], p ∈ ps) (h : Keeps ps σ s) : Keeps ps σ (saggerStored d batch s) := by
  unfold saggerStored
  extract_lets σ1 σ2 σ3
  have hσ1 : Keeps ps σ σ1 := by
    unfold σ1
    refine updSag_keeps _ _ _ (Keeps.sub (by decide) hp) ?_
    exact h
  refine refreshReady_keeps _ (Keeps.sub (by decide) hp) ?_
  refine Keeps.set_sag rfl (hp _ (by decide)) ?_
  exact hσ1

theorem snapCapture_keeps {ps : List Part} {σ : State} (s : State)
    (hp : ∀ p ∈ [Part.crk, Part.til], p ∈ ps) (h : Keeps ps σ s) : Keeps ps σ (snapCapture s) := by
  unfold snapCapture
  extract_lets σ1 σ2 σ3 σ4 σ5 σ6
  refine Keeps.set_til_crk rfl (Or.inr ⟨rfl, rfl⟩) (Or.inl (hp _ (by decide))) (hp _ (by decide)) ?_
  exact h

theorem snapshotTimer_keeps {ps : List Part} {σ : State} (s : State)
    (hp : ∀ p ∈ [Part.crk, Part.til], p ∈ ps) (h : Keeps ps σ s) : Keeps ps σ (snapshotTimer s) := by
  unfold snapshotTimer
  refine Keeps.ite (fun _ => ?_) fun _ => ?_
  · refine snapCapture_keeps _ (Keeps.sub (by decide) hp) ?_
    exact h
  · exact h

theorem execSnapshotTimer_keeps (s : State) :
    ∃ τ, execSnapshotTimer s = .next τ ∧ Keeps [Part.crk, Part.til] s τ := by
  refine Keeps.exec fun ps σ hp h => ?_
  unfold execSnapshotTimer
  refine ⟨_, rfl, ?_⟩
  refine snapshotTimer_keeps _ (Keeps.sub (by decide) hp) ?_
  exact h

theorem bodyNozzleSnapshot_keeps {ps : List Part} {σ : State} (h : Hdr) (c : Instr) (s : State)
    (hp : ∀ p ∈ [Part.crk, Part.fw, Part.msix, Part.out, Part.reg .stk, Part.rings, Part.stk, Part.til], p ∈ ps) (hs : Keeps ps σ s) : Keeps ps σ (bodyNozzleSnapshot h c s) := by
  unfold bodyNozzleSnapshot
  refine Keeps.ite (fun _ => ?_) fun _ => ?_
  · refine fail_keeps _ _ _ (Keeps.sub (by decide) hp) ?_
    exact hs
  · extract_lets σ1 σ2
    have hσ1 : Keeps ps σ σ1 := by
      unfold σ1
      refine parkAccepted_keeps _ _ _ _ _ (Keeps.sub (by decide) hp) ?_
      exact hs
    split
    · refine Keeps.set_crk (hp _ (by decide)) ?_
      exact hσ1
    · refine snapCapture_keeps _ (Keeps.sub (by decide) hp) ?_
      refine Keeps.set_crk (hp _ (by decide)) ?_
      exact hσ1

theorem execNozzleSnapshot_keeps (d : Desc) (s : State) :
    ∃ τ, execNozzleSnapshot d s = .next τ ∧ Keeps [Part.crk, Part.fw, Part.msix, Part.out, Part.reg .hif, Part.reg .stk, Part.rings, Part.stk, Part.til] s τ := by
  refine Keeps.exec fun ps σ hp h => ?_
  unfold execNozzleSnapshot
  refine ⟨_, rfl, ?_⟩
  refine command_keeps _ _ _ _ _ _ ?_ (Keeps.sub (by decide) hp) ?_
  · intro χ1 τ2 hτ3
    refine bodyNozzleSnapshot_keeps _ _ _ (Keeps.sub (by decide) hp) ?_
    exact hτ3
  · exact h

theorem snapshotWrite_keeps {ps : List Part} {σ : State} (s : State)
    (hp : ∀ p ∈ [Part.crk, Part.free, Part.msix, Part.out, Part.reg .crk, Part.reg .stk, Part.rings, Part.stk], p ∈ ps) (h : Keeps ps σ s) : Keeps ps σ (snapshotWrite s) := by
  unfold snapshotWrite
  split
  · refine Keeps.ite (fun _ => ?_) fun _ => ?_
    · exact h
    · extract_lets σ1 σ2 σ3 σ4 σ5 σ6 σ7 σ8
      have hσ42 : Keeps ps σ σ4.2 := by
        unfold σ4
        refine draw_keeps _ _ (Keeps.sub (by decide) hp) ?_
        exact h
      have hσ5 : Keeps ps σ σ5 := by
        unfold σ5
        exact hσ42
      have hσ7 : Keeps ps σ σ7 := by
        unfold σ7
        refine Keeps.set_crk (hp _ (by decide)) ?_
        exact hσ5
      have hσ8 : Keeps ps σ σ8 := by
        unfold σ8
        refine inc64_keeps _ _ _ (Keeps.sub (by decide) hp) ?_
        refine wearCheck_keeps _ _ (Keeps.sub (by decide) hp) ?_
        exact hσ7
      refine crkSubmit_keeps _ _ _ _ (Keeps.sub (by decide) hp) ?_
      exact hσ8
  · exact h

theorem execSnapshotWrite_keeps (s : State) :
    ∃ τ, execSnapshotWrite s = .next τ ∧ Keeps [Part.crk, Part.free, Part.msix, Part.out, Part.reg .crk, Part.reg .stk, Part.rings, Part.stk] s τ := by
  refine Keeps.exec fun ps σ hp h => ?_
  unfold execSnapshotWrite
  refine ⟨_, rfl, ?_⟩
  refine snapshotWrite_keeps _ (Keeps.sub (by decide) hp) ?_
  exact h

theorem snapCommitted_keeps {ps : List Part} {σ : State} (s : State)
    (hp : ∀ p ∈ [Part.crk, Part.fw, Part.msix, Part.out, Part.reg .stk, Part.rings, Part.stk, Part.til], p ∈ ps) (h : Keeps ps σ s) : Keeps ps σ (snapCommitted s) := by
  unfold snapCommitted
  split
  · extract_lets σ1 σ2 σ3 σ4
    have hσ2 : Keeps ps σ σ2 := by
      unfold σ2
      refine Keeps.set_crk (hp _ (by decide)) ?_
      exact h
    have hσ3 : Keeps ps σ σ3 := by
      unfold σ3
      refine Keeps.foldl ?_ ?_
      · intro τ5 χ6 hτ7
        refine completeSeq_keeps _ _ _ _ (Keeps.sub (by decide) hp) ?_
        exact hτ7
      · exact hσ2
    refine Keeps.ite (fun _ => ?_) fun _ => ?_
    · exact hσ3
    · refine snapCapture_keeps _ (Keeps.sub (by decide) hp) ?_
      refine Keeps.set_crk (hp _ (by decide)) ?_
      exact hσ3
  · exact h

theorem calFlush_keeps {ps : List Part} {σ : State} (s : State)
    (hp : ∀ p ∈ [Part.crk], p ∈ ps) (h : Keeps ps σ s) : Keeps ps σ (calFlush s) := by
  unfold calFlush
  refine Keeps.ite (fun _ => ?_) fun _ => ?_
  · extract_lets σ1 σ2
    have hσ1 : Keeps ps σ σ1 := by
      unfold σ1
      refine Keeps.foldl ?_ ?_
      · intro τ3 χ4 hτ5
        extract_lets σ6
        refine Keeps.foldl ?_ ?_
        · intro τ7 χ8 hτ9
          refine crkSubmit_keeps _ _ _ _ (Keeps.sub (by decide) hp) ?_
          exact hτ9
        · exact hτ5
      · exact h
    refine Keeps.set_crk (hp _ (by decide)) ?_
    exact hσ1
  · exact h

theorem execCalFlushTimer_keeps (s : State) :
    ∃ τ, execCalFlushTimer s = .next τ ∧ Keeps [Part.crk] s τ := by
  refine Keeps.exec fun ps σ hp h => ?_
  unfold execCalFlushTimer
  refine ⟨_, rfl, ?_⟩
  refine calFlush_keeps _ (Keeps.sub (by decide) hp) ?_
  exact h

theorem compactStart_keeps {ps : List Part} {σ : State} (cmd : Option Nat) (s : State)
    (hp : ∀ p ∈ [Part.crk, Part.msix, Part.out, Part.reg .crk, Part.reg .stk, Part.rings, Part.stk], p ∈ ps) (h : Keeps ps σ s) : Keeps ps σ (compactStart cmd s) := by
  unfold compactStart
  extract_lets σ1 σ2 σ3 σ4
  have hσ1 : Keeps ps σ σ1 := by
    unfold σ1
    refine calFlush_keeps _ (Keeps.sub (by decide) hp) ?_
    exact h
  refine raiseIrq_keeps _ _ _ (Keeps.sub (by decide) hp) ?_
  refine event_keeps _ _ _ _ (Keeps.sub (by decide) hp) ?_
  refine Keeps.set_crk (hp _ (by decide)) ?_
  exact hσ1

theorem compactDone_keeps {ps : List Part} {σ : State} (s : State)
    (hp : ∀ p ∈ [Part.crk, Part.fw, Part.msix, Part.out, Part.reg .crk, Part.reg .stk, Part.rings, Part.stk], p ∈ ps) (h : Keeps ps σ s) : Keeps ps σ (compactDone s) := by
  unfold compactDone
  extract_lets σ1 σ2 σ3 σ4 σ5 σ6 σ7 σ8 σ9 σ10
  have hσ8 : Keeps ps σ σ8 := by
    unfold σ8
    refine Keeps.set_crk (hp _ (by decide)) ?_
    exact h
  have hσ9 : Keeps ps σ σ9 := by
    unfold σ9
    refine inc_keeps _ _ _ (Keeps.sub (by decide) hp) ?_
    refine inc64_keeps _ _ _ (Keeps.sub (by decide) hp) ?_
    refine wearCheck_keeps _ _ (Keeps.sub (by decide) hp) ?_
    exact hσ8
  have hσ10 : Keeps ps σ σ10 := by
    unfold σ10
    refine raiseIrq_keeps _ _ _ (Keeps.sub (by decide) hp) ?_
    refine event_keeps _ _ _ _ (Keeps.sub (by decide) hp) ?_
    exact hσ9
  refine completeOpt_keeps _ _ _ _ (Keeps.sub (by decide) hp) ?_
  exact hσ10

theorem enterReadOnly_keeps {ps : List Part} {σ : State} (addr : Nat) (s : State)
    (hp : ∀ p ∈ [Part.crk, Part.fw, Part.msix, Part.out, Part.reg .crk, Part.reg .stk, Part.rings, Part.sag, Part.stk, Part.tly], p ∈ ps) (h : Keeps ps σ s) : Keeps ps σ (enterReadOnly addr s) := by
  unfold enterReadOnly
  extract_lets σ1 σ2 σ3 σ4 σ5 σ6
  have hσ5 : Keeps ps σ σ5 := by
    unfold σ5
    refine Keeps.set_crk_sag_tly (hp _ (by decide)) rfl (hp _ (by decide)) (hp _ (by decide)) ?_
    exact h
  have hσ6 : Keeps ps σ σ6 := by
    unfold σ6
    refine raiseIrq_keeps _ _ _ (Keeps.sub (by decide) hp) ?_
    refine raiseAlarm_keeps _ _ _ _ (Keeps.sub (by decide) hp) ?_
    exact hσ5
  refine compactStart_keeps _ _ (Keeps.sub (by decide) hp) ?_
  refine Keeps.foldl ?_ ?_
  · intro τ7 χ8 hτ9
    refine completeSeq_keeps _ _ _ _ (Keeps.sub (by decide) hp) ?_
    exact hτ9
  · exact hσ6

theorem compactionEnd_keeps {ps : List Part} {σ : State} (good : Bool) (s : State)
    (hp : ∀ p ∈ [Part.crk, Part.free, Part.fw, Part.msix, Part.out, Part.reg .crk, Part.reg .stk, Part.rings, Part.sag, Part.stk, Part.tly], p ∈ ps) (h : Keeps ps σ s) : Keeps ps σ (compactionEnd good s) := by
  unfold compactionEnd
  refine Keeps.ite (fun _ => ?_) fun _ => ?_
  · exact h
  · refine Keeps.ite (fun _ => ?_) fun _ => ?_
    · refine compactDone_keeps _ (Keeps.sub (by decide) hp) ?_
      exact h
    · extract_lets σ1 σ2 σ3
      have hσ1 : Keeps ps σ σ1 := by
        unfold σ1
        refine inc_keeps _ _ _ (Keeps.sub (by decide) hp) ?_
        exact h
      have hσ32 : Keeps ps σ σ3.2 := by
        unfold σ3
        refine draw_keeps _ _ (Keeps.sub (by decide) hp) ?_
        exact hσ1
      refine Keeps.ite (fun _ => ?_) fun _ => ?_
      · refine Keeps.set_crk (hp _ (by decide)) ?_
        exact hσ1
      · refine enterReadOnly_keeps _ _ (Keeps.sub (by decide) hp) ?_
        exact hσ32

theorem execCrockCompactionDone_keeps (good : Bool) (s : State) :
    ∃ τ, execCrockCompactionDone good s = .next τ ∧ Keeps [Part.crk, Part.free, Part.fw, Part.msix, Part.out, Part.reg .crk, Part.reg .stk, Part.rings, Part.sag, Part.stk, Part.tly] s τ := by
  refine Keeps.exec fun ps σ hp h => ?_
  unfold execCrockCompactionDone
  refine ⟨_, rfl, ?_⟩
  refine compactionEnd_keeps _ _ (Keeps.sub (by decide) hp) ?_
  exact h

theorem bodyJournalCompact_keeps {ps : List Part} {σ : State} (h : Hdr) (c : Instr) (s : State)
    (hp : ∀ p ∈ [Part.crk, Part.fw, Part.msix, Part.out, Part.reg .crk, Part.reg .stk, Part.rings, Part.stk], p ∈ ps) (hs : Keeps ps σ s) : Keeps ps σ (bodyJournalCompact h c s) := by
  unfold bodyJournalCompact
  refine Keeps.ite (fun _ => ?_) fun _ => ?_
  · refine fail_keeps _ _ _ (Keeps.sub (by decide) hp) ?_
    exact hs
  · refine Keeps.ite (fun _ => ?_) fun _ => ?_
    · refine fail_keeps _ _ _ (Keeps.sub (by decide) hp) ?_
      exact hs
    · refine compactStart_keeps _ _ (Keeps.sub (by decide) hp) ?_
      refine parkAccepted_keeps _ _ _ _ _ (Keeps.sub (by decide) hp) ?_
      exact hs

theorem execJournalCompact_keeps (d : Desc) (s : State) :
    ∃ τ, execJournalCompact d s = .next τ ∧ Keeps [Part.crk, Part.fw, Part.msix, Part.out, Part.reg .crk, Part.reg .hif, Part.reg .stk, Part.rings, Part.stk] s τ := by
  refine Keeps.exec fun ps σ hp h => ?_
  unfold execJournalCompact
  refine ⟨_, rfl, ?_⟩
  refine command_keeps _ _ _ _ _ _ ?_ (Keeps.sub (by decide) hp) ?_
  · intro χ1 τ2 hτ3
    refine bodyJournalCompact_keeps _ _ _ (Keeps.sub (by decide) hp) ?_
    exact hτ3
  · exact h

theorem committed_keeps {ps : List Part} {σ : State} (j : CrkJob) (s : State)
    (hp : ∀ p ∈ [Part.crk, Part.free, Part.fw, Part.glz, Part.jobs, Part.msix, Part.out, Part.reg .stk, Part.rings, Part.sag, Part.stk, Part.thr, Part.til, Part.tly], p ∈ ps) (h : Keeps ps σ s) : Keeps ps σ (committed j s) := by
  unfold committed
  extract_lets σ1
  have hσ1 : Keeps ps σ σ1 := by
    unfold σ1
    split
    · refine checkpointDone_keeps _ (Keeps.sub (by decide) hp) ?_
      exact h
    · refine saggerStored_keeps _ _ _ (Keeps.sub (by decide) hp) ?_
      exact h
    · refine snapCommitted_keeps _ (Keeps.sub (by decide) hp) ?_
      exact h
    · exact h
  split
  · refine storeDone_keeps _ _ (Keeps.sub (by decide) hp) ?_
    exact hσ1
  · exact hσ1

theorem appendRecord_keeps {ps : List Part} {σ : State} (b : CrkBody) (s : State)
    (hp : ∀ p ∈ [Part.crk], p ∈ ps) (h : Keeps ps σ s) : Keeps ps σ (appendRecord b s) := by
  unfold appendRecord
  extract_lets σ1 σ2 σ3
  refine Keeps.set_crk (hp _ (by decide)) ?_
  exact h

theorem recordWrite_keeps {ps : List Part} {σ : State} (good : Bool) (s : State)
    (hp : ∀ p ∈ [Part.crk, Part.free, Part.fw, Part.glz, Part.jobs, Part.msix, Part.out, Part.reg .crk, Part.reg .stk, Part.rings, Part.sag, Part.stk, Part.thr, Part.til, Part.tly], p ∈ ps) (h : Keeps ps σ s) : Keeps ps σ (recordWrite good s) := by
  unfold recordWrite
  split
  · exact h
  · extract_lets σ1 σ2 σ3 σ4 σ5 σ6
    have hσ3 : Keeps ps σ σ3 := by
      unfold σ3
      refine appendRecord_keeps _ _ (Keeps.sub (by decide) hp) ?_
      refine Keeps.set_crk (hp _ (by decide)) ?_
      exact h
    have hσ4 : Keeps ps σ σ4 := by
      unfold σ4
      refine committed_keeps _ _ (Keeps.sub (by decide) hp) ?_
      refine inc64_keeps _ _ _ (Keeps.sub (by decide) hp) ?_
      exact hσ3
    have hσ6 : Keeps ps σ σ6 := by
      unfold σ6
      refine inc64_keeps _ _ _ (Keeps.sub (by decide) hp) ?_
      refine inc_keeps _ _ _ (Keeps.sub (by decide) hp) ?_
      refine Keeps.set_crk (hp _ (by decide)) ?_
      exact h
    refine Keeps.ite (fun _ => ?_) fun _ => ?_
    · exact h
    · refine Keeps.ite (fun _ => ?_) fun _ => ?_
      · refine Keeps.ite (fun _ => ?_) fun _ => ?_
        · refine compactStart_keeps _ _ (Keeps.sub (by decide) hp) ?_
          exact hσ4
        · exact hσ4
      · refine Keeps.ite (fun _ => ?_) fun _ => ?_
        · refine enterReadOnly_keeps _ _ (Keeps.sub (by decide) hp) ?_
          exact hσ6
        · exact hσ6

theorem execCrockRecordWrite_keeps (good : Bool) (s : State) :
    ∃ τ, execCrockRecordWrite good s = .next τ ∧ Keeps [Part.crk, Part.free, Part.fw, Part.glz, Part.jobs, Part.msix, Part.out, Part.reg .crk, Part.reg .stk, Part.rings, Part.sag, Part.stk, Part.thr, Part.til, Part.tly] s τ := by
  refine Keeps.exec fun ps σ hp h => ?_
  unfold execCrockRecordWrite
  refine ⟨_, rfl, ?_⟩
  refine recordWrite_keeps _ _ (Keeps.sub (by decide) hp) ?_
  exact h

theorem cutRecord_keeps {ps : List Part} {σ : State} (completed : Bool) (s : State)
    (hp : ∀ p ∈ [Part.crk, Part.free, Part.glz, Part.jobs, Part.msix, Part.out, Part.reg .stk, Part.rings, Part.sag, Part.stk, Part.thr], p ∈ ps) (h : Keeps ps σ s) : Keeps ps σ (cutRecord completed s) := by
  unfold cutRecord
  split
  · exact h
  · refine Keeps.ite (fun _ => ?_) fun _ => ?_
    · extract_lets σ1 σ2
      have hσ1 : Keeps ps σ σ1 := by
        unfold σ1
        refine appendRecord_keeps _ _ (Keeps.sub (by decide) hp) ?_
        exact h
      split
      · refine saggerStored_keeps _ _ _ (Keeps.sub (by decide) hp) ?_
        exact hσ1
      · refine Keeps.set_crk (hp _ (by decide)) ?_
        exact hσ1
      · exact hσ1
    · refine Keeps.set_crk (hp _ (by decide)) ?_
      exact h

theorem cutSnapshot_keeps {ps : List Part} {σ : State} (s : State)
    (hp : ∀ p ∈ [Part.crk, Part.free], p ∈ ps) (h : Keeps ps σ s) : Keeps ps σ (cutSnapshot s) := by
  unfold cutSnapshot
  split
  · refine Keeps.ite (fun _ => ?_) fun _ => ?_
    · exact h
    · extract_lets σ1 σ2 σ3 σ4
      have hσ12 : Keeps ps σ σ1.2 := by
        unfold σ1
        refine draw_keeps _ _ (Keeps.sub (by decide) hp) ?_
        exact h
      have hσ3 : Keeps ps σ σ3 := by
        unfold σ3
        exact hσ12
      refine Keeps.set_crk (hp _ (by decide)) ?_
      exact hσ3
  · exact h

theorem graceStart_keeps {ps : List Part} {σ : State} (s0 : State)
    (hp : ∀ p ∈ [Part.crk, Part.free], p ∈ ps) (h : Keeps ps σ s0) : Keeps ps σ (graceStart s0) := by
  unfold graceStart
  extract_lets σ1 σ2 σ3 σ4 σ5
  have hσ1 : Keeps ps σ σ1 := by
    unfold σ1
    refine cutSnapshot_keeps _ (Keeps.sub (by decide) hp) ?_
    exact h
  have hσ32 : Keeps ps σ σ3.2 := by
    unfold σ3
    refine draw_keeps _ _ (Keeps.sub (by decide) hp) ?_
    exact hσ1
  have hσ4 : Keeps ps σ σ4 := by
    unfold σ4
    exact hσ32
  refine Keeps.ite (fun _ => ?_) fun _ => ?_
  · refine Keeps.set_crk (hp _ (by decide)) ?_
    exact hσ1
  · refine Keeps.set_crk (hp _ (by decide)) ?_
    exact hσ4

theorem graceEnd_keeps {ps : List Part} {σ : State} (completed : Bool) (s : State)
    (hp : ∀ p ∈ [Part.crk, Part.free, Part.glz, Part.jobs, Part.msix, Part.out, Part.reg .stk, Part.rings, Part.sag, Part.stk, Part.thr], p ∈ ps) (h : Keeps ps σ s) : Keeps ps σ (graceEnd completed s) := by
  unfold graceEnd
  split
  · extract_lets σ1 σ2 σ3 σ4
    have hσ3 : Keeps ps σ σ3 := by
      unfold σ3
      refine Keeps.ite (fun _ => ?_) fun _ => ?_
      · refine cutRecord_keeps _ _ (Keeps.sub (by decide) hp) ?_
        exact h
      · exact h
    refine Keeps.set_crk (hp _ (by decide)) ?_
    exact hσ3
  · exact h

theorem execCrockGraceEnd_keeps (completed : Bool) (s : State) :
    ∃ τ, execCrockGraceEnd completed s = .next τ ∧ Keeps [Part.crk, Part.free, Part.glz, Part.jobs, Part.msix, Part.out, Part.reg .stk, Part.rings, Part.sag, Part.stk, Part.thr] s τ := by
  refine Keeps.exec fun ps σ hp h => ?_
  unfold execCrockGraceEnd
  refine ⟨_, rfl, ?_⟩
  refine graceEnd_keeps _ _ (Keeps.sub (by decide) hp) ?_
  exact h

theorem storeWrite_keeps {ps : List Part} {σ : State} (h : Hdr) (area : Nat) (x : Stream) (s : State)
    (hp : ∀ p ∈ [Part.crk, Part.free, Part.fw, Part.msix, Part.out, Part.reg .crk, Part.reg .stk, Part.rings, Part.stk], p ∈ ps) (hs : Keeps ps σ s) : Keeps ps σ (storeWrite h area x s) := by
  unfold storeWrite
  extract_lets σ1 σ2 σ3 σ4 σ5 σ6 σ7 σ8 σ9 σ10
  have hσ32 : Keeps ps σ σ3.2 := by
    unfold σ3
    refine draw_keeps _ _ (Keeps.sub (by decide) hp) ?_
    exact hs
  have hσ5 : Keeps ps σ σ5 := by
    unfold σ5
    exact hσ32
  have hσ10 : Keeps ps σ σ10 := by
    unfold σ10
    refine inc64_keeps _ _ _ (Keeps.sub (by decide) hp) ?_
    refine Keeps.ite (fun _ => ?_) fun _ => ?_
    · refine Keeps.set_crk (hp _ (by decide)) ?_
      exact hσ5
    · refine Keeps.set_crk (hp _ (by decide)) ?_
      exact hσ5
  refine Keeps.ite (fun _ => ?_) fun _ => ?_
  · refine fail_keeps _ _ _ (Keeps.sub (by decide) hp) ?_
    exact hs
  · refine Keeps.ite (fun _ => ?_) fun _ => ?_
    · refine fail_keeps _ _ _ (Keeps.sub (by decide) hp) ?_
      exact hσ10
    · refine ok_keeps _ _ _ (Keeps.sub (by decide) hp) ?_
      exact hσ10

theorem bodyStoreWrite_keeps {ps : List Part} {σ : State} (h : Hdr) (c : Instr) (area : Nat) (handle : Nat) (s : State)
    (hp : ∀ p ∈ [Part.crk, Part.free, Part.fw, Part.msix, Part.out, Part.reg .crk, Part.reg .stk, Part.rings, Part.stk], p ∈ ps) (hs : Keeps ps σ s) : Keeps ps σ (bodyStoreWrite h c area handle s) := by
  unfold bodyStoreWrite
  refine Keeps.ite (fun _ => ?_) fun _ => ?_
  · refine fail_keeps _ _ _ (Keeps.sub (by decide) hp) ?_
    exact hs
  · refine Keeps.ite (fun _ => ?_) fun _ => ?_
    · refine fail_keeps _ _ _ (Keeps.sub (by decide) hp) ?_
      exact hs
    · refine withStream_keeps _ _ _ _ _ _ _ ?_ (Keeps.sub (by decide) hp) ?_
      · intro χ1 τ2 hτ3
        refine storeWrite_keeps _ _ _ _ (Keeps.sub (by decide) hp) ?_
        exact hτ3
      · exact hs

theorem execStoreWrite_keeps (d : Desc) (area : BitVec 8) (handle : Word) (s : State) :
    ∃ τ, execStoreWrite d area handle s = .next τ ∧ Keeps [Part.crk, Part.free, Part.fw, Part.msix, Part.out, Part.reg .crk, Part.reg .hif, Part.reg .stk, Part.rings, Part.stk] s τ := by
  refine Keeps.exec fun ps σ hp h => ?_
  unfold execStoreWrite
  refine ⟨_, rfl, ?_⟩
  refine command_keeps _ _ _ _ _ _ ?_ (Keeps.sub (by decide) hp) ?_
  · intro χ1 τ2 hτ3
    refine bodyStoreWrite_keeps _ _ _ _ _ (Keeps.sub (by decide) hp) ?_
    exact hτ3
  · exact h

theorem formatRegion_keeps {ps : List Part} {σ : State} (s : State)
    (hp : ∀ p ∈ [Part.crk], p ∈ ps) (h : Keeps ps σ s) : Keeps ps σ (formatRegion s) := by
  unfold formatRegion
  refine Keeps.ite (fun _ => ?_) fun _ => ?_
  · extract_lets σ1 σ2
    refine Keeps.set_crk (hp _ (by decide)) ?_
    exact h
  · refine Keeps.set_crk (hp _ (by decide)) ?_
    exact h

theorem crkRecover_keeps {ps : List Part} {σ : State} (cs0 : Nat) (cs1 : Nat) (s : State)
    (hp : ∀ p ∈ [Part.crk, Part.msix, Part.out, Part.reg .crk, Part.reg .stk, Part.rings, Part.stk], p ∈ ps) (h : Keeps ps σ s) : Keeps ps σ (crkRecover cs0 cs1 s) := by
  unfold crkRecover
  extract_lets σ1 σ2 σ3 σ4 σ5 σ6 σ7 σ8 σ9 σ10
  have hσ2 : Keeps ps σ σ2 := by
    unfold σ2
    refine Keeps.set_crk (hp _ (by decide)) ?_
    exact h
  have hσ5 : Keeps ps σ σ5 := by
    unfold σ5
    refine formatRegion_keeps _ (Keeps.sub (by decide) hp) ?_
    refine Keeps.set_crk (hp _ (by decide)) ?_
    exact hσ2
  have hσ9 : Keeps ps σ σ9 := by
    unfold σ9
    refine Keeps.foldl ?_ ?_
    · intro τ11 χ12 hτ13
      refine raiseIrq_keeps _ _ _ (Keeps.sub (by decide) hp) ?_
      refine event_keeps _ _ _ _ (Keeps.sub (by decide) hp) ?_
      refine inc_keeps _ _ _ (Keeps.sub (by decide) hp) ?_
      exact hτ13
    · refine Keeps.set_crk (hp _ (by decide)) ?_
      exact hσ5
  refine Keeps.ite (fun _ => ?_) fun _ => ?_
  · refine raiseAlarm_keeps _ _ _ _ (Keeps.sub (by decide) hp) ?_
    refine Keeps.set_crk (hp _ (by decide)) ?_
    exact hσ2
  · refine Keeps.ite (fun _ => ?_) fun _ => ?_
    · exact hσ9
    · refine event_keeps _ _ _ _ (Keeps.sub (by decide) hp) ?_
      refine wn_keeps _ _ _ (Keeps.sub (by decide) hp) ?_
      refine Keeps.set_crk (hp _ (by decide)) ?_
      exact hσ9

theorem snapLost_keeps {ps : List Part} {σ : State} (s : State)
    (hp : ∀ p ∈ [Part.msix, Part.out, Part.reg .crk, Part.reg .stk, Part.rings, Part.stk], p ∈ ps) (h : Keeps ps σ s) : Keeps ps σ (snapLost s) := by
  unfold snapLost
  refine Keeps.foldl ?_ ?_
  · intro τ1 χ2 hτ3
    split
    · refine Keeps.ite (fun _ => ?_) fun _ => ?_
      · refine raiseIrq_keeps _ _ _ (Keeps.sub (by decide) hp) ?_
        refine event_keeps _ _ _ _ (Keeps.sub (by decide) hp) ?_
        exact hτ3
      · exact hτ3
    · refine raiseIrq_keeps _ _ _ (Keeps.sub (by decide) hp) ?_
      refine event_keeps _ _ _ _ (Keeps.sub (by decide) hp) ?_
      exact hτ3
  · exact h

theorem recoverTally_keeps {ps : List Part} {σ : State} (s : State)
    (hp : ∀ p ∈ [Part.msix, Part.out, Part.reg .stk, Part.reg .tly, Part.rings, Part.stk, Part.tly], p ∈ ps) (h : Keeps ps σ s) : Keeps ps σ (recoverTally s) := by
  unfold recoverTally
  extract_lets σ1 σ2
  split
  · refine Keeps.foldl ?_ ?_
    · intro τ3 χ4 hτ5
      split
      · refine Keeps.set_tly (hp _ (by decide)) ?_
        exact hτ5
      · extract_lets σ6 σ7
        have hσ7 : Keeps ps σ σ7 := by
          unfold σ7
          refine Keeps.set_tly (hp _ (by decide)) ?_
          exact hτ5
        refine inc_keeps _ _ _ (Keeps.sub (by decide) hp) ?_
        refine raiseIrq_keeps _ _ _ (Keeps.sub (by decide) hp) ?_
        refine raiseAlarm_keeps _ _ _ _ (Keeps.sub (by decide) hp) ?_
        exact hσ7
    · exact h
  · exact h

end Sys2Proof.Machine
end

