-- ==== Sys2Proof/Laws/KeepsKiln.lean ====
section
/-! SUPPORT. What the operations of Machine/Kiln.lean change, and what they keep. -/

namespace Sys2Proof.Machine
open Sys2Proof

theorem startPlane_keeps {ps : List Part} {σ : State} (group : Nat) (slot : Nat) (p : Nat) (s : State)
    (hp : ∀ q ∈ [Part.ipl, Part.kln, Part.msix, Part.out, Part.reg .klnP, Part.reg .stk, Part.rings, Part.stk, Part.win], q ∈ ps) (h : Keeps ps σ s) : Keeps ps σ (startPlane group slot p s) := by
  unfold startPlane
  extract_lets σ1 σ2 σ3 σ4 σ5
  have hσ3 : Keeps ps σ σ3 := by
    unfold σ3
    refine updPlane_keeps _ _ _ (Keeps.sub (by decide) hp) ?_
    exact h
  have hσ5 : Keeps ps σ σ5 := by
    unfold σ5
    refine Keeps.foldl ?_ ?_
    · intro τ6 χ7 hτ8
      refine Keeps.foldl ?_ ?_
      · intro τ9 χ10 hτ11
        refine updRow_keeps _ _ _ _ (Keeps.sub (by decide) hp) ?_
        exact hτ11
      · refine updHead_keeps _ _ _ (Keeps.sub (by decide) hp) ?_
        exact hτ8
    · exact hσ3
  refine setPlaneState_keeps _ _ _ (Keeps.sub (by decide) hp) ?_
  refine ringAtStart_keeps _ _ (Keeps.sub (by decide) hp) ?_
  refine restartStall_keeps _ _ _ (Keeps.sub (by decide) hp) ?_
  exact hσ5

theorem kilnStart_keeps {ps : List Part} {σ : State} (h : Hdr) (mask : Nat) (s : State)
    (hp : ∀ p ∈ [Part.fw, Part.hif, Part.ipl, Part.kln, Part.msix, Part.out, Part.reg .hif, Part.reg .klnC, Part.reg .klnP, Part.reg .stk, Part.rings, Part.stk, Part.win], p ∈ ps) (hs : Keeps ps σ s) : Keeps ps σ (kilnStart h mask s) := by
  unfold kilnStart
  extract_lets σ1 σ2
  refine Keeps.ite (fun _ => ?_) fun _ => ?_
  · refine fail_keeps _ _ _ (Keeps.sub (by decide) hp) ?_
    exact hs
  · refine Keeps.ite (fun _ => ?_) fun _ => ?_
    · refine fail_keeps _ _ _ (Keeps.sub (by decide) hp) ?_
      exact hs
    · refine Keeps.ite (fun _ => ?_) fun _ => ?_
      · refine fail_keeps _ _ _ (Keeps.sub (by decide) hp) ?_
        exact hs
      · refine ok_keeps _ _ _ (Keeps.sub (by decide) hp) ?_
        refine refreshLt_keeps _ (Keeps.sub (by decide) hp) ?_
        refine Keeps.foldl ?_ ?_
        · intro τ3 χ4 hτ5
          refine startPlane_keeps _ _ _ _ (Keeps.sub (by decide) hp) ?_
          exact hτ5
        · exact hs

theorem bodyKilnStart_keeps {ps : List Part} {σ : State} (h : Hdr) (c : Instr) (mask : Nat) (s : State)
    (hp : ∀ p ∈ [Part.fw, Part.hif, Part.ipl, Part.kln, Part.msix, Part.out, Part.pwr, Part.reg .hif, Part.reg .klnC, Part.reg .klnP, Part.reg .stk, Part.rings, Part.stk, Part.win], p ∈ ps) (hs : Keeps ps σ s) : Keeps ps σ (bodyKilnStart h c mask s) := by
  unfold bodyKilnStart
  refine wake_keeps _ _ _ _ _ ?_ (Keeps.sub (by decide) hp) ?_
  · intro τ1 hτ2
    refine kilnStart_keeps _ _ _ (Keeps.sub (by decide) hp) ?_
    exact hτ2
  · exact hs

theorem execKilnStart_keeps (d : Desc) (mask : BitVec 16) (s : State) :
    ∃ τ, execKilnStart d mask s = .next τ ∧ Keeps [Part.fw, Part.hif, Part.ipl, Part.kln, Part.msix, Part.out, Part.pwr, Part.reg .hif, Part.reg .klnC, Part.reg .klnP, Part.reg .stk, Part.rings, Part.stk, Part.win] s τ := by
  refine Keeps.exec fun ps σ hp h => ?_
  unfold execKilnStart
  refine ⟨_, rfl, ?_⟩
  refine command_keeps _ _ _ _ _ _ ?_ (Keeps.sub (by decide) hp) ?_
  · intro χ1 τ2 hτ3
    refine bodyKilnStart_keeps _ _ _ _ (Keeps.sub (by decide) hp) ?_
    exact hτ3
  · exact h

theorem stopping_keeps {ps : List Part} {σ : State} (p : Nat) (s : State)
    (hp : ∀ q ∈ [Part.jobs, Part.kln, Part.msix, Part.out, Part.reg .klnP, Part.reg .stk, Part.rings, Part.stk], q ∈ ps) (h : Keeps ps σ s) : Keeps ps σ (stopping p s) := by
  unfold stopping
  refine Keeps.ite (fun _ => ?_) fun _ => ?_
  · refine returnCopies_keeps _ _ (Keeps.sub (by decide) hp) ?_
    refine setPlaneState_keeps _ _ _ (Keeps.sub (by decide) hp) ?_
    exact h
  · exact h

theorem bodyKilnStop_keeps {ps : List Part} {σ : State} (h : Hdr) (c : Instr) (mask : Nat) (s : State)
    (hp : ∀ p ∈ [Part.fw, Part.jobs, Part.kln, Part.msix, Part.out, Part.reg .klnP, Part.reg .stk, Part.rings, Part.stk], p ∈ ps) (hs : Keeps ps σ s) : Keeps ps σ (bodyKilnStop h c mask s) := by
  unfold bodyKilnStop
  extract_lets σ1
  refine Keeps.ite (fun _ => ?_) fun _ => ?_
  · refine ok_keeps _ _ _ (Keeps.sub (by decide) hp) ?_
    exact hs
  · refine Keeps.ite (fun _ => ?_) fun _ => ?_
    · refine fail_keeps _ _ _ (Keeps.sub (by decide) hp) ?_
      exact hs
    · refine parkAccepted_keeps _ _ _ _ _ (Keeps.sub (by decide) hp) ?_
      refine Keeps.foldl ?_ ?_
      · intro τ2 χ3 hτ4
        refine stopping_keeps _ _ (Keeps.sub (by decide) hp) ?_
        exact hτ4
      · exact hs

theorem execKilnStop_keeps (d : Desc) (mask : BitVec 16) (s : State) :
    ∃ τ, execKilnStop d mask s = .next τ ∧ Keeps [Part.fw, Part.jobs, Part.kln, Part.msix, Part.out, Part.reg .hif, Part.reg .klnP, Part.reg .stk, Part.rings, Part.stk] s τ := by
  refine Keeps.exec fun ps σ hp h => ?_
  unfold execKilnStop
  refine ⟨_, rfl, ?_⟩
  refine command_keeps _ _ _ _ _ _ ?_ (Keeps.sub (by decide) hp) ?_
  · intro χ1 τ2 hτ3
    refine bodyKilnStop_keeps _ _ _ _ (Keeps.sub (by decide) hp) ?_
    exact hτ3
  · exact h

theorem completeDone_keeps {ps : List Part} {σ : State} (seq : Nat) (kind : Instr → Bool) (result : State → Nat) (s : State)
    (hp : ∀ p ∈ [Part.fw, Part.msix, Part.out, Part.reg .stk, Part.rings, Part.stk], p ∈ ps) (h : Keeps ps σ s) : Keeps ps σ (completeDone seq kind result s) := by
  unfold completeDone
  split
  · refine Keeps.ite (fun _ => ?_) fun _ => ?_
    · refine complete_keeps _ _ _ _ (Keeps.sub (by decide) hp) ?_
      exact h
    · exact h
  · exact h

theorem execKilnStopDone_keeps (seq : Nat) (s : State) :
    ∃ τ, execKilnStopDone seq s = .next τ ∧ Keeps [Part.fw, Part.msix, Part.out, Part.reg .stk, Part.rings, Part.stk] s τ := by
  refine Keeps.exec fun ps σ hp h => ?_
  unfold execKilnStopDone
  refine ⟨_, rfl, ?_⟩
  refine completeDone_keeps _ _ _ _ (Keeps.sub (by decide) hp) ?_
  exact h

theorem execPressStatus_keeps (d : Desc) (s : State) :
    ∃ τ, execPressStatus d s = .next τ ∧ Keeps [Part.fw, Part.msix, Part.out, Part.reg .hif, Part.reg .stk, Part.rings, Part.stk] s τ := by
  refine Keeps.exec fun ps σ hp h => ?_
  unfold execPressStatus
  refine ⟨_, rfl, ?_⟩
  refine query_keeps _ _ _ _ _ ?_ (Keeps.sub (by decide) hp) ?_
  · intro χ1 τ2 hτ3
    refine ok_keeps _ _ _ (Keeps.sub (by decide) hp) ?_
    exact hτ3
  · exact h

theorem pinStep_keeps {ps : List Part} {σ : State} (k : Nat) (t0 : Nat) (fwd : Bool) (clean : Bool) (s : State)
    (hp : ∀ p ∈ [Part.cal, Part.clk, Part.clock, Part.crk, Part.entries, Part.free, Part.fw, Part.gln, Part.glz, Part.hif, Part.ipl, Part.jobs, Part.kln, Part.memory, Part.mot, Part.msix, Part.out, Part.pif, Part.ports, Part.reg .cal, Part.reg .hif, Part.reg .hlk, Part.reg .iplP, Part.reg .klnC, Part.reg .klnP, Part.reg .motA, Part.reg .pifCh, Part.reg .stk, Part.reg .tilC, Part.reg .tilE, Part.reg .tim, Part.reg .win, Part.rings, Part.sag, Part.stk, Part.thr, Part.til, Part.win], p ∈ ps) (h : Keeps ps σ s) : Keeps ps σ (pinStep k t0 fwd clean s) := by
  unfold pinStep
  extract_lets σ1 σ2 σ3 σ4 σ5 σ6
  have hσ3 : Keeps ps σ σ3 := by
    unfold σ3
    refine Keeps.ite (fun _ => ?_) fun _ => ?_
    · refine inc_keeps _ _ _ (Keeps.sub (by simp) hp) ?_
      exact h
    · exact h
  have hσ42 : Keeps ps σ σ4.2 := by
    unfold σ4
    refine drawIn_keeps _ _ _ (Keeps.sub (by decide) hp) ?_
    exact h
  have hσ52 : Keeps ps σ σ5.2 := by
    unfold σ5
    refine drawIn_keeps _ _ _ (Keeps.sub (by decide) hp) ?_
    exact hσ42
  have hσ6 : Keeps ps σ σ6 := by
    unfold σ6
    refine Keeps.ite (fun _ => ?_) fun _ => ?_
    · refine inc_keeps _ _ _ (Keeps.sub (by simp) hp) ?_
      exact hσ52
    · exact hσ52
  refine Keeps.ite (fun _ => ?_) fun _ => ?_
  · refine paceStep_keeps _ _ _ _ _ (Keeps.sub (by decide) hp) ?_
    exact hσ3
  · refine Keeps.ite (fun _ => ?_) fun _ => ?_
    · exact hσ6
    · refine paceStep_keeps _ _ _ _ _ (Keeps.sub (by decide) hp) ?_
      exact hσ6

theorem paceEdge_keeps {ps : List Part} {σ : State} (input : Nat) (t : Nat) (rising : Bool) (dir : Bool) (clean : Bool) (s : State)
    (hp : ∀ p ∈ [Part.cal, Part.clk, Part.clock, Part.crk, Part.entries, Part.free, Part.fw, Part.gln, Part.glz, Part.hif, Part.ipl, Part.jobs, Part.kln, Part.memory, Part.mot, Part.msix, Part.out, Part.pif, Part.ports, Part.reg .cal, Part.reg .hif, Part.reg .hlk, Part.reg .iplP, Part.reg .klnC, Part.reg .klnP, Part.reg .motA, Part.reg .pifCh, Part.reg .stk, Part.reg .tilC, Part.reg .tilE, Part.reg .tim, Part.reg .win, Part.rings, Part.sag, Part.stk, Part.thr, Part.til, Part.win], p ∈ ps) (h : Keeps ps σ s) : Keeps ps σ (paceEdge input t rising dir clean s) := by
  unfold paceEdge
  refine Keeps.foldl ?_ ?_
  · intro τ1 χ2 hτ3
    refine Keeps.ite (fun _ => ?_) fun _ => ?_
    · refine pinStep_keeps _ _ _ _ _ (Keeps.sub (by decide) hp) ?_
      exact hτ3
    · exact hτ3
  · refine stampStep_keeps _ _ (Keeps.sub (by decide) hp) ?_
    refine advanceTo_keeps _ _ (Keeps.sub (by decide) hp) ?_
    exact h

theorem execPaceStepEdge_keeps (input : Fin 2) (rising : Bool) (dir : Bool) (clean : Bool) (t : DWord) (s : State) :
    ∃ τ, execPaceStepEdge input rising dir clean t s = .next τ ∧ Keeps [Part.cal, Part.clk, Part.clock, Part.crk, Part.entries, Part.free, Part.fw, Part.gln, Part.glz, Part.hif, Part.ipl, Part.jobs, Part.kln, Part.memory, Part.mot, Part.msix, Part.out, Part.pif, Part.ports, Part.reg .cal, Part.reg .hif, Part.reg .hlk, Part.reg .iplP, Part.reg .klnC, Part.reg .klnP, Part.reg .motA, Part.reg .pifCh, Part.reg .stk, Part.reg .tilC, Part.reg .tilE, Part.reg .tim, Part.reg .win, Part.rings, Part.sag, Part.stk, Part.thr, Part.til, Part.win] s τ := by
  refine Keeps.exec fun ps σ hp h => ?_
  unfold execPaceStepEdge
  refine ⟨_, rfl, ?_⟩
  refine paceEdge_keeps _ _ _ _ _ _ (Keeps.sub (by decide) hp) ?_
  exact h

theorem lateSwap_keeps {ps : List Part} {σ : State} (h : Nat) (s : State)
    (hp : ∀ p ∈ [Part.msix, Part.out, Part.reg .hlk, Part.reg .stk, Part.rings, Part.stk], p ∈ ps) (hs : Keeps ps σ s) : Keeps ps σ (lateSwap h s) := by
  unfold lateSwap
  split
  · refine raiseIrq_keeps _ _ _ (Keeps.sub (by simp) hp) ?_
    refine event_keeps _ _ _ _ (Keeps.sub (by decide) hp) ?_
    refine inc_keeps _ _ _ (Keeps.sub (by simp) hp) ?_
    exact hs
  · exact hs

theorem sendDesc_keeps {ps : List Part} {σ : State} (h : Nat) (r : Nat) (act : Nat) (codes : List Nat) (s0 : State)
    (hp : ∀ p ∈ [Part.msix, Part.out, Part.ports, Part.reg .hlk, Part.reg .stk, Part.rings, Part.stk], p ∈ ps) (hs : Keeps ps σ s0) : Keeps ps σ (sendDesc h r act codes s0) := by
  unfold sendDesc
  extract_lets σ1 σ2 σ3 σ4 σ5 σ6
  have hσ3 : Keeps ps σ σ3 := by
    unfold σ3
    refine Keeps.ite (fun _ => ?_) fun _ => ?_
    · refine lateSwap_keeps _ _ (Keeps.sub (by decide) hp) ?_
      exact hs
    · exact hs
  refine Keeps.ite (fun _ => ?_) fun _ => ?_
  · refine updPort_keeps _ _ _ (Keeps.sub (by decide) hp) ?_
    exact hs
  · refine updPort_keeps _ _ _ (Keeps.sub (by decide) hp) ?_
    exact hσ3

theorem pulseLeft_keeps {ps : List Part} {σ : State} (h : Nat) (s : State)
    (hp : ∀ p ∈ [Part.msix, Part.out, Part.ports, Part.reg .hlk, Part.reg .stk, Part.rings, Part.stk], p ∈ ps) (hs : Keeps ps σ s) : Keeps ps σ (pulseLeft h s) := by
  unfold pulseLeft
  extract_lets σ1
  have hσ1 : Keeps ps σ σ1 := by
    unfold σ1
    refine updPort_keeps _ _ _ (Keeps.sub (by decide) hp) ?_
    exact hs
  split
  · refine sendDesc_keeps _ _ _ _ _ (Keeps.sub (by decide) hp) ?_
    refine updPort_keeps _ _ _ (Keeps.sub (by decide) hp) ?_
    exact hσ1
  · exact hσ1

theorem sendCodes_keeps {ps : List Part} {σ : State} (h : Nat) (r : Nat) (start : Nat) (codes : List Nat) (s : State)
    (hp : ∀ p ∈ [Part.msix, Part.out, Part.ports, Part.reg .hlk, Part.reg .stk, Part.rings, Part.stk], p ∈ ps) (hs : Keeps ps σ s) : Keeps ps σ (sendCodes h r start codes s) := by
  unfold sendCodes
  refine Keeps.ite (fun _ => ?_) fun _ => ?_
  · refine sendDesc_keeps _ _ _ _ _ (Keeps.sub (by decide) hp) ?_
    exact hs
  · refine emit_keeps _ _ (Keeps.sub (by decide) hp) ?_
    exact hs

theorem sheafShift_keeps {ps : List Part} {σ : State} (h : Nat) (t : Nat) (s : State)
    (hp : ∀ p ∈ [Part.clock, Part.kln, Part.msix, Part.out, Part.ports, Part.reg .hlk, Part.reg .klnC, Part.reg .stk, Part.reg .tim, Part.rings, Part.stk], p ∈ ps) (hs : Keeps ps σ s) : Keeps ps σ (sheafShift h t s) := by
  unfold sheafShift
  split
  · exact hs
  · split
    · exact hs
    · refine Keeps.ite (fun _ => ?_) fun _ => ?_
      · exact hs
      · extract_lets σ1 σ2 σ3 σ4 σ5
        have hσ1 : Keeps ps σ σ1 := by
          unfold σ1
          refine advanceTo_keeps _ _ (Keeps.sub (by decide) hp) ?_
          exact hs
        split
        · exact hs
        · extract_lets σ6 σ7 σ8
          have hσ6 : Keeps ps σ σ6 := by
            unfold σ6
            refine updRow_keeps _ _ _ _ (Keeps.sub (by decide) hp) ?_
            exact hσ1
          have hσ7 : Keeps ps σ σ7 := by
            unfold σ7
            refine wn_keeps _ _ _ (Keeps.sub (by simp) hp) ?_
            exact hσ6
          have hσ8 : Keeps ps σ σ8 := by
            unfold σ8
            refine updPort_keeps _ _ _ (Keeps.sub (by decide) hp) ?_
            exact hσ7
          refine sendCodes_keeps _ _ _ _ _ (Keeps.sub (by decide) hp) ?_
          exact hσ8

theorem execKilnSheafShift_keeps (head : Fin 64) (t : DWord) (s : State) :
    ∃ τ, execKilnSheafShift head t s = .next τ ∧ Keeps [Part.clock, Part.kln, Part.msix, Part.out, Part.ports, Part.reg .hlk, Part.reg .klnC, Part.reg .stk, Part.reg .tim, Part.rings, Part.stk] s τ := by
  refine Keeps.exec fun ps σ hp h => ?_
  unfold execKilnSheafShift
  refine ⟨_, rfl, ?_⟩
  refine sheafShift_keeps _ _ _ (Keeps.sub (by decide) hp) ?_
  exact h

theorem unfired_keeps {ps : List Part} {σ : State} (p : Nat) (h : Nat) (r : Nat) (x : Fill) (s : State)
    (hp : ∀ q ∈ [Part.kln], q ∈ ps) (hs : Keeps ps σ s) : Keeps ps σ (unfired p h r x s) := by
  unfold unfired
  extract_lets σ1 σ2 σ3 σ4
  refine winUntake_keeps _ _ _ _ _ _ (Keeps.sub (by decide) hp) ?_
  refine updRow_keeps _ _ _ _ (Keeps.sub (by decide) hp) ?_
  exact hs

theorem tripLine_keeps {ps : List Part} {σ : State} (p : Nat) (h : Nat) (r : Nat) (f : BitVec 32) (s : State)
    (hp : ∀ q ∈ [Part.kln, Part.win], q ∈ ps) (hs : Keeps ps σ s) : Keeps ps σ (tripLine p h r f s) := by
  unfold tripLine
  extract_lets σ1
  have hσ1 : Keeps ps σ σ1 := by
    unfold σ1
    split
    · refine unfired_keeps _ _ _ _ _ (Keeps.sub (by decide) hp) ?_
      exact hs
    · refine replaceLine_keeps _ _ _ _ _ _ (Keeps.sub (by decide) hp) ?_
      exact hs
  refine silentCodes_keeps _ _ _ _ _ (Keeps.sub (by decide) hp) ?_
  refine updRow_keeps _ _ _ _ (Keeps.sub (by decide) hp) ?_
  exact hσ1

theorem headLost_keeps {ps : List Part} {σ : State} (h : Nat) (s : State)
    (hp : ∀ p ∈ [Part.jobs, Part.kln, Part.msix, Part.out, Part.ports, Part.reg .klnC, Part.reg .klnP, Part.reg .stk, Part.rings, Part.stk, Part.win], p ∈ ps) (hs : Keeps ps σ s) : Keeps ps σ (headLost h s) := by
  unfold headLost
  split
  · exact hs
  · refine Keeps.ite (fun _ => ?_) fun _ => ?_
    · exact hs
    · refine Keeps.foldl ?_ ?_
      · intro τ1 χ2 hτ3
        extract_lets σ4 σ5 σ6
        have hσ5 : Keeps ps σ σ5 := by
          unfold σ5
          refine Keeps.foldl ?_ ?_
          · intro τ10 χ11 hτ12
            refine tripLine_keeps _ _ _ _ _ (Keeps.sub (by decide) hp) ?_
            refine countUnderrun_keeps _ _ _ _ _ _ (Keeps.sub (by decide) hp) ?_
            exact hτ12
          · exact hτ3
        have hσ6 : Keeps ps σ σ6 := by
          unfold σ6
          refine Keeps.foldl ?_ ?_
          · intro τ7 χ8 hτ9
            refine tripLine_keeps _ _ _ _ _ (Keeps.sub (by decide) hp) ?_
            exact hτ9
          · exact hσ5
        refine updRow_keeps _ _ _ _ (Keeps.sub (by decide) hp) ?_
        exact hσ6
      · refine updPort_keeps _ _ _ (Keeps.sub (by decide) hp) ?_
        exact hs

theorem sendUnderrun_keeps {ps : List Part} {σ : State} (h : Nat) (r : Nat) (t : Nat) (blank : Bool) (codes : List Nat) (s : State)
    (hp : ∀ p ∈ [Part.msix, Part.out, Part.ports, Part.reg .hlk, Part.reg .stk, Part.rings, Part.stk], p ∈ ps) (hs : Keeps ps σ s) : Keeps ps σ (sendUnderrun h r t blank codes s) := by
  unfold sendUnderrun
  refine Keeps.ite (fun _ => ?_) fun _ => ?_
  · refine sendDesc_keeps _ _ _ _ _ (Keeps.sub (by decide) hp) ?_
    exact hs
  · refine sendCodes_keeps _ _ _ _ _ (Keeps.sub (by decide) hp) ?_
    refine updPort_keeps _ _ _ (Keeps.sub (by decide) hp) ?_
    exact hs

theorem rowUnderrun_keeps {ps : List Part} {σ : State} (h : Nat) (r : Nat) (t : Nat) (s : State)
    (hp : ∀ p ∈ [Part.clock, Part.jobs, Part.kln, Part.msix, Part.out, Part.ports, Part.reg .hlk, Part.reg .klnC, Part.reg .klnP, Part.reg .stk, Part.reg .tim, Part.rings, Part.stk, Part.win], p ∈ ps) (hs : Keeps ps σ s) : Keeps ps σ (rowUnderrun h r t s) := by
  unfold rowUnderrun
  split
  · exact hs
  · extract_lets σ1 σ2 σ3 σ4 σ5 σ6
    have hσ4 : Keeps ps σ σ4 := by
      unfold σ4
      refine advanceTo_keeps _ _ (Keeps.sub (by decide) hp) ?_
      exact hs
    have hσ6 : Keeps ps σ σ6 := by
      unfold σ6
      refine declareUnderrun_keeps _ _ _ _ _ _ _ (Keeps.sub (by decide) hp) ?_
      exact hσ4
    refine Keeps.ite (fun _ => ?_) fun _ => ?_
    · exact hs
    · split
      · exact hs
      · extract_lets σ7
        refine Keeps.ite (fun _ => ?_) fun _ => ?_
        · exact hs
        · refine Keeps.ite (fun _ => ?_) fun _ => ?_
          · refine tripLine_keeps _ _ _ _ _ (Keeps.sub (by decide) hp) ?_
            exact hσ4
          · refine Keeps.ite (fun _ => ?_) fun _ => ?_
            · refine declareUnderrun_keeps _ _ _ _ _ _ _ (Keeps.sub (by decide) hp) ?_
              exact hσ4
            · refine sendUnderrun_keeps _ _ _ _ _ _ (Keeps.sub (by decide) hp) ?_
              exact hσ6

theorem execRowLineUnderrun_keeps (head : Fin 64) (row : Fin 4) (t : DWord) (s : State) :
    ∃ τ, execRowLineUnderrun head row t s = .next τ ∧ Keeps [Part.clock, Part.jobs, Part.kln, Part.msix, Part.out, Part.ports, Part.reg .hlk, Part.reg .klnC, Part.reg .klnP, Part.reg .stk, Part.reg .tim, Part.rings, Part.stk, Part.win] s τ := by
  refine Keeps.exec fun ps σ hp h => ?_
  unfold execRowLineUnderrun
  refine ⟨_, rfl, ?_⟩
  refine rowUnderrun_keeps _ _ _ _ (Keeps.sub (by decide) hp) ?_
  exact h

theorem fireEdge_keeps {ps : List Part} {σ : State} (h : Nat) (s : State)
    (hp : ∀ p ∈ [Part.clock, Part.kln, Part.msix, Part.out, Part.ports, Part.reg .hlk, Part.reg .klnP, Part.reg .stk, Part.reg .tim, Part.rings, Part.stk, Part.win], p ∈ ps) (hs : Keeps ps σ s) : Keeps ps σ (fireEdge h s) := by
  unfold fireEdge
  split
  · split
    · exact hs
    · refine Keeps.ite (fun _ => ?_) fun _ => ?_
      · exact hs
      · extract_lets σ1 σ2 σ3 σ4 σ5 σ6 σ7 σ8 σ9 σ10
        have hσ2 : Keeps ps σ σ2 := by
          unfold σ2
          refine Keeps.ite (fun _ => ?_) fun _ => ?_
          · refine inc_keeps _ _ _ (Keeps.sub (by simp) hp) ?_
            exact hs
          · exact hs
        have hσ7 : Keeps ps σ σ7 := by
          unfold σ7
          refine Keeps.ite (fun _ => ?_) fun _ => ?_
          · refine inc_keeps _ _ _ (Keeps.sub (by simp) hp) ?_
            exact hσ2
          · exact hσ2
        have hσ8 : Keeps ps σ σ8 := by
          unfold σ8
          refine emit_keeps _ _ (Keeps.sub (by decide) hp) ?_
          refine advanceTo_keeps _ _ (Keeps.sub (by decide) hp) ?_
          exact hσ7
        have hσ9 : Keeps ps σ σ9 := by
          unfold σ9
          refine updRow_keeps _ _ _ _ (Keeps.sub (by decide) hp) ?_
          refine updHead_keeps _ _ _ (Keeps.sub (by decide) hp) ?_
          exact hσ8
        have hσ10 : Keeps ps σ σ10 := by
          unfold σ10
          refine pulseLeft_keeps _ _ (Keeps.sub (by decide) hp) ?_
          exact hσ9
        refine Keeps.foldl ?_ ?_
        · intro τ11 χ12 hτ13
          refine winCode_keeps _ _ _ _ _ _ _ _ (Keeps.sub (by decide) hp) ?_
          exact hτ13
        · exact hσ10
  · exact hs

theorem execFireEdge_keeps (head : Fin 64) (s : State) :
    ∃ τ, execFireEdge head s = .next τ ∧ Keeps [Part.clock, Part.kln, Part.msix, Part.out, Part.ports, Part.reg .hlk, Part.reg .klnP, Part.reg .stk, Part.reg .tim, Part.rings, Part.stk, Part.win] s τ := by
  refine Keeps.exec fun ps σ hp h => ?_
  unfold execFireEdge
  refine ⟨_, rfl, ?_⟩
  refine fireEdge_keeps _ _ (Keeps.sub (by decide) hp) ?_
  exact h

theorem countFired_keeps {ps : List Part} {σ : State} (c : Option Nat) (bad : Bool) (s : State)
    (hp : ∀ p ∈ [Part.jobs], p ∈ ps) (h : Keeps ps σ s) : Keeps ps σ (countFired c bad s) := by
  unfold countFired
  split
  · refine updCopy_keeps _ _ _ (Keeps.sub (by decide) hp) ?_
    exact h
  · exact h

theorem compareWindow_keeps {ps : List Part} {σ : State} (p : Nat) (i : Nat) (s : State)
    (hp : ∀ q ∈ [Part.crk, Part.free, Part.glz, Part.jobs, Part.kln, Part.msix, Part.out, Part.reg .klnP, Part.reg .stk, Part.reg .win, Part.rings, Part.sag, Part.stk, Part.thr, Part.win], q ∈ ps) (h : Keeps ps σ s) : Keeps ps σ (compareWindow p i s) := by
  unfold compareWindow
  split
  · exact h
  · extract_lets σ1 σ2 σ3 σ4 σ5 σ6 σ7 σ8 σ9 σ10 σ11
    have hσ5 : Keeps ps σ σ5 := by
      unfold σ5
      refine wr_keeps _ _ _ (Keeps.sub (by simp) hp) ?_
      refine wr_keeps _ _ _ (Keeps.sub (by simp) hp) ?_
      exact h
    have hσ6 : Keeps ps σ σ6 := by
      unfold σ6
      refine countFired_keeps _ _ _ (Keeps.sub (by decide) hp) ?_
      refine updPlane_keeps _ _ _ (Keeps.sub (by decide) hp) ?_
      exact hσ5
    have hσ8 : Keeps ps σ σ8 := by
      unfold σ8
      refine Keeps.ite (fun _ => ?_) fun _ => ?_
      · refine wn_keeps _ _ _ (Keeps.sub (by simp) hp) ?_
        exact hσ6
      · exact hσ6
    have hσ11 : Keeps ps σ σ11 := by
      unfold σ11
      refine Keeps.ite (fun _ => ?_) fun _ => ?_
      · refine raiseIrq_keeps _ _ _ (Keeps.sub (by simp) hp) ?_
        refine event_keeps _ _ _ _ (Keeps.sub (by decide) hp) ?_
        refine flagCopy_keeps _ _ _ (Keeps.sub (by decide) hp) ?_
        refine inc_keeps _ _ _ (Keeps.sub (by simp) hp) ?_
        exact hσ8
      · exact hσ8
    refine Keeps.ite (fun _ => ?_) fun _ => ?_
    · exact h
    · split
      · refine settleFired_keeps _ _ (Keeps.sub (by decide) hp) ?_
        exact hσ11
      · exact hσ11

theorem execFiredWindowCompare_keeps (plane : Fin 16) (win : Fin 16) (s : State) :
    ∃ τ, execFiredWindowCompare plane win s = .next τ ∧ Keeps [Part.crk, Part.free, Part.glz, Part.jobs, Part.kln, Part.msix, Part.out, Part.reg .klnP, Part.reg .stk, Part.reg .win, Part.rings, Part.sag, Part.stk, Part.thr, Part.win] s τ := by
  refine Keeps.exec fun ps σ hp h => ?_
  unfold execFiredWindowCompare
  refine ⟨_, rfl, ?_⟩
  refine compareWindow_keeps _ _ _ (Keeps.sub (by decide) hp) ?_
  exact h

theorem markWrite_keeps {ps : List Part} {σ : State} (v : Word) (s : State)
    (hp : ∀ p ∈ [Part.kln, Part.reg .klnC], p ∈ ps) (h : Keeps ps σ s) : Keeps ps σ (markWrite v s) := by
  unfold markWrite
  extract_lets σ1 σ2
  have hσ1 : Keeps ps σ σ1 := by
    unfold σ1
    refine plainPut_keeps _ _ _ (Keeps.sub (by decide) hp) ?_
    exact h
  refine Keeps.set_kln (hp _ (by decide)) ?_
  exact hσ1

theorem execFrameMarkEnd_keeps (mark : Fin 4) (s : State) :
    ∃ τ, execFrameMarkEnd mark s = .next τ ∧ Keeps [Part.kln] s τ := by
  refine Keeps.exec fun ps σ hp h => ?_
  unfold execFrameMarkEnd
  refine ⟨_, rfl, ?_⟩
  refine Keeps.set_kln (hp _ (by decide)) ?_
  exact h

theorem pausePlane_keeps {ps : List Part} {σ : State} (k : Nat) (p : Nat) (since : Nat) (s : State)
    (hp : ∀ q ∈ [Part.ipl, Part.kln], q ∈ ps) (h : Keeps ps σ s) : Keeps ps σ (pausePlane k p since s) := by
  unfold pausePlane
  refine Keeps.ite (fun _ => ?_) fun _ => ?_
  · refine notePause_keeps _ _ (Keeps.sub (by decide) hp) ?_
    refine updPlane_keeps _ _ _ (Keeps.sub (by decide) hp) ?_
    exact h
  · exact h

theorem channelPause_keeps {ps : List Part} {σ : State} (k : Nat) (t : Nat) (s : State)
    (hp : ∀ p ∈ [Part.clock, Part.ipl, Part.kln, Part.msix, Part.out, Part.reg .klnC, Part.reg .stk, Part.reg .tim, Part.rings, Part.stk], p ∈ ps) (h : Keeps ps σ s) : Keeps ps σ (channelPause k t s) := by
  unfold channelPause
  extract_lets σ1 σ2 σ3 σ4
  have hσ2 : Keeps ps σ σ2 := by
    unfold σ2
    refine advanceTo_keeps _ _ (Keeps.sub (by decide) hp) ?_
    exact h
  have hσ3 : Keeps ps σ σ3 := by
    unfold σ3
    refine updChannel_keeps _ _ _ (Keeps.sub (by decide) hp) ?_
    exact hσ2
  have hσ4 : Keeps ps σ σ4 := by
    unfold σ4
    refine raiseIrq_keeps _ _ _ (Keeps.sub (by decide) hp) ?_
    refine event_keeps _ _ _ _ (Keeps.sub (by decide) hp) ?_
    refine inc_keeps _ _ _ (Keeps.sub (by simp) hp) ?_
    exact hσ3
  refine Keeps.ite (fun _ => ?_) fun _ => ?_
  · exact h
  · refine Keeps.foldl ?_ ?_
    · intro τ5 χ6 hτ7
      refine Keeps.ite (fun _ => ?_) fun _ => ?_
      · exact hτ7
      · refine pausePlane_keeps _ _ _ _ (Keeps.sub (by decide) hp) ?_
        exact hτ7
    · exact hσ4

theorem execChannelPause_keeps (ch : Fin 4) (t : DWord) (s : State) :
    ∃ τ, execChannelPause ch t s = .next τ ∧ Keeps [Part.clock, Part.ipl, Part.kln, Part.msix, Part.out, Part.reg .klnC, Part.reg .stk, Part.reg .tim, Part.rings, Part.stk] s τ := by
  refine Keeps.exec fun ps σ hp h => ?_
  unfold execChannelPause
  refine ⟨_, rfl, ?_⟩
  refine channelPause_keeps _ _ _ (Keeps.sub (by decide) hp) ?_
  exact h

theorem planePause_keeps {ps : List Part} {σ : State} (p : Nat) (t : Nat) (s : State)
    (hp : ∀ q ∈ [Part.clock, Part.ipl, Part.kln, Part.msix, Part.out, Part.reg .stk, Part.reg .tim, Part.rings, Part.stk], q ∈ ps) (h : Keeps ps σ s) : Keeps ps σ (planePause p t s) := by
  unfold planePause
  extract_lets σ1 σ2
  refine Keeps.ite (fun _ => ?_) fun _ => ?_
  · exact h
  · refine pausePlane_keeps _ _ _ _ (Keeps.sub (by decide) hp) ?_
    refine advanceTo_keeps _ _ (Keeps.sub (by decide) hp) ?_
    exact h

theorem execPlanePause_keeps (plane : Fin 16) (t : DWord) (s : State) :
    ∃ τ, execPlanePause plane t s = .next τ ∧ Keeps [Part.clock, Part.ipl, Part.kln, Part.msix, Part.out, Part.reg .stk, Part.reg .tim, Part.rings, Part.stk] s τ := by
  refine Keeps.exec fun ps σ hp h => ?_
  unfold execPlanePause
  refine ⟨_, rfl, ?_⟩
  refine planePause_keeps _ _ _ (Keeps.sub (by decide) hp) ?_
  exact h

theorem loadAndFire_keeps {ps : List Part} {σ : State} (h : Nat) (r : Nat) (codes : List Nat) (s : State)
    (hp : ∀ p ∈ [Part.kln, Part.msix, Part.out, Part.ports, Part.reg .hlk, Part.reg .stk, Part.rings, Part.stk], p ∈ ps) (hs : Keeps ps σ s) : Keeps ps σ (loadAndFire h r codes s) := by
  unfold loadAndFire
  extract_lets σ1 σ2 σ3 σ4 σ5 σ6
  have hσ4 : Keeps ps σ σ4 := by
    unfold σ4
    refine sendCodes_keeps _ _ _ _ _ (Keeps.sub (by decide) hp) ?_
    refine updPort_keeps _ _ _ (Keeps.sub (by decide) hp) ?_
    exact hs
  have hσ5 : Keeps ps σ σ5 := by
    unfold σ5
    refine updHead_keeps _ _ _ (Keeps.sub (by decide) hp) ?_
    refine emit_keeps _ _ (Keeps.sub (by decide) hp) ?_
    exact hσ4
  have hσ6 : Keeps ps σ σ6 := by
    unfold σ6
    refine updRow_keeps _ _ _ _ (Keeps.sub (by decide) hp) ?_
    exact hσ5
  refine pulseLeft_keeps _ _ (Keeps.sub (by decide) hp) ?_
  exact hσ6

theorem tickleHead_keeps {ps : List Part} {σ : State} (h : Nat) (s : State)
    (hp : ∀ p ∈ [Part.kln, Part.msix, Part.out, Part.ports, Part.reg .hlk, Part.reg .stk, Part.reg .tilE, Part.rings, Part.stk], p ∈ ps) (hs : Keeps ps σ s) : Keeps ps σ (tickleHead h s) := by
  unfold tickleHead
  refine Keeps.foldl ?_ ?_
  · intro τ1 χ2 hτ3
    extract_lets σ4
    refine loadAndFire_keeps _ _ _ _ (Keeps.sub (by decide) hp) ?_
    refine Keeps.foldl ?_ ?_
    · intro τ5 χ6 hτ7
      refine Keeps.ite (fun _ => ?_) fun _ => ?_
      · refine inc64_keeps _ _ _ (Keeps.sub (by simp) hp) ?_
        exact hτ7
      · exact hτ7
    · exact hτ3
  · exact hs

theorem pauseTickle_keeps {ps : List Part} {σ : State} (p : Nat) (t : Nat) (s : State)
    (hp : ∀ q ∈ [Part.clock, Part.kln, Part.msix, Part.out, Part.ports, Part.reg .hlk, Part.reg .stk, Part.reg .tilE, Part.reg .tim, Part.rings, Part.stk], q ∈ ps) (h : Keeps ps σ s) : Keeps ps σ (pauseTickle p t s) := by
  unfold pauseTickle
  extract_lets σ1 σ2 σ3
  have hσ3 : Keeps ps σ σ3 := by
    unfold σ3
    refine updPlane_keeps _ _ _ (Keeps.sub (by decide) hp) ?_
    refine advanceTo_keeps _ _ (Keeps.sub (by decide) hp) ?_
    exact h
  refine Keeps.ite (fun _ => ?_) fun _ => ?_
  · exact h
  · refine Keeps.foldl ?_ ?_
    · intro τ4 χ5 hτ6
      refine Keeps.ite (fun _ => ?_) fun _ => ?_
      · refine tickleHead_keeps _ _ (Keeps.sub (by decide) hp) ?_
        exact hτ6
      · exact hτ6
    · exact hσ3

theorem execPauseTickle_keeps (plane : Fin 16) (t : DWord) (s : State) :
    ∃ τ, execPauseTickle plane t s = .next τ ∧ Keeps [Part.clock, Part.kln, Part.msix, Part.out, Part.ports, Part.reg .hlk, Part.reg .stk, Part.reg .tilE, Part.reg .tim, Part.rings, Part.stk] s τ := by
  refine Keeps.exec fun ps σ hp h => ?_
  unfold execPauseTickle
  refine ⟨_, rfl, ?_⟩
  refine pauseTickle_keeps _ _ _ (Keeps.sub (by decide) hp) ?_
  exact h

theorem pauseSpoil_keeps {ps : List Part} {σ : State} (p : Nat) (t : Nat) (s : State)
    (hp : ∀ q ∈ [Part.clock, Part.jobs, Part.kln, Part.msix, Part.out, Part.reg .klnP, Part.reg .stk, Part.reg .tim, Part.rings, Part.stk], q ∈ ps) (h : Keeps ps σ s) : Keeps ps σ (pauseSpoil p t s) := by
  unfold pauseSpoil
  extract_lets σ1 σ2 σ3
  have hσ3 : Keeps ps σ σ3 := by
    unfold σ3
    refine updPlane_keeps _ _ _ (Keeps.sub (by decide) hp) ?_
    refine advanceTo_keeps _ _ (Keeps.sub (by decide) hp) ?_
    exact h
  refine Keeps.ite (fun _ => ?_) fun _ => ?_
  · exact h
  · split
    · refine inc_keeps _ _ _ (Keeps.sub (by simp) hp) ?_
      refine marCopy_keeps _ _ _ _ (Keeps.sub (by decide) hp) ?_
      exact hσ3
    · exact hσ3

theorem execPauseSpoil_keeps (plane : Fin 16) (t : DWord) (s : State) :
    ∃ τ, execPauseSpoil plane t s = .next τ ∧ Keeps [Part.clock, Part.jobs, Part.kln, Part.msix, Part.out, Part.reg .klnP, Part.reg .stk, Part.reg .tim, Part.rings, Part.stk] s τ := by
  refine Keeps.exec fun ps σ hp h => ?_
  unfold execPauseSpoil
  refine ⟨_, rfl, ?_⟩
  refine pauseSpoil_keeps _ _ _ (Keeps.sub (by decide) hp) ?_
  exact h

theorem updTrip_keeps {ps : List Part} {σ : State} (i : Nat) (f : Trip → Trip) (s : State)
    (hp : ∀ p ∈ [Part.kln], p ∈ ps) (h : Keeps ps σ s) : Keeps ps σ (updTrip i f s) := by
  unfold updTrip
  refine Keeps.set_kln (hp _ (by decide)) ?_
  exact h

theorem tripPlane_keeps {ps : List Part} {σ : State} (p : Nat) (s : State)
    (hp : ∀ q ∈ [Part.jobs, Part.kln, Part.msix, Part.out, Part.ports, Part.reg .klnP, Part.reg .stk, Part.rings, Part.stk, Part.win], q ∈ ps) (h : Keeps ps σ s) : Keeps ps σ (tripPlane p s) := by
  unfold tripPlane
  refine Keeps.ite (fun _ => ?_) fun _ => ?_
  · extract_lets σ1
    have hσ1 : Keeps ps σ σ1 := by
      unfold σ1
      refine stopping_keeps _ _ (Keeps.sub (by decide) hp) ?_
      refine marCopy_keeps _ _ _ _ (Keeps.sub (by decide) hp) ?_
      exact h
    refine Keeps.foldl ?_ ?_
    · intro τ2 χ3 hτ4
      refine Keeps.foldl ?_ ?_
      · intro τ5 χ6 hτ7
        extract_lets σ8
        refine Keeps.foldl ?_ ?_
        · intro τ9 χ10 hτ11
          refine tripLine_keeps _ _ _ _ _ (Keeps.sub (by decide) hp) ?_
          exact hτ11
        · refine updRow_keeps _ _ _ _ (Keeps.sub (by decide) hp) ?_
          exact hτ7
      · refine updPort_keeps _ _ _ (Keeps.sub (by decide) hp) ?_
        exact hτ4
    · exact hσ1
  · exact h

theorem tripEnables_keeps {ps : List Part} {σ : State} (s : State)
    (hp : ∀ p ∈ [Part.fw, Part.msix, Part.out, Part.pwr, Part.reg .stk, Part.rings, Part.stk], p ∈ ps) (h : Keeps ps σ s) : Keeps ps σ (tripEnables s) := by
  unfold tripEnables
  extract_lets σ1
  refine Keeps.foldl ?_ ?_
  · intro τ2 χ3 hτ4
    refine completeSeq_keeps _ _ _ _ (Keeps.sub (by decide) hp) ?_
    refine withdrawCmd_keeps _ _ (Keeps.sub (by decide) hp) ?_
    exact hτ4
  · exact h

theorem tripSegments_keeps {ps : List Part} {σ : State} (mask : Nat) (s : State)
    (hp : ∀ p ∈ [Part.crk, Part.ports], p ∈ ps) (h : Keeps ps σ s) : Keeps ps σ (tripSegments mask s) := by
  unfold tripSegments
  refine Keeps.foldl ?_ ?_
  · intro τ1 χ2 hτ3
    split
    · refine Keeps.ite (fun _ => ?_) fun _ => ?_
      · refine headOff_keeps _ _ (Keeps.sub (by decide) hp) ?_
        exact hτ3
      · exact hτ3
    · exact hτ3
  · exact h

theorem tripAxes_keeps {ps : List Part} {σ : State} (i : Nat) (s : State)
    (hp : ∀ p ∈ [Part.fw, Part.mot, Part.msix, Part.out, Part.reg .motA, Part.reg .stk, Part.rings, Part.stk], p ∈ ps) (h : Keeps ps σ s) : Keeps ps σ (tripAxes i s) := by
  unfold tripAxes
  refine Keeps.foldl ?_ ?_
  · intro τ1 χ2 hτ3
    refine Keeps.ite (fun _ => ?_) fun _ => ?_
    · refine Keeps.foldl ?_ ?_
      · intro τ4 χ5 hτ6
        refine fail_keeps _ _ _ (Keeps.sub (by decide) hp) ?_
        exact hτ6
      · refine tripAxis_keeps _ _ (Keeps.sub (by decide) hp) ?_
        exact hτ3
    · exact hτ3
  · exact h

theorem setTrip_keeps {ps : List Part} {σ : State} (i : Nat) (t : Nat) (s : State)
    (hp : ∀ p ∈ [Part.clock, Part.crk, Part.fw, Part.jobs, Part.kln, Part.mot, Part.msix, Part.out, Part.ports, Part.pwr, Part.reg .klnC, Part.reg .klnP, Part.reg .motA, Part.reg .stk, Part.reg .tim, Part.rings, Part.stk, Part.win], p ∈ ps) (h : Keeps ps σ s) : Keeps ps σ (setTrip i t s) := by
  unfold setTrip
  extract_lets σ1 σ2 σ3 σ4 σ5
  have hσ1 : Keeps ps σ σ1 := by
    unfold σ1
    refine updTrip_keeps _ _ _ (Keeps.sub (by decide) hp) ?_
    refine advanceTo_keeps _ _ (Keeps.sub (by decide) hp) ?_
    exact h
  have hσ2 : Keeps ps σ σ2 := by
    unfold σ2
    refine inc_keeps _ _ _ (Keeps.sub (by simp) hp) ?_
    refine updTrip_keeps _ _ _ (Keeps.sub (by decide) hp) ?_
    exact hσ1
  have hσ4 : Keeps ps σ σ4 := by
    unfold σ4
    refine raiseIrq_keeps _ _ _ (Keeps.sub (by decide) hp) ?_
    refine raiseAlarm_keeps _ _ _ _ (Keeps.sub (by decide) hp) ?_
    exact hσ2
  have hσ5 : Keeps ps σ σ5 := by
    unfold σ5
    refine Keeps.foldl ?_ ?_
    · intro τ6 χ7 hτ8
      refine tripPlane_keeps _ _ (Keeps.sub (by decide) hp) ?_
      exact hτ8
    · exact hσ4
  refine Keeps.ite (fun _ => ?_) fun _ => ?_
  · exact hσ1
  · refine tripAxes_keeps _ _ (Keeps.sub (by decide) hp) ?_
    refine tripEnables_keeps _ (Keeps.sub (by decide) hp) ?_
    refine tripSegments_keeps _ _ (Keeps.sub (by decide) hp) ?_
    exact hσ5

theorem tripInput_keeps {ps : List Part} {σ : State} (i : Nat) (t : Nat) (low : Bool) (s : State)
    (hp : ∀ p ∈ [Part.clock, Part.crk, Part.fw, Part.jobs, Part.kln, Part.mot, Part.msix, Part.out, Part.ports, Part.pwr, Part.reg .klnC, Part.reg .klnP, Part.reg .motA, Part.reg .stk, Part.reg .tim, Part.rings, Part.stk, Part.win], p ∈ ps) (h : Keeps ps σ s) : Keeps ps σ (tripInput i t low s) := by
  unfold tripInput
  refine Keeps.ite (fun _ => ?_) fun _ => ?_
  · refine setTrip_keeps _ _ _ (Keeps.sub (by decide) hp) ?_
    exact h
  · refine updTrip_keeps _ _ _ (Keeps.sub (by decide) hp) ?_
    refine advanceTo_keeps _ _ (Keeps.sub (by decide) hp) ?_
    exact h

theorem execTripInput_keeps (input : Fin 4) (low : Bool) (t : DWord) (s : State) :
    ∃ τ, execTripInput input low t s = .next τ ∧ Keeps [Part.clock, Part.crk, Part.fw, Part.jobs, Part.kln, Part.mot, Part.msix, Part.out, Part.ports, Part.pwr, Part.reg .klnC, Part.reg .klnP, Part.reg .motA, Part.reg .stk, Part.reg .tim, Part.rings, Part.stk, Part.win] s τ := by
  refine Keeps.exec fun ps σ hp h => ?_
  unfold execTripInput
  refine ⟨_, rfl, ?_⟩
  refine tripInput_keeps _ _ _ _ (Keeps.sub (by decide) hp) ?_
  exact h

theorem tripClear_keeps {ps : List Part} {σ : State} (v : Word) (s : State)
    (hp : ∀ p ∈ [Part.kln, Part.msix, Part.out, Part.reg .klnC], p ∈ ps) (h : Keeps ps σ s) : Keeps ps σ (tripClear v s) := by
  unfold tripClear
  refine Keeps.foldl ?_ ?_
  · intro τ1 χ2 hτ3
    refine Keeps.ite (fun _ => ?_) fun _ => ?_
    · exact hτ3
    · refine Keeps.ite (fun _ => ?_) fun _ => ?_
      · refine updTrip_keeps _ _ _ (Keeps.sub (by decide) hp) ?_
        exact hτ3
      · refine recordErr_keeps _ _ _ (Keeps.sub (by decide) hp) ?_
        refine updTrip_keeps _ _ _ (Keeps.sub (by decide) hp) ?_
        exact hτ3
  · exact h

theorem execKlnTripClear_keeps (ini : Initiator) (val : Word) (s : State) :
    ∃ τ, execKlnTripClear ini val s = .next τ ∧ Keeps [Part.kln, Part.msix, Part.out, Part.reg .hif, Part.reg .klnC] s τ := by
  refine Keeps.exec fun ps σ hp h => ?_
  unfold execKlnTripClear
  refine ⟨_, rfl, ?_⟩
  refine guardWrite_keeps _ _ _ _ _ _ ?_ (Keeps.sub (by decide) hp) ?_
  · intro χ1 τ2 hτ3
    refine tripClear_keeps _ _ (Keeps.sub (by decide) hp) ?_
    exact hτ3
  · exact h

theorem applyArm_keeps {ps : List Part} {σ : State} (p : Nat) (v : Word) (s : State)
    (hp : ∀ q ∈ [Part.cal, Part.crk, Part.entries, Part.fw, Part.gln, Part.glz, Part.ipl, Part.jobs, Part.kln, Part.msix, Part.out, Part.ports, Part.reg .cal, Part.reg .hlk, Part.reg .klnP, Part.reg .stk, Part.reg .tilC, Part.reg .tilE, Part.rings, Part.stk, Part.thr, Part.til], q ∈ ps) (h : Keeps ps σ s) : Keeps ps σ (applyArm p v s) := by
  unfold applyArm
  extract_lets σ1
  have hσ1 : Keeps ps σ σ1 := by
    unfold σ1
    refine plainPut_keeps _ _ _ (Keeps.sub (by simp) hp) ?_
    exact h
  refine Keeps.ite (fun _ => ?_) fun _ => ?_
  · exact hσ1
  · refine idleTables_keeps _ _ (Keeps.sub (by decide) hp) ?_
    refine Keeps.foldl_frame ?_ ?_
    · intro τ2 χ3 hκ4 hτ5
      refine idleLatch_keeps _ _ (Keeps.sub (by rcases hκ4 with hκ4 | hκ4 | hκ4 <;> rw [hκ4] <;> decide) hp) ?_
      exact hτ5
    · exact hσ1

theorem execApplyArmWrite_keeps (ini : Initiator) (plane : Fin 16) (val : Word) (s : State) :
    ∃ τ, execApplyArmWrite ini plane val s = .next τ ∧ Keeps [Part.cal, Part.crk, Part.entries, Part.fw, Part.gln, Part.glz, Part.ipl, Part.jobs, Part.kln, Part.msix, Part.out, Part.ports, Part.reg .cal, Part.reg .hif, Part.reg .hlk, Part.reg .klnP, Part.reg .stk, Part.reg .tilC, Part.reg .tilE, Part.rings, Part.stk, Part.thr, Part.til] s τ := by
  refine Keeps.exec fun ps σ hp h => ?_
  unfold execApplyArmWrite
  refine ⟨_, rfl, ?_⟩
  refine guardWrite_keeps _ _ _ _ _ _ ?_ (Keeps.sub (by simp) hp) ?_
  · intro χ1 τ2 hτ3
    refine applyArm_keeps _ _ _ (Keeps.sub (by decide) hp) ?_
    exact hτ3
  · exact h

end Sys2Proof.Machine
end

