-- ==== Sys2Proof/Laws/KeepsHeadLink.lean ====
section
/-! SUPPORT. What the operations of Machine/HeadLink.lean change, and what they keep. -/

namespace Sys2Proof.Machine
open Sys2Proof

theorem forwardFrame_keeps {ps : List Part} {σ : State} (h : Nat) (s : State)
    (hp : ∀ p ∈ [Part.out, Part.ports], p ∈ ps) (hs : Keeps ps σ s) : Keeps ps σ (forwardFrame h s) := by
  unfold forwardFrame
  extract_lets σ1 σ2 σ3
  refine Keeps.ite (fun _ => ?_) fun _ => ?_
  · refine emit_keeps _ _ (Keeps.sub (by decide) hp) ?_
    refine putPort_keeps _ _ _ (Keeps.sub (by decide) hp) ?_
    exact hs
  · exact hs

theorem execHlkForwardFrame_keeps (head : Fin 64) (s : State) :
    ∃ τ, execHlkForwardFrame head s = .next τ ∧ Keeps [Part.out, Part.ports] s τ := by
  refine Keeps.exec fun ps σ hp h => ?_
  unfold execHlkForwardFrame
  refine ⟨_, rfl, ?_⟩
  refine forwardFrame_keeps _ _ (Keeps.sub (by decide) hp) ?_
  exact h

theorem headFault_keeps {ps : List Part} {σ : State} (h : Nat) (cause : Nat) (s : State)
    (hp : ∀ p ∈ [Part.crk, Part.jobs, Part.kln, Part.msix, Part.out, Part.ports, Part.reg .hlk, Part.reg .klnC, Part.reg .klnP, Part.reg .stk, Part.rings, Part.stk, Part.win], p ∈ ps) (hs : Keeps ps σ s) : Keeps ps σ (headFault h cause s) := by
  unfold headFault
  refine Keeps.ite (fun _ => ?_) fun _ => ?_
  · exact hs
  · extract_lets σ1
    have hσ1 : Keeps ps σ σ1 := by
      unfold σ1
      refine headLost_keeps _ _ (Keeps.sub (by decide) hp) ?_
      refine updPort_keeps _ _ _ (Keeps.sub (by decide) hp) ?_
      refine headOff_keeps _ _ (Keeps.sub (by decide) hp) ?_
      exact hs
    refine raiseIrq_keeps _ _ _ (Keeps.sub (by simp) hp) ?_
    refine raiseAlarm_keeps _ _ _ _ (Keeps.sub (by decide) hp) ?_
    exact hσ1

theorem postLink_keeps {ps : List Part} {σ : State} (h : Nat) (old : Nat) (new : Nat) (cause : Nat) (s : State)
    (hp : ∀ p ∈ [Part.msix, Part.out, Part.reg .hlk, Part.reg .stk, Part.rings, Part.stk], p ∈ ps) (hs : Keeps ps σ s) : Keeps ps σ (postLink h old new cause s) := by
  unfold postLink
  refine raiseIrq_keeps _ _ _ (Keeps.sub (by simp) hp) ?_
  refine event_keeps _ _ _ _ (Keeps.sub (by decide) hp) ?_
  exact hs

theorem setLink_keeps {ps : List Part} {σ : State} (h : Nat) (l : Link) (cause : Nat) (s : State)
    (hp : ∀ p ∈ [Part.crk, Part.jobs, Part.kln, Part.msix, Part.out, Part.ports, Part.reg .hlk, Part.reg .klnC, Part.reg .klnP, Part.reg .stk, Part.rings, Part.stk, Part.win], p ∈ ps) (hs : Keeps ps σ s) : Keeps ps σ (setLink h l cause s) := by
  unfold setLink
  extract_lets σ1 σ2 σ3
  have hσ2 : Keeps ps σ σ2 := by
    unfold σ2
    refine postLink_keeps _ _ _ _ _ (Keeps.sub (by decide) hp) ?_
    refine updPort_keeps _ _ _ (Keeps.sub (by decide) hp) ?_
    exact hs
  have hσ3 : Keeps ps σ σ3 := by
    unfold σ3
    refine Keeps.ite (fun _ => ?_) fun _ => ?_
    · refine headLost_keeps _ _ (Keeps.sub (by decide) hp) ?_
      exact hσ2
    · exact hσ2
  refine Keeps.ite (fun _ => ?_) fun _ => ?_
  · exact hs
  · refine Keeps.ite (fun _ => ?_) fun _ => ?_
    · refine headFault_keeps _ _ _ (Keeps.sub (by decide) hp) ?_
      exact hσ3
    · exact hσ3

theorem drawScr_keeps {ps : List Part} {σ : State} (s : State)
    (hp : ∀ p ∈ [Part.free], p ∈ ps) (h : Keeps ps σ s) : Keeps ps σ (drawScr s).2 := by
  unfold drawScr
  extract_lets σ1
  have hσ12 : Keeps ps σ σ1.2 := by
    unfold σ1
    refine draw_keeps _ _ (Keeps.sub (by decide) hp) ?_
    exact h
  refine Keeps.snd ?_
  exact hσ12

theorem train_keeps {ps : List Part} {σ : State} (h : Nat) (l : Link) (cause : Nat) (s : State)
    (hp : ∀ p ∈ [Part.crk, Part.free, Part.jobs, Part.kln, Part.msix, Part.out, Part.ports, Part.reg .hlk, Part.reg .klnC, Part.reg .klnP, Part.reg .stk, Part.rings, Part.stk, Part.win], p ∈ ps) (hs : Keeps ps σ s) : Keeps ps σ (train h l cause s) := by
  unfold train
  extract_lets σ1 σ2
  have hσ12 : Keeps ps σ σ1.2 := by
    unfold σ1
    refine drawScr_keeps _ (Keeps.sub (by decide) hp) ?_
    exact hs
  have hσ22 : Keeps ps σ σ2.2 := by
    unfold σ2
    refine drawScr_keeps _ (Keeps.sub (by decide) hp) ?_
    exact hσ12
  refine setLink_keeps _ _ _ _ (Keeps.sub (by decide) hp) ?_
  refine updPort_keeps _ _ _ (Keeps.sub (by decide) hp) ?_
  exact hσ22

theorem retrain_keeps {ps : List Part} {σ : State} (h : Nat) (cause : Nat) (s : State)
    (hp : ∀ p ∈ [Part.crk, Part.free, Part.jobs, Part.kln, Part.msix, Part.out, Part.ports, Part.reg .hlk, Part.reg .klnC, Part.reg .klnP, Part.reg .stk, Part.rings, Part.stk, Part.win], p ∈ ps) (hs : Keeps ps σ s) : Keeps ps σ (retrain h cause s) := by
  unfold retrain
  split
  · refine train_keeps _ _ _ _ (Keeps.sub (by decide) hp) ?_
    refine inc_keeps _ _ _ (Keeps.sub (by simp) hp) ?_
    exact hs
  · refine train_keeps _ _ _ _ (Keeps.sub (by decide) hp) ?_
    exact hs
  · refine train_keeps _ _ _ _ (Keeps.sub (by decide) hp) ?_
    exact hs
  · exact hs

theorem linkUp_keeps {ps : List Part} {σ : State} (h : Nat) (s : State)
    (hp : ∀ p ∈ [Part.crk, Part.jobs, Part.kln, Part.msix, Part.out, Part.ports, Part.reg .hlk, Part.reg .klnC, Part.reg .klnP, Part.reg .stk, Part.rings, Part.stk, Part.win], p ∈ ps) (hs : Keeps ps σ s) : Keeps ps σ (linkUp h s) := by
  unfold linkUp
  refine setLink_keeps _ _ _ _ (Keeps.sub (by decide) hp) ?_
  refine updPort_keeps _ _ _ (Keeps.sub (by decide) hp) ?_
  exact hs

theorem portRefresh_keeps {ps : List Part} {σ : State} (h : Nat) (s : State)
    (hp : ∀ p ∈ [Part.crk, Part.free, Part.jobs, Part.kln, Part.msix, Part.out, Part.ports, Part.reg .hlk, Part.reg .klnC, Part.reg .klnP, Part.reg .stk, Part.rings, Part.stk, Part.win], p ∈ ps) (hs : Keeps ps σ s) : Keeps ps σ (portRefresh h s) := by
  unfold portRefresh
  extract_lets σ1
  clear_value σ1
  split
  · refine train_keeps _ _ _ _ (Keeps.sub (by decide) hp) ?_
    exact hs
  · refine train_keeps _ _ _ _ (Keeps.sub (by decide) hp) ?_
    exact hs
  · exact hs
  · exact hs
  · refine setLink_keeps _ _ _ _ (Keeps.sub (by decide) hp) ?_
    exact hs
  · refine setLink_keeps _ _ _ _ (Keeps.sub (by decide) hp) ?_
    exact hs
  · exact hs
  · refine setLink_keeps _ _ _ _ (Keeps.sub (by decide) hp) ?_
    refine updPort_keeps _ _ _ (Keeps.sub (by decide) hp) ?_
    exact hs

theorem hlkCtrlWrite_keeps {ps : List Part} {σ : State} (h : Nat) (v : Word) (s : State)
    (hp : ∀ p ∈ [Part.crk, Part.free, Part.jobs, Part.kln, Part.msix, Part.out, Part.ports, Part.reg .hlk, Part.reg .klnC, Part.reg .klnP, Part.reg .stk, Part.rings, Part.stk, Part.win], p ∈ ps) (hs : Keeps ps σ s) : Keeps ps σ (hlkCtrlWrite h v s) := by
  unfold hlkCtrlWrite
  extract_lets σ1 σ2 σ3
  have hσ3 : Keeps ps σ σ3 := by
    unfold σ3
    refine plainPut_keeps _ _ _ (Keeps.sub (by simp) hp) ?_
    exact hs
  refine Keeps.ite (fun _ => ?_) fun _ => ?_
  · refine recordErr_keeps _ _ _ (Keeps.sub (by simp) hp) ?_
    exact hs
  · refine portRefresh_keeps _ _ (Keeps.sub (by decide) hp) ?_
    refine Keeps.ite (fun _ => ?_) fun _ => ?_
    · refine retrain_keeps _ _ _ (Keeps.sub (by decide) hp) ?_
      exact hσ3
    · exact hσ3

theorem execHlkRetrainWrite_keeps (ini : Initiator) (head : Fin 64) (val : Word) (s : State) :
    ∃ τ, execHlkRetrainWrite ini head val s = .next τ ∧ Keeps [Part.crk, Part.free, Part.jobs, Part.kln, Part.msix, Part.out, Part.ports, Part.reg .hif, Part.reg .hlk, Part.reg .klnC, Part.reg .klnP, Part.reg .stk, Part.rings, Part.stk, Part.win] s τ := by
  refine Keeps.exec fun ps σ hp h => ?_
  unfold execHlkRetrainWrite
  refine ⟨_, rfl, ?_⟩
  refine guardWrite_keeps _ _ _ _ _ _ ?_ (Keeps.sub (by simp) hp) ?_
  · intro χ1 τ2 hτ3
    refine hlkCtrlWrite_keeps _ _ _ (Keeps.sub (by decide) hp) ?_
    exact hτ3
  · exact h

theorem faultClear_keeps {ps : List Part} {σ : State} (h : Nat) (v : Word) (s : State)
    (hp : ∀ p ∈ [Part.msix, Part.out, Part.ports, Part.reg .hlk], p ∈ ps) (hs : Keeps ps σ s) : Keeps ps σ (faultClear h v s) := by
  unfold faultClear
  extract_lets σ1
  have hσ1 : Keeps ps σ σ1 := by
    unfold σ1
    refine Keeps.ite (fun _ => ?_) fun _ => ?_
    · refine updPort_keeps _ _ _ (Keeps.sub (by decide) hp) ?_
      exact hs
    · exact hs
  refine Keeps.ite (fun _ => ?_) fun _ => ?_
  · refine Keeps.ite (fun _ => ?_) fun _ => ?_
    · refine recordErr_keeps _ _ _ (Keeps.sub (by simp) hp) ?_
      refine updPort_keeps _ _ _ (Keeps.sub (by decide) hp) ?_
      exact hσ1
    · refine updPort_keeps _ _ _ (Keeps.sub (by decide) hp) ?_
      exact hσ1
  · exact hσ1

theorem execHlkFaultClear_keeps (ini : Initiator) (head : Fin 64) (val : Word) (s : State) :
    ∃ τ, execHlkFaultClear ini head val s = .next τ ∧ Keeps [Part.msix, Part.out, Part.ports, Part.reg .hif, Part.reg .hlk] s τ := by
  refine Keeps.exec fun ps σ hp h => ?_
  unfold execHlkFaultClear
  refine ⟨_, rfl, ?_⟩
  refine guardWrite_keeps _ _ _ _ _ _ ?_ (Keeps.sub (by simp) hp) ?_
  · intro χ1 τ2 hτ3
    refine faultClear_keeps _ _ _ (Keeps.sub (by decide) hp) ?_
    exact hτ3
  · exact h

theorem rxGood_keeps {ps : List Part} {σ : State} (h : Nat) (s : State)
    (hp : ∀ p ∈ [Part.ports], p ∈ ps) (hs : Keeps ps σ s) : Keeps ps σ (rxGood h s) := by
  unfold rxGood
  refine updPort_keeps _ _ _ (Keeps.sub (by decide) hp) ?_
  exact hs

theorem message_keeps {ps : List Part} {σ : State} (h : Nat) (op : State → State) (s : State)
    (h_op : ∀ (t : State), Keeps ps σ t → Keeps ps σ (op t))
    (hp : ∀ p ∈ [Part.ports], p ∈ ps) (hs : Keeps ps σ s) : Keeps ps σ (message h op s) := by
  unfold message
  extract_lets σ1 σ2
  have hσ2 : Keeps ps σ σ2 := by
    unfold σ2
    refine rxGood_keeps _ _ (Keeps.sub (by decide) hp) ?_
    exact hs
  refine Keeps.ite (fun _ => ?_) fun _ => ?_
  · refine Keeps.ite (fun _ => ?_) fun _ => ?_
    · refine h_op _ ?_
      exact hσ2
    · exact hσ2
  · exact hs

theorem markerFound_keeps {ps : List Part} {σ : State} (h : Nat) (ofs : Nat) (s : State)
    (hp : ∀ p ∈ [Part.ports], p ∈ ps) (hs : Keeps ps σ s) : Keeps ps σ (markerFound h ofs s) := by
  unfold markerFound
  extract_lets σ1
  refine Keeps.ite (fun _ => ?_) fun _ => ?_
  · refine putPort_keeps _ _ _ (Keeps.sub (by decide) hp) ?_
    exact hs
  · exact hs

theorem execHlkRxMarkerFound_keeps (head : Fin 64) (ofs : BitVec 9) (s : State) :
    ∃ τ, execHlkRxMarkerFound head ofs s = .next τ ∧ Keeps [Part.ports] s τ := by
  refine Keeps.exec fun ps σ hp h => ?_
  unfold execHlkRxMarkerFound
  refine ⟨_, rfl, ?_⟩
  refine markerFound_keeps _ _ _ (Keeps.sub (by decide) hp) ?_
  exact h

theorem frameGood_keeps {ps : List Part} {σ : State} (h : Nat) (s : State)
    (hp : ∀ p ∈ [Part.ports], p ∈ ps) (hs : Keeps ps σ s) : Keeps ps σ (frameGood h s) := by
  unfold frameGood
  extract_lets σ1
  refine Keeps.ite (fun _ => ?_) fun _ => ?_
  · exact hs
  · refine Keeps.ite (fun _ => ?_) fun _ => ?_
    · refine putPort_keeps _ _ _ (Keeps.sub (by decide) hp) ?_
      exact hs
    · refine Keeps.ite (fun _ => ?_) fun _ => ?_
      · refine rxGood_keeps _ _ (Keeps.sub (by decide) hp) ?_
        exact hs
      · exact hs

theorem execHlkRxFrameGood_keeps (head : Fin 64) (s : State) :
    ∃ τ, execHlkRxFrameGood head s = .next τ ∧ Keeps [Part.ports] s τ := by
  refine Keeps.exec fun ps σ hp h => ?_
  unfold execHlkRxFrameGood
  refine ⟨_, rfl, ?_⟩
  refine frameGood_keeps _ _ (Keeps.sub (by decide) hp) ?_
  exact h

theorem frameBad_keeps {ps : List Part} {σ : State} (h : Nat) (s : State)
    (hp : ∀ p ∈ [Part.crk, Part.free, Part.jobs, Part.kln, Part.msix, Part.out, Part.ports, Part.reg .hlk, Part.reg .klnC, Part.reg .klnP, Part.reg .stk, Part.rings, Part.stk, Part.win], p ∈ ps) (hs : Keeps ps σ s) : Keeps ps σ (frameBad h s) := by
  unfold frameBad
  extract_lets σ1 σ2 σ3
  have hσ2 : Keeps ps σ σ2 := by
    unfold σ2
    refine inc_keeps _ _ _ (Keeps.sub (by simp) hp) ?_
    refine putPort_keeps _ _ _ (Keeps.sub (by decide) hp) ?_
    exact hs
  have hσ3 : Keeps ps σ σ3 := by
    unfold σ3
    refine inc_keeps _ _ _ (Keeps.sub (by simp) hp) ?_
    refine updPort_keeps _ _ _ (Keeps.sub (by decide) hp) ?_
    exact hσ2
  refine Keeps.ite (fun _ => ?_) fun _ => ?_
  · exact hs
  · refine Keeps.ite (fun _ => ?_) fun _ => ?_
    · refine putPort_keeps _ _ _ (Keeps.sub (by decide) hp) ?_
      exact hs
    · refine Keeps.ite (fun _ => ?_) fun _ => ?_
      · refine Keeps.ite (fun _ => ?_) fun _ => ?_
        · refine Keeps.ite (fun _ => ?_) fun _ => ?_
          · refine retrain_keeps _ _ _ (Keeps.sub (by decide) hp) ?_
            exact hσ3
          · exact hσ3
        · exact hσ2
      · exact hs

theorem execHlkRxFrameBad_keeps (head : Fin 64) (s : State) :
    ∃ τ, execHlkRxFrameBad head s = .next τ ∧ Keeps [Part.crk, Part.free, Part.jobs, Part.kln, Part.msix, Part.out, Part.ports, Part.reg .hlk, Part.reg .klnC, Part.reg .klnP, Part.reg .stk, Part.rings, Part.stk, Part.win] s τ := by
  refine Keeps.exec fun ps σ hp h => ?_
  unfold execHlkRxFrameBad
  refine ⟨_, rfl, ?_⟩
  refine frameBad_keeps _ _ (Keeps.sub (by decide) hp) ?_
  exact h

theorem rxSync_keeps {ps : List Part} {σ : State} (h : Nat) (scr : BitVec 23) (s : State)
    (hp : ∀ p ∈ [Part.ports, Part.reg .hlk], p ∈ ps) (hs : Keeps ps σ s) : Keeps ps σ (rxSync h scr s) := by
  unfold rxSync
  extract_lets σ1 σ2 σ3
  have hσ2 : Keeps ps σ σ2 := by
    unfold σ2
    refine rxGood_keeps _ _ (Keeps.sub (by decide) hp) ?_
    exact hs
  have hσ3 : Keeps ps σ σ3 := by
    unfold σ3
    refine updPort_keeps _ _ _ (Keeps.sub (by decide) hp) ?_
    exact hσ2
  refine Keeps.ite (fun _ => ?_) fun _ => ?_
  · refine Keeps.ite (fun _ => ?_) fun _ => ?_
    · refine inc_keeps _ _ _ (Keeps.sub (by simp) hp) ?_
      exact hσ3
    · exact hσ3
  · exact hs

theorem execHlkRxSync_keeps (head : Fin 64) (scr : BitVec 23) (s : State) :
    ∃ τ, execHlkRxSync head scr s = .next τ ∧ Keeps [Part.ports, Part.reg .hlk] s τ := by
  refine Keeps.exec fun ps σ hp h => ?_
  unfold execHlkRxSync
  refine ⟨_, rfl, ?_⟩
  refine rxSync_keeps _ _ _ (Keeps.sub (by decide) hp) ?_
  exact h

theorem statusPg_keeps {ps : List Part} {σ : State} (h : Nat) (pg : Bool) (s : State)
    (hp : ∀ p ∈ [Part.crk, Part.fw, Part.jobs, Part.kln, Part.msix, Part.out, Part.ports, Part.reg .hlk, Part.reg .klnC, Part.reg .klnP, Part.reg .stk, Part.rings, Part.stk, Part.win], p ∈ ps) (hs : Keeps ps σ s) : Keeps ps σ (statusPg h pg s) := by
  unfold statusPg
  extract_lets σ1 σ2
  have hσ2 : Keeps ps σ σ2 := by
    unfold σ2
    refine putPort_keeps _ _ _ (Keeps.sub (by decide) hp) ?_
    exact hs
  refine Keeps.ite (fun _ => ?_) fun _ => ?_
  · refine Keeps.ite (fun _ => ?_) fun _ => ?_
    · refine noteArrival_keeps _ _ (Keeps.sub (by decide) hp) ?_
      refine putPort_keeps _ _ _ (Keeps.sub (by decide) hp) ?_
      exact hs
    · exact hs
  · refine Keeps.ite (fun _ => ?_) fun _ => ?_
    · refine headFault_keeps _ _ _ (Keeps.sub (by decide) hp) ?_
      exact hσ2
    · exact hσ2

theorem rxStatus_keeps {ps : List Part} {σ : State} (h : Nat) (pg : Bool) (ready : Bool) (good : Bool) (crc : Nat) (miss : Nat) (s : State)
    (hp : ∀ p ∈ [Part.crk, Part.free, Part.fw, Part.jobs, Part.kln, Part.msix, Part.out, Part.ports, Part.reg .hlk, Part.reg .klnC, Part.reg .klnP, Part.reg .stk, Part.rings, Part.stk, Part.win], p ∈ ps) (hs : Keeps ps σ s) : Keeps ps σ (rxStatus h pg ready good crc miss s) := by
  unfold rxStatus
  extract_lets σ1 σ2
  have hσ1 : Keeps ps σ σ1 := by
    unfold σ1
    refine wn_keeps _ _ _ (Keeps.sub (by simp) hp) ?_
    refine updPort_keeps _ _ _ (Keeps.sub (by decide) hp) ?_
    exact hs
  have hσ2 : Keeps ps σ σ2 := by
    unfold σ2
    refine statusPg_keeps _ _ _ (Keeps.sub (by decide) hp) ?_
    exact hσ1
  split
  · refine Keeps.ite (fun _ => ?_) fun _ => ?_
    · exact hσ2
    · refine retrain_keeps _ _ _ (Keeps.sub (by decide) hp) ?_
      exact hσ2
  · refine Keeps.ite (fun _ => ?_) fun _ => ?_
    · refine linkUp_keeps _ _ (Keeps.sub (by decide) hp) ?_
      exact hσ2
    · exact hσ2
  · refine Keeps.ite (fun _ => ?_) fun _ => ?_
    · refine linkUp_keeps _ _ (Keeps.sub (by decide) hp) ?_
      exact hσ2
    · exact hσ2
  · exact hσ2

theorem execHlkRxStatus_keeps (head : Fin 64) (pg : Bool) (ready : Bool) (lock : BitVec 2) (descr : BitVec 2) (crc : BitVec 16) (miss : BitVec 16) (t : DWord) (s : State) :
    ∃ τ, execHlkRxStatus head pg ready lock descr crc miss t s = .next τ ∧ Keeps [Part.clock, Part.crk, Part.free, Part.fw, Part.jobs, Part.kln, Part.msix, Part.out, Part.ports, Part.reg .hlk, Part.reg .klnC, Part.reg .klnP, Part.reg .stk, Part.reg .tim, Part.rings, Part.stk, Part.win] s τ := by
  refine Keeps.exec fun ps σ hp h => ?_
  unfold execHlkRxStatus
  refine ⟨_, rfl, ?_⟩
  refine message_keeps _ _ _ ?_ (Keeps.sub (by decide) hp) ?_
  · intro τ1 hτ2
    refine rxStatus_keeps _ _ _ _ _ _ _ (Keeps.sub (by decide) hp) ?_
    exact hτ2
  · refine advanceTo_keeps _ _ (Keeps.sub (by decide) hp) ?_
    exact h

theorem rxTemp_keeps {ps : List Part} {σ : State} (h : Nat) (temps : Nat) (valid : Nat) (s : State)
    (hp : ∀ p ∈ [Part.msix, Part.out, Part.ports, Part.reg .hlk, Part.reg .stk, Part.rings, Part.stk], p ∈ ps) (hs : Keeps ps σ s) : Keeps ps σ (rxTemp h temps valid s) := by
  unfold rxTemp
  extract_lets σ1 σ2 σ3 σ4 σ5 σ6
  have hσ3 : Keeps ps σ σ3 := by
    unfold σ3
    refine updPort_keeps _ _ _ (Keeps.sub (by decide) hp) ?_
    exact hs
  split
  · refine Keeps.ite (fun _ => ?_) fun _ => ?_
    · refine raiseIrq_keeps _ _ _ (Keeps.sub (by simp) hp) ?_
      refine event_keeps _ _ _ _ (Keeps.sub (by decide) hp) ?_
      refine updPort_keeps _ _ _ (Keeps.sub (by decide) hp) ?_
      exact hσ3
    · exact hσ3
  · refine Keeps.ite (fun _ => ?_) fun _ => ?_
    · refine updPort_keeps _ _ _ (Keeps.sub (by decide) hp) ?_
      exact hσ3
    · exact hσ3

theorem execHlkRxTemp_keeps (head : Fin 64) (temps : BitVec 128) (valid : BitVec 8) (s : State) :
    ∃ τ, execHlkRxTemp head temps valid s = .next τ ∧ Keeps [Part.msix, Part.out, Part.ports, Part.reg .hlk, Part.reg .stk, Part.rings, Part.stk] s τ := by
  refine Keeps.exec fun ps σ hp h => ?_
  unfold execHlkRxTemp
  refine ⟨_, rfl, ?_⟩
  refine message_keeps _ _ _ ?_ (Keeps.sub (by decide) hp) ?_
  · intro τ1 hτ2
    refine rxTemp_keeps _ _ _ _ (Keeps.sub (by decide) hp) ?_
    exact hτ2
  · exact h

theorem rxFault_keeps {ps : List Part} {σ : State} (h : Nat) (code : Nat) (row : Nat) (detail : Nat) (s : State)
    (hp : ∀ p ∈ [Part.msix, Part.out, Part.reg .hlk, Part.reg .stk, Part.rings, Part.stk], p ∈ ps) (hs : Keeps ps σ s) : Keeps ps σ (rxFault h code row detail s) := by
  unfold rxFault
  refine raiseIrq_keeps _ _ _ (Keeps.sub (by simp) hp) ?_
  refine event_keeps _ _ _ _ (Keeps.sub (by decide) hp) ?_
  refine wn_keeps _ _ _ (Keeps.sub (by simp) hp) ?_
  exact hs

theorem execHlkRxFault_keeps (head : Fin 64) (code : BitVec 8) (row : BitVec 2) (detail : BitVec 16) (s : State) :
    ∃ τ, execHlkRxFault head code row detail s = .next τ ∧ Keeps [Part.msix, Part.out, Part.ports, Part.reg .hlk, Part.reg .stk, Part.rings, Part.stk] s τ := by
  refine Keeps.exec fun ps σ hp h => ?_
  unfold execHlkRxFault
  refine ⟨_, rfl, ?_⟩
  refine message_keeps _ _ _ ?_ (Keeps.sub (by decide) hp) ?_
  · intro τ1 hτ2
    refine rxFault_keeps _ _ _ _ _ (Keeps.sub (by decide) hp) ?_
    exact hτ2
  · exact h

theorem rxAck_keeps {ps : List Part} {σ : State} (h : Nat) (bank : Nat) (good : Bool) (s : State)
    (hp : ∀ p ∈ [Part.ports], p ∈ ps) (hs : Keeps ps σ s) : Keeps ps σ (rxAck h bank good s) := by
  unfold rxAck
  extract_lets σ1
  refine Keeps.ite (fun _ => ?_) fun _ => ?_
  · refine Keeps.ite (fun _ => ?_) fun _ => ?_
    · exact hs
    · refine putPort_keeps _ _ _ (Keeps.sub (by decide) hp) ?_
      exact hs
  · refine putPort_keeps _ _ _ (Keeps.sub (by decide) hp) ?_
    exact hs

theorem execHlkRxAck_keeps (head : Fin 64) (bank : Bool) (good : Bool) (s : State) :
    ∃ τ, execHlkRxAck head bank good s = .next τ ∧ Keeps [Part.ports] s τ := by
  refine Keeps.exec fun ps σ hp h => ?_
  unfold execHlkRxAck
  refine ⟨_, rfl, ?_⟩
  refine message_keeps _ _ _ ?_ (Keeps.sub (by decide) hp) ?_
  · intro τ1 hτ2
    refine rxAck_keeps _ _ _ _ (Keeps.sub (by decide) hp) ?_
    exact hτ2
  · exact h

theorem trainTimeout_keeps {ps : List Part} {σ : State} (h : Nat) (s : State)
    (hp : ∀ p ∈ [Part.crk, Part.free, Part.jobs, Part.kln, Part.msix, Part.out, Part.ports, Part.reg .hlk, Part.reg .klnC, Part.reg .klnP, Part.reg .stk, Part.rings, Part.stk, Part.win], p ∈ ps) (hs : Keeps ps σ s) : Keeps ps σ (trainTimeout h s) := by
  unfold trainTimeout
  extract_lets σ1
  refine Keeps.ite (fun _ => ?_) fun _ => ?_
  · refine train_keeps _ _ _ _ (Keeps.sub (by decide) hp) ?_
    refine postLink_keeps _ _ _ _ _ (Keeps.sub (by decide) hp) ?_
    exact hs
  · exact hs

theorem execHlkTrainTimeout_keeps (head : Fin 64) (s : State) :
    ∃ τ, execHlkTrainTimeout head s = .next τ ∧ Keeps [Part.crk, Part.free, Part.jobs, Part.kln, Part.msix, Part.out, Part.ports, Part.reg .hlk, Part.reg .klnC, Part.reg .klnP, Part.reg .stk, Part.rings, Part.stk, Part.win] s τ := by
  refine Keeps.exec fun ps σ hp h => ?_
  unfold execHlkTrainTimeout
  refine ⟨_, rfl, ?_⟩
  refine trainTimeout_keeps _ _ (Keeps.sub (by decide) hp) ?_
  exact h

theorem rxTimeout_keeps {ps : List Part} {σ : State} (h : Nat) (s : State)
    (hp : ∀ p ∈ [Part.crk, Part.free, Part.jobs, Part.kln, Part.msix, Part.out, Part.ports, Part.reg .hlk, Part.reg .klnC, Part.reg .klnP, Part.reg .stk, Part.rings, Part.stk, Part.win], p ∈ ps) (hs : Keeps ps σ s) : Keeps ps σ (rxTimeout h s) := by
  unfold rxTimeout
  refine Keeps.ite (fun _ => ?_) fun _ => ?_
  · refine retrain_keeps _ _ _ (Keeps.sub (by decide) hp) ?_
    refine updPort_keeps _ _ _ (Keeps.sub (by decide) hp) ?_
    exact hs
  · exact hs

theorem execHlkRxTimeout_keeps (head : Fin 64) (s : State) :
    ∃ τ, execHlkRxTimeout head s = .next τ ∧ Keeps [Part.crk, Part.free, Part.jobs, Part.kln, Part.msix, Part.out, Part.ports, Part.reg .hlk, Part.reg .klnC, Part.reg .klnP, Part.reg .stk, Part.rings, Part.stk, Part.win] s τ := by
  refine Keeps.exec fun ps σ hp h => ?_
  unfold execHlkRxTimeout
  refine ⟨_, rfl, ?_⟩
  refine rxTimeout_keeps _ _ (Keeps.sub (by decide) hp) ?_
  exact h

theorem fltInput_keeps {ps : List Part} {σ : State} (h : Nat) (t : Nat) (low : Bool) (s : State)
    (hp : ∀ p ∈ [Part.clock, Part.crk, Part.jobs, Part.kln, Part.msix, Part.out, Part.ports, Part.reg .hlk, Part.reg .klnC, Part.reg .klnP, Part.reg .stk, Part.reg .tim, Part.rings, Part.stk, Part.win], p ∈ ps) (hs : Keeps ps σ s) : Keeps ps σ (fltInput h t low s) := by
  unfold fltInput
  extract_lets σ1 σ2
  have hσ1 : Keeps ps σ σ1 := by
    unfold σ1
    refine advanceTo_keeps _ _ (Keeps.sub (by decide) hp) ?_
    exact hs
  have hσ2 : Keeps ps σ σ2 := by
    unfold σ2
    refine updPort_keeps _ _ _ (Keeps.sub (by decide) hp) ?_
    exact hσ1
  refine Keeps.ite (fun _ => ?_) fun _ => ?_
  · refine Keeps.ite (fun _ => ?_) fun _ => ?_
    · refine headFault_keeps _ _ _ (Keeps.sub (by decide) hp) ?_
      exact hσ2
    · exact hσ2
  · refine updPort_keeps _ _ _ (Keeps.sub (by decide) hp) ?_
    exact hσ1

theorem execHlkFltNFault_keeps (head : Fin 64) (low : Bool) (t : DWord) (s : State) :
    ∃ τ, execHlkFltNFault head low t s = .next τ ∧ Keeps [Part.clock, Part.crk, Part.jobs, Part.kln, Part.msix, Part.out, Part.ports, Part.reg .hlk, Part.reg .klnC, Part.reg .klnP, Part.reg .stk, Part.reg .tim, Part.rings, Part.stk, Part.win] s τ := by
  refine Keeps.exec fun ps σ hp h => ?_
  unfold execHlkFltNFault
  refine ⟨_, rfl, ?_⟩
  refine fltInput_keeps _ _ _ _ (Keeps.sub (by decide) hp) ?_
  exact h

theorem pgDelay_keeps {ps : List Part} {σ : State} (h : Nat) (t : Nat) (s : State)
    (hp : ∀ p ∈ [Part.clock, Part.fw, Part.msix, Part.out, Part.ports, Part.reg .stk, Part.reg .tim, Part.rings, Part.stk], p ∈ ps) (hs : Keeps ps σ s) : Keeps ps σ (pgDelay h t s) := by
  unfold pgDelay
  extract_lets σ1 σ2
  refine Keeps.ite (fun _ => ?_) fun _ => ?_
  · refine noteArrival_keeps _ _ (Keeps.sub (by decide) hp) ?_
    refine updPort_keeps _ _ _ (Keeps.sub (by decide) hp) ?_
    refine advanceTo_keeps _ _ (Keeps.sub (by decide) hp) ?_
    exact hs
  · exact hs

theorem execHlkPgDelayExpire_keeps (head : Fin 64) (t : DWord) (s : State) :
    ∃ τ, execHlkPgDelayExpire head t s = .next τ ∧ Keeps [Part.clock, Part.fw, Part.msix, Part.out, Part.ports, Part.reg .stk, Part.reg .tim, Part.rings, Part.stk] s τ := by
  refine Keeps.exec fun ps σ hp h => ?_
  unfold execHlkPgDelayExpire
  refine ⟨_, rfl, ?_⟩
  refine pgDelay_keeps _ _ _ (Keeps.sub (by decide) hp) ?_
  exact h

end Sys2Proof.Machine
end

