-- ==== Sys2Proof/Laws/KeepsPosition.lean ====
section
/-! SUPPORT. What the operations of Machine/Position.lean change, and what they keep. -/

namespace Sys2Proof.Machine
open Sys2Proof

theorem channelAngle_keeps {ps : List Part} {σ : State} (s : Int) (k : Int) (st : State)
    (hp : ∀ p ∈ [Part.free], p ∈ ps) (h : Keeps ps σ st) : Keeps ps σ (channelAngle s k st).2 := by
  unfold channelAngle
  split
  · extract_lets σ1
    have hσ12 : Keeps ps σ σ1.2 := by
      unfold σ1
      refine drawIn_keeps _ _ _ (Keeps.sub (by decide) hp) ?_
      exact h
    refine Keeps.snd ?_
    exact hσ12
  · extract_lets σ2
    have hσ22 : Keeps ps σ σ2.2 := by
      unfold σ2
      refine draw_keeps _ _ (Keeps.sub (by decide) hp) ?_
      exact h
    refine Keeps.snd ?_
    exact hσ22

theorem pifDirection_keeps {ps : List Part} {σ : State} (c : Nat) (s : State)
    (hp : ∀ p ∈ [Part.msix, Part.out, Part.pif, Part.reg .pifCh, Part.reg .stk, Part.rings, Part.stk], p ∈ ps) (h : Keeps ps σ s) : Keeps ps σ (pifDirection c s) := by
  unfold pifDirection
  extract_lets σ1 σ2 σ3 σ4
  have hσ4 : Keeps ps σ σ4 := by
    unfold σ4
    refine updPif_keeps _ _ _ (Keeps.sub (by decide) hp) ?_
    exact h
  refine Keeps.ite (fun _ => ?_) fun _ => ?_
  · refine raiseIrq_keeps _ _ _ (Keeps.sub (by simp) hp) ?_
    refine event_keeps _ _ _ _ (Keeps.sub (by decide) hp) ?_
    refine wf_keeps _ _ _ _ _ (Keeps.sub (by simp) hp) ?_
    exact hσ4
  · refine Keeps.ite (fun _ => ?_) fun _ => ?_
    · refine updPif_keeps _ _ _ (Keeps.sub (by decide) hp) ?_
      exact h
    · exact h

theorem pifVelocity_keeps {ps : List Part} {σ : State} (c : Nat) (s : State)
    (hp : ∀ p ∈ [Part.pif], p ∈ ps) (h : Keeps ps σ s) : Keeps ps σ (pifVelocity c s) := by
  unfold pifVelocity
  extract_lets σ1
  refine updPif_keeps _ _ _ (Keeps.sub (by decide) hp) ?_
  exact h

theorem encoderBad_keeps {ps : List Part} {σ : State} (c : Nat) (s : State)
    (hp : ∀ p ∈ [Part.kln], p ∈ ps) (h : Keeps ps σ s) : Keeps ps σ (encoderBad c s) := by
  unfold encoderBad
  refine Keeps.foldl ?_ ?_
  · intro τ1 χ2 hτ3
    refine Keeps.ite (fun _ => ?_) fun _ => ?_
    · refine updPlane_keeps _ _ _ (Keeps.sub (by decide) hp) ?_
      exact hτ3
    · exact hτ3
  · exact h

theorem pifLatch_keeps {ps : List Part} {σ : State} (c : Nat) (bit : Nat) (code : Nat) (payload : List Byte) (s : State)
    (hp : ∀ p ∈ [Part.kln, Part.msix, Part.out, Part.reg .pifCh, Part.reg .stk, Part.rings, Part.stk], p ∈ ps) (h : Keeps ps σ s) : Keeps ps σ (pifLatch c bit code payload s) := by
  unfold pifLatch
  refine Keeps.ite (fun _ => ?_) fun _ => ?_
  · exact h
  · refine raiseIrq_keeps _ _ _ (Keeps.sub (by simp) hp) ?_
    refine event_keeps _ _ _ _ (Keeps.sub (by decide) hp) ?_
    refine encoderBad_keeps _ _ (Keeps.sub (by decide) hp) ?_
    refine wf_keeps _ _ _ _ _ (Keeps.sub (by simp) hp) ?_
    exact h

theorem pifMissing_keeps {ps : List Part} {σ : State} (c : Nat) (s : State)
    (hp : ∀ p ∈ [Part.msix, Part.out, Part.pif, Part.reg .pifCh, Part.reg .stk, Part.rings, Part.stk], p ∈ ps) (h : Keeps ps σ s) : Keeps ps σ (pifMissing c s) := by
  unfold pifMissing
  extract_lets σ1 σ2
  split
  · refine Keeps.ite (fun _ => ?_) fun _ => ?_
    · exact h
    · extract_lets σ3 σ4
      refine Keeps.foldl ?_ ?_
      · intro τ5 χ6 hτ7
        refine raiseIrq_keeps _ _ _ (Keeps.sub (by simp) hp) ?_
        refine event_keeps _ _ _ _ (Keeps.sub (by decide) hp) ?_
        refine inc_keeps _ _ _ (Keeps.sub (by simp) hp) ?_
        refine updPif_keeps _ _ _ (Keeps.sub (by decide) hp) ?_
        exact hτ7
      · exact h
  · exact h

theorem encoderMove_keeps {ps : List Part} {σ : State} (k : Nat) (d : Int) (s : State)
    (hp : ∀ p ∈ [Part.free], p ∈ ps) (h : Keeps ps σ s) : Keeps ps σ (encoderMove k d s).2 := by
  unfold encoderMove
  extract_lets σ1 σ2
  have hσ22 : Keeps ps σ σ2.2 := by
    unfold σ2
    refine draw_keeps _ _ (Keeps.sub (by decide) hp) ?_
    exact h
  refine Keeps.ite_snd (fun _ => ?_) fun _ => ?_
  · refine Keeps.snd ?_
    exact hσ22
  · exact h

theorem pifSteps_keeps {ps : List Part} {σ : State} (c : Nat) (t : Nat) (d : Int) (s : State)
    (hp : ∀ p ∈ [Part.cal, Part.clk, Part.clock, Part.crk, Part.entries, Part.free, Part.fw, Part.gln, Part.glz, Part.hif, Part.ipl, Part.jobs, Part.kln, Part.memory, Part.mot, Part.msix, Part.out, Part.pif, Part.ports, Part.reg .cal, Part.reg .hif, Part.reg .hlk, Part.reg .iplP, Part.reg .klnC, Part.reg .klnP, Part.reg .motA, Part.reg .pifCh, Part.reg .stk, Part.reg .tilC, Part.reg .tilE, Part.reg .tim, Part.reg .win, Part.rings, Part.sag, Part.stk, Part.thr, Part.til, Part.win], p ∈ ps) (h : Keeps ps σ s) : Keeps ps σ (pifSteps c t d s) := by
  unfold pifSteps
  refine Keeps.ite (fun _ => ?_) fun _ => ?_
  · exact h
  · refine Keeps.foldl ?_ ?_
    · intro τ1 χ2 hτ3
      refine Keeps.ite (fun _ => ?_) fun _ => ?_
      · extract_lets σ4
        have hσ42 : Keeps ps σ σ4.2 := by
          unfold σ4
          refine encoderMove_keeps _ _ _ (Keeps.sub (by decide) hp) ?_
          exact hτ3
        refine paceStep_keeps _ _ _ _ _ (Keeps.sub (by decide) hp) ?_
        exact hσ42
      · exact hτ3
    · exact h

theorem pifFollow_keeps {ps : List Part} {σ : State} (c : Nat) (s : State)
    (hp : ∀ p ∈ [Part.mot, Part.msix, Part.out, Part.reg .motA, Part.reg .stk, Part.rings, Part.stk], p ∈ ps) (h : Keeps ps σ s) : Keeps ps σ (pifFollow c s) := by
  unfold pifFollow
  refine Keeps.foldl ?_ ?_
  · intro τ1 χ2 hτ3
    refine Keeps.ite (fun _ => ?_) fun _ => ?_
    · refine unhome_keeps _ _ (Keeps.sub (by decide) hp) ?_
      refine latchAxis_keeps _ _ _ (Keeps.sub (by decide) hp) ?_
      exact hτ3
    · exact hτ3
  · exact h

theorem pifMove_keeps {ps : List Part} {σ : State} (c : Nat) (t : Nat) (d : Int) (s : State)
    (hp : ∀ p ∈ [Part.cal, Part.clk, Part.clock, Part.crk, Part.entries, Part.free, Part.fw, Part.gln, Part.glz, Part.hif, Part.ipl, Part.jobs, Part.kln, Part.memory, Part.mot, Part.msix, Part.out, Part.pif, Part.ports, Part.reg .cal, Part.reg .hif, Part.reg .hlk, Part.reg .iplP, Part.reg .klnC, Part.reg .klnP, Part.reg .motA, Part.reg .pifCh, Part.reg .stk, Part.reg .tilC, Part.reg .tilE, Part.reg .tim, Part.reg .win, Part.rings, Part.sag, Part.stk, Part.thr, Part.til, Part.win], p ∈ ps) (h : Keeps ps σ s) : Keeps ps σ (pifMove c t d s) := by
  unfold pifMove
  extract_lets σ1
  have hσ1 : Keeps ps σ σ1 := by
    unfold σ1
    refine updPif_keeps _ _ _ (Keeps.sub (by decide) hp) ?_
    exact h
  refine pifSteps_keeps _ _ _ _ (Keeps.sub (by decide) hp) ?_
  refine pifFollow_keeps _ _ (Keeps.sub (by decide) hp) ?_
  refine pifMissing_keeps _ _ (Keeps.sub (by decide) hp) ?_
  refine pifDirection_keeps _ _ (Keeps.sub (by decide) hp) ?_
  refine pifVelocity_keeps _ _ (Keeps.sub (by decide) hp) ?_
  exact hσ1

theorem pifAmplitude_keeps {ps : List Part} {σ : State} (c : Nat) (a : Nat) (s : State)
    (hp : ∀ p ∈ [Part.kln, Part.msix, Part.out, Part.pif, Part.reg .pifCh, Part.reg .stk, Part.rings, Part.stk], p ∈ ps) (h : Keeps ps σ s) : Keeps ps σ (pifAmplitude c a s) := by
  unfold pifAmplitude
  extract_lets σ1 σ2 σ3
  have hσ2 : Keeps ps σ σ2 := by
    unfold σ2
    refine wn_keeps _ _ _ (Keeps.sub (by simp) hp) ?_
    refine updPif_keeps _ _ _ (Keeps.sub (by decide) hp) ?_
    exact h
  have hσ3 : Keeps ps σ σ3 := by
    unfold σ3
    refine inc_keeps _ _ _ (Keeps.sub (by simp) hp) ?_
    refine updPif_keeps _ _ _ (Keeps.sub (by decide) hp) ?_
    exact hσ2
  refine Keeps.ite (fun _ => ?_) fun _ => ?_
  · refine Keeps.ite (fun _ => ?_) fun _ => ?_
    · refine pifLatch_keeps _ _ _ _ _ (Keeps.sub (by decide) hp) ?_
      refine updPif_keeps _ _ _ (Keeps.sub (by decide) hp) ?_
      exact hσ3
    · exact hσ3
  · refine updPif_keeps _ _ _ (Keeps.sub (by decide) hp) ?_
    exact hσ2

theorem pifExtremes_keeps {ps : List Part} {σ : State} (c : Nat) (sn : Int) (cs : Int) (s : State)
    (hp : ∀ p ∈ [Part.pif, Part.reg .pifCh], p ∈ ps) (h : Keeps ps σ s) : Keeps ps σ (pifExtremes c sn cs s) := by
  unfold pifExtremes
  extract_lets σ1 σ2 σ3 σ4 σ5
  refine wn_keeps _ _ _ (Keeps.sub (by simp) hp) ?_
  refine wn_keeps _ _ _ (Keeps.sub (by simp) hp) ?_
  refine updPif_keeps _ _ _ (Keeps.sub (by decide) hp) ?_
  exact h

theorem adcSample_keeps {ps : List Part} {σ : State} (c : Nat) (t : Nat) (sn : Int) (cs : Int) (s : State)
    (hp : ∀ p ∈ [Part.cal, Part.clk, Part.clock, Part.crk, Part.entries, Part.free, Part.fw, Part.gln, Part.glz, Part.hif, Part.ipl, Part.jobs, Part.kln, Part.memory, Part.mot, Part.msix, Part.out, Part.pif, Part.ports, Part.reg .cal, Part.reg .hif, Part.reg .hlk, Part.reg .iplP, Part.reg .klnC, Part.reg .klnP, Part.reg .motA, Part.reg .pifCh, Part.reg .stk, Part.reg .tilC, Part.reg .tilE, Part.reg .tim, Part.reg .win, Part.rings, Part.sag, Part.stk, Part.thr, Part.til, Part.win], p ∈ ps) (h : Keeps ps σ s) : Keeps ps σ (adcSample c t sn cs s) := by
  unfold adcSample
  refine Keeps.ite (fun _ => ?_) fun _ => ?_
  · exact h
  · extract_lets σ1 σ2 σ3 σ4 σ5 σ6 σ7 σ8 σ9 σ10 σ11 σ12
    have hσ1 : Keeps ps σ σ1 := by
      unfold σ1
      refine advanceTo_keeps _ _ (Keeps.sub (by decide) hp) ?_
      exact h
    have hσ62 : Keeps ps σ σ6.2 := by
      unfold σ6
      refine channelAngle_keeps _ _ _ (Keeps.sub (by decide) hp) ?_
      exact hσ1
    have hσ9 : Keeps ps σ σ9 := by
      unfold σ9
      refine updPif_keeps _ _ _ (Keeps.sub (by decide) hp) ?_
      exact hσ62
    have hσ10 : Keeps ps σ σ10 := by
      unfold σ10
      refine pifAmplitude_keeps _ _ _ (Keeps.sub (by decide) hp) ?_
      refine pifExtremes_keeps _ _ _ _ (Keeps.sub (by decide) hp) ?_
      exact hσ9
    have hσ12 : Keeps ps σ σ12 := by
      unfold σ12
      refine updPif_keeps _ _ _ (Keeps.sub (by decide) hp) ?_
      exact hσ10
    refine Keeps.ite (fun _ => ?_) fun _ => ?_
    · exact hσ9
    · refine pifMove_keeps _ _ _ _ (Keeps.sub (by decide) hp) ?_
      refine Keeps.ite (fun _ => ?_) fun _ => ?_
      · refine pifLatch_keeps _ _ _ _ _ (Keeps.sub (by decide) hp) ?_
        exact hσ12
      · exact hσ12

theorem execPifAdcSample_keeps (ch : Fin 4) (sin : BitVec 14) (cos : BitVec 14) (t : DWord) (s : State) :
    ∃ τ, execPifAdcSample ch sin cos t s = .next τ ∧ Keeps [Part.cal, Part.clk, Part.clock, Part.crk, Part.entries, Part.free, Part.fw, Part.gln, Part.glz, Part.hif, Part.ipl, Part.jobs, Part.kln, Part.memory, Part.mot, Part.msix, Part.out, Part.pif, Part.ports, Part.reg .cal, Part.reg .hif, Part.reg .hlk, Part.reg .iplP, Part.reg .klnC, Part.reg .klnP, Part.reg .motA, Part.reg .pifCh, Part.reg .stk, Part.reg .tilC, Part.reg .tilE, Part.reg .tim, Part.reg .win, Part.rings, Part.sag, Part.stk, Part.thr, Part.til, Part.win] s τ := by
  refine Keeps.exec fun ps σ hp h => ?_
  unfold execPifAdcSample
  refine ⟨_, rfl, ?_⟩
  refine adcSample_keeps _ _ _ _ _ (Keeps.sub (by decide) hp) ?_
  exact h

theorem squareSample_keeps {ps : List Part} {σ : State} (c : Nat) (t : Nat) (a : Bool) (b : Bool) (s : State)
    (hp : ∀ p ∈ [Part.cal, Part.clk, Part.clock, Part.crk, Part.entries, Part.free, Part.fw, Part.gln, Part.glz, Part.hif, Part.ipl, Part.jobs, Part.kln, Part.memory, Part.mot, Part.msix, Part.out, Part.pif, Part.ports, Part.reg .cal, Part.reg .hif, Part.reg .hlk, Part.reg .iplP, Part.reg .klnC, Part.reg .klnP, Part.reg .motA, Part.reg .pifCh, Part.reg .stk, Part.reg .tilC, Part.reg .tilE, Part.reg .tim, Part.reg .win, Part.rings, Part.sag, Part.stk, Part.thr, Part.til, Part.win], p ∈ ps) (h : Keeps ps σ s) : Keeps ps σ (squareSample c t a b s) := by
  unfold squareSample
  refine Keeps.ite (fun _ => ?_) fun _ => ?_
  · exact h
  · extract_lets σ1 σ2 σ3 σ4 σ5 σ6 σ7 σ8 σ9 σ10
    have hσ1 : Keeps ps σ σ1 := by
      unfold σ1
      refine advanceTo_keeps _ _ (Keeps.sub (by decide) hp) ?_
      exact h
    have hσ5 : Keeps ps σ σ5 := by
      unfold σ5
      refine updPif_keeps _ _ _ (Keeps.sub (by decide) hp) ?_
      exact hσ1
    have hσ10 : Keeps ps σ σ10 := by
      unfold σ10
      refine Keeps.ite (fun _ => ?_) fun _ => ?_
      · refine pifLatch_keeps _ _ _ _ _ (Keeps.sub (by decide) hp) ?_
        exact hσ5
      · exact hσ5
    refine Keeps.ite (fun _ => ?_) fun _ => ?_
    · exact hσ5
    · refine pifMove_keeps _ _ _ _ (Keeps.sub (by decide) hp) ?_
      exact hσ10

theorem execPifSquareSample_keeps (ch : Fin 4) (a : Bool) (b : Bool) (t : DWord) (s : State) :
    ∃ τ, execPifSquareSample ch a b t s = .next τ ∧ Keeps [Part.cal, Part.clk, Part.clock, Part.crk, Part.entries, Part.free, Part.fw, Part.gln, Part.glz, Part.hif, Part.ipl, Part.jobs, Part.kln, Part.memory, Part.mot, Part.msix, Part.out, Part.pif, Part.ports, Part.reg .cal, Part.reg .hif, Part.reg .hlk, Part.reg .iplP, Part.reg .klnC, Part.reg .klnP, Part.reg .motA, Part.reg .pifCh, Part.reg .stk, Part.reg .tilC, Part.reg .tilE, Part.reg .tim, Part.reg .win, Part.rings, Part.sag, Part.stk, Part.thr, Part.til, Part.win] s τ := by
  refine Keeps.exec fun ps σ hp h => ?_
  unfold execPifSquareSample
  refine ⟨_, rfl, ?_⟩
  refine squareSample_keeps _ _ _ _ _ (Keeps.sub (by decide) hp) ?_
  exact h

theorem captureCount_keeps {ps : List Part} {σ : State} (c : Nat) (t : Nat) (s : State)
    (hp : ∀ p ∈ [Part.free], p ∈ ps) (h : Keeps ps σ s) : Keeps ps σ (captureCount c t s).2 := by
  unfold captureCount
  extract_lets σ1 σ2 σ3 σ4 σ5 σ6
  have hσ62 : Keeps ps σ σ6.2 := by
    unfold σ6
    refine roundUp_keeps _ _ (Keeps.sub (by decide) hp) ?_
    exact h
  refine Keeps.ite_snd (fun _ => ?_) fun _ => ?_
  · exact h
  · refine Keeps.snd ?_
    exact hσ62

theorem expectedIndex_keeps {ps : List Part} {σ : State} (ref : Nat) (p : Nat) (x : Nat) (s : State)
    (hp : ∀ q ∈ [Part.free], q ∈ ps) (h : Keeps ps σ s) : Keeps ps σ (expectedIndex ref p x s).2 := by
  unfold expectedIndex
  extract_lets σ1 σ2 σ3 σ4 σ5
  have hσ52 : Keeps ps σ σ5.2 := by
    unfold σ5
    refine drawIn_keeps _ _ _ (Keeps.sub (by decide) hp) ?_
    exact h
  clear_value σ4
  split
  · refine Keeps.ite_snd (fun _ => ?_) fun _ => ?_
    · exact h
    · refine Keeps.snd ?_
      exact hσ52
  · exact h

theorem judgeIndex_keeps {ps : List Part} {σ : State} (c : Nat) (x : Nat) (xe : Nat) (s : State)
    (hp : ∀ p ∈ [Part.msix, Part.out, Part.pif, Part.reg .pifCh, Part.reg .stk, Part.rings, Part.stk], p ∈ ps) (h : Keeps ps σ s) : Keeps ps σ (judgeIndex c x xe s) := by
  unfold judgeIndex
  extract_lets σ1 σ2 σ3 σ4 σ5 σ6 σ7
  have hσ2 : Keeps ps σ σ2 := by
    unfold σ2
    refine updPif_keeps _ _ _ (Keeps.sub (by decide) hp) ?_
    exact h
  have hσ3 : Keeps ps σ σ3 := by
    unfold σ3
    refine wf_keeps _ _ _ _ _ (Keeps.sub (by simp) hp) ?_
    refine wn64_keeps _ _ _ (Keeps.sub (by simp) hp) ?_
    exact hσ2
  have hσ4 : Keeps ps σ σ4 := by
    unfold σ4
    refine inc_keeps _ _ _ (Keeps.sub (by simp) hp) ?_
    refine updPif_keeps _ _ _ (Keeps.sub (by decide) hp) ?_
    exact hσ3
  have hσ6 : Keeps ps σ σ6 := by
    unfold σ6
    refine inc_keeps _ _ _ (Keeps.sub (by simp) hp) ?_
    refine updPif_keeps _ _ _ (Keeps.sub (by decide) hp) ?_
    exact hσ3
  have hσ7 : Keeps ps σ σ7 := by
    unfold σ7
    refine raiseIrq_keeps _ _ _ (Keeps.sub (by simp) hp) ?_
    refine event_keeps _ _ _ _ (Keeps.sub (by decide) hp) ?_
    exact hσ6
  refine Keeps.ite (fun _ => ?_) fun _ => ?_
  · refine Keeps.ite (fun _ => ?_) fun _ => ?_
    · refine idleCorrection_keeps _ _ (Keeps.sub (by decide) hp) ?_
      refine updPif_keeps _ _ _ (Keeps.sub (by decide) hp) ?_
      exact hσ4
    · exact hσ4
  · refine Keeps.ite (fun _ => ?_) fun _ => ?_
    · refine raiseIrq_keeps _ _ _ (Keeps.sub (by simp) hp) ?_
      refine event_keeps _ _ _ _ (Keeps.sub (by decide) hp) ?_
      refine wf_keeps _ _ _ _ _ (Keeps.sub (by simp) hp) ?_
      exact hσ7
    · exact hσ7

theorem indexCapture_keeps {ps : List Part} {σ : State} (c : Nat) (t : Nat) (rising : Bool) (s : State)
    (hp : ∀ p ∈ [Part.clock, Part.free, Part.msix, Part.out, Part.pif, Part.reg .pifCh, Part.reg .stk, Part.reg .tim, Part.rings, Part.stk], p ∈ ps) (h : Keeps ps σ s) : Keeps ps σ (indexCapture c t rising s) := by
  unfold indexCapture
  extract_lets σ1 σ2 σ3 σ4
  have hσ2 : Keeps ps σ σ2 := by
    unfold σ2
    refine advanceTo_keeps _ _ (Keeps.sub (by decide) hp) ?_
    exact h
  have hσ32 : Keeps ps σ σ3.2 := by
    unfold σ3
    refine captureCount_keeps _ _ _ (Keeps.sub (by decide) hp) ?_
    exact hσ2
  refine Keeps.ite (fun _ => ?_) fun _ => ?_
  · exact hσ2
  · split
    · refine inc_keeps _ _ _ (Keeps.sub (by simp) hp) ?_
      refine wn64_keeps _ _ _ (Keeps.sub (by simp) hp) ?_
      refine updPif_keeps _ _ _ (Keeps.sub (by decide) hp) ?_
      exact hσ32
    · refine Keeps.ite (fun _ => ?_) fun _ => ?_
      · exact hσ32
      · extract_lets σ5
        have hσ52 : Keeps ps σ σ5.2 := by
          unfold σ5
          refine expectedIndex_keeps _ _ _ _ (Keeps.sub (by decide) hp) ?_
          exact hσ32
        refine judgeIndex_keeps _ _ _ _ (Keeps.sub (by decide) hp) ?_
        exact hσ52

theorem homeReached_keeps {ps : List Part} {σ : State} (a : Nat) (s : State)
    (hp : ∀ p ∈ [Part.mot], p ∈ ps) (h : Keeps ps σ s) : Keeps ps σ (homeReached a s) := by
  unfold homeReached
  refine updAxis_keeps _ _ _ (Keeps.sub (by decide) hp) ?_
  exact h

theorem homingIndex_keeps {ps : List Part} {σ : State} (c : Nat) (rising : Bool) (s : State)
    (hp : ∀ p ∈ [Part.mot], p ∈ ps) (h : Keeps ps σ s) : Keeps ps σ (homingIndex c rising s) := by
  unfold homingIndex
  refine Keeps.ite (fun _ => ?_) fun _ => ?_
  · exact h
  · refine Keeps.foldl ?_ ?_
    · intro τ1 χ2 hτ3
      split
      · split
        · refine Keeps.ite (fun _ => ?_) fun _ => ?_
          · refine homeReached_keeps _ _ (Keeps.sub (by decide) hp) ?_
            exact hτ3
          · exact hτ3
        · exact hτ3
      · exact hτ3
    · exact h

theorem execPifIndexCapture_keeps (ch : Fin 4) (rising : Bool) (t : DWord) (s : State) :
    ∃ τ, execPifIndexCapture ch rising t s = .next τ ∧ Keeps [Part.clock, Part.free, Part.mot, Part.msix, Part.out, Part.pif, Part.reg .pifCh, Part.reg .stk, Part.reg .tim, Part.rings, Part.stk] s τ := by
  refine Keeps.exec fun ps σ hp h => ?_
  unfold execPifIndexCapture
  refine ⟨_, rfl, ?_⟩
  refine homingIndex_keeps _ _ _ (Keeps.sub (by decide) hp) ?_
  refine indexCapture_keeps _ _ _ _ (Keeps.sub (by decide) hp) ?_
  exact h

theorem pifRearm_keeps {ps : List Part} {σ : State} (c : Nat) (s : State)
    (hp : ∀ p ∈ [Part.pif, Part.reg .pifCh], p ∈ ps) (h : Keeps ps σ s) : Keeps ps σ (pifRearm c s) := by
  unfold pifRearm
  extract_lets σ1 σ2 σ3 σ4 σ5 σ6
  have hσ5 : Keeps ps σ σ5 := by
    unfold σ5
    refine updPif_keeps _ _ _ (Keeps.sub (by decide) hp) ?_
    exact h
  have hσ6 : Keeps ps σ σ6 := by
    unfold σ6
    refine wf_keeps _ _ _ _ _ (Keeps.sub (by simp +zetaDelta) hp) ?_
    exact hσ5
  refine Keeps.ite (fun _ => ?_) fun _ => ?_
  · refine wf_keeps _ _ _ _ _ (Keeps.sub (by simp +zetaDelta) hp) ?_
    exact hσ6
  · exact hσ6

theorem pifLoad_keeps {ps : List Part} {σ : State} (c : Nat) (s : State)
    (hp : ∀ p ∈ [Part.pif], p ∈ ps) (h : Keeps ps σ s) : Keeps ps σ (pifLoad c s) := by
  unfold pifLoad
  extract_lets σ1
  refine updPif_keeps _ _ _ (Keeps.sub (by decide) hp) ?_
  exact h

theorem pifCtrlWrite_keeps {ps : List Part} {σ : State} (c : Nat) (v : Word) (s : State)
    (hp : ∀ p ∈ [Part.pif, Part.reg .pifCh], p ∈ ps) (h : Keeps ps σ s) : Keeps ps σ (pifCtrlWrite c v s) := by
  unfold pifCtrlWrite
  extract_lets σ1
  have hσ1 : Keeps ps σ σ1 := by
    unfold σ1
    refine Keeps.ite (fun _ => ?_) fun _ => ?_
    · refine pifRearm_keeps _ _ (Keeps.sub (by decide) hp) ?_
      exact h
    · exact h
  refine Keeps.ite (fun _ => ?_) fun _ => ?_
  · refine pifLoad_keeps _ _ (Keeps.sub (by decide) hp) ?_
    exact hσ1
  · exact hσ1

theorem execPifRearm_keeps (ini : Initiator) (ch : Fin 4) (val : Word) (s : State) :
    ∃ τ, execPifRearm ini ch val s = .next τ ∧ Keeps [Part.msix, Part.out, Part.pif, Part.reg .hif, Part.reg .pifCh] s τ := by
  refine Keeps.exec fun ps σ hp h => ?_
  unfold execPifRearm
  refine ⟨_, rfl, ?_⟩
  refine guardWrite_keeps _ _ _ _ _ _ ?_ (Keeps.sub (by simp) hp) ?_
  · intro χ1 τ2 hτ3
    refine pifCtrlWrite_keeps _ _ _ (Keeps.sub (by decide) hp) ?_
    exact hτ3
  · exact h

theorem execPifLoad_keeps (ini : Initiator) (ch : Fin 4) (val : Word) (s : State) :
    ∃ τ, execPifLoad ini ch val s = .next τ ∧ Keeps [Part.msix, Part.out, Part.pif, Part.reg .hif, Part.reg .pifCh] s τ := by
  refine Keeps.exec fun ps σ hp h => ?_
  unfold execPifLoad
  refine ⟨_, rfl, ?_⟩
  refine guardWrite_keeps _ _ _ _ _ _ ?_ (Keeps.sub (by simp) hp) ?_
  · intro χ1 τ2 hτ3
    refine pifCtrlWrite_keeps _ _ _ (Keeps.sub (by decide) hp) ?_
    exact hτ3
  · exact h

theorem idxPeriodWrite_keeps {ps : List Part} {σ : State} (c : Nat) (high : Bool) (v : Word) (s : State)
    (hp : ∀ p ∈ [Part.pif, Part.reg .pifCh], p ∈ ps) (h : Keeps ps σ s) : Keeps ps σ (idxPeriodWrite c high v s) := by
  unfold idxPeriodWrite
  extract_lets σ1
  have hσ1 : Keeps ps σ σ1 := by
    unfold σ1
    refine plainPut_keeps _ _ _ (Keeps.sub (by simp) hp) ?_
    exact h
  refine updPif_keeps _ _ _ (Keeps.sub (by decide) hp) ?_
  exact hσ1

theorem execPifIdxPeriodWrite_keeps (ini : Initiator) (ch : Fin 4) (high : Bool) (val : Word) (s : State) :
    ∃ τ, execPifIdxPeriodWrite ini ch high val s = .next τ ∧ Keeps [Part.msix, Part.out, Part.pif, Part.reg .hif, Part.reg .pifCh] s τ := by
  refine Keeps.exec fun ps σ hp h => ?_
  unfold execPifIdxPeriodWrite
  refine ⟨_, rfl, ?_⟩
  refine guardWrite_keeps _ _ _ _ _ _ ?_ (Keeps.sub (by simp) hp) ?_
  · intro χ1 τ2 hτ3
    refine idxPeriodWrite_keeps _ _ _ _ (Keeps.sub (by decide) hp) ?_
    exact hτ3
  · exact h

theorem pifRefresh_keeps {ps : List Part} {σ : State} (c : Nat) (s : State)
    (hp : ∀ p ∈ [Part.kln, Part.pif, Part.reg .pifCh], p ∈ ps) (h : Keeps ps σ s) : Keeps ps σ (pifRefresh c s) := by
  unfold pifRefresh
  extract_lets σ1 σ2 σ3
  refine Keeps.ite (fun _ => ?_) fun _ => ?_
  · exact h
  · refine Keeps.ite (fun _ => ?_) fun _ => ?_
    · refine wf_keeps _ _ _ _ _ (Keeps.sub (by simp) hp) ?_
      refine updPif_keeps _ _ _ (Keeps.sub (by decide) hp) ?_
      exact h
    · refine encoderBad_keeps _ _ (Keeps.sub (by decide) hp) ?_
      refine updPif_keeps _ _ _ (Keeps.sub (by decide) hp) ?_
      exact h

end Sys2Proof.Machine
end

