-- ==== Sys2Proof/Laws/KeepsMotion.lean ====
section
/-! SUPPORT. What the operations of Machine/Motion.lean change, and what they keep. -/

namespace Sys2Proof.Machine
open Sys2Proof

theorem stopAtOnce_keeps {ps : List Part} {σ : State} (a : Nat) (s : State)
    (hp : ∀ p ∈ [Part.fw, Part.mot, Part.msix, Part.out, Part.reg .motA, Part.reg .stk, Part.rings, Part.stk], p ∈ ps) (h : Keeps ps σ s) : Keeps ps σ (stopAtOnce a s) := by
  unfold stopAtOnce
  refine Keeps.ite (fun _ => ?_) fun _ => ?_
  · refine endMove_keeps _ _ _ _ (Keeps.sub (by decide) hp) ?_
    exact h
  · exact h

theorem faultOff_keeps {ps : List Part} {σ : State} (a : Nat) (bit : Nat) (s : State)
    (hp : ∀ p ∈ [Part.fw, Part.mot, Part.msix, Part.out, Part.reg .motA, Part.reg .stk, Part.rings, Part.stk], p ∈ ps) (h : Keeps ps σ s) : Keeps ps σ (faultOff a bit s) := by
  unfold faultOff
  refine Keeps.ite (fun _ => ?_) fun _ => ?_
  · exact h
  · extract_lets σ1 σ2 σ3
    have hσ2 : Keeps ps σ σ2 := by
      unfold σ2
      refine inc_keeps _ _ _ (Keeps.sub (by simp) hp) ?_
      refine latchAxis_keeps _ _ _ (Keeps.sub (by decide) hp) ?_
      exact h
    have hσ3 : Keeps ps σ σ3 := by
      unfold σ3
      refine updAxis_keeps _ _ _ (Keeps.sub (by decide) hp) ?_
      exact hσ2
    refine arrive_keeps _ _ _ (Keeps.sub (by decide) hp) ?_
    refine completeOpt_keeps _ _ _ _ (Keeps.sub (by decide) hp) ?_
    refine setAxis_keeps _ _ _ (Keeps.sub (by decide) hp) ?_
    exact hσ3

theorem nextSpeed_keeps {ps : List Part} {σ : State} (s : State) (a : Nat) (x : Axis) (m : Move) (d : Drive)
    (hp : ∀ p ∈ [Part.free], p ∈ ps) (h : Keeps ps σ s) : Keeps ps σ (nextSpeed s a x m d).2 := by
  unfold nextSpeed
  extract_lets σ1 σ2 σ3 σ4 σ5 σ6 σ7
  have hσ32 : Keeps ps σ σ3.2 := by
    unfold σ3
    refine drawIn_keeps _ _ _ (Keeps.sub (by decide) hp) ?_
    exact h
  have hσ62 : Keeps ps σ σ6.2 := by
    unfold σ6
    refine drawIn_keeps _ _ _ (Keeps.sub (by decide) hp) ?_
    exact h
  have hσ72 : Keeps ps σ σ7.2 := by
    unfold σ7
    refine drawIn_keeps _ _ _ (Keeps.sub (by decide) hp) ?_
    exact hσ62
  refine Keeps.ite_snd (fun _ => ?_) fun _ => ?_
  · refine Keeps.snd ?_
    exact hσ32
  · refine Keeps.snd ?_
    exact hσ72

theorem issueStep_keeps {ps : List Part} {σ : State} (a : Nat) (t : Nat) (start : Nat) (fwd : Bool) (s : State)
    (hp : ∀ p ∈ [Part.cal, Part.clk, Part.clock, Part.crk, Part.entries, Part.free, Part.fw, Part.gln, Part.glz, Part.hif, Part.ipl, Part.jobs, Part.kln, Part.memory, Part.mot, Part.msix, Part.out, Part.pif, Part.ports, Part.reg .cal, Part.reg .hif, Part.reg .hlk, Part.reg .iplP, Part.reg .klnC, Part.reg .klnP, Part.reg .motA, Part.reg .pifCh, Part.reg .stk, Part.reg .tilC, Part.reg .tilE, Part.reg .tim, Part.reg .win, Part.rings, Part.sag, Part.stk, Part.thr, Part.til, Part.win], p ∈ ps) (h : Keeps ps σ s) : Keeps ps σ (issueStep a t start fwd s) := by
  unfold issueStep
  extract_lets σ1 σ2
  have hσ2 : Keeps ps σ σ2 := by
    unfold σ2
    refine updAxis_keeps _ _ _ (Keeps.sub (by decide) hp) ?_
    refine emit_keeps _ _ (Keeps.sub (by decide) hp) ?_
    exact h
  refine Keeps.foldl ?_ ?_
  · intro τ3 χ4 hτ5
    refine Keeps.ite (fun _ => ?_) fun _ => ?_
    · refine paceStep_keeps _ _ _ _ _ (Keeps.sub (by decide) hp) ?_
      exact hτ5
    · exact hτ5
  · exact hσ2

theorem issueSteps_keeps {ps : List Part} {σ : State} (a : Nat) (p0 : Int) (p1 : Int) (start : Nat) (s : State)
    (hp : ∀ p ∈ [Part.cal, Part.clk, Part.clock, Part.crk, Part.entries, Part.free, Part.fw, Part.gln, Part.glz, Part.hif, Part.ipl, Part.jobs, Part.kln, Part.memory, Part.mot, Part.msix, Part.out, Part.pif, Part.ports, Part.reg .cal, Part.reg .hif, Part.reg .hlk, Part.reg .iplP, Part.reg .klnC, Part.reg .klnP, Part.reg .motA, Part.reg .pifCh, Part.reg .stk, Part.reg .tilC, Part.reg .tilE, Part.reg .tim, Part.reg .win, Part.rings, Part.sag, Part.stk, Part.thr, Part.til, Part.win], p ∈ ps) (h : Keeps ps σ s) : Keeps ps σ (issueSteps a p0 p1 start s) := by
  unfold issueSteps
  refine Keeps.foldl ?_ ?_
  · intro τ1 χ2 hτ3
    extract_lets σ4 σ5 σ6
    have hσ62 : Keeps ps σ σ6.2 := by
      unfold σ6
      refine roundUp_keeps _ _ (Keeps.sub (by decide) hp) ?_
      exact hτ3
    refine issueStep_keeps _ _ _ _ _ (Keeps.sub (by decide) hp) ?_
    exact hσ62
  · exact h

theorem fixReference_keeps {ps : List Part} {σ : State} (a : Nat) (s : State)
    (hp : ∀ p ∈ [Part.mot], p ∈ ps) (h : Keeps ps σ s) : Keeps ps σ (fixReference a s) := by
  unfold fixReference
  extract_lets σ1
  refine updAxis_keeps _ _ _ (Keeps.sub (by decide) hp) ?_
  exact h

theorem homePhase_keeps {ps : List Part} {σ : State} (a : Nat) (s : State)
    (hp : ∀ p ∈ [Part.mot], p ∈ ps) (h : Keeps ps σ s) : Keeps ps σ (homePhase a s) := by
  unfold homePhase
  split
  · split
    · refine Keeps.ite (fun _ => ?_) fun _ => ?_
      · refine updAxis_keeps _ _ _ (Keeps.sub (by decide) hp) ?_
        exact h
      · exact h
    · refine Keeps.ite (fun _ => ?_) fun _ => ?_
      · refine homeReached_keeps _ _ (Keeps.sub (by decide) hp) ?_
        exact h
      · exact h
    · exact h
  · exact h

theorem generatorUpdate_keeps {ps : List Part} {σ : State} (a : Nat) (s : State)
    (hp : ∀ p ∈ [Part.cal, Part.clk, Part.clock, Part.crk, Part.entries, Part.free, Part.fw, Part.gln, Part.glz, Part.hif, Part.ipl, Part.jobs, Part.kln, Part.memory, Part.mot, Part.msix, Part.out, Part.pif, Part.ports, Part.reg .cal, Part.reg .hif, Part.reg .hlk, Part.reg .iplP, Part.reg .klnC, Part.reg .klnP, Part.reg .motA, Part.reg .pifCh, Part.reg .stk, Part.reg .tilC, Part.reg .tilE, Part.reg .tim, Part.reg .win, Part.rings, Part.sag, Part.stk, Part.thr, Part.til, Part.win], p ∈ ps) (h : Keeps ps σ s) : Keeps ps σ (generatorUpdate a s) := by
  unfold generatorUpdate
  extract_lets σ1
  split
  · refine Keeps.ite (fun _ => ?_) fun _ => ?_
    · exact h
    · extract_lets σ2 σ3 σ4 σ5 σ6 σ7 σ8 σ9 σ10
      have hσ32 : Keeps ps σ σ3.2 := by
        unfold σ3
        refine nextSpeed_keeps _ _ _ _ _ (Keeps.sub (by decide) hp) ?_
        exact h
      have hσ8 : Keeps ps σ σ8 := by
        unfold σ8
        refine updAxis_keeps _ _ _ (Keeps.sub (by decide) hp) ?_
        exact hσ32
      have hσ9 : Keeps ps σ σ9 := by
        unfold σ9
        refine advanceTo_keeps _ _ (Keeps.sub (by decide) hp) ?_
        refine Keeps.ite (fun _ => ?_) fun _ => ?_
        · exact hσ8
        · refine issueSteps_keeps _ _ _ _ _ (Keeps.sub (by decide) hp) ?_
          exact hσ8
      have hσ10 : Keeps ps σ σ10 := by
        unfold σ10
        refine homePhase_keeps _ _ (Keeps.sub (by decide) hp) ?_
        exact hσ9
      refine Keeps.ite (fun _ => ?_) fun _ => ?_
      · refine stopAtOnce_keeps _ _ (Keeps.sub (by decide) hp) ?_
        refine unhome_keeps _ _ (Keeps.sub (by decide) hp) ?_
        refine latchAxis_keeps _ _ _ (Keeps.sub (by decide) hp) ?_
        exact hσ10
      · exact hσ10
  · exact h

theorem execMotGeneratorUpdate_keeps (axis : Fin 8) (s : State) :
    ∃ τ, execMotGeneratorUpdate axis s = .next τ ∧ Keeps [Part.cal, Part.clk, Part.clock, Part.crk, Part.entries, Part.free, Part.fw, Part.gln, Part.glz, Part.hif, Part.ipl, Part.jobs, Part.kln, Part.memory, Part.mot, Part.msix, Part.out, Part.pif, Part.ports, Part.reg .cal, Part.reg .hif, Part.reg .hlk, Part.reg .iplP, Part.reg .klnC, Part.reg .klnP, Part.reg .motA, Part.reg .pifCh, Part.reg .stk, Part.reg .tilC, Part.reg .tilE, Part.reg .tim, Part.reg .win, Part.rings, Part.sag, Part.stk, Part.thr, Part.til, Part.win] s τ := by
  refine Keeps.exec fun ps σ hp h => ?_
  unfold execMotGeneratorUpdate
  refine ⟨_, rfl, ?_⟩
  refine generatorUpdate_keeps _ _ (Keeps.sub (by decide) hp) ?_
  exact h

theorem adapt_keeps {ps : List Part} {σ : State} (a : Nat) (lm : Nat) (s : State)
    (hp : ∀ p ∈ [Part.free, Part.mot], p ∈ ps) (h : Keeps ps σ s) : Keeps ps σ (adapt a lm s) := by
  unfold adapt
  extract_lets σ1 σ2 σ3 σ4
  have hσ42 : Keeps ps σ σ4.2 := by
    unfold σ4
    refine Keeps.ite_snd (fun _ => ?_) fun _ => ?_
    · refine drawIn_keeps _ _ _ (Keeps.sub (by decide) hp) ?_
      exact h
    · exact h
  refine Keeps.ite (fun _ => ?_) fun _ => ?_
  · refine Keeps.ite (fun _ => ?_) fun _ => ?_
    · refine updAxis_keeps _ _ _ (Keeps.sub (by decide) hp) ?_
      exact h
    · refine Keeps.ite (fun _ => ?_) fun _ => ?_
      · refine Keeps.ite (fun _ => ?_) fun _ => ?_
        · refine updAxis_keeps _ _ _ (Keeps.sub (by decide) hp) ?_
          exact hσ42
        · refine updAxis_keeps _ _ _ (Keeps.sub (by decide) hp) ?_
          exact h
      · refine updAxis_keeps _ _ _ (Keeps.sub (by decide) hp) ?_
        exact h
  · exact h

theorem stallFound_keeps {ps : List Part} {σ : State} (a : Nat) (s : State)
    (hp : ∀ p ∈ [Part.mot], p ∈ ps) (h : Keeps ps σ s) : Keeps ps σ (stallFound a s) := by
  unfold stallFound
  extract_lets σ1 σ2
  refine updAxis_keeps _ _ _ (Keeps.sub (by decide) hp) ?_
  exact h

theorem loadMargin_keeps {ps : List Part} {σ : State} (a : Nat) (lm : Nat) (s : State)
    (hp : ∀ p ∈ [Part.free, Part.fw, Part.mot, Part.msix, Part.out, Part.reg .motA, Part.reg .stk, Part.rings, Part.stk], p ∈ ps) (h : Keeps ps σ s) : Keeps ps σ (loadMargin a lm s) := by
  unfold loadMargin
  extract_lets σ1 σ2 σ3 σ4
  have hσ3 : Keeps ps σ σ3 := by
    unfold σ3
    refine adapt_keeps _ _ _ (Keeps.sub (by decide) hp) ?_
    refine updAxis_keeps _ _ _ (Keeps.sub (by decide) hp) ?_
    exact h
  have hσ4 : Keeps ps σ σ4 := by
    unfold σ4
    refine unhome_keeps _ _ (Keeps.sub (by decide) hp) ?_
    refine inc_keeps _ _ _ (Keeps.sub (by simp) hp) ?_
    refine latchAxis_keeps _ _ _ (Keeps.sub (by decide) hp) ?_
    exact hσ3
  refine Keeps.ite (fun _ => ?_) fun _ => ?_
  · exact hσ3
  · refine Keeps.ite (fun _ => ?_) fun _ => ?_
    · refine stallFound_keeps _ _ (Keeps.sub (by decide) hp) ?_
      exact hσ3
    · refine Keeps.ite (fun _ => ?_) fun _ => ?_
      · refine Keeps.ite (fun _ => ?_) fun _ => ?_
        · refine stopAtOnce_keeps _ _ (Keeps.sub (by decide) hp) ?_
          exact hσ4
        · exact hσ4
      · exact hσ3

theorem meanDuty_keeps {ps : List Part} {σ : State} (l : List Int) (s : State)
    (hp : ∀ p ∈ [Part.free], p ∈ ps) (h : Keeps ps σ s) : Keeps ps σ (meanDuty l s).2 := by
  unfold meanDuty
  extract_lets σ1 σ2 σ3 σ4
  have hσ32 : Keeps ps σ σ3.2 := by
    unfold σ3
    refine drawIn_keeps _ _ _ (Keeps.sub (by decide) hp) ?_
    exact h
  have hσ42 : Keeps ps σ σ4.2 := by
    unfold σ4
    refine drawIn_keeps _ _ _ (Keeps.sub (by decide) hp) ?_
    exact h
  refine Keeps.ite_snd (fun _ => ?_) fun _ => ?_
  · refine Keeps.snd ?_
    exact hσ32
  · refine Keeps.ite_snd (fun _ => ?_) fun _ => ?_
    · exact h
    · refine Keeps.snd ?_
      exact hσ42

theorem measureLoad_keeps {ps : List Part} {σ : State} (a : Nat) (p0 : Int) (p1 : Int) (s : State)
    (hp : ∀ p ∈ [Part.free, Part.fw, Part.mot, Part.msix, Part.out, Part.reg .motA, Part.reg .stk, Part.rings, Part.stk], p ∈ ps) (h : Keeps ps σ s) : Keeps ps σ (measureLoad a p0 p1 s) := by
  unfold measureLoad
  extract_lets σ1
  refine Keeps.ite (fun _ => ?_) fun _ => ?_
  · split
    · extract_lets σ2 σ3
      have hσ32 : Keeps ps σ σ3.2 := by
        unfold σ3
        refine meanDuty_keeps _ _ (Keeps.sub (by decide) hp) ?_
        exact h
      refine loadMargin_keeps _ _ _ (Keeps.sub (by decide) hp) ?_
      exact hσ32
    · exact h
  · exact h

theorem halfTime_keeps {ps : List Part} {σ : State} (period : Nat) (n : Nat) (s : State)
    (hp : ∀ p ∈ [Part.free], p ∈ ps) (h : Keeps ps σ s) : Keeps ps σ (halfTime period n s).2 := by
  unfold halfTime
  refine Keeps.ite_snd (fun _ => ?_) fun _ => ?_
  · exact h
  · extract_lets σ1
    have hσ12 : Keeps ps σ σ1.2 := by
      unfold σ1
      refine drawIn_keeps _ _ _ (Keeps.sub (by decide) hp) ?_
      exact h
    refine Keeps.snd ?_
    exact hσ12

theorem halfBridge_keeps {ps : List Part} {σ : State} (period : Nat) (dt : Nat) (n : Nat) (s : State)
    (hp : ∀ p ∈ [Part.free], p ∈ ps) (h : Keeps ps σ s) : Keeps ps σ (halfBridge period dt n s).2 := by
  unfold halfBridge
  extract_lets σ1 σ2 σ3 σ4
  have hσ12 : Keeps ps σ σ1.2 := by
    unfold σ1
    refine halfTime_keeps _ _ _ (Keeps.sub (by decide) hp) ?_
    exact h
  have hσ22 : Keeps ps σ σ2.2 := by
    unfold σ2
    refine halfTime_keeps _ _ _ (Keeps.sub (by decide) hp) ?_
    exact hσ12
  refine Keeps.snd ?_
  exact hσ22

theorem bridgePlan_keeps {ps : List Part} {σ : State} (period : Nat) (dt : Nat) (da : Int) (db : Int) (s : State)
    (hp : ∀ p ∈ [Part.free], p ∈ ps) (h : Keeps ps σ s) : Keeps ps σ (bridgePlan period dt da db s).2 := by
  unfold bridgePlan
  refine Keeps.foldl_snd ?_ ?_
  · intro ζ1 χ2 hτ3
    extract_lets σ4
    have hσ42 : Keeps ps σ σ4.2 := by
      unfold σ4
      refine halfBridge_keeps _ _ _ _ (Keeps.sub (by decide) hp) ?_
      exact hτ3
    refine Keeps.snd ?_
    exact hσ42
  · exact h

theorem driveBridges_keeps {ps : List Part} {σ : State} (a : Nat) (da : Int) (db : Int) (s : State)
    (hp : ∀ p ∈ [Part.free, Part.mot, Part.out], p ∈ ps) (h : Keeps ps σ s) : Keeps ps σ (driveBridges a da db s) := by
  unfold driveBridges
  extract_lets σ1 σ2
  have hσ22 : Keeps ps σ σ2.2 := by
    unfold σ2
    refine bridgePlan_keeps _ _ _ _ _ (Keeps.sub (by decide) hp) ?_
    exact h
  refine emit_keeps _ _ (Keeps.sub (by decide) hp) ?_
  refine updAxis_keeps _ _ _ (Keeps.sub (by decide) hp) ?_
  exact hσ22

theorem pwmPeriod_keeps {ps : List Part} {σ : State} (a : Nat) (ma : Int) (mb : Int) (s : State)
    (hp : ∀ p ∈ [Part.free, Part.fw, Part.mot, Part.msix, Part.out, Part.reg .motA, Part.reg .stk, Part.rings, Part.stk], p ∈ ps) (h : Keeps ps σ s) : Keeps ps σ (pwmPeriod a ma mb s) := by
  unfold pwmPeriod
  extract_lets σ1 σ2 σ3 σ4 σ5 σ6 σ7 σ8
  refine Keeps.ite (fun _ => ?_) fun _ => ?_
  · exact h
  · refine measureLoad_keeps _ _ _ _ (Keeps.sub (by decide) hp) ?_
    refine driveBridges_keeps _ _ _ _ (Keeps.sub (by decide) hp) ?_
    refine updAxis_keeps _ _ _ (Keeps.sub (by decide) hp) ?_
    exact h

theorem execMotPwmPeriod_keeps (axis : Fin 8) (ia : BitVec 16) (ib : BitVec 16) (s : State) :
    ∃ τ, execMotPwmPeriod axis ia ib s = .next τ ∧ Keeps [Part.free, Part.fw, Part.mot, Part.msix, Part.out, Part.reg .motA, Part.reg .stk, Part.rings, Part.stk] s τ := by
  refine Keeps.exec fun ps σ hp h => ?_
  unfold execMotPwmPeriod
  refine ⟨_, rfl, ?_⟩
  refine pwmPeriod_keeps _ _ _ _ (Keeps.sub (by decide) hp) ?_
  exact h

theorem updPhase_keeps {ps : List Part} {σ : State} (a : Nat) (b : Bool) (f : PhaseLoop → PhaseLoop) (s : State)
    (hp : ∀ p ∈ [Part.mot], p ∈ ps) (h : Keeps ps σ s) : Keeps ps σ (updPhase a b f s) := by
  unfold updPhase
  refine updAxis_keeps _ _ _ (Keeps.sub (by decide) hp) ?_
  exact h

theorem fastFilter_keeps {ps : List Part} {σ : State} (a : Nat) (b : Bool) (code : Int) (s : State)
    (hp : ∀ p ∈ [Part.fw, Part.mot, Part.msix, Part.out, Part.reg .motA, Part.reg .stk, Part.rings, Part.stk], p ∈ ps) (h : Keeps ps σ s) : Keeps ps σ (fastFilter a b code s) := by
  unfold fastFilter
  extract_lets σ1 σ2 σ3
  have hσ2 : Keeps ps σ σ2 := by
    unfold σ2
    refine updPhase_keeps _ _ _ _ (Keeps.sub (by decide) hp) ?_
    exact h
  refine Keeps.ite (fun _ => ?_) fun _ => ?_
  · refine faultOff_keeps _ _ _ (Keeps.sub (by decide) hp) ?_
    exact hσ2
  · exact hσ2

theorem execMotSdFastFilter_keeps (axis : Fin 8) (phase : Bool) (code : BitVec 16) (s : State) :
    ∃ τ, execMotSdFastFilter axis phase code s = .next τ ∧ Keeps [Part.fw, Part.mot, Part.msix, Part.out, Part.reg .motA, Part.reg .stk, Part.rings, Part.stk] s τ := by
  refine Keeps.exec fun ps σ hp h => ?_
  unfold execMotSdFastFilter
  refine ⟨_, rfl, ?_⟩
  refine fastFilter_keeps _ _ _ _ (Keeps.sub (by decide) hp) ?_
  exact h

theorem sdLoss_keeps {ps : List Part} {σ : State} (a : Nat) (b : Bool) (lost : Bool) (s : State)
    (hp : ∀ p ∈ [Part.fw, Part.mot, Part.msix, Part.out, Part.reg .motA, Part.reg .stk, Part.rings, Part.stk], p ∈ ps) (h : Keeps ps σ s) : Keeps ps σ (sdLoss a b lost s) := by
  unfold sdLoss
  extract_lets σ1
  have hσ1 : Keeps ps σ σ1 := by
    unfold σ1
    refine updPhase_keeps _ _ _ _ (Keeps.sub (by decide) hp) ?_
    exact h
  refine Keeps.ite (fun _ => ?_) fun _ => ?_
  · refine faultOff_keeps _ _ _ (Keeps.sub (by decide) hp) ?_
    exact hσ1
  · exact hσ1

theorem execMotSdLoss_keeps (axis : Fin 8) (phase : Bool) (lost : Bool) (s : State) :
    ∃ τ, execMotSdLoss axis phase lost s = .next τ ∧ Keeps [Part.fw, Part.mot, Part.msix, Part.out, Part.reg .motA, Part.reg .stk, Part.rings, Part.stk] s τ := by
  refine Keeps.exec fun ps σ hp h => ?_
  unfold execMotSdLoss
  refine ⟨_, rfl, ?_⟩
  refine sdLoss_keeps _ _ _ _ (Keeps.sub (by decide) hp) ?_
  exact h

theorem beginStop_keeps {ps : List Part} {σ : State} (a : Nat) (m : StopMode) (s : State)
    (hp : ∀ p ∈ [Part.mot, Part.msix, Part.out, Part.reg .motA, Part.reg .stk, Part.rings, Part.stk], p ∈ ps) (h : Keeps ps σ s) : Keeps ps σ (beginStop a m s) := by
  unfold beginStop
  refine setAxis_keeps _ _ _ (Keeps.sub (by decide) hp) ?_
  refine updAxis_keeps _ _ _ (Keeps.sub (by decide) hp) ?_
  exact h

theorem limitInput_keeps {ps : List Part} {σ : State} (a : Nat) (positive : Bool) (high : Bool) (s : State)
    (hp : ∀ p ∈ [Part.mot, Part.msix, Part.out, Part.reg .motA, Part.reg .stk, Part.rings, Part.stk], p ∈ ps) (h : Keeps ps σ s) : Keeps ps σ (limitInput a positive high s) := by
  unfold limitInput
  extract_lets σ1 σ2
  have hσ2 : Keeps ps σ σ2 := by
    unfold σ2
    refine updAxis_keeps _ _ _ (Keeps.sub (by decide) hp) ?_
    exact h
  refine Keeps.ite (fun _ => ?_) fun _ => ?_
  · refine beginStop_keeps _ _ _ (Keeps.sub (by decide) hp) ?_
    refine latchAxis_keeps _ _ _ (Keeps.sub (by decide) hp) ?_
    exact hσ2
  · exact hσ2

theorem execMotLimitInput_keeps (axis : Fin 8) (positive : Bool) (high : Bool) (s : State) :
    ∃ τ, execMotLimitInput axis positive high s = .next τ ∧ Keeps [Part.mot, Part.msix, Part.out, Part.reg .motA, Part.reg .stk, Part.rings, Part.stk] s τ := by
  refine Keeps.exec fun ps σ hp h => ?_
  unfold execMotLimitInput
  refine ⟨_, rfl, ?_⟩
  refine limitInput_keeps _ _ _ _ (Keeps.sub (by decide) hp) ?_
  exact h

theorem homeSwitch_keeps {ps : List Part} {σ : State} (a : Nat) (s : State)
    (hp : ∀ p ∈ [Part.mot], p ∈ ps) (h : Keeps ps σ s) : Keeps ps σ (homeSwitch a s) := by
  unfold homeSwitch
  extract_lets σ1
  split
  · split
    · refine Keeps.ite (fun _ => ?_) fun _ => ?_
      · refine updAxis_keeps _ _ _ (Keeps.sub (by decide) hp) ?_
        exact h
      · refine Keeps.ite (fun _ => ?_) fun _ => ?_
        · refine Keeps.ite (fun _ => ?_) fun _ => ?_
          · refine homeReached_keeps _ _ (Keeps.sub (by decide) hp) ?_
            exact h
          · refine updAxis_keeps _ _ _ (Keeps.sub (by decide) hp) ?_
            exact h
        · exact h
    · exact h
  · exact h

theorem execMotHomeInput_keeps (axis : Fin 8) (high : Bool) (s : State) :
    ∃ τ, execMotHomeInput axis high s = .next τ ∧ Keeps [Part.mot] s τ := by
  refine Keeps.exec fun ps σ hp h => ?_
  unfold execMotHomeInput
  refine ⟨_, rfl, ?_⟩
  refine homeSwitch_keeps _ _ (Keeps.sub (by decide) hp) ?_
  refine updAxis_keeps _ _ _ (Keeps.sub (by decide) hp) ?_
  exact h

theorem standstillTimer_keeps {ps : List Part} {σ : State} (a : Nat) (s : State)
    (hp : ∀ p ∈ [Part.mot], p ∈ ps) (h : Keeps ps σ s) : Keeps ps σ (standstillTimer a s) := by
  unfold standstillTimer
  refine Keeps.ite (fun _ => ?_) fun _ => ?_
  · refine updAxis_keeps _ _ _ (Keeps.sub (by decide) hp) ?_
    exact h
  · exact h

theorem execMotStandstillTimer_keeps (axis : Fin 8) (s : State) :
    ∃ τ, execMotStandstillTimer axis s = .next τ ∧ Keeps [Part.mot] s τ := by
  refine Keeps.exec fun ps σ hp h => ?_
  unfold execMotStandstillTimer
  refine ⟨_, rfl, ?_⟩
  refine standstillTimer_keeps _ _ (Keeps.sub (by decide) hp) ?_
  exact h

theorem enableAdmit_keeps {ps : List Part} {σ : State} (t : Nat) (s : State)
    (hp : ∀ p ∈ [Part.clock, Part.fw, Part.mot, Part.msix, Part.out, Part.reg .motA, Part.reg .stk, Part.reg .tim, Part.rings, Part.stk], p ∈ ps) (h : Keeps ps σ s) : Keeps ps σ (enableAdmit t s) := by
  unfold enableAdmit
  split
  · exact h
  · refine Keeps.ite (fun _ => ?_) fun _ => ?_
    · exact h
    · extract_lets σ1 σ2 σ3 σ4 σ5
      have hσ1 : Keeps ps σ σ1 := by
        unfold σ1
        refine advanceTo_keeps _ _ (Keeps.sub (by decide) hp) ?_
        exact h
      have hσ3 : Keeps ps σ σ3 := by
        unfold σ3
        refine Keeps.set_mot (hp _ (by decide)) ?_
        exact hσ1
      have hσ4 : Keeps ps σ σ4 := by
        unfold σ4
        refine updAxis_keeps _ _ _ (Keeps.sub (by decide) hp) ?_
        exact hσ3
      have hσ5 : Keeps ps σ σ5 := by
        unfold σ5
        refine arrive_keeps _ _ _ (Keeps.sub (by decide) hp) ?_
        refine fixReference_keeps _ _ (Keeps.sub (by decide) hp) ?_
        refine setAxis_keeps _ _ _ (Keeps.sub (by decide) hp) ?_
        exact hσ4
      refine Keeps.ite (fun _ => ?_) fun _ => ?_
      · refine faultOff_keeps _ _ _ (Keeps.sub (by decide) hp) ?_
        exact hσ5
      · exact hσ5

theorem execMotEnableAdmit_keeps (t : DWord) (s : State) :
    ∃ τ, execMotEnableAdmit t s = .next τ ∧ Keeps [Part.clock, Part.fw, Part.mot, Part.msix, Part.out, Part.reg .motA, Part.reg .stk, Part.reg .tim, Part.rings, Part.stk] s τ := by
  refine Keeps.exec fun ps σ hp h => ?_
  unfold execMotEnableAdmit
  refine ⟨_, rfl, ?_⟩
  refine enableAdmit_keeps _ _ (Keeps.sub (by decide) hp) ?_
  exact h

theorem disableAxis_keeps {ps : List Part} {σ : State} (a : Nat) (s : State)
    (hp : ∀ p ∈ [Part.fw, Part.mot, Part.msix, Part.out, Part.reg .motA, Part.reg .stk, Part.rings, Part.stk], p ∈ ps) (h : Keeps ps σ s) : Keeps ps σ (disableAxis a s) := by
  unfold disableAxis
  extract_lets σ1 σ2 σ3 σ4 σ5
  have hσ3 : Keeps ps σ σ3 := by
    unfold σ3
    refine Keeps.set_mot (hp _ (by decide)) ?_
    exact h
  have hσ4 : Keeps ps σ σ4 := by
    unfold σ4
    refine updAxis_keeps _ _ _ (Keeps.sub (by decide) hp) ?_
    refine dropRetained_keeps _ _ (Keeps.sub (by decide) hp) ?_
    exact hσ3
  have hσ5 : Keeps ps σ σ5 := by
    unfold σ5
    refine completeOpt_keeps _ _ _ _ (Keeps.sub (by decide) hp) ?_
    refine setAxis_keeps _ _ _ (Keeps.sub (by decide) hp) ?_
    exact hσ4
  refine Keeps.foldl ?_ ?_
  · intro τ6 χ7 hτ8
    refine fail_keeps _ _ _ (Keeps.sub (by decide) hp) ?_
    exact hτ8
  · refine arrive_keeps _ _ _ (Keeps.sub (by decide) hp) ?_
    exact hσ5

theorem axisEnable_keeps {ps : List Part} {σ : State} (h : Hdr) (c : Instr) (as : List Nat) (s : State)
    (hp : ∀ p ∈ [Part.fw, Part.mot, Part.msix, Part.out, Part.reg .motA, Part.reg .stk, Part.rings, Part.stk], p ∈ ps) (hs : Keeps ps σ s) : Keeps ps σ (axisEnable h c as s) := by
  unfold axisEnable
  refine Keeps.ite (fun _ => ?_) fun _ => ?_
  · refine fail_keeps _ _ _ (Keeps.sub (by decide) hp) ?_
    exact hs
  · refine Keeps.ite (fun _ => ?_) fun _ => ?_
    · refine fail_keeps _ _ _ (Keeps.sub (by decide) hp) ?_
      exact hs
    · extract_lets σ1 σ2
      have hσ2 : Keeps ps σ σ2 := by
        unfold σ2
        refine Keeps.foldl ?_ ?_
        · intro τ3 χ4 hτ5
          refine Keeps.ite (fun _ => ?_) fun _ => ?_
          · exact hτ5
          · refine setAxis_keeps _ _ _ (Keeps.sub (by decide) hp) ?_
            refine Keeps.set_mot (hp _ (by decide)) ?_
            exact hτ5
        · exact hs
      refine Keeps.ite (fun _ => ?_) fun _ => ?_
      · refine ok_keeps _ _ _ (Keeps.sub (by decide) hp) ?_
        exact hσ2
      · refine parkAccepted_keeps _ _ _ _ _ (Keeps.sub (by decide) hp) ?_
        exact hσ2

theorem bodyAxisEnable_keeps {ps : List Part} {σ : State} (h : Hdr) (c : Instr) (mask : Nat) (action : Nat) (s : State)
    (hp : ∀ p ∈ [Part.fw, Part.mot, Part.msix, Part.out, Part.pwr, Part.reg .motA, Part.reg .stk, Part.rings, Part.stk], p ∈ ps) (hs : Keeps ps σ s) : Keeps ps σ (bodyAxisEnable h c mask action s) := by
  unfold bodyAxisEnable
  extract_lets σ1
  refine Keeps.ite (fun _ => ?_) fun _ => ?_
  · refine fail_keeps _ _ _ (Keeps.sub (by decide) hp) ?_
    exact hs
  · refine Keeps.ite (fun _ => ?_) fun _ => ?_
    · refine ok_keeps _ _ _ (Keeps.sub (by decide) hp) ?_
      refine Keeps.foldl ?_ ?_
      · intro τ2 χ3 hτ4
        refine disableAxis_keeps _ _ (Keeps.sub (by decide) hp) ?_
        exact hτ4
      · exact hs
    · refine wake_keeps _ _ _ _ _ ?_ (Keeps.sub (by decide) hp) ?_
      · intro τ5 hτ6
        refine axisEnable_keeps _ _ _ _ (Keeps.sub (by decide) hp) ?_
        exact hτ6
      · exact hs

theorem execAxisEnable_keeps (d : Desc) (mask : BitVec 8) (action : BitVec 8) (s : State) :
    ∃ τ, execAxisEnable d mask action s = .next τ ∧ Keeps [Part.fw, Part.mot, Part.msix, Part.out, Part.pwr, Part.reg .hif, Part.reg .motA, Part.reg .stk, Part.rings, Part.stk] s τ := by
  refine Keeps.exec fun ps σ hp h => ?_
  unfold execAxisEnable
  refine ⟨_, rfl, ?_⟩
  refine command_keeps _ _ _ _ _ _ ?_ (Keeps.sub (by decide) hp) ?_
  · intro χ1 τ2 hτ3
    refine bodyAxisEnable_keeps _ _ _ _ _ (Keeps.sub (by decide) hp) ?_
    exact hτ3
  · exact h

theorem startHost_keeps {ps : List Part} {σ : State} (h : Hdr) (c : Instr) (a : Nat) (k : MoveKind) (target : Int) (profile : Nat) (s : State)
    (hp : ∀ p ∈ [Part.fw, Part.mot, Part.msix, Part.out, Part.reg .motA, Part.reg .stk, Part.rings, Part.stk], p ∈ ps) (hs : Keeps ps σ s) : Keeps ps σ (startHost h c a k target profile s) := by
  unfold startHost
  refine startMove_keeps _ _ _ (Keeps.sub (by decide) hp) ?_
  refine dropRetained_keeps _ _ (Keeps.sub (by decide) hp) ?_
  refine parkAccepted_keeps _ _ _ _ _ (Keeps.sub (by decide) hp) ?_
  exact hs

theorem bodyAxisMove_keeps {ps : List Part} {σ : State} (h : Hdr) (c : Instr) (a : Nat) (profile : Nat) (t : Int) (s : State)
    (hp : ∀ p ∈ [Part.fw, Part.mot, Part.msix, Part.out, Part.reg .motA, Part.reg .stk, Part.rings, Part.stk], p ∈ ps) (hs : Keeps ps σ s) : Keeps ps σ (bodyAxisMove h c a profile t s) := by
  unfold bodyAxisMove
  refine Keeps.ite (fun _ => ?_) fun _ => ?_
  · refine fail_keeps _ _ _ (Keeps.sub (by decide) hp) ?_
    exact hs
  · refine Keeps.ite (fun _ => ?_) fun _ => ?_
    · refine fail_keeps _ _ _ (Keeps.sub (by decide) hp) ?_
      exact hs
    · refine Keeps.ite (fun _ => ?_) fun _ => ?_
      · refine fail_keeps _ _ _ (Keeps.sub (by decide) hp) ?_
        exact hs
      · refine startHost_keeps _ _ _ _ _ _ _ (Keeps.sub (by decide) hp) ?_
        exact hs

theorem execAxisMove_keeps (d : Desc) (axis : BitVec 8) (profile : BitVec 8) (target : DWord) (s : State) :
    ∃ τ, execAxisMove d axis profile target s = .next τ ∧ Keeps [Part.fw, Part.mot, Part.msix, Part.out, Part.reg .hif, Part.reg .motA, Part.reg .stk, Part.rings, Part.stk] s τ := by
  refine Keeps.exec fun ps σ hp h => ?_
  unfold execAxisMove
  refine ⟨_, rfl, ?_⟩
  refine command_keeps _ _ _ _ _ _ ?_ (Keeps.sub (by decide) hp) ?_
  · intro χ1 τ2 hτ3
    refine bodyAxisMove_keeps _ _ _ _ _ _ (Keeps.sub (by decide) hp) ?_
    exact hτ3
  · exact h

theorem stopAxis_keeps {ps : List Part} {σ : State} (a : Nat) (mode : Nat) (s : State)
    (hp : ∀ p ∈ [Part.mot, Part.msix, Part.out, Part.reg .motA, Part.reg .stk, Part.rings, Part.stk], p ∈ ps) (h : Keeps ps σ s) : Keeps ps σ (stopAxis a mode s) := by
  unfold stopAxis
  extract_lets σ1
  refine Keeps.ite (fun _ => ?_) fun _ => ?_
  · refine beginStop_keeps _ _ _ (Keeps.sub (by decide) hp) ?_
    exact h
  · refine Keeps.ite (fun _ => ?_) fun _ => ?_
    · refine updAxis_keeps _ _ _ (Keeps.sub (by decide) hp) ?_
      exact h
    · exact h

theorem bodyAxisStop_keeps {ps : List Part} {σ : State} (h : Hdr) (c : Instr) (mask : Nat) (mode : Nat) (s : State)
    (hp : ∀ p ∈ [Part.fw, Part.mot, Part.msix, Part.out, Part.reg .motA, Part.reg .stk, Part.rings, Part.stk], p ∈ ps) (hs : Keeps ps σ s) : Keeps ps σ (bodyAxisStop h c mask mode s) := by
  unfold bodyAxisStop
  extract_lets σ1 σ2 σ3
  have hσ2 : Keeps ps σ σ2 := by
    unfold σ2
    refine Keeps.foldl ?_ ?_
    · intro τ4 χ5 hτ6
      refine stopAxis_keeps _ _ _ (Keeps.sub (by decide) hp) ?_
      exact hτ6
    · exact hs
  refine Keeps.ite (fun _ => ?_) fun _ => ?_
  · refine fail_keeps _ _ _ (Keeps.sub (by decide) hp) ?_
    exact hs
  · refine Keeps.ite (fun _ => ?_) fun _ => ?_
    · refine fail_keeps _ _ _ (Keeps.sub (by decide) hp) ?_
      exact hs
    · refine Keeps.ite (fun _ => ?_) fun _ => ?_
      · refine ok_keeps _ _ _ (Keeps.sub (by decide) hp) ?_
        exact hσ2
      · refine parkAccepted_keeps _ _ _ _ _ (Keeps.sub (by decide) hp) ?_
        exact hσ2

theorem execAxisStop_keeps (d : Desc) (mask : BitVec 8) (mode : BitVec 8) (s : State) :
    ∃ τ, execAxisStop d mask mode s = .next τ ∧ Keeps [Part.fw, Part.mot, Part.msix, Part.out, Part.reg .hif, Part.reg .motA, Part.reg .stk, Part.rings, Part.stk] s τ := by
  refine Keeps.exec fun ps σ hp h => ?_
  unfold execAxisStop
  refine ⟨_, rfl, ?_⟩
  refine command_keeps _ _ _ _ _ _ ?_ (Keeps.sub (by decide) hp) ?_
  · intro χ1 τ2 hτ3
    refine bodyAxisStop_keeps _ _ _ _ _ (Keeps.sub (by decide) hp) ?_
    exact hτ3
  · exact h

theorem bodyAxisResume_keeps {ps : List Part} {σ : State} (h : Hdr) (c : Instr) (a : Nat) (s : State)
    (hp : ∀ p ∈ [Part.fw, Part.mot, Part.msix, Part.out, Part.reg .motA, Part.reg .stk, Part.rings, Part.stk], p ∈ ps) (hs : Keeps ps σ s) : Keeps ps σ (bodyAxisResume h c a s) := by
  unfold bodyAxisResume
  refine Keeps.ite (fun _ => ?_) fun _ => ?_
  · refine fail_keeps _ _ _ (Keeps.sub (by decide) hp) ?_
    exact hs
  · split
    · refine Keeps.ite (fun _ => ?_) fun _ => ?_
      · refine fail_keeps _ _ _ (Keeps.sub (by decide) hp) ?_
        exact hs
      · refine startHost_keeps _ _ _ _ _ _ _ (Keeps.sub (by decide) hp) ?_
        exact hs
    · refine fail_keeps _ _ _ (Keeps.sub (by decide) hp) ?_
      exact hs

theorem execAxisResume_keeps (d : Desc) (axis : BitVec 8) (s : State) :
    ∃ τ, execAxisResume d axis s = .next τ ∧ Keeps [Part.fw, Part.mot, Part.msix, Part.out, Part.reg .hif, Part.reg .motA, Part.reg .stk, Part.rings, Part.stk] s τ := by
  refine Keeps.exec fun ps σ hp h => ?_
  unfold execAxisResume
  refine ⟨_, rfl, ?_⟩
  refine command_keeps _ _ _ _ _ _ ?_ (Keeps.sub (by decide) hp) ?_
  · intro χ1 τ2 hτ3
    refine bodyAxisResume_keeps _ _ _ _ (Keeps.sub (by decide) hp) ?_
    exact hτ3
  · exact h

theorem bodyAxisQuery_keeps {ps : List Part} {σ : State} (h : Hdr) (a : Nat) (s : State)
    (hp : ∀ p ∈ [Part.fw, Part.msix, Part.out, Part.reg .stk, Part.rings, Part.stk], p ∈ ps) (hs : Keeps ps σ s) : Keeps ps σ (bodyAxisQuery h a s) := by
  unfold bodyAxisQuery
  refine Keeps.ite (fun _ => ?_) fun _ => ?_
  · refine fail_keeps _ _ _ (Keeps.sub (by decide) hp) ?_
    exact hs
  · refine ok_keeps _ _ _ (Keeps.sub (by decide) hp) ?_
    exact hs

theorem execAxisQuery_keeps (d : Desc) (axis : BitVec 8) (s : State) :
    ∃ τ, execAxisQuery d axis s = .next τ ∧ Keeps [Part.fw, Part.msix, Part.out, Part.reg .hif, Part.reg .stk, Part.rings, Part.stk] s τ := by
  refine Keeps.exec fun ps σ hp h => ?_
  unfold execAxisQuery
  refine ⟨_, rfl, ?_⟩
  refine query_keeps _ _ _ _ _ ?_ (Keeps.sub (by decide) hp) ?_
  · intro χ1 τ2 hτ3
    refine bodyAxisQuery_keeps _ _ _ (Keeps.sub (by decide) hp) ?_
    exact hτ3
  · exact h

theorem moveComplete_keeps {ps : List Part} {σ : State} (a : Nat) (s : State)
    (hp : ∀ p ∈ [Part.fw, Part.mot, Part.msix, Part.out, Part.reg .motA, Part.reg .stk, Part.rings, Part.stk], p ∈ ps) (h : Keeps ps σ s) : Keeps ps σ (moveComplete a s) := by
  unfold moveComplete
  extract_lets σ1
  split
  · exact h
  · split
    · refine Keeps.ite (fun _ => ?_) fun _ => ?_
      · refine endMove_keeps _ _ _ _ (Keeps.sub (by decide) hp) ?_
        exact h
      · exact h
    · refine Keeps.ite (fun _ => ?_) fun _ => ?_
      · split
        · refine endMove_keeps _ _ _ _ (Keeps.sub (by decide) hp) ?_
          refine wn64_keeps _ _ _ (Keeps.sub (by simp) hp) ?_
          refine updAxis_keeps _ _ _ (Keeps.sub (by decide) hp) ?_
          exact h
        · refine endMove_keeps _ _ _ _ (Keeps.sub (by decide) hp) ?_
          exact h
        · refine endMove_keeps _ _ _ _ (Keeps.sub (by decide) hp) ?_
          refine unhome_keeps _ _ (Keeps.sub (by decide) hp) ?_
          exact h
      · exact h
    · refine Keeps.ite (fun _ => ?_) fun _ => ?_
      · split
        · refine endMove_keeps _ _ _ _ (Keeps.sub (by decide) hp) ?_
          refine wn64_keeps _ _ _ (Keeps.sub (by simp) hp) ?_
          refine updAxis_keeps _ _ _ (Keeps.sub (by decide) hp) ?_
          exact h
        · refine endMove_keeps _ _ _ _ (Keeps.sub (by decide) hp) ?_
          exact h
        · refine endMove_keeps _ _ _ _ (Keeps.sub (by decide) hp) ?_
          refine unhome_keeps _ _ (Keeps.sub (by decide) hp) ?_
          exact h
      · exact h
    · refine Keeps.ite (fun _ => ?_) fun _ => ?_
      · refine endMove_keeps _ _ _ _ (Keeps.sub (by decide) hp) ?_
        refine Keeps.ite (fun _ => ?_) fun _ => ?_
        · refine unhome_keeps _ _ (Keeps.sub (by decide) hp) ?_
          exact h
        · exact h
      · exact h
    · refine Keeps.ite (fun _ => ?_) fun _ => ?_
      · refine endMove_keeps _ _ _ _ (Keeps.sub (by decide) hp) ?_
        refine unhome_keeps _ _ (Keeps.sub (by decide) hp) ?_
        exact h
      · exact h

theorem execMoveComplete_keeps (axis : Fin 8) (s : State) :
    ∃ τ, execMoveComplete axis s = .next τ ∧ Keeps [Part.fw, Part.mot, Part.msix, Part.out, Part.reg .motA, Part.reg .stk, Part.rings, Part.stk] s τ := by
  refine Keeps.exec fun ps σ hp h => ?_
  unfold execMoveComplete
  refine ⟨_, rfl, ?_⟩
  refine moveComplete_keeps _ _ (Keeps.sub (by decide) hp) ?_
  exact h

theorem setHome_keeps {ps : List Part} {σ : State} (a : Nat) (seq : Nat) (s : State)
    (hp : ∀ p ∈ [Part.mot, Part.msix, Part.out, Part.reg .motA, Part.reg .stk, Part.rings, Part.stk], p ∈ ps) (h : Keeps ps σ s) : Keeps ps σ (setHome a seq s) := by
  unfold setHome
  extract_lets σ1 σ2
  have hσ2 : Keeps ps σ σ2 := by
    unfold σ2
    refine fixReference_keeps _ _ (Keeps.sub (by decide) hp) ?_
    refine updAxis_keeps _ _ _ (Keeps.sub (by decide) hp) ?_
    exact h
  refine raiseIrq_keeps _ _ _ (Keeps.sub (by simp) hp) ?_
  refine event_keeps _ _ _ _ (Keeps.sub (by decide) hp) ?_
  exact hσ2

theorem bodyAxisHome_keeps {ps : List Part} {σ : State} (h : Hdr) (c : Instr) (a : Nat) (seq : Nat) (timeout : Nat) (s : State)
    (hp : ∀ p ∈ [Part.fw, Part.mot, Part.msix, Part.out, Part.reg .motA, Part.reg .stk, Part.rings, Part.stk], p ∈ ps) (hs : Keeps ps σ s) : Keeps ps σ (bodyAxisHome h c a seq timeout s) := by
  unfold bodyAxisHome
  refine Keeps.ite (fun _ => ?_) fun _ => ?_
  · refine fail_keeps _ _ _ (Keeps.sub (by decide) hp) ?_
    exact hs
  · refine Keeps.ite (fun _ => ?_) fun _ => ?_
    · refine fail_keeps _ _ _ (Keeps.sub (by decide) hp) ?_
      exact hs
    · refine Keeps.ite (fun _ => ?_) fun _ => ?_
      · refine fail_keeps _ _ _ (Keeps.sub (by decide) hp) ?_
        exact hs
      · refine Keeps.ite (fun _ => ?_) fun _ => ?_
        · refine fail_keeps _ _ _ (Keeps.sub (by decide) hp) ?_
          exact hs
        · refine Keeps.ite (fun _ => ?_) fun _ => ?_
          · extract_lets σ1
            have hσ1 : Keeps ps σ σ1 := by
              unfold σ1
              refine setHome_keeps _ _ _ (Keeps.sub (by decide) hp) ?_
              refine dropRetained_keeps _ _ (Keeps.sub (by decide) hp) ?_
              exact hs
            refine ok_keeps _ _ _ (Keeps.sub (by decide) hp) ?_
            exact hσ1
          · extract_lets σ2
            refine homeSwitch_keeps _ _ (Keeps.sub (by decide) hp) ?_
            refine startHost_keeps _ _ _ _ _ _ _ (Keeps.sub (by decide) hp) ?_
            exact hs

theorem execAxisHome_keeps (d : Desc) (axis : BitVec 8) (homing : BitVec 8) (timeout : Word) (s : State) :
    ∃ τ, execAxisHome d axis homing timeout s = .next τ ∧ Keeps [Part.fw, Part.mot, Part.msix, Part.out, Part.reg .hif, Part.reg .motA, Part.reg .stk, Part.rings, Part.stk] s τ := by
  refine Keeps.exec fun ps σ hp h => ?_
  unfold execAxisHome
  refine ⟨_, rfl, ?_⟩
  refine command_keeps _ _ _ _ _ _ ?_ (Keeps.sub (by decide) hp) ?_
  · intro χ1 τ2 hτ3
    refine bodyAxisHome_keeps _ _ _ _ _ _ (Keeps.sub (by decide) hp) ?_
    exact hτ3
  · exact h

theorem homingComplete_keeps {ps : List Part} {σ : State} (a : Nat) (s : State)
    (hp : ∀ p ∈ [Part.fw, Part.mot, Part.msix, Part.out, Part.reg .motA, Part.reg .stk, Part.rings, Part.stk], p ∈ ps) (h : Keeps ps σ s) : Keeps ps σ (homingComplete a s) := by
  unfold homingComplete
  split
  · split
    · extract_lets σ1
      have hσ1 : Keeps ps σ σ1 := by
        unfold σ1
        refine setHome_keeps _ _ _ (Keeps.sub (by decide) hp) ?_
        exact h
      refine endMove_keeps _ _ _ _ (Keeps.sub (by decide) hp) ?_
      exact hσ1
    · exact h
  · exact h

theorem execHomingComplete_keeps (axis : Fin 8) (s : State) :
    ∃ τ, execHomingComplete axis s = .next τ ∧ Keeps [Part.fw, Part.mot, Part.msix, Part.out, Part.reg .motA, Part.reg .stk, Part.rings, Part.stk] s τ := by
  refine Keeps.exec fun ps σ hp h => ?_
  unfold execHomingComplete
  refine ⟨_, rfl, ?_⟩
  refine homingComplete_keeps _ _ (Keeps.sub (by decide) hp) ?_
  exact h

theorem homingTimeout_keeps {ps : List Part} {σ : State} (a : Nat) (t : Nat) (s : State)
    (hp : ∀ p ∈ [Part.clock, Part.mot, Part.msix, Part.out, Part.reg .motA, Part.reg .stk, Part.reg .tim, Part.rings, Part.stk], p ∈ ps) (h : Keeps ps σ s) : Keeps ps σ (homingTimeout a t s) := by
  unfold homingTimeout
  split
  · split
    · refine Keeps.ite (fun _ => ?_) fun _ => ?_
      · exact h
      · refine beginStop_keeps _ _ _ (Keeps.sub (by decide) hp) ?_
        refine unhome_keeps _ _ (Keeps.sub (by decide) hp) ?_
        refine advanceTo_keeps _ _ (Keeps.sub (by decide) hp) ?_
        exact h
    · exact h
  · exact h

theorem execHomingTimeout_keeps (axis : Fin 8) (t : DWord) (s : State) :
    ∃ τ, execHomingTimeout axis t s = .next τ ∧ Keeps [Part.clock, Part.mot, Part.msix, Part.out, Part.reg .motA, Part.reg .stk, Part.reg .tim, Part.rings, Part.stk] s τ := by
  refine Keeps.exec fun ps σ hp h => ?_
  unfold execHomingTimeout
  refine ⟨_, rfl, ?_⟩
  refine homingTimeout_keeps _ _ _ (Keeps.sub (by decide) hp) ?_
  exact h

theorem applyImage_keeps {ps : List Part} {s0 : State} (a : Nat) (bs : List Byte) (s : State)
    (hp : ∀ p ∈ [Part.reg .motA], p ∈ ps) (h : Keeps ps s0 s) : Keeps ps s0 (applyImage a bs s) := by
  unfold applyImage
  refine Keeps.foldl_mem (fun t off ho ht => ?_) h
  have ho : off < 0x1000 := (by decide : ∀ o ∈ configOffsets, o < 0x1000) off ho
  have hk : keyKind (pgMot a * 0x1000 + off) = .motA := by
    refine (keyKind_of (n := pgMot a) ?_).trans (pageKind_pgMot a)
    have : a % 8 < 8 := Nat.mod_lt _ (by decide)
    simp only [pgMot]; omega
  exact plainPut_keeps _ _ _ (Keeps.sub (by rw [hk]; decide) hp) ht

theorem axisConfig_keeps {ps : List Part} {σ : State} (h : Hdr) (a : Nat) (bs : List Byte) (s : State)
    (hp : ∀ p ∈ [Part.fw, Part.msix, Part.out, Part.reg .motA, Part.reg .stk, Part.rings, Part.stk], p ∈ ps) (hs : Keeps ps σ s) : Keeps ps σ (axisConfig h a bs s) := by
  unfold axisConfig
  refine Keeps.ite (fun _ => ?_) fun _ => ?_
  · refine fail_keeps _ _ _ (Keeps.sub (by decide) hp) ?_
    exact hs
  · refine Keeps.ite (fun _ => ?_) fun _ => ?_
    · refine fail_keeps _ _ _ (Keeps.sub (by decide) hp) ?_
      exact hs
    · refine ok_keeps _ _ _ (Keeps.sub (by decide) hp) ?_
      refine applyImage_keeps _ _ _ (Keeps.sub (by decide) hp) ?_
      exact hs

theorem bodyAxisConfig_keeps {ps : List Part} {σ : State} (h : Hdr) (c : Instr) (a : Nat) (handle : Nat) (s : State)
    (hp : ∀ p ∈ [Part.fw, Part.msix, Part.out, Part.reg .motA, Part.reg .stk, Part.rings, Part.stk], p ∈ ps) (hs : Keeps ps σ s) : Keeps ps σ (bodyAxisConfig h c a handle s) := by
  unfold bodyAxisConfig
  refine Keeps.ite (fun _ => ?_) fun _ => ?_
  · refine fail_keeps _ _ _ (Keeps.sub (by decide) hp) ?_
    exact hs
  · refine withStream_keeps _ _ _ _ _ _ _ ?_ (Keeps.sub (by decide) hp) ?_
    · intro χ1 τ2 hτ3
      refine axisConfig_keeps _ _ _ _ (Keeps.sub (by decide) hp) ?_
      exact hτ3
    · exact hs

theorem execAxisConfig_keeps (d : Desc) (axis : BitVec 8) (handle : Word) (s : State) :
    ∃ τ, execAxisConfig d axis handle s = .next τ ∧ Keeps [Part.fw, Part.msix, Part.out, Part.reg .hif, Part.reg .motA, Part.reg .stk, Part.rings, Part.stk] s τ := by
  refine Keeps.exec fun ps σ hp h => ?_
  unfold execAxisConfig
  refine ⟨_, rfl, ?_⟩
  refine command_keeps _ _ _ _ _ _ ?_ (Keeps.sub (by decide) hp) ?_
  · intro χ1 τ2 hτ3
    refine bodyAxisConfig_keeps _ _ _ _ _ (Keeps.sub (by decide) hp) ?_
    exact hτ3
  · exact h

theorem motFaultClear_keeps {ps : List Part} {σ : State} (a : Nat) (v : Word) (s : State)
    (hp : ∀ p ∈ [Part.msix, Part.out, Part.reg .motA], p ∈ ps) (h : Keeps ps σ s) : Keeps ps σ (motFaultClear a v s) := by
  unfold motFaultClear
  extract_lets σ1 σ2
  have hσ2 : Keeps ps σ σ2 := by
    unfold σ2
    refine Keeps.ite (fun _ => ?_) fun _ => ?_
    · refine wf_keeps _ _ _ _ _ (Keeps.sub (by simp +zetaDelta) hp) ?_
      exact h
    · exact h
  refine Keeps.foldl ?_ ?_
  · intro τ3 χ4 hτ5
    refine Keeps.ite (fun _ => ?_) fun _ => ?_
    · refine Keeps.ite (fun _ => ?_) fun _ => ?_
      · refine recordErr_keeps _ _ _ (Keeps.sub (by simp) hp) ?_
        refine wf_keeps _ _ _ _ _ (Keeps.sub (by simp +zetaDelta) hp) ?_
        exact hτ5
      · refine wf_keeps _ _ _ _ _ (Keeps.sub (by simp +zetaDelta) hp) ?_
        exact hτ5
    · exact hτ5
  · exact hσ2

theorem execMotFaultClear_keeps (ini : Initiator) (axis : Fin 8) (val : Word) (s : State) :
    ∃ τ, execMotFaultClear ini axis val s = .next τ ∧ Keeps [Part.msix, Part.out, Part.reg .hif, Part.reg .motA] s τ := by
  refine Keeps.exec fun ps σ hp h => ?_
  unfold execMotFaultClear
  refine ⟨_, rfl, ?_⟩
  refine guardWrite_keeps _ _ _ _ _ _ ?_ (Keeps.sub (by simp) hp) ?_
  · intro χ1 τ2 hτ3
    refine motFaultClear_keeps _ _ _ (Keeps.sub (by decide) hp) ?_
    exact hτ3
  · exact h

theorem motConfigWrite_keeps {ps : List Part} {σ : State} (a : Nat) (addr : Nat) (v : Word) (s : State)
    (hp : ∀ p ∈ [Part.reg (keyKind addr), Part.msix, Part.out, Part.reg .motA], p ∈ ps) (h : Keeps ps σ s) : Keeps ps σ (motConfigWrite a addr v s) := by
  unfold motConfigWrite
  refine Keeps.ite (fun _ => ?_) fun _ => ?_
  · refine recordErr_keeps _ _ _ (Keeps.sub (by simp) hp) ?_
    exact h
  · extract_lets σ1 σ2
    refine Keeps.ite (fun _ => ?_) fun _ => ?_
    · refine plainPut_keeps _ _ _ (Keeps.sub (by simp) hp) ?_
      exact h
    · refine recordErr_keeps _ _ _ (Keeps.sub (by simp) hp) ?_
      exact h

end Sys2Proof.Machine
end

