-- ==== Sys2Proof/Laws/KeepsStook.lean ====
section
/-! SUPPORT. What the operations of Machine/Stook.lean change, and what they keep. -/

namespace Sys2Proof.Machine
open Sys2Proof

theorem writeGap_keeps {ps : List Part} {σ : State} (n : Nat) (s : State)
    (hp : ∀ p ∈ [Part.msix, Part.out, Part.reg .stk, Part.rings, Part.stk], p ∈ ps) (h : Keeps ps σ s) : Keeps ps σ (writeGap n s) := by
  unfold writeGap
  extract_lets σ1
  refine Keeps.ite (fun _ => ?_) fun _ => ?_
  · refine postRecords_keeps _ _ _ (Keeps.sub (by decide) hp) ?_
    refine updRing_keeps _ _ _ (Keeps.sub (by decide) hp) ?_
    exact h
  · exact h

theorem writeEvent_keeps {ps : List Part} {σ : State} (e : Event) (n : Nat) (s : State)
    (hp : ∀ p ∈ [Part.msix, Part.out, Part.reg .stk, Part.rings, Part.stk], p ∈ ps) (h : Keeps ps σ s) : Keeps ps σ (writeEvent e n s) := by
  unfold writeEvent
  extract_lets σ1 σ2
  have hσ1 : Keeps ps σ σ1 := by
    unfold σ1
    refine writeGap_keeps _ _ (Keeps.sub (by decide) hp) ?_
    exact h
  refine Keeps.ite (fun _ => ?_) fun _ => ?_
  · refine postRecords_keeps _ _ _ (Keeps.sub (by decide) hp) ?_
    exact hσ1
  · refine dropEvent_keeps _ _ _ (Keeps.sub (by decide) hp) ?_
    exact hσ1

theorem bucketWait_keeps {ps : List Part} {σ : State} (s : State)
    (hp : ∀ p ∈ [Part.stk], p ∈ ps) (h : Keeps ps σ s) : Keeps ps σ (bucketWait s) := by
  unfold bucketWait
  split
  · refine Keeps.set_stk (hp _ (by decide)) ?_
    exact h
  · exact h

theorem bucketGo_keeps {ps : List Part} {σ : State} (s : State)
    (hp : ∀ p ∈ [Part.reg .stk, Part.stk], p ∈ ps) (h : Keeps ps σ s) : Keeps ps σ (bucketGo s) := by
  unfold bucketGo
  split
  · refine inc_keeps _ _ _ (Keeps.sub (by decide) hp) ?_
    refine Keeps.set_stk (hp _ (by decide)) ?_
    exact h
  · exact h

theorem stookEventWrite_keeps {ps : List Part} {σ : State} (s : State)
    (hp : ∀ p ∈ [Part.msix, Part.out, Part.reg .stk, Part.rings, Part.stk], p ∈ ps) (h : Keeps ps σ s) : Keeps ps σ (stookEventWrite s) := by
  unfold stookEventWrite
  split
  · exact h
  · extract_lets σ1 σ2 σ3 σ4
    have hσ3 : Keeps ps σ σ3 := by
      unfold σ3
      refine Keeps.ite (fun _ => ?_) fun _ => ?_
      · exact h
      · refine bucketGo_keeps _ (Keeps.sub (by decide) hp) ?_
        exact h
    refine Keeps.ite (fun _ => ?_) fun _ => ?_
    · refine Keeps.set_stk (hp _ (by decide)) ?_
      exact h
    · refine Keeps.ite (fun _ => ?_) fun _ => ?_
      · exact h
      · refine Keeps.ite (fun _ => ?_) fun _ => ?_
        · refine bucketWait_keeps _ (Keeps.sub (by decide) hp) ?_
          exact h
        · refine Keeps.foldl ?_ ?_
          · intro τ5 χ6 hτ7
            refine writeEvent_keeps _ _ _ (Keeps.sub (by decide) hp) ?_
            exact hτ7
          · refine Keeps.set_stk (hp _ (by decide)) ?_
            exact hσ3

theorem execStookEventWrite_keeps (s : State) :
    ∃ τ, execStookEventWrite s = .next τ ∧ Keeps [Part.msix, Part.out, Part.reg .stk, Part.rings, Part.stk] s τ := by
  refine Keeps.exec fun ps σ hp h => ?_
  unfold execStookEventWrite
  refine ⟨_, rfl, ?_⟩
  refine stookEventWrite_keeps _ (Keeps.sub (by decide) hp) ?_
  exact h

theorem updCore_keeps {ps : List Part} {σ : State} (c : Nat) (f : CoreTrace → CoreTrace) (s : State)
    (hp : ∀ p ∈ [Part.stk], p ∈ ps) (h : Keeps ps σ s) : Keeps ps σ (updCore c f s) := by
  unfold updCore
  refine Keeps.set_stk (hp _ (by decide)) ?_
  exact h

theorem losePkt_keeps {ps : List Part} {σ : State} (x : TracePkt) (s : State)
    (hp : ∀ p ∈ [Part.reg .stk, Part.stk], p ∈ ps) (h : Keeps ps σ s) : Keeps ps σ (losePkt x s) := by
  unfold losePkt
  refine inc_keeps _ _ _ (Keeps.sub (by decide) hp) ?_
  refine updCore_keeps _ _ _ (Keeps.sub (by decide) hp) ?_
  refine Keeps.set_stk (hp _ (by decide)) ?_
  exact h

theorem refreshShed_keeps {ps : List Part} {σ : State} (s : State)
    (hp : ∀ p ∈ [Part.msix, Part.out, Part.reg .stk, Part.rings, Part.stk], p ∈ ps) (h : Keeps ps σ s) : Keeps ps σ (refreshShed s) := by
  unfold refreshShed
  extract_lets σ1 σ2 σ3 σ4 σ5
  have hσ3 : Keeps ps σ σ3 := by
    unfold σ3
    refine Keeps.set_stk (hp _ (by decide)) ?_
    exact h
  refine Keeps.ite (fun _ => ?_) fun _ => ?_
  · refine event_keeps _ _ _ _ (Keeps.sub (by decide) hp) ?_
    refine Keeps.set_stk (hp _ (by decide)) ?_
    exact hσ3
  · refine Keeps.ite (fun _ => ?_) fun _ => ?_
    · refine raiseIrq_keeps _ _ _ (Keeps.sub (by decide) hp) ?_
      exact hσ3
    · exact hσ3

theorem queuePkt_keeps {ps : List Part} {σ : State} (x : TracePkt) (s : State)
    (hp : ∀ p ∈ [Part.msix, Part.out, Part.reg .stk, Part.rings, Part.stk], p ∈ ps) (h : Keeps ps σ s) : Keeps ps σ (queuePkt x s) := by
  unfold queuePkt
  refine Keeps.ite (fun _ => ?_) fun _ => ?_
  · refine losePkt_keeps _ _ (Keeps.sub (by decide) hp) ?_
    exact h
  · refine refreshShed_keeps _ (Keeps.sub (by decide) hp) ?_
    refine Keeps.set_stk (hp _ (by decide)) ?_
    exact h

theorem queueGap_keeps {ps : List Part} {σ : State} (c : Nat) (s : State)
    (hp : ∀ p ∈ [Part.msix, Part.out, Part.reg .stk, Part.rings, Part.stk], p ∈ ps) (h : Keeps ps σ s) : Keeps ps σ (queueGap c s) := by
  unfold queueGap
  extract_lets σ1 σ2 σ3
  refine Keeps.ite (fun _ => ?_) fun _ => ?_
  · refine inc_keeps _ _ _ (Keeps.sub (by decide) hp) ?_
    refine queuePkt_keeps _ _ (Keeps.sub (by decide) hp) ?_
    refine updCore_keeps _ _ _ (Keeps.sub (by decide) hp) ?_
    exact h
  · exact h

theorem coreEmit_keeps {ps : List Part} {σ : State} (c : Nat) (typ : Nat) (prio : Nat) (data : List Byte) (s : State)
    (hp : ∀ p ∈ [Part.reg .stk, Part.stk], p ∈ ps) (h : Keeps ps σ s) : Keeps ps σ (coreEmit c typ prio data s) := by
  unfold coreEmit
  extract_lets σ1 σ2 σ3
  have hσ3 : Keeps ps σ σ3 := by
    unfold σ3
    refine updCore_keeps _ _ _ (Keeps.sub (by decide) hp) ?_
    exact h
  refine Keeps.ite (fun _ => ?_) fun _ => ?_
  · refine updCore_keeps _ _ _ (Keeps.sub (by decide) hp) ?_
    exact hσ3
  · refine updCore_keeps _ _ _ (Keeps.sub (by decide) hp) ?_
    refine losePkt_keeps _ _ (Keeps.sub (by decide) hp) ?_
    exact hσ3

theorem coreFlush_keeps {ps : List Part} {σ : State} (c : Nat) (s : State)
    (hp : ∀ p ∈ [Part.msix, Part.out, Part.reg .stk, Part.rings, Part.stk], p ∈ ps) (h : Keeps ps σ s) : Keeps ps σ (coreFlush c s) := by
  unfold coreFlush
  extract_lets σ1
  refine Keeps.foldl ?_ ?_
  · intro τ2 χ3 hτ4
    refine queuePkt_keeps _ _ (Keeps.sub (by decide) hp) ?_
    refine queueGap_keeps _ _ (Keeps.sub (by decide) hp) ?_
    exact hτ4
  · refine updCore_keeps _ _ _ (Keeps.sub (by decide) hp) ?_
    exact h

theorem execCoreSleep_keeps (core : Fin 4) (s : State) :
    ∃ τ, execCoreSleep core s = .next τ ∧ Keeps [Part.msix, Part.out, Part.reg .stk, Part.rings, Part.stk] s τ := by
  refine Keeps.exec fun ps σ hp h => ?_
  unfold execCoreSleep
  refine ⟨_, rfl, ?_⟩
  refine Keeps.ite (fun _ => ?_) fun _ => ?_
  · exact h
  · refine updCore_keeps _ _ _ (Keeps.sub (by decide) hp) ?_
    refine coreFlush_keeps _ _ (Keeps.sub (by decide) hp) ?_
    refine coreEmit_keeps _ _ _ _ _ (Keeps.sub (by decide) hp) ?_
    exact h

theorem coreWake_keeps {ps : List Part} {σ : State} (core : Nat) (ctx : Word) (pc : DWord) (s : State)
    (hp : ∀ p ∈ [Part.msix, Part.out, Part.reg .stk, Part.rings, Part.stk], p ∈ ps) (h : Keeps ps σ s) : Keeps ps σ (coreWake core ctx pc s) := by
  unfold coreWake
  refine Keeps.ite (fun _ => ?_) fun _ => ?_
  · extract_lets σ1
    have hσ1 : Keeps ps σ σ1 := by
      unfold σ1
      refine updCore_keeps _ _ _ (Keeps.sub (by decide) hp) ?_
      exact h
    refine coreFlush_keeps _ _ (Keeps.sub (by decide) hp) ?_
    refine coreEmit_keeps _ _ _ _ _ (Keeps.sub (by decide) hp) ?_
    refine coreEmit_keeps _ _ _ _ _ (Keeps.sub (by decide) hp) ?_
    exact hσ1
  · exact h

theorem execCoreWake_keeps (core : Fin 4) (ctx : Word) (pc : DWord) (s : State) :
    ∃ τ, execCoreWake core ctx pc s = .next τ ∧ Keeps [Part.msix, Part.out, Part.reg .stk, Part.rings, Part.stk] s τ := by
  refine Keeps.exec fun ps σ hp h => ?_
  unfold execCoreWake
  refine ⟨_, rfl, ?_⟩
  refine coreWake_keeps _ _ _ _ (Keeps.sub (by decide) hp) ?_
  exact h

theorem stookTraceWrite_keeps {ps : List Part} {σ : State} (s : State)
    (hp : ∀ p ∈ [Part.msix, Part.out, Part.reg .stk, Part.rings, Part.stk], p ∈ ps) (h : Keeps ps σ s) : Keeps ps σ (stookTraceWrite s) := by
  unfold stookTraceWrite
  split
  · exact h
  · extract_lets σ1 σ2
    refine Keeps.ite (fun _ => ?_) fun _ => ?_
    · unfold σ2
      refine refreshShed_keeps _ (Keeps.sub (by decide) hp) ?_
      refine Keeps.set_stk (hp _ (by decide)) ?_
      refine losePkt_keeps _ _ (Keeps.sub (by decide) hp) ?_
      exact h
    · refine Keeps.ite (fun _ => ?_) fun _ => ?_
      · exact h
      · refine Keeps.ite (fun _ => ?_) fun _ => ?_
        · refine bucketWait_keeps _ (Keeps.sub (by decide) hp) ?_
          exact h
        · refine Keeps.foldl ?_ ?_
          · intro τ3 χ4 hτ5
            refine postRecords_keeps _ _ _ (Keeps.sub (by decide) hp) ?_
            exact hτ5
          · unfold σ2
            refine refreshShed_keeps _ (Keeps.sub (by decide) hp) ?_
            refine Keeps.set_stk (hp _ (by decide)) ?_
            refine bucketGo_keeps _ (Keeps.sub (by decide) hp) ?_
            exact h

theorem execStookTraceWrite_keeps (s : State) :
    ∃ τ, execStookTraceWrite s = .next τ ∧ Keeps [Part.msix, Part.out, Part.reg .stk, Part.rings, Part.stk] s τ := by
  refine Keeps.exec fun ps σ hp h => ?_
  unfold execStookTraceWrite
  refine ⟨_, rfl, ?_⟩
  refine stookTraceWrite_keeps _ (Keeps.sub (by decide) hp) ?_
  exact h

theorem throttleTimer_keeps {ps : List Part} {σ : State} (t : Nat) (s : State)
    (hp : ∀ p ∈ [Part.clock, Part.msix, Part.out, Part.reg .stk, Part.reg .tim, Part.rings, Part.stk], p ∈ ps) (h : Keeps ps σ s) : Keeps ps σ (throttleTimer t s) := by
  unfold throttleTimer
  split
  · refine Keeps.ite (fun _ => ?_) fun _ => ?_
    · extract_lets σ1 σ2
      have hσ1 : Keeps ps σ σ1 := by
        unfold σ1
        refine advanceTo_keeps _ _ (Keeps.sub (by decide) hp) ?_
        exact h
      refine raiseIrq_keeps _ _ _ (Keeps.sub (by decide) hp) ?_
      refine Keeps.set_stk (hp _ (by decide)) ?_
      exact hσ1
    · exact h
  · exact h

theorem execStookThrottleTimer_keeps (t : DWord) (s : State) :
    ∃ τ, execStookThrottleTimer t s = .next τ ∧ Keeps [Part.clock, Part.msix, Part.out, Part.reg .stk, Part.reg .tim, Part.rings, Part.stk] s τ := by
  refine Keeps.exec fun ps σ hp h => ?_
  unfold execStookThrottleTimer
  refine ⟨_, rfl, ?_⟩
  refine throttleTimer_keeps _ _ (Keeps.sub (by decide) hp) ?_
  exact h

theorem traceStandby_keeps {ps : List Part} {σ : State} (s : State)
    (hp : ∀ p ∈ [Part.reg .stk, Part.stk], p ∈ ps) (h : Keeps ps σ s) : Keeps ps σ (traceStandby s) := by
  unfold traceStandby
  extract_lets σ1 σ2 σ3
  have hσ1 : Keeps ps σ σ1 := by
    unfold σ1
    refine Keeps.foldl ?_ ?_
    · intro τ11 χ12 hτ13
      refine losePkt_keeps _ _ (Keeps.sub (by decide) hp) ?_
      exact hτ13
    · exact h
  have hσ3 : Keeps ps σ σ3 := by
    unfold σ3
    refine Keeps.set_stk (hp _ (by decide)) ?_
    exact hσ1
  refine Keeps.foldl ?_ ?_
  · intro τ4 χ5 hτ6
    extract_lets σ7
    have hσ7 : Keeps ps σ σ7 := by
      unfold σ7
      refine Keeps.foldl ?_ ?_
      · intro τ8 χ9 hτ10
        refine losePkt_keeps _ _ (Keeps.sub (by decide) hp) ?_
        exact hτ10
      · exact hτ6
    refine updCore_keeps _ _ _ (Keeps.sub (by decide) hp) ?_
    exact hσ7
  · exact hσ3

theorem traceConfig_keeps {ps : List Part} {σ : State} (h : Hdr) (x : Stream) (s : State)
    (hp : ∀ p ∈ [Part.fw, Part.msix, Part.out, Part.reg .stk, Part.rings, Part.stk], p ∈ ps) (hs : Keeps ps σ s) : Keeps ps σ (traceConfig h x s) := by
  unfold traceConfig
  refine Keeps.ite (fun _ => ?_) fun _ => ?_
  · extract_lets σ1 σ2
    refine ok_keeps _ _ _ (Keeps.sub (by decide) hp) ?_
    refine Keeps.set_stk (hp _ (by decide)) ?_
    exact hs
  · refine fail_keeps _ _ _ (Keeps.sub (by decide) hp) ?_
    exact hs

theorem bodyTraceConfig_keeps {ps : List Part} {σ : State} (h : Hdr) (c : Instr) (handle : Nat) (s : State)
    (hp : ∀ p ∈ [Part.fw, Part.msix, Part.out, Part.reg .stk, Part.rings, Part.stk], p ∈ ps) (hs : Keeps ps σ s) : Keeps ps σ (bodyTraceConfig h c handle s) := by
  unfold bodyTraceConfig
  refine withStream_keeps _ _ _ _ _ _ _ ?_ (Keeps.sub (by decide) hp) ?_
  · intro χ1 τ2 hτ3
    refine traceConfig_keeps _ _ _ (Keeps.sub (by decide) hp) ?_
    exact hτ3
  · exact hs

theorem execTraceConfig_keeps (d : Desc) (handle : Word) (s : State) :
    ∃ τ, execTraceConfig d handle s = .next τ ∧ Keeps [Part.fw, Part.msix, Part.out, Part.reg .hif, Part.reg .stk, Part.rings, Part.stk] s τ := by
  refine Keeps.exec fun ps σ hp h => ?_
  unfold execTraceConfig
  refine ⟨_, rfl, ?_⟩
  refine command_keeps _ _ _ _ _ _ ?_ (Keeps.sub (by decide) hp) ?_
  · intro χ1 τ2 hτ3
    refine bodyTraceConfig_keeps _ _ _ _ (Keeps.sub (by decide) hp) ?_
    exact hτ3
  · exact h

theorem bodyStookLimit_keeps {ps : List Part} {σ : State} (h : Hdr) (v : Nat) (s : State)
    (hp : ∀ p ∈ [Part.fw, Part.msix, Part.out, Part.reg .stk, Part.rings, Part.stk], p ∈ ps) (hs : Keeps ps σ s) : Keeps ps σ (bodyStookLimit h v s) := by
  unfold bodyStookLimit
  refine Keeps.ite (fun _ => ?_) fun _ => ?_
  · refine fail_keeps _ _ _ (Keeps.sub (by decide) hp) ?_
    exact hs
  · refine ok_keeps _ _ _ (Keeps.sub (by decide) hp) ?_
    refine wn_keeps _ _ _ (Keeps.sub (by decide) hp) ?_
    exact hs

theorem execStookLimit_keeps (d : Desc) (limit : Word) (s : State) :
    ∃ τ, execStookLimit d limit s = .next τ ∧ Keeps [Part.fw, Part.msix, Part.out, Part.reg .hif, Part.reg .stk, Part.rings, Part.stk] s τ := by
  refine Keeps.exec fun ps σ hp h => ?_
  unfold execStookLimit
  refine ⟨_, rfl, ?_⟩
  refine command_keeps _ _ _ _ _ _ ?_ (Keeps.sub (by decide) hp) ?_
  · intro χ1 τ2 hτ3
    refine bodyStookLimit_keeps _ _ _ (Keeps.sub (by decide) hp) ?_
    exact hτ3
  · exact h

end Sys2Proof.Machine
end

