-- ==== Sys2Proof/Laws/KeepsUnseal.lean ====
section
/-! SUPPORT. What the operations of Machine/Unseal.lean change, and what they keep. -/

namespace Sys2Proof.Machine
open Sys2Proof

theorem unsealFail_keeps {ps : List Part} {σ : State} (t : Nat) (h : Nat) (reason : Nat) (num : Nat) (s : State)
    (hp : ∀ p ∈ [Part.jobs, Part.thr], p ∈ ps) (hs : Keeps ps σ s) : Keeps ps σ (unsealFail t h reason num s) := by
  unfold unsealFail
  refine updStream_keeps _ _ _ _ (Keeps.sub (by decide) hp) ?_
  refine Keeps.set_thr (hp _ (by decide)) ?_
  exact hs

theorem unsealNext_keeps {ps : List Part} {σ : State} (t : Nat) (h : Nat) (u : Unseal) (s : State)
    (hp : ∀ p ∈ [Part.jobs, Part.thr], p ∈ ps) (hs : Keeps ps σ s) : Keeps ps σ (unsealNext t h u s) := by
  unfold unsealNext
  split
  · split
    · split
      · refine updStream_keeps _ _ _ _ (Keeps.sub (by decide) hp) ?_
        refine Keeps.set_thr (hp _ (by decide)) ?_
        exact hs
      · refine unsealFail_keeps _ _ _ _ _ (Keeps.sub (by decide) hp) ?_
        exact hs
    · refine unsealFail_keeps _ _ _ _ _ (Keeps.sub (by decide) hp) ?_
      exact hs
  · exact hs

theorem unsealRun_keeps {ps : List Part} {σ : State} (due : Option Nat) (y0 : Nat) (s : State)
    (hp : ∀ p ∈ [Part.jobs, Part.thr], p ∈ ps) (h : Keeps ps σ s) : Keeps ps σ (unsealRun due y0 s) := by
  induction y0 generalizing due s with
  | zero =>
    exact h
  | succ m ih =>
    unfold unsealRun
    split
    · refine Keeps.ite (fun _ => ?_) fun _ => ?_
      · exact h
      · refine ih _ _ ?_
        refine unsealNext_keeps _ _ _ _ (Keeps.sub (by decide) hp) ?_
        exact h
    · exact h

theorem unsealDue_keeps {ps : List Part} {σ : State} (s : State)
    (hp : ∀ p ∈ [Part.jobs, Part.thr], p ∈ ps) (h : Keeps ps σ s) : Keeps ps σ (unsealDue s) := by
  unfold unsealDue
  refine unsealRun_keeps _ _ _ (Keeps.sub (by decide) hp) ?_
  exact h

theorem streamPrepare_keeps {ps : List Part} {σ : State} (t : Nat) (h : Nat) (s : State)
    (hp : ∀ p ∈ [Part.jobs, Part.thr], p ∈ ps) (hs : Keeps ps σ s) : Keeps ps σ (streamPrepare t h s) := by
  unfold streamPrepare
  refine Keeps.ite (fun _ => ?_) fun _ => ?_
  · exact hs
  · extract_lets σ1 σ2 σ3 σ4 σ5 σ6
    have hσ2 : Keeps ps σ σ2 := by
      unfold σ2
      refine Keeps.set_thr (hp _ (by decide)) ?_
      exact hs
    have hσ5 : Keeps ps σ σ5 := by
      unfold σ5
      refine Keeps.set_thr (hp _ (by decide)) ?_
      exact hσ2
    split
    · exact hσ2
    · extract_lets σ7
      refine Keeps.ite (fun _ => ?_) fun _ => ?_
      · unfold σ3
        refine updStream_keeps _ _ _ _ (Keeps.sub (by decide) hp) ?_
        exact hσ5
      · refine Keeps.ite (fun _ => ?_) fun _ => ?_
        · refine unsealFail_keeps _ _ _ _ _ (Keeps.sub (by decide) hp) ?_
          exact hσ5
        · refine unsealDue_keeps _ (Keeps.sub (by decide) hp) ?_
          unfold σ3
          refine updStream_keeps _ _ _ _ (Keeps.sub (by decide) hp) ?_
          refine Keeps.set_thr (hp _ (by decide)) ?_
          exact hσ5

theorem execThrStreamPrepare_keeps (tenant : Fin 1024) (handle : Word) (s : State) :
    ∃ τ, execThrStreamPrepare tenant handle s = .next τ ∧ Keeps [Part.jobs, Part.thr] s τ := by
  refine Keeps.exec fun ps σ hp h => ?_
  unfold execThrStreamPrepare
  refine ⟨_, rfl, ?_⟩
  refine streamPrepare_keeps _ _ _ (Keeps.sub (by decide) hp) ?_
  exact h

end Sys2Proof.Machine
end

