-- ==== Sys2Proof/Laws/KeepsThresher.lean ====
section
/-! SUPPORT. What the operations of Machine/Thresher.lean change, and what they keep. -/

namespace Sys2Proof.Machine
open Sys2Proof

theorem voidPage_keeps {ps : List Part} {σ : State} (t : Nat) (j : Nat) (p : Nat) (s : State)
    (hp : ∀ q ∈ [Part.crk, Part.free, Part.glz, Part.hif, Part.jobs, Part.kln, Part.msix, Part.out, Part.reg .hif, Part.reg .klnC, Part.reg .stk, Part.rings, Part.sag, Part.stk, Part.thr], q ∈ ps) (h : Keeps ps σ s) : Keeps ps σ (voidPage t j p s) := by
  unfold voidPage
  refine refreshIdle_keeps _ (Keeps.sub (by decide) hp) ?_
  beta_reduce
  refine Keeps.foldl ?_ ?_
  · intro τ1 χ2 hτ3
    refine voidCopy_keeps _ _ _ (Keeps.sub (by decide) hp) ?_
    exact hτ3
  · exact h

theorem streamBad_keeps {ps : List Part} {σ : State} (t : Nat) (h : Nat) (reason : Nat) (seg : Nat) (s : State)
    (hp : ∀ p ∈ [Part.msix, Part.out, Part.reg .stk, Part.reg .thr, Part.rings, Part.stk], p ∈ ps) (hs : Keeps ps σ s) : Keeps ps σ (streamBad t h reason seg s) := by
  unfold streamBad
  extract_lets σ1 σ2
  have hσ1 : Keeps ps σ σ1 := by
    unfold σ1
    refine recordErr_keeps _ _ _ (Keeps.sub (by decide) hp) ?_
    refine inc_keeps _ _ _ (Keeps.sub (by decide) hp) ?_
    exact hs
  have hσ2 : Keeps ps σ σ2 := by
    unfold σ2
    refine Keeps.ite (fun _ => ?_) fun _ => ?_
    · refine raiseIrq_keeps _ _ _ (Keeps.sub (by decide) hp) ?_
      refine inc_keeps _ _ _ (Keeps.sub (by decide) hp) ?_
      exact hσ1
    · exact hσ1
  refine raiseIrq_keeps _ _ _ (Keeps.sub (by decide) hp) ?_
  refine event_keeps _ _ _ _ (Keeps.sub (by decide) hp) ?_
  refine wn_keeps _ _ _ (Keeps.sub (by decide) hp) ?_
  refine wn_keeps _ _ _ (Keeps.sub (by decide) hp) ?_
  exact hσ2

theorem checkPage_keeps {ps : List Part} {σ : State} (t : Template) (s : State)
    (hp : ∀ p ∈ [Part.crk, Part.free, Part.glz, Part.hif, Part.jobs, Part.kln, Part.msix, Part.out, Part.reg .hif, Part.reg .klnC, Part.reg .stk, Part.reg .thr, Part.rings, Part.sag, Part.stk, Part.thr], p ∈ ps) (h : Keeps ps σ s) : Keeps ps σ (checkPage t s) := by
  unfold checkPage
  refine Keeps.foldl ?_ ?_
  · intro τ1 χ2 hτ3
    split
    · refine Keeps.ite (fun _ => ?_) fun _ => ?_
      · split
        · refine voidPage_keeps _ _ _ _ (Keeps.sub (by decide) hp) ?_
          refine streamBad_keeps _ _ _ _ _ (Keeps.sub (by decide) hp) ?_
          refine updStream_keeps _ _ _ _ (Keeps.sub (by decide) hp) ?_
          exact hτ3
        · exact hτ3
      · exact hτ3
    · exact hτ3
  · exact h

theorem badStream_keeps {ps : List Part} {σ : State} (t : Nat) (h : Nat) (reason : Nat) (seg : Nat) (s : State)
    (hp : ∀ p ∈ [Part.crk, Part.free, Part.glz, Part.hif, Part.jobs, Part.kln, Part.msix, Part.out, Part.reg .hif, Part.reg .klnC, Part.reg .stk, Part.reg .thr, Part.rings, Part.sag, Part.stk, Part.thr], p ∈ ps) (hs : Keeps ps σ s) : Keeps ps σ (badStream t h reason seg s) := by
  unfold badStream
  refine Keeps.foldl ?_ ?_
  · intro τ1 χ2 hτ3
    refine voidPage_keeps _ _ _ _ (Keeps.sub (by decide) hp) ?_
    exact hτ3
  · refine streamBad_keeps _ _ _ _ _ (Keeps.sub (by decide) hp) ?_
    refine updStream_keeps _ _ _ _ (Keeps.sub (by decide) hp) ?_
    exact hs

theorem streamPrepared_keeps {ps : List Part} {σ : State} (s0 : State)
    (hp : ∀ p ∈ [Part.crk, Part.free, Part.glz, Part.hif, Part.jobs, Part.kln, Part.msix, Part.out, Part.reg .hif, Part.reg .klnC, Part.reg .stk, Part.reg .thr, Part.rings, Part.sag, Part.stk, Part.thr], p ∈ ps) (h : Keeps ps σ s0) : Keeps ps σ (streamPrepared s0) := by
  unfold streamPrepared
  split
  · exact h
  · extract_lets σ1 σ2 σ3
    have hσ1 : Keeps ps σ σ1 := by
      unfold σ1
      refine unsealRun_keeps _ _ _ (Keeps.sub (by decide) hp) ?_
      exact h
    have hσ3 : Keeps ps σ σ3 := by
      unfold σ3
      refine Keeps.set_thr (hp _ (by decide)) ?_
      exact hσ1
    split
    · exact hσ3
    · split
      · refine badStream_keeps _ _ _ _ _ (Keeps.sub (by decide) hp) ?_
        exact hσ3
      · split
        · refine badStream_keeps _ _ _ _ _ (Keeps.sub (by decide) hp) ?_
          exact hσ3
        · extract_lets σ4
          have hσ4 : Keeps ps σ σ4 := by
            unfold σ4
            refine updStream_keeps _ _ _ _ (Keeps.sub (by decide) hp) ?_
            exact hσ3
          refine refreshReady_keeps _ (Keeps.sub (by decide) hp) ?_
          refine Keeps.foldl ?_ ?_
          · intro τ5 χ6 hτ7
            refine checkPage_keeps _ _ (Keeps.sub (by decide) hp) ?_
            exact hτ7
          · exact hσ4
      · exact hσ3

theorem execThrStreamPrepared_keeps (s : State) :
    ∃ τ, execThrStreamPrepared s = .next τ ∧ Keeps [Part.crk, Part.free, Part.glz, Part.hif, Part.jobs, Part.kln, Part.msix, Part.out, Part.reg .hif, Part.reg .klnC, Part.reg .stk, Part.reg .thr, Part.rings, Part.sag, Part.stk, Part.thr] s τ := by
  refine Keeps.exec fun ps σ hp h => ?_
  unfold execThrStreamPrepared
  refine ⟨_, rfl, ?_⟩
  refine streamPrepared_keeps _ (Keeps.sub (by decide) hp) ?_
  exact h

theorem leavePages_keeps {ps : List Part} {σ : State} (gone : Template → Bool) (s : State)
    (hp : ∀ p ∈ [Part.jobs], p ∈ ps) (h : Keeps ps σ s) : Keeps ps σ (leavePages gone s) := by
  unfold leavePages
  extract_lets σ1 σ2 σ3
  refine Keeps.set_jobs (hp _ (by decide)) ?_
  exact h

theorem prepareAgain_keeps {ps : List Part} {σ : State} (t : Template) (s : State)
    (hp : ∀ p ∈ [Part.jobs, Part.thr], p ∈ ps) (h : Keeps ps σ s) : Keeps ps σ (prepareAgain t s) := by
  unfold prepareAgain
  refine noteReady_keeps _ (Keeps.sub (by decide) hp) ?_
  refine Keeps.set_jobs (hp _ (by decide)) ?_
  exact h

theorem enqueueBlocks_keeps {ps : List Part} {σ : State} (s : State)
    (hp : ∀ p ∈ [Part.jobs, Part.thr], p ∈ ps) (h : Keeps ps σ s) : Keeps ps σ (enqueueBlocks s) := by
  unfold enqueueBlocks
  refine Keeps.foldl ?_ ?_
  · intro τ1 χ2 hτ3
    refine Keeps.foldl ?_ ?_
    · intro τ4 χ5 hτ6
      refine Keeps.foldl ?_ ?_
      · intro τ7 χ8 hτ9
        refine Keeps.ite (fun _ => ?_) fun _ => ?_
        · exact hτ9
        · split
          · exact hτ9
          · extract_lets σ10 σ11
            refine updCopy_keeps _ _ _ (Keeps.sub (by decide) hp) ?_
            refine Keeps.set_thr (hp _ (by decide)) ?_
            exact hτ9
      · exact hτ6
    · exact hτ3
  · exact h

theorem giveLines_keeps {ps : List Part} {σ : State} (x : Copy) (j : BlockJob) (stride : Nat) (out : List Byte) (a : Nat) (b : Nat) (s : State)
    (hp : ∀ p ∈ [Part.thr], p ∈ ps) (h : Keeps ps σ s) : Keeps ps σ (giveLines x j stride out a b s) := by
  unfold giveLines
  extract_lets σ1 σ2 σ3
  refine Keeps.set_thr (hp _ (by decide)) ?_
  exact h

theorem laneLines_keeps {ps : List Part} {σ : State} (lane : Nat) (s : State)
    (hp : ∀ p ∈ [Part.thr], p ∈ ps) (h : Keeps ps σ s) : Keeps ps σ (laneLines lane s) := by
  unfold laneLines
  split
  · exact h
  · split
    · extract_lets σ1 σ2
      refine giveLines_keeps _ _ _ _ _ _ _ (Keeps.sub (by decide) hp) ?_
      refine Keeps.set_thr (hp _ (by decide)) ?_
      exact h
    · exact h

theorem decodeDue_keeps {ps : List Part} {σ : State} (s : State)
    (hp : ∀ p ∈ [Part.thr], p ∈ ps) (h : Keeps ps σ s) : Keeps ps σ (decodeDue s) := by
  unfold decodeDue
  refine Keeps.foldl ?_ ?_
  · intro τ1 χ2 hτ3
    refine laneLines_keeps _ _ (Keeps.sub (by decide) hp) ?_
    exact hτ3
  · exact h

theorem zeroLines_keeps {ps : List Part} {σ : State} (x : Copy) (j : BlockJob) (stride : Nat) (s : State)
    (hp : ∀ p ∈ [Part.thr], p ∈ ps) (h : Keeps ps σ s) : Keeps ps σ (zeroLines x j stride s) := by
  unfold zeroLines
  extract_lets σ1 σ2 σ3 σ4 σ5
  refine Keeps.set_thr (hp _ (by decide)) ?_
  exact h

theorem abandonBlock_keeps {ps : List Part} {σ : State} (j : BlockJob) (stride : Nat) (reason : Nat) (s : State)
    (hp : ∀ p ∈ [Part.msix, Part.out, Part.reg .stk, Part.reg .thr, Part.rings, Part.stk, Part.thr], p ∈ ps) (h : Keeps ps σ s) : Keeps ps σ (abandonBlock j stride reason s) := by
  unfold abandonBlock
  extract_lets σ1 σ2 σ3 σ4 σ5
  have hσ1 : Keeps ps σ σ1 := by
    unfold σ1
    split
    · refine zeroLines_keeps _ _ _ _ (Keeps.sub (by decide) hp) ?_
      exact h
    · exact h
  have hσ2 : Keeps ps σ σ2 := by
    unfold σ2
    refine recordErr_keeps _ _ _ (Keeps.sub (by decide) hp) ?_
    refine inc_keeps _ _ _ (Keeps.sub (by decide) hp) ?_
    exact hσ1
  have hσ3 : Keeps ps σ σ3 := by
    unfold σ3
    refine Keeps.ite (fun _ => ?_) fun _ => ?_
    · refine inc_keeps _ _ _ (Keeps.sub (by decide) hp) ?_
      exact hσ2
    · exact hσ2
  have hσ4 : Keeps ps σ σ4 := by
    unfold σ4
    refine wn_keeps _ _ _ (Keeps.sub (by decide) hp) ?_
    refine wn_keeps _ _ _ (Keeps.sub (by decide) hp) ?_
    refine wn_keeps _ _ _ (Keeps.sub (by decide) hp) ?_
    exact hσ3
  refine raiseIrq_keeps _ _ _ (Keeps.sub (by decide) hp) ?_
  refine event_keeps _ _ _ _ (Keeps.sub (by decide) hp) ?_
  exact hσ4

theorem corruptCopy_keeps {ps : List Part} {σ : State} (c : Nat) (s : State)
    (hp : ∀ p ∈ [Part.crk, Part.free, Part.glz, Part.hif, Part.jobs, Part.kln, Part.msix, Part.out, Part.reg .hif, Part.reg .klnC, Part.reg .stk, Part.rings, Part.sag, Part.stk, Part.thr], p ∈ ps) (h : Keeps ps σ s) : Keeps ps σ (corruptCopy c s) := by
  unfold corruptCopy
  split
  · refine Keeps.ite (fun _ => ?_) fun _ => ?_
    · refine refreshIdle_keeps _ (Keeps.sub (by decide) hp) ?_
      refine voidCopy_keeps _ _ _ (Keeps.sub (by decide) hp) ?_
      exact h
    · refine flagCopy_keeps _ _ _ (Keeps.sub (by decide) hp) ?_
      exact h
  · exact h

theorem budgetOverrun_keeps {ps : List Part} {σ : State} (j : BlockJob) (stride : Nat) (s : State)
    (hp : ∀ p ∈ [Part.crk, Part.free, Part.glz, Part.hif, Part.jobs, Part.kln, Part.msix, Part.out, Part.reg .hif, Part.reg .klnC, Part.reg .stk, Part.reg .thr, Part.rings, Part.sag, Part.stk, Part.thr], p ∈ ps) (h : Keeps ps σ s) : Keeps ps σ (budgetOverrun j stride s) := by
  unfold budgetOverrun
  extract_lets σ1 σ2 σ3
  have hσ3 : Keeps ps σ σ3 := by
    unfold σ3
    refine Keeps.set_thr (hp _ (by decide)) ?_
    exact h
  refine corruptCopy_keeps _ _ (Keeps.sub (by decide) hp) ?_
  refine Keeps.foldl ?_ ?_
  · intro τ4 χ5 hτ6
    refine abandonBlock_keeps _ _ _ _ (Keeps.sub (by decide) hp) ?_
    exact hτ6
  · refine abandonBlock_keeps _ _ _ _ (Keeps.sub (by decide) hp) ?_
    exact hσ3

theorem laneStart_keeps {ps : List Part} {σ : State} (lane : Nat) (j : BlockJob) (s : State)
    (hp : ∀ p ∈ [Part.crk, Part.free, Part.glz, Part.hif, Part.jobs, Part.kln, Part.msix, Part.out, Part.reg .hif, Part.reg .klnC, Part.reg .stk, Part.reg .thr, Part.rings, Part.sag, Part.stk, Part.thr], p ∈ ps) (h : Keeps ps σ s) : Keeps ps σ (laneStart lane j s) := by
  unfold laneStart
  extract_lets σ1 σ2 σ3 σ4 σ5
  have hσ3 : Keeps ps σ σ3 := by
    unfold σ3
    refine updCopy_keeps _ _ _ (Keeps.sub (by decide) hp) ?_
    refine Keeps.set_thr (hp _ (by decide)) ?_
    exact h
  split
  · refine Keeps.ite (fun _ => ?_) fun _ => ?_
    · refine budgetOverrun_keeps _ _ _ (Keeps.sub (by decide) hp) ?_
      exact hσ3
    · refine Keeps.set_thr (hp _ (by decide)) ?_
      exact hσ3
  · exact hσ3

theorem blockStart_keeps {ps : List Part} {σ : State} (lane : Nat) (s : State)
    (hp : ∀ p ∈ [Part.crk, Part.free, Part.glz, Part.hif, Part.jobs, Part.kln, Part.msix, Part.out, Part.reg .hif, Part.reg .klnC, Part.reg .stk, Part.reg .thr, Part.rings, Part.sag, Part.stk, Part.thr], p ∈ ps) (h : Keeps ps σ s) : Keeps ps σ (blockStart lane s) := by
  unfold blockStart
  extract_lets σ1
  have hσ1 : Keeps ps σ σ1 := by
    unfold σ1
    refine enqueueBlocks_keeps _ (Keeps.sub (by decide) hp) ?_
    exact h
  refine Keeps.ite (fun _ => ?_) fun _ => ?_
  · exact hσ1
  · split
    · exact hσ1
    · refine laneStart_keeps _ _ _ (Keeps.sub (by decide) hp) ?_
      exact hσ1

theorem execThrBlockStart_keeps (lane : Fin 24) (s : State) :
    ∃ τ, execThrBlockStart lane s = .next τ ∧ Keeps [Part.crk, Part.free, Part.glz, Part.hif, Part.jobs, Part.kln, Part.msix, Part.out, Part.reg .hif, Part.reg .klnC, Part.reg .stk, Part.reg .thr, Part.rings, Part.sag, Part.stk, Part.thr] s τ := by
  refine Keeps.exec fun ps σ hp h => ?_
  unfold execThrBlockStart
  refine ⟨_, rfl, ?_⟩
  refine blockStart_keeps _ _ (Keeps.sub (by decide) hp) ?_
  exact h

theorem blockDone_keeps {ps : List Part} {σ : State} (lane : Nat) (s : State)
    (hp : ∀ p ∈ [Part.crk, Part.free, Part.glz, Part.hif, Part.jobs, Part.kln, Part.msix, Part.out, Part.reg .hif, Part.reg .klnC, Part.reg .stk, Part.reg .thr, Part.rings, Part.sag, Part.stk, Part.thr], p ∈ ps) (h : Keeps ps σ s) : Keeps ps σ (blockDone lane s) := by
  unfold blockDone
  split
  · exact h
  · extract_lets σ1 σ2 σ3
    have hσ3 : Keeps ps σ σ3 := by
      unfold σ3
      refine Keeps.set_thr (hp _ (by decide)) ?_
      exact h
    split
    · extract_lets σ4 σ5
      have hσ4 : Keeps ps σ σ4 := by
        unfold σ4
        refine updCopy_keeps _ _ _ (Keeps.sub (by decide) hp) ?_
        exact hσ3
      refine Keeps.ite (fun _ => ?_) fun _ => ?_
      · refine budgetOverrun_keeps _ _ _ (Keeps.sub (by decide) hp) ?_
        exact hσ4
      · split
        · unfold σ5
          refine corruptCopy_keeps _ _ (Keeps.sub (by decide) hp) ?_
          refine abandonBlock_keeps _ _ _ _ (Keeps.sub (by decide) hp) ?_
          exact hσ4
        · refine Keeps.ite (fun _ => ?_) fun _ => ?_
          · unfold σ5
            refine corruptCopy_keeps _ _ (Keeps.sub (by decide) hp) ?_
            refine abandonBlock_keeps _ _ _ _ (Keeps.sub (by decide) hp) ?_
            exact hσ4
          · refine giveLines_keeps _ _ _ _ _ _ _ (Keeps.sub (by decide) hp) ?_
            refine inc64_keeps _ _ _ (Keeps.sub (by decide) hp) ?_
            refine inc64_keeps _ _ _ (Keeps.sub (by decide) hp) ?_
            refine inc64_keeps _ _ _ (Keeps.sub (by decide) hp) ?_
            exact hσ4
    · exact hσ3

theorem execThrBlockDone_keeps (lane : Fin 24) (s : State) :
    ∃ τ, execThrBlockDone lane s = .next τ ∧ Keeps [Part.crk, Part.free, Part.glz, Part.hif, Part.jobs, Part.kln, Part.msix, Part.out, Part.reg .hif, Part.reg .klnC, Part.reg .stk, Part.reg .thr, Part.rings, Part.sag, Part.stk, Part.thr] s τ := by
  refine Keeps.exec fun ps σ hp h => ?_
  unfold execThrBlockDone
  refine ⟨_, rfl, ?_⟩
  refine blockDone_keeps _ _ (Keeps.sub (by decide) hp) ?_
  exact h

theorem tookLines_keeps {ps : List Part} {σ : State} (x : Copy) (p : Nat) (pass : Nat) (y0 : Nat) (n : Nat) (s : State)
    (hp : ∀ q ∈ [Part.thr], q ∈ ps) (h : Keeps ps σ s) : Keeps ps σ (tookLines x p pass y0 n s) := by
  unfold tookLines
  refine Keeps.set_thr (hp _ (by decide)) ?_
  exact h

end Sys2Proof.Machine
end

