-- ==== Sys2Proof/Laws/KeepsGlaze.lean ====
section
/-! SUPPORT. What the operations of Machine/Glaze.lean change, and what they keep. -/

namespace Sys2Proof.Machine
open Sys2Proof

theorem notePlaced_keeps {ps : List Part} {σ : State} (x : Copy) (p : Nat) (y0 : Nat) (n : Nat) (s : State)
    (hp : ∀ q ∈ [Part.glz, Part.jobs, Part.reg .glz], q ∈ ps) (h : Keeps ps σ s) : Keeps ps σ (notePlaced x p y0 n s) := by
  unfold notePlaced
  refine Keeps.foldl ?_ ?_
  · intro τ1 χ2 hτ3
    extract_lets σ4 σ5
    have hσ4 : Keeps ps σ σ4 := by
      unfold σ4
      split
      · refine Keeps.ite (fun _ => ?_) fun _ => ?_
        · exact hτ3
        · refine inc64_keeps _ _ _ (Keeps.sub (by decide) hp) ?_
          refine updCopy_keeps _ _ _ (Keeps.sub (by decide) hp) ?_
          exact hτ3
      · exact hτ3
    refine Keeps.set_glz (hp _ (by decide)) ?_
    exact hσ4
  · exact h

theorem compareContent_keeps {ps : List Part} {σ : State} (x : Copy) (w : Window) (crc : Word) (s : State)
    (hp : ∀ p ∈ [Part.jobs, Part.msix, Part.out, Part.reg .glz, Part.reg .stk, Part.rings, Part.stk], p ∈ ps) (h : Keeps ps σ s) : Keeps ps σ (compareContent x w crc s) := by
  unfold compareContent
  extract_lets σ1 σ2
  have hσ1 : Keeps ps σ σ1 := by
    unfold σ1
    refine inc_keeps _ _ _ (Keeps.sub (by decide) hp) ?_
    refine updCopy_keeps _ _ _ (Keeps.sub (by decide) hp) ?_
    exact h
  have hσ2 : Keeps ps σ σ2 := by
    unfold σ2
    refine inc_keeps _ _ _ (Keeps.sub (by decide) hp) ?_
    refine flagCopy_keeps _ _ _ (Keeps.sub (by decide) hp) ?_
    refine updCopy_keeps _ _ _ (Keeps.sub (by decide) hp) ?_
    exact hσ1
  refine Keeps.ite (fun _ => ?_) fun _ => ?_
  · exact hσ1
  · refine raiseIrq_keeps _ _ _ (Keeps.sub (by decide) hp) ?_
    refine event_keeps _ _ _ _ (Keeps.sub (by decide) hp) ?_
    refine wr_keeps _ _ _ (Keeps.sub (by decide) hp) ?_
    refine wn_keeps _ _ _ (Keeps.sub (by decide) hp) ?_
    exact hσ2

theorem windowLine_keeps {ps : List Part} {σ : State} (x : Copy) (p : Nat) (l : Nat) (px : List Nat) (s : State)
    (hp : ∀ q ∈ [Part.glz, Part.jobs, Part.msix, Part.out, Part.reg .glz, Part.reg .stk, Part.rings, Part.stk], q ∈ ps) (h : Keeps ps σ s) : Keeps ps σ (windowLine x p l px s) := by
  unfold windowLine
  refine Keeps.ite (fun _ => ?_) fun _ => ?_
  · exact h
  · refine Keeps.foldl ?_ ?_
    · intro τ1 χ2 hτ3
      extract_lets σ4 σ5 σ6 σ7 σ8
      have hσ8 : Keeps ps σ σ8 := by
        unfold σ8
        refine Keeps.set_glz (hp _ (by decide)) ?_
        exact hτ3
      refine Keeps.ite (fun _ => ?_) fun _ => ?_
      · exact hτ3
      · refine Keeps.ite (fun _ => ?_) fun _ => ?_
        · refine compareContent_keeps _ _ _ _ (Keeps.sub (by decide) hp) ?_
          exact hσ8
        · exact hσ8
    · exact h

theorem noteWinEn_keeps {ps : List Part} {σ : State} (x : Copy) (p : Nat) (s : State)
    (hp : ∀ q ∈ [Part.glz], q ∈ ps) (h : Keeps ps σ s) : Keeps ps σ (noteWinEn x p s) := by
  unfold noteWinEn
  refine Keeps.ite (fun _ => ?_) fun _ => ?_
  · exact h
  · refine Keeps.set_glz (hp _ (by decide)) ?_
    exact h

theorem stageLine_keeps {ps : List Part} {σ : State} (x : Copy) (p : Nat) (pass : Nat) (y : Nat) (px : List Nat) (s : State)
    (hp : ∀ q ∈ [Part.glz], q ∈ ps) (h : Keeps ps σ s) : Keeps ps σ (stageLine x p pass y px s) := by
  unfold stageLine
  refine Keeps.foldl ?_ ?_
  · intro τ1 χ2 hτ3
    extract_lets σ4 σ5 σ6 σ7 σ8
    refine Keeps.ite (fun _ => ?_) fun _ => ?_
    · exact hτ3
    · refine Keeps.set_glz (hp _ (by decide)) ?_
      exact hτ3
  · exact h

theorem lineScreened_keeps {ps : List Part} {σ : State} (h : Nat) (r : Nat) (c : Nat) (pass : Nat) (y : Nat) (s : State)
    (hp : ∀ p ∈ [Part.glz], p ∈ ps) (hs : Keeps ps σ s) : Keeps ps σ (lineScreened h r c pass y s) := by
  unfold lineScreened
  refine Keeps.set_glz (hp _ (by decide)) ?_
  exact hs

theorem dropSwath_keeps {ps : List Part} {σ : State} (x : Copy) (p : Nat) (s : State)
    (hp : ∀ q ∈ [Part.glz], q ∈ ps) (h : Keeps ps σ s) : Keeps ps σ (dropSwath x p s) := by
  unfold dropSwath
  refine Keeps.set_glz (hp _ (by decide)) ?_
  exact h

theorem lateDone_keeps {ps : List Part} {σ : State} (x : Copy) (s : State)
    (hp : ∀ p ∈ [Part.glz, Part.thr], p ∈ ps) (h : Keeps ps σ s) : Keeps ps σ (lateDone x s) := by
  unfold lateDone
  refine Keeps.ite (fun _ => ?_) fun _ => ?_
  · refine discardWork_keeps _ _ (Keeps.sub (by decide) hp) ?_
    refine Keeps.set_glz (hp _ (by decide)) ?_
    exact h
  · exact h

theorem glazeNext_keeps {ps : List Part} {σ : State} (x : Copy) (p : Nat) (y : Nat) (s : State)
    (hp : ∀ q ∈ [Part.glz, Part.thr], q ∈ ps) (h : Keeps ps σ s) : Keeps ps σ (glazeNext x p y s) := by
  unfold glazeNext
  extract_lets σ1 σ2 σ3
  refine Keeps.ite (fun _ => ?_) fun _ => ?_
  · unfold σ3
    refine Keeps.set_glz (hp _ (by decide)) ?_
    exact h
  · refine Keeps.ite (fun _ => ?_) fun _ => ?_
    · refine dropSwath_keeps _ _ _ (Keeps.sub (by decide) hp) ?_
      unfold σ3
      refine Keeps.set_glz (hp _ (by decide)) ?_
      exact h
    · refine lateDone_keeps _ _ (Keeps.sub (by decide) hp) ?_
      refine dropSwath_keeps _ _ _ (Keeps.sub (by decide) hp) ?_
      unfold σ3
      refine Keeps.set_glz (hp _ (by decide)) ?_
      exact h

theorem freeBand_keeps {ps : List Part} {σ : State} (x : Copy) (p : Nat) (l : Nat) (s : State)
    (hp : ∀ q ∈ [Part.glz], q ∈ ps) (h : Keeps ps σ s) : Keeps ps σ (freeBand x p l s) := by
  unfold freeBand
  extract_lets σ1 σ2 σ3 σ4 σ5 σ6
  have hσ4 : Keeps ps σ σ4 := by
    unfold σ4
    refine Keeps.set_glz (hp _ (by decide)) ?_
    exact h
  refine Keeps.ite (fun _ => ?_) fun _ => ?_
  · exact hσ4
  · refine Keeps.set_glz (hp _ (by decide)) ?_
    exact hσ4

theorem takeLine_keeps {ps : List Part} {σ : State} (x : Copy) (p : Nat) (pass : Nat) (l : Nat) (s : State)
    (hp : ∀ q ∈ [Part.glz, Part.jobs, Part.reg .glz, Part.thr], q ∈ ps) (h : Keeps ps σ s) : Keeps ps σ (takeLine x p pass l s).2 := by
  unfold takeLine
  refine Keeps.ite_snd (fun _ => ?_) fun _ => ?_
  · refine Keeps.snd ?_
    refine freeBand_keeps _ _ _ _ (Keeps.sub (by decide) hp) ?_
    exact h
  · refine Keeps.snd ?_
    refine notePlaced_keeps _ _ _ _ _ (Keeps.sub (by decide) hp) ?_
    refine tookLines_keeps _ _ _ _ _ _ (Keeps.sub (by decide) hp) ?_
    exact h

theorem glazeLine_keeps {ps : List Part} {σ : State} (lane : Nat) (s0 : State)
    (hp : ∀ p ∈ [Part.glz, Part.hif, Part.jobs, Part.msix, Part.out, Part.reg .glz, Part.reg .hif, Part.reg .klnC, Part.reg .stk, Part.rings, Part.stk, Part.thr], p ∈ ps) (h : Keeps ps σ s0) : Keeps ps σ (glazeLine lane s0) := by
  unfold glazeLine
  extract_lets σ1
  have hσ1 : Keeps ps σ σ1 := by
    unfold σ1
    refine decodeDue_keeps _ (Keeps.sub (by decide) hp) ?_
    refine enqueueBlocks_keeps _ (Keeps.sub (by decide) hp) ?_
    exact h
  refine Keeps.ite (fun _ => ?_) fun _ => ?_
  · exact hσ1
  · split
    · exact hσ1
    · extract_lets σ2 σ3
      split
      · refine Keeps.ite (fun _ => ?_) fun _ => ?_
        · exact hσ1
        · split
          · extract_lets σ4 σ5 σ6
            have hσ42 : Keeps ps σ σ4.2 := by
              unfold σ4
              refine takeLine_keeps _ _ _ _ _ (Keeps.sub (by decide) hp) ?_
              exact hσ1
            have hσ5 : Keeps ps σ σ5 := by
              unfold σ5
              refine windowLine_keeps _ _ _ _ _ (Keeps.sub (by decide) hp) ?_
              refine noteWinEn_keeps _ _ _ (Keeps.sub (by decide) hp) ?_
              refine inc64_keeps _ _ _ (Keeps.sub (by decide) hp) ?_
              exact hσ42
            refine Keeps.ite (fun _ => ?_) fun _ => ?_
            · refine Keeps.set_glz (hp _ (by decide)) ?_
              exact hσ5
            · refine refreshLt_keeps _ (Keeps.sub (by decide) hp) ?_
              refine glazeNext_keeps _ _ _ _ (Keeps.sub (by decide) hp) ?_
              refine stageLine_keeps _ _ _ _ _ _ (Keeps.sub (by decide) hp) ?_
              exact hσ5
          · extract_lets σ7 σ8 σ9
            refine glazeNext_keeps _ _ _ _ (Keeps.sub (by decide) hp) ?_
            refine stageLine_keeps _ _ _ _ _ _ (Keeps.sub (by decide) hp) ?_
            exact hσ1

theorem execGlazeLine_keeps (lane : Fin 4) (s : State) :
    ∃ τ, execGlazeLine lane s = .next τ ∧ Keeps [Part.glz, Part.hif, Part.jobs, Part.msix, Part.out, Part.reg .glz, Part.reg .hif, Part.reg .klnC, Part.reg .stk, Part.rings, Part.stk, Part.thr] s τ := by
  refine Keeps.exec fun ps σ hp h => ?_
  unfold execGlazeLine
  refine ⟨_, rfl, ?_⟩
  refine glazeLine_keeps _ _ (Keeps.sub (by decide) hp) ?_
  exact h

theorem fillBand_keeps {ps : List Part} {σ : State} (x : Copy) (p : Nat) (b : Nat) (s : State)
    (hp : ∀ q ∈ [Part.glz, Part.jobs, Part.reg .glz, Part.thr], q ∈ ps) (h : Keeps ps σ s) : Keeps ps σ (fillBand x p b s) := by
  unfold fillBand
  extract_lets σ1 σ2 σ3 σ4 σ5 σ6
  refine notePlaced_keeps _ _ _ _ _ (Keeps.sub (by decide) hp) ?_
  refine tookLines_keeps _ _ _ _ _ _ (Keeps.sub (by decide) hp) ?_
  refine Keeps.set_glz (hp _ (by decide)) ?_
  exact h

theorem glazeBand_keeps {ps : List Part} {σ : State} (lane : Nat) (s0 : State)
    (hp : ∀ p ∈ [Part.glz, Part.jobs, Part.msix, Part.out, Part.reg .glz, Part.reg .stk, Part.rings, Part.stk, Part.thr], p ∈ ps) (h : Keeps ps σ s0) : Keeps ps σ (glazeBand lane s0) := by
  unfold glazeBand
  extract_lets σ1 σ2
  have hσ1 : Keeps ps σ σ1 := by
    unfold σ1
    refine decodeDue_keeps _ (Keeps.sub (by decide) hp) ?_
    refine enqueueBlocks_keeps _ (Keeps.sub (by decide) hp) ?_
    exact h
  refine Keeps.ite (fun _ => ?_) fun _ => ?_
  · exact hσ1
  · split
    · exact hσ1
    · extract_lets σ3 σ4 σ5 σ6
      refine Keeps.ite (fun _ => ?_) fun _ => ?_
      · exact hσ1
      · split
        · exact hσ1
        · extract_lets σ7 σ8
          have hσ8 : Keeps ps σ σ8 := by
            unfold σ8
            refine Keeps.set_glz (hp _ (by decide)) ?_
            exact hσ1
          refine Keeps.ite (fun _ => ?_) fun _ => ?_
          · refine fillBand_keeps _ _ _ _ (Keeps.sub (by decide) hp) ?_
            exact hσ8
          · refine raiseIrq_keeps _ _ _ (Keeps.sub (by decide) hp) ?_
            refine event_keeps _ _ _ _ (Keeps.sub (by decide) hp) ?_
            refine inc_keeps _ _ _ (Keeps.sub (by decide) hp) ?_
            exact hσ8

theorem execGlazeBand_keeps (lane : Fin 4) (s : State) :
    ∃ τ, execGlazeBand lane s = .next τ ∧ Keeps [Part.glz, Part.jobs, Part.msix, Part.out, Part.reg .glz, Part.reg .stk, Part.rings, Part.stk, Part.thr] s τ := by
  refine Keeps.exec fun ps σ hp h => ?_
  unfold execGlazeBand
  refine ⟨_, rfl, ?_⟩
  refine glazeBand_keeps _ _ (Keeps.sub (by decide) hp) ?_
  exact h

theorem poolWaitEnd_keeps {ps : List Part} {σ : State} (s : State)
    (hp : ∀ p ∈ [Part.glz, Part.jobs, Part.reg .glz, Part.thr], p ∈ ps) (h : Keeps ps σ s) : Keeps ps σ (poolWaitEnd s) := by
  unfold poolWaitEnd
  split
  · exact h
  · refine Keeps.ite (fun _ => ?_) fun _ => ?_
    · split
      · refine fillBand_keeps _ _ _ _ (Keeps.sub (by decide) hp) ?_
        refine Keeps.set_glz (hp _ (by decide)) ?_
        exact h
      · refine Keeps.set_glz (hp _ (by decide)) ?_
        exact h
    · exact h

theorem execGlazePoolWaitEnd_keeps (s : State) :
    ∃ τ, execGlazePoolWaitEnd s = .next τ ∧ Keeps [Part.glz, Part.jobs, Part.reg .glz, Part.thr] s τ := by
  refine Keeps.exec fun ps σ hp h => ?_
  unfold execGlazePoolWaitEnd
  refine ⟨_, rfl, ?_⟩
  refine poolWaitEnd_keeps _ (Keeps.sub (by decide) hp) ?_
  exact h

theorem discardAhead_keeps {ps : List Part} {σ : State} (p : Nat) (s : State)
    (hp : ∀ q ∈ [Part.glz], q ∈ ps) (h : Keeps ps σ s) : Keeps ps σ (discardAhead p s) := by
  unfold discardAhead
  extract_lets σ1
  refine Keeps.foldl ?_ ?_
  · intro τ2 χ3 hτ4
    split
    · exact hτ4
    · extract_lets σ5 σ6 σ7 σ8 σ9
      have hσ7 : Keeps ps σ σ7 := by
        unfold σ7
        refine Keeps.set_glz (hp _ (by decide)) ?_
        exact hτ4
      have hσ8 : Keeps ps σ σ8 := by
        unfold σ8
        refine dropSwath_keeps _ _ _ (Keeps.sub (by decide) hp) ?_
        exact hσ7
      refine Keeps.ite (fun _ => ?_) fun _ => ?_
      · exact hσ7
      · refine Keeps.set_glz (hp _ (by decide)) ?_
        exact hσ8
  · exact h

theorem glzBandWrite_keeps {ps : List Part} {σ : State} (v : Word) (s : State)
    (hp : ∀ p ∈ [Part.msix, Part.out, Part.reg .glz], p ∈ ps) (h : Keeps ps σ s) : Keeps ps σ (glzBandWrite v s) := by
  unfold glzBandWrite
  refine Keeps.ite (fun _ => ?_) fun _ => ?_
  · refine recordErr_keeps _ _ _ (Keeps.sub (by decide) hp) ?_
    exact h
  · refine plainPut_keeps _ _ _ (Keeps.sub (by decide) hp) ?_
    exact h

theorem execGlzBandWrite_keeps (ini : Initiator) (val : Word) (s : State) :
    ∃ τ, execGlzBandWrite ini val s = .next τ ∧ Keeps [Part.msix, Part.out, Part.reg .glz, Part.reg .hif] s τ := by
  refine Keeps.exec fun ps σ hp h => ?_
  unfold execGlzBandWrite
  refine ⟨_, rfl, ?_⟩
  refine guardWrite_keeps _ _ _ _ _ _ ?_ (Keeps.sub (by decide) hp) ?_
  · intro χ1 τ2 hτ3
    refine glzBandWrite_keeps _ _ (Keeps.sub (by decide) hp) ?_
    exact hτ3
  · exact h

theorem makeRoom_keeps {ps : List Part} {s0 : State} (t g k : Nat) (s : State)
    (hp : ∀ p ∈ [Part.glz, Part.msix, Part.out, Part.reg .glz, Part.reg .stk, Part.rings, Part.stk], p ∈ ps) (h : Keeps ps s0 s) (u : State) (hu : makeRoom t g k s = some u) : Keeps ps s0 u := by
  induction k generalizing s with
  | zero => simp [makeRoom] at hu
  | succ k ih =>
    unfold makeRoom at hu
    split at hu
    · exact Option.some.inj hu ▸ h
    · split at hu
      · simp at hu
      · refine ih _ ?_ hu
        exact raiseIrq_keeps _ _ _ (Keeps.sub (by decide) hp) (event_keeps _ _ _ _ (Keeps.sub (by decide) hp)
          (inc_keeps _ _ _ (Keeps.sub (by decide) hp) (h.set_glz (hp _ (by decide)))))

theorem tileLoad_keeps {ps : List Part} {σ : State} (h : Hdr) (id : Nat) (x : Stream) (s : State)
    (hp : ∀ p ∈ [Part.fw, Part.glz, Part.msix, Part.out, Part.reg .glz, Part.reg .stk, Part.rings, Part.stk], p ∈ ps) (hs : Keeps ps σ s) : Keeps ps σ (tileLoad h id x s) := by
  unfold tileLoad
  extract_lets σ1 σ2 σ3 σ4
  refine Keeps.ite (fun _ => ?_) fun _ => ?_
  · exact fail_keeps _ _ _ (Keeps.sub (by decide) hp) (recordErr_keeps _ _ _ (Keeps.sub (by decide) hp) hs)
  · split
    · exact fail_keeps _ _ _ (Keeps.sub (by decide) hp) (recordErr_keeps _ _ _ (Keeps.sub (by decide) hp) hs)
    · extract_lets σ4 σ5
      exact ok_keeps _ _ _ (Keeps.sub (by decide) hp) (Keeps.set_glz (hp _ (by decide))
        (makeRoom_keeps _ _ _ _ (Keeps.sub (by decide) hp) hs _ (by assumption)))

theorem bodyTileLoad_keeps {ps : List Part} {σ : State} (h : Hdr) (c : Instr) (id : Nat) (handle : Nat) (s : State)
    (hp : ∀ p ∈ [Part.fw, Part.glz, Part.msix, Part.out, Part.reg .glz, Part.reg .stk, Part.rings, Part.stk], p ∈ ps) (hs : Keeps ps σ s) : Keeps ps σ (bodyTileLoad h c id handle s) := by
  unfold bodyTileLoad
  refine Keeps.ite (fun _ => ?_) fun _ => ?_
  · refine fail_keeps _ _ _ (Keeps.sub (by decide) hp) ?_
    exact hs
  · refine Keeps.ite (fun _ => ?_) fun _ => ?_
    · refine fail_keeps _ _ _ (Keeps.sub (by decide) hp) ?_
      exact hs
    · refine withStream_keeps _ _ _ _ _ _ _ ?_ (Keeps.sub (by decide) hp) ?_
      · intro χ1 τ2 hτ3
        refine tileLoad_keeps _ _ _ _ (Keeps.sub (by decide) hp) ?_
        exact hτ3
      · exact hs

theorem execTileLoad_keeps (d : Desc) (tile : BitVec 16) (handle : Word) (s : State) :
    ∃ τ, execTileLoad d tile handle s = .next τ ∧ Keeps [Part.fw, Part.glz, Part.msix, Part.out, Part.reg .glz, Part.reg .hif, Part.reg .stk, Part.rings, Part.stk] s τ := by
  refine Keeps.exec fun ps σ hp h => ?_
  unfold execTileLoad
  refine ⟨_, rfl, ?_⟩
  refine command_keeps _ _ _ _ _ _ ?_ (Keeps.sub (by decide) hp) ?_
  · intro χ1 τ2 hτ3
    refine bodyTileLoad_keeps _ _ _ _ _ (Keeps.sub (by decide) hp) ?_
    exact hτ3
  · exact h

theorem bodyTileEvict_keeps {ps : List Part} {σ : State} (h : Hdr) (id : Nat) (s : State)
    (hp : ∀ p ∈ [Part.fw, Part.glz, Part.msix, Part.out, Part.reg .stk, Part.rings, Part.stk], p ∈ ps) (hs : Keeps ps σ s) : Keeps ps σ (bodyTileEvict h id s) := by
  unfold bodyTileEvict
  split
  · refine fail_keeps _ _ _ (Keeps.sub (by decide) hp) ?_
    exact hs
  · refine Keeps.ite (fun _ => ?_) fun _ => ?_
    · refine fail_keeps _ _ _ (Keeps.sub (by decide) hp) ?_
      exact hs
    · refine ok_keeps _ _ _ (Keeps.sub (by decide) hp) ?_
      refine Keeps.set_glz (hp _ (by decide)) ?_
      exact hs

theorem execTileEvict_keeps (d : Desc) (tile : BitVec 16) (s : State) :
    ∃ τ, execTileEvict d tile s = .next τ ∧ Keeps [Part.fw, Part.glz, Part.msix, Part.out, Part.reg .hif, Part.reg .stk, Part.rings, Part.stk] s τ := by
  refine Keeps.exec fun ps σ hp h => ?_
  unfold execTileEvict
  refine ⟨_, rfl, ?_⟩
  refine command_keeps _ _ _ _ _ _ ?_ (Keeps.sub (by decide) hp) ?_
  · intro χ1 τ2 hτ3
    refine bodyTileEvict_keeps _ _ _ (Keeps.sub (by decide) hp) ?_
    exact hτ3
  · exact h

end Sys2Proof.Machine
end

