-- ==== Sys2Proof/Laws/KeepsSagger.lean ====
section
/-! SUPPORT. What the operations of Machine/Sagger.lean change, and what they keep. -/

namespace Sys2Proof.Machine
open Sys2Proof

theorem newOwner_keeps {ps : List Part} {σ : State} (t : Nat) (digest : BitVec 384) (s : State)
    (hp : ∀ p ∈ [Part.crk, Part.free, Part.jobs, Part.sag], p ∈ ps) (h : Keeps ps σ s) : Keeps ps σ (newOwner t digest s) := by
  unfold newOwner
  extract_lets σ1 σ2
  have hσ1 : Keeps ps σ σ1 := by
    unfold σ1
    refine closeBatch_keeps _ _ (Keeps.sub (by decide) hp) ?_
    exact h
  have hσ2 : Keeps ps σ σ2 := by
    unfold σ2
    refine updTenant_keeps _ _ _ (Keeps.sub (by decide) hp) ?_
    exact hσ1
  refine persist_keeps _ _ _ _ (Keeps.sub (by decide) hp) ?_
  refine updSag_keeps _ _ _ (Keeps.sub (by decide) hp) ?_
  exact hσ2

theorem keyLoad_keeps {ps : List Part} {σ : State} (h : Hdr) (t : Nat) (x : Stream) (s : State)
    (hp : ∀ p ∈ [Part.crk, Part.free, Part.fw, Part.glz, Part.jobs, Part.msix, Part.out, Part.reg .stk, Part.rings, Part.sag, Part.stk, Part.thr], p ∈ ps) (hs : Keeps ps σ s) : Keeps ps σ (keyLoad h t x s) := by
  unfold keyLoad
  extract_lets σ1 σ2 σ3 σ4
  have hσ4 : Keeps ps σ σ4 := by
    unfold σ4
    refine Keeps.ite (fun _ => ?_) fun _ => ?_
    · exact hs
    · refine newOwner_keeps _ _ _ (Keeps.sub (by decide) hp) ?_
      exact hs
  refine Keeps.ite (fun _ => ?_) fun _ => ?_
  · refine fail_keeps _ _ _ (Keeps.sub (by decide) hp) ?_
    exact hs
  · refine Keeps.ite (fun _ => ?_) fun _ => ?_
    · refine fail_keeps _ _ _ (Keeps.sub (by decide) hp) ?_
      exact hs
    · refine Keeps.ite (fun _ => ?_) fun _ => ?_
      · refine fail_keeps _ _ _ (Keeps.sub (by decide) hp) ?_
        exact hs
      · split
        · refine fail_keeps _ _ _ (Keeps.sub (by decide) hp) ?_
          exact hs
        · refine Keeps.ite (fun _ => ?_) fun _ => ?_
          · refine fail_keeps _ _ _ (Keeps.sub (by decide) hp) ?_
            exact hs
          · refine refreshReady_keeps _ (Keeps.sub (by decide) hp) ?_
            refine noteReady_keeps _ (Keeps.sub (by decide) hp) ?_
            refine ok_keeps _ _ _ (Keeps.sub (by decide) hp) ?_
            refine updSag_keeps _ _ _ (Keeps.sub (by decide) hp) ?_
            refine unsealDue_keeps _ (Keeps.sub (by decide) hp) ?_
            exact hσ4

theorem bodyKeyLoad_keeps {ps : List Part} {σ : State} (h : Hdr) (c : Instr) (t : Nat) (handle : Nat) (s : State)
    (hp : ∀ p ∈ [Part.crk, Part.free, Part.fw, Part.glz, Part.jobs, Part.msix, Part.out, Part.reg .stk, Part.rings, Part.sag, Part.stk, Part.thr], p ∈ ps) (hs : Keeps ps σ s) : Keeps ps σ (bodyKeyLoad h c t handle s) := by
  unfold bodyKeyLoad
  refine Keeps.ite (fun _ => ?_) fun _ => ?_
  · refine fail_keeps _ _ _ (Keeps.sub (by decide) hp) ?_
    exact hs
  · refine withStream_keeps _ _ _ _ _ _ _ ?_ (Keeps.sub (by decide) hp) ?_
    · intro χ1 τ2 hτ3
      refine keyLoad_keeps _ _ _ _ (Keeps.sub (by decide) hp) ?_
      exact hτ3
    · exact hs

theorem execKeyLoad_keeps (d : Desc) (tenant : BitVec 16) (handle : Word) (s : State) :
    ∃ τ, execKeyLoad d tenant handle s = .next τ ∧ Keeps [Part.crk, Part.free, Part.fw, Part.glz, Part.jobs, Part.msix, Part.out, Part.reg .hif, Part.reg .stk, Part.rings, Part.sag, Part.stk, Part.thr] s τ := by
  refine Keeps.exec fun ps σ hp h => ?_
  unfold execKeyLoad
  refine ⟨_, rfl, ?_⟩
  refine command_keeps _ _ _ _ _ _ ?_ (Keeps.sub (by decide) hp) ?_
  · intro χ1 τ2 hτ3
    refine bodyKeyLoad_keeps _ _ _ _ _ (Keeps.sub (by decide) hp) ?_
    exact hτ3
  · exact h

theorem quotaGrant_keeps {ps : List Part} {σ : State} (h : Hdr) (c : Instr) (t : Nat) (x : Stream) (s : State)
    (hp : ∀ p ∈ [Part.crk, Part.fw, Part.jobs, Part.msix, Part.out, Part.reg .stk, Part.rings, Part.sag, Part.stk], p ∈ ps) (hs : Keeps ps σ s) : Keeps ps σ (quotaGrant h c t x s) := by
  unfold quotaGrant
  extract_lets σ1 σ2 σ3 σ4
  have hσ3 : Keeps ps σ σ3 := by
    unfold σ3
    refine updSag_keeps _ _ _ (Keeps.sub (by decide) hp) ?_
    refine updTenant_keeps _ _ _ (Keeps.sub (by decide) hp) ?_
    exact hs
  refine Keeps.ite (fun _ => ?_) fun _ => ?_
  · refine fail_keeps _ _ _ (Keeps.sub (by decide) hp) ?_
    exact hs
  · refine Keeps.ite (fun _ => ?_) fun _ => ?_
    · refine fail_keeps _ _ _ (Keeps.sub (by decide) hp) ?_
      exact hs
    · refine Keeps.ite (fun _ => ?_) fun _ => ?_
      · refine fail_keeps _ _ _ (Keeps.sub (by decide) hp) ?_
        exact hs
      · refine Keeps.ite (fun _ => ?_) fun _ => ?_
        · refine fail_keeps _ _ _ (Keeps.sub (by decide) hp) ?_
          exact hs
        · refine Keeps.ite (fun _ => ?_) fun _ => ?_
          · refine fail_keeps _ _ _ (Keeps.sub (by decide) hp) ?_
            exact hs
          · refine Keeps.ite (fun _ => ?_) fun _ => ?_
            · refine ok_keeps _ _ _ (Keeps.sub (by decide) hp) ?_
              exact hσ3
            · refine persist_keeps _ _ _ _ (Keeps.sub (by decide) hp) ?_
              refine park_keeps _ _ (Keeps.sub (by decide) hp) ?_
              exact hσ3

theorem bodyQuotaGrant_keeps {ps : List Part} {σ : State} (h : Hdr) (c : Instr) (t : Nat) (handle : Nat) (s : State)
    (hp : ∀ p ∈ [Part.crk, Part.fw, Part.jobs, Part.msix, Part.out, Part.reg .stk, Part.rings, Part.sag, Part.stk], p ∈ ps) (hs : Keeps ps σ s) : Keeps ps σ (bodyQuotaGrant h c t handle s) := by
  unfold bodyQuotaGrant
  refine Keeps.ite (fun _ => ?_) fun _ => ?_
  · refine fail_keeps _ _ _ (Keeps.sub (by decide) hp) ?_
    exact hs
  · refine withStream_keeps _ _ _ _ _ _ _ ?_ (Keeps.sub (by decide) hp) ?_
    · intro χ1 τ2 hτ3
      refine quotaGrant_keeps _ _ _ _ _ (Keeps.sub (by decide) hp) ?_
      exact hτ3
    · exact hs

theorem execQuotaGrant_keeps (d : Desc) (tenant : BitVec 16) (handle : Word) (s : State) :
    ∃ τ, execQuotaGrant d tenant handle s = .next τ ∧ Keeps [Part.crk, Part.fw, Part.jobs, Part.msix, Part.out, Part.reg .hif, Part.reg .stk, Part.rings, Part.sag, Part.stk] s τ := by
  refine Keeps.exec fun ps σ hp h => ?_
  unfold execQuotaGrant
  refine ⟨_, rfl, ?_⟩
  refine command_keeps _ _ _ _ _ _ ?_ (Keeps.sub (by decide) hp) ?_
  · intro χ1 τ2 hτ3
    refine bodyQuotaGrant_keeps _ _ _ _ _ (Keeps.sub (by decide) hp) ?_
    exact hτ3
  · exact h

theorem quotaQuery_keeps {ps : List Part} {σ : State} (h : Hdr) (t : Nat) (s : State)
    (hp : ∀ p ∈ [Part.fw, Part.msix, Part.out, Part.reg .stk, Part.rings, Part.stk], p ∈ ps) (hs : Keeps ps σ s) : Keeps ps σ (quotaQuery h t s) := by
  unfold quotaQuery
  refine Keeps.ite (fun _ => ?_) fun _ => ?_
  · refine fail_keeps _ _ _ (Keeps.sub (by decide) hp) ?_
    exact hs
  · refine Keeps.ite (fun _ => ?_) fun _ => ?_
    · refine fail_keeps _ _ _ (Keeps.sub (by decide) hp) ?_
      exact hs
    · extract_lets σ1
      refine ok_keeps _ _ _ (Keeps.sub (by decide) hp) ?_
      exact hs

theorem execQuotaQuery_keeps (d : Desc) (tenant : BitVec 16) (s : State) :
    ∃ τ, execQuotaQuery d tenant s = .next τ ∧ Keeps [Part.fw, Part.msix, Part.out, Part.reg .hif, Part.reg .stk, Part.rings, Part.stk] s τ := by
  refine Keeps.exec fun ps σ hp h => ?_
  unfold execQuotaQuery
  refine ⟨_, rfl, ?_⟩
  refine query_keeps _ _ _ _ _ ?_ (Keeps.sub (by decide) hp) ?_
  · intro χ1 τ2 hτ3
    refine quotaQuery_keeps _ _ _ (Keeps.sub (by decide) hp) ?_
    exact hτ3
  · exact h

theorem execBatchCloseTimer_keeps (tenant : Fin 1024) (s : State) :
    ∃ τ, execBatchCloseTimer tenant s = .next τ ∧ Keeps [Part.crk, Part.free, Part.sag] s τ := by
  refine Keeps.exec fun ps σ hp h => ?_
  unfold execBatchCloseTimer
  refine ⟨_, rfl, ?_⟩
  refine closeBatch_keeps _ _ (Keeps.sub (by decide) hp) ?_
  exact h

theorem dropBatch_keeps {ps : List Part} {σ : State} (id : Nat) (s : State)
    (hp : ∀ p ∈ [Part.sag], p ∈ ps) (h : Keeps ps σ s) : Keeps ps σ (dropBatch id s) := by
  unfold dropBatch
  refine Keeps.set_sag rfl (hp _ (by decide)) ?_
  exact h

theorem batchPost_keeps {ps : List Part} {σ : State} (t : Nat) (s : State)
    (hp : ∀ p ∈ [Part.crk, Part.free, Part.glz, Part.jobs, Part.msix, Part.out, Part.reg .stk, Part.rings, Part.sag, Part.stk, Part.thr], p ∈ ps) (h : Keeps ps σ s) : Keeps ps σ (batchPost t s) := by
  unfold batchPost
  split
  · refine Keeps.ite (fun _ => ?_) fun _ => ?_
    · exact h
    · refine refreshReady_keeps _ (Keeps.sub (by decide) hp) ?_
      refine dropBatch_keeps _ _ (Keeps.sub (by decide) hp) ?_
      refine postRecords_keeps _ _ _ (Keeps.sub (by decide) hp) ?_
      exact h
  · refine Keeps.ite (fun _ => ?_) fun _ => ?_
    · exact h
    · refine persist_keeps _ _ _ _ (Keeps.sub (by decide) hp) ?_
      exact h
  · exact h

theorem execBatchPost_keeps (tenant : Fin 1024) (s : State) :
    ∃ τ, execBatchPost tenant s = .next τ ∧ Keeps [Part.crk, Part.free, Part.glz, Part.jobs, Part.msix, Part.out, Part.reg .stk, Part.rings, Part.sag, Part.stk, Part.thr] s τ := by
  refine Keeps.exec fun ps σ hp h => ?_
  unfold execBatchPost
  refine ⟨_, rfl, ?_⟩
  refine batchPost_keeps _ _ (Keeps.sub (by decide) hp) ?_
  exact h

theorem receiptFetch_keeps {ps : List Part} {σ : State} (h : Hdr) (addr : Nat) (len : Nat) (s : State)
    (hp : ∀ p ∈ [Part.crk, Part.free, Part.fw, Part.glz, Part.jobs, Part.msix, Part.out, Part.reg .stk, Part.rings, Part.sag, Part.stk, Part.thr], p ∈ ps) (hs : Keeps ps σ s) : Keeps ps σ (receiptFetch h addr len s) := by
  unfold receiptFetch
  extract_lets σ1 σ2 σ3 σ4 σ5
  have hσ5 : Keeps ps σ σ5 := by
    unfold σ5
    refine Keeps.foldl ?_ ?_
    · intro τ6 χ7 hτ8
      refine dropBatch_keeps _ _ (Keeps.sub (by decide) hp) ?_
      exact hτ8
    · exact hs
  clear_value σ2
  clear_value σ3
  split
  · refine complete_keeps _ _ _ _ (Keeps.sub (by decide) hp) ?_
    exact hs
  · refine refreshReady_keeps _ (Keeps.sub (by decide) hp) ?_
    refine completeWith_keeps _ _ _ _ _ (Keeps.sub (by decide) hp) ?_
    exact hσ5

theorem execReceiptFetch_keeps (d : Desc) (buf : DWord) (len : Word) (s : State) :
    ∃ τ, execReceiptFetch d buf len s = .next τ ∧ Keeps [Part.crk, Part.free, Part.fw, Part.glz, Part.jobs, Part.msix, Part.out, Part.reg .hif, Part.reg .stk, Part.rings, Part.sag, Part.stk, Part.thr] s τ := by
  refine Keeps.exec fun ps σ hp h => ?_
  unfold execReceiptFetch
  refine ⟨_, rfl, ?_⟩
  refine command_keeps _ _ _ _ _ _ ?_ (Keeps.sub (by decide) hp) ?_
  · intro χ1 τ2 hτ3
    refine receiptFetch_keeps _ _ _ _ (Keeps.sub (by decide) hp) ?_
    exact hτ3
  · exact h

theorem attest_keeps {ps : List Part} {σ : State} (h : Hdr) (addr : Nat) (len : Nat) (challenge : BitVec 256) (s : State)
    (hp : ∀ p ∈ [Part.free, Part.fw, Part.msix, Part.out, Part.reg .stk, Part.rings, Part.stk], p ∈ ps) (hs : Keeps ps σ s) : Keeps ps σ (attest h addr len challenge s) := by
  unfold attest
  refine Keeps.ite (fun _ => ?_) fun _ => ?_
  · refine fail_keeps _ _ _ (Keeps.sub (by decide) hp) ?_
    exact hs
  · extract_lets σ1 σ2
    have hσ12 : Keeps ps σ σ1.2 := by
      unfold σ1
      refine draw_keeps _ _ (Keeps.sub (by decide) hp) ?_
      exact hs
    refine output_keeps _ _ _ _ _ _ (Keeps.sub (by decide) hp) ?_
    exact hσ12

theorem execAttest_keeps (d : Desc) (buf : DWord) (len : Word) (challenge : BitVec 256) (s : State) :
    ∃ τ, execAttest d buf len challenge s = .next τ ∧ Keeps [Part.free, Part.fw, Part.msix, Part.out, Part.reg .hif, Part.reg .stk, Part.rings, Part.stk] s τ := by
  refine Keeps.exec fun ps σ hp h => ?_
  unfold execAttest
  refine ⟨_, rfl, ?_⟩
  refine command_keeps _ _ _ _ _ _ ?_ (Keeps.sub (by decide) hp) ?_
  · intro χ1 τ2 hτ3
    refine attest_keeps _ _ _ _ _ (Keeps.sub (by decide) hp) ?_
    exact hτ3
  · exact h

theorem consumeNonce_keeps {ps : List Part} {σ : State} (bs : List Byte) (s : State)
    (hp : ∀ p ∈ [Part.sag], p ∈ ps) (h : Keeps ps σ s) : Keeps ps σ (consumeNonce bs s) := by
  unfold consumeNonce
  split
  · refine Keeps.ite (fun _ => ?_) fun _ => ?_
    · refine Keeps.set_sag rfl (hp _ (by decide)) ?_
      exact h
    · exact h
  · exact h

theorem wipeKeys_keeps {ps : List Part} {σ : State} (s : State)
    (hp : ∀ p ∈ [Part.sag], p ∈ ps) (h : Keeps ps σ s) : Keeps ps σ (wipeKeys s) := by
  unfold wipeKeys
  refine Keeps.set_sag rfl (hp _ (by decide)) ?_
  exact h

theorem openScopes_keeps {ps : List Part} {σ : State} (scopes : Nat) (signer : Signer) (s : State)
    (hp : ∀ p ∈ [Part.msix, Part.out, Part.reg .sag, Part.reg .stk, Part.rings, Part.sag, Part.stk], p ∈ ps) (h : Keeps ps σ s) : Keeps ps σ (openScopes scopes signer s) := by
  unfold openScopes
  extract_lets σ1 σ2 σ3 σ4
  have hσ2 : Keeps ps σ σ2 := by
    unfold σ2
    refine Keeps.set_sag rfl (hp _ (by decide)) ?_
    exact h
  have hσ4 : Keeps ps σ σ4 := by
    unfold σ4
    refine Keeps.ite (fun _ => ?_) fun _ => ?_
    · refine wipeKeys_keeps _ (Keeps.sub (by decide) hp) ?_
      refine Keeps.set_sag rfl (hp _ (by decide)) ?_
      exact hσ2
    · exact hσ2
  refine raiseIrq_keeps _ _ _ (Keeps.sub (by decide) hp) ?_
  refine event_keeps _ _ _ _ (Keeps.sub (by decide) hp) ?_
  exact hσ4

theorem debugUnlock_keeps {ps : List Part} {σ : State} (h : Hdr) (x : Stream) (s : State)
    (hp : ∀ p ∈ [Part.fw, Part.msix, Part.out, Part.reg .sag, Part.reg .stk, Part.rings, Part.sag, Part.stk], p ∈ ps) (hs : Keeps ps σ s) : Keeps ps σ (debugUnlock h x s) := by
  unfold debugUnlock
  extract_lets σ1 σ2 σ3
  have hσ3 : Keeps ps σ σ3 := by
    unfold σ3
    refine consumeNonce_keeps _ _ (Keeps.sub (by decide) hp) ?_
    exact hs
  refine Keeps.ite (fun _ => ?_) fun _ => ?_
  · refine fail_keeps _ _ _ (Keeps.sub (by decide) hp) ?_
    exact hs
  · refine Keeps.ite (fun _ => ?_) fun _ => ?_
    · refine fail_keeps _ _ _ (Keeps.sub (by decide) hp) ?_
      exact hσ3
    · refine Keeps.ite (fun _ => ?_) fun _ => ?_
      · refine fail_keeps _ _ _ (Keeps.sub (by decide) hp) ?_
        exact hσ3
      · split
        · refine fail_keeps _ _ _ (Keeps.sub (by decide) hp) ?_
          exact hσ3
        · refine ok_keeps _ _ _ (Keeps.sub (by decide) hp) ?_
          refine openScopes_keeps _ _ _ (Keeps.sub (by decide) hp) ?_
          exact hσ3

theorem bodyDebugUnlock_keeps {ps : List Part} {σ : State} (h : Hdr) (c : Instr) (handle : Nat) (s : State)
    (hp : ∀ p ∈ [Part.fw, Part.msix, Part.out, Part.reg .sag, Part.reg .stk, Part.rings, Part.sag, Part.stk], p ∈ ps) (hs : Keeps ps σ s) : Keeps ps σ (bodyDebugUnlock h c handle s) := by
  unfold bodyDebugUnlock
  refine withStream_keeps _ _ _ _ _ _ _ ?_ (Keeps.sub (by decide) hp) ?_
  · intro χ1 τ2 hτ3
    refine debugUnlock_keeps _ _ _ (Keeps.sub (by decide) hp) ?_
    exact hτ3
  · exact hs

theorem execDebugUnlock_keeps (d : Desc) (handle : Word) (s : State) :
    ∃ τ, execDebugUnlock d handle s = .next τ ∧ Keeps [Part.fw, Part.msix, Part.out, Part.reg .hif, Part.reg .sag, Part.reg .stk, Part.rings, Part.sag, Part.stk] s τ := by
  refine Keeps.exec fun ps σ hp h => ?_
  unfold execDebugUnlock
  refine ⟨_, rfl, ?_⟩
  refine command_keeps _ _ _ _ _ _ ?_ (Keeps.sub (by decide) hp) ?_
  · intro χ1 τ2 hτ3
    refine bodyDebugUnlock_keeps _ _ _ _ (Keeps.sub (by decide) hp) ?_
    exact hτ3
  · exact h

theorem wipeSagger_keeps {ps : List Part} {σ : State} (cause : Nat) (s : State)
    (hp : ∀ p ∈ [Part.jobs, Part.sag], p ∈ ps) (h : Keeps ps σ s) : Keeps ps σ (wipeSagger cause s) := by
  unfold wipeSagger
  refine Keeps.set_jobs_sag (hp _ (by decide)) rfl (hp _ (by decide)) ?_
  exact h

theorem advanceFuse_keeps {ps : List Part} {s0 s : State} (k : Nat) (hash : BitVec 384) (hf : Part.fuses ∈ ps)
    (hs : Part.sag ∈ ps) (h : Keeps ps s0 s) :
    Keeps ps s0 { s with sag := { s.sag with fuses := s.sag.fuses.set k 3, oemHash := hash } } := by
  refine Keeps.set_fuses hf hs (fun i hi => ?_) h
  simp only [List.getD_eq_getElem?_getD, List.getElem?_set] at hi ⊢
  split
  · split
    · simp
    · rename_i h1 h2
      subst h1
      simp [List.getElem?_eq_none (Nat.le_of_not_lt h2)] at hi
  · exact hi

theorem lifecycleAdvance_keeps {ps : List Part} {σ : State} (h : Hdr) (target : Nat) (x : Stream) (s : State)
    (hp : ∀ p ∈ [Part.fuses, Part.fw, Part.jobs, Part.msix, Part.out, Part.reg .sag, Part.reg .stk, Part.rings, Part.sag, Part.stk, Part.thr], p ∈ ps) (hs : Keeps ps σ s) : Keeps ps σ (lifecycleAdvance h target x s) := by
  unfold lifecycleAdvance
  extract_lets σ1 σ2 σ3 σ4 σ5 σ6
  have hσ3 : Keeps ps σ σ3 := consumeNonce_keeps _ _ (Keeps.sub (by decide) hp) hs
  have hσ6 : Keeps ps σ σ6 := advanceFuse_keeps _ _ (hp _ (by decide)) (hp _ (by decide))
    (wipeSagger_keeps _ _ (Keeps.sub (by decide) hp) hσ3)
  refine Keeps.ite (fun _ => fail_keeps _ _ _ (Keeps.sub (by decide) hp) hs) fun _ => ?_
  refine Keeps.ite (fun _ => fail_keeps _ _ _ (Keeps.sub (by decide) hp) hσ3) fun _ => ?_
  refine Keeps.ite (fun _ => fail_keeps _ _ _ (Keeps.sub (by decide) hp) hs) fun _ => ?_
  refine Keeps.ite (fun _ => fail_keeps _ _ _ (Keeps.sub (by decide) hp) hσ3) fun _ => ?_
  refine Keeps.ite (fun _ => fail_keeps _ _ _ (Keeps.sub (by decide) hp) hσ3) fun _ => ?_
  exact ok_keeps _ _ _ (Keeps.sub (by decide) hp) (raiseIrq_keeps _ _ _ (Keeps.sub (by decide) hp)
    (event_keeps _ _ _ _ (Keeps.sub (by decide) hp) hσ6))

theorem bodyLifecycleAdvance_keeps {ps : List Part} {σ : State} (h : Hdr) (c : Instr) (target : Nat) (handle : Nat) (s : State)
    (hp : ∀ p ∈ [Part.fuses, Part.fw, Part.jobs, Part.msix, Part.out, Part.reg .sag, Part.reg .stk, Part.rings, Part.sag, Part.stk, Part.thr], p ∈ ps) (hs : Keeps ps σ s) : Keeps ps σ (bodyLifecycleAdvance h c target handle s) := by
  unfold bodyLifecycleAdvance
  refine withStream_keeps _ _ _ _ _ _ _ ?_ (Keeps.sub (by decide) hp) ?_
  · intro χ1 τ2 hτ3
    refine lifecycleAdvance_keeps _ _ _ _ (Keeps.sub (by decide) hp) ?_
    exact hτ3
  · exact hs

theorem execLifecycleAdvance_keeps (d : Desc) (target : BitVec 8) (handle : Word) (s : State) :
    ∃ τ, execLifecycleAdvance d target handle s = .next τ ∧ Keeps [Part.fuses, Part.fw, Part.jobs, Part.msix, Part.out, Part.reg .hif, Part.reg .sag, Part.reg .stk, Part.rings, Part.sag, Part.stk, Part.thr] s τ := by
  refine Keeps.exec fun ps σ hp h => ?_
  unfold execLifecycleAdvance
  refine ⟨_, rfl, ?_⟩
  refine command_keeps _ _ _ _ _ _ ?_ (Keeps.sub (by decide) hp) ?_
  · intro χ1 τ2 hτ3
    refine bodyLifecycleAdvance_keeps _ _ _ _ _ (Keeps.sub (by decide) hp) ?_
    exact hτ3
  · exact h

theorem nonceRead_keeps {ps : List Part} {σ : State} (ini : Initiator) (s : State)
    (hp : ∀ p ∈ [Part.free, Part.reads, Part.sag], p ∈ ps) (h : Keeps ps σ s) : Keeps ps σ (nonceRead ini s) := by
  unfold nonceRead
  extract_lets σ1 σ2 σ3 σ4 σ5
  have hσ12 : Keeps ps σ σ1.2 := by
    unfold σ1
    refine draw_keeps _ _ (Keeps.sub (by decide) hp) ?_
    exact h
  have hσ3 : Keeps ps σ σ3 := by
    unfold σ3
    exact hσ12
  have hσ5 : Keeps ps σ σ5 := by
    unfold σ5
    refine Keeps.set_sag rfl (hp _ (by decide)) ?_
    exact hσ3
  refine returns_keeps _ _ _ (Keeps.sub (by decide) hp) ?_
  refine Keeps.foldl ?_ ?_
  · intro τ6 χ7 hτ8
    refine capture_keeps _ _ _ _ (Keeps.sub (by decide) hp) ?_
    exact hτ8
  · exact hσ5

theorem execSagNonceRead_keeps (ini : Initiator) (s : State) :
    ∃ τ, execSagNonceRead ini s = .next τ ∧ Keeps [Part.free, Part.reads, Part.reg .hif, Part.sag] s τ := by
  refine Keeps.exec fun ps σ hp h => ?_
  unfold execSagNonceRead
  refine ⟨_, rfl, ?_⟩
  refine guardRead_keeps _ _ _ _ ?_ (Keeps.sub (by decide) hp) ?_
  · intro τ1 hτ2
    refine nonceRead_keeps _ _ (Keeps.sub (by decide) hp) ?_
    exact hτ2
  · refine beginRead_keeps _ _ (Keeps.sub (by decide) hp) ?_
    exact h

theorem nonceExpire_keeps {ps : List Part} {σ : State} (t : Nat) (s : State)
    (hp : ∀ p ∈ [Part.clock, Part.msix, Part.out, Part.reg .stk, Part.reg .tim, Part.rings, Part.sag, Part.stk], p ∈ ps) (h : Keeps ps σ s) : Keeps ps σ (nonceExpire t s) := by
  unfold nonceExpire
  extract_lets σ1 σ2
  have hσ1 : Keeps ps σ σ1 := by
    unfold σ1
    refine advanceTo_keeps _ _ (Keeps.sub (by decide) hp) ?_
    exact h
  refine Keeps.ite (fun _ => ?_) fun _ => ?_
  · refine Keeps.set_sag rfl (hp _ (by decide)) ?_
    exact hσ1
  · exact hσ1

theorem execNonceExpire_keeps (t : DWord) (s : State) :
    ∃ τ, execNonceExpire t s = .next τ ∧ Keeps [Part.clock, Part.msix, Part.out, Part.reg .stk, Part.reg .tim, Part.rings, Part.sag, Part.stk] s τ := by
  refine Keeps.exec fun ps σ hp h => ?_
  unfold execNonceExpire
  refine ⟨_, rfl, ?_⟩
  refine nonceExpire_keeps _ _ (Keeps.sub (by decide) hp) ?_
  exact h

theorem firewallDenial_keeps {ps : List Part} {σ : State} (debug : Bool) (row : Nat) (addr : Nat) (write : Bool) (s : State)
    (hp : ∀ p ∈ [Part.msix, Part.out, Part.reads, Part.reg .sag, Part.reg .stk, Part.rings, Part.stk], p ∈ ps) (h : Keeps ps σ s) : Keeps ps σ (firewallDenial debug row addr write s) := by
  unfold firewallDenial
  extract_lets σ1 σ2 σ3
  have hσ2 : Keeps ps σ σ2 := by
    unfold σ2
    refine wn_keeps _ _ _ (Keeps.sub (by decide) hp) ?_
    refine inc_keeps _ _ _ (Keeps.sub (by decide) hp) ?_
    exact h
  have hσ3 : Keeps ps σ σ3 := by
    unfold σ3
    refine raiseIrq_keeps _ _ _ (Keeps.sub (by decide) hp) ?_
    refine event_keeps _ _ _ _ (Keeps.sub (by decide) hp) ?_
    exact hσ2
  refine Keeps.ite (fun _ => ?_) fun _ => ?_
  · exact hσ3
  · refine returns_keeps _ _ _ (Keeps.sub (by decide) hp) ?_
    refine beginRead_keeps _ _ (Keeps.sub (by decide) hp) ?_
    exact hσ3

theorem execFirewallDenial_keeps (debug : Bool) (row : Fin 10) (addr : DWord) (write : Bool) (s : State) :
    ∃ τ, execFirewallDenial debug row addr write s = .next τ ∧ Keeps [Part.msix, Part.out, Part.reads, Part.reg .sag, Part.reg .stk, Part.rings, Part.stk] s τ := by
  refine Keeps.exec fun ps σ hp h => ?_
  unfold execFirewallDenial
  refine ⟨_, rfl, ?_⟩
  refine firewallDenial_keeps _ _ _ _ _ (Keeps.sub (by decide) hp) ?_
  exact h

end Sys2Proof.Machine
end

