-- ==== Sys2Proof/Laws/KeepsWork.lean ====
section
/-! SUPPORT. What the operations of Machine/Work.lean change, and what they keep. -/

namespace Sys2Proof.Machine
open Sys2Proof

theorem execNop_keeps (d : Desc) (s : State) :
    ∃ τ, execNop d s = .next τ ∧ Keeps [Part.fw, Part.msix, Part.out, Part.reg .hif, Part.reg .stk, Part.rings, Part.stk] s τ := by
  refine Keeps.exec fun ps σ hp h => ?_
  unfold execNop
  refine ⟨_, rfl, ?_⟩
  refine command_keeps _ _ _ _ _ _ ?_ (Keeps.sub (by decide) hp) ?_
  · intro χ1 τ2 hτ3
    refine ok_keeps _ _ _ (Keeps.sub (by decide) hp) ?_
    exact hτ3
  · exact h

theorem execDeviceInfo_keeps (d : Desc) (s : State) :
    ∃ τ, execDeviceInfo d s = .next τ ∧ Keeps [Part.fw, Part.msix, Part.out, Part.reg .hif, Part.reg .stk, Part.rings, Part.stk] s τ := by
  refine Keeps.exec fun ps σ hp h => ?_
  unfold execDeviceInfo
  refine ⟨_, rfl, ?_⟩
  refine command_keeps _ _ _ _ _ _ ?_ (Keeps.sub (by decide) hp) ?_
  · intro χ1 τ2 hτ3
    refine ok_keeps _ _ _ (Keeps.sub (by decide) hp) ?_
    exact hτ3
  · exact h

theorem postBootDone_keeps {ps : List Part} {σ : State} (s : State)
    (hp : ∀ p ∈ [Part.msix, Part.out, Part.pwr, Part.reg .stk, Part.rings, Part.stk], p ∈ ps) (h : Keeps ps σ s) : Keeps ps σ (postBootDone s) := by
  unfold postBootDone
  refine Keeps.ite (fun _ => ?_) fun _ => ?_
  · refine event_keeps _ _ _ _ (Keeps.sub (by decide) hp) ?_
    refine Keeps.set_pwr (hp _ (by decide)) ?_
    exact h
  · exact h

theorem ringCreate_keeps {ps : List Part} {σ : State} (h : Hdr) (n : Nat) (typ : Nat) (size : Nat) (ten : Nat) (paired : Nat) (vector : Nat) (imodCnt : Nat) (imodTime : Nat) (base : Nat) (wb : Nat) (s : State)
    (hp : ∀ p ∈ [Part.fw, Part.msix, Part.out, Part.pwr, Part.reg .stk, Part.rings, Part.stk], p ∈ ps) (hs : Keeps ps σ s) : Keeps ps σ (ringCreate h n typ size ten paired vector imodCnt imodTime base wb s) := by
  unfold ringCreate
  split
  · refine fail_keeps _ _ _ (Keeps.sub (by decide) hp) ?_
    exact hs
  · extract_lets σ1 σ2 σ3 σ4
    have hσ4 : Keeps ps σ σ4 := by
      unfold σ4
      refine putRing_keeps _ _ _ (Keeps.sub (by decide) hp) ?_
      exact hs
    refine Keeps.ite (fun _ => ?_) fun _ => ?_
    · refine fail_keeps _ _ _ (Keeps.sub (by decide) hp) ?_
      exact hs
    · refine Keeps.ite (fun _ => ?_) fun _ => ?_
      · refine fail_keeps _ _ _ (Keeps.sub (by decide) hp) ?_
        exact hs
      · refine Keeps.ite (fun _ => ?_) fun _ => ?_
        · refine fail_keeps _ _ _ (Keeps.sub (by decide) hp) ?_
          exact hs
        · refine Keeps.ite (fun _ => ?_) fun _ => ?_
          · refine fail_keeps _ _ _ (Keeps.sub (by decide) hp) ?_
            exact hs
          · refine Keeps.ite (fun _ => ?_) fun _ => ?_
            · refine fail_keeps _ _ _ (Keeps.sub (by decide) hp) ?_
              exact hs
            · refine ok_keeps _ _ _ (Keeps.sub (by decide) hp) ?_
              refine Keeps.ite (fun _ => ?_) fun _ => ?_
              · refine postBootDone_keeps _ (Keeps.sub (by decide) hp) ?_
                exact hσ4
              · exact hσ4

theorem execRingCreate_keeps (d : Desc) (ring : BitVec 16) (typ : BitVec 8) (size : BitVec 8) (tenant : BitVec 16) (paired : BitVec 16) (vector : BitVec 16) (imodCnt : BitVec 8) (imodTime : BitVec 16) (base : DWord) (wb : DWord) (s : State) :
    ∃ τ, execRingCreate d ring typ size tenant paired vector imodCnt imodTime base wb s = .next τ ∧ Keeps [Part.fw, Part.msix, Part.out, Part.pwr, Part.reg .hif, Part.reg .stk, Part.rings, Part.stk] s τ := by
  refine Keeps.exec fun ps σ hp h => ?_
  unfold execRingCreate
  refine ⟨_, rfl, ?_⟩
  refine command_keeps _ _ _ _ _ _ ?_ (Keeps.sub (by decide) hp) ?_
  · intro χ1 τ2 hτ3
    refine ringCreate_keeps _ _ _ _ _ _ _ _ _ _ _ _ (Keeps.sub (by decide) hp) ?_
    exact hτ3
  · exact h

theorem ringDestroy_keeps {ps : List Part} {σ : State} (h : Hdr) (c : Instr) (n : Nat) (s : State)
    (hp : ∀ p ∈ [Part.fw, Part.msix, Part.out, Part.reg .stk, Part.rings, Part.stk], p ∈ ps) (hs : Keeps ps σ s) : Keeps ps σ (ringDestroy h c n s) := by
  unfold ringDestroy
  refine Keeps.ite (fun _ => ?_) fun _ => ?_
  · refine fail_keeps _ _ _ (Keeps.sub (by decide) hp) ?_
    exact hs
  · extract_lets σ1
    refine Keeps.ite (fun _ => ?_) fun _ => ?_
    · refine fail_keeps _ _ _ (Keeps.sub (by decide) hp) ?_
      exact hs
    · refine Keeps.ite (fun _ => ?_) fun _ => ?_
      · refine fail_keeps _ _ _ (Keeps.sub (by decide) hp) ?_
        exact hs
      · refine parkAccepted_keeps _ _ _ _ _ (Keeps.sub (by decide) hp) ?_
        refine updRing_keeps _ _ _ (Keeps.sub (by decide) hp) ?_
        exact hs

theorem execRingDestroy_keeps (d : Desc) (ring : BitVec 16) (s : State) :
    ∃ τ, execRingDestroy d ring s = .next τ ∧ Keeps [Part.fw, Part.msix, Part.out, Part.reg .hif, Part.reg .stk, Part.rings, Part.stk] s τ := by
  refine Keeps.exec fun ps σ hp h => ?_
  unfold execRingDestroy
  refine ⟨_, rfl, ?_⟩
  refine command_keeps _ _ _ _ _ _ ?_ (Keeps.sub (by decide) hp) ?_
  · intro χ1 τ2 hτ3
    refine ringDestroy_keeps _ _ _ _ (Keeps.sub (by decide) hp) ?_
    exact hτ3
  · exact h

theorem ringDestroyDone_keeps {ps : List Part} {σ : State} (n : Nat) (s : State)
    (hp : ∀ p ∈ [Part.fw, Part.msix, Part.out, Part.reg .stk, Part.rings, Part.stk], p ∈ ps) (h : Keeps ps σ s) : Keeps ps σ (ringDestroyDone n s) := by
  unfold ringDestroyDone
  refine Keeps.ite (fun _ => ?_) fun _ => ?_
  · refine arrive_keeps _ _ _ (Keeps.sub (by decide) hp) ?_
    refine putRing_keeps _ _ _ (Keeps.sub (by decide) hp) ?_
    exact h
  · exact h

theorem execRingDestroyDone_keeps (ring : Fin 8192) (s : State) :
    ∃ τ, execRingDestroyDone ring s = .next τ ∧ Keeps [Part.fw, Part.msix, Part.out, Part.reg .stk, Part.rings, Part.stk] s τ := by
  refine Keeps.exec fun ps σ hp h => ?_
  unfold execRingDestroyDone
  refine ⟨_, rfl, ?_⟩
  refine ringDestroyDone_keeps _ _ (Keeps.sub (by decide) hp) ?_
  exact h

theorem ringQuery_keeps {ps : List Part} {σ : State} (h : Hdr) (n : Nat) (s : State)
    (hp : ∀ p ∈ [Part.fw, Part.msix, Part.out, Part.reg .stk, Part.rings, Part.stk], p ∈ ps) (hs : Keeps ps σ s) : Keeps ps σ (ringQuery h n s) := by
  unfold ringQuery
  refine Keeps.ite (fun _ => ?_) fun _ => ?_
  · refine fail_keeps _ _ _ (Keeps.sub (by decide) hp) ?_
    exact hs
  · extract_lets σ1
    refine Keeps.ite (fun _ => ?_) fun _ => ?_
    · refine fail_keeps _ _ _ (Keeps.sub (by decide) hp) ?_
      exact hs
    · refine ok_keeps _ _ _ (Keeps.sub (by decide) hp) ?_
      exact hs

theorem execRingQuery_keeps (d : Desc) (ring : BitVec 16) (s : State) :
    ∃ τ, execRingQuery d ring s = .next τ ∧ Keeps [Part.fw, Part.msix, Part.out, Part.reg .hif, Part.reg .stk, Part.rings, Part.stk] s τ := by
  refine Keeps.exec fun ps σ hp h => ?_
  unfold execRingQuery
  refine ⟨_, rfl, ?_⟩
  refine query_keeps _ _ _ _ _ ?_ (Keeps.sub (by decide) hp) ?_
  · intro χ1 τ2 hτ3
    refine ringQuery_keeps _ _ _ (Keeps.sub (by decide) hp) ?_
    exact hτ3
  · exact h

theorem patchStatus_keeps {ps : List Part} {σ : State} (h : Hdr) (addr : Nat) (len : Nat) (s : State)
    (hp : ∀ p ∈ [Part.fw, Part.msix, Part.out, Part.reg .stk, Part.rings, Part.stk], p ∈ ps) (hs : Keeps ps σ s) : Keeps ps σ (patchStatus h addr len s) := by
  unfold patchStatus
  refine output_keeps _ _ _ _ _ _ (Keeps.sub (by decide) hp) ?_
  exact hs

theorem execPatchStatus_keeps (d : Desc) (buf : DWord) (len : Word) (s : State) :
    ∃ τ, execPatchStatus d buf len s = .next τ ∧ Keeps [Part.fw, Part.msix, Part.out, Part.reg .hif, Part.reg .stk, Part.rings, Part.stk] s τ := by
  refine Keeps.exec fun ps σ hp h => ?_
  unfold execPatchStatus
  refine ⟨_, rfl, ?_⟩
  refine command_keeps _ _ _ _ _ _ ?_ (Keeps.sub (by decide) hp) ?_
  · intro χ1 τ2 hτ3
    refine patchStatus_keeps _ _ _ _ (Keeps.sub (by decide) hp) ?_
    exact hτ3
  · exact h

theorem eventFilter_keeps {ps : List Part} {σ : State} (h : Hdr) (n : Nat) (mask : BitVec 256) (s : State)
    (hp : ∀ p ∈ [Part.fw, Part.msix, Part.out, Part.reg .stk, Part.rings, Part.stk], p ∈ ps) (hs : Keeps ps σ s) : Keeps ps σ (eventFilter h n mask s) := by
  unfold eventFilter
  refine Keeps.ite (fun _ => ?_) fun _ => ?_
  · refine ok_keeps _ _ _ (Keeps.sub (by decide) hp) ?_
    refine updRing_keeps _ _ _ (Keeps.sub (by decide) hp) ?_
    exact hs
  · refine fail_keeps _ _ _ (Keeps.sub (by decide) hp) ?_
    exact hs

theorem execEventFilter_keeps (d : Desc) (ring : BitVec 16) (mask : BitVec 256) (s : State) :
    ∃ τ, execEventFilter d ring mask s = .next τ ∧ Keeps [Part.fw, Part.msix, Part.out, Part.reg .hif, Part.reg .stk, Part.rings, Part.stk] s τ := by
  refine Keeps.exec fun ps σ hp h => ?_
  unfold execEventFilter
  refine ⟨_, rfl, ?_⟩
  refine command_keeps _ _ _ _ _ _ ?_ (Keeps.sub (by decide) hp) ?_
  · intro χ1 τ2 hτ3
    refine eventFilter_keeps _ _ _ _ (Keeps.sub (by decide) hp) ?_
    exact hτ3
  · exact h

theorem tenantEnable_keeps {ps : List Part} {σ : State} (h : Hdr) (t : Nat) (jobs : Nat) (copies : Nat) (s : State)
    (hp : ∀ p ∈ [Part.fw, Part.jobs, Part.msix, Part.out, Part.reg .stk, Part.rings, Part.stk], p ∈ ps) (hs : Keeps ps σ s) : Keeps ps σ (tenantEnable h t jobs copies s) := by
  unfold tenantEnable
  refine Keeps.ite (fun _ => ?_) fun _ => ?_
  · refine fail_keeps _ _ _ (Keeps.sub (by decide) hp) ?_
    exact hs
  · refine Keeps.ite (fun _ => ?_) fun _ => ?_
    · refine fail_keeps _ _ _ (Keeps.sub (by decide) hp) ?_
      exact hs
    · refine Keeps.ite (fun _ => ?_) fun _ => ?_
      · refine fail_keeps _ _ _ (Keeps.sub (by decide) hp) ?_
        exact hs
      · refine ok_keeps _ _ _ (Keeps.sub (by decide) hp) ?_
        refine updTenant_keeps _ _ _ (Keeps.sub (by decide) hp) ?_
        exact hs

theorem execTenantEnable_keeps (d : Desc) (tenant : BitVec 16) (maxJobs : BitVec 16) (maxCopies : BitVec 16) (s : State) :
    ∃ τ, execTenantEnable d tenant maxJobs maxCopies s = .next τ ∧ Keeps [Part.fw, Part.jobs, Part.msix, Part.out, Part.reg .hif, Part.reg .stk, Part.rings, Part.stk] s τ := by
  refine Keeps.exec fun ps σ hp h => ?_
  unfold execTenantEnable
  refine ⟨_, rfl, ?_⟩
  refine command_keeps _ _ _ _ _ _ ?_ (Keeps.sub (by decide) hp) ?_
  · intro χ1 τ2 hτ3
    refine tenantEnable_keeps _ _ _ _ _ (Keeps.sub (by decide) hp) ?_
    exact hτ3
  · exact h

theorem tenantRecord_keeps {ps : List Part} {σ : State} (t : Nat) (s : State)
    (hp : ∀ p ∈ [Part.free], p ∈ ps) (h : Keeps ps σ s) : Keeps ps σ (tenantRecord t s).2 := by
  unfold tenantRecord
  extract_lets σ1 σ2 σ3 σ4
  have hσ32 : Keeps ps σ σ3.2 := by
    unfold σ3
    refine draw_keeps _ _ (Keeps.sub (by decide) hp) ?_
    exact h
  refine Keeps.snd ?_
  exact hσ32

theorem startDrain_keeps {ps : List Part} {σ : State} (t : Nat) (s : State)
    (hp : ∀ p ∈ [Part.crk, Part.free, Part.glz, Part.hif, Part.jobs, Part.kln, Part.msix, Part.out, Part.reg .hif, Part.reg .klnC, Part.reg .stk, Part.rings, Part.sag, Part.stk, Part.thr], p ∈ ps) (h : Keeps ps σ s) : Keeps ps σ (startDrain t s) := by
  unfold startDrain
  extract_lets σ1 σ2 σ3
  have hσ1 : Keeps ps σ σ1 := by
    unfold σ1
    refine updTenant_keeps _ _ _ (Keeps.sub (by decide) hp) ?_
    exact h
  have hσ3 : Keeps ps σ σ3 := by
    unfold σ3
    refine Keeps.set_hif (Or.inl (hp _ (by decide))) (Or.inr rfl) (Or.inl (hp _ (by decide))) ?_
    exact hσ1
  refine refreshIdle_keeps _ (Keeps.sub (by decide) hp) ?_
  refine Keeps.foldl ?_ ?_
  · intro τ4 χ5 hτ6
    refine voidCopy_keeps _ _ _ (Keeps.sub (by decide) hp) ?_
    exact hτ6
  · exact hσ3

theorem tenantDisable_keeps {ps : List Part} {σ : State} (h : Hdr) (c : Instr) (t : Nat) (s : State)
    (hp : ∀ p ∈ [Part.crk, Part.free, Part.fw, Part.glz, Part.hif, Part.jobs, Part.kln, Part.msix, Part.out, Part.reg .hif, Part.reg .klnC, Part.reg .stk, Part.rings, Part.sag, Part.stk, Part.thr], p ∈ ps) (hs : Keeps ps σ s) : Keeps ps σ (tenantDisable h c t s) := by
  unfold tenantDisable
  refine Keeps.ite (fun _ => ?_) fun _ => ?_
  · refine fail_keeps _ _ _ (Keeps.sub (by decide) hp) ?_
    exact hs
  · refine Keeps.ite (fun _ => ?_) fun _ => ?_
    · refine fail_keeps _ _ _ (Keeps.sub (by decide) hp) ?_
      exact hs
    · extract_lets σ1
      have hσ12 : Keeps ps σ σ1.2 := by
        unfold σ1
        refine tenantRecord_keeps _ _ (Keeps.sub (by decide) hp) ?_
        exact hs
      refine parkAccepted_keeps _ _ _ _ _ (Keeps.sub (by decide) hp) ?_
      refine startDrain_keeps _ _ (Keeps.sub (by decide) hp) ?_
      refine updTenant_keeps _ _ _ (Keeps.sub (by decide) hp) ?_
      exact hσ12

theorem execTenantDisable_keeps (d : Desc) (tenant : BitVec 16) (s : State) :
    ∃ τ, execTenantDisable d tenant s = .next τ ∧ Keeps [Part.crk, Part.free, Part.fw, Part.glz, Part.hif, Part.jobs, Part.kln, Part.msix, Part.out, Part.reg .hif, Part.reg .klnC, Part.reg .stk, Part.rings, Part.sag, Part.stk, Part.thr] s τ := by
  refine Keeps.exec fun ps σ hp h => ?_
  unfold execTenantDisable
  refine ⟨_, rfl, ?_⟩
  refine command_keeps _ _ _ _ _ _ ?_ (Keeps.sub (by decide) hp) ?_
  · intro χ1 τ2 hτ3
    refine tenantDisable_keeps _ _ _ _ (Keeps.sub (by decide) hp) ?_
    exact hτ3
  · exact h

theorem drainKeyWipe_keeps {ps : List Part} {σ : State} (t : Nat) (s : State)
    (hp : ∀ p ∈ [Part.fw, Part.glz, Part.jobs, Part.msix, Part.out, Part.reg .stk, Part.rings, Part.sag, Part.stk, Part.thr], p ∈ ps) (h : Keeps ps σ s) : Keeps ps σ (drainKeyWipe t s) := by
  unfold drainKeyWipe
  refine Keeps.ite (fun _ => ?_) fun _ => ?_
  · extract_lets σ1 σ2 σ3 σ4 σ5
    have hσ2 : Keeps ps σ σ2 := by
      unfold σ2
      refine Keeps.foldl ?_ ?_
      · intro τ6 χ7 hτ8
        refine failWaiters_keeps _ _ _ (Keeps.sub (by decide) hp) ?_
        exact hτ8
      · refine updSag_keeps _ _ _ (Keeps.sub (by decide) hp) ?_
        exact h
    refine updTenant_keeps _ _ _ (Keeps.sub (by decide) hp) ?_
    refine Keeps.set_jobs_thr_glz (hp _ (by decide)) (hp _ (by decide)) (hp _ (by decide)) ?_
    exact hσ2
  · exact h

theorem execTenantDrainKeyWipe_keeps (tenant : Fin 1024) (s : State) :
    ∃ τ, execTenantDrainKeyWipe tenant s = .next τ ∧ Keeps [Part.fw, Part.glz, Part.jobs, Part.msix, Part.out, Part.reg .stk, Part.rings, Part.sag, Part.stk, Part.thr] s τ := by
  refine Keeps.exec fun ps σ hp h => ?_
  unfold execTenantDrainKeyWipe
  refine ⟨_, rfl, ?_⟩
  refine drainKeyWipe_keeps _ _ (Keeps.sub (by decide) hp) ?_
  exact h

theorem drainDone_keeps {ps : List Part} {σ : State} (t : Nat) (s : State)
    (hp : ∀ p ∈ [Part.crk, Part.free, Part.fw, Part.glz, Part.jobs, Part.msix, Part.out, Part.reg .stk, Part.rings, Part.sag, Part.stk], p ∈ ps) (h : Keeps ps σ s) : Keeps ps σ (drainDone t s) := by
  unfold drainDone
  extract_lets σ1 σ2 σ3 σ4 σ5
  have hσ4 : Keeps ps σ σ4 := by
    unfold σ4
    refine updTenant_keeps _ _ _ (Keeps.sub (by decide) hp) ?_
    refine Keeps.set_jobs_glz (hp _ (by decide)) (hp _ (by decide)) ?_
    exact h
  have hσ5 : Keeps ps σ σ5 := by
    unfold σ5
    refine arrive_keeps _ _ _ (Keeps.sub (by decide) hp) ?_
    exact hσ4
  refine Keeps.ite (fun _ => ?_) fun _ => ?_
  · refine Keeps.ite (fun _ => ?_) fun _ => ?_
    · refine closeBatch_keeps _ _ (Keeps.sub (by decide) hp) ?_
      exact hσ5
    · exact hσ5
  · exact h

theorem execTenantDrainDone_keeps (tenant : Fin 1024) (s : State) :
    ∃ τ, execTenantDrainDone tenant s = .next τ ∧ Keeps [Part.crk, Part.free, Part.fw, Part.glz, Part.jobs, Part.msix, Part.out, Part.reg .stk, Part.rings, Part.sag, Part.stk] s τ := by
  refine Keeps.exec fun ps σ hp h => ?_
  unfold execTenantDrainDone
  refine ⟨_, rfl, ?_⟩
  refine drainDone_keeps _ _ (Keeps.sub (by decide) hp) ?_
  exact h

theorem tenantQuery_keeps {ps : List Part} {σ : State} (h : Hdr) (t : Nat) (s : State)
    (hp : ∀ p ∈ [Part.free, Part.fw, Part.msix, Part.out, Part.reg .stk, Part.rings, Part.stk], p ∈ ps) (hs : Keeps ps σ s) : Keeps ps σ (tenantQuery h t s) := by
  unfold tenantQuery
  refine Keeps.ite (fun _ => ?_) fun _ => ?_
  · refine fail_keeps _ _ _ (Keeps.sub (by decide) hp) ?_
    exact hs
  · extract_lets σ1
    have hσ12 : Keeps ps σ σ1.2 := by
      unfold σ1
      refine tenantRecord_keeps _ _ (Keeps.sub (by decide) hp) ?_
      exact hs
    refine ok_keeps _ _ _ (Keeps.sub (by decide) hp) ?_
    exact hσ12

theorem execTenantQuery_keeps (d : Desc) (tenant : BitVec 16) (s : State) :
    ∃ τ, execTenantQuery d tenant s = .next τ ∧ Keeps [Part.free, Part.fw, Part.msix, Part.out, Part.reg .hif, Part.reg .stk, Part.rings, Part.stk] s τ := by
  refine Keeps.exec fun ps σ hp h => ?_
  unfold execTenantQuery
  refine ⟨_, rfl, ?_⟩
  refine query_keeps _ _ _ _ _ ?_ (Keeps.sub (by decide) hp) ?_
  · intro χ1 τ2 hτ3
    refine tenantQuery_keeps _ _ _ (Keeps.sub (by decide) hp) ?_
    exact hτ3
  · exact h

theorem jobOpenCmd_keeps {ps : List Part} {σ : State} (h : Hdr) (j : Nat) (nonce : DWord) (s : State)
    (hp : ∀ p ∈ [Part.fw, Part.jobs, Part.msix, Part.out, Part.reg .stk, Part.rings, Part.stk], p ∈ ps) (hs : Keeps ps σ s) : Keeps ps σ (jobOpenCmd h j nonce s) := by
  unfold jobOpenCmd
  extract_lets σ1 σ2 σ3 σ4
  refine Keeps.ite (fun _ => ?_) fun _ => ?_
  · refine fail_keeps _ _ _ (Keeps.sub (by decide) hp) ?_
    exact hs
  · refine Keeps.ite (fun _ => ?_) fun _ => ?_
    · refine fail_keeps _ _ _ (Keeps.sub (by decide) hp) ?_
      exact hs
    · refine Keeps.ite (fun _ => ?_) fun _ => ?_
      · refine fail_keeps _ _ _ (Keeps.sub (by decide) hp) ?_
        exact hs
      · refine ok_keeps _ _ _ (Keeps.sub (by decide) hp) ?_
        refine Keeps.set_jobs (hp _ (by decide)) ?_
        exact hs

theorem execJobOpen_keeps (d : Desc) (job : Word) (nonce : DWord) (s : State) :
    ∃ τ, execJobOpen d job nonce s = .next τ ∧ Keeps [Part.fw, Part.jobs, Part.msix, Part.out, Part.reg .hif, Part.reg .stk, Part.rings, Part.stk] s τ := by
  refine Keeps.exec fun ps σ hp h => ?_
  unfold execJobOpen
  refine ⟨_, rfl, ?_⟩
  refine command_keeps _ _ _ _ _ _ ?_ (Keeps.sub (by decide) hp) ?_
  · intro χ1 τ2 hτ3
    refine jobOpenCmd_keeps _ _ _ _ (Keeps.sub (by decide) hp) ?_
    exact hτ3
  · exact h

theorem closeJob_keeps {ps : List Part} {σ : State} (t : Nat) (j : Nat) (s : State)
    (hp : ∀ p ∈ [Part.jobs], p ∈ ps) (h : Keeps ps σ s) : Keeps ps σ (closeJob t j s) := by
  unfold closeJob
  refine Keeps.set_jobs (hp _ (by decide)) ?_
  exact h

theorem jobClose_keeps {ps : List Part} {σ : State} (h : Hdr) (c : Instr) (j : Nat) (s : State)
    (hp : ∀ p ∈ [Part.fw, Part.jobs, Part.msix, Part.out, Part.reg .stk, Part.rings, Part.stk], p ∈ ps) (hs : Keeps ps σ s) : Keeps ps σ (jobClose h c j s) := by
  unfold jobClose
  split
  · refine fail_keeps _ _ _ (Keeps.sub (by decide) hp) ?_
    exact hs
  · refine parkAccepted_keeps _ _ _ _ _ (Keeps.sub (by decide) hp) ?_
    refine closeJob_keeps _ _ _ (Keeps.sub (by decide) hp) ?_
    exact hs

theorem execJobClose_keeps (d : Desc) (job : Word) (s : State) :
    ∃ τ, execJobClose d job s = .next τ ∧ Keeps [Part.fw, Part.jobs, Part.msix, Part.out, Part.reg .hif, Part.reg .stk, Part.rings, Part.stk] s τ := by
  refine Keeps.exec fun ps σ hp h => ?_
  unfold execJobClose
  refine ⟨_, rfl, ?_⟩
  refine command_keeps _ _ _ _ _ _ ?_ (Keeps.sub (by decide) hp) ?_
  · intro χ1 τ2 hτ3
    refine jobClose_keeps _ _ _ _ (Keeps.sub (by decide) hp) ?_
    exact hτ3
  · exact h

theorem jobAbort_keeps {ps : List Part} {σ : State} (h : Hdr) (c : Instr) (j : Nat) (s : State)
    (hp : ∀ p ∈ [Part.crk, Part.free, Part.fw, Part.glz, Part.hif, Part.jobs, Part.kln, Part.msix, Part.out, Part.reg .hif, Part.reg .klnC, Part.reg .stk, Part.rings, Part.sag, Part.stk, Part.thr], p ∈ ps) (hs : Keeps ps σ s) : Keeps ps σ (jobAbort h c j s) := by
  unfold jobAbort
  split
  · refine fail_keeps _ _ _ (Keeps.sub (by decide) hp) ?_
    exact hs
  · extract_lets σ1
    have hσ1 : Keeps ps σ σ1 := by
      unfold σ1
      refine Keeps.foldl ?_ ?_
      · intro τ2 χ3 hτ4
        refine voidCopy_keeps _ _ _ (Keeps.sub (by decide) hp) ?_
        exact hτ4
      · refine closeJob_keeps _ _ _ (Keeps.sub (by decide) hp) ?_
        exact hs
    refine parkAccepted_keeps _ _ _ _ _ (Keeps.sub (by decide) hp) ?_
    refine refreshIdle_keeps _ (Keeps.sub (by decide) hp) ?_
    exact hσ1

theorem execJobAbort_keeps (d : Desc) (job : Word) (s : State) :
    ∃ τ, execJobAbort d job s = .next τ ∧ Keeps [Part.crk, Part.free, Part.fw, Part.glz, Part.hif, Part.jobs, Part.kln, Part.msix, Part.out, Part.reg .hif, Part.reg .klnC, Part.reg .stk, Part.rings, Part.sag, Part.stk, Part.thr] s τ := by
  refine Keeps.exec fun ps σ hp h => ?_
  unfold execJobAbort
  refine ⟨_, rfl, ?_⟩
  refine command_keeps _ _ _ _ _ _ ?_ (Keeps.sub (by decide) hp) ?_
  · intro χ1 τ2 hτ3
    refine jobAbort_keeps _ _ _ _ (Keeps.sub (by decide) hp) ?_
    exact hτ3
  · exact h

theorem jobEndDone_keeps {ps : List Part} {σ : State} (seq : Nat) (s : State)
    (hp : ∀ p ∈ [Part.crk, Part.free, Part.fw, Part.jobs, Part.msix, Part.out, Part.reg .stk, Part.rings, Part.sag, Part.stk], p ∈ ps) (h : Keeps ps σ s) : Keeps ps σ (jobEndDone seq s) := by
  unfold jobEndDone
  split
  · exact h
  · extract_lets σ1 σ2 σ3 σ4
    have hσ3 : Keeps ps σ σ3 := by
      unfold σ3
      refine closeBatch_keeps _ _ (Keeps.sub (by decide) hp) ?_
      exact h
    clear_value σ1
    split
    · exact h
    · refine Keeps.ite (fun _ => ?_) fun _ => ?_
      · exact h
      · extract_lets σ5 σ6
        have hσ5 : Keeps ps σ σ5 := by
          unfold σ5
          refine leavePages_keeps _ _ (Keeps.sub (by decide) hp) ?_
          refine Keeps.set_jobs (hp _ (by decide)) ?_
          exact hσ3
        have hσ6 : Keeps ps σ σ6 := by
          unfold σ6
          refine Keeps.ite (fun _ => ?_) fun _ => ?_
          · refine writeCeiling_keeps _ _ _ (Keeps.sub (by decide) hp) ?_
            exact hσ5
          · exact hσ5
        refine complete_keeps _ _ _ _ (Keeps.sub (by decide) hp) ?_
        exact hσ6

theorem execJobEndDone_keeps (seq : Nat) (s : State) :
    ∃ τ, execJobEndDone seq s = .next τ ∧ Keeps [Part.crk, Part.free, Part.fw, Part.jobs, Part.msix, Part.out, Part.reg .stk, Part.rings, Part.sag, Part.stk] s τ := by
  refine Keeps.exec fun ps σ hp h => ?_
  unfold execJobEndDone
  refine ⟨_, rfl, ?_⟩
  refine jobEndDone_keeps _ _ (Keeps.sub (by decide) hp) ?_
  exact h

theorem pageLoad_keeps {ps : List Part} {σ : State} (h : Hdr) (x : Stream) (s : State)
    (hp : ∀ p ∈ [Part.crk, Part.free, Part.fw, Part.glz, Part.hif, Part.jobs, Part.kln, Part.msix, Part.out, Part.reg .hif, Part.reg .klnC, Part.reg .stk, Part.reg .thr, Part.rings, Part.sag, Part.stk, Part.thr], p ∈ ps) (hs : Keeps ps σ s) : Keeps ps σ (pageLoad h x s) := by
  unfold pageLoad
  split
  · refine fail_keeps _ _ _ (Keeps.sub (by decide) hp) ?_
    exact hs
  · extract_lets σ1 σ2 σ3 σ4 σ5 σ6
    have hσ6 : Keeps ps σ σ6 := by
      unfold σ6
      refine checkPage_keeps _ _ (Keeps.sub (by decide) hp) ?_
      refine prepareAgain_keeps _ _ (Keeps.sub (by decide) hp) ?_
      refine Keeps.set_jobs (hp _ (by decide)) ?_
      exact hs
    refine Keeps.ite (fun _ => ?_) fun _ => ?_
    · refine fail_keeps _ _ _ (Keeps.sub (by decide) hp) ?_
      exact hs
    · refine Keeps.ite (fun _ => ?_) fun _ => ?_
      · refine fail_keeps _ _ _ (Keeps.sub (by decide) hp) ?_
        exact hs
      · refine Keeps.ite (fun _ => ?_) fun _ => ?_
        · refine fail_keeps _ _ _ (Keeps.sub (by decide) hp) ?_
          exact hs
        · refine Keeps.ite (fun _ => ?_) fun _ => ?_
          · refine fail_keeps _ _ _ (Keeps.sub (by decide) hp) ?_
            exact hs
          · refine Keeps.ite (fun _ => ?_) fun _ => ?_
            · refine fail_keeps _ _ _ (Keeps.sub (by decide) hp) ?_
              exact hs
            · refine ok_keeps _ _ _ (Keeps.sub (by decide) hp) ?_
              exact hσ6

theorem bodyPageLoad_keeps {ps : List Part} {σ : State} (h : Hdr) (c : Instr) (handle : Nat) (s : State)
    (hp : ∀ p ∈ [Part.crk, Part.free, Part.fw, Part.glz, Part.hif, Part.jobs, Part.kln, Part.msix, Part.out, Part.reg .hif, Part.reg .klnC, Part.reg .stk, Part.reg .thr, Part.rings, Part.sag, Part.stk, Part.thr], p ∈ ps) (hs : Keeps ps σ s) : Keeps ps σ (bodyPageLoad h c handle s) := by
  unfold bodyPageLoad
  refine withStream_keeps _ _ _ _ _ _ _ ?_ (Keeps.sub (by decide) hp) ?_
  · intro χ1 τ2 hτ3
    refine pageLoad_keeps _ _ _ (Keeps.sub (by decide) hp) ?_
    exact hτ3
  · exact hs

theorem execPageLoad_keeps (d : Desc) (handle : Word) (s : State) :
    ∃ τ, execPageLoad d handle s = .next τ ∧ Keeps [Part.crk, Part.free, Part.fw, Part.glz, Part.hif, Part.jobs, Part.kln, Part.msix, Part.out, Part.reg .hif, Part.reg .klnC, Part.reg .stk, Part.reg .thr, Part.rings, Part.sag, Part.stk, Part.thr] s τ := by
  refine Keeps.exec fun ps σ hp h => ?_
  unfold execPageLoad
  refine ⟨_, rfl, ?_⟩
  refine command_keeps _ _ _ _ _ _ ?_ (Keeps.sub (by decide) hp) ?_
  · intro χ1 τ2 hτ3
    refine bodyPageLoad_keeps _ _ _ _ (Keeps.sub (by decide) hp) ?_
    exact hτ3
  · exact h

theorem pageRelease_keeps {ps : List Part} {σ : State} (h : Hdr) (c : Instr) (j : Nat) (p : Nat) (s : State)
    (hp : ∀ q ∈ [Part.fw, Part.jobs, Part.msix, Part.out, Part.reg .stk, Part.rings, Part.stk], q ∈ ps) (hs : Keeps ps σ s) : Keeps ps σ (pageRelease h c j p s) := by
  unfold pageRelease
  split
  · refine fail_keeps _ _ _ (Keeps.sub (by decide) hp) ?_
    exact hs
  · refine parkAccepted_keeps _ _ _ _ _ (Keeps.sub (by decide) hp) ?_
    refine Keeps.set_jobs (hp _ (by decide)) ?_
    exact hs

theorem execPageRelease_keeps (d : Desc) (job : Word) (page : Word) (s : State) :
    ∃ τ, execPageRelease d job page s = .next τ ∧ Keeps [Part.fw, Part.jobs, Part.msix, Part.out, Part.reg .hif, Part.reg .stk, Part.rings, Part.stk] s τ := by
  refine Keeps.exec fun ps σ hp h => ?_
  unfold execPageRelease
  refine ⟨_, rfl, ?_⟩
  refine command_keeps _ _ _ _ _ _ ?_ (Keeps.sub (by decide) hp) ?_
  · intro χ1 τ2 hτ3
    refine pageRelease_keeps _ _ _ _ _ (Keeps.sub (by decide) hp) ?_
    exact hτ3
  · exact h

theorem pageReleaseDone_keeps {ps : List Part} {σ : State} (seq : Nat) (s : State)
    (hp : ∀ p ∈ [Part.fw, Part.jobs, Part.msix, Part.out, Part.reg .stk, Part.rings, Part.stk], p ∈ ps) (h : Keeps ps σ s) : Keeps ps σ (pageReleaseDone seq s) := by
  unfold pageReleaseDone
  split
  · exact h
  · extract_lets σ1 σ2
    clear_value σ1
    split
    · exact h
    · refine Keeps.ite (fun _ => ?_) fun _ => ?_
      · exact h
      · refine complete_keeps _ _ _ _ (Keeps.sub (by decide) hp) ?_
        refine leavePages_keeps _ _ (Keeps.sub (by decide) hp) ?_
        exact h

theorem execPageReleaseDone_keeps (seq : Nat) (s : State) :
    ∃ τ, execPageReleaseDone seq s = .next τ ∧ Keeps [Part.fw, Part.jobs, Part.msix, Part.out, Part.reg .stk, Part.rings, Part.stk] s τ := by
  refine Keeps.exec fun ps σ hp h => ?_
  unfold execPageReleaseDone
  refine ⟨_, rfl, ?_⟩
  refine pageReleaseDone_keeps _ _ (Keeps.sub (by decide) hp) ?_
  exact h

theorem copySubmit_keeps {ps : List Part} {σ : State} (h : Hdr) (x : Stream) (s : State)
    (hp : ∀ p ∈ [Part.crk, Part.free, Part.fw, Part.glz, Part.hif, Part.jobs, Part.kln, Part.msix, Part.out, Part.reg .hif, Part.reg .klnC, Part.reg .stk, Part.rings, Part.sag, Part.stk, Part.thr], p ∈ ps) (hs : Keeps ps σ s) : Keeps ps σ (copySubmit h x s) := by
  unfold copySubmit
  extract_lets σ1 σ2 σ3 σ4 σ5 σ6 σ7 σ8
  split
  · refine fail_keeps _ _ _ (Keeps.sub (by decide) hp) ?_
    exact hs
  · refine Keeps.ite (fun _ => ?_) fun _ => ?_
    · refine fail_keeps _ _ _ (Keeps.sub (by decide) hp) ?_
      exact hs
    · refine Keeps.ite (fun _ => ?_) fun _ => ?_
      · refine fail_keeps _ _ _ (Keeps.sub (by decide) hp) ?_
        exact hs
      · refine Keeps.ite (fun _ => ?_) fun _ => ?_
        · refine fail_keeps _ _ _ (Keeps.sub (by decide) hp) ?_
          exact hs
        · extract_lets σ9 σ10 σ11 σ12 σ13
          have hσ11 : Keeps ps σ σ11 := by
            unfold σ11
            refine updTenant_keeps _ _ _ (Keeps.sub (by decide) hp) ?_
            refine Keeps.set_jobs (hp _ (by decide)) ?_
            exact hs
          have hσ12 : Keeps ps σ σ12 := by
            unfold σ12
            refine ok_keeps _ _ _ (Keeps.sub (by decide) hp) ?_
            exact hσ11
          have hσ13 : Keeps ps σ σ13 := by
            unfold σ13
            refine Keeps.ite (fun _ => ?_) fun _ => ?_
            · refine voidCopy_keeps _ _ _ (Keeps.sub (by decide) hp) ?_
              exact hσ12
            · refine refreshReady_keeps _ (Keeps.sub (by decide) hp) ?_
              exact hσ12
          refine refreshIdle_keeps _ (Keeps.sub (by decide) hp) ?_
          exact hσ13

theorem bodyCopySubmit_keeps {ps : List Part} {σ : State} (h : Hdr) (c : Instr) (handle : Nat) (s : State)
    (hp : ∀ p ∈ [Part.crk, Part.free, Part.fw, Part.glz, Part.hif, Part.jobs, Part.kln, Part.msix, Part.out, Part.reg .hif, Part.reg .klnC, Part.reg .stk, Part.rings, Part.sag, Part.stk, Part.thr], p ∈ ps) (hs : Keeps ps σ s) : Keeps ps σ (bodyCopySubmit h c handle s) := by
  unfold bodyCopySubmit
  refine withStream_keeps _ _ _ _ _ _ _ ?_ (Keeps.sub (by decide) hp) ?_
  · intro χ1 τ2 hτ3
    refine copySubmit_keeps _ _ _ (Keeps.sub (by decide) hp) ?_
    exact hτ3
  · exact hs

theorem execCopySubmit_keeps (d : Desc) (handle : Word) (s : State) :
    ∃ τ, execCopySubmit d handle s = .next τ ∧ Keeps [Part.crk, Part.free, Part.fw, Part.glz, Part.hif, Part.jobs, Part.kln, Part.msix, Part.out, Part.reg .hif, Part.reg .klnC, Part.reg .stk, Part.rings, Part.sag, Part.stk, Part.thr] s τ := by
  refine Keeps.exec fun ps σ hp h => ?_
  unfold execCopySubmit
  refine ⟨_, rfl, ?_⟩
  refine command_keeps _ _ _ _ _ _ ?_ (Keeps.sub (by decide) hp) ?_
  · intro χ1 τ2 hτ3
    refine bodyCopySubmit_keeps _ _ _ _ (Keeps.sub (by decide) hp) ?_
    exact hτ3
  · exact h

theorem copyWithdraw_keeps {ps : List Part} {σ : State} (h : Hdr) (j : Nat) (c : Nat) (s : State)
    (hp : ∀ p ∈ [Part.crk, Part.free, Part.fw, Part.glz, Part.hif, Part.jobs, Part.kln, Part.msix, Part.out, Part.reg .hif, Part.reg .klnC, Part.reg .stk, Part.rings, Part.sag, Part.stk, Part.thr], p ∈ ps) (hs : Keeps ps σ s) : Keeps ps σ (copyWithdraw h j c s) := by
  unfold copyWithdraw
  split
  · refine fail_keeps _ _ _ (Keeps.sub (by decide) hp) ?_
    exact hs
  · refine Keeps.ite (fun _ => ?_) fun _ => ?_
    · refine ok_keeps _ _ _ (Keeps.sub (by decide) hp) ?_
      refine refreshIdle_keeps _ (Keeps.sub (by decide) hp) ?_
      refine voidCopy_keeps _ _ _ (Keeps.sub (by decide) hp) ?_
      exact hs
    · refine fail_keeps _ _ _ (Keeps.sub (by decide) hp) ?_
      exact hs

theorem execCopyWithdraw_keeps (d : Desc) (job : Word) (copy : Word) (s : State) :
    ∃ τ, execCopyWithdraw d job copy s = .next τ ∧ Keeps [Part.crk, Part.free, Part.fw, Part.glz, Part.hif, Part.jobs, Part.kln, Part.msix, Part.out, Part.reg .hif, Part.reg .klnC, Part.reg .stk, Part.rings, Part.sag, Part.stk, Part.thr] s τ := by
  refine Keeps.exec fun ps σ hp h => ?_
  unfold execCopyWithdraw
  refine ⟨_, rfl, ?_⟩
  refine command_keeps _ _ _ _ _ _ ?_ (Keeps.sub (by decide) hp) ?_
  · intro χ1 τ2 hτ3
    refine copyWithdraw_keeps _ _ _ _ (Keeps.sub (by decide) hp) ?_
    exact hτ3
  · exact h

theorem copyQuery_keeps {ps : List Part} {σ : State} (h : Hdr) (j : Nat) (c : Nat) (s : State)
    (hp : ∀ p ∈ [Part.fw, Part.msix, Part.out, Part.reg .stk, Part.rings, Part.stk], p ∈ ps) (hs : Keeps ps σ s) : Keeps ps σ (copyQuery h j c s) := by
  unfold copyQuery
  split
  · refine fail_keeps _ _ _ (Keeps.sub (by decide) hp) ?_
    exact hs
  · extract_lets σ1
    refine ok_keeps _ _ _ (Keeps.sub (by decide) hp) ?_
    exact hs

theorem execCopyQuery_keeps (d : Desc) (job : Word) (copy : Word) (s : State) :
    ∃ τ, execCopyQuery d job copy s = .next τ ∧ Keeps [Part.fw, Part.msix, Part.out, Part.reg .hif, Part.reg .stk, Part.rings, Part.stk] s τ := by
  refine Keeps.exec fun ps σ hp h => ?_
  unfold execCopyQuery
  refine ⟨_, rfl, ?_⟩
  refine query_keeps _ _ _ _ _ ?_ (Keeps.sub (by decide) hp) ?_
  · intro χ1 τ2 hτ3
    refine copyQuery_keeps _ _ _ _ (Keeps.sub (by decide) hp) ?_
    exact hτ3
  · exact h

theorem streamOpen_keeps {ps : List Part} {σ : State} (h : Hdr) (handle : Nat) (kind : Nat) (maxLen : Nat) (job : Nat) (s : State)
    (hp : ∀ p ∈ [Part.fw, Part.jobs, Part.msix, Part.out, Part.reg .stk, Part.rings, Part.stk], p ∈ ps) (hs : Keeps ps σ s) : Keeps ps σ (streamOpen h handle kind maxLen job s) := by
  unfold streamOpen
  refine Keeps.ite (fun _ => ?_) fun _ => ?_
  · refine fail_keeps _ _ _ (Keeps.sub (by decide) hp) ?_
    exact hs
  · refine Keeps.ite (fun _ => ?_) fun _ => ?_
    · refine fail_keeps _ _ _ (Keeps.sub (by decide) hp) ?_
      exact hs
    · refine Keeps.ite (fun _ => ?_) fun _ => ?_
      · refine fail_keeps _ _ _ (Keeps.sub (by decide) hp) ?_
        exact hs
      · refine Keeps.ite (fun _ => ?_) fun _ => ?_
        · refine fail_keeps _ _ _ (Keeps.sub (by decide) hp) ?_
          exact hs
        · extract_lets σ1 σ2
          refine ok_keeps _ _ _ (Keeps.sub (by decide) hp) ?_
          refine Keeps.set_jobs (hp _ (by decide)) ?_
          exact hs

theorem execStreamOpen_keeps (d : Desc) (handle : Word) (kind : BitVec 8) (maxLen : Word) (job : Word) (s : State) :
    ∃ τ, execStreamOpen d handle kind maxLen job s = .next τ ∧ Keeps [Part.fw, Part.jobs, Part.msix, Part.out, Part.reg .hif, Part.reg .stk, Part.rings, Part.stk] s τ := by
  refine Keeps.exec fun ps σ hp h => ?_
  unfold execStreamOpen
  refine ⟨_, rfl, ?_⟩
  refine command_keeps _ _ _ _ _ _ ?_ (Keeps.sub (by decide) hp) ?_
  · intro χ1 τ2 hτ3
    refine streamOpen_keeps _ _ _ _ _ _ (Keeps.sub (by decide) hp) ?_
    exact hτ3
  · exact h

theorem streamFree_keeps {ps : List Part} {σ : State} (h : Hdr) (handle : Nat) (s : State)
    (hp : ∀ p ∈ [Part.fw, Part.glz, Part.jobs, Part.msix, Part.out, Part.reg .stk, Part.rings, Part.stk, Part.thr], p ∈ ps) (hs : Keeps ps σ s) : Keeps ps σ (streamFree h handle s) := by
  unfold streamFree
  split
  · refine fail_keeps _ _ _ (Keeps.sub (by decide) hp) ?_
    exact hs
  · refine Keeps.ite (fun _ => ?_) fun _ => ?_
    · refine fail_keeps _ _ _ (Keeps.sub (by decide) hp) ?_
      exact hs
    · extract_lets σ1 σ2 σ3 σ4 σ5 σ6 σ7
      have hσ7 : Keeps ps σ σ7 := by
        unfold σ7
        refine Keeps.set_jobs_thr_glz (hp _ (by decide)) (hp _ (by decide)) (hp _ (by decide)) ?_
        exact hs
      refine ok_keeps _ _ _ (Keeps.sub (by decide) hp) ?_
      refine failWaiters_keeps _ _ _ (Keeps.sub (by decide) hp) ?_
      exact hσ7

theorem execStreamFree_keeps (d : Desc) (handle : Word) (s : State) :
    ∃ τ, execStreamFree d handle s = .next τ ∧ Keeps [Part.fw, Part.glz, Part.jobs, Part.msix, Part.out, Part.reg .hif, Part.reg .stk, Part.rings, Part.stk, Part.thr] s τ := by
  refine Keeps.exec fun ps σ hp h => ?_
  unfold execStreamFree
  refine ⟨_, rfl, ?_⟩
  refine command_keeps _ _ _ _ _ _ ?_ (Keeps.sub (by decide) hp) ?_
  · intro χ1 τ2 hτ3
    refine streamFree_keeps _ _ _ (Keeps.sub (by decide) hp) ?_
    exact hτ3
  · exact h

theorem latchComplete_keeps {ps : List Part} {σ : State} (seq : Nat) (s : State)
    (hp : ∀ p ∈ [Part.fw, Part.msix, Part.out, Part.reg .stk, Part.rings, Part.stk], p ∈ ps) (h : Keeps ps σ s) : Keeps ps σ (latchComplete seq s) := by
  unfold latchComplete
  split
  · refine Keeps.ite (fun _ => ?_) fun _ => ?_
    · refine complete_keeps _ _ _ _ (Keeps.sub (by decide) hp) ?_
      exact h
    · exact h
  · exact h

theorem execLatchCommandComplete_keeps (seq : Nat) (s : State) :
    ∃ τ, execLatchCommandComplete seq s = .next τ ∧ Keeps [Part.fw, Part.msix, Part.out, Part.reg .stk, Part.rings, Part.stk] s τ := by
  refine Keeps.exec fun ps σ hp h => ?_
  unfold execLatchCommandComplete
  refine ⟨_, rfl, ?_⟩
  refine latchComplete_keeps _ _ (Keeps.sub (by decide) hp) ?_
  exact h

end Sys2Proof.Machine
end

