-- ==== Sys2Proof/Laws/KeepsReset.lean ====
section
/-! SUPPORT. What the operations of Machine/Reset.lean change, and what they keep. -/

namespace Sys2Proof.Machine
open Sys2Proof

theorem clearUnits_keeps {ps : List Part} {s0 : State} (keeps : RstClass → Bool) (s : State)
    (hp : ∀ p ∈ wideParts, p ∈ ps) (h : Keeps ps s0 s) : Keeps ps s0 (clearUnits keeps s) :=
  Keeps.wide (s := s) hp rfl rfl rfl rfl rfl (Or.inr rfl) h

theorem zeroSagger_keeps {ps : List Part} {σ : State} (s : State)
    (hp : ∀ p ∈ [Part.jobs, Part.sag], p ∈ ps) (h : Keeps ps σ s) : Keeps ps σ (zeroSagger s) := by
  unfold zeroSagger
  refine Keeps.set_jobs_sag (hp _ (by decide)) rfl (hp _ (by decide)) ?_
  exact h

theorem crkLose_keeps {ps : List Part} {σ : State} (s : State)
    (hp : ∀ p ∈ [Part.crk], p ∈ ps) (h : Keeps ps σ s) : Keeps ps σ (crkLose s) := by
  unfold crkLose
  refine Keeps.set_crk (hp _ (by decide)) ?_
  exact h

theorem crkInterrupt_keeps {ps : List Part} {σ : State} (cut : Bool) (s : State)
    (hp : ∀ p ∈ [Part.crk, Part.free, Part.glz, Part.jobs, Part.msix, Part.out, Part.reg .stk, Part.rings, Part.sag, Part.stk, Part.thr], p ∈ ps) (h : Keeps ps σ s) : Keeps ps σ (crkInterrupt cut s) := by
  unfold crkInterrupt
  refine Keeps.ite (fun _ => ?_) fun _ => ?_
  · extract_lets σ1
    have hσ12 : Keeps ps σ σ1.2 := by
      unfold σ1
      refine draw_keeps _ _ (Keeps.sub (by decide) hp) ?_
      exact h
    refine graceEnd_keeps _ _ (Keeps.sub (by decide) hp) ?_
    exact hσ12
  · refine Keeps.ite (fun _ => ?_) fun _ => ?_
    · refine cutSnapshot_keeps _ (Keeps.sub (by decide) hp) ?_
      exact h
    · extract_lets σ2
      have hσ22 : Keeps ps σ σ2.2 := by
        unfold σ2
        refine draw_keeps _ _ (Keeps.sub (by decide) hp) ?_
        refine cutSnapshot_keeps _ (Keeps.sub (by decide) hp) ?_
        exact h
      refine Keeps.ite (fun _ => ?_) fun _ => ?_
      · exact hσ22
      · refine cutRecord_keeps _ _ (Keeps.sub (by decide) hp) ?_
        exact hσ22

theorem haltUnits_keeps {ps : List Part} {σ : State} (s : State)
    (hp : ∀ p ∈ (allRegs ++ [Part.cal, Part.clk, Part.clock, Part.entries, Part.fans, Part.fw, Part.gln, Part.glz, Part.hif, Part.ipl, Part.jobs, Part.kln, Part.memory, Part.mil, Part.mot, Part.msix, Part.pif, Part.ports, Part.pwr, Part.reads, Part.rings, Part.sag, Part.stk, Part.thm, Part.thr, Part.til, Part.tly, Part.trm, Part.win]), p ∈ ps) (h : Keeps ps σ s) : Keeps ps σ (haltUnits s) := by
  unfold haltUnits
  refine clearUnits_keeps _ _ (Keeps.sub (by decide) hp) ?_
  exact h

theorem startBoot_keeps {ps : List Part} {σ : State} (k : RstKind) (cause : Nat) (cut : Bool) (s : State)
    (hp : ∀ p ∈ (allRegs ++ [Part.cal, Part.clk, Part.clock, Part.crk, Part.entries, Part.fans, Part.free, Part.fw, Part.gln, Part.glz, Part.hif, Part.ipl, Part.jobs, Part.kln, Part.memory, Part.mil, Part.mot, Part.msix, Part.out, Part.pif, Part.ports, Part.pwr, Part.reads, Part.rings, Part.sag, Part.stk, Part.thm, Part.thr, Part.til, Part.tly, Part.trm, Part.win]), p ∈ ps) (h : Keeps ps σ s) : Keeps ps σ (startBoot k cause cut s) := by
  unfold startBoot
  extract_lets σ1 σ2 σ3 σ4 σ5 σ6 σ7 σ8
  have hσ2 : Keeps ps σ σ2 := by
    unfold σ2
    refine clearUnits_keeps _ _ (Keeps.sub (by decide) hp) ?_
    refine crkLose_keeps _ (Keeps.sub (by decide) hp) ?_
    refine crkInterrupt_keeps _ _ (Keeps.sub (by decide) hp) ?_
    exact h
  have hσ6 : Keeps ps σ σ6 := by
    unfold σ6
    split
    · refine zeroSagger_keeps _ (Keeps.sub (by decide) hp) ?_
      refine Keeps.set_sag_thm rfl (hp _ (by decide)) (hp _ (by decide)) ?_
      exact hσ2
    · refine Keeps.set_sag_thm rfl (hp _ (by decide)) (hp _ (by decide)) ?_
      exact hσ2
    · refine zeroSagger_keeps _ (Keeps.sub (by decide) hp) ?_
      exact hσ2
    · exact hσ2
    · exact hσ2
  have hσ8 : Keeps ps σ σ8 := by
    unfold σ8
    refine Keeps.set_pwr (hp _ (by decide)) ?_
    exact hσ6
  refine Keeps.ite (fun _ => ?_) fun _ => ?_
  · exact hσ8
  · refine wn_keeps _ _ _ (Keeps.sub (by decide) hp) ?_
    exact hσ8

theorem pinReset_keeps {ps : List Part} {σ : State} (strap : BitVec 5) (cool : Bool) (s : State)
    (hp : ∀ p ∈ (allRegs ++ [Part.cal, Part.clk, Part.clock, Part.crk, Part.entries, Part.fans, Part.free, Part.fw, Part.gln, Part.glz, Part.hif, Part.ipl, Part.jobs, Part.kln, Part.memory, Part.mil, Part.mot, Part.msix, Part.out, Part.pif, Part.ports, Part.pwr, Part.reads, Part.rings, Part.sag, Part.stk, Part.thm, Part.thr, Part.til, Part.tly, Part.trm, Part.win]), p ∈ ps) (h : Keeps ps σ s) : Keeps ps σ (pinReset strap cool s) := by
  unfold pinReset
  refine Keeps.ite (fun _ => ?_) fun _ => ?_
  · exact h
  · refine Keeps.ite (fun _ => ?_) fun _ => ?_
    · refine Keeps.set_pwr (hp _ (by decide)) ?_
      exact h
    · refine wn_keeps _ _ _ (Keeps.sub (by decide) hp) ?_
      refine startBoot_keeps _ _ _ _ (Keeps.sub (by decide) hp) ?_
      exact h

theorem execPinReset_keeps (strap : BitVec 5) (cool : Bool) (s : State) :
    ∃ τ, execPinReset strap cool s = .next τ ∧ Keeps (allRegs ++ [Part.cal, Part.clk, Part.clock, Part.crk, Part.entries, Part.fans, Part.free, Part.fw, Part.gln, Part.glz, Part.hif, Part.ipl, Part.jobs, Part.kln, Part.memory, Part.mil, Part.mot, Part.msix, Part.out, Part.pif, Part.ports, Part.pwr, Part.reads, Part.rings, Part.sag, Part.stk, Part.thm, Part.thr, Part.til, Part.tly, Part.trm, Part.win]) s τ := by
  refine Keeps.exec fun ps σ hp h => ?_
  unfold execPinReset
  refine ⟨_, rfl, ?_⟩
  refine pinReset_keeps _ _ _ (Keeps.sub (by decide) hp) ?_
  exact h

theorem porReset_keeps {ps : List Part} {σ : State} (strap : BitVec 5) (s : State)
    (hp : ∀ p ∈ (allRegs ++ [Part.cal, Part.clk, Part.clock, Part.crk, Part.entries, Part.fans, Part.free, Part.fw, Part.gln, Part.glz, Part.hif, Part.ipl, Part.jobs, Part.kln, Part.memory, Part.mil, Part.mot, Part.msix, Part.out, Part.pif, Part.ports, Part.pwr, Part.reads, Part.rings, Part.sag, Part.stk, Part.thm, Part.thr, Part.til, Part.tly, Part.trm, Part.win]), p ∈ ps) (h : Keeps ps σ s) : Keeps ps σ (porReset strap s) := by
  unfold porReset
  refine wn_keeps _ _ _ (Keeps.sub (by decide) hp) ?_
  refine startBoot_keeps _ _ _ _ (Keeps.sub (by decide) hp) ?_
  exact h

theorem execPor_keeps (strap : BitVec 5) (s : State) :
    ∃ τ, execPor strap s = .next τ ∧ Keeps (allRegs ++ [Part.cal, Part.clk, Part.clock, Part.crk, Part.entries, Part.fans, Part.free, Part.fw, Part.gln, Part.glz, Part.hif, Part.ipl, Part.jobs, Part.kln, Part.memory, Part.mil, Part.mot, Part.msix, Part.out, Part.pif, Part.ports, Part.pwr, Part.reads, Part.rings, Part.sag, Part.stk, Part.thm, Part.thr, Part.til, Part.tly, Part.trm, Part.win]) s τ := by
  refine Keeps.exec fun ps σ hp h => ?_
  unfold execPor
  refine ⟨_, rfl, ?_⟩
  refine porReset_keeps _ _ (Keeps.sub (by decide) hp) ?_
  exact h

theorem hostReset_keeps {ps : List Part} {σ : State} (cause : Nat) (s : State)
    (hp : ∀ p ∈ (allRegs ++ [Part.cal, Part.clk, Part.clock, Part.crk, Part.entries, Part.fans, Part.free, Part.fw, Part.gln, Part.glz, Part.hif, Part.ipl, Part.jobs, Part.kln, Part.memory, Part.mil, Part.mot, Part.msix, Part.out, Part.pif, Part.ports, Part.pwr, Part.reads, Part.rings, Part.sag, Part.stk, Part.thm, Part.thr, Part.til, Part.tly, Part.trm, Part.win]), p ∈ ps) (h : Keeps ps σ s) : Keeps ps σ (hostReset cause s) := by
  unfold hostReset
  refine Keeps.ite (fun _ => ?_) fun _ => ?_
  · exact h
  · refine Keeps.ite (fun _ => ?_) fun _ => ?_
    · exact h
    · refine Keeps.ite (fun _ => ?_) fun _ => ?_
      · refine Keeps.ite (fun _ => ?_) fun _ => ?_
        · refine startBoot_keeps _ _ _ _ (Keeps.sub (by decide) hp) ?_
          exact h
        · exact h
      · refine Keeps.ite (fun _ => ?_) fun _ => ?_
        · refine Keeps.ite (fun _ => ?_) fun _ => ?_
          · refine Keeps.set_pwr (hp _ (by decide)) ?_
            exact h
          · exact h
        · refine startBoot_keeps _ _ _ _ (Keeps.sub (by decide) hp) ?_
          exact h

theorem execHostReset_keeps (source : Fin 4) (s : State) :
    ∃ τ, execHostReset source s = .next τ ∧ Keeps (allRegs ++ [Part.cal, Part.clk, Part.clock, Part.crk, Part.entries, Part.fans, Part.free, Part.fw, Part.gln, Part.glz, Part.hif, Part.ipl, Part.jobs, Part.kln, Part.memory, Part.mil, Part.mot, Part.msix, Part.out, Part.pif, Part.ports, Part.pwr, Part.reads, Part.rings, Part.sag, Part.stk, Part.thm, Part.thr, Part.til, Part.tly, Part.trm, Part.win]) s τ := by
  refine Keeps.exec fun ps σ hp h => ?_
  unfold execHostReset
  refine ⟨_, rfl, ?_⟩
  refine hostReset_keeps _ _ (Keeps.sub (by decide) hp) ?_
  exact h

theorem glbRst_keeps {ps : List Part} {σ : State} (v : Word) (s : State)
    (hp : ∀ p ∈ (allRegs ++ [Part.cal, Part.clk, Part.clock, Part.crk, Part.entries, Part.fans, Part.free, Part.fw, Part.gln, Part.glz, Part.hif, Part.ipl, Part.jobs, Part.kln, Part.memory, Part.mil, Part.mot, Part.msix, Part.out, Part.pif, Part.ports, Part.pwr, Part.reads, Part.rings, Part.sag, Part.stk, Part.thm, Part.thr, Part.til, Part.tly, Part.trm, Part.win]), p ∈ ps) (h : Keeps ps σ s) : Keeps ps σ (glbRst v s) := by
  unfold glbRst
  refine Keeps.ite (fun _ => ?_) fun _ => ?_
  · refine hostReset_keeps _ _ (Keeps.sub (by decide) hp) ?_
    exact h
  · exact h

theorem execGlbRstWrite_keeps (ini : Initiator) (val : Word) (s : State) :
    ∃ τ, execGlbRstWrite ini val s = .next τ ∧ Keeps (allRegs ++ [Part.cal, Part.clk, Part.clock, Part.crk, Part.entries, Part.fans, Part.free, Part.fw, Part.gln, Part.glz, Part.hif, Part.ipl, Part.jobs, Part.kln, Part.memory, Part.mil, Part.mot, Part.msix, Part.out, Part.pif, Part.ports, Part.pwr, Part.reads, Part.rings, Part.sag, Part.stk, Part.thm, Part.thr, Part.til, Part.tly, Part.trm, Part.win]) s τ := by
  refine Keeps.exec fun ps σ hp h => ?_
  unfold execGlbRstWrite
  refine ⟨_, rfl, ?_⟩
  refine guardWrite_keeps _ _ _ _ _ _ ?_ (Keeps.sub (by decide) hp) ?_
  · intro χ1 τ2 hτ3
    refine glbRst_keeps _ _ (Keeps.sub (by decide) hp) ?_
    exact hτ3
  · exact h

theorem sagFault_keeps {ps : List Part} {σ : State} (cause : Nat) (s : State)
    (hp : ∀ p ∈ (allRegs ++ [Part.cal, Part.clk, Part.clock, Part.crk, Part.entries, Part.fans, Part.free, Part.fw, Part.gln, Part.glz, Part.hif, Part.ipl, Part.jobs, Part.kln, Part.memory, Part.mil, Part.mot, Part.msix, Part.out, Part.pif, Part.ports, Part.pwr, Part.reads, Part.rings, Part.sag, Part.stk, Part.thm, Part.thr, Part.til, Part.tly, Part.trm, Part.win]), p ∈ ps) (h : Keeps ps σ s) : Keeps ps σ (sagFault cause s) := by
  unfold sagFault
  refine Keeps.ite (fun _ => ?_) fun _ => ?_
  · exact h
  · extract_lets σ1 σ2 σ3 σ4 σ5 σ6
    have hσ3 : Keeps ps σ σ3 := by
      unfold σ3
      refine inc_keeps _ _ _ (Keeps.sub (by decide) hp) ?_
      refine raiseAlarm_keeps _ _ _ _ (Keeps.sub (by decide) hp) ?_
      exact h
    have hσ5 : Keeps ps σ σ5 := by
      unfold σ5
      refine startBoot_keeps _ _ _ _ (Keeps.sub (by decide) hp) ?_
      refine Keeps.set_sag rfl (hp _ (by decide)) ?_
      exact hσ3
    refine Keeps.ite (fun _ => ?_) fun _ => ?_
    · refine Keeps.set_sag rfl (hp _ (by decide)) ?_
      exact hσ5
    · exact hσ5

theorem execSagFault_keeps (cause : Fin 4) (s : State) :
    ∃ τ, execSagFault cause s = .next τ ∧ Keeps (allRegs ++ [Part.cal, Part.clk, Part.clock, Part.crk, Part.entries, Part.fans, Part.free, Part.fw, Part.gln, Part.glz, Part.hif, Part.ipl, Part.jobs, Part.kln, Part.memory, Part.mil, Part.mot, Part.msix, Part.out, Part.pif, Part.ports, Part.pwr, Part.reads, Part.rings, Part.sag, Part.stk, Part.thm, Part.thr, Part.til, Part.tly, Part.trm, Part.win]) s τ := by
  refine Keeps.exec fun ps σ hp h => ?_
  unfold execSagFault
  refine ⟨_, rfl, ?_⟩
  refine sagFault_keeps _ _ (Keeps.sub (by decide) hp) ?_
  exact h

theorem jtag_keeps {ps : List Part} {σ : State} (test : Bool) (s : State)
    (hp : ∀ p ∈ (allRegs ++ [Part.cal, Part.clk, Part.clock, Part.crk, Part.entries, Part.fans, Part.free, Part.fw, Part.gln, Part.glz, Part.hif, Part.ipl, Part.jobs, Part.kln, Part.memory, Part.mil, Part.mot, Part.msix, Part.out, Part.pif, Part.ports, Part.pwr, Part.reads, Part.rings, Part.sag, Part.stk, Part.thm, Part.thr, Part.til, Part.tly, Part.trm, Part.win]), p ∈ ps) (h : Keeps ps σ s) : Keeps ps σ (jtag test s) := by
  unfold jtag
  refine Keeps.ite (fun _ => ?_) fun _ => ?_
  · exact h
  · refine Keeps.ite (fun _ => ?_) fun _ => ?_
    · extract_lets σ1 σ2 σ3
      have hσ12 : Keeps ps σ σ1.2 := by
        unfold σ1
        refine draw_keeps _ _ (Keeps.sub (by decide) hp) ?_
        exact h
      have hσ2 : Keeps ps σ σ2 := by
        unfold σ2
        refine startBoot_keeps _ _ _ _ (Keeps.sub (by decide) hp) ?_
        exact hσ12
      refine Keeps.set_pwr (hp _ (by decide)) ?_
      exact hσ2
    · refine Keeps.set_pwr (hp _ (by decide)) ?_
      exact h

theorem execJtagInstruction_keeps (test : Bool) (s : State) :
    ∃ τ, execJtagInstruction test s = .next τ ∧ Keeps (allRegs ++ [Part.cal, Part.clk, Part.clock, Part.crk, Part.entries, Part.fans, Part.free, Part.fw, Part.gln, Part.glz, Part.hif, Part.ipl, Part.jobs, Part.kln, Part.memory, Part.mil, Part.mot, Part.msix, Part.out, Part.pif, Part.ports, Part.pwr, Part.reads, Part.rings, Part.sag, Part.stk, Part.thm, Part.thr, Part.til, Part.tly, Part.trm, Part.win]) s τ := by
  refine Keeps.exec fun ps σ hp h => ?_
  unfold execJtagInstruction
  refine ⟨_, rfl, ?_⟩
  refine jtag_keeps _ _ (Keeps.sub (by decide) hp) ?_
  exact h

theorem flrCopy_keeps {ps : List Part} {σ : State} (c : Nat) (s : State)
    (hp : ∀ p ∈ [Part.crk, Part.free, Part.glz, Part.jobs, Part.kln, Part.msix, Part.out, Part.reg .stk, Part.rings, Part.sag, Part.stk, Part.thr], p ∈ ps) (h : Keeps ps σ s) : Keeps ps σ (flrCopy c s) := by
  unfold flrCopy
  split
  · split
    · refine voidCopy_keeps _ _ _ (Keeps.sub (by decide) hp) ?_
      exact h
    · refine voidCopy_keeps _ _ _ (Keeps.sub (by decide) hp) ?_
      exact h
    · refine sealCopy_keeps _ _ (Keeps.sub (by decide) hp) ?_
      refine updCopy_keeps _ _ _ (Keeps.sub (by decide) hp) ?_
      exact h
    · refine sealCopy_keeps _ _ (Keeps.sub (by decide) hp) ?_
      refine updCopy_keeps _ _ _ (Keeps.sub (by decide) hp) ?_
      exact h
    · refine sealCopy_keeps _ _ (Keeps.sub (by decide) hp) ?_
      exact h
    · refine sealVoid_keeps _ _ (Keeps.sub (by decide) hp) ?_
      exact h
    · exact h
  · exact h

theorem flr_keeps {ps : List Part} {σ : State} (s : State)
    (hp : ∀ p ∈ (allRegs ++ [Part.cal, Part.clk, Part.clock, Part.crk, Part.entries, Part.fans, Part.free, Part.fw, Part.gln, Part.glz, Part.hif, Part.ipl, Part.jobs, Part.kln, Part.memory, Part.mil, Part.mot, Part.msix, Part.out, Part.pif, Part.ports, Part.pwr, Part.reads, Part.rings, Part.sag, Part.stk, Part.thm, Part.thr, Part.til, Part.tly, Part.trm, Part.win]), p ∈ ps) (h : Keeps ps σ s) : Keeps ps σ (flr s) := by
  unfold flr
  split
  · exact h
  · extract_lets s1 s2 s3 z j s4
    have h1 : Keeps ps σ s1 := Keeps.foldl (fun t x ht => flrCopy_keeps _ _ (Keeps.sub (by decide) hp) ht) h
    have h2 : Keeps ps σ s2 := Keeps.foldl (fun t x ht => headOff_keeps _ _ (Keeps.sub (by decide) hp) ht) h1
    have h3 : Keeps ps σ s3 := Keeps.foldl (fun t x ht => rememberUsage_keeps _ _ (Keeps.sub (by decide) hp) ht) h2
    exact noteReady_keeps _ (Keeps.sub (by decide) hp) (wf_keeps _ _ _ _ _ (Keeps.sub (by decide) hp)
      (wn_keeps _ _ _ (Keeps.sub (by decide) hp)
        (Keeps.wide (s := s3) (Keeps.sub (by decide) hp) rfl rfl rfl rfl rfl (Or.inl rfl) h3)))

theorem execFlr_keeps (s : State) :
    ∃ τ, execFlr s = .next τ ∧ Keeps (allRegs ++ [Part.cal, Part.clk, Part.clock, Part.crk, Part.entries, Part.fans, Part.free, Part.fw, Part.gln, Part.glz, Part.hif, Part.ipl, Part.jobs, Part.kln, Part.memory, Part.mil, Part.mot, Part.msix, Part.out, Part.pif, Part.ports, Part.pwr, Part.reads, Part.rings, Part.sag, Part.stk, Part.thm, Part.thr, Part.til, Part.tly, Part.trm, Part.win]) s τ := by
  refine Keeps.exec fun ps σ hp h => ?_
  unfold execFlr
  refine ⟨_, rfl, ?_⟩
  refine flr_keeps _ (Keeps.sub (by decide) hp) ?_
  exact h

theorem wdog_keeps {ps : List Part} {σ : State} (s : State)
    (hp : ∀ p ∈ [Part.crk, Part.free, Part.fw, Part.glz, Part.hif, Part.jobs, Part.kln, Part.msix, Part.out, Part.pwr, Part.reg .glb, Part.reg .klnC, Part.reg .klnP, Part.reg .pwr, Part.reg .stk, Part.reg .hif, Part.rings, Part.sag, Part.stk, Part.thr, Part.til], p ∈ ps) (h : Keeps ps σ s) : Keeps ps σ (wdog s) := by
  unfold wdog
  split
  · exact h
  · extract_lets s1 a1 a2 a3 a4 s2 ts s3 code s4
    have h1 : Keeps ps σ s1 := Keeps.foldl (fun t x ht => stopping_keeps _ _ (Keeps.sub (by decide) hp) ht) h
    clear_value s1
    have h2 : Keeps ps σ s2 := wipeKeys_keeps _ (Keeps.sub (by decide) hp)
      (Keeps.set_stk_fw_pwr_sag (hp _ (by decide)) (hp _ (by decide)) (hp _ (by decide)) rfl (hp _ (by decide)) h1)
    clear_value s2
    have h3 : Keeps ps σ s3 := Keeps.foldl (fun t x ht => startDrain_keeps _ _ (Keeps.sub (by decide) hp) ht) h2
    clear_value s3
    have h4 : Keeps ps σ s4 := Keeps.ite (fun _ => h3) fun _ => raiseIrq_keeps _ _ _ (Keeps.sub (by decide) hp)
      (event_keeps _ _ _ _ (Keeps.sub (by decide) hp) h3)
    clear_value s4
    exact wn_keeps _ _ _ (Keeps.sub (by decide) hp) (inc_keeps _ _ _ (Keeps.sub (by decide) hp)
      (raiseAlarm_keeps _ _ _ _ (Keeps.sub (by decide) hp) h4))

theorem execWdogReset_keeps (s : State) :
    ∃ τ, execWdogReset s = .next τ ∧ Keeps [Part.crk, Part.free, Part.fw, Part.glz, Part.hif, Part.jobs, Part.kln, Part.msix, Part.out, Part.pwr, Part.reg .glb, Part.reg .hif, Part.reg .klnC, Part.reg .klnP, Part.reg .pwr, Part.reg .stk, Part.rings, Part.sag, Part.stk, Part.thr, Part.til] s τ := by
  refine Keeps.exec fun ps σ hp h => ?_
  unfold execWdogReset
  refine ⟨_, rfl, ?_⟩
  refine wdog_keeps _ (Keeps.sub (by decide) hp) ?_
  exact h

theorem firmwareReady_keeps {ps : List Part} {σ : State} (s : State)
    (hp : ∀ p ∈ [Part.fw], p ∈ ps) (h : Keeps ps σ s) : Keeps ps σ (firmwareReady s) := by
  unfold firmwareReady
  refine Keeps.ite (fun _ => ?_) fun _ => ?_
  · refine Keeps.set_fw (hp _ (by decide)) ?_
    exact h
  · exact h

theorem execResidentFirmwareReady_keeps (s : State) :
    ∃ τ, execResidentFirmwareReady s = .next τ ∧ Keeps [Part.fw] s τ := by
  refine Keeps.exec fun ps σ hp h => ?_
  unfold execResidentFirmwareReady
  refine ⟨_, rfl, ?_⟩
  refine firmwareReady_keeps _ (Keeps.sub (by decide) hp) ?_
  exact h

end Sys2Proof.Machine
end

