-- ==== Sys2Proof/Laws/KeepsThermal.lean ====
section
/-! SUPPORT. What the operations of Machine/Thermal.lean change, and what they keep. -/

namespace Sys2Proof.Machine
open Sys2Proof

theorem updFan_keeps {ps : List Part} {σ : State} (n : Nat) (f : Fan → Fan) (s : State)
    (hp : ∀ p ∈ [Part.fans], p ∈ ps) (h : Keeps ps σ s) : Keeps ps σ (updFan n f s) := by
  unfold updFan
  refine Keeps.set_fans (hp _ (by decide)) ?_
  exact h

theorem holdDuty_keeps {ps : List Part} {σ : State} (n : Nat) (s : State)
    (hp : ∀ p ∈ [Part.fans], p ∈ ps) (h : Keeps ps σ s) : Keeps ps σ (holdDuty n s) := by
  unfold holdDuty
  refine Keeps.ite (fun _ => ?_) fun _ => ?_
  · exact h
  · refine updFan_keeps _ _ _ (Keeps.sub (by decide) hp) ?_
    exact h

theorem noteSpeed_keeps {ps : List Part} {σ : State} (n : Nat) (s : State)
    (hp : ∀ p ∈ [Part.fans], p ∈ ps) (h : Keeps ps σ s) : Keeps ps σ (noteSpeed n s) := by
  unfold noteSpeed
  extract_lets σ1 σ2 σ3 σ4
  refine updFan_keeps _ _ _ (Keeps.sub (by decide) hp) ?_
  exact h

theorem endSlow_keeps {ps : List Part} {σ : State} (n : Nat) (s : State)
    (hp : ∀ p ∈ [Part.fans], p ∈ ps) (h : Keeps ps σ s) : Keeps ps σ (endSlow n s) := by
  unfold endSlow
  split
  · refine Keeps.ite (fun _ => ?_) fun _ => ?_
    · refine updFan_keeps _ _ _ (Keeps.sub (by decide) hp) ?_
      exact h
    · exact h
  · exact h

theorem setFan_keeps {ps : List Part} {σ : State} (n : Nat) (st : Nat) (s : State)
    (hp : ∀ p ∈ [Part.fans, Part.msix, Part.out, Part.reg .fan, Part.reg .stk, Part.rings, Part.stk], p ∈ ps) (h : Keeps ps σ s) : Keeps ps σ (setFan n st s) := by
  unfold setFan
  extract_lets σ1 σ2 σ3 σ4 σ5
  have hσ2 : Keeps ps σ σ2 := by
    unfold σ2
    refine updFan_keeps _ _ _ (Keeps.sub (by decide) hp) ?_
    exact h
  have hσ3 : Keeps ps σ σ3 := by
    unfold σ3
    refine noteSpeed_keeps _ _ (Keeps.sub (by decide) hp) ?_
    refine raiseIrq_keeps _ _ _ (Keeps.sub (by decide) hp) ?_
    refine event_keeps _ _ _ _ (Keeps.sub (by decide) hp) ?_
    exact hσ2
  have hσ4 : Keeps ps σ σ4 := by
    unfold σ4
    refine raiseIrq_keeps _ _ _ (Keeps.sub (by decide) hp) ?_
    refine raiseAlarm_keeps _ _ _ _ (Keeps.sub (by decide) hp) ?_
    exact hσ3
  split
  · refine raiseIrq_keeps _ _ _ (Keeps.sub (by decide) hp) ?_
    refine raiseAlarm_keeps _ _ _ _ (Keeps.sub (by decide) hp) ?_
    exact hσ3
  · refine Keeps.set_stk (hp _ (by decide)) ?_
    exact hσ4
  · exact hσ3

theorem tachEdge_keeps {ps : List Part} {σ : State} (n : Nat) (t : Nat) (s0 : State)
    (hp : ∀ p ∈ [Part.clock, Part.fans, Part.msix, Part.out, Part.reg .fan, Part.reg .stk, Part.reg .tim, Part.rings, Part.stk], p ∈ ps) (h : Keeps ps σ s0) : Keeps ps σ (tachEdge n t s0) := by
  unfold tachEdge
  extract_lets σ1 σ2 σ3 σ4 σ5 σ6 σ7 σ8
  have hσ1 : Keeps ps σ σ1 := by
    unfold σ1
    refine advanceTo_keeps _ _ (Keeps.sub (by decide) hp) ?_
    exact h
  have hσ5 : Keeps ps σ σ5 := by
    unfold σ5
    refine updFan_keeps _ _ _ (Keeps.sub (by decide) hp) ?_
    exact hσ1
  refine Keeps.ite (fun _ => ?_) fun _ => ?_
  · exact hσ1
  · refine Keeps.ite (fun _ => ?_) fun _ => ?_
    · refine setFan_keeps _ _ _ (Keeps.sub (by decide) hp) ?_
      exact hσ5
    · refine endSlow_keeps _ _ (Keeps.sub (by decide) hp) ?_
      refine noteSpeed_keeps _ _ (Keeps.sub (by decide) hp) ?_
      exact hσ5

theorem execFanTachEdge_keeps (fan : Fin 4) (t : DWord) (s : State) :
    ∃ τ, execFanTachEdge fan t s = .next τ ∧ Keeps [Part.clock, Part.fans, Part.msix, Part.out, Part.reg .fan, Part.reg .stk, Part.reg .tim, Part.rings, Part.stk] s τ := by
  refine Keeps.exec fun ps σ hp h => ?_
  unfold execFanTachEdge
  refine ⟨_, rfl, ?_⟩
  refine tachEdge_keeps _ _ _ (Keeps.sub (by decide) hp) ?_
  exact h

theorem spinupEnd_keeps {ps : List Part} {σ : State} (n : Nat) (t : Nat) (s0 : State)
    (hp : ∀ p ∈ [Part.clock, Part.fans, Part.msix, Part.out, Part.reg .fan, Part.reg .stk, Part.reg .tim, Part.rings, Part.stk], p ∈ ps) (h : Keeps ps σ s0) : Keeps ps σ (spinupEnd n t s0) := by
  unfold spinupEnd
  extract_lets σ1 σ2 σ3 σ4
  have hσ1 : Keeps ps σ σ1 := by
    unfold σ1
    refine advanceTo_keeps _ _ (Keeps.sub (by decide) hp) ?_
    exact h
  have hσ4 : Keeps ps σ σ4 := by
    unfold σ4
    refine raiseIrq_keeps _ _ _ (Keeps.sub (by decide) hp) ?_
    refine event_keeps _ _ _ _ (Keeps.sub (by decide) hp) ?_
    refine inc_keeps _ _ _ (Keeps.sub (by simp) hp) ?_
    refine updFan_keeps _ _ _ (Keeps.sub (by decide) hp) ?_
    exact hσ1
  refine Keeps.ite (fun _ => ?_) fun _ => ?_
  · refine Keeps.ite (fun _ => ?_) fun _ => ?_
    · refine setFan_keeps _ _ _ (Keeps.sub (by decide) hp) ?_
      exact hσ1
    · refine setFan_keeps _ _ _ (Keeps.sub (by decide) hp) ?_
      exact hσ4
  · exact hσ1

theorem execFanSpinupEnd_keeps (fan : Fin 4) (t : DWord) (s : State) :
    ∃ τ, execFanSpinupEnd fan t s = .next τ ∧ Keeps [Part.clock, Part.fans, Part.msix, Part.out, Part.reg .fan, Part.reg .stk, Part.reg .tim, Part.rings, Part.stk] s τ := by
  refine Keeps.exec fun ps σ hp h => ?_
  unfold execFanSpinupEnd
  refine ⟨_, rfl, ?_⟩
  refine spinupEnd_keeps _ _ _ (Keeps.sub (by decide) hp) ?_
  exact h

theorem pauseEnd_keeps {ps : List Part} {σ : State} (n : Nat) (t : Nat) (s0 : State)
    (hp : ∀ p ∈ [Part.clock, Part.fans, Part.msix, Part.out, Part.reg .fan, Part.reg .stk, Part.reg .tim, Part.rings, Part.stk], p ∈ ps) (h : Keeps ps σ s0) : Keeps ps σ (pauseEnd n t s0) := by
  unfold pauseEnd
  extract_lets σ1
  have hσ1 : Keeps ps σ σ1 := by
    unfold σ1
    refine advanceTo_keeps _ _ (Keeps.sub (by decide) hp) ?_
    exact h
  refine Keeps.ite (fun _ => ?_) fun _ => ?_
  · refine setFan_keeps _ _ _ (Keeps.sub (by decide) hp) ?_
    exact hσ1
  · exact hσ1

theorem execFanPauseEnd_keeps (fan : Fin 4) (t : DWord) (s : State) :
    ∃ τ, execFanPauseEnd fan t s = .next τ ∧ Keeps [Part.clock, Part.fans, Part.msix, Part.out, Part.reg .fan, Part.reg .stk, Part.reg .tim, Part.rings, Part.stk] s τ := by
  refine Keeps.exec fun ps σ hp h => ?_
  unfold execFanPauseEnd
  refine ⟨_, rfl, ?_⟩
  refine pauseEnd_keeps _ _ _ (Keeps.sub (by decide) hp) ?_
  exact h

theorem tachTimeout_keeps {ps : List Part} {σ : State} (n : Nat) (t : Nat) (s0 : State)
    (hp : ∀ p ∈ [Part.clock, Part.fans, Part.msix, Part.out, Part.reg .fan, Part.reg .stk, Part.reg .tim, Part.rings, Part.stk], p ∈ ps) (h : Keeps ps σ s0) : Keeps ps σ (tachTimeout n t s0) := by
  unfold tachTimeout
  extract_lets σ1 σ2
  have hσ1 : Keeps ps σ σ1 := by
    unfold σ1
    refine advanceTo_keeps _ _ (Keeps.sub (by decide) hp) ?_
    exact h
  refine Keeps.ite (fun _ => ?_) fun _ => ?_
  · refine setFan_keeps _ _ _ (Keeps.sub (by decide) hp) ?_
    exact hσ1
  · exact hσ1

theorem execFanTachTimeout_keeps (fan : Fin 4) (t : DWord) (s : State) :
    ∃ τ, execFanTachTimeout fan t s = .next τ ∧ Keeps [Part.clock, Part.fans, Part.msix, Part.out, Part.reg .fan, Part.reg .stk, Part.reg .tim, Part.rings, Part.stk] s τ := by
  refine Keeps.exec fun ps σ hp h => ?_
  unfold execFanTachTimeout
  refine ⟨_, rfl, ?_⟩
  refine tachTimeout_keeps _ _ _ (Keeps.sub (by decide) hp) ?_
  exact h

theorem fanAutoUpdate_keeps {ps : List Part} {σ : State} (n : Nat) (s : State)
    (hp : ∀ p ∈ [Part.fans], p ∈ ps) (h : Keeps ps σ s) : Keeps ps σ (fanAutoUpdate n s) := by
  unfold fanAutoUpdate
  refine Keeps.ite (fun _ => ?_) fun _ => ?_
  · refine updFan_keeps _ _ _ (Keeps.sub (by decide) hp) ?_
    exact h
  · exact h

theorem execFanAutoUpdate_keeps (fan : Fin 4) (s : State) :
    ∃ τ, execFanAutoUpdate fan s = .next τ ∧ Keeps [Part.fans] s τ := by
  refine Keeps.exec fun ps σ hp h => ?_
  unfold execFanAutoUpdate
  refine ⟨_, rfl, ?_⟩
  refine fanAutoUpdate_keeps _ _ (Keeps.sub (by decide) hp) ?_
  exact h

theorem fanSlow_keeps {ps : List Part} {σ : State} (n : Nat) (t : Nat) (s0 : State)
    (hp : ∀ p ∈ [Part.clock, Part.fans, Part.msix, Part.out, Part.reg .stk, Part.reg .tim, Part.rings, Part.stk], p ∈ ps) (h : Keeps ps σ s0) : Keeps ps σ (fanSlow n t s0) := by
  unfold fanSlow
  extract_lets σ1 σ2
  have hσ1 : Keeps ps σ σ1 := by
    unfold σ1
    refine noteSpeed_keeps _ _ (Keeps.sub (by decide) hp) ?_
    refine advanceTo_keeps _ _ (Keeps.sub (by decide) hp) ?_
    exact h
  split
  · refine Keeps.ite (fun _ => ?_) fun _ => ?_
    · refine event_keeps _ _ _ _ (Keeps.sub (by decide) hp) ?_
      refine updFan_keeps _ _ _ (Keeps.sub (by decide) hp) ?_
      exact hσ1
    · exact hσ1
  · exact hσ1

theorem execFanSlow_keeps (fan : Fin 4) (t : DWord) (s : State) :
    ∃ τ, execFanSlow fan t s = .next τ ∧ Keeps [Part.clock, Part.fans, Part.msix, Part.out, Part.reg .stk, Part.reg .tim, Part.rings, Part.stk] s τ := by
  refine Keeps.exec fun ps σ hp h => ?_
  unfold execFanSlow
  refine ⟨_, rfl, ?_⟩
  refine fanSlow_keeps _ _ _ (Keeps.sub (by decide) hp) ?_
  exact h

theorem fanCfgWrite_keeps {ps : List Part} {σ : State} (n : Nat) (v : Word) (s : State)
    (hp : ∀ p ∈ [Part.fans, Part.msix, Part.out, Part.reg .fan, Part.reg .stk, Part.rings, Part.stk], p ∈ ps) (h : Keeps ps σ s) : Keeps ps σ (fanCfgWrite n v s) := by
  unfold fanCfgWrite
  extract_lets σ1 σ2 σ3
  have hσ2 : Keeps ps σ σ2 := by
    unfold σ2
    refine plainPut_keeps _ _ _ (Keeps.sub (by simp) hp) ?_
    refine holdDuty_keeps _ _ (Keeps.sub (by decide) hp) ?_
    exact h
  refine Keeps.ite (fun _ => ?_) fun _ => ?_
  · refine setFan_keeps _ _ _ (Keeps.sub (by decide) hp) ?_
    refine updFan_keeps _ _ _ (Keeps.sub (by decide) hp) ?_
    exact hσ2
  · refine Keeps.ite (fun _ => ?_) fun _ => ?_
    · refine setFan_keeps _ _ _ (Keeps.sub (by decide) hp) ?_
      exact hσ2
    · refine updFan_keeps _ _ _ (Keeps.sub (by decide) hp) ?_
      exact hσ2

theorem execFanModeWrite_keeps (ini : Initiator) (fan : Fin 4) (val : Word) (s : State) :
    ∃ τ, execFanModeWrite ini fan val s = .next τ ∧ Keeps [Part.fans, Part.msix, Part.out, Part.reg .fan, Part.reg .hif, Part.reg .stk, Part.rings, Part.stk] s τ := by
  refine Keeps.exec fun ps σ hp h => ?_
  unfold execFanModeWrite
  refine ⟨_, rfl, ?_⟩
  refine guardWrite_keeps _ _ _ _ _ _ ?_ (Keeps.sub (by simp) hp) ?_
  · intro χ1 τ2 hτ3
    refine fanCfgWrite_keeps _ _ _ (Keeps.sub (by decide) hp) ?_
    exact hτ3
  · exact h

theorem fanCurveWrite_keeps {ps : List Part} {σ : State} (n : Nat) (v : Word) (s : State)
    (hp : ∀ p ∈ [Part.fans, Part.msix, Part.out, Part.reg .fan], p ∈ ps) (h : Keeps ps σ s) : Keeps ps σ (fanCurveWrite n v s) := by
  unfold fanCurveWrite
  refine Keeps.ite (fun _ => ?_) fun _ => ?_
  · refine recordErr_keeps _ _ _ (Keeps.sub (by decide) hp) ?_
    exact h
  · refine fanAutoUpdate_keeps _ _ (Keeps.sub (by decide) hp) ?_
    refine plainPut_keeps _ _ _ (Keeps.sub (by simp) hp) ?_
    refine holdDuty_keeps _ _ (Keeps.sub (by decide) hp) ?_
    exact h

theorem fansOff_keeps {ps : List Part} {σ : State} (s : State)
    (hp : ∀ p ∈ [Part.fans, Part.msix, Part.out, Part.reg .fan, Part.reg .stk, Part.rings, Part.stk], p ∈ ps) (h : Keeps ps σ s) : Keeps ps σ (fansOff s) := by
  unfold fansOff
  refine Keeps.foldl ?_ ?_
  · intro τ1 χ2 hτ3
    extract_lets σ4
    have hσ4 : Keeps ps σ σ4 := by
      unfold σ4
      refine wf_keeps _ _ _ _ _ (Keeps.sub (by simp) hp) ?_
      exact hτ3
    refine Keeps.ite (fun _ => ?_) fun _ => ?_
    · exact hσ4
    · refine setFan_keeps _ _ _ (Keeps.sub (by decide) hp) ?_
      exact hσ4
  · exact h

theorem takeTj_keeps {ps : List Part} {σ : State} (s : State)
    (hp : ∀ p ∈ [Part.reg .thm, Part.thm], p ∈ ps) (h : Keeps ps σ s) : Keeps ps σ (takeTj s) := by
  unfold takeTj
  split
  · extract_lets σ1 σ2 σ3
    refine wn_keeps _ _ _ (Keeps.sub (by decide) hp) ?_
    refine Keeps.set_thm (hp _ (by decide)) ?_
    exact h
  · refine Keeps.set_thm (hp _ (by decide)) ?_
    exact h

theorem holdThr_keeps {ps : List Part} {σ : State} (s : State)
    (hp : ∀ p ∈ [Part.thm], p ∈ ps) (h : Keeps ps σ s) : Keeps ps σ (holdThr s) := by
  unfold holdThr
  refine Keeps.ite (fun _ => ?_) fun _ => ?_
  · exact h
  · refine Keeps.set_thm (hp _ (by decide)) ?_
    exact h

theorem warning_keeps {ps : List Part} {σ : State} (s : State)
    (hp : ∀ p ∈ [Part.msix, Part.out, Part.reg .stk, Part.reg .thm, Part.rings, Part.stk, Part.thm], p ∈ ps) (h : Keeps ps σ s) : Keeps ps σ (warning s) := by
  unfold warning
  extract_lets σ1 σ2 σ3 σ4
  refine Keeps.ite (fun _ => ?_) fun _ => ?_
  · refine raiseIrq_keeps _ _ _ (Keeps.sub (by decide) hp) ?_
    refine raiseAlarm_keeps _ _ _ _ (Keeps.sub (by decide) hp) ?_
    refine inc_keeps _ _ _ (Keeps.sub (by decide) hp) ?_
    refine Keeps.set_thm (hp _ (by decide)) ?_
    exact h
  · refine Keeps.ite (fun _ => ?_) fun _ => ?_
    · refine raiseIrq_keeps _ _ _ (Keeps.sub (by decide) hp) ?_
      refine event_keeps _ _ _ _ (Keeps.sub (by decide) hp) ?_
      refine Keeps.set_thm (hp _ (by decide)) ?_
      exact h
    · exact h

theorem shutdown_keeps {ps : List Part} {σ : State} (s : State)
    (hp : ∀ p ∈ (allRegs ++ [Part.cal, Part.clk, Part.clock, Part.crk, Part.entries, Part.fans, Part.free, Part.fw, Part.gln, Part.glz, Part.hif, Part.ipl, Part.jobs, Part.kln, Part.memory, Part.mil, Part.mot, Part.msix, Part.out, Part.pif, Part.ports, Part.pwr, Part.reads, Part.rings, Part.sag, Part.stk, Part.thm, Part.thr, Part.til, Part.tly, Part.trm, Part.win]), p ∈ ps) (h : Keeps ps σ s) : Keeps ps σ (shutdown s) := by
  unfold shutdown
  extract_lets σ1 σ2 σ3
  have hσ1 : Keeps ps σ σ1 := by
    unfold σ1
    refine raiseAlarm_keeps _ _ _ _ (Keeps.sub (by decide) hp) ?_
    refine wr_keeps _ _ _ (Keeps.sub (by decide) hp) ?_
    exact h
  have hσ2 : Keeps ps σ σ2 := by
    unfold σ2
    refine haltUnits_keeps _ (Keeps.sub (by decide) hp) ?_
    refine graceStart_keeps _ (Keeps.sub (by decide) hp) ?_
    exact hσ1
  refine Keeps.set_thm (hp _ (by decide)) ?_
  exact hσ2

theorem sensorSample_keeps {ps : List Part} {σ : State} (k : Nat) (raw : BitVec 16) (good : Bool) (t : Nat) (s0 : State)
    (hp : ∀ p ∈ (allRegs ++ [Part.cal, Part.clk, Part.clock, Part.crk, Part.entries, Part.fans, Part.free, Part.fw, Part.gln, Part.glz, Part.hif, Part.ipl, Part.jobs, Part.kln, Part.memory, Part.mil, Part.mot, Part.msix, Part.out, Part.pif, Part.ports, Part.pwr, Part.reads, Part.rings, Part.sag, Part.stk, Part.thm, Part.thr, Part.til, Part.tly, Part.trm, Part.win]), p ∈ ps) (h : Keeps ps σ s0) : Keeps ps σ (sensorSample k raw good t s0) := by
  unfold sensorSample
  refine Keeps.ite (fun _ => ?_) fun _ => ?_
  · exact h
  · extract_lets σ1 σ2 σ3 σ4 σ5 σ6 σ7 σ8 σ9 σ10
    have hσ1 : Keeps ps σ σ1 := by
      unfold σ1
      refine advanceTo_keeps _ _ (Keeps.sub (by decide) hp) ?_
      exact h
    have hσ7 : Keeps ps σ σ7 := by
      unfold σ7
      refine Keeps.set_thm (hp _ (by decide)) ?_
      exact hσ1
    have hσ8 : Keeps ps σ σ8 := by
      unfold σ8
      clear_value σ4
      split
      · refine Keeps.ite (fun _ => ?_) fun _ => ?_
        · exact hσ7
        · refine raiseIrq_keeps _ _ _ (Keeps.sub (by decide) hp) ?_
          refine event_keeps _ _ _ _ (Keeps.sub (by decide) hp) ?_
          exact hσ7
      · exact hσ7
    have hσ9 : Keeps ps σ σ9 := by
      unfold σ9
      refine takeTj_keeps _ (Keeps.sub (by decide) hp) ?_
      exact hσ8
    have hσ10 : Keeps ps σ σ10 := by
      unfold σ10
      refine warning_keeps _ (Keeps.sub (by decide) hp) ?_
      exact hσ9
    refine Keeps.ite (fun _ => ?_) fun _ => ?_
    · exact hσ9
    · refine Keeps.ite (fun _ => ?_) fun _ => ?_
      · refine shutdown_keeps _ (Keeps.sub (by decide) hp) ?_
        exact hσ10
      · exact hσ10

theorem execThmSensorSample_keeps (sensor : Fin 16) (reading : BitVec 16) (good : Bool) (t : DWord) (s : State) :
    ∃ τ, execThmSensorSample sensor reading good t s = .next τ ∧ Keeps (allRegs ++ [Part.cal, Part.clk, Part.clock, Part.crk, Part.entries, Part.fans, Part.free, Part.fw, Part.gln, Part.glz, Part.hif, Part.ipl, Part.jobs, Part.kln, Part.memory, Part.mil, Part.mot, Part.msix, Part.out, Part.pif, Part.ports, Part.pwr, Part.reads, Part.rings, Part.sag, Part.stk, Part.thm, Part.thr, Part.til, Part.tly, Part.trm, Part.win]) s τ := by
  refine Keeps.exec fun ps σ hp h => ?_
  unfold execThmSensorSample
  refine ⟨_, rfl, ?_⟩
  refine sensorSample_keeps _ _ _ _ _ (Keeps.sub (by decide) hp) ?_
  exact h

theorem analogTrip_keeps {ps : List Part} {σ : State} (s : State)
    (hp : ∀ p ∈ (allRegs ++ [Part.cal, Part.clk, Part.clock, Part.crk, Part.entries, Part.fans, Part.free, Part.fw, Part.gln, Part.glz, Part.hif, Part.ipl, Part.jobs, Part.kln, Part.memory, Part.mil, Part.mot, Part.msix, Part.out, Part.pif, Part.ports, Part.pwr, Part.reads, Part.rings, Part.sag, Part.stk, Part.thm, Part.thr, Part.til, Part.tly, Part.trm, Part.win]), p ∈ ps) (h : Keeps ps σ s) : Keeps ps σ (analogTrip s) := by
  unfold analogTrip
  refine Keeps.ite (fun _ => ?_) fun _ => ?_
  · exact h
  · extract_lets σ1 σ2
    have hσ1 : Keeps ps σ σ1 := by
      unfold σ1
      refine haltUnits_keeps _ (Keeps.sub (by decide) hp) ?_
      refine crkLose_keeps _ (Keeps.sub (by decide) hp) ?_
      refine crkInterrupt_keeps _ _ (Keeps.sub (by decide) hp) ?_
      refine wr_keeps _ _ _ (Keeps.sub (by decide) hp) ?_
      exact h
    refine Keeps.set_thm (hp _ (by decide)) ?_
    exact hσ1

theorem execAnalogTrip_keeps (s : State) :
    ∃ τ, execAnalogTrip s = .next τ ∧ Keeps (allRegs ++ [Part.cal, Part.clk, Part.clock, Part.crk, Part.entries, Part.fans, Part.free, Part.fw, Part.gln, Part.glz, Part.hif, Part.ipl, Part.jobs, Part.kln, Part.memory, Part.mil, Part.mot, Part.msix, Part.out, Part.pif, Part.ports, Part.pwr, Part.reads, Part.rings, Part.sag, Part.stk, Part.thm, Part.thr, Part.til, Part.tly, Part.trm, Part.win]) s τ := by
  refine Keeps.exec fun ps σ hp h => ?_
  unfold execAnalogTrip
  refine ⟨_, rfl, ?_⟩
  refine analogTrip_keeps _ (Keeps.sub (by decide) hp) ?_
  exact h

theorem holdRelease_keeps {ps : List Part} {σ : State} (t : Nat) (s0 : State)
    (hp : ∀ p ∈ [Part.clock, Part.msix, Part.out, Part.reg .stk, Part.reg .tim, Part.rings, Part.stk, Part.thm], p ∈ ps) (h : Keeps ps σ s0) : Keeps ps σ (holdRelease t s0) := by
  unfold holdRelease
  extract_lets σ1 σ2
  have hσ1 : Keeps ps σ σ1 := by
    unfold σ1
    refine advanceTo_keeps _ _ (Keeps.sub (by decide) hp) ?_
    exact h
  split
  · refine Keeps.ite (fun _ => ?_) fun _ => ?_
    · refine Keeps.set_thm (hp _ (by decide)) ?_
      exact hσ1
    · exact hσ1
  · exact hσ1

theorem execShutdownHoldRelease_keeps (t : DWord) (s : State) :
    ∃ τ, execShutdownHoldRelease t s = .next τ ∧ Keeps [Part.clock, Part.msix, Part.out, Part.reg .stk, Part.reg .tim, Part.rings, Part.stk, Part.thm] s τ := by
  refine Keeps.exec fun ps σ hp h => ?_
  unfold execShutdownHoldRelease
  refine ⟨_, rfl, ?_⟩
  refine holdRelease_keeps _ _ (Keeps.sub (by decide) hp) ?_
  exact h

end Sys2Proof.Machine
end

