-- ==== Sys2Proof/Laws/KeepsServo.lean ====
section
/-! SUPPORT. What the operations of Machine/Servo.lean change, and what they keep. -/

namespace Sys2Proof.Machine
open Sys2Proof

theorem pressAdd_keeps {ps : List Part} {σ : State} (e : Int) (s : State)
    (hp : ∀ p ∈ [Part.clock], p ∈ ps) (h : Keeps ps σ s) : Keeps ps σ (pressAdd e s) := by
  unfold pressAdd
  extract_lets σ1 σ2 σ3
  refine Keeps.set_clock (hp _ (by decide)) ?_
  exact h

theorem setLocked_keeps {ps : List Part} {σ : State} (b : Bool) (s : State)
    (hp : ∀ p ∈ [Part.clock, Part.msix, Part.out, Part.reg .stk, Part.reg .tim, Part.rings, Part.stk], p ∈ ps) (h : Keeps ps σ s) : Keeps ps σ (setLocked b s) := by
  unfold setLocked
  refine Keeps.ite (fun _ => ?_) fun _ => ?_
  · exact h
  · refine raiseIrq_keeps _ _ _ (Keeps.sub (by decide) hp) ?_
    refine event_keeps _ _ _ _ (Keeps.sub (by decide) hp) ?_
    refine Keeps.set_clock (hp _ (by decide)) ?_
    exact h

theorem setHoldover_keeps {ps : List Part} {σ : State} (b : Bool) (s : State)
    (hp : ∀ p ∈ [Part.clock, Part.msix, Part.out, Part.reg .stk, Part.reg .tim, Part.rings, Part.stk], p ∈ ps) (h : Keeps ps σ s) : Keeps ps σ (setHoldover b s) := by
  unfold setHoldover
  refine Keeps.ite (fun _ => ?_) fun _ => ?_
  · exact h
  · extract_lets σ1 σ2 σ3
    have hσ2 : Keeps ps σ σ2 := by
      unfold σ2
      refine raiseIrq_keeps _ _ _ (Keeps.sub (by decide) hp) ?_
      refine event_keeps _ _ _ _ (Keeps.sub (by decide) hp) ?_
      refine Keeps.set_clock (hp _ (by decide)) ?_
      exact h
    refine Keeps.ite (fun _ => ?_) fun _ => ?_
    · refine setLocked_keeps _ _ (Keeps.sub (by decide) hp) ?_
      refine Keeps.set_clock (hp _ (by decide)) ?_
      exact hσ2
    · exact hσ2

theorem measureFails_keeps {ps : List Part} {σ : State} (s : State)
    (hp : ∀ p ∈ [Part.clock, Part.msix, Part.out, Part.reg .stk, Part.reg .tim, Part.rings, Part.stk], p ∈ ps) (h : Keeps ps σ s) : Keeps ps σ (measureFails s) := by
  unfold measureFails
  extract_lets σ1 σ2 σ3
  have hσ3 : Keeps ps σ σ3 := by
    unfold σ3
    refine Keeps.set_clock (hp _ (by decide)) ?_
    exact h
  refine Keeps.ite (fun _ => ?_) fun _ => ?_
  · refine setHoldover_keeps _ _ (Keeps.sub (by decide) hp) ?_
    exact hσ3
  · exact hσ3

theorem lockRun_keeps {ps : List Part} {σ : State} (e : Int) (s : State)
    (hp : ∀ p ∈ [Part.clock, Part.msix, Part.out, Part.reg .stk, Part.reg .tim, Part.rings, Part.stk], p ∈ ps) (h : Keeps ps σ s) : Keeps ps σ (lockRun e s) := by
  unfold lockRun
  extract_lets σ1 σ2 σ3
  have hσ2 : Keeps ps σ σ2 := by
    unfold σ2
    refine Keeps.set_clock (hp _ (by decide)) ?_
    exact h
  have hσ3 : Keeps ps σ σ3 := by
    unfold σ3
    refine Keeps.set_clock (hp _ (by decide)) ?_
    exact h
  refine Keeps.ite (fun _ => ?_) fun _ => ?_
  · refine Keeps.ite (fun _ => ?_) fun _ => ?_
    · refine setLocked_keeps _ _ (Keeps.sub (by decide) hp) ?_
      exact hσ2
    · exact hσ2
  · refine Keeps.ite (fun _ => ?_) fun _ => ?_
    · refine setLocked_keeps _ _ (Keeps.sub (by decide) hp) ?_
      exact hσ3
    · exact hσ3

theorem measure_keeps {ps : List Part} {σ : State} (e : Int) (n : Nat) (s : State)
    (hp : ∀ p ∈ [Part.clock, Part.msix, Part.out, Part.reg .stk, Part.reg .tim, Part.rings, Part.stk], p ∈ ps) (h : Keeps ps σ s) : Keeps ps σ (measure e n s) := by
  unfold measure
  extract_lets σ1 σ2 σ3 σ4 σ5 σ6 σ7 σ8 σ9 σ10 σ11
  have hσ3 : Keeps ps σ σ3 := by
    unfold σ3
    refine setHoldover_keeps _ _ (Keeps.sub (by decide) hp) ?_
    refine Keeps.set_clock (hp _ (by decide)) ?_
    exact h
  have hσ4 : Keeps ps σ σ4 := by
    unfold σ4
    refine inc_keeps _ _ _ (Keeps.sub (by decide) hp) ?_
    refine wn_keeps _ _ _ (Keeps.sub (by decide) hp) ?_
    exact hσ3
  have hσ5 : Keeps ps σ σ5 := by
    unfold σ5
    refine pressAdd_keeps _ _ (Keeps.sub (by decide) hp) ?_
    exact hσ4
  have hσ7 : Keeps ps σ σ7 := by
    unfold σ7
    refine Keeps.set_clock (hp _ (by decide)) ?_
    exact hσ5
  have hσ10 : Keeps ps σ σ10 := by
    unfold σ10
    refine wn_keeps _ _ _ (Keeps.sub (by decide) hp) ?_
    exact hσ4
  refine Keeps.ite (fun _ => ?_) fun _ => ?_
  · refine setLocked_keeps _ _ (Keeps.sub (by decide) hp) ?_
    refine raiseIrq_keeps _ _ _ (Keeps.sub (by decide) hp) ?_
    refine event_keeps _ _ _ _ (Keeps.sub (by decide) hp) ?_
    refine inc_keeps _ _ _ (Keeps.sub (by decide) hp) ?_
    exact hσ7
  · refine lockRun_keeps _ _ (Keeps.sub (by decide) hp) ?_
    refine Keeps.set_clock (hp _ (by decide)) ?_
    exact hσ10

theorem ptmMeasurement_keeps {ps : List Part} {σ : State} (sec : Word) (ns : Nat) (frac : Nat) (s : State)
    (hp : ∀ p ∈ [Part.clock, Part.hif, Part.msix, Part.out, Part.reg .stk, Part.reg .tim, Part.rings, Part.stk], p ∈ ps) (h : Keeps ps σ s) : Keeps ps σ (ptmMeasurement sec ns frac s) := by
  unfold ptmMeasurement
  refine Keeps.ite (fun _ => ?_) fun _ => ?_
  · extract_lets σ1 σ2 σ3
    have hσ2 : Keeps ps σ σ2 := by
      unfold σ2
      refine Keeps.set_hif (Or.inr rfl) (Or.inr rfl) (Or.inl (hp _ (by decide))) ?_
      exact h
    refine Keeps.ite (fun _ => ?_) fun _ => ?_
    · refine measure_keeps _ _ _ (Keeps.sub (by decide) hp) ?_
      exact hσ2
    · exact hσ2
  · exact h

theorem execTimPtmMeasurement_keeps (sec : Word) (ns : BitVec 30) (frac : BitVec 8) (s : State) :
    ∃ τ, execTimPtmMeasurement sec ns frac s = .next τ ∧ Keeps [Part.clock, Part.hif, Part.msix, Part.out, Part.reg .stk, Part.reg .tim, Part.rings, Part.stk] s τ := by
  refine Keeps.exec fun ps σ hp h => ?_
  unfold execTimPtmMeasurement
  refine ⟨_, rfl, ?_⟩
  refine ptmMeasurement_keeps _ _ _ _ (Keeps.sub (by decide) hp) ?_
  exact h

theorem timWrCtrl_keeps {ps : List Part} {σ : State} (v : Word) (s : State)
    (hp : ∀ p ∈ [Part.clock, Part.msix, Part.out, Part.reg .stk, Part.reg .tim, Part.rings, Part.stk], p ∈ ps) (h : Keeps ps σ s) : Keeps ps σ (timWrCtrl v s) := by
  unfold timWrCtrl
  extract_lets σ1 σ2 σ3 σ4
  have hσ3 : Keeps ps σ σ3 := by
    unfold σ3
    refine Keeps.ite (fun _ => ?_) fun _ => ?_
    · refine applyStaged_keeps _ _ (Keeps.sub (by decide) hp) ?_
      exact h
    · exact h
  have hσ4 : Keeps ps σ σ4 := by
    unfold σ4
    refine Keeps.ite (fun _ => ?_) fun _ => ?_
    · exact h
    · refine Keeps.ite (fun _ => ?_) fun _ => ?_
      · refine recordErr_keeps _ _ _ (Keeps.sub (by decide) hp) ?_
        exact h
      · refine Keeps.ite (fun _ => ?_) fun _ => ?_
        · unfold σ1
          refine Keeps.set_clock (hp _ (by decide)) ?_
          exact hσ3
        · exact hσ3
  refine Keeps.ite (fun _ => ?_) fun _ => ?_
  · unfold σ1
    refine Keeps.set_clock (hp _ (by decide)) ?_
    exact hσ4
  · exact hσ4

theorem timWrWrite_keeps {ps : List Part} {σ : State} (ini : Initiator) (val : Word) (s : State)
    (hp : ∀ p ∈ [Part.clock, Part.msix, Part.out, Part.reg .hif, Part.reg .stk, Part.reg .tim, Part.rings, Part.stk], p ∈ ps) (h : Keeps ps σ s) : Keeps ps σ (timWrWrite ini val s) := by
  unfold timWrWrite
  refine guardWrite_keeps _ _ _ _ _ _ ?_ (Keeps.sub (by decide) hp) ?_
  · intro χ1 τ2 hτ3
    refine timWrCtrl_keeps _ _ (Keeps.sub (by decide) hp) ?_
    exact hτ3
  · exact h

theorem execTimWriteNow_keeps (ini : Initiator) (val : Word) (s : State) :
    ∃ τ, execTimWriteNow ini val s = .next τ ∧ Keeps [Part.clock, Part.msix, Part.out, Part.reg .hif, Part.reg .stk, Part.reg .tim, Part.rings, Part.stk] s τ := by
  refine Keeps.exec fun ps σ hp h => ?_
  unfold execTimWriteNow
  refine ⟨_, rfl, ?_⟩
  refine timWrWrite_keeps _ _ _ (Keeps.sub (by decide) hp) ?_
  exact h

theorem execTimWriteAtSec_keeps (ini : Initiator) (val : Word) (s : State) :
    ∃ τ, execTimWriteAtSec ini val s = .next τ ∧ Keeps [Part.clock, Part.msix, Part.out, Part.reg .hif, Part.reg .stk, Part.reg .tim, Part.rings, Part.stk] s τ := by
  refine Keeps.exec fun ps σ hp h => ?_
  unfold execTimWriteAtSec
  refine ⟨_, rfl, ?_⟩
  refine timWrWrite_keeps _ _ _ (Keeps.sub (by decide) hp) ?_
  exact h

theorem execTimWriteCancel_keeps (ini : Initiator) (val : Word) (s : State) :
    ∃ τ, execTimWriteCancel ini val s = .next τ ∧ Keeps [Part.clock, Part.msix, Part.out, Part.reg .hif, Part.reg .stk, Part.reg .tim, Part.rings, Part.stk] s τ := by
  refine Keeps.exec fun ps σ hp h => ?_
  unfold execTimWriteCancel
  refine ⟨_, rfl, ?_⟩
  refine timWrWrite_keeps _ _ _ (Keeps.sub (by decide) hp) ?_
  exact h

theorem timCtrl_keeps {ps : List Part} {σ : State} (v : Word) (s : State)
    (hp : ∀ p ∈ [Part.clock, Part.reg .tim], p ∈ ps) (h : Keeps ps σ s) : Keeps ps σ (timCtrl v s) := by
  unfold timCtrl
  extract_lets σ1 σ2
  have hσ1 : Keeps ps σ σ1 := by
    unfold σ1
    refine plainPut_keeps _ _ _ (Keeps.sub (by decide) hp) ?_
    exact h
  refine Keeps.set_clock (hp _ (by decide)) ?_
  exact hσ1

theorem execTimSrcWrite_keeps (ini : Initiator) (val : Word) (s : State) :
    ∃ τ, execTimSrcWrite ini val s = .next τ ∧ Keeps [Part.clock, Part.msix, Part.out, Part.reg .hif, Part.reg .tim] s τ := by
  refine Keeps.exec fun ps σ hp h => ?_
  unfold execTimSrcWrite
  refine ⟨_, rfl, ?_⟩
  refine guardWrite_keeps _ _ _ _ _ _ ?_ (Keeps.sub (by decide) hp) ?_
  · intro χ1 τ2 hτ3
    refine timCtrl_keeps _ _ (Keeps.sub (by decide) hp) ?_
    exact hτ3
  · exact h

theorem timRateWrite_keeps {ps : List Part} {σ : State} (v : Word) (s : State)
    (hp : ∀ p ∈ [Part.msix, Part.out, Part.reg .tim], p ∈ ps) (h : Keeps ps σ s) : Keeps ps σ (timRateWrite v s) := by
  unfold timRateWrite
  refine Keeps.ite (fun _ => ?_) fun _ => ?_
  · refine plainPut_keeps _ _ _ (Keeps.sub (by decide) hp) ?_
    exact h
  · refine recordErr_keeps _ _ _ (Keeps.sub (by decide) hp) ?_
    exact h

theorem advanceCycles_keeps {ps : List Part} {σ : State} (n : Nat) (s : State)
    (hp : ∀ p ∈ [Part.clock, Part.msix, Part.out, Part.reg .stk, Part.reg .tim, Part.rings, Part.stk], p ∈ ps) (h : Keeps ps σ s) : Keeps ps σ (advanceCycles n s) := by
  unfold advanceCycles
  refine advanceTo_keeps _ _ (Keeps.sub (by decide) hp) ?_
  exact h

theorem execTimSecondRollover_keeps (s : State) :
    ∃ τ, execTimSecondRollover s = .next τ ∧ Keeps [Part.clock, Part.msix, Part.out, Part.reg .stk, Part.reg .tim, Part.rings, Part.stk] s τ := by
  refine Keeps.exec fun ps σ hp h => ?_
  unfold execTimSecondRollover
  refine ⟨_, rfl, ?_⟩
  refine advanceCycles_keeps _ _ (Keeps.sub (by decide) hp) ?_
  exact h

theorem execTimSlewEnd_keeps (s : State) :
    ∃ τ, execTimSlewEnd s = .next τ ∧ Keeps [Part.clock, Part.msix, Part.out, Part.reg .stk, Part.reg .tim, Part.rings, Part.stk] s τ := by
  refine Keeps.exec fun ps σ hp h => ?_
  unfold execTimSlewEnd
  refine ⟨_, rfl, ?_⟩
  refine advanceCycles_keeps _ _ (Keeps.sub (by decide) hp) ?_
  exact h

end Sys2Proof.Machine
end

