-- ==== Sys2Proof/Laws/KeepsTramline.lean ====
section
/-! SUPPORT. What the operations of Machine/Tramline.lean change, and what they keep. -/

namespace Sys2Proof.Machine
open Sys2Proof

theorem setTrm_keeps {ps : List Part} {σ : State} (st : TrmState) (s : State)
    (hp : ∀ p ∈ [Part.msix, Part.out, Part.reg .stk, Part.reg .trm, Part.rings, Part.stk, Part.trm], p ∈ ps) (h : Keeps ps σ s) : Keeps ps σ (setTrm st s) := by
  unfold setTrm
  extract_lets σ1 σ2
  refine Keeps.ite (fun _ => ?_) fun _ => ?_
  · exact h
  · refine raiseIrq_keeps _ _ _ (Keeps.sub (by decide) hp) ?_
    refine event_keeps _ _ _ _ (Keeps.sub (by decide) hp) ?_
    refine Keeps.set_trm (hp _ (by decide)) ?_
    exact h

theorem loseBeacons_keeps {ps : List Part} {σ : State} (s : State)
    (hp : ∀ p ∈ [Part.trm], p ∈ ps) (h : Keeps ps σ s) : Keeps ps σ (loseBeacons s) := by
  unfold loseBeacons
  refine Keeps.set_trm (hp _ (by decide)) ?_
  exact h

theorem trmConflict_keeps {ps : List Part} {σ : State} (cause : Nat) (s : State)
    (hp : ∀ p ∈ [Part.msix, Part.out, Part.reg .stk, Part.reg .trm, Part.rings, Part.stk, Part.trm], p ∈ ps) (h : Keeps ps σ s) : Keeps ps σ (trmConflict cause s) := by
  unfold trmConflict
  refine raiseIrq_keeps _ _ _ (Keeps.sub (by decide) hp) ?_
  refine raiseAlarm_keeps _ _ _ _ (Keeps.sub (by decide) hp) ?_
  refine setTrm_keeps _ _ (Keeps.sub (by decide) hp) ?_
  exact h

theorem trmOff_keeps {ps : List Part} {σ : State} (s : State)
    (hp : ∀ p ∈ [Part.msix, Part.out, Part.reg .stk, Part.reg .trm, Part.rings, Part.stk, Part.trm], p ∈ ps) (h : Keeps ps σ s) : Keeps ps σ (trmOff s) := by
  unfold trmOff
  extract_lets σ1 σ2
  have hσ1 : Keeps ps σ σ1 := by
    unfold σ1
    refine setTrm_keeps _ _ (Keeps.sub (by decide) hp) ?_
    refine loseBeacons_keeps _ (Keeps.sub (by decide) hp) ?_
    exact h
  refine Keeps.set_trm (hp _ (by decide)) ?_
  exact hσ1

theorem trmCtrl_keeps {ps : List Part} {σ : State} (v : Word) (s : State)
    (hp : ∀ p ∈ [Part.msix, Part.out, Part.reg .stk, Part.reg .trm, Part.rings, Part.stk, Part.trm], p ∈ ps) (h : Keeps ps σ s) : Keeps ps σ (trmCtrl v s) := by
  unfold trmCtrl
  extract_lets σ1 σ2 σ3 σ4 σ5 σ6
  have hσ2 : Keeps ps σ σ2 := by
    unfold σ2
    refine plainPut_keeps _ _ _ (Keeps.sub (by decide) hp) ?_
    exact h
  have hσ4 : Keeps ps σ σ4 := by
    unfold σ4
    refine loseBeacons_keeps _ (Keeps.sub (by decide) hp) ?_
    refine Keeps.set_trm (hp _ (by decide)) ?_
    exact hσ2
  have hσ6 : Keeps ps σ σ6 := by
    unfold σ6
    refine setTrm_keeps _ _ (Keeps.sub (by decide) hp) ?_
    refine Keeps.set_trm (hp _ (by decide)) ?_
    exact hσ4
  refine Keeps.ite (fun _ => ?_) fun _ => ?_
  · refine recordErr_keeps _ _ _ (Keeps.sub (by decide) hp) ?_
    exact h
  · refine Keeps.ite (fun _ => ?_) fun _ => ?_
    · refine trmOff_keeps _ (Keeps.sub (by decide) hp) ?_
      exact hσ2
    · refine Keeps.ite (fun _ => ?_) fun _ => ?_
      · exact hσ2
      · refine Keeps.ite (fun _ => ?_) fun _ => ?_
        · refine setTrm_keeps _ _ (Keeps.sub (by decide) hp) ?_
          exact hσ4
        · refine Keeps.ite (fun _ => ?_) fun _ => ?_
          · refine trmConflict_keeps _ _ (Keeps.sub (by decide) hp) ?_
            exact hσ6
          · exact hσ6

theorem trmCtrlWrite_keeps {ps : List Part} {σ : State} (ini : Initiator) (val : Word) (s : State)
    (hp : ∀ p ∈ [Part.msix, Part.out, Part.reg .hif, Part.reg .stk, Part.reg .trm, Part.rings, Part.stk, Part.trm], p ∈ ps) (h : Keeps ps σ s) : Keeps ps σ (trmCtrlWrite ini val s) := by
  unfold trmCtrlWrite
  refine guardWrite_keeps _ _ _ _ _ _ ?_ (Keeps.sub (by decide) hp) ?_
  · intro χ1 τ2 hτ3
    refine trmCtrl_keeps _ _ (Keeps.sub (by decide) hp) ?_
    exact hτ3
  · exact h

theorem execTrmRoleOff_keeps (ini : Initiator) (val : Word) (s : State) :
    ∃ τ, execTrmRoleOff ini val s = .next τ ∧ Keeps [Part.msix, Part.out, Part.reg .hif, Part.reg .stk, Part.reg .trm, Part.rings, Part.stk, Part.trm] s τ := by
  refine Keeps.exec fun ps σ hp h => ?_
  unfold execTrmRoleOff
  refine ⟨_, rfl, ?_⟩
  refine trmCtrlWrite_keeps _ _ _ (Keeps.sub (by decide) hp) ?_
  exact h

theorem execTrmRoleFollower_keeps (ini : Initiator) (val : Word) (s : State) :
    ∃ τ, execTrmRoleFollower ini val s = .next τ ∧ Keeps [Part.msix, Part.out, Part.reg .hif, Part.reg .stk, Part.reg .trm, Part.rings, Part.stk, Part.trm] s τ := by
  refine Keeps.exec fun ps σ hp h => ?_
  unfold execTrmRoleFollower
  refine ⟨_, rfl, ?_⟩
  refine trmCtrlWrite_keeps _ _ _ (Keeps.sub (by decide) hp) ?_
  exact h

theorem execTrmRoleLeader_keeps (ini : Initiator) (val : Word) (s : State) :
    ∃ τ, execTrmRoleLeader ini val s = .next τ ∧ Keeps [Part.msix, Part.out, Part.reg .hif, Part.reg .stk, Part.reg .trm, Part.rings, Part.stk, Part.trm] s τ := by
  refine Keeps.exec fun ps σ hp h => ?_
  unfold execTrmRoleLeader
  refine ⟨_, rfl, ?_⟩
  refine trmCtrlWrite_keeps _ _ _ (Keeps.sub (by decide) hp) ?_
  exact h

theorem leadLine_keeps {ps : List Part} {σ : State} (low : Bool) (s : State)
    (hp : ∀ p ∈ [Part.msix, Part.out, Part.reg .stk, Part.reg .trm, Part.rings, Part.stk, Part.trm], p ∈ ps) (h : Keeps ps σ s) : Keeps ps σ (leadLine low s) := by
  unfold leadLine
  extract_lets σ1 σ2
  have hσ2 : Keeps ps σ σ2 := by
    unfold σ2
    refine Keeps.set_trm (hp _ (by decide)) ?_
    exact h
  refine Keeps.ite (fun _ => ?_) fun _ => ?_
  · refine trmConflict_keeps _ _ (Keeps.sub (by decide) hp) ?_
    exact hσ2
  · exact hσ2

theorem execTrmLeadLineLow_keeps (low : Bool) (s : State) :
    ∃ τ, execTrmLeadLineLow low s = .next τ ∧ Keeps [Part.msix, Part.out, Part.reg .stk, Part.reg .trm, Part.rings, Part.stk, Part.trm] s τ := by
  refine Keeps.exec fun ps σ hp h => ?_
  unfold execTrmLeadLineLow
  refine ⟨_, rfl, ?_⟩
  refine leadLine_keeps _ _ (Keeps.sub (by decide) hp) ?_
  exact h

theorem markStale_keeps {ps : List Part} {σ : State} (l : List Nat) (s : State)
    (hp : ∀ p ∈ [Part.reg .trm], p ∈ ps) (h : Keeps ps σ s) : Keeps ps σ (markStale l s) := by
  unfold markStale
  refine Keeps.foldl ?_ ?_
  · intro τ1 χ2 hτ3
    refine wf_keeps _ _ _ _ _ (Keeps.sub (by decide) hp) ?_
    refine wf_keeps _ _ _ _ _ (Keeps.sub (by simp) hp) ?_
    exact hτ3
  · exact h

theorem sendBurst_keeps {ps : List Part} {σ : State} (at0 : Nat) (at1 : Nat) (body : List Byte) (s : State)
    (hp : ∀ p ∈ [Part.out], p ∈ ps) (h : Keeps ps σ s) : Keeps ps σ (sendBurst at0 at1 body s) := by
  unfold sendBurst
  extract_lets σ1
  have hσ1 : Keeps ps σ σ1 := by
    unfold σ1
    refine Keeps.ite (fun _ => ?_) fun _ => ?_
    · refine emit_keeps _ _ (Keeps.sub (by decide) hp) ?_
      exact h
    · exact h
  refine Keeps.ite (fun _ => ?_) fun _ => ?_
  · refine emit_keeps _ _ (Keeps.sub (by decide) hp) ?_
    exact hσ1
  · exact hσ1

theorem beaconAt_keeps {ps : List Part} {σ : State} (t : Nat) (s0 : State)
    (hp : ∀ p ∈ [Part.clock, Part.msix, Part.out, Part.reg .stk, Part.reg .tim, Part.reg .trm, Part.rings, Part.stk, Part.trm], p ∈ ps) (h : Keeps ps σ s0) : Keeps ps σ (beaconAt t s0) := by
  unfold beaconAt
  extract_lets σ1 σ2 σ3 σ4 σ5 σ6 σ7
  have hσ1 : Keeps ps σ σ1 := by
    unfold σ1
    refine advanceTo_keeps _ _ (Keeps.sub (by decide) hp) ?_
    exact h
  have hσ6 : Keeps ps σ σ6 := by
    unfold σ6
    refine sendBurst_keeps _ _ _ _ (Keeps.sub (by decide) hp) ?_
    refine wn_keeps _ _ _ (Keeps.sub (by decide) hp) ?_
    refine markStale_keeps _ _ (Keeps.sub (by decide) hp) ?_
    exact hσ1
  refine Keeps.set_trm (hp _ (by decide)) ?_
  exact hσ6

theorem execTrmBeaconSend_keeps (s : State) :
    ∃ τ, execTrmBeaconSend s = .next τ ∧ Keeps [Part.clock, Part.msix, Part.out, Part.reg .stk, Part.reg .tim, Part.reg .trm, Part.rings, Part.stk, Part.trm] s τ := by
  refine Keeps.exec fun ps σ hp h => ?_
  unfold execTrmBeaconSend
  refine ⟨_, rfl, ?_⟩
  refine Keeps.ite (fun _ => ?_) fun _ => ?_
  · refine beaconAt_keeps _ _ (Keeps.sub (by decide) hp) ?_
    exact h
  · exact h

theorem claimTimer_keeps {ps : List Part} {σ : State} (t : Nat) (s : State)
    (hp : ∀ p ∈ [Part.clock, Part.msix, Part.out, Part.reg .stk, Part.reg .tim, Part.reg .trm, Part.rings, Part.stk, Part.trm], p ∈ ps) (h : Keeps ps σ s) : Keeps ps σ (claimTimer t s) := by
  unfold claimTimer
  refine Keeps.ite (fun _ => ?_) fun _ => ?_
  · extract_lets σ1 σ2
    have hσ1 : Keeps ps σ σ1 := by
      unfold σ1
      refine setTrm_keeps _ _ (Keeps.sub (by decide) hp) ?_
      refine advanceTo_keeps _ _ (Keeps.sub (by decide) hp) ?_
      exact h
    refine beaconAt_keeps _ _ (Keeps.sub (by decide) hp) ?_
    refine Keeps.set_trm (hp _ (by decide)) ?_
    exact hσ1
  · exact h

theorem execTrmClaimTimer_keeps (t : DWord) (s : State) :
    ∃ τ, execTrmClaimTimer t s = .next τ ∧ Keeps [Part.clock, Part.msix, Part.out, Part.reg .stk, Part.reg .tim, Part.reg .trm, Part.rings, Part.stk, Part.trm] s τ := by
  refine Keeps.exec fun ps σ hp h => ?_
  unfold execTrmClaimTimer
  refine ⟨_, rfl, ?_⟩
  refine claimTimer_keeps _ _ (Keeps.sub (by decide) hp) ?_
  exact h

theorem judge_keeps {ps : List Part} {σ : State} (i : Nat) (bus : Nat) (o : Int) (s : State)
    (hp : ∀ p ∈ [Part.msix, Part.out, Part.reg .stk, Part.reg .trm, Part.rings, Part.stk, Part.trm], p ∈ ps) (h : Keeps ps σ s) : Keeps ps σ (judge i bus o s) := by
  unfold judge
  extract_lets σ1 σ2 σ3 σ4
  have hσ3 : Keeps ps σ σ3 := by
    unfold σ3
    refine Keeps.ite (fun _ => ?_) fun _ => ?_
    · refine raiseIrq_keeps _ _ _ (Keeps.sub (by decide) hp) ?_
      refine event_keeps _ _ _ _ (Keeps.sub (by decide) hp) ?_
      refine inc_keeps _ _ _ (Keeps.sub (by decide) hp) ?_
      refine Keeps.set_trm (hp _ (by decide)) ?_
      exact h
    · exact h
  refine Keeps.ite (fun _ => ?_) fun _ => ?_
  · refine raiseIrq_keeps _ _ _ (Keeps.sub (by decide) hp) ?_
    refine event_keeps _ _ _ _ (Keeps.sub (by decide) hp) ?_
    refine inc_keeps _ _ _ (Keeps.sub (by decide) hp) ?_
    refine Keeps.set_trm (hp _ (by decide)) ?_
    exact hσ3
  · exact hσ3

theorem takeNode_keeps {ps : List Part} {σ : State} (i : Nat) (b : List Byte) (s : State)
    (hp : ∀ p ∈ [Part.reg .trm, Part.trm], p ∈ ps) (h : Keeps ps σ s) : Keeps ps σ (takeNode i b s) := by
  unfold takeNode
  extract_lets σ1 σ2 σ3 σ4
  have hσ2 : Keeps ps σ σ2 := by
    unfold σ2
    refine wn_keeps _ _ _ (Keeps.sub (by simp) hp) ?_
    refine wn_keeps _ _ _ (Keeps.sub (by simp) hp) ?_
    exact h
  have hσ3 : Keeps ps σ σ3 := by
    unfold σ3
    refine wf_keeps _ _ _ _ _ (Keeps.sub (by decide) hp) ?_
    exact hσ2
  refine Keeps.set_trm (hp _ (by decide)) ?_
  exact hσ3

theorem countBad_keeps {ps : List Part} {σ : State} (burst : List Byte) (good : Bool) (s : State)
    (hp : ∀ p ∈ [Part.reg .trm], p ∈ ps) (h : Keeps ps σ s) : Keeps ps σ (countBad burst good s) := by
  unfold countBad
  refine Keeps.ite (fun _ => ?_) fun _ => ?_
  · exact h
  · refine inc_keeps _ _ _ (Keeps.sub (by decide) hp) ?_
    exact h

theorem followerBurst_keeps {ps : List Part} {σ : State} (i : Nat) (a : List Byte) (b : List Byte) (ra : Nat) (rb : Nat) (s : State)
    (hp : ∀ p ∈ [Part.clock, Part.msix, Part.out, Part.reg .stk, Part.reg .tim, Part.reg .trm, Part.rings, Part.stk, Part.trm], p ∈ ps) (h : Keeps ps σ s) : Keeps ps σ (followerBurst i a b ra rb s) := by
  unfold followerBurst
  extract_lets σ1 σ2 σ3 σ4 σ5 σ6 σ7 σ8 σ9 σ10 σ11 σ12 σ13
  have hσ7 : Keeps ps σ σ7 := by
    unfold σ7
    refine Keeps.ite (fun _ => ?_) fun _ => ?_
    · exact h
    · refine advanceTo_keeps _ _ (Keeps.sub (by decide) hp) ?_
      exact h
  have hσ8 : Keeps ps σ σ8 := by
    unfold σ8
    refine countBad_keeps _ _ _ (Keeps.sub (by decide) hp) ?_
    refine countBad_keeps _ _ _ (Keeps.sub (by decide) hp) ?_
    exact hσ7
  have hσ11 : Keeps ps σ σ11 := by
    unfold σ11
    refine wn_keeps _ _ _ (Keeps.sub (by simp) hp) ?_
    exact hσ8
  have hσ12 : Keeps ps σ σ12 := by
    unfold σ12
    clear_value σ9
    split
    · refine judge_keeps _ _ _ _ (Keeps.sub (by decide) hp) ?_
      exact hσ11
    · exact hσ11
  have hσ13 : Keeps ps σ σ13 := by
    unfold σ13
    refine Keeps.ite (fun _ => ?_) fun _ => ?_
    · clear_value σ10
      split
      · refine judge_keeps _ _ _ _ (Keeps.sub (by decide) hp) ?_
        exact hσ12
      · exact hσ12
    · exact hσ8
  refine Keeps.ite (fun _ => ?_) fun _ => ?_
  · exact h
  · split
    · extract_lets σ14 σ15 σ16
      have hσ14 : Keeps ps σ σ14 := by
        unfold σ14
        refine Keeps.ite (fun _ => ?_) fun _ => ?_
        · refine inc_keeps _ _ _ (Keeps.sub (by decide) hp) ?_
          exact hσ13
        · exact hσ13
      have hσ16 : Keeps ps σ σ16 := by
        unfold σ16
        refine Keeps.set_trm (hp _ (by decide)) ?_
        exact hσ14
      refine Keeps.ite (fun _ => ?_) fun _ => ?_
      · refine markStale_keeps _ _ (Keeps.sub (by decide) hp) ?_
        exact hσ16
      · refine takeNode_keeps _ _ _ (Keeps.sub (by decide) hp) ?_
        exact hσ16
    · refine markStale_keeps _ _ (Keeps.sub (by decide) hp) ?_
      exact hσ13

theorem execTrmFollowerBurstReceive_keeps (slot : Fin 16) (a : List Byte) (b : List Byte) (ra : DWord) (rb : DWord) (s : State) :
    ∃ τ, execTrmFollowerBurstReceive slot a b ra rb s = .next τ ∧ Keeps [Part.clock, Part.msix, Part.out, Part.reg .stk, Part.reg .tim, Part.reg .trm, Part.rings, Part.stk, Part.trm] s τ := by
  refine Keeps.exec fun ps σ hp h => ?_
  unfold execTrmFollowerBurstReceive
  refine ⟨_, rfl, ?_⟩
  refine followerBurst_keeps _ _ _ _ _ _ (Keeps.sub (by decide) hp) ?_
  exact h

theorem advAdd_keeps {ps : List Part} {σ : State} (b : Bool) (d : Int) (s : State)
    (hp : ∀ p ∈ [Part.reg .trm], p ∈ ps) (h : Keeps ps σ s) : Keeps ps σ (advAdd b d s) := by
  unfold advAdd
  refine wn_keeps _ _ _ (Keeps.sub (by simp) hp) ?_
  exact h

theorem alignBus_keeps {ps : List Part} {σ : State} (b : Bool) (r : Nat) (s : State)
    (hp : ∀ p ∈ [Part.reg .trm, Part.trm], p ∈ ps) (h : Keeps ps σ s) : Keeps ps σ (alignBus b r s) := by
  unfold alignBus
  extract_lets σ1 σ2 σ3 σ4
  have hσ2 : Keeps ps σ σ2 := by
    unfold σ2
    clear_value σ1
    split
    · refine Keeps.ite (fun _ => ?_) fun _ => ?_
      · refine advAdd_keeps _ _ _ (Keeps.sub (by decide) hp) ?_
        exact h
      · exact h
    · exact h
  refine Keeps.set_trm (hp _ (by decide)) ?_
  exact hσ2

theorem takeReport_keeps {ps : List Part} {σ : State} (p : List Byte) (s : State)
    (hp : ∀ q ∈ [Part.reg .trm], q ∈ ps) (h : Keeps ps σ s) : Keeps ps σ (takeReport p s) := by
  unfold takeReport
  extract_lets σ1
  refine Keeps.ite (fun _ => ?_) fun _ => ?_
  · unfold σ1
    refine Keeps.ite (fun _ => ?_) fun _ => ?_
    · refine Keeps.ite (fun _ => ?_) fun _ => ?_
      · exact h
      · extract_lets σ2
        refine advAdd_keeps _ _ _ (Keeps.sub (by decide) hp) ?_
        exact h
    · extract_lets σ3 σ4
      refine advAdd_keeps _ _ _ (Keeps.sub (by decide) hp) ?_
      refine Keeps.ite (fun _ => ?_) fun _ => ?_
      · exact h
      · refine advAdd_keeps _ _ _ (Keeps.sub (by decide) hp) ?_
        exact h
  · exact h

theorem beaconStep_keeps {ps : List Part} {σ : State} (p : List Byte) (k : Nat) (r : Nat) (b : Bool) (s : State)
    (hp : ∀ q ∈ [Part.cal, Part.clk, Part.clock, Part.crk, Part.entries, Part.free, Part.fw, Part.gln, Part.glz, Part.hif, Part.ipl, Part.jobs, Part.kln, Part.memory, Part.mot, Part.msix, Part.out, Part.pif, Part.ports, Part.reg .cal, Part.reg .hif, Part.reg .hlk, Part.reg .iplP, Part.reg .klnC, Part.reg .klnP, Part.reg .motA, Part.reg .pifCh, Part.reg .stk, Part.reg .tilC, Part.reg .tilE, Part.reg .tim, Part.reg .win, Part.rings, Part.sag, Part.stk, Part.thr, Part.til, Part.trm, Part.win], q ∈ ps) (h : Keeps ps σ s) : Keeps ps σ (beaconStep p k r b s) := by
  unfold beaconStep
  extract_lets σ1 σ2 σ3 σ4 σ5 σ6
  have hσ5 : Keeps ps σ σ5 := by
    unfold σ5
    refine updChannel_keeps _ _ _ (Keeps.sub (by decide) hp) ?_
    refine Keeps.set_trm (hp _ (by decide)) ?_
    exact h
  refine Keeps.ite (fun _ => ?_) fun _ => ?_
  · refine Keeps.ite (fun _ => ?_) fun _ => ?_
    · refine wn_keeps _ _ _ (Keeps.sub (by simp) hp) ?_
      exact hσ5
    · refine Keeps.ite (fun _ => ?_) fun _ => ?_
      · exact h
      · refine paceStep_keeps _ _ _ _ _ (Keeps.sub (by decide) hp) ?_
        exact h
  · exact h

theorem beaconTime_keeps {ps : List Part} {σ : State} (p : List Byte) (r : Nat) (b : Bool) (s : State)
    (hp : ∀ q ∈ [Part.clock, Part.msix, Part.out, Part.reg .stk, Part.reg .tim, Part.rings, Part.stk], q ∈ ps) (h : Keeps ps σ s) : Keeps ps σ (beaconTime p r b s) := by
  unfold beaconTime
  refine Keeps.ite (fun _ => ?_) fun _ => ?_
  · exact h
  · refine Keeps.ite (fun _ => ?_) fun _ => ?_
    · extract_lets σ1 σ2
      refine measure_keeps _ _ _ (Keeps.sub (by decide) hp) ?_
      exact h
    · refine measureFails_keeps _ (Keeps.sub (by decide) hp) ?_
      exact h

theorem selectBus_keeps {ps : List Part} {σ : State} (sub : Bool) (frame : Nat) (s : State)
    (hp : ∀ p ∈ [Part.msix, Part.out, Part.reg .stk, Part.reg .trm, Part.rings, Part.stk, Part.trm], p ∈ ps) (h : Keeps ps σ s) : Keeps ps σ (selectBus sub frame s) := by
  unfold selectBus
  refine Keeps.ite (fun _ => ?_) fun _ => ?_
  · extract_lets σ1 σ2
    have hσ1 : Keeps ps σ σ1 := by
      unfold σ1
      refine inc_keeps _ _ _ (Keeps.sub (by decide) hp) ?_
      exact h
    refine Keeps.ite (fun _ => ?_) fun _ => ?_
    · refine raiseIrq_keeps _ _ _ (Keeps.sub (by decide) hp) ?_
      refine event_keeps _ _ _ _ (Keeps.sub (by decide) hp) ?_
      refine Keeps.set_trm (hp _ (by decide)) ?_
      exact hσ1
    · refine Keeps.set_trm (hp _ (by decide)) ?_
      exact hσ1
  · refine Keeps.set_trm (hp _ (by decide)) ?_
    exact h

theorem stepState_keeps {ps : List Part} {σ : State} (muted : Bool) (d : Option Int) (pay : List Byte) (s : State)
    (hp : ∀ p ∈ [Part.msix, Part.out, Part.reg .stk, Part.reg .trm, Part.rings, Part.stk, Part.trm], p ∈ ps) (h : Keeps ps σ s) : Keeps ps σ (stepState muted d pay s) := by
  unfold stepState
  extract_lets σ1 σ2 σ3 σ4 σ5 σ6
  have hσ5 : Keeps ps σ σ5 := by
    unfold σ5
    refine Keeps.set_trm (hp _ (by decide)) ?_
    exact h
  have hσ6 : Keeps ps σ σ6 := by
    unfold σ6
    refine Keeps.ite (fun _ => ?_) fun _ => ?_
    · refine inc_keeps _ _ _ (Keeps.sub (by decide) hp) ?_
      exact hσ5
    · exact hσ5
  split
  · refine Keeps.ite (fun _ => ?_) fun _ => ?_
    · refine setTrm_keeps _ _ (Keeps.sub (by decide) hp) ?_
      refine raiseIrq_keeps _ _ _ (Keeps.sub (by decide) hp) ?_
      refine event_keeps _ _ _ _ (Keeps.sub (by decide) hp) ?_
      exact hσ6
    · exact hσ6
  · refine Keeps.ite (fun _ => ?_) fun _ => ?_
    · refine setTrm_keeps _ _ (Keeps.sub (by decide) hp) ?_
      exact hσ6
    · exact hσ6
  · refine Keeps.ite (fun _ => ?_) fun _ => ?_
    · refine setTrm_keeps _ _ (Keeps.sub (by decide) hp) ?_
      exact hσ6
    · exact hσ6
  · exact hσ6

theorem slotConflict_keeps {ps : List Part} {σ : State} (s : State)
    (hp : ∀ p ∈ [Part.msix, Part.out, Part.reg .stk, Part.reg .trm, Part.rings, Part.stk, Part.trm], p ∈ ps) (h : Keeps ps σ s) : Keeps ps σ (slotConflict s) := by
  unfold slotConflict
  refine Keeps.ite (fun _ => ?_) fun _ => ?_
  · extract_lets σ1 σ2
    have hσ1 : Keeps ps σ σ1 := by
      unfold σ1
      refine setTrm_keeps _ _ (Keeps.sub (by decide) hp) ?_
      exact h
    refine Keeps.ite (fun _ => ?_) fun _ => ?_
    · exact hσ1
    · refine raiseIrq_keeps _ _ _ (Keeps.sub (by decide) hp) ?_
      refine event_keeps _ _ _ _ (Keeps.sub (by decide) hp) ?_
      refine Keeps.set_trm (hp _ (by decide)) ?_
      exact hσ1
  · exact h

theorem takeBeacon_keeps {ps : List Part} {σ : State} (body : List Byte) (b : Bool) (sub : Bool) (ra : Option Nat) (rb : Option Nat) (s0 : State)
    (hp : ∀ p ∈ [Part.cal, Part.clk, Part.clock, Part.crk, Part.entries, Part.free, Part.fw, Part.gln, Part.glz, Part.hif, Part.ipl, Part.jobs, Part.kln, Part.memory, Part.mot, Part.msix, Part.out, Part.pif, Part.ports, Part.reg .cal, Part.reg .hif, Part.reg .hlk, Part.reg .iplP, Part.reg .klnC, Part.reg .klnP, Part.reg .motA, Part.reg .pifCh, Part.reg .stk, Part.reg .tilC, Part.reg .tilE, Part.reg .tim, Part.reg .trm, Part.reg .win, Part.rings, Part.sag, Part.stk, Part.thr, Part.til, Part.trm, Part.win], p ∈ ps) (h : Keeps ps σ s0) : Keeps ps σ (takeBeacon body b sub ra rb s0) := by
  unfold takeBeacon
  extract_lets σ1 σ2 σ3 σ4 σ5 σ6 σ7 σ8 σ9 σ10 σ11 σ12 σ13 σ14 σ15 σ16 σ17 σ18
  have hσ3 : Keeps ps σ σ3 := by
    unfold σ3
    refine advanceTo_keeps _ _ (Keeps.sub (by decide) hp) ?_
    exact h
  have hσ10 : Keeps ps σ σ10 := by
    unfold σ10
    refine Keeps.set_trm (hp _ (by decide)) ?_
    exact hσ3
  have hσ11 : Keeps ps σ σ11 := by
    unfold σ11
    split
    · refine alignBus_keeps _ _ _ (Keeps.sub (by decide) hp) ?_
      exact hσ10
    · exact hσ10
  have hσ12 : Keeps ps σ σ12 := by
    unfold σ12
    split
    · refine alignBus_keeps _ _ _ (Keeps.sub (by decide) hp) ?_
      exact hσ11
    · exact hσ11
  have hσ13 : Keeps ps σ σ13 := by
    unfold σ13
    refine markStale_keeps _ _ (Keeps.sub (by decide) hp) ?_
    refine wn_keeps _ _ _ (Keeps.sub (by decide) hp) ?_
    refine wn_keeps _ _ _ (Keeps.sub (by decide) hp) ?_
    exact hσ12
  have hσ14 : Keeps ps σ σ14 := by
    unfold σ14
    refine slotConflict_keeps _ (Keeps.sub (by decide) hp) ?_
    exact hσ13
  have hσ17 : Keeps ps σ σ17 := by
    unfold σ17
    refine stepState_keeps _ _ _ _ (Keeps.sub (by decide) hp) ?_
    exact hσ14
  have hσ18 : Keeps ps σ σ18 := by
    unfold σ18
    refine takeReport_keeps _ _ (Keeps.sub (by decide) hp) ?_
    refine selectBus_keeps _ _ _ (Keeps.sub (by decide) hp) ?_
    exact hσ17
  refine Keeps.foldl ?_ ?_
  · intro τ19 χ20 hτ21
    refine beaconStep_keeps _ _ _ _ _ (Keeps.sub (by decide) hp) ?_
    exact hτ21
  · refine beaconTime_keeps _ _ _ _ (Keeps.sub (by decide) hp) ?_
    exact hσ18

theorem beaconReceive_keeps {ps : List Part} {σ : State} (a : List Byte) (b : List Byte) (ra : Nat) (rb : Nat) (s : State)
    (hp : ∀ p ∈ [Part.cal, Part.clk, Part.clock, Part.crk, Part.entries, Part.free, Part.fw, Part.gln, Part.glz, Part.hif, Part.ipl, Part.jobs, Part.kln, Part.memory, Part.mot, Part.msix, Part.out, Part.pif, Part.ports, Part.reg .cal, Part.reg .hif, Part.reg .hlk, Part.reg .iplP, Part.reg .klnC, Part.reg .klnP, Part.reg .motA, Part.reg .pifCh, Part.reg .stk, Part.reg .tilC, Part.reg .tilE, Part.reg .tim, Part.reg .trm, Part.reg .win, Part.rings, Part.sag, Part.stk, Part.thr, Part.til, Part.trm, Part.win], p ∈ ps) (h : Keeps ps σ s) : Keeps ps σ (beaconReceive a b ra rb s) := by
  unfold beaconReceive
  extract_lets σ1 σ2 σ3 σ4 σ5
  have hσ4 : Keeps ps σ σ4 := by
    unfold σ4
    unfold σ3
    refine countBad_keeps _ _ _ (Keeps.sub (by decide) hp) ?_
    refine countBad_keeps _ _ _ (Keeps.sub (by decide) hp) ?_
    exact h
  split
  · refine Keeps.ite (fun _ => ?_) fun _ => ?_
    · refine trmConflict_keeps _ _ (Keeps.sub (by decide) hp) ?_
      exact hσ4
    · exact hσ4
  · split
    · refine takeBeacon_keeps _ _ _ _ _ _ (Keeps.sub (by decide) hp) ?_
      exact hσ4
    · exact hσ4
  · split
    · refine takeBeacon_keeps _ _ _ _ _ _ (Keeps.sub (by decide) hp) ?_
      exact hσ4
    · exact hσ4
  · split
    · refine takeBeacon_keeps _ _ _ _ _ _ (Keeps.sub (by decide) hp) ?_
      exact hσ4
    · exact hσ4
  · exact h

theorem execTrmBeaconReceive_keeps (a : List Byte) (b : List Byte) (ra : DWord) (rb : DWord) (s : State) :
    ∃ τ, execTrmBeaconReceive a b ra rb s = .next τ ∧ Keeps [Part.cal, Part.clk, Part.clock, Part.crk, Part.entries, Part.free, Part.fw, Part.gln, Part.glz, Part.hif, Part.ipl, Part.jobs, Part.kln, Part.memory, Part.mot, Part.msix, Part.out, Part.pif, Part.ports, Part.reg .cal, Part.reg .hif, Part.reg .hlk, Part.reg .iplP, Part.reg .klnC, Part.reg .klnP, Part.reg .motA, Part.reg .pifCh, Part.reg .stk, Part.reg .tilC, Part.reg .tilE, Part.reg .tim, Part.reg .trm, Part.reg .win, Part.rings, Part.sag, Part.stk, Part.thr, Part.til, Part.trm, Part.win] s τ := by
  refine Keeps.exec fun ps σ hp h => ?_
  unfold execTrmBeaconReceive
  refine ⟨_, rfl, ?_⟩
  refine beaconReceive_keeps _ _ _ _ _ (Keeps.sub (by decide) hp) ?_
  exact h

theorem beaconMissed_keeps {ps : List Part} {σ : State} (t : Nat) (s : State)
    (hp : ∀ p ∈ [Part.clock, Part.msix, Part.out, Part.reg .stk, Part.reg .tim, Part.reg .trm, Part.rings, Part.stk, Part.trm], p ∈ ps) (h : Keeps ps σ s) : Keeps ps σ (beaconMissed t s) := by
  unfold beaconMissed
  extract_lets σ1 σ2 σ3 σ4 σ5 σ6 σ7
  have hσ2 : Keeps ps σ σ2 := by
    unfold σ2
    refine inc_keeps _ _ _ (Keeps.sub (by decide) hp) ?_
    refine advanceTo_keeps _ _ (Keeps.sub (by decide) hp) ?_
    exact h
  have hσ6 : Keeps ps σ σ6 := by
    unfold σ6
    refine Keeps.set_trm (hp _ (by decide)) ?_
    exact hσ2
  have hσ7 : Keeps ps σ σ7 := by
    unfold σ7
    refine Keeps.ite (fun _ => ?_) fun _ => ?_
    · refine measureFails_keeps _ (Keeps.sub (by decide) hp) ?_
      exact hσ6
    · exact hσ6
  clear_value σ1
  split
  · refine Keeps.ite (fun _ => ?_) fun _ => ?_
    · refine Keeps.ite (fun _ => ?_) fun _ => ?_
      · refine loseBeacons_keeps _ (Keeps.sub (by decide) hp) ?_
        refine setTrm_keeps _ _ (Keeps.sub (by decide) hp) ?_
        exact hσ7
      · exact hσ7
    · exact h
  · exact h

theorem execTrmBeaconMissed_keeps (t : DWord) (s : State) :
    ∃ τ, execTrmBeaconMissed t s = .next τ ∧ Keeps [Part.clock, Part.msix, Part.out, Part.reg .stk, Part.reg .tim, Part.reg .trm, Part.rings, Part.stk, Part.trm] s τ := by
  refine Keeps.exec fun ps σ hp h => ?_
  unfold execTrmBeaconMissed
  refine ⟨_, rfl, ?_⟩
  refine beaconMissed_keeps _ _ (Keeps.sub (by decide) hp) ?_
  exact h

theorem followerSend_keeps {ps : List Part} {σ : State} (s : State)
    (hp : ∀ p ∈ [Part.clock, Part.msix, Part.out, Part.reg .stk, Part.reg .tim, Part.rings, Part.stk, Part.trm], p ∈ ps) (h : Keeps ps σ s) : Keeps ps σ (followerSend s) := by
  unfold followerSend
  refine Keeps.ite (fun _ => ?_) fun _ => ?_
  · split
    · extract_lets σ1 σ2
      have hσ1 : Keeps ps σ σ1 := by
        unfold σ1
        refine advanceTo_keeps _ _ (Keeps.sub (by decide) hp) ?_
        exact h
      refine sendBurst_keeps _ _ _ _ (Keeps.sub (by decide) hp) ?_
      refine Keeps.set_trm (hp _ (by decide)) ?_
      exact hσ1
    · exact h
  · exact h

theorem execTrmFollowerBurstSend_keeps (s : State) :
    ∃ τ, execTrmFollowerBurstSend s = .next τ ∧ Keeps [Part.clock, Part.msix, Part.out, Part.reg .stk, Part.reg .tim, Part.rings, Part.stk, Part.trm] s τ := by
  refine Keeps.exec fun ps σ hp h => ?_
  unfold execTrmFollowerBurstSend
  refine ⟨_, rfl, ?_⟩
  refine followerSend_keeps _ (Keeps.sub (by decide) hp) ?_
  exact h

end Sys2Proof.Machine
end

