-- ==== Sys2Proof/Laws/KeepsAlarm.lean ====
section
/-! SUPPORT. What the operations of Machine/Alarm.lean change, and what they keep. -/

namespace Sys2Proof.Machine
open Sys2Proof

theorem alarmFetch_keeps {ps : List Part} {σ : State} (h : Hdr) (buf : Nat) (len : Nat) (s : State)
    (hp : ∀ p ∈ [Part.fw, Part.msix, Part.out, Part.reg .stk, Part.rings, Part.stk], p ∈ ps) (hs : Keeps ps σ s) : Keeps ps σ (alarmFetch h buf len s) := by
  unfold alarmFetch
  refine output_keeps _ _ _ _ _ _ (Keeps.sub (by decide) hp) ?_
  exact hs

theorem execAlarmFetch_keeps (d : Desc) (buf : DWord) (len : Word) (s : State) :
    ∃ τ, execAlarmFetch d buf len s = .next τ ∧ Keeps [Part.fw, Part.msix, Part.out, Part.reg .hif, Part.reg .stk, Part.rings, Part.stk] s τ := by
  refine Keeps.exec fun ps σ hp h => ?_
  unfold execAlarmFetch
  refine ⟨_, rfl, ?_⟩
  refine query_keeps _ _ _ _ _ ?_ (Keeps.sub (by decide) hp) ?_
  · intro χ1 τ2 hτ3
    refine alarmFetch_keeps _ _ _ _ (Keeps.sub (by decide) hp) ?_
    exact hτ3
  · exact h

theorem alarmAck_keeps {ps : List Part} {σ : State} (h : Hdr) (code : Nat) (s : State)
    (hp : ∀ p ∈ [Part.fw, Part.msix, Part.out, Part.reg .stk, Part.rings, Part.stk], p ∈ ps) (hs : Keeps ps σ s) : Keeps ps σ (alarmAck h code s) := by
  unfold alarmAck
  split
  · refine fail_keeps _ _ _ (Keeps.sub (by decide) hp) ?_
    exact hs
  · refine Keeps.ite (fun _ => ?_) fun _ => ?_
    · refine ok_keeps _ _ _ (Keeps.sub (by decide) hp) ?_
      exact hs
    · refine Keeps.ite (fun _ => ?_) fun _ => ?_
      · refine fail_keeps _ _ _ (Keeps.sub (by decide) hp) ?_
        exact hs
      · refine ok_keeps _ _ _ (Keeps.sub (by decide) hp) ?_
        refine Keeps.set_stk (hp _ (by decide)) ?_
        exact hs

theorem execAlarmAck_keeps (d : Desc) (code : BitVec 16) (s : State) :
    ∃ τ, execAlarmAck d code s = .next τ ∧ Keeps [Part.fw, Part.msix, Part.out, Part.reg .hif, Part.reg .stk, Part.rings, Part.stk] s τ := by
  refine Keeps.exec fun ps σ hp h => ?_
  unfold execAlarmAck
  refine ⟨_, rfl, ?_⟩
  refine command_keeps _ _ _ _ _ _ ?_ (Keeps.sub (by decide) hp) ?_
  · intro χ1 τ2 hτ3
    refine alarmAck_keeps _ _ _ (Keeps.sub (by decide) hp) ?_
    exact hτ3
  · exact h

end Sys2Proof.Machine
end

