-- ==== Sys2Proof/Laws/KeepsTiller.lean ====
section
/-! SUPPORT. What the operations of Machine/Tiller.lean change, and what they keep. -/

namespace Sys2Proof.Machine
open Sys2Proof

theorem noteRun_keeps {ps : List Part} {σ : State} (e : Nat) (r : Nat) (f : BitVec 32) (s : State)
    (hp : ∀ p ∈ [Part.til], p ∈ ps) (h : Keeps ps σ s) : Keeps ps σ (noteRun e r f s) := by
  unfold noteRun
  refine updEngine_keeps _ _ _ (Keeps.sub (by decide) hp) ?_
  exact h

theorem screenLine_keeps {ps : List Part} {σ : State} (p : Nat) (e : Nat) (r : Nat) (t : PlaneTable) (f : BitVec 32) (y : Nat) (slot : Nat) (straddle : Bool) (x : Staged) (s : State)
    (hp : ∀ q ∈ [Part.entries, Part.glz, Part.kln, Part.msix, Part.out, Part.reg .stk, Part.reg .tilE, Part.reg .tly, Part.rings, Part.stk, Part.til, Part.tly, Part.win], q ∈ ps) (h : Keeps ps σ s) : Keeps ps σ (screenLine p e r t f y slot straddle x s) := by
  unfold screenLine
  extract_lets σ1 σ2 σ3 σ4 σ5
  have hσ3 : Keeps ps σ σ3 := by
    unfold σ3
    refine noteRun_keeps _ _ _ _ (Keeps.sub (by decide) hp) ?_
    refine runRowLine_keeps _ _ _ _ _ _ _ _ _ _ (Keeps.sub (by decide) hp) ?_
    exact h
  have hσ4 : Keeps ps σ σ4 := by
    unfold σ4
    refine noteCost_keeps _ _ _ _ (Keeps.sub (by decide) hp) ?_
    refine inc64_keeps _ _ _ (Keeps.sub (by simp) hp) ?_
    exact hσ3
  have hσ5 : Keeps ps σ σ5 := by
    unfold σ5
    refine Keeps.ite (fun _ => ?_) fun _ => ?_
    · refine inc_keeps _ _ _ (Keeps.sub (by simp) hp) ?_
      exact hσ4
    · exact hσ4
  refine Keeps.ite (fun _ => ?_) fun _ => ?_
  · refine lineScreened_keeps _ _ _ _ _ _ (Keeps.sub (by decide) hp) ?_
    exact hσ5
  · exact hσ5

theorem tillerRowLine_keeps {ps : List Part} {σ : State} (e : Nat) (r : Nat) (s : State)
    (hp : ∀ p ∈ [Part.entries, Part.glz, Part.kln, Part.msix, Part.out, Part.reg .stk, Part.reg .tilE, Part.reg .tly, Part.rings, Part.stk, Part.til, Part.tly, Part.win], p ∈ ps) (h : Keeps ps σ s) : Keeps ps σ (tillerRowLine e r s) := by
  unfold tillerRowLine
  split
  · exact h
  · refine Keeps.ite (fun _ => ?_) fun _ => ?_
    · exact h
    · split
      · extract_lets σ1
        refine screenLine_keeps _ _ _ _ _ _ _ _ _ _ (Keeps.sub (by decide) hp) ?_
        exact h
      · exact h

theorem execTillerRowLine_keeps (engine : Fin 128) (row : Fin 4) (s : State) :
    ∃ τ, execTillerRowLine engine row s = .next τ ∧ Keeps [Part.entries, Part.glz, Part.kln, Part.msix, Part.out, Part.reg .stk, Part.reg .tilE, Part.reg .tly, Part.rings, Part.stk, Part.til, Part.tly, Part.win] s τ := by
  refine Keeps.exec fun ps σ hp h => ?_
  unfold execTillerRowLine
  refine ⟨_, rfl, ?_⟩
  refine tillerRowLine_keeps _ _ _ (Keeps.sub (by decide) hp) ?_
  exact h

theorem gapRowLine_keeps {ps : List Part} {σ : State} (e : Nat) (r : Nat) (s : State)
    (hp : ∀ p ∈ [Part.entries, Part.kln, Part.msix, Part.out, Part.reg .stk, Part.reg .tilE, Part.reg .tly, Part.rings, Part.stk, Part.til, Part.tly, Part.win], p ∈ ps) (h : Keeps ps σ s) : Keeps ps σ (gapRowLine e r s) := by
  unfold gapRowLine
  split
  · exact h
  · refine Keeps.ite (fun _ => ?_) fun _ => ?_
    · exact h
    · split
      · extract_lets σ1
        refine noteRun_keeps _ _ _ _ (Keeps.sub (by decide) hp) ?_
        refine runRowLine_keeps _ _ _ _ _ _ _ _ _ _ (Keeps.sub (by decide) hp) ?_
        exact h
      · exact h

theorem execGapRowLine_keeps (engine : Fin 128) (row : Fin 4) (s : State) :
    ∃ τ, execGapRowLine engine row s = .next τ ∧ Keeps [Part.entries, Part.kln, Part.msix, Part.out, Part.reg .stk, Part.reg .tilE, Part.reg .tly, Part.rings, Part.stk, Part.til, Part.tly, Part.win] s τ := by
  refine Keeps.exec fun ps σ hp h => ?_
  unfold execGapRowLine
  refine ⟨_, rfl, ?_⟩
  refine gapRowLine_keeps _ _ _ (Keeps.sub (by decide) hp) ?_
  exact h

theorem fillCodes_keeps {ps : List Part} {σ : State} (p : Nat) (e : Nat) (r : Nat) (x : Fill) (s : State)
    (hp : ∀ q ∈ [Part.entries, Part.kln, Part.msix, Part.out, Part.reg .stk, Part.reg .tilE, Part.reg .tly, Part.rings, Part.stk, Part.til, Part.tly, Part.win], q ∈ ps) (h : Keeps ps σ s) : Keeps ps σ (fillCodes p e r x s) := by
  unfold fillCodes
  extract_lets σ1
  refine Keeps.foldl ?_ ?_
  · intro τ2 χ3 hτ4
    extract_lets σ5 σ6
    refine winCode_keeps _ _ _ _ _ _ _ _ (Keeps.sub (by decide) hp) ?_
    refine stage10_keeps _ _ _ _ _ _ (Keeps.sub (by decide) hp) ?_
    exact hτ4
  · exact h

theorem fillStaging_keeps {ps : List Part} {σ : State} (p : Nat) (h : Nat) (r : Nat) (x : Fill) (s : State)
    (hp : ∀ q ∈ [Part.glz], q ∈ ps) (hs : Keeps ps σ s) : Keeps ps σ (fillStaging p h r x s) := by
  unfold fillStaging
  split
  · split
    · refine lineScreened_keeps _ _ _ _ _ _ (Keeps.sub (by decide) hp) ?_
      exact hs
    · exact hs
  · exact hs

theorem fillRowLine_keeps {ps : List Part} {σ : State} (e : Nat) (r : Nat) (s : State)
    (hp : ∀ p ∈ [Part.entries, Part.glz, Part.kln, Part.msix, Part.out, Part.reg .stk, Part.reg .tilE, Part.reg .tly, Part.rings, Part.stk, Part.til, Part.tly, Part.win], p ∈ ps) (h : Keeps ps σ s) : Keeps ps σ (fillRowLine e r s) := by
  unfold fillRowLine
  extract_lets σ1
  split
  · extract_lets σ2 σ3 σ4 σ5 σ6
    have hσ3 : Keeps ps σ σ3 := by
      unfold σ3
      refine updEngine_keeps _ _ _ (Keeps.sub (by decide) hp) ?_
      refine fillCodes_keeps _ _ _ _ _ (Keeps.sub (by decide) hp) ?_
      exact h
    have hσ6 : Keeps ps σ σ6 := by
      unfold σ6
      refine updRow_keeps _ _ _ _ (Keeps.sub (by decide) hp) ?_
      exact hσ3
    refine Keeps.ite (fun _ => ?_) fun _ => ?_
    · refine fillStaging_keeps _ _ _ _ _ (Keeps.sub (by decide) hp) ?_
      exact hσ6
    · exact hσ6
  · exact h

theorem execFillRowLine_keeps (engine : Fin 128) (row : Fin 4) (s : State) :
    ∃ τ, execFillRowLine engine row s = .next τ ∧ Keeps [Part.entries, Part.glz, Part.kln, Part.msix, Part.out, Part.reg .stk, Part.reg .tilE, Part.reg .tly, Part.rings, Part.stk, Part.til, Part.tly, Part.win] s τ := by
  refine Keeps.exec fun ps σ hp h => ?_
  unfold execFillRowLine
  refine ⟨_, rfl, ?_⟩
  refine fillRowLine_keeps _ _ _ (Keeps.sub (by decide) hp) ?_
  exact h

theorem dec64_keeps {ps : List Part} {σ : State} (k : Nat) (n : Nat) (s : State)
    (hp : ∀ p ∈ [Part.reg (keyKind (k + 4)), Part.reg (keyKind k)], p ∈ ps) (h : Keeps ps σ s) : Keeps ps σ (dec64 k n s) := by
  unfold dec64
  refine wn64_keeps _ _ _ (Keeps.sub (by simp) hp) ?_
  exact h

theorem uncount_keeps {ps : List Part} {σ : State} (e : Nat) (u : Undo) (s : State)
    (hp : ∀ p ∈ [Part.reg .tilE], p ∈ ps) (h : Keeps ps σ s) : Keeps ps σ (uncount e u s) := by
  unfold uncount
  refine Keeps.ite (fun _ => ?_) fun _ => ?_
  · extract_lets σ1
    have hσ1 : Keeps ps σ σ1 := by
      unfold σ1
      refine dec64_keeps _ _ _ (Keeps.sub (by simp) hp) ?_
      refine dec64_keeps _ _ _ (Keeps.sub (by simp) hp) ?_
      exact h
    refine Keeps.ite (fun _ => ?_) fun _ => ?_
    · refine wn_keeps _ _ _ (Keeps.sub (by simp) hp) ?_
      exact hσ1
    · exact hσ1
  · refine Keeps.ite (fun _ => ?_) fun _ => ?_
    · refine dec64_keeps _ _ _ (Keeps.sub (by simp) hp) ?_
      exact h
    · exact h

theorem undoEntry_keeps {ps : List Part} {σ : State} (e : Nat) (r : Nat) (f : BitVec 32) (u : Undo) (s : State)
    (hp : ∀ p ∈ [Part.entries, Part.reg .tilE, Part.til], p ∈ ps) (h : Keeps ps σ s) : Keeps ps σ (undoEntry e r f u s) := by
  unfold undoEntry
  extract_lets σ1 σ2 σ3 σ4 σ5
  have hσ2 : Keeps ps σ σ2 := by
    unfold σ2
    refine uncount_keeps _ _ _ (Keeps.sub (by decide) hp) ?_
    exact h
  refine Keeps.ite (fun _ => ?_) fun _ => ?_
  · refine putEntry_keeps _ _ _ (Keeps.sub (by decide) hp) ?_
    refine Keeps.ite (fun _ => ?_) fun _ => ?_
    · exact hσ2
    · refine noteChanged_keeps _ _ (Keeps.sub (by decide) hp) ?_
      exact hσ2
  · exact hσ2

theorem underrunReversal_keeps {ps : List Part} {σ : State} (e : Nat) (r : Nat) (s : State)
    (hp : ∀ p ∈ [Part.entries, Part.kln, Part.reg .tilE, Part.til], p ∈ ps) (h : Keeps ps σ s) : Keeps ps σ (underrunReversal e r s) := by
  unfold underrunReversal
  extract_lets σ1
  split
  · extract_lets σ2 σ3 σ4 σ5
    have hσ3 : Keeps ps σ σ3 := by
      unfold σ3
      refine Keeps.foldl ?_ ?_
      · intro τ6 χ7 hτ8
        refine undoEntry_keeps _ _ _ _ _ (Keeps.sub (by decide) hp) ?_
        exact hτ8
      · exact h
    refine updRow_keeps _ _ _ _ (Keeps.sub (by decide) hp) ?_
    exact hσ3
  · exact h

theorem execUnderrunReversal_keeps (engine : Fin 128) (row : Fin 4) (s : State) :
    ∃ τ, execUnderrunReversal engine row s = .next τ ∧ Keeps [Part.entries, Part.kln, Part.reg .tilE, Part.til] s τ := by
  refine Keeps.exec fun ps σ hp h => ?_
  unfold execUnderrunReversal
  refine ⟨_, rfl, ?_⟩
  refine underrunReversal_keeps _ _ _ (Keeps.sub (by decide) hp) ?_
  exact h

theorem entryRestore_keeps {ps : List Part} {σ : State} (i : Nat) (s : State)
    (hp : ∀ p ∈ [Part.cal, Part.crk, Part.entries, Part.fw, Part.gln, Part.glz, Part.jobs, Part.kln, Part.ports, Part.reg .cal, Part.thr, Part.til], p ∈ ps) (h : Keeps ps σ s) : Keeps ps σ (entryRestore i s) := by
  unfold entryRestore
  refine Keeps.ite (fun _ => ?_) fun _ => ?_
  · exact h
  · extract_lets σ1 σ2 σ3
    have hσ3 : Keeps ps σ σ3 := by
      unfold σ3
      refine Keeps.set_til rfl (Or.inr ⟨rfl, rfl⟩) (Or.inl (hp _ (by decide))) ?_
      exact h
    refine idleEntries_keeps _ _ (Keeps.sub (by decide) hp) ?_
    refine Keeps.ite (fun _ => ?_) fun _ => ?_
    · exact hσ3
    · refine startFill_keeps _ _ (Keeps.sub (by decide) hp) ?_
      exact hσ3

theorem execEntryRestore_keeps (nozzle : Fin 262144) (s : State) :
    ∃ τ, execEntryRestore nozzle s = .next τ ∧ Keeps [Part.cal, Part.crk, Part.entries, Part.fw, Part.gln, Part.glz, Part.jobs, Part.kln, Part.ports, Part.reg .cal, Part.thr, Part.til] s τ := by
  refine Keeps.exec fun ps σ hp h => ?_
  unfold execEntryRestore
  refine ⟨_, rfl, ?_⟩
  refine entryRestore_keeps _ _ (Keeps.sub (by decide) hp) ?_
  exact h

theorem tillerSweep_keeps {ps : List Part} {σ : State} (i : Nat) (s : State)
    (hp : ∀ p ∈ [Part.entries], p ∈ ps) (h : Keeps ps σ s) : Keeps ps σ (tillerSweep i s) := by
  unfold tillerSweep
  split
  · extract_lets σ1 σ2
    refine Keeps.ite (fun _ => ?_) fun _ => ?_
    · refine putEntry_keeps _ _ _ (Keeps.sub (by decide) hp) ?_
      exact h
    · exact h
  · exact h

theorem execTillerSweep_keeps (nozzle : Fin 262144) (s : State) :
    ∃ τ, execTillerSweep nozzle s = .next τ ∧ Keeps [Part.entries] s τ := by
  refine Keeps.exec fun ps σ hp h => ?_
  unfold execTillerSweep
  refine ⟨_, rfl, ?_⟩
  refine tillerSweep_keeps _ _ (Keeps.sub (by decide) hp) ?_
  exact h

theorem setThrottle_keeps {ps : List Part} {σ : State} (e : Nat) (on : Bool) (s : State)
    (hp : ∀ p ∈ [Part.msix, Part.out, Part.reg .stk, Part.reg .tilC, Part.reg .tilE, Part.rings, Part.stk, Part.til], p ∈ ps) (h : Keeps ps σ s) : Keeps ps σ (setThrottle e on s) := by
  unfold setThrottle
  refine Keeps.ite (fun _ => ?_) fun _ => ?_
  · exact h
  · extract_lets σ1 σ2 σ3 σ4
    have hσ1 : Keeps ps σ σ1 := by
      unfold σ1
      refine updEngine_keeps _ _ _ (Keeps.sub (by decide) hp) ?_
      exact h
    have hσ2 : Keeps ps σ σ2 := by
      unfold σ2
      refine Keeps.ite (fun _ => ?_) fun _ => ?_
      · refine inc_keeps _ _ _ (Keeps.sub (by simp) hp) ?_
        exact hσ1
      · exact hσ1
    refine raiseIrq_keeps _ _ _ (Keeps.sub (by decide) hp) ?_
    refine event_keeps _ _ _ _ (Keeps.sub (by decide) hp) ?_
    refine Keeps.set_til rfl (Or.inr ⟨rfl, rfl⟩) (Or.inl (hp _ (by decide))) ?_
    exact hσ2

theorem execTillerComparatorTrip_keeps (engine : Fin 128) (s : State) :
    ∃ τ, execTillerComparatorTrip engine s = .next τ ∧ Keeps [Part.msix, Part.out, Part.reg .stk, Part.reg .tilC, Part.reg .tilE, Part.rings, Part.stk, Part.til] s τ := by
  refine Keeps.exec fun ps σ hp h => ?_
  unfold execTillerComparatorTrip
  refine ⟨_, rfl, ?_⟩
  refine setThrottle_keeps _ _ _ (Keeps.sub (by decide) hp) ?_
  exact h

theorem execTillerThrottleEnd_keeps (engine : Fin 128) (s : State) :
    ∃ τ, execTillerThrottleEnd engine s = .next τ ∧ Keeps [Part.msix, Part.out, Part.reg .stk, Part.reg .tilC, Part.reg .tilE, Part.rings, Part.stk, Part.til] s τ := by
  refine Keeps.exec fun ps σ hp h => ?_
  unfold execTillerThrottleEnd
  refine ⟨_, rfl, ?_⟩
  refine setThrottle_keeps _ _ _ (Keeps.sub (by decide) hp) ?_
  exact h

theorem autoSplit_keeps {ps : List Part} {σ : State} (h : Nat) (s : State)
    (hp : ∀ p ∈ [Part.fw, Part.ipl, Part.kln, Part.memory, Part.msix, Part.out, Part.reg .cal, Part.reg .klnC, Part.reg .klnP, Part.reg .stk, Part.reg .tilC, Part.reg .tilE, Part.rings, Part.stk, Part.til], p ∈ ps) (hs : Keeps ps σ s) : Keeps ps σ (autoSplit h s) := by
  unfold autoSplit
  refine Keeps.ite (fun _ => ?_) fun _ => ?_
  · extract_lets σ1 σ2 σ3 σ4 σ5 σ6
    have hσ2 : Keeps ps σ σ2 := by
      unfold σ2
      refine Keeps.set_til rfl (Or.inr ⟨rfl, rfl⟩) (Or.inl (hp _ (by decide))) ?_
      exact hs
    have hσ5 : Keeps ps σ σ5 := by
      unfold σ5
      refine Keeps.set_til rfl (Or.inr ⟨rfl, rfl⟩) (Or.inl (hp _ (by decide))) ?_
      exact hσ2
    split
    · split
      · refine Keeps.ite (fun _ => ?_) fun _ => ?_
        · refine Keeps.ite (fun _ => ?_) fun _ => ?_
          · exact hσ5
          · refine rwsWrite_keeps _ _ _ _ (Keeps.sub (by simp +zetaDelta) hp) ?_
            exact hσ5
        · refine rwsWrite_keeps _ _ _ _ (Keeps.sub (by simp +zetaDelta) hp) ?_
          refine Keeps.set_til rfl (Or.inr ⟨rfl, rfl⟩) (Or.inl (hp _ (by decide))) ?_
          exact hσ5
      · exact hσ2
    · exact hσ2
  · exact hs

theorem execAutoSplit_keeps (head : Fin 64) (s : State) :
    ∃ τ, execAutoSplit head s = .next τ ∧ Keeps [Part.fw, Part.ipl, Part.kln, Part.memory, Part.msix, Part.out, Part.reg .cal, Part.reg .klnC, Part.reg .klnP, Part.reg .stk, Part.reg .tilC, Part.reg .tilE, Part.rings, Part.stk, Part.til] s τ := by
  refine Keeps.exec fun ps σ hp h => ?_
  unfold execAutoSplit
  refine ⟨_, rfl, ?_⟩
  refine autoSplit_keeps _ _ (Keeps.sub (by decide) hp) ?_
  exact h

theorem splitBarWrite_keeps {ps : List Part} {σ : State} (v : Word) (s : State)
    (hp : ∀ p ∈ [Part.fw, Part.ipl, Part.kln, Part.memory, Part.msix, Part.out, Part.reg .cal, Part.reg .klnC, Part.reg .stk, Part.reg .tilC, Part.reg .tilE, Part.rings, Part.stk, Part.til], p ∈ ps) (h : Keeps ps σ s) : Keeps ps σ (splitBarWrite v s) := by
  unfold splitBarWrite
  extract_lets σ1 σ2
  refine Keeps.ite (fun _ => ?_) fun _ => ?_
  · refine Keeps.ite (fun _ => ?_) fun _ => ?_
    · refine pendPage_keeps _ _ (Keeps.sub (by decide) hp) ?_
      refine wn_keeps _ _ _ (Keeps.sub (by simp +zetaDelta) hp) ?_
      exact h
    · refine recordErr_keeps _ _ _ (Keeps.sub (by decide) hp) ?_
      exact h
  · refine wf_keeps _ _ _ _ _ (Keeps.sub (by simp +zetaDelta) hp) ?_
    exact h

theorem execTilSplitBarWrite_keeps (ini : Initiator) (val : Word) (s : State) :
    ∃ τ, execTilSplitBarWrite ini val s = .next τ ∧ Keeps [Part.fw, Part.ipl, Part.kln, Part.memory, Part.msix, Part.out, Part.reg .cal, Part.reg .hif, Part.reg .klnC, Part.reg .stk, Part.reg .tilC, Part.reg .tilE, Part.rings, Part.stk, Part.til] s τ := by
  refine Keeps.exec fun ps σ hp h => ?_
  unfold execTilSplitBarWrite
  refine ⟨_, rfl, ?_⟩
  refine guardWrite_keeps _ _ _ _ _ _ ?_ (Keeps.sub (by decide) hp) ?_
  · intro χ1 τ2 hτ3
    refine splitBarWrite_keeps _ _ (Keeps.sub (by decide) hp) ?_
    exact hτ3
  · exact h

end Sys2Proof.Machine
end

