-- ==== Sys2Proof/Laws/KeepsPlanes.lean ====
section
/-! SUPPORT. What the operations of Machine/Planes.lean change, and what they keep. -/

namespace Sys2Proof.Machine
open Sys2Proof

theorem bodyNozzleRead_keeps {ps : List Part} {σ : State} (h : Hdr) (first : Nat) (count : Nat) (addr : Nat) (len : Nat) (s : State)
    (hp : ∀ p ∈ [Part.fw, Part.msix, Part.out, Part.reg .stk, Part.rings, Part.stk], p ∈ ps) (hs : Keeps ps σ s) : Keeps ps σ (bodyNozzleRead h first count addr len s) := by
  unfold bodyNozzleRead
  refine Keeps.ite (fun _ => ?_) fun _ => ?_
  · refine fail_keeps _ _ _ (Keeps.sub (by decide) hp) ?_
    exact hs
  · extract_lets σ1
    refine Keeps.ite (fun _ => ?_) fun _ => ?_
    · refine fail_keeps _ _ _ (Keeps.sub (by decide) hp) ?_
      exact hs
    · refine output_keeps _ _ _ _ _ _ (Keeps.sub (by decide) hp) ?_
      exact hs

theorem execNozzleRead_keeps (d : Desc) (first : Word) (count : BitVec 16) (buf : DWord) (len : Word) (s : State) :
    ∃ τ, execNozzleRead d first count buf len s = .next τ ∧ Keeps [Part.fw, Part.msix, Part.out, Part.reg .hif, Part.reg .stk, Part.rings, Part.stk] s τ := by
  refine Keeps.exec fun ps σ hp h => ?_
  unfold execNozzleRead
  refine ⟨_, rfl, ?_⟩
  refine command_keeps _ _ _ _ _ _ ?_ (Keeps.sub (by decide) hp) ?_
  · intro χ1 τ2 hτ3
    refine bodyNozzleRead_keeps _ _ _ _ _ _ (Keeps.sub (by decide) hp) ?_
    exact hτ3
  · exact h

theorem nozzleWrite_keeps {ps : List Part} {σ : State} (h : Hdr) (c : Instr) (x : Stream) (s : State)
    (hp : ∀ p ∈ [Part.cal, Part.crk, Part.entries, Part.fw, Part.gln, Part.glz, Part.jobs, Part.kln, Part.msix, Part.out, Part.ports, Part.reg .cal, Part.reg .stk, Part.rings, Part.stk, Part.thr, Part.til], p ∈ ps) (hs : Keeps ps σ s) : Keeps ps σ (nozzleWrite h c x s) := by
  unfold nozzleWrite
  split
  · refine fail_keeps _ _ _ (Keeps.sub (by decide) hp) ?_
    exact hs
  · refine Keeps.ite (fun _ => ?_) fun _ => ?_
    · refine fail_keeps _ _ _ (Keeps.sub (by decide) hp) ?_
      exact hs
    · extract_lets σ1 σ2 σ3 σ4 σ5 σ6 σ7 σ8
      have hσ7 : Keeps ps σ σ7 := by
        unfold σ7
        refine park_keeps _ _ (Keeps.sub (by decide) hp) ?_
        refine Keeps.set_til rfl (Or.inr ⟨rfl, rfl⟩) (Or.inl (hp _ (by decide))) ?_
        exact hs
      have hσ8 : Keeps ps σ σ8 := by
        unfold σ8
        refine Keeps.foldl ?_ ?_
        · intro τ12 χ13 hτ14
          refine startFill_keeps _ _ (Keeps.sub (by decide) hp) ?_
          exact hτ14
        · exact hσ7
      refine Keeps.foldl ?_ ?_
      · intro τ9 χ10 hτ11
        refine idleEntries_keeps _ _ (Keeps.sub (by decide) hp) ?_
        exact hτ11
      · exact hσ8

theorem bodyNozzleWrite_keeps {ps : List Part} {σ : State} (h : Hdr) (c : Instr) (handle : Nat) (s : State)
    (hp : ∀ p ∈ [Part.cal, Part.crk, Part.entries, Part.fw, Part.gln, Part.glz, Part.jobs, Part.kln, Part.msix, Part.out, Part.ports, Part.reg .cal, Part.reg .stk, Part.rings, Part.stk, Part.thr, Part.til], p ∈ ps) (hs : Keeps ps σ s) : Keeps ps σ (bodyNozzleWrite h c handle s) := by
  unfold bodyNozzleWrite
  refine withStream_keeps _ _ _ _ _ _ _ ?_ (Keeps.sub (by decide) hp) ?_
  · intro χ1 τ2 hτ3
    refine nozzleWrite_keeps _ _ _ _ (Keeps.sub (by decide) hp) ?_
    exact hτ3
  · exact hs

theorem execNozzleWrite_keeps (d : Desc) (handle : Word) (s : State) :
    ∃ τ, execNozzleWrite d handle s = .next τ ∧ Keeps [Part.cal, Part.crk, Part.entries, Part.fw, Part.gln, Part.glz, Part.jobs, Part.kln, Part.msix, Part.out, Part.ports, Part.reg .cal, Part.reg .hif, Part.reg .stk, Part.rings, Part.stk, Part.thr, Part.til] s τ := by
  refine Keeps.exec fun ps σ hp h => ?_
  unfold execNozzleWrite
  refine ⟨_, rfl, ?_⟩
  refine command_keeps _ _ _ _ _ _ ?_ (Keeps.sub (by decide) hp) ?_
  · intro χ1 τ2 hτ3
    refine bodyNozzleWrite_keeps _ _ _ _ (Keeps.sub (by decide) hp) ?_
    exact hτ3
  · exact h

theorem nozzleWriteDone_keeps {ps : List Part} {σ : State} (seq : Nat) (s : State)
    (hp : ∀ p ∈ [Part.crk, Part.fw, Part.msix, Part.out, Part.reg .stk, Part.rings, Part.stk], p ∈ ps) (h : Keeps ps σ s) : Keeps ps σ (nozzleWriteDone seq s) := by
  unfold nozzleWriteDone
  split
  · extract_lets σ1 σ2
    refine Keeps.ite (fun _ => ?_) fun _ => ?_
    · refine Keeps.ite (fun _ => ?_) fun _ => ?_
      · refine fail_keeps _ _ _ (Keeps.sub (by decide) hp) ?_
        refine Keeps.set_crk (hp _ (by decide)) ?_
        exact h
      · refine complete_keeps _ _ _ _ (Keeps.sub (by decide) hp) ?_
        exact h
    · exact h
  · exact h

theorem execNozzleWriteDone_keeps (seq : Nat) (s : State) :
    ∃ τ, execNozzleWriteDone seq s = .next τ ∧ Keeps [Part.crk, Part.fw, Part.msix, Part.out, Part.reg .stk, Part.rings, Part.stk] s τ := by
  refine Keeps.exec fun ps σ hp h => ?_
  unfold execNozzleWriteDone
  refine ⟨_, rfl, ?_⟩
  refine nozzleWriteDone_keeps _ _ (Keeps.sub (by decide) hp) ?_
  exact h

theorem barChange_keeps {ps : List Part} {σ : State} (h : Hdr) (c : Instr) (write : State → State) (s : State)
    (h_write : ∀ (t : State), Keeps ps σ t → Keeps ps σ (write t))
    (hp : ∀ p ∈ [Part.fw, Part.ipl, Part.kln, Part.memory, Part.msix, Part.out, Part.reg .cal, Part.reg .klnC, Part.reg .stk, Part.reg .tilC, Part.reg .tilE, Part.rings, Part.stk, Part.til], p ∈ ps) (hs : Keeps ps σ s) : Keeps ps σ (barChange h c write s) := by
  unfold barChange
  extract_lets σ1 σ2
  have hσ2 : Keeps ps σ σ2 := by
    unfold σ2
    refine setCmdHold_keeps _ _ _ (Keeps.sub (by decide) hp) ?_
    refine h_write _ ?_
    refine setCmdHold_keeps _ _ _ (Keeps.sub (by decide) hp) ?_
    refine park_keeps _ _ (Keeps.sub (by decide) hp) ?_
    exact hs
  refine Keeps.ite (fun _ => ?_) fun _ => ?_
  · exact hσ2
  · refine armBar_keeps _ (Keeps.sub (by decide) hp) ?_
    exact hσ2

theorem curveLoad_keeps {ps : List Part} {σ : State} (h : Hdr) (c : Instr) (first : Nat) (count : Nat) (x : Stream) (s : State)
    (hp : ∀ p ∈ [Part.fw, Part.ipl, Part.kln, Part.memory, Part.msix, Part.out, Part.reg .cal, Part.reg .klnC, Part.reg .stk, Part.reg .tilC, Part.reg .tilE, Part.rings, Part.stk, Part.til], p ∈ ps) (hs : Keeps ps σ s) : Keeps ps σ (curveLoad h c first count x s) := by
  unfold curveLoad
  extract_lets σ1
  refine Keeps.ite (fun _ => ?_) fun _ => ?_
  · refine fail_keeps _ _ _ (Keeps.sub (by decide) hp) ?_
    exact hs
  · refine barChange_keeps _ _ _ _ ?_ (Keeps.sub (by decide) hp) ?_
    · intro τ2 hτ3
      refine Keeps.foldl ?_ ?_
      · intro τ4 χ5 hτ6
        refine Keeps.set_til rfl (Or.inr ⟨rfl, rfl⟩) (Or.inl (hp _ (by decide))) ?_
        exact hτ6
      · exact hτ3
    · exact hs

theorem bodyCurveLoad_keeps {ps : List Part} {σ : State} (h : Hdr) (c : Instr) (first : Nat) (count : Nat) (handle : Nat) (s : State)
    (hp : ∀ p ∈ [Part.fw, Part.ipl, Part.kln, Part.memory, Part.msix, Part.out, Part.reg .cal, Part.reg .klnC, Part.reg .stk, Part.reg .tilC, Part.reg .tilE, Part.rings, Part.stk, Part.til], p ∈ ps) (hs : Keeps ps σ s) : Keeps ps σ (bodyCurveLoad h c first count handle s) := by
  unfold bodyCurveLoad
  refine Keeps.ite (fun _ => ?_) fun _ => ?_
  · refine fail_keeps _ _ _ (Keeps.sub (by decide) hp) ?_
    exact hs
  · refine withStream_keeps _ _ _ _ _ _ _ ?_ (Keeps.sub (by decide) hp) ?_
    · intro χ1 τ2 hτ3
      refine curveLoad_keeps _ _ _ _ _ _ (Keeps.sub (by decide) hp) ?_
      exact hτ3
    · exact hs

theorem execCurveLoad_keeps (d : Desc) (first : BitVec 16) (count : BitVec 16) (handle : Word) (s : State) :
    ∃ τ, execCurveLoad d first count handle s = .next τ ∧ Keeps [Part.fw, Part.ipl, Part.kln, Part.memory, Part.msix, Part.out, Part.reg .cal, Part.reg .hif, Part.reg .klnC, Part.reg .stk, Part.reg .tilC, Part.reg .tilE, Part.rings, Part.stk, Part.til] s τ := by
  refine Keeps.exec fun ps σ hp h => ?_
  unfold execCurveLoad
  refine ⟨_, rfl, ?_⟩
  refine command_keeps _ _ _ _ _ _ ?_ (Keeps.sub (by decide) hp) ?_
  · intro χ1 τ2 hτ3
    refine bodyCurveLoad_keeps _ _ _ _ _ _ (Keeps.sub (by decide) hp) ?_
    exact hτ3
  · exact h

theorem threshLoad_keeps {ps : List Part} {σ : State} (h : Hdr) (c : Instr) (a : Nat) (x : Stream) (s : State)
    (hp : ∀ p ∈ [Part.fw, Part.ipl, Part.kln, Part.memory, Part.msix, Part.out, Part.reg .cal, Part.reg .klnC, Part.reg .stk, Part.reg .tilC, Part.reg .tilE, Part.rings, Part.stk, Part.til], p ∈ ps) (hs : Keeps ps σ s) : Keeps ps σ (threshLoad h c a x s) := by
  unfold threshLoad
  refine Keeps.ite (fun _ => ?_) fun _ => ?_
  · refine fail_keeps _ _ _ (Keeps.sub (by decide) hp) ?_
    exact hs
  · refine barChange_keeps _ _ _ _ ?_ (Keeps.sub (by decide) hp) ?_
    · intro τ1 hτ2
      refine Keeps.set_til rfl (Or.inr ⟨rfl, rfl⟩) (Or.inl (hp _ (by decide))) ?_
      exact hτ2
    · exact hs

theorem bodyThreshLoad_keeps {ps : List Part} {σ : State} (h : Hdr) (c : Instr) (a : Nat) (handle : Nat) (s : State)
    (hp : ∀ p ∈ [Part.fw, Part.ipl, Part.kln, Part.memory, Part.msix, Part.out, Part.reg .cal, Part.reg .klnC, Part.reg .stk, Part.reg .tilC, Part.reg .tilE, Part.rings, Part.stk, Part.til], p ∈ ps) (hs : Keeps ps σ s) : Keeps ps σ (bodyThreshLoad h c a handle s) := by
  unfold bodyThreshLoad
  refine Keeps.ite (fun _ => ?_) fun _ => ?_
  · refine fail_keeps _ _ _ (Keeps.sub (by decide) hp) ?_
    exact hs
  · refine withStream_keeps _ _ _ _ _ _ _ ?_ (Keeps.sub (by decide) hp) ?_
    · intro χ1 τ2 hτ3
      refine threshLoad_keeps _ _ _ _ _ (Keeps.sub (by decide) hp) ?_
      exact hτ3
    · exact hs

theorem execThreshLoad_keeps (d : Desc) (array : BitVec 8) (handle : Word) (s : State) :
    ∃ τ, execThreshLoad d array handle s = .next τ ∧ Keeps [Part.fw, Part.ipl, Part.kln, Part.memory, Part.msix, Part.out, Part.reg .cal, Part.reg .hif, Part.reg .klnC, Part.reg .stk, Part.reg .tilC, Part.reg .tilE, Part.rings, Part.stk, Part.til] s τ := by
  refine Keeps.exec fun ps σ hp h => ?_
  unfold execThreshLoad
  refine ⟨_, rfl, ?_⟩
  refine command_keeps _ _ _ _ _ _ ?_ (Keeps.sub (by decide) hp) ?_
  · intro χ1 τ2 hτ3
    refine bodyThreshLoad_keeps _ _ _ _ _ (Keeps.sub (by decide) hp) ?_
    exact hτ3
  · exact h

theorem kernelSelect_keeps {ps : List Part} {σ : State} (h : Hdr) (c : Instr) (p : Nat) (k : Nat) (bs : List Byte) (s : State)
    (hp : ∀ q ∈ [Part.fw, Part.ipl, Part.kln, Part.memory, Part.msix, Part.out, Part.reg .cal, Part.reg .klnC, Part.reg .klnP, Part.reg .stk, Part.reg .tilC, Part.reg .tilE, Part.rings, Part.stk, Part.til], q ∈ ps) (hs : Keeps ps σ s) : Keeps ps σ (kernelSelect h c p k bs s) := by
  unfold kernelSelect
  refine Keeps.ite (fun _ => ?_) fun _ => ?_
  · refine fail_keeps _ _ _ (Keeps.sub (by decide) hp) ?_
    exact hs
  · refine Keeps.ite (fun _ => ?_) fun _ => ?_
    · refine fail_keeps _ _ _ (Keeps.sub (by decide) hp) ?_
      exact hs
    · extract_lets σ1
      refine cmdLatch_keeps _ _ _ _ _ _ _ ?_ ?_ (Keeps.sub (by decide) hp) ?_
      · (intro n hn; obtain ⟨a, -, rfl⟩ := List.mem_map.mp hn; simp [hp]; done)
      · intro τ2 hτ3
        refine Keeps.foldl ?_ ?_
        · intro τ4 χ5 hτ6
          refine cmdShadowN_keeps _ _ _ (Keeps.sub (by simp) hp) ?_
          refine cmdShadowN_keeps _ _ _ (Keeps.sub (by simp) hp) ?_
          refine cmdShadowN_keeps _ _ _ (Keeps.sub (by simp) hp) ?_
          refine cmdShadowN_keeps _ _ _ (Keeps.sub (by simp) hp) ?_
          exact hτ6
        · exact hτ3
      · exact hs

theorem bodyKernelSelect_keeps {ps : List Part} {σ : State} (h : Hdr) (c : Instr) (p : Nat) (k : Nat) (handle : Nat) (s : State)
    (hp : ∀ q ∈ [Part.fw, Part.ipl, Part.kln, Part.memory, Part.msix, Part.out, Part.reg .cal, Part.reg .klnC, Part.reg .klnP, Part.reg .stk, Part.reg .tilC, Part.reg .tilE, Part.rings, Part.stk, Part.til], q ∈ ps) (hs : Keeps ps σ s) : Keeps ps σ (bodyKernelSelect h c p k handle s) := by
  unfold bodyKernelSelect
  refine Keeps.ite (fun _ => ?_) fun _ => ?_
  · refine fail_keeps _ _ _ (Keeps.sub (by decide) hp) ?_
    exact hs
  · refine Keeps.ite (fun _ => ?_) fun _ => ?_
    · refine fail_keeps _ _ _ (Keeps.sub (by decide) hp) ?_
      exact hs
    · refine Keeps.ite (fun _ => ?_) fun _ => ?_
      · refine kernelSelect_keeps _ _ _ _ _ _ (Keeps.sub (by decide) hp) ?_
        exact hs
      · refine withStream_keeps _ _ _ _ _ _ _ ?_ (Keeps.sub (by decide) hp) ?_
        · intro χ1 τ2 hτ3
          refine kernelSelect_keeps _ _ _ _ _ _ (Keeps.sub (by decide) hp) ?_
          exact hτ3
        · exact hs

theorem execKernelSelect_keeps (d : Desc) (plane : BitVec 8) (kernel : BitVec 8) (handle : Word) (s : State) :
    ∃ τ, execKernelSelect d plane kernel handle s = .next τ ∧ Keeps [Part.fw, Part.ipl, Part.kln, Part.memory, Part.msix, Part.out, Part.reg .cal, Part.reg .hif, Part.reg .klnC, Part.reg .klnP, Part.reg .stk, Part.reg .tilC, Part.reg .tilE, Part.rings, Part.stk, Part.til] s τ := by
  refine Keeps.exec fun ps σ hp h => ?_
  unfold execKernelSelect
  refine ⟨_, rfl, ?_⟩
  refine command_keeps _ _ _ _ _ _ ?_ (Keeps.sub (by decide) hp) ?_
  · intro χ1 τ2 hτ3
    refine bodyKernelSelect_keeps _ _ _ _ _ _ (Keeps.sub (by decide) hp) ?_
    exact hτ3
  · exact h

theorem bodySplitMove_keeps {ps : List Part} {σ : State} (h : Hdr) (c : Instr) (g : Nat) (v : Nat) (s : State)
    (hp : ∀ p ∈ [Part.fw, Part.ipl, Part.kln, Part.memory, Part.msix, Part.out, Part.reg .cal, Part.reg .klnC, Part.reg .klnP, Part.reg .stk, Part.reg .tilC, Part.reg .tilE, Part.rings, Part.stk, Part.til], p ∈ ps) (hs : Keeps ps σ s) : Keeps ps σ (bodySplitMove h c g v s) := by
  unfold bodySplitMove
  refine Keeps.ite (fun _ => ?_) fun _ => ?_
  · refine fail_keeps _ _ _ (Keeps.sub (by decide) hp) ?_
    exact hs
  · refine Keeps.ite (fun _ => ?_) fun _ => ?_
    · refine fail_keeps _ _ _ (Keeps.sub (by decide) hp) ?_
      exact hs
    · refine Keeps.ite (fun _ => ?_) fun _ => ?_
      · refine fail_keeps _ _ _ (Keeps.sub (by decide) hp) ?_
        exact hs
      · extract_lets σ1 σ2 σ3
        have hσ3 : Keeps ps σ σ3 := by
          unfold σ3
          refine Keeps.set_til rfl (Or.inr ⟨rfl, rfl⟩) (Or.inl (hp _ (by decide))) ?_
          exact hs
        refine cmdLatch_keeps _ _ _ _ _ _ _ ?_ ?_ (Keeps.sub (by decide) hp) ?_
        · (simp +zetaDelta [hp]; done)
        · intro τ4 hτ5
          refine cmdShadowN_keeps _ _ _ (Keeps.sub (by simp +zetaDelta) hp) ?_
          exact hτ5
        · exact hσ3

theorem execSplitMove_keeps (d : Desc) (head : BitVec 8) (split : BitVec 16) (s : State) :
    ∃ τ, execSplitMove d head split s = .next τ ∧ Keeps [Part.fw, Part.ipl, Part.kln, Part.memory, Part.msix, Part.out, Part.reg .cal, Part.reg .hif, Part.reg .klnC, Part.reg .klnP, Part.reg .stk, Part.reg .tilC, Part.reg .tilE, Part.rings, Part.stk, Part.til] s τ := by
  refine Keeps.exec fun ps σ hp h => ?_
  unfold execSplitMove
  refine ⟨_, rfl, ?_⟩
  refine command_keeps _ _ _ _ _ _ ?_ (Keeps.sub (by decide) hp) ?_
  · intro χ1 τ2 hτ3
    refine bodySplitMove_keeps _ _ _ _ _ (Keeps.sub (by decide) hp) ?_
    exact hτ3
  · exact h

theorem spitHead_keeps {ps : List Part} {σ : State} (p : Nat) (code : Nat) (h : Nat) (s : State)
    (hp : ∀ q ∈ [Part.entries, Part.kln, Part.msix, Part.out, Part.ports, Part.reg .hlk, Part.reg .stk, Part.reg .tilE, Part.reg .tly, Part.rings, Part.stk, Part.til, Part.tly], q ∈ ps) (hs : Keeps ps σ s) : Keeps ps σ (spitHead p code h s) := by
  unfold spitHead
  refine Keeps.ite (fun _ => ?_) fun _ => ?_
  · exact hs
  · refine Keeps.foldl ?_ ?_
    · intro τ1 χ2 hτ3
      extract_lets σ4
      refine loadAndFire_keeps _ _ _ _ (Keeps.sub (by decide) hp) ?_
      refine Keeps.foldl ?_ ?_
      · intro τ5 χ6 hτ7
        extract_lets σ8
        refine Keeps.ite (fun _ => ?_) fun _ => ?_
        · exact hτ7
        · refine stage10_keeps _ _ _ _ _ _ (Keeps.sub (by decide) hp) ?_
          exact hτ7
      · exact hτ3
    · exact hs

theorem maintSpit_keeps {ps : List Part} {σ : State} (h : Hdr) (c : Instr) (mask : Nat) (n : Nat) (code : Nat) (s : State)
    (hp : ∀ p ∈ [Part.fw, Part.msix, Part.out, Part.reg .stk, Part.rings, Part.stk, Part.til], p ∈ ps) (hs : Keeps ps σ s) : Keeps ps σ (maintSpit h c mask n code s) := by
  unfold maintSpit
  extract_lets σ1 σ2
  refine Keeps.ite (fun _ => ?_) fun _ => ?_
  · refine fail_keeps _ _ _ (Keeps.sub (by decide) hp) ?_
    exact hs
  · refine Keeps.ite (fun _ => ?_) fun _ => ?_
    · refine fail_keeps _ _ _ (Keeps.sub (by decide) hp) ?_
      exact hs
    · split
      · refine fail_keeps _ _ _ (Keeps.sub (by decide) hp) ?_
        exact hs
      · refine parkAccepted_keeps _ _ _ _ _ (Keeps.sub (by decide) hp) ?_
        refine Keeps.set_til rfl (Or.inr ⟨rfl, rfl⟩) (Or.inl (hp _ (by decide))) ?_
        exact hs

theorem spitDrop_keeps {ps : List Part} {σ : State} (q : Parked) (mask : Nat) (code : Nat) (s : State)
    (hp : ∀ p ∈ [Part.entries, Part.fw, Part.kln, Part.msix, Part.out, Part.ports, Part.reg .hlk, Part.reg .stk, Part.reg .tilE, Part.reg .tly, Part.rings, Part.stk, Part.til, Part.tly], p ∈ ps) (h : Keeps ps σ s) : Keeps ps σ (spitDrop q mask code s) := by
  unfold spitDrop
  split
  · exact h
  · extract_lets σ1 σ2 σ3
    have hσ3 : Keeps ps σ σ3 := by
      unfold σ3
      unfold σ2
      refine Keeps.set_til rfl (Or.inr ⟨rfl, rfl⟩) (Or.inl (hp _ (by decide))) ?_
      refine Keeps.foldl ?_ ?_
      · intro τ4 χ5 hτ6
        split
        · refine spitHead_keeps _ _ _ _ (Keeps.sub (by decide) hp) ?_
          exact hτ6
        · exact hτ6
      · exact h
    split
    · refine fail_keeps _ _ _ (Keeps.sub (by decide) hp) ?_
      unfold σ2
      refine Keeps.set_til rfl (Or.inr ⟨rfl, rfl⟩) (Or.inl (hp _ (by decide))) ?_
      exact h
    · refine Keeps.ite (fun _ => ?_) fun _ => ?_
      · refine complete_keeps _ _ _ _ (Keeps.sub (by decide) hp) ?_
        exact hσ3
      · exact hσ3

theorem bodyMaintSpit_keeps {ps : List Part} {σ : State} (h : Hdr) (c : Instr) (mask : Nat) (n : Nat) (code : Nat) (s : State)
    (hp : ∀ p ∈ [Part.fw, Part.msix, Part.out, Part.pwr, Part.reg .stk, Part.rings, Part.stk, Part.til], p ∈ ps) (hs : Keeps ps σ s) : Keeps ps σ (bodyMaintSpit h c mask n code s) := by
  unfold bodyMaintSpit
  refine wake_keeps _ _ _ _ _ ?_ (Keeps.sub (by decide) hp) ?_
  · intro τ1 hτ2
    refine maintSpit_keeps _ _ _ _ _ _ (Keeps.sub (by decide) hp) ?_
    exact hτ2
  · exact hs

theorem execMaintSpit_keeps (d : Desc) (mask : DWord) (drops : BitVec 16) (code : BitVec 8) (s : State) :
    ∃ τ, execMaintSpit d mask drops code s = .next τ ∧ Keeps [Part.fw, Part.msix, Part.out, Part.pwr, Part.reg .hif, Part.reg .stk, Part.rings, Part.stk, Part.til] s τ := by
  refine Keeps.exec fun ps σ hp h => ?_
  unfold execMaintSpit
  refine ⟨_, rfl, ?_⟩
  refine command_keeps _ _ _ _ _ _ ?_ (Keeps.sub (by decide) hp) ?_
  · intro χ1 τ2 hτ3
    refine bodyMaintSpit_keeps _ _ _ _ _ _ (Keeps.sub (by decide) hp) ?_
    exact hτ3
  · exact h

theorem planeWrites_keeps {ps : List Part} {σ : State} (p : Nat) (t : PlaneTable) (s : State)
    (hp : ∀ q ∈ [Part.kln, Part.reg .hlk, Part.reg .klnP, Part.reg .tilE], q ∈ ps) (h : Keeps ps σ s) : Keeps ps σ (planeWrites p t s) := by
  unfold planeWrites
  extract_lets σ1
  have hσ1 : Keeps ps σ σ1 := by
    unfold σ1
    refine cmdShadow_keeps _ _ _ (Keeps.sub (by simp) hp) ?_
    refine cmdShadow_keeps _ _ _ (Keeps.sub (by simp) hp) ?_
    refine cmdShadowN_keeps _ _ _ (Keeps.sub (by simp) hp) ?_
    refine cmdShadowN_keeps _ _ _ (Keeps.sub (by simp) hp) ?_
    exact h
  refine Keeps.foldl ?_ ?_
  · intro τ2 χ3 hτ4
    refine cmdShadow_keeps _ _ _ (Keeps.sub (by simp) hp) ?_
    refine cmdShadow_keeps _ _ _ (Keeps.sub (by simp) hp) ?_
    refine cmdShadow_keeps _ _ _ (Keeps.sub (by simp) hp) ?_
    refine cmdShadowN_keeps _ _ _ (Keeps.sub (by simp) hp) ?_
    exact hτ4
  · refine updPlane_keeps _ _ _ (Keeps.sub (by decide) hp) ?_
    exact hσ1

theorem planeConfig_keeps {ps : List Part} {σ : State} (h : Hdr) (c : Instr) (p : Nat) (x : Stream) (s : State)
    (hp : ∀ q ∈ [Part.cal, Part.crk, Part.entries, Part.fw, Part.gln, Part.glz, Part.ipl, Part.jobs, Part.kln, Part.memory, Part.msix, Part.out, Part.ports, Part.reg .cal, Part.reg .hlk, Part.reg .klnC, Part.reg .klnP, Part.reg .stk, Part.reg .tilC, Part.reg .tilE, Part.rings, Part.stk, Part.thr, Part.til], q ∈ ps) (hs : Keeps ps σ s) : Keeps ps σ (planeConfig h c p x s) := by
  unfold planeConfig
  extract_lets σ1 σ2
  refine Keeps.ite (fun _ => ?_) fun _ => ?_
  · refine fail_keeps _ _ _ (Keeps.sub (by decide) hp) ?_
    exact hs
  · refine Keeps.ite (fun _ => ?_) fun _ => ?_
    · refine fail_keeps _ _ _ (Keeps.sub (by decide) hp) ?_
      exact hs
    · refine Keeps.ite (fun _ => ?_) fun _ => ?_
      · refine fail_keeps _ _ _ (Keeps.sub (by decide) hp) ?_
        exact hs
      · refine Keeps.ite (fun _ => ?_) fun _ => ?_
        · refine fail_keeps _ _ _ (Keeps.sub (by decide) hp) ?_
          exact hs
        · refine idleTables_keeps _ _ (Keeps.sub (by decide) hp) ?_
          refine cmdLatch_keeps _ _ _ _ _ _ _ ?_ ?_ (Keeps.sub (by decide) hp) ?_
          · (simp +zetaDelta +contextual [or_imp, forall_and, hp]; done)
          · intro τ3 hτ4
            refine planeWrites_keeps _ _ _ (Keeps.sub (by decide) hp) ?_
            exact hτ4
          · refine discardAhead_keeps _ _ (Keeps.sub (by decide) hp) ?_
            exact hs

theorem bodyPlaneConfig_keeps {ps : List Part} {σ : State} (h : Hdr) (c : Instr) (p : Nat) (handle : Nat) (s : State)
    (hp : ∀ q ∈ [Part.cal, Part.crk, Part.entries, Part.fw, Part.gln, Part.glz, Part.ipl, Part.jobs, Part.kln, Part.memory, Part.msix, Part.out, Part.ports, Part.reg .cal, Part.reg .hlk, Part.reg .klnC, Part.reg .klnP, Part.reg .stk, Part.reg .tilC, Part.reg .tilE, Part.rings, Part.stk, Part.thr, Part.til], q ∈ ps) (hs : Keeps ps σ s) : Keeps ps σ (bodyPlaneConfig h c p handle s) := by
  unfold bodyPlaneConfig
  refine Keeps.ite (fun _ => ?_) fun _ => ?_
  · refine fail_keeps _ _ _ (Keeps.sub (by decide) hp) ?_
    exact hs
  · refine withStream_keeps _ _ _ _ _ _ _ ?_ (Keeps.sub (by decide) hp) ?_
    · intro χ1 τ2 hτ3
      refine planeConfig_keeps _ _ _ _ _ (Keeps.sub (by decide) hp) ?_
      exact hτ3
    · exact hs

theorem execPlaneConfig_keeps (d : Desc) (plane : BitVec 8) (handle : Word) (s : State) :
    ∃ τ, execPlaneConfig d plane handle s = .next τ ∧ Keeps [Part.cal, Part.crk, Part.entries, Part.fw, Part.gln, Part.glz, Part.ipl, Part.jobs, Part.kln, Part.memory, Part.msix, Part.out, Part.ports, Part.reg .cal, Part.reg .hif, Part.reg .hlk, Part.reg .klnC, Part.reg .klnP, Part.reg .stk, Part.reg .tilC, Part.reg .tilE, Part.rings, Part.stk, Part.thr, Part.til] s τ := by
  refine Keeps.exec fun ps σ hp h => ?_
  unfold execPlaneConfig
  refine ⟨_, rfl, ?_⟩
  refine command_keeps _ _ _ _ _ _ ?_ (Keeps.sub (by decide) hp) ?_
  · intro χ1 τ2 hτ3
    refine bodyPlaneConfig_keeps _ _ _ _ _ (Keeps.sub (by decide) hp) ?_
    exact hτ3
  · exact h

theorem passLoad_keeps {ps : List Part} {σ : State} (h : Hdr) (c : Instr) (mask : Nat) (x : Stream) (s : State)
    (hp : ∀ p ∈ [Part.cal, Part.crk, Part.entries, Part.fw, Part.gln, Part.glz, Part.jobs, Part.kln, Part.msix, Part.out, Part.ports, Part.reg .cal, Part.reg .stk, Part.rings, Part.stk, Part.thr, Part.til], p ∈ ps) (hs : Keeps ps σ s) : Keeps ps σ (passLoad h c mask x s) := by
  unfold passLoad
  extract_lets σ1 σ2 σ3 σ4 σ5
  have hσ5 : Keeps ps σ σ5 := by
    unfold σ5
    refine park_keeps _ _ (Keeps.sub (by decide) hp) ?_
    exact hs
  refine Keeps.ite (fun _ => ?_) fun _ => ?_
  · refine fail_keeps _ _ _ (Keeps.sub (by decide) hp) ?_
    exact hs
  · refine Keeps.ite (fun _ => ?_) fun _ => ?_
    · refine fail_keeps _ _ _ (Keeps.sub (by decide) hp) ?_
      exact hs
    · refine Keeps.ite (fun _ => ?_) fun _ => ?_
      · refine fail_keeps _ _ _ (Keeps.sub (by decide) hp) ?_
        exact hs
      · refine Keeps.foldl ?_ ?_
        · intro τ6 χ7 hτ8
          refine idleTables_keeps _ _ (Keeps.sub (by decide) hp) ?_
          refine updPlane_keeps _ _ _ (Keeps.sub (by decide) hp) ?_
          exact hτ8
        · exact hσ5

theorem bodyPassLoad_keeps {ps : List Part} {σ : State} (h : Hdr) (c : Instr) (mask : Nat) (handle : Nat) (s : State)
    (hp : ∀ p ∈ [Part.cal, Part.crk, Part.entries, Part.fw, Part.gln, Part.glz, Part.jobs, Part.kln, Part.msix, Part.out, Part.ports, Part.reg .cal, Part.reg .stk, Part.rings, Part.stk, Part.thr, Part.til], p ∈ ps) (hs : Keeps ps σ s) : Keeps ps σ (bodyPassLoad h c mask handle s) := by
  unfold bodyPassLoad
  refine Keeps.ite (fun _ => ?_) fun _ => ?_
  · refine fail_keeps _ _ _ (Keeps.sub (by decide) hp) ?_
    exact hs
  · refine withStream_keeps _ _ _ _ _ _ _ ?_ (Keeps.sub (by decide) hp) ?_
    · intro χ1 τ2 hτ3
      refine passLoad_keeps _ _ _ _ _ (Keeps.sub (by decide) hp) ?_
      exact hτ3
    · exact hs

theorem execPassLoad_keeps (d : Desc) (mask : BitVec 16) (handle : Word) (s : State) :
    ∃ τ, execPassLoad d mask handle s = .next τ ∧ Keeps [Part.cal, Part.crk, Part.entries, Part.fw, Part.gln, Part.glz, Part.jobs, Part.kln, Part.msix, Part.out, Part.ports, Part.reg .cal, Part.reg .hif, Part.reg .stk, Part.rings, Part.stk, Part.thr, Part.til] s τ := by
  refine Keeps.exec fun ps σ hp h => ?_
  unfold execPassLoad
  refine ⟨_, rfl, ?_⟩
  refine command_keeps _ _ _ _ _ _ ?_ (Keeps.sub (by decide) hp) ?_
  · intro χ1 τ2 hτ3
    refine bodyPassLoad_keeps _ _ _ _ _ (Keeps.sub (by decide) hp) ?_
    exact hτ3
  · exact h

end Sys2Proof.Machine
end

