-- ==== Sys2Proof/Laws/KeepsClocks.lean ====
section
/-! SUPPORT. What the operations of Machine/Clocks.lean change, and what they keep. -/

namespace Sys2Proof.Machine
open Sys2Proof

theorem countLoss_keeps {ps : List Part} {σ : State} (byte : Nat) (cause : Nat) (s : State)
    (hp : ∀ p ∈ [Part.reg .clk], p ∈ ps) (h : Keeps ps σ s) : Keeps ps σ (countLoss byte cause s) := by
  unfold countLoss
  extract_lets σ1 σ2
  refine wn_keeps _ _ _ (Keeps.sub (by decide) hp) ?_
  refine wf_keeps _ _ _ _ _ (Keeps.sub (by decide) hp) ?_
  exact h

theorem rootLoss_keeps {ps : List Part} {σ : State} (s : State)
    (hp : ∀ p ∈ (allRegs ++ [Part.cal, Part.clk, Part.clock, Part.crk, Part.entries, Part.fans, Part.free, Part.fw, Part.gln, Part.glz, Part.hif, Part.ipl, Part.jobs, Part.kln, Part.memory, Part.mil, Part.mot, Part.msix, Part.out, Part.pif, Part.ports, Part.pwr, Part.reads, Part.rings, Part.sag, Part.stk, Part.thm, Part.thr, Part.til, Part.tly, Part.trm, Part.win]), p ∈ ps) (h : Keeps ps σ s) : Keeps ps σ (rootLoss s) := by
  unfold rootLoss
  refine sagFault_keeps _ _ (Keeps.sub (by decide) hp) ?_
  refine Keeps.set_clk (hp _ (by decide)) ?_
  exact h

theorem refLoss_keeps {ps : List Part} {σ : State} (s : State)
    (hp : ∀ p ∈ (allRegs ++ [Part.cal, Part.clk, Part.clock, Part.crk, Part.entries, Part.fans, Part.free, Part.fw, Part.gln, Part.glz, Part.hif, Part.ipl, Part.jobs, Part.kln, Part.memory, Part.mil, Part.mot, Part.msix, Part.out, Part.pif, Part.ports, Part.pwr, Part.reads, Part.rings, Part.sag, Part.stk, Part.thm, Part.thr, Part.til, Part.tly, Part.trm, Part.win]), p ∈ ps) (h : Keeps ps σ s) : Keeps ps σ (refLoss s) := by
  unfold refLoss
  refine Keeps.ite (fun _ => ?_) fun _ => ?_
  · extract_lets σ1 σ2
    have hσ2 : Keeps ps σ σ2 := by
      unfold σ2
      refine countLoss_keeps _ _ _ (Keeps.sub (by decide) hp) ?_
      refine Keeps.set_clk (hp _ (by decide)) ?_
      exact h
    refine Keeps.ite (fun _ => ?_) fun _ => ?_
    · refine rootLoss_keeps _ (Keeps.sub (by decide) hp) ?_
      refine wn_keeps _ _ _ (Keeps.sub (by decide) hp) ?_
      refine countLoss_keeps _ _ _ (Keeps.sub (by decide) hp) ?_
      exact hσ2
    · exact hσ2
  · exact h

theorem execRefClockLoss_keeps (s : State) :
    ∃ τ, execRefClockLoss s = .next τ ∧ Keeps (allRegs ++ [Part.cal, Part.clk, Part.clock, Part.crk, Part.entries, Part.fans, Part.free, Part.fw, Part.gln, Part.glz, Part.hif, Part.ipl, Part.jobs, Part.kln, Part.memory, Part.mil, Part.mot, Part.msix, Part.out, Part.pif, Part.ports, Part.pwr, Part.reads, Part.rings, Part.sag, Part.stk, Part.thm, Part.thr, Part.til, Part.tly, Part.trm, Part.win]) s τ := by
  refine Keeps.exec fun ps σ hp h => ?_
  unfold execRefClockLoss
  refine ⟨_, rfl, ?_⟩
  refine refLoss_keeps _ (Keeps.sub (by decide) hp) ?_
  exact h

theorem execRefClockReturn_keeps (s : State) :
    ∃ τ, execRefClockReturn s = .next τ ∧ Keeps [Part.clk] s τ := by
  refine Keeps.exec fun ps σ hp h => ?_
  unfold execRefClockReturn
  refine ⟨_, rfl, ?_⟩
  refine Keeps.set_clk (hp _ (by decide)) ?_
  exact h

theorem execRootPllLoss_keeps (s : State) :
    ∃ τ, execRootPllLoss s = .next τ ∧ Keeps (allRegs ++ [Part.cal, Part.clk, Part.clock, Part.crk, Part.entries, Part.fans, Part.free, Part.fw, Part.gln, Part.glz, Part.hif, Part.ipl, Part.jobs, Part.kln, Part.memory, Part.mil, Part.mot, Part.msix, Part.out, Part.pif, Part.ports, Part.pwr, Part.reads, Part.rings, Part.sag, Part.stk, Part.thm, Part.thr, Part.til, Part.tly, Part.trm, Part.win]) s τ := by
  refine Keeps.exec fun ps σ hp h => ?_
  unfold execRootPllLoss
  refine ⟨_, rfl, ?_⟩
  refine Keeps.ite (fun _ => ?_) fun _ => ?_
  · refine rootLoss_keeps _ (Keeps.sub (by decide) hp) ?_
    refine countLoss_keeps _ _ _ (Keeps.sub (by decide) hp) ?_
    exact h
  · exact h

theorem execDdrPllLoss_keeps (s : State) :
    ∃ τ, execDdrPllLoss s = .next τ ∧ Keeps (allRegs ++ [Part.cal, Part.clk, Part.clock, Part.crk, Part.entries, Part.fans, Part.free, Part.fw, Part.gln, Part.glz, Part.hif, Part.ipl, Part.jobs, Part.kln, Part.memory, Part.mil, Part.mot, Part.msix, Part.out, Part.pif, Part.ports, Part.pwr, Part.reads, Part.rings, Part.sag, Part.stk, Part.thm, Part.thr, Part.til, Part.tly, Part.trm, Part.win]) s τ := by
  refine Keeps.exec fun ps σ hp h => ?_
  unfold execDdrPllLoss
  refine ⟨_, rfl, ?_⟩
  refine Keeps.ite (fun _ => ?_) fun _ => ?_
  · refine hostReset_keeps _ _ (Keeps.sub (by decide) hp) ?_
    refine countLoss_keeps _ _ _ (Keeps.sub (by decide) hp) ?_
    refine Keeps.set_clk (hp _ (by decide)) ?_
    exact h
  · exact h

theorem dllChange_keeps {ps : List Part} {σ : State} (locked : Bool) (code : Nat) (s : State)
    (hp : ∀ p ∈ [Part.clk, Part.jobs, Part.kln, Part.msix, Part.out, Part.ports, Part.reg .clk, Part.reg .klnC, Part.reg .klnP, Part.reg .stk, Part.rings, Part.stk, Part.win], p ∈ ps) (h : Keeps ps σ s) : Keeps ps σ (dllChange locked code s) := by
  unfold dllChange
  refine Keeps.ite (fun _ => ?_) fun _ => ?_
  · refine Keeps.ite (fun _ => ?_) fun _ => ?_
    · refine retune_keeps _ _ ?_ (Keeps.sub (by decide) hp) ?_
      · intro τ1 hτ2
        refine Keeps.set_clk (hp _ (by decide)) ?_
        exact hτ2
      · exact h
    · exact h
  · extract_lets σ3 σ4
    have hσ3 : Keeps ps σ σ3 := by
      unfold σ3
      refine retune_keeps _ _ ?_ (Keeps.sub (by decide) hp) ?_
      · intro τ8 hτ9
        refine Keeps.set_clk (hp _ (by decide)) ?_
        exact hτ9
      · exact h
    have hσ4 : Keeps ps σ σ4 := by
      unfold σ4
      refine raiseIrq_keeps _ _ _ (Keeps.sub (by decide) hp) ?_
      refine event_keeps _ _ _ _ (Keeps.sub (by decide) hp) ?_
      exact hσ3
    refine Keeps.ite (fun _ => ?_) fun _ => ?_
    · exact hσ4
    · refine Keeps.foldl ?_ ?_
      · intro τ5 χ6 hτ7
        refine headLost_keeps _ _ (Keeps.sub (by decide) hp) ?_
        exact hτ7
      · exact hσ4

theorem execDllLockChange_keeps (locked : Bool) (code : BitVec 10) (s : State) :
    ∃ τ, execDllLockChange locked code s = .next τ ∧ Keeps [Part.clk, Part.jobs, Part.kln, Part.msix, Part.out, Part.ports, Part.reg .clk, Part.reg .klnC, Part.reg .klnP, Part.reg .stk, Part.rings, Part.stk, Part.win] s τ := by
  refine Keeps.exec fun ps σ hp h => ?_
  unfold execDllLockChange
  refine ⟨_, rfl, ?_⟩
  refine Keeps.ite (fun _ => ?_) fun _ => ?_
  · exact h
  · refine dllChange_keeps _ _ _ (Keeps.sub (by decide) hp) ?_
    exact h

theorem iocalStart_keeps {ps : List Part} {σ : State} (s : State)
    (hp : ∀ p ∈ [Part.clk], p ∈ ps) (h : Keeps ps σ s) : Keeps ps σ (iocalStart s) := by
  unfold iocalStart
  refine Keeps.set_clk (hp _ (by decide)) ?_
  exact h

theorem iocalCtrl_keeps {ps : List Part} {σ : State} (v : Word) (s : State)
    (hp : ∀ p ∈ [Part.clk, Part.msix, Part.out, Part.reg .clk], p ∈ ps) (h : Keeps ps σ s) : Keeps ps σ (iocalCtrl v s) := by
  unfold iocalCtrl
  refine Keeps.ite (fun _ => ?_) fun _ => ?_
  · exact h
  · refine Keeps.ite (fun _ => ?_) fun _ => ?_
    · refine recordErr_keeps _ _ _ (Keeps.sub (by decide) hp) ?_
      exact h
    · refine iocalStart_keeps _ (Keeps.sub (by decide) hp) ?_
      exact h

theorem execIocalStart_keeps (ini : Initiator) (val : Word) (s : State) :
    ∃ τ, execIocalStart ini val s = .next τ ∧ Keeps [Part.clk, Part.msix, Part.out, Part.reg .clk, Part.reg .hif] s τ := by
  refine Keeps.exec fun ps σ hp h => ?_
  unfold execIocalStart
  refine ⟨_, rfl, ?_⟩
  refine guardWrite_keeps _ _ _ _ _ _ ?_ (Keeps.sub (by decide) hp) ?_
  · intro χ1 τ2 hτ3
    refine iocalCtrl_keeps _ _ (Keeps.sub (by decide) hp) ?_
    exact hτ3
  · exact h

theorem execIocalPeriod_keeps (s : State) :
    ∃ τ, execIocalPeriod s = .next τ ∧ Keeps [Part.clk] s τ := by
  refine Keeps.exec fun ps σ hp h => ?_
  unfold execIocalPeriod
  refine ⟨_, rfl, ?_⟩
  refine Keeps.ite (fun _ => ?_) fun _ => ?_
  · refine iocalStart_keeps _ (Keeps.sub (by decide) hp) ?_
    exact h
  · exact h

theorem iocalLine_keeps {ps : List Part} {σ : State} (line : Nat) (e : Int) (s : State)
    (hp : ∀ p ∈ [Part.msix, Part.out, Part.reg .clk, Part.reg .stk, Part.rings, Part.stk], p ∈ ps) (h : Keeps ps σ s) : Keeps ps σ (iocalLine line e s) := by
  unfold iocalLine
  extract_lets σ1 σ2 σ3 σ4
  have hσ4 : Keeps ps σ σ4 := by
    unfold σ4
    refine wn_keeps _ _ _ (Keeps.sub (by simp) hp) ?_
    exact h
  refine Keeps.ite (fun _ => ?_) fun _ => ?_
  · exact hσ4
  · refine raiseIrq_keeps _ _ _ (Keeps.sub (by decide) hp) ?_
    refine event_keeps _ _ _ _ (Keeps.sub (by decide) hp) ?_
    refine recordErr_keeps _ _ _ (Keeps.sub (by decide) hp) ?_
    exact hσ4

theorem iocalDone_keeps {ps : List Part} {σ : State} (errors : List (BitVec 24)) (s : State)
    (hp : ∀ p ∈ [Part.clk, Part.free, Part.kln, Part.msix, Part.out, Part.reg .clk, Part.reg .stk, Part.rings, Part.stk], p ∈ ps) (h : Keeps ps σ s) : Keeps ps σ (iocalDone errors s) := by
  unfold iocalDone
  refine Keeps.ite (fun _ => ?_) fun _ => ?_
  · extract_lets σ1 σ2 σ3
    have hσ2 : Keeps ps σ σ2 := by
      unfold σ2
      refine retune_keeps _ _ ?_ (Keeps.sub (by decide) hp) ?_
      · intro τ4 hτ5
        refine Keeps.foldl ?_ ?_
        · intro τ6 χ7 hτ8
          refine iocalLine_keeps _ _ _ (Keeps.sub (by decide) hp) ?_
          exact hτ8
        · exact hτ5
      · refine Keeps.set_clk (hp _ (by decide)) ?_
        exact h
    have hσ32 : Keeps ps σ σ3.2 := by
      unfold σ3
      refine draw_keeps _ _ (Keeps.sub (by decide) hp) ?_
      exact hσ2
    refine raiseIrq_keeps _ _ _ (Keeps.sub (by decide) hp) ?_
    refine event_keeps _ _ _ _ (Keeps.sub (by decide) hp) ?_
    refine inc_keeps _ _ _ (Keeps.sub (by decide) hp) ?_
    exact hσ32
  · exact h

theorem execIocalDone_keeps (errors : List (BitVec 24)) (s : State) :
    ∃ τ, execIocalDone errors s = .next τ ∧ Keeps [Part.clk, Part.free, Part.kln, Part.msix, Part.out, Part.reg .clk, Part.reg .stk, Part.rings, Part.stk] s τ := by
  refine Keeps.exec fun ps σ hp h => ?_
  unfold execIocalDone
  refine ⟨_, rfl, ?_⟩
  refine iocalDone_keeps _ _ (Keeps.sub (by decide) hp) ?_
  exact h

end Sys2Proof.Machine
end

