-- ==== Sys2Proof/Laws/KeepsPowerUnit.lean ====
section
/-! SUPPORT. What the operations of Machine/PowerUnit.lean change, and what they keep. -/

namespace Sys2Proof.Machine
open Sys2Proof

theorem segmentLoad_keeps {ps : List Part} {σ : State} (h : Hdr) (x : Stream) (s : State)
    (hp : ∀ p ∈ [Part.fw, Part.msix, Part.out, Part.pwr, Part.reg .stk, Part.rings, Part.stk], p ∈ ps) (hs : Keeps ps σ s) : Keeps ps σ (segmentLoad h x s) := by
  unfold segmentLoad
  extract_lets σ1 σ2 σ3 σ4
  have hσ4 : Keeps ps σ σ4 := by
    unfold σ4
    refine Keeps.set_pwr (hp _ (by decide)) ?_
    exact hs
  refine Keeps.ite (fun _ => ?_) fun _ => ?_
  · refine fail_keeps _ _ _ (Keeps.sub (by decide) hp) ?_
    exact hs
  · refine Keeps.ite (fun _ => ?_) fun _ => ?_
    · refine fail_keeps _ _ _ (Keeps.sub (by decide) hp) ?_
      exact hs
    · refine ok_keeps _ _ _ (Keeps.sub (by decide) hp) ?_
      exact hσ4

theorem bodySegmentLoad_keeps {ps : List Part} {σ : State} (h : Hdr) (c : Instr) (handle : Nat) (s : State)
    (hp : ∀ p ∈ [Part.fw, Part.msix, Part.out, Part.pwr, Part.reg .stk, Part.rings, Part.stk], p ∈ ps) (hs : Keeps ps σ s) : Keeps ps σ (bodySegmentLoad h c handle s) := by
  unfold bodySegmentLoad
  refine withStream_keeps _ _ _ _ _ _ _ ?_ (Keeps.sub (by decide) hp) ?_
  · intro χ1 τ2 hτ3
    refine segmentLoad_keeps _ _ _ (Keeps.sub (by decide) hp) ?_
    exact hτ3
  · exact hs

theorem execSegmentLoad_keeps (d : Desc) (handle : Word) (s : State) :
    ∃ τ, execSegmentLoad d handle s = .next τ ∧ Keeps [Part.fw, Part.msix, Part.out, Part.pwr, Part.reg .hif, Part.reg .stk, Part.rings, Part.stk] s τ := by
  refine Keeps.exec fun ps σ hp h => ?_
  unfold execSegmentLoad
  refine ⟨_, rfl, ?_⟩
  refine command_keeps _ _ _ _ _ _ ?_ (Keeps.sub (by decide) hp) ?_
  · intro χ1 τ2 hτ3
    refine bodySegmentLoad_keeps _ _ _ _ (Keeps.sub (by decide) hp) ?_
    exact hτ3
  · exact h

theorem queueHeads_keeps {ps : List Part} {σ : State} (cmd : Option Nat) (hs : List Nat) (s : State)
    (hp : ∀ p ∈ [Part.pwr], p ∈ ps) (h : Keeps ps σ s) : Keeps ps σ (queueHeads cmd hs s) := by
  unfold queueHeads
  extract_lets σ1 σ2
  refine Keeps.set_pwr (hp _ (by decide)) ?_
  exact h

theorem bodyHeadPower_keeps {ps : List Part} {σ : State} (h : Hdr) (c : Instr) (mask : Nat) (action : Nat) (s : State)
    (hp : ∀ p ∈ [Part.crk, Part.fw, Part.msix, Part.out, Part.ports, Part.pwr, Part.reg .stk, Part.rings, Part.stk], p ∈ ps) (hs : Keeps ps σ s) : Keeps ps σ (bodyHeadPower h c mask action s) := by
  unfold bodyHeadPower
  extract_lets σ1 σ2 σ3 σ4
  have hσ3 : Keeps ps σ σ3 := by
    unfold σ3
    refine Keeps.set_pwr (hp _ (by decide)) ?_
    exact hs
  have hσ4 : Keeps ps σ σ4 := by
    unfold σ4
    refine Keeps.foldl ?_ ?_
    · intro τ8 χ9 hτ10
      refine headOff_keeps _ _ (Keeps.sub (by decide) hp) ?_
      exact hτ10
    · exact hσ3
  refine Keeps.ite (fun _ => ?_) fun _ => ?_
  · refine fail_keeps _ _ _ (Keeps.sub (by decide) hp) ?_
    exact hs
  · refine Keeps.ite (fun _ => ?_) fun _ => ?_
    · refine fail_keeps _ _ _ (Keeps.sub (by decide) hp) ?_
      exact hs
    · refine Keeps.ite (fun _ => ?_) fun _ => ?_
      · refine ok_keeps _ _ _ (Keeps.sub (by decide) hp) ?_
        exact hσ4
      · refine Keeps.ite (fun _ => ?_) fun _ => ?_
        · refine fail_keeps _ _ _ (Keeps.sub (by decide) hp) ?_
          exact hs
        · refine Keeps.ite (fun _ => ?_) fun _ => ?_
          · refine fail_keeps _ _ _ (Keeps.sub (by decide) hp) ?_
            exact hs
          · refine Keeps.ite (fun _ => ?_) fun _ => ?_
            · refine fail_keeps _ _ _ (Keeps.sub (by decide) hp) ?_
              exact hs
            · refine Keeps.ite (fun _ => ?_) fun _ => ?_
              · refine fail_keeps _ _ _ (Keeps.sub (by decide) hp) ?_
                exact hs
              · refine wake_keeps _ _ _ _ _ ?_ (Keeps.sub (by decide) hp) ?_
                · intro τ5 hτ6
                  extract_lets σ7
                  refine Keeps.ite (fun _ => ?_) fun _ => ?_
                  · refine ok_keeps _ _ _ (Keeps.sub (by decide) hp) ?_
                    exact hτ6
                  · refine parkAccepted_keeps _ _ _ _ _ (Keeps.sub (by decide) hp) ?_
                    refine queueHeads_keeps _ _ _ (Keeps.sub (by decide) hp) ?_
                    exact hτ6
                · exact hs

theorem execHeadPower_keeps (d : Desc) (mask : DWord) (action : BitVec 8) (timeout : Word) (s : State) :
    ∃ τ, execHeadPower d mask action timeout s = .next τ ∧ Keeps [Part.crk, Part.fw, Part.msix, Part.out, Part.ports, Part.pwr, Part.reg .hif, Part.reg .stk, Part.rings, Part.stk] s τ := by
  refine Keeps.exec fun ps σ hp h => ?_
  unfold execHeadPower
  refine ⟨_, rfl, ?_⟩
  refine command_keeps _ _ _ _ _ _ ?_ (Keeps.sub (by decide) hp) ?_
  · intro χ1 τ2 hτ3
    refine bodyHeadPower_keeps _ _ _ _ _ (Keeps.sub (by decide) hp) ?_
    exact hτ3
  · exact h

theorem dropUnsegmented_keeps {ps : List Part} {σ : State} (s : State)
    (hp : ∀ p ∈ [Part.pwr], p ∈ ps) (h : Keeps ps σ s) : Keeps ps σ (dropUnsegmented s) := by
  unfold dropUnsegmented
  refine Keeps.set_pwr (hp _ (by decide)) ?_
  exact h

theorem enableAdmit1_keeps {ps : List Part} {σ : State} (t : Nat) (s0 : State)
    (hp : ∀ p ∈ [Part.clock, Part.msix, Part.out, Part.ports, Part.pwr, Part.reg .stk, Part.reg .tim, Part.rings, Part.stk], p ∈ ps) (h : Keeps ps σ s0) : Keeps ps σ (enableAdmit1 t s0) := by
  unfold enableAdmit1
  extract_lets σ1 σ2 σ3 σ4
  have hσ1 : Keeps ps σ σ1 := by
    unfold σ1
    refine dropUnsegmented_keeps _ (Keeps.sub (by decide) hp) ?_
    refine advanceTo_keeps _ _ (Keeps.sub (by decide) hp) ?_
    exact h
  split
  · extract_lets σ5 σ6
    refine Keeps.ite (fun _ => ?_) fun _ => ?_
    · refine updPort_keeps _ _ _ (Keeps.sub (by decide) hp) ?_
      refine Keeps.set_pwr (hp _ (by decide)) ?_
      exact hσ1
    · exact hσ1
  · exact hσ1

theorem execHeadEnableAdmit_keeps (t : DWord) (s : State) :
    ∃ τ, execHeadEnableAdmit t s = .next τ ∧ Keeps [Part.clock, Part.msix, Part.out, Part.ports, Part.pwr, Part.reg .stk, Part.reg .tim, Part.rings, Part.stk] s τ := by
  refine Keeps.exec fun ps σ hp h => ?_
  unfold execHeadEnableAdmit
  refine ⟨_, rfl, ?_⟩
  refine enableAdmit1_keeps _ _ (Keeps.sub (by decide) hp) ?_
  exact h

theorem execHeadPowerDone_keeps (seq : Nat) (s : State) :
    ∃ τ, execHeadPowerDone seq s = .next τ ∧ Keeps [Part.fw, Part.msix, Part.out, Part.reg .stk, Part.rings, Part.stk] s τ := by
  refine Keeps.exec fun ps σ hp h => ?_
  unfold execHeadPowerDone
  refine ⟨_, rfl, ?_⟩
  split
  · split
    · refine completeDone_keeps _ _ _ _ (Keeps.sub (by decide) hp) ?_
      exact h
    · refine completeDone_keeps _ _ _ _ (Keeps.sub (by decide) hp) ?_
      exact h
    · exact h
  · exact h

theorem wakeTimeout_keeps {ps : List Part} {σ : State} (cmd : Option Nat) (s : State)
    (hp : ∀ p ∈ [Part.crk, Part.msix, Part.out, Part.ports, Part.pwr, Part.reg .pwr, Part.reg .stk, Part.rings, Part.stk], p ∈ ps) (h : Keeps ps σ s) : Keeps ps σ (wakeTimeout cmd s) := by
  unfold wakeTimeout
  extract_lets σ1 σ2
  have hσ2 : Keeps ps σ σ2 := by
    unfold σ2
    refine withdrawCmd_keeps _ _ (Keeps.sub (by decide) hp) ?_
    refine Keeps.foldl ?_ ?_
    · intro τ3 χ4 hτ5
      refine Keeps.ite (fun _ => ?_) fun _ => ?_
      · refine headOff_keeps _ _ (Keeps.sub (by decide) hp) ?_
        exact hτ5
      · exact hτ5
    · exact h
  refine raiseIrq_keeps _ _ _ (Keeps.sub (by decide) hp) ?_
  refine event_keeps _ _ _ _ (Keeps.sub (by decide) hp) ?_
  refine inc_keeps _ _ _ (Keeps.sub (by decide) hp) ?_
  exact hσ2

theorem powerTimeout_keeps {ps : List Part} {σ : State} (seq : Nat) (t : Nat) (s0 : State)
    (hp : ∀ p ∈ [Part.clock, Part.crk, Part.fw, Part.msix, Part.out, Part.ports, Part.pwr, Part.reg .pwr, Part.reg .stk, Part.reg .tim, Part.rings, Part.stk], p ∈ ps) (h : Keeps ps σ s0) : Keeps ps σ (powerTimeout seq t s0) := by
  unfold powerTimeout
  extract_lets σ1 σ2 σ3 σ4 σ5
  have hσ1 : Keeps ps σ σ1 := by
    unfold σ1
    refine advanceTo_keeps _ _ (Keeps.sub (by decide) hp) ?_
    exact h
  have hσ3 : Keeps ps σ σ3 := by
    unfold σ3
    refine wakeTimeout_keeps _ _ (Keeps.sub (by decide) hp) ?_
    exact hσ1
  have hσ4 : Keeps ps σ σ4 := by
    unfold σ4
    refine wakeTimeout_keeps _ _ (Keeps.sub (by decide) hp) ?_
    exact hσ1
  split
  · split
    · refine Keeps.ite (fun _ => ?_) fun _ => ?_
      · refine complete_keeps _ _ _ _ (Keeps.sub (by decide) hp) ?_
        exact hσ3
      · exact hσ1
    · refine Keeps.ite (fun _ => ?_) fun _ => ?_
      · refine complete_keeps _ _ _ _ (Keeps.sub (by decide) hp) ?_
        refine Keeps.set_pwr (hp _ (by decide)) ?_
        exact hσ4
      · exact hσ1
    · exact hσ1
  · refine Keeps.ite (fun _ => ?_) fun _ => ?_
    · refine Keeps.set_pwr (hp _ (by decide)) ?_
      exact hσ4
    · exact hσ1

theorem execHeadPowerTimeout_keeps (seq : Nat) (t : DWord) (s : State) :
    ∃ τ, execHeadPowerTimeout seq t s = .next τ ∧ Keeps [Part.clock, Part.crk, Part.fw, Part.msix, Part.out, Part.ports, Part.pwr, Part.reg .pwr, Part.reg .stk, Part.reg .tim, Part.rings, Part.stk] s τ := by
  refine Keeps.exec fun ps σ hp h => ?_
  unfold execHeadPowerTimeout
  refine ⟨_, rfl, ?_⟩
  refine powerTimeout_keeps _ _ _ (Keeps.sub (by decide) hp) ?_
  exact h

theorem budgetWrite_keeps {ps : List Part} {σ : State} (addr : Nat) (v : Word) (s : State)
    (hp : ∀ p ∈ [Part.reg (keyKind addr), Part.msix, Part.out, Part.reg .pwr], p ∈ ps) (h : Keeps ps σ s) : Keeps ps σ (budgetWrite addr v s) := by
  unfold budgetWrite
  refine Keeps.ite (fun _ => ?_) fun _ => ?_
  · refine plainPut_keeps _ _ _ (Keeps.sub (by simp) hp) ?_
    exact h
  · refine recordErr_keeps _ _ _ (Keeps.sub (by simp) hp) ?_
    exact h

theorem powerEvent_keeps {ps : List Part} {σ : State} (old : PowerState) (new : PowerState) (cause : Nat) (s : State)
    (hp : ∀ p ∈ [Part.msix, Part.out, Part.reg .pwr, Part.reg .stk, Part.rings, Part.stk], p ∈ ps) (h : Keeps ps σ s) : Keeps ps σ (powerEvent old new cause s) := by
  unfold powerEvent
  refine raiseIrq_keeps _ _ _ (Keeps.sub (by decide) hp) ?_
  refine event_keeps _ _ _ _ (Keeps.sub (by decide) hp) ?_
  exact h

theorem bodyPowerState_keeps {ps : List Part} {σ : State} (h : Hdr) (c : Instr) (target : Nat) (s : State)
    (hp : ∀ p ∈ [Part.fw, Part.msix, Part.out, Part.pwr, Part.reg .stk, Part.rings, Part.stk], p ∈ ps) (hs : Keeps ps σ s) : Keeps ps σ (bodyPowerState h c target s) := by
  unfold bodyPowerState
  refine Keeps.ite (fun _ => ?_) fun _ => ?_
  · refine fail_keeps _ _ _ (Keeps.sub (by decide) hp) ?_
    exact hs
  · refine Keeps.ite (fun _ => ?_) fun _ => ?_
    · refine Keeps.ite (fun _ => ?_) fun _ => ?_
      · refine ok_keeps _ _ _ (Keeps.sub (by decide) hp) ?_
        exact hs
      · refine Keeps.ite (fun _ => ?_) fun _ => ?_
        · refine parkAccepted_keeps _ _ _ _ _ (Keeps.sub (by decide) hp) ?_
          refine startExit_keeps _ _ (Keeps.sub (by decide) hp) ?_
          exact hs
        · refine parkWaiting_keeps _ _ _ _ _ (Keeps.sub (by decide) hp) ?_
          exact hs
    · refine Keeps.ite (fun _ => ?_) fun _ => ?_
      · refine parkWaiting_keeps _ _ _ _ _ (Keeps.sub (by decide) hp) ?_
        exact hs
      · refine Keeps.ite (fun _ => ?_) fun _ => ?_
        · refine fail_keeps _ _ _ (Keeps.sub (by decide) hp) ?_
          exact hs
        · refine Keeps.ite (fun _ => ?_) fun _ => ?_
          · refine ok_keeps _ _ _ (Keeps.sub (by decide) hp) ?_
            exact hs
          · refine parkAccepted_keeps _ _ _ _ _ (Keeps.sub (by decide) hp) ?_
            refine Keeps.set_pwr (hp _ (by decide)) ?_
            exact hs

theorem execPowerState_keeps (d : Desc) (target : BitVec 8) (s : State) :
    ∃ τ, execPowerState d target s = .next τ ∧ Keeps [Part.fw, Part.msix, Part.out, Part.pwr, Part.reg .hif, Part.reg .stk, Part.rings, Part.stk] s τ := by
  refine Keeps.exec fun ps σ hp h => ?_
  unfold execPowerState
  refine ⟨_, rfl, ?_⟩
  refine command_keeps _ _ _ _ _ _ ?_ (Keeps.sub (by decide) hp) ?_
  · intro χ1 τ2 hτ3
    refine bodyPowerState_keeps _ _ _ _ (Keeps.sub (by decide) hp) ?_
    exact hτ3
  · exact h

theorem repower_keeps {ps : List Part} {σ : State} (s : State)
    (hp : ∀ p ∈ [Part.pwr], p ∈ ps) (h : Keeps ps σ s) : Keeps ps σ (repower s) := by
  unfold repower
  extract_lets σ1 σ2
  refine queueHeads_keeps _ _ _ (Keeps.sub (by decide) hp) ?_
  refine Keeps.set_pwr (hp _ (by decide)) ?_
  exact h

theorem enterStandby_keeps {ps : List Part} {σ : State} (s : State)
    (hp : ∀ p ∈ [Part.clk, Part.clock, Part.crk, Part.jobs, Part.kln, Part.msix, Part.out, Part.ports, Part.pwr, Part.reg .clk, Part.reg .klnC, Part.reg .klnP, Part.reg .stk, Part.reg .tim, Part.rings, Part.stk, Part.win], p ∈ ps) (h : Keeps ps σ s) : Keeps ps σ (enterStandby s) := by
  unfold enterStandby
  extract_lets σ1 σ2 σ3 σ4 σ5
  have hσ2 : Keeps ps σ σ2 := by
    unfold σ2
    refine calFlush_keeps _ (Keeps.sub (by decide) hp) ?_
    refine traceStandby_keeps _ (Keeps.sub (by decide) hp) ?_
    exact h
  have hσ4 : Keeps ps σ σ4 := by
    unfold σ4
    refine Keeps.foldl ?_ ?_
    · intro τ6 χ7 hτ8
      refine headOff_keeps _ _ (Keeps.sub (by decide) hp) ?_
      exact hτ8
    · refine Keeps.set_pwr (hp _ (by decide)) ?_
      exact hσ2
  have hσ5 : Keeps ps σ σ5 := by
    unfold σ5
    refine Keeps.ite (fun _ => ?_) fun _ => ?_
    · exact hσ4
    · refine setHoldover_keeps _ _ (Keeps.sub (by decide) hp) ?_
      exact hσ4
  refine dllChange_keeps _ _ _ (Keeps.sub (by decide) hp) ?_
  exact hσ5

theorem leaveStandby_keeps {ps : List Part} {σ : State} (s : State)
    (hp : ∀ p ∈ [Part.clk, Part.free, Part.jobs, Part.kln, Part.msix, Part.out, Part.ports, Part.pwr, Part.reg .clk, Part.reg .klnC, Part.reg .klnP, Part.reg .stk, Part.rings, Part.stk, Part.win], p ∈ ps) (h : Keeps ps σ s) : Keeps ps σ (leaveStandby s) := by
  unfold leaveStandby
  extract_lets σ1
  have hσ12 : Keeps ps σ σ1.2 := by
    unfold σ1
    refine draw_keeps _ _ (Keeps.sub (by decide) hp) ?_
    exact h
  refine repower_keeps _ (Keeps.sub (by decide) hp) ?_
  refine dllChange_keeps _ _ _ (Keeps.sub (by decide) hp) ?_
  exact hσ12

theorem wakeWaiters_keeps {ps : List Part} {σ : State} (s : State)
    (hp : ∀ p ∈ [Part.pwr], p ∈ ps) (h : Keeps ps σ s) : Keeps ps σ (wakeWaiters s) := by
  unfold wakeWaiters
  refine Keeps.ite (fun _ => ?_) fun _ => ?_
  · exact h
  · refine startExit_keeps _ _ (Keeps.sub (by decide) hp) ?_
    exact h

theorem drainCrock_keeps {ps : List Part} {σ : State} (y0 : Nat) (s : State)
    (hp : ∀ p ∈ [Part.crk, Part.free, Part.fw, Part.glz, Part.jobs, Part.msix, Part.out, Part.reg .crk, Part.reg .stk, Part.rings, Part.sag, Part.stk, Part.thr, Part.til, Part.tly], p ∈ ps) (h : Keeps ps σ s) : Keeps ps σ (drainCrock y0 s) := by
  induction y0 generalizing s with
  | zero =>
    exact h
  | succ m ih =>
    unfold drainCrock
    refine ih _ ?_
    refine recordWrite_keeps _ _ (Keeps.sub (by decide) hp) ?_
    exact h

theorem deepSnapshot_keeps {ps : List Part} {σ : State} (s : State)
    (hp : ∀ p ∈ [Part.crk, Part.free, Part.fw, Part.glz, Part.jobs, Part.msix, Part.out, Part.reg .crk, Part.reg .stk, Part.rings, Part.sag, Part.stk, Part.thr, Part.til, Part.tly], p ∈ ps) (h : Keeps ps σ s) : Keeps ps σ (deepSnapshot s) := by
  unfold deepSnapshot
  refine Keeps.ite (fun _ => ?_) fun _ => ?_
  · exact h
  · refine Keeps.ite (fun _ => ?_) fun _ => ?_
    · refine snapCapture_keeps _ (Keeps.sub (by decide) hp) ?_
      exact h
    · extract_lets σ1 σ2
      have hσ1 : Keeps ps σ σ1 := by
        unfold σ1
        refine snapshotWrite_keeps _ (Keeps.sub (by decide) hp) ?_
        exact h
      have hσ2 : Keeps ps σ σ2 := by
        unfold σ2
        refine drainCrock_keeps _ _ (Keeps.sub (by decide) hp) ?_
        exact hσ1
      refine Keeps.ite (fun _ => ?_) fun _ => ?_
      · refine snapCapture_keeps _ (Keeps.sub (by decide) hp) ?_
        exact hσ2
      · exact hσ2

theorem entryDone_keeps {ps : List Part} {σ : State} (s : State)
    (hp : ∀ p ∈ [Part.clk, Part.clock, Part.crk, Part.free, Part.fw, Part.glz, Part.jobs, Part.kln, Part.msix, Part.out, Part.ports, Part.pwr, Part.reg .clk, Part.reg .crk, Part.reg .klnC, Part.reg .klnP, Part.reg .pwr, Part.reg .stk, Part.reg .tim, Part.rings, Part.sag, Part.stk, Part.thr, Part.til, Part.tly, Part.win], p ∈ ps) (h : Keeps ps σ s) : Keeps ps σ (entryDone s) := by
  unfold entryDone
  split
  · extract_lets σ1 σ2 σ3 σ4
    have hσ3 : Keeps ps σ σ3 := by
      unfold σ3
      refine Keeps.set_pwr (hp _ (by decide)) ?_
      exact h
    have hσ4 : Keeps ps σ σ4 := by
      unfold σ4
      refine Keeps.ite (fun _ => ?_) fun _ => ?_
      · refine leaveStandby_keeps _ (Keeps.sub (by decide) hp) ?_
        exact hσ3
      · exact hσ3
    refine wakeWaiters_keeps _ (Keeps.sub (by decide) hp) ?_
    refine arrive_keeps _ _ _ (Keeps.sub (by decide) hp) ?_
    refine powerEvent_keeps _ _ _ _ (Keeps.sub (by decide) hp) ?_
    exact hσ4
  · extract_lets σ5 σ6 σ7
    have hσ5 : Keeps ps σ σ5 := by
      unfold σ5
      refine enterStandby_keeps _ (Keeps.sub (by decide) hp) ?_
      exact h
    have hσ7 : Keeps ps σ σ7 := by
      unfold σ7
      refine Keeps.set_pwr (hp _ (by decide)) ?_
      exact hσ5
    refine wakeWaiters_keeps _ (Keeps.sub (by decide) hp) ?_
    refine arrive_keeps _ _ _ (Keeps.sub (by decide) hp) ?_
    refine powerEvent_keeps _ _ _ _ (Keeps.sub (by decide) hp) ?_
    exact hσ7
  · refine Keeps.ite (fun _ => ?_) fun _ => ?_
    · exact h
    · extract_lets σ8 σ9 σ10 σ11 σ12 σ13
      have hσ8 : Keeps ps σ σ8 := by
        unfold σ8
        refine Keeps.foldl ?_ ?_
        · intro τ17 χ18 hτ19
          refine tallyClose_keeps _ _ (Keeps.sub (by decide) hp) ?_
          exact hτ19
        · refine calFlush_keeps _ (Keeps.sub (by decide) hp) ?_
          exact h
      have hσ10 : Keeps ps σ σ10 := by
        unfold σ10
        refine Keeps.foldl ?_ ?_
        · intro τ14 χ15 hτ16
          refine writeCeiling_keeps _ _ _ (Keeps.sub (by decide) hp) ?_
          exact hτ16
        · exact hσ8
      have hσ11 : Keeps ps σ σ11 := by
        unfold σ11
        refine deepSnapshot_keeps _ (Keeps.sub (by decide) hp) ?_
        exact hσ10
      have hσ13 : Keeps ps σ σ13 := by
        unfold σ13
        refine Keeps.set_pwr (hp _ (by decide)) ?_
        exact hσ11
      refine arrive_keeps _ _ _ (Keeps.sub (by decide) hp) ?_
      refine powerEvent_keeps _ _ _ _ (Keeps.sub (by decide) hp) ?_
      exact hσ13
  · exact h

theorem execPowerEntryDone_keeps (s : State) :
    ∃ τ, execPowerEntryDone s = .next τ ∧ Keeps [Part.clk, Part.clock, Part.crk, Part.free, Part.fw, Part.glz, Part.jobs, Part.kln, Part.msix, Part.out, Part.ports, Part.pwr, Part.reg .clk, Part.reg .crk, Part.reg .klnC, Part.reg .klnP, Part.reg .pwr, Part.reg .stk, Part.reg .tim, Part.rings, Part.sag, Part.stk, Part.thr, Part.til, Part.tly, Part.win] s τ := by
  refine Keeps.exec fun ps σ hp h => ?_
  unfold execPowerEntryDone
  refine ⟨_, rfl, ?_⟩
  refine entryDone_keeps _ (Keeps.sub (by decide) hp) ?_
  exact h

theorem autoIdle_keeps {ps : List Part} {σ : State} (s : State)
    (hp : ∀ p ∈ [Part.msix, Part.out, Part.pwr, Part.reg .pwr, Part.reg .stk, Part.rings, Part.stk], p ∈ ps) (h : Keeps ps σ s) : Keeps ps σ (autoIdle s) := by
  unfold autoIdle
  refine Keeps.ite (fun _ => ?_) fun _ => ?_
  · refine powerEvent_keeps _ _ _ _ (Keeps.sub (by decide) hp) ?_
    refine Keeps.set_pwr (hp _ (by decide)) ?_
    exact h
  · exact h

theorem execAutoIdle_keeps (s : State) :
    ∃ τ, execAutoIdle s = .next τ ∧ Keeps [Part.msix, Part.out, Part.pwr, Part.reg .pwr, Part.reg .stk, Part.rings, Part.stk] s τ := by
  refine Keeps.exec fun ps σ hp h => ?_
  unfold execAutoIdle
  refine ⟨_, rfl, ?_⟩
  refine autoIdle_keeps _ (Keeps.sub (by decide) hp) ?_
  exact h

theorem exitDone_keeps {ps : List Part} {σ : State} (s : State)
    (hp : ∀ p ∈ [Part.clk, Part.free, Part.fw, Part.jobs, Part.kln, Part.msix, Part.out, Part.ports, Part.pwr, Part.reg .clk, Part.reg .klnC, Part.reg .klnP, Part.reg .pwr, Part.reg .stk, Part.rings, Part.stk, Part.win], p ∈ ps) (h : Keeps ps σ s) : Keeps ps σ (exitDone s) := by
  unfold exitDone
  refine Keeps.ite (fun _ => ?_) fun _ => ?_
  · extract_lets σ1 σ2 σ3 σ4 σ5
    have hσ3 : Keeps ps σ σ3 := by
      unfold σ3
      refine Keeps.set_pwr (hp _ (by decide)) ?_
      exact h
    have hσ4 : Keeps ps σ σ4 := by
      unfold σ4
      refine Keeps.ite (fun _ => ?_) fun _ => ?_
      · refine leaveStandby_keeps _ (Keeps.sub (by decide) hp) ?_
        exact hσ3
      · exact hσ3
    have hσ5 : Keeps ps σ σ5 := by
      unfold σ5
      refine powerEvent_keeps _ _ _ _ (Keeps.sub (by decide) hp) ?_
      exact hσ4
    refine Keeps.foldl ?_ ?_
    · intro τ6 χ7 hτ8
      split
      · refine complete_keeps _ _ _ _ (Keeps.sub (by decide) hp) ?_
        exact hτ8
      · refine park_keeps _ _ (Keeps.sub (by decide) hp) ?_
        exact hτ8
    · exact hσ5
  · exact h

theorem execPowerExitDone_keeps (s : State) :
    ∃ τ, execPowerExitDone s = .next τ ∧ Keeps [Part.clk, Part.free, Part.fw, Part.jobs, Part.kln, Part.msix, Part.out, Part.ports, Part.pwr, Part.reg .clk, Part.reg .klnC, Part.reg .klnP, Part.reg .pwr, Part.reg .stk, Part.rings, Part.stk, Part.win] s τ := by
  refine Keeps.exec fun ps σ hp h => ?_
  unfold execPowerExitDone
  refine ⟨_, rfl, ?_⟩
  refine exitDone_keeps _ (Keeps.sub (by decide) hp) ?_
  exact h

theorem deepEntry_keeps {ps : List Part} {σ : State} (s : State)
    (hp : ∀ p ∈ (allRegs ++ [Part.cal, Part.clk, Part.clock, Part.crk, Part.entries, Part.fans, Part.free, Part.fw, Part.gln, Part.glz, Part.hif, Part.ipl, Part.jobs, Part.kln, Part.memory, Part.mil, Part.mot, Part.msix, Part.out, Part.pif, Part.ports, Part.pwr, Part.reads, Part.rings, Part.sag, Part.stk, Part.thm, Part.thr, Part.til, Part.tly, Part.trm, Part.win]), p ∈ ps) (h : Keeps ps σ s) : Keeps ps σ (deepEntry s) := by
  unfold deepEntry
  refine Keeps.ite (fun _ => ?_) fun _ => ?_
  · extract_lets σ1 σ2 σ3 σ4 σ5 σ6
    have hσ1 : Keeps ps σ σ1 := by
      unfold σ1
      refine snapshotWrite_keeps _ (Keeps.sub (by decide) hp) ?_
      exact h
    have hσ2 : Keeps ps σ σ2 := by
      unfold σ2
      refine drainCrock_keeps _ _ (Keeps.sub (by decide) hp) ?_
      exact hσ1
    have hσ4 : Keeps ps σ σ4 := by
      unfold σ4
      refine zeroSagger_keeps _ (Keeps.sub (by decide) hp) ?_
      refine crkLose_keeps _ (Keeps.sub (by decide) hp) ?_
      refine haltUnits_keeps _ (Keeps.sub (by decide) hp) ?_
      exact hσ2
    have hσ6 : Keeps ps σ σ6 := by
      unfold σ6
      refine Keeps.set_pwr (hp _ (by decide)) ?_
      exact hσ4
    clear_value σ3
    split
    · refine wn_keeps _ _ _ (Keeps.sub (by decide) hp) ?_
      refine startBoot_keeps _ _ _ _ (Keeps.sub (by decide) hp) ?_
      exact hσ6
    · refine startBoot_keeps _ _ _ _ (Keeps.sub (by decide) hp) ?_
      exact hσ6
    · exact hσ6
  · exact h

theorem execDeepEntry_keeps (s : State) :
    ∃ τ, execDeepEntry s = .next τ ∧ Keeps (allRegs ++ [Part.cal, Part.clk, Part.clock, Part.crk, Part.entries, Part.fans, Part.free, Part.fw, Part.gln, Part.glz, Part.hif, Part.ipl, Part.jobs, Part.kln, Part.memory, Part.mil, Part.mot, Part.msix, Part.out, Part.pif, Part.ports, Part.pwr, Part.reads, Part.rings, Part.sag, Part.stk, Part.thm, Part.thr, Part.til, Part.tly, Part.trm, Part.win]) s τ := by
  refine Keeps.exec fun ps σ hp h => ?_
  unfold execDeepEntry
  refine ⟨_, rfl, ?_⟩
  refine deepEntry_keeps _ (Keeps.sub (by decide) hp) ?_
  exact h

theorem deepWake_keeps {ps : List Part} {σ : State} (t : Nat) (s0 : State)
    (hp : ∀ p ∈ (allRegs ++ [Part.cal, Part.clk, Part.clock, Part.crk, Part.entries, Part.fans, Part.free, Part.fw, Part.gln, Part.glz, Part.hif, Part.ipl, Part.jobs, Part.kln, Part.memory, Part.mil, Part.mot, Part.msix, Part.out, Part.pif, Part.ports, Part.pwr, Part.reads, Part.rings, Part.sag, Part.stk, Part.thm, Part.thr, Part.til, Part.tly, Part.trm, Part.win]), p ∈ ps) (h : Keeps ps σ s0) : Keeps ps σ (deepWake t s0) := by
  unfold deepWake
  extract_lets σ1
  have hσ1 : Keeps ps σ σ1 := by
    unfold σ1
    refine advanceTo_keeps _ _ (Keeps.sub (by decide) hp) ?_
    exact h
  refine Keeps.ite (fun _ => ?_) fun _ => ?_
  · refine startBoot_keeps _ _ _ _ (Keeps.sub (by decide) hp) ?_
    exact hσ1
  · exact hσ1

theorem execDeepWakeTimer_keeps (t : DWord) (s : State) :
    ∃ τ, execDeepWakeTimer t s = .next τ ∧ Keeps (allRegs ++ [Part.cal, Part.clk, Part.clock, Part.crk, Part.entries, Part.fans, Part.free, Part.fw, Part.gln, Part.glz, Part.hif, Part.ipl, Part.jobs, Part.kln, Part.memory, Part.mil, Part.mot, Part.msix, Part.out, Part.pif, Part.ports, Part.pwr, Part.reads, Part.rings, Part.sag, Part.stk, Part.thm, Part.thr, Part.til, Part.tly, Part.trm, Part.win]) s τ := by
  refine Keeps.exec fun ps σ hp h => ?_
  unfold execDeepWakeTimer
  refine ⟨_, rfl, ?_⟩
  refine deepWake_keeps _ _ (Keeps.sub (by decide) hp) ?_
  exact h

theorem supplyLow_keeps {ps : List Part} {σ : State} (k : Nat) (strap : BitVec 5) (s : State)
    (hp : ∀ p ∈ (allRegs ++ [Part.cal, Part.clk, Part.clock, Part.crk, Part.entries, Part.fans, Part.free, Part.fw, Part.gln, Part.glz, Part.hif, Part.ipl, Part.jobs, Part.kln, Part.memory, Part.mil, Part.mot, Part.msix, Part.out, Part.pif, Part.ports, Part.pwr, Part.reads, Part.rings, Part.sag, Part.stk, Part.thm, Part.thr, Part.til, Part.tly, Part.trm, Part.win]), p ∈ ps) (h : Keeps ps σ s) : Keeps ps σ (supplyLow k strap s) := by
  unfold supplyLow
  refine Keeps.ite (fun _ => ?_) fun _ => ?_
  · exact h
  · extract_lets σ1 σ2 σ3
    have hσ2 : Keeps ps σ σ2 := by
      unfold σ2
      refine Keeps.set_pwr (hp _ (by decide)) ?_
      exact h
    have hσ32 : Keeps ps σ σ3.2 := by
      unfold σ3
      refine draw_keeps _ _ (Keeps.sub (by decide) hp) ?_
      exact hσ2
    refine Keeps.ite (fun _ => ?_) fun _ => ?_
    · refine porReset_keeps _ _ (Keeps.sub (by decide) hp) ?_
      exact hσ2
    · refine Keeps.ite (fun _ => ?_) fun _ => ?_
      · exact hσ2
      · refine startBoot_keeps _ _ _ _ (Keeps.sub (by decide) hp) ?_
        exact hσ32

theorem execSupplyOutOfRange_keeps (supply : Fin 11) (strap : BitVec 5) (s : State) :
    ∃ τ, execSupplyOutOfRange supply strap s = .next τ ∧ Keeps (allRegs ++ [Part.cal, Part.clk, Part.clock, Part.crk, Part.entries, Part.fans, Part.free, Part.fw, Part.gln, Part.glz, Part.hif, Part.ipl, Part.jobs, Part.kln, Part.memory, Part.mil, Part.mot, Part.msix, Part.out, Part.pif, Part.ports, Part.pwr, Part.reads, Part.rings, Part.sag, Part.stk, Part.thm, Part.thr, Part.til, Part.tly, Part.trm, Part.win]) s τ := by
  refine Keeps.exec fun ps σ hp h => ?_
  unfold execSupplyOutOfRange
  refine ⟨_, rfl, ?_⟩
  refine supplyLow_keeps _ _ _ (Keeps.sub (by decide) hp) ?_
  exact h

theorem supplyBack_keeps {ps : List Part} {σ : State} (k : Nat) (s : State)
    (hp : ∀ p ∈ [Part.msix, Part.out, Part.pwr, Part.reg .pwr, Part.reg .stk, Part.rings, Part.stk], p ∈ ps) (h : Keeps ps σ s) : Keeps ps σ (supplyBack k s) := by
  unfold supplyBack
  refine Keeps.ite (fun _ => ?_) fun _ => ?_
  · extract_lets σ1 σ2
    have hσ2 : Keeps ps σ σ2 := by
      unfold σ2
      refine Keeps.set_pwr (hp _ (by decide)) ?_
      exact h
    refine Keeps.ite (fun _ => ?_) fun _ => ?_
    · exact hσ2
    · refine raiseIrq_keeps _ _ _ (Keeps.sub (by decide) hp) ?_
      refine event_keeps _ _ _ _ (Keeps.sub (by decide) hp) ?_
      exact hσ2
  · exact h

theorem execSupplyReturn_keeps (supply : Fin 11) (s : State) :
    ∃ τ, execSupplyReturn supply s = .next τ ∧ Keeps [Part.msix, Part.out, Part.pwr, Part.reg .pwr, Part.reg .stk, Part.rings, Part.stk] s τ := by
  refine Keeps.exec fun ps σ hp h => ?_
  unfold execSupplyReturn
  refine ⟨_, rfl, ?_⟩
  refine supplyBack_keeps _ _ (Keeps.sub (by decide) hp) ?_
  exact h

end Sys2Proof.Machine
end

