-- ==== Sys2Proof/Laws/KeepsMill.lean ====
section
/-! SUPPORT. What the operations of Machine/Mill.lean change, and what they keep. -/

namespace Sys2Proof.Machine
open Sys2Proof

theorem jobBlock_keeps {ps : List Part} {σ : State} (lane : Nat) (j : MillJob) (s : State)
    (hp : ∀ p ∈ [Part.msix, Part.out, Part.reg .mil, Part.reg .stk, Part.rings, Part.stk], p ∈ ps) (h : Keeps ps σ s) : Keeps ps σ (jobBlock lane j s).2 := by
  unfold jobBlock
  extract_lets σ1 σ2 σ3 σ4 σ5
  refine Keeps.ite_snd (fun _ => ?_) fun _ => ?_
  · exact h
  · refine Keeps.ite_snd (fun _ => ?_) fun _ => ?_
    · exact h
    · refine Keeps.ite_snd (fun _ => ?_) fun _ => ?_
      · exact h
      · split
        · extract_lets σ6 σ7 σ8 σ9 σ10
          have hσ9 : Keeps ps σ σ9 := by
            unfold σ9
            refine inc64_keeps _ _ _ (Keeps.sub (by decide) hp) ?_
            refine inc64_keeps _ _ _ (Keeps.sub (by decide) hp) ?_
            refine inc_keeps _ _ _ (Keeps.sub (by decide) hp) ?_
            exact h
          have hσ10 : Keeps ps σ σ10 := by
            unfold σ10
            refine Keeps.ite (fun _ => ?_) fun _ => ?_
            · refine inc_keeps _ _ _ (Keeps.sub (by decide) hp) ?_
              exact hσ9
            · refine Keeps.ite (fun _ => ?_) fun _ => ?_
              · refine inc_keeps _ _ _ (Keeps.sub (by decide) hp) ?_
                exact hσ9
              · exact hσ9
          refine Keeps.snd ?_
          refine Keeps.ite (fun _ => ?_) fun _ => ?_
          · refine raiseIrq_keeps _ _ _ (Keeps.sub (by decide) hp) ?_
            refine event_keeps _ _ _ _ (Keeps.sub (by decide) hp) ?_
            refine inc_keeps _ _ _ (Keeps.sub (by decide) hp) ?_
            exact hσ10
          · exact hσ10

theorem imageBlock_keeps {ps : List Part} {σ : State} (lane : Nat) (s : State)
    (hp : ∀ p ∈ [Part.mil, Part.msix, Part.out, Part.reg .mil, Part.reg .stk, Part.rings, Part.stk], p ∈ ps) (h : Keeps ps σ s) : Keeps ps σ (imageBlock lane s) := by
  unfold imageBlock
  split
  · exact h
  · extract_lets σ1 σ2 σ3
    have hσ12 : Keeps ps σ σ1.2 := by
      unfold σ1
      refine jobBlock_keeps _ _ _ (Keeps.sub (by decide) hp) ?_
      exact h
    have hσ2 : Keeps ps σ σ2 := by
      unfold σ2
      exact hσ12
    refine Keeps.set_mil (hp _ (by decide)) ?_
    exact hσ2

theorem captureBlock_keeps {ps : List Part} {σ : State} (lane : Nat) (p : Nat) (s : State)
    (hp : ∀ q ∈ [Part.mil, Part.msix, Part.out, Part.reg .mil, Part.reg .stk, Part.rings, Part.stk], q ∈ ps) (h : Keeps ps σ s) : Keeps ps σ (captureBlock lane p s) := by
  unfold captureBlock
  split
  · exact h
  · extract_lets σ1 σ2 σ3 σ4
    have hσ12 : Keeps ps σ σ1.2 := by
      unfold σ1
      refine jobBlock_keeps _ _ _ (Keeps.sub (by decide) hp) ?_
      exact h
    have hσ2 : Keeps ps σ σ2 := by
      unfold σ2
      exact hσ12
    refine Keeps.ite (fun _ => ?_) fun _ => ?_
    · refine Keeps.set_mil (hp _ (by decide)) ?_
      exact hσ2
    · refine Keeps.set_mil (hp _ (by decide)) ?_
      exact hσ2

theorem millBlock_keeps {ps : List Part} {σ : State} (lane : Nat) (capture : Option (Fin 16)) (s : State)
    (hp : ∀ p ∈ [Part.mil, Part.msix, Part.out, Part.reg .mil, Part.reg .stk, Part.rings, Part.stk], p ∈ ps) (h : Keeps ps σ s) : Keeps ps σ (millBlock lane capture s) := by
  unfold millBlock
  split
  · refine imageBlock_keeps _ _ (Keeps.sub (by decide) hp) ?_
    exact h
  · refine captureBlock_keeps _ _ _ (Keeps.sub (by decide) hp) ?_
    exact h

theorem execMillBlock_keeps (lane : Fin 2) (capture : Option (Fin 16)) (s : State) :
    ∃ τ, execMillBlock lane capture s = .next τ ∧ Keeps [Part.mil, Part.msix, Part.out, Part.reg .mil, Part.reg .stk, Part.rings, Part.stk] s τ := by
  refine Keeps.exec fun ps σ hp h => ?_
  unfold execMillBlock
  refine ⟨_, rfl, ?_⟩
  refine millBlock_keeps _ _ _ (Keeps.sub (by decide) hp) ?_
  exact h

end Sys2Proof.Machine
end

