-- ==== Sys2Proof/Laws/KeepsCamera.lean ====
section
/-! SUPPORT. What the operations of Machine/Camera.lean change, and what they keep. -/

namespace Sys2Proof.Machine
open Sys2Proof

theorem setCam_keeps {ps : List Part} {σ : State} (k : Nat) (st : CamState) (cause : Nat) (s : State)
    (hp : ∀ p ∈ [Part.ipl, Part.msix, Part.out, Part.reg .iplP, Part.reg .stk, Part.rings, Part.stk], p ∈ ps) (h : Keeps ps σ s) : Keeps ps σ (setCam k st cause s) := by
  unfold setCam
  extract_lets σ1
  refine Keeps.ite (fun _ => ?_) fun _ => ?_
  · exact h
  · refine raiseIrq_keeps _ _ _ (Keeps.sub (by simp) hp) ?_
    refine event_keeps _ _ _ _ (Keeps.sub (by decide) hp) ?_
    refine updCam_keeps _ _ _ (Keeps.sub (by decide) hp) ?_
    exact h

theorem camStop_keeps {ps : List Part} {σ : State} (k : Nat) (cause : Nat) (s : State)
    (hp : ∀ p ∈ [Part.crk, Part.free, Part.fw, Part.gln, Part.glz, Part.ipl, Part.jobs, Part.mil, Part.msix, Part.out, Part.reg .gln, Part.reg .iplC, Part.reg .iplP, Part.reg .stk, Part.reg .tilC, Part.reg .win, Part.rings, Part.sag, Part.stk, Part.thr, Part.til, Part.win], p ∈ ps) (h : Keeps ps σ s) : Keeps ps σ (camStop k cause s) := by
  unfold camStop
  refine Keeps.ite (fun _ => ?_) fun _ => ?_
  · exact h
  · extract_lets σ1 σ2 σ3 σ4 σ5 σ6 σ7
    have hσ3 : Keeps ps σ σ3 := by
      unfold σ3
      refine setCam_keeps _ _ _ _ (Keeps.sub (by decide) hp) ?_
      refine updCam_keeps _ _ _ (Keeps.sub (by decide) hp) ?_
      exact h
    have hσ4 : Keeps ps σ σ4 := by
      unfold σ4
      refine wf_keeps _ _ _ _ _ (Keeps.sub (by decide) hp) ?_
      exact hσ3
    have hσ7 : Keeps ps σ σ7 := by
      unfold σ7
      refine Keeps.set_mil_ipl (hp _ (by decide)) (hp _ (by decide)) ?_
      exact hσ4
    refine tryRules_keeps _ (Keeps.sub (by decide) hp) ?_
    refine closeWindows_keeps _ (Keeps.sub (by decide) hp) ?_
    refine refreshWindows_keeps _ (Keeps.sub (by decide) hp) ?_
    refine idleLatch_keeps _ _ (Keeps.sub (by simp) hp) ?_
    exact hσ7

theorem camStart_keeps {ps : List Part} {σ : State} (k : Nat) (s : State)
    (hp : ∀ p ∈ [Part.ipl, Part.msix, Part.out, Part.reg .iplC, Part.reg .iplP, Part.reg .stk, Part.rings, Part.stk], p ∈ ps) (h : Keeps ps σ s) : Keeps ps σ (camStart k s) := by
  unfold camStart
  refine Keeps.ite (fun _ => ?_) fun _ => ?_
  · exact h
  · refine setCam_keeps _ _ _ _ (Keeps.sub (by decide) hp) ?_
    refine wf_keeps _ _ _ _ _ (Keeps.sub (by decide) hp) ?_
    refine updCam_keeps _ _ _ (Keeps.sub (by decide) hp) ?_
    exact h

theorem reserveRings_keeps {ps : List Part} {σ : State} (s : State)
    (hp : ∀ p ∈ [Part.win], p ∈ ps) (h : Keeps ps σ s) : Keeps ps σ (reserveRings s) := by
  unfold reserveRings
  refine Keeps.foldl ?_ ?_
  · intro τ1 χ2 hτ3
    refine reserveRing_keeps _ _ (Keeps.sub (by decide) hp) ?_
    exact hτ3
  · refine Keeps.set_win (hp _ (by decide)) ?_
    exact h

theorem refreshOldest_keeps {ps : List Part} {σ : State} (s : State)
    (hp : ∀ p ∈ [Part.reg .iplP], p ∈ ps) (h : Keeps ps σ s) : Keeps ps σ (refreshOldest s) := by
  unfold refreshOldest
  refine Keeps.foldl ?_ ?_
  · intro τ1 χ2 hτ3
    refine wn_keeps _ _ _ (Keeps.sub (by simp) hp) ?_
    exact hτ3
  · exact h

theorem takeStore_keeps {ps : List Part} {σ : State} (s : State)
    (hp : ∀ p ∈ [Part.ipl, Part.reg .iplP], p ∈ ps) (h : Keeps ps σ s) : Keeps ps σ (takeStore s) := by
  unfold takeStore
  refine Keeps.ite (fun _ => ?_) fun _ => ?_
  · exact h
  · extract_lets σ1 σ2
    refine refreshOldest_keeps _ (Keeps.sub (by decide) hp) ?_
    refine Keeps.set_ipl (hp _ (by decide)) ?_
    exact h

theorem camStarts_keeps {ps : List Part} {σ : State} (ks : List Nat) (s : State)
    (hp : ∀ p ∈ [Part.gln, Part.ipl, Part.msix, Part.out, Part.reg .iplC, Part.reg .iplP, Part.reg .stk, Part.rings, Part.stk], p ∈ ps) (h : Keeps ps σ s) : Keeps ps σ (camStarts ks s) := by
  unfold camStarts
  refine Keeps.ite (fun _ => ?_) fun _ => ?_
  · exact h
  · refine refreshWindows_keeps _ (Keeps.sub (by decide) hp) ?_
    refine Keeps.foldl ?_ ?_
    · intro τ1 χ2 hτ3
      refine camStart_keeps _ _ (Keeps.sub (by decide) hp) ?_
      exact hτ3
    · refine takeStore_keeps _ (Keeps.sub (by decide) hp) ?_
      exact h

theorem inspectControl_keeps {ps : List Part} {σ : State} (h : Hdr) (mask : Nat) (inl : Nat) (action : Nat) (s : State)
    (hp : ∀ p ∈ [Part.crk, Part.free, Part.fw, Part.gln, Part.glz, Part.ipl, Part.jobs, Part.mil, Part.msix, Part.out, Part.reg .gln, Part.reg .iplC, Part.reg .iplP, Part.reg .stk, Part.reg .tilC, Part.reg .win, Part.rings, Part.sag, Part.stk, Part.thr, Part.til, Part.win], p ∈ ps) (hs : Keeps ps σ s) : Keeps ps σ (inspectControl h mask inl action s) := by
  unfold inspectControl
  refine Keeps.ite (fun _ => ?_) fun _ => ?_
  · refine fail_keeps _ _ _ (Keeps.sub (by decide) hp) ?_
    exact hs
  · refine Keeps.ite (fun _ => ?_) fun _ => ?_
    · refine ok_keeps _ _ _ (Keeps.sub (by decide) hp) ?_
      refine Keeps.foldl ?_ ?_
      · intro τ1 χ2 hτ3
        refine camStop_keeps _ _ _ (Keeps.sub (by decide) hp) ?_
        exact hτ3
      · exact hs
    · extract_lets σ4
      have hσ4 : Keeps ps σ σ4 := by
        unfold σ4
        refine Keeps.ite (fun _ => ?_) fun _ => ?_
        · exact hs
        · refine reserveRings_keeps _ (Keeps.sub (by decide) hp) ?_
          exact hs
      refine Keeps.ite (fun _ => ?_) fun _ => ?_
      · refine fail_keeps _ _ _ (Keeps.sub (by decide) hp) ?_
        exact hs
      · refine ok_keeps _ _ _ (Keeps.sub (by decide) hp) ?_
        refine wf_keeps _ _ _ _ _ (Keeps.sub (by decide) hp) ?_
        refine camStarts_keeps _ _ (Keeps.sub (by decide) hp) ?_
        exact hσ4

theorem execInspectControl_keeps (d : Desc) (mask : BitVec 8) (inline : BitVec 8) (action : BitVec 8) (s : State) :
    ∃ τ, execInspectControl d mask inline action s = .next τ ∧ Keeps [Part.crk, Part.free, Part.fw, Part.gln, Part.glz, Part.ipl, Part.jobs, Part.mil, Part.msix, Part.out, Part.reg .gln, Part.reg .hif, Part.reg .iplC, Part.reg .iplP, Part.reg .stk, Part.reg .tilC, Part.reg .win, Part.rings, Part.sag, Part.stk, Part.thr, Part.til, Part.win] s τ := by
  refine Keeps.exec fun ps σ hp h => ?_
  unfold execInspectControl
  refine ⟨_, rfl, ?_⟩
  refine command_keeps _ _ _ _ _ _ ?_ (Keeps.sub (by decide) hp) ?_
  · intro χ1 τ2 hτ3
    refine inspectControl_keeps _ _ _ _ _ (Keeps.sub (by decide) hp) ?_
    exact hτ3
  · exact h

theorem iplCtrlWrite_keeps {ps : List Part} {σ : State} (v : Word) (s : State)
    (hp : ∀ p ∈ [Part.crk, Part.free, Part.fw, Part.gln, Part.glz, Part.ipl, Part.jobs, Part.mil, Part.msix, Part.out, Part.reg .gln, Part.reg .iplC, Part.reg .iplP, Part.reg .stk, Part.reg .tilC, Part.reg .win, Part.rings, Part.sag, Part.stk, Part.thr, Part.til, Part.win], p ∈ ps) (h : Keeps ps σ s) : Keeps ps σ (iplCtrlWrite v s) := by
  unfold iplCtrlWrite
  extract_lets σ1 σ2 σ3
  have hσ1 : Keeps ps σ σ1 := by
    unfold σ1
    refine Keeps.foldl ?_ ?_
    · intro τ4 χ5 hτ6
      refine Keeps.ite (fun _ => ?_) fun _ => ?_
      · refine camStop_keeps _ _ _ (Keeps.sub (by decide) hp) ?_
        exact hτ6
      · exact hτ6
    · exact h
  have hσ3 : Keeps ps σ σ3 := by
    unfold σ3
    refine Keeps.ite (fun _ => ?_) fun _ => ?_
    · exact hσ1
    · refine reserveRings_keeps _ (Keeps.sub (by decide) hp) ?_
      exact hσ1
  refine wf_keeps _ _ _ _ _ (Keeps.sub (by decide) hp) ?_
  refine camStarts_keeps _ _ (Keeps.sub (by decide) hp) ?_
  exact hσ3

theorem missLine_keeps {ps : List Part} {σ : State} (k : Nat) (s : State)
    (hp : ∀ p ∈ [Part.ipl, Part.reg .iplP], p ∈ ps) (h : Keeps ps σ s) : Keeps ps σ (missLine k s) := by
  unfold missLine
  refine inc_keeps _ _ _ (Keeps.sub (by simp) hp) ?_
  refine updCam_keeps _ _ _ (Keeps.sub (by decide) hp) ?_
  exact h

theorem captureLine_keeps {ps : List Part} {σ : State} (k : Nat) (dt : Nat) (bs : List Byte) (s : State)
    (hp : ∀ p ∈ [Part.ipl], p ∈ ps) (h : Keeps ps σ s) : Keeps ps σ (captureLine k dt bs s) := by
  unfold captureLine
  split
  · refine Keeps.ite (fun _ => ?_) fun _ => ?_
    · exact h
    · refine updCam_keeps _ _ _ (Keeps.sub (by decide) hp) ?_
      exact h
  · exact h

theorem stallEnd_keeps {ps : List Part} {σ : State} (k : Nat) (s : State)
    (hp : ∀ p ∈ [Part.ipl, Part.msix, Part.out, Part.reg .iplP, Part.reg .stk, Part.rings, Part.stk], p ∈ ps) (h : Keeps ps σ s) : Keeps ps σ (stallEnd k s) := by
  unfold stallEnd
  refine Keeps.ite (fun _ => ?_) fun _ => ?_
  · refine raiseIrq_keeps _ _ _ (Keeps.sub (by simp) hp) ?_
    refine event_keeps _ _ _ _ (Keeps.sub (by decide) hp) ?_
    refine setCam_keeps _ _ _ _ (Keeps.sub (by decide) hp) ?_
    exact h
  · exact h

theorem ringOverwrite_keeps {ps : List Part} {σ : State} (k : Nat) (s : State)
    (hp : ∀ p ∈ [Part.ipl, Part.reg .iplP], p ∈ ps) (h : Keeps ps σ s) : Keeps ps σ (ringOverwrite k s) := by
  unfold ringOverwrite
  extract_lets σ1
  split
  · refine Keeps.ite (fun _ => ?_) fun _ => ?_
    · refine inc_keeps _ _ _ (Keeps.sub (by simp) hp) ?_
      refine updCam_keeps _ _ _ (Keeps.sub (by decide) hp) ?_
      exact h
    · exact h
  · exact h

theorem keepLine_keeps {ps : List Part} {σ : State} (k : Nat) (dt : Nat) (t : Nat) (bs : List Byte) (s : State)
    (hp : ∀ p ∈ [Part.ipl, Part.msix, Part.out, Part.reg .iplP, Part.reg .stk, Part.rings, Part.stk], p ∈ ps) (h : Keeps ps σ s) : Keeps ps σ (keepLine k dt t bs s) := by
  unfold keepLine
  extract_lets σ1 σ2 σ3
  have hσ1 : Keeps ps σ σ1 := by
    unfold σ1
    refine captureLine_keeps _ _ _ _ (Keeps.sub (by decide) hp) ?_
    refine stallEnd_keeps _ _ (Keeps.sub (by decide) hp) ?_
    exact h
  refine ringOverwrite_keeps _ _ (Keeps.sub (by decide) hp) ?_
  refine placeLines_keeps _ _ (Keeps.sub (by decide) hp) ?_
  refine updCam_keeps _ _ _ (Keeps.sub (by decide) hp) ?_
  exact hσ1

theorem longPacket_keeps {ps : List Part} {σ : State} (k : Nat) (vc : Nat) (vcx : Nat) (dt : Nat) (wc : Nat) (hdrOk : Bool) (crcOk : Bool) (full : Bool) (bs : List Byte) (t : Nat) (s0 : State)
    (hp : ∀ p ∈ [Part.clock, Part.ipl, Part.msix, Part.out, Part.reg .iplP, Part.reg .stk, Part.reg .tim, Part.rings, Part.stk], p ∈ ps) (h : Keeps ps σ s0) : Keeps ps σ (longPacket k vc vcx dt wc hdrOk crcOk full bs t s0) := by
  unfold longPacket
  extract_lets σ1 σ2
  have hσ1 : Keeps ps σ σ1 := by
    unfold σ1
    refine advanceTo_keeps _ _ (Keeps.sub (by decide) hp) ?_
    exact h
  refine Keeps.ite (fun _ => ?_) fun _ => ?_
  · exact hσ1
  · refine Keeps.ite (fun _ => ?_) fun _ => ?_
    · refine missLine_keeps _ _ (Keeps.sub (by decide) hp) ?_
      refine inc_keeps _ _ _ (Keeps.sub (by simp) hp) ?_
      exact hσ1
    · refine Keeps.ite (fun _ => ?_) fun _ => ?_
      · refine missLine_keeps _ _ (Keeps.sub (by decide) hp) ?_
        refine inc_keeps _ _ _ (Keeps.sub (by simp) hp) ?_
        exact hσ1
      · refine Keeps.ite (fun _ => ?_) fun _ => ?_
        · refine missLine_keeps _ _ (Keeps.sub (by decide) hp) ?_
          refine inc_keeps _ _ _ (Keeps.sub (by simp) hp) ?_
          exact hσ1
        · refine keepLine_keeps _ _ _ _ _ (Keeps.sub (by decide) hp) ?_
          exact hσ1

theorem execCsiLongPacket_keeps (port : Fin 4) (vc : BitVec 2) (vcx : BitVec 2) (dt : BitVec 6) (wc : BitVec 16) (hdrOk : Bool) (crcOk : Bool) (full : Bool) (bytes : List Byte) (t : DWord) (s : State) :
    ∃ τ, execCsiLongPacket port vc vcx dt wc hdrOk crcOk full bytes t s = .next τ ∧ Keeps [Part.clock, Part.ipl, Part.msix, Part.out, Part.reg .iplP, Part.reg .stk, Part.reg .tim, Part.rings, Part.stk] s τ := by
  refine Keeps.exec fun ps σ hp h => ?_
  unfold execCsiLongPacket
  refine ⟨_, rfl, ?_⟩
  refine longPacket_keeps _ _ _ _ _ _ _ _ _ _ _ (Keeps.sub (by decide) hp) ?_
  exact h

theorem shortPacket_keeps {ps : List Part} {σ : State} (k : Nat) (vc : Nat) (vcx : Nat) (kind : ShortPacket) (hdrOk : Bool) (t : Nat) (s0 : State)
    (hp : ∀ p ∈ [Part.clock, Part.ipl, Part.msix, Part.out, Part.reg .iplP, Part.reg .stk, Part.reg .tim, Part.rings, Part.stk], p ∈ ps) (h : Keeps ps σ s0) : Keeps ps σ (shortPacket k vc vcx kind hdrOk t s0) := by
  unfold shortPacket
  extract_lets σ1 σ2
  have hσ1 : Keeps ps σ σ1 := by
    unfold σ1
    refine advanceTo_keeps _ _ (Keeps.sub (by decide) hp) ?_
    exact h
  have hσ2 : Keeps ps σ σ2 := by
    unfold σ2
    refine updCam_keeps _ _ _ (Keeps.sub (by decide) hp) ?_
    exact hσ1
  refine Keeps.ite (fun _ => ?_) fun _ => ?_
  · exact hσ1
  · refine Keeps.ite (fun _ => ?_) fun _ => ?_
    · refine inc_keeps _ _ _ (Keeps.sub (by simp) hp) ?_
      exact hσ1
    · split
      · refine Keeps.ite (fun _ => ?_) fun _ => ?_
        · refine inc_keeps _ _ _ (Keeps.sub (by simp) hp) ?_
          exact hσ2
        · exact hσ2
      · refine updCam_keeps _ _ _ (Keeps.sub (by decide) hp) ?_
        exact hσ1
      · exact hσ1

theorem execCsiShortPacket_keeps (port : Fin 4) (vc : BitVec 2) (vcx : BitVec 2) (kind : ShortPacket) (hdrOk : Bool) (t : DWord) (s : State) :
    ∃ τ, execCsiShortPacket port vc vcx kind hdrOk t s = .next τ ∧ Keeps [Part.clock, Part.ipl, Part.msix, Part.out, Part.reg .iplP, Part.reg .stk, Part.reg .tim, Part.rings, Part.stk] s τ := by
  refine Keeps.exec fun ps σ hp h => ?_
  unfold execCsiShortPacket
  refine ⟨_, rfl, ?_⟩
  refine shortPacket_keeps _ _ _ _ _ _ _ (Keeps.sub (by decide) hp) ?_
  exact h

theorem stallTimeout_keeps {ps : List Part} {σ : State} (k : Nat) (t : Nat) (s : State)
    (hp : ∀ p ∈ [Part.clock, Part.gln, Part.ipl, Part.msix, Part.out, Part.reg .gln, Part.reg .iplP, Part.reg .stk, Part.reg .tim, Part.rings, Part.stk], p ∈ ps) (h : Keeps ps σ s) : Keeps ps σ (stallTimeout k t s) := by
  unfold stallTimeout
  extract_lets σ1 σ2 σ3 σ4
  have hσ3 : Keeps ps σ σ3 := by
    unfold σ3
    refine advanceTo_keeps _ _ (Keeps.sub (by decide) hp) ?_
    exact h
  have hσ4 : Keeps ps σ σ4 := by
    unfold σ4
    refine setCam_keeps _ _ _ _ (Keeps.sub (by decide) hp) ?_
    refine updCam_keeps _ _ _ (Keeps.sub (by decide) hp) ?_
    exact hσ3
  refine Keeps.ite (fun _ => ?_) fun _ => ?_
  · exact h
  · refine closeWindows_keeps _ (Keeps.sub (by decide) hp) ?_
    refine raiseIrq_keeps _ _ _ (Keeps.sub (by simp) hp) ?_
    refine event_keeps _ _ _ _ (Keeps.sub (by decide) hp) ?_
    refine inc_keeps _ _ _ (Keeps.sub (by simp) hp) ?_
    exact hσ4

theorem execIplStallTimeout_keeps (port : Fin 4) (t : DWord) (s : State) :
    ∃ τ, execIplStallTimeout port t s = .next τ ∧ Keeps [Part.clock, Part.gln, Part.ipl, Part.msix, Part.out, Part.reg .gln, Part.reg .iplP, Part.reg .stk, Part.reg .tim, Part.rings, Part.stk] s τ := by
  refine Keeps.exec fun ps σ hp h => ?_
  unfold execIplStallTimeout
  refine ⟨_, rfl, ?_⟩
  refine stallTimeout_keeps _ _ _ (Keeps.sub (by decide) hp) ?_
  exact h

theorem captWrite_keeps {ps : List Part} {σ : State} (k : Nat) (v : Word) (s : State)
    (hp : ∀ p ∈ [Part.ipl, Part.msix, Part.out, Part.reg .iplP], p ∈ ps) (h : Keeps ps σ s) : Keeps ps σ (captWrite k v s) := by
  unfold captWrite
  extract_lets σ1 σ2
  refine Keeps.ite (fun _ => ?_) fun _ => ?_
  · exact h
  · refine Keeps.ite (fun _ => ?_) fun _ => ?_
    · refine recordErr_keeps _ _ _ (Keeps.sub (by simp) hp) ?_
      exact h
    · refine Keeps.ite (fun _ => ?_) fun _ => ?_
      · refine recordErr_keeps _ _ _ (Keeps.sub (by simp) hp) ?_
        exact h
      · refine updCam_keeps _ _ _ (Keeps.sub (by decide) hp) ?_
        exact h

theorem execShadingCaptureDark_keeps (ini : Initiator) (port : Fin 4) (val : Word) (s : State) :
    ∃ τ, execShadingCaptureDark ini port val s = .next τ ∧ Keeps [Part.ipl, Part.msix, Part.out, Part.reg .hif, Part.reg .iplP] s τ := by
  refine Keeps.exec fun ps σ hp h => ?_
  unfold execShadingCaptureDark
  refine ⟨_, rfl, ?_⟩
  refine guardWrite_keeps _ _ _ _ _ _ ?_ (Keeps.sub (by simp) hp) ?_
  · intro χ1 τ2 hτ3
    refine captWrite_keeps _ _ _ (Keeps.sub (by decide) hp) ?_
    exact hτ3
  · exact h

theorem execShadingCaptureWhite_keeps (ini : Initiator) (port : Fin 4) (val : Word) (s : State) :
    ∃ τ, execShadingCaptureWhite ini port val s = .next τ ∧ Keeps [Part.ipl, Part.msix, Part.out, Part.reg .hif, Part.reg .iplP] s τ := by
  refine Keeps.exec fun ps σ hp h => ?_
  unfold execShadingCaptureWhite
  refine ⟨_, rfl, ?_⟩
  refine guardWrite_keeps _ _ _ _ _ _ ?_ (Keeps.sub (by simp) hp) ?_
  · intro χ1 τ2 hτ3
    refine captWrite_keeps _ _ _ (Keeps.sub (by decide) hp) ?_
    exact hτ3
  · exact h

theorem captDone_keeps {ps : List Part} {σ : State} (k : Nat) (s : State)
    (hp : ∀ p ∈ [Part.fw, Part.ipl, Part.kln, Part.memory, Part.msix, Part.out, Part.reg .cal, Part.reg .iplP, Part.reg .klnC, Part.reg .stk, Part.reg .tilC, Part.reg .tilE, Part.rings, Part.stk, Part.til], p ∈ ps) (h : Keeps ps σ s) : Keeps ps σ (captDone k s) := by
  unfold captDone
  split
  · refine Keeps.ite (fun _ => ?_) fun _ => ?_
    · exact h
    · extract_lets σ1 σ2 σ3 σ4 σ5 σ6 σ7
      have hσ7 : Keeps ps σ σ7 := by
        unfold σ7
        refine updCam_keeps _ _ _ (Keeps.sub (by decide) hp) ?_
        exact h
      refine pendPage_keeps _ _ (Keeps.sub (by simp) hp) ?_
      refine raiseIrq_keeps _ _ _ (Keeps.sub (by simp) hp) ?_
      refine event_keeps _ _ _ _ (Keeps.sub (by decide) hp) ?_
      exact hσ7
  · exact h

theorem execShadingCaptureDone_keeps (port : Fin 4) (s : State) :
    ∃ τ, execShadingCaptureDone port s = .next τ ∧ Keeps [Part.fw, Part.ipl, Part.kln, Part.memory, Part.msix, Part.out, Part.reg .cal, Part.reg .iplP, Part.reg .klnC, Part.reg .stk, Part.reg .tilC, Part.reg .tilE, Part.rings, Part.stk, Part.til] s τ := by
  refine Keeps.exec fun ps σ hp h => ?_
  unfold execShadingCaptureDone
  refine ⟨_, rfl, ?_⟩
  refine captDone_keeps _ _ (Keeps.sub (by decide) hp) ?_
  exact h

theorem camWrite_keeps {ps : List Part} {s0 : State} (k : Nat) (bs : List Byte) (s : State)
    (hp : ∀ p ∈ [Part.ipl, Part.reg .iplP], p ∈ ps) (h : Keeps ps s0 s) : Keeps ps s0 (camWrite k bs s) := by
  unfold camWrite
  extract_lets s1 ks tab
  have h1 : Keeps ps s0 s1 := by
    refine Keeps.foldl_mem (fun t i hi ht => ?_) h
    have hk : keyKind (pgIpl k * 4096 + 256 + 4 * i) = .iplP := by
      have hi : i < 13 := List.mem_range.mp hi
      refine (keyKind_of (n := pgIpl k) ?_).trans (pageKind_pgIpl k)
      have : k % 4 < 4 := Nat.mod_lt _ (by decide)
      simp only [pgIpl]; omega
    have hg : pageKind ((pgIpl k * 4096 + 256 + 4 * i) / 0x1000) = .iplP := by
      have hi : i < 13 := List.mem_range.mp hi
      rw [show (pgIpl k * 4096 + 256 + 4 * i) / 0x1000 = pgIpl k by omega]
      exact pageKind_pgIpl k
    exact cmdShadowN_keeps _ _ _ (Keeps.sub (by simp [hk, hg]) hp) ht
  exact updCam_keeps _ _ _ (Keeps.sub (by decide) hp) h1

theorem cameraConfig_keeps {ps : List Part} {σ : State} (h : Hdr) (c : Instr) (k : Nat) (x : Stream) (s : State)
    (hp : ∀ p ∈ [Part.fw, Part.ipl, Part.msix, Part.out, Part.reg .iplP, Part.reg .stk, Part.reg .tilC, Part.rings, Part.stk, Part.til], p ∈ ps) (hs : Keeps ps σ s) : Keeps ps σ (cameraConfig h c k x s) := by
  unfold cameraConfig
  extract_lets σ1 σ2 σ3
  have hσ3 : Keeps ps σ σ3 := by
    unfold σ3
    refine park_keeps _ _ (Keeps.sub (by decide) hp) ?_
    refine camWrite_keeps _ _ _ (Keeps.sub (by decide) hp) ?_
    exact hs
  refine Keeps.ite (fun _ => ?_) fun _ => ?_
  · refine fail_keeps _ _ _ (Keeps.sub (by decide) hp) ?_
    exact hs
  · refine idleLatch_keeps _ _ (Keeps.sub (by simp) hp) ?_
    exact hσ3

theorem bodyCameraConfig_keeps {ps : List Part} {σ : State} (h : Hdr) (c : Instr) (port : Nat) (handle : Nat) (s : State)
    (hp : ∀ p ∈ [Part.fw, Part.ipl, Part.msix, Part.out, Part.reg .iplP, Part.reg .stk, Part.reg .tilC, Part.rings, Part.stk, Part.til], p ∈ ps) (hs : Keeps ps σ s) : Keeps ps σ (bodyCameraConfig h c port handle s) := by
  unfold bodyCameraConfig
  refine Keeps.ite (fun _ => ?_) fun _ => ?_
  · refine fail_keeps _ _ _ (Keeps.sub (by decide) hp) ?_
    exact hs
  · refine withStream_keeps _ _ _ _ _ _ _ ?_ (Keeps.sub (by decide) hp) ?_
    · intro χ1 τ2 hτ3
      refine cameraConfig_keeps _ _ _ _ _ (Keeps.sub (by decide) hp) ?_
      exact hτ3
    · exact hs

theorem execCameraConfig_keeps (d : Desc) (port : BitVec 8) (handle : Word) (s : State) :
    ∃ τ, execCameraConfig d port handle s = .next τ ∧ Keeps [Part.fw, Part.ipl, Part.msix, Part.out, Part.reg .hif, Part.reg .iplP, Part.reg .stk, Part.reg .tilC, Part.rings, Part.stk, Part.til] s τ := by
  refine Keeps.exec fun ps σ hp h => ?_
  unfold execCameraConfig
  refine ⟨_, rfl, ?_⟩
  refine command_keeps _ _ _ _ _ _ ?_ (Keeps.sub (by decide) hp) ?_
  · intro χ1 τ2 hτ3
    refine bodyCameraConfig_keeps _ _ _ _ _ (Keeps.sub (by decide) hp) ?_
    exact hτ3
  · exact h

theorem startImage_keeps {ps : List Part} {σ : State} (k : Nat) (n : Nat) (s : State)
    (hp : ∀ p ∈ [Part.mil, Part.reg .iplP], p ∈ ps) (h : Keeps ps σ s) : Keeps ps σ (startImage k n s) := by
  unfold startImage
  extract_lets σ1 σ2 σ3 σ4 σ5
  refine Keeps.ite (fun _ => ?_) fun _ => ?_
  · exact h
  · refine Keeps.ite (fun _ => ?_) fun _ => ?_
    · refine inc_keeps _ _ _ (Keeps.sub (by simp) hp) ?_
      exact h
    · refine Keeps.set_mil (hp _ (by decide)) ?_
      exact h

theorem endImage_keeps {ps : List Part} {σ : State} (k : Nat) (s : State)
    (hp : ∀ p ∈ [Part.mil], p ∈ ps) (h : Keeps ps σ s) : Keeps ps σ (endImage k s) := by
  unfold endImage
  refine Keeps.set_mil (hp _ (by decide)) ?_
  exact h

theorem feedImage_keeps {ps : List Part} {σ : State} (k : Nat) (t : Nat) (u : Nat) (slot : Nat) (y : Int) (bs : List Byte) (s : State)
    (hp : ∀ p ∈ [Part.mil, Part.reg .iplP], p ∈ ps) (h : Keeps ps σ s) : Keeps ps σ (feedImage k t u slot y bs s) := by
  unfold feedImage
  split
  · refine Keeps.ite (fun _ => ?_) fun _ => ?_
    · exact h
    · refine Keeps.ite (fun _ => ?_) fun _ => ?_
      · refine inc_keeps _ _ _ (Keeps.sub (by simp) hp) ?_
        refine Keeps.set_mil (hp _ (by decide)) ?_
        exact h
      · refine Keeps.set_mil (hp _ (by decide)) ?_
        exact h
  · exact h

theorem boundary_keeps {ps : List Part} {σ : State} (k : Nat) (n : Nat) (s : State)
    (hp : ∀ p ∈ [Part.crk, Part.free, Part.fw, Part.gln, Part.glz, Part.ipl, Part.jobs, Part.mil, Part.msix, Part.out, Part.reg .gln, Part.reg .iplC, Part.reg .iplP, Part.reg .stk, Part.reg .tilC, Part.reg .win, Part.rings, Part.sag, Part.stk, Part.thr, Part.til, Part.win], p ∈ ps) (h : Keeps ps σ s) : Keeps ps σ (boundary k n s) := by
  unfold boundary
  extract_lets σ1 σ2 σ3 σ4 σ5 σ6
  have hσ3 : Keeps ps σ σ3 := by
    unfold σ3
    refine endImage_keeps _ _ (Keeps.sub (by decide) hp) ?_
    refine updCam_keeps _ _ _ (Keeps.sub (by decide) hp) ?_
    exact h
  have hσ4 : Keeps ps σ σ4 := by
    unfold σ4
    refine applyPage_keeps _ _ _ (Keeps.sub (by simp) hp) ?_
    exact hσ3
  have hσ5 : Keeps ps σ σ5 := by
    unfold σ5
    refine updCam_keeps _ _ _ (Keeps.sub (by decide) hp) ?_
    exact hσ4
  have hσ6 : Keeps ps σ σ6 := by
    unfold σ6
    refine Keeps.ite (fun _ => ?_) fun _ => ?_
    · refine setCam_keeps _ _ _ _ (Keeps.sub (by decide) hp) ?_
      exact hσ5
    · exact hσ5
  refine Keeps.ite (fun _ => ?_) fun _ => ?_
  · refine camStop_keeps _ _ _ (Keeps.sub (by decide) hp) ?_
    refine updCam_keeps _ _ _ (Keeps.sub (by decide) hp) ?_
    exact hσ4
  · refine startImage_keeps _ _ _ (Keeps.sub (by decide) hp) ?_
    exact hσ6

theorem pipelineBusy_keeps {ps : List Part} {σ : State} (k : Nat) (s : State)
    (hp : ∀ p ∈ [Part.ipl, Part.reg .iplC], p ∈ ps) (h : Keeps ps σ s) : Keeps ps σ (pipelineBusy k s) := by
  unfold pipelineBusy
  extract_lets σ1 σ2 σ3
  refine inc64_keeps _ _ _ (Keeps.sub (by decide) hp) ?_
  refine Keeps.set_ipl (hp _ (by decide)) ?_
  exact h

theorem fillGap_keeps {ps : List Part} {σ : State} (k : Nat) (a : RegLine) (b : RegLine) (m : LatchMark) (y0 : Nat) (s : State)
    (hp : ∀ p ∈ [Part.free, Part.ipl], p ∈ ps) (h : Keeps ps σ s) : Keeps ps σ (fillGap k a b m y0 s) := by
  induction y0 generalizing k a b m s with
  | zero =>
    exact h
  | succ m ih =>
    unfold fillGap
    extract_lets σ1 σ2 σ3
    have hσ12 : Keeps ps σ σ1.2 := by
      unfold σ1
      refine drawIn_keeps _ _ _ (Keeps.sub (by decide) hp) ?_
      exact h
    refine ih _ _ _ _ _ ?_
    refine updCam_keeps _ _ _ (Keeps.sub (by decide) hp) ?_
    exact hσ12

theorem frameLine_keeps {ps : List Part} {σ : State} (k : Nat) (gap : Nat) (u : Nat) (l : CamLine) (m : LatchMark) (s : State)
    (hp : ∀ p ∈ [Part.cal, Part.free, Part.gln, Part.ipl, Part.mil, Part.msix, Part.out, Part.reg .cal, Part.reg .iplP, Part.reg .stk, Part.rings, Part.stk], p ∈ ps) (h : Keeps ps σ s) : Keeps ps σ (frameLine k gap u l m s) := by
  unfold frameLine
  extract_lets σ1 σ2 σ3 σ4 σ5 σ6 σ7 σ8
  have hσ6 : Keeps ps σ σ6 := by
    unfold σ6
    split
    · refine Keeps.ite (fun _ => ?_) fun _ => ?_
      · refine fillGap_keeps _ _ _ _ _ _ (Keeps.sub (by decide) hp) ?_
        exact h
      · exact h
    · exact h
  have hσ8 : Keeps ps σ σ8 := by
    unfold σ8
    refine updCam_keeps _ _ _ (Keeps.sub (by decide) hp) ?_
    exact hσ6
  refine feedImage_keeps _ _ _ _ _ _ _ (Keeps.sub (by decide) hp) ?_
  refine whiteLine_keeps _ _ _ (Keeps.sub (by decide) hp) ?_
  refine inc64_keeps _ _ _ (Keeps.sub (by simp) hp) ?_
  exact hσ8

theorem pipeLine_keeps {ps : List Part} {σ : State} (k : Nat) (gap : Nat) (u : Nat) (l : CamLine) (s : State)
    (hp : ∀ p ∈ [Part.cal, Part.crk, Part.free, Part.fw, Part.gln, Part.glz, Part.ipl, Part.jobs, Part.mil, Part.msix, Part.out, Part.reg .cal, Part.reg .gln, Part.reg .iplC, Part.reg .iplP, Part.reg .stk, Part.reg .tilC, Part.reg .win, Part.rings, Part.sag, Part.stk, Part.thr, Part.til, Part.win], p ∈ ps) (h : Keeps ps σ s) : Keeps ps σ (pipeLine k gap u l s) := by
  unfold pipeLine
  extract_lets σ1
  split
  · refine updCam_keeps _ _ _ (Keeps.sub (by decide) hp) ?_
    exact h
  · refine Keeps.ite (fun _ => ?_) fun _ => ?_
    · refine frameLine_keeps _ _ _ _ _ _ (Keeps.sub (by decide) hp) ?_
      refine pipelineBusy_keeps _ _ (Keeps.sub (by decide) hp) ?_
      exact h
    · refine Keeps.ite (fun _ => ?_) fun _ => ?_
      · refine updCam_keeps _ _ _ (Keeps.sub (by decide) hp) ?_
        exact h
      · refine Keeps.ite (fun _ => ?_) fun _ => ?_
        · refine updCam_keeps _ _ _ (Keeps.sub (by decide) hp) ?_
          exact h
        · extract_lets σ2
          have hσ2 : Keeps ps σ σ2 := by
            unfold σ2
            refine boundary_keeps _ _ _ (Keeps.sub (by decide) hp) ?_
            refine Keeps.ite (fun _ => ?_) fun _ => ?_
            · refine updCam_keeps _ _ _ (Keeps.sub (by decide) hp) ?_
              exact h
            · exact h
          refine Keeps.ite (fun _ => ?_) fun _ => ?_
          · exact hσ2
          · split
            · refine frameLine_keeps _ _ _ _ _ _ (Keeps.sub (by decide) hp) ?_
              refine pipelineBusy_keeps _ _ (Keeps.sub (by decide) hp) ?_
              exact hσ2
            · exact hσ2

theorem startLine_keeps {ps : List Part} {σ : State} (k : Nat) (s : State)
    (hp : ∀ p ∈ [Part.cal, Part.crk, Part.free, Part.fw, Part.gln, Part.glz, Part.ipl, Part.jobs, Part.mil, Part.msix, Part.out, Part.reg .cal, Part.reg .gln, Part.reg .iplC, Part.reg .iplP, Part.reg .stk, Part.reg .tilC, Part.reg .win, Part.rings, Part.sag, Part.stk, Part.thr, Part.til, Part.win], p ∈ ps) (h : Keeps ps σ s) : Keeps ps σ (startLine k s) := by
  unfold startLine
  extract_lets σ1
  split
  · split
    · extract_lets σ2 σ3
      have hσ3 : Keeps ps σ σ3 := by
        unfold σ3
        refine updCam_keeps _ _ _ (Keeps.sub (by decide) hp) ?_
        exact h
      refine Keeps.ite (fun _ => ?_) fun _ => ?_
      · refine inc_keeps _ _ _ (Keeps.sub (by simp) hp) ?_
        refine updCam_keeps _ _ _ (Keeps.sub (by decide) hp) ?_
        exact hσ3
      · refine pipeLine_keeps _ _ _ _ _ (Keeps.sub (by decide) hp) ?_
        exact hσ3
    · exact h
  · exact h

theorem skipLate_keeps {ps : List Part} {σ : State} (k : Nat) (s : State)
    (hp : ∀ p ∈ [Part.ipl, Part.msix, Part.out, Part.reg .iplP, Part.reg .stk, Part.rings, Part.stk], p ∈ ps) (h : Keeps ps σ s) : Keeps ps σ (skipLate k s) := by
  unfold skipLate
  extract_lets σ1 σ2 σ3 σ4 σ5
  have hσ4 : Keeps ps σ σ4 := by
    unfold σ4
    refine updCam_keeps _ _ _ (Keeps.sub (by decide) hp) ?_
    exact h
  have hσ5 : Keeps ps σ σ5 := by
    unfold σ5
    refine inc_keeps _ _ _ (Keeps.sub (by simp) hp) ?_
    refine inc_keeps _ _ _ (Keeps.sub (by simp) hp) ?_
    exact hσ4
  refine Keeps.ite (fun _ => ?_) fun _ => ?_
  · exact hσ5
  · refine raiseIrq_keeps _ _ _ (Keeps.sub (by simp) hp) ?_
    refine event_keeps _ _ _ _ (Keeps.sub (by decide) hp) ?_
    exact hσ5

theorem memoryLine_keeps {ps : List Part} {σ : State} (k : Nat) (s : State)
    (hp : ∀ p ∈ [Part.cal, Part.crk, Part.free, Part.fw, Part.gln, Part.glz, Part.ipl, Part.jobs, Part.mil, Part.msix, Part.out, Part.reg .cal, Part.reg .gln, Part.reg .iplC, Part.reg .iplP, Part.reg .stk, Part.reg .tilC, Part.reg .win, Part.rings, Part.sag, Part.stk, Part.thr, Part.til, Part.win], p ∈ ps) (h : Keeps ps σ s) : Keeps ps σ (memoryLine k s) := by
  unfold memoryLine
  refine Keeps.ite (fun _ => ?_) fun _ => ?_
  · refine skipLate_keeps _ _ (Keeps.sub (by decide) hp) ?_
    exact h
  · refine startLine_keeps _ _ (Keeps.sub (by decide) hp) ?_
    exact h

theorem reproLine_keeps {ps : List Part} {σ : State} (s : State)
    (hp : ∀ p ∈ [Part.fw, Part.ipl, Part.msix, Part.out, Part.reg .iplC, Part.reg .stk, Part.rings, Part.stk], p ∈ ps) (h : Keeps ps σ s) : Keeps ps σ (reproLine s) := by
  unfold reproLine
  split
  · exact h
  · split
    · refine completeSeq_keeps _ _ _ _ (Keeps.sub (by decide) hp) ?_
      refine Keeps.set_ipl (hp _ (by decide)) ?_
      exact h
    · split
      · refine updCam_keeps _ _ _ (Keeps.sub (by decide) hp) ?_
        refine Keeps.set_ipl (hp _ (by decide)) ?_
        exact h
      · extract_lets σ1 σ2 σ3
        refine pipelineBusy_keeps _ _ (Keeps.sub (by decide) hp) ?_
        refine updCam_keeps _ _ _ (Keeps.sub (by decide) hp) ?_
        refine Keeps.set_ipl (hp _ (by decide)) ?_
        exact h

theorem pipelineLine_keeps {ps : List Part} {σ : State} (t : Nat) (s0 : State)
    (hp : ∀ p ∈ [Part.cal, Part.clock, Part.crk, Part.free, Part.fw, Part.gln, Part.glz, Part.ipl, Part.jobs, Part.mil, Part.msix, Part.out, Part.reg .cal, Part.reg .gln, Part.reg .iplC, Part.reg .iplP, Part.reg .stk, Part.reg .tilC, Part.reg .tim, Part.reg .win, Part.rings, Part.sag, Part.stk, Part.thr, Part.til, Part.win], p ∈ ps) (h : Keeps ps σ s0) : Keeps ps σ (pipelineLine t s0) := by
  unfold pipelineLine
  extract_lets σ1 σ2 σ3
  have hσ1 : Keeps ps σ σ1 := by
    unfold σ1
    refine advanceTo_keeps _ _ (Keeps.sub (by decide) hp) ?_
    exact h
  split
  · refine startLine_keeps _ _ (Keeps.sub (by decide) hp) ?_
    exact hσ1
  · clear_value σ2
    split
    · refine memoryLine_keeps _ _ (Keeps.sub (by decide) hp) ?_
      refine Keeps.set_ipl (hp _ (by decide)) ?_
      exact hσ1
    · split
      · refine memoryLine_keeps _ _ (Keeps.sub (by decide) hp) ?_
        refine Keeps.set_ipl (hp _ (by decide)) ?_
        exact hσ1
      · refine reproLine_keeps _ (Keeps.sub (by decide) hp) ?_
        refine Keeps.set_ipl (hp _ (by decide)) ?_
        exact hσ1

theorem execIplPipelineLine_keeps (t : DWord) (s : State) :
    ∃ τ, execIplPipelineLine t s = .next τ ∧ Keeps [Part.cal, Part.clock, Part.crk, Part.free, Part.fw, Part.gln, Part.glz, Part.ipl, Part.jobs, Part.mil, Part.msix, Part.out, Part.reg .cal, Part.reg .gln, Part.reg .iplC, Part.reg .iplP, Part.reg .stk, Part.reg .tilC, Part.reg .tim, Part.reg .win, Part.rings, Part.sag, Part.stk, Part.thr, Part.til, Part.win] s τ := by
  refine Keeps.exec fun ps σ hp h => ?_
  unfold execIplPipelineLine
  refine ⟨_, rfl, ?_⟩
  refine pipelineLine_keeps _ _ (Keeps.sub (by decide) hp) ?_
  exact h

theorem imageStore_keeps {ps : List Part} {σ : State} (s : State)
    (hp : ∀ p ∈ [Part.ipl, Part.mil, Part.reg .iplP], p ∈ ps) (h : Keeps ps σ s) : Keeps ps σ (imageStore s) := by
  unfold imageStore
  split
  · exact h
  · refine Keeps.ite (fun _ => ?_) fun _ => ?_
    · exact h
    · extract_lets σ1 σ2 σ3 σ4 σ5
      have hσ3 : Keeps ps σ σ3 := by
        unfold σ3
        refine Keeps.set_mil (hp _ (by decide)) ?_
        exact h
      refine Keeps.ite (fun _ => ?_) fun _ => ?_
      · refine inc_keeps _ _ _ (Keeps.sub (by simp) hp) ?_
        exact hσ3
      · refine refreshOldest_keeps _ (Keeps.sub (by decide) hp) ?_
        refine Keeps.set_ipl (hp _ (by decide)) ?_
        exact hσ3

theorem execImageStore_keeps (s : State) :
    ∃ τ, execImageStore s = .next τ ∧ Keeps [Part.ipl, Part.mil, Part.reg .iplP] s τ := by
  refine Keeps.exec fun ps σ hp h => ?_
  unfold execImageStore
  refine ⟨_, rfl, ?_⟩
  refine imageStore_keeps _ (Keeps.sub (by decide) hp) ?_
  exact h

theorem reprocess_keeps {ps : List Part} {σ : State} (h : Hdr) (c : Instr) (port : Nat) (image : Nat) (s : State)
    (hp : ∀ p ∈ [Part.fw, Part.ipl, Part.msix, Part.out, Part.reg .stk, Part.rings, Part.stk], p ∈ ps) (hs : Keeps ps σ s) : Keeps ps σ (reprocess h c port image s) := by
  unfold reprocess
  refine Keeps.ite (fun _ => ?_) fun _ => ?_
  · refine parkAccepted_keeps _ _ _ _ _ (Keeps.sub (by decide) hp) ?_
    refine Keeps.set_ipl (hp _ (by decide)) ?_
    exact hs
  · refine fail_keeps _ _ _ (Keeps.sub (by decide) hp) ?_
    exact hs

theorem execReprocess_keeps (d : Desc) (port : BitVec 8) (image : Word) (s : State) :
    ∃ τ, execReprocess d port image s = .next τ ∧ Keeps [Part.fw, Part.ipl, Part.msix, Part.out, Part.reg .hif, Part.reg .stk, Part.rings, Part.stk] s τ := by
  refine Keeps.exec fun ps σ hp h => ?_
  unfold execReprocess
  refine ⟨_, rfl, ?_⟩
  refine command_keeps _ _ _ _ _ _ ?_ (Keeps.sub (by decide) hp) ?_
  · intro χ1 τ2 hτ3
    refine reprocess_keeps _ _ _ _ _ (Keeps.sub (by decide) hp) ?_
    exact hτ3
  · exact h

end Sys2Proof.Machine
end

