-- ==== Sys2Proof/Laws/KeepsWinnow.lean ====
section
/-! SUPPORT. What the operations of Machine/Winnow.lean change, and what they keep. -/

namespace Sys2Proof.Machine
open Sys2Proof

theorem putInsp_keeps {ps : List Part} {σ : State} (c : Nat) (x : Insp) (s : State)
    (hp : ∀ p ∈ [Part.win], p ∈ ps) (h : Keeps ps σ s) : Keeps ps σ (putInsp c x s) := by
  unfold putInsp
  refine Keeps.set_win (hp _ (by decide)) ?_
  exact h

theorem putScan_keeps {ps : List Part} {σ : State} (x : Scan) (s : State)
    (hp : ∀ p ∈ [Part.win], p ∈ ps) (h : Keeps ps σ s) : Keeps ps σ (putScan x s) := by
  unfold putScan
  extract_lets σ1 σ2
  refine Keeps.set_win (hp _ (by decide)) ?_
  exact h

theorem countFound_keeps {ps : List Part} {σ : State} (c : Nat) (re : Bool) (s : State)
    (hp : ∀ p ∈ [Part.jobs], p ∈ ps) (h : Keeps ps σ s) : Keeps ps σ (countFound c re s) := by
  unfold countFound
  refine Keeps.ite (fun _ => ?_) fun _ => ?_
  · exact h
  · refine updCopy_keeps _ _ _ (Keeps.sub (by decide) hp) ?_
    exact h

theorem writeRecord_keeps {ps : List Part} {σ : State} (c : Nat) (bs : List Byte) (s : State)
    (hp : ∀ p ∈ [Part.reg .win, Part.win], p ∈ ps) (h : Keeps ps σ s) : Keeps ps σ (writeRecord c bs s) := by
  unfold writeRecord
  extract_lets σ1 σ2
  refine Keeps.ite (fun _ => ?_) fun _ => ?_
  · refine inc_keeps _ _ _ (Keeps.sub (by decide) hp) ?_
    exact h
  · refine putInsp_keeps _ _ _ (Keeps.sub (by decide) hp) ?_
    refine Keeps.set_win (hp _ (by decide)) ?_
    exact h

theorem judgeTile_keeps {ps : List Part} {σ : State} (k : Nat) (re : Bool) (c : Nat) (y : Nat) (t : Nat) (e : Nat × Nat × Nat) (time : Nat) (s : State)
    (hp : ∀ p ∈ [Part.jobs, Part.msix, Part.out, Part.reg .stk, Part.reg .win, Part.rings, Part.stk, Part.win], p ∈ ps) (h : Keeps ps σ s) : Keeps ps σ (judgeTile k re c y t e time s) := by
  unfold judgeTile
  split
  · refine Keeps.ite (fun _ => ?_) fun _ => ?_
    · exact h
    · extract_lets σ1 σ2
      have hσ2 : Keeps ps σ σ2 := by
        unfold σ2
        refine writeRecord_keeps _ _ _ (Keeps.sub (by decide) hp) ?_
        refine countFound_keeps _ _ _ (Keeps.sub (by decide) hp) ?_
        refine inc_keeps _ _ _ (Keeps.sub (by decide) hp) ?_
        exact h
      refine raiseIrq_keeps _ _ _ (Keeps.sub (by decide) hp) ?_
      refine event_keeps _ _ _ _ (Keeps.sub (by decide) hp) ?_
      exact hσ2
  · exact h

theorem endTiles_keeps {ps : List Part} {σ : State} (x : Scan) (s : State)
    (hp : ∀ p ∈ [Part.jobs, Part.msix, Part.out, Part.reg .stk, Part.reg .win, Part.rings, Part.stk, Part.win], p ∈ ps) (h : Keeps ps σ s) : Keeps ps σ (endTiles x s) := by
  unfold endTiles
  extract_lets σ1 σ2
  have hσ1 : Keeps ps σ σ1 := by
    unfold σ1
    refine Keeps.foldl ?_ ?_
    · intro τ3 χ4 hτ5
      refine judgeTile_keeps _ _ _ _ _ _ _ _ (Keeps.sub (by decide) hp) ?_
      exact hτ5
    · exact h
  refine putScan_keeps _ _ (Keeps.sub (by decide) hp) ?_
  exact hσ1

theorem judgeColumn_keeps {ps : List Part} {σ : State} (x : Scan) (key : Nat) (s : State)
    (hp : ∀ p ∈ [Part.jobs, Part.msix, Part.out, Part.reg .stk, Part.reg .win, Part.rings, Part.stk, Part.win], p ∈ ps) (h : Keeps ps σ s) : Keeps ps σ (judgeColumn x key s) := by
  unfold judgeColumn
  extract_lets σ1 σ2 σ3 σ4 σ5
  have hσ4 : Keeps ps σ σ4 := by
    unfold σ4
    refine inc_keeps _ _ _ (Keeps.sub (by decide) hp) ?_
    exact h
  split
  · refine Keeps.ite (fun _ => ?_) fun _ => ?_
    · exact h
    · refine Keeps.ite (fun _ => ?_) fun _ => ?_
      · exact hσ4
      · extract_lets σ6 σ7 σ8
        have hσ8 : Keeps ps σ σ8 := by
          unfold σ8
          refine writeRecord_keeps _ _ _ (Keeps.sub (by decide) hp) ?_
          refine countFound_keeps _ _ _ (Keeps.sub (by decide) hp) ?_
          refine putScan_keeps _ _ (Keeps.sub (by decide) hp) ?_
          exact hσ4
        refine raiseIrq_keeps _ _ _ (Keeps.sub (by decide) hp) ?_
        refine event_keeps _ _ _ _ (Keeps.sub (by decide) hp) ?_
        exact hσ8
  · exact h

theorem endBlock_keeps {ps : List Part} {σ : State} (x : Scan) (s : State)
    (hp : ∀ p ∈ [Part.jobs, Part.msix, Part.out, Part.reg .stk, Part.reg .win, Part.rings, Part.stk, Part.win], p ∈ ps) (h : Keeps ps σ s) : Keeps ps σ (endBlock x s) := by
  unfold endBlock
  extract_lets σ1 σ2 σ3 σ4
  have hσ3 : Keeps ps σ σ3 := by
    unfold σ3
    refine Keeps.ite (fun _ => ?_) fun _ => ?_
    · exact h
    · refine Keeps.foldl ?_ ?_
      · intro τ5 χ6 hτ7
        refine judgeColumn_keeps _ _ _ (Keeps.sub (by decide) hp) ?_
        exact hτ7
      · exact h
  refine putScan_keeps _ _ (Keeps.sub (by decide) hp) ?_
  exact hσ3

theorem scanLine_keeps {ps : List Part} {σ : State} (c : Nat) (k : Nat) (re : Bool) (y : Nat) (px : List Pixel) (s : State)
    (hp : ∀ p ∈ [Part.jobs, Part.msix, Part.out, Part.reg .stk, Part.reg .win, Part.rings, Part.stk, Part.win], p ∈ ps) (h : Keeps ps σ s) : Keeps ps σ (scanLine c k re y px s) := by
  unfold scanLine
  extract_lets σ1 σ2 σ3 σ4
  have hσ3 : Keeps ps σ σ3 := by
    unfold σ3
    refine putScan_keeps _ _ (Keeps.sub (by decide) hp) ?_
    exact h
  have hσ4 : Keeps ps σ σ4 := by
    unfold σ4
    refine Keeps.ite (fun _ => ?_) fun _ => ?_
    · refine endTiles_keeps _ _ (Keeps.sub (by decide) hp) ?_
      exact hσ3
    · exact hσ3
  refine Keeps.ite (fun _ => ?_) fun _ => ?_
  · refine endBlock_keeps _ _ (Keeps.sub (by decide) hp) ?_
    exact hσ4
  · exact hσ4

theorem endScan_keeps {ps : List Part} {σ : State} (c : Nat) (k : Nat) (re : Bool) (s : State)
    (hp : ∀ p ∈ [Part.jobs, Part.msix, Part.out, Part.reg .stk, Part.reg .win, Part.rings, Part.stk, Part.win], p ∈ ps) (h : Keeps ps σ s) : Keeps ps σ (endScan c k re s) := by
  unfold endScan
  extract_lets σ1 σ2 σ3
  have hσ2 : Keeps ps σ σ2 := by
    unfold σ2
    refine Keeps.ite (fun _ => ?_) fun _ => ?_
    · exact h
    · refine endTiles_keeps _ _ (Keeps.sub (by decide) hp) ?_
      exact h
  refine Keeps.ite (fun _ => ?_) fun _ => ?_
  · exact hσ2
  · refine endBlock_keeps _ _ (Keeps.sub (by decide) hp) ?_
    exact hσ2

theorem gleanLine_keeps {ps : List Part} {σ : State} (k : Nat) (x : Copy) (n : Nat) (b : Nat) (px : List Pixel) (s : State)
    (hp : ∀ p ∈ [Part.gln, Part.msix, Part.out, Part.reg .gln, Part.reg .stk, Part.rings, Part.stk], p ∈ ps) (h : Keeps ps σ s) : Keeps ps σ (gleanLine k x n b px s) := by
  unfold gleanLine
  refine Keeps.foldl ?_ ?_
  · intro τ1 χ2 hτ3
    extract_lets σ4 σ5 σ6
    refine Keeps.ite (fun _ => ?_) fun _ => ?_
    · exact hτ3
    · refine closeWindow_keeps _ _ (Keeps.sub (by decide) hp) ?_
      refine putGlean_keeps _ _ _ (Keeps.sub (by decide) hp) ?_
      exact hτ3
  · exact h

theorem checkKernels_keeps {ps : List Part} {σ : State} (x : Copy) (s : State)
    (hp : ∀ p ∈ [Part.msix, Part.out, Part.reg .win, Part.win], p ∈ ps) (h : Keeps ps σ s) : Keeps ps σ (checkKernels x s) := by
  unfold checkKernels
  extract_lets σ1
  refine Keeps.ite (fun _ => ?_) fun _ => ?_
  · exact h
  · refine Keeps.ite (fun _ => ?_) fun _ => ?_
    · refine putInsp_keeps _ _ _ (Keeps.sub (by decide) hp) ?_
      exact h
    · refine recordErr_keeps _ _ _ (Keeps.sub (by decide) hp) ?_
      refine putInsp_keeps _ _ _ (Keeps.sub (by decide) hp) ?_
      exact h

theorem noteCompared_keeps {ps : List Part} {σ : State} (c : Nat) (k : Nat) (s : State)
    (hp : ∀ p ∈ [Part.jobs], p ∈ ps) (h : Keeps ps σ s) : Keeps ps σ (noteCompared c k s) := by
  unfold noteCompared
  extract_lets σ1
  refine updCopy_keeps _ _ _ (Keeps.sub (by decide) hp) ?_
  exact h

theorem passFrame_keeps {ps : List Part} {σ : State} (k : Nat) (n : Nat) (whole : Bool) (s : State)
    (hp : ∀ p ∈ [Part.crk, Part.free, Part.glz, Part.jobs, Part.msix, Part.out, Part.reg .stk, Part.reg .win, Part.rings, Part.sag, Part.stk, Part.thr, Part.win], p ∈ ps) (h : Keeps ps σ s) : Keeps ps σ (passFrame k n whole s) := by
  unfold passFrame
  extract_lets σ1 σ2
  have hσ1 : Keeps ps σ σ1 := by
    unfold σ1
    split
    · refine endScan_keeps _ _ _ _ (Keeps.sub (by decide) hp) ?_
      exact h
    · exact h
  refine tryRules_keeps _ (Keeps.sub (by decide) hp) ?_
  refine Keeps.set_win (hp _ (by decide)) ?_
  exact hσ1

theorem reproFinish_keeps {ps : List Part} {σ : State} (k : Nat) (seq : Nat) (s : State)
    (hp : ∀ p ∈ [Part.fw, Part.jobs, Part.msix, Part.out, Part.reg .stk, Part.reg .win, Part.rings, Part.stk, Part.win], p ∈ ps) (h : Keeps ps σ s) : Keeps ps σ (reproFinish k seq s) := by
  unfold reproFinish
  extract_lets σ1 σ2
  have hσ1 : Keeps ps σ σ1 := by
    unfold σ1
    refine Keeps.foldl ?_ ?_
    · intro τ3 χ4 hτ5
      refine endScan_keeps _ _ _ _ (Keeps.sub (by decide) hp) ?_
      exact hτ5
    · exact h
  refine completeSeq_keeps _ _ _ _ (Keeps.sub (by decide) hp) ?_
  refine Keeps.set_win (hp _ (by decide)) ?_
  exact hσ1

theorem compareLine_keeps {ps : List Part} {s0 : State} (k : Nat) (l : RegLine) (s : State)
    (hp : ∀ p ∈ [Part.gln, Part.jobs, Part.msix, Part.out, Part.reg .gln, Part.reg .iplP, Part.reg .stk, Part.reg .win, Part.rings, Part.stk, Part.win], p ∈ ps) (h : Keeps ps s0 s) (u : State) (hu : compareLine k l s = some u) : Keeps ps s0 u := by
  unfold compareLine at hu
  have hc : ∀ x, Keeps ps s0 (checkKernels x s) := fun x => checkKernels_keeps _ _ (Keeps.sub (by decide) hp) h
  split at hu
  · exact Option.some.inj hu ▸ h
  · dsimp only at hu
    split at hu
    · exact Option.some.inj hu ▸ hc _
    · split at hu
      · simp at hu
      · refine Option.some.inj hu ▸ ?_
        have h2 := inc_keeps Reg.WIN_PRED_MISS_CNT 1 _ (Keeps.sub (by decide) hp)
          (inc_keeps (Reg.IPL_C_MISS_CNT k) 1 _ (Keeps.sub (by simp) hp) (hc ‹_›))
        split
        · exact h2
        · exact putInsp_keeps _ _ _ (Keeps.sub (by decide) hp) h2
      · refine Option.some.inj hu ▸ ?_
        split
        · exact scanLine_keeps _ _ _ _ _ _ (Keeps.sub (by decide) hp) (hc _)
        · exact gleanLine_keeps _ _ _ _ _ _ (Keeps.sub (by decide) hp) (noteCompared_keeps _ _ _ (Keeps.sub (by decide) hp)
            (scanLine_keeps _ _ _ _ _ _ (Keeps.sub (by decide) hp) (hc _)))

theorem winnowTake_keeps {ps : List Part} {σ : State} (k : Nat) (s : State)
    (hp : ∀ p ∈ [Part.crk, Part.free, Part.fw, Part.gln, Part.glz, Part.ipl, Part.jobs, Part.msix, Part.out, Part.reg .gln, Part.reg .iplP, Part.reg .stk, Part.reg .win, Part.rings, Part.sag, Part.stk, Part.thr, Part.win], p ∈ ps) (h : Keeps ps σ s) : Keeps ps σ (winnowTake k s) := by
  unfold winnowTake
  extract_lets σ1
  have hd : ∀ t, Keeps ps σ t → Keeps ps σ (σ1 t) := fun t ht => updCam_keeps _ _ _ (Keeps.sub (by decide) hp) ht
  split
  · split
    · exact hd _ (compareLine_keeps _ _ _ (Keeps.sub (by decide) hp) h _ (by assumption))
    · exact h
  · exact passFrame_keeps _ _ _ _ (Keeps.sub (by decide) hp) (hd _ h)
  · exact reproFinish_keeps _ _ _ (Keeps.sub (by decide) hp) (hd _ h)
  · exact h

theorem execWinnowLineCompare_keeps (port : Fin 4) (s : State) :
    ∃ τ, execWinnowLineCompare port s = .next τ ∧ Keeps [Part.crk, Part.free, Part.fw, Part.gln, Part.glz, Part.ipl, Part.jobs, Part.msix, Part.out, Part.reg .gln, Part.reg .iplP, Part.reg .stk, Part.reg .win, Part.rings, Part.sag, Part.stk, Part.thr, Part.win] s τ := by
  refine Keeps.exec fun ps σ hp h => ?_
  unfold execWinnowLineCompare
  refine ⟨_, rfl, ?_⟩
  refine winnowTake_keeps _ _ (Keeps.sub (by decide) hp) ?_
  exact h

theorem ruleTimeout_keeps {ps : List Part} {σ : State} (c : Nat) (t : Nat) (s0 : State)
    (hp : ∀ p ∈ [Part.clock, Part.crk, Part.free, Part.glz, Part.jobs, Part.msix, Part.out, Part.reg .stk, Part.reg .tim, Part.reg .win, Part.rings, Part.sag, Part.stk, Part.thr, Part.win], p ∈ ps) (h : Keeps ps σ s0) : Keeps ps σ (ruleTimeout c t s0) := by
  unfold ruleTimeout
  extract_lets σ1
  have hσ1 : Keeps ps σ σ1 := by
    unfold σ1
    refine advanceTo_keeps _ _ (Keeps.sub (by decide) hp) ?_
    exact h
  split
  · refine Keeps.ite (fun _ => ?_) fun _ => ?_
    · refine raiseIrq_keeps _ _ _ (Keeps.sub (by decide) hp) ?_
      refine event_keeps _ _ _ _ (Keeps.sub (by decide) hp) ?_
      refine verdict_keeps _ _ _ (Keeps.sub (by decide) hp) ?_
      exact hσ1
    · exact h
  · exact h

theorem execWinnowRuleTimeout_keeps (copy : Nat) (t : DWord) (s : State) :
    ∃ τ, execWinnowRuleTimeout copy t s = .next τ ∧ Keeps [Part.clock, Part.crk, Part.free, Part.glz, Part.jobs, Part.msix, Part.out, Part.reg .stk, Part.reg .tim, Part.reg .win, Part.rings, Part.sag, Part.stk, Part.thr, Part.win] s τ := by
  refine Keeps.exec fun ps σ hp h => ?_
  unfold execWinnowRuleTimeout
  refine ⟨_, rfl, ?_⟩
  refine ruleTimeout_keeps _ _ _ (Keeps.sub (by decide) hp) ?_
  exact h

theorem defectFetch_keeps {ps : List Part} {σ : State} (h : Hdr) (buf : Nat) (len : Nat) (s : State)
    (hp : ∀ p ∈ [Part.fw, Part.msix, Part.out, Part.reg .stk, Part.rings, Part.stk, Part.win], p ∈ ps) (hs : Keeps ps σ s) : Keeps ps σ (defectFetch h buf len s) := by
  unfold defectFetch
  extract_lets σ1 σ2
  refine Keeps.ite (fun _ => ?_) fun _ => ?_
  · refine output_keeps _ _ _ _ _ _ (Keeps.sub (by decide) hp) ?_
    exact hs
  · refine output_keeps _ _ _ _ _ _ (Keeps.sub (by decide) hp) ?_
    refine Keeps.set_win (hp _ (by decide)) ?_
    exact hs

theorem execDefectFetch_keeps (d : Desc) (buf : DWord) (len : Word) (s : State) :
    ∃ τ, execDefectFetch d buf len s = .next τ ∧ Keeps [Part.fw, Part.msix, Part.out, Part.reg .hif, Part.reg .stk, Part.rings, Part.stk, Part.win] s τ := by
  refine Keeps.exec fun ps σ hp h => ?_
  unfold execDefectFetch
  refine ⟨_, rfl, ?_⟩
  refine command_keeps _ _ _ _ _ _ ?_ (Keeps.sub (by decide) hp) ?_
  · intro χ1 τ2 hτ3
    refine defectFetch_keeps _ _ _ _ (Keeps.sub (by decide) hp) ?_
    exact hτ3
  · exact h

end Sys2Proof.Machine
end

