-- ==== Sys2Proof/Laws/KeepsResume.lean ====
section
/-! SUPPORT. What the operations of Machine/Resume.lean change, and what they keep. -/

namespace Sys2Proof.Machine
open Sys2Proof

theorem runBody_keeps {ps : List Part} {σ : State} (h : Hdr) (c : Instr) (s : State)
    (hp : ∀ p ∈ [Part.cal, Part.crk, Part.entries, Part.free, Part.fuses, Part.fw, Part.gln, Part.glz, Part.hif, Part.ipl, Part.jobs, Part.kln, Part.memory, Part.mil, Part.mot, Part.msix, Part.out, Part.ports, Part.pwr, Part.reg .cal, Part.reg .crk, Part.reg .gln, Part.reg .glz, Part.reg .hif, Part.reg .hlk, Part.reg .iplC, Part.reg .iplP, Part.reg .klnC, Part.reg .klnP, Part.reg .motA, Part.reg .sag, Part.reg .stk, Part.reg .thr, Part.reg .tilC, Part.reg .tilE, Part.reg .win, Part.rings, Part.sag, Part.stk, Part.thr, Part.til, Part.tly, Part.win], p ∈ ps) (hs : Keeps ps σ s) : Keeps ps σ (runBody h c s) := by
  unfold runBody
  split
  · refine alarmFetch_keeps _ _ _ _ (Keeps.sub (by decide) hp) ?_
    exact hs
  · refine alarmAck_keeps _ _ _ (Keeps.sub (by decide) hp) ?_
    exact hs
  · refine inspectControl_keeps _ _ _ _ _ (Keeps.sub (by decide) hp) ?_
    exact hs
  · refine bodyCameraConfig_keeps _ _ _ _ _ (Keeps.sub (by decide) hp) ?_
    exact hs
  · refine reprocess_keeps _ _ _ _ _ (Keeps.sub (by decide) hp) ?_
    exact hs
  · refine bodyNozzleSnapshot_keeps _ _ _ (Keeps.sub (by decide) hp) ?_
    exact hs
  · refine bodyJournalCompact_keeps _ _ _ (Keeps.sub (by decide) hp) ?_
    exact hs
  · refine bodyStoreWrite_keeps _ _ _ _ _ (Keeps.sub (by decide) hp) ?_
    exact hs
  · refine bodyTileLoad_keeps _ _ _ _ _ (Keeps.sub (by decide) hp) ?_
    exact hs
  · refine bodyTileEvict_keeps _ _ _ (Keeps.sub (by decide) hp) ?_
    exact hs
  · refine refSelect_keeps _ _ _ _ (Keeps.sub (by decide) hp) ?_
    exact hs
  · refine calControl_keeps _ _ _ _ (Keeps.sub (by decide) hp) ?_
    exact hs
  · refine calStatus_keeps _ _ _ (Keeps.sub (by decide) hp) ?_
    exact hs
  · refine bodyKilnStart_keeps _ _ _ _ (Keeps.sub (by decide) hp) ?_
    exact hs
  · refine bodyKilnStop_keeps _ _ _ _ (Keeps.sub (by decide) hp) ?_
    exact hs
  · refine ok_keeps _ _ _ (Keeps.sub (by decide) hp) ?_
    exact hs
  · refine bodyAxisEnable_keeps _ _ _ _ _ (Keeps.sub (by decide) hp) ?_
    exact hs
  · refine bodyAxisMove_keeps _ _ _ _ _ _ (Keeps.sub (by decide) hp) ?_
    exact hs
  · refine bodyAxisStop_keeps _ _ _ _ _ (Keeps.sub (by decide) hp) ?_
    exact hs
  · refine bodyAxisResume_keeps _ _ _ _ (Keeps.sub (by decide) hp) ?_
    exact hs
  · refine bodyAxisQuery_keeps _ _ _ (Keeps.sub (by decide) hp) ?_
    exact hs
  · refine bodyAxisHome_keeps _ _ _ _ _ _ (Keeps.sub (by decide) hp) ?_
    exact hs
  · refine bodyAxisConfig_keeps _ _ _ _ _ (Keeps.sub (by decide) hp) ?_
    exact hs
  · refine bodyNozzleRead_keeps _ _ _ _ _ _ (Keeps.sub (by decide) hp) ?_
    exact hs
  · refine bodyNozzleWrite_keeps _ _ _ _ (Keeps.sub (by decide) hp) ?_
    exact hs
  · refine bodyCurveLoad_keeps _ _ _ _ _ _ (Keeps.sub (by decide) hp) ?_
    exact hs
  · refine bodyThreshLoad_keeps _ _ _ _ _ (Keeps.sub (by decide) hp) ?_
    exact hs
  · refine bodyKernelSelect_keeps _ _ _ _ _ _ (Keeps.sub (by decide) hp) ?_
    exact hs
  · refine bodySplitMove_keeps _ _ _ _ _ (Keeps.sub (by decide) hp) ?_
    exact hs
  · refine bodyMaintSpit_keeps _ _ _ _ _ _ (Keeps.sub (by decide) hp) ?_
    exact hs
  · refine bodyPlaneConfig_keeps _ _ _ _ _ (Keeps.sub (by decide) hp) ?_
    exact hs
  · refine bodyPassLoad_keeps _ _ _ _ _ (Keeps.sub (by decide) hp) ?_
    exact hs
  · refine bodySegmentLoad_keeps _ _ _ _ (Keeps.sub (by decide) hp) ?_
    exact hs
  · refine bodyHeadPower_keeps _ _ _ _ _ (Keeps.sub (by decide) hp) ?_
    exact hs
  · refine bodyPowerState_keeps _ _ _ _ (Keeps.sub (by decide) hp) ?_
    exact hs
  · refine bodyKeyLoad_keeps _ _ _ _ _ (Keeps.sub (by decide) hp) ?_
    exact hs
  · refine bodyQuotaGrant_keeps _ _ _ _ _ (Keeps.sub (by decide) hp) ?_
    exact hs
  · refine quotaQuery_keeps _ _ _ (Keeps.sub (by decide) hp) ?_
    exact hs
  · refine receiptFetch_keeps _ _ _ _ (Keeps.sub (by decide) hp) ?_
    exact hs
  · refine attest_keeps _ _ _ _ _ (Keeps.sub (by decide) hp) ?_
    exact hs
  · refine bodyDebugUnlock_keeps _ _ _ _ (Keeps.sub (by decide) hp) ?_
    exact hs
  · refine bodyLifecycleAdvance_keeps _ _ _ _ _ (Keeps.sub (by decide) hp) ?_
    exact hs
  · refine bodyTraceConfig_keeps _ _ _ _ (Keeps.sub (by decide) hp) ?_
    exact hs
  · refine bodyStookLimit_keeps _ _ _ (Keeps.sub (by decide) hp) ?_
    exact hs
  · refine bodyConsumableScan_keeps _ _ _ _ (Keeps.sub (by decide) hp) ?_
    exact hs
  · refine consumableQuery_keeps _ _ _ (Keeps.sub (by decide) hp) ?_
    exact hs
  · refine bodyTallyCheckpoint_keeps _ _ _ (Keeps.sub (by decide) hp) ?_
    exact hs
  · refine defectFetch_keeps _ _ _ _ (Keeps.sub (by decide) hp) ?_
    exact hs
  · refine ok_keeps _ _ _ (Keeps.sub (by decide) hp) ?_
    exact hs
  · refine ok_keeps _ _ _ (Keeps.sub (by decide) hp) ?_
    exact hs
  · refine ringCreate_keeps _ _ _ _ _ _ _ _ _ _ _ _ (Keeps.sub (by decide) hp) ?_
    exact hs
  · refine ringDestroy_keeps _ _ _ _ (Keeps.sub (by decide) hp) ?_
    exact hs
  · refine ringQuery_keeps _ _ _ (Keeps.sub (by decide) hp) ?_
    exact hs
  · refine patchStatus_keeps _ _ _ _ (Keeps.sub (by decide) hp) ?_
    exact hs
  · refine eventFilter_keeps _ _ _ _ (Keeps.sub (by decide) hp) ?_
    exact hs
  · refine tenantEnable_keeps _ _ _ _ _ (Keeps.sub (by decide) hp) ?_
    exact hs
  · refine tenantDisable_keeps _ _ _ _ (Keeps.sub (by decide) hp) ?_
    exact hs
  · refine tenantQuery_keeps _ _ _ (Keeps.sub (by decide) hp) ?_
    exact hs
  · refine jobOpenCmd_keeps _ _ _ _ (Keeps.sub (by decide) hp) ?_
    exact hs
  · refine jobClose_keeps _ _ _ _ (Keeps.sub (by decide) hp) ?_
    exact hs
  · refine jobAbort_keeps _ _ _ _ (Keeps.sub (by decide) hp) ?_
    exact hs
  · refine bodyPageLoad_keeps _ _ _ _ (Keeps.sub (by decide) hp) ?_
    exact hs
  · refine pageRelease_keeps _ _ _ _ _ (Keeps.sub (by decide) hp) ?_
    exact hs
  · refine bodyCopySubmit_keeps _ _ _ _ (Keeps.sub (by decide) hp) ?_
    exact hs
  · refine copyWithdraw_keeps _ _ _ _ (Keeps.sub (by decide) hp) ?_
    exact hs
  · refine copyQuery_keeps _ _ _ _ (Keeps.sub (by decide) hp) ?_
    exact hs
  · refine streamOpen_keeps _ _ _ _ _ _ (Keeps.sub (by decide) hp) ?_
    exact hs
  · refine streamFree_keeps _ _ _ (Keeps.sub (by decide) hp) ?_
    exact hs
  · exact hs

theorem resume_keeps {ps : List Part} {σ : State} (seq : Nat) (s : State)
    (hp : ∀ p ∈ [Part.cal, Part.crk, Part.entries, Part.free, Part.fuses, Part.fw, Part.gln, Part.glz, Part.hif, Part.ipl, Part.jobs, Part.kln, Part.memory, Part.mil, Part.mot, Part.msix, Part.out, Part.ports, Part.pwr, Part.reg .cal, Part.reg .crk, Part.reg .gln, Part.reg .glz, Part.reg .hif, Part.reg .hlk, Part.reg .iplC, Part.reg .iplP, Part.reg .klnC, Part.reg .klnP, Part.reg .motA, Part.reg .sag, Part.reg .stk, Part.reg .thr, Part.reg .tilC, Part.reg .tilE, Part.reg .tly, Part.reg .win, Part.rings, Part.sag, Part.stk, Part.thr, Part.til, Part.tly, Part.win], p ∈ ps) (h : Keeps ps σ s) : Keeps ps σ (resume seq s) := by
  unfold resume
  split
  · refine Keeps.ite (fun _ => ?_) fun _ => ?_
    · refine runBody_keeps _ _ _ (Keeps.sub (by decide) hp) ?_
      exact h
    · refine Keeps.ite (fun _ => ?_) fun _ => ?_
      · refine grantUndo_keeps _ _ (Keeps.sub (by decide) hp) ?_
        exact h
      · split
        · refine Keeps.ite (fun _ => ?_) fun _ => ?_
          · refine spitDrop_keeps _ _ _ _ (Keeps.sub (by decide) hp) ?_
            exact h
          · exact h
        · exact h
  · exact h

theorem execParkedCommandResume_keeps (seq : Nat) (s : State) :
    ∃ τ, execParkedCommandResume seq s = .next τ ∧ Keeps [Part.cal, Part.crk, Part.entries, Part.free, Part.fuses, Part.fw, Part.gln, Part.glz, Part.hif, Part.ipl, Part.jobs, Part.kln, Part.memory, Part.mil, Part.mot, Part.msix, Part.out, Part.ports, Part.pwr, Part.reg .cal, Part.reg .crk, Part.reg .gln, Part.reg .glz, Part.reg .hif, Part.reg .hlk, Part.reg .iplC, Part.reg .iplP, Part.reg .klnC, Part.reg .klnP, Part.reg .motA, Part.reg .sag, Part.reg .stk, Part.reg .thr, Part.reg .tilC, Part.reg .tilE, Part.reg .tly, Part.reg .win, Part.rings, Part.sag, Part.stk, Part.thr, Part.til, Part.tly, Part.win] s τ := by
  refine Keeps.exec fun ps σ hp h => ?_
  unfold execParkedCommandResume
  refine ⟨_, rfl, ?_⟩
  refine resume_keeps _ _ (Keeps.sub (by decide) hp) ?_
  exact h

end Sys2Proof.Machine
end

