-- ==== Sys2Proof/Laws/Command.lean ====
section
/-! SUPPORT. What taking, accepting and completing a command come to: the lemmas a command's meaning is read through. -/

namespace Sys2Proof.Machine
open Sys2Proof

/-- A number written in bytes takes as many as asked for. -/
theorem length_le (n v : Nat) : (le n v).length = n := by
  induction n generalizing v with
  | zero => rfl
  | succ n ih => rw [le, List.length_cons, ih]

/-! ## Rings under the updates that post to them -/

/-- An entry of a written table is the one written or an old one. -/
theorem mem_tput {α : Type} {t : Tab α} {k : Nat} {v : α} {e : Nat × α} (h : e ∈ tput t k v) : e = (k, v) ∨ e ∈ t := by
  induction t with
  | nil => exact Or.inl (List.mem_singleton.mp h)
  | cons x r ih =>
    obtain ⟨j, w⟩ := x
    simp only [tput] at h
    split at h
    · exact List.mem_cons.mp h
    · split at h
      · rcases List.mem_cons.mp h with h | h
        · exact Or.inl h
        · exact Or.inr (List.mem_cons_of_mem _ h)
      · rcases List.mem_cons.mp h with h | h
        · exact Or.inr (h ▸ List.mem_cons_self)
        · exact (ih h).imp id (List.mem_cons_of_mem _)

@[simp] theorem ring_putRing_self (n : Nat) (r : Ring) (s : State) : ring (putRing n r s) n = r := by
  simp [ring, putRing]

theorem ring_putRing_ne {m n : Nat} (r : Ring) (s : State) (h : m ≠ n) : ring (putRing n r s) m = ring s m := by
  simp [ring, putRing, tget_tput_ne _ _ _ h]

@[simp] theorem ring_updRing_self (n : Nat) (f : Ring → Ring) (s : State) : ring (updRing n f s) n = f (ring s n) := by
  simp [updRing]

theorem ring_updRing_ne {m n : Nat} (f : Ring → Ring) (s : State) (h : m ≠ n) : ring (updRing n f s) m = ring s m :=
  ring_putRing_ne _ s h

/-- A ring read through states with the same rings. -/
theorem ring_congr {s t : State} (h : t.hif.rings = s.hif.rings) (n : Nat) : ring t n = ring s n := by
  simp [ring, h]

/-- What a change of a ring that keeps a field leaves of that field. -/
theorem ring_updRing_field {α : Type} (g : Ring → α) {n : Nat} {f : Ring → Ring} (s : State) (m : Nat)
    (h : g (f (ring s n)) = g (ring s n)) : g (ring (updRing n f s) m) = g (ring s m) := by
  by_cases hm : m = n
  · subst hm
    rw [ring_updRing_self, h]
  · rw [ring_updRing_ne f s hm]

theorem rings_msixSend (v : Nat) (s : State) : (msixSend v s).hif.rings = s.hif.rings := by
  unfold msixSend
  split <;> rfl

theorem rings_stookWrote (n : Nat) (s : State) : (stookWrote n s).hif.rings = s.hif.rings := rfl

theorem ring_writeback_field {α : Type} (g : Ring → α) (h : ∀ r : Ring, g { r with wbPending := false } = g r) (n m : Nat)
    (s : State) : g (ring (writeback n s) m) = g (ring s m) := by
  unfold writeback
  split
  · dsimp only
    have key : g (ring (putRing n { ring s n with wbPending := false } s) m) = g (ring s m) :=
      ring_updRing_field g (f := fun r => { r with wbPending := false }) s m (h _)
    split
    · exact key
    · exact key
  · rfl

theorem ring_signalRing_field {α : Type} (g : Ring → α) (h : ∀ r : Ring, g { r with wbPending := false } = g r)
    (h' : ∀ r : Ring, g { r with armed := false, sinceArm := 0, unsignalled := false, timing := false } = g r) (n m : Nat)
    (s : State) : g (ring (signalRing n s) m) = g (ring s m) := by
  unfold signalRing
  dsimp only
  rw [ring_congr (rings_msixSend _ _), ring_updRing_field g _ m (h' _), ring_writeback_field g h]

/-- A field of a ring after a posting: appended entries show at the ring posted to, every other field as the posting leaves it. -/
theorem ring_postRecords_field {α : Type} (g : Ring → α) (h : ∀ r : Ring, g { r with wbPending := false } = g r)
    (h' : ∀ r : Ring, g { r with armed := false, sinceArm := 0, unsignalled := false, timing := false } = g r) (n m : Nat)
    (rs : List Record) (s : State) :
    g (ring (postRecords n rs s) m) = g (ring (updRing n (fun r => { r with
      entries := r.entries ++ rs, pi := (r.pi + rs.length) % idxMod, wbPending := true,
      sinceArm := if r.armed then r.sinceArm + rs.length else r.sinceArm, unsignalled := true, timing := r.armed }) s) m) := by
  unfold postRecords
  dsimp only
  repeat' split
  all_goals first
    | rfl
    | exact ring_signalRing_field g h h' _ _ _

theorem postRecords_entries (n : Nat) (rs : List Record) (s : State) :
    (ring (postRecords n rs s) n).entries = (ring s n).entries ++ rs := by
  rw [ring_postRecords_field (·.entries) (fun _ => rfl) (fun _ => rfl), ring_updRing_self]

theorem postRecords_pi (n : Nat) (rs : List Record) (s : State) :
    (ring (postRecords n rs s) n).pi = ((ring s n).pi + rs.length) % idxMod := by
  rw [ring_postRecords_field (·.pi) (fun _ => rfl) (fun _ => rfl), ring_updRing_self]

theorem postRecords_ci (n m : Nat) (rs : List Record) (s : State) : (ring (postRecords n rs s) m).ci = (ring s m).ci := by
  rw [ring_postRecords_field (·.ci) (fun _ => rfl) (fun _ => rfl), ring_updRing_field (·.ci) s m rfl]

theorem ring_writeback_ne {n m : Nat} (s : State) (h : m ≠ n) : ring (writeback n s) m = ring s m := by
  unfold writeback
  split
  · dsimp only
    split
    · exact ring_putRing_ne _ s h
    · exact ring_putRing_ne _ s h
  · rfl

theorem ring_signalRing_ne {n m : Nat} (s : State) (h : m ≠ n) : ring (signalRing n s) m = ring s m := by
  unfold signalRing
  dsimp only
  rw [ring_congr (rings_msixSend _ _), ring_updRing_ne _ _ h, ring_writeback_ne s h]

theorem postRecords_ring_ne {n m : Nat} {s : State} (rs : List Record) (h : m ≠ n) : ring (postRecords n rs s) m = ring s m := by
  unfold postRecords
  extract_lets s1 z s2
  have h1 : ring s1 m = ring s m := ring_updRing_ne _ s h
  have h2 : ring s2 m = ring s m := by
    show ring (if z = 0 then s1 else stookWrote (z * rs.length) s1) m = _
    split
    · exact h1
    · exact h1
  split
  · exact (ring_signalRing_ne _ h).trans h2
  · exact h2

theorem postRecords_fw (n : Nat) (rs : List Record) (s : State) : (postRecords n rs s).fw = s.fw :=
  (postRecords_keeps n rs s (fun _ q => q) (Keeps.refl _ s)).only .fw (by decide)

/-! ## Taking -/

/-- An earlier command that bars none of more objects bars none of fewer. -/
theorem blockedBy_sub {s : State} {seq : Nat} {xs ys : List Nat} (h : blockedBy s seq ys = false) (hs : ∀ o ∈ xs, o ∈ ys) :
    blockedBy s seq xs = false := by
  rw [Bool.eq_false_iff] at h ⊢
  intro hx
  refine h ?_
  simp only [blockedBy, List.any_eq_true, Bool.and_eq_true, List.contains_iff_mem] at hx ⊢
  obtain ⟨q, hq, h1, o, ho, h2⟩ := hx
  exact ⟨q, hq, h1, o, ho, hs o h2⟩

/-- Taking moves a ring's indices and the firmware's count alone: the streams and the table of commands stay. -/
theorem blockedBy_taken (d : Desc) (s : State) (seq : Nat) (xs : List Nat) : blockedBy (taken d s) seq xs = blockedBy s seq xs := rfl

/-- An admitted command reaches its body in the state its taking leaves, where what its stream names is among the objects it is admitted
with. -/
theorem command_admitted_over {d : Desc} {cls : RingClass} {objs all : Nat → List Nat} {s : State} (h : Admitted d cls all s = true)
    (c : Instr) (body : Hdr → State → State)
    (ho : ∀ o ∈ objs (ring s d.ring.val).tenant ++ streamObjs (taken d s) (hdrOf d s) c, o ∈ all (ring s d.ring.val).tenant) :
    command d cls objs c body s = body (hdrOf d s) (taken d s) := by
  simp only [Admitted, Bool.and_eq_true, Bool.not_eq_true', decide_eq_true_eq] at h
  obtain ⟨⟨⟨⟨h1, h2⟩, h3⟩, h4⟩, h5⟩ := h
  have h6 : blockedBy (taken d s) (hdrOf d s).seq (objs (hdrOf d s).tenant ++ streamObjs (taken d s) (hdrOf d s) c) = false :=
    blockedBy_sub h5 ho
  have h7 : classAdmits cls d.ring.val (hdrOf d s).tenant = true := h4
  unfold command
  simp only [h1, h2, h3, h6, h7]
  rfl

/-- The same of a command that names no stream, or one whose bytes name no object. -/
theorem command_admitted {d : Desc} {cls : RingClass} {objs : Nat → List Nat} {s : State} (h : Admitted d cls objs s = true)
    (c : Instr) (body : Hdr → State → State) (hc : streamObjs (taken d s) (hdrOf d s) c = []) :
    command d cls objs c body s = body (hdrOf d s) (taken d s) :=
  command_admitted_over h c body (by
    rw [hc]
    simp)

/-- The ring an admitted command comes from is an ACTIVE command ring. -/
theorem ring_of_admitted {d : Desc} {cls : RingClass} {objs : Nat → List Nat} {s : State} (h : Admitted d cls objs s = true) :
    (ring s d.ring.val).state = .active ∧ (ring s d.ring.val).typ = .command := by
  simp only [Admitted, takeable, ringReady, Bool.and_eq_true, decide_eq_true_eq] at h
  obtain ⟨⟨⟨⟨⟨⟨⟨⟨-, h1⟩, -⟩, -⟩, -⟩, -⟩, -⟩, -⟩, -⟩ := h
  obtain ⟨⟨⟨⟨⟨⟨h2, h3⟩, -⟩, -⟩, -⟩, -⟩, -⟩ := h1
  exact ⟨h2, h3⟩

theorem taken_rings (d : Desc) (s : State) : (taken d s).hif.rings = (updRing d.ring.val (fun r => { r with
    ci := (r.ci + 1) % idxMod, fetched := r.fetched - 1, fences := r.fences.drop 1, wbPending := true }) s).hif.rings := rfl

theorem taken_ring_self (d : Desc) (s : State) : ring (taken d s) d.ring.val = { ring s d.ring.val with
    ci := ((ring s d.ring.val).ci + 1) % idxMod, fetched := (ring s d.ring.val).fetched - 1,
    fences := (ring s d.ring.val).fences.drop 1, wbPending := true } := by
  rw [ring_congr (taken_rings d s), ring_updRing_self]

theorem taken_ring_field {α : Type} (g : Ring → α)
    (h : ∀ (r : Ring) (a b : Nat) (x : List Bool), g { r with ci := a, fetched := b, fences := x, wbPending := true } = g r) (d : Desc) (s : State) (m : Nat) :
    g (ring (taken d s) m) = g (ring s m) := by
  rw [ring_congr (taken_rings d s)]
  exact ring_updRing_field g s m (h _ _ _ _)

/-! ## Completing -/

@[simp] theorem hostWrites_hif (ws : List (Nat × List Byte)) (s : State) : (hostWrites ws s).hif = s.hif := by
  unfold hostWrites
  induction ws generalizing s with
  | nil => rfl
  | cons w ws ih => exact ih _

@[simp] theorem hostWrites_fw (ws : List (Nat × List Byte)) (s : State) : (hostWrites ws s).fw = s.fw := by
  unfold hostWrites
  induction ws generalizing s with
  | nil => rfl
  | cons w ws ih => exact ih _

@[simp] theorem hostWrites_clock (ws : List (Nat × List Byte)) (s : State) : (hostWrites ws s).clock = s.clock := by
  unfold hostWrites
  induction ws generalizing s with
  | nil => rfl
  | cons w ws ih => exact ih _

@[simp] theorem hostWrites_stk (ws : List (Nat × List Byte)) (s : State) : (hostWrites ws s).stk = s.stk := by
  unfold hostWrites
  induction ws generalizing s with
  | nil => rfl
  | cons w ws ih => exact ih _

@[simp] theorem ring_hostWrites (ws : List (Nat × List Byte)) (s : State) (m : Nat) : ring (hostWrites ws s) m = ring s m :=
  ring_congr (by rw [hostWrites_hif]) m

theorem hostWrites_keep {ws : List (Nat × List Byte)} {s : State} {o : Out} (h : o ∈ s.out) : o ∈ (hostWrites ws s).out := by
  unfold hostWrites
  induction ws generalizing s with
  | nil => exact h
  | cons w ws ih => exact ih (List.mem_cons_of_mem _ h)

/-- Every write of the bulk output leaves the controller. -/
theorem hostWrites_out (ws : List (Nat × List Byte)) (s : State) : ∀ w ∈ ws, .hostWrite w.1 w.2 ∈ (hostWrites ws s).out := by
  induction ws generalizing s with
  | nil => exact fun w hw => by cases hw
  | cons x ws ih =>
    intro w hw
    rcases List.mem_cons.mp hw with rfl | hw
    · exact hostWrites_keep (s := emit (.hostWrite w.1 w.2) s) List.mem_cons_self
    · exact ih (emit (.hostWrite x.1 x.2) s) w hw

/-- What has left the controller before a posting has still left it after. -/
theorem postRecords_out {n : Nat} {rs : List Record} {s : State} {o : Out} (ho : o ∈ s.out) : o ∈ (postRecords n rs s).out := by
  have hm : ∀ v (u : State), o ∈ u.out → o ∈ (msixSend v u).out := by
    intro v u hu
    unfold msixSend
    split
    · exact hu
    · exact List.mem_cons_of_mem _ hu
  have hk : ∀ k (u : State), o ∈ u.out → o ∈ (stookWrote k u).out := by
    intro k u hu
    rw [show (stookWrote k u).out = u.out from rfl]
    exact hu
  have hw : ∀ n (u : State), o ∈ u.out → o ∈ (writeback n u).out := by
    intro n u hu
    unfold writeback
    split
    · have h1 : ∀ x, o ∈ (emit x (putRing n { ring u n with wbPending := false } u)).out := fun x => List.mem_cons_of_mem _ hu
      dsimp only
      split
      · exact h1 _
      · exact hk _ _ (h1 _)
    · exact hu
  unfold postRecords
  extract_lets s1 z s2
  have h2 : o ∈ s2.out := by
    show o ∈ (if z = 0 then s1 else stookWrote _ s1).out
    split
    · exact ho
    · exact hk _ _ ho
  split
  · unfold signalRing
    exact hm _ _ (hw _ _ h2)
  · exact h2

/-- A completion leaves every ring but its completion ring. -/
theorem completeWith_ring_ne {ws : List (Nat × List Byte)} {h : Hdr} {m : Nat} {u : State} (status result : Nat) (hm : m ≠ h.paired) :
    ring (completeWith ws h status result u) m = ring u m := by
  unfold completeWith
  dsimp only
  repeat' split
  · rw [ring_hostWrites]
    rfl
  · rfl
  · rw [postRecords_ring_ne _ hm, ring_hostWrites]
    rfl
  · rfl

theorem complete_ring_ne {h : Hdr} {m : Nat} {u : State} (status result : Nat) (hm : m ≠ h.paired) :
    ring (complete h status result u) m = ring u m := completeWith_ring_ne status result hm

/-- A completion appends to its completion ring and leaves a field that postings leave. -/
theorem completeWith_ring_field {α : Type} (g : Ring → α) (h0 : ∀ r : Ring, g { r with wbPending := false } = g r)
    (h1 : ∀ r : Ring, g { r with armed := false, sinceArm := 0, unsignalled := false, timing := false } = g r)
    (h2 : ∀ (r : Ring) (e : List Record) (a b : Nat) (x y z : Bool),
      g { r with entries := e, pi := a, wbPending := x, sinceArm := b, unsignalled := y, timing := z } = g r)
    (ws : List (Nat × List Byte)) (h : Hdr) (status result m : Nat) (u : State) :
    g (ring (completeWith ws h status result u) m) = g (ring u m) := by
  unfold completeWith
  dsimp only
  repeat' split
  · rw [ring_hostWrites]
    rfl
  · rfl
  · rw [ring_postRecords_field g h0 h1, ring_updRing_field g _ m (h2 _ _ _ _ _ _ _), ring_hostWrites]
    rfl
  · rfl

theorem completeWith_ci (ws : List (Nat × List Byte)) (h : Hdr) (status result m : Nat) (u : State) :
    (ring (completeWith ws h status result u) m).ci = (ring u m).ci :=
  completeWith_ring_field (·.ci) (fun _ => rfl) (fun _ => rfl) (fun _ _ _ _ _ _ _ => rfl) ws h status result m u

/-- A posting leaves the staging queue of events. -/
theorem postRecords_staging (n : Nat) (rs : List Record) (s : State) : (postRecords n rs s).stk.staging = s.stk.staging := by
  have hm : ∀ v u, (msixSend v u).stk = u.stk := fun v u =>
    (msixSend_keeps v u (fun _ q => q) (Keeps.refl _ u)).only .stk (by decide)
  have hw : ∀ u, (writeback n u).stk.staging = u.stk.staging := by
    intro u
    unfold writeback
    split
    · dsimp only
      split
      · rfl
      · rfl
    · rfl
  unfold postRecords
  extract_lets s1 z s2
  have h2 : s2.stk.staging = s.stk.staging := by
    show (if z = 0 then s1 else stookWrote (z * rs.length) s1).stk.staging = _
    split <;> rfl
  split
  · unfold signalRing
    dsimp only
    rw [hm]
    exact (hw s2).trans h2
  · exact h2

theorem complete_staging (h : Hdr) (status result : Nat) (s : State) :
    (complete h status result s).stk.staging = s.stk.staging := by
  unfold complete completeWith
  dsimp only
  repeat' split
  · rw [hostWrites_stk]
    rfl
  · rfl
  · rw [postRecords_staging, hostWrites_stk]
    rfl
  · rfl

/-! ## Accepting -/

theorem parkAccepted_accepted {d : Desc} {s u : State} (c : Instr) (objs waits : List Nat)
    (hr : (ring u d.ring.val).ci = (hdrOf d s).ci) :
    Accepted d c [] waits s (parkAccepted (hdrOf d s) c objs waits u) := by
  refine ⟨hr, _, List.mem_append_right _ (List.mem_singleton.mpr rfl), rfl, rfl, rfl, ?_, rfl⟩
  intro n hn
  exact hn

/-! ## Commands that wait for an arrival -/

theorem completeWith_parked (ws : List (Nat × List Byte)) (h : Hdr) (status r : Nat) (t : State) :
    (completeWith ws h status r t).fw.parked = t.fw.parked.filter fun p => p.h.seq ≠ h.seq := by
  unfold completeWith
  dsimp only
  repeat' split
  · rw [hostWrites_fw]
    rfl
  · rfl
  · rw [postRecords_fw, hostWrites_fw]
    rfl
  · rfl

theorem complete_parked (h : Hdr) (status r : Nat) (t : State) :
    (complete h status r t).fw.parked = t.fw.parked.filter fun p => p.h.seq ≠ h.seq := completeWith_parked [] h status r t

/-- After an arrival no command waits for its key. -/
theorem arrive_waits (key : Nat) (result : State → Nat) (s : State) :
    ∀ p ∈ (arrive key result s).fw.parked, key ∉ p.waits := by
  have hl : ∀ (due : List Parked) (t : State), (∀ p ∈ t.fw.parked, key ∈ p.waits → ∃ q ∈ due, q.h.seq = p.h.seq) →
      ∀ p ∈ (due.foldl (fun t p =>
        match findParked t p.h.seq with
        | some q =>
          let w := q.waits.filter (· ≠ key)
          if w = [] then complete q.h 0 (result t) t else
            { t with fw := { t.fw with parked := t.fw.parked.map fun x => if x.h.seq = q.h.seq then { x with waits := w } else x } }
        | none => t) t).fw.parked, key ∉ p.waits := by
    intro due
    induction due with
    | nil =>
      intro t h p hp hk
      obtain ⟨q, hq, -⟩ := h p hp hk
      cases hq
    | cons d due ih =>
      intro t h
      refine ih _ ?_
      cases hf : findParked t d.h.seq with
      | none =>
        beta_reduce
        rw [hf]
        dsimp only
        intro p hp hk
        obtain ⟨q, hq, e⟩ := h p hp hk
        rcases List.mem_cons.mp hq with rfl | hq
        · have := List.find?_eq_none.mp hf p hp
          simp [e] at this
        · exact ⟨q, hq, e⟩
      | some q =>
        have hs : q.h.seq = d.h.seq := by simpa using List.find?_some hf
        beta_reduce
        rw [hf]
        dsimp only
        split
        · rw [complete_parked]
          intro p hp hk
          have hp' := List.mem_filter.mp hp
          obtain ⟨x, hx, e⟩ := h p hp'.1 hk
          rcases List.mem_cons.mp hx with rfl | hx
          · have := hp'.2
            simp [hs, e] at this
          · exact ⟨x, hx, e⟩
        · intro p hp hk
          obtain ⟨y, hy, rfl⟩ := List.mem_map.mp hp
          split at hk
          · simp at hk
          · rename_i hn
            obtain ⟨x, hx, e⟩ := h y hy hk
            rcases List.mem_cons.mp hx with rfl | hx
            · exact absurd (e.symm.trans hs.symm) hn
            · simp only [if_neg hn]
              exact ⟨x, hx, e⟩
  refine hl _ s ?_
  intro p hp hk
  exact ⟨p, List.mem_filter.mpr ⟨hp, by simpa using hk⟩, rfl⟩

/-- An arrival leaves a DISABLED ring as it is: nothing can be posted to it. -/
theorem arrive_ring_init (key : Nat) (result : State → Nat) (s : State) {n : Nat} (hn : ring s n = Ring.init) :
    ring (arrive key result s) n = Ring.init := by
  have hc : ∀ (h : Hdr) (r : Nat) (t : State), ring t n = Ring.init → ring (complete h 0 r t) n = Ring.init := by
    intro h r t ht
    by_cases hm : n = h.paired
    · unfold complete completeWith
      dsimp only
      repeat' split
      · rw [ring_hostWrites]
        exact ht
      · exact ht
      · rename_i _ hp
        exfalso
        simp only [mayComplete, canPost, Bool.and_eq_true, decide_eq_true_eq] at hp
        have h1 : (ring t n).state = .active := by
          have := hp.2
          rw [hm]
          simp only [Bool.false_eq_true, if_false, Bool.and_eq_true, decide_eq_true_eq] at this
          exact this.1
        rw [ht] at h1
        cases h1
      · exact ht
    · rw [complete_ring_ne 0 r hm]
      exact ht
  unfold arrive
  dsimp only
  generalize s.fw.parked.filter _ = due
  induction due generalizing s with
  | nil => exact hn
  | cons p due ih =>
    refine ih _ ?_
    beta_reduce
    split
    · split
      · exact hc _ _ _ hn
      · exact hn
    · exact hn

/-- The two parts Sagger's state is read in give the whole. -/
theorem sag_of_only {s t : State} (hf : Part.same s t .fuses) (hs : Part.same s t .sag) : t.sag = s.sag := by
  have h1 : t.sag.fuses = s.sag.fuses := hf
  have h2 : { t.sag with fuses := [] } = { s.sag with fuses := [] } := hs
  calc t.sag = { { t.sag with fuses := [] } with fuses := t.sag.fuses } := rfl
    _ = { { s.sag with fuses := [] } with fuses := s.sag.fuses } := by rw [h2, h1]
    _ = s.sag := rfl

/-- The commands not accepted that name a stream that failed or is freed leave the table. -/
theorem failWaiters_named (t handle : Nat) (s : State) : ∀ p ∈ (failWaiters t handle s).fw.parked, p.accepted = false →
    namedStream p.h p.cmd ≠ some (t, handle) := by
  have hf : ∀ (l : List Parked) (u : State), ∀ p ∈ (l.foldl (fun u p => fail p.h 0x0504 u) u).fw.parked,
      p ∈ u.fw.parked ∧ ∀ q ∈ l, p.h.seq ≠ q.h.seq := by
    intro l
    induction l with
    | nil => exact fun u p hp => ⟨hp, fun q hq => by cases hq⟩
    | cons a l ih =>
      intro u p hp
      obtain ⟨h1, h2⟩ := ih _ p hp
      beta_reduce at h1
      unfold fail at h1
      rw [complete_parked] at h1
      have h3 := List.mem_filter.mp h1
      refine ⟨h3.1, fun q hq => ?_⟩
      rcases List.mem_cons.mp hq with rfl | hq
      · simpa using h3.2
      · exact h2 q hq
  intro p hp ha hw
  obtain ⟨h1, h2⟩ := hf _ s p hp
  exact h2 p (List.mem_filter.mpr ⟨h1, by simp [ha, hw]⟩) rfl

theorem failWaiters_sag (t handle : Nat) (s : State) : (failWaiters t handle s).sag = s.sag := by
  have hf : ∀ (l : List Parked) (u : State), (l.foldl (fun u p => fail p.h 0x0504 u) u).sag = u.sag := by
    intro l
    induction l with
    | nil => exact fun _ => rfl
    | cons a l ih =>
      intro u
      refine (ih _).trans ?_
      have k := complete_keeps a.h 0x0504 0 u (fun _ q => q) (Keeps.refl _ u)
      exact sag_of_only (k.only .fuses (by decide)) (k.only .sag (by decide))
  exact hf _ s

/-! ## What completing leaves -/

theorem complete_clock (h : Hdr) (status r : Nat) (s : State) : (complete h status r s).clock = s.clock :=
  (complete_keeps h status r s (fun _ q => q) (Keeps.refl _ s)).only .clock (by decide)

theorem complete_jobs (h : Hdr) (status r : Nat) (s : State) : (complete h status r s).jobs = s.jobs :=
  (complete_keeps h status r s (fun _ q => q) (Keeps.refl _ s)).only .jobs (by decide)

theorem complete_thr (h : Hdr) (status r : Nat) (s : State) : (complete h status r s).thr = s.thr :=
  (complete_keeps h status r s (fun _ q => q) (Keeps.refl _ s)).only .thr (by decide)

theorem complete_mil (h : Hdr) (status r : Nat) (s : State) : (complete h status r s).mil = s.mil :=
  (complete_keeps h status r s (fun _ q => q) (Keeps.refl _ s)).only .mil (by decide)

theorem complete_glz (h : Hdr) (status r : Nat) (s : State) : (complete h status r s).glz = s.glz :=
  (complete_keeps h status r s (fun _ q => q) (Keeps.refl _ s)).only .glz (by decide)

theorem complete_kln (h : Hdr) (status r : Nat) (s : State) : (complete h status r s).kln = s.kln :=
  (complete_keeps h status r s (fun _ q => q) (Keeps.refl _ s)).only .kln (by decide)

theorem complete_ports (h : Hdr) (status r : Nat) (s : State) : (complete h status r s).ports = s.ports :=
  (complete_keeps h status r s (fun _ q => q) (Keeps.refl _ s)).only .ports (by decide)

theorem complete_pif (h : Hdr) (status r : Nat) (s : State) : (complete h status r s).pif = s.pif :=
  (complete_keeps h status r s (fun _ q => q) (Keeps.refl _ s)).only .pif (by decide)

theorem complete_mot (h : Hdr) (status r : Nat) (s : State) : (complete h status r s).mot = s.mot :=
  (complete_keeps h status r s (fun _ q => q) (Keeps.refl _ s)).only .mot (by decide)

theorem complete_pwr (h : Hdr) (status r : Nat) (s : State) : (complete h status r s).pwr = s.pwr :=
  (complete_keeps h status r s (fun _ q => q) (Keeps.refl _ s)).only .pwr (by decide)

theorem complete_crk (h : Hdr) (status r : Nat) (s : State) : (complete h status r s).crk = s.crk :=
  (complete_keeps h status r s (fun _ q => q) (Keeps.refl _ s)).only .crk (by decide)

theorem complete_tly (h : Hdr) (status r : Nat) (s : State) : (complete h status r s).tly = s.tly :=
  (complete_keeps h status r s (fun _ q => q) (Keeps.refl _ s)).only .tly (by decide)

theorem complete_trm (h : Hdr) (status r : Nat) (s : State) : (complete h status r s).trm = s.trm :=
  (complete_keeps h status r s (fun _ q => q) (Keeps.refl _ s)).only .trm (by decide)

theorem complete_clk (h : Hdr) (status r : Nat) (s : State) : (complete h status r s).clk = s.clk :=
  (complete_keeps h status r s (fun _ q => q) (Keeps.refl _ s)).only .clk (by decide)

theorem complete_thm (h : Hdr) (status r : Nat) (s : State) : (complete h status r s).thm = s.thm :=
  (complete_keeps h status r s (fun _ q => q) (Keeps.refl _ s)).only .thm (by decide)

theorem complete_fans (h : Hdr) (status r : Nat) (s : State) : (complete h status r s).fans = s.fans :=
  (complete_keeps h status r s (fun _ q => q) (Keeps.refl _ s)).only .fans (by decide)

theorem complete_ipl (h : Hdr) (status r : Nat) (s : State) : (complete h status r s).ipl = s.ipl :=
  (complete_keeps h status r s (fun _ q => q) (Keeps.refl _ s)).only .ipl (by decide)

theorem complete_win (h : Hdr) (status r : Nat) (s : State) : (complete h status r s).win = s.win :=
  (complete_keeps h status r s (fun _ q => q) (Keeps.refl _ s)).only .win (by decide)

theorem complete_gln (h : Hdr) (status r : Nat) (s : State) : (complete h status r s).gln = s.gln :=
  (complete_keeps h status r s (fun _ q => q) (Keeps.refl _ s)).only .gln (by decide)

theorem complete_cal (h : Hdr) (status r : Nat) (s : State) : (complete h status r s).cal = s.cal :=
  (complete_keeps h status r s (fun _ q => q) (Keeps.refl _ s)).only .cal (by decide)

theorem complete_free (h : Hdr) (status r : Nat) (s : State) : (complete h status r s).free = s.free :=
  (complete_keeps h status r s (fun _ q => q) (Keeps.refl _ s)).only .free (by decide)

theorem complete_entries (h : Hdr) (status r : Nat) (s : State) : (complete h status r s).til.entries = s.til.entries :=
  ((complete_keeps h status r s (fun _ q => q) (Keeps.refl _ s)).only .entries (by decide)).1

theorem complete_til (h : Hdr) (status r : Nat) (s : State) : { (complete h status r s).til with arrays := [], entries := [], lastOf := [] } =
    { s.til with arrays := [], entries := [], lastOf := [] } :=
  (complete_keeps h status r s (fun _ q => q) (Keeps.refl _ s)).only .til (by decide)

theorem complete_rd (h : Hdr) (status r : Nat) (s : State) {k : Nat} (hk : keyKind k ≠ .stk) :
    rd (complete h status r s) k = rd s k :=
  (((complete_keeps h status r s (fun _ q => q) (Keeps.refl _ s)).only (.reg (keyKind k)) (by simpa using hk)).1 k rfl).1

theorem complete_rdShadow (h : Hdr) (status r : Nat) (s : State) {k : Nat} (hk : keyKind k ≠ .stk) :
    rdShadow (complete h status r s) k = rdShadow s k :=
  (((complete_keeps h status r s (fun _ q => q) (Keeps.refl _ s)).only (.reg (keyKind k)) (by simpa using hk)).1 k rfl).2

theorem complete_page (h : Hdr) (status r : Nat) (s : State) {n : Nat} (hn : pageKind n ≠ .stk) :
    getPage (complete h status r s) n = getPage s n :=
  ((complete_keeps h status r s (fun _ q => q) (Keeps.refl _ s)).only (.reg (pageKind n)) (by simpa using hn)).2 n rfl

/-- What has left the controller before a completion has still left it after. -/
theorem completeWith_out {ws : List (Nat × List Byte)} {h : Hdr} {status r : Nat} {s : State} {o : Out} (ho : o ∈ s.out) :
    o ∈ (completeWith ws h status r s).out := by
  unfold completeWith
  dsimp only
  repeat' split
  · exact hostWrites_keep ho
  · exact ho
  · exact postRecords_out (hostWrites_keep ho)
  · exact ho

theorem complete_out {h : Hdr} {status r : Nat} {s : State} {o : Out} (ho : o ∈ s.out) : o ∈ (complete h status r s).out :=
  completeWith_out ho

/-! ## From a meaning's frame lemma to a statement's conclusion -/

/-- A command answers the next state its meaning gives, something holds of it, and only the parts its frame lemma lists change. -/
theorem next_at {i : Instr} {s t0 : State} {ps qs : List Part} {P : State → Prop}
    (h : ∃ t, exec i s = .next t ∧ Keeps qs s t) (hs : ∀ p ∈ qs, p ∈ ps) (e0 : exec i s = .next t0) (hP : P t0) :
    ∃ t, exec i s = .next t ∧ P t ∧ Only ps s t := by
  obtain ⟨t, e, k⟩ := h
  rw [e0] at e
  obtain rfl := Host.Outcome.next.inj e
  exact ⟨t0, e0, hP, fun p hp => k.only p fun hq => hp (hs p hq)⟩

end Sys2Proof.Machine
end

