-- ==== Sys2Proof/Laws/Events.lean ====
section
/-! SUPPORT. What events and interrupts leave of rings, and completions after them. -/

namespace Sys2Proof.Machine
open Sys2Proof

/-! ## Rings under events -/

theorem ring_raiseIrq (n b m : Nat) (s : State) : ring (raiseIrq n b s) m = ring s m :=
  ring_congr ((raiseIrq_keeps n b s (fun _ q => q) (Keeps.refl _ s)).only .rings (by simp)) m

/-- Events touch nothing of a ring but its gap. -/
theorem ring_acceptEvent_field {α : Type} (g : Ring → α) (h : ∀ (r : Ring) (x : Gap), g { r with gap := x } = g r) (code : Nat)
    (alarm commit : Bool) (ten : Option Nat) (pl : List Byte) (m : Nat) (s : State) :
    g (ring (acceptEvent code alarm commit ten pl s) m) = g (ring s m) := by
  have hd : ∀ (e : Event) (n : Nat) (t : State), g (ring (dropEvent e n t) m) = g (ring t m) := by
    intro e n t
    unfold dropEvent
    rw [ring_raiseIrq]
    exact (ring_updRing_field g (n := n) (f := fun r => { r with gap := _ }) t m (h (ring t n) _) :)
  have hf : ∀ (e : Event) (l : List Nat) (t : State), g (ring (l.foldl (fun t n => dropEvent e n t) t) m) = g (ring t m) := by
    intro e l
    induction l with
    | nil => exact fun _ => rfl
    | cons n l ih => exact fun t => (ih _).trans (hd e n t)
  unfold acceptEvent
  dsimp only
  split
  · rfl
  · exact hf _ _ _

/-- Rings that differ in what their gap records say alone. -/
def RingsAlike (s u : State) : Prop := ∀ n, { ring u n with gap := Ring.init.gap } = { ring s n with gap := Ring.init.gap }

theorem RingsAlike.refl (s : State) : RingsAlike s s := fun _ => rfl

theorem RingsAlike.trans {s t u : State} (h : RingsAlike s t) (k : RingsAlike t u) : RingsAlike s u := fun n => (k n).trans (h n)

theorem RingsAlike.of_rings {s u : State} (h : u.hif.rings = s.hif.rings) : RingsAlike s u := fun n => by rw [ring_congr h]

theorem RingsAlike.field {s u : State} (h : RingsAlike s u) {α : Type} (g : Ring → α)
    (hg : ∀ r : Ring, g { r with gap := Ring.init.gap } = g r) (n : Nat) : g (ring u n) = g (ring s n) := by
  have := congrArg g (h n)
  rwa [hg, hg] at this

/-- Something that keeps the rings' parts of interest (a frame lemma's list without `rings`). -/
theorem RingsAlike.of_keeps {s u : State} {ps : List Part} (k : Keeps ps s u) (h : Part.rings ∉ ps) : RingsAlike s u :=
  RingsAlike.of_rings (k.only .rings h)

theorem event_alike (code : Nat) (ten : Option Nat) (pl : List Byte) (s : State) : RingsAlike s (event code ten pl s) := fun n =>
  ring_acceptEvent_field (fun r => { r with gap := Ring.init.gap }) (fun _ _ => rfl) _ _ _ _ _ n s

theorem raiseIrq_alike (n b : Nat) (s : State) : RingsAlike s (raiseIrq n b s) := fun m => by rw [ring_raiseIrq]

theorem canIssue_keeps {s u : State} {ps : List Part} (k : Keeps ps s u) (h : Part.hif ∉ ps) : canIssue u = canIssue s := by
  have h4 := congrArg Hif.cfg (k.only .hif h)
  rw [canIssue, canIssue]
  exact congrArg (fun c => c.busMaster && !c.d3hot) h4

theorem stamp_keeps {s u : State} {ps : List Part} (k : Keeps ps s u) (h : Part.clock ∉ ps) : stamp u = stamp s := by
  rw [stamp, stamp, show u.clock = s.clock from k.only .clock h]

theorem ringsAlike_canPost {s u : State} (hr : RingsAlike s u) (hc : canIssue u = canIssue s) (n k : Nat) :
    canPost u n k = canPost s n k := by
  have h1 : (ring u n).state = (ring s n).state := hr.field (·.state) (fun _ => rfl) n
  have h2 : (ring u n).room = (ring s n).room := hr.field (·.room) (fun _ => rfl) n
  rw [canPost, canPost, h1, h2, hc]

/-- Whether a completion may take place now, through what leaves rings, held completions and HIF's enables alike. -/
theorem mayComplete_alike {h : Hdr} {s u : State} (hr : RingsAlike s u) (hh : u.fw.held = s.fw.held) (hc : canIssue u = canIssue s)
    (b : Bool) : mayComplete h b (unpark h u) = mayComplete h b s := by
  have h1 : heldFor (unpark h u) h.paired = heldFor s h.paired := by
    rw [heldFor, heldFor]
    exact congrArg (fun l => List.any l _) hh
  have h2 : canPost (unpark h u) h.paired 1 = canPost s h.paired 1 := ringsAlike_canPost (s := s) (u := unpark h u) hr hc _ _
  have h3 : (ring (unpark h u) h.paired).room = (ring s h.paired).room := hr.field (·.room) (fun _ => rfl) _
  rw [mayComplete, mayComplete, h1, h2, h3]

/-- A command completes, with bulk output, from a state in which rings are alike and held completions and time as they were. -/
theorem completeWith_recorded {h : Hdr} {ws : List (Nat × List Byte)} {s u : State} (status result : Nat) (hr : RingsAlike s u)
    (hh : u.fw.held = s.fw.held) (ht : stamp u = stamp s) (hc : canIssue u = canIssue s) :
    (∀ p ∈ (completeWith ws h status result u).fw.parked, p.h.seq ≠ h.seq) ∧
      Recorded h ws status result s s (completeWith ws h status result u) := by
  have hrec : cplRecord h status result (unpark h u) = cplRecord h status result s := by
    rw [cplRecord, cplRecord, show stamp (unpark h u) = stamp s from ht]
  have hent : (ring u h.paired).entries = (ring s h.paired).entries := hr.field (·.entries) (fun _ => rfl) _
  have hpi : (ring u h.paired).pi = (ring s h.paired).pi := hr.field (·.pi) (fun _ => rfl) _
  have hci : canIssue (unpark h u) = canIssue s := hc
  refine ⟨fun p hp => ?_, ?_⟩
  · rw [completeWith_parked] at hp
    simpa using (List.mem_filter.mp hp).2
  · unfold Recorded completeWith
    dsimp only
    rw [mayComplete_alike hr hh hc true, mayComplete_alike hr hh hc false, hrec, hci]
    split
    · split
      · refine ⟨?_, ?_, hostWrites_out _ _⟩
        · rw [ring_hostWrites]
          exact hent
        · rw [hostWrites_fw]
          exact hh
      · exact ⟨hent, congrArg (· ++ _) hh⟩
    · split
      · refine ⟨?_, ?_, ?_, fun w hw => postRecords_out (hostWrites_out _ _ w hw)⟩
        · rw [postRecords_entries, ring_hostWrites]
          exact congrArg (· ++ _) hent
        · rw [postRecords_pi, ring_hostWrites]
          exact congrArg (fun x => (x + 1) % idxMod) hpi
        · rw [postRecords_fw, hostWrites_fw]
          exact hh
      · exact ⟨hent, congrArg (· ++ _) hh⟩

theorem complete_finished_alike {h : Hdr} {s u : State} (status result : Nat) (hr : RingsAlike s u) (hh : u.fw.held = s.fw.held)
    (ht : stamp u = stamp s) (hc : canIssue u = canIssue s) : Finished h status result s (complete h status result u) :=
  completeWith_recorded status result hr hh ht hc

/-- A command completes after its taking and what left the rings alike. -/
theorem completeWith_completed {d : Desc} {ws : List (Nat × List Byte)} {s u : State} (status result : Nat)
    (hr : RingsAlike (taken d s) u) (hh : u.fw.held = s.fw.held) (ht : stamp u = stamp s) (hc : canIssue u = canIssue s) :
    CompletedWith ws d status result s (completeWith ws (hdrOf d s) status result u) := by
  obtain ⟨h1, h2⟩ := completeWith_recorded (h := hdrOf d s) (ws := ws) (s := taken d s) status result hr hh ht hc
  have h3 : ∀ m, (ring (taken d s) m).entries = (ring s m).entries := taken_ring_field (·.entries) (fun _ _ _ _ => rfl) d s
  have h4 : ∀ m, (ring (taken d s) m).pi = (ring s m).pi := taken_ring_field (·.pi) (fun _ _ _ _ => rfl) d s
  refine ⟨?_, h1, ?_⟩
  · rw [completeWith_ci, hr.field (·.ci) (fun _ => rfl), taken_ring_self]
    rfl
  · unfold Recorded at h2 ⊢
    dsimp only at h2 ⊢
    simp only [h3, h4] at h2
    exact h2

theorem complete_completed_alike {d : Desc} {s u : State} (status result : Nat) (hr : RingsAlike (taken d s) u)
    (hh : u.fw.held = s.fw.held) (ht : stamp u = stamp s) (hc : canIssue u = canIssue s) :
    Completed d status result s (complete (hdrOf d s) status result u) :=
  completeWith_completed status result hr hh ht hc

/-- The same from a frame: between the taking and the completion neither rings nor firmware, time or HIF changed. -/
theorem completeWith_only {d : Desc} {ws : List (Nat × List Byte)} {s u : State} {ps : List Part} (status result : Nat)
    (h : Keeps ps (taken d s) u) (hps : Part.rings ∉ ps ∧ Part.fw ∉ ps ∧ Part.clock ∉ ps ∧ Part.hif ∉ ps) :
    CompletedWith ws d status result s (completeWith ws (hdrOf d s) status result u) := by
  have h1 : u.fw = (taken d s).fw := h.only .fw hps.2.1
  refine completeWith_completed status result (RingsAlike.of_keeps h hps.1) (by rw [h1]; rfl) ?_ ?_
  · exact stamp_keeps (s := taken d s) h hps.2.2.1
  · exact canIssue_keeps (s := taken d s) h hps.2.2.2

theorem complete_only {d : Desc} {s u : State} {ps : List Part} (status result : Nat) (h : Keeps ps (taken d s) u)
    (hps : Part.rings ∉ ps ∧ Part.fw ∉ ps ∧ Part.clock ∉ ps ∧ Part.hif ∉ ps) :
    Completed d status result s (complete (hdrOf d s) status result u) := completeWith_only status result h hps

/-- A command that was waiting completes from a state in which rings, firmware, time and HIF are as they were. -/
theorem complete_finished_only {h : Hdr} {s u : State} {ps : List Part} (status result : Nat) (k : Keeps ps s u)
    (hps : Part.rings ∉ ps ∧ Part.fw ∉ ps ∧ Part.clock ∉ ps ∧ Part.hif ∉ ps) :
    Finished h status result s (complete h status result u) :=
  complete_finished_alike status result (RingsAlike.of_keeps k hps.1) (by rw [show u.fw = s.fw from k.only .fw hps.2.1])
    (stamp_keeps k hps.2.2.1) (canIssue_keeps k hps.2.2.2)

/-- What is completed stays completed through a step that keeps the firmware's tables, what has left the controller, and the rings'
indices and entries. -/
theorem CompletedWith.after {ws : List (Nat × List Byte)} {d : Desc} {status result : Nat} {s t u : State}
    (h : CompletedWith ws d status result s t) (hf : u.fw = t.fw) (ho : ∀ o ∈ t.out, o ∈ u.out)
    (h1 : ∀ n, (ring u n).ci = (ring t n).ci) (h2 : ∀ n, (ring u n).entries = (ring t n).entries)
    (h3 : ∀ n, (ring u n).pi = (ring t n).pi) : CompletedWith ws d status result s u := by
  obtain ⟨a, b, c⟩ := h
  refine ⟨by rw [h1]; exact a, by rw [hf]; exact b, ?_⟩
  unfold Recorded at c ⊢
  dsimp only at c ⊢
  rw [hf, h2, h3]
  split at c <;> rename_i e
  · rw [if_pos e]
    split at c <;> rename_i e2
    · rw [if_pos e2]
      exact ⟨c.1, c.2.1, fun w hw => ho _ (c.2.2 w hw)⟩
    · rw [if_neg e2]
      exact c
  · rw [if_neg e]
    split at c <;> rename_i e2
    · rw [if_pos e2]
      exact ⟨c.1, c.2.1, c.2.2.1, fun w hw => ho _ (c.2.2.2 w hw)⟩
    · rw [if_neg e2]
      exact c

/-- What an interrupt raised with an event leaves. -/
theorem raised_keeps {n b code : Nat} {ten : Option Nat} {pl : List Byte} (s : State) :
    Keeps [.reg (pageKind n), .msix, .out, .stk, .reg .stk, .rings] s (raiseIrq n b (event code ten pl s)) :=
  raiseIrq_keeps n b _ (by simp) (event_keeps code ten pl s (by simp) (Keeps.refl _ s))

theorem raised_alike {n b code : Nat} {ten : Option Nat} {pl : List Byte} (s : State) :
    RingsAlike s (raiseIrq n b (event code ten pl s)) := (event_alike code ten pl s).trans (raiseIrq_alike n b _)

end Sys2Proof.Machine
end

