-- ==== Sys2Proof/Laws/Latch.lean ====
section
/-! SUPPORT. What latches leave of the commands that wait for them, of rings' consumer indices, and of shadow values. -/

namespace Sys2Proof.Machine
open Sys2Proof

/-! ## Commands in the table -/

/-- Every command in the table is still there, the pages it waits for among those it waited for; and every ring's consumer index stands. -/
structure StillParked (s u : State) : Prop where
  ci : ∀ n, (ring u n).ci = (ring s n).ci
  parked : ∀ p ∈ s.fw.parked, ∃ q ∈ u.fw.parked, q.h = p.h ∧ q.cmd = p.cmd ∧ q.accepted = p.accepted ∧ (∀ n ∈ q.pages, n ∈ p.pages) ∧
    q.waits = p.waits

theorem StillParked.refl (s : State) : StillParked s s :=
  ⟨fun _ => rfl, fun p hp => ⟨p, hp, rfl, rfl, rfl, fun _ h => h, rfl⟩⟩

theorem StillParked.trans {s t u : State} (h : StillParked s t) (k : StillParked t u) : StillParked s u := by
  refine ⟨fun n => (k.ci n).trans (h.ci n), fun p hp => ?_⟩
  obtain ⟨q, hq, a1, a2, a3, a4, a5⟩ := h.parked p hp
  obtain ⟨r, hr, b1, b2, b3, b4, b5⟩ := k.parked q hq
  exact ⟨r, hr, b1.trans a1, b2.trans a2, b3.trans a3, fun n hn => a4 n (b4 n hn), b5.trans a5⟩

theorem StillParked.of_alike {s u : State} (h : RingsAlike s u) (k : u.fw = s.fw) : StillParked s u :=
  ⟨h.field (·.ci) fun _ => rfl, fun p hp => ⟨p, k ▸ hp, rfl, rfl, rfl, fun _ h => h, rfl⟩⟩

theorem StillParked.of_keeps {s u : State} {ps : List Part} (k : Keeps ps s u) (h : Part.rings ∉ ps ∧ Part.fw ∉ ps) : StillParked s u :=
  StillParked.of_alike (RingsAlike.of_keeps k h.1) (k.only .fw h.2)

theorem StillParked.foldl {α : Type} {f : State → α → State} (l : List α) (hf : ∀ t, ∀ x ∈ l, StillParked t (f t x)) (s : State) :
    StillParked s (l.foldl f s) := by
  induction l generalizing s with
  | nil => exact StillParked.refl s
  | cons a l ih => exact (hf s a List.mem_cons_self).trans (ih (fun t x hx => hf t x (List.mem_cons_of_mem _ hx)) _)

/-- The firmware's table changes by dropping awaited pages alone. -/
theorem StillParked.of_map {s u : State} (f : Parked → Parked) (hr : u.hif.rings = s.hif.rings)
    (hp : u.fw.parked = s.fw.parked.map f) (hf : ∀ q, (f q).h = q.h ∧ (f q).cmd = q.cmd ∧ (f q).accepted = q.accepted ∧
      (∀ n ∈ (f q).pages, n ∈ q.pages) ∧ (f q).waits = q.waits) : StillParked s u :=
  ⟨fun n => by rw [ring_congr hr], fun p h => ⟨f p, hp ▸ List.mem_map_of_mem h, hf p⟩⟩

theorem wn_still (k v : Nat) (s : State) : StillParked s (wn k v s) := StillParked.of_alike (RingsAlike.of_rings rfl) rfl

theorem noteLatch_still (n slot : Nat) (s : State) : StillParked s (noteLatch n slot s) := by
  refine StillParked.of_map _ rfl rfl fun q => ?_
  split
  · exact ⟨rfl, rfl, rfl, fun m hm => (List.mem_filter.mp hm).1, rfl⟩
  · exact ⟨rfl, rfl, rfl, fun _ h => h, rfl⟩

theorem acceptEvent_still (code : Nat) (alarm commit : Bool) (ten : Option Nat) (pl : List Byte) (s : State) :
    StillParked s (acceptEvent code alarm commit ten pl s) :=
  ⟨fun n => ring_acceptEvent_field (·.ci) (fun _ _ => rfl) _ _ _ _ _ n s, fun p hp =>
    ⟨p, by rw [show (acceptEvent code alarm commit ten pl s).fw = s.fw from
      (acceptEvent_keeps code alarm commit ten pl s (fun _ q => q) (Keeps.refl _ s)).only .fw (by decide)]; exact hp,
      rfl, rfl, rfl, fun _ h => h, rfl⟩⟩

theorem raiseIrq_still (n b : Nat) (s : State) : StillParked s (raiseIrq n b s) :=
  StillParked.of_keeps (raiseIrq_keeps n b s (fun _ q => q) (Keeps.refl _ s)) (by simp)

theorem raised_still (n b code : Nat) (ten : Option Nat) (pl : List Byte) (s : State) :
    StillParked s (raiseIrq n b (event code ten pl s)) :=
  (acceptEvent_still _ _ _ _ _ _).trans (raiseIrq_still _ _ _)

theorem splitMoved_still (n : Nat) (b s : State) : StillParked s (splitMoved n b s) := by
  unfold splitMoved
  split
  · dsimp only
    split
    · exact StillParked.refl s
    · refine StillParked.trans ?_ (raised_still _ _ _ _ _ _)
      exact StillParked.of_alike (RingsAlike.of_rings rfl) rfl
  · exact StillParked.refl s

theorem camApplied_id {n : Nat} (hn : pageKind n ≠ .iplP) (u : State) : camApplied n u = u := by
  unfold camApplied
  split
  · rename_i k hk
    exact absurd (by rw [pageKind, hk]) hn
  · rfl

/-- A page other than a camera port's applies: no command leaves the table. -/
theorem commitPage_still {n : Nat} (hn : pageKind n ≠ .iplP) (slot : Nat) (vals keep : Tab Word) (pend : Bool) (s : State) :
    StillParked s (commitPage n slot vals keep pend s) := by
  unfold commitPage
  extract_lets p s1 s2
  rw [camApplied_id hn]
  refine StillParked.trans ?_ (noteLatch_still _ _ _)
  refine StillParked.trans ?_ (splitMoved_still _ _ _)
  refine StillParked.trans ?_ (acceptEvent_still _ _ _ _ _ _)
  refine StillParked.trans ?_ (raiseIrq_still _ _ _)
  exact StillParked.of_alike (RingsAlike.of_rings rfl) rfl

theorem applyPage_still {n : Nat} (hn : pageKind n ≠ .iplP) (slot : Nat) (s : State) : StillParked s (applyPage n slot s) := by
  unfold applyPage
  dsimp only
  split
  · exact commitPage_still hn _ _ _ _ _
  · exact StillParked.refl s

theorem idleLatch_still {n : Nat} (hn : pageKind n ≠ .iplP) (s : State) : StillParked s (idleLatch n s) := by
  unfold idleLatch
  split
  · exact applyPage_still hn _ _
  · exact StillParked.refl s

theorem deferPage_still (n : Nat) (s : State) : StillParked s (deferPage n s) := by
  unfold deferPage
  split
  · split
    · refine StillParked.trans ?_ (StillParked.of_keeps (inc_keeps _ 1 _ (fun _ q => q) (Keeps.refl _ _)) (by simp))
      refine StillParked.trans ?_ (raiseIrq_still _ _ _)
      exact StillParked.of_keeps (updPage_keeps n _ s (fun _ q => q) (Keeps.refl _ _)) (by simp)
    · exact StillParked.refl s
  · exact StillParked.refl s

theorem barSplits_still (skip : List Nat) (s : State) : StillParked s (barSplits skip s) := by
  unfold barSplits
  refine StillParked.foldl _ (fun t h _ => ?_) s
  dsimp only
  split
  · exact StillParked.of_keeps (wf_keeps _ _ _ _ t (fun _ q => q) (Keeps.refl _ _)) (by simp)
  · split
    · refine StillParked.trans ?_ (raised_still _ _ _ _ _ _)
      refine StillParked.trans ?_ (StillParked.of_keeps (inc_keeps _ 1 _ (fun _ q => q) (Keeps.refl _ _)) (by simp))
      exact (wn_still (Reg.TIL_E_SPLIT (2 * h)) _ t).trans (wn_still _ _ _)
    · exact StillParked.refl t

theorem barExtras_still (skip : List Nat) (slot : Nat) (s : State) : StillParked s (barExtras skip slot s) := by
  unfold barExtras
  split
  · exact StillParked.refl s
  · dsimp only
    refine StillParked.trans ?_ (noteLatch_still _ _ _)
    refine StillParked.trans ?_ (barSplits_still _ _)
    exact StillParked.of_alike (RingsAlike.of_rings rfl) rfl

theorem armBar_still (s : State) : StillParked s (armBar s) := by
  unfold armBar
  extract_lets w
  split
  · exact StillParked.refl s
  · split
    · refine StillParked.trans (StillParked.foldl _ (fun t n hn => ?_) s) (barExtras_still _ _ _)
      refine applyPage_still ?_ _ _
      simp only [barPages, List.mem_cons, List.not_mem_nil, or_false] at hn
      rcases hn with rfl | rfl | rfl <;> decide
    · exact StillParked.of_alike (RingsAlike.of_rings rfl) rfl

theorem setCmdHold_still (b : Bool) (n : Nat) (s : State) : StillParked s (setCmdHold b n s) :=
  StillParked.of_keeps (setCmdHold_keeps b n s (fun _ q => q) (Keeps.refl _ s)) (by simp)

theorem releasePages_still {pages : List Nat} (h : ∀ n ∈ pages, pageKind n ≠ .iplP) (s : State) :
    StillParked s (releasePages pages s) := by
  unfold releasePages
  refine StillParked.trans (StillParked.foldl pages (fun t n _ => setCmdHold_still false n t) s) ?_
  refine StillParked.trans (StillParked.foldl pages (fun t n _ => deferPage_still n t) _) (StillParked.foldl _ (fun t n hn => ?_) _)
  split
  · split
    · exact StillParked.refl t
    · exact armBar_still t
  · exact idleLatch_still (h n hn) t

theorem latchTable_still (p slot : Nat) (s : State) : StillParked s (latchTable p slot s) := by
  unfold latchTable
  dsimp only
  split
  · rename_i x _
    split
    · exact StillParked.refl s
    · refine StillParked.trans ?_ (noteLatch_still _ _ _)
      refine StillParked.trans (StillParked.of_keeps (joinHeads_keeps p x.2 s (fun _ q => q) (Keeps.refl _ s)) (by decide)) ?_
      exact StillParked.of_keeps (updPlane_keeps p _ _ (fun _ q => q) (Keeps.refl _ _)) (by decide)
  · exact StillParked.refl s

theorem latchPass_still (p slot : Nat) (s : State) : StillParked s (latchPass p slot s) := by
  unfold latchPass
  extract_lets o due
  split
  · split
    · refine StillParked.trans ?_ (StillParked.of_keeps (workAgain_keeps p _ (fun _ q => q) (Keeps.refl _ _)) (by decide))
      exact StillParked.trans (StillParked.of_keeps (updPlane_keeps p _ _ (fun _ q => q) (Keeps.refl _ _)) (by decide)) (noteLatch_still _ _ _)
    · exact StillParked.refl s
  · exact StillParked.refl s

theorem applyEntries_still (among : Nat → Bool) (f : BitVec 32) (slot : Nat) (s : State) :
    StillParked s (applyEntries among f slot s) := by
  unfold applyEntries
  extract_lets s1 takes due used _x s2 vars s3 cmds
  have h1 : StillParked s s1 := StillParked.of_keeps (applyGains_keeps among slot s (fun _ q => q) (Keeps.refl _ s)) (by decide)
  have h2 : StillParked s1 s2 := by
    refine StillParked.trans ?_ (StillParked.foldl _ (fun t q _ => ?_) _)
    · exact StillParked.of_alike (RingsAlike.of_rings rfl) rfl
    · refine StillParked.of_keeps (ps := [.til, .entries]) (putEntry_keeps _ _ _ (by simp) ?_) (by decide)
      split
      · exact noteChanged_keeps _ _ (by simp) (Keeps.refl _ _)
      · exact Keeps.refl _ _
  have h3 : StillParked s2 s3 :=
    StillParked.trans (StillParked.foldl _ (fun t q _ => StillParked.of_keeps (variantLatch_keeps _ _ _ _ (fun _ q => q) (Keeps.refl _ _)) (by decide)) _)
      (StillParked.foldl _ (fun t q _ => StillParked.of_keeps (discardWindow_keeps _ _ (fun _ q => q) (Keeps.refl _ _)) (by decide)) _)
  refine ((h1.trans h2).trans h3).trans (StillParked.foldl _ (fun t c _ => ?_) _)
  extract_lets es mine t1
  have h4 : StillParked t t1 := StillParked.foldl _ (fun u l _ => StillParked.of_keeps
    (crkSubmit_keeps _ _ _ _ (fun _ q => q) (Keeps.refl _ _)) (by decide)) t
  clear_value t1
  refine h4.trans ?_
  refine StillParked.of_map _ rfl rfl fun q => ?_
  split
  · exact ⟨rfl, rfl, rfl, fun m hm => (List.mem_filter.mp hm).1, rfl⟩
  · exact ⟨rfl, rfl, rfl, fun _ h => h, rfl⟩

theorem idleTables_still (p : Nat) (s : State) : StillParked s (idleTables p s) := by
  unfold idleTables
  split
  · exact ((latchTable_still _ _ _).trans (latchPass_still _ _ _)).trans (applyEntries_still _ _ _ _)
  · exact StillParked.refl s

theorem idleEntries_still (h : Nat) (s : State) : StillParked s (idleEntries h s) := by
  unfold idleEntries
  split
  · exact idleTables_still _ _
  · exact applyEntries_still _ _ _ _

@[simp] theorem plane_updPlane_self (p : Nat) (f : Plane → Plane) (s : State) : plane (updPlane p f s) p = f (plane s p) := by
  simp [plane, updPlane, putPlane]

theorem plane_updPlane_ne {p q : Nat} (f : Plane → Plane) (s : State) (h : q ≠ p) : plane (updPlane p f s) q = plane s q := by
  simp [plane, updPlane, putPlane, tget_tput_ne _ _ _ h]

theorem plane_congr {s t : State} (h : t.kln = s.kln) (p : Nat) : plane t p = plane s p := by rw [plane, plane, h]

/-- What waits for one plane applies without a change of another. -/
theorem idleTables_plane_ne {p q : Nat} (s : State) (h : q ≠ p) : plane (idleTables p s) q = plane s q := by
  have h1 : ∀ u, plane (latchTable p noSlot u) q = plane u q := by
    intro u
    unfold latchTable
    dsimp only
    repeat' split
    · rfl
    · refine (plane_congr ((noteLatch_keeps _ _ _ (fun _ q => q) (Keeps.refl _ _)).only .kln (by decide)) q).trans ?_
      refine (plane_updPlane_ne _ _ h).trans ?_
      exact plane_congr ((joinHeads_keeps _ _ _ (fun _ q => q) (Keeps.refl _ _)).only .kln (by decide)) q
    · rfl
  have h2 : ∀ u, plane (latchPass p noSlot u) q = plane u q := by
    intro u
    unfold latchPass
    extract_lets o due
    split
    · split
      · refine (plane_congr ((workAgain_keeps _ _ (fun _ q => q) (Keeps.refl _ _)).only .kln (by decide)) q).trans ?_
        refine (plane_congr ((noteLatch_keeps _ _ _ (fun _ q => q) (Keeps.refl _ _)).only .kln (by decide)) q).trans ?_
        exact plane_updPlane_ne _ _ h
      · rfl
    · rfl
  unfold idleTables
  split
  · refine (plane_congr ((applyEntries_keeps _ _ _ _ (fun _ q => q) (Keeps.refl _ _)).only .kln (by decide)) q).trans ?_
    exact (h2 _).trans (h1 _)
  · rfl

/-- A command just put in the table is accepted after what leaves it there. -/
theorem park_accepted {d : Desc} {s u v : State} {p : Parked} {c : Instr} {pages waits : List Nat} (hci : (ring u d.ring.val).ci = (hdrOf d s).ci)
    (h1 : p.h = hdrOf d s) (h2 : p.cmd = c) (h3 : p.accepted = true) (h4 : ∀ n ∈ p.pages, n ∈ pages) (h5 : p.waits = waits)
    (k : StillParked (park p u) v) : Accepted d c pages waits s v := by
  refine ⟨(k.ci _).trans hci, ?_⟩
  obtain ⟨q, hq, a1, a2, a3, a4, a5⟩ := k.parked p (List.mem_append_right _ (List.mem_singleton.mpr rfl))
  exact ⟨q, hq, a1.trans h1, a2.trans h2, a3.trans h3, fun n hn => h4 n (a4 n hn), a5.trans h5⟩

/-- A command of class F or B is accepted with its pages. -/
theorem cmdLatch_accepted {d : Desc} {s u : State} (c : Instr) (objs marks : List Nat) {pages : List Nat} (write : State → State)
    (hci : (ring u d.ring.val).ci = (hdrOf d s).ci) (hp : ∀ n ∈ pages, pageKind n ≠ .iplP) (hw : ∀ t, StillParked t (write t)) :
    Accepted d c (pages ++ marks) [] s (cmdLatch (hdrOf d s) c objs pages marks write u) :=
  park_accepted (p := { Parked.of u (hdrOf d s) c true with
      objs := objs, pages := pages ++ marks,
      late := (pages.any fun n => pageLate u n && decide (pageSrc n = 1)) }) hci rfl rfl rfl (fun _ h => h) rfl
    (((StillParked.foldl pages (fun t n _ => setCmdHold_still true n t) _).trans (hw _)).trans (releasePages_still hp _))

theorem taken_ci (d : Desc) (s : State) : (ring (taken d s) d.ring.val).ci = (hdrOf d s).ci := by
  rw [taken_ring_self]
  rfl

theorem pageSrc_tilE : ∀ i < 128, pageSrc (0x040 + i) = 1 := by decide
theorem pageSrc_klnP : ∀ i < 16, pageSrc (0x0C1 + i) = 1 := by decide
theorem pageSrc_hlk : ∀ i < 64, pageSrc (0x0D1 + i) = 1 := by decide

@[simp] theorem pageSrc_pgTilE (i : Nat) : pageSrc (pgTilE i) = 1 := pageSrc_tilE _ (Nat.mod_lt _ (by decide))
@[simp] theorem pageSrc_pgKlnP (i : Nat) : pageSrc (pgKlnP i) = 1 := pageSrc_klnP _ (Nat.mod_lt _ (by decide))
@[simp] theorem pageSrc_pgHlk (i : Nat) : pageSrc (pgHlk i) = 1 := pageSrc_hlk _ (Nat.mod_lt _ (by decide))

/-- Releasing pages that follow frame latches leaves the planes' state. -/
theorem releaseFrame_kln {pages : List Nat} (h : ∀ n ∈ pages, pageSrc n = 1 ∧ pageKind n ≠ .iplP) (s : State) :
    (releasePages pages s).kln = s.kln := by
  have h1 : ∀ (l : List Nat) (u : State), (l.foldl (fun t n => deferPage n t) u).kln = u.kln := by
    intro l
    induction l with
    | nil => exact fun _ => rfl
    | cons a l ih => exact fun u => (ih _).trans ((deferPage_keeps a u (fun _ q => q) (Keeps.refl _ u)).only .kln (by simp))
  have h2 : ∀ (l : List Nat), (∀ n ∈ l, pageSrc n = 1) → ∀ u, (l.foldl (fun t n =>
      if pageSrc n = 2 then (if (getPage t n).hold then t else armBar t) else idleLatch n t) u).kln = u.kln := by
    intro l
    induction l with
    | nil => exact fun _ _ => rfl
    | cons a l ih =>
      intro hl u
      rw [List.foldl_cons, if_neg (by rw [hl a List.mem_cons_self]; decide)]
      exact (ih (fun n hn => hl n (List.mem_cons_of_mem _ hn)) _).trans
        ((idleLatch_keeps a u (fun _ q => q) (Keeps.refl _ u)).only .kln (by simp))
  have h3 : ∀ (l : List Nat) (u : State), (l.foldl (fun t n => setCmdHold false n t) u).kln = u.kln := by
    intro l
    induction l with
    | nil => exact fun _ => rfl
    | cons a l ih => exact fun u => (ih _).trans ((setCmdHold_keeps false a u (fun _ q => q) (Keeps.refl _ u)).only .kln (by simp))
  unfold releasePages
  exact ((h2 pages (fun n hn => (h n hn).1) _).trans (h1 pages _)).trans (h3 pages s)

/-! ## Shadows -/

/-- Every key but those of counters and of Stook's registers has the shadow value it had. -/
def ShadowsAlike (s u : State) : Prop :=
  ∀ k, k ≠ Reg.TIL_SPLIT_CNT → (∀ p, k ≠ Reg.KLN_P_DEFER_CNT p) → keyKind k ≠ .stk → rdShadow u k = rdShadow s k

theorem ShadowsAlike.refl (s : State) : ShadowsAlike s s := fun _ _ _ _ => rfl

theorem ShadowsAlike.trans {s t u : State} (h : ShadowsAlike s t) (k : ShadowsAlike t u) : ShadowsAlike s u :=
  fun a x y z => (k a x y z).trans (h a x y z)

theorem ShadowsAlike.foldl {α : Type} {f : State → α → State} (l : List α) (hf : ∀ t, ∀ x ∈ l, ShadowsAlike t (f t x)) (s : State) :
    ShadowsAlike s (l.foldl f s) := by
  induction l generalizing s with
  | nil => exact ShadowsAlike.refl s
  | cons a l ih => exact (hf s a List.mem_cons_self).trans (ih (fun t x hx => hf t x (List.mem_cons_of_mem _ hx)) _)

theorem ShadowsAlike.of_regs {s u : State} (h : u.regs.act = s.regs.act) (k : u.regs.shd = s.regs.shd) : ShadowsAlike s u :=
  fun a _ _ _ => by simp only [rdShadow, rd, h, k]

theorem ShadowsAlike.of_keeps {s u : State} {ps : List Part} (k : Keeps ps s u) (h : ∀ K, Part.reg K ∈ ps → K = .stk) : ShadowsAlike s u :=
  fun a _ _ z => ((k.only (.reg (keyKind a)) fun e => z (h _ e)).1 a rfl).2

theorem ShadowsAlike.inc_cnt {s : State} (k n : Nat) (h : k = Reg.TIL_SPLIT_CNT ∨ ∃ p, k = Reg.KLN_P_DEFER_CNT p) :
    ShadowsAlike s (inc k n s) := by
  intro a x y _
  refine rdShadow_wr_ne _ _ ?_
  rcases h with rfl | ⟨p, rfl⟩
  · exact x
  · exact y p

theorem raiseIrq_shadows (n b : Nat) (s : State) : ShadowsAlike s (raiseIrq n b s) := by
  have hm : ∀ v (u : State), (msixSend v u).regs = u.regs := by
    intro v u
    unfold msixSend
    split <;> rfl
  have h : (raiseIrq n b s).regs = s.regs := by
    unfold raiseIrq raiseBits setPageIrq
    dsimp only
    split
    · exact hm _ _
    · rfl
  exact ShadowsAlike.of_regs (by rw [h]) (by rw [h])

theorem acceptEvent_shadows (code : Nat) (alarm commit : Bool) (ten : Option Nat) (pl : List Byte) (s : State) :
    ShadowsAlike s (acceptEvent code alarm commit ten pl s) :=
  ShadowsAlike.of_keeps (acceptEvent_keeps code alarm commit ten pl s (fun _ q => q) (Keeps.refl _ s)) (by simp)

theorem raised_shadows (n b code : Nat) (ten : Option Nat) (pl : List Byte) (s : State) :
    ShadowsAlike s (raiseIrq n b (event code ten pl s)) :=
  (acceptEvent_shadows _ _ _ _ _ _).trans (raiseIrq_shadows _ _ _)

theorem splitMoved_shadows (n : Nat) (b s : State) : ShadowsAlike s (splitMoved n b s) := by
  unfold splitMoved
  split
  · dsimp only
    split
    · exact ShadowsAlike.refl s
    · refine ShadowsAlike.trans ?_ (raised_shadows _ _ _ _ _ _)
      exact ShadowsAlike.trans (ShadowsAlike.inc_cnt Reg.TIL_SPLIT_CNT 1 (Or.inl rfl)) (ShadowsAlike.of_regs rfl rfl)
  · exact ShadowsAlike.refl s

theorem tfind_onPage {n k : Nat} (t : Tab Word) : tfind (tfilter t (onPage n)) k = if onPage n k then tfind t k else none :=
  tfind_tfilter ..

/-- A page that applies whole leaves every shadow value as it reads. -/
theorem applyPage_shadows {n : Nat} (hn : pageKind n ≠ .iplP) (slot : Nat) (s : State) : ShadowsAlike s (applyPage n slot s) := by
  unfold applyPage commitPage
  extract_lets p p' s1 s2
  split
  · rw [camApplied_id hn]
    refine ShadowsAlike.trans ?_ (ShadowsAlike.of_regs rfl rfl)
    refine ShadowsAlike.trans ?_ (splitMoved_shadows _ _ _)
    refine ShadowsAlike.trans ?_ (acceptEvent_shadows _ _ _ _ _ _)
    refine ShadowsAlike.trans ?_ (raiseIrq_shadows _ _ _)
    intro k _ _ _
    show rdShadow s1 k = rdShadow s k
    simp only [rdShadow, rd, s1, tfind_tfilter, tfind_tmerge]
    cases onPage n k <;> cases tfind s.regs.shd k <;> rfl
  · exact ShadowsAlike.refl s

theorem idleLatch_shadows {n : Nat} (hn : pageKind n ≠ .iplP) (s : State) : ShadowsAlike s (idleLatch n s) := by
  unfold idleLatch
  split
  · exact applyPage_shadows hn _ _
  · exact ShadowsAlike.refl s

theorem deferPage_shadows (n : Nat) (s : State) : ShadowsAlike s (deferPage n s) := by
  unfold deferPage
  split
  · split
    · refine ShadowsAlike.trans ?_ (ShadowsAlike.inc_cnt _ 1 (Or.inr ⟨_, rfl⟩))
      exact ShadowsAlike.trans (ShadowsAlike.of_regs rfl rfl) (raiseIrq_shadows _ _ _)
    · exact ShadowsAlike.refl s
  · exact ShadowsAlike.refl s

theorem notePage_regs (n : Nat) (s : State) : (notePage n s).regs = s.regs := by
  unfold notePage
  dsimp only
  split <;> rfl

theorem setCmdHold_shadows (b : Bool) (n : Nat) (s : State) : ShadowsAlike s (setCmdHold b n s) :=
  ShadowsAlike.of_regs (congrArg Regs.act (notePage_regs n s)) (congrArg Regs.shd (notePage_regs n s))

/-- Releasing pages that follow frame latches leaves every shadow value as it reads. -/
theorem releasePages_shadows {pages : List Nat} (h : ∀ n ∈ pages, pageSrc n ≠ 2 ∧ pageKind n ≠ .iplP) (s : State) :
    ShadowsAlike s (releasePages pages s) := by
  unfold releasePages
  refine ShadowsAlike.trans (ShadowsAlike.foldl pages (fun t n _ => setCmdHold_shadows false n t) s) ?_
  refine ShadowsAlike.trans (ShadowsAlike.foldl pages (fun t n _ => deferPage_shadows n t) _) (ShadowsAlike.foldl _ (fun t n hn => ?_) _)
  rw [if_neg (h n hn).1]
  exact idleLatch_shadows (h n hn).2 t

theorem rdShadow_wrShadow (k : Nat) (v : Word) (s : State) : rdShadow (wrShadow k v s) k = v := by
  simp [rdShadow, wrShadow]

theorem rdShadow_wrShadow_ne {j k : Nat} (v : Word) (s : State) (h : j ≠ k) : rdShadow (wrShadow k v s) j = rdShadow s j := by
  simp only [rdShadow, rd, wrShadow, tfind_tput_ne _ _ h]

theorem rdShadow_notePage (n k : Nat) (s : State) : rdShadow (notePage n s) k = rdShadow s k := by
  simp only [rdShadow, rd, notePage_regs]

theorem rdShadow_cmdShadow (k : Nat) (v : Word) (s : State) : rdShadow (cmdShadow k v s) k = v := rdShadow_wrShadow k v _

theorem rdShadow_cmdShadow_ne {j k : Nat} (v : Word) (s : State) (h : j ≠ k) : rdShadow (cmdShadow k v s) j = rdShadow s j :=
  (rdShadow_wrShadow_ne v _ h).trans (rdShadow_notePage _ _ _)

theorem cmdShadow_still (k : Nat) (v : Word) (s : State) : StillParked s (cmdShadow k v s) :=
  StillParked.of_keeps (cmdShadow_keeps k v s (fun _ q => q) (Keeps.refl _ s)) (by simp)

/-! ## Reading a replaced block -/

theorem memRead_filter (m : List Host.Cell) (p : Nat → Bool) (a : Nat) :
    memRead (m.filter fun c => p c.1) a = if p a then memRead m a else memUnlisted := by
  induction m with
  | nil => simp [memRead]
  | cons e r ih =>
    obtain ⟨k, v⟩ := e
    by_cases hk : p k = true
    · rw [List.filter_cons_of_pos (by simpa using hk)]
      by_cases ha : k = a
      · subst ha
        simp [memRead, hk]
      · simp [memRead, ha, ih]
    · rw [List.filter_cons_of_neg (by simpa using hk), ih]
      by_cases ha : k = a
      · subst ha
        simp [hk]
      · simp [memRead, ha]

theorem memRead_append_ne {x y : List Host.Cell} {a : Nat} (h : ∀ c ∈ x, c.1 ≠ a) : memRead (x ++ y) a = memRead y a := by
  induction x with
  | nil => rfl
  | cons e r ih =>
    rw [List.cons_append, memRead, if_neg (h e List.mem_cons_self)]
    exact ih fun c hc => h c (List.mem_cons_of_mem _ hc)

theorem memRead_append_out {x y : List Host.Cell} {a : Nat} (h : ∀ c ∈ y, c.1 ≠ a) : memRead (x ++ y) a = memRead x a := by
  induction x with
  | nil =>
    have := memRead_append_ne (x := y) (y := []) h
    rw [List.append_nil] at this
    exact this
  | cons e r ih =>
    rw [List.cons_append, memRead, memRead]
    split
    · rfl
    · exact ih

theorem memRead_memBlock (base : Nat) (bs : List Byte) (a : Nat) :
    memRead (memBlock base bs) a = if base ≤ a then bs.getD (a - base) 0 else 0 := by
  induction bs generalizing base with
  | nil => simp [memBlock, memRead, memUnlisted]
  | cons b r ih =>
    have h1 : memRead (memBlock (base + 1) r) a = if base + 1 ≤ a then r.getD (a - (base + 1)) 0 else 0 := ih (base + 1)
    by_cases hb : base = a
    · subst hb
      simp only [memBlock]
      split
      · rename_i h0
        rw [h1, if_neg (by omega)]
        simp [h0, memUnlisted]
      · simp [memRead]
    · have h2 : memRead (memBlock base (b :: r)) a = memRead (memBlock (base + 1) r) a := by
        simp only [memBlock]
        split
        · rfl
        · simp [memRead, hb]
      rw [h2, h1]
      by_cases hl : base + 1 ≤ a
      · rw [if_pos hl, if_pos (by omega), show a - base = a - (base + 1) + 1 by omega]
        rfl
      · rw [if_neg hl, if_neg (by omega)]

/-- A replaced block reads as written, every other byte as before. -/
theorem memRead_memReplace (m : List Host.Cell) (base : Nat) (bs : List Byte) (a : Nat) :
    memRead (memReplace m base bs) a = if base ≤ a ∧ a < base + bs.length then bs.getD (a - base) 0 else memRead m a := by
  unfold memReplace
  by_cases h1 : a < base
  · rw [if_neg (by omega), memRead_append_out, memRead_append_out, memRead_filter m (fun k => decide (k < base)), if_pos (by simpa using h1)]
    · intro c hc
      have := (mem_memBlock hc).1
      omega
    · intro c hc
      have := (List.mem_filter.mp hc).2
      simp only [decide_eq_true_eq] at this
      omega
  · rw [List.append_assoc, memRead_append_ne]
    · by_cases h2 : a < base + bs.length
      · rw [if_pos ⟨by omega, h2⟩, memRead_append_out, memRead_memBlock, if_pos (by omega)]
        intro c hc
        have := (List.mem_filter.mp hc).2
        simp only [decide_eq_true_eq] at this
        omega
      · rw [if_neg (by omega), memRead_append_ne, memRead_filter m (fun k => decide (base + bs.length ≤ k)), if_pos (by simpa using h2)]
        intro c hc
        have := (mem_memBlock hc).2
        omega
    · intro c hc
      have := (List.mem_filter.mp hc).2
      simp only [decide_eq_true_eq] at this
      omega

/-! ## The bar latch -/

theorem applyPage_til {n : Nat} (hs : splitPage n = none) (hn : pageKind n ≠ .iplP) (slot : Nat) (s : State) :
    Part.same s (applyPage n slot s) .til ∧ Part.same s (applyPage n slot s) .memory := by
  have hm : ∀ b u, splitMoved n b u = u := by
    intro b u
    unfold splitMoved
    rw [hs]
  unfold applyPage commitPage
  extract_lets p p' s1 s2
  split
  · rw [camApplied_id hn, hm]
    have k : Keeps [.fw, .msix, .out, .reg .stk, .rings, .stk, .reg (pageKind n)] s (noteLatch n slot (acceptEvent (blockId (pageKind n) * 256 + 1) false true none
      (le 2 n ++ le 2 (p.latchCnt + 1).toNat ++ le 4 slot) s2)) :=
      noteLatch_keeps _ _ _ (by simp) (acceptEvent_keeps _ _ _ _ _ _ (by simp) (raiseIrq_keeps _ _ _ (by simp)
        (putPage_keeps _ _ _ (by simp) (commitPage_regs n _ _ (by simp) (Keeps.refl _ s)))))
    exact ⟨k.only .til (by simp), k.only .memory (by simp)⟩
  · exact ⟨Part.same_refl s _, Part.same_refl s _⟩

theorem barPages_til (slot : Nat) (s : State) : Part.same s (barPages.foldl (fun t n => applyPage n slot t) s) .til ∧
    Part.same s (barPages.foldl (fun t n => applyPage n slot t) s) .memory := by
  have h1 := applyPage_til (n := pgTilC) (by decide) (by decide) slot s
  have h2 := applyPage_til (n := pgKlnC) (by decide) (by decide) slot (applyPage pgTilC slot s)
  have h3 := applyPage_til (n := pgCal) (by decide) (by decide) slot (applyPage pgKlnC slot (applyPage pgTilC slot s))
  exact ⟨Part.same_trans _ (Part.same_trans _ h1.1 h2.1) h3.1, Part.same_trans _ (Part.same_trans _ h1.2 h2.2) h3.2⟩

theorem til_of_same {s u : State} (h : Part.same s u .til) :
    u.til.curves = s.til.curves ∧ u.til.pendCurves = s.til.pendCurves ∧ u.til.pendArrays = s.til.pendArrays := by
  have h1 := congrArg Tiller.curves h
  have h2 := congrArg Tiller.pendCurves h
  have h3 := congrArg Tiller.pendArrays h
  exact ⟨h1, h2, h3⟩

@[simp] theorem ripe_noSlot (s : State) (c : Nat) : ripe s noSlot c = true := by simp [ripe]

theorem barSplits_til (skip : List Nat) (s : State) : Part.same s (barSplits skip s) .til ∧ Part.same s (barSplits skip s) .memory := by
  have k : Keeps [.reg .tilC, .reg .tilE, .msix, .out, .reg .stk, .rings, .stk] s (barSplits skip s) :=
    barSplits_keeps skip s (by decide) (Keeps.refl _ s)
  exact ⟨k.only .til (by decide), k.only .memory (by decide)⟩

/-- The bar's changes at an idle latch: every curve and array that waits applies, unless TIL common is held. -/
theorem barExtras_idle {s : State} (hh : heldAt s pgTilC noSlot = false) (skip : List Nat) :
    (barExtras skip noSlot s).til.curves = s.til.pendCurves.foldl (fun m e => tput m e.2.1 e.2.2) s.til.curves ∧
    (barExtras skip noSlot s).til.pendCurves = [] ∧
    ∀ a, memRead (barExtras skip noSlot s).til.arrays a =
      memRead (s.til.pendArrays.foldl (fun m e => memReplace m (e.2.1 * 131072) e.2.2) s.til.arrays) a := by
  unfold barExtras
  rw [if_neg (by rw [hh]; decide)]
  simp only [ripe_noSlot, Bool.not_true, List.filter_true, List.filter_false]
  refine ⟨?_, ?_, ?_⟩
  · exact (til_of_same (barSplits_til ..).1).1
  · exact (til_of_same (barSplits_til ..).1).2.1
  · exact (barSplits_til ..).2

theorem barExtras_held {s : State} {slot : Nat} (hh : heldAt s pgTilC slot = true) (skip : List Nat) : barExtras skip slot s = s := by
  unfold barExtras
  rw [if_pos hh]

/-- What the curves come to once everything that waits has applied: arming the bar latch leaves it. -/
theorem armBar_curves (s : State) :
    (armBar s).til.pendCurves.foldl (fun m e => tput m e.2.1 e.2.2) (armBar s).til.curves =
      s.til.pendCurves.foldl (fun m e => tput m e.2.1 e.2.2) s.til.curves := by
  unfold armBar
  extract_lets w
  split
  · rfl
  · split
    · have h3 : Part.same s _ .til := (barPages_til noSlot s).1
      generalize barPages.foldl (fun t n => applyPage n noSlot t) s = u at h3
      have h4 : u.til.curves = s.til.curves := (til_of_same h3).1
      have h5 : u.til.pendCurves = s.til.pendCurves := (til_of_same h3).2.1
      cases hh : heldAt u pgTilC noSlot
      · obtain ⟨h1, h2, -⟩ := barExtras_idle hh []
        rw [h1, h2, h4, h5]
        rfl
      · rw [barExtras_held hh, h4, h5]
    · rfl

theorem armBar_live {s : State} (h : ∃ p ∈ planeNums, (plane s p).state ≠ .stopped) :
    (armBar s).til = s.til ∧ (armBar s).kln.barArmed = true := by
  unfold armBar
  extract_lets w
  have hw : w ≠ [] := by
    obtain ⟨p, hp, hs⟩ := h
    intro e
    have : p ∈ w := List.mem_filter.mpr ⟨hp, by simp [Plane.live, hs]⟩
    rw [e] at this
    cases this
  split
  · rename_i ha
    exact ⟨rfl, ha⟩
  · exact ⟨rfl, rfl⟩

/-- Every page has the holds it had. -/
def HoldsAlike (s u : State) : Prop := ∀ m, (getPage u m).hold = (getPage s m).hold ∧ (getPage u m).cmdHold = (getPage s m).cmdHold

theorem HoldsAlike.of_pages {s u : State} (h : u.pages = s.pages) : HoldsAlike s u := fun m => by
  rw [getPage_congr h]
  exact ⟨rfl, rfl⟩

theorem HoldsAlike.trans {s t u : State} (h : HoldsAlike s t) (k : HoldsAlike t u) : HoldsAlike s u :=
  fun m => ⟨(k m).1.trans (h m).1, (k m).2.trans (h m).2⟩

theorem HoldsAlike.put {s : State} {n : Nat} {p : Page} (h1 : p.hold = (getPage s n).hold) (h2 : p.cmdHold = (getPage s n).cmdHold) :
    HoldsAlike s (putPage n p s) := by
  intro m
  by_cases hm : m = n
  · subst hm
    rw [getPage_putPage_self]
    exact ⟨h1, h2⟩
  · rw [getPage_putPage_ne _ _ hm]
    exact ⟨rfl, rfl⟩

theorem raiseIrq_holds (n b : Nat) (s : State) : HoldsAlike s (raiseIrq n b s) := by
  unfold raiseIrq raiseBits setPageIrq
  split
  · exact (HoldsAlike.put (by rfl) (by rfl)).trans (HoldsAlike.of_pages (msixSend_pages _ _))
  · exact HoldsAlike.put rfl rfl

theorem acceptEvent_holds (code : Nat) (alarm commit : Bool) (ten : Option Nat) (pl : List Byte) (s : State) :
    HoldsAlike s (acceptEvent code alarm commit ten pl s) := by
  have hf : ∀ (e : Event) (l : List Nat) (t : State), HoldsAlike t (l.foldl (fun t n => dropEvent e n t) t) := by
    intro e l
    induction l with
    | nil => exact fun t => HoldsAlike.of_pages rfl
    | cons n l ih =>
      intro t
      refine HoldsAlike.trans ?_ (ih _)
      unfold dropEvent
      exact (HoldsAlike.of_pages rfl).trans (raiseIrq_holds _ _ _)
  unfold acceptEvent
  dsimp only
  split
  · exact HoldsAlike.of_pages rfl
  · exact (HoldsAlike.of_pages rfl).trans (hf _ _ _)

theorem splitMoved_holds (n : Nat) (b s : State) : HoldsAlike s (splitMoved n b s) := by
  unfold splitMoved
  split
  · dsimp only
    split
    · exact HoldsAlike.of_pages rfl
    · refine HoldsAlike.trans ?_ (raiseIrq_holds _ _ _)
      refine HoldsAlike.trans ?_ (acceptEvent_holds _ _ _ _ _ _)
      exact HoldsAlike.of_pages rfl
  · exact HoldsAlike.of_pages rfl

/-- The holds of every page through the applying of a page. -/
theorem applyPage_holds (m n slot : Nat) (hn : pageKind n ≠ .iplP) (s : State) :
    (getPage (applyPage n slot s) m).hold = (getPage s m).hold ∧ (getPage (applyPage n slot s) m).cmdHold = (getPage s m).cmdHold := by
  suffices h : HoldsAlike s (applyPage n slot s) from h m
  unfold applyPage commitPage
  extract_lets p p' s1 s2
  split
  · rw [camApplied_id hn]
    refine HoldsAlike.trans ?_ (HoldsAlike.of_pages rfl)
    refine HoldsAlike.trans ?_ (splitMoved_holds _ _ _)
    refine HoldsAlike.trans ?_ (acceptEvent_holds _ _ _ _ _ _)
    refine HoldsAlike.trans ?_ (raiseIrq_holds _ _ _)
    refine HoldsAlike.trans (t := s1) (HoldsAlike.of_pages rfl) (HoldsAlike.put ?_ ?_) <;> rfl
  · exact HoldsAlike.of_pages rfl

theorem armBar_idle {s : State} (h : ∀ p ∈ planeNums, (plane s p).state = .stopped) (ha : s.kln.barArmed = false)
    (hh : heldAt s pgTilC noSlot = false) (a : Nat) :
    memRead (armBar s).til.arrays a =
      memRead (s.til.pendArrays.foldl (fun m e => memReplace m (e.2.1 * 131072) e.2.2) s.til.arrays) a := by
  have hw : planeNums.filter (fun p => (plane s p).live) = [] := by
    refine List.filter_eq_nil_iff.mpr fun p hp => ?_
    simp [Plane.live, h p hp]
  have h0 : heldAt (barPages.foldl (fun t n => applyPage n noSlot t) s) pgTilC noSlot = false := by
    rw [heldAt, if_pos rfl] at hh ⊢
    have e1 := applyPage_holds pgTilC pgTilC noSlot (by decide) s
    have e2 := applyPage_holds pgTilC pgKlnC noSlot (by decide) (applyPage pgTilC noSlot s)
    have e3 := applyPage_holds pgTilC pgCal noSlot (by decide) (applyPage pgKlnC noSlot (applyPage pgTilC noSlot s))
    show ((getPage (applyPage pgCal noSlot (applyPage pgKlnC noSlot (applyPage pgTilC noSlot s))) pgTilC).hold || _) = false
    rw [e3.1, e2.1, e1.1]
    exact (congrArg _ ((e3.2.trans e2.2).trans e1.2)).trans hh
  unfold armBar
  dsimp only
  rw [ha, if_neg (by decide), hw, if_pos rfl]
  obtain ⟨-, -, h3⟩ := barExtras_idle h0 []
  obtain ⟨h4, h5⟩ := barPages_til noSlot s
  generalize barPages.foldl (fun t n => applyPage n noSlot t) s = u at h3 h4 h5
  rw [h3, show u.til.pendArrays = s.til.pendArrays from (til_of_same h4).2.2]
  have hl : ∀ (l : List (Nat × Nat × List Byte)) (m n : List Host.Cell), (∀ a, memRead m a = memRead n a) →
      ∀ a, memRead (l.foldl (fun m e => memReplace m (e.2.1 * 131072) e.2.2) m) a =
        memRead (l.foldl (fun m e => memReplace m (e.2.1 * 131072) e.2.2) n) a := by
    intro l
    induction l with
    | nil => exact fun _ _ h => h
    | cons e l ih => exact fun m n h => ih _ _ fun a => by simp only [memRead_memReplace, h]
  exact hl _ _ _ h5 a

end Sys2Proof.Machine
end

