-- ==== Sys2Proof/Laws/Kiln.lean ====
section
/-! SUPPORT. What the passing of time leaves, and the pieces of Kiln's state after one of them is written. -/

namespace Sys2Proof.Machine
open Sys2Proof

/-! ## Time -/

@[simp] theorem advance_jobs (t : Nat) (s : State) : (advanceTo t s).jobs = s.jobs :=
  (advanceTo_keeps t s (fun _ q => q) (Keeps.refl _ s)).only .jobs (by decide)

@[simp] theorem advance_thr (t : Nat) (s : State) : (advanceTo t s).thr = s.thr :=
  (advanceTo_keeps t s (fun _ q => q) (Keeps.refl _ s)).only .thr (by decide)

@[simp] theorem advance_mil (t : Nat) (s : State) : (advanceTo t s).mil = s.mil :=
  (advanceTo_keeps t s (fun _ q => q) (Keeps.refl _ s)).only .mil (by decide)

@[simp] theorem advance_glz (t : Nat) (s : State) : (advanceTo t s).glz = s.glz :=
  (advanceTo_keeps t s (fun _ q => q) (Keeps.refl _ s)).only .glz (by decide)

@[simp] theorem advance_kln (t : Nat) (s : State) : (advanceTo t s).kln = s.kln :=
  (advanceTo_keeps t s (fun _ q => q) (Keeps.refl _ s)).only .kln (by decide)

@[simp] theorem advance_ports (t : Nat) (s : State) : (advanceTo t s).ports = s.ports :=
  (advanceTo_keeps t s (fun _ q => q) (Keeps.refl _ s)).only .ports (by decide)

@[simp] theorem advance_pif (t : Nat) (s : State) : (advanceTo t s).pif = s.pif :=
  (advanceTo_keeps t s (fun _ q => q) (Keeps.refl _ s)).only .pif (by decide)

@[simp] theorem advance_mot (t : Nat) (s : State) : (advanceTo t s).mot = s.mot :=
  (advanceTo_keeps t s (fun _ q => q) (Keeps.refl _ s)).only .mot (by decide)

@[simp] theorem advance_pwr (t : Nat) (s : State) : (advanceTo t s).pwr = s.pwr :=
  (advanceTo_keeps t s (fun _ q => q) (Keeps.refl _ s)).only .pwr (by decide)

@[simp] theorem advance_crk (t : Nat) (s : State) : (advanceTo t s).crk = s.crk :=
  (advanceTo_keeps t s (fun _ q => q) (Keeps.refl _ s)).only .crk (by decide)

@[simp] theorem advance_tly (t : Nat) (s : State) : (advanceTo t s).tly = s.tly :=
  (advanceTo_keeps t s (fun _ q => q) (Keeps.refl _ s)).only .tly (by decide)

@[simp] theorem advance_trm (t : Nat) (s : State) : (advanceTo t s).trm = s.trm :=
  (advanceTo_keeps t s (fun _ q => q) (Keeps.refl _ s)).only .trm (by decide)

@[simp] theorem advance_clk (t : Nat) (s : State) : (advanceTo t s).clk = s.clk :=
  (advanceTo_keeps t s (fun _ q => q) (Keeps.refl _ s)).only .clk (by decide)

@[simp] theorem advance_thm (t : Nat) (s : State) : (advanceTo t s).thm = s.thm :=
  (advanceTo_keeps t s (fun _ q => q) (Keeps.refl _ s)).only .thm (by decide)

@[simp] theorem advance_fans (t : Nat) (s : State) : (advanceTo t s).fans = s.fans :=
  (advanceTo_keeps t s (fun _ q => q) (Keeps.refl _ s)).only .fans (by decide)

@[simp] theorem advance_ipl (t : Nat) (s : State) : (advanceTo t s).ipl = s.ipl :=
  (advanceTo_keeps t s (fun _ q => q) (Keeps.refl _ s)).only .ipl (by decide)

@[simp] theorem advance_win (t : Nat) (s : State) : (advanceTo t s).win = s.win :=
  (advanceTo_keeps t s (fun _ q => q) (Keeps.refl _ s)).only .win (by decide)

@[simp] theorem advance_gln (t : Nat) (s : State) : (advanceTo t s).gln = s.gln :=
  (advanceTo_keeps t s (fun _ q => q) (Keeps.refl _ s)).only .gln (by decide)

@[simp] theorem advance_cal (t : Nat) (s : State) : (advanceTo t s).cal = s.cal :=
  (advanceTo_keeps t s (fun _ q => q) (Keeps.refl _ s)).only .cal (by decide)

@[simp] theorem advance_fw (t : Nat) (s : State) : (advanceTo t s).fw = s.fw :=
  (advanceTo_keeps t s (fun _ q => q) (Keeps.refl _ s)).only .fw (by decide)

@[simp] theorem advance_free (t : Nat) (s : State) : (advanceTo t s).free = s.free :=
  (advanceTo_keeps t s (fun _ q => q) (Keeps.refl _ s)).only .free (by decide)

@[simp] theorem advance_entries (t : Nat) (s : State) : (advanceTo t s).til.entries = s.til.entries ∧ (advanceTo t s).til.lastOf = s.til.lastOf :=
  (advanceTo_keeps t s (fun _ q => q) (Keeps.refl _ s)).only .entries (by decide)

theorem advance_rd (t : Nat) (s : State) {k : Nat} (hk : keyKind k ≠ .tim ∧ keyKind k ≠ .stk) : rd (advanceTo t s) k = rd s k :=
  (((advanceTo_keeps t s (fun _ q => q) (Keeps.refl _ s)).only (.reg (keyKind k)) (by simpa [and_comm] using hk)).1 k rfl).1

theorem advance_page (t : Nat) (s : State) {n : Nat} (hn : pageKind n ≠ .tim ∧ pageKind n ≠ .stk) : getPage (advanceTo t s) n = getPage s n :=
  ((advanceTo_keeps t s (fun _ q => q) (Keeps.refl _ s)).only (.reg (pageKind n)) (by simpa [and_comm] using hn)).2 n rfl

/-- Where time has passed an instant already, nothing moves; where it has not, that instant is reached. -/
theorem now_advance {t : Nat} {s : State} (h : t < 2 ^ 64) : now (advanceTo t s) = max (now s) t := by
  unfold advanceTo
  split
  · rename_i hle
    exact (Nat.max_eq_left hle).symm
  · rename_i hle
    show (BitVec.ofNat 64 t).toNat = _
    rw [BitVec.toNat_ofNat, Nat.mod_eq_of_lt h, Nat.max_eq_right (by omega)]

@[simp] theorem plane_advance (t : Nat) (s : State) (p : Nat) : plane (advanceTo t s) p = plane s p := plane_congr (advance_kln t s) p
@[simp] theorem row_advance (t : Nat) (s : State) (h r : Nat) : row (advanceTo t s) h r = row s h r := by
  simp [row, khead]
@[simp] theorem port_advance (t : Nat) (s : State) (h : Nat) : port (advanceTo t s) h = port s h := by simp [port]
@[simp] theorem channel_advance (t : Nat) (s : State) (k : Nat) : channel (advanceTo t s) k = channel s k := by simp [channel]
@[simp] theorem trip_advance (t : Nat) (s : State) (i : Nat) : trip (advanceTo t s) i = trip s i := by simp [trip]

/-! ## Counters -/

theorem rn_wn_self (k v : Nat) (s : State) : rn (wn k v s) k = v % 2 ^ 32 := by
  rw [rn, wn, rd_wr_self, BitVec.toNat_ofNat]

theorem rn_wn_ne {j k : Nat} (v : Nat) (s : State) (h : j ≠ k) : rn (wn k v s) j = rn s j := by
  rw [rn, wn, rd_wr_ne _ _ h, rn]

theorem rn_inc_self (k n : Nat) (s : State) : rn (inc k n s) k = min 0xFFFFFFFF (rn s k + n) := by
  rw [inc, rn_wn_self, Nat.mod_eq_of_lt]
  have := Nat.min_le_left 0xFFFFFFFF (rn s k + n)
  omega

theorem rn_inc_ne {j k : Nat} (n : Nat) (s : State) (h : j ≠ k) : rn (inc k n s) j = rn s j := rn_wn_ne _ s h

theorem rn_congr {s t : State} {k : Nat} (h : rd t k = rd s k) : rn t k = rn s k := by rw [rn, rn, h]

/-- A register reads as before what does not list its kind of page. -/
theorem Keeps.rd {ps : List Part} {s t : State} (h : Keeps ps s t) {k : Nat} (hk : Part.reg (keyKind k) ∉ ps) :
    Machine.rd t k = Machine.rd s k := ((h.only _ hk).1 k rfl).1

theorem Keeps.rn {ps : List Part} {s t : State} (h : Keeps ps s t) {k : Nat} (hk : Part.reg (keyKind k) ∉ ps) :
    Machine.rn t k = Machine.rn s k := rn_congr (h.rd hk)

/-- A command completes from a state reached by what lists neither firmware, time nor configuration, and keeps rings alike. -/
theorem complete_kept {d : Desc} {s u : State} {ps : List Part} (status result : Nat) (hal : RingsAlike (taken d s) u)
    (hk : Keeps ps (taken d s) u) (hps : Part.fw ∉ ps ∧ Part.clock ∉ ps ∧ Part.hif ∉ ps) :
    Completed d status result s (complete (hdrOf d s) status result u) :=
  complete_completed_alike status result hal (by rw [show u.fw = (taken d s).fw from hk.only .fw hps.1]; rfl)
    ((stamp_keeps hk hps.2.1).trans rfl) ((canIssue_keeps hk hps.2.2).trans rfl)

theorem finish_kept {h : Hdr} {s u : State} {ps : List Part} (status result : Nat) (hal : RingsAlike s u)
    (hk : Keeps ps s u) (hps : Part.fw ∉ ps ∧ Part.clock ∉ ps ∧ Part.hif ∉ ps) :
    Finished h status result s (complete h status result u) :=
  complete_finished_alike status result hal (by rw [show u.fw = s.fw from hk.only .fw hps.1]) (stamp_keeps hk hps.2.1)
    (canIssue_keeps hk hps.2.2)

/-! ## Kiln's tables -/

@[simp] theorem khead_updHead_self (h : Nat) (f : KHead → KHead) (s : State) : khead (updHead h f s) h = f (khead s h) := by
  simp [khead, updHead]

theorem khead_updHead_ne {g h : Nat} (f : KHead → KHead) (s : State) (hg : g ≠ h) : khead (updHead h f s) g = khead s g := by
  simp [khead, updHead, tget_tput_ne _ _ _ hg]

@[simp] theorem row_updRow_self (h r : Nat) (f : Row → Row) (s : State) : row (updRow h r f s) h r = f (row s h r) := by
  simp [row, updRow]

theorem row_updRow_ne {g h q r : Nat} (f : Row → Row) (s : State) (hg : ¬(g = h ∧ q = r)) : row (updRow h r f s) g q = row s g q := by
  unfold row updRow
  by_cases hh : g = h
  · subst hh
    rw [khead_updHead_self, tget_tput_ne _ _ _ fun e => hg ⟨rfl, e⟩]
  · rw [khead_updHead_ne _ _ hh]

theorem row_congr {s t : State} (h : t.kln = s.kln) (a b : Nat) : row t a b = row s a b := by rw [row, row, khead, khead, h]

@[simp] theorem channel_updChannel_self (k : Nat) (f : Channel → Channel) (s : State) : channel (updChannel k f s) k = f (channel s k) := by
  simp [channel, updChannel]

theorem channel_updChannel_ne {j k : Nat} (f : Channel → Channel) (s : State) (h : j ≠ k) : channel (updChannel k f s) j = channel s j := by
  simp [channel, updChannel, tget_tput_ne _ _ _ h]

@[simp] theorem trip_updTrip_self (i : Nat) (f : Trip → Trip) (s : State) : trip (updTrip i f s) i = f (trip s i) := by
  simp [trip, updTrip]

theorem trip_updTrip_ne {i j : Nat} (f : Trip → Trip) (s : State) (h : j ≠ i) : trip (updTrip i f s) j = trip s j := by
  simp [trip, updTrip, tget_tput_ne _ _ _ h]

@[simp] theorem port_updPort_self (h : Nat) (f : Port → Port) (s : State) : port (updPort h f s) h = f (port s h) := by
  simp [port, updPort, putPort]

theorem port_updPort_ne {g h : Nat} (f : Port → Port) (s : State) (hg : g ≠ h) : port (updPort h f s) g = port s g := by
  simp [port, updPort, putPort, tget_tput_ne _ _ _ hg]

theorem port_congr {s t : State} (h : t.ports = s.ports) (a : Nat) : port t a = port s a := by rw [port, port, h]

@[simp] theorem plane_complete (h : Hdr) (status r : Nat) (s : State) (p : Nat) : plane (complete h status r s) p = plane s p :=
  plane_congr (complete_kln h status r s) p

@[simp] theorem plane_ok (h : Hdr) (r : Nat) (s : State) (p : Nat) : plane (ok h r s) p = plane s p := plane_complete h 0 r s p

theorem updRow_alike (h r : Nat) (f : Row → Row) (s : State) : RingsAlike s (updRow h r f s) := RingsAlike.of_rings rfl
theorem updHead_alike (h : Nat) (f : KHead → KHead) (s : State) : RingsAlike s (updHead h f s) := RingsAlike.of_rings rfl
theorem updPlane_alike (p : Nat) (f : Plane → Plane) (s : State) : RingsAlike s (updPlane p f s) := RingsAlike.of_rings rfl
theorem updPort_alike (h : Nat) (f : Port → Port) (s : State) : RingsAlike s (updPort h f s) := RingsAlike.of_rings rfl

/-- A plane that changes state: its state is the new one, nothing else of a plane changes, and the rings stay alike. -/
theorem setPlaneState_plane (p : Nat) (st : PlaneState) (s : State) (q : Nat) :
    plane (setPlaneState p st s) q = if q = p then { plane s p with state := st } else plane s q := by
  unfold setPlaneState
  dsimp only
  split
  · rename_i h
    by_cases hq : q = p
    · subst hq
      rw [if_pos rfl, ← h]
    · rw [if_neg hq]
  · rw [plane_congr ((raised_keeps _).only .kln (by simp))]
    by_cases hq : q = p
    · subst hq
      rw [if_pos rfl, plane_updPlane_self]
    · rw [if_neg hq, plane_updPlane_ne _ _ hq]

theorem setPlaneState_alike (p : Nat) (st : PlaneState) (s : State) : RingsAlike s (setPlaneState p st s) := by
  unfold setPlaneState
  dsimp only
  split
  · exact RingsAlike.refl s
  · have h : RingsAlike s (updPlane p (fun g => { g with state := st }) s) := RingsAlike.of_rings rfl
    exact h.trans (raised_alike _)

end Sys2Proof.Machine
end

