-- ==== Sys2Proof/Laws/Fields.lean ====
section
/-! SUPPORT. Fields of registers: what writing one leaves of itself and of the others; counters of two words. -/

namespace Sys2Proof.Machine
open Sys2Proof

/-- A number with a field replaced, bit by bit. -/
theorem testBit_putBits (x lo w v i : Nat) (hv : v < 2 ^ w) :
    (x - x / 2 ^ lo % 2 ^ w * 2 ^ lo + v * 2 ^ lo).testBit i =
      if i < lo then x.testBit i else if i < lo + w then v.testBit (i - lo) else x.testBit i := by
  have e0 : x = 2 ^ lo * (x / 2 ^ lo) + x % 2 ^ lo := (Nat.div_add_mod x (2 ^ lo)).symm
  have e1 : x / 2 ^ lo = 2 ^ w * (x / 2 ^ lo / 2 ^ w) + x / 2 ^ lo % 2 ^ w := (Nat.div_add_mod _ _).symm
  generalize hq : x / 2 ^ lo = q at *
  generalize hA : q / 2 ^ w = A at *
  generalize hf : q % 2 ^ w = f at *
  generalize hb : x % 2 ^ lo = b at *
  have hblt : b < 2 ^ lo := hb ▸ Nat.mod_lt _ (Nat.two_pow_pos lo)
  have hflt : f < 2 ^ w := hf ▸ Nat.mod_lt _ (Nat.two_pow_pos w)
  have e2 : x - f * 2 ^ lo + v * 2 ^ lo = 2 ^ lo * (2 ^ w * A + v) + b := by
    rw [e0, e1, Nat.mul_add, Nat.mul_add, Nat.mul_comm f, Nat.mul_comm v]
    omega
  rw [e2, Nat.testBit_two_pow_mul_add _ hblt, Nat.testBit_two_pow_mul_add _ hv, e0, e1, Nat.testBit_two_pow_mul_add _ hblt,
    Nat.testBit_two_pow_mul_add _ hflt]
  by_cases h1 : i < lo
  · simp [h1]
  · by_cases h2 : i < lo + w
    · have : i - lo < w := by omega
      simp [h1, h2, this]
    · have : ¬ i - lo < w := by omega
      simp [h1, h2, this]

/-- Bits [hi:lo] of a number, bit by bit. -/
theorem testBit_bits (hi lo v i : Nat) : (bits hi lo v).testBit i = (decide (i < hi - lo + 1) && v.testBit (lo + i)) := by
  rw [bits, Nat.testBit_mod_two_pow, Nat.testBit_div_two_pow, Nat.add_comm i lo]

theorem bits_lt (hi lo v : Nat) : bits hi lo v < 2 ^ (hi - lo + 1) := Nat.mod_lt _ (Nat.two_pow_pos _)

theorem testBit_rn_ge (s : State) (k : Nat) {i : Nat} (h : 32 ≤ i) : (rn s k).testBit i = false := by
  rw [rn]
  exact Nat.testBit_lt_two_pow ((rd s k).isLt.trans_le (Nat.pow_le_pow_right (by decide) h))

/-- A register after a write of one of its fields. -/
theorem testBit_wf (k : Nat) {hi lo : Nat} (v : Nat) (s : State) (h : lo ≤ hi ∧ hi < 32) (i : Nat) :
    (rn (wf k hi lo v s) k).testBit i =
      if i < lo then (rn s k).testBit i else if i < hi + 1 then (v % 2 ^ (hi - lo + 1)).testBit (i - lo) else (rn s k).testBit i := by
  rw [wf, rn_wn_self, Nat.testBit_mod_two_pow, rf, bits, testBit_putBits _ _ _ _ _ (Nat.mod_lt _ (Nat.two_pow_pos _)),
    show lo + (hi - lo + 1) = hi + 1 by omega]
  by_cases h1 : i < 32
  · simp [h1]
  · have h2 : ¬ i < lo := by omega
    have h3 : ¬ i < hi + 1 := by omega
    simp [h1, h2, h3, testBit_rn_ge s k (Nat.le_of_not_lt h1)]

theorem rn_wf_ne {j k : Nat} (hi lo v : Nat) (s : State) (h : j ≠ k) : rn (wf k hi lo v s) j = rn s j := rn_wn_ne _ s h

theorem rd_wf_ne {j k : Nat} (hi lo v : Nat) (s : State) (h : j ≠ k) : rd (wf k hi lo v s) j = rd s j := rd_wr_ne _ _ h

theorem rf_wf_self (k : Nat) {hi lo : Nat} (v : Nat) (s : State) (h : lo ≤ hi ∧ hi < 32) :
    rf (wf k hi lo v s) k hi lo = v % 2 ^ (hi - lo + 1) := by
  apply Nat.eq_of_testBit_eq
  intro i
  rw [rf, testBit_bits, testBit_wf k v s h, Nat.testBit_mod_two_pow]
  by_cases h1 : i < hi - lo + 1
  · have h2 : ¬ lo + i < lo := by omega
    have h3 : lo + i < hi + 1 := by omega
    simp [h1, h2, h3]
  · simp [h1]

theorem rf_wf_other (k : Nat) {hi lo a b : Nat} (v : Nat) (s : State) (h : lo ≤ hi ∧ hi < 32) (hd : a < lo ∨ hi < b) (hab : b ≤ a) :
    rf (wf k hi lo v s) k a b = rf s k a b := by
  apply Nat.eq_of_testBit_eq
  intro i
  rw [rf, rf, testBit_bits, testBit_bits, testBit_wf k v s h]
  by_cases h1 : i < a - b + 1
  · rcases hd with hd | hd
    · rw [if_pos (by omega)]
    · rw [if_neg (by omega), if_neg (by omega)]
  · simp [h1]

theorem rf_wf_ne {j k : Nat} (hi lo v a b : Nat) (s : State) (h : j ≠ k) : rf (wf k hi lo v s) j a b = rf s j a b := by
  rw [rf, rn_wf_ne _ _ _ _ h, rf]

theorem rbit_eq (s : State) (k n : Nat) : rbit s k n = (rn s k).testBit n := by
  rw [rbit, Nat.testBit_eq_decide_div_mod_eq]

theorem rbit_wf_self (k n v : Nat) (s : State) (h : n < 32) : rbit (wf k n n v s) k n = decide (v % 2 = 1) := by
  rw [rbit_eq, testBit_wf k v s ⟨Nat.le_refl n, h⟩, if_neg (Nat.lt_irrefl n), if_pos (Nat.lt_succ_self n), Nat.sub_self,
    Nat.testBit_zero, Nat.zero_add, Nat.pow_one, Nat.mod_mod]

theorem rbit_wf_other (k : Nat) {hi lo n : Nat} (v : Nat) (s : State) (h : lo ≤ hi ∧ hi < 32) (hn : n < lo ∨ hi < n) :
    rbit (wf k hi lo v s) k n = rbit s k n := by
  rw [rbit_eq, rbit_eq, testBit_wf k v s h]
  rcases hn with hn | hn
  · rw [if_pos hn]
  · rw [if_neg (by omega), if_neg (by omega)]

theorem rbit_wf_ne {j k : Nat} (hi lo v n : Nat) (s : State) (h : j ≠ k) : rbit (wf k hi lo v s) j n = rbit s j n := by
  rw [rbit, rn_wf_ne _ _ _ _ h, rbit]

theorem rbit_congr {s t : State} {k : Nat} (h : rd t k = rd s k) (n : Nat) : rbit t k n = rbit s k n := by
  rw [rbit, rn_congr h, rbit]

theorem rf_congr {s t : State} {k : Nat} (h : rd t k = rd s k) (a b : Nat) : rf t k a b = rf s k a b := by
  rw [rf, rn_congr h, rf]

theorem rn_wn64_lo (k v : Nat) (s : State) : rn (wn64 k v s) k = v % 2 ^ 32 := by
  rw [wn64, rn_wn_ne _ _ (by omega), rn_wn_self]

theorem rn_wn64_hi (k v : Nat) (s : State) : rn (wn64 k v s) (k + 4) = v / 2 ^ 32 % 2 ^ 32 := by
  rw [wn64, rn_wn_self]

theorem rn64_wn64 (k v : Nat) (s : State) (h : v < 2 ^ 64) : rn64 (wn64 k v s) k = v := by
  rw [rn64, rn_wn64_lo, rn_wn64_hi, Nat.mod_eq_of_lt (show v / 2 ^ 32 < 2 ^ 32 by omega), Nat.add_comm]
  exact Nat.div_add_mod _ _

theorem rn_wn64_ne {j k : Nat} (v : Nat) (s : State) (h : j ≠ k) (h4 : j ≠ k + 4) : rn (wn64 k v s) j = rn s j := by
  rw [wn64, rn_wn_ne _ _ h4, rn_wn_ne _ _ h]

theorem rd_wn64_ne {j k : Nat} (v : Nat) (s : State) (h : j ≠ k) (h4 : j ≠ k + 4) : rd (wn64 k v s) j = rd s j := by
  rw [wn64, wn, wn, rd_wr_ne _ _ h4, rd_wr_ne _ _ h]

end Sys2Proof.Machine
end

