-- ==== Sys2Proof/Laws/Glaze.lean ====
section
/-! SUPPORT. What Glaze's shared operations do to staging and to the pool. -/

namespace Sys2Proof.Machine
open Sys2Proof

/-- A staged line stands in the staging of every head of its plane in which a row still reads it. -/
theorem stageLine_staged (x : Copy) (p pass y : Nat) (px : List Nat) (s : State) :
    ∀ d ∈ planeHeads s p, stageRows s x p pass y d ≠ [] →
      { copy := x.seq, pass, line := y, px, rows := stageRows s x p pass y d } ∈ tget (stageLine x p pass y px s).glz.staging [] d.head := by
  let en : HeadDecl → Staged := fun d => { copy := x.seq, pass, line := y, px, rows := stageRows s x p pass y d }
  have hst : ∀ (l : List HeadDecl) (a b : State),
      b = l.foldl (fun u d => if stageRows s x p pass y d = [] then u else { u with glz := { u.glz with
        staging := tput u.glz.staging d.head (tget u.glz.staging [] d.head ++ [en d]) } }) a →
      (∀ h e, e ∈ tget a.glz.staging [] h → e ∈ tget b.glz.staging [] h) ∧
      ∀ d ∈ l, stageRows s x p pass y d ≠ [] → en d ∈ tget b.glz.staging [] d.head := by
    intro l
    induction l with
    | nil =>
      rintro a b rfl
      exact ⟨fun _ _ h => h, fun d hd => by cases hd⟩
    | cons z l ih =>
      intro a b hb
      rw [List.foldl_cons] at hb
      have hi := ih _ b hb
      by_cases hz0 : stageRows s x p pass y z = []
      · rw [if_pos hz0] at hi
        refine ⟨hi.1, fun d hd hd0 => ?_⟩
        rcases List.mem_cons.mp hd with rfl | hd
        · exact absurd hz0 hd0
        · exact hi.2 d hd hd0
      · rw [if_neg hz0] at hi
        have hm : ∀ h e, e ∈ tget a.glz.staging [] h →
            e ∈ tget (tput a.glz.staging z.head (tget a.glz.staging [] z.head ++ [en z])) [] h := by
          intro h e he
          by_cases hz : h = z.head
          · subst hz
            rw [tget_tput_self]
            exact List.mem_append_left _ he
          · rw [tget_tput_ne _ _ _ hz]
            exact he
        refine ⟨fun h e he => hi.1 h e (hm h e he), fun d hd hd0 => ?_⟩
        rcases List.mem_cons.mp hd with rfl | hd
        · refine hi.1 _ _ ?_
          show en d ∈ tget (tput _ _ _) _ _
          rw [tget_tput_self]
          exact List.mem_append_right _ (List.mem_singleton.mpr rfl)
        · exact hi.2 d hd hd0
  exact (hst (planeHeads s p) s _ rfl).2

theorem lateDone_staging (x : Copy) (s : State) (hl : x.seq ∉ s.glz.late) : (lateDone x s).glz.staging = s.glz.staging := by
  unfold lateDone
  rw [if_neg fun h => hl h.1]

/-- What follows a frame line leaves the staging, but for a copy past FIRED that leaves Glaze (R196). -/
theorem glazeNext_staging (x : Copy) (p y : Nat) (s : State) (hl : x.seq ∉ s.glz.late) :
    (glazeNext x p y s).glz.staging = s.glz.staging := by
  unfold glazeNext
  dsimp only
  split
  · rfl
  · split
    · rfl
    · exact lateDone_staging x _ hl

theorem tookLines_pool (x : Copy) (p pass y0 n : Nat) (s : State) :
    (tookLines x p pass y0 n s).glz.pool = s.glz.pool ∧ (tookLines x p pass y0 n s).glz.bands = s.glz.bands := by
  unfold tookLines
  repeat' split
  all_goals exact ⟨rfl, rfl⟩

/-- Noting placements leaves the pool and the bands. -/
theorem notePlaced_pool (x : Copy) (p y0 n : Nat) (s : State) :
    (notePlaced x p y0 n s).glz.pool = s.glz.pool ∧ (notePlaced x p y0 n s).glz.bands = s.glz.bands := by
  unfold notePlaced
  generalize (planePlacements s x p).filter _ = l
  induction l generalizing s with
  | nil => exact ⟨rfl, rfl⟩
  | cons a l ih =>
    rw [List.foldl_cons]
    refine ⟨(ih _).1.trans ?_, (ih _).2.trans ?_⟩
    all_goals
      dsimp only
      repeat' split
      all_goals rfl

/-- The lines of a band that enter the pool. -/
theorem fillBand_pool (x : Copy) (p b : Nat) (s : State) :
    (fillBand x p b s).glz.bands = s.glz.bands ∧
    (fillBand x p b s).glz.pool = s.glz.pool ++
      (compose s x p (glazeAt s x p).1 (b * bandLines s) (min x.page0.height (b * bandLines s + bandLines s) -
        b * bandLines s)).zipIdx.map fun q => { copy := x.seq, plane := p, line := b * bandLines s + q.2, px := q.1 } := by
  unfold fillBand
  dsimp only
  refine ⟨(notePlaced_pool ..).2.trans (tookLines_pool ..).2, (notePlaced_pool ..).1.trans (tookLines_pool ..).1⟩

end Sys2Proof.Machine
end

