-- ==== Sys2Proof/Laws/Jobs.lean ====
section
/-! SUPPORT. What sealing and voiding copies leaves of rings, tenants and other copies. -/

namespace Sys2Proof.Machine
open Sys2Proof

theorem ring_appendReceipt_field {α : Type} (g : Ring → α) (h : ∀ (r : Ring) (x : Gap), g { r with gap := x } = g r) (t : Nat)
    (slot : Bool) (body : Nat → List Byte) (m : Nat) (s : State) :
    g (ring (appendReceipt t slot body s) m) = g (ring s m) := by
  have hb : ∀ u, ring (closeBatch t u) m = ring u m := fun u =>
    ring_congr ((closeBatch_keeps t u (fun _ q => q) (Keeps.refl _ u)).only .rings (by decide)) m
  unfold appendReceipt
  extract_lets x first seq s1 s2
  have h1 : g (ring s1 m) = g (ring s m) := by
    unfold s1
    split
    · split
      · exact ring_acceptEvent_field g h _ _ _ _ _ _ _
      · rfl
    · rfl
  split
  · rw [hb]
    exact h1
  · exact h1

/-! ## Sealing and voiding a copy -/

theorem ring_sealCopy_field {α : Type} (g : Ring → α) (h : ∀ (r : Ring) (x : Gap), g { r with gap := x } = g r) (c m : Nat)
    (s : State) : g (ring (sealCopy c s) m) = g (ring s m) := by
  have hb : ∀ t u, ring (closeBatch t u) m = ring u m := fun t u =>
    ring_congr ((closeBatch_keeps t u (fun _ q => q) (Keeps.refl _ u)).only .rings (by decide)) m
  unfold sealCopy
  split
  · rename_i x hx
    dsimp only
    split
    · rfl
    · generalize receiptRecord _ _ _ _ _ _ _ _ _ _ _ _ _ _ _ _ _ = body
      generalize hs2 : (if decide (x.state = .voided) = true then
        updCopy c (fun y => { y with state := .sealed, receiptSlot := false }) s else _) = s2
      have h2 : s2.hif = s.hif := by
        rw [← hs2]
        split <;> rfl
      have h3 := ring_appendReceipt_field g h x.tenant true body m s2
      generalize appendReceipt x.tenant true body s2 = s3 at h3
      have h4 : g (ring s3 m) = g (ring s m) := h3.trans (congrArg g (ring_congr (by rw [h2]) m))
      split
      · exact h4
      · split
        · exact h4
        · rw [hb]
          exact h4
  · rfl

theorem ring_voidCopy_field {α : Type} (g : Ring → α) (h : ∀ (r : Ring) (x : Gap), g { r with gap := x } = g r) (c : Nat)
    (corrupt : Bool) (m : Nat) (s : State) : g (ring (voidCopy c corrupt s) m) = g (ring s m) := by
  have hv : ∀ u, g (ring (sealVoid c u) m) = g (ring u m) := by
    intro u
    unfold sealVoid
    split
    · split
      · exact (ring_sealCopy_field g h c m _).trans rfl
      · rfl
    · rfl
  unfold voidCopy
  split
  · split
    · exact (hv _).trans rfl
    · rfl
  · rfl

/-- Two states hold the same tenants, and the same first copy of every number but one. -/
structure CopyOnly (c : Nat) (s t : State) : Prop where
  tenants : t.jobs.tenants = s.jobs.tenants
  other : ∀ b, b ≠ c → findCopy t b = findCopy s b

theorem CopyOnly.refl (c : Nat) (s : State) : CopyOnly c s s := ⟨rfl, fun _ _ => rfl⟩

theorem CopyOnly.trans {c : Nat} {s t u : State} (h : CopyOnly c s t) (k : CopyOnly c t u) : CopyOnly c s u :=
  ⟨k.tenants.trans h.tenants, fun b hb => (k.other b hb).trans (h.other b hb)⟩

theorem CopyOnly.of_jobs {c : Nat} {s t : State} (h : t.jobs = s.jobs) : CopyOnly c s t :=
  ⟨by rw [h], fun b _ => by rw [findCopy, findCopy, h]⟩

theorem find_map_seq {l : List Copy} (b c : Nat) (f : Copy → Copy) (hf : ∀ x, (f x).seq = x.seq) (hb : b ≠ c) :
    (l.map fun x => if x.seq = c then f x else x).find? (fun x => decide (x.seq = b)) = l.find? fun x => decide (x.seq = b) := by
  induction l with
  | nil => rfl
  | cons x l ih =>
    rw [List.map_cons]
    by_cases hx : x.seq = c
    · have h1 : ¬ (f x).seq = b := by rw [hf, hx]; exact Ne.symm hb
      have h2 : ¬ x.seq = b := by rw [hx]; exact Ne.symm hb
      rw [if_pos hx, List.find?_cons_of_neg (by simpa using h1), List.find?_cons_of_neg (by simpa using h2)]
      exact ih
    · rw [if_neg hx]
      by_cases h2 : x.seq = b
      · rw [List.find?_cons_of_pos (by simpa using h2), List.find?_cons_of_pos (by simpa using h2)]
      · rw [List.find?_cons_of_neg (by simpa using h2), List.find?_cons_of_neg (by simpa using h2)]
        exact ih

theorem find_map_self {l : List Copy} (c : Nat) (f : Copy → Copy) (hf : ∀ x, (f x).seq = x.seq) :
    (l.map fun x => if x.seq = c then f x else x).find? (fun x => decide (x.seq = c)) =
      (l.find? fun x => decide (x.seq = c)).map f := by
  induction l with
  | nil => rfl
  | cons x l ih =>
    rw [List.map_cons]
    by_cases hx : x.seq = c
    · rw [if_pos hx, List.find?_cons_of_pos (by simpa [hf] using hx), List.find?_cons_of_pos (by simpa using hx)]
      rfl
    · rw [if_neg hx, List.find?_cons_of_neg (by simpa using hx), List.find?_cons_of_neg (by simpa using hx)]
      exact ih

theorem find_filter_seq {l : List Copy} {b c : Nat} (hb : b ≠ c) :
    (l.filter fun x => decide (x.seq ≠ c)).find? (fun x => decide (x.seq = b)) = l.find? fun x => decide (x.seq = b) := by
  induction l with
  | nil => rfl
  | cons x l ih =>
    by_cases hx : x.seq = c
    · have h2 : ¬ x.seq = b := by rw [hx]; exact Ne.symm hb
      rw [List.filter_cons_of_neg (by simpa using hx), List.find?_cons_of_neg (by simpa using h2)]
      exact ih
    · rw [List.filter_cons_of_pos (by simpa using hx)]
      by_cases h2 : x.seq = b
      · rw [List.find?_cons_of_pos (by simpa using h2), List.find?_cons_of_pos (by simpa using h2)]
      · rw [List.find?_cons_of_neg (by simpa using h2), List.find?_cons_of_neg (by simpa using h2)]
        exact ih

theorem updCopy_only (c : Nat) (f : Copy → Copy) (hf : ∀ x, (f x).seq = x.seq) (s : State) : CopyOnly c s (updCopy c f s) :=
  ⟨rfl, fun b hb => find_map_seq b c f hf hb⟩

theorem findCopy_updCopy (c : Nat) (f : Copy → Copy) (hf : ∀ x, (f x).seq = x.seq) (s : State) :
    findCopy (updCopy c f s) c = (findCopy s c).map f := find_map_self c f hf

/-- What sealing makes of the copy with its number: nothing, or SEALED, or gone. -/
theorem sealCopy_only (c : Nat) (s : State) : CopyOnly c s (sealCopy c s) ∧
    (findCopy (sealCopy c s) c = findCopy s c ∨ ∀ x, findCopy (sealCopy c s) c = some x → x.state = .sealed) := by
  unfold sealCopy
  split
  · rename_i x hx
    dsimp only
    split
    · exact ⟨CopyOnly.refl c s, Or.inl rfl⟩
    · generalize receiptRecord _ _ _ _ _ _ _ _ _ _ _ _ _ _ _ _ _ = body
      have h1 : CopyOnly c s (updCopy c (fun y => { y with state := .sealed, receiptSlot := false }) s) :=
        updCopy_only c _ (by intro; rfl) s
      have h1s : ∀ x, findCopy (updCopy c (fun y => { y with state := .sealed, receiptSlot := false }) s) c = some x →
          x.state = .sealed := by
        intro y hy
        rw [findCopy_updCopy c _ (by intro; rfl), hx] at hy
        obtain rfl := Option.some.inj hy
        rfl
      generalize updCopy c (fun y => { y with state := .sealed, receiptSlot := false }) s = s1 at h1 h1s
      generalize hs2 : (if decide (x.state = .voided) = true then s1 else _) = s2
      have h2 : s2.jobs = s1.jobs := by
        rw [← hs2]
        split <;> rfl
      have h3 : (appendReceipt x.tenant true body s2).jobs = s1.jobs :=
        ((appendReceipt_keeps x.tenant true body s2 (fun _ q => q) (Keeps.refl _ s2)).only .jobs (by decide)).trans h2
      generalize appendReceipt x.tenant true body s2 = s3 at h3
      have h3c : CopyOnly c s s3 := h1.trans (CopyOnly.of_jobs h3)
      have h3s : ∀ x, findCopy s3 c = some x → x.state = .sealed := by
        intro y hy
        rw [findCopy, h3] at hy
        exact h1s y hy
      split
      · exact ⟨h3c, Or.inr h3s⟩
      · have h4 : CopyOnly c s3 (discardWork c { s3 with jobs := { s3.jobs with copies := s3.jobs.copies.filter (·.seq ≠ c) } }) :=
          ⟨rfl, fun b hb => find_filter_seq hb⟩
        have h4s : ∀ x, findCopy (discardWork c { s3 with jobs := { s3.jobs with copies := s3.jobs.copies.filter (·.seq ≠ c) } }) c =
            some x → x.state = .sealed := by
          intro y hy
          have hm := List.mem_of_find?_eq_some hy
          have hs := List.find?_some hy
          have := (List.mem_filter.mp hm).2
          simp only [ne_eq, decide_not, Bool.not_eq_true', decide_eq_false_iff_not] at this
          exact absurd (of_decide_eq_true hs) this
        split
        · exact ⟨h3c.trans h4, Or.inr h4s⟩
        · have h5 : (closeBatch x.tenant (discardWork c { s3 with jobs := { s3.jobs with copies := s3.jobs.copies.filter (·.seq ≠ c) } })).jobs = _ :=
            (closeBatch_keeps x.tenant _ (fun _ q => q) (Keeps.refl _ _)).only .jobs (by decide)
          refine ⟨(h3c.trans h4).trans (CopyOnly.of_jobs h5), Or.inr ?_⟩
          intro y hy
          rw [findCopy, h5] at hy
          exact h4s y hy
  · exact ⟨CopyOnly.refl c s, Or.inl rfl⟩

theorem sealVoid_only (c : Nat) (s : State) : CopyOnly c s (sealVoid c s) ∧
    ((∀ x, findCopy s c = some x → ¬(x.state = .queued ∨ x.state = .ready)) →
      ∀ x, findCopy (sealVoid c s) c = some x → ¬(x.state = .queued ∨ x.state = .ready)) := by
  unfold sealVoid
  split
  · rename_i x hx
    split
    · have h1 := updCopy_only c (fun y => { y with receiptSlot := true }) (fun _ => rfl) s
      have h2 := sealCopy_only c (updCopy c (fun y => { y with receiptSlot := true }) s)
      refine ⟨h1.trans h2.1, fun hs y hy => ?_⟩
      rcases h2.2 with e | e
      · rw [e, findCopy_updCopy c _ (by intro; rfl), hx] at hy
        obtain rfl := Option.some.inj hy
        exact hs x hx
      · rw [e y hy]
        decide
    · refine ⟨CopyOnly.refl c s, fun hs y hy => ?_⟩
      exact hs y hy
  · rename_i hx
    exact ⟨CopyOnly.refl c s, fun _ y hy => by rw [hx] at hy; cases hy⟩

/-- Voiding: the tenants keep everything but what is reserved, other copies stay, and the copy is QUEUED or READY no more. -/
theorem voidCopy_only (c : Nat) (corrupt : Bool) (s : State) :
    (∀ b, b ≠ c → findCopy (voidCopy c corrupt s) b = findCopy s b) ∧
    (∀ x, findCopy (voidCopy c corrupt s) c = some x → ¬(x.state = .queued ∨ x.state = .ready)) ∧
    ∀ t, { tenant (voidCopy c corrupt s) t with reserved := 0 } = { tenant s t with reserved := 0 } := by
  unfold voidCopy
  split
  · rename_i x hx
    split
    · dsimp only
      have h1 : CopyOnly c s (updCopy c (fun y => { y with
          state := .voided, slot := none, commitTime := stamp s, flags := { CopyFlags.none with void := true, corrupt := corrupt } }) s) :=
        updCopy_only c _ (by intro; rfl) s
      have h1s : ∀ y, findCopy (updCopy c (fun y => { y with
          state := .voided, slot := none, commitTime := stamp s, flags := { CopyFlags.none with void := true, corrupt := corrupt } }) s) c =
          some y → y.state = .voided := by
        intro y hy
        rw [findCopy_updCopy c _ (by intro; rfl), hx] at hy
        obtain rfl := Option.some.inj hy
        rfl
      generalize updCopy c (fun y => { y with
          state := .voided, slot := none, commitTime := stamp s, flags := { CopyFlags.none with void := true, corrupt := corrupt } }) s = s1
        at h1 h1s
      have h2 : ∀ (k : Kiln), (∀ b, findCopy (discardWork c { updTenant x.tenant (fun t => { t with reserved := t.reserved - 1 }) s1 with
          kln := k }) b = findCopy s1 b) ∧
          ∀ t, { tenant (discardWork c { updTenant x.tenant (fun t => { t with reserved := t.reserved - 1 }) s1 with kln := k }) t
            with reserved := 0 } = { tenant s1 t with reserved := 0 } := by
        intro k
        refine ⟨fun _ => rfl, fun t => ?_⟩
        show { tget (tput s1.jobs.tenants x.tenant _) Tenant.init t with reserved := 0 } = { tget s1.jobs.tenants Tenant.init t with
          reserved := 0 }
        by_cases ht : t = x.tenant
        · subst ht
          rw [tget_tput_self]
          rfl
        · rw [tget_tput_ne _ _ _ ht]
      generalize hk : ({ updTenant x.tenant (fun t => { t with reserved := t.reserved - 1 }) s1 with kln := _ } : State) = s2
      have h3 : (∀ b, findCopy (discardWork c s2) b = findCopy s1 b) ∧
          ∀ t, { tenant (discardWork c s2) t with reserved := 0 } = { tenant s1 t with reserved := 0 } := hk ▸ h2 _
      generalize discardWork c s2 = s3 at h3
      have h4 := sealVoid_only c s3
      refine ⟨fun b hb => ?_, ?_, fun t => ?_⟩
      · rw [h4.1.other b hb, h3.1, h1.other b hb]
      · refine h4.2 fun y hy => ?_
        rw [h3.1] at hy
        rw [h1s y hy]
        decide
      · have e1 : tenant (sealVoid c s3) t = tenant s3 t := by rw [tenant, tenant, h4.1.tenants]
        have e2 : tenant s1 t = tenant s t := by rw [tenant, tenant, h1.tenants]
        rw [e1, h3.2, e2]
    · rename_i hn
      refine ⟨fun _ _ => rfl, fun y hy => ?_, fun _ => rfl⟩
      rw [hx] at hy
      obtain rfl := Option.some.inj hy
      exact hn
  · rename_i hx
    exact ⟨fun _ _ => rfl, fun y hy => (by rw [hx] at hy; cases hy), fun _ => rfl⟩

theorem mem_copyOrder {s : State} {p : Copy → Bool} {x : Copy} (hx : x ∈ s.jobs.copies) (hp : p x = true) :
    x.seq ∈ copyOrder s p := by
  have hl : ∀ (l acc : List Nat) (c : Nat), c ∈ acc ∨ c ∈ l →
      c ∈ l.foldl (fun l c => l.filter (· < c) ++ c :: l.filter (fun d => !decide (d < c))) acc := by
    intro l
    induction l with
    | nil =>
      rintro acc c (h | h)
      · exact h
      · cases h
    | cons a l ih =>
      rintro acc c h
      refine ih _ c ?_
      rcases h with h | h
      · refine Or.inl ?_
        by_cases hc : c < a
        · exact List.mem_append_left _ (List.mem_filter.mpr ⟨h, by simpa using hc⟩)
        · exact List.mem_append_right _ (List.mem_cons_of_mem _ (List.mem_filter.mpr ⟨h, by simpa using hc⟩))
      · rcases List.mem_cons.mp h with rfl | h
        · exact Or.inl (List.mem_append_right _ List.mem_cons_self)
        · exact Or.inr h
  exact hl _ _ _ (Or.inr (List.mem_map.mpr ⟨x, List.mem_filter.mpr ⟨hx, hp⟩, rfl⟩))

/-- Voiding every copy of a list leaves none of them QUEUED or READY, and of tenants changes only what is reserved. -/
theorem voidAll_only (l : List Nat) (corrupt : Bool) (s : State) :
    (∀ c x, (c ∈ l ∨ ∀ y, findCopy s c = some y → ¬(y.state = .queued ∨ y.state = .ready)) →
      findCopy (l.foldl (fun u c => voidCopy c corrupt u) s) c = some x → ¬(x.state = .queued ∨ x.state = .ready)) ∧
    ∀ t, { tenant (l.foldl (fun u c => voidCopy c corrupt u) s) t with reserved := 0 } = { tenant s t with reserved := 0 } := by
  induction l generalizing s with
  | nil =>
    refine ⟨fun c x h hx => ?_, fun _ => rfl⟩
    rcases h with h | h
    · cases h
    · exact h x hx
  | cons a l ih =>
    have ha := voidCopy_only a corrupt s
    have hi := ih (voidCopy a corrupt s)
    refine ⟨fun c x h hx => hi.1 c x ?_ hx, fun t => (hi.2 t).trans (ha.2.2 t)⟩
    by_cases hc : c = a
    · subst hc
      exact Or.inr ha.2.1
    · rcases h with h | h
      · exact Or.inl ((List.mem_cons.mp h).resolve_left hc)
      · refine Or.inr fun y hy => h y ?_
        rw [← ha.1 c hc]
        exact hy

/-- A copy that is QUEUED or READY after every copy of a kind was voided was so before, and is not of that kind. -/
theorem voidAll_left {s : State} {p : Copy → Bool} {corrupt : Bool} {c : Nat} {x : Copy}
    (hx : findCopy ((copyOrder s p).foldl (fun u c => voidCopy c corrupt u) s) c = some x)
    (hq : x.state = .queued ∨ x.state = .ready) : findCopy s c = some x ∧ p x = false := by
  have hn : ∀ (l : List Nat) (u : State), c ∉ l → findCopy (l.foldl (fun u c => voidCopy c corrupt u) u) c = findCopy u c := by
    intro l
    induction l with
    | nil => exact fun _ _ => rfl
    | cons a l ih =>
      intro u h
      have h1 : c ≠ a := fun e => h (e ▸ List.mem_cons_self)
      have h2 : c ∉ l := fun e => h (List.mem_cons_of_mem _ e)
      exact (ih _ h2).trans ((voidCopy_only a corrupt u).1 c h1)
  by_cases hc : c ∈ copyOrder s p
  · exact absurd hq ((voidAll_only _ corrupt s).1 c x (Or.inl hc) hx)
  · rw [hn _ s hc] at hx
    refine ⟨hx, ?_⟩
    by_contra hp
    have hs : x.seq = c := by simpa using List.find?_some hx
    exact hc (hs ▸ mem_copyOrder (List.mem_of_find?_eq_some hx) (by simpa using hp))

/-- A page that clashes with none of the streams it names stays as it is. -/
theorem checkPage_id {p : Template} {s : State}
    (h : ∀ q ∈ p.planes, ∃ y, findStream s p.tenant q.handle = some y ∧ pageClash y p q = none) : checkPage p s = s := by
  have hl : ∀ (l : List PagePlane), (∀ q ∈ l, ∃ y, findStream s p.tenant q.handle = some y ∧ pageClash y p q = none) →
      checkPage { p with planes := l } s = s := by
    intro l
    induction l with
    | nil => exact fun _ => rfl
    | cons a l ih =>
      intro hu
      obtain ⟨y, hy, hc⟩ := hu a List.mem_cons_self
      have hc' : pageClash y { p with planes := a :: l } a = none := hc
      have ih' := ih fun q hq => hu q (List.mem_cons_of_mem _ hq)
      unfold checkPage at ih' ⊢
      rw [List.foldl_cons]
      simp only [hy, hc']
      split
      · exact ih'
      · exact ih'
  exact hl p.planes h

end Sys2Proof.Machine
end

