-- ==== Sys2Proof/Laws/KeepsBoot.lean ====
section
/-! SUPPORT. What the operations of Machine/Boot.lean change, and what they keep. -/

namespace Sys2Proof.Machine
open Sys2Proof

theorem bootPatches_keeps {ps : List Part} {σ : State} (s : State)
    (hp : ∀ p ∈ [Part.sag], p ∈ ps) (h : Keeps ps σ s) : Keeps ps σ (bootPatches s) := by
  unfold bootPatches
  extract_lets σ1 σ2 σ3 σ4 σ5 σ6
  refine Keeps.set_sag rfl (hp _ (by decide)) ?_
  exact h

theorem restoreTenant_keeps {ps : List Part} {σ : State} (r : SagRec) (s : State)
    (hp : ∀ p ∈ [Part.jobs, Part.sag], p ∈ ps) (h : Keeps ps σ s) : Keeps ps σ (restoreTenant r s) := by
  unfold restoreTenant
  extract_lets σ1 σ2
  refine updTenant_keeps _ _ _ (Keeps.sub (by decide) hp) ?_
  refine updSag_keeps _ _ _ (Keeps.sub (by decide) hp) ?_
  exact h

theorem bootTenant_keeps {ps : List Part} {σ : State} (t : Nat) (s : State)
    (hp : ∀ p ∈ [Part.crk, Part.free, Part.jobs, Part.msix, Part.out, Part.reg .stk, Part.rings, Part.sag, Part.stk], p ∈ ps) (h : Keeps ps σ s) : Keeps ps σ (bootTenant t s) := by
  unfold bootTenant
  refine gapReceipt_keeps _ _ (Keeps.sub (by decide) hp) ?_
  refine updTenant_keeps _ _ _ (Keeps.sub (by decide) hp) ?_
  exact h

theorem unsealState_keeps {ps : List Part} {σ : State} (good : Bool) (s : State)
    (hp : ∀ p ∈ [Part.crk, Part.free, Part.jobs, Part.msix, Part.out, Part.reg .stk, Part.rings, Part.sag, Part.stk], p ∈ ps) (h : Keeps ps σ s) : Keeps ps σ (unsealState good s) := by
  unfold unsealState
  extract_lets σ1 σ2 σ3
  have hσ2 : Keeps ps σ σ2 := by
    unfold σ2
    refine Keeps.foldl ?_ ?_
    · intro τ10 χ11 hτ12
      refine updSag_keeps _ _ _ (Keeps.sub (by decide) hp) ?_
      exact hτ12
    · exact h
  have hσ3 : Keeps ps σ σ3 := by
    unfold σ3
    refine Keeps.ite (fun _ => ?_) fun _ => ?_
    · exact h
    · refine Keeps.ite (fun _ => ?_) fun _ => ?_
      · refine Keeps.foldl ?_ ?_
        · intro τ7 χ8 hτ9
          refine restoreTenant_keeps _ _ (Keeps.sub (by decide) hp) ?_
          exact hτ9
        · exact h
      · refine raiseAlarm_keeps _ _ _ _ (Keeps.sub (by decide) hp) ?_
        refine wipeSagger_keeps _ _ (Keeps.sub (by decide) hp) ?_
        exact hσ2
  refine Keeps.foldl ?_ ?_
  · intro τ4 χ5 hτ6
    refine bootTenant_keeps _ _ (Keeps.sub (by decide) hp) ?_
    exact hτ6
  · exact hσ3

theorem trainLink_keeps {ps : List Part} {σ : State} (speed : Nat) (width : Nat) (ids : Word) (s : State)
    (hp : ∀ p ∈ [Part.hif], p ∈ ps) (h : Keeps ps σ s) : Keeps ps σ (trainLink speed width ids s) := by
  unfold trainLink
  refine Keeps.set_hif (Or.inr rfl) (Or.inr rfl) (Or.inl (hp _ (by decide))) ?_
  exact h

theorem haltSagger_keeps {ps : List Part} {σ : State} (code : Nat) (s : State)
    (hp : ∀ p ∈ [Part.sag], p ∈ ps) (h : Keeps ps σ s) : Keeps ps σ (haltSagger code s) := by
  unfold haltSagger
  refine Keeps.set_sag rfl (hp _ (by decide)) ?_
  exact h

theorem completeFuses_keeps {ps : List Part} {s0 : State} (s : State)
    (hp : ∀ p ∈ [Part.fuses, Part.sag], p ∈ ps) (h : Keeps ps s0 s) : Keeps ps s0 (completeFuses s) := by
  refine Keeps.set_fuses (hp _ (by decide)) (hp _ (by decide)) (fun i hi => ?_) h
  simp only [List.getD_eq_getElem?_getD, List.getElem?_map] at hi ⊢
  cases hx : s.sag.fuses[i]? with
  | none => simp [hx] at hi
  | some n =>
    simp only [hx, Option.getD_some, Option.map_some] at hi ⊢
    split <;> omega

theorem bootJournal_keeps {ps : List Part} {σ : State} (cs0 : Nat) (cs1 : Nat) (good : Bool) (s : State)
    (hp : ∀ p ∈ [Part.crk, Part.entries, Part.free, Part.fw, Part.jobs, Part.msix, Part.out, Part.pwr, Part.reg .crk, Part.reg .stk, Part.reg .tly, Part.rings, Part.sag, Part.stk, Part.tly], p ∈ ps) (h : Keeps ps σ s) : Keeps ps σ (bootJournal cs0 cs1 good s) := by
  unfold bootJournal
  extract_lets σ1 σ2 σ3 σ4 σ5 σ6 σ7
  have hσ1 : Keeps ps σ σ1 := by
    unfold σ1
    refine crkRecover_keeps _ _ _ (Keeps.sub (by decide) hp) ?_
    exact h
  have hσ3 : Keeps ps σ σ3 := by
    unfold σ3
    refine Keeps.ite (fun _ => ?_) fun _ => ?_
    · exact hσ1
    · refine recoverTally_keeps _ (Keeps.sub (by decide) hp) ?_
      refine snapLost_keeps _ (Keeps.sub (by decide) hp) ?_
      refine Keeps.set_til rfl (Or.inl (hp _ (by decide))) (Or.inr rfl) ?_
      exact hσ1
  have hσ4 : Keeps ps σ σ4 := by
    unfold σ4
    refine unsealState_keeps _ _ (Keeps.sub (by decide) hp) ?_
    exact hσ3
  refine Keeps.set_fw_pwr_sag (hp _ (by decide)) (hp _ (by decide)) rfl (hp _ (by decide)) ?_
  exact hσ4

theorem boot_keeps {ps : List Part} {σ : State} (cs0 : Nat) (cs1 : Nat) (id0 : Nat) (id1 : Nat) (speed : Nat) (width : Nat) (good : Bool) (failed : Nat) (s : State)
    (hp : ∀ p ∈ [Part.clk, Part.crk, Part.entries, Part.free, Part.fuses, Part.fw, Part.hif, Part.jobs, Part.kln, Part.msix, Part.out, Part.ports, Part.pwr, Part.reg .clk, Part.reg .crk, Part.reg .klnC, Part.reg .klnP, Part.reg .stk, Part.reg .tly, Part.rings, Part.sag, Part.stk, Part.tly, Part.win], p ∈ ps) (h : Keeps ps σ s) : Keeps ps σ (boot cs0 cs1 id0 id1 speed width good failed s) := by
  unfold boot
  refine Keeps.ite (fun _ => ?_) fun _ => ?_
  · exact h
  · refine Keeps.ite (fun _ => ?_) fun _ => ?_
    · refine trainLink_keeps _ _ _ _ (Keeps.sub (by decide) hp) ?_
      exact h
    · refine Keeps.ite (fun _ => ?_) fun _ => ?_
      · exact h
      · refine Keeps.ite (fun _ => ?_) fun _ => ?_
        · refine trainLink_keeps _ _ _ _ (Keeps.sub (by decide) hp) ?_
          refine haltSagger_keeps _ _ (Keeps.sub (by decide) hp) ?_
          exact h
        · extract_lets σ1 σ2 σ3 σ4 σ5 σ6 σ7 σ8 σ9 σ10
          have hσ2 : Keeps ps σ σ2 := by
            unfold σ2
            refine completeFuses_keeps _ (Keeps.sub (by decide) hp) ?_
            refine Keeps.set_clk (hp _ (by decide)) ?_
            exact h
          have hσ32 : Keeps ps σ σ3.2 := by
            unfold σ3
            refine draw_keeps _ _ (Keeps.sub (by decide) hp) ?_
            exact hσ2
          have hσ4 : Keeps ps σ σ4 := by
            unfold σ4
            refine dllChange_keeps _ _ _ (Keeps.sub (by decide) hp) ?_
            exact hσ32
          have hσ5 : Keeps ps σ σ5 := by
            unfold σ5
            refine wn_keeps _ _ _ (Keeps.sub (by decide) hp) ?_
            refine wn_keeps _ _ _ (Keeps.sub (by decide) hp) ?_
            exact hσ4
          have hσ7 : Keeps ps σ σ7 := by
            unfold σ7
            refine Keeps.ite (fun _ => ?_) fun _ => ?_
            · refine Keeps.set_sag rfl (hp _ (by decide)) ?_
              exact hσ5
            · refine bootPatches_keeps _ (Keeps.sub (by decide) hp) ?_
              refine Keeps.set_sag rfl (hp _ (by decide)) ?_
              exact hσ5
          have hσ9 : Keeps ps σ σ9 := by
            unfold σ9
            refine trainLink_keeps _ _ _ _ (Keeps.sub (by decide) hp) ?_
            exact hσ7
          refine Keeps.ite (fun _ => ?_) fun _ => ?_
          · refine Keeps.set_sag rfl (hp _ (by decide)) ?_
            exact hσ9
          · refine bootJournal_keeps _ _ _ _ (Keeps.sub (by decide) hp) ?_
            exact hσ9

theorem execBoot_keeps (cs0 : BitVec 16) (cs1 : BitVec 16) (id0 : BitVec 8) (id1 : BitVec 8) (speed : BitVec 3) (width : BitVec 4) (good : Bool) (failed : Fin 5) (s : State) :
    ∃ τ, execBoot cs0 cs1 id0 id1 speed width good failed s = .next τ ∧ Keeps [Part.clk, Part.crk, Part.entries, Part.free, Part.fuses, Part.fw, Part.hif, Part.jobs, Part.kln, Part.msix, Part.out, Part.ports, Part.pwr, Part.reg .clk, Part.reg .crk, Part.reg .klnC, Part.reg .klnP, Part.reg .stk, Part.reg .tly, Part.rings, Part.sag, Part.stk, Part.tly, Part.win] s τ := by
  refine Keeps.exec fun ps σ hp h => ?_
  unfold execBoot
  refine ⟨_, rfl, ?_⟩
  refine boot_keeps _ _ _ _ _ _ _ _ _ (Keeps.sub (by decide) hp) ?_
  exact h

end Sys2Proof.Machine
end

