-- ==== Sys2Proof/Laws/KeepsHif.lean ====
section
/-! SUPPORT. What the operations of Machine/Hif.lean change, and what they keep. -/

namespace Sys2Proof.Machine
open Sys2Proof

theorem armRing_keeps {ps : List Part} {σ : State} (n : Nat) (s : State)
    (hp : ∀ p ∈ [Part.msix, Part.out, Part.reg .stk, Part.rings, Part.stk], p ∈ ps) (h : Keeps ps σ s) : Keeps ps σ (armRing n s) := by
  unfold armRing
  extract_lets σ1
  have hσ1 : Keeps ps σ σ1 := by
    unfold σ1
    refine updRing_keeps _ _ _ (Keeps.sub (by decide) hp) ?_
    exact h
  refine Keeps.ite (fun _ => ?_) fun _ => ?_
  · refine signalRing_keeps _ _ (Keeps.sub (by decide) hp) ?_
    exact hσ1
  · exact hσ1

theorem doorbell_keeps {ps : List Part} {σ : State} (n : Nat) (v : Word) (be : BitVec 4) (s : State)
    (hp : ∀ p ∈ [Part.msix, Part.out, Part.pwr, Part.reg .hif, Part.reg .stk, Part.rings, Part.stk], p ∈ ps) (h : Keeps ps σ s) : Keeps ps σ (doorbell n v be s) := by
  unfold doorbell
  extract_lets σ1 σ2 σ3 σ4 σ5
  have hσ4 : Keeps ps σ σ4 := by
    unfold σ4
    refine putRing_keeps _ _ _ (Keeps.sub (by decide) hp) ?_
    exact h
  have hσ5 : Keeps ps σ σ5 := by
    unfold σ5
    refine putRing_keeps _ _ _ (Keeps.sub (by decide) hp) ?_
    exact h
  refine Keeps.ite (fun _ => ?_) fun _ => ?_
  · refine inc_keeps _ _ _ (Keeps.sub (by decide) hp) ?_
    refine updRing_keeps _ _ _ (Keeps.sub (by decide) hp) ?_
    exact h
  · refine Keeps.ite (fun _ => ?_) fun _ => ?_
    · refine recordErr_keeps _ _ _ (Keeps.sub (by decide) hp) ?_
      refine updRing_keeps _ _ _ (Keeps.sub (by decide) hp) ?_
      refine inc_keeps _ _ _ (Keeps.sub (by decide) hp) ?_
      exact h
    · refine Keeps.ite (fun _ => ?_) fun _ => ?_
      · refine Keeps.ite (fun _ => ?_) fun _ => ?_
        · refine startExit_keeps _ _ (Keeps.sub (by decide) hp) ?_
          exact hσ4
        · exact hσ4
      · refine Keeps.ite (fun _ => ?_) fun _ => ?_
        · refine armRing_keeps _ _ (Keeps.sub (by decide) hp) ?_
          exact hσ5
        · exact hσ5

theorem barTwo_keeps {ps : List Part} {σ : State} (n : Nat) (off : Nat) (write : Bool) (v : Word) (be : BitVec 4) (s : State)
    (hp : ∀ p ∈ [Part.msix, Part.out, Part.pwr, Part.reads, Part.reg .hif, Part.reg .stk, Part.rings, Part.stk], p ∈ ps) (h : Keeps ps σ s) : Keeps ps σ (barTwo n off write v be s) := by
  unfold barTwo
  refine Keeps.ite (fun _ => ?_) fun _ => ?_
  · exact h
  · refine Keeps.ite (fun _ => ?_) fun _ => ?_
    · refine returns_keeps _ _ _ (Keeps.sub (by decide) hp) ?_
      refine beginRead_keeps _ _ (Keeps.sub (by decide) hp) ?_
      exact h
    · refine Keeps.ite (fun _ => ?_) fun _ => ?_
      · refine doorbell_keeps _ _ _ _ (Keeps.sub (by decide) hp) ?_
        exact h
      · exact h

theorem execDoorbell_keeps (ring : Fin 8192) (off : BitVec 12) (write : Bool) (val : Word) (be : BitVec 4) (s : State) :
    ∃ τ, execDoorbell ring off write val be s = .next τ ∧ Keeps [Part.msix, Part.out, Part.pwr, Part.reads, Part.reg .hif, Part.reg .stk, Part.rings, Part.stk] s τ := by
  refine Keeps.exec fun ps σ hp h => ?_
  unfold execDoorbell
  refine ⟨_, rfl, ?_⟩
  refine barTwo_keeps _ _ _ _ _ _ (Keeps.sub (by decide) hp) ?_
  exact h

theorem startRings_keeps {ps : List Part} {σ : State} (s : State)
    (hp : ∀ p ∈ [Part.rings], p ∈ ps) (h : Keeps ps σ s) : Keeps ps σ (startRings s) := by
  unfold startRings
  extract_lets σ1 σ2 σ3
  refine putRing_keeps _ _ _ (Keeps.sub (by decide) hp) ?_
  refine putRing_keeps _ _ _ (Keeps.sub (by decide) hp) ?_
  exact h

theorem hifCtrlWrite_keeps {ps : List Part} {σ : State} (v : Word) (s : State)
    (hp : ∀ p ∈ [Part.reg .hif, Part.rings], p ∈ ps) (h : Keeps ps σ s) : Keeps ps σ (hifCtrlWrite v s) := by
  unfold hifCtrlWrite
  extract_lets σ1 σ2
  have hσ2 : Keeps ps σ σ2 := by
    unfold σ2
    refine wn_keeps _ _ _ (Keeps.sub (by decide) hp) ?_
    exact h
  refine Keeps.ite (fun _ => ?_) fun _ => ?_
  · refine startRings_keeps _ (Keeps.sub (by decide) hp) ?_
    exact hσ2
  · exact hσ2

theorem execHifRunWrite_keeps (ini : Initiator) (val : Word) (be : BitVec 4) (s : State) :
    ∃ τ, execHifRunWrite ini val be s = .next τ ∧ Keeps [Part.msix, Part.out, Part.reg .hif, Part.rings] s τ := by
  refine Keeps.exec fun ps σ hp h => ?_
  unfold execHifRunWrite
  refine ⟨_, rfl, ?_⟩
  refine guardWrite_keeps _ _ _ _ _ _ ?_ (Keeps.sub (by decide) hp) ?_
  · intro χ1 τ2 hτ3
    refine hifCtrlWrite_keeps _ _ (Keeps.sub (by decide) hp) ?_
    exact hτ3
  · exact h

theorem flushMessages_keeps {ps : List Part} {σ : State} (s : State)
    (hp : ∀ p ∈ [Part.msix, Part.out, Part.reg .stk, Part.rings, Part.stk], p ∈ ps) (h : Keeps ps σ s) : Keeps ps σ (flushMessages s) := by
  unfold flushMessages
  refine Keeps.ite (fun _ => ?_) fun _ => ?_
  · extract_lets σ1
    have hσ1 : Keeps ps σ σ1 := by
      unfold σ1
      refine Keeps.foldl ?_ ?_
      · intro τ5 χ6 hτ7
        refine writeback_keeps _ _ (Keeps.sub (by decide) hp) ?_
        exact hτ7
      · exact h
    refine Keeps.foldl ?_ ?_
    · intro τ2 χ3 hτ4
      refine Keeps.ite (fun _ => ?_) fun _ => ?_
      · exact hτ4
      · refine emit_keeps _ _ (Keeps.sub (by decide) hp) ?_
        refine Keeps.set_hif (Or.inr rfl) (Or.inl (hp _ (by decide))) (Or.inr rfl) ?_
        exact hτ4
    · exact hσ1
  · exact h

theorem configWrite_keeps {ps : List Part} {σ : State} (on : Bool) (fields : List CfgField) (s : State)
    (hp : ∀ p ∈ [Part.hif, Part.msix, Part.out, Part.reg .hif, Part.reg .stk, Part.rings, Part.stk], p ∈ ps) (h : Keeps ps σ s) : Keeps ps σ (configWrite on fields s) := by
  unfold configWrite
  extract_lets σ1 σ2
  refine ltrUpdate_keeps _ (Keeps.sub (by decide) hp) ?_
  refine flushMessages_keeps _ (Keeps.sub (by decide) hp) ?_
  refine Keeps.set_hif (Or.inr rfl) (Or.inr rfl) (Or.inl (hp _ (by decide))) ?_
  exact h

theorem execBusMasterEnableWrite_keeps (on : Bool) (fields : List CfgField) (s : State) :
    ∃ τ, execBusMasterEnableWrite on fields s = .next τ ∧ Keeps [Part.hif, Part.msix, Part.out, Part.reg .hif, Part.reg .stk, Part.rings, Part.stk] s τ := by
  refine Keeps.exec fun ps σ hp h => ?_
  unfold execBusMasterEnableWrite
  refine ⟨_, rfl, ?_⟩
  refine configWrite_keeps _ _ _ (Keeps.sub (by decide) hp) ?_
  exact h

theorem execD3hotTransition_keeps (s : State) :
    ∃ τ, execD3hotTransition s = .next τ ∧ Keeps [Part.hif] s τ := by
  refine Keeps.exec fun ps σ hp h => ?_
  unfold execD3hotTransition
  refine ⟨_, rfl, ?_⟩
  refine Keeps.set_hif (Or.inr rfl) (Or.inr rfl) (Or.inl (hp _ (by decide))) ?_
  exact h

theorem execD0Transition_keeps (s : State) :
    ∃ τ, execD0Transition s = .next τ ∧ Keeps [Part.hif, Part.msix, Part.out, Part.reg .stk, Part.rings, Part.stk] s τ := by
  refine Keeps.exec fun ps σ hp h => ?_
  unfold execD0Transition
  refine ⟨_, rfl, ?_⟩
  refine flushMessages_keeps _ (Keeps.sub (by decide) hp) ?_
  refine Keeps.set_hif (Or.inr rfl) (Or.inr rfl) (Or.inl (hp _ (by decide))) ?_
  exact h

theorem unmask_keeps {ps : List Part} {σ : State} (v : Nat) (s : State)
    (hp : ∀ p ∈ [Part.hif, Part.msix, Part.out], p ∈ ps) (h : Keeps ps σ s) : Keeps ps σ (unmask v s) := by
  unfold unmask
  extract_lets σ1 σ2 σ3
  have hσ2 : Keeps ps σ σ2 := by
    unfold σ2
    refine Keeps.set_hif (Or.inr rfl) (Or.inr rfl) (Or.inl (hp _ (by decide))) ?_
    exact h
  refine Keeps.ite (fun _ => ?_) fun _ => ?_
  · refine emit_keeps _ _ (Keeps.sub (by decide) hp) ?_
    refine Keeps.set_hif (Or.inr rfl) (Or.inl (hp _ (by decide))) (Or.inr rfl) ?_
    exact hσ2
  · exact hσ2

theorem msixField_keeps {ps : List Part} {σ : State} (v : Nat) (k : Nat) (x : Word) (s : State)
    (hp : ∀ p ∈ [Part.hif, Part.msix, Part.out], p ∈ ps) (h : Keeps ps σ s) : Keeps ps σ (msixField v k x s) := by
  unfold msixField
  extract_lets σ1 σ2 σ3
  split
  · unfold σ2
    refine Keeps.set_hif (Or.inr rfl) (Or.inr rfl) (Or.inl (hp _ (by decide))) ?_
    exact h
  · unfold σ2
    refine Keeps.set_hif (Or.inr rfl) (Or.inr rfl) (Or.inl (hp _ (by decide))) ?_
    exact h
  · unfold σ2
    refine Keeps.set_hif (Or.inr rfl) (Or.inr rfl) (Or.inl (hp _ (by decide))) ?_
    exact h
  · refine Keeps.ite (fun _ => ?_) fun _ => ?_
    · refine unmask_keeps _ _ (Keeps.sub (by decide) hp) ?_
      exact h
    · refine Keeps.set_hif (Or.inr rfl) (Or.inr rfl) (Or.inl (hp _ (by decide))) ?_
      exact h

theorem msixWrite_keeps {ps : List Part} {σ : State} (addr : Nat) (x : Word) (s : State)
    (hp : ∀ p ∈ [Part.hif, Part.msix, Part.out], p ∈ ps) (h : Keeps ps σ s) : Keeps ps σ (msixWrite addr x s) := by
  unfold msixWrite
  refine Keeps.ite (fun _ => ?_) fun _ => ?_
  · exact h
  · refine msixField_keeps _ _ _ _ (Keeps.sub (by decide) hp) ?_
    exact h

theorem execMsixVectorUnmask_keeps (vec : Fin 2048) (s : State) :
    ∃ τ, execMsixVectorUnmask vec s = .next τ ∧ Keeps [Part.hif, Part.msix, Part.out] s τ := by
  refine Keeps.exec fun ps σ hp h => ?_
  unfold execMsixVectorUnmask
  refine ⟨_, rfl, ?_⟩
  refine unmask_keeps _ _ (Keeps.sub (by decide) hp) ?_
  exact h

theorem issueRead_keeps {ps : List Part} {σ : State} (kind : ReadKind) (addr : Nat) (len : Nat) (s : State)
    (hp : ∀ p ∈ [Part.hif, Part.out, Part.reg .hif], p ∈ ps) (h : Keeps ps σ s) : Keeps ps σ (issueRead kind addr len s) := by
  unfold issueRead
  extract_lets σ1 σ2 σ3 σ4 σ5
  have hσ5 : Keeps ps σ σ5 := by
    unfold σ5
    refine wf_keeps _ _ _ _ _ (Keeps.sub (by decide) hp) ?_
    refine Keeps.set_hif (Or.inr rfl) (Or.inr rfl) (Or.inl (hp _ (by decide))) ?_
    exact h
  refine emit_keeps _ _ (Keeps.sub (by decide) hp) ?_
  exact hσ5

theorem descriptorFetch_keeps {ps : List Part} {σ : State} (n : Nat) (s : State)
    (hp : ∀ p ∈ [Part.hif, Part.out, Part.reg .hif, Part.rings], p ∈ ps) (h : Keeps ps σ s) : Keeps ps σ (descriptorFetch n s) := by
  unfold descriptorFetch
  extract_lets σ1 σ2
  refine Keeps.ite (fun _ => ?_) fun _ => ?_
  · refine issueRead_keeps _ _ _ _ (Keeps.sub (by decide) hp) ?_
    refine putRing_keeps _ _ _ (Keeps.sub (by decide) hp) ?_
    exact h
  · exact h

theorem execHifDescriptorFetch_keeps (ring : Fin 8192) (s : State) :
    ∃ τ, execHifDescriptorFetch ring s = .next τ ∧ Keeps [Part.hif, Part.out, Part.reg .hif, Part.rings] s τ := by
  refine Keeps.exec fun ps σ hp h => ?_
  unfold execHifDescriptorFetch
  refine ⟨_, rfl, ?_⟩
  refine descriptorFetch_keeps _ _ (Keeps.sub (by decide) hp) ?_
  exact h

theorem dataFetch_keeps {ps : List Part} {σ : State} (s : State)
    (hp : ∀ p ∈ [Part.hif, Part.out, Part.reg .hif], p ∈ ps) (h : Keeps ps σ s) : Keeps ps σ (dataFetch s) := by
  unfold dataFetch
  split
  · refine Keeps.ite (fun _ => ?_) fun _ => ?_
    · extract_lets σ1 σ2 σ3
      refine issueRead_keeps _ _ _ _ (Keeps.sub (by decide) hp) ?_
      refine Keeps.set_hif (Or.inr rfl) (Or.inr rfl) (Or.inl (hp _ (by decide))) ?_
      exact h
    · exact h
  · exact h

theorem execHifDataFetch_keeps (s : State) :
    ∃ τ, execHifDataFetch s = .next τ ∧ Keeps [Part.hif, Part.out, Part.reg .hif] s τ := by
  refine Keeps.exec fun ps σ hp h => ?_
  unfold execHifDataFetch
  refine ⟨_, rfl, ?_⟩
  refine dataFetch_keeps _ (Keeps.sub (by decide) hp) ?_
  exact h

theorem bgPromote_keeps {ps : List Part} {σ : State} (t : Nat) (s : State)
    (hp : ∀ p ∈ [Part.clock, Part.hif, Part.msix, Part.out, Part.reg .stk, Part.reg .tim, Part.rings, Part.stk], p ∈ ps) (h : Keeps ps σ s) : Keeps ps σ (bgPromote t s) := by
  unfold bgPromote
  extract_lets σ1 σ2 σ3 σ4
  have hσ1 : Keeps ps σ σ1 := by
    unfold σ1
    refine advanceTo_keeps _ _ (Keeps.sub (by decide) hp) ?_
    exact h
  refine Keeps.set_hif (Or.inr rfl) (Or.inr rfl) (Or.inl (hp _ (by decide))) ?_
  exact hσ1

theorem execBackgroundPromote_keeps (t : DWord) (s : State) :
    ∃ τ, execBackgroundPromote t s = .next τ ∧ Keeps [Part.clock, Part.hif, Part.msix, Part.out, Part.reg .stk, Part.reg .tim, Part.rings, Part.stk] s τ := by
  refine Keeps.exec fun ps σ hp h => ?_
  unfold execBackgroundPromote
  refine ⟨_, rfl, ?_⟩
  refine bgPromote_keeps _ _ (Keeps.sub (by decide) hp) ?_
  exact h

theorem passEntries_keeps {ps : List Part} {σ : State} (y0 : Nat) (y1 : Nat) (s : State)
    (hp : ∀ p ∈ [Part.rings], p ∈ ps) (h : Keeps ps σ s) : Keeps ps σ (passEntries y0 y1 s) := by
  induction y0 generalizing y1 s with
  | zero =>
    exact h
  | succ m ih =>
    unfold passEntries
    extract_lets σ1
    refine Keeps.ite (fun _ => ?_) fun _ => ?_
    · exact h
    · refine ih _ _ ?_
      refine putRing_keeps _ _ _ (Keeps.sub (by decide) hp) ?_
      exact h

theorem passRing_keeps {ps : List Part} {σ : State} (n : Nat) (s : State)
    (hp : ∀ p ∈ [Part.rings], p ∈ ps) (h : Keeps ps σ s) : Keeps ps σ (passRing n s) := by
  unfold passRing
  refine Keeps.ite (fun _ => ?_) fun _ => ?_
  · refine passEntries_keeps _ _ _ (Keeps.sub (by decide) hp) ?_
    exact h
  · exact h

theorem failStream_keeps {ps : List Part} {σ : State} (t : Nat) (h : Nat) (s : State)
    (hp : ∀ p ∈ [Part.crk, Part.free, Part.fw, Part.glz, Part.hif, Part.jobs, Part.kln, Part.msix, Part.out, Part.reg .hif, Part.reg .klnC, Part.reg .stk, Part.rings, Part.sag, Part.stk, Part.thr], p ∈ ps) (hs : Keeps ps σ s) : Keeps ps σ (failStream t h s) := by
  unfold failStream
  extract_lets σ1 σ2
  have hσ1 : Keeps ps σ σ1 := by
    unfold σ1
    refine failWaiters_keeps _ _ _ (Keeps.sub (by decide) hp) ?_
    refine updStream_keeps _ _ _ _ (Keeps.sub (by decide) hp) ?_
    exact hs
  refine Keeps.foldl ?_ ?_
  · intro τ3 χ4 hτ5
    refine corruptCopy_keeps _ _ (Keeps.sub (by decide) hp) ?_
    exact hτ5
  · exact hσ1

theorem refuseDescriptor_keeps {ps : List Part} {σ : State} (n : Nat) (entry : Nat) (t : Nat) (h : Nat) (s : State)
    (hp : ∀ p ∈ [Part.crk, Part.free, Part.fw, Part.glz, Part.hif, Part.jobs, Part.kln, Part.msix, Part.out, Part.reg .hif, Part.reg .klnC, Part.reg .stk, Part.rings, Part.sag, Part.stk, Part.thr], p ∈ ps) (hs : Keeps ps σ s) : Keeps ps σ (refuseDescriptor n entry t h s) := by
  unfold refuseDescriptor
  extract_lets σ1
  have hσ1 : Keeps ps σ σ1 := by
    unfold σ1
    refine recordErr_keeps _ _ _ (Keeps.sub (by decide) hp) ?_
    refine event_keeps _ _ _ _ (Keeps.sub (by decide) hp) ?_
    exact hs
  split
  · refine Keeps.ite (fun _ => ?_) fun _ => ?_
    · exact hσ1
    · refine failStream_keeps _ _ _ (Keeps.sub (by decide) hp) ?_
      exact hσ1
  · exact hσ1

theorem takeDescriptor_keeps {ps : List Part} {σ : State} (n : Nat) (entry : Nat) (bs : List Byte) (s : State)
    (hp : ∀ p ∈ [Part.crk, Part.free, Part.fw, Part.glz, Part.hif, Part.jobs, Part.kln, Part.msix, Part.out, Part.reg .hif, Part.reg .klnC, Part.reg .stk, Part.rings, Part.sag, Part.stk, Part.thr], p ∈ ps) (h : Keeps ps σ s) : Keeps ps σ (takeDescriptor n entry bs s) := by
  unfold takeDescriptor
  extract_lets σ1 σ2 σ3 σ4 σ5 σ6 σ7 σ8 σ9 σ10 σ11
  have hσ9 : Keeps ps σ σ9 := by
    unfold σ9
    refine updStream_keeps _ _ _ _ (Keeps.sub (by decide) hp) ?_
    exact h
  split
  · refine Keeps.ite (fun _ => ?_) fun _ => ?_
    · refine refuseDescriptor_keeps _ _ _ _ _ (Keeps.sub (by decide) hp) ?_
      exact h
    · refine Keeps.set_hif (Or.inr rfl) (Or.inr rfl) (Or.inl (hp _ (by decide))) ?_
      exact hσ9
  · refine refuseDescriptor_keeps _ _ _ _ _ (Keeps.sub (by decide) hp) ?_
    exact h

theorem gotEntries_keeps {ps : List Part} {σ : State} (n : Nat) (start : Nat) (bs : List Byte) (s : State)
    (hp : ∀ p ∈ [Part.crk, Part.free, Part.fw, Part.glz, Part.hif, Part.jobs, Part.kln, Part.msix, Part.out, Part.reg .hif, Part.reg .klnC, Part.reg .stk, Part.rings, Part.sag, Part.stk, Part.thr], p ∈ ps) (h : Keeps ps σ s) : Keeps ps σ (gotEntries n start bs s) := by
  unfold gotEntries
  extract_lets σ1 σ2
  have hσ2 : Keeps ps σ σ2 := by
    unfold σ2
    refine updRing_keeps _ _ _ (Keeps.sub (by decide) hp) ?_
    exact h
  refine Keeps.ite (fun _ => ?_) fun _ => ?_
  · refine passRing_keeps _ _ (Keeps.sub (by decide) hp) ?_
    refine Keeps.foldl ?_ ?_
    · intro τ3 χ4 hτ5
      refine takeDescriptor_keeps _ _ _ _ (Keeps.sub (by decide) hp) ?_
      exact hτ5
    · exact hσ2
  · exact hσ2

theorem gotBytes_keeps {ps : List Part} {σ : State} (n : Nat) (t : Nat) (h : Nat) (off : Nat) (bs : List Byte) (s : State)
    (hp : ∀ p ∈ [Part.jobs, Part.rings, Part.thr], p ∈ ps) (hs : Keeps ps σ s) : Keeps ps σ (gotBytes n t h off bs s) := by
  unfold gotBytes
  extract_lets σ1
  have hσ1 : Keeps ps σ σ1 := by
    unfold σ1
    refine updStream_keeps _ _ _ _ (Keeps.sub (by decide) hp) ?_
    exact hs
  refine passRing_keeps _ _ (Keeps.sub (by decide) hp) ?_
  refine noteReady_keeps _ (Keeps.sub (by decide) hp) ?_
  exact hσ1

theorem ringError_keeps {ps : List Part} {σ : State} (n : Nat) (err : BitVec 16) (s : State)
    (hp : ∀ p ∈ [Part.msix, Part.out, Part.reg .hif, Part.reg .stk, Part.rings, Part.stk], p ∈ ps) (h : Keeps ps σ s) : Keeps ps σ (ringError n err s) := by
  unfold ringError
  extract_lets σ1
  have hσ1 : Keeps ps σ σ1 := by
    unfold σ1
    refine event_keeps _ _ _ _ (Keeps.sub (by decide) hp) ?_
    refine updRing_keeps _ _ _ (Keeps.sub (by decide) hp) ?_
    exact h
  refine Keeps.ite (fun _ => ?_) fun _ => ?_
  · refine wf_keeps _ _ _ _ _ (Keeps.sub (by decide) hp) ?_
    exact hσ1
  · exact hσ1

theorem report_keeps {ps : List Part} {σ : State} (e : AerErr) (s : State)
    (hp : ∀ p ∈ [Part.hif], p ∈ ps) (h : Keeps ps σ s) : Keeps ps σ (report e s) := by
  unfold report
  refine Keeps.set_hif (Or.inr rfl) (Or.inr rfl) (Or.inl (hp _ (by decide))) ?_
  exact h

theorem failRead_keeps {ps : List Part} {σ : State} (x : HostRead) (code : Nat) (s : State)
    (hp : ∀ p ∈ [Part.crk, Part.free, Part.fw, Part.glz, Part.hif, Part.jobs, Part.kln, Part.msix, Part.out, Part.reg .hif, Part.reg .klnC, Part.reg .stk, Part.rings, Part.sag, Part.stk, Part.thr], p ∈ ps) (h : Keeps ps σ s) : Keeps ps σ (failRead x code s) := by
  unfold failRead
  extract_lets σ1 σ2
  have hσ1 : Keeps ps σ σ1 := by
    unfold σ1
    refine recordErr_keeps _ _ _ (Keeps.sub (by decide) hp) ?_
    exact h
  split
  · refine ringError_keeps _ _ _ (Keeps.sub (by decide) hp) ?_
    exact hσ1
  · extract_lets σ3
    have hσ3 : Keeps ps σ σ3 := by
      unfold σ3
      refine Keeps.set_hif (Or.inr rfl) (Or.inr rfl) (Or.inl (hp _ (by decide))) ?_
      exact hσ1
    refine passRing_keeps _ _ (Keeps.sub (by decide) hp) ?_
    refine failStream_keeps _ _ _ (Keeps.sub (by decide) hp) ?_
    exact hσ3

theorem dropRead_keeps {ps : List Part} {σ : State} (tag : Nat) (s : State)
    (hp : ∀ p ∈ [Part.hif], p ∈ ps) (h : Keeps ps σ s) : Keeps ps σ (dropRead tag s) := by
  unfold dropRead
  refine Keeps.set_hif (Or.inr rfl) (Or.inr rfl) (Or.inl (hp _ (by decide))) ?_
  exact h

theorem dropResult_keeps {ps : List Part} {σ : State} (r : ReadResult) (s : State)
    (hp : ∀ p ∈ [Part.hif, Part.msix, Part.out, Part.reg .hif], p ∈ ps) (h : Keeps ps σ s) : Keeps ps σ (dropResult r s) := by
  unfold dropResult
  split
  · exact h
  · refine recordErr_keeps _ _ _ (Keeps.sub (by decide) hp) ?_
    refine inc_keeps _ _ _ (Keeps.sub (by decide) hp) ?_
    refine report_keeps _ _ (Keeps.sub (by decide) hp) ?_
    exact h
  · refine recordErr_keeps _ _ _ (Keeps.sub (by decide) hp) ?_
    refine inc_keeps _ _ _ (Keeps.sub (by decide) hp) ?_
    refine report_keeps _ _ (Keeps.sub (by decide) hp) ?_
    exact h
  · refine recordErr_keeps _ _ _ (Keeps.sub (by decide) hp) ?_
    refine inc_keeps _ _ _ (Keeps.sub (by decide) hp) ?_
    refine report_keeps _ _ (Keeps.sub (by decide) hp) ?_
    exact h

theorem readCompletion_keeps {ps : List Part} {σ : State} (tag : Nat) (r : ReadResult) (s : State)
    (hp : ∀ p ∈ [Part.crk, Part.free, Part.fw, Part.glz, Part.hif, Part.jobs, Part.kln, Part.msix, Part.out, Part.reg .hif, Part.reg .klnC, Part.reg .stk, Part.rings, Part.sag, Part.stk, Part.thr], p ∈ ps) (h : Keeps ps σ s) : Keeps ps σ (readCompletion tag r s) := by
  unfold readCompletion
  split
  · refine report_keeps _ _ (Keeps.sub (by decide) hp) ?_
    refine Keeps.set_hif (Or.inr rfl) (Or.inr rfl) (Or.inl (hp _ (by decide))) ?_
    exact h
  · extract_lets σ1
    have hσ1 : Keeps ps σ σ1 := by
      unfold σ1
      refine dropRead_keeps _ _ (Keeps.sub (by decide) hp) ?_
      exact h
    refine Keeps.ite (fun _ => ?_) fun _ => ?_
    · refine dropResult_keeps _ _ (Keeps.sub (by decide) hp) ?_
      exact hσ1
    · split
      · refine Keeps.ite (fun _ => ?_) fun _ => ?_
        · exact h
        · split
          · refine Keeps.ite (fun _ => ?_) fun _ => ?_
            · refine gotEntries_keeps _ _ _ _ (Keeps.sub (by decide) hp) ?_
              exact hσ1
            · exact hσ1
          · refine gotBytes_keeps _ _ _ _ _ _ (Keeps.sub (by decide) hp) ?_
            exact hσ1
      · refine failRead_keeps _ _ _ (Keeps.sub (by decide) hp) ?_
        refine inc_keeps _ _ _ (Keeps.sub (by decide) hp) ?_
        refine report_keeps _ _ (Keeps.sub (by decide) hp) ?_
        exact hσ1
      · refine failRead_keeps _ _ _ (Keeps.sub (by decide) hp) ?_
        refine inc_keeps _ _ _ (Keeps.sub (by decide) hp) ?_
        refine report_keeps _ _ (Keeps.sub (by decide) hp) ?_
        exact hσ1
      · refine failRead_keeps _ _ _ (Keeps.sub (by decide) hp) ?_
        refine inc_keeps _ _ _ (Keeps.sub (by decide) hp) ?_
        refine report_keeps _ _ (Keeps.sub (by decide) hp) ?_
        exact hσ1

theorem execHostReadCompletion_keeps (tag : Fin 1024) (r : ReadResult) (s : State) :
    ∃ τ, execHostReadCompletion tag r s = .next τ ∧ Keeps [Part.crk, Part.free, Part.fw, Part.glz, Part.hif, Part.jobs, Part.kln, Part.msix, Part.out, Part.reg .hif, Part.reg .klnC, Part.reg .stk, Part.rings, Part.sag, Part.stk, Part.thr] s τ := by
  refine Keeps.exec fun ps σ hp h => ?_
  unfold execHostReadCompletion
  refine ⟨_, rfl, ?_⟩
  refine readCompletion_keeps _ _ _ (Keeps.sub (by decide) hp) ?_
  exact h

theorem readTimeout_keeps {ps : List Part} {σ : State} (tag : Nat) (s : State)
    (hp : ∀ p ∈ [Part.crk, Part.free, Part.fw, Part.glz, Part.hif, Part.jobs, Part.kln, Part.msix, Part.out, Part.reg .hif, Part.reg .klnC, Part.reg .stk, Part.rings, Part.sag, Part.stk, Part.thr], p ∈ ps) (h : Keeps ps σ s) : Keeps ps σ (readTimeout tag s) := by
  unfold readTimeout
  split
  · refine Keeps.ite (fun _ => ?_) fun _ => ?_
    · exact h
    · refine Keeps.set_hif (Or.inr rfl) (Or.inr rfl) (Or.inl (hp _ (by decide))) ?_
      exact h
  · refine Keeps.ite (fun _ => ?_) fun _ => ?_
    · exact h
    · refine Keeps.ite (fun _ => ?_) fun _ => ?_
      · extract_lets σ1
        have hσ1 : Keeps ps σ σ1 := by
          unfold σ1
          refine dropRead_keeps _ _ (Keeps.sub (by decide) hp) ?_
          refine inc_keeps _ _ _ (Keeps.sub (by decide) hp) ?_
          refine report_keeps _ _ (Keeps.sub (by decide) hp) ?_
          exact h
        refine Keeps.ite (fun _ => ?_) fun _ => ?_
        · refine recordErr_keeps _ _ _ (Keeps.sub (by decide) hp) ?_
          exact hσ1
        · refine failRead_keeps _ _ _ (Keeps.sub (by decide) hp) ?_
          exact hσ1
      · refine Keeps.ite (fun _ => ?_) fun _ => ?_
        · extract_lets σ2 σ3
          have hσ2 : Keeps ps σ σ2 := by
            unfold σ2
            refine inc_keeps _ _ _ (Keeps.sub (by decide) hp) ?_
            refine report_keeps _ _ (Keeps.sub (by decide) hp) ?_
            exact h
          refine emit_keeps _ _ (Keeps.sub (by decide) hp) ?_
          refine Keeps.set_hif (Or.inr rfl) (Or.inr rfl) (Or.inl (hp _ (by decide))) ?_
          exact hσ2
        · exact h

theorem execCompletionTimeout_keeps (tag : Fin 1024) (s : State) :
    ∃ τ, execCompletionTimeout tag s = .next τ ∧ Keeps [Part.crk, Part.free, Part.fw, Part.glz, Part.hif, Part.jobs, Part.kln, Part.msix, Part.out, Part.reg .hif, Part.reg .klnC, Part.reg .stk, Part.rings, Part.sag, Part.stk, Part.thr] s τ := by
  refine Keeps.exec fun ps σ hp h => ?_
  unfold execCompletionTimeout
  refine ⟨_, rfl, ?_⟩
  refine readTimeout_keeps _ _ (Keeps.sub (by decide) hp) ?_
  exact h

theorem refuseRequest_keeps {ps : List Part} {σ : State} (k : ReqFault) (s : State)
    (hp : ∀ p ∈ [Part.hif, Part.msix, Part.out, Part.reg .hif], p ∈ ps) (h : Keeps ps σ s) : Keeps ps σ (refuseRequest k s) := by
  unfold refuseRequest
  split
  · refine emit_keeps _ _ (Keeps.sub (by decide) hp) ?_
    refine inc_keeps _ _ _ (Keeps.sub (by decide) hp) ?_
    refine report_keeps _ _ (Keeps.sub (by decide) hp) ?_
    exact h
  · refine emit_keeps _ _ (Keeps.sub (by decide) hp) ?_
    refine inc_keeps _ _ _ (Keeps.sub (by decide) hp) ?_
    refine report_keeps _ _ (Keeps.sub (by decide) hp) ?_
    exact h
  · refine recordErr_keeps _ _ _ (Keeps.sub (by decide) hp) ?_
    refine inc_keeps _ _ _ (Keeps.sub (by decide) hp) ?_
    refine report_keeps _ _ (Keeps.sub (by decide) hp) ?_
    exact h
  · refine Keeps.ite (fun _ => ?_) fun _ => ?_
    · refine report_keeps _ _ (Keeps.sub (by decide) hp) ?_
      exact h
    · exact h

theorem execReceivedRequestFault_keeps (kind : ReqFault) (s : State) :
    ∃ τ, execReceivedRequestFault kind s = .next τ ∧ Keeps [Part.hif, Part.msix, Part.out, Part.reg .hif] s τ := by
  refine Keeps.exec fun ps σ hp h => ?_
  unfold execReceivedRequestFault
  refine ⟨_, rfl, ?_⟩
  refine refuseRequest_keeps _ _ (Keeps.sub (by decide) hp) ?_
  exact h

theorem barAbort_keeps {ps : List Part} {σ : State} (write : Bool) (s : State)
    (hp : ∀ p ∈ [Part.hif, Part.msix, Part.out, Part.reg .hif], p ∈ ps) (h : Keeps ps σ s) : Keeps ps σ (barAbort write s) := by
  unfold barAbort
  refine Keeps.ite (fun _ => ?_) fun _ => ?_
  · refine inc_keeps _ _ _ (Keeps.sub (by decide) hp) ?_
    refine report_keeps _ _ (Keeps.sub (by decide) hp) ?_
    exact h
  · refine refuseRequest_keeps _ _ (Keeps.sub (by decide) hp) ?_
    exact h

theorem execBarAccessAbort_keeps (addr : BitVec 24) (len : BitVec 13) (write : Bool) (s : State) :
    ∃ τ, execBarAccessAbort addr len write s = .next τ ∧ Keeps [Part.hif, Part.msix, Part.out, Part.reg .hif] s τ := by
  refine Keeps.exec fun ps σ hp h => ?_
  unfold execBarAccessAbort
  refine ⟨_, rfl, ?_⟩
  refine Keeps.ite (fun _ => ?_) fun _ => ?_
  · refine barAbort_keeps _ _ (Keeps.sub (by decide) hp) ?_
    exact h
  · exact h

theorem unmappedAccess_keeps {ps : List Part} {σ : State} (ini : Initiator) (addr : Nat) (write : Bool) (s : State)
    (hp : ∀ p ∈ [Part.reads, Part.reg .hif], p ∈ ps) (h : Keeps ps σ s) : Keeps ps σ (unmappedAccess ini addr write s) := by
  unfold unmappedAccess
  refine Keeps.ite (fun _ => ?_) fun _ => ?_
  · exact h
  · refine Keeps.ite (fun _ => ?_) fun _ => ?_
    · refine Keeps.ite (fun _ => ?_) fun _ => ?_
      · exact h
      · refine countUnmapped_keeps _ (Keeps.sub (by decide) hp) ?_
        exact h
    · refine Keeps.ite (fun _ => ?_) fun _ => ?_
      · exact h
      · refine returns_keeps _ _ _ (Keeps.sub (by decide) hp) ?_
        refine countUnmapped_keeps _ (Keeps.sub (by decide) hp) ?_
        refine beginRead_keeps _ _ (Keeps.sub (by decide) hp) ?_
        exact h

theorem execUnmappedPageAccess_keeps (ini : Initiator) (addr : BitVec 24) (write : Bool) (s : State) :
    ∃ τ, execUnmappedPageAccess ini addr write s = .next τ ∧ Keeps [Part.reads, Part.reg .hif] s τ := by
  refine Keeps.exec fun ps σ hp h => ?_
  unfold execUnmappedPageAccess
  refine ⟨_, rfl, ?_⟩
  refine unmappedAccess_keeps _ _ _ _ (Keeps.sub (by decide) hp) ?_
  exact h

theorem writeFailed_keeps {ps : List Part} {σ : State} (n : Nat) (s : State)
    (hp : ∀ p ∈ [Part.msix, Part.out, Part.reg .hif, Part.reg .stk, Part.rings, Part.stk], p ∈ ps) (h : Keeps ps σ s) : Keeps ps σ (writeFailed n s) := by
  unfold writeFailed
  refine ringError_keeps _ _ _ (Keeps.sub (by decide) hp) ?_
  refine recordErr_keeps _ _ _ (Keeps.sub (by decide) hp) ?_
  exact h

theorem wbDone_keeps {ps : List Part} {σ : State} (n : Nat) (good : Bool) (s : State)
    (hp : ∀ p ∈ [Part.msix, Part.out, Part.reg .hif, Part.reg .stk, Part.rings, Part.stk], p ∈ ps) (h : Keeps ps σ s) : Keeps ps σ (wbDone n good s) := by
  unfold wbDone
  refine Keeps.ite (fun _ => ?_) fun _ => ?_
  · refine writeback_keeps _ _ (Keeps.sub (by decide) hp) ?_
    exact h
  · refine Keeps.ite (fun _ => ?_) fun _ => ?_
    · refine writeFailed_keeps _ _ (Keeps.sub (by decide) hp) ?_
      exact h
    · exact h

theorem execIndexWriteback_keeps (ring : Fin 8192) (taken : Bool) (s : State) :
    ∃ τ, execIndexWriteback ring taken s = .next τ ∧ Keeps [Part.msix, Part.out, Part.reg .hif, Part.reg .stk, Part.rings, Part.stk] s τ := by
  refine Keeps.exec fun ps σ hp h => ?_
  unfold execIndexWriteback
  refine ⟨_, rfl, ?_⟩
  refine wbDone_keeps _ _ _ (Keeps.sub (by decide) hp) ?_
  exact h

theorem imodTimeout_keeps {ps : List Part} {σ : State} (n : Nat) (s : State)
    (hp : ∀ p ∈ [Part.msix, Part.out, Part.reg .stk, Part.rings, Part.stk], p ∈ ps) (h : Keeps ps σ s) : Keeps ps σ (imodTimeout n s) := by
  unfold imodTimeout
  extract_lets σ1
  refine Keeps.ite (fun _ => ?_) fun _ => ?_
  · refine signalRing_keeps _ _ (Keeps.sub (by decide) hp) ?_
    exact h
  · exact h

theorem execImodTimeout_keeps (ring : Fin 8192) (s : State) :
    ∃ τ, execImodTimeout ring s = .next τ ∧ Keeps [Part.msix, Part.out, Part.reg .stk, Part.rings, Part.stk] s τ := by
  refine Keeps.exec fun ps σ hp h => ?_
  unfold execImodTimeout
  refine ⟨_, rfl, ?_⟩
  refine imodTimeout_keeps _ _ (Keeps.sub (by decide) hp) ?_
  exact h

theorem completionPost_keeps {ps : List Part} {σ : State} (n : Nat) (good : Bool) (s : State)
    (hp : ∀ p ∈ [Part.fw, Part.msix, Part.out, Part.reg .hif, Part.reg .stk, Part.rings, Part.stk], p ∈ ps) (h : Keeps ps σ s) : Keeps ps σ (completionPost n good s) := by
  unfold completionPost
  split
  · refine Keeps.ite (fun _ => ?_) fun _ => ?_
    · extract_lets σ1 σ2
      have hσ2 : Keeps ps σ σ2 := by
        unfold σ2
        refine Keeps.set_fw (hp _ (by decide)) ?_
        exact h
      refine Keeps.ite (fun _ => ?_) fun _ => ?_
      · refine writeFailed_keeps _ _ (Keeps.sub (by decide) hp) ?_
        exact h
      · split
        · refine postRecords_keeps _ _ _ (Keeps.sub (by decide) hp) ?_
          refine hostWrites_keeps _ _ (Keeps.sub (by decide) hp) ?_
          exact hσ2
        · refine hostWrites_keeps _ _ (Keeps.sub (by decide) hp) ?_
          exact hσ2
    · exact h
  · exact h

theorem execCompletionPost_keeps (ring : Fin 8192) (taken : Bool) (s : State) :
    ∃ τ, execCompletionPost ring taken s = .next τ ∧ Keeps [Part.fw, Part.msix, Part.out, Part.reg .hif, Part.reg .stk, Part.rings, Part.stk] s τ := by
  refine Keeps.exec fun ps σ hp h => ?_
  unfold execCompletionPost
  refine ⟨_, rfl, ?_⟩
  refine completionPost_keeps _ _ _ (Keeps.sub (by decide) hp) ?_
  exact h

theorem ltrRise_keeps {ps : List Part} {σ : State} (s : State)
    (hp : ∀ p ∈ [Part.hif, Part.out, Part.reg .hif], p ∈ ps) (h : Keeps ps σ s) : Keeps ps σ (ltrRise s) := by
  unfold ltrRise
  split
  · refine Keeps.ite (fun _ => ?_) fun _ => ?_
    · refine ltrNow_keeps _ (Keeps.sub (by decide) hp) ?_
      exact h
    · exact h
  · exact h

theorem execLtrRiseTimer_keeps (s : State) :
    ∃ τ, execLtrRiseTimer s = .next τ ∧ Keeps [Part.hif, Part.out, Part.reg .hif] s τ := by
  refine Keeps.exec fun ps σ hp h => ?_
  unfold execLtrRiseTimer
  refine ⟨_, rfl, ?_⟩
  refine ltrRise_keeps _ (Keeps.sub (by decide) hp) ?_
  exact h

theorem ptmRequest_keeps {ps : List Part} {σ : State} (s : State)
    (hp : ∀ p ∈ [Part.hif, Part.out], p ∈ ps) (h : Keeps ps σ s) : Keeps ps σ (ptmRequest s) := by
  unfold ptmRequest
  refine Keeps.ite (fun _ => ?_) fun _ => ?_
  · refine emit_keeps _ _ (Keeps.sub (by decide) hp) ?_
    refine Keeps.set_hif (Or.inr rfl) (Or.inr rfl) (Or.inl (hp _ (by decide))) ?_
    exact h
  · exact h

theorem execPtmRequestTimer_keeps (s : State) :
    ∃ τ, execPtmRequestTimer s = .next τ ∧ Keeps [Part.hif, Part.out] s τ := by
  refine Keeps.exec fun ps σ hp h => ?_
  unfold execPtmRequestTimer
  refine ⟨_, rfl, ?_⟩
  refine ptmRequest_keeps _ (Keeps.sub (by decide) hp) ?_
  exact h

theorem execPtmTimeout_keeps (s : State) :
    ∃ τ, execPtmTimeout s = .next τ ∧ Keeps [Part.clock, Part.hif, Part.msix, Part.out, Part.reg .hif, Part.reg .stk, Part.reg .tim, Part.rings, Part.stk] s τ := by
  refine Keeps.exec fun ps σ hp h => ?_
  unfold execPtmTimeout
  refine ⟨_, rfl, ?_⟩
  refine Keeps.ite (fun _ => ?_) fun _ => ?_
  · extract_lets σ1 σ2
    have hσ2 : Keeps ps σ σ2 := by
      unfold σ2
      refine inc_keeps _ _ _ (Keeps.sub (by decide) hp) ?_
      refine Keeps.set_hif (Or.inr rfl) (Or.inr rfl) (Or.inl (hp _ (by decide))) ?_
      exact h
    refine Keeps.ite (fun _ => ?_) fun _ => ?_
    · refine measureFails_keeps _ (Keeps.sub (by decide) hp) ?_
      exact hσ2
    · exact hσ2
  · exact h

theorem sysRingWrite_keeps {ps : List Part} {σ : State} (addr : Nat) (v : Word) (s : State)
    (hp : ∀ p ∈ [Part.reg (keyKind addr), Part.msix, Part.out, Part.reg .hif], p ∈ ps) (h : Keeps ps σ s) : Keeps ps σ (sysRingWrite addr v s) := by
  unfold sysRingWrite
  refine Keeps.ite (fun _ => ?_) fun _ => ?_
  · refine recordErr_keeps _ _ _ (Keeps.sub (by simp) hp) ?_
    exact h
  · refine plainPut_keeps _ _ _ (Keeps.sub (by simp) hp) ?_
    exact h

end Sys2Proof.Machine
end

