-- ==== Sys2Proof/Laws/KeepsStatus.lean ====
section
/-! SUPPORT. What the operations of Machine/Status.lean change, and what they keep. -/

namespace Sys2Proof.Machine
open Sys2Proof

theorem openWord_keeps {ps : List Part} {s0 : State} (addr : Nat) (s : State)
    (hp : ∀ p ∈ [Part.free, Part.reg .clk], p ∈ ps) (h : Keeps ps s0 s) (u : Nat × State) (hu : openWord addr s = some u) : Keeps ps s0 u.2 := by
  have hd : ∀ w, Keeps ps s0 (draw w s).2 := fun w => draw_keeps w s (Keeps.sub (by decide) hp) h
  have hw : ∀ k v w, keyKind k = .clk → Keeps ps s0 (wn k v (draw w s).2) := fun k v w hk =>
    wn_keeps _ _ _ (Keeps.sub (by rw [hk]; decide) hp) (hd w)
  unfold openWord at hu
  dsimp only at hu
  repeat' split at hu
  all_goals first
    | (simp at hu; done)
    | (cases hu; exact hd 0)
    | (cases hu; exact hw _ _ 0 (by simp))

theorem readWord_keeps {ps : List Part} {σ : State} (ini : Initiator) (addr : Nat) (s : State)
    (hp : ∀ p ∈ [Part.free, Part.reg .clk], p ∈ ps) (h : Keeps ps σ s) : Keeps ps σ (readWord ini addr s).2 := by
  unfold readWord
  refine Keeps.ite_snd (fun _ => h) fun _ => Keeps.ite_snd (fun _ => h) fun _ => ?_
  split
  · exact openWord_keeps _ _ (Keeps.sub (by decide) hp) h _ (by assumption)
  · split <;> exact h

theorem capturePif_keeps {ps : List Part} {σ : State} (ini : Initiator) (c : Nat) (s : State)
    (hp : ∀ p ∈ [Part.reads], p ∈ ps) (h : Keeps ps σ s) : Keeps ps σ (capturePif ini c s) := by
  unfold capturePif
  extract_lets σ1
  refine capture64_keeps _ _ _ _ (Keeps.sub (by decide) hp) ?_
  refine capture_keeps _ _ _ _ (Keeps.sub (by decide) hp) ?_
  refine capture64_keeps _ _ _ _ (Keeps.sub (by decide) hp) ?_
  exact h

theorem captureAxis_keeps {ps : List Part} {σ : State} (ini : Initiator) (a : Nat) (s : State)
    (hp : ∀ p ∈ [Part.reads], p ∈ ps) (h : Keeps ps σ s) : Keeps ps σ (captureAxis ini a s) := by
  unfold captureAxis
  extract_lets σ1
  refine capture_keeps _ _ _ _ (Keeps.sub (by decide) hp) ?_
  refine capture64_keeps _ _ _ _ (Keeps.sub (by decide) hp) ?_
  refine capture64_keeps _ _ _ _ (Keeps.sub (by decide) hp) ?_
  exact h

theorem capturePlane_keeps {ps : List Part} {σ : State} (ini : Initiator) (p : Nat) (s : State)
    (hp : ∀ q ∈ [Part.reads], q ∈ ps) (h : Keeps ps σ s) : Keeps ps σ (capturePlane ini p s) := by
  unfold capturePlane
  refine capture_keeps _ _ _ _ (Keeps.sub (by decide) hp) ?_
  refine capture_keeps _ _ _ _ (Keeps.sub (by decide) hp) ?_
  refine capture_keeps _ _ _ _ (Keeps.sub (by decide) hp) ?_
  exact h

theorem captureCam_keeps {ps : List Part} {σ : State} (ini : Initiator) (k : Nat) (s : State)
    (hp : ∀ p ∈ [Part.reads], p ∈ ps) (h : Keeps ps σ s) : Keeps ps σ (captureCam ini k s) := by
  unfold captureCam
  refine capture_keeps _ _ _ _ (Keeps.sub (by decide) hp) ?_
  refine capture64_keeps _ _ _ _ (Keeps.sub (by decide) hp) ?_
  refine capture64_keeps _ _ _ _ (Keeps.sub (by decide) hp) ?_
  exact h

theorem captureNs_keeps {ps : List Part} {σ : State} (ini : Initiator) (s : State)
    (hp : ∀ p ∈ [Part.reads], p ∈ ps) (h : Keeps ps σ s) : Keeps ps σ (captureNs ini s) := by
  unfold captureNs
  refine capture_keeps _ _ _ _ (Keeps.sub (by decide) hp) ?_
  refine capture_keeps _ _ _ _ (Keeps.sub (by decide) hp) ?_
  exact h

theorem captureX_keeps {ps : List Part} {σ : State} (ini : Initiator) (s : State)
    (hp : ∀ p ∈ [Part.reads], p ∈ ps) (h : Keeps ps σ s) : Keeps ps σ (captureX ini s) := by
  unfold captureX
  refine capture_keeps _ _ _ _ (Keeps.sub (by decide) hp) ?_
  refine capture_keeps _ _ _ _ (Keeps.sub (by decide) hp) ?_
  refine capture_keeps _ _ _ _ (Keeps.sub (by decide) hp) ?_
  refine capture64_keeps _ _ _ _ (Keeps.sub (by decide) hp) ?_
  exact h

theorem captures_keeps {ps : List Part} {σ : State} (ini : Initiator) (addr : Nat) (s : State)
    (hp : ∀ p ∈ [Part.reads], p ∈ ps) (h : Keeps ps σ s) : Keeps ps σ (captures ini addr s) := by
  unfold captures
  extract_lets σ1
  split
  · refine Keeps.ite (fun _ => ?_) fun _ => ?_
    · refine Keeps.foldl ?_ ?_
      · intro τ2 χ3 hτ4
        refine capturePif_keeps _ _ _ (Keeps.sub (by decide) hp) ?_
        exact hτ4
      · exact h
    · exact h
  · refine Keeps.ite (fun _ => ?_) fun _ => ?_
    · refine capturePif_keeps _ _ _ (Keeps.sub (by decide) hp) ?_
      exact h
    · exact h
  · refine Keeps.ite (fun _ => ?_) fun _ => ?_
    · refine Keeps.foldl ?_ ?_
      · intro τ5 χ6 hτ7
        refine captureAxis_keeps _ _ _ (Keeps.sub (by decide) hp) ?_
        exact hτ7
      · exact h
    · exact h
  · refine Keeps.ite (fun _ => ?_) fun _ => ?_
    · refine captureAxis_keeps _ _ _ (Keeps.sub (by decide) hp) ?_
      exact h
    · exact h
  · refine Keeps.ite (fun _ => ?_) fun _ => ?_
    · refine capturePlane_keeps _ _ _ (Keeps.sub (by decide) hp) ?_
      exact h
    · exact h
  · refine Keeps.ite (fun _ => ?_) fun _ => ?_
    · refine captureCam_keeps _ _ _ (Keeps.sub (by decide) hp) ?_
      exact h
    · exact h
  · refine Keeps.ite (fun _ => ?_) fun _ => ?_
    · refine captureNs_keeps _ _ (Keeps.sub (by decide) hp) ?_
      exact h
    · refine Keeps.ite (fun _ => ?_) fun _ => ?_
      · refine captureX_keeps _ _ (Keeps.sub (by decide) hp) ?_
        exact h
      · exact h
  · exact h

theorem snapWord_keeps {ps : List Part} {σ : State} (ini : Initiator) (addr : Nat) (s : State)
    (hp : ∀ p ∈ [Part.free, Part.reg .clk], p ∈ ps) (h : Keeps ps σ s) : Keeps ps σ (snapWord ini addr s).2 := by
  unfold snapWord
  split
  · refine Keeps.ite_snd (fun _ => ?_) fun _ => ?_
    · exact h
    · refine readWord_keeps _ _ _ (Keeps.sub (by decide) hp) ?_
      exact h
  · refine readWord_keeps _ _ _ (Keeps.sub (by decide) hp) ?_
    exact h

theorem plainRead_keeps {ps : List Part} {σ : State} (ini : Initiator) (addr : Nat) (s : State)
    (hp : ∀ p ∈ [Part.free, Part.reads, Part.reg .clk], p ∈ ps) (h : Keeps ps σ s) : Keeps ps σ (plainRead ini addr s) := by
  unfold plainRead
  extract_lets σ1
  have hσ12 : Keeps ps σ σ1.2 := by
    unfold σ1
    refine snapWord_keeps _ _ _ (Keeps.sub (by decide) hp) ?_
    exact h
  refine returns_keeps _ _ _ (Keeps.sub (by decide) hp) ?_
  refine captures_keeps _ _ _ (Keeps.sub (by decide) hp) ?_
  exact hσ12

theorem dwordRead_keeps {ps : List Part} {σ : State} (ini : Initiator) (addr : Nat) (s : State)
    (hp : ∀ p ∈ [Part.free, Part.reads, Part.reg .clk, Part.sag], p ∈ ps) (h : Keeps ps σ s) : Keeps ps σ (dwordRead ini addr s) := by
  unfold dwordRead
  refine Keeps.ite (fun _ => ?_) fun _ => ?_
  · refine nonceRead_keeps _ _ (Keeps.sub (by decide) hp) ?_
    exact h
  · refine plainRead_keeps _ _ _ (Keeps.sub (by decide) hp) ?_
    exact h

theorem lowRead_keeps {ps : List Part} {s0 : State} (ini : Initiator) (addr : Nat) (s : State)
    (hp : ∀ p ∈ [Part.free, Part.reads, Part.reg .clk, Part.sag], p ∈ ps) (h : Keeps ps s0 s) : Keeps ps s0 (lowRead ini addr s) := by
  unfold lowRead
  refine Keeps.ite (fun _ => ?_) fun _ => dwordRead_keeps _ _ _ (Keeps.sub (by decide) hp) h
  extract_lets hi s1
  exact dwordRead_keeps _ _ _ (Keeps.sub (by decide) hp) (Keeps.set_reads (hp _ (by decide))
    (readWord_keeps _ _ _ (Keeps.sub (by decide) hp) h))

theorem highRead_keeps {ps : List Part} {s0 : State} (ini : Initiator) (addr : Nat) (s : State)
    (hp : ∀ p ∈ [Part.free, Part.reads, Part.reg .clk, Part.sag], p ∈ ps) (h : Keeps ps s0 s) : Keeps ps s0 (highRead ini addr s) := by
  unfold highRead
  extract_lets
  split
  · exact returns_keeps _ _ _ (Keeps.sub (by decide) hp) (Keeps.set_reads (hp _ (by decide)) h)
  · exact dwordRead_keeps _ _ _ (Keeps.sub (by decide) hp) h

theorem regRead_keeps {ps : List Part} {σ : State} (ini : Initiator) (addr : Nat) (s : State)
    (hp : ∀ p ∈ [Part.free, Part.reads, Part.reg .clk, Part.sag], p ∈ ps) (h : Keeps ps σ s) : Keeps ps σ (regRead ini addr s) := by
  unfold regRead
  refine Keeps.ite (fun _ => ?_) fun _ => ?_
  · refine highRead_keeps _ _ _ (Keeps.sub (by decide) hp) ?_
    exact h
  · refine lowRead_keeps _ _ _ (Keeps.sub (by decide) hp) ?_
    exact h

theorem bar0Read_keeps {ps : List Part} {σ : State} (ini : Initiator) (addr : Nat) (s : State)
    (hp : ∀ p ∈ [Part.free, Part.reads, Part.reg .clk, Part.reg .hif, Part.sag], p ∈ ps) (h : Keeps ps σ s) : Keeps ps σ (bar0Read ini addr s) := by
  unfold bar0Read
  refine Keeps.ite (fun _ => ?_) fun _ => ?_
  · refine Keeps.ite (fun _ => ?_) fun _ => ?_
    · refine returns_keeps _ _ _ (Keeps.sub (by decide) hp) ?_
      exact h
    · exact h
  · refine guardRead_keeps _ _ _ _ ?_ (Keeps.sub (by decide) hp) ?_
    · intro τ1 hτ2
      refine regRead_keeps _ _ _ (Keeps.sub (by decide) hp) ?_
      exact hτ2
    · exact h

theorem readRun_keeps {ps : List Part} {σ : State} (ini : Initiator) (y0 : Nat) (y1 : Nat) (s : State)
    (hp : ∀ p ∈ [Part.free, Part.reads, Part.reg .clk, Part.reg .hif, Part.sag], p ∈ ps) (h : Keeps ps σ s) : Keeps ps σ (readRun ini y0 y1 s) := by
  induction y1 generalizing ini y0 s with
  | zero =>
    exact h
  | succ m ih =>
    unfold readRun
    refine ih _ _ _ ?_
    refine bar0Read_keeps _ _ _ (Keeps.sub (by decide) hp) ?_
    exact h

theorem readDwords_keeps {ps : List Part} {σ : State} (ini : Initiator) (addr : Nat) (n : Nat) (s : State)
    (hp : ∀ p ∈ [Part.free, Part.hif, Part.msix, Part.out, Part.reads, Part.reg .clk, Part.reg .hif, Part.sag], p ∈ ps) (h : Keeps ps σ s) : Keeps ps σ (readDwords ini addr n s) := by
  unfold readDwords
  refine Keeps.ite (fun _ => ?_) fun _ => ?_
  · refine readRun_keeps _ _ _ _ (Keeps.sub (by decide) hp) ?_
    refine beginRead_keeps _ _ (Keeps.sub (by decide) hp) ?_
    exact h
  · refine Keeps.ite (fun _ => ?_) fun _ => ?_
    · refine barAbort_keeps _ _ (Keeps.sub (by decide) hp) ?_
      exact h
    · exact h

theorem readAt_keeps {ps : List Part} {σ : State} (ini : Initiator) (addr : BitVec 24) (s : State)
    (hp : ∀ p ∈ [Part.free, Part.hif, Part.msix, Part.out, Part.reads, Part.reg .clk, Part.reg .hif, Part.sag], p ∈ ps) (h : Keeps ps σ s) : Keeps ps σ (readAt ini addr s) := by
  unfold readAt
  refine readDwords_keeps _ _ _ _ (Keeps.sub (by decide) hp) ?_
  exact h

theorem execLowWordRead_keeps (ini : Initiator) (addr : BitVec 24) (more : BitVec 4) (s : State) :
    ∃ τ, execLowWordRead ini addr more s = .next τ ∧ Keeps [Part.free, Part.hif, Part.msix, Part.out, Part.reads, Part.reg .clk, Part.reg .hif, Part.sag] s τ := by
  refine Keeps.exec fun ps σ hp h => ?_
  unfold execLowWordRead
  refine ⟨_, rfl, ?_⟩
  refine readDwords_keeps _ _ _ _ (Keeps.sub (by decide) hp) ?_
  exact h

theorem execHighWordRead_keeps (ini : Initiator) (addr : BitVec 24) (s : State) :
    ∃ τ, execHighWordRead ini addr s = .next τ ∧ Keeps [Part.free, Part.hif, Part.msix, Part.out, Part.reads, Part.reg .clk, Part.reg .hif, Part.sag] s τ := by
  refine Keeps.exec fun ps σ hp h => ?_
  unfold execHighWordRead
  refine ⟨_, rfl, ?_⟩
  refine readAt_keeps _ _ _ (Keeps.sub (by decide) hp) ?_
  exact h

theorem execSnapshotRead_keeps (ini : Initiator) (addr : BitVec 24) (s : State) :
    ∃ τ, execSnapshotRead ini addr s = .next τ ∧ Keeps [Part.free, Part.hif, Part.msix, Part.out, Part.reads, Part.reg .clk, Part.reg .hif, Part.sag] s τ := by
  refine Keeps.exec fun ps σ hp h => ?_
  unfold execSnapshotRead
  refine ⟨_, rfl, ?_⟩
  refine readAt_keeps _ _ _ (Keeps.sub (by decide) hp) ?_
  exact h

theorem execTimNsRead_keeps (ini : Initiator) (s : State) :
    ∃ τ, execTimNsRead ini s = .next τ ∧ Keeps [Part.free, Part.reads, Part.reg .clk, Part.reg .hif, Part.sag] s τ := by
  refine Keeps.exec fun ps σ hp h => ?_
  unfold execTimNsRead
  refine ⟨_, rfl, ?_⟩
  refine bar0Read_keeps _ _ _ (Keeps.sub (by decide) hp) ?_
  refine beginRead_keeps _ _ (Keeps.sub (by decide) hp) ?_
  exact h

theorem execTimXsnapRead_keeps (ini : Initiator) (s : State) :
    ∃ τ, execTimXsnapRead ini s = .next τ ∧ Keeps [Part.free, Part.reads, Part.reg .clk, Part.reg .hif, Part.sag] s τ := by
  refine Keeps.exec fun ps σ hp h => ?_
  unfold execTimXsnapRead
  refine ⟨_, rfl, ?_⟩
  refine bar0Read_keeps _ _ _ (Keeps.sub (by decide) hp) ?_
  refine beginRead_keeps _ _ (Keeps.sub (by decide) hp) ?_
  exact h

end Sys2Proof.Machine
end

