-- ==== Sys2Proof/Laws/KeepsRegisters.lean ====
section
/-! SUPPORT. What the operations of Machine/Registers.lean change, and what they keep. -/

namespace Sys2Proof.Machine
open Sys2Proof

theorem irqStatWrite_keeps {ps : List Part} {σ : State} (n : Nat) (v : Word) (s : State)
    (hp : ∀ p ∈ [Part.reg (pageKind n)], p ∈ ps) (h : Keeps ps σ s) : Keeps ps σ (irqStatWrite n v s) := by
  unfold irqStatWrite
  refine updPage_keeps _ _ _ (Keeps.sub (by simp) hp) ?_
  exact h

theorem irqEnWrite_keeps {ps : List Part} {σ : State} (n : Nat) (v : Word) (s : State)
    (hp : ∀ p ∈ [Part.reg (pageKind n), Part.msix, Part.out], p ∈ ps) (h : Keeps ps σ s) : Keeps ps σ (irqEnWrite n v s) := by
  unfold irqEnWrite
  refine setPageIrq_keeps _ _ _ (Keeps.sub (by simp) hp) ?_
  exact h

theorem irqSetWrite_keeps {ps : List Part} {σ : State} (n : Nat) (v : Word) (s : State)
    (hp : ∀ p ∈ [Part.reg (pageKind n), Part.msix, Part.out], p ∈ ps) (h : Keeps ps σ s) : Keeps ps σ (irqSetWrite n v s) := by
  unfold irqSetWrite
  refine raiseBits_keeps _ _ _ (Keeps.sub (by simp) hp) ?_
  exact h

theorem pgErrWrite_keeps {ps : List Part} {σ : State} (n : Nat) (v : Word) (s : State)
    (hp : ∀ p ∈ [Part.reg (pageKind n)], p ∈ ps) (h : Keeps ps σ s) : Keeps ps σ (pgErrWrite n v s) := by
  unfold pgErrWrite
  refine Keeps.ite (fun _ => ?_) fun _ => ?_
  · refine updPage_keeps _ _ _ (Keeps.sub (by simp) hp) ?_
    exact h
  · exact h

theorem discardShadow_regs {ps : List Part} {s0 s : State} (n : Nat) (hp : Part.reg (pageKind n) ∈ ps) (h : Keeps ps s0 s) :
    Keeps ps s0 { s with regs := { s.regs with shd := tfilter s.regs.shd fun k => !onPage n k } } := by
  refine h.regs (K := pageKind n) hp rfl ⟨rfl, rfl, rfl⟩ (fun a ha => ⟨rfl, ?_⟩) fun _ _ => rfl
  have hd : onPage n a = false := decide_eq_false fun e => ha (by rw [keyKind, e])
  simp only [rdShadow, tfind_tfilter, hd]
  rfl

theorem discardShadow_keeps {ps : List Part} {s0 : State} (n : Nat) (s : State) (hp : ∀ p ∈ [Part.reg (pageKind n), Part.ipl, Part.reg .tilC], p ∈ ps)
    (h : Keeps ps s0 s) : Keeps ps s0 (discardShadow n s) := by
  unfold discardShadow
  extract_lets s1 r s2
  have h1 : Keeps ps s0 s2 := updPage_keeps _ _ _ (Keeps.sub (by simp) hp)
    (discardShadow_regs n (hp _ (by simp)) (notePage_keeps _ _ (Keeps.sub (by simp) hp) h))
  split
  · exact Keeps.foldl (fun t x ht => wf_keeps _ _ _ _ _ (Keeps.sub (by simp) hp) ht) h1
  · exact updCam_keeps _ _ _ (Keeps.sub (by simp) hp) h1
  · exact h1

theorem holdCleared_keeps {ps : List Part} {σ : State} (n : Nat) (s : State)
    (hp : ∀ p ∈ [Part.reg (pageKind n), Part.cal, Part.crk, Part.entries, Part.fw, Part.gln, Part.glz, Part.ipl, Part.jobs, Part.kln, Part.memory, Part.msix, Part.out, Part.ports, Part.reg .cal, Part.reg .klnC, Part.reg .stk, Part.reg .tilC, Part.reg .tilE, Part.rings, Part.stk, Part.thr, Part.til], p ∈ ps) (h : Keeps ps σ s) : Keeps ps σ (holdCleared n s) := by
  unfold holdCleared
  extract_lets σ1 σ2
  have hσ2 : Keeps ps σ σ2 := by
    unfold σ2
    refine Keeps.ite (fun _ => ?_) fun _ => ?_
    · refine Keeps.ite (fun _ => ?_) fun _ => ?_
      · refine armBar_keeps _ (Keeps.sub (by simp) hp) ?_
        exact h
      · refine idleLatch_keeps _ _ (Keeps.sub (by simp) hp) ?_
        exact h
    · exact h
  refine Keeps.ite (fun _ => ?_) fun _ => ?_
  · exact h
  · split
    · refine idleTables_keeps _ _ (Keeps.sub (by simp) hp) ?_
      exact hσ2
    · refine Keeps.ite (fun _ => ?_) fun _ => ?_
      · refine idleEntries_keeps _ _ (Keeps.sub (by simp) hp) ?_
        exact hσ2
      · exact hσ2
    · refine Keeps.ite (fun _ => ?_) fun _ => ?_
      · refine armBar_keeps _ (Keeps.sub (by simp) hp) ?_
        exact hσ2
      · exact hσ2
    · exact hσ2

theorem shadowWrite_keeps {ps : List Part} {σ : State} (n : Nat) (v : Word) (s : State)
    (hp : ∀ p ∈ [Part.reg (pageKind n), Part.cal, Part.crk, Part.entries, Part.fw, Part.gln, Part.glz, Part.ipl, Part.jobs, Part.kln, Part.memory, Part.msix, Part.out, Part.ports, Part.reg .cal, Part.reg .klnC, Part.reg .stk, Part.reg .tilC, Part.reg .tilE, Part.rings, Part.stk, Part.thr, Part.til], p ∈ ps) (h : Keeps ps σ s) : Keeps ps σ (shadowWrite n v s) := by
  unfold shadowWrite
  extract_lets σ1 σ2 σ3
  have hσ2 : Keeps ps σ σ2 := by
    unfold σ2
    refine updPage_keeps _ _ _ (Keeps.sub (by simp) hp) ?_
    refine notePage_keeps _ _ (Keeps.sub (by simp) hp) ?_
    exact h
  have hσ3 : Keeps ps σ σ3 := by
    unfold σ3
    refine Keeps.ite (fun _ => ?_) fun _ => ?_
    · refine discardShadow_keeps _ _ (Keeps.sub (by simp) hp) ?_
      exact hσ2
    · exact hσ2
  refine Keeps.ite (fun _ => ?_) fun _ => ?_
  · exact hσ3
  · refine holdCleared_keeps _ _ (Keeps.sub (by simp) hp) ?_
    exact hσ3

theorem holdRelWrite_keeps {ps : List Part} {σ : State} (ini : Initiator) (v : Word) (s : State)
    (hp : ∀ p ∈ (allRegs ++ [Part.cal, Part.crk, Part.entries, Part.fw, Part.gln, Part.glz, Part.ipl, Part.jobs, Part.kln, Part.memory, Part.msix, Part.out, Part.ports, Part.rings, Part.stk, Part.thr, Part.til]), p ∈ ps) (h : Keeps ps σ s) : Keeps ps σ (holdRelWrite ini v s) := by
  unfold holdRelWrite
  extract_lets cmd pages s1
  have h1 : Keeps ps σ s1 := Keeps.foldl (fun t n ht => updPage_keeps _ _ _ (Keeps.sub (by simp [mem_allRegs]) hp)
    (notePage_keeps _ _ (Keeps.sub (by simp [mem_allRegs]) hp) ht)) h
  refine Keeps.ite (fun _ => recordErr_keeps _ _ _ (Keeps.sub (by decide) hp) h) fun _ => ?_
  exact Keeps.foldl (fun t n ht => holdCleared_keeps _ _ (Keeps.sub (by simp [mem_allRegs]) hp) ht) h1

theorem enChanged_keeps {ps : List Part} {σ : State} (n : Nat) (s : State)
    (hp : ∀ p ∈ [Part.crk, Part.free, Part.jobs, Part.kln, Part.msix, Part.out, Part.pif, Part.ports, Part.reg .hlk, Part.reg .klnC, Part.reg .klnP, Part.reg .pifCh, Part.reg .stk, Part.rings, Part.stk, Part.win], p ∈ ps) (h : Keeps ps σ s) : Keeps ps σ (enChanged n s) := by
  unfold enChanged
  split
  · refine portRefresh_keeps _ _ (Keeps.sub (by decide) hp) ?_
    exact h
  · refine pifRefresh_keeps _ _ (Keeps.sub (by decide) hp) ?_
    exact h
  · exact h

theorem stookEmpty_keeps {ps : List Part} {σ : State} (s : State)
    (hp : ∀ p ∈ [Part.msix, Part.out, Part.reg .stk, Part.rings, Part.stk], p ∈ ps) (h : Keeps ps σ s) : Keeps ps σ (stookEmpty s) := by
  unfold stookEmpty
  extract_lets σ1 σ2 σ3
  have hσ2 : Keeps ps σ σ2 := by
    unfold σ2
    refine Keeps.foldl ?_ ?_
    · intro τ7 χ8 hτ9
      refine Keeps.foldl ?_ ?_
      · intro τ10 χ11 hτ12
        refine dropEvent_keeps _ _ _ (Keeps.sub (by decide) hp) ?_
        exact hτ12
      · exact hτ9
    · refine Keeps.set_stk (hp _ (by decide)) ?_
      exact h
  refine Keeps.foldl ?_ ?_
  · intro τ4 χ5 hτ6
    refine losePkt_keeps _ _ (Keeps.sub (by decide) hp) ?_
    exact hτ6
  · refine Keeps.set_stk (hp _ (by decide)) ?_
    exact hσ2

theorem unitReset_keeps {ps : List Part} {σ : State} (n : Nat) (s : State)
    (hp : ∀ p ∈ [Part.crk, Part.fans, Part.free, Part.gln, Part.jobs, Part.kln, Part.msix, Part.out, Part.pif, Part.ports, Part.reg .fan, Part.reg .hlk, Part.reg .klnC, Part.reg .klnP, Part.reg .pifCh, Part.reg .stk, Part.reg .tilE, Part.reg .trm, Part.rings, Part.stk, Part.trm, Part.win], p ∈ ps) (h : Keeps ps σ s) : Keeps ps σ (unitReset n s) := by
  unfold unitReset
  split
  · refine portRefresh_keeps _ _ (Keeps.sub (by decide) hp) ?_
    refine headOff_keeps _ _ (Keeps.sub (by decide) hp) ?_
    exact h
  · refine pifRefresh_keeps _ _ (Keeps.sub (by decide) hp) ?_
    exact h
  · refine fansOff_keeps _ (Keeps.sub (by decide) hp) ?_
    exact h
  · refine stookEmpty_keeps _ (Keeps.sub (by decide) hp) ?_
    exact h
  · refine trmOff_keeps _ (Keeps.sub (by decide) hp) ?_
    exact h
  · refine Keeps.set_gln (hp _ (by decide)) ?_
    exact h
  · refine wf_keeps _ _ _ _ _ (Keeps.sub (by simp) hp) ?_
    exact h
  · exact h

theorem softResetStart_regs {ps : List Part} {s0 s : State} (n : Nat) (f : Nat → Bool) (v : Sagger) (hp : Part.reg (pageKind n) ∈ ps)
    (hs : Part.sag ∈ ps) (hf : v.fuses = s.sag.fuses) (h : Keeps ps s0 s) : Keeps ps s0 { s with
      regs := { s.regs with act := tfilter s.regs.act fun k => !(decide (keyAddr k / 0x1000 = n) && f k) }, sag := v } := by
  have hd : ∀ {a : Nat}, keyKind a ≠ pageKind n → ¬ keyAddr a / 0x1000 = n := by
    intro a ha e
    exact ha (by rw [keyKind, e])
  refine Keeps.set_sag (s := { s with
      regs := { s.regs with act := tfilter s.regs.act fun k => !(decide (keyAddr k / 0x1000 = n) && f k) } }) hf hs ?_
  refine h.regs (K := pageKind n) hp rfl ⟨rfl, rfl, rfl⟩ (fun a ha => ⟨?_, ?_⟩) fun _ _ => rfl
  · simp [rd, tfind_tfilter, hd ha]
  · simp [rdShadow, rd, tfind_tfilter, hd ha]

theorem softResetStart_keeps {ps : List Part} {s0 : State} (n : Nat) (s : State) (hp : ∀ p ∈ [Part.reg (pageKind n), Part.crk, Part.fans, Part.free, Part.gln, Part.ipl, Part.jobs, Part.kln, Part.msix, Part.out, Part.pif, Part.ports, Part.reg .fan, Part.reg .hlk, Part.reg .klnC, Part.reg .klnP, Part.reg .pifCh, Part.reg .stk, Part.reg .tilC, Part.reg .tilE, Part.reg .trm, Part.rings, Part.sag, Part.stk, Part.trm, Part.win], p ∈ ps)
    (h : Keeps ps s0 s) : Keeps ps s0 (softResetStart n s) := by
  unfold softResetStart
  extract_lets mine isB act r sg s1
  have hr : Part.reg (pageKind n) ∈ ps := hp _ (by simp)
  have h1 : Keeps ps s0 s1 := discardShadow_keeps _ _ (Keeps.sub (by simp) hp)
    (softResetStart_regs n isB _ hr (hp _ (by simp)) rfl h)
  exact unitReset_keeps _ _ (Keeps.sub (by simp) hp) (updPage_keeps _ _ _ (Keeps.sub (by simp) hp) h1)

theorem pgCtrlWrite_keeps {ps : List Part} {σ : State} (n : Nat) (v : Word) (s : State)
    (hp : ∀ p ∈ [Part.reg (pageKind n), Part.crk, Part.fans, Part.free, Part.gln, Part.ipl, Part.jobs, Part.kln, Part.msix, Part.out, Part.pif, Part.ports, Part.reg .fan, Part.reg .hlk, Part.reg .klnC, Part.reg .klnP, Part.reg .pifCh, Part.reg .stk, Part.reg .tilC, Part.reg .tilE, Part.reg .trm, Part.rings, Part.sag, Part.stk, Part.trm, Part.win], p ∈ ps) (h : Keeps ps σ s) : Keeps ps σ (pgCtrlWrite n v s) := by
  unfold pgCtrlWrite
  extract_lets σ1 σ2
  refine Keeps.ite (fun _ => ?_) fun _ => ?_
  · refine Keeps.ite (fun _ => ?_) fun _ => ?_
    · exact h
    · unfold σ2
      refine updPage_keeps _ _ _ (Keeps.sub (by simp) hp) ?_
      exact h
  · refine Keeps.ite (fun _ => ?_) fun _ => ?_
    · refine Keeps.ite (fun _ => ?_) fun _ => ?_
      · refine recordErr_keeps _ _ _ (Keeps.sub (by simp) hp) ?_
        exact h
      · refine softResetStart_keeps _ _ (Keeps.sub (by simp) hp) ?_
        unfold σ2
        refine updPage_keeps _ _ _ (Keeps.sub (by simp) hp) ?_
        exact h
    · refine enChanged_keeps _ _ (Keeps.sub (by simp) hp) ?_
      refine updPage_keeps _ _ _ (Keeps.sub (by simp) hp) ?_
      unfold σ2
      refine updPage_keeps _ _ _ (Keeps.sub (by simp) hp) ?_
      exact h

theorem softResetDone_keeps {ps : List Part} {σ : State} (n : Nat) (s : State)
    (hp : ∀ p ∈ [Part.reg (pageKind n)], p ∈ ps) (h : Keeps ps σ s) : Keeps ps σ (softResetDone n s) := by
  unfold softResetDone
  refine updPage_keeps _ _ _ (Keeps.sub (by simp) hp) ?_
  exact h

theorem headerWrite_keeps {ps : List Part} {σ : State} (n : Nat) (off : Nat) (v : Word) (s : State)
    (hp : ∀ p ∈ ([Part.reg (pageKind n), Part.cal, Part.crk, Part.entries, Part.fans, Part.free, Part.fw, Part.gln, Part.glz, Part.ipl, Part.jobs, Part.kln, Part.memory, Part.msix, Part.out, Part.pif, Part.ports, Part.reg .cal, Part.reg .fan, Part.reg .hlk, Part.reg .klnC, Part.reg .klnP, Part.reg .pifCh, Part.reg .stk] ++ [Part.reg .tilC, Part.reg .tilE, Part.reg .trm, Part.rings, Part.sag, Part.stk, Part.thr, Part.til, Part.trm, Part.win]), p ∈ ps) (h : Keeps ps σ s) : Keeps ps σ (headerWrite n off v s) := by
  unfold headerWrite
  split
  · refine pgCtrlWrite_keeps _ _ _ (Keeps.sub (by simp) hp) ?_
    exact h
  · refine irqEnWrite_keeps _ _ _ (Keeps.sub (by simp) hp) ?_
    exact h
  · refine irqStatWrite_keeps _ _ _ (Keeps.sub (by simp) hp) ?_
    exact h
  · refine irqSetWrite_keeps _ _ _ (Keeps.sub (by simp) hp) ?_
    exact h
  · refine shadowWrite_keeps _ _ _ (Keeps.sub (by simp) hp) ?_
    exact h
  · refine pgErrWrite_keeps _ _ _ (Keeps.sub (by simp) hp) ?_
    exact h
  · exact h

theorem restarts_keeps {ps : List Part} {σ : State} (k : PageKind) (i : Nat) (off : Nat) (v : Word) (s : State)
    (hp : ∀ p ∈ [Part.pif, Part.reg .klnC, Part.reg .pifCh, Part.reg .tilE, Part.stk, Part.thm], p ∈ ps) (h : Keeps ps σ s) : Keeps ps σ (restarts k i off v s) := by
  unfold restarts
  extract_lets σ1 σ2 σ3
  split
  · refine Keeps.ite (fun _ => ?_) fun _ => ?_
    · refine wn_keeps _ _ _ (Keeps.sub (by simp) hp) ?_
      exact h
    · exact h
  · refine Keeps.ite (fun _ => ?_) fun _ => ?_
    · refine wf_keeps _ _ _ _ _ (Keeps.sub (by simp) hp) ?_
      exact h
    · exact h
  · refine Keeps.ite (fun _ => ?_) fun _ => ?_
    · refine wf_keeps _ _ _ _ _ (Keeps.sub (by simp) hp) ?_
      refine updPif_keeps _ _ _ (Keeps.sub (by decide) hp) ?_
      exact h
    · exact h
  · refine Keeps.ite (fun _ => ?_) fun _ => ?_
    · refine Keeps.set_stk (hp _ (by decide)) ?_
      exact h
    · exact h
  · refine Keeps.ite (fun _ => ?_) fun _ => ?_
    · refine Keeps.set_thm (hp _ (by decide)) ?_
      exact h
    · exact h
  · exact h

theorem paceCfgWrite_keeps {ps : List Part} {σ : State} (k : Nat) (addr : Nat) (v : Word) (s : State)
    (hp : ∀ p ∈ [Part.reg (keyKind addr), Part.fw, Part.ipl, Part.kln, Part.memory, Part.msix, Part.out, Part.reg .cal, Part.reg .klnC, Part.reg .klnP, Part.reg .stk, Part.reg .tilC, Part.reg .tilE, Part.rings, Part.stk, Part.til, Part.trm], p ∈ ps) (h : Keeps ps σ s) : Keeps ps σ (paceCfgWrite k addr v s) := by
  unfold paceCfgWrite
  refine Keeps.ite (fun _ => ?_) fun _ => ?_
  · refine recordErr_keeps _ _ _ (Keeps.sub (by simp) hp) ?_
    exact h
  · extract_lets σ1 σ2
    have hσ1 : Keeps ps σ σ1 := by
      unfold σ1
      refine applyWrite_keeps _ _ _ (Keeps.sub (by simp) hp) ?_
      exact h
    refine Keeps.ite (fun _ => ?_) fun _ => ?_
    · exact hσ1
    · refine Keeps.set_trm (hp _ (by simp)) ?_
      exact hσ1

theorem tripStatWrite_keeps {ps : List Part} {σ : State} (v : Word) (s : State)
    (hp : ∀ p ∈ [Part.kln], p ∈ ps) (h : Keeps ps σ s) : Keeps ps σ (tripStatWrite v s) := by
  unfold tripStatWrite
  refine Keeps.foldl ?_ ?_
  · intro τ1 χ2 hτ3
    refine updTrip_keeps _ _ _ (Keeps.sub (by decide) hp) ?_
    exact hτ3
  · exact h

theorem engineWrite_keeps {ps : List Part} {σ : State} (e : Nat) (addr : Nat) (v : Word) (s : State)
    (hp : ∀ p ∈ [Part.reg (keyKind addr), Part.fw, Part.ipl, Part.kln, Part.memory, Part.msix, Part.out, Part.reg .cal, Part.reg .klnC, Part.reg .klnP, Part.reg .stk, Part.reg .tilC, Part.reg .tilE, Part.rings, Part.stk, Part.til], p ∈ ps) (h : Keeps ps σ s) : Keeps ps σ (engineWrite e addr v s) := by
  unfold engineWrite
  extract_lets σ1 σ2
  refine Keeps.ite (fun _ => ?_) fun _ => ?_
  · refine recordErr_keeps _ _ _ (Keeps.sub (by simp) hp) ?_
    exact h
  · refine Keeps.ite (fun _ => ?_) fun _ => ?_
    · refine Keeps.ite (fun _ => ?_) fun _ => ?_
      · refine applyWrite_keeps _ _ _ (Keeps.sub (by simp) hp) ?_
        refine Keeps.set_til rfl (Or.inr ⟨rfl, rfl⟩) (Or.inl (hp _ (by simp))) ?_
        exact h
      · refine recordErr_keeps _ _ _ (Keeps.sub (by simp) hp) ?_
        exact h
    · refine applyWrite_keeps _ _ _ (Keeps.sub (by simp) hp) ?_
      exact h

theorem planePaceWrite_keeps {ps : List Part} {σ : State} (p : Nat) (addr : Nat) (v : Word) (s : State)
    (hp : ∀ q ∈ [Part.reg (keyKind addr), Part.fw, Part.ipl, Part.kln, Part.memory, Part.msix, Part.out, Part.reg .cal, Part.reg .klnC, Part.reg .klnP, Part.reg .stk, Part.reg .tilC, Part.reg .tilE, Part.rings, Part.stk, Part.til], q ∈ ps) (h : Keeps ps σ s) : Keeps ps σ (planePaceWrite p addr v s) := by
  unfold planePaceWrite
  refine Keeps.ite (fun _ => ?_) fun _ => ?_
  · refine recordErr_keeps _ _ _ (Keeps.sub (by simp) hp) ?_
    exact h
  · refine applyWrite_keeps _ _ _ (Keeps.sub (by simp) hp) ?_
    exact h

theorem pifCfgWrite_keeps {ps : List Part} {σ : State} (c : Nat) (v : Word) (s : State)
    (hp : ∀ p ∈ [Part.msix, Part.out, Part.pif, Part.reg .pifCh, Part.reg .stk, Part.rings, Part.stk], p ∈ ps) (h : Keeps ps σ s) : Keeps ps σ (pifCfgWrite c v s) := by
  unfold pifCfgWrite
  refine Keeps.ite (fun _ => ?_) fun _ => ?_
  · refine recordErr_keeps _ _ _ (Keeps.sub (by simp) hp) ?_
    exact h
  · refine idleCorrection_keeps _ _ (Keeps.sub (by decide) hp) ?_
    refine plainPut_keeps _ _ _ (Keeps.sub (by simp) hp) ?_
    exact h

theorem motTripMapWrite_keeps {ps : List Part} {σ : State} (i : Nat) (addr : Nat) (v : Word) (s : State)
    (hp : ∀ p ∈ [Part.reg (keyKind addr), Part.fw, Part.mot, Part.msix, Part.out, Part.reg .motA, Part.reg .stk, Part.rings, Part.stk], p ∈ ps) (h : Keeps ps σ s) : Keeps ps σ (motTripMapWrite i addr v s) := by
  unfold motTripMapWrite
  extract_lets σ1
  have hσ1 : Keeps ps σ σ1 := by
    unfold σ1
    refine plainPut_keeps _ _ _ (Keeps.sub (by simp) hp) ?_
    exact h
  refine Keeps.ite (fun _ => ?_) fun _ => ?_
  · refine tripAxes_keeps _ _ (Keeps.sub (by simp) hp) ?_
    exact hσ1
  · exact hσ1

theorem fanWrite_keeps {ps : List Part} {σ : State} (addr : Nat) (v : Word) (s : State)
    (hp : ∀ p ∈ [Part.reg (keyKind addr), Part.fans, Part.msix, Part.out, Part.reg .fan, Part.reg .stk, Part.rings, Part.stk], p ∈ ps) (h : Keeps ps σ s) : Keeps ps σ (fanWrite addr v s) := by
  unfold fanWrite
  extract_lets σ1 σ2
  refine Keeps.ite (fun _ => ?_) fun _ => ?_
  · exact h
  · refine Keeps.ite (fun _ => ?_) fun _ => ?_
    · refine fanCfgWrite_keeps _ _ _ (Keeps.sub (by simp) hp) ?_
      exact h
    · refine Keeps.ite (fun _ => ?_) fun _ => ?_
      · refine fanCurveWrite_keeps _ _ _ (Keeps.sub (by simp) hp) ?_
        exact h
      · refine Keeps.ite (fun _ => ?_) fun _ => ?_
        · refine noteSpeed_keeps _ _ (Keeps.sub (by simp) hp) ?_
          refine plainPut_keeps _ _ _ (Keeps.sub (by simp) hp) ?_
          exact h
        · refine plainPut_keeps _ _ _ (Keeps.sub (by simp) hp) ?_
          exact h

theorem systemWrite_keeps {ps : List Part} {σ : State} (ini : Initiator) (k : PageKind) (addr : Nat) (v : Word) (s : State)
    (hp : ∀ p ∈ boardParts, p ∈ ps) (h : Keeps ps σ s) : Keeps ps σ (systemWrite ini k addr v s) := by
  unfold systemWrite
  extract_lets σ1 σ2
  have hσ2 : Keeps ps σ σ2 := by
    unfold σ2
    refine applyWrite_keeps _ _ _ (Keeps.board hp (by simp)) ?_
    exact h
  split
  · refine Keeps.ite (fun _ => ?_) fun _ => ?_
    · refine holdRelWrite_keeps _ _ _ (Keeps.board hp (by decide)) ?_
      exact h
    · refine Keeps.ite (fun _ => ?_) fun _ => ?_
      · refine glbRst_keeps _ _ (Keeps.board hp (by decide)) ?_
        exact h
      · exact hσ2
  · refine Keeps.ite (fun _ => ?_) fun _ => ?_
    · refine iocalCtrl_keeps _ _ (Keeps.board hp (by decide)) ?_
      exact h
    · exact hσ2
  · refine Keeps.ite (fun _ => ?_) fun _ => ?_
    · refine budgetWrite_keeps _ _ _ (Keeps.board hp (by simp)) ?_
      exact h
    · exact hσ2
  · refine fanWrite_keeps _ _ _ (Keeps.board hp (by simp)) ?_
    exact h
  · refine applyWrite_keeps _ _ _ (Keeps.board hp (by simp)) ?_
    refine Keeps.ite (fun _ => ?_) fun _ => ?_
    · refine holdThr_keeps _ (Keeps.board hp (by decide)) ?_
      exact h
    · exact h
  · refine Keeps.ite (fun _ => ?_) fun _ => ?_
    · refine timCtrl_keeps _ _ (Keeps.board hp (by decide)) ?_
      exact h
    · refine Keeps.ite (fun _ => ?_) fun _ => ?_
      · refine timWrCtrl_keeps _ _ (Keeps.board hp (by decide)) ?_
        exact h
      · refine Keeps.ite (fun _ => ?_) fun _ => ?_
        · refine timRateWrite_keeps _ _ (Keeps.board hp (by decide)) ?_
          exact h
        · exact hσ2
  · refine Keeps.ite (fun _ => ?_) fun _ => ?_
    · refine tlyCtrlWrite_keeps _ _ (Keeps.board hp (by decide)) ?_
      exact h
    · refine Keeps.ite (fun _ => ?_) fun _ => ?_
      · refine slotCfgWrite_keeps _ _ (Keeps.board hp (by decide)) ?_
        exact h
      · refine Keeps.ite (fun _ => ?_) fun _ => ?_
        · refine slotHeadsWrite_keeps _ _ _ (Keeps.board hp (by decide)) ?_
          exact h
        · refine Keeps.ite (fun _ => ?_) fun _ => ?_
          · refine slotHeadsWrite_keeps _ _ _ (Keeps.board hp (by decide)) ?_
            exact h
          · exact hσ2
  · refine Keeps.ite (fun _ => ?_) fun _ => ?_
    · refine hifCtrlWrite_keeps _ _ (Keeps.board hp (by decide)) ?_
      exact h
    · refine Keeps.ite (fun _ => ?_) fun _ => ?_
      · refine sysRingWrite_keeps _ _ _ (Keeps.board hp (by simp)) ?_
        exact h
      · refine Keeps.ite (fun _ => ?_) fun _ => ?_
        · refine ltrUpdate_keeps _ (Keeps.board hp (by decide)) ?_
          exact hσ2
        · exact hσ2
  · refine Keeps.ite (fun _ => ?_) fun _ => ?_
    · refine glzBandWrite_keeps _ _ (Keeps.board hp (by decide)) ?_
      exact h
    · exact hσ2
  · exact hσ2

theorem pressWrite_keeps {ps : List Part} {σ : State} (k : PageKind) (i : Nat) (addr : Nat) (v : Word) (s : State)
    (hp : ∀ p ∈ boardParts, p ∈ ps) (h : Keeps ps σ s) : Keeps ps σ (pressWrite k i addr v s) := by
  unfold pressWrite
  extract_lets σ1 σ2
  have hσ2 : Keeps ps σ σ2 := by
    unfold σ2
    refine applyWrite_keeps _ _ _ (Keeps.board hp (by simp)) ?_
    exact h
  split
  · refine Keeps.ite (fun _ => ?_) fun _ => ?_
    · refine splitBarWrite_keeps _ _ (Keeps.board hp (by decide)) ?_
      exact h
    · exact hσ2
  · refine engineWrite_keeps _ _ _ _ (Keeps.board hp (by simp)) ?_
    exact h
  · refine Keeps.ite (fun _ => ?_) fun _ => ?_
    · refine tripStatWrite_keeps _ _ (Keeps.board hp (by decide)) ?_
      exact h
    · refine Keeps.ite (fun _ => ?_) fun _ => ?_
      · refine tripClear_keeps _ _ (Keeps.board hp (by decide)) ?_
        exact h
      · refine Keeps.ite (fun _ => ?_) fun _ => ?_
        · refine refreshGrants_keeps _ (Keeps.board hp (by decide)) ?_
          exact hσ2
        · refine Keeps.ite (fun _ => ?_) fun _ => ?_
          · refine refreshIdle_keeps _ (Keeps.board hp (by decide)) ?_
            exact hσ2
          · refine Keeps.ite (fun _ => ?_) fun _ => ?_
            · refine markWrite_keeps _ _ (Keeps.board hp (by decide)) ?_
              exact h
            · refine Keeps.ite (fun _ => ?_) fun _ => ?_
              · refine paceCfgWrite_keeps _ _ _ _ (Keeps.board hp (by simp)) ?_
                exact h
              · exact hσ2
  · refine Keeps.ite (fun _ => ?_) fun _ => ?_
    · refine applyArm_keeps _ _ _ (Keeps.board hp (by decide)) ?_
      exact h
    · refine Keeps.ite (fun _ => ?_) fun _ => ?_
      · refine planePaceWrite_keeps _ _ _ _ (Keeps.board hp (by simp)) ?_
        exact h
      · exact hσ2
  · refine Keeps.ite (fun _ => ?_) fun _ => ?_
    · refine hlkCtrlWrite_keeps _ _ _ (Keeps.board hp (by decide)) ?_
      exact h
    · refine Keeps.ite (fun _ => ?_) fun _ => ?_
      · refine faultClear_keeps _ _ _ (Keeps.board hp (by decide)) ?_
        exact h
      · exact hσ2
  · refine Keeps.ite (fun _ => ?_) fun _ => ?_
    · refine pifCfgWrite_keeps _ _ _ (Keeps.board hp (by decide)) ?_
      exact h
    · refine Keeps.ite (fun _ => ?_) fun _ => ?_
      · refine pifCtrlWrite_keeps _ _ _ (Keeps.board hp (by decide)) ?_
        exact h
      · refine Keeps.ite (fun _ => ?_) fun _ => ?_
        · refine idxPeriodWrite_keeps _ _ _ _ (Keeps.board hp (by decide)) ?_
          exact h
        · refine Keeps.ite (fun _ => ?_) fun _ => ?_
          · refine idxPeriodWrite_keeps _ _ _ _ (Keeps.board hp (by decide)) ?_
            exact h
          · exact hσ2
  · refine Keeps.ite (fun _ => ?_) fun _ => ?_
    · refine motTripMapWrite_keeps _ _ _ _ (Keeps.board hp (by simp)) ?_
      exact h
    · exact hσ2
  · refine Keeps.ite (fun _ => ?_) fun _ => ?_
    · refine motFaultClear_keeps _ _ _ (Keeps.board hp (by decide)) ?_
      exact h
    · refine Keeps.ite (fun _ => ?_) fun _ => ?_
      · refine motConfigWrite_keeps _ _ _ _ (Keeps.board hp (by simp)) ?_
        exact h
      · exact hσ2
  · refine Keeps.ite (fun _ => ?_) fun _ => ?_
    · refine iplCtrlWrite_keeps _ _ (Keeps.board hp (by decide)) ?_
      exact h
    · exact hσ2
  · refine Keeps.ite (fun _ => ?_) fun _ => ?_
    · refine captWrite_keeps _ _ _ (Keeps.board hp (by decide)) ?_
      exact h
    · exact hσ2
  · refine Keeps.ite (fun _ => ?_) fun _ => ?_
    · refine gleanWrite_keeps _ _ _ (Keeps.board hp (by simp)) ?_
      exact h
    · exact hσ2
  · refine Keeps.ite (fun _ => ?_) fun _ => ?_
    · refine gleanWrite_keeps _ _ _ (Keeps.board hp (by simp)) ?_
      exact h
    · exact hσ2
  · refine Keeps.ite (fun _ => ?_) fun _ => ?_
    · refine trmCtrl_keeps _ _ (Keeps.board hp (by decide)) ?_
      exact h
    · exact hσ2
  · exact hσ2

theorem blockWrite_keeps {ps : List Part} {σ : State} (ini : Initiator) (addr : Nat) (v : Word) (s : State)
    (hp : ∀ p ∈ boardParts, p ∈ ps) (h : Keeps ps σ s) : Keeps ps σ (blockWrite ini addr v s) := by
  unfold blockWrite
  split
  · exact h
  · split
    · refine systemWrite_keeps _ _ _ _ _ (Keeps.board hp (by decide)) ?_
      exact h
    · refine systemWrite_keeps _ _ _ _ _ (Keeps.board hp (by decide)) ?_
      exact h
    · refine systemWrite_keeps _ _ _ _ _ (Keeps.board hp (by decide)) ?_
      exact h
    · refine systemWrite_keeps _ _ _ _ _ (Keeps.board hp (by decide)) ?_
      exact h
    · refine systemWrite_keeps _ _ _ _ _ (Keeps.board hp (by decide)) ?_
      exact h
    · refine systemWrite_keeps _ _ _ _ _ (Keeps.board hp (by decide)) ?_
      exact h
    · refine systemWrite_keeps _ _ _ _ _ (Keeps.board hp (by decide)) ?_
      exact h
    · refine systemWrite_keeps _ _ _ _ _ (Keeps.board hp (by decide)) ?_
      exact h
    · refine systemWrite_keeps _ _ _ _ _ (Keeps.board hp (by decide)) ?_
      exact h
    · refine applyWrite_keeps _ _ _ (Keeps.board hp (by simp)) ?_
      exact h
    · refine applyWrite_keeps _ _ _ (Keeps.board hp (by simp)) ?_
      exact h
    · refine applyWrite_keeps _ _ _ (Keeps.board hp (by simp)) ?_
      exact h
    · refine applyWrite_keeps _ _ _ (Keeps.board hp (by simp)) ?_
      exact h
    · refine applyWrite_keeps _ _ _ (Keeps.board hp (by simp)) ?_
      exact h
    · refine applyWrite_keeps _ _ _ (Keeps.board hp (by simp)) ?_
      exact h
    · refine applyWrite_keeps _ _ _ (Keeps.board hp (by simp)) ?_
      exact h
    · refine applyWrite_keeps _ _ _ (Keeps.board hp (by simp)) ?_
      exact h
    · refine applyWrite_keeps _ _ _ (Keeps.board hp (by simp)) ?_
      exact h
    · refine pressWrite_keeps _ _ _ _ _ (Keeps.board hp (by decide)) ?_
      exact h
    · refine pressWrite_keeps _ _ _ _ _ (Keeps.board hp (by decide)) ?_
      exact h
    · refine pressWrite_keeps _ _ _ _ _ (Keeps.board hp (by decide)) ?_
      exact h
    · refine pressWrite_keeps _ _ _ _ _ (Keeps.board hp (by decide)) ?_
      exact h
    · refine pressWrite_keeps _ _ _ _ _ (Keeps.board hp (by decide)) ?_
      exact h
    · refine pressWrite_keeps _ _ _ _ _ (Keeps.board hp (by decide)) ?_
      exact h
    · refine pressWrite_keeps _ _ _ _ _ (Keeps.board hp (by decide)) ?_
      exact h
    · refine pressWrite_keeps _ _ _ _ _ (Keeps.board hp (by decide)) ?_
      exact h
    · refine pressWrite_keeps _ _ _ _ _ (Keeps.board hp (by decide)) ?_
      exact h
    · refine pressWrite_keeps _ _ _ _ _ (Keeps.board hp (by decide)) ?_
      exact h
    · refine pressWrite_keeps _ _ _ _ _ (Keeps.board hp (by decide)) ?_
      exact h
    · refine pressWrite_keeps _ _ _ _ _ (Keeps.board hp (by decide)) ?_
      exact h

theorem regWrite_keeps {ps : List Part} {σ : State} (ini : Initiator) (addr : Nat) (v : Word) (s : State)
    (hp : ∀ p ∈ boardParts, p ∈ ps) (h : Keeps ps σ s) : Keeps ps σ (regWrite ini addr v s) := by
  unfold regWrite
  extract_lets σ1 σ2
  refine Keeps.ite (fun _ => ?_) fun _ => ?_
  · refine headerWrite_keeps _ _ _ _ (Keeps.board hp (by simp)) ?_
    exact h
  · refine Keeps.ite (fun _ => ?_) fun _ => ?_
    · exact h
    · refine Keeps.ite (fun _ => ?_) fun _ => ?_
      · refine recordErr_keeps _ _ _ (Keeps.board hp (by simp)) ?_
        exact h
      · split
        · split
          · refine restarts_keeps _ _ _ _ _ (Keeps.board hp (by decide)) ?_
            refine clearCounters_keeps _ _ _ (Keeps.board hp (by decide)) ?_
            exact h
          · refine blockWrite_keeps _ _ _ _ (Keeps.board hp (by decide)) ?_
            exact h
        · exact h

theorem dwordWrite_keeps {ps : List Part} {σ : State} (ini : Initiator) (addr : Nat) (be : BitVec 4) (v : Word) (s : State)
    (hp : ∀ p ∈ boardParts, p ∈ ps) (h : Keeps ps σ s) : Keeps ps σ (dwordWrite ini addr be v s) := by
  unfold dwordWrite
  refine Keeps.ite (fun _ => ?_) fun _ => ?_
  · refine Keeps.ite (fun _ => ?_) fun _ => ?_
    · refine msixWrite_keeps _ _ _ (Keeps.board hp (by decide)) ?_
      exact h
    · exact h
  · refine guardWrite_keeps _ _ _ _ _ _ ?_ (Keeps.board hp (by simp)) ?_
    · intro χ1 τ2 hτ3
      refine regWrite_keeps _ _ _ _ (Keeps.board hp (by decide)) ?_
      exact hτ3
    · exact h

theorem writeAt_keeps {ps : List Part} {σ : State} (ini : Initiator) (addr : BitVec 24) (be : BitVec 4) (v : Word) (s : State)
    (hp : ∀ p ∈ (allRegs ++ [Part.cal, Part.clk, Part.clock, Part.crk, Part.entries, Part.fans, Part.free, Part.fuses, Part.fw, Part.gln, Part.glz, Part.hif, Part.ipl, Part.jobs, Part.kln, Part.memory, Part.mil, Part.mot, Part.msix, Part.out, Part.pif, Part.ports, Part.pwr, Part.reads, Part.rings, Part.sag, Part.stk, Part.thm, Part.thr, Part.til, Part.tly, Part.trm, Part.win]), p ∈ ps) (h : Keeps ps σ s) : Keeps ps σ (writeAt ini addr be v s) := by
  unfold writeAt
  refine Keeps.ite (fun _ => ?_) fun _ => ?_
  · refine dwordWrite_keeps _ _ _ _ _ (Keeps.sub (by decide) hp) ?_
    exact h
  · exact h

theorem writeRun_keeps {ps : List Part} {σ : State} (ini : Initiator) (addr : Nat) (ds : List (Word × BitVec 4)) (s : State)
    (hp : ∀ p ∈ boardParts, p ∈ ps) (h : Keeps ps σ s) : Keeps ps σ (writeRun ini addr ds s) := by
  induction ds generalizing addr s with
  | nil => exact h
  | cons d ds ih => exact ih _ _ (dwordWrite_keeps _ _ _ _ _ (Keeps.board hp (by decide)) h)

theorem writeDwords_keeps {ps : List Part} {σ : State} (ini : Initiator) (addr : Nat) (ds : List (Word × BitVec 4)) (s : State)
    (hp : ∀ p ∈ (allRegs ++ [Part.cal, Part.clk, Part.clock, Part.crk, Part.entries, Part.fans, Part.free, Part.fuses, Part.fw, Part.gln, Part.glz, Part.hif, Part.ipl, Part.jobs, Part.kln, Part.memory, Part.mil, Part.mot, Part.msix, Part.out, Part.pif, Part.ports, Part.pwr, Part.reads, Part.rings, Part.sag, Part.stk, Part.thm, Part.thr, Part.til, Part.tly, Part.trm, Part.win]), p ∈ ps) (h : Keeps ps σ s) : Keeps ps σ (writeDwords ini addr ds s) := by
  unfold writeDwords
  refine Keeps.ite (fun _ => ?_) fun _ => ?_
  · refine writeRun_keeps _ _ _ _ (Keeps.sub (by decide) hp) ?_
    exact h
  · refine Keeps.ite (fun _ => ?_) fun _ => ?_
    · refine barAbort_keeps _ _ (Keeps.sub (by decide) hp) ?_
      exact h
    · exact h

theorem writeCycle_keeps {ps : List Part} {σ : State} (ini : Initiator) (addr : BitVec 24) (be : BitVec 4) (v : Word) (also : List (Initiator × Word)) (s : State)
    (hp : ∀ p ∈ (allRegs ++ [Part.cal, Part.clk, Part.clock, Part.crk, Part.entries, Part.fans, Part.free, Part.fuses, Part.fw, Part.gln, Part.glz, Part.hif, Part.ipl, Part.jobs, Part.kln, Part.memory, Part.mil, Part.mot, Part.msix, Part.out, Part.pif, Part.ports, Part.pwr, Part.reads, Part.rings, Part.sag, Part.stk, Part.thm, Part.thr, Part.til, Part.tly, Part.trm, Part.win]), p ∈ ps) (h : Keeps ps σ s) : Keeps ps σ (writeCycle ini addr be v also s) := by
  unfold writeCycle
  refine Keeps.foldl ?_ ?_
  · intro τ1 χ2 hτ3
    refine writeAt_keeps _ _ _ _ _ (Keeps.sub (by decide) hp) ?_
    exact hτ3
  · exact h

theorem execRegisterWrite_keeps (ini : Initiator) (addr : BitVec 24) (val : Word) (be : BitVec 4) (more : List (Word × BitVec 4)) (also : List (Initiator × Word)) (s : State) :
    ∃ τ, execRegisterWrite ini addr val be more also s = .next τ ∧ Keeps (allRegs ++ [Part.cal, Part.clk, Part.clock, Part.crk, Part.entries, Part.fans, Part.free, Part.fuses, Part.fw, Part.gln, Part.glz, Part.hif, Part.ipl, Part.jobs, Part.kln, Part.memory, Part.mil, Part.mot, Part.msix, Part.out, Part.pif, Part.ports, Part.pwr, Part.reads, Part.rings, Part.sag, Part.stk, Part.thm, Part.thr, Part.til, Part.tly, Part.trm, Part.win]) s τ := by
  refine Keeps.exec fun ps σ hp h => ?_
  unfold execRegisterWrite
  refine ⟨_, rfl, ?_⟩
  refine Keeps.ite (fun _ => ?_) fun _ => ?_
  · refine writeCycle_keeps _ _ _ _ _ _ (Keeps.sub (by decide) hp) ?_
    exact h
  · refine writeDwords_keeps _ _ _ _ (Keeps.sub (by decide) hp) ?_
    exact h

theorem execRwsRegisterWrite_keeps (ini : Initiator) (addr : BitVec 24) (val : Word) (be : BitVec 4) (also : List (Initiator × Word)) (s : State) :
    ∃ τ, execRwsRegisterWrite ini addr val be also s = .next τ ∧ Keeps (allRegs ++ [Part.cal, Part.clk, Part.clock, Part.crk, Part.entries, Part.fans, Part.free, Part.fuses, Part.fw, Part.gln, Part.glz, Part.hif, Part.ipl, Part.jobs, Part.kln, Part.memory, Part.mil, Part.mot, Part.msix, Part.out, Part.pif, Part.ports, Part.pwr, Part.reads, Part.rings, Part.sag, Part.stk, Part.thm, Part.thr, Part.til, Part.tly, Part.trm, Part.win]) s τ := by
  refine Keeps.exec fun ps σ hp h => ?_
  unfold execRwsRegisterWrite
  refine ⟨_, rfl, ?_⟩
  refine writeCycle_keeps _ _ _ _ _ _ (Keeps.sub (by decide) hp) ?_
  exact h

theorem execStatusW1cClear_keeps (ini : Initiator) (addr : BitVec 24) (val : Word) (be : BitVec 4) (s : State) :
    ∃ τ, execStatusW1cClear ini addr val be s = .next τ ∧ Keeps (allRegs ++ [Part.cal, Part.clk, Part.clock, Part.crk, Part.entries, Part.fans, Part.free, Part.fuses, Part.fw, Part.gln, Part.glz, Part.hif, Part.ipl, Part.jobs, Part.kln, Part.memory, Part.mil, Part.mot, Part.msix, Part.out, Part.pif, Part.ports, Part.pwr, Part.reads, Part.rings, Part.sag, Part.stk, Part.thm, Part.thr, Part.til, Part.tly, Part.trm, Part.win]) s τ := by
  refine Keeps.exec fun ps σ hp h => ?_
  unfold execStatusW1cClear
  refine ⟨_, rfl, ?_⟩
  refine writeAt_keeps _ _ _ _ _ (Keeps.sub (by decide) hp) ?_
  exact h

theorem execCounterClear_keeps (ini : Initiator) (addr : BitVec 24) (val : Word) (be : BitVec 4) (s : State) :
    ∃ τ, execCounterClear ini addr val be s = .next τ ∧ Keeps (allRegs ++ [Part.cal, Part.clk, Part.clock, Part.crk, Part.entries, Part.fans, Part.free, Part.fuses, Part.fw, Part.gln, Part.glz, Part.hif, Part.ipl, Part.jobs, Part.kln, Part.memory, Part.mil, Part.mot, Part.msix, Part.out, Part.pif, Part.ports, Part.pwr, Part.reads, Part.rings, Part.sag, Part.stk, Part.thm, Part.thr, Part.til, Part.tly, Part.trm, Part.win]) s τ := by
  refine Keeps.exec fun ps σ hp h => ?_
  unfold execCounterClear
  refine ⟨_, rfl, ?_⟩
  refine writeAt_keeps _ _ _ _ _ (Keeps.sub (by decide) hp) ?_
  exact h

theorem lockedWrite_keeps {ps : List Part} {σ : State} (ini : Initiator) (n : Nat) (addr : Nat) (v : Word) (s : State)
    (hp : ∀ p ∈ boardParts, p ∈ ps) (h : Keeps ps σ s) : Keeps ps σ (lockedWrite ini n addr v s) := by
  unfold lockedWrite
  refine Keeps.ite (fun _ => ?_) fun _ => ?_
  · refine Keeps.ite (fun _ => ?_) fun _ => ?_
    · refine regWrite_keeps _ _ _ _ (Keeps.board hp (by decide)) ?_
      exact h
    · refine recordErr_keeps _ _ _ (Keeps.board hp (by simp)) ?_
      exact h
  · refine recordErr_keeps _ _ _ (Keeps.board hp (by simp)) ?_
    refine updPage_keeps _ _ _ (Keeps.board hp (by simp)) ?_
    exact h

theorem execRwlRegisterWrite_keeps (ini : Initiator) (addr : BitVec 24) (val : Word) (be : BitVec 4) (s : State) :
    ∃ τ, execRwlRegisterWrite ini addr val be s = .next τ ∧ Keeps boardParts s τ := by
  refine Keeps.exec fun ps σ hp h => ?_
  unfold execRwlRegisterWrite
  refine ⟨_, rfl, ?_⟩
  refine Keeps.ite (fun _ => ?_) fun _ => ?_
  · refine guardAccess_keeps _ _ _ _ _ ?_ (Keeps.board hp (by simp)) ?_
    · intro τ1 hτ2
      refine lockedWrite_keeps _ _ _ _ _ (Keeps.board hp (by decide)) ?_
      exact hτ2
    · exact h
  · exact h

theorem execPgIrqStatClear_keeps (ini : Initiator) (page : BitVec 12) (val : Word) (s : State) :
    ∃ τ, execPgIrqStatClear ini page val s = .next τ ∧ Keeps [Part.reg (pageKind ((page.toNat * 4096 + 24) / 4096)), Part.reg (pageKind page.toNat), Part.msix, Part.out, Part.reg .hif] s τ := by
  refine Keeps.exec fun ps σ hp h => ?_
  unfold execPgIrqStatClear
  refine ⟨_, rfl, ?_⟩
  refine guardWrite_keeps _ _ _ _ _ _ ?_ (Keeps.sub (by simp) hp) ?_
  · intro χ1 τ2 hτ3
    refine irqStatWrite_keeps _ _ _ (Keeps.sub (by simp) hp) ?_
    exact hτ3
  · exact h

theorem execPgIrqSet_keeps (ini : Initiator) (page : BitVec 12) (val : Word) (s : State) :
    ∃ τ, execPgIrqSet ini page val s = .next τ ∧ Keeps [Part.reg (pageKind ((page.toNat * 4096 + 28) / 4096)), Part.reg (pageKind page.toNat), Part.msix, Part.out, Part.reg .hif] s τ := by
  refine Keeps.exec fun ps σ hp h => ?_
  unfold execPgIrqSet
  refine ⟨_, rfl, ?_⟩
  refine guardWrite_keeps _ _ _ _ _ _ ?_ (Keeps.sub (by simp) hp) ?_
  · intro χ1 τ2 hτ3
    refine irqSetWrite_keeps _ _ _ (Keeps.sub (by simp) hp) ?_
    exact hτ3
  · exact h

theorem execPgErrClear_keeps (ini : Initiator) (page : BitVec 12) (val : Word) (s : State) :
    ∃ τ, execPgErrClear ini page val s = .next τ ∧ Keeps [Part.reg (pageKind ((page.toNat * 4096 + 36) / 4096)), Part.reg (pageKind page.toNat), Part.msix, Part.out, Part.reg .hif] s τ := by
  refine Keeps.exec fun ps σ hp h => ?_
  unfold execPgErrClear
  refine ⟨_, rfl, ?_⟩
  refine guardWrite_keeps _ _ _ _ _ _ ?_ (Keeps.sub (by simp) hp) ?_
  · intro χ1 τ2 hτ3
    refine pgErrWrite_keeps _ _ _ (Keeps.sub (by simp) hp) ?_
    exact hτ3
  · exact h

theorem execShadowDiscard_keeps (ini : Initiator) (page : BitVec 12) (val : Word) (s : State) :
    ∃ τ, execShadowDiscard ini page val s = .next τ ∧ Keeps [Part.reg (pageKind ((page.toNat * 4096 + 32) / 4096)), Part.reg (pageKind page.toNat), Part.cal, Part.crk, Part.entries, Part.fw, Part.gln, Part.glz, Part.ipl, Part.jobs, Part.kln, Part.memory, Part.msix, Part.out, Part.ports, Part.reg .cal, Part.reg .hif, Part.reg .klnC, Part.reg .stk, Part.reg .tilC, Part.reg .tilE, Part.rings, Part.stk, Part.thr, Part.til] s τ := by
  refine Keeps.exec fun ps σ hp h => ?_
  unfold execShadowDiscard
  refine ⟨_, rfl, ?_⟩
  refine guardWrite_keeps _ _ _ _ _ _ ?_ (Keeps.sub (by simp) hp) ?_
  · intro χ1 τ2 hτ3
    refine shadowWrite_keeps _ _ _ (Keeps.sub (by simp) hp) ?_
    exact hτ3
  · exact h

theorem execShadowHoldWrite_keeps (ini : Initiator) (page : BitVec 12) (val : Word) (s : State) :
    ∃ τ, execShadowHoldWrite ini page val s = .next τ ∧ Keeps [Part.reg (pageKind ((page.toNat * 4096 + 32) / 4096)), Part.reg (pageKind page.toNat), Part.cal, Part.crk, Part.entries, Part.fw, Part.gln, Part.glz, Part.ipl, Part.jobs, Part.kln, Part.memory, Part.msix, Part.out, Part.ports, Part.reg .cal, Part.reg .hif, Part.reg .klnC, Part.reg .stk, Part.reg .tilC, Part.reg .tilE, Part.rings, Part.stk, Part.thr, Part.til] s τ := by
  refine Keeps.exec fun ps σ hp h => ?_
  unfold execShadowHoldWrite
  refine ⟨_, rfl, ?_⟩
  refine guardWrite_keeps _ _ _ _ _ _ ?_ (Keeps.sub (by simp) hp) ?_
  · intro χ1 τ2 hτ3
    refine shadowWrite_keeps _ _ _ (Keeps.sub (by simp) hp) ?_
    exact hτ3
  · exact h

theorem execHoldRelease_keeps (ini : Initiator) (val : Word) (s : State) :
    ∃ τ, execHoldRelease ini val s = .next τ ∧ Keeps (allRegs ++ [Part.cal, Part.crk, Part.entries, Part.fw, Part.gln, Part.glz, Part.ipl, Part.jobs, Part.kln, Part.memory, Part.msix, Part.out, Part.ports, Part.rings, Part.stk, Part.thr, Part.til]) s τ := by
  refine Keeps.exec fun ps σ hp h => ?_
  unfold execHoldRelease
  refine ⟨_, rfl, ?_⟩
  refine guardWrite_keeps _ _ _ _ _ _ ?_ (Keeps.sub (by decide) hp) ?_
  · intro χ1 τ2 hτ3
    refine holdRelWrite_keeps _ _ _ (Keeps.sub (by decide) hp) ?_
    exact hτ3
  · exact h

theorem execCmdHoldRelease_keeps (ini : Initiator) (val : Word) (s : State) :
    ∃ τ, execCmdHoldRelease ini val s = .next τ ∧ Keeps (allRegs ++ [Part.cal, Part.crk, Part.entries, Part.fw, Part.gln, Part.glz, Part.ipl, Part.jobs, Part.kln, Part.memory, Part.msix, Part.out, Part.ports, Part.rings, Part.stk, Part.thr, Part.til]) s τ := by
  refine Keeps.exec fun ps σ hp h => ?_
  unfold execCmdHoldRelease
  refine ⟨_, rfl, ?_⟩
  refine guardWrite_keeps _ _ _ _ _ _ ?_ (Keeps.sub (by decide) hp) ?_
  · intro χ1 τ2 hτ3
    refine holdRelWrite_keeps _ _ _ (Keeps.sub (by decide) hp) ?_
    exact hτ3
  · exact h

theorem execSoftReset_keeps (ini : Initiator) (page : BitVec 12) (val : Word) (s : State) :
    ∃ τ, execSoftReset ini page val s = .next τ ∧ Keeps [Part.reg (pageKind ((page.toNat * 4096 + 8) / 4096)), Part.reg (pageKind page.toNat), Part.crk, Part.fans, Part.free, Part.gln, Part.ipl, Part.jobs, Part.kln, Part.msix, Part.out, Part.pif, Part.ports, Part.reg .fan, Part.reg .hif, Part.reg .hlk, Part.reg .klnC, Part.reg .klnP, Part.reg .pifCh, Part.reg .stk, Part.reg .tilC, Part.reg .tilE, Part.reg .trm, Part.rings, Part.sag, Part.stk, Part.trm, Part.win] s τ := by
  refine Keeps.exec fun ps σ hp h => ?_
  unfold execSoftReset
  refine ⟨_, rfl, ?_⟩
  refine guardWrite_keeps _ _ _ _ _ _ ?_ (Keeps.sub (by simp) hp) ?_
  · intro χ1 τ2 hτ3
    refine pgCtrlWrite_keeps _ _ _ (Keeps.sub (by simp) hp) ?_
    exact hτ3
  · exact h

theorem execSoftResetEnd_keeps (page : BitVec 12) (s : State) :
    ∃ τ, execSoftResetEnd page s = .next τ ∧ Keeps [Part.reg (pageKind page.toNat)] s τ := by
  refine Keeps.exec fun ps σ hp h => ?_
  unfold execSoftResetEnd
  refine ⟨_, rfl, ?_⟩
  refine Keeps.ite (fun _ => ?_) fun _ => ?_
  · refine softResetDone_keeps _ _ (Keeps.sub (by simp) hp) ?_
    exact h
  · exact h

theorem execHlkPortEnable_keeps (ini : Initiator) (head : Fin 64) (val : Word) (s : State) :
    ∃ τ, execHlkPortEnable ini head val s = .next τ ∧ Keeps [Part.reg (pageKind ((pgHlk ↑head * 4096 + 8) / 4096)), Part.crk, Part.fans, Part.free, Part.gln, Part.ipl, Part.jobs, Part.kln, Part.msix, Part.out, Part.pif, Part.ports, Part.reg .fan, Part.reg .hif, Part.reg .hlk, Part.reg .klnC, Part.reg .klnP, Part.reg .pifCh, Part.reg .stk, Part.reg .tilC, Part.reg .tilE, Part.reg .trm, Part.rings, Part.sag, Part.stk, Part.trm, Part.win] s τ := by
  refine Keeps.exec fun ps σ hp h => ?_
  unfold execHlkPortEnable
  refine ⟨_, rfl, ?_⟩
  refine guardWrite_keeps _ _ _ _ _ _ ?_ (Keeps.sub (by simp) hp) ?_
  · intro χ1 τ2 hτ3
    refine pgCtrlWrite_keeps _ _ _ (Keeps.sub (by simp) hp) ?_
    exact hτ3
  · exact h

theorem execPifChannelEnable_keeps (ini : Initiator) (ch : Fin 4) (val : Word) (s : State) :
    ∃ τ, execPifChannelEnable ini ch val s = .next τ ∧ Keeps [Part.reg (pageKind ((pgPif ↑ch * 4096 + 8) / 4096)), Part.crk, Part.fans, Part.free, Part.gln, Part.ipl, Part.jobs, Part.kln, Part.msix, Part.out, Part.pif, Part.ports, Part.reg .fan, Part.reg .hif, Part.reg .hlk, Part.reg .klnC, Part.reg .klnP, Part.reg .pifCh, Part.reg .stk, Part.reg .tilC, Part.reg .tilE, Part.reg .trm, Part.rings, Part.sag, Part.stk, Part.trm, Part.win] s τ := by
  refine Keeps.exec fun ps σ hp h => ?_
  unfold execPifChannelEnable
  refine ⟨_, rfl, ?_⟩
  refine guardWrite_keeps _ _ _ _ _ _ ?_ (Keeps.sub (by simp) hp) ?_
  · intro χ1 τ2 hτ3
    refine pgCtrlWrite_keeps _ _ _ (Keeps.sub (by simp) hp) ?_
    exact hτ3
  · exact h

end Sys2Proof.Machine
end

