-- ==== Sys2Proof/Laws/Motion.lean ====
section
/-! SUPPORT. What the operations on axes leave of each axis, of the rings and of the commands that wait. -/

namespace Sys2Proof.Machine
open Sys2Proof

@[simp] theorem axis_updAxis_self (a : Nat) (f : Axis → Axis) (s : State) : axis (updAxis a f s) a = f (axis s a) := by
  simp [axis, updAxis]

theorem axis_updAxis_ne {a b : Nat} (f : Axis → Axis) (s : State) (h : b ≠ a) : axis (updAxis a f s) b = axis s b := by
  simp [axis, updAxis, tget_tput_ne _ _ _ h]

theorem axis_congr {s t : State} (h : t.mot = s.mot) (a : Nat) : axis t a = axis s a := by rw [axis, axis, h]

@[simp] theorem axis_wn (k v : Nat) (s : State) (a : Nat) : axis (wn k v s) a = axis s a := rfl
@[simp] theorem axis_wn64 (k v : Nat) (s : State) (a : Nat) : axis (wn64 k v s) a = axis s a := rfl
@[simp] theorem axis_wf (k hi lo v : Nat) (s : State) (a : Nat) : axis (wf k hi lo v s) a = axis s a := rfl
@[simp] theorem axis_inc (k n : Nat) (s : State) (a : Nat) : axis (inc k n s) a = axis s a := rfl
@[simp] theorem axis_raiseIrq (n b : Nat) (s : State) (a : Nat) : axis (raiseIrq n b s) a = axis s a :=
  axis_congr ((raiseIrq_keeps n b s (fun _ q => q) (Keeps.refl _ s)).only .mot (by simp)) a
@[simp] theorem axis_event (c : Nat) (ten : Option Nat) (pl : List Byte) (s : State) (a : Nat) : axis (event c ten pl s) a = axis s a :=
  axis_congr ((event_keeps c ten pl s (fun _ q => q) (Keeps.refl _ s)).only .mot (by decide)) a
@[simp] theorem axis_complete (h : Hdr) (st r : Nat) (s : State) (a : Nat) : axis (complete h st r s) a = axis s a :=
  axis_congr (complete_mot h st r s) a
@[simp] theorem axis_ok (h : Hdr) (r : Nat) (s : State) (a : Nat) : axis (ok h r s) a = axis s a := axis_complete h 0 r s a
@[simp] theorem axis_completeOpt (o : Option Nat) (st r : Nat) (s : State) (a : Nat) : axis (completeOpt o st r s) a = axis s a :=
  axis_congr ((completeOpt_keeps o st r s (fun _ q => q) (Keeps.refl _ s)).only .mot (by decide)) a
@[simp] theorem axis_arrive (k : Nat) (r : State → Nat) (s : State) (a : Nat) : axis (arrive k r s) a = axis s a :=
  axis_congr ((arrive_keeps k r s (fun _ q => q) (Keeps.refl _ s)).only .mot (by decide)) a
@[simp] theorem axis_advanceTo (t : Nat) (s : State) (a : Nat) : axis (advanceTo t s) a = axis s a :=
  axis_congr (advance_mot t s) a
@[simp] theorem axis_parkAccepted (h : Hdr) (c : Instr) (o w : List Nat) (s : State) (a : Nat) :
    axis (parkAccepted h c o w s) a = axis s a := rfl
@[simp] theorem axis_taken (d : Desc) (s : State) (a : Nat) : axis (taken d s) a = axis s a := rfl

/-- An axis that changes state: its state is the new one, its gates go off where that state drives nothing (R361), and nothing else of an
axis changes. -/
theorem setAxis_axis (a : Nat) (st : AxisState) (s : State) (b : Nat) :
    axis (setAxis a st s) b = if b = a then { axis s a with
      state := st, gates := if (axis s a).state = st ∨ st.driven = true then (axis s a).gates else [] } else axis s b := by
  by_cases h : (axis s a).state = st
  · rw [setAxis, if_pos h]
    split
    · rename_i hb
      rw [if_pos (Or.inl h), hb, ← h]
    · rfl
  · rw [setAxis, if_neg h, axis_raiseIrq, axis_event]
    by_cases hb : b = a
    · rw [if_pos hb, hb, axis_updAxis_self]
      simp only [h, false_or]
    · rw [if_neg hb, axis_updAxis_ne _ _ hb]

theorem setAxis_driven (a : Nat) {st : AxisState} (hd : st.driven = true) (s : State) (b : Nat) :
    axis (setAxis a st s) b = if b = a then { axis s a with state := st } else axis s b := by
  rw [setAxis_axis]
  simp only [hd, or_true, if_true]

theorem setAxis_ne {a b : Nat} (st : AxisState) (s : State) (h : b ≠ a) : axis (setAxis a st s) b = axis s b := by
  rw [setAxis_axis, if_neg h]

theorem updAxis_alike (a : Nat) (f : Axis → Axis) (s : State) : RingsAlike s (updAxis a f s) := RingsAlike.of_rings rfl

theorem setAxis_alike (a : Nat) (st : AxisState) (s : State) : RingsAlike s (setAxis a st s) := by
  by_cases h : (axis s a).state = st
  · rw [setAxis, if_pos h]
    exact RingsAlike.refl s
  · rw [setAxis, if_neg h]
    exact (updAxis_alike a (fun x => { x with state := st, gates := if st.driven then x.gates else [] }) s).trans (raised_alike _)

theorem setAxis_fw (a : Nat) (st : AxisState) (s : State) : (setAxis a st s).fw = s.fw :=
  (setAxis_keeps a st s (fun _ q => q) (Keeps.refl _ s)).only .fw (by decide)

theorem setAxis_still (a : Nat) (st : AxisState) (s : State) : StillParked s (setAxis a st s) :=
  StillParked.of_alike (setAxis_alike a st s) (setAxis_fw a st s)

theorem dropRetained_axis (a : Nat) (s : State) (b : Nat) :
    axis (dropRetained a s) b = if b = a then { axis s a with retained := none } else axis s b := by
  unfold dropRetained
  rw [axis_wn64]
  split
  · rename_i hb
    subst hb
    rw [axis_updAxis_self]
  · rename_i hb
    rw [axis_updAxis_ne _ _ hb]

theorem startMove_axis (a : Nat) (m : Move) (s : State) (b : Nat) : axis (startMove a m s) b =
    if b = a then { axis s a with
      state := .moving, move := some m, stop := .none, vel := 0, acc := 0, ts := now s, scale := 256, scaleRun := 0, stallRun := 0,
      duties := [], held := false, applied := false } else axis s b := by
  unfold startMove
  rw [setAxis_driven a rfl]
  split
  · rw [axis_updAxis_self]
  · rename_i hb
    rw [axis_updAxis_ne _ _ hb]

theorem startMove_still (a : Nat) (m : Move) (s : State) : StillParked s (startMove a m s) :=
  StillParked.trans (StillParked.of_alike (updAxis_alike a _ s) rfl) (setAxis_still a .moving _)

theorem dropRetained_still (a : Nat) (s : State) : StillParked s (dropRetained a s) :=
  StillParked.of_alike (RingsAlike.of_rings rfl) rfl

/-- A command just accepted stays so through what leaves the table alone. -/
theorem parkAccepted_still {d : Desc} {s u v : State} (c : Instr) (objs waits : List Nat) (hci : (ring u d.ring.val).ci = (hdrOf d s).ci)
    (k : StillParked (parkAccepted (hdrOf d s) c objs waits u) v) : Accepted d c [] waits s v :=
  park_accepted (p := { Parked.of u (hdrOf d s) c true with objs := objs, waits := waits }) hci rfl rfl rfl (fun _ h => h) rfl k

/-- A move started for a command: the command is accepted, and the axis moves with no retained move. -/
theorem startHost_accepted {d : Desc} {s : State} (c : Instr) (a : Nat) (k : MoveKind) (g : Int) (p : Nat) :
    Accepted d c [] [] s (startHost (hdrOf d s) c a k g p (taken d s)) :=
  parkAccepted_still c [objAxis a] [] (taken_ci d s) ((dropRetained_still a _).trans (startMove_still a _ _))

theorem startHost_axis (h : Hdr) (c : Instr) (a : Nat) (k : MoveKind) (g : Int) (p : Nat) (s : State) (b : Nat) :
    axis (startHost h c a k g p s) b = if b = a then { axis s a with
      retained := none, state := .moving, move := some ⟨k, g, p, some h.seq⟩, stop := .none, vel := 0, acc := 0, ts := now s, scale := 256,
      scaleRun := 0, stallRun := 0, duties := [], held := false, applied := false } else axis s b := by
  unfold startHost
  rw [startMove_axis]
  split
  · rw [dropRetained_axis, if_pos rfl]
    rfl
  · rename_i hb
    rw [dropRetained_axis, if_neg hb]
    rfl

/-- What an ended move leaves of its axis when no feed waits. -/
theorem endMove_axis (a st r : Nat) (s : State) (h : (axis s a).feedWait = none) (b : Nat) : axis (endMove a st r s) b =
    if b = a then { axis s a with
      state := .standstill, move := none, stop := .none, vel := 0, acc := 0, held := true } else axis s b := by
  unfold endMove
  dsimp only
  rw [h]
  dsimp only
  rw [axis_arrive, axis_completeOpt, setAxis_driven a rfl]
  split
  · rw [axis_updAxis_self, h]
  · rename_i hb
    rw [axis_updAxis_ne _ _ hb]

/-- A fault bit that latches: no axis loses anything but a retained move. -/
theorem latchAxis_axis (a bit : Nat) (s : State) (b : Nat) : axis (latchAxis a bit s) b =
    if b = a ∧ rbit s (Reg.MOT_A_FAULT a) bit = false then { axis s a with retained := none } else axis s b := by
  unfold latchAxis
  split
  · rename_i hb
    rw [hb, if_neg (by simp)]
  · rename_i hb
    have hb : rbit s (Reg.MOT_A_FAULT a) bit = false := by simpa using hb
    dsimp only
    rw [axis_raiseIrq, axis_event, dropRetained_axis, hb]
    simp only [and_true]
    rfl

/-- A fault bit that latches reads 1, the other bits of the register as before. -/
theorem latchAxis_fault (a bit : Nat) (s : State) (hb : bit < 32) (n : Nat) :
    rbit (latchAxis a bit s) (Reg.MOT_A_FAULT a) n = if n = bit then true else rbit s (Reg.MOT_A_FAULT a) n := by
  have hk := keyKind_MOT_A_FAULT a
  unfold latchAxis
  split
  · rename_i h
    split
    · rename_i e
      rw [e, h]
    · rfl
  · dsimp only
    rw [rbit_congr (rd_raiseIrq _ _ _ _), rbit_congr (rd_event (by rw [hk]; decide))]
    unfold dropRetained
    have hne : Reg.MOT_A_FAULT a ≠ Reg.MOT_A_REMAIN a ∧ Reg.MOT_A_FAULT a ≠ Reg.MOT_A_REMAIN a + 4 := by
      simp only [Reg.MOT_A_FAULT, Reg.MOT_A_REMAIN]; omega
    rw [rbit_congr (rd_wn64_ne _ _ hne.1 hne.2)]
    show rbit (wf (Reg.MOT_A_FAULT a) bit bit 1 s) _ _ = _
    split
    · rename_i e
      rw [e, rbit_wf_self _ _ _ _ hb]
      rfl
    · rename_i e
      rw [rbit_wf_other _ _ _ ⟨Nat.le_refl _, hb⟩ (by omega)]

end Sys2Proof.Machine
end

