-- ==== Sys2Proof/Laws/Reset.lean ====
section
/-! SUPPORT. What the start of a boot leaves. -/

namespace Sys2Proof.Machine
open Sys2Proof

theorem crkInterrupt_pwr (cut : Bool) (s : State) : (crkInterrupt cut s).pwr = s.pwr :=
  (crkInterrupt_keeps cut s (fun _ q => q) (Keeps.refl _ s)).only .pwr (by decide)

/-- Firmware after the start of a boot: nothing in its tables. -/
theorem startBoot_fw (k : RstKind) (cause : Nat) (cut : Bool) (s : State) :
    (startBoot k cause cut s).fw = { State.reset.fw with nextSeq := (crkInterrupt cut s).fw.nextSeq } := by
  unfold startBoot
  rcases s.pwr.boot with _ | k0
  · cases k <;> rfl
  · cases k <;> cases k0 <;> rfl

/-- The power controller after the start of a boot: RUN, no transition, and the boot of the stronger kind. -/
theorem startBoot_pwr (k : RstKind) (cause : Nat) (cut : Bool) (s : State) :
    (startBoot k cause cut s).pwr = { State.reset.pwr with low := s.pwr.low, jtag := s.pwr.jtag, boot := match s.pwr.boot with
      | some k0 => if k0.rank < k.rank then some k0 else some k
      | none => some k } := by
  have hc := crkInterrupt_pwr cut s
  have hl : s.pwr.low = (crkInterrupt cut s).pwr.low := by rw [hc]
  have hj : s.pwr.jtag = (crkInterrupt cut s).pwr.jtag := by rw [hc]
  rw [hl, hj]
  unfold startBoot
  generalize s.pwr.boot = o
  generalize crkInterrupt cut s = u
  rcases o with _ | k0
  · cases k <;> rfl
  · cases k <;> cases k0 <;> rfl

end Sys2Proof.Machine
end

