-- ==== Sys2Proof/Laws/Sagger.lean ====
section
/-! SUPPORT. What readiness, batches and ceilings leave of a tenant's keys and of rings. -/

namespace Sys2Proof.Machine
open Sys2Proof

/-- What only KEY_LOAD, QUOTA_GRANT and a wipe change of what Sagger knows of a tenant. -/
def SagTenant.own (x : SagTenant) : Option (BitVec 256) × Option (BitVec 384) × Nat := (x.key, x.digest, x.grantSeq)

/-- Every tenant's keys and grant sequence are the same. -/
def OwnSame (s u : State) : Prop := ∀ t, (sagTenant u t).own = (sagTenant s t).own

theorem OwnSame.trans {s t u : State} (h : OwnSame s t) (k : OwnSame t u) : OwnSame s u := fun n => (k n).trans (h n)

theorem OwnSame.of_sag {s u : State} (h : u.sag = s.sag) : OwnSame s u := fun n => by rw [sagTenant, sagTenant, h]

theorem OwnSame.of_keeps {s u : State} {ps : List Part} (k : Keeps ps s u) (h : Part.fuses ∉ ps ∧ Part.sag ∉ ps) : OwnSame s u :=
  OwnSame.of_sag (sag_of_only (k.only .fuses h.1) (k.only .sag h.2))

theorem OwnSame.updSag {t : Nat} {f : SagTenant → SagTenant} (s : State) (hf : ∀ x, (f x).own = x.own) :
    OwnSame s (updSag t f s) := by
  intro n
  rw [sagTenant, sagTenant, Sys2Proof.Machine.updSag]
  by_cases h : n = t
  · subst h
    rw [show (_ : State).sag.tenants = _ from rfl, tget_tput_self]
    exact hf _
  · rw [show (_ : State).sag.tenants = _ from rfl, tget_tput_ne _ _ _ h]

theorem OwnSame.foldl {α : Type} {f : State → α → State} (hf : ∀ s x, OwnSame s (f s x)) (l : List α) (s : State) :
    OwnSame s (l.foldl f s) := by
  induction l generalizing s with
  | nil => exact fun _ => rfl
  | cons a l ih => exact (hf s a).trans (ih _)

theorem persist_own (t : Nat) (c b : Option Nat) (s : State) : OwnSame s (persist t c b s) :=
  OwnSame.of_keeps (persist_keeps t c b s (fun _ q => q) (Keeps.refl _ s)) (by decide)

theorem writeCeiling_own (t : Nat) (c : Word) (s : State) : OwnSame s (writeCeiling t c s) := by
  unfold writeCeiling
  split
  · exact OwnSame.updSag s fun _ => rfl
  · split
    · refine OwnSame.trans ?_ (persist_own _ _ _ _)
      exact OwnSame.updSag s fun _ => rfl
    · exact fun _ => rfl

theorem ceilingCheck_own (t : Nat) (s : State) : OwnSame s (ceilingCheck t s) := by
  unfold ceilingCheck
  dsimp only
  split
  · exact writeCeiling_own _ _ _
  · exact fun _ => rfl

theorem closeBatch_own (t : Nat) (s : State) : OwnSame s (closeBatch t s) := by
  unfold closeBatch
  dsimp only
  split
  · exact fun _ => rfl
  · refine OwnSame.trans ?_ (persist_own _ _ _ _)
    have h := fun a b => OwnSame.updSag (t := t) (f := fun x => { x with head := a, batch := b, restart := none, receipts := [], slots := 0 })
      (draw 768 s).2 fun _ => rfl
    exact fun n => h _ _ n

theorem appendReceipt_own (t : Nat) (slot : Bool) (body : Nat → List Byte) (s : State) : OwnSame s (appendReceipt t slot body s) := by
  unfold appendReceipt
  extract_lets x first seq s1 s2
  have e1 : OwnSame s s1 := by
    unfold s1
    split
    · split
      · exact OwnSame.of_keeps (event_keeps _ _ _ _ (fun _ q => q) (Keeps.refl _ s)) (by decide)
      · exact fun _ => rfl
    · exact fun _ => rfl
  have e2 : OwnSame s s2 := e1.trans (OwnSame.updSag s1 fun _ => rfl)
  split
  · exact e2.trans (closeBatch_own _ _)
  · exact e2

theorem sealCopy_own (c : Nat) (s : State) : OwnSame s (sealCopy c s) := by
  unfold sealCopy
  split
  · rename_i x hx
    dsimp only
    split
    · exact fun _ => rfl
    · generalize receiptRecord _ _ _ _ _ _ _ _ _ _ _ _ _ _ _ _ _ = body
      generalize h2 : (if decide (x.state = .voided) = true then _ else _ : State) = s2
      have e2 : OwnSame s s2 := by
        rw [← h2]
        split
        · exact fun _ => rfl
        · refine OwnSame.trans (t := updCopy c (fun y => { y with state := .sealed, receiptSlot := false }) s) (fun _ => rfl) ?_
          exact OwnSame.updSag _ fun _ => rfl
      have e3 := e2.trans (appendReceipt_own x.tenant true body s2)
      generalize appendReceipt x.tenant true body s2 = s3 at e3
      split
      · exact e3
      · have e4 : OwnSame s { s3 with jobs := { s3.jobs with copies := s3.jobs.copies.filter (·.seq ≠ c) } } := e3.trans fun _ => rfl
        split
        · exact e4
        · exact e4.trans (closeBatch_own _ _)
  · exact fun _ => rfl

theorem sealVoid_own (c : Nat) (s : State) : OwnSame s (sealVoid c s) := by
  unfold sealVoid
  split
  · split
    · exact OwnSame.trans (t := updCopy c (fun y => { y with receiptSlot := true }) s) (fun _ => rfl) (sealCopy_own _ _)
    · exact fun _ => rfl
  · exact fun _ => rfl

theorem readyCopy_own (c : Nat) (s : State) : OwnSame s (readyCopy c s) := by
  unfold readyCopy
  split
  · split
    · dsimp only
      split
      · exact (ceilingCheck_own _ _).trans fun _ => rfl
      · exact ceilingCheck_own _ _
    · exact fun _ => rfl
  · exact fun _ => rfl

theorem refreshReady_own (s : State) : OwnSame s (refreshReady s) :=
  (OwnSame.foldl (fun s c => sealVoid_own c s) _ s).trans (OwnSame.foldl (fun s c => readyCopy_own c s) _ _)

/-! ## Rings -/

theorem sealVoid_alike (c : Nat) (s : State) : RingsAlike s (sealVoid c s) := fun m => by
  unfold sealVoid
  split
  · split
    · exact (ring_sealCopy_field (fun r => { r with gap := Ring.init.gap }) (fun _ _ => rfl) c m _).trans rfl
    · rfl
  · rfl

theorem RingsAlike.foldl {α : Type} {f : State → α → State} (hf : ∀ s x, RingsAlike s (f s x)) (l : List α) (s : State) :
    RingsAlike s (l.foldl f s) := by
  induction l generalizing s with
  | nil => exact RingsAlike.refl s
  | cons a l ih => exact (hf s a).trans (ih _)

theorem refreshReady_alike (s : State) : RingsAlike s (refreshReady s) :=
  (RingsAlike.foldl (fun s c => sealVoid_alike c s) _ s).trans
    (RingsAlike.foldl (fun s c => RingsAlike.of_keeps (readyCopy_keeps c s (fun _ q => q) (Keeps.refl _ s)) (by decide)) _ _)

/-! ## What has left the controller -/

/-- What has left the controller in one state has left it in another. -/
def OutGrows (s u : State) : Prop := ∀ o ∈ s.out, o ∈ u.out

theorem OutGrows.refl (s : State) : OutGrows s s := fun _ h => h

theorem OutGrows.trans {s t u : State} (h : OutGrows s t) (k : OutGrows t u) : OutGrows s u := fun o ho => k o (h o ho)

theorem OutGrows.of_keeps {s u : State} {ps : List Part} (k : Keeps ps s u) (h : Part.out ∉ ps) : OutGrows s u := fun o ho => by
  rw [show u.out = s.out from k.only .out h]
  exact ho

theorem OutGrows.foldl {α : Type} {f : State → α → State} (hf : ∀ s x, OutGrows s (f s x)) (l : List α) (s : State) :
    OutGrows s (l.foldl f s) := by
  induction l generalizing s with
  | nil => exact OutGrows.refl s
  | cons a l ih => exact (hf s a).trans (ih _)

/-- What is completed stays completed through a step that keeps firmware's tables and what has left, and the rings alike. -/
theorem CompletedWith.after_alike {ws : List (Nat × List Byte)} {d : Desc} {status result : Nat} {s t u : State}
    (h : CompletedWith ws d status result s t) (hf : u.fw = t.fw) (ho : OutGrows t u) (hr : RingsAlike t u) :
    CompletedWith ws d status result s u :=
  h.after hf ho (hr.field (·.ci) fun _ => rfl) (hr.field (·.entries) fun _ => rfl) (hr.field (·.pi) fun _ => rfl)

theorem raiseIrq_out (n b : Nat) (s : State) : OutGrows s (raiseIrq n b s) := by
  have hm : ∀ v u, OutGrows u (msixSend v u) := by
    intro v u
    unfold msixSend
    split
    · exact fun _ h => h
    · exact fun _ h => List.mem_cons_of_mem _ h
  unfold raiseIrq raiseBits setPageIrq
  dsimp only
  split
  · exact OutGrows.trans (t := putPage n _ s) (fun _ h => h) (hm _ _)
  · exact fun _ h => h

theorem acceptEvent_out (code : Nat) (alarm commit : Bool) (ten : Option Nat) (pl : List Byte) (s : State) :
    OutGrows s (acceptEvent code alarm commit ten pl s) := by
  have hd : ∀ (e : Event) (n : Nat) (u : State), OutGrows u (dropEvent e n u) := by
    intro e n u
    unfold dropEvent
    exact fun o ho => raiseIrq_out _ _ _ o ho
  have hf : ∀ (e : Event) (l : List Nat) (u : State), OutGrows u (l.foldl (fun t n => dropEvent e n t) u) :=
    fun e l u => OutGrows.foldl (fun u n => hd e n u) l u
  unfold acceptEvent
  extract_lets e s1
  split
  · exact fun _ h => h
  · exact fun o ho => hf e _ s1 o ho

theorem event_out (code : Nat) (ten : Option Nat) (pl : List Byte) (s : State) : OutGrows s (event code ten pl s) :=
  acceptEvent_out _ _ _ _ _ _

theorem closeBatch_out (t : Nat) (s : State) : OutGrows s (closeBatch t s) :=
  OutGrows.of_keeps (closeBatch_keeps t s (fun _ q => q) (Keeps.refl _ s)) (by decide)

theorem appendReceipt_out (t : Nat) (slot : Bool) (body : Nat → List Byte) (s : State) : OutGrows s (appendReceipt t slot body s) := by
  unfold appendReceipt
  extract_lets x first seq s1 s2
  have e1 : OutGrows s s1 := by
    unfold s1
    split
    · split
      · exact event_out _ _ _ _
      · exact OutGrows.refl s
    · exact OutGrows.refl s
  have e2 : OutGrows s s2 := e1.trans fun _ h => h
  split
  · exact e2.trans (closeBatch_out _ _)
  · exact e2

theorem sealCopy_out (c : Nat) (s : State) : OutGrows s (sealCopy c s) := by
  unfold sealCopy
  split
  · rename_i x hx
    dsimp only
    split
    · exact OutGrows.refl s
    · generalize receiptRecord _ _ _ _ _ _ _ _ _ _ _ _ _ _ _ _ _ = body
      generalize h2 : (if decide (x.state = .voided) = true then _ else _ : State) = s2
      have e2 : OutGrows s s2 := by
        rw [← h2]
        split <;> exact fun _ h => h
      have e3 := e2.trans (appendReceipt_out x.tenant true body s2)
      generalize appendReceipt x.tenant true body s2 = s3 at e3
      split
      · exact e3
      · have e4 : OutGrows s (discardWork c { s3 with jobs := { s3.jobs with copies := s3.jobs.copies.filter (·.seq ≠ c) } }) := e3
        split
        · exact e4
        · exact e4.trans (closeBatch_out _ _)
  · exact OutGrows.refl s

theorem refreshReady_out (s : State) : OutGrows s (refreshReady s) := by
  refine (OutGrows.foldl (fun s c => ?_) _ s).trans (OutGrows.foldl (fun s c => ?_) _ _)
  · unfold sealVoid
    split
    · split
      · exact OutGrows.trans (t := updCopy c (fun y => { y with receiptSlot := true }) s) (fun _ h => h) (sealCopy_out _ _)
      · exact OutGrows.refl s
    · exact OutGrows.refl s
  · exact OutGrows.of_keeps (readyCopy_keeps c s (fun _ q => q) (Keeps.refl _ s)) (by decide)

end Sys2Proof.Machine
end

