-- ==== Sys2Proof/Laws/Steps.lean ====
section
/-! SUPPORT. What every command keeps, and so every step: the canonical form of the threshold arrays, the life-cycle, the queue. -/

namespace Sys2Proof.Machine
open Sys2Proof

/-- The next state of a command is the one its lemma speaks of. -/
theorem keeps_of_next {o : Host.Outcome State Fault Refusal} {s t : State} {qs : List Part}
    (h : ∃ t, o = .next t ∧ Keeps qs s t) (e : o = .next t) : Keeps qs s t := by
  obtain ⟨u, e', k⟩ := h
  rw [e] at e'
  obtain rfl := Host.Outcome.next.inj e'
  exact k

/-- Every command's next state keeps what some list of parts without the queue leaves. -/
theorem exec_kept {i : Instr} {s t : State} (e : exec i s = .next t) : ∃ qs, Part.queue ∉ qs ∧ Keeps qs s t := by
  cases i with
  | nop x0 => exact ⟨_, by first | decide | simp, keeps_of_next (execNop_keeps x0 s) e⟩
  | deviceInfo x0 => exact ⟨_, by first | decide | simp, keeps_of_next (execDeviceInfo_keeps x0 s) e⟩
  | ringCreate x0 x1 x2 x3 x4 x5 x6 x7 x8 x9 x10 => exact ⟨_, by first | decide | simp, keeps_of_next (execRingCreate_keeps x0 x1 x2 x3 x4 x5 x6 x7 x8 x9 x10 s) e⟩
  | ringDestroy x0 x1 => exact ⟨_, by first | decide | simp, keeps_of_next (execRingDestroy_keeps x0 x1 s) e⟩
  | ringDestroyDone x0 => exact ⟨_, by first | decide | simp, keeps_of_next (execRingDestroyDone_keeps x0 s) e⟩
  | ringQuery x0 x1 => exact ⟨_, by first | decide | simp, keeps_of_next (execRingQuery_keeps x0 x1 s) e⟩
  | powerState x0 x1 => exact ⟨_, by first | decide | simp, keeps_of_next (execPowerState_keeps x0 x1 s) e⟩
  | tenantEnable x0 x1 x2 x3 => exact ⟨_, by first | decide | simp, keeps_of_next (execTenantEnable_keeps x0 x1 x2 x3 s) e⟩
  | tenantDisable x0 x1 => exact ⟨_, by first | decide | simp, keeps_of_next (execTenantDisable_keeps x0 x1 s) e⟩
  | tenantDrainKeyWipe x0 => exact ⟨_, by first | decide | simp, keeps_of_next (execTenantDrainKeyWipe_keeps x0 s) e⟩
  | tenantDrainDone x0 => exact ⟨_, by first | decide | simp, keeps_of_next (execTenantDrainDone_keeps x0 s) e⟩
  | tenantQuery x0 x1 => exact ⟨_, by first | decide | simp, keeps_of_next (execTenantQuery_keeps x0 x1 s) e⟩
  | keyLoad x0 x1 x2 => exact ⟨_, by first | decide | simp, keeps_of_next (execKeyLoad_keeps x0 x1 x2 s) e⟩
  | quotaGrant x0 x1 x2 => exact ⟨_, by first | decide | simp, keeps_of_next (execQuotaGrant_keeps x0 x1 x2 s) e⟩
  | quotaQuery x0 x1 => exact ⟨_, by first | decide | simp, keeps_of_next (execQuotaQuery_keeps x0 x1 s) e⟩
  | jobOpen x0 x1 x2 => exact ⟨_, by first | decide | simp, keeps_of_next (execJobOpen_keeps x0 x1 x2 s) e⟩
  | jobClose x0 x1 => exact ⟨_, by first | decide | simp, keeps_of_next (execJobClose_keeps x0 x1 s) e⟩
  | jobAbort x0 x1 => exact ⟨_, by first | decide | simp, keeps_of_next (execJobAbort_keeps x0 x1 s) e⟩
  | jobEndDone x0 => exact ⟨_, by first | decide | simp, keeps_of_next (execJobEndDone_keeps x0 s) e⟩
  | pageLoad x0 x1 => exact ⟨_, by first | decide | simp, keeps_of_next (execPageLoad_keeps x0 x1 s) e⟩
  | pageRelease x0 x1 x2 => exact ⟨_, by first | decide | simp, keeps_of_next (execPageRelease_keeps x0 x1 x2 s) e⟩
  | pageReleaseDone x0 => exact ⟨_, by first | decide | simp, keeps_of_next (execPageReleaseDone_keeps x0 s) e⟩
  | copySubmit x0 x1 => exact ⟨_, by first | decide | simp, keeps_of_next (execCopySubmit_keeps x0 x1 s) e⟩
  | copyWithdraw x0 x1 x2 => exact ⟨_, by first | decide | simp, keeps_of_next (execCopyWithdraw_keeps x0 x1 x2 s) e⟩
  | copyQuery x0 x1 x2 => exact ⟨_, by first | decide | simp, keeps_of_next (execCopyQuery_keeps x0 x1 x2 s) e⟩
  | streamOpen x0 x1 x2 x3 x4 => exact ⟨_, by first | decide | simp, keeps_of_next (execStreamOpen_keeps x0 x1 x2 x3 x4 s) e⟩
  | streamFree x0 x1 => exact ⟨_, by first | decide | simp, keeps_of_next (execStreamFree_keeps x0 x1 s) e⟩
  | parkedCommandResume x0 => exact ⟨_, by first | decide | simp, keeps_of_next (execParkedCommandResume_keeps x0 s) e⟩
  | tileLoad x0 x1 x2 => exact ⟨_, by first | decide | simp, keeps_of_next (execTileLoad_keeps x0 x1 x2 s) e⟩
  | tileEvict x0 x1 => exact ⟨_, by first | decide | simp, keeps_of_next (execTileEvict_keeps x0 x1 s) e⟩
  | segmentLoad x0 x1 => exact ⟨_, by first | decide | simp, keeps_of_next (execSegmentLoad_keeps x0 x1 s) e⟩
  | planeConfig x0 x1 x2 => exact ⟨_, by first | decide | simp, keeps_of_next (execPlaneConfig_keeps x0 x1 x2 s) e⟩
  | passLoad x0 x1 x2 => exact ⟨_, by first | decide | simp, keeps_of_next (execPassLoad_keeps x0 x1 x2 s) e⟩
  | kilnStart x0 x1 => exact ⟨_, by first | decide | simp, keeps_of_next (execKilnStart_keeps x0 x1 s) e⟩
  | kilnStop x0 x1 => exact ⟨_, by first | decide | simp, keeps_of_next (execKilnStop_keeps x0 x1 s) e⟩
  | kilnStopDone x0 => exact ⟨_, by first | decide | simp, keeps_of_next (execKilnStopDone_keeps x0 s) e⟩
  | headPower x0 x1 x2 x3 => exact ⟨_, by first | decide | simp, keeps_of_next (execHeadPower_keeps x0 x1 x2 x3 s) e⟩
  | headPowerDone x0 => exact ⟨_, by first | decide | simp, keeps_of_next (execHeadPowerDone_keeps x0 s) e⟩
  | headPowerTimeout x0 x1 => exact ⟨_, by first | decide | simp, keeps_of_next (execHeadPowerTimeout_keeps x0 x1 s) e⟩
  | pressStatus x0 => exact ⟨_, by first | decide | simp, keeps_of_next (execPressStatus_keeps x0 s) e⟩
  | nozzleRead x0 x1 x2 x3 x4 => exact ⟨_, by first | decide | simp, keeps_of_next (execNozzleRead_keeps x0 x1 x2 x3 x4 s) e⟩
  | nozzleWrite x0 x1 => exact ⟨_, by first | decide | simp, keeps_of_next (execNozzleWrite_keeps x0 x1 s) e⟩
  | nozzleWriteDone x0 => exact ⟨_, by first | decide | simp, keeps_of_next (execNozzleWriteDone_keeps x0 s) e⟩
  | curveLoad x0 x1 x2 x3 => exact ⟨_, by first | decide | simp, keeps_of_next (execCurveLoad_keeps x0 x1 x2 x3 s) e⟩
  | threshLoad x0 x1 x2 => exact ⟨_, by first | decide | simp, keeps_of_next (execThreshLoad_keeps x0 x1 x2 s) e⟩
  | kernelSelect x0 x1 x2 x3 => exact ⟨_, by first | decide | simp, keeps_of_next (execKernelSelect_keeps x0 x1 x2 x3 s) e⟩
  | splitMove x0 x1 x2 => exact ⟨_, by first | decide | simp, keeps_of_next (execSplitMove_keeps x0 x1 x2 s) e⟩
  | calControl x0 x1 x2 => exact ⟨_, by first | decide | simp, keeps_of_next (execCalControl_keeps x0 x1 x2 s) e⟩
  | refSelect x0 x1 x2 => exact ⟨_, by first | decide | simp, keeps_of_next (execRefSelect_keeps x0 x1 x2 s) e⟩
  | calStatus x0 x1 => exact ⟨_, by first | decide | simp, keeps_of_next (execCalStatus_keeps x0 x1 s) e⟩
  | axisConfig x0 x1 x2 => exact ⟨_, by first | decide | simp, keeps_of_next (execAxisConfig_keeps x0 x1 x2 s) e⟩
  | axisEnable x0 x1 x2 => exact ⟨_, by first | decide | simp, keeps_of_next (execAxisEnable_keeps x0 x1 x2 s) e⟩
  | axisMove x0 x1 x2 x3 => exact ⟨_, by first | decide | simp, keeps_of_next (execAxisMove_keeps x0 x1 x2 x3 s) e⟩
  | axisStop x0 x1 x2 => exact ⟨_, by first | decide | simp, keeps_of_next (execAxisStop_keeps x0 x1 x2 s) e⟩
  | axisResume x0 x1 => exact ⟨_, by first | decide | simp, keeps_of_next (execAxisResume_keeps x0 x1 s) e⟩
  | axisHome x0 x1 x2 x3 => exact ⟨_, by first | decide | simp, keeps_of_next (execAxisHome_keeps x0 x1 x2 x3 s) e⟩
  | axisQuery x0 x1 => exact ⟨_, by first | decide | simp, keeps_of_next (execAxisQuery_keeps x0 x1 s) e⟩
  | moveComplete x0 => exact ⟨_, by first | decide | simp, keeps_of_next (execMoveComplete_keeps x0 s) e⟩
  | homingComplete x0 => exact ⟨_, by first | decide | simp, keeps_of_next (execHomingComplete_keeps x0 s) e⟩
  | homingTimeout x0 x1 => exact ⟨_, by first | decide | simp, keeps_of_next (execHomingTimeout_keeps x0 x1 s) e⟩
  | cameraConfig x0 x1 x2 => exact ⟨_, by first | decide | simp, keeps_of_next (execCameraConfig_keeps x0 x1 x2 s) e⟩
  | inspectControl x0 x1 x2 x3 => exact ⟨_, by first | decide | simp, keeps_of_next (execInspectControl_keeps x0 x1 x2 x3 s) e⟩
  | reprocess x0 x1 x2 => exact ⟨_, by first | decide | simp, keeps_of_next (execReprocess_keeps x0 x1 x2 s) e⟩
  | defectFetch x0 x1 x2 => exact ⟨_, by first | decide | simp, keeps_of_next (execDefectFetch_keeps x0 x1 x2 s) e⟩
  | receiptFetch x0 x1 x2 => exact ⟨_, by first | decide | simp, keeps_of_next (execReceiptFetch_keeps x0 x1 x2 s) e⟩
  | attest x0 x1 x2 x3 => exact ⟨_, by first | decide | simp, keeps_of_next (execAttest_keeps x0 x1 x2 x3 s) e⟩
  | debugUnlock x0 x1 => exact ⟨_, by first | decide | simp, keeps_of_next (execDebugUnlock_keeps x0 x1 s) e⟩
  | lifecycleAdvance x0 x1 x2 => exact ⟨_, by first | decide | simp, keeps_of_next (execLifecycleAdvance_keeps x0 x1 x2 s) e⟩
  | consumableScan x0 x1 => exact ⟨_, by first | decide | simp, keeps_of_next (execConsumableScan_keeps x0 x1 s) e⟩
  | consumableQuery x0 x1 => exact ⟨_, by first | decide | simp, keeps_of_next (execConsumableQuery_keeps x0 x1 s) e⟩
  | tallyCheckpoint x0 => exact ⟨_, by first | decide | simp, keeps_of_next (execTallyCheckpoint_keeps x0 s) e⟩
  | patchStatus x0 x1 x2 => exact ⟨_, by first | decide | simp, keeps_of_next (execPatchStatus_keeps x0 x1 x2 s) e⟩
  | nozzleSnapshot x0 => exact ⟨_, by first | decide | simp, keeps_of_next (execNozzleSnapshot_keeps x0 s) e⟩
  | journalCompact x0 => exact ⟨_, by first | decide | simp, keeps_of_next (execJournalCompact_keeps x0 s) e⟩
  | maintSpit x0 x1 x2 x3 => exact ⟨_, by first | decide | simp, keeps_of_next (execMaintSpit_keeps x0 x1 x2 x3 s) e⟩
  | storeWrite x0 x1 x2 => exact ⟨_, by first | decide | simp, keeps_of_next (execStoreWrite_keeps x0 x1 x2 s) e⟩
  | eventFilter x0 x1 x2 => exact ⟨_, by first | decide | simp, keeps_of_next (execEventFilter_keeps x0 x1 x2 s) e⟩
  | alarmFetch x0 x1 x2 => exact ⟨_, by first | decide | simp, keeps_of_next (execAlarmFetch_keeps x0 x1 x2 s) e⟩
  | alarmAck x0 x1 => exact ⟨_, by first | decide | simp, keeps_of_next (execAlarmAck_keeps x0 x1 s) e⟩
  | traceConfig x0 x1 => exact ⟨_, by first | decide | simp, keeps_of_next (execTraceConfig_keeps x0 x1 s) e⟩
  | stookLimit x0 x1 => exact ⟨_, by first | decide | simp, keeps_of_next (execStookLimit_keeps x0 x1 s) e⟩
  | latchCommandComplete x0 => exact ⟨_, by first | decide | simp, keeps_of_next (execLatchCommandComplete_keeps x0 s) e⟩
  | completionPost x0 x1 => exact ⟨_, by first | decide | simp, keeps_of_next (execCompletionPost_keeps x0 x1 s) e⟩
  | doorbell x0 x1 x2 x3 x4 => exact ⟨_, by first | decide | simp, keeps_of_next (execDoorbell_keeps x0 x1 x2 x3 x4 s) e⟩
  | hifRunWrite x0 x1 x2 => exact ⟨_, by first | decide | simp, keeps_of_next (execHifRunWrite_keeps x0 x1 x2 s) e⟩
  | busMasterEnableWrite x0 x1 => exact ⟨_, by first | decide | simp, keeps_of_next (execBusMasterEnableWrite_keeps x0 x1 s) e⟩
  | d3hotTransition => exact ⟨_, by first | decide | simp, keeps_of_next (execD3hotTransition_keeps s) e⟩
  | msixVectorUnmask x0 => exact ⟨_, by first | decide | simp, keeps_of_next (execMsixVectorUnmask_keeps x0 s) e⟩
  | hifDescriptorFetch x0 => exact ⟨_, by first | decide | simp, keeps_of_next (execHifDescriptorFetch_keeps x0 s) e⟩
  | hifDataFetch => exact ⟨_, by first | decide | simp, keeps_of_next (execHifDataFetch_keeps s) e⟩
  | hostReadCompletion x0 x1 => exact ⟨_, by first | decide | simp, keeps_of_next (execHostReadCompletion_keeps x0 x1 s) e⟩
  | completionTimeout x0 => exact ⟨_, by first | decide | simp, keeps_of_next (execCompletionTimeout_keeps x0 s) e⟩
  | backgroundPromote x0 => exact ⟨_, by first | decide | simp, keeps_of_next (execBackgroundPromote_keeps x0 s) e⟩
  | receivedRequestFault x0 => exact ⟨_, by first | decide | simp, keeps_of_next (execReceivedRequestFault_keeps x0 s) e⟩
  | indexWriteback x0 x1 => exact ⟨_, by first | decide | simp, keeps_of_next (execIndexWriteback_keeps x0 x1 s) e⟩
  | imodTimeout x0 => exact ⟨_, by first | decide | simp, keeps_of_next (execImodTimeout_keeps x0 s) e⟩
  | ltrRiseTimer => exact ⟨_, by first | decide | simp, keeps_of_next (execLtrRiseTimer_keeps s) e⟩
  | ptmRequestTimer => exact ⟨_, by first | decide | simp, keeps_of_next (execPtmRequestTimer_keeps s) e⟩
  | ptmTimeout => exact ⟨_, by first | decide | simp, keeps_of_next (execPtmTimeout_keeps s) e⟩
  | timPtmMeasurement x0 x1 x2 => exact ⟨_, by first | decide | simp, keeps_of_next (execTimPtmMeasurement_keeps x0 x1 x2 s) e⟩
  | barAccessAbort x0 x1 x2 => exact ⟨_, by first | decide | simp, keeps_of_next (execBarAccessAbort_keeps x0 x1 x2 s) e⟩
  | unmappedPageAccess x0 x1 x2 => exact ⟨_, by first | decide | simp, keeps_of_next (execUnmappedPageAccess_keeps x0 x1 x2 s) e⟩
  | registerWrite x0 x1 x2 x3 x4 x5 => exact ⟨_, by first | decide | simp, keeps_of_next (execRegisterWrite_keeps x0 x1 x2 x3 x4 x5 s) e⟩
  | rwsRegisterWrite x0 x1 x2 x3 x4 => exact ⟨_, by first | decide | simp, keeps_of_next (execRwsRegisterWrite_keeps x0 x1 x2 x3 x4 s) e⟩
  | rwlRegisterWrite x0 x1 x2 x3 => exact ⟨_, by first | decide | simp, keeps_of_next (execRwlRegisterWrite_keeps x0 x1 x2 x3 s) e⟩
  | lowWordRead x0 x1 x2 => exact ⟨_, by first | decide | simp, keeps_of_next (execLowWordRead_keeps x0 x1 x2 s) e⟩
  | highWordRead x0 x1 => exact ⟨_, by first | decide | simp, keeps_of_next (execHighWordRead_keeps x0 x1 s) e⟩
  | snapshotRead x0 x1 => exact ⟨_, by first | decide | simp, keeps_of_next (execSnapshotRead_keeps x0 x1 s) e⟩
  | timNsRead x0 => exact ⟨_, by first | decide | simp, keeps_of_next (execTimNsRead_keeps x0 s) e⟩
  | timXsnapRead x0 => exact ⟨_, by first | decide | simp, keeps_of_next (execTimXsnapRead_keeps x0 s) e⟩
  | sagNonceRead x0 => exact ⟨_, by first | decide | simp, keeps_of_next (execSagNonceRead_keeps x0 s) e⟩
  | nonceExpire x0 => exact ⟨_, by first | decide | simp, keeps_of_next (execNonceExpire_keeps x0 s) e⟩
  | pgIrqStatClear x0 x1 x2 => exact ⟨_, by first | decide | simp, keeps_of_next (execPgIrqStatClear_keeps x0 x1 x2 s) e⟩
  | pgIrqSet x0 x1 x2 => exact ⟨_, by first | decide | simp, keeps_of_next (execPgIrqSet_keeps x0 x1 x2 s) e⟩
  | pgErrClear x0 x1 x2 => exact ⟨_, by first | decide | simp, keeps_of_next (execPgErrClear_keeps x0 x1 x2 s) e⟩
  | shadowDiscard x0 x1 x2 => exact ⟨_, by first | decide | simp, keeps_of_next (execShadowDiscard_keeps x0 x1 x2 s) e⟩
  | shadowHoldWrite x0 x1 x2 => exact ⟨_, by first | decide | simp, keeps_of_next (execShadowHoldWrite_keeps x0 x1 x2 s) e⟩
  | holdRelease x0 x1 => exact ⟨_, by first | decide | simp, keeps_of_next (execHoldRelease_keeps x0 x1 s) e⟩
  | cmdHoldRelease x0 x1 => exact ⟨_, by first | decide | simp, keeps_of_next (execCmdHoldRelease_keeps x0 x1 s) e⟩
  | statusW1cClear x0 x1 x2 x3 => exact ⟨_, by first | decide | simp, keeps_of_next (execStatusW1cClear_keeps x0 x1 x2 x3 s) e⟩
  | counterClear x0 x1 x2 x3 => exact ⟨_, by first | decide | simp, keeps_of_next (execCounterClear_keeps x0 x1 x2 x3 s) e⟩
  | softReset x0 x1 x2 => exact ⟨_, by first | decide | simp, keeps_of_next (execSoftReset_keeps x0 x1 x2 s) e⟩
  | softResetEnd x0 => exact ⟨_, by first | decide | simp, keeps_of_next (execSoftResetEnd_keeps x0 s) e⟩
  | applyArmWrite x0 x1 x2 => exact ⟨_, by first | decide | simp, keeps_of_next (execApplyArmWrite_keeps x0 x1 x2 s) e⟩
  | tilSplitBarWrite x0 x1 => exact ⟨_, by first | decide | simp, keeps_of_next (execTilSplitBarWrite_keeps x0 x1 s) e⟩
  | glzBandWrite x0 x1 => exact ⟨_, by first | decide | simp, keeps_of_next (execGlzBandWrite_keeps x0 x1 s) e⟩
  | gleanWindowDiscardWrite x0 x1 x2 => exact ⟨_, by first | decide | simp, keeps_of_next (execGleanWindowDiscardWrite_keeps x0 x1 x2 s) e⟩
  | klnTripClear x0 x1 => exact ⟨_, by first | decide | simp, keeps_of_next (execKlnTripClear_keeps x0 x1 s) e⟩
  | hlkPortEnable x0 x1 x2 => exact ⟨_, by first | decide | simp, keeps_of_next (execHlkPortEnable_keeps x0 x1 x2 s) e⟩
  | hlkRetrainWrite x0 x1 x2 => exact ⟨_, by first | decide | simp, keeps_of_next (execHlkRetrainWrite_keeps x0 x1 x2 s) e⟩
  | hlkFaultClear x0 x1 x2 => exact ⟨_, by first | decide | simp, keeps_of_next (execHlkFaultClear_keeps x0 x1 x2 s) e⟩
  | pifChannelEnable x0 x1 x2 => exact ⟨_, by first | decide | simp, keeps_of_next (execPifChannelEnable_keeps x0 x1 x2 s) e⟩
  | pifRearm x0 x1 x2 => exact ⟨_, by first | decide | simp, keeps_of_next (execPifRearm_keeps x0 x1 x2 s) e⟩
  | pifLoad x0 x1 x2 => exact ⟨_, by first | decide | simp, keeps_of_next (execPifLoad_keeps x0 x1 x2 s) e⟩
  | pifIdxPeriodWrite x0 x1 x2 x3 => exact ⟨_, by first | decide | simp, keeps_of_next (execPifIdxPeriodWrite_keeps x0 x1 x2 x3 s) e⟩
  | motFaultClear x0 x1 x2 => exact ⟨_, by first | decide | simp, keeps_of_next (execMotFaultClear_keeps x0 x1 x2 s) e⟩
  | shadingCaptureDark x0 x1 x2 => exact ⟨_, by first | decide | simp, keeps_of_next (execShadingCaptureDark_keeps x0 x1 x2 s) e⟩
  | shadingCaptureWhite x0 x1 x2 => exact ⟨_, by first | decide | simp, keeps_of_next (execShadingCaptureWhite_keeps x0 x1 x2 s) e⟩
  | shadingCaptureDone x0 => exact ⟨_, by first | decide | simp, keeps_of_next (execShadingCaptureDone_keeps x0 s) e⟩
  | timWriteNow x0 x1 => exact ⟨_, by first | decide | simp, keeps_of_next (execTimWriteNow_keeps x0 x1 s) e⟩
  | timWriteAtSec x0 x1 => exact ⟨_, by first | decide | simp, keeps_of_next (execTimWriteAtSec_keeps x0 x1 s) e⟩
  | timWriteCancel x0 x1 => exact ⟨_, by first | decide | simp, keeps_of_next (execTimWriteCancel_keeps x0 x1 s) e⟩
  | timSrcWrite x0 x1 => exact ⟨_, by first | decide | simp, keeps_of_next (execTimSrcWrite_keeps x0 x1 s) e⟩
  | trmRoleOff x0 x1 => exact ⟨_, by first | decide | simp, keeps_of_next (execTrmRoleOff_keeps x0 x1 s) e⟩
  | trmRoleFollower x0 x1 => exact ⟨_, by first | decide | simp, keeps_of_next (execTrmRoleFollower_keeps x0 x1 s) e⟩
  | trmRoleLeader x0 x1 => exact ⟨_, by first | decide | simp, keeps_of_next (execTrmRoleLeader_keeps x0 x1 s) e⟩
  | iocalStart x0 x1 => exact ⟨_, by first | decide | simp, keeps_of_next (execIocalStart_keeps x0 x1 s) e⟩
  | glbRstWrite x0 x1 => exact ⟨_, by first | decide | simp, keeps_of_next (execGlbRstWrite_keeps x0 x1 s) e⟩
  | fanModeWrite x0 x1 x2 => exact ⟨_, by first | decide | simp, keeps_of_next (execFanModeWrite_keeps x0 x1 x2 s) e⟩
  | thrStreamPrepare x0 x1 => exact ⟨_, by first | decide | simp, keeps_of_next (execThrStreamPrepare_keeps x0 x1 s) e⟩
  | thrStreamPrepared => exact ⟨_, by first | decide | simp, keeps_of_next (execThrStreamPrepared_keeps s) e⟩
  | thrBlockStart x0 => exact ⟨_, by first | decide | simp, keeps_of_next (execThrBlockStart_keeps x0 s) e⟩
  | thrBlockDone x0 => exact ⟨_, by first | decide | simp, keeps_of_next (execThrBlockDone_keeps x0 s) e⟩
  | millBlock x0 x1 => exact ⟨_, by first | decide | simp, keeps_of_next (execMillBlock_keeps x0 x1 s) e⟩
  | glazeLine x0 => exact ⟨_, by first | decide | simp, keeps_of_next (execGlazeLine_keeps x0 s) e⟩
  | glazeBand x0 => exact ⟨_, by first | decide | simp, keeps_of_next (execGlazeBand_keeps x0 s) e⟩
  | glazePoolWaitEnd => exact ⟨_, by first | decide | simp, keeps_of_next (execGlazePoolWaitEnd_keeps s) e⟩
  | tillerRowLine x0 x1 => exact ⟨_, by first | decide | simp, keeps_of_next (execTillerRowLine_keeps x0 x1 s) e⟩
  | entryRestore x0 => exact ⟨_, by first | decide | simp, keeps_of_next (execEntryRestore_keeps x0 s) e⟩
  | gapRowLine x0 x1 => exact ⟨_, by first | decide | simp, keeps_of_next (execGapRowLine_keeps x0 x1 s) e⟩
  | fillRowLine x0 x1 => exact ⟨_, by first | decide | simp, keeps_of_next (execFillRowLine_keeps x0 x1 s) e⟩
  | underrunReversal x0 x1 => exact ⟨_, by first | decide | simp, keeps_of_next (execUnderrunReversal_keeps x0 x1 s) e⟩
  | tillerSweep x0 => exact ⟨_, by first | decide | simp, keeps_of_next (execTillerSweep_keeps x0 s) e⟩
  | tillerComparatorTrip x0 => exact ⟨_, by first | decide | simp, keeps_of_next (execTillerComparatorTrip_keeps x0 s) e⟩
  | tillerThrottleEnd x0 => exact ⟨_, by first | decide | simp, keeps_of_next (execTillerThrottleEnd_keeps x0 s) e⟩
  | autoSplit x0 => exact ⟨_, by first | decide | simp, keeps_of_next (execAutoSplit_keeps x0 s) e⟩
  | paceStepEdge x0 x1 x2 x3 x4 => exact ⟨_, by first | decide | simp, keeps_of_next (execPaceStepEdge_keeps x0 x1 x2 x3 x4 s) e⟩
  | kilnSheafShift x0 x1 => exact ⟨_, by first | decide | simp, keeps_of_next (execKilnSheafShift_keeps x0 x1 s) e⟩
  | rowLineUnderrun x0 x1 x2 => exact ⟨_, by first | decide | simp, keeps_of_next (execRowLineUnderrun_keeps x0 x1 x2 s) e⟩
  | fireEdge x0 => exact ⟨_, by first | decide | simp, keeps_of_next (execFireEdge_keeps x0 s) e⟩
  | firedWindowCompare x0 x1 => exact ⟨_, by first | decide | simp, keeps_of_next (execFiredWindowCompare_keeps x0 x1 s) e⟩
  | frameMarkEnd x0 => exact ⟨_, by first | decide | simp, keeps_of_next (execFrameMarkEnd_keeps x0 s) e⟩
  | channelPause x0 x1 => exact ⟨_, by first | decide | simp, keeps_of_next (execChannelPause_keeps x0 x1 s) e⟩
  | planePause x0 x1 => exact ⟨_, by first | decide | simp, keeps_of_next (execPlanePause_keeps x0 x1 s) e⟩
  | pauseTickle x0 x1 => exact ⟨_, by first | decide | simp, keeps_of_next (execPauseTickle_keeps x0 x1 s) e⟩
  | pauseSpoil x0 x1 => exact ⟨_, by first | decide | simp, keeps_of_next (execPauseSpoil_keeps x0 x1 s) e⟩
  | tripInput x0 x1 x2 => exact ⟨_, by first | decide | simp, keeps_of_next (execTripInput_keeps x0 x1 x2 s) e⟩
  | hlkForwardFrame x0 => exact ⟨_, by first | decide | simp, keeps_of_next (execHlkForwardFrame_keeps x0 s) e⟩
  | hlkRxStatus x0 x1 x2 x3 x4 x5 x6 x7 => exact ⟨_, by first | decide | simp, keeps_of_next (execHlkRxStatus_keeps x0 x1 x2 x3 x4 x5 x6 x7 s) e⟩
  | hlkRxTemp x0 x1 x2 => exact ⟨_, by first | decide | simp, keeps_of_next (execHlkRxTemp_keeps x0 x1 x2 s) e⟩
  | hlkRxFault x0 x1 x2 x3 => exact ⟨_, by first | decide | simp, keeps_of_next (execHlkRxFault_keeps x0 x1 x2 x3 s) e⟩
  | hlkRxAck x0 x1 x2 => exact ⟨_, by first | decide | simp, keeps_of_next (execHlkRxAck_keeps x0 x1 x2 s) e⟩
  | hlkRxSync x0 x1 => exact ⟨_, by first | decide | simp, keeps_of_next (execHlkRxSync_keeps x0 x1 s) e⟩
  | hlkRxFrameBad x0 => exact ⟨_, by first | decide | simp, keeps_of_next (execHlkRxFrameBad_keeps x0 s) e⟩
  | hlkTrainTimeout x0 => exact ⟨_, by first | decide | simp, keeps_of_next (execHlkTrainTimeout_keeps x0 s) e⟩
  | hlkRxTimeout x0 => exact ⟨_, by first | decide | simp, keeps_of_next (execHlkRxTimeout_keeps x0 s) e⟩
  | hlkFltNFault x0 x1 x2 => exact ⟨_, by first | decide | simp, keeps_of_next (execHlkFltNFault_keeps x0 x1 x2 s) e⟩
  | hlkPgDelayExpire x0 x1 => exact ⟨_, by first | decide | simp, keeps_of_next (execHlkPgDelayExpire_keeps x0 x1 s) e⟩
  | pifAdcSample x0 x1 x2 x3 => exact ⟨_, by first | decide | simp, keeps_of_next (execPifAdcSample_keeps x0 x1 x2 x3 s) e⟩
  | pifSquareSample x0 x1 x2 x3 => exact ⟨_, by first | decide | simp, keeps_of_next (execPifSquareSample_keeps x0 x1 x2 x3 s) e⟩
  | pifIndexCapture x0 x1 x2 => exact ⟨_, by first | decide | simp, keeps_of_next (execPifIndexCapture_keeps x0 x1 x2 s) e⟩
  | motGeneratorUpdate x0 => exact ⟨_, by first | decide | simp, keeps_of_next (execMotGeneratorUpdate_keeps x0 s) e⟩
  | motPwmPeriod x0 x1 x2 => exact ⟨_, by first | decide | simp, keeps_of_next (execMotPwmPeriod_keeps x0 x1 x2 s) e⟩
  | motSdFastFilter x0 x1 x2 => exact ⟨_, by first | decide | simp, keeps_of_next (execMotSdFastFilter_keeps x0 x1 x2 s) e⟩
  | motSdLoss x0 x1 x2 => exact ⟨_, by first | decide | simp, keeps_of_next (execMotSdLoss_keeps x0 x1 x2 s) e⟩
  | motLimitInput x0 x1 x2 => exact ⟨_, by first | decide | simp, keeps_of_next (execMotLimitInput_keeps x0 x1 x2 s) e⟩
  | motStandstillTimer x0 => exact ⟨_, by first | decide | simp, keeps_of_next (execMotStandstillTimer_keeps x0 s) e⟩
  | motEnableAdmit x0 => exact ⟨_, by first | decide | simp, keeps_of_next (execMotEnableAdmit_keeps x0 s) e⟩
  | csiLongPacket x0 x1 x2 x3 x4 x5 x6 x7 x8 x9 => exact ⟨_, by first | decide | simp, keeps_of_next (execCsiLongPacket_keeps x0 x1 x2 x3 x4 x5 x6 x7 x8 x9 s) e⟩
  | csiShortPacket x0 x1 x2 x3 x4 x5 => exact ⟨_, by first | decide | simp, keeps_of_next (execCsiShortPacket_keeps x0 x1 x2 x3 x4 x5 s) e⟩
  | iplPipelineLine x0 => exact ⟨_, by first | decide | simp, keeps_of_next (execIplPipelineLine_keeps x0 s) e⟩
  | iplStallTimeout x0 x1 => exact ⟨_, by first | decide | simp, keeps_of_next (execIplStallTimeout_keeps x0 x1 s) e⟩
  | imageStore => exact ⟨_, by first | decide | simp, keeps_of_next (execImageStore_keeps s) e⟩
  | winnowLineCompare x0 => exact ⟨_, by first | decide | simp, keeps_of_next (execWinnowLineCompare_keeps x0 s) e⟩
  | winnowRuleTimeout x0 x1 => exact ⟨_, by first | decide | simp, keeps_of_next (execWinnowRuleTimeout_keeps x0 x1 s) e⟩
  | gleanDumpSolve x0 => exact ⟨_, by first | decide | simp, keeps_of_next (execGleanDumpSolve_keeps x0 s) e⟩
  | calProposalCheck x0 => exact ⟨_, by first | decide | simp, keeps_of_next (execCalProposalCheck_keeps x0 s) e⟩
  | batchCloseTimer x0 => exact ⟨_, by first | decide | simp, keeps_of_next (execBatchCloseTimer_keeps x0 s) e⟩
  | batchPost x0 => exact ⟨_, by first | decide | simp, keeps_of_next (execBatchPost_keeps x0 s) e⟩
  | trmBeaconSend => exact ⟨_, by first | decide | simp, keeps_of_next (execTrmBeaconSend_keeps s) e⟩
  | trmBeaconReceive x0 x1 x2 x3 => exact ⟨_, by first | decide | simp, keeps_of_next (execTrmBeaconReceive_keeps x0 x1 x2 x3 s) e⟩
  | trmBeaconMissed x0 => exact ⟨_, by first | decide | simp, keeps_of_next (execTrmBeaconMissed_keeps x0 s) e⟩
  | trmFollowerBurstSend => exact ⟨_, by first | decide | simp, keeps_of_next (execTrmFollowerBurstSend_keeps s) e⟩
  | trmFollowerBurstReceive x0 x1 x2 x3 x4 => exact ⟨_, by first | decide | simp, keeps_of_next (execTrmFollowerBurstReceive_keeps x0 x1 x2 x3 x4 s) e⟩
  | trmClaimTimer x0 => exact ⟨_, by first | decide | simp, keeps_of_next (execTrmClaimTimer_keeps x0 s) e⟩
  | trmLeadLineLow x0 => exact ⟨_, by first | decide | simp, keeps_of_next (execTrmLeadLineLow_keeps x0 s) e⟩
  | timSecondRollover => exact ⟨_, by first | decide | simp, keeps_of_next (execTimSecondRollover_keeps s) e⟩
  | timSlewEnd => exact ⟨_, by first | decide | simp, keeps_of_next (execTimSlewEnd_keeps s) e⟩
  | tallyCheckpointTimer => exact ⟨_, by first | decide | simp, keeps_of_next (execTallyCheckpointTimer_keeps s) e⟩
  | tallyWriteBack => exact ⟨_, by first | decide | simp, keeps_of_next (execTallyWriteBack_keeps s) e⟩
  | tallyCkptLate x0 => exact ⟨_, by first | decide | simp, keeps_of_next (execTallyCkptLate_keeps x0 s) e⟩
  | tallyI2cBusyRetry x0 => exact ⟨_, by first | decide | simp, keeps_of_next (execTallyI2cBusyRetry_keeps x0 s) e⟩
  | i2cStretchTimeout x0 => exact ⟨_, by first | decide | simp, keeps_of_next (execI2cStretchTimeout_keeps x0 s) e⟩
  | crockRecordWrite x0 => exact ⟨_, by first | decide | simp, keeps_of_next (execCrockRecordWrite_keeps x0 s) e⟩
  | crockCompactionDone x0 => exact ⟨_, by first | decide | simp, keeps_of_next (execCrockCompactionDone_keeps x0 s) e⟩
  | snapshotTimer => exact ⟨_, by first | decide | simp, keeps_of_next (execSnapshotTimer_keeps s) e⟩
  | snapshotWrite => exact ⟨_, by first | decide | simp, keeps_of_next (execSnapshotWrite_keeps s) e⟩
  | calFlushTimer => exact ⟨_, by first | decide | simp, keeps_of_next (execCalFlushTimer_keeps s) e⟩
  | crockGraceEnd x0 => exact ⟨_, by first | decide | simp, keeps_of_next (execCrockGraceEnd_keeps x0 s) e⟩
  | stookEventWrite => exact ⟨_, by first | decide | simp, keeps_of_next (execStookEventWrite_keeps s) e⟩
  | stookTraceWrite => exact ⟨_, by first | decide | simp, keeps_of_next (execStookTraceWrite_keeps s) e⟩
  | stookThrottleTimer x0 => exact ⟨_, by first | decide | simp, keeps_of_next (execStookThrottleTimer_keeps x0 s) e⟩
  | coreSleep x0 => exact ⟨_, by first | decide | simp, keeps_of_next (execCoreSleep_keeps x0 s) e⟩
  | coreWake x0 x1 x2 => exact ⟨_, by first | decide | simp, keeps_of_next (execCoreWake_keeps x0 x1 x2 s) e⟩
  | firewallDenial x0 x1 x2 x3 => exact ⟨_, by first | decide | simp, keeps_of_next (execFirewallDenial_keeps x0 x1 x2 x3 s) e⟩
  | boot x0 x1 x2 x3 x4 x5 x6 x7 => exact ⟨_, by first | decide | simp, keeps_of_next (execBoot_keeps x0 x1 x2 x3 x4 x5 x6 x7 s) e⟩
  | por x0 => exact ⟨_, by first | decide | simp, keeps_of_next (execPor_keeps x0 s) e⟩
  | pinReset x0 x1 => exact ⟨_, by first | decide | simp, keeps_of_next (execPinReset_keeps x0 x1 s) e⟩
  | hostReset x0 => exact ⟨_, by first | decide | simp, keeps_of_next (execHostReset_keeps x0 s) e⟩
  | flr => exact ⟨_, by first | decide | simp, keeps_of_next (execFlr_keeps s) e⟩
  | wdogReset => exact ⟨_, by first | decide | simp, keeps_of_next (execWdogReset_keeps s) e⟩
  | sagFault x0 => exact ⟨_, by first | decide | simp, keeps_of_next (execSagFault_keeps x0 s) e⟩
  | jtagInstruction x0 => exact ⟨_, by first | decide | simp, keeps_of_next (execJtagInstruction_keeps x0 s) e⟩
  | refClockLoss => exact ⟨_, by first | decide | simp, keeps_of_next (execRefClockLoss_keeps s) e⟩
  | rootPllLoss => exact ⟨_, by first | decide | simp, keeps_of_next (execRootPllLoss_keeps s) e⟩
  | ddrPllLoss => exact ⟨_, by first | decide | simp, keeps_of_next (execDdrPllLoss_keeps s) e⟩
  | dllLockChange x0 x1 => exact ⟨_, by first | decide | simp, keeps_of_next (execDllLockChange_keeps x0 x1 s) e⟩
  | iocalPeriod => exact ⟨_, by first | decide | simp, keeps_of_next (execIocalPeriod_keeps s) e⟩
  | iocalDone x0 => exact ⟨_, by first | decide | simp, keeps_of_next (execIocalDone_keeps x0 s) e⟩
  | headEnableAdmit x0 => exact ⟨_, by first | decide | simp, keeps_of_next (execHeadEnableAdmit_keeps x0 s) e⟩
  | autoIdle => exact ⟨_, by first | decide | simp, keeps_of_next (execAutoIdle_keeps s) e⟩
  | powerExitDone => exact ⟨_, by first | decide | simp, keeps_of_next (execPowerExitDone_keeps s) e⟩
  | deepEntry => exact ⟨_, by first | decide | simp, keeps_of_next (execDeepEntry_keeps s) e⟩
  | deepWakeTimer x0 => exact ⟨_, by first | decide | simp, keeps_of_next (execDeepWakeTimer_keeps x0 s) e⟩
  | supplyOutOfRange x0 x1 => exact ⟨_, by first | decide | simp, keeps_of_next (execSupplyOutOfRange_keeps x0 x1 s) e⟩
  | thmSensorSample x0 x1 x2 x3 => exact ⟨_, by first | decide | simp, keeps_of_next (execThmSensorSample_keeps x0 x1 x2 x3 s) e⟩
  | analogTrip => exact ⟨_, by first | decide | simp, keeps_of_next (execAnalogTrip_keeps s) e⟩
  | shutdownHoldRelease x0 => exact ⟨_, by first | decide | simp, keeps_of_next (execShutdownHoldRelease_keeps x0 s) e⟩
  | fanTachEdge x0 x1 => exact ⟨_, by first | decide | simp, keeps_of_next (execFanTachEdge_keeps x0 x1 s) e⟩
  | fanSpinupEnd x0 x1 => exact ⟨_, by first | decide | simp, keeps_of_next (execFanSpinupEnd_keeps x0 x1 s) e⟩
  | fanPauseEnd x0 x1 => exact ⟨_, by first | decide | simp, keeps_of_next (execFanPauseEnd_keeps x0 x1 s) e⟩
  | fanTachTimeout x0 x1 => exact ⟨_, by first | decide | simp, keeps_of_next (execFanTachTimeout_keeps x0 x1 s) e⟩
  | fanAutoUpdate x0 => exact ⟨_, by first | decide | simp, keeps_of_next (execFanAutoUpdate_keeps x0 s) e⟩
  | fanSlow x0 x1 => exact ⟨_, by first | decide | simp, keeps_of_next (execFanSlow_keeps x0 x1 s) e⟩
  | hlkRxMarkerFound x0 x1 => exact ⟨_, by first | decide | simp, keeps_of_next (execHlkRxMarkerFound_keeps x0 x1 s) e⟩
  | hlkRxFrameGood x0 => exact ⟨_, by first | decide | simp, keeps_of_next (execHlkRxFrameGood_keeps x0 s) e⟩
  | refClockReturn => exact ⟨_, by first | decide | simp, keeps_of_next (execRefClockReturn_keeps s) e⟩
  | supplyReturn x0 => exact ⟨_, by first | decide | simp, keeps_of_next (execSupplyReturn_keeps x0 s) e⟩
  | motHomeInput x0 x1 => exact ⟨_, by first | decide | simp, keeps_of_next (execMotHomeInput_keeps x0 x1 s) e⟩
  | d0Transition => exact ⟨_, by first | decide | simp, keeps_of_next (execD0Transition_keeps s) e⟩
  | powerEntryDone => exact ⟨_, by first | decide | simp, keeps_of_next (execPowerEntryDone_keeps s) e⟩
  | residentFirmwareReady => exact ⟨_, by first | decide | simp, keeps_of_next (execResidentFirmwareReady_keeps s) e⟩
  | tallyExchangeResponse x0 x1 => exact ⟨_, by first | decide | simp, keeps_of_next (execTallyExchangeResponse_keeps x0 x1 s) e⟩

/-- Every step's next state keeps what some list of parts leaves. -/
theorem step_kept {s t : State} (e : step s = .next t) :
    ∃ qs, Keeps qs { s with pending := s.pending.drop 1 } t ∨ Keeps qs s t := by
  unfold step at e
  split at e
  · obtain rfl := Host.Outcome.next.inj e
    exact ⟨_, .inr (fireTick_keeps s (fun _ q => q) (Keeps.refl _ s))⟩
  · rename_i c r h
    obtain ⟨qs, -, k⟩ := exec_kept e
    exact ⟨qs, .inl (by rw [h]; exact k)⟩

end Sys2Proof.Machine
end

