-- ==== Sys2Proof/WellFormed.lean ====
section
/-! DEFINITION. The commands a sender can form: a register access names an aligned dword (R33), a read tag is one of 768
(R85), a packet or burst has the bytes its form has (R366, R418, R422, R477), a calibration measures every line (R521), a
measurement's nanoseconds are of one second (R437). `exec` gives the other terms an effect too: no command is refused. -/

namespace Sys2Proof

/-- A well-formed command. -/
def Instr.wf (i : Instr) : Bool :=
  match i with
  | .nop _ => true
  | .deviceInfo _ => true
  | .ringCreate _ _ _ _ _ _ _ _ _ _ _ => true
  | .ringDestroy _ _ => true
  | .ringDestroyDone _ => true
  | .ringQuery _ _ => true
  | .powerState _ _ => true
  | .tenantEnable _ _ _ _ => true
  | .tenantDisable _ _ => true
  | .tenantDrainKeyWipe _ => true
  | .tenantDrainDone _ => true
  | .tenantQuery _ _ => true
  | .keyLoad _ _ _ => true
  | .quotaGrant _ _ _ => true
  | .quotaQuery _ _ => true
  | .jobOpen _ _ _ => true
  | .jobClose _ _ => true
  | .jobAbort _ _ => true
  | .jobEndDone _ => true
  | .pageLoad _ _ => true
  | .pageRelease _ _ _ => true
  | .pageReleaseDone _ => true
  | .copySubmit _ _ => true
  | .copyWithdraw _ _ _ => true
  | .copyQuery _ _ _ => true
  | .streamOpen _ _ _ _ _ => true
  | .streamFree _ _ => true
  | .parkedCommandResume _ => true
  | .tileLoad _ _ _ => true
  | .tileEvict _ _ => true
  | .segmentLoad _ _ => true
  | .planeConfig _ _ _ => true
  | .passLoad _ _ _ => true
  | .kilnStart _ _ => true
  | .kilnStop _ _ => true
  | .kilnStopDone _ => true
  | .headPower _ _ _ _ => true
  | .headPowerDone _ => true
  | .headPowerTimeout _ _ => true
  | .pressStatus _ => true
  | .nozzleRead _ _ _ _ _ => true
  | .nozzleWrite _ _ => true
  | .nozzleWriteDone _ => true
  | .curveLoad _ _ _ _ => true
  | .threshLoad _ _ _ => true
  | .kernelSelect _ _ _ _ => true
  | .splitMove _ _ _ => true
  | .calControl _ _ _ => true
  | .refSelect _ _ _ => true
  | .calStatus _ _ => true
  | .axisConfig _ _ _ => true
  | .axisEnable _ _ _ => true
  | .axisMove _ _ _ _ => true
  | .axisStop _ _ _ => true
  | .axisResume _ _ => true
  | .axisHome _ _ _ _ => true
  | .axisQuery _ _ => true
  | .moveComplete _ => true
  | .homingComplete _ => true
  | .homingTimeout _ _ => true
  | .cameraConfig _ _ _ => true
  | .inspectControl _ _ _ _ => true
  | .reprocess _ _ _ => true
  | .defectFetch _ _ _ => true
  | .receiptFetch _ _ _ => true
  | .attest _ _ _ _ => true
  | .debugUnlock _ _ => true
  | .lifecycleAdvance _ _ _ => true
  | .consumableScan _ _ => true
  | .consumableQuery _ _ => true
  | .tallyCheckpoint _ => true
  | .patchStatus _ _ _ => true
  | .nozzleSnapshot _ => true
  | .journalCompact _ => true
  | .maintSpit _ _ _ _ => true
  | .storeWrite _ _ _ => true
  | .eventFilter _ _ _ => true
  | .alarmFetch _ _ _ => true
  | .alarmAck _ _ => true
  | .traceConfig _ _ => true
  | .stookLimit _ _ => true
  | .latchCommandComplete _ => true
  | .completionPost _ _ => true
  | .doorbell _ a _ _ _ => decide (a.toNat % 4 = 0)
  | .hifRunWrite _ _ _ => true
  | .busMasterEnableWrite _ _ => true
  | .d3hotTransition => true
  | .msixVectorUnmask _ => true
  | .hifDescriptorFetch _ => true
  | .hifDataFetch => true
  | .hostReadCompletion tag _ => decide (tag.val < 768)
  | .completionTimeout tag => decide (tag.val < 768)
  | .backgroundPromote _ => true
  | .receivedRequestFault _ => true
  | .indexWriteback _ _ => true
  | .imodTimeout _ => true
  | .ltrRiseTimer => true
  | .ptmRequestTimer => true
  | .ptmTimeout => true
  | .timPtmMeasurement _ ns _ => decide (ns.toNat < 1000000000)
  | .barAccessAbort _ n _ => decide (n ≠ 0#13)
  | .unmappedPageAccess _ _ _ => true
  | .registerWrite _ a _ _ _ _ => decide (a.toNat % 4 = 0)
  | .rwsRegisterWrite _ a _ _ _ => decide (a.toNat % 4 = 0)
  | .rwlRegisterWrite _ a _ _ => decide (a.toNat % 4 = 0)
  | .lowWordRead _ a _ => decide (a.toNat % 4 = 0)
  | .highWordRead _ a => decide (a.toNat % 4 = 0)
  | .snapshotRead _ a => decide (a.toNat % 4 = 0)
  | .timNsRead _ => true
  | .timXsnapRead _ => true
  | .sagNonceRead _ => true
  | .nonceExpire _ => true
  | .pgIrqStatClear _ _ _ => true
  | .pgIrqSet _ _ _ => true
  | .pgErrClear _ _ _ => true
  | .shadowDiscard _ _ _ => true
  | .shadowHoldWrite _ _ _ => true
  | .holdRelease _ _ => true
  | .cmdHoldRelease _ _ => true
  | .statusW1cClear _ a _ _ => decide (a.toNat % 4 = 0)
  | .counterClear _ a _ _ => decide (a.toNat % 4 = 0)
  | .softReset _ _ _ => true
  | .softResetEnd _ => true
  | .applyArmWrite _ _ _ => true
  | .tilSplitBarWrite _ _ => true
  | .glzBandWrite _ _ => true
  | .gleanWindowDiscardWrite _ _ _ => true
  | .klnTripClear _ _ => true
  | .hlkPortEnable _ _ _ => true
  | .hlkRetrainWrite _ _ _ => true
  | .hlkFaultClear _ _ _ => true
  | .pifChannelEnable _ _ _ => true
  | .pifRearm _ _ _ => true
  | .pifLoad _ _ _ => true
  | .pifIdxPeriodWrite _ _ _ _ => true
  | .motFaultClear _ _ _ => true
  | .shadingCaptureDark _ _ _ => true
  | .shadingCaptureWhite _ _ _ => true
  | .shadingCaptureDone _ => true
  | .timWriteNow _ _ => true
  | .timWriteAtSec _ _ => true
  | .timWriteCancel _ _ => true
  | .timSrcWrite _ _ => true
  | .trmRoleOff _ _ => true
  | .trmRoleFollower _ _ => true
  | .trmRoleLeader _ _ => true
  | .iocalStart _ _ => true
  | .glbRstWrite _ _ => true
  | .fanModeWrite _ _ _ => true
  | .thrStreamPrepare _ _ => true
  | .thrStreamPrepared => true
  | .thrBlockStart _ => true
  | .thrBlockDone _ => true
  | .millBlock _ _ => true
  | .glazeLine _ => true
  | .glazeBand _ => true
  | .glazePoolWaitEnd => true
  | .tillerRowLine _ _ => true
  | .entryRestore _ => true
  | .gapRowLine _ _ => true
  | .fillRowLine _ _ => true
  | .underrunReversal _ _ => true
  | .tillerSweep _ => true
  | .tillerComparatorTrip _ => true
  | .tillerThrottleEnd _ => true
  | .autoSplit _ => true
  | .paceStepEdge _ _ _ _ _ => true
  | .kilnSheafShift _ _ => true
  | .rowLineUnderrun _ _ _ => true
  | .fireEdge _ => true
  | .firedWindowCompare _ _ => true
  | .frameMarkEnd _ => true
  | .channelPause _ _ => true
  | .planePause _ _ => true
  | .pauseTickle _ _ => true
  | .pauseSpoil _ _ => true
  | .tripInput _ _ _ => true
  | .hlkForwardFrame _ => true
  | .hlkRxStatus _ _ _ _ _ _ _ _ => true
  | .hlkRxTemp _ _ _ => true
  | .hlkRxFault _ _ _ _ => true
  | .hlkRxAck _ _ _ => true
  | .hlkRxSync _ _ => true
  | .hlkRxFrameBad _ => true
  | .hlkTrainTimeout _ => true
  | .hlkRxTimeout _ => true
  | .hlkFltNFault _ _ _ => true
  | .hlkPgDelayExpire _ _ => true
  | .pifAdcSample _ _ _ _ => true
  | .pifSquareSample _ _ _ _ => true
  | .pifIndexCapture _ _ _ => true
  | .motGeneratorUpdate _ => true
  | .motPwmPeriod _ _ _ => true
  | .motSdFastFilter _ _ _ => true
  | .motSdLoss _ _ _ => true
  | .motLimitInput _ _ _ => true
  | .motStandstillTimer _ => true
  | .motEnableAdmit _ => true
  | .csiLongPacket _ _ _ _ wc _ _ _ bs _ => decide (bs.length = wc.toNat)
  | .csiShortPacket _ _ _ _ _ _ => true
  | .iplPipelineLine _ => true
  | .iplStallTimeout _ _ => true
  | .imageStore => true
  | .winnowLineCompare _ => true
  | .winnowRuleTimeout _ _ => true
  | .gleanDumpSolve _ => true
  | .calProposalCheck _ => true
  | .batchCloseTimer _ => true
  | .batchPost _ => true
  | .trmBeaconSend => true
  | .trmBeaconReceive a b _ _ => decide (a.length ≤ 53) && decide (b.length ≤ 53)
  | .trmBeaconMissed _ => true
  | .trmFollowerBurstSend => true
  | .trmFollowerBurstReceive _ a b _ _ => decide (a.length ≤ 11) && decide (b.length ≤ 11)
  | .trmClaimTimer _ => true
  | .trmLeadLineLow _ => true
  | .timSecondRollover => true
  | .timSlewEnd => true
  | .tallyCheckpointTimer => true
  | .tallyWriteBack => true
  | .tallyCkptLate _ => true
  | .tallyI2cBusyRetry _ => true
  | .i2cStretchTimeout _ => true
  | .crockRecordWrite _ => true
  | .crockCompactionDone _ => true
  | .snapshotTimer => true
  | .snapshotWrite => true
  | .calFlushTimer => true
  | .crockGraceEnd _ => true
  | .stookEventWrite => true
  | .stookTraceWrite => true
  | .stookThrottleTimer _ => true
  | .coreSleep _ => true
  | .coreWake _ _ _ => true
  | .firewallDenial _ _ _ _ => true
  | .boot _ _ _ _ _ _ _ _ => true
  | .por _ => true
  | .pinReset _ _ => true
  | .hostReset _ => true
  | .flr => true
  | .wdogReset => true
  | .sagFault _ => true
  | .jtagInstruction _ => true
  | .refClockLoss => true
  | .rootPllLoss => true
  | .ddrPllLoss => true
  | .dllLockChange _ _ => true
  | .iocalPeriod => true
  | .iocalDone es => decide (es.length = 70)
  | .headEnableAdmit _ => true
  | .autoIdle => true
  | .powerExitDone => true
  | .deepEntry => true
  | .deepWakeTimer _ => true
  | .supplyOutOfRange _ _ => true
  | .thmSensorSample _ _ _ _ => true
  | .analogTrip => true
  | .shutdownHoldRelease _ => true
  | .fanTachEdge _ _ => true
  | .fanSpinupEnd _ _ => true
  | .fanPauseEnd _ _ => true
  | .fanTachTimeout _ _ => true
  | .fanAutoUpdate _ => true
  | .fanSlow _ _ => true
  | .hlkRxMarkerFound _ _ => true
  | .hlkRxFrameGood _ => true
  | .refClockReturn => true
  | .supplyReturn _ => true
  | .motHomeInput _ _ => true
  | .d0Transition => true
  | .powerEntryDone => true
  | .residentFirmwareReady => true
  | .tallyExchangeResponse _ bs => decide (bs.length ≤ 1029)

end Sys2Proof
end

