-- ==== Sys2Proof/Tests/Slice0.lean ====
section
/-! SUPPORT. The model's own tests. First a term that each check of WellFormed refuses. Then, statement by statement of
Certificates/Slice0/Obligations.lean, states and operands that meet the hypotheses of its clauses together: one `∃` for each clause.
A clause whose hypotheses ask for a value of an opaque Config function (a key that unwraps, a MAC or signature that holds, a spool or
swath that fits) has none, since nothing in Lean can evaluate it; nor have THRESH_LOAD, whose stream is 131,072 bytes long, and a line
Winnow is still to make a prediction for. -/

set_option Elab.async false -- one proof at a time: each evaluates states, and a thread for each would not fit in memory

open Sys2Proof.Machine

namespace Sys2Proof.Tests

/-- A command ring with one entry read and not taken, and its completion ring. -/
def cmdRing : Ring := { Ring.init with state := .active, log2 := 8, pi := 1, paired := 1, fetched := 1, fences := [false] }
def cplRing : Ring := { Ring.init with state := .active, typ := .completion, log2 := 8 }

/-- Command-ready, with rings 0 and 1 and one command to take. -/
def ready : State := { State.reset with
  pwr := { State.reset.pwr with boot := none }
  fw := { State.reset.fw with ready := true }
  hif := { State.reset.hif with
    cfg := { State.reset.hif.cfg with busMaster := true }, rings := [(0, cmdRing), (1, cplRing)] } }

def desc : Desc := { ring := 0, tag := 0, quiet := false, fence := false, rsvd := false, flaw := .none }

/-- A complete stream of tenant 0 with handle 5. -/
def stream (bs : List Byte) : Stream :=
  { tenant := 0, handle := 5, kind := 1, maxLen := bs.length, job := 0, descs := [(0, bs.length, false)], pieces := [⟨0, bs⟩],
    lastSeen := true, failed := false, prep := .none, plain := [], level := false, width := 0, height := 0, sealedPage := none,
    blocks := [], badFor := [] }

def withStream (bs : List Byte) (s : State) : State := { s with jobs := { s.jobs with streams := [stream bs] } }

/-- A command accepted and not completed. -/
def waiting (c : Instr) (waits : List Nat) : Parked :=
  { h := { d := desc, ci := 1, tenant := 0, paired := 1, seq := 0 }, cmd := c, accepted := true, pages := [], slot := 0, late := false,
    waits, objs := [], since := 0, undo := none }

def withParked (q : Parked) (s : State) : State := { s with fw := { s.fw with parked := [q], nextSeq := 1 } }

/-- Registers with values put into them. -/
def withRegs (l : List (Nat × Nat)) (s : State) : State := l.foldl (fun t x => wn x.1 x.2 t) s

def copy (st : CopyState) : Copy :=
  { tenant := 0, job := 1, page := 1, num := 1, seq := 0, mask := 1, placements := [], windows := [],
    page0 := { tenant := 0, job := 1, page := 1, mask := 1, level := false, sealed := false, height := 1, planes := [], releasing := false },
    state := st, flags := .none, slot := none, planes := none, opened := [], closed := [], budget := [], cycles := [], begun := [],
    placed := [], commitTime := 0, firedAt := 0, ruleTime := 0, receiptSlot := false, winSeen := 0, winBad := 0, firedSeen := 0,
    firedBad := 0, defects := 0, ports := 0, marred := [] }

def tile : Tile := { tenant := 0, id := 7, format := 0, width := 1, height := 1, data := [], granules := 1, stamp := 0, stream := none }

/-- Plane 0 prints with head 0, one row of 32 nozzles, whose port is UP, enabled and powered. -/
def headDecl0 : HeadDecl := { head := 0, rows := [0], positions := 32, rowOfs := [0, 0, 0, 0], htrim := 0, rtrim01 := 0, rtrim23 := 0 }
def table0 : PlaneTable :=
  { head := { vact := 100, vfront := 10, vsync := 2, vback := 10, trim := 0, revTrim := 0, heads := [headDecl0] },
    spans := [{ c0 := 0, head := 0, groups := 1, prim := [0], sec := [0], secValid := [false], reverse := false, p0 := 0, m := 1 }] }
def port0 : Port := { Port.init with link := .up, pwren := true, pg := true, align := 2 }
def press (st : PlaneState) : State := { withRegs [(Reg.HLK_CTRL 0, 1)] ready with
  ports := [(0, port0)]
  pages := [(pgHlk 0, { Page.init .hlk with en := true })]
  clk := { ready.clk with dllLock := true, rootLock := true, ddrLock := true }
  pwr := { ready.pwr with segments := [(0, 1)], charges := [(0, 5)] }
  kln := { ready.kln with planes := [(0, { Plane.init with state := st, table := some table0 })] } }

theorem spit0 (g : Nat) (hg : g ∈ maskBits 64 (BitVec.toNat (1 : DWord))) :
    headEnabled (press .stopped) g = true ∧
      (∃ p, planeOfHead (press .stopped) g = some p ∧ (plane (press .stopped) p).state = .stopped ∧ tripCoversPlane (press .stopped) p = false) ∧
      ∀ k, segmentOf (press .stopped) g = some k → tripCoversSegment (press .stopped) k = false := by
  have h : maskBits 64 (BitVec.toNat (1 : DWord)) = [0] := by decide +kernel
  rw [h, List.mem_singleton] at hg
  subst hg
  have hs : segmentOf (press .stopped) 0 = some 0 := by decide +kernel
  exact ⟨by decide +kernel, ⟨0, by decide +kernel, by decide +kernel, by decide +kernel⟩, fun k hk => by
    rw [hs] at hk
    cases hk
    decide +kernel⟩

/-- Head 0's row with a sheaf of running line 0 and an edge for it. -/
def sheaf0 (missing : List Nat) : Sheaf :=
  { f := 0, line := none, gap := true, slot := 0, codes := [1, 0, 2], missing, undo := [], doneAt := 0, ready := 0, split := 2048 }
def edge0 : Edge := { f := 0, instant := 4096000, pred := 4096000, armed := true, tap := { code := 0, trim := 0 } }
def withRow (g : Row) (s : State) : State :=
  { s with kln := { s.kln with heads := [(0, { rows := [(0, g)], lastLead := 0, underrunSeen := [] })] } }
def rowWith (fifo tx : List Sheaf) : Row := { Row.init with started := true, fifo, tx, edges := [edge0] }

/-- Crock is mounted, with a part of 512 blocks. -/
def mounted : State := { ready with crk := { ready.crk with state := .mounted, sizes := (16, 16) } }
def shot : Snap := { num := 1, block := 0, time := 0, mask := 1, counts := [], lost := false }
def image : StoredImage := { port := 0, num := 1, dt := 0x2A, stride := 1, stream := [], lines := [] }
def withCam (g : CamPort) (s : State) : State := { s with ipl := { s.ipl with ports := [(0, g)] } }
def withTram (st : TrmState) (s : State) : State := withRegs [(Reg.TRM_CTRL, 0xC)] { s with trm := { s.trm with state := st } }
def withExchange (e : IdExchange) (s : State) : State := { s with tly := { s.tly with slots := [(0, { TlySlot.init with exchanges := [e] })] } }
def withFan (st : Nat) : State := { ready with fans := [(0, { Fan.init with state := st })] }
def event0 : Event := { code := 0x0101, alarm := false, commit := false, seq := 0, time := 0, tenant := none, payload := [] }
def packet0 : TracePkt := { typ := 1, core := 0, prio := 0, seq := 0, time := 0, data := [] }

def axisImage : List Byte := (List.range 40).flatMap fun k =>
  let v := (((regRows .motA).find? fun r => r.off = 0x80 + 4 * k).map (·.reset.toNat)).getD 0
  le 4 (if 24 ≤ k then max v 1 else v)
def cameraImage : List Byte := ((List.range 32).flatMap fun k =>
    let v := (((regRows .iplP).find? fun r => r.off = 0x100 + 4 * k).map (·.reset.toNat)).getD 0
    le 4 ((tfind [(2, 2), (5, 0), (6, 1), (7, 2)] k).getD v)) ++
  le 4 0 ++ le 4 0 ++ le 4 1 ++ le 4 256 ++ List.replicate 496 0
def planeImage : List Byte :=
  le 2 1 ++ le 2 0 ++ le 4 100 ++ [10, 2] ++ le 2 10 ++ List.replicate 20 0 ++ [0, 1] ++ le 2 32 ++ List.replicate 20 0 ++
    le 4 0 ++ [0, 1, 0, 0, 0, 0] ++ le 2 0 ++ le 2 1 ++ le 2 0
def nozzleRecord : List Byte :=
  le 4 0 ++ [0, 0, 0, 0] ++ entryBytes (Entry.default 0) ++ [crc8 (entryBytes (Entry.default 0)), 0, 0, 0]
def tileImage : List Byte :=
  le 2 0x4C54 ++ le 2 0 ++ le 2 1 ++ le 2 1 ++ le 4 (tileStride 0 1) ++ le 4 0 ++ List.replicate (tileStride 0 1) 0

/-- A Grist stream of one line of one byte, 9, in one stored block (R145 to R150). -/
def gristOne : List Byte := gristHeader 1 1 ++
  [0x48, 0x4B, 1, 0, 0, 0, 0, 0, 1, 0, 0, 0, 1, 0, 0, 0, 4, 0, 0, 0, 1, 0, 0, 0, 0x9D, 0x88, 0xCF, 0x2A, 0, 0, 0, 0, 1, 9, 0, 0]
def raster (bs : List Byte) : Stream := { stream bs with
  prep := .good, plain := bs, width := 1, height := 1, blocks := [{ husk := 0, block := 0, line := 0, lines := 1, off := 64, len := 4, crc := none }] }
def pageCopy : Copy := { copy .committed with
  planes := some [0], page0 := { (copy .committed).page0 with planes := [⟨0, 1, 5⟩] } }

/-- Plane 0 prints a copy whose one line is in stream 5. -/
def printing (bs : List Byte) : State := { withRow { Row.init with started := true } (press .running) with
  jobs := { ready.jobs with copies := [pageCopy], streams := [raster bs] } }
def job0 : BlockJob := {
  copy := 0, plane := 0, pass := 0, tenant := 0, handle := 5
  loc := { husk := 0, block := 0, line := 0, lines := 1, off := 64, len := 4, crc := none } }
def withLane (s : State) : State := { s with thr := { s.thr with lanes := [(0, ⟨job0, 0, 0⟩)] } }

/-- The line is decoded. -/
def decoded : State := { printing gristOne with thr := { ready.thr with lines := [⟨0, 0, 0, 0, [9], false⟩] } }
def due (s : State) : Option GlazeWork := nextWork (decodeDue (enqueueBlocks s))

/-- A placement multiplies tile 7 into the line (R180), whose band is then a copy band. -/
def banded : State := { decoded with
  jobs := { decoded.jobs with copies := [{ pageCopy with placements := [⟨0, 4, 0, 7, 0, 0, 1, 0, 0⟩] }] }
  glz := { decoded.glz with tiles := [tile] } }
def scanned : State := withRegs [(Reg.KLN_P_PACE_CFG 0, 0x10)] decoded

/-- Line 0 of the open frame is staged for head 0. -/
def staged0 : Staged := { copy := 0, pass := 0, line := 0, px := [9], rows := [0] }
def screening : State := withRow { Row.init with started := true, nextF := BitVec.ofNat 32 (vSync ready 0 + vBack ready 0) } { decoded with
  glz := { decoded.glz with staging := [(0, [staged0])] }
  kln := { decoded.kln with planes := [(0, { Plane.init with
    state := .running, table := some table0, slot := some 0, copy := some 0, frames := 1 })] } }

def tableWide : PlaneTable :=
  { head := { table0.head with heads := [{ headDecl0 with positions := 64 }] }
    spans := [{ c0 := 0, head := 0, groups := 2, prim := [0], sec := [0], secValid := [false], reverse := false, p0 := 0, m := 32 }] }
def splitting (t : PlaneTable) : State := withRegs [(Reg.TIL_CTRL, 1)] { press .running with
  til := { ready.til with autoDue := [0] }
  kln := { (press .running).kln with planes := [(0, { Plane.init with state := .running, table := some t })] } }

def sentBurst (o : Host.Outcome State Fault Refusal) : List Byte := match o with
  | .next t => (match t.out with | .burst _ _ b :: _ => b | _ => [])
  | _ => []
def beacon : List Byte := sentBurst (exec .trmBeaconSend (withTram .leader ready))
def follower : List Byte := sentBurst (exec .trmFollowerBurstSend
  (let s := withRegs [(Reg.GLB_STRAP, 1)] (withTram .active ready); { s with trm := { s.trm with arriveA := some 1000, arriveB := some 1000 } }))
def fired0 : FiredWin := { index := 0, x := 0, w := 0, y := 0, h := 0, slot := 0, copy := none, kiln := [], til := [], done := false, failed := false }

/-- The scanning pass has its line in the swath. -/
def swathed : State := { scanned with glz := { scanned.glz with swath := [⟨0, 0, 0, [9]⟩] } }

/-! ## Commands no sender can form -/

theorem test_wf_refuses_misaligned_addresses :
    (Instr.doorbell 0 2 true 0 0).wf = false ∧ (Instr.registerWrite .host 0x3041 0 0xF [] []).wf = false ∧
      (Instr.rwsRegisterWrite .host 0x3042 0 0xF []).wf = false ∧ (Instr.rwlRegisterWrite .host 0x3043 0 0xF).wf = false ∧
      (Instr.lowWordRead .host 0x3041 0).wf = false ∧ (Instr.highWordRead .host 0x3042).wf = false ∧
      (Instr.snapshotRead .host 0x3043).wf = false ∧ (Instr.statusW1cClear .host 0x3041 0 0xF).wf = false ∧
      (Instr.counterClear .host 0x3042 0 0xF).wf = false := by decide

theorem test_wf_refuses_tags_past_767 :
    (Instr.hostReadCompletion 768 .ur).wf = false ∧ (Instr.completionTimeout 1023).wf = false := by decide

theorem test_wf_refuses_a_measurement_of_a_whole_second : (Instr.timPtmMeasurement 0 1000000000 0).wf = false := by decide

theorem test_wf_refuses_an_access_of_no_bytes : (Instr.barAccessAbort 0 0 true).wf = false := by decide

theorem test_wf_refuses_wrong_lengths :
    (Instr.csiLongPacket 0 0 0 0x2A 2 true true false [7] 0).wf = false ∧
      (Instr.trmBeaconReceive (List.replicate 54 0) [] 0 0).wf = false ∧
      (Instr.trmBeaconReceive [] (List.replicate 54 0) 0 0).wf = false ∧
      (Instr.trmFollowerBurstReceive 1 (List.replicate 12 0) [] 0 0).wf = false ∧
      (Instr.trmFollowerBurstReceive 1 [] (List.replicate 12 0) 0 0).wf = false ∧
      (Instr.iocalDone (List.replicate 69 0)).wf = false ∧
      (Instr.tallyExchangeResponse 0 (List.replicate 1030 0)).wf = false := by decide +kernel

/-! ## What the statements' hypotheses describe exists -/

theorem test_arrays_stay_canonical : ∃ s t, Memory.wf s.til.arrays = true ∧ step s = .next t :=
  ⟨State.reset, _, by decide +kernel, rfl⟩

theorem test_commands_leave_the_queue : ∃ i s t, exec i s = .next t :=
  ⟨.glbRstWrite .host 0, State.reset, _, rfl⟩

theorem test_lifecycle_never_goes_back : ∃ s t, step s = .next t := ⟨State.reset, _, rfl⟩

theorem test_sagger_writes_every_page : ∃ (addr : BitVec 24) (v : Word) (s : State), aligned addr.toNat = true ∧ clocked s = true ∧
    pageUp s (addr.toNat / 0x1000) = true ∧ pageBusy s (addr.toNat / 0x1000) = false ∧ inRange addr.toNat v = true :=
  ⟨0x00304C, 0x0005006E, ready, by decide +kernel, by decide +kernel, by decide +kernel, by decide +kernel, by decide +kernel⟩

theorem test_step_takes_front :
   (∃ (c : Instr) (r : List Instr) (s : State), s.pending = c :: r) :=
  ⟨.frameMarkEnd 0, [], { ready with pending := [.frameMarkEnd 0] }, by decide +kernel⟩

theorem test_idle_tick :
   (∃ s : State, s.pending = []) :=
  ⟨State.reset, by decide +kernel⟩

theorem test_ring_commands_run :
   (∃ (d : Desc) (s : State), Admitted d .t noObjs s = true) ∧
   (∃ (d : Desc) (s : State), Admitted d .t noObjs s = true) ∧
   (∃ (d : Desc) (n : BitVec 16) (typ : BitVec 8) (size : BitVec 8) (ten : BitVec 16) (paired : BitVec 16)
      (vector : BitVec 16) (imodCnt : BitVec 8) (_imodTime : BitVec 16) (base : DWord) (wb : DWord) (ty : RingType)
      (s : State),
      Admitted d .s (fun _ => [objRing n.toNat, objTenant ten.toNat]) s = true ∧ ringType typ.toNat = some ty ∧
      ringOperands n.toNat ty size.toNat ten.toNat vector.toNat imodCnt.toNat base.toNat wb.toNat = true ∧
      (ring s n.toNat).state = .disabled ∧ (ty = .command → (ring s paired.toNat).state ≠ .disabled ∧
      (ring s paired.toNat).typ = .completion ∧ (ring s paired.toNat).tenant = ten.toNat) ∧
      (ten.toNat ≠ 0 → (tenant s ten.toNat).state = .enabled) ∧ (ring s d.ring.val).paired ≠ n.toNat ∧
      (s.pwr.bootHeld = true → ty ≠ .event)) ∧
   (∃ (d : Desc) (n : BitVec 16) (typ : BitVec 8) (size : BitVec 8) (ten : BitVec 16) (_paired : BitVec 16)
      (vector : BitVec 16) (imodCnt : BitVec 8) (_imodTime : BitVec 16) (base : DWord) (wb : DWord) (s : State),
      Admitted d .s (fun _ => [objRing n.toNat, objTenant ten.toNat]) s = true ∧ typ = 3 ∧
      ringOperands n.toNat .event size.toNat ten.toNat vector.toNat imodCnt.toNat base.toNat wb.toNat = true ∧
      (ring s n.toNat).state = .disabled ∧ (ten.toNat ≠ 0 → (tenant s ten.toNat).state = .enabled) ∧
      (ring s d.ring.val).paired ≠ n.toNat ∧ s.pwr.bootHeld = true ∧ rbit s Reg.STK_CTRL 0 = true ∧ s.stk.staging.length < 512) ∧
   (∃ (d : Desc) (n : BitVec 16) (s : State),
      Admitted d .s (fun _ => [objRing n.toNat]) s = true ∧ 2 ≤ n.toNat ∧ n.toNat < 8192 ∧ (ring s n.toNat).state ≠ .disabled ∧
      ((ring s n.toNat).typ = .completion → ∀ e ∈ s.hif.rings, e.2.typ = .command → e.2.state ≠ .disabled → e.2.paired ≠ n.toNat) ∧
      (ring s d.ring.val).paired ≠ n.toNat) ∧
   (∃ (n : Fin 8192) (s : State), (ring s n.val).destroying = true ∧ ringDrained s n.val = true) ∧
   (∃ (d : Desc) (n : BitVec 16) (s : State),
      Admitted d .s noObjs s = true ∧ n.toNat < 8192 ∧ (ring s n.toNat).state ≠ .disabled ∧ n.toNat ≠ d.ring.val) ∧
   (∃ (d : Desc) (n : BitVec 16) (s : State), Admitted d .s noObjs s = true ∧ n.toNat = d.ring.val) :=
  ⟨⟨desc, ready, by decide +kernel⟩,
   ⟨desc, ready, by decide +kernel⟩,
   ⟨desc, 2, 2, 8, 0, 0, 0, 1, 0, 0x1000, 0x1000, .data, ready, by decide +kernel, by decide +kernel, by decide +kernel,
     by decide +kernel, by decide +kernel, by decide +kernel, by decide +kernel, by decide +kernel⟩,
   ⟨desc, 2, 3, 8, 0, 0, 0, 1, 0, 0x1000, 0x1000,
     withRegs [(Reg.STK_CTRL, 1)] { ready with pwr := { ready.pwr with bootHeld := true } }, by decide +kernel,
     by decide +kernel, by decide +kernel, by decide +kernel, by decide +kernel, by decide +kernel, by decide +kernel,
     by decide +kernel, by decide +kernel⟩,
   ⟨desc, 2,
     { ready with hif := { ready.hif with rings := [(0, cmdRing), (1, cplRing), (2, { cmdRing with destroying := false, state := .active })] } },
     by decide +kernel, by decide +kernel, by decide +kernel, by decide +kernel, by decide +kernel, by decide +kernel⟩,
   ⟨2,
     { ready with hif := { ready.hif with rings := [(0, cmdRing), (1, cplRing), (2, { cmdRing with destroying := true, state := .stopped })] } },
     by decide +kernel, by decide +kernel⟩,
   ⟨desc, 1, ready, by decide +kernel, by decide +kernel, by decide +kernel, by decide +kernel⟩,
   ⟨desc, 0, ready, by decide +kernel, by decide +kernel⟩⟩

theorem test_tenant_commands_run :
   (∃ (d : Desc) (ten : BitVec 16) (jobs : BitVec 16) (copies : BitVec 16) (s : State),
      Admitted d .s (fun _ => [objTenant ten.toNat]) s = true ∧ 0 < ten.toNat ∧ ten.toNat < 1024 ∧
      (tenant s ten.toNat).state = .disabled ∧ jobs.toNat ≤ 1024 ∧ copies.toNat ≤ 1024) ∧
   (∃ (d : Desc) (ten : BitVec 16) (s : State),
      Admitted d .s (fun _ => [objTenant ten.toNat]) s = true ∧ ten.toNat ≠ 0 ∧ (tenant s ten.toNat).state = .enabled) ∧
   (∃ (ten : Fin 1024) (s : State), (tenant s ten.val).drainStep = 3 ∧ tenantReads s ten.val = 0 ∧ thresherDone s ten.val = true) ∧
   (∃ (ten : Fin 1024) (s : State), (tenant s ten.val).drainStep = 4 ∧
      (∀ x ∈ liveCopies s, x.tenant = ten.val → ∀ p ∈ copyPlanes s x, glazeLeft s x p = true)) ∧
   (∃ (d : Desc) (ten : BitVec 16) (s : State), Admitted d .t noObjs s = true ∧ mayName (hdrOf d s) ten.toNat = true) :=
  ⟨⟨desc, 1023, 0, 1024, ready, by decide +kernel, by decide +kernel, by decide +kernel, by decide +kernel, by decide +kernel,
     by decide +kernel⟩,
   ⟨desc, 3,
     { ready with jobs := { ready.jobs with tenants := [(3, { Tenant.init with state := .enabled, drainStep := 0 })] } },
     by decide +kernel, by decide +kernel, by decide +kernel⟩,
   ⟨3, { ready with jobs := { ready.jobs with tenants := [(3, { Tenant.init with state := .draining, drainStep := 3 })] } },
     by decide +kernel, by decide +kernel, by decide +kernel⟩,
   ⟨3, { ready with jobs := { ready.jobs with tenants := [(3, { Tenant.init with state := .draining, drainStep := 4 })] } },
     by decide +kernel, by decide +kernel⟩,
   ⟨desc, 0, ready, by decide +kernel, by decide +kernel⟩⟩

theorem test_job_commands_run :
   (∃ (d : Desc) (j : Word) (nonce : DWord) (s : State),
      Admitted d .t (fun t => [objJob t j.toNat]) s = true ∧
      (∀ x ∈ s.jobs.jobs, x.tenant = (hdrOf d s).tenant → x.id ≠ j.toNat ∧ x.nonceBase ≠ nonce) ∧ s.jobs.jobs.length < 1024 ∧
      (s.jobs.jobs.filter fun x => decide (x.tenant = (hdrOf d s).tenant)).length < (tenant s (hdrOf d s).tenant).maxJobs ∧
      ((hdrOf d s).tenant ≠ 0 → (tenant s (hdrOf d s).tenant).state ≠ .draining)) ∧
   (∃ (d : Desc) (j : Word) (s : State),
      Admitted d .t (fun t => [objJob t j.toNat]) s = true ∧ (findJob s (hdrOf d s).tenant j.toNat).isSome = true) ∧
   (∃ (d : Desc) (j : Word) (s : State),
      Admitted d .t (fun t => [objJob t j.toNat]) s = true ∧ (findJob s (hdrOf d s).tenant j.toNat).isSome = true) ∧
   (∃ (q : Parked) (d : Desc) (j : Word) (s : State),
      findParked s q.h.seq = some q ∧ (q.cmd = .jobClose d j ∨ q.cmd = .jobAbort d j) ∧ q.accepted = true ∧
      (∀ c ∈ s.jobs.copies, c.tenant = q.h.tenant → c.job = j.toNat → c.state = .sealed)) :=
  ⟨⟨desc, 1, 7, ready, by decide +kernel, by decide +kernel, by decide +kernel, by decide +kernel, by decide +kernel⟩,
   ⟨desc, 1, { ready with jobs := { ready.jobs with jobs := [⟨0, 1, .isOpen, 9, 0⟩] } }, by decide +kernel, by decide +kernel⟩,
   ⟨desc, 1, { ready with jobs := { ready.jobs with jobs := [⟨0, 1, .isOpen, 9, 0⟩] } }, by decide +kernel, by decide +kernel⟩,
   ⟨waiting (.jobClose desc 1) [], desc, 1, (withParked (waiting (.jobClose desc 1) []) ready), by decide +kernel,
     by decide +kernel, by decide +kernel, by decide +kernel⟩⟩

theorem test_page_commands_run :
   (∃ (d : Desc) (handle : Word) (x : Stream) (p : Template) (j : Job) (s : State),
      Admitted d .t (fun _ => streamObjs s (hdrOf d s) (.pageLoad d handle)) s = true ∧
      findStream s (ring s d.ring.val).tenant handle.toNat = some x ∧ x.failed = false ∧ x.complete = true ∧
      pageRecord (ring s d.ring.val).tenant x.bytes = some p ∧ findJob s p.tenant p.job = some j ∧ j.state = .isOpen ∧
      (∀ y ∈ s.jobs.templates, y.tenant = p.tenant → y.job = p.job → y.page ≠ p.page) ∧
      (∀ q ∈ p.planes, ∃ y, findStream s p.tenant q.handle = some y ∧ (p.tenant = 0 → y.sealed = false) ∧
      pageClash y p q = none) ∧ (p.tenant = 0 → p.sealed = false) ∧
      ((s.jobs.templates.filter fun y => decide (y.tenant = p.tenant ∧ y.job = p.job)).length < 4096) ∧
      s.jobs.templates.length < 16384) ∧
   (∃ (d : Desc) (job : Word) (page : Word) (s : State),
      Admitted d .t (fun t => [objJob t job.toNat, objPage t job.toNat page.toNat]) s = true ∧
      (template s (ring s d.ring.val).tenant job.toNat page.toNat).isSome) ∧
   (∃ (q : Parked) (d : Desc) (j : Word) (p : Word) (s : State),
      findParked s q.h.seq = some q ∧ q.cmd = .pageRelease d j p ∧ q.accepted = true ∧
      (∀ c ∈ s.jobs.copies, c.tenant = q.h.tenant → c.job = j.toNat → c.page = p.toNat → c.state = .sealed)) ∧
   (∃ (q : Parked) (s : State),
      findParked s q.h.seq = some q ∧ (isClassF q.cmd || isClassB q.cmd) = true ∧ q.accepted = true ∧ q.pages = []) ∧
   (∃ (q : Parked) (d : Desc) (job : Word) (nonce : DWord) (s : State),
      findParked s q.h.seq = some q ∧ mayResume s q = true ∧ q.cmd = .jobOpen d job nonce ∧
      (∀ x ∈ s.jobs.jobs, x.tenant = q.h.tenant → x.id ≠ job.toNat ∧ x.nonceBase ≠ nonce) ∧ s.jobs.jobs.length < 1024 ∧
      (s.jobs.jobs.filter fun x => decide (x.tenant = q.h.tenant)).length < (tenant s q.h.tenant).maxJobs ∧
      (q.h.tenant ≠ 0 → (tenant s q.h.tenant).state ≠ .draining)) :=
  ⟨⟨desc, 5, stream (le 4 1 ++ le 4 2 ++ le 2 0 ++ le 2 0 ++ le 4 1 ++ List.replicate 48 0),
     { (copy .queued).page0 with page := 2, mask := 0 }, ⟨0, 1, .isOpen, 9, 0⟩,
     (withStream (le 4 1 ++ le 4 2 ++ le 2 0 ++ le 2 0 ++ le 4 1 ++ List.replicate 48 0) { ready with jobs := { ready.jobs with jobs := [⟨0, 1, .isOpen, 9, 0⟩] } }),
     by decide +kernel, by decide +kernel, by decide +kernel, by decide +kernel, by decide +kernel, by decide +kernel,
     by decide +kernel, by decide +kernel, by decide +kernel, by decide +kernel, by decide +kernel, by decide +kernel⟩,
   ⟨desc, 1, 1, { ready with jobs := { ready.jobs with templates := [(copy .queued).page0] } }, by decide +kernel,
     by decide +kernel⟩,
   ⟨waiting (.pageRelease desc 1 1) [], desc, 1, 1, (withParked (waiting (.pageRelease desc 1 1) []) ready), by decide +kernel,
     by decide +kernel, by decide +kernel, by decide +kernel⟩,
   ⟨waiting (.curveLoad desc 0 1 5) [], (withParked (waiting (.curveLoad desc 0 1 5) []) ready), by decide +kernel,
     by decide +kernel, by decide +kernel, by decide +kernel⟩,
   ⟨{ waiting (.jobOpen desc 1 7) [] with accepted := false }, desc, 1, 7,
     (withParked { waiting (.jobOpen desc 1 7) [] with accepted := false } ready), by decide +kernel, by decide +kernel,
     by decide +kernel, by decide +kernel, by decide +kernel, by decide +kernel, by decide +kernel⟩⟩

theorem test_copy_commands_run :
   (∃ (d : Desc) (handle : Word) (x : Stream) (p : Template) (s : State),
      Admitted d .t (fun _ => streamObjs s (hdrOf d s) (.copySubmit d handle)) s = true ∧
      findStream s (ring s d.ring.val).tenant handle.toNat = some x ∧ x.failed = false ∧ x.complete = true ∧
      copyCheck s (ring s d.ring.val).tenant x.bytes ((List.range (leAt x.bytes 14 2)).map fun i => placementAt x.bytes i) ((List.range (leAt x.bytes 16 2)).map fun i => windowAt x.bytes (64 + 16 * leAt x.bytes 14 2 + 32 * i)) = .ok p ∧
      ((s.jobs.copies.filter fun c => decide (c.state = .queued ∨ c.state = .ready)).length < 1024) ∧
      (((s.jobs.copies.filter fun c => decide (c.state = .queued ∨ c.state = .ready)).filter fun c => decide (c.tenant = (ring s d.ring.val).tenant)).length < (tenant s (ring s d.ring.val).tenant).maxCopies) ∧
      ((ring s d.ring.val).tenant ≠ 0 → (tenant s (ring s d.ring.val).tenant).state ≠ .draining ∧
      (tenant s (ring s d.ring.val).tenant).charged.toNat + (tenant s (ring s d.ring.val).tenant).reserved.toNat < (tenant s (ring s d.ring.val).tenant).grant.toNat) ∧
      pageBad s p = false ∧ findCopy s s.fw.nextSeq = none) ∧
   (∃ (d : Desc) (job : Word) (copy : Word) (x : Copy) (s : State),
      Admitted d .t (fun t => [objJob t job.toNat]) s = true ∧
      namedCopy s (ring s d.ring.val).tenant job.toNat copy.toNat = some x ∧ (x.state = .queued ∨ x.state = .ready)) ∧
   (∃ (d : Desc) (job : Word) (copy : Word) (x : Copy) (s : State),
      Admitted d .t noObjs s = true ∧ namedCopy s (ring s d.ring.val).tenant job.toNat copy.toNat = some x) ∧
   (∃ (d : Desc) (handle : Word) (s : State),
      Admitted d .t noObjs s = true ∧ (findStream s (ring s d.ring.val).tenant handle.toNat).isSome ∧
      streamPinned s (ring s d.ring.val).tenant handle.toNat = false) ∧
   (∃ (d : Desc) (_buf : DWord) (len : Word) (s : State),
      Admitted d .s noObjs s = true ∧ 16 * s.sag.patches.length ≤ len.toNat) ∧
   (∃ (d : Desc) (n : BitVec 16) (_mask : BitVec 256) (s : State),
      Admitted d .o (fun _ => [objRing n.toNat]) s = true ∧ n.toNat < 8192 ∧ (ring s n.toNat).typ = .event ∧
      (ring s n.toNat).state ≠ .disabled ∧ (ring s d.ring.val).paired ≠ n.toNat) :=
  ⟨⟨desc, 5, stream (le 4 1 ++ le 4 1 ++ le 4 1 ++ le 2 1 ++ List.replicate 50 0), (copy .queued).page0,
     (withStream (le 4 1 ++ le 4 1 ++ le 4 1 ++ le 2 1 ++ List.replicate 50 0) { ready with jobs := { ready.jobs with jobs := [⟨0, 1, .isOpen, 9, 0⟩], templates := [(copy .queued).page0] } }),
     by decide +kernel, by decide +kernel, by decide +kernel, by decide +kernel, by decide +kernel, by decide +kernel,
     by decide +kernel, by decide +kernel, by decide +kernel, by decide +kernel⟩,
   ⟨desc, 1, 1, copy .queued, { ready with jobs := { ready.jobs with copies := [copy .queued] } }, by decide +kernel,
     by decide +kernel, by decide +kernel⟩,
   ⟨desc, 1, 1, copy .sealed, { ready with jobs := { ready.jobs with copies := [copy .sealed] } }, by decide +kernel,
     by decide +kernel⟩,
   ⟨desc, 5, (withStream ([1]) ready), by decide +kernel, by decide +kernel, by decide +kernel⟩,
   ⟨desc, 0, 0, ready, by decide +kernel, by decide +kernel⟩,
   ⟨desc, 2, 0,
     { ready with hif := { ready.hif with rings := [(0, cmdRing), (1, cplRing), (2, { cplRing with typ := .event })] } },
     by decide +kernel, by decide +kernel, by decide +kernel, by decide +kernel, by decide +kernel⟩⟩

theorem test_glaze_runs :
   (∃ (d : Desc) (tile : BitVec 16) (handle : Word) (x : Stream) (s : State),
      Admitted d .t noObjs s = true ∧ tile.toNat ≠ 0 ∧ (∀ y ∈ s.glz.tiles, ¬(y.tenant = (ring s d.ring.val).tenant ∧
      y.id = tile.toNat)) ∧ findStream s (ring s d.ring.val).tenant handle.toNat = some x ∧ x.failed = false ∧
      x.complete = true ∧ tileGood x.bytes = true ∧ cdiv (leAt x.bytes 8 4) 256 ≤ granulesFree s ∧ s.glz.tiles.length < 8192) ∧
   (∃ (d : Desc) (tile : BitVec 16) (handle : Word) (x : Stream) (s : State) (u : State),
      Admitted d .t noObjs s = true ∧ tile.toNat ≠ 0 ∧ (∀ y ∈ s.glz.tiles, ¬(y.tenant = (ring s d.ring.val).tenant ∧
      y.id = tile.toNat)) ∧ findStream s (ring s d.ring.val).tenant handle.toNat = some x ∧ x.failed = false ∧
      x.complete = true ∧ tileGood x.bytes = true ∧
      makeRoom (ring s d.ring.val).tenant (cdiv (leAt x.bytes 8 4) 256) (s.glz.tiles.length + 1) (taken d s) = some u) ∧
   (∃ (d : Desc) (tile : BitVec 16) (x : Tile) (s : State),
      Admitted d .t noObjs s = true ∧ (s.glz.tiles.find? (fun x => decide (x.tenant = (ring s d.ring.val).tenant ∧
      x.id = tile.toNat)) = some x) ∧ tilePinned s x = false) ∧
   (∃ (ini : Initiator) (_val : Word) (s : State),
      Writable ini Reg.GLZ_BAND s = true ∧ (∀ c ∈ s.jobs.copies, c.state ≠ .queued ∧ c.state ≠ .ready ∧ c.state ≠ .committed ∧
      c.state ≠ .fired)) ∧
   (∃ (lane : Fin 4) (w : GlazeWork) (l : Nat) (s : State),
      rbit s Reg.GLZ_CTRL lane.val = true ∧
      let u := decodeDue (enqueueBlocks s)
      nextWork u = some w ∧ w.band = false ∧ nextPageLine u w.copy w.plane = some l ∧ scanning u w.plane = false) ∧
   (∃ (lane : Fin 4) (w : GlazeWork) (l : Nat) (s : State),
      rbit s Reg.GLZ_CTRL lane.val = true ∧
      let u := decodeDue (enqueueBlocks s)
      nextWork u = some w ∧ w.band = false ∧ nextPageLine u w.copy w.plane = some l ∧ scanning u w.plane = true) ∧
   (∃ (lane : Fin 4) (w : GlazeWork) (s : State),
      rbit s Reg.GLZ_CTRL lane.val = true ∧
      let u := decodeDue (enqueueBlocks s)
      nextWork u = some w ∧ w.band = false ∧ nextPageLine u w.copy w.plane = none) ∧
   (∃ (lane : Fin 4) (w : GlazeWork) (b : Nat) (s : State),
      rbit s Reg.GLZ_CTRL lane.val = true ∧
      let u := decodeDue (enqueueBlocks s)
      nextWork u = some w ∧ w.band = true ∧ nextBand u w.copy w.plane = some b) ∧
   (∃ (w : Band) (x : Copy) (s : State),
      s.glz.bands.find? (·.waiting) = some w ∧ poolUsed s + w.mib ≤ 512 ∧ findCopy s w.copy = some x) :=
  ⟨⟨desc, 7, 5, stream tileImage, (withStream (tileImage) ready), by decide +kernel, by decide +kernel, by decide +kernel,
     by decide +kernel, by decide +kernel, by decide +kernel, by decide +kernel, by decide +kernel, by decide +kernel⟩,
   ⟨desc, 7, 5, stream tileImage, (withStream (tileImage) ready),
     (makeRoom 0 (cdiv (leAt tileImage 8 4) 256) 1 (taken desc (withStream (tileImage) ready))).get (by decide +kernel),
     by decide +kernel, by decide +kernel, by decide +kernel, by decide +kernel, by decide +kernel, by decide +kernel,
     by decide +kernel, ((Option.some_get _).symm)⟩,
   ⟨desc, 7, tile, { ready with glz := { ready.glz with tiles := [tile] } }, by decide +kernel, by decide +kernel,
     by decide +kernel⟩,
   ⟨.host, 1, ready, by decide +kernel, by decide +kernel⟩,
   ⟨0, (due decoded).get (by decide +kernel), 0, decoded, by decide +kernel, ((Option.some_get _).symm), by decide +kernel,
     by decide +kernel, by decide +kernel⟩,
   ⟨0, (due scanned).get (by decide +kernel), 0, scanned, by decide +kernel, ((Option.some_get _).symm), by decide +kernel,
     by decide +kernel, by decide +kernel⟩,
   ⟨0, (due swathed).get (by decide +kernel), swathed, by decide +kernel, ((Option.some_get _).symm), by decide +kernel,
     by decide +kernel⟩,
   ⟨0, (due banded).get (by decide +kernel), 0, banded, by decide +kernel, ((Option.some_get _).symm), by decide +kernel,
     by decide +kernel⟩,
   ⟨⟨0, 0, 0, 1, true, false⟩, copy .ready,
     { ready with jobs := { ready.jobs with copies := [copy .ready] }, glz := { ready.glz with bands := [⟨0, 0, 0, 1, true, false⟩] } },
     by decide +kernel, by decide +kernel, by decide +kernel⟩⟩

theorem test_head_power_runs :
   (∃ (d : Desc) (handle : Word) (x : Stream) (s : State),
      Admitted d .o (fun _ => (List.range 64).map objHead) s = true ∧
      findStream s (ring s d.ring.val).tenant handle.toNat = some x ∧ x.failed = false ∧ x.complete = true ∧
      segmentGood x.bytes = true ∧
      (∀ k < 64, (port s k).pwren = true → ∀ u : State, u.pwr.segments = ((List.range 16).map fun g => (g, leAt x.bytes (16 + 16 * g) 8)) → segmentOf u k = segmentOf s k)) ∧
   (∃ (d : Desc) (mask : DWord) (_timeout : Word) (s : State),
      Admitted d .o (fun _ => (maskBits 64 mask.toNat).map objHead) s = true ∧
      (∀ k ∈ maskBits 64 mask.toNat, headEnabled s k = true)) ∧
   (∃ (d : Desc) (mask : DWord) (_timeout : Word) (s : State),
      Admitted d .o (fun _ => (maskBits 64 mask.toNat).map objHead) s = true ∧
      (∀ k ∈ maskBits 64 mask.toNat, headEnabled s k = true ∧ (segmentOf s k).isSome ∧
      (segmentOf s k).any (tripCoversSegment s) = false ∧ charge s k ≤ rf s Reg.PWR_INRUSH_BUDGET 15 0 ∧
      tallyForbids s k = false) ∧ s.pwr.state = .run ∧ s.pwr.toward = none) ∧
   (∃ (d : Desc) (mask : DWord) (_timeout : Word) (s : State),
      Admitted d .o (fun _ => (maskBits 64 mask.toNat).map objHead) s = true ∧
      (∀ k ∈ maskBits 64 mask.toNat, headEnabled s k = true ∧ (segmentOf s k).isSome ∧
      (segmentOf s k).any (tripCoversSegment s) = false ∧ charge s k ≤ rf s Reg.PWR_INRUSH_BUDGET 15 0 ∧
      tallyForbids s k = false) ∧ (¬(s.pwr.state = .run ∧ s.pwr.toward = none))) ∧
   (∃ (at_ : DWord) (q : HeadEnable) (rest : List HeadEnable) (s : State) (u : State),
      u = advanceTo at_.toNat s ∧ u.pwr.queue = q :: rest ∧ (u.pwr.state = .run ∨ u.pwr.state = .idle) ∧
      (segmentOf u q.head).isSome ∧ (segmentOf u q.head).any (tripCoversSegment u) = false ∧
      (∀ v, u.pwr.lastAdmit = some v → v + rf u Reg.PWR_MIN_GAP 15 0 * us ≤ now u) ∧
      winCharge u (now u) + charge u q.head ≤ rf u Reg.PWR_INRUSH_BUDGET 15 0) ∧
   (∃ (q : Parked) (s : State),
      findParked s q.h.seq = some q ∧ q.accepted = true ∧ q.waits = [] ∧
      (∃ d mask action timeout, q.cmd = .headPower d mask action timeout)) ∧
   (∃ (q : Parked) (s : State),
      findParked s q.h.seq = some q ∧ q.accepted = true ∧ q.waits = [] ∧ (∃ d target, q.cmd = .powerState d target)) ∧
   (∃ (q : Parked) (d : Desc) (mask : DWord) (action : BitVec 8) (timeout : Word) (at_ : DWord) (s : State) (u : State),
      u = advanceTo at_.toNat s ∧ findParked s q.h.seq = some q ∧ q.cmd = .headPower d mask action timeout ∧
      q.accepted = true ∧ q.waits ≠ [] ∧ q.since + powerLimit timeout ≤ now u) ∧
   (∃ (q : Parked) (d : Desc) (target : BitVec 8) (at_ : DWord) (s : State) (u : State),
      u = advanceTo at_.toNat s ∧ findParked s q.h.seq = some q ∧ q.cmd = .powerState d target ∧ q.accepted = true ∧
      exitPending s ≠ [] ∧ s.pwr.exitAt + 1000 * ms ≤ now u ∧ keyExit ∉ q.waits) :=
  ⟨⟨desc, 5, stream (le 2 0x4553 ++ List.replicate 526 0), (withStream (le 2 0x4553 ++ List.replicate 526 0) ready),
     by decide +kernel, by decide +kernel, by decide +kernel, by decide +kernel, by decide +kernel,
     (fun k hk h => absurd h (by revert k; decide +kernel))⟩,
   ⟨desc, 1, 0, press .stopped, by decide +kernel, by decide +kernel⟩,
   ⟨desc, 1, 0, press .stopped, by decide +kernel, by decide +kernel, by decide +kernel, by decide +kernel⟩,
   ⟨desc, 1, 0, { press .stopped with pwr := { (press .stopped).pwr with state := .idle } }, by decide +kernel,
     by decide +kernel, by decide +kernel⟩,
   ⟨0, ⟨0, none⟩, [], { press .stopped with pwr := { (press .stopped).pwr with queue := [⟨0, none⟩] } },
     { press .stopped with pwr := { (press .stopped).pwr with queue := [⟨0, none⟩] } }, by decide +kernel, by decide +kernel,
     by decide +kernel, by decide +kernel, by decide +kernel, (fun v h => absurd h (by simp [press, ready, State.reset])),
     by decide +kernel⟩,
   ⟨waiting (.headPower desc 1 1 0) [], (withParked (waiting (.headPower desc 1 1 0) []) ready), by decide +kernel,
     by decide +kernel, by decide +kernel, (⟨_, _, _, _, rfl⟩)⟩,
   ⟨waiting (.powerState desc 0) [], (withParked (waiting (.powerState desc 0) []) ready), by decide +kernel, by decide +kernel,
     by decide +kernel, (⟨_, _, rfl⟩)⟩,
   ⟨waiting (.headPower desc 1 1 0) [3], desc, 1, 1, 0, BitVec.ofNat 64 (1000 * ms),
     (withParked (waiting (.headPower desc 1 1 0) [3]) ready),
     advanceTo (1000 * ms) (withParked (waiting (.headPower desc 1 1 0) [3]) ready), by decide +kernel, by decide +kernel,
     by decide +kernel, by decide +kernel, by decide +kernel, by decide +kernel⟩,
   ⟨waiting (.powerState desc 0) [], desc, 0, BitVec.ofNat 64 (1000 * ms),
     { withParked (waiting (.powerState desc 0) []) ready with pwr := { ready.pwr with exitHeads := [2] } },
     advanceTo (1000 * ms) { withParked (waiting (.powerState desc 0) []) ready with pwr := { ready.pwr with exitHeads := [2] } },
     by decide +kernel, by decide +kernel, by decide +kernel, by decide +kernel, by decide +kernel, by decide +kernel,
     by decide +kernel⟩⟩

theorem test_power_states_run :
   (∃ (d : Desc) (target : BitVec 8) (s : State),
      Admitted d .s noObjs s = true ∧ target.toNat ≤ 3 ∧ s.pwr.toward = none ∧ s.pwr.state = targetState target.toNat ∧
      entryStatus s target.toNat = 0) ∧
   (∃ (d : Desc) (s : State),
      Admitted d .s noObjs s = true ∧ ((s.pwr.toward = none ∧ s.pwr.state ≠ .run) ∨ s.pwr.toward = some .run)) ∧
   (∃ (d : Desc) (target : BitVec 8) (s : State),
      Admitted d .s noObjs s = true ∧ 0 < target.toNat ∧ target.toNat ≤ 3 ∧ s.pwr.toward = none ∧
      s.pwr.state ≠ targetState target.toNat ∧ entryStatus s target.toNat = 0) ∧
   (∃ (d : Desc) (target : BitVec 8) (s : State),
      Admitted d .s noObjs s = true ∧ target.toNat ≤ 3 ∧ s.pwr.toward ≠ none ∧ (¬(target.toNat = 0 ∧ s.pwr.toward = some .run))) ∧
   (∃ s : State, (s.pwr.toward = some .idle ∨ s.pwr.toward = some .standby ∨ (s.pwr.toward = some .deep ∧ s.pwr.told = false))) ∧
   (∃ s : State, rbit s Reg.PWR_CTRL 0 = true ∧ s.pwr.state = .run ∧ s.pwr.toward = none ∧ s.fw.ready = true ∧ entryStatus s 1 = 0) ∧
   (∃ s : State, s.pwr.toward = some .run) ∧
   (∃ s : State, s.pwr.toward = some .deep ∧ s.pwr.told = true ∧ s.pwr.wake = none) ∧
   (∃ (s : State) (k : RstKind) (strap : Nat),
      s.pwr.toward = some .deep ∧ s.pwr.told = true ∧ s.pwr.wake = some (k, strap)) ∧
   (∃ (at_ : DWord) (s : State) (u : State),
      u = advanceTo at_.toNat s ∧ u.pwr.state = .deep ∧ rn u Reg.PWR_DEEP_WAKE ≠ 0 ∧
      u.pwr.deepAt + rn u Reg.PWR_DEEP_WAKE * 1000 * ms ≤ u.clock.uptime) ∧
   (∃ (k : Fin 11) (_strap : BitVec 5) (s : State), s.pwr.low.contains k.val = false ∧ (k.val ≤ 4 ∨ clocked s = true)) ∧
   (∃ (k : Fin 11) (s : State), s.pwr.low.contains k.val = true) :=
  ⟨⟨desc, 0, ready, by decide +kernel, by decide +kernel, by decide +kernel, by decide +kernel, by decide +kernel⟩,
   ⟨desc, { ready with pwr := { ready.pwr with state := .idle } }, by decide +kernel, by decide +kernel⟩,
   ⟨desc, 1, ready, by decide +kernel, by decide +kernel, by decide +kernel, by decide +kernel, by decide +kernel,
     by decide +kernel⟩,
   ⟨desc, 1, { ready with pwr := { ready.pwr with toward := some .standby } }, by decide +kernel, by decide +kernel,
     by decide +kernel, by decide +kernel⟩,
   ⟨{ ready with pwr := { ready.pwr with toward := some .idle } }, by decide +kernel⟩,
   ⟨withRegs [(Reg.PWR_CTRL, 1)] ready, by decide +kernel, by decide +kernel, by decide +kernel, by decide +kernel,
     by decide +kernel⟩,
   ⟨{ ready with pwr := { ready.pwr with state := .standby, toward := some .run } }, by decide +kernel⟩,
   ⟨{ ready with pwr := { ready.pwr with toward := some .deep, told := true } }, by decide +kernel, by decide +kernel,
     by decide +kernel⟩,
   ⟨{ ready with pwr := { ready.pwr with toward := some .deep, told := true, wake := some (.pin, 3) } }, .pin, 3,
     by decide +kernel, by decide +kernel, by decide +kernel⟩,
   ⟨BitVec.ofNat 64 (1000 * ms), withRegs [(Reg.PWR_DEEP_WAKE, 1)] ({ ready with pwr := { ready.pwr with state := .deep } }),
     advanceTo (1000 * ms) (withRegs [(Reg.PWR_DEEP_WAKE, 1)] ({ ready with pwr := { ready.pwr with state := .deep } })),
     by decide +kernel, by decide +kernel, by decide +kernel, by decide +kernel⟩,
   ⟨4, 0, ready, by decide +kernel, by decide +kernel⟩,
   ⟨10, { ready with pwr := { ready.pwr with low := [10] } }, by decide +kernel⟩⟩

theorem test_sagger_commands_run :
   (∃ (d : Desc) (n : BitVec 16) (s : State),
      Admitted d .t noObjs s = true ∧ mayName (hdrOf d s) n.toNat = true ∧ n.toNat ≠ 0) ∧
   (∃ (d : Desc) (_buf : DWord) (len : Word) (mine : List Batch) (out : List Batch) (s : State),
      Admitted d .t noObjs s = true ∧ mine = (s.sag.batches.filter fun b => decide (b.tenant = (ring s d.ring.val).tenant)) ∧
      out = fitBatches len.toNat (mine.takeWhile fun b => b.persisted || noJournal s) ∧
      ((mine.takeWhile fun b => b.persisted || noJournal s) = [] ∨ out ≠ [])) :=
  ⟨⟨desc, 3, { ready with hif := { ready.hif with rings := [(0, cmdRing)] } }, by decide +kernel, by decide +kernel,
     by decide +kernel⟩,
   ⟨desc, 0, 0, [], [], ready, by decide +kernel, by decide +kernel, by decide +kernel, by decide +kernel⟩⟩

theorem test_sagger_events_run :
   (∃ (_ini : Initiator) (s : State), clocked s = true ∧ pageUp s pgSag = true ∧ pageBusy s pgSag = false) ∧
   (∃ (at_ : DWord) (s : State) (u : State),
      u = advanceTo at_.toNat s ∧ u.sag.nonce.isSome ∧ u.sag.nonceAt + 600000 * ms ≤ u.clock.uptime) ∧
   (∃ (n : Fin 1024) (s : State), (sagTenant s n.val).receipts ≠ []) ∧
   (∃ (n : Fin 1024) (b : Batch) (r : Nat) (s : State),
      oldestBatch s n.val = some b ∧ (b.persisted = true ∨ noJournal s = true) ∧ receiptRing s n.val = some r ∧
      canPost s r b.entries.length = true ∧ alarmFirst s = false) ∧
   (∃ (_cs0 : BitVec 16) (_cs1 : BitVec 16) (_id0 : BitVec 8) (_id1 : BitVec 8) (_speed : BitVec 3) (_width : BitVec 4)
      (_good : Bool) (s : State),
      bootMayRun s = true ∧ s.sag.halted = false ∧ s.sag.failCode = 0) ∧
   (∃ (_cs0 : BitVec 16) (_cs1 : BitVec 16) (_id0 : BitVec 8) (_id1 : BitVec 8) (_speed : BitVec 3) (_width : BitVec 4)
      (_good : Bool) (failed : Fin 5) (s : State),
      bootMayRun s = true ∧ s.sag.halted = false ∧ s.sag.failCode = 0 ∧ failed ≠ 0) :=
  ⟨⟨.host, ready, by decide +kernel, by decide +kernel, by decide +kernel⟩,
   ⟨BitVec.ofNat 64 (600000 * ms), { ready with sag := { ready.sag with nonce := some 1 } },
     advanceTo (600000 * ms) { ready with sag := { ready.sag with nonce := some 1 } }, by decide +kernel, by decide +kernel,
     by decide +kernel⟩,
   ⟨3, { ready with sag := { ready.sag with tenants := [(3, { SagTenant.init with receipts := [[1]] })] } }, by decide +kernel⟩,
   ⟨3, ⟨0, 3, 1, [[1]], 1, true⟩, 2,
     { ready with hif := { ready.hif with rings := [(0, cmdRing), (1, cplRing), (2, { cplRing with typ := .receipt, tenant := 3 })] }, sag := { ready.sag with batches := [⟨0, 3, 1, [[1]], 1, true⟩] } },
     by decide +kernel, by decide +kernel, by decide +kernel, by decide +kernel, by decide +kernel⟩,
   ⟨0, 0, 0, 0, 0, 0, true, State.reset, by decide +kernel, by decide +kernel, by decide +kernel⟩,
   ⟨0, 0, 0, 0, 0, 0, true, 4, State.reset, by decide +kernel, by decide +kernel, by decide +kernel, by decide +kernel⟩⟩

theorem test_nozzle_commands_run :
   (∃ (d : Desc) (first : Word) (count : BitVec 16) (_buf : DWord) (len : Word) (s : State),
      Admitted d .o (fun _ => [objHead (first.toNat / 4096)]) s = true ∧ 1 ≤ count.toNat ∧ count.toNat ≤ 4096 ∧
      first.toNat / 4096 = (first.toNat + count.toNat - 1) / 4096 ∧
      (∀ i < count.toNat, nozzlePresent s (first.toNat + i) = true) ∧ 32 * count.toNat ≤ len.toNat) ∧
   (∃ (d : Desc) (handle : Word) (x : Stream) (s : State),
      Admitted d .o (fun _ => streamObjs s (hdrOf d s) (.nozzleWrite d handle)) s = true ∧
      findStream s (ring s d.ring.val).tenant handle.toNat = some x ∧ x.failed = false ∧ x.complete = true ∧
      nozzleCheck s s.fw.nextSeq x.bytes = none ∧ s.crk.state ≠ .readOnly) ∧
   (∃ (q : Parked) (d : Desc) (handle : Word) (s : State),
      findParked s q.h.seq = some q ∧ q.cmd = .nozzleWrite d handle ∧ q.accepted = true ∧ q.pages = [] ∧
      recordsDone s q.h.seq = true ∧ q.h.seq ∉ s.crk.refused) ∧
   (∃ (d : Desc) (first : BitVec 16) (count : BitVec 16) (handle : Word) (x : Stream) (s : State),
      Admitted d .o noObjs s = true ∧ count.toNat ≠ 0 ∧ first.toNat + count.toNat ≤ 256 ∧
      findStream s (ring s d.ring.val).tenant handle.toNat = some x ∧ x.failed = false ∧ x.complete = true ∧
      x.bytes.length = 512 * count.toNat ∧ (∀ i < 256 * count.toNat, leAt x.bytes (2 * i) 2 < 4096)) ∧
   (∃ (d : Desc) (mask : DWord) (drops : BitVec 16) (code : BitVec 8) (s : State),
      Admitted d .o (fun _ => (maskBits 64 mask.toNat).map objHead) s = true ∧ s.pwr.state = .run ∧ s.pwr.toward = none ∧
      drops.toNat ≠ 0 ∧ 1 ≤ code.toNat ∧ code.toNat ≤ 6 ∧ (∀ g ∈ maskBits 64 mask.toNat, headEnabled s g = true ∧
      (∃ p, planeOfHead s g = some p ∧ (plane s p).state = .stopped ∧ tripCoversPlane s p = false) ∧
      ∀ k, segmentOf s g = some k → tripCoversSegment s k = false)) ∧
   (∃ (q : Parked) (d : Desc) (mask : DWord) (drops : BitVec 16) (code : BitVec 8) (n : Nat) (s : State),
      findParked s q.h.seq = some q ∧ q.cmd = .maintSpit d mask drops code ∧ q.accepted = true ∧
      tfind s.til.spits q.h.seq = some n ∧ 1 ≤ code.toNat ∧ code.toNat ≤ 6 ∧ spitBars s (maskBits 64 mask.toNat) = none) :=
  ⟨⟨desc, 31, 1, 0, 32, press .stopped, by decide +kernel, by decide +kernel, by decide +kernel, by decide +kernel,
     by decide +kernel, by decide +kernel⟩,
   ⟨desc, 5, stream nozzleRecord, (withStream (nozzleRecord) (press .stopped)), by decide +kernel, by decide +kernel,
     by decide +kernel, by decide +kernel, by decide +kernel, by decide +kernel⟩,
   ⟨waiting (.nozzleWrite desc 5) [], desc, 5, (withParked (waiting (.nozzleWrite desc 5) []) ready), by decide +kernel,
     by decide +kernel, by decide +kernel, by decide +kernel, by decide +kernel, by decide +kernel⟩,
   ⟨desc, 255, 1, 5, stream (List.replicate 512 0), (withStream (List.replicate 512 0) ready), by decide +kernel,
     by decide +kernel, by decide +kernel, by decide +kernel, by decide +kernel, by decide +kernel, by decide +kernel,
     by decide +kernel⟩,
   ⟨desc, 1, 1, 6, press .stopped, by decide +kernel, by decide +kernel, by decide +kernel, by decide +kernel,
     by decide +kernel, by decide +kernel, (fun g hg => spit0 g hg)⟩,
   ⟨waiting (.maintSpit desc 1 2 1) [], desc, 1, 2, 1, 2,
     { withParked (waiting (.maintSpit desc 1 2 1) []) (press .stopped) with til := { ready.til with spits := [(0, 2)] } },
     by decide +kernel, by decide +kernel, by decide +kernel, by decide +kernel, by decide +kernel, by decide +kernel,
     by decide +kernel⟩⟩

theorem test_plane_setup_runs :
   (∃ (d : Desc) (p : BitVec 8) (kernel : BitVec 8) (handle : Word) (bs : List Byte) (s : State),
      Admitted d .o (fun _ => [objPlane p.toNat]) s = true ∧ p.toNat ≤ 15 ∧ kernel.toNat ≤ 3 ∧ ((handle = 0 ∧
      bs = kernelDefaults p.toNat) ∨ (handle ≠ 0 ∧ ∃ x, findStream s (ring s d.ring.val).tenant handle.toNat = some x ∧
      x.failed = false ∧ x.complete = true ∧ x.bytes = bs ∧ bs.length = 32 ∧ kernelGood bs = true))) ∧
   (∃ (d : Desc) (head : BitVec 8) (sp : BitVec 16) (s : State),
      Admitted d .o (fun _ => [objHead head.toNat]) s = true ∧ head.toNat ≤ 63 ∧ headEnabled s head.toNat = true ∧
      splitAllowed s head.toNat sp.toNat = true) ∧
   (∃ (d : Desc) (p : BitVec 8) (handle : Word) (x : Stream) (s : State),
      Admitted d .o (fun _ => objPlane p.toNat :: streamObjs s (hdrOf d s) (.planeConfig d p handle)) s = true ∧ p.toNat ≤ 15 ∧
      findStream s (ring s d.ring.val).tenant handle.toNat = some x ∧ x.failed = false ∧ x.complete = true ∧
      planeClean p.toNat x.bytes = true ∧ (∀ g ∈ (planeTableOf x.bytes).head.heads, headEnabled s g.head = true) ∧
      planeTableGood s (planeTableOf x.bytes) = true ∧
      (∀ g ∈ (planeTableOf x.bytes).head.heads, inOtherPlane s p.toNat g.head = false)) :=
  ⟨⟨desc, 15, 3, 0, kernelDefaults 15, ready, by decide +kernel, by decide +kernel, by decide +kernel, (.inl ⟨rfl, rfl⟩)⟩,
   ⟨desc, 0, 32, press .stopped, by decide +kernel, by decide +kernel, by decide +kernel, by decide +kernel⟩,
   ⟨desc, 0, 5, stream planeImage, (withStream (planeImage) (press .stopped)), by decide +kernel, by decide +kernel,
     by decide +kernel, by decide +kernel, by decide +kernel, by decide +kernel, by decide +kernel, by decide +kernel,
     by decide +kernel⟩⟩

theorem test_press_commands_run :
   (∃ (d : Desc) (mask : BitVec 16) (s : State),
      Admitted d .o (fun _ => (maskBits 16 mask.toNat).map objPlane) s = true ∧ s.pwr.state = .run ∧ s.pwr.toward = none ∧
      (∀ p ∈ maskBits 16 mask.toNat, tripCoversPlane s p = false ∧ (plane s p).state = .stopped ∧ (plane s p).table.isSome ∧
      pcSrc s (planeChan s p) ≠ 0 ∧ startPassed s p = false ∧
      (rf s (Reg.KLN_P_PACE_CFG p) 5 4 = 2 → Config.swathFits (swathMiB s p false) = true))) ∧
   (∃ (d : Desc) (mask : BitVec 16) (s : State),
      Admitted d .o (fun _ => (maskBits 16 mask.toNat).map objPlane) s = true ∧ maskBits 16 mask.toNat ≠ [] ∧
      (∀ p ∈ maskBits 16 mask.toNat, (plane s p).state ≠ .stopped)) ∧
   (∃ (q : Parked) (d : Desc) (mask : BitVec 16) (s : State),
      findParked s q.h.seq = some q ∧ q.cmd = .kilnStop d mask ∧ q.accepted = true ∧ q.waits = []) ∧
   (∃ (d : Desc) (s : State), Admitted d .o noObjs s = true) ∧
   (∃ (input : Fin 2) (rising : Bool) (_dir : Bool) (t : DWord) (k : Nat) (s : State),
      k < 4 ∧ pcSrc s k = input.val + 1 ∧ (∀ j < 4, j ≠ k → pcSrc s j ≠ input.val + 1) ∧
      (rising = true ∨ rbit s (Reg.KLN_PC_CFG k) 8 = true) ∧ s.clk.dllLock = true ∧
      (∀ u, (channel s k).lastEdge = some u → u + 1024 ≤ t.toNat) ∧ (∀ p ∈ planeNums, (plane s p).state = .stopped)) ∧
   (∃ (h : Fin 64) (t : DWord) (p : Nat) (r : Nat) (dl : Int) (f : BitVec 32) (rest : List (Int × Nat × BitVec 32))
      (x : Sheaf) (s : State),
      planeOfHead s h.val = some p ∧ shiftable s p h.val t.toNat = (dl, r, f) :: rest ∧ headLive s h.val = true ∧
      tripCoversPlane s p = false ∧ (port s h.val).busyUntil ≤ t.toNat ∧ (port s h.val).descs.length < 4 ∧
      ((row s h.val r).fifo.find? fun z => decide (z.f = (row s h.val r).nextShift)) = some x) ∧
   (∃ (h : Fin 64) (r : Fin 4) (t : DWord) (p : Nat) (l : Int) (s : State),
      planeOfHead s h.val = some p ∧ (row s h.val r.val).started = true ∧ (plane s p).state ≠ .stopped ∧
      latestStart s p h.val r.val = some l ∧ l ≤ (t.toNat : Int) ∧
      ((row s h.val r.val).fifo.any fun x => decide (x.f = (row s h.val r.val).nextShift) && x.missing.isEmpty) = false ∧
      headLive s h.val = true ∧ tripCoversPlane s p = false) ∧
   (∃ (h : Fin 64) (p : Nat) (i : Nat) (r : Nat) (e : Edge) (codes : List Nat) (line : Option Nat) (slot : Nat) (ready : Nat)
      (s : State),
      planeOfHead s h.val = some p ∧ nextFire s h.val = some (i, r, e) ∧
      firing (row s h.val r) e.f = some (codes, line, slot, ready) ∧ headLive s h.val = true ∧ tripCoversPlane s p = false) :=
  ⟨⟨desc, 1, withRegs [(Reg.KLN_PC_CFG 0, 1)] (press .stopped), by decide +kernel, by decide +kernel, by decide +kernel,
     by decide +kernel⟩,
   ⟨desc, 1, press .running, by decide +kernel, by decide +kernel, by decide +kernel⟩,
   ⟨waiting (.kilnStop desc 1) [], desc, 1, (withParked (waiting (.kilnStop desc 1) []) ready), by decide +kernel,
     by decide +kernel, by decide +kernel, by decide +kernel⟩,
   ⟨desc, ready, by decide +kernel⟩,
   ⟨0, true, true, 1024, 0, withRegs [(Reg.KLN_PC_CFG 0, 1)] (press .stopped), by decide +kernel, by decide +kernel,
     by decide +kernel, by decide +kernel, by decide +kernel, (fun u h => absurd h (by decide +kernel +revert)),
     by decide +kernel⟩,
   ⟨0, 4000000, 0, 0, 4090880, 0, [], sheaf0 [], withRow (rowWith [sheaf0 []] []) (press .running), by decide +kernel,
     by decide +kernel, by decide +kernel, by decide +kernel, by decide +kernel, by decide +kernel, by decide +kernel⟩,
   ⟨0, 0, 4096000, 0, 4059136, withRow (rowWith [sheaf0 [0]] []) (press .running), by decide +kernel, by decide +kernel,
     by decide +kernel, by decide +kernel, by decide +kernel, by decide +kernel, by decide +kernel, by decide +kernel⟩,
   ⟨0, 0, 4096000, 0, edge0, [1, 0, 2], none, 0, 0, withRow (rowWith [] [sheaf0 []]) (press .running), by decide +kernel,
     by decide +kernel, by decide +kernel, by decide +kernel, by decide +kernel⟩⟩

theorem test_press_events_run :
   (∃ (p : Fin 16) (i : Fin 16) (w : FiredWin) (s : State), ((plane s p.val).wins.find? fun w => decide (w.index = i.val) && !w.done) = some w ∧
      rbit s Reg.KLN_CHK_CTRL 0 = true ∧ windowSize s p.val w ≤ w.kiln.length ∧ windowSize s p.val w ≤ w.til.length) ∧
   (∃ (_m : Fin 4) (_s : State), True) ∧
   (∃ (k : Fin 4) (t : DWord) (s : State), (channel s k.val).paused = false ∧
      (channel s k.val).pausedAt + pauseTime s k.val ≤ t.toNat) ∧
   (∃ (p : Fin 16) (t : DWord) (s : State), (plane s p.val).state ≠ .stopped ∧ (plane s p.val).paused = false ∧
      (plane s p.val).turnaround = false ∧ (plane s p.val).x ≠ (plane s p.val).front ∧
      (plane s p.val).pausedAt + pauseTime s (planeChan s p.val) < t.toNat) ∧
   (∃ (p : Fin 16) (t : DWord) (s : State), (plane s p.val).paused = true ∧
      rbit s (Reg.KLN_PC_PTICKLE (planeChan s p.val)) 16 = true ∧ (plane s p.val).tickleAt ≤ t.toNat) ∧
   (∃ (p : Fin 16) (t : DWord) (c : Nat) (s : State), (plane s p.val).paused = true ∧ (plane s p.val).spoiled = false ∧
      (plane s p.val).pausedAt + rf s (Reg.KLN_PC_PAUSE (planeChan s p.val)) 31 16 * ms < t.toNat ∧
      (plane s p.val).copy = some c) ∧
   (∃ (i : Fin 4) (_t : DWord) (s : State), (trip s i.val).latched = false) ∧
   (∃ (ini : Initiator) (v : Word) (s : State), Writable ini Reg.KLN_TRIP_CLR s = true ∧ inRange Reg.KLN_TRIP_CLR v = true) ∧
   (∃ (ini : Initiator) (p : Fin 16) (v : Word) (s : State),
      Writable ini (Reg.KLN_P_APPLY_CTRL p.val) s = true ∧ inRange (Reg.KLN_P_APPLY_CTRL p.val) v = true) :=
  ⟨⟨0, 0, fired0,
     withRegs [(Reg.KLN_CHK_CTRL, 1)] ({ press .running with kln := { (press .running).kln with planes := [(0, { Plane.init with state := .running, table := some table0, wins := [fired0] })] } }),
     by decide +kernel, by decide +kernel, by decide +kernel, by decide +kernel⟩,
   ⟨3, ready, trivial⟩,
   ⟨0, 0xFFFFFFFFFFFF, ready, by decide +kernel, by decide +kernel⟩,
   ⟨0, 0xFFFFFFFFFFFF,
     { press .running with kln := { (press .running).kln with planes := [(0, { Plane.init with state := .running, table := some table0, x := 5, front := 3 })] } },
     by decide +kernel, by decide +kernel, by decide +kernel, by decide +kernel, by decide +kernel⟩,
   ⟨0, 0,
     withRegs [(Reg.KLN_PC_PTICKLE 0, 0x10000)] ({ press .running with kln := { (press .running).kln with planes := [(0, { Plane.init with state := .running, table := some table0, paused := true })] } }),
     by decide +kernel, by decide +kernel, by decide +kernel⟩,
   ⟨0, 0xFFFFFFFFFFFFFF, 4,
     { press .running with kln := { (press .running).kln with planes := [(0, { Plane.init with state := .running, table := some table0, paused := true, copy := some 4 })] } },
     by decide +kernel, by decide +kernel, by decide +kernel, by decide +kernel⟩,
   ⟨0, 0, ready, by decide +kernel⟩,
   ⟨.host, 15, ready, by decide +kernel, by decide +kernel⟩,
   ⟨.host, 0, 1, ready, by decide +kernel, by decide +kernel⟩⟩

theorem test_owner_refuses_writes :
   (∃ (ini : Initiator) (addr : BitVec 24) (_v : Word) (s : State),
      aligned addr.toNat = true ∧ clocked s = true ∧ pageUp s (addr.toNat / 0x1000) = true ∧
      admits ini (getPage s (addr.toNat / 0x1000)).owner = false) ∧
   (∃ (_ini : Initiator) (addr : BitVec 24) (s : State),
      aligned addr.toNat = true ∧ clocked s = true ∧ pageUp s (addr.toNat / 0x1000) = true ∧
      pageBusy s (addr.toNat / 0x1000) = false) :=
  ⟨⟨.host, 0x003040, 1, { ready with pages := [(pgThm, { Page.init .thm with owner := 2 })] }, by decide +kernel,
     by decide +kernel, by decide +kernel, by decide +kernel⟩,
   ⟨.host, 0x003040, { ready with pages := [(pgThm, { Page.init .thm with owner := 2 })] }, by decide +kernel,
     by decide +kernel, by decide +kernel, by decide +kernel⟩⟩

theorem test_unmapped_pages_read_zero :
   (∃ (_ini : Initiator) (addr : BitVec 24) (_v : Word) (_be : BitVec 4) (s : State),
      aligned addr.toNat = true ∧ clocked s = true ∧ pageOf (addr.toNat / 0x1000) = none ∧ msixArea addr.toNat = false) ∧
   (∃ (_ini : Initiator) (addr : BitVec 24) (s : State),
      aligned addr.toNat = true ∧ clocked s = true ∧ pageOf (addr.toNat / 0x1000) = none ∧ msixArea addr.toNat = false) ∧
   (∃ (_ini : Initiator) (addr : BitVec 24) (_write : Bool) (s : State),
      clocked s = true ∧ pageOf (addr.toNat / 0x1000) = none ∧ msixArea addr.toNat = false) :=
  ⟨⟨.host, 0xFFFFFC, 1, 3, ready, by decide +kernel, by decide +kernel, by decide +kernel, by decide +kernel⟩,
   ⟨.host, 0x00A000, ready, by decide +kernel, by decide +kernel, by decide +kernel, by decide +kernel⟩,
   ⟨.core, 0x151000, true, ready, by decide +kernel, by decide +kernel, by decide +kernel⟩⟩

theorem test_soft_reset_refused :
   (∃ (ini : Initiator) (page : BitVec 12) (v : Word) (s : State),
      Writable ini (page.toNat * 0x1000 + 0x008) s = true ∧ inRange (page.toNat * 0x1000 + 0x008) v = true ∧
      v.getLsbD 1 = true ∧ hasSrst (pageKind page.toNat) = true ∧ blockBusy s page.toNat = true) ∧
   (∃ (ini : Initiator) (page : BitVec 12) (v : Word) (s : State),
      Writable ini (page.toNat * 0x1000 + 0x008) s = true ∧ inRange (page.toNat * 0x1000 + 0x008) v = true ∧
      hasSrst (pageKind page.toNat) = false ∧ v.getLsbD 1 = true) ∧
   (∃ (ini : Initiator) (page : BitVec 12) (v : Word) (s : State),
      Writable ini (page.toNat * 0x1000 + 0x008) s = true ∧ inRange (page.toNat * 0x1000 + 0x008) v = true ∧
      hasSrst (pageKind page.toNat) = false ∧ v.getLsbD 1 = false) :=
  ⟨⟨.host, BitVec.ofNat 12 (pgHlk 0), 2, { press .stopped with ports := [(0, { port0 with descs := [⟨0, 0, 0, false⟩] })] },
     by decide +kernel, by decide +kernel, by decide +kernel, by decide +kernel, by decide +kernel⟩,
   ⟨.host, 0, 2, ready, by decide +kernel, by decide +kernel, by decide +kernel, by decide +kernel⟩,
   ⟨.host, 0, 4, ready, by decide +kernel, by decide +kernel, by decide +kernel, by decide +kernel⟩⟩

theorem test_register_writes_land :
   (∃ (ini : Initiator) (addr : BitVec 24) (v : Word) (r : RegDef) (k : PageKind) (i : Nat) (s : State),
      aligned addr.toNat = true ∧ Writable ini addr.toNat s = true ∧ inRange addr.toNat v = true ∧
      refusesValue s addr.toNat v = false ∧ 0x040 ≤ addr.toNat % 0x1000 ∧ pageOf (addr.toNat / 0x1000) = some (k, i) ∧
      k ∈ [PageKind.thm, .stk, .crk, .sag, .mem, .thr, .mil, .pifC, .motC, .cal] ∧
      clearMap s k (addr.toNat / 0x1000 * 0x1000) (addr.toNat % 0x1000) = none ∧ regDef addr.toNat = some r ∧ r.acc = .rw) ∧
   (∃ (ini : Initiator) (addr : BitVec 24) (v : Word) (r : RegDef) (k : PageKind) (i : Nat) (s : State),
      aligned addr.toNat = true ∧ Writable ini addr.toNat s = true ∧ inRange addr.toNat v = true ∧
      refusesValue s addr.toNat v = false ∧ 0x040 ≤ addr.toNat % 0x1000 ∧ pageOf (addr.toNat / 0x1000) = some (k, i) ∧
      k ∈ [PageKind.thm, .stk, .crk, .sag, .mem, .thr, .mil, .pifC, .motC, .cal] ∧
      clearMap s k (addr.toNat / 0x1000 * 0x1000) (addr.toNat % 0x1000) = none ∧ regDef addr.toNat = some r ∧ r.acc = .mixed) ∧
   (∃ (ini : Initiator) (addr : BitVec 24) (v : Word) (r : RegDef) (p : Nat) (s : State),
      aligned addr.toNat = true ∧ Writable ini addr.toNat s = true ∧ inRange addr.toNat v = true ∧
      refusesValue s addr.toNat v = false ∧ 0x040 ≤ addr.toNat % 0x1000 ∧ pageOf (addr.toNat / 0x1000) = some (.klnP, p) ∧
      addr.toNat % 0x1000 ≠ 0x068 ∧ addr.toNat % 0x1000 ≠ 0x100 ∧ addr.toNat % 0x1000 ≠ 0x124 ∧
      clearMap s .klnP (addr.toNat / 0x1000 * 0x1000) (addr.toNat % 0x1000) = none ∧ regDef addr.toNat = some r ∧
      r.acc = .rws ∧ (plane s p).state ≠ .stopped) ∧
   (∃ (ini : Initiator) (addr : BitVec 24) (v : Word) (k : PageKind) (i : Nat) (l : List (List Nat)) (s : State),
      aligned addr.toNat = true ∧ Writable ini addr.toNat s = true ∧ inRange addr.toNat v = true ∧
      refusesValue s addr.toNat v = false ∧ 0x040 ≤ addr.toNat % 0x1000 ∧ pageOf (addr.toNat / 0x1000) = some (k, i) ∧
      clearMap s k (addr.toNat / 0x1000 * 0x1000) (addr.toNat % 0x1000) = some l ∧ k ∉ [PageKind.klnC, .tilE, .pifCh]) ∧
   (∃ (ini : Initiator) (addr : BitVec 24) (v : Word) (r : RegDef) (k : PageKind) (i : Nat) (s : State),
      aligned addr.toNat = true ∧ Writable ini addr.toNat s = true ∧ inRange addr.toNat v = true ∧
      refusesValue s addr.toNat v = false ∧ 0x040 ≤ addr.toNat % 0x1000 ∧ pageOf (addr.toNat / 0x1000) = some (k, i) ∧
      k ∈ [PageKind.thm, .stk, .crk, .sag, .mem, .thr, .mil, .pifC, .motC, .cal] ∧
      clearMap s k (addr.toNat / 0x1000 * 0x1000) (addr.toNat % 0x1000) = none ∧ regDef addr.toNat = some r ∧ r.acc = .rw) :=
  ⟨⟨.host, 0x00304C, 0x0005006E, (regDef 0x00304C).get (by decide +kernel), .thm, 0, ready, by decide +kernel,
     by decide +kernel, by decide +kernel, by decide +kernel, by decide +kernel, by decide +kernel, by decide +kernel,
     by decide +kernel, by decide +kernel, by decide +kernel⟩,
   ⟨.host, 0x003040, 6, (regDef 0x003040).get (by decide +kernel), .thm, 0, ready, by decide +kernel, by decide +kernel,
     by decide +kernel, by decide +kernel, by decide +kernel, by decide +kernel, by decide +kernel, by decide +kernel,
     by decide +kernel, by decide +kernel⟩,
   ⟨.host, BitVec.ofNat 24 (pgKlnP 0 * 0x1000 + 0x7C), 1, (regDef (pgKlnP 0 * 0x1000 + 0x7C)).get (by decide +kernel), 0,
     press .running, by decide +kernel, by decide +kernel, by decide +kernel, by decide +kernel, by decide +kernel,
     by decide +kernel, by decide +kernel, by decide +kernel, by decide +kernel, by decide +kernel, by decide +kernel,
     by decide +kernel, by decide +kernel⟩,
   ⟨.host, BitVec.ofNat 24 (pgStk * 0x1000 + 0x08C), 1, .stk, 0, [[24692], [24696], [24700], [24704, 24708], [24712]], ready,
     by decide +kernel, by decide +kernel, by decide +kernel, by decide +kernel, by decide +kernel, by decide +kernel,
     by decide +kernel, by decide +kernel⟩,
   ⟨.host, 0x00304C, 0x0005006E, (regDef 0x00304C).get (by decide +kernel), .thm, 0, ready, by decide +kernel,
     by decide +kernel, by decide +kernel, by decide +kernel, by decide +kernel, by decide +kernel, by decide +kernel,
     by decide +kernel, by decide +kernel, by decide +kernel⟩⟩

theorem test_header_writes_land :
   (∃ (ini : Initiator) (page : BitVec 12) (v : Word) (s : State),
      Writable ini (page.toNat * 0x1000 + 0x018) s = true ∧ inRange (page.toNat * 0x1000 + 0x018) v = true) ∧
   (∃ (ini : Initiator) (page : BitVec 12) (v : Word) (s : State),
      Writable ini (page.toNat * 0x1000 + 0x01C) s = true ∧ inRange (page.toNat * 0x1000 + 0x01C) v = true) ∧
   (∃ (ini : Initiator) (page : BitVec 12) (v : Word) (s : State),
      Writable ini (page.toNat * 0x1000 + 0x024) s = true ∧ inRange (page.toNat * 0x1000 + 0x024) v = true ∧
      v.getLsbD 31 = true) ∧
   (∃ (ini : Initiator) (page : BitVec 12) (v : Word) (s : State),
      Writable ini (page.toNat * 0x1000 + 0x020) s = true ∧ inRange (page.toNat * 0x1000 + 0x020) v = true ∧ v.getLsbD 3 = true) ∧
   (∃ (ini : Initiator) (page : BitVec 12) (v : Word) (s : State),
      Writable ini (page.toNat * 0x1000 + 0x020) s = true ∧ inRange (page.toNat * 0x1000 + 0x020) v = true ∧
      v.getLsbD 3 = false ∧ v.getLsbD 2 = true) ∧
   (∃ (ini : Initiator) (v : Word) (s : State),
      Writable ini Reg.GLB_HOLD_REL s = true ∧ inRange Reg.GLB_HOLD_REL v = true ∧ v.getLsbD 17 = false) ∧
   (∃ (v : Word) (s : State),
      Writable .core Reg.GLB_HOLD_REL s = true ∧ inRange Reg.GLB_HOLD_REL v = true ∧ v.getLsbD 17 = true) ∧
   (∃ (ini : Initiator) (page : BitVec 12) (v : Word) (s : State),
      Writable ini (page.toNat * 0x1000 + 0x008) s = true ∧ inRange (page.toNat * 0x1000 + 0x008) v = true ∧
      v.getLsbD 1 = true ∧ hasSrst (pageKind page.toNat) = true ∧ blockBusy s page.toNat = false) ∧
   (∃ (page : BitVec 12) (s : State), pageUp s page.toNat = true) ∧
   (∃ (ini : Initiator) (h : Fin 64) (v : Word) (s : State),
      Writable ini (pgHlk h.val * 0x1000 + 0x008) s = true ∧ inRange (pgHlk h.val * 0x1000 + 0x008) v = true ∧
      v.getLsbD 1 = false ∧ v.getLsbD 0 = true ∧ portMode s h.val = 1 ∧ (port s h.val).link = .off) ∧
   (∃ (ini : Initiator) (c : Fin 4) (v : Word) (s : State),
      Writable ini (pgPif c.val * 0x1000 + 0x008) s = true ∧ inRange (pgPif c.val * 0x1000 + 0x008) v = true ∧
      v.getLsbD 1 = false ∧ v.getLsbD 0 = true ∧ (pif s c.val).enabled = false) :=
  ⟨⟨.host, 3, 0xFFFFFFFF, ready, by decide +kernel, by decide +kernel⟩,
   ⟨.host, 3, 0xFFFFFFFF, ready, by decide +kernel, by decide +kernel⟩,
   ⟨.host, 3, 0x80000000, ready, by decide +kernel, by decide +kernel, by decide +kernel⟩,
   ⟨.host, 0x40, 8, ready, by decide +kernel, by decide +kernel, by decide +kernel⟩,
   ⟨.host, 0x40, 4, ready, by decide +kernel, by decide +kernel, by decide +kernel, by decide +kernel⟩,
   ⟨.host, 0x1FFFF, ready, by decide +kernel, by decide +kernel, by decide +kernel⟩,
   ⟨0x20001, ready, by decide +kernel, by decide +kernel, by decide +kernel⟩,
   ⟨.host, 4, 2, ready, by decide +kernel, by decide +kernel, by decide +kernel, by decide +kernel, by decide +kernel⟩,
   ⟨4, ready, by decide +kernel⟩,
   ⟨.host, 0, 1, withRegs [(Reg.HLK_CTRL 0, 1)] ready, by decide +kernel, by decide +kernel, by decide +kernel,
     by decide +kernel, by decide +kernel, by decide +kernel⟩,
   ⟨.host, 3, 1, ready, by decide +kernel, by decide +kernel, by decide +kernel, by decide +kernel, by decide +kernel⟩⟩

theorem test_calibration_runs :
   (∃ (d : Desc) (mask : BitVec 16) (action : BitVec 8) (s : State),
      Admitted d .o (fun _ => (maskBits 16 mask.toNat).map objPlane) s = true ∧ action.toNat ≤ 2 ∧
      (∀ p ∈ maskBits 16 mask.toNat, camNums.any (fun k => inspects s k p) = true)) ∧
   (∃ (d : Desc) (port : BitVec 8) (action : BitVec 8) (s : State),
      Admitted d .o (fun _ => [objPort port.toNat]) s = true ∧ port.toNat ≤ 3 ∧ action.toNat ≤ 1) ∧
   (∃ (d : Desc) (p : BitVec 8) (s : State), Admitted d .o noObjs s = true ∧ p.toNat ≤ 15) ∧
   (∃ (ini : Initiator) (reg : Fin 8) (v : Word) (s : State),
      Writable ini (gleanReg reg.val) s = true ∧ inRange (gleanReg reg.val) v = true ∧
      gleanRefuses (gleanReg reg.val) v = false) ∧
   (∃ (p : Fin 16) (id : Nat) (w : GleanWin) (s : State),
      tfind s.gln.dumps p.val = some (id, w) ∧ tfind s.cal.props p.val = none) ∧
   (∃ (p : Fin 16) (x : Proposal) (s : State), tfind s.cal.props p.val = some x ∧ (plane s p.val).state ≠ .stopped) :=
  ⟨⟨desc, 0, 0, ready, by decide +kernel, by decide +kernel, by decide +kernel⟩,
   ⟨desc, 3, 1, ready, by decide +kernel, by decide +kernel, by decide +kernel⟩,
   ⟨desc, 15, ready, by decide +kernel, by decide +kernel⟩,
   ⟨.host, 0, 0x100, ready, by decide +kernel, by decide +kernel, by decide +kernel⟩,
   ⟨0, 1, ⟨[], [], 0⟩, { ready with gln := { ready.gln with dumps := [(0, (1, ⟨[], [], 0⟩))] } }, by decide +kernel,
     by decide +kernel⟩,
   ⟨0, ⟨1, 0, []⟩, { press .running with cal := { ready.cal with props := [(0, ⟨1, 0, []⟩)] } }, by decide +kernel,
     by decide +kernel⟩⟩

theorem test_axis_commands_run :
   (∃ (d : Desc) (a : BitVec 8) (handle : Word) (x : Stream) (s : State),
      Admitted d .o (fun _ => [objAxis a.toNat]) s = true ∧ a.toNat < 8 ∧
      findStream s (ring s d.ring.val).tenant handle.toNat = some x ∧ x.failed = false ∧ x.complete = true ∧
      (axis s a.toNat).state = .disabled ∧ x.bytes.length = 160 ∧ imageRanges x.bytes = true ∧
      imageLimits (imageWord x.bytes) = true ∧ imageProfiles (imageWord x.bytes) = true) ∧
   (∃ (d : Desc) (mask : BitVec 8) (action : BitVec 8) (s : State),
      Admitted d .o (fun _ => (maskBits 8 mask.toNat).map objAxis) s = true ∧ action.toNat ≤ 1 ∧
      (action.toNat = 1 → s.pwr.state = .run ∧ s.pwr.toward = none ∧ toEnable s (maskBits 8 mask.toNat) ≠ [] ∧
      ∀ a ∈ maskBits 8 mask.toNat, tripCoversAxis s a = false ∧ mayEnable s a = true)) ∧
   (∃ (d : Desc) (a : BitVec 8) (profile : BitVec 8) (target : DWord) (s : State),
      Admitted d .o (fun _ => [objAxis a.toNat]) s = true ∧ a.toNat < 8 ∧ profile.toNat < 4 ∧
      targetOk s a.toNat target.toInt = true ∧ (axis s a.toNat).state = .standstill ∧
      mayMove s a.toNat (decide ((axis s a.toNat).counts ≤ target.toInt)) = true) ∧
   (∃ (d : Desc) (mask : BitVec 8) (mode : BitVec 8) (s : State),
      Admitted d .o (fun _ => (maskBits 8 mask.toNat).map objAxis) s = true ∧ mode.toNat ≤ 1 ∧ maskBits 8 mask.toNat ≠ [] ∧
      (∀ a ∈ maskBits 8 mask.toNat, (axis s a).state = .moving)) ∧
   (∃ (d : Desc) (a : BitVec 8) (m : Move) (s : State),
      Admitted d .o (fun _ => [objAxis a.toNat]) s = true ∧ a.toNat < 8 ∧ (axis s a.toNat).retained = some m ∧
      (axis s a.toNat).state = .standstill ∧ mayMove s a.toNat (decide ((axis s a.toNat).counts ≤ m.target)) = true) ∧
   (∃ (d : Desc) (a : BitVec 8) (seq : BitVec 8) (_timeout : Word) (s : State),
      Admitted d .o (fun _ => [objAxis a.toNat]) s = true ∧ a.toNat < 8 ∧ seq.toNat ≤ 3 ∧ tripCoversAxis s a.toNat = false ∧
      (axis s a.toNat).state = .standstill ∧ mayMove s a.toNat (rbit s (Reg.MOT_A_HOMECFG a.toNat) 0) = true ∧
      (seq.toNat = 1 → rbit s (Reg.MOT_A_CFG a.toNat) 13 = true)) ∧
   (∃ (d : Desc) (a : BitVec 8) (s : State), Admitted d .o noObjs s = true ∧ a.toNat < 8) ∧
   (∃ (ini : Initiator) (a : Fin 8) (v : Word) (s : State),
      Writable ini (Reg.MOT_A_FAULT a.val) s = true ∧ inRange (Reg.MOT_A_FAULT a.val) v = true) :=
  ⟨⟨desc, 0, 5, stream axisImage, (withStream (axisImage) ready), by decide +kernel, by decide +kernel, by decide +kernel,
     by decide +kernel, by decide +kernel, by decide +kernel, by decide +kernel, by decide +kernel, by decide +kernel,
     by decide +kernel⟩,
   ⟨desc, 1, 1, (withRegs [(Reg.MOT_A_CFG 0, 1)] ready), by decide +kernel, by decide +kernel, by decide +kernel⟩,
   ⟨desc, 0, 3, 100, { ready with mot := { ready.mot with axes := [(0, { Axis.init with state := .standstill })] } },
     by decide +kernel, by decide +kernel, by decide +kernel, by decide +kernel, by decide +kernel, by decide +kernel⟩,
   ⟨desc, 1, 1, { ready with mot := { ready.mot with axes := [(0, { Axis.init with state := .moving })] } }, by decide +kernel,
     by decide +kernel, by decide +kernel, by decide +kernel⟩,
   ⟨desc, 0, ⟨.host, 100, 0, none⟩,
     { ready with mot := { ready.mot with axes := [(0, { Axis.init with state := .standstill, retained := some ⟨.host, 100, 0, none⟩ })] } },
     by decide +kernel, by decide +kernel, by decide +kernel, by decide +kernel, by decide +kernel⟩,
   ⟨desc, 0, 3, 0, { ready with mot := { ready.mot with axes := [(0, { Axis.init with state := .standstill })] } },
     by decide +kernel, by decide +kernel, by decide +kernel, by decide +kernel, by decide +kernel, by decide +kernel,
     by decide +kernel⟩,
   ⟨desc, 7, ready, by decide +kernel, by decide +kernel⟩,
   ⟨.host, 7, 31, ready, by decide +kernel, by decide +kernel⟩⟩

theorem test_axes_move :
   (∃ (a : Fin 8) (m : Move) (s : State), (axis s a.val).move = some m ∧ m.kind = .host ∧ (axis s a.val).stop = .none ∧
      (axis s a.val).state = .moving ∧ rbit s (Reg.MOT_A_CFG a.val) 13 = false ∧ (∀ k < 4, pcSrc s k = 3 → pcSub s k ≠ a.val)) ∧
   (∃ (a : Fin 8) (_ia : BitVec 16) (_ib : BitVec 16) (s : State),
      axisMode s a.val = 1 ∧ (axis s a.val).state = .standstill ∧ drivesCurrent s a.val = true) ∧
   (∃ (a : Fin 8) (ph : Bool) (code : BitVec 16) (s : State),
      bridgeOn s a.val = true ∧ rbit s (Reg.MOT_A_FAULT a.val) 0 = false ∧
      rf s (Reg.MOT_A_CUR2 a.val) 31 16 < code.toInt.natAbs ∧
      1 ≤ (if ph then (axis s a.val).phB else (axis s a.val).phA).overRun) ∧
   (∃ (a : Fin 8) (_ph : Bool) (s : State), bridgeOn s a.val = true ∧ rbit s (Reg.MOT_A_FAULT a.val) 1 = false) ∧
   (∃ (a : Fin 8) (positive : Bool) (high : Bool) (s : State),
      rbit s (Reg.MOT_A_HOMECFG a.val) 3 = true ∧ limitActive s a.val positive = false ∧
      high = !rbit s (Reg.MOT_A_HOMECFG a.val) 2 ∧ movesToward s a.val positive = true) ∧
   (∃ (a : Fin 8) (high : Bool) (m : Move) (seq : Nat) (d : Nat) (s : State), (axis s a.val).move = some m ∧
      m.kind = .home seq 0 d ∧ seq ≤ 1 ∧ high = !rbit s (Reg.MOT_A_HOMECFG a.val) 1) ∧
   (∃ (a : Fin 8) (m : Move) (s : State), (axis s a.val).move = some m ∧ (∀ q p d, m.kind ≠ .home q p d) ∧
      ((axis s a.val).stop = .none ∧ (axis s a.val).state = .moving ∧
      (axis s a.val).pos = m.target * 2 ^ 32 ∨ ((axis s a.val).stop = .mode0 ∨ (axis s a.val).stop = .mode1) ∧
      (axis s a.val).state = .stopping ∧ (axis s a.val).vel = 0) ∧ (axis s a.val).feedWait = none) ∧
   (∃ (a : Fin 8) (m : Move) (seq : Nat) (d : Nat) (s : State), (axis s a.val).move = some m ∧ m.kind = .home seq 5 d ∧
      (axis s a.val).feedWait = none) ∧
   (∃ (a : Fin 8) (ti : DWord) (m : Move) (seq : Nat) (ph : Nat) (d : Nat) (s : State), (axis s a.val).move = some m ∧
      m.kind = .home seq ph d ∧ d ≤ ti.toNat ∧ ph ≠ 5) ∧
   (∃ (a : Fin 8) (s : State), (axis s a.val).state = .standstill ∧ (axis s a.val).held = true) ∧
   (∃ (a : Nat) (c : Nat) (rest : List (Nat × Nat)) (ti : DWord) (s : State),
      s.mot.queue = (a, c) :: rest ∧ s.mot.admitAt ≤ ti.toNat ∧ (axis s a).phA.lost = false ∧ (axis s a).phB.lost = false) :=
  ⟨⟨0, ⟨.host, 100, 0, none⟩,
     { ready with mot := { ready.mot with axes := [(0, { Axis.init with state := .moving, move := some ⟨.host, 100, 0, none⟩ })] } },
     by decide +kernel, by decide +kernel, by decide +kernel, by decide +kernel, by decide +kernel, by decide +kernel⟩,
   ⟨0, 0, 0,
     { (withRegs [(Reg.MOT_A_CFG 0, 1)] ready) with mot := { ready.mot with axes := [(0, { Axis.init with state := .standstill })] } },
     by decide +kernel, by decide +kernel, by decide +kernel⟩,
   ⟨0, false, 0x7FFF,
     { (withRegs [(Reg.MOT_A_CFG 0, 1), (Reg.MOT_A_CUR2 0, 0x01000000)] ready) with mot := { ready.mot with axes := [(0, { Axis.init with state := .standstill, phA := ⟨0, 0, 1, 0, false⟩ })] } },
     by decide +kernel, by decide +kernel, by decide +kernel, by decide +kernel⟩,
   ⟨0, true,
     { (withRegs [(Reg.MOT_A_CFG 0, 1)] ready) with mot := { ready.mot with axes := [(0, { Axis.init with state := .standstill })] } },
     by decide +kernel, by decide +kernel⟩,
   ⟨0, true, true,
     { (withRegs [(Reg.MOT_A_HOMECFG 0, 8)] ready) with mot := { ready.mot with axes := [(0, { Axis.init with state := .moving, vel := 1, move := some ⟨.host, 100, 0, none⟩ })] } },
     by decide +kernel, by decide +kernel, by decide +kernel, by decide +kernel⟩,
   ⟨0, true, ⟨.home 0 0 9, 100, 0, none⟩, 0, 9,
     { ready with mot := { ready.mot with axes := [(0, { Axis.init with state := .moving, move := some ⟨.home 0 0 9, 100, 0, none⟩ })] } },
     by decide +kernel, by decide +kernel, by decide +kernel, by decide +kernel⟩,
   ⟨0, ⟨.host, 100, 0, none⟩,
     { ready with mot := { ready.mot with axes := [(0, { Axis.init with state := .moving, pos := 100 * 2 ^ 32, move := some ⟨.host, 100, 0, none⟩ })] } },
     by decide +kernel, (fun q p d h => by cases h), by decide +kernel, by decide +kernel⟩,
   ⟨0, ⟨.home 0 5 9, 100, 0, none⟩, 0, 9,
     { ready with mot := { ready.mot with axes := [(0, { Axis.init with state := .moving, move := some ⟨.home 0 5 9, 100, 0, none⟩ })] } },
     by decide +kernel, by decide +kernel, by decide +kernel⟩,
   ⟨0, 9, ⟨.home 0 0 9, 100, 0, none⟩, 0, 0, 9,
     { ready with mot := { ready.mot with axes := [(0, { Axis.init with state := .moving, move := some ⟨.home 0 0 9, 100, 0, none⟩ })] } },
     by decide +kernel, by decide +kernel, by decide +kernel, by decide +kernel⟩,
   ⟨0, { ready with mot := { ready.mot with axes := [(0, { Axis.init with state := .standstill, held := true })] } },
     by decide +kernel, by decide +kernel⟩,
   ⟨0, 0, [], 5, { ready with mot := { ready.mot with queue := [(0, 0)], admitAt := 5 } }, by decide +kernel, by decide +kernel,
     by decide +kernel, by decide +kernel⟩⟩

theorem test_press_time_runs :
   (∃ (ini : Initiator) (v : Word) (s : State),
      Writable ini Reg.TIM_WR_CTRL s = true ∧ inRange Reg.TIM_WR_CTRL v = true ∧ timSrc s = 0 ∧ v.getLsbD 0 = true ∧
      v.getLsbD 1 = false ∧ v.getLsbD 2 = false) ∧
   (∃ (ini : Initiator) (v : Word) (s : State),
      Writable ini Reg.TIM_WR_CTRL s = true ∧ inRange Reg.TIM_WR_CTRL v = true ∧ timSrc s = 0 ∧ v.getLsbD 0 = false ∧
      v.getLsbD 1 = true ∧ v.getLsbD 2 = false) ∧
   (∃ (ini : Initiator) (v : Word) (s : State),
      Writable ini Reg.TIM_WR_CTRL s = true ∧ inRange Reg.TIM_WR_CTRL v = true ∧ v.getLsbD 0 = false ∧ v.getLsbD 1 = false ∧
      v.getLsbD 2 = true) ∧
   (∃ (ini : Initiator) (v : Word) (s : State), Writable ini Reg.TIM_CTRL s = true ∧ inRange Reg.TIM_CTRL v = true) ∧
   (∃ (_sec : Word) (_ns : BitVec 30) (_frac : BitVec 8) (s : State),
      s.hif.ptmOut = true ∧ timSrc s = 1 ∧ s.clock.first = true) ∧
   (∃ s : State, s.clock.units < secUnits ∧ s.clock.slewLeft = 0 ∧ s.clock.atSec = false) ∧
   (∃ s : State, s.clock.slewLeft ≠ 0) :=
  ⟨⟨.host, 1, ready, by decide +kernel, by decide +kernel, by decide +kernel, by decide +kernel, by decide +kernel,
     by decide +kernel⟩,
   ⟨.host, 2, ready, by decide +kernel, by decide +kernel, by decide +kernel, by decide +kernel, by decide +kernel,
     by decide +kernel⟩,
   ⟨.host, 4, ready, by decide +kernel, by decide +kernel, by decide +kernel, by decide +kernel, by decide +kernel⟩,
   ⟨.host, 1, ready, by decide +kernel, by decide +kernel⟩,
   ⟨1, 999999999, 255,
     { withRegs [(Reg.TIM_CTRL, 1)] ready with hif := { ready.hif with ptmOut := true }, clock := { ready.clock with first := true } },
     by decide +kernel, by decide +kernel, by decide +kernel⟩,
   ⟨ready, by decide +kernel, by decide +kernel, by decide +kernel⟩,
   ⟨{ ready with clock := { ready.clock with slewLeft := 1 } }, by decide +kernel⟩⟩

theorem test_inspection_commands_run :
   (∃ (d : Desc) (port : BitVec 8) (handle : Word) (x : Stream) (s : State),
      Admitted d .o (fun _ => [objPort port.toNat]) s = true ∧ port.toNat ≤ 3 ∧
      findStream s (ring s d.ring.val).tenant handle.toNat = some x ∧ x.failed = false ∧ x.complete = true ∧
      camConfigOk s port.toNat x.bytes = true) ∧
   (∃ (d : Desc) (mask : BitVec 8) (inline : BitVec 8) (action : BitVec 8) (s : State),
      Admitted d .o (fun _ => (maskBits 4 mask.toNat).map objPort) s = true ∧ mask.toNat ≤ 15 ∧ inline.toNat ≤ 3 ∧
      mask.toNat / 2 ^ inline.toNat % 2 = 1 ∧ action.toNat = 1 ∧ (s.win.made = true ∨ ringsWhole (reserveRings s) = true)) ∧
   (∃ (d : Desc) (mask : BitVec 8) (inline : BitVec 8) (action : BitVec 8) (s : State),
      Admitted d .o (fun _ => (maskBits 4 mask.toNat).map objPort) s = true ∧ mask.toNat ≤ 15 ∧ inline.toNat ≤ 3 ∧
      mask.toNat / 2 ^ inline.toNat % 2 = 1 ∧ action.toNat = 0 ∧
      (∀ q ∈ s.fw.parked, q.accepted = true → ∀ e p h, q.cmd ≠ .cameraConfig e p h)) ∧
   (∃ (d : Desc) (port : BitVec 8) (image : Word) (s : State),
      Admitted d .o (fun _ => [objPort port.toNat]) s = true ∧ (∃ x ∈ s.ipl.images, x.port = port.toNat ∧ x.num = image.toNat)) ∧
   (∃ (d : Desc) (_buf : DWord) (len : Word) (s : State),
      Admitted d .o noObjs s = true ∧ s.win.records.flatten.length ≤ len.toNat) :=
  ⟨⟨desc, 0, 5, stream cameraImage, (withStream (cameraImage) ready), by decide +kernel, by decide +kernel, by decide +kernel,
     by decide +kernel, by decide +kernel, by decide +kernel⟩,
   ⟨desc, 1, 0, 1, { ready with win := { (ready).win with made := true } }, by decide +kernel, by decide +kernel,
     by decide +kernel, by decide +kernel, by decide +kernel, by decide +kernel⟩,
   ⟨desc, 1, 0, 0, ready, by decide +kernel, by decide +kernel, by decide +kernel, by decide +kernel, by decide +kernel,
     (fun q hq => absurd hq (by simp [ready, State.reset]))⟩,
   ⟨desc, 0, 1, { ready with ipl := { (ready).ipl with images := [image] } }, by decide +kernel, by decide +kernel⟩,
   ⟨desc, 0, 0, ready, by decide +kernel, by decide +kernel⟩⟩

theorem test_record_commands_run :
   (∃ (d : Desc) (mask : BitVec 8) (s : State),
      Admitted d .o noObjs s = true ∧ mask.toNat < 16 ∧ (∀ k ∈ maskBits 4 mask.toNat, controllerOn s k = true)) ∧
   (∃ (d : Desc) (slot : BitVec 8) (s : State), Admitted d .o noObjs s = true ∧ slot.toNat < 16) ∧
   (∃ (d : Desc) (s : State), Admitted d .o noObjs s = true ∧ crkAccepts s = true) ∧
   (∃ (d : Desc) (s : State), Admitted d .o noObjs s = true ∧ crkAccepts s = true) ∧
   (∃ (d : Desc) (s : State), Admitted d .o noObjs s = true ∧ crkAccepts s = true ∧ s.crk.compacting = false) ∧
   (∃ (d : Desc) (area : BitVec 8) (handle : Word) (x : Stream) (s : State),
      Admitted d .s noObjs s = true ∧ crkAccepts s = true ∧ findStream s 0 handle.toNat = some x ∧ x.failed = false ∧
      x.complete = true ∧ ((area.toNat = 0 ∧ ∃ g, bootGen x.bytes = some g ∧ ∀ e ∈ s.crk.boot, e.2.1 < g) ∨ (area.toNat = 1 ∧
      x.bytes.length ≤ 8388608 ∧ patchesExact 32 x.bytes = true))) :=
  ⟨⟨desc, 0, ready, by decide +kernel, by decide +kernel, by decide +kernel⟩,
   ⟨desc, 1, ready, by decide +kernel, by decide +kernel⟩,
   ⟨desc, mounted, by decide +kernel, by decide +kernel⟩,
   ⟨desc, mounted, by decide +kernel, by decide +kernel⟩,
   ⟨desc, mounted, by decide +kernel, by decide +kernel, by decide +kernel⟩,
   ⟨desc, 1, 5, stream [], (withStream ([]) mounted), by decide +kernel, by decide +kernel, by decide +kernel,
     by decide +kernel, by decide +kernel, by decide +kernel⟩⟩

theorem test_alarm_and_trace_commands_run :
   (∃ (d : Desc) (_buf : DWord) (len : Word) (s : State),
      Admitted d .o noObjs s = true ∧ (s.stk.alarms.flatMap fun e => alarmBytes s e.1 e.2).length ≤ len.toNat) ∧
   (∃ (d : Desc) (code : BitVec 16) (i : Nat) (s : State),
      Admitted d .o noObjs s = true ∧ alarmIndex code.toNat = some i ∧
      ((tfind s.stk.alarms i).isNone = true ∨ alarmActive s i = false)) ∧
   (∃ (d : Desc) (handle : Word) (x : Stream) (s : State),
      Admitted d .o noObjs s = true ∧ findStream s (ring s d.ring.val).tenant handle.toNat = some x ∧ x.failed = false ∧
      x.complete = true ∧ traceCfgGood x.bytes = true) ∧
   (∃ (d : Desc) (limit : Word) (s : State), Admitted d .o noObjs s = true ∧ 1 ≤ limit.toNat ∧ limit.toNat ≤ 4000) :=
  ⟨⟨desc, 0, 0, ready, by decide +kernel, by decide +kernel⟩,
   ⟨desc, 0x0401, 0, ready, by decide +kernel, by decide +kernel, by decide +kernel⟩,
   ⟨desc, 5, stream (List.replicate 32 0), (withStream (List.replicate 32 0) ready), by decide +kernel, by decide +kernel,
     by decide +kernel, by decide +kernel, by decide +kernel⟩,
   ⟨desc, 1, ready, by decide +kernel, by decide +kernel, by decide +kernel⟩⟩

theorem test_host_link_writes :
   (∃ (n : Fin 8192) (off : BitVec 12) (v : Word) (s : State),
      clocked s = true ∧ (ring s n.val).state = .active ∧ off = 0#12 ∧ bits 29 17 v.toNat = 0 ∧ bits 31 31 v.toNat = 0 ∧
      doorbellValid (ring s n.val) (bits 16 0 v.toNat) = true) ∧
   (∃ (n : Fin 8192) (off : BitVec 12) (_v : Word) (_be : BitVec 4) (s : State),
      clocked s = true ∧ (ring s n.val).state ≠ .active ∧ off = 0#12) ∧
   (∃ (_n : Fin 8192) (off : BitVec 12) (_v : Word) (_be : BitVec 4) (_s : State), off ≠ 0#12) ∧
   (∃ (_n : Fin 8192) (_off : BitVec 12) (_v : Word) (_be : BitVec 4) (s : State), clocked s = true) ∧
   (∃ (ini : Initiator) (v : Word) (s : State), Writable ini Reg.HIF_CTRL s = true ∧ inRange Reg.HIF_CTRL v = true) :=
  ⟨⟨0, 0#12, 2, ready, by decide +kernel, by decide +kernel, by decide +kernel, by decide +kernel, by decide +kernel,
     by decide +kernel⟩,
   ⟨9, 0#12, 0, 0xF#4, ready, by decide +kernel, by decide +kernel, by decide +kernel⟩,
   ⟨0, 4#12, 0, 0xF#4, ready, by decide +kernel⟩,
   ⟨0, 0#12, 0, 0xF#4, ready, by decide +kernel⟩,
   ⟨.host, 1, ready, by decide +kernel, by decide +kernel⟩⟩

theorem test_host_link_fetches :
   (∃ (n : Fin 8192) (s : State), descrDue s n.val = true) ∧
   (∃ (f : Fetch) (s : State),
      nextFetchOf s = some f ∧ mayFetch s = true ∧ outReads s false < 736 ∧ freeTag s < 768 ∧
      (∀ e ∈ s.hif.rings, descrDue s e.1 = false)) ∧
   (∃ (tag : Fin 1024) (n : Nat) (start : Nat) (k : Nat) (x : HostRead) (bs : List Byte) (s : State),
      tfind s.hif.reads tag.val = some x ∧ x.kind = .descr n start k ∧ x.dropped = false ∧ bs.length = x.len ∧
      (ring s n).state = .active ∧ (ring s n).typ ≠ .data) ∧
   (∃ (tag : Fin 1024) (n : Nat) (entry : Nat) (ten : Nat) (h : Nat) (off : Nat) (x : HostRead) (y : Stream) (bs : List Byte)
      (s : State),
      tfind s.hif.reads tag.val = some x ∧ x.kind = .data n entry ten h off ∧ x.dropped = false ∧ bs.length = x.len ∧
      findStream s ten h = some y) ∧
   (∃ (tag : Fin 1024) (x : HostRead) (r : ReadResult) (s : State),
      tfind s.hif.reads tag.val = some x ∧ x.dropped = false ∧ (∀ bs, r ≠ .data bs)) ∧
   (∃ (tag : Fin 1024) (_r : ReadResult) (s : State), tfind s.hif.reads tag.val = none) ∧
   (∃ (tag : Fin 1024) (x : HostRead) (s : State),
      tfind s.hif.reads tag.val = some x ∧ s.hif.cfg.toDisable = false ∧ x.reissued = false ∧ canIssue s = true) ∧
   (∃ (tag : Fin 1024) (x : HostRead) (s : State),
      tfind s.hif.reads tag.val = some x ∧ s.hif.cfg.toDisable = false ∧ x.reissued = true) ∧
   (∃ (tag : Fin 1024) (x : HostRead) (s : State), tfind s.hif.reads tag.val = some x ∧ s.hif.cfg.toDisable = true) :=
  ⟨⟨0, ready, by decide +kernel⟩,
   ⟨⟨0, 2, 0, 0, 5, 0x1000, 0, 64, 0, false⟩,
     { ready with hif := { (ready).hif with fetches := [⟨0, 2, 0, 0, 5, 0x1000, 0, 64, 0, false⟩], rings := [(0, { cmdRing with nextRead := 1 }), (1, cplRing)] } },
     by decide +kernel, by decide +kernel, by decide +kernel, by decide +kernel, by decide +kernel⟩,
   ⟨0, 0, 0, 1, ⟨.descr 0 0 1, 0x1000, 64, false, false⟩, List.replicate 64 0,
     { ready with hif := { (ready).hif with reads := [(0, ⟨.descr 0 0 1, 0x1000, 64, false, false⟩)] } }, by decide +kernel,
     by decide +kernel, by decide +kernel, by decide +kernel, by decide +kernel, by decide +kernel⟩,
   ⟨0, 2, 0, 0, 5, 0, ⟨.data 2 0 0 5 0, 0x1000, 4, false, false⟩, stream [1], [0, 0, 0, 0],
     (withStream [1] { ready with hif := { (ready).hif with reads := [(0, ⟨.data 2 0 0 5 0, 0x1000, 4, false, false⟩)] } }),
     by decide +kernel, by decide +kernel, by decide +kernel, by decide +kernel, by decide +kernel⟩,
   ⟨0, ⟨.data 2 0 0 5 0, 0x1000, 4, false, false⟩, .ur,
     { ready with hif := { (ready).hif with reads := [(0, ⟨.data 2 0 0 5 0, 0x1000, 4, false, false⟩)] } }, by decide +kernel,
     by decide +kernel, (fun bs h => by cases h)⟩,
   ⟨0, .ur, ready, by decide +kernel⟩,
   ⟨0, ⟨.data 2 0 0 5 0, 0x1000, 4, false, false⟩,
     { ready with hif := { (ready).hif with reads := [(0, ⟨.data 2 0 0 5 0, 0x1000, 4, false, false⟩)] } }, by decide +kernel,
     by decide +kernel, by decide +kernel, by decide +kernel⟩,
   ⟨0, ⟨.data 2 0 0 5 0, 0x1000, 4, true, false⟩,
     { ready with hif := { (ready).hif with reads := [(0, ⟨.data 2 0 0 5 0, 0x1000, 4, true, false⟩)] } }, by decide +kernel,
     by decide +kernel, by decide +kernel⟩,
   ⟨0, ⟨.data 2 0 0 5 0, 0x1000, 4, false, false⟩,
     { { ready with hif := { (ready).hif with reads := [(0, ⟨.data 2 0 0 5 0, 0x1000, 4, false, false⟩)] } } with hif := { ({ ready with hif := { (ready).hif with reads := [(0, ⟨.data 2 0 0 5 0, 0x1000, 4, false, false⟩)] } }).hif with cfg := { ready.hif.cfg with toDisable := true } } },
     by decide +kernel, by decide +kernel⟩⟩

theorem test_host_link_posts :
   (∃ (n : Fin 8192) (x : HeldCpl) (s : State), (s.fw.held.find? fun y => y.ring = n.val) = some x ∧ mayPostHeld s x = true) ∧
   (∃ (n : Fin 8192) (x : HeldCpl) (s : State), (s.fw.held.find? fun y => y.ring = n.val) = some x ∧ mayPostHeld s x = true) ∧
   (∃ (n : Fin 8192) (s : State), (ring s n.val).wbPending = true ∧ canIssue s = true) ∧
   (∃ (n : Fin 8192) (s : State), (ring s n.val).wbPending = true ∧ canIssue s = true) ∧
   (∃ (n : Fin 8192) (s : State), (ring s n.val).state = .active ∧ (ring s n.val).armed = true ∧
      (ring s n.val).unsignalled = true ∧ (ring s n.val).timing = true ∧ canIssue s = true) ∧
   (∃ (m : BitVec 16) (s : State),
      s.hif.ltrLast = some m ∧ s.hif.cfg.ltrEn = true ∧ canIssue s = true ∧ 32768 ≤ m.toNat ∧ rn s Reg.KLN_LT ≠ 0xFFFFFFFF ∧
      3 * ltrNs m.toNat < 2 * ltrTolerance s) ∧
   (∃ s : State, s.hif.cfg.ptmEn = true ∧ rbit s Reg.HIF_CTRL 1 = true ∧ canIssue s = true) ∧
   (∃ s : State, s.hif.ptmOut = true) ∧
   (∃ (addr : BitVec 24) (len : BitVec 13) (_write : Bool) (_s : State), 64 < addr.toNat % 64 + len.toNat) :=
  ⟨⟨1, { ring := 1, rcd := none, cmdRing := 0, seq := 0, writes := [] },
     { ready with fw := { (ready).fw with held := [{ ring := 1, rcd := none, cmdRing := 0, seq := 0, writes := [] }] } },
     by decide +kernel, by decide +kernel⟩,
   ⟨1, { ring := 1, rcd := none, cmdRing := 0, seq := 0, writes := [] },
     { ready with fw := { (ready).fw with held := [{ ring := 1, rcd := none, cmdRing := 0, seq := 0, writes := [] }] } },
     by decide +kernel, by decide +kernel⟩,
   ⟨0, { ready with hif := { (ready).hif with rings := [(0, { cmdRing with wbPending := true }), (1, cplRing)] } },
     by decide +kernel, by decide +kernel⟩,
   ⟨0, { ready with hif := { (ready).hif with rings := [(0, { cmdRing with wbPending := true }), (1, cplRing)] } },
     by decide +kernel, by decide +kernel⟩,
   ⟨0,
     { ready with hif := { (ready).hif with rings := [(0, { cmdRing with armed := true, unsignalled := true, timing := true }), (1, cplRing)] } },
     by decide +kernel, by decide +kernel, by decide +kernel, by decide +kernel, by decide +kernel⟩,
   ⟨0x8000,
     { withRegs [(Reg.KLN_LT, 1000000)] ready with hif := { (withRegs [(Reg.KLN_LT, 1000000)] ready).hif with ltrLast := some 0x8000, cfg := { ready.hif.cfg with ltrEn := true, maxSnoop := 1000000, maxNoSnoop := 1000000 } } },
     by decide +kernel, by decide +kernel, by decide +kernel, by decide +kernel, by decide +kernel, by decide +kernel⟩,
   ⟨{ withRegs [(Reg.HIF_CTRL, 3)] ready with hif := { (withRegs [(Reg.HIF_CTRL, 3)] ready).hif with cfg := { ready.hif.cfg with ptmEn := true } } },
     by decide +kernel, by decide +kernel, by decide +kernel⟩,
   ⟨{ ready with hif := { (ready).hif with ptmOut := true } }, by decide +kernel⟩,
   ⟨60, 8, true, ready, by decide +kernel⟩⟩

theorem test_register_reads_run :
   (∃ (ini : Initiator) (addr : BitVec 24) (_v : Word) (_w : Word) (_be : BitVec 4) (_be' : BitVec 4)
      (more : List (Word × BitVec 4)) (_s : State),
      accepted ini addr.toNat (more.length + 2) = true) ∧
   (∃ (ini : Initiator) (addr : BitVec 24) (s : State),
      aligned addr.toNat = true ∧ clocked s = true ∧ msixArea addr.toNat = false ∧ pageUp s (addr.toNat / 0x1000) = true ∧
      pageBusy s (addr.toNat / 0x1000) = false ∧ isHigh addr.toNat = true ∧
      ∃ v, tfind s.regs.hold (iniKey ini (keyOf s addr.toNat)) = some v) ∧
   (∃ (ini : Initiator) (addr : BitVec 24) (s : State),
      aligned addr.toNat = true ∧ clocked s = true ∧ msixArea addr.toNat = false ∧ pageUp s (addr.toNat / 0x1000) = true ∧
      pageBusy s (addr.toNat / 0x1000) = false ∧ isHigh addr.toNat = true ∧
      tfind s.regs.hold (iniKey ini (keyOf s addr.toNat)) = none) ∧
   (∃ (_ini : Initiator) (addr : BitVec 24) (c : Fin 4) (s : State),
      addr.toNat = Reg.PIF_C_SNAP c.val ∧ clocked s = true ∧ pageUp s (pgPif c.val) = true ∧ pageBusy s (pgPif c.val) = false) ∧
   (∃ (_ini : Initiator) (addr : BitVec 24) (p : Fin 16) (s : State),
      addr.toNat = Reg.KLN_P_SNAP p.val ∧ clocked s = true ∧ pageUp s (pgKlnP p.val) = true ∧ pageBusy s (pgKlnP p.val) = false) ∧
   (∃ (_ini : Initiator) (s : State), clocked s = true ∧ pageUp s pgTim = true ∧ pageBusy s pgTim = false) ∧
   (∃ (_ini : Initiator) (s : State), clocked s = true ∧ pageUp s pgTim = true ∧ pageBusy s pgTim = false) :=
  ⟨⟨.host, BitVec.ofNat 24 (0x003040), 1, 1, allBytes, allBytes, [], ready, by decide +kernel⟩,
   ⟨.host, BitVec.ofNat 24 (Reg.TIM_X_FT + 4),
     { ready with regs := { ready.regs with hold := [(iniKey .host (keyOf ready (Reg.TIM_X_FT + 4)), 7)] } }, by decide +kernel,
     by decide +kernel, by decide +kernel, by decide +kernel, by decide +kernel, by decide +kernel, 7, by decide +kernel⟩,
   ⟨.host, BitVec.ofNat 24 (Reg.TIM_X_FT + 4), ready, by decide +kernel, by decide +kernel, by decide +kernel,
     by decide +kernel, by decide +kernel, by decide +kernel, by decide +kernel⟩,
   ⟨.host, BitVec.ofNat 24 (Reg.PIF_C_SNAP 0), 0, ready, by decide +kernel, by decide +kernel, by decide +kernel,
     by decide +kernel⟩,
   ⟨.host, BitVec.ofNat 24 (Reg.KLN_P_SNAP 0), 0, ready, by decide +kernel, by decide +kernel, by decide +kernel,
     by decide +kernel⟩,
   ⟨.host, ready, by decide +kernel, by decide +kernel, by decide +kernel⟩,
   ⟨.host, ready, by decide +kernel, by decide +kernel, by decide +kernel⟩⟩

theorem test_unit_register_writes :
   (∃ (ini : Initiator) (v : Word) (s : State),
      Writable ini Reg.TIL_SPLIT_BAR s = true ∧
      let x := bits 11 0 v.toNat
      v.getLsbD 31 = true ∧ x % 32 = 0 ∧ 32 ≤ x ∧ x ≤ 4064 ∧
      ((∃ p ∈ planeNums, (plane s p).live = true) ∨ (getPage s pgTilC).hold = true)) ∧
   (∃ (ini : Initiator) (v : Word) (s : State),
      Writable ini Reg.TIL_SPLIT_BAR s = true ∧
      let x := bits 11 0 v.toNat
      v.getLsbD 31 = true ∧ (¬(x % 32 = 0 ∧ 32 ≤ x ∧ x ≤ 4064))) ∧
   (∃ (ini : Initiator) (v : Word) (s : State), Writable ini Reg.TIL_SPLIT_BAR s = true ∧ v.getLsbD 31 = false) ∧
   (∃ (ini : Initiator) (h : Fin 64) (v : Word) (s : State),
      Writable ini (Reg.HLK_CTRL h.val) s = true ∧ bits 3 0 v.toNat = rf s (Reg.HLK_CTRL h.val) 3 0 ∧ v.getLsbD 5 = true ∧
      (port s h.val).link = .up ∧ headEnabled s h.val = true ∧ portMode s h.val = 1 ∧
      (v.getLsbD 4 = false ∨ (port s h.val).pwren = false)) ∧
   (∃ (ini : Initiator) (h : Fin 64) (v : Word) (s : State),
      Writable ini (Reg.HLK_FAULT h.val) s = true ∧ v.getLsbD 0 = true ∧ v.getLsbD 3 = false ∧ (port s h.val).latched = true ∧
      (port s h.val).fltLow = false ∧ faultCause s h.val = false) ∧
   (∃ (ini : Initiator) (h : Fin 64) (v : Word) (s : State),
      Writable ini (Reg.HLK_FAULT h.val) s = true ∧ v.getLsbD 0 = true ∧ v.getLsbD 3 = false ∧ (port s h.val).latched = true ∧
      ((port s h.val).fltLow = true ∨ faultCause s h.val = true)) ∧
   (∃ (ini : Initiator) (c : Fin 4) (v : Word) (s : State),
      Writable ini (Reg.PIF_C_CTRL c.val) s = true ∧ v.getLsbD 0 = true ∧ v.getLsbD 1 = false) ∧
   (∃ (ini : Initiator) (c : Fin 4) (v : Word) (s : State),
      Writable ini (Reg.PIF_C_CTRL c.val) s = true ∧ v.getLsbD 0 = false ∧ v.getLsbD 1 = true) ∧
   (∃ (ini : Initiator) (c : Fin 4) (_high : Bool) (_v : Word) (s : State),
      Writable ini (Reg.PIF_C_IDX_PERIOD c.val) s = true) :=
  ⟨⟨.host, 0x80000800, { ready with pages := [(pgTilC, { Page.init .tilC with hold := true })] }, by decide +kernel,
     by decide +kernel, by decide +kernel, by decide +kernel, by decide +kernel, by decide +kernel⟩,
   ⟨.host, 0x80000001, ready, by decide +kernel, by decide +kernel, by decide +kernel⟩,
   ⟨.host, 0, ready, by decide +kernel, by decide +kernel⟩,
   ⟨.host, 0, 0x21, press .stopped, by decide +kernel, by decide +kernel, by decide +kernel, by decide +kernel,
     by decide +kernel, by decide +kernel, by decide +kernel⟩,
   ⟨.host, 0, 1, { press .stopped with ports := [(0, { port0 with latched := true })] }, by decide +kernel, by decide +kernel,
     by decide +kernel, by decide +kernel, by decide +kernel, by decide +kernel⟩,
   ⟨.host, 0, 1, { press .stopped with ports := [(0, { port0 with latched := true, fltLow := true })] }, by decide +kernel,
     by decide +kernel, by decide +kernel, by decide +kernel, by decide +kernel⟩,
   ⟨.host, 0, 1, ready, by decide +kernel, by decide +kernel, by decide +kernel⟩,
   ⟨.host, 0, 2, ready, by decide +kernel, by decide +kernel, by decide +kernel⟩,
   ⟨.host, 0, false, 1, ready, by decide +kernel⟩⟩

theorem test_unit_modes_change :
   (∃ (ini : Initiator) (k : Fin 4) (v : Word) (s : State),
      Writable ini (Reg.IPL_C_CTRL k.val) s = true ∧ bits 11 8 v.toNat ≤ 10 ∧ (cam s k.val).capture = none ∧
      bits 1 0 v.toNat = 1) ∧
   (∃ (ini : Initiator) (k : Fin 4) (v : Word) (s : State),
      Writable ini (Reg.IPL_C_CTRL k.val) s = true ∧ bits 11 8 v.toNat ≤ 10 ∧ (cam s k.val).capture = none ∧
      bits 1 0 v.toNat = 2) ∧
   (∃ (k : Fin 4) (c : Capture) (s : State), (cam s k.val).capture = some c ∧ c.left = 0) ∧
   (∃ (ini : Initiator) (v : Word) (s : State), Writable ini Reg.TRM_CTRL s = true ∧ v.toNat % 4 = 0) ∧
   (∃ (ini : Initiator) (v : Word) (s : State), Writable ini Reg.TRM_CTRL s = true ∧ v.toNat % 4 = 1 ∧ s.trm.state = .off) ∧
   (∃ (ini : Initiator) (v : Word) (s : State), Writable ini Reg.TRM_CTRL s = true ∧ v.toNat % 4 = 2 ∧ s.trm.state = .off) ∧
   (∃ (ini : Initiator) (v : Word) (s : State),
      Writable ini Reg.CLK_IOCAL_CTRL s = true ∧ v.getLsbD 0 = true ∧ s.clk.iocal = false) ∧
   (∃ (ini : Initiator) (v : Word) (s : State),
      Writable ini Reg.GLB_RST s = true ∧ bits 31 16 v.toNat = 0xA5A5 ∧ v.getLsbD 0 = true ∧ deepHolds s = false) ∧
   (∃ (ini : Initiator) (n : Fin 4) (v : Word) (s : State),
      Writable ini (Reg.FAN_CFG n.val) s = true ∧ inRange (Reg.FAN_CFG n.val) v = true) :=
  ⟨⟨.host, 0, 1, ready, by decide +kernel, by decide +kernel, by decide +kernel, by decide +kernel⟩,
   ⟨.host, 0, 2, ready, by decide +kernel, by decide +kernel, by decide +kernel, by decide +kernel⟩,
   ⟨0, ⟨1, 1, 0, []⟩, withCam { CamPort.init with capture := some ⟨1, 1, 0, []⟩ } ready, by decide +kernel, by decide +kernel⟩,
   ⟨.host, 0, ready, by decide +kernel, by decide +kernel⟩,
   ⟨.host, 1, ready, by decide +kernel, by decide +kernel, by decide +kernel⟩,
   ⟨.host, 2, ready, by decide +kernel, by decide +kernel, by decide +kernel⟩,
   ⟨.host, 1, ready, by decide +kernel, by decide +kernel, by decide +kernel⟩,
   ⟨.host, 0xA5A50001, ready, by decide +kernel, by decide +kernel, by decide +kernel, by decide +kernel⟩,
   ⟨.host, 0, 0x00050000, ready, by decide +kernel, by decide +kernel⟩⟩

theorem test_codec_engines_run :
   (∃ (ten : Fin 1024) (h : Word) (x : Stream) (rest : List (Nat × Nat)) (s : State),
      s.thr.preparing = none ∧ s.thr.ready = (ten.val, h.toNat) :: rest ∧ findStream s ten.val h.toNat = some x) ∧
   (∃ (a : Nat) (h : Nat) (x : Stream) (s : State),
      s.thr.preparing = some (a, h) ∧ s.thr.segs = none ∧ findStream s a h = some x ∧ ∃ m, x.prep = .busy none ∧
      gristMap x.plain = some m) ∧
   (∃ (a : Nat) (h : Nat) (x : Stream) (s : State),
      s.thr.preparing = some (a, h) ∧ s.thr.segs = none ∧ findStream s a h = some x ∧
      ∃ r, ∃ n, (x.prep = .busy (some (r, n)) ∨ (x.prep = .busy none ∧ gristMap x.plain = none ∧ r = gStruct ∧ n = 0))) ∧
   (∃ (lane : Fin 24) (j : BlockJob) (s : State),
      rbit s Reg.THR_LANE_EN lane.val = true ∧ tfind s.thr.lanes lane.val = none ∧ nextJob (enqueueBlocks s) = some j ∧
      (jobResult (enqueueBlocks s) j).isSome = true ∧ rbit s Reg.THR_CTRL 0 = false) ∧
   (∃ (lane : Fin 24) (l : Lane) (x : Copy) (stride : Nat) (r : BlockResult) (s : State),
      tfind s.thr.lanes lane.val = some l ∧ findCopy s l.job.copy = some x ∧ jobResult s l.job = some (stride, r) ∧
      rbit s Reg.THR_CTRL 0 = false ∧ ∃ out, r.out = .ok out ∧
      (rbit s Reg.THR_CTRL 1 = false ∨ (∀ c, l.job.loc.crc = some c → c = crc32c out))) ∧
   (∃ (lane : Fin 24) (l : Lane) (x : Copy) (stride : Nat) (r : BlockResult) (s : State),
      tfind s.thr.lanes lane.val = some l ∧ findCopy s l.job.copy = some x ∧ jobResult s l.job = some (stride, r) ∧
      rbit s Reg.THR_CTRL 0 = false ∧ ∃ e, r.out = .error e ∧ x.state ≠ .voided) ∧
   (∃ (lane : Fin 2) (j : MillJob) (s : State),
      s.mil.job = some j ∧ rbit s Reg.MIL_CTRL lane.val = true ∧
      let want := max 1 (rf s Reg.MIL_BLOCK 18 0 / j.stride)

      let n := min want (j.input.length / j.stride)
      0 < n ∧ (j.ended = true ∨ want ≤ j.input.length / j.stride)) ∧
   (∃ (_lane : Fin 2) (p : Fin 16) (s : State), s.mil.diag = none ∧ captureAllowed s p.val = false) ∧
   (∃ (_lane : Fin 2) (p : Fin 16) (s : State), s.mil.diag = none ∧ captureAllowed s p.val = true) ∧
   (∃ (j : MillJob) (s : State), s.mil.job = some j ∧ j.ended = true ∧ j.husk = [] ∧ j.input.length < j.stride) :=
  ⟨⟨0, 5, stream [1], [], { withStream [1] ready with thr := { (withStream [1] ready).thr with ready := [(0, 5)] } },
     by decide +kernel, by decide +kernel, by decide +kernel⟩,
   ⟨0, 5, { stream [1] with prep := .busy none, plain := gristOne },
     { ready with jobs := { ready.jobs with streams := [{ stream [1] with prep := .busy none, plain := gristOne }] }, thr := { ready.thr with preparing := some (0, 5) } },
     by decide +kernel, by decide +kernel, by decide +kernel, (gristMap gristOne).get (by decide +kernel), by decide +kernel,
     ((Option.some_get _).symm)⟩,
   ⟨0, 5, { stream [1] with prep := .busy (some (1, 2)) },
     { ready with jobs := { ready.jobs with streams := [{ stream [1] with prep := .busy (some (1, 2)) }] }, thr := { ready.thr with preparing := some (0, 5) } },
     by decide +kernel, by decide +kernel, by decide +kernel, 1, 2, by decide +kernel⟩,
   ⟨0, job0, withRegs [(Reg.THR_CTRL, 0)] (printing gristOne), by decide +kernel, by decide +kernel, by decide +kernel,
     by decide +kernel, by decide +kernel⟩,
   ⟨0, ⟨job0, 0, 0⟩, pageCopy,
     ((jobResult (withRegs [(Reg.THR_CTRL, 0)] (withLane (printing gristOne))) job0).get (by decide +kernel)).1,
     ((jobResult (withRegs [(Reg.THR_CTRL, 0)] (withLane (printing gristOne))) job0).get (by decide +kernel)).2,
     withRegs [(Reg.THR_CTRL, 0)] (withLane (printing gristOne)), by decide +kernel, by decide +kernel,
     ((Option.some_get (x := jobResult (withRegs [(Reg.THR_CTRL, 0)] (withLane (printing gristOne))) job0) (by decide +kernel)).symm),
     by decide +kernel, [9], by decide +kernel, by decide +kernel⟩,
   ⟨0, ⟨job0, 0, 0⟩, pageCopy,
     ((jobResult (withRegs [(Reg.THR_CTRL, 0)] (withLane (printing []))) job0).get (by decide +kernel)).1,
     ((jobResult (withRegs [(Reg.THR_CTRL, 0)] (withLane (printing []))) job0).get (by decide +kernel)).2,
     withRegs [(Reg.THR_CTRL, 0)] (withLane (printing [])), by decide +kernel, by decide +kernel,
     ((Option.some_get (x := jobResult (withRegs [(Reg.THR_CTRL, 0)] (withLane (printing []))) job0) (by decide +kernel)).symm),
     by decide +kernel, 64, by decide +kernel, by decide +kernel⟩,
   ⟨0,
     { port := 0, image := 1, dt := 0x2A, ended := true, places := [], stride := 2, input := [1, 2], husk := [], huskLine := 0, husks := [], lines := 0 },
     { (withRegs [(Reg.MIL_CTRL, 3)] ready) with mil := { ((withRegs [(Reg.MIL_CTRL, 3)] ready)).mil with job := some { port := 0, image := 1, dt := 0x2A, ended := true, places := [], stride := 2, input := [1, 2], husk := [], huskLine := 0, husks := [], lines := 0 } } },
     by decide +kernel, by decide +kernel, by decide +kernel, by decide +kernel⟩,
   ⟨0, 0,
     { ready with kln := { ready.kln with planes := [(0, { Plane.init with copy := some 0 })] }, jobs := { ready.jobs with copies := [{ copy .committed with tenant := 3 }] } },
     by decide +kernel, by decide +kernel⟩,
   ⟨0, 0, ready, by decide +kernel, by decide +kernel⟩,
   ⟨{ port := 0, image := 1, dt := 0x2A, ended := true, places := [], stride := 2, input := [], husk := [], huskLine := 0, husks := [], lines := 0 },
     { ready with mil := { (ready).mil with job := some { port := 0, image := 1, dt := 0x2A, ended := true, places := [], stride := 2, input := [], husk := [], huskLine := 0, husks := [], lines := 0 } } },
     by decide +kernel, by decide +kernel, by decide +kernel, by decide +kernel⟩⟩

theorem test_tiller_engines_run :
   (∃ (e : Fin 128) (r : Fin 4) (p : Nat) (y : Nat) (tab : PlaneTable) (st : Bool) (x : Staged) (s : State),
      planeOfHead s (e.val / 2) = some p ∧ nextRow s p e.val = some r.val ∧ (plane s p).table = some tab ∧
      rowWork s p e.val r.val = some (.screen y st x)) ∧
   (∃ (e : Fin 128) (r : Fin 4) (p : Nat) (tab : PlaneTable) (line : Option Nat) (s : State),
      planeOfHead s (e.val / 2) = some p ∧ nextRow s p e.val = some r.val ∧ (plane s p).table = some tab ∧
      rowWork s p e.val r.val = some (.gap line)) ∧
   (∃ (e : Fin 128) (r : Fin 4) (p : Nat) (x : Fill) (s : State),
      planeOfHead s (e.val / 2) = some p ∧ nextFill s e.val r.val = some x) ∧
   (∃ (e : Fin 128) (r : Fin 4) (x : Reversal) (s : State), ((row s (e.val / 2) r.val).reversals.find? fun x => x.engines.contains e.val) = some x) ∧
   (∃ (i : Fin 262144) (s : State), (entry s i.val).good = false ∧ (∀ q ∈ s.til.pend, q.cmd = none → q.nozzle ≠ i.val) ∧
      ∃ p, planeOfHead s (i.val / 4096) = some p ∧ (plane s p).state ≠ .stopped) ∧
   (∃ (i : Fin 262144) (s : State), (entry s i.val).good = false ∧ (∀ q ∈ s.til.pend, q.cmd = none → q.nozzle ≠ i.val) ∧
      planeOfHead s (i.val / 4096) = none) :=
  ⟨⟨0, 0, 0, 0, table0, false, staged0, screening, by decide +kernel, by decide +kernel, by decide +kernel, by decide +kernel⟩,
   ⟨0, 0, 0, table0, none, withRow { Row.init with started := true } (press .running), by decide +kernel, by decide +kernel,
     by decide +kernel, by decide +kernel⟩,
   ⟨0, 0, 0,
     { f := 0, codes := [], line := none, gap := true, slot := 0, engines := [0], split := 2048, first := [], undo := [] },
     withRow { Row.init with fills := [{ f := 0, codes := [], line := none, gap := true, slot := 0, engines := [0], split := 2048, first := [], undo := [] }] } (press .running),
     by decide +kernel, by decide +kernel⟩,
   ⟨0, 0, ⟨0, [], [0], 2048⟩, withRow { Row.init with reversals := [⟨0, [], [0], 2048⟩] } (press .running), by decide +kernel⟩,
   ⟨0, { press .running with til := { (press .running).til with entries := [(0, { Entry.default 0 with crc := 1 })] } },
     by decide +kernel, (fun q hq => absurd hq (by simp [press, ready, State.reset, withRegs, wn, wr])), 0, by decide +kernel,
     by decide +kernel⟩,
   ⟨0, { ready with til := { (ready).til with entries := [(0, { Entry.default 0 with crc := 1 })] } }, by decide +kernel,
     (fun q hq => absurd hq (by simp [ready, State.reset])), by decide +kernel⟩⟩

theorem test_tiller_monitors_run :
   (∃ (i : Fin 262144) (p : Nat) (s : State),
      planeOfHead s (i.val / 4096) = some p ∧ isFitted s (i.val / 4096) (i.val % 4096) = true ∧ (entry s i.val).good = true ∧
      2 ^ 30 < ((plane s p).runline - (entry s i.val).last).toNat) ∧
   (∃ (i : Fin 262144) (s : State), (planeOfHead s (i.val / 4096) = none ∨ ∃ p, planeOfHead s (i.val / 4096) = some p ∧
      ((plane s p).runline - (entry s i.val).last).toNat ≤ 2 ^ 30)) ∧
   (∃ (e : Fin 128) (s : State), (engine s e.val).throttled = false) ∧
   (∃ (e : Fin 128) (s : State), (engine s e.val).throttled = true) ∧
   (∃ (h : Fin 64) (p : Nat) (v : Nat) (tab : PlaneTable) (s : State),
      rbit s Reg.TIL_CTRL 0 = true ∧ h.val ∈ s.til.autoDue ∧ planeOfHead s h.val = some p ∧ (plane s p).table = some tab ∧
      bestSplit s tab h.val = some v ∧ v ≠ split s h.val) ∧
   (∃ (h : Fin 64) (p : Nat) (v : Nat) (tab : PlaneTable) (s : State),
      rbit s Reg.TIL_CTRL 0 = true ∧ h.val ∈ s.til.autoDue ∧ planeOfHead s h.val = some p ∧ (plane s p).table = some tab ∧
      bestSplit s tab h.val = some v ∧ v = split s h.val ∧ tfind s.regs.shd (Reg.TIL_E_SPLIT (2 * h.val)) = none) :=
  ⟨⟨0, 0,
     { press .running with kln := { (press .running).kln with planes := [(0, { Plane.init with state := .running, table := some table0, runline := 0x50000000 })] } },
     by decide +kernel, by decide +kernel, by decide +kernel, by decide +kernel⟩,
   ⟨0, ready, (.inl (by decide +kernel))⟩,
   ⟨0, ready, by decide +kernel⟩,
   ⟨0, { ready with til := { (ready).til with engines := [(0, ⟨true, [], none⟩)] } }, by decide +kernel⟩,
   ⟨0, 0, 32, tableWide, splitting tableWide, by decide +kernel, by decide +kernel, by decide +kernel, by decide +kernel,
     by decide +kernel, by decide +kernel⟩,
   ⟨0, 0, 2048, table0, splitting table0, by decide +kernel, by decide +kernel, by decide +kernel, by decide +kernel,
     by decide +kernel, by decide +kernel, by decide +kernel⟩⟩

theorem test_head_link_receives :
   (∃ (h : Fin 64) (s : State), rxActive (port s h.val) = true) ∧
   (∃ (h : Fin 64) (_pg : Bool) (_ready : Bool) (_lock : BitVec 2) (_descr : BitVec 2) (_crc : BitVec 16) (_miss : BitVec 16)
      (_v : DWord) (s : State),
      delivers s h.val = true) ∧
   (∃ (h : Fin 64) (_temps : BitVec 128) (_valid : BitVec 8) (s : State), delivers s h.val = true) ∧
   (∃ (h : Fin 64) (_code : BitVec 8) (_r : BitVec 2) (_detail : BitVec 16) (s : State), delivers s h.val = true) ∧
   (∃ (h : Fin 64) (_bank : Bool) (_good : Bool) (s : State), delivers s h.val = true) ∧
   (∃ (h : Fin 64) (_scr : BitVec 23) (s : State), rxActive (port s h.val) = true ∧ (port s h.val).align = 2) ∧
   (∃ (h : Fin 64) (s : State), rxActive (port s h.val) = true ∧ (port s h.val).align = 1) ∧
   (∃ (h : Fin 64) (s : State), rxActive (port s h.val) = true ∧ (port s h.val).align = 2 ∧ (port s h.val).bad + 1 ≠ 4) ∧
   (∃ (h : Fin 64) (s : State), rxActive (port s h.val) = true ∧ (port s h.val).align = 2 ∧ (port s h.val).bad + 1 = 4) ∧
   (∃ (h : Fin 64) (_ofs : BitVec 9) (s : State), rxActive (port s h.val) = true ∧ (port s h.val).align = 0) ∧
   (∃ (h : Fin 64) (s : State), rxActive (port s h.val) = true ∧ (port s h.val).align = 1) :=
  ⟨⟨0, press .stopped, by decide +kernel⟩,
   ⟨0, true, true, 0, 0, 0, 0, 0, { press .stopped with ports := [(0, { port0 with descr := true })] }, by decide +kernel⟩,
   ⟨0, 0, 0, { press .stopped with ports := [(0, { port0 with descr := true })] }, by decide +kernel⟩,
   ⟨0, 0, 0, 0, { press .stopped with ports := [(0, { port0 with descr := true })] }, by decide +kernel⟩,
   ⟨0, true, true, { press .stopped with ports := [(0, { port0 with descr := true })] }, by decide +kernel⟩,
   ⟨0, 0, press .stopped, by decide +kernel, by decide +kernel⟩,
   ⟨0, { press .stopped with ports := [(0, { port0 with align := 1 })] }, by decide +kernel, by decide +kernel⟩,
   ⟨0, press .stopped, by decide +kernel, by decide +kernel, by decide +kernel⟩,
   ⟨0, { press .stopped with ports := [(0, { port0 with bad := 3 })] }, by decide +kernel, by decide +kernel, by decide +kernel⟩,
   ⟨0, 0, { press .stopped with ports := [(0, { port0 with align := 0 })] }, by decide +kernel, by decide +kernel⟩,
   ⟨0, { press .stopped with ports := [(0, { port0 with align := 1 })] }, by decide +kernel, by decide +kernel⟩⟩

theorem test_head_link_timers_run :
   (∃ (h : Fin 64) (s : State), ((port s h.val).link = .training ∨ (port s h.val).link = .retraining)) ∧
   (∃ (h : Fin 64) (s : State), (port s h.val).link = .up) ∧
   (∃ (h : Fin 64) (v : DWord) (s : State), (port s h.val).link = .direct ∧ (port s h.val).pwren = true ∧
      (port s h.val).fltLow = false ∧ (port s h.val).pg = false ∧
      max (port s h.val).powerAt (port s h.val).fltHighSince + rf s (Reg.HLK_PG_DELAY h.val) 15 0 * ms ≤ v.toNat) :=
  ⟨⟨0, { press .stopped with ports := [(0, { port0 with link := .training })] }, by decide +kernel⟩,
   ⟨0, press .stopped, by decide +kernel⟩,
   ⟨0, BitVec.ofNat 64 (1000000 * ms), { press .stopped with ports := [(0, { port0 with link := .direct, pg := false })] },
     by decide +kernel, by decide +kernel, by decide +kernel, by decide +kernel, by decide +kernel⟩⟩

theorem test_position_samples_run :
   (∃ (c : Fin 4) (_a : Bool) (_b : Bool) (_v : DWord) (s : State),
      rbit s (Reg.PIF_C_CFG c.val) 0 = true ∧ (∀ k < 4, ¬(pcSrc s k = 4 ∧ pcSub s k = c.val))) ∧
   (∃ (c : Fin 4) (_sn : BitVec 14) (_cs : BitVec 14) (_v : DWord) (s : State),
      rbit s (Reg.PIF_C_CFG c.val) 0 = false ∧ (∀ k < 4, ¬(pcSrc s k = 4 ∧ pcSub s k = c.val))) ∧
   (∃ (c : Fin 4) (rising : Bool) (_v : DWord) (s : State),
      rbit s (Reg.PIF_C_CFG c.val) 2 = true ∧ pifValid s c.val = true ∧ rbit s (Reg.PIF_C_STAT c.val) 6 = false ∧
      rising ≠ rbit s (Reg.PIF_C_CFG c.val) 4 ∧ rbit s (Reg.PIF_C_CFG c.val) 0 = true ∧ (pif s c.val).ref = none) ∧
   (∃ (c : Fin 4) (rising : Bool) (_v : DWord) (s : State),
      rbit s (Reg.PIF_C_CFG c.val) 2 = true ∧ pifValid s c.val = true ∧ rbit s (Reg.PIF_C_STAT c.val) 6 = false ∧
      rising ≠ rbit s (Reg.PIF_C_CFG c.val) 4 ∧ rbit s (Reg.PIF_C_CFG c.val) 0 = true ∧
      (pif s c.val).ref = some (pif s c.val).pos ∧ idxPeriod s c.val ≠ 0 ∧ rbit s (Reg.PIF_C_CFG c.val) 3 = false) :=
  ⟨⟨0, true, true, 5, withRegs [(Reg.PIF_C_CFG 0, 1)] ready, by decide +kernel, by decide +kernel⟩,
   ⟨0, 0, 0, 5, ready, by decide +kernel, by decide +kernel⟩,
   ⟨0, true, 5,
     { withRegs [(Reg.PIF_C_CFG 0, 5), (Reg.PIF_C_IDX_PERIOD 0, 1000)] ready with pif := [(0, { PifCh.init with enabled := true })] },
     by decide +kernel, by decide +kernel, by decide +kernel, by decide +kernel, by decide +kernel, by decide +kernel⟩,
   ⟨0, true, 5,
     { withRegs [(Reg.PIF_C_CFG 0, 5), (Reg.PIF_C_IDX_PERIOD 0, 1000)] ready with pif := [(0, { PifCh.init with enabled := true, ref := some 0 })] },
     by decide +kernel, by decide +kernel, by decide +kernel, by decide +kernel, by decide +kernel, by decide +kernel,
     by decide +kernel, by decide +kernel⟩⟩

theorem test_cameras_and_winnow_run :
   (∃ (k : Fin 4) (vc : BitVec 2) (vcx : BitVec 2) (dt : BitVec 6) (wc : BitVec 16) (crcOk : Bool) (bs : List Byte)
      (_v : DWord) (s : State),
      camRunning s k.val = true ∧ headerOk s k.val vc.toNat vcx.toNat true = true ∧ dt.toNat = rf s (Reg.IPL_C_CSI k.val) 7 2 ∧
      crcOk = true ∧ wc.toNat = dtBytes dt.toNat (rf s (Reg.IPL_C_WIDTH k.val) 14 0) ∧ bs.length = wc.toNat ∧
      inlineFull s k.val = false) ∧
   (∃ (k : Fin 4) (vc : BitVec 2) (vcx : BitVec 2) (dt : BitVec 6) (wc : BitVec 16) (crcOk : Bool) (bs : List Byte)
      (_v : DWord) (s : State),
      camRunning s k.val = true ∧ headerOk s k.val vc.toNat vcx.toNat true = true ∧ dt.toNat = rf s (Reg.IPL_C_CSI k.val) 7 2 ∧
      (crcOk = false ∨ wc.toNat ≠ dtBytes dt.toNat (rf s (Reg.IPL_C_WIDTH k.val) 14 0) ∨ bs.length ≠ wc.toNat)) ∧
   (∃ (k : Fin 4) (vc : BitVec 2) (vcx : BitVec 2) (_v : DWord) (s : State),
      camRunning s k.val = true ∧ headerOk s k.val vc.toNat vcx.toNat true = true) ∧
   (∃ (k : Fin 4) (vc : BitVec 2) (vcx : BitVec 2) (_v : DWord) (s : State),
      camRunning s k.val = true ∧ headerOk s k.val vc.toNat vcx.toNat true = true) ∧
   (∃ (k : Nat) (l : CamLine) (rest : List CamLine) (u : Nat) (_v : DWord) (s : State),
      oldestPort s true = some k ∧ (cam s k).waiting = l :: rest ∧ l.u = some u) ∧
   (∃ (x : Repro) (rest : List Repro) (i : StoredImage) (_v : DWord) (s : State),
      oldestPort s true = none ∧ oldestPort s false = none ∧ s.ipl.slice = none ∧ s.ipl.repro = x :: rest ∧
      ((s.ipl.images.find? fun i => decide (i.port = x.port ∧ i.num = x.image)) = some i)) ∧
   (∃ (k : Fin 4) (v : DWord) (s : State), (cam s k.val).state = .running ∧ (plane s (camPlane s k.val)).paused = false ∧
      (plane s (camPlane s k.val)).state ≠ .stopped ∧ (cam s k.val).quiet + rf s (Reg.IPL_C_STALL k.val) 15 0 * us ≤ v.toNat) ∧
   (∃ (k : Fin 4) (s : State), ∃ l, ∃ rest, (cam s k.val).items = .line l :: rest ∧ (compareLine k.val l s).isSome = true) ∧
   (∃ (k : Fin 4) (s : State), ∃ n, ∃ w, ∃ rest, (cam s k.val).items = .close n w :: rest) ∧
   (∃ (k : Fin 4) (s : State), ∃ q, ∃ rest, (cam s k.val).items = .finish q :: rest) ∧
   (∃ (c : Nat) (x : Copy) (_v : DWord) (s : State),
      findCopy s c = some x ∧ x.state = .fired ∧ x.firedAt + rf s Reg.WIN_RULE_TMO 15 0 * ms ≤ s.clock.uptime) :=
  ⟨⟨0, 0, 0, 0x2A, 1, true, [7], 5,
     withRegs [(Reg.IPL_C_CSI 0, 0xA8), (Reg.IPL_C_WIDTH 0, 1)] (withCam { CamPort.init with state := .running } ready),
     by decide +kernel, by decide +kernel, by decide +kernel, by decide +kernel, by decide +kernel, by decide +kernel,
     by decide +kernel⟩,
   ⟨0, 0, 0, 0x2A, 1, false, [7], 5,
     withRegs [(Reg.IPL_C_CSI 0, 0xA8), (Reg.IPL_C_WIDTH 0, 1)] (withCam { CamPort.init with state := .running } ready),
     by decide +kernel, by decide +kernel, by decide +kernel, by decide +kernel⟩,
   ⟨0, 0, 0, 5, withRegs [(Reg.IPL_C_CSI 0, 0xA8)] (withCam { CamPort.init with state := .running } ready), by decide +kernel,
     by decide +kernel⟩,
   ⟨0, 0, 0, 5, withRegs [(Reg.IPL_C_CSI 0, 0xA8)] (withCam { CamPort.init with state := .running } ready), by decide +kernel,
     by decide +kernel⟩,
   ⟨0, { t := 0, u := some 5, gap := 0, inl := true, dt := 0x2A, bytes := [] }, [], 5, 5,
     withCam { CamPort.init with state := .running, waiting := [{ t := 0, u := some 5, gap := 0, inl := true, dt := 0x2A, bytes := [] }] } ready,
     by decide +kernel, by decide +kernel, by decide +kernel⟩,
   ⟨⟨0, 0, 1, 0⟩, [], image, 5, { ready with ipl := { (ready).ipl with repro := [⟨0, 0, 1, 0⟩], images := [image] } },
     by decide +kernel, by decide +kernel, by decide +kernel, by decide +kernel, by decide +kernel⟩,
   ⟨0, BitVec.ofNat 64 (1000000 * ms), withCam { CamPort.init with state := .running } (press .running), by decide +kernel,
     by decide +kernel, by decide +kernel, by decide +kernel⟩,
   ⟨0, withCam { CamPort.init with items := [.line ⟨0, 0, 0, 0, 0, [], none⟩] } ready, ⟨0, 0, 0, 0, 0, [], none⟩, [],
     by decide +kernel, by decide +kernel⟩,
   ⟨0, withCam { CamPort.init with items := [.close 0 true] } ready, 0, true, [], by decide +kernel⟩,
   ⟨0, withCam { CamPort.init with items := [.finish 0] } ready, 0, [], by decide +kernel⟩,
   ⟨0, copy .fired, 5,
     { withRegs [(Reg.WIN_RULE_TMO, 0)] ready with jobs := { ready.jobs with copies := [copy .fired] }, clock := { ready.clock with uptime := 1000000 * ms } },
     by decide +kernel, by decide +kernel, by decide +kernel⟩⟩

theorem test_tramline_runs :
   (∃ s : State, s.trm.state = .leader) ∧
   (∃ (v : DWord) (s : State),
      s.trm.state = .claiming ∧ s.trm.lineLow = false ∧ (busOn s false || busOn s true) = true ∧
      s.trm.claimAt + 32 * us ≤ v.toNat) ∧
   (∃ (a : List Byte) (_b : List Byte) (body : List Byte) (_ra : DWord) (_rb : DWord) (s : State),
      busOn s false = true ∧ goodBeacon a = some body ∧ s.trm.state = .leader ∧ (body.getD 0 0).toNat % 16 ≠ chipNumber s) ∧
   (∃ (a : List Byte) (_b : List Byte) (body : List Byte) (_ra : DWord) (_rb : DWord) (s : State),
      busOn s false = true ∧ goodBeacon a = some body ∧
      (s.trm.state = .listen ∨ s.trm.state = .muted ∨ s.trm.state = .active) ∧ s.trm.bus = false ∧ busOn s true = false) ∧
   (∃ (p : Nat) (v : DWord) (s : State), (s.trm.state = .listen ∨ s.trm.state = .muted ∨ s.trm.state = .active) ∧
      s.trm.bus = false ∧ s.trm.predA = some p ∧ p + 1639 ≤ v.toNat) ∧
   (∃ (x : Nat) (y : Nat) (s : State),
      s.trm.state = .active ∧ s.trm.sent = false ∧ burstStart s false = some x ∧ burstStart s true = some y) ∧
   (∃ (i : Fin 16) (a : List Byte) (_b : List Byte) (_ra : DWord) (_rb : DWord) (s : State),
      i.val ≠ 0 ∧ (s.trm.state = .listen ∨ s.trm.state = .muted ∨ s.trm.state = .active) ∧ ∃ p, s.trm.bus = false ∧
      busOn s false = true ∧ goodFollower s.trm.chip i.val (rn s Reg.TRM_FRAME) a = some p) ∧
   (∃ (i : Fin 16) (a : List Byte) (b : List Byte) (_ra : DWord) (_rb : DWord) (s : State),
      i.val ≠ 0 ∧ (s.trm.state = .listen ∨ s.trm.state = .muted ∨ s.trm.state = .active) ∧
      (busOn s false = false ∨ goodFollower s.trm.chip i.val (rn s Reg.TRM_FRAME) a = none) ∧
      (busOn s true = false ∨ goodFollower s.trm.chip i.val (rn s Reg.TRM_FRAME) b = none)) :=
  ⟨⟨withTram .leader ready, by decide +kernel⟩,
   ⟨BitVec.ofNat 64 (1000 * ms), withTram .claiming ready, by decide +kernel, by decide +kernel, by decide +kernel,
     by decide +kernel⟩,
   ⟨beacon, [], (goodBeacon beacon).get (by decide +kernel), 0, 0, withRegs [(Reg.GLB_STRAP, 1)] (withTram .leader ready),
     by decide +kernel, by decide +kernel, by decide +kernel, by decide +kernel⟩,
   ⟨beacon, [], (goodBeacon beacon).get (by decide +kernel), 0, 0, withRegs [(Reg.TRM_CTRL, 4)] (withTram .listen ready),
     by decide +kernel, by decide +kernel, by decide +kernel, by decide +kernel, by decide +kernel⟩,
   ⟨0, BitVec.ofNat 64 (1000 * ms),
     { withTram .active ready with trm := { (withTram .active ready).trm with predA := some 0 } }, by decide +kernel,
     by decide +kernel, by decide +kernel, by decide +kernel⟩,
   ⟨46056, 46056,
     { withTram .active ready with trm := { (withTram .active ready).trm with arriveA := some 1000, arriveB := some 1000 } },
     by decide +kernel, by decide +kernel, by decide +kernel, by decide +kernel⟩,
   ⟨1, follower, [], 0, 0, withTram .listen ready, by decide +kernel, by decide +kernel,
     (goodFollower 0 1 0 follower).get (by decide +kernel), by decide +kernel, by decide +kernel, by decide +kernel⟩,
   ⟨1, [], [], 0, 0, withTram .listen ready, by decide +kernel, by decide +kernel, by decide +kernel, by decide +kernel⟩⟩

theorem test_tally_runs :
   (∃ s : State, rbit s Reg.TLY_CTRL 0 = true) ∧
   (∃ s : State, s.tly.writeBack = true) ∧
   (∃ (_v : DWord) (s : State),
      rbit s Reg.TLY_CTRL 0 = true ∧ s.tly.late = false ∧ rf s Reg.TLY_CKPT 15 0 + 250 ≤ (s.clock.uptime - s.tly.prev) / ms) ∧
   (∃ (i : Fin 16) (e : IdExchange) (r : List IdExchange) (s : State), (tlySlot s i.val).exchanges = e :: r ∧ 0 < e.busy) ∧
   (∃ (i : Fin 16) (e : IdExchange) (r : List IdExchange) (s : State), (tlySlot s i.val).exchanges = e :: r) ∧
   (∃ (i : Fin 16) (e : IdExchange) (r : List IdExchange) (s : State), (tlySlot s i.val).exchanges = e :: r ∧
      ∃ bytes : List Byte, bytes ≠ [] ∧ bytes.length ≠ leAt bytes 1 2 + 5 ∧ e.repeated = false) ∧
   (∃ (i : Fin 16) (e : IdExchange) (r : List IdExchange) (s : State), (tlySlot s i.val).exchanges = e :: r ∧
      ∃ p : List Byte, p.length ≤ 1024 ∧ e.busy < 50) :=
  ⟨⟨withRegs [(Reg.TLY_CTRL, 1)] ready, by decide +kernel⟩,
   ⟨{ ready with tly := { (ready).tly with writeBack := true } }, by decide +kernel⟩,
   ⟨5,
     { withRegs [(Reg.TLY_CTRL, 1)] ready with clock := { (withRegs [(Reg.TLY_CTRL, 1)] ready).clock with uptime := 1000000 * ms } },
     by decide +kernel, by decide +kernel, by decide +kernel⟩,
   ⟨0, ⟨3, 0, 1, false⟩, [], withExchange ⟨3, 0, 1, false⟩ ready, by decide +kernel, by decide +kernel⟩,
   ⟨0, ⟨3, 0, 1, false⟩, [], withExchange ⟨3, 0, 1, false⟩ ready, by decide +kernel⟩,
   ⟨0, ⟨3, 0, 0, false⟩, [], withExchange ⟨3, 0, 0, false⟩ ready, by decide +kernel, [0], by decide +kernel, by decide +kernel,
     by decide +kernel⟩,
   ⟨0, ⟨3, 0, 0, false⟩, [], withExchange ⟨3, 0, 0, false⟩ ready, by decide +kernel, [], by decide +kernel, by decide +kernel⟩⟩

theorem test_crock_runs :
   (∃ (_good : Bool) (j : CrkJob) (rest : List CrkJob) (s : State),
      crkAccepts s = true ∧ s.crk.queue = j :: rest ∧ crkAppend s s.crk.active + j.body.slot ≤ regionBytes s) ∧
   (∃ s : State, s.crk.compacting = true) ∧
   (∃ s : State, s.crk.compacting = true) ∧
   (∃ s : State, crkAccepts s = true ∧ s.crk.snapNow = none ∧ s.pwr.state ≠ .deep) ∧
   (∃ (x : Snap) (s : State), s.crk.snapNow = some x ∧ crkAccepts s = true ∧ snapQueued s = false) ∧
   (∃ s : State, crkAccepts s = true) ∧
   (∃ (_completed : Bool) (busy : Bool) (s : State), s.crk.grace = some busy) :=
  ⟨⟨true, ⟨.tallyClose 0 [] 0, 0, none, none⟩, [],
     { mounted with crk := { (mounted).crk with queue := [⟨.tallyClose 0 [] 0, 0, none, none⟩] } }, by decide +kernel,
     by decide +kernel, by decide +kernel⟩,
   ⟨{ mounted with crk := { (mounted).crk with compacting := true } }, by decide +kernel⟩,
   ⟨{ mounted with crk := { (mounted).crk with compacting := true } }, by decide +kernel⟩,
   ⟨mounted, by decide +kernel, by decide +kernel, by decide +kernel⟩,
   ⟨shot, { mounted with crk := { (mounted).crk with snapNow := some shot } }, by decide +kernel, by decide +kernel,
     by decide +kernel⟩,
   ⟨mounted, by decide +kernel⟩,
   ⟨true, false, { mounted with crk := { (mounted).crk with grace := some false } }, by decide +kernel⟩⟩

theorem test_stook_writers :
   (∃ (e : Event) (rest : List Event) (s : State), s.stk.staging = e :: rest) ∧
   (∃ (x : TracePkt) (rest : List TracePkt) (s : State), s.stk.trace = x :: rest) ∧
   (∃ (u : DWord) (w : Nat) (s : State), s.stk.waitSince = some w ∧ s.stk.throttled = false ∧ w + ms ≤ u.toNat) ∧
   (∃ (core : Fin 4) (s : State), (coreTrace s core.val).asleep = false) ∧
   (∃ (core : Fin 4) (_ctx : Word) (_pc : DWord) (s : State), (coreTrace s core.val).asleep = true) :=
  ⟨⟨event0, [], { ready with stk := { (ready).stk with staging := [event0] } }, by decide +kernel⟩,
   ⟨packet0, [], { ready with stk := { (ready).stk with trace := [packet0] } }, by decide +kernel⟩,
   ⟨BitVec.ofNat 64 ms, 0, { ready with stk := { (ready).stk with waitSince := some 0 } }, by decide +kernel, by decide +kernel,
     by decide +kernel⟩,
   ⟨0, ready, by decide +kernel⟩,
   ⟨0, 5, 6, { ready with stk := { (ready).stk with cores := [(0, ⟨0, [], [], false, true⟩)] } }, by decide +kernel⟩⟩

theorem test_resets_run :
   (∃ (_strap : BitVec 5) (cool : Bool) (s : State), (s.thm.atrip = true → cool = true) ∧ deepHolds s = false ∧ Governs .pin s) ∧
   (∃ (source : Fin 4) (s : State),
      s.thm.atrip = false ∧ (s.thm.shutdown = false ∨ source = 0) ∧ deepHolds s = false ∧ s.pwr.state ≠ .deep ∧ Governs .host s) ∧
   (∃ (source : Fin 4) (s : State),
      s.thm.atrip = false ∧ (s.thm.shutdown = false ∨ source = 0) ∧ deepHolds s = false ∧ s.pwr.state = .deep ∧ source = 0 ∧
      Governs .deepExit s) ∧
   (∃ (_cause : Fin 4) (s : State), clocked s = true ∧ s.sag.halted = false ∧ Governs .sagFault s) ∧
   (∃ s : State, clocked s = true ∧ s.pwr.boot = none) ∧
   (∃ s : State, clocked s = true ∧ s.pwr.boot = none) ∧
   (∃ s : State, clocked s = true ∧ Governs .host s) ∧
   (∃ s : State, clocked s = true) ∧
   (∃ s : State, clocked s = true ∧ s.pwr.boot = none ∧ s.sag.halted = false) :=
  ⟨⟨0, false, ready, by decide +kernel, by decide +kernel, (fun k hk => by cases hk)⟩,
   ⟨1, ready, by decide +kernel, by decide +kernel, by decide +kernel, by decide +kernel, (fun k hk => by cases hk)⟩,
   ⟨0, { ready with pwr := { (ready).pwr with state := .deep } }, by decide +kernel, by decide +kernel, by decide +kernel,
     by decide +kernel, by decide +kernel, (fun k hk => by cases hk)⟩,
   ⟨0, ready, by decide +kernel, by decide +kernel, (fun k hk => by cases hk)⟩,
   ⟨ready, by decide +kernel, by decide +kernel⟩,
   ⟨ready, by decide +kernel, by decide +kernel⟩,
   ⟨ready, by decide +kernel, (fun k hk => by cases hk)⟩,
   ⟨ready, by decide +kernel⟩,
   ⟨ready, by decide +kernel, by decide +kernel, by decide +kernel⟩⟩

theorem test_clock_events_run :
   (∃ s : State, s.clk.refOk = true) ∧
   (∃ s : State, s.clk.rootLock = true) ∧
   (∃ s : State, s.clk.ddrLock = true) ∧
   (∃ (locked : Bool) (_code : BitVec 10) (s : State), (locked = true → s.clk.rootLock = true ∧ s.pwr.state ≠ .standby) ∧
      (locked = false → s.clk.dllLock = true)) ∧
   (∃ s : State, s.clk.rootLock = true ∧ s.pwr.boot = none) ∧
   (∃ (_errors : List (BitVec 24)) (s : State), s.clk.iocal = true) :=
  ⟨⟨ready, by decide +kernel⟩,
   ⟨{ ready with clk := { (ready).clk with rootLock := true, ddrLock := true, dllLock := true } }, by decide +kernel⟩,
   ⟨{ ready with clk := { (ready).clk with rootLock := true, ddrLock := true, dllLock := true } }, by decide +kernel⟩,
   ⟨true, 5, { ready with clk := { (ready).clk with rootLock := true, ddrLock := true, dllLock := true } }, by decide +kernel,
     by decide +kernel⟩,
   ⟨{ ready with clk := { (ready).clk with rootLock := true, ddrLock := true, dllLock := true } }, by decide +kernel,
     by decide +kernel⟩,
   ⟨[], { ready with clk := { (ready).clk with iocal := true } }, by decide +kernel⟩⟩

theorem test_thermal_events_run :
   (∃ (_k : Fin 16) (_r : BitVec 16) (_good : Bool) (_u : DWord) (s : State), s.thm.atrip = false) ∧
   (∃ s : State, s.thm.atrip = false) ∧
   (∃ (u : DWord) (c : Nat) (s : State),
      s.thm.shutdown = true ∧ s.pwr.boot.isSome = true ∧ s.thm.coolSince = some c ∧
      c + 1000 * ms ≤ s.clock.uptime + (u.toNat - now s)) ∧
   (∃ (i : Fin 4) (_u : DWord) (s : State),
      let x := fan s i.val
      x.state ≠ 0) ∧
   (∃ (i : Fin 4) (u : DWord) (s : State),

      let at' := s.clock.uptime + (u.toNat - now s)

      let x := fan s i.val
      x.state = 1 ∧ x.since + x.spin ≤ at') ∧
   (∃ (i : Fin 4) (u : DWord) (s : State),

      let at' := s.clock.uptime + (u.toNat - now s)

      let x := fan s i.val
      x.state = 2 ∧ x.since + 5000 * ms ≤ at') ∧
   (∃ (i : Fin 4) (u : DWord) (s : State),

      let at' := s.clock.uptime + (u.toNat - now s)

      let x := fan s i.val
      x.state = 3 ∧ max x.since (x.lastEdge.getD 0) + x.tmo ≤ at') ∧
   (∃ (i : Fin 4) (_u : DWord) (s : State), fanMode s i.val = 2) ∧
   (∃ (i : Fin 4) (u : DWord) (s : State),

      let at' := s.clock.uptime + (u.toNat - now s)

      let x := fan s i.val
      ∃ low : Nat, x.state = 3 ∧ x.speed < rf s (Reg.FAN_RPM_MIN i.val) 15 0 ∧ x.lowSince = some low ∧ x.slow = false ∧
      low + x.tmo ≤ at') :=
  ⟨⟨0, 0, true, 0, ready, by decide +kernel⟩,
   ⟨ready, by decide +kernel⟩,
   ⟨BitVec.ofNat 64 0, 0,
     { State.reset with thm := { State.reset.thm with shutdown := true, coolSince := some 0 }, clock := { State.reset.clock with uptime := 1000 * ms } },
     by decide +kernel, by decide +kernel, by decide +kernel, by decide +kernel⟩,
   ⟨0, 5, withFan 1, by decide +kernel⟩,
   ⟨0, BitVec.ofNat 64 (10000 * ms), withFan 1, by decide +kernel, by decide +kernel⟩,
   ⟨0, BitVec.ofNat 64 (10000 * ms), withFan 2, by decide +kernel, by decide +kernel⟩,
   ⟨0, BitVec.ofNat 64 (10000 * ms), withFan 3, by decide +kernel, by decide +kernel⟩,
   ⟨0, 5, withRegs [(Reg.FAN_CFG 0, 2)] ready, by decide +kernel⟩,
   ⟨0, BitVec.ofNat 64 (10000 * ms),
     withRegs [(Reg.FAN_RPM_MIN 0, 500)] { ready with fans := [(0, { Fan.init with state := 3, lowSince := some 0 })] }, 0,
     by decide +kernel, by decide +kernel, by decide +kernel, by decide +kernel, by decide +kernel⟩⟩

theorem test_reserved_offsets_read_zero :
   (∃ (_ini : Initiator) (addr : BitVec 24) (s : State),
      aligned addr.toNat = true ∧ clocked s = true ∧ pageUp s (addr.toNat / 0x1000) = true ∧ ((0x02C ≤ addr.toNat % 0x1000 ∧
      addr.toNat % 0x1000 < 0x040) ∨ (0x040 ≤ addr.toNat % 0x1000 ∧ regDef addr.toNat = none))) ∧
   (∃ (_ini : Initiator) (addr : BitVec 24) (s : State),
      aligned addr.toNat = true ∧ clocked s = true ∧ pageUp s (addr.toNat / 0x1000) = true ∧ ((0x02C ≤ addr.toNat % 0x1000 ∧
      addr.toNat % 0x1000 < 0x040) ∨ (0x040 ≤ addr.toNat % 0x1000 ∧ regDef addr.toNat = none)) ∧
      ∃ (_v : Word) (_be : BitVec 4), True) ∧
   (∃ (ini : Initiator) (addr : BitVec 24) (s : State),
      aligned addr.toNat = true ∧ clocked s = true ∧ pageUp s (addr.toNat / 0x1000) = true ∧ ((0x02C ≤ addr.toNat % 0x1000 ∧
      addr.toNat % 0x1000 < 0x040) ∨ (0x040 ≤ addr.toNat % 0x1000 ∧ regDef addr.toNat = none)) ∧
      ∃ _v : Word, Writable ini addr.toNat s = true) :=
  ⟨⟨.host, 0x00302C, ready, by decide +kernel, by decide +kernel, by decide +kernel, by decide +kernel⟩,
   ⟨.host, 0x00302C, ready, by decide +kernel, by decide +kernel, by decide +kernel, by decide +kernel, 1, allBytes, trivial⟩,
   ⟨.host, 0x00302C, ready, by decide +kernel, by decide +kernel, by decide +kernel, by decide +kernel, 1, by decide +kernel⟩⟩

end Sys2Proof.Tests
end

section
/-! SUPPORT. The proofs of the scope statements: the state after reset (O8), what writes of registers leave (O26), and what requests,
cycles and reads of registers come to (O38). -/

namespace Sys2Proof.Machine
open Sys2Proof

/-- Settles O8: every table of the reset state is empty, so an entry reads as its initial value, and the fuses are those of a part as
delivered (R605). -/
theorem resetState : Obligations.ResetState :=
  ⟨by decide, rfl, fun _ => rfl, fun _ => rfl, fun _ => ⟨rfl, rfl⟩, fun _ => rfl, rfl, rfl, rfl, rfl, rfl⟩

/-! ## Writes that reach their register -/

/-- The MSI-X structures lie on no mapped page (R58, R64). -/
theorem msixArea_of_mapped {addr : Nat} (h : (pageOf (addr / 0x1000)).isSome = true) : msixArea addr = false := by
  by_contra hm
  simp only [msixArea, Bool.not_eq_false, decide_eq_true_eq] at hm
  have h1 : 0x14 ≤ addr / 0x1000 := by omega
  have h2 : addr / 0x1000 ≤ 0x1C := by omega
  generalize addr / 0x1000 = n at h h1 h2
  interval_cases n <;> exact absurd h (by decide)

theorem writeCycle_single (ini : Initiator) (addr : BitVec 24) (be : BitVec 4) (v : Word) (s : State) :
    writeCycle ini addr be v [] s = writeAt ini addr be v s := by cases ini <;> rfl

theorem execRegisterWrite_single (ini : Initiator) (addr : BitVec 24) (be : BitVec 4) (v : Word) (s : State) :
    exec (.registerWrite ini addr v be [] []) s = .next (writeAt ini addr be v s) :=
  congrArg Host.Outcome.next (writeCycle_single ini addr be v s)

theorem execRwsRegisterWrite_single (ini : Initiator) (addr : BitVec 24) (be : BitVec 4) (v : Word) (s : State) :
    exec (.rwsRegisterWrite ini addr v be []) s = .next (writeAt ini addr be v s) :=
  congrArg Host.Outcome.next (writeCycle_single ini addr be v s)

/-- A whole-word write that its page admits and every field takes reaches the register. -/
theorem writeAt_writable {ini : Initiator} {addr : BitVec 24} {v : Word} {s : State} (ha : aligned addr.toNat = true)
    (hw : Writable ini addr.toNat s = true) (hr : inRange addr.toNat v = true) :
    writeAt ini addr allBytes v s = regWrite ini addr.toNat v s := by
  have hm : (pageOf (addr.toNat / 0x1000)).isSome = true := by
    simp only [Writable, pageUp, Bool.and_eq_true] at hw
    obtain ⟨⟨⟨-, hmapped, -⟩, -⟩, -⟩ := hw
    exact hmapped
  rw [writeAt, if_pos ha, dwordWrite, msixArea_of_mapped hm, if_neg Bool.false_ne_true, guardWrite_writable hw hr]

section
variable {ini : Initiator} {addr : Nat} {v : Word} {k : PageKind} {i : Nat} {s : State}

/-- A write of a register that is no clear register acts as its block has it. -/
theorem regWrite_block {r : RegDef} (ho : 0x040 ≤ addr % 0x1000) (hv : refusesValue s addr v = false)
    (hk : pageOf (addr / 0x1000) = some (k, i)) (hc : clearMap s k (addr / 0x1000 * 0x1000) (addr % 0x1000) = none)
    (hd : regDef addr = some r) : regWrite ini addr v s = blockWrite ini addr v s := by
  simp [regWrite, Nat.not_lt.mpr ho, hd, hv, hk, hc]

/-- A write of a clear register zeroes counters and restarts counts. -/
theorem regWrite_clear {r : RegDef} {l : List (List Nat)} (ho : 0x040 ≤ addr % 0x1000) (hv : refusesValue s addr v = false)
    (hk : pageOf (addr / 0x1000) = some (k, i)) (hc : clearMap s k (addr / 0x1000 * 0x1000) (addr % 0x1000) = some l)
    (hd : regDef addr = some r) : regWrite ini addr v s = restarts k i (addr % 0x1000) v (clearCounters l v s) := by
  simp [regWrite, Nat.not_lt.mpr ho, hd, hv, hk, hc]

end

/-! ## Plain writes -/

/-- What a plain or mixed write leaves: the register's new value, every other register, and nothing changed beside its page but the
threshold a thermal sample compares with (R44, R550). -/
structure PlainWritten (r : RegDef) (k : PageKind) (addr : Nat) (v : Word) (s t : State) : Prop where
  value : rd t (keyOf s addr) = plainValue r (rd s (keyOf s addr)) v
  others : ∀ a, a ≠ keyOf s addr → rd t a = rd s a
  thm : k ≠ .thm → t.thm = s.thm
  only : Only [.reg (keyKind (keyOf s addr)), .thm] s t

/-- The kinds of page whose own registers only hold values. -/
abbrev holdingKinds : List PageKind := [.thm, .stk, .crk, .sag, .mem, .thr, .mil, .pifC, .motC, .cal]

theorem holdThr_regs (s : State) : (holdThr s).regs = s.regs := by
  unfold holdThr
  split <;> rfl

theorem keyOf_holdThr (s : State) (addr : Nat) : keyOf (holdThr s) addr = keyOf s addr := by
  unfold holdThr
  split <;> rfl

/-- Putting the value in the register is all a plain write does. -/
theorem plainPut_written {r : RegDef} {addr : Nat} (k : PageKind) (v : Word) (s : State) (hd : regDef addr = some r)
    (ha : r.acc = .rw ∨ r.acc = .mixed) : PlainWritten r k addr v s (plainPut addr v s) := by
  rw [plainPut_rw hd ha]
  exact ⟨rd_wr_self _ _ _, fun _ h => rd_wr_ne _ _ h, fun _ => rfl,
    ((wr_keeps _ _ _ (fun _ q => q) (Keeps.refl _ s)).mono (by simp)).only⟩

/-- On the thermal page the value a sample of this cycle compares with is kept first (R550). -/
theorem plainPut_written_holdThr {r : RegDef} {addr : Nat} (v : Word) (s : State) (hd : regDef addr = some r)
    (ha : r.acc = .rw ∨ r.acc = .mixed) : PlainWritten r .thm addr v s (plainPut addr v (holdThr s)) := by
  have h := plainPut_written .thm v (holdThr s) hd ha
  have hrd : ∀ a, rd (holdThr s) a = rd s a := fun a => by simp only [rd, holdThr_regs]
  have hk : Keeps [.reg (keyKind addr), .thm] s (plainPut addr v (holdThr s)) :=
    plainPut_keeps _ _ _ (by simp) (holdThr_keeps s (by simp) (Keeps.refl _ s))
  refine ⟨?_, fun a hne => ?_, fun hne => absurd rfl hne, by simpa using hk.only⟩
  · simpa only [keyOf_holdThr, hrd] using h.value
  · rw [h.others a (by rwa [keyOf_holdThr]), hrd]

theorem applyWrite_plain {r : RegDef} {addr : Nat} (v : Word) (s : State) (hd : regDef addr = some r)
    (ha : r.acc = .rw ∨ r.acc = .mixed) : applyWrite addr v s = plainPut addr v s := by
  rcases ha with ha | ha <;> simp [applyWrite, hd, ha]

/-- A block whose registers only hold values takes a plain write as it is. -/
theorem blockWrite_written {ini : Initiator} {r : RegDef} {addr i : Nat} {k : PageKind} (v : Word) (s : State)
    (hk : pageOf (addr / 0x1000) = some (k, i)) (hm : k ∈ holdingKinds) (hd : regDef addr = some r)
    (ha : r.acc = .rw ∨ r.acc = .mixed) : PlainWritten r k addr v s (blockWrite ini addr v s) := by
  have hp := plainPut_written k v s hd ha
  rcases List.mem_cons.mp hm with rfl | hm
  · simp only [blockWrite, hk, systemWrite, applyWrite_plain v _ hd ha]
    split
    · exact plainPut_written_holdThr v s hd ha
    · exact hp
  · have hb : blockWrite ini addr v s = plainPut addr v s := by
      rw [← applyWrite_plain v s hd ha]
      fin_cases hm <;> simp [blockWrite, hk]
    rwa [hb]

/-- A plain write of such a block lands (R9, R44). -/
theorem regWrite_written {ini : Initiator} {r : RegDef} {addr i : Nat} {k : PageKind} {v : Word} {s : State}
    (hv : refusesValue s addr v = false) (ho : 0x040 ≤ addr % 0x1000) (hk : pageOf (addr / 0x1000) = some (k, i))
    (hm : k ∈ holdingKinds) (hc : clearMap s k (addr / 0x1000 * 0x1000) (addr % 0x1000) = none) (hd : regDef addr = some r)
    (ha : r.acc = .rw ∨ r.acc = .mixed) : PlainWritten r k addr v s (regWrite ini addr v s) := by
  rw [regWrite_block ho hv hk hc hd]
  exact blockWrite_written v s hk hm hd ha

/-- A write-one-to-clear bit written 1 reads 0 (R44). -/
theorem plainValue_w1c_one (r : RegDef) (old v : Word) {b : Nat} (hb : r.w1c.getLsbD b = true) (hv : v.getLsbD b = true) :
    (plainValue r old v).getLsbD b = false := by
  simp [plainValue, hb, hv]

/-- A write-one-to-clear bit written 0 stays. -/
theorem plainValue_w1c_zero (r : RegDef) (old v : Word) {b : Nat} (hm : r.mask.getLsbD b = false) (hv : v.getLsbD b = false) :
    (plainValue r old v).getLsbD b = old.getLsbD b := by
  by_cases hb : b < 32
  · rw [BitVec.getLsbD_eq_getElem hb] at hm hv
    simp [plainValue, hm, hv, hb]
  · simp [BitVec.getLsbD_of_ge _ _ (Nat.le_of_not_lt hb)]

/-! ## Locked writes (R57) -/

/-- A write refused by the lock is counted and recorded, and touches no register. -/
theorem lockedWrite_closed {ini : Initiator} {n addr : Nat} {v : Word} {s : State} (h : lockOpen s = false) :
    lockedWrite ini n addr v s = recordErr n 0x02
      (updPage n (fun p => { p with denyCnt := if p.denyCnt = 0xFFFF#16 then p.denyCnt else p.denyCnt + 1 }) s) := by
  rw [lockedWrite, h, if_neg Bool.false_ne_true]

theorem lockedWrite_open {ini : Initiator} {n addr : Nat} {v : Word} {s : State} (h : lockOpen s = true)
    (hr : inRange addr v = true) : lockedWrite ini n addr v s = regWrite ini addr v s := by
  rw [lockedWrite, if_pos h, if_pos hr]

theorem execRwlRegisterWrite_writable {ini : Initiator} {addr : BitVec 24} {v : Word} {s : State} (ha : aligned addr.toNat = true)
    (hw : Writable ini addr.toNat s = true) :
    exec (.rwlRegisterWrite ini addr v allBytes) s = .next (lockedWrite ini (addr.toNat / 0x1000) addr.toNat v s) := by
  show execRwlRegisterWrite ini addr v allBytes s = _
  rw [execRwlRegisterWrite, if_pos ha, guardAccess_writable hw]

/-! ## Counter clears (R45) -/

/-- One bit's part of a clear: the registers of its list are zeroed where the bit is written 1. -/
def clearBit (v : Word) (t : State) (q : List Nat × Nat) : State :=
  if v.toNat / 2 ^ q.2 % 2 = 1 then q.1.foldl (fun u k => wn k 0 u) t else t

theorem clearCounters_eq (l : List (List Nat)) (v : Word) (s : State) :
    clearCounters l v s = l.zipIdx.foldl (clearBit v) s := rfl

theorem rd_zeroes (ks : List Nat) (a : Nat) (s : State) :
    rd (ks.foldl (fun u k => wn k 0 u) s) a = if a ∈ ks then 0#32 else rd s a := by
  induction ks generalizing s with
  | nil => simp
  | cons k ks ih =>
    rw [List.foldl_cons, ih]
    by_cases hk : a = k
    · subst hk
      simp [wn, rd_wr_self]
    · simp [hk, wn, rd_wr_ne _ _ hk]

theorem rd_clearBit (v : Word) (q : List Nat × Nat) (a : Nat) (s : State) :
    rd (clearBit v s q) a = if v.getLsbD q.2 = true ∧ a ∈ q.1 then 0#32 else rd s a := by
  have hb : (v.toNat / 2 ^ q.2 % 2 = 1) ↔ v.getLsbD q.2 = true := by
    rw [BitVec.getLsbD, Nat.testBit_eq_decide_div_mod_eq, decide_eq_true_eq]
  unfold clearBit
  by_cases h : v.getLsbD q.2 = true
  · simp [hb, h, rd_zeroes]
  · simp [hb, h]

/-- A register that no selected bit clears stays. -/
theorem rd_clears_other (v : Word) (qs : List (List Nat × Nat)) (a : Nat) (s : State)
    (h : ∀ q ∈ qs, v.getLsbD q.2 = true → a ∉ q.1) : rd (qs.foldl (clearBit v) s) a = rd s a := by
  induction qs generalizing s with
  | nil => rfl
  | cons q qs ih =>
    rw [List.foldl_cons, ih _ fun x hx => h x (List.mem_cons_of_mem _ hx), rd_clearBit,
      if_neg fun hq => h q List.mem_cons_self hq.1 hq.2]

/-- A register that reads zero, or that a selected bit clears, reads zero after. -/
theorem rd_clears_zero (v : Word) (qs : List (List Nat × Nat)) (a : Nat) (s : State)
    (h : rd s a = 0#32 ∨ ∃ q ∈ qs, v.getLsbD q.2 = true ∧ a ∈ q.1) : rd (qs.foldl (clearBit v) s) a = 0#32 := by
  induction qs generalizing s with
  | nil => simpa using h
  | cons q qs ih =>
    refine ih _ ?_
    rw [rd_clearBit]
    by_cases hq : v.getLsbD q.2 = true ∧ a ∈ q.1
    · exact Or.inl (if_pos hq)
    · rw [if_neg hq]
      simpa [hq] using h

/-- Each register of a selected bit's list reads 0 after a clear. -/
theorem rn_clearCounters_selected {l : List (List Nat)} {v : Word} {b a : Nat} {ks : List Nat} (s : State) (hl : l[b]? = some ks)
    (hv : v.getLsbD b = true) (ha : a ∈ ks) : rn (clearCounters l v s) a = 0 := by
  rw [rn, clearCounters_eq,
    rd_clears_zero v _ a s (Or.inr ⟨(ks, b), List.mem_zipIdx_iff_getElem?.mpr hl, hv, ha⟩)]
  rfl

/-- Every other register stays. -/
theorem rd_clearCounters_other {l : List (List Nat)} {v : Word} {a : Nat} (s : State)
    (h : ∀ b ks, l[b]? = some ks → v.getLsbD b = true → a ∉ ks) : rd (clearCounters l v s) a = rd s a := by
  rw [clearCounters_eq]
  exact rd_clears_other v _ a s fun q hq => h q.2 q.1 (List.mem_zipIdx_iff_getElem?.mp hq)

/-- The clear registers of Kiln's pace channels are in its table. -/
theorem regRows_klnC_clear : ∀ j < 4, ((regRows .klnC).find? fun r => r.off = 0x134 + j * 0x40).isSome = true := by decide

/-- The clear registers of the fan channels are in its table. -/
theorem regRows_fan_clear : ∀ j < 4, ((regRows .fan).find? fun r => r.off = 0x118 + j * 0x20).isSome = true := by decide

/-- Every clear register stands in its page's register table. -/
theorem regRows_of_clearMap {s : State} {k : PageKind} {b off : Nat} {l : List (List Nat)} (h : clearMap s k b off = some l) :
    ((regRows k).find? fun r => r.off = off).isSome = true := by
  unfold clearMap at h
  split at h
  case h_30 =>
    split at h
    · obtain ⟨j, hj, rfl⟩ : ∃ j < 4, off = 0x134 + j * 0x40 := ⟨(off - 0x134) / 0x40, by omega, by omega⟩
      exact regRows_klnC_clear j hj
    · simp at h
  case h_31 =>
    split at h
    · obtain ⟨j, hj, rfl⟩ : ∃ j < 4, off = 0x118 + j * 0x20 := ⟨(off - 0x118) / 0x20, by omega, by omega⟩
      exact regRows_fan_clear j hj
    · simp at h
  case h_32 => simp at h
  all_goals decide

theorem regDef_of_clearMap {s : State} {k : PageKind} {addr i b : Nat} {l : List (List Nat)}
    (hk : pageOf (addr / 0x1000) = some (k, i)) (h : clearMap s k b (addr % 0x1000) = some l) : ∃ r, regDef addr = some r := by
  simpa only [regDef, hk] using Option.isSome_iff_exists.mp (regRows_of_clearMap h)

/-- What a clear restarts beside counters, but for maxima held in registers, is a count in progress or a maximum taken afresh. -/
theorem restarts_only {k : PageKind} {i off : Nat} {v : Word} {s : State} (hk : k ∉ [PageKind.klnC, .tilE, .pifCh]) :
    Keeps [.stk, .thm] s (restarts k i off v s) := by
  unfold restarts
  dsimp only
  split
  · simp at hk
  · simp at hk
  · simp at hk
  · exact Keeps.ite (fun _ => Keeps.set_stk (by simp) (Keeps.refl _ s)) fun _ => Keeps.refl _ s
  · exact Keeps.ite (fun _ => Keeps.set_thm (by simp) (Keeps.refl _ s)) fun _ => Keeps.refl _ s
  · exact Keeps.refl _ s

theorem rd_restarts {k : PageKind} {i off : Nat} {v : Word} {s : State} (hk : k ∉ [PageKind.klnC, .tilE, .pifCh]) (a : Nat) :
    rd (restarts k i off v s) a = rd s a :=
  (((restarts_only hk).only (.reg (keyKind a)) (by simp)).1 a rfl).1

/-! ## Shadowed writes of a running plane (R22, R49, R50) -/

theorem raiseIrq_regs (n b : Nat) (s : State) : (raiseIrq n b s).regs = s.regs := raiseBits_regs _ _ _

/-- A deferral writes no shadow. -/
theorem deferPage_shd (n : Nat) (s : State) : (deferPage n s).regs.shd = s.regs.shd := by
  unfold deferPage
  split
  · split
    · show (raiseIrq _ _ _).regs.shd = s.regs.shd
      rw [raiseIrq_regs]
      rfl
    · rfl
  · rfl

/-- A deferral counts in its plane's own counter alone. -/
theorem rd_deferPage {n p a : Nat} {s : State} (hp : pagePlane s n = some p) (ha : a ≠ Reg.KLN_P_DEFER_CNT p) :
    rd (deferPage n s) a = rd s a := by
  unfold deferPage
  rw [hp]
  dsimp only
  split
  · rw [inc, wn, rd_wr_ne _ _ ha, rd_raiseIrq, rd_updPage]
  · rfl

theorem pagePlane_klnP {n p : Nat} (h : pageOf n = some (.klnP, p)) (s : State) : pagePlane s n = some p := by
  simp [pagePlane, h]

/-- The page of a plane that runs is not idle (R24). -/
theorem pageIdle_running {n p : Nat} {s : State} (h : pageOf n = some (.klnP, p)) (hr : (plane s p).state ≠ .stopped) :
    pageIdle s n = false := by
  simp [pageIdle, pageSrc, h, latchSrc, pagePlane_klnP h s, hr]

/-- A pending page of a running plane waits for its frame latch. -/
theorem pendPage_running {n p : Nat} {s : State} (h : pageOf n = some (.klnP, p)) (hr : (plane s p).state ≠ .stopped) :
    pendPage n s = updPage n (fun g => { g with pending := true, wrote := true }) (notePage n s) := by
  have hkind : pageKind n = .klnP := by simp [pageKind, h]
  have hk : Keeps [.reg (pageKind n)] s (updPage n (fun g => { g with pending := true, wrote := true }) (notePage n s)) :=
    updPage_keeps _ _ _ (fun _ q => q) (notePage_keeps _ _ (fun _ q => q) (Keeps.refl _ s))
  have hi := pageIdle_running h (s := updPage n (fun g => { g with pending := true, wrote := true }) (notePage n s))
    (by rwa [plane_congr (hk.only .kln (by simp)) p])
  have hsrc : pageSrc n = 1 := by simp [pageSrc, h, latchSrc]
  simp [pendPage, hsrc, idleLatch, hi]

/-- What an RWS write of a running plane's page leaves: the shadow, PENDING, and no active value but the deferral counter. -/
structure ShadowWritten (k : Nat) (v : Word) (p : Nat) (s t : State) : Prop where
  shadow : rdShadow t k = v
  pending : (getPage t (keyAddr k / 0x1000)).pending = true
  active : ∀ a, a ≠ Reg.KLN_P_DEFER_CNT p → rd t a = rd s a
  only : Only [.reg .klnP, .msix, .out] s t

theorem rwsWrite_running {k p : Nat} {s : State} (v : Word) (h : pageOf (keyAddr k / 0x1000) = some (.klnP, p))
    (hr : (plane s p).state ≠ .stopped) : ShadowWritten k v p s (rwsWrite k v false s) := by
  have hkey : keyKind k = .klnP := by simp [keyKind, pageKind, h]
  set n := keyAddr k / 0x1000
  have hpage : pageKind n = .klnP := hkey
  let s1 := wrShadow k v (notePage n s)
  have hk : Keeps [.reg .klnP, .msix, .out] s (deferPage n s1) :=
    deferPage_keeps _ _ (by simp [hpage]) (wrShadow_keeps _ _ _ (by simp [hkey])
      (notePage_keeps _ _ (by simp [hpage]) (Keeps.refl _ s)))
  have e : rwsWrite k v false s =
      updPage n (fun g => { g with pending := true, wrote := true }) (notePage n (deferPage n s1)) :=
    pendPage_running (s := deferPage n s1) h (by rwa [plane_congr (hk.only .kln (by simp)) p])
  have hshd : (rwsWrite k v false s).regs.shd = s1.regs.shd := by
    rw [e]
    exact (congrArg Regs.shd (notePage_regs _ _)).trans (deferPage_shd _ _)
  refine ⟨?_, ?_, fun a ha => ?_, ?_⟩
  · simp [rdShadow, hshd, s1, wrShadow]
  · rw [e, getPage_updPage_self]
  · have hnote : ∀ u : State, rd (notePage n u) a = rd u a := fun u => by simp only [rd, notePage_regs]
    rw [e, rd_updPage, hnote, rd_deferPage (pagePlane_klnP h _) ha]
    exact hnote s
  · rw [e]
    exact (updPage_keeps _ _ _ (by simp [hpage]) (notePage_keeps _ _ (by simp [hpage]) hk)).only

/-- A register of a plane's page that does not act when written takes a shadowed write into its shadow. -/
theorem blockWrite_rws {ini : Initiator} {r : RegDef} {addr p : Nat} (v : Word) (s : State)
    (hk : pageOf (addr / 0x1000) = some (.klnP, p)) (h1 : addr % 0x1000 ≠ 0x068) (h2 : addr % 0x1000 ≠ 0x100)
    (h3 : addr % 0x1000 ≠ 0x124) (hd : regDef addr = some r) (ha : r.acc = .rws) :
    blockWrite ini addr v s =
      rwsWrite (keyOf s addr) ((v &&& r.mask) ||| (rdShadow s (keyOf s addr) &&& ~~~r.mask)) false s := by
  simp [blockWrite, hk, pressWrite, h1, h2, h3, applyWrite, hd, ha]

/-- The address behind the key an address reaches is that address. -/
theorem keyAddr_keyOf {addr : Nat} (h : addr < 0x1000000) (s : State) : keyAddr (keyOf s addr) = addr := by
  rw [keyAddr, keyOf, wkey, Nat.add_mul_mod_self_right, Nat.mod_eq_of_lt h]

/-- A refused RWL write leaves the registers; its page counts and records it (R40, R57). -/
structure LockRefused (n : Nat) (s t : State) : Prop where
  regs : ∀ a, rd t a = rd s a
  code : (getPage t n).errCode = BitVec.ofNat 16 (blockId (pageKind n) * 256 + 0x02)
  count : (getPage t n).denyCnt =
    if (getPage s n).denyCnt = 0xFFFF#16 then 0xFFFF#16 else (getPage s n).denyCnt + 1
  only : Only [.reg (pageKind n), .msix, .out] s t

theorem lockedWrite_refused {ini : Initiator} {n addr : Nat} {v : Word} {s : State} (h : lockOpen s = false) :
    LockRefused n s (lockedWrite ini n addr v s) := by
  rw [lockedWrite_closed h]
  refine ⟨fun a => by simp, by rw [recordErr_page], ?_,
    (recordErr_keeps _ _ _ (fun _ q => q) (updPage_keeps _ _ _ (by simp) (Keeps.refl _ s))).only⟩
  rw [recordErr_page, getPage_updPage_self]
  dsimp only
  split
  · assumption
  · rfl

theorem Only.mono {a b : List Part} {s t : State} (h : Only a s t) (hab : ∀ p ∈ a, p ∈ b) : Only b s t :=
  fun p hp => h p fun hq => hp (hab p hq)

/-- Settles O26: each write gets through to `regWrite`, and the register's access type says what it then does. -/
theorem registerWritesLand : Obligations.RegisterWritesLand := by
  refine ⟨?plain, ?mixed, ?shadowed, ?clear, ?locked⟩
  case plain =>
    intro ini addr v r k i s hal hw hr hv ho hk hm hc hd ha
    have h := regWrite_written (ini := ini) hv ho hk hm hc hd (Or.inl ha)
    exact ⟨_, execRegisterWrite_single _ _ _ _ _, writeAt_writable hal hw hr ▸ ⟨⟨h.value, h.others, h.thm⟩, h.only⟩⟩
  case mixed =>
    intro ini addr v r k i s hal hw hr hv ho hk hm hc hd ha
    have h := regWrite_written (ini := ini) hv ho hk hm hc hd (Or.inr ha)
    refine ⟨_, rfl, writeAt_writable hal hw hr ▸ ⟨⟨fun b hb hvb => ?_, fun b hmb _ hvb => ?_, h.others, h.thm⟩, h.only⟩⟩
    · rw [h.value, plainValue_w1c_one r _ v hb hvb]
    · rw [h.value, plainValue_w1c_zero r _ v hmb hvb]
  case shadowed =>
    intro ini addr v r p s hal hw hr hv ho hk h1 h2 h3 hc hd ha hrun
    have hkey := keyAddr_keyOf addr.isLt s
    have h := rwsWrite_running (k := keyOf s addr.toNat)
      ((v &&& r.mask) ||| (rdShadow s (keyOf s addr.toNat) &&& ~~~r.mask)) (by rwa [hkey]) hrun
    rw [← blockWrite_rws (ini := ini) v s hk h1 h2 h3 hd ha, ← regWrite_block ho hv hk hc hd, ← writeAt_writable hal hw hr] at h
    exact ⟨_, execRwsRegisterWrite_single _ _ _ _ _, ⟨h.shadow, hkey ▸ h.pending, h.active⟩, h.only⟩
  case clear =>
    intro ini addr v k i l s hal hw hr hv ho hk hc hm
    obtain ⟨r, hd⟩ := regDef_of_clearMap hk hc
    have e := (writeAt_writable hal hw hr).trans (regWrite_clear ho hv hk hc hd)
    refine ⟨_, rfl, e ▸ ⟨⟨fun b ks a hl hvb hin => ?_, fun a hother => ?_⟩, ?_⟩⟩
    · rw [rn_congr (rd_restarts hm a), rn_clearCounters_selected s hl hvb hin]
    · rw [rd_restarts hm a, rd_clearCounters_other s hother]
    · exact ((clearCounters_keeps l v s (fun _ hp => List.mem_append_left _ hp) (Keeps.refl _ s)).trans ((restarts_only hm).mono (by simp))).only
  case locked =>
    intro ini addr v r k i s hal hw hr hv ho hk hm hc hd ha
    refine ⟨_, execRwlRegisterWrite_writable hal hw, ?_⟩
    cases hl : lockOpen s with
    | true =>
      have h := regWrite_written (ini := ini) hv ho hk hm hc hd (Or.inl ha)
      rw [lockedWrite_open hl hr]
      exact ⟨⟨fun _ => h.value, by simp⟩, h.only.mono (by simp)⟩
    | false =>
      have h := lockedWrite_refused (ini := ini) (n := addr.toNat / 0x1000) (addr := addr.toNat) (v := v) hl
      exact ⟨⟨by simp, fun _ => ⟨h.regs, h.code, h.count⟩⟩, h.only.mono (by simp)⟩

/-- An accepted request of two dwords or more ends below the top of BAR0. -/
theorem accepted_no_wrap {ini : Initiator} {addr : BitVec 24} {n : Nat} (h : accepted ini addr.toNat (n + 2) = true) :
    (addr + 4#24).toNat = addr.toNat + 4 := by
  have hlt := addr.isLt
  have h8 : addr.toNat % 8 ≤ 3 ∨ addr.toNat % 64 ≤ 59 := by
    cases ini <;> simp only [accepted, Bool.and_eq_true, decide_eq_true_eq] at h <;> omega
  rw [BitVec.toNat_add, BitVec.toNat_ofNat]
  omega

/-- What remains of an accepted request after its first dword is accepted at the next address. -/
theorem accepted_rest {ini : Initiator} {addr n : Nat} (h : accepted ini addr (n + 2) = true) :
    accepted ini (addr + 4) (n + 1) = true := by
  cases ini <;> simp only [accepted, aligned, Bool.and_eq_true, decide_eq_true_eq] at h ⊢ <;> omega

theorem accepted_aligned {ini : Initiator} {addr n : Nat} (h : accepted ini addr n = true) : aligned addr = true :=
  (Bool.and_eq_true _ _ ▸ h).1

/-- A register write, of one dword or more, that its link rules accept writes dword by dword. -/
theorem execRegisterWrite_accepted {ini : Initiator} {addr : BitVec 24} (v : Word) (be : BitVec 4) {more : List (Word × BitVec 4)}
    (s : State) (h : accepted ini addr.toNat (more.length + 1) = true) :
    exec (.registerWrite ini addr v be more []) s = .next (writeRun ini addr.toNat ((v, be) :: more) s) := by
  cases more with
  | nil =>
    rw [execRegisterWrite_single, writeAt, if_pos (accepted_aligned h)]
    rfl
  | cons d ds =>
    show Host.Outcome.next (writeDwords ini addr.toNat ((v, be) :: d :: ds) s) = _
    exact congrArg Host.Outcome.next (if_pos h)

/-- The writes of one cycle apply in R35's order: Sagger's, the control cores', the host's. -/
theorem cycleOrder_from_host (a b v : Word) :
    cycleOrder [(.host, v, allBytes), (.core, b, allBytes), (.sagger, a, allBytes)] =
      [(.sagger, a, allBytes), (.core, b, allBytes), (.host, v, allBytes)] := rfl

theorem cycleOrder_from_sagger (a b v : Word) :
    cycleOrder [(.sagger, a, allBytes), (.host, v, allBytes), (.core, b, allBytes)] =
      [(.sagger, a, allBytes), (.core, b, allBytes), (.host, v, allBytes)] := rfl

/-! ## Reads (R43, R46) -/

theorem bar0Read_answered {ini : Initiator} {addr : Nat} {s : State} (hc : clocked s = true)
    (hu : pageUp s (addr / 0x1000) = true) (hb : pageBusy s (addr / 0x1000) = false) :
    bar0Read ini addr (beginRead ini s) = regRead ini addr (beginRead ini s) := by
  have hm := msixArea_of_mapped (Bool.and_eq_true _ _ ▸ hu).1
  rw [bar0Read, hm, if_neg Bool.false_ne_true]
  exact guardRead_readable (s := beginRead ini s) hc hu hb _

/-- A read of one aligned dword of an answering page is its register's. -/
theorem readAt_answered {ini : Initiator} {addr : BitVec 24} {s : State} (ha : aligned addr.toNat = true) (hc : clocked s = true)
    (hu : pageUp s (addr.toNat / 0x1000) = true) (hb : pageBusy s (addr.toNat / 0x1000) = false) :
    readAt ini addr s = regRead ini addr.toNat (beginRead ini s) := by
  have hacc : accepted ini addr.toNat 1 = true := by
    have h4 : addr.toNat % 4 = 0 := by simpa [aligned] using ha
    cases ini with
    | host => simp only [accepted, ha, Bool.true_and, decide_eq_true_eq]; omega
    | core | sagger => simp [accepted, ha]
  rw [readAt, readDwords, if_pos hacc]
  exact bar0Read_answered hc hu hb

theorem highRead_held {ini : Initiator} {addr : Nat} {s : State} {v : Word}
    (h : tfind s.regs.hold (iniKey ini (keyOf s addr)) = some v) :
    highRead ini addr s = returns ini v { s with regs := { s.regs with hold := tdel s.regs.hold (iniKey ini (keyOf s addr)) } } := by
  simp only [highRead, h]

theorem highRead_live {ini : Initiator} {addr : Nat} {s : State} (h : tfind s.regs.hold (iniKey ini (keyOf s addr)) = none) :
    highRead ini addr s = dwordRead ini addr s := by
  simp only [highRead, h]

/-- A register of one dword, other than the nonce's. -/
def isSingle (addr : Nat) : Bool := !isHigh addr && !isWide addr && decide (addr ≠ Reg.SAG_NONCE0)

theorem regRead_single {ini : Initiator} {addr : Nat} {s : State} (h : isSingle addr = true) :
    regRead ini addr s = plainRead ini addr s := by
  simp only [isSingle, Bool.and_eq_true, Bool.not_eq_true', decide_eq_true_eq] at h
  obtain ⟨⟨hh, hw⟩, hn⟩ := h
  simp [regRead, lowRead, dwordRead, hh, hw, hn]

/-- What an initiator captures of a member it reads back. -/
theorem snap_capture_self (ini : Initiator) (k : Nat) (v : Word) (s : State) :
    tfind (capture ini k v s).regs.snap (iniKey ini k) = some v := tfind_tput_self _ _ _

theorem snap_capture_ne (ini : Initiator) {j k : Nat} (v : Word) (s : State) (h : j ≠ k) :
    tfind (capture ini k v s).regs.snap (iniKey ini j) = tfind s.regs.snap (iniKey ini j) :=
  tfind_tput_ne _ _ (by unfold iniKey; omega)

theorem snap_capture64_lo (ini : Initiator) (k v : Nat) (s : State) :
    tfind (capture64 ini k v s).regs.snap (iniKey ini k) = some (BitVec.ofNat 32 v) := by
  rw [capture64, snap_capture_ne _ _ _ (by omega), snap_capture_self]

theorem snap_capture64_hi (ini : Initiator) (k v : Nat) (s : State) :
    tfind (capture64 ini k v s).regs.snap (iniKey ini (k + 4)) = some (BitVec.ofNat 32 (v / 2 ^ 32)) := snap_capture_self _ _ _ _

theorem snap_capture64_ne (ini : Initiator) {j k : Nat} (v : Nat) (s : State) (h : j ≠ k) (h4 : j ≠ k + 4) :
    tfind (capture64 ini k v s).regs.snap (iniKey ini j) = tfind s.regs.snap (iniKey ini j) := by
  rw [capture64, snap_capture_ne _ _ _ h4, snap_capture_ne _ _ _ h]

/-- A read that returns one word and captures returns that word alone. -/
theorem rdata_returns_first {ini : Initiator} {w : Word} {u : State} (h : tfind u.regs.rdata (iniNum ini) = some []) :
    tfind (returns ini w u).regs.rdata (iniNum ini) = some [w] := by
  simp [returns, tget, h]

theorem isSingle_pifSnap : ∀ c : Fin 4, isSingle (Reg.PIF_C_SNAP c.val) = true ∧ aligned (Reg.PIF_C_SNAP c.val) = true := by
  decide

theorem pifSnap_page : ∀ c : Fin 4, Reg.PIF_C_SNAP c.val / 0x1000 = pgPif c.val ∧ pageOf (pgPif c.val) = some (.pifCh, c.val) ∧
    Reg.PIF_C_SNAP c.val % 0x1000 = 0x074 := by decide

theorem isSingle_planeSnap : ∀ p : Fin 16, isSingle (Reg.KLN_P_SNAP p.val) = true ∧ aligned (Reg.KLN_P_SNAP p.val) = true := by
  decide

theorem planeSnap_page : ∀ p : Fin 16, Reg.KLN_P_SNAP p.val / 0x1000 = pgKlnP p.val ∧
    pageOf (pgKlnP p.val) = some (.klnP, p.val) ∧ Reg.KLN_P_SNAP p.val % 0x1000 = 0x054 := by decide

/-! ### What each snapshot captures (R46, R338, R433, R434) -/

theorem snap_capturePif (ini : Initiator) (c : Nat) (s : State) :
    let got := fun k => tfind (capturePif ini c s).regs.snap (iniKey ini k)
    got (Reg.PIF_C_VEL c) = some (BitVec.ofInt 32 (pif s c).vel) ∧
      got (Reg.PIF_C_POS c) = some (BitVec.ofNat 32 (unsigned 64 (signed 48 (pif s c).pos))) ∧
      got (Reg.PIF_C_POS c + 4) = some (BitVec.ofNat 32 (unsigned 64 (signed 48 (pif s c).pos) / 2 ^ 32)) ∧
      got (Reg.PIF_C_TS c) = some (BitVec.ofNat 32 (pif s c).ts) ∧
      got (Reg.PIF_C_TS c + 4) = some (BitVec.ofNat 32 ((pif s c).ts / 2 ^ 32)) := by
  simp (disch := simp [Reg.PIF_C_VEL, Reg.PIF_C_POS, Reg.PIF_C_TS] <;> omega) only [capturePif, snap_capture64_lo, snap_capture64_hi,
    snap_capture64_ne, snap_capture_self, snap_capture_ne, and_self]

theorem snap_capturePlane (ini : Initiator) (p : Nat) (s : State) :
    let got := fun k => tfind (capturePlane ini p s).regs.snap (iniKey ini k)
    got (Reg.KLN_P_LINE p) = some (BitVec.ofNat 32 (planeLine s p)) ∧ got (Reg.KLN_P_RUNLINE p) = some (plane s p).runline ∧
      got (Reg.KLN_P_SLOT p) = some (BitVec.ofNat 32 ((plane s p).slot.getD noSlot)) := by
  simp (disch := simp [Reg.KLN_P_LINE, Reg.KLN_P_RUNLINE, Reg.KLN_P_SLOT]) only [capturePlane, snap_capture_self,
    snap_capture_ne, and_self]

theorem snap_captureNs (ini : Initiator) (s : State) :
    let got := fun k => tfind (captureNs ini s).regs.snap (iniKey ini k)
    got Reg.TIM_S_SNAP = some s.clock.sec ∧ got Reg.TIM_FRAC = some (BitVec.ofNat 32 (s.clock.frac / 2 ^ 40)) := by
  simp (disch := decide) only [captureNs, snap_capture_self, snap_capture_ne, and_self]

theorem snap_captureX (ini : Initiator) (s : State) :
    let got := fun k => tfind (captureX ini s).regs.snap (iniKey ini k)
    got Reg.TIM_X_FT = some (BitVec.ofNat 32 (now s)) ∧ got (Reg.TIM_X_FT + 4) = some (BitVec.ofNat 32 (now s / 2 ^ 32)) ∧
      got Reg.TIM_X_S = some s.clock.sec ∧ got Reg.TIM_X_NS = some (BitVec.ofNat 32 s.clock.ns) ∧
      got Reg.TIM_X_FRAC = some (BitVec.ofNat 32 (s.clock.frac / 2 ^ 40)) := by
  simp (disch := decide) only [captureX, snap_capture64_lo, snap_capture64_hi, snap_capture_self, snap_capture_ne,
    and_self]

/-! ### What a read of each snapshot register comes to -/

theorem pifStat_beginRead (ini : Initiator) (s : State) (c : Nat) : pifStat (beginRead ini s) c = pifStat s c := rfl

theorem lineFraction_beginRead (ini : Initiator) (s : State) (p : Nat) : lineFraction (beginRead ini s) p = lineFraction s p := rfl

theorem plainRead_pifSnap (ini : Initiator) (c : Fin 4) (s : State) : plainRead ini (Reg.PIF_C_SNAP c.val) (beginRead ini s) =
    returns ini (BitVec.ofNat 32 (pifStat s c.val)) (capturePif ini c.val (beginRead ini s)) := by
  obtain ⟨hn, hp, ho⟩ := pifSnap_page c
  simp [hn, plainRead, snapWord, readWord, isMember, openWord, liveWord, pifChWord, captures, hp, ho, pifStat_beginRead]

theorem plainRead_planeSnap (ini : Initiator) (p : Fin 16) (s : State) : plainRead ini (Reg.KLN_P_SNAP p.val) (beginRead ini s) =
    returns ini (BitVec.ofNat 32 (lineFraction s p.val)) (capturePlane ini p.val (beginRead ini s)) := by
  obtain ⟨hn, hp, ho⟩ := planeSnap_page p
  simp [hn, plainRead, snapWord, captures, hp, ho, lineFraction_beginRead]

theorem plainRead_timNs (ini : Initiator) (s : State) : plainRead ini Reg.TIM_NS (beginRead ini s) =
    returns ini (BitVec.ofNat 32 s.clock.ns) (captureNs ini (beginRead ini s)) := rfl

theorem plainRead_timXsnap (ini : Initiator) (s : State) : plainRead ini Reg.TIM_XSNAP (beginRead ini s) =
    returns ini (BitVec.ofNat 32 (timStat s)) (captureX ini (beginRead ini s)) := rfl

/-- What a read that captures leaves beside the members: its register's own value returned, nothing newly held, no other part
touched. -/
structure SnapshotTaken (ini : Initiator) (w : Word) (s t : State) : Prop where
  value : tfind t.regs.rdata (iniNum ini) = some [w]
  hold : t.regs.hold = s.regs.hold
  only : Only [.reads] s t

/-- Capturing writes the captures' table alone. -/
theorem snapshotTaken_of {ini : Initiator} {w : Word} {s u : State} (hr : u.regs.rdata = (beginRead ini s).regs.rdata)
    (hh : u.regs.hold = s.regs.hold) (hk : Keeps [.reads] s u) : SnapshotTaken ini w s (returns ini w u) :=
  ⟨rdata_returns_first (by rw [hr]; exact tfind_tput_self _ _ _), hh, (returns_keeps ini w u (fun _ q => q) hk).only⟩

theorem beginRead_only (ini : Initiator) (s : State) : Keeps [.reads] s (beginRead ini s) :=
  beginRead_keeps ini s (fun _ q => q) (Keeps.refl _ s)

/-- A snapshot read of an answering page. -/
theorem execSnapshotRead_answered {ini : Initiator} {addr : BitVec 24} {s : State} {a : Nat} (ha : addr.toNat = a)
    (hs : isSingle a = true) (hal : aligned a = true) (hc : clocked s = true) (hu : pageUp s (a / 0x1000) = true)
    (hb : pageBusy s (a / 0x1000) = false) :
    exec (.snapshotRead ini addr) s = .next (plainRead ini a (beginRead ini s)) := by
  subst ha
  show Host.Outcome.next (readAt ini addr s) = _
  rw [readAt_answered hal hc hu hb, regRead_single hs]

theorem execHighWordRead_answered {ini : Initiator} {addr : BitVec 24} {s : State} (hal : aligned addr.toNat = true)
    (hc : clocked s = true) (hu : pageUp s (addr.toNat / 0x1000) = true) (hb : pageBusy s (addr.toNat / 0x1000) = false)
    (hh : isHigh addr.toNat = true) : exec (.highWordRead ini addr) s = .next (highRead ini addr.toNat (beginRead ini s)) := by
  show Host.Outcome.next (readAt ini addr s) = _
  rw [readAt_answered hal hc hu hb, regRead, if_pos hh]

/-- Settles O38: requests come apart into dword writes, cycles into `cycleOrder`, and each read into what its register returns and
captures. -/
theorem registerReadsRun : Obligations.RegisterReadsRun := by
  refine ⟨?dwords, ?cycle, ?high, ?channel, ?plane, ?time⟩
  case dwords =>
    intro ini addr v w be be' more s h
    have hw := accepted_no_wrap h
    refine ⟨_, _, execRegisterWrite_single _ _ _ _ _, ?_, execRegisterWrite_accepted v be s h⟩
    rw [execRegisterWrite_accepted w be' _ (hw ▸ accepted_rest h), hw, writeAt, if_pos (accepted_aligned h)]
    rfl
  case cycle =>
    intro addr a b v s
    refine ⟨_, _, _, execRwsRegisterWrite_single _ _ _ _ _, execRwsRegisterWrite_single _ _ _ _ _,
      execRwsRegisterWrite_single _ _ _ _ _, ?_, ?_⟩
    · show Host.Outcome.next ((cycleOrder _).foldl _ s) = _
      rw [List.map, List.map, List.map, cycleOrder_from_host]
      rfl
    · show Host.Outcome.next ((cycleOrder _).foldl _ s) = _
      rw [List.map, List.map, List.map, cycleOrder_from_sagger]
      rfl
  case high =>
    intro ini addr s hal hc _ hu hb hh
    have e := execHighWordRead_answered (ini := ini) hal hc hu hb hh
    refine ⟨fun v hv => ?_, fun hn => ?_⟩
    · rw [highRead_held (s := beginRead ini s) hv] at e
      exact ⟨_, e, ⟨rdata_returns_first (tfind_tput_self _ _ _), tfind_tdel_self _ _, rfl⟩,
        (returns_keeps ini v _ (fun _ q => q) (Keeps.set_reads (by simp) (beginRead_only ini s))).only⟩
    · rw [highRead_live (s := beginRead ini s) hn] at e
      exact ⟨_, e, rfl, (dwordRead_keeps ini _ _ (by simp) (beginRead_keeps ini s (by simp) (Keeps.refl _ s))).only⟩
  case channel =>
    intro ini addr c s ha hc hu hb
    obtain ⟨hs, hal⟩ := isSingle_pifSnap c
    have hn := (pifSnap_page c).1
    have e := execSnapshotRead_answered (ini := ini) ha hs hal hc (hn ▸ hu) (hn ▸ hb)
    rw [plainRead_pifSnap] at e
    have h := snapshotTaken_of (w := BitVec.ofNat 32 (pifStat s c.val)) (u := capturePif ini c.val (beginRead ini s)) rfl rfl
      (capturePif_keeps ini c.val _ (fun _ q => q) (beginRead_only ini s))
    obtain ⟨hvel, hpos, hpos4, hts, hts4⟩ := snap_capturePif ini c.val (beginRead ini s)
    exact ⟨_, e, ⟨h.value, hvel, hpos, hpos4, hts, hts4, h.hold⟩, h.only⟩
  case plane =>
    intro ini addr p s ha hc hu hb
    obtain ⟨hs, hal⟩ := isSingle_planeSnap p
    have hn := (planeSnap_page p).1
    have e := execSnapshotRead_answered (ini := ini) ha hs hal hc (hn ▸ hu) (hn ▸ hb)
    rw [plainRead_planeSnap] at e
    have h := snapshotTaken_of (w := BitVec.ofNat 32 (lineFraction s p.val)) (u := capturePlane ini p.val (beginRead ini s)) rfl rfl
      (capturePlane_keeps ini p.val _ (fun _ q => q) (beginRead_only ini s))
    obtain ⟨hline, hrun, hslot⟩ := snap_capturePlane ini p.val (beginRead ini s)
    exact ⟨_, e, ⟨h.value, hline, hrun, hslot, h.hold⟩, h.only⟩
  case time =>
    intro ini s hc hu hb
    refine ⟨?ns, ?xsnap⟩
    case ns =>
      have e := (bar0Read_answered (ini := ini) (addr := Reg.TIM_NS) hc hu hb).trans (regRead_single (by decide))
      have h := snapshotTaken_of (w := BitVec.ofNat 32 s.clock.ns) (u := captureNs ini (beginRead ini s)) rfl rfl
        (captureNs_keeps ini _ (fun _ q => q) (beginRead_only ini s))
      obtain ⟨hsec, hfrac⟩ := snap_captureNs ini (beginRead ini s)
      exact ⟨_, congrArg Host.Outcome.next (e.trans (plainRead_timNs ini s)), ⟨h.value, hsec, hfrac, h.hold⟩, h.only⟩
    case xsnap =>
      have e := (bar0Read_answered (ini := ini) (addr := Reg.TIM_XSNAP) hc hu hb).trans (regRead_single (by decide))
      have h := snapshotTaken_of (w := BitVec.ofNat 32 (timStat s)) (u := captureX ini (beginRead ini s)) rfl rfl
        (captureX_keeps ini _ (fun _ q => q) (beginRead_only ini s))
      obtain ⟨hft, hft4, hsec, hns, hfrac⟩ := snap_captureX ini (beginRead ini s)
      exact ⟨_, congrArg Host.Outcome.next (e.trans (plainRead_timXsnap ini s)),
        ⟨h.value, hft, hft4, hsec, hns, hfrac, h.hold⟩, h.only⟩

end Sys2Proof.Machine
end

section
/-! SUPPORT. The proofs of what every register access goes through: unmapped pages (O24), owners (O23) and reserved offsets (O55). -/

namespace Sys2Proof.Machine
open Sys2Proof

/-! ## Accesses that do not reach a register (R56, R59) -/

/-- An access of an unmapped page is only counted, whatever its byte enables. -/
theorem guardAccess_unmapped {ini : Initiator} {addr : Nat} {be : BitVec 4} {s : State} (hc : clocked s = true)
    (hn : pageOf (addr / 0x1000) = none) (op : State → State) : guardAccess ini addr be op s = countUnmapped s := by
  simp [guardAccess, hc, pageUp, hn]

theorem guardAccess_denied {ini : Initiator} {addr : Nat} {s : State} (hc : clocked s = true)
    (hu : pageUp s (addr / 0x1000) = true) (ha : admits ini (getPage s (addr / 0x1000)).owner = false) (op : State → State) :
    guardAccess ini addr allBytes op s = denyWrite (addr / 0x1000) s := by
  simp [guardAccess, hc, hu, ha, allBytes]

theorem guardRead_unmapped {ini : Initiator} {addr : Nat} {s : State} (hc : clocked s = true)
    (hn : pageOf (addr / 0x1000) = none) (op : State → State) :
    guardRead ini addr op s = returns ini 0#32 (countUnmapped s) := by
  simp [guardRead, hc, hn]

theorem rd_of_regs {s t : State} (h : t.regs = s.regs) (k : Nat) : rd t k = rd s k := by rw [rd, rd, h]

theorem rdShadow_of_regs {s t : State} (h : t.regs = s.regs) (k : Nat) : rdShadow t k = rdShadow s k := by
  rw [rdShadow, rdShadow, h, rd_of_regs h]

/-- A refused write leaves the registers, and of the page headers changes what R56 says of its page's. -/
structure Denied (n : Nat) (s t : State) : Prop where
  regs : t.regs = s.regs
  page : getPage t n = { getPage s n with
    denyCnt := if (getPage s n).denyCnt = 0xFFFF#16 then 0xFFFF#16 else (getPage s n).denyCnt + 1,
    errCode := BitVec.ofNat 16 (blockId (pageKind n) * 256 + 0x06),
    errCount := if (getPage s n).errCount = 255#8 then 255#8 else (getPage s n).errCount + 1,
    irqRaw := (getPage s n).irqRaw ||| 4#32 }
  pages : ∀ m, m ≠ n → getPage t m = getPage s m
  only : Only [.reg (pageKind n), .msix, .out] s t

/-- A counter that stays at its last value is that value there. -/
theorem ite_self_eq {α : Type} [DecidableEq α] (x y z : α) : (if x = y then x else z) = if x = y then y else z := by
  split <;> simp_all

theorem denyWrite_denied (n : Nat) (s : State) : Denied n s (denyWrite n s) where
  regs := recordErr_regs _ _ _
  page := by
    rw [denyWrite, recordErr_page, getPage_updPage_self]
    simp only [ite_self_eq]
  pages m hm := by rw [denyWrite, recordErr_page_ne _ _ hm, getPage_updPage_ne _ _ hm]
  only := (denyWrite_keeps n s (fun _ q => q) (Keeps.refl _ s)).only

/-- What an access counted as unmapped leaves: that counter, and nothing else of registers or headers. -/
structure UnmappedCounted (s t : State) : Prop where
  count : rn t Reg.HIF_UNMAPPED_CNT = min 0xFFFFFFFF (rn s Reg.HIF_UNMAPPED_CNT + 1)
  others : ∀ k, k ≠ Reg.HIF_UNMAPPED_CNT → rd t k = rd s k
  pages : ∀ n, getPage t n = getPage s n

theorem countUnmapped_counted (s : State) : UnmappedCounted s (countUnmapped s) where
  count := rn_inc_self _ _ _
  others _ h := rd_wr_ne _ _ h
  pages _ := rfl

/-- The same with a read's answer, which is no register. -/
theorem countUnmapped_read_counted (ini : Initiator) (s : State) :
    UnmappedCounted s (returns ini 0#32 (countUnmapped (beginRead ini s))) :=
  let h := countUnmapped_counted (beginRead ini s)
  ⟨h.count, h.others, h.pages⟩

theorem countUnmapped_read_only (ini : Initiator) (s : State) :
    Only [.reads, .reg .hif] s (returns ini 0#32 (countUnmapped (beginRead ini s))) :=
  (returns_keeps ini _ _ (by simp) (countUnmapped_keeps _ (by simp) (beginRead_keeps ini s (by simp) (Keeps.refl _ s)))).only

theorem accepted_single {ini : Initiator} {addr : Nat} (h : aligned addr = true) : accepted ini addr 1 = true := by
  have h4 : addr % 4 = 0 := by simpa [aligned] using h
  cases ini with
  | host => simp only [accepted, h, Bool.true_and, decide_eq_true_eq]; omega
  | core | sagger => simp [accepted, h]

/-- A read of one aligned dword is of its address, after what the read before it returned is gone. -/
theorem execLowWordRead_single {ini : Initiator} {addr : BitVec 24} (s : State) (h : aligned addr.toNat = true) :
    exec (.lowWordRead ini addr 0) s = .next (bar0Read ini addr.toNat (beginRead ini s)) :=
  congrArg Host.Outcome.next (if_pos (accepted_single h))

theorem writeAt_mapped {ini : Initiator} {addr : BitVec 24} {be : BitVec 4} {v : Word} (s : State)
    (ha : aligned addr.toNat = true) (hm : msixArea addr.toNat = false) :
    writeAt ini addr be v s = guardWrite ini addr.toNat be v (regWrite ini addr.toNat) s := by
  rw [writeAt, if_pos ha, dwordWrite, hm, if_neg Bool.false_ne_true]

theorem pageUp_iff (s : State) (n : Nat) : pageUp s n = true ↔ (pageOf n).isSome = true ∧ pageOff s n = false := by
  rw [pageUp, Bool.and_eq_true, Bool.not_eq_true']

theorem msixArea_of_pageUp {addr : Nat} {s : State} (h : pageUp s (addr / 0x1000) = true) : msixArea addr = false :=
  msixArea_of_mapped ((pageUp_iff _ _).mp h).1

/-- Settles O23: the owner is asked before soft resets, reserved offsets and ranges (notes/assumptions/12.md), and of writes alone. -/
theorem ownerRefusesWrites : Obligations.OwnerRefusesWrites := by
  refine ⟨?refused, ?read, fun _ => rfl, ?sagger⟩
  case refused =>
    intro ini addr v s ha hc hu ho
    have h := denyWrite_denied (addr.toNat / 0x1000) s
    have e : writeAt ini addr allBytes v s = denyWrite (addr.toNat / 0x1000) s := by
      rw [writeAt_mapped s ha (msixArea_of_pageUp hu), guardWrite, guardAccess_denied hc hu ho]
    exact ⟨_, (execRegisterWrite_single _ _ _ _ _).trans (congrArg Host.Outcome.next e),
      ⟨⟨fun k => ⟨rd_of_regs h.regs k, rdShadow_of_regs h.regs k⟩, h.page, h.pages⟩, h.only⟩⟩
  case read =>
    intro ini addr s ha hc hu hb
    exact congrArg Host.Outcome.next (readAt_answered ha hc hu hb)
  case sagger =>
    intro addr v s ha hc hu hb hr
    have hw : Writable .sagger addr.toNat s = true := by simp [Writable, hc, hu, hb, admits]
    exact (execRegisterWrite_single _ _ _ _ _).trans (congrArg Host.Outcome.next (writeAt_writable ha hw hr))

/-- Settles O24: outside the map an access goes no further than HIF's counter. -/
theorem unmappedPagesReadZero : Obligations.UnmappedPagesReadZero := by
  refine ⟨?write, ?read, ?event⟩
  case write =>
    intro ini addr v be s ha hc hn hm
    have h := countUnmapped_counted s
    refine ⟨_, execRegisterWrite_single _ _ _ _ _, ?_⟩
    rw [writeAt_mapped s ha hm, guardWrite, guardAccess_unmapped hc hn]
    exact ⟨⟨h.count, h.others, h.pages⟩, (countUnmapped_keeps s (by simp) (Keeps.refl _ s)).only⟩
  case read =>
    intro ini addr s ha hc hn hm
    have h := countUnmapped_read_counted ini s
    refine ⟨_, execLowWordRead_single s ha, ?_⟩
    rw [bar0Read, hm, if_neg Bool.false_ne_true, guardRead_unmapped (s := beginRead ini s) hc hn]
    exact ⟨⟨rdata_returns_first (tfind_tput_self _ _ _), h.count, h.others, h.pages⟩, countUnmapped_read_only ini s⟩
  case event =>
    intro ini addr write s hc hn hm
    cases write with
    | true =>
      have h := countUnmapped_counted s
      have e : unmappedAccess ini addr.toNat true s = countUnmapped s := by
        simp [unmappedAccess, hc, hm, pageUp, hn]
      exact ⟨_, congrArg Host.Outcome.next e, ⟨by simp, h.count, h.others, h.pages⟩,
        (countUnmapped_keeps s (by simp) (Keeps.refl _ s)).only⟩
    | false =>
      have h := countUnmapped_read_counted ini s
      have e : unmappedAccess ini addr.toNat false s = returns ini 0#32 (countUnmapped (beginRead ini s)) := by
        simp [unmappedAccess, hc, hm, hn]
      exact ⟨_, congrArg Host.Outcome.next e,
        ⟨fun _ => rdata_returns_first (tfind_tput_self _ _ _), h.count, h.others, h.pages⟩, countUnmapped_read_only ini s⟩

/-! ## Reserved offsets (R36) -/

/-- The register table of a kind of page has a row at an offset. -/
def hasRow (k : PageKind) (off : Nat) : Bool := ((regRows k).find? fun r => r.off = off).isSome

/-- An address at which the map places nothing, in a page's header or among its block's registers. -/
def Reserved (addr : Nat) : Prop :=
  (0x02C ≤ addr % 0x1000 ∧ addr % 0x1000 < 0x040) ∨ (0x040 ≤ addr % 0x1000 ∧ regDef addr = none)

theorem hasRow_eq {addr i : Nat} {k : PageKind} (hk : pageOf (addr / 0x1000) = some (k, i)) :
    hasRow k (addr % 0x1000) = (regDef addr).isSome := by
  rw [hasRow, regDef, hk]

/-- A block's own registers lie behind the header. -/
theorem regRows_off_ge : ∀ k : PageKind, ∀ r ∈ regRows k, 0x040 ≤ r.off := by
  intro k
  cases k <;> decide +kernel

/-- The high word of a 64-bit register has its own row. -/
theorem regRows_wide : ∀ k : PageKind, ∀ r ∈ regRows k, r.wide = true → hasRow k (r.off + 4) = true := by
  intro k
  cases k <;> decide +kernel

theorem regDef_mem {addr i : Nat} {k : PageKind} {r : RegDef} (hk : pageOf (addr / 0x1000) = some (k, i))
    (h : regDef addr = some r) : r ∈ regRows k ∧ r.off = addr % 0x1000 := by
  simp only [regDef, hk] at h
  exact ⟨List.mem_of_find?_eq_some h, by simpa using List.find?_some h⟩

theorem Reserved.regDef {addr : Nat} (h : Reserved addr) : regDef addr = none := by
  rcases h with ⟨-, hlt⟩ | ⟨-, h⟩
  · cases hp : pageOf (addr / 0x1000) with
    | none => simp only [Machine.regDef, hp]
    | some q =>
      cases hd : Machine.regDef addr with
      | none => rfl
      | some r =>
        obtain ⟨hm, ho⟩ := regDef_mem hp hd
        have := regRows_off_ge q.1 r hm
        omega
  · exact h

theorem Reserved.ge {addr : Nat} (h : Reserved addr) : 0x02C ≤ addr % 0x1000 := by
  rcases h with ⟨h, -⟩ | ⟨h, -⟩ <;> omega

theorem isHigh_reserved {addr i : Nat} {k : PageKind} (hk : pageOf (addr / 0x1000) = some (k, i)) (h : Reserved addr) :
    isHigh addr = false := by
  have hge := h.ge
  have hp : (addr - 4) / 0x1000 = addr / 0x1000 := by omega
  by_contra hh
  simp only [isHigh, isWide, Bool.not_eq_false, Bool.and_eq_true] at hh
  cases hd : regDef (addr - 4) with
  | none => simp [hd] at hh
  | some r =>
    obtain ⟨hm, ho⟩ := regDef_mem (hp ▸ hk) hd
    have hrow := regRows_wide k r hm (by simpa [hd] using hh.2)
    rw [show r.off + 4 = addr % 0x1000 by omega, hasRow_eq hk, h.regDef] at hrow
    cases hrow

theorem isWide_reserved {addr : Nat} (h : Reserved addr) : isWide addr = false := by
  rw [isWide, h.regDef]

/-! Every offset at which a block's word acts or follows the state has a row. -/

/-- Registers of snapshots stand in their page's table. -/
theorem members_hasRow :
    (∀ off < 0x08C, 0x078 ≤ off → off % 4 = 0 → hasRow .pifCh off = true) ∧
    (∀ off < 0x064, 0x050 ≤ off → off % 4 = 0 → hasRow .motA off = true ∧ hasRow .iplP off = true) ∧
    (∀ off < 0x064, 0x058 ≤ off → off % 4 = 0 → hasRow .klnP off = true) ∧
    (∀ off < 0x09C, off = 0x050 ∨ off = 0x054 ∨ 0x088 ≤ off → off % 4 = 0 → hasRow .tim off = true) ∧
    (∀ off < 0x068, 0x04C ≤ off → off % 4 = 0 → hasRow .sag off = true) := by
  refine ⟨?_, ?_, ?_, ?_, ?_⟩ <;> decide +kernel

theorem hasRow_of_isMember {addr i : Nat} {k : PageKind} (ha : addr % 4 = 0) (hk : pageOf (addr / 0x1000) = some (k, i))
    (h : isMember addr = true) : hasRow k (addr % 0x1000) = true := by
  have ha' : addr % 0x1000 % 4 = 0 := by omega
  obtain ⟨hpif, haxis, hpln, htim, hsag⟩ := members_hasRow
  unfold isMember at h
  rw [hk] at h
  generalize addr % 0x1000 = off at *
  cases k <;> simp at h
  case pifCh => exact hpif off (by omega) h.1 ha'
  case motA => exact (haxis off (by omega) h.1 ha').1
  case iplP => exact (haxis off (by omega) h.1 ha').2
  case klnP => exact hpln off (by omega) h.1 ha'
  case tim => exact htim off (by omega) (by omega) ha'
  case sag => exact hsag off (by omega) h.1 ha'

theorem hasRow_of_openWord {addr i : Nat} {k : PageKind} {s : State} (hk : pageOf (addr / 0x1000) = some (k, i))
    (h : (openWord addr s).isSome = true) : hasRow k (addr % 0x1000) = true := by
  unfold openWord at h
  rw [hk] at h
  generalize addr % 0x1000 = off at *
  cases k <;> dsimp only at h
  case clk | hif | iplP => split at h <;> simp at h <;> decide
  all_goals cases h

theorem hasRow_klnC_chan : ∀ j < 4, hasRow .klnC (0x118 + j * 0x40) = true := by decide

theorem hasRow_fan_stat : ∀ j < 4, hasRow .fan (0x10C + j * 0x20) = true := by decide

theorem hasRow_of_liveWord {addr i : Nat} {k : PageKind} {s : State} (hk : pageOf (addr / 0x1000) = some (k, i))
    (h : (liveWord s addr).isSome = true) : hasRow k (addr % 0x1000) = true := by
  unfold liveWord at h
  rw [hk] at h
  generalize addr % 0x1000 = off at *
  cases k <;> dsimp only [clkWord, pwrWord, thmWord, fanWord, timWord, stkWord, crkWord, sagWord, tlyWord, hifWord, thrWord, glzWord,
    tilWord, tilEWord, klnWord, klnPWord, hlkWord, pifWord, pifChWord, motAWord, iplWord, winWord, glnWord, calWord, trmWord] at h
  case glb | mem | mil => cases h
  case fan =>
    split at h
    · obtain ⟨j, hj, rfl⟩ : ∃ j < 4, off = 0x10C + j * 0x20 := ⟨(off - 0x10C) / 0x20, by omega, by omega⟩
      exact hasRow_fan_stat j hj
    · cases h
  case motC =>
    split at h
    · rename_i ho
      rcases ho with rfl | rfl <;> decide
    · cases h
  case iplP =>
    split at h
    · rename_i ho
      subst ho
      decide
    · cases h
  case klnC =>
    split at h
    case h_5 =>
      split at h
      · obtain ⟨j, hj, rfl⟩ : ∃ j < 4, off = 0x118 + j * 0x40 := ⟨(off - 0x118) / 0x40, by omega, by omega⟩
        exact hasRow_klnC_chan j hj
      · cases h
    all_goals decide
  all_goals split at h <;> simp at h <;> decide

/-- The addresses whose read captures a snapshot are registers'. -/
theorem captures_reserved {addr i : Nat} {k : PageKind} (ini : Initiator) (s : State) (hk : pageOf (addr / 0x1000) = some (k, i))
    (h : hasRow k (addr % 0x1000) = false) : captures ini addr s = s := by
  unfold captures
  rw [hk]
  generalize addr % 0x1000 = off at *
  cases k <;> dsimp only
  case pifC | pifCh | motC | motA | klnP | iplP =>
    refine if_neg fun ho => ?_
    subst ho
    revert h
    decide
  case tim =>
    have hne : off ≠ 0x04C ∧ off ≠ 0x080 := by
      refine ⟨?_, ?_⟩ <;> rintro rfl <;> revert h <;> decide
    rw [if_neg hne.1, if_neg hne.2]

theorem headerWord_reserved {off : Nat} (s : State) (n : Nat) (h : 0x02C ≤ off) : headerWord s n off = 0 := by
  unfold headerWord
  dsimp only
  split <;> omega

section
variable {addr i : Nat} {k : PageKind} {s : State}

theorem Reserved.hasRow (h : Reserved addr) (hk : pageOf (addr / 0x1000) = some (k, i)) : hasRow k (addr % 0x1000) = false := by
  rw [hasRow_eq hk, h.regDef]
  rfl

/-- A reserved dword has no word of its own to show: neither a header's nor a snapshot's, nor one that follows the state. -/
theorem readWord_reserved (ini : Initiator) (ha : addr % 4 = 0) (hk : pageOf (addr / 0x1000) = some (k, i)) (h : Reserved addr) :
    readWord ini addr s = (0#32, s) := by
  have hrow := h.hasRow hk
  have hm : isMember addr = false := by
    by_contra hx
    simp [hasRow_of_isMember ha hk (by simpa using hx)] at hrow
  have ho : openWord addr s = none := by
    by_contra hx
    simp [hasRow_of_openWord hk (Option.isSome_iff_ne_none.mpr hx)] at hrow
  have hl : liveWord s addr = none := by
    by_contra hx
    simp [hasRow_of_liveWord hk (Option.isSome_iff_ne_none.mpr hx)] at hrow
  have hs : storedWord s addr = 0#32 := by simp [storedWord, h.regDef]
  simp [readWord, hm, ho, hl, hs, headerWord_reserved s _ h.ge]

theorem plainRead_reserved (ini : Initiator) (ha : addr % 4 = 0) (hk : pageOf (addr / 0x1000) = some (k, i)) (h : Reserved addr) :
    plainRead ini addr s = returns ini 0#32 s := by
  have hrow := h.hasRow hk
  have hs : snapWord ini addr s = (0#32, s) := by
    unfold snapWord
    split
    · rename_i p hp
      rw [hp] at hk
      cases hk
      rw [if_neg, readWord_reserved ini ha hp h]
      intro ho
      rw [ho] at hrow
      revert hrow
      decide
    · exact readWord_reserved ini ha hk h
  simp [plainRead, hs, captures_reserved ini s hk hrow]

/-- A read of a reserved dword returns zero. -/
theorem regRead_reserved (ini : Initiator) (ha : addr % 4 = 0) (hk : pageOf (addr / 0x1000) = some (k, i)) (h : Reserved addr) :
    regRead ini addr s = returns ini 0#32 s := by
  have hn : addr ≠ Reg.SAG_NONCE0 := by
    rintro rfl
    exact absurd h.regDef (by decide)
  rw [regRead, isHigh_reserved hk h, if_neg Bool.false_ne_true, lowRead, isWide_reserved h, if_neg Bool.false_ne_true, dwordRead,
    if_neg hn, plainRead_reserved ini ha hk h]

/-- In a soft reset too: no reset value stands at an offset without a row. -/
theorem resetRead_reserved (hlt : addr < 0x1000000) (hk : pageOf (addr / 0x1000) = some (k, i)) (h : Reserved addr) :
    resetRead s addr = 0#32 := by
  have hrow := h.hasRow hk
  have hw : resetWord addr = 0#32 := by simp [resetWord, keyAddr, Nat.mod_eq_of_lt hlt, h.regDef]
  unfold resetRead
  split
  · rename_i e he
    rw [he] at hk
    cases hk
    rw [if_neg, if_neg, hw]
    all_goals
      intro ho
      rw [ho] at hrow
      revert hrow
      decide
  · exact hw

theorem bar0Read_reserved (ini : Initiator) (hlt : addr < 0x1000000) (ha : addr % 4 = 0) (hc : clocked s = true)
    (hu : pageUp s (addr / 0x1000) = true) (h : Reserved addr) : bar0Read ini addr s = returns ini 0#32 s := by
  obtain ⟨hmapped, hoff⟩ := (pageUp_iff _ _).mp hu
  obtain ⟨⟨k, i⟩, hk⟩ := Option.isSome_iff_exists.mp hmapped
  rw [bar0Read, msixArea_of_pageUp hu, if_neg Bool.false_ne_true]
  simp [guardRead, hc, hk, hoff, resetRead_reserved hlt hk h, regRead_reserved ini ha hk h]

theorem regWrite_reserved (ini : Initiator) (v : Word) (h : Reserved addr) : regWrite ini addr v s = s := by
  have hh : ∀ off, 0x02C ≤ off → headerWrite (addr / 0x1000) off v s = s := by
    intro off ho
    unfold headerWrite
    split
    case h_7 => rfl
    all_goals omega
  unfold regWrite
  dsimp only
  split
  · exact hh _ h.ge
  · rw [h.regDef]
    rfl

end

/-- Every value is in range at a reserved offset. -/
theorem inRange_reserved {addr : Nat} (v : Word) (h : Reserved addr) : inRange addr v = true := by
  rw [inRange, h.regDef]

/-- Whatever refuses an access touches headers and HIF's counter alone, so a write that would change no register changes none. -/
theorem guardAccess_regs {ini : Initiator} {addr : Nat} {be : BitVec 4} {op : State → State} {s : State}
    (hc : clocked s = true) (hu : pageUp s (addr / 0x1000) = true) (h : (op s).regs = s.regs) :
    (guardAccess ini addr be op s).regs = s.regs := by
  unfold guardAccess
  simp only [hc, hu, Bool.not_true, Bool.false_eq_true, if_false]
  split
  · exact recordErr_regs _ _ _
  · split
    · exact (denyWrite_denied _ s).regs
    · split
      · exact recordErr_regs _ _ _
      · exact h

/-- Settles O55: the register tables hold every offset at which a word stands or a write acts. -/
theorem reservedOffsetsReadZero : Obligations.ReservedOffsetsReadZero := by
  intro ini addr s ha hc hu h
  have h : Reserved addr.toNat := h
  have h4 : addr.toNat % 4 = 0 := by simpa [aligned] using ha
  have hm := msixArea_of_pageUp hu
  refine ⟨?read, fun v be => ?write, fun v hw => ?admitted⟩
  case read =>
    refine ⟨_, execLowWordRead_single s ha, ?_⟩
    rw [bar0Read_reserved (s := beginRead ini s) ini addr.isLt h4 hc hu h]
    exact ⟨rdata_returns_first (tfind_tput_self _ _ _), (returns_keeps ini _ _ (fun _ q => q) (beginRead_only ini s)).only⟩
  case write =>
    refine ⟨_, execRegisterWrite_single _ _ _ _ _, ?_⟩
    rw [writeAt_mapped s ha hm]
    refine guardAccess_regs hc hu ?_
    rw [if_pos (inRange_reserved v h), regWrite_reserved ini v h]
  case admitted =>
    rw [execRegisterWrite_single, writeAt_writable ha hw (inRange_reserved v h), regWrite_reserved ini v h]

end Sys2Proof.Machine
end

section
/-! SUPPORT. The proofs of what the writes of a page's header do: PG_CTRL, the interrupt registers, PG_SHADOW, PG_ERR and GLB_HOLD_REL
(O25, O27). -/

namespace Sys2Proof.Machine
open Sys2Proof

/-! ## A header write that arrives (R37 to R40) -/

/-- The bit of a written value as the model picks it out of the number. -/
theorem bitOf_eq (v : Word) (i : Nat) : decide (v.toNat / 2 ^ i % 2 = 1) = v.getLsbD i := by
  rw [BitVec.getLsbD, Nat.testBit_eq_decide_div_mod_eq]

theorem execSoftReset_writable {ini : Initiator} {page : BitVec 12} {v : Word} {s : State}
    (hw : Writable ini (page.toNat * 0x1000 + 0x008) s = true) (hr : inRange (page.toNat * 0x1000 + 0x008) v = true) :
    exec (.softReset ini page v) s = .next (pgCtrlWrite page.toNat v s) :=
  congrArg Host.Outcome.next (guardWrite_writable hw hr _)

theorem pgCtrlWrite_busy {n : Nat} {v : Word} {s : State} (hk : hasSrst (pageKind n) = true) (h1 : v.getLsbD 1 = true)
    (hb : blockBusy s n = true) : pgCtrlWrite n v s = recordErr n 0x03 s := by
  simp only [pgCtrlWrite, bitOf_eq, hk, h1, hb, Bool.not_true, Bool.false_eq_true, if_false, if_true]

theorem pgCtrlWrite_idle {n : Nat} {v : Word} {s : State} (hk : hasSrst (pageKind n) = true) (h1 : v.getLsbD 1 = true)
    (hb : blockBusy s n = false) :
    pgCtrlWrite n v s = softResetStart n (updPage n (fun p => { p with cga := v.getLsbD 2 }) s) := by
  simp only [pgCtrlWrite, bitOf_eq, hk, h1, hb, Bool.not_true, Bool.false_eq_true, if_false, if_true]

theorem pgCtrlWrite_en {n : Nat} {v : Word} {s : State} (hk : hasSrst (pageKind n) = true) (h1 : v.getLsbD 1 = false) :
    pgCtrlWrite n v s = enChanged n (updPage n (fun p => { p with en := v.getLsbD 0 })
      (updPage n (fun p => { p with cga := v.getLsbD 2 }) s)) := by
  simp only [pgCtrlWrite, bitOf_eq, hk, h1, Bool.not_true, Bool.false_eq_true, if_false]

theorem pgCtrlWrite_noSrst {n : Nat} {v : Word} {s : State} (hk : hasSrst (pageKind n) = false) :
    pgCtrlWrite n v s = if v.getLsbD 1 then s else updPage n (fun p => { p with cga := v.getLsbD 2 }) s := by
  simp only [pgCtrlWrite, bitOf_eq, hk, Bool.not_false, if_true]

/-- A change of one page's header touches that page's kind only. -/
theorem updPage_only (n : Nat) (f : Page → Page) (s : State) : Only [.reg (pageKind n)] s (updPage n f s) :=
  (updPage_keeps n f s (fun _ q => q) (Keeps.refl _ s)).only

/-- Settles O25: a busy block's soft reset is refused and recorded, and a page without one has only CGA to write (R38). -/
theorem softResetRefused : Obligations.SoftResetRefused := by
  refine ⟨fun ini page v s hw hr h1 hk hb => ?_, fun ini page v s hw hr hk h1 => ?_, fun ini page v s hw hr hk h1 => ?_, fun k => ?_⟩
  · refine ⟨_, execSoftReset_writable hw hr, ?_, ?_⟩ <;> rw [pgCtrlWrite_busy hk h1 hb]
    · refine ⟨?_, fun n hn => recordErr_page_ne _ _ hn, recordErr_regs _ _ _⟩
      rw [recordErr_page]
      simp only [ite_self_eq]
    · exact (recordErr_keeps' _ _ s).only
  · rw [execSoftReset_writable hw hr, pgCtrlWrite_noSrst hk, h1]
    rfl
  · refine ⟨_, execSoftReset_writable hw hr, ?_, ?_⟩ <;> rw [pgCtrlWrite_noSrst hk, h1, if_neg Bool.false_ne_true]
    · exact ⟨getPage_updPage_self _ _ _, fun n hn => getPage_updPage_ne _ _ hn, rfl⟩
    · exact updPage_only _ _ _
  · cases k <;> decide

end Sys2Proof.Machine
end

section
/-! SUPPORT. The proofs of what header writes do to interrupts, errors, holds and shadows (O27). -/

namespace Sys2Proof.Machine
open Sys2Proof

/-- A page's header but for its interrupt bits, which any block may raise. -/
def HeaderAlike (n : Nat) (s u : State) : Prop := { getPage u n with irqRaw := 0 } = { getPage s n with irqRaw := 0 }

namespace HeaderAlike

theorem refl (n : Nat) (s : State) : HeaderAlike n s s := rfl

theorem trans {n : Nat} {s t u : State} (h : HeaderAlike n s t) (k : HeaderAlike n t u) : HeaderAlike n s u := Eq.trans k h

theorem of_pages {n : Nat} {s u : State} (h : u.pages = s.pages) : HeaderAlike n s u := by
  rw [HeaderAlike, getPage_congr h]

theorem of_keeps {n : Nat} {s u : State} {ps : List Part} (k : Keeps ps s u) (h : Part.reg (pageKind n) ∉ ps) : HeaderAlike n s u := by
  rw [HeaderAlike, (k.only _ h).2 n rfl]

theorem foldl {n : Nat} {α : Type} (l : List α) {f : State → α → State} (hf : ∀ t x, HeaderAlike n t (f t x)) (s : State) :
    HeaderAlike n s (l.foldl f s) := by
  induction l generalizing s with
  | nil => exact refl n s
  | cons x l ih => exact (hf s x).trans (ih _)

theorem en {n : Nat} {s u : State} (h : HeaderAlike n s u) : (getPage u n).en = (getPage s n).en :=
  (congrArg Page.en h :)

theorem inReset {n : Nat} {s u : State} (h : HeaderAlike n s u) : (getPage u n).inReset = (getPage s n).inReset :=
  (congrArg Page.inReset h :)

theorem pending {n : Nat} {s u : State} (h : HeaderAlike n s u) : (getPage u n).pending = (getPage s n).pending :=
  (congrArg Page.pending h :)

theorem hold {n : Nat} {s u : State} (h : HeaderAlike n s u) : (getPage u n).hold = (getPage s n).hold :=
  (congrArg Page.hold h :)

theorem cmdHold {n : Nat} {s u : State} (h : HeaderAlike n s u) : (getPage u n).cmdHold = (getPage s n).cmdHold :=
  (congrArg Page.cmdHold h :)

end HeaderAlike

theorem HoldsAlike.of_headers {s u : State} (h : ∀ n, HeaderAlike n s u) : HoldsAlike s u := fun n => ⟨(h n).hold, (h n).cmdHold⟩

theorem raiseIrq_header (n m b : Nat) (s : State) : HeaderAlike n s (raiseIrq m b s) := by
  rw [HeaderAlike, raiseIrq]
  by_cases hn : n = m
  · subst hn
    rw [raiseBits_page]
  · rw [raiseBits_page_ne _ _ hn]

theorem dropEvent_header (n : Nat) (e : Event) (r : Nat) (s : State) : HeaderAlike n s (dropEvent e r s) :=
  (HeaderAlike.of_pages rfl).trans (raiseIrq_header n _ _ _)

theorem acceptEvent_header (n code : Nat) (alarm commit : Bool) (ten : Option Nat) (pl : List Byte) (s : State) :
    HeaderAlike n s (acceptEvent code alarm commit ten pl s) := by
  unfold acceptEvent
  dsimp only
  split
  · exact HeaderAlike.of_pages rfl
  · exact (HeaderAlike.of_pages rfl).trans (HeaderAlike.foldl _ (fun t r => dropEvent_header n _ r t) _)

theorem raiseAlarm_header (n i : Nat) (ten : Option Nat) (pl : List Byte) (s : State) : HeaderAlike n s (raiseAlarm i ten pl s) := by
  unfold raiseAlarm
  dsimp only
  split
  · refine HeaderAlike.trans ?_ (acceptEvent_header n _ _ _ _ _ _)
    exact (HeaderAlike.of_pages rfl).trans (raiseIrq_header n _ _ _)
  · exact HeaderAlike.trans (HeaderAlike.of_pages rfl) (acceptEvent_header n _ _ _ _ _ _)

/-- An event with the interrupt that goes with it leaves every header but for interrupt bits. -/
theorem raised_header (n m b code : Nat) (ten : Option Nat) (pl : List Byte) (s : State) :
    HeaderAlike n s (raiseIrq m b (event code ten pl s)) :=
  (acceptEvent_header n _ _ _ _ _ _).trans (raiseIrq_header n _ _ _)

/-! ## Releasing holds (R52, R54, R55) -/

theorem notePage_holds (n : Nat) (s : State) : HoldsAlike s (notePage n s) := by
  unfold notePage
  dsimp only
  split
  · exact HoldsAlike.of_pages rfl
  · exact HoldsAlike.put rfl rfl

theorem HoldsAlike.foldl {α : Type} {f : State → α → State} (l : List α) (hf : ∀ t, ∀ x ∈ l, HoldsAlike t (f t x)) (s : State) :
    HoldsAlike s (l.foldl f s) := by
  induction l generalizing s with
  | nil => exact HoldsAlike.of_pages rfl
  | cons a l ih => exact (hf s a List.mem_cons_self).trans (ih (fun t x hx => hf t x (List.mem_cons_of_mem _ hx)) _)

theorem raised_holds (m b code : Nat) (ten : Option Nat) (pl : List Byte) (s : State) :
    HoldsAlike s (raiseIrq m b (event code ten pl s)) :=
  (acceptEvent_holds _ _ _ _ _ _).trans (raiseIrq_holds _ _ _)

theorem barSplits_holds (skip : List Nat) (s : State) : HoldsAlike s (barSplits skip s) := by
  refine HoldsAlike.foldl _ (fun t h _ => ?_) s
  dsimp only
  split
  · exact HoldsAlike.of_pages rfl
  split
  · refine HoldsAlike.trans ?_ (raised_holds _ _ _ _ _ _)
    exact HoldsAlike.of_pages rfl
  · exact HoldsAlike.of_pages rfl

theorem barExtras_holds (skip : List Nat) (slot : Nat) (s : State) : HoldsAlike s (barExtras skip slot s) := by
  unfold barExtras
  split
  · exact HoldsAlike.of_pages rfl
  · refine HoldsAlike.trans ?_ (HoldsAlike.of_pages (u := noteLatch barMark slot _) rfl)
    refine HoldsAlike.trans ?_ (barSplits_holds _ _)
    exact HoldsAlike.of_pages rfl

theorem barPages_kind : ∀ n ∈ barPages, pageKind n = .tilC ∨ pageKind n = .klnC ∨ pageKind n = .cal := by decide

theorem armBar_holds (s : State) : HoldsAlike s (armBar s) := by
  unfold armBar
  dsimp only
  split
  · exact HoldsAlike.of_pages rfl
  split
  · refine HoldsAlike.trans (HoldsAlike.foldl _ (fun t n hn => ?_) s) (barExtras_holds _ _ _)
    refine fun m => applyPage_holds m n noSlot ?_ t
    rcases barPages_kind n hn with h | h | h <;> rw [h] <;> decide
  · exact HoldsAlike.of_pages rfl

theorem idleLatch_holds {n : Nat} (hn : pageKind n ≠ .iplP) (s : State) : HoldsAlike s (idleLatch n s) := by
  unfold idleLatch
  split
  · exact fun m => applyPage_holds m n noSlot hn s
  · exact HoldsAlike.of_pages rfl

/-! What latches with a plane's tables lies outside the page headers. -/

theorem foldl_pages {α : Type} {f : State → α → State} (l : List α) (hf : ∀ t x, (f t x).pages = t.pages) (s : State) :
    (l.foldl f s).pages = s.pages := by
  induction l generalizing s with
  | nil => rfl
  | cons x l ih => exact (ih _).trans (hf s x)

theorem applyGains_pages (heads : Nat → Bool) (slot : Nat) (s : State) : (applyGains heads slot s).pages = s.pages := by
  unfold applyGains
  dsimp only
  refine (foldl_pages _ ?_ _).trans ((foldl_pages _ (fun t q => ?_) _).trans ?_)
  · exact fun t p => wn_pages _ _ t
  · split <;> rfl
  · rfl

theorem crkSubmit_pages (b : CrkBody) (cmd batch : Option Nat) (s : State) : (crkSubmit b cmd batch s).pages = s.pages := by
  unfold crkSubmit
  split <;> rfl

theorem noteChanged_pages (i : Nat) (s : State) : (noteChanged i s).pages = s.pages := by
  unfold noteChanged
  split <;> rfl

theorem variantLatch_pages (h : Nat) (f : BitVec 32) (slot : Nat) (s : State) : (variantLatch h f slot s).pages = s.pages := by
  unfold variantLatch
  dsimp only
  split <;> rfl

theorem applyEntries_pages (among : Nat → Bool) (f : BitVec 32) (slot : Nat) (s : State) :
    (applyEntries among f slot s).pages = s.pages := by
  unfold applyEntries
  extract_lets s0 takes due used til s1 vars s2 cmds
  have h1 : s1.pages = s.pages := by
    refine (foldl_pages _ (fun t q => ?_) _).trans (applyGains_pages among slot s)
    rw [putEntry_pages]
    split
    · exact noteChanged_pages _ _
    · rfl
  have h2 : s2.pages = s1.pages :=
    (foldl_pages (f := fun t p => discardWindow p t) _ (fun _ _ => rfl) _).trans
      (foldl_pages _ (fun t h => variantLatch_pages h _ _ t) _)
  refine (foldl_pages _ (fun t c => ?_) _).trans (h2.trans h1)
  exact foldl_pages _ (fun u l => crkSubmit_pages _ _ _ u) t

theorem latchTable_header (n p slot : Nat) (s : State) : HeaderAlike n s (latchTable p slot s) :=
  HeaderAlike.of_keeps (latchTable_keeps p slot s (fun _ q => q) (Keeps.refl _ s)) (by simp)

theorem latchPass_header (n p slot : Nat) (s : State) : HeaderAlike n s (latchPass p slot s) :=
  HeaderAlike.of_keeps (latchPass_keeps p slot s (fun _ q => q) (Keeps.refl _ s)) (by simp)

theorem idleTables_header (n p : Nat) (s : State) : HeaderAlike n s (idleTables p s) := by
  unfold idleTables
  split
  · exact ((latchTable_header n _ _ _).trans (latchPass_header n _ _ _)).trans (HeaderAlike.of_pages (applyEntries_pages _ _ _ _))
  · exact HeaderAlike.refl n s

theorem idleEntries_header (n h : Nat) (s : State) : HeaderAlike n s (idleEntries h s) := by
  unfold idleEntries
  split
  · exact idleTables_header n _ _
  · exact HeaderAlike.of_pages (applyEntries_pages _ _ _ _)

theorem holdCleared_holds {n : Nat} (hn : pageKind n ≠ .iplP) (s : State) : HoldsAlike s (holdCleared n s) := by
  unfold holdCleared
  extract_lets p s1
  split
  · exact HoldsAlike.of_pages rfl
  have h1 : HoldsAlike s s1 := by
    dsimp only [s1]
    split
    · split
      · exact armBar_holds s
      · exact idleLatch_holds hn s
    · exact HoldsAlike.of_pages rfl
  refine h1.trans ?_
  split
  · exact HoldsAlike.of_headers fun m => idleTables_header m _ _
  · split
    · exact HoldsAlike.of_headers fun m => idleEntries_header m _ _
    · exact HoldsAlike.of_pages rfl
  · split
    · exact armBar_holds _
    · exact HoldsAlike.of_pages rfl
  · exact HoldsAlike.of_pages rfl

theorem framePages_kind {s : State} {p n : Nat} (h : n ∈ framePages s p) : pageKind n = .klnP ∨ pageKind n = .tilE ∨ pageKind n = .hlk := by
  simp only [framePages, List.mem_cons, List.mem_flatMap, List.not_mem_nil, or_false] at h
  rcases h with rfl | ⟨d, -, rfl | rfl | rfl⟩ <;> simp

theorem holdPages_kind {s : State} {v : Word} {n : Nat} (h : n ∈ holdPages s v) : pageKind n ≠ .iplP := by
  rw [holdPages, List.mem_append, List.mem_flatMap] at h
  rcases h with ⟨p, -, h⟩ | h
  · rcases framePages_kind h with h | h | h <;> rw [h] <;> decide
  · split at h
    · rcases barPages_kind n h with h | h | h <;> rw [h] <;> decide
    · cases h

/-- One page's HOLD, or CMD_HOLD for a command, cleared by GLB_HOLD_REL. -/
def clearHold (cmd : Bool) (s : State) (n : Nat) : State :=
  updPage n (fun p => if cmd then { p with cmdHold := false } else { p with hold := false }) (notePage n s)

theorem holdRelWrite_eq {ini : Initiator} {v : Word} {s : State} (h : v.getLsbD 17 = false ∨ ini = .core) :
    holdRelWrite ini v s =
      (holdPages s v).foldl (fun t n => holdCleared n t) ((holdPages s v).foldl (clearHold (v.getLsbD 17)) s) := by
  unfold holdRelWrite
  simp only [bitOf_eq]
  rcases h with h | rfl
  · simp only [h, Bool.false_and, Bool.false_eq_true, if_false]
    rfl
  · simp only [decide_true, Bool.and_true, reduceCtorEq, decide_false, Bool.and_false, Bool.false_eq_true, if_false]
    rfl

theorem clearHold_cases (cmd : Bool) (s : State) (n m : Nat) :
    (getPage (clearHold cmd s n) m).hold = (if m = n ∧ cmd = false then false else (getPage s m).hold) ∧
    (getPage (clearHold cmd s n) m).cmdHold = if m = n ∧ cmd = true then false else (getPage s m).cmdHold := by
  obtain ⟨h1, h2⟩ := notePage_holds n s m
  unfold clearHold
  by_cases hm : m = n
  · subst hm
    rw [getPage_updPage_self]
    cases cmd <;> simp [h1, h2]
  · rw [getPage_updPage_ne _ _ hm]
    simp [hm, h1, h2]

theorem clearHolds_cases (cmd : Bool) (l : List Nat) (s : State) (m : Nat) :
    (getPage (l.foldl (clearHold cmd) s) m).hold = (if m ∈ l ∧ cmd = false then false else (getPage s m).hold) ∧
    (getPage (l.foldl (clearHold cmd) s) m).cmdHold = if m ∈ l ∧ cmd = true then false else (getPage s m).cmdHold := by
  induction l generalizing s with
  | nil => simp
  | cons n l ih =>
    obtain ⟨h1, h2⟩ := ih (clearHold cmd s n)
    obtain ⟨h3, h4⟩ := clearHold_cases cmd s n m
    rw [List.foldl_cons, h1, h2, h3, h4]
    cases cmd <;> by_cases hm : m ∈ l <;> by_cases hn : m = n <;> simp [hm, hn]

/-- What GLB_HOLD_REL leaves of the two holds: one of them cleared on the selected pages. -/
theorem holdRelWrite_holds {ini : Initiator} {v : Word} {s : State} (h : v.getLsbD 17 = false ∨ ini = .core) (m : Nat) :
    (getPage (holdRelWrite ini v s) m).hold =
      (if m ∈ holdPages s v ∧ v.getLsbD 17 = false then false else (getPage s m).hold) ∧
    (getPage (holdRelWrite ini v s) m).cmdHold =
      if m ∈ holdPages s v ∧ v.getLsbD 17 = true then false else (getPage s m).cmdHold := by
  rw [holdRelWrite_eq h]
  obtain ⟨h1, h2⟩ := HoldsAlike.foldl (f := fun t n => holdCleared n t) (holdPages s v)
    (fun t n hn => holdCleared_holds (holdPages_kind hn) t) ((holdPages s v).foldl (clearHold (v.getLsbD 17)) s) m
  rw [h1, h2]
  exact clearHolds_cases _ _ _ _

end Sys2Proof.Machine
end

section
/-! SUPPORT. Discarded shadows (R51, R52) and soft resets (R37, R38), for O27. -/

namespace Sys2Proof.Machine
open Sys2Proof

/-! ## Interrupt and error writes (R39 to R41) -/

theorem pgErrWrite_clr {n : Nat} {v : Word} {s : State} (h : v.getLsbD 31 = true) :
    pgErrWrite n v s = updPage n (fun p => { p with errCode := 0, errCount := 0 }) s := by
  rw [← bitOf_eq, decide_eq_true_eq] at h
  have := v.isLt
  rw [pgErrWrite, if_pos (by omega)]

/-! ## PG_SHADOW (R51, R52) -/

/-- The page takes HOLD and VIEW as written, and DEFERRED is cleared where it is written 1. -/
def shadowBits (n : Nat) (v : Word) (s : State) : State :=
  updPage n (fun p => { p with deferred := p.deferred && !v.getLsbD 1, hold := v.getLsbD 2, view := v.getLsbD 4 }) (notePage n s)

theorem shadowWrite_eq (n : Nat) (v : Word) (s : State) : shadowWrite n v s =
    if v.getLsbD 2 then (if v.getLsbD 3 then discardShadow n (shadowBits n v s) else shadowBits n v s)
    else holdCleared n (if v.getLsbD 3 then discardShadow n (shadowBits n v s) else shadowBits n v s) := by
  simp only [shadowWrite, bitOf_eq]
  rfl

/-- No register of the page has a shadow of its own. -/
def Unshadowed (n : Nat) (s : State) : Prop := ∀ k, onPage n k = true → tfind s.regs.shd k = none

theorem Unshadowed.of_shd {n : Nat} {s u : State} (h : Unshadowed n s) (e : u.regs.shd = s.regs.shd) : Unshadowed n u := fun k hk => by
  rw [e, h k hk]

theorem Unshadowed.rdShadow {n : Nat} {s : State} (h : Unshadowed n s) {k : Nat} (hk : keyAddr k / 0x1000 = n) :
    rdShadow s k = rd s k := by
  rw [Machine.rdShadow, h k (decide_eq_true hk)]

theorem foldl_shd {α : Type} {f : State → α → State} (l : List α) (hf : ∀ t x, (f t x).regs.shd = t.regs.shd) (s : State) :
    (l.foldl f s).regs.shd = s.regs.shd := by
  induction l generalizing s with
  | nil => rfl
  | cons x l ih => exact (ih _).trans (hf s x)

/-- What a discard leaves of the page: no shadow of its own and nothing pending. -/
structure Discarded (n : Nat) (s : State) : Prop where
  shd : Unshadowed n s
  pending : (getPage s n).pending = false

theorem discardShadow_discarded (n : Nat) (s : State) : Discarded n (discardShadow n s) := by
  unfold discardShadow
  extract_lets s0 regs s1
  have h1 : Discarded n s1 := by
    refine ⟨fun k hk => ?_, ?_⟩
    · have e : s1.regs.shd = tfilter s0.regs.shd fun k => !onPage n k := rfl
      rw [e, tfind_tfilter, hk]
      rfl
    · rw [show s1 = updPage n _ _ from rfl, getPage_updPage_self]
  split
  · refine ⟨h1.shd.of_shd (foldl_shd _ (fun t h => ?_) _), ?_⟩
    · rfl
    · rw [getPage_congr (foldl_pages _ (fun t h => wf_pages _ _ _ _ t) _)]
      exact h1.pending
  · exact ⟨h1.shd.of_shd rfl, h1.pending⟩
  · exact h1

/-- What a released hold leaves of a page with nothing to latch. -/
structure Quiet (n : Nat) (s : State) : Prop where
  pending : (getPage s n).pending = false
  shadows : ∀ k, keyAddr k / 0x1000 = n → rdShadow s k = rd s k

theorem Discarded.quiet {n : Nat} {s : State} (h : Discarded n s) : Quiet n s := ⟨h.pending, fun _ hk => h.shd.rdShadow hk⟩

theorem Quiet.of_keeps {n : Nat} {s u : State} {ps : List Part} (h : Quiet n s) (k : Keeps ps s u)
    (hn : Part.reg (pageKind n) ∉ ps) : Quiet n u := by
  obtain ⟨hr, hp⟩ := k.only _ hn
  refine ⟨by rw [hp n rfl, h.pending], fun a ha => ?_⟩
  have e : keyKind a = pageKind n := by rw [keyKind, ha]
  rw [(hr a e).1, (hr a e).2, h.shadows a ha]

/-! The bar latch, where the page of the discard is the bar's own. -/

theorem acceptEvent_shd (code : Nat) (alarm commit : Bool) (ten : Option Nat) (pl : List Byte) (s : State) :
    (acceptEvent code alarm commit ten pl s).regs.shd = s.regs.shd := by
  unfold acceptEvent
  dsimp only
  split
  · rfl
  · refine (foldl_shd _ (fun t r => ?_) _).trans rfl
    rw [dropEvent, raiseIrq_regs]
    rfl

theorem raised_shd (m b code : Nat) (ten : Option Nat) (pl : List Byte) (s : State) :
    (raiseIrq m b (event code ten pl s)).regs.shd = s.regs.shd := by
  rw [raiseIrq_regs]
  exact acceptEvent_shd _ _ _ _ _ s

theorem applyPage_idle {n slot : Nat} {s : State} (h : (getPage s n).pending = false) : applyPage n slot s = s := by
  simp [applyPage, h]

/-- A page that applies empties its own shadow and nobody else's; a page of the bar latch moves no split. -/
theorem applyPage_discarded {n m slot : Nat} (hm : splitPage m = none) (hk : pageKind m ≠ .iplP) {s : State} (h : Discarded n s) :
    Discarded n (applyPage m slot s) := by
  by_cases hn : n = m
  · subst hn
    rwa [applyPage_idle h.pending]
  unfold applyPage commitPage
  extract_lets p p' s1 s2
  split
  · have e : ∀ b u, splitMoved m b u = u := by
      intro b u
      unfold splitMoved
      rw [hm]
    rw [camApplied_id hk, e]
    have h2 : s2.regs.shd = tmerge [] (tfilter s.regs.shd fun k => !onPage m k) := by
      dsimp only [s2]
      rw [raiseIrq_regs]
      rfl
    have h3 : HeaderAlike n s s2 := by
      refine HeaderAlike.trans ?_ (raiseIrq_header n _ _ _)
      rw [HeaderAlike, getPage_putPage_ne _ _ hn]
      rfl
    refine ⟨fun k hk => ?_, ?_⟩
    · show tfind (acceptEvent _ _ _ _ _ s2).regs.shd k = none
      rw [acceptEvent_shd, h2, tfind_tmerge, tfind, tfind_tfilter]
      dsimp only
      rw [h.shd k hk, ite_self]
    · rw [getPage_congr (show (noteLatch m slot _).pages = (acceptEvent _ _ _ _ _ s2).pages from rfl),
        (h3.trans (acceptEvent_header n _ _ _ _ _ _)).pending, h.pending]
  · exact h

theorem barSplits_shd (skip : List Nat) (s : State) : (barSplits skip s).regs.shd = s.regs.shd := by
  refine foldl_shd _ (fun t h => ?_) s
  dsimp only
  split
  · rfl
  split
  · rw [raised_shd]
    rfl
  · rfl

theorem barSplits_header (n : Nat) (skip : List Nat) (s : State) : HeaderAlike n s (barSplits skip s) := by
  refine HeaderAlike.foldl _ (fun t h => ?_) s
  dsimp only
  split
  · exact HeaderAlike.of_pages rfl
  split
  · refine HeaderAlike.trans ?_ (raised_header n _ _ _ _ _ _)
    exact HeaderAlike.of_pages rfl
  · exact HeaderAlike.refl n t

theorem Discarded.of_header {n : Nat} {s u : State} (h : Discarded n s) (e : u.regs.shd = s.regs.shd) (k : HeaderAlike n s u) :
    Discarded n u := ⟨h.shd.of_shd e, k.pending.trans h.pending⟩

theorem barExtras_discarded {n slot : Nat} (skip : List Nat) {s : State} (h : Discarded n s) : Discarded n (barExtras skip slot s) := by
  unfold barExtras
  split
  · exact h
  extract_lets til s1
  have h1 : Discarded n s1 := h.of_header rfl (HeaderAlike.of_pages rfl)
  exact (h1.of_header (barSplits_shd skip s1) (barSplits_header n skip s1)).of_header rfl (HeaderAlike.of_pages rfl)

theorem armBar_discarded {n : Nat} {s : State} (h : Discarded n s) : Discarded n (armBar s) := by
  unfold armBar
  dsimp only
  split
  · exact h
  split
  · refine barExtras_discarded _ ?_
    show Discarded n (applyPage pgCal noSlot (applyPage pgKlnC noSlot (applyPage pgTilC noSlot s)))
    exact applyPage_discarded (by decide) (by decide) (applyPage_discarded (by decide) (by decide)
      (applyPage_discarded (by decide) (by decide) h))
  · exact h.of_header rfl (HeaderAlike.of_pages rfl)

/-- A released hold has nothing to latch on a page just discarded: the tables and the bar latch it lets go lie elsewhere (R52). -/
theorem holdCleared_discarded {n : Nat} {s : State} (h : Discarded n s) : Quiet n (holdCleared n s) := by
  have hk : ∀ k i, pageOf n = some (k, i) → pageKind n = k := fun k i e => by rw [pageKind, e]
  unfold holdCleared
  extract_lets p s1
  have e1 : s1 = s := if_neg (by rw [show p = getPage s n from rfl, h.pending]; decide)
  split
  · exact h.quiet
  rw [e1]
  split
  next i e =>
    exact h.quiet.of_keeps (idleTables_keeps i s (fun _ q => q) (Keeps.refl _ s)) (by rw [hk _ _ e]; decide)
  next i e =>
    split
    · exact h.quiet.of_keeps (idleEntries_keeps _ s (fun _ q => q) (Keeps.refl _ s)) (by rw [hk _ _ e]; decide)
    · exact h.quiet
  next =>
    split
    · exact (armBar_discarded h).quiet
    · exact h.quiet
  next => exact h.quiet

theorem shadowWrite_discards {n : Nat} {v : Word} {s : State} (h : v.getLsbD 3 = true) : Quiet n (shadowWrite n v s) := by
  rw [shadowWrite_eq, if_pos h]
  split
  · exact (discardShadow_discarded n _).quiet
  · exact holdCleared_discarded (discardShadow_discarded n _)

/-! ## A soft reset (R37) -/

theorem pageKind_of {n i : Nat} {k : PageKind} (h : pageOf n = some (k, i)) : pageKind n = k := by rw [pageKind, h]

theorem postLink_header (n h old new cause : Nat) (s : State) : HeaderAlike n s (postLink h old new cause s) :=
  raised_header n _ _ _ _ _ s

theorem headOff_header (n h : Nat) (s : State) : HeaderAlike n s (headOff h s) :=
  HeaderAlike.of_keeps (headOff_keeps h s (fun _ q => q) (Keeps.refl _ s)) (by simp)

theorem headLost_header {n : Nat} (hn : pageKind n = .hlk) (h : Nat) (s : State) : HeaderAlike n s (headLost h s) :=
  HeaderAlike.of_keeps (headLost_keeps h s (fun _ q => q) (Keeps.refl _ s)) (by rw [hn]; decide)

theorem headFault_header {n : Nat} (hn : pageKind n = .hlk) (h cause : Nat) (s : State) : HeaderAlike n s (headFault h cause s) := by
  unfold headFault
  split
  · exact HeaderAlike.refl n s
  · refine HeaderAlike.trans ?_ (raiseIrq_header n _ _ _)
    refine HeaderAlike.trans ?_ (raiseAlarm_header n _ _ _ _)
    refine HeaderAlike.trans ?_ (headLost_header hn h _)
    exact (headOff_header n h s).trans (HeaderAlike.of_pages rfl)

theorem setLink_header {n : Nat} (hn : pageKind n = .hlk) (h : Nat) (l : Link) (cause : Nat) (s : State) :
    HeaderAlike n s (setLink h l cause s) := by
  unfold setLink
  extract_lets old s0 s1
  have h0 : HeaderAlike n s s0 := HeaderAlike.trans (HeaderAlike.of_pages (updPort_pages h _ s)) (postLink_header n _ _ _ _ _)
  have h1 : HeaderAlike n s s1 := by
    dsimp only [s1]
    split
    · exact h0.trans (headLost_header hn h _)
    · exact h0
  split
  · exact HeaderAlike.refl n s
  split
  · exact h1.trans (headFault_header hn h 3 _)
  · exact h1

theorem train_header {n : Nat} (hn : pageKind n = .hlk) (h : Nat) (l : Link) (cause : Nat) (s : State) :
    HeaderAlike n s (train h l cause s) := by
  unfold train
  refine HeaderAlike.trans ?_ (setLink_header hn h l cause _)
  refine HeaderAlike.of_keeps (ps := [.free, .ports]) (updPort_keeps h _ _ (by decide) ?_) (by simp)
  exact drawScr_keeps _ (by decide) (drawScr_keeps s (by decide) (Keeps.refl _ s))

theorem portRefresh_header {n : Nat} (hn : pageKind n = .hlk) (h : Nat) (s : State) : HeaderAlike n s (portRefresh h s) := by
  unfold portRefresh
  dsimp only
  split
  case h_1 | h_2 => exact train_header hn _ _ _ _
  case h_5 | h_6 => exact setLink_header hn _ _ _ _
  case h_8 => exact (HeaderAlike.of_pages rfl).trans (setLink_header hn _ _ _ _)
  case h_3 | h_4 | h_7 => exact HeaderAlike.refl n s

theorem pifRefresh_header (n c : Nat) (s : State) : HeaderAlike n s (pifRefresh c s) := by
  unfold pifRefresh
  dsimp only
  split
  · exact HeaderAlike.refl n s
  split
  · exact HeaderAlike.of_pages rfl
  · refine HeaderAlike.of_keeps (ps := [.kln, .pif]) (encoderBad_keeps c _ (by decide) ?_) (by simp)
    exact updPif_keeps c _ s (by decide) (Keeps.refl _ s)

theorem setFan_header (n i st : Nat) (s : State) : HeaderAlike n s (setFan i st s) := by
  unfold setFan
  extract_lets x s1 s2 s3 stk
  have h2 : HeaderAlike n s s2 := by
    refine HeaderAlike.trans ?_ (HeaderAlike.of_keeps (noteSpeed_keeps i _ (fun _ q => q) (Keeps.refl _ _)) (by simp))
    refine HeaderAlike.trans ?_ (raised_header n pgFan 7 _ _ _ _)
    exact HeaderAlike.of_pages rfl
  split
  · exact h2.trans ((raiseAlarm_header n _ _ _ _).trans (raiseIrq_header n _ _ _))
  · have h3 : HeaderAlike n s2 s3 := HeaderAlike.trans (raiseAlarm_header n _ _ _ s2) (raiseIrq_header n _ _ _)
    exact (h2.trans h3).trans (HeaderAlike.of_pages rfl)
  · exact h2

theorem fansOff_header (n : Nat) (s : State) : HeaderAlike n s (fansOff s) := by
  refine HeaderAlike.foldl _ (fun t i => ?_) s
  dsimp only
  split
  · exact HeaderAlike.of_pages rfl
  · exact HeaderAlike.trans (HeaderAlike.of_pages rfl) (setFan_header n i 0 _)

theorem stookEmpty_header (n : Nat) (s : State) : HeaderAlike n s (stookEmpty s) := by
  unfold stookEmpty
  extract_lets s0 s1 s2
  have h1 : HeaderAlike n s s1 :=
    HeaderAlike.trans (HeaderAlike.of_pages rfl) (HeaderAlike.foldl _ (fun t e => HeaderAlike.foldl _ (fun u r => dropEvent_header n e r u) t) _)
  refine h1.trans (HeaderAlike.trans ?_ (HeaderAlike.foldl _ (fun t x => ?_) _))
  · exact HeaderAlike.of_pages rfl
  · exact HeaderAlike.of_pages rfl

theorem trmOff_header (n : Nat) (s : State) : HeaderAlike n s (trmOff s) := by
  unfold trmOff setTrm
  dsimp only
  split
  · exact HeaderAlike.of_pages rfl
  · refine HeaderAlike.trans (HeaderAlike.trans ?_ (raised_header n pgTrm 4 _ _ _ _)) (HeaderAlike.of_pages rfl)
    exact HeaderAlike.of_pages rfl

/-- What a soft reset does beside the registers leaves the page's own header but for its interrupt bits. -/
theorem unitReset_header (n : Nat) (s : State) : HeaderAlike n s (unitReset n s) := by
  unfold unitReset
  split
  next h e => exact (headOff_header n h s).trans (portRefresh_header (pageKind_of e) h _)
  next => exact pifRefresh_header n _ s
  next => exact fansOff_header n s
  next => exact stookEmpty_header n s
  next => exact trmOff_header n s
  next => exact HeaderAlike.of_pages rfl
  next => exact HeaderAlike.of_pages rfl
  next => exact HeaderAlike.refl n s

theorem softResetStart_page (n : Nat) (s : State) : (getPage (softResetStart n s) n).inReset = true ∧
    (getPage (softResetStart n s) n).en = !hasSrst (pageKind n) ∧ (getPage (softResetStart n s) n).pending = false := by
  unfold softResetStart
  extract_lets mine isB act regs sag s1
  have h := unitReset_header n (updPage n (fun p => { p with en := !hasSrst (pageKind n), inReset := true }) s1)
  rw [h.inReset, h.en, h.pending, getPage_updPage_self]
  exact ⟨rfl, rfl, (discardShadow_discarded n _).pending⟩

end Sys2Proof.Machine
end

section
/-! SUPPORT. What enabling a head port or a position channel does (R305, R318, R327), and the proof of O27. -/

namespace Sys2Proof.Machine
open Sys2Proof

/-! ## Enabling a port (R318) -/

theorem setLink_off {h : Nat} {l : Link} {s : State} (hs : (port s h).link = .off) (hl : l ≠ .off) (cause : Nat) :
    setLink h l cause s = postLink h Link.off.code l.code cause (updPort h (fun x => { x with link := l }) s) := by
  simp [setLink, hs, Ne.symm hl]

theorem pageOf_pgHlk (h : Fin 64) : pageOf (pgHlk h.val) = some (.hlk, h.val) := by revert h; decide

theorem pageOf_pgPif (c : Fin 4) : pageOf (pgPif c.val) = some (.pifCh, c.val) := by revert c; decide

/-- A port at the start of training: its lane and queues empty, its link not moved yet. -/
structure TrainReset (h : Nat) (s u : State) : Prop where
  link : (port u h).link = (port s h).link
  pwren : (port u h).pwren = (port s h).pwren
  align : (port u h).align = 0
  descr : (port u h).descr = false
  ready : (port u h).ready = false
  others : ∀ g, g ≠ h → port u g = port s g
  keeps : Keeps [.free, .ports] s u

theorem train_reset (h : Nat) (l : Link) (cause : Nat) (s : State) : ∃ u, train h l cause s = setLink h l cause u ∧ TrainReset h s u := by
  unfold train
  extract_lets a b
  have hf : Keeps [.free] s b.2 := drawScr_keeps _ (by decide) (drawScr_keeps s (by decide) (Keeps.refl _ s))
  have hp : b.2.ports = s.ports := hf.only .ports (by decide)
  refine ⟨_, rfl, ?_, ?_, ?_, ?_, ?_, fun g hg => ?_, updPort_keeps h _ _ (by decide) (hf.mono (by decide))⟩
  · rw [port_updPort_self, port_congr hp]
  · rw [port_updPort_self, port_congr hp]
  · rw [port_updPort_self]
  · rw [port_updPort_self]
  · rw [port_updPort_self]
  · rw [port_updPort_ne _ _ hg, port_congr hp]

theorem port_postLink (h old new cause : Nat) (s : State) (g : Nat) : port (postLink h old new cause s) g = port s g :=
  port_congr ((postLink_keeps h old new cause s (fun _ q => q) (Keeps.refl _ s)).only .ports (by decide)) g

/-- A port that leaves OFF to train: its link and alignment, and no other port. -/
structure StartedTraining (h : Nat) (l : Link) (s t : State) : Prop where
  link : (port t h).link = l
  align : (port t h).align = 0
  others : ∀ g, g ≠ h → port t g = port s g
  only : Only [.free, .msix, .out, .ports, .reg .hlk, .reg .stk, .rings, .stk] s t

theorem train_off {h : Nat} {l : Link} {s : State} (hs : (port s h).link = .off) (hl : l ≠ .off) (cause : Nat) :
    StartedTraining h l s (train h l cause s) := by
  obtain ⟨u, e, hu⟩ := train_reset h l cause s
  rw [e, setLink_off (hu.link.trans hs) hl]
  refine ⟨?_, ?_, fun g hg => ?_, ?_⟩
  · rw [port_postLink, port_updPort_self]
  · rw [port_postLink, port_updPort_self]
    exact hu.align
  · rw [port_postLink, port_updPort_ne _ _ hg, hu.others g hg]
  · exact (postLink_keeps _ _ _ _ _ (by decide) (updPort_keeps _ _ _ (by decide) (hu.keeps.mono (by decide)))).only

theorem portRefresh_framed {h : Nat} {s : State} (hm : portMode s h = 1) (he : (getPage s (pgHlk h)).en = true)
    (hl : (port s h).link = .off) : portRefresh h s = train h .training 0 s := by
  simp [portRefresh, headEnabled, hm, he, hl]

/-! ## Enabling a position channel (R327) -/

/-- A channel that starts: at position 0 and with no reference, and no other channel. -/
structure StartedChannel (c : Nat) (s t : State) : Prop where
  enabled : (pif t c).enabled = true
  pos : (pif t c).pos = 0
  ref : (pif t c).ref = none
  others : ∀ d, d ≠ c → pif t d = pif s d
  only : Only [.pif, .reg .pifCh] s t

theorem pif_updPif_self (c : Nat) (f : PifCh → PifCh) (s : State) : pif (updPif c f s) c = f (pif s c) := tget_tput_self _ _ _ _

theorem pif_updPif_ne {c d : Nat} (f : PifCh → PifCh) (s : State) (h : d ≠ c) : pif (updPif c f s) d = pif s d := tget_tput_ne _ _ _ h

theorem pif_wf (k hi lo v : Nat) (s : State) (c : Nat) : pif (wf k hi lo v s) c = pif s c := rfl

theorem pifRefresh_starts {c : Nat} {s : State} (he : (getPage s (pgPif c)).en = true) (hx : (pif s c).enabled = false) :
    StartedChannel c s (pifRefresh c s) := by
  unfold pifRefresh
  extract_lets en x t
  rw [if_neg (by rw [show en = true from he, show x.enabled = false from hx]; decide), if_pos he]
  refine ⟨?_, ?_, ?_, fun d hd => ?_, ?_⟩
  · rw [pif_wf, pif_updPif_self]
  · rw [pif_wf, pif_updPif_self]
    rfl
  · rw [pif_wf, pif_updPif_self]
    rfl
  · rw [pif_wf, pif_updPif_ne _ _ hd]
  · exact (wf_keeps _ _ _ _ _ (by simp) (updPif_keeps _ _ _ (by decide) (Keeps.refl _ s))).only

/-- EN and CGA written to a page's control register. -/
def ctrlBits (n : Nat) (v : Word) (s : State) : State :=
  updPage n (fun p => { p with en := v.getLsbD 0 }) (updPage n (fun p => { p with cga := v.getLsbD 2 }) s)

theorem ctrlBits_en (n : Nat) (v : Word) (s : State) : (getPage (ctrlBits n v s) n).en = v.getLsbD 0 := by
  rw [ctrlBits, getPage_updPage_self]

theorem ctrlBits_keeps (n : Nat) (v : Word) (s : State) : Keeps [.reg (pageKind n)] s (ctrlBits n v s) :=
  updPage_keeps _ _ _ (fun _ q => q) (updPage_keeps _ _ _ (fun _ q => q) (Keeps.refl _ s))

theorem Only.trans {ps : List Part} {s t u : State} (h : Only ps s t) (k : Only ps t u) : Only ps s u :=
  fun p hp => Part.same_trans p (h p hp) (k p hp)

theorem hlkEnable {h : Fin 64} {v : Word} {s : State} (h1 : v.getLsbD 1 = false) (h0 : v.getLsbD 0 = true)
    (hm : portMode s h.val = 1) (hl : (port s h.val).link = .off) :
    (getPage (pgCtrlWrite (pgHlk h.val) v s) (pgHlk h.val)).en = true ∧
      StartedTraining h.val .training s (pgCtrlWrite (pgHlk h.val) v s) := by
  have hk := ctrlBits_keeps (pgHlk h.val) v s
  have he := (ctrlBits_en (pgHlk h.val) v s).trans h0
  have e : pgCtrlWrite (pgHlk h.val) v s = train h.val .training 0 (ctrlBits (pgHlk h.val) v s) := by
    rw [pgCtrlWrite_en (by rw [pageKind_pgHlk]; rfl) h1, enChanged, pageOf_pgHlk]
    exact portRefresh_framed hm he hl
  obtain ⟨hlink, halign, hothers, honly⟩ := train_off (l := .training) (s := ctrlBits (pgHlk h.val) v s) hl (by decide) 0
  rw [e]
  refine ⟨?_, hlink, halign, hothers, ?_⟩
  · rw [(train_header (pageKind_pgHlk _) _ _ _ _).en, he]
  · exact (hk.only.mono (by simp)).trans honly

theorem pifEnable {c : Fin 4} {v : Word} {s : State} (h1 : v.getLsbD 1 = false) (h0 : v.getLsbD 0 = true)
    (hx : (pif s c.val).enabled = false) :
    (getPage (pgCtrlWrite (pgPif c.val) v s) (pgPif c.val)).en = true ∧ StartedChannel c.val s (pgCtrlWrite (pgPif c.val) v s) := by
  have hk := ctrlBits_keeps (pgPif c.val) v s
  have he := (ctrlBits_en (pgPif c.val) v s).trans h0
  have e : pgCtrlWrite (pgPif c.val) v s = pifRefresh c.val (ctrlBits (pgPif c.val) v s) := by
    rw [pgCtrlWrite_en (by rw [pageKind_pgPif]; rfl) h1, enChanged, pageOf_pgPif]
    rfl
  obtain ⟨hen, hpos, href, hothers, honly⟩ := pifRefresh_starts (s := ctrlBits (pgPif c.val) v s) he hx
  rw [e]
  refine ⟨?_, hen, hpos, href, hothers, ?_⟩
  · rw [(pifRefresh_header _ _ _).en, he]
  · exact (hk.only.mono (by simp)).trans honly

theorem notePage_deferred (n : Nat) (s : State) : (getPage (notePage n s) n).deferred = (getPage s n).deferred := by
  unfold notePage
  dsimp only
  split
  · rfl
  · rw [getPage_putPage_self]

theorem notePage_page_ne {n m : Nat} (s : State) (h : m ≠ n) : getPage (notePage n s) m = getPage s m := by
  unfold notePage
  dsimp only
  split
  · rfl
  · rw [getPage_putPage_ne _ _ h]

theorem shadowBits_hold {n : Nat} {v : Word} {s : State} (h2 : v.getLsbD 2 = true) :
    (getPage (shadowBits n v s) n = { getPage (notePage n s) n with
        hold := true, view := v.getLsbD 4, deferred := (getPage s n).deferred && !v.getLsbD 1 } ∧
      ∀ m, m ≠ n → getPage (shadowBits n v s) m = getPage s m) ∧ Only [.reg (pageKind n)] s (shadowBits n v s) := by
  refine ⟨⟨?_, fun m hm => ?_⟩, ?_⟩
  · rw [shadowBits, getPage_updPage_self, notePage_deferred, h2]
  · rw [shadowBits, getPage_updPage_ne _ _ hm, notePage_page_ne s hm]
  · exact (updPage_keeps _ _ _ (fun _ q => q) (notePage_keeps n s (fun _ q => q) (Keeps.refl _ s))).only

/-- Settles O27: the page header's writes one by one, each by what its operation does to the header it names. -/
theorem headerWritesLand : Obligations.HeaderWritesLand := by
  refine ⟨fun ini page v s hw hr => ?_, fun ini page v s hw hr => ?_, fun ini page v s hw hr h31 => ?_, fun ini page v s hw hr h3 => ?_,
    fun ini page v s hw hr h3 h2 => ?_, fun ini v s hw hr h17 => ?_, fun v s hw hr h17 => ?_, fun ini page v s hw hr h1 hk hb => ?_,
    fun page s hu => ?_, fun ini h v s hw hr h1 h0 hm hl => ?_, fun ini c v s hw hr h1 h0 hx => ?_⟩
  · refine ⟨_, congrArg Host.Outcome.next (guardWrite_writable hw hr _), ⟨?_, fun n hn => ?_⟩, updPage_only _ _ s⟩
    · exact getPage_updPage_self _ _ _
    · exact getPage_updPage_ne _ _ hn
  · refine ⟨_, congrArg Host.Outcome.next (guardWrite_writable hw hr _), ⟨?_, fun n hn => ?_⟩, ?_⟩
    · exact raiseBits_page _ _ _
    · exact raiseBits_page_ne _ _ hn
    · exact (raiseBits_keeps _ _ _ (fun _ q => q) (Keeps.refl _ s)).only
  · refine ⟨_, congrArg Host.Outcome.next (guardWrite_writable hw hr _), ?_⟩
    rw [pgErrWrite_clr h31]
    exact ⟨⟨getPage_updPage_self _ _ _, fun n hn => getPage_updPage_ne _ _ hn⟩, updPage_only _ _ s⟩
  · obtain ⟨hp, hs⟩ := shadowWrite_discards (n := page.toNat) (s := s) h3
    exact next_at (execShadowDiscard_keeps ini page v s) (by simp [mem_allRegs])
      (congrArg Host.Outcome.next (guardWrite_writable hw hr _)) ⟨hp, hs⟩
  · refine ⟨_, congrArg Host.Outcome.next (guardWrite_writable hw hr _), ?_⟩
    have e : shadowWrite page.toNat v s = shadowBits page.toNat v s := by
      rw [shadowWrite_eq, if_pos h2, if_neg (by rw [h3]; decide)]
    rw [e]
    exact shadowBits_hold h2
  · have hh := holdRelWrite_holds (s := s) (Or.inl h17 : v.getLsbD 17 = false ∨ ini = .core)
    refine next_at (execHoldRelease_keeps ini v s) (fun _ q => q) (congrArg Host.Outcome.next (guardWrite_writable hw hr _))
      ⟨fun n hn => ?_, fun n hn => ?_⟩
    · rw [(hh n).1, if_pos ⟨hn, h17⟩]
    · rw [(hh n).1, if_neg fun q => hn q.1]
  · have hh := holdRelWrite_holds (ini := .core) (v := v) (s := s) (Or.inr rfl)
    refine next_at (execCmdHoldRelease_keeps .core v s) (fun _ q => q) (congrArg Host.Outcome.next (guardWrite_writable hw hr _))
      ⟨fun n hn => ?_, fun n => ?_⟩
    · rw [(hh n).2, if_pos ⟨hn, h17⟩]
    · rw [(hh n).1, if_neg fun q => Bool.noConfusion (h17.symm.trans q.2)]
  · refine next_at (execSoftReset_keeps ini page v s) (by simp [mem_allRegs]) (execSoftReset_writable hw hr) ?_
    rw [pgCtrlWrite_idle hk h1 hb]
    obtain ⟨hi, he, hp⟩ := softResetStart_page page.toNat (updPage page.toNat (fun p => { p with cga := v.getLsbD 2 }) s)
    exact ⟨hi, by rw [he, hk]; rfl, hp⟩
  · refine ⟨_, congrArg Host.Outcome.next (if_pos hu), ⟨?_, fun n hn => ?_⟩, updPage_only _ _ s⟩
    · exact getPage_updPage_self _ _ _
    · exact getPage_updPage_ne _ _ hn
  · obtain ⟨he, hlink, halign, hothers, honly⟩ := hlkEnable h1 h0 hm hl
    exact ⟨_, congrArg Host.Outcome.next (guardWrite_writable hw hr _), ⟨he, hlink, halign, hothers⟩, honly⟩
  · obtain ⟨he, hen, hpos, href, hothers, honly⟩ := pifEnable h1 h0 hx
    exact ⟨_, congrArg Host.Outcome.next (guardWrite_writable hw hr _), ⟨he, hen, hpos, href, hothers⟩, honly⟩

end Sys2Proof.Machine
end

section
/-! SUPPORT. The proofs of what the host's writes to the link do (O35). -/

namespace Sys2Proof.Machine
open Sys2Proof

/-! ## Doorbells (R72 to R75) -/

theorem execDoorbell_write {n : Fin 8192} {off : BitVec 12} {v : Word} {be : BitVec 4} {s : State} (hc : clocked s = true)
    (ho : off = 0#12) : exec (.doorbell n off true v be) s = .next (doorbell n.val v be s) := by
  subst ho
  exact congrArg Host.Outcome.next (by simp [barTwo, hc])

theorem ring_inc (k n : Nat) (s : State) (m : Nat) : ring (inc k n s) m = ring s m := rfl

theorem doorbell_inactive {n : Nat} {v : Word} {be : BitVec 4} {s : State} (h : (ring s n).state ≠ .active) :
    doorbell n v be s = inc Reg.HIF_DB_IGN_CNT 1 (updRing n (fun x => { x with dbIgn := min 65535 (x.dbIgn + 1) }) s) := by
  rw [doorbell, if_pos h]

section
variable {n : Nat} {v : Word} {s : State} (ha : (ring s n).state = .active) (h1 : bits 29 17 v.toNat = 0) (h2 : bits 31 31 v.toNat = 0)
  (hv : doorbellValid (ring s n) (bits 16 0 v.toNat) = true)
include ha h1 h2 hv

theorem doorbell_produces (hp : (ring s n).hostProduced = true) : doorbell n v 0xF#4 s =
    let s1 := putRing n { ring s n with pi := bits 16 0 v.toNat } s
    if s1.pwr.state = .standby then startExit 3 s1 else s1 := by
  simp [doorbell, ha, h1, h2, hv, hp]

theorem doorbell_consumes (hp : (ring s n).hostProduced = false) : doorbell n v 0xF#4 s =
    let s1 := putRing n { ring s n with
      ci := bits 16 0 v.toNat, entries := (ring s n).entries.drop (idxSub (bits 16 0 v.toNat) (ring s n).ci) } s
    if bits 30 30 v.toNat = 1 then armRing n s1 else s1 := by
  simp [doorbell, ha, h1, h2, hv, hp]

end

/-- Arming a ring changes that ring alone, and of it nothing but arming and signalling. -/
theorem ring_armRing_ne {n m : Nat} (s : State) (h : m ≠ n) : ring (armRing n s) m = ring s m := by
  unfold armRing
  dsimp only
  split
  · rw [ring_signalRing_ne _ h, ring_updRing_ne _ _ h]
  · rw [ring_updRing_ne _ _ h]

theorem ring_armRing_field {α : Type} (g : Ring → α) (h : ∀ r : Ring, g { r with wbPending := false } = g r)
    (h' : ∀ r : Ring, g { r with armed := false, sinceArm := 0, unsignalled := false, timing := false } = g r)
    (h2 : ∀ r : Ring, g { r with armed := true, sinceArm := 0, timing := r.unsignalled } = g r) (n m : Nat) (s : State) :
    g (ring (armRing n s) m) = g (ring s m) := by
  unfold armRing
  dsimp only
  split
  · rw [ring_signalRing_field g h h', ring_updRing_field g s m (h2 _)]
  · rw [ring_updRing_field g s m (h2 _)]

/-- A ring with nothing unsignalled is armed and stays so. -/
theorem ring_armRing_self {n : Nat} {s : State} (h : (ring s n).unsignalled = false) :
    (ring (armRing n s) n).armed = true ∧ (ring (armRing n s) n).sinceArm = 0 := by
  unfold armRing
  simp [h]

theorem startExit_rings (c : Nat) (s : State) : (startExit c s).hif.rings = s.hif.rings := by
  unfold startExit
  split <;> rfl

/-- What a good doorbell leaves of the rings and of Governor's state (R73, R75, R538). -/
structure Rung (n : Nat) (v : Word) (s t : State) : Prop where
  produces : (ring s n).hostProduced = true → ring t n = { ring s n with pi := bits 16 0 v.toNat } ∧
    (s.pwr.state = .standby → s.pwr.toward = none → t.pwr.toward = some .run)
  consumes : (ring s n).hostProduced = false → (ring t n).ci = bits 16 0 v.toNat ∧
    (ring t n).entries = (ring s n).entries.drop (idxSub (bits 16 0 v.toNat) (ring s n).ci) ∧
    (bits 30 30 v.toNat = 1 → (ring s n).unsignalled = false → (ring t n).armed = true ∧ (ring t n).sinceArm = 0)
  others : ∀ m, m ≠ n → ring t m = ring s m

theorem doorbell_rung {n : Nat} {v : Word} {s : State} (ha : (ring s n).state = .active) (h1 : bits 29 17 v.toNat = 0)
    (h2 : bits 31 31 v.toNat = 0) (hv : doorbellValid (ring s n) (bits 16 0 v.toNat) = true) : Rung n v s (doorbell n v 0xF#4 s) := by
  cases hp : (ring s n).hostProduced with
  | true =>
    rw [doorbell_produces ha h1 h2 hv hp]
    refine ⟨fun _ => ⟨?_, fun hs ht => ?_⟩, fun h => Bool.noConfusion (hp.symm.trans h), fun m hm => ?_⟩ <;> dsimp only
    · split
      · rw [ring_congr (startExit_rings _ _), ring_putRing_self]
      · rw [ring_putRing_self]
    · rw [if_pos (show (putRing n _ s).pwr.state = .standby from hs), startExit, show (putRing n _ s).pwr.toward = none from ht]
    · split
      · rw [ring_congr (startExit_rings _ _), ring_putRing_ne _ _ hm]
      · rw [ring_putRing_ne _ _ hm]
  | false =>
    rw [doorbell_consumes ha h1 h2 hv hp]
    refine ⟨fun h => Bool.noConfusion (hp.symm.trans h), fun _ => ⟨?_, ?_, fun hb hu => ?_⟩, fun m hm => ?_⟩ <;> dsimp only
    · split
      · rw [ring_armRing_field Ring.ci (fun _ => rfl) (fun _ => rfl) (fun _ => rfl), ring_putRing_self]
      · rw [ring_putRing_self]
    · split
      · rw [ring_armRing_field Ring.entries (fun _ => rfl) (fun _ => rfl) (fun _ => rfl), ring_putRing_self]
      · rw [ring_putRing_self]
    · rw [if_pos hb]
      exact ring_armRing_self (by rw [ring_putRing_self]; exact hu)
    · split
      · rw [ring_armRing_ne _ hm, ring_putRing_ne _ _ hm]
      · rw [ring_putRing_ne _ _ hm]

/-! ## HIF_CTRL.RUN (R89, R90) -/

theorem ring_startRings_zero (s : State) : ring (startRings s) 0 = { Ring.init with
    state := .active, typ := .command, log2 := rf s Reg.HIF_SYS_SIZE 3 0, paired := 1,
    base := BitVec.ofNat 64 (rn64 s Reg.HIF_SYS_CMD_BASE), wb := BitVec.ofNat 64 (rn64 s Reg.HIF_SYS_WB_BASE) } := by
  unfold startRings
  rw [ring_putRing_ne _ _ (by decide), ring_putRing_self]

theorem ring_startRings_one (s : State) : ring (startRings s) 1 = { Ring.init with
    state := .active, typ := .completion, log2 := rf s Reg.HIF_SYS_SIZE 7 4, vector := rf s Reg.HIF_SYS_SIZE 18 8,
    base := BitVec.ofNat 64 (rn64 s Reg.HIF_SYS_CPL_BASE), wb := BitVec.ofNat 64 (rn64 s Reg.HIF_SYS_WB_BASE + 8),
    imodCnt := rf s Reg.HIF_SYS_IMOD 7 0, imodTime := rf s Reg.HIF_SYS_IMOD 31 16, armed := true } := by
  unfold startRings
  rw [ring_putRing_self]

/-- HIF_CTRL after a write of it: RUN set or kept, and bit 1 as written. -/
def ctrlWritten (v : Word) (s : State) : State :=
  wn Reg.HIF_CTRL ((if rbit s Reg.HIF_CTRL 0 then 1 else v.toNat % 2) + v.toNat / 2 % 2 * 2) s

theorem ctrlWritten_run (v : Word) (s : State) :
    rbit (ctrlWritten v s) Reg.HIF_CTRL 0 = (rbit s Reg.HIF_CTRL 0 || v.getLsbD 0) := by
  rw [← bitOf_eq, rbit, ctrlWritten, rn_wn_self]
  cases rbit s Reg.HIF_CTRL 0 <;> simp

theorem ctrlWritten_bit1 (v : Word) (s : State) : rbit (ctrlWritten v s) Reg.HIF_CTRL 1 = v.getLsbD 1 := by
  rw [← bitOf_eq, rbit, ctrlWritten, rn_wn_self]
  split <;> simp <;> omega

theorem ctrlWritten_others (v : Word) (s : State) {k : Nat} (h : k ≠ Reg.HIF_CTRL) : rn (ctrlWritten v s) k = rn s k :=
  rn_wn_ne _ s h

theorem rf_ctrlWritten (v : Word) (s : State) {k : Nat} (h : k ≠ Reg.HIF_CTRL) (a b : Nat) :
    rf (ctrlWritten v s) k a b = rf s k a b := by
  rw [rf, ctrlWritten_others v s h, rf]

theorem rn64_ctrlWritten (v : Word) (s : State) {k : Nat} (h : k ≠ Reg.HIF_CTRL) (h4 : k + 4 ≠ Reg.HIF_CTRL) :
    rn64 (ctrlWritten v s) k = rn64 s k := by
  rw [rn64, ctrlWritten_others v s h, ctrlWritten_others v s h4, rn64]

theorem hifCtrlWrite_eq (v : Word) (s : State) : hifCtrlWrite v s =
    if rbit s Reg.HIF_CTRL 0 = false ∧ v.getLsbD 0 = true then startRings (ctrlWritten v s) else ctrlWritten v s := by
  have h : (!rbit s Reg.HIF_CTRL 0 && rbit (ctrlWritten v s) Reg.HIF_CTRL 0) =
      decide (rbit s Reg.HIF_CTRL 0 = false ∧ v.getLsbD 0 = true) := by
    rw [ctrlWritten_run]
    cases rbit s Reg.HIF_CTRL 0 <;> simp
  show (if (!rbit s Reg.HIF_CTRL 0 && rbit (ctrlWritten v s) Reg.HIF_CTRL 0) = true then _ else ctrlWritten v s) = _
  simp only [h, decide_eq_true_eq]
  rfl

/-- What a write of HIF_CTRL leaves of that register, and of the rings (R89, R90). -/
structure RunWritten (v : Word) (s t : State) : Prop where
  run : rbit t Reg.HIF_CTRL 0 = (rbit s Reg.HIF_CTRL 0 || v.getLsbD 0)
  bit1 : rbit t Reg.HIF_CTRL 1 = v.getLsbD 1
  starts : rbit s Reg.HIF_CTRL 0 = false → v.getLsbD 0 = true → t = startRings (ctrlWritten v s)
  stays : rbit s Reg.HIF_CTRL 0 = true ∨ v.getLsbD 0 = false → t.hif.rings = s.hif.rings

theorem hifCtrlWrite_written (v : Word) (s : State) : RunWritten v s (hifCtrlWrite v s) := by
  rw [hifCtrlWrite_eq]
  split
  next h =>
    refine ⟨ctrlWritten_run v s, ctrlWritten_bit1 v s, fun _ _ => rfl, fun k => ?_⟩
    rcases k with k | k
    · exact Bool.noConfusion (h.1.symm.trans k)
    · exact Bool.noConfusion (h.2.symm.trans k)
  next h => exact ⟨ctrlWritten_run v s, ctrlWritten_bit1 v s, fun k1 k2 => absurd ⟨k1, k2⟩ h, fun _ => rfl⟩

/-! ## Messages that wait for bus mastering (R65, R82) -/

theorem exists_of_tfind {α : Type} {t : Tab α} {k : Nat} {v : α} (h : tfind t k = some v) : (k, v) ∈ t := by
  induction t with
  | nil => cases h
  | cons e t ih =>
    obtain ⟨j, w⟩ := e
    rw [tfind] at h
    split at h
    next hj =>
      obtain rfl := Option.some.inj h
      rw [hj]
      exact List.mem_cons_self
    next => exact List.mem_cons_of_mem _ (ih h)

/-- A pending vector's message goes out where the vector is not masked. -/
def sendPending (t : State) (v : Nat) : State :=
  if tget t.hif.masked true v then t
  else emit (.msix v) { t with hif := { t.hif with msixPend := tput t.hif.msixPend v false } }

theorem sendPending_masked (t : State) (v : Nat) : (sendPending t v).hif.masked = t.hif.masked := by
  unfold sendPending
  split <;> rfl

theorem sendPending_pend {t : State} {v w : Nat} (h : tget (sendPending t v).hif.msixPend false w = true) :
    tget t.hif.msixPend false w = true ∧ (v = w → tget t.hif.masked true w = true) := by
  unfold sendPending at h
  split at h
  next hm => exact ⟨h, fun e => e ▸ hm⟩
  next hm =>
    by_cases hv : v = w
    · subst hv
      rw [show (emit _ _).hif.msixPend = tput t.hif.msixPend v false from rfl, tget_tput_self] at h
      cases h
    · rw [show (emit _ _).hif.msixPend = tput t.hif.msixPend v false from rfl, tget_tput_ne _ _ _ (Ne.symm hv)] at h
      exact ⟨h, fun e => absurd e hv⟩

theorem sendAll_pend {l : List (Nat × Bool)} {t : State} {w : Nat}
    (h : tget (l.foldl (fun t e => sendPending t e.1) t).hif.msixPend false w = true) :
    tget t.hif.msixPend false w = true ∧ ((∃ e ∈ l, e.1 = w) → tget t.hif.masked true w = true) := by
  induction l generalizing t with
  | nil => exact ⟨h, fun ⟨_, he, _⟩ => nomatch he⟩
  | cons a l ih =>
    obtain ⟨h1, h2⟩ := ih h
    obtain ⟨h3, h4⟩ := sendPending_pend h1
    rw [sendPending_masked] at h2
    refine ⟨h3, fun ⟨e, he, hw⟩ => ?_⟩
    rcases List.mem_cons.mp he with rfl | he
    · exact h4 hw
    · exact h2 ⟨e, he, hw⟩

theorem flushMessages_eq {s : State} (h : canIssue s = true) : flushMessages s =
    (((s.hif.rings.map (·.1)).foldl (fun t n => writeback n t) s).hif.msixPend.filter fun e => e.2).foldl
      (fun t e => sendPending t e.1) ((s.hif.rings.map (·.1)).foldl (fun t n => writeback n t) s) := by
  rw [flushMessages, if_pos h]
  rfl

/-- Part `hif` is the host interface but for rings and pending messages. -/
theorem hif_of_same {s t : State} (h : Part.same s t .hif) : t.hif.cfg = s.hif.cfg ∧ t.hif.masked = s.hif.masked :=
  ⟨(congrArg Hif.cfg h :), (congrArg Hif.masked h :)⟩

/-- Where requests may be issued, only masked vectors' messages still wait. -/
theorem flushMessages_sent {s : State} (h : canIssue s = true) {v : Nat}
    (hv : tget (flushMessages s).hif.msixPend false v = true) : tget s.hif.masked true v = true := by
  rw [flushMessages_eq h] at hv
  obtain ⟨h1, h2⟩ := sendAll_pend hv
  have hk : Keeps [.out, .reg .stk, .rings, .stk] s ((s.hif.rings.map (·.1)).foldl (fun t n => writeback n t) s) :=
    Keeps.foldl (fun t n k => writeback_keeps n t (fun _ q => q) k) (Keeps.refl _ s)
  rw [← (hif_of_same (hk.only .hif (by decide))).2]
  refine h2 ⟨(v, true), List.mem_filter.mpr ⟨exists_of_tfind ?_, rfl⟩, rfl⟩
  rw [tget] at h1
  cases hf : tfind ((s.hif.rings.map (·.1)).foldl (fun t n => writeback n t) s).hif.msixPend v with
  | none => rw [hf] at h1; cases h1
  | some b => rw [hf] at h1; rw [show b = true from h1]

theorem flushMessages_hif (s : State) : Part.same s (flushMessages s) .hif :=
  (flushMessages_keeps s (fun _ q => q) (Keeps.refl _ s)).only .hif (by decide)

/-- An update of the latency tolerance leaves configuration, masks and pending messages. -/
theorem ltrUpdate_hif (s : State) : (ltrUpdate s).hif.cfg = s.hif.cfg ∧ (ltrUpdate s).hif.masked = s.hif.masked ∧
    (ltrUpdate s).hif.msixPend = s.hif.msixPend := by
  unfold ltrUpdate
  split
  · exact ⟨rfl, rfl, rfl⟩
  split
  · split
    · split <;> exact ⟨rfl, rfl, rfl⟩
    · exact ⟨rfl, rfl, rfl⟩
  · split
    · split <;> exact ⟨rfl, rfl, rfl⟩
    · exact ⟨rfl, rfl, rfl⟩

theorem cfgPut_d3hot (f : CfgField) (c : PciCfg) : (cfgPut f c).d3hot = c.d3hot := by cases f <;> rfl

theorem cfgPuts_d3hot (l : List CfgField) (c : PciCfg) : (l.foldl (fun c f => cfgPut f c) c).d3hot = c.d3hot := by
  induction l generalizing c with
  | nil => rfl
  | cons f l ih => rw [List.foldl_cons, ih, cfgPut_d3hot]

theorem configWrite_cfg (on : Bool) (fields : List CfgField) (s : State) :
    (configWrite on fields s).hif.cfg = { fields.foldl (fun c f => cfgPut f c) s.hif.cfg with busMaster := on } := by
  rw [configWrite, (ltrUpdate_hif _).1, (hif_of_same (flushMessages_hif _)).1]

theorem configWrite_sent {fields : List CfgField} {s : State} (hd : s.hif.cfg.d3hot = false) {v : Nat}
    (hv : tget (configWrite true fields s).hif.msixPend false v = true) : tget s.hif.masked true v = true := by
  rw [configWrite, (ltrUpdate_hif _).2.2] at hv
  have h := fun hc => flushMessages_sent hc hv
  exact h (by simp [canIssue, cfgPuts_d3hot, hd])

/-! ## Unmasking a vector (R82) -/

theorem unmask_sends {v : Nat} {s : State} (hp : tget s.hif.msixPend false v = true) (hc : canIssue s = true) :
    unmask v s = emit (.msix v) { s with hif := { s.hif with
      masked := tput s.hif.masked v false, msixPend := tput s.hif.msixPend v false } } := by
  rw [unmask]
  exact if_pos (Bool.and_eq_true_iff.mpr ⟨hp, hc⟩)

theorem unmask_quiet {v : Nat} {s : State} (h : tget s.hif.msixPend false v = false ∨ canIssue s = false) :
    unmask v s = { s with hif := { s.hif with masked := tput s.hif.masked v false } } := by
  rw [unmask, if_neg]
  rw [Bool.and_eq_true_iff]
  rintro ⟨hp, hc⟩
  rcases h with h | h
  · exact Bool.noConfusion (h.symm.trans hp)
  · exact Bool.noConfusion (h.symm.trans hc)

theorem unmask_masked (v : Nat) (s : State) : (unmask v s).hif.masked = tput s.hif.masked v false := by
  unfold unmask
  dsimp only
  split <;> rfl

/-- Settles O35: each host write by what its operation leaves of rings, configuration and messages. -/
theorem hostLinkWrites : Obligations.HostLinkWrites := by
  refine ⟨fun n off v s hc ha ho h1 h2 hv => ?_, fun n off v be s hc ha ho => ?_, fun n off v be s ho => ?_,
    fun n off v be s hc => ?_, fun ini v s hw hr => ?_, fun on fields s => ?_, fun s => ?_, fun s => ?_, fun v s => ?_⟩
  · obtain ⟨hp, hq, ho'⟩ := doorbell_rung ha h1 h2 hv
    exact ⟨_, execDoorbell_write hc ho, ⟨hp, hq, ho'⟩, (doorbell_keeps _ _ _ s (fun _ q => q) (Keeps.refl _ s)).only⟩
  · refine ⟨_, execDoorbell_write hc ho, ?_⟩
    rw [doorbell_inactive ha]
    refine ⟨⟨?_, rn_inc_self _ _ _⟩, ?_⟩
    · rw [ring_inc, ring_updRing_self]
    · exact (inc_keeps _ _ _ (by decide) (updRing_keeps _ _ _ (by decide) (Keeps.refl _ s))).only
  · have h : off.toNat ≠ 0 := fun e => ho (BitVec.eq_of_toNat_eq e)
    refine congrArg Host.Outcome.next ?_
    simp [barTwo, h]
  · refine ⟨returns .host 0#32 (beginRead .host s), congrArg Host.Outcome.next (by simp [barTwo, hc]), ?_, ?_⟩
    · exact rdata_returns_first (by simp [beginRead])
    · exact (returns_keeps _ _ _ (fun _ q => q) (beginRead_only _ s)).only
  · obtain ⟨hrun, hbit, hstart, hstay⟩ := hifCtrlWrite_written v s
    refine ⟨_, congrArg Host.Outcome.next (guardWrite_writable hw hr _), ⟨hrun, hbit, fun h0 h1 => ?_, hstay⟩, ?_⟩
    · rw [hstart h0 h1, ring_startRings_zero, ring_startRings_one, rf_ctrlWritten v s (by decide), rf_ctrlWritten v s (by decide),
        rf_ctrlWritten v s (by decide), rf_ctrlWritten v s (by decide), rf_ctrlWritten v s (by decide),
        rn64_ctrlWritten v s (by decide) (by decide), rn64_ctrlWritten v s (by decide) (by decide),
        rn64_ctrlWritten v s (by decide) (by decide)]
      exact ⟨rfl, rfl⟩
    · exact (hifCtrlWrite_keeps v s (by decide) (Keeps.refl _ s)).only
  · refine next_at (execBusMasterEnableWrite_keeps on fields s) (fun _ q => q) rfl ⟨configWrite_cfg on fields s, ?_⟩
    rintro rfl hd v hv
    exact configWrite_sent hd hv
  · refine next_at (execD3hotTransition_keeps s) (fun _ q => q) rfl ⟨rfl, ?_⟩
    simp [canIssue]
  · have e := (hif_of_same (flushMessages_hif { s with hif := { s.hif with cfg := { s.hif.cfg with d3hot := false } } })).1
    refine next_at (execD0Transition_keeps s) (fun _ q => q) rfl ⟨e, ?_⟩
    rw [canIssue, e]
    simp
  · refine next_at (execMsixVectorUnmask_keeps v s) (fun _ q => q) rfl ⟨?_, fun w hw => ?_, fun hp hc => ?_, fun h => ?_⟩
    · rw [unmask_masked, tfind_tput_self]
    · rw [unmask_masked, tfind_tput_ne _ _ hw]
    · rw [unmask_sends hp hc]
      exact ⟨rfl, tfind_tput_self _ _ _⟩
    · rw [unmask_quiet h]
      exact ⟨rfl, rfl⟩

end Sys2Proof.Machine
end

section
/-! SUPPORT. The proofs of what the link's posts, its messages and its refusals do (O37). -/

namespace Sys2Proof.Machine
open Sys2Proof

/-! ## Posted writes (R68, R70, R71) -/

/-- A held completion's bulk output is written and the completion is held no more. -/
def heldTaken (x : HeldCpl) (s : State) : State := hostWrites x.writes { s with fw := { s.fw with held := s.fw.held.erase x } }

theorem heldTaken_held (x : HeldCpl) (s : State) : (heldTaken x s).fw.held = s.fw.held.erase x := by
  rw [heldTaken, hostWrites_fw]

theorem heldTaken_ring (x : HeldCpl) (s : State) (n : Nat) : ring (heldTaken x s) n = ring s n := ring_hostWrites _ _ _

theorem heldTaken_keeps (x : HeldCpl) (s : State) : Keeps completionParts s (heldTaken x s) :=
  hostWrites_keeps _ _ (by decide) (Keeps.set_fw (by decide) (Keeps.refl _ s))

section
variable {n : Nat} {x : HeldCpl} {s : State} (hf : (s.fw.held.find? fun y => y.ring = n) = some x) (hm : mayPostHeld s x = true)
include hf hm

theorem completionPost_record {r : Record} (hx : x.rcd = some r) : completionPost n true s = postRecords n [r] (heldTaken x s) := by
  simp [completionPost, hf, hm, hx, heldTaken]

theorem completionPost_bare (hx : x.rcd = none) : completionPost n true s = heldTaken x s := by
  simp [completionPost, hf, hm, hx, heldTaken]

theorem completionPost_refused : completionPost n false s = writeFailed n s := by
  simp [completionPost, hf, hm]

end

/-- What a held completion that is taken leaves (R70). -/
structure PostedHeld (n : Nat) (x : HeldCpl) (s t : State) : Prop where
  held : t.fw.held = s.fw.held.erase x
  writes : ∀ w ∈ x.writes, .hostWrite w.1 w.2 ∈ t.out
  record : ∀ r, x.rcd = some r → (ring t n).entries = (ring s n).entries ++ [r] ∧ (ring t n).pi = ((ring s n).pi + 1) % idxMod
  bare : x.rcd = none → ring t n = ring s n
  only : Only completionParts s t

theorem completionPost_posted {n : Nat} {x : HeldCpl} {s : State} (hf : (s.fw.held.find? fun y => y.ring = n) = some x)
    (hm : mayPostHeld s x = true) : PostedHeld n x s (completionPost n true s) := by
  have hw : ∀ w ∈ x.writes, .hostWrite w.1 w.2 ∈ (heldTaken x s).out := hostWrites_out _ _
  cases hx : x.rcd with
  | none =>
    rw [completionPost_bare hf hm hx]
    exact ⟨heldTaken_held x s, hw, fun r e => (nomatch hx.symm.trans e), fun _ => heldTaken_ring x s n, (heldTaken_keeps x s).only⟩
  | some r =>
    rw [completionPost_record hf hm hx]
    refine ⟨by rw [postRecords_fw, heldTaken_held], fun w h => postRecords_out (hw w h), fun q e => ?_,
      fun e => (nomatch hx.symm.trans e), (postRecords_keeps _ _ _ (by decide) (heldTaken_keeps x s)).only⟩
    obtain rfl := Option.some.inj (hx.symm.trans e)
    rw [postRecords_entries, postRecords_pi, heldTaken_ring]
    exact ⟨rfl, rfl⟩

theorem ringError_ring (n : Nat) (err : BitVec 16) (s : State) :
    (ring (ringError n err s) n).state = .error ∧ (ring (ringError n err s) n).lastErr = err := by
  have h : ∀ {α : Type} (g : Ring → α), (∀ (r : Ring) (x : Gap), g { r with gap := x } = g r) →
      g (ring (ringError n err s) n) = g { ring s n with state := .error, lastErr := err } := by
    intro α g hg
    have he := ring_acceptEvent_field g hg 0x1001 false false none (le 4 n) n
      (updRing n (fun r => { r with state := .error, lastErr := err }) s)
    rw [ring_updRing_self] at he
    unfold ringError
    dsimp only
    split
    · exact he
    · exact he
  exact ⟨h Ring.state fun _ _ => rfl, h Ring.lastErr fun _ _ => rfl⟩

/-- A write the link does not take puts its ring in ERROR with WB_FAIL (R71). -/
theorem writeFailed_ring (n : Nat) (s : State) : (ring (writeFailed n s) n).state = .error ∧ (ring (writeFailed n s) n).lastErr = 0x1044 :=
  ringError_ring n _ _

theorem writeFailed_held (n : Nat) (s : State) : (writeFailed n s).fw = s.fw :=
  (writeFailed_keeps n s (fun _ q => q) (Keeps.refl _ s)).only .fw (by decide)

theorem writeback_due {n : Nat} {s : State} (hp : (ring s n).wbPending = true) (hc : canIssue s = true) :
    ring (writeback n s) n = { ring s n with wbPending := false } ∧
    (writeback n s).out = .index n (if (ring s n).typ = .command ∨ (ring s n).typ = .data then (ring s n).ci
      else (ring s n).pi) :: s.out := by
  rw [writeback, if_pos (by rw [hp, hc]; rfl)]
  extract_lets r v s1
  have h1 : ring s1 n = { ring s n with wbPending := false } := ring_putRing_self _ _ s
  split
  · exact ⟨h1, rfl⟩
  · exact ⟨h1, rfl⟩

theorem writeback_settled {n : Nat} {s : State} (hc : canIssue s = true) : (ring (writeback n s) n).wbPending = false := by
  cases hp : (ring s n).wbPending with
  | true => rw [(writeback_due hp hc).1]
  | false => rw [writeback, hp, Bool.false_and, if_neg Bool.false_ne_true, hp]


/-! ## Moderation (R82) -/

theorem msixSend_sent {v : Nat} {s : State} (hm : tget s.hif.masked true v = false) (hc : canIssue s = true) :
    .msix v ∈ (msixSend v s).out := by
  rw [msixSend, hm, hc]
  exact List.mem_cons_self

theorem msixSend_kept {v : Nat} {s : State} (hm : tget s.hif.masked true v = true) :
    tfind (msixSend v s).hif.msixPend v = some true := by
  rw [msixSend, hm]
  exact tfind_tput_self _ _ _

/-- What signalling a ring leaves of it, and where its message goes (R68, R82). -/
structure Signalled (n : Nat) (s t : State) : Prop where
  armed : (ring t n).armed = false
  unsignalled : (ring t n).unsignalled = false
  written : (ring t n).wbPending = false
  entries : (ring t n).entries = (ring s n).entries
  sent : tget s.hif.masked true (ring s n).vector = false → .msix (ring s n).vector ∈ t.out
  kept : tget s.hif.masked true (ring s n).vector = true → tfind t.hif.msixPend (ring s n).vector = some true

theorem signalRing_signalled {n : Nat} {s : State} (hc : canIssue s = true) : Signalled n s (signalRing n s) := by
  have hk : Keeps [.out, .reg .stk, .rings, .stk] s (writeback n s) := writeback_keeps n s (fun _ q => q) (Keeps.refl _ s)
  have hv : (ring (writeback n s) n).vector = (ring s n).vector := ring_writeback_field Ring.vector (fun _ => rfl) n n s
  have hm : (writeback n s).hif.masked = s.hif.masked := (hif_of_same (hk.only .hif (by decide))).2
  have hc' : canIssue (writeback n s) = true := (canIssue_keeps hk (by decide)).trans hc
  unfold signalRing
  dsimp only
  rw [hv]
  refine ⟨?_, ?_, ?_, ?_, fun h => msixSend_sent ?_ hc', fun h => msixSend_kept ?_⟩
  · rw [ring_congr (rings_msixSend _ _), ring_updRing_self]
  · rw [ring_congr (rings_msixSend _ _), ring_updRing_self]
  · rw [ring_congr (rings_msixSend _ _), ring_updRing_self]
    exact writeback_settled hc
  · rw [ring_congr (rings_msixSend _ _), ring_updRing_self]
    exact ring_writeback_field Ring.entries (fun _ => rfl) n n s
  · exact (congrArg (fun m => tget m true (ring s n).vector) hm).trans h
  · exact (congrArg (fun m => tget m true (ring s n).vector) hm).trans h

/-! ## Time transfer (R84, R438) -/

theorem setLocked_clock (b : Bool) (s : State) : (setLocked b s).clock.missRun = s.clock.missRun ∧
    (setLocked b s).clock.holdover = s.clock.holdover := by
  unfold setLocked
  split
  · exact ⟨rfl, rfl⟩
  · have h := fun c d p => (raised_keeps (n := pgTim) (b := 5) (code := c) (ten := d) (pl := p)
      { s with clock := { s.clock with locked := b } }).only .clock (by decide)
    rw [h]
    exact ⟨rfl, rfl⟩

/-- A change of holdover lands and keeps the count of missed measurements. -/
theorem setHoldover_clock (s : State) : (setHoldover true s).clock.missRun = s.clock.missRun ∧
    (setHoldover true s).clock.holdover = true := by
  unfold setHoldover
  split
  next h => exact ⟨rfl, h⟩
  extract_lets clk s1 clock
  have h := fun c d p => (raised_keeps (n := pgTim) (b := 6) (code := c) (ten := d) (pl := p)
    { s with clock := { s.clock with holdover := true } }).only .clock (by decide)
  have h1 : s1.clock = { s.clock with holdover := true } := h _ _ _
  rw [if_pos rfl, (setLocked_clock _ _).1, (setLocked_clock _ _).2]
  exact ⟨(congrArg Clock.missRun h1 :), (congrArg Clock.holdover h1 :)⟩

theorem measureFails_clock (s : State) : (measureFails s).clock.missRun = min 3 (s.clock.missRun + 1) ∧
    (2 ≤ s.clock.missRun → (measureFails s).clock.holdover = true) := by
  unfold measureFails
  extract_lets n clock s1
  split
  · exact ⟨(setHoldover_clock s1).1, fun _ => (setHoldover_clock s1).2⟩
  next hn => exact ⟨rfl, fun h => absurd (show min 3 (s.clock.missRun + 1) = 3 by omega) hn⟩

/-- A PTM request's time-out, before the clock hears of it: the request is abandoned and counted. -/
def ptmAbandoned (s : State) : State := inc Reg.HIF_PTM_FAIL_CNT 1 { s with hif := { s.hif with ptmOut := false } }

theorem ptmAbandoned_timSrc (s : State) : timSrc (ptmAbandoned s) = timSrc s := by
  rw [timSrc, rf, ptmAbandoned, rn_inc_ne _ _ (by decide)]
  rfl

theorem execPtmTimeout_out {s : State} (h : s.hif.ptmOut = true) : exec .ptmTimeout s =
    .next (if timSrc s = 1 then measureFails (ptmAbandoned s) else ptmAbandoned s) := by
  show execPtmTimeout s = _
  rw [execPtmTimeout, if_pos h, ← ptmAbandoned_timSrc s]
  rfl

/-- What the time-out leaves (R84, R438). -/
structure TimedOut (s t : State) : Prop where
  out : t.hif.ptmOut = false
  count : rn t Reg.HIF_PTM_FAIL_CNT = min 0xFFFFFFFF (rn s Reg.HIF_PTM_FAIL_CNT + 1)
  missed : timSrc s = 1 → t.clock.missRun = min 3 (s.clock.missRun + 1)
  holdover : timSrc s = 1 → 2 ≤ s.clock.missRun → t.clock.holdover = true
  others : timSrc s ≠ 1 → t.clock = s.clock

theorem ptmTimeout_timedOut (s : State) :
    TimedOut s (if timSrc s = 1 then measureFails (ptmAbandoned s) else ptmAbandoned s) := by
  have hc : rn (ptmAbandoned s) Reg.HIF_PTM_FAIL_CNT = min 0xFFFFFFFF (rn s Reg.HIF_PTM_FAIL_CNT + 1) := rn_inc_self _ _ _
  split
  next h =>
    have hk := measureFails_keeps (ptmAbandoned s) (fun _ q => q) (Keeps.refl _ _)
    obtain ⟨h1, h2⟩ := measureFails_clock (ptmAbandoned s)
    refine ⟨?_, ?_, fun _ => h1, fun _ => h2, fun k => absurd h k⟩
    · exact (congrArg Hif.ptmOut (hk.only .hif (by decide)) :)
    · rw [← hc]
      exact rn_congr (hk.rd (by decide))
  next h => exact ⟨rfl, hc, fun k => absurd k h, fun k => absurd k h, fun _ => rfl⟩

/-! ## Latency tolerance and PTM requests (R83, R84) -/

theorem ltrRise_rises {m : BitVec 16} {s : State} (hl : s.hif.ltrLast = some m) (he : s.hif.cfg.ltrEn = true) (hc : canIssue s = true)
    (hm : 32768 ≤ m.toNat) (hk : rn s Reg.KLN_LT ≠ 0xFFFFFFFF) (ht : 3 * ltrNs m.toNat < 2 * ltrTolerance s) :
    ltrRise s = ltrNow s := by
  simp [ltrRise, hl, he, hc, hm, hk, ht]

/-! ## Refused requests (R33, R86) -/

theorem rn_report (e : AerErr) (s : State) (k : Nat) : rn (report e s) k = rn s k := rfl

/-- An error counted and reported through AER, with nothing else on the host interface. -/
structure Refused (e : AerErr) (cnt : Nat) (s t : State) : Prop where
  aer : t.hif.aer = s.hif.aer ++ [⟨e, s.hif.cfg.severity.getLsbD e.bit⟩]
  count : rn t cnt = min 0xFFFFFFFF (rn s cnt + 1)

theorem refused_inc (e : AerErr) (cnt : Nat) (s : State) : Refused e cnt s (inc cnt 1 (report e s)) :=
  ⟨rfl, by rw [rn_inc_self, rn_report]⟩

theorem reported_keeps {e : AerErr} {cnt : Nat} (h : keyKind cnt = .hif) (s : State) :
    Keeps [.hif, .out, .reg .hif] s (inc cnt 1 (report e s)) :=
  inc_keeps _ _ _ (by rw [h]; decide) (report_keeps _ _ (by decide) (Keeps.refl _ s))

/-- An error recorded on a page leaves AER and every register. -/
theorem recordErr_hif (c : Nat) (s : State) : (recordErr pgHif c s).hif.aer = s.hif.aer ∧ ∀ k, rn (recordErr pgHif c s) k = rn s k :=
  ⟨(congrArg Hif.aer ((recordErr_keeps' pgHif c s).only .hif (by simp)) :), fun k => rn_congr (rd_of_regs (recordErr_regs _ _ _) k)⟩

/-- Settles O37: each post, message and refusal by what its operation leaves. -/
theorem hostLinkPosts : Obligations.HostLinkPosts := by
  refine ⟨fun n x s hf hm => ?_, fun n x s hf hm => ?_, fun n s hp hc => ⟨?_, ?_⟩, fun n s ha hr hu ht hc => ?_,
    fun m s hl he hc hm hk ht => ?_, fun s he hr hc => ?_, fun s ho => ?_, fun s => ⟨?_, ?_, ?_, ?_⟩, fun addr len write s h => ?_⟩
  · obtain ⟨hheld, hw, hrec, hbare, honly⟩ := completionPost_posted hf hm
    exact ⟨_, rfl, ⟨hheld, hw, hrec, hbare⟩, honly⟩
  · refine next_at (execCompletionPost_keeps n false s) (by decide) (congrArg Host.Outcome.next (completionPost_refused hf hm)) ?_
    exact ⟨(writeFailed_ring _ s).1, (writeFailed_ring _ s).2, by rw [writeFailed_held]⟩
  · refine ⟨writeback n.val s, rfl, writeback_due hp hc, (writeback_keeps _ s (fun _ q => q) (Keeps.refl _ s)).only⟩
  · refine next_at (execIndexWriteback_keeps n false s) (fun _ q => q) (t0 := writeFailed n.val s) ?_ (writeFailed_ring _ s)
    exact congrArg Host.Outcome.next (by simp [wbDone, hp, hc])
  · have e : imodTimeout n.val s = signalRing n.val s := by simp [imodTimeout, ha, hr, hu, ht, hc]
    obtain ⟨h1, h2, h3, h4, h5, h6⟩ := signalRing_signalled (n := n.val) hc
    exact next_at (execImodTimeout_keeps n s) (fun _ q => q) (congrArg Host.Outcome.next e) ⟨h1, h2, h3, h4, h5, h6⟩
  · exact next_at (execLtrRiseTimer_keeps s) (fun _ q => q) (congrArg Host.Outcome.next (ltrRise_rises hl he hc hm hk ht)) ⟨rfl, rfl⟩
  · refine next_at (execPtmRequestTimer_keeps s) (fun _ q => q)
      (t0 := emit .ptmRequest { s with hif := { s.hif with ptmOut := true } }) ?_ ⟨rfl, rfl⟩
    exact congrArg Host.Outcome.next (by simp [ptmRequest, he, hr, hc])
  · obtain ⟨h1, h2, h3, h4, h5⟩ := ptmTimeout_timedOut s
    exact next_at (execPtmTimeout_keeps s) (fun _ q => q) (execPtmTimeout_out ho) ⟨h1, h2, h3, h4, h5⟩
  · obtain ⟨h1, h2⟩ := refused_inc .unsupported Reg.HIF_URCA_CNT s
    exact ⟨_, rfl, ⟨h1, h2, rfl⟩, (emit_keeps _ _ (by decide) (reported_keeps keyKind_HIF_URCA_CNT s)).only⟩
  · obtain ⟨h1, h2⟩ := refused_inc .abort Reg.HIF_URCA_CNT s
    exact ⟨_, rfl, ⟨h1, h2, rfl⟩, (emit_keeps _ _ (by decide) (reported_keeps keyKind_HIF_URCA_CNT s)).only⟩
  · obtain ⟨h1, h2⟩ := refused_inc .poisoned Reg.HIF_POISON_CNT s
    obtain ⟨h3, h4⟩ := recordErr_hif 0x42 (inc Reg.HIF_POISON_CNT 1 (report .poisoned s))
    refine next_at (execReceivedRequestFault_keeps .poisonedWrite s) (fun _ q => q) rfl ⟨h3.trans h1, (h4 _).trans h2, ?_⟩
    rw [refuseRequest, recordErr_page, pageKind_pgHif]
  · refine ⟨_, rfl, fun h => ?_, ?_⟩
    · rw [refuseRequest, if_pos h]
      rfl
    · exact (Keeps.ite (fun _ => report_keeps .ecrc s (fun _ q => q) (Keeps.refl _ s)) fun _ => Keeps.refl _ s).only
  · obtain ⟨h1, h2⟩ := refused_inc .abort Reg.HIF_URCA_CNT s
    have hk := reported_keeps (e := .abort) keyKind_HIF_URCA_CNT s
    refine ⟨_, congrArg Host.Outcome.next (if_pos h), ?_⟩
    cases write with
    | true => exact ⟨⟨h1, h2, rfl⟩, hk.only⟩
    | false => exact ⟨⟨h1, h2, rfl⟩, (emit_keeps _ _ (by decide) hk).only⟩

end Sys2Proof.Machine
end

section
/-! SUPPORT. The proofs of what the split bar, the head ports' and the position channels' control writes do (O39). -/

namespace Sys2Proof.Machine
open Sys2Proof

/-! ## The split bar (R201) -/

theorem inRange_none {addr : Nat} (v : Word) (h : ∀ r, regDef addr = some r → r.ranges = []) : inRange addr v = true := by
  unfold inRange
  split
  next r e =>
    rw [h r e]
    rfl
  next => rfl

theorem execTilSplitBar {ini : Initiator} {v : Word} {s : State} (hw : Writable ini Reg.TIL_SPLIT_BAR s = true) :
    exec (.tilSplitBarWrite ini v) s = .next (splitBarWrite v s) :=
  congrArg Host.Outcome.next (guardWrite_writable hw (inRange_none v (by decide)) _)

/-- The entry of the split table that the selection names. -/
def barKey (s : State) : Nat := wkey Reg.TIL_SPLIT_BAR (rf s Reg.TIL_SPLIT_SEL 5 0)

theorem splitBarWrite_eq (v : Word) (s : State) : splitBarWrite v s =
    if v.getLsbD 31 = true then
      (if bits 11 0 v.toNat % 32 = 0 ∧ 32 ≤ bits 11 0 v.toNat ∧ bits 11 0 v.toNat ≤ 4064 then
        pendPage pgTilC (wn (barKey s) (bits 11 0 v.toNat + 2 ^ 31) s) else recordErr pgTilC 0x05 s)
    else wf (barKey s) 31 31 0 s := by
  unfold splitBarWrite
  simp only [← bitOf_eq, decide_eq_true_eq]
  rfl

theorem Plane.live_iff (x : Plane) : x.live = true ↔ x.state ≠ .stopped := by simp [Plane.live]

/-- While a plane is live the bar latch waits, and nothing but Kiln knows of it. -/
theorem armBar_waits {s : State} (h : ∃ p ∈ planeNums, (plane s p).live = true) :
    (armBar s).regs = s.regs ∧ (armBar s).pages = s.pages := by
  obtain ⟨p, hp, hl⟩ := h
  have hw : planeNums.filter (fun p => (plane s p).live) ≠ [] := List.ne_nil_of_mem (List.mem_filter.mpr ⟨hp, hl⟩)
  unfold armBar
  dsimp only
  split
  · exact ⟨rfl, rfl⟩
  · exact ⟨rfl, rfl⟩

/-- The page with a change staged on it. -/
def staged (n : Nat) (s : State) : State := updPage n (fun g => { g with pending := true, wrote := true }) (notePage n s)

theorem staged_regs (n : Nat) (s : State) : (staged n s).regs = s.regs := notePage_regs n s

theorem staged_pending (n : Nat) (s : State) : (getPage (staged n s) n).pending = true := by
  rw [staged, getPage_updPage_self]

theorem staged_holds (n : Nat) (s : State) : HoldsAlike s (staged n s) :=
  (notePage_holds n s).trans (HoldsAlike.put rfl rfl)

theorem staged_plane (n p : Nat) (s : State) : plane (staged n s) p = plane s p :=
  plane_congr ((updPage_keeps _ _ _ (fun _ q => q) (notePage_keeps n s (fun _ q => q) (Keeps.refl _ s))).only .kln (by simp)) p

theorem pendPage_bar (s : State) : pendPage pgTilC s =
    if (getPage s pgTilC).hold || (getPage s pgTilC).cmdHold then staged pgTilC s else armBar (staged pgTilC s) := by
  obtain ⟨h1, h2⟩ := staged_holds pgTilC s pgTilC
  rw [← h1, ← h2]
  have hs : pageSrc pgTilC = 2 := by decide
  unfold pendPage
  rw [if_pos hs]
  rfl

/-- What a change staged for the bar latch leaves where the latch does not come at once (R47, R50). -/
structure BarWaits (s t : State) : Prop where
  regs : ∀ a, rd t a = rd s a
  pending : (getPage t pgTilC).pending = true
  armed : (getPage s pgTilC).hold = false → (getPage s pgTilC).cmdHold = false → t.kln.barArmed = true

theorem pendPage_waits {s : State} (h : (∃ p ∈ planeNums, (plane s p).live = true) ∨ (getPage s pgTilC).hold = true) :
    BarWaits s (pendPage pgTilC s) := by
  rw [pendPage_bar]
  split
  next hh =>
    refine ⟨rd_of_regs (staged_regs _ s), staged_pending _ s, fun h1 h2 => ?_⟩
    rw [h1, h2] at hh
    cases hh
  next hh =>
    have hl : ∃ p ∈ planeNums, (plane (staged pgTilC s) p).live = true := by
      rcases h with ⟨p, hp, h⟩ | h
      · exact ⟨p, hp, by rw [staged_plane]; exact h⟩
      · exact absurd (by rw [h]; rfl) hh
    obtain ⟨hr, hg⟩ := armBar_waits hl
    refine ⟨rd_of_regs (hr.trans (staged_regs _ s)), ?_, fun _ _ => (armBar_live ?_).2⟩
    · rw [getPage_congr hg, staged_pending]
    · obtain ⟨p, hp, h⟩ := hl
      exact ⟨p, hp, (Plane.live_iff _).mp h⟩

theorem barKey_kind (s : State) : keyKind (barKey s) = .tilC := by simp [barKey]

/-- An entry withdrawn keeps what is below VALID. -/
theorem rn_withdrawn (k : Nat) (s : State) : rn (wf k 31 31 0 s) k = rn s k % 2 ^ 31 := by
  refine Nat.eq_of_testBit_eq fun i => ?_
  rw [testBit_wf k 0 s ⟨by decide, by decide⟩, Nat.testBit_mod_two_pow, Nat.testBit_mod_two_pow]
  by_cases h1 : i < 31
  · simp [h1]
  by_cases h2 : i < 32
  · simp [h1, h2]
  · simp [h1, h2, testBit_rn_ge s k (Nat.le_of_not_lt h2)]

/-! ## RETRAIN (R318, R319) -/

theorem headLost_cases (h : Nat) (s : State) : headLost h s = s ∨
    Keeps [.jobs, .kln, .msix, .out, .reg .klnC, .reg .klnP, .reg .stk, .rings, .stk, .win]
      (updPort h (fun x => { x with descs := [], descWait := [] }) s) (headLost h s) := by
  unfold headLost
  split
  · exact Or.inl rfl
  split
  · exact Or.inl rfl
  · refine Or.inr (Keeps.foldl (fun t r ht => ?_) (Keeps.refl _ _))
    refine updRow_keeps _ _ _ _ (by decide) ?_
    refine Keeps.foldl (fun v x hv => tripLine_keeps _ _ _ _ _ (by decide) hv) ?_
    refine Keeps.foldl (fun v x hv => ?_) ht
    exact tripLine_keeps _ _ _ _ _ (by decide) (countUnderrun_keeps _ _ _ _ _ _ (by decide) hv)

/-- A head whose link is lost has no descriptors left, and is otherwise as it was; no other port changes. -/
theorem port_headLost_field {α : Type} (g : Port → α) (hg : ∀ x : Port, g { x with descs := [], descWait := [] } = g x) (h : Nat)
    (s : State) : g (port (headLost h s) h) = g (port s h) := by
  rcases headLost_cases h s with e | k
  · rw [e]
  · rw [port_congr (k.only .ports (by decide)), port_updPort_self, hg]

theorem port_headLost_ne {h g : Nat} (s : State) (hn : g ≠ h) : port (headLost h s) g = port s g := by
  rcases headLost_cases h s with e | k
  · rw [e]
  · rw [port_congr (k.only .ports (by decide)), port_updPort_ne _ _ hn]

theorem rd_headLost {k : Nat} (hk : keyKind k = .hlk) (h : Nat) (s : State) : rd (headLost h s) k = rd s k :=
  (headLost_keeps h s (fun _ q => q) (Keeps.refl _ s)).rd (by rw [hk]; decide)

theorem rd_postLink {k : Nat} (hk : keyKind k = .hlk) (h old new cause : Nat) (s : State) : rd (postLink h old new cause s) k = rd s k := by
  rw [postLink, rd_raiseIrq, rd_event (by rw [hk]; decide)]

/-- The link falls out of UP without the fault that STRICT would raise (R320). -/
theorem setLink_up {h : Nat} {l : Link} {s : State} (hs : (port s h).link = .up) (hl : l ≠ .up)
    (hf : rbit s (Reg.HLK_CTRL h) 4 = false ∨ (port s h).pwren = false) (cause : Nat) : setLink h l cause s =
      headLost h (postLink h Link.up.code l.code cause (updPort h (fun x => { x with link := l }) s)) := by
  generalize hu : postLink h Link.up.code l.code cause (updPort h (fun x => { x with link := l }) s) = u
  have h1 : rbit (headLost h u) (Reg.HLK_CTRL h) 4 = rbit s (Reg.HLK_CTRL h) 4 := by
    refine rbit_congr ?_ 4
    rw [rd_headLost (by simp), ← hu, rd_postLink (by simp)]
    rfl
  have h2 : (port (headLost h u) h).pwren = (port s h).pwren := by
    rw [port_headLost_field Port.pwren fun _ => rfl, ← hu, port_postLink, port_updPort_self]
  unfold setLink
  simp only [hs, Ne.symm hl, hu, if_false, true_or, if_true, true_and, h1, h2]
  rw [if_neg]
  rintro ⟨k1, k2⟩
  rcases hf with hf | hf
  · exact Bool.noConfusion (hf.symm.trans k1)
  · exact Bool.noConfusion (hf.symm.trans k2)

/-- A port that leaves UP to train again: what of it changes, and no other port. -/
structure Retrained (h : Nat) (s t : State) : Prop where
  link : (port t h).link = .retraining
  align : (port t h).align = 0
  descr : (port t h).descr = false
  ready : (port t h).ready = false
  others : ∀ g, g ≠ h → port t g = port s g
  regs : ∀ k, keyKind k = .hlk → rd t k = rd s k

theorem train_up {h : Nat} {s : State} (hs : (port s h).link = .up) (hf : rbit s (Reg.HLK_CTRL h) 4 = false ∨ (port s h).pwren = false)
    (cause : Nat) : Retrained h s (train h .retraining cause s) := by
  obtain ⟨u, e, hu⟩ := train_reset h .retraining cause s
  have hr : ∀ k, rd u k = rd s k := fun k => hu.keeps.rd (by simp)
  rw [e, setLink_up (hu.link.trans hs) (by decide) (by rw [hu.pwren, rbit_congr (hr _)]; exact hf)]
  refine ⟨?_, ?_, ?_, ?_, fun g hg => ?_, fun k hk => ?_⟩
  · rw [port_headLost_field Port.link fun _ => rfl, port_postLink, port_updPort_self]
  · rw [port_headLost_field Port.align fun _ => rfl, port_postLink, port_updPort_self]
    exact hu.align
  · rw [port_headLost_field Port.descr fun _ => rfl, port_postLink, port_updPort_self]
    exact hu.descr
  · rw [port_headLost_field Port.ready fun _ => rfl, port_postLink, port_updPort_self]
    exact hu.ready
  · rw [port_headLost_ne _ hg, port_postLink, port_updPort_ne _ _ hg, hu.others g hg]
  · rw [rd_headLost hk, rd_postLink hk, ← hr k]
    rfl

/-! HLK_CTRL is a register whose five low bits a write reaches. -/

theorem hlkCtrl_row (h : Fin 64) :
    ∃ r, regDef (Reg.HLK_CTRL h.val) = some r ∧ r.acc = .mixed ∧ r.mask = 31#32 ∧ r.w1c = 0#32 ∧ r.ranges = [] := by
  revert h
  decide

theorem hlkCtrl_plain (h : Fin 64) : plainKey (Reg.HLK_CTRL h.val) = true := by
  revert h
  decide

/-- A register with nothing to clear takes what its mask lets a write reach. -/
theorem plainValue_noClear {r : RegDef} (hw : r.w1c = 0#32) (old v : Word) :
    plainValue r old v = (v &&& r.mask) ||| (old &&& ~~~r.mask) := by
  have hall : ~~~(v &&& 0#32) = BitVec.allOnes 32 := by simp
  rw [plainValue, hw, hall, BitVec.and_allOnes]

/-- HLK_CTRL after a write. -/
def hlkValue (old v : Word) : Word := (v &&& 31#32) ||| (old &&& ~~~31#32)

theorem hlkValue_low {old v : Word} {i : Nat} (hi : i < 5) : (hlkValue old v).getLsbD i = v.getLsbD i := by
  have hm : ∀ i < 5, (31#32).getLsbD i = true := by decide
  have h32 : i < 32 := by omega
  rw [hlkValue, BitVec.getLsbD_or, BitVec.getLsbD_and, BitVec.getLsbD_and, BitVec.getLsbD_not, hm i hi]
  simp

theorem plainPut_hlkCtrl (h : Fin 64) (v : Word) (s : State) :
    plainPut (Reg.HLK_CTRL h.val) v s = wr (Reg.HLK_CTRL h.val) (hlkValue (rd s (Reg.HLK_CTRL h.val)) v) s := by
  obtain ⟨r, hd, ha, hm, hw, -⟩ := hlkCtrl_row h
  rw [plainPut_rw hd (Or.inr ha), keyOf_plain (hlkCtrl_plain h), plainValue_noClear hw, hm, hlkValue]

theorem testBit_hlkCtrl (h : Fin 64) {v : Word} {s : State} {i : Nat} (hi : i < 5) :
    (rn (plainPut (Reg.HLK_CTRL h.val) v s) (Reg.HLK_CTRL h.val)).testBit i = v.getLsbD i := by
  rw [plainPut_hlkCtrl, rn, rd_wr_self, ← hlkValue_low (old := rd s (Reg.HLK_CTRL h.val)) hi]
  rfl

/-- Mode and shift clock written as they stand leave the mode as it is. -/
theorem portMode_hlkCtrl (h : Fin 64) {v : Word} {s : State} (hb : bits 3 0 v.toNat = rf s (Reg.HLK_CTRL h.val) 3 0) :
    portMode (plainPut (Reg.HLK_CTRL h.val) v s) h.val = portMode s h.val := by
  refine Nat.eq_of_testBit_eq fun i => ?_
  have h3 := congrArg (fun x => x.testBit i) hb
  simp only [rf, testBit_bits] at h3
  simp only [portMode, rf, testBit_bits]
  by_cases hi : i < 2
  · rw [show 0 + i = i by omega] at h3 ⊢
    rw [testBit_hlkCtrl h (by omega)]
    simpa [hi, show i < 4 by omega, BitVec.getLsbD] using h3
  · simp [hi]

theorem hlkCtrlWrite_retrain {h : Fin 64} {v : Word} {s : State} (hb : bits 3 0 v.toNat = rf s (Reg.HLK_CTRL h.val) 3 0)
    (h5 : v.getLsbD 5 = true) (hl : (port s h.val).link = .up) : hlkCtrlWrite h.val v s =
      portRefresh h.val (train h.val .retraining 5 (inc (Reg.HLK_RETRAIN_CNT h.val) 1 (plainPut (Reg.HLK_CTRL h.val) v s))) := by
  have hp : (port (plainPut (Reg.HLK_CTRL h.val) v s) h.val).link = .up := by
    rw [plainPut_hlkCtrl]
    exact hl
  have hv : v.toNat / 32 % 2 = 1 := by
    rw [← bitOf_eq, decide_eq_true_eq] at h5
    exact h5
  simp [hlkCtrlWrite, hb, hv, retrain, hp]

theorem portRefresh_trains {h : Nat} {s : State} (he : headEnabled s h = true) (hm : portMode s h = 1)
    (hl : (port s h).link = .retraining) : portRefresh h s = s := by
  simp [portRefresh, he, hm, hl]

/-- What a RETRAIN write leaves: the port in training again, its count, and no other port. -/
structure RetrainWritten (h : Nat) (s t : State) : Prop where
  link : (port t h).link = .retraining
  align : (port t h).align = 0
  descr : (port t h).descr = false
  ready : (port t h).ready = false
  count : rn t (Reg.HLK_RETRAIN_CNT h) = min 0xFFFFFFFF (rn s (Reg.HLK_RETRAIN_CNT h) + 1)
  others : ∀ g, g ≠ h → port t g = port s g

theorem hlkCtrlWrite_retrained {h : Fin 64} {v : Word} {s : State} (hb : bits 3 0 v.toNat = rf s (Reg.HLK_CTRL h.val) 3 0)
    (h5 : v.getLsbD 5 = true) (hl : (port s h.val).link = .up) (he : headEnabled s h.val = true) (hm : portMode s h.val = 1)
    (hf : v.getLsbD 4 = false ∨ (port s h.val).pwren = false) : RetrainWritten h.val s (hlkCtrlWrite h.val v s) := by
  rw [hlkCtrlWrite_retrain hb h5 hl]
  have hmode' := portMode_hlkCtrl h hb
  have hbit' := testBit_hlkCtrl h (v := v) (s := s) (i := 4) (by decide)
  rw [plainPut_hlkCtrl] at hmode' hbit' ⊢
  generalize hu : inc (Reg.HLK_RETRAIN_CNT h.val) 1 (wr (Reg.HLK_CTRL h.val) (hlkValue (rd s (Reg.HLK_CTRL h.val)) v) s) = u
  have hne : Reg.HLK_CTRL h.val ≠ Reg.HLK_RETRAIN_CNT h.val := by
    simp only [Reg.HLK_CTRL, Reg.HLK_RETRAIN_CNT]
    omega
  have hpu : ∀ g, port u g = port s g := fun g => hu ▸ rfl
  have hmode : portMode u h.val = 1 := by
    rw [← hm, ← hmode', ← hu, portMode, rf, rn_inc_ne _ _ hne]
    rfl
  have hbit : rbit u (Reg.HLK_CTRL h.val) 4 = v.getLsbD 4 := by rw [rbit_eq, ← hu, rn_inc_ne _ _ hne, hbit']
  have hcnt : rn u (Reg.HLK_RETRAIN_CNT h.val) = min 0xFFFFFFFF (rn s (Reg.HLK_RETRAIN_CNT h.val) + 1) := by
    rw [← hu, rn_inc_self, rn_congr (rd_wr_ne _ _ (Ne.symm hne))]
  obtain ⟨hlink, halign, hdescr, hready, hothers, hregs⟩ :=
    train_up ((congrArg Port.link (hpu _)).trans hl) (by rw [hbit, hpu]; exact hf) 5
  have hmt : portMode (train h.val .retraining 5 u) h.val = 1 := by
    rw [← hmode]
    exact rf_congr (hregs _ (by simp)) 1 0
  have het : headEnabled (train h.val .retraining 5 u) h.val = true := by
    rw [headEnabled, hm] at he
    rw [headEnabled, hmt, (train_header (pageKind_pgHlk _) _ _ _ _).en, ← hu]
    exact he
  rw [portRefresh_trains het hmt hlink]
  exact ⟨hlink, halign, hdescr, hready, (rn_congr (hregs _ (by simp))).trans hcnt, fun g hg => (hothers g hg).trans (hpu g)⟩

/-! ## Head faults (R325) -/

section
variable {h : Nat} {v : Word} {s : State} (h0 : v.getLsbD 0 = true) (h3 : v.getLsbD 3 = false) (hl : (port s h).latched = true)
include h0 h3 hl

theorem faultClear_eq : faultClear h v s =
    if (port s h).fltLow || faultCause s h then recordErr (pgHlk h) 0x41 (updPort h (fun x => { x with reject := true }) s)
    else updPort h (fun x => { x with latched := false, cause := 0 }) s := by
  have e0 : v.toNat % 2 = 1 := by
    rw [← bitOf_eq, decide_eq_true_eq] at h0
    rwa [Nat.pow_zero, Nat.div_one] at h0
  have e3 : ¬ v.toNat / 8 % 2 = 1 := by
    rw [← bitOf_eq, decide_eq_false_iff_not] at h3
    exact h3
  simp only [faultClear, if_neg e3, e0, hl, and_self, if_true]

end

theorem port_recordErr (n c : Nat) (s : State) (g : Nat) : port (recordErr n c s) g = port s g :=
  port_congr ((recordErr_keeps' n c s).only .ports (by simp)) g

/-! ## Position channels (R336, R339) -/

theorem pifCtrlWrite_eq (c : Nat) (v : Word) (s : State) : pifCtrlWrite c v s =
    if v.getLsbD 1 then pifLoad c (if v.getLsbD 0 then pifRearm c s else s) else if v.getLsbD 0 then pifRearm c s else s := by
  simp only [← bitOf_eq, pifCtrlWrite, decide_eq_true_eq, Nat.pow_zero, Nat.div_one, Nat.pow_one]

theorem pifRearm_pif (c d : Nat) (s : State) : pif (pifRearm c s) d =
    pif (updPif c (fun g => { g with ref := none, run := 0, corr := none, missed := 0 }) s) d := by
  unfold pifRearm
  dsimp only
  split <;> rfl

theorem idxPeriod_row (c : Fin 4) (high : Bool) : ∃ r, regDef (Reg.PIF_C_IDX_PERIOD c.val + if high then 4 else 0) = some r ∧
    r.acc = .rw ∧ r.mask = (if high then 0xFFFF#32 else 0xFFFFFFFF#32) ∧ r.w1c = 0#32 ∧ r.ranges = [] ∧
    plainKey (Reg.PIF_C_IDX_PERIOD c.val + if high then 4 else 0) = true := by
  revert c high
  decide

/-- The period's word after a write. -/
def idxValue (high : Bool) (old v : Word) : Word := if high then (v &&& 0xFFFF#32) ||| (old &&& 0xFFFF0000#32) else v

theorem idxPeriodWrite_eq (c : Fin 4) (high : Bool) (v : Word) (s : State) :
    let a := Reg.PIF_C_IDX_PERIOD c.val + if high then 4 else 0
    idxPeriodWrite c.val high v s =
      updPif c.val (fun g => { g with ref := none, missed := 0, corr := none }) (wr a (idxValue high (rd s a) v) s) := by
  obtain ⟨r, hd, ha, hm, hw, -, hk⟩ := idxPeriod_row c high
  have hv : ∀ old, plainValue r old v = idxValue high old v := fun old => by
    rw [plainValue_noClear hw, hm, idxValue]
    cases high with
    | true => rfl
    | false =>
      rw [if_neg Bool.false_ne_true, if_neg Bool.false_ne_true, show 0xFFFFFFFF#32 = BitVec.allOnes 32 from rfl, BitVec.and_allOnes]
      simp
  intro a
  rw [idxPeriodWrite, plainPut_rw hd (Or.inl ha), keyOf_plain hk, hv]

theorem idxPeriod_page (c : Fin 4) (high : Bool) :
    (Reg.PIF_C_IDX_PERIOD c.val + if high then 4 else 0) / 0x1000 = Reg.PIF_C_IDX_PERIOD c.val / 0x1000 := by
  revert c high
  decide

/-- Admission is by page: two addresses of one page are writable alike. -/
theorem writable_samePage {ini : Initiator} {a b : Nat} {s : State} (h : a / 0x1000 = b / 0x1000) :
    Writable ini a s = Writable ini b s := by
  rw [Writable, Writable, h]

theorem hlkFault_inRange (h : Fin 64) (v : Word) : inRange (Reg.HLK_FAULT h.val) v = true := by
  refine inRange_none v ?_
  revert h
  decide

theorem pifCtrl_inRange (c : Fin 4) (v : Word) : inRange (Reg.PIF_C_CTRL c.val) v = true := by
  refine inRange_none v ?_
  revert c
  decide

/-- Settles O39: each control write by what its operation leaves of the unit and of its registers. -/
theorem unitRegisterWrites : Obligations.UnitRegisterWrites := by
  refine ⟨fun ini v s hw => ⟨fun h31 hx0 hx1 hx2 hh => ?_, fun h31 hx => ?_, fun h31 => ?_⟩,
    fun ini h v s hw hb h5 hl he hm hf => ?_, fun ini h v s hw h0 h3 hl => ⟨fun hlow hc => ?_, fun hc => ?_⟩,
    fun ini c v s hw => ⟨fun h0 h1 => ?_, fun h0 h1 => ?_⟩, fun ini c high v s hw => ?_⟩
  · have e : splitBarWrite v s = pendPage pgTilC (wn (barKey s) (bits 11 0 v.toNat + 2 ^ 31) s) := by
      rw [splitBarWrite_eq, if_pos h31, if_pos ⟨hx0, hx1, hx2⟩]
    obtain ⟨hr, hp, ha⟩ := pendPage_waits (s := wn (barKey s) (bits 11 0 v.toNat + 2 ^ 31) s) hh
    refine next_at (execTilSplitBarWrite_keeps ini v s) (by decide) ((execTilSplitBar hw).trans (congrArg _ e)) ⟨?_, hp, fun a hk => ?_, ha⟩
    · rw [rn_congr (hr _)]
      refine (rn_wn_self (barKey s) _ s).trans (Nat.mod_eq_of_lt ?_)
      omega
    · rw [hr a]
      exact rd_wr_ne _ _ hk
  · have e : splitBarWrite v s = recordErr pgTilC 0x05 s := by rw [splitBarWrite_eq, if_pos h31, if_neg hx]
    refine ⟨_, (execTilSplitBar hw).trans (congrArg _ e), ⟨rd_recordErr _ _ _, ?_⟩, ?_⟩
    · rw [recordErr_page, pageKind_pgTilC]
    · exact (recordErr_keeps pgTilC 0x05 s (by simp) (Keeps.refl _ s)).only
  · have e : splitBarWrite v s = wf (barKey s) 31 31 0 s := by rw [splitBarWrite_eq, if_neg (by rw [h31]; decide)]
    refine ⟨_, (execTilSplitBar hw).trans (congrArg _ e), ⟨rn_withdrawn _ s, fun a hk => rd_wr_ne _ _ hk⟩, ?_⟩
    exact (wf_keeps _ _ _ _ _ (by simp [barKey_kind]) (Keeps.refl _ s)).only
  · have hi : inRange (Reg.HLK_CTRL h.val) v = true := by
      obtain ⟨r, hd, -, -, -, hn⟩ := hlkCtrl_row h
      exact inRange_none v fun q hq => Option.some.inj (hd.symm.trans hq) ▸ hn
    obtain ⟨hlink, halign, hdescr, hready, hcnt, hothers⟩ := hlkCtrlWrite_retrained hb h5 hl he hm hf
    exact next_at (execHlkRetrainWrite_keeps ini h v s) (by simp) (congrArg Host.Outcome.next (guardWrite_writable hw hi _))
      ⟨hlink, halign, hdescr, hready, hcnt, hothers⟩
  · have e := faultClear_eq (h := h.val) h0 h3 hl
    rw [if_neg (by rw [hlow, hc]; decide)] at e
    refine ⟨_, congrArg Host.Outcome.next ((guardWrite_writable hw (hlkFault_inRange h v) _).trans e), port_updPort_self _ _ _, ?_⟩
    exact (updPort_keeps _ _ _ (fun _ q => q) (Keeps.refl _ s)).only
  · have e := faultClear_eq (h := h.val) h0 h3 hl
    rw [if_pos (by rw [Bool.or_eq_true]; exact hc)] at e
    refine ⟨_, congrArg Host.Outcome.next ((guardWrite_writable hw (hlkFault_inRange h v) _).trans e), ⟨?_, ?_⟩, ?_⟩
    · rw [port_recordErr, port_updPort_self]
    · rw [recordErr_page, pageKind_pgHlk]
    · exact (recordErr_keeps _ _ _ (by simp) (updPort_keeps _ _ _ (by simp) (Keeps.refl _ s))).only
  · have e : pifCtrlWrite c.val v s = pifRearm c.val s := by rw [pifCtrlWrite_eq, h0, h1]; rfl
    refine ⟨_, congrArg Host.Outcome.next ((guardWrite_writable hw (pifCtrl_inRange c v) _).trans e), ⟨?_, fun b hb => ?_⟩, ?_⟩
    · rw [pifRearm_pif, pif_updPif_self]
    · rw [pifRearm_pif, pif_updPif_ne _ _ hb]
    · exact (pifRearm_keeps _ s (fun _ q => q) (Keeps.refl _ s)).only
  · have e : pifCtrlWrite c.val v s = pifLoad c.val s := by rw [pifCtrlWrite_eq, h0, h1]; rfl
    refine ⟨_, congrArg Host.Outcome.next ((guardWrite_writable hw (pifCtrl_inRange c v) _).trans e), ⟨?_, fun b hb => ?_⟩, ?_⟩
    · rw [pifLoad, pif_updPif_self]
    · rw [pifLoad, pif_updPif_ne _ _ hb]
    · exact (pifLoad_keeps _ s (fun _ q => q) (Keeps.refl _ s)).only
  · obtain ⟨r, hd, -, -, -, hn, -⟩ := idxPeriod_row c high
    have hi := inRange_none v fun q hq => Option.some.inj (hd.symm.trans hq) ▸ hn
    rw [← writable_samePage (idxPeriod_page c high)] at hw
    refine ⟨_, congrArg Host.Outcome.next ((guardWrite_writable hw hi _).trans (idxPeriodWrite_eq c high v s)), ⟨?_, fun b hb => ?_, ?_⟩, ?_⟩
    · exact rd_wr_self _ _ s
    · exact rd_wr_ne _ s hb
    · rw [pif_updPif_self]
      rfl
    · rw [← idxPeriodWrite_eq]
      exact (idxPeriodWrite_keeps _ _ _ s (fun _ q => q) (Keeps.refl _ s)).only

end Sys2Proof.Machine
end

section
/-! SUPPORT. The proofs of what the device and ring commands of resident firmware do (O9). -/

namespace Sys2Proof.Machine
open Sys2Proof

/-! ## A command taken, through its body -/

/-- An admitted command that names no stream answers what its body makes of the state its taking leaves. -/
theorem admitted_next {i : Instr} {d : Desc} {cls : RingClass} {objs : Nat → List Nat} {body : Hdr → State → State} {s : State}
    {ps : List Part} {P : State → Prop} (ha : Admitted d cls objs s = true)
    (he : exec i s = .next (command d cls objs i body s)) (hn : streamObjs (taken d s) (hdrOf d s) i = [])
    (hk : Keeps ps s (body (hdrOf d s) (taken d s))) (hP : P (body (hdrOf d s) (taken d s))) :
    ∃ t, exec i s = .next t ∧ P t ∧ Only ps s t :=
  ⟨_, he.trans (congrArg _ (command_admitted ha i body hn)), hP, hk.only⟩

theorem taken_only (d : Desc) (s : State) : Keeps takingParts s (taken d s) := taken_keeps d s (by decide) (Keeps.refl _ s)

theorem ok_taken_keeps (d : Desc) (r : Nat) (s : State) : Keeps completionParts s (ok (hdrOf d s) r (taken d s)) :=
  ok_keeps _ _ _ (by decide) ((taken_only d s).mono (by decide))

section
variable (d : Desc) (s : State) (m : Nat)

@[simp] theorem taken_ring_state : (ring (taken d s) m).state = (ring s m).state := taken_ring_field Ring.state (fun _ _ _ _ => rfl) d s m

@[simp] theorem taken_ring_typ : (ring (taken d s) m).typ = (ring s m).typ := taken_ring_field Ring.typ (fun _ _ _ _ => rfl) d s m

@[simp] theorem taken_ring_tenant : (ring (taken d s) m).tenant = (ring s m).tenant :=
  taken_ring_field Ring.tenant (fun _ _ _ _ => rfl) d s m

end

theorem taken_ring_ne {d : Desc} {m : Nat} (s : State) (h : m ≠ d.ring.val) : ring (taken d s) m = ring s m := by
  rw [ring_congr (taken_rings d s), ring_updRing_ne _ _ h]

theorem taken_completed (d : Desc) (r : Nat) (s : State) : Completed d 0 r s (ok (hdrOf d s) r (taken d s)) :=
  complete_completed_alike 0 r (RingsAlike.refl _) rfl rfl rfl

/-- The state a command completes from, where its own ring's CI has passed it and its completion ring is as its taking left it. -/
structure CompletesFrom (d : Desc) (s u : State) : Prop where
  ci : (ring u d.ring.val).ci = (hdrOf d s).ci
  paired : ring u (hdrOf d s).paired = ring (taken d s) (hdrOf d s).paired
  held : u.fw.held = s.fw.held
  time : u.clock = s.clock
  issue : u.hif.cfg = s.hif.cfg

theorem CompletesFrom.completed {d : Desc} {s u : State} (h : CompletesFrom d s u) (status result : Nat) :
    Completed d status result s (complete (hdrOf d s) status result u) := by
  obtain ⟨hci, hp, hh, ht, hc⟩ := h
  have hissue : canIssue u = canIssue (taken d s) := by rw [canIssue, canIssue, hc]; rfl
  have hmay : ∀ b, mayComplete (hdrOf d s) b u = mayComplete (hdrOf d s) b (taken d s) := fun b => by
    have h1 : heldFor u (hdrOf d s).paired = heldFor (taken d s) (hdrOf d s).paired := by rw [heldFor, heldFor, hh]; rfl
    simp only [mayComplete, canPost, h1, hp, hissue]
  have hrec : cplRecord (hdrOf d s) status result u = cplRecord (hdrOf d s) status result s := by
    rw [cplRecord, cplRecord, stamp, stamp, ht]
  have hent : (ring u (hdrOf d s).paired).entries = (ring s (hdrOf d s).paired).entries :=
    (congrArg Ring.entries hp).trans (taken_ring_field Ring.entries (fun _ _ _ _ => rfl) d s _)
  have hpi : (ring u (hdrOf d s).paired).pi = (ring s (hdrOf d s).paired).pi :=
    (congrArg Ring.pi hp).trans (taken_ring_field Ring.pi (fun _ _ _ _ => rfl) d s _)
  obtain ⟨hgone, hr⟩ := completeWith_recorded (h := hdrOf d s) (ws := []) (s := u) status result (RingsAlike.refl u) rfl rfl rfl
  show CompletedWith [] d status result s (completeWith [] (hdrOf d s) status result u)
  refine ⟨(completeWith_ci _ _ _ _ _ _).trans hci, hgone, ?_⟩
  unfold Recorded at hr ⊢
  simpa only [hmay, hrec, hent, hpi, hh, hissue] using hr

/-! ## RING_CREATE (R66, R130, R448) -/

/-- The ring RING_CREATE makes of its operands. -/
def createdRing (ty : RingType) (size ten paired vector imodCnt imodTime base wb : Nat) : Ring :=
  { Ring.init with
    state := .active, typ := ty, log2 := size, base := BitVec.ofNat 64 base, tenant := ten, wb := BitVec.ofNat 64 wb,
    paired := if ty = .command then paired else 0, vector := if ty.produced then vector else 0,
    imodCnt := if ty.produced then imodCnt else 1, imodTime := if ty.produced then imodTime else 0 }

section
variable {d : Desc} {n typ size ten paired vector imodCnt imodTime base wb : Nat} {ty : RingType} {s : State}
  (ht : ringType typ = some ty) (ho : ringOperands n ty size ten vector imodCnt base wb = true)
  (hd : (ring s n).state = .disabled)
  (hq : ty = .command → (ring s paired).state ≠ .disabled ∧ (ring s paired).typ = .completion ∧ (ring s paired).tenant = ten)
  (hten : ten ≠ 0 → (tenant s ten).state = .enabled)
include ht ho hd hq hten

theorem ringCreate_created : ringCreate (hdrOf d s) n typ size ten paired vector imodCnt imodTime base wb (taken d s) =
    let s1 := putRing n (createdRing ty size ten paired vector imodCnt imodTime base wb) (taken d s)
    ok (hdrOf d s) 0 (if ty = .event then postBootDone s1 else s1) := by
  have h1 : ¬(ty = .command ∧ ¬((ring s paired).state ≠ .disabled ∧ (ring s paired).typ = .completion ∧
      (ring s paired).tenant = ten)) := fun k => k.2 (hq k.1)
  have h2 : ∀ st, st ≠ .enabled → ¬(ten ≠ 0 ∧ (tenant (taken d s) ten).state = st) := fun st hst k => hst (k.2.symm.trans (hten k.1))
  simp only [ringCreate, ht, ho, taken_ring_state, taken_ring_typ, taken_ring_tenant, hd, if_neg h1,
    if_neg (h2 .disabled (by decide)), if_neg (h2 .draining (by decide))]
  rfl

end

/-- The ring that is created is not the one its command came from. -/
theorem disabled_ne_admitted {d : Desc} {cls : RingClass} {objs : Nat → List Nat} {n : Nat} {s : State}
    (ha : Admitted d cls objs s = true) (hd : (ring s n).state = .disabled) : n ≠ d.ring.val := by
  rintro rfl
  rw [(ring_of_admitted ha).1] at hd
  cases hd

/-- Without a boot to tell, or on a ring that takes no events, SAG_BOOT_DONE is not posted. -/
theorem bootDone_unposted {ty : RingType} {s : State} (h : s.pwr.bootHeld = true → ty ≠ .event) :
    (if ty = .event then postBootDone s else s) = s := by
  split
  next he => rw [postBootDone, if_neg fun k => h k he]
  next => rfl

/-- A ring created on a DISABLED one that is neither the command's own nor its completion ring leaves both. -/
theorem putRing_completesFrom {d : Desc} {n : Nat} {r : Ring} {s : State} (hd : n ≠ d.ring.val) (hp : (ring s d.ring.val).paired ≠ n) :
    CompletesFrom d s (putRing n r (taken d s)) :=
  ⟨by rw [ring_putRing_ne _ _ (Ne.symm hd), taken_ring_self]; rfl, ring_putRing_ne _ _ hp, rfl, rfl, rfl⟩

/-- Stook stages the event handed to it: it takes the next sequence number, and rings, commands and time stay (R505). -/
theorem event_staged {code : Nat} {ten : Option Nat} {pl : List Byte} {s : State} (he : rbit s Reg.STK_CTRL 0 = true)
    (hl : s.stk.staging.length < 512) : event code ten pl s =
    { wr Reg.STK_EVT_SEQ (rd s Reg.STK_EVT_SEQ + 1) s with stk := { s.stk with staging := s.stk.staging ++
      [{ code := BitVec.ofNat 16 code, alarm := false, commit := false, seq := rd s Reg.STK_EVT_SEQ, time := stamp s, tenant := ten,
         payload := pl }] } } := by
  have h1 : rbit (wr Reg.STK_EVT_SEQ (rd s Reg.STK_EVT_SEQ + 1) s) Reg.STK_CTRL 0 = true := by
    rw [rbit, rn, rd_wr_ne _ _ (by decide)]
    exact he
  rw [event, acceptEvent]
  dsimp only
  simp only [h1, wr_stk, hl, decide_true, Bool.and_self, if_true]

/-- What posting SAG_BOOT_DONE leaves: the event staged last, and nothing of rings, commands or time changed (R448). -/
structure BootDonePosted (s t : State) : Prop where
  bootHeld : t.pwr.bootHeld = false
  staged : ∃ e, t.stk.staging = s.stk.staging ++ [e] ∧ e.code = 0x0902 ∧ e.seq = rd s Reg.STK_EVT_SEQ ∧
    e.payload = le 1 (lifecycle s) ++ le 4 s.sag.patchLevel ++ le 1 (rn s Reg.GLB_RST_CAUSE)
  hif : t.hif = s.hif
  fw : t.fw = s.fw
  clock : t.clock = s.clock

theorem postBootDone_posted {s : State} (hb : s.pwr.bootHeld = true) (he : rbit s Reg.STK_CTRL 0 = true)
    (hl : s.stk.staging.length < 512) : BootDonePosted s (postBootDone s) := by
  rw [postBootDone, if_pos hb, event_staged (s := { s with pwr := { s.pwr with bootHeld := false } }) he hl]
  exact ⟨rfl, ⟨_, rfl, rfl, rfl, rfl⟩, rfl, rfl, rfl⟩

theorem CompletesFrom.after {d : Desc} {s u t : State} (h : CompletesFrom d s u) (hhif : t.hif = u.hif) (hfw : t.fw = u.fw)
    (hclock : t.clock = u.clock) : CompletesFrom d s t := by
  have hr : ∀ m, ring t m = ring u m := ring_congr (by rw [hhif])
  obtain ⟨hci, hp, hh, ht, hc⟩ := h
  exact ⟨by rw [hr, hci], by rw [hr, hp], by rw [hfw, hh], by rw [hclock, ht], by rw [hhif, hc]⟩

/-! ## RING_DESTROY (R130) -/

/-- Taking a command pairs no ring with a completion ring that none was paired with. -/
theorem taken_unpaired {d : Desc} {n : Nat} {s : State} (hp : (ring s d.ring.val).paired ≠ n)
    (hq : ∀ e ∈ s.hif.rings, e.2.typ = .command → e.2.state ≠ .disabled → e.2.paired ≠ n) :
    ((taken d s).hif.rings.any fun e => decide (e.2.typ = .command ∧ e.2.state ≠ .disabled ∧ e.2.paired = n)) = false := by
  rw [List.any_eq_false]
  intro e he hx
  obtain ⟨ht, hs, hn⟩ := of_decide_eq_true hx
  rcases mem_tput he with rfl | he
  · exact hp hn
  · exact hq e he ht hs hn

/-- A ring as RING_DESTROY leaves it, with the commands that must complete first. -/
def Ring.destroyed (q : List Nat) (r : Ring) : Ring :=
  { r with state := .stopped, destroying := true, fetched := 0, fences := [], drains := q }

/-- The commands of a ring that execute. -/
def ringExecuting (s : State) (n : Nat) : List Nat := ((executing s).filter fun p => decide (p.h.d.ring.val = n)).map (·.h.seq)

theorem ringDestroy_destroys {d : Desc} {c : Instr} {n : Nat} {s : State} (hl : 2 ≤ n) (hu : n < 8192)
    (hd : (ring s n).state ≠ .disabled) (hp : (ring s d.ring.val).paired ≠ n)
    (hq : (ring s n).typ = .completion → ∀ e ∈ s.hif.rings, e.2.typ = .command → e.2.state ≠ .disabled → e.2.paired ≠ n) :
    ringDestroy (hdrOf d s) c n (taken d s) = parkAccepted (hdrOf d s) c [objRing n] [keyRing n]
      (updRing n (Ring.destroyed (ringExecuting s n)) (taken d s)) := by
  have h1 : ¬(n < 2 ∨ 8192 ≤ n) := by omega
  have h2 : ¬((ring s n).typ = .completion ∧ ((taken d s).hif.rings.any fun e =>
      decide (e.2.typ = .command ∧ e.2.state ≠ .disabled ∧ e.2.paired = n)) = true) := fun k => by
    rw [taken_unpaired hp (hq k.1)] at k
    exact Bool.noConfusion k.2
  simp only [ringDestroy, if_neg h1, taken_ring_state, taken_ring_typ, if_neg hd, if_neg h2]
  rfl

/-! ## RING_QUERY (R130) -/

theorem ringQuery_ok {h : Hdr} {n : Nat} {s : State} (hn : n < 8192) (hd : (ring s n).state ≠ .disabled) :
    ringQuery h n s = ok h (res 16 (ring s n).state.code + res 17 (ring s n).typ.code + res 18 (ring s n).log2 +
      res 20 (ring s n).tenant + res 22 (ring s n).pi + res 26 (ring s n).ci) s := by
  rw [ringQuery, if_neg (by omega)]
  dsimp only
  rw [if_neg hd]

/-- Settles O9: each command through its body, in the state its taking leaves. -/
theorem ringCommandsRun : Obligations.RingCommandsRun := by
  refine ⟨?nop, ?info, ?create, ?createEvent, ?destroy, ?destroyDone, ?query, ?queryOwn⟩
  case nop =>
    intro d s ha
    exact admitted_next ha rfl rfl (ok_taken_keeps d 0 s) (taken_completed d 0 s)
  case info =>
    intro d s ha
    exact admitted_next ha rfl rfl (ok_taken_keeps d _ s) (taken_completed d (deviceInfo s) s)
  case create =>
    intro d n typ size ten paired vector imodCnt imodTime base wb ty s ha ht ho hd hq hten hp hb
    refine admitted_next ha rfl rfl (ringCreate_keeps _ _ _ _ _ _ _ _ _ _ _ _ (by decide) ((taken_only d s).mono (by decide))) ?_
    rw [ringCreate_created ht ho hd hq hten]
    dsimp only
    rw [bootDone_unposted (s := putRing _ _ (taken d s)) hb]
    refine ⟨(putRing_completesFrom (disabled_ne_admitted ha hd) hp).completed _ _, ?_⟩
    rw [ok, complete_ring_ne _ _ (Ne.symm hp), ring_putRing_self]
    simp [createdRing]
  case createEvent =>
    intro d n typ size ten paired vector imodCnt imodTime base wb s ha ht ho hd hten hp hb he hl
    subst ht
    refine admitted_next ha rfl rfl (ringCreate_keeps _ _ _ _ _ _ _ _ _ _ _ _ (by decide) ((taken_only d s).mono (by decide))) ?_
    rw [ringCreate_created rfl ho hd nofun hten]
    dsimp only
    rw [if_pos rfl]
    generalize hr : createdRing _ _ _ _ _ _ _ _ _ = r
    obtain ⟨hheld, ⟨e, hstaged, hevent⟩, hhif, hfw, hclock⟩ := postBootDone_posted (s := putRing n.toNat r (taken d s)) hb he hl
    have hring : ring (ok (hdrOf d s) 0 (postBootDone (putRing n.toNat r (taken d s)))) n.toNat = r := by
      rw [ok, complete_ring_ne _ _ (Ne.symm hp), ring_congr (congrArg Hif.rings hhif), ring_putRing_self]
    refine ⟨((putRing_completesFrom (disabled_ne_admitted ha hd) hp).after hhif hfw hclock).completed _ _, ?_, ?_, ?_, e, ?_, hevent⟩
    · rw [hring, ← hr]
      rfl
    · rw [hring, ← hr]
      rfl
    · rw [ok, complete_pwr, hheld]
    · rw [ok, complete_staging, hstaged]
      rfl
  case destroy =>
    intro d n s ha hl hu hd hq hp
    refine admitted_next ha rfl rfl (ringDestroy_keeps _ _ _ _ (by decide) ((taken_only d s).mono (by decide))) ?_
    rw [ringDestroy_destroys hl hu hd hp hq]
    have hring : ring (parkAccepted (hdrOf d s) (.ringDestroy d n) [objRing n.toNat] [keyRing n.toNat]
        (updRing n.toNat (Ring.destroyed (ringExecuting s n.toNat)) (taken d s))) n.toNat =
        (ring (taken d s) n.toNat).destroyed (ringExecuting s n.toNat) := ring_updRing_self _ _ _
    refine ⟨parkAccepted_accepted _ _ _ ?_, ?_⟩
    · exact (ring_updRing_field Ring.ci _ _ rfl).trans (congrArg Ring.ci (taken_ring_self d s))
    · rw [hring]
      exact ⟨rfl, rfl, rfl⟩
  case destroyDone =>
    intro n s hd hr
    have hdone : ringDestroyDone n.val s = arrive (keyRing n.val) (fun _ => 0) (putRing n.val Ring.init s) := by
      rw [ringDestroyDone, hd, hr]
      rfl
    refine next_at (execRingDestroyDone_keeps n s) (by decide) (congrArg Host.Outcome.next hdone) ⟨?_, arrive_waits _ _ _⟩
    exact arrive_ring_init _ _ _ (ring_putRing_self _ _ _)
  case query =>
    intro d n s ha hn hd hne
    refine admitted_next ha rfl rfl (ringQuery_keeps _ _ _ (by decide) ((taken_only d s).mono (by decide))) ?_
    rw [ringQuery_ok hn (by rw [taken_ring_state]; exact hd), taken_ring_ne s hne]
    exact taken_completed d _ s
  case queryOwn =>
    intro d n s ha hn
    have hs : (ring s n.toNat).state = .active ∧ (ring s n.toNat).typ = .command := by
      rw [hn]
      exact ring_of_admitted ha
    refine admitted_next ha rfl rfl (ringQuery_keeps _ _ _ (by decide) ((taken_only d s).mono (by decide))) ?_
    rw [ringQuery_ok (hn ▸ d.ring.isLt) (by rw [taken_ring_state, hs.1]; decide), taken_ring_state, taken_ring_typ, hs.1, hs.2, hn,
      taken_ring_self]
    exact taken_completed d _ s

end Sys2Proof.Machine
end

section
/-! SUPPORT. The proofs of what the link's reads do: issuing, completion, time-out, promotion (O36). -/

namespace Sys2Proof.Machine
open Sys2Proof

/-! ## Issuing a read (R75, R77, R78) -/

section
variable (kind : ReadKind) (addr len : Nat) (s : State)

theorem issueRead_reads : (issueRead kind addr len s).hif.reads = tput s.hif.reads (freeTag s) ⟨kind, addr, len, false, false⟩ := rfl

theorem issueRead_out : (issueRead kind addr len s).out =
    .hostRead (freeTag s) addr len (HostRead.relaxed ⟨kind, addr, len, false, false⟩ s) :: s.out := rfl

theorem issueRead_fetches : (issueRead kind addr len s).hif.fetches = s.hif.fetches := rfl

theorem ring_issueRead (n : Nat) : ring (issueRead kind addr len s) n = ring s n := rfl

end

theorem descriptorFetch_due {n : Nat} {s : State} (h : descrDue s n = true) : descriptorFetch n s =
    issueRead (.descr n (ring s n).nextRead (ring s n).toRead)
      ((ring s n).base.toNat + (ring s n).nextRead % (ring s n).size * 64) (64 * (ring s n).toRead)
      (putRing n { ring s n with nextRead := ((ring s n).nextRead + (ring s n).toRead) % idxMod } s) := by
  rw [descriptorFetch]
  exact if_pos h

/-- The bytes of a fetch that one data read takes (R77). -/
def readLen (f : Fetch) (s : State) : Nat := min (min f.len (4096 - f.addr % 4096)) s.hif.cfg.mrrs

/-- The fetches left once a read takes the first `n` bytes of one of them. -/
def fetchesLeft (f : Fetch) (n : Nat) (l : List Fetch) : List Fetch := l.filterMap fun g =>
  if g.seq = f.seq then
    (if f.len ≤ n then none else some { g with addr := f.addr + n, off := f.off + n, len := f.len - n })
  else some g

theorem mem_fetchesLeft_other {f g : Fetch} {n : Nat} {l : List Fetch} (hg : g ∈ l) (h : g.seq ≠ f.seq) : g ∈ fetchesLeft f n l :=
  List.mem_filterMap.mpr ⟨g, hg, if_neg h⟩

/-- What is left of the fetch read from is its rest. -/
theorem mem_fetchesLeft_same {f g : Fetch} {n : Nat} {l : List Fetch} (hg : g ∈ fetchesLeft f n l) (h : g.seq = f.seq) :
    n < f.len ∧ g.addr = f.addr + n ∧ g.off = f.off + n ∧ g.len = f.len - n := by
  obtain ⟨a, -, ha⟩ := List.mem_filterMap.mp hg
  split at ha
  next hs =>
    split at ha
    next => cases ha
    next hn =>
      obtain rfl := Option.some.inj ha
      exact ⟨Nat.lt_of_not_le hn, rfl, rfl, rfl⟩
  next hs =>
    obtain rfl := Option.some.inj ha
    exact absurd h hs

theorem dataFetch_next {f : Fetch} {s : State} (hf : nextFetchOf s = some f) (hm : mayFetch s = true) (ho : outReads s false < 736)
    (ht : freeTag s < 768) (hd : ∀ e ∈ s.hif.rings, descrDue s e.1 = false) : dataFetch s =
    issueRead (.data f.ring f.entry f.tenant f.handle f.off) f.addr (readLen f s)
      { s with hif := { s.hif with fetches := fetchesLeft f (readLen f s) s.hif.fetches } } := by
  have hany : (s.hif.rings.any fun e => descrDue s e.1) = false := List.any_eq_false.mpr fun e he => Bool.eq_false_iff.mp (hd e he)
  simp only [dataFetch, hf, hm, ho, ht, hany, decide_true, Bool.and_self, Bool.not_false, if_true]
  rfl

/-! ## Streams -/

/-- A change of a stream that keeps its name is found under that name. -/
theorem findStream_updStream {t h : Nat} {f : Stream → Stream} (hf : ∀ x, (f x).tenant = x.tenant ∧ (f x).handle = x.handle) (s : State) :
    findStream (updStream t h f s) t h = (findStream s t h).map f := by
  have hp : (fun x : Stream => decide (x.tenant = t ∧ x.handle = h)) ∘ (fun x => if x.tenant = t ∧ x.handle = h then f x else x) =
      fun x => decide (x.tenant = t ∧ x.handle = h) := by
    funext x
    dsimp only [Function.comp]
    split <;> simp [hf]
  show List.find? _ (List.map _ _) = _
  rw [List.find?_map, hp]
  show Option.map _ (findStream s t h) = _
  cases hx : findStream s t h with
  | none => rfl
  | some x => exact congrArg some (if_pos (of_decide_eq_true (List.find?_some hx :)))

/-- Bytes read join a stream's pieces. -/
def Stream.spooled (p : Piece) (x : Stream) : Stream := { x with pieces := x.pieces ++ [p] }

/-- A stream that has failed (R85, R116). -/
def Stream.lost (x : Stream) : Stream := { x with failed := true }

/-! ## What the failing of a stream or of a ring leaves -/

/-- Outstanding reads, streams, and the registers of HIF's page but for the two that errors and latency messages write. -/
structure ReadsKept (s t : State) : Prop where
  reads : t.hif.reads = s.hif.reads
  streams : t.jobs.streams = s.jobs.streams
  regs : ∀ k, keyKind k = .hif → k ≠ Reg.HIF_LTR_LAST → k ≠ Reg.HIF_STAT → rn t k = rn s k

theorem reads_of_same {s t : State} (h : Part.same s t .hif) : t.hif.reads = s.hif.reads ∧ t.hif.fetches = s.hif.fetches :=
  ⟨(congrArg Hif.reads h :), (congrArg Hif.fetches h :)⟩

theorem ReadsKept.refl (s : State) : ReadsKept s s := ⟨rfl, rfl, fun _ _ _ _ => rfl⟩

theorem ReadsKept.trans {s t u : State} (h : ReadsKept s t) (k : ReadsKept t u) : ReadsKept s u :=
  ⟨k.reads.trans h.reads, k.streams.trans h.streams, fun a h1 h2 h3 => (k.regs a h1 h2 h3).trans (h.regs a h1 h2 h3)⟩

theorem ReadsKept.of_keeps {ps : List Part} {s t : State} (k : Keeps ps s t)
    (h : Part.hif ∉ ps ∧ Part.jobs ∉ ps ∧ Part.reg .hif ∉ ps) : ReadsKept s t :=
  ⟨(reads_of_same (k.only .hif h.1)).1, congrArg Jobs.streams (k.only .jobs h.2.1), fun a ha _ _ => k.rn (by rw [ha]; exact h.2.2)⟩

theorem ReadsKept.foldl {α : Type} {g : State → α → State} {l : List α} {s : State} (hg : ∀ u x, ReadsKept u (g u x)) :
    ReadsKept s (l.foldl g s) := by
  induction l generalizing s with
  | nil => exact ReadsKept.refl s
  | cons x l ih => exact (hg s x).trans ih

theorem ReadsKept.findStream {s t : State} (h : ReadsKept s t) (ten handle : Nat) : findStream t ten handle = Machine.findStream s ten handle :=
  congrArg (List.find? _) h.streams

theorem ltrSend_readsKept (m : Nat) (s : State) : ReadsKept s (ltrSend m s) := ⟨rfl, rfl, fun _ _ h _ => rn_wn_ne _ _ h⟩

theorem ltrUpdate_readsKept (s : State) : ReadsKept s (ltrUpdate s) := by
  unfold ltrUpdate
  split
  · exact ReadsKept.refl s
  split
  · split
    · split
      · exact ltrSend_readsKept _ s
      · exact ReadsKept.refl s
    · exact ReadsKept.refl s
  · split
    · split
      · exact ltrSend_readsKept _ s
      · exact ReadsKept.refl s
    · exact ltrSend_readsKept _ s

/-- Kiln's latency tolerance is put in its registers and told. -/
theorem putLt_readsKept (lt stat : Nat) (s : State) :
    ReadsKept s (ltrUpdate (refreshGrants (wn Reg.KLN_LT_STAT stat (wn Reg.KLN_LT lt s)))) := by
  have hk : Keeps [.reg .klnC] s (refreshGrants (wn Reg.KLN_LT_STAT stat (wn Reg.KLN_LT lt s))) :=
    refreshGrants_keeps _ (by decide) (wn_keeps _ _ _ (by decide) (wn_keeps _ _ _ (by decide) (Keeps.refl _ s)))
  exact (ReadsKept.of_keeps hk (by decide)).trans (ltrUpdate_readsKept _)

theorem refreshIdle_readsKept (s : State) : ReadsKept s (refreshIdle s) := by
  unfold refreshIdle
  split
  next hp =>
    simp only [refreshLt, hp, if_true]
    split
    · exact putLt_readsKept _ _ s
    · exact putLt_readsKept _ _ s
  next => exact ReadsKept.refl s

theorem appendReceipt_jobs (t : Nat) (slot : Bool) (body : Nat → List Byte) (s : State) : (appendReceipt t slot body s).jobs = s.jobs :=
  (appendReceipt_keeps t slot body s (fun _ q => q) (Keeps.refl _ s)).only .jobs (by decide)

theorem closeBatch_jobs (t : Nat) (s : State) : (closeBatch t s).jobs = s.jobs :=
  (closeBatch_keeps t s (fun _ q => q) (Keeps.refl _ s)).only .jobs (by decide)

theorem sealCopy_streams (c : Nat) (s : State) : (sealCopy c s).jobs.streams = s.jobs.streams := by
  unfold sealCopy
  split
  next x hx =>
    extract_lets void mask t2 slot s1 s2 s3 s4
    have h3 : s3.jobs.streams = s.jobs.streams := by
      unfold s3
      rw [appendReceipt_jobs]
      unfold s2
      split <;> rfl
    split
    · rfl
    split
    · exact h3
    split
    · exact h3
    · rw [closeBatch_jobs]
      exact h3
  next => rfl

theorem sealVoid_streams (c : Nat) (s : State) : (sealVoid c s).jobs.streams = s.jobs.streams := by
  unfold sealVoid
  split
  · split
    · exact sealCopy_streams _ _
    · rfl
  · rfl

theorem voidCopy_streams (c : Nat) (corrupt : Bool) (s : State) : (voidCopy c corrupt s).jobs.streams = s.jobs.streams := by
  unfold voidCopy
  split
  · split
    · exact sealVoid_streams _ _
    · rfl
  · rfl

theorem voidCopy_readsKept (c : Nat) (corrupt : Bool) (s : State) : ReadsKept s (voidCopy c corrupt s) := by
  have hk := voidCopy_keeps c corrupt s (fun _ q => q) (Keeps.refl _ s)
  exact ⟨(reads_of_same (hk.only .hif (by decide))).1, voidCopy_streams c corrupt s, fun k h _ _ => hk.rn (by rw [h]; decide)⟩

theorem corruptCopy_readsKept (c : Nat) (s : State) : ReadsKept s (corruptCopy c s) := by
  unfold corruptCopy
  split
  · split
    · exact (voidCopy_readsKept _ _ _).trans (refreshIdle_readsKept _)
    · exact ⟨rfl, rfl, fun _ _ _ _ => rfl⟩
  · exact ReadsKept.refl s

/-- A stream that fails keeps its bytes: beside its flag, no stream, read or counter changes (R85, R116). -/
theorem failStream_readsKept (t h : Nat) (s : State) :
    ReadsKept (updStream t h Stream.lost s) (failStream t h s) :=
  (ReadsKept.of_keeps (failWaiters_keeps t h _ (fun _ q => q) (Keeps.refl _ _)) (by decide)).trans
    (ReadsKept.foldl fun u c => corruptCopy_readsKept c.seq u)

theorem passRing_readsKept (n : Nat) (s : State) : ReadsKept s (passRing n s) :=
  ReadsKept.of_keeps (passRing_keeps n s (fun _ q => q) (Keeps.refl _ s)) (by decide)

theorem recordErr_readsKept (c : Nat) (s : State) : ReadsKept s (recordErr pgHif c s) := by
  have hk := recordErr_keeps' pgHif c s
  exact ⟨(reads_of_same (hk.only .hif (by simp))).1, congrArg Jobs.streams (hk.only .jobs (by simp)),
    fun k _ _ _ => rn_congr (rd_of_regs (recordErr_regs _ _ _) k)⟩

theorem ringError_readsKept (n : Nat) (err : BitVec 16) (s : State) : ReadsKept s (ringError n err s) := by
  have hk : ∀ u, Keeps [.msix, .out, .reg .stk, .rings, .stk] u (event 0x1001 none (le 4 n) u) := fun u =>
    event_keeps _ _ _ _ (fun _ q => q) (Keeps.refl _ u)
  unfold ringError
  extract_lets s1
  have h1 : ReadsKept s s1 := (ReadsKept.of_keeps (updRing_keeps n _ s (by decide) (Keeps.refl [Part.rings] s)) (by decide)).trans
    (ReadsKept.of_keeps (hk _) (by decide))
  split
  · exact h1.trans ⟨rfl, rfl, fun _ _ _ h => rn_wf_ne _ _ _ _ h⟩
  · exact h1

/-! ## A read that has failed (R85) -/

/-- What the failing of a read leaves: its ring in ERROR, or its stream failed. -/
structure ReadFailed (x : HostRead) (s t : State) : Prop where
  reads : t.hif.reads = s.hif.reads
  regs : ∀ k, keyKind k = .hif → k ≠ Reg.HIF_LTR_LAST → k ≠ Reg.HIF_STAT → rn t k = rn s k
  ring : ∀ n start k, x.kind = .descr n start k → (ring t n).state = .error
  stream : ∀ n entry ten h off y, x.kind = .data n entry ten h off → findStream s ten h = some y →
    ∃ z, findStream t ten h = some z ∧ z.failed = true

theorem failRead_failed (x : HostRead) (code : Nat) (s : State) : ReadFailed x s (failRead x code s) := by
  have hr := recordErr_readsKept code s
  unfold failRead
  cases hx : x.kind with
  | descr n start k =>
    obtain ⟨hreads, -, hregs⟩ := hr.trans (ringError_readsKept n (BitVec.ofNat 16 (0x1000 + code)) _)
    refine ⟨hreads, hregs, fun m _ _ e => ?_, fun _ _ _ _ _ _ e => nomatch hx.symm.trans e⟩
    obtain ⟨rfl, -, -⟩ := ReadKind.descr.inj (hx.symm.trans e)
    exact (ringError_ring _ _ _).1
  | data n entry t h off =>
    dsimp only
    generalize hdrop : ({ recordErr pgHif code s with hif := { (recordErr pgHif code s).hif with fetches := _ } } : State) = u
    have hu : ReadsKept s u := hr.trans (hdrop ▸ ⟨rfl, rfl, fun _ _ _ _ => rfl⟩)
    have hf := (failStream_readsKept t h u).trans (passRing_readsKept n _)
    refine ⟨hf.reads.trans hu.reads, fun k h1 h2 h3 => (hf.regs k h1 h2 h3).trans (hu.regs k h1 h2 h3),
      fun _ _ _ e => (nomatch hx.symm.trans e), fun _ _ _ _ _ y e hy => ?_⟩
    obtain ⟨-, -, rfl, rfl, -⟩ := ReadKind.data.inj (hx.symm.trans e)
    refine ⟨y.lost, ?_, rfl⟩
    rw [hf.findStream, findStream_updStream (f := Stream.lost) fun _ => ⟨rfl, rfl⟩, hu.findStream, hy]
    rfl

/-! ## Completions (R69, R85, R88) -/

section
variable {tag : Nat} {x : HostRead} {s : State} (hx : tfind s.hif.reads tag = some x) (hd : x.dropped = false)
include hx hd

theorem readCompletion_descr {n start k : Nat} {bs : List Byte} (hk : x.kind = .descr n start k) (hl : bs.length = x.len)
    (ha : (ring s n).state = .active) : readCompletion tag (.data bs) s = gotEntries n start bs (dropRead tag s) := by
  have ha' : (ring (dropRead tag s) n).state = .active := ha
  simp [readCompletion, hx, hd, hk, hl, ha']

theorem readCompletion_data {n entry t h off : Nat} {bs : List Byte} (hk : x.kind = .data n entry t h off) (hl : bs.length = x.len) :
    readCompletion tag (.data bs) s = gotBytes n t h off bs (dropRead tag s) := by
  simp [readCompletion, hx, hd, hk, hl]

/-- A completion with an error counts, is reported through AER, and fails the read. -/
theorem readCompletion_fails {r : ReadResult} (hr : ∀ bs, r ≠ .data bs) : ∃ code cnt e,
    readCompletion tag r s = failRead x code (inc cnt 1 (report e (dropRead tag s))) := by
  cases r with
  | data bs => exact absurd rfl (hr bs)
  | poisoned => exact ⟨_, _, _, by simp only [readCompletion, hx, hd]; rfl⟩
  | ur => exact ⟨_, _, _, by simp only [readCompletion, hx, hd]; rfl⟩
  | ca => exact ⟨_, _, _, by simp only [readCompletion, hx, hd]; rfl⟩

end

theorem readCompletion_unexpected {tag : Nat} {r : ReadResult} {s : State} (hx : tfind s.hif.reads tag = none) :
    readCompletion tag r s = report .unexpected { s with hif := { s.hif with stale := tdel s.hif.stale tag } } := by
  rw [readCompletion, hx]

/-- Entries read of a ring that carries no stream descriptors wait to be taken (R69). -/
theorem gotEntries_plain {n start : Nat} {bs : List Byte} {s : State} (h : (ring s n).typ ≠ .data) : gotEntries n start bs s =
    updRing n (fun r => { r with
      fetched := r.fetched + (entries64 bs).length
      fences := r.fences ++ (entries64 bs).map fun e => (e.getD 1 0#8).getLsbD 0 }) s := by
  have hb : ∀ e : List Byte, decide ((e.getD 1 0#8).toNat % 2 = 1) = (e.getD 1 0#8).getLsbD 0 := fun e => by
    simp [BitVec.getLsbD, Nat.testBit_zero]
  rw [gotEntries, if_neg h]
  simp only [hb]

/-! ## Time-outs (R65, R85, R87) -/

section
variable {tag : Nat} {x : HostRead} {s : State} (hx : tfind s.hif.reads tag = some x)
include hx

theorem readTimeout_disabled (ht : s.hif.cfg.toDisable = true) : readTimeout tag s = s := by
  simp [readTimeout, hx, ht]

variable (ht : s.hif.cfg.toDisable = false)
include ht

theorem readTimeout_first (hr : x.reissued = false) (hc : canIssue s = true) : readTimeout tag s =
    emit (.hostRead tag x.addr x.len (x.relaxed s)) { inc Reg.HIF_CPL_TO_CNT 1 (report .timeout s) with
      hif := { (inc Reg.HIF_CPL_TO_CNT 1 (report .timeout s)).hif with
        reads := tput s.hif.reads tag { x with reissued := true } } } := by
  simp only [readTimeout, hx, ht, hr, hc, Bool.false_eq_true, if_false, if_true]
  rfl

theorem readTimeout_second (hr : x.reissued = true) : readTimeout tag s =
    (if x.dropped then recordErr pgHif 0x41 (dropRead tag (inc Reg.HIF_CPL_TO_CNT 1 (report .timeout s)))
    else failRead x 0x41 (dropRead tag (inc Reg.HIF_CPL_TO_CNT 1 (report .timeout s)))) := by
  simp only [readTimeout, hx, ht, hr, Bool.false_eq_true, if_false, if_true]

end

/-- What a read's second time-out leaves: the read is gone, counted, and failed where it is still wanted. -/
structure TimedOutTwice (tag : Nat) (x : HostRead) (s t : State) : Prop where
  read : tfind t.hif.reads tag = none
  count : rn t Reg.HIF_CPL_TO_CNT = min 0xFFFFFFFF (rn s Reg.HIF_CPL_TO_CNT + 1)
  ring : x.dropped = false → ∀ n start k, x.kind = .descr n start k → (ring t n).state = .error

theorem readTimeout_timedOut {tag : Nat} {x : HostRead} {s : State} (hx : tfind s.hif.reads tag = some x)
    (ht : s.hif.cfg.toDisable = false) (hr : x.reissued = true) : TimedOutTwice tag x s (readTimeout tag s) := by
  rw [readTimeout_second hx ht hr]
  set u := dropRead tag (inc Reg.HIF_CPL_TO_CNT 1 (report .timeout s)) with hu
  have hread : tfind u.hif.reads tag = none := tfind_tdel_self _ _
  have hcount : rn u Reg.HIF_CPL_TO_CNT = min 0xFFFFFFFF (rn s Reg.HIF_CPL_TO_CNT + 1) := rn_inc_self _ _ _
  split
  next hd =>
    obtain ⟨hreads, -, hregs⟩ := recordErr_readsKept 0x41 u
    exact ⟨by rw [hreads, hread], (hregs _ (by decide) (by decide) (by decide)).trans hcount,
      fun h => Bool.noConfusion (h.symm.trans hd)⟩
  next =>
    obtain ⟨hreads, hregs, hring, -⟩ := failRead_failed x 0x41 u
    exact ⟨by rw [hreads, hread], (hregs _ (by decide) (by decide) (by decide)).trans hcount, fun _ => hring⟩

/-! ## Promotion (R78) -/

theorem bgPromote_hif (t : Nat) (s : State) :
    (bgPromote t s).hif.fetches = s.hif.fetches.map (fun f =>
      if f.since + rf s Reg.HIF_BG_PROMOTE 7 0 * ms < (bgPromote t s).clock.uptime then { f with promoted := true } else f) ∧
    (bgPromote t s).hif.reads = s.hif.reads := by
  obtain ⟨hr, hf⟩ := reads_of_same ((advanceTo_keeps t s (fun _ q => q) (Keeps.refl _ s)).only .hif (by decide))
  have hp : rf (advanceTo t s) Reg.HIF_BG_PROMOTE 7 0 = rf s Reg.HIF_BG_PROMOTE 7 0 := by
    rw [rf, rf, rn_congr (advance_rd t s (by decide))]
  refine ⟨?_, hr⟩
  rw [← hp, ← hf]
  rfl

/-- Settles O36: each read by what issuing it, its completion or its time-out leaves. -/
theorem hostLinkFetches : Obligations.HostLinkFetches := by
  refine ⟨?descr, ?data, ?entries, ?bytes, ?errors, ?unexpected, ?first, ?second, ?disabled, ?promote⟩
  case descr =>
    intro n s hd r k
    refine next_at (execHifDescriptorFetch_keeps n s) (fun _ q => q) (congrArg Host.Outcome.next (descriptorFetch_due hd)) ⟨?_, ?_, rfl⟩
    · rw [ring_issueRead, ring_putRing_self]
      rfl
    · rw [issueRead_reads]
      exact tfind_tput_self _ _ _
  case data =>
    intro f s hf hm ho ht hd n
    refine next_at (execHifDataFetch_keeps s) (fun _ q => q) (congrArg Host.Outcome.next (dataFetch_next hf hm ho ht hd)) ⟨?_, rfl, ?_, ?_⟩
    · rw [issueRead_reads]
      exact tfind_tput_self _ _ _
    · exact fun g hg h => mem_fetchesLeft_other hg h
    · exact fun g hg h => mem_fetchesLeft_same hg h
  case entries =>
    intro tag n start k x bs s hx hk hd hl ha ht
    refine ⟨_, congrArg Host.Outcome.next ((readCompletion_descr hx hd hk hl ha).trans (gotEntries_plain ht)), ⟨?_, ?_, ?_⟩, ?_⟩
    · rw [ring_updRing_self]
      rfl
    · rw [ring_updRing_self]
      rfl
    · exact tfind_tdel_self _ _
    · exact (updRing_keeps _ _ _ (by decide) (dropRead_keeps _ _ (by decide) (Keeps.refl _ s))).only
  case bytes =>
    intro tag n entry ten h off x y bs s hx hk hd hl hy
    have hf := passRing_readsKept n (noteReady (updStream ten h (Stream.spooled ⟨off, bs⟩) (dropRead tag.val s)))
    refine ⟨_, congrArg Host.Outcome.next (readCompletion_data hx hd hk hl), ⟨?_, ?_⟩, ?_⟩
    · refine (hf.findStream ten h).trans ((findStream_updStream (f := Stream.spooled ⟨off, bs⟩) (fun _ => ⟨rfl, rfl⟩) (dropRead tag.val s)).trans ?_)
      exact congrArg (Option.map (Stream.spooled ⟨off, bs⟩)) hy
    · exact (congrArg (tfind · tag.val) hf.reads).trans (tfind_tdel_self _ _)
    · exact (gotBytes_keeps _ _ _ _ _ _ (by decide) (dropRead_keeps _ _ (by decide) (Keeps.refl _ s))).only
  case errors =>
    intro tag x r s hx hd hr
    obtain ⟨code, cnt, e, heq⟩ := readCompletion_fails hx hd hr
    obtain ⟨hreads, -, hring, hstream⟩ := failRead_failed x code (inc cnt 1 (report e (dropRead tag.val s)))
    refine next_at (execHostReadCompletion_keeps tag r s) (by decide) (congrArg Host.Outcome.next heq) ⟨hring, hstream, ?_⟩
    rw [hreads]
    exact tfind_tdel_self _ _
  case unexpected =>
    intro tag r s hx
    refine ⟨_, congrArg Host.Outcome.next (readCompletion_unexpected hx), ⟨rfl, tfind_tdel_self _ _⟩, ?_⟩
    refine (report_keeps .unexpected _ (by decide) ?_).only
    exact Keeps.set_hif (Or.inr rfl) (Or.inr rfl) (Or.inl (by decide)) (Keeps.refl [Part.hif] s)
  case first =>
    intro tag x s hx ht hr hc
    refine ⟨_, congrArg Host.Outcome.next (readTimeout_first hx ht hr hc), ⟨tfind_tput_self _ _ _, rfl, rn_inc_self _ _ _⟩, ?_⟩
    refine (emit_keeps _ _ (by decide) ?_).only
    exact Keeps.set_hif (Or.inr rfl) (Or.inr rfl) (Or.inl (by decide)) (reported_keeps (by decide) s)
  case second =>
    intro tag x s hx ht hr
    obtain ⟨hread, hcount, hring⟩ := readTimeout_timedOut hx ht hr
    exact next_at (execCompletionTimeout_keeps tag s) (by decide) rfl ⟨hread, hcount, hring⟩
  case disabled =>
    intro tag x s hx ht
    exact congrArg Host.Outcome.next (readTimeout_disabled hx ht)
  case promote =>
    intro v s
    exact next_at (execBackgroundPromote_keeps v s) (fun _ q => q) rfl (bgPromote_hif v.toNat s)

end Sys2Proof.Machine
end

section
/-! SUPPORT. What the operations of tenants, jobs, copies and batches leave of tenants, rings, copies and what has left the controller
(O10 to O13, O18). -/

namespace Sys2Proof.Machine
open Sys2Proof

/-! ## Tables of tenants and of rings -/

@[simp] theorem tenant_updTenant_self (t : Nat) (f : Tenant → Tenant) (s : State) : tenant (updTenant t f s) t = f (tenant s t) :=
  tget_tput_self _ _ _ _

theorem tenant_updTenant_ne {t u : Nat} (f : Tenant → Tenant) (s : State) (h : u ≠ t) : tenant (updTenant t f s) u = tenant s u :=
  tget_tput_ne _ _ _ h

theorem tenant_congr {s u : State} (h : u.jobs = s.jobs) (t : Nat) : tenant u t = tenant s t := by
  rw [tenant, tenant, h]

@[simp] theorem sagTenant_updSag_self (t : Nat) (f : SagTenant → SagTenant) (s : State) :
    sagTenant (updSag t f s) t = f (sagTenant s t) := tget_tput_self _ _ _ _

theorem sagTenant_congr {s u : State} (h : u.sag = s.sag) (t : Nat) : sagTenant u t = sagTenant s t := by
  rw [sagTenant, sagTenant, h]

theorem findCopy_congr {s u : State} (h : u.jobs = s.jobs) (c : Nat) : findCopy u c = findCopy s c := by
  rw [findCopy, findCopy, h]

/-- An entry of a table whose values are changed alike. -/
theorem tfind_map {α β : Type} (f : α → β) (l : Tab α) (k : Nat) : tfind (l.map fun e => (e.1, f e.2)) k = (tfind l k).map f := by
  induction l with
  | nil => rfl
  | cons e r ih =>
    simp only [List.map_cons, tfind, ih]
    split <;> rfl

/-! ## The press queue's latency tolerance -/

theorem refreshIdle_only (s : State) : Keeps [.hif, .out, .reg .hif, .reg .klnC] s (refreshIdle s) :=
  refreshIdle_keeps s (fun _ q => q) (Keeps.refl _ s)

@[simp] theorem refreshIdle_jobs (s : State) : (refreshIdle s).jobs = s.jobs := (refreshIdle_only s).only .jobs (by decide)

@[simp] theorem refreshIdle_fw (s : State) : (refreshIdle s).fw = s.fw := (refreshIdle_only s).only .fw (by decide)

theorem refreshIdle_alike (s : State) : RingsAlike s (refreshIdle s) := RingsAlike.of_keeps (refreshIdle_only s) (by decide)

/-! ## Copies voided -/

theorem voidCopy_alike (c : Nat) (corrupt : Bool) (s : State) : RingsAlike s (voidCopy c corrupt s) :=
  fun m => ring_voidCopy_field (fun r => { r with gap := Ring.init.gap }) (fun _ _ => rfl) c corrupt m s

/-- The copies a command voids at once, in press-queue order. -/
def voidWhere (p : Copy → Bool) (s : State) (u : State) : State := (copyOrder s p).foldl (fun u c => voidCopy c false u) u

theorem voidWhere_alike (p : Copy → Bool) (s u : State) : RingsAlike u (voidWhere p s u) :=
  RingsAlike.foldl (fun s c => voidCopy_alike c false s) _ u

theorem voidWhere_tenant (p : Copy → Bool) (s u : State) (t : Nat) : (tenant (voidWhere p s u) t).state = (tenant u t).state :=
  (congrArg Tenant.state ((voidAll_only (copyOrder s p) false u).2 t) :)

/-- No copy of the kind voided is QUEUED or READY after it. -/
theorem voidWhere_voids {p : Copy → Bool} {s u : State} {c : Nat} {x : Copy} (hu : u.jobs.copies = s.jobs.copies)
    (hx : findCopy (voidWhere p s u) c = some x) (hq : x.state = .queued ∨ x.state = .ready) : p x = false := by
  have ho : copyOrder s p = copyOrder u p := by rw [copyOrder, copyOrder, hu]
  rw [voidWhere, ho] at hx
  exact (voidAll_left hx hq).2

end Sys2Proof.Machine
end

section
/-! SUPPORT. The proofs of what the tenant commands do (O10). -/

namespace Sys2Proof.Machine
open Sys2Proof

/-- A tenant as TENANT_ENABLE leaves it (R92). -/
def Tenant.enabledWith (jobs copies : Nat) (x : Tenant) : Tenant :=
  { x with state := .enabled, maxJobs := if jobs = 0 then 16 else jobs, maxCopies := if copies = 0 then 64 else copies, drainStep := 0 }

theorem tenantEnable_enables {h : Hdr} {t jobs copies : Nat} {s : State} (h0 : 0 < t) (ht : t < 1024)
    (hd : (tenant s t).state = .disabled) (hj : jobs ≤ 1024) (hc : copies ≤ 1024) :
    tenantEnable h t jobs copies s = ok h 0 (updTenant t (Tenant.enabledWith jobs copies) s) := by
  rw [tenantEnable, hd, if_neg (by simp; omega), if_neg (by decide), if_neg (by omega)]
  rfl

/-! ## TENANT_DISABLE (R111) -/

/-- A ring as the draining of a tenant leaves it. -/
def Ring.drained (t : Nat) (r : Ring) : Ring :=
  if r.tenant = t ∧ r.state = .active then { r with state := .stopped, fetched := 0, fences := [] } else r

theorem Ring.drained_stopped (t : Nat) (r : Ring) (h : (r.drained t).tenant = t) : (r.drained t).state ≠ .active := by
  unfold Ring.drained at h ⊢
  split at h
  next hr => simp [hr]
  next hr => simpa [hr] using fun hs => hr ⟨h, hs⟩

theorem Ring.drained_ci (t : Nat) (r : Ring) : (r.drained t).ci = r.ci := by
  unfold Ring.drained
  split <;> rfl

/-- Steps 1 and 2 of R111: the tenant is DRAINING, its rings stop, its fetches go and its reads' bytes are dropped. -/
def stopTenant (t : Nat) (s : State) : State :=
  let s1 := updTenant t (fun x => { x with state := .draining, drainStep := 3 }) s
  { s1 with hif := { s1.hif with
    rings := s1.hif.rings.map fun e => (e.1, e.2.drained t),
    fetches := s1.hif.fetches.filter fun f => decide (f.tenant ≠ t),
    reads := s1.hif.reads.map fun e => (e.1, match e.2.kind with
      | .data _ _ u _ _ => if u = t then { e.2 with dropped := true } else e.2
      | .descr r _ _ => if (ring s r).tenant = t then { e.2 with dropped := true } else e.2) } }

/-- A copy of a tenant that is QUEUED or READY. -/
def waitsFor (t : Nat) (c : Copy) : Bool := decide (c.tenant = t ∧ (c.state = .queued ∨ c.state = .ready))

theorem startDrain_eq (t : Nat) (s : State) :
    startDrain t s = refreshIdle (voidWhere (waitsFor t) (stopTenant t s) (stopTenant t s)) := rfl

theorem ring_stopTenant (t n : Nat) (s : State) : ring (stopTenant t s) n = (ring s n).drained t := by
  have hi : Ring.init.drained t = Ring.init := if_neg fun h => nomatch h.2
  show (tfind (s.hif.rings.map fun e => (e.1, e.2.drained t)) n).getD Ring.init = _
  rw [tfind_map, ring, tget]
  cases tfind s.hif.rings n with
  | none => exact hi.symm
  | some r => rfl

theorem startDrain_ring (t : Nat) (s : State) : RingsAlike (stopTenant t s) (startDrain t s) :=
  (voidWhere_alike _ _ _).trans (refreshIdle_alike _)

/-- What the first steps of a drain leave of the tenant, of its rings and of its copies. -/
structure Draining (t : Nat) (s u : State) : Prop where
  state : (tenant u t).state = .draining
  stops : ∀ n, (ring u n).tenant = t → (ring u n).state ≠ .active
  ci : ∀ n, (ring u n).ci = (ring s n).ci
  voids : ∀ c x, findCopy u c = some x → x.tenant = t → ¬(x.state = .queued ∨ x.state = .ready)

theorem startDrain_draining (t : Nat) (s : State) : Draining t s (startDrain t s) := by
  have ha := startDrain_ring t s
  refine ⟨?_, fun n h => ?_, fun n => ?_, fun c x hx ht hq => ?_⟩
  · rw [startDrain_eq, tenant_congr (refreshIdle_jobs _), voidWhere_tenant]
    exact (congrArg Tenant.state (tenant_updTenant_self t (fun x => { x with state := .draining, drainStep := 3 }) s) :)
  · rw [ha.field Ring.tenant (fun _ => rfl), ring_stopTenant] at h
    rw [ha.field Ring.state (fun _ => rfl), ring_stopTenant]
    exact Ring.drained_stopped t _ h
  · rw [ha.field Ring.ci (fun _ => rfl), ring_stopTenant, Ring.drained_ci]
  · rw [startDrain_eq, findCopy_congr (refreshIdle_jobs _)] at hx
    exact of_decide_eq_false (voidWhere_voids rfl hx hq) ⟨ht, hq⟩

/-- The state TENANT_DISABLE drains: its status record is kept for its completion (R111). -/
def drainNoted (t : Nat) (s : State) : State :=
  updTenant t (fun x => { x with drainRec := (tenantRecord t s).1 }) (tenantRecord t s).2

theorem tenantDisable_drains {h : Hdr} {c : Instr} {t : Nat} {s : State} (h0 : t ≠ 0) (he : (tenant s t).state = .enabled) :
    tenantDisable h c t s = parkAccepted h c [objTenant t] [keyTenant t] (startDrain t (drainNoted t s)) := by
  rw [tenantDisable, he, if_neg (by simp [h0]), if_neg (by decide)]
  rfl

/-! ## The end of draining -/

/-- The streams of a tenant that is wiped fail what waits for them (R111 step 4). -/
def wipeWaiters (t : Nat) (s : State) : State :=
  ((s.jobs.streams.filter fun x => decide (x.tenant = t)).map (·.handle)).foldl (fun u k => failWaiters t k u)
    (updSag t (fun x => { x with key := none }) s)

theorem wipeWaiters_sag (t : Nat) (s : State) : (wipeWaiters t s).sag = (updSag t (fun x => { x with key := none }) s).sag := by
  unfold wipeWaiters
  generalize List.map _ _ = l
  generalize updSag t _ s = u
  induction l generalizing u with
  | nil => rfl
  | cons k l ih => exact (ih _).trans (failWaiters_sag t k u)

/-- A state without a tenant's streams, and with its drain at step 4. -/
def dropStreams (t : Nat) (s : State) : State :=
  updTenant t (fun x => { x with drainStep := 4 }) { s with
    jobs := { s.jobs with streams := s.jobs.streams.filter fun x => decide (x.tenant ≠ t) },
    glz := { s.glz with tiles := s.glz.tiles.map fun x => if x.tenant = t then { x with stream := none } else x },
    thr := { s.thr with ready := s.thr.ready.filter fun x => decide (x.1 ≠ t) } }

theorem drainKeyWipe_wipes {t : Nat} {s : State} (h3 : (tenant s t).drainStep = 3) (hr : tenantReads s t = 0)
    (hd : thresherDone s t = true) : drainKeyWipe t s = dropStreams t (wipeWaiters t s) := by
  rw [drainKeyWipe, if_pos ⟨h3, hr, hd⟩]
  rfl

/-- A DISABLED tenant, without tiles, jobs, templates and sealed copies (R111 steps 5 and 6). -/
def tenantGone (t : Nat) (s : State) : State :=
  updTenant t (fun x => { x with state := .disabled, drainStep := 0 }) { s with
    glz := { s.glz with tiles := s.glz.tiles.filter fun x => decide (x.tenant ≠ t) },
    jobs := { s.jobs with
      jobs := s.jobs.jobs.filter fun x => decide (x.tenant ≠ t),
      templates := s.jobs.templates.filter fun x => decide (x.tenant ≠ t),
      copies := s.jobs.copies.filter fun c => !decide (c.tenant = t ∧ c.state = .sealed) } }

/-- The tenant is gone, and its TENANT_DISABLE completes with the record taken at its acceptance. -/
def tenantLeft (t : Nat) (s : State) : State := arrive (keyTenant t) (fun u => (tenant u t).drainRec) (tenantGone t s)

theorem drainDone_leaves {t : Nat} {s : State} (h4 : (tenant s t).drainStep = 4)
    (hg : ∀ x ∈ liveCopies s, x.tenant = t → ∀ p ∈ copyPlanes s x, glazeLeft s x p = true) :
    drainDone t s = if allSealed (tenantLeft t s) t then closeBatch t (tenantLeft t s) else tenantLeft t s := by
  have hl : ((liveCopies s).all fun x => decide (x.tenant ≠ t) || (copyPlanes s x).all fun p => glazeLeft s x p) = true := by
    simp only [List.all_eq_true, Bool.or_eq_true, decide_eq_true_eq]
    exact fun x hx => or_iff_not_imp_left.mpr fun ht => hg x hx (not_not.mp ht)
  rw [drainDone]
  exact if_pos ⟨h4, hl⟩

/-- The open batch's close leaves the press's tables and the commands that wait. -/
theorem drainDone_keeps_left {t : Nat} {s : State} (h4 : (tenant s t).drainStep = 4)
    (hg : ∀ x ∈ liveCopies s, x.tenant = t → ∀ p ∈ copyPlanes s x, glazeLeft s x p = true) :
    Keeps [.crk, .free, .sag] (tenantLeft t s) (drainDone t s) := by
  rw [drainDone_leaves h4 hg]
  exact Keeps.ite (fun _ => closeBatch_keeps t _ (by decide) (Keeps.refl _ _)) fun _ => Keeps.refl _ _

theorem tenantLeft_keeps (t : Nat) (s : State) : Keeps completionParts (tenantGone t s) (tenantLeft t s) :=
  arrive_keeps _ _ _ (by decide) (Keeps.refl _ _)

theorem tenantQuery_ok {h : Hdr} {t : Nat} {s : State} (hm : mayName h t = true) :
    tenantQuery h t s = ok h (tenantRecord t s).1 (tenantRecord t s).2 := by
  rw [tenantQuery, hm]
  rfl

/-- Settles O10: each command through its body, and each end of a drain through the state it makes. -/
theorem tenantCommandsRun : Obligations.TenantCommandsRun := by
  refine ⟨?enable, ?disable, ?wipe, ?done, ?query⟩
  case enable =>
    intro d ten jobs copies s ha h0 ht hd hj hc
    refine admitted_next ha rfl rfl (tenantEnable_keeps _ _ _ _ _ (by decide) ((taken_only d s).mono (by decide))) ?_
    rw [tenantEnable_enables (s := taken d s) h0 ht hd hj hc]
    have hj (u : Nat) := tenant_congr (complete_jobs (hdrOf d s) 0 0 (updTenant ten.toNat (Tenant.enabledWith jobs.toNat copies.toNat)
      (taken d s))) u
    refine ⟨complete_only 0 0 (updTenant_keeps _ _ _ (fun _ q => q) (Keeps.refl [Part.jobs] _)) (by decide), ?_, fun u hu => ?_⟩
    · exact (hj _).trans (tenant_updTenant_self _ _ _)
    · exact (hj u).trans (tenant_updTenant_ne _ _ hu)
  case disable =>
    intro d ten s ha h0 he
    refine admitted_next ha rfl rfl (tenantDisable_keeps _ _ _ _ (by decide) ((taken_only d s).mono (by decide))) ?_
    rw [tenantDisable_drains (s := taken d s) h0 he]
    obtain ⟨hstate, hstops, hci, hvoids⟩ := startDrain_draining ten.toNat (drainNoted ten.toNat (taken d s))
    generalize startDrain ten.toNat (drainNoted ten.toNat (taken d s)) = u at *
    exact ⟨parkAccepted_accepted _ _ _ ((hci _).trans (congrArg Ring.ci (taken_ring_self d s))), hstate, hstops, hvoids⟩
  case wipe =>
    intro ten s h3 hr hd
    refine next_at (execTenantDrainKeyWipe_keeps ten s) (by decide) (congrArg Host.Outcome.next (drainKeyWipe_wipes h3 hr hd)) ?_
    refine ⟨?_, ?_, fun x hx => ?_, fun x hx => ?_⟩
    · rw [sagTenant_congr (u := dropStreams ten.val (wipeWaiters ten.val s)) (wipeWaiters_sag ten.val s), sagTenant_updSag_self]
    · exact congrArg Tenant.drainStep (tenant_updTenant_self _ _ _)
    · exact of_decide_eq_true (List.mem_filter.mp hx).2
    · exact of_decide_eq_true (List.mem_filter.mp hx).2
  case done =>
    intro ten s h4 hg
    have hk := drainDone_keeps_left h4 hg
    have hjobs : (drainDone ten.val s).jobs = (tenantGone ten.val s).jobs :=
      (hk.only .jobs (by decide)).trans ((tenantLeft_keeps _ _).only .jobs (by decide))
    have hglz : (drainDone ten.val s).glz = (tenantGone ten.val s).glz :=
      (hk.only .glz (by decide)).trans ((tenantLeft_keeps _ _).only .glz (by decide))
    have hfw : (drainDone ten.val s).fw = (tenantLeft ten.val s).fw := hk.only .fw (by decide)
    refine next_at (execTenantDrainDone_keeps ten s) (by decide) rfl ⟨?_, fun x hx => ?_, fun x hx => ?_, fun x hx => ?_, ?_⟩
    · rw [tenant_congr hjobs, tenantGone, tenant_updTenant_self]
    · rw [hglz] at hx
      exact of_decide_eq_true (List.mem_filter.mp hx).2
    · rw [hjobs] at hx
      exact of_decide_eq_true (List.mem_filter.mp hx).2
    · rw [hjobs] at hx
      exact of_decide_eq_true (List.mem_filter.mp hx).2
    · rw [hfw]
      exact arrive_waits _ _ _
  case query =>
    intro d ten s ha hm
    refine admitted_next ha rfl rfl (tenantQuery_keeps _ _ _ (by decide) ((taken_only d s).mono (by decide))) ?_
    rw [tenantQuery_ok hm]
    exact complete_only 0 _ (tenantRecord_keeps _ _ (fun _ q => q) (Keeps.refl [Part.free] _)) (by decide)

end Sys2Proof.Machine
end

section
/-! SUPPORT. The proofs of what the job commands do (O11). -/

namespace Sys2Proof.Machine
open Sys2Proof

/-! ## JOB_OPEN (R96, R114) -/

/-- A state with one more job. -/
def addJob (x : Job) (s : State) : State := { s with jobs := { s.jobs with jobs := s.jobs.jobs ++ [x] } }

theorem addJob_keeps (x : Job) (s : State) : Keeps [.jobs] s (addJob x s) := Keeps.set_jobs (by decide) (Keeps.refl _ s)

theorem jobOpenCmd_opens {h : Hdr} {j : Nat} {nonce : DWord} {s : State}
    (hx : ∀ x ∈ s.jobs.jobs, x.tenant = h.tenant → x.id ≠ j ∧ x.nonceBase ≠ nonce) (hl : s.jobs.jobs.length < 1024)
    (hm : (s.jobs.jobs.filter fun x => decide (x.tenant = h.tenant)).length < (tenant s h.tenant).maxJobs)
    (hd : h.tenant ≠ 0 → (tenant s h.tenant).state ≠ .draining) :
    jobOpenCmd h j nonce s = ok h 0 (addJob ⟨h.tenant, j, .isOpen, nonce, 0⟩ s) := by
  have hnew : ¬((s.jobs.jobs.filter fun x => decide (x.tenant = h.tenant)).any fun x => decide (x.id = j ∨ x.nonceBase = nonce)) = true := by
    simp only [List.any_eq_true, List.mem_filter, decide_eq_true_eq]
    rintro ⟨x, ⟨hmem, ht⟩, hb⟩
    obtain ⟨hid, hn⟩ := hx x hmem ht
    exact hb.elim hid hn
  rw [jobOpenCmd]
  dsimp only
  rw [if_neg hnew, if_neg (by omega), if_neg fun k => hd k.1 k.2]
  rfl

/-! ## JOB_CLOSE and JOB_ABORT (R96, R107) -/

theorem jobClose_closes {h : Hdr} {c : Instr} {j : Nat} {s : State} (hj : (findJob s h.tenant j).isSome = true) :
    jobClose h c j s = parkAccepted h c [objJob h.tenant j] [] (closeJob h.tenant j s) := by
  obtain ⟨x, hx⟩ := Option.isSome_iff_exists.mp hj
  rw [jobClose, hx]

/-- A copy of a job that is QUEUED or READY. -/
def waitsInJob (t j : Nat) (c : Copy) : Bool := decide (c.tenant = t ∧ c.job = j ∧ (c.state = .queued ∨ c.state = .ready))

/-- The job takes no submissions, and its uncommitted copies are voided. -/
def abortedJob (t j : Nat) (s : State) : State := refreshIdle (voidWhere (waitsInJob t j) s (closeJob t j s))

theorem jobAbort_aborts {h : Hdr} {c : Instr} {j : Nat} {s : State} (hj : (findJob s h.tenant j).isSome = true) :
    jobAbort h c j s = parkAccepted h c [objJob h.tenant j] [] (abortedJob h.tenant j s) := by
  obtain ⟨x, hx⟩ := Option.isSome_iff_exists.mp hj
  rw [jobAbort, hx]
  rfl

theorem abortedJob_alike (t j : Nat) (s : State) : RingsAlike s (abortedJob t j s) :=
  have hclose : RingsAlike s (closeJob t j s) := RingsAlike.of_rings rfl
  (hclose.trans (voidWhere_alike (waitsInJob t j) s _)).trans (refreshIdle_alike _)

theorem abortedJob_voids {t j c : Nat} {x : Copy} {s : State} (hx : findCopy (abortedJob t j s) c = some x) (ht : x.tenant = t)
    (hj : x.job = j) : ¬(x.state = .queued ∨ x.state = .ready) := fun hq => by
  rw [abortedJob, findCopy_congr (refreshIdle_jobs _)] at hx
  exact of_decide_eq_false (voidWhere_voids rfl hx hq) ⟨ht, hj, hq⟩

/-! ## The end of a job (R96, R471) -/

/-- The open batch closes; the job, its copies and its page templates go. -/
def jobGone (t j : Nat) (s : State) : State :=
  leavePages (fun x => decide (x.tenant = t ∧ x.job = j)) { closeBatch t s with jobs := { (closeBatch t s).jobs with
    jobs := (closeBatch t s).jobs.jobs.filter fun x => !decide (x.tenant = t ∧ x.id = j),
    copies := (closeBatch t s).jobs.copies.filter fun c => !decide (c.tenant = t ∧ c.job = j) } }

/-- Where the job was closed and was the tenant's last work, its charge is written exactly (R467). -/
def settleCharge (close : Bool) (t : Nat) (s : State) : State :=
  if close && allSealed s t then writeCeiling t (tenant s t).charged s else s

theorem settleCharge_jobs (close : Bool) (t : Nat) (s : State) : (settleCharge close t s).jobs = s.jobs :=
  (show Keeps [.crk, .sag] s (settleCharge close t s) from
    Keeps.ite (fun _ => writeCeiling_keeps t _ s (by decide) (Keeps.refl _ s)) fun _ => Keeps.refl _ s).only .jobs (by decide)

theorem jobEndDone_ends {q : Parked} {d : Desc} {j : Word} {s : State} (hf : findParked s q.h.seq = some q)
    (hc : q.cmd = .jobClose d j ∨ q.cmd = .jobAbort d j) (ha : q.accepted = true)
    (hs : ∀ c ∈ s.jobs.copies, c.tenant = q.h.tenant → c.job = j.toNat → c.state = .sealed) : ∃ close,
    jobEndDone q.h.seq s = complete q.h 0 0 (settleCharge close q.h.tenant (jobGone q.h.tenant j.toNat s)) := by
  have hn : (s.jobs.copies.any fun c => decide (c.tenant = q.h.tenant ∧ c.job = j.toNat ∧ c.state ≠ .sealed)) = false := by
    simp only [List.any_eq_false, decide_eq_true_eq]
    exact fun c hc ⟨ht, hj, hne⟩ => hne (hs c hc ht hj)
  rw [jobEndDone, hf]
  rcases hc with hc | hc
  · exact ⟨true, by simp only [hc, ha, hn]; rfl⟩
  · exact ⟨false, by simp only [hc, ha, hn]; rfl⟩

/-- A command that completes is in the table no more. -/
theorem findParked_complete (h : Hdr) (status r : Nat) (s : State) : findParked (complete h status r s) h.seq = none := by
  rw [findParked, complete_parked, List.find?_eq_none]
  intro p hp
  simpa using (List.mem_filter.mp hp).2

/-- Settles O11: each command through its body, and a job's end through the state without it. -/
theorem jobCommandsRun : Obligations.JobCommandsRun := by
  refine ⟨?opens, ?closes, ?aborts, ?ends⟩
  case opens =>
    intro d j nonce s ha hx hl hm hd
    refine admitted_next ha rfl rfl (jobOpenCmd_keeps _ _ _ _ (by decide) ((taken_only d s).mono (by decide))) ?_
    rw [jobOpenCmd_opens (h := hdrOf d s) (s := taken d s) hx hl hm hd]
    exact ⟨complete_only 0 0 (addJob_keeps _ _) (by decide), congrArg Jobs.jobs (complete_jobs _ _ _ _)⟩
  case closes =>
    intro d j s ha hj
    refine admitted_next ha rfl rfl (jobClose_keeps _ _ _ _ (by decide) ((taken_only d s).mono (by decide))) ?_
    rw [jobClose_closes (h := hdrOf d s) (s := taken d s) hj]
    exact ⟨parkAccepted_accepted _ _ _ (congrArg Ring.ci (taken_ring_self d s)), rfl, rfl⟩
  case aborts =>
    intro d j s ha hj
    refine admitted_next ha rfl rfl (jobAbort_keeps _ _ _ _ (by decide) ((taken_only d s).mono (by decide))) ?_
    rw [jobAbort_aborts (h := hdrOf d s) (s := taken d s) hj]
    have hr := (abortedJob_alike (hdrOf d s).tenant j.toNat (taken d s)).field Ring.ci (fun _ => rfl) d.ring.val
    have hv := fun c x => abortedJob_voids (t := (hdrOf d s).tenant) (j := j.toNat) (c := c) (x := x) (s := taken d s)
    generalize abortedJob (hdrOf d s).tenant j.toNat (taken d s) = u at *
    exact ⟨parkAccepted_accepted _ _ _ (hr.trans (congrArg Ring.ci (taken_ring_self d s))), hv⟩
  case ends =>
    intro q d j s hf hc ha hs
    obtain ⟨close, he⟩ := jobEndDone_ends hf hc ha hs
    have hjobs := (complete_jobs q.h 0 0 _).trans (settleCharge_jobs close q.h.tenant (jobGone q.h.tenant j.toNat s))
    refine next_at (execJobEndDone_keeps q.h.seq s) (by decide) (congrArg Host.Outcome.next he) ⟨fun x hx => ?_, fun x hx => ?_, ?_⟩
    · rw [hjobs] at hx
      simpa only [Bool.not_eq_true', decide_eq_false_iff_not] using (List.mem_filter.mp hx).2
    · rw [hjobs] at hx
      simpa only [Bool.not_eq_true', decide_eq_false_iff_not] using (List.mem_filter.mp hx).2
    · exact findParked_complete _ _ _ _

end Sys2Proof.Machine
end

section
/-! SUPPORT. The proofs of what the page commands do, the end of a latch's wait, and a command taken up again (O12). -/

namespace Sys2Proof.Machine
open Sys2Proof

/-! ## A command whose stream is complete (R116, R123) -/

/-- No earlier command bars an admitted one by what its stream names, and its stream is complete: it goes on with it. -/
theorem withStream_admitted {d : Desc} {cls : RingClass} {c : Instr} {objs : List Nat} {handle : Nat} {k : Stream → State → State}
    {x : Stream} {s : State} (ha : Admitted d cls (fun _ => streamObjs s (hdrOf d s) c) s = true)
    (hx : findStream s (ring s d.ring.val).tenant handle = some x) (hf : x.failed = false) (hc : x.complete = true) :
    withStream (hdrOf d s) c objs (hdrOf d s).tenant handle k (taken d s) = k x (taken d s) := by
  have hx' : findStream (taken d s) (hdrOf d s).tenant handle = some x := hx
  have hb : blockedBy (taken d s) (hdrOf d s).seq (streamObjs (taken d s) (hdrOf d s) c) = false := by
    simp only [Admitted, Bool.and_eq_true, Bool.not_eq_true'] at ha
    exact ha.2
  simp only [withStream, hx', hf, hc, hb]
  rfl

/-- An admitted command with a complete stream answers what it makes of the stream in the state its taking leaves. -/
theorem admitted_stream_next {i : Instr} {d : Desc} {cls : RingClass} {handle : Nat} {k : Hdr → Stream → State → State} {x : Stream}
    {s : State} {ps : List Part} {P : State → Prop} (ha : Admitted d cls (fun _ => streamObjs s (hdrOf d s) i) s = true)
    (he : exec i s = .next (command d cls (fun _ => []) i (fun h => withStream h i [] h.tenant handle (k h)) s))
    (hx : findStream s (ring s d.ring.val).tenant handle = some x) (hf : x.failed = false) (hc : x.complete = true)
    (hk : Keeps ps s (k (hdrOf d s) x (taken d s))) (hP : P (k (hdrOf d s) x (taken d s))) :
    ∃ t, exec i s = .next t ∧ P t ∧ Only ps s t := by
  refine ⟨_, he.trans (congrArg _ ?_), hP, hk.only⟩
  rw [command_admitted_over ha i _ fun o ho => ho]
  exact withStream_admitted ha hx hf hc

/-! ## PAGE_LOAD (R97, R114, R165) -/

/-- A state with one more page template. -/
def addTemplate (p : Template) (s : State) : State := { s with jobs := { s.jobs with templates := s.jobs.templates ++ [p] } }

/-- The streams a page names are prepared again where their plaintext went with an earlier page: nothing that its check reads changes. -/
theorem findStream_prepareAgain {p : Template} {t h : Nat} {y : Stream} {s : State} (hy : findStream s t h = some y) :
    ∃ prep, findStream (prepareAgain p s) t h = some { y with prep := prep } := by
  show ∃ prep, List.find? _ (s.jobs.streams.map _) = _
  rw [List.find?_map]
  have hp : ((fun x : Stream => decide (x.tenant = t ∧ x.handle = h)) ∘ fun x =>
      if x.tenant = p.tenant ∧ (p.planes.any fun q => decide (q.handle = x.handle)) = true ∧ x.prep = .freed then
        { x with prep := .none } else x) = fun x => decide (x.tenant = t ∧ x.handle = h) := by
    funext x
    dsimp only [Function.comp]
    split <;> rfl
  rw [hp, show s.jobs.streams.find? (fun x => decide (x.tenant = t ∧ x.handle = h)) = some y from hy, Option.map_some]
  split
  · exact ⟨_, rfl⟩
  · exact ⟨y.prep, rfl⟩

section
variable {p : Template} {s : State}
  (hp : ∀ q ∈ p.planes, ∃ y, findStream s p.tenant q.handle = some y ∧ (p.tenant = 0 → y.sealed = false) ∧ pageClash y p q = none)
include hp

theorem checkPage_prepareAgain : checkPage p (prepareAgain p (addTemplate p s)) = prepareAgain p (addTemplate p s) :=
  checkPage_id fun q hq => by
    obtain ⟨y, hy, -, hc⟩ := hp q hq
    obtain ⟨prep, hz⟩ := findStream_prepareAgain (p := p) (s := addTemplate p s) hy
    exact ⟨_, hz, hc⟩

theorem page_streams_owned : (p.planes.all fun q => (findStream s p.tenant q.handle).isSome) = true := by
  simp only [List.all_eq_true]
  intro q hq
  obtain ⟨y, hy, -⟩ := hp q hq
  rw [hy]
  rfl

/-- A page of tenant 0 carries nothing sealed. -/
theorem page_unsealed (h0 : p.tenant = 0) (hs : p.sealed = false) :
    (p.sealed || p.planes.any fun q => ((findStream s p.tenant q.handle).map (·.sealed)).getD false) = false := by
  rw [hs, Bool.false_or, List.any_eq_false]
  intro q hq
  obtain ⟨y, hy, hz, -⟩ := hp q hq
  rw [hy, Option.map_some, Option.getD_some, hz h0]
  decide

theorem pageLoad_loads {h : Hdr} {x : Stream} {j : Job} (hr : pageRecord h.tenant x.bytes = some p)
    (hj : findJob s p.tenant p.job = some j) (ho : j.state = .isOpen)
    (hn : ∀ y ∈ s.jobs.templates, y.tenant = p.tenant → y.job = p.job → y.page ≠ p.page) (h0 : p.tenant = 0 → p.sealed = false)
    (hl : (s.jobs.templates.filter fun y => decide (y.tenant = p.tenant ∧ y.job = p.job)).length < 4096)
    (hl' : s.jobs.templates.length < 16384) :
    pageLoad h x s = ok h (res 16 p.job + res 20 p.page) (prepareAgain p (addTemplate p s)) := by
  have hnew : ((s.jobs.templates.filter fun y => decide (y.tenant = p.tenant ∧ y.job = p.job)).any fun y =>
      decide (y.page = p.page)) = false := by
    simp only [List.any_eq_false, List.mem_filter, decide_eq_true_eq]
    exact fun y ⟨hy, ht, hj⟩ => hn y hy ht hj
  have hseal : ¬(p.tenant = 0 ∧ (p.sealed || p.planes.any fun q =>
      ((findStream s p.tenant q.handle).map (·.sealed)).getD false) = true) := fun ⟨ht, hs⟩ => by
    rw [page_unsealed hp ht (h0 ht)] at hs
    cases hs
  have hroom : ¬(4096 ≤ (s.jobs.templates.filter fun y => decide (y.tenant = p.tenant ∧ y.job = p.job)).length ∨
      16384 ≤ s.jobs.templates.length) := by omega
  rw [pageLoad, hr]
  simp only [hj, ho, page_streams_owned hp, hnew, if_neg hseal, if_neg hroom, decide_true, Bool.not_true, Bool.false_eq_true, if_false]
  exact congrArg _ (checkPage_prepareAgain hp)

end

theorem loaded_keeps (p : Template) (s : State) : Keeps [.jobs, .thr] s (prepareAgain p (addTemplate p s)) :=
  prepareAgain_keeps p _ (fun _ q => q) (Keeps.set_jobs (by decide) (Keeps.refl _ s))

/-! ## PAGE_RELEASE (R97, R133) -/

/-- The pages of a name, marked as released. -/
def releasePage (t j p : Nat) (s : State) : State :=
  { s with jobs := { s.jobs with templates := s.jobs.templates.map fun x =>
      if x.tenant = t ∧ x.job = j ∧ x.page = p then { x with releasing := true } else x } }

theorem pageRelease_releases {h : Hdr} {c : Instr} {j p : Nat} {s : State} (ht : (template s h.tenant j p).isSome = true) :
    pageRelease h c j p s = parkAccepted h c [objJob h.tenant j, objPage h.tenant j p] [] (releasePage h.tenant j p s) := by
  obtain ⟨x, hx⟩ := Option.isSome_iff_exists.mp ht
  rw [pageRelease, hx]
  rfl

theorem pageReleaseDone_drops {q : Parked} {d : Desc} {j p : Word} {s : State} (hf : findParked s q.h.seq = some q)
    (hc : q.cmd = .pageRelease d j p) (ha : q.accepted = true)
    (hs : ∀ c ∈ s.jobs.copies, c.tenant = q.h.tenant → c.job = j.toNat → c.page = p.toNat → c.state = .sealed) :
    pageReleaseDone q.h.seq s = complete q.h 0 0
      (leavePages (fun x => decide (x.tenant = q.h.tenant ∧ x.job = j.toNat ∧ x.page = p.toNat)) s) := by
  have hn : (s.jobs.copies.any fun c =>
      decide (c.tenant = q.h.tenant ∧ c.job = j.toNat ∧ c.page = p.toNat ∧ c.state ≠ .sealed)) = false := by
    simp only [List.any_eq_false, decide_eq_true_eq]
    exact fun c hc ⟨ht, hj, hp, hne⟩ => hne (hs c hc ht hj hp)
  rw [pageReleaseDone, hf]
  simp only [hc, ha, hn]
  rfl

/-! ## The end of a wait (R116, R123, R127) -/

theorem latchComplete_completes {q : Parked} {s : State} (hf : findParked s q.h.seq = some q)
    (hc : (isClassF q.cmd || isClassB q.cmd) = true) (ha : q.accepted = true) (hp : q.pages = []) :
    latchComplete q.h.seq s = complete q.h (if q.late && isClassF q.cmd then 1 else 0) (res 16 q.slot.toNat) s := by
  rw [latchComplete, hf]
  simp only [hc, ha, hp]
  rfl

theorem resume_runs {q : Parked} {s : State} (hf : findParked s q.h.seq = some q) (hm : mayResume s q = true) :
    resume q.h.seq s = runBody q.h q.cmd s := by
  rw [resume, hf]
  exact if_pos hm

/-- Settles O12: each command through its body; the ends of waits complete from the state they leave the rest of as it was. -/
theorem pageCommandsRun : Obligations.PageCommandsRun := by
  refine ⟨?load, ?release, ?done, ?latched, ?resumed⟩
  case load =>
    intro d handle x p j s ha hx hf hc hr hj ho hn hp h0 hl hl'
    refine admitted_stream_next ha rfl hx hf hc (pageLoad_keeps _ _ _ (by decide) ((taken_only d s).mono (by decide))) ?_
    rw [pageLoad_loads (h := hdrOf d s) (s := taken d s) hp hr hj ho hn h0 hl hl']
    exact ⟨complete_only 0 _ (loaded_keeps p _) (by decide), congrArg Jobs.templates (complete_jobs _ _ _ _)⟩
  case release =>
    intro d job page s ha ht
    refine admitted_next ha rfl rfl (pageRelease_keeps _ _ _ _ _ (by decide) ((taken_only d s).mono (by decide))) ?_
    rw [pageRelease_releases (h := hdrOf d s) (s := taken d s) ht]
    exact ⟨parkAccepted_accepted _ _ _ (congrArg Ring.ci (taken_ring_self d s)), rfl⟩
  case done =>
    intro q d j p s hf hc ha hs
    refine next_at (execPageReleaseDone_keeps q.h.seq s) (by decide)
      (congrArg Host.Outcome.next (pageReleaseDone_drops hf hc ha hs)) ⟨?_, congrArg Jobs.templates (complete_jobs _ _ _ _)⟩
    exact complete_finished_only 0 0 (leavePages_keeps _ s (fun _ q => q) (Keeps.refl [Part.jobs] s)) (by decide)
  case latched =>
    intro q s hf hc ha hp
    exact next_at (execLatchCommandComplete_keeps q.h.seq s) (by decide)
      (congrArg Host.Outcome.next (latchComplete_completes hf hc ha hp))
      (complete_finished_only _ _ (Keeps.refl [] s) (by decide))
  case resumed =>
    intro q d job nonce s hf hm hc hx hl hl' hd
    have he : resume q.h.seq s = ok q.h 0 (addJob ⟨q.h.tenant, job.toNat, .isOpen, nonce, 0⟩ s) := by
      rw [resume_runs hf hm, hc]
      exact jobOpenCmd_opens hx hl hl' hd
    refine ⟨_, congrArg Host.Outcome.next he, ⟨?_, congrArg Jobs.jobs (complete_jobs _ _ _ _)⟩, ?_⟩
    · exact complete_finished_only 0 0 (addJob_keeps _ s) (by decide)
    · exact (ok_keeps _ _ _ (by decide) ((addJob_keeps _ s).mono (by decide))).only

end Sys2Proof.Machine
end

section
/-! SUPPORT. The proofs of what the copy and stream commands, PATCH_STATUS and EVENT_FILTER do (O13). -/

namespace Sys2Proof.Machine
open Sys2Proof

/-! ## What has left the controller when the press queue changes -/

theorem ltrSend_out (m : Nat) (s : State) : OutGrows s (ltrSend m s) := fun _ h => List.mem_cons_of_mem _ h

theorem ltrUpdate_out (s : State) : OutGrows s (ltrUpdate s) := by
  unfold ltrUpdate
  split
  · exact OutGrows.refl s
  split
  · split
    · split
      · exact ltrSend_out _ s
      · exact OutGrows.refl s
    · exact OutGrows.refl s
  · split
    · split
      · exact ltrSend_out _ s
      · exact OutGrows.refl s
    · exact ltrSend_out _ s

theorem putLt_out (lt stat : Nat) (s : State) :
    OutGrows s (ltrUpdate (refreshGrants (wn Reg.KLN_LT_STAT stat (wn Reg.KLN_LT lt s)))) :=
  fun o ho => ltrUpdate_out (refreshGrants (wn Reg.KLN_LT_STAT stat (wn Reg.KLN_LT lt s))) o ho

theorem refreshIdle_out (s : State) : OutGrows s (refreshIdle s) := by
  unfold refreshIdle
  split
  next hp =>
    simp only [refreshLt, hp, if_true]
    split
    · exact putLt_out _ _ s
    · exact putLt_out _ _ s
  next => exact OutGrows.refl s

/-! ## A copy that waits stays in the press queue -/

/-- A copy stands in the press queue, as submitted but for its state and its receipt slot (R95, R102, R475). -/
def StaysWaiting (x : Copy) (u : State) : Prop :=
  ∃ st slot, findCopy u x.seq = some { x with state := st, receiptSlot := slot } ∧ (st = .queued ∨ st = .ready)

theorem StaysWaiting.of_copyOnly {x : Copy} {c : Nat} {s u : State} (h : StaysWaiting x s) (k : CopyOnly c s u) (hc : x.seq ≠ c) :
    StaysWaiting x u := by
  obtain ⟨st, slot, hx, hs⟩ := h
  exact ⟨st, slot, (k.other _ hc).trans hx, hs⟩

theorem StaysWaiting.of_jobs {x : Copy} {s u : State} (h : StaysWaiting x s) (hj : u.jobs = s.jobs) : StaysWaiting x u := by
  obtain ⟨st, slot, hx, hs⟩ := h
  exact ⟨st, slot, (findCopy_congr hj _).trans hx, hs⟩

/-- The VOID receipts of other copies leave it. -/
theorem StaysWaiting.sealVoid {x : Copy} {s : State} (c : Nat) (h : StaysWaiting x s) : StaysWaiting x (sealVoid c s) := by
  by_cases hc : x.seq = c
  · obtain ⟨st, slot, hx, hs⟩ := h
    have hv : st ≠ .voided := by rcases hs with rfl | rfl <;> decide
    have he : Machine.sealVoid c s = s := by
      rw [Machine.sealVoid, ← hc, hx]
      exact if_neg fun k => hv k.1
    rw [he]
    exact ⟨st, slot, hx, hs⟩
  · exact h.of_copyOnly (sealVoid_only c s).1 hc

theorem ceilingCheck_jobs (t : Nat) (s : State) : (ceilingCheck t s).jobs = s.jobs :=
  (ceilingCheck_keeps t s (fun _ q => q) (Keeps.refl _ s)).only .jobs (by decide)

/-- A copy becomes READY or stays QUEUED. -/
theorem StaysWaiting.readyCopy {x : Copy} {s : State} (c : Nat) (h : StaysWaiting x s) : StaysWaiting x (readyCopy c s) := by
  unfold Machine.readyCopy
  split
  next y hy =>
    split
    next =>
      have h1 : StaysWaiting x (ceilingCheck y.tenant s) := h.of_jobs (ceilingCheck_jobs _ _)
      extract_lets s1 below
      have h1 : StaysWaiting x s1 := h1
      split
      · by_cases hc : x.seq = c
        · obtain ⟨st, slot, hx, -⟩ := h1
          refine ⟨.ready, true, ?_, .inr rfl⟩
          rw [hc, findCopy_updCopy c _ (by intro; rfl), ← hc, hx]
          rfl
        · exact h1.of_copyOnly (updCopy_only c _ (by intro; rfl) s1) hc
      · exact h1
    next => exact h
  next => exact h

theorem StaysWaiting.refreshReady {x : Copy} {s : State} (h : StaysWaiting x s) : StaysWaiting x (refreshReady s) :=
  List.foldlRecOn _ _ (List.foldlRecOn _ _ h fun _ hu c _ => hu.sealVoid c) fun _ hu c _ => hu.readyCopy c

/-! ## COPY_SUBMIT (R101, R124, R134) -/

/-- The placements and the windows of a copy record. -/
def recordPlacements (bs : List Byte) : List Placement := (List.range (leAt bs 14 2)).map fun i => placementAt bs i

def recordWindows (bs : List Byte) : List Window :=
  (List.range (leAt bs 16 2)).map fun i => windowAt bs (64 + 16 * leAt bs 14 2 + 32 * i)

/-- The copy a record submits. -/
def recordCopy (h : Hdr) (bs : List Byte) (p : Template) : Copy :=
  { tenant := h.tenant, job := p.job, page := p.page, num := leAt bs 8 4, seq := h.seq, mask := BitVec.ofNat 16 (leAt bs 12 2),
    placements := recordPlacements bs, windows := recordWindows bs, page0 := p, state := .queued, flags := CopyFlags.none,
    slot := none, planes := none, opened := [], closed := [], budget := [], cycles := [], begun := [], placed := [],
    commitTime := 0, firedAt := 0, ruleTime := 0, receiptSlot := false, winSeen := 0, winBad := 0, firedSeen := 0, firedBad := 0,
    defects := 0, ports := 0, marred := [] }

/-- A state with one more copy: its job knows the number, and its quota is reserved. -/
def addCopy (c : Copy) (s : State) : State :=
  updTenant c.tenant (fun z => { z with reserved := z.reserved + 1 }) { s with jobs := { s.jobs with
    copies := s.jobs.copies ++ [c],
    jobs := s.jobs.jobs.map fun j => if j.tenant = c.tenant ∧ j.id = c.job then { j with maxCopy := c.num } else j } }

theorem addCopy_keeps (c : Copy) (s : State) : Keeps [.jobs] s (addCopy c s) :=
  updTenant_keeps _ _ _ (by decide) (Keeps.set_jobs (by decide) (Keeps.refl _ s))

theorem addCopy_waiting {c : Copy} {s : State} (hn : findCopy s c.seq = none) (hq : c.state = .queued) : StaysWaiting c (addCopy c s) := by
  refine ⟨c.state, c.receiptSlot, ?_, .inl hq⟩
  show (s.jobs.copies ++ [c]).find? (fun x => decide (x.seq = c.seq)) = some c
  rw [List.find?_append, show s.jobs.copies.find? (fun x => decide (x.seq = c.seq)) = none from hn]
  simp

/-- The copies QUEUED or READY. -/
def waitingCopies (s : State) : List Copy := s.jobs.copies.filter fun c => decide (c.state = .queued ∨ c.state = .ready)

/-- A tenant takes another copy: within the queue's limits, not DRAINING, and with quota left (R134). -/
structure TakesCopy (t : Nat) (s : State) : Prop where
  room : (waitingCopies s).length < 1024
  mine : ((waitingCopies s).filter fun c => decide (c.tenant = t)).length < (tenant s t).maxCopies
  quota : t ≠ 0 → (tenant s t).state ≠ .draining ∧
    (tenant s t).charged.toNat + (tenant s t).reserved.toNat < (tenant s t).grant.toNat

theorem copySubmit_submits {h : Hdr} {x : Stream} {p : Template} {s : State}
    (hc : copyCheck s h.tenant x.bytes (recordPlacements x.bytes) (recordWindows x.bytes) = .ok p) (ht : TakesCopy h.tenant s)
    (hb : pageBad s p = false) :
    copySubmit h x s = refreshIdle (refreshReady (ok h (res 16 p.job + res 20 (leAt x.bytes 8 4)) (addCopy (recordCopy h x.bytes p) s))) := by
  obtain ⟨hroom, hmine, hquota⟩ := ht
  have h1 : ¬(1024 ≤ (waitingCopies s).length ∨
      (tenant s h.tenant).maxCopies ≤ ((waitingCopies s).filter fun c => decide (c.tenant = h.tenant)).length) := by omega
  have h2 : ¬(h.tenant ≠ 0 ∧ (tenant s h.tenant).state = .draining) := fun k => (hquota k.1).1 k.2
  have h3 : ¬(h.tenant ≠ 0 ∧ (tenant s h.tenant).grant.toNat ≤
      (tenant s h.tenant).charged.toNat + (tenant s h.tenant).reserved.toNat) := fun k => Nat.not_le.mpr (hquota k.1).2 k.2
  have hbad : pageBad (ok h (res 16 p.job + res 20 (leAt x.bytes 8 4)) (addCopy (recordCopy h x.bytes p) s)) p = false := by
    rw [← hb, pageBad, pageBad]
    simp only [findStream, ok, complete_jobs]
    rfl
  unfold copySubmit
  extract_lets bs t ps ws
  rw [show copyCheck s t bs ps ws = .ok p from hc]
  refine (if_neg h1).trans ((if_neg h2).trans ((if_neg h3).trans ?_))
  exact congrArg refreshIdle (if_neg (by rw [Bool.not_eq_true]; exact hbad))

theorem copySubmit_completed {d : Desc} {s u : State} {r : Nat} (hu : Keeps [.jobs] (taken d s) u) :
    Completed d 0 r s (refreshIdle (refreshReady (ok (hdrOf d s) r u))) := by
  have hk := refreshReady_keeps (ok (hdrOf d s) r u) (fun _ q => q) (Keeps.refl _ _)
  have hdone : Completed d 0 r s (ok (hdrOf d s) r u) := complete_only 0 r hu (by decide)
  have hready := CompletedWith.after_alike hdone (hk.only .fw (by decide)) (refreshReady_out _) (refreshReady_alike _)
  exact CompletedWith.after_alike hready (refreshIdle_fw _) (refreshIdle_out _) (refreshIdle_alike _)

/-! ## COPY_WITHDRAW and COPY_QUERY (R107, R110) -/

theorem copyWithdraw_voids {h : Hdr} {j c : Nat} {x : Copy} {s : State} (hx : namedCopy s h.tenant j c = some x)
    (hq : x.state = .queued ∨ x.state = .ready) : copyWithdraw h j c s = ok h 0 (refreshIdle (voidCopy x.seq false s)) := by
  rw [copyWithdraw, hx]
  exact if_pos hq

theorem withdrawn_copy (h : Hdr) (c b : Nat) (s : State) :
    findCopy (ok h 0 (refreshIdle (voidCopy c false s))) b = findCopy (voidCopy c false s) b :=
  findCopy_congr ((complete_jobs _ _ _ _).trans (refreshIdle_jobs _)) b

theorem parked_complete_ne {h : Hdr} {status r : Nat} {s : State} {p : Parked} (hp : p ∈ (complete h status r s).fw.parked) :
    p.h.seq ≠ h.seq := by
  rw [complete_parked] at hp
  exact of_decide_eq_true (List.mem_filter.mp hp).2

/-! ## STREAM_OPEN and STREAM_FREE (R116, R135) -/

/-- A stream as it is opened. -/
def emptyStream (t handle kind maxLen job : Nat) : Stream :=
  { tenant := t, handle, kind, maxLen, job, descs := [], pieces := [], lastSeen := false, failed := false, prep := .none,
    plain := [], level := false, width := 0, height := 0, sealedPage := none, blocks := [], badFor := [] }

def addStream (x : Stream) (s : State) : State := { s with jobs := { s.jobs with streams := s.jobs.streams ++ [x] } }

theorem streamOpen_opens {h : Hdr} {handle kind maxLen job : Nat} {s : State} (h0 : handle ≠ 0) (hk : kind ≤ 5)
    (hn : findStream s h.tenant handle = none) (hs : Config.spoolFits (spoolUse s + maxLen) = true)
    (ht : 4 ≤ kind → h.tenant = 0) :
    streamOpen h handle kind maxLen job s = ok h 0 (addStream (emptyStream h.tenant handle kind maxLen job) s) := by
  have h1 : ¬(handle = 0 ∨ 5 < kind) := by omega
  have h2 : ¬(4 ≤ kind ∧ h.tenant ≠ 0) := fun k => k.2 (ht k.1)
  rw [streamOpen, if_neg h1, hn, hs]
  exact if_neg h2

/-- A state without a stream: it waits for no preparation, and no tile goes with it. -/
def withoutStream (t handle : Nat) (s : State) : State :=
  { s with
    jobs := { s.jobs with streams := s.jobs.streams.filter fun x => !decide (x.tenant = t ∧ x.handle = handle) },
    thr := { s.thr with ready := s.thr.ready.filter fun x => decide (x ≠ (t, handle)) },
    glz := { s.glz with tiles := s.glz.tiles.map fun x =>
      if x.tenant = t ∧ x.stream = some handle then { x with stream := none } else x } }

theorem withoutStream_keeps (t handle : Nat) (s : State) : Keeps [.jobs, .thr, .glz] s (withoutStream t handle s) :=
  Keeps.set_jobs_thr_glz (by decide) (by decide) (by decide) (Keeps.refl _ s)

theorem findStream_withoutStream (t handle : Nat) (s : State) : findStream (withoutStream t handle s) t handle = none :=
  List.find?_eq_none.mpr fun x hx => by
    simpa only [Bool.not_eq_true', decide_eq_false_iff_not, decide_eq_true_eq] using (List.mem_filter.mp hx).2

theorem streamFree_frees {h : Hdr} {handle : Nat} {s : State} (hs : (findStream s h.tenant handle).isSome = true)
    (hp : streamPinned s h.tenant handle = false) :
    streamFree h handle s = ok h 0 (failWaiters h.tenant handle (withoutStream h.tenant handle s)) := by
  obtain ⟨x, hx⟩ := Option.isSome_iff_exists.mp hs
  rw [streamFree, hx]
  simp only [hp]
  rfl

theorem failWaiters_jobs (t handle : Nat) (s : State) : (failWaiters t handle s).jobs = s.jobs :=
  (failWaiters_keeps t handle s (fun _ q => q) (Keeps.refl _ s)).only .jobs (by decide)

/-- Where no command waits for a stream, none fails. -/
theorem failWaiters_none {t handle : Nat} {s : State}
    (h : ∀ p ∈ s.fw.parked, p.accepted = false → namedStream p.h p.cmd ≠ some (t, handle)) : failWaiters t handle s = s := by
  have hnil : (s.fw.parked.filter fun p => !p.accepted && decide (namedStream p.h p.cmd = some (t, handle))) = [] := by
    simp only [List.filter_eq_nil_iff, Bool.and_eq_true, Bool.not_eq_true', decide_eq_true_eq]
    exact fun p hp ⟨ha, hn⟩ => h p hp ha hn
  rw [failWaiters, hnil]
  rfl

/-! ## PATCH_STATUS and EVENT_FILTER (R144) -/

/-- A patch's record in PATCH_STATUS's output. -/
def patchRecord (p : PatchRec) : List Byte := le 4 p.seq ++ le 2 p.rom ++ le 1 p.status ++ le 1 0 ++ le 4 p.len ++ le 4 0

theorem patchStatus_fits {h : Hdr} {addr len : Nat} {s : State} (hl : 16 * s.sag.patches.length ≤ len) :
    patchStatus h addr len s = completeWith [(addr, s.sag.patches.flatMap patchRecord)] h 0 0 s := by
  have hr : ∀ p, (patchRecord p).length = 16 := fun p => by simp [patchRecord, length_le]
  have hn : (s.sag.patches.flatMap patchRecord).length = 16 * s.sag.patches.length := by
    simp [List.length_flatMap, hr, Nat.mul_comm]
  have hfit : ¬len < (s.sag.patches.flatMap patchRecord).length := by omega
  exact if_neg hfit

theorem eventFilter_sets {h : Hdr} {n : Nat} {mask : BitVec 256} {s : State} (hn : n < 8192) (ht : (ring s n).typ = .event)
    (hs : (ring s n).state ≠ .disabled) : eventFilter h n mask s = ok h 0 (updRing n (fun r => { r with filter := mask }) s) :=
  if_pos ⟨hn, ht, hs⟩

/-- Settles O13: each command through its body, in the state its taking leaves. -/
theorem copyCommandsRun : Obligations.CopyCommandsRun := by
  refine ⟨?submit, ?withdraw, ?query, ?opens, ?frees, ?patches, ?filters⟩
  case submit =>
    intro d handle x p s ha hx hf hc hcheck hroom hmine hquota hb hnew
    refine admitted_stream_next ha rfl hx hf hc (copySubmit_keeps _ _ _ (by decide) ((taken_only d s).mono (by decide))) ?_
    rw [copySubmit_submits (h := hdrOf d s) (s := taken d s) hcheck ⟨hroom, hmine, hquota⟩ hb]
    refine ⟨copySubmit_completed (addCopy_keeps _ _), ?_⟩
    have hw : StaysWaiting (recordCopy (hdrOf d s) x.bytes p) (addCopy (recordCopy (hdrOf d s) x.bytes p) (taken d s)) :=
      addCopy_waiting hnew rfl
    obtain ⟨st, slot, hfound, hst⟩ := ((hw.of_jobs (complete_jobs _ 0 _ _)).refreshReady).of_jobs (refreshIdle_jobs _)
    exact ⟨_, hfound, rfl, rfl, rfl, rfl, rfl, rfl, hst⟩
  case withdraw =>
    intro d job copy x s ha hx hq
    refine admitted_next ha rfl rfl (copyWithdraw_keeps _ _ _ _ (by decide) ((taken_only d s).mono (by decide))) ?_
    rw [copyWithdraw_voids (h := hdrOf d s) (s := taken d s) hx hq]
    obtain ⟨hother, hself, -⟩ := voidCopy_only x.seq false (taken d s)
    simp only [withdrawn_copy]
    exact ⟨hself, hother, fun p hp => parked_complete_ne hp⟩
  case query =>
    intro d job copy x s ha hx
    refine admitted_next ha rfl rfl (copyQuery_keeps _ _ _ _ (by decide) ((taken_only d s).mono (by decide))) ?_
    rw [copyQuery, show namedCopy (taken d s) (hdrOf d s).tenant job.toNat copy.toNat = some x from hx]
    exact taken_completed d _ s
  case opens =>
    intro d handle kind maxLen job s ha h0 hk hn hs ht
    refine admitted_next ha rfl rfl (streamOpen_keeps _ _ _ _ _ _ (by decide) ((taken_only d s).mono (by decide))) ?_
    rw [streamOpen_opens (h := hdrOf d s) (s := taken d s) h0 hk hn hs ht]
    refine ⟨complete_only 0 0 (Keeps.set_jobs (by decide) (Keeps.refl [Part.jobs] _)) (by decide), _,
      congrArg Jobs.streams (complete_jobs _ _ _ _), rfl, rfl, rfl, rfl, rfl, rfl, rfl, rfl, rfl⟩
  case frees =>
    intro d handle s ha hx hp
    refine admitted_next ha rfl rfl (streamFree_keeps _ _ _ (by decide) ((taken_only d s).mono (by decide))) ?_
    rw [streamFree_frees (h := hdrOf d s) (s := taken d s) hx hp]
    refine ⟨?_, fun p hp => ⟨parked_complete_ne hp, ?_⟩, fun hnone => ?_⟩
    · rw [findStream, ok, complete_jobs, failWaiters_jobs]
      exact findStream_withoutStream _ _ _
    · rw [ok, complete_parked] at hp
      exact failWaiters_named _ _ _ p (List.mem_filter.mp hp).1
    · rw [failWaiters_none (t := (hdrOf d s).tenant) (s := withoutStream (hdrOf d s).tenant handle.toNat (taken d s)) hnone]
      exact complete_only 0 0 (withoutStream_keeps _ _ _) (by decide)
  case patches =>
    intro d buf len s ha hl
    refine admitted_next ha rfl rfl (patchStatus_keeps _ _ _ _ (by decide) ((taken_only d s).mono (by decide))) ?_
    rw [patchStatus_fits (h := hdrOf d s) (s := taken d s) hl]
    exact completeWith_only 0 0 (Keeps.refl [] _) (by decide)
  case filters =>
    intro d n mask s ha hn ht hs hp
    have hne : n.toNat ≠ d.ring.val := fun e => by
      rw [e, (ring_of_admitted ha).2] at ht
      cases ht
    refine admitted_next ha rfl rfl (eventFilter_keeps _ _ _ _ (by decide) ((taken_only d s).mono (by decide))) ?_
    rw [eventFilter_sets hn (by rw [taken_ring_typ]; exact ht) (by rw [taken_ring_state]; exact hs)]
    refine ⟨CompletesFrom.completed ⟨?_, ring_updRing_ne _ _ hp, rfl, rfl, rfl⟩ _ _, ?_⟩
    · rw [ring_updRing_ne _ _ (Ne.symm hne), taken_ring_self]
      rfl
    · rw [ok, complete_ring_ne _ _ (Ne.symm hp), ring_updRing_self, taken_ring_ne s hne]

end Sys2Proof.Machine
end

section
/-! SUPPORT. The proofs of what Sagger's nonce, batches, firewall and boot do (O18). -/

namespace Sys2Proof.Machine
open Sys2Proof

/-! ## The mailbox nonce (R445) -/

theorem foldl_capture_kept (ini : Initiator) (k : Nat → Nat) (v : Nat → Word) (l : List Nat) (s : State) :
    (l.foldl (fun t j => capture ini (k j) (v j) t) s).regs.rdata = s.regs.rdata ∧
      (l.foldl (fun t j => capture ini (k j) (v j) t) s).sag = s.sag := by
  induction l generalizing s with
  | nil => exact ⟨rfl, rfl⟩
  | cons j l ih => exact ih _

theorem lowWord_nonce (n : Nat) : BitVec.ofNat 32 (bits (32 * 0 + 31) (32 * 0) n) = BitVec.ofNat 32 n := by
  apply BitVec.eq_of_toNat_eq
  simp [bits]

/-- A read that begins and draws the nonce returns its low word alone. -/
theorem nonceRead_drawn (ini : Initiator) (s : State) :
    ∃ n, (nonceRead ini (beginRead ini s)).sag.nonce = some n ∧
      (nonceRead ini (beginRead ini s)).sag.nonceAt = s.clock.uptime ∧
      tget (nonceRead ini (beginRead ini s)).regs.rdata [] (iniNum ini) = [BitVec.ofNat 32 n.toNat] := by
  unfold nonceRead
  extract_lets n w s0 sag0 s1
  obtain ⟨hread, hsag⟩ := foldl_capture_kept ini Reg.SAG_NONCE_R (fun j => w (j + 1)) (List.range 7) s1
  refine ⟨n.1, congrArg Sagger.nonce hsag, congrArg Sagger.nonceAt hsag, ?_⟩
  rw [tget, rdata_returns_first, Option.getD_some]
  · exact congrArg (fun v => [v]) (lowWord_nonce n.1.toNat)
  · rw [hread]
    exact tfind_tput_self _ _ _

theorem nonceExpire_lapsed {t : Nat} {s : State} (hn : (advanceTo t s).sag.nonce.isSome)
    (ht : (advanceTo t s).sag.nonceAt + 600000 * ms ≤ (advanceTo t s).clock.uptime) :
    (nonceExpire t s).sag = { (advanceTo t s).sag with nonce := none } := by
  rw [nonceExpire, if_pos ⟨hn, ht⟩]

/-! ## Batches (R113, R471, R472) -/

theorem crkSubmit_sag (b : CrkBody) (cmd batch : Option Nat) (s : State) : (crkSubmit b cmd batch s).sag = s.sag := by
  unfold crkSubmit
  split <;> rfl

/-- The batch a tenant's open receipts close into: the draw gives its signature's bits. -/
def closedBatch (t : Nat) (s : State) : Batch :=
  let x := sagTenant s t
  let block := le 96 (draw 768 s).1.toNat ++ List.replicate 32 0
  { id := s.sag.nextBatch, tenant := t, num := if x.restart.isSome then 1 else x.batch + 1,
    entries := batchHeader s t :: x.receipts ++ [block.take 64, block.drop 64], slots := x.slots, persisted := noJournal s }

/-- What Sagger holds of the tenant then: the chain moved on, no receipt open. -/
def closedTenant (t : Nat) (s : State) : SagTenant :=
  { sagTenant s t with
    head := Config.sha384 (batchHeader s t ++ (sagTenant s t).receipts.flatten), batch := (closedBatch t s).num, restart := none,
    receipts := [], slots := 0 }

theorem closeBatch_closes {t : Nat} {s : State} (h : (sagTenant s t).receipts ≠ []) :
    (closeBatch t s).sag = { s.sag with
      tenants := tput s.sag.tenants t (closedTenant t s), batches := s.sag.batches ++ [closedBatch t s],
      nextBatch := s.sag.nextBatch + 1 } :=
  (congrArg State.sag (if_neg h)).trans (crkSubmit_sag _ _ _ _)

theorem batchReady_found {t r : Nat} {b : Batch} {s : State} (hb : oldestBatch s t = some b) (hp : b.persisted = true ∨ noJournal s = true)
    (hr : receiptRing s t = some r) (hroom : canPost s r b.entries.length = true) : batchReady s t = some (b, r) := by
  rw [batchReady, hb, hr]
  exact if_pos (by simpa [hroom] using hp)

theorem batchPost_posts {t r : Nat} {b : Batch} {s : State} (h : batchReady s t = some (b, r)) (ha : alarmFirst s = false) :
    batchPost t s = refreshReady (dropBatch b.id (postRecords r (b.entries.map Record.receipt) s)) := by
  rw [batchPost, h]
  exact if_neg (by rw [ha]; exact Bool.false_ne_true)

/-! ## The firewall (R442) -/

theorem firewallDenial_regs (debug write : Bool) {row : Nat} (addr : Nat) (s : State) (hr : row < 10) :
    rn (firewallDenial debug row addr write s) Reg.SAG_LAST_VIOL = (if debug then 3 else 1) + 16 * (row + 1) ∧
      rn (firewallDenial debug row addr write s) Reg.SAG_FW_VIOL_CNT = min 0xFFFFFFFF (rn s Reg.SAG_FW_VIOL_CNT + 1) := by
  unfold firewallDenial
  extract_lets who s1 s2
  have hread : ∀ k, keyKind k = .sag → rn (if write || debug then s2 else returns .core 0#32 (beginRead .core s2)) k = rn s1 k := by
    intro k hk
    have h2 : rn s2 k = rn s1 k :=
      (rn_congr (rd_raiseIrq pgSag 4 _ k)).trans ((event_keeps _ _ _ s1 (fun _ q => q) (Keeps.refl _ s1)).rn (by rw [hk]; decide))
    split
    · exact h2
    · exact h2
  rw [hread _ (by decide), hread _ (by decide)]
  constructor
  · rw [rn_wn_self]
    exact Nat.mod_eq_of_lt (by unfold who; split <;> omega)
  · rw [rn_wn_ne _ _ (by decide), rn_inc_self]

theorem firewallDenial_read (row addr : Nat) (s : State) :
    tget (firewallDenial false row addr false s).regs.rdata [] (iniNum .core) = [0#32] := by
  rw [firewallDenial, if_neg (by decide), tget, rdata_returns_first (tfind_tput_self _ _ _), Option.getD_some]

/-! ## The boot (R448, R449, R519) -/

theorem armEdges_dllLock (h r t : Nat) (s : State) : (armEdges h r t s).clk.dllLock = s.clk.dllLock := by
  unfold armEdges
  extract_lets due x
  split <;> rfl

theorem settleStep_dllLock (line : Nat) (s : State) : (settleStep line s).clk.dllLock = s.clk.dllLock := by
  unfold settleStep
  split <;> rfl

/-- A fold of steps that leave the delay loop's lock leaves it. -/
theorem foldl_dllLock {f : State → Nat → State} (hf : ∀ s x, (f s x).clk.dllLock = s.clk.dllLock) (l : List Nat) (s : State) :
    (l.foldl f s).clk.dllLock = s.clk.dllLock := by
  induction l generalizing s with
  | nil => rfl
  | cons x l ih => exact (ih _).trans (hf s x)

/-- The lock of the delay loop that a change leaves, given the lock it meets, stands after the taps take it. -/
theorem retune_dllLock {change : State → State} {s : State} {b : Bool}
    (hc : ∀ u : State, u.clk.dllLock = s.clk.dllLock → (change u).clk.dllLock = b) : (retune change s).clk.dllLock = b := by
  unfold retune
  extract_lets s1 s2 s3 clk s4
  have h1 : s1.clk.dllLock = s.clk.dllLock := by
    unfold s1
    exact foldl_dllLock (fun u h => foldl_dllLock (fun v r => armEdges_dllLock h r _ v) _ u) _ s
  have h2 : s2.clk.dllLock = s1.clk.dllLock := by
    unfold s2
    exact foldl_dllLock (fun u i => settleStep_dllLock _ u) _ s1
  have h3 : s3.clk.dllLock = b := hc s2 (h2.trans h1)
  refine (foldl_dllLock (fun u h => ?_) _ s4).trans h3
  split <;> rfl

theorem raised_event_clk (n bit code : Nat) (tenant : Option Nat) (payload : List Byte) (s : State) :
    (raiseIrq n bit (event code tenant payload s)).clk = s.clk :=
  have hevent := event_keeps code tenant payload s (fun _ q => q) (Keeps.refl _ s)
  have hraise := raiseIrq_keeps n bit (event code tenant payload s) (fun _ q => q) (Keeps.refl _ _)
  (hraise.only .clk (by simp)).trans (hevent.only .clk (by decide))

theorem dllChange_locked (code : Nat) (s : State) : (dllChange true code s).clk.dllLock = true := by
  unfold dllChange
  simp only [if_true]
  split
  next hl => exact retune_dllLock fun u hu => hu.trans hl
  next =>
    rw [raised_event_clk]
    exact retune_dllLock fun _ _ => rfl

/-- A boot past its integrity checks comes to the link with the delay loop locked, firmware and power as they were; then
the DRAM failure stops it, or the journal is recovered. -/
theorem boot_trained {cs0 cs1 id0 id1 speed width failed : Nat} {good : Bool} {s t : State} (hb : bootMayRun s = true)
    (hh : s.sag.halted = false) (hc : s.sag.failCode = 0) (hf : ¬(failed = 1 ∨ failed = 2 ∨ failed = 3))
    (e : boot cs0 cs1 id0 id1 speed width good failed s = t) :
    ∃ u, t = (if failed = 4 then { u with sag := { u.sag with stage := 5, failCode := 4 } } else bootJournal cs0 cs1 good u) ∧
      u.fw = s.fw ∧ u.pwr = s.pwr ∧ u.clk.dllLock = true ∧ u.hif.linkSpeed = speed ∧ u.hif.linkWidth = width := by
  rw [boot, if_neg (by rw [hb]; decide), if_neg (by rw [hh]; decide), if_neg (not_not_intro hc), if_neg hf] at e
  extract_lets clk s1 d s2 s3 sag3 s4 ids s5 sag5 at e
  refine ⟨s5, e.symm, ?_⟩
  have k2 := dllChange_keeps true d.1.toNat d.2 (fun _ q => q) (Keeps.refl _ _)
  have k3 : Keeps [.reg .crk] s2 s3 := wn_keeps _ _ _ (by decide) (wn_keeps _ _ _ (by decide) (Keeps.refl _ _))
  have k4 : Keeps [.sag] s3 s4 := by
    refine Keeps.ite (fun _ => ?_) fun _ => ?_
    · exact Keeps.set_sag rfl (by decide) (Keeps.refl _ _)
    · exact bootPatches_keeps _ (fun _ q => q) (Keeps.set_sag rfl (by decide) (Keeps.refl _ _))
  have hclk : s5.clk = s2.clk := (k4.only .clk (by decide)).trans (k3.only .clk (by decide))
  refine ⟨?_, ?_, (congrArg Clk.dllLock hclk).trans (dllChange_locked _ _), rfl, rfl⟩
  · exact ((k4.only .fw (by decide)).trans (k3.only .fw (by decide))).trans (k2.only .fw (by decide))
  · exact ((k4.only .pwr (by decide)).trans (k3.only .pwr (by decide))).trans (k2.only .pwr (by decide))

theorem boot_halts {cs0 cs1 id0 id1 speed width failed : Nat} {good : Bool} {s : State} (hb : bootMayRun s = true)
    (hh : s.sag.halted = false) (hc : s.sag.failCode = 0) (hf : failed = 1 ∨ failed = 2 ∨ failed = 3) :
    boot cs0 cs1 id0 id1 speed width good failed s = trainLink speed width 0x72401E9C#32 (haltSagger failed s) := by
  rw [boot, if_neg (by rw [hb]; decide), if_neg (by rw [hh]; decide), if_neg (not_not_intro hc), if_pos hf]

theorem Only.link {ps : List Part} {s u : State} (k : Only ps s u) (hp : Part.hif ∉ ps) :
    u.hif.linkSpeed = s.hif.linkSpeed ∧ u.hif.linkWidth = s.hif.linkWidth := by
  have h : { u.hif with rings := [], msixPend := [] } = { s.hif with rings := [], msixPend := [] } := k .hif hp
  have hspeed := congrArg Hif.linkSpeed h
  have hwidth := congrArg Hif.linkWidth h
  exact ⟨hspeed, hwidth⟩

/-- Recovering the journal keeps the link and the delay loop. -/
theorem bootJournal_link (cs0 cs1 : Nat) (good : Bool) (s : State) :
    (bootJournal cs0 cs1 good s).hif.linkSpeed = s.hif.linkSpeed ∧ (bootJournal cs0 cs1 good s).hif.linkWidth = s.hif.linkWidth ∧
      (bootJournal cs0 cs1 good s).clk.dllLock = s.clk.dllLock := by
  have k := (bootJournal_keeps cs0 cs1 good s (fun _ q => q) (Keeps.refl _ s)).only
  obtain ⟨hspeed, hwidth⟩ := k.link (by decide)
  exact ⟨hspeed, hwidth, congrArg Clk.dllLock (k .clk (by decide))⟩

/-- Settles O18: each event by what its operation writes; the boot by what each of its ends leaves. -/
theorem saggerEventsRun : Obligations.SaggerEventsRun := by
  refine ⟨?nonce, ?expire, ?close, ?post, ?firewall, ?boots, ?fails⟩
  case nonce =>
    intro ini s hc hu hb
    refine next_at (execSagNonceRead_keeps ini s) (by decide)
      (congrArg Host.Outcome.next (guardRead_readable (addr := Reg.SAG_NONCE0) (s := beginRead ini s) hc hu hb _)) ?_
    exact nonceRead_drawn ini s
  case expire =>
    rintro at_ s u rfl hn ht
    exact next_at (execNonceExpire_keeps at_ s) (by decide) rfl (nonceExpire_lapsed hn ht)
  case close =>
    intro n s h
    refine next_at (execBatchCloseTimer_keeps n s) (by decide) rfl ?_
    have hsag := closeBatch_closes h
    have htenant : sagTenant (closeBatch n.val s) n.val = closedTenant n.val s := by
      rw [sagTenant, hsag]
      exact tget_tput_self _ _ _ _
    rw [htenant]
    exact ⟨rfl, rfl, _, congrArg Sagger.batches hsag, rfl, rfl, _, rfl⟩
  case post =>
    intro n b r s hb hp hr hroom ha
    refine next_at (execBatchPost_keeps n s) (by decide) rfl ?_
    rw [batchPost_posts (batchReady_found hb hp hr hroom) ha]
    have hq := refreshReady_alike (dropBatch b.id (postRecords r (b.entries.map Record.receipt) s))
    have hentries := hq.field (·.entries) fun _ => rfl
    refine ⟨(hentries r).trans (postRecords_entries _ _ _), ?_, fun m hm => ?_⟩
    · refine (hq.field (·.pi) (fun _ => rfl) r).trans ((postRecords_pi _ _ _).trans ?_)
      rw [List.length_map]
    · exact (hentries m).trans (congrArg Ring.entries (postRecords_ring_ne _ hm))
  case firewall =>
    intro debug row addr write s
    refine next_at (execFirewallDenial_keeps debug row addr write s) (by decide) rfl ?_
    obtain ⟨hviol, hcount⟩ := firewallDenial_regs debug write addr.toNat s row.isLt
    refine ⟨hviol, hcount, ?_⟩
    rintro rfl rfl
    exact firewallDenial_read _ _ _
  case boots =>
    intro cs0 cs1 id0 id1 speed width good s hb hh hc
    refine next_at (execBoot_keeps cs0 cs1 id0 id1 speed width good 0 s) (by decide) rfl ?_
    generalize e : boot _ _ _ _ _ _ _ _ s = t
    obtain ⟨u, ht, -, -, hlock, hspeed, hwidth⟩ := boot_trained hb hh hc (by decide) e
    obtain ⟨kspeed, kwidth, klock⟩ := bootJournal_link cs0.toNat cs1.toNat good u
    rw [if_neg (by decide)] at ht
    subst ht
    exact ⟨rfl, rfl, rfl, rfl, rfl, kspeed.trans hspeed, kwidth.trans hwidth, klock.trans hlock⟩
  case fails =>
    intro cs0 cs1 id0 id1 speed width good failed s hb hh hc h0
    refine next_at (execBoot_keeps cs0 cs1 id0 id1 speed width good failed s) (by decide) rfl ?_
    by_cases h4 : failed = 4
    · subst h4
      generalize e : boot _ _ _ _ _ _ _ _ s = t
      obtain ⟨u, ht, hfw, hpwr, -⟩ := boot_trained hb hh hc (by decide) e
      rw [if_pos (by decide)] at ht
      subst ht
      exact ⟨rfl, congrArg Power.boot hpwr, hfw, fun h => absurd rfl h⟩
    · rw [boot_halts hb hh hc (by omega)]
      exact ⟨rfl, rfl, rfl, fun _ => ⟨rfl, rfl⟩⟩

end Sys2Proof.Machine
end

section
/-! SUPPORT. What commands of resident firmware share: their streams, the waits of wake commands, and folds over the objects of a mask
(O4, O15, O17, O19 to O21, O29, O32). -/

namespace Sys2Proof.Machine
open Sys2Proof

/-! ## Every command answers -/

/-- Every command's meaning answers a next state: none has an arm that faults or refuses. -/
theorem exec_next (i : Instr) (s : State) : ∃ t, exec i s = .next t := by
  cases i <;> exact ⟨_, rfl⟩

/-- Settles O4: a step is a command's meaning, or a cycle of the clock where no command waits. -/
theorem everyStepAnswers : Obligations.EveryStepAnswers := by
  refine ⟨exec_next, fun s => ?_⟩
  unfold step
  split
  next => exact ⟨_, rfl⟩
  next c r _ => exact exec_next c { s with pending := r }

/-! ## Streams and objects -/

theorem blockedBy_nil (s : State) (seq : Nat) : blockedBy s seq [] = false := by
  simp [blockedBy]

/-- A command goes on with a complete stream whose bytes name nothing an earlier command bars (R116, R123). -/
theorem withStream_complete {h : Hdr} {c : Instr} {objs : List Nat} {t handle : Nat} {k : Stream → State → State} {x : Stream} {s : State}
    (hx : findStream s t handle = some x) (hf : x.failed = false) (hc : x.complete = true)
    (hb : blockedBy s h.seq (streamObjs s h c) = false) : withStream h c objs t handle k s = k x s := by
  simp only [withStream, hx, hf, hc, hb]
  rfl

/-- The stream of a command of this kind names objects by its bytes (R123). -/
def namesByStream : Instr → Bool
  | .copySubmit .. | .pageLoad .. | .nozzleWrite .. | .planeConfig .. => true
  | _ => false

theorem streamObjs_nil {c : Instr} (h : namesByStream c = false) (s : State) (hd : Hdr) : streamObjs s hd c = [] := by
  unfold streamObjs
  split
  · rfl
  · split
    · exact nomatch h
    · exact nomatch h
    · exact nomatch h
    · exact nomatch h
    · rfl

/-- A command just taken goes on with a complete stream that names no object by its bytes. -/
theorem withStream_taken {d : Desc} {c : Instr} {objs : List Nat} {t handle : Nat} {k : Stream → State → State} {x : Stream} {s : State}
    (hx : findStream s t handle = some x) (hf : x.failed = false) (hc : x.complete = true) (hn : namesByStream c = false) :
    withStream (hdrOf d s) c objs t handle k (taken d s) = k x (taken d s) :=
  withStream_complete hx hf hc (by rw [streamObjs_nil hn, blockedBy_nil])

/-- An accepted command stays so through what leaves it in the table. -/
theorem Accepted.after {d : Desc} {c : Instr} {pages waits : List Nat} {s t u : State} (h : Accepted d c pages waits s t)
    (k : StillParked t u) : Accepted d c pages waits s u := by
  obtain ⟨hci, p, hp, hh, hcmd, hacc, hpages, hwaits⟩ := h
  obtain ⟨q, hq, h1, h2, h3, h4, h5⟩ := k.parked p hp
  exact ⟨(k.ci _).trans hci, q, hq, h1.trans hh, h2.trans hcmd, h3.trans hacc, fun n hn => hpages n (h4 n hn), h5.trans hwaits⟩

/-- A wake command goes on at once in RUN (R538). -/
theorem wake_run {h : Hdr} {c : Instr} {objs : List Nat} {k : State → State} {s : State} (hr : s.pwr.state = .run)
    (ht : s.pwr.toward = none) : wake h c objs k s = k s := if_pos ⟨hr, ht⟩

theorem lt_of_mem_maskBits {n v i : Nat} (h : i ∈ maskBits n v) : i < n := List.mem_range.mp (List.mem_filter.mp h).1

/-! ## Folds over a list of objects -/

/-- What holds of every state a fold passes through holds at its end. -/
theorem foldl_holds {α : Type} {f : State → α → State} {I : State → Prop} (l : List α) {s : State} (h : I s)
    (hf : ∀ t, ∀ a ∈ l, I t → I (f t a)) : I (l.foldl f s) := by
  induction l generalizing s with
  | nil => exact h
  | cons x l ih =>
    exact ih (hf s x List.mem_cons_self h) fun t a ha => hf t a (List.mem_cons_of_mem x ha)

/-- What a member's step brings about, and no later step takes away, holds at the end of a fold. -/
theorem foldl_reaches {α : Type} {f : State → α → State} {I P : State → Prop} {a : α} {l : List α} {s : State} (ha : a ∈ l) (hs : I s)
    (hI : ∀ t, ∀ b ∈ l, I t → I (f t b)) (hP : ∀ t, I t → P (f t a)) (hQ : ∀ t, ∀ b ∈ l, b ≠ a → I t → P t → P (f t b)) :
    P (l.foldl f s) := by
  obtain ⟨l₁, l₂, rfl⟩ := List.append_of_mem ha
  rw [List.foldl_append, List.foldl_cons]
  have h1 : I (l₁.foldl f s) := foldl_holds l₁ hs fun t b hb => hI t b (List.mem_append_left _ hb)
  refine (foldl_holds (I := fun t => I t ∧ P t) l₂ ⟨hI _ a ha h1, hP _ h1⟩ fun t b hb ⟨hi, hp⟩ => ?_).2
  have hm : b ∈ l₁ ++ a :: l₂ := List.mem_append_right _ (List.mem_cons_of_mem a hb)
  refine ⟨hI t b hm hi, ?_⟩
  by_cases he : b = a
  · exact he ▸ hP t hi
  · exact hQ t b hm he hi hp

/-- What a member's step makes of a value, where it makes no more of it a second time and no other step changes the value. -/
theorem foldl_value {α β : Type} {f : State → α → State} {val : State → β} {g : β → β} {I : State → Prop} {a : α} {l : List α} {s : State}
    (ha : a ∈ l) (hs : I s) (hg : ∀ v, g (g v) = g v) (hI : ∀ t, ∀ b ∈ l, I t → I (f t b)) (hself : ∀ t, I t → val (f t a) = g (val t))
    (hne : ∀ t, ∀ b ∈ l, b ≠ a → val (f t b) = val t) : val (l.foldl f s) = g (val s) := by
  refine foldl_reaches (I := fun t => I t ∧ (val t = val s ∨ val t = g (val s))) (P := fun t => val t = g (val s)) ha ⟨hs, Or.inl rfl⟩
    ?_ ?_ fun t b hb hn _ h => (hne t b hb hn).trans h
  · intro t b hb ⟨hi, ht⟩
    refine ⟨hI t b hb hi, ?_⟩
    by_cases he : b = a
    · rw [he, hself t hi]
      exact Or.inr (ht.elim (congrArg g) fun h => (congrArg g h).trans (hg _))
    · rwa [hne t b hb he]
  · rintro t ⟨hi, ht⟩
    rw [hself t hi]
    exact ht.elim (congrArg g) fun h => (congrArg g h).trans (hg _)

end Sys2Proof.Machine
end

section
/-! SUPPORT. The proofs of what the axis commands do (O29). -/

namespace Sys2Proof.Machine
open Sys2Proof

/-! ## AXIS_CONFIG (R342) -/

theorem configOffsets_row : ∀ r ∈ regRows .motA, 0x80 ≤ r.off → (r.acc = .rw ∨ r.acc = .mixed) ∧ r.off ∈ configOffsets ∧
    (regRows .motA).find? (fun q => q.off = r.off) = some r := by decide

theorem configOffsets_lt : ∀ o ∈ configOffsets, o < 0x1000 := by decide

theorem pageOf_pgMot (a : Nat) : pageOf (pgMot a) = some (.motA, a % 8) := by
  have : ∀ i < 8, pageOf (0x121 + i) = some (.motA, i) := by decide
  exact this (a % 8) (Nat.mod_lt _ (by decide))

/-- The page and the offset of an address on an axis's page. -/
theorem motAddr_split (a : Nat) {off : Nat} (h : off < 0x1000) :
    (pgMot a * 0x1000 + off) / 0x1000 = pgMot a ∧ (pgMot a * 0x1000 + off) % 0x1000 = off := by omega

theorem keyKind_pgMot (a : Nat) {off : Nat} (h : off < 0x1000) : keyKind (pgMot a * 0x1000 + off) = .motA := by
  have h8 : a % 8 < 8 := Nat.mod_lt _ (by decide)
  exact (keyKind_of (n := pgMot a) (by simp only [pgMot]; omega)).trans (pageKind_pgMot a)

theorem regDef_motA (a : Nat) {off : Nat} (h : off < 0x1000) :
    regDef (pgMot a * 0x1000 + off) = (regRows .motA).find? fun r => r.off = off := by
  obtain ⟨hp, ho⟩ := motAddr_split a h
  rw [regDef, hp, pageOf_pgMot, ho]

/-- No register of an axis's page stands behind a select register. -/
theorem keyOf_motA (a : Nat) {off : Nat} (h : off < 0x1000) (s : State) : keyOf s (pgMot a * 0x1000 + off) = pgMot a * 0x1000 + off := by
  refine keyOf_plain ?_ s
  have hw : ∀ w ∈ windows, w.2.1 < 0x121000 ∨ 0x129000 ≤ w.1 := by decide
  have h8 : a % 8 < 8 := Nat.mod_lt _ (by decide)
  rw [plainKey, (motAddr_split a h).1, pageOf_pgMot]
  simp only [Option.isNone_iff_eq_none, List.find?_eq_none, decide_eq_true_eq]
  intro w hm ⟨h1, h2⟩
  have := hw w hm
  simp only [pgMot] at h1 h2
  omega

/-- A plain write of the same value again changes nothing. -/
theorem plainValue_idem (r : RegDef) (old v : Word) : plainValue r (plainValue r old v) v = plainValue r old v := by
  refine BitVec.eq_of_getLsbD_eq fun i hi => ?_
  simp only [plainValue, BitVec.getLsbD_and, BitVec.getLsbD_or, BitVec.getLsbD_not]
  cases v.getLsbD i <;> cases r.mask.getLsbD i <;> cases r.w1c.getLsbD i <;> cases old.getLsbD i <;> simp [hi]

/-- A configuration register is left by the write of another. -/
theorem rd_image_ne {a o b : Nat} {v : Word} {s : State} (hb : b ∈ configOffsets) (hne : b ≠ o) :
    rd (plainPut (pgMot a * 0x1000 + b) v s) (pgMot a * 0x1000 + o) = rd s (pgMot a * 0x1000 + o) := by
  rw [plainPut, keyOf_motA a (configOffsets_lt b hb)]
  split
  · split
    · exact rd_wr_ne _ _ (by omega)
    · rfl
  · rfl

theorem applyImage_reads {r : RegDef} (hr : r ∈ regRows .motA) (ho : 0x80 ≤ r.off) (a : Nat) (bs : List Byte) (s : State) :
    rd (applyImage a bs s) (pgMot a * 0x1000 + r.off) =
      plainValue r (rd s (pgMot a * 0x1000 + r.off)) (BitVec.ofNat 32 (imageWord bs r.off)) := by
  obtain ⟨hacc, hmem, hfind⟩ := configOffsets_row r hr ho
  have hlt := configOffsets_lt r.off hmem
  refine foldl_value (I := fun _ => True) (val := fun t => rd t (pgMot a * 0x1000 + r.off))
    (g := fun w => plainValue r w (BitVec.ofNat 32 (imageWord bs r.off))) hmem trivial (fun w => plainValue_idem r w _)
    (fun _ _ _ _ => trivial) (fun t _ => ?_) fun t b hb hne => rd_image_ne hb hne
  rw [plainPut_rw ((regDef_motA a hlt).trans hfind) hacc, keyOf_motA a hlt, rd_wr_self]

theorem axisConfig_applies {h : Hdr} {a : Nat} {bs : List Byte} {s : State} (hd : (axis s a).state = .disabled) (hl : bs.length = 160)
    (hr : imageRanges bs = true) (hm : imageLimits (imageWord bs) = true) (hp : imageProfiles (imageWord bs) = true) :
    axisConfig h a bs s = ok h 0 (applyImage a bs s) := by
  rw [axisConfig, if_neg (by simp [hd]), if_neg (by simp [hl, hr, hm, hp])]

/-! ## AXIS_ENABLE (R359, R361) -/

/-- The axis joins the enable queue. -/
def enqueue (a seq : Nat) (s : State) : State :=
  if (axis s a).state = .enabling then s
  else setAxis a .enabling { s with mot := { s.mot with queue := s.mot.queue ++ [(a, seq)] } }

theorem enqueue_self (a seq : Nat) (s : State) : (axis (enqueue a seq s) a).state = .enabling := by
  unfold enqueue
  split
  next h => exact h
  next => rw [setAxis_axis, if_pos rfl]

theorem enqueue_ne {a b : Nat} (seq : Nat) (s : State) (h : b ≠ a) : axis (enqueue a seq s) b = axis s b := by
  unfold enqueue
  split
  · rfl
  · rw [setAxis_ne _ _ h]
    rfl

theorem enqueue_alike (a seq : Nat) (s : State) : RingsAlike s (enqueue a seq s) := by
  unfold enqueue
  split
  · exact RingsAlike.refl s
  · exact setAxis_alike a .enabling { s with mot := { s.mot with queue := s.mot.queue ++ [(a, seq)] } }

theorem enqueueAll_enabling {l : List Nat} {a : Nat} (ha : a ∈ l) (seq : Nat) (s : State) :
    (axis (l.foldl (fun t a => enqueue a seq t) s) a).state = .enabling :=
  foldl_reaches (I := fun _ => True) (P := fun t => (axis t a).state = .enabling) ha trivial (fun _ _ _ _ => trivial)
    (fun t _ => enqueue_self a seq t) fun t _ _ hne _ hP => (congrArg Axis.state (enqueue_ne seq t (Ne.symm hne))).trans hP

theorem axisEnable_enables {h : Hdr} {c : Instr} {as : List Nat} {s : State} (hw : toEnable s as ≠ [])
    (ht : ∀ a ∈ as, tripCoversAxis s a = false ∧ mayEnable s a = true) : axisEnable h c as s =
      parkAccepted h c (as.map objAxis) ((toEnable s as).map keyAdmit) ((toEnable s as).foldl (fun t a => enqueue a h.seq t) s) := by
  have h1 : (as.any fun a => tripCoversAxis s a) = false := List.any_eq_false.mpr fun a ha => by simp [(ht a ha).1]
  have h2 : (as.any fun a => !mayEnable s a) = false := List.any_eq_false.mpr fun a ha => by simp [(ht a ha).2]
  simp only [axisEnable, h1, h2, if_neg hw]
  rfl

/-- An axis that is off: no motion, and TRIPPED where a trip latch covers it (R359, R361). -/
structure AxisOff (tripped : Bool) (x : Axis) : Prop where
  state : x.state = if tripped then .tripped else .disabled
  move : x.move = none
  vel : x.vel = 0

theorem disableAxis_only (a : Nat) (s : State) :
    Keeps [.fw, .mot, .msix, .out, .reg .motA, .reg .stk, .rings, .stk] s (disableAxis a s) :=
  disableAxis_keeps a s (fun _ q => q) (Keeps.refl _ s)

/-- The commands that waited for an axis's admission fail: no axis changes. -/
theorem failAll_axis (l : List Parked) (status : Nat) (s : State) (b : Nat) :
    axis (l.foldl (fun t q => fail q.h status t) s) b = axis s b :=
  foldl_holds (I := fun t => axis t b = axis s b) l rfl fun t q _ h => (axis_complete q.h status 0 t b).trans h

theorem tripCoversAxis_congr {s t : State} (hk : t.kln = s.kln) (hr : ∀ i, rd t (Reg.MOT_TRIP_MAP i) = rd s (Reg.MOT_TRIP_MAP i))
    (a : Nat) : tripCoversAxis t a = tripCoversAxis s a := by
  simp only [tripCoversAxis, trip, hk, rbit_congr (hr _)]

@[simp] theorem keyKind_MOT_TRIP_MAP (i : Nat) : keyKind (Reg.MOT_TRIP_MAP i) = .motC := by
  have : i % 4 < 4 := Nat.mod_lt _ (by decide)
  exact (keyKind_of (n := 0x120) (by simp only [Reg.MOT_TRIP_MAP]; omega)).trans (by decide)

theorem disableAxis_trips (a b : Nat) (s : State) : tripCoversAxis (disableAxis a s) b = tripCoversAxis s b :=
  tripCoversAxis_congr ((disableAxis_only a s).only .kln (by decide)) (fun i => (disableAxis_only a s).rd (by simp)) b

theorem disableAxis_axis (a : Nat) (s : State) (b : Nat) : axis (disableAxis a s) b =
    axis (setAxis a (if tripCoversAxis s a then .tripped else .disabled) (updAxis a (fun y => { y with
      move := none, stop := .none, vel := 0, acc := 0, feedWait := none, held := false, applied := false,
      homed := y.homed && !homing (axis s a), phA := { y.phA with duty := 0 }, phB := { y.phB with duty := 0 } })
      (dropRetained a { s with mot := { s.mot with queue := s.mot.queue.filter (·.1 ≠ a) } }))) b := by
  rw [disableAxis, failAll_axis, axis_arrive, axis_completeOpt]

theorem disableAxis_self (a : Nat) (s : State) : AxisOff (tripCoversAxis s a) (axis (disableAxis a s) a) := by
  rw [disableAxis_axis, setAxis_axis, if_pos rfl, axis_updAxis_self]
  exact ⟨rfl, rfl, rfl⟩

theorem disableAxis_ne {a b : Nat} (s : State) (h : b ≠ a) : axis (disableAxis a s) b = axis s b := by
  rw [disableAxis_axis, setAxis_ne _ _ h, axis_updAxis_ne _ _ h, dropRetained_axis, if_neg h]
  rfl

theorem disableAll_off {l : List Nat} {a : Nat} (ha : a ∈ l) (s : State) :
    AxisOff (tripCoversAxis s a) (axis (l.foldl (fun t a => disableAxis a t) s) a) :=
  foldl_reaches (I := fun t => tripCoversAxis t a = tripCoversAxis s a) (P := fun t => AxisOff (tripCoversAxis s a) (axis t a)) ha rfl
    (fun t b _ h => (disableAxis_trips b a t).trans h) (fun t h => h ▸ disableAxis_self a t)
    fun t _ _ hne _ hP => (disableAxis_ne t (Ne.symm hne)).symm ▸ hP

theorem bodyAxisEnable_enables {h : Hdr} {c : Instr} {mask action : Nat} {s : State} (h1 : action = 1) (hr : s.pwr.state = .run)
    (ht : s.pwr.toward = none) (hw : toEnable s (maskBits 8 mask) ≠ [])
    (hm : ∀ a ∈ maskBits 8 mask, tripCoversAxis s a = false ∧ mayEnable s a = true) : bodyAxisEnable h c mask action s =
      parkAccepted h c ((maskBits 8 mask).map objAxis) ((toEnable s (maskBits 8 mask)).map keyAdmit)
        ((toEnable s (maskBits 8 mask)).foldl (fun t a => enqueue a h.seq t) s) := by
  rw [bodyAxisEnable, if_neg (by omega), if_neg (by omega), wake_run hr ht, axisEnable_enables hw hm]

theorem bodyAxisEnable_disables {h : Hdr} {c : Instr} {mask action : Nat} {s : State} (h0 : action = 0) :
    bodyAxisEnable h c mask action s = ok h 0 ((maskBits 8 mask).foldl (fun t a => disableAxis a t) s) := by
  rw [bodyAxisEnable, if_neg (by omega), if_pos h0]

/-! ## AXIS_STOP (R352) -/

/-- The stop a mode of AXIS_STOP asks for. -/
def stopOf (mode : Nat) : StopMode := if mode = 0 then .mode0 else .mode1

/-- An axis that stops in a mode of AXIS_STOP. -/
def StopsIn (mode : Nat) (x : Axis) : Prop := x.state = .stopping ∧ x.stop = stopOf mode

theorem stopAxis_ne {a b : Nat} (mode : Nat) (s : State) (h : b ≠ a) : axis (stopAxis a mode s) b = axis s b := by
  unfold stopAxis
  dsimp only
  split
  · rw [beginStop, setAxis_ne _ _ h, axis_updAxis_ne _ _ h]
  · split
    · exact axis_updAxis_ne _ _ h
    · rfl

theorem stopAxis_self {a mode : Nat} {s : State} (h : (axis s a).state = .moving ∨ StopsIn mode (axis s a)) :
    StopsIn mode (axis (stopAxis a mode s) a) := by
  rcases h with hm | ⟨hs, hp⟩
  · rw [stopAxis, if_pos hm, beginStop, setAxis_axis, if_pos rfl, axis_updAxis_self]
    exact ⟨rfl, rfl⟩
  · have h1 : ¬(axis s a).state = .moving := by rw [hs]; decide
    have h2 : ¬((axis s a).state = .stopping ∧ (axis s a).stop = .mode0 ∧ mode = 1) := by
      rintro ⟨-, h0, rfl⟩
      rw [hp] at h0
      cases h0
    rw [stopAxis, if_neg h1, if_neg h2]
    exact ⟨hs, hp⟩

theorem stopAxis_alike (a mode : Nat) (s : State) : RingsAlike s (stopAxis a mode s) := by
  unfold stopAxis
  dsimp only
  split
  · exact (updAxis_alike a (fun x => { x with stop := if mode = 0 then .mode0 else .mode1 }) s).trans (setAxis_alike a .stopping _)
  · split
    · exact updAxis_alike a (fun y => { y with stop := .mode1 }) s
    · exact RingsAlike.refl s

theorem stopAll_stops {as : List Nat} {a mode : Nat} {s : State} (ha : a ∈ as) (hm : (axis s a).state = .moving) :
    StopsIn mode (axis (as.foldl (fun t a => stopAxis a mode t) s) a) := by
  refine foldl_reaches (I := fun t => (axis t a).state = .moving ∨ StopsIn mode (axis t a)) (P := fun t => StopsIn mode (axis t a)) ha
    (Or.inl hm) (fun t b _ h => ?_) (fun t h => stopAxis_self h) fun t b _ hne _ h => (stopAxis_ne mode t (Ne.symm hne)).symm ▸ h
  by_cases hb : b = a
  · exact Or.inr (hb ▸ stopAxis_self (hb ▸ h))
  · rwa [stopAxis_ne mode t (Ne.symm hb)]

theorem bodyAxisStop_stops {h : Hdr} {c : Instr} {mask mode : Nat} {s : State} (hm : mode ≤ 1) (hn : maskBits 8 mask ≠ [])
    (ha : ∀ a ∈ maskBits 8 mask, (axis s a).state = .moving) : bodyAxisStop h c mask mode s =
      parkAccepted h c ((maskBits 8 mask).map objAxis) ((maskBits 8 mask).map keyAxis)
        ((maskBits 8 mask).foldl (fun t a => stopAxis a mode t) s) := by
  have h2 : (maskBits 8 mask).filter (fun a => decide ((axis ((maskBits 8 mask).foldl (fun t a => stopAxis a mode t) s) a).state ≠
      .standstill)) = maskBits 8 mask := List.filter_eq_self.mpr fun a hm => by
    have hs : (axis ((maskBits 8 mask).foldl (fun t a => stopAxis a mode t) s) a).state = .stopping := (stopAll_stops hm (ha a hm)).1
    simp [hs]
  unfold bodyAxisStop
  refine (if_neg (by omega)).trans ((if_neg ?_).trans ?_)
  · rw [Bool.not_eq_true, List.any_eq_false]
    intro a hm
    simp [ha a hm]
  · dsimp only
    rw [h2, if_neg hn]

/-! ## AXIS_MOVE, AXIS_RESUME and AXIS_HOME (R343, R352, R355) -/

theorem bodyAxisMove_moves {h : Hdr} {c : Instr} {a profile : Nat} {g : Int} {s : State} (ha : a < 8) (hp : profile < 4)
    (ht : targetOk s a g = true) (hs : (axis s a).state = .standstill) (hm : mayMove s a (decide ((axis s a).counts ≤ g)) = true) :
    bodyAxisMove h c a profile g s = startHost h c a .host g profile s := by
  rw [bodyAxisMove, if_neg (by omega), if_neg (by simp [ht]; omega), if_neg (by simp [hs, hm])]

theorem bodyAxisResume_resumes {h : Hdr} {c : Instr} {a : Nat} {m : Move} {s : State} (ha : a < 8)
    (hr : (axis s a).retained = some m) (hs : (axis s a).state = .standstill)
    (hm : mayMove s a (decide ((axis s a).counts ≤ m.target)) = true) :
    bodyAxisResume h c a s = startHost h c a .host m.target m.profile s := by
  rw [bodyAxisResume, if_neg (by omega), hr]
  exact if_neg (by simp [hs, hm])

/-- The move of a homing sequence's search for the home switch, phase 0 before the switch is met and phase 1 after. -/
def searching (seq ph d : Nat) (cmd : Option Nat) : Move := ⟨.home seq ph d, 0, 0, cmd⟩

theorem homeSwitch_search {a seq d : Nat} {cmd : Option Nat} {s : State} (hm : (axis s a).move = some (searching seq 0 d cmd)) :
    homeSwitch a s = s ∨ homeSwitch a s = updAxis a (fun y => { y with move := some (searching seq 1 d cmd) }) s := by
  unfold homeSwitch
  extract_lets x
  have hx : x.move = some (searching seq 0 d cmd) := hm
  rw [hx]
  dsimp only [searching]
  split
  · exact Or.inr rfl
  · rw [if_neg fun k => absurd k.2.1 (by decide)]
    exact Or.inl rfl

/-- What AXIS_HOME's start leaves of its axis. -/
structure Homing (a seq : Nat) (s : State) : Prop where
  state : (axis s a).state = .moving
  homing : homing (axis s a) = true
  cmd : moveCmd (axis s a) = some seq

theorem homeSwitch_homing {a seq d : Nat} {cmd : Nat} {s : State} (hs : (axis s a).state = .moving)
    (hm : (axis s a).move = some (searching seq 0 d (some cmd))) : Homing a cmd (homeSwitch a s) := by
  rcases homeSwitch_search hm with h | h
  · rw [h]
    exact ⟨hs, by rw [homing, hm]; rfl, by rw [moveCmd, hm]; rfl⟩
  · rw [h]
    have hx := axis_updAxis_self a (fun y => { y with move := some (searching seq 1 d (some cmd)) }) s
    exact ⟨by rw [hx]; exact hs, by rw [hx]; rfl, by rw [hx]; rfl⟩

theorem homeSwitch_still {a seq d : Nat} {cmd : Option Nat} {s : State} (hm : (axis s a).move = some (searching seq 0 d cmd)) :
    StillParked s (homeSwitch a s) := by
  rcases homeSwitch_search hm with h | h
  · rw [h]
    exact StillParked.refl s
  · rw [h]
    exact StillParked.of_alike (updAxis_alike a _ s) rfl

section
variable {h : Hdr} {c : Instr} {a seq timeout : Nat} {s : State} (ha : a < 8) (ht : tripCoversAxis s a = false)
  (hs : (axis s a).state = .standstill) (hm : mayMove s a (rbit s (Reg.MOT_A_HOMECFG a) 0) = true)
  (h1 : seq = 1 → rbit s (Reg.MOT_A_CFG a) 13 = true)
include ha ht hs hm h1

theorem bodyAxisHome_at_position (h3 : seq = 3) : bodyAxisHome h c a seq timeout s =
    ok h (posRes (axis (setHome a 3 (dropRetained a s)) a)) (setHome a 3 (dropRetained a s)) := by
  rw [bodyAxisHome, if_neg (by omega), if_neg (by omega), ht, if_neg Bool.false_ne_true, if_neg (by simp [hs, hm]; omega), if_pos h3]

theorem bodyAxisHome_homes (h3 : seq ≤ 2) : ∃ d, bodyAxisHome h c a seq timeout s =
    homeSwitch a (startHost h c a (.home seq 0 d) 0 0 s) := by
  rw [bodyAxisHome, if_neg (by omega), if_neg (by omega), ht, if_neg Bool.false_ne_true, if_neg (by simp [hs, hm]; exact h1),
    if_neg (by omega)]
  exact ⟨_, rfl⟩

end

/-- The position becomes HOME_POS, and the axis is homed. -/
structure HomeSet (a : Nat) (p : Int) (s t : State) : Prop where
  homed : (axis t a).homed = true
  counts : (axis t a).counts = p
  retained : (axis t a).retained = (axis s a).retained

theorem counts_of_pos {x : Axis} {p : Int} (h : x.pos = p * 2 ^ 32) : x.counts = p := by
  rw [Axis.counts, h, divF, Int.mul_fdiv_cancel _ (by decide)]

theorem setHome_sets (a seq : Nat) (s : State) : HomeSet a (pos48 s (Reg.MOT_A_HOME_POS a)) s (setHome a seq s) := by
  unfold setHome
  extract_lets p s1
  rw [show HomeSet a p s (raiseIrq (pgMot a) 6 (event 0x5103 none (le 1 a ++ le 4 seq ++ le 8 (unsigned 64 p)) s1)) ↔ HomeSet a p s s1 from
    ⟨fun ⟨h1, h2, h3⟩ => ⟨by simpa using h1, by simpa using h2, by simpa using h3⟩,
      fun ⟨h1, h2, h3⟩ => ⟨by simpa using h1, by simpa using h2, by simpa using h3⟩⟩]
  unfold s1 fixReference
  constructor
  · simp
  · simp only [axis_updAxis_self]
    exact counts_of_pos rfl
  · simp

theorem setHome_alike (a seq : Nat) (s : State) : RingsAlike s (setHome a seq s) := by
  unfold setHome
  extract_lets p s1
  have h1 : RingsAlike s s1 := RingsAlike.of_rings rfl
  exact h1.trans (raised_alike s1)

theorem dropRetained_alike (a : Nat) (s : State) : RingsAlike s (dropRetained a s) := RingsAlike.of_rings rfl

theorem pos48_dropRetained (a : Nat) (s : State) : pos48 (dropRetained a s) (Reg.MOT_A_HOME_POS a) = pos48 s (Reg.MOT_A_HOME_POS a) := by
  have hne : ∀ k, k = Reg.MOT_A_HOME_POS a ∨ k = Reg.MOT_A_HOME_POS a + 4 → rn (dropRetained a s) k = rn s k := by
    intro k hk
    refine rn_wn64_ne _ _ ?_ ?_ <;> simp only [Reg.MOT_A_HOME_POS, Reg.MOT_A_REMAIN] at hk ⊢ <;> omega
  rw [pos48, rn64, hne _ (Or.inl rfl), hne _ (Or.inr rfl)]
  rfl

/-! ## MOT_A_FAULT (R358) -/

/-- One bit of a write of MOT_A_FAULT: a condition still present keeps its bit and is refused. -/
def clearFault (a : Nat) (v : Word) (s : State) (b : Nat) : State :=
  if v.toNat / 2 ^ b % 2 = 1 ∧ rbit s (Reg.MOT_A_FAULT a) b = true then
    (if faultPresent s a b then recordErr (pgMot a) 0x41 (wf (Reg.MOT_A_FAULT a) 8 8 1 s) else wf (Reg.MOT_A_FAULT a) b b 0 s)
  else s

theorem motFaultClear_eq (a : Nat) (v : Word) (s : State) : motFaultClear a v s =
    (List.range 5).foldl (clearFault a v) (if v.toNat / 256 % 2 = 1 then wf (Reg.MOT_A_FAULT a) 8 8 0 s else s) := rfl

/-- What the conditions of an axis's faults are read from. -/
structure FaultAlike (a : Nat) (s t : State) : Prop where
  axis : axis t a = axis s a
  regs : ∀ k, k ≠ Reg.MOT_A_FAULT a → rd t k = rd s k

theorem FaultAlike.trans {a : Nat} {s t u : State} (h : FaultAlike a s t) (k : FaultAlike a t u) : FaultAlike a s u :=
  ⟨k.axis.trans h.axis, fun n hn => (k.regs n hn).trans (h.regs n hn)⟩

theorem FaultAlike.present {a : Nat} {s t : State} (h : FaultAlike a s t) (b : Nat) : faultPresent t a b = faultPresent s a b := by
  have h2 : rf t (Reg.MOT_A_CUR2 a) 31 16 = rf s (Reg.MOT_A_CUR2 a) 31 16 :=
    rf_congr (h.regs _ (by simp only [Reg.MOT_A_CUR2, Reg.MOT_A_FAULT]; omega)) _ _
  have h3 : rbit t (Reg.MOT_A_HOMECFG a) 2 = rbit s (Reg.MOT_A_HOMECFG a) 2 :=
    rbit_congr (h.regs _ (by simp only [Reg.MOT_A_HOMECFG, Reg.MOT_A_FAULT]; omega)) _
  simp only [faultPresent, limitActive, h.axis, h2, h3]

theorem wf_faultAlike (a hi lo v : Nat) (s : State) : FaultAlike a s (wf (Reg.MOT_A_FAULT a) hi lo v s) :=
  ⟨rfl, fun _ hk => rd_wf_ne _ _ _ _ hk⟩

theorem axis_recordErr (n c : Nat) (s : State) (a : Nat) : axis (recordErr n c s) a = axis s a :=
  axis_congr ((recordErr_keeps' n c s).only .mot (by simp)) a

theorem clearFault_alike (a : Nat) (v : Word) (s : State) (b : Nat) : FaultAlike a s (clearFault a v s b) := by
  unfold clearFault
  split
  · split
    · exact (wf_faultAlike a 8 8 1 s).trans ⟨axis_recordErr _ _ _ _, fun k _ => rd_recordErr _ _ _ k⟩
    · exact wf_faultAlike a b b 0 s
  · exact ⟨rfl, fun _ _ => rfl⟩

theorem clearFault_ne (a : Nat) (v : Word) (s : State) {b c : Nat} (hb : b < 5) (hc : c < 5) (hne : c ≠ b) :
    rbit (clearFault a v s b) (Reg.MOT_A_FAULT a) c = rbit s (Reg.MOT_A_FAULT a) c := by
  unfold clearFault
  split
  · split
    · rw [rbit_congr (rd_recordErr _ _ _ _), rbit_wf_other _ _ _ (by omega) (by omega)]
    · rw [rbit_wf_other _ _ _ (by omega) (by omega)]
  · rfl

theorem clearFault_self (a : Nat) (v : Word) (s : State) {b : Nat} (hb : b < 5) : rbit (clearFault a v s b) (Reg.MOT_A_FAULT a) b =
    (rbit s (Reg.MOT_A_FAULT a) b && (!v.getLsbD b || faultPresent s a b)) := by
  rw [clearFault, ← bitOf_eq]
  by_cases hv : v.toNat / 2 ^ b % 2 = 1
  · cases hs : rbit s (Reg.MOT_A_FAULT a) b
    · rw [if_neg (by simp), hs]
      rfl
    · rw [if_pos ⟨hv, rfl⟩]
      cases hp : faultPresent s a b
      · rw [if_neg Bool.false_ne_true, rbit_wf_self _ _ _ _ (by omega)]
        simp [hv]
      · rw [if_pos rfl, rbit_congr (rd_recordErr _ _ _ _), rbit_wf_other _ _ _ (by omega) (by omega), hs]
        simp
  · rw [if_neg (by simp [hv])]
    simp [hv]

theorem motFaultClear_bit (a : Nat) (v : Word) (s : State) {b : Nat} (hb : b < 5) :
    rbit (motFaultClear a v s) (Reg.MOT_A_FAULT a) b = (rbit s (Reg.MOT_A_FAULT a) b && (!v.getLsbD b || faultPresent s a b)) := by
  rw [motFaultClear_eq]
  have h0 : ∀ u, (u = wf (Reg.MOT_A_FAULT a) 8 8 0 s ∨ u = s) → FaultAlike a s u ∧
      rbit u (Reg.MOT_A_FAULT a) b = rbit s (Reg.MOT_A_FAULT a) b := by
    rintro u (rfl | rfl)
    · exact ⟨wf_faultAlike a 8 8 0 s, rbit_wf_other _ _ _ (by omega) (by omega)⟩
    · exact ⟨⟨rfl, fun _ _ => rfl⟩, rfl⟩
  generalize hu : (if v.toNat / 256 % 2 = 1 then wf (Reg.MOT_A_FAULT a) 8 8 0 s else s) = u
  obtain ⟨halike, hbit⟩ := h0 u (by rw [← hu]; split <;> simp)
  rw [← hbit]
  refine foldl_value (I := FaultAlike a s) (val := fun t => rbit t (Reg.MOT_A_FAULT a) b)
    (g := fun x => x && (!v.getLsbD b || faultPresent s a b)) (List.mem_range.mpr hb) halike (fun x => by rw [Bool.and_assoc, Bool.and_self])
    (fun t c _ h => h.trans (clearFault_alike a v t c)) (fun t h => ?_) fun t c hc hne => ?_
  · rw [clearFault_self a v t hb, h.present]
  · exact clearFault_ne a v t (List.mem_range.mp hc) hb (Ne.symm hne)

/-- Settles O29: each command through its body, in the state its taking leaves, and the write of MOT_A_FAULT bit by bit. -/
theorem axisCommandsRun : Obligations.AxisCommandsRun := by
  refine ⟨?config, ?enable, ?move, ?stop, ?resume, ?home, ?query, ?fault⟩
  case config =>
    intro d a handle x s ha ha8 hx hf hc hd hl hr hm hp
    have hbody : bodyAxisConfig (hdrOf d s) (.axisConfig d a handle) a.toNat handle.toNat (taken d s) =
        ok (hdrOf d s) 0 (applyImage a.toNat x.bytes (taken d s)) := by
      rw [bodyAxisConfig, if_neg (by omega)]
      exact (withStream_taken hx hf hc rfl).trans (axisConfig_applies (s := taken d s) hd hl hr hm hp)
    refine admitted_next ha rfl (streamObjs_nil rfl _ _) (bodyAxisConfig_keeps _ _ _ _ _ (by decide) ((taken_only d s).mono (by decide))) ?_
    rw [hbody]
    have hk : Keeps [.reg .motA] (taken d s) (applyImage a.toNat x.bytes (taken d s)) := applyImage_keeps _ _ _ (fun _ q => q) (Keeps.refl _ _)
    refine ⟨complete_only 0 0 hk (by decide), fun r hr ho => ?_⟩
    have hkind : keyKind (pgMot a.toNat * 0x1000 + r.off) ≠ .stk := by
      rw [keyKind_pgMot _ (configOffsets_lt _ (configOffsets_row r hr ho).2.1)]
      decide
    exact (complete_rd _ _ _ _ hkind).trans (applyImage_reads hr ho a.toNat x.bytes (taken d s))
  case enable =>
    intro d mask action s ha h1 hrun
    refine admitted_next ha rfl rfl (bodyAxisEnable_keeps _ _ _ _ _ (by decide) ((taken_only d s).mono (by decide))) ⟨fun h => ?_, fun h a hm => ?_⟩
    · obtain ⟨hr, ht, hw, hmay⟩ := hrun h
      rw [bodyAxisEnable_enables (s := taken d s) h hr ht hw hmay]
      have hal : RingsAlike (taken d s) ((toEnable (taken d s) (maskBits 8 mask.toNat)).foldl
          (fun t a => enqueue a (hdrOf d s).seq t) (taken d s)) :=
        RingsAlike.foldl (fun t a => enqueue_alike a _ t) _ _
      refine ⟨parkAccepted_accepted _ _ _ ((hal.field Ring.ci (fun _ => rfl) _).trans (taken_ci d s)), fun a hm => ?_⟩
      exact enqueueAll_enabling hm (hdrOf d s).seq (taken d s)
    · rw [bodyAxisEnable_disables h, axis_ok]
      obtain ⟨hs, hmv, hv⟩ := disableAll_off hm (taken d s)
      exact ⟨hs, hmv, hv⟩
  case move =>
    intro d a profile target s ha ha8 hp ht hs hm
    refine admitted_next ha rfl rfl (bodyAxisMove_keeps _ _ _ _ _ _ (by decide) ((taken_only d s).mono (by decide))) ?_
    rw [bodyAxisMove_moves (s := taken d s) ha8 hp ht hs hm]
    refine ⟨startHost_accepted _ _ _ _ _, ?_, ?_, ?_, fun b hb => ?_⟩
    · rw [startHost_axis, if_pos rfl]
    · rw [startHost_axis, if_pos rfl]
      rfl
    · rw [startHost_axis, if_pos rfl]
    · rw [startHost_axis, if_neg hb, axis_taken]
  case stop =>
    intro d mask mode s ha hm hn hmv
    refine admitted_next ha rfl rfl (bodyAxisStop_keeps _ _ _ _ _ (by decide) ((taken_only d s).mono (by decide))) ?_
    rw [bodyAxisStop_stops (s := taken d s) hm hn hmv]
    have hal : RingsAlike (taken d s) ((maskBits 8 mask.toNat).foldl (fun t a => stopAxis a mode.toNat t) (taken d s)) :=
      RingsAlike.foldl (fun t a => stopAxis_alike a _ t) _ _
    refine ⟨parkAccepted_accepted _ _ _ ((hal.field Ring.ci (fun _ => rfl) _).trans (taken_ci d s)), fun a hmem => ?_⟩
    exact stopAll_stops (s := taken d s) hmem (hmv a hmem)
  case resume =>
    intro d a m s ha ha8 hr hs hm
    refine admitted_next ha rfl rfl (bodyAxisResume_keeps _ _ _ _ (by decide) ((taken_only d s).mono (by decide))) ?_
    rw [bodyAxisResume_resumes (s := taken d s) ha8 hr hs hm]
    refine ⟨startHost_accepted _ _ _ _ _, ?_, ?_, ?_, fun b hb => ?_⟩
    · rw [startHost_axis, if_pos rfl]
    · rw [startHost_axis, if_pos rfl]
      rfl
    · rw [startHost_axis, if_pos rfl]
    · rw [startHost_axis, if_neg hb, axis_taken]
  case home =>
    intro d a seq timeout s ha ha8 hq ht hs hm h1
    refine admitted_next ha rfl rfl (bodyAxisHome_keeps _ _ _ _ _ _ (by decide) ((taken_only d s).mono (by decide))) ⟨fun h => ?_, fun h => ?_⟩
    · obtain ⟨t, hbody⟩ := bodyAxisHome_homes (h := hdrOf d s) (c := .axisHome d a seq timeout) (timeout := timeout.toNat) (s := taken d s)
        ha8 ht hs hm h1 h
      rw [hbody]
      have hx := startHost_axis (hdrOf d s) (.axisHome d a seq timeout) a.toNat (.home seq.toNat 0 t) 0 0 (taken d s) a.toNat
      rw [if_pos rfl] at hx
      obtain ⟨hstate, hhome, hcmd⟩ := homeSwitch_homing (seq := seq.toNat) (d := t) (cmd := (hdrOf d s).seq) (congrArg Axis.state hx)
        (congrArg Axis.move hx)
      refine ⟨?_, hstate, hhome, hcmd⟩
      exact Accepted.after (startHost_accepted (d := d) (s := s) _ _ _ _ _) (homeSwitch_still (congrArg Axis.move hx))
    · rw [bodyAxisHome_at_position (s := taken d s) ha8 ht hs hm h1 h]
      obtain ⟨hhomed, hcounts, hret⟩ := setHome_sets a.toNat 3 (dropRetained a.toNat (taken d s))
      have hpos : pos48 (dropRetained a.toNat (taken d s)) (Reg.MOT_A_HOME_POS a.toNat) = pos48 s (Reg.MOT_A_HOME_POS a.toNat) := by
        rw [pos48_dropRetained]
        rfl
      rw [hpos] at hcounts
      rw [dropRetained_axis, if_pos rfl] at hret
      refine ⟨?_, by rwa [axis_ok], by rwa [axis_ok], by rwa [axis_ok]⟩
      rw [posRes, hcounts]
      have hk : Keeps [.mot, .msix, .out, .reg .motA, .reg .stk, .rings, .stk] (taken d s) (setHome a.toNat 3 (dropRetained a.toNat (taken d s))) :=
        setHome_keeps _ _ _ (by decide) (dropRetained_keeps _ _ (by decide) (Keeps.refl _ _))
      exact complete_kept 0 _ ((dropRetained_alike _ _).trans (setHome_alike _ _ _)) hk (by decide)
  case query =>
    intro d a s ha ha8
    refine admitted_next ha rfl rfl (bodyAxisQuery_keeps _ _ _ (by decide) ((taken_only d s).mono (by decide))) ?_
    rw [bodyAxisQuery, if_neg (by omega)]
    exact taken_completed d _ s
  case fault =>
    intro ini a v s hw hr
    refine next_at (execMotFaultClear_keeps ini a v s) (by decide) (congrArg Host.Outcome.next (guardWrite_writable hw hr _)) ⟨?_, ?_⟩
    · intro b hb hv hp
      rw [motFaultClear_bit a.val v s hb, hv, hp]
      simp
    · intro b hb h
      rw [motFaultClear_bit a.val v s hb]
      rcases h with h | h <;> simp [h]

end Sys2Proof.Machine
end

section
/-! SUPPORT. The proofs of what head power does (O15). -/

namespace Sys2Proof.Machine
open Sys2Proof

/-! ## SEGMENT_LOAD (R137, R543) -/

/-- The segment table and the charges a stream brings. -/
def loadSegments (bs : List Byte) (s : State) : State :=
  { s with pwr := { s.pwr with
    segments := (List.range 16).map fun g => (g, leAt bs (16 + 16 * g) 8),
    charges := (List.range 64).map fun k => (k, leAt bs (272 + 4 * k) 2) } }

theorem loadSegments_keeps (bs : List Byte) (s : State) : Keeps [.pwr] s (loadSegments bs s) :=
  Keeps.set_pwr (by decide) (Keeps.refl _ s)

theorem segmentLoad_loads {h : Hdr} {x : Stream} {s : State} (hg : segmentGood x.bytes = true)
    (hm : ∀ k < 64, (port s k).pwren = true → segmentOf (loadSegments x.bytes s) k = segmentOf s k) :
    segmentLoad h x s = ok h 0 (loadSegments x.bytes s) := by
  unfold segmentLoad
  dsimp only
  refine (if_neg (by simp [hg])).trans (if_neg ?_)
  rw [Bool.not_eq_true, List.any_eq_false]
  intro k hk hb
  rw [Bool.and_eq_true, decide_eq_true_eq] at hb
  exact hb.2 (hm k (List.mem_range.mp hk) hb.1).symm

/-! ## A head switched off -/

theorem foldl_tallyClose_keeps (l : List Nat) (s : State) : Keeps [.crk] s (l.foldl (fun t i => tallyClose i t) s) :=
  foldl_holds (I := fun t => Keeps [.crk] s t) l (Keeps.refl _ s) fun t i _ h => tallyClose_keeps i t (fun _ q => q) h

theorem headOff_port (h g : Nat) (s : State) : port (headOff h s) g =
    if g = h then { port s h with pwren := false, pg := false, pgSeen := false } else port s g := by
  have h1 : port (headOff h s) g = port (updPort h (fun x => { x with pwren := false, pg := false, pgSeen := false }) s) g := by
    unfold headOff
    dsimp only
    split
    · exact port_congr ((foldl_tallyClose_keeps _ _).only .ports (by decide)) g
    · rfl
  rw [h1]
  split
  next e => rw [e, port_updPort_self]
  next e => exact port_updPort_ne _ _ e

theorem headOff_only (h : Nat) (s : State) : Keeps [.crk, .ports] s (headOff h s) := headOff_keeps h s (fun _ q => q) (Keeps.refl _ s)

theorem headsOff_only (l : List Nat) (s : State) : Keeps [.crk, .ports] s (l.foldl (fun t k => headOff k t) s) :=
  foldl_holds (I := fun t => Keeps [.crk, .ports] s t) l (Keeps.refl _ s) fun t i _ h => headOff_keeps i t (fun _ q => q) h

theorem headsOff_pwren {l : List Nat} {k : Nat} (hk : k ∈ l) (s : State) : (port (l.foldl (fun t k => headOff k t) s) k).pwren = false := by
  refine foldl_reaches (I := fun _ => True) (P := fun t => (port t k).pwren = false) hk trivial (fun _ _ _ _ => trivial) (fun t _ => ?_)
    fun t b _ hne _ hP => ?_
  · rw [headOff_port, if_pos rfl]
  · rwa [headOff_port, if_neg (Ne.symm hne)]

/-! ## HEAD_POWER (R138, R544, R545) -/

/-- The queued enables of heads leave the queue. -/
def unqueueHeads (hs : List Nat) (s : State) : State :=
  { s with pwr := { s.pwr with queue := s.pwr.queue.filter fun q => !hs.contains q.head } }

/-- The heads named are off and no longer queued. -/
def powerDown (hs : List Nat) (s : State) : State := hs.foldl (fun t k => headOff k t) (unqueueHeads hs s)

theorem powerDown_only (hs : List Nat) (s : State) : Keeps [.crk, .ports, .pwr] s (powerDown hs s) :=
  have h1 : Keeps [.crk, .ports, .pwr] s (unqueueHeads hs s) := Keeps.set_pwr (by decide) (Keeps.refl _ s)
  foldl_holds (I := fun t => Keeps [.crk, .ports, .pwr] s t) hs h1 fun t i _ h => headOff_keeps i t (by decide) h

theorem powerDown_queue (hs : List Nat) (s : State) :
    (powerDown hs s).pwr.queue = s.pwr.queue.filter fun q => !hs.contains q.head :=
  congrArg Power.queue ((headsOff_only hs (unqueueHeads hs s)).only .pwr (by decide))

theorem poweredMask_congr {s t : State} (h : t.ports = s.ports) : poweredMask t = poweredMask s := by
  simp only [poweredMask, port_congr h]

theorem bodyHeadPower_off {h : Hdr} {c : Instr} {mask action : Nat} {s : State} (h0 : action = 0)
    (he : ∀ k ∈ maskBits 64 mask, headEnabled s k = true) : bodyHeadPower h c mask action s =
      ok h (res 16 (poweredMask (powerDown (maskBits 64 mask) s))) (powerDown (maskBits 64 mask) s) := by
  unfold bodyHeadPower
  refine (if_neg (by omega)).trans ((if_neg ?_).trans (if_pos h0))
  rw [Bool.not_eq_true, List.any_eq_false]
  exact fun k hk => by simp [he k hk]

/-- The checks of HEAD_POWER action 1 that a head named must pass. -/
def MayPower (s : State) (k : Nat) : Prop :=
  headEnabled s k = true ∧ (segmentOf s k).isSome ∧ (segmentOf s k).any (tripCoversSegment s) = false ∧
    charge s k ≤ rf s Reg.PWR_INRUSH_BUDGET 15 0 ∧ tallyForbids s k = false

/-- The heads named that are not powered and good. -/
def dueHeads (s : State) (hs : List Nat) : List Nat := hs.filter fun k => !((port s k).pwren && (port s k).pg)

theorem dueHeads_nil {s : State} {hs : List Nat} : dueHeads s hs = [] ↔ ∀ k ∈ hs, (port s k).pwren = true ∧ (port s k).pg = true := by
  simp [dueHeads, List.filter_eq_nil_iff]

/-- What HEAD_POWER action 1 does in RUN. -/
def powerUp (h : Hdr) (c : Instr) (hs : List Nat) (s : State) : State :=
  if dueHeads s hs = [] then ok h (res 16 (poweredMask s)) s
  else parkAccepted h c (hs.map objHead) ((dueHeads s hs).map keyHead) (queueHeads (some h.seq) hs s)

theorem bodyHeadPower_on {h : Hdr} {c : Instr} {mask action : Nat} {s : State} (h1 : action = 1)
    (hm : ∀ k ∈ maskBits 64 mask, MayPower s k) :
    bodyHeadPower h c mask action s = wake h c ((maskBits 64 mask).map objHead) (powerUp h c (maskBits 64 mask)) s := by
  unfold bodyHeadPower
  refine (if_neg (by omega)).trans ((if_neg ?_).trans ((if_neg (by omega)).trans ((if_neg ?_).trans ((if_neg ?_).trans
    ((if_neg ?_).trans (if_neg ?_))))))
  all_goals
    rw [Bool.not_eq_true, List.any_eq_false]
    intro k hk
    obtain ⟨hen, hseg, htrip, hch, htly⟩ := hm k hk
  · simp [hen]
  · simpa [Option.isSome_iff_ne_none] using hseg
  · simp [htrip]
  · simpa using hch
  · simp [htly]

theorem queueHeads_queued {hs : List Nat} {k : Nat} (hk : k ∈ hs) {cmd : Option Nat} {s : State} (hp : (port s k).pwren = false) :
    ∃ q ∈ (queueHeads cmd hs s).pwr.queue, q.head = k := by
  unfold queueHeads
  by_cases hq : ∃ q ∈ s.pwr.queue, q.head = k
  · obtain ⟨q, hm, he⟩ := hq
    exact ⟨q, List.mem_append_left _ hm, he⟩
  · refine ⟨⟨k, cmd⟩, List.mem_append_right _ (List.mem_map.mpr ⟨k, List.mem_filter.mpr ⟨hk, ?_⟩, rfl⟩), rfl⟩
    simpa [hp] using hq

theorem parkWaiting_waits {d : Desc} {s u : State} (c : Instr) (objs waits : List Nat) (hci : (ring u d.ring.val).ci = (hdrOf d s).ci) :
    Waits d c objs waits s (parkWaiting (hdrOf d s) c objs waits u) :=
  ⟨hci, _, List.mem_append_right _ (List.mem_singleton.mpr rfl), rfl, rfl, rfl, rfl, rfl⟩

/-- A wake command waits for RUN and starts the exit (R538). -/
theorem wake_waits {d : Desc} {c : Instr} {objs : List Nat} {k : State → State} {s : State}
    (h : ¬(s.pwr.state = .run ∧ s.pwr.toward = none)) :
    Waits d c objs [keyRun] s (wake (hdrOf d s) c objs k (taken d s)) ∧
      (s.pwr.toward = none → (wake (hdrOf d s) c objs k (taken d s)).pwr.toward = some .run) := by
  rw [wake, if_neg (show ¬((taken d s).pwr.state = .run ∧ (taken d s).pwr.toward = none) from h)]
  refine ⟨parkWaiting_waits _ _ _ ?_, fun ht => ?_⟩
  · rw [ring_congr (startExit_rings _ _)]
    exact taken_ci d s
  · show (startExit 2 (taken d s)).pwr.toward = _
    rw [startExit, show (taken d s).pwr.toward = none from ht]

/-! ## HEAD_ENABLE_ADMIT (R544, R545) -/

/-- The enable of a head is raised. -/
def raiseEnable (q : HeadEnable) (rest : List HeadEnable) (s : State) : State :=
  updPort q.head (fun x => { x with pwren := true, powerAt := now s, pg := false, pgSeen := false })
    { s with pwr := { s.pwr with
      queue := rest, lastAdmit := some (now s), raised := tput s.pwr.raised q.head q.cmd,
      admits := (now s, charge s q.head) :: s.pwr.admits.filter fun x => decide (now s < x.1 + ms) } }

theorem dropUnsegmented_front {q : HeadEnable} {rest : List HeadEnable} {s : State} (hq : s.pwr.queue = q :: rest)
    (hs : (segmentOf s q.head).isSome) : dropUnsegmented s = s := by
  have h1 : ¬(segmentOf s q.head).isNone = true := by simpa [Option.isSome_iff_ne_none] using hs
  have h2 : s.pwr.queue.dropWhile (fun q => (segmentOf s q.head).isNone) = s.pwr.queue := by
    rw [hq]
    exact List.dropWhile_cons_of_neg h1
  rw [dropUnsegmented, h2]

theorem enableAdmit1_raises {t : Nat} {q : HeadEnable} {rest : List HeadEnable} {s u : State} (hu : u = advanceTo t s)
    (hq : u.pwr.queue = q :: rest) (hst : u.pwr.state = .run ∨ u.pwr.state = .idle) (hseg : (segmentOf u q.head).isSome)
    (hcov : (segmentOf u q.head).any (tripCoversSegment u) = false)
    (hgap : ∀ v, u.pwr.lastAdmit = some v → v + rf u Reg.PWR_MIN_GAP 15 0 * us ≤ now u)
    (hwin : winCharge u (now u) + charge u q.head ≤ rf u Reg.PWR_INRUSH_BUDGET 15 0) :
    enableAdmit1 t s = raiseEnable q rest u := by
  unfold enableAdmit1
  rw [← hu, dropUnsegmented_front hq hseg]
  dsimp only
  rw [hq]
  dsimp only
  refine if_pos ⟨hst, hcov, ?_, hwin⟩
  split
  next v hv => exact decide_eq_true (hgap v hv)
  next => rfl

/-! ## HEAD_POWER_DONE and HEAD_POWER_TIMEOUT (R138, R539) -/

theorem completeDone_completes {q : Parked} {kind : Instr → Bool} {result : State → Nat} {s : State} (hf : findParked s q.h.seq = some q)
    (hk : kind q.cmd = true) (ha : q.accepted = true) (hw : q.waits = []) :
    completeDone q.h.seq kind result s = complete q.h 0 (result s) s := by
  rw [completeDone, hf]
  exact if_pos (by rw [hk, ha, decide_eq_true hw]; rfl)

theorem enablesOf_congr {s t : State} (hp : t.pwr = s.pwr) (hq : t.ports = s.ports) (cmd : Option Nat) :
    enablesOf t cmd = enablesOf s cmd := by
  simp only [enablesOf, hp, port_congr hq]

/-- The heads left by a timeout are switched off, where they are powered. -/
def switchOff (l : List Nat) (s : State) : State := l.foldl (fun t h => if (port t h).pwren then headOff h t else t) s

theorem switchOff_only (l : List Nat) (s : State) : Keeps [.crk, .ports] s (switchOff l s) :=
  foldl_holds (I := fun t => Keeps [.crk, .ports] s t) l (Keeps.refl _ s) fun t i _ h =>
    Keeps.ite (fun _ => headOff_keeps i t (fun _ q => q) h) fun _ => h

theorem switchOff_pwren {l : List Nat} {h : Nat} (hh : h ∈ l) (s : State) : (port (switchOff l s) h).pwren = false := by
  refine foldl_reaches (I := fun _ => True) (P := fun t => (port t h).pwren = false) hh trivial (fun _ _ _ _ => trivial) (fun t _ => ?_)
    fun t b _ hne _ hP => ?_
  · split
    next => rw [headOff_port, if_pos rfl]
    next hp => exact Bool.eq_false_iff.mpr hp
  · split
    · rwa [headOff_port, if_neg (Ne.symm hne)]
    · exact hP

/-- What a timeout leaves: nothing of the enables it withdraws, one more in its counter, and the rings alike. -/
structure EnablesTimedOut (cmd : Option Nat) (s t : State) : Prop where
  off : ∀ h ∈ enablesOf s cmd, (port t h).pwren = false
  queue : ∀ e ∈ t.pwr.queue, e.cmd ≠ cmd
  count : rn t Reg.PWR_WAKE_TO_CNT = min 0xFFFFFFFF (rn s Reg.PWR_WAKE_TO_CNT + 1)
  rings : RingsAlike s t
  keeps : Keeps [.crk, .msix, .out, .ports, .pwr, .reg .pwr, .reg .stk, .rings, .stk] s t

theorem wakeTimeout_times (cmd : Option Nat) (s : State) : EnablesTimedOut cmd s (wakeTimeout cmd s) := by
  have hoff := switchOff_only (enablesOf s cmd) s
  have hkind : keyKind Reg.PWR_WAKE_TO_CNT ≠ .stk := by decide
  have hports : (wakeTimeout cmd s).ports = (switchOff (enablesOf s cmd) s).ports := by
    unfold wakeTimeout
    exact (raised_keeps _).only .ports (by decide)
  have hpwr : (wakeTimeout cmd s).pwr = (withdrawCmd cmd (switchOff (enablesOf s cmd) s)).pwr := by
    unfold wakeTimeout
    exact (raised_keeps _).only .pwr (by decide)
  refine ⟨fun h hh => ?_, fun e he => ?_, ?_, ?_, wakeTimeout_keeps cmd s (fun _ q => q) (Keeps.refl _ s)⟩
  · rw [port_congr hports]
    exact switchOff_pwren hh s
  · rw [hpwr] at he
    simpa using (List.mem_filter.mp he).2
  · have h1 : rn (withdrawCmd cmd (switchOff (enablesOf s cmd) s)) Reg.PWR_WAKE_TO_CNT = rn s Reg.PWR_WAKE_TO_CNT :=
      rn_congr (hoff.rd (by decide))
    rw [← h1, ← rn_inc_self]
    unfold wakeTimeout
    exact rn_congr ((rd_raiseIrq _ _ _ _).trans (rd_event hkind))
  · have h1 : RingsAlike s (inc Reg.PWR_WAKE_TO_CNT 1 (withdrawCmd cmd (switchOff (enablesOf s cmd) s))) :=
      (RingsAlike.of_keeps hoff (by decide)).trans (RingsAlike.of_rings rfl)
    exact h1.trans (raised_alike _)

/-- A command that ends by a timeout. -/
theorem EnablesTimedOut.completes {cmd : Option Nat} {h : Hdr} {s u v : State} (ht : EnablesTimedOut cmd s u) (hv : Keeps [.pwr] u v) (status r : Nat) :
    Finished h status r s (complete h status r v) ∧ (∀ g ∈ enablesOf s cmd, (port (complete h status r v) g).pwren = false) ∧
      rn (complete h status r v) Reg.PWR_WAKE_TO_CNT = min 0xFFFFFFFF (rn s Reg.PWR_WAKE_TO_CNT + 1) := by
  obtain ⟨hoff, -, hcount, hrings, hkeeps⟩ := ht
  have hk : Keeps [.crk, .msix, .out, .ports, .pwr, .reg .pwr, .reg .stk, .rings, .stk] s v := hkeeps.trans (hv.mono (by decide))
  refine ⟨finish_kept status r (hrings.trans (RingsAlike.of_keeps hv (by decide))) hk (by decide), fun g hg => ?_, ?_⟩
  · rw [port_congr ((complete_ports h status r v).trans (hv.only .ports (by decide)))]
    exact hoff g hg
  · rw [← hcount]
    exact rn_congr ((complete_rd h status r v (by decide)).trans (hv.rd (by decide)))

theorem enablesOf_advance (t : Nat) (s : State) (cmd : Option Nat) : enablesOf (advanceTo t s) cmd = enablesOf s cmd :=
  enablesOf_congr (advance_pwr t s) (advance_ports t s) cmd

theorem wakeCount_advance (t : Nat) (s : State) : rn (advanceTo t s) Reg.PWR_WAKE_TO_CNT = rn s Reg.PWR_WAKE_TO_CNT :=
  rn_congr (advance_rd t s (by decide))

theorem findParked_advance (t : Nat) (s : State) (seq : Nat) : findParked (advanceTo t s) seq = findParked s seq := by
  rw [findParked, findParked, advance_fw]

theorem powerTimeout_headPower {q : Parked} {d : Desc} {mask : DWord} {action : BitVec 8} {timeout : Word} {t : Nat} {s : State}
    (hf : findParked s q.h.seq = some q) (hc : q.cmd = .headPower d mask action timeout) (ha : q.accepted = true) (hw : q.waits ≠ [])
    (hl : q.since + powerLimit timeout ≤ now (advanceTo t s)) : powerTimeout q.h.seq t s =
      complete q.h 0x0503 (res 16 (poweredMask (wakeTimeout (some q.h.seq) (advanceTo t s)))) (wakeTimeout (some q.h.seq) (advanceTo t s)) := by
  unfold powerTimeout
  dsimp only
  rw [findParked_advance, hf]
  dsimp only
  rw [hc]
  exact if_pos (by simp [ha, hw, hl])

/-- An exit has no head left to bring up. -/
def endExit (s : State) : State := { s with pwr := { s.pwr with exitHeads := [] } }

theorem powerTimeout_powerState {q : Parked} {d : Desc} {target : BitVec 8} {t : Nat} {s : State}
    (hf : findParked s q.h.seq = some q) (hc : q.cmd = .powerState d target) (ha : q.accepted = true) (hw : keyExit ∉ q.waits)
    (hp : exitPending s ≠ []) (hl : s.pwr.exitAt + 1000 * ms ≤ now (advanceTo t s)) : powerTimeout q.h.seq t s =
      complete q.h 0x0503 0 (endExit (wakeTimeout none (advanceTo t s))) := by
  have hp' : exitPending (advanceTo t s) ≠ [] := by
    rwa [exitPending, advance_pwr, List.filter_congr fun h _ => by rw [port_advance]]
  unfold powerTimeout
  dsimp only
  rw [findParked_advance, hf]
  dsimp only
  rw [hc]
  refine if_pos ?_
  simp [ha, hw, hp', hl]

/-- Settles O15: each command through its body in the state its taking leaves, and each event from the state time has brought. -/
theorem headPowerRuns : Obligations.HeadPowerRuns := by
  refine ⟨?load, ?off, ?on, ?waits, ?raise, ?done, ?timeout, ?exitTimeout⟩
  case load =>
    intro d handle x s ha hx hf hc hg hm
    refine admitted_next ha rfl (streamObjs_nil rfl _ _) (bodySegmentLoad_keeps _ _ _ _ (by decide) ((taken_only d s).mono (by decide))) ?_
    have hbody : bodySegmentLoad (hdrOf d s) (.segmentLoad d handle) handle.toNat (taken d s) =
        ok (hdrOf d s) 0 (loadSegments x.bytes (taken d s)) :=
      (withStream_taken hx hf hc rfl).trans (segmentLoad_loads hg fun k hk hp => hm k hk hp (loadSegments x.bytes (taken d s)) rfl)
    rw [hbody]
    exact ⟨complete_only 0 0 (loadSegments_keeps _ _) (by decide), complete_pwr _ _ _ _⟩
  case off =>
    intro d mask timeout s ha he
    refine admitted_next ha rfl rfl (bodyHeadPower_keeps _ _ _ _ _ (by decide) ((taken_only d s).mono (by decide))) ?_
    rw [bodyHeadPower_off (action := (0 : BitVec 8).toNat) (s := taken d s) rfl he]
    have hports := complete_ports (hdrOf d s) 0 (res 16 (poweredMask (powerDown (maskBits 64 mask.toNat) (taken d s))))
      (powerDown (maskBits 64 mask.toNat) (taken d s))
    refine ⟨?_, fun k hk => ⟨?_, fun q hq => ?_⟩⟩
    · rw [show poweredMask (ok _ _ _) = _ from poweredMask_congr hports]
      exact complete_only 0 _ (powerDown_only _ _) (by decide)
    · rw [show port (ok _ _ _) k = _ from port_congr hports k]
      exact headsOff_pwren hk _
    · rw [show (ok _ _ _).pwr = _ from complete_pwr _ _ _ _, powerDown_queue] at hq
      rintro rfl
      simp [hk] at hq
  case on =>
    intro d mask timeout s ha hm hr ht
    refine admitted_next ha rfl rfl (bodyHeadPower_keeps _ _ _ _ _ (by decide) ((taken_only d s).mono (by decide))) ?_
    rw [bodyHeadPower_on (action := (1 : BitVec 8).toNat) (s := taken d s) rfl hm, wake_run (s := taken d s) hr ht, powerUp]
    by_cases hdue : ∀ k ∈ maskBits 64 mask.toNat, (port s k).pwren = true ∧ (port s k).pg = true
    · rw [if_pos hdue, if_pos (dueHeads_nil (s := taken d s).mpr hdue)]
      exact taken_completed d _ s
    · rw [if_neg hdue, if_neg fun h => hdue (dueHeads_nil (s := taken d s).mp h)]
      exact ⟨parkAccepted_accepted _ _ _ (taken_ci d s), fun k hk hp => queueHeads_queued (s := taken d s) hk hp⟩
  case waits =>
    intro d mask timeout s ha hm hr
    refine admitted_next ha rfl rfl (bodyHeadPower_keeps _ _ _ _ _ (by decide) ((taken_only d s).mono (by decide))) ?_
    rw [bodyHeadPower_on (action := (1 : BitVec 8).toNat) (s := taken d s) rfl hm]
    exact wake_waits hr
  case raise =>
    intro at_ q rest s u hu hq hst hseg hcov hgap hwin
    refine next_at (execHeadEnableAdmit_keeps at_ s) (by decide)
      (congrArg Host.Outcome.next (enableAdmit1_raises hu hq hst hseg hcov hgap hwin)) ?_
    unfold raiseEnable
    rw [port_updPort_self]
    exact ⟨rfl, rfl, rfl, rfl, rfl, List.mem_cons_self⟩
  case done =>
    intro q s hf ha hw
    refine ⟨?_, ?_⟩
    · rintro ⟨d, mask, action, timeout, hc⟩
      refine next_at (t0 := complete q.h 0 (res 16 (poweredMask s)) s) (execHeadPowerDone_keeps q.h.seq s) (by decide)
        (congrArg Host.Outcome.next ?_) (complete_finished_only 0 _ (Keeps.refl [] s) (by decide))
      rw [hf]
      dsimp only
      rw [hc]
      exact completeDone_completes hf rfl ha hw
    · rintro ⟨d, target, hc⟩
      refine next_at (t0 := complete q.h 0 0 s) (execHeadPowerDone_keeps q.h.seq s) (by decide)
        (congrArg Host.Outcome.next ?_) (complete_finished_only 0 _ (Keeps.refl [] s) (by decide))
      rw [hf]
      dsimp only
      rw [hc]
      exact completeDone_completes hf rfl ha hw
  case timeout =>
    intro q d mask action timeout at_ s u hu hf hc ha hw hl
    subst hu
    refine next_at (execHeadPowerTimeout_keeps q.h.seq at_ s) (by decide)
      (congrArg Host.Outcome.next (powerTimeout_headPower hf hc ha hw hl)) ?_
    have ht := wakeTimeout_times (some q.h.seq) (advanceTo at_.toNat s)
    obtain ⟨h1, h2, h3⟩ := ht.completes (h := q.h) (Keeps.refl [.pwr] _) 0x0503
      (res 16 (poweredMask (wakeTimeout (some q.h.seq) (advanceTo at_.toNat s))))
    rw [enablesOf_advance] at h2
    rw [wakeCount_advance] at h3
    refine ⟨?_, h2, fun e he => ?_, h3⟩
    · rwa [poweredMask_congr (complete_ports _ _ _ _)]
    · rw [complete_pwr] at he
      exact ht.queue e he
  case exitTimeout =>
    intro q d target at_ s u hu hf hc ha hp hl hw
    subst hu
    have hl' : s.pwr.exitAt + 1000 * ms ≤ now (advanceTo at_.toNat s) := hl
    refine next_at (execHeadPowerTimeout_keeps q.h.seq at_ s) (by decide)
      (congrArg Host.Outcome.next (powerTimeout_powerState hf hc ha hw hp hl')) ?_
    have ht := wakeTimeout_times none (advanceTo at_.toNat s)
    obtain ⟨h1, h2, h3⟩ := ht.completes (h := q.h) (v := endExit (wakeTimeout none (advanceTo at_.toNat s)))
      (Keeps.set_pwr (by decide) (Keeps.refl [.pwr] _)) 0x0503 0
    rw [enablesOf_advance] at h2
    rw [wakeCount_advance] at h3
    refine ⟨h1, h2, ?_, h3⟩
    rw [complete_pwr]
    rfl

end Sys2Proof.Machine
end

section
/-! SUPPORT. The proofs of what the inspection commands do (O32). -/

namespace Sys2Proof.Machine
open Sys2Proof

/-! ## Camera ports -/

theorem cam_updCam_self (k : Nat) (f : CamPort → CamPort) (s : State) : cam (updCam k f s) k = f (cam s k) := by simp [cam, updCam]

theorem cam_updCam_ne {j k : Nat} (f : CamPort → CamPort) (s : State) (h : j ≠ k) : cam (updCam k f s) j = cam s j := by
  simp [cam, updCam, tget_tput_ne _ _ _ h]

theorem cam_congr {s t : State} (h : t.ipl = s.ipl) (k : Nat) : cam t k = cam s k := by rw [cam, cam, h]

theorem camRunning_congr {s t : State} (h : t.ipl = s.ipl) (k : Nat) : camRunning t k = camRunning s k := by
  rw [camRunning, camRunning, cam_congr h]

/-- What writing a port does to the run of any port. -/
theorem camRunning_updCam {k j : Nat} {f : CamPort → CamPort} {s : State} (h : (f (cam s k)).state = (cam s k).state) :
    camRunning (updCam k f s) j = camRunning s j := by
  unfold camRunning
  by_cases e : j = k
  · rw [e, cam_updCam_self, h]
  · rw [cam_updCam_ne _ _ e]

theorem setCam_state (k : Nat) (st : CamState) (cause : Nat) (s : State) (j : Nat) :
    (cam (setCam k st cause s) j).state = if j = k then st else (cam s j).state := by
  unfold setCam
  dsimp only
  by_cases h : (cam s k).state = st
  · rw [if_pos h]
    by_cases e : j = k
    · rw [if_pos e, e, h]
    · rw [if_neg e]
  · rw [if_neg h, cam_congr ((raised_keeps _).only .ipl (by simp))]
    by_cases e : j = k
    · rw [if_pos e, e, cam_updCam_self]
    · rw [if_neg e, cam_updCam_ne _ _ e]

theorem setCam_running (k : Nat) (st : CamState) (cause : Nat) (s : State) (j : Nat) :
    camRunning (setCam k st cause s) j = if j = k then decide (st ≠ .off) else camRunning s j := by
  unfold camRunning
  rw [setCam_state]
  split <;> rfl

theorem setCam_alike (k : Nat) (st : CamState) (cause : Nat) (s : State) : RingsAlike s (setCam k st cause s) := by
  unfold setCam
  dsimp only
  split
  · exact RingsAlike.refl s
  · refine RingsAlike.trans ?_ (raised_alike _)
    exact RingsAlike.of_rings rfl

/-! ## Winnow and Glean at a port's start and stop -/

theorem closeWindow_alike (p : Nat) (s : State) : RingsAlike s (closeWindow p s) := by
  unfold closeWindow
  split
  · extract_lets w s1 s2
    have h1 : RingsAlike s s1 := RingsAlike.of_rings rfl
    have h2 : RingsAlike s s2 := h1.trans (raised_alike s1)
    clear_value s2
    split
    · exact h2.trans (RingsAlike.of_rings rfl)
    · exact h2.trans (RingsAlike.of_rings rfl)
  · exact RingsAlike.refl s

theorem ruleCopy_alike (c : Nat) (s : State) : RingsAlike s (ruleCopy c s) := fun m => by
  unfold ruleCopy
  split
  · split
    · exact (ring_sealCopy_field (fun r => { r with gap := Ring.init.gap }) (fun _ _ => rfl) c m _).trans rfl
    · rfl
  · rfl

theorem verdict_alike (c : Nat) (uninsp : Bool) (s : State) : RingsAlike s (verdict c uninsp s) := by
  unfold verdict
  split
  · split
    · refine RingsAlike.trans (RingsAlike.trans ?_ (ruleCopy_alike c _)) (RingsAlike.of_rings rfl)
      cases uninsp <;> exact RingsAlike.of_rings rfl
    · exact RingsAlike.refl s
  · exact RingsAlike.refl s

theorem tryRule_alike (c : Nat) (s : State) : RingsAlike s (tryRule c s) := by
  unfold tryRule
  split
  · split
    · refine RingsAlike.trans ?_ (verdict_alike c _ _)
      split
      · exact RingsAlike.of_rings rfl
      · exact RingsAlike.refl s
    · exact RingsAlike.refl s
  · exact RingsAlike.refl s

theorem tryRules_alike (s : State) : RingsAlike s (tryRules s) := RingsAlike.foldl (fun t c => tryRule_alike c t) _ s

/-! ## A camera port's page applies (R375, R379) -/

theorem pageOf_pgIpl {k : Nat} (hk : k < 4) : pageOf (pgIpl k) = some (.iplP, k) := by
  have : ∀ i < 4, pageOf (0x131 + i % 4) = some (.iplP, i) := by decide
  exact this k hk

theorem splitPage_pgIpl {k : Nat} (hk : k < 4) : splitPage (pgIpl k) = none := by rw [splitPage, pageOf_pgIpl hk]

theorem pagePlane_pgIpl {k : Nat} (hk : k < 4) (s : State) : pagePlane s (pgIpl k) = none := by rw [pagePlane, pageOf_pgIpl hk]

theorem pageIdle_pgIpl {k : Nat} (hk : k < 4) (s : State) :
    pageIdle s (pgIpl k) = (!camRunning s k || decide ((plane s (camPlane s k)).state = .stopped)) := by
  have h3 : pageSrc (pgIpl k) = 3 := by rw [pageSrc, pageOf_pgIpl hk]; rfl
  rw [pageIdle, h3, pageOf_pgIpl hk]
  rfl

theorem iplAddr (k : Nat) {off : Nat} (h : off < 0x1000) : keyAddr (pgIpl k * 0x1000 + off) / 0x1000 = pgIpl k := by
  have : k % 4 < 4 := Nat.mod_lt _ (by decide)
  simp only [keyAddr, pgIpl]
  omega

theorem keyKind_iplAddr (k : Nat) {off : Nat} (h : off < 0x1000) : keyKind (pgIpl k * 0x1000 + off) = .iplP := by
  rw [keyKind, iplAddr k h, pageKind_pgIpl]

/-- A page's registers once its shadow is active (R49). -/
def shadowActive (n : Nat) (s : State) : State :=
  { s with regs := { s.regs with
    act := tmerge (tfilter s.regs.shd (onPage n)) s.regs.act
    shd := tmerge (tfilter [] (onPage n)) (tfilter s.regs.shd fun k => !onPage n k) } }

theorem rd_shadowActive {n k : Nat} (h : onPage n k = true) (s : State) : rd (shadowActive n s) k = rdShadow s k := by
  simp only [rd, rdShadow, shadowActive, tfind_tfilter, tfind_tmerge, h]
  cases tfind s.regs.shd k <;> rfl

theorem rdShadow_shadowActive (n k : Nat) (s : State) : rdShadow (shadowActive n s) k = rdShadow s k := by
  simp only [rdShadow, rd, shadowActive, tfind_tfilter, tfind_tmerge]
  cases onPage n k <;> cases tfind s.regs.shd k <;> rfl

/-- The commit of a page, up to the commands that wait for it. -/
def pageCommitted (n : Nat) (s : State) : State :=
  let p := getPage s n
  acceptEvent (blockId (pageKind n) * 256 + 1) false true none (le 2 n ++ le 2 (p.latchCnt + 1).toNat ++ le 4 noSlot)
    (raiseIrq n 0 (putPage n { p with pending := false, latchCnt := p.latchCnt + 1 } (shadowActive n s)))

theorem pageCommitted_keeps (n : Nat) (s : State) : Keeps [.reg (pageKind n), .msix, .out, .reg .stk, .rings, .stk] s (pageCommitted n s) :=
  acceptEvent_keeps _ _ _ _ _ _ (by simp) (raiseIrq_keeps _ _ _ (by simp)
    (putPage_keeps _ _ _ (by simp) (commitPage_regs n _ _ (by simp) (Keeps.refl _ s))))

theorem pageCommitted_alike (n : Nat) (s : State) : RingsAlike s (pageCommitted n s) := fun m =>
  (ring_acceptEvent_field (fun r => { r with gap := Ring.init.gap }) (fun _ _ => rfl) _ _ _ _ _ m _).trans
    (raiseIrq_alike n 0 (putPage n _ (shadowActive n s)) m)

theorem pageCommitted_rd {n k : Nat} (h : onPage n k = true) (hk : keyKind k ≠ .stk) (s : State) : rd (pageCommitted n s) k = rdShadow s k := by
  rw [pageCommitted, (acceptEvent_keeps _ _ _ _ _ _ (fun _ q => q) (Keeps.refl _ _)).rd (by simpa using hk), rd_raiseIrq, rd_putPage,
    rd_shadowActive h]

theorem pageCommitted_shadow {k : Nat} (n : Nat) (hk : keyKind k = .iplP) (s : State) : rdShadow (pageCommitted n s) k = rdShadow s k := by
  have h1 : k ≠ Reg.TIL_SPLIT_CNT := by rintro rfl; exact absurd hk (by decide)
  have h2 : ∀ p, k ≠ Reg.KLN_P_DEFER_CNT p := by rintro p rfl; simp at hk
  have h3 : keyKind k ≠ .stk := by rw [hk]; decide
  refine (acceptEvent_shadows _ _ _ _ _ _ k h1 h2 h3).trans ((raiseIrq_shadows _ _ _ k h1 h2 h3).trans ?_)
  exact rdShadow_shadowActive n k s

/-- The knots and the table that wait for a port's page come into force. -/
def takeShading (k : Nat) (s : State) : State :=
  updCam k (fun g => { g with
    knots := g.pendKnots.getD g.knots, table := g.pendTable.getD g.table, pendKnots := none, pendTable := none }) s

/-- CAMERA_CONFIG. -/
def isCameraConfig : Instr → Bool
  | .cameraConfig .. => true
  | _ => false

/-- The CAMERA_CONFIG commands that wait for no page any more. -/
def configsDue (s : State) : List Parked := s.fw.parked.filter fun q => q.accepted && q.pages.isEmpty && isCameraConfig q.cmd

theorem camApplied_pgIpl {k : Nat} (hk : k < 4) (s : State) :
    camApplied (pgIpl k) s = (configsDue s).foldl (fun t q => complete q.h 0 0 t) (takeShading k s) := by
  unfold camApplied
  rw [pageOf_pgIpl hk]
  rfl

/-- A port's page applies whole at an idle latch. -/
def iplApplied (k : Nat) (s : State) : State := camApplied (pgIpl k) (noteLatch (pgIpl k) noSlot (pageCommitted (pgIpl k) s))

theorem idleLatch_pgIpl {k : Nat} (hk : k < 4) (s : State) : idleLatch (pgIpl k) s =
    if pageIdle s (pgIpl k) && ((getPage s (pgIpl k)).pending && !(getPage s (pgIpl k)).hold && !(getPage s (pgIpl k)).cmdHold) then
      iplApplied k s else s := by
  have ha : pageArmed s (pgIpl k) = false := by rw [pageArmed, pagePlane_pgIpl hk]
  have hs : ∀ b u, splitMoved (pgIpl k) b u = u := fun b u => by rw [splitMoved, splitPage_pgIpl hk]
  have hc : applyPage (pgIpl k) noSlot s =
      if (getPage s (pgIpl k)).pending && !(getPage s (pgIpl k)).hold && !(getPage s (pgIpl k)).cmdHold then iplApplied k s else s := by
    unfold applyPage commitPage
    dsimp only
    rw [hs]
    rfl
  rw [idleLatch, ha, hc]
  cases pageIdle s (pgIpl k) <;> rfl

/-- What the CAMERA_CONFIG commands that complete leave of camera ports and their registers. -/
theorem iplApplied_reads {k : Nat} (hk : k < 4) (s : State) :
    (∀ j, cam (iplApplied k s) j = cam (takeShading k s) j) ∧
      ∀ a, keyKind a = .iplP → rd (iplApplied k s) a = rd (pageCommitted (pgIpl k) s) a ∧ rdShadow (iplApplied k s) a = rdShadow s a := by
  rw [iplApplied, camApplied_pgIpl hk]
  have hc : cam (pageCommitted (pgIpl k) s) = cam s := funext fun j => cam_congr ((pageCommitted_keeps _ s).only .ipl (by simp)) j
  refine foldl_holds (I := fun t => (∀ j, cam t j = cam (takeShading k s) j) ∧ ∀ a, keyKind a = .iplP →
    rd t a = rd (pageCommitted (pgIpl k) s) a ∧ rdShadow t a = rdShadow s a) _ ⟨fun j => ?_, fun a ha => ⟨rfl, pageCommitted_shadow _ ha s⟩⟩
    fun t q _ ⟨h1, h2⟩ => ⟨fun j => (cam_congr (complete_ipl _ _ _ _) j).trans (h1 j), fun a ha => ?_⟩
  · have hn : cam (noteLatch (pgIpl k) noSlot (pageCommitted (pgIpl k) s)) = cam s := hc
    by_cases hj : j = k
    · rw [hj, takeShading, takeShading, cam_updCam_self, cam_updCam_self, hn]
    · rw [takeShading, takeShading, cam_updCam_ne _ _ hj, cam_updCam_ne _ _ hj, hn]
  · have h3 : keyKind a ≠ .stk := by rw [ha]; decide
    exact ⟨(complete_rd _ _ _ _ h3).trans (h2 a ha).1, (complete_rdShadow _ _ _ _ h3).trans (h2 a ha).2⟩

/-! ## CAMERA_CONFIG (R379) -/

theorem cmdShadow_holds (k : Nat) (v : Word) (s : State) : HoldsAlike s (cmdShadow k v s) := by
  refine HoldsAlike.trans (t := wrShadow k v (notePage (keyAddr k / 0x1000) s)) ?_ (HoldsAlike.put rfl rfl)
  exact (notePage_holds _ s).trans (HoldsAlike.of_pages rfl)

theorem cmdShadow_pending (k : Nat) (v : Word) (s : State) : (getPage (cmdShadow k v s) (keyAddr k / 0x1000)).pending = true := by
  unfold cmdShadow
  rw [getPage_updPage_self]

/-- A knot table of a stream. -/
def streamKnots (bs : List Byte) : List (Nat × Nat) :=
  (List.range (bits 6 0 (camWord bs 7))).map fun i => (leAt bs (128 + 8 * i) 4, leAt bs (132 + 8 * i) 4)

/-- An image's words are written to the port's shadow. -/
def writeImage (k : Nat) (bs : List Byte) (s : State) : State :=
  (List.range 13).foldl (fun t i => cmdShadowN (pgIpl k * 0x1000 + 0x100 + 4 * i) (camWord bs i) t) s

/-- A shading table comes with the stream, or none does. -/
def shadowTable (bs : List Byte) (g : CamPort) : Option (List Nat) :=
  if bs.length = 640 then g.pendTable else some ((List.range ((bs.length - 640) / 4)).map fun i => leAt bs (640 + 4 * i) 4)

/-- The knots and the table of a stream wait for the port's page. -/
def pendShading (bs : List Byte) (g : CamPort) : CamPort :=
  { g with pendKnots := some (streamKnots bs), pendTable := shadowTable bs g, configured := true }

theorem camWrite_eq (k : Nat) (bs : List Byte) (s : State) : camWrite k bs s = updCam k (pendShading bs) (writeImage k bs s) := rfl

theorem writeImage_shadow (k : Nat) (bs : List Byte) (s : State) {i : Nat} (hi : i < 13) :
    rdShadow (writeImage k bs s) (pgIpl k * 0x1000 + 0x100 + 4 * i) = BitVec.ofNat 32 (camWord bs i) := by
  refine foldl_reaches (I := fun _ => True)
    (P := fun t => rdShadow t (pgIpl k * 0x1000 + 0x100 + 4 * i) = BitVec.ofNat 32 (camWord bs i)) (List.mem_range.mpr hi) trivial
    (fun _ _ _ _ => trivial) (fun t _ => rdShadow_cmdShadow _ _ t) fun t b _ hb _ hP => ?_
  exact (rdShadow_cmdShadow_ne _ t (by omega)).trans hP

theorem writeImage_pending (k : Nat) (bs : List Byte) (s : State) : (getPage (writeImage k bs s) (pgIpl k)).pending = true := by
  have hp : ∀ t i, i < 13 → (getPage (cmdShadowN (pgIpl k * 0x1000 + 0x100 + 4 * i) (camWord bs i) t) (pgIpl k)).pending = true := by
    intro t i hi
    have ha : keyAddr (pgIpl k * 0x1000 + 0x100 + 4 * i) / 0x1000 = pgIpl k := by
      rw [Nat.add_assoc]
      exact iplAddr k (by omega)
    have := cmdShadow_pending (pgIpl k * 0x1000 + 0x100 + 4 * i) (BitVec.ofNat 32 (camWord bs i)) t
    rwa [ha] at this
  exact foldl_reaches (I := fun _ => True) (P := fun t => (getPage t (pgIpl k)).pending = true) (List.mem_range.mpr (by decide : 0 < 13))
    trivial (fun _ _ _ _ => trivial) (fun t _ => hp t 0 (by decide)) fun t b hb _ _ _ => hp t b (List.mem_range.mp hb)

theorem writeImage_holds (k : Nat) (bs : List Byte) (s : State) : HoldsAlike s (writeImage k bs s) :=
  foldl_holds (I := fun t => HoldsAlike s t) _ (HoldsAlike.of_pages rfl) fun t _ _ h => h.trans (cmdShadow_holds _ _ t)

theorem writeImage_rd (k : Nat) (bs : List Byte) (s : State) (a : Nat) : rd (writeImage k bs s) a = rd s a :=
  foldl_holds (I := fun t => rd t a = rd s a) _ rfl fun t i _ h => Eq.trans (by
    simp only [rd, cmdShadowN, cmdShadow, updPage, putPage, wrShadow, notePage_regs]) h

theorem writeImage_keeps (k : Nat) (bs : List Byte) (s : State) : Keeps [.reg .iplP] s (writeImage k bs s) :=
  foldl_holds (I := fun t => Keeps [.reg .iplP] s t) _ (Keeps.refl _ s) fun t i hi h => cmdShadowN_keeps _ _ t (by
    rw [Nat.add_assoc, keyKind_iplAddr k (by have := List.mem_range.mp hi; omega)]
    exact fun _ q => q) h

/-- What writing a stream to a port's shadow leaves. -/
structure ImageWritten (k : Nat) (bs : List Byte) (s t : State) : Prop where
  shadow : ∀ i < 13, rdShadow t (pgIpl k * 0x1000 + 0x100 + 4 * i) = BitVec.ofNat 32 (camWord bs i)
  knots : (cam t k).pendKnots = some (streamKnots bs)
  configured : (cam t k).configured = true
  pending : (getPage t (pgIpl k)).pending = true
  hold : (getPage t (pgIpl k)).hold = (getPage s (pgIpl k)).hold
  cmdHold : (getPage t (pgIpl k)).cmdHold = (getPage s (pgIpl k)).cmdHold
  idle : pageIdle t (pgIpl k) = pageIdle s (pgIpl k)

theorem camWrite_written {k : Nat} (hk : k < 4) (bs : List Byte) (s : State) : ImageWritten k bs s (camWrite k bs s) := by
  have hkeep := writeImage_keeps k bs s
  rw [camWrite_eq]
  generalize hu : writeImage k bs s = u
  have hshadow : ∀ i < 13, rdShadow u (pgIpl k * 0x1000 + 0x100 + 4 * i) = BitVec.ofNat 32 (camWord bs i) := fun i hi =>
    hu ▸ writeImage_shadow k bs s hi
  have hpend : (getPage u (pgIpl k)).pending = true := hu ▸ writeImage_pending k bs s
  have hholds : HoldsAlike s u := hu ▸ writeImage_holds k bs s
  have hrd : rd u (Reg.IPL_C_FRAME k) = rd s (Reg.IPL_C_FRAME k) := hu ▸ writeImage_rd k bs s _
  rw [hu] at hkeep
  have h1 : camRunning (updCam k (pendShading bs) u) k = camRunning s k :=
    (camRunning_updCam rfl).trans (camRunning_congr (hkeep.only .ipl (by decide)) k)
  have h2 : ∀ p, plane (updCam k (pendShading bs) u) p = plane s p :=
    plane_congr (s := s) (t := updCam k (pendShading bs) u) (hkeep.only .kln (by decide))
  have h3 : camPlane (updCam k (pendShading bs) u) k = camPlane s k := rf_congr hrd 3 0
  refine ⟨hshadow, by rw [cam_updCam_self]; rfl, by rw [cam_updCam_self]; rfl, hpend, (hholds _).1, (hholds _).2, ?_⟩
  rw [pageIdle_pgIpl hk, pageIdle_pgIpl hk, h1, h2, h3]

/-- CAMERA_CONFIG in the table, its stream written. -/
def configWritten (h : Hdr) (c : Instr) (k : Nat) (bs : List Byte) (s : State) : State :=
  park { Parked.of s h c true with objs := [objPort k], pages := [pgIpl k] } (camWrite k bs s)

theorem ImageWritten.park {k : Nat} {bs : List Byte} {s t : State} (h : ImageWritten k bs s t) (p : Parked) :
    ImageWritten k bs s (park p t) := by
  obtain ⟨hshadow, hknots, hconf, hpend, hhold, hcmd, hidle⟩ := h
  exact ⟨hshadow, hknots, hconf, hpend, hhold, hcmd, hidle⟩

theorem configWritten_written {k : Nat} (hk : k < 4) (h : Hdr) (c : Instr) (bs : List Byte) (s : State) :
    ImageWritten k bs s (configWritten h c k bs s) := (camWrite_written hk bs s).park _

theorem configWritten_only (h : Hdr) (c : Instr) (k : Nat) (bs : List Byte) (s : State) :
    Keeps [.fw, .ipl, .reg .iplP] s (configWritten h c k bs s) :=
  park_keeps _ _ (by decide) (camWrite_keeps k bs s (by decide) (Keeps.refl _ s))

/-- The table with a CAMERA_CONFIG that waits for its page. -/
theorem configWritten_fw (h : Hdr) (c : Instr) (k : Nat) (bs : List Byte) (s : State) :
    (configWritten h c k bs s).fw.held = s.fw.held ∧ (configWritten h c k bs s).fw.parked =
      (s.fw.parked.filter fun q => q.h.seq ≠ h.seq) ++ [{ Parked.of s h c true with objs := [objPort k], pages := [pgIpl k] }] := by
  have hw : (camWrite k bs s).fw = s.fw := (camWrite_keeps k bs s (fun _ q => q) (Keeps.refl _ s)).only .fw (by decide)
  unfold configWritten
  generalize camWrite k bs s = u at hw
  rw [← hw]
  exact ⟨rfl, rfl⟩

theorem cameraConfig_eq {h : Hdr} {c : Instr} {k : Nat} {x : Stream} {s : State} (hk : k < 4) (hok : camConfigOk s k x.bytes = true) :
    cameraConfig h c k x s = if pageIdle s (pgIpl k) && !(getPage s (pgIpl k)).hold && !(getPage s (pgIpl k)).cmdHold then
      iplApplied k (configWritten h c k x.bytes s) else configWritten h c k x.bytes s := by
  obtain ⟨-, -, -, hpend, hhold, hcmd, hidle⟩ := configWritten_written hk h c x.bytes s
  unfold cameraConfig
  refine (if_neg (by simp [hok])).trans ((idleLatch_pgIpl hk (configWritten h c k x.bytes s)).trans ?_)
  rw [hidle, hpend, hhold, hcmd, Bool.true_and, Bool.and_assoc]

/-- What a port's page in force shows of a stream. -/
structure ImageApplied (k : Nat) (bs : List Byte) (t : State) : Prop where
  shadow : ∀ i < 13, rdShadow t (pgIpl k * 0x1000 + 0x100 + 4 * i) = BitVec.ofNat 32 (camWord bs i)
  active : ∀ i < 13, rd t (pgIpl k * 0x1000 + 0x100 + 4 * i) = BitVec.ofNat 32 (camWord bs i)
  knots : (cam t k).knots = streamKnots bs
  configured : (cam t k).configured = true

theorem ImageWritten.applied {k : Nat} (hk : k < 4) {bs : List Byte} {s t : State} (h : ImageWritten k bs s t) :
    ImageApplied k bs (iplApplied k t) := by
  obtain ⟨hshadow, hknots, hconf, -, -, -, -⟩ := h
  obtain ⟨hcam, hregs⟩ := iplApplied_reads hk t
  have hself := (hcam k).trans (cam_updCam_self k _ t)
  have hkey : ∀ i < 13, keyKind (pgIpl k * 0x1000 + 0x100 + 4 * i) = .iplP := fun i hi => by
    rw [Nat.add_assoc]
    exact keyKind_iplAddr _ (by omega)
  refine ⟨fun i hi => (hregs _ (hkey i hi)).2.trans (hshadow i hi), fun i hi => ?_, ?_, ?_⟩
  · have hon : onPage (pgIpl k) (pgIpl k * 0x1000 + 0x100 + 4 * i) = true := by
      rw [Nat.add_assoc]
      exact decide_eq_true (iplAddr _ (by omega))
    rw [(hregs _ (hkey i hi)).1, pageCommitted_rd hon (by rw [hkey i hi]; decide), hshadow i hi]
  · rw [hself, hknots]
    rfl
  · rw [hself]
    exact hconf

/-- No CAMERA_CONFIG waits for its page. -/
def NoConfigWaits (s : State) : Prop := ∀ q ∈ s.fw.parked, q.accepted = true → ∀ e p h, q.cmd ≠ .cameraConfig e p h

theorem isCameraConfig_iff {c : Instr} : isCameraConfig c = true ↔ ∃ e p h, c = .cameraConfig e p h := by
  constructor
  · intro h
    unfold isCameraConfig at h
    split at h
    · exact ⟨_, _, _, rfl⟩
    · cases h
  · rintro ⟨e, p, h, rfl⟩
    rfl

/-- The commands of a table, none of them a CAMERA_CONFIG that waits for its page, hold none that is due. -/
theorem configsDue_nil {l : List Parked} (h : ∀ q ∈ l, q.accepted = true → ∀ e p h, q.cmd ≠ .cameraConfig e p h) :
    (l.filter fun q => q.accepted && q.pages.isEmpty && isCameraConfig q.cmd) = [] := by
  refine List.filter_eq_nil_iff.mpr fun q hq hd => ?_
  rw [Bool.and_eq_true, Bool.and_eq_true] at hd
  obtain ⟨e, p, k, hc⟩ := isCameraConfig_iff.mp hd.2
  exact h q hq hd.1.1 e p k hc

/-- A command notes a page's idle latch. -/
def notesLatch (n : Nat) (q : Parked) : Parked :=
  if q.pages.contains n then { q with pages := q.pages.filter (· ≠ n), slot := BitVec.ofNat 32 noSlot } else q

theorem noteLatch_parked (n : Nat) (s : State) : (noteLatch n noSlot s).fw.parked = s.fw.parked.map (notesLatch n) := by
  unfold noteLatch notesLatch
  simp

theorem notesLatch_cmd (n : Nat) (q : Parked) : (notesLatch n q).cmd = q.cmd ∧ (notesLatch n q).accepted = q.accepted := by
  unfold notesLatch
  split <;> exact ⟨rfl, rfl⟩

theorem notesLatch_mem {n : Nat} {l : List Parked} (h : ∀ q ∈ l, q.accepted = true → ∀ e p h, q.cmd ≠ .cameraConfig e p h) :
    ∀ q ∈ l.map (notesLatch n), q.accepted = true → ∀ e p h, q.cmd ≠ .cameraConfig e p h := by
  intro q hq
  obtain ⟨r, hr, rfl⟩ := List.mem_map.mp hq
  rw [(notesLatch_cmd n r).1, (notesLatch_cmd n r).2]
  exact h r hr

/-- Where no other CAMERA_CONFIG waits, the one whose page applies at once completes. -/
theorem iplApplied_config {h : Hdr} {d : Desc} {port : BitVec 8} {handle : Word} {k : Nat} {bs : List Byte} {s : State} (hk : k < 4)
    (hno : NoConfigWaits s) : ∃ u, iplApplied k (configWritten h (.cameraConfig d port handle) k bs s) = complete h 0 0 u ∧
      RingsAlike s u ∧ u.fw.held = s.fw.held ∧ u.clock = s.clock ∧ canIssue u = canIssue s := by
  have hkeep := configWritten_only h (.cameraConfig d port handle) k bs s
  obtain ⟨hheld, hp⟩ := configWritten_fw h (.cameraConfig d port handle) k bs s
  generalize configWritten h (.cameraConfig d port handle) k bs s = v at hkeep hheld hp
  have hck := pageCommitted_keeps (pgIpl k) v
  have hal := pageCommitted_alike (pgIpl k) v
  have hfw : (pageCommitted (pgIpl k) v).fw = v.fw := hck.only .fw (by simp)
  have hdue : configsDue (noteLatch (pgIpl k) noSlot (pageCommitted (pgIpl k) v)) =
      [{ Parked.of s h (.cameraConfig d port handle) true with objs := [objPort k], slot := BitVec.ofNat 32 noSlot }] := by
    rw [configsDue, noteLatch_parked, hfw, hp, List.map_append, List.filter_append,
      configsDue_nil (notesLatch_mem fun q hq => hno q (List.mem_filter.mp hq).1)]
    simp [notesLatch, Parked.of, isCameraConfig]
  rw [iplApplied, camApplied_pgIpl hk, hdue]
  generalize pageCommitted (pgIpl k) v = w at hck hfw hal
  refine ⟨takeShading k (noteLatch (pgIpl k) noSlot w), rfl, ?_, ?_, ?_, ?_⟩
  · exact (RingsAlike.of_keeps hkeep (by decide)).trans (hal.trans (RingsAlike.of_rings rfl))
  · exact (congrArg Firmware.held hfw).trans hheld
  · exact (hck.only .clock (by simp)).trans (hkeep.only .clock (by decide))
  · exact (canIssue_keeps hck (by simp)).trans (canIssue_keeps hkeep (by decide))

/-! ## INSPECT_CONTROL (R382, R383, R388) -/

theorem camStart_running (k : Nat) (s : State) (j : Nat) :
    camRunning (camStart k s) j = if j = k then true else camRunning s j := by
  unfold camStart
  split
  next h =>
    split
    next e => rw [e, h]
    next => rfl
  next =>
    rw [setCam_running]
    split
    next => rfl
    next e =>
      unfold camRunning
      rw [show cam (wf Reg.IPL_CTRL k k 1 (updCam k _ s)) j = _ from cam_updCam_ne _ s e]

theorem camStart_alike (k : Nat) (s : State) : RingsAlike s (camStart k s) := by
  unfold camStart
  split
  · exact RingsAlike.refl s
  · exact RingsAlike.trans (RingsAlike.of_rings rfl) (setCam_alike k .armed 0 _)

theorem takeStore_running (s : State) (j : Nat) : camRunning (takeStore s) j = camRunning s j := by
  unfold takeStore
  split
  · rfl
  · exact camRunning_congr ((refreshOldest_keeps _ (fun _ q => q) (Keeps.refl _ _)).only .ipl (by decide)) j

theorem takeStore_alike (s : State) : RingsAlike s (takeStore s) :=
  RingsAlike.of_keeps (takeStore_keeps s (fun _ q => q) (Keeps.refl _ s)) (by decide)

theorem camStarts_running {ks : List Nat} (s : State) (j : Nat) :
    camRunning (camStarts ks s) j = (decide (j ∈ ks) || camRunning s j) := by
  unfold camStarts
  split
  next h => simp [h]
  next =>
    have h1 : ∀ (l : List Nat) (t : State), camRunning (l.foldl (fun t k => camStart k t) t) j = (decide (j ∈ l) || camRunning t j) := by
      intro l
      induction l with
      | nil => simp
      | cons a l ih =>
        intro t
        rw [List.foldl_cons, ih, camStart_running]
        by_cases e : j = a <;> simp [e]
    exact (h1 ks (takeStore s)).trans (by rw [takeStore_running])

theorem camStarts_alike (ks : List Nat) (s : State) : RingsAlike s (camStarts ks s) := by
  unfold camStarts
  split
  · exact RingsAlike.refl s
  · exact ((takeStore_alike s).trans (RingsAlike.foldl (fun t k => camStart_alike k t) ks _)).trans (RingsAlike.of_rings rfl)

theorem reserveRing_taken (p : Nat) (d : Desc) (s : State) : reserveRing p (taken d s) = taken d (reserveRing p s) := by
  unfold reserveRing
  by_cases h : ((tfind s.win.rings p).isSome || (plane s p).table.isNone || !Config.ringFits (ringBytes s p)) = true
  · rw [if_pos h]
    exact if_pos h
  · rw [if_neg h]
    exact if_neg h

theorem reserveRings_taken (d : Desc) (s : State) : reserveRings (taken d s) = taken d (reserveRings s) := by
  unfold reserveRings
  refine Eq.trans ?_ (List.foldl_hom (taken d) (g₁ := fun t p => reserveRing p t) (g₂ := fun t p => reserveRing p t)
    fun t p => reserveRing_taken p d t)
  rfl

/-- The state in which the ports start: the rings are there. -/
def withRings (s : State) : State := if s.win.made then s else reserveRings s

theorem withRings_keeps (s : State) : Keeps [.win] s (withRings s) :=
  Keeps.ite (fun _ => Keeps.refl _ s) fun _ => reserveRings_keeps s (fun _ q => q) (Keeps.refl _ s)

/-- The ports of a mask run, with an in-line port. -/
def portsStarted (mask inl : Nat) (s : State) : State := wf Reg.IPL_CTRL 5 4 inl (camStarts (maskBits 4 mask) (withRings s))

theorem startedPorts {mask inl : Nat} (s : State) : RingsAlike s (portsStarted mask inl s) ∧
    Keeps [.gln, .ipl, .msix, .out, .reg .iplC, .reg .iplP, .reg .stk, .rings, .stk, .win] s (portsStarted mask inl s) ∧
    (∀ j, camRunning (portsStarted mask inl s) j = (decide (j ∈ maskBits 4 mask) || camRunning s j)) ∧
    rf (portsStarted mask inl s) Reg.IPL_CTRL 5 4 = inl % 2 ^ 2 := by
  have h1 := withRings_keeps s
  refine ⟨?_, ?_, fun j => ?_, rf_wf_self _ _ _ (by decide)⟩
  · exact (RingsAlike.of_keeps h1 (by decide)).trans ((camStarts_alike _ _).trans (RingsAlike.of_rings rfl))
  · exact wf_keeps _ _ _ _ _ (by decide) (camStarts_keeps _ _ (by decide) (h1.mono (by decide)))
  · refine (camStarts_running (withRings s) j).trans ?_
    rw [camRunning_congr (h1.only .ipl (by decide))]

theorem inspectControl_starts {h : Hdr} {mask inl action : Nat} {s : State} (hm : mask ≤ 15) (hi : inl ≤ 3) (hin : mask / 2 ^ inl % 2 = 1)
    (ha : action = 1) (hr : s.win.made = true ∨ ringsWhole (reserveRings s) = true) : inspectControl h mask inl action s =
      ok h 0 (portsStarted mask inl s) := by
  unfold inspectControl
  refine (if_neg (by omega)).trans ((if_neg (by omega)).trans ((if_neg ?_).trans rfl))
  rcases hr with hr | hr <;> simp [hr]
  intro he
  simp [he, hr]

/-- What of the firmware's commands a stop leaves: rings alike, held completions, and the commands in the table. -/
structure CommandsStand (s t : State) : Prop where
  rings : RingsAlike s t
  held : t.fw.held = s.fw.held
  commands : NoConfigWaits s → NoConfigWaits t

theorem CommandsStand.of_alike {s t : State} (h : RingsAlike s t) (k : t.fw = s.fw) : CommandsStand s t :=
  ⟨h, congrArg _ k, fun hn => by rwa [NoConfigWaits, k]⟩

theorem CommandsStand.trans {s t u : State} (h : CommandsStand s t) (k : CommandsStand t u) : CommandsStand s u :=
  ⟨h.rings.trans k.rings, k.held.trans h.held, fun hn => k.commands (h.commands hn)⟩

/-- A port's page applies, where no CAMERA_CONFIG waits for it. -/
theorem iplApplied_stands {k : Nat} (hk : k < 4) {s : State} (hno : NoConfigWaits s) : CommandsStand s (iplApplied k s) := by
  have hck := pageCommitted_keeps (pgIpl k) s
  have hfw : (pageCommitted (pgIpl k) s).fw = s.fw := hck.only .fw (by simp)
  have hp : (noteLatch (pgIpl k) noSlot (pageCommitted (pgIpl k) s)).fw.parked = s.fw.parked.map (notesLatch (pgIpl k)) := by
    rw [noteLatch_parked, hfw]
  have hal := pageCommitted_alike (pgIpl k) s
  rw [iplApplied, camApplied_pgIpl hk, configsDue, hp, configsDue_nil (notesLatch_mem hno), List.foldl_nil]
  generalize pageCommitted (pgIpl k) s = w at hfw hp hal
  refine ⟨hal.trans (RingsAlike.of_rings rfl), (show w.fw.held = s.fw.held by rw [hfw]), fun hn q hq => ?_⟩
  exact notesLatch_mem hn q (hp ▸ hq)

theorem idleLatch_ipl_stands {k : Nat} (hk : k < 4) {s : State} (hno : NoConfigWaits s) : CommandsStand s (idleLatch (pgIpl k) s) := by
  rw [idleLatch_pgIpl hk]
  split
  · exact iplApplied_stands hk hno
  · exact CommandsStand.of_alike (RingsAlike.refl s) rfl

theorem idleLatch_ipl_running {k : Nat} (hk : k < 4) (s : State) (j : Nat) : camRunning (idleLatch (pgIpl k) s) j = camRunning s j := by
  rw [idleLatch_pgIpl hk]
  split
  · have h : camRunning (iplApplied k s) j = camRunning (takeShading k s) j := by
      rw [camRunning, (iplApplied_reads hk s).1 j, camRunning]
    exact h.trans (camRunning_updCam rfl)
  · rfl

/-- The stop of a port before its page applies. -/
def stopPort (k cause : Nat) (s : State) : State :=
  let g := cam s k
  let tail := match g.frame with | some n => [CamItem.close n false] | none => []
  let s1 := setCam k .off cause (updCam k (fun g => { g with
    waiting := [], items := g.items ++ tail, frame := none, whole := false, prevReg := none }) s)
  { wf Reg.IPL_CTRL k k 0 s1 with
    ipl := { s1.ipl with slice := match s1.ipl.slice with | some (j, n) => if j = k then none else some (j, n) | none => none },
    mil := { s1.mil with job := s1.mil.job.map fun j => if j.port = k then { j with ended := true } else j } }

theorem camStop_eq (k cause : Nat) (s : State) : camStop k cause s = if !camRunning s k then s else
    tryRules (closeWindows (refreshWindows (idleLatch (pgIpl k) (stopPort k cause s)))) := rfl

theorem stopPort_running (k cause : Nat) (s : State) (j : Nat) :
    camRunning (stopPort k cause s) j = if j = k then false else camRunning s j := by
  refine (setCam_running k .off cause (updCam k _ s) j).trans ?_
  split
  · rfl
  · exact camRunning_updCam rfl

theorem stopPort_stands (k cause : Nat) (s : State) : CommandsStand s (stopPort k cause s) := by
  refine CommandsStand.of_alike ?_ ?_
  · exact RingsAlike.trans (t := updCam k _ s) (RingsAlike.of_rings rfl) ((setCam_alike k .off cause _).trans (RingsAlike.of_rings rfl))
  · exact (setCam_keeps k .off cause (updCam k _ s) (fun _ q => q) (Keeps.refl _ _)).only .fw (by decide)

theorem afterStop_keeps (s : State) : Keeps [.crk, .free, .gln, .glz, .jobs, .msix, .out, .reg .gln, .reg .stk, .reg .win, .rings, .sag,
    .stk, .thr, .win] s (tryRules (closeWindows (refreshWindows s))) :=
  tryRules_keeps _ (by decide) (closeWindows_keeps _ (by decide) (refreshWindows_keeps _ (by decide) (Keeps.refl _ s)))

theorem afterStop_alike (s : State) : RingsAlike s (tryRules (closeWindows (refreshWindows s))) :=
  RingsAlike.trans (t := refreshWindows s) (RingsAlike.of_rings rfl)
    ((RingsAlike.foldl (fun t p => closeWindow_alike p t) _ _).trans (tryRules_alike _))

theorem camStop_running {k : Nat} (hk : k < 4) (cause : Nat) (s : State) (j : Nat) :
    camRunning (camStop k cause s) j = if j = k then false else camRunning s j := by
  rw [camStop_eq]
  split
  next h =>
    split
    next e => rw [e]; simpa using h
    next => rfl
  next =>
    rw [camRunning_congr ((afterStop_keeps _).only .ipl (by decide)), idleLatch_ipl_running hk, stopPort_running]

theorem camStop_stands {k : Nat} (hk : k < 4) (cause : Nat) {s : State} (hno : NoConfigWaits s) : CommandsStand s (camStop k cause s) := by
  rw [camStop_eq]
  split
  · exact CommandsStand.of_alike (RingsAlike.refl s) rfl
  · have h1 := stopPort_stands k cause s
    refine (h1.trans (idleLatch_ipl_stands hk (h1.commands hno))).trans (CommandsStand.of_alike (afterStop_alike _) ?_)
    exact (afterStop_keeps _).only .fw (by decide)

/-- What the stop of several ports leaves. -/
theorem camStops {ks : List Nat} (hk : ∀ k ∈ ks, k < 4) {s : State} (hno : NoConfigWaits s) :
    CommandsStand s (ks.foldl (fun t k => camStop k 0 t) s) ∧
      ∀ j, camRunning (ks.foldl (fun t k => camStop k 0 t) s) j = (!decide (j ∈ ks) && camRunning s j) := by
  induction ks generalizing s with
  | nil => exact ⟨CommandsStand.of_alike (RingsAlike.refl s) rfl, fun j => by simp⟩
  | cons a l ih =>
    have h1 := camStop_stands (hk a List.mem_cons_self) 0 hno
    obtain ⟨h2, h3⟩ := ih (fun k hm => hk k (List.mem_cons_of_mem a hm)) (h1.commands hno)
    refine ⟨h1.trans h2, fun j => (h3 j).trans ?_⟩
    rw [camStop_running (hk a List.mem_cons_self)]
    by_cases e : j = a <;> simp [e]

theorem camStops_keeps (ks : List Nat) (s : State) : Keeps [.crk, .free, .fw, .gln, .glz, .ipl, .jobs, .mil, .msix, .out, .reg .gln,
    .reg .iplC, .reg .iplP, .reg .stk, .reg .tilC, .reg .win, .rings, .sag, .stk, .thr, .til, .win] s
    (ks.foldl (fun t k => camStop k 0 t) s) :=
  foldl_holds (I := fun t => Keeps _ s t) ks (Keeps.refl _ s) fun t k _ h => camStop_keeps k 0 t (fun _ q => q) h

theorem inspectControl_stops {h : Hdr} {mask inl action : Nat} {s : State} (hm : mask ≤ 15) (hi : inl ≤ 3) (hin : mask / 2 ^ inl % 2 = 1)
    (ha : action = 0) : inspectControl h mask inl action s = ok h 0 ((maskBits 4 mask).foldl (fun t k => camStop k 0 t) s) := by
  unfold inspectControl
  exact (if_neg (by omega)).trans (if_pos ha)

/-! ## DEFECT_FETCH (R394) -/

/-- No record is held any more. -/
def recordsTaken (s : State) : State := { s with win := { s.win with records := [] } }

theorem recordsTaken_keeps (s : State) : Keeps [.win] s (recordsTaken s) := Keeps.set_win (by decide) (Keeps.refl _ s)

theorem defectFetch_writes {h : Hdr} {buf len : Nat} {s : State} (hl : s.win.records.flatten.length ≤ len) :
    defectFetch h buf len s = completeWith [(buf, s.win.records.flatten)] h 0 0 (recordsTaken s) := by
  have he : s.win.records.flatMap id = s.win.records.flatten := List.flatMap_id ..
  unfold defectFetch
  dsimp only
  rw [he, if_neg (by omega), output, if_neg (by omega)]
  rfl

/-- Settles O32: each command through its body, CAMERA_CONFIG by whether its page applies at once. -/
theorem inspectionCommandsRun : Obligations.InspectionCommandsRun := by
  refine ⟨?config, ?start, ?stop, ?reprocess, ?fetch⟩
  case config =>
    intro d port handle x s ha hp hx hf hc hok
    dsimp only
    have hk : port.toNat < 4 := by omega
    refine admitted_next ha rfl (streamObjs_nil rfl _ _) (bodyCameraConfig_keeps _ _ _ _ _ (by decide) ((taken_only d s).mono (by decide))) ?_
    have hbody : bodyCameraConfig (hdrOf d s) (.cameraConfig d port handle) port.toNat handle.toNat (taken d s) =
        cameraConfig (hdrOf d s) (.cameraConfig d port handle) port.toNat x (taken d s) := by
      rw [bodyCameraConfig, if_neg (by omega)]
      exact withStream_taken hx hf hc rfl
    rw [hbody, cameraConfig_eq hk (s := taken d s) hok]
    obtain ⟨hws, hwk, hwc, -, -, -, -⟩ := configWritten_written hk (hdrOf d s) (.cameraConfig d port handle) x.bytes (taken d s)
    have hci : (ring (camWrite port.toNat x.bytes (taken d s)) d.ring.val).ci = (hdrOf d s).ci :=
      (congrArg Ring.ci (ring_congr ((camWrite_keeps port.toNat x.bytes (taken d s) (fun _ q => q) (Keeps.refl _ _)).only .rings
        (by decide)) _)).trans (taken_ci d s)
    generalize hap : (pageIdle s (pgIpl port.toNat) && !(getPage s (pgIpl port.toNat)).hold && !(getPage s (pgIpl port.toNat)).cmdHold) = b
    have happ : (pageIdle (taken d s) (pgIpl port.toNat) && !(getPage (taken d s) (pgIpl port.toNat)).hold &&
      !(getPage (taken d s) (pgIpl port.toNat)).cmdHold) = b := hap
    rw [happ]
    cases b
    · rw [if_neg Bool.false_ne_true]
      refine ⟨hws, hwc, fun h => Bool.noConfusion h, fun _ => ⟨?_, hwk⟩⟩
      exact park_accepted hci rfl rfl rfl (fun _ h => h) rfl (StillParked.refl _)
    · rw [if_pos rfl]
      obtain ⟨hshadow, hactive, hknots, hconf⟩ := (configWritten_written hk (hdrOf d s) (.cameraConfig d port handle) x.bytes (taken d s)).applied hk
      refine ⟨hshadow, hconf, fun _ hno => ⟨?_, hknots, hactive⟩, fun h => Bool.noConfusion h⟩
      obtain ⟨u, he, hr, hh, hcl, hci⟩ := iplApplied_config (h := hdrOf d s) (d := d) (port := port) (handle := handle)
        (bs := x.bytes) (s := taken d s) hk hno
      rw [he]
      exact complete_completed_alike 0 0 hr hh (by rw [stamp, stamp, hcl]; rfl) hci
  case start =>
    intro d mask inline action s ha hm hi hin h1 hr
    obtain ⟨hrings, hk, hrun, hinl⟩ := startedPorts (mask := mask.toNat) (inl := inline.toNat) (taken d s)
    have hbody := inspectControl_starts (h := hdrOf d s) (s := taken d s) hm hi hin h1
      (hr.imp id fun h => by rwa [reserveRings_taken])
    have hok : ∀ j, camRunning (ok (hdrOf d s) 0 (portsStarted mask.toNat inline.toNat (taken d s))) j = _ :=
      camRunning_congr (complete_ipl _ _ _ _)
    refine admitted_next ha rfl rfl ?_ ?_ <;> rw [hbody]
    · exact ok_keeps _ _ _ (by decide) (((taken_only d s).mono (by decide)).trans (hk.mono (by decide)))
    · refine ⟨complete_kept 0 0 hrings hk (by decide), ?_, fun k hk => ?_, fun k hk => ?_⟩
      · exact (rf_congr (complete_rd _ _ _ _ (by decide)) 5 4).trans (hinl.trans (Nat.mod_eq_of_lt (by omega)))
      · rw [hok, hrun]
        simp [hk]
      · rw [hok, hrun]
        simp [hk]
        rfl
  case stop =>
    intro d mask inline action s ha hm hi hin h0 hno
    refine admitted_next ha rfl rfl (inspectControl_keeps _ _ _ _ _ (by decide) ((taken_only d s).mono (by decide))) ?_
    rw [inspectControl_stops hm hi hin h0]
    obtain ⟨hst, hrun⟩ := camStops (ks := maskBits 4 mask.toNat) (s := taken d s) (fun k hk => lt_of_mem_maskBits hk) hno
    have hk := camStops_keeps (maskBits 4 mask.toNat) (taken d s)
    have hrun' : ∀ j, camRunning (ok (hdrOf d s) 0 ((maskBits 4 mask.toNat).foldl (fun t k => camStop k 0 t) (taken d s))) j =
        (!decide (j ∈ maskBits 4 mask.toNat) && camRunning s j) := fun j =>
      (camRunning_congr (complete_ipl _ _ _ _) j).trans (hrun j)
    refine ⟨complete_completed_alike 0 0 hst.rings hst.held (stamp_keeps (s := taken d s) hk (by decide))
      (canIssue_keeps (s := taken d s) hk (by decide)), fun k hk => ?_,
      fun k hk => ?_⟩
    · simp [hrun', hk]
    · simp [hrun', hk]
  case reprocess =>
    intro d port image s ha hx
    refine admitted_next ha rfl rfl (reprocess_keeps _ _ _ _ _ (by decide) ((taken_only d s).mono (by decide))) ?_
    obtain ⟨y, hy, hport, hnum⟩ := hx
    unfold reprocess
    have hany : (taken d s).ipl.images.any (fun x => decide (x.port = port.toNat ∧ x.num = image.toNat)) = true :=
      List.any_eq_true.mpr ⟨y, hy, decide_eq_true ⟨hport, hnum⟩⟩
    rw [if_pos hany]
    exact ⟨parkAccepted_accepted _ _ _ (taken_ci d s), rfl⟩
  case fetch =>
    intro d buf len s ha hl
    refine admitted_next ha rfl rfl (defectFetch_keeps _ _ _ _ (by decide) ((taken_only d s).mono (by decide))) ?_
    rw [defectFetch_writes (s := taken d s) hl]
    refine ⟨completeWith_only 0 0 (recordsTaken_keeps _) (by decide), ?_⟩
    exact (completeWith_keeps _ _ _ _ _ (fun _ q => q) (Keeps.refl _ _)).only .win (by decide)

end Sys2Proof.Machine
end

section
/-! SUPPORT. The proofs of what Sagger's commands do (O17). -/

namespace Sys2Proof.Machine
open Sys2Proof

/-! ## KEY_LOAD (R132, R463, R464) -/

/-- The owner of a tenant whose key is loaded. -/
def ownerTaken (t : Nat) (digest : BitVec 384) (s : State) : State :=
  if decide ((sagTenant s t).digest = some digest) then s else newOwner t digest s

theorem ownerTaken_keeps (t : Nat) (digest : BitVec 384) (s : State) : Keeps [.crk, .free, .jobs, .sag] s (ownerTaken t digest s) :=
  Keeps.ite (fun _ => Keeps.refl _ s) fun _ => newOwner_keeps t digest s (fun _ q => q) (Keeps.refl _ s)

theorem newOwner_own (t : Nat) (digest : BitVec 384) (s : State) :
    (sagTenant (newOwner t digest s) t).digest = some digest ∧ (sagTenant (newOwner t digest s) t).grantSeq = 0 := by
  unfold newOwner
  extract_lets s1 s2
  have h := persist_own t none none (updSag t (fun x => { x with
    digest := some digest, grantSeq := 0, ceiling := 0, ceilNext := none, head := 0, batch := 0, seq := 0,
    restart := match x.restart with | some c => some c | none => some 3,
    covered := 0 }) s2) t
  rw [sagTenant_updSag_self] at h
  simp only [SagTenant.own, Prod.mk.injEq] at h
  exact ⟨h.2.1, h.2.2⟩

/-- The digest a key's owner leaves, and the grant sequence of a new owner. -/
theorem ownerTaken_own (t : Nat) (digest : BitVec 384) (s : State) :
    (sagTenant (ownerTaken t digest s) t).digest = some digest ∧
      ((sagTenant s t).digest ≠ some digest → (sagTenant (ownerTaken t digest s) t).grantSeq = 0) := by
  unfold ownerTaken
  by_cases h : (sagTenant s t).digest = some digest
  · rw [if_pos (decide_eq_true h)]
    exact ⟨h, fun hn => absurd h hn⟩
  · rw [if_neg (by simpa using h)]
    exact ⟨(newOwner_own t digest s).1, fun _ => (newOwner_own t digest s).2⟩

/-- A key in its tenant's slot, before the command completes. -/
def keySlotted (t : Nat) (k : BitVec 256) (digest : BitVec 384) (s : State) : State :=
  updSag t (fun y => { y with key := some k }) (unsealDue (ownerTaken t digest s))

theorem keySlotted_keeps (t : Nat) (k : BitVec 256) (digest : BitVec 384) (s : State) :
    Keeps [.crk, .free, .jobs, .sag, .thr] s (keySlotted t k digest s) :=
  updSag_keeps _ _ _ (by decide) (unsealDue_keeps _ (by decide) ((ownerTaken_keeps t digest s).mono (by decide)))

theorem keySlotted_own (t : Nat) (k : BitVec 256) (digest : BitVec 384) (s : State) :
    (sagTenant (keySlotted t k digest s) t).own = (some k, some digest, (sagTenant (ownerTaken t digest s) t).grantSeq) := by
  have hu : sagTenant (unsealDue (ownerTaken t digest s)) t = sagTenant (ownerTaken t digest s) t :=
    sagTenant_congr (sag_of_only ((unsealDue_keeps _ (fun _ q => q) (Keeps.refl _ _)).only .fuses (by decide))
      ((unsealDue_keeps _ (fun _ q => q) (Keeps.refl _ _)).only .sag (by decide))) t
  rw [keySlotted, sagTenant_updSag_self, hu, SagTenant.own, (ownerTaken_own t digest s).1]

theorem keyLoad_loads {h : Hdr} {t : Nat} {x : Stream} {k : BitVec 256} {s : State} (hlen : relayTooLong x = false) (hl : lifecycle s ≠ 5)
    (hid : identityUsable s = true) (h1 : x.bytes.length = 272) (h2 : leAt x.bytes 0 4 = 0x574B4753) (h3 : leAt x.bytes 4 1 = 1)
    (h4 : allZero (slice x.bytes 5 8) = true) (h5 : allZero (slice x.bytes 10 16) = true) (h6 : leAt x.bytes 8 2 = t)
    (h7 : slice x.bytes 16 32 = serialBytes s) (hk : Config.unwrapKey x.bytes = some k)
    (ho : (sagTenant s t).digest = some (Config.sha384 (slice x.bytes 128 224)) ∨ tenantBusy s t = false) :
    keyLoad h t x s = refreshReady (noteReady (ok h 0 (keySlotted t k (Config.sha384 (slice x.bytes 128 224)) s))) := by
  unfold keyLoad
  dsimp only
  rw [hk]
  refine (if_neg (by simp [hlen])).trans ((if_neg hl).trans ((if_neg (by simp [hid, h1, h2, h3, h4, h5, h6, h7])).trans ?_))
  exact if_neg (by rcases ho with ho | ho <;> simp [ho])

/-- What is completed stays so while copies become ready. -/
theorem CompletedWith.refreshed {ws : List (Nat × List Byte)} {d : Desc} {status result : Nat} {s t : State}
    (h : CompletedWith ws d status result s t) : CompletedWith ws d status result s (refreshReady t) :=
  h.after_alike ((refreshReady_keeps t (fun _ q => q) (Keeps.refl _ t)).only .fw (by decide)) (refreshReady_out t) (refreshReady_alike t)

theorem noteReady_only (s : State) : Keeps [.thr] s (noteReady s) := noteReady_keeps s (fun _ q => q) (Keeps.refl _ s)

/-! ## QUOTA_GRANT (R132, R466) -/

/-- A grant applies. -/
def granted (t g seq : Nat) (s : State) : State :=
  updSag t (fun y => { y with grantSeq := seq }) (updTenant t (fun y => { y with grant := BitVec.ofNat 32 g }) s)

theorem granted_keeps (t g seq : Nat) (s : State) : Keeps [.jobs, .sag] s (granted t g seq s) :=
  updSag_keeps _ _ _ (by decide) (updTenant_keeps _ _ _ (by decide) (Keeps.refl _ s))

theorem granted_grant {t g seq : Nat} {s : State} (h : g ≤ 0xFFFFFFFF) : (tenant (granted t g seq s) t).grant.toNat = g := by
  rw [granted, show tenant (updSag t _ (updTenant t _ s)) t = _ from tenant_updTenant_self t _ s, BitVec.toNat_ofNat,
    Nat.mod_eq_of_lt (by omega)]

theorem granted_seq (t g seq : Nat) (s : State) : (sagTenant (granted t g seq s) t).grantSeq = seq := by
  rw [granted, sagTenant_updSag_self]

/-- A grant that waits for its record (R466). -/
def grantParked (h : Hdr) (c : Instr) (t amount seq : Nat) (s0 s : State) : Parked :=
  { Parked.of s h c true with objs := [objTenant t], waits := [keyStore], undo := some (amount, seq, (sagTenant s0 t).grantSeq) }

/-- What a good QUOTA_GRANT of an amount with a sequence number does. -/
def grantTaken (h : Hdr) (c : Instr) (t amount seq : Nat) (s : State) : State :=
  let g := (tenant s t).grant.toNat + amount
  if noJournal s then ok h (res 16 g) (granted t g seq s)
  else persist t (some h.seq) none (park (grantParked h c t amount seq s s) (granted t g seq s))

theorem quotaGrant_grants {h : Hdr} {c : Instr} {t : Nat} {x : Stream} {s : State} (hlen : relayTooLong x = false) (hl : lifecycle s ≠ 5)
    (hg : grantGood s t x.bytes = true) (hm : (tenant s t).grant.toNat + leAt x.bytes 16 4 ≤ 0xFFFFFFFF)
    (hj : noJournal s = true ∨ crkAccepts s = true) :
    quotaGrant h c t x s = grantTaken h c t (leAt x.bytes 16 4) (leAt x.bytes 12 4) s := by
  unfold quotaGrant
  dsimp only
  refine (if_neg (by simp [hlen])).trans ((if_neg hl).trans ((if_neg (by simp [hg])).trans ((if_neg (by omega)).trans
    ((if_neg ?_).trans rfl))))
  rcases hj with hj | hj <;> simp [hj]

theorem mem_joinQueue (j : CrkJob) (q : List CrkJob) : j ∈ joinQueue j q :=
  List.mem_append_right _ List.mem_cons_self

/-- A record that Crock takes is not done. -/
theorem persist_not_done {t seq : Nat} {batch : Option Nat} {s : State} (h : crkAccepts s = true) :
    recordsDone (persist t (some seq) batch s) seq = false := by
  unfold persist crkSubmit
  rw [if_pos h, recordsDone, Bool.not_eq_false']
  exact List.any_eq_true.mpr ⟨_, mem_joinQueue _ _, decide_eq_true rfl⟩

/-! ## RECEIPT_FETCH (R113, R143) -/

/-- The batches fetched are held no more. -/
def dropBatches (l : List Batch) (s : State) : State := l.foldl (fun t b => dropBatch b.id t) s

theorem dropBatches_keeps (l : List Batch) (s : State) : Keeps [.sag] s (dropBatches l s) :=
  foldl_holds (I := fun t => Keeps [.sag] s t) l (Keeps.refl _ s) fun t b _ h => dropBatch_keeps b.id t (fun _ q => q) h

/-- The batches a tenant's fetch may give. -/
def readyBatches (mine : List Batch) (s : State) : List Batch := mine.takeWhile fun b => b.persisted || noJournal s

theorem receiptFetch_fetches {h : Hdr} {addr len : Nat} {mine out : List Batch} {s : State}
    (hm : mine = s.sag.batches.filter fun b => decide (b.tenant = h.tenant)) (ho : out = fitBatches len (readyBatches mine s))
    (hr : readyBatches mine s = [] ∨ out ≠ []) : receiptFetch h addr len s = refreshReady (completeWith
      (if (out.flatMap (·.entries)).flatten = [] then [] else [(addr, (out.flatMap (·.entries)).flatten)]) h 0
      (res 16 (out.flatMap (·.entries)).flatten.length + res 20 (mine.length - out.length)) (dropBatches out s)) := by
  unfold receiptFetch
  dsimp only
  rw [← hm, show (mine.takeWhile fun b => b.persisted || noJournal s) = readyBatches mine s from rfl, ← ho]
  split
  next hb => exact absurd rfl (hr.resolve_left (by simp [hb]))
  next => rfl

/-! ## ATTEST (R462) -/

theorem attest_writes {h : Hdr} {addr len : Nat} {challenge : BitVec 256} {s : State} (hid : identityUsable s = true)
    (hl : (attestBody s challenge).length + 96 + Config.certChain.length ≤ len) : attest h addr len challenge s =
      completeWith [(addr, attestBody s challenge ++ le 96 (draw 768 s).1.toNat ++ Config.certChain)] h 0
        (res 16 ((attestBody s challenge).length + 96 + Config.certChain.length)) (draw 768 s).2 := by
  have hlen : (attestBody s challenge ++ le 96 (draw 768 s).1.toNat ++ Config.certChain).length =
      (attestBody s challenge).length + 96 + Config.certChain.length := by
    rw [List.length_append, List.length_append, length_le]
  unfold attest
  refine (if_neg (by simp [hid])).trans ?_
  dsimp only
  rw [hlen, output, if_neg (by rw [hlen]; omega)]

/-! ## Tokens (R459) -/

/-- The nonce is consumed. -/
def nonceGone (s : State) : State := { s with sag := { s.sag with nonce := none } }

theorem nonceGone_keeps (s : State) : Keeps [.sag] s (nonceGone s) := Keeps.set_sag rfl (by decide) (Keeps.refl _ s)

theorem tokenGood_nonce {s : State} {bs : List Byte} (h : tokenGood s bs = true) :
    ∃ n, s.sag.nonce = some n ∧ slice bs 24 56 = le 32 n.toNat := by
  unfold tokenGood at h
  rw [Bool.and_eq_true, Bool.and_eq_true] at h
  obtain ⟨⟨-, hn⟩, -⟩ := h
  split at hn
  next n he => exact ⟨n, he, of_decide_eq_true hn⟩
  next => cases hn

theorem consumeNonce_good {s : State} {bs : List Byte} (h : tokenGood s bs = true) : consumeNonce bs s = nonceGone s := by
  obtain ⟨n, hn, he⟩ := tokenGood_nonce h
  unfold consumeNonce
  rw [hn]
  exact if_pos he

/-! ## DEBUG_UNLOCK (R460, R461) -/

/-- The scopes open, and the keys go where scope 3 does. -/
def scopesOpened (scopes : Nat) (s : State) : State :=
  let s1 := { s with sag := { s.sag with scopes := s.sag.scopes ||| scopes } }
  if scopes / 8 % 2 = 1 then wipeKeys { s1 with sag := { s1.sag with signerGone := true } } else s1

theorem openScopes_eq (scopes : Nat) (g : Signer) (s : State) : openScopes scopes g s =
    raiseIrq pgSag 6 (event 0x0905 none (le 1 scopes ++ le 1 (if g = .limveast then 0 else 1)) (scopesOpened scopes s)) := rfl

theorem scopesOpened_keeps (scopes : Nat) (s : State) : Keeps [.sag] s (scopesOpened scopes s) := by
  have h1 : Keeps [.sag] s { s with sag := { s.sag with scopes := s.sag.scopes ||| scopes } } :=
    Keeps.set_sag rfl (by decide) (Keeps.refl _ s)
  exact Keeps.ite (fun _ => wipeKeys_keeps _ (fun _ q => q) (Keeps.set_sag rfl (by decide) h1)) fun _ => h1

theorem scopesOpened_sag (scopes : Nat) (s : State) :
    (scopesOpened scopes s).sag.scopes = s.sag.scopes ||| scopes ∧ (scopesOpened scopes s).sag.nonce = s.sag.nonce ∧
      (scopes / 8 % 2 = 1 → (scopesOpened scopes s).sag.signerGone = true ∧ ∀ e ∈ (scopesOpened scopes s).sag.tenants, e.2.key = none) := by
  unfold scopesOpened
  dsimp only
  split
  · refine ⟨rfl, rfl, fun _ => ⟨rfl, fun e he => ?_⟩⟩
    obtain ⟨x, -, rfl⟩ := List.mem_map.mp he
    rfl
  next h => exact ⟨rfl, rfl, fun hs => absurd hs h⟩

theorem debugUnlock_unlocks {h : Hdr} {x : Stream} {g : Signer} {s : State} (hlen : relayTooLong x = false) (h2 : leAt x.bytes 4 1 = 2)
    (ha : scopesAdmitted (lifecycle s) (leAt x.bytes 5 1) = true) (ht : tokenGood s x.bytes = true) (h16 : leAt x.bytes 5 1 < 16)
    (hg : debugSigner s x.bytes (leAt x.bytes 5 1) = some g) :
    debugUnlock h x s = ok h 0 (openScopes (leAt x.bytes 5 1) g (nonceGone s)) := by
  unfold debugUnlock
  dsimp only
  rw [consumeNonce_good ht, hg]
  exact (if_neg (by simp [hlen])).trans ((if_neg (by simp [h2, ha])).trans (if_neg (by simp [ht]; omega)))

/-! ## LIFECYCLE_ADVANCE (R455 to R457) -/

/-- The position after the highest of the first n that has a property. -/
theorem highest_of_range (p : Nat → Prop) [DecidablePred p] (n : Nat) :
    ((List.range n).foldl (fun b i => if p i then i + 1 else b) 0 ≤ n) ∧
      ∀ i, (List.range n).foldl (fun b i => if p i then i + 1 else b) 0 ≤ i → i < n → ¬p i := by
  induction n with
  | zero => exact ⟨le_rfl, fun i _ h => absurd h (Nat.not_lt_zero i)⟩
  | succ n ih =>
    rw [List.range_succ, List.foldl_append, List.foldl_cons, List.foldl_nil]
    split
    next hp => exact ⟨le_rfl, fun i h1 h2 => absurd h2 (by omega)⟩
    next hp =>
      refine ⟨by omega, fun i h1 h2 => ?_⟩
      by_cases e : i = n
      · rwa [e]
      · exact ih.2 i h1 (by omega)

theorem highest_of_range_eq (p : Nat → Prop) [DecidablePred p] {n k : Nat} (hk : k < n) (hp : p k) (hn : ∀ i, k < i → i < n → ¬p i) :
    (List.range n).foldl (fun b i => if p i then i + 1 else b) 0 = k + 1 := by
  induction n with
  | zero => exact absurd hk (Nat.not_lt_zero k)
  | succ n ih =>
    rw [List.range_succ, List.foldl_append, List.foldl_cons, List.foldl_nil]
    by_cases e : k = n
    · rw [if_pos (e ▸ hp), e]
    · rw [if_neg (hn n (by omega) (by omega))]
      exact ih (by omega) fun i h1 h2 => hn i h1 (by omega)

theorem lifecycle_fuse (s : State) {i : Nat} (h1 : lifecycle s ≤ i) (h2 : i < 5) : ¬2 ≤ s.sag.fuses.getD i 0 :=
  (highest_of_range (fun i => 2 ≤ s.sag.fuses.getD i 0) 5).2 i h1 h2

/-- Blowing the copies of a target's fuse that the transition permits makes it the life-cycle state (R455, R456). -/
theorem lifecycle_blown {s t : State} {target : Nat} (ht : transition (lifecycle s) target = true) (hl : s.sag.fuses.length = 5)
    (hf : t.sag.fuses = s.sag.fuses.set (target - 1) 3) : lifecycle t = target := by
  have h5 : 1 ≤ target ∧ target ≤ 5 ∧ (target = 5 ∨ lifecycle s < target) := by
    simp only [transition, Bool.or_eq_true, decide_eq_true_eq] at ht
    omega
  have hget : ∀ i, t.sag.fuses.getD i 0 = if i = target - 1 then 3 else s.sag.fuses.getD i 0 := by
    intro i
    rw [hf, List.getD_eq_getElem?_getD, List.getElem?_set]
    by_cases e : target - 1 = i
    · rw [if_pos e, if_pos (by omega), if_pos e.symm]
      rfl
    · rw [if_neg e, if_neg (Ne.symm e), List.getD_eq_getElem?_getD]
  have h := highest_of_range_eq (fun i => 2 ≤ t.sag.fuses.getD i 0) (n := 5) (k := target - 1) (by omega) (by rw [hget, if_pos rfl]; decide)
    fun i h1 h2 => by
      rw [hget, if_neg (by omega)]
      exact lifecycle_fuse s (by omega) h2
  exact h.trans (by omega)

/-- Sagger after a life-cycle transition (R457). -/
def advanced (target : Nat) (bs : List Byte) (s : State) : State :=
  let s2 := wipeSagger 2 s
  { s2 with sag := { s2.sag with
    fuses := s2.sag.fuses.set (target - 1) 3,
    oemHash := if target = 2 then Config.sha384 (slice bs 352 448) else s2.sag.oemHash } }

theorem advanced_keeps (target : Nat) (bs : List Byte) (s : State) : Keeps [.fuses, .jobs, .sag] s (advanced target bs s) :=
  advanceFuse_keeps _ _ (by decide) (by decide) (wipeSagger_keeps 2 s (by decide) (Keeps.refl _ s))

theorem advanced_alike (target : Nat) (bs : List Byte) (s : State) : RingsAlike s (advanced target bs s) := RingsAlike.of_rings rfl

/-- What a transition leaves of Sagger's RAM and of the tenants' counters. -/
theorem advanced_zeroed (target : Nat) (bs : List Byte) (s : State) :
    (advanced target bs s).sag.nonce = none ∧ (advanced target bs s).sag.batches = [] ∧
      (∀ e ∈ (advanced target bs s).sag.tenants, e.2.key = none ∧ e.2.digest = none) ∧
      ∀ e ∈ (advanced target bs s).jobs.tenants, e.2.grant = 0 ∧ e.2.charged = 0 ∧ e.2.reserved = 0 := by
  refine ⟨rfl, rfl, fun e he => ?_, fun e he => ?_⟩
  · obtain ⟨x, -, rfl⟩ := List.mem_map.mp he
    exact ⟨rfl, rfl⟩
  · obtain ⟨x, -, rfl⟩ := List.mem_map.mp he
    exact ⟨rfl, rfl, rfl⟩

theorem lifecycleAdvance_advances {h : Hdr} {target : Nat} {x : Stream} {s : State} (hlen : relayTooLong x = false)
    (ht : transition (lifecycle s) target = true) (hd : ∀ e ∈ s.jobs.tenants, e.1 ≠ 0 → e.2.state = .disabled)
    (hp : planesStopped s = true) (h1 : leAt x.bytes 4 1 = 1) (hg : tokenGood s x.bytes = true) (h5 : leAt x.bytes 5 1 = target)
    (hs : lifecycleSigned s target x.bytes = true) : lifecycleAdvance h target x s =
      ok h 0 (raiseIrq pgSag 5 (event 0x0904 none (le 1 (lifecycle s) ++ le 1 target) (advanced target x.bytes (nonceGone s)))) := by
  have hlive : planeNums.any (fun p => (plane s p).live) = false := by
    rw [List.any_eq_false]
    intro p hm
    simpa using List.all_eq_true.mp hp p hm
  have hten : (s.jobs.tenants.any fun e => decide (e.1 ≠ 0) && decide (e.2.state ≠ .disabled)) = false := by
    rw [List.any_eq_false]
    intro e hm
    by_cases h0 : e.1 = 0
    · simp [h0]
    · simp [hd e hm h0]
  unfold lifecycleAdvance
  dsimp only
  rw [consumeNonce_good hg]
  exact (if_neg (by simp [hlen])).trans ((if_neg (by simp [ht])).trans ((if_neg (by simp only [hten, hlive]; decide)).trans
    ((if_neg (by simp [h1])).trans (if_neg (by simp [hg, h5, hs])))))

theorem sag_ok (h : Hdr) (r : Nat) (s : State) : (ok h r s).sag = s.sag :=
  sag_of_only ((complete_keeps h 0 r s (fun _ q => q) (Keeps.refl _ s)).only .fuses (by decide))
    ((complete_keeps h 0 r s (fun _ q => q) (Keeps.refl _ s)).only .sag (by decide))

theorem raised_sag {b code : Nat} {ten : Option Nat} {pl : List Byte} (s : State) : (raiseIrq pgSag b (event code ten pl s)).sag = s.sag :=
  sag_of_only ((raised_keeps s).only .fuses (by decide)) ((raised_keeps s).only .sag (by decide))

/-- Settles O17: each command through its body in the state its taking leaves. -/
theorem saggerCommandsRun : Obligations.SaggerCommandsRun := by
  refine ⟨?key, ?grant, ?query, ?fetch, ?attest, ?unlock, ?advance⟩
  case key =>
    intro d n handle x k s ha hn hen hx hf hc hlen hl hid h1 h2 h3 h4 h5 h6 h7 hk ho
    refine admitted_next ha rfl (streamObjs_nil rfl _ _) (bodyKeyLoad_keeps _ _ _ _ _ (by decide) ((taken_only d s).mono (by decide))) ?_
    have hbody : bodyKeyLoad (hdrOf d s) (.keyLoad d n handle) n.toNat handle.toNat (taken d s) = refreshReady (noteReady
        (ok (hdrOf d s) 0 (keySlotted n.toNat k (Config.sha384 (slice x.bytes 128 224)) (taken d s)))) := by
      rw [bodyKeyLoad, if_neg (not_or.mpr ⟨hn, not_not.mpr (show (tenant (taken d s) n.toNat).state = .enabled from hen)⟩)]
      exact (withStream_taken hx hf hc rfl).trans (keyLoad_loads (s := taken d s) hlen hl hid h1 h2 h3 h4 h5 h6 h7 hk ho)
    rw [hbody]
    have hkeep := keySlotted_keeps n.toNat k (Config.sha384 (slice x.bytes 128 224)) (taken d s)
    have hown := keySlotted_own n.toNat k (Config.sha384 (slice x.bytes 128 224)) (taken d s)
    have hseq := (ownerTaken_own n.toNat (Config.sha384 (slice x.bytes 128 224)) (taken d s)).2
    generalize keySlotted n.toNat k (Config.sha384 (slice x.bytes 128 224)) (taken d s) = u at hkeep hown
    have hdone : Completed d 0 0 s (noteReady (ok (hdrOf d s) 0 u)) :=
      CompletedWith.after_alike (complete_only 0 0 hkeep (by decide)) ((noteReady_only _).only .fw (by decide))
        (OutGrows.of_keeps (noteReady_only _) (by decide)) (RingsAlike.of_keeps (noteReady_only _) (by decide))
    have hall : (sagTenant (refreshReady (noteReady (ok (hdrOf d s) 0 u))) n.toNat).own = _ :=
      ((OwnSame.of_sag (sag_ok _ _ u)).trans ((OwnSame.of_keeps (noteReady_only _) (by decide)).trans (refreshReady_own _)) n.toNat).trans hown
    simp only [SagTenant.own, Prod.mk.injEq] at hall
    obtain ⟨hkey, hdig, hgs⟩ := hall
    exact ⟨hdone.refreshed, hkey, hdig, fun hne => hgs.trans (hseq hne)⟩
  case grant =>
    intro d n handle x s ha hn hx hf hc hlen hl hg hm hj
    refine admitted_next ha rfl (streamObjs_nil rfl _ _) (bodyQuotaGrant_keeps _ _ _ _ _ (by decide) ((taken_only d s).mono (by decide))) ?_
    have hbody : bodyQuotaGrant (hdrOf d s) (.quotaGrant d n handle) n.toNat handle.toNat (taken d s) =
        grantTaken (hdrOf d s) (.quotaGrant d n handle) n.toNat (leAt x.bytes 16 4) (leAt x.bytes 12 4) (taken d s) := by
      rw [bodyQuotaGrant, if_neg hn]
      exact (withStream_taken hx hf hc rfl).trans (quotaGrant_grants (s := taken d s) hlen hl hg hm hj)
    have hgr : (tenant (granted n.toNat ((tenant (taken d s) n.toNat).grant.toNat + leAt x.bytes 16 4) (leAt x.bytes 12 4) (taken d s)) n.toNat).grant.toNat = _ :=
      granted_grant hm
    have hsq := granted_seq n.toNat ((tenant (taken d s) n.toNat).grant.toNat + leAt x.bytes 16 4) (leAt x.bytes 12 4) (taken d s)
    have hkeep := granted_keeps n.toNat ((tenant (taken d s) n.toNat).grant.toNat + leAt x.bytes 16 4) (leAt x.bytes 12 4) (taken d s)
    cases hnj : noJournal s
    · rw [hbody.trans (if_neg (show ¬noJournal (taken d s) = true by rw [show noJournal (taken d s) = false from hnj]; decide))]
      have hci := (congrArg Ring.ci (ring_congr (hkeep.only .rings (by decide)) d.ring.val)).trans (taken_ci d s)
      have hacc : crkAccepts (taken d s) = true := hj.resolve_left (by rw [hnj]; decide)
      generalize granted n.toNat _ _ (taken d s) = u at hgr hsq hkeep hci
      have hcrk : crkAccepts u = true := by rw [crkAccepts, hkeep.only .crk (by decide)]; exact hacc
      have hp := persist_keeps n.toNat (some (hdrOf d s).seq) none (park (grantParked (hdrOf d s) (.quotaGrant d n handle) n.toNat
        (leAt x.bytes 16 4) (leAt x.bytes 12 4) (taken d s) (taken d s)) u) (fun _ q => q) (Keeps.refl _ _)
      refine ⟨?_, ?_, fun h => Bool.noConfusion h, fun _ => ⟨?_, persist_not_done hcrk⟩⟩
      · rw [tenant_congr (hp.only .jobs (by decide))]
        exact hgr
      · have := persist_own n.toNat (some (hdrOf d s).seq) none (park (grantParked (hdrOf d s) (.quotaGrant d n handle) n.toNat
          (leAt x.bytes 16 4) (leAt x.bytes 12 4) (taken d s) (taken d s)) u) n.toNat
        simp only [SagTenant.own, Prod.mk.injEq] at this
        exact this.2.2.trans hsq
      · exact park_accepted hci rfl rfl rfl (fun _ h => h) rfl (StillParked.of_keeps hp (by decide))
    · rw [hbody.trans (if_pos (show noJournal (taken d s) = true from hnj))]
      refine ⟨?_, ?_, fun _ => complete_only 0 _ hkeep (by decide), fun h => Bool.noConfusion h⟩
      · rw [show tenant (ok _ _ _) _ = _ from tenant_congr (complete_jobs _ _ _ _) _]
        exact hgr
      · rw [sagTenant_congr (sag_ok _ _ _)]
        exact hsq
  case query =>
    intro d n s ha hm hn
    refine admitted_next ha rfl rfl (quotaQuery_keeps _ _ _ (by decide) ((taken_only d s).mono (by decide))) ?_
    unfold quotaQuery
    rw [hm, if_neg (by decide), if_neg hn]
    exact taken_completed d _ s
  case fetch =>
    intro d buf len mine out s ha hm ho hr
    refine admitted_next ha rfl rfl (receiptFetch_keeps _ _ _ _ (by decide) ((taken_only d s).mono (by decide))) ?_
    rw [receiptFetch_fetches (s := taken d s) hm ho hr]
    exact (completeWith_only 0 _ (dropBatches_keeps out _) (by decide)).refreshed
  case attest =>
    intro d buf len challenge s ha hid hl
    refine admitted_next ha rfl rfl (attest_keeps _ _ _ _ _ (by decide) ((taken_only d s).mono (by decide))) ?_
    rw [attest_writes (s := taken d s) hid hl]
    exact ⟨(draw 768 (taken d s)).1, completeWith_only 0 _ (draw_keeps 768 _ (fun _ q => q) (Keeps.refl _ _)) (by decide)⟩
  case unlock =>
    intro d handle x g s ha hx hf hc hlen h2 hadm ht h16 hg
    refine admitted_next ha rfl (streamObjs_nil rfl _ _) (bodyDebugUnlock_keeps _ _ _ _ (by decide) ((taken_only d s).mono (by decide))) ?_
    have hbody : bodyDebugUnlock (hdrOf d s) (.debugUnlock d handle) handle.toNat (taken d s) =
        ok (hdrOf d s) 0 (openScopes (leAt x.bytes 5 1) g (nonceGone (taken d s))) :=
      (withStream_taken hx hf hc rfl).trans (debugUnlock_unlocks (s := taken d s) hlen h2 hadm ht h16 hg)
    obtain ⟨hsc, hnon, hwipe⟩ := scopesOpened_sag (leAt x.bytes 5 1) (nonceGone (taken d s))
    have hk : Keeps [.sag] (taken d s) (scopesOpened (leAt x.bytes 5 1) (nonceGone (taken d s))) :=
      (nonceGone_keeps _).trans (scopesOpened_keeps _ _)
    rw [hbody, sag_ok, openScopes_eq, raised_sag]
    refine ⟨complete_kept 0 0 ((RingsAlike.of_keeps hk (by decide)).trans (raised_alike _))
      ((hk.mono (by decide)).trans ((raised_keeps _).mono (b := [.sag, .reg .sag, .msix, .out, .stk, .reg .stk, .rings]) (by decide)))
      (by decide), hsc, hnon, hwipe⟩
  case advance =>
    intro d target handle x s ha hx hf hc hlen ht hlen5 hd hp h1 hg h5 hs
    refine admitted_next ha rfl (streamObjs_nil rfl _ _) (bodyLifecycleAdvance_keeps _ _ _ _ _ (by decide) ((taken_only d s).mono (by decide))) ?_
    have hbody : bodyLifecycleAdvance (hdrOf d s) (.lifecycleAdvance d target handle) target.toNat handle.toNat (taken d s) = _ :=
      (withStream_taken hx hf hc rfl).trans (lifecycleAdvance_advances (s := taken d s) hlen ht hd hp h1 hg h5 hs)
    rw [hbody]
    have hadv := advanced_alike target.toNat x.bytes (nonceGone (taken d s))
    obtain ⟨hnon, hbat, hten, hcnt⟩ := advanced_zeroed target.toNat x.bytes (nonceGone (taken d s))
    have hlc : ∀ u, u.sag = (advanced target.toNat x.bytes (nonceGone (taken d s))).sag → lifecycle u = target.toNat := fun u hu =>
      lifecycle_blown ht hlen5 (congrArg Sagger.fuses hu)
    have hk := advanced_keeps target.toNat x.bytes (nonceGone (taken d s))
    generalize advanced target.toNat x.bytes (nonceGone (taken d s)) = u at hadv hnon hbat hten hcnt hlc hk
    have hr := raised_keeps (n := pgSag) (b := 5) (code := 0x0904) (ten := none) (pl := le 1 (lifecycle (taken d s)) ++ le 1 target.toNat) u
    have hsag := (sag_ok (hdrOf d s) 0 _).trans (raised_sag (b := 5) (code := 0x0904) (ten := none)
      (pl := le 1 (lifecycle (taken d s)) ++ le 1 target.toNat) u)
    have hjobs := (complete_jobs (hdrOf d s) 0 0 _).trans (hr.only .jobs (by decide))
    refine ⟨complete_kept 0 0 ((RingsAlike.of_keeps (nonceGone_keeps _) (by decide)).trans (hadv.trans (raised_alike _)))
      (((nonceGone_keeps _).mono (by decide)).trans ((hk.mono (by decide)).trans (hr.mono
        (b := [.fuses, .jobs, .sag, .thr, .reg .sag, .msix, .out, .stk, .reg .stk, .rings]) (by decide)))) (by decide), hlc _ hsag, ?_, ?_, ?_, ?_⟩
    · rw [hsag, hnon]
    · rw [hsag, hbat]
    · rwa [hsag]
    · rwa [show (ok _ _ _).jobs = _ from hjobs]

end Sys2Proof.Machine
end

section
/-! SUPPORT. The proofs of how planes are set up: kernels, splits, plane tables and pass tables (O20). -/

namespace Sys2Proof.Machine
open Sys2Proof

/-! ## Streams that name further objects -/

/-- A command just taken goes on with a complete stream whose objects are among those it was admitted over (R123). -/
theorem withStream_over {d : Desc} {cls : RingClass} {all : Nat → List Nat} {c : Instr} {objs : List Nat} {handle : Nat}
    {k : Stream → State → State} {x : Stream} {s : State} (ha : Admitted d cls all s = true)
    (ho : ∀ o ∈ streamObjs (taken d s) (hdrOf d s) c, o ∈ all (ring s d.ring.val).tenant)
    (hx : findStream s (ring s d.ring.val).tenant handle = some x) (hf : x.failed = false) (hc : x.complete = true) :
    withStream (hdrOf d s) c objs (hdrOf d s).tenant handle k (taken d s) = k x (taken d s) := by
  refine withStream_complete hx hf hc (blockedBy_sub (ys := all (ring s d.ring.val).tenant) ?_ ho)
  simp only [Admitted, Bool.and_eq_true, Bool.not_eq_true'] at ha
  exact ha.2

/-! ## Folds over objects named once -/

/-- What the one step of a list without repetition that concerns a value makes of it. -/
theorem foldl_once {α β : Type} {f : State → α → State} {val : State → β} {g : β → β} {I : State → Prop} {a : α} {l : List α} {s : State}
    (hn : l.Nodup) (ha : a ∈ l) (hs : I s) (hI : ∀ t, ∀ b ∈ l, I t → I (f t b)) (hself : ∀ t, I t → val (f t a) = g (val t))
    (hne : ∀ t, ∀ b ∈ l, b ≠ a → val (f t b) = val t) : val (l.foldl f s) = g (val s) := by
  induction l generalizing s with
  | nil => exact absurd ha List.not_mem_nil
  | cons b l ih =>
    have hs' : I (f s b) := hI s b List.mem_cons_self hs
    obtain ⟨hb, hl⟩ := List.nodup_cons.mp hn
    rw [List.foldl_cons]
    by_cases e : b = a
    · subst e
      rw [← hself s hs]
      exact foldl_holds (I := fun t => val t = val (f s b)) l rfl fun t c hc h =>
        (hne t c (List.mem_cons_of_mem b hc) fun e => hb (e ▸ hc)).trans h
    · rw [← hne s b List.mem_cons_self e]
      exact ih hl ((List.mem_cons.mp ha).resolve_left (Ne.symm e)) hs' (fun t c hc => hI t c (List.mem_cons_of_mem b hc))
        fun t c hc => hne t c (List.mem_cons_of_mem b hc)

theorem nodup_maskBits (n v : Nat) : (maskBits n v).Nodup := List.nodup_range.filter _

/-! ## Shadows that a command writes -/

/-- Keys of pages of different kinds are different. -/
theorem ne_of_keyKind {j k : Nat} (h : keyKind j ≠ keyKind k) : j ≠ k := fun e => h (e ▸ rfl)

/-- A shadow that reads a value reads it after a command's write that writes the same to the same key. -/
theorem rdShadow_cmdShadow_agrees {j k : Nat} {v w : Word} {s : State} (h : rdShadow s j = v) (he : k = j → w = v) :
    rdShadow (cmdShadow k w s) j = v := by
  by_cases e : k = j
  · rw [e, rdShadow_cmdShadow, he e]
  · rw [rdShadow_cmdShadow_ne _ _ (Ne.symm e), h]

/-- A command's latch writes its pages in a state that has the planes and the time of the one it began in. -/
theorem cmdLatch_write (h : Hdr) (c : Instr) (objs pages marks : List Nat) (write : State → State) (s : State) :
    ∃ u, cmdLatch h c objs pages marks write s = releasePages pages (write u) ∧ u.kln = s.kln ∧ u.clock = s.clock := by
  refine ⟨_, rfl, ?_⟩
  exact foldl_holds (I := fun t => t.kln = s.kln ∧ t.clock = s.clock) pages ⟨rfl, rfl⟩ fun t n _ ⟨h1, h2⟩ =>
    have k := setCmdHold_keeps true n t (fun _ q => q) (Keeps.refl _ t)
    ⟨(k.only .kln (by simp)).trans h1, (k.only .clock (by simp)).trans h2⟩

/-- Pages that follow a frame latch. -/
def FramePages (pages : List Nat) : Prop := ∀ n ∈ pages, pageSrc n = 1 ∧ pageKind n ≠ .iplP

/-- What a latch of frame pages leaves of a shadow that is none of the counters'. -/
theorem releasePages_shadow {pages : List Nat} (hp : FramePages pages) (s : State) {k : Nat} (h1 : k ≠ Reg.TIL_SPLIT_CNT)
    (h2 : ∀ p, k ≠ Reg.KLN_P_DEFER_CNT p) (h3 : keyKind k ≠ .stk) : rdShadow (releasePages pages s) k = rdShadow s k :=
  releasePages_shadows (fun n hn => ⟨by rw [(hp n hn).1]; decide, (hp n hn).2⟩) s k h1 h2 h3

theorem releasePages_tilE {pages : List Nat} (hp : FramePages pages) (s : State) {k : Nat} (hk : keyKind k = .tilE) :
    rdShadow (releasePages pages s) k = rdShadow s k :=
  releasePages_shadow hp s (ne_of_keyKind (by rw [hk]; decide)) (fun p => ne_of_keyKind (by rw [hk]; simp)) (by rw [hk]; decide)

/-! ## KERNEL_SELECT (R216, R217) -/

/-- The engines of a plane's heads. -/
def planeEngines (s : State) (p : Nat) : List Nat := (planeHeads s p).flatMap fun g => [2 * g.head, 2 * g.head + 1]

/-- What an engine takes of a kernel and its parameter block. -/
def writeKernel (k : Nat) (bs : List Byte) (s : State) (e : Nat) : State :=
  cmdShadowN (Reg.TIL_E_LREMAP e) (leAt bs 8 4) (cmdShadowN (Reg.TIL_E_DMAP e) (leAt bs 4 4)
    (cmdShadowN (Reg.TIL_E_SCREEN e) ((bs.getD 0 0).toNat + 2 ^ 8 * (bs.getD 1 0).toNat + 2 ^ 16 * (bs.getD 2 0).toNat)
      (cmdShadowN (Reg.TIL_E_KERNEL e) (k + 256 * (bs.getD 3 0).toNat) s)))

theorem writeKernel_still (k : Nat) (bs : List Byte) (s : State) (e : Nat) : StillParked s (writeKernel k bs s e) :=
  (((cmdShadow_still _ _ s).trans (cmdShadow_still _ _ _)).trans (cmdShadow_still _ _ _)).trans (cmdShadow_still _ _ _)

/-- An engine's shadow holds a kernel and its parameter block. -/
structure KernelTaken (k : Nat) (bs : List Byte) (s : State) (e : Nat) : Prop where
  kernel : rdShadow s (Reg.TIL_E_KERNEL e) = BitVec.ofNat 32 (k + 256 * (bs.getD 3 0).toNat)
  screen : rdShadow s (Reg.TIL_E_SCREEN e) =
    BitVec.ofNat 32 ((bs.getD 0 0).toNat + 2 ^ 8 * (bs.getD 1 0).toNat + 2 ^ 16 * (bs.getD 2 0).toNat)
  dmap : rdShadow s (Reg.TIL_E_DMAP e) = BitVec.ofNat 32 (leAt bs 4 4)
  lremap : rdShadow s (Reg.TIL_E_LREMAP e) = BitVec.ofNat 32 (leAt bs 8 4)

theorem writeKernel_self (k : Nat) (bs : List Byte) (s : State) (e : Nat) : KernelTaken k bs (writeKernel k bs s e) e := by
  constructor
  · refine rdShadow_cmdShadow_agrees (rdShadow_cmdShadow_agrees (rdShadow_cmdShadow_agrees (rdShadow_cmdShadow _ _ s) ?_) ?_) ?_ <;>
      simp only [Reg.TIL_E_KERNEL, Reg.TIL_E_SCREEN, Reg.TIL_E_DMAP, Reg.TIL_E_LREMAP] <;> omega
  · refine rdShadow_cmdShadow_agrees (rdShadow_cmdShadow_agrees (rdShadow_cmdShadow _ _ _) ?_) ?_ <;>
      simp only [Reg.TIL_E_SCREEN, Reg.TIL_E_DMAP, Reg.TIL_E_LREMAP] <;> omega
  · refine rdShadow_cmdShadow_agrees (rdShadow_cmdShadow _ _ _) ?_
    simp only [Reg.TIL_E_DMAP, Reg.TIL_E_LREMAP]
    omega
  · exact rdShadow_cmdShadow _ _ _

/-- An engine's shadow stands while another engine takes the same kernel. -/
theorem KernelTaken.write {k : Nat} {bs : List Byte} {s : State} {e : Nat} (h : KernelTaken k bs s e) (b : Nat) :
    KernelTaken k bs (writeKernel k bs s b) e := by
  obtain ⟨h1, h2, h3, h4⟩ := h
  unfold writeKernel cmdShadowN
  constructor
  · refine rdShadow_cmdShadow_agrees (rdShadow_cmdShadow_agrees (rdShadow_cmdShadow_agrees (rdShadow_cmdShadow_agrees h1
      fun _ => rfl) ?_) ?_) ?_ <;> intro he <;> simp only [Reg.TIL_E_KERNEL, Reg.TIL_E_SCREEN, Reg.TIL_E_DMAP, Reg.TIL_E_LREMAP] at he <;> omega
  · refine rdShadow_cmdShadow_agrees (rdShadow_cmdShadow_agrees (rdShadow_cmdShadow_agrees (rdShadow_cmdShadow_agrees h2
      ?_) fun _ => rfl) ?_) ?_ <;> intro he <;> simp only [Reg.TIL_E_KERNEL, Reg.TIL_E_SCREEN, Reg.TIL_E_DMAP, Reg.TIL_E_LREMAP] at he <;> omega
  · refine rdShadow_cmdShadow_agrees (rdShadow_cmdShadow_agrees (rdShadow_cmdShadow_agrees (rdShadow_cmdShadow_agrees h3
      ?_) ?_) fun _ => rfl) ?_ <;> intro he <;> simp only [Reg.TIL_E_KERNEL, Reg.TIL_E_SCREEN, Reg.TIL_E_DMAP, Reg.TIL_E_LREMAP] at he <;> omega
  · refine rdShadow_cmdShadow_agrees (rdShadow_cmdShadow_agrees (rdShadow_cmdShadow_agrees (rdShadow_cmdShadow_agrees h4
      ?_) ?_) ?_) fun _ => rfl <;> intro he <;> simp only [Reg.TIL_E_KERNEL, Reg.TIL_E_SCREEN, Reg.TIL_E_DMAP, Reg.TIL_E_LREMAP] at he <;> omega

theorem writeKernels_taken {k : Nat} {bs : List Byte} {es : List Nat} {e : Nat} (he : e ∈ es) (s : State) :
    KernelTaken k bs (es.foldl (writeKernel k bs) s) e :=
  foldl_reaches (I := fun _ => True) (P := fun t => KernelTaken k bs t e) he trivial (fun _ _ _ _ => trivial)
    (fun u _ => writeKernel_self k bs u e) fun _ b _ _ _ h => h.write b

theorem engines_framePages (es : List Nat) : FramePages (es.map pgTilE) := by
  intro n hn
  obtain ⟨e, -, rfl⟩ := List.mem_map.mp hn
  exact ⟨pageSrc_pgTilE e, by simp⟩

theorem kernelDefaults_good : ∀ p < 16, (kernelDefaults p).length = 32 ∧ kernelGood (kernelDefaults p) = true := by decide

/-- KERNEL_SELECT's latch. -/
def kernelLatched (h : Hdr) (c : Instr) (p k : Nat) (bs : List Byte) (s : State) : State :=
  cmdLatch h c [objPlane p] ((planeEngines s p).map pgTilE) [] (fun t => (planeEngines s p).foldl (writeKernel k bs) t) s

theorem kernelSelect_latches {h : Hdr} {c : Instr} {p k : Nat} {bs : List Byte} {s : State} (hl : bs.length = 32)
    (hg : kernelGood bs = true) : kernelSelect h c p k bs s = kernelLatched h c p k bs s := by
  unfold kernelSelect
  exact (if_neg (by omega)).trans (if_neg (by simp [hg]))

/-! ## SPLIT_MOVE (R200, R202) -/

/-- A head's automatic split is dropped for a host's. -/
def manualSplit (g : Nat) (s : State) : State :=
  { s with til := { s.til with autoDue := s.til.autoDue.filter (· ≠ g), autoHeads := s.til.autoHeads.filter (· ≠ g) } }

theorem bodySplitMove_latches {h : Hdr} {c : Instr} {g v : Nat} {s : State} (hg : g ≤ 63) (he : headEnabled s g = true)
    (hv : splitAllowed s g v = true) : bodySplitMove h c g v s =
      cmdLatch h c [objHead g] [pgTilE (2 * g)] [] (cmdShadowN (Reg.TIL_E_SPLIT (2 * g)) v) (manualSplit g s) := by
  unfold bodySplitMove
  exact (if_neg (by omega)).trans ((if_neg (by simp [he])).trans (if_neg (by simp [hv])))

/-! ## PLANE_CONFIG (R203, R207, R208, R607) -/

/-- The pages of a plane table. -/
def tablePages (p : Nat) (t : PlaneTable) : List Nat := pgKlnP p :: t.head.heads.flatMap fun g => [pgTilE (2 * g.head), pgHlk g.head]

theorem tablePages_frame (p : Nat) (t : PlaneTable) : FramePages (tablePages p t) := by
  intro n hn
  rcases List.mem_cons.mp hn with rfl | hn
  · exact ⟨pageSrc_pgKlnP p, by simp⟩
  · obtain ⟨g, -, hg⟩ := List.mem_flatMap.mp hn
    rcases List.mem_cons.mp hg with rfl | hg
    · exact ⟨pageSrc_pgTilE _, by simp⟩
    · rw [List.mem_singleton.mp hg]
      exact ⟨pageSrc_pgHlk _, by simp⟩

theorem planeConfig_latches {h : Hdr} {c : Instr} {p : Nat} {x : Stream} {s : State} (h1 : planeClean p x.bytes = true)
    (h2 : ∀ g ∈ (planeTableOf x.bytes).head.heads, headEnabled s g.head = true) (h3 : planeTableGood s (planeTableOf x.bytes) = true)
    (h4 : ∀ g ∈ (planeTableOf x.bytes).head.heads, inOtherPlane s p g.head = false) : planeConfig h c p x s =
      idleTables p (cmdLatch h c [objPlane p] (tablePages p (planeTableOf x.bytes)) [0x10000 + p]
        (planeWrites p (planeTableOf x.bytes)) (discardAhead p s)) := by
  unfold planeConfig
  refine (if_neg (by simp [h1])).trans ((if_neg ?_).trans ((if_neg (by simp [h3])).trans (if_neg ?_)))
  · rw [Bool.not_eq_true, List.any_eq_false]
    exact fun g hg => by simp [h2 g hg]
  · rw [Bool.not_eq_true, List.any_eq_false]
    exact fun g hg => by simp [h4 g hg]

/-- What a plane table writes to its own plane. -/
def writeTiming (p : Nat) (t : PlaneTable) (s : State) : State :=
  cmdShadow (Reg.KLN_P_REV_TRIM p) t.head.revTrim (cmdShadow (Reg.KLN_P_TRIM p) t.head.trim
    (cmdShadowN (Reg.KLN_P_VBLANK p) (t.head.vfront + 2 ^ 8 * t.head.vsync + 2 ^ 16 * t.head.vback)
      (cmdShadowN (Reg.KLN_P_VACT p) t.head.vact s)))

/-- What a plane table writes to a head. -/
def writeHead (s : State) (g : HeadDecl) : State :=
  cmdShadow (Reg.HLK_KLN_RTRIM23 g.head) g.rtrim23 (cmdShadow (Reg.HLK_KLN_RTRIM01 g.head) g.rtrim01
    (cmdShadow (Reg.HLK_KLN_TRIM g.head) g.htrim (cmdShadowN (Reg.TIL_E_ROWOFS (2 * g.head)) g.ofsWord s)))

/-- A plane table waits for its plane's latch. -/
def pendTable (p cycle : Nat) (t : PlaneTable) (s : State) : State :=
  updPlane p (fun g => { g with pendTable := g.pendTable ++ [(cycle, t)] }) s

theorem planeWrites_eq (p : Nat) (t : PlaneTable) (s : State) :
    planeWrites p t s = t.head.heads.foldl writeHead (pendTable p (fabCycle s) t (writeTiming p t s)) := rfl

/-- A plane's shadow holds a table's timing and trims. -/
structure TimingTaken (p : Nat) (t : PlaneTable) (s : State) : Prop where
  vact : rdShadow s (Reg.KLN_P_VACT p) = BitVec.ofNat 32 t.head.vact
  vblank : rdShadow s (Reg.KLN_P_VBLANK p) = BitVec.ofNat 32 (t.head.vfront + 2 ^ 8 * t.head.vsync + 2 ^ 16 * t.head.vback)
  trim : rdShadow s (Reg.KLN_P_TRIM p) = t.head.trim
  revTrim : rdShadow s (Reg.KLN_P_REV_TRIM p) = t.head.revTrim

theorem TimingTaken.of_shadows {p : Nat} {t : PlaneTable} {s u : State} (h : TimingTaken p t s)
    (hu : ∀ k, keyKind k = .klnP → (∀ q, k ≠ Reg.KLN_P_DEFER_CNT q) → rdShadow u k = rdShadow s k) : TimingTaken p t u := by
  obtain ⟨h1, h2, h3, h4⟩ := h
  constructor
  · exact (hu _ (by simp) fun q => by simp only [Reg.KLN_P_VACT, Reg.KLN_P_DEFER_CNT]; omega).trans h1
  · exact (hu _ (by simp) fun q => by simp only [Reg.KLN_P_VBLANK, Reg.KLN_P_DEFER_CNT]; omega).trans h2
  · exact (hu _ (by simp) fun q => by simp only [Reg.KLN_P_TRIM, Reg.KLN_P_DEFER_CNT]; omega).trans h3
  · exact (hu _ (by simp) fun q => by simp only [Reg.KLN_P_REV_TRIM, Reg.KLN_P_DEFER_CNT]; omega).trans h4

theorem writeTiming_taken (p : Nat) (t : PlaneTable) (s : State) : TimingTaken p t (writeTiming p t s) := by
  constructor
  · refine rdShadow_cmdShadow_agrees (rdShadow_cmdShadow_agrees (rdShadow_cmdShadow_agrees (rdShadow_cmdShadow _ _ s) ?_) ?_) ?_ <;>
      simp only [Reg.KLN_P_VACT, Reg.KLN_P_VBLANK, Reg.KLN_P_TRIM, Reg.KLN_P_REV_TRIM] <;> omega
  · refine rdShadow_cmdShadow_agrees (rdShadow_cmdShadow_agrees (rdShadow_cmdShadow _ _ _) ?_) ?_ <;>
      simp only [Reg.KLN_P_VBLANK, Reg.KLN_P_TRIM, Reg.KLN_P_REV_TRIM] <;> omega
  · refine rdShadow_cmdShadow_agrees (rdShadow_cmdShadow _ _ _) ?_
    simp only [Reg.KLN_P_TRIM, Reg.KLN_P_REV_TRIM]
    omega
  · exact rdShadow_cmdShadow _ _ _

theorem writeHead_keeps (s : State) (g : HeadDecl) : Keeps [.reg .hlk, .reg .tilE] s (writeHead s g) :=
  cmdShadow_keeps _ _ _ (by simp) (cmdShadow_keeps _ _ _ (by simp) (cmdShadow_keeps _ _ _ (by simp)
    (cmdShadowN_keeps _ _ _ (by simp) (Keeps.refl _ s))))

theorem writeHeads_keeps (l : List HeadDecl) (s : State) : Keeps [.reg .hlk, .reg .tilE] s (l.foldl writeHead s) :=
  foldl_holds (I := fun t => Keeps [.reg .hlk, .reg .tilE] s t) l (Keeps.refl _ s) fun t g _ h => h.trans (writeHead_keeps t g)

theorem writeTiming_keeps (p : Nat) (t : PlaneTable) (s : State) : Keeps [.reg .klnP] s (writeTiming p t s) :=
  cmdShadow_keeps _ _ _ (by simp) (cmdShadow_keeps _ _ _ (by simp) (cmdShadowN_keeps _ _ _ (by simp)
    (cmdShadowN_keeps _ _ _ (by simp) (Keeps.refl _ s))))

theorem pendTable_shadow (p cycle : Nat) (t : PlaneTable) (s : State) (k : Nat) : rdShadow (pendTable p cycle t s) k = rdShadow s k := rfl

theorem planeWrites_taken (p : Nat) (t : PlaneTable) (s : State) : TimingTaken p t (planeWrites p t s) := by
  have h : TimingTaken p t (pendTable p (fabCycle s) t (writeTiming p t s)) :=
    (writeTiming_taken p t s).of_shadows fun k _ _ => pendTable_shadow p _ t _ k
  rw [planeWrites_eq]
  exact h.of_shadows fun k hk _ => (((writeHeads_keeps t.head.heads _).only (.reg (keyKind k)) (by rw [hk]; decide)).1 k rfl).2

theorem planeWrites_plane (p : Nat) (t : PlaneTable) (s : State) : plane (planeWrites p t s) p =
    { plane s p with pendTable := (plane s p).pendTable ++ [(fabCycle s, t)] } := by
  rw [planeWrites_eq, plane_congr ((writeHeads_keeps t.head.heads _).only .kln (by decide)), pendTable, plane_updPlane_self,
    plane_congr ((writeTiming_keeps p t s).only .kln (by decide))]

theorem planeWrites_still (p : Nat) (t : PlaneTable) (s : State) : StillParked s (planeWrites p t s) :=
  StillParked.of_keeps (planeWrites_keeps p t s (fun _ q => q) (Keeps.refl _ s)) (by decide)

theorem idleTables_live {p : Nat} {s : State} (h : (plane s p).state ≠ .stopped) : idleTables p s = s := if_neg fun k => h k.1

/-- What the latch of a plane table leaves of its plane, while the plane runs. -/
theorem tableLatched_plane (h : Hdr) (c : Instr) (p : Nat) (t : PlaneTable) (s : State) :
    plane (cmdLatch h c [objPlane p] (tablePages p t) [0x10000 + p] (planeWrites p t) s) p =
      { plane s p with pendTable := (plane s p).pendTable ++ [(fabCycle s, t)] } := by
  obtain ⟨u, he, hk, hc⟩ := cmdLatch_write h c [objPlane p] (tablePages p t) [0x10000 + p] (planeWrites p t) s
  have hcyc : fabCycle u = fabCycle s := by rw [fabCycle, fabCycle, now, now, hc]
  rw [he, plane_congr (releaseFrame_kln (tablePages_frame p t) _), planeWrites_plane, plane_congr hk, hcyc]

/-- What the latch of a plane table leaves in its plane's shadow. -/
theorem tableLatched_taken (h : Hdr) (c : Instr) (p : Nat) (t : PlaneTable) (s : State) : TimingTaken p t
    (idleTables p (cmdLatch h c [objPlane p] (tablePages p t) [0x10000 + p] (planeWrites p t) s)) := by
  obtain ⟨u, he, -, -⟩ := cmdLatch_write h c [objPlane p] (tablePages p t) [0x10000 + p] (planeWrites p t) s
  have hk : Keeps _ _ (idleTables p (releasePages (tablePages p t) (planeWrites p t u))) :=
    idleTables_keeps p _ (fun _ q => q) (Keeps.refl _ _)
  rw [he]
  refine TimingTaken.of_shadows ?_ fun k hkd _ => ((hk.only (.reg (keyKind k)) (by rw [hkd]; decide)).1 k rfl).2
  exact (planeWrites_taken p t u).of_shadows fun k hkd hq => releasePages_shadow (tablePages_frame p t) _
    (ne_of_keyKind (by rw [hkd]; decide)) hq (by rw [hkd]; decide)

/-! ## PASS_LOAD (R295 to R297) -/

/-- A pass table waits for a plane's latch, or applies at once where the plane is at rest. -/
def pendPass (e : Nat × PassTable) (s : State) (p : Nat) : State :=
  idleTables p (updPlane p (fun g => { g with pendPass := g.pendPass ++ [e] }) s)

theorem pendPass_still (e : Nat × PassTable) (s : State) (p : Nat) : StillParked s (pendPass e s p) :=
  (StillParked.of_keeps (updPlane_keeps p _ s (fun _ q => q) (Keeps.refl _ s)) (by decide)).trans (idleTables_still p _)

theorem pendPass_ne {e : Nat × PassTable} {s : State} {p q : Nat} (h : q ≠ p) : plane (pendPass e s p) q = plane s q := by
  rw [pendPass, idleTables_plane_ne _ h, plane_updPlane_ne _ _ h]

theorem pendPass_live {e : Nat × PassTable} {s : State} {p : Nat} (h : (plane s p).state ≠ .stopped) :
    plane (pendPass e s p) p = { plane s p with pendPass := (plane s p).pendPass ++ [e] } := by
  rw [pendPass, idleTables_live (by rwa [plane_updPlane_self]), plane_updPlane_self]

/-- A running plane's pass table waits for its latch, whatever the other planes named do. -/
theorem pendPasses_plane {ps : List Nat} (hn : ps.Nodup) {p : Nat} (hp : p ∈ ps) (e : Nat × PassTable) {s : State}
    (hl : (plane s p).state ≠ .stopped) : (plane (ps.foldl (pendPass e) s) p).pendPass = (plane s p).pendPass ++ [e] := by
  refine foldl_once (I := fun u => (plane u p).state ≠ .stopped) (val := fun u => (plane u p).pendPass)
    (g := fun l => l ++ [e]) hn hp hl (fun u q _ h => ?_)
    (fun u h => by rw [pendPass_live h]) fun u q _ hne => congrArg Plane.pendPass (pendPass_ne (Ne.symm hne))
  by_cases he : q = p
  · rw [he, pendPass_live h]
    exact h
  · rwa [pendPass_ne (Ne.symm he)]

/-- PASS_LOAD in the table, with the latches at which it applies. -/
def passParked (h : Hdr) (c : Instr) (ps : List Nat) (s : State) : Parked :=
  { Parked.of s h c true with pages := ps.map (· + 0x30000), late := ps.any fun p => afterLatch s p }

theorem passLoad_pends {h : Hdr} {c : Instr} {mask : Nat} {x : Stream} {s : State} (hc : passClean x.bytes = true)
    (hp : ∀ p ∈ maskBits 16 mask, passesDisjoint s p (passTableOf x.bytes) = true ∧ Config.swathFits (swathMiB s p false) = true) :
    passLoad h c mask x s =
      (maskBits 16 mask).foldl (pendPass (fabCycle s, passTableOf x.bytes)) (park (passParked h c (maskBits 16 mask) s) s) := by
  unfold passLoad
  refine (if_neg (by simp [hc])).trans ((if_neg ?_).trans ((if_neg ?_).trans ?_))
  · rw [Bool.not_eq_true, List.any_eq_false]
    exact fun p hm => by simp [(hp p hm).1]
  · rw [Bool.not_eq_true, List.any_eq_false]
    exact fun p hm => by simp [(hp p hm).2]
  · rfl

/-- Settles O20: each command through its body, its shadows through the latch of its pages. -/
theorem planeSetupRuns : Obligations.PlaneSetupRuns := by
  refine ⟨?kernel, ?split, ?config, ?pass⟩
  case kernel =>
    intro d p kernel handle bs s ha hp hk hbs
    dsimp only
    have hbody : bodyKernelSelect (hdrOf d s) (.kernelSelect d p kernel handle) p.toNat kernel.toNat handle.toNat (taken d s) =
        kernelLatched (hdrOf d s) (.kernelSelect d p kernel handle) p.toNat kernel.toNat bs (taken d s) := by
      rw [bodyKernelSelect, if_neg (by omega), if_neg (by omega)]
      rcases hbs with ⟨rfl, rfl⟩ | ⟨h0, x, hx, hf, hc, rfl, hl, hg⟩
      · obtain ⟨hl, hg⟩ := kernelDefaults_good p.toNat (by omega)
        exact (if_pos rfl).trans (kernelSelect_latches hl hg)
      · rw [if_neg (show ¬handle.toNat = 0 from fun e => h0 (BitVec.eq_of_toNat_eq e))]
        exact (withStream_taken hx hf hc rfl).trans (kernelSelect_latches hl hg)
    refine admitted_next ha rfl (streamObjs_nil rfl _ _) (bodyKernelSelect_keeps _ _ _ _ _ _ (by decide) ((taken_only d s).mono (by decide))) ?_
    rw [hbody]
    have hfr := engines_framePages (planeEngines (taken d s) p.toNat)
    refine ⟨?_, fun e he => ?_⟩
    · have := cmdLatch_accepted (.kernelSelect d p kernel handle) [objPlane p.toNat] [] (pages := (planeEngines (taken d s) p.toNat).map pgTilE)
        (fun t => (planeEngines (taken d s) p.toNat).foldl (writeKernel kernel.toNat bs) t) (taken_ci d s) (fun n hn => (hfr n hn).2)
        fun t => StillParked.foldl _ (fun u e _ => writeKernel_still _ _ u e) t
      rwa [List.append_nil] at this
    · obtain ⟨u, hu, -, -⟩ := cmdLatch_write (hdrOf d s) (.kernelSelect d p kernel handle) [objPlane p.toNat]
        ((planeEngines (taken d s) p.toNat).map pgTilE) [] (fun t => (planeEngines (taken d s) p.toNat).foldl (writeKernel kernel.toNat bs) t)
        (taken d s)
      obtain ⟨h1, h2, h3, h4⟩ := writeKernels_taken (k := kernel.toNat) (bs := bs) (es := planeEngines (taken d s) p.toNat) he u
      rw [kernelLatched, hu]
      exact ⟨(releasePages_tilE hfr _ (by simp)).trans h1, (releasePages_tilE hfr _ (by simp)).trans h2,
        (releasePages_tilE hfr _ (by simp)).trans h3, (releasePages_tilE hfr _ (by simp)).trans h4⟩
  case split =>
    intro d head sp s ha hh he hsp
    refine admitted_next ha rfl rfl (bodySplitMove_keeps _ _ _ _ _ (by decide) ((taken_only d s).mono (by decide))) ?_
    rw [bodySplitMove_latches (s := taken d s) hh he hsp]
    have hfr : FramePages [pgTilE (2 * head.toNat)] := engines_framePages [2 * head.toNat]
    refine ⟨cmdLatch_accepted (.splitMove d head sp) [objHead head.toNat] [] (pages := [pgTilE (2 * head.toNat)]) _ (taken_ci d s)
      (fun n hn => (hfr n hn).2) fun t => cmdShadow_still _ _ t, ?_⟩
    obtain ⟨u, hu, -, -⟩ := cmdLatch_write (hdrOf d s) (.splitMove d head sp) [objHead head.toNat] [pgTilE (2 * head.toNat)] []
      (cmdShadowN (Reg.TIL_E_SPLIT (2 * head.toNat)) sp.toNat) (manualSplit head.toNat (taken d s))
    rw [hu, releasePages_tilE hfr _ (by simp)]
    exact rdShadow_cmdShadow _ _ u
  case config =>
    intro d p handle x s ha hp hx hf hc h1 h2 h3 h4
    dsimp only
    have hbody : bodyPlaneConfig (hdrOf d s) (.planeConfig d p handle) p.toNat handle.toNat (taken d s) =
        planeConfig (hdrOf d s) (.planeConfig d p handle) p.toNat x (taken d s) := by
      rw [bodyPlaneConfig, if_neg (by omega)]
      exact withStream_over ha (fun o ho => List.mem_cons_of_mem _ ho) hx hf hc
    refine ⟨planeConfig (hdrOf d s) (.planeConfig d p handle) p.toNat x (taken d s), congrArg Host.Outcome.next
      ((command_admitted_over ha _ _ fun o ho => ho).trans hbody), ?_,
      (planeConfig_keeps _ _ _ _ _ (by decide) ((taken_only d s).mono (by decide))).only⟩
    rw [planeConfig_latches (s := taken d s) h1 h2 h3 h4]
    generalize planeTableOf x.bytes = tb
    have hd := discardAhead_keeps (ps := [.glz]) p.toNat (taken d s) (fun _ q => q) (Keeps.refl _ _)
    have hci : (ring (discardAhead p.toNat (taken d s)) d.ring.val).ci = (hdrOf d s).ci :=
      ((StillParked.of_keeps hd (by decide)).ci _).trans (taken_ci d s)
    have hkln : (discardAhead p.toNat (taken d s)).kln = s.kln := hd.only .kln (by decide)
    have hclk : (discardAhead p.toNat (taken d s)).clock = s.clock := hd.only .clock (by decide)
    have hfr := tablePages_frame p.toNat tb
    have htm := tableLatched_taken (hdrOf d s) (.planeConfig d p handle) p.toNat tb (discardAhead p.toNat (taken d s))
    refine ⟨(cmdLatch_accepted (.planeConfig d p handle) [objPlane p.toNat] [0x10000 + p.toNat] (pages := tablePages p.toNat tb)
      (planeWrites p.toNat tb) hci (fun n hn => (hfr n hn).2) fun t => planeWrites_still p.toNat tb t).after (idleTables_still p.toNat _),
      htm.vact, htm.vblank, htm.trim, htm.revTrim, fun hl => ?_⟩
    have hpl := tableLatched_plane (hdrOf d s) (.planeConfig d p handle) p.toNat tb (discardAhead p.toNat (taken d s))
    rw [plane_congr hkln, fabCycle, now, hclk] at hpl
    rw [idleTables_live (by rwa [hpl]), hpl]
    rfl
  case pass =>
    intro d mask handle x s ha hsc hx hf hc hcl hps
    refine admitted_next ha rfl (streamObjs_nil rfl _ _) (bodyPassLoad_keeps _ _ _ _ _ (by decide) ((taken_only d s).mono (by decide))) ?_
    have hbody : bodyPassLoad (hdrOf d s) (.passLoad d mask handle) mask.toNat handle.toNat (taken d s) =
        (maskBits 16 mask.toNat).foldl (pendPass (fabCycle s, passTableOf x.bytes))
          (park (passParked (hdrOf d s) (.passLoad d mask handle) (maskBits 16 mask.toNat) (taken d s)) (taken d s)) := by
      rw [bodyPassLoad, if_neg ?_]
      · exact (withStream_taken hx hf hc rfl).trans (passLoad_pends (s := taken d s) hcl hps)
      · rw [Bool.not_eq_true, List.any_eq_false]
        exact fun p hm => by simp [show scanning (taken d s) p = true from hsc p hm]
    rw [hbody]
    refine ⟨park_accepted (taken_ci d s) rfl rfl rfl (fun _ h => h) rfl (StillParked.foldl _ (fun t p _ => pendPass_still _ t p) _), ?_⟩
    exact fun p hm hl => pendPasses_plane (nodup_maskBits 16 mask.toNat) hm _ (s := park _ (taken d s)) hl

end Sys2Proof.Machine
end

section
/-! SUPPORT. The proofs of how planes start, stop and pace, and of how row-lines shift, underrun and fire (O21). -/

namespace Sys2Proof.Machine
open Sys2Proof

/-! ## What the passing of time leaves of a press -/

@[simp] theorem keyKind_KLN_TRIP_MAP (i : Nat) : keyKind (Reg.KLN_TRIP_MAP i) = .klnC :=
  keyKind_of (n := 0x0C0) (by simp only [Reg.KLN_TRIP_MAP]; omega)

@[simp] theorem keyKind_KLN_PC_CFG (k : Nat) : keyKind (Reg.KLN_PC_CFG k) = .klnC :=
  keyKind_of (n := 0x0C0) (by simp only [Reg.KLN_PC_CFG]; omega)

@[simp] theorem keyKind_HLK_KLN_HACT (i : Nat) : keyKind (Reg.HLK_KLN_HACT i) = .hlk := keyKind_hlk 0x100 i (by decide)

@[simp] theorem khead_advance (t : Nat) (s : State) (h : Nat) : khead (advanceTo t s) h = khead s h := by simp [khead]

theorem tripCoversPlane_congr {s u : State} (hk : u.kln = s.kln) (hr : ∀ k, keyKind k = .klnC → rd u k = rd s k) (p : Nat) :
    tripCoversPlane u p = tripCoversPlane s p := by
  have ht : ∀ i, trip u i = trip s i := fun i => by rw [trip, trip, hk]
  have hb : ∀ i, rbit u (Reg.KLN_TRIP_MAP i) p = rbit s (Reg.KLN_TRIP_MAP i) p := fun i => rbit_congr (hr _ (by simp)) p
  simp only [tripCoversPlane, ht, hb]

theorem headLive_congr {s u : State} (hc : u.clk = s.clk) (hp : u.ports = s.ports) (h : Nat) : headLive u h = headLive s h := by
  rw [headLive, headLive, hc, port_congr hp]

theorem portMode_congr {s u : State} {h : Nat} (hr : ∀ k, keyKind k = .hlk → rd u k = rd s k) : portMode u h = portMode s h :=
  rf_congr (hr _ (by simp)) _ _

theorem shiftTime_congr {s u : State} {h : Nat} (hr : ∀ k, keyKind k = .hlk → rd u k = rd s k) : shiftTime u h = shiftTime s h := by
  have hc : rd u (Reg.HLK_CTRL h) = rd s (Reg.HLK_CTRL h) := hr _ (by simp)
  have ha : rd u (Reg.HLK_KLN_HACT h) = rd s (Reg.HLK_KLN_HACT h) := hr _ (by simp)
  simp only [shiftTime, sheafFrames, sclk, hAct, portMode, rf_congr hc, rf_congr ha]
  rfl

theorem tripCoversPlane_advance (t : Nat) (s : State) (p : Nat) : tripCoversPlane (advanceTo t s) p = tripCoversPlane s p :=
  tripCoversPlane_congr (advance_kln t s) (fun _ hk => advance_rd t s (by rw [hk]; simp)) p

theorem headLive_advance (t : Nat) (s : State) (h : Nat) : headLive (advanceTo t s) h = headLive s h :=
  headLive_congr (advance_clk t s) (advance_ports t s) h

theorem rd_hlk_advance (t : Nat) (s : State) {k : Nat} (hk : keyKind k = .hlk) : rd (advanceTo t s) k = rd s k :=
  advance_rd t s (by rw [hk]; simp)

/-! ## What goes out to a head -/

theorem row_updPort (h : Nat) (f : Port → Port) (s : State) (g r : Nat) : row (updPort h f s) g r = row s g r := rfl

theorem row_wn (k v : Nat) (s : State) (g r : Nat) : row (wn k v s) g r = row s g r := rfl

theorem sendCodes_kln (h r start : Nat) (codes : List Nat) (s : State) : (sendCodes h r start codes s).kln = s.kln :=
  (sendCodes_keeps h r start codes s (fun _ q => q) (Keeps.refl _ s)).only .kln (by decide)

theorem lateSwap_ports (h : Nat) (s : State) : (lateSwap h s).ports = s.ports :=
  (lateSwap_keeps h s (fun _ q => q) (Keeps.refl _ s)).only .ports (by decide)

/-- A descriptor sent leaves the end of the port's shift. -/
theorem sendDesc_busy (h r act : Nat) (codes : List Nat) (s : State) :
    (port (sendDesc h r act codes s) h).busyUntil = (port s h).busyUntil := by
  unfold sendDesc
  dsimp only
  by_cases hw : 4 ≤ (port s h).descs.length ∧ act ≠ 0
  · rw [if_pos hw, port_updPort_self]
  · rw [if_neg hw, port_updPort_self]
    by_cases hl : ((port s h).swapDue.isSome && (port s h).ready) = true
    · rw [if_pos hl, port_congr (lateSwap_ports h s)]
    · rw [if_neg hl]

theorem sendCodes_busy (h r start : Nat) (codes : List Nat) (s : State) :
    (port (sendCodes h r start codes s) h).busyUntil = (port s h).busyUntil := by
  unfold sendCodes
  split
  · exact sendDesc_busy h r 0 codes s
  · rfl

/-! ## KILN_SHEAF_SHIFT (R256, R257) -/

/-- A shift of a ready sheaf: the sheaf leaves the row, the row's margin and the port's end of shift are as the shift makes them, and its
codes go out. -/
theorem sheafShift_sends {h t p r : Nat} {dl : Int} {f : BitVec 32} {rest : List (Int × Nat × BitVec 32)} {x : Sheaf} {s : State}
    (hp : planeOfHead s h = some p) (hs : shiftable s p h t = (dl, r, f) :: rest) (hl : headLive s h = true)
    (ht : tripCoversPlane s p = false) (hb : (port s h).busyUntil ≤ t) (hd : (port s h).descs.length < 4)
    (hx : ((row s h r).fifo.find? fun z => decide (z.f = (row s h r).nextShift)) = some x) :
    ∃ ready m, sheafShift h t s = sendCodes h r (if portMode s h = 1 then (t + 4095) / 4096 * 4096 else t) x.codes
      (updPort h (fun z => { z with
          busyUntil := (if portMode s h = 1 then (t + 4095) / 4096 * 4096 else t) + shiftTime s h })
        (wn (wkey Reg.KLN_H_MARGIN_MIN h) m
          (updRow h r (fun g => { g with
            fifo := g.fifo.filter (·.f ≠ x.f), nextShift := x.f + 1, tx := g.tx ++ [{ x with ready := ready }] }) (advanceTo t s)))) := by
  have hm : portMode (advanceTo t s) h = portMode s h := portMode_congr fun _ hk => rd_hlk_advance t s hk
  have hsh : shiftTime (advanceTo t s) h = shiftTime s h := shiftTime_congr fun _ hk => rd_hlk_advance t s hk
  refine ⟨?_, ?_, ?_⟩
  rotate_left 2
  · simp only [sheafShift, hp, hs]
    rw [if_neg (by simp [hl, ht]; omega)]
    simp only [row_advance, hx, hm, hsh]
    rfl

/-! ## Underrun (R257 to R261) -/

theorem flagCopy_kln (c : Option Nat) (f : CopyFlags → CopyFlags) (s : State) : (flagCopy c f s).kln = s.kln :=
  (flagCopy_keeps c f s (fun _ q => q) (Keeps.refl _ s)).only .kln (by decide)

/-- A head's rows stand where only a list of the head's own changes. -/
theorem row_updHead_rows (h : Nat) (f : KHead → KHead) (s : State) (hf : (f (khead s h)).rows = (khead s h).rows) (g r : Nat) :
    row (updHead h f s) g r = row s g r := by
  by_cases e : g = h
  · rw [e, row, row, khead_updHead_self, hf]
  · rw [row, row, khead_updHead_ne f s e]

theorem row_updPlane (p : Nat) (f : Plane → Plane) (s : State) (g r : Nat) : row (updPlane p f s) g r = row s g r := rfl

/-- Counting an underrun leaves every row. -/
theorem countUnderrun_row (p h r : Nat) (f : BitVec 32) (mode : Nat) (s : State) (g q : Nat) :
    row (countUnderrun p h r f mode s) g q = row s g q := by
  unfold countUnderrun
  extract_lets fr line s1 s2
  have h2 : row s2 g q = row s g q := by
    refine (row_congr (flagCopy_kln _ _ _) g q).trans ?_
    by_cases hb : beyondLatch s p f = true
    · rw [if_pos hb, row_updPlane]
      rfl
    · rw [if_neg hb]
      rfl
  split
  · exact h2
  · rw [row_congr ((raised_keeps _).only .kln (by simp)), row_updHead_rows _ _ _ rfl, h2]

/-- What a count of a plane's underruns holds after its own increment, its head's and its head's margin. -/
theorem underrun_counted (p h : Nat) (s : State) :
    rn (wn (wkey Reg.KLN_H_MARGIN_MIN h) 0 (inc (Reg.KLN_P_UNDERRUN_CNT p) 1 (inc (wkey Reg.KLN_H_UNDERRUN_CNT h) 1 s)))
      (Reg.KLN_P_UNDERRUN_CNT p) = min 0xFFFFFFFF (rn s (Reg.KLN_P_UNDERRUN_CNT p) + 1) := by
  rw [rn_wn_ne _ _ (ne_of_keyKind (by simp)), rn_inc_self, rn_inc_ne _ _ (ne_of_keyKind (by simp))]

theorem rn_updPlane (p : Nat) (f : Plane → Plane) (s : State) (k : Nat) : rn (updPlane p f s) k = rn s k := rfl

/-- Counting an underrun adds one to its plane's count. -/
theorem countUnderrun_counts (p h r : Nat) (f : BitVec 32) (mode : Nat) (s : State) :
    rn (countUnderrun p h r f mode s) (Reg.KLN_P_UNDERRUN_CNT p) = min 0xFFFFFFFF (rn s (Reg.KLN_P_UNDERRUN_CNT p) + 1) := by
  unfold countUnderrun
  extract_lets fr line s1 s2
  have h1 : rn s1 (Reg.KLN_P_UNDERRUN_CNT p) = min 0xFFFFFFFF (rn s (Reg.KLN_P_UNDERRUN_CNT p) + 1) :=
    underrun_counted p h s
  clear_value s1
  have h2 : rn s2 (Reg.KLN_P_UNDERRUN_CNT p) = rn s1 (Reg.KLN_P_UNDERRUN_CNT p) := by
    refine ((flagCopy_keeps _ _ _ (fun _ q => q) (Keeps.refl _ _)).rn (by simp)).trans ?_
    by_cases hb : beyondLatch s p f = true
    · rw [if_pos hb, rn_updPlane]
    · rw [if_neg hb]
  split
  · exact h2.trans h1
  · exact (rn_congr ((rd_raiseIrq _ _ _ _).trans (rd_event (by simp)))).trans (h2.trans h1)

theorem row_winUntake (p slot h r : Nat) (line : Option Nat) (s : State) (g q : Nat) :
    row (winUntake p slot h r line s) g q = row s g q := by
  unfold winUntake
  split
  · exact row_updPlane _ _ _ g q
  · rfl

/-- A row whose line is replaced owes a fill of that line, and its next shift and its underruns stand. -/
theorem replaceLine_row (p h r : Nat) (f : BitVec 32) (codes : List Nat) (s : State) :
    (row (replaceLine p h r f codes s) h r).nextShift = (row s h r).nextShift ∧
      ∃ y ∈ (row (replaceLine p h r f codes s) h r).fills, y.f = f := by
  unfold replaceLine
  dsimp only
  rw [row_winUntake, row_updRow_self]
  exact ⟨rfl, _, List.mem_append_right _ (List.mem_singleton.mpr rfl), rfl⟩

theorem replaceLine_regs (p h r : Nat) (f : BitVec 32) (codes : List Nat) (s : State) (k : Nat) :
    rn (replaceLine p h r f codes s) k = rn s k :=
  (replaceLine_keeps p h r f codes s (fun _ q => q) (Keeps.refl _ s)).rn (by simp)

/-- A row-line declared underrun with a pulse to come: it counts, the row moves on, and a fill row-line takes its place. -/
theorem declareUnderrun_declares (p h r : Nat) (blank : Bool) (s : State) {f : BitVec 32} (hf : (row s h r).nextShift = f) :
    (row (declareUnderrun p h r f blank false s) h r).nextShift = f + 1 ∧
      rn (declareUnderrun p h r f blank false s) (Reg.KLN_P_UNDERRUN_CNT p) =
        min 0xFFFFFFFF (rn s (Reg.KLN_P_UNDERRUN_CNT p) + 1) ∧
      ∃ y ∈ (row (declareUnderrun p h r f blank false s) h r).under, y.f = f := by
  unfold declareUnderrun
  extract_lets g codes s1 s2 s3
  obtain ⟨h1, y, hy, hyf⟩ : (row s2 h r).nextShift = (row s1 h r).nextShift ∧ ∃ y ∈ (row s2 h r).fills, y.f = f :=
    replaceLine_row p h r f codes s1
  have hn : (row s2 h r).nextShift = f := h1.trans ((congrArg Row.nextShift (countUnderrun_row p h r f _ s h r)).trans hf)
  have hc : rn s2 (Reg.KLN_P_UNDERRUN_CNT p) = _ := (replaceLine_regs p h r f codes s1 _).trans (countUnderrun_counts p h r f _ s)
  rw [if_neg (by decide)]
  refine ⟨?_, hc, ?_⟩
  · rw [show s3 = updRow h r _ s2 from rfl, row_updRow_self]
    exact if_pos hn
  · obtain ⟨z, hz⟩ : ∃ z, ((row s2 h r).fills.filter (·.f = f)).take 1 = [z] := by
      cases e : (row s2 h r).fills.filter (·.f = f) with
      | nil => exact absurd (List.mem_filter.mpr ⟨hy, decide_eq_true hyf⟩) (e ▸ List.not_mem_nil)
      | cons z l => exact ⟨z, rfl⟩
    refine ⟨z, ?_, ?_⟩
    · rw [show s3 = updRow h r _ s2 from rfl, row_updRow_self]
      exact List.mem_append_right _ (hz ▸ List.mem_singleton.mpr rfl)
    · have hm : z ∈ (row s2 h r).fills.filter (·.f = f) := List.mem_of_mem_take (hz ▸ List.mem_singleton.mpr rfl)
      exact of_decide_eq_true (List.mem_filter.mp hm).2

theorem sendUnderrun_keeps_press (h r t : Nat) (blank : Bool) (codes : List Nat) (s : State) :
    Keeps [Part.msix, Part.out, Part.ports, Part.reg .hlk, Part.reg .stk, Part.rings, Part.stk] s (sendUnderrun h r t blank codes s) :=
  sendUnderrun_keeps h r t blank codes s (fun _ q => q) (Keeps.refl _ s)

theorem rowUnderrun_declares {h r t p : Nat} {l : Int} {s : State} (hp : planeOfHead s h = some p) (hst : (row s h r).started = true)
    (hl : (plane s p).state ≠ .stopped) (hls : latestStart s p h r = some l) (ht : l ≤ (t : Int))
    (hw : ((row s h r).fifo.any fun x => decide (x.f = (row s h r).nextShift) && x.missing.isEmpty) = false)
    (hh : headLive s h = true) (htr : tripCoversPlane s p = false) :
    ∃ blank codes, rowUnderrun h r t s = sendUnderrun h r t blank codes
      (declareUnderrun p h r (row s h r).nextShift blank false (advanceTo t s)) := by
  refine ⟨?_, ?_, ?_⟩
  rotate_left 2
  · simp only [rowUnderrun, hp, hls, hst, hw]
    rw [if_neg (by simp [Plane.live, hl]), if_neg (by simp; omega), if_neg (by simp [tripCoversPlane_advance, htr]),
      if_neg (by simp [headLive_advance, hh])]

/-! ## FIRE edges (R258, R280, R282) -/

/-- A nozzle's code entering the fired windows leaves the heads and what went out. -/
theorem winCode_heads (side : Bool) (p slot h n : Nat) (line : Option Nat) (code : Nat) (s : State) :
    (winCode side p slot h n line code s).kln.heads = s.kln.heads := by
  unfold winCode
  split
  · split
    · dsimp only
      split
      · rw [(densityAdd_keeps _ _ _ _ _ _ (fun _ q => q) (Keeps.refl _ _)).only .kln (by decide)]
        rfl
      · rfl
    · rfl
  · rfl

theorem row_heads {s u : State} (h : u.kln.heads = s.kln.heads) (g r : Nat) : row u g r = row s g r := by
  rw [row, row, khead, khead, h]

theorem khead_heads {s u : State} (h : u.kln.heads = s.kln.heads) (g : Nat) : khead u g = khead s g := by rw [khead, khead, h]

/-- The codes a row fires enter Kiln's side of the fired windows. -/
def winCodes (p slot h r : Nat) (line : Option Nat) (codes : List Nat) (s : State) : State :=
  codes.zipIdx.foldl (fun t q => winCode true p slot h (r * 1024 + q.2) line q.1 t) s

theorem winCodes_heads (p slot h r : Nat) (line : Option Nat) (codes : List Nat) (s : State) :
    (winCodes p slot h r line codes s).kln.heads = s.kln.heads :=
  foldl_holds (I := fun t => t.kln.heads = s.kln.heads) _ rfl fun t _ _ ht => (winCode_heads _ _ _ _ _ _ _ t).trans ht

theorem winCodes_out (p slot h r : Nat) (line : Option Nat) (codes : List Nat) (s : State) : OutGrows s (winCodes p slot h r line codes s) :=
  OutGrows.foldl (fun t _ => OutGrows.of_keeps (winCode_keeps _ _ _ _ _ _ _ t (fun _ q => q) (Keeps.refl _ t)) (by decide)) _ s

theorem lateSwap_out (h : Nat) (s : State) : OutGrows s (lateSwap h s) := by
  unfold lateSwap
  split
  · refine OutGrows.trans ?_ (raiseIrq_out _ _ _)
    exact OutGrows.trans (t := inc (Reg.HLK_VAR_LATE_CNT h) 1 s) (fun _ q => q) (event_out _ _ _ _)
  · exact OutGrows.refl s

theorem sendDesc_out (h r act : Nat) (codes : List Nat) (s : State) : OutGrows s (sendDesc h r act codes s) := by
  unfold sendDesc
  dsimp only
  by_cases hw : 4 ≤ (port s h).descs.length ∧ act ≠ 0
  · rw [if_pos hw]
    exact fun _ q => q
  · rw [if_neg hw]
    by_cases hl : ((port s h).swapDue.isSome && (port s h).ready) = true
    · rw [if_pos hl]
      exact lateSwap_out h s
    · rw [if_neg hl]
      exact fun _ q => q

theorem pulseLeft_out (h : Nat) (s : State) : OutGrows s (pulseLeft h s) := by
  unfold pulseLeft
  dsimp only
  split
  · exact fun o ho => sendDesc_out _ _ _ _ _ o ho
  · exact fun _ q => q

/-- A row whose next edge has left: what it fired becomes its held codes. -/
def firedRow (e : Edge) (codes : List Nat) (trail : Nat) (g : Row) : Row :=
  { g with
    tx := g.tx.filter (·.f ≠ e.f), under := g.under.filter (·.f ≠ e.f), edges := g.edges.drop 1, held := codes,
    nextEdge := if g.nextEdge = e.f then e.f + 1 else g.nextEdge, lastTrail := trail }

theorem inc_ite_kln (c : Prop) [Decidable c] (k n : Nat) (s : State) : (if c then inc k n s else s).kln = s.kln := by
  split <;> rfl

/-- An edge kept from following another too soon leaves no sooner for it. -/
theorem le_spaced (c : Prop) [Decidable c] (a b : Nat) : a ≤ if c ∧ a < b then b else a := by
  split
  next h => exact Nat.le_of_lt h.2
  next => exact Nat.le_refl a

theorem fireEdge_fires {h p i r : Nat} {e : Edge} {codes : List Nat} {line : Option Nat} {slot ready : Nat} {s : State}
    (hp : planeOfHead s h = some p) (hn : nextFire s h = some (i, r, e)) (hf : firing (row s h r) e.f = some (codes, line, slot, ready))
    (hl : headLive s h = true) (ht : tripCoversPlane s p = false) :
    ∃ (lead trail : Nat) (tap : Tap) (u : State), u.kln = s.kln ∧ max e.instant ready ≤ lead ∧ (e.armed = true → tap = e.tap) ∧
      fireEdge h s = winCodes p slot h r line codes
        (pulseLeft h (updRow h r (firedRow e codes trail) (updHead h (fun g => { g with lastLead := lead })
          (emit (.fire h r lead tap) u)))) := by
  refine ⟨?_, ?_, ?_, ?_, ?_, ?_, ?_, ?_⟩
  rotate_left 7
  · simp only [fireEdge, hp, hn, hf]
    rw [if_neg (by simp [hl, ht])]
    rfl
  · exact ((advance_kln _ _).trans (inc_ite_kln _ _ _ _)).trans (inc_ite_kln _ _ _ _)
  · exact le_spaced _ _ _
  · exact fun ha => if_pos ha

/-! ## The latency tolerance (R265 to R267) -/

theorem ltrUpdate_cfg (s : State) : (ltrUpdate s).hif.cfg = s.hif.cfg := by
  unfold ltrUpdate
  split
  · rfl
  split
  · split
    · split <;> rfl
    · rfl
  · split
    · split <;> rfl
    · rfl

theorem putLt_cfg (lt stat : Nat) (s : State) :
    (ltrUpdate (refreshGrants (wn Reg.KLN_LT_STAT stat (wn Reg.KLN_LT lt s)))).hif.cfg = s.hif.cfg := ltrUpdate_cfg _

theorem refreshLt_cfg (s : State) : (refreshLt s).hif.cfg = s.hif.cfg := by
  unfold refreshLt
  dsimp only
  split
  · split
    · exact putLt_cfg _ _ s
    · exact putLt_cfg _ _ s
  split
  · rfl
  · exact putLt_cfg _ _ s

theorem refreshLt_only (s : State) : Keeps [.hif, .out, .reg .hif, .reg .klnC] s (refreshLt s) :=
  refreshLt_keeps s (fun _ q => q) (Keeps.refl _ s)

/-! ## KILN_START (R245, R247) -/

/-- What a plane is as its frames begin anew: no reference, and its next slot the one given. -/
structure LeadsIn (slot : Nat) (g : Plane) : Prop where
  state : g.state = .leadIn
  referenced : g.referenced = false
  nextSlot : g.nextSlot = slot

/-- Heads' changes leave the planes and the rings. -/
structure PlanesAlike (s t : State) : Prop where
  planes : t.kln.planes = s.kln.planes
  rings : RingsAlike s t

theorem PlanesAlike.refl (s : State) : PlanesAlike s s := ⟨rfl, RingsAlike.refl s⟩

theorem PlanesAlike.trans {s t u : State} (h : PlanesAlike s t) (k : PlanesAlike t u) : PlanesAlike s u :=
  ⟨k.planes.trans h.planes, h.rings.trans k.rings⟩

theorem PlanesAlike.of_keeps {s t : State} {ps : List Part} (k : Keeps ps s t) (h : Part.kln ∉ ps ∧ Part.rings ∉ ps) : PlanesAlike s t :=
  ⟨congrArg Kiln.planes (k.only .kln h.1), RingsAlike.of_keeps k h.2⟩

theorem PlanesAlike.updHead (h : Nat) (f : KHead → KHead) (s : State) : PlanesAlike s (updHead h f s) := ⟨rfl, updHead_alike h f s⟩

theorem PlanesAlike.updRow (h r : Nat) (f : Row → Row) (s : State) : PlanesAlike s (updRow h r f s) := ⟨rfl, updRow_alike h r f s⟩

theorem PlanesAlike.plane {s t : State} (h : PlanesAlike s t) (p : Nat) : plane t p = plane s p := by
  rw [Machine.plane, Machine.plane, h.planes]

/-- A plane's start: its own fields, then its heads' rows, its cameras and its ring, and last its state. -/
theorem startPlane_state (group slot p : Nat) (s : State) : ∃ f u, startPlane group slot p s = setPlaneState p .leadIn u ∧
    PlanesAlike (updPlane p f s) u ∧ (f (plane s p)).referenced = false ∧ (f (plane s p)).nextSlot = slot := by
  unfold startPlane
  extract_lets k c s1 r0 s2
  have h2 : PlanesAlike s1 s2 := foldl_holds (I := PlanesAlike s1) _ (PlanesAlike.refl s1) fun t d _ ht =>
    foldl_holds (I := PlanesAlike s1) _ (ht.trans (PlanesAlike.updHead _ _ t)) fun u r _ hu => hu.trans (PlanesAlike.updRow _ _ _ u)
  refine ⟨_, _, rfl, (h2.trans (PlanesAlike.of_keeps (restartStall_keeps p (now s) s2 (fun _ q => q) (Keeps.refl _ _)) (by decide))).trans
    (PlanesAlike.of_keeps (ringAtStart_keeps p _ (fun _ q => q) (Keeps.refl _ _)) (by decide)), rfl, rfl⟩

theorem startPlane_leadsIn (group slot p : Nat) (s : State) : LeadsIn slot (plane (startPlane group slot p s) p) := by
  obtain ⟨f, u, he, hu, h1, h2⟩ := startPlane_state group slot p s
  rw [he, setPlaneState_plane, if_pos rfl, hu.plane, plane_updPlane_self]
  exact ⟨rfl, h1, h2⟩

theorem startPlane_plane_ne (group slot : Nat) {p q : Nat} (h : q ≠ p) (s : State) : plane (startPlane group slot p s) q = plane s q := by
  obtain ⟨f, u, he, hu, -, -⟩ := startPlane_state group slot p s
  rw [he, setPlaneState_plane, if_neg h, hu.plane, plane_updPlane_ne _ _ h]

theorem startPlane_alike (group slot p : Nat) (s : State) : RingsAlike s (startPlane group slot p s) := by
  obtain ⟨f, u, he, hu, -, -⟩ := startPlane_state group slot p s
  rw [he]
  exact ((updPlane_alike p f s).trans hu.rings).trans (setPlaneState_alike p .leadIn u)

/-- The planes of a KILN_START. -/
def startPlanes (group slot : Nat) (ps : List Nat) (s : State) : State := ps.foldl (fun t p => startPlane group slot p t) s

theorem startPlanes_keeps (group slot : Nat) (ps : List Nat) (s : State) :
    Keeps [Part.ipl, Part.kln, Part.msix, Part.out, Part.reg .klnP, Part.reg .stk, Part.rings, Part.stk, Part.win] s
      (startPlanes group slot ps s) :=
  Keeps.foldl (fun t p ht => startPlane_keeps group slot p t (fun _ q => q) ht) (Keeps.refl _ s)

theorem startPlanes_alike (group slot : Nat) (ps : List Nat) (s : State) : RingsAlike s (startPlanes group slot ps s) :=
  foldl_holds (I := RingsAlike s) ps (RingsAlike.refl s) fun t p _ ht => ht.trans (startPlane_alike group slot p t)

theorem startPlanes_leadsIn {group slot p : Nat} {ps : List Nat} (hp : p ∈ ps) (s : State) :
    LeadsIn slot (plane (startPlanes group slot ps s) p) :=
  foldl_reaches (I := fun _ => True) (P := fun t => LeadsIn slot (plane t p)) hp trivial (fun _ _ _ _ => trivial)
    (fun t _ => startPlane_leadsIn group slot p t) fun t b _ hb _ ht => by rwa [startPlane_plane_ne group slot (Ne.symm hb)]

/-- A plane that KILN_START may start. -/
structure MayStart (s : State) (p : Nat) : Prop where
  untripped : tripCoversPlane s p = false
  stopped : (plane s p).state = .stopped
  table : (plane s p).table.isSome
  source : pcSrc s (planeChan s p) ≠ 0
  ahead : startPassed s p = false
  fits : rf s (Reg.KLN_P_PACE_CFG p) 5 4 = 2 → Config.swathFits (swathMiB s p false) = true

theorem kilnStart_starts {h : Hdr} {mask : Nat} {s : State} (hp : ∀ p ∈ maskBits 16 mask, MayStart s p) :
    kilnStart h mask s = ok h 0 (refreshLt (startPlanes h.seq (lowestSlot s) (maskBits 16 mask) s)) := by
  unfold kilnStart
  refine (if_neg ?_).trans ((if_neg ?_).trans (if_neg ?_)) <;> rw [Bool.not_eq_true, List.any_eq_false] <;> intro p hm <;>
    obtain ⟨h1, h2, h3, h4, h5, h6⟩ := hp p hm
  · simp [h1]
  · simp [h2, h4, h5, Option.isSome_iff_ne_none.mp h3]
  · by_cases e : rf s (Reg.KLN_P_PACE_CFG p) 5 4 = 2
    · simp [h6 e]
    · simp [e]

/-! ## KILN_STOP (R246) -/

theorem returnCopies_planes (p : Nat) (s : State) : PlanesAlike s (returnCopies p s) :=
  ⟨foldl_holds (I := fun t => t.kln.planes = s.kln.planes) _ rfl fun _ _ _ ht => ht,
    RingsAlike.of_keeps (returnCopies_keeps p s (fun _ q => q) (Keeps.refl _ s)) (by decide)⟩

theorem stopping_plane_self {p : Nat} {s : State} (h : (plane s p).state ≠ .stopped) : (plane (stopping p s) p).state = .stopping := by
  unfold stopping
  split
  · rw [(returnCopies_planes p _).plane, setPlaneState_plane, if_pos rfl]
  next hn =>
    cases e : (plane s p).state with
    | stopped => exact absurd e h
    | leadIn => exact absurd (Or.inl e) hn
    | running => exact absurd (Or.inr e) hn
    | stopping => rfl

theorem stopping_plane_ne {p q : Nat} (h : q ≠ p) (s : State) : plane (stopping p s) q = plane s q := by
  unfold stopping
  split
  · rw [(returnCopies_planes p _).plane, setPlaneState_plane, if_neg h]
  · rfl

theorem stopping_alike (p : Nat) (s : State) : RingsAlike s (stopping p s) := by
  unfold stopping
  split
  · exact (setPlaneState_alike p .stopping s).trans (returnCopies_planes p _).rings
  · exact RingsAlike.refl s

/-- The planes of a KILN_STOP. -/
def stopPlanes (ps : List Nat) (s : State) : State := ps.foldl (fun t p => stopping p t) s

theorem stopPlanes_stopping {p : Nat} {ps : List Nat} (hp : p ∈ ps) {s : State} (hs : (plane s p).state ≠ .stopped) :
    (plane (stopPlanes ps s) p).state = .stopping := by
  refine foldl_reaches (I := fun t => (plane t p).state ≠ .stopped) (P := fun t => (plane t p).state = .stopping) hp hs ?_
    (fun t h => stopping_plane_self h) fun t b _ hb _ ht => by rwa [stopping_plane_ne (Ne.symm hb)]
  intro t b _ h
  by_cases e : b = p
  · rw [e, stopping_plane_self h]
    decide
  · rwa [stopping_plane_ne (Ne.symm e)]

theorem stopPlanes_alike (ps : List Nat) (s : State) : RingsAlike s (stopPlanes ps s) :=
  foldl_holds (I := RingsAlike s) ps (RingsAlike.refl s) fun t p _ ht => ht.trans (stopping_alike p t)

theorem bodyKilnStop_stops {h : Hdr} {c : Instr} {mask : Nat} {s : State} (hn : maskBits 16 mask ≠ [])
    (hp : ∀ p ∈ maskBits 16 mask, (plane s p).state ≠ .stopped) : bodyKilnStop h c mask s =
      parkAccepted h c ((maskBits 16 mask).map objPlane) ((maskBits 16 mask).map keyPlane) (stopPlanes (maskBits 16 mask) s) := by
  unfold bodyKilnStop
  refine (if_neg hn).trans (if_neg ?_)
  rw [Bool.not_eq_true, List.any_eq_false]
  exact fun p hm => by simp [hp p hm]

/-! ## Steps of a channel whose planes are stopped (R274 to R278) -/

/-- Every plane is STOPPED. -/
def AllStopped (s : State) : Prop := ∀ p ∈ planeNums, (plane s p).state = .stopped

theorem AllStopped.dead {s : State} (h : AllStopped s) {p : Nat} (hp : p ∈ planeNums) : (plane s p).live = false := by
  simp [Plane.live, h p hp]

theorem AllStopped.congr {s t : State} (h : AllStopped s) (hk : t.kln.planes = s.kln.planes) : AllStopped t := fun p hp => by
  rw [plane, hk]
  exact h p hp

theorem mem_followers {s : State} {k p : Nat} (h : p ∈ followers s k) : p ∈ planeNums := (List.mem_filter.mp h).1

theorem AllStopped.planeStep {s : State} (h : AllStopped s) {p : Nat} (hp : p ∈ planeNums) (k : Nat) (d : Int) (close resumed : Bool) :
    AllStopped (planeStep k p d close resumed s) := fun q hq => by
  unfold Machine.planeStep
  by_cases e : q = p
  · rw [e, plane_updPlane_self]
    simp [h.dead hp, h p hp]
  · rw [plane_updPlane_ne _ _ e, h q hq]

/-- The followers' part of a step on stopped planes. -/
theorem planeSteps_stopped {ps : List Nat} (hps : ∀ p ∈ ps, p ∈ planeNums) {s : State} (h : AllStopped s) (k : Nat) (d : Int) (close resumed : Bool) :
    AllStopped (ps.foldl (fun u p => planeStep k p d close resumed u) s) ∧
      (ps.foldl (fun u p => planeStep k p d close resumed u) s).kln.channels = s.kln.channels ∧
      (ps.foldl (fun u p => planeStep k p d close resumed u) s).regs = s.regs :=
  foldl_holds (I := fun t => AllStopped t ∧ t.kln.channels = s.kln.channels ∧ t.regs = s.regs) ps ⟨h, rfl, rfl⟩
    fun _ p hp ⟨h1, h2, h3⟩ => ⟨h1.planeStep (hps p hp) k d close resumed, h2, h3⟩

theorem foldl_id {α : Type} {f : State → α → State} (l : List α) {s : State} (h : ∀ a ∈ l, f s a = s) : l.foldl f s = s :=
  foldl_holds (I := fun t => t = s) l rfl fun t a ha ht => by rw [ht, h a ha]

/-- The planes of a channel that are live. -/
theorem noneLive {s : State} (h : AllStopped s) (k : Nat) (q : Nat → Bool) :
    ((followers s k).filter fun p => (plane s p).live && q p) = [] := by
  rw [List.filter_eq_nil_iff]
  exact fun p hp => by simp [h.dead (mem_followers hp)]

theorem planeFront_stopped {s : State} (h : AllStopped s) {p : Nat} (hp : p ∈ planeNums) (t : Nat) (d : Int) : planeFront p t d s = s := by
  unfold planeFront
  exact if_neg fun hl => by simp [h.dead hp] at hl

theorem startAtStep_stopped {s : State} (h : AllStopped s) (k t : Nat) (d : Int) : startAtStep k t d s = s := by
  unfold startAtStep
  dsimp only
  split
  · rw [noneLive h]
    rfl
  · rfl

theorem referenceGroup_stopped {s : State} (h : AllStopped s) (k t : Nat) (d : Int) : referenceGroup k t d s = s := by
  unfold referenceGroup
  dsimp only
  rw [noneLive h]
  rfl

/-- The state after the followers' part of a step. -/
def followSteps (k t : Nat) (d : Int) (close : Bool) (s : State) : State :=
  (followers (channelStep k t d close (advanceTo t s)) k).foldl
    (fun u p => planeStep k p d close (channel (advanceTo t s) k).paused u) (channelStep k t d close (advanceTo t s))

/-- A step of a channel while every plane is stopped is the channel's own: no front moves, and no reference is taken. -/
theorem paceStep_stopped {k t : Nat} {d : Int} {close : Bool} {s : State} (h : AllStopped (followSteps k t d close s)) :
    paceStep k t d close s = followSteps k t d close s := by
  unfold paceStep
  extract_lets s0 resumed s1 ps s2 byStep s3 s4
  have hps : ∀ p ∈ ps, p ∈ planeNums := fun p hp => mem_followers hp
  have h2 : AllStopped s2 := h
  have h3 : s3 = s2 := foldl_id ps fun p hp => planeFront_stopped h2 (hps p hp) t d
  have h4 : s4 = s2 := by
    rw [← h3] at h2
    refine Eq.trans ?_ h3
    by_cases hb : byStep = true
    · exact (if_pos hb).trans (startAtStep_stopped h2 k t d)
    · exact (if_neg hb).trans (referenceGroup_stopped h2 k t d)
  rw [h4]
  exact foldl_id ps fun p hp => if_neg (by simp [h2.dead (hps p hp)])

/-- What a step makes of its own channel. -/
def stepped (src4 : Bool) (ts : List Nat) (trail : List Int) (t : Nat) (d : Int) (x : Channel) : Channel :=
  { x with
    ts := ts, trail := trail, stand := x.stand + d, paused := false, pausedAt := t, reverse := decide (d < 0), lastEdge := some t,
    netSteps := x.netSteps + (if src4 then (if d < 0 then -1 else 1) else d) }

theorem channelStep_steps (k t : Nat) (d : Int) (close : Bool) (s : State) :
    (∃ ts trail, channel (channelStep k t d close s) k = stepped (decide (pcSrc s k = 4)) ts trail t d (channel s k)) ∧
      (channelStep k t d close s).kln.planes = s.kln.planes ∧
      ∀ j, rd (channelStep k t d close s) (Reg.KLN_PC_CFG j) = rd s (Reg.KLN_PC_CFG j) := by
  unfold channelStep
  extract_lets c resumed s1 ts trail s2 s3
  have hk : s1.kln = s.kln := by
    by_cases hr : resumed = true
    · exact (congrArg State.kln (if_pos hr)).trans ((raised_keeps _).only .kln (by simp))
    · exact congrArg State.kln (if_neg hr)
  have hr1 : ∀ j, rd s1 (Reg.KLN_PC_CFG j) = rd s (Reg.KLN_PC_CFG j) := fun j => by
    by_cases hr : resumed = true
    · exact (congrArg (fun u => rd u _) (if_pos hr)).trans ((rd_raiseIrq _ _ _ _).trans (rd_event (by simp)))
    · exact congrArg (fun u => rd u _) (if_neg hr)
  have hc : channel s1 k = channel s k := by rw [channel, channel, hk]
  refine ⟨⟨ts, trail, ?_⟩, (show _ = s1.kln.planes from rfl).trans (congrArg Kiln.planes hk), fun j => ?_⟩
  · refine (show _ = channel s2 k from rfl).trans ((channel_updChannel_self k _ s1).trans ?_)
    rw [hc, stepped]
    by_cases h4 : pcSrc s k = 4 <;> simp [h4, c]
  · refine (rd_wr_ne _ _ (by simp only [Reg.KLN_PC_CFG, Reg.KLN_PC_TPER]; omega)).trans ?_
    refine (rd_wr_ne _ _ (by simp only [Reg.KLN_PC_CFG, Reg.KLN_PC_STEPS]; omega)).trans ?_
    refine (rd_wn64_ne _ _ (by simp only [Reg.KLN_PC_CFG, Reg.KLN_PC_TLAST]; omega)
      (by simp only [Reg.KLN_PC_CFG, Reg.KLN_PC_TLAST]; omega)).trans (hr1 j)

/-- What a step leaves while every plane is stopped: they stay stopped, its channel has stepped, and no channel's setup changes. -/
theorem followSteps_steps (k t : Nat) (d : Int) (close : Bool) {s : State} (h : AllStopped s) :
    AllStopped (followSteps k t d close s) ∧
      (∃ ts trail, channel (followSteps k t d close s) k = stepped (decide (pcSrc s k = 4)) ts trail t d (channel s k)) ∧
      ∀ j, rd (followSteps k t d close s) (Reg.KLN_PC_CFG j) = rd s (Reg.KLN_PC_CFG j) := by
  have hr : ∀ j, rd (advanceTo t s) (Reg.KLN_PC_CFG j) = rd s (Reg.KLN_PC_CFG j) := fun j => advance_rd t s (by simp)
  obtain ⟨⟨ts, trail, h1⟩, h2, h3⟩ := channelStep_steps k t d close (advanceTo t s)
  have hs : AllStopped (channelStep k t d close (advanceTo t s)) := h.congr (h2.trans (congrArg Kiln.planes (advance_kln t s)))
  obtain ⟨h4, h5, h6⟩ := planeSteps_stopped (fun p hp => mem_followers hp) hs k d close (channel (advanceTo t s) k).paused
  refine ⟨h4, ⟨ts, trail, ?_⟩, fun j => ?_⟩
  · rw [pcSrc, rf_congr (hr k), channel_advance] at h1
    rw [pcSrc, ← h1, channel, channel]
    exact congrArg (fun l => tget l _ k) h5
  · refine Eq.trans ?_ ((h3 j).trans (hr j))
    exact rd_of_regs h6 _

theorem foldl_one {α : Type} {f : State → α → State} {a : α} {l : List α} {s t : State} (hn : l.Nodup) (ha : a ∈ l)
    (hs : ∀ b ∈ l, b ≠ a → f s b = s) (hf : f s a = t) (ht : ∀ b ∈ l, b ≠ a → f t b = t) : l.foldl f s = t := by
  obtain ⟨l₁, l₂, rfl⟩ := List.append_of_mem ha
  have hne : ∀ b ∈ l₁ ++ l₂, b ≠ a := fun b hb e => (List.nodup_middle.mp hn).notMem (e ▸ hb)
  rw [List.foldl_append, List.foldl_cons, foldl_id l₁ fun b hb => hs b (List.mem_append_left _ hb) (hne b (List.mem_append_left _ hb)), hf]
  exact foldl_id l₂ fun b hb => ht b (List.mem_append_right _ (List.mem_cons_of_mem a hb)) (hne b (List.mem_append_right _ hb))

theorem settleStep_lock (line : Nat) (s : State) : (settleStep line s).clk.dllLock = s.clk.dllLock := by
  unfold settleStep
  split <;> rfl

theorem stampStep_lock (input : Nat) (s : State) : (stampStep input s).clk.dllLock = s.clk.dllLock := settleStep_lock (64 + input) s

theorem stampStep_only (input : Nat) (s : State) : Keeps [.clk] s (stampStep input s) := stampStep_keeps input s (fun _ q => q) (Keeps.refl _ s)

/-- A clean edge far enough from the channel's last, with the delay loop locked, is one step at its own time. -/
theorem pinStep_clean {k t : Nat} {fwd : Bool} {s : State} (hl : s.clk.dllLock = true)
    (ht : ∀ u, (channel s k).lastEdge = some u → u + 1024 ≤ t) : pinStep k t fwd true s = paceStep k t (if fwd then 1 else -1) false s := by
  unfold pinStep
  cases e : (channel s k).lastEdge with
  | none => simp [hl]
  | some u =>
    have := ht u e
    simp [hl, show ¬t < u + 1024 by omega]

/-- A clean edge that one channel of stopped planes selects is that channel's step and nothing else. -/
theorem paceEdge_one {input k t : Nat} {rising dir : Bool} {s : State} (hk : k < 4) (hsrc : pcSrc s k = input + 1)
    (hone : ∀ j < 4, j ≠ k → pcSrc s j ≠ input + 1) (hr : rising = true ∨ rbit s (Reg.KLN_PC_CFG k) 8 = true)
    (hl : s.clk.dllLock = true) (hg : ∀ u, (channel s k).lastEdge = some u → u + 1024 ≤ t) (hs : AllStopped s) (h4 : input + 1 ≠ 4) :
    ∃ ts trail, channel (paceEdge input t rising dir true s) k =
      stepped false ts trail t (if dir != rbit s (Reg.KLN_PC_CFG k) 9 then 1 else -1) (channel s k) := by
  have hv := stampStep_only input (advanceTo t s)
  have hkv : (stampStep input (advanceTo t s)).kln = s.kln := (hv.only .kln (by decide)).trans (advance_kln t s)
  have hrd : ∀ j, rd (stampStep input (advanceTo t s)) (Reg.KLN_PC_CFG j) = rd s (Reg.KLN_PC_CFG j) := fun j =>
    (hv.rd (by simp)).trans (advance_rd t s (by simp))
  have hlv : (stampStep input (advanceTo t s)).clk.dllLock = true := by rw [stampStep_lock, advance_clk, hl]
  have hcv : channel (stampStep input (advanceTo t s)) k = channel s k := by rw [channel, channel, hkv]
  obtain ⟨h1, ⟨ts, trail, h2⟩, h3⟩ := followSteps_steps k t (if dir != rbit s (Reg.KLN_PC_CFG k) 9 then 1 else -1) false
    (hs.congr (congrArg Kiln.planes hkv))
  have hpin := (pinStep_clean (fwd := dir != rbit s (Reg.KLN_PC_CFG k) 9) hlv (by rwa [hcv])).trans (paceStep_stopped h1)
  refine ⟨ts, trail, ?_⟩
  rw [hcv, pcSrc, rf_congr (hrd k), show rf s (Reg.KLN_PC_CFG k) 2 0 = input + 1 from hsrc, decide_eq_false h4] at h2
  rw [← h2]
  refine congrArg (fun u => channel u k) (foldl_one List.nodup_range (List.mem_range.mpr hk) ?_ ?_ ?_)
  · refine fun j hj hne => if_neg fun hc => hone j (List.mem_range.mp hj) hne ?_
    rw [← hc.1, pcSrc, pcSrc, rf_congr (hrd j)]
  · rw [pcSrc, rbit_congr (hrd k), rbit_congr (hrd k), rf_congr (hrd k)]
    exact (if_pos ⟨hsrc, hr⟩).trans hpin
  · refine fun j hj hne => if_neg fun hc => hone j (List.mem_range.mp hj) hne ?_
    rw [← hc.1, pcSrc, pcSrc, rf_congr ((h3 j).trans (hrd j))]

/-- Settles O21: each command and event through the lemma that says what it makes of its planes, its row or its channel. -/
theorem pressCommandsRun : Obligations.PressCommandsRun := by
  refine ⟨?start, ?stop, ?stopped, ?status, ?step, ?shift, ?under, ?fire⟩
  case start =>
    intro d mask s ha hrun hto hp
    have hp' : ∀ p ∈ maskBits 16 mask.toNat, MayStart (taken d s) p := fun p hm => by
      obtain ⟨h1, h2, h3, h4, h5, h6⟩ := hp p hm
      exact ⟨h1, h2, h3, h4, h5, h6⟩
    have hbody : bodyKilnStart (hdrOf d s) (.kilnStart d mask) mask.toNat (taken d s) =
        ok (hdrOf d s) 0 (refreshLt (startPlanes (hdrOf d s).seq (lowestSlot s) (maskBits 16 mask.toNat) (taken d s))) :=
      (wake_run (s := taken d s) hrun hto).trans (kilnStart_starts hp')
    refine admitted_next ha rfl (streamObjs_nil rfl _ _) (bodyKilnStart_keeps _ _ _ _ (by decide) ((taken_only d s).mono (by decide))) ?_
    rw [hbody]
    have hk := startPlanes_keeps (hdrOf d s).seq (lowestSlot s) (maskBits 16 mask.toNat) (taken d s)
    have hl := startPlanes_alike (hdrOf d s).seq (lowestSlot s) (maskBits 16 mask.toNat) (taken d s)
    have hpl := fun p hm => startPlanes_leadsIn (group := (hdrOf d s).seq) (slot := lowestSlot s) (p := p)
      (ps := maskBits 16 mask.toNat) hm (taken d s)
    generalize startPlanes (hdrOf d s).seq (lowestSlot s) (maskBits 16 mask.toNat) (taken d s) = u at hk hl hpl ⊢
    refine ⟨complete_completed_alike 0 0 (hl.trans (RingsAlike.of_keeps (refreshLt_only u) (by decide))) ?_ ?_ ?_, fun p hm => ?_⟩
    · rw [(refreshLt_only u).only .fw (by decide), hk.only .fw (by decide)]
      rfl
    · exact (stamp_keeps (refreshLt_only u) (by decide)).trans ((stamp_keeps hk (by decide)).trans rfl)
    · refine Eq.trans ?_ ((canIssue_keeps hk (by decide)).trans rfl)
      rw [canIssue, canIssue, refreshLt_cfg]
    · rw [plane_ok, plane_congr ((refreshLt_only u).only .kln (by decide))]
      obtain ⟨h1, h2, h3⟩ := hpl p hm
      exact ⟨h1, h2, h3⟩
  case stop =>
    intro d mask s ha hn hp
    refine admitted_next ha rfl (streamObjs_nil rfl _ _) (bodyKilnStop_keeps _ _ _ _ (by decide) ((taken_only d s).mono (by decide))) ?_
    rw [bodyKilnStop_stops (s := taken d s) hn hp]
    refine ⟨parkAccepted_accepted _ _ _ (((stopPlanes_alike _ (taken d s)).field (·.ci) (fun _ => rfl) _).trans (taken_ci d s)), fun p hm => ?_⟩
    exact stopPlanes_stopping hm (s := taken d s) (hp p hm)
  case stopped =>
    intro q d mask s hf hc ha hw
    refine next_at (execKilnStopDone_keeps q.h.seq s) (by decide) (congrArg Host.Outcome.next
      (completeDone_completes hf (by rw [hc]) ha hw)) (complete_finished_only 0 0 (Keeps.refl [] s) (by decide))
  case status =>
    intro d s ha
    exact admitted_next ha rfl (streamObjs_nil rfl _ _) (ok_taken_keeps d _ s) (taken_completed d _ s)
  case step =>
    intro input rising dir t k s hk hsrc hone hr hl hg hs
    refine next_at (execPaceStepEdge_keeps input rising dir true t s) (by decide) rfl ?_
    obtain ⟨ts, trail, h⟩ := paceEdge_one (dir := dir) hk hsrc hone hr hl hg hs (by omega)
    rw [h]
    exact ⟨rfl, rfl, rfl⟩
  case shift =>
    intro h t p r dl f rest x s hp hs hl ht hb hd hx
    refine next_at (execKilnSheafShift_keeps h t s) (by decide) rfl ?_
    obtain ⟨ready, m, he⟩ := sheafShift_sends hp hs hl ht hb hd hx
    rw [he, row_congr (sendCodes_kln _ _ _ _ _), sendCodes_busy, port_updPort_self]
    rw [row_updPort, row_wn, row_updRow_self, row_advance]
    exact ⟨rfl, rfl, ⟨_, List.mem_append_right _ (List.mem_singleton.mpr rfl), rfl, rfl⟩, rfl⟩
  case under =>
    intro h r t p l s hp hst hl hls ht hw hh htr
    refine next_at (execRowLineUnderrun_keeps h r t s) (by decide) rfl ?_
    obtain ⟨blank, codes, he⟩ := rowUnderrun_declares hp hst hl hls ht hw hh htr
    have hs := sendUnderrun_keeps_press h.val r.val t.toNat blank codes
      (declareUnderrun p h.val r.val (row s h.val r.val).nextShift blank false (advanceTo t.toNat s))
    obtain ⟨h1, h2, h3⟩ := declareUnderrun_declares p h.val r.val blank (advanceTo t.toNat s)
      (congrArg Row.nextShift (row_advance t.toNat s h.val r.val))
    rw [he, row_congr (hs.only .kln (by decide)), hs.rn (by simp)]
    exact ⟨h1, h2.trans (by rw [rn_congr (advance_rd t.toNat s (by simp))]), h3⟩
  case fire =>
    intro h p i r e codes line slot ready s hp hn hf hl ht
    refine next_at (execFireEdge_keeps h s) (by decide) rfl ?_
    obtain ⟨lead, trail, tap, u, hu, hle, htap, he⟩ := fireEdge_fires hp hn hf hl ht
    rw [he]
    have hpl : ∀ (v : State), (pulseLeft h.val v).kln = v.kln := fun v =>
      (pulseLeft_keeps h.val v (fun _ q => q) (Keeps.refl _ v)).only .kln (by decide)
    rw [row_heads (winCodes_heads _ _ _ _ _ _ _), row_congr (hpl _), row_updRow_self, khead_heads (winCodes_heads _ _ _ _ _ _ _), khead_heads (congrArg Kiln.heads (hpl _)),
      row_updHead_rows _ _ _ rfl, row_congr (s := s) (t := emit (.fire h.val r lead tap) u) hu]
    have hlead : (khead (updRow h.val r (firedRow e codes trail) (updHead h.val (fun g => { g with lastLead := lead })
        (emit (.fire h.val r lead tap) u))) h.val).lastLead = lead := by
      rw [updRow, khead_updHead_self, khead_updHead_self]
    rw [hlead]
    exact ⟨rfl, rfl, hle, tap, htap, winCodes_out _ _ _ _ _ _ _ _ (pulseLeft_out _ _ _ List.mem_cons_self)⟩

end Sys2Proof.Machine
end

section
/-! SUPPORT. The refutation of what the nozzle commands are said to do (O19). -/

namespace Sys2Proof.Machine
open Sys2Proof

/-- An accepted MAINT_SPIT over no head that carries what only an accepted QUOTA_GRANT carries: something to undo, 1 ms after it was parked. -/
def spitWithUndo : Parked :=
  { h := { d := { ring := 0, tag := 0, fence := false, quiet := false, rsvd := false, flaw := .none }, ci := 1, tenant := 0, paired := 1,
           seq := 0 },
    cmd := .maintSpit { ring := 0, tag := 0, fence := false, quiet := false, rsvd := false, flaw := .none } 0 2 1,
    accepted := true, pages := [], slot := 0, late := false, waits := [], objs := [], since := 0, undo := some (0, 0, 0) }

/-- That command has two drops left, and its millisecond has passed. -/
def spitWithUndoState : State :=
  { State.reset with
    fw := { State.reset.fw with parked := [spitWithUndo] }
    til := { State.reset.til with spits := [(0, 2)] }
    clock := { State.reset.clock with fire := BitVec.ofNat 64 (ms + 1) } }

/-- A resumption takes a command that has something to undo for an overdue QUOTA_GRANT, and nothing of another command is undone: no drop fires. -/
theorem resume_spitWithUndo : exec (.parkedCommandResume spitWithUndo.h.seq) spitWithUndoState = .next spitWithUndoState := rfl

/-- Refutes O19: the clause on MAINT_SPIT's drops leaves `undo` of the parked command free, and `resume` looks at it before it looks at the
command. The command of `spitWithUndoState` meets every hypothesis, its resumption changes nothing, and its drops left stay 2 where the
statement has 1. (No step of the model gives a MAINT_SPIT something to undo.) -/
theorem not_nozzleCommandsRun : ¬ Obligations.NozzleCommandsRun := by
  rintro ⟨-, -, -, -, -, -, h⟩
  obtain ⟨t, he, ⟨-, hleft, -⟩, -⟩ := h spitWithUndo _ 0 2 1 2 spitWithUndoState rfl rfl rfl rfl (by decide) (by decide) rfl
  obtain rfl := Host.Outcome.next.inj (resume_spitWithUndo.symm.trans he)
  have h1 : some 2 = some 1 := (hleft (by decide)).2
  exact absurd h1 (by decide)

end Sys2Proof.Machine
end

section
/-! SUPPORT. The proofs of what Thresher's preparation of streams does (O41). -/

namespace Sys2Proof.Machine
open Sys2Proof

/-! ## Streams found after a change of one -/

/-- A change of a stream that keeps names acts on the streams found under its name, and on no other. -/
theorem findStream_updStream_any {t h : Nat} {f : Stream → Stream}
    (hf : ∀ x, (f x).tenant = x.tenant ∧ (f x).handle = x.handle) (s : State) (a b : Nat) : findStream (updStream t h f s) a b =
      (findStream s a b).map fun x => if x.tenant = t ∧ x.handle = h then f x else x := by
  have hp : (fun x : Stream => decide (x.tenant = a ∧ x.handle = b)) ∘ (fun x => if x.tenant = t ∧ x.handle = h then f x else x) =
      fun x => decide (x.tenant = a ∧ x.handle = b) := by
    funext x
    dsimp only [Function.comp]
    split <;> simp [hf]
  show List.find? _ (List.map _ _) = _
  rw [List.find?_map, hp]
  rfl

theorem findStream_congr {s u : State} (h : u.jobs.streams = s.jobs.streams) (a b : Nat) : findStream u a b = findStream s a b := by
  rw [findStream, findStream, h]

theorem findStream_updated {t h : Nat} {f : Stream → Stream} {x : Stream} {s : State}
    (hf : ∀ x, (f x).tenant = x.tenant ∧ (f x).handle = x.handle) (hx : findStream s t h = some x) :
    findStream (updStream t h f s) t h = some (f x) := by
  rw [findStream_updStream hf, hx]
  rfl

/-! ## The start of a preparation (R164, R606) -/

/-- A stream whose preparation begins with some plaintext. -/
def Stream.begun (plain : List Byte) (x : Stream) : Stream := { x with prep := .busy none, plain, sealedPage := none }

/-- A stream that its unsealing has found bad. -/
def Stream.found (reason num : Nat) (x : Stream) : Stream := { x with prep := .busy (some (reason, num)), plain := [] }

/-- The stream whose turn it is leaves the order and is the one in preparation. -/
def enterPreparation (t h : Nat) (segs : Option Unseal) (s : State) : State :=
  { s with thr := { s.thr with ready := s.thr.ready.drop 1, preparing := some (t, h), segs } }

/-- The unsealing of a stream as it begins: every segment is left, in offset order. -/
def Stream.unseal (x : Stream) (t : Nat) : Unseal :=
  { rest := x.descs.foldl (fun l d => insertDesc d l) [], prev := none, began := t, taken := 0 }

section
variable {t h : Nat} {x : Stream} {rest : List (Nat × Nat)} {s : State} (hp : s.thr.preparing = none)
  (hr : s.thr.ready = (t, h) :: rest) (hx : findStream s t h = some x)
include hp hr hx

/-- A stream whose turn it is enters preparation: an unsealed one, one with an unsealed descriptor, or one sealed throughout. -/
theorem streamPrepare_turn : streamPrepare t h s =
    if !x.sealed then updStream t h (Stream.begun x.bytes) (enterPreparation t h none s)
    else if !x.descs.all (·.2.2) then unsealFail t h gSegment 0 (enterPreparation t h none s)
    else unsealDue (updStream t h (Stream.begun []) (enterPreparation t h (some (x.unseal (now s))) s)) := by
  have hturn : ¬(s.thr.preparing.isSome ∨ s.thr.ready.head? ≠ some (t, h)) := by simp [hp, hr]
  rw [streamPrepare, if_neg hturn]
  simp only [hx]
  rfl

theorem streamPrepare_unsealed (hs : x.sealed = false) :
    streamPrepare t h s = updStream t h (Stream.begun x.bytes) (enterPreparation t h none s) := by
  rw [streamPrepare_turn hp hr hx, hs]
  rfl

theorem streamPrepare_mixed (hs : x.sealed = true) (hd : x.descs.all (·.2.2) = false) :
    streamPrepare t h s = unsealFail t h gSegment 0 (enterPreparation t h none s) := by
  rw [streamPrepare_turn hp hr hx, hs, hd]
  rfl

theorem streamPrepare_sealed (hs : x.sealed = true) (hd : x.descs.all (·.2.2) = true) : streamPrepare t h s =
    unsealDue (updStream t h (Stream.begun []) (enterPreparation t h (some (x.unseal (now s))) s)) := by
  rw [streamPrepare_turn hp hr hx, hs, hd]
  rfl

end

/-- A stream is in preparation, before the streams `rest`. -/
structure Preparing (t h : Nat) (rest : List (Nat × Nat)) (s : State) : Prop where
  preparing : s.thr.preparing = some (t, h)
  ready : s.thr.ready = rest
  busy : ∃ y e, findStream s t h = some y ∧ y.prep = .busy e

/-- A change of the stream that leaves it busy leaves it in preparation. -/
theorem Preparing.updStream {t h : Nat} {rest : List (Nat × Nat)} {s u : State} {f : Stream → Stream} (k : Preparing t h rest s)
    (hn : ∀ x, (f x).tenant = x.tenant ∧ (f x).handle = x.handle) (hf : ∀ x e, x.prep = .busy e → ∃ e', (f x).prep = .busy e')
    (hj : u.jobs = s.jobs) (hp : u.thr.preparing = s.thr.preparing) (hr : u.thr.ready = s.thr.ready) :
    Preparing t h rest (updStream t h f u) := by
  obtain ⟨y, e, hy, he⟩ := k.busy
  obtain ⟨e', he'⟩ := hf y e he
  exact ⟨hp.trans k.preparing, hr.trans k.ready, f y, e',
    findStream_updated hn ((findStream_congr (congrArg Jobs.streams hj) t h).trans hy), he'⟩

theorem Preparing.unsealFail {t h : Nat} {rest : List (Nat × Nat)} {s : State} (k : Preparing t h rest s) (reason num : Nat) :
    Preparing t h rest (unsealFail t h reason num s) :=
  k.updStream (fun _ => ⟨rfl, rfl⟩) (fun _ _ _ => ⟨_, rfl⟩) rfl rfl rfl

theorem Preparing.unsealNext {t h : Nat} {rest : List (Nat × Nat)} {s : State} (k : Preparing t h rest s) (u : Unseal) :
    Preparing t h rest (unsealNext t h u s) := by
  unfold Machine.unsealNext
  split
  · split
    · split
      · exact k.updStream (fun _ => ⟨rfl, rfl⟩) (fun _ e he => ⟨e, he⟩) rfl rfl rfl
      · exact k.unsealFail _ _
    · exact k.unsealFail _ _
  · exact k

theorem Preparing.unsealRun {t h : Nat} {rest : List (Nat × Nat)} (due : Option Nat) (n : Nat) {s : State} (k : Preparing t h rest s) :
    Preparing t h rest (unsealRun due n s) := by
  induction n generalizing s with
  | zero => exact k
  | succ n ih =>
    unfold Machine.unsealRun
    split
    next a b hu hab =>
      obtain ⟨rfl, rfl⟩ : (t, h) = (a, b) := Option.some.inj (k.preparing.symm.trans hab)
      split
      · exact k
      · exact ih (k.unsealNext _)
    next => exact k

/-- The stream whose turn it is enters preparation. -/
theorem streamPrepare_preparing {t h : Nat} {x : Stream} {rest : List (Nat × Nat)} {s : State} (hp : s.thr.preparing = none)
    (hr : s.thr.ready = (t, h) :: rest) (hx : findStream s t h = some x) : Preparing t h rest (streamPrepare t h s) := by
  have hbusy : ∀ (segs : Option Unseal) (f : Stream → Stream) (e : Option (Nat × Nat)),
      (∀ y, (f y).tenant = y.tenant ∧ (f y).handle = y.handle) → (∀ y, (f y).prep = .busy e) →
      Preparing t h rest (updStream t h f (enterPreparation t h segs s)) := fun segs f e hn hf =>
    ⟨rfl, by show s.thr.ready.drop 1 = rest; rw [hr]; rfl,
      f x, e, findStream_updated hn hx, hf x⟩
  cases hs : x.sealed with
  | false =>
    rw [streamPrepare_unsealed hp hr hx hs]
    exact hbusy none (Stream.begun x.bytes) none (fun _ => ⟨rfl, rfl⟩) fun _ => rfl
  | true =>
    cases hd : x.descs.all (·.2.2) with
    | false =>
      rw [streamPrepare_mixed hp hr hx hs hd]
      exact hbusy none (Stream.found gSegment 0) (some (gSegment, 0)) (fun _ => ⟨rfl, rfl⟩) fun _ => rfl
    | true =>
      rw [streamPrepare_sealed hp hr hx hs hd]
      exact (hbusy (some (x.unseal (now s))) (Stream.begun []) none (fun _ => ⟨rfl, rfl⟩) fun _ => rfl).unsealRun _ _

theorem thrStreamPrepare_prepares (ten : Fin 1024) (h : Word) (x : Stream) (rest : List (Nat × Nat)) (s : State)
    (hp : s.thr.preparing = none) (hr : s.thr.ready = (ten.val, h.toNat) :: rest) (hx : findStream s ten.val h.toNat = some x) :
    ∃ t, exec (.thrStreamPrepare ten h) s = .next t ∧
      (t.thr.preparing = some (ten.val, h.toNat) ∧ t.thr.ready = rest ∧
        (x.sealed = false → findStream t ten.val h.toNat = some { x with prep := .busy none, plain := x.bytes, sealedPage := none }) ∧
        (x.sealed = true → x.descs.all (·.2.2) = false →
          findStream t ten.val h.toNat = some { x with prep := .busy (some (gSegment, 0)), plain := [] }) ∧
        ∃ y e, findStream t ten.val h.toNat = some y ∧ y.prep = .busy e) ∧
      Only [.jobs, .thr] s t := by
  have k := streamPrepare_preparing hp hr hx
  refine next_at (execThrStreamPrepare_keeps ten h s) (fun _ q => q) rfl
    ⟨k.preparing, k.ready, fun hs => ?_, fun hs hd => ?_, k.busy⟩
  · rw [streamPrepare_unsealed hp hr hx hs]
    exact findStream_updated (f := Stream.begun x.bytes) (fun _ => ⟨rfl, rfl⟩) hx
  · rw [streamPrepare_mixed hp hr hx hs hd]
    exact findStream_updated (f := Stream.found gSegment 0) (fun _ => ⟨rfl, rfl⟩) hx

/-! ## What voiding copies leaves of Thresher -/

theorem tfind_filter_none {α : Type} {l : Tab α} {k : Nat} (p : Nat × α → Bool) (h : tfind l k = none) : tfind (l.filter p) k = none := by
  induction l with
  | nil => rfl
  | cons e r ih =>
    obtain ⟨j, v⟩ := e
    rw [tfind] at h
    split at h
    next => cases h
    next hj =>
      rw [List.filter_cons]
      split
      · rw [tfind, if_neg hj]
        exact ih h
      · exact ih h

/-- From `s` to `t` the stream in preparation stays, a free lane stays free, and every stream stays as it was prepared, though the pages
it is bad for may be others. -/
structure WorkKept (s t : State) : Prop where
  preparing : t.thr.preparing = s.thr.preparing
  lanes : ∀ k, tfind s.thr.lanes k = none → tfind t.thr.lanes k = none
  streams : ∀ a b x, findStream s a b = some x → ∃ bad, findStream t a b = some { x with badFor := bad }

theorem WorkKept.of_eq {s t : State} (hp : t.thr.preparing = s.thr.preparing)
    (hl : ∀ k, tfind s.thr.lanes k = none → tfind t.thr.lanes k = none) (hs : t.jobs.streams = s.jobs.streams) : WorkKept s t :=
  ⟨hp, hl, fun a b x hx => ⟨x.badFor, (findStream_congr hs a b).trans hx⟩⟩

theorem WorkKept.refl (s : State) : WorkKept s s := .of_eq rfl (fun _ h => h) rfl

theorem WorkKept.trans {s t u : State} (h : WorkKept s t) (k : WorkKept t u) : WorkKept s u := by
  refine ⟨k.preparing.trans h.preparing, fun n hn => k.lanes n (h.lanes n hn), fun a b x hx => ?_⟩
  obtain ⟨bad, hy⟩ := h.streams a b x hx
  obtain ⟨bad', hz⟩ := k.streams a b _ hy
  exact ⟨bad', hz⟩

theorem WorkKept.of_thr {s t : State} (h : t.thr = s.thr) (hs : t.jobs.streams = s.jobs.streams) : WorkKept s t :=
  .of_eq (by rw [h]) (fun _ hk => by rwa [h]) hs

theorem WorkKept.of_keeps {ps : List Part} {s t : State} (k : Keeps ps s t) (h : Part.jobs ∉ ps ∧ Part.thr ∉ ps) : WorkKept s t :=
  .of_thr (k.only .thr h.2) (congrArg Jobs.streams (k.only .jobs h.1))

theorem WorkKept.foldl {α : Type} {g : State → α → State} (hg : ∀ u x, WorkKept u (g u x)) (l : List α) (s : State) :
    WorkKept s (l.foldl g s) := by
  induction l generalizing s with
  | nil => exact WorkKept.refl s
  | cons x l ih => exact (hg s x).trans (ih _)

theorem discardWork_work (c : Nat) (s : State) : WorkKept s (discardWork c s) := .of_eq rfl (fun _ h => tfind_filter_none _ h) rfl

theorem appendReceipt_work (t : Nat) (slot : Bool) (body : Nat → List Byte) (s : State) : WorkKept s (appendReceipt t slot body s) :=
  .of_keeps (appendReceipt_keeps t slot body s (fun _ q => q) (Keeps.refl _ s)) (by decide)

theorem closeBatch_work (t : Nat) (s : State) : WorkKept s (closeBatch t s) :=
  .of_keeps (closeBatch_keeps t s (fun _ q => q) (Keeps.refl _ s)) (by decide)

theorem updCopy_work (c : Nat) (f : Copy → Copy) (s : State) : WorkKept s (updCopy c f s) := .of_thr rfl rfl

theorem sealCopy_work (c : Nat) (s : State) : WorkKept s (sealCopy c s) := by
  unfold sealCopy
  split
  next x hx =>
    extract_lets void mask t2 slot s1 s2 s3 jobs3 s4
    have h2 : WorkKept s s2 := by
      unfold s2
      split
      · exact updCopy_work _ _ s
      · exact .of_thr rfl rfl
    have h3 : WorkKept s s3 := h2.trans (appendReceipt_work _ _ _ _)
    have hgone : WorkKept s3 { s3 with jobs := { s3.jobs with copies := s3.jobs.copies.filter (·.seq ≠ c) } } := .of_thr rfl rfl
    have h4 : WorkKept s s4 := (h3.trans hgone).trans (discardWork_work c _)
    split
    · exact WorkKept.refl s
    split
    · exact h3
    split
    · exact h4
    · exact h4.trans (closeBatch_work _ _)
  next => exact WorkKept.refl s

theorem sealVoid_work (c : Nat) (s : State) : WorkKept s (sealVoid c s) := by
  unfold sealVoid
  split
  · split
    · exact (updCopy_work _ _ s).trans (sealCopy_work c _)
    · exact WorkKept.refl s
  · exact WorkKept.refl s

theorem voidCopy_work (c : Nat) (corrupt : Bool) (s : State) : WorkKept s (voidCopy c corrupt s) := by
  unfold voidCopy
  split
  · split
    · refine WorkKept.trans ?_ (sealVoid_work c _)
      refine WorkKept.trans ?_ (discardWork_work c _)
      exact .of_thr rfl rfl
    · exact WorkKept.refl s
  · exact WorkKept.refl s

theorem refreshIdle_work (s : State) : WorkKept s (refreshIdle s) := .of_keeps (refreshIdle_only s) (by decide)

theorem readyCopy_work (c : Nat) (s : State) : WorkKept s (readyCopy c s) := by
  have hceil : ∀ t, WorkKept s (ceilingCheck t s) := fun t =>
    .of_keeps (ceilingCheck_keeps t s (fun _ q => q) (Keeps.refl _ s)) (by decide)
  unfold readyCopy
  split
  · split
    · extract_lets s1 below
      split
      · exact (hceil _).trans (updCopy_work _ _ _)
      · exact hceil _
    · exact WorkKept.refl s
  · exact WorkKept.refl s

theorem refreshReady_work (s : State) : WorkKept s (refreshReady s) :=
  (WorkKept.foldl (fun u c => sealVoid_work c u) _ s).trans (WorkKept.foldl (fun u c => readyCopy_work c u) _ _)

theorem voidPage_work (t j p : Nat) (s : State) : WorkKept s (voidPage t j p s) :=
  (WorkKept.foldl (fun u c => voidCopy_work c true u) _ s).trans (refreshIdle_work _)

theorem streamBad_work (t h reason seg : Nat) (s : State) : WorkKept s (streamBad t h reason seg s) :=
  .of_keeps (streamBad_keeps t h reason seg s (fun _ q => q) (Keeps.refl _ s)) (by decide)

/-- A stream that is bad for one more page. -/
def Stream.badForToo (q : Nat × Nat) (x : Stream) : Stream := { x with badFor := q :: x.badFor }

theorem badForToo_work (t h : Nat) (q : Nat × Nat) (s : State) : WorkKept s (updStream t h (Stream.badForToo q) s) := by
  refine ⟨rfl, fun _ hk => hk, fun a b x hx => ?_⟩
  rw [findStream_updStream_any (f := Stream.badForToo q) fun _ => ⟨rfl, rfl⟩, hx, Option.map_some]
  split
  · exact ⟨_, rfl⟩
  · exact ⟨x.badFor, rfl⟩

theorem checkPage_work (t : Template) (s : State) : WorkKept s (checkPage t s) := by
  refine WorkKept.foldl (fun u q => ?_) _ s
  split
  · split
    · split
      · exact ((badForToo_work _ _ _ u).trans (streamBad_work _ _ _ _ _)).trans (voidPage_work _ _ _ _)
      · exact WorkKept.refl u
    · exact WorkKept.refl u
  · exact WorkKept.refl u

/-! ## The end of a preparation (R164, R165) -/

/-- The preparation in progress is over. -/
def endPreparation (s : State) : State := { s with thr := { s.thr with preparing := none, segs := none } }

/-- A stream whose headers and indexes are good, with what they say. -/
def Stream.mapped (m : GristMap) (x : Stream) : Stream :=
  { x with prep := .good, level := m.level, width := m.width, height := m.height, blocks := m.blocks }

/-- A stream found bad as a whole. -/
def Stream.judgedBad (reason : Nat) (x : Stream) : Stream := { x with prep := .bad reason, plain := [] }

/-- With no segment left to start, none starts. -/
theorem unsealRun_none {due : Option Nat} (n : Nat) {s : State} (h : s.thr.segs = none) : unsealRun due n s = s := by
  cases n with
  | zero => rfl
  | succ n => rw [unsealRun, h]

section
variable {a h : Nat} {x : Stream} {s : State} (hp : s.thr.preparing = some (a, h)) (hs : s.thr.segs = none)
  (hx : findStream s a h = some x)
include hp hs hx

theorem streamPrepared_good {m : GristMap} (hb : x.prep = .busy none) (hm : gristMap x.plain = some m) :
    WorkKept (updStream a h (Stream.mapped m) (endPreparation s)) (streamPrepared s) := by
  have e : streamPrepared s =
      refreshReady ((namingPages (updStream a h (Stream.mapped m) (endPreparation s)) a h).foldl (fun u x => checkPage x u)
        (updStream a h (Stream.mapped m) (endPreparation s))) := by
    simp only [streamPrepared, hp, unsealRun_none _ hs, hx, hb, hm]
    rfl
  rw [e]
  exact (WorkKept.foldl (fun u t => checkPage_work t u) _ _).trans (refreshReady_work _)

theorem streamPrepared_bad {r n : Nat}
    (hb : x.prep = .busy (some (r, n)) ∨ (x.prep = .busy none ∧ gristMap x.plain = none ∧ r = gStruct ∧ n = 0)) :
    WorkKept (updStream a h (Stream.judgedBad r) (endPreparation s)) (streamPrepared s) := by
  have e : streamPrepared s = badStream a h r n (endPreparation s) := by
    rcases hb with hb | ⟨hb, hm, rfl, rfl⟩
    · simp only [streamPrepared, hp, unsealRun_none _ hs, hx, hb]
      rfl
    · simp only [streamPrepared, hp, unsealRun_none _ hs, hx, hb, hm]
      rfl
  rw [e]
  exact (streamBad_work _ _ _ _ _).trans (WorkKept.foldl (fun u t => voidPage_work _ _ _ u) _ _)

end

/-- The stream whose preparation has ended, as the end of it leaves it. -/
theorem WorkKept.prepared {a h : Nat} {f : Stream → Stream} {x : Stream} {s t : State} (hx : findStream s a h = some x)
    (hn : ∀ x, (f x).tenant = x.tenant ∧ (f x).handle = x.handle) (k : WorkKept (updStream a h f (endPreparation s)) t) :
    t.thr.preparing = none ∧ ∃ bad, findStream t a h = some { f x with badFor := bad } :=
  ⟨k.preparing, k.streams a h (f x) (findStream_updated hn hx)⟩

/-- The parts that the judging of a stream and the abandoning of a block may change. -/
def thresherParts : List Part :=
  [.crk, .free, .glz, .hif, .jobs, .kln, .msix, .out, .reg .hif, .reg .klnC, .reg .stk, .reg .thr, .rings, .sag, .stk, .thr]

theorem thrStreamPrepared_judges (a h : Nat) (x : Stream) (s : State) (hp : s.thr.preparing = some (a, h)) (hs : s.thr.segs = none)
    (hx : findStream s a h = some x) :
    (∀ m, x.prep = .busy none → gristMap x.plain = some m →
      ∃ t, exec .thrStreamPrepared s = .next t ∧
        (t.thr.preparing = none ∧ ∃ y, findStream t a h = some y ∧ y.prep = .good ∧ y.level = m.level ∧ y.width = m.width ∧
          y.height = m.height ∧ y.blocks = m.blocks ∧ y.plain = x.plain) ∧
        Only thresherParts s t) ∧
    (∀ r n, x.prep = .busy (some (r, n)) ∨ (x.prep = .busy none ∧ gristMap x.plain = none ∧ r = gStruct ∧ n = 0) →
      ∃ t, exec .thrStreamPrepared s = .next t ∧
        (t.thr.preparing = none ∧ ∃ y, findStream t a h = some y ∧ y.prep = .bad r ∧ y.plain = []) ∧
        Only thresherParts s t) := by
  refine ⟨fun m hb hm => next_at (execThrStreamPrepared_keeps s) (fun _ q => q) rfl ?_,
    fun r n hb => next_at (execThrStreamPrepared_keeps s) (fun _ q => q) rfl ?_⟩
  · obtain ⟨hnone, bad, hy⟩ := WorkKept.prepared (f := Stream.mapped m) hx (fun _ => ⟨rfl, rfl⟩) (streamPrepared_good hp hs hx hb hm)
    exact ⟨hnone, _, hy, rfl, rfl, rfl, rfl, rfl, rfl⟩
  · obtain ⟨hnone, bad, hy⟩ := WorkKept.prepared (f := Stream.judgedBad r) hx (fun _ => ⟨rfl, rfl⟩) (streamPrepared_bad hp hs hx hb)
    exact ⟨hnone, _, hy, rfl, rfl⟩

end Sys2Proof.Machine
end

section
/-! SUPPORT. The proofs of what Thresher's lanes do with blocks (O41). -/

namespace Sys2Proof.Machine
open Sys2Proof

/-! ## The start of a block (R166, R172) -/

/-- The first block of a copy on a plane takes the budget in force (R170). -/
def Copy.budgeted (plane budget : Nat) (x : Copy) : Copy :=
  if (tfind x.budget plane).isSome then x else { x with budget := tput x.budget plane budget }

theorem Copy.budgeted_seq (plane budget : Nat) (x : Copy) : (x.budgeted plane budget).seq = x.seq := by
  unfold Copy.budgeted
  split <;> rfl

theorem Copy.budgeted_budget (plane budget : Nat) (x : Copy) : (tfind (x.budgeted plane budget).budget plane).isSome = true := by
  unfold Copy.budgeted
  split
  · assumption
  · rw [tfind_tput_self]
    rfl

/-- A block leaves the queue, and its copy has a budget on its plane. -/
def takeBlock (j : BlockJob) (s : State) : State :=
  updCopy j.copy (fun x => x.budgeted j.plane (planeBudget s x j.plane)) { s with thr := { s.thr with queue := s.thr.queue.erase j } }

/-- A block in decode in a lane. -/
def putLane (lane : Nat) (l : Lane) (s : State) : State := { s with thr := { s.thr with lanes := tput s.thr.lanes lane l } }

theorem takeBlock_keeps {ps : List Part} {σ : State} (j : BlockJob) (s : State) (hp : ∀ p ∈ [Part.jobs, Part.thr], p ∈ ps)
    (h : Keeps ps σ s) : Keeps ps σ (takeBlock j s) :=
  updCopy_keeps _ _ _ (Keeps.sub (by decide) hp) (Keeps.set_thr (hp _ (by decide)) h)

theorem takeBlock_budget (j : BlockJob) (s : State) :
    ∀ x, findCopy (takeBlock j s) j.copy = some x → (tfind x.budget j.plane).isSome = true := by
  intro x hx
  rw [takeBlock, findCopy_updCopy _ _ fun _ => Copy.budgeted_seq _ _ _] at hx
  obtain ⟨y, -, rfl⟩ := Option.map_eq_some_iff.mp hx
  exact Copy.budgeted_budget _ _ _

/-- Where the budget is off no block is past it (R170). -/
theorem overBudget_off {s : State} (h : rbit s Reg.THR_CTRL 0 = false) (x : Copy) (l : Lane) (c : Nat) : overBudget s x l c = false := by
  rw [overBudget, h, Bool.false_and]

/-- With the budget off a lane that takes a block has it in decode. -/
theorem laneStart_decodes {lane : Nat} {j : BlockJob} {s : State} (hr : (jobResult s j).isSome = true)
    (hb : rbit s Reg.THR_CTRL 0 = false) : laneStart lane j s = putLane lane ⟨j, now s, 0⟩ (takeBlock j s) := by
  obtain ⟨r, hr⟩ := Option.isSome_iff_exists.mp hr
  have hr' : jobResult (takeBlock j s) j = some r := hr
  unfold laneStart
  extract_lets l thr0 s1 past
  have hpast : past = false := by
    unfold past
    split
    · exact overBudget_off hb _ _ _
    · rfl
  rw [hpast, show jobResult s1 j = some r from hr']
  rfl

theorem enqueueBlocks_only (s : State) : Keeps [.jobs, .thr] s (enqueueBlocks s) :=
  enqueueBlocks_keeps s (fun _ q => q) (Keeps.refl _ s)

theorem blockStart_decodes {lane : Nat} {j : BlockJob} {s : State} (hen : rbit s Reg.THR_LANE_EN lane = true)
    (hfree : tfind s.thr.lanes lane = none) (hj : nextJob (enqueueBlocks s) = some j)
    (hr : (jobResult (enqueueBlocks s) j).isSome = true) (hb : rbit s Reg.THR_CTRL 0 = false) :
    blockStart lane s = putLane lane ⟨j, now s, 0⟩ (takeBlock j (enqueueBlocks s)) := by
  have hk := enqueueBlocks_only s
  have hctrl : rbit (enqueueBlocks s) Reg.THR_CTRL 0 = false := (rbit_congr (hk.rd (by decide)) 0).trans hb
  have hnow : now (enqueueBlocks s) = now s := congrArg (fun c : Clock => c.fire.toNat) (hk.only .clock (by decide))
  simp only [blockStart, hen, hfree, hj, laneStart_decodes hr hctrl, hnow]
  rfl

theorem thrBlockStart_decodes (lane : Fin 24) (j : BlockJob) (s : State) (hen : rbit s Reg.THR_LANE_EN lane.val = true)
    (hfree : tfind s.thr.lanes lane.val = none) (hj : nextJob (enqueueBlocks s) = some j)
    (hr : (jobResult (enqueueBlocks s) j).isSome = true) (hb : rbit s Reg.THR_CTRL 0 = false) :
    ∃ t, exec (.thrBlockStart lane) s = .next t ∧
      (tfind t.thr.lanes lane.val = some ⟨j, now s, 0⟩ ∧ t.thr.queue = (enqueueBlocks s).thr.queue.erase j ∧
        ∀ x, findCopy t j.copy = some x → (tfind x.budget j.plane).isSome = true) ∧
      Only [.jobs, .thr] s t := by
  have hk : Keeps [.jobs, .thr] s (putLane lane ⟨j, now s, 0⟩ (takeBlock j (enqueueBlocks s))) :=
    Keeps.set_thr (by decide) (takeBlock_keeps j _ (fun _ q => q) (enqueueBlocks_only s))
  exact ⟨_, congrArg Host.Outcome.next (blockStart_decodes hen hfree hj hr hb),
    ⟨tfind_tput_self _ _ _, rfl, takeBlock_budget j (enqueueBlocks s)⟩, hk.only⟩

/-! ## The lines of a block (R167) -/

/-- The lines that a block's pass needs are read from the planes, Glaze's tiles and the registers of both. -/
theorem jobLines_kept {ps : List Part} {s u : State} (k : Keeps ps s u)
    (hps : Part.kln ∉ ps ∧ Part.glz ∉ ps ∧ Part.reg .klnP ∉ ps ∧ Part.reg .glz ∉ ps) (x : Copy) (j : BlockJob) :
    jobLines u x j = jobLines s x j := by
  obtain ⟨hk, hg, hrk, hrg⟩ := hps
  have hplane : ∀ p, plane u p = plane s p := plane_congr (k.only .kln hk)
  have hglz : u.glz = s.glz := k.only .glz hg
  have hpace : ∀ p a b, rf u (Reg.KLN_P_PACE_CFG p) a b = rf s (Reg.KLN_P_PACE_CFG p) a b := fun p =>
    rf_congr (k.rd (by rw [show keyKind (Reg.KLN_P_PACE_CFG p) = .klnP from keyKind_klnP 0x100 p (by decide)]; exact hrk))
  have hbidi : ∀ p a b, rf u (Reg.KLN_P_BIDI p) a b = rf s (Reg.KLN_P_BIDI p) a b := fun p =>
    rf_congr (k.rd (by rw [show keyKind (Reg.KLN_P_BIDI p) = .klnP from keyKind_klnP 0x124 p (by decide)]; exact hrk))
  have hctrl : ∀ p, rd u (Reg.KLN_P_CTRL p) = rd s (Reg.KLN_P_CTRL p) := fun p => k.rd (by rw [keyKind_KLN_P_CTRL]; exact hrk)
  have hclone : ∀ p, cloneSrc u p = cloneSrc s p := fun p => by
    rw [cloneSrc, cloneSrc, rbit_congr (hctrl p), rf_congr (hctrl p)]
  have hband : bandLines u = bandLines s := by rw [bandLines, bandLines, rf_congr (k.rd (by rw [keyKind_GLZ_BAND]; exact hrg))]
  have hplaced : ∀ p, planePlacements u x p = planePlacements s x p := fun p => by
    rw [planePlacements, planePlacements, srcPlane, srcPlane, hclone]
  have hcopy : ∀ p b, isCopyBand u x p b = isCopyBand s x p b := fun p b => by
    rw [isCopyBand, isCopyBand, hplaced, hband, hglz]
  have hscan : ∀ p, scanning u p = scanning s p := fun p => by rw [scanning, scanning, hpace]
  have hwidth : ∀ p, planeWidth u p = planeWidth s p := fun p => by rw [planeWidth, planeWidth, hplane]
  have hstart : ∀ p i, passStart u p i = passStart s p i := fun p i => by
    simp only [passStart, hpace, hbidi, hplane]
  have hpass : ∀ p i, passBand u x p i = passBand s x p i := fun p i => by
    rw [passBand, passBand, hscan, hstart, hwidth]
  simp only [jobLines, passNeed, hpass, hband, hcopy]

theorem giveLines_lanes (x : Copy) (j : BlockJob) (stride : Nat) (out : List Byte) (a b : Nat) (s : State) :
    (giveLines x j stride out a b s).thr.lanes = s.thr.lanes := rfl

theorem giveLines_rn64 (x : Copy) (j : BlockJob) (stride : Nat) (out : List Byte) (a b : Nat) (s : State) (k : Nat) :
    rn64 (giveLines x j stride out a b s) k = rn64 s k := rfl

theorem mem_giveLines_old {x : Copy} {j : BlockJob} {stride : Nat} {out : List Byte} {a b : Nat} {s : State} {d : DecLine}
    (hd : d ∈ s.thr.lines) : d ∈ (giveLines x j stride out a b s).thr.lines := List.mem_append_left _ hd

theorem mem_giveLines {x : Copy} {j : BlockJob} {stride : Nat} {out : List Byte} {a b i : Nat} {s : State} (ha : a ≤ i) (hb : i < b)
    (hl : i < j.loc.lines) (hlo : (jobLines s x j).1 ≤ j.loc.line + i) (hhi : j.loc.line + i < (jobLines s x j).2) :
    jobLine j (j.loc.line + i) (slice out (i * stride) (i * stride + stride)) ∈ (giveLines x j stride out a b s).thr.lines :=
  List.mem_append_right _ (List.mem_map.mpr
    ⟨i, List.mem_filter.mpr ⟨List.mem_range.mpr hl, decide_eq_true ⟨ha, hb, hlo, hhi⟩⟩, rfl⟩)

/-! ## The end of a block (R167 to R171) -/

/-- A lane is free again, and the cycles of its block are charged to its copy and plane (R170). -/
def freeLane (lane : Nat) (j : BlockJob) (cycles : Nat) (s : State) : State :=
  updCopy j.copy (fun z => { z with cycles := tput z.cycles j.plane (tget z.cycles 0 j.plane + cycles) })
    { s with thr := { s.thr with lanes := tdel s.thr.lanes lane } }

/-- A block that a lane has decoded is counted, with its bytes in and out. -/
def countBlock (j : BlockJob) (n : Nat) (s : State) : State :=
  inc64 Reg.THR_IN_BYTES j.loc.len (inc64 Reg.THR_OUT_BYTES n (inc64 Reg.THR_BLK_CNT 1 s))

theorem freeLane_lanes (lane : Nat) (j : BlockJob) (cycles : Nat) (s : State) :
    (freeLane lane j cycles s).thr.lanes = tdel s.thr.lanes lane := rfl

theorem freeLane_lines (lane : Nat) (j : BlockJob) (cycles : Nat) (s : State) :
    (freeLane lane j cycles s).thr.lines = s.thr.lines := rfl

theorem freeLane_rn (lane : Nat) (j : BlockJob) (cycles : Nat) (s : State) (k : Nat) : rn (freeLane lane j cycles s) k = rn s k := rfl

theorem freeLane_keeps (lane : Nat) (j : BlockJob) (cycles : Nat) (s : State) : Keeps [.jobs, .thr] s (freeLane lane j cycles s) :=
  updCopy_keeps _ _ _ (by decide) (Keeps.set_thr (by decide) (Keeps.refl _ s))

theorem countBlock_keeps {ps : List Part} {σ : State} (j : BlockJob) (n : Nat) (s : State) (hp : ∀ p ∈ [Part.reg .thr], p ∈ ps)
    (h : Keeps ps σ s) : Keeps ps σ (countBlock j n s) :=
  inc64_keeps _ _ _ (Keeps.sub (by decide) hp) (inc64_keeps _ _ _ (Keeps.sub (by decide) hp)
    (inc64_keeps _ _ _ (Keeps.sub (by decide) hp) h))

/-- A 64-bit counter wraps. -/
theorem rn64_inc64_self (k n : Nat) (s : State) : rn64 (inc64 k n s) k = (rn64 s k + n) % 2 ^ 64 := by
  rw [inc64, rn64, rn_wn64_lo, rn_wn64_hi]
  omega

theorem rn64_inc64_ne {j k : Nat} (n : Nat) (s : State) (h : j + 4 < k ∨ k + 4 < j) : rn64 (inc64 k n s) j = rn64 s j := by
  rw [inc64, rn64, rn_wn64_ne _ _ (by omega) (by omega), rn_wn64_ne _ _ (by omega) (by omega), rn64]

@[simp] theorem countBlock_thr (j : BlockJob) (n : Nat) (s : State) : (countBlock j n s).thr = s.thr := rfl

theorem countBlock_counts (j : BlockJob) (n : Nat) (s : State) :
    rn64 (countBlock j n s) Reg.THR_BLK_CNT = (rn64 s Reg.THR_BLK_CNT + 1) % 2 ^ 64 := by
  rw [countBlock, rn64_inc64_ne _ _ (by decide), rn64_inc64_ne _ _ (by decide), rn64_inc64_self]

section
variable {lane : Nat} {l : Lane} {x : Copy} {stride : Nat} {r : BlockResult} {s : State} (hl : tfind s.thr.lanes lane = some l)
  (hx : findCopy s l.job.copy = some x) (hr : jobResult s l.job = some (stride, r)) (hb : rbit s Reg.THR_CTRL 0 = false)
include hl hx hr hb

/-- With the budget off a block that decodes without error, and with the CRC that its husk carries where that is checked, gives its lines
and is counted. -/
theorem blockDone_gives {out : List Byte} (ho : r.out = .ok out)
    (hc : rbit s Reg.THR_CTRL 1 = false ∨ ∀ c, l.job.loc.crc = some c → c = crc32c out) :
    blockDone lane s = giveLines x l.job stride out l.given l.job.loc.lines
      (countBlock l.job out.length (freeLane lane l.job r.cycles s)) := by
  unfold blockDone
  simp only [hl, hr, hx, ho]
  rw [if_neg (Bool.eq_false_iff.mp (overBudget_off ?_ _ _ _)), if_neg]
  · rfl
  · rcases hc with hc | hc
    · simp [hc]
    · cases he : l.job.loc.crc with
      | none => simp
      | some c => simp [hc c he]
  · exact hb

/-- With the budget off a block with an error is abandoned, and its copy is CORRUPT. -/
theorem blockDone_abandons {e : Nat} (he : r.out = .error e) :
    blockDone lane s = corruptCopy l.job.copy (abandonBlock l.job stride e (freeLane lane l.job r.cycles s)) := by
  unfold blockDone
  simp only [hl, hr, hx, he]
  rw [if_neg (Bool.eq_false_iff.mp (overBudget_off ?_ _ _ _))]
  · rfl
  · exact hb

end

/-! ## What an abandoned block leaves (R171) -/

/-- Beside its lines an abandoned block leaves Thresher as it is. -/
theorem abandonBlock_thr (j : BlockJob) (stride reason : Nat) (s : State) :
    ∃ ls, (abandonBlock j stride reason s).thr = { s.thr with lines := ls } := by
  unfold abandonBlock
  extract_lets s1 s2 s3 s4 ids
  have h1 : ∃ ls, s1.thr = { s.thr with lines := ls } := by
    unfold s1
    split
    · exact ⟨_, rfl⟩
    · exact ⟨s.thr.lines, rfl⟩
  have h2 : s2.thr = s1.thr := (recordErr_keeps' _ _ _).only .thr (by simp)
  have h3 : s3.thr = s2.thr := by
    unfold s3
    split <;> rfl
  obtain ⟨ls, h1⟩ := h1
  exact ⟨ls, ((raised_keeps s4).only .thr (by simp)).trans (h3.trans (h2.trans h1))⟩

theorem abandonBlock_counts (j : BlockJob) (stride reason : Nat) (s : State) :
    rn (abandonBlock j stride reason s) Reg.THR_ABANDON_CNT = min 0xFFFFFFFF (rn s Reg.THR_ABANDON_CNT + 1) := by
  unfold abandonBlock
  extract_lets s1 s2 s3 s4 ids
  have h1 : rn s1 Reg.THR_ABANDON_CNT = rn s Reg.THR_ABANDON_CNT := by
    unfold s1
    split <;> rfl
  have h2 : rn s2 Reg.THR_ABANDON_CNT = min 0xFFFFFFFF (rn s Reg.THR_ABANDON_CNT + 1) := by
    rw [← h1]
    exact (rn_congr (rd_recordErr _ _ _ _)).trans (rn_inc_self _ _ _)
  have h3 : rn s3 Reg.THR_ABANDON_CNT = rn s2 Reg.THR_ABANDON_CNT := by
    unfold s3
    split
    · exact rn_inc_ne _ _ (by decide)
    · rfl
  have h4 : rn s4 Reg.THR_ABANDON_CNT = rn s3 Reg.THR_ABANDON_CNT := by
    unfold s4
    rw [rn_wn_ne _ _ (by decide), rn_wn_ne _ _ (by decide), rn_wn_ne _ _ (by decide)]
  rw [rn_congr (rd_raiseIrq _ _ _ _), rn_congr (rd_event (by decide)), h4, h3, h2]

theorem abandonBlock_jobs (j : BlockJob) (stride reason : Nat) (s : State) : (abandonBlock j stride reason s).jobs = s.jobs :=
  (abandonBlock_keeps j stride reason s (fun _ q => q) (Keeps.refl _ s)).only .jobs (by decide)

theorem abandonBlock_work (j : BlockJob) (stride reason : Nat) (s : State) : WorkKept s (abandonBlock j stride reason s) := by
  obtain ⟨ls, h⟩ := abandonBlock_thr j stride reason s
  exact .of_eq (by rw [h]) (fun _ hk => by rw [h]; exact hk) (congrArg Jobs.streams (abandonBlock_jobs j stride reason s))

/-! ## A copy marked CORRUPT -/

/-- The copy of a number in `t`, if any, carries the flags it carries in `s`. -/
def FlagsFrom (c : Nat) (s t : State) : Prop := ∀ y, findCopy t c = some y → ∃ x, findCopy s c = some x ∧ y.flags = x.flags

theorem FlagsFrom.refl (c : Nat) (s : State) : FlagsFrom c s s := fun y hy => ⟨y, hy, rfl⟩

theorem FlagsFrom.of_jobs {c : Nat} {s t : State} (h : t.jobs = s.jobs) : FlagsFrom c s t := fun y hy =>
  ⟨y, (findCopy_congr h c).symm.trans hy, rfl⟩

theorem FlagsFrom.trans {c : Nat} {s t u : State} (h : FlagsFrom c s t) (k : FlagsFrom c t u) : FlagsFrom c s u := fun z hz => by
  obtain ⟨y, hy, hf⟩ := k z hz
  obtain ⟨x, hx, hg⟩ := h y hy
  exact ⟨x, hx, hf.trans hg⟩

theorem FlagsFrom.updCopy (c : Nat) (f : Copy → Copy) (hs : ∀ x, (f x).seq = x.seq) (hf : ∀ x, (f x).flags = x.flags) (s : State) :
    FlagsFrom c s (updCopy c f s) := fun y hy => by
  rw [findCopy_updCopy c f hs] at hy
  obtain ⟨x, hx, rfl⟩ := Option.map_eq_some_iff.mp hy
  exact ⟨x, hx, hf x⟩

/-- Of a copy that leaves the table nothing is found. -/
theorem FlagsFrom.of_gone {c : Nat} {s t : State} (h : ∀ y ∈ t.jobs.copies, y.seq ≠ c) : FlagsFrom c s t := fun y hy =>
  absurd (of_decide_eq_true (List.find?_some hy :)) (h y (List.mem_of_find?_eq_some hy))

theorem sealCopy_flags (c : Nat) (s : State) : FlagsFrom c s (sealCopy c s) := by
  unfold sealCopy
  split
  next x hx =>
    extract_lets void mask t2 slot s1 s2 s3 jobs3 s4
    have h1 : FlagsFrom c s s1 := FlagsFrom.updCopy c _ (by intro; rfl) (by intro; rfl) s
    have h2 : s2.jobs = s1.jobs := by
      unfold s2
      split <;> rfl
    have h3 : FlagsFrom c s s3 := h1.trans (.of_jobs ((appendReceipt_jobs _ _ _ _).trans h2))
    have h4 : FlagsFrom c s s4 := .of_gone fun y hy => of_decide_eq_true (List.mem_filter.mp hy).2
    split
    · exact FlagsFrom.refl c s
    split
    · exact h3
    split
    · exact h4
    · exact h4.trans (.of_jobs (closeBatch_jobs _ _))
  next => exact FlagsFrom.refl c s

theorem sealVoid_flags (c : Nat) (s : State) : FlagsFrom c s (sealVoid c s) := by
  unfold sealVoid
  split
  · split
    · exact (FlagsFrom.updCopy c _ (by intro; rfl) (by intro; rfl) s).trans (sealCopy_flags c _)
    · exact FlagsFrom.refl c s
  · exact FlagsFrom.refl c s

/-- A copy voided as CORRUPT carries that flag, where it is still there. -/
theorem voidCopy_corrupt {c : Nat} {x : Copy} {s : State} (hx : findCopy s c = some x) (hq : x.state = .queued ∨ x.state = .ready) :
    ∀ y, findCopy (voidCopy c true s) c = some y → y.flags.corrupt = true := by
  intro y hy
  unfold voidCopy at hy
  simp only [hx] at hy
  rw [if_pos hq] at hy
  obtain ⟨z, hz, hf⟩ := sealVoid_flags c _ y hy
  have hz' : findCopy (updCopy c (fun y => { y with
      state := .voided, slot := none, commitTime := stamp s, flags := { CopyFlags.none with void := true, corrupt := true } }) s) c =
      some z := hz
  rw [findCopy_updCopy c _ (by intro; rfl), hx] at hz'
  obtain rfl := Option.some.inj hz'
  rw [hf]

/-- A copy of an abandoned block that was not voided before is CORRUPT, voided or not. -/
theorem corruptCopy_corrupt {c : Nat} {x : Copy} {s : State} (hx : findCopy s c = some x) (hv : x.state ≠ .voided) :
    ∀ y, findCopy (corruptCopy c s) c = some y → y.flags.corrupt = true := by
  intro y hy
  unfold corruptCopy at hy
  simp only [hx] at hy
  split at hy
  next hq =>
    rw [findCopy_congr (refreshIdle_jobs _)] at hy
    exact voidCopy_corrupt hx hq y hy
  next =>
    rw [flagCopy, findCopy_updCopy c _ (by intro z; split <;> rfl), hx] at hy
    obtain rfl := Option.some.inj hy
    dsimp only
    rw [if_neg hv]

theorem corruptCopy_work (c : Nat) (s : State) : WorkKept s (corruptCopy c s) := by
  unfold corruptCopy
  split
  · split
    · exact (voidCopy_work c true s).trans (refreshIdle_work _)
    · exact updCopy_work _ _ s
  · exact WorkKept.refl s

theorem corruptCopy_rn (c : Nat) (s : State) {k : Nat} (hk : keyKind k = .thr) : rn (corruptCopy c s) k = rn s k :=
  (corruptCopy_keeps c s (fun _ q => q) (Keeps.refl _ s)).rn (by rw [hk]; decide)

theorem thrBlockDone_ends (lane : Fin 24) (l : Lane) (x : Copy) (stride : Nat) (r : BlockResult) (s : State)
    (hl : tfind s.thr.lanes lane.val = some l) (hx : findCopy s l.job.copy = some x) (hr : jobResult s l.job = some (stride, r))
    (hb : rbit s Reg.THR_CTRL 0 = false) :
    (∀ out, r.out = .ok out → rbit s Reg.THR_CTRL 1 = false ∨ (∀ c, l.job.loc.crc = some c → c = crc32c out) →
      ∃ t, exec (.thrBlockDone lane) s = .next t ∧
        (tfind t.thr.lanes lane.val = none ∧ rn64 t Reg.THR_BLK_CNT = (rn64 s Reg.THR_BLK_CNT + 1) % 2 ^ 64 ∧
          (∀ d ∈ s.thr.lines, d ∈ t.thr.lines) ∧
          ∀ i, l.given ≤ i → i < l.job.loc.lines → (jobLines s x l.job).1 ≤ l.job.loc.line + i →
            l.job.loc.line + i < (jobLines s x l.job).2 →
            jobLine l.job (l.job.loc.line + i) (slice out (i * stride) (i * stride + stride)) ∈ t.thr.lines) ∧
        Only [.jobs, .reg .thr, .thr] s t) ∧
    (∀ e, r.out = .error e → x.state ≠ .voided →
      ∃ t, exec (.thrBlockDone lane) s = .next t ∧
        (tfind t.thr.lanes lane.val = none ∧ rn t Reg.THR_ABANDON_CNT = min 0xFFFFFFFF (rn s Reg.THR_ABANDON_CNT + 1) ∧
          ∀ y, findCopy t l.job.copy = some y → y.flags.corrupt = true) ∧
        Only thresherParts s t) := by
  refine ⟨fun out ho hc => ?_, fun e he hv => ?_⟩
  · have hk : Keeps [.jobs, .reg .thr, .thr] s (countBlock l.job out.length (freeLane lane l.job r.cycles s)) :=
      countBlock_keeps _ _ _ (by decide) ((freeLane_keeps _ _ _ s).mono (by decide))
    refine ⟨_, congrArg Host.Outcome.next (blockDone_gives hl hx hr hb ho hc),
      ⟨?_, ?_, fun d hd => mem_giveLines_old ?_, fun i ha hi hlo hhi => ?_⟩, (giveLines_keeps _ _ _ _ _ _ _ (by decide) hk).only⟩
    · rw [giveLines_lanes, countBlock_thr, freeLane_lanes, tfind_tdel_self]
    · rw [giveLines_rn64, countBlock_counts, rn64, rn64, freeLane_rn, freeLane_rn]
    · rw [countBlock_thr, freeLane_lines]
      exact hd
    · have hj := jobLines_kept hk (by decide) x l.job
      exact mem_giveLines ha hi hi (by rw [hj]; exact hlo) (by rw [hj]; exact hhi)
  · have hx' : findCopy (abandonBlock l.job stride e (freeLane lane l.job r.cycles s)) l.job.copy =
        some { x with cycles := tput x.cycles l.job.plane (tget x.cycles 0 l.job.plane + r.cycles) } := by
      rw [findCopy_congr (abandonBlock_jobs _ _ _ _), freeLane, findCopy_updCopy _ _ (by intro; rfl)]
      exact congrArg (Option.map _) hx
    refine next_at (execThrBlockDone_keeps lane s) (fun _ q => q)
      (congrArg Host.Outcome.next (blockDone_abandons hl hx hr hb he)) ⟨?_, ?_, corruptCopy_corrupt hx' hv⟩
    · refine ((abandonBlock_work _ _ _ _).trans (corruptCopy_work _ _)).lanes _ ?_
      rw [freeLane_lanes, tfind_tdel_self]
    · rw [corruptCopy_rn _ _ (by decide), abandonBlock_counts, freeLane_rn]

end Sys2Proof.Machine
end

section
/-! SUPPORT. The proofs of what Mill and the image store do, and the proof of O41. -/

namespace Sys2Proof.Machine
open Sys2Proof

/-! ## Blocks of a Mill job (R174, R177) -/

theorem raised_rn {n b code : Nat} {ten : Option Nat} {pl : List Byte} (s : State) {k : Nat} (hk : keyKind k ≠ .stk) :
    rn (raiseIrq n b (event code ten pl s)) k = rn s k :=
  rn_congr ((rd_raiseIrq _ _ _ _).trans (rd_event hk))

theorem jobBlock_mil (lane : Nat) (j : MillJob) (s : State) : (jobBlock lane j s).2.mil = s.mil :=
  (jobBlock_keeps lane j s (fun _ q => q) (Keeps.refl _ s)).only .mil (by decide)

/-- An enabled lane with enough lines writes a block of as many of them as MIL_BLOCK allows, and counts it. -/
theorem jobBlock_forms {lane want n : Nat} {j : MillJob} {s : State} (hl : rbit s Reg.MIL_CTRL lane = true)
    (hw : max 1 (rf s Reg.MIL_BLOCK 18 0 / j.stride) = want) (hn : min want (j.input.length / j.stride) = n) (h0 : 0 < n)
    (he : j.ended = true ∨ want ≤ j.input.length / j.stride) :
    rn (jobBlock lane j s).2 Reg.MIL_BLK_CNT = min 0xFFFFFFFF (rn s Reg.MIL_BLK_CNT + 1) ∧
      (jobBlock lane j s).1.lines = j.lines + n ∧ (jobBlock lane j s).1.input = j.input.drop (n * j.stride) ∧
      (jobBlock lane j s).1.stride = j.stride := by
  have hstart : ¬(!j.ended && decide (j.input.length / j.stride < want)) = true := by
    rcases he with he | he
    · simp [he]
    · simp [Nat.not_lt.mpr he]
  unfold jobBlock
  extract_lets w held m input first
  obtain rfl : w = want := hw
  obtain rfl : m = n := hn
  rw [if_neg (by rw [hl]; decide), if_neg (Nat.pos_iff_ne_zero.mp h0), if_neg hstart]
  split
  next bytes bad hb =>
    extract_lets b j1 close s1 s2
    have h1 : rn s1 Reg.MIL_BLK_CNT = min 0xFFFFFFFF (rn s Reg.MIL_BLK_CNT + 1) := by
      unfold s1
      rw [inc64, rn_wn64_ne _ _ (by decide) (by decide), inc64, rn_wn64_ne _ _ (by decide) (by decide), rn_inc_self]
    have h2 : rn s2 Reg.MIL_BLK_CNT = rn s1 Reg.MIL_BLK_CNT := by
      unfold s2
      split
      · exact rn_inc_ne _ _ (by decide)
      split
      · exact rn_inc_ne _ _ (by decide)
      · rfl
    refine ⟨?_, ?_, ?_, ?_⟩
    · rw [← h1, ← h2]
      dsimp only
      split
      · exact (raised_rn _ (by decide)).trans (rn_inc_ne _ _ (by decide))
      · rfl
    all_goals
      dsimp only
      split <;> rfl

/-- A lane's block of the camera image. -/
theorem imageBlock_of {lane : Nat} {j : MillJob} {s : State} (hj : s.mil.job = some j) : imageBlock lane s =
    { (jobBlock lane j s).2 with mil := { (jobBlock lane j s).2.mil with job := some (jobBlock lane j s).1 } } := by
  rw [imageBlock, hj]

theorem millBlock_image (lane : Fin 2) (j : MillJob) (s : State) (hj : s.mil.job = some j) (hl : rbit s Reg.MIL_CTRL lane.val = true) :
    let want := max 1 (rf s Reg.MIL_BLOCK 18 0 / j.stride)
    let n := min want (j.input.length / j.stride)
    0 < n → j.ended = true ∨ want ≤ j.input.length / j.stride →
    ∃ t, exec (.millBlock lane none) s = .next t ∧
      (rn t Reg.MIL_BLK_CNT = min 0xFFFFFFFF (rn s Reg.MIL_BLK_CNT + 1) ∧
        ∃ k, t.mil.job = some k ∧ k.lines = j.lines + n ∧ k.input = j.input.drop (n * j.stride) ∧ k.stride = j.stride ∧
          t.mil.diag = s.mil.diag) ∧
      Only [.mil, .msix, .out, .reg .mil, .reg .stk, .rings, .stk] s t := by
  intro want n h0 he
  obtain ⟨hcnt, hlines, hinput, hstride⟩ := jobBlock_forms hl rfl rfl h0 he
  exact next_at (execMillBlock_keeps lane none s) (fun _ q => q) (congrArg Host.Outcome.next (imageBlock_of hj))
    ⟨hcnt, _, rfl, hlines, hinput, hstride, (congrArg Mill.diag (jobBlock_mil lane.val j s) :)⟩

/-! ## Diagnostic captures (R443) -/

/-- A capture that Sagger refuses has no effect. -/
theorem captureBlock_refused {lane p : Nat} {s : State} (hd : s.mil.diag = none) (ha : captureAllowed s p = false) :
    captureBlock lane p s = s := by
  simp only [captureBlock, captureOf, hd, ha]
  rfl

/-- The first block of a capture that Sagger enables: the capture is in progress, or its stream is stored, and the image stays. -/
theorem captureBlock_allowed {lane p : Nat} {s : State} (hd : s.mil.diag = none) (ha : captureAllowed s p = true) :
    (captureBlock lane p s).mil.job = s.mil.job ∧ ((∃ d, (captureBlock lane p s).mil.diag = some d ∧ d.plane = p) ∨
      ((captureBlock lane p s).mil.diag = none ∧ ∃ more, (captureBlock lane p s).mil.captures = s.mil.captures ++ more)) := by
  have hof : captureOf s p = some (captureJob s p) := by
    simp only [captureOf, hd, ha]
    rfl
  have hm := jobBlock_mil lane (captureJob s p) s
  unfold captureBlock
  simp only [hof]
  split
  · exact ⟨(congrArg Mill.job hm :), Or.inl ⟨_, rfl, rfl⟩⟩
  · exact ⟨(congrArg Mill.job hm :), Or.inr ⟨rfl, _, congrArg (· ++ _) (congrArg Mill.captures hm :)⟩⟩

theorem millBlock_capture (lane : Fin 2) (p : Fin 16) (s : State) (hd : s.mil.diag = none) :
    (captureAllowed s p.val = false → exec (.millBlock lane (some p)) s = .next s) ∧
    (captureAllowed s p.val = true →
      ∃ t, exec (.millBlock lane (some p)) s = .next t ∧
        (t.mil.job = s.mil.job ∧ ((∃ d, t.mil.diag = some d ∧ d.plane = p.val) ∨
          (t.mil.diag = none ∧ ∃ more, t.mil.captures = s.mil.captures ++ more))) ∧
        Only [.mil, .msix, .out, .reg .mil, .reg .stk, .rings, .stk] s t) :=
  ⟨fun ha => congrArg Host.Outcome.next (captureBlock_refused hd ha),
    fun ha => next_at (execMillBlock_keeps lane (some p) s) (fun _ q => q) rfl (captureBlock_allowed hd ha)⟩

/-! ## Stored images (R383) -/

/-- What a finished job of Mill's leaves for the image store. -/
def MillJob.stored (j : MillJob) : StoredImage :=
  { port := j.port, num := j.image, dt := j.dt, stride := j.stride, stream := gristHeader j.stride j.lines ++ j.husks,
    lines := j.places.take j.lines }

/-- Mill has no camera image in compression. -/
def withoutImage (s : State) : State := { s with mil := { s.mil with job := none } }

section
variable {j : MillJob} {s : State} (hj : s.mil.job = some j) (he : j.ended = true) (hh : j.husk = []) (hi : j.input.length < j.stride)
include hj he hh hi

theorem imageStore_eq : imageStore s =
    if j.lines = 0 ∨ s.ipl.storeMib * 1048576 < j.stored.size then inc (Reg.IPL_C_STORE_DROP_CNT j.port) 1 (withoutImage s)
    else refreshOldest { withoutImage s with ipl := { s.ipl with
      images := fitImages (s.ipl.storeMib * 1048576) (s.ipl.images ++ [j.stored]) } } := by
  have hdone : ¬(j.ended = false ∨ j.husk ≠ [] ∨ j.stride ≤ j.input.length) := by
    simp [he, hh, hi]
  unfold imageStore
  simp only [hj]
  rw [if_neg hdone]
  rfl

end

theorem refreshOldest_only (s : State) : Keeps [.reg .iplP] s (refreshOldest s) := refreshOldest_keeps s (fun _ q => q) (Keeps.refl _ s)

theorem imageStore_stores (j : MillJob) (s : State) (hj : s.mil.job = some j) (he : j.ended = true) (hh : j.husk = [])
    (hi : j.input.length < j.stride) :
    let x : StoredImage := { port := j.port, num := j.image, dt := j.dt, stride := j.stride,
                             stream := gristHeader j.stride j.lines ++ j.husks, lines := j.places.take j.lines }
    let limit := s.ipl.storeMib * 1048576
    ∃ t, exec .imageStore s = .next t ∧
      (t.mil.job = none ∧
        (j.lines ≠ 0 → x.size ≤ limit → t.ipl.images = fitImages limit (s.ipl.images ++ [x])) ∧
        (j.lines = 0 ∨ limit < x.size → t.ipl = s.ipl ∧
          rn t (Reg.IPL_C_STORE_DROP_CNT j.port) = min 0xFFFFFFFF (rn s (Reg.IPL_C_STORE_DROP_CNT j.port) + 1))) ∧
      Only [.ipl, .mil, .reg .iplP] s t := by
  intro x limit
  refine next_at (execImageStore_keeps s) (fun _ q => q) (congrArg Host.Outcome.next (imageStore_eq hj he hh hi)) ?_
  split
  next hdrop => exact ⟨rfl, fun h0 hs => absurd hdrop (not_or.mpr ⟨h0, Nat.not_lt.mpr hs⟩), fun _ => ⟨rfl, rn_inc_self _ _ _⟩⟩
  next hfits =>
    have hkept := refreshOldest_only { withoutImage s with ipl := { s.ipl with
      images := fitImages (s.ipl.storeMib * 1048576) (s.ipl.images ++ [j.stored]) } }
    exact ⟨(congrArg Mill.job (hkept.only .mil (by decide)) :), fun _ _ => (congrArg Ipl.images (hkept.only .ipl (by decide)) :),
      fun hdrop => absurd hdrop hfits⟩

/-- Settles O41: for each clause an equation says what the engine's step comes to under the clause's conditions, and the lemmas of
Laws/ say which parts it leaves. Where a stream found bad or an abandoned block voids copies, `WorkKept` carries Thresher's state past
the voiding. -/
theorem codecEnginesRun : Obligations.CodecEnginesRun := by
  unfold Obligations.CodecEnginesRun
  exact ⟨thrStreamPrepare_prepares, thrStreamPrepared_judges, thrBlockStart_decodes, thrBlockDone_ends, millBlock_image,
    millBlock_capture, imageStore_stores⟩

end Sys2Proof.Machine
end

section
/-! SUPPORT. The proofs of what Glaze does: tiles, lines into staging and swath, and copy bands (O14). -/

namespace Sys2Proof.Machine
open Sys2Proof

/-! ## Tiles (R179 to R182) -/

/-- The tile a good stream makes under an identifier. -/
def tileOf (t id stamp : Nat) (x : Stream) : Tile :=
  { tenant := t, id, format := leAt x.bytes 2 1, width := leAt x.bytes 4 2, height := leAt x.bytes 6 2, data := x.bytes.drop 16,
    granules := cdiv (leAt x.bytes 8 4) 256, stamp, stream := some x.handle }

/-- A state with one more tile. -/
def addTile (z : Tile) (s : State) : State :=
  { s with glz := { s.glz with tiles := s.glz.tiles ++ [z], useCount := s.glz.useCount + 1 } }

/-- A state without a tile. -/
def dropTile (z : Tile) (s : State) : State := { s with glz := { s.glz with tiles := s.glz.tiles.filter (· ≠ z) } }

/-- A tenant's tile evicted: it is gone, counted and reported. -/
def evictTile (t : Nat) (z : Tile) (s : State) : State :=
  raiseIrq pgGlz 5 (event 0x2202 (some t) (le 2 t ++ le 2 z.id ++ le 2 z.granules) (inc Reg.GLZ_EVICT_CNT 1 (dropTile z s)))

theorem addTile_only (z : Tile) (s : State) : Keeps [.glz] s (addTile z s) := Keeps.set_glz (by decide) (Keeps.refl _ s)

theorem dropTile_only (z : Tile) (s : State) : Keeps [.glz] s (dropTile z s) := Keeps.set_glz (by decide) (Keeps.refl _ s)

theorem evictTile_keeps (t : Nat) (z : Tile) (s : State) :
    Keeps [.msix, .out, .reg .glz, .reg .stk, .rings, .stk] (dropTile z s) (evictTile t z s) :=
  raiseIrq_keeps _ _ _ (by decide) (event_keeps _ _ _ _ (by decide) (inc_keeps _ _ _ (by decide) (Keeps.refl _ _)))

theorem evictTile_tiles (t : Nat) (z : Tile) (s : State) : (evictTile t z s).glz.tiles = s.glz.tiles.filter (· ≠ z) :=
  congrArg Glaze.tiles ((evictTile_keeps t z s).only .glz (by decide))

theorem evictTile_jobs (t : Nat) (z : Tile) (s : State) : (evictTile t z s).jobs = s.jobs :=
  (evictTile_keeps t z s).only .jobs (by decide)

theorem tilePinned_congr {s u : State} (h : u.jobs = s.jobs) (z : Tile) : tilePinned u z = tilePinned s z := by
  rw [tilePinned, tilePinned, h]

/-- What is evicted is an unpinned tile of the tenant. -/
theorem evictee_unpinned {s : State} {t : Nat} {z : Tile} (h : evictee s t = some z) : z.tenant = t ∧ tilePinned s z = false := by
  have hm : z ∈ s.glz.tiles.filter fun x => decide (x.tenant = t) && !tilePinned s x := by
    refine List.foldlRecOn (motive := fun o : Option Tile => ∀ y, o = some y →
      y ∈ s.glz.tiles.filter fun x => decide (x.tenant = t) && !tilePinned s x) _ _ (by simp) (fun b hb x hx y hy => ?_) z h
    split at hy
    · exact Option.some.inj hy ▸ hx
    · split at hy
      · exact Option.some.inj hy ▸ hx
      · exact hb y hy
  simpa using (List.mem_filter.mp hm).2

theorem makeRoom_fits {t g n : Nat} {s : State} (hg : g ≤ granulesFree s) (hl : s.glz.tiles.length < 8192) :
    makeRoom t g (n + 1) s = some s := if_pos ⟨hg, hl⟩

/-- Making room takes no tile of another tenant and none that is pinned (R181, R182). -/
theorem makeRoom_spares {t g n : Nat} {s u : State} {z : Tile} (h : makeRoom t g n s = some u) (hz : z ∈ s.glz.tiles)
    (hp : z.tenant ≠ t ∨ tilePinned s z = true) : z ∈ u.glz.tiles := by
  induction n generalizing s with
  | zero => cases h
  | succ n ih =>
    rw [makeRoom] at h
    split at h
    · exact Option.some.inj h ▸ hz
    · split at h
      · cases h
      next x hx =>
        obtain ⟨ht, hfree⟩ := evictee_unpinned hx
        have hne : z ≠ x := by
          rintro rfl
          exact hp.elim (· ht) fun hpin => by simp [hfree] at hpin
        refine ih (s := evictTile t x s) h ?_ ?_
        · rw [evictTile_tiles]
          exact List.mem_filter.mpr ⟨hz, decide_eq_true hne⟩
        · rwa [tilePinned_congr (evictTile_jobs t x s)]

theorem tileLoad_loads {h : Hdr} {id : Nat} {x : Stream} {s u : State} (hg : tileGood x.bytes = true)
    (hm : makeRoom h.tenant (cdiv (leAt x.bytes 8 4) 256) (s.glz.tiles.length + 1) s = some u) :
    tileLoad h id x s = ok h 0 (addTile (tileOf h.tenant id u.glz.useCount x) u) := by
  simp only [tileLoad, hg, hm]
  rfl

/-- TILE_LOAD of a good tile under a new identifier, once there is room. -/
theorem bodyTileLoad_loads {d : Desc} {tile : BitVec 16} {handle : Word} {x : Stream} {s u : State} (h0 : tile.toNat ≠ 0)
    (hnew : ∀ y ∈ s.glz.tiles, ¬(y.tenant = (ring s d.ring.val).tenant ∧ y.id = tile.toNat))
    (hx : findStream s (ring s d.ring.val).tenant handle.toNat = some x) (hf : x.failed = false) (hc : x.complete = true)
    (hg : tileGood x.bytes = true)
    (hm : makeRoom (ring s d.ring.val).tenant (cdiv (leAt x.bytes 8 4) 256) (s.glz.tiles.length + 1) (taken d s) = some u) :
    bodyTileLoad (hdrOf d s) (.tileLoad d tile handle) tile.toNat handle.toNat (taken d s) =
      ok (hdrOf d s) 0 (addTile (tileOf (ring s d.ring.val).tenant tile.toNat u.glz.useCount x) u) := by
  have hany : ¬((taken d s).glz.tiles.any fun x => decide (x.tenant = (hdrOf d s).tenant ∧ x.id = tile.toNat)) = true := by
    rw [List.any_eq_true]
    rintro ⟨y, hy, he⟩
    exact hnew y hy (of_decide_eq_true he)
  rw [bodyTileLoad, if_neg h0, if_neg hany]
  exact (withStream_taken hx hf hc rfl).trans (tileLoad_loads (h := hdrOf d s) hg hm)

theorem bodyTileEvict_drops {h : Hdr} {id : Nat} {x : Tile} {s : State}
    (hx : s.glz.tiles.find? (fun x => decide (x.tenant = h.tenant ∧ x.id = id)) = some x) (hp : tilePinned s x = false) :
    bodyTileEvict h id s = ok h 0 (dropTile x s) := by
  simp only [bodyTileEvict, hx, hp]
  rfl

/-! ## GLZ_BAND (R197) -/

/-- A register whose only field is its low three bits takes them from the value written. -/
theorem plainValue_low3 {r : RegDef} (hm : r.mask = 7#32) (hw : r.w1c = 0#32) (old v : Word) :
    (plainValue r old v).toNat % 8 = v.toNat % 8 := by
  have h : (plainValue r old v).setWidth 3 = v.setWidth 3 := by
    rw [plainValue_noClear hw, hm]
    ext i hi
    interval_cases i <;> simp
  simpa [BitVec.toNat_setWidth] using congrArg BitVec.toNat h

theorem glzBandWrite_sets {v : Word} {s : State}
    (h : ∀ c ∈ s.jobs.copies, c.state ≠ .queued ∧ c.state ≠ .ready ∧ c.state ≠ .committed ∧ c.state ≠ .fired) :
    rn (glzBandWrite v s) Reg.GLZ_BAND % 8 = v.toNat % 8 := by
  have hnone : ¬(s.jobs.copies.any fun c =>
      decide (c.state = .queued ∨ c.state = .ready ∨ c.state = .committed ∨ c.state = .fired)) = true := by
    rw [List.any_eq_true]
    rintro ⟨c, hc, he⟩
    simp [h c hc] at he
  rw [glzBandWrite, if_neg hnone, plainPut_rw (r := ⟨0x048, .rw, 0x7#32, 0x0#32, 0x4#32, .h, false, []⟩) (by decide) (Or.inl rfl),
    keyOf_plain (by decide), rn, rd_wr_self]
  exact plainValue_low3 rfl rfl _ v

/-! ## A lane's turn (R186, R194, R295) -/

/-- What Thresher has due by now is decoded; Glaze and its registers stay. -/
theorem decoded_only (s : State) : Keeps [.jobs, .thr] s (decodeDue (enqueueBlocks s)) :=
  decodeDue_keeps _ (by decide) (enqueueBlocks_keeps _ (by decide) (Keeps.refl _ s))

theorem decoded_glz (s : State) : (decodeDue (enqueueBlocks s)).glz = s.glz := (decoded_only s).only .glz (by decide)

/-- The state after a page line is composited: its bytes are counted, and its pixels are in the windows. -/
def composited (x : Copy) (p pass l : Nat) (u : State) : State :=
  let r := takeLine x p pass l u
  windowLine x p l r.1 (noteWinEn x p (inc64 Reg.GLZ_OUT_BYTES (copyStride u x p) r.2))

/-- A page line kept in the swath. -/
def keepInSwath (x : Copy) (p l : Nat) (px : List Nat) (u : State) : State :=
  { u with glz := { u.glz with swath := { copy := x.seq, plane := p, line := l, px } :: u.glz.swath } }

/-- A carriage line of a pass, from the page lines in the swath; blank where none is. -/
def carriageLine (u : State) (x : Copy) (p pass y : Nat) : List Nat :=
  let col := if passReverse u p pass then vActive u p - 1 - y else y
  (List.range (planeWidth u p)).map fun c =>
    ((u.glz.swath.find? fun q => decide (q.copy = x.seq ∧ q.plane = p ∧ (q.line : Int) = passStart u p pass + c)).map
      fun q => q.px.getD col 0).getD 0

theorem length_carriageLine (u : State) (x : Copy) (p pass y : Nat) : (carriageLine u x p pass y).length = planeWidth u p := by
  simp [carriageLine]

/-- A frame line staged, and the copy's next line. -/
def stageAndGo (x : Copy) (p pass y : Nat) (px : List Nat) (u : State) : State := glazeNext x p y (stageLine x p pass y px u)

/-- A copy band opened, waiting for pool space or with space of its own. -/
def openBand (x : Copy) (p b : Nat) (waiting : Bool) (u : State) : State :=
  { u with glz := { u.glz with bands := u.glz.bands ++ [⟨x.seq, p, b, bandMiB u x p, waiting, !waiting⟩] } }

/-- A copy band that found no space is counted and reported. -/
def reportWait (x : Copy) (p b : Nat) (u : State) : State :=
  raiseIrq pgGlz 6 (event 0x2203 (some x.tenant) (le 2 x.tenant ++ le 4 x.job ++ le 4 x.num ++ le 1 p ++ le 4 b)
    (inc Reg.GLZ_POOL_WAIT_CNT 1 u))

section
variable {lane l b : Nat} {w : GlazeWork} {s u : State} (hl : rbit s Reg.GLZ_CTRL lane = true) (hu : decodeDue (enqueueBlocks s) = u)
  (hw : nextWork u = some w)

include hl hu in
theorem lane_decoded : rbit u Reg.GLZ_CTRL lane = true :=
  (rbit_congr (hu ▸ (decoded_only s).rd (by decide)) lane).trans hl

include hl hu hw

theorem glazeLine_continuous (hb : w.band = false) (hn : nextPageLine u w.copy w.plane = some l) (hc : scanning u w.plane = false) :
    glazeLine lane s =
      let g := glazeAt u w.copy w.plane
      refreshLt (stageAndGo w.copy w.plane g.1 g.2 (takeLine w.copy w.plane g.1 l u).1 (composited w.copy w.plane g.1 l u)) := by
  simp only [glazeLine, hu, lane_decoded hl hu, hw, hb, hn, hc]
  rfl

theorem glazeLine_scanning (hb : w.band = false) (hn : nextPageLine u w.copy w.plane = some l) (hc : scanning u w.plane = true) :
    glazeLine lane s =
      let pass := (glazeAt u w.copy w.plane).1
      keepInSwath w.copy w.plane l (takeLine w.copy w.plane pass l u).1 (composited w.copy w.plane pass l u) := by
  simp only [glazeLine, hu, lane_decoded hl hu, hw, hb, hn, hc]
  rfl

theorem glazeLine_carriage (hb : w.band = false) (hn : nextPageLine u w.copy w.plane = none) :
    glazeLine lane s =
      let g := glazeAt u w.copy w.plane
      stageAndGo w.copy w.plane g.1 g.2 (carriageLine u w.copy w.plane g.1 g.2) u := by
  simp only [glazeLine, hu, lane_decoded hl hu, hw, hb, hn]
  rfl

theorem glazeBand_fits (hb : w.band = true) (hn : nextBand u w.copy w.plane = some b)
    (hf : poolUsed u + bandMiB u w.copy w.plane ≤ 512) :
    glazeBand lane s = fillBand w.copy w.plane b (openBand w.copy w.plane b false u) := by
  simp only [glazeBand, hu, lane_decoded hl hu, hw, hb, hn, hf]
  rfl

theorem glazeBand_waits (hb : w.band = true) (hn : nextBand u w.copy w.plane = some b)
    (hf : ¬poolUsed u + bandMiB u w.copy w.plane ≤ 512) :
    glazeBand lane s = reportWait w.copy w.plane b (openBand w.copy w.plane b true u) := by
  simp only [glazeBand, hu, lane_decoded hl hu, hw, hb, hn, hf]
  rfl

end

/-! ## Lines into staging (R186, R196, R205) -/

theorem stageLine_late (x : Copy) (p pass y : Nat) (px : List Nat) (s : State) : (stageLine x p pass y px s).glz.late = s.glz.late := by
  refine foldl_holds (I := fun t => t.glz.late = s.glz.late) _ rfl fun t d _ ht => ?_
  dsimp only
  split
  · exact ht
  · exact ht

/-- A frame line of a copy that is not late stands in the staging of every head with a row that still reads it. -/
theorem stageAndGo_staged {x : Copy} {u : State} (hx : x.seq ∉ u.glz.late) (p pass y : Nat) (px : List Nat) {d : HeadDecl}
    (hd : d ∈ planeHeads u p) (hr : stageRows u x p pass y d ≠ []) :
    ⟨x.seq, pass, y, px, stageRows u x p pass y d⟩ ∈ tget (stageAndGo x p pass y px u).glz.staging [] d.head := by
  rw [stageAndGo, glazeNext_staging x p y _ (by rwa [stageLine_late])]
  exact stageLine_staged x p pass y px u d hd hr

theorem refreshLt_glz (s : State) : (refreshLt s).glz = s.glz :=
  (refreshLt_keeps s (fun _ q => q) (Keeps.refl _ s)).only .glz (by decide)

/-! ## Copy bands in the pool (R187, R189) -/

theorem reportWait_glz (x : Copy) (p b : Nat) (u : State) : (reportWait x p b u).glz = u.glz :=
  (raised_keeps (inc Reg.GLZ_POOL_WAIT_CNT 1 u)).only .glz (by decide)

theorem reportWait_counts (x : Copy) (p b : Nat) (u : State) :
    rn (reportWait x p b u) Reg.GLZ_POOL_WAIT_CNT = min 0xFFFFFFFF (rn u Reg.GLZ_POOL_WAIT_CNT + 1) :=
  (raised_rn _ (by decide)).trans (rn_inc_self _ _ _)

/-- Every line of a composited copy band is in the pool. -/
theorem mem_fillBand_pool (x : Copy) (p b : Nat) (u : State) {q : List Nat × Nat}
    (hq : q ∈ (compose u x p (glazeAt u x p).1 (b * bandLines u)
      (min x.page0.height (b * bandLines u + bandLines u) - b * bandLines u)).zipIdx) :
    { copy := x.seq, plane := p, line := b * bandLines u + q.2, px := q.1 } ∈ (fillBand x p b u).glz.pool := by
  rw [(fillBand_pool x p b u).2]
  exact List.mem_append_right _ (List.mem_map.mpr ⟨q, hq, rfl⟩)

/-- A waiting band with space of its own: it waits no more. -/
def grantBand (w : Band) (s : State) : State :=
  { s with glz := { s.glz with bands := s.glz.bands.map fun b =>
    if b = w then { b with waiting := false, composited := true } else b } }

theorem poolWaitEnd_fills {w : Band} {x : Copy} {s : State} (hw : s.glz.bands.find? (·.waiting) = some w) (hf : poolUsed s + w.mib ≤ 512)
    (hx : findCopy s w.copy = some x) : poolWaitEnd s = fillBand x w.plane w.band (grantBand w s) := by
  simp only [poolWaitEnd, hw, hf, hx]
  rfl

/-- Settles O14: each command through its body in the state its taking leaves, and each turn of a lane through the line or band it takes. -/
theorem glazeRuns : Obligations.GlazeRuns := by
  refine ⟨?load, ?loadEvicting, ?evict, ?band, ?continuous, ?scanning, ?carriage, ?copyBand, ?poolWait⟩
  case load =>
    intro d tile handle x s ha h0 hnew hx hf hc hg hroom hlen
    have hbody := bodyTileLoad_loads (u := taken d s) h0 hnew hx hf hc hg (makeRoom_fits hroom hlen)
    refine admitted_next ha rfl (streamObjs_nil rfl _ _)
      (bodyTileLoad_keeps _ _ _ _ _ (by decide) ((taken_only d s).mono (by decide))) ?_
    rw [hbody]
    exact ⟨complete_only 0 0 (addTile_only _ _) (by decide), congrArg Glaze.tiles (complete_glz _ _ _ _)⟩
  case loadEvicting =>
    intro d tile handle x s u ha h0 hnew hx hf hc hg hroom
    refine admitted_next ha rfl (streamObjs_nil rfl _ _)
      (bodyTileLoad_keeps _ _ _ _ _ (by decide) ((taken_only d s).mono (by decide))) ?_
    rw [bodyTileLoad_loads h0 hnew hx hf hc hg hroom, ok, complete_glz]
    refine ⟨⟨_, List.mem_append_right _ (List.mem_singleton.mpr rfl), rfl, rfl, rfl, rfl, rfl⟩, fun z hz hp => ?_,
      fun p hp => parked_complete_ne hp⟩
    exact List.mem_append_left _ (makeRoom_spares hroom hz hp)
  case evict =>
    intro d tile x s ha hx hp
    refine admitted_next ha rfl rfl (bodyTileEvict_keeps _ _ _ (by decide) ((taken_only d s).mono (by decide))) ?_
    rw [bodyTileEvict_drops (h := hdrOf d s) (s := taken d s) hx hp]
    exact ⟨complete_only 0 0 (dropTile_only _ _) (by decide), congrArg Glaze.tiles (complete_glz _ _ _ _)⟩
  case band =>
    intro ini v s hw hcopies
    exact next_at (execGlzBandWrite_keeps ini v s) (by decide)
      (congrArg Host.Outcome.next (guardWrite_writable hw (inRange_none v (by decide)) _)) (glzBandWrite_sets hcopies)
  case continuous =>
    intro lane w l s hl u hw hb hn hc g r v
    refine next_at (execGlazeLine_keeps lane s) (by decide) (congrArg Host.Outcome.next (glazeLine_continuous hl rfl hw hb hn hc)) ?_
    intro hlate d hd hr
    rw [refreshLt_glz]
    exact stageAndGo_staged (u := v) hlate _ _ _ _ hd hr
  case scanning =>
    intro lane w l s hl u hw hb hn hc
    refine next_at (execGlazeLine_keeps lane s) (by decide) (congrArg Host.Outcome.next (glazeLine_scanning hl rfl hw hb hn hc)) ?_
    exact ⟨_, List.mem_cons_self, rfl, rfl, rfl, rfl⟩
  case carriage =>
    intro lane w s hl u hw hb hn g
    refine next_at (execGlazeLine_keeps lane s) (by decide) (congrArg Host.Outcome.next (glazeLine_carriage hl rfl hw hb hn)) ?_
    intro hlate d hd hr
    exact ⟨_, stageAndGo_staged hlate _ _ _ _ hd hr, rfl, rfl, rfl, length_carriageLine _ _ _ _ _⟩
  case copyBand =>
    intro lane w b s hl u hw hb hn
    have hglz : u.glz = s.glz := decoded_glz s
    by_cases hf : poolUsed u + bandMiB u w.copy w.plane ≤ 512
    · refine next_at (execGlazeBand_keeps lane s) (by decide) (congrArg Host.Outcome.next (glazeBand_fits hl rfl hw hb hn hf)) ?_
      rw [if_pos hf, (fillBand_pool _ _ _ _).1, ← hglz]
      exact ⟨rfl, fun q hq => mem_fillBand_pool _ _ _ (openBand w.copy w.plane b false u) hq⟩
    · refine next_at (execGlazeBand_keeps lane s) (by decide) (congrArg Host.Outcome.next (glazeBand_waits hl rfl hw hb hn hf)) ?_
      rw [if_neg hf, reportWait_glz, reportWait_counts, ← hglz]
      exact ⟨rfl, rfl, congrArg (fun n => min 0xFFFFFFFF (n + 1)) ((decoded_only s).rn (by decide))⟩
  case poolWait =>
    intro w x s hw hf hx
    refine next_at (execGlazePoolWaitEnd_keeps s) (by decide) (congrArg Host.Outcome.next (poolWaitEnd_fills hw hf hx)) ?_
    exact ⟨(fillBand_pool _ _ _ _).1, fun q hq => mem_fillBand_pool _ _ _ (grantBand w s) hq⟩

end Sys2Proof.Machine
end

section
/-! SUPPORT. The proofs that the threshold arrays' bytes are in canonical form after reset and stay so (O5, O6). -/

namespace Sys2Proof.Machine
open Sys2Proof

/-- A step keeps the canonical form of the threshold arrays' bytes (R214), as every operation it is made of does. -/
theorem step_keeps_canonical {s t : State} (e : step s = .next t) (hw : Memory.wf s.til.arrays = true) :
    Memory.wf t.til.arrays = true := by
  obtain ⟨_, h | h⟩ := step_kept e
  · exact h.mem hw
  · exact h.mem hw

/-- Settles O6: what a step keeps, from whatever state it starts in. -/
theorem arraysStayCanonical : Obligations.ArraysStayCanonical := fun _ _ hw e => step_keeps_canonical e hw

/-- Settles O5: no byte of an array is listed after reset. -/
theorem arraysCanonicalAtReset : Obligations.ArraysCanonicalAtReset :=
  have h : State.reset.til.arrays = [] := rfl
  ⟨by rw [h]; rfl, fun a => by rw [h]; rfl⟩

end Sys2Proof.Machine
end

section
/-! SUPPORT. What the operations of Tiller's engines leave of entries, engines, rows and the counts of row-lines (O42, O43). -/

namespace Sys2Proof.Machine
open Sys2Proof

/-! ## Entries (R223 to R225) -/

/-- A sealed entry's byte 28 agrees. -/
@[simp] theorem Entry.seal_good (e : Entry) : e.seal.good = true := decide_eq_true rfl

theorem entry_congr {s t : State} (he : t.til.entries = s.til.entries) (hl : t.til.lastOf = s.til.lastOf) (i : Nat) :
    entry t i = entry s i := by
  rw [entry, entry, he, hl]

theorem Keeps.entry {ps : List Part} {s t : State} (k : Keeps ps s t) (h : Part.entries ∉ ps) (i : Nat) :
    Machine.entry t i = Machine.entry s i :=
  have ⟨he, hl⟩ := k.only .entries h
  entry_congr he hl i

@[simp] theorem entry_putEntry_self (i : Nat) (e : Entry) (s : State) : entry (putEntry i e s) i = e := by
  simp [entry, putEntry]

theorem entry_putEntry_ne {i j : Nat} (e : Entry) (s : State) (h : j ≠ i) : entry (putEntry i e s) j = entry s j := by
  simp [entry, putEntry, tfind_tput_ne _ _ h]

@[simp] theorem entry_noteChanged (i : Nat) (s : State) (j : Nat) : entry (noteChanged i s) j = entry s j := by
  unfold noteChanged
  split <;> rfl

/-! ## Engines and rows -/

@[simp] theorem engine_updEngine_self (e : Nat) (f : Engine → Engine) (s : State) : engine (updEngine e f s) e = f (engine s e) := by
  simp [engine, updEngine]

theorem engine_congr {s t : State} (h : t.til.engines = s.til.engines) (e : Nat) : engine t e = engine s e := by
  rw [engine, engine, h]

theorem Keeps.tiller {ps : List Part} {s t : State} (k : Keeps ps s t) (h : Part.til ∉ ps) :
    { t.til with arrays := [], entries := [], lastOf := [] } = { s.til with arrays := [], entries := [], lastOf := [] } := k.only .til h

theorem Keeps.engine {ps : List Part} {s t : State} (k : Keeps ps s t) (h : Part.til ∉ ps) (e : Nat) :
    Machine.engine t e = Machine.engine s e := engine_congr (congrArg Tiller.engines (k.tiller h) :) e

theorem Keeps.row {ps : List Part} {s t : State} (k : Keeps ps s t) (h : Part.kln ∉ ps) (a b : Nat) :
    Machine.row t a b = Machine.row s a b := row_congr (k.only .kln h) a b

end Sys2Proof.Machine
end

section
/-! SUPPORT. The proofs of what Tiller's engines do: row-lines, fills, reversals and restores (O42). -/

namespace Sys2Proof.Machine
open Sys2Proof

/-! ## What a nozzle's share of a row-line leaves of its engine's counts of row-lines (R204, R206) -/

/-- The words of an engine's counts: of row-lines, and of those that straddle a latch. -/
def rowLineKeys (e : Nat) : List Nat := [Reg.TIL_E_ROWLINES e, Reg.TIL_E_ROWLINES e + 4, Reg.TIL_E_STRADDLE_CNT e]

/-- An engine's counts of row-lines read as they did. -/
def RowCountsAlike (e : Nat) (s t : State) : Prop := ∀ k ∈ rowLineKeys e, rd t k = rd s k

theorem keyKind_rowLineKeys {e k : Nat} (h : k ∈ rowLineKeys e) : keyKind k = .tilE := by
  simp only [rowLineKeys, List.mem_cons, List.not_mem_nil, or_false] at h
  rcases h with rfl | rfl | rfl <;> simp

/-- The registers of an engine's page at other offsets are not these counts. -/
theorem not_mem_rowLineKeys {off : Nat} (h : off ∉ [0x040068, 0x04006C, 0x040074]) (e : Nat) :
    off + e % 128 * 0x1000 ∉ rowLineKeys e := by
  simp only [rowLineKeys, Reg.TIL_E_ROWLINES, Reg.TIL_E_STRADDLE_CNT, List.mem_cons, List.not_mem_nil, or_false, not_or] at h ⊢
  omega

theorem RowCountsAlike.refl (e : Nat) (s : State) : RowCountsAlike e s s := fun _ _ => rfl

theorem RowCountsAlike.trans {e : Nat} {s t u : State} (h : RowCountsAlike e s t) (k : RowCountsAlike e t u) : RowCountsAlike e s u :=
  fun a ha => (k a ha).trans (h a ha)

theorem RowCountsAlike.of_keeps {e : Nat} {ps : List Part} {s t : State} (k : Keeps ps s t) (h : Part.reg .tilE ∉ ps) :
    RowCountsAlike e s t := fun _ ha => k.rd (by rwa [keyKind_rowLineKeys ha])

theorem RowCountsAlike.inc {off : Nat} (h : off ∉ [0x040068, 0x04006C, 0x040074]) (e n : Nat) (s : State) :
    RowCountsAlike e s (inc (off + e % 128 * 0x1000) n s) :=
  fun _ ha => rd_wr_ne _ _ fun h' => not_mem_rowLineKeys h e (h' ▸ ha)

theorem RowCountsAlike.inc64 {off : Nat} (h : off ∉ [0x040068, 0x04006C, 0x040074]) (h4 : off + 4 ∉ [0x040068, 0x04006C, 0x040074])
    (e n : Nat) (s : State) : RowCountsAlike e s (inc64 (off + e % 128 * 0x1000) n s) :=
  fun _ ha => rd_wn64_ne _ _ (fun h' => not_mem_rowLineKeys h e (h' ▸ ha)) fun h' =>
    not_mem_rowLineKeys h4 e (Nat.add_right_comm off 4 _ ▸ h' ▸ ha)

theorem RowCountsAlike.raised (e n b code : Nat) (ten : Option Nat) (pl : List Byte) (s : State) :
    RowCountsAlike e s (raiseIrq n b (event code ten pl s)) :=
  fun k ha => (rd_raiseIrq n b _ k).trans (rd_event (by rw [keyKind_rowLineKeys ha]; decide))

theorem engineCount_rowCounts (e cls code : Nat) (spit : Bool) (s : State) : RowCountsAlike e s (engineCount e cls code spit s) := by
  unfold engineCount
  split
  · extract_lets v s1
    have h1 : RowCountsAlike e s s1 :=
      ((RowCountsAlike.inc64 (by decide) (by decide) e 1 s).trans (RowCountsAlike.inc64 (by decide) (by decide) e v _)).trans
        (RowCountsAlike.of_keeps (tallyInk_keeps _ _ _ (fun _ q => q) (Keeps.refl _ _)) (by decide))
    split
    · exact h1.trans (RowCountsAlike.inc (by decide) e 1 s1)
    · exact h1
  · split
    · exact RowCountsAlike.inc64 (by decide) (by decide) e 1 s
    · exact RowCountsAlike.refl e s

theorem stage10_rowCounts (e i : Nat) (f : BitVec 32) (code : Nat) (spit : Bool) (s : State) :
    RowCountsAlike e s (stage10 e i f code spit s) := by
  have h : (stage10 e i f code spit s).regs = (engineCount e (entry s i).volClass.toNat code spit s).regs := by
    unfold stage10
    dsimp only
    repeat' split
    all_goals rfl
  exact (engineCount_rowCounts e _ code spit s).trans fun k _ => by rw [rd, rd, h]

theorem winCode_rowCounts (e : Nat) (side : Bool) (p slot h n : Nat) (line : Option Nat) (code : Nat) (s : State) :
    RowCountsAlike e s (winCode side p slot h n line code s) :=
  RowCountsAlike.of_keeps (winCode_keeps side p slot h n line code s (fun _ q => q) (Keeps.refl _ s)) (by decide)

theorem nozzleLine_rowCounts (p e h r : Nat) (t : PlaneTable) (f : BitVec 32) (y slot : Nat) (line : Option Nat) (gap : Bool)
    (px : List Nat) (pos : Nat) (acc : State × List (Nat × Nat) × List Undo) :
    RowCountsAlike e acc.1 (nozzleLine p e h r t f y slot line gap px pos acc).1 := by
  obtain ⟨s, codes, undo⟩ := acc
  unfold nozzleLine
  dsimp only
  split
  · exact ((RowCountsAlike.inc (by decide) e 1 s).trans (RowCountsAlike.raised e _ _ _ _ _ _)).trans (winCode_rowCounts e _ _ _ _ _ _ _ _)
  · generalize stage9 _ _ _ _ _ _ _ _ = c
    obtain ⟨code, spit, exceeded⟩ := c
    refine RowCountsAlike.trans ?_ ((stage10_rowCounts e _ f code spit _).trans (winCode_rowCounts e _ _ _ _ _ _ _ _))
    split
    · exact (RowCountsAlike.inc (by decide) e 1 s).trans (RowCountsAlike.raised e _ _ _ _ _ _)
    · exact RowCountsAlike.refl e s

theorem runRowLine_rowCounts (p e r : Nat) (t : PlaneTable) (f : BitVec 32) (line : Option Nat) (gap : Bool) (slot : Nat)
    (px : List Nat) (s : State) : RowCountsAlike e s (runRowLine p e r t f line gap slot px s) :=
  List.foldlRecOn (motive := fun acc => RowCountsAlike e s acc.1) _ _ (RowCountsAlike.refl e s) fun acc h pos _ =>
    h.trans (nozzleLine_rowCounts p e _ r t f _ slot line gap px pos acc)

theorem RowCountsAlike.rowLines {e : Nat} {s t : State} (h : RowCountsAlike e s t) :
    rn64 t (Reg.TIL_E_ROWLINES e) = rn64 s (Reg.TIL_E_ROWLINES e) := by
  rw [rn64, rn64, rn_congr (h _ (by simp [rowLineKeys])), rn_congr (h (Reg.TIL_E_ROWLINES e + 4) (by simp [rowLineKeys]))]

theorem RowCountsAlike.straddles {e : Nat} {s t : State} (h : RowCountsAlike e s t) :
    rn t (Reg.TIL_E_STRADDLE_CNT e) = rn s (Reg.TIL_E_STRADDLE_CNT e) := rn_congr (h _ (by simp [rowLineKeys]))

/-! ## Row-lines and gap row-lines (R204, R206, R235) -/

/-- A sheaf of a running line stands in a row's FIFO, and owes nothing of an engine. -/
def PartMade (s : State) (e r : Nat) (f : BitVec 32) : Prop := ∃ z ∈ (row s (e / 2) r).fifo, z.f = f ∧ e ∉ z.missing

/-- An engine that runs its part of a row-line makes its part of the sheaf, begun by it or by another engine. -/
theorem runRowLine_made (p e r : Nat) (t : PlaneTable) (f : BitVec 32) (line : Option Nat) (gap : Bool) (slot : Nat) (px : List Nat)
    (s : State) : PartMade (runRowLine p e r t f line gap slot px s) e r f := by
  unfold PartMade runRowLine
  extract_lets h v res s1 others add fresh
  rw [row_updRow_self]
  dsimp only
  split
  case isTrue hany =>
    obtain ⟨z, hz, hf⟩ := List.any_eq_true.mp hany
    have hadd : (add z).f = f ∧ e ∉ (add z).missing := by
      simp only [add, if_pos (of_decide_eq_true hf)]
      exact ⟨of_decide_eq_true hf, by simp⟩
    exact ⟨add z, List.mem_map_of_mem hz, hadd⟩
  case isFalse =>
    exact ⟨fresh, List.mem_append_right _ List.mem_cons_self, rfl, by simp [fresh, others]⟩

theorem PartMade.of_kln {s t : State} {e r : Nat} {f : BitVec 32} (h : PartMade s e r f) (k : t.kln = s.kln) : PartMade t e r f := by
  rwa [PartMade, row_congr k]

/-- What an engine notes of a row-line it has screened: that it ran it, its cost and its counts. -/
def countLine (e r : Nat) (f : BitVec 32) (cost : Nat) (straddle : Bool) (s : State) : State :=
  let u := noteCost e r cost (inc64 (Reg.TIL_E_ROWLINES e) 1 (noteRun e r f s))
  if straddle then inc (Reg.TIL_E_STRADDLE_CNT e) 1 u else u

/-- A screened row-line is run and counted; what staging it then frees is Glaze's. -/
theorem screenLine_eq (p e r : Nat) (t : PlaneTable) (f : BitVec 32) (y slot : Nat) (straddle : Bool) (x : Staged) (s : State) :
    ∃ cost glz, screenLine p e r t f y slot straddle x s =
      { countLine e r f cost straddle (runRowLine p e r t f (some y) false slot x.px s) with glz } := by
  unfold screenLine
  extract_lets h ps s1 s2 s3
  split
  · exact ⟨_, _, rfl⟩
  · exact ⟨_, _, rfl⟩

theorem countLine_kln (e r : Nat) (f : BitVec 32) (cost : Nat) (straddle : Bool) (s : State) :
    (countLine e r f cost straddle s).kln = s.kln := by
  unfold countLine
  dsimp only
  split <;> rfl

theorem countLine_til (e r : Nat) (f : BitVec 32) (cost : Nat) (straddle : Bool) (s : State) :
    (countLine e r f cost straddle s).til = (noteCost e r cost (noteRun e r f s)).til := by
  unfold countLine
  dsimp only
  split <;> rfl

theorem noteRun_lastRun (e r : Nat) (f : BitVec 32) (s : State) : (engine (noteRun e r f s) e).lastRun = some (r, f) := by
  rw [noteRun, engine_updEngine_self]

theorem noteCost_lastRun (e r c : Nat) (s : State) : (engine (noteCost e r c s) e).lastRun = (engine s e).lastRun := by
  have h : engine (noteCost e r c s) e = { engine s e with cost := tput (engine s e).cost r c } :=
    engine_updEngine_self e (fun g => { g with cost := tput g.cost r c }) s
  rw [h]

theorem countLine_lastRun (e r : Nat) (f : BitVec 32) (cost : Nat) (straddle : Bool) (s : State) :
    (engine (countLine e r f cost straddle s) e).lastRun = some (r, f) := by
  rw [engine_congr (congrArg Tiller.engines (countLine_til e r f cost straddle s)), noteCost_lastRun, noteRun_lastRun]

theorem rn64_wn_ne {j k : Nat} (v : Nat) (s : State) (h : j ≠ k) (h4 : j + 4 ≠ k) : rn64 (wn k v s) j = rn64 s j := by
  rw [rn64, rn_wn_ne v s h, rn_wn_ne v s h4, rn64]

/-- The words that `countLine` writes are apart. -/
theorem countLine_words (e : Nat) : Reg.TIL_E_LINE_CYC e < Reg.TIL_E_ROWLINES e ∧ Reg.TIL_E_ROWLINES e + 4 < Reg.TIL_E_STRADDLE_CNT e := by
  simp only [Reg.TIL_E_LINE_CYC, Reg.TIL_E_ROWLINES, Reg.TIL_E_STRADDLE_CNT]
  omega

theorem countLine_rowLines (e r : Nat) (f : BitVec 32) (cost : Nat) (straddle : Bool) (s : State) :
    rn64 (countLine e r f cost straddle s) (Reg.TIL_E_ROWLINES e) = (rn64 s (Reg.TIL_E_ROWLINES e) + 1) % 2 ^ 64 := by
  obtain ⟨h1, h2⟩ := countLine_words e
  have hu : rn64 (noteCost e r cost (inc64 (Reg.TIL_E_ROWLINES e) 1 (noteRun e r f s))) (Reg.TIL_E_ROWLINES e) =
      (rn64 s (Reg.TIL_E_ROWLINES e) + 1) % 2 ^ 64 :=
    (rn64_wn_ne _ _ (by omega) (by omega)).trans (rn64_inc64_self _ 1 (noteRun e r f s))
  unfold countLine
  dsimp only
  split
  · exact (rn64_wn_ne _ _ (by omega) (by omega)).trans hu
  · exact hu

theorem countLine_straddles (e r : Nat) (f : BitVec 32) (cost : Nat) (straddle : Bool) (s : State) :
    rn (countLine e r f cost straddle s) (Reg.TIL_E_STRADDLE_CNT e) =
      if straddle then min 0xFFFFFFFF (rn s (Reg.TIL_E_STRADDLE_CNT e) + 1) else rn s (Reg.TIL_E_STRADDLE_CNT e) := by
  obtain ⟨h1, h2⟩ := countLine_words e
  have hu : rn (noteCost e r cost (inc64 (Reg.TIL_E_ROWLINES e) 1 (noteRun e r f s))) (Reg.TIL_E_STRADDLE_CNT e) =
      rn s (Reg.TIL_E_STRADDLE_CNT e) := (rn_wn_ne _ _ (by omega)).trans (rn_wn64_ne _ (noteRun e r f s) (by omega) (by omega))
  unfold countLine
  dsimp only
  split
  · rw [rn_inc_self, hu]
  · exact hu

theorem tillerRowLine_screens {e r p y : Nat} {tab : PlaneTable} {st : Bool} {x : Staged} {s : State} (hp : planeOfHead s (e / 2) = some p)
    (hn : nextRow s p e = some r) (ht : (plane s p).table = some tab) (hw : rowWork s p e r = some (.screen y st x)) :
    let f := (row s (e / 2) r).nextF
    tillerRowLine e r s = screenLine p e r tab f y (screenSlot s p (e / 2) r f) st x s := by
  simp only [tillerRowLine, hp, hn, ht, hw, ne_eq, not_true_eq_false, if_false]

theorem gapRowLine_runs {e r p : Nat} {tab : PlaneTable} {line : Option Nat} {s : State} (hp : planeOfHead s (e / 2) = some p)
    (hn : nextRow s p e = some r) (ht : (plane s p).table = some tab) (hw : rowWork s p e r = some (.gap line)) :
    let f := (row s (e / 2) r).nextF
    gapRowLine e r s = noteRun e r f (runRowLine p e r tab f line true (screenSlot s p (e / 2) r f) [] s) := by
  simp only [gapRowLine, hp, hn, ht, hw, ne_eq, not_true_eq_false, if_false]

/-! ## Fills (R259) -/

/-- A row once an engine has done its part of a fill. -/
def fillPaid (e : Nat) (x : Fill) (mine : List Undo) (g : Row) : Row :=
  let left := x.engines.filter (· ≠ e)
  { g with
    fills := (g.fills.map fun z => if z.f = x.f then { z with engines := left } else z).filter fun z => !decide (z.f = x.f ∧ left = []),
    under := g.under.map fun z => if z.f = x.f then { z with undo := mine ++ z.undo } else z }

theorem fillPaid_owes (e : Nat) (x : Fill) (mine : List Undo) (g : Row) : ∀ z ∈ (fillPaid e x mine g).fills, z.f = x.f → e ∉ z.engines := by
  intro z hz hf
  obtain ⟨w, -, rfl⟩ := List.mem_map.mp (List.mem_filter.mp hz).1
  split at hf
  case isTrue h => simp [h]
  case isFalse h => exact absurd hf h

/-- An engine's part of a fill: its codes count, it ran no row-line last, and its row's debt is paid. -/
def fillDone (p e r : Nat) (x : Fill) (s : State) : State :=
  updRow (e / 2) r (fillPaid e x (fillUndo s e r x)) (updEngine e (fun g => { g with lastRun := none }) (fillCodes p e r x s))

/-- Beside the engine's part a whole fill frees staging lines alone (R205). -/
theorem fillRowLine_done {e r p : Nat} {x : Fill} {s : State} (hp : planeOfHead s (e / 2) = some p) (hx : nextFill s e r = some x) :
    Keeps [.glz] (fillDone p e r x s) (fillRowLine e r s) := by
  unfold fillRowLine
  simp only [hp, hx]
  split
  · exact fillStaging_keeps _ _ _ _ _ (fun _ q => q) (Keeps.refl _ _)
  · exact Keeps.refl _ _

theorem fillRowLine_runs {e r p : Nat} {x : Fill} {s : State} (hp : planeOfHead s (e / 2) = some p) (hx : nextFill s e r = some x) :
    (engine (fillRowLine e r s) e).lastRun = none ∧ ∀ z ∈ (row (fillRowLine e r s) (e / 2) r).fills, z.f = x.f → e ∉ z.engines := by
  have hk := fillRowLine_done hp hx
  rw [hk.engine (by decide), hk.row (by decide)]
  constructor
  · exact congrArg Engine.lastRun (engine_updEngine_self e (fun g => { g with lastRun := none }) (fillCodes p e r x s))
  · rw [fillDone, row_updRow_self]
    exact fillPaid_owes _ _ _ _

/-! ## Reversals (R230, R260) -/

/-- A row once an engine has reversed its part of a row-line. -/
def reversalPaid (e : Nat) (x : Reversal) (g : Row) : Row :=
  let left := x.engines.filter (· ≠ e)
  { g with reversals :=
      (g.reversals.map fun z => if z.f = x.f then { z with engines := left } else z).filter fun z => !decide (z.f = x.f ∧ left = []) }

theorem reversalPaid_owes (e : Nat) (x : Reversal) (g : Row) : ∀ z ∈ (reversalPaid e x g).reversals, z.f = x.f → e ∉ z.engines := by
  intro z hz hf
  obtain ⟨w, -, rfl⟩ := List.mem_map.mp (List.mem_filter.mp hz).1
  split at hf
  case isTrue h => simp [h]
  case isFalse h => exact absurd hf h

theorem reversalPaid_fifo (e : Nat) (x : Reversal) (g : Row) : (reversalPaid e x g).fifo = g.fifo := rfl

/-- The nozzles an engine serves give back what they counted. -/
def undoAll (e r : Nat) (f : BitVec 32) (us : List Undo) (s : State) : State := us.foldl (fun t u => undoEntry e r f u t) s

theorem underrunReversal_eq {e r : Nat} {x : Reversal} {s : State}
    (hx : ((row s (e / 2) r).reversals.find? fun x => x.engines.contains e) = some x) : underrunReversal e r s =
      updRow (e / 2) r (reversalPaid e x) (undoAll e r x.f (x.undo.filter fun u => servesAt x.split e (u.nozzle % 4096)) s) := by
  unfold underrunReversal
  simp only [hx]
  rfl

theorem uncount_til (e : Nat) (u : Undo) (s : State) : (uncount e u s).til = s.til := by
  unfold uncount
  dsimp only
  repeat' split
  all_goals rfl

theorem entry_undoEntry_ne {e r i : Nat} {f : BitVec 32} {u : Undo} (h : u.nozzle ≠ i) (s : State) :
    entry (undoEntry e r f u s) i = entry s i := by
  have hc : entry (uncount e u s) i = entry s i := by rw [entry, entry, uncount_til]
  unfold undoEntry
  dsimp only
  split
  · rw [entry_putEntry_ne _ _ (Ne.symm h), apply_ite (entry · i), entry_noteChanged, ite_self, hc]
  · exact hc

theorem entry_undoAll_ne {e r i : Nat} {f : BitVec 32} {us : List Undo} (h : ∀ u ∈ us, u.nozzle ≠ i) (s : State) :
    entry (undoAll e r f us s) i = entry s i :=
  foldl_holds (I := fun t => entry t i = entry s i) us rfl fun t u hu ht => (entry_undoEntry_ne (h u hu) t).trans ht

theorem undoAll_kln (e r : Nat) (f : BitVec 32) (us : List Undo) (s : State) : (undoAll e r f us s).kln = s.kln :=
  foldl_holds (I := fun t => t.kln = s.kln) us rfl fun t u _ ht =>
    ((undoEntry_keeps e r f u t (fun _ q => q) (Keeps.refl _ t)).only .kln (by decide)).trans ht

theorem underrunReversal_runs {e r : Nat} {x : Reversal} {s : State}
    (hx : ((row s (e / 2) r).reversals.find? fun x => x.engines.contains e) = some x) :
    (∀ z ∈ (row (underrunReversal e r s) (e / 2) r).reversals, z.f = x.f → e ∉ z.engines) ∧
      (∀ i, (∀ u ∈ x.undo, u.nozzle ≠ i) → entry (underrunReversal e r s) i = entry s i) ∧
      (row (underrunReversal e r s) (e / 2) r).fifo = (row s (e / 2) r).fifo := by
  rw [underrunReversal_eq hx, row_updRow_self]
  refine ⟨reversalPaid_owes _ _ _, fun i hi => ?_, ?_⟩
  · exact entry_undoAll_ne (fun u hu => hi u (List.mem_filter.mp hu).1) s
  · exact (reversalPaid_fifo _ _ _).trans (congrArg Row.fifo (row_congr (undoAll_kln _ _ _ _ s) _ _))

/-! ## Entries that a latch applies (R225, R227) -/

/-- A nozzle whose entry mismatches takes no gain (R225). -/
theorem entry_applyGains_bad {heads : Nat → Bool} {slot i : Nat} {s : State} (hb : (entry s i).good = false) :
    entry (applyGains heads slot s) i = entry s i := by
  unfold applyGains
  extract_lets due give til s1
  have h1 : entry s1 i = entry s i := by
    refine foldl_holds (I := fun t => entry t i = entry s i) due rfl fun t q _ ht => ?_
    simp only [give]
    split
    case isTrue hg =>
      refine (entry_putEntry_ne _ _ fun hi => ?_).trans ht
      have hgood : (entry t i).good = true := hi ▸ hg
      rw [ht, hb] at hgood
      exact absurd hgood Bool.false_ne_true
    case isFalse => exact ht
  exact foldl_holds (I := fun t => entry t i = entry s i) _ h1 fun t p _ ht => ht

/-- The pending entries that a latch takes. -/
def dueEntries (among : Nat → Bool) (slot : Nat) (s : State) : List PendEntry :=
  s.til.pend.filter fun q => among (q.nozzle / 4096) && ripe s slot q.cycle &&
    (q.cmd.isNone || !heldAt s (pgTilE (2 * (q.nozzle / 4096))) slot)

/-- One pending entry applies. -/
def applyPending (f : BitVec 32) (t : State) (q : PendEntry) : State :=
  putEntry q.nozzle (appliedEntry t f q) (if q.newHead && decide ((entry t q.nozzle).fires ≠ 0) then noteChanged q.nozzle t else t)

theorem entry_applyPending_self (f : BitVec 32) (t : State) (q : PendEntry) :
    entry (applyPending f t q) q.nozzle = appliedEntry t f q := entry_putEntry_self _ _ _

theorem entry_applyPending_ne {f : BitVec 32} {t : State} {q : PendEntry} {i : Nat} (h : q.nozzle ≠ i) :
    entry (applyPending f t q) i = entry t i := by
  rw [applyPending, entry_putEntry_ne _ _ (Ne.symm h)]
  split
  · rw [entry_noteChanged]
  · rfl

/-- What is pending and due makes the entries; what a latch does beside leaves them. -/
theorem entry_applyEntries (among : Nat → Bool) (f : BitVec 32) (slot : Nat) (s : State) (i : Nat) :
    ∃ u, (∀ j, entry u j = entry (applyGains among slot s) j) ∧ entry (applyEntries among f slot s) i =
      entry ((dueEntries among slot (applyGains among slot s)).foldl (applyPending f) u) i := by
  unfold applyEntries
  extract_lets s0 takes due used til s1 vars s2 cmds
  refine ⟨{ s0 with til := { s0.til with pend := s0.til.pend.filter fun q => !takes q } }, fun _ => rfl, ?_⟩
  have h2 : entry s2 i = entry s1 i := by
    refine foldl_holds (I := fun t => entry t i = entry s1 i) used ?_ fun t p _ ht => ht
    exact foldl_holds (I := fun t => entry t i = entry s1 i) vars rfl fun t h _ ht =>
      ((variantLatch_keeps h f slot t (fun _ q => q) (Keeps.refl _ t)).entry (by decide) i).trans ht
  refine (foldl_holds (I := fun t => entry t i = entry s2 i) cmds rfl fun t c _ ht => ?_).trans h2
  extract_lets es mine t1
  have h1 : entry t1 i = entry t i := foldl_holds (I := fun v => entry v i = entry t i) _ rfl fun v l _ hv =>
    ((crkSubmit_keeps _ _ _ v (fun _ q => q) (Keeps.refl _ v)).entry (by decide) i).trans hv
  exact h1.trans ht

/-- A nozzle that something due names has an entry that agrees. -/
theorem good_applyEntries {among : Nat → Bool} {f : BitVec 32} {slot : Nat} {s : State} {q : PendEntry}
    (hq : q ∈ dueEntries among slot (applyGains among slot s)) : (entry (applyEntries among f slot s) q.nozzle).good = true := by
  have hself : ∀ (t : State) (b : PendEntry), (entry (applyPending f t b) b.nozzle).good = true := fun t b => by
    rw [entry_applyPending_self, appliedEntry]
    exact Entry.seal_good _
  obtain ⟨u, -, h⟩ := entry_applyEntries among f slot s q.nozzle
  rw [h]
  refine foldl_reaches (I := fun _ => True) (P := fun t => (entry t q.nozzle).good = true) hq trivial (fun _ _ _ _ => trivial)
    (fun t _ => hself t q) fun t b _ _ _ ht => ?_
  by_cases hb : b.nozzle = q.nozzle
  · exact hb ▸ hself t b
  · rw [entry_applyPending_ne hb]
    exact ht

/-- A nozzle that the first entry due names, and no other, takes that entry. -/
theorem entry_applyEntries_first {among : Nat → Bool} {f : BitVec 32} {slot : Nat} {s : State} {q : PendEntry} {rest : List PendEntry}
    (hq : dueEntries among slot (applyGains among slot s) = q :: rest) (hr : ∀ b ∈ rest, b.nozzle ≠ q.nozzle) (hn : q.newHead = false) :
    entry (applyEntries among f slot s) q.nozzle = ((entry (applyGains among slot s) q.nozzle).withCfg q.cfg).seal := by
  obtain ⟨u, hu, h⟩ := entry_applyEntries among f slot s q.nozzle
  rw [h, hq, List.foldl_cons]
  refine (foldl_holds (I := fun t => entry t q.nozzle = entry (applyPending f u q) q.nozzle) rest rfl fun t b hb ht =>
    (entry_applyPending_ne (hr b hb)).trans ht).trans ?_
  rw [entry_applyPending_self, appliedEntry, hu, hn]
  rfl

/-! ## Restores (R225) -/

/-- The change that restores a nozzle's journaled configuration. -/
def restoring (s : State) (i : Nat) : PendEntry :=
  { nozzle := i, cfg := journaled s i, unretire := false, newHead := false, cmd := none, cycle := fabCycle s }

/-- A restore that waits for its head's latch, Kiln filling a bank anew where the variant differs. -/
def restorePending (i : Nat) (s : State) : State :=
  let s1 := { s with til := { s.til with pend := restoring s i :: s.til.pend } }
  if (journaled s i).variant = (entry s i).variant then s1 else startFill (i / 4096) s1

theorem entryRestore_eq {i : Nat} {s : State} (hb : (entry s i).good = false) (hn : ∀ q ∈ s.til.pend, q.cmd = none → q.nozzle ≠ i) :
    entryRestore i s = idleEntries (i / 4096) (restorePending i s) := by
  unfold entryRestore
  refine if_neg ?_
  rw [hb, Bool.false_or, Bool.not_eq_true, List.any_eq_false]
  exact fun q hq hqi => hn q hq (of_decide_eq_true hqi).2 (of_decide_eq_true hqi).1

theorem restorePending_keeps (i : Nat) (s : State) : Keeps [.ports, .til] s (restorePending i s) := by
  have h1 : Keeps [.ports, .til] s { s with til := { s.til with pend := restoring s i :: s.til.pend } } :=
    Keeps.set_til rfl (Or.inr ⟨rfl, rfl⟩) (Or.inl (by decide)) (Keeps.refl _ s)
  unfold restorePending
  dsimp only
  split
  · exact h1
  · exact startFill_keeps _ _ (by decide) h1

theorem restorePending_pend (i : Nat) (s : State) : (restorePending i s).til.pend = restoring s i :: s.til.pend := by
  unfold restorePending startFill
  dsimp only
  repeat' split
  all_goals rfl

theorem planeOfHead_congr {s t : State} (h : t.kln = s.kln) (g : Nat) : planeOfHead t g = planeOfHead s g := by
  have hh : ∀ p, planeHeads t p = planeHeads s p := fun p => by rw [planeHeads, planeHeads, plane_congr h]
  simp only [planeOfHead, hh]

/-- What waits for a head of a plane that runs goes on waiting. -/
theorem idleEntries_live {h p : Nat} {s : State} (hp : planeOfHead s h = some p) (hr : (plane s p).state ≠ .stopped) : idleEntries h s = s := by
  unfold idleEntries
  rw [hp]
  exact idleTables_live hr

theorem idleEntries_unplaced {h : Nat} {s : State} (hp : planeOfHead s h = none) :
    idleEntries h s = applyEntries (fun g => decide (g = h)) 0 noSlot s := by
  unfold idleEntries
  rw [hp]

/-- A restore of a nozzle of a head in a running plane waits for the latch. -/
theorem entryRestore_live {i p : Nat} {s : State} (hb : (entry s i).good = false) (hn : ∀ q ∈ s.til.pend, q.cmd = none → q.nozzle ≠ i)
    (hp : planeOfHead s (i / 4096) = some p) (hr : (plane s p).state ≠ .stopped) : entryRestore i s = restorePending i s := by
  have hk : (restorePending i s).kln = s.kln := (restorePending_keeps i s).only .kln (by decide)
  rw [entryRestore_eq hb hn]
  exact idleEntries_live ((planeOfHead_congr hk _).trans hp) (by rwa [plane_congr hk])

/-- The restore that waits for a head in no plane is the first of what an idle latch takes. -/
theorem dueEntries_restore (i : Nat) (s : State) : let among := fun g => decide (g = i / 4096)
    ∃ rest, dueEntries among noSlot (applyGains among noSlot (restorePending i s)) = restoring s i :: rest ∧ ∀ q ∈ rest, q ∈ s.til.pend := by
  intro among
  have hpend : (applyGains among noSlot (restorePending i s)).til.pend = restoring s i :: s.til.pend :=
    (congrArg Tiller.pend ((applyGains_keeps among noSlot _ (fun _ q => q) (Keeps.refl _ _)).tiller (by decide)) :).trans
      (restorePending_pend i s)
  unfold dueEntries
  rw [hpend, List.filter_cons_of_pos (by simp [among, restoring, ripe])]
  exact ⟨_, rfl, fun q hq => (List.mem_filter.mp hq).1⟩

/-- A restore of a nozzle of a head in no plane applies at once. -/
theorem entryRestore_unplaced {i : Nat} {s : State} (hb : (entry s i).good = false) (hn : ∀ q ∈ s.til.pend, q.cmd = none → q.nozzle ≠ i)
    (hp : planeOfHead s (i / 4096) = none) : (entry (entryRestore i s) i).good = true ∧
      ((∀ q ∈ s.til.pend, q.nozzle ≠ i) → entry (entryRestore i s) i = ((entry s i).withCfg (journaled s i)).seal) := by
  have hk := restorePending_keeps i s
  have he : entry (restorePending i s) i = entry s i := hk.entry (by decide) i
  obtain ⟨rest, hdue, hrest⟩ := dueEntries_restore i s
  rw [entryRestore_eq hb hn, idleEntries_unplaced ((planeOfHead_congr (hk.only .kln (by decide)) _).trans hp)]
  constructor
  · exact good_applyEntries (q := restoring s i) (hdue ▸ List.mem_cons_self)
  · intro hothers
    refine (entry_applyEntries_first (q := restoring s i) hdue (fun b hb => hothers b (hrest b hb)) rfl).trans ?_
    rw [show (restoring s i).nozzle = i from rfl, entry_applyGains_bad (by rw [he]; exact hb), he]
    rfl

/-- Settles O42: each engine's work through what it leaves of its row, its engine and its counts, and a restore through the latch it waits
for. -/
theorem tillerEnginesRun : Obligations.TillerEnginesRun := by
  refine ⟨?screen, ?gap, ?fill, ?reversal, ?restore⟩
  case screen =>
    intro e r p y tab st x s hp hn ht hw f
    refine next_at (execTillerRowLine_keeps e r s) (by decide)
      (congrArg Host.Outcome.next (tillerRowLine_screens hp hn ht hw)) ?_
    obtain ⟨cost, glz, h⟩ := screenLine_eq p e.val r.val tab f y (screenSlot s p (e.val / 2) r.val f) st x s
    set u := runRowLine p e.val r.val tab f (some y) false (screenSlot s p (e.val / 2) r.val f) x.px s
    have hc : RowCountsAlike e.val s u := runRowLine_rowCounts _ _ _ _ _ _ _ _ _ s
    rw [h]
    refine ⟨countLine_lastRun e.val r.val f cost st u, ?_, ?_, ?_⟩
    · exact (countLine_rowLines e.val r.val f cost st u).trans (by rw [hc.rowLines])
    · exact (countLine_straddles e.val r.val f cost st u).trans (by rw [hc.straddles])
    · exact (runRowLine_made _ _ _ _ _ _ _ _ _ s).of_kln (countLine_kln e.val r.val f cost st u)
  case gap =>
    intro e r p tab line s hp hn ht hw f
    refine next_at (execGapRowLine_keeps e r s) (by decide) (congrArg Host.Outcome.next (gapRowLine_runs hp hn ht hw)) ?_
    refine ⟨noteRun_lastRun _ _ _ _, ?_, (runRowLine_made _ _ _ _ _ _ _ _ _ s).of_kln rfl⟩
    exact (runRowLine_rowCounts p e.val r.val tab f line true (screenSlot s p (e.val / 2) r.val f) [] s).rowLines
  case fill =>
    intro e r p x s hp hx
    exact next_at (execFillRowLine_keeps e r s) (by decide) rfl (fillRowLine_runs hp hx)
  case reversal =>
    intro e r x s hx
    exact next_at (execUnderrunReversal_keeps e r s) (by decide) rfl (underrunReversal_runs hx)
  case restore =>
    intro i s hb hn
    constructor
    · intro p hp hr
      have hk := restorePending_keeps i.val s
      refine ⟨_, congrArg Host.Outcome.next (entryRestore_live hb hn hp hr), ⟨⟨restoring s i.val, ?_, rfl, rfl, rfl, rfl⟩, ?_⟩, hk.only⟩
      · rw [restorePending_pend]
        exact List.mem_cons_self
      · exact hk.entry (by decide)
    · intro hp
      exact next_at (execEntryRestore_keeps i s) (by decide) rfl (entryRestore_unplaced hb hn hp)

end Sys2Proof.Machine
end

section
/-! SUPPORT. The proofs of what watches Tiller does: the sweep, throttling and automatic splits (O43). -/

namespace Sys2Proof.Machine
open Sys2Proof

/-! ## The sweep (R233) -/

theorem tillerSweep_ages {i p : Nat} {s : State} (hp : planeOfHead s (i / 4096) = some p) (hf : isFitted s (i / 4096) (i % 4096) = true)
    (hg : (entry s i).good = true) (ha : 2 ^ 30 < ((plane s p).runline - (entry s i).last).toNat) : tillerSweep i s =
      putEntry i { entry s i with last := (plane s p).runline - BitVec.ofNat 32 (2 ^ 30) }.seal s := by
  unfold tillerSweep
  rw [hp]
  exact if_pos (by rw [hf, hg, decide_eq_true ha]; rfl)

theorem tillerSweep_rests {i : Nat} {s : State} (h : planeOfHead s (i / 4096) = none ∨
    ∃ p, planeOfHead s (i / 4096) = some p ∧ ((plane s p).runline - (entry s i).last).toNat ≤ 2 ^ 30) : tillerSweep i s = s := by
  unfold tillerSweep
  obtain hp | ⟨p, hp, ha⟩ := h
  · rw [hp]
  · rw [hp]
    exact if_neg (by rw [decide_eq_false (Nat.not_lt.mpr ha), Bool.and_false]; exact Bool.false_ne_true)

/-! ## Throttling (R202, R220) -/

/-- A raised interrupt stands in its page's raw register (R39). -/
theorem raiseIrq_raw {n b : Nat} (hb : b < 32) (s : State) : (getPage (raiseIrq n b s) n).irqRaw.getLsbD b = true := by
  rw [raiseIrq, raiseBits_page, BitVec.getLsbD_or, BitVec.getLsbD_ofNat, Nat.testBit_two_pow_self, decide_eq_true hb, Bool.and_self,
    Bool.or_true]

/-- An engine's throttle changes, a trip is counted, and where AUTO_SPLIT is 1 its head's split is due. -/
def throttleSet (e : Nat) (on : Bool) (s : State) : State :=
  let s1 := updEngine e (fun g => { g with throttled := on }) s
  let s2 := if on then inc (Reg.TIL_E_THROTTLE_CNT e) 1 s1 else s1
  { s2 with til := { s2.til with
    autoDue := if rbit s Reg.TIL_CTRL 0 && !s2.til.autoDue.contains (e / 2) then e / 2 :: s2.til.autoDue else s2.til.autoDue } }

theorem setThrottle_reports {e : Nat} {on : Bool} {s : State} (h : (engine s e).throttled ≠ on) : setThrottle e on s =
    raiseIrq pgTilC 4 (event 0x3001 none (le 1 e ++ le 1 (if on then 1 else 0)) (throttleSet e on s)) := if_neg h

theorem throttleSet_engine (e : Nat) (on : Bool) (s : State) :
    engine (throttleSet e on s) e = { engine s e with throttled := on } := by
  refine Eq.trans ?_ (engine_updEngine_self e (fun g => { g with throttled := on }) s)
  cases on <;> rfl

theorem throttleSet_counts (e : Nat) (on : Bool) (s : State) : rn (throttleSet e on s) (Reg.TIL_E_THROTTLE_CNT e) =
    if on then min 0xFFFFFFFF (rn s (Reg.TIL_E_THROTTLE_CNT e) + 1) else rn s (Reg.TIL_E_THROTTLE_CNT e) := by
  cases on
  · rfl
  · exact rn_inc_self _ 1 (updEngine e (fun g => { g with throttled := true }) s)

theorem throttleSet_autoDue (e : Nat) (on : Bool) (s : State) : (throttleSet e on s).til.autoDue =
    if rbit s Reg.TIL_CTRL 0 && !s.til.autoDue.contains (e / 2) then e / 2 :: s.til.autoDue else s.til.autoDue := by
  cases on <;> rfl

/-- What a change of an engine's throttle leaves, once reported. -/
structure ThrottleChanged (e : Nat) (on : Bool) (s t : State) : Prop where
  engine : engine t e = { engine s e with throttled := on }
  counts : rn t (Reg.TIL_E_THROTTLE_CNT e) =
    if on then min 0xFFFFFFFF (rn s (Reg.TIL_E_THROTTLE_CNT e) + 1) else rn s (Reg.TIL_E_THROTTLE_CNT e)
  due : rbit s Reg.TIL_CTRL 0 = true → e / 2 ∈ t.til.autoDue
  notDue : rbit s Reg.TIL_CTRL 0 = false → t.til.autoDue = s.til.autoDue
  reported : (getPage t pgTilC).irqRaw.getLsbD 4 = true

theorem setThrottle_changes {e : Nat} {on : Bool} {s : State} (h : (engine s e).throttled ≠ on) :
    ThrottleChanged e on s (setThrottle e on s) := by
  rw [setThrottle_reports h]
  have hk := raised_keeps (n := pgTilC) (b := 4) (code := 0x3001) (ten := none) (pl := le 1 e ++ le 1 (if on then 1 else 0)) (throttleSet e on s)
  have hdue := (congrArg Tiller.autoDue (hk.tiller (by simp)) :).trans (throttleSet_autoDue e on s)
  refine ⟨(hk.engine (by simp) e).trans (throttleSet_engine e on s), (hk.rn (by simp)).trans (throttleSet_counts e on s), ?_, ?_,
    raiseIrq_raw (by decide) _⟩
  · intro hc
    refine hdue.symm ▸ ?_
    rw [hc, Bool.true_and]
    split
    case isTrue => exact List.mem_cons_self
    case isFalse hin => simpa using hin
  · intro hc
    exact hdue.trans (by rw [hc]; rfl)

/-! ## Writes of a head's split (R22, R48, R49, R202) -/

theorem pageOf_pgTilE (e : Nat) : pageOf (pgTilE e) = some (.tilE, e % 128) := by
  have : ∀ i < 128, pageOf (0x040 + i) = some (.tilE, i) := by decide
  exact this (e % 128) (Nat.mod_lt _ (by decide))

theorem keyPage_split (h : Nat) : keyAddr (Reg.TIL_E_SPLIT h) / 0x1000 = pgTilE h := by
  simp only [keyAddr, Reg.TIL_E_SPLIT, pgTilE]
  omega

/-- The page of a head's split follows the head's plane (R47, R48). -/
theorem pagePlane_split {h : Nat} (hh : h < 64) (s : State) : pagePlane s (pgTilE (2 * h)) = planeOfHead s h := by
  rw [pagePlane, pageOf_pgTilE]
  exact congrArg (planeOfHead s) (by omega)

theorem pageIdle_split {h p : Nat} {s : State} (hh : h < 64) (hp : planeOfHead s h = some p) (hr : (plane s p).state ≠ .stopped) :
    pageIdle s (pgTilE (2 * h)) = false := by
  rw [pageIdle, pageSrc_pgTilE]
  simp only [pagePlane_split hh, hp]
  exact decide_eq_false hr

/-- A page that follows frame latches becomes pending without a change of any shadow. -/
theorem pendPage_shadows {n : Nat} (hsrc : pageSrc n ≠ 2) (hn : pageKind n ≠ .iplP) (s : State) : ShadowsAlike s (pendPage n s) := by
  unfold pendPage
  dsimp only
  rw [if_neg hsrc]
  refine ShadowsAlike.trans ?_ (idleLatch_shadows hn _)
  exact ShadowsAlike.of_regs (congrArg Regs.act (notePage_regs n s)) (congrArg Regs.shd (notePage_regs n s))

theorem split_shadow_kept {s t : State} (h : ShadowsAlike s t) (e : Nat) :
    rdShadow t (Reg.TIL_E_SPLIT e) = rdShadow s (Reg.TIL_E_SPLIT e) :=
  h _ (ne_of_keyKind (by simp)) (fun p => ne_of_keyKind (by simp)) (by simp)

theorem splitMoved_autoDue (n : Nat) (b s : State) : (splitMoved n b s).til.autoDue = s.til.autoDue := by
  unfold splitMoved
  split
  · dsimp only
    split
    · rfl
    · exact (congrArg Tiller.autoDue ((raised_keeps _).tiller (by simp)) :)
  · rfl

theorem applyPage_autoDue {n : Nat} (hn : pageKind n ≠ .iplP) (slot : Nat) (s : State) :
    (applyPage n slot s).til.autoDue = s.til.autoDue := by
  unfold applyPage commitPage
  extract_lets p p' s1 s2
  split
  · have h2 : s2.til.autoDue = s.til.autoDue :=
      (congrArg Tiller.autoDue ((raiseIrq_keeps _ _ _ (fun _ q => q) (Keeps.refl _ _)).tiller (by simp)) :)
    rw [camApplied_id hn]
    refine (splitMoved_autoDue n s _).trans (Eq.trans ?_ h2)
    exact (congrArg Tiller.autoDue ((acceptEvent_keeps _ _ _ _ _ s2 (fun _ q => q) (Keeps.refl _ _)).tiller (by decide)) :)
  · rfl

theorem pendPage_autoDue {n : Nat} (hsrc : pageSrc n ≠ 2) (hn : pageKind n ≠ .iplP) (s : State) :
    (pendPage n s).til.autoDue = s.til.autoDue := by
  have hnote : (notePage n s).til.autoDue = s.til.autoDue :=
    (congrArg Tiller.autoDue ((notePage_keeps n s (fun _ q => q) (Keeps.refl _ s)).tiller (by simp)) :)
  unfold pendPage
  dsimp only
  rw [if_neg hsrc, idleLatch]
  split
  · exact (applyPage_autoDue hn _ _).trans hnote
  · exact hnote

/-- The shadow a split is written to, on the way to its page's latch. -/
def splitShadowed (e : Nat) (v : Word) (s : State) : State :=
  deferPage (pgTilE e) (wrShadow (Reg.TIL_E_SPLIT e) v (notePage (pgTilE e) s))

theorem rwsWrite_split (e : Nat) (v : Word) (s : State) :
    rwsWrite (Reg.TIL_E_SPLIT e) v false s = pendPage (pgTilE e) (splitShadowed e v s) := by
  unfold rwsWrite
  rw [keyPage_split]
  rfl

/-- A split written is in the shadow, whether its page waits or applies. -/
theorem rwsWrite_split_shadow (e : Nat) (v : Word) (s : State) :
    rdShadow (rwsWrite (Reg.TIL_E_SPLIT e) v false s) (Reg.TIL_E_SPLIT e) = v := by
  rw [rwsWrite_split]
  refine (split_shadow_kept ((deferPage_shadows _ _).trans (pendPage_shadows ?_ ?_ _)) e).trans (rdShadow_wrShadow _ v _)
  · rw [pageSrc_pgTilE]
    decide
  · simp

theorem splitShadowed_keeps (e : Nat) (v : Word) (s : State) :
    Keeps [.reg .klnP, .reg .tilE, .msix, .out] s (splitShadowed e v s) :=
  deferPage_keeps _ _ (by simp) (wrShadow_keeps _ _ _ (by simp) (notePage_keeps _ _ (by simp) (Keeps.refl _ s)))

theorem rwsWrite_split_autoDue (e : Nat) (v : Word) (s : State) :
    (rwsWrite (Reg.TIL_E_SPLIT e) v false s).til.autoDue = s.til.autoDue := by
  rw [rwsWrite_split]
  refine (pendPage_autoDue ?_ ?_ _).trans (congrArg Tiller.autoDue ((splitShadowed_keeps e v s).tiller (by decide)) :)
  · rw [pageSrc_pgTilE]
    decide
  · simp

/-- A split written while its head's plane runs waits for the frame latch (R22, R48). -/
theorem rwsWrite_split_waits {h p : Nat} {s : State} (v : Word) (hh : h < 64) (hp : planeOfHead s h = some p)
    (hr : (plane s p).state ≠ .stopped) : rwsWrite (Reg.TIL_E_SPLIT (2 * h)) v false s =
      updPage (pgTilE (2 * h)) (fun g => { g with pending := true, wrote := true })
        (notePage (pgTilE (2 * h)) (splitShadowed (2 * h) v s)) := by
  rw [rwsWrite_split]
  set t := updPage (pgTilE (2 * h)) (fun g => { g with pending := true, wrote := true })
    (notePage (pgTilE (2 * h)) (splitShadowed (2 * h) v s)) with ht
  have hk : Keeps [.reg .klnP, .reg .tilE, .msix, .out] s t :=
    updPage_keeps _ _ _ (by simp) (notePage_keeps _ _ (by simp) (splitShadowed_keeps _ _ s))
  have hkln : t.kln = s.kln := hk.only .kln (by decide)
  have hi : pageIdle t (pgTilE (2 * h)) = false :=
    pageIdle_split hh ((planeOfHead_congr hkln h).trans hp) (by rwa [plane_congr hkln])
  unfold pendPage
  dsimp only
  rw [if_neg (by rw [pageSrc_pgTilE]; decide), ← ht, idleLatch, hi]
  rfl

theorem rwsWrite_split_live {h p : Nat} {s : State} (v : Word) (hh : h < 64) (hp : planeOfHead s h = some p)
    (hr : (plane s p).state ≠ .stopped) : let t := rwsWrite (Reg.TIL_E_SPLIT (2 * h)) v false s
      t.til.autoHeads = s.til.autoHeads ∧ split t h = split s h := by
  intro t
  have hnote : ∀ u : State, rd (notePage (pgTilE (2 * h)) u) (Reg.TIL_E_SPLIT (2 * h)) = rd u (Reg.TIL_E_SPLIT (2 * h)) :=
    fun u => by simp only [rd, notePage_regs]
  have hk : Keeps [.reg .klnP, .reg .tilE, .msix, .out] s t := by
    rw [show t = _ from rwsWrite_split_waits v hh hp hr]
    exact updPage_keeps _ _ _ (by simp) (notePage_keeps _ _ (by simp) (splitShadowed_keeps _ _ s))
  refine ⟨(congrArg Tiller.autoHeads (hk.tiller (by decide)) :), rf_congr ?_ 11 0⟩
  rw [show t = _ from rwsWrite_split_waits v hh hp hr, rd_updPage, hnote, splitShadowed,
    rd_deferPage (p := p) ?plane (ne_of_keyKind (by simp))]
  · exact hnote s
  case plane =>
    rw [pagePlane_split hh]
    exact (planeOfHead_congr ((notePage_keeps _ s (fun _ q => q) (Keeps.refl _ s)).only .kln (by simp)) h).trans hp

/-! ## Automatic splits (R202) -/

/-- A head whose automatic split is chosen, to be moved there by resident firmware. -/
def autoMoving (h : Nat) (s : State) : State :=
  { manualSplit h s with til := { (manualSplit h s).til with autoHeads := h :: (manualSplit h s).til.autoHeads } }

/-- What the choice comes to, where a table in force gives one. -/
theorem autoSplit_chooses {h p v : Nat} {tab : PlaneTable} {s : State} (hc : rbit s Reg.TIL_CTRL 0 = true)
    (hd : h ∈ s.til.autoDue) (hp : planeOfHead s h = some p) (ht : (plane s p).table = some tab)
    (hb : bestSplit s tab h = some v) : autoSplit h s =
      if v = split s h then
        if tfind s.regs.shd (Reg.TIL_E_SPLIT (2 * h)) = none then manualSplit h s
        else rwsWrite (Reg.TIL_E_SPLIT (2 * h)) (BitVec.ofNat 32 v) false (manualSplit h s)
      else rwsWrite (Reg.TIL_E_SPLIT (2 * h)) (BitVec.ofNat 32 v) false (autoMoving h s) := by
  have hdue : (rbit s Reg.TIL_CTRL 0 && s.til.autoDue.contains h) = true := by simp [hc, hd]
  unfold autoSplit
  rw [if_pos hdue]
  extract_lets til s1
  have ht1 : ((planeOfHead s1 h).bind fun p => (plane s1 p).table) = some tab := (congrArg (·.bind fun p => (plane s p).table) hp).trans ht
  have hb1 : bestSplit s1 tab h = some v := hb
  simp only [ht1, hb1]
  rfl

theorem manualSplit_drops (h : Nat) (s : State) : h ∉ (manualSplit h s).til.autoDue ∧ h ∉ (manualSplit h s).til.autoHeads := by
  simp [manualSplit]

theorem manualSplit_keeps (h : Nat) (s : State) : Keeps [.til] s (manualSplit h s) :=
  Keeps.set_til rfl (Or.inr ⟨rfl, rfl⟩) (Or.inl (by decide)) (Keeps.refl _ s)

/-- Settles O43: each command through what it comes to in the case its clause names. -/
theorem tillerMonitorsRun : Obligations.TillerMonitorsRun := by
  refine ⟨?sweep, ?rest, ?trip, ?throttleEnd, ?auto⟩
  case sweep =>
    intro i p s hp hf hg ha
    refine next_at (execTillerSweep_keeps i s) (by decide) (congrArg Host.Outcome.next (tillerSweep_ages hp hf hg ha)) ?_
    rw [entry_putEntry_self]
    exact ⟨rfl, Entry.seal_good _, fun j hj => entry_putEntry_ne _ s hj⟩
  case rest =>
    exact fun i s h => congrArg Host.Outcome.next (tillerSweep_rests h)
  case trip =>
    intro e s he
    obtain ⟨hengine, hcounts, hdue, hnot, hraw⟩ := setThrottle_changes (e := e.val) (on := true) (s := s) (by rw [he]; decide)
    exact next_at (execTillerComparatorTrip_keeps e s) (by decide) rfl ⟨hengine, hcounts, hdue, hnot, hraw⟩
  case throttleEnd =>
    intro e s he
    obtain ⟨hengine, hcounts, hdue, -, hraw⟩ := setThrottle_changes (e := e.val) (on := false) (s := s) (by rw [he]; decide)
    exact next_at (execTillerThrottleEnd_keeps e s) (by decide) rfl ⟨hengine, hcounts, hdue, hraw⟩
  case auto =>
    intro h p v tab s hc hd hp ht hb
    have hchosen := autoSplit_chooses hc hd hp ht hb
    constructor
    · intro hv
      rw [if_neg hv] at hchosen
      refine next_at (execAutoSplit_keeps h s) (by decide) (congrArg Host.Outcome.next hchosen) ⟨rwsWrite_split_shadow _ _ _, ?_, ?_⟩
      · rw [rwsWrite_split_autoDue]
        exact (manualSplit_drops h.val s).1
      · intro hr
        obtain ⟨hheads, hsplit⟩ := rwsWrite_split_live (s := autoMoving h.val s) (BitVec.ofNat 32 v) h.isLt hp hr
        exact ⟨hheads ▸ List.mem_cons_self, hsplit⟩
    · intro hv hnone
      rw [if_pos hv, if_pos hnone] at hchosen
      obtain ⟨hdue, hheads⟩ := manualSplit_drops h.val s
      exact ⟨_, congrArg Host.Outcome.next hchosen, ⟨hdue, hheads, rfl⟩, (manualSplit_keeps h.val s).only⟩

end Sys2Proof.Machine
end

section
/-! SUPPORT. What Crock's shared operations leave: a record submitted, the calibration buffer flushed, a compaction started, and Crock
READ_ONLY (O33, O50). -/

namespace Sys2Proof.Machine
open Sys2Proof

/-! ## Records submitted (R490) -/

theorem crkAccepts_congr {s t : State} (h : t.crk = s.crk) : crkAccepts t = crkAccepts s := by rw [crkAccepts, crkAccepts, h]

@[simp] theorem crkAccepts_taken (d : Desc) (s : State) : crkAccepts (taken d s) = crkAccepts s := rfl

theorem crkSubmit_queue {b : CrkBody} {cmd batch : Option Nat} {s : State} (h : crkAccepts s = true) :
    (crkSubmit b cmd batch s).crk.queue = joinQueue ⟨b, now s / 64, cmd, batch⟩ s.crk.queue :=
  congrArg (fun t : State => t.crk.queue) (if_pos h)

/-- A command whose record Crock takes is not done with its records. -/
theorem crkSubmit_not_done {b : CrkBody} {seq : Nat} {batch : Option Nat} {s : State} (h : crkAccepts s = true) :
    recordsDone (crkSubmit b (some seq) batch s) seq = false := by
  rw [recordsDone, crkSubmit_queue h, Bool.not_eq_false']
  exact List.any_eq_true.mpr ⟨_, mem_joinQueue _ _, decide_eq_true rfl⟩

/-- Crock's queue alone has changed of Crock. -/
def OnlyQueue (s t : State) : Prop := t.crk = { s.crk with queue := t.crk.queue }

theorem OnlyQueue.accepts {s t : State} (h : OnlyQueue s t) : crkAccepts t = crkAccepts s := by
  rw [crkAccepts, crkAccepts, h]

/-- A record other than a CONFIG record leaves the calibration buffer (R491). -/
theorem OnlyQueue.submit {s t : State} {b : CrkBody} {cmd batch : Option Nat} (h : OnlyQueue s t) (ha : crkAccepts s = true)
    (hb : ∀ es, b ≠ .config es) : OnlyQueue s (crkSubmit b cmd batch t) := by
  have he : crkSubmit b cmd batch t = { t with crk := { t.crk with
      queue := joinQueue ⟨b, now t / 64, cmd, batch⟩ t.crk.queue } } := by
    refine (if_pos (h.accepts.trans ha)).trans ?_
    cases b
    case config es => exact absurd rfl (hb es)
    all_goals rfl
  rw [he, OnlyQueue, h]

/-! ## The calibration buffer (R491) -/

theorem calFlush_refused {s : State} (h : crkAccepts s = false) : calFlush s = s := if_neg (by rw [h]; decide)

/-- The buffered gains of every plane are submitted, in CAL records. -/
def calSubmitted (s : State) : State :=
  planeNums.foldl (fun t p => (chunks 165 (bufferedGains s p).length (bufferedGains s p)).foldl (fun u l =>
    crkSubmit (.cal p (tget s.crk.calSlot 0xFFFFFFFF p) l) none none u) t) s

theorem calFlush_accepted {s : State} (h : crkAccepts s = true) :
    (calFlush s).crk = { (calSubmitted s).crk with cal := [] } := congrArg State.crk (if_pos h)

theorem calSubmitted_crk {s : State} (h : crkAccepts s = true) : OnlyQueue s (calSubmitted s) :=
  foldl_holds _ rfl fun _ _ _ ht => foldl_holds _ ht fun _ _ _ hu => hu.submit h nofun

/-- A flush leaves the buffer empty and, beside it, changes Crock's queue alone. -/
theorem calFlush_crk {s : State} (h : crkAccepts s = true) :
    (calFlush s).crk = { s.crk with queue := (calFlush s).crk.queue, cal := [] } := by
  rw [calFlush_accepted h, show (calSubmitted s).crk = _ from calSubmitted_crk h]

theorem calFlush_empty {s : State} (h : crkAccepts s = true) (hc : s.crk.cal = []) : (calFlush s).crk.queue = s.crk.queue := by
  have hb : ∀ p, bufferedGains s p = [] := fun p => by rw [bufferedGains, hc]; rfl
  have hs : calSubmitted s = s := foldl_id planeNums fun p _ => by rw [hb]; rfl
  rw [calFlush_accepted h, hs]

/-! ## Compactions (R493, R494) -/

theorem compactStart_crk (cmd : Option Nat) (s : State) : (compactStart cmd s).crk = { (calFlush s).crk with
    state := if (calFlush s).crk.state = .mounted then .compacting else (calFlush s).crk.state, compacting := true, compactCmd := cmd } :=
  (raised_keeps _).only .crk (by decide)

/-- A compaction that starts while Crock takes records leaves it COMPACTING, with the calibration buffer empty. -/
theorem compactStart_accepted (cmd : Option Nat) {s : State} (h : crkAccepts s = true) : (compactStart cmd s).crk =
    { s.crk with
      queue := (calFlush s).crk.queue, cal := [], state := .compacting, compacting := true, compactCmd := cmd } := by
  have hstate : (if s.crk.state = .mounted then .compacting else s.crk.state) = CrkState.compacting := by
    rw [crkAccepts, Bool.and_eq_true, decide_eq_true_eq] at h
    rcases h.1 with hm | hc
    · exact if_pos hm
    · rw [hc]
      rfl
  rw [compactStart_crk, calFlush_crk h]
  dsimp only
  rw [hstate]

theorem calFlush_only (s : State) : Keeps [.crk] s (calFlush s) := calFlush_keeps s (fun _ q => q) (Keeps.refl _ s)

theorem compactStart_still (cmd : Option Nat) (s : State) : StillParked s (compactStart cmd s) :=
  (StillParked.of_keeps ((calFlush_only s).trans (Keeps.set_crk (by decide) (Keeps.refl _ _))) (by decide)).trans (raised_still _ _ _ _ _ _)

theorem compactStart_rd (cmd : Option Nat) (s : State) {k : Nat} (hk : keyKind k ≠ .stk) : rd (compactStart cmd s) k = rd s k :=
  (rd_raiseIrq _ _ _ k).trans ((rd_event hk).trans ((calFlush_only s).rd (by simp)))

/-! ## READ_ONLY (R489) -/

/-- Crock in READ_ONLY: queued records are refused, and no snapshot is written. -/
def readOnlySet (s : State) : State :=
  { s with
    crk := { s.crk with state := .readOnly, failRun := 0, queue := [], snapNow := none, snapCmds := [], snapAgain := [] },
    sag := { s.sag with tenants := s.sag.tenants.map fun e => (e.1, { e.2 with ceilNext := none }) },
    tly := { s.tly with writing := false } }

/-- The commands that need a record. -/
def storeCommands (s : State) : List Nat :=
  ((s.crk.queue.filterMap (·.cmd)) ++ s.crk.snapCmds ++ s.crk.snapAgain ++
    (match s.crk.compactCmd with | some c => [c] | none => [])).eraseDups

/-- Crock in READ_ONLY, the alarm raised and the commands that need a record failed. -/
def storeFailed (addr : Nat) (s : State) : State :=
  (storeCommands s).foldl (fun t c => completeSeq c 0x0401 0 t) (raiseIrq pgCrk 7 (raiseAlarm 7 none (le 4 addr) (readOnlySet s)))

theorem enterReadOnly_eq (addr : Nat) (s : State) : enterReadOnly addr s = compactStart none (storeFailed addr s) := rfl

theorem raiseAlarm_only (i : Nat) (ten : Option Nat) (pl : List Byte) (s : State) :
    Keeps [.msix, .out, .reg .stk, .rings, .stk] s (raiseAlarm i ten pl s) := raiseAlarm_keeps i ten pl s (fun _ q => q) (Keeps.refl _ s)

theorem completeSeqs_only (l : List Nat) (status : Nat) (s : State) :
    Keeps completionParts s (l.foldl (fun t c => completeSeq c status 0 t) s) :=
  foldl_holds (I := fun t => Keeps completionParts s t) l (Keeps.refl _ s) fun t c _ h => completeSeq_keeps c status 0 t (by decide) h

theorem storeFailed_crk (addr : Nat) (s : State) : (storeFailed addr s).crk = (readOnlySet s).crk :=
  ((completeSeqs_only _ _ _).only .crk (by decide)).trans
    (((raiseIrq_keeps _ _ _ (fun _ q => q) (Keeps.refl _ _)).only .crk (by decide)).trans ((raiseAlarm_only _ _ _ _).only .crk (by decide)))

theorem storeFailed_rd (addr : Nat) (s : State) {k : Nat} (hk : keyKind k ≠ .stk) : rd (storeFailed addr s) k = rd s k :=
  ((completeSeqs_only _ _ _).rd (by simpa [completionParts] using hk)).trans
    ((rd_raiseIrq _ _ _ k).trans ((raiseAlarm_only _ _ _ _).rd (by simpa using hk)))

theorem enterReadOnly_crk (addr : Nat) (s : State) : (enterReadOnly addr s).crk =
    { (readOnlySet s).crk with compacting := true, compactCmd := none } := by
  have hr : crkAccepts (storeFailed addr s) = false := by rw [crkAccepts_congr (storeFailed_crk addr s)]; rfl
  rw [enterReadOnly_eq, compactStart_crk, calFlush_refused hr, storeFailed_crk]
  rfl

theorem enterReadOnly_rd (addr : Nat) (s : State) {k : Nat} (hk : keyKind k ≠ .stk) : rd (enterReadOnly addr s) k = rd s k := by
  rw [enterReadOnly_eq, compactStart_rd _ _ hk, storeFailed_rd _ _ hk]

/-! ## Counters and wear (R499) -/

@[simp] theorem inc64_crk (k n : Nat) (s : State) : (inc64 k n s).crk = s.crk := rfl

theorem wearCheck_crk (old : Nat) (s : State) : (wearCheck old s).crk = s.crk :=
  (wearCheck_keeps old s (fun _ q => q) (Keeps.refl _ s)).only .crk (by decide)

end Sys2Proof.Machine
end

section
/-! SUPPORT. The proofs of what the record commands do: consumables, checkpoints, snapshots, compactions and the store (O33). -/

namespace Sys2Proof.Machine
open Sys2Proof

/-! ## Polls (R144, R482) -/

@[simp] theorem tlySlot_updTly_self (i : Nat) (f : TlySlot → TlySlot) (s : State) : tlySlot (updTly i f s) i = f (tlySlot s i) :=
  tget_tput_self _ _ _ _

theorem tlySlot_updTly_ne {i j : Nat} (f : TlySlot → TlySlot) (s : State) (h : j ≠ i) : tlySlot (updTly i f s) j = tlySlot s j :=
  tget_tput_ne _ _ _ h

theorem sendExchange_tly (i : Nat) (s : State) : (sendExchange i s).tly = s.tly := by
  unfold sendExchange
  repeat' split
  all_goals rfl

/-- A slot with a poll at the end of its exchanges. -/
def polled (scan : Bool) (x : TlySlot) : TlySlot := { x with exchanges := x.exchanges ++ [⟨if scan then 4 else 1, 0, 0, false⟩] }

/-- A poll joins its slot's exchanges, whether it starts at once or waits. -/
theorem pollSlot_tly (scan : Bool) (i : Nat) (s : State) : (pollSlot scan i s).tly = (updTly i (polled scan) s).tly := by
  unfold pollSlot pushExchange
  dsimp only
  split
  · exact sendExchange_tly i _
  · rfl

theorem tlySlot_congr {s t : State} (h : t.tly = s.tly) (i : Nat) : tlySlot t i = tlySlot s i := by rw [tlySlot, tlySlot, h]

theorem tlySlot_pollSlot_self (scan : Bool) (i : Nat) (s : State) : tlySlot (pollSlot scan i s) i = polled scan (tlySlot s i) :=
  (tlySlot_congr (pollSlot_tly scan i s) i).trans (tlySlot_updTly_self i _ s)

theorem tlySlot_pollSlot_ne (scan : Bool) {i j : Nat} (s : State) (h : j ≠ i) : tlySlot (pollSlot scan i s) j = tlySlot s j :=
  (tlySlot_congr (pollSlot_tly scan i s) j).trans (tlySlot_updTly_ne _ s h)

/-- Slots are polled. -/
def pollSlots (scan : Bool) (l : List Nat) (s : State) : State := l.foldl (fun t i => pollSlot scan i t) s

theorem pollSlots_only (scan : Bool) (l : List Nat) (s : State) : Keeps [.out, .tly] s (pollSlots scan l s) :=
  foldl_holds (I := fun t => Keeps [.out, .tly] s t) l (Keeps.refl _ s) fun t i _ h => pollSlot_keeps scan i t (fun _ q => q) h

/-- Polls change nothing of Tally but the slots. -/
theorem pollSlots_tly (scan : Bool) (l : List Nat) (s : State) :
    (pollSlots scan l s).tly = { s.tly with slots := (pollSlots scan l s).tly.slots } :=
  foldl_holds (I := fun t => t.tly = { s.tly with slots := t.tly.slots }) l rfl fun t i _ h => by
    rw [pollSlot_tly, updTly, h]

theorem tlySlot_pollSlots_mem (scan : Bool) {l : List Nat} {i : Nat} (hn : l.Nodup) (hi : i ∈ l) (s : State) :
    tlySlot (pollSlots scan l s) i = polled scan (tlySlot s i) :=
  foldl_once (val := fun t => tlySlot t i) (I := fun _ => True) hn hi trivial (fun _ _ _ _ => trivial)
    (fun t _ => tlySlot_pollSlot_self scan i t) fun t _ _ hb => tlySlot_pollSlot_ne scan t (Ne.symm hb)

theorem tlySlot_pollSlots_ne (scan : Bool) {l : List Nat} {i : Nat} (hi : i ∉ l) (s : State) :
    tlySlot (pollSlots scan l s) i = tlySlot s i :=
  foldl_holds (I := fun t => tlySlot t i = tlySlot s i) l rfl fun t _ hj h =>
    (tlySlot_pollSlot_ne scan t (ne_of_mem_of_not_mem hj hi).symm).trans h

/-! ## CONSUMABLE_SCAN (R482) -/

/-- The enabled slots on the controllers of a mask. -/
def scanSlots (mask : Nat) (s : State) : List Nat := (tlyEnabled s).filter fun i => decide (mask / 2 ^ tlyController s i % 2 = 1)

theorem scanSlots_nodup (mask : Nat) (s : State) : (scanSlots mask s).Nodup := (List.nodup_range.filter _).filter _

theorem consumableScan_scans {h : Hdr} {c : Instr} {mask : Nat} {s : State} (hm : mask < 16)
    (hk : ∀ k ∈ maskBits 4 mask, controllerOn s k = true) : bodyConsumableScan h c mask s =
      if scanSlots mask s = [] then ok h 0 s
      else pollSlots true (scanSlots mask s) (parkAccepted h c [] ((scanSlots mask s).map keyTally) s) := by
  have hany : ((maskBits 4 mask).any fun k => !controllerOn s k) = false :=
    List.any_eq_false.mpr fun k hm => by simp [hk k hm]
  exact (if_neg (by omega)).trans (if_neg (by simp [hany]))

/-! ## TALLY_CHECKPOINT (R144, R480) -/

/-- A checkpoint's record submitted, and the time of its capture kept. -/
def checkpointSubmitted (cmd : Option Nat) (s : State) : State :=
  let s1 := crkSubmit (.tallyCkpt (stamp s) ((tlyEnabled s).map fun i =>
    (i, (tlySlot s i).serial, (tlySlot s i).usage.toNat, tallyQuantum s i))) cmd none s
  { s1 with tly := { s1.tly with captured := s.clock.uptime, writing := s1.tly.writing || crkAccepts s } }

theorem checkpoint_eq (cmd : Option Nat) (s : State) : checkpoint cmd s =
    pollSlots false (tlyEnabled (checkpointSubmitted cmd s)) (checkpointSubmitted cmd s) := rfl

theorem checkpointSubmitted_only (cmd : Option Nat) (s : State) : Keeps [.crk, .tly] s (checkpointSubmitted cmd s) :=
  Keeps.set_tly (by decide) (crkSubmit_keeps _ _ _ _ (by decide) (Keeps.refl _ s))

theorem checkpoint_tly (cmd : Option Nat) {s : State} (h : crkAccepts s = true) :
    (checkpoint cmd s).tly.captured = s.clock.uptime ∧ (checkpoint cmd s).tly.writing = true := by
  rw [checkpoint_eq, pollSlots_tly]
  exact ⟨rfl, by rw [checkpointSubmitted, h]; exact Bool.or_true _⟩

theorem checkpoint_not_done {seq : Nat} {s : State} (h : crkAccepts s = true) : recordsDone (checkpoint (some seq) s) seq = false := by
  rw [checkpoint_eq, recordsDone, (pollSlots_only false _ _).only .crk (by decide)]
  exact crkSubmit_not_done h

theorem checkpoint_still (cmd : Option Nat) (s : State) : StillParked s (checkpoint cmd s) :=
  (StillParked.of_keeps (checkpointSubmitted_only cmd s) (by decide)).trans (StillParked.of_keeps (pollSlots_only false _ _) (by decide))

/-! ## STORE_WRITE (R486, R487) -/

/-- An image that STORE_WRITE takes into an area: a boot configuration of a generation above both copies', or whole patch records. -/
def StoreTakes (area : Nat) (img : List Byte) (s : State) : Prop :=
  (area = 0 ∧ ∃ g, bootGen img = some g ∧ ∀ e ∈ s.crk.boot, e.2.1 < g) ∨
    (area = 1 ∧ img.length ≤ 8388608 ∧ patchesExact 32 img = true)

/-- What is stored of an image whose read-back agrees, or disagrees. -/
def stored (failed : Bool) (area : Nat) (img : List Byte) (s : State) : State :=
  inc64 Reg.CRK_PROG_BYTES img.length (if area = 0 then { s with crk := { s.crk with
      boot := if failed then tdel s.crk.boot (bootTarget s) else tput s.crk.boot (bootTarget s) ((bootGen img).getD 0, img) } }
    else { s with crk := { s.crk with patchArea := if failed then [] else img } })

theorem stored_keeps (failed : Bool) (area : Nat) (img : List Byte) (s : State) : Keeps [.crk, .reg .crk] s (stored failed area img s) :=
  inc64_keeps _ _ _ (by decide) (Keeps.ite (fun _ => Keeps.set_crk (by decide) (Keeps.refl _ s)) fun _ =>
    Keeps.set_crk (by decide) (Keeps.refl _ s))

theorem stored_boot {failed : Bool} {area : Nat} {img : List Byte} {s : State} (h : area = 0) :
    tfind (stored failed area img s).crk.boot (bootTarget s) = if failed then none else some ((bootGen img).getD 0, img) := by
  have he : (stored failed area img s).crk.boot =
      if failed then tdel s.crk.boot (bootTarget s) else tput s.crk.boot (bootTarget s) ((bootGen img).getD 0, img) := by
    rw [h]
    rfl
  rw [he]
  cases failed
  · exact tfind_tput_self _ _ _
  · exact tfind_tdel_self _ _

theorem stored_patches {failed : Bool} {area : Nat} {img : List Byte} {s : State} (h : area = 1) :
    (stored failed area img s).crk.patchArea = if failed then [] else img := by
  rw [h]
  rfl

theorem storeWrite_stores {h : Hdr} {area : Nat} {x : Stream} {s : State} (ht : StoreTakes area x.bytes s) :
    storeWrite h area x s = complete h (if (draw 1 s).1 = 1#1 then 0x0401 else 0) 0
      (stored (decide ((draw 1 s).1 = 1#1)) area x.bytes (draw 1 s).2) := by
  unfold storeWrite
  refine (if_neg ?_).trans ?_
  · rcases ht with ⟨h0, g, hg, hb⟩ | ⟨h1, hl, hp⟩
    · rw [if_pos h0, hg]
      simpa using hb
    · rw [if_neg (by omega), hp]
      simpa using hl
  · by_cases hd : (draw 1 s).1 = 1#1
    · rw [if_pos hd, if_pos (decide_eq_true hd)]
      rfl
    · rw [if_neg hd, if_neg (by simpa using hd)]
      rfl

/-- Settles O33: each command through its body in the state its taking leaves; STORE_WRITE by what the draw makes of the read-back. -/
theorem recordCommandsRun : Obligations.RecordCommandsRun := by
  refine ⟨?scan, ?query, ?checkpoint, ?snapshot, ?compact, ?store⟩
  case scan =>
    intro d mask s ha hm hk
    dsimp only
    refine admitted_next ha rfl rfl (bodyConsumableScan_keeps _ _ _ _ (by decide) ((taken_only d s).mono (by decide))) ?_
    rw [consumableScan_scans (s := taken d s) hm hk]
    change ((scanSlots mask.toNat s = [] → _) ∧ (scanSlots mask.toNat s ≠ [] → _) ∧ (∀ i ∈ scanSlots mask.toNat s, _) ∧
      ∀ i, i ∉ scanSlots mask.toNat s → _)
    rw [show scanSlots mask.toNat (taken d s) = scanSlots mask.toNat s from rfl]
    by_cases hn : scanSlots mask.toNat s = []
    · rw [if_pos hn]
      have htly : (ok (hdrOf d s) 0 (taken d s)).tly = s.tly := complete_tly _ _ _ _
      refine ⟨fun _ => ⟨taken_completed d 0 s, htly⟩, fun h => absurd hn h, fun i hi => ?_, fun i _ => tlySlot_congr htly i⟩
      rw [hn] at hi
      exact absurd hi List.not_mem_nil
    · rw [if_neg hn]
      refine ⟨fun h => absurd h hn, fun _ => ?_, fun i hi => ?_, fun i hi => ?_⟩
      · exact (parkAccepted_accepted _ _ _ (taken_ci d s)).after (StillParked.of_keeps (pollSlots_only _ _ _) (by decide))
      · exact tlySlot_pollSlots_mem true (scanSlots_nodup _ s) hi _
      · exact tlySlot_pollSlots_ne true hi _
  case query =>
    intro d slot s ha hs
    have hbody : consumableQuery (hdrOf d s) slot.toNat (taken d s) = ok (hdrOf d s) _ (taken d s) := if_neg (by omega)
    refine admitted_next ha rfl rfl (consumableQuery_keeps _ _ _ (by decide) ((taken_only d s).mono (by decide))) ?_
    rw [hbody]
    exact taken_completed d _ s
  case checkpoint =>
    intro d s ha hc
    refine admitted_next ha rfl rfl (bodyTallyCheckpoint_keeps _ _ _ (by decide) ((taken_only d s).mono (by decide))) ?_
    rw [bodyTallyCheckpoint, if_neg (by simp [hc])]
    obtain ⟨hcap, hwr⟩ := checkpoint_tly (some (hdrOf d s).seq)
      (s := parkAccepted (hdrOf d s) (.tallyCheckpoint d) [] [keyStore] (taken d s)) hc
    exact ⟨(parkAccepted_accepted _ _ _ (taken_ci d s)).after (checkpoint_still _ _), checkpoint_not_done hc, hcap, hwr⟩
  case snapshot =>
    intro d s ha hc
    refine admitted_next ha rfl rfl (bodyNozzleSnapshot_keeps _ _ _ (by decide) ((taken_only d s).mono (by decide))) ?_
    rw [bodyNozzleSnapshot, if_neg (by simp [hc])]
    have hacc := parkAccepted_accepted (.nozzleSnapshot d) [] [keyStore] (taken_ci d s)
    have hsnap : (taken d s).crk.snapNow = s.crk.snapNow := rfl
    cases hn : s.crk.snapNow
    case none =>
      rw [hsnap.trans hn]
      exact ⟨hacc, fun _ => ⟨rfl, rfl, rfl, rfl⟩, fun h => Bool.noConfusion h⟩
    case some x =>
      rw [hsnap.trans hn]
      exact ⟨hacc, nofun, fun _ => ⟨rfl, rfl⟩⟩
  case compact =>
    intro d s ha hc hn
    refine admitted_next ha rfl rfl (bodyJournalCompact_keeps _ _ _ (by decide) ((taken_only d s).mono (by decide))) ?_
    rw [bodyJournalCompact, if_neg (by simpa using (hn : (taken d s).crk.compacting = false)),
      if_neg (by simp [hc])]
    refine ⟨(parkAccepted_accepted _ _ _ (taken_ci d s)).after (compactStart_still _ _), ?_⟩
    rw [compactStart_accepted (some (hdrOf d s).seq) (s := parkAccepted (hdrOf d s) (.journalCompact d) [] [keyStore] (taken d s)) hc]
    exact ⟨rfl, rfl, rfl, rfl⟩
  case store =>
    intro d area handle x s ha hc hx hf hcomp ht
    have htakes : StoreTakes area.toNat x.bytes (taken d s) := ht
    refine admitted_next ha rfl (streamObjs_nil rfl _ _) (bodyStoreWrite_keeps _ _ _ _ _ (by decide) ((taken_only d s).mono (by decide))) ?_
    have hbody : bodyStoreWrite (hdrOf d s) (.storeWrite d area handle) area.toNat handle.toNat (taken d s) =
        storeWrite (hdrOf d s) area.toNat x (taken d s) := by
      rw [bodyStoreWrite, if_neg (by rcases ht with h | h <;> omega), if_neg (by simp [hc])]
      exact withStream_taken hx hf hcomp rfl
    rw [hbody, storeWrite_stores htakes, complete_crk]
    have hk : ∀ failed, Keeps [.crk, .free, .reg .crk] (taken d s) (stored failed area.toNat x.bytes (draw 1 (taken d s)).2) := fun failed =>
      (draw_keeps 1 _ (by decide) (Keeps.refl _ _)).trans ((stored_keeps _ _ _ _).mono (by decide))
    by_cases hd : (draw 1 (taken d s)).1 = 1#1
    · rw [if_pos hd, decide_eq_true hd]
      exact Or.inr ⟨complete_only _ 0 (hk true) (by decide), fun h0 => stored_boot (s := (draw 1 (taken d s)).2) h0,
        fun h1 => stored_patches h1⟩
    · rw [if_neg hd, decide_eq_false hd]
      exact Or.inl ⟨complete_only _ 0 (hk false) (by decide), fun h0 => stored_boot (s := (draw 1 (taken d s)).2) h0,
        fun h1 => stored_patches h1⟩

end Sys2Proof.Machine
end

section
/-! SUPPORT. The proofs of what Crock does: record writes, compactions, snapshots, the calibration buffer and the grace window (O50). -/

namespace Sys2Proof.Machine
open Sys2Proof

/-! ## Record writes (R489, R490, R494) -/

/-- The front record out of the queue and at the end of the active region's log, its bytes counted. -/
def recordLogged (j : CrkJob) (rest : List CrkJob) (s : State) : State :=
  inc64 Reg.CRK_PROG_BYTES (21 + j.body.len) (appendRecord j.body { s with crk := { s.crk with queue := rest, failRun := 0 } })

/-- Crock's state once the front record is logged. -/
def loggedCrock (j : CrkJob) (rest : List CrkJob) (s : State) : Crock :=
  { s.crk with
    queue := rest, failRun := 0, seq := s.crk.seq + 1,
    logs := tput s.crk.logs s.crk.active (crkLog s s.crk.active ++ [⟨s.crk.seq + 1, crkAppend s s.crk.active, j.body⟩]),
    appends := tput s.crk.appends s.crk.active (crkAppend s s.crk.active + j.body.slot) }

theorem recordLogged_crk (j : CrkJob) (rest : List CrkJob) (s : State) : (recordLogged j rest s).crk = loggedCrock j rest s := rfl

/-- The front record torn at its address, the failure and its bytes counted (R489). -/
def recordTorn (j : CrkJob) (s : State) : State :=
  inc64 Reg.CRK_PROG_BYTES (20 + j.body.len) (inc Reg.CRK_VERIFY_CNT 1 { s with crk := { s.crk with
    failRun := s.crk.failRun + 1, seq := s.crk.seq + 1, torn := s.crk.torn ++ [(s.crk.active, crkAppend s s.crk.active)],
    appends := tput s.crk.appends s.crk.active (afterTorn (crkAppend s s.crk.active)) } })

section
variable {j : CrkJob} {rest : List CrkJob} {s : State}

theorem recordWrite_runs (good : Bool) (ha : crkAccepts s = true) (hq : s.crk.queue = j :: rest)
    (hr : crkAppend s s.crk.active + j.body.slot ≤ regionBytes s) : recordWrite good s =
      if good then
        let t := committed j (recordLogged j rest s)
        if t.crk.state = .mounted ∧ rf t Reg.CRK_COMPACT_AT 7 0 * 1048576 < crkAppend t s.crk.active then compactStart none t else t
      else if s.crk.failRun + 1 = 3 then enterReadOnly (regionBase s s.crk.active + crkAppend s s.crk.active) (recordTorn j s)
      else recordTorn j s := by
  unfold recordWrite
  rw [hq]
  exact if_neg (by simp [ha, hr])

/-- A configuration or calibration record of no command commits nothing beside the journal. -/
theorem committed_plain (hb : (∃ es, j.body = .config es) ∨ ∃ p k gs, j.body = .cal p k gs) (hc : j.cmd = none) (t : State) :
    committed j t = t := by
  rw [committed, hc]
  rcases hb with ⟨es, hb⟩ | ⟨p, k, gs, hb⟩ <;> rw [hb]

theorem recordLogged_compactAt : rf (recordLogged j rest s) Reg.CRK_COMPACT_AT 7 0 = rf s Reg.CRK_COMPACT_AT 7 0 :=
  rf_congr (rd_wn64_ne _ _ (by decide) (by decide)) 7 0

theorem crkAppend_recordLogged : crkAppend (recordLogged j rest s) s.crk.active = crkAppend s s.crk.active + j.body.slot :=
  tget_tput_self _ _ _ _

/-- A plain record that verifies is logged, and no compaction starts within CRK_COMPACT_AT. -/
theorem recordWrite_logs (ha : crkAccepts s = true) (hq : s.crk.queue = j :: rest)
    (hr : crkAppend s s.crk.active + j.body.slot ≤ regionBytes s)
    (hb : (∃ es, j.body = .config es) ∨ ∃ p k gs, j.body = .cal p k gs) (hc : j.cmd = none)
    (hn : s.crk.state = .compacting ∨ crkAppend s s.crk.active + j.body.slot ≤ rf s Reg.CRK_COMPACT_AT 7 0 * 1048576) :
    recordWrite true s = recordLogged j rest s := by
  rw [recordWrite_runs true ha hq hr, if_pos rfl, committed_plain hb hc]
  refine if_neg fun ⟨hm, hat⟩ => ?_
  rw [recordLogged_compactAt, crkAppend_recordLogged] at hat
  rcases hn with hn | hn
  · exact absurd (hm.symm.trans hn) (by decide)
  · omega

/-- A record that fails its comparison, the first or second in a row, stands torn. -/
theorem recordWrite_tears (ha : crkAccepts s = true) (hq : s.crk.queue = j :: rest)
    (hr : crkAppend s s.crk.active + j.body.slot ≤ regionBytes s) (hf : s.crk.failRun < 2) :
    recordWrite false s = recordTorn j s := by
  rw [recordWrite_runs false ha hq hr, if_neg Bool.false_ne_true, if_neg (by omega)]

theorem recordTorn_counts : rn (recordTorn j s) Reg.CRK_VERIFY_CNT = min 0xFFFFFFFF (rn s Reg.CRK_VERIFY_CNT + 1) :=
  (rn_wn64_ne _ _ (by decide) (by decide)).trans (rn_inc_self _ 1 _)

end

/-! ## The end of a compaction (R489, R493) -/

/-- The records of the region a compaction writes. -/
def compactedRecords (s : State) : List CrkBody :=
  CrkBody.regionHead (crkGen s s.crk.active + 1) :: liveSet (crkLog s s.crk.active) ++ [.compactDone (crkGen s s.crk.active + 1)]

/-- Crock's state once the other region is active. -/
def compactedCrock (s : State) : Crock :=
  { s.crk with
    state := .mounted, compacting := false, compactCmd := none, active := 1 - s.crk.active,
    gens := tput s.crk.gens (1 - s.crk.active) (crkGen s s.crk.active + 1),
    logs := tput s.crk.logs (1 - s.crk.active) (placeRecords (s.crk.seq + 1) 0 (compactedRecords s)),
    appends := tput s.crk.appends (1 - s.crk.active) (recordBytes (compactedRecords s)),
    torn := s.crk.torn.filter (·.1 ≠ 1 - s.crk.active), seq := s.crk.seq + (compactedRecords s).length, failRun := 0 }

/-- The other region active, wear checked and the bytes and the compaction counted. -/
def compactCounted (s : State) : State :=
  inc Reg.CRK_COMPACT_CNT 1 (inc64 Reg.CRK_PROG_BYTES ((compactedRecords s).map fun x => 21 + x.len).sum
    (wearCheck (crkWear s) { s with crk := compactedCrock s }))

theorem compactDone_eq (s : State) : compactDone s = completeOpt s.crk.compactCmd 0 0 (raiseIrq pgCrk 5 (event 0x0803 none
    (le 1 0 ++ le 4 (crkGen s s.crk.active + 1) ++ le 4 (recordBytes (liveSet (crkLog s s.crk.active)))) (compactCounted s))) := rfl

theorem completeOpt_only (o : Option Nat) (status result : Nat) (s : State) : Keeps completionParts s (completeOpt o status result s) :=
  completeOpt_keeps o status result s (by decide) (Keeps.refl _ s)

theorem compactCounted_crk (s : State) : (compactCounted s).crk = compactedCrock s := by
  rw [compactCounted, inc_crk, inc64_crk, wearCheck_crk]

theorem compactDone_crk (s : State) : (compactDone s).crk = compactedCrock s := by
  rw [compactDone_eq, (completeOpt_only _ _ _ _).only .crk (by decide), (raised_keeps _).only .crk (by decide), compactCounted_crk]

theorem compactDone_region (s : State) :
    crkLog (compactDone s) (1 - s.crk.active) = placeRecords (s.crk.seq + 1) 0 (compactedRecords s) ∧
      crkAppend (compactDone s) (1 - s.crk.active) = recordBytes (compactedRecords s) ∧
      crkGen (compactDone s) (1 - s.crk.active) = crkGen s s.crk.active + 1 := by
  refine ⟨?_, ?_, ?_⟩
  · rw [crkLog, compactDone_crk]
    exact tget_tput_self _ _ _ _
  · rw [crkAppend, compactDone_crk]
    exact tget_tput_self _ _ _ _
  · rw [crkGen, compactDone_crk]
    exact tget_tput_self _ _ _ _

theorem compactDone_raw (s : State) : (getPage (compactDone s) pgCrk).irqRaw.getLsbD 5 = true := by
  rw [compactDone_eq, ((completeOpt_only _ _ _ _).only (.reg .crk) (by decide)).2 pgCrk (by decide)]
  exact raiseIrq_raw (by decide) _

theorem compactionEnd_good {s : State} (h : s.crk.compacting = true) : compactionEnd true s = compactDone s :=
  (if_neg (by simp [h])).trans (if_pos rfl)

/-- A compaction that fails in READ_ONLY ends there, its three failures counted. -/
theorem compactionEnd_failed {s : State} (h : s.crk.compacting = true) (hr : s.crk.state = .readOnly) :
    compactionEnd false s =
      { inc Reg.CRK_VERIFY_CNT 3 s with crk := { (inc Reg.CRK_VERIFY_CNT 3 s).crk with compacting := false } } :=
  (if_neg (by simp [h])).trans ((if_neg Bool.false_ne_true).trans (if_pos hr))

/-- A compaction that fails elsewhere leaves Crock READ_ONLY, at an address drawn. -/
theorem compactionEnd_readOnly {s : State} (h : s.crk.compacting = true) (hr : s.crk.state ≠ .readOnly) : compactionEnd false s =
    enterReadOnly (draw 32 (inc Reg.CRK_VERIFY_CNT 3 s)).1.toNat (draw 32 (inc Reg.CRK_VERIFY_CNT 3 s)).2 :=
  (if_neg (by simp [h])).trans ((if_neg Bool.false_ne_true).trans (if_neg hr))

/-! ## Snapshots (R240, R492) -/

/-- The ring as a snapshot's data leaves it: what the data erases is lost, and the ring goes on behind it. -/
def snapRinged (x : Snap) (s : State) : State :=
  { s with crk := { s.crk with
    snaps := s.crk.snaps.map fun y => if snapErases s x.mask y then { y with lost := true } else y,
    ringBlock := x.block + snapBlocks x.mask,
    ringWraps := if x.block < s.crk.ringBlock then s.crk.ringWraps + 1 else s.crk.ringWraps } }

/-- The data in the ring, wear checked and its bytes counted. -/
def snapProgrammed (x : Snap) (s : State) : State :=
  inc64 Reg.CRK_PROG_BYTES (snapLen x.mask) (wearCheck (crkWear s) (snapRinged x (draw 32 s).2))

theorem snapProgrammed_crk (x : Snap) (s : State) : (snapProgrammed x s).crk = (snapRinged x s).crk := by
  rw [snapProgrammed, inc64_crk, wearCheck_crk]
  rfl

theorem snapshotWrite_writes {x : Snap} {s : State} (hn : s.crk.snapNow = some x) (ha : crkAccepts s = true)
    (hq : snapQueued s = false) : snapshotWrite s =
      crkSubmit (.snap x.num (x.block * 65536) (snapLen x.mask) (draw 32 s).1 x.mask) none none (snapProgrammed x s) := by
  unfold snapshotWrite
  rw [hn]
  exact if_neg (by simp [ha, hq])

/-- A SNAP record that Crock takes is queued. -/
theorem snapQueued_submit {num ofs len mask : Nat} {crc : Word} {cmd batch : Option Nat} {s : State} (h : crkAccepts s = true) :
    snapQueued (crkSubmit (.snap num ofs len crc mask) cmd batch s) = true := by
  rw [snapQueued, crkSubmit_queue h]
  exact List.any_eq_true.mpr ⟨_, mem_joinQueue _ _, rfl⟩

/-! ## The grace window (R498) -/

/-- Crock once its grace window ends, after what became of the record in progress. -/
def graceEnded (completed busy : Bool) (s t : State) : State :=
  { t with crk := { t.crk with
    state := .absent, grace := none, queue := [], snapNow := none, snapCmds := [], snapAgain := [],
    graceRes := (if busy then (if completed then 1 else 2) else 3) +
      256 * min 65535 (if busy then s.crk.queue.length - 1 else s.crk.queue.length) } }

theorem graceEnd_ends {busy : Bool} (completed : Bool) {s : State} (h : s.crk.grace = some busy) :
    graceEnd completed s = graceEnded completed busy s (if busy then cutRecord completed s else s) := by
  unfold graceEnd
  rw [h]
  rfl

/-- Settles O50: each event through what it makes of Crock's state. -/
theorem crockRuns : Obligations.CrockRuns := by
  refine ⟨?record, ?compacted, ?failed, ?timer, ?write, ?flush, ?grace⟩
  case record =>
    intro good j rest s ha hq hr
    obtain ⟨t, he, hk⟩ := execCrockRecordWrite_keeps good s
    obtain rfl : recordWrite good s = t := Host.Outcome.next.inj he
    refine ⟨_, rfl, fun hb hg hc hn => ?_, fun hg hf => ?_, (hk.mono (by decide)).only⟩
    · rw [hg, recordWrite_logs ha hq hr hb hc hn]
      exact recordLogged_crk j rest s
    · rw [hg, recordWrite_tears ha hq hr hf]
      exact ⟨rfl, recordTorn_counts⟩
  case compacted =>
    intro s hc
    dsimp only
    refine next_at (execCrockCompactionDone_keeps true s) (by decide) (congrArg Host.Outcome.next (compactionEnd_good hc)) ?_
    obtain ⟨hlog, happend, hgen⟩ := compactDone_region s
    rw [compactDone_crk]
    exact ⟨rfl, rfl, rfl, hlog, happend, hgen, rfl, rfl, compactDone_raw s⟩
  case failed =>
    intro s hc
    by_cases hr : s.crk.state = .readOnly
    · refine next_at (execCrockCompactionDone_keeps false s) (by decide) (congrArg Host.Outcome.next (compactionEnd_failed hc hr)) ?_
      exact ⟨hr, rn_inc_self _ 3 s, rfl, rfl, rfl, fun _ => rfl⟩
    · refine next_at (execCrockCompactionDone_keeps false s) (by decide) (congrArg Host.Outcome.next (compactionEnd_readOnly hc hr)) ?_
      rw [enterReadOnly_crk, rn_congr (enterReadOnly_rd _ _ (by decide))]
      exact ⟨rfl, rn_inc_self _ 3 s, rfl, rfl, rfl, fun h => absurd h hr⟩
  case timer =>
    intro s ha hn hp
    have hc : snapshotTimer s = snapCapture s := if_pos (by simp [ha, hn, hp])
    exact next_at (execSnapshotTimer_keeps s) (by decide) (congrArg Host.Outcome.next hc) ⟨rfl, rfl, rfl, _, rfl, rfl, rfl, rfl⟩
  case write =>
    intro x s hn ha hq
    have hacc : crkAccepts (snapProgrammed x s) = true := (crkAccepts_congr (snapProgrammed_crk x s)).trans ha
    have hring : OnlyQueue (snapRinged x s) (snapProgrammed x s) := by rw [OnlyQueue, snapProgrammed_crk]
    have hcrk := hring.submit (b := .snap x.num (x.block * 65536) (snapLen x.mask) (draw 32 s).1 x.mask) (cmd := none) (batch := none) ha nofun
    refine next_at (execSnapshotWrite_keeps s) (by decide) (congrArg Host.Outcome.next (snapshotWrite_writes hn ha hq))
      ⟨snapQueued_submit hacc, ?_⟩
    rw [show State.crk _ = _ from hcrk]
    exact ⟨hn, rfl, rfl, rfl⟩
  case flush =>
    intro s ha
    have hcrk := calFlush_crk ha
    refine next_at (execCalFlushTimer_keeps s) (by decide) rfl ⟨?_, ?_, calFlush_empty ha⟩
    · rw [hcrk]
    · rw [hcrk]
  case grace =>
    intro completed busy s hg
    refine next_at (execCrockGraceEnd_keeps completed s) (by decide) (congrArg Host.Outcome.next (graceEnd_ends completed hg))
      ⟨rfl, rfl, rfl, rfl, ?_⟩
    cases busy <;> rfl

end Sys2Proof.Machine
end

section
/-! SUPPORT. The refutation of what is said of fired windows, marks, pauses, tickles, trips and slot-targeted commits (O22). -/

namespace Sys2Proof.Machine
open Sys2Proof

/-- With no boot in progress and plane 0 STOPPED, the plane's page is PENDING and has a shadow of KLN_P_APPLY_CTRL with ARM set. -/
def armInShadowState : State :=
  { State.reset with
    pwr := { State.reset.pwr with boot := none }
    regs := { State.reset.regs with shd := [(Reg.KLN_P_APPLY_CTRL 0, 1)] }
    pages := [(pgKlnP 0, { Page.init .klnP with pending := true })] }

theorem armInShadow_admits : Writable .host (Reg.KLN_P_APPLY_CTRL 0) armInShadowState = true ∧ inRange (Reg.KLN_P_APPLY_CTRL 0) 0 = true := by
  decide +kernel

/-- A write of 0 clears ARM, so the page's idle latch comes at once and copies every shadow of the page to its active value (R49), ARM's as
well: the write ends with ARM set. -/
theorem applyArm_armInShadow : rbit (applyArm 0 0 armInShadowState) (Reg.KLN_P_APPLY_CTRL 0) 0 = true := by
  decide +kernel

/-- Refutes O22: the clause on KLN_P_APPLY_CTRL leaves the shadows of the state free. In `armInShadowState` the register has a shadow with ARM
set; a write that clears ARM lets the idle latch of the STOPPED plane's page apply, and the latch sets ARM again. (No step of the model writes
a shadow of KLN_P_APPLY_CTRL, which is not an RWS register.) -/
theorem not_pressEventsRun : ¬ Obligations.PressEventsRun := by
  rintro ⟨-, -, -, -, -, -, -, -, -, harm⟩
  obtain ⟨hw, hr⟩ := armInShadow_admits
  obtain ⟨u, he, hbit, -⟩ := harm .host 0 0 armInShadowState hw hr
  have hrun : exec (.applyArmWrite .host 0 0) armInShadowState = .next (applyArm 0 0 armInShadowState) :=
    congrArg Host.Outcome.next (guardWrite_writable hw hr _)
  obtain rfl := Host.Outcome.next.inj (hrun.symm.trans he)
  have hclear : rbit (applyArm 0 0 armInShadowState) (Reg.KLN_P_APPLY_CTRL 0) 0 = false := hbit
  exact absurd (applyArm_armInShadow.symm.trans hclear) (by decide)

end Sys2Proof.Machine
end

section
/-! SUPPORT. A step on an empty queue: one CK_FIRE cycle passes (O2). -/

namespace Sys2Proof.Machine
open Sys2Proof

theorem step_of_pending_nil {s : State} (h : s.pending = []) : step s = .next (fireTick s) := by
  unfold step
  rw [h]

/-- Time that moves on stands at the instant it moved to, as a word of 64 bits. -/
theorem advanceTo_fire {t : Nat} {s : State} (h : now s < t) : (advanceTo t s).clock.fire = BitVec.ofNat 64 t := by
  unfold advanceTo
  rw [if_neg (by omega)]

/-- The fire timebase gains a cycle's 32 units, and wraps as a word of 64 bits does (R273). -/
theorem fireTick_fire (s : State) : (fireTick s).clock.fire = s.clock.fire + 32 := by
  have hlt : now s < now s + fireCycle := Nat.lt_add_of_pos_right (by decide)
  calc (fireTick s).clock.fire
      = BitVec.ofNat 64 (now s + fireCycle) := advanceTo_fire hlt
    _ = BitVec.ofNat 64 s.clock.fire.toNat + BitVec.ofNat 64 32 := BitVec.ofNat_add _ _
    _ = s.clock.fire + 32 := by rw [BitVec.ofNat_toNat, BitVec.setWidth_eq]; rfl

/-- Settles O2: the step is `fireTick`, whose frame lemma leaves out the queue and all but the parts named. -/
theorem idleTick : Obligations.IdleTick := by
  intro s hnil
  have hkeeps : Keeps [.clock, .msix, .out, .reg .stk, .reg .tim, .rings, .stk] s (fireTick s) :=
    fireTick_keeps s (fun _ q => q) (Keeps.refl _ s)
  have hqueue : (fireTick s).pending = s.pending := hkeeps.only .queue (by decide)
  exact ⟨fireTick s, step_of_pending_nil hnil, fireTick_fire s, hqueue.trans hnil, hkeeps.only.mono (by decide)⟩

end Sys2Proof.Machine
end

section
/-! SUPPORT. What each command and each step keeps of the queue and of the life-cycle (O1, O3, O7). -/

namespace Sys2Proof.Machine
open Sys2Proof

/-! ## The queue (O1, O3) -/

/-- Settles O1: `step` is by definition `exec` of the front command on the rest of the queue. -/
theorem stepTakesFront : Obligations.StepTakesFront := by
  intro c r s h
  unfold step
  rw [h]

/-- Settles O3: the queue is no part of what any command may change. -/
theorem commandsLeaveTheQueue : Obligations.CommandsLeaveTheQueue := by
  intro i s t e
  obtain ⟨qs, hqueue, hkeeps⟩ := exec_kept e
  exact hkeeps.only .queue hqueue

/-! ## The life-cycle (R455) -/

theorem step_keeps_lifecycle {s t : State} (e : step s = .next t) : lifecycle s ≤ lifecycle t := by
  obtain ⟨_, h | h⟩ := step_kept e
  · exact h.life
  · exact h.life

/-- An operation whose list leaves out the fuses leaves them. -/
theorem Keeps.fuses {ps : List Part} {s t : State} (k : Keeps ps s t) (h : Part.fuses ∉ ps) : t.sag.fuses = s.sag.fuses :=
  k.only .fuses h

/-! ## Register writes leave the fuses

The lists of `regWrite` and what calls it name every part but the queue; each write a register's chapter defines has a list of its own
that leaves the fuses out. -/

@[simp] theorem holdRelWrite_fuses (ini : Initiator) (v : Word) (s : State) : (holdRelWrite ini v s).sag.fuses = s.sag.fuses :=
  (holdRelWrite_keeps ini v s (fun _ q => q) (Keeps.refl _ s)).fuses (by decide)

@[simp] theorem glbRst_fuses (v : Word) (s : State) : (glbRst v s).sag.fuses = s.sag.fuses :=
  (glbRst_keeps v s (fun _ q => q) (Keeps.refl _ s)).fuses (by decide)

@[simp] theorem iocalCtrl_fuses (v : Word) (s : State) : (iocalCtrl v s).sag.fuses = s.sag.fuses :=
  (iocalCtrl_keeps v s (fun _ q => q) (Keeps.refl _ s)).fuses (by decide)

@[simp] theorem budgetWrite_fuses (addr : Nat) (v : Word) (s : State) : (budgetWrite addr v s).sag.fuses = s.sag.fuses :=
  (budgetWrite_keeps addr v s (fun _ q => q) (Keeps.refl _ s)).fuses (by simp)

@[simp] theorem fanWrite_fuses (addr : Nat) (v : Word) (s : State) : (fanWrite addr v s).sag.fuses = s.sag.fuses :=
  (fanWrite_keeps addr v s (fun _ q => q) (Keeps.refl _ s)).fuses (by simp)

@[simp] theorem holdThr_fuses (s : State) : (holdThr s).sag.fuses = s.sag.fuses :=
  (holdThr_keeps s (fun _ q => q) (Keeps.refl _ s)).fuses (by decide)

@[simp] theorem timCtrl_fuses (v : Word) (s : State) : (timCtrl v s).sag.fuses = s.sag.fuses :=
  (timCtrl_keeps v s (fun _ q => q) (Keeps.refl _ s)).fuses (by decide)

@[simp] theorem timWrCtrl_fuses (v : Word) (s : State) : (timWrCtrl v s).sag.fuses = s.sag.fuses :=
  (timWrCtrl_keeps v s (fun _ q => q) (Keeps.refl _ s)).fuses (by decide)

@[simp] theorem timRateWrite_fuses (v : Word) (s : State) : (timRateWrite v s).sag.fuses = s.sag.fuses :=
  (timRateWrite_keeps v s (fun _ q => q) (Keeps.refl _ s)).fuses (by decide)

@[simp] theorem tlyCtrlWrite_fuses (v : Word) (s : State) : (tlyCtrlWrite v s).sag.fuses = s.sag.fuses :=
  (tlyCtrlWrite_keeps v s (fun _ q => q) (Keeps.refl _ s)).fuses (by decide)

@[simp] theorem slotCfgWrite_fuses (v : Word) (s : State) : (slotCfgWrite v s).sag.fuses = s.sag.fuses :=
  (slotCfgWrite_keeps v s (fun _ q => q) (Keeps.refl _ s)).fuses (by decide)

@[simp] theorem slotHeadsWrite_fuses (high : Bool) (v : Word) (s : State) : (slotHeadsWrite high v s).sag.fuses = s.sag.fuses :=
  (slotHeadsWrite_keeps high v s (fun _ q => q) (Keeps.refl _ s)).fuses (by decide)

@[simp] theorem hifCtrlWrite_fuses (v : Word) (s : State) : (hifCtrlWrite v s).sag.fuses = s.sag.fuses :=
  (hifCtrlWrite_keeps v s (fun _ q => q) (Keeps.refl _ s)).fuses (by decide)

@[simp] theorem sysRingWrite_fuses (addr : Nat) (v : Word) (s : State) : (sysRingWrite addr v s).sag.fuses = s.sag.fuses :=
  (sysRingWrite_keeps addr v s (fun _ q => q) (Keeps.refl _ s)).fuses (by simp)

@[simp] theorem ltrUpdate_fuses (s : State) : (ltrUpdate s).sag.fuses = s.sag.fuses :=
  (ltrUpdate_keeps s (fun _ q => q) (Keeps.refl _ s)).fuses (by decide)

@[simp] theorem glzBandWrite_fuses (v : Word) (s : State) : (glzBandWrite v s).sag.fuses = s.sag.fuses :=
  (glzBandWrite_keeps v s (fun _ q => q) (Keeps.refl _ s)).fuses (by decide)

@[simp] theorem applyWrite_fuses (addr : Nat) (v : Word) (s : State) : (applyWrite addr v s).sag.fuses = s.sag.fuses :=
  (applyWrite_keeps addr v s (fun _ q => q) (Keeps.refl _ s)).fuses (by simp)

@[simp] theorem splitBarWrite_fuses (v : Word) (s : State) : (splitBarWrite v s).sag.fuses = s.sag.fuses :=
  (splitBarWrite_keeps v s (fun _ q => q) (Keeps.refl _ s)).fuses (by decide)

@[simp] theorem engineWrite_fuses (e addr : Nat) (v : Word) (s : State) : (engineWrite e addr v s).sag.fuses = s.sag.fuses :=
  (engineWrite_keeps e addr v s (fun _ q => q) (Keeps.refl _ s)).fuses (by simp)

@[simp] theorem tripStatWrite_fuses (v : Word) (s : State) : (tripStatWrite v s).sag.fuses = s.sag.fuses :=
  (tripStatWrite_keeps v s (fun _ q => q) (Keeps.refl _ s)).fuses (by decide)

@[simp] theorem tripClear_fuses (v : Word) (s : State) : (tripClear v s).sag.fuses = s.sag.fuses :=
  (tripClear_keeps v s (fun _ q => q) (Keeps.refl _ s)).fuses (by decide)

@[simp] theorem refreshGrants_fuses (s : State) : (refreshGrants s).sag.fuses = s.sag.fuses :=
  (refreshGrants_keeps s (fun _ q => q) (Keeps.refl _ s)).fuses (by decide)

@[simp] theorem refreshIdle_fuses (s : State) : (refreshIdle s).sag.fuses = s.sag.fuses :=
  (refreshIdle_keeps s (fun _ q => q) (Keeps.refl _ s)).fuses (by decide)

@[simp] theorem markWrite_fuses (v : Word) (s : State) : (markWrite v s).sag.fuses = s.sag.fuses :=
  (markWrite_keeps v s (fun _ q => q) (Keeps.refl _ s)).fuses (by decide)

@[simp] theorem paceCfgWrite_fuses (k addr : Nat) (v : Word) (s : State) : (paceCfgWrite k addr v s).sag.fuses = s.sag.fuses :=
  (paceCfgWrite_keeps k addr v s (fun _ q => q) (Keeps.refl _ s)).fuses (by simp)

@[simp] theorem applyArm_fuses (p : Nat) (v : Word) (s : State) : (applyArm p v s).sag.fuses = s.sag.fuses :=
  (applyArm_keeps p v s (fun _ q => q) (Keeps.refl _ s)).fuses (by decide)

@[simp] theorem planePaceWrite_fuses (p addr : Nat) (v : Word) (s : State) : (planePaceWrite p addr v s).sag.fuses = s.sag.fuses :=
  (planePaceWrite_keeps p addr v s (fun _ q => q) (Keeps.refl _ s)).fuses (by simp)

@[simp] theorem hlkCtrlWrite_fuses (h : Nat) (v : Word) (s : State) : (hlkCtrlWrite h v s).sag.fuses = s.sag.fuses :=
  (hlkCtrlWrite_keeps h v s (fun _ q => q) (Keeps.refl _ s)).fuses (by decide)

@[simp] theorem faultClear_fuses (h : Nat) (v : Word) (s : State) : (faultClear h v s).sag.fuses = s.sag.fuses :=
  (faultClear_keeps h v s (fun _ q => q) (Keeps.refl _ s)).fuses (by decide)

@[simp] theorem pifCfgWrite_fuses (c : Nat) (v : Word) (s : State) : (pifCfgWrite c v s).sag.fuses = s.sag.fuses :=
  (pifCfgWrite_keeps c v s (fun _ q => q) (Keeps.refl _ s)).fuses (by decide)

@[simp] theorem pifCtrlWrite_fuses (c : Nat) (v : Word) (s : State) : (pifCtrlWrite c v s).sag.fuses = s.sag.fuses :=
  (pifCtrlWrite_keeps c v s (fun _ q => q) (Keeps.refl _ s)).fuses (by decide)

@[simp] theorem idxPeriodWrite_fuses (c : Nat) (high : Bool) (v : Word) (s : State) : (idxPeriodWrite c high v s).sag.fuses = s.sag.fuses :=
  (idxPeriodWrite_keeps c high v s (fun _ q => q) (Keeps.refl _ s)).fuses (by decide)

@[simp] theorem motTripMapWrite_fuses (i addr : Nat) (v : Word) (s : State) : (motTripMapWrite i addr v s).sag.fuses = s.sag.fuses :=
  (motTripMapWrite_keeps i addr v s (fun _ q => q) (Keeps.refl _ s)).fuses (by simp)

@[simp] theorem motFaultClear_fuses (a : Nat) (v : Word) (s : State) : (motFaultClear a v s).sag.fuses = s.sag.fuses :=
  (motFaultClear_keeps a v s (fun _ q => q) (Keeps.refl _ s)).fuses (by decide)

@[simp] theorem motConfigWrite_fuses (a addr : Nat) (v : Word) (s : State) : (motConfigWrite a addr v s).sag.fuses = s.sag.fuses :=
  (motConfigWrite_keeps a addr v s (fun _ q => q) (Keeps.refl _ s)).fuses (by simp)

@[simp] theorem iplCtrlWrite_fuses (v : Word) (s : State) : (iplCtrlWrite v s).sag.fuses = s.sag.fuses :=
  (iplCtrlWrite_keeps v s (fun _ q => q) (Keeps.refl _ s)).fuses (by decide)

@[simp] theorem captWrite_fuses (k : Nat) (v : Word) (s : State) : (captWrite k v s).sag.fuses = s.sag.fuses :=
  (captWrite_keeps k v s (fun _ q => q) (Keeps.refl _ s)).fuses (by decide)

@[simp] theorem gleanWrite_fuses (addr : Nat) (v : Word) (s : State) : (gleanWrite addr v s).sag.fuses = s.sag.fuses :=
  (gleanWrite_keeps addr v s (fun _ q => q) (Keeps.refl _ s)).fuses (by simp)

@[simp] theorem trmCtrl_fuses (v : Word) (s : State) : (trmCtrl v s).sag.fuses = s.sag.fuses :=
  (trmCtrl_keeps v s (fun _ q => q) (Keeps.refl _ s)).fuses (by decide)

@[simp] theorem headerWrite_fuses (n off : Nat) (v : Word) (s : State) : (headerWrite n off v s).sag.fuses = s.sag.fuses :=
  (headerWrite_keeps n off v s (fun _ q => q) (Keeps.refl _ s)).fuses (by simp)

@[simp] theorem clearCounters_fuses (regs : List (List Nat)) (v : Word) (s : State) : (clearCounters regs v s).sag.fuses = s.sag.fuses :=
  (clearCounters_keeps regs v s (fun _ q => q) (Keeps.refl _ s)).fuses (by decide)

@[simp] theorem restarts_fuses (k : PageKind) (i off : Nat) (v : Word) (s : State) : (restarts k i off v s).sag.fuses = s.sag.fuses :=
  (restarts_keeps k i off v s (fun _ q => q) (Keeps.refl _ s)).fuses (by decide)

@[simp] theorem msixWrite_fuses (addr : Nat) (v : Word) (s : State) : (msixWrite addr v s).sag.fuses = s.sag.fuses :=
  (msixWrite_keeps addr v s (fun _ q => q) (Keeps.refl _ s)).fuses (by decide)

@[simp] theorem barAbort_fuses (write : Bool) (s : State) : (barAbort write s).sag.fuses = s.sag.fuses :=
  (barAbort_keeps write s (fun _ q => q) (Keeps.refl _ s)).fuses (by decide)

@[simp] theorem recordErr_fuses (n c : Nat) (s : State) : (recordErr n c s).sag.fuses = s.sag.fuses :=
  (recordErr_keeps n c s (fun _ q => q) (Keeps.refl _ s)).fuses (by simp)

@[simp] theorem ite_fuses (c : Prop) [Decidable c] (s t : State) :
    (if c then s else t).sag.fuses = if c then s.sag.fuses else t.sag.fuses := apply_ite (fun u : State => u.sag.fuses) c s t

theorem systemWrite_fuses (ini : Initiator) (k : PageKind) (addr : Nat) (v : Word) (s : State) :
    (systemWrite ini k addr v s).sag.fuses = s.sag.fuses := by
  cases k <;> simp [systemWrite]

theorem pressWrite_fuses (k : PageKind) (i addr : Nat) (v : Word) (s : State) :
    (pressWrite k i addr v s).sag.fuses = s.sag.fuses := by
  cases k <;> simp [pressWrite]

theorem blockWrite_fuses (ini : Initiator) (addr : Nat) (v : Word) (s : State) :
    (blockWrite ini addr v s).sag.fuses = s.sag.fuses := by
  unfold blockWrite
  split
  · rfl
  · rename_i k i _
    cases k <;> simp [systemWrite_fuses, pressWrite_fuses]

theorem regWrite_fuses (ini : Initiator) (addr : Nat) (v : Word) (s : State) : (regWrite ini addr v s).sag.fuses = s.sag.fuses := by
  unfold regWrite
  dsimp only
  split_ifs
  · exact headerWrite_fuses _ _ _ _
  · rfl
  · exact recordErr_fuses _ _ _
  · split
    · split
      · exact (restarts_fuses _ _ _ _ _).trans (clearCounters_fuses _ _ _)
      · exact blockWrite_fuses _ _ _ _
    · rfl

theorem guardAccess_fuses {op : State → State} (hop : ∀ t, (op t).sag.fuses = t.sag.fuses) (ini : Initiator) (addr : Nat) (be : BitVec 4)
    (s : State) : (guardAccess ini addr be op s).sag.fuses = s.sag.fuses := by
  unfold guardAccess
  dsimp only
  split_ifs
  · rfl
  · exact (countUnmapped_keeps s (fun _ q => q) (Keeps.refl _ s)).fuses (by decide)
  · exact recordErr_fuses _ _ _
  · exact (denyWrite_keeps _ s (fun _ q => q) (Keeps.refl _ s)).fuses (by simp)
  · exact recordErr_fuses _ _ _
  · exact hop s

theorem dwordWrite_fuses (ini : Initiator) (addr : Nat) (be : BitVec 4) (v : Word) (s : State) :
    (dwordWrite ini addr be v s).sag.fuses = s.sag.fuses := by
  unfold dwordWrite
  split_ifs
  · exact msixWrite_fuses _ _ _
  · rfl
  · refine guardAccess_fuses (fun t => ?_) ini addr be s
    split_ifs
    · exact regWrite_fuses _ _ _ _
    · exact recordErr_fuses _ _ _

theorem writeAt_fuses (ini : Initiator) (addr : BitVec 24) (be : BitVec 4) (v : Word) (s : State) :
    (writeAt ini addr be v s).sag.fuses = s.sag.fuses := by
  unfold writeAt
  split_ifs
  · exact dwordWrite_fuses _ _ _ _ _
  · rfl

theorem writeRun_fuses (ini : Initiator) (addr : Nat) (ds : List (Word × BitVec 4)) (s : State) :
    (writeRun ini addr ds s).sag.fuses = s.sag.fuses := by
  induction ds generalizing addr s with
  | nil => rfl
  | cons d ds ih => exact (ih _ _).trans (dwordWrite_fuses _ _ _ _ _)

theorem writeDwords_fuses (ini : Initiator) (addr : Nat) (ds : List (Word × BitVec 4)) (s : State) :
    (writeDwords ini addr ds s).sag.fuses = s.sag.fuses := by
  unfold writeDwords
  split_ifs
  · exact writeRun_fuses _ _ _ _
  · exact barAbort_fuses _ _
  · rfl

theorem writeCycle_fuses (ini : Initiator) (addr : BitVec 24) (be : BitVec 4) (v : Word) (also : List (Initiator × Word)) (s : State) :
    (writeCycle ini addr be v also s).sag.fuses = s.sag.fuses := by
  unfold writeCycle
  generalize cycleOrder _ = ws
  induction ws generalizing s with
  | nil => rfl
  | cons w ws ih => exact (ih _).trans (writeAt_fuses _ _ _ _ _)

theorem execRegisterWrite_fuses {ini : Initiator} {addr : BitVec 24} {v : Word} {be : BitVec 4} {more : List (Word × BitVec 4)}
    {also : List (Initiator × Word)} {s t : State} (e : execRegisterWrite ini addr v be more also s = .next t) :
    t.sag.fuses = s.sag.fuses := by
  obtain rfl := Host.Outcome.next.inj e
  split_ifs
  · exact writeCycle_fuses _ _ _ _ _ _
  · exact writeDwords_fuses _ _ _ _

theorem lockedWrite_fuses (ini : Initiator) (n addr : Nat) (v : Word) (s : State) :
    (lockedWrite ini n addr v s).sag.fuses = s.sag.fuses := by
  unfold lockedWrite
  split_ifs
  · exact regWrite_fuses _ _ _ _
  · exact recordErr_fuses _ _ _
  · exact recordErr_fuses _ _ _

theorem execRwlRegisterWrite_fuses {ini : Initiator} {addr : BitVec 24} {v : Word} {be : BitVec 4} {s t : State}
    (e : execRwlRegisterWrite ini addr v be s = .next t) : t.sag.fuses = s.sag.fuses := by
  obtain rfl := Host.Outcome.next.inj e
  split_ifs
  · exact guardAccess_fuses (lockedWrite_fuses _ _ _ _) _ _ _ _
  · rfl

/-! ## The life-cycle never goes back (O7) -/

/-- The commands that may change the fuses (R455 to R457). -/
def MayBlowFuses (i : Instr) : Prop :=
  (∃ d target handle, i = .lifecycleAdvance d target handle) ∨ (∃ seq, i = .parkedCommandResume seq) ∨
    ∃ a b c d e f g h, i = .boot a b c d e f g h

/-- Every command either leaves the fuses, as its list of parts says, or is one of those three. -/
theorem exec_fuses {i : Instr} {s t : State} (e : exec i s = .next t) : t.sag.fuses = s.sag.fuses ∨ MayBlowFuses i := by
  cases i with
  | nop x0 => exact .inl ((keeps_of_next (execNop_keeps x0 s) e).fuses (by decide))
  | deviceInfo x0 => exact .inl ((keeps_of_next (execDeviceInfo_keeps x0 s) e).fuses (by decide))
  | ringCreate x0 x1 x2 x3 x4 x5 x6 x7 x8 x9 x10 => exact .inl ((keeps_of_next (execRingCreate_keeps x0 x1 x2 x3 x4 x5 x6 x7 x8 x9 x10 s) e).fuses (by decide))
  | ringDestroy x0 x1 => exact .inl ((keeps_of_next (execRingDestroy_keeps x0 x1 s) e).fuses (by decide))
  | ringDestroyDone x0 => exact .inl ((keeps_of_next (execRingDestroyDone_keeps x0 s) e).fuses (by decide))
  | ringQuery x0 x1 => exact .inl ((keeps_of_next (execRingQuery_keeps x0 x1 s) e).fuses (by decide))
  | powerState x0 x1 => exact .inl ((keeps_of_next (execPowerState_keeps x0 x1 s) e).fuses (by decide))
  | tenantEnable x0 x1 x2 x3 => exact .inl ((keeps_of_next (execTenantEnable_keeps x0 x1 x2 x3 s) e).fuses (by decide))
  | tenantDisable x0 x1 => exact .inl ((keeps_of_next (execTenantDisable_keeps x0 x1 s) e).fuses (by decide))
  | tenantDrainKeyWipe x0 => exact .inl ((keeps_of_next (execTenantDrainKeyWipe_keeps x0 s) e).fuses (by decide))
  | tenantDrainDone x0 => exact .inl ((keeps_of_next (execTenantDrainDone_keeps x0 s) e).fuses (by decide))
  | tenantQuery x0 x1 => exact .inl ((keeps_of_next (execTenantQuery_keeps x0 x1 s) e).fuses (by decide))
  | keyLoad x0 x1 x2 => exact .inl ((keeps_of_next (execKeyLoad_keeps x0 x1 x2 s) e).fuses (by decide))
  | quotaGrant x0 x1 x2 => exact .inl ((keeps_of_next (execQuotaGrant_keeps x0 x1 x2 s) e).fuses (by decide))
  | quotaQuery x0 x1 => exact .inl ((keeps_of_next (execQuotaQuery_keeps x0 x1 s) e).fuses (by decide))
  | jobOpen x0 x1 x2 => exact .inl ((keeps_of_next (execJobOpen_keeps x0 x1 x2 s) e).fuses (by decide))
  | jobClose x0 x1 => exact .inl ((keeps_of_next (execJobClose_keeps x0 x1 s) e).fuses (by decide))
  | jobAbort x0 x1 => exact .inl ((keeps_of_next (execJobAbort_keeps x0 x1 s) e).fuses (by decide))
  | jobEndDone x0 => exact .inl ((keeps_of_next (execJobEndDone_keeps x0 s) e).fuses (by decide))
  | pageLoad x0 x1 => exact .inl ((keeps_of_next (execPageLoad_keeps x0 x1 s) e).fuses (by decide))
  | pageRelease x0 x1 x2 => exact .inl ((keeps_of_next (execPageRelease_keeps x0 x1 x2 s) e).fuses (by decide))
  | pageReleaseDone x0 => exact .inl ((keeps_of_next (execPageReleaseDone_keeps x0 s) e).fuses (by decide))
  | copySubmit x0 x1 => exact .inl ((keeps_of_next (execCopySubmit_keeps x0 x1 s) e).fuses (by decide))
  | copyWithdraw x0 x1 x2 => exact .inl ((keeps_of_next (execCopyWithdraw_keeps x0 x1 x2 s) e).fuses (by decide))
  | copyQuery x0 x1 x2 => exact .inl ((keeps_of_next (execCopyQuery_keeps x0 x1 x2 s) e).fuses (by decide))
  | streamOpen x0 x1 x2 x3 x4 => exact .inl ((keeps_of_next (execStreamOpen_keeps x0 x1 x2 x3 x4 s) e).fuses (by decide))
  | streamFree x0 x1 => exact .inl ((keeps_of_next (execStreamFree_keeps x0 x1 s) e).fuses (by decide))
  | parkedCommandResume x0 => exact .inr (.inr (.inl ⟨_, rfl⟩))
  | tileLoad x0 x1 x2 => exact .inl ((keeps_of_next (execTileLoad_keeps x0 x1 x2 s) e).fuses (by decide))
  | tileEvict x0 x1 => exact .inl ((keeps_of_next (execTileEvict_keeps x0 x1 s) e).fuses (by decide))
  | segmentLoad x0 x1 => exact .inl ((keeps_of_next (execSegmentLoad_keeps x0 x1 s) e).fuses (by decide))
  | planeConfig x0 x1 x2 => exact .inl ((keeps_of_next (execPlaneConfig_keeps x0 x1 x2 s) e).fuses (by decide))
  | passLoad x0 x1 x2 => exact .inl ((keeps_of_next (execPassLoad_keeps x0 x1 x2 s) e).fuses (by decide))
  | kilnStart x0 x1 => exact .inl ((keeps_of_next (execKilnStart_keeps x0 x1 s) e).fuses (by decide))
  | kilnStop x0 x1 => exact .inl ((keeps_of_next (execKilnStop_keeps x0 x1 s) e).fuses (by decide))
  | kilnStopDone x0 => exact .inl ((keeps_of_next (execKilnStopDone_keeps x0 s) e).fuses (by decide))
  | headPower x0 x1 x2 x3 => exact .inl ((keeps_of_next (execHeadPower_keeps x0 x1 x2 x3 s) e).fuses (by decide))
  | headPowerDone x0 => exact .inl ((keeps_of_next (execHeadPowerDone_keeps x0 s) e).fuses (by decide))
  | headPowerTimeout x0 x1 => exact .inl ((keeps_of_next (execHeadPowerTimeout_keeps x0 x1 s) e).fuses (by decide))
  | pressStatus x0 => exact .inl ((keeps_of_next (execPressStatus_keeps x0 s) e).fuses (by decide))
  | nozzleRead x0 x1 x2 x3 x4 => exact .inl ((keeps_of_next (execNozzleRead_keeps x0 x1 x2 x3 x4 s) e).fuses (by decide))
  | nozzleWrite x0 x1 => exact .inl ((keeps_of_next (execNozzleWrite_keeps x0 x1 s) e).fuses (by decide))
  | nozzleWriteDone x0 => exact .inl ((keeps_of_next (execNozzleWriteDone_keeps x0 s) e).fuses (by decide))
  | curveLoad x0 x1 x2 x3 => exact .inl ((keeps_of_next (execCurveLoad_keeps x0 x1 x2 x3 s) e).fuses (by decide))
  | threshLoad x0 x1 x2 => exact .inl ((keeps_of_next (execThreshLoad_keeps x0 x1 x2 s) e).fuses (by decide))
  | kernelSelect x0 x1 x2 x3 => exact .inl ((keeps_of_next (execKernelSelect_keeps x0 x1 x2 x3 s) e).fuses (by decide))
  | splitMove x0 x1 x2 => exact .inl ((keeps_of_next (execSplitMove_keeps x0 x1 x2 s) e).fuses (by decide))
  | calControl x0 x1 x2 => exact .inl ((keeps_of_next (execCalControl_keeps x0 x1 x2 s) e).fuses (by decide))
  | refSelect x0 x1 x2 => exact .inl ((keeps_of_next (execRefSelect_keeps x0 x1 x2 s) e).fuses (by decide))
  | calStatus x0 x1 => exact .inl ((keeps_of_next (execCalStatus_keeps x0 x1 s) e).fuses (by decide))
  | axisConfig x0 x1 x2 => exact .inl ((keeps_of_next (execAxisConfig_keeps x0 x1 x2 s) e).fuses (by decide))
  | axisEnable x0 x1 x2 => exact .inl ((keeps_of_next (execAxisEnable_keeps x0 x1 x2 s) e).fuses (by decide))
  | axisMove x0 x1 x2 x3 => exact .inl ((keeps_of_next (execAxisMove_keeps x0 x1 x2 x3 s) e).fuses (by decide))
  | axisStop x0 x1 x2 => exact .inl ((keeps_of_next (execAxisStop_keeps x0 x1 x2 s) e).fuses (by decide))
  | axisResume x0 x1 => exact .inl ((keeps_of_next (execAxisResume_keeps x0 x1 s) e).fuses (by decide))
  | axisHome x0 x1 x2 x3 => exact .inl ((keeps_of_next (execAxisHome_keeps x0 x1 x2 x3 s) e).fuses (by decide))
  | axisQuery x0 x1 => exact .inl ((keeps_of_next (execAxisQuery_keeps x0 x1 s) e).fuses (by decide))
  | moveComplete x0 => exact .inl ((keeps_of_next (execMoveComplete_keeps x0 s) e).fuses (by decide))
  | homingComplete x0 => exact .inl ((keeps_of_next (execHomingComplete_keeps x0 s) e).fuses (by decide))
  | homingTimeout x0 x1 => exact .inl ((keeps_of_next (execHomingTimeout_keeps x0 x1 s) e).fuses (by decide))
  | cameraConfig x0 x1 x2 => exact .inl ((keeps_of_next (execCameraConfig_keeps x0 x1 x2 s) e).fuses (by decide))
  | inspectControl x0 x1 x2 x3 => exact .inl ((keeps_of_next (execInspectControl_keeps x0 x1 x2 x3 s) e).fuses (by decide))
  | reprocess x0 x1 x2 => exact .inl ((keeps_of_next (execReprocess_keeps x0 x1 x2 s) e).fuses (by decide))
  | defectFetch x0 x1 x2 => exact .inl ((keeps_of_next (execDefectFetch_keeps x0 x1 x2 s) e).fuses (by decide))
  | receiptFetch x0 x1 x2 => exact .inl ((keeps_of_next (execReceiptFetch_keeps x0 x1 x2 s) e).fuses (by decide))
  | attest x0 x1 x2 x3 => exact .inl ((keeps_of_next (execAttest_keeps x0 x1 x2 x3 s) e).fuses (by decide))
  | debugUnlock x0 x1 => exact .inl ((keeps_of_next (execDebugUnlock_keeps x0 x1 s) e).fuses (by decide))
  | lifecycleAdvance x0 x1 x2 => exact .inr (.inl ⟨_, _, _, rfl⟩)
  | consumableScan x0 x1 => exact .inl ((keeps_of_next (execConsumableScan_keeps x0 x1 s) e).fuses (by decide))
  | consumableQuery x0 x1 => exact .inl ((keeps_of_next (execConsumableQuery_keeps x0 x1 s) e).fuses (by decide))
  | tallyCheckpoint x0 => exact .inl ((keeps_of_next (execTallyCheckpoint_keeps x0 s) e).fuses (by decide))
  | patchStatus x0 x1 x2 => exact .inl ((keeps_of_next (execPatchStatus_keeps x0 x1 x2 s) e).fuses (by decide))
  | nozzleSnapshot x0 => exact .inl ((keeps_of_next (execNozzleSnapshot_keeps x0 s) e).fuses (by decide))
  | journalCompact x0 => exact .inl ((keeps_of_next (execJournalCompact_keeps x0 s) e).fuses (by decide))
  | maintSpit x0 x1 x2 x3 => exact .inl ((keeps_of_next (execMaintSpit_keeps x0 x1 x2 x3 s) e).fuses (by decide))
  | storeWrite x0 x1 x2 => exact .inl ((keeps_of_next (execStoreWrite_keeps x0 x1 x2 s) e).fuses (by decide))
  | eventFilter x0 x1 x2 => exact .inl ((keeps_of_next (execEventFilter_keeps x0 x1 x2 s) e).fuses (by decide))
  | alarmFetch x0 x1 x2 => exact .inl ((keeps_of_next (execAlarmFetch_keeps x0 x1 x2 s) e).fuses (by decide))
  | alarmAck x0 x1 => exact .inl ((keeps_of_next (execAlarmAck_keeps x0 x1 s) e).fuses (by decide))
  | traceConfig x0 x1 => exact .inl ((keeps_of_next (execTraceConfig_keeps x0 x1 s) e).fuses (by decide))
  | stookLimit x0 x1 => exact .inl ((keeps_of_next (execStookLimit_keeps x0 x1 s) e).fuses (by decide))
  | latchCommandComplete x0 => exact .inl ((keeps_of_next (execLatchCommandComplete_keeps x0 s) e).fuses (by decide))
  | completionPost x0 x1 => exact .inl ((keeps_of_next (execCompletionPost_keeps x0 x1 s) e).fuses (by decide))
  | doorbell x0 x1 x2 x3 x4 => exact .inl ((keeps_of_next (execDoorbell_keeps x0 x1 x2 x3 x4 s) e).fuses (by decide))
  | hifRunWrite x0 x1 x2 => exact .inl ((keeps_of_next (execHifRunWrite_keeps x0 x1 x2 s) e).fuses (by decide))
  | busMasterEnableWrite x0 x1 => exact .inl ((keeps_of_next (execBusMasterEnableWrite_keeps x0 x1 s) e).fuses (by decide))
  | d3hotTransition => exact .inl ((keeps_of_next (execD3hotTransition_keeps s) e).fuses (by decide))
  | msixVectorUnmask x0 => exact .inl ((keeps_of_next (execMsixVectorUnmask_keeps x0 s) e).fuses (by decide))
  | hifDescriptorFetch x0 => exact .inl ((keeps_of_next (execHifDescriptorFetch_keeps x0 s) e).fuses (by decide))
  | hifDataFetch => exact .inl ((keeps_of_next (execHifDataFetch_keeps s) e).fuses (by decide))
  | hostReadCompletion x0 x1 => exact .inl ((keeps_of_next (execHostReadCompletion_keeps x0 x1 s) e).fuses (by decide))
  | completionTimeout x0 => exact .inl ((keeps_of_next (execCompletionTimeout_keeps x0 s) e).fuses (by decide))
  | backgroundPromote x0 => exact .inl ((keeps_of_next (execBackgroundPromote_keeps x0 s) e).fuses (by decide))
  | receivedRequestFault x0 => exact .inl ((keeps_of_next (execReceivedRequestFault_keeps x0 s) e).fuses (by decide))
  | indexWriteback x0 x1 => exact .inl ((keeps_of_next (execIndexWriteback_keeps x0 x1 s) e).fuses (by decide))
  | imodTimeout x0 => exact .inl ((keeps_of_next (execImodTimeout_keeps x0 s) e).fuses (by decide))
  | ltrRiseTimer => exact .inl ((keeps_of_next (execLtrRiseTimer_keeps s) e).fuses (by decide))
  | ptmRequestTimer => exact .inl ((keeps_of_next (execPtmRequestTimer_keeps s) e).fuses (by decide))
  | ptmTimeout => exact .inl ((keeps_of_next (execPtmTimeout_keeps s) e).fuses (by decide))
  | timPtmMeasurement x0 x1 x2 => exact .inl ((keeps_of_next (execTimPtmMeasurement_keeps x0 x1 x2 s) e).fuses (by decide))
  | barAccessAbort x0 x1 x2 => exact .inl ((keeps_of_next (execBarAccessAbort_keeps x0 x1 x2 s) e).fuses (by decide))
  | unmappedPageAccess x0 x1 x2 => exact .inl ((keeps_of_next (execUnmappedPageAccess_keeps x0 x1 x2 s) e).fuses (by decide))
  | registerWrite x0 x1 x2 x3 x4 x5 => exact .inl (execRegisterWrite_fuses e)
  | rwsRegisterWrite x0 x1 x2 x3 x4 => exact .inl (Host.Outcome.next.inj e ▸ writeCycle_fuses _ _ _ _ _ _)
  | rwlRegisterWrite x0 x1 x2 x3 => exact .inl (execRwlRegisterWrite_fuses e)
  | lowWordRead x0 x1 x2 => exact .inl ((keeps_of_next (execLowWordRead_keeps x0 x1 x2 s) e).fuses (by decide))
  | highWordRead x0 x1 => exact .inl ((keeps_of_next (execHighWordRead_keeps x0 x1 s) e).fuses (by decide))
  | snapshotRead x0 x1 => exact .inl ((keeps_of_next (execSnapshotRead_keeps x0 x1 s) e).fuses (by decide))
  | timNsRead x0 => exact .inl ((keeps_of_next (execTimNsRead_keeps x0 s) e).fuses (by decide))
  | timXsnapRead x0 => exact .inl ((keeps_of_next (execTimXsnapRead_keeps x0 s) e).fuses (by decide))
  | sagNonceRead x0 => exact .inl ((keeps_of_next (execSagNonceRead_keeps x0 s) e).fuses (by decide))
  | nonceExpire x0 => exact .inl ((keeps_of_next (execNonceExpire_keeps x0 s) e).fuses (by decide))
  | pgIrqStatClear x0 x1 x2 => exact .inl ((keeps_of_next (execPgIrqStatClear_keeps x0 x1 x2 s) e).fuses (by simp))
  | pgIrqSet x0 x1 x2 => exact .inl ((keeps_of_next (execPgIrqSet_keeps x0 x1 x2 s) e).fuses (by simp))
  | pgErrClear x0 x1 x2 => exact .inl ((keeps_of_next (execPgErrClear_keeps x0 x1 x2 s) e).fuses (by simp))
  | shadowDiscard x0 x1 x2 => exact .inl ((keeps_of_next (execShadowDiscard_keeps x0 x1 x2 s) e).fuses (by simp))
  | shadowHoldWrite x0 x1 x2 => exact .inl ((keeps_of_next (execShadowHoldWrite_keeps x0 x1 x2 s) e).fuses (by simp))
  | holdRelease x0 x1 => exact .inl ((keeps_of_next (execHoldRelease_keeps x0 x1 s) e).fuses (by decide))
  | cmdHoldRelease x0 x1 => exact .inl ((keeps_of_next (execCmdHoldRelease_keeps x0 x1 s) e).fuses (by decide))
  | statusW1cClear x0 x1 x2 x3 => exact .inl (Host.Outcome.next.inj e ▸ writeAt_fuses _ _ _ _ _)
  | counterClear x0 x1 x2 x3 => exact .inl (Host.Outcome.next.inj e ▸ writeAt_fuses _ _ _ _ _)
  | softReset x0 x1 x2 => exact .inl ((keeps_of_next (execSoftReset_keeps x0 x1 x2 s) e).fuses (by simp))
  | softResetEnd x0 => exact .inl ((keeps_of_next (execSoftResetEnd_keeps x0 s) e).fuses (by simp))
  | applyArmWrite x0 x1 x2 => exact .inl ((keeps_of_next (execApplyArmWrite_keeps x0 x1 x2 s) e).fuses (by decide))
  | tilSplitBarWrite x0 x1 => exact .inl ((keeps_of_next (execTilSplitBarWrite_keeps x0 x1 s) e).fuses (by decide))
  | glzBandWrite x0 x1 => exact .inl ((keeps_of_next (execGlzBandWrite_keeps x0 x1 s) e).fuses (by decide))
  | gleanWindowDiscardWrite x0 x1 x2 => exact .inl ((keeps_of_next (execGleanWindowDiscardWrite_keeps x0 x1 x2 s) e).fuses (by simp))
  | klnTripClear x0 x1 => exact .inl ((keeps_of_next (execKlnTripClear_keeps x0 x1 s) e).fuses (by decide))
  | hlkPortEnable x0 x1 x2 => exact .inl ((keeps_of_next (execHlkPortEnable_keeps x0 x1 x2 s) e).fuses (by simp))
  | hlkRetrainWrite x0 x1 x2 => exact .inl ((keeps_of_next (execHlkRetrainWrite_keeps x0 x1 x2 s) e).fuses (by decide))
  | hlkFaultClear x0 x1 x2 => exact .inl ((keeps_of_next (execHlkFaultClear_keeps x0 x1 x2 s) e).fuses (by decide))
  | pifChannelEnable x0 x1 x2 => exact .inl ((keeps_of_next (execPifChannelEnable_keeps x0 x1 x2 s) e).fuses (by simp))
  | pifRearm x0 x1 x2 => exact .inl ((keeps_of_next (execPifRearm_keeps x0 x1 x2 s) e).fuses (by decide))
  | pifLoad x0 x1 x2 => exact .inl ((keeps_of_next (execPifLoad_keeps x0 x1 x2 s) e).fuses (by decide))
  | pifIdxPeriodWrite x0 x1 x2 x3 => exact .inl ((keeps_of_next (execPifIdxPeriodWrite_keeps x0 x1 x2 x3 s) e).fuses (by decide))
  | motFaultClear x0 x1 x2 => exact .inl ((keeps_of_next (execMotFaultClear_keeps x0 x1 x2 s) e).fuses (by decide))
  | shadingCaptureDark x0 x1 x2 => exact .inl ((keeps_of_next (execShadingCaptureDark_keeps x0 x1 x2 s) e).fuses (by decide))
  | shadingCaptureWhite x0 x1 x2 => exact .inl ((keeps_of_next (execShadingCaptureWhite_keeps x0 x1 x2 s) e).fuses (by decide))
  | shadingCaptureDone x0 => exact .inl ((keeps_of_next (execShadingCaptureDone_keeps x0 s) e).fuses (by decide))
  | timWriteNow x0 x1 => exact .inl ((keeps_of_next (execTimWriteNow_keeps x0 x1 s) e).fuses (by decide))
  | timWriteAtSec x0 x1 => exact .inl ((keeps_of_next (execTimWriteAtSec_keeps x0 x1 s) e).fuses (by decide))
  | timWriteCancel x0 x1 => exact .inl ((keeps_of_next (execTimWriteCancel_keeps x0 x1 s) e).fuses (by decide))
  | timSrcWrite x0 x1 => exact .inl ((keeps_of_next (execTimSrcWrite_keeps x0 x1 s) e).fuses (by decide))
  | trmRoleOff x0 x1 => exact .inl ((keeps_of_next (execTrmRoleOff_keeps x0 x1 s) e).fuses (by decide))
  | trmRoleFollower x0 x1 => exact .inl ((keeps_of_next (execTrmRoleFollower_keeps x0 x1 s) e).fuses (by decide))
  | trmRoleLeader x0 x1 => exact .inl ((keeps_of_next (execTrmRoleLeader_keeps x0 x1 s) e).fuses (by decide))
  | iocalStart x0 x1 => exact .inl ((keeps_of_next (execIocalStart_keeps x0 x1 s) e).fuses (by decide))
  | glbRstWrite x0 x1 => exact .inl ((keeps_of_next (execGlbRstWrite_keeps x0 x1 s) e).fuses (by decide))
  | fanModeWrite x0 x1 x2 => exact .inl ((keeps_of_next (execFanModeWrite_keeps x0 x1 x2 s) e).fuses (by decide))
  | thrStreamPrepare x0 x1 => exact .inl ((keeps_of_next (execThrStreamPrepare_keeps x0 x1 s) e).fuses (by decide))
  | thrStreamPrepared => exact .inl ((keeps_of_next (execThrStreamPrepared_keeps s) e).fuses (by decide))
  | thrBlockStart x0 => exact .inl ((keeps_of_next (execThrBlockStart_keeps x0 s) e).fuses (by decide))
  | thrBlockDone x0 => exact .inl ((keeps_of_next (execThrBlockDone_keeps x0 s) e).fuses (by decide))
  | millBlock x0 x1 => exact .inl ((keeps_of_next (execMillBlock_keeps x0 x1 s) e).fuses (by decide))
  | glazeLine x0 => exact .inl ((keeps_of_next (execGlazeLine_keeps x0 s) e).fuses (by decide))
  | glazeBand x0 => exact .inl ((keeps_of_next (execGlazeBand_keeps x0 s) e).fuses (by decide))
  | glazePoolWaitEnd => exact .inl ((keeps_of_next (execGlazePoolWaitEnd_keeps s) e).fuses (by decide))
  | tillerRowLine x0 x1 => exact .inl ((keeps_of_next (execTillerRowLine_keeps x0 x1 s) e).fuses (by decide))
  | entryRestore x0 => exact .inl ((keeps_of_next (execEntryRestore_keeps x0 s) e).fuses (by decide))
  | gapRowLine x0 x1 => exact .inl ((keeps_of_next (execGapRowLine_keeps x0 x1 s) e).fuses (by decide))
  | fillRowLine x0 x1 => exact .inl ((keeps_of_next (execFillRowLine_keeps x0 x1 s) e).fuses (by decide))
  | underrunReversal x0 x1 => exact .inl ((keeps_of_next (execUnderrunReversal_keeps x0 x1 s) e).fuses (by decide))
  | tillerSweep x0 => exact .inl ((keeps_of_next (execTillerSweep_keeps x0 s) e).fuses (by decide))
  | tillerComparatorTrip x0 => exact .inl ((keeps_of_next (execTillerComparatorTrip_keeps x0 s) e).fuses (by decide))
  | tillerThrottleEnd x0 => exact .inl ((keeps_of_next (execTillerThrottleEnd_keeps x0 s) e).fuses (by decide))
  | autoSplit x0 => exact .inl ((keeps_of_next (execAutoSplit_keeps x0 s) e).fuses (by decide))
  | paceStepEdge x0 x1 x2 x3 x4 => exact .inl ((keeps_of_next (execPaceStepEdge_keeps x0 x1 x2 x3 x4 s) e).fuses (by decide))
  | kilnSheafShift x0 x1 => exact .inl ((keeps_of_next (execKilnSheafShift_keeps x0 x1 s) e).fuses (by decide))
  | rowLineUnderrun x0 x1 x2 => exact .inl ((keeps_of_next (execRowLineUnderrun_keeps x0 x1 x2 s) e).fuses (by decide))
  | fireEdge x0 => exact .inl ((keeps_of_next (execFireEdge_keeps x0 s) e).fuses (by decide))
  | firedWindowCompare x0 x1 => exact .inl ((keeps_of_next (execFiredWindowCompare_keeps x0 x1 s) e).fuses (by decide))
  | frameMarkEnd x0 => exact .inl ((keeps_of_next (execFrameMarkEnd_keeps x0 s) e).fuses (by decide))
  | channelPause x0 x1 => exact .inl ((keeps_of_next (execChannelPause_keeps x0 x1 s) e).fuses (by decide))
  | planePause x0 x1 => exact .inl ((keeps_of_next (execPlanePause_keeps x0 x1 s) e).fuses (by decide))
  | pauseTickle x0 x1 => exact .inl ((keeps_of_next (execPauseTickle_keeps x0 x1 s) e).fuses (by decide))
  | pauseSpoil x0 x1 => exact .inl ((keeps_of_next (execPauseSpoil_keeps x0 x1 s) e).fuses (by decide))
  | tripInput x0 x1 x2 => exact .inl ((keeps_of_next (execTripInput_keeps x0 x1 x2 s) e).fuses (by decide))
  | hlkForwardFrame x0 => exact .inl ((keeps_of_next (execHlkForwardFrame_keeps x0 s) e).fuses (by decide))
  | hlkRxStatus x0 x1 x2 x3 x4 x5 x6 x7 => exact .inl ((keeps_of_next (execHlkRxStatus_keeps x0 x1 x2 x3 x4 x5 x6 x7 s) e).fuses (by decide))
  | hlkRxTemp x0 x1 x2 => exact .inl ((keeps_of_next (execHlkRxTemp_keeps x0 x1 x2 s) e).fuses (by decide))
  | hlkRxFault x0 x1 x2 x3 => exact .inl ((keeps_of_next (execHlkRxFault_keeps x0 x1 x2 x3 s) e).fuses (by decide))
  | hlkRxAck x0 x1 x2 => exact .inl ((keeps_of_next (execHlkRxAck_keeps x0 x1 x2 s) e).fuses (by decide))
  | hlkRxSync x0 x1 => exact .inl ((keeps_of_next (execHlkRxSync_keeps x0 x1 s) e).fuses (by decide))
  | hlkRxFrameBad x0 => exact .inl ((keeps_of_next (execHlkRxFrameBad_keeps x0 s) e).fuses (by decide))
  | hlkTrainTimeout x0 => exact .inl ((keeps_of_next (execHlkTrainTimeout_keeps x0 s) e).fuses (by decide))
  | hlkRxTimeout x0 => exact .inl ((keeps_of_next (execHlkRxTimeout_keeps x0 s) e).fuses (by decide))
  | hlkFltNFault x0 x1 x2 => exact .inl ((keeps_of_next (execHlkFltNFault_keeps x0 x1 x2 s) e).fuses (by decide))
  | hlkPgDelayExpire x0 x1 => exact .inl ((keeps_of_next (execHlkPgDelayExpire_keeps x0 x1 s) e).fuses (by decide))
  | pifAdcSample x0 x1 x2 x3 => exact .inl ((keeps_of_next (execPifAdcSample_keeps x0 x1 x2 x3 s) e).fuses (by decide))
  | pifSquareSample x0 x1 x2 x3 => exact .inl ((keeps_of_next (execPifSquareSample_keeps x0 x1 x2 x3 s) e).fuses (by decide))
  | pifIndexCapture x0 x1 x2 => exact .inl ((keeps_of_next (execPifIndexCapture_keeps x0 x1 x2 s) e).fuses (by decide))
  | motGeneratorUpdate x0 => exact .inl ((keeps_of_next (execMotGeneratorUpdate_keeps x0 s) e).fuses (by decide))
  | motPwmPeriod x0 x1 x2 => exact .inl ((keeps_of_next (execMotPwmPeriod_keeps x0 x1 x2 s) e).fuses (by decide))
  | motSdFastFilter x0 x1 x2 => exact .inl ((keeps_of_next (execMotSdFastFilter_keeps x0 x1 x2 s) e).fuses (by decide))
  | motSdLoss x0 x1 x2 => exact .inl ((keeps_of_next (execMotSdLoss_keeps x0 x1 x2 s) e).fuses (by decide))
  | motLimitInput x0 x1 x2 => exact .inl ((keeps_of_next (execMotLimitInput_keeps x0 x1 x2 s) e).fuses (by decide))
  | motStandstillTimer x0 => exact .inl ((keeps_of_next (execMotStandstillTimer_keeps x0 s) e).fuses (by decide))
  | motEnableAdmit x0 => exact .inl ((keeps_of_next (execMotEnableAdmit_keeps x0 s) e).fuses (by decide))
  | csiLongPacket x0 x1 x2 x3 x4 x5 x6 x7 x8 x9 => exact .inl ((keeps_of_next (execCsiLongPacket_keeps x0 x1 x2 x3 x4 x5 x6 x7 x8 x9 s) e).fuses (by decide))
  | csiShortPacket x0 x1 x2 x3 x4 x5 => exact .inl ((keeps_of_next (execCsiShortPacket_keeps x0 x1 x2 x3 x4 x5 s) e).fuses (by decide))
  | iplPipelineLine x0 => exact .inl ((keeps_of_next (execIplPipelineLine_keeps x0 s) e).fuses (by decide))
  | iplStallTimeout x0 x1 => exact .inl ((keeps_of_next (execIplStallTimeout_keeps x0 x1 s) e).fuses (by decide))
  | imageStore => exact .inl ((keeps_of_next (execImageStore_keeps s) e).fuses (by decide))
  | winnowLineCompare x0 => exact .inl ((keeps_of_next (execWinnowLineCompare_keeps x0 s) e).fuses (by decide))
  | winnowRuleTimeout x0 x1 => exact .inl ((keeps_of_next (execWinnowRuleTimeout_keeps x0 x1 s) e).fuses (by decide))
  | gleanDumpSolve x0 => exact .inl ((keeps_of_next (execGleanDumpSolve_keeps x0 s) e).fuses (by decide))
  | calProposalCheck x0 => exact .inl ((keeps_of_next (execCalProposalCheck_keeps x0 s) e).fuses (by decide))
  | batchCloseTimer x0 => exact .inl ((keeps_of_next (execBatchCloseTimer_keeps x0 s) e).fuses (by decide))
  | batchPost x0 => exact .inl ((keeps_of_next (execBatchPost_keeps x0 s) e).fuses (by decide))
  | trmBeaconSend => exact .inl ((keeps_of_next (execTrmBeaconSend_keeps s) e).fuses (by decide))
  | trmBeaconReceive x0 x1 x2 x3 => exact .inl ((keeps_of_next (execTrmBeaconReceive_keeps x0 x1 x2 x3 s) e).fuses (by decide))
  | trmBeaconMissed x0 => exact .inl ((keeps_of_next (execTrmBeaconMissed_keeps x0 s) e).fuses (by decide))
  | trmFollowerBurstSend => exact .inl ((keeps_of_next (execTrmFollowerBurstSend_keeps s) e).fuses (by decide))
  | trmFollowerBurstReceive x0 x1 x2 x3 x4 => exact .inl ((keeps_of_next (execTrmFollowerBurstReceive_keeps x0 x1 x2 x3 x4 s) e).fuses (by decide))
  | trmClaimTimer x0 => exact .inl ((keeps_of_next (execTrmClaimTimer_keeps x0 s) e).fuses (by decide))
  | trmLeadLineLow x0 => exact .inl ((keeps_of_next (execTrmLeadLineLow_keeps x0 s) e).fuses (by decide))
  | timSecondRollover => exact .inl ((keeps_of_next (execTimSecondRollover_keeps s) e).fuses (by decide))
  | timSlewEnd => exact .inl ((keeps_of_next (execTimSlewEnd_keeps s) e).fuses (by decide))
  | tallyCheckpointTimer => exact .inl ((keeps_of_next (execTallyCheckpointTimer_keeps s) e).fuses (by decide))
  | tallyWriteBack => exact .inl ((keeps_of_next (execTallyWriteBack_keeps s) e).fuses (by decide))
  | tallyCkptLate x0 => exact .inl ((keeps_of_next (execTallyCkptLate_keeps x0 s) e).fuses (by decide))
  | tallyI2cBusyRetry x0 => exact .inl ((keeps_of_next (execTallyI2cBusyRetry_keeps x0 s) e).fuses (by decide))
  | i2cStretchTimeout x0 => exact .inl ((keeps_of_next (execI2cStretchTimeout_keeps x0 s) e).fuses (by decide))
  | crockRecordWrite x0 => exact .inl ((keeps_of_next (execCrockRecordWrite_keeps x0 s) e).fuses (by decide))
  | crockCompactionDone x0 => exact .inl ((keeps_of_next (execCrockCompactionDone_keeps x0 s) e).fuses (by decide))
  | snapshotTimer => exact .inl ((keeps_of_next (execSnapshotTimer_keeps s) e).fuses (by decide))
  | snapshotWrite => exact .inl ((keeps_of_next (execSnapshotWrite_keeps s) e).fuses (by decide))
  | calFlushTimer => exact .inl ((keeps_of_next (execCalFlushTimer_keeps s) e).fuses (by decide))
  | crockGraceEnd x0 => exact .inl ((keeps_of_next (execCrockGraceEnd_keeps x0 s) e).fuses (by decide))
  | stookEventWrite => exact .inl ((keeps_of_next (execStookEventWrite_keeps s) e).fuses (by decide))
  | stookTraceWrite => exact .inl ((keeps_of_next (execStookTraceWrite_keeps s) e).fuses (by decide))
  | stookThrottleTimer x0 => exact .inl ((keeps_of_next (execStookThrottleTimer_keeps x0 s) e).fuses (by decide))
  | coreSleep x0 => exact .inl ((keeps_of_next (execCoreSleep_keeps x0 s) e).fuses (by decide))
  | coreWake x0 x1 x2 => exact .inl ((keeps_of_next (execCoreWake_keeps x0 x1 x2 s) e).fuses (by decide))
  | firewallDenial x0 x1 x2 x3 => exact .inl ((keeps_of_next (execFirewallDenial_keeps x0 x1 x2 x3 s) e).fuses (by decide))
  | boot x0 x1 x2 x3 x4 x5 x6 x7 => exact .inr (.inr (.inr ⟨_, _, _, _, _, _, _, _, rfl⟩))
  | por x0 => exact .inl ((keeps_of_next (execPor_keeps x0 s) e).fuses (by decide))
  | pinReset x0 x1 => exact .inl ((keeps_of_next (execPinReset_keeps x0 x1 s) e).fuses (by decide))
  | hostReset x0 => exact .inl ((keeps_of_next (execHostReset_keeps x0 s) e).fuses (by decide))
  | flr => exact .inl ((keeps_of_next (execFlr_keeps s) e).fuses (by decide))
  | wdogReset => exact .inl ((keeps_of_next (execWdogReset_keeps s) e).fuses (by decide))
  | sagFault x0 => exact .inl ((keeps_of_next (execSagFault_keeps x0 s) e).fuses (by decide))
  | jtagInstruction x0 => exact .inl ((keeps_of_next (execJtagInstruction_keeps x0 s) e).fuses (by decide))
  | refClockLoss => exact .inl ((keeps_of_next (execRefClockLoss_keeps s) e).fuses (by decide))
  | rootPllLoss => exact .inl ((keeps_of_next (execRootPllLoss_keeps s) e).fuses (by decide))
  | ddrPllLoss => exact .inl ((keeps_of_next (execDdrPllLoss_keeps s) e).fuses (by decide))
  | dllLockChange x0 x1 => exact .inl ((keeps_of_next (execDllLockChange_keeps x0 x1 s) e).fuses (by decide))
  | iocalPeriod => exact .inl ((keeps_of_next (execIocalPeriod_keeps s) e).fuses (by decide))
  | iocalDone x0 => exact .inl ((keeps_of_next (execIocalDone_keeps x0 s) e).fuses (by decide))
  | headEnableAdmit x0 => exact .inl ((keeps_of_next (execHeadEnableAdmit_keeps x0 s) e).fuses (by decide))
  | autoIdle => exact .inl ((keeps_of_next (execAutoIdle_keeps s) e).fuses (by decide))
  | powerExitDone => exact .inl ((keeps_of_next (execPowerExitDone_keeps s) e).fuses (by decide))
  | deepEntry => exact .inl ((keeps_of_next (execDeepEntry_keeps s) e).fuses (by decide))
  | deepWakeTimer x0 => exact .inl ((keeps_of_next (execDeepWakeTimer_keeps x0 s) e).fuses (by decide))
  | supplyOutOfRange x0 x1 => exact .inl ((keeps_of_next (execSupplyOutOfRange_keeps x0 x1 s) e).fuses (by decide))
  | thmSensorSample x0 x1 x2 x3 => exact .inl ((keeps_of_next (execThmSensorSample_keeps x0 x1 x2 x3 s) e).fuses (by decide))
  | analogTrip => exact .inl ((keeps_of_next (execAnalogTrip_keeps s) e).fuses (by decide))
  | shutdownHoldRelease x0 => exact .inl ((keeps_of_next (execShutdownHoldRelease_keeps x0 s) e).fuses (by decide))
  | fanTachEdge x0 x1 => exact .inl ((keeps_of_next (execFanTachEdge_keeps x0 x1 s) e).fuses (by decide))
  | fanSpinupEnd x0 x1 => exact .inl ((keeps_of_next (execFanSpinupEnd_keeps x0 x1 s) e).fuses (by decide))
  | fanPauseEnd x0 x1 => exact .inl ((keeps_of_next (execFanPauseEnd_keeps x0 x1 s) e).fuses (by decide))
  | fanTachTimeout x0 x1 => exact .inl ((keeps_of_next (execFanTachTimeout_keeps x0 x1 s) e).fuses (by decide))
  | fanAutoUpdate x0 => exact .inl ((keeps_of_next (execFanAutoUpdate_keeps x0 s) e).fuses (by decide))
  | fanSlow x0 x1 => exact .inl ((keeps_of_next (execFanSlow_keeps x0 x1 s) e).fuses (by decide))
  | hlkRxMarkerFound x0 x1 => exact .inl ((keeps_of_next (execHlkRxMarkerFound_keeps x0 x1 s) e).fuses (by decide))
  | hlkRxFrameGood x0 => exact .inl ((keeps_of_next (execHlkRxFrameGood_keeps x0 s) e).fuses (by decide))
  | refClockReturn => exact .inl ((keeps_of_next (execRefClockReturn_keeps s) e).fuses (by decide))
  | supplyReturn x0 => exact .inl ((keeps_of_next (execSupplyReturn_keeps x0 s) e).fuses (by decide))
  | motHomeInput x0 x1 => exact .inl ((keeps_of_next (execMotHomeInput_keeps x0 x1 s) e).fuses (by decide))
  | d0Transition => exact .inl ((keeps_of_next (execD0Transition_keeps s) e).fuses (by decide))
  | powerEntryDone => exact .inl ((keeps_of_next (execPowerEntryDone_keeps s) e).fuses (by decide))
  | residentFirmwareReady => exact .inl ((keeps_of_next (execResidentFirmwareReady_keeps s) e).fuses (by decide))
  | tallyExchangeResponse x0 x1 => exact .inl ((keeps_of_next (execTallyExchangeResponse_keeps x0 x1 s) e).fuses (by decide))

/-- Settles O7: a step keeps what its command's operations keep, and only three commands have the fuses among their parts. -/
theorem lifecycleNeverGoesBack : Obligations.LifecycleNeverGoesBack :=
  ⟨fun _ _ => step_keeps_lifecycle, fun _ _ _ e hne => (exec_fuses e).resolve_left hne⟩

end Sys2Proof.Machine
end

section
/-! SUPPORT. The proofs of what head ports do: their frames, the return lane, and their timers (O44, O45). -/

namespace Sys2Proof.Machine
open Sys2Proof

/-! ## Head faults, link changes and training (R318, R319, R324) -/

/-- A port as a lost link or a head fault may leave it: its power, its fault and its descriptors those of another port. -/
def Port.lapsed (x y : Port) : Port :=
  { x with pwren := y.pwren, pg := y.pg, pgSeen := y.pgSeen, latched := y.latched, cause := y.cause, descs := y.descs,
           descWait := y.descWait }

/-- An operation on a head's port touches of it what a fault may, and no other port nor any head port's register. -/
structure Lapsed (h : Nat) (s t : State) : Prop where
  own : ∃ y, port t h = (port s h).lapsed y
  others : ∀ g, g ≠ h → port t g = port s g
  regs : ∀ k, keyKind k = .hlk → rd t k = rd s k

theorem Lapsed.of_port {h : Nat} {s t : State} (hp : ∀ g, port t g = port s g) (hr : ∀ k, keyKind k = .hlk → rd t k = rd s k) :
    Lapsed h s t := ⟨⟨port s h, hp h⟩, fun g _ => hp g, hr⟩

theorem Lapsed.refl (h : Nat) (s : State) : Lapsed h s s := .of_port (fun _ => rfl) fun _ _ => rfl

theorem Lapsed.trans {h : Nat} {s t u : State} (a : Lapsed h s t) (b : Lapsed h t u) : Lapsed h s u := by
  obtain ⟨⟨y, hy⟩, ao, ar⟩ := a
  obtain ⟨⟨z, hz⟩, bo, br⟩ := b
  exact ⟨⟨z, by rw [hz, hy]; rfl⟩, fun g hg => (bo g hg).trans (ao g hg), fun k hk => (br k hk).trans (ar k hk)⟩

theorem Lapsed.of_keeps {ps : List Part} {h : Nat} {s t : State} (k : Keeps ps s t) (hp : Part.ports ∉ ps) (hr : Part.reg .hlk ∉ ps) :
    Lapsed h s t :=
  .of_port (port_congr (k.only .ports hp)) fun _ hk => k.rd (by rw [hk]; exact hr)

theorem headLost_lapsed (h : Nat) (s : State) : Lapsed h s (headLost h s) := by
  refine ⟨?_, fun g hg => port_headLost_ne s hg, fun k hk => rd_headLost hk h s⟩
  obtain e | k := headLost_cases h s
  · exact ⟨port s h, by rw [e]; rfl⟩
  · exact ⟨{ port s h with descs := [], descWait := [] }, by rw [port_congr (k.only .ports (by decide)), port_updPort_self]; rfl⟩

theorem headOff_lapsed (h : Nat) (s : State) : Lapsed h s (headOff h s) := by
  refine ⟨⟨{ port s h with pwren := false, pg := false, pgSeen := false }, ?_⟩, fun g hg => ?_, fun k hk => ?_⟩
  · rw [headOff_port, if_pos rfl]
    rfl
  · rw [headOff_port, if_neg hg]
  · exact (headOff_only h s).rd (by rw [hk]; decide)

/-- A port whose head fault latches with a cause (R324). -/
def latchFault (h cause : Nat) (s : State) : State := updPort h (fun x => { x with latched := true, cause := cause }) s

theorem latchFault_lapsed (h cause : Nat) (s : State) : Lapsed h s (latchFault h cause s) :=
  ⟨⟨{ port s h with latched := true, cause := cause }, (port_updPort_self _ _ _).trans rfl⟩, fun _ hg => port_updPort_ne _ _ hg,
    fun _ _ => rfl⟩

theorem alarmed_lapsed (h n b i : Nat) (ten : Option Nat) (pl : List Byte) (s : State) :
    Lapsed h s (raiseIrq n b (raiseAlarm i ten pl s)) := by
  have ha : Keeps [.msix, .out, .reg .stk, .rings, .stk] s (raiseAlarm i ten pl s) :=
    raiseAlarm_keeps i ten pl s (fun _ q => q) (Keeps.refl _ s)
  refine (Lapsed.of_keeps ha (by decide) (by decide)).trans (.of_port (fun g => ?_) fun k _ => rd_raiseIrq n b _ k)
  exact port_congr ((raiseIrq_keeps n b _ (fun _ q => q) (Keeps.refl _ _)).only .ports (by simp)) g

theorem headFault_latched {h cause : Nat} {s : State} (hl : (port s h).latched = true) : headFault h cause s = s := if_pos hl

theorem headFault_new {h cause : Nat} {s : State} (hl : (port s h).latched = false) : headFault h cause s =
    raiseIrq (pgHlk h) 5 (raiseAlarm 13 none (le 1 h ++ le 1 cause ++ le 8 (stamp s).toNat) (headLost h (latchFault h cause (headOff h s)))) :=
  if_neg (by rw [hl]; decide)

theorem headFault_lapsed (h cause : Nat) (s : State) : Lapsed h s (headFault h cause s) := by
  cases hl : (port s h).latched with
  | true =>
    rw [headFault_latched hl]
    exact Lapsed.refl h s
  | false =>
    rw [headFault_new hl]
    exact (((headOff_lapsed h s).trans (latchFault_lapsed h cause _)).trans (headLost_lapsed h _)).trans (alarmed_lapsed h _ _ _ _ _ _)

/-- A head fault that latches holds its cause and has turned the power off. -/
theorem headFault_port {h cause : Nat} {s : State} (hl : (port s h).latched = false) :
    (port (headFault h cause s) h).latched = true ∧ (port (headFault h cause s) h).cause = cause ∧
      (port (headFault h cause s) h).pwren = false := by
  have hp : port (headFault h cause s) h = port (headLost h (latchFault h cause (headOff h s))) h := by
    rw [headFault_new hl]
    refine port_congr ((raiseIrq_keeps _ _ _ (fun _ q => q) (Keeps.refl _ _)).only .ports (by simp) |>.trans ?_) h
    exact (raiseAlarm_keeps _ _ _ _ (fun _ q => q) (Keeps.refl _ _)).only .ports (by decide)
  have hf : port (latchFault h cause (headOff h s)) h = { port (headOff h s) h with latched := true, cause := cause } :=
    port_updPort_self _ _ _
  rw [hp]
  refine ⟨?_, ?_, ?_⟩
  · rw [port_headLost_field Port.latched fun _ => rfl, hf]
  · rw [port_headLost_field Port.cause fun _ => rfl, hf]
  · rw [port_headLost_field Port.pwren fun _ => rfl, hf, headOff_port, if_pos rfl]

/-- What a link's change leaves: the new link, and what a fault may touch. -/
structure Linked (h : Nat) (l : Link) (s t : State) : Prop where
  own : ∃ y, port t h = { (port s h).lapsed y with link := l }
  others : ∀ g, g ≠ h → port t g = port s g
  regs : ∀ k, keyKind k = .hlk → rd t k = rd s k

theorem Linked.lapsed {h : Nat} {l : Link} {s t u : State} (a : Linked h l s t) (b : Lapsed h t u) : Linked h l s u := by
  obtain ⟨⟨y, hy⟩, ao, ar⟩ := a
  obtain ⟨⟨z, hz⟩, bo, br⟩ := b
  exact ⟨⟨z, by rw [hz, hy]; rfl⟩, fun g hg => (bo g hg).trans (ao g hg), fun k hk => (br k hk).trans (ar k hk)⟩

theorem setLink_linked (h : Nat) (l : Link) (cause : Nat) (s : State) : Linked h l s (setLink h l cause s) := by
  unfold setLink
  extract_lets old s0 s1
  have h0 : Linked h l s s0 := by
    refine ⟨⟨port s h, ?_⟩, fun g hg => ?_, fun k hk => rd_postLink hk _ _ _ _ _⟩
    · rw [port_postLink, port_updPort_self]
      rfl
    · rw [port_postLink, port_updPort_ne _ _ hg]
  have h1 : Linked h l s s1 := by
    unfold s1
    split_ifs
    · exact h0.lapsed (headLost_lapsed h _)
    · exact h0
  split_ifs with hold
  · exact ⟨⟨port s h, by rw [← hold]; rfl⟩, fun _ _ => rfl, fun _ _ => rfl⟩
  · exact h1.lapsed (headFault_lapsed h 3 _)
  · exact h1

/-- A port that trains: its receiver searches; its STATUS fields stay. -/
structure Trained (h : Nat) (l : Link) (s t : State) : Prop where
  link : (port t h).link = l
  align : (port t h).align = 0
  descr : (port t h).descr = false
  stale : (port t h).stale = (port s h).stale
  drvReady : (port t h).drvReady = (port s h).drvReady
  others : ∀ g, g ≠ h → port t g = port s g
  regs : ∀ k, keyKind k = .hlk → rd t k = rd s k

/-- The port at step 1 of training, its link not moved yet (R318). -/
def trainStart (h : Nat) (s : State) : State :=
  let a := drawScr s
  let b := drawScr a.2
  updPort h (fun x => { x with
    scr := [a.1, b.1], align := 0, good := 0, cand := 0, bad := 0, descr := false, frames := [], descs := [], fills := [],
    ready := false, descWait := [], swapNext := false, swapDue := none, since := [0, 0] }) b.2

theorem train_eq (h : Nat) (l : Link) (cause : Nat) (s : State) : train h l cause s = setLink h l cause (trainStart h s) := rfl

theorem trainStart_keeps (h : Nat) (s : State) : Keeps [.free, .ports] s (trainStart h s) := by
  have h1 : Keeps [.free, .ports] s (drawScr s).2 := drawScr_keeps s (by decide) (Keeps.refl _ s)
  have h2 : Keeps [.free, .ports] s (drawScr (drawScr s).2).2 := drawScr_keeps _ (by decide) h1
  unfold trainStart
  exact updPort_keeps h _ _ (by decide) h2

theorem trainStart_port (h : Nat) (s : State) : (port (trainStart h s) h).link = (port s h).link ∧
    (port (trainStart h s) h).align = 0 ∧ (port (trainStart h s) h).descr = false := by
  rw [trainStart, port_updPort_self]
  exact ⟨rfl, rfl, rfl⟩

theorem trainStart_others {g h : Nat} (hg : g ≠ h) (s : State) : port (trainStart h s) g = port s g :=
  (port_updPort_ne _ _ hg).trans rfl

theorem train_trained (h : Nat) (l : Link) (cause : Nat) (s : State) : Trained h l s (train h l cause s) := by
  have hp : (drawScr (drawScr s).2).2.ports = s.ports := rfl
  obtain ⟨⟨y, hy⟩, ho, hr⟩ := setLink_linked h l cause (trainStart h s)
  rw [← train_eq] at hy ho hr
  have hself : port (trainStart h s) h = _ := port_updPort_self h _ _
  rw [hself] at hy
  refine ⟨by rw [hy], by rw [hy]; rfl, by rw [hy]; rfl, ?_, ?_, fun g hg => (ho g hg).trans ?_, fun k hk => (hr k hk).trans ?_⟩
  · rw [hy, ← port_congr hp]
    rfl
  · rw [hy, ← port_congr hp]
    rfl
  · exact (port_updPort_ne _ _ hg).trans (port_congr hp g)
  · exact (trainStart_keeps h s).rd (by simp)

/-- A link that is UP retrains, counted (R319). -/
theorem retrain_up {h : Nat} {s : State} (hl : (port s h).link = .up) (cause : Nat) :
    retrain h cause s = train h .retraining cause (inc (Reg.HLK_RETRAIN_CNT h) 1 s) := by
  unfold retrain
  rw [hl]

theorem retrain_up_trained {h : Nat} {s : State} (hl : (port s h).link = .up) (cause : Nat) :
    Trained h .retraining (inc (Reg.HLK_RETRAIN_CNT h) 1 s) (retrain h cause s) := by
  rw [retrain_up hl]
  exact train_trained _ _ _ _

/-! ## Timers and FLT_N (O45) -/

/-- A training port that times out starts training afresh, with nothing of its plane touched: its link does not change (R318). -/
theorem trainTimeout_training {h : Nat} {s : State} (hl : (port s h).link = .training ∨ (port s h).link = .retraining) :
    trainTimeout h s = trainStart h (postLink h (port s h).link.code (port s h).link.code 1 s) := by
  unfold trainTimeout
  dsimp only
  rw [if_pos hl, train_eq]
  exact if_pos ((trainStart_port h _).1.trans (congrArg Port.link (port_postLink _ _ _ _ _ _)))

theorem postLink_raw (h old new cause : Nat) (s : State) : (getPage (postLink h old new cause s) (pgHlk h)).irqRaw.getLsbD 4 = true :=
  raiseIrq_raw (by decide) _

/-- FLT_N low (R324). -/
def fltLowed (h : Nat) (s : State) : State := updPort h (fun x => { x with fltLow := true }) s

theorem fltInput_low (h t : Nat) (s : State) : fltInput h t true s =
    if (port s h).pwren then headFault h 1 (fltLowed h (advanceTo t s)) else fltLowed h (advanceTo t s) := by
  have hp : (port (fltLowed h (advanceTo t s)) h).pwren = (port s h).pwren := by
    rw [fltLowed, port_updPort_self, port_advance]
  rw [← hp]
  rfl

theorem fltLowed_port (h t : Nat) (s : State) : port (fltLowed h (advanceTo t s)) h = { port s h with fltLow := true } := by
  rw [fltLowed, port_updPort_self, port_advance]

theorem fltInput_high (h t : Nat) (s : State) :
    fltInput h t false s = updPort h (fun x => { x with fltLow := false, fltHighSince := t }) (advanceTo t s) := rfl

theorem noteArrival_ports (k : Nat) (s : State) : (noteArrival k s).ports = s.ports := rfl

/-- Settles O45: each timer and each edge of FLT_N by what it leaves of its port. -/
theorem headLinkTimersRun : Obligations.HeadLinkTimersRun := by
  refine ⟨?train, ?rx, ?flt, ?pg⟩
  case train =>
    intro h s hl
    have e : exec (.hlkTrainTimeout h) s = .next _ := congrArg Host.Outcome.next (trainTimeout_training hl)
    obtain ⟨hlink, halign, hdescr⟩ := trainStart_port h.val (postLink h.val (port s h.val).link.code (port s h.val).link.code 1 s)
    have hk := trainStart_keeps h.val (postLink h.val (port s h.val).link.code (port s h.val).link.code 1 s)
    refine ⟨_, e, ⟨hlink.trans (congrArg Port.link (port_postLink _ _ _ _ _ _)), halign, hdescr, ?_, fun g hg => ?_⟩, ?_⟩
    · rw [(hk.only (.reg .hlk) (by decide)).2 _ (by simp)]
      exact postLink_raw _ _ _ _ _
    · exact (trainStart_others hg _).trans (port_postLink _ _ _ _ _ _)
    · exact ((postLink_keeps _ _ _ _ s (by decide) (Keeps.refl _ s)).trans (hk.mono (by decide))).only
  case rx =>
    intro h s hl
    set u := updPort h.val (fun x => { x with stale := true }) s with hu
    have hup : port u h.val = { port s h.val with stale := true } := port_updPort_self _ _ _
    have e : rxTimeout h.val s = retrain h.val 4 u := if_pos hl
    obtain ⟨hlink, halign, -, hstale, -, -, hregs⟩ := retrain_up_trained (s := u) (h := h.val) (by rw [hup]; exact hl) 4
    refine next_at (execHlkRxTimeout_keeps h s) (by decide) (congrArg Host.Outcome.next e) ⟨hlink, ?_, halign, ?_⟩
    · rw [hstale]
      exact congrArg Port.stale hup
    · rw [rn_congr (hregs _ (by simp)), rn_inc_self]
      rfl
  case flt =>
    intro h v s
    constructor
    · have e : exec (.hlkFltNFault h true v) s = .next (fltInput h.val v.toNat true s) := rfl
      rw [fltInput_low] at e
      refine next_at (execHlkFltNFault_keeps h true v s) (by decide) e ?_
      have hp := fltLowed_port h.val v.toNat s
      cases hpw : (port s h.val).pwren with
      | false =>
        rw [if_neg Bool.false_ne_true]
        exact ⟨congrArg Port.fltLow hp, nofun, fun _ => hp⟩
      | true =>
        rw [if_pos rfl]
        refine ⟨?_, fun _ => ⟨?_, fun hn => ?_⟩, nofun⟩
        · obtain ⟨⟨y, hy⟩, -, -⟩ := headFault_lapsed h.val 1 (fltLowed h.val (advanceTo v.toNat s))
          rw [hy, hp]
          rfl
        · cases hl : (port s h.val).latched with
          | true =>
            have hl' : (port (fltLowed h.val (advanceTo v.toNat s)) h.val).latched = true := by rw [hp]; exact hl
            rw [headFault_latched hl']
            exact hl'
          | false => exact (headFault_port (by rw [hp]; exact hl)).1
        · obtain ⟨-, hcause, hoff⟩ := headFault_port (h := h.val) (cause := 1) (s := fltLowed h.val (advanceTo v.toNat s))
            (by rw [hp]; exact hn)
          exact ⟨hcause, hoff⟩
    · have hadv : Keeps [.clock, .msix, .out, .ports, .reg .stk, .reg .tim, .rings, .stk] s (advanceTo v.toNat s) :=
        advanceTo_keeps _ s (by decide) (Keeps.refl _ s)
      refine ⟨_, congrArg Host.Outcome.next (fltInput_high h.val v.toNat s), ?_, (updPort_keeps _ _ _ (by decide) hadv).only⟩
      rw [port_updPort_self, port_advance]
  case pg =>
    intro h v s hl hp hf hg ht
    have e : pgDelay h.val v.toNat s =
        noteArrival (keyHead h.val) (updPort h.val (fun y => { y with pg := true, pgSeen := true }) (advanceTo v.toNat s)) :=
      if_pos ⟨hl, hp, hf, hg, ht⟩
    refine next_at (execHlkPgDelayExpire_keeps h v s) (by decide) (congrArg Host.Outcome.next e) ?_
    rw [port_congr (noteArrival_ports _ _), port_updPort_self, port_advance]
    exact ⟨rfl, rfl, hp⟩

end Sys2Proof.Machine
end

section
/-! SUPPORT. The proofs of what a head port sends and what its return lane brings (O44). -/

namespace Sys2Proof.Machine
open Sys2Proof

/-! ## A delivered message (R316) -/

theorem delivers_parts {h : Nat} {s : State} (hd : delivers s h = true) :
    rxActive (port s h) = true ∧ (port s h).align = 2 ∧ (port s h).descr = true := by
  simpa [delivers, and_assoc] using hd

theorem message_delivered {h : Nat} {s : State} (hd : delivers s h = true) (op : State → State) : message h op s = op (rxGood h s) := by
  obtain ⟨ha, hal, hde⟩ := delivers_parts hd
  simp [message, ha, hal, hde]

theorem delivers_advance (t : Nat) (s : State) (h : Nat) : delivers (advanceTo t s) h = delivers s h := by
  simp only [delivers, port_advance]

/-- A good frame in LOCKED. -/
theorem rxGood_port (h : Nat) (s : State) :
    port (rxGood h s) h = { port s h with bad := 0, rxScr := scrAdvance 480 (port s h).rxScr } := port_updPort_self _ _ _

/-- A port whose lane delivers is training or UP. -/
theorem delivers_link {h : Nat} {s : State} (hd : delivers s h = true) :
    (port s h).link = .up ∨ (port s h).link = .training ∨ (port s h).link = .retraining := by
  obtain ⟨ha, -, -⟩ := delivers_parts hd
  have hl : (port s h).link = .training ∨ (port s h).link = .up ∨ (port s h).link = .retraining := by simpa [rxActive] using ha
  tauto

/-! ## STATUS (R318 to R320) -/

/-- What a STATUS message leaves before its power-good and its lanes are looked at. -/
def statusNoted (h : Nat) (ready : Bool) (crc miss : Nat) (s : State) : State :=
  wn (Reg.HLK_DRV_STAT h) (crc + 65536 * miss) (updPort h (fun x => { x with stale := false, drvReady := ready }) s)

theorem statusNoted_port (h : Nat) (ready : Bool) (crc miss : Nat) (s : State) :
    port (statusNoted h ready crc miss s) h = { port s h with stale := false, drvReady := ready } :=
  (port_congr (wn_ports _ _ _) h).trans (port_updPort_self _ _ _)

theorem statusPg_lapsed (h : Nat) (pg : Bool) (s : State) : Lapsed h s (statusPg h pg s) := by
  have hnote : ∀ x : Port, Lapsed h s (putPort h ((port s h).lapsed x) s) := fun x =>
    ⟨⟨x, port_updPort_self h (fun _ => (port s h).lapsed x) s⟩, fun _ hg => port_updPort_ne (fun _ => (port s h).lapsed x) s hg,
      fun _ _ => rfl⟩
  unfold statusPg
  extract_lets x s1
  have h1 : Lapsed h s s1 := hnote { port s h with pg := false }
  split_ifs
  · exact (hnote { port s h with pg := true, pgSeen := true }).trans (.of_port (fun _ => rfl) fun _ _ => rfl)
  · exact .refl h s
  · exact h1.trans (headFault_lapsed h 2 _)
  · exact h1

/-- Power-good of a powered UP head is noted (R320). -/
theorem statusPg_seen {h : Nat} {s : State} (hp : (port s h).pwren = true) (hl : (port s h).link = .up) :
    (port (statusPg h true s) h).pg = true ∧ (port (statusPg h true s) h).pgSeen = true := by
  have e : statusPg h true s = noteArrival (keyHead h) (putPort h { port s h with pg := true, pgSeen := true } s) := by
    simp [statusPg, hp, hl]
  have hself : port (putPort h { port s h with pg := true, pgSeen := true } s) h = { port s h with pg := true, pgSeen := true } :=
    port_updPort_self h (fun _ => { port s h with pg := true, pgSeen := true }) s
  rw [e, port_congr (noteArrival_ports _ _), hself]
  exact ⟨rfl, rfl⟩

/-- What a STATUS message comes to by the port's link and the lanes it names. -/
theorem rxStatus_up (h : Nat) (pg ready good : Bool) (crc miss : Nat) {s : State} (hl : (port s h).link = .up) :
    rxStatus h pg ready good crc miss s = if good then statusPg h pg (statusNoted h ready crc miss s) else
      retrain h 3 (statusPg h pg (statusNoted h ready crc miss s)) := by
  unfold rxStatus
  rw [hl]
  rfl

theorem rxStatus_training (h : Nat) (pg ready good : Bool) (crc miss : Nat) {s : State}
    (hl : (port s h).link = .training ∨ (port s h).link = .retraining) :
    rxStatus h pg ready good crc miss s = if good then linkUp h (statusPg h pg (statusNoted h ready crc miss s)) else
      statusPg h pg (statusNoted h ready crc miss s) := by
  unfold rxStatus
  rcases hl with hl | hl <;> (rw [hl]; rfl)

/-- A link that comes UP: its count of fires and its banks start again (R313, R318). -/
structure CameUp (h : Nat) (s t : State) : Prop where
  link : (port t h).link = .up
  fires : (port t h).fires = 0
  bank : (port t h).bank = 0
  fills : (port t h).fills = [⟨0, 0, variantsOf s h false⟩, ⟨1, 0, variantsOf s h true⟩]
  stale : (port t h).stale = (port s h).stale
  drvReady : (port t h).drvReady = (port s h).drvReady
  regs : ∀ k, keyKind k = .hlk → rd t k = rd s k

theorem linkUp_up (h : Nat) (s : State) : CameUp h s (linkUp h s) := by
  unfold linkUp
  set f : Port → Port := fun x => { x with
    fires := 0, descs := [], bank := 0, since := [0, 0],
    fills := [⟨0, 0, variantsOf s h false⟩, ⟨1, 0, variantsOf s h true⟩] }
  obtain ⟨⟨y, hy⟩, -, hr⟩ := setLink_linked h .up 0 (updPort h f s)
  rw [port_updPort_self] at hy
  rw [Port.lapsed] at hy
  exact ⟨by rw [hy], by rw [hy], by rw [hy], by rw [hy], by rw [hy], by rw [hy], hr⟩

/-- What a STATUS message leaves of its port. -/
structure StatusTaken (h : Nat) (pg ready good : Bool) (stat : Nat) (s t : State) : Prop where
  stat : rn t (Reg.HLK_DRV_STAT h) = stat
  stale : (port t h).stale = false
  drvReady : (port t h).drvReady = ready
  up : good = true → (port s h).link ≠ .up → (port t h).link = .up ∧ (port t h).fires = 0 ∧ (port t h).bank = 0 ∧
    ((port t h).fills.map fun b => (b.bank, b.chunk)) = [(0, 0), (1, 0)]
  stays : good = true → (port s h).link = .up → (port t h).link = .up
  retrains : good = false → (port s h).link = .up → (port t h).link = .retraining
  powered : pg = true → (port s h).link = .up → (port s h).pwren = true → good = true → (port t h).pg = true ∧ (port t h).pgSeen = true

theorem rxStatus_taken {h : Nat} (pg ready good : Bool) {crc miss : Nat} (hc : crc < 65536) (hm : miss < 65536) {s : State}
    (hl : (port s h).link = .up ∨ (port s h).link = .training ∨ (port s h).link = .retraining) :
    StatusTaken h pg ready good (crc + 65536 * miss) s (rxStatus h pg ready good crc miss s) := by
  have hn := statusNoted_port h ready crc miss s
  have hstat : rn (statusPg h pg (statusNoted h ready crc miss s)) (Reg.HLK_DRV_STAT h) = crc + 65536 * miss := by
    rw [rn_congr ((statusPg_lapsed h pg _).regs _ (by simp)), statusNoted, rn_wn_self]
    omega
  obtain ⟨⟨y, hy⟩, -, -⟩ := statusPg_lapsed h pg (statusNoted h ready crc miss s)
  rw [hn] at hy
  rcases hl with hl | hl
  · rw [rxStatus_up h pg ready good crc miss hl]
    cases good with
    | true =>
      rw [if_pos rfl]
      refine ⟨hstat, by rw [hy]; rfl, by rw [hy]; rfl, fun _ hne => absurd hl hne, fun _ _ => by rw [hy]; exact hl, nofun, ?_⟩
      rintro rfl - hp -
      exact statusPg_seen (by rw [hn]; exact hp) (by rw [hn]; exact hl)
    | false =>
      rw [if_neg Bool.false_ne_true]
      obtain ⟨hlink, -, -, hstale, hready, -, hregs⟩ :=
        retrain_up_trained (h := h) (s := statusPg h pg (statusNoted h ready crc miss s)) (by rw [hy]; exact hl) 3
      refine ⟨?_, hstale.trans ?_, hready.trans ?_, nofun, nofun, fun _ _ => hlink, nofun⟩
      · rw [rn_congr (hregs _ (by simp)), rn_inc_ne _ _ (by simp only [Reg.HLK_DRV_STAT, Reg.HLK_RETRAIN_CNT]; omega), hstat]
      · exact (congrArg Port.stale hy :)
      · exact (congrArg Port.drvReady hy :)
  · have hne : (port s h).link ≠ .up := by rcases hl with hl | hl <;> rw [hl] <;> decide
    rw [rxStatus_training h pg ready good crc miss hl]
    cases good with
    | true =>
      rw [if_pos rfl]
      obtain ⟨hlink, hfires, hbank, hfills, hstale, hready, hregs⟩ := linkUp_up h (statusPg h pg (statusNoted h ready crc miss s))
      refine ⟨(rn_congr (hregs _ (by simp))).trans hstat, hstale.trans ?_, hready.trans ?_, fun _ _ => ⟨hlink, hfires, hbank, by rw [hfills]; rfl⟩,
        fun _ he => absurd he hne, nofun, fun _ he => absurd he hne⟩
      · exact (congrArg Port.stale hy :)
      · exact (congrArg Port.drvReady hy :)
    | false =>
      rw [if_neg Bool.false_ne_true]
      exact ⟨hstat, by rw [hy]; rfl, by rw [hy]; rfl, nofun, nofun, fun _ he => absurd he hne, nofun⟩

/-! ## TEMP, FAULT and ACK (R313, R320) -/

theorem raised_port (n b code : Nat) (ten : Option Nat) (pl : List Byte) (s : State) (g : Nat) :
    port (raiseIrq n b (event code ten pl s)) g = port s g := port_congr ((raised_keeps s).only .ports (by simp)) g

/-- The readings stand, whether or not they are reported. -/
theorem rxTemp_port (h temps valid : Nat) (s : State) : ∃ armed, port (rxTemp h temps valid s) h = { port s h with
    temps := (List.range 8).map (fun i => bits (16 * i + 15) (16 * i) temps),
    tempValid := (List.range 8).map (fun i => decide (valid / 2 ^ i % 2 = 1)), tempArmed := armed } := by
  unfold rxTemp
  extract_lets vs oks s1 hi val live
  have h1 : port s1 h = { port s h with temps := vs, tempValid := oks } := port_updPort_self _ _ _
  have harm : ∀ b, port (updPort h (fun x => { x with tempArmed := b }) s1) h =
      { port s h with temps := vs, tempValid := oks, tempArmed := b } := fun b => by rw [port_updPort_self, h1]
  split
  · split_ifs
    · exact ⟨false, (raised_port _ _ _ _ _ _ _).trans (harm false)⟩
    · exact ⟨_, h1⟩
  · split_ifs
    · exact ⟨true, harm true⟩
    · exact ⟨_, h1⟩

theorem rxAck_good {h bank : Nat} {s : State} : rxAck h bank true s =
    if bank = (port s h).bank then s else updPort h (fun x => { x with ready := true }) s := rfl

theorem rxAck_bad (h bank : Nat) (s : State) : rxAck h bank false s = updPort h (fun x => { x with
    fills := x.fills.filter (·.bank ≠ bank) ++ [⟨bank, 0, variantsOf s h (decide (bank ≠ x.bank))⟩] }) s := rfl

/-! ## Alignment (R314, R316) -/

theorem frameBad_confirm {h : Nat} {s : State} (ha : rxActive (port s h) = true) (hal : (port s h).align = 1) : frameBad h s =
    updPort h (fun x => { x with align := 0, good := 0, cand := x.cand + 1 }) s := by
  simp [frameBad, ha, hal, updPort]

/-- A bad frame in LOCKED: counted, and one more in the run (R314). -/
def frameMissed (h : Nat) (s : State) : State :=
  inc (Reg.HLK_RX_CRC_CNT h) 1 (updPort h (fun x => { x with bad := x.bad + 1, rxScr := scrAdvance 480 x.rxScr }) s)

/-- The fourth in a row: LOCKED is lost, counted (R314). -/
def lockLost (h : Nat) (s : State) : State :=
  inc (Reg.HLK_LOCK_LOSS_CNT h) 1 (updPort h (fun y => { y with align := 0, bad := 0, descr := false }) (frameMissed h s))

theorem frameBad_locked {h : Nat} {s : State} (ha : rxActive (port s h) = true) (hal : (port s h).align = 2) : frameBad h s =
    if (port s h).bad + 1 = 4 then (if (port s h).link = .up then retrain h 2 (lockLost h s) else lockLost h s)
    else frameMissed h s := by
  simp [frameBad, ha, hal, frameMissed, lockLost, updPort]

theorem frameMissed_port (h : Nat) (s : State) : port (frameMissed h s) h =
    { port s h with bad := (port s h).bad + 1, rxScr := scrAdvance 480 (port s h).rxScr } :=
  (port_congr (inc_ports _ _ _) h).trans (port_updPort_self _ _ _)

theorem lockLost_port (h : Nat) (s : State) : port (lockLost h s) h =
    { port s h with align := 0, bad := 0, descr := false, rxScr := scrAdvance 480 (port s h).rxScr } := by
  rw [lockLost, port_congr (inc_ports _ _ _), port_updPort_self, frameMissed_port]

theorem lockLost_counts (h : Nat) (s : State) : rn (lockLost h s) (Reg.HLK_LOCK_LOSS_CNT h) =
    min 0xFFFFFFFF (rn s (Reg.HLK_LOCK_LOSS_CNT h) + 1) := by
  have hne : Reg.HLK_LOCK_LOSS_CNT h ≠ Reg.HLK_RX_CRC_CNT h := by
    simp only [Reg.HLK_LOCK_LOSS_CNT, Reg.HLK_RX_CRC_CNT]
    omega
  rw [lockLost, rn_inc_self]
  exact congrArg (fun n => min 0xFFFFFFFF (n + 1)) (rn_inc_ne (s := updPort h _ s) 1 hne)

/-- A lane that loses LOCKED searches again, and a port that is UP retrains. -/
theorem frameBad_loses {h : Nat} {s : State} (ha : rxActive (port s h) = true) (hal : (port s h).align = 2)
    (hb : (port s h).bad + 1 = 4) : let t := frameBad h s
      (port t h).align = 0 ∧ (port t h).descr = false ∧
        rn t (Reg.HLK_LOCK_LOSS_CNT h) = min 0xFFFFFFFF (rn s (Reg.HLK_LOCK_LOSS_CNT h) + 1) ∧
        ((port s h).link = .up → (port t h).link = .retraining) := by
  have hp := lockLost_port h s
  rw [frameBad_locked ha hal, if_pos hb]
  split_ifs with hl
  · obtain ⟨hlink, halign, hdescr, -, -, -, hregs⟩ := retrain_up_trained (h := h) (s := lockLost h s) (by rw [hp]; exact hl) 2
    have hne : Reg.HLK_LOCK_LOSS_CNT h ≠ Reg.HLK_RETRAIN_CNT h := by
      simp only [Reg.HLK_LOCK_LOSS_CNT, Reg.HLK_RETRAIN_CNT]
      omega
    exact ⟨halign, hdescr, by rw [rn_congr (hregs _ (by simp)), rn_inc_ne _ _ hne, lockLost_counts], fun _ => hlink⟩
  · exact ⟨by rw [hp], by rw [hp], lockLost_counts h s, fun h => absurd h hl⟩

theorem rxSync_locked {h : Nat} {scr : BitVec 23} {s : State} (ha : rxActive (port s h) = true) (hal : (port s h).align = 2) :
    rxSync h scr s =
      if (port s h).descr = true ∧ scrAdvance 480 (port s h).rxScr ≠ scr.toNat then
        inc (Reg.HLK_DESYNC_CNT h) 1 (updPort h (fun y => { y with rxScr := scr.toNat, descr := true }) (rxGood h s))
      else updPort h (fun y => { y with rxScr := scr.toNat, descr := true }) (rxGood h s) := by
  simp [rxSync, ha, hal, rxGood_port]

/-- Settles O44: each frame and message by what it leaves of its port. -/
theorem headLinkReceives : Obligations.HeadLinkReceives := by
  refine ⟨?forward, ?status, ?temp, ?fault, ?ack, ?sync, ?bad, ?marker, ?good⟩
  case forward =>
    intro h s ha x b
    have hl : x.link = .training ∨ x.link = .up ∨ x.link = .retraining := by simpa [rxActive] using ha
    have e : forwardFrame h.val s = emit (.frame h.val b.1) (updPort h.val (fun _ => x.sent (nextFrame x) b.2) s) := if_pos hl
    refine next_at (execHlkForwardFrame_keeps h s) (by decide) (congrArg Host.Outcome.next e) ⟨rfl, ?_, fun g hg => ?_⟩
    · exact (port_updPort_self h.val (fun _ => x.sent (nextFrame x) b.2) s :)
    · exact (port_updPort_ne (fun _ => x.sent (nextFrame x) b.2) s hg :)
  case status =>
    intro h pg ready lock descr crc miss v s hd
    have hd' : delivers (advanceTo v.toNat s) h.val = true := (delivers_advance _ _ _).trans hd
    have hg : port (rxGood h.val (advanceTo v.toNat s)) h.val =
        { port s h.val with bad := 0, rxScr := scrAdvance 480 (port s h.val).rxScr } := by rw [rxGood_port, port_advance]
    obtain ⟨hstat, hstale, hready, hup, hstays, hretrains, hpower⟩ :=
      rxStatus_taken pg ready (lock = 3#2 && descr = 3#2) crc.isLt miss.isLt (h := h.val) (s := rxGood h.val (advanceTo v.toNat s))
        (by rw [hg]; exact delivers_link hd)
    rw [hg] at hup hstays hretrains hpower
    have hgood : lock = 3#2 → descr = 3#2 → (decide (lock = 3#2) && decide (descr = 3#2)) = true := fun a b => by simp [a, b]
    refine next_at (execHlkRxStatus_keeps h pg ready lock descr crc miss v s) (by decide)
      (congrArg Host.Outcome.next (message_delivered hd' _)) ⟨hstat, hstale, hready, fun a b => hup (hgood a b),
        fun a b => hstays (hgood a b), fun a => hretrains ?_, fun a b c d e => hpower a b c (hgood d e)⟩
    simpa [← not_and_or] using a
  case temp =>
    intro h temps valid s hd
    obtain ⟨armed, hp⟩ := rxTemp_port h.val temps.toNat valid.toNat (rxGood h.val s)
    refine next_at (execHlkRxTemp_keeps h temps valid s) (by decide) (congrArg Host.Outcome.next (message_delivered hd _)) ?_
    rw [hp, rxGood_port]
    refine ⟨rfl, List.map_congr_left fun i _ => ?_, rfl⟩
    rw [BitVec.getLsbD, Nat.testBit_eq_decide_div_mod_eq]
  case fault =>
    intro h code r detail s hd
    refine next_at (execHlkRxFault_keeps h code r detail s) (by decide) (congrArg Host.Outcome.next (message_delivered hd _))
      ⟨?_, raiseIrq_raw (by decide) _⟩
    rw [rxFault, rn_congr (rd_raiseIrq _ _ _ _), rn_congr (rd_event (by simp)), rn_wn_self]
    omega
  case ack =>
    intro h bank good s hd b
    have hg := rxGood_port h.val s
    refine next_at (execHlkRxAck_keeps h bank good s) (by decide) (congrArg Host.Outcome.next (message_delivered hd _)) ⟨?_, ?_, ?_⟩
    · rintro rfl hne
      rw [rxAck_good, if_neg (by rw [hg]; exact hne), port_updPort_self, hg]
      exact ⟨rfl, rfl⟩
    · rintro rfl he
      rw [rxAck_good, if_pos (by rw [hg]; exact he), hg]
      exact ⟨rfl, rfl⟩
    · rintro rfl
      rw [rxAck_bad, port_updPort_self, hg]
      rfl
  case sync =>
    intro h scr s ha hal
    have hp : port (updPort h.val (fun y => { y with rxScr := scr.toNat, descr := true }) (rxGood h.val s)) h.val =
        { port s h.val with bad := 0, rxScr := scr.toNat, descr := true } := by rw [port_updPort_self, rxGood_port]
    refine next_at (execHlkRxSync_keeps h scr s) (by decide) (congrArg Host.Outcome.next (rxSync_locked ha hal)) ?_
    split_ifs
    · exact ⟨(port_congr (inc_ports _ _ _) _).trans hp, rn_inc_self _ _ _⟩
    · exact ⟨hp, rfl⟩
  case bad =>
    intro h s ha
    refine ⟨fun hal => ?_, fun hal hb => ?_, fun hal hb => ?_⟩
    · refine ⟨_, congrArg Host.Outcome.next (frameBad_confirm ha hal), port_updPort_self _ _ _, ?_⟩
      exact (updPort_keeps h.val _ s (by decide) (Keeps.refl [.ports] s)).only
    · have e : frameBad h.val s = frameMissed h.val s := by rw [frameBad_locked ha hal, if_neg hb]
      refine ⟨_, congrArg Host.Outcome.next e, ⟨?_, ?_, rn_inc_self _ _ _⟩, ?_⟩
      · rw [frameMissed_port]
      · rw [frameMissed_port]
        exact hal
      · exact (inc_keeps _ _ _ (by simp) (updPort_keeps h.val _ s (by decide) (Keeps.refl [.ports, .reg .hlk] s))).only
    · exact next_at (execHlkRxFrameBad_keeps h s) (by decide) rfl (frameBad_loses ha hal hb)
  case marker =>
    intro h ofs s ha hal
    have e : markerFound h.val ofs.toNat s = updPort h.val (fun x => { x with align := 1, cand := ofs.toNat, good := 0 }) s := by
      simp [markerFound, ha, hal, updPort]
    exact next_at (execHlkRxMarkerFound_keeps h ofs s) (by decide) (congrArg Host.Outcome.next e) (port_updPort_self _ _ _)
  case good =>
    intro h s ha hal
    have e : frameGood h.val s = updPort h.val (fun x => { x with
        good := x.good + 1, align := if x.good + 1 = 4 then 2 else 1, bad := 0 }) s := by
      simp [frameGood, ha, hal, updPort]
    refine next_at (execHlkRxFrameGood_keeps h s) (by decide) (congrArg Host.Outcome.next e) ?_
    rw [port_updPort_self]
    exact ⟨rfl, rfl⟩

end Sys2Proof.Machine
end

section
/-! SUPPORT. The proofs of what encoder samples and indexes leave of their channel (O46). -/

namespace Sys2Proof.Machine
open Sys2Proof

/-! ## What a sample's checks touch (R330, R332, R337) -/

/-- A channel as the checks of a sample may leave it: its velocity, direction, amplitude and extremes those of another. -/
def PifCh.checked (x y : PifCh) : PifCh :=
  { x with vel := y.vel, hist := y.hist, dir := y.dir, extreme := y.extreme, missed := y.missed, ampRun := y.ampRun, ampBad := y.ampBad,
           overBad := y.overBad, minA := y.minA, minS := y.minS, maxS := y.maxS, minC := y.minC, maxC := y.maxC }

/-- An operation checks a channel: it touches no other, no pacing register, and a fault once latched stays (R332, R333). -/
structure Checked (c : Nat) (s t : State) : Prop where
  own : ∃ y, pif t c = (pif s c).checked y
  others : ∀ g, g ≠ c → pif t g = pif s g
  pacing : ∀ k, keyKind k = .klnC → rd t k = rd s k
  sticks : ∀ n, rbit s (Reg.PIF_C_STAT c) n = true → rbit t (Reg.PIF_C_STAT c) n = true

theorem Checked.of_pif {c : Nat} {s t : State} (hp : ∀ g, pif t g = pif s g) (hr : ∀ k, keyKind k = .klnC → rd t k = rd s k)
    (hs : ∀ n, rbit s (Reg.PIF_C_STAT c) n = true → rbit t (Reg.PIF_C_STAT c) n = true) : Checked c s t :=
  ⟨⟨pif s c, hp c⟩, fun g _ => hp g, hr, hs⟩

theorem Checked.refl (c : Nat) (s : State) : Checked c s s := .of_pif (fun _ => rfl) (fun _ _ => rfl) fun _ h => h

theorem Checked.trans {c : Nat} {s t u : State} (a : Checked c s t) (b : Checked c t u) : Checked c s u := by
  obtain ⟨⟨y, hy⟩, ao, ar, af⟩ := a
  obtain ⟨⟨z, hz⟩, bo, br, bf⟩ := b
  exact ⟨⟨z, by rw [hz, hy]; rfl⟩, fun g hg => (bo g hg).trans (ao g hg), fun k hk => (br k hk).trans (ar k hk),
    fun n hn => bf n (af n hn)⟩

theorem pif_congr {s t : State} (h : t.pif = s.pif) (c : Nat) : pif t c = pif s c := congrArg (fun m => tget m PifCh.init c) h

theorem Checked.of_keeps {ps : List Part} {c : Nat} {s t : State} (k : Keeps ps s t) (hp : Part.pif ∉ ps) (hr : Part.reg .pifCh ∉ ps)
    (hk : Part.reg .klnC ∉ ps) : Checked c s t :=
  .of_pif (pif_congr (k.only .pif hp)) (fun _ e => k.rd (by rw [e]; exact hk)) fun n hn => by
    rw [rbit_congr (k.rd (by simpa using hr)) n]
    exact hn

/-- A change of the checked fields alone. -/
theorem Checked.upd (c : Nat) (f : PifCh → PifCh) (hf : ∀ x, f x = x.checked (f x)) (s : State) : Checked c s (updPif c f s) :=
  ⟨⟨f (pif s c), by rw [pif_updPif_self, ← hf]⟩, fun _ hg => pif_updPif_ne f s hg, fun _ _ => rfl, fun _ h => h⟩

/-- A register of the channel other than its status. -/
theorem Checked.wn {c k : Nat} (v : Nat) (s : State) (hk : keyKind k ≠ .klnC) (hne : Reg.PIF_C_STAT c ≠ k) :
    Checked c s (wn k v s) :=
  .of_pif (fun _ => rfl) (fun j hj => rd_wr_ne _ s fun e => hk (e ▸ hj)) fun n hn => by
    rw [rbit, rn_wn_ne v s hne]
    exact hn

theorem Checked.raised (c n b code : Nat) (ten : Option Nat) (pl : List Byte) (s : State) :
    Checked c s (raiseIrq n b (event code ten pl s)) :=
  .of_pif (pif_congr ((raised_keeps s).only .pif (by simp)))
    (fun k hk => by rw [rd_raiseIrq, rd_event (by rw [hk]; decide)])
    fun m hm => by
      rw [rbit_congr (rd_raiseIrq n b _ _), rbit_congr (rd_event (by simp))]
      exact hm

/-- A status bit that is set. -/
theorem rbit_set (k bit : Nat) (s : State) (hb : bit < 32) (n : Nat) :
    rbit (wf k bit bit 1 s) k n = (decide (n = bit) || rbit s k n) := by
  by_cases h : n = bit
  · subst h
    rw [rbit_wf_self k n 1 s hb, decide_eq_true rfl, decide_eq_true rfl, Bool.true_or]
  · rw [rbit_wf_other k 1 s ⟨le_rfl, hb⟩ (by omega), decide_eq_false h, Bool.false_or]

theorem Checked.latch (c bit : Nat) (s : State) (hb : bit < 32) : Checked c s (wf (Reg.PIF_C_STAT c) bit bit 1 s) :=
  .of_pif (fun _ => rfl) (fun k hk => rd_wf_ne _ _ _ s (ne_of_keyKind (by simp [hk]))) fun n hn => by
    rw [rbit_set _ _ _ hb, hn, Bool.or_true]

theorem encoderBad_checked (c d : Nat) (s : State) : Checked c s (encoderBad d s) :=
  .of_keeps (encoderBad_keeps d s (fun _ q => q) (Keeps.refl _ s)) (by decide) (by decide) (by decide)

theorem pifLatch_checked (c bit code : Nat) (pl : List Byte) (s : State) (hb : bit < 32) : Checked c s (pifLatch c bit code pl s) := by
  unfold pifLatch
  split_ifs
  · exact .refl c s
  · exact ((Checked.latch c bit s hb).trans (encoderBad_checked c c _)).trans (Checked.raised _ _ _ _ _ _ _)

/-- The fault stands latched (R332). -/
theorem pifLatch_latched (c bit code : Nat) (pl : List Byte) (s : State) (hb : bit < 32) :
    rbit (pifLatch c bit code pl s) (Reg.PIF_C_STAT c) bit = true := by
  unfold pifLatch
  split_ifs with h
  · exact h
  · refine ((encoderBad_checked c c _).trans (Checked.raised _ _ _ _ _ _ _)).sticks bit ?_
    rw [rbit_set _ _ _ hb, decide_eq_true rfl, Bool.true_or]

theorem pifDirection_checked (c : Nat) (s : State) : Checked c s (pifDirection c s) := by
  unfold pifDirection
  extract_lets x hyst away s1
  split
  · exact ((Checked.upd c _ (fun _ => rfl) s).trans (Checked.latch c 2 _ (by decide))).trans (Checked.raised _ _ _ _ _ _ _)
  · split
    · exact Checked.upd c _ (fun _ => rfl) s
    · exact .refl c s

theorem pifVelocity_checked (c : Nat) (s : State) : Checked c s (pifVelocity c s) := by
  unfold pifVelocity
  exact Checked.upd c _ (fun _ => rfl) s

theorem Checked.foldl {α : Type} {c : Nat} {g : State → α → State} (hg : ∀ t x, Checked c t (g t x)) (l : List α) (s : State) :
    Checked c s (l.foldl g s) := by
  induction l generalizing s with
  | nil => exact .refl c s
  | cons x l ih => exact (hg s x).trans (ih _)

theorem pifMissing_checked (c : Nat) (s : State) : Checked c s (pifMissing c s) := by
  unfold pifMissing
  extract_lets x p
  split
  · split_ifs
    · exact .refl c s
    · refine Checked.foldl (fun t _ => ?_) _ s
      refine ((Checked.upd c _ (fun _ => rfl) t).trans (Checked.wn _ _ ?_ ?_)).trans (Checked.raised _ _ _ _ _ _ _)
      · simp
      · simp only [Reg.PIF_C_STAT, Reg.PIF_C_MISSING_CNT]
        omega
  · exact .refl c s

theorem pifFollow_checked (c d : Nat) (s : State) : Checked c s (pifFollow d s) :=
  .of_keeps (pifFollow_keeps d s (fun _ q => q) (Keeps.refl _ s)) (by decide) (by decide) (by decide)

theorem pifAmplitude_checked (c a : Nat) (s : State) : Checked c s (pifAmplitude c a s) := by
  have hne1 : Reg.PIF_C_STAT c ≠ Reg.PIF_C_AMPL c := by
    simp only [Reg.PIF_C_STAT, Reg.PIF_C_AMPL]
    omega
  have hne2 : Reg.PIF_C_STAT c ≠ Reg.PIF_C_AMP_CNT c := by
    simp only [Reg.PIF_C_STAT, Reg.PIF_C_AMP_CNT]
    omega
  unfold pifAmplitude
  extract_lets lo s1 s2
  have h1 : Checked c s s1 := (Checked.upd c _ (fun _ => rfl) s).trans (Checked.wn _ _ (by simp) hne1)
  have h2 : Checked c s s2 := (h1.trans (Checked.upd c _ (fun _ => rfl) s1)).trans (Checked.wn _ _ (by simp) hne2)
  split_ifs
  · exact (h2.trans (Checked.upd c _ (fun _ => rfl) s2)).trans (pifLatch_checked c 3 _ _ _ (by decide))
  · exact h2
  · exact h1.trans (Checked.upd c _ (fun _ => rfl) s1)

theorem pifExtremes_checked (c : Nat) (sn cs : Int) (s : State) : Checked c s (pifExtremes c sn cs s) := by
  have hne1 : Reg.PIF_C_STAT c ≠ Reg.PIF_C_MINMAX_S c := by
    simp only [Reg.PIF_C_STAT, Reg.PIF_C_MINMAX_S]
    omega
  have hne2 : Reg.PIF_C_STAT c ≠ Reg.PIF_C_MINMAX_C c := by
    simp only [Reg.PIF_C_STAT, Reg.PIF_C_MINMAX_C]
    omega
  unfold pifExtremes
  extract_lets x mn mx y word
  have hu : Checked c s (updPif c (fun _ => y) s) :=
    ⟨⟨y, by rw [pif_updPif_self]; rfl⟩, fun _ hg => pif_updPif_ne _ s hg, fun _ _ => rfl, fun _ h => h⟩
  exact (hu.trans (Checked.wn _ _ (by simp) hne1)).trans (Checked.wn _ _ (by simp) hne2)

/-! ## A sample's movement (R328, R329, R286) -/

/-- No plane is paced from the channel (R286). -/
def NotPacing (c : Nat) (s : State) : Prop := ∀ k < 4, ¬(pcSrc s k = 4 ∧ pcSub s k = c)

theorem NotPacing.of_pacing {c : Nat} {s t : State} (h : NotPacing c s) (hr : ∀ k, keyKind k = .klnC → rd t k = rd s k) : NotPacing c t := by
  intro k hk
  have e := hr (Reg.KLN_PC_CFG k) (keyKind_KLN_PC_CFG k)
  rw [pcSrc, pcSub, rf_congr e, rf_congr e]
  exact h k hk

theorem pifSteps_notPacing {c : Nat} {s : State} (h : NotPacing c s) (t : Nat) (d : Int) : pifSteps c t d s = s := by
  unfold pifSteps
  split_ifs
  · rfl
  · have hall : ∀ k ∈ List.range 4, ¬(pcSrc s k = 4 ∧ pcSub s k = c) := fun k hk => h k (List.mem_range.mp hk)
    generalize List.range 4 = l at hall
    induction l with
    | nil => rfl
    | cons k l ih =>
      rw [List.foldl_cons, if_neg (hall k List.mem_cons_self)]
      exact ih fun j hj => hall j (List.mem_cons_of_mem k hj)

/-- The channel's position moves by d counts at instant t. -/
def moved (c t : Nat) (d : Int) (s : State) : State :=
  updPif c (fun g => { g with prevTs := g.ts, prevPos := g.pos, ts := t, pos := posAdd g.pos d }) s

theorem pifMove_checked {c : Nat} {s : State} (h : NotPacing c s) (t : Nat) (d : Int) : Checked c (moved c t d s) (pifMove c t d s) := by
  have hc : Checked c (moved c t d s) (pifFollow c (pifMissing c (pifDirection c (pifVelocity c (moved c t d s))))) :=
    (((pifVelocity_checked c _).trans (pifDirection_checked c _)).trans (pifMissing_checked c _)).trans (pifFollow_checked c c _)
  have e : pifMove c t d s = pifFollow c (pifMissing c (pifDirection c (pifVelocity c (moved c t d s)))) :=
    pifSteps_notPacing (NotPacing.of_pacing h hc.pacing) t d
  rw [e]
  exact hc

/-- A sample at instant t has moved the position by d counts: what of the channel it sets, what it leaves, and no other channel. -/
structure SampleMoved (c t : Nat) (d : Int) (s u : State) : Prop where
  pos : (pif u c).pos = posAdd (pif s c).pos d
  ts : (pif u c).ts = t
  prevPos : (pif u c).prevPos = (pif s c).pos
  prevTs : (pif u c).prevTs = (pif s c).ts
  a : (pif u c).a = (pif s c).a
  b : (pif u c).b = (pif s c).b
  ang : (pif u c).ang = (pif s c).ang
  others : ∀ g, g ≠ c → pif u g = pif s g

/-- Checks before the move touch nothing of what it is about. -/
theorem pifMove_after_checks {c : Nat} {s u : State} (hn : NotPacing c s) (hc : Checked c s u) (t : Nat) (d : Int) :
    SampleMoved c t d s (pifMove c t d u) := by
  obtain ⟨⟨y, hy⟩, co, cr, -⟩ := hc
  obtain ⟨⟨z, hz⟩, mo, -, -⟩ := pifMove_checked (hn.of_pacing cr) t d
  have hself : pif (moved c t d u) c =
      { (pif s c).checked y with
        prevTs := (pif s c).ts, prevPos := (pif s c).pos, ts := t, pos := posAdd (pif s c).pos d } := by
    rw [moved, pif_updPif_self, hy]
    rfl
  rw [hself] at hz
  exact ⟨by rw [hz]; rfl, by rw [hz]; rfl, by rw [hz]; rfl, by rw [hz]; rfl, by rw [hz]; rfl, by rw [hz]; rfl, by rw [hz]; rfl,
    fun g hg => (mo g hg).trans ((pif_updPif_ne _ u hg).trans (co g hg))⟩

/-- A move keeps the faults the checks before it latched. -/
theorem pifMove_sticks {c : Nat} {s u : State} (hn : NotPacing c s) (hc : Checked c s u) (t : Nat) (d : Int) (n : Nat)
    (h : rbit u (Reg.PIF_C_STAT c) n = true) : rbit (pifMove c t d u) (Reg.PIF_C_STAT c) n = true :=
  (pifMove_checked (hn.of_pacing hc.pacing) t d).sticks n h

theorem pif_advance (t : Nat) (s : State) (c : Nat) : pif (advanceTo t s) c = pif s c := pif_congr (advance_pif t s) c

theorem rbit_cfg_advance (t : Nat) (s : State) (c n : Nat) : rbit (advanceTo t s) (Reg.PIF_C_CFG c) n = rbit s (Reg.PIF_C_CFG c) n :=
  rbit_congr (advance_rd t s (by simp)) n

theorem NotPacing.advance {c : Nat} {s : State} (h : NotPacing c s) (t : Nat) : NotPacing c (advanceTo t s) :=
  h.of_pacing fun _ hk => advance_rd t s (by simp [hk])

/-! ### SQUARE samples -/

/-- The qualified levels a SQUARE sample leaves. -/
def levelled (c t : Nat) (a b : Bool) (s : State) : State :=
  updPif c (fun g => { g with a := (pif s c).a.sample a, b := (pif s c).b.sample b }) (advanceTo t s)

theorem levelled_pif (c t : Nat) (a b : Bool) (s : State) :
    pif (levelled c t a b s) c = { pif s c with a := (pif s c).a.sample a, b := (pif s c).b.sample b } := by
  rw [levelled, pif_updPif_self, pif_advance]

theorem levelled_others {c g : Nat} (hg : g ≠ c) (t : Nat) (a b : Bool) (s : State) : pif (levelled c t a b s) g = pif s g := by
  rw [levelled, pif_updPif_ne _ _ hg, pif_advance]

/-- Both levels of a SQUARE sample change (R329). -/
def bothChange (x : PifCh) (a b : Bool) : Bool :=
  decide ((x.a.sample a).level ≠ x.a.level) && decide ((x.b.sample b).level ≠ x.b.level)

/-- The counts a SQUARE sample moves by, forward (R329). -/
def squareTurn (x : PifCh) (a b : Bool) : Int :=
  let turn := (quadPlace (x.a.sample a).level (x.b.sample b).level - quadPlace x.a.level x.b.level) % 4
  if bothChange x a b then 0 else if turn = 1 then 1024 else if turn = 3 then -1024 else 0

theorem squareSample_disabled {c t : Nat} {a b : Bool} {s : State} (hm : rbit s (Reg.PIF_C_CFG c) 0 = true)
    (he : (pif s c).enabled = false) : squareSample c t a b s = levelled c t a b s := by
  unfold squareSample
  simp only [pif_advance, hm, he]
  rfl

/-- Both levels changing at once is a fault (R332). -/
def squareJudged (c t : Nat) (a b : Bool) (s : State) : State :=
  if bothChange (pif s c) a b then pifLatch c 5 0x5007 (le 8 (pif s c).pos) (levelled c t a b s) else levelled c t a b s

theorem squareJudged_checked (c t : Nat) (a b : Bool) (s : State) : Checked c (levelled c t a b s) (squareJudged c t a b s) := by
  unfold squareJudged
  split_ifs
  · exact pifLatch_checked c 5 _ _ _ (by decide)
  · exact .refl c _

theorem squareJudged_both {c t : Nat} {a b : Bool} {s : State} (h : bothChange (pif s c) a b = true) :
    rbit (squareJudged c t a b s) (Reg.PIF_C_STAT c) 5 = true := by
  rw [squareJudged, if_pos h]
  exact pifLatch_latched c 5 _ _ _ (by decide)

/-- The counts a SQUARE sample moves by, in the channel's sense. -/
def squareMove (c : Nat) (a b : Bool) (s : State) : Int :=
  if rbit s (Reg.PIF_C_CFG c) 1 then -squareTurn (pif s c) a b else squareTurn (pif s c) a b

theorem squareSample_enabled {c t : Nat} {a b : Bool} {s : State} (hm : rbit s (Reg.PIF_C_CFG c) 0 = true)
    (he : (pif s c).enabled = true) : squareSample c t a b s =
      pifMove c t (squareMove c a b s) (squareJudged c t a b s) := by
  have hr : rbit (levelled c t a b s) (Reg.PIF_C_CFG c) 1 = rbit s (Reg.PIF_C_CFG c) 1 := rbit_cfg_advance t s c 1
  unfold squareSample squareMove
  rw [← hr]
  simp only [pif_advance, hm, he]
  rfl

/-! ### ANALOG samples -/

@[simp] theorem keyKind_PIF_C_OFS (i : Nat) : keyKind (Reg.PIF_C_OFS i) = .pifCh := keyKind_pifCh 0x04C i (by decide)
@[simp] theorem keyKind_PIF_C_TRIM (i : Nat) : keyKind (Reg.PIF_C_TRIM i) = .pifCh := keyKind_pifCh 0x050 i (by decide)

/-- A free value is within its bounds. -/
theorem drawIn_within {lo hi : Int} (h : lo ≤ hi) (s : State) : lo ≤ (drawIn lo hi s).1 ∧ (drawIn lo hi s).1 ≤ hi := by
  unfold drawIn
  dsimp only
  split_ifs with he
  · omega
  · have h0 := Int.emod_nonneg ((draw 64 s).1.toNat : Int) (show hi - lo + 1 ≠ 0 by omega)
    have h1 := Int.emod_lt_of_pos ((draw 64 s).1.toNat : Int) (show 0 < hi - lo + 1 by omega)
    omega

/-- The angle is within one count of the exact one, where there is one (R328). -/
theorem channelAngle_near {w k : Int} {a : Nat} (ha : atan4096 w k = some a) (s : State) :
    ∃ e : Int, -1 ≤ e ∧ e ≤ 1 ∧ (channelAngle w k s).1 = unsigned 12 ((a : Int) + e) := by
  obtain ⟨hl, hh⟩ := drawIn_within (lo := -1) (hi := 1) (by decide) s
  exact ⟨(drawIn (-1) 1 s).1, hl, hh, by rw [channelAngle, ha]⟩

/-- Sine and cosine as R328 corrects them. -/
def correctedCos (c : Nat) (cs : Int) (s : State) : Int :=
  divF ((cs - signed 16 (rf s (Reg.PIF_C_OFS c) 31 16)) * rf s (Reg.PIF_C_TRIM c) 15 0 + 8192) 16384

def correctedSin (c : Nat) (sn cs : Int) (s : State) : Int :=
  sn - signed 16 (rf s (Reg.PIF_C_OFS c) 15 0) - divF (correctedCos c cs s * signed 16 (rf s (Reg.PIF_C_TRIM c) 31 16) + 16384) 32768

/-- The angle a sample takes. -/
def takenAngle (c t : Nat) (sn cs : Int) (s : State) : Nat × State :=
  channelAngle (correctedSin c sn cs s) (correctedCos c cs s) (advanceTo t s)

def angled (c t : Nat) (sn cs : Int) (s : State) : State :=
  updPif c (fun g => { g with ang := (takenAngle c t sn cs s).1 }) (takenAngle c t sn cs s).2

theorem takenAngle_keeps (c t : Nat) (sn cs : Int) (s : State) :
    Keeps [.free] (advanceTo t s) (takenAngle c t sn cs s).2 := channelAngle_keeps _ _ _ (by decide) (Keeps.refl _ _)

theorem angled_pif (c t : Nat) (sn cs : Int) (s : State) :
    pif (angled c t sn cs s) c = { pif s c with ang := (takenAngle c t sn cs s).1 } := by
  rw [angled, pif_updPif_self, pif_congr ((takenAngle_keeps c t sn cs s).only .pif (by decide)), pif_advance]

theorem angled_others {c g : Nat} (hg : g ≠ c) (t : Nat) (sn cs : Int) (s : State) : pif (angled c t sn cs s) g = pif s g := by
  rw [angled, pif_updPif_ne _ _ hg, pif_congr ((takenAngle_keeps c t sn cs s).only .pif (by decide)), pif_advance]

/-- The counts a sample moves by, in the channel's sense (R328). -/
def angleTurn (c t : Nat) (sn cs : Int) (s : State) : Int :=
  let d0 : Int := (((takenAngle c t sn cs s).1 : Int) - (pif s c).ang + 2048) % 4096 - 2048
  if rbit s (Reg.PIF_C_CFG c) 1 then -d0 else d0

theorem angleTurn_natAbs (c t : Nat) (sn cs : Int) (s : State) : (angleTurn c t sn cs s).natAbs =
    ((((takenAngle c t sn cs s).1 : Int) - (pif s c).ang + 2048) % 4096 - 2048).natAbs := by
  unfold angleTurn
  split_ifs
  · exact Int.natAbs_neg _
  · rfl

theorem NotPacing.angled {c : Nat} {s : State} (h : NotPacing c s) (t : Nat) (sn cs : Int) : NotPacing c (angled c t sn cs s) :=
  (h.advance t).of_pacing fun k _ => (takenAngle_keeps c t sn cs s).rd (by simp)

theorem rf_pifCh_advance (t : Nat) (s : State) {k : Nat} (hk : keyKind k = .pifCh) (a b : Nat) :
    rf (advanceTo t s) k a b = rf s k a b := rf_congr (advance_rd t s (by simp [hk])) a b

/-- The amplitude and extremes of a sample are noted, and whether it turned too far (R331, R332). -/
def angleNoted (c t : Nat) (sn cs : Int) (s : State) : State :=
  let k := correctedCos c cs s
  let w := correctedSin c sn cs s
  updPif c (fun g => { g with overBad := decide (1024 < (angleTurn c t sn cs s).natAbs) })
    (pifAmplitude c (isqrt (w * w + k * k).natAbs) (pifExtremes c sn cs (angled c t sn cs s)))

theorem angleNoted_checked (c t : Nat) (sn cs : Int) (s : State) : Checked c (angled c t sn cs s) (angleNoted c t sn cs s) := by
  unfold angleNoted
  exact ((pifExtremes_checked c sn cs _).trans (pifAmplitude_checked c _ _)).trans (Checked.upd c _ (fun _ => rfl) _)

/-- A sample that turned too far latches its fault (R332). -/
def angleJudged (c t : Nat) (sn cs : Int) (s : State) : State :=
  if decide (1024 < (angleTurn c t sn cs s).natAbs) then
    pifLatch c 4 0x5006 (le 4 (unsigned 32 (angleTurn c t sn cs s))) (angleNoted c t sn cs s)
  else angleNoted c t sn cs s

theorem angleJudged_checked (c t : Nat) (sn cs : Int) (s : State) : Checked c (angled c t sn cs s) (angleJudged c t sn cs s) := by
  unfold angleJudged
  split_ifs
  · exact (angleNoted_checked c t sn cs s).trans (pifLatch_checked c 4 _ _ _ (by decide))
  · exact angleNoted_checked c t sn cs s

theorem angleJudged_fast {c t : Nat} {sn cs : Int} {s : State} (h : 1024 < (angleTurn c t sn cs s).natAbs) :
    rbit (angleJudged c t sn cs s) (Reg.PIF_C_STAT c) 4 = true := by
  rw [angleJudged, if_pos (decide_eq_true h)]
  exact pifLatch_latched c 4 _ _ _ (by decide)

theorem angled_enabled (c t : Nat) (sn cs : Int) (s : State) : (pif (angled c t sn cs s) c).enabled = (pif s c).enabled := by
  rw [angled_pif]

theorem adcSample_eq {c t : Nat} {sn cs : Int} {s : State} (hm : rbit s (Reg.PIF_C_CFG c) 0 = false) :
    adcSample c t sn cs s = if (pif s c).enabled then pifMove c t (angleTurn c t sn cs s) (angleJudged c t sn cs s)
      else angled c t sn cs s := by
  have hofs := rf_pifCh_advance t s (keyKind_PIF_C_OFS c)
  have htrim := rf_pifCh_advance t s (keyKind_PIF_C_TRIM c)
  unfold adcSample
  simp only [hm, Bool.false_eq_true, if_false, hofs, htrim, pif_advance, rbit_cfg_advance, Bool.not_eq_eq_eq_not, Bool.not_true]
  change (if (pif (angled c t sn cs s) c).enabled = false then angled c t sn cs s
    else pifMove c t (angleTurn c t sn cs s) (angleJudged c t sn cs s)) = _
  rw [angled_enabled]
  cases (pif s c).enabled <;> rfl

/-! ## Indexes (R334) -/

theorem homingIndex_pif (c : Nat) (rising : Bool) (s : State) : (homingIndex c rising s).pif = s.pif :=
  (homingIndex_keeps c rising s (ps := [.mot]) (fun _ h => h) (Keeps.refl _ s)).only .pif (by decide)

theorem homingIndex_rd (c : Nat) (rising : Bool) (s : State) (k : Nat) : rd (homingIndex c rising s) k = rd s k :=
  (homingIndex_keeps c rising s (ps := [.mot]) (fun _ h => h) (Keeps.refl _ s)).rd (by simp)

/-- In SQUARE mode the count captured is the position (R334). -/
theorem captureCount_square {c : Nat} {s : State} (h : rbit s (Reg.PIF_C_CFG c) 0 = true) (t : Nat) :
    captureCount c t s = ((pif s c).pos, s) := by
  unfold captureCount
  exact if_pos (.inl h)

/-- An index is taken: the input enabled, the channel valid, no INDEX_FAULT, and the edge the one that counts (R333, R334). -/
structure IndexTaken (c : Nat) (rising : Bool) (s : State) : Prop where
  enabled : rbit s (Reg.PIF_C_CFG c) 2 = true
  valid : pifValid s c = true
  sound : rbit s (Reg.PIF_C_STAT c) 6 = false
  edge : rising ≠ rbit s (Reg.PIF_C_CFG c) 4
  square : rbit s (Reg.PIF_C_CFG c) 0 = true

theorem rbit_pifCh_advance (t : Nat) (s : State) {k : Nat} (hk : keyKind k = .pifCh) (n : Nat) :
    rbit (advanceTo t s) k n = rbit s k n := rbit_congr (advance_rd t s (by simp [hk])) n

theorem pifValid_advance (t : Nat) (s : State) (c : Nat) : pifValid (advanceTo t s) c = pifValid s c := by
  rw [pifValid, pifValid, pifFault, pifFault, pif_advance, rf_pifCh_advance t s (keyKind_PIF_C_STAT c)]

theorem idxPeriod_advance (t : Nat) (s : State) (c : Nat) : idxPeriod (advanceTo t s) c = idxPeriod s c := by
  rw [idxPeriod, idxPeriod, rn64, rn64, rn_congr (advance_rd t s (by simp)), rn_congr (advance_rd t s (by simp))]

/-- The first index is the reference. -/
def indexFirst (c : Nat) (x : Nat) (s : State) : State :=
  inc (Reg.PIF_C_IDX_CNT c) 1 (wn64 (Reg.PIF_C_IDX_LAST c) x (updPif c (fun g => { g with ref := some x, missed := 0 }) s))

theorem indexCapture_taken {c t : Nat} {rising : Bool} {s : State} (h : IndexTaken c rising s) :
    indexCapture c t rising s =
      match (pif s c).ref with
      | none => indexFirst c (pif s c).pos (advanceTo t s)
      | some ref =>
        if idxPeriod s c = 0 then advanceTo t s
        else
          judgeIndex c (pif s c).pos (expectedIndex ref (idxPeriod s c) (pif s c).pos (advanceTo t s)).1
            (expectedIndex ref (idxPeriod s c) (pif s c).pos (advanceTo t s)).2 := by
  obtain ⟨hen, hv, hs, hedge, hsq⟩ := h
  have hc : (!rbit s (Reg.PIF_C_CFG c) 2 || !pifValid s c || rbit s (Reg.PIF_C_STAT c) 6
      || decide (rising = rbit s (Reg.PIF_C_CFG c) 4)) = false := by
    rw [hen, hv, hs, decide_eq_false hedge]
    rfl
  have hq : captureCount c t (advanceTo t s) = ((pif s c).pos, advanceTo t s) := by
    rw [captureCount_square (by rw [rbit_cfg_advance, hsq]), pif_advance]
  unfold indexCapture
  dsimp only
  simp only [rbit_cfg_advance, pifValid_advance, rbit_pifCh_advance t s (keyKind_PIF_C_STAT c), hc, Bool.false_eq_true, if_false, hq,
    pif_advance, idxPeriod_advance]
  rfl

theorem rn64_wn64_mod (k v : Nat) (s : State) : rn64 (wn64 k v s) k = v % 2 ^ 64 := by
  rw [rn64, rn_wn64_lo, rn_wn64_hi]
  omega

theorem IDX_CNT_ne_LAST (c : Nat) : Reg.PIF_C_IDX_CNT c ≠ Reg.PIF_C_IDX_LAST c ∧ Reg.PIF_C_IDX_CNT c ≠ Reg.PIF_C_IDX_LAST c + 4 := by
  simp only [Reg.PIF_C_IDX_CNT, Reg.PIF_C_IDX_LAST]
  omega

theorem indexFirst_cnt (c x : Nat) (s : State) :
    rn (indexFirst c x s) (Reg.PIF_C_IDX_CNT c) = min 0xFFFFFFFF (rn s (Reg.PIF_C_IDX_CNT c) + 1) := by
  rw [indexFirst, rn_inc_self, rn_wn64_ne _ _ (IDX_CNT_ne_LAST c).1 (IDX_CNT_ne_LAST c).2]
  rfl

theorem indexFirst_last (c x : Nat) (s : State) : rn64 (indexFirst c x s) (Reg.PIF_C_IDX_LAST c) = x % 2 ^ 64 := by
  rw [rn64, indexFirst, rn_inc_ne _ _ (IDX_CNT_ne_LAST c).1.symm, rn_inc_ne _ _ (IDX_CNT_ne_LAST c).2.symm]
  exact rn64_wn64_mod _ _ _

theorem indexFirst_pif (c x : Nat) (s : State) : pif (indexFirst c x s) c = { pif s c with ref := some x, missed := 0 } :=
  (pif_congr rfl c).trans (pif_updPif_self (c := c) (fun g => { g with ref := some x, missed := 0 }) s)

/-! ### An index at its reference -/

theorem posSub_self (p : Nat) : posSub p p = 0 := by
  unfold posSub
  rw [Int.sub_self]
  decide

/-- A position a part of a revolution away is not at the same place. -/
theorem posSub_posAdd_ne {p : Nat} {d : Int} (h : d % 2 ^ 48 ≠ 0) : posSub p (posAdd p d) ≠ 0 := by
  unfold posSub posAdd signed unsigned
  split_ifs <;> omega

theorem expectedIndex_self {p x : Nat} (hp : 0 < p) (hlt : p < 2 ^ 48) (s : State) : expectedIndex x p x s = (x, s) := by
  have h1 : posSub x (posAdd x (-(p : Int))) ≠ 0 := posSub_posAdd_ne (by omega)
  have h2 : posSub x (posAdd x p) ≠ 0 := posSub_posAdd_ne (by omega)
  unfold expectedIndex
  simp [posSub_self, List.filter, h1, h2]

/-- An index exactly at its expected count is noted as last, with no error. -/
def indexNoted (c x : Nat) (s : State) : State :=
  wf (Reg.PIF_C_IDX_ERR c) 15 0 0 (wn64 (Reg.PIF_C_IDX_LAST c) x (updPif c (fun g => { g with ref := some x, missed := 0 }) s))

theorem indexNoted_pif (c x : Nat) (s : State) : pif (indexNoted c x s) c = { pif s c with ref := some x, missed := 0 } :=
  (pif_congr rfl c).trans (pif_updPif_self (c := c) (fun g => { g with ref := some x, missed := 0 }) s)

/-- An index that agrees and is not corrected (R334 step 2). -/
theorem judgeIndex_agrees {c x : Nat} {s : State} (h : rbit s (Reg.PIF_C_CFG c) 3 = false) :
    judgeIndex c x x s = inc (Reg.PIF_C_IDX_CNT c) 1 (updPif c (fun g => { g with run := 0 }) (indexNoted c x s)) := by
  have he : (posSub x x).natAbs = 0 := by rw [posSub_self]; rfl
  have hc : ∀ g v w, rbit (inc (Reg.PIF_C_IDX_CNT c) 1 (updPif c g (wf (Reg.PIF_C_IDX_ERR c) 15 0 v
      (wn64 (Reg.PIF_C_IDX_LAST c) x w)))) (Reg.PIF_C_CFG c) 3 = rbit w (Reg.PIF_C_CFG c) 3 := fun g v w => by
    have h1 : Reg.PIF_C_CFG c ≠ Reg.PIF_C_IDX_CNT c ∧ Reg.PIF_C_CFG c ≠ Reg.PIF_C_IDX_ERR c ∧
        Reg.PIF_C_CFG c ≠ Reg.PIF_C_IDX_LAST c ∧ Reg.PIF_C_CFG c ≠ Reg.PIF_C_IDX_LAST c + 4 := by
      simp only [Reg.PIF_C_CFG, Reg.PIF_C_IDX_CNT, Reg.PIF_C_IDX_ERR, Reg.PIF_C_IDX_LAST]
      omega
    obtain ⟨n1, n2, n3, n4⟩ := h1
    have hr : rn (inc (Reg.PIF_C_IDX_CNT c) 1 (updPif c g (wf (Reg.PIF_C_IDX_ERR c) 15 0 v
        (wn64 (Reg.PIF_C_IDX_LAST c) x w)))) (Reg.PIF_C_CFG c) = rn w (Reg.PIF_C_CFG c) :=
      (rn_inc_ne _ _ n1).trans ((rn_wf_ne _ _ _ _ n2).trans (rn_wn64_ne _ _ n3 n4))
    rw [rbit, hr, rbit]
  unfold judgeIndex
  dsimp only
  rw [he, if_pos (Nat.zero_le _), hc, if_neg (by rw [show rbit (updPif c _ s) (Reg.PIF_C_CFG c) 3 = rbit s (Reg.PIF_C_CFG c) 3 from rfl, h]; decide), posSub_self]
  rfl

/-- What an agreeing index leaves (R334 step 2). -/
structure IndexAgreed (c : Nat) (s u : State) : Prop where
  own : pif u c = { pif s c with missed := 0, run := 0 }
  err : rf u (Reg.PIF_C_IDX_ERR c) 15 0 = 0
  cnt : rn u (Reg.PIF_C_IDX_CNT c) = min 0xFFFFFFFF (rn s (Reg.PIF_C_IDX_CNT c) + 1)

theorem judgeIndex_agreed {c x : Nat} {s : State} (h : rbit s (Reg.PIF_C_CFG c) 3 = false) (hr : (pif s c).ref = some x) :
    IndexAgreed c s (judgeIndex c x x s) := by
  have hne : Reg.PIF_C_IDX_ERR c ≠ Reg.PIF_C_IDX_CNT c := by
    simp only [Reg.PIF_C_IDX_ERR, Reg.PIF_C_IDX_CNT]
    omega
  rw [judgeIndex_agrees h]
  refine ⟨?_, ?_, ?_⟩
  · refine (pif_congr rfl c).trans ((pif_updPif_self (c := c) (fun g => { g with run := 0 }) _).trans ?_)
    rw [indexNoted_pif, ← hr]
  · rw [rf, rn_inc_ne _ _ hne]
    exact rf_wf_self (Reg.PIF_C_IDX_ERR c) 0 (wn64 (Reg.PIF_C_IDX_LAST c) x
      (updPif c (fun g => { g with ref := some x, missed := 0 }) s)) (by decide)
  · rw [rn_inc_self]
    exact congrArg (fun v => min 0xFFFFFFFF (v + 1))
      ((rn_wf_ne _ _ _ _ hne.symm).trans (rn_wn64_ne _ _ (IDX_CNT_ne_LAST c).1 (IDX_CNT_ne_LAST c).2))

theorem IndexAgreed.of_alike {c : Nat} {s s' u u' : State} (h : IndexAgreed c s u) (hs : s.pif = s'.pif)
    (hr : ∀ k, keyKind k = .pifCh → rd s k = rd s' k) (hu : u'.pif = u.pif) (hq : ∀ k, rd u' k = rd u k) : IndexAgreed c s' u' := by
  obtain ⟨own, err, cnt⟩ := h
  refine ⟨?_, ?_, ?_⟩
  · rw [pif_congr hu, own, pif_congr hs]
  · rw [rf_congr (hq _), err]
  · rw [rn_congr (hq _), cnt, rn_congr (hr _ (by simp))]

/-! ## The obligation -/

/-- Settles O46: a sample's checks touch neither the position it moves nor another channel, and an index is judged on the count captured. -/
theorem positionSamplesRun : Obligations.PositionSamplesRun := by
  unfold Obligations.PositionSamplesRun
  refine ⟨?square, ?analog, ?index⟩
  case square =>
    intro c a b v s hm hpace
    have hn : NotPacing c.val s := hpace
    refine next_at (execPifSquareSample_keeps c a b v s) (by decide)
      (show exec (.pifSquareSample c a b v) s = .next (squareSample c.val v.toNat a b s) from rfl) ?_
    by_cases he : (pif s c.val).enabled = true
    · have hs : NotPacing c.val (levelled c.val v.toNat a b s) := hn.advance v.toNat
      have hp := levelled_pif c.val v.toNat a b s
      obtain ⟨pos, ts, prevPos, prevTs, ha, hb, -, others⟩ := pifMove_after_checks hs
        (squareJudged_checked c.val v.toNat a b s) v.toNat (squareMove c.val a b s)
      rw [hp] at pos prevPos prevTs ha hb
      rw [squareSample_enabled hm he]
      exact ⟨ha, hb, fun h => absurd (he.symm.trans h) (by decide),
        fun _ => ⟨pos, ts, prevPos, prevTs, fun h => pifMove_sticks hs (squareJudged_checked c.val v.toNat a b s) _ _ _ (squareJudged_both h)⟩,
        fun g hg => (others g hg).trans (levelled_others hg _ _ _ s)⟩
    · rw [Bool.not_eq_true] at he
      rw [squareSample_disabled hm he]
      have hp := levelled_pif c.val v.toNat a b s
      exact ⟨by rw [hp], by rw [hp], fun _ => hp, fun h => absurd (he.symm.trans h) (by decide), fun g hg => levelled_others hg _ _ _ s⟩
  case analog =>
    intro c sn cs v s hm hpace
    have hn : NotPacing c.val s := hpace
    have hp := angled_pif c.val v.toNat sn.toInt cs.toInt s
    have hnear : ∀ a, atan4096 (correctedSin c.val sn.toInt cs.toInt s) (correctedCos c.val cs.toInt s) = some a →
        ∃ e : Int, -1 ≤ e ∧ e ≤ 1 ∧ (takenAngle c.val v.toNat sn.toInt cs.toInt s).1 = unsigned 12 ((a : Int) + e) :=
      fun a ha => channelAngle_near ha _
    refine next_at (execPifAdcSample_keeps c sn cs v s) (by decide)
      (show exec (.pifAdcSample c sn cs v) s = .next (adcSample c.val v.toNat sn.toInt cs.toInt s) from rfl) ?_
    rw [adcSample_eq hm]
    by_cases he : (pif s c.val).enabled = true
    · have hc := angleJudged_checked c.val v.toNat sn.toInt cs.toInt s
      have hs : NotPacing c.val (angled c.val v.toNat sn.toInt cs.toInt s) := hn.angled v.toNat sn.toInt cs.toInt
      obtain ⟨pos, ts, prevPos, prevTs, -, -, ang, others⟩ := pifMove_after_checks hs hc v.toNat (angleTurn c.val v.toNat sn.toInt cs.toInt s)
      rw [hp] at pos prevPos prevTs ang
      rw [if_pos he, ang]
      exact ⟨hnear, fun h => absurd (he.symm.trans h) (by decide),
        fun _ => ⟨pos, ts, prevPos, prevTs, fun h => pifMove_sticks hs hc _ _ _ (angleJudged_fast (by rwa [angleTurn_natAbs]))⟩,
        fun g hg => (others g hg).trans (angled_others hg _ _ _ s)⟩
    · rw [if_neg he, hp]
      exact ⟨hnear, fun _ => rfl, fun h => absurd h he, fun g hg => angled_others hg _ _ _ s⟩
  case index =>
    intro c rising v s hen hv hs hedge hsq
    have ht : IndexTaken c.val rising s := ⟨hen, hv, hs, hedge, hsq⟩
    have e : exec (.pifIndexCapture c rising v) s = .next (homingIndex c.val rising (indexCapture c.val v.toNat rising s)) := rfl
    refine ⟨fun hr => ?_, fun hr hper hcorr => ?_⟩
    · refine next_at (execPifIndexCapture_keeps c rising v s) (by decide) e ?_
      rw [indexCapture_taken ht, hr]
      refine ⟨?_, ?_, ?_⟩
      · rw [pif_congr (homingIndex_pif ..), indexFirst_pif, pif_advance]
      · rw [rn64, rn_congr (homingIndex_rd ..), rn_congr (homingIndex_rd ..)]
        exact indexFirst_last _ _ _
      · rw [rn_congr (homingIndex_rd ..), indexFirst_cnt, rn_congr (advance_rd _ s (by simp))]
    · refine next_at (execPifIndexCapture_keeps c rising v s) (by decide) e ?_
      rw [indexCapture_taken ht, hr]
      dsimp only
      rw [if_neg hper, expectedIndex_self (Nat.pos_of_ne_zero hper) (Nat.mod_lt _ (by decide))]
      have ha := judgeIndex_agreed (c := c.val) (x := (pif s c.val).pos) (s := advanceTo v.toNat s)
        (by rw [rbit_cfg_advance, hcorr]) (by rw [pif_advance, hr])
      obtain ⟨own, err, cnt⟩ := ha.of_alike (advance_pif _ s) (fun k hk => advance_rd _ s (by simp [hk]))
        (homingIndex_pif c.val rising _) (homingIndex_rd c.val rising _)
      exact ⟨own, err, cnt⟩

end Sys2Proof.Machine
end

section
/-! SUPPORT. The proofs of what the alarm, trace and limit commands leave (O34). -/

namespace Sys2Proof.Machine
open Sys2Proof

/-! ## What a completion leaves of Stook -/

/-- Stook as an operation leaves it but for its bucket and the count of bytes it wrote (R502). -/
structure Written (s t : State) : Prop where
  alarms : t.stk.alarms = s.stk.alarms
  cfg : t.stk.cfg = s.stk.cfg
  staging : t.stk.staging = s.stk.staging
  trace : t.stk.trace = s.stk.trace
  reg : ∀ k, k ≠ Reg.STK_HOST_BYTES → k ≠ Reg.STK_HOST_BYTES + 4 → rd t k = rd s k

theorem Written.of_eq {s t : State} (hs : t.stk = s.stk) (hr : t.regs = s.regs) : Written s t :=
  ⟨by rw [hs], by rw [hs], by rw [hs], by rw [hs], fun k _ _ => by rw [rd, rd, hr]⟩

theorem Written.refl (s : State) : Written s s := .of_eq rfl rfl

theorem Written.trans {s t u : State} (h : Written s t) (k : Written t u) : Written s u :=
  ⟨k.alarms.trans h.alarms, k.cfg.trans h.cfg, k.staging.trans h.staging, k.trace.trans h.trace, fun j h1 h2 => (k.reg j h1 h2).trans (h.reg j h1 h2)⟩

theorem Written.after {s t u : State} (k : Written t u) (h : Written s t) : Written s u := h.trans k

theorem stookWrote_written (n : Nat) (s : State) : Written s (stookWrote n s) :=
  ⟨rfl, rfl, rfl, rfl, fun _ h h4 => (rd_wr_ne _ _ h4).trans (rd_wr_ne _ _ h)⟩

theorem msixSend_written (v : Nat) (s : State) : Written s (msixSend v s) := by
  have k := msixSend_keeps v s (fun _ q => q) (Keeps.refl _ s)
  have hs : (msixSend v s).stk = s.stk := k.only .stk (by decide)
  exact ⟨by rw [hs], by rw [hs], by rw [hs], by rw [hs], fun j _ _ => k.rd (by simp)⟩

theorem writeback_written (n : Nat) (s : State) : Written s (writeback n s) := by
  unfold writeback
  split
  · extract_lets r v s1
    split_ifs
    · exact .of_eq rfl rfl
    · exact (stookWrote_written 4 _).after (.of_eq rfl rfl)
  · exact .refl s

theorem signalRing_written (n : Nat) (s : State) : Written s (signalRing n s) :=
  (msixSend_written _ _).after ((writeback_written n s).trans (.of_eq rfl rfl))

theorem postRecords_written (n : Nat) (rs : List Record) (s : State) : Written s (postRecords n rs s) := by
  unfold postRecords
  extract_lets s1 z s2
  have h2 : Written s s2 := by
    unfold s2
    split_ifs with hz
    · exact .of_eq rfl rfl
    · exact (stookWrote_written _ _).after (.of_eq rfl rfl)
  split_ifs
  · exact h2.trans (signalRing_written n s2)
  · exact h2

theorem hostWrites_written (ws : List (Nat × List Byte)) (s : State) : Written s (hostWrites ws s) :=
  have k := hostWrites_keeps ws s (fun _ q => q) (Keeps.refl _ s)
  ⟨by rw [hostWrites_stk], by rw [hostWrites_stk], by rw [hostWrites_stk], by rw [hostWrites_stk], fun _ _ _ => k.rd (by simp)⟩

theorem completeWith_written (ws : List (Nat × List Byte)) (h : Hdr) (status result : Nat) (s : State) :
    Written s (completeWith ws h status result s) := by
  have hu : Written s (unpark h s) := .of_eq rfl rfl
  unfold completeWith
  dsimp only
  split_ifs
  · exact (hostWrites_written ws _).after hu
  · exact hu.trans (.of_eq rfl rfl)
  · exact (postRecords_written _ _ _).after ((hostWrites_written ws _).after hu)
  · exact hu.trans (.of_eq rfl rfl)

theorem ok_written (h : Hdr) (result : Nat) (s : State) : Written s (ok h result s) := completeWith_written [] h 0 result s

/-! ## The commands -/

theorem output_fits {h : Hdr} {addr len result : Nat} {bs : List Byte} (hl : bs.length ≤ len) (s : State) :
    output h addr len result bs s = completeWith [(addr, bs)] h 0 result s := by
  rw [output, if_neg (by omega)]

/-- The alarm store without an alarm. -/
def withoutAlarm (i : Nat) (s : State) : State := { s with stk := { s.stk with alarms := tdel s.stk.alarms i } }

/-- An alarm that is not latched, or whose condition is gone, is latched no more (R508). -/
theorem alarmAck_clears {h : Hdr} {code i : Nat} {s : State} (hc : alarmIndex code = some i)
    (hg : (tfind s.stk.alarms i).isNone = true ∨ alarmActive s i = false) :
    ∃ u, alarmAck h code s = ok h 0 u ∧ Keeps [.stk] s u ∧ tfind u.stk.alarms i = none ∧
      ∀ j, j ≠ i → tfind u.stk.alarms j = tfind s.stk.alarms j := by
  unfold alarmAck
  simp only [hc]
  by_cases hn : (tfind s.stk.alarms i).isNone = true
  · exact ⟨s, if_pos hn, Keeps.refl _ s, Option.isNone_iff_eq_none.mp hn, fun _ _ => rfl⟩
  · have ha : alarmActive s i = false := hg.resolve_left hn
    refine ⟨withoutAlarm i s, ?_, Keeps.set_stk (by decide) (Keeps.refl _ s), tfind_tdel_self _ _, fun j hj => tfind_tdel_ne _ hj⟩
    rw [if_neg hn, ha]
    rfl

/-- The trace configuration of an image: entry k from its bytes 4k and 4k + 1 (R510). -/
def traceEntries (bs : List Byte) : Tab TraceCfg :=
  (List.range 8).map fun k => (k, ⟨decide ((bs.getD (4 * k) 0).toNat = 1), (bs.getD (4 * k + 1) 0).toNat⟩)

theorem traceEntries_entry (bs : List Byte) {k : Nat} (hk : k < 8) :
    tfind (traceEntries bs) k = some ⟨decide ((bs.getD (4 * k) 0).toNat = 1), (bs.getD (4 * k + 1) 0).toNat⟩ := by
  unfold traceEntries
  interval_cases k <;> rfl

theorem traceConfig_good {h : Hdr} {x : Stream} {s : State} (hg : traceCfgGood x.bytes = true) :
    traceConfig h x s = ok h 0 { s with stk := { s.stk with cfg := traceEntries x.bytes } } := by
  unfold traceConfig
  exact if_pos hg

/-- Settles O34: each command through its body, whose completion leaves the alarm store, the trace configuration and STK_LIMIT. -/
theorem alarmAndTraceCommandsRun : Obligations.AlarmAndTraceCommandsRun := by
  unfold Obligations.AlarmAndTraceCommandsRun
  refine ⟨?fetch, ?ack, ?trace, ?limit⟩
  case fetch =>
    intro d buf len s ha hl
    refine admitted_next ha rfl rfl (alarmFetch_keeps _ _ _ _ (by decide) ((taken_only d s).mono (by decide))) ?_
    have e : alarmFetch (hdrOf d s) buf.toNat len.toNat (taken d s) =
        completeWith [(buf.toNat, s.stk.alarms.flatMap fun e => alarmBytes s e.1 e.2)] (hdrOf d s) 0 0 (taken d s) := output_fits hl _
    rw [e]
    exact completeWith_only 0 0 (Keeps.refl [] _) (by decide)
  case ack =>
    intro d code i s ha hc hg
    refine admitted_next ha rfl rfl (alarmAck_keeps _ _ _ (by decide) ((taken_only d s).mono (by decide))) ?_
    obtain ⟨u, hu, hk, hi, ho⟩ := alarmAck_clears (h := hdrOf d s) (s := taken d s) hc hg
    have hw := ok_written (hdrOf d s) 0 u
    rw [hu]
    exact ⟨complete_only 0 0 hk (by decide), by rw [hw.alarms, hi], fun j hj => by rw [hw.alarms]; exact ho j hj⟩
  case trace =>
    intro d handle x s ha hx hf hc hg
    refine admitted_next ha rfl (streamObjs_nil rfl _ _) (bodyTraceConfig_keeps _ _ _ _ (by decide) ((taken_only d s).mono (by decide))) ?_
    have e : bodyTraceConfig (hdrOf d s) (.traceConfig d handle) handle.toNat (taken d s) =
        ok (hdrOf d s) 0 { taken d s with stk := { s.stk with cfg := traceEntries x.bytes } } :=
      (withStream_taken hx hf hc rfl).trans (traceConfig_good hg)
    rw [e]
    refine ⟨complete_only (ps := [.stk]) 0 0 (Keeps.set_stk (by decide) (Keeps.refl _ _)) (by decide), fun k hk => ?_⟩
    rw [(ok_written ..).cfg]
    exact traceEntries_entry x.bytes hk
  case limit =>
    intro d limit s ha h1 h2
    refine admitted_next ha rfl rfl (bodyStookLimit_keeps _ _ _ (by decide) ((taken_only d s).mono (by decide))) ?_
    rw [bodyStookLimit, if_neg (by omega)]
    refine ⟨complete_only (ps := [.reg .stk]) 0 0 (wn_keeps _ _ _ (by decide) (Keeps.refl _ _)) (by decide), ?_⟩
    rw [rn_congr ((ok_written ..).reg _ (by decide) (by decide)), rn_wn_self]
    omega

end Sys2Proof.Machine
end

section
/-! SUPPORT. The proofs of what writes of press time, measurements and its passing leave of the clock (O31). -/

namespace Sys2Proof.Machine
open Sys2Proof

/-! ## Applies and sources (R435, R438) -/

theorem raised_clock (n b code : Nat) (ten : Option Nat) (pl : List Byte) (s : State) :
    (raiseIrq n b (event code ten pl s)).clock = s.clock := (raised_keeps s).only .clock (by simp)

theorem raised_rd (n b code : Nat) (ten : Option Nat) (pl : List Byte) (s : State) {k : Nat} (hk : keyKind k ≠ .stk) :
    rd (raiseIrq n b (event code ten pl s)) k = rd s k := (rd_raiseIrq n b _ k).trans (rd_event hk)

theorem getLsbD_eq_decide {n : Nat} (v : BitVec n) (i : Nat) : v.getLsbD i = decide (v.toNat / 2 ^ i % 2 = 1) := by
  rw [BitVec.getLsbD, Nat.testBit_eq_decide_div_mod_eq]

/-- The staged time stands in press time (R435). -/
def stagedClock (s : State) : Clock :=
  { s.clock with
    sec := rd s Reg.TIM_WR_S, ns := rf s Reg.TIM_WR_NS 29 0, frac := rf s Reg.TIM_WR_FRAC 7 0 * 2 ^ 40,
    slew := 0, slewLeft := 0, atSec := false, valid := true }

theorem applyStaged_clock (mode : Nat) (s : State) : (applyStaged mode s).clock = stagedClock s := raised_clock _ _ _ _ _ _

/-- A pending apply as a write sets it. -/
def pendApply (b : Bool) (s : State) : State := { s with clock := { s.clock with atSec := b } }

theorem pendApply_keeps (b : Bool) (s : State) : Keeps [.clock] s (pendApply b s) := Keeps.set_clock (by decide) (Keeps.refl _ s)

theorem timWrCtrl_now {v : Word} {s : State} (hsrc : timSrc s = 0) (h0 : v.getLsbD 0 = true) (h1 : v.getLsbD 1 = false)
    (h2 : v.getLsbD 2 = false) : timWrCtrl v s = applyStaged 0 s := by
  rw [getLsbD_eq_decide] at h0 h1 h2
  simp only [decide_eq_true_eq, decide_eq_false_iff_not] at h0 h1 h2
  unfold timWrCtrl
  dsimp only
  rw [if_neg (by omega), if_neg (by omega), if_neg (by simp [hsrc]), if_neg (by omega), if_pos (by omega)]

theorem timWrCtrl_atSec {v : Word} {s : State} (hsrc : timSrc s = 0) (h0 : v.getLsbD 0 = false) (h1 : v.getLsbD 1 = true)
    (h2 : v.getLsbD 2 = false) : timWrCtrl v s = pendApply true s := by
  rw [getLsbD_eq_decide] at h0 h1 h2
  simp only [decide_eq_true_eq, decide_eq_false_iff_not] at h0 h1 h2
  unfold timWrCtrl
  dsimp only
  rw [if_neg (by omega), if_neg (by omega), if_neg (by simp [hsrc]), if_pos (by omega), if_neg (by omega)]
  rfl

theorem timWrCtrl_cancel {v : Word} {s : State} (h0 : v.getLsbD 0 = false) (h1 : v.getLsbD 1 = false) (h2 : v.getLsbD 2 = true) :
    timWrCtrl v s = pendApply false s := by
  rw [getLsbD_eq_decide] at h0 h1 h2
  simp only [decide_eq_true_eq, decide_eq_false_iff_not] at h0 h1 h2
  unfold timWrCtrl
  dsimp only
  rw [if_pos (by omega), if_pos (by omega)]
  rfl

theorem timCtrl_row : ∃ r, regDef Reg.TIM_CTRL = some r ∧ r.acc = .rw ∧ r.mask = 3#32 ∧ r.w1c = 0#32 := by decide

theorem plainPut_timCtrl (v : Word) (s : State) :
    plainPut Reg.TIM_CTRL v s = wr Reg.TIM_CTRL ((v &&& 3#32) ||| (rd s Reg.TIM_CTRL &&& ~~~3#32)) s := by
  obtain ⟨r, hd, ha, hm, hw⟩ := timCtrl_row
  rw [plainPut_rw hd (Or.inl ha), keyOf_plain (by decide), plainValue_noClear hw, hm]

theorem masked_low (old v : Word) : ((v &&& 3#32) ||| (old &&& ~~~3#32)).toNat % 4 = v.toNat % 4 := by
  have h : ((v &&& 3#32) ||| (old &&& ~~~3#32)).extractLsb' 0 2 = v.extractLsb' 0 2 := by
    ext i hi
    obtain rfl | rfl : i = 0 ∨ i = 1 := by omega
    · simp
    · simp
  simpa [BitVec.toNat_eq] using h

theorem timCtrl_src (v : Word) (s : State) : timSrc (timCtrl v s) = v.toNat % 4 := by
  have h : rn (plainPut Reg.TIM_CTRL v s) Reg.TIM_CTRL = ((v &&& 3#32) ||| (rd s Reg.TIM_CTRL &&& ~~~3#32)).toNat := by
    rw [plainPut_timCtrl, rn, rd_wr_self]
  have hr : timSrc (timCtrl v s) = bits 1 0 (rn (plainPut Reg.TIM_CTRL v s) Reg.TIM_CTRL) := rfl
  rw [hr, h, bits, Nat.pow_zero, Nat.div_one]
  exact masked_low _ v

/-! ## Measurements (R437, R438) -/

theorem unlock_clock (s : State) : (setLocked false s).clock = { s.clock with locked := false } := by
  unfold setLocked
  split
  · next h => rw [← h]
  · exact raised_clock _ _ _ _ _ _

theorem setLocked_rd (b : Bool) (s : State) {k : Nat} (hk : keyKind k ≠ .stk) : rd (setLocked b s) k = rd s k := by
  unfold setLocked
  split
  · rfl
  · exact raised_rd _ _ _ _ _ _ hk

/-- Holdover ends: nothing else of the clock changes. -/
theorem endHoldover_clock (s : State) : (setHoldover false s).clock = { s.clock with holdover := false } := by
  unfold setHoldover
  split
  · next h => rw [← h]
  · exact raised_clock _ _ _ _ _ _

theorem endHoldover_rd (s : State) {k : Nat} (hk : keyKind k ≠ .stk) : rd (setHoldover false s) k = rd s k := by
  unfold setHoldover
  split
  · rfl
  · exact raised_rd _ _ _ _ _ _ hk

/-- What a measurement that is a step leaves (R437). -/
structure Stepped (s t : State) : Prop where
  meas : rn t Reg.TIM_MEAS_CNT = min 0xFFFFFFFF (rn s Reg.TIM_MEAS_CNT + 1)
  steps : rn t Reg.TIM_STEP_CNT = min 0xFFFFFFFF (rn s Reg.TIM_STEP_CNT + 1)
  first : t.clock.first = false
  valid : t.clock.valid = true
  locked : t.clock.locked = false
  holdover : t.clock.holdover = false
  missRun : t.clock.missRun = 0
  slew : t.clock.slew = 0

/-- A measurement counts, and no run of missed ones goes on. -/
def measured (e : Int) (s : State) : State :=
  inc Reg.TIM_MEAS_CNT 1 (wn Reg.TIM_ERR (unsigned 32 (satS 32 (divZ e 256)))
    (setHoldover false { s with clock := { s.clock with missRun := 0 } }))

theorem measured_clock (e : Int) (s : State) : (measured e s).clock = { s.clock with missRun := 0, holdover := false } :=
  endHoldover_clock _

theorem measured_meas (e : Int) (s : State) :
    rn (measured e s) Reg.TIM_MEAS_CNT = min 0xFFFFFFFF (rn s Reg.TIM_MEAS_CNT + 1) := by
  rw [measured, rn_inc_self, rn_wn_ne _ _ (by decide), rn_congr (endHoldover_rd _ (by decide))]
  rfl

theorem measured_steps (e : Int) (s : State) : rn (measured e s) Reg.TIM_STEP_CNT = rn s Reg.TIM_STEP_CNT := by
  rw [measured, rn_inc_ne _ _ (by decide), rn_wn_ne _ _ (by decide), rn_congr (endHoldover_rd _ (by decide))]
  rfl

/-- The clock after a step: no slew, valid, and no measurement yet of a run. -/
def stepClock (e : Int) (s : State) : Clock :=
  { (pressAdd e s).clock with slew := 0, slewLeft := 0, valid := true, first := false, goodRun := 0, badRun := 0 }

/-- The first measurement of a source is a step. -/
theorem measure_first {e : Int} {n : Nat} {s : State} (h : s.clock.first = true) :
    measure e n s = setLocked false (raiseIrq pgTim 4 (event 0x0601 none
      (le 4 (timSrc s) ++ le 4 (unsigned 32 (satS 32 (divZ e 256))))
      (inc Reg.TIM_STEP_CNT 1 { pressAdd e (measured e s) with clock := stepClock e (measured e s) }))) := by
  have hf : (measured e s).clock.first = true := by
    rw [measured_clock]
    exact h
  unfold measure
  exact if_pos (Or.inl hf)

theorem measure_first_steps {e : Int} {n : Nat} {s : State} (h : s.clock.first = true) : Stepped s (measure e n s) := by
  have hc : (measure e n s).clock = { stepClock e (measured e s) with locked := false } := by
    rw [measure_first h, unlock_clock, raised_clock]
    rfl
  have hm := measured_clock e s
  have hr : ∀ k, keyKind k = .tim → rn (measure e n s) k = rn (inc Reg.TIM_STEP_CNT 1 (measured e s)) k := fun k hk => by
    rw [measure_first h, rn_congr (setLocked_rd _ _ (by simp [hk])), rn_congr (raised_rd _ _ _ _ _ _ (by simp [hk]))]
    rfl
  refine ⟨?_, ?_, by rw [hc]; rfl, by rw [hc]; rfl, by rw [hc], ?_, ?_, by rw [hc]; rfl⟩
  · rw [hr _ (by decide), rn_inc_ne _ _ (by decide), measured_meas]
  · rw [hr _ (by decide), rn_inc_self, measured_steps]
  · rw [hc]
    exact congrArg Clock.holdover hm
  · rw [hc]
    exact congrArg Clock.missRun hm

/-- The request a result answers waits no more. -/
def ptmAnswered (s : State) : State := { s with hif := { s.hif with ptmOut := false } }

/-- How far press time is from the root's, in 1/256 ns (R436). -/
def ptmError (sec : Word) (ns frac : Nat) (s : State) : Int :=
  let root : Int := ((sec.toNat * 1000000000 + ns) * 256 + frac : Nat)
  root + signed 64 (rn64 s Reg.TIM_PTM_OFS) * 256 - pressFine s

theorem ptmMeasurement_measures {sec : Word} {ns frac : Nat} {s : State} (ho : s.hif.ptmOut = true) (hsrc : timSrc s = 1) :
    ptmMeasurement sec ns frac s =
      measure (ptmError sec ns frac s) (rf s Reg.HIF_PTM_PERIOD 7 0 * 800000) (ptmAnswered s) := by
  unfold ptmMeasurement
  rw [if_pos ho]
  exact if_pos hsrc

theorem measure_ptmOut (e : Int) (n : Nat) (s : State) : (measure e n s).hif.ptmOut = s.hif.ptmOut := by
  have h : { (measure e n s).hif with rings := [], msixPend := [] } = { s.hif with rings := [], msixPend := [] } :=
    (measure_keeps e n s (fun _ q => q) (Keeps.refl _ s)).only .hif (by decide)
  have hp := congrArg Hif.ptmOut h
  exact hp

/-! ## Roll-over and the end of a slew (R432, R437) -/

theorem satS_bounds (v : Int) : -2 ^ 31 ≤ satS 32 v ∧ satS 32 v ≤ 2 ^ 31 := by
  unfold satS
  omega

/-- A cycle's gain is near 320 ns/1000: never none, and far less than a second. -/
theorem rateUnits_bounds (s : State) (slew : Int) : 0 < rateUnits s slew ∧ rateUnits s slew < secUnits := by
  obtain ⟨h1, h2⟩ := satS_bounds (signed 32 (rn s Reg.TIM_RATE) + slew)
  unfold rateUnits secUnits
  omega

/-- A clock at another instant of the fire timebase. -/
def Clock.at (c : Clock) (f : DWord) (u : Nat) : Clock := { c with fire := f, uptime := c.uptime + u }

theorem at_press (c : Clock) (f : DWord) (u : Nat) : (c.at f u).sec = c.sec ∧ (c.at f u).units = c.units ∧ (c.at f u).slew = c.slew ∧
    (c.at f u).slewLeft = c.slewLeft := ⟨rfl, rfl, rfl, rfl⟩

/-- Time goes on by n whole cycles. -/
theorem advanceCycles_clock {n : Nat} (hn : 0 < n) (s : State) : ∃ f u, (advanceCycles n s).clock = (passCycles n s).clock.at f u := by
  have hgt : ¬(now s / fireCycle + n) * fireCycle ≤ now s := by
    have := Nat.div_add_mod (now s) 32
    have := Nat.mod_lt (now s) (show 0 < 32 by decide)
    show ¬(now s / 32 + n) * 32 ≤ now s
    omega
  have he : (now s / fireCycle + n) * fireCycle / fireCycle - now s / fireCycle = n := by
    rw [Nat.mul_div_cancel _ (by decide)]
    omega
  rw [advanceCycles, advanceTo, if_neg hgt]
  dsimp only
  rw [he]
  exact ⟨_, _, rfl⟩

theorem ceilDiv_spec {a b : Nat} (hb : 0 < b) : a ≤ ceilDiv a b * b ∧ ceilDiv a b * b < a + b := by
  have := Nat.div_add_mod (a + b - 1) b
  have := Nat.mod_lt (a + b - 1) hb
  have hc : b * ((a + b - 1) / b) = ceilDiv a b * b := Nat.mul_comm _ _
  omega

theorem cyclesToSecond_even {s : State} (hu : s.clock.units < secUnits) (hl : s.clock.slewLeft = 0) :
    cyclesToSecond s = ceilDiv (secUnits - s.clock.units) (rateUnits s 0) := by
  have hpos : ¬ceilDiv (secUnits - s.clock.units) (rateUnits s s.clock.slew) ≤ 0 := fun h0 => by
    have := (ceilDiv_spec (a := secUnits - s.clock.units) (rateUnits_bounds s s.clock.slew).1).1
    rw [Nat.le_zero.mp h0, Nat.zero_mul] at this
    omega
  unfold cyclesToSecond
  dsimp only
  rw [hl, if_neg hpos, Nat.zero_add, Nat.zero_mul, Nat.sub_zero]

theorem withUnits_units (c : Clock) (u : Nat) : (c.withUnits u).units = u := Nat.div_add_mod' u _

/-- Press time at other nanoseconds and fraction, some seconds on. -/
def Clock.gained (c : Clock) (u : Nat) (x : Word) : Clock := { c.withUnits u with sec := c.sec + x }

theorem gained_slewLeft (c : Clock) (u : Nat) (x : Word) : (c.gained u x).slewLeft = c.slewLeft := rfl
theorem gained_slew (c : Clock) (u : Nat) (x : Word) : (c.gained u x).slew = c.slew := rfl
theorem gained_sec (c : Clock) (u : Nat) (x : Word) : (c.gained u x).sec = c.sec + x := rfl
theorem gained_units (c : Clock) (u : Nat) (x : Word) : (c.gained u x).units = u := withUnits_units c u
theorem withUnits_slewLeft (c : Clock) (u : Nat) : (c.withUnits u).slewLeft = c.slewLeft := rfl

theorem runPress_clock (n : Nat) (slew : Int) (s : State) : (runPress n slew s).clock =
    if s.clock.units + n * rateUnits s slew < secUnits then s.clock.withUnits (s.clock.units + n * rateUnits s slew)
    else if s.clock.atSec then
      (applyStaged 1 s).clock.gained
        (((applyStaged 1 s).clock.units + (s.clock.units + n * rateUnits s slew - secUnits) / rateUnits s slew * rateUnits s slew) % secUnits)
        (BitVec.ofNat 32 (((applyStaged 1 s).clock.units +
          (s.clock.units + n * rateUnits s slew - secUnits) / rateUnits s slew * rateUnits s slew) / secUnits))
    else s.clock.gained ((s.clock.units + n * rateUnits s slew) % secUnits)
      (BitVec.ofNat 32 ((s.clock.units + n * rateUnits s slew) / secUnits)) := by
  unfold runPress
  extract_lets d tot s1 tot1
  rw [apply_ite State.clock, apply_ite State.clock]
  rfl

theorem runPress_slewLeft (n : Nat) (slew : Int) (s : State) : (runPress n slew s).clock.slewLeft ≤ s.clock.slewLeft := by
  rw [runPress_clock]
  split
  · rw [withUnits_slewLeft]
  · split
    · rw [gained_slewLeft, applyStaged_clock]
      exact Nat.zero_le _
    · rw [gained_slewLeft]

theorem refill_clock (n : Nat) (s : State) : (refill n s).clock = s.clock := rfl

/-- Cycles that pass with no slew and no apply, over a roll-over. -/
theorem passCycles_over {n : Nat} {s : State} (hn : 0 < n) (hl : s.clock.slewLeft = 0) (ha : s.clock.atSec = false)
    (ho : secUnits ≤ s.clock.units + n * rateUnits s 0) : (passCycles n s).clock =
      s.clock.gained ((s.clock.units + n * rateUnits s 0) % secUnits)
        (BitVec.ofNat 32 ((s.clock.units + n * rateUnits s 0) / secUnits)) := by
  have h0 : min n s.clock.slewLeft = 0 := by rw [hl, Nat.min_zero]
  have hp : passCycles n s = refill n (runPress n 0 s) := by
    unfold passCycles
    dsimp only
    rw [h0, if_pos rfl, Nat.sub_zero, if_neg hn.ne']
  rw [hp, refill_clock, runPress_clock, if_neg (Nat.not_lt.mpr ho), if_neg (by rw [ha]; decide)]

/-- The cycles of the slew that are left pass: it is over. -/
theorem passCycles_slewEnd {s : State} (hl : s.clock.slewLeft ≠ 0) :
    (passCycles s.clock.slewLeft s).clock.slew = 0 ∧ (passCycles s.clock.slewLeft s).clock.slewLeft = 0 := by
  have h0 : (runPress s.clock.slewLeft s.clock.slew s).clock.slewLeft - s.clock.slewLeft = 0 :=
    Nat.sub_eq_zero_of_le (runPress_slewLeft _ _ s)
  unfold passCycles
  dsimp only
  rw [Nat.min_self, if_neg hl, Nat.sub_self, if_pos rfl, h0]
  exact ⟨rfl, rfl⟩

/-- Settles O31: writes by their bits, the first measurement as a step, and time by whole cycles. -/
theorem pressTimeRuns : Obligations.PressTimeRuns := by
  unfold Obligations.PressTimeRuns
  refine ⟨?now, ?atSec, ?cancel, ?src, ?ptm, ?roll, ?slew⟩
  case now =>
    intro ini v s hw hr hsrc h0 h1 h2
    have e : timWrWrite ini v s = applyStaged 0 s := (guardWrite_writable hw hr _).trans (timWrCtrl_now hsrc h0 h1 h2)
    exact next_at (execTimWriteNow_keeps ini v s) (by decide) (congrArg Host.Outcome.next e) (applyStaged_clock 0 s)
  case atSec =>
    intro ini v s hw hr hsrc h0 h1 h2
    have e : timWrWrite ini v s = pendApply true s := (guardWrite_writable hw hr _).trans (timWrCtrl_atSec hsrc h0 h1 h2)
    exact ⟨_, congrArg Host.Outcome.next e, rfl, (pendApply_keeps true s).only⟩
  case cancel =>
    intro ini v s hw hr h0 h1 h2
    have e : timWrWrite ini v s = pendApply false s := (guardWrite_writable hw hr _).trans (timWrCtrl_cancel h0 h1 h2)
    exact ⟨_, congrArg Host.Outcome.next e, rfl, (pendApply_keeps false s).only⟩
  case src =>
    intro ini v s hw hr
    refine next_at (execTimSrcWrite_keeps ini v s) (by decide) (congrArg Host.Outcome.next (guardWrite_writable hw hr timCtrl))
      ⟨timCtrl_src v s, ?_, ?_⟩
    · have h : rd (timCtrl v s) Reg.TIM_RATE = rd (plainPut Reg.TIM_CTRL v s) Reg.TIM_RATE := rfl
      rw [h, plainPut_timCtrl, rd_wr_ne _ _ (by decide)]
    · have h : (plainPut Reg.TIM_CTRL v s).clock = s.clock := by
        rw [plainPut_timCtrl]
        rfl
      unfold timCtrl
      dsimp only
      rw [h]
  case ptm =>
    intro sec ns frac s ho hsrc hf
    refine next_at (execTimPtmMeasurement_keeps sec ns frac s) (by decide) (congrArg Host.Outcome.next (ptmMeasurement_measures ho hsrc)) ?_
    obtain ⟨meas, steps, first, valid, locked, holdover, missRun, slew⟩ := measure_first_steps (s := ptmAnswered s)
      (e := ptmError sec ns.toNat frac.toNat s) (n := rf s Reg.HIF_PTM_PERIOD 7 0 * 800000) hf
    exact ⟨measure_ptmOut _ _ _, meas, steps, first, valid, locked, holdover, missRun, slew⟩
  case roll =>
    intro s hu hl ha
    have hc := cyclesToSecond_even hu hl
    obtain ⟨hd0, hd1⟩ := rateUnits_bounds s 0
    obtain ⟨hlo, hhi⟩ := ceilDiv_spec (a := secUnits - s.clock.units) hd0
    rw [← hc] at hlo hhi
    have hn : 0 < cyclesToSecond s := Nat.pos_of_ne_zero fun h0 => by
      rw [h0, Nat.zero_mul] at hlo
      omega
    refine next_at (execTimSecondRollover_keeps s) (by decide) rfl ?_
    obtain ⟨f, u, ht⟩ := advanceCycles_clock hn s
    obtain ⟨hsec, hunits, hslew, -⟩ := at_press (passCycles (cyclesToSecond s) s).clock f u
    rw [ht, hsec, hunits, hslew, passCycles_over hn hl ha (by omega), gained_sec, gained_units, gained_slew]
    generalize cyclesToSecond s * rateUnits s 0 = g at hlo hhi
    have h1 : (s.clock.units + g) / secUnits = 1 := by
      rw [Nat.div_eq_iff (hd0.trans hd1)]
      omega
    have h2 : (s.clock.units + g) % secUnits = s.clock.units + g - secUnits := by
      rw [Nat.mod_eq_sub_mod (by omega), Nat.mod_eq_of_lt (by omega)]
    rw [h1, h2]
    exact ⟨rfl, by omega, rfl⟩
  case slew =>
    intro s hl
    refine next_at (execTimSlewEnd_keeps s) (by decide) rfl ?_
    obtain ⟨f, u, ht⟩ := advanceCycles_clock (Nat.pos_of_ne_zero hl) s
    obtain ⟨-, -, hslew, hleft⟩ := at_press (passCycles s.clock.slewLeft s).clock f u
    rw [ht, hslew, hleft]
    exact passCycles_slewEnd hl

end Sys2Proof.Machine
end

section
/-! SUPPORT. The proofs of what Stook's writers and the cores' trace leave (O51). -/

namespace Sys2Proof.Machine
open Sys2Proof

/-! ## Events (R505, R506) -/

/-- An event is staged or dropped: nothing else of Stook changes. -/
theorem dropEvent_stk (e : Event) (n : Nat) (s : State) : (dropEvent e n s).stk = s.stk :=
  (dropEvent_keeps e n s (fun _ q => q) (Keeps.refl _ s)).only .stk (by decide)

theorem dropEvents_stk (e : Event) (l : List Nat) (s : State) : (l.foldl (fun t n => dropEvent e n t) s).stk = s.stk := by
  induction l generalizing s with
  | nil => rfl
  | cons n l ih => exact (ih _).trans (dropEvent_stk e n s)

theorem event_stk (code : Nat) (ten : Option Nat) (pl : List Byte) (s : State) :
    ∃ l, (event code ten pl s).stk = { s.stk with staging := l } := by
  unfold event acceptEvent
  extract_lets e s1
  split
  · exact ⟨_, rfl⟩
  · exact ⟨s.stk.staging, (dropEvents_stk e _ s1).trans rfl⟩

theorem raiseIrq_stk (n b : Nat) (s : State) : (raiseIrq n b s).stk = s.stk :=
  (raiseIrq_keeps n b s (fun _ q => q) (Keeps.refl _ s)).only .stk (by simp)

/-- An event on its way to a ring leaves the staging queue. -/
theorem writeEvent_staging (e : Event) (n : Nat) (s : State) : (writeEvent e n s).stk.staging = s.stk.staging := by
  have hg : (writeGap n s).stk.staging = s.stk.staging := by
    unfold writeGap
    dsimp only
    split
    · exact (postRecords_written _ _ _).staging
    · rfl
  unfold writeEvent
  dsimp only
  split
  · exact (postRecords_written _ _ _).staging.trans hg
  · rw [dropEvent_stk, hg]

theorem writeEvents_staging (e : Event) (l : List Nat) (s : State) :
    (l.foldl (fun t n => writeEvent e n t) s).stk.staging = s.stk.staging := by
  induction l generalizing s with
  | nil => rfl
  | cons n l ih => exact (ih _).trans (writeEvent_staging e n s)

/-- A ring owed no gap that has room takes an event's entries. -/
theorem writeEvent_posts {e : Event} {n : Nat} {s : State} (hg : (ring s n).gap.count = 0)
    (hp : canPost s n (eventRecords e).length = true) : writeEvent e n s = postRecords n (eventRecords e) s := by
  have h : writeGap n s = s := by
    unfold writeGap
    exact if_neg fun hc => hc.1 hg
  unfold writeEvent
  dsimp only
  rw [h, if_pos ⟨hg, hp⟩]

/-- The waits for the bucket are over and the front event has left staging. -/
def eventPopped (e : Event) (rest : List Event) (s : State) : State :=
  let s1 := if e.alarm then s else bucketGo s
  { s1 with stk := { s1.stk with staging := rest } }

theorem bucketGo_hif (s : State) : (bucketGo s).hif = s.hif := by
  unfold bucketGo
  split
  · rfl
  · rfl

theorem eventPopped_hif (e : Event) (rest : List Event) (s : State) : (eventPopped e rest s).hif = s.hif := by
  unfold eventPopped
  dsimp only
  split
  · rfl
  · exact bucketGo_hif s

theorem stookEventWrite_unread {e : Event} {rest : List Event} {s : State} (h : s.stk.staging = e :: rest) (hr : eventRings s e = []) :
    stookEventWrite s = { s with stk := { s.stk with staging := rest } } := by
  unfold stookEventWrite
  rw [h]
  exact if_pos hr

theorem stookEventWrite_goes {e : Event} {rest : List Event} {s : State} (h : s.stk.staging = e :: rest) (hr : eventRings s e ≠ [])
    (hc : canIssue s = true) (hb : e.alarm = true ∨ (receiptsReady s = false ∧ bucketHolds s (eventBytes e) = true)) :
    stookEventWrite s = (eventRings s e).foldl (fun t n => writeEvent e n t) (eventPopped e rest s) := by
  have h1 : (!canIssue s || (!e.alarm && receiptsReady s)) = false := by
    rcases hb with ha | ⟨hn, -⟩
    · rw [hc, ha]
      rfl
    · rw [hc, hn, Bool.and_false]
      rfl
  have h2 : (!e.alarm && !bucketHolds s (eventBytes e)) = false := by
    rcases hb with ha | ⟨-, hh⟩
    · rw [ha]
      rfl
    · rw [hh, Bool.not_true, Bool.and_false]
  unfold stookEventWrite
  rw [h]
  dsimp only
  rw [if_neg hr, h1, h2]
  rfl

/-! ## Trace (R510, R511) -/

/-- The trace of the cores as an operation leaves it: who sleeps, and what the FIFOs hold. -/
def CoresAlike (s t : State) : Prop :=
  ∀ c, (coreTrace t c).fifo = (coreTrace s c).fifo ∧ (coreTrace t c).asleep = (coreTrace s c).asleep

theorem CoresAlike.trans {s t u : State} (h : CoresAlike s t) (k : CoresAlike t u) : CoresAlike s u := fun c =>
  ⟨(k c).1.trans (h c).1, (k c).2.trans (h c).2⟩

theorem coreTrace_congr {s t : State} (h : t.stk.cores = s.stk.cores) (c : Nat) : coreTrace t c = coreTrace s c := by
  rw [coreTrace, coreTrace, h]

theorem CoresAlike.of_cores {s t : State} (h : t.stk.cores = s.stk.cores) : CoresAlike s t := fun c => by
  rw [coreTrace_congr h]
  exact ⟨rfl, rfl⟩

theorem coreTrace_updCore_self (c : Nat) (f : CoreTrace → CoreTrace) (s : State) : coreTrace (updCore c f s) c = f (coreTrace s c) :=
  tget_tput_self _ _ _ _

theorem coreTrace_updCore_ne {c j : Nat} (f : CoreTrace → CoreTrace) (s : State) (h : j ≠ c) :
    coreTrace (updCore c f s) j = coreTrace s j := tget_tput_ne _ _ _ h

theorem CoresAlike.upd (c : Nat) (f : CoreTrace → CoreTrace) (hf : ∀ x, (f x).fifo = x.fifo ∧ (f x).asleep = x.asleep) (s : State) :
    CoresAlike s (updCore c f s) := fun j => by
  by_cases h : j = c
  · rw [h, coreTrace_updCore_self]
    exact hf _
  · rw [coreTrace_updCore_ne f s h]
    exact ⟨rfl, rfl⟩

theorem losePkt_cores (x : TracePkt) (s : State) : CoresAlike s (losePkt x s) :=
  CoresAlike.upd x.core (fun c => { c with lost := tput c.lost x.prio (min 0xFFFFFFFF (tget c.lost 0 x.prio + 1)) })
    (fun _ => ⟨rfl, rfl⟩) s

theorem event_cores (code : Nat) (ten : Option Nat) (pl : List Byte) (s : State) : CoresAlike s (event code ten pl s) := by
  obtain ⟨l, h⟩ := event_stk code ten pl s
  exact .of_cores (by rw [h])

/-- The cores that lost packets owe a GAP packet. -/
def owing (x : CoreTrace) : CoreTrace := if x.lost = [] then x else { x with owesGap := true }

theorem owing_alike (x : CoreTrace) : (owing x).fifo = x.fifo ∧ (owing x).asleep = x.asleep := by
  unfold owing
  split
  · exact ⟨rfl, rfl⟩
  · exact ⟨rfl, rfl⟩

theorem CoresAlike.owing (s : State) (k : Stook) (hk : k.cores = s.stk.cores.map fun c => (c.1, owing c.2)) :
    CoresAlike s { s with stk := k } := fun c => by
  have h : coreTrace { s with stk := k } c = ((tfind s.stk.cores c).map Machine.owing).getD ⟨0, [], [], false, false⟩ := by
    rw [coreTrace, tget, hk, tfind_map]
  rw [h, coreTrace, tget]
  cases tfind s.stk.cores c with
  | none => exact ⟨rfl, rfl⟩
  | some x => exact owing_alike x

/-- What the shed level's refreshing leaves: the queue, the cores' FIFOs and sleep, the rings, and the count of lost packets (R510). -/
structure Refreshed (s t : State) : Prop where
  trace : t.stk.trace = s.stk.trace
  cores : CoresAlike s t
  rings : RingsAlike s t
  lost : rd t Reg.STK_TR_DROP_CNT = rd s Reg.STK_TR_DROP_CNT

theorem dropEvent_rd (e : Event) (n : Nat) (s : State) {k : Nat} (h : k ≠ Reg.STK_EVT_DROP_CNT) : rd (dropEvent e n s) k = rd s k := by
  unfold dropEvent
  rw [rd_raiseIrq, inc, wn, rd_wr_ne _ _ h]
  rfl

theorem dropEvents_rd (e : Event) (l : List Nat) (s : State) {k : Nat} (h : k ≠ Reg.STK_EVT_DROP_CNT) :
    rd (l.foldl (fun t n => dropEvent e n t) s) k = rd s k := by
  induction l generalizing s with
  | nil => rfl
  | cons n l ih => exact (ih _).trans (dropEvent_rd e n s h)

/-- An event writes Stook's sequence number and the count of dropped events. -/
theorem event_rd (code : Nat) (ten : Option Nat) (pl : List Byte) (s : State) {k : Nat} (h : k ≠ Reg.STK_EVT_DROP_CNT)
    (hs : k ≠ Reg.STK_EVT_SEQ) : rd (event code ten pl s) k = rd s k := by
  have h1 : ∀ v, rd (wr Reg.STK_EVT_SEQ v s) k = rd s k := fun v => rd_wr_ne _ _ hs
  unfold event acceptEvent
  extract_lets e s1
  split
  · exact h1 _
  · exact (dropEvents_rd e _ s1 h).trans (h1 _)

theorem Refreshed.of_eq {s t : State} (ht : t.stk.trace = s.stk.trace) (hc : CoresAlike s t) (hr : t.hif = s.hif) (hg : t.regs = s.regs) :
    Refreshed s t := ⟨ht, hc, .of_rings (by rw [hr]), by rw [rd, rd, hg]⟩

theorem Refreshed.trans {s t u : State} (h : Refreshed s t) (k : Refreshed t u) : Refreshed s u :=
  ⟨k.trace.trans h.trace, h.cores.trans k.cores, h.rings.trans k.rings, k.lost.trans h.lost⟩

theorem event_refreshed (code : Nat) (ten : Option Nat) (pl : List Byte) (s : State) : Refreshed s (event code ten pl s) := by
  obtain ⟨l, h⟩ := event_stk code ten pl s
  exact ⟨by rw [h], event_cores code ten pl s, event_alike code ten pl s, event_rd code ten pl s (by decide) (by decide)⟩

theorem raiseIrq_refreshed (n b : Nat) (s : State) : Refreshed s (raiseIrq n b s) :=
  ⟨by rw [raiseIrq_stk], .of_cores (by rw [raiseIrq_stk]), raiseIrq_alike n b s, rd_raiseIrq n b s _⟩

/-- The shed level follows the queue's fill; where it falls, the cores that lost packets owe a GAP packet. -/
def shedSet (s : State) : State := { s with stk := { s.stk with shed := shedAt s.stk.trace.length } }

def shedTold (s : State) : State :=
  { shedSet s with stk := { (shedSet s).stk with cores := s.stk.cores.map fun c => (c.1, owing c.2), shedSince := 0 } }

theorem refreshShed_eq (s : State) : refreshShed s =
    if shedAt s.stk.trace.length < s.stk.shed then
      event 0x0703 none (le 1 (shedAt s.stk.trace.length) ++ le 4 s.stk.shedSince) (shedTold s)
    else if s.stk.shed = 0 ∧ 0 < shedAt s.stk.trace.length then raiseIrq pgStk 6 (shedSet s) else shedSet s := rfl

theorem refreshShed_refreshed (s : State) : Refreshed s (refreshShed s) := by
  have h1 : Refreshed s (shedSet s) := .of_eq rfl (.of_cores rfl) rfl rfl
  have h2 : Refreshed (shedSet s) (shedTold s) := .of_eq rfl (.owing (shedSet s) _ rfl) rfl rfl
  rw [refreshShed_eq]
  split
  · exact (h1.trans h2).trans (event_refreshed _ _ _ _)
  · split
    · exact h1.trans (raiseIrq_refreshed _ _ _)
    · exact h1

/-- The queue's front leaves it. -/
def tracePopped (rest : List TracePkt) (s : State) : State := refreshShed { s with stk := { s.stk with trace := rest } }

theorem tracePopped_refreshed (rest : List TracePkt) (s : State) :
    Refreshed { s with stk := { s.stk with trace := rest } } (tracePopped rest s) := refreshShed_refreshed _

theorem losePkt_lost (x : TracePkt) (s : State) :
    rn (losePkt x s) Reg.STK_TR_DROP_CNT = min 0xFFFFFFFF (rn s Reg.STK_TR_DROP_CNT + 1) := rn_inc_self _ _ _

theorem stookTraceWrite_off {x : TracePkt} {rest : List TracePkt} {s : State} (h : s.stk.trace = x :: rest)
    (hoff : rbit s Reg.STK_CTRL 1 = false) : stookTraceWrite s = tracePopped rest (losePkt x s) := by
  unfold stookTraceWrite
  rw [h]
  dsimp only
  rw [if_pos (by rw [hoff]; rfl)]
  rfl

/-- Trace may go on: its rings have room, and nothing is ahead of it (R501, R511). -/
structure TraceGoes (s : State) : Prop where
  on : rbit s Reg.STK_CTRL 1 = true
  rings : traceRings s ≠ []
  issue : canIssue s = true
  room : ∀ n ∈ traceRings s, canPost s n 1 = true
  first : ∀ e ∈ s.stk.staging, eventRings s e = []
  receipts : receiptsReady s = false
  bucket : bucketHolds s 64 = true

theorem stookTraceWrite_goes {x : TracePkt} {rest : List TracePkt} {s : State} (h : s.stk.trace = x :: rest) (hg : TraceGoes s) :
    stookTraceWrite s = (traceRings s).foldl (fun t n => postRecords n [x.record] t) (tracePopped rest (bucketGo s)) := by
  obtain ⟨on, rings, issue, room, first, receipts, bucket⟩ := hg
  have hroom : (traceRings s).any (fun n => !canPost s n 1) = false :=
    List.any_eq_false.mpr fun n hn => by rw [room n hn]; decide
  have hfirst : s.stk.staging.any (fun e => decide (eventRings s e ≠ [])) = false :=
    List.any_eq_false.mpr fun e he => by rw [first e he]; decide
  have hwait : ¬(traceRings s = [] ∨ !canIssue s ∨ (traceRings s).any (fun n => !canPost s n 1) ∨
      s.stk.staging.any (fun e => decide (eventRings s e ≠ [])) ∨ receiptsReady s) := by
    rw [hroom, hfirst, receipts, issue]
    simp [rings]
  unfold stookTraceWrite
  rw [h]
  dsimp only
  rw [if_neg (by rw [on]; decide), if_neg hwait, if_neg (by rw [bucket]; decide)]
  rfl

theorem postTrace_trace (x : TracePkt) (l : List Nat) (s : State) :
    (l.foldl (fun t n => postRecords n [x.record] t) s).stk.trace = s.stk.trace := by
  induction l generalizing s with
  | nil => rfl
  | cons n l ih => exact (ih _).trans (postRecords_written _ _ _).trace

/-! ## Sleeping cores (R512) -/

/-- The FIFOs and sleep of every core but for what losses tell: a packet queued, shed or told of as lost. -/
theorem queuePkt_cores (x : TracePkt) (s : State) : CoresAlike s (queuePkt x s) := by
  unfold queuePkt
  split
  · exact losePkt_cores x s
  · exact CoresAlike.trans (.of_cores rfl) (refreshShed_refreshed _).cores

theorem queueGap_cores (c : Nat) (s : State) : CoresAlike s (queueGap c s) := by
  unfold queueGap
  extract_lets x data g
  split
  · exact (CoresAlike.upd c (fun y => { y with seq := y.seq + 1, lost := [], owesGap := false }) (fun _ => ⟨rfl, rfl⟩) s).trans
      (queuePkt_cores g _)
  · exact .of_cores rfl

theorem queuePkts_cores (c : Nat) (l : List TracePkt) (s : State) :
    CoresAlike s (l.foldl (fun t p => queuePkt p (queueGap c t)) s) := by
  induction l generalizing s with
  | nil => exact .of_cores rfl
  | cons p l ih => exact ((queueGap_cores c s).trans (queuePkt_cores p _)).trans (ih _)

/-- A flushed FIFO is empty, and its core sleeps or wakes as before. -/
theorem coreFlush_core (c : Nat) (s : State) :
    (coreTrace (coreFlush c s) c).fifo = [] ∧ (coreTrace (coreFlush c s) c).asleep = (coreTrace s c).asleep := by
  have h := queuePkts_cores c (coreTrace s c).fifo (updCore c (fun y => { y with fifo := [] }) s) c
  rw [coreTrace_updCore_self] at h
  exact h

theorem coreEmit_asleep (c typ prio : Nat) (data : List Byte) (s : State) :
    (coreTrace (coreEmit c typ prio data s) c).asleep = (coreTrace s c).asleep := by
  unfold coreEmit
  extract_lets x p s1
  have h1 : (coreTrace s1 c).asleep = (coreTrace s c).asleep := by
    rw [coreTrace_updCore_self]
  split
  · rw [coreTrace_updCore_self]
    exact h1
  · rw [coreTrace_updCore_self]
    exact ((losePkt_cores p s1 c).2).trans h1

/-- A packet of a core whose FIFO has room. -/
def packet (c typ prio : Nat) (data : List Byte) (s : State) : TracePkt :=
  { typ := typ, core := c, prio := prio, seq := (coreTrace s c).seq, time := stamp s, data := data }

/-- A packet a core emits enters its FIFO. -/
def emitted (c typ prio : Nat) (data : List Byte) (s : State) : State :=
  updCore c (fun y => { y with fifo := y.fifo ++ [packet c typ prio data s] }) (updCore c (fun y => { y with seq := y.seq + 1 }) s)

theorem coreEmit_room {c : Nat} {s : State} (h : (coreTrace s c).fifo.length < 128) (typ prio : Nat) (data : List Byte) :
    coreEmit c typ prio data s = emitted c typ prio data s := by
  unfold coreEmit
  exact if_pos h

theorem emitted_core (c typ prio : Nat) (data : List Byte) (s : State) : coreTrace (emitted c typ prio data s) c =
    { coreTrace s c with seq := (coreTrace s c).seq + 1, fifo := (coreTrace s c).fifo ++ [packet c typ prio data s] } := by
  rw [emitted, coreTrace_updCore_self, coreTrace_updCore_self]

/-- The trace queue takes packets as they come: it sheds none, its fill is low, and the core owes no gap. -/
structure Taking (c k : Nat) (s : State) : Prop where
  on : rbit s Reg.STK_CTRL 1 = true
  shed : s.stk.shed = 0
  room : s.stk.trace.length + k ≤ 511
  clear : (coreTrace s c).owesGap = false

theorem shedAt_low {n : Nat} (h : n < 512) : shedAt n = 0 := if_pos h

theorem queuePkt_takes {c k : Nat} {s : State} (h : Taking c (k + 1) s) (x : TracePkt) :
    queuePkt x (queueGap c s) = { s with stk := { s.stk with trace := s.stk.trace ++ [x], shed := 0 } } := by
  obtain ⟨on, shed, room, clear⟩ := h
  have hgap : queueGap c s = s := by
    unfold queueGap
    dsimp only
    rw [if_neg fun hc => by rw [clear] at hc; exact absurd hc.1 (by decide)]
  have hq : queuePkt x s = refreshShed { s with stk := { s.stk with trace := s.stk.trace ++ [x] } } := by
    unfold queuePkt
    rw [if_neg]
    rw [on, shedAt_low (by omega)]
    have : ¬traceRoom ≤ s.stk.trace.length := by
      unfold traceRoom
      omega
    simp [sheds, this]
  rw [hgap, hq]
  unfold refreshShed
  dsimp only
  rw [shedAt_low (by rw [List.length_append, List.length_singleton]; omega), if_neg (by omega), if_neg (by omega)]

theorem Taking.next {c k : Nat} {s : State} (h : Taking c (k + 1) s) (x : TracePkt) :
    Taking c k { s with stk := { s.stk with trace := s.stk.trace ++ [x], shed := 0 } } := by
  obtain ⟨on, -, room, clear⟩ := h
  refine ⟨on, rfl, ?_, clear⟩
  show (s.stk.trace ++ [x]).length + k ≤ 511
  rw [List.length_append, List.length_singleton]
  omega

theorem queuePkts_take {c : Nat} (l : List TracePkt) {s : State} (h : Taking c l.length s) :
    (l.foldl (fun t p => queuePkt p (queueGap c t)) s).stk.trace = s.stk.trace ++ l := by
  induction l generalizing s with
  | nil => exact (List.append_nil _).symm
  | cons p l ih =>
    rw [List.foldl_cons, queuePkt_takes h p, ih (h.next p)]
    exact List.append_assoc _ _ _

/-- A wait of 1 ms for the bucket is told once (R514). -/
theorem throttleTimer_throttles {t w : Nat} {s : State} (hw : s.stk.waitSince = some w) (ht : s.stk.throttled = false) (hle : w + ms ≤ t) :
    throttleTimer t s = raiseIrq pgStk 7 { advanceTo t s with stk := { (advanceTo t s).stk with throttled := true } } := by
  unfold throttleTimer
  rw [hw]
  exact if_pos ⟨hle, ht⟩

/-- A core just woken. -/
def woken (c : Nat) (s : State) : State := updCore c (fun y => { y with asleep := false }) s

theorem woken_core (c : Nat) (s : State) : coreTrace (woken c s) c = { coreTrace s c with asleep := false } :=
  coreTrace_updCore_self _ _ _

/-- The packets of a wake stand in the FIFO of a core that had none. -/
def wakePackets (c : Nat) (data : List Byte) (s : State) : List TracePkt :=
  [{ typ := 5, core := c, prio := 0, seq := (coreTrace s c).seq, time := stamp s, data := [] },
   { typ := 3, core := c, prio := 0, seq := (coreTrace s c).seq + 1, time := stamp s, data := data }]

def wakeEmitted (c : Nat) (data : List Byte) (s : State) : State := emitted c 3 0 data (emitted c 5 0 [] (woken c s))

theorem wakeEmitted_core {c : Nat} {s : State} (hf : (coreTrace s c).fifo = []) (data : List Byte) :
    (coreTrace (wakeEmitted c data s) c).fifo = wakePackets c data s ∧
      (coreTrace (wakeEmitted c data s) c).owesGap = (coreTrace s c).owesGap := by
  rw [wakeEmitted, emitted_core, packet, emitted_core, packet, woken_core, hf]
  exact ⟨rfl, rfl⟩

theorem coreEmits_wake {c : Nat} {s : State} (hf : (coreTrace s c).fifo = []) (data : List Byte) :
    coreEmit c 3 0 data (coreEmit c 5 0 [] (woken c s)) = wakeEmitted c data s := by
  have h1 : (coreTrace (woken c s) c).fifo = [] := by rw [woken_core, hf]
  have h2 : (coreTrace (emitted c 5 0 [] (woken c s)) c).fifo.length = 1 := by
    rw [emitted_core, h1]
    rfl
  rw [coreEmit_room (s := woken c s) (by rw [h1]; decide), coreEmit_room (by rw [h2]; decide), wakeEmitted]

/-- What a change of a core's own trace leaves: the queue, its shed level and the registers. -/
structure QueueAlike (s t : State) : Prop where
  regs : t.regs = s.regs
  shed : t.stk.shed = s.stk.shed
  trace : t.stk.trace = s.stk.trace

theorem QueueAlike.trans {s t u : State} (h : QueueAlike s t) (k : QueueAlike t u) : QueueAlike s u :=
  ⟨k.regs.trans h.regs, k.shed.trans h.shed, k.trace.trans h.trace⟩

theorem updCore_queue (c : Nat) (f : CoreTrace → CoreTrace) (s : State) : QueueAlike s (updCore c f s) := ⟨rfl, rfl, rfl⟩

theorem emitted_queue (c typ prio : Nat) (data : List Byte) (s : State) : QueueAlike s (emitted c typ prio data s) :=
  (updCore_queue _ _ s).trans (updCore_queue _ _ _)

theorem wakeEmitted_queue (c : Nat) (data : List Byte) (s : State) : QueueAlike s (wakeEmitted c data s) :=
  ((updCore_queue _ _ s).trans (emitted_queue _ _ _ _ _)).trans (emitted_queue _ _ _ _ _)

/-- A core that wakes with nothing to tell of puts its WAKE and SYNC packets at the end of the queue (R512). -/
theorem coreWake_queues {c : Nat} {data : List Byte} {s : State} (ht : Taking c 2 s) (hf : (coreTrace s c).fifo = []) :
    (coreFlush c (coreEmit c 3 0 data (coreEmit c 5 0 [] (woken c s)))).stk.trace = s.stk.trace ++ wakePackets c data s := by
  obtain ⟨hfifo, hgap⟩ := wakeEmitted_core hf data
  obtain ⟨on, shed, room, clear⟩ := ht
  obtain ⟨qregs, qshed, qtrace⟩ := (wakeEmitted_queue c data s).trans (updCore_queue c (fun y => { y with fifo := [] }) _)
  have h : Taking c (wakePackets c data s).length (updCore c (fun y => { y with fifo := [] }) (wakeEmitted c data s)) := by
    refine ⟨?_, qshed.trans shed, ?_, ?_⟩
    · rw [rbit, rn, rd, qregs]
      exact on
    · rw [qtrace]
      exact room
    · rw [coreTrace_updCore_self]
      exact hgap.trans clear
  rw [coreEmits_wake hf, coreFlush, hfifo, queuePkts_take _ h, qtrace]

/-! ## The obligation -/

/-- Settles O51: what each writer does with what stands first, and what queueing and flushing leave of the cores. -/
theorem stookWriters : Obligations.StookWriters := by
  unfold Obligations.StookWriters
  refine ⟨?events, ?trace, ?throttle, ?sleep, ?wake⟩
  case events =>
    intro e rest s h
    refine next_at (execStookEventWrite_keeps s) (by decide) rfl ⟨stookEventWrite_unread h, fun hc hb => ?_⟩
    by_cases hr : eventRings s e = []
    · rw [stookEventWrite_unread h hr]
      exact ⟨rfl, fun n hn => absurd (hr.symm.trans hn) (by simp)⟩
    · rw [stookEventWrite_goes h hr hc hb]
      refine ⟨writeEvents_staging e _ _, fun n hn hg hp => ?_⟩
      have hif := eventPopped_hif e rest s
      have hring : ring (eventPopped e rest s) n = ring s n := ring_congr (by rw [hif]) n
      have hpost : canPost (eventPopped e rest s) n (eventRecords e).length = true := by
        rw [← hp, canPost, canPost, hring, canIssue, canIssue, hif]
      rw [hn, List.foldl_cons, List.foldl_nil, writeEvent_posts (by rw [hring, hg]) hpost, postRecords_pi, postRecords_entries, hring]
      exact ⟨rfl, rfl⟩
  case trace =>
    intro x rest s h
    refine next_at (execStookTraceWrite_keeps s) (by decide) rfl ⟨fun hoff => ?_, fun on rings issue room first receipts bucket => ?_⟩
    · have hp := tracePopped_refreshed rest (losePkt x s)
      rw [stookTraceWrite_off h hoff]
      exact ⟨hp.trace, by rw [rn_congr hp.lost]; exact losePkt_lost x s⟩
    · have hp := tracePopped_refreshed rest (bucketGo s)
      rw [stookTraceWrite_goes h ⟨on, rings, issue, room, first, receipts, bucket⟩]
      refine ⟨(postTrace_trace x _ _).trans hp.trace, fun n hn => ?_⟩
      have hring : RingsAlike s (tracePopped rest (bucketGo s)) := (RingsAlike.of_rings (by rw [bucketGo_hif])).trans hp.rings
      rw [hn, List.foldl_cons, List.foldl_nil, postRecords_pi, postRecords_entries, hring.field (·.pi) (fun _ => rfl),
        hring.field (·.entries) (fun _ => rfl)]
      exact ⟨rfl, rfl⟩
  case throttle =>
    intro u w s hw ht hle
    refine next_at (execStookThrottleTimer_keeps u s) (by decide) rfl ?_
    rw [throttleTimer_throttles hw ht hle]
    exact ⟨by rw [raiseIrq_stk], raiseIrq_raw (by decide) _⟩
  case sleep =>
    intro core s ha
    refine next_at (execCoreSleep_keeps core s) (by decide) (congrArg Host.Outcome.next (if_neg (by rw [ha]; decide))) ?_
    rw [coreTrace_updCore_self]
    exact ⟨rfl, (coreFlush_core core.val _).1⟩
  case wake =>
    intro core ctx pc s ha
    refine next_at (execCoreWake_keeps core ctx pc s) (by decide) (congrArg Host.Outcome.next (if_pos ha)) ?_
    refine ⟨?_, (coreFlush_core core.val _).1, fun hfifo hgap hshed hroom hon => ?_⟩
    · rw [(coreFlush_core core.val _).2, coreEmit_asleep, coreEmit_asleep, coreTrace_updCore_self]
    · exact coreWake_queues ⟨hon, hshed, hroom, hgap⟩ hfifo

end Sys2Proof.Machine
end

section
/-! SUPPORT. The proofs of what each kind of reset leaves (O52). -/

namespace Sys2Proof.Machine
open Sys2Proof

/-! ## What the interrupted record leaves of Sagger, alarms and tenants (R495, R534) -/

/-- Sagger's standing, the alarm store and the tenants' accounts are as they were. -/
structure AccountsKept (s t : State) : Prop where
  halted : t.sag.halted = s.sag.halted
  ready : t.sag.ready = s.sag.ready
  alarms : t.stk.alarms = s.stk.alarms

theorem AccountsKept.of_eq {s t : State} (h : t.sag.halted = s.sag.halted) (r : t.sag.ready = s.sag.ready) (a : t.stk = s.stk) :
    AccountsKept s t := ⟨h, r, by rw [a]⟩

theorem AccountsKept.refl (s : State) : AccountsKept s s := ⟨rfl, rfl, rfl⟩

theorem AccountsKept.trans {s t u : State} (h : AccountsKept s t) (k : AccountsKept t u) : AccountsKept s u :=
  ⟨k.halted.trans h.halted, k.ready.trans h.ready, k.alarms.trans h.alarms⟩

theorem AccountsKept.after {s t u : State} (k : AccountsKept t u) (h : AccountsKept s t) : AccountsKept s u := h.trans k

theorem AccountsKept.of_keeps {ps : List Part} {s t : State} (k : Keeps ps s t) (h : Part.fuses ∉ ps ∧ Part.sag ∉ ps) (hs : Part.stk ∉ ps) :
    AccountsKept s t := by
  have e : t.sag = s.sag := sag_of_only (k.only .fuses h.1) (k.only .sag h.2)
  exact ⟨by rw [e], by rw [e], by rw [show t.stk = s.stk from k.only .stk hs]⟩

theorem AccountsKept.foldl {α : Type} {f : State → α → State} (hf : ∀ s x, AccountsKept s (f s x)) (l : List α) (s : State) :
    AccountsKept s (l.foldl f s) := by
  induction l generalizing s with
  | nil => exact .refl s
  | cons a l ih => exact (hf s a).trans (ih _)

theorem updSag_accounts (t : Nat) (f : SagTenant → SagTenant) (s : State) : AccountsKept s (updSag t f s) := ⟨rfl, rfl, rfl⟩

theorem updCopy_accounts (c : Nat) (f : Copy → Copy) (s : State) : AccountsKept s (updCopy c f s) := ⟨rfl, rfl, rfl⟩

theorem discardWork_accounts (c : Nat) (s : State) : AccountsKept s (discardWork c s) := ⟨rfl, rfl, rfl⟩

theorem persist_accounts (t : Nat) (c b : Option Nat) (s : State) : AccountsKept s (persist t c b s) :=
  .of_keeps (persist_keeps t c b s (fun _ q => q) (Keeps.refl _ s)) (by decide) (by decide)

theorem event_accounts (code : Nat) (ten : Option Nat) (pl : List Byte) (s : State) : AccountsKept s (event code ten pl s) := by
  have k := event_keeps code ten pl s (fun _ q => q) (Keeps.refl _ s)
  have e : (event code ten pl s).sag = s.sag := sag_of_only (k.only .fuses (by decide)) (k.only .sag (by decide))
  obtain ⟨l, hl⟩ := event_stk code ten pl s
  exact ⟨by rw [e], by rw [e], by rw [hl]⟩

theorem writeCeiling_accounts (t : Nat) (c : Word) (s : State) : AccountsKept s (writeCeiling t c s) := by
  unfold writeCeiling
  split
  · exact updSag_accounts _ _ _
  · split
    · exact (updSag_accounts t _ s).trans (persist_accounts _ _ _ _)
    · exact .refl s

theorem ceilingCheck_accounts (t : Nat) (s : State) : AccountsKept s (ceilingCheck t s) := by
  unfold ceilingCheck
  extract_lets x c
  split
  · exact writeCeiling_accounts _ _ _
  · exact .refl s

theorem closeBatch_accounts (t : Nat) (s : State) : AccountsKept s (closeBatch t s) := by
  unfold closeBatch
  extract_lets x hd hash sig block n s1 b
  split
  · exact .refl s
  · have h1 : AccountsKept s s1 := (updSag_accounts t _ sig.2).after (.of_eq rfl rfl rfl)
    exact AccountsKept.after (persist_accounts _ _ _ _) (h1.trans (.of_eq rfl rfl rfl))

theorem appendReceipt_accounts (t : Nat) (slot : Bool) (body : Nat → List Byte) (s : State) :
    AccountsKept s (appendReceipt t slot body s) := by
  unfold appendReceipt
  extract_lets x first seq s1 s2
  have h1 : AccountsKept s s1 := by
    unfold s1
    split
    · split
      · exact event_accounts _ _ _ _
      · exact .refl s
    · exact .refl s
  have h2 : AccountsKept s s2 := h1.trans (updSag_accounts t _ s1)
  split
  · exact h2.trans (closeBatch_accounts _ _)
  · exact h2

theorem dropCopy_accounts (c : Nat) (s : State) :
    AccountsKept s (discardWork c { s with jobs := { s.jobs with copies := s.jobs.copies.filter (·.seq ≠ c) } }) :=
  (discardWork_accounts c _).after (.of_eq rfl rfl rfl)

theorem sealCopy_accounts (c : Nat) (s : State) : AccountsKept s (sealCopy c s) := by
  unfold sealCopy
  split
  · next x _ =>
    dsimp only
    split
    · exact .refl s
    · generalize receiptRecord _ _ _ _ _ _ _ _ _ _ _ _ _ _ _ _ _ = body
      generalize h2 : (if decide (x.state = .voided) = true then _ else _ : State) = s2
      have e2 : AccountsKept s s2 := by
        rw [← h2]
        split
        · exact updCopy_accounts c _ s
        · exact (updSag_accounts _ _ _).after (updCopy_accounts c _ s)
      have e3 := e2.trans (appendReceipt_accounts x.tenant true body s2)
      generalize appendReceipt x.tenant true body s2 = s3 at e3
      have e4 := e3.trans (dropCopy_accounts c s3)
      split
      · exact e3
      · split
        · exact e4
        · exact e4.trans (closeBatch_accounts _ _)
  · exact .refl s

theorem sealVoid_accounts (c : Nat) (s : State) : AccountsKept s (sealVoid c s) := by
  unfold sealVoid
  split
  · split
    · exact (updCopy_accounts c _ s).trans (sealCopy_accounts c _)
    · exact .refl s
  · exact .refl s

theorem voidCopy_accounts (c : Nat) (corrupt : Bool) (s : State) : AccountsKept s (voidCopy c corrupt s) := by
  unfold voidCopy
  split
  · split
    · extract_lets s1 s2 ds
      have h2 : AccountsKept s s2 := (updCopy_accounts c _ s).trans (.of_eq rfl rfl rfl)
      exact (sealVoid_accounts c _).after ((discardWork_accounts c _).after (h2.trans (.of_eq rfl rfl rfl)))
    · exact .refl s
  · exact .refl s

theorem readyCopy_accounts (c : Nat) (s : State) : AccountsKept s (readyCopy c s) := by
  unfold readyCopy
  split
  · split
    · extract_lets s1 below
      have h1 : AccountsKept s s1 := ceilingCheck_accounts _ s
      split
      · exact h1.trans (updCopy_accounts _ _ _)
      · exact h1
    · exact .refl s
  · exact .refl s

theorem refreshReady_accounts (s : State) : AccountsKept s (refreshReady s) :=
  (AccountsKept.foldl (fun s c => sealVoid_accounts c s) _ s).trans (AccountsKept.foldl (fun s c => readyCopy_accounts c s) _ _)

/-! The tenants' accounts: only a commit charges, only QUOTA_GRANT grants. -/

theorem readyCopy_tenants (c : Nat) (s : State) : (readyCopy c s).jobs.tenants = s.jobs.tenants := by
  unfold readyCopy
  split
  · split
    · extract_lets s1 below
      have h1 : s1.jobs.tenants = s.jobs.tenants := by rw [ceilingCheck_jobs]
      split
      · exact h1
      · exact h1
    · rfl
  · rfl

theorem foldl_tenants {α : Type} {f : State → α → State} (hf : ∀ s x, (f s x).jobs.tenants = s.jobs.tenants) (l : List α) (s : State) :
    (l.foldl f s).jobs.tenants = s.jobs.tenants := by
  induction l generalizing s with
  | nil => rfl
  | cons a l ih => exact (ih _).trans (hf s a)

theorem refreshReady_tenants (s : State) : (refreshReady s).jobs.tenants = s.jobs.tenants :=
  (foldl_tenants (fun s c => readyCopy_tenants c s) _ _).trans (foldl_tenants (fun s c => (sealVoid_only c s).1.tenants) _ s)

/-- Accounts and tenants together. -/
structure StandingKept (s t : State) : Prop where
  accounts : AccountsKept s t
  tenants : t.jobs.tenants = s.jobs.tenants

theorem StandingKept.refl (s : State) : StandingKept s s := ⟨.refl s, rfl⟩

theorem StandingKept.trans {s t u : State} (h : StandingKept s t) (k : StandingKept t u) : StandingKept s u :=
  ⟨h.accounts.trans k.accounts, k.tenants.trans h.tenants⟩

theorem StandingKept.after {s t u : State} (k : StandingKept t u) (h : StandingKept s t) : StandingKept s u := h.trans k

theorem StandingKept.of_eq {s t : State} (h : t.sag = s.sag) (a : t.stk = s.stk) (j : t.jobs = s.jobs) : StandingKept s t :=
  ⟨.of_eq (by rw [h]) (by rw [h]) a, by rw [j]⟩

theorem StandingKept.of_keeps {ps : List Part} {s t : State} (k : Keeps ps s t) (h : Part.fuses ∉ ps ∧ Part.sag ∉ ps) (hs : Part.stk ∉ ps)
    (hj : Part.jobs ∉ ps) : StandingKept s t :=
  ⟨.of_keeps k h hs, by rw [show t.jobs = s.jobs from k.only .jobs hj]⟩

theorem saggerStored_standing (d : SagRec) (batch : Option Nat) (s : State) : StandingKept s (saggerStored d batch s) := by
  unfold saggerStored
  extract_lets s1 bs
  have h1 : StandingKept s s1 := ⟨updSag_accounts _ _ _, rfl⟩
  have h2 : StandingKept s1 { s1 with sag := { s1.sag with batches := bs } } := ⟨.of_eq rfl rfl rfl, rfl⟩
  exact (h1.trans h2).trans ⟨refreshReady_accounts _, refreshReady_tenants _⟩

theorem appendRecord_standing (b : CrkBody) (s : State) : StandingKept s (appendRecord b s) := .of_eq rfl rfl rfl

theorem cutRecord_standing (completed : Bool) (s : State) : StandingKept s (cutRecord completed s) := by
  unfold cutRecord
  split
  · exact .refl s
  · split
    · extract_lets s1
      have h1 : StandingKept s s1 := appendRecord_standing _ s
      split
      · exact h1.trans (saggerStored_standing _ _ _)
      · exact h1.trans (.of_eq rfl rfl rfl)
      · exact h1
    · exact .of_eq rfl rfl rfl

theorem cutSnapshot_standing (s : State) : StandingKept s (cutSnapshot s) :=
  .of_keeps (cutSnapshot_keeps s (fun _ q => q) (Keeps.refl _ s)) (by decide) (by decide) (by decide)

theorem graceEnd_standing (completed : Bool) (s : State) : StandingKept s (graceEnd completed s) := by
  unfold graceEnd
  split
  · extract_lets n lost s1
    have h1 : StandingKept s s1 := by
      unfold s1
      split
      · exact cutRecord_standing _ s
      · exact .refl s
    exact h1.trans (.of_eq rfl rfl rfl)
  · exact .refl s

theorem draw_standing (w : Nat) (s : State) : StandingKept s (draw w s).2 := .of_eq rfl rfl rfl

theorem crkInterrupt_standing (cut : Bool) (s : State) : StandingKept s (crkInterrupt cut s) := by
  unfold crkInterrupt
  split
  · exact (draw_standing 1 s).trans (graceEnd_standing _ _)
  · split
    · exact cutSnapshot_standing s
    · have h := (cutSnapshot_standing s).trans (draw_standing 2 _)
      dsimp only
      split
      · exact h
      · exact h.trans (cutRecord_standing _ _)

/-! ## Units at rest (R534) -/

theorem tget_map {α : Type} (f : α → α) (l : Tab α) (d : α) (k : Nat) (hd : f d = d) : tget (l.map fun e => (e.1, f e.2)) d k = f (tget l d k) := by
  rw [tget, tget, tfind_map]
  cases tfind l k with
  | none => exact hd.symm
  | some x => rfl

/-- What every reset's clearing leaves. -/
theorem clearUnits_atRest (keeps : RstClass → Bool) (s : State) : AtRest (clearUnits keeps s) := by
  refine ⟨rfl, rfl, rfl, fun _ => rfl, fun i => ?_, fun h => ?_, fun _ => rfl, fun _ => rfl, fun i => ?_⟩
  · exact congrArg Tenant.state (tget_map keepTenant s.jobs.tenants Tenant.init i rfl)
  · have e : port (clearUnits keeps s) h = keepPort (port s h) := tget_map keepPort s.ports Port.init h rfl
    rw [e]
    exact ⟨rfl, rfl⟩
  · exact congrArg SagTenant.key (tget_map (fun x => { x with key := none, ceilNext := none }) s.sag.tenants SagTenant.init i rfl)

theorem clearUnits_tenant (keeps : RstClass → Bool) (s : State) (i : Nat) : tenant (clearUnits keeps s) i = keepTenant (tenant s i) :=
  tget_map keepTenant s.jobs.tenants Tenant.init i rfl

/-- What else Rests depends on. -/
theorem AtRest.congr {s t : State} (h : AtRest s) (hf : t.fw = s.fw) (hr : t.hif.rings = s.hif.rings) (hj : t.jobs.tenants = s.jobs.tenants ∨ t.jobs.tenants = [])
    (hp : t.ports = s.ports) (hk : t.kln.planes = s.kln.planes) (hm : t.mot = s.mot) (hs : t.sag.tenants = s.sag.tenants ∨ t.sag.tenants = []) :
    AtRest t := by
  obtain ⟨parked, held, ready, rings, tenants, ports, planes, axes, keys⟩ := h
  refine ⟨by rw [hf, parked], by rw [hf, held], by rw [hf, ready], fun n => ?_, fun i => ?_, fun g => ?_, fun p => ?_, fun a => ?_, fun i => ?_⟩
  · rw [ring, hr]
    exact rings n
  · rcases hj with hj | hj
    · rw [tenant, hj]
      exact tenants i
    · rw [tenant, hj]
      rfl
  · rw [port, hp]
    exact ports g
  · rw [plane, hk]
    exact planes p
  · rw [axis, hm]
    exact axes a
  · rcases hs with hs | hs
    · rw [sagTenant, hs]
      exact keys i
    · rw [sagTenant, hs]
      rfl

/-! ## The start of a boot (R530, R531) -/

/-- The state a reset of a kind leaves before its cause. -/
def bootCleared (k : RstKind) (u : State) : State :=
  let s1 := clearUnits k.keeps (crkLose u)
  match k with
  | .por => zeroSagger { s1 with
      sag := { s1.sag with halted := false, failCode := 0, stage := 0, signerGone := false, faultTimes := [] },
      thm := { State.reset.thm with shutdown := s1.thm.shutdown } }
  | .pin => { s1 with
      sag := { s1.sag with halted := false, failCode := 0, stage := 0, signerGone := false, faultTimes := [] },
      thm := { s1.thm with atrip := false } }
  | .deepExit => zeroSagger s1
  | .sagFault | .host => s1

theorem startBoot_governs {k : RstKind} {s : State} (h : Governs k s) (cause : Nat) (cut : Bool) :
    startBoot k cause cut s = wn Reg.GLB_RST_CAUSE cause
      { bootCleared k (crkInterrupt cut s) with pwr := { (bootCleared k (crkInterrupt cut s)).pwr with boot := some k } } := by
  unfold startBoot bootCleared
  generalize crkInterrupt cut s = u
  cases hb : s.pwr.boot with
  | none => cases k <;> rfl
  | some k0 =>
    dsimp only
    rw [decide_eq_false (Nat.not_lt.mpr (h k0 hb))]
    cases k <;> rfl

theorem bootCleared_atRest (k : RstKind) (u : State) : AtRest (bootCleared k u) := by
  have h := clearUnits_atRest k.keeps (crkLose u)
  cases k with
  | por => exact h.congr rfl rfl (.inr rfl) rfl rfl rfl (.inr rfl)
  | pin => exact h.congr rfl rfl (.inl rfl) rfl rfl rfl (.inl rfl)
  | sagFault => exact h
  | host => exact h
  | deepExit => exact h.congr rfl rfl (.inr rfl) rfl rfl rfl (.inr rfl)

theorem bootCleared_run (k : RstKind) (u : State) : (bootCleared k u).pwr.state = .run := by
  cases k <;> rfl

theorem startBoot_rebooting {k : RstKind} {s : State} (h : Governs k s) {cause : Nat} (hc : cause < 2 ^ 32) (cut : Bool) :
    Rebooting k cause (startBoot k cause cut s) := by
  rw [startBoot_governs h]
  refine ⟨(bootCleared_atRest k _).congr rfl rfl (.inl rfl) rfl rfl rfl (.inl rfl), rfl, bootCleared_run k _, ?_⟩
  rw [rn_wn_self, Nat.mod_eq_of_lt hc]

theorem Governs.of_pwr {k : RstKind} {s t : State} (h : Governs k s) (hp : t.pwr = s.pwr) : Governs k t := fun k' hk =>
  h k' (by rw [← hp, hk])

theorem Rebooting.wn {k : RstKind} {cause : Nat} {t : State} (h : Rebooting k cause t) {r : Nat} (v : Nat) (hr : Reg.GLB_RST_CAUSE ≠ r) :
    Rebooting k cause (wn r v t) := by
  obtain ⟨rest, boot, run, cause⟩ := h
  exact ⟨rest, boot, run, by rw [rn_wn_ne _ _ hr, cause]⟩

/-- What a kind of reset that keeps class N leaves of the alarm store, the fuses, Sagger's halt and the tenants' accounts. -/
structure ClassNKept (s t : State) : Prop where
  alarms : t.stk.alarms = s.stk.alarms
  fuses : t.sag.fuses = s.sag.fuses
  halted : t.sag.halted = s.sag.halted
  accounts : ∀ i, (tenant t i).grant = (tenant s i).grant ∧ (tenant t i).charged = (tenant s i).charged

theorem clearUnits_classN {keeps : RstClass → Bool} (hn : keeps .n = true) (s : State) : ClassNKept s (clearUnits keeps s) :=
  ⟨if_pos hn, rfl, rfl, fun i => by rw [clearUnits_tenant]; exact ⟨rfl, rfl⟩⟩

theorem ClassNKept.of_standing {s u t : State} (h : StandingKept s u) (hf : u.sag.fuses = s.sag.fuses) (k : ClassNKept u t) : ClassNKept s t := by
  obtain ⟨⟨halted, -, alarms⟩, tenants⟩ := h
  obtain ⟨kalarms, kfuses, khalted, kaccounts⟩ := k
  have ht : ∀ i, tenant u i = tenant s i := fun i => by rw [tenant, tenant, tenants]
  exact ⟨kalarms.trans alarms, kfuses.trans hf, khalted.trans halted, fun i => by rw [← ht]; exact kaccounts i⟩

theorem crkInterrupt_fuses' (cut : Bool) (s : State) : (crkInterrupt cut s).sag.fuses = s.sag.fuses :=
  (crkInterrupt_keeps cut s (fun _ q => q) (Keeps.refl _ s)).fuses (by decide)

theorem bootCleared_classN {k : RstKind} (hk : k = .host ∨ k = .sagFault) (cut : Bool) (s : State) :
    ClassNKept s (bootCleared k (crkInterrupt cut s)) := by
  have h : ∀ u : State, ClassNKept u (clearUnits (RstKind.keeps .host) (crkLose u)) := fun u =>
    .of_standing (u := crkLose u) (.of_eq rfl rfl rfl) rfl (clearUnits_classN (keeps := RstKind.keeps .host) rfl (crkLose u))
  refine .of_standing (crkInterrupt_standing cut s) (crkInterrupt_fuses' cut s) ?_
  rcases hk with rfl | rfl
  · exact h _
  · exact h _

theorem tfind_filter_kept {α : Type} {p : Nat × α → Bool} {k : Nat} (hp : ∀ v, p (k, v) = true) (l : Tab α) :
    tfind (l.filter p) k = tfind l k := by
  induction l with
  | nil => rfl
  | cons e l ih =>
    obtain ⟨j, v⟩ := e
    by_cases hj : j = k
    · subst hj
      rw [List.filter_cons_of_pos (hp v)]
      simp [tfind]
    · by_cases h : p (j, v) = true
      · rw [List.filter_cons_of_pos h]
        simp [tfind, hj, ih]
      · rw [List.filter_cons_of_neg h, ih]
        simp [tfind, hj]

/-- A register of a class that is kept reads as before. -/
theorem rd_clearUnits {keeps : RstClass → Bool} {k : Nat} {r : RegDef} (hd : regDef (keyAddr k) = some r) (hr : keeps r.cls = true) (s : State) :
    rd (clearUnits keeps s) k = rd s k := by
  have h : tfind (keepRegs keeps s.regs.act) k = tfind s.regs.act k := tfind_filter_kept (fun v => by rw [hd]; exact hr) _
  unfold rd
  rw [show (clearUnits keeps s).regs.act = keepRegs keeps s.regs.act from rfl, h]

/-! ## SAG_FAULT (R451, R452) -/

theorem sagFaultCnt_kept : ∃ r, regDef (keyAddr Reg.SAG_FAULT_CNT) = some r ∧ r.cls = .n := by decide

theorem sagFaultCnt_boot (cut : Bool) (s : State) :
    rn (bootCleared .sagFault (crkInterrupt cut s)) Reg.SAG_FAULT_CNT = rn s Reg.SAG_FAULT_CNT := by
  obtain ⟨r, hd, hc⟩ := sagFaultCnt_kept
  have h1 := rd_clearUnits (keeps := RstKind.keeps .sagFault) hd (by rw [hc]; rfl) (crkLose (crkInterrupt cut s))
  have h2 := (crkInterrupt_keeps cut s (fun _ q => q) (Keeps.refl _ s)).rn (k := Reg.SAG_FAULT_CNT) (by decide)
  exact (rn_congr h1).trans h2

theorem acceptEvent_alarms (code : Nat) (alarm commit : Bool) (ten : Option Nat) (pl : List Byte) (s : State) :
    (acceptEvent code alarm commit ten pl s).stk.alarms = s.stk.alarms := by
  unfold acceptEvent
  extract_lets e s1
  split
  · rfl
  · rw [dropEvents_stk]
    rfl

/-- A raised alarm stands latched (R507). -/
theorem raiseAlarm_latched (i : Nat) (ten : Option Nat) (pl : List Byte) (s : State) :
    (tfind (raiseAlarm i ten pl s).stk.alarms i).isSome = true := by
  unfold raiseAlarm
  extract_lets t d s1
  split
  · rw [acceptEvent_alarms, raiseIrq_stk]
    exact congrArg Option.isSome (tfind_tput_self _ _ _)
  · rw [acceptEvent_alarms]
    exact congrArg Option.isSome (tfind_tput_self _ _ _)

/-- The instants of SAG_FAULTs within the last second, this one among them. -/
def faultTimes (s : State) : List Nat :=
  (s.clock.uptime :: s.sag.faultTimes).filter fun t => decide (s.clock.uptime - t ≤ 1000 * ms)

theorem faultTimes_length (s : State) :
    (faultTimes s).length = (s.sag.faultTimes.filter fun u => decide (s.clock.uptime - u ≤ 1000 * ms)).length + 1 := by
  rw [faultTimes, List.filter_cons_of_pos (by rw [Nat.sub_self]; exact decide_eq_true (Nat.zero_le _)), List.length_cons]

/-- A SAG_FAULT is told and counted before its reset. -/
def faultTold (cause : Nat) (s : State) : State :=
  let s1 := inc Reg.SAG_FAULT_CNT 1 (raiseAlarm 8 none (le 1 cause) s)
  { s1 with sag := { s1.sag with faultTimes := faultTimes s } }

theorem raiseAlarm_sag (i : Nat) (ten : Option Nat) (pl : List Byte) (s : State) : (raiseAlarm i ten pl s).sag = s.sag :=
  sag_of_only ((raiseAlarm_only i ten pl s).only .fuses (by decide)) ((raiseAlarm_only i ten pl s).only .sag (by decide))

theorem faultTold_halted (cause : Nat) (s : State) : (faultTold cause s).sag.halted = s.sag.halted := by
  show (raiseAlarm 8 none (le 1 cause) s).sag.halted = _
  rw [raiseAlarm_sag]

theorem faultTold_pwr (cause : Nat) (s : State) : (faultTold cause s).pwr = s.pwr :=
  (raiseAlarm_only 8 none (le 1 cause) s).only .pwr (by decide)

theorem faultTold_cnt (cause : Nat) (s : State) :
    rn (faultTold cause s) Reg.SAG_FAULT_CNT = min 0xFFFFFFFF (rn s Reg.SAG_FAULT_CNT + 1) := by
  have h := (raiseAlarm_only 8 none (le 1 cause) s).rn (k := Reg.SAG_FAULT_CNT) (by decide)
  rw [← h]
  exact rn_inc_self _ _ _

/-- Sagger halts at the third fault of n within a second. -/
def faultHalted (n : Nat) (s : State) : State :=
  if 3 ≤ n then { s with sag := { s.sag with halted := true, failCode := 5, stage := 0xFF } } else s

theorem sagFault_faults {cause : Nat} {s : State} (hc : clocked s = true) (hh : s.sag.halted = false) :
    sagFault cause s = faultHalted (faultTimes s).length (startBoot .sagFault 7 false (faultTold cause s)) := by
  unfold sagFault faultHalted
  rw [hc, hh]
  rfl

theorem faultHalted_halted (n : Nat) (s : State) : (faultHalted n s).sag.halted = (decide (3 ≤ n) || s.sag.halted) := by
  unfold faultHalted
  split
  · next h => rw [decide_eq_true h, Bool.true_or]
  · next h => rw [decide_eq_false h, Bool.false_or]

/-- What a halt of Sagger leaves. -/
theorem faultHalted_leaves (n : Nat) (s : State) : (faultHalted n s).regs = s.regs ∧ (faultHalted n s).stk = s.stk := by
  unfold faultHalted
  split
  · exact ⟨rfl, rfl⟩
  · exact ⟨rfl, rfl⟩

theorem Rebooting.halt {k : RstKind} {cause : Nat} {t : State} (h : Rebooting k cause t) (n : Nat) : Rebooting k cause (faultHalted n t) := by
  unfold faultHalted
  split
  · obtain ⟨rest, boot, run, cause⟩ := h
    exact ⟨rest.congr rfl rfl (.inl rfl) rfl rfl rfl (.inl rfl), boot, run, cause⟩
  · exact h

/-- What a SAG_FAULT leaves (R451, R452). -/
structure Faulted (s t : State) : Prop where
  reboots : Rebooting .sagFault 7 t
  count : rn t Reg.SAG_FAULT_CNT = min 0xFFFFFFFF (rn s Reg.SAG_FAULT_CNT + 1)
  alarm : (tfind t.stk.alarms 8).isSome = true
  halted : t.sag.halted = decide (3 ≤ (faultTimes s).length)

theorem sagFault_faulted {cause : Nat} {s : State} (hc : clocked s = true) (hh : s.sag.halted = false) (hg : Governs .sagFault s) :
    Faulted s (sagFault cause s) := by
  have hg' : Governs .sagFault (faultTold cause s) := hg.of_pwr (faultTold_pwr cause s)
  have hn := bootCleared_classN (.inr rfl) false (faultTold cause s)
  have hb := startBoot_governs hg' 7 false
  obtain ⟨hregs, hstk⟩ := faultHalted_leaves (faultTimes s).length (startBoot .sagFault 7 false (faultTold cause s))
  rw [sagFault_faults hc hh]
  refine ⟨(startBoot_rebooting hg' (by decide) false).halt _, ?_, ?_, ?_⟩
  · rw [rn, rd, hregs, ← rd, ← rn, hb, rn_wn_ne _ _ (by decide), ← faultTold_cnt cause s]
    exact sagFaultCnt_boot false (faultTold cause s)
  · rw [hstk, hb]
    refine (congrArg (fun a => (tfind a 8).isSome) hn.alarms).trans ?_
    exact raiseAlarm_latched 8 none (le 1 cause) s
  · rw [faultHalted_halted, hb]
    have h : (bootCleared .sagFault (crkInterrupt false (faultTold cause s))).sag.halted = false :=
      hn.halted.trans ((faultTold_halted cause s).trans hh)
    exact (congrArg (fun b => decide (3 ≤ (faultTimes s).length) || b) h).trans (Bool.or_false _)

/-! ## FLR (R532) -/

/-- The copies are accounted for, the heads off and Tally's usage remembered. -/
def flrAccounted (s : State) : State :=
  let s1 := (copyOrder s fun c => decide (c.state ≠ .sealed)).foldl (fun t c => flrCopy c t) s
  let s2 := ((List.range 64).filter fun h => (port s1 h).pwren).foldl (fun t h => headOff h t) s1
  (tlyEnabled s2).foldl (fun t i => rememberUsage i t) s2

theorem flrAccounted_keeps (s : State) :
    Keeps [.crk, .free, .glz, .jobs, .kln, .msix, .out, .reg .stk, .rings, .sag, .stk, .thr, .ports, .tly] s (flrAccounted s) := by
  unfold flrAccounted
  extract_lets s1 s2
  have h1 : Keeps [.crk, .free, .glz, .jobs, .kln, .msix, .out, .reg .stk, .rings, .sag, .stk, .thr, .ports, .tly] s s1 :=
    Keeps.foldl (fun _ _ k => flrCopy_keeps _ _ (by decide) k) (Keeps.refl _ s)
  have h2 := Keeps.foldl (l := (List.range 64).filter fun h => (port s1 h).pwren) (fun t h k => headOff_keeps h t (by decide) k) h1
  exact Keeps.foldl (fun _ _ k => rememberUsage_keeps _ _ (by decide) k) h2

theorem flrCopy_accounts (c : Nat) (s : State) : AccountsKept s (flrCopy c s) := by
  unfold flrCopy
  split
  · split
    · exact voidCopy_accounts _ _ _
    · exact voidCopy_accounts _ _ _
    · exact (sealCopy_accounts c _).after (updCopy_accounts c _ s)
    · exact (sealCopy_accounts c _).after (updCopy_accounts c _ s)
    · exact sealCopy_accounts c s
    · exact sealVoid_accounts c s
    · exact .refl s
  · exact .refl s

theorem headOff_accounts (h : Nat) (s : State) : AccountsKept s (headOff h s) :=
  .of_keeps (headOff_keeps h s (fun _ q => q) (Keeps.refl _ s)) (by decide) (by decide)

theorem rememberUsage_accounts (i : Nat) (s : State) : AccountsKept s (rememberUsage i s) :=
  .of_keeps (rememberUsage_keeps i s (fun _ q => q) (Keeps.refl _ s)) (by decide) (by decide)

theorem flrAccounted_accounts (s : State) : AccountsKept s (flrAccounted s) :=
  ((AccountsKept.foldl (fun t c => flrCopy_accounts c t) _ s).trans (AccountsKept.foldl (fun t h => headOff_accounts h t) _ _)).trans
    (AccountsKept.foldl (fun t i => rememberUsage_accounts i t) _ _)

/-- What an FLR leaves of the state its accounting left. -/
structure FlrLeft (u t : State) : Prop where
  rest : AtRest t
  boot : t.pwr.boot = none
  run : t.pwr.state = .run
  cause : rn t Reg.GLB_RST_CAUSE = 9
  ready : t.sag.ready = u.sag.ready
  linkSpeed : t.hif.linkSpeed = u.hif.linkSpeed
  linkWidth : t.hif.linkWidth = u.hif.linkWidth
  dlUp : t.hif.dlUp = u.hif.dlUp
  jobs : ∀ x ∈ t.jobs.jobs, x.tenant = 0
  templates : ∀ x ∈ t.jobs.templates, x.tenant = 0
  streams : ∀ x ∈ t.jobs.streams, x.tenant = 0

theorem flrStream_tenant (x : Stream) : (flrStream x).tenant = x.tenant := by
  unfold flrStream
  split
  · rfl
  · rfl

theorem flr_left {s : State} (hc : clocked s = true) (hb : s.pwr.boot = none) : FlrLeft (flrAccounted s) (flr s) := by
  have hn : (!clocked s || s.pwr.boot.isSome) = false := by
    rw [hc, hb]
    rfl
  have hstat : Reg.GLB_RST_CAUSE ≠ Reg.HIF_STAT := by decide
  unfold flr flrAccounted
  rw [hn]
  dsimp only
  generalize List.foldl (fun t i => rememberUsage i t) _ _ = u
  have hz := clearUnits_atRest (fun c => decide (c = .p) || decide (c = .n)) u
  refine ⟨hz.congr rfl rfl (.inl rfl) rfl rfl rfl (.inl rfl), rfl, rfl, ?_, rfl, rfl, rfl, rfl, fun x hx => ?_, fun x hx => ?_, fun x hx => ?_⟩
  · exact (rn_wf_ne _ _ _ _ hstat).trans (rn_wn_self _ 9 _)
  · exact of_decide_eq_true (List.mem_filter.mp hx).2
  · exact of_decide_eq_true (List.mem_filter.mp hx).2
  · obtain ⟨y, hy, rfl⟩ := List.mem_map.mp hx
    rw [flrStream_tenant]
    exact of_decide_eq_true (List.mem_filter.mp hy).2

/-! ## WDOG (R533) -/

theorem voidCopy_planes (c : Nat) (corrupt : Bool) (s : State) : (voidCopy c corrupt s).kln.planes = s.kln.planes := by
  have hv : ∀ u, (sealVoid c u).kln = u.kln := fun u => (sealVoid_keeps c u (fun _ q => q) (Keeps.refl _ u)).only .kln (by decide)
  unfold voidCopy
  split
  · split
    · dsimp only
      rw [hv]
      rfl
    · rfl
  · rfl

theorem voidCopy_own (c : Nat) (corrupt : Bool) (s : State) : OwnSame s (voidCopy c corrupt s) := by
  unfold voidCopy
  split
  · split
    · dsimp only
      exact OwnSame.trans (t := discardWork c _) (fun _ => rfl) (sealVoid_own c _)
    · exact fun _ => rfl
  · exact fun _ => rfl

/-- What a drain's start leaves of planes and keys, and of another tenant's state. -/
structure DrainKept (s t : State) : Prop where
  planes : t.kln.planes = s.kln.planes
  keys : OwnSame s t

theorem DrainKept.trans {s t u : State} (h : DrainKept s t) (k : DrainKept t u) : DrainKept s u :=
  ⟨k.planes.trans h.planes, h.keys.trans k.keys⟩

theorem DrainKept.foldl {α : Type} {f : State → α → State} (hf : ∀ s x, DrainKept s (f s x)) (l : List α) (s : State) :
    DrainKept s (l.foldl f s) := by
  induction l generalizing s with
  | nil => exact ⟨rfl, fun _ => rfl⟩
  | cons a l ih => exact (hf s a).trans (ih _)

theorem startDrain_kept (t : Nat) (s : State) : DrainKept s (startDrain t s) := by
  have h1 : DrainKept s (stopTenant t s) := ⟨rfl, fun _ => rfl⟩
  have h2 : DrainKept (stopTenant t s) (voidWhere (waitsFor t) (stopTenant t s) (stopTenant t s)) :=
    DrainKept.foldl (fun u c => ⟨voidCopy_planes c false u, voidCopy_own c false u⟩) _ _
  have h3 : ∀ u, DrainKept u (refreshIdle u) := fun u =>
    ⟨by rw [show (refreshIdle u).kln = u.kln from (refreshIdle_only u).only .kln (by decide)],
      .of_keeps (refreshIdle_only u) (by decide)⟩
  rw [startDrain_eq]
  exact (h1.trans h2).trans (h3 _)

theorem startDrain_tenant_ne {t i : Nat} (h : i ≠ t) (s : State) : (tenant (startDrain t s) i).state = (tenant s i).state := by
  have hs : tenant (stopTenant t s) i = tenant s i :=
    (tenant_congr (s := updTenant t (fun x => { x with state := .draining, drainStep := 3 }) s) rfl i).trans (tenant_updTenant_ne _ s h)
  rw [startDrain_eq, tenant_congr (refreshIdle_jobs _), voidWhere_tenant, hs]

/-- Every tenant of a list drains. -/
theorem startDrains_draining {l : List Nat} {i : Nat} (s : State) (h : i ∈ l ∨ (tenant s i).state = .draining) :
    (tenant (l.foldl (fun t k => startDrain k t) s) i).state = .draining := by
  induction l generalizing s with
  | nil => exact h.resolve_left List.not_mem_nil
  | cons k l ih =>
    refine ih _ ?_
    by_cases hk : i = k
    · rw [hk]
      exact .inr (startDrain_draining k s).state
    · rcases h with h | h
      · exact .inl ((List.mem_cons.mp h).resolve_left hk)
      · exact .inr ((startDrain_tenant_ne hk s).trans h)

theorem mem_of_tfind {α : Type} {l : Tab α} {k : Nat} {x : α} (h : tfind l k = some x) : (k, x) ∈ l := by
  induction l with
  | nil => exact nomatch h
  | cons e l ih =>
    obtain ⟨j, y⟩ := e
    by_cases hj : j = k
    · simp only [tfind, hj, if_true, Option.some.injEq] at h
      rw [hj, h]
      exact List.mem_cons_self
    · simp only [tfind, hj, if_false] at h
      exact List.mem_cons_of_mem _ (ih h)

/-- The enabled tenants but tenant 0. -/
def enabledTenants (s : State) : List Nat := (s.jobs.tenants.filter fun e => decide (e.1 ≠ 0 ∧ e.2.state = .enabled)).map (·.1)

theorem mem_enabledTenants {s : State} {i : Nat} (h0 : i ≠ 0) (he : (tenant s i).state = .enabled) : i ∈ enabledTenants s := by
  unfold tenant tget at he
  cases hx : tfind s.jobs.tenants i with
  | none =>
    rw [hx] at he
    exact nomatch he
  | some x =>
    rw [hx] at he
    exact List.mem_map.mpr ⟨(i, x), List.mem_filter.mpr ⟨mem_of_tfind hx, decide_eq_true ⟨h0, he⟩⟩, rfl⟩

theorem stopping_tenants (p : Nat) (s : State) : (stopping p s).jobs.tenants = s.jobs.tenants := by
  have h : ∀ u, (returnCopies p u).jobs.tenants = u.jobs.tenants := fun u =>
    foldl_holds (I := fun t => t.jobs.tenants = u.jobs.tenants) _ rfl fun _ _ _ ht => ht
  have hp : (setPlaneState p .stopping s).jobs = s.jobs :=
    (setPlaneState_keeps p .stopping s (fun _ q => q) (Keeps.refl _ s)).only .jobs (by decide)
  unfold stopping
  split
  · rw [h, hp]
  · rfl

/-- The cores' state is lost, and Sagger's keys, nonce and scopes with it (R533). -/
def coresLost (s : State) : State :=
  wipeKeys { s with
    fw := { s.fw with parked := [], ready := false },
    stk := { s.stk with trace := [], cores := [], shed := 0 },
    sag := { s.sag with nonce := none, scopes := 0 },
    pwr := { s.pwr with state := .run, toward := none, told := false, wake := none, exitHeads := [] } }

theorem coresLost_keys (s : State) (i : Nat) : (sagTenant (coresLost s) i).key = none :=
  congrArg SagTenant.key (tget_map (fun x : SagTenant => { x with key := none }) s.sag.tenants SagTenant.init i rfl)

theorem coresLost_kept (s : State) : (coresLost s).jobs = s.jobs ∧ (coresLost s).kln = s.kln ∧ (coresLost s).regs = s.regs := ⟨rfl, rfl, rfl⟩

theorem coresLost_cores (s : State) : (coresLost s).fw.parked = [] ∧ (coresLost s).fw.ready = false ∧ (coresLost s).pwr.state = .run :=
  ⟨rfl, rfl, rfl⟩

/-- Cores lost and tenants draining, the planes having been stopped. -/
def wdogDrained (u : State) : State := (enabledTenants (coresLost u)).foldl (fun t k => startDrain k t) (coresLost u)

/-- The watchdog has told of a low-power state it left, if of one. -/
def ToldOf (s t : State) : Prop := t = s ∨ ∃ pl, t = raiseIrq pgPwr 4 (event 0x0301 none pl s)

theorem wdog_eq {s : State} (hc : clocked s = true) (hb : s.pwr.boot = none) : ∃ t, ToldOf (wdogDrained (stopPlanes planeNums s)) t ∧
    wdog s = wn Reg.GLB_RST_CAUSE 10 (inc Reg.GLB_WDOG_CNT 1 (raiseAlarm 4 none [1] t)) := by
  have hn : (!clocked s || s.pwr.boot.isSome) = false := by
    rw [hc, hb]
    rfl
  unfold wdog
  rw [hn]
  extract_lets s1 a1 a2 a3 a4 s2 ts s3 code s4
  have h1 : s1 = stopPlanes planeNums s := rfl
  rw [← h1]
  clear_value s1
  have h3 : s3 = wdogDrained s1 := rfl
  refine ⟨s4, ?_, rfl⟩
  rw [← h3]
  clear_value s3
  by_cases hr : s.pwr.state = .run
  · exact .inl (if_pos hr)
  · exact .inr ⟨_, if_neg hr⟩

theorem ToldOf.keeps {s t : State} (h : ToldOf s t) : Keeps [.reg .pwr, .msix, .out, .reg .stk, .rings, .stk] s t := by
  obtain rfl | ⟨pl, rfl⟩ := h
  · exact Keeps.refl _ _
  · exact raiseIrq_keeps _ _ _ (by decide) (event_keeps _ _ _ _ (by decide) (Keeps.refl _ _))

theorem wdogDrained_keeps (u : State) : Keeps [.crk, .free, .glz, .hif, .jobs, .kln, .msix, .out, .reg .hif, .reg .klnC, .reg .stk,
    .rings, .sag, .stk, .thr] (coresLost u) (wdogDrained u) :=
  Keeps.foldl (fun _ _ k => startDrain_keeps _ _ (by decide) k) (Keeps.refl _ _)

theorem wdogDrained_kept (u : State) : DrainKept (coresLost u) (wdogDrained u) :=
  DrainKept.foldl (fun u k => startDrain_kept k u) _ _

theorem wdogDrained_tenant {u : State} {i : Nat} (h0 : i ≠ 0) (he : (tenant u i).state = .enabled) :
    (tenant (wdogDrained u) i).state = .draining := by
  have ht : tenant (coresLost u) i = tenant u i := tenant_congr (coresLost_kept u).1 i
  exact startDrains_draining _ (.inl (mem_enabledTenants h0 (by rw [ht, he])))

theorem wdogDrained_planes (u : State) : (wdogDrained u).kln.planes = u.kln.planes := by
  rw [(wdogDrained_kept u).planes, (coresLost_kept u).2.1]

theorem own_key (x : SagTenant) : x.own.1 = x.key := rfl

theorem wdogDrained_key (u : State) (i : Nat) : (sagTenant (wdogDrained u) i).key = none := by
  rw [← own_key, (wdogDrained_kept u).keys i, own_key, coresLost_keys]

theorem wdogDrained_rn (u : State) : rn (wdogDrained u) Reg.GLB_WDOG_CNT = rn u Reg.GLB_WDOG_CNT := by
  have h : rn (coresLost u) Reg.GLB_WDOG_CNT = rn u Reg.GLB_WDOG_CNT := by rw [rn, rd, (coresLost_kept u).2.2, rn, rd]
  exact ((wdogDrained_keeps u).rn (by decide)).trans h

/-- What the watchdog's restart leaves (R533), the planes having been stopped in u. -/
structure Restarted (u t : State) : Prop where
  parked : t.fw.parked = []
  notReady : t.fw.ready = false
  run : t.pwr.state = .run
  cause : rn t Reg.GLB_RST_CAUSE = 10
  count : rn t Reg.GLB_WDOG_CNT = min 0xFFFFFFFF (rn u Reg.GLB_WDOG_CNT + 1)
  alarm : (tfind t.stk.alarms 4).isSome = true
  keys : ∀ i, (sagTenant t i).key = none
  planes : ∀ p, plane t p = plane u p
  tenants : ∀ i, i ≠ 0 → (tenant u i).state = .enabled → (tenant t i).state = .draining

/-- The cores' firmware, the power state and the alarm stand through the restart's last writes. -/
theorem wdogDrained_restarted {u t : State} (hk : Keeps [.reg .pwr, .msix, .out, .reg .stk, .rings, .stk] (wdogDrained u) t)
    (ha : (tfind t.stk.alarms 4).isSome = true) : Restarted u (wn Reg.GLB_RST_CAUSE 10 (inc Reg.GLB_WDOG_CNT 1 t)) := by
  obtain ⟨hparked, hready, hrun⟩ := coresLost_cores u
  have hd := wdogDrained_keeps u
  have hfw : t.fw = (coresLost u).fw := (show t.fw = (wdogDrained u).fw from hk.only .fw (by decide)).trans (hd.only .fw (by decide))
  have hpwr : t.pwr = (coresLost u).pwr := (show t.pwr = (wdogDrained u).pwr from hk.only .pwr (by decide)).trans (hd.only .pwr (by decide))
  have hsag : t.sag = (wdogDrained u).sag := sag_of_only (hk.only .fuses (by decide)) (hk.only .sag (by decide))
  have hkln : t.kln = (wdogDrained u).kln := hk.only .kln (by decide)
  have hjobs : t.jobs = (wdogDrained u).jobs := hk.only .jobs (by decide)
  have hcnt : rn t Reg.GLB_WDOG_CNT = rn (wdogDrained u) Reg.GLB_WDOG_CNT := hk.rn (by decide)
  refine ⟨?_, ?_, ?_, rn_wn_self _ 10 _, ?_, ha, fun i => ?_, fun p => ?_, fun i h0 he => ?_⟩
  · exact (congrArg Firmware.parked hfw).trans hparked
  · exact (congrArg Firmware.ready hfw).trans hready
  · exact (congrArg Power.state hpwr).trans hrun
  · rw [rn_wn_ne _ _ (by decide), rn_inc_self, hcnt, wdogDrained_rn]
  · exact (congrArg SagTenant.key (sagTenant_congr hsag i)).trans (wdogDrained_key u i)
  · exact (plane_congr hkln p).trans (by rw [plane, plane, wdogDrained_planes])
  · exact (congrArg Tenant.state (tenant_congr hjobs i)).trans (wdogDrained_tenant h0 he)

theorem wdog_restarts {s : State} (hc : clocked s = true) (hb : s.pwr.boot = none) : Restarted (stopPlanes planeNums s) (wdog s) := by
  obtain ⟨u, hu, e⟩ := wdog_eq hc hb
  rw [e]
  exact wdogDrained_restarted (raiseAlarm_keeps _ _ _ _ (by decide) hu.keeps) (raiseAlarm_latched 4 none [1] u)

theorem stopPlanes_tenants (ps : List Nat) (s : State) : (stopPlanes ps s).jobs.tenants = s.jobs.tenants :=
  foldl_tenants (fun t p => stopping_tenants p t) ps s

theorem stopPlanes_keeps (ps : List Nat) (s : State) :
    Keeps [.jobs, .kln, .msix, .out, .reg .klnP, .reg .stk, .rings, .stk] s (stopPlanes ps s) :=
  Keeps.foldl (fun t p k => stopping_keeps p t (by decide) k) (Keeps.refl _ s)

theorem stopPlanes_moving {p : Nat} {ps : List Nat} (hp : p ∈ ps) {s : State} (hs : (plane s p).state = .leadIn ∨ (plane s p).state = .running) :
    (plane (stopPlanes ps s) p).state = .stopping :=
  stopPlanes_stopping hp (by rcases hs with h | h <;> rw [h] <;> decide)

/-! ## The obligation -/

/-- A HOST reset that nothing holds off. -/
theorem hostReset_starts {cause : Nat} {s : State} (ha : s.thm.atrip = false) (hsh : s.thm.shutdown = false ∨ cause = 2)
    (hd : deepHolds s = false) : hostReset cause s = if s.pwr.state = .deep then (if cause = 2 then startBoot .deepExit 8 false s else s)
      else startBoot .host cause false s := by
  have h : (s.thm.shutdown && decide (cause ≠ 2)) = false := by
    rcases hsh with h | h
    · rw [h, Bool.false_and]
    · rw [h]
      exact Bool.and_false _
  unfold hostReset
  rw [ha, h, hd]
  rfl

/-- A test instruction holds a HOST reset; the cause it leaves is free (R454). -/
theorem jtag_holds {s : State} (hc : clocked s = true) : jtag true s =
    { startBoot .host (draw 4 s).1.toNat false (draw 4 s).2 with
      pwr := { (startBoot .host (draw 4 s).1.toNat false (draw 4 s).2).pwr with jtag := true } } := by
  unfold jtag
  rw [hc]
  rfl

theorem jtag_gone {s : State} (hc : clocked s = true) : jtag false s = { s with pwr := { s.pwr with jtag := false } } := by
  unfold jtag
  rw [hc]
  rfl

theorem firmwareReady_readies {s : State} (hc : clocked s = true) (hb : s.pwr.boot = none) (hh : s.sag.halted = false) :
    firmwareReady s = { s with fw := { s.fw with ready := true } } := by
  unfold firmwareReady
  rw [hc, hb, hh]
  rfl

theorem zeroed_por (u : State) : (bootCleared .por u).sag.tenants = [] ∧ (bootCleared .por u).jobs.tenants = [] ∧
    (bootCleared .por u).stk.alarms = [] := ⟨rfl, rfl, rfl⟩

theorem zeroed_deepExit (u : State) : (bootCleared .deepExit u).sag.tenants = [] ∧ (bootCleared .deepExit u).stk.alarms = u.stk.alarms :=
  ⟨rfl, rfl⟩

theorem untripped_pin (u : State) : (bootCleared .pin u).thm.atrip = false := rfl

/-- Settles O52: each kind of reset through what its start of a boot, or its restart, leaves. -/
theorem resetsRun : Obligations.ResetsRun := by
  have hstrap : Reg.GLB_RST_CAUSE ≠ Reg.GLB_STRAP := by decide
  have hs5 : ∀ v : BitVec 5, v.toNat % 2 ^ 32 = v.toNat := fun v => Nat.mod_eq_of_lt (by omega)
  unfold Obligations.ResetsRun
  refine ⟨?por, ?pin, ?host, ?fault, ?flr, ?wdog, ?jtag, ?ready⟩
  case por =>
    intro strap s
    have hg : Governs .por s := fun _ _ => Nat.zero_le _
    have e : exec (.por strap) s = .next (porReset strap s) := rfl
    obtain ⟨hsag, hjobs, halarms⟩ := zeroed_por (crkInterrupt true s)
    have hr : Rebooting .por 0 (porReset strap s) := (startBoot_rebooting hg (by decide) true).wn strap.toNat hstrap
    refine ⟨_, e, hr, (rn_wn_self ..).trans (hs5 strap), ?_, ?_, ?_, commandsLeaveTheQueue _ _ _ e⟩
    · rw [porReset, startBoot_governs hg]
      exact hsag
    · rw [porReset, startBoot_governs hg]
      exact hjobs
    · rw [porReset, startBoot_governs hg]
      exact halarms
  case pin =>
    intro strap cool s hcool hd hg
    have hp : pinReset strap cool s = wn Reg.GLB_STRAP strap.toNat (startBoot .pin 1 false s) := by
      have h : (s.thm.atrip && !cool) = false := by
        cases ha : s.thm.atrip with
        | false => rfl
        | true => rw [hcool ha]; rfl
      unfold pinReset
      rw [h, hd]
      rfl
    have e : exec (.pinReset strap cool) s = .next (wn Reg.GLB_STRAP strap.toNat (startBoot .pin 1 false s)) :=
      congrArg Host.Outcome.next hp
    refine ⟨_, e, (startBoot_rebooting hg (by decide) false).wn _ hstrap, (rn_wn_self ..).trans (hs5 strap), ?_,
      commandsLeaveTheQueue _ _ _ e⟩
    rw [startBoot_governs hg]
    exact untripped_pin _
  case host =>
    intro source s ha hsh hd
    have hsh' : s.thm.shutdown = false ∨ source.val + 2 = 2 := hsh.imp id fun h => by rw [h]; rfl
    have hr := hostReset_starts ha hsh' hd
    refine ⟨fun hn hg => ?_, fun hdeep h0 hg => ?_⟩
    · have e : exec (.hostReset source) s = .next (startBoot .host (source.val + 2) false s) :=
        congrArg Host.Outcome.next (hr.trans (if_neg hn))
      obtain ⟨alarms, fuses, -, accounts⟩ := bootCleared_classN (.inl rfl) false s
      refine ⟨_, e, startBoot_rebooting hg (by omega) false, ?_, ?_, ?_, commandsLeaveTheQueue _ _ _ e⟩
      · rw [startBoot_governs hg]
        exact alarms
      · rw [startBoot_governs hg]
        exact fuses
      · rw [startBoot_governs hg]
        exact accounts
    · subst h0
      have e : exec (.hostReset 0) s = .next (startBoot .deepExit 8 false s) :=
        congrArg Host.Outcome.next (hr.trans ((if_pos hdeep).trans (if_pos rfl)))
      obtain ⟨hsag, halarms⟩ := zeroed_deepExit (crkInterrupt false s)
      refine ⟨_, e, startBoot_rebooting hg (by decide) false, ?_, ?_, commandsLeaveTheQueue _ _ _ e⟩
      · rw [startBoot_governs hg]
        exact halarms.trans (crkInterrupt_standing false s).accounts.alarms
      · rw [startBoot_governs hg]
        exact hsag
  case fault =>
    intro cause s hc hh hg
    have e : exec (.sagFault cause) s = .next (sagFault cause.val s) := rfl
    obtain ⟨reboots, count, alarm, halted⟩ := sagFault_faulted (cause := cause.val) hc hh hg
    refine ⟨_, e, reboots, count, alarm, ?_, commandsLeaveTheQueue _ _ _ e⟩
    rw [halted, faultTimes_length]
    simp
  case flr =>
    intro s hc hb
    have e : exec .flr s = .next (flr s) := rfl
    obtain ⟨rest, boot, run, cause, ready, linkSpeed, linkWidth, dlUp, jobs, templates, streams⟩ := flr_left hc hb
    have hif : { (flrAccounted s).hif with rings := [], msixPend := [] } = { s.hif with rings := [], msixPend := [] } :=
      (flrAccounted_keeps s).only .hif (by decide)
    have h1 := congrArg Hif.linkSpeed hif
    have h2 := congrArg Hif.linkWidth hif
    have h3 := congrArg Hif.dlUp hif
    exact ⟨_, e, rest, boot, run, cause, ready.trans (flrAccounted_accounts s).ready, linkSpeed.trans h1, linkWidth.trans h2, dlUp.trans h3,
      jobs, templates, streams, commandsLeaveTheQueue _ _ _ e⟩
  case wdog =>
    intro s hc hb
    refine next_at (execWdogReset_keeps s) (by decide) rfl ?_
    obtain ⟨parked, notReady, run, cause, count, alarm, keys, planes, tenants⟩ := wdog_restarts hc hb
    refine ⟨parked, notReady, run, cause, ?_, alarm, keys, fun p hp hs => ?_, fun i h0 he => ?_⟩
    · rw [count, (stopPlanes_keeps planeNums s).rn (by decide)]
    · rw [planes]
      exact stopPlanes_moving hp hs
    · refine tenants i h0 ?_
      rw [tenant, stopPlanes_tenants]
      exact he
  case jtag =>
    intro s hc
    refine ⟨fun hg => ?_, congrArg Host.Outcome.next (jtag_gone hc)⟩
    have e : exec (.jtagInstruction true) s = .next _ := congrArg Host.Outcome.next (jtag_holds hc)
    have hr := startBoot_rebooting (s := (draw 4 s).2) hg (cause := (draw 4 s).1.toNat) (by omega) false
    obtain ⟨rest, boot, -, -⟩ := hr
    exact ⟨_, e, rest.congr rfl rfl (.inl rfl) rfl rfl rfl (.inl rfl), boot, rfl, commandsLeaveTheQueue _ _ _ e⟩
  case ready =>
    intro s hc hb hh
    exact congrArg Host.Outcome.next (firmwareReady_readies hc hb hh)

end Sys2Proof.Machine
end

section
/-! SUPPORT. The proof of what losses of clocks, the delay loop and I/O calibration do (O53). -/

namespace Sys2Proof.Machine
open Sys2Proof

/-! ## A loss counted (R527) -/

theorem countLoss_cause (byte : Nat) {cause : Nat} (hc : cause < 2 ^ 32) (s : State) :
    rn (countLoss byte cause s) Reg.CLK_RST_CAUSE = cause := by
  unfold countLoss
  rw [rn_wn_self, Nat.mod_eq_of_lt hc]

theorem countLoss_field (cause v hi lo a b : Nat) (s : State) :
    rf (wn Reg.CLK_RST_CAUSE cause (wf Reg.CLK_LOL_CNT hi lo v s)) Reg.CLK_LOL_CNT a b = rf (wf Reg.CLK_LOL_CNT hi lo v s) Reg.CLK_LOL_CNT a b :=
  rf_congr (rd_wr_ne _ _ (by decide)) a b

theorem countLoss_self {byte : Nat} (hb : byte < 4) (cause : Nat) (s : State) :
    rf (countLoss byte cause s) Reg.CLK_LOL_CNT (8 * byte + 7) (8 * byte) =
      min 255 (rf s Reg.CLK_LOL_CNT (8 * byte + 7) (8 * byte) + 1) := by
  unfold countLoss
  rw [countLoss_field, rf_wf_self _ _ _ ⟨by omega, by omega⟩, Nat.mod_eq_of_lt]
  rw [show 8 * byte + 7 - 8 * byte + 1 = 8 from by omega]
  exact Nat.lt_of_le_of_lt (Nat.min_le_left _ _) (by decide)

theorem countLoss_other {byte other : Nat} (hb : byte < 4) (hd : other ≠ byte) (cause : Nat) (s : State) :
    rf (countLoss byte cause s) Reg.CLK_LOL_CNT (8 * other + 7) (8 * other) = rf s Reg.CLK_LOL_CNT (8 * other + 7) (8 * other) := by
  unfold countLoss
  rw [countLoss_field]
  exact rf_wf_other _ _ _ ⟨by omega, by omega⟩ (by omega) (by omega)

/-! ## What the reset after a loss leaves of it -/

/-- A loss stands through a reset: the oscillator in use, no lock gained, the counts and the cause. -/
structure LossStands (s t : State) : Prop where
  refOk : t.clk.refOk = s.clk.refOk
  onRc : t.clk.onRc = s.clk.onRc
  rootLock : s.clk.rootLock = false → t.clk.rootLock = false
  ddrLock : s.clk.ddrLock = false → t.clk.ddrLock = false
  dllLock : s.clk.dllLock = false → t.clk.dllLock = false
  count : rd t Reg.CLK_LOL_CNT = rd s Reg.CLK_LOL_CNT
  cause : rd t Reg.CLK_RST_CAUSE = rd s Reg.CLK_RST_CAUSE

theorem LossStands.of_eq {s t : State} (h : t.clk = s.clk) (r : t.regs = s.regs) : LossStands s t :=
  ⟨by rw [h], by rw [h], fun k => by rw [h, k], fun k => by rw [h, k], fun k => by rw [h, k], rd_of_regs r _, rd_of_regs r _⟩

theorem LossStands.refl (s : State) : LossStands s s := .of_eq rfl rfl

theorem LossStands.trans {s t u : State} (h : LossStands s t) (k : LossStands t u) : LossStands s u :=
  ⟨k.refOk.trans h.refOk, k.onRc.trans h.onRc, fun e => k.rootLock (h.rootLock e), fun e => k.ddrLock (h.ddrLock e),
    fun e => k.dllLock (h.dllLock e), k.count.trans h.count, k.cause.trans h.cause⟩

theorem LossStands.after {s t u : State} (k : LossStands t u) (h : LossStands s t) : LossStands s u := h.trans k

theorem LossStands.of_keeps {ps : List Part} {s t : State} (k : Keeps ps s t) (hc : Part.clk ∉ ps) (hr : Part.reg .clk ∉ ps) : LossStands s t := by
  have h : t.clk = s.clk := k.only .clk hc
  exact ⟨by rw [h], by rw [h], fun e => by rw [h, e], fun e => by rw [h, e], fun e => by rw [h, e],
    k.rd (by rw [keyKind_CLK_LOL_CNT]; exact hr), k.rd (by rw [keyKind_CLK_RST_CAUSE]; exact hr)⟩

theorem LossStands.wn {s : State} {k : Nat} (v : Nat) (h1 : Reg.CLK_LOL_CNT ≠ k) (h2 : Reg.CLK_RST_CAUSE ≠ k) : LossStands s (wn k v s) :=
  ⟨rfl, rfl, id, id, id, rd_wr_ne _ _ h1, rd_wr_ne _ _ h2⟩

theorem lolCnt_kept : ∃ r, regDef (keyAddr Reg.CLK_LOL_CNT) = some r ∧ r.cls = .n := by decide

theorem rstCause_kept : ∃ r, regDef (keyAddr Reg.CLK_RST_CAUSE) = some r ∧ r.cls = .n := by decide

theorem clearUnits_lossStands {keeps : RstClass → Bool} (hn : keeps .n = true) (s : State) : LossStands s (clearUnits keeps s) := by
  obtain ⟨r, hd, hc⟩ := lolCnt_kept
  obtain ⟨r', hd', hc'⟩ := rstCause_kept
  exact ⟨rfl, rfl, fun _ => rfl, fun _ => rfl, fun _ => rfl, rd_clearUnits hd (by rw [hc, hn]) s, rd_clearUnits hd' (by rw [hc', hn]) s⟩

theorem bootCleared_lossStands {k : RstKind} (hk : k = .host ∨ k = .sagFault) (cut : Bool) (s : State) :
    LossStands s (bootCleared k (crkInterrupt cut s)) := by
  have h1 : LossStands s (crkInterrupt cut s) :=
    .of_keeps (crkInterrupt_keeps cut s (fun _ q => q) (Keeps.refl _ s)) (by decide) (by decide)
  have h2 : ∀ u : State, LossStands u (clearUnits (RstKind.keeps .host) (crkLose u)) := fun u =>
    (clearUnits_lossStands (keeps := RstKind.keeps .host) rfl (crkLose u)).after (.of_eq rfl rfl)
  rcases hk with rfl | rfl
  · exact h1.trans (h2 _)
  · exact h1.trans (h2 _)

/-- A boot is the clearing, the kind that governs, and the cause where it is the new one. -/
theorem startBoot_form (k : RstKind) (cause : Nat) (cut : Bool) (s : State) :
    ∃ o : Option RstKind, startBoot k cause cut s =
        { bootCleared k (crkInterrupt cut s) with pwr := { (bootCleared k (crkInterrupt cut s)).pwr with boot := o } } ∨
      startBoot k cause cut s = wn Reg.GLB_RST_CAUSE cause
        { bootCleared k (crkInterrupt cut s) with pwr := { (bootCleared k (crkInterrupt cut s)).pwr with boot := o } } := by
  by_cases h : Governs k s
  · exact ⟨_, Or.inr (startBoot_governs h cause cut)⟩
  · obtain ⟨k0, hb, hr⟩ : ∃ k0, s.pwr.boot = some k0 ∧ k0.rank < k.rank := by
      simpa [Governs] using h
    refine ⟨some k0, Or.inl ?_⟩
    unfold startBoot bootCleared
    generalize crkInterrupt cut s = u
    rw [hb]
    dsimp only
    rw [decide_eq_true hr]
    cases k <;> rfl

theorem startBoot_lossStands {k : RstKind} (hk : k = .host ∨ k = .sagFault) (cause : Nat) (cut : Bool) (s : State) :
    LossStands s (startBoot k cause cut s) := by
  have h := bootCleared_lossStands hk cut s
  obtain ⟨o, e | e⟩ := startBoot_form k cause cut s
  · rw [e]
    exact h.trans (.of_eq rfl rfl)
  · rw [e]
    exact (LossStands.wn _ (by decide) (by decide)).after (h.trans (.of_eq rfl rfl))

theorem faultHalted_clk (n : Nat) (s : State) : (faultHalted n s).clk = s.clk := by
  unfold faultHalted
  split
  · rfl
  · rfl

theorem faultTold_lossStands (cause : Nat) (s : State) : LossStands s (faultTold cause s) := by
  have h1 : LossStands s (raiseAlarm 8 none (le 1 cause) s) := .of_keeps (raiseAlarm_only 8 none (le 1 cause) s) (by decide) (by decide)
  have h2 := h1.trans (LossStands.wn (k := Reg.SAG_FAULT_CNT) (min 0xFFFFFFFF (rn (raiseAlarm 8 none (le 1 cause) s) Reg.SAG_FAULT_CNT + 1))
    (by decide) (by decide))
  exact h2.trans (.of_eq rfl rfl)

theorem sagFault_lossStands (cause : Nat) (s : State) : LossStands s (sagFault cause s) := by
  by_cases h : clocked s = true ∧ s.sag.halted = false
  · rw [sagFault_faults h.1 h.2]
    refine ((faultTold_lossStands cause s).trans (startBoot_lossStands (.inr rfl) 7 false _)).trans ?_
    exact .of_eq (faultHalted_clk _ _) (faultHalted_leaves _ _).1
  · have e : sagFault cause s = s := by
      unfold sagFault
      rw [if_pos]
      cases hc : clocked s
      · rfl
      · simpa [hc] using h
    rw [e]
    exact .refl s

theorem hostReset_lossStands {cause : Nat} (hc : cause ≠ 2) (s : State) : LossStands s (hostReset cause s) := by
  unfold hostReset
  rw [if_neg hc, if_neg hc]
  split
  · exact .refl s
  split
  · exact .refl s
  split
  · exact .refl s
  split
  · exact .refl s
  · exact startBoot_lossStands (.inl rfl) cause false s

/-- A HOST reset that nothing holds off begins its boot. -/
theorem hostReset_reboots {s : State} (ha : s.thm.atrip = false) (hs : s.thm.shutdown = false) (hd : s.pwr.state ≠ .deep)
    (hh : deepHolds s = false) (hg : Governs .host s) : Rebooting .host 6 (hostReset 6 s) := by
  rw [hostReset_starts ha (.inl hs) hh, if_neg hd]
  exact startBoot_rebooting hg (by decide) false

/-! ## The losses -/

/-- The loss of root PLL lock: no lock of the root PLL and the delay loop, the counts as they were, and a SAG_FAULT's boot. -/
theorem rootLoss_stands (s : State) :
    LossStands { s with clk := { s.clk with rootLock := false, dllLock := false } } (rootLoss s) :=
  sagFault_lossStands 1 _

theorem rootLoss_reboots {s : State} (hc : clocked s = true) (hh : s.sag.halted = false) (hg : Governs .sagFault s) :
    Rebooting .sagFault 7 (rootLoss s) :=
  (sagFault_faulted (cause := 1) (s := { s with clk := { s.clk with rootLock := false, dllLock := false } }) hc hh hg).reboots

/-- The state that the loss of the reference leaves before the root PLL answers. -/
def refLost (s : State) : State := countLoss 0 1 { s with clk := { s.clk with refOk := false, onRc := true } }

/-- The loss of the reference counted for the root PLL too. -/
def refRootLost (s : State) : State := wn Reg.CLK_RST_CAUSE 1 (countLoss 1 2 (refLost s))

theorem refLoss_eq {s : State} (h : s.clk.refOk = true) :
    refLoss s = if clocked s then rootLoss (refRootLost s) else refLost s := by
  unfold refLoss
  rw [if_pos h]
  rfl

theorem refRootLost_field (a b : Nat) (s : State) :
    rf (refRootLost s) Reg.CLK_LOL_CNT a b = rf (countLoss 1 2 (refLost s)) Reg.CLK_LOL_CNT a b :=
  rf_congr (rd_wr_ne _ _ (by decide)) a b

/-- What the loss of the reference leaves where the root PLL is off. -/
theorem refLost_leaves (s : State) : (refLost s).clk.refOk = false ∧ (refLost s).clk.onRc = true ∧
    rf (refLost s) Reg.CLK_LOL_CNT 7 0 = min 255 (rf s Reg.CLK_LOL_CNT 7 0 + 1) ∧ rn (refLost s) Reg.CLK_RST_CAUSE = 1 :=
  ⟨rfl, rfl, countLoss_self (byte := 0) (by decide) 1 _, countLoss_cause 0 (by decide) _⟩

/-! ## The delay loop (R519) -/

/-- Lines retimed: only their taps and edges change. -/
structure Retimed (s t : State) : Prop where
  keeps : Keeps [.clk, .kln] s t
  clk : { t.clk with taps := [], changed := 0, stepTaps := [] } = { s.clk with taps := [], changed := 0, stepTaps := [] }

theorem Retimed.refl (s : State) : Retimed s s := ⟨Keeps.refl _ s, rfl⟩

theorem Retimed.trans {s t u : State} (h : Retimed s t) (k : Retimed t u) : Retimed s u := ⟨h.keeps.trans k.keeps, k.clk.trans h.clk⟩

theorem Retimed.after {s t u : State} (k : Retimed t u) (h : Retimed s t) : Retimed s u := h.trans k

theorem Retimed.dllLock {s t : State} (h : Retimed s t) : t.clk.dllLock = s.clk.dllLock := (congrArg Clk.dllLock h.clk :)

theorem Retimed.code {s t : State} (h : Retimed s t) : t.clk.code = s.clk.code := (congrArg Clk.code h.clk :)

theorem Retimed.iocal {s t : State} (h : Retimed s t) : t.clk.iocal = s.clk.iocal := (congrArg Clk.iocal h.clk :)

theorem Retimed.foldl {α : Type} {f : State → α → State} (hf : ∀ s x, Retimed s (f s x)) (l : List α) (s : State) : Retimed s (l.foldl f s) := by
  induction l generalizing s with
  | nil => exact .refl s
  | cons a l ih => exact (hf s a).trans (ih _)

theorem setTap_retimed (line : Nat) (x : Tap) (s : State) : Retimed s (setTap line x s) :=
  ⟨setTap_keeps line x s (by decide) (Keeps.refl _ s), rfl⟩

theorem armEdges_retimed (h r t : Nat) (s : State) : Retimed s (armEdges h r t s) := by
  unfold armEdges
  extract_lets due x
  split
  · exact (setTap_retimed h x _).after ⟨updRow_keeps _ _ _ _ (by decide) (Keeps.refl _ s), rfl⟩
  · exact .refl s

theorem settleStep_retimed (line : Nat) (s : State) : Retimed s (settleStep line s) := by
  unfold settleStep
  split
  · exact setTap_retimed _ _ _
  · exact .refl s

theorem markChanged_retimed (s : State) : Retimed s { s with clk := { s.clk with changed := now s / 32 } } :=
  ⟨Keeps.set_clk (by decide) (Keeps.refl _ s), rfl⟩

/-- A change of the code or of trims is made between two retimings. -/
theorem retune_retimed (change : State → State) (s : State) : ∃ u, Retimed s u ∧ Retimed (change u) (retune change s) := by
  unfold retune
  extract_lets s1 s2 s3 clk s4
  refine ⟨s2, ?_, ?_⟩
  · have h1 : Retimed s s1 := Retimed.foldl (fun t h => Retimed.foldl (fun u r => armEdges_retimed h r (now u) u) _ t) _ s
    exact h1.trans (Retimed.foldl (fun t i => settleStep_retimed (64 + i) t) _ s1)
  · refine (markChanged_retimed s3).trans (Retimed.foldl (fun t h => ?_) _ s4)
    split
    · exact .refl t
    · exact setTap_retimed _ _ _

theorem Retimed.rd {s t : State} (h : Retimed s t) (k : Nat) : rd t k = rd s k := by
  refine h.keeps.rd ?_
  simp

/-- The code a change leaves stands after the lines take it. -/
theorem retune_code {change : State → State} {s : State} {c : Nat} (hc : ∀ u : State, (change u).clk.code = c) :
    (retune change s).clk.code = c := by
  obtain ⟨u, -, k⟩ := retune_retimed change s
  exact k.code.trans (hc u)

theorem retune_iocal {change : State → State} {s : State} (hc : ∀ u : State, (change u).clk.iocal = u.clk.iocal) :
    (retune change s).clk.iocal = s.clk.iocal := by
  obtain ⟨u, h, k⟩ := retune_retimed change s
  exact k.iocal.trans ((hc u).trans h.iocal)

/-- The lock's change told: CLK_DLL and its interrupt. -/
def lockTold (locked : Bool) (code : Nat) (s : State) : State :=
  raiseIrq pgClk 4 (event 0x0201 none (le 1 (if locked then 1 else 0) ++ le 4 code)
    (retune (fun t => { t with clk := { t.clk with dllLock := locked, code := code } }) s))

theorem lockTold_leaves (locked : Bool) (code : Nat) (s : State) : (lockTold locked code s).clk.dllLock = locked ∧
    (lockTold locked code s).clk.code = code ∧ (getPage (lockTold locked code s) pgClk).irqRaw.getLsbD 4 = true := by
  unfold lockTold
  refine ⟨?_, ?_, raiseIrq_raw (by decide) _⟩
  · rw [raised_event_clk]
    exact retune_dllLock fun _ _ => rfl
  · rw [raised_event_clk]
    exact retune_code fun _ => rfl

theorem headsLost_keeps (l : List Nat) (s : State) :
    Keeps [.jobs, .kln, .msix, .out, .ports, .reg .klnC, .reg .klnP, .reg .stk, .rings, .stk, .win] s (l.foldl (fun t h => headLost h t) s) :=
  Keeps.foldl (fun t h k => headLost_keeps h t (by decide) k) (Keeps.refl _ s)

theorem page_of_keeps {ps : List Part} {s t : State} (k : Keeps ps s t) (n : Nat) (h : Part.reg (pageKind n) ∉ ps) : getPage t n = getPage s n :=
  (k.only (.reg (pageKind n)) h).2 n rfl

/-- The heads that lose their rows with the lock leave what was told of it. -/
theorem headsLost_lockTold (l : List Nat) {u : State} {b : Bool} {c : Nat}
    (h : u.clk.dllLock = b ∧ u.clk.code = c ∧ (getPage u pgClk).irqRaw.getLsbD 4 = true) :
    (l.foldl (fun t h => headLost h t) u).clk.dllLock = b ∧ (l.foldl (fun t h => headLost h t) u).clk.code = c ∧
      (getPage (l.foldl (fun t h => headLost h t) u) pgClk).irqRaw.getLsbD 4 = true := by
  have k := headsLost_keeps l u
  have ec : (l.foldl (fun t h => headLost h t) u).clk = u.clk := k.only .clk (by decide)
  rw [ec, page_of_keeps k pgClk (by decide)]
  exact h

theorem dllChange_corrects (code : Nat) {s : State} (h : s.clk.dllLock = true) :
    dllChange true code s = retune (fun t => { t with clk := { t.clk with code := code } }) s := by
  unfold dllChange
  rw [if_pos h]
  rfl

theorem dllChange_gains (code : Nat) {s : State} (h : ¬ s.clk.dllLock = true) : dllChange true code s = lockTold true code s := by
  unfold dllChange
  rw [if_neg h]
  exact if_pos rfl

theorem dllChange_loses (code : Nat) {s : State} (h : s.clk.dllLock = true) :
    dllChange false code s = (List.range 64).foldl (fun t h => headLost h t) (lockTold false code s) := by
  unfold dllChange
  rw [if_neg (by rw [h]; exact Bool.noConfusion)]
  exact if_neg Bool.noConfusion

/-- The loop gains or loses lock, or corrects its code. -/
theorem dllChange_leaves {locked : Bool} (code : Nat) {s : State} (h : locked = false → s.clk.dllLock = true) :
    (dllChange locked code s).clk.dllLock = locked ∧ (dllChange locked code s).clk.code = code ∧
      (s.clk.dllLock ≠ locked → (getPage (dllChange locked code s) pgClk).irqRaw.getLsbD 4 = true) := by
  cases locked with
  | false =>
    rw [dllChange_loses code (h rfl)]
    obtain ⟨hl, hc, hi⟩ := headsLost_lockTold (List.range 64) (lockTold_leaves false code s)
    exact ⟨hl, hc, fun _ => hi⟩
  | true =>
    by_cases he : s.clk.dllLock = true
    · rw [dllChange_corrects code he]
      refine ⟨?_, ?_, fun hn => absurd he hn⟩
      · exact retune_dllLock fun u hu => hu.trans he
      · exact retune_code fun _ => rfl
    · rw [dllChange_gains code he]
      obtain ⟨hl, hc, hi⟩ := lockTold_leaves true code s
      exact ⟨hl, hc, fun _ => hi⟩

/-! ## I/O calibration (R521) -/

/-- A line's trim register after its error. -/
def trimOf (e : Int) : Nat := unsigned 7 (max (-64) (min 63 (nearestUnit (-e)))) + 256 * unsigned 8 (satS 8 (nearestUnit e))

theorem unsigned_lt (n : Nat) (v : Int) : unsigned n v < 2 ^ n := by
  unfold unsigned
  have hp : (0 : Int) < 2 ^ n := by positivity
  have h := Int.emod_lt_of_pos v hp
  have h0 := Int.emod_nonneg v hp.ne'
  zify
  rwa [Int.toNat_of_nonneg h0]

theorem trimOf_lt (e : Int) : trimOf e < 2 ^ 32 := by
  have h1 := unsigned_lt 7 (max (-64) (min 63 (nearestUnit (-e))))
  have h2 := unsigned_lt 8 (satS 8 (nearestUnit e))
  unfold trimOf
  omega

/-- A line's calibration writes its trim and no other register of Clocks. -/
theorem iocalLine_rd (line : Nat) (e : Int) (s : State) {k : Nat} (hk : keyKind k ≠ .stk) :
    rd (iocalLine line e s) k = rd (wn (wkey Reg.CLK_IOCAL_TRIM line) (trimOf e) s) k := by
  unfold iocalLine
  extract_lets want trim err s1
  split
  · rfl
  · rw [rd_raiseIrq, rd_event hk, rd_recordErr]
    rfl

theorem iocalLine_trim (line : Nat) (e : Int) (s : State) : rn (iocalLine line e s) (wkey Reg.CLK_IOCAL_TRIM line) = trimOf e := by
  rw [rn_congr (iocalLine_rd line e s (by simp)), rn_wn_self, Nat.mod_eq_of_lt (trimOf_lt e)]

theorem trimKey_ne {i j : Nat} (h : i ≠ j) : wkey Reg.CLK_IOCAL_TRIM i ≠ wkey Reg.CLK_IOCAL_TRIM j := by
  unfold wkey
  omega

theorem cntKey_ne (j : Nat) : Reg.CLK_IOCAL_CNT ≠ wkey Reg.CLK_IOCAL_TRIM j := fun h => by
  rw [wkey, Reg.CLK_IOCAL_CNT, Reg.CLK_IOCAL_TRIM] at h
  omega

theorem iocalLine_ne {line k : Nat} (e : Int) (s : State) (hk : keyKind k ≠ .stk) (h : k ≠ wkey Reg.CLK_IOCAL_TRIM line) :
    rn (iocalLine line e s) k = rn s k := by
  rw [rn_congr (iocalLine_rd line e s hk), rn_wn_ne _ _ h]

/-- Lines from `n` on take their trims. -/
def iocalLines (errors : List (BitVec 24)) (n : Nat) (s : State) : State :=
  (errors.zipIdx n).foldl (fun t x => iocalLine x.2 x.1.toInt t) s

theorem iocalLines_ne (errors : List (BitVec 24)) {n k : Nat} (s : State) (hk : keyKind k ≠ .stk)
    (h : ∀ i, n ≤ i → k ≠ wkey Reg.CLK_IOCAL_TRIM i) : rn (iocalLines errors n s) k = rn s k := by
  induction errors generalizing n s with
  | nil => rfl
  | cons e l ih => exact (ih (n := n + 1) (iocalLine n e.toInt s) fun i hi => h i (by omega)).trans (iocalLine_ne _ _ hk (h n (Nat.le_refl n)))

theorem iocalLines_trim (errors : List (BitVec 24)) (n : Nat) (s : State) {k : Nat} {e : BitVec 24} (h : errors[k]? = some e) :
    rn (iocalLines errors n s) (wkey Reg.CLK_IOCAL_TRIM (n + k)) = trimOf e.toInt := by
  induction errors generalizing n s k with
  | nil => simp at h
  | cons e0 l ih =>
    cases k with
    | zero =>
      obtain rfl : e0 = e := by simpa using h
      have h1 := iocalLines_ne l (n := n + 1) (k := wkey Reg.CLK_IOCAL_TRIM n) (iocalLine n e0.toInt s) (by simp) fun i hi => trimKey_ne (by omega)
      exact h1.trans (iocalLine_trim n e0.toInt s)
    | succ k =>
      rw [show n + (k + 1) = n + 1 + k from by omega]
      exact ih (n + 1) (iocalLine n e0.toInt s) (by simpa using h)

theorem iocalLines_clk (errors : List (BitVec 24)) (n : Nat) (s : State) : (iocalLines errors n s).clk = s.clk :=
  (Keeps.foldl (l := errors.zipIdx n) (fun t x k => iocalLine_keeps x.2 x.1.toInt t (fun _ q => q) k) (Keeps.refl _ s)).only .clk (by decide)

/-- The state whose trims the calibration has set, its end still to be told. -/
def trimsTaken (errors : List (BitVec 24)) (s : State) : State :=
  retune (iocalLines (errors.take 70) 0) { s with clk := { s.clk with iocal := false } }

theorem trimsTaken_iocal (errors : List (BitVec 24)) (s : State) : (trimsTaken errors s).clk.iocal = false := by
  unfold trimsTaken
  rw [retune_iocal fun u => by rw [iocalLines_clk]]

theorem trimsTaken_trim {errors : List (BitVec 24)} (s : State) {k : Nat} (hk : k < 70) {e : BitVec 24} (h : errors[k]? = some e) :
    rn (trimsTaken errors s) (wkey Reg.CLK_IOCAL_TRIM k) = trimOf e.toInt := by
  obtain ⟨u, -, r⟩ := retune_retimed (iocalLines (errors.take 70) 0) { s with clk := { s.clk with iocal := false } }
  have h' : (errors.take 70)[k]? = some e := by rw [List.getElem?_take_of_lt hk, h]
  have ht := iocalLines_trim (errors.take 70) 0 u h'
  rw [Nat.zero_add] at ht
  exact (rn_congr (r.rd _)).trans ht

theorem trimsTaken_cnt (errors : List (BitVec 24)) (s : State) : rn (trimsTaken errors s) Reg.CLK_IOCAL_CNT = rn s Reg.CLK_IOCAL_CNT := by
  obtain ⟨u, h, r⟩ := retune_retimed (iocalLines (errors.take 70) 0) { s with clk := { s.clk with iocal := false } }
  have hl := iocalLines_ne (errors.take 70) (n := 0) (k := Reg.CLK_IOCAL_CNT) u (by decide) fun i _ => cntKey_ne i
  exact (rn_congr (r.rd _)).trans (hl.trans (rn_congr (h.rd _)))

/-- A calibration's end is counted and told. -/
def iocalTold (u : State) : State :=
  raiseIrq pgClk 5 (event 0x0202 none (le 12 (draw 96 u).1.toNat ++ le 1 0) (inc Reg.CLK_IOCAL_CNT 1 (draw 96 u).2))

theorem iocalDone_eq (errors : List (BitVec 24)) {s : State} (h : s.clk.iocal = true) :
    iocalDone errors s = iocalTold (trimsTaken errors s) := by
  unfold iocalDone
  rw [if_pos h]
  rfl

theorem iocalTold_clk (u : State) : (iocalTold u).clk = u.clk := raised_event_clk _ _ _ _ _ _

theorem iocalTold_rn (u : State) {k : Nat} (hk : keyKind k ≠ .stk) : rn (iocalTold u) k = rn (inc Reg.CLK_IOCAL_CNT 1 u) k :=
  (rn_congr (by rw [iocalTold, rd_raiseIrq, rd_event hk])).trans (rn_congr (t := inc Reg.CLK_IOCAL_CNT 1 (draw 96 u).2) (s := inc Reg.CLK_IOCAL_CNT 1 u) rfl)

/-- Settles O53: each loss by its counts, what a reset leaves of them and the boot it begins; the delay loop by what a retuning leaves;
a calibration by its fold over the lines. -/
theorem clockEventsRun : Obligations.ClockEventsRun := by
  refine ⟨fun s href => ?reference, fun s => rfl, fun s hroot => ?root, fun s hddr => ?ddr, fun locked code s hon hoff => ?loop,
    fun s hroot hboot => ?period, fun errors s hcal => ?done⟩
  case reference =>
    refine ⟨_, rfl, ?_⟩
    obtain ⟨ok, rc, count, cause⟩ := refLost_leaves s
    rw [refLoss_eq href]
    cases hc : clocked s with
    | false => exact ⟨ok, rc, count, cause, fun h => Bool.noConfusion h⟩
    | true =>
      have h := rootLoss_stands (refRootLost s)
      refine ⟨h.refOk, h.onRc, ?_, ?_, fun _ => ⟨h.rootLock rfl, ?_, fun hh hg => rootLoss_reboots hc hh hg⟩⟩
      · refine (rf_congr h.count 7 0).trans ((refRootLost_field 7 0 s).trans ?_)
        exact (countLoss_other (byte := 1) (other := 0) (by decide) (by decide) 2 _).trans count
      · exact (rn_congr h.cause).trans (rn_wn_self _ 1 _)
      · refine (rf_congr h.count 15 8).trans ((refRootLost_field 15 8 s).trans ?_)
        refine (countLoss_self (byte := 1) (by decide) 2 (refLost s)).trans ?_
        rw [show rf (refLost s) Reg.CLK_LOL_CNT (8 * 1 + 7) (8 * 1) = rf s Reg.CLK_LOL_CNT 15 8 from
          countLoss_other (byte := 0) (other := 1) (by decide) (by decide) 1 _]
  case root =>
    have h := rootLoss_stands (countLoss 1 2 s)
    refine ⟨_, congrArg Host.Outcome.next (if_pos hroot), h.rootLock rfl, h.dllLock rfl, ?_, ?_, fun hc hh hg => rootLoss_reboots hc hh hg⟩
    · exact (rf_congr h.count 15 8).trans (countLoss_self (byte := 1) (by decide) 2 s)
    · exact (rn_congr h.cause).trans (countLoss_cause 1 (by decide) s)
  case ddr =>
    have h := hostReset_lossStands (cause := 6) (by decide) (countLoss 2 3 { s with clk := { s.clk with ddrLock := false } })
    refine ⟨_, congrArg Host.Outcome.next (if_pos hddr), h.ddrLock rfl, ?_, ?_, fun ha hs hd hh hg => ?_⟩
    · exact (rf_congr h.count 23 16).trans (countLoss_self (byte := 2) (by decide) 3 _)
    · exact (rn_congr h.cause).trans (countLoss_cause 2 (by decide) _)
    · exact hostReset_reboots (s := countLoss 2 3 { s with clk := { s.clk with ddrLock := false } }) ha hs hd hh hg
  case loop =>
    have e : exec (.dllLockChange locked code) s = .next (dllChange locked code.toNat s) := by
      refine congrArg Host.Outcome.next (if_neg ?_)
      intro h
      obtain ⟨hl, hr⟩ := Bool.and_eq_true_iff.mp h
      obtain ⟨hroot, hst⟩ := hon hl
      rw [hroot, decide_eq_false hst] at hr
      exact Bool.noConfusion hr
    exact next_at (execDllLockChange_keeps locked code s) (by decide) e (dllChange_leaves code.toNat hoff)
  case period =>
    refine congrArg Host.Outcome.next (if_pos ?_)
    rw [hroot, hboot]
    rfl
  case done =>
    refine next_at (execIocalDone_keeps errors s) (by decide) rfl ?_
    rw [iocalDone_eq errors hcal]
    refine ⟨?_, ?_, raiseIrq_raw (by decide) _, fun k hk e he => ?_⟩
    · rw [iocalTold_clk, trimsTaken_iocal]
    · rw [iocalTold_rn _ (by decide), rn_inc_self, trimsTaken_cnt]
    · rw [iocalTold_rn _ (by simp), rn_inc_ne _ _ (fun h => cntKey_ne k h.symm)]
      exact trimsTaken_trim s hk he

end Sys2Proof.Machine
end

section
/-! SUPPORT. The proof of what thermal sensors, the analog trip and the fan channels do (O54). -/

namespace Sys2Proof.Machine
open Sys2Proof

/-! ## Time -/

theorem withUnits_uptime (c : Clock) (u : Nat) : (c.withUnits u).uptime = c.uptime := rfl

theorem gained_uptime (c : Clock) (u : Nat) (x : Word) : (c.gained u x).uptime = c.uptime := rfl

theorem runPress_uptime (n : Nat) (slew : Int) (s : State) : (runPress n slew s).clock.uptime = s.clock.uptime := by
  rw [runPress_clock]
  split
  · rw [withUnits_uptime]
  · split
    · rw [gained_uptime, applyStaged_clock]
      rfl
    · rw [gained_uptime]

/-- Press time's slew is used up by the cycles that passed. -/
def slewUsed (n : Nat) (t : State) : State :=
  { t with clock := { t.clock with slewLeft := t.clock.slewLeft - n, slew := if t.clock.slewLeft - n = 0 then 0 else t.clock.slew } }

theorem slewUsed_uptime (n : Nat) (t : State) : (slewUsed n t).clock.uptime = t.clock.uptime := rfl

/-- The state after the cycles under a slew. -/
def slewPassed (n : Nat) (s : State) : State :=
  if min n s.clock.slewLeft = 0 then s else slewUsed (min n s.clock.slewLeft) (runPress (min n s.clock.slewLeft) s.clock.slew s)

theorem slewPassed_uptime (n : Nat) (s : State) : (slewPassed n s).clock.uptime = s.clock.uptime := by
  unfold slewPassed
  split
  · rfl
  · rw [slewUsed_uptime, runPress_uptime]

theorem passCycles_eq (n : Nat) (s : State) : passCycles n s = refill n
    (if n - min n s.clock.slewLeft = 0 then slewPassed n s else runPress (n - min n s.clock.slewLeft) 0 (slewPassed n s)) := rfl

theorem passCycles_uptime (n : Nat) (s : State) : (passCycles n s).clock.uptime = s.clock.uptime := by
  rw [passCycles_eq, refill_clock]
  split
  · exact slewPassed_uptime n s
  · rw [runPress_uptime, slewPassed_uptime]

/-- Uptime gains what the fire timebase gains. -/
theorem uptime_advance (t : Nat) (s : State) : (advanceTo t s).clock.uptime = s.clock.uptime + (t - now s) := by
  unfold advanceTo
  split
  · next h => rw [Nat.sub_eq_zero_of_le h, Nat.add_zero]
  · dsimp only
    rw [passCycles_uptime]

/-! ## Fan channels -/

theorem fan_congr {s t : State} (h : t.fans = s.fans) (n : Nat) : fan t n = fan s n := by rw [fan, fan, h]

@[simp] theorem fan_updFan_self (n : Nat) (f : Fan → Fan) (s : State) : fan (updFan n f s) n = f (fan s n) := tget_tput_self _ _ _ _

theorem fan_updFan_ne {j n : Nat} (f : Fan → Fan) (s : State) (h : j ≠ n) : fan (updFan n f s) j = fan s j := tget_tput_ne _ _ _ h

/-- The raw interrupts of the fans' page stand. -/
def FanIrqs (s t : State) : Prop := ∀ b, (getPage s pgFan).irqRaw.getLsbD b = true → (getPage t pgFan).irqRaw.getLsbD b = true

theorem FanIrqs.trans {s t u : State} (h : FanIrqs s t) (k : FanIrqs t u) : FanIrqs s u := fun b e => k b (h b e)

theorem FanIrqs.of_keeps {ps : List Part} {s t : State} (k : Keeps ps s t) (h : Part.reg .fan ∉ ps) : FanIrqs s t := fun b e => by
  rw [page_of_keeps k pgFan (by exact h)]
  exact e

theorem FanIrqs.raise (b : Nat) (s : State) : FanIrqs s (raiseIrq pgFan b s) := fun c e => by
  rw [raiseIrq, raiseBits_page, BitVec.getLsbD_or, e, Bool.true_or]

/-- What a channel's raised event or alarm leaves: fans and registers of theirs as they were, interrupts only set. -/
structure FanQuiet (s t : State) : Prop where
  fans : t.fans = s.fans
  regs : ∀ k, keyKind k ≠ .stk → rd t k = rd s k
  irqs : FanIrqs s t
  uptime : t.clock = s.clock

theorem FanQuiet.trans {s t u : State} (h : FanQuiet s t) (k : FanQuiet t u) : FanQuiet s u :=
  ⟨k.fans.trans h.fans, fun r hr => (k.regs r hr).trans (h.regs r hr), h.irqs.trans k.irqs, k.uptime.trans h.uptime⟩

theorem FanQuiet.raise (b : Nat) (s : State) : FanQuiet s (raiseIrq pgFan b s) := by
  have k := raiseIrq_keeps pgFan b s (fun _ q => q) (Keeps.refl _ s)
  exact ⟨k.only .fans (by simp), fun r _ => rd_raiseIrq _ _ _ r, .raise b s, k.only .clock (by simp)⟩

theorem FanQuiet.event (code : Nat) (ten : Option Nat) (pl : List Byte) (s : State) : FanQuiet s (event code ten pl s) := by
  have k := event_keeps code ten pl s (fun _ q => q) (Keeps.refl _ s)
  exact ⟨k.only .fans (by decide), fun r hr => rd_event hr, .of_keeps k (by decide), k.only .clock (by decide)⟩

theorem FanQuiet.alarm (i : Nat) (ten : Option Nat) (pl : List Byte) (s : State) : FanQuiet s (raiseAlarm i ten pl s) := by
  have k := raiseAlarm_only i ten pl s
  exact ⟨k.only .fans (by decide), fun r hr => k.rd (by simpa using hr), .of_keeps k (by decide), k.only .clock (by decide)⟩

/-- What a channel's change of state keeps of it and of the others. -/
structure FanSet (n st : Nat) (s t : State) : Prop where
  state : (fan t n).state = st
  since : (fan t n).since = s.clock.uptime
  attempts : (fan t n).attempts = (fan s n).attempts
  lastEdge : (fan t n).lastEdge = (fan s n).lastEdge
  periods : (fan t n).periods = (fan s n).periods
  others : ∀ j, j ≠ n → fan t j = fan s j
  regs : ∀ k, keyKind k ≠ .stk → rd t k = rd s k
  irqs : FanIrqs s t

theorem FanSet.quiet {n st : Nat} {s t u : State} (h : FanSet n st s t) (k : FanQuiet t u) : FanSet n st s u := by
  obtain ⟨state, since, attempts, lastEdge, periods, others, regs, irqs⟩ := h
  have e : ∀ j, fan u j = fan t j := fan_congr k.fans
  exact ⟨by rw [e, state], by rw [e, since], by rw [e, attempts], by rw [e, lastEdge], by rw [e, periods],
    fun j hj => (e j).trans (others j hj), fun r hr => (k.regs r hr).trans (regs r hr), irqs.trans k.irqs⟩

/-- A channel enters a state. -/
theorem FanSet.enter {n : Nat} {f : Fan → Fan} {s : State} {st : Nat} (hf : ∀ x, (f x).state = st ∧ (f x).since = s.clock.uptime ∧
    (f x).attempts = x.attempts ∧ (f x).lastEdge = x.lastEdge ∧ (f x).periods = x.periods) : FanSet n st s (updFan n f s) := by
  obtain ⟨state, since, attempts, lastEdge, periods⟩ := hf (fan s n)
  refine ⟨?_, ?_, ?_, ?_, ?_, fun j hj => fan_updFan_ne _ _ hj, fun _ _ => rfl, fun _ e => e⟩
  · rw [fan_updFan_self, state]
  · rw [fan_updFan_self, since]
  · rw [fan_updFan_self, attempts]
  · rw [fan_updFan_self, lastEdge]
  · rw [fan_updFan_self, periods]

/-- The speed's comparison is noted and nothing else of a channel. -/
theorem FanSet.noted {n st : Nat} {s t : State} (h : FanSet n st s t) : FanSet n st s (noteSpeed n t) := by
  obtain ⟨state, since, attempts, lastEdge, periods, others, regs, irqs⟩ := h
  unfold noteSpeed
  extract_lets x limit low u
  refine ⟨?_, ?_, ?_, ?_, ?_, fun j hj => (fan_updFan_ne _ _ hj).trans (others j hj), regs, irqs⟩
  · rw [fan_updFan_self]
    exact state
  · rw [fan_updFan_self]
    exact since
  · rw [fan_updFan_self]
    exact attempts
  · rw [fan_updFan_self]
    exact lastEdge
  · rw [fan_updFan_self]
    exact periods

/-- A channel's entry of a state, noted and told. -/
def fanTold (n st : Nat) (s : State) : State :=
  noteSpeed n (raiseIrq pgFan 7 (event 0x0504 none (le 1 n ++ le 1 (fan s n).state ++ le 1 st)
    (updFan n (fun y => { y with
      state := st, since := s.clock.uptime, time := rd s (Reg.FAN_TIME n), edges := [], auto := fanAuto s n,
      slow := y.slow && decide (st ≠ 0) }) s)))

theorem fanTold_set (n st : Nat) (s : State) : FanSet n st s (fanTold n st s) := by
  unfold fanTold
  refine FanSet.noted (FanSet.quiet ?_ ((FanQuiet.event _ _ _ _).trans (.raise 7 _)))
  exact FanSet.enter fun _ => ⟨rfl, rfl, rfl, rfl, rfl⟩

/-- Entries changed under their keys are found as before. -/
theorem tfind_isSome_map {α : Type} {g : Nat × α → Nat × α} (hg : ∀ x, (g x).1 = x.1) (l : Tab α) (k : Nat) :
    (tfind (l.map g) k).isSome = (tfind l k).isSome := by
  induction l with
  | nil => rfl
  | cons x l ih =>
    obtain ⟨j, v⟩ := x
    have h : g (j, v) = (j, (g (j, v)).2) := Prod.ext (hg (j, v)) rfl
    rw [List.map_cons, h]
    by_cases hj : j = k
    · simp [tfind, hj]
    · simp [tfind, hj, ih]

/-- A channel in TACH_LOST: its alarm and interrupt, and the attempts in the alarm's detail (R559). -/
theorem setFan_lost (n : Nat) (s : State) : FanSet n 5 s (setFan n 5 s) ∧ (tfind (setFan n 5 s).stk.alarms 3).isSome = true ∧
    (getPage (setFan n 5 s) pgFan).irqRaw.getLsbD 5 = true := by
  obtain ⟨pl, d, e⟩ : ∃ pl d, setFan n 5 s =
      { raiseIrq pgFan 5 (raiseAlarm 3 none pl (fanTold n 5 s)) with
        stk := { (raiseIrq pgFan 5 (raiseAlarm 3 none pl (fanTold n 5 s))).stk with
          alarms := (raiseIrq pgFan 5 (raiseAlarm 3 none pl (fanTold n 5 s))).stk.alarms.map fun e =>
            if e.1 = 3 then (e.1, { e.2 with detail := d }) else e } } := ⟨_, _, rfl⟩
  have hs := (fanTold_set n 5 s).quiet ((FanQuiet.alarm 3 none pl _).trans (.raise 5 _))
  have ha := raiseAlarm_latched 3 none pl (fanTold n 5 s)
  rw [← raiseIrq_stk pgFan 5] at ha
  have hi : (getPage (raiseIrq pgFan 5 (raiseAlarm 3 none pl (fanTold n 5 s))) pgFan).irqRaw.getLsbD 5 = true := raiseIrq_raw (by decide) _
  rw [e]
  generalize raiseIrq pgFan 5 (raiseAlarm 3 none pl (fanTold n 5 s)) = u at hs ha hi
  obtain ⟨state, since, attempts, lastEdge, periods, others, regs, irqs⟩ := hs
  refine ⟨⟨state, since, attempts, lastEdge, periods, others, regs, irqs⟩, ?_, hi⟩
  refine (tfind_isSome_map (fun x => ?_) u.stk.alarms 3).trans ha
  dsimp only
  split
  · rfl
  · rfl

theorem setFan_set (n st : Nat) (s : State) : FanSet n st s (setFan n st s) := by
  by_cases h5 : st = 5
  · subst h5
    exact (setFan_lost n s).1
  by_cases h4 : st = 4
  · subst h4
    exact (fanTold_set n 4 s).quiet ((FanQuiet.alarm 2 none _ _).trans (.raise 4 _))
  · have e : setFan n st s = fanTold n st s := by
      unfold setFan
      extract_lets x s1 s2 s3
      split
      · exact absurd rfl h4
      · exact absurd rfl h5
      · rfl
    rw [e]
    exact fanTold_set n st s

/-! ## The tachometer (R558 to R561) -/

/-- What the comparison of a channel's speed keeps of it and of the others. -/
structure FanKept (n : Nat) (s t : State) : Prop where
  state : (fan t n).state = (fan s n).state
  lastEdge : (fan t n).lastEdge = (fan s n).lastEdge
  periods : (fan t n).periods = (fan s n).periods
  others : ∀ j, j ≠ n → fan t j = fan s j

theorem FanKept.trans {n : Nat} {s t u : State} (h : FanKept n s t) (k : FanKept n t u) : FanKept n s u :=
  ⟨k.state.trans h.state, k.lastEdge.trans h.lastEdge, k.periods.trans h.periods, fun j hj => (k.others j hj).trans (h.others j hj)⟩

theorem FanKept.update {n : Nat} {f : Fan → Fan} (hf : ∀ x, (f x).state = x.state ∧ (f x).lastEdge = x.lastEdge ∧ (f x).periods = x.periods)
    (s : State) : FanKept n s (updFan n f s) := by
  obtain ⟨state, lastEdge, periods⟩ := hf (fan s n)
  exact ⟨by rw [fan_updFan_self, state], by rw [fan_updFan_self, lastEdge], by rw [fan_updFan_self, periods], fun j hj => fan_updFan_ne _ _ hj⟩

theorem noteSpeed_kept (n : Nat) (s : State) : FanKept n s (noteSpeed n s) := by
  unfold noteSpeed
  refine FanKept.update ?_ s
  exact fun _ => ⟨rfl, rfl, rfl⟩

theorem endSlow_kept (n : Nat) (s : State) : FanKept n s (endSlow n s) := by
  unfold endSlow
  split
  · split
    · refine FanKept.update ?_ s
      exact fun _ => ⟨rfl, rfl, rfl⟩
    · exact ⟨rfl, rfl, rfl, fun _ _ => rfl⟩
  · exact ⟨rfl, rfl, rfl, fun _ _ => rfl⟩

/-- The periods of a channel after an edge. -/
def edgePeriods (u : Nat) (x : Fan) : List Nat :=
  match x.lastEdge with
  | some v => (((u - v) / us) :: x.periods).take 4
  | none => x.periods

/-- A channel takes an edge. -/
def edgeTaken (n : Nat) (s : State) : State :=
  updFan n (fun y => { y with lastEdge := some s.clock.uptime, periods := edgePeriods s.clock.uptime (fan s n), edges := (s.clock.uptime :: y.edges).take 256 }) s

/-- TACH_EDGES edges lie within TACH_TMO. -/
def edgesEnough (n : Nat) (s : State) : Bool :=
  match (fan s n).edges[rf s (Reg.FAN_CFG n) 23 16 - 1]? with
  | some v => decide (s.clock.uptime - v ≤ (fan s n).tmo)
  | none => false

theorem tachEdge_eq {n t : Nat} {s0 : State} (h : (fan (advanceTo t s0) n).state ≠ 0) : tachEdge n t s0 =
    if ((fan (advanceTo t s0) n).state = 4 ∨ (fan (advanceTo t s0) n).state = 5) ∧ edgesEnough n (edgeTaken n (advanceTo t s0)) = true then
      setFan n 3 (edgeTaken n (advanceTo t s0))
    else endSlow n (noteSpeed n (edgeTaken n (advanceTo t s0))) := by
  unfold tachEdge
  dsimp only
  rw [if_neg h]
  rfl

/-- Edges that suffice in the list an edge joins. -/
theorem edgesEnough_taken {n : Nat} {s : State} (h : rf s (Reg.FAN_CFG n) 23 16 ≤ 1 ∨
    ∃ e, (fan s n).edges[rf s (Reg.FAN_CFG n) 23 16 - 2]? = some e ∧ s.clock.uptime - e ≤ (fan s n).tmo) :
    edgesEnough n (edgeTaken n s) = true := by
  have he : (fan (edgeTaken n s) n).edges = (s.clock.uptime :: (fan s n).edges).take 256 := by rw [edgeTaken, fan_updFan_self]
  have ht : (fan (edgeTaken n s) n).tmo = (fan s n).tmo := by
    rw [edgeTaken, fan_updFan_self]
    rfl
  have hlt : rf s (Reg.FAN_CFG n) 23 16 - 1 < 256 := by
    have := bits_lt 23 16 (rn s (Reg.FAN_CFG n))
    have e : rf s (Reg.FAN_CFG n) 23 16 = bits 23 16 (rn s (Reg.FAN_CFG n)) := rfl
    omega
  have hx : ∃ v, (s.clock.uptime :: (fan s n).edges)[rf s (Reg.FAN_CFG n) 23 16 - 1]? = some v ∧ s.clock.uptime - v ≤ (fan s n).tmo := by
    by_cases h1 : rf s (Reg.FAN_CFG n) 23 16 ≤ 1
    · exact ⟨s.clock.uptime, by rw [Nat.sub_eq_zero_of_le h1]; rfl, by rw [Nat.sub_self]; exact Nat.zero_le _⟩
    · obtain ⟨v, hv, hle⟩ := h.resolve_left h1
      refine ⟨v, ?_, hle⟩
      rw [show rf s (Reg.FAN_CFG n) 23 16 - 1 = rf s (Reg.FAN_CFG n) 23 16 - 2 + 1 from by omega, List.getElem?_cons_succ, hv]
  obtain ⟨v, hv, hle⟩ := hx
  unfold edgesEnough
  rw [he, ht, show rf (edgeTaken n s) (Reg.FAN_CFG n) 23 16 = rf s (Reg.FAN_CFG n) 23 16 from rfl, List.getElem?_take_of_lt hlt, hv]
  exact decide_eq_true hle

/-- What a taken edge leaves of its channel. -/
structure EdgeTaken (n u : Nat) (s t : State) : Prop where
  lastEdge : (fan t n).lastEdge = some u
  periods : (fan t n).periods = edgePeriods u (fan s n)
  others : ∀ j, j ≠ n → fan t j = fan s j

theorem edgeTaken_taken (n : Nat) (s : State) : EdgeTaken n s.clock.uptime s (edgeTaken n s) := by
  unfold edgeTaken
  exact ⟨by rw [fan_updFan_self], by rw [fan_updFan_self], fun j hj => fan_updFan_ne _ _ hj⟩

theorem EdgeTaken.kept {n u : Nat} {s t v : State} (h : EdgeTaken n u s t) (k : FanKept n t v) : EdgeTaken n u s v :=
  ⟨k.lastEdge.trans h.lastEdge, k.periods.trans h.periods, fun j hj => (k.others j hj).trans (h.others j hj)⟩

theorem EdgeTaken.set {n u st : Nat} {s t v : State} (h : EdgeTaken n u s t) (k : FanSet n st t v) : EdgeTaken n u s v :=
  ⟨k.lastEdge.trans h.lastEdge, k.periods.trans h.periods, fun j hj => (k.others j hj).trans (h.others j hj)⟩

theorem tachEdge_taken {n t : Nat} {s0 : State} (h : (fan (advanceTo t s0) n).state ≠ 0) :
    EdgeTaken n (advanceTo t s0).clock.uptime (advanceTo t s0) (tachEdge n t s0) := by
  have h1 := edgeTaken_taken n (advanceTo t s0)
  rw [tachEdge_eq h]
  split
  · exact h1.set (setFan_set _ _ _)
  · exact h1.kept ((noteSpeed_kept n _).trans (endSlow_kept n _))

/-! ## Spin-up, pause and timeout (R559) -/

/-- A stall counted (R559). -/
def stallCounted (n : Nat) (s : State) : State :=
  raiseIrq pgFan 6 (event 0x0503 none (le 1 n ++ le 4 ((fan s n).attempts + 1) ++ le 4 (fan s n).edges.length)
    (inc (Reg.FAN_STALL_CNT n) 1 (updFan n (fun y => { y with attempts := (fan s n).attempts + 1 }) s)))

theorem spinupEnd_eq {n t : Nat} {s0 : State} (h1 : (fan (advanceTo t s0) n).state = 1)
    (h : (fan (advanceTo t s0) n).since + (fan (advanceTo t s0) n).spin ≤ (advanceTo t s0).clock.uptime) : spinupEnd n t s0 =
    if rf (advanceTo t s0) (Reg.FAN_CFG n) 23 16 ≤ (fan (advanceTo t s0) n).edges.length then setFan n 3 (advanceTo t s0)
    else setFan n (if (fan (advanceTo t s0) n).attempts + 1 ≤ 3 then 2 else 4) (stallCounted n (advanceTo t s0)) := by
  unfold spinupEnd
  dsimp only
  rw [if_pos ⟨h1, h⟩]
  rfl

theorem fan_inc (k m : Nat) (s : State) (n : Nat) : fan (inc k m s) n = fan s n := rfl

/-- What a counted stall leaves. -/
structure Stalled (n : Nat) (s t : State) : Prop where
  attempts : (fan t n).attempts = (fan s n).attempts + 1
  count : rn t (Reg.FAN_STALL_CNT n) = min 0xFFFFFFFF (rn s (Reg.FAN_STALL_CNT n) + 1)
  irq : (getPage t pgFan).irqRaw.getLsbD 6 = true
  others : ∀ j, j ≠ n → fan t j = fan s j

theorem stallCounted_stalled (n : Nat) (s : State) : Stalled n s (stallCounted n s) := by
  have q : FanQuiet (inc (Reg.FAN_STALL_CNT n) 1 (updFan n (fun y => { y with attempts := (fan s n).attempts + 1 }) s)) (stallCounted n s) :=
    (FanQuiet.event _ _ _ _).trans (.raise 6 _)
  refine ⟨?_, ?_, raiseIrq_raw (by decide) _, fun j hj => ?_⟩
  · rw [fan_congr q.fans n, fan_inc, fan_updFan_self]
  · exact (rn_congr (q.regs _ (by simp))).trans (rn_inc_self _ _ _)
  · rw [fan_congr q.fans j, fan_inc, fan_updFan_ne _ _ hj]

theorem Stalled.set {n st : Nat} {s t u : State} (h : Stalled n s t) (k : FanSet n st t u) : Stalled n s u := by
  obtain ⟨attempts, count, irq, others⟩ := h
  exact ⟨k.attempts.trans attempts, (rn_congr (k.regs _ (by simp))).trans count, k.irqs 6 irq, fun j hj => (k.others j hj).trans (others j hj)⟩

theorem pauseEnd_eq {n t : Nat} {s0 : State} (h1 : (fan (advanceTo t s0) n).state = 2)
    (h : (fan (advanceTo t s0) n).since + 5000 * ms ≤ (advanceTo t s0).clock.uptime) : pauseEnd n t s0 = setFan n 1 (advanceTo t s0) :=
  if_pos ⟨h1, h⟩

theorem tachTimeout_eq {n t : Nat} {s0 : State} (h1 : (fan (advanceTo t s0) n).state = 3)
    (h : max (fan (advanceTo t s0) n).since ((fan (advanceTo t s0) n).lastEdge.getD 0) + (fan (advanceTo t s0) n).tmo ≤
      (advanceTo t s0).clock.uptime) : tachTimeout n t s0 = setFan n 5 (advanceTo t s0) :=
  if_pos ⟨h1, h⟩

/-! ## A slow fan (R561) -/

theorem keyKind_fanRpmMin (j : Nat) : keyKind (Reg.FAN_RPM_MIN j) = .fan :=
  have : j % 4 < 4 := Nat.mod_lt _ (by decide)
  (keyKind_of (n := 0x004) (by simp only [Reg.FAN_RPM_MIN]; omega)).trans (by decide)

theorem noteSpeed_low {n : Nat} {s : State} {low : Nat} (h3 : (fan s n).state = 3) (hs : (fan s n).speed < rf s (Reg.FAN_RPM_MIN n) 15 0)
    (hl : (fan s n).lowSince = some low) : (fan (noteSpeed n s) n).lowSince = some low := by
  unfold noteSpeed
  dsimp only
  rw [fan_updFan_self, h3, decide_eq_true hs, hl]
  rfl

theorem noteSpeed_slow (n : Nat) (s : State) : (fan (noteSpeed n s) n).slow = (fan s n).slow ∧ (fan (noteSpeed n s) n).tmo = (fan s n).tmo := by
  unfold noteSpeed
  dsimp only
  rw [fan_updFan_self]
  exact ⟨rfl, rfl⟩

theorem noteSpeed_clock (n : Nat) (s : State) : (noteSpeed n s).clock = s.clock := rfl

theorem fanSlow_slows {n t : Nat} {s0 : State} {low : Nat} (hs : (fan (noteSpeed n (advanceTo t s0)) n).slow = false)
    (hl : (fan (noteSpeed n (advanceTo t s0)) n).lowSince = some low)
    (h : low + (fan (noteSpeed n (advanceTo t s0)) n).tmo ≤ (noteSpeed n (advanceTo t s0)).clock.uptime) :
    fanSlow n t s0 = event 0x0505 none (le 1 n ++ le 4 (fan (noteSpeed n (advanceTo t s0)) n).speed)
      (updFan n (fun y => { y with slow := true, okSince := none }) (noteSpeed n (advanceTo t s0))) := by
  unfold fanSlow
  dsimp only
  rw [hl]
  exact if_pos ⟨hs, h⟩

/-! ## Sensors (R548 to R553) -/

/-- The highest valid reading of some sensors and its sensor, over one found before. -/
def hotter (m : Option (Int × Nat)) (e : Nat × Sensor) : Option (Int × Nat) :=
  match m with
  | some (r, _) => if r < e.2.reading then some (e.2.reading, e.1) else m
  | none => some (e.2.reading, e.1)

/-- A reading is reached by the highest found. -/
def Reached (r : Int) (m : Option (Int × Nat)) : Prop := ∃ x k, m = some (x, k) ∧ r ≤ x

theorem hotter_reached {r : Int} {m : Option (Int × Nat)} (h : Reached r m) (e : Nat × Sensor) : Reached r (hotter m e) := by
  obtain ⟨x, k, rfl, hr⟩ := h
  unfold hotter
  dsimp only
  split
  · next hx => exact ⟨_, _, rfl, by omega⟩
  · exact ⟨_, _, rfl, hr⟩

theorem hotter_self (m : Option (Int × Nat)) (e : Nat × Sensor) : Reached e.2.reading (hotter m e) := by
  rcases m with _ | ⟨x, k⟩
  · exact ⟨_, _, rfl, Int.le_refl _⟩
  · unfold hotter
    dsimp only
    split
    · exact ⟨_, _, rfl, Int.le_refl _⟩
    · next hx => exact ⟨_, _, rfl, by omega⟩

theorem foldl_hotter_reached {r : Int} (l : Tab Sensor) {m : Option (Int × Nat)} (h : Reached r m ∨ ∃ e ∈ l, e.2.reading = r) :
    Reached r (l.foldl hotter m) := by
  induction l generalizing m with
  | nil => exact h.resolve_right fun ⟨e, he, _⟩ => List.not_mem_nil he
  | cons a l ih =>
    refine ih ?_
    rcases h with h | ⟨e, he, hr⟩
    · exact Or.inl (hotter_reached h a)
    · rcases List.mem_cons.mp he with rfl | he
      · rw [← hr]
        exact Or.inl (hotter_self m e)
      · exact Or.inr ⟨e, he, hr⟩

/-- Tj is no lower than a valid sensor's reading (R549). -/
theorem hottest_reached {s : State} {k : Nat} {x : Sensor} (hx : tfind s.thm.sensors k = some x) (hv : x.valid = true) :
    Reached x.reading (hottest s) :=
  foldl_hotter_reached (validSensors s) (Or.inr ⟨(k, x), List.mem_filter.mpr ⟨mem_of_tfind hx, hv⟩, rfl⟩)

/-- What taking Tj keeps. -/
structure TjTaken (s t : State) : Prop where
  sensors : t.thm.sensors = s.thm.sensors
  shutdown : t.thm.shutdown = s.thm.shutdown
  warn : t.thm.warn = s.thm.warn
  thrAt : t.thm.thrAt = s.thm.thrAt
  thr : rd t Reg.THM_WARN_THR = rd s Reg.THM_WARN_THR

theorem takeTj_taken (s : State) : TjTaken s (takeTj s) := by
  unfold takeTj
  split
  · exact ⟨rfl, rfl, rfl, rfl, rd_wr_ne _ _ (by decide)⟩
  · exact ⟨rfl, rfl, rfl, rfl, rfl⟩

theorem takeTj_reached {s : State} {r : Int} (h : Reached r (hottest s)) : r ≤ (takeTj s).thm.tj := by
  obtain ⟨x, k, he, hr⟩ := h
  unfold takeTj
  rw [he]
  exact hr

theorem raised_thm {n b : Nat} {s t : State} (h : Keeps [.msix, .out, .reg .stk, .rings, .stk] s t) : (raiseIrq n b t).thm = s.thm :=
  ((raiseIrq_keeps n b t (fun _ q => q) (Keeps.refl _ t)).only .thm (by simp)).trans (h.only .thm (by decide))

theorem raised_event_thm (n b code : Nat) (ten : Option Nat) (pl : List Byte) (s : State) : (raiseIrq n b (event code ten pl s)).thm = s.thm :=
  raised_thm (event_keeps code ten pl s (by decide) (Keeps.refl _ s))

theorem raised_alarm_thm (n b i : Nat) (ten : Option Nat) (pl : List Byte) (s : State) : (raiseIrq n b (raiseAlarm i ten pl s)).thm = s.thm :=
  raised_thm (raiseAlarm_only i ten pl s)

theorem warning_sensors (s : State) : (warning s).thm.sensors = s.thm.sensors := by
  unfold warning
  dsimp only
  split
  · rw [raised_alarm_thm]
    rfl
  · split
    · rw [raised_event_thm]
    · rfl

/-- At the threshold the warning is on (R550). -/
theorem warning_warns {s : State} (h : (16 * bits 7 0 (warnThr s) : Int) ≤ s.thm.tj) : (warning s).thm.warn = true := by
  unfold warning
  dsimp only
  split
  · rw [raised_alarm_thm]
    rfl
  · next h1 =>
    split
    · next h2 =>
      have hlt := of_decide_eq_true (Bool.and_eq_true_iff.mp h2).2
      omega
    · simpa [h] using h1

theorem warnThr_now {s : State} (h : s.thm.thrAt = none) : warnThr s = rn s Reg.THM_WARN_THR := by
  unfold warnThr
  rw [h]
  exact if_neg (by simp)

/-- The store's state that the grace window opens in. -/
theorem graceStart_thm (s : State) : (graceStart s).thm = s.thm :=
  (graceStart_keeps s (fun _ q => q) (Keeps.refl _ s)).only .thm (by decide)

theorem haltUnits_atRest (s : State) : AtRest (haltUnits s) := clearUnits_atRest (fun c => decide (c = .p) || decide (c = .n)) s

theorem haltUnits_sensors (s : State) : (haltUnits s).thm.sensors = s.thm.sensors := rfl

/-- The latches of shutdown and of the analog trip are not among what rests. -/
theorem AtRest.latched {s : State} (h : AtRest s) (x : Thm) : AtRest { s with thm := x } := h.congr rfl rfl (.inl rfl) rfl rfl rfl (.inl rfl)

/-- What a shutdown leaves (R553). -/
structure ShutDown (s t : State) : Prop where
  shutdown : t.thm.shutdown = true
  sensors : t.thm.sensors = s.thm.sensors
  rest : AtRest t

theorem shutdown_shutDown (s : State) : ShutDown s (shutdown s) := by
  have ht : (graceStart (raiseAlarm 1 none (tjBytes s) (wr Reg.THM_STAT (rd s Reg.THM_STAT ||| 2#32) s))).thm = s.thm :=
    (graceStart_thm _).trans ((raiseAlarm_only _ _ _ _).only .thm (by decide))
  unfold shutdown
  dsimp only
  generalize graceStart (raiseAlarm 1 none (tjBytes s) (wr Reg.THM_STAT (rd s Reg.THM_STAT ||| 2#32) s)) = u at ht
  exact ⟨rfl, (haltUnits_sensors u).trans (congrArg Thm.sensors ht), (haltUnits_atRest u).latched _⟩

/-- A sensor's sample before Tj is taken: the table and the interrupt of a change of validity. -/
def sampleTaken (k : Nat) (x : Sensor) (s : State) : State :=
  match tfind s.thm.sensors k with
  | some o => if o.valid = x.valid then { s with thm := { s.thm with sensors := tput s.thm.sensors k x } } else
      raiseIrq pgThm 6 (event 0x0404 none (le 1 k ++ le 1 (if x.valid then 1 else 0) ++ le 4 (unsigned 32 x.reading))
        { s with thm := { s.thm with sensors := tput s.thm.sensors k x } })
  | none => { s with thm := { s.thm with sensors := tput s.thm.sensors k x } }

theorem sampleTaken_thm (k : Nat) (x : Sensor) (s : State) :
    (sampleTaken k x s).thm = { s.thm with sensors := tput s.thm.sensors k x } := by
  unfold sampleTaken
  split
  · split
    · rfl
    · rw [raised_event_thm]
  · rfl

theorem sampleTaken_thr (k : Nat) (x : Sensor) (s : State) : rd (sampleTaken k x s) Reg.THM_WARN_THR = rd s Reg.THM_WARN_THR := by
  unfold sampleTaken
  split
  · split
    · rfl
    · rw [rd_raiseIrq, rd_event (by decide)]
      rfl
  · rfl

/-- The sensor's record that a sample leaves (R549). -/
def sampled (k : Nat) (raw : BitVec 16) (good : Bool) (s : State) : Sensor × Nat :=
  let v := good && decide (-55 * 16 ≤ raw.toInt ∧ raw.toInt ≤ 150 * 16)
  let hot := if v && decide (125 * 16 ≤ raw.toInt) then (match tfind s.thm.sensors k with | some x => x.hot | none => 0) + 1 else 0
  (⟨raw.toInt, v, min 2 hot⟩, hot)

theorem sampled_congr {s t : State} (h : t.thm = s.thm) (k : Nat) (raw : BitVec 16) (good : Bool) : sampled k raw good t = sampled k raw good s := by
  unfold sampled
  rw [h]

/-- The warning and the shutdown that a taken Tj decides (R550, R553). -/
def sampleJudged (hot : Nat) (s : State) : State :=
  if s.thm.shutdown then s
  else if 2 ≤ hot ∨ invalidCount (warning s) = 16 then shutdown (warning s) else warning s

theorem sensorSample_eq (k : Nat) (raw : BitVec 16) (good : Bool) (t : Nat) {s0 : State} (h : s0.thm.atrip = false) :
    sensorSample k raw good t s0 = sampleJudged (sampled k raw good (advanceTo t s0)).2
      (takeTj (sampleTaken k (sampled k raw good (advanceTo t s0)).1 (advanceTo t s0))) := by
  have hs : (takeTj (sampleTaken k (sampled k raw good (advanceTo t s0)).1 (advanceTo t s0))).thm.shutdown = (advanceTo t s0).thm.shutdown := by
    rw [(takeTj_taken _).shutdown, sampleTaken_thm]
  unfold sampleJudged
  rw [hs]
  unfold sensorSample
  rw [h]
  rfl

theorem sampleJudged_sensors (hot : Nat) (s : State) : (sampleJudged hot s).thm.sensors = s.thm.sensors := by
  unfold sampleJudged
  split
  · rfl
  · split
    · rw [(shutdown_shutDown _).sensors, warning_sensors]
    · exact warning_sensors s

theorem sampleJudged_warns {hot : Nat} {s : State} (h : (16 * bits 7 0 (warnThr s) : Int) ≤ s.thm.tj) :
    (sampleJudged hot s).thm.warn = true ∨ (sampleJudged hot s).thm.shutdown = true := by
  unfold sampleJudged
  split
  · next hs => exact Or.inr hs
  · split
    · exact Or.inr (shutdown_shutDown _).shutdown
    · exact Or.inl (warning_warns h)

theorem sampleJudged_shuts {hot : Nat} {s : State} (h : 2 ≤ hot) (hs : s.thm.shutdown = false) : ShutDown (warning s) (sampleJudged hot s) := by
  unfold sampleJudged
  rw [hs, if_neg Bool.false_ne_true, if_pos (Or.inl h)]
  exact shutdown_shutDown _

/-! ## The analog trip (R555) -/

theorem thmStat_kept : ∃ r, regDef (keyAddr Reg.THM_STAT) = some r ∧ (r.cls = .p ∨ r.cls = .n) := by decide

/-- The units that the comparators' trip leaves, but the latch. -/
def tripped (s : State) : State := haltUnits (crkLose (crkInterrupt true (wr Reg.THM_STAT (rd s Reg.THM_STAT ||| 4#32) s)))

theorem analogTrip_eq {s : State} (h : s.thm.atrip = false) :
    analogTrip s = { tripped s with thm := { (tripped s).thm with atrip := true, shutdown := false } } := by
  unfold analogTrip
  rw [h]
  rfl

theorem tripped_stat (s : State) : rbit (tripped s) Reg.THM_STAT 2 = true := by
  obtain ⟨r, hd, hc⟩ := thmStat_kept
  have hk : (decide (r.cls = .p) || decide (r.cls = .n)) = true := by
    rcases hc with h | h
    · rw [h]
      rfl
    · rw [h]
      rfl
  have h1 := rd_clearUnits (keeps := fun c => decide (c = .p) || decide (c = .n)) hd hk
    (crkLose (crkInterrupt true (wr Reg.THM_STAT (rd s Reg.THM_STAT ||| 4#32) s)))
  have h2 := (crkInterrupt_keeps true (wr Reg.THM_STAT (rd s Reg.THM_STAT ||| 4#32) s) (fun _ q => q) (Keeps.refl _ _)).rd
    (k := Reg.THM_STAT) (by decide)
  have e : rd (tripped s) Reg.THM_STAT = rd s Reg.THM_STAT ||| 4#32 := (h1.trans h2).trans (rd_wr_self _ _ _)
  rw [rbit_eq, rn, e, BitVec.testBit_toNat, BitVec.getLsbD_or]
  simp

/-! ## The statement -/

/-- Settles O54: a sample by the record it leaves and what Tj then decides; the trip and the release by what they set; each fan event as a
channel's change of state. -/
theorem thermalEventsRun : Obligations.ThermalEventsRun := by
  refine ⟨fun k r good u s ha => ?sample, fun s ha => ?trip, fun u c s hs hb hc hle => ?release, fun i u s => ?fans⟩
  case sample =>
    extract_lets v before hot
    have e := sensorSample_eq k.val r good u.toNat ha
    rw [sampled_congr (advance_thm u.toNat s)] at e
    have hhot : (sampled k.val r good s).2 = hot := by
      unfold sampled hot before v
      simp only [Bool.and_eq_true, decide_eq_true_eq] <;> rfl
    have hx : (sampled k.val r good s).1 = ⟨r.toInt, v, min 2 hot⟩ := by
      rw [← hhot]
      rfl
    rw [hhot, hx] at e
    refine ⟨_, congrArg Host.Outcome.next e, ?_⟩
    have hthm := sampleTaken_thm k.val ⟨r.toInt, v, min 2 hot⟩ (advanceTo u.toNat s)
    have hthr := sampleTaken_thr k.val ⟨r.toInt, v, min 2 hot⟩ (advanceTo u.toNat s)
    rw [advance_thm] at hthm
    rw [advance_rd _ _ (by decide)] at hthr
    generalize sampleTaken k.val ⟨r.toInt, v, min 2 hot⟩ (advanceTo u.toNat s) = s2 at hthm hthr
    obtain ⟨sensors, shut, -, thrAt, thr⟩ := takeTj_taken s2
    have hsensors : (takeTj s2).thm.sensors = tput s.thm.sensors k.val ⟨r.toInt, v, min 2 hot⟩ := by rw [sensors, hthm]
    refine ⟨(sampleJudged_sensors _ _).trans hsensors, fun hv hat hle => ?_, fun h2 hs => ?_⟩
    · have hf : tfind s2.thm.sensors k.val = some ⟨r.toInt, v, min 2 hot⟩ := by rw [hthm, tfind_tput_self]
      have htj : r.toInt ≤ (takeTj s2).thm.tj := takeTj_reached (hottest_reached hf hv)
      have hw : warnThr (takeTj s2) = rn s Reg.THM_WARN_THR := by
        rw [warnThr_now (by rw [thrAt, hthm, hat]), rn_congr thr, rn_congr hthr]
      refine sampleJudged_warns ?_
      rw [hw]
      exact Int.le_trans hle htj
    · have h := sampleJudged_shuts (s := takeTj s2) h2 (by rw [shut, hthm, hs])
      exact ⟨h.shutdown, h.rest⟩
  case trip =>
    refine ⟨_, congrArg Host.Outcome.next (analogTrip_eq ha), rfl, rfl, tripped_stat s, ?_⟩
    exact (haltUnits_atRest _).latched _
  case release =>
    have e : holdRelease u.toNat s = { advanceTo u.toNat s with thm := { (advanceTo u.toNat s).thm with shutdown := false } } := by
      unfold holdRelease
      dsimp only
      rw [advance_thm, hc]
      refine if_pos ⟨hs, ?_, ?_⟩
      · rw [advance_pwr]
        exact hb
      · rw [uptime_advance]
        exact hle
    refine next_at (execShutdownHoldRelease_keeps u s) (by decide) (congrArg Host.Outcome.next e) ?_
    exact congrArg (fun x : Thm => { x with shutdown := false }) (advance_thm u.toNat s)
  case fans =>
    extract_lets at' x need
    have hu : (advanceTo u.toNat s).clock.uptime = at' := uptime_advance u.toNat s
    have hf : ∀ j, fan (advanceTo u.toNat s) j = fan s j := fan_congr (advance_fans u.toNat s)
    have hn : rf (advanceTo u.toNat s) (Reg.FAN_CFG i.val) 23 16 = need := rf_congr (advance_rd _ _ (by simp)) 23 16
    refine ⟨fun h0 => ?edge, fun h1 hle => ?spinup, fun h2 hle => ?pause, fun h3 hle => ?lost, fun hm => ?auto,
      fun low h3 hs hl hns hle => ?slow⟩
    case edge =>
      refine next_at (execFanTachEdge_keeps i u s) (by decide) rfl ?_
      have h0' : (fan (advanceTo u.toNat s) i.val).state ≠ 0 := by rw [hf]; exact h0
      obtain ⟨lastEdge, periods, others⟩ := tachEdge_taken h0'
      rw [hu] at lastEdge periods
      rw [hf] at periods
      refine ⟨lastEdge, periods, fun h45 hedges => ?_, fun j hj => (others j hj).trans (hf j)⟩
      have henough : edgesEnough i.val (edgeTaken i.val (advanceTo u.toNat s)) = true := by
        refine edgesEnough_taken ?_
        rw [hf, hn, hu]
        exact hedges
      rw [tachEdge_eq h0', if_pos ⟨by rw [hf]; exact h45, henough⟩]
      exact (setFan_set i.val 3 _).state
    case spinup =>
      refine next_at (execFanSpinupEnd_keeps i u s) (by decide) rfl ?_
      have e := spinupEnd_eq (n := i.val) (t := u.toNat) (s0 := s) (by rw [hf]; exact h1) (by rw [hf, hu]; exact hle)
      rw [hf, hn] at e
      rw [e]
      by_cases hen : need ≤ x.edges.length
      · rw [if_pos hen]
        obtain ⟨state, -, attempts, -, -, others, -, -⟩ := setFan_set i.val 3 (advanceTo u.toNat s)
        refine ⟨fun _ => ⟨state, attempts.trans (congrArg Fan.attempts (hf _))⟩, fun h => absurd hen (Nat.not_le.mpr h),
          fun j hj => (others j hj).trans (hf j)⟩
      · rw [if_neg hen]
        have hset := setFan_set i.val (if x.attempts + 1 ≤ 3 then 2 else 4) (stallCounted i.val (advanceTo u.toNat s))
        obtain ⟨attempts, count, irq, others⟩ := (stallCounted_stalled i.val (advanceTo u.toNat s)).set hset
        refine ⟨fun h => absurd h hen, fun _ => ⟨hset.state, ?_, ?_, irq⟩, fun j hj => (others j hj).trans (hf j)⟩
        · rw [attempts, hf]
        · rw [count, rn_congr (advance_rd _ _ (by simp))]
    case pause =>
      refine next_at (execFanPauseEnd_keeps i u s) (by decide) rfl ?_
      rw [pauseEnd_eq (by rw [hf]; exact h2) (by rw [hf, hu]; exact hle)]
      obtain ⟨state, since, -, -, -, others, -, -⟩ := setFan_set i.val 1 (advanceTo u.toNat s)
      exact ⟨state, since.trans hu, fun j hj => (others j hj).trans (hf j)⟩
    case lost =>
      refine next_at (execFanTachTimeout_keeps i u s) (by decide) rfl ?_
      rw [tachTimeout_eq (by rw [hf]; exact h3) (by rw [hf, hu]; exact hle)]
      obtain ⟨hset, halarm, hirq⟩ := setFan_lost i.val (advanceTo u.toNat s)
      exact ⟨hset.state, halarm, hirq, fun j hj => (hset.others j hj).trans (hf j)⟩
    case auto =>
      refine next_at (execFanAutoUpdate_keeps i s) (by decide) (congrArg Host.Outcome.next (if_pos hm)) ?_
      exact ⟨fan_updFan_self _ _ _, fun j hj => fan_updFan_ne _ _ hj⟩
    case slow =>
      refine next_at (execFanSlow_keeps i u s) (by decide) rfl ?_
      have hslow := noteSpeed_slow i.val (advanceTo u.toNat s)
      have hstate := (noteSpeed_kept i.val (advanceTo u.toNat s)).state
      have hlow : (fan (noteSpeed i.val (advanceTo u.toNat s)) i.val).lowSince = some low := by
        refine noteSpeed_low ?_ ?_ ?_
        · rw [hf]
          exact h3
        · rw [hf, rf_congr (advance_rd _ _ (by simp [keyKind_fanRpmMin]))]
          exact hs
        · rw [hf]
          exact hl
      rw [hf] at hslow hstate
      rw [fanSlow_slows (hslow.1.trans hns) hlow (by rw [hslow.2, noteSpeed_clock, hu]; exact hle)]
      have q := FanQuiet.event 0x0505 none (le 1 i.val ++ le 4 (fan (noteSpeed i.val (advanceTo u.toNat s)) i.val).speed)
        (updFan i.val (fun y => { y with slow := true, okSince := none }) (noteSpeed i.val (advanceTo u.toNat s)))
      refine ⟨?_, ?_, fun j hj => ?_⟩
      · rw [fan_congr q.fans, fan_updFan_self]
      · rw [fan_congr q.fans, fan_updFan_self]
        exact hstate.trans h3
      · rw [fan_congr q.fans, fan_updFan_ne _ _ hj, (noteSpeed_kept i.val _).others j hj, hf]

end Sys2Proof.Machine
end

section
/-! SUPPORT. The proof of how captures, Tramline roles, calibration, GLB_RST and fan modes start (O40). -/

namespace Sys2Proof.Machine
open Sys2Proof

/-- A field that a register's mask covers reads as written. -/
theorem bits_masked {m : Word} {hi lo : Nat} (hm : ∀ i, lo ≤ i → i ≤ hi → m.getLsbD i = true) (hlo : lo ≤ hi) (old v : Word) :
    bits hi lo ((v &&& m) ||| (old &&& ~~~m)).toNat = bits hi lo v.toNat := by
  apply Nat.eq_of_testBit_eq
  intro i
  rw [testBit_bits, testBit_bits, BitVec.testBit_toNat, BitVec.testBit_toNat]
  by_cases hi' : i < hi - lo + 1
  · have h := hm (lo + i) (by omega) (by omega)
    simp [h]
  · rw [decide_eq_false hi', Bool.false_and, Bool.false_and]

theorem bits_zero_testBit (v : Word) (i : Nat) : bits i i v.toNat = if v.getLsbD i then 1 else 0 := by
  rw [bits, Nat.sub_self, Nat.zero_add, Nat.pow_one, ← BitVec.testBit_toNat, Nat.testBit_eq_decide_div_mod_eq]
  by_cases h : v.toNat / 2 ^ i % 2 = 1
  · rw [h, decide_eq_true rfl, if_pos rfl]
  · rw [if_neg (by simpa using h)]
    omega

theorem bits_one_zero (v : Nat) : bits 1 0 v = v % 4 := congrArg (· % 4) (Nat.div_one v)

/-! ## Shading capture (R378) -/

theorem inRange_of_row {addr : Nat} (v : Word) (h : ∃ r, regDef addr = some r ∧ r.ranges = []) : inRange addr v = true := by
  obtain ⟨r, hd, hr⟩ := h
  exact inRange_none v fun r' hd' => by
    rw [hd] at hd'
    exact (Option.some.inj hd') ▸ hr

theorem iplCtrl_inRange (k : Fin 4) (v : Word) : inRange (Reg.IPL_C_CTRL k.val) v = true :=
  inRange_of_row v (by revert k; decide)

theorem captWrite_starts {k : Nat} {v : Word} {s : State} {mode : Nat} (hm : bits 1 0 v.toNat = mode) (h12 : mode = 1 ∨ mode = 2)
    (hc : bits 11 8 v.toNat ≤ 10) (hn : (cam s k).capture = none) : captWrite k v s =
      updCam k (fun g => { g with capture := some ⟨mode, bits 11 8 v.toNat, 2 ^ bits 11 8 v.toNat, []⟩ }) s := by
  unfold captWrite
  dsimp only
  rw [hm, hn, if_neg (by omega), if_neg (by omega), if_neg (by simp)]

/-- A capture that a write starts, dark or white. -/
theorem capture_starts {ini : Initiator} {k : Fin 4} {v : Word} {s : State} {mode : Nat} (hw : Writable ini (Reg.IPL_C_CTRL k.val) s = true)
    (hm : bits 1 0 v.toNat = mode) (h12 : mode = 1 ∨ mode = 2) (hc : bits 11 8 v.toNat ≤ 10) (hn : (cam s k.val).capture = none) :
    ∃ t, guardWrite ini (Reg.IPL_C_CTRL k.val) allBytes v (captWrite k.val) s = t ∧
      (cam t k.val = { cam s k.val with capture := some ⟨mode, bits 11 8 v.toNat, 2 ^ bits 11 8 v.toNat, []⟩ }) ∧ Only [.ipl] s t := by
  refine ⟨_, (guardWrite_writable hw (iplCtrl_inRange k v) _).trans (captWrite_starts hm h12 hc hn), cam_updCam_self _ _ _, ?_⟩
  exact (updCam_keeps _ _ _ (by decide) (Keeps.refl _ s)).only

/-- The shading table a capture gives. -/
def capturedTable (k : Nat) (c : Capture) (s : State) : List Nat :=
  c.sums.zipIdx.map fun q => captEntry c.mode c.cnt (rf s (Reg.IPL_C_WHITE k) 11 0)
    (((cam s k).pendTable.getD (cam s k).table).getD q.2 0) q.1

/-- The capture over, its table waiting and told. -/
def captureOver (k : Nat) (c : Capture) (s : State) : State :=
  let nch := dtChannels (rf s (Reg.IPL_C_CSI k) 7 2)
  let bad := ((List.range ((capturedTable k c s).length / nch)).filter fun x =>
    (List.range nch).any fun ch => decide ((capturedTable k c s).getD (x * nch + ch) 0 < 65536)).length
  raiseIrq (pgIpl k) 6 (event 0x6003 none (le 1 k ++ le 1 c.mode ++ le 4 (2 ^ c.cnt) ++ le 2 bad)
    (updCam k (fun g => { g with capture := none, pendTable := some (capturedTable k c s) }) s))

/-- A page marked as pending. -/
def pagePended (n : Nat) (s : State) : State := updPage n (fun g => { g with pending := true, wrote := true }) (notePage n s)

theorem pendPage_pgIpl {k : Nat} (hk : k < 4) (s : State) : pendPage (pgIpl k) s = idleLatch (pgIpl k) (pagePended (pgIpl k) s) := by
  have h3 : pageSrc (pgIpl k) = 3 := by rw [pageSrc, pageOf_pgIpl hk]; rfl
  unfold pendPage
  dsimp only
  rw [h3, if_neg (by decide)]
  rfl

theorem captDone_over {k : Nat} (hk : k < 4) {c : Capture} {s : State} (hc : (cam s k).capture = some c) (h0 : c.left = 0) :
    captDone k s = idleLatch (pgIpl k) (pagePended (pgIpl k) (captureOver k c s)) := by
  unfold captDone
  rw [hc]
  dsimp only
  rw [if_neg (by rw [h0]; exact fun h => h rfl)]
  exact pendPage_pgIpl hk _

/-- What marking a page as pending keeps of it. -/
theorem pagePended_page (n : Nat) (s : State) : (getPage (pagePended n s) n).pending = true ∧
    (getPage (pagePended n s) n).hold = (getPage s n).hold ∧ (getPage (pagePended n s) n).cmdHold = (getPage s n).cmdHold ∧
    (getPage (pagePended n s) n).irqRaw = (getPage s n).irqRaw := by
  have h : (getPage (notePage n s) n).irqRaw = (getPage s n).irqRaw := by
    unfold notePage
    dsimp only
    split
    · rfl
    · rw [getPage_putPage_self]
  have hh := notePage_holds n s n
  unfold pagePended
  rw [getPage_updPage_self]
  exact ⟨rfl, hh.1, hh.2, h⟩

theorem pagePended_keeps (n : Nat) (s : State) : Keeps [.reg (pageKind n)] s (pagePended n s) :=
  updPage_keeps _ _ _ (fun _ q => q) (notePage_keeps n s (fun _ q => q) (Keeps.refl _ s))

theorem pagePended_rd (n : Nat) (s : State) (k : Nat) : rd (pagePended n s) k = rd s k := by
  unfold pagePended
  rw [rd_updPage]
  exact rd_of_regs (notePage_regs n s) k

/-- What the end of a capture leaves before its page's latch. -/
structure CaptureEnded (k : Nat) (new : List Nat) (s t : State) : Prop where
  capture : (cam t k).capture = none
  pendTable : (cam t k).pendTable = some new
  table : (cam t k).table = (cam s k).table
  irq : (getPage t (pgIpl k)).irqRaw.getLsbD 6 = true
  pending : (getPage t (pgIpl k)).pending = true
  hold : (getPage t (pgIpl k)).hold = (getPage s (pgIpl k)).hold
  cmdHold : (getPage t (pgIpl k)).cmdHold = (getPage s (pgIpl k)).cmdHold
  idle : pageIdle t (pgIpl k) = pageIdle s (pgIpl k)

theorem raised_event_holds {n b code : Nat} {ten : Option Nat} {pl : List Byte} {s : State} (hn : pageKind n ≠ .stk) :
    (getPage (raiseIrq n b (event code ten pl s)) n).hold = (getPage s n).hold ∧
      (getPage (raiseIrq n b (event code ten pl s)) n).cmdHold = (getPage s n).cmdHold := by
  have h : getPage (event code ten pl s) n = getPage s n :=
    page_of_keeps (event_keeps code ten pl s (fun _ q => q) (Keeps.refl _ s)) n (by simpa using hn)
  rw [raiseIrq, raiseBits_page, h]
  exact ⟨rfl, rfl⟩

theorem captureOver_ended {k : Nat} (hk : k < 4) (c : Capture) (s : State) :
    CaptureEnded k (capturedTable k c s) s (pagePended (pgIpl k) (captureOver k c s)) := by
  unfold captureOver
  extract_lets nch bad
  generalize le 1 k ++ le 1 c.mode ++ le 4 (2 ^ c.cnt) ++ le 2 bad = pl
  generalize hu : updCam k (fun g => { g with capture := none, pendTable := some (capturedTable k c s) }) s = u
  have hn : pageKind (pgIpl k) ≠ .stk := by rw [pageKind_pgIpl]; decide
  have kr := raised_keeps (n := pgIpl k) (b := 6) (code := 0x6003) (ten := none) (pl := pl) u
  have hirq : (getPage (raiseIrq (pgIpl k) 6 (event 0x6003 none pl u)) (pgIpl k)).irqRaw.getLsbD 6 = true := raiseIrq_raw (by decide) _
  obtain ⟨hh, hc⟩ := raised_event_holds (n := pgIpl k) (b := 6) (code := 0x6003) (ten := none) (pl := pl) (s := u) hn
  have hfk : keyKind (Reg.IPL_C_FRAME k) = .iplP := keyKind_iplP 0x10C k (by decide)
  have hfr : rd (raiseIrq (pgIpl k) 6 (event 0x6003 none pl u)) (Reg.IPL_C_FRAME k) = rd u (Reg.IPL_C_FRAME k) := by
    rw [rd_raiseIrq, rd_event (by rw [hfk]; decide)]
  generalize raiseIrq (pgIpl k) 6 (event 0x6003 none pl u) = w at kr hirq hh hc hfr
  obtain ⟨ppend, phold, pcmd, pirq⟩ := pagePended_page (pgIpl k) w
  have kp := pagePended_keeps (pgIpl k) w
  have hpr := pagePended_rd (pgIpl k) w (Reg.IPL_C_FRAME k)
  generalize pagePended (pgIpl k) w = t at ppend phold pcmd pirq kp hpr
  have hipl : t.ipl = u.ipl := (kp.only .ipl (by simp)).trans (kr.only .ipl (by simp))
  have hcam : cam t k = { cam s k with capture := none, pendTable := some (capturedTable k c s) } := by
    rw [cam_congr hipl, ← hu, cam_updCam_self]
  have hpl : ∀ p, plane t p = plane s p := fun p => by
    rw [plane_congr ((kp.only .kln (by simp)).trans (kr.only .kln (by simp))) p, ← hu]
    rfl
  have hcp : camPlane t k = camPlane s k := by
    rw [camPlane, rf_congr (hpr.trans hfr), ← hu]
    rfl
  have hrun : camRunning t k = camRunning s k := by rw [camRunning, camRunning, hcam]
  have hpage : getPage u (pgIpl k) = getPage s (pgIpl k) := by
    rw [← hu]
    rfl
  refine ⟨by rw [hcam], by rw [hcam], by rw [hcam], by rw [pirq, hirq], ppend, ?_, ?_, ?_⟩
  · rw [phold, hh, hpage]
  · rw [pcmd, hc, hpage]
  · rw [pageIdle_pgIpl hk, pageIdle_pgIpl hk, hrun, hpl, hcp]

/-- A page that applies keeps its raised interrupts. -/
theorem iplApplied_irq {k b : Nat} (hk : k < 4) {s : State} (h : (getPage s (pgIpl k)).irqRaw.getLsbD b = true) :
    (getPage (iplApplied k s) (pgIpl k)).irqRaw.getLsbD b = true := by
  have hn : pageKind (pgIpl k) ≠ .stk := by rw [pageKind_pgIpl]; decide
  have hc : (getPage (pageCommitted (pgIpl k) s) (pgIpl k)).irqRaw.getLsbD b = true := by
    unfold pageCommitted
    dsimp only
    rw [page_of_keeps (acceptEvent_keeps _ _ _ _ _ _ (fun _ q => q) (Keeps.refl _ _)) _ (by simp), raiseIrq, raiseBits_page,
      getPage_putPage_self, BitVec.getLsbD_or, h, Bool.true_or]
  rw [iplApplied, camApplied_pgIpl hk]
  refine foldl_holds (I := fun t => (getPage t (pgIpl k)).irqRaw.getLsbD b = true) _ hc fun t q _ ht => ?_
  rw [complete_page _ _ _ _ hn]
  exact ht

/-- The captured table in force, or waiting for its page. -/
theorem captDone_leaves {k : Nat} (hk : k < 4) {c : Capture} {s : State} (hc : (cam s k).capture = some c) (h0 : c.left = 0) :
    let applies := pageIdle s (pgIpl k) && !(getPage s (pgIpl k)).hold && !(getPage s (pgIpl k)).cmdHold
    (cam (captDone k s) k).capture = none ∧ (getPage (captDone k s) (pgIpl k)).irqRaw.getLsbD 6 = true ∧
      (applies = true → (cam (captDone k s) k).table = capturedTable k c s ∧ (cam (captDone k s) k).pendTable = none) ∧
      (applies = false → (cam (captDone k s) k).pendTable = some (capturedTable k c s) ∧ (cam (captDone k s) k).table = (cam s k).table) := by
  intro applies
  obtain ⟨capture, pendTable, table, irq, pending, hold, cmdHold, idle⟩ := captureOver_ended hk c s
  rw [captDone_over hk hc h0, idleLatch_pgIpl hk, idle, pending, hold, cmdHold, Bool.true_and, ← Bool.and_assoc]
  generalize pagePended (pgIpl k) (captureOver k c s) = u at capture pendTable table irq
  by_cases ha : applies = true
  · have hcam : cam (iplApplied k u) k = { cam u k with
        knots := (cam u k).pendKnots.getD (cam u k).knots, table := capturedTable k c s, pendKnots := none, pendTable := none } := by
      rw [(iplApplied_reads hk u).1 k, takeShading, cam_updCam_self, pendTable]
      rfl
    rw [if_pos ha, hcam]
    exact ⟨capture, iplApplied_irq hk irq, fun _ => ⟨rfl, rfl⟩, fun h => absurd (ha.symm.trans h) Bool.noConfusion⟩
  · rw [if_neg ha]
    exact ⟨capture, irq, fun h => absurd h ha, fun _ => ⟨pendTable, table⟩⟩

/-! ## Roles of Tramline (R415 to R417) -/

theorem trmCtrl_row : ∃ r, regDef Reg.TRM_CTRL = some r ∧ r.acc = .rw ∧ r.mask = 0xFF3F#32 ∧ r.w1c = 0#32 ∧ r.ranges = [⟨0, 2, 0, 2⟩] := by
  decide

theorem trmCtrl_inRange {v : Word} (h : v.toNat % 4 ≤ 2) : inRange Reg.TRM_CTRL v = true := by
  obtain ⟨r, hd, -, -, -, hr⟩ := trmCtrl_row
  unfold inRange
  rw [hd]
  dsimp only
  rw [hr]
  simp [bits_one_zero, h]

theorem plainPut_trmCtrl (v : Word) (s : State) :
    plainPut Reg.TRM_CTRL v s = wr Reg.TRM_CTRL ((v &&& 0xFF3F#32) ||| (rd s Reg.TRM_CTRL &&& ~~~0xFF3F#32)) s := by
  obtain ⟨r, hd, ha, hm, hw, -⟩ := trmCtrl_row
  rw [plainPut_rw hd (Or.inl ha), keyOf_plain (by decide), plainValue_noClear hw, hm]

theorem plainPut_trmCtrl_role (v : Word) (s : State) : rf (plainPut Reg.TRM_CTRL v s) Reg.TRM_CTRL 1 0 = v.toNat % 4 := by
  rw [plainPut_trmCtrl, rf, rn, rd_wr_self, bits_masked (by
    intro i _ hi
    have h : ∀ j < 2, (0xFF3F#32).getLsbD j = true := by decide
    exact h i (by omega)) (by decide), bits_one_zero]

theorem plainPut_trmCtrl_bus (v : Word) (s : State) : rbit (plainPut Reg.TRM_CTRL v s) Reg.TRM_CTRL 4 = v.getLsbD 4 := by
  rw [plainPut_trmCtrl, rbit_eq, rn, rd_wr_self, BitVec.testBit_toNat]
  simp

theorem plainPut_trmCtrl_trm (v : Word) (s : State) : (plainPut Reg.TRM_CTRL v s).trm = s.trm := by
  rw [plainPut_trmCtrl]
  rfl

theorem plainPut_trmCtrl_clock (v : Word) (s : State) : (plainPut Reg.TRM_CTRL v s).clock = s.clock := by
  rw [plainPut_trmCtrl]
  rfl

/-- What a change of the node's state leaves: the state, and all else of it; registers as they were. -/
structure TrmSet (st : TrmState) (s t : State) : Prop where
  trm : t.trm = { s.trm with state := st }
  regs : ∀ k, keyKind k ≠ .stk → rd t k = rd s k
  clock : t.clock = s.clock

theorem setTrm_set (st : TrmState) (s : State) : TrmSet st s (setTrm st s) := by
  unfold setTrm
  dsimp only
  split
  · next h => exact ⟨by rw [← h], fun _ _ => rfl, rfl⟩
  · have k := raised_keeps (n := pgTrm) (b := 4) (code := 0x7001) (ten := none)
      (pl := le 1 s.trm.state.code ++ le 1 st.code ++ le 4 (rn s Reg.TRM_FRAME)) { s with trm := { s.trm with state := st } }
    exact ⟨k.only .trm (by decide), fun r hr => by rw [rd_raiseIrq, rd_event hr]; rfl, k.only .clock (by decide)⟩

theorem trmConflict_set (cause : Nat) (s : State) : TrmSet .conflict s (trmConflict cause s) := by
  obtain ⟨trm, regs, clock⟩ := setTrm_set .conflict s
  have k := raiseAlarm_only 16 none (le 1 cause) (setTrm .conflict s)
  have kr := raiseIrq_keeps pgTrm 8 (raiseAlarm 16 none (le 1 cause) (setTrm .conflict s)) (fun _ q => q) (Keeps.refl _ _)
  unfold trmConflict
  refine ⟨((kr.only .trm (by decide)).trans (k.only .trm (by decide))).trans trm, fun r hr => ?_,
    ((kr.only .clock (by decide)).trans (k.only .clock (by decide))).trans clock⟩
  rw [rd_raiseIrq, k.rd (by simpa using hr), regs r hr]

/-- A node that takes a role. -/
def roleTaken (s : State) : State :=
  loseBeacons { s with trm := { s.trm with bus := rbit s Reg.TRM_CTRL 4, missRun := 0, slotTold := false } }

/-- A node that claims to lead. -/
def claimed (s : State) : State := { s with trm := { s.trm with claimAt := now s, chip := chipNumber s } }

theorem trmCtrl_off {v : Word} (h : v.toNat % 4 = 0) (s : State) : trmCtrl v s = trmOff (plainPut Reg.TRM_CTRL v s) := by
  unfold trmCtrl
  dsimp only
  rw [if_neg fun hc => hc.1 h, if_pos h]

theorem trmCtrl_follower {v : Word} (h : v.toNat % 4 = 1) {s : State} (ho : s.trm.state = .off) :
    trmCtrl v s = setTrm .listen (roleTaken (plainPut Reg.TRM_CTRL v s)) := by
  unfold trmCtrl
  dsimp only
  rw [if_neg fun hc => hc.2.2 ho, if_neg (by omega), if_neg (by rw [plainPut_trmCtrl_trm]; exact fun hc => hc ho), if_pos h]
  rfl

theorem trmCtrl_leader {v : Word} (h : v.toNat % 4 = 2) {s : State} (ho : s.trm.state = .off) :
    trmCtrl v s =
      if (setTrm .claiming (claimed (roleTaken (plainPut Reg.TRM_CTRL v s)))).trm.lineLow then
        trmConflict 0 (setTrm .claiming (claimed (roleTaken (plainPut Reg.TRM_CTRL v s))))
      else setTrm .claiming (claimed (roleTaken (plainPut Reg.TRM_CTRL v s))) := by
  unfold trmCtrl
  dsimp only
  rw [if_neg fun hc => hc.2.2 ho, if_neg (by omega), if_neg (by rw [plainPut_trmCtrl_trm]; exact fun hc => hc ho), if_neg (by omega)]
  rfl

theorem roleTaken_bus (s : State) : (roleTaken s).trm.bus = rbit s Reg.TRM_CTRL 4 := rfl

theorem roleTaken_rest (s : State) : (roleTaken s).trm.missRun = 0 ∧ (roleTaken s).trm.lineLow = s.trm.lineLow ∧
    (roleTaken s).regs = s.regs ∧ (roleTaken s).clock = s.clock := ⟨rfl, rfl, rfl, rfl⟩

theorem claimed_trm (s : State) : (claimed s).trm.claimAt = now s ∧ (claimed s).trm.bus = s.trm.bus ∧
    (claimed s).trm.lineLow = s.trm.lineLow ∧ (claimed s).regs = s.regs := ⟨rfl, rfl, rfl, rfl⟩

theorem now_congr {s t : State} (h : t.clock = s.clock) : now t = now s := by rw [now, now, h]

theorem trmOff_leaves (s : State) : (trmOff s).trm.state = .off ∧ (trmOff s).trm.arriveA = none ∧ (trmOff s).trm.arriveB = none ∧
    ∀ k, keyKind k ≠ .stk → rd (trmOff s) k = rd s k := by
  obtain ⟨trm, regs, -⟩ := setTrm_set .off (loseBeacons s)
  unfold trmOff
  dsimp only
  rw [trm]
  exact ⟨rfl, rfl, rfl, fun k hk => regs k hk⟩

/-! ## Calibration, GLB_RST -/

theorem iocalCtrl_starts {v : Word} {s : State} (hv : v.getLsbD 0 = true) (hi : s.clk.iocal = false) : iocalCtrl v s = iocalStart s := by
  unfold iocalCtrl
  rw [bits_zero_testBit, hv, hi, if_pos rfl, if_neg (by decide), if_neg Bool.false_ne_true]

/-- A page other than the mailbox and HIF is written only where no boot is in progress and the units are clocked (R448). -/
theorem Writable.running {ini : Initiator} {addr : Nat} {s : State} (h : Writable ini addr s = true)
    (hn : addr / 0x1000 ≠ pgSag ∧ addr / 0x1000 ≠ pgHif) : clocked s = true ∧ s.pwr.boot = none := by
  unfold Writable at h
  simp only [Bool.and_eq_true] at h
  obtain ⟨⟨⟨hc, hu⟩, -⟩, -⟩ := h
  refine ⟨hc, ?_⟩
  have hoff : pageOff s (addr / 0x1000) = false := by simpa using (Bool.and_eq_true_iff.mp hu).2
  rw [pageOff, Bool.or_eq_false_iff] at hoff
  have := hoff.1
  cases hb : s.pwr.boot with
  | none => rfl
  | some k => simp [hb, hn.1, hn.2] at this

theorem bootCleared_copies (u : State) : (bootCleared .host u).jobs.copies = [] := rfl

theorem glbRst_boots {v : Word} {s : State} (hk : bits 31 16 v.toNat = 0xA5A5) (hv : v.getLsbD 0 = true) (hc : clocked s = true) (hh : deepHolds s = false) : glbRst v s = startBoot .host 5 false s := by
  obtain ⟨hs, ha, hd⟩ : s.thm.shutdown = false ∧ s.thm.atrip = false ∧ s.pwr.state ≠ .deep := by
    simpa [clocked, and_assoc] using hc
  unfold glbRst
  rw [if_pos ⟨hk, by rw [bits_zero_testBit, hv, if_pos rfl]⟩, hostReset_starts ha (.inl hs) hh, if_neg hd]

/-! ## Modes of the fans (R559) -/

theorem fanCfg_row (n : Fin 4) : ∃ r, regDef (Reg.FAN_CFG n.val) = some r ∧ r.acc = .rw ∧ r.mask = 0xFFFF03#32 ∧ r.w1c = 0#32 := by
  revert n
  decide

theorem fanCfg_plain (n : Fin 4) : plainKey (Reg.FAN_CFG n.val) = true := by
  revert n
  decide

theorem plainPut_fanCfg (n : Fin 4) (v : Word) (s : State) : plainPut (Reg.FAN_CFG n.val) v s =
    wr (Reg.FAN_CFG n.val) ((v &&& 0xFFFF03#32) ||| (rd s (Reg.FAN_CFG n.val) &&& ~~~0xFFFF03#32)) s := by
  obtain ⟨r, hd, ha, hm, hw⟩ := fanCfg_row n
  rw [plainPut_rw hd (Or.inl ha), keyOf_plain (fanCfg_plain n), plainValue_noClear hw, hm]

/-- FAN_CFG written, the duty before it held. -/
def cfgWritten (n : Fin 4) (v : Word) (s : State) : State := plainPut (Reg.FAN_CFG n.val) v (holdDuty n.val s)

/-- What the write of FAN_CFG leaves before it acts. -/
structure CfgWritten (n : Fin 4) (v : Word) (s t : State) : Prop where
  value : rd t (Reg.FAN_CFG n.val) = ((v &&& 0xFFFF03#32) ||| (rd s (Reg.FAN_CFG n.val) &&& ~~~0xFFFF03#32))
  mode : fanMode t n.val = bits 1 0 v.toNat
  state : (fan t n.val).state = (fan s n.val).state
  others : ∀ m, m ≠ n.val → fan t m = fan s m
  clock : t.clock = s.clock

theorem holdDuty_kept (n : Nat) (s : State) : FanKept n s (holdDuty n s) := by
  unfold holdDuty
  split
  · exact ⟨rfl, rfl, rfl, fun _ _ => rfl⟩
  · refine FanKept.update ?_ s
    exact fun _ => ⟨rfl, rfl, rfl⟩

theorem fan_wr (k : Nat) (v : Word) (s : State) (n : Nat) : fan (wr k v s) n = fan s n := rfl

theorem cfgWritten_written (n : Fin 4) (v : Word) (s : State) : CfgWritten n v s (cfgWritten n v s) := by
  have hk := holdDuty_keeps n.val s (fun _ q => q) (Keeps.refl _ s)
  have hr : rd (holdDuty n.val s) (Reg.FAN_CFG n.val) = rd s (Reg.FAN_CFG n.val) := hk.rd (by simp)
  obtain ⟨state, -, -, others⟩ := holdDuty_kept n.val s
  have hcl : (holdDuty n.val s).clock = s.clock := hk.only .clock (by decide)
  unfold cfgWritten
  rw [plainPut_fanCfg, hr]
  refine ⟨rd_wr_self _ _ _, ?_, by rw [fan_wr, state], fun m hm => by rw [fan_wr, others m hm], hcl⟩
  rw [fanMode, rf, rn, rd_wr_self, bits_masked (by
    intro i _ hi
    have h : ∀ j < 2, (0xFFFF03#32).getLsbD j = true := by decide
    exact h i (by omega)) (by decide)]

theorem fanCfgWrite_eq (n : Fin 4) (v : Word) (s : State) : fanCfgWrite n.val v s =
    if fanMode s n.val = 0 ∧ fanMode (cfgWritten n v s) n.val ≠ 0 then
      setFan n.val 1 (updFan n.val (fun y => { y with attempts := 0 }) (cfgWritten n v s))
    else if fanMode (cfgWritten n v s) n.val = 0 ∧ (fan (cfgWritten n v s) n.val).state ≠ 0 then setFan n.val 0 (cfgWritten n v s)
    else updFan n.val (fun y => { y with auto := if fanMode s n.val = 2 then y.auto else fanAuto (cfgWritten n v s) n.val }) (cfgWritten n v s) :=
  rfl

/-- What FAN_CFG's write leaves of the channels. -/
structure ModeTaken (n : Fin 4) (v : Word) (s t : State) : Prop where
  value : rd t (Reg.FAN_CFG n.val) = ((v &&& 0xFFFF03#32) ||| (rd s (Reg.FAN_CFG n.val) &&& ~~~0xFFFF03#32))
  starts : fanMode s n.val = 0 → bits 1 0 v.toNat ≠ 0 → (fan t n.val).state = 1 ∧ (fan t n.val).attempts = 0 ∧ (fan t n.val).since = s.clock.uptime
  ends : bits 1 0 v.toNat = 0 → (fan t n.val).state = 0
  stays : fanMode s n.val ≠ 0 → bits 1 0 v.toNat ≠ 0 → (fan t n.val).state = (fan s n.val).state
  others : ∀ m, m ≠ n.val → fan t m = fan s m

theorem fanCfgWrite_taken (n : Fin 4) (v : Word) (s : State) : ModeTaken n v s (fanCfgWrite n.val v s) := by
  obtain ⟨value, mode, state, others, clock⟩ := cfgWritten_written n v s
  rw [fanCfgWrite_eq, mode]
  generalize cfgWritten n v s = u at value state others clock
  split
  · next h =>
    obtain ⟨h0, hv⟩ := h
    have hset := setFan_set n.val 1 (updFan n.val (fun y => { y with attempts := 0 }) u)
    refine ⟨(hset.regs _ (by simp)).trans value, fun _ _ => ⟨hset.state, ?_, ?_⟩, fun h => absurd h hv, fun h => absurd h0 h, fun m hm => ?_⟩
    · rw [hset.attempts, fan_updFan_self]
    · rw [hset.since, updFan_clock, clock]
    · rw [hset.others m hm, fan_updFan_ne _ _ hm, others m hm]
  · next h =>
    split
    · next h0 =>
      have hset := setFan_set n.val 0 u
      exact ⟨(hset.regs _ (by simp)).trans value, fun _ hv => absurd h0.1 hv, fun _ => hset.state, fun _ hv => absurd h0.1 hv,
        fun m hm => (hset.others m hm).trans (others m hm)⟩
    · next h0 =>
      refine ⟨value, fun hm hv => absurd ⟨hm, hv⟩ h, fun hv => ?_, fun _ _ => ?_, fun m hm => (fan_updFan_ne _ _ hm).trans (others m hm)⟩
      · rw [fan_updFan_self]
        by_contra hs
        exact h0 ⟨hv, hs⟩
      · rw [fan_updFan_self]
        exact state

/-! ## The statement -/

/-- Settles O40: each write by its operation under a page that may be written, the capture's end by its page's latch. -/
theorem unitModesChange : Obligations.UnitModesChange := by
  refine ⟨fun ini k v s hw hc hn => ?capture, fun k c s hc h0 => ?ended, fun ini v s hw => ?roles, fun ini v s hw hv hi => ?iocal,
    fun ini v s hw hk hv hh => ?glb, fun ini n v s hw hr => ?fans⟩
  case capture =>
    constructor
    · intro hm
      obtain ⟨t, e, h⟩ := capture_starts hw hm (.inl rfl) hc hn
      exact ⟨t, congrArg Host.Outcome.next e, h⟩
    · intro hm
      obtain ⟨t, e, h⟩ := capture_starts hw hm (.inr rfl) hc hn
      exact ⟨t, congrArg Host.Outcome.next e, h⟩
  case ended =>
    intro old new applies
    exact next_at (execShadingCaptureDone_keeps k s) (by decide) rfl (captDone_leaves k.isLt hc h0)
  case roles =>
    have hg : v.toNat % 4 ≤ 2 → trmCtrlWrite ini v s = trmCtrl v s := fun h => guardWrite_writable hw (trmCtrl_inRange h) trmCtrl
    have hk : v.toNat % 4 ≤ 2 → Keeps [.msix, .out, .reg .stk, .reg .trm, .rings, .stk, .trm] s (trmCtrlWrite ini v s) := fun h => by
      rw [hg h]
      exact trmCtrl_keeps v s (fun _ q => q) (Keeps.refl _ s)
    have hrole := plainPut_trmCtrl_role v s
    have hbus := plainPut_trmCtrl_bus v s
    have htrm := plainPut_trmCtrl_trm v s
    have hclock := plainPut_trmCtrl_clock v s
    refine ⟨fun h => ?off, fun h ho => ?follower, fun h ho => ?leader⟩
    case off =>
      have e : trmCtrlWrite ini v s = trmOff (plainPut Reg.TRM_CTRL v s) := (hg (by omega)).trans (trmCtrl_off h s)
      obtain ⟨state, a, b, regs⟩ := trmOff_leaves (plainPut Reg.TRM_CTRL v s)
      refine ⟨_, congrArg Host.Outcome.next e, ⟨state, ?_, a, b⟩, (e ▸ hk (by omega)).only⟩
      rw [rf_congr (regs _ (by decide)), hrole, h]
    case follower =>
      have e := (hg (by omega)).trans (trmCtrl_follower h ho)
      generalize plainPut Reg.TRM_CTRL v s = u at e hrole hbus
      obtain ⟨trm, regs, -⟩ := setTrm_set .listen (roleTaken u)
      obtain ⟨miss, -, hregs, -⟩ := roleTaken_rest u
      refine ⟨_, congrArg Host.Outcome.next e, ⟨by rw [trm], ?_, ?_, ?_⟩, (e ▸ hk (by omega)).only⟩
      · rw [rf_congr (regs _ (by decide)), rf_congr (rd_of_regs hregs _), hrole, h]
      · rw [trm, ← hbus]
        exact roleTaken_bus u
      · rw [trm]
        exact miss
    case leader =>
      have e := (hg (by omega)).trans (trmCtrl_leader h ho)
      generalize plainPut Reg.TRM_CTRL v s = u at e hrole hbus htrm hclock
      obtain ⟨-, low, hregs, hrclock⟩ := roleTaken_rest u
      obtain ⟨cat, cbus, clow, cregs⟩ := claimed_trm (roleTaken u)
      obtain ⟨trm, regs, -⟩ := setTrm_set .claiming (claimed (roleTaken u))
      have hat : now (roleTaken u) = now s := now_congr (hrclock.trans hclock)
      have hl : (setTrm .claiming (claimed (roleTaken u))).trm.lineLow = s.trm.lineLow := by
        rw [trm, ← htrm, ← low]
        exact clow
      have hrd : rd (setTrm .claiming (claimed (roleTaken u))) Reg.TRM_CTRL = rd u Reg.TRM_CTRL :=
        (regs _ (by decide)).trans ((rd_of_regs cregs _).trans (rd_of_regs hregs _))
      rw [hl] at e
      refine ⟨_, congrArg Host.Outcome.next e, ?_, (e ▸ hk (by omega)).only⟩
      cases s.trm.lineLow with
      | true =>
        obtain ⟨trm', regs', -⟩ := trmConflict_set 0 (setTrm .claiming (claimed (roleTaken u)))
        refine ⟨congrArg Trm.state trm', ?_, ?_, ?_⟩
        · exact (rf_congr ((regs' _ (by decide)).trans hrd) 1 0).trans (hrole.trans h)
        · exact (congrArg Trm.bus trm').trans ((congrArg Trm.bus trm).trans hbus)
        · exact (congrArg Trm.claimAt trm').trans ((congrArg Trm.claimAt trm).trans hat)
      | false =>
        refine ⟨congrArg Trm.state trm, ?_, ?_, ?_⟩
        · exact (rf_congr hrd 1 0).trans (hrole.trans h)
        · exact (congrArg Trm.bus trm).trans hbus
        · exact (congrArg Trm.claimAt trm).trans hat
  case iocal =>
    have e : guardWrite ini Reg.CLK_IOCAL_CTRL allBytes v iocalCtrl s = iocalStart s :=
      (guardWrite_writable hw (inRange_of_row v (by decide)) iocalCtrl).trans (iocalCtrl_starts hv hi)
    exact ⟨_, congrArg Host.Outcome.next e, rfl, (iocalStart_keeps s (fun _ q => q) (Keeps.refl _ s)).only⟩
  case glb =>
    obtain ⟨hc, hb⟩ := Writable.running hw (by decide)
    have hgov : Governs .host s := fun k' h => by
      rw [hb] at h
      exact nomatch h
    have e : guardWrite ini Reg.GLB_RST allBytes v glbRst s = startBoot .host 5 false s :=
      (guardWrite_writable hw (inRange_of_row v (by decide)) glbRst).trans (glbRst_boots hk hv hc hh)
    obtain ⟨rest, boot, -, cause⟩ := startBoot_rebooting hgov (cause := 5) (by decide) false
    refine next_at (execGlbRstWrite_keeps ini v s) (by decide) (congrArg Host.Outcome.next e) ⟨boot, cause, ?_, ?_, ?_⟩
    · obtain ⟨-, -, -, rings, -⟩ := rest
      exact rings
    · rw [startBoot_governs hgov]
      exact bootCleared_copies _
    · exact rest.1
  case fans =>
    have e : guardWrite ini (Reg.FAN_CFG n.val) allBytes v (fanCfgWrite n.val) s = fanCfgWrite n.val v s := guardWrite_writable hw hr _
    obtain ⟨value, starts, ends, stays, others⟩ := fanCfgWrite_taken n v s
    exact ⟨_, congrArg Host.Outcome.next e, ⟨value, starts, ends, stays, others⟩,
      (fanCfgWrite_keeps n.val v s (fun _ q => q) (Keeps.refl _ s)).only⟩

end Sys2Proof.Machine
end

section
/-! SUPPORT. The proof of what Tramline's beacons, bursts, claims and conflicts do (O48). -/

namespace Sys2Proof.Machine
open Sys2Proof

/-! ## Fields of a burst and registers of the unit -/

theorem leVal_lt (l : List Byte) : leVal l < 2 ^ (8 * l.length) := by
  induction l with
  | nil => exact Nat.zero_lt_one
  | cons b l ih =>
    have hb := b.isLt
    have hp : 2 ^ (8 * (b :: l).length) = 256 * 2 ^ (8 * l.length) := by
      rw [List.length_cons, Nat.mul_add, Nat.pow_add, Nat.mul_comm]
    rw [hp, leVal]
    omega

theorem leAt_lt (bs : List Byte) (off n : Nat) : leAt bs off n < 2 ^ (8 * n) := by
  refine Nat.lt_of_lt_of_le (leVal_lt _) (Nat.pow_le_pow_right (by decide) ?_)
  have := List.length_take_le n (bs.drop off)
  omega

theorem nodeStat_ne {k : Nat} (h : k % 0x1000000 ≠ Reg.TRM_NODE_STAT) (i : Nat) : k ≠ wkey Reg.TRM_NODE_STAT i := by
  rintro rfl
  apply h
  simp only [wkey, Reg.TRM_NODE_STAT]
  omega

theorem nodeRate_ne {k : Nat} (h : k % 0x1000000 ≠ Reg.TRM_NODE_RATE) (i : Nat) : k ≠ wkey Reg.TRM_NODE_RATE i := by
  rintro rfl
  apply h
  simp only [wkey, Reg.TRM_NODE_RATE]
  omega

/-! ## Slots become STALE (R427) -/

/-- A slot becomes STALE. -/
def staleMarked (i : Nat) (s : State) : State := wf Reg.TRM_STALE i i 1 (wf (wkey Reg.TRM_NODE_STAT i) 8 8 1 s)

theorem staleMarked_rn {i k : Nat} (hk : k % 0x1000000 ≠ Reg.TRM_NODE_STAT ∧ k ≠ Reg.TRM_STALE) (s : State) :
    rn (staleMarked i s) k = rn s k := by
  unfold staleMarked
  rw [rn_wf_ne _ _ _ _ hk.2, rn_wf_ne _ _ _ _ (nodeStat_ne hk.1 i)]

theorem staleMarked_bit {i j : Nat} (hi : i < 32) (s : State) (h : j = i ∨ rbit s Reg.TRM_STALE j = true) :
    rbit (staleMarked i s) Reg.TRM_STALE j = true := by
  unfold staleMarked
  by_cases hj : j = i
  · rw [hj, rbit_wf_self _ _ _ _ hi]
    rfl
  · rw [rbit_wf_other _ _ _ ⟨Nat.le_refl i, hi⟩ (by omega), rbit_wf_ne _ _ _ _ _ (nodeStat_ne (by decide) i)]
    exact h.resolve_left hj

theorem markStale_rn {k : Nat} (hk : k % 0x1000000 ≠ Reg.TRM_NODE_STAT ∧ k ≠ Reg.TRM_STALE) (l : List Nat) (s : State) :
    rn (markStale l s) k = rn s k := by
  induction l generalizing s with
  | nil => rfl
  | cons i l ih => exact (ih (staleMarked i s)).trans (staleMarked_rn hk s)

theorem markStale_bit {l : List Nat} (hl : ∀ i ∈ l, i < 32) {j : Nat} {s : State} (h : j ∈ l ∨ rbit s Reg.TRM_STALE j = true) :
    rbit (markStale l s) Reg.TRM_STALE j = true := by
  induction l generalizing s with
  | nil => exact h.resolve_left List.not_mem_nil
  | cons i l ih =>
    have hi := hl i List.mem_cons_self
    refine ih (s := staleMarked i s) (fun x hx => hl x (List.mem_cons_of_mem i hx)) ?_
    rcases h with h | h
    · rcases List.mem_cons.mp h with h | h
      · exact Or.inr (staleMarked_bit hi s (Or.inl h))
      · exact Or.inl h
    · exact Or.inr (staleMarked_bit hi s (Or.inr h))

theorem markStale_only (l : List Nat) (s : State) : Keeps [.reg .trm] s (markStale l s) := markStale_keeps l s (fun _ q => q) (Keeps.refl _ s)

theorem markStale_trm (l : List Nat) (s : State) : (markStale l s).trm = s.trm := (markStale_only l s).only .trm (by decide)

/-! ## Bursts that leave (R418, R422) -/

theorem busOn_congr {s t : State} (h : rd t Reg.TRM_CTRL = rd s Reg.TRM_CTRL) (b : Bool) : busOn t b = busOn s b := rbit_congr h _

theorem sendBurst_trm (at0 at1 : Nat) (body : List Byte) (s : State) : (sendBurst at0 at1 body s).trm = s.trm :=
  (sendBurst_keeps at0 at1 body s (fun _ q => q) (Keeps.refl _ s)).only .trm (by decide)

theorem sendBurst_rd (at0 at1 : Nat) (body : List Byte) (s : State) (k : Nat) : rd (sendBurst at0 at1 body s) k = rd s k :=
  (sendBurst_keeps at0 at1 body s (fun _ q => q) (Keeps.refl _ s)).rd (by simp)

/-- A burst is out on each enabled bus. -/
theorem sendBurst_out (at0 at1 : Nat) (body : List Byte) (s : State) :
    (busOn s false = true → .burst 0 at0 (trmBurst body) ∈ (sendBurst at0 at1 body s).out) ∧
      (busOn s true = true → .burst 1 at1 (trmBurst body) ∈ (sendBurst at0 at1 body s).out) := by
  unfold sendBurst
  cases h0 : busOn s false <;> cases h1 : busOn s true <;> simp [emit]

/-! ## The leader's beacon -/

/-- Slots without a good burst in the frame. -/
def absentSlots (s : State) : List Nat := (List.range 16).filter fun i => decide (i ≠ 0) && !s.trm.seen.contains i

/-- The beacon sent, the frame before it closed. -/
def beaconSent (t : Nat) (s : State) : State :=
  sendBurst t t (beaconBody s t) (wn Reg.TRM_MUTE (slotMask s.trm.mutes) (markStale (absentSlots s) s))

theorem beaconAt_eq (t : Nat) (s0 : State) : beaconAt t s0 = { beaconSent t (advanceTo t s0) with trm := { (beaconSent t (advanceTo t s0)).trm with
    frame := ((advanceTo t s0).trm.frame + 1) % 2 ^ 32, frameAt := t, mutes := [], seen := [],
    edges := (advanceTo t s0).trm.edges.filter (· ≠ reportSlot (advanceTo t s0)),
    reported := if reportSlot (advanceTo t s0) = 0 then (advanceTo t s0).trm.reported else reportSlot (advanceTo t s0) } } := rfl

/-- What a beacon that leaves makes of the frame (R418, R427). -/
structure BeaconLeft (t : Nat) (s u : State) : Prop where
  frame : u.trm.frame = (s.trm.frame + 1) % 2 ^ 32
  frameAt : u.trm.frameAt = t
  mutes : u.trm.mutes = []
  seen : u.trm.seen = []
  state : u.trm.state = s.trm.state
  known : u.trm.known = s.trm.known
  mute : rn u Reg.TRM_MUTE = slotMask s.trm.mutes % 2 ^ 32
  stale : ∀ i < 16, i ≠ 0 → i ∉ s.trm.seen → rbit u Reg.TRM_STALE i = true
  sent : ∃ body, body.take 6 = le 1 (chipNumber s) ++ le 1 0 ++ le 4 s.trm.frame ∧
    (busOn s false = true → .burst 0 t (trmBurst body) ∈ u.out) ∧ (busOn s true = true → .burst 1 t (trmBurst body) ∈ u.out)

theorem beaconBody_head (s : State) (t : Nat) : (beaconBody s t).take 6 = le 1 (chipNumber s) ++ le 1 0 ++ le 4 s.trm.frame := by
  unfold beaconBody
  simp only [List.append_assoc]
  rw [← List.append_assoc, ← List.append_assoc]
  exact List.take_left' (by simp [length_le])

theorem mem_absentSlots {s : State} {i : Nat} (hi : i < 16) (h0 : i ≠ 0) (hs : i ∉ s.trm.seen) : i ∈ absentSlots s := by
  unfold absentSlots
  rw [List.mem_filter, List.mem_range]
  simpa [hi, h0] using hs

theorem beaconSent_trm (t : Nat) (s : State) : (beaconSent t s).trm = s.trm := by
  unfold beaconSent
  rw [sendBurst_trm]
  exact markStale_trm _ s

theorem beaconSent_left (t : Nat) (s : State) : rn (beaconSent t s) Reg.TRM_MUTE = slotMask s.trm.mutes % 2 ^ 32 ∧
    (∀ i < 16, i ≠ 0 → i ∉ s.trm.seen → rbit (beaconSent t s) Reg.TRM_STALE i = true) ∧
    (busOn s false = true → .burst 0 t (trmBurst (beaconBody s t)) ∈ (beaconSent t s).out) ∧
    (busOn s true = true → .burst 1 t (trmBurst (beaconBody s t)) ∈ (beaconSent t s).out) := by
  have hbus : ∀ b, busOn (wn Reg.TRM_MUTE (slotMask s.trm.mutes) (markStale (absentSlots s) s)) b = busOn s b := fun b => by
    have h : rn (wn Reg.TRM_MUTE (slotMask s.trm.mutes) (markStale (absentSlots s) s)) Reg.TRM_CTRL = rn s Reg.TRM_CTRL := by
      rw [rn_wn_ne _ _ (by decide), markStale_rn (by decide)]
    rw [busOn, busOn, rbit, rbit, h]
  obtain ⟨h0, h1⟩ := sendBurst_out t t (beaconBody s t) (wn Reg.TRM_MUTE (slotMask s.trm.mutes) (markStale (absentSlots s) s))
  rw [hbus] at h0 h1
  unfold beaconSent
  refine ⟨?_, fun i hi hi0 hs => ?_, h0, h1⟩
  · rw [rn_congr (sendBurst_rd _ _ _ _ _), rn_wn_self]
  · rw [rbit_congr (sendBurst_rd _ _ _ _ _), rbit, rn_wn_ne _ _ (by decide), ← rbit]
    refine markStale_bit (fun j hj => ?_) (Or.inl (mem_absentSlots hi hi0 hs))
    have := List.mem_range.mp (List.mem_filter.mp hj).1
    omega

theorem beaconAt_left (t : Nat) (s0 : State) : BeaconLeft t s0 (beaconAt t s0) := by
  have htrm : (advanceTo t s0).trm = s0.trm := advance_trm t s0
  have hchip : chipNumber (advanceTo t s0) = chipNumber s0 := rf_congr (advance_rd _ _ (by decide)) 3 0
  have hbus : ∀ b, busOn (advanceTo t s0) b = busOn s0 b := busOn_congr (advance_rd _ _ (by decide))
  rw [beaconAt_eq]
  have hb := beaconSent_trm t (advanceTo t s0)
  obtain ⟨mute, stale, h0, h1⟩ := beaconSent_left t (advanceTo t s0)
  have hhead := beaconBody_head (advanceTo t s0) t
  generalize beaconSent t (advanceTo t s0) = u at hb mute stale h0 h1
  generalize beaconBody (advanceTo t s0) t = body at hhead h0 h1
  generalize advanceTo t s0 = s at htrm hchip hbus hb mute stale h0 h1 hhead
  rw [hbus] at h0 h1
  rw [htrm] at hb mute stale hhead
  rw [hchip] at hhead
  refine ⟨congrArg (fun x : Trm => (x.frame + 1) % 2 ^ 32) htrm, rfl, rfl, rfl, (congrArg Trm.state hb :), (congrArg Trm.known hb :), mute, stale, body, hhead, h0, h1⟩

/-! ## The claim and the line (R416) -/

theorem leadLine_quiet {low : Bool} {s : State} (h : low = false ∨ s.trm.state ≠ .claiming) :
    leadLine low s = { s with trm := { s.trm with lineLow := low } } := by
  unfold leadLine
  refine if_neg fun hc => ?_
  rcases h with h | h
  · rw [h] at hc
    exact Bool.noConfusion hc.1
  · exact h hc.2

theorem leadLine_conflict {s : State} (h : s.trm.state = .claiming) :
    leadLine true s = trmConflict 0 { s with trm := { s.trm with lineLow := true } } := by
  unfold leadLine
  exact if_pos ⟨rfl, h⟩

/-- A claim that has held begins to lead with beacon frame 0. -/
def ledFrom (s : State) : State :=
  { s with trm := { s.trm with frame := 0, edges := [], mutes := [], seen := List.range 16, known := [], reported := 0 } }

theorem claimTimer_leads {t : Nat} {s : State} (hc : s.trm.state = .claiming) (hl : s.trm.lineLow = false)
    (hb : (busOn s false || busOn s true) = true) (ht : s.trm.claimAt + 32 * us ≤ t) :
    claimTimer t s = beaconAt t (ledFrom (setTrm .leader (advanceTo t s))) := by
  unfold claimTimer
  rw [if_pos ⟨hc, hl, hb, ht⟩]
  rfl

theorem ledFrom_trm (s : State) : (ledFrom s).trm.state = s.trm.state ∧ (ledFrom s).trm.frame = 0 ∧ (ledFrom s).trm.known = [] := ⟨rfl, rfl, rfl⟩

/-! ## Beacons that come (R420, R422 to R428) -/

theorem countBad_only (burst : List Byte) (good : Bool) (s : State) : Keeps [.reg .trm] s (countBad burst good s) :=
  countBad_keeps burst good s (fun _ q => q) (Keeps.refl _ s)

theorem countBad_rn {k : Nat} (hk : k ≠ Reg.TRM_CRC_CNT) (burst : List Byte) (good : Bool) (s : State) :
    rn (countBad burst good s) k = rn s k := by
  unfold countBad
  split
  · rfl
  · exact rn_inc_ne _ _ hk

theorem beaconReceive_foreign {a b body : List Byte} {ra rb : Nat} {s : State} (hb : busOn s false = true) (hg : goodBeacon a = some body)
    (hl : s.trm.state = .leader) (hc : (body.getD 0 0).toNat % 16 ≠ chipNumber s) : ∃ ga gb, beaconReceive a b ra rb s =
      trmConflict 1 (countBad (if busOn s true then b else []) gb (countBad a ga s)) := by
  unfold beaconReceive
  dsimp only
  rw [hl, hb, hg]
  exact ⟨_, _, if_pos (Bool.or_eq_true_iff.mpr (Or.inl (decide_eq_true hc)))⟩

theorem beaconReceive_taken {a b body : List Byte} {ra rb : Nat} {s : State} (hb : busOn s false = true) (hg : goodBeacon a = some body)
    (hf : s.trm.state = .listen ∨ s.trm.state = .muted ∨ s.trm.state = .active) (hbus : s.trm.bus = false) (hb1 : busOn s true = false) :
    ∃ ga gb, beaconReceive a b ra rb s = takeBeacon body false false (some ra) none (countBad [] gb (countBad a ga s)) := by
  refine ⟨true, false, ?_⟩
  have hpick : ∀ u : State, u.trm.bus = false → pickBus u (some body) none = some (body, false, false) := fun u hu => by
    unfold pickBus
    rw [hu]
    rfl
  have hu : (countBad [] false (countBad a true s)).trm.bus = false := by
    have k := (countBad_only a true s).trans (countBad_only [] false _)
    rw [show (countBad [] false (countBad a true s)).trm = s.trm from k.only .trm (by decide), hbus]
  unfold beaconReceive
  rw [hb, hb1]
  dsimp only
  rw [if_pos rfl, hg]
  simp only [Bool.false_eq_true, if_false, if_true, Option.isSome_some, Option.isSome_none, hpick _ hu, Option.map_some, Option.map_none]
  rcases hf with h | h | h <;> rw [h]

/-- What a follower keeps of a beacon while it acts on it. -/
structure BeaconHeld (s t : State) : Prop where
  frame : rn t Reg.TRM_FRAME = rn s Reg.TRM_FRAME
  mute : rn t Reg.TRM_MUTE = rn s Reg.TRM_MUTE
  chip : t.trm.chip = s.trm.chip
  missRun : t.trm.missRun = s.trm.missRun
  arriveA : t.trm.arriveA = s.trm.arriveA
  sent : t.trm.sent = s.trm.sent

theorem BeaconHeld.refl (s : State) : BeaconHeld s s := ⟨rfl, rfl, rfl, rfl, rfl, rfl⟩

theorem BeaconHeld.trans {s t u : State} (h : BeaconHeld s t) (k : BeaconHeld t u) : BeaconHeld s u :=
  ⟨k.frame.trans h.frame, k.mute.trans h.mute, k.chip.trans h.chip, k.missRun.trans h.missRun, k.arriveA.trans h.arriveA, k.sent.trans h.sent⟩

theorem BeaconHeld.after {s t u : State} (k : BeaconHeld t u) (h : BeaconHeld s t) : BeaconHeld s u := h.trans k

theorem BeaconHeld.of_keeps {ps : List Part} {s t : State} (k : Keeps ps s t) (ht : Part.trm ∉ ps) (hr : Part.reg .trm ∉ ps) : BeaconHeld s t := by
  have e : t.trm = s.trm := k.only .trm ht
  exact ⟨k.rn hr, k.rn hr, by rw [e], by rw [e], by rw [e], by rw [e]⟩

theorem BeaconHeld.wn {s : State} {k : Nat} (v : Nat) (h : Reg.TRM_FRAME ≠ k ∧ Reg.TRM_MUTE ≠ k) : BeaconHeld s (wn k v s) :=
  ⟨rn_wn_ne _ _ h.1, rn_wn_ne _ _ h.2, rfl, rfl, rfl, rfl⟩

theorem BeaconHeld.foldl {α : Type} {f : State → α → State} (hf : ∀ s x, BeaconHeld s (f s x)) (l : List α) (s : State) :
    BeaconHeld s (l.foldl f s) := by
  induction l generalizing s with
  | nil => exact .refl s
  | cons a l ih => exact (hf s a).trans (ih _)

theorem BeaconHeld.raise (n b : Nat) (s : State) : BeaconHeld s (raiseIrq n b s) := by
  have e : (raiseIrq n b s).trm = s.trm := (raiseIrq_keeps n b s (fun _ q => q) (Keeps.refl _ s)).only .trm (by simp)
  exact ⟨rn_congr (rd_raiseIrq _ _ _ _), rn_congr (rd_raiseIrq _ _ _ _), by rw [e], by rw [e], by rw [e], by rw [e]⟩

theorem BeaconHeld.event (code : Nat) (ten : Option Nat) (pl : List Byte) (s : State) : BeaconHeld s (event code ten pl s) :=
  .of_keeps (event_keeps code ten pl s (fun _ q => q) (Keeps.refl _ s)) (by decide) (by decide)

theorem BeaconHeld.ite {c : Prop} [Decidable c] {s t u : State} (h : BeaconHeld s t) (k : BeaconHeld s u) : BeaconHeld s (if c then t else u) := by
  split
  · exact h
  · exact k

theorem setTrm_held (st : TrmState) (s : State) : BeaconHeld s (setTrm st s) := by
  obtain ⟨e, regs, -⟩ := setTrm_set st s
  exact ⟨rn_congr (regs _ (by decide)), rn_congr (regs _ (by decide)), by rw [e], by rw [e], by rw [e], by rw [e]⟩

theorem slotConflict_held (s : State) : BeaconHeld s (slotConflict s) := by
  unfold slotConflict
  split
  · dsimp only
    split
    · exact setTrm_held _ s
    · exact ((BeaconHeld.event _ _ _ _).trans (.raise _ _ _)).after ((setTrm_held .listen s).trans ⟨rfl, rfl, rfl, rfl, rfl, rfl⟩)
  · exact .refl s

theorem stepState_held (muted : Bool) (d : Option Int) (pay : List Byte) (s : State) : BeaconHeld s (stepState muted d pay s) := by
  unfold stepState
  dsimp only
  generalize hs : (if muted = true then inc Reg.TRM_MUTE_CNT 1 _ else _ : State) = s2
  have h2 : BeaconHeld s s2 := by
    rw [← hs]
    exact .ite ((BeaconHeld.wn _ (by decide)).after ⟨rfl, rfl, rfl, rfl, rfl, rfl⟩) ⟨rfl, rfl, rfl, rfl, rfl, rfl⟩
  split
  · exact .ite ((setTrm_held _ _).after (((BeaconHeld.event _ _ _ _).trans (.raise _ _ _)).after h2)) h2
  · exact .ite (h2.trans (setTrm_held _ _)) h2
  · exact .ite (h2.trans (setTrm_held _ _)) h2
  · exact h2

theorem selectBus_held (sub : Bool) (frame : Nat) (s : State) : BeaconHeld s (selectBus sub frame s) := by
  unfold selectBus
  split
  · dsimp only
    have h1 : BeaconHeld s (inc Reg.TRM_SWITCH_CNT 1 s) := .wn _ (by decide)
    generalize inc Reg.TRM_SWITCH_CNT 1 s = s1 at h1
    refine .ite ?_ (h1.trans ⟨rfl, rfl, rfl, rfl, rfl, rfl⟩)
    exact ((BeaconHeld.event _ _ _ _).trans (.raise _ _ _)).after (h1.trans ⟨rfl, rfl, rfl, rfl, rfl, rfl⟩)
  · exact ⟨rfl, rfl, rfl, rfl, rfl, rfl⟩

theorem advAdd_held (b : Bool) (d : Int) (s : State) : BeaconHeld s (advAdd b d s) := by
  cases b with
  | false => exact .wn _ (by decide)
  | true => exact .wn _ (by decide)

theorem takeReport_held (p : List Byte) (s : State) : BeaconHeld s (takeReport p s) := by
  unfold takeReport
  extract_lets put
  have hput : ∀ b w t, BeaconHeld t (put b w t) := fun b w t => by
    unfold put
    dsimp only
    split
    · exact .refl t
    · exact advAdd_held _ _ _
  split
  · exact (hput _ _ _).trans (hput _ _ _)
  · exact .refl s

theorem beaconTime_held (p : List Byte) (r : Nat) (b : Bool) (s : State) : BeaconHeld s (beaconTime p r b s) :=
  .of_keeps (beaconTime_keeps p r b s (fun _ q => q) (Keeps.refl _ s)) (by decide) (by decide)

/-- A channel's pace begins to follow the beacon. -/
def paceSynced (k : Nat) (count : Nat) (s : State) : State :=
  wn (Reg.KLN_PC_STEPS k) count (updChannel k (fun c => { c with netSteps := signed 32 count })
    { s with trm := { s.trm with synced := k :: s.trm.synced } })

theorem paceSynced_held (k count : Nat) (s : State) : BeaconHeld s (paceSynced k count s) := by
  have h : BeaconHeld s (updChannel k (fun c => { c with netSteps := signed 32 count })
      { s with trm := { s.trm with synced := k :: s.trm.synced } }) := ⟨rfl, rfl, rfl, rfl, rfl, rfl⟩
  exact h.trans (.of_keeps (wn_keeps _ _ _ (fun _ q => q) (Keeps.refl _ _)) (by simp) (by simp))

theorem beaconStep_held (p : List Byte) (k r : Nat) (b : Bool) (s : State) : BeaconHeld s (beaconStep p k r b s) := by
  unfold beaconStep
  refine .ite (.ite (paceSynced_held k _ s) (.ite (.refl s) ?_)) (.refl s)
  exact .of_keeps (paceStep_keeps _ _ _ _ _ (fun _ q => q) (Keeps.refl _ _)) (by decide) (by decide)

/-! ## A beacon taken (R422 to R428) -/

/-- The beacon's chip and the end of the misses, before the buses are aligned. -/
def beaconChip (body : List Byte) (s : State) : State :=
  { s with trm := { s.trm with
    chip := (body.getD 0 0).toNat % 16, timeValid := ((body.drop 2).getD 13 0).toNat % 2 = 1, missRun := 0, arriveA := none, arriveB := none,
    seen := [], sent := false } }

/-- The beacon's frame and mutes in the registers. -/
def beaconNoted (body : List Byte) (stale : List Nat) (s : State) : State :=
  markStale stale (wn Reg.TRM_MUTE (leAt (body.drop 2) 14 2) (wn Reg.TRM_FRAME (leAt (body.drop 2) 0 4) s))

/-- Slots whose data a beacon ends: those it mutes, and those not seen in the frame before. -/
def staleAfter (body : List Byte) (s : State) : List Nat :=
  ((List.range 16).filter fun i => (s.trm.predA.isSome || s.trm.predB.isSome) && decide (i ≠ 0 ∧ i ≠ trmSlot s) && !s.trm.seen.contains i) ++
    maskBits 16 (leAt (body.drop 2) 14 2)

/-- A beacon of bus A alone, taken at its arrival, and what follows it. -/
theorem takeBeacon_held (body : List Byte) (r : Nat) (s0 : State) :
    BeaconHeld (beaconNoted body (staleAfter body (advanceTo r s0)) (alignBus false r (beaconChip body (advanceTo r s0))))
      (takeBeacon body false false (some r) none s0) := by
  unfold takeBeacon
  dsimp only
  refine BeaconHeld.after (BeaconHeld.foldl (fun t k => beaconStep_held _ k _ _ t) _ _) ?_
  refine BeaconHeld.after (beaconTime_held _ _ _ _) ?_
  refine BeaconHeld.after (takeReport_held _ _) ?_
  refine BeaconHeld.after (selectBus_held _ _ _) ?_
  refine BeaconHeld.after (stepState_held _ _ _ _) ?_
  exact slotConflict_held (beaconNoted body (staleAfter body (advanceTo r s0)) (alignBus false r (beaconChip body (advanceTo r s0))))

/-- An arrival's offset may move the transmit advance of bus A (R424). -/
def advMoved (o : Option Int) (s : State) : State :=
  match o with
  | some x => if 64 ≤ x.natAbs then advAdd false (2 * x) s else s
  | none => s

theorem advMoved_trm (o : Option Int) (s : State) : (advMoved o s).trm = s.trm := by
  unfold advMoved
  split
  · split
    · rfl
    · rfl
  · rfl

theorem alignBus_eq (r : Nat) (s : State) : alignBus false r s =
    { advMoved (beaconDelta s.trm.predA r) s with trm := { (advMoved (beaconDelta s.trm.predA r) s).trm with
      arriveA := some r, predA := some ((r : Int) + frameLocal s).toNat } } := rfl

theorem alignBus_trm (r : Nat) (s : State) : (alignBus false r s).trm.chip = s.trm.chip ∧ (alignBus false r s).trm.missRun = s.trm.missRun ∧
    (alignBus false r s).trm.arriveA = some r ∧ (alignBus false r s).trm.sent = s.trm.sent := by
  rw [alignBus_eq]
  have h := advMoved_trm (beaconDelta s.trm.predA r) s
  generalize advMoved (beaconDelta s.trm.predA r) s = u at h
  exact ⟨(congrArg Trm.chip h :), (congrArg Trm.missRun h :), rfl, (congrArg Trm.sent h :)⟩

/-- What taking a beacon of bus A leaves. -/
structure BeaconTaken (body : List Byte) (r : Nat) (t : State) : Prop where
  frame : rn t Reg.TRM_FRAME = leAt (body.drop 2) 0 4
  mute : rn t Reg.TRM_MUTE = leAt (body.drop 2) 14 2
  chip : t.trm.chip = (body.getD 0 0).toNat % 16
  missRun : t.trm.missRun = 0
  arriveA : t.trm.arriveA = some r
  sent : t.trm.sent = false

theorem beaconNoted_taken (body : List Byte) (stale : List Nat) (r : Nat) (s : State) :
    BeaconTaken body r (beaconNoted body stale (alignBus false r (beaconChip body s))) := by
  obtain ⟨chip, miss, arrive, sent⟩ := alignBus_trm r (beaconChip body s)
  generalize alignBus false r (beaconChip body s) = u at chip miss arrive sent
  have ht : (beaconNoted body stale u).trm = u.trm := markStale_trm stale _
  have h4 : leAt (body.drop 2) 0 4 < 2 ^ 32 := leAt_lt _ 0 4
  have h2 : leAt (body.drop 2) 14 2 < 2 ^ 32 := Nat.lt_trans (leAt_lt _ 14 2) (by decide)
  refine ⟨?_, ?_, by rw [ht, chip]; rfl, by rw [ht, miss]; rfl, by rw [ht, arrive], by rw [ht, sent]; rfl⟩
  · rw [beaconNoted, markStale_rn (by decide), rn_wn_ne _ _ (by decide), rn_wn_self, Nat.mod_eq_of_lt h4]
  · rw [beaconNoted, markStale_rn (by decide), rn_wn_self, Nat.mod_eq_of_lt h2]

theorem takeBeacon_taken (body : List Byte) (r : Nat) (s0 : State) : BeaconTaken body r (takeBeacon body false false (some r) none s0) := by
  have h := takeBeacon_held body r s0
  obtain ⟨frame, mute, chip, miss, arrive, sent⟩ := beaconNoted_taken body (staleAfter body (advanceTo r s0)) r (advanceTo r s0)
  exact ⟨h.frame.trans frame, h.mute.trans mute, h.chip.trans chip, h.missRun.trans miss, h.arriveA.trans arrive, h.sent.trans sent⟩

/-! ## A missed beacon (R422, R425, R438) -/

/-- A miss counted, the next prediction a frame on. -/
def missNoted (s0 s : State) : State :=
  { s with trm := { s.trm with
    missRun := min 3 (s.trm.missRun + 1), goodRun := 0, selFail := 0, arriveA := none, arriveB := none, sent := true,
    predA := s.trm.predA.map fun x => ((x : Int) + frameLocal s0).toNat,
    predB := s.trm.predB.map fun x => ((x : Int) + frameLocal s0).toNat } }

/-- The time source told of a miss. -/
def missTimed (s : State) : State := if timSrc s = 2 then measureFails s else s

theorem missTimed_keeps (s : State) : Keeps [.clock, .msix, .out, .reg .stk, .reg .tim, .rings, .stk] s (missTimed s) := by
  unfold missTimed
  split
  · exact measureFails_keeps s (fun _ q => q) (Keeps.refl _ s)
  · exact Keeps.refl _ s

/-- The state after a miss, before the third of a row ends the alignment. -/
def missTaken (t : Nat) (s : State) : State := missTimed (missNoted s (inc Reg.TRM_BEACON_MISS_CNT 1 (advanceTo t s)))

theorem beaconMissed_eq {t p : Nat} {s : State} (hf : s.trm.state = .listen ∨ s.trm.state = .muted ∨ s.trm.state = .active)
    (hbus : s.trm.bus = false) (hp : s.trm.predA = some p) (ht : p + 1639 ≤ t) : beaconMissed t s =
      if min 3 ((inc Reg.TRM_BEACON_MISS_CNT 1 (advanceTo t s)).trm.missRun + 1) = 3 then loseBeacons (setTrm .listen (missTaken t s))
      else missTaken t s := by
  unfold beaconMissed
  rw [hbus, hp]
  exact if_pos ⟨hf, ht⟩

theorem missNoted_trm (s0 s : State) : (missNoted s0 s).trm.missRun = min 3 (s.trm.missRun + 1) ∧ (missNoted s0 s).trm.sent = true ∧
    (missNoted s0 s).trm.state = s.trm.state ∧ (missNoted s0 s).trm.predA.isSome = s.trm.predA.isSome :=
  ⟨rfl, rfl, rfl, by cases h : s.trm.predA <;> simp [missNoted, h]⟩

/-- What a miss leaves (R422, R425). -/
structure MissTaken (s t : State) : Prop where
  count : rn t Reg.TRM_BEACON_MISS_CNT = min 0xFFFFFFFF (rn s Reg.TRM_BEACON_MISS_CNT + 1)
  missRun : t.trm.missRun = min 3 (s.trm.missRun + 1)
  sent : t.trm.sent = true

theorem missTaken_taken (t : Nat) (s : State) : MissTaken s (missTaken t s) ∧ (missTaken t s).trm.state = s.trm.state ∧
    (missTaken t s).trm.predA.isSome = s.trm.predA.isSome := by
  have htrm : (inc Reg.TRM_BEACON_MISS_CNT 1 (advanceTo t s)).trm = s.trm := (inc_trm _ _ _).trans (advance_trm t s)
  have hcnt : rn (inc Reg.TRM_BEACON_MISS_CNT 1 (advanceTo t s)) Reg.TRM_BEACON_MISS_CNT = min 0xFFFFFFFF (rn s Reg.TRM_BEACON_MISS_CNT + 1) := by
    rw [rn_inc_self, rn_congr (advance_rd _ _ (by decide))]
  unfold missTaken
  generalize inc Reg.TRM_BEACON_MISS_CNT 1 (advanceTo t s) = u at htrm hcnt
  obtain ⟨miss, sent, state, pred⟩ := missNoted_trm s u
  have hr : rn (missNoted s u) Reg.TRM_BEACON_MISS_CNT = rn u Reg.TRM_BEACON_MISS_CNT := rfl
  have k := missTimed_keeps (missNoted s u)
  have e : (missTimed (missNoted s u)).trm = (missNoted s u).trm := k.only .trm (by decide)
  rw [htrm] at miss state pred
  refine ⟨⟨?_, by rw [e, miss], by rw [e, sent]⟩, by rw [e, state], by rw [e, pred]⟩
  rw [k.rn (by decide), hr, hcnt]

theorem loseBeacons_trm (s : State) : (loseBeacons s).trm.missRun = s.trm.missRun ∧ (loseBeacons s).trm.sent = true ∧
    (loseBeacons s).trm.state = s.trm.state ∧ (loseBeacons s).trm.predA = none ∧ (loseBeacons s).trm.predB = none ∧
    (loseBeacons s).regs = s.regs := ⟨rfl, rfl, rfl, rfl, rfl, rfl⟩

/-! ## The follower's own burst (R422, R426) -/

theorem followerSend_sends {x y : Nat} {s : State} (ha : s.trm.state = .active) (hs : s.trm.sent = false)
    (hx : burstStart s false = some x) (hy : burstStart s true = some y) : followerSend s =
      sendBurst x y (followerBody (advanceTo (min x y) s))
        { advanceTo (min x y) s with trm := { (advanceTo (min x y) s).trm with sent := true } } := by
  unfold followerSend
  rw [if_pos ⟨ha, hs⟩, hx, hy]

theorem followerBody_length (s : State) : (followerBody s).length = 6 := by
  unfold followerBody
  simp only [List.length_append, length_le]

/-! ## A follower's burst received (R420, R425, R427) -/

/-- The good burst of a slot on a bus, for a follower. -/
def slotGood (i : Nat) (b : Bool) (burst : List Byte) (s : State) : Option (List Byte) :=
  if busOn s b then goodFollower s.trm.chip i (rn s Reg.TRM_FRAME) burst else none

/-- Time goes on to the first burst that came. -/
def burstTime (a b : List Byte) (ra rb : Nat) (s : State) : State :=
  if a = [] ∧ b = [] then s else advanceTo (min (if a = [] then rb else ra) (if b = [] then ra else rb)) s

/-- The bursts of a slot counted. -/
def burstsCounted (i : Nat) (a b : List Byte) (ra rb : Nat) (s : State) : State :=
  countBad (if busOn s true then b else []) (slotGood i true b s).isSome
    (countBad (if busOn s false then a else []) (slotGood i false a s).isSome (burstTime a b ra rb s))

/-- A slot seen in the frame. -/
def slotSeen (i : Nat) (s : State) : State :=
  { s with trm := { s.trm with seen := if i ∈ s.trm.seen then s.trm.seen else i :: s.trm.seen } }

/-- What a follower makes of the burst it picks. -/
def slotPicked (i : Nat) (o : Option (List Byte × Bool × Bool)) (s : State) : State :=
  match o with
  | some (p, _, sub) => takeNode i p (slotSeen i (if sub then inc Reg.TRM_SWITCH_CNT 1 s else s))
  | none => markStale [i] s

theorem followerBurst_eq {i : Nat} {a b : List Byte} {ra rb : Nat} {s : State} (h0 : i ≠ 0)
    (hf : s.trm.state = .listen ∨ s.trm.state = .muted ∨ s.trm.state = .active) : followerBurst i a b ra rb s =
      slotPicked i (pickBus (burstsCounted i a b ra rb s) (slotGood i false a s) (slotGood i true b s)) (burstsCounted i a b ra rb s) := by
  have hl : ¬s.trm.state = .leader := by
    rcases hf with h | h | h <;> rw [h] <;> decide
  have hc : ¬(i = 0 ∨ (!(decide (s.trm.state = .leader) || decide (s.trm.state = .listen ∨ s.trm.state = .muted ∨ s.trm.state = .active))) = true) := by
    rw [decide_eq_true hf, Bool.or_true]
    simpa using h0
  unfold followerBurst
  dsimp only
  rw [if_neg hc, decide_eq_false hl]
  simp only [Bool.false_eq_true, if_false, false_and]
  rfl

theorem burstsCounted_keeps (i : Nat) (a b : List Byte) (ra rb : Nat) (s : State) :
    Keeps [.clock, .msix, .out, .reg .stk, .reg .tim, .reg .trm, .rings, .stk] s (burstsCounted i a b ra rb s) := by
  have h : Keeps [.clock, .msix, .out, .reg .stk, .reg .tim, .reg .trm, .rings, .stk] s (burstTime a b ra rb s) := by
    unfold burstTime
    split
    · exact Keeps.refl _ s
    · exact advanceTo_keeps _ s (by decide) (Keeps.refl _ s)
  exact countBad_keeps _ _ _ (by decide) (countBad_keeps _ _ _ (by decide) h)

theorem burstsCounted_mute (i : Nat) (a b : List Byte) (ra rb : Nat) (s : State) :
    rn (burstsCounted i a b ra rb s) Reg.TRM_MUTE = rn s Reg.TRM_MUTE := by
  have h : rn (burstTime a b ra rb s) Reg.TRM_MUTE = rn s Reg.TRM_MUTE := by
    unfold burstTime
    split
    · rfl
    · exact rn_congr (advance_rd _ _ (by decide))
  unfold burstsCounted
  rw [countBad_rn (by decide), countBad_rn (by decide), h]

/-- What a node's good burst leaves (R425, R427). -/
structure NodeTaken (i : Nat) (p : List Byte) (s t : State) : Prop where
  seen : t.trm.seen = s.trm.seen
  known : i ∈ t.trm.known
  rate : rn t (wkey Reg.TRM_NODE_RATE i) = leAt p 4 2
  stale : rbit t Reg.TRM_STALE i = rbit s Reg.TRM_MUTE i

theorem takeNode_taken {i : Nat} (hi : i < 32) (p : List Byte) (s : State) : NodeTaken i p s (takeNode i p s) := by
  have hp : leAt p 4 2 < 2 ^ 32 := Nat.lt_trans (leAt_lt p 4 2) (by decide)
  unfold takeNode
  extract_lets stale s1 s2
  have hrate : rn s2 (wkey Reg.TRM_NODE_RATE i) = leAt p 4 2 := by
    have hne : wkey Reg.TRM_NODE_RATE i ≠ Reg.TRM_STALE := (nodeRate_ne (by decide) i).symm
    unfold s2 s1
    rw [rn_wf_ne _ _ _ _ hne, rn_wn_self, Nat.mod_eq_of_lt hp]
  have hstale : rbit s2 Reg.TRM_STALE i = stale := by
    unfold s2
    rw [rbit_wf_self _ _ _ _ hi]
    cases stale
    · rfl
    · rfl
  refine ⟨rfl, ?_, hrate, hstale⟩
  dsimp only
  split
  · next h => exact h
  · exact List.mem_cons_self

theorem mem_slotSeen (i : Nat) (s : State) : i ∈ (slotSeen i s).trm.seen := by
  unfold slotSeen
  dsimp only
  split
  · next h => exact h
  · exact List.mem_cons_self

theorem pickBus_selected {s : State} (h : s.trm.bus = false) (p : List Byte) (o : Option (List Byte)) :
    pickBus s (some p) o = some (p, false, false) := by
  unfold pickBus
  rw [h]
  rfl

theorem pickBus_none (s : State) : pickBus (α := List Byte) s none none = none := by
  unfold pickBus
  cases s.trm.bus
  · rfl
  · rfl

theorem slotGood_none {i : Nat} {b : Bool} {burst : List Byte} {s : State}
    (h : busOn s b = false ∨ goodFollower s.trm.chip i (rn s Reg.TRM_FRAME) burst = none) : slotGood i b burst s = none := by
  unfold slotGood
  rcases h with h | h
  · rw [h]
    rfl
  · rw [h, ite_self]

/-! ## The statement -/

/-- Settles O48: each event by what its operation leaves of the node, its registers and its bursts. -/
theorem tramlineRuns : Obligations.TramlineRuns := by
  refine ⟨fun s hl => ?beacon, fun v s hc hl hb ht => ?claim, fun low s => ?line, fun a b body ra rb s hb hg => ⟨fun hl hc => ?foreign,
    fun hf hbus hb1 => ?beaconTaken⟩, fun p v s hf hbus hp ht => ?missed, fun x y s ha hs hx hy => ?burst,
    fun i a b ra rb s hi hf => ⟨fun p hbus hb hg => ?good, fun ha hb => ?bad⟩⟩
  case beacon =>
    refine next_at (execTrmBeaconSend_keeps s) (by decide) (congrArg Host.Outcome.next (if_pos hl)) ?_
    obtain ⟨frame, frameAt, mutes, seen, state, -, mute, stale, sent⟩ := beaconAt_left (s.trm.frameAt + trmFrameUnits) s
    exact ⟨frame, frameAt, mutes, seen, state.trans hl, mute, stale, sent⟩
  case claim =>
    refine next_at (execTrmClaimTimer_keeps v s) (by decide) (congrArg Host.Outcome.next (claimTimer_leads hc hl hb ht)) ?_
    obtain ⟨frame, frameAt, -, -, state, known, -, -, -⟩ := beaconAt_left v.toNat (ledFrom (setTrm .leader (advanceTo v.toNat s)))
    obtain ⟨lstate, lframe, lknown⟩ := ledFrom_trm (setTrm .leader (advanceTo v.toNat s))
    obtain ⟨trm, -, -⟩ := setTrm_set .leader (advanceTo v.toNat s)
    refine ⟨state.trans (lstate.trans (congrArg Trm.state trm)), ?_, frameAt, known.trans lknown⟩
    exact frame.trans (congrArg (fun n => (n + 1) % 2 ^ 32) lframe)
  case line =>
    refine next_at (execTrmLeadLineLow_keeps low s) (by decide) rfl ?_
    by_cases h : low = false ∨ s.trm.state ≠ .claiming
    · rw [leadLine_quiet h]
      refine ⟨rfl, fun hlow hc => ?_, fun _ => rfl⟩
      rcases h with h | h
      · exact absurd (hlow.symm.trans h) Bool.noConfusion
      · exact absurd hc h
    · have hc : s.trm.state = .claiming := by
        by_contra hne
        exact h (Or.inr hne)
      obtain rfl : low = true := by
        cases low with
        | false => exact absurd (Or.inl rfl) h
        | true => rfl
      rw [leadLine_conflict hc]
      obtain ⟨trm, -, -⟩ := trmConflict_set 0 { s with trm := { s.trm with lineLow := true } }
      exact ⟨congrArg Trm.lineLow trm, fun _ _ => congrArg Trm.state trm, fun hn => absurd hn h⟩
  case foreign =>
    obtain ⟨ga, gb, e⟩ := beaconReceive_foreign (b := b) (ra := ra.toNat) (rb := rb.toNat) hb hg hl hc
    have k : Keeps [.msix, .out, .reg .stk, .reg .trm, .rings, .stk, .trm] s
        (trmConflict 1 (countBad (if busOn s true then b else []) gb (countBad a ga s))) :=
      trmConflict_keeps _ _ (by decide) (countBad_keeps _ _ _ (by decide) (countBad_keeps _ _ _ (by decide) (Keeps.refl _ s)))
    refine ⟨_, congrArg Host.Outcome.next e, ⟨congrArg Trm.state (trmConflict_set 1 _).trm, ?_⟩, k.only⟩
    unfold trmConflict
    rw [raiseIrq_stk]
    exact raiseAlarm_latched 16 none (le 1 1) _
  case beaconTaken =>
    obtain ⟨ga, gb, e⟩ := beaconReceive_taken (b := b) (ra := ra.toNat) (rb := rb.toNat) hb hg hf hbus hb1
    refine next_at (execTrmBeaconReceive_keeps a b ra rb s) (by decide) (congrArg Host.Outcome.next e) ?_
    obtain ⟨frame, mute, chip, miss, arrive, sent⟩ := takeBeacon_taken body ra.toNat (countBad [] gb (countBad a ga s))
    exact ⟨frame, mute, chip, miss, arrive, sent⟩
  case missed =>
    refine next_at (execTrmBeaconMissed_keeps v s) (by decide) (congrArg Host.Outcome.next (beaconMissed_eq hf hbus hp ht)) ?_
    have hrun : (inc Reg.TRM_BEACON_MISS_CNT 1 (advanceTo v.toNat s)).trm.missRun = s.trm.missRun :=
      congrArg Trm.missRun ((inc_trm _ _ _).trans (advance_trm v.toNat s))
    obtain ⟨⟨count, miss, sent⟩, state, pred⟩ := missTaken_taken v.toNat s
    rw [hrun]
    by_cases h3 : min 3 (s.trm.missRun + 1) = 3
    · rw [if_pos h3]
      obtain ⟨lmiss, lsent, lstate, la, lb, lregs⟩ := loseBeacons_trm (setTrm .listen (missTaken v.toNat s))
      obtain ⟨trm, regs, -⟩ := setTrm_set .listen (missTaken v.toNat s)
      refine ⟨?_, ?_, lsent, fun _ => ⟨lstate.trans (congrArg Trm.state trm), la, lb⟩, fun h => absurd h3 (by omega)⟩
      · exact (rn_congr ((rd_of_regs lregs _).trans (regs _ (by decide)))).trans count
      · exact lmiss.trans ((congrArg Trm.missRun trm).trans miss)
    · rw [if_neg h3]
      refine ⟨count, miss, sent, fun h => absurd (by omega) h3, fun _ => ⟨state, ?_⟩⟩
      rw [pred, hp]
      rfl
  case burst =>
    refine next_at (execTrmFollowerBurstSend_keeps s) (by decide) (congrArg Host.Outcome.next (followerSend_sends ha hs hx hy)) ?_
    have hlen := followerBody_length (advanceTo (min x y) s)
    have hbus : ∀ b, busOn { advanceTo (min x y) s with trm := { (advanceTo (min x y) s).trm with sent := true } } b = busOn s b :=
      busOn_congr (advance_rd (min x y) s (by decide))
    obtain ⟨h0, h1⟩ := sendBurst_out x y (followerBody (advanceTo (min x y) s))
      { advanceTo (min x y) s with trm := { (advanceTo (min x y) s).trm with sent := true } }
    rw [hbus] at h0 h1
    refine ⟨?_, _, hlen, h0, h1⟩
    rw [sendBurst_trm]
    exact congrArg (fun z : Trm => { z with sent := true }) (advance_trm (min x y) s)
  case good =>
    refine next_at (execTrmFollowerBurstReceive_keeps i a b ra rb s) (by decide) (congrArg Host.Outcome.next (followerBurst_eq hi hf)) ?_
    have hga : slotGood i.val false a s = some p := by
      unfold slotGood
      rw [hb, if_pos rfl, hg]
    have hmute := burstsCounted_mute i.val a b ra.toNat rb.toNat s
    have htrm : (burstsCounted i.val a b ra.toNat rb.toNat s).trm = s.trm :=
      (burstsCounted_keeps i.val a b ra.toNat rb.toNat s).only .trm (by decide)
    rw [hga, pickBus_selected (by rw [htrm, hbus])]
    generalize burstsCounted i.val a b ra.toNat rb.toNat s = u at hmute
    obtain ⟨seen, known, rate, stale⟩ := takeNode_taken (i := i.val) (by omega) p (slotSeen i.val u)
    refine ⟨?_, known, rate, stale.trans ?_⟩
    · exact seen.symm ▸ mem_slotSeen i.val u
    · rw [rbit, rbit, ← hmute]
      rfl
  case bad =>
    refine next_at (execTrmFollowerBurstReceive_keeps i a b ra rb s) (by decide) (congrArg Host.Outcome.next (followerBurst_eq hi hf)) ?_
    have htrm : (burstsCounted i.val a b ra.toNat rb.toNat s).trm = s.trm :=
      (burstsCounted_keeps i.val a b ra.toNat rb.toNat s).only .trm (by decide)
    rw [slotGood_none ha, slotGood_none hb, pickBus_none]
    refine ⟨markStale_bit (fun j hj => ?_) (Or.inl (List.mem_singleton_self _)), (markStale_trm _ _).trans htrm⟩
    rw [List.mem_singleton.mp hj]
    omega

end Sys2Proof.Machine
end

section
/-! SUPPORT. The proof of what Tally's timers and device exchanges do (O49). -/

namespace Sys2Proof.Machine
open Sys2Proof

/-! ## Frames of a device (R477) -/

/-- A response frame as a device sends it. -/
def responseFrame (status : Nat) (p : List Byte) : List Byte :=
  le 1 status ++ le 2 p.length ++ p ++ tallyCrc (le 1 status ++ le 2 p.length ++ p)

/-- What a well-formed response reads as. -/
structure FrameReads (status : Nat) (p bs : List Byte) : Prop where
  status : leAt bs 0 1 = status
  size : leAt bs 1 2 = p.length
  length : bs.length = p.length + 5
  crc : bs.drop (3 + p.length) = tallyCrc (bs.take (3 + p.length))
  payload : slice bs 3 (3 + p.length) = p

theorem responseFrame_reads {status : Nat} (hs : status < 256) {p : List Byte} (hp : p.length ≤ 1024) :
    FrameReads status p (responseFrame status p) := by
  have hhead : (le 1 status ++ le 2 p.length ++ p).length = 3 + p.length := by
    simp only [List.length_append, length_le]
  have hcrc : (tallyCrc (le 1 status ++ le 2 p.length ++ p)).length = 2 := length_le 2 _
  have htake : (responseFrame status p).take (3 + p.length) = le 1 status ++ le 2 p.length ++ p := by
    rw [responseFrame, ← hhead, List.take_left]
  refine ⟨?_, ?_, ?_, ?_, ?_⟩
  · have h : leAt (responseFrame status p) 0 1 = status % 256 := by simp [responseFrame, leAt, leVal, le]
    rw [h, Nat.mod_eq_of_lt hs]
  · have h : leAt (responseFrame status p) 1 2 = p.length % 256 + 256 * (p.length / 256 % 256) := by
      simp [responseFrame, leAt, leVal, le]
    omega
  · rw [responseFrame, List.length_append, hhead, hcrc]
    omega
  · rw [htake, responseFrame, ← hhead, List.drop_left]
  · have h : (responseFrame status p).drop 3 = p ++ tallyCrc (le 1 status ++ le 2 p.length ++ p) := by simp [responseFrame, le]
    rw [slice, h, Nat.add_sub_cancel_left, List.take_left]

theorem FrameReads.ne_nil {status : Nat} {p bs : List Byte} (h : FrameReads status p bs) : bs ≠ [] :=
  List.ne_nil_of_length_eq_add_one (n := p.length + 4) h.length

/-- A frame with its length and its CRC is whole. -/
theorem FrameReads.whole {status : Nat} {p bs : List Byte} (h : FrameReads status p bs) (hp : p.length ≤ 1024) :
    ¬(bs.length ≠ p.length + 5 ∨ 1024 < p.length ∨ bs.drop (3 + p.length) ≠ tallyCrc (bs.take (3 + p.length))) := by
  rintro (hl | hl | hc)
  · exact hl h.length
  · exact absurd hp (by omega)
  · exact hc h.crc

/-- A request is made of a slot's serial, nonces, counter and key, and of no exchange. -/
theorem requestOf_exchanges (x : TlySlot) (l : List IdExchange) (e : IdExchange) : requestOf { x with exchanges := l } e = requestOf x e := rfl

/-! ## Exchanges that end (R477) -/

theorem scanArrive_tly (i : Nat) (s : State) : (scanArrive i s).tly = s.tly :=
  (scanArrive_keeps i s (fun _ q => q) (Keeps.refl _ s)).only .tly (by decide)

theorem endExchange_slot (i : Nat) (s : State) :
    tlySlot (endExchange i s) i = { tlySlot s i with exchanges := (tlySlot s i).exchanges.drop 1 } := by
  unfold endExchange
  rw [tlySlot_congr (scanArrive_tly i _), tlySlot_congr (sendExchange_tly i _), tlySlot_updTly_self]


theorem endExchange_rn (i : Nat) (s : State) {k : Nat} (hk : keyKind k = .tly) : rn (endExchange i s) k = rn s k :=
  (endExchange_keeps i s (fun _ q => q) (Keeps.refl _ s)).rn (by rw [hk]; decide)

theorem tlySlot_raised (i n b code : Nat) (ten : Option Nat) (pl : List Byte) (s : State) :
    tlySlot (raiseIrq n b (event code ten pl s)) i = tlySlot s i := tlySlot_congr ((raised_keeps s).only .tly (by simp)) i

theorem setTly_slot (i st : Nat) (s : State) : tlySlot (setTly i st s) i = { tlySlot s i with state := st } := by
  unfold setTly
  dsimp only
  split
  · next h => rw [← h]
  · rw [tlySlot_raised, tlySlot_updTly_self]

theorem setTly_rn (i st : Nat) (s : State) {k : Nat} (hk : keyKind k = .tly) : rn (setTly i st s) k = rn s k := by
  unfold setTly
  dsimp only
  split
  · rfl
  · exact raised_rn _ (by rw [hk]; decide)

/-- A failed exchange leaves its slot's exchanges, whatever it was (R477). -/
theorem failExchange_exchanges (i : Nat) (e : IdExchange) (status : Nat) (s : State) :
    (tlySlot (failExchange i e status s) i).exchanges = (tlySlot s i).exchanges.drop 1 := by
  unfold failExchange
  split
  · rw [endExchange_slot]
  · rw [endExchange_slot, tlySlot_raised]
    rfl
  · dsimp only
    rw [endExchange_slot]
    split
    · rw [setTly_slot, tlySlot_updTly_self]
    · rw [tlySlot_updTly_self]

/-- A failed exchange counts no I²C error of its own. -/
theorem failExchange_errors (i : Nat) (e : IdExchange) (status : Nat) (s : State) :
    rn (failExchange i e status s) Reg.TLY_I2C_ERR_CNT = rn s Reg.TLY_I2C_ERR_CNT := by
  have hk : keyKind Reg.TLY_I2C_ERR_CNT = .tly := by decide
  unfold failExchange
  split
  · rw [endExchange_rn _ _ hk]
  · rw [endExchange_rn _ _ hk, raised_rn _ (by decide)]
    exact rn_inc_ne _ _ (by decide)
  · dsimp only
    rw [endExchange_rn _ _ hk]
    split
    · exact setTly_rn _ _ _ hk
    · rfl

/-! ## What the front exchange of a slot does (R476, R477, R478) -/

/-- The usage that an authentic device has: the largest of its own, the last known of its serial and the slot's (R478). -/
def usageFound (s : State) (i : Nat) (p : List Byte) : Nat :=
  max (max (leAt p 0 8) (knownUsage s (tlySlot s i).serial).toNat) (tlySlot s i).usage.toNat

theorem usageFound_lt (s : State) (i : Nat) (p : List Byte) : usageFound s i p < 2 ^ 64 :=
  max_lt (max_lt (leAt_lt p 0 8) (knownUsage s (tlySlot s i).serial).isLt) (tlySlot s i).usage.isLt

section
variable {i : Nat} {e : IdExchange} {r : List IdExchange} {s : State} (he : (tlySlot s i).exchanges = e :: r)
include he

theorem busyRetry_sends (hb : 0 < e.busy) :
    busyRetry i s = emit (.i2c (tlyController s i) (tlyAddress s i) []) s := by
  unfold busyRetry
  rw [he]
  exact if_pos hb

theorem stretchTimeout_fails :
    ∃ status, stretchTimeout i s = failExchange i e status (draw 8 (inc Reg.TLY_I2C_ERR_CNT 1 s)).2 := by
  unfold stretchTimeout
  rw [he]
  exact ⟨_, rfl⟩

theorem stretchTimeout_ends : rn (stretchTimeout i s) Reg.TLY_I2C_ERR_CNT = min 0xFFFFFFFF (rn s Reg.TLY_I2C_ERR_CNT + 1) ∧
    (tlySlot (stretchTimeout i s) i).exchanges = r := by
  obtain ⟨status, h⟩ := stretchTimeout_fails he
  rw [h, failExchange_errors, failExchange_exchanges]
  exact ⟨rn_inc_self _ _ _, (congrArg (List.drop 1) he :)⟩

/-- The bytes read are no whole frame: the exchange is repeated. -/
theorem exchangeResponse_malformed {bytes : List Byte} (hb : bytes ≠ []) (hl : bytes.length ≠ leAt bytes 1 2 + 5)
    (hr : e.repeated = false) : exchangeResponse i bytes s =
      sendExchange i (updTly i (fun x => { x with exchanges := { e with repeated := true, busy := 0 } :: x.exchanges.drop 1 }) s) := by
  have hrep : repeatExchange i e (leAt bytes 0 1) s =
      sendExchange i (updTly i (fun x => { x with exchanges := { e with repeated := true, busy := 0 } :: x.exchanges.drop 1 }) s) :=
    if_neg (by simp [hr])
  unfold exchangeResponse
  rw [he]
  exact (if_neg hb).trans ((if_pos (.inl hl)).trans hrep)

theorem sendExchange_emits (ho : controllerOn s (tlyController s i) = true) :
    sendExchange i s = emit (.i2c (tlyController s i) (tlyAddress s i) (requestOf (tlySlot s i) e)) s := by
  unfold sendExchange
  rw [he]
  exact if_pos ho

/-- A whole frame of status 0 is an answer, to WRITE_USAGE here. -/
theorem exchangeResponse_written (ho : e.op = 3) {p : List Byte} (hp : p.length ≤ 1024) :
    exchangeResponse i (responseFrame 0 p) s = written i e p s := by
  have f := responseFrame_reads (status := 0) (by decide) hp
  unfold exchangeResponse
  rw [he]
  dsimp only
  rw [f.size, f.status, f.payload, ho, if_neg f.ne_nil, if_neg (f.whole hp)]
  rfl

theorem exchangeResponse_authenticated (ho : e.op = 2) {p : List Byte} (hp : p.length ≤ 1024) :
    exchangeResponse i (responseFrame 0 p) s = authenticated i e p s := by
  have f := responseFrame_reads (status := 0) (by decide) hp
  unfold exchangeResponse
  rw [he]
  dsimp only
  rw [f.size, f.status, f.payload, ho, if_neg f.ne_nil, if_neg (f.whole hp)]
  rfl

/-- A device that is BUSY is waited for, fifty times. -/
theorem exchangeResponse_busy (hb : e.busy < 50) {p : List Byte} (hp : p.length ≤ 1024) :
    exchangeResponse i (responseFrame 1 p) s =
      updTly i (fun x => { x with exchanges := { e with busy := e.busy + 1 } :: x.exchanges.drop 1 }) s := by
  have f := responseFrame_reads (status := 1) (by decide) hp
  unfold exchangeResponse
  rw [he]
  dsimp only
  rw [f.size, f.status, if_neg f.ne_nil, if_neg (f.whole hp), if_neg (by omega)]
  rfl

theorem written_steps {p : List Byte}
    (hp : p = le 8 e.val.toNat ++ le 4 ((tlySlot s i).counter + 1).toNat ++
      slotMac (tlySlot s i) e.val.toNat ((tlySlot s i).counter + 1).toNat) :
    tlySlot (written i e p s) i =
      { tlySlot s i with exchanges := r, devUsage := e.val, counter := (tlySlot s i).counter + 1 } := by
  have h : written i e p s =
      endExchange i (updTly i (fun y => { y with devUsage := e.val, counter := (tlySlot s i).counter + 1 }) s) := if_pos hp
  rw [h, endExchange_slot, tlySlot_updTly_self]
  dsimp only
  rw [he]
  rfl

theorem authenticated_admits {p : List Byte} (hp : p.length = 76) (hu : leAt p 0 8 = (tlySlot s i).devUsage.toNat)
    (hv : Config.ecdsaP256 (tlySlot s i).devKey (Config.sha384 (le 32 (tlySlot s i).nonce.toNat ++ le 64 (tlySlot s i).eph.toNat ++
      (tlySlot s i).serial ++ slice p 0 12)) (slice p 12 76) = true) :
    tlySlot (authenticated i e p s) i = { tlySlot s i with
      state := if (tlySlot s i).cap.toNat ≤ usageFound s i p then 5 else 3
      usage := BitVec.ofNat 64 (usageFound s i p)
      counter := BitVec.ofNat 32 (leAt p 8 4)
      session := some (Config.tallySession (tlySlot s i).nonce (tlySlot s i).eph (tlySlot s i).devKey)
      exchanges := r } := by
  have h : authenticated i e p s = endExchange i (setTly i (if (tlySlot s i).cap.toNat ≤ usageFound s i p then 5 else 3)
      (updTly i (fun y => { y with
        usage := BitVec.ofNat 64 (usageFound s i p)
        counter := BitVec.ofNat 32 (leAt p 8 4)
        session := some (Config.tallySession (tlySlot s i).nonce (tlySlot s i).eph (tlySlot s i).devKey) }) s)) :=
    (if_neg (not_not.mpr hp)).trans (if_pos ⟨hu, hv⟩)
  rw [h, endExchange_slot, setTly_slot, tlySlot_updTly_self]
  dsimp only
  rw [he]
  rfl

end

/-! ## The checkpoint timer and write-backs (R480) -/

theorem checkpointSubmitted_enabled (cmd : Option Nat) (s : State) : tlyEnabled (checkpointSubmitted cmd s) = tlyEnabled s :=
  List.filter_congr fun _ _ => rbit_congr ((checkpointSubmitted_only cmd s).rd (by simp)) 9

theorem checkpointSubmitted_tly (cmd : Option Nat) (s : State) : (checkpointSubmitted cmd s).tly =
    { s.tly with captured := s.clock.uptime, writing := s.tly.writing || crkAccepts s } := by
  have h : ∀ b, (crkSubmit b cmd none s).tly = s.tly := fun b =>
    (crkSubmit_keeps b cmd none s (fun _ q => q) (Keeps.refl _ s)).only .tly (by decide)
  rw [checkpointSubmitted]
  dsimp only
  rw [h]

theorem checkpoint_captures (cmd : Option Nat) (s : State) : (checkpoint cmd s).tly.captured = s.clock.uptime ∧
    (checkpoint cmd s).tly.writing = (s.tly.writing || crkAccepts s) := by
  rw [checkpoint_eq, pollSlots_tly, checkpointSubmitted_tly]
  exact ⟨rfl, rfl⟩

theorem tlyEnabled_nodup (s : State) : (tlyEnabled s).Nodup := List.nodup_range.filter _

theorem checkpoint_polls {i : Nat} {s : State} (cmd : Option Nat) (hi : i ∈ tlyEnabled s) :
    tlySlot (checkpoint cmd s) i = polled false (tlySlot s i) := by
  rw [checkpoint_eq, checkpointSubmitted_enabled, tlySlot_pollSlots_mem false (tlyEnabled_nodup s) hi, tlySlot, tlySlot,
    checkpointSubmitted_tly]

theorem checkpoint_leaves {i : Nat} {s : State} (cmd : Option Nat) (hi : i ∉ tlyEnabled s) :
    tlySlot (checkpoint cmd s) i = tlySlot s i := by
  rw [checkpoint_eq, checkpointSubmitted_enabled, tlySlot_pollSlots_ne false hi, tlySlot, tlySlot, checkpointSubmitted_tly]

/-- An exchange joins its slot's, whether it starts at once or waits. -/
theorem pushExchange_tly (i : Nat) (e : IdExchange) (s : State) :
    (pushExchange i e s).tly = (updTly i (fun x => { x with exchanges := x.exchanges ++ [e] }) s).tly := by
  unfold pushExchange
  dsimp only
  split
  · exact sendExchange_tly i _
  · rfl

/-- The usage of a slot goes to its device. -/
def writeBackSlot (s : State) (i : Nat) : State := pushExchange i ⟨3, (tlySlot s i).usage, 0, false⟩ s

/-- A slot with a write-back of its usage at the end of its exchanges. -/
def writtenBack (x : TlySlot) : TlySlot := { x with exchanges := x.exchanges ++ [⟨3, x.usage, 0, false⟩] }

theorem writeBackSlot_self (i : Nat) (s : State) : tlySlot (writeBackSlot s i) i = writtenBack (tlySlot s i) :=
  (tlySlot_congr (pushExchange_tly i _ s) i).trans (tlySlot_updTly_self i _ s)

theorem writeBackSlot_ne {i j : Nat} (s : State) (h : j ≠ i) : tlySlot (writeBackSlot s i) j = tlySlot s j :=
  (tlySlot_congr (pushExchange_tly i _ s) j).trans (tlySlot_updTly_ne _ s h)

/-- The slots whose devices are authentic. -/
def authenticSlots (s : State) : List Nat :=
  (tlyEnabled s).filter fun i => decide ((tlySlot s i).state = 3 ∨ (tlySlot s i).state = 5)

theorem writeBacks_eq {s : State} (h : s.tly.writeBack = true) :
    writeBacks s = (authenticSlots s).foldl writeBackSlot { s with tly := { s.tly with writeBack := false } } := if_pos h

section
variable {s : State} (h : s.tly.writeBack = true)
include h

theorem writeBacks_done : (writeBacks s).tly.writeBack = false := by
  rw [writeBacks_eq h]
  exact foldl_holds (I := fun t => t.tly.writeBack = false) _ rfl fun t i _ ht =>
    (congrArg Tally.writeBack (pushExchange_tly i _ t)).trans ht

theorem writeBacks_mem {i : Nat} (hi : i ∈ authenticSlots s) : tlySlot (writeBacks s) i = writtenBack (tlySlot s i) := by
  rw [writeBacks_eq h]
  exact foldl_once (val := fun t => tlySlot t i) (I := fun _ => True) ((tlyEnabled_nodup s).filter _) hi trivial
    (fun _ _ _ _ => trivial) (fun t _ => writeBackSlot_self i t) fun t _ _ hb => writeBackSlot_ne t (Ne.symm hb)

theorem writeBacks_not_mem {i : Nat} (hi : i ∉ authenticSlots s) : tlySlot (writeBacks s) i = tlySlot s i := by
  rw [writeBacks_eq h]
  exact foldl_holds (I := fun t => tlySlot t i = tlySlot s i) _ rfl fun t _ hj ht =>
    (writeBackSlot_ne t (ne_of_mem_of_not_mem hj hi).symm).trans ht

end

theorem mem_authenticSlots {i : Nat} {s : State} : i ∈ authenticSlots s ↔
    i ∈ tlyEnabled s ∧ ((tlySlot s i).state = 3 ∨ (tlySlot s i).state = 5) := by
  rw [authenticSlots, List.mem_filter, decide_eq_true_iff]

/-! ## A checkpoint overdue (R480) -/

/-- The alarm of an overdue checkpoint. -/
def lateAlarm (t : Nat) (s : State) : State :=
  raiseIrq pgTly 6 (raiseAlarm 11 none (le 4 ((s.clock.uptime + (t - now s) - s.tly.prev) / ms))
    { advanceTo t s with tly := { s.tly with late := true } })

theorem checkpointLate_alarms {t : Nat} {s : State} (hon : rbit s Reg.TLY_CTRL 0 = true) (hl : s.tly.late = false)
    (hd : rf s Reg.TLY_CKPT 15 0 + 250 ≤ (s.clock.uptime - s.tly.prev) / ms) : checkpointLate t s = lateAlarm t s := by
  have hup := uptime_advance t s
  have htly : (advanceTo t s).tly = s.tly := advance_tly t s
  have hon' : rbit (advanceTo t s) Reg.TLY_CTRL 0 = true := (rbit_congr (advance_rd t s (by decide)) 0).trans hon
  have hck : rf (advanceTo t s) Reg.TLY_CKPT 15 0 = rf s Reg.TLY_CKPT 15 0 := rf_congr (advance_rd t s (by decide)) _ _
  have hage : (s.clock.uptime - s.tly.prev) / ms ≤ (s.clock.uptime + (t - now s) - s.tly.prev) / ms :=
    Nat.div_le_div_right (by omega)
  unfold checkpointLate lateAlarm
  dsimp only
  rw [hup, htly, hon', hck, hl]
  exact if_pos (by simpa using hd.trans hage)

theorem lateAlarm_tly (t : Nat) (s : State) : (lateAlarm t s).tly = { s.tly with late := true } :=
  ((raiseIrq_keeps _ _ _ (fun _ q => q) (Keeps.refl _ _)).only .tly (by decide)).trans ((raiseAlarm_only 11 none _ _).only .tly (by decide))

theorem lateAlarm_latched (t : Nat) (s : State) : (tfind (lateAlarm t s).stk.alarms 11).isSome = true :=
  (congrArg (fun x => (tfind x.alarms 11).isSome) (raiseIrq_stk _ _ _)).trans (raiseAlarm_latched 11 none _ _)

/-! ## O49 -/

theorem tallyCheckpointTimer_checkpoints {s : State} (h : rbit s Reg.TLY_CTRL 0 = true) :
    exec .tallyCheckpointTimer s = .next (checkpoint none s) := congrArg Host.Outcome.next (if_pos h)

/-- Settles O49: a slot's front exchange is all its answer, its silence or its device's delay can touch, and the timers queue
one exchange in each slot they name. -/
theorem tallyRuns : Obligations.TallyRuns := by
  refine ⟨?checkpoint, ?writeBack, ?late, ?exchange⟩
  case checkpoint =>
    intro s hon
    obtain ⟨hcap, hwr⟩ := checkpoint_captures none s
    exact next_at (execTallyCheckpointTimer_keeps s) (by decide) (tallyCheckpointTimer_checkpoints hon)
      ⟨hcap, hwr, fun _ hi => checkpoint_polls none hi, fun _ hi => checkpoint_leaves none hi⟩
  case writeBack =>
    intro s hw
    refine next_at (execTallyWriteBack_keeps s) (by decide) rfl ⟨writeBacks_done hw, fun i hi hst => ?_, fun i hi => ?_⟩
    · exact writeBacks_mem hw (mem_authenticSlots.mpr ⟨hi, hst⟩)
    · refine writeBacks_not_mem hw fun hm => ?_
      obtain ⟨hon, hst⟩ := mem_authenticSlots.mp hm
      rcases hi with hoff | ⟨h3, h5⟩
      · exact hoff hon
      · exact hst.elim h3 h5
  case late =>
    intro v s hon hl hd
    exact next_at (execTallyCkptLate_keeps v s) (by decide) (congrArg Host.Outcome.next (checkpointLate_alarms hon hl hd))
      ⟨lateAlarm_tly _ _, lateAlarm_latched _ _, raiseIrq_raw (by decide) _⟩
  case exchange =>
    intro i e r s he
    refine ⟨fun hb => ?busy, ?stretch, fun bytes hb hl hr => ?malformed, fun p hp hb => ?again, fun p hp ho hm => ?written,
      fun p hp ho hu hv => ?authentic⟩
    case busy =>
      exact next_at (execTallyI2cBusyRetry_keeps i s) (by decide) (congrArg Host.Outcome.next (busyRetry_sends he hb)) rfl
    case stretch =>
      exact next_at (execI2cStretchTimeout_keeps i s) (by decide) rfl (stretchTimeout_ends he)
    case malformed =>
      have hrep := exchangeResponse_malformed he hb hl hr
      have hk : Keeps [.out, .tly] s (exchangeResponse i.val bytes s) := by
        rw [hrep]
        exact sendExchange_keeps _ _ (by decide) (updTly_keeps _ _ _ (by decide) (Keeps.refl _ s))
      refine ⟨_, rfl, ⟨?_, fun hon => ?_⟩, hk.only⟩
      · rw [hrep, tlySlot_congr (sendExchange_tly _ _), tlySlot_updTly_self, he]
        rfl
      · have hfront : (tlySlot (updTly i.val (fun x =>
            { x with exchanges := { e with repeated := true, busy := 0 } :: x.exchanges.drop 1 }) s) i.val).exchanges =
            { e with repeated := true, busy := 0 } :: r := by
          rw [tlySlot_updTly_self, he]
          rfl
        rw [hrep, sendExchange_emits hfront hon, tlySlot_updTly_self, requestOf_exchanges]
        rfl
    case again =>
      have hupd := exchangeResponse_busy he hb hp
      refine ⟨_, congrArg Host.Outcome.next hupd, ?_, (updTly_keeps _ _ s (fun _ q => q) (Keeps.refl _ s)).only⟩
      rw [tlySlot_updTly_self, he]
      rfl
    case written =>
      have hw := exchangeResponse_written he ho hp
      refine ⟨_, congrArg Host.Outcome.next hw, written_steps he hm, ?_⟩
      exact (written_keeps _ _ _ _ (by decide) (Keeps.refl _ s)).only
    case authentic =>
      have hw := exchangeResponse_authenticated he ho (p := p) (by omega)
      have hslot := authenticated_admits he hp hu hv
      refine ⟨_, congrArg Host.Outcome.next hw, ?_, (authenticated_keeps _ _ _ _ (by decide) (Keeps.refl _ s)).only⟩
      rw [hslot]
      exact ⟨rfl, Nat.mod_eq_of_lt (usageFound_lt s i.val p), rfl, rfl⟩

end Sys2Proof.Machine
end

section
/-! SUPPORT. The proof of what calibration's commands, windows, dumps and gate do (O28). -/

namespace Sys2Proof.Machine
open Sys2Proof

/-! ## CAL_CONTROL, REF_SELECT and CAL_STATUS (R407, R411, R413) -/

theorem inspects_taken (d : Desc) (s : State) (k p : Nat) : inspects (taken d s) k p = inspects s k p := by
  have hk := taken_only d s
  have hcol : (camCols (taken d s) k).1 = (camCols s k).1 := rf_congr (hk.rd (by simp [takingParts])) 17 0
  rw [inspects, inspects, camRunning_congr (hk.only .ipl (by decide)), hcol, planeWidth, plane_congr (hk.only .kln (by decide)),
    ← planeWidth]

theorem calState_taken (d : Desc) (s : State) (p : Nat) : calState (taken d s) p = calState s p := by
  have hk := taken_only d s
  have hgut : ∀ k, gutterOn (taken d s) k = gutterOn s k := fun k => by
    rw [gutterOn, gutterOn, rbit_congr (hk.rd (by simp [takingParts])) 31, rbit_congr (hk.rd (by simp [takingParts])) 31]
  have hfroz : driftFrozen (taken d s) p = driftFrozen s p := by
    rw [driftFrozen, driftFrozen]
    exact congrArg (List.any camNums) (funext fun k => by rw [inspects_taken, hgut]; rfl)
  rw [calState, calState, hfroz]
  rfl

/-- CAL_CONTROL with action 0. -/
def frozen (ps : List Nat) (s : State) : State :=
  refreshWindows { s with cal := { s.cal with run := s.cal.run.filter fun p => !ps.contains p } }

/-- CAL_CONTROL with action 1. -/
def resumed (ps : List Nat) (s : State) : State :=
  { s with cal := { s.cal with run := s.cal.run ++ ps.filter fun p => !s.cal.run.contains p } }

/-- CAL_CONTROL with action 2. -/
def discarded (ps : List Nat) (s : State) : State := ps.foldl (fun t p => discardWindow p t) s

theorem frozen_keeps (ps : List Nat) (s : State) : Keeps [.cal, .gln] s (frozen ps s) :=
  refreshWindows_keeps _ (by decide) (Keeps.set_cal (by decide) (Keeps.refl _ s))

theorem resumed_keeps (ps : List Nat) (s : State) : Keeps [.cal, .gln] s (resumed ps s) :=
  Keeps.set_cal (by decide) (Keeps.refl _ s)

theorem discarded_keeps (ps : List Nat) (s : State) : Keeps [.cal, .gln] s (discarded ps s) :=
  foldl_holds (I := fun t => Keeps [.cal, .gln] s t) ps (Keeps.refl _ s) fun t p _ h => discardWindow_keeps p t (by decide) h

/-- What an action of CAL_CONTROL makes of the planes of its mask. -/
def calActed (action : Nat) (ps : List Nat) (s : State) : State :=
  match action with
  | 0 => frozen ps s
  | 1 => resumed ps s
  | _ => discarded ps s

theorem calActed_keeps (action : Nat) (ps : List Nat) (s : State) : Keeps [.cal, .gln] s (calActed action ps s) := by
  unfold calActed
  split
  · exact frozen_keeps ps s
  · exact resumed_keeps ps s
  · exact discarded_keeps ps s

theorem calControl_acts {h : Hdr} {mask action : Nat} {s : State} (ha : action ≤ 2)
    (hi : ∀ p ∈ maskBits 16 mask, camNums.any (fun k => inspects s k p) = true) :
    calControl h mask action s = ok h 0 (calActed action (maskBits 16 mask) s) := by
  have hany : ((maskBits 16 mask).any fun p => !camNums.any fun k => inspects s k p) = false :=
    List.any_eq_false.mpr fun p hp => by simp [hi p hp]
  have h2 : ∀ a ≤ 2, calControl h mask a s = _ := fun a ha =>
    (if_neg (Nat.not_lt.mpr ha)).trans (if_neg (by rw [hany]; exact Bool.false_ne_true))
  rw [h2 action ha]
  obtain rfl | rfl | rfl : action = 0 ∨ action = 1 ∨ action = 2 := by omega
  · rfl
  · rfl
  · rfl

theorem mem_frozen {ps : List Nat} {s : State} {p : Nat} : p ∈ (frozen ps s).cal.run ↔ p ∈ s.cal.run ∧ p ∉ ps := by
  change p ∈ s.cal.run.filter (fun p => !ps.contains p) ↔ _
  simp

theorem mem_resumed {ps : List Nat} {s : State} {p : Nat} : p ∈ (resumed ps s).cal.run ↔ p ∈ s.cal.run ∨ p ∈ ps := by
  change p ∈ s.cal.run ++ ps.filter (fun p => !s.cal.run.contains p) ↔ _
  by_cases h : p ∈ s.cal.run <;> simp [h]

theorem discardWindow_self (p : Nat) (s : State) : tfind (discardWindow p s).gln.wins p = none := tfind_tdel_self _ _

theorem discardWindow_ne {p q : Nat} (s : State) (h : q ≠ p) : tfind (discardWindow p s).gln.wins q = tfind s.gln.wins q :=
  tfind_tdel_ne _ h

theorem discardWindow_none {p q : Nat} {s : State} (h : tfind s.gln.wins q = none) : tfind (discardWindow p s).gln.wins q = none := by
  by_cases e : q = p
  · rw [e]
    exact discardWindow_self p s
  · rw [discardWindow_ne s e, h]

/-- The windows of the planes named are gone. -/
theorem discarded_none {ps : List Nat} {p : Nat} (hp : p ∈ ps) (s : State) : tfind (discarded ps s).gln.wins p = none := by
  obtain ⟨l, r, rfl⟩ := List.append_of_mem hp
  rw [discarded, List.foldl_append, List.foldl_cons]
  exact foldl_holds (I := fun t => tfind t.gln.wins p = none) r (discardWindow_self p _) fun _ _ _ h => discardWindow_none h

theorem whiteRef_putRef_self (k : Nat) (r : WhiteRef) (s : State) : whiteRef (putRef k r s) k = r := tget_tput_self _ _ _ _

theorem whiteRef_congr {s t : State} (h : t.cal = s.cal) (k : Nat) : whiteRef t k = whiteRef s k := by rw [whiteRef, whiteRef, h]

/-- A new anchor is the running mean of its port, which is INSIDE (R411). -/
theorem reanchor_ref (k : Nat) (s : State) : (whiteRef (reanchor k s) k).state = 1 ∧
    (whiteRef (reanchor k s) k).a = (whiteRef s k).m ∧ (whiteRef (reanchor k s) k).m = (whiteRef s k).m := by
  have h : whiteRef (reanchor k s) k = { whiteRef s k with
      a := (whiteRef s k).m, drift := (whiteRef s k).m.map fun e => (e.1, 0), state := 1, run := 0 } :=
    whiteRef_putRef_self k _ s
  rw [h]
  exact ⟨rfl, rfl, rfl⟩

theorem refSelect_runs {h : Hdr} {port action : Nat} {s : State} (hp : port ≤ 3) (ha : action ≤ 1) :
    refSelect h port action s = ok h 0 (if action = 1 then reanchor port s else s) :=
  (if_neg (by omega)).trans (if_neg (by omega))

/-! ## Glean windows (R402, R412) -/

/-- A plain write leaves the registers below its own. -/
theorem rd_plainPut_lt {addr k : Nat} (h : k < addr) (v : Word) (s : State) : rd (plainPut addr v s) k = rd s k := by
  unfold plainPut
  dsimp only
  split
  · split
    · refine rd_wr_ne _ _ ?_
      unfold keyOf wkey
      omega
    · rfl
  · rfl

theorem plainPut_gln (addr : Nat) (v : Word) (s : State) : (plainPut addr v s).gln = s.gln :=
  (plainPut_keeps addr v s (fun _ q => q) (Keeps.refl _ s)).only .gln (by simp)

theorem gleanReg_model {n : Nat} (h : n < 6) (s : State) : gleanDiscard (gleanReg n) s = discardWindow (rf s Reg.WIN_PL_SEL 3 0) s := by
  have ha : gleanReg n = Reg.WIN_PL_DM0 + 4 * n := if_pos h
  rw [ha, gleanDiscard, if_neg (by simp only [Reg.WIN_PL_DM0, Reg.GLN_CTRL, Reg.GLN_QUAL]; omega), if_pos (by
    simp only [Reg.WIN_PL_DM0, Reg.WIN_PL_CK]
    omega)]

theorem gleanReg_qualifier {n : Nat} (h : ¬n < 6) (s : State) :
    gleanDiscard (gleanReg n) s = { s with gln := { s.gln with wins := [] } } := by
  have ha : gleanReg n = Reg.GLN_CTRL + 4 * ((n - 6) % 2) := if_neg h
  exact if_pos (by simp only [ha, Reg.GLN_CTRL, Reg.GLN_QUAL]; omega)

/-- The pages of the registers that discard windows. -/
theorem gleanReg_kinds : ∀ r : Fin 8, Part.reg (keyKind (gleanReg r.val)) ∈ [Part.reg .gln, Part.reg .win] ∧
    Part.reg (pageKind (gleanReg r.val / 4096)) ∈ [Part.reg .gln, Part.reg .win] := by decide

/-! ## Dumps (R401, R403) -/

theorem releaseDump_free {p : Nat} {s : State} (h : tfind s.gln.closed p = none) : tfind (releaseDump p s).gln.dumps p = none := by
  unfold releaseDump
  dsimp only
  rw [h]
  exact tfind_tdel_self _ _

/-- A closed window that waited is dumped under the next number. -/
theorem releaseDump_next {p : Nat} {w : GleanWin} {s : State} (h : tfind s.gln.closed p = some w) :
    tfind (releaseDump p s).gln.dumps p = some (tget s.gln.latest 0 p + 1, w) := by
  unfold releaseDump
  dsimp only
  rw [h]
  exact tfind_tput_self _ _ _

theorem releaseDump_cal (p : Nat) (s : State) : (releaseDump p s).cal = s.cal :=
  (releaseDump_keeps p s (fun _ q => q) (Keeps.refl _ s)).only .cal (by decide)

theorem dumpSolve_proposes {p id : Nat} {w : GleanWin} {s : State} (hd : tfind s.gln.dumps p = some (id, w))
    (hp : tfind s.cal.props p = none) :
    dumpSolve p s = releaseDump p { s with cal := { s.cal with props := tput s.cal.props p (propose s p id w) } } := by
  unfold dumpSolve
  rw [hd, hp]

/-! ## The CAL gate (R404, R405) -/

/-- A proposal taken away. -/
def proposalTaken (p : Nat) (s : State) : State := { s with cal := { s.cal with props := tdel s.cal.props p } }

/-- A refusal is counted and names its check. -/
structure GainsRefused (p r : Nat) (s t : State) : Prop where
  cal : t.cal = s.cal
  count : rn t (wkey Reg.CAL_PL_REJ p) = min 0xFFFFFFFF (rn s (wkey Reg.CAL_PL_REJ p) + 1)
  reason : rf t (wkey Reg.CAL_PL_STAT p) 11 8 = r % 16

theorem calRefuse_refused (p r : Nat) (x : Proposal) (s : State) : GainsRefused p r s (calRefuse p r x s) := by
  have hrd : ∀ k, keyKind k = .cal → rd (calRefuse p r x s) k = rd (wf (wkey Reg.CAL_PL_STAT p) 11 8 r (inc (wkey Reg.CAL_PL_REJ p) 1 s)) k :=
    fun k hk => (rd_raiseIrq _ _ _ _).trans (rd_event (by rw [hk]; decide))
  have hne : wkey Reg.CAL_PL_REJ p ≠ wkey Reg.CAL_PL_STAT p := by
    simp only [wkey, Reg.CAL_PL_REJ, Reg.CAL_PL_STAT]
    omega
  refine ⟨(raised_keeps _).only .cal (by decide), ?_, ?_⟩
  · rw [rn_congr (hrd _ (by simp)), rn_wf_ne _ _ _ _ hne, rn_inc_self]
  · rw [rf_congr (hrd _ (by simp)), rf_wf_self _ _ _ (by decide)]
    rfl

theorem proposalCheck_takes {p : Nat} {x : Proposal} {s : State} (hx : tfind s.cal.props p = some x) :
    proposalCheck p s = match calReject s p x with
      | some r => calRefuse p r x (proposalTaken p s)
      | none => calAccept p x (proposalTaken p s) := by
  unfold proposalCheck
  rw [hx]
  rfl

/-- The gains of a proposal in line for the latch of its plane. -/
def gainsWaiting (p : Nat) (x : Proposal) (s : State) : State :=
  { s with cal := { s.cal with waiting := s.cal.waiting ++ x.entries.map fun e => (p, e.1, e.2) } }

/-- New anchors of the running ports. -/
def reanchored (s : State) (l : List Nat) : State := l.foldl (fun t k => reanchor k t) s

/-- What new anchors leave of the gate and the planes. -/
structure AnchorsOnly (s t : State) : Prop where
  waiting : t.cal.waiting = s.cal.waiting
  props : t.cal.props = s.cal.props
  kept : Keeps [.cal, .gln] s t

theorem reanchored_anchors (s : State) (l : List Nat) : AnchorsOnly s (reanchored s l) :=
  foldl_holds (I := AnchorsOnly s) l ⟨rfl, rfl, Keeps.refl _ s⟩ fun t k _ ⟨hw, hp, hk⟩ =>
    ⟨hw, hp, reanchor_keeps k t (by decide) hk⟩

/-- An acceptance counted and reported. -/
def acceptReported (p : Nat) (x : Proposal) (s : State) : State :=
  raiseIrq pgCal 4 (event 0x6301 none (le 1 p ++ le 4 x.entries.length ++ le 4 x.q) (inc (wkey Reg.CAL_PL_ACC p) 1 s))

theorem calAccept_eq (p : Nat) (x : Proposal) (s : State) : calAccept p x s = idleTables p (acceptReported p x
    (reanchored (gainsWaiting p x s) (camNums.filter fun k =>
      camRunning (gainsWaiting p x s) k && gutterOn (gainsWaiting p x s) k && decide ((whiteRef (gainsWaiting p x s) k).m ≠ [])))) := rfl

theorem acceptReported_keeps (p : Nat) (x : Proposal) (s : State) :
    Keeps [.msix, .out, .reg .cal, .reg .stk, .rings, .stk] s (acceptReported p x s) :=
  Keeps.trans (inc_keeps _ 1 s (by simp) (Keeps.refl _ s)) ((raised_keeps _).mono (by decide))

/-- An acceptance puts the gains in line and is counted. -/
structure GainsAccepted (p : Nat) (x : Proposal) (s t : State) : Prop where
  props : t.cal.props = s.cal.props
  waiting : t.cal.waiting = s.cal.waiting ++ x.entries.map fun e => (p, e.1, e.2)
  count : rn t (wkey Reg.CAL_PL_ACC p) = min 0xFFFFFFFF (rn s (wkey Reg.CAL_PL_ACC p) + 1)

theorem calAccept_accepted (p : Nat) (x : Proposal) {s : State} (hl : (plane s p).state ≠ .stopped) :
    GainsAccepted p x s (calAccept p x s) := by
  rw [calAccept_eq]
  generalize camNums.filter _ = l
  obtain ⟨hw, hp, hk⟩ := reanchored_anchors (gainsWaiting p x s) l
  have hkln : (reanchored (gainsWaiting p x s) l).kln = s.kln := hk.only .kln (by decide)
  have hcnt : rn (reanchored (gainsWaiting p x s) l) (wkey Reg.CAL_PL_ACC p) = rn s (wkey Reg.CAL_PL_ACC p) := hk.rn (by simp)
  generalize reanchored (gainsWaiting p x s) l = u at hw hp hkln hcnt
  have hr := acceptReported_keeps p x u
  have hcal : (acceptReported p x u).cal = u.cal := hr.only .cal (by decide)
  rw [idleTables_live (by rwa [plane_congr ((hr.only .kln (by decide)).trans hkln)])]
  refine ⟨?_, ?_, ?_⟩
  · rw [hcal, hp]
    rfl
  · rw [hcal, hw]
    rfl
  · refine (raised_rn _ (by simp)).trans ?_
    rw [rn_inc_self, hcnt]

/-! ## O28 -/

/-- Settles O28: each command by what its action makes of the planes named, the register writes by the windows they reach, a dump
by the proposal it becomes, and the gate by its first failed check. -/
theorem calibrationRuns : Obligations.CalibrationRuns := by
  refine ⟨?control, ?select, ?status, ?discard, ?solve, ?check⟩
  case control =>
    intro d mask action s ha h2 hi
    have hacts := calControl_acts (h := hdrOf d s) (s := taken d s) h2 fun p hp => by
      simpa only [inspects_taken] using hi p hp
    have hk := calActed_keeps action.toNat (maskBits 16 mask.toNat) (taken d s)
    refine admitted_next ha rfl rfl (calControl_keeps _ _ _ _ (by decide) ((taken_only d s).mono (by decide))) ?_
    rw [hacts]
    have hcal : (ok (hdrOf d s) 0 (calActed action.toNat (maskBits 16 mask.toNat) (taken d s))).cal =
        (calActed action.toNat (maskBits 16 mask.toNat) (taken d s)).cal := complete_cal _ _ _ _
    have hgln : (ok (hdrOf d s) 0 (calActed action.toNat (maskBits 16 mask.toNat) (taken d s))).gln =
        (calActed action.toNat (maskBits 16 mask.toNat) (taken d s)).gln := complete_gln _ _ _ _
    refine ⟨complete_only 0 0 hk (by decide), fun e => ?_, fun e p => ?_, fun e p hp => ?_⟩
    · rw [hcal, e]
      exact ⟨fun p hp hm => (mem_frozen.mp hm).2 hp, fun p hp => mem_frozen.trans (and_iff_left hp)⟩
    · rw [hcal, e]
      exact mem_resumed
    · rw [hgln, e]
      exact discarded_none hp _
  case select =>
    intro d port action s ha hp h1
    have hruns := refSelect_runs (h := hdrOf d s) (s := taken d s) hp h1
    have hk : Keeps [.cal, .gln] (taken d s) (if action.toNat = 1 then reanchor port.toNat (taken d s) else taken d s) :=
      Keeps.ite (fun _ => reanchor_keeps _ _ (by decide) (Keeps.refl _ _)) fun _ => Keeps.refl _ _
    refine admitted_next ha rfl rfl (refSelect_keeps _ _ _ _ (by decide) ((taken_only d s).mono (by decide))) ?_
    rw [hruns]
    refine ⟨complete_only 0 0 hk (by decide), fun e => ?_, fun e => ?_⟩
    · rw [if_neg (by omega)]
      exact complete_cal _ _ _ _
    · have hcal : (ok (hdrOf d s) 0 (reanchor port.toNat (taken d s))).cal = (reanchor port.toNat (taken d s)).cal :=
        complete_cal _ _ _ _
      rw [if_pos e, whiteRef_congr hcal]
      exact reanchor_ref port.toNat (taken d s)
  case status =>
    intro d p s ha hp
    refine admitted_next ha rfl rfl ((calStatus_keeps _ _ _ (by decide) ((taken_only d s).mono (by decide)))) ?_
    have hk := taken_only d s
    have hreason : calReason (taken d s) p.toNat = calReason s p.toNat := rf_congr (hk.rd (by simp [takingParts])) 11 8
    rw [calStatus, if_neg (by omega), hk.rn (by simp [takingParts]), hk.rn (by simp [takingParts]), hk.rn (by simp [takingParts]),
      calState_taken, hreason]
    exact taken_completed d _ s
  case discard =>
    intro ini reg v s hw hr hf
    obtain ⟨hkind, hpage⟩ := gleanReg_kinds reg
    have he : exec (.gleanWindowDiscardWrite ini reg v) s = .next (gleanDiscard (gleanReg reg.val) (plainPut (gleanReg reg.val) v s)) :=
      congrArg Host.Outcome.next ((guardWrite_writable hw hr _).trans (if_neg (by rw [hf]; exact Bool.false_ne_true)))
    refine next_at (execGleanWindowDiscardWrite_keeps ini reg v s) ?_ he ?_
    · intro q hq
      simp only [List.mem_cons, List.not_mem_nil, or_false] at hq hkind hpage ⊢
      rcases hq with rfl | rfl | rfl | rfl | rfl | rfl
      · exact hkind.elim (by simp +contextual) (by simp +contextual)
      · exact hpage.elim (by simp +contextual) (by simp +contextual)
      · simp
      · simp
      · simp
      · simp
    · by_cases h6 : reg.val < 6
      · have hsel : rf (plainPut (gleanReg reg.val) v s) Reg.WIN_PL_SEL 3 0 = rf s Reg.WIN_PL_SEL 3 0 :=
          rf_congr (rd_plainPut_lt (by rw [gleanReg, if_pos h6]; simp only [Reg.WIN_PL_SEL, Reg.WIN_PL_DM0]; omega) v s) 3 0
        rw [if_pos h6, gleanReg_model h6, hsel]
        refine ⟨discardWindow_self _ _, fun p hp => ?_⟩
        rw [discardWindow_ne _ hp, plainPut_gln]
      · rw [if_neg h6, gleanReg_qualifier h6]
  case solve =>
    intro p id w s hd hp
    refine next_at (execGleanDumpSolve_keeps p s) (by decide) (congrArg Host.Outcome.next (dumpSolve_proposes hd hp)) ?_
    refine ⟨?_, fun hc => releaseDump_free hc, fun x hc => releaseDump_next hc⟩
    rw [releaseDump_cal]
    exact tfind_tput_self _ _ _
  case check =>
    intro p x s hx hl
    refine next_at (execCalProposalCheck_keeps p s) (by decide) (congrArg Host.Outcome.next (proposalCheck_takes hx)) ?_
    cases hr : calReject s p.val x with
    | some r =>
      obtain ⟨hcal, hcount, hreason⟩ := calRefuse_refused p.val r x (proposalTaken p.val s)
      refine ⟨?_, fun q hq => ?_, fun h => absurd h (Option.some_ne_none r)⟩
      · rw [hcal]
        exact tfind_tdel_self _ _
      · obtain rfl := Option.some.inj hq
        exact ⟨by rw [hcal]; rfl, hcount, hreason⟩
    | none =>
      obtain ⟨hprops, hwait, hcount⟩ := calAccept_accepted p.val x (s := proposalTaken p.val s) hl
      refine ⟨?_, fun q hq => absurd hq.symm (Option.some_ne_none q), fun _ => ⟨hwait, hcount⟩⟩
      rw [hprops]
      exact tfind_tdel_self _ _

end Sys2Proof.Machine
end

section
/-! SUPPORT. The proof of what moves, stops and enables the axes (O30). -/

namespace Sys2Proof.Machine
open Sys2Proof

@[simp] theorem keyKind_MOT_A_CFG (i : Nat) : keyKind (Reg.MOT_A_CFG i) = .motA := keyKind_motA 0x080 i (by decide)

@[simp] theorem keyKind_MOT_A_HOMECFG (i : Nat) : keyKind (Reg.MOT_A_HOMECFG i) = .motA := keyKind_motA 0x0A4 i (by decide)

/-! ## The generator (R344, R345) -/

/-- Microsteps reach no register and, of the axis, only when and which way it stepped last. -/
structure AxisStepped (a : Nat) (s t : State) : Prop where
  reads : ∀ k, rd t k = rd s k
  axis : axis t a = { axis s a with lastDir := (axis t a).lastDir, lastStep := (axis t a).lastStep }

theorem AxisStepped.refl (a : Nat) (s : State) : AxisStepped a s s := ⟨fun _ => rfl, rfl⟩

theorem AxisStepped.trans {a : Nat} {s t u : State} (h : AxisStepped a s t) (k : AxisStepped a t u) : AxisStepped a s u :=
  ⟨fun n => (k.reads n).trans (h.reads n), k.axis.trans (by rw [h.axis])⟩

theorem AxisStepped.of_free {a : Nat} {s t : State} (h : Keeps [.free] s t) : AxisStepped a s t :=
  ⟨fun _ => h.rd (by simp), by rw [axis_congr (h.only .mot (by decide))]⟩

/-- No channel takes its steps from an axis. -/
def PacesNone (a : Nat) (s : State) : Prop := ∀ k < 4, pcSrc s k = 3 → pcSub s k ≠ a

theorem PacesNone.after {a : Nat} {s t : State} (h : PacesNone a s) (k : AxisStepped a s t) : PacesNone a t := fun c hc => by
  rw [pcSrc, pcSub, rf_congr (k.reads _), rf_congr (k.reads _)]
  exact h c hc

theorem issueStep_stepped {a t start : Nat} {fwd : Bool} {s : State} (h : PacesNone a s) : AxisStepped a s (issueStep a t start fwd s) := by
  unfold issueStep
  extract_lets u s1
  have h1 : AxisStepped a s s1 := ⟨fun _ => rfl, by rw [axis_updAxis_self]; rfl⟩
  have hfold := foldl_holds (f := fun v k => if pcSrc v k = 3 ∧ pcSub v k = a then paceStep k u (if fwd then 1 else -1) false v else v)
    (I := fun v => v = s1) (List.range 4) rfl fun v k hk hv => by
      rw [hv]
      exact if_neg fun hs => h.after h1 k (List.mem_range.mp hk) hs.1 hs.2
  rw [hfold]
  exact h1

theorem issueSteps_stepped {a start : Nat} {p0 p1 : Int} {s : State} (h : PacesNone a s) : AxisStepped a s (issueSteps a p0 p1 start s) := by
  unfold issueSteps
  refine foldl_holds (I := AxisStepped a s) _ (AxisStepped.refl a s) fun t m _ ht => ?_
  extract_lets n w q
  have hq : AxisStepped a t q.2 := .of_free (roundUp_keeps _ t (fun _ q => q) (Keeps.refl _ t))
  exact (ht.trans hq).trans (issueStep_stepped (h.after (ht.trans hq)))

/-- No speed of the generator is above the top speed. -/
theorem nextSpeed_le {s : State} {a : Nat} {x : Axis} {m : Move} {d : Drive} (h : x.stop = .none) : (nextSpeed s a x m d).1.1 ≤ d.vmax := by
  unfold nextSpeed
  extract_lets v g q j top q2 r
  rw [if_neg (by rw [h]; decide)]
  dsimp only
  omega

/-- What an update leaves of a moving axis. -/
structure GeneratedAxis (vmax : Nat) (x y : Axis) : Prop where
  ts : y.ts = x.ts + genPeriod
  vel : y.vel.natAbs ≤ vmax
  move : y.move = x.move
  state : y.state = x.state

/-- What follows an update: a homing phase that ends, and a following error (R354, R355). -/
def generatedChecked (a : Nat) (s : State) : State :=
  let s1 := homePhase a s
  if followError s1 a then stopAtOnce a (unhome a (latchAxis a 3 s1)) else s1

/-- An update moves the axis, within the top speed of its drive. -/
theorem generatorUpdate_moves {a : Nat} {m : Move} {s : State} (hm : (axis s a).move = some m)
    (hf : ¬(((axis s a).state ≠ .moving ∧ (axis s a).state ≠ .stopping) ∨ homeFound m = true)) (hs : (axis s a).stop = .none)
    (hp : PacesNone a s) : ∃ u, generatorUpdate a s = generatedChecked a u ∧
      GeneratedAxis (drive s a (axis s a) m).vmax (axis s a) (axis u a) ∧ rd u (Reg.MOT_A_CFG a) = rd s (Reg.MOT_A_CFG a) := by
  unfold generatorUpdate
  extract_lets x
  rw [show x.move = some m from hm]
  dsimp -zeta only
  rw [if_neg hf]
  extract_lets d q dp arrives p1 v s1 s2
  have hle : q.1.1 ≤ d.vmax := nextSpeed_le hs
  have hq : AxisStepped a s q.2 := .of_free (nextSpeed_keeps s a x m d (fun _ q => q) (Keeps.refl _ s))
  have hv : v.natAbs ≤ d.vmax := by
    unfold v
    split
    · exact Nat.zero_le _
    · split
      · exact (Int.natAbs_natCast _).trans_le hle
      · exact ((Int.natAbs_neg _).trans (Int.natAbs_natCast _)).trans_le hle
  have h1 : axis s1 a = { axis q.2 a with pos := p1, vel := v, acc := if arrives then 0 else q.1.2, ts := x.ts + genPeriod } :=
    axis_updAxis_self _ _ _
  have hsteps : AxisStepped a s1 (if p1 = x.pos then s1 else issueSteps a x.pos p1 x.ts s1) := by
    split
    · exact AxisStepped.refl a s1
    · exact issueSteps_stepped (hp.after hq : PacesNone a q.2)
  refine ⟨s2, rfl, ?_, ?_⟩
  · unfold s2
    rw [axis_advanceTo, hsteps.axis, h1, hq.axis]
    exact ⟨rfl, hv, rfl, rfl⟩
  · unfold s2
    rw [advance_rd _ _ (by simp), hsteps.reads]
    exact hq.reads _

theorem homePhase_host {a : Nat} {m : Move} {s : State} (hm : (axis s a).move = some m) (hk : m.kind = .host) : homePhase a s = s := by
  unfold homePhase
  rw [hm]
  dsimp only
  rw [hk]

theorem followError_off {a : Nat} {s : State} (h : rbit s (Reg.MOT_A_CFG a) 13 = false) : followError s a = false := by
  unfold followError
  dsimp only
  rw [h]
  rfl

/-- A host move is neither a homing nor followed here: the update is all. -/
theorem generatedChecked_host {a : Nat} {m : Move} {s : State} (hm : (axis s a).move = some m) (hk : m.kind = .host)
    (hf : rbit s (Reg.MOT_A_CFG a) 13 = false) : generatedChecked a s = s := by
  unfold generatedChecked
  dsimp only
  rw [homePhase_host hm hk, followError_off hf]
  exact if_neg Bool.false_ne_true

theorem generatorUpdate_host {a : Nat} {m : Move} {s : State} (hm : (axis s a).move = some m) (hk : m.kind = .host)
    (hs : (axis s a).stop = .none) (hv : (axis s a).state = .moving) (hf : rbit s (Reg.MOT_A_CFG a) 13 = false) (hp : PacesNone a s) :
    GeneratedAxis (prof s a m.profile 0) (axis s a) (axis (generatorUpdate a s) a) := by
  have hfound : ¬(((axis s a).state ≠ .moving ∧ (axis s a).state ≠ .stopping) ∨ homeFound m = true) := by
    rw [hv, homeFound, hk]
    decide
  have hvmax : (drive s a (axis s a) m).vmax = prof s a m.profile 0 := by
    unfold drive
    rw [hk]
  obtain ⟨u, hu, hgen, hcfg⟩ := generatorUpdate_moves hm hfound hs hp
  rw [hu, generatedChecked_host (hgen.move.trans hm) hk ((rbit_congr hcfg 13).trans hf), ← hvmax]
  exact hgen

/-! ## The current loop (R346, R348) -/

/-- Operations on one axis leave the others. -/
def OtherAxes (a : Nat) (s t : State) : Prop := ∀ b, b ≠ a → axis t b = axis s b

theorem OtherAxes.trans {a : Nat} {s t u : State} (h : OtherAxes a s t) (k : OtherAxes a t u) : OtherAxes a s u :=
  fun b hb => (k b hb).trans (h b hb)

theorem OtherAxes.of_mot {s t : State} (a : Nat) (h : t.mot = s.mot) : OtherAxes a s t := fun b _ => axis_congr h b

theorem updAxis_others (a : Nat) (f : Axis → Axis) (s : State) : OtherAxes a s (updAxis a f s) := fun _ hb => axis_updAxis_ne f s hb

theorem setAxis_others (a : Nat) (st : AxisState) (s : State) : OtherAxes a s (setAxis a st s) := fun _ hb => setAxis_ne st s hb

/-- The gates of the next period are all that a period's duties change of the axes (R346). -/
theorem driveBridges_axis (a : Nat) (da db : Int) (s : State) :
    (∃ g, axis (driveBridges a da db s) a = { axis s a with gates := g }) ∧ OtherAxes a s (driveBridges a da db s) := by
  unfold driveBridges
  extract_lets period q
  have hq : q.2.mot = s.mot := (bridgePlan_keeps period _ da db s (fun _ q => q) (Keeps.refl _ s)).only .mot (by decide)
  refine ⟨⟨q.1, ?_⟩, (OtherAxes.of_mot a hq).trans (updAxis_others a (fun x => { x with gates := q.1 }) q.2)⟩
  have h : axis (updAxis a (fun x => { x with gates := q.1 }) q.2) a = { axis q.2 a with gates := q.1 } := axis_updAxis_self _ _ _
  exact h.trans (by rw [axis_congr hq])

/-- The load margin is measured of a moving axis only (R349). -/
theorem measureLoad_still {a : Nat} {p0 p1 : Int} {s : State} (h : (axis s a).state = .standstill) : measureLoad a p0 p1 s = s := by
  unfold measureLoad
  dsimp only
  refine if_neg fun hm => ?_
  rw [h] at hm
  exact absurd hm.1 (by decide)

/-- The duties of a period at standstill (R348). -/
theorem pwmPeriod_duties {a : Nat} {ma mb : Int} {s : State} (h1 : axisMode s a = 1) (hs : (axis s a).state = .standstill)
    (hd : drivesCurrent s a = true) :
    let mu : Int := 4096 / 2 ^ rf s (Reg.MOT_A_CFG a) 5 2
    let idx := (divF (divF (axis s a).counts mu * mu % 16384) 16).toNat
    (axis (pwmPeriod a ma mb s) a).phA = phaseStep s a (divF (iNow s a * sine idx) 32768) ma (axis s a).phA ∧
      (axis (pwmPeriod a ma mb s) a).phB = phaseStep s a (divF (iNow s a * sine (idx + 256)) 32768) mb (axis s a).phB ∧
      OtherAxes a s (pwmPeriod a ma mb s) := by
  intro mu idx
  unfold pwmPeriod
  extract_lets x mu' p i pa pb p0
  rw [if_neg (by rw [hd, h1]; decide)]
  generalize hu : updAxis a (fun y => { y with
    phA := pa, phB := pb, duties := (x.counts, pa.duty, pb.duty) ::
      y.duties.filter fun q => decide ((q.1 - x.counts).natAbs ≤ 4608) }) s = u
  have hux : (axis u a).phA = pa ∧ (axis u a).phB = pb ∧ (axis u a).state = .standstill := by
    rw [← hu, axis_updAxis_self]
    exact ⟨rfl, rfl, hs⟩
  have huo : OtherAxes a s u := by
    rw [← hu]
    exact updAxis_others _ _ _
  obtain ⟨⟨g, hg⟩, ho⟩ := driveBridges_axis a pa.duty pb.duty u
  obtain ⟨hpa, hpb, hst⟩ := hux
  rw [measureLoad_still (by rw [hg]; exact hst), hg]
  exact ⟨hpa, hpb, huo.trans ho⟩

theorem phaseStep_duty (s : State) (a : Nat) (target measured : Int) (p : PhaseLoop) :
    -1023 ≤ (phaseStep s a target measured p).duty ∧ (phaseStep s a target measured p).duty ≤ 1023 := by
  unfold phaseStep
  dsimp only
  omega

/-! ## Faults that turn an axis off (R347, R357) -/

theorem latchAxis_others (a bit : Nat) (s : State) : OtherAxes a s (latchAxis a bit s) := fun b hb => by
  rw [latchAxis_axis, if_neg fun h => hb h.1]

/-- An axis that a fault has turned off. -/
structure FaultOff (a bit : Nat) (s t : State) : Prop where
  latched : rbit t (Reg.MOT_A_FAULT a) bit = true
  state : (axis t a).state = .fault
  move : (axis t a).move = none
  dutyA : (axis t a).phA.duty = 0
  dutyB : (axis t a).phB.duty = 0
  others : OtherAxes a s t

theorem setAxis_rbit (a : Nat) (st : AxisState) (s : State) {k : Nat} (hk : keyKind k ≠ .stk) (n : Nat) :
    rbit (setAxis a st s) k n = rbit s k n := by
  unfold setAxis
  dsimp only
  split
  · rfl
  · exact rbit_congr ((rd_raiseIrq _ _ _ _).trans (rd_event hk)) n

/-- Commands that complete and arrivals leave a register. -/
theorem arrive_completeOpt_rbit (o : Option Nat) (st r key : Nat) (res : State → Nat) (s : State) {k : Nat} (hk : keyKind k ≠ .stk) (n : Nat) :
    rbit (arrive key res (completeOpt o st r s)) k n = rbit s k n := by
  have h := arrive_keeps key res _ (by decide) (completeOpt_keeps o st r s (ps := completionParts) (by decide) (Keeps.refl _ s))
  exact rbit_congr (h.rd (by simp [completionParts, hk])) n

theorem faultOff_off {a bit : Nat} {s : State} (hb : bit < 32) (h : rbit s (Reg.MOT_A_FAULT a) bit = false) :
    FaultOff a bit s (faultOff a bit s) := by
  have hk : keyKind (Reg.MOT_A_FAULT a) ≠ .stk := by rw [keyKind_MOT_A_FAULT]; decide
  have hne : Reg.MOT_A_FAULT a ≠ Reg.MOT_A_OC_CNT a := by simp only [Reg.MOT_A_FAULT, Reg.MOT_A_OC_CNT]; omega
  have hlatch : rbit (inc (Reg.MOT_A_OC_CNT a) 1 (latchAxis a bit s)) (Reg.MOT_A_FAULT a) bit = true := by
    rw [rbit, rn_inc_ne _ _ hne, ← rbit, latchAxis_fault a bit s hb, if_pos rfl]
  have hother : OtherAxes a s (inc (Reg.MOT_A_OC_CNT a) 1 (latchAxis a bit s)) := latchAxis_others a bit s
  unfold faultOff
  rw [if_neg (by rw [h]; exact Bool.false_ne_true)]
  extract_lets x s1 s2
  have hx : (axis s2 a).move = none ∧ (axis s2 a).phA.duty = 0 ∧ (axis s2 a).phB.duty = 0 := by
    unfold s2
    rw [axis_updAxis_self]
    exact ⟨rfl, rfl, rfl⟩
  obtain ⟨hmove, hduA, hduB⟩ := hx
  have ho2 : OtherAxes a s s2 := hother.trans (updAxis_others _ _ _)
  refine ⟨?_, ?_, ?_, ?_, ?_, fun b hb => ?_⟩
  · rw [arrive_completeOpt_rbit _ _ _ _ _ _ hk, setAxis_rbit _ _ _ hk]
    exact hlatch
  · rw [axis_arrive, axis_completeOpt, setAxis_axis, if_pos rfl]
  · rw [axis_arrive, axis_completeOpt, setAxis_axis, if_pos rfl]
    exact hmove
  · rw [axis_arrive, axis_completeOpt, setAxis_axis, if_pos rfl]
    exact hduA
  · rw [axis_arrive, axis_completeOpt, setAxis_axis, if_pos rfl]
    exact hduB
  · rw [axis_arrive, axis_completeOpt, setAxis_ne _ _ hb]
    exact ho2 b hb

theorem FaultOff.after {a bit : Nat} {s u t : State} (h : OtherAxes a s u) (k : FaultOff a bit u t) : FaultOff a bit s t :=
  { k with others := h.trans k.others }

/-- A phase that changes leaves its axis powered as it was. -/
theorem updPhase_state (a : Nat) (b : Bool) (f : PhaseLoop → PhaseLoop) (s : State) :
    (axis (updPhase a b f s) a).state = (axis s a).state := by
  unfold updPhase
  rw [axis_updAxis_self]
  cases b <;> rfl

theorem updPhase_bridgeOn (a : Nat) (b : Bool) (f : PhaseLoop → PhaseLoop) (s : State) : bridgeOn (updPhase a b f s) a = bridgeOn s a := by
  rw [bridgeOn, updPhase_state]
  rfl

theorem updPhase_phase (a : Nat) (b : Bool) (f : PhaseLoop → PhaseLoop) (s : State) :
    (if b then (axis (updPhase a b f s) a).phB else (axis (updPhase a b f s) a).phA) =
      f (if b then (axis s a).phB else (axis s a).phA) := by
  unfold updPhase
  rw [axis_updAxis_self]
  cases b <;> rfl

theorem fastFilter_off {a : Nat} {b : Bool} {code : Int} {s : State} (hb : bridgeOn s a = true)
    (hf : rbit s (Reg.MOT_A_FAULT a) 0 = false) (hc : rf s (Reg.MOT_A_CUR2 a) 31 16 < code.natAbs)
    (hr : 1 ≤ (if b then (axis s a).phB else (axis s a).phA).overRun) : FaultOff a 0 s (fastFilter a b code s) := by
  unfold fastFilter
  extract_lets high s1 p
  have hhigh : high = true := decide_eq_true hc
  have hp : p = { (if b then (axis s a).phB else (axis s a).phA) with
      fast := code, overRun := if high then (if b then (axis s a).phB else (axis s a).phA).overRun + 1 else 0 } := updPhase_phase a b _ s
  have hrun : 2 ≤ p.overRun := by
    rw [hp, hhigh]
    exact Nat.succ_le_succ hr
  have hon : bridgeOn s1 a = true := (updPhase_bridgeOn a b _ s).trans hb
  rw [hon, if_pos (by simpa using hrun)]
  exact .after (updAxis_others _ _ _) (faultOff_off (s := s1) (by decide) hf)

theorem sdLoss_off {a : Nat} {b : Bool} {s : State} (hb : bridgeOn s a = true) (hf : rbit s (Reg.MOT_A_FAULT a) 1 = false) :
    FaultOff a 1 s (sdLoss a b true s) := by
  unfold sdLoss
  extract_lets s1
  have hon : bridgeOn s1 a = true := (updPhase_bridgeOn a b _ s).trans hb
  rw [hon, Bool.and_true, if_pos rfl]
  exact .after (updAxis_others _ _ _) (faultOff_off (s := s1) (by decide) hf)

/-! ## Stops (R352, R353, R355) -/

/-- An axis that stops in a mode, with the other axes as they were. -/
structure StopBegun (a : Nat) (m : StopMode) (s t : State) : Prop where
  axis : axis t a = { axis s a with state := .stopping, stop := m }
  others : OtherAxes a s t

theorem beginStop_begun (a : Nat) (m : StopMode) (s : State) : StopBegun a m s (beginStop a m s) := by
  unfold beginStop
  refine ⟨?_, (updAxis_others a (fun x => { x with stop := m }) s).trans (setAxis_others _ _ _)⟩
  rw [setAxis_driven a rfl, if_pos rfl, axis_updAxis_self]

theorem beginStop_rbit (a : Nat) (m : StopMode) (s : State) {k : Nat} (hk : keyKind k ≠ .stk) (n : Nat) :
    rbit (beginStop a m s) k n = rbit s k n := setAxis_rbit a .stopping _ hk n

/-- A limit input of an axis changes its level. -/
def limitTaken (a : Nat) (positive high : Bool) (s : State) : State :=
  updAxis a (fun x => if positive then { x with limP := high } else { x with limN := high }) s

theorem limitTaken_axis (a : Nat) (positive high : Bool) (s : State) : axis (limitTaken a positive high s) a =
    if positive then { axis s a with limP := high } else { axis s a with limN := high } := axis_updAxis_self _ _ _

theorem limitTaken_active {a : Nat} {positive high : Bool} {s : State} (hh : high = !rbit s (Reg.MOT_A_HOMECFG a) 2) :
    limitActive (limitTaken a positive high s) a positive = true := by
  have hreg : rbit (limitTaken a positive high s) (Reg.MOT_A_HOMECFG a) 2 = rbit s (Reg.MOT_A_HOMECFG a) 2 := rfl
  rw [limitActive, limitTaken_axis, hreg, hh]
  cases positive <;> cases rbit s (Reg.MOT_A_HOMECFG a) 2 <;> rfl

theorem limitTaken_toward (a : Nat) (positive high : Bool) (s : State) :
    movesToward (limitTaken a positive high s) a positive = movesToward s a positive := by
  rw [movesToward, movesToward, limitTaken_axis]
  cases positive <;> rfl

/-- A limit reached ahead of a moving axis latches LIMIT and stops it. -/
theorem limitInput_stops {a : Nat} {positive high : Bool} {s : State} (h3 : rbit s (Reg.MOT_A_HOMECFG a) 3 = true)
    (hw : limitActive s a positive = false) (hh : high = !rbit s (Reg.MOT_A_HOMECFG a) 2) (hm : movesToward s a positive = true) :
    limitInput a positive high s = beginStop a .limit (latchAxis a 4 (limitTaken a positive high s)) := by
  refine if_pos ?_
  rw [hw, Bool.not_false, Bool.and_true, Bool.and_eq_true, Bool.and_eq_true]
  exact ⟨⟨h3, limitTaken_active hh⟩, (limitTaken_toward a positive high s).trans hm⟩

/-- Whether a limit is active is read from its input and its polarity. -/
theorem limitActive_congr {a : Nat} {positive : Bool} {s t : State} (hn : (axis t a).limN = (axis s a).limN)
    (hp : (axis t a).limP = (axis s a).limP) (hr : rbit t (Reg.MOT_A_HOMECFG a) 2 = rbit s (Reg.MOT_A_HOMECFG a) 2) :
    limitActive t a positive = limitActive s a positive := by
  rw [limitActive, limitActive, hn, hp, hr]

theorem latchAxis_rbit (a bit : Nat) (s : State) {k : Nat} (hk : keyKind k ≠ .stk) (n : Nat)
    (hne : k ≠ Reg.MOT_A_FAULT a ∧ k ≠ Reg.MOT_A_REMAIN a ∧ k ≠ Reg.MOT_A_REMAIN a + 4) :
    rbit (latchAxis a bit s) k n = rbit s k n := by
  obtain ⟨hf, hr, hr4⟩ := hne
  unfold latchAxis
  split
  · rfl
  · dsimp only
    rw [rbit_congr ((rd_raiseIrq _ _ _ _).trans (rd_event hk)), dropRetained, rbit_congr (rd_wn64_ne _ _ hr hr4)]
    exact rbit_congr (rd_wf_ne _ _ _ _ hf) n

/-! ## Homing (R355) -/

/-- The home switch met in the search of a homing sequence. -/
theorem homeSwitch_met {a seq d : Nat} {m : Move} {s : State} (hm : (axis s a).move = some m) (hk : m.kind = .home seq 0 d)
    (hs : seq ≤ 1) (ha : homeActive s a = true) :
    homeSwitch a s = updAxis a (fun y => { y with move := some { m with kind := .home seq 1 d } }) s := by
  unfold homeSwitch
  extract_lets x
  rw [show x.move = some m from hm]
  dsimp only
  rw [hk]
  exact if_pos ⟨hs, rfl, ha⟩

/-- An axis at its home position. -/
structure AtHome (a : Nat) (p : Int) (s t : State) : Prop where
  homed : (axis t a).homed = true
  counts : (axis t a).counts = p
  move : (axis t a).move = (axis s a).move
  feedWait : (axis t a).feedWait = (axis s a).feedWait
  others : OtherAxes a s t

theorem setHome_atHome (a seq : Nat) (s : State) : AtHome a (pos48 s (Reg.MOT_A_HOME_POS a)) s (setHome a seq s) := by
  unfold setHome
  extract_lets p s1
  have hx : axis s1 a = { axis s a with pos := p * 2 ^ 32, homed := true, fbRef := (axis s1 a).fbRef } := by
    unfold s1 fixReference
    rw [axis_updAxis_self, axis_updAxis_self]
  have ho : OtherAxes a s s1 := (updAxis_others a (fun x => { x with pos := p * 2 ^ 32, homed := true }) s).trans (updAxis_others _ _ _)
  have hmot := (raised_keeps (n := pgMot a) (b := 6) (code := 0x5103) (ten := none) (pl := le 1 a ++ le 4 seq ++ le 8 (unsigned 64 p)) s1).only .mot
    (by simp)
  refine ⟨?_, ?_, ?_, ?_, ho.trans (.of_mot a hmot)⟩
  · rw [axis_congr hmot, hx]
  · rw [axis_congr hmot, hx]
    exact counts_of_pos rfl
  · rw [axis_congr hmot, hx]
  · rw [axis_congr hmot, hx]

theorem endMove_others {a st r : Nat} {s : State} (h : (axis s a).feedWait = none) : OtherAxes a s (endMove a st r s) := fun b hb => by
  rw [endMove_axis a st r s h, if_neg hb]

/-- The end event of a homing sequence. -/
theorem homingComplete_ends {a seq d : Nat} {m : Move} {s : State} (hm : (axis s a).move = some m) (hk : m.kind = .home seq 5 d) :
    homingComplete a s = endMove a 0 (posRes (axis (setHome a seq s) a)) (setHome a seq s) := by
  unfold homingComplete
  rw [hm]
  dsimp only
  rw [hk]
  rfl

theorem homingTimeout_stops {a t seq ph d : Nat} {m : Move} {s : State} (hm : (axis s a).move = some m) (hk : m.kind = .home seq ph d)
    (hd : d ≤ t) (hp : ph ≠ 5) : homingTimeout a t s = beginStop a .timeout (unhome a (advanceTo t s)) := by
  unfold homingTimeout
  rw [hm]
  dsimp only
  rw [hk]
  exact if_neg (by omega)

/-! ## Moves that are over (R344, R352) -/

theorem homing_false {x : Axis} {m : Move} (hm : x.move = some m) (hk : ∀ q p d, m.kind ≠ .home q p d) : homing x = false := by
  rw [homing, hm]
  dsimp only
  split
  · next q p d h => exact absurd h (hk q p d)
  · rfl

/-- A host move that a stop ends is retained, with what is left of it. -/
def moveRetained (a : Nat) (m : Move) (s : State) : State :=
  wn64 (Reg.MOT_A_REMAIN a) (unsigned 64 (m.target - (axis s a).counts)) (updAxis a (fun y => { y with retained := some { m with cmd := none } }) s)

section
variable {a : Nat} {m : Move} {s : State} (hm : (axis s a).move = some m)
include hm

theorem moveComplete_arrived (hk : ∀ q p d, m.kind ≠ .home q p d) (hs : (axis s a).stop = .none) (hv : (axis s a).state = .moving)
    (hp : (axis s a).pos = m.target * 2 ^ 32) : moveComplete a s = endMove a 0 (posRes (axis s a)) s := by
  unfold moveComplete
  dsimp only
  rw [hm]
  dsimp only
  rw [hs]
  exact if_pos ⟨hv, homing_false hm hk, hp⟩

section
variable (hs : (axis s a).stop = .mode0 ∨ (axis s a).stop = .mode1) (hv : (axis s a).state = .stopping) (hz : (axis s a).vel = 0)
include hs hv hz

/-- A stop of AXIS_STOP ends a host move. -/
theorem moveComplete_stopped_host (hk : m.kind = .host) : moveComplete a s = endMove a 0 (posRes (axis s a)) (moveRetained a m s) := by
  obtain ⟨kind, g, p, c⟩ := m
  obtain rfl : kind = .host := hk
  unfold moveComplete
  dsimp only
  rw [hm]
  rcases hs with h | h
  · rw [h]
    exact if_pos ⟨hv, hz⟩
  · rw [h]
    exact if_pos ⟨hv, hz⟩

theorem moveComplete_stopped_feed (hk : m.kind = .feed) : moveComplete a s = endMove a 0 (posRes (axis s a)) s := by
  obtain ⟨kind, g, p, c⟩ := m
  obtain rfl : kind = .feed := hk
  unfold moveComplete
  dsimp only
  rw [hm]
  rcases hs with h | h
  · rw [h]
    exact if_pos ⟨hv, hz⟩
  · rw [h]
    exact if_pos ⟨hv, hz⟩

end

end

/-- An axis whose motion is over. -/
structure MoveOver (a : Nat) (s t : State) : Prop where
  state : (axis t a).state = .standstill
  move : (axis t a).move = none
  stop : (axis t a).stop = .none
  pos : (axis t a).pos = (axis s a).pos
  others : OtherAxes a s t

theorem endMove_over {a st r : Nat} {s : State} (h : (axis s a).feedWait = none) :
    MoveOver a s (endMove a st r s) ∧ (axis (endMove a st r s) a).retained = (axis s a).retained := by
  have hx := endMove_axis a st r s h a
  rw [if_pos rfl] at hx
  refine ⟨⟨?_, ?_, ?_, ?_, endMove_others h⟩, ?_⟩
  · rw [hx]
  · rw [hx]
  · rw [hx]
  · rw [hx]
  · rw [hx]

theorem moveRetained_axis (a : Nat) (m : Move) (s : State) : axis (moveRetained a m s) a = { axis s a with retained := some { m with cmd := none } } := by
  rw [moveRetained, axis_wn64, axis_updAxis_self]

theorem moveRetained_others (a : Nat) (m : Move) (s : State) : OtherAxes a s (moveRetained a m s) :=
  fun b hb => (axis_wn64 _ _ _ b).trans (axis_updAxis_ne _ _ hb)

/-! ## The enable queue (R359) -/

/-- The front of the queue leaves it, ready to stand still. -/
def admitFront (a t : Nat) (rest : List (Nat × Nat)) (s : State) : State :=
  updAxis a (fun x => { x with homed := x.homed && rbit s (Reg.MOT_A_CFG a) 13, held := false, applied := false, scale := 256 })
    { s with mot := { s.mot with queue := rest, admitAt := t + admitSpacing } }

/-- What the queue and its pace read. -/
structure AdmitAlike (s t : State) : Prop where
  queue : t.mot.queue = s.mot.queue
  admitAt : t.mot.admitAt = s.mot.admitAt

theorem setAxis_queue (a : Nat) (st : AxisState) (s : State) : AdmitAlike s (setAxis a st s) := by
  unfold setAxis
  dsimp only
  split
  · exact ⟨rfl, rfl⟩
  · have h := (raised_keeps (n := pgMot a) (b := 5) (code := 0x5102) (ten := none)
      (pl := le 1 a ++ le 1 (axis s a).state.code ++ le 1 st.code)
      (updAxis a (fun x => { x with state := st, gates := if st.driven then x.gates else [] }) s)).only .mot (by simp)
    exact ⟨(congrArg Motion.queue h :), (congrArg Motion.admitAt h :)⟩

/-- An axis admitted to standstill. -/
def admitted (a t : Nat) (rest : List (Nat × Nat)) (s : State) : State :=
  arrive (keyAdmit a) (fun _ => 0) (fixReference a (setAxis a .standstill (admitFront a t rest s)))

theorem admitted_mot (a t : Nat) (rest : List (Nat × Nat)) (s : State) :
    (admitted a t rest s).mot = (fixReference a (setAxis a .standstill (admitFront a t rest s))).mot :=
  (arrive_keeps (keyAdmit a) (fun _ => 0) _ (fun _ q => q) (Keeps.refl _ _)).only .mot (by decide)

/-- What admission leaves of the queue and its axis. -/
structure AxisAdmitted (a t : Nat) (rest : List (Nat × Nat)) (s u : State) : Prop where
  queue : u.mot.queue = rest
  admitAt : u.mot.admitAt = t + admitSpacing
  state : (axis u a).state = .standstill
  scale : (axis u a).scale = 256
  held : (axis u a).held = false
  phA : (axis u a).phA = (axis s a).phA
  phB : (axis u a).phB = (axis s a).phB
  others : OtherAxes a s u

theorem admitted_admits (a t : Nat) (rest : List (Nat × Nat)) (s : State) : AxisAdmitted a t rest s (admitted a t rest s) := by
  have hmot := admitted_mot a t rest s
  have hx : axis (admitted a t rest s) a = { axis s a with
      state := .standstill, homed := (axis s a).homed && rbit s (Reg.MOT_A_CFG a) 13, held := false, applied := false, scale := 256,
      fbRef := (axis (admitted a t rest s) a).fbRef } := by
    rw [axis_congr hmot, fixReference, axis_updAxis_self, setAxis_driven a rfl, if_pos rfl, admitFront, axis_updAxis_self]
    rfl
  obtain ⟨hq, hat⟩ := setAxis_queue a .standstill (admitFront a t rest s)
  refine ⟨?_, ?_, ?_, ?_, ?_, ?_, ?_, ?_⟩
  · rw [hmot]
    exact hq
  · rw [hmot]
    exact hat
  · rw [hx]
  · rw [hx]
  · rw [hx]
  · rw [hx]
  · rw [hx]
  · have h1 : OtherAxes a s (admitFront a t rest s) := fun b hb => axis_updAxis_ne _ _ hb
    exact (h1.trans (setAxis_others a .standstill _)).trans ((updAxis_others a _ _).trans (.of_mot a hmot))

theorem enableAdmit_admits {a c t : Nat} {rest : List (Nat × Nat)} {s : State} (hq : s.mot.queue = (a, c) :: rest) (ht : s.mot.admitAt ≤ t)
    (ha : (axis s a).phA.lost = false) (hb : (axis s a).phB.lost = false) : enableAdmit t s = admitted a t rest (advanceTo t s) := by
  have hcfg : rbit (advanceTo t s) (Reg.MOT_A_CFG a) 13 = rbit s (Reg.MOT_A_CFG a) 13 := rbit_congr (advance_rd t s (by simp)) 13
  have had := admitted_admits a t rest (advanceTo t s)
  have hlost : ((axis (admitted a t rest (advanceTo t s)) a).phA.lost || (axis (admitted a t rest (advanceTo t s)) a).phB.lost) = false := by
    rw [had.phA, had.phB, axis_advanceTo, ha, hb]
    rfl
  have hlast : (if bridgeOn (admitted a t rest (advanceTo t s)) a &&
      ((axis (admitted a t rest (advanceTo t s)) a).phA.lost || (axis (admitted a t rest (advanceTo t s)) a).phB.lost)
      then faultOff a 1 (admitted a t rest (advanceTo t s)) else admitted a t rest (advanceTo t s)) = admitted a t rest (advanceTo t s) := by
    rw [hlost, Bool.and_false]
    exact if_neg Bool.false_ne_true
  unfold enableAdmit
  rw [hq]
  dsimp only
  rw [if_neg (Nat.not_lt.mpr ht), ← hcfg]
  exact hlast

/-! ## O30 -/

/-- Settles O30: each event by the equation that says which operation it comes to, and that operation by what it leaves of its axis and of
the others. -/
theorem axesMove : Obligations.AxesMove := by
  refine ⟨?generator, ?pwm, ?filter, ?loss, ?limit, ?home, ?done, ?homed, ?timeout, ?standstill, ?queue⟩
  case generator =>
    intro a m s hm hk hs hv hf hp
    obtain ⟨hts, hvel, hmove, hstate⟩ := generatorUpdate_host hm hk hs hv hf hp
    exact next_at (execMotGeneratorUpdate_keeps a s) (by decide) rfl ⟨hts, hvel, hmove.trans hm, hstate.trans hv⟩
  case pwm =>
    intro a ia ib s h1 hs hd mu idx
    obtain ⟨hpa, hpb, ho⟩ := pwmPeriod_duties (ma := ia.toInt) (mb := ib.toInt) h1 hs hd
    refine next_at (execMotPwmPeriod_keeps a ia ib s) (by decide) rfl ⟨hpa, hpb, ?_, ?_, ho⟩
    · rw [hpa]
      exact (phaseStep_duty _ _ _ _ _).1
    · rw [hpa]
      exact (phaseStep_duty _ _ _ _ _).2
  case filter =>
    intro a ph code s hb hf hc hr
    obtain ⟨hl, hst, hmv, hda, hdb, ho⟩ := fastFilter_off hb hf hc hr
    exact next_at (execMotSdFastFilter_keeps a ph code s) (by decide) rfl ⟨hl, hst, hmv, hda, hdb, ho⟩
  case loss =>
    intro a ph s hb hf
    obtain ⟨hl, hst, hmv, hda, hdb, ho⟩ := sdLoss_off (b := ph) hb hf
    exact next_at (execMotSdLoss_keeps a ph true s) (by decide) rfl ⟨hl, hst, hmv, hda, hdb, ho⟩
  case limit =>
    intro a positive high s h3 hw hh hm
    have hstop := limitInput_stops h3 hw hh hm
    refine next_at (execMotLimitInput_keeps a positive high s) (by decide) (congrArg Host.Outcome.next hstop) ?_
    obtain ⟨hx, ho⟩ := beginStop_begun a.val .limit (latchAxis a.val 4 (limitTaken a.val positive high s))
    have hlatch := latchAxis_axis a.val 4 (limitTaken a.val positive high s) a.val
    have hkind : keyKind (Reg.MOT_A_HOMECFG a.val) ≠ .stk := by rw [keyKind_MOT_A_HOMECFG]; decide
    have hkf : keyKind (Reg.MOT_A_FAULT a.val) ≠ .stk := by rw [keyKind_MOT_A_FAULT]; decide
    have hlim : (axis (latchAxis a.val 4 (limitTaken a.val positive high s)) a.val).limN = (axis (limitTaken a.val positive high s) a.val).limN ∧
        (axis (latchAxis a.val 4 (limitTaken a.val positive high s)) a.val).limP = (axis (limitTaken a.val positive high s) a.val).limP := by
      rw [hlatch]
      split
      · exact ⟨rfl, rfl⟩
      · exact ⟨rfl, rfl⟩
    refine ⟨?_, ?_, by rw [hx], by rw [hx], ?_⟩
    · rw [limitActive_congr (s := limitTaken a.val positive high s) (by rw [hx]; exact hlim.1) (by rw [hx]; exact hlim.2)]
      · exact limitTaken_active hh
      · rw [beginStop_rbit _ _ _ hkind, latchAxis_rbit _ _ _ hkind _ (by
          simp only [Reg.MOT_A_HOMECFG, Reg.MOT_A_FAULT, Reg.MOT_A_REMAIN]
          omega)]
    · rw [beginStop_rbit _ _ _ hkf, latchAxis_fault _ _ _ (by decide), if_pos rfl]
    · exact ((updAxis_others a.val _ s).trans (latchAxis_others a.val 4 _)).trans ho
  case home =>
    intro a high m seq d s hm hk hs hh
    have hact : homeActive (updAxis a.val (fun x => { x with homeIn := high }) s) a.val = true := by
      have hreg : rbit (updAxis a.val (fun x => { x with homeIn := high }) s) (Reg.MOT_A_HOMECFG a.val) 1 =
        rbit s (Reg.MOT_A_HOMECFG a.val) 1 := rfl
      rw [homeActive, axis_updAxis_self, hreg, hh]
      cases rbit s (Reg.MOT_A_HOMECFG a.val) 1 <;> rfl
    have hmet := homeSwitch_met (s := updAxis a.val (fun x => { x with homeIn := high }) s) (by rw [axis_updAxis_self]; exact hm) hk hs hact
    refine next_at (execMotHomeInput_keeps a high s) (by decide) (congrArg Host.Outcome.next hmet) ⟨?_, ?_⟩
    · rw [axis_updAxis_self, axis_updAxis_self]
    · exact (updAxis_others a.val _ s).trans (updAxis_others a.val _ _)
  case done =>
    intro a m s hm hk hs hw
    have hdone := endMove_over (st := 0) (r := posRes (axis s a.val)) hw
    rcases hs with ⟨h0, hv, hp⟩ | ⟨h1, hv, hz⟩
    · have he := moveComplete_arrived hm hk h0 hv hp
      obtain ⟨⟨hst, hmv, hsp, hpos, ho⟩, -⟩ := hdone
      exact next_at (execMoveComplete_keeps a s) (by decide) (congrArg Host.Outcome.next he)
        ⟨hst, hmv, hsp, hpos, fun _ hne => absurd h0 hne, ho⟩
    · cases hkind : m.kind with
      | host =>
        have he := moveComplete_stopped_host hm h1 hv hz hkind
        have hx := moveRetained_axis a.val m s
        obtain ⟨⟨hst, hmv, hsp, hpos, ho⟩, hret⟩ := endMove_over (a := a.val) (st := 0) (r := posRes (axis s a.val))
          (s := moveRetained a.val m s) (by rw [hx]; exact hw)
        rw [hx] at hpos hret
        exact next_at (execMoveComplete_keeps a s) (by decide) (congrArg Host.Outcome.next he)
          ⟨hst, hmv, hsp, hpos, fun _ _ => hret.trans (by rw [hkind]), (moveRetained_others a.val m s).trans ho⟩
      | feed =>
        have he := moveComplete_stopped_feed hm h1 hv hz hkind
        obtain ⟨⟨hst, hmv, hsp, hpos, ho⟩, -⟩ := hdone
        exact next_at (execMoveComplete_keeps a s) (by decide) (congrArg Host.Outcome.next he)
          ⟨hst, hmv, hsp, hpos, fun hh => absurd hh (by decide), ho⟩
      | home q p d => exact absurd hkind (hk q p d)
  case homed =>
    intro a m seq d s hm hk hw
    obtain ⟨hh, hc, -, hfw, ho⟩ := setHome_atHome a.val seq s
    have hx := endMove_axis a.val 0 (posRes (axis (setHome a.val seq s) a.val)) (setHome a.val seq s) (hfw.trans hw)
    refine next_at (execHomingComplete_keeps a s) (by decide) (congrArg Host.Outcome.next (homingComplete_ends hm hk)) ⟨?_, ?_, ?_, ?_, ?_⟩
    · rw [hx, if_pos rfl]
    · rw [hx, if_pos rfl]
    · rw [hx, if_pos rfl]
      exact hh
    · rw [hx, if_pos rfl]
      exact hc
    · exact ho.trans (endMove_others (hfw.trans hw))
  case timeout =>
    intro a ti m seq ph d s hm hk hd hp
    have hclk : (beginStop a.val .timeout (unhome a.val (advanceTo ti.toNat s))).clock = (advanceTo ti.toNat s).clock :=
      (beginStop_keeps a.val .timeout _ (fun _ q => q) (Keeps.refl _ _)).only .clock (by decide)
    obtain ⟨hx, ho⟩ := beginStop_begun a.val .timeout (unhome a.val (advanceTo ti.toNat s))
    refine next_at (execHomingTimeout_keeps a ti s) (by decide) (congrArg Host.Outcome.next (homingTimeout_stops hm hk hd hp))
      ⟨?_, by rw [hx], by rw [hx], ?_, ?_⟩
    · rw [now_congr hclk]
      exact now_advance ti.isLt
    · rw [hx, unhome, axis_updAxis_self]
    · exact ((OtherAxes.of_mot a.val (advance_mot ti.toNat s)).trans (updAxis_others a.val _ _)).trans ho
  case standstill =>
    intro a s hs hh
    exact next_at (execMotStandstillTimer_keeps a s) (by decide) (congrArg Host.Outcome.next (if_pos ⟨hs, hh⟩))
      ⟨axis_updAxis_self _ _ _, updAxis_others _ _ _⟩
  case queue =>
    intro a c rest ti s hq ht ha hb
    obtain ⟨hqueue, hat, hst, hsc, hheld, -, -, ho⟩ := admitted_admits a ti.toNat rest (advanceTo ti.toNat s)
    exact next_at (execMotEnableAdmit_keeps ti s) (by decide) (congrArg Host.Outcome.next (enableAdmit_admits hq ht ha hb))
      ⟨hqueue, hat, hst, hsc, hheld, (OtherAxes.of_mot a (advance_mot ti.toNat s)).trans ho⟩

end Sys2Proof.Machine
end

section
/-! SUPPORT. The proof of how power states are entered and left, and of what the supplies do (O16). -/

namespace Sys2Proof.Machine
open Sys2Proof

/-! ## POWER_STATE (R536, R538) -/

section
variable {h : Hdr} {c : Instr} {target : Nat} {s : State}

/-- The controller is at rest in the state named. -/
theorem bodyPowerState_there (ht : target ≤ 3) (hn : s.pwr.toward = none) (hs : s.pwr.state = targetState target)
    (he : entryStatus s target = 0) : bodyPowerState h c target s = ok h 0 s := by
  unfold bodyPowerState
  rw [if_neg (Nat.not_lt.mpr ht)]
  by_cases h0 : target = 0
  · rw [if_pos h0, if_pos ⟨hn, hs.trans (by rw [h0]; rfl)⟩]
  · rw [if_neg h0, if_neg (not_not.mpr hn), if_neg (not_not.mpr he), if_pos hs]

/-- RUN is not reached: its exit starts, or has started. -/
theorem bodyPowerState_exits (ht : (s.pwr.toward = none ∧ s.pwr.state ≠ .run) ∨ s.pwr.toward = some .run) :
    bodyPowerState h c 0 s = parkAccepted h c [] [keyExit] (startExit 0 s) := by
  have hrun : ¬(s.pwr.toward = none ∧ s.pwr.state = .run) := by
    rintro ⟨hn, hr⟩
    rcases ht with ⟨-, hne⟩ | hto
    · exact hne hr
    · rw [hn] at hto
      cases hto
  unfold bodyPowerState
  rw [if_neg (by decide), if_pos rfl, if_neg hrun, if_pos (ht.imp_left And.left)]

/-- The entry into another state begins. -/
theorem bodyPowerState_enters (h0 : 0 < target) (h3 : target ≤ 3) (hn : s.pwr.toward = none) (hs : s.pwr.state ≠ targetState target)
    (he : entryStatus s target = 0) : bodyPowerState h c target s = parkAccepted h c [] [keyEntry]
      { s with pwr := { s.pwr with toward := some (targetState target), cause := 0, told := false } } := by
  unfold bodyPowerState
  rw [if_neg (Nat.not_lt.mpr h3), if_neg h0.ne', if_neg (not_not.mpr hn), if_neg (not_not.mpr he), if_neg hs]

/-- A transition under way is waited for. -/
theorem bodyPowerState_waits (h3 : target ≤ 3) (hn : s.pwr.toward ≠ none) (hr : ¬(target = 0 ∧ s.pwr.toward = some .run)) :
    bodyPowerState h c target s = parkWaiting h c [] [keyStill] s := by
  unfold bodyPowerState
  rw [if_neg (Nat.not_lt.mpr h3)]
  by_cases h0 : target = 0
  · rw [if_pos h0, if_neg fun k => hn k.1, if_neg fun k => k.elim hn fun e => hr ⟨h0, e⟩]
  · rw [if_neg h0, if_pos hn]

end

theorem startExit_toward {s : State} (c : Nat) (ht : s.pwr.toward = none ∨ s.pwr.toward = some .run) :
    (startExit c s).pwr.toward = some .run := by
  unfold startExit
  rcases ht with h | h
  · rw [h]
  · rw [h]
    exact h

/-! ## What entries and exits leave (R538, R539) -/

/-- What a change of state told leaves: the power unit, the clocks. -/
structure PowerAlike (s t : State) : Prop where
  pwr : t.pwr = s.pwr
  clk : t.clk = s.clk

theorem PowerAlike.of_keeps {ps : List Part} {s t : State} (k : Keeps ps s t) (h : Part.pwr ∉ ps ∧ Part.clk ∉ ps) : PowerAlike s t :=
  ⟨k.only .pwr h.1, k.only .clk h.2⟩

theorem PowerAlike.trans {s t u : State} (h : PowerAlike s t) (k : PowerAlike t u) : PowerAlike s u :=
  ⟨k.pwr.trans h.pwr, k.clk.trans h.clk⟩

theorem powerEvent_alike (old new : PowerState) (cause : Nat) (s : State) : PowerAlike s (powerEvent old new cause s) :=
  .of_keeps (raised_keeps s) (by decide)

theorem arrive_alike (key : Nat) (r : State → Nat) (s : State) : PowerAlike s (arrive key r s) :=
  .of_keeps (arrive_keeps key r s (fun _ q => q) (Keeps.refl _ s)) (by decide)

/-- The end of an entry told, and its commands complete. -/
def entryTold (old new : PowerState) (cause : Nat) (s : State) : State := arrive keyEntry (fun _ => 0) (powerEvent old new cause s)

theorem entryTold_alike (old new : PowerState) (cause : Nat) (s : State) : PowerAlike s (entryTold old new cause s) :=
  (powerEvent_alike old new cause s).trans (arrive_alike _ _ _)

/-- Wake commands that wait start an exit, and change nothing else of what an entry leaves. -/
structure WakeAlike (s t : State) : Prop where
  state : t.pwr.state = s.pwr.state
  clk : t.clk = s.clk
  fw : t.fw = s.fw

theorem wakeWaiters_alike (s : State) : WakeAlike s (wakeWaiters s) := by
  unfold wakeWaiters startExit
  split
  · exact ⟨rfl, rfl, rfl⟩
  · split
    · exact ⟨rfl, rfl, rfl⟩
    · exact ⟨rfl, rfl, rfl⟩

/-- The heads an exit powers again are those of the entry; the delay loop has relocked. -/
structure StandbyLeft (s t : State) : Prop where
  state : t.pwr.state = s.pwr.state
  toward : t.pwr.toward = s.pwr.toward
  exitHeads : t.pwr.exitHeads = s.pwr.standbyHeads
  dllLock : t.clk.dllLock = true

theorem leaveStandby_left (s : State) : StandbyLeft s (leaveStandby s) := by
  unfold leaveStandby
  extract_lets d
  have hp : (dllChange true d.1.toNat d.2).pwr = s.pwr :=
    (dllChange_keeps true d.1.toNat d.2 (fun _ q => q) (Keeps.refl _ _)).only .pwr (by decide)
  have hl := (dllChange_leaves (locked := true) d.1.toNat (s := d.2) (fun h => absurd h (by decide))).1
  generalize dllChange true d.1.toNat d.2 = u at hp hl
  refine ⟨?_, ?_, ?_, hl⟩
  · exact (congrArg Power.state hp :)
  · exact (congrArg Power.toward hp :)
  · exact (congrArg Power.standbyHeads hp :)

theorem dllChange_unlocks (code : Nat) (s : State) : (dllChange false code s).clk.dllLock = false := by
  by_cases h : s.clk.dllLock = true
  · exact (dllChange_leaves (locked := false) code fun _ => h).1
  · have hf : s.clk.dllLock = false := by simpa using h
    unfold dllChange
    rw [if_pos hf]
    exact hf

theorem enterStandby_unlocks (s : State) : (enterStandby s).clk.dllLock = false := by
  unfold enterStandby
  exact dllChange_unlocks _ _

/-! ## POWER_ENTRY_DONE (R540) -/

/-- IDLE entered, from RUN or from STANDBY. -/
def idleEntered (s : State) : State :=
  let s1 := { s with pwr := { s.pwr with state := .idle, toward := none } }
  if s.pwr.state = .standby then leaveStandby s1 else s1

/-- STANDBY entered. -/
def standbyEntered (s : State) : State := { enterStandby s with pwr := { (enterStandby s).pwr with state := .standby, toward := none } }

/-- DEEP told: the steps before its completion are done. -/
def deepPrepared (s : State) : State :=
  let s1 := (tlyEnabled s).foldl (fun t i => tallyClose i t) (calFlush s)
  let s2 := (s1.jobs.tenants.map (·.1)).foldl (fun t k => writeCeiling k (tenant t k).charged t) s1
  deepSnapshot s2

theorem entryDone_idle {s : State} (h : s.pwr.toward = some .idle) :
    entryDone s = wakeWaiters (entryTold s.pwr.state .idle s.pwr.cause (idleEntered s)) := by
  unfold entryDone
  rw [h]
  rfl

theorem entryDone_standby {s : State} (h : s.pwr.toward = some .standby) :
    entryDone s = wakeWaiters (entryTold s.pwr.state .standby s.pwr.cause (standbyEntered s)) := by
  unfold entryDone
  rw [h]
  rfl

theorem entryDone_deep {s : State} (h : s.pwr.toward = some .deep) (ht : s.pwr.told = false) : entryDone s =
    entryTold s.pwr.state .deep s.pwr.cause { deepPrepared s with pwr := { (deepPrepared s).pwr with told := true } } := by
  unfold entryDone
  rw [h]
  exact if_neg (by rw [ht]; exact Bool.false_ne_true)

theorem idleEntered_state (s : State) : (idleEntered s).pwr.state = .idle := by
  unfold idleEntered
  dsimp only
  split
  · exact (leaveStandby_left _).state
  · rfl

theorem deepPrepared_pwr (s : State) : (deepPrepared s).pwr = s.pwr := by
  unfold deepPrepared
  extract_lets s1 s2
  have h1 : s1.pwr = s.pwr := foldl_holds (I := fun t => t.pwr = s.pwr) _
    ((calFlush_keeps s (fun _ q => q) (Keeps.refl _ s)).only .pwr (by decide)) fun t i _ ht =>
      ((tallyClose_keeps i t (fun _ q => q) (Keeps.refl _ t)).only .pwr (by decide)).trans ht
  have h2 : s2.pwr = s.pwr := foldl_holds (I := fun t => t.pwr = s.pwr) _ h1 fun t k _ ht =>
    ((writeCeiling_keeps k _ t (fun _ q => q) (Keeps.refl _ t)).only .pwr (by decide)).trans ht
  exact ((deepSnapshot_keeps s2 (fun _ q => q) (Keeps.refl _ s2)).only .pwr (by decide)).trans h2

theorem entryTold_waits (old new : PowerState) (cause : Nat) (s : State) : ∀ p ∈ (entryTold old new cause s).fw.parked, keyEntry ∉ p.waits :=
  arrive_waits keyEntry (fun _ => 0) _

/-- What the end of an entry leaves. -/
structure EntryEnded (s t : State) : Prop where
  deep : s.pwr.toward = some .deep → t.pwr.told = true ∧ t.pwr.state = s.pwr.state
  state : s.pwr.toward ≠ some .deep → some t.pwr.state = s.pwr.toward
  standby : s.pwr.toward = some .standby → t.clk.dllLock = false
  waits : ∀ p ∈ t.fw.parked, keyEntry ∉ p.waits

theorem entryDone_ends {s : State} (h : s.pwr.toward = some .idle ∨ s.pwr.toward = some .standby ∨
    (s.pwr.toward = some .deep ∧ s.pwr.told = false)) : EntryEnded s (entryDone s) := by
  rcases h with hi | hs | ⟨hd, ht⟩
  · have hw := wakeWaiters_alike (entryTold s.pwr.state .idle s.pwr.cause (idleEntered s))
    have ha := entryTold_alike s.pwr.state .idle s.pwr.cause (idleEntered s)
    rw [entryDone_idle hi]
    refine ⟨fun e => ?_, fun _ => ?_, fun e => ?_, ?_⟩
    · rw [hi] at e
      cases e
    · rw [hw.state, ha.pwr, idleEntered_state, hi]
    · rw [hi] at e
      cases e
    · rw [hw.fw]
      exact entryTold_waits _ _ _ _
  · have hw := wakeWaiters_alike (entryTold s.pwr.state .standby s.pwr.cause (standbyEntered s))
    have ha := entryTold_alike s.pwr.state .standby s.pwr.cause (standbyEntered s)
    rw [entryDone_standby hs]
    refine ⟨fun e => ?_, fun _ => ?_, fun _ => ?_, ?_⟩
    · rw [hs] at e
      cases e
    · rw [hw.state, ha.pwr, hs]
      rfl
    · rw [hw.clk, ha.clk]
      exact enterStandby_unlocks s
    · rw [hw.fw]
      exact entryTold_waits _ _ _ _
  · have ha := entryTold_alike s.pwr.state .deep s.pwr.cause { deepPrepared s with pwr := { (deepPrepared s).pwr with told := true } }
    rw [entryDone_deep hd ht]
    refine ⟨fun _ => ?_, fun e => absurd hd e, fun e => ?_, entryTold_waits _ _ _ _⟩
    · rw [ha.pwr]
      exact ⟨rfl, (congrArg Power.state (deepPrepared_pwr s) :)⟩
    · rw [hd] at e
      cases e

/-! ## POWER_EXIT_DONE (R539) -/

/-- The exits that waited complete, or wait for the heads powered again. -/
def exitTold (s : State) : State :=
  (waiters s keyExit).foldl (fun t p =>
    match exitPending t with
    | [] => complete p.h 0 0 t
    | hs => park { p with waits := hs.map keyHead } t) s

theorem exitTold_alike (s : State) : PowerAlike s (exitTold s) :=
  foldl_holds (I := PowerAlike s) _ ⟨rfl, rfl⟩ fun t p _ h => by
    split
    · exact h.trans ⟨complete_pwr _ _ _ _, complete_clk _ _ _ _⟩
    · exact h.trans ⟨rfl, rfl⟩

/-- RUN reached. -/
def runEntered (s : State) : State :=
  let s1 := { s with pwr := { s.pwr with state := .run, toward := none } }
  if s.pwr.state = .standby then leaveStandby s1 else s1

theorem exitDone_runs {s : State} (h : s.pwr.toward = some .run) :
    exitDone s = exitTold (powerEvent s.pwr.state .run s.pwr.cause (runEntered s)) := if_pos h

/-- What a reached RUN leaves. -/
structure RunReached (s t : State) : Prop where
  state : t.pwr.state = .run
  toward : t.pwr.toward = none
  standby : s.pwr.state = .standby → t.clk.dllLock = true ∧ t.pwr.exitHeads = s.pwr.standbyHeads

theorem runEntered_reached (s : State) : RunReached s (runEntered s) := by
  unfold runEntered
  dsimp only
  split
  · have h := leaveStandby_left { s with pwr := { s.pwr with state := .run, toward := none } }
    exact ⟨h.state, h.toward, fun _ => ⟨h.dllLock, h.exitHeads⟩⟩
  · next h => exact ⟨rfl, rfl, fun e => absurd e h⟩

theorem RunReached.after {s t u : State} (k : PowerAlike t u) (h : RunReached s t) : RunReached s u :=
  ⟨by rw [k.pwr]; exact h.state, by rw [k.pwr]; exact h.toward, by rw [k.pwr, k.clk]; exact h.standby⟩

/-! ## DEEP (R540) -/

/-- Crock's queue is finished before power goes. -/
def deepCrock (s : State) : State := drainCrock ((snapshotWrite s).crk.queue.length + 1) (snapshotWrite s)

/-- Every domain but PD_AON is off. -/
def poweredOff (s : State) : State :=
  { zeroSagger (crkLose (haltUnits s)) with
    pwr := { (zeroSagger (crkLose (haltUnits s))).pwr with
      state := .deep, deepAt := (zeroSagger (crkLose (haltUnits s))).clock.uptime } }

theorem deepEntry_eq {s : State} (h : s.pwr.toward = some .deep) (ht : s.pwr.told = true) : deepEntry s =
    match s.pwr.wake with
    | some (.pin, strap) => wn Reg.GLB_STRAP strap (startBoot .pin 1 false (poweredOff (deepCrock s)))
    | some _ => startBoot .deepExit 8 false (poweredOff (deepCrock s))
    | none => poweredOff (deepCrock s) := if_pos ⟨h, ht⟩

/-- What DEEP leaves: Sagger's RAM, Crock's queue and the copies empty, nothing command-ready. -/
structure PoweredOff (t : State) : Prop where
  state : t.pwr.state = .deep
  tenants : t.sag.tenants = []
  batches : t.sag.batches = []
  queue : t.crk.queue = []
  copies : t.jobs.copies = []
  ready : t.fw.ready = false

theorem poweredOff_off (s : State) : PoweredOff (poweredOff s) := ⟨rfl, rfl, rfl, rfl, rfl, rfl⟩

/-- A boot that begins: RUN, a kind that governs it, nothing command-ready. -/
structure BootBegun (low : List Nat) (t : State) : Prop where
  state : t.pwr.state = .run
  boot : t.pwr.boot.isSome = true
  low : t.pwr.low = low
  ready : t.fw.ready = false

theorem startBoot_begun (k : RstKind) (cause : Nat) (cut : Bool) (s : State) : BootBegun s.pwr.low (startBoot k cause cut s) := by
  refine ⟨?_, ?_, ?_, ?_⟩
  · rw [startBoot_pwr]
    rfl
  · rw [startBoot_pwr]
    dsimp only
    split
    · split
      · rfl
      · rfl
    · rfl
  · rw [startBoot_pwr]
  · rw [startBoot_fw]
    rfl

theorem BootBegun.wn {low : List Nat} {t : State} (h : BootBegun low t) (k v : Nat) : BootBegun low (wn k v t) :=
  ⟨h.state, h.boot, h.low, h.ready⟩

/-- With no boot under way the kind named governs. -/
theorem startBoot_boot (k : RstKind) (cause : Nat) (cut : Bool) {s : State} (h : s.pwr.boot = none) :
    (startBoot k cause cut s).pwr.boot = some k := by
  rw [startBoot_pwr, h]

theorem deepEntry_sleeps {s : State} (h : s.pwr.toward = some .deep) (ht : s.pwr.told = true) (hw : s.pwr.wake = none) :
    deepEntry s = poweredOff (deepCrock s) := by
  rw [deepEntry_eq h ht, hw]

/-- A wake source held starts the boot: PIN's own, or that of DEEP's exit. -/
theorem deepEntry_wakes {s : State} (h : s.pwr.toward = some .deep) (ht : s.pwr.told = true) {k : RstKind} {strap : Nat}
    (hw : s.pwr.wake = some (k, strap)) : deepEntry s =
      if k = .pin then wn Reg.GLB_STRAP strap (startBoot .pin 1 false (poweredOff (deepCrock s)))
      else startBoot .deepExit 8 false (poweredOff (deepCrock s)) := by
  rw [deepEntry_eq h ht, hw]
  cases k <;> rfl

/-! ## Supplies (R541, R542) -/

theorem supplyLow_por {k : Nat} {strap : BitVec 5} {s : State} (hl : s.pwr.low.contains k = false) (hk : k ≤ 4) :
    supplyLow k strap s = porReset strap { s with pwr := { s.pwr with low := s.pwr.low ++ [k] } } := by
  unfold supplyLow
  rw [if_neg (by rw [hl]; exact Bool.false_ne_true)]
  exact if_pos hk

/-- Of groups C and D a supply out of range is a HOST reset, of a free cause. -/
theorem supplyLow_host {k : Nat} {strap : BitVec 5} {s : State} (hl : s.pwr.low.contains k = false) (hk : ¬k ≤ 4) (hc : clocked s = true) :
    ∃ cause u, supplyLow k strap s = startBoot .host cause (decide (k = 8)) u ∧ u.pwr.low = s.pwr.low ++ [k] := by
  unfold supplyLow
  rw [if_neg (by rw [hl]; exact Bool.false_ne_true)]
  dsimp only
  rw [if_neg hk, if_neg (by rw [hc]; decide)]
  exact ⟨_, _, rfl, rfl⟩

theorem supplyBack_pwr {k : Nat} {s : State} (h : s.pwr.low.contains k = true) :
    (supplyBack k s).pwr = { s.pwr with low := s.pwr.low.filter (· ≠ k) } := by
  unfold supplyBack
  rw [if_pos h]
  dsimp only
  split
  · rfl
  · exact (raised_keeps _).only .pwr (by decide)

/-! ## O16 -/

/-- Settles O16: POWER_STATE by its branch, each end of a transition by what it leaves of the power unit and the clocks, and each
wake, and each supply lost, by the boot it begins. -/
theorem powerStatesRun : Obligations.PowerStatesRun := by
  refine ⟨?there, ?exit, ?entry, ?waits, ?entered, ?idle, ?reached, ?deep, ?woken, ?timer, ?low, ?back⟩
  case there =>
    intro d target s ha h3 hn hs he
    refine admitted_next ha rfl rfl (bodyPowerState_keeps _ _ _ _ (by decide) ((taken_only d s).mono (by decide))) ?_
    rw [bodyPowerState_there (s := taken d s) h3 hn hs he]
    exact ⟨taken_completed d 0 s, complete_pwr _ _ _ _⟩
  case exit =>
    intro d s ha ht
    refine admitted_next ha rfl rfl (bodyPowerState_keeps _ _ _ _ (by decide) ((taken_only d s).mono (by decide))) ?_
    rw [show (0 : BitVec 8).toNat = 0 from rfl, bodyPowerState_exits (s := taken d s) ht]
    refine ⟨parkAccepted_accepted _ _ _ ?_, startExit_toward 0 (ht.imp_left And.left)⟩
    rw [ring_congr (startExit_rings _ _)]
    exact taken_ci d s
  case entry =>
    intro d target s ha h0 h3 hn hs he
    refine admitted_next ha rfl rfl (bodyPowerState_keeps _ _ _ _ (by decide) ((taken_only d s).mono (by decide))) ?_
    rw [bodyPowerState_enters (s := taken d s) h0 h3 hn hs he]
    exact ⟨parkAccepted_accepted _ _ _ (taken_ci d s), rfl⟩
  case waits =>
    intro d target s ha h3 hn hr
    refine admitted_next ha rfl rfl (bodyPowerState_keeps _ _ _ _ (by decide) ((taken_only d s).mono (by decide))) ?_
    rw [bodyPowerState_waits (s := taken d s) h3 hn hr]
    exact ⟨parkWaiting_waits _ _ _ (taken_ci d s), rfl⟩
  case entered =>
    intro s h
    obtain ⟨hdeep, hstate, hstandby, hwaits⟩ := entryDone_ends h
    exact next_at (execPowerEntryDone_keeps s) (by decide) rfl ⟨hdeep, hstate, hstandby, hwaits⟩
  case idle =>
    intro s hc hr hn hf he
    have hidle : autoIdle s = powerEvent .run .idle 1 { s with pwr := { s.pwr with state := .idle, cause := 1 } } :=
      if_pos (by rw [hc, hr, hn, hf, he]; rfl)
    exact next_at (execAutoIdle_keeps s) (by decide) (congrArg Host.Outcome.next hidle) (powerEvent_alike _ _ _ _).pwr
  case reached =>
    intro s h
    obtain ⟨hst, hto, hsb⟩ := ((runEntered_reached s).after (powerEvent_alike s.pwr.state .run s.pwr.cause _)).after (exitTold_alike _)
    exact next_at (execPowerExitDone_keeps s) (by decide) (congrArg Host.Outcome.next (exitDone_runs h)) ⟨hst, hto, hsb⟩
  case deep =>
    intro s h ht hw
    obtain ⟨hst, hten, hbat, hq, hcop, hrdy⟩ := poweredOff_off (deepCrock s)
    exact next_at (execDeepEntry_keeps s) (fun _ hp => hp) (congrArg Host.Outcome.next (deepEntry_sleeps h ht hw))
      ⟨hst, hten, hbat, hq, hcop, hrdy⟩
  case woken =>
    intro s k strap h ht hw
    refine next_at (execDeepEntry_keeps s) (fun _ hp => hp) (congrArg Host.Outcome.next (deepEntry_wakes h ht hw)) ?_
    have hb : (poweredOff (deepCrock s)).pwr.boot = none := rfl
    generalize poweredOff (deepCrock s) = u at hb
    split
    · have hbeg := (startBoot_begun .pin 1 false u).wn Reg.GLB_STRAP strap
      exact ⟨hbeg.state, startBoot_boot .pin 1 false hb, hbeg.ready⟩
    · have hbeg := startBoot_begun .deepExit 8 false u
      exact ⟨hbeg.state, startBoot_boot .deepExit 8 false hb, hbeg.ready⟩
  case timer =>
    intro at_ s u hu hd hw hle
    have hwake : deepWake at_.toNat s = startBoot .deepExit 8 false u := by
      rw [hu] at hd hw hle ⊢
      exact if_pos ⟨hd, hw, hle⟩
    have hbeg := startBoot_begun .deepExit 8 false u
    exact next_at (execDeepWakeTimer_keeps at_ s) (fun _ hp => hp) (congrArg Host.Outcome.next hwake) ⟨hbeg.state, hbeg.boot, hbeg.ready⟩
  case low =>
    intro k strap s hl hk
    by_cases h4 : k.val ≤ 4
    · have hbeg := (startBoot_begun .por 0 true { s with pwr := { s.pwr with low := s.pwr.low ++ [k.val] } }).wn Reg.GLB_STRAP strap.toNat
      refine next_at (execSupplyOutOfRange_keeps k strap s) (fun _ hp => hp) (congrArg Host.Outcome.next (supplyLow_por hl h4))
        ⟨hbeg.low, hbeg.boot, hbeg.ready, fun _ => ?_⟩
      rw [porReset, rn_wn_self, Nat.mod_eq_of_lt (by have := strap.isLt; omega)]
    · obtain ⟨cause, u, he, hlow⟩ := supplyLow_host (strap := strap) hl h4 (hk.resolve_left h4)
      have hbeg := startBoot_begun .host cause (decide (k.val = 8)) u
      exact next_at (execSupplyOutOfRange_keeps k strap s) (fun _ hp => hp) (congrArg Host.Outcome.next he)
        ⟨hbeg.low.trans hlow, hbeg.boot, hbeg.ready, fun h => absurd h h4⟩
  case back =>
    intro k s h
    exact next_at (execSupplyReturn_keeps k s) (by decide) rfl (supplyBack_pwr h)

end Sys2Proof.Machine
end

section
/-! SUPPORT. The proof of what camera packets, the pipeline, stalls and Winnow's rulings do (O47). -/

namespace Sys2Proof.Machine
open Sys2Proof

/-! ## A port's registers as time goes on -/

/-- The advance of time leaves what a camera packet is judged by. -/
theorem rf_advance_iplP {t : Nat} {s : State} {r : Nat} (hr : keyKind r = .iplP) (a b : Nat) : rf (advanceTo t s) r a b = rf s r a b :=
  rf_congr (advance_rd t s (by rw [hr]; decide)) a b

theorem rn_advance_iplP {t : Nat} {s : State} {r : Nat} (hr : keyKind r = .iplP) : rn (advanceTo t s) r = rn s r :=
  rn_congr (advance_rd t s (by rw [hr]; decide))

theorem cam_advance (t : Nat) (s : State) (k : Nat) : cam (advanceTo t s) k = cam s k := cam_congr (advance_ipl t s) k

theorem camRunning_advance (t : Nat) (s : State) (k : Nat) : camRunning (advanceTo t s) k = camRunning s k :=
  camRunning_congr (advance_ipl t s) k

@[simp] theorem keyKind_IPL_C_CSI (k : Nat) : keyKind (Reg.IPL_C_CSI k) = .iplP := keyKind_iplP 0x100 k (by decide)

@[simp] theorem keyKind_IPL_C_WIDTH (k : Nat) : keyKind (Reg.IPL_C_WIDTH k) = .iplP := keyKind_iplP 0x108 k (by decide)

theorem headerOk_advance (t : Nat) (s : State) (k vc vcx : Nat) (ok : Bool) :
    headerOk (advanceTo t s) k vc vcx ok = headerOk s k vc vcx ok := by
  rw [headerOk, headerOk, rf_advance_iplP (keyKind_IPL_C_CSI k)]

theorem inlineFull_advance (t : Nat) (s : State) (k : Nat) : inlineFull (advanceTo t s) k = inlineFull s k := by
  rw [inlineFull, inlineFull, cam_advance, rf_congr (advance_rd t s (k := Reg.IPL_CTRL) (by decide))]

/-! ## What each part of a packet does to its port -/

theorem cam_inc (r n : Nat) (s : State) (k : Nat) : cam (inc r n s) k = cam s k := rfl

/-- A port that changes state changes its state and its cause alone. -/
theorem cam_setCam_self (k : Nat) (st : CamState) (cause : Nat) (s : State) :
    ∃ c, cam (setCam k st cause s) k = { cam s k with state := st, cause := c } := by
  unfold setCam
  dsimp only
  by_cases h : (cam s k).state = st
  · exact ⟨(cam s k).cause, by rw [if_pos h, ← h]⟩
  · refine ⟨if st = .off then cause else (cam s k).cause, ?_⟩
    rw [if_neg h, cam_congr ((raised_keeps _).only .ipl (by simp)), cam_updCam_self]

theorem stallEnd_cam (k : Nat) (s : State) : ∃ c, cam (stallEnd k s) k =
    { cam s k with state := if (cam s k).state = .stalled then .running else (cam s k).state, cause := c } := by
  unfold stallEnd
  by_cases h : (cam s k).state = .stalled
  · obtain ⟨c, hc⟩ := cam_setCam_self k .running 0 s
    refine ⟨c, ?_⟩
    rw [if_pos h, if_pos h, cam_congr ((raised_keeps _).only .ipl (by simp)), hc]
  · exact ⟨(cam s k).cause, by rw [if_neg h, if_neg h]⟩

theorem captureLine_cam (k dt : Nat) (bs : List Byte) (s : State) : ∃ x, cam (captureLine k dt bs s) k = { cam s k with capture := x } ∧
    ∀ c, (cam s k).capture = some c → c.left ≠ 0 →
      x = some { c with left := c.left - 1, sums := addSums c.sums (samples dt bs) } := by
  unfold captureLine
  cases hc : (cam s k).capture with
  | none => exact ⟨(cam s k).capture, rfl, fun c h => by simp at h⟩
  | some c =>
    dsimp only
    by_cases h0 : c.left = 0
    · refine ⟨(cam s k).capture, by rw [if_pos h0], fun d h hd => absurd h0 ?_⟩
      exact (Option.some.inj h) ▸ hd
    · refine ⟨some { c with left := c.left - 1, sums := addSums c.sums (samples dt bs) }, ?_, fun d h _ => ?_⟩
      · rw [if_neg h0, cam_updCam_self]
      · rw [← Option.some.inj h]

theorem placeLines_cam (k : Nat) (s : State) : ∃ ws, cam (placeLines k s) k = { cam s k with waiting := ws } :=
  ⟨_, cam_updCam_self _ _ _⟩

theorem ringOverwrite_cam (k : Nat) (s : State) : ∃ ws n, cam (ringOverwrite k s) k = { cam s k with waiting := ws, carry := n } := by
  have same : ∃ ws n, cam s k = { cam s k with waiting := ws, carry := n } := ⟨(cam s k).waiting, (cam s k).carry, rfl⟩
  unfold ringOverwrite
  dsimp only
  split
  · split
    · exact ⟨_, _, (cam_inc _ _ _ _).trans (cam_updCam_self _ _ _)⟩
    · exact same
  · exact same

/-- A kept line: the port's stall ends, its capture goes on, and its run of missing lines is over. -/
structure LineKept (k dt t : Nat) (bs : List Byte) (s u : State) : Prop where
  quiet : (cam u k).quiet = t
  missed : (cam u k).missed = 0
  state : (cam u k).state = if (cam s k).state = .stalled then .running else (cam s k).state
  capture : ∀ c, (cam s k).capture = some c → c.left ≠ 0 →
    (cam u k).capture = some { c with left := c.left - 1, sums := addSums c.sums (samples dt bs) }

theorem keepLine_kept (k dt t : Nat) (bs : List Byte) (s : State) : LineKept k dt t bs s (keepLine k dt t bs s) := by
  obtain ⟨c, hstall⟩ := stallEnd_cam k s
  obtain ⟨x, hcap, hx⟩ := captureLine_cam k dt bs (stallEnd k s)
  rw [hstall] at hcap hx
  unfold keepLine
  extract_lets s1 g l
  obtain ⟨ws, hplace⟩ := placeLines_cam k (updCam k (fun g => { g with waiting := g.waiting ++ [l], missed := 0, quiet := t }) s1)
  obtain ⟨ws', n, hring⟩ := ringOverwrite_cam k
    (placeLines k (updCam k (fun g => { g with waiting := g.waiting ++ [l], missed := 0, quiet := t }) s1))
  rw [cam_updCam_self, hcap] at hplace
  rw [hplace] at hring
  exact ⟨by rw [hring], by rw [hring], by rw [hring], fun c h h0 => by rw [hring]; exact hx c h h0⟩

/-! ## Packets (R366, R368) -/

/-- A packet whose CRC or length is wrong. -/
def badLine (s : State) (k dt wc : Nat) (crcOk : Bool) (bs : List Byte) : Bool :=
  !crcOk || decide (wc ≠ dtBytes dt (rf s (Reg.IPL_C_WIDTH k) 14 0)) || decide (bs.length ≠ wc)

/-- A packet with the port's header on a running port. -/
structure Arrives (k vc vcx dt : Nat) (s : State) : Prop where
  running : camRunning s k = true
  header : headerOk s k vc vcx true = true
  type : dt = rf s (Reg.IPL_C_CSI k) 7 2

theorem longPacket_arrives {k vc vcx dt wc : Nat} {crcOk : Bool} {bs : List Byte} {t : Nat} {s : State} (ha : Arrives k vc vcx dt s) :
    longPacket k vc vcx dt wc true crcOk false bs t s =
      if badLine s k dt wc crcOk bs then missLine k (inc (Reg.IPL_C_CRC_CNT k) 1 (advanceTo t s))
      else if inlineFull s k then missLine k (inc (Reg.IPL_C_FIFO_OVF_CNT k) 1 (advanceTo t s)) else keepLine k dt t bs (advanceTo t s) := by
  have hdt : decide (dt ≠ rf s (Reg.IPL_C_CSI k) 7 2) = false := decide_eq_false fun h => h ha.type
  unfold longPacket
  dsimp only
  rw [camRunning_advance, ha.running, headerOk_advance, ha.header, rf_advance_iplP (keyKind_IPL_C_CSI k), hdt, inlineFull_advance,
    rf_advance_iplP (keyKind_IPL_C_WIDTH k), Bool.false_or, badLine]
  rfl

theorem longPacket_kept {k vc vcx dt wc : Nat} {crcOk : Bool} {bs : List Byte} {t : Nat} {s : State} (ha : Arrives k vc vcx dt s)
    (hb : badLine s k dt wc crcOk bs = false) (hf : inlineFull s k = false) :
    LineKept k dt t bs s (longPacket k vc vcx dt wc true crcOk false bs t s) := by
  rw [longPacket_arrives ha, hb, hf]
  obtain ⟨quiet, missed, state, capture⟩ := keepLine_kept k dt t bs (advanceTo t s)
  rw [cam_advance] at state capture
  exact ⟨quiet, missed, state, capture⟩

theorem longPacket_bad {k vc vcx dt wc : Nat} {crcOk : Bool} {bs : List Byte} {t : Nat} {s : State} (ha : Arrives k vc vcx dt s)
    (hb : badLine s k dt wc crcOk bs = true) :
    cam (longPacket k vc vcx dt wc true crcOk false bs t s) k = { cam s k with missed := (cam s k).missed + 1 } ∧
      rn (longPacket k vc vcx dt wc true crcOk false bs t s) (Reg.IPL_C_CRC_CNT k) = min 0xFFFFFFFF (rn s (Reg.IPL_C_CRC_CNT k) + 1) ∧
      rn (longPacket k vc vcx dt wc true crcOk false bs t s) (Reg.IPL_C_MISS_CNT k) = min 0xFFFFFFFF (rn s (Reg.IPL_C_MISS_CNT k) + 1) := by
  have hne : Reg.IPL_C_CRC_CNT k ≠ Reg.IPL_C_MISS_CNT k := by simp only [Reg.IPL_C_CRC_CNT, Reg.IPL_C_MISS_CNT]; omega
  have hm : ∀ r, rn (updCam k (fun g => { g with missed := g.missed + 1 }) (inc (Reg.IPL_C_CRC_CNT k) 1 (advanceTo t s))) r =
      rn (inc (Reg.IPL_C_CRC_CNT k) 1 (advanceTo t s)) r := fun _ => rfl
  rw [longPacket_arrives ha, hb, if_pos rfl, missLine]
  refine ⟨?_, ?_, ?_⟩
  · rw [cam_inc, cam_updCam_self, cam_inc, cam_advance]
  · rw [rn_inc_ne _ _ hne, hm, rn_inc_self, rn_advance_iplP (keyKind_IPL_C_CRC_CNT k)]
  · rw [rn_inc_self, hm, rn_inc_ne _ _ hne.symm, rn_advance_iplP (keyKind_IPL_C_MISS_CNT k)]

theorem shortPacket_starts {k vc vcx : Nat} {t : Nat} {s : State} (hr : camRunning s k = true) (hh : headerOk s k vc vcx true = true) :
    shortPacket k vc vcx .frameStart true t s =
      if (cam s k).fsOpen then inc (Reg.IPL_C_HDR_ERR_CNT k) 1 (updCam k (fun g => { g with fsOpen := true }) (advanceTo t s))
      else updCam k (fun g => { g with fsOpen := true }) (advanceTo t s) := by
  unfold shortPacket
  dsimp only
  rw [camRunning_advance, hr, headerOk_advance, hh, cam_advance]
  rfl

theorem shortPacket_ends {k vc vcx : Nat} {t : Nat} {s : State} (hr : camRunning s k = true) (hh : headerOk s k vc vcx true = true) :
    shortPacket k vc vcx .frameEnd true t s = updCam k (fun g => { g with fsOpen := false }) (advanceTo t s) := by
  unfold shortPacket
  dsimp only
  rw [camRunning_advance, hr, headerOk_advance, hh]
  rfl

theorem frameStart_noted {k vc vcx : Nat} {t : Nat} {s : State} (hr : camRunning s k = true) (hh : headerOk s k vc vcx true = true) :
    cam (shortPacket k vc vcx .frameStart true t s) k = { cam s k with fsOpen := true } ∧
      rn (shortPacket k vc vcx .frameStart true t s) (Reg.IPL_C_HDR_ERR_CNT k) =
        if (cam s k).fsOpen then min 0xFFFFFFFF (rn s (Reg.IPL_C_HDR_ERR_CNT k) + 1) else rn s (Reg.IPL_C_HDR_ERR_CNT k) := by
  have hcam : cam (updCam k (fun g => { g with fsOpen := true }) (advanceTo t s)) k = { cam s k with fsOpen := true } := by
    rw [cam_updCam_self, cam_advance]
  have hrn : rn (updCam k (fun g => { g with fsOpen := true }) (advanceTo t s)) (Reg.IPL_C_HDR_ERR_CNT k) =
      rn s (Reg.IPL_C_HDR_ERR_CNT k) := rn_advance_iplP (keyKind_IPL_C_HDR_ERR_CNT k)
  rw [shortPacket_starts hr hh]
  by_cases ho : (cam s k).fsOpen = true
  · rw [if_pos ho, if_pos ho, rn_inc_self, hrn]
    exact ⟨(cam_inc _ _ _ _).trans hcam, rfl⟩
  · rw [if_neg ho, if_neg ho]
    exact ⟨hcam, hrn⟩

/-! ## Stalls (R381) -/

theorem rn_setCam (k : Nat) (st : CamState) (cause : Nat) (s : State) {r : Nat} (hr : keyKind r ≠ .stk) :
    rn (setCam k st cause s) r = rn s r := by
  unfold setCam
  dsimp only
  split
  · rfl
  · exact raised_rn _ hr

/-- What the interrupt of a stall and the windows it closes leave of the port and its counters. -/
theorem stallTold_keeps (k : Nat) (pl : List Byte) (s : State) :
    cam (closeWindows (raiseIrq (pgIpl k) 4 (event 0x6001 none pl s))) k = cam s k ∧
      rn (closeWindows (raiseIrq (pgIpl k) 4 (event 0x6001 none pl s))) (Reg.IPL_C_STALL_CNT k) = rn s (Reg.IPL_C_STALL_CNT k) := by
  have hw := closeWindows_keeps (raiseIrq (pgIpl k) 4 (event 0x6001 none pl s)) (fun _ q => q) (Keeps.refl _ _)
  refine ⟨?_, ?_⟩
  · exact (cam_congr (hw.only .ipl (by decide)) k).trans (cam_congr ((raised_keeps s).only .ipl (by simp)) k)
  · rw [hw.rn (by simp), raised_rn _ (by simp)]

/-- A port that runs, with its plane moving, and that has kept no line for TMO. -/
structure Stalls (k t : Nat) (s : State) : Prop where
  running : (cam s k).state = .running
  paused : (plane s (camPlane s k)).paused = false
  moving : (plane s (camPlane s k)).state ≠ .stopped
  quiet : (cam s k).quiet + rf s (Reg.IPL_C_STALL k) 15 0 * us ≤ t

theorem stallTimeout_stalls {k t : Nat} {s : State} (h : Stalls k t s) :
    (cam (stallTimeout k t s) k).state = .stalled ∧ (cam (stallTimeout k t s) k).whole = false ∧
      rn (stallTimeout k t s) (Reg.IPL_C_STALL_CNT k) = min 0xFFFFFFFF (rn s (Reg.IPL_C_STALL_CNT k) + 1) := by
  obtain ⟨running, paused, moving, quiet⟩ := h
  unfold stallTimeout
  extract_lets g p s1 s2
  have hno : ¬ (g.state ≠ .running ∨ p.paused = true ∨ p.state = .stopped ∨ t < g.quiet + rf s (Reg.IPL_C_STALL k) 15 0 * us) := by
    rintro (h | h | h | h)
    · exact h running
    · exact Bool.false_ne_true (paused.symm.trans h)
    · exact moving h
    · exact absurd quiet (Nat.not_le.mpr h)
  rw [if_neg hno]
  obtain ⟨c, hs2⟩ := cam_setCam_self k .stalled 0 (updCam k (fun g => { g with whole := false }) s1)
  obtain ⟨hcam, hrn⟩ := stallTold_keeps k (le 1 k ++ le 1 1 ++ le 8 (g.prev.getD 0) ++ le 8 (stamp s1).toNat)
    (inc (Reg.IPL_C_STALL_CNT k) 1 s2)
  rw [cam_inc] at hcam
  rw [hcam, hrn, rn_inc_self, rn_setCam _ _ _ _ (by simp)]
  rw [cam_updCam_self] at hs2
  refine ⟨by rw [hs2], by rw [hs2], ?_⟩
  exact congrArg (fun n => min 0xFFFFFFFF (n + 1)) (rn_advance_iplP (keyKind_IPL_C_STALL_CNT k))

/-! ## The pipeline's choice, and REPROCESS (R371, R384) -/

theorem oldestPort_advance (t : Nat) (s : State) (inl : Bool) : oldestPort (advanceTo t s) inl = oldestPort s inl := by
  have hready : camReady (advanceTo t s) = camReady s := by
    funext k b
    rw [camReady, camReady, cam_advance]
  unfold oldestPort
  simp only [hready, cam_advance]

theorem pipelineLine_inline {k t : Nat} {s : State} (h : oldestPort s true = some k) :
    pipelineLine t s = startLine k (advanceTo t s) := by
  unfold pipelineLine
  dsimp only
  rw [oldestPort_advance, h]

theorem pipelineLine_repro {t : Nat} {s : State} (h1 : oldestPort s true = none) (h0 : oldestPort s false = none) (hs : s.ipl.slice = none) :
    pipelineLine t s = reproLine { advanceTo t s with ipl := { s.ipl with slice := none } } := by
  unfold pipelineLine
  dsimp only
  rw [oldestPort_advance, h1, oldestPort_advance, h0, advance_ipl, hs]

theorem pipelineBusy_cam (k : Nat) (s : State) : cam (pipelineBusy k s) = cam s := rfl

/-- The next line of a REPROCESS is in line for Winnow; after its last the command's end is. -/
theorem reproLine_next {x : Repro} {rest : List Repro} {i : StoredImage} {s : State} (hx : s.ipl.repro = x :: rest)
    (hi : (s.ipl.images.find? fun i => decide (i.port = x.port ∧ i.num = x.image)) = some i) :
    (∀ e, i.lines[x.next]? = some e → (reproLine s).ipl.repro = { x with next := x.next + 1 } :: rest ∧
      (cam (reproLine s) x.port).items.length = (cam s x.port).items.length + 1) ∧
    (i.lines[x.next]? = none → (reproLine s).ipl.repro = rest ∧
      (cam (reproLine s) x.port).items = (cam s x.port).items ++ [.finish x.seq]) := by
  refine ⟨fun e he => ?_, fun he => ?_⟩
  · obtain ⟨t, u, slot, y⟩ := e
    unfold reproLine
    rw [hx]
    dsimp only
    rw [hi]
    dsimp only
    rw [he]
    refine ⟨rfl, ?_⟩
    dsimp only
    rw [pipelineBusy_cam, cam_updCam_self]
    exact List.length_append
  · unfold reproLine
    rw [hx]
    dsimp only
    rw [hi]
    dsimp only
    rw [he]
    exact ⟨rfl, congrArg CamPort.items (cam_updCam_self _ _ _)⟩

end Sys2Proof.Machine
end

section
/-! SUPPORT. What Winnow leaves of the copies and frames when it takes an item, and its ruling on a copy (O47). -/

namespace Sys2Proof.Machine
open Sys2Proof

/-! ## Judging tiles and streaks (R392, R393) -/

/-- What judging a copy's open tiles and blocks leaves: the frames that closed, and copies that do not become FIRED. -/
structure ScanKept (s t : State) : Prop where
  closed : t.win.closed = s.win.closed
  unfired : (∀ c ∈ s.jobs.copies, c.state ≠ .fired) → ∀ c ∈ t.jobs.copies, c.state ≠ .fired

theorem ScanKept.of_parts {s t : State} (hw : t.win.closed = s.win.closed) (hj : t.jobs = s.jobs) : ScanKept s t :=
  ⟨hw, fun h c hc => h c (hj ▸ hc)⟩

theorem ScanKept.refl (s : State) : ScanKept s s := .of_parts rfl rfl

theorem ScanKept.trans {s t u : State} (h : ScanKept s t) (k : ScanKept t u) : ScanKept s u :=
  ⟨k.closed.trans h.closed, fun hn => k.unfired (h.unfired hn)⟩

theorem ScanKept.raised (n b code : Nat) (ten : Option Nat) (pl : List Byte) (s : State) :
    ScanKept s (raiseIrq n b (event code ten pl s)) :=
  .of_parts (congrArg Winnow.closed ((raised_keeps s).only .win (by simp))) ((raised_keeps s).only .jobs (by simp))

theorem ScanKept.foldl {α : Type} {f : State → α → State} (hf : ∀ t a, ScanKept t (f t a)) (l : List α) (s : State) :
    ScanKept s (l.foldl f s) :=
  foldl_holds (I := ScanKept s) l (ScanKept.refl s) fun t a _ h => h.trans (hf t a)

theorem countFound_kept (c : Nat) (re : Bool) (s : State) : ScanKept s (countFound c re s) := by
  unfold countFound
  split
  · exact ScanKept.refl s
  · refine ⟨rfl, fun h c hc => ?_⟩
    obtain ⟨x, hx, rfl⟩ := List.mem_map.mp hc
    have hs := h x hx
    split
    · dsimp only
      split
      · exact hs
      · exact hs
    · exact hs

theorem writeRecord_kept (c : Nat) (bs : List Byte) (s : State) : ScanKept s (writeRecord c bs s) := by
  unfold writeRecord
  extract_lets x
  split
  · exact .of_parts rfl rfl
  · exact .of_parts rfl rfl

theorem putScan_kept (x : Scan) (s : State) : ScanKept s (putScan x s) := .of_parts rfl rfl

theorem inc_kept (r n : Nat) (s : State) : ScanKept s (inc r n s) := .of_parts rfl rfl

theorem judgeTile_kept (k : Nat) (re : Bool) (c y t : Nat) (e : Nat × Nat × Nat) (time : Nat) (s : State) :
    ScanKept s (judgeTile k re c y t e time s) := by
  unfold judgeTile
  split
  · split
    · exact ScanKept.refl s
    · extract_lets bs s1
      exact (((inc_kept _ _ s).trans (countFound_kept c re _)).trans (writeRecord_kept c bs _)).trans (.raised _ _ _ _ _ _)
  · exact ScanKept.refl s

theorem endTiles_kept (x : Scan) (s : State) : ScanKept s (endTiles x s) :=
  (ScanKept.foldl (fun t e => judgeTile_kept x.port x.repro x.copy x.tileY e.1 e.2 (stamp s).toNat t) x.tiles s).trans (putScan_kept _ _)

theorem judgeColumn_kept (x : Scan) (key : Nat) (s : State) : ScanKept s (judgeColumn x key s) := by
  unfold judgeColumn
  extract_lets col ch d
  split
  · split
    · exact ScanKept.refl s
    · split
      · exact inc_kept _ _ s
      · extract_lets nz
        exact ((((inc_kept _ _ s).trans (putScan_kept _ _)).trans (countFound_kept _ _ _)).trans (writeRecord_kept _ _ _)).trans
          (.raised _ _ _ _ _ _)
  · exact ScanKept.refl s

theorem endBlock_kept (x : Scan) (s : State) : ScanKept s (endBlock x s) := by
  unfold endBlock
  extract_lets cs judged s1
  refine ScanKept.trans (t := s1) ?_ (putScan_kept _ _)
  unfold s1
  split
  · exact ScanKept.refl s
  · exact ScanKept.foldl (fun t key => judgeColumn_kept x key t) judged s

theorem endScan_kept (c k : Nat) (re : Bool) (s : State) : ScanKept s (endScan c k re s) := by
  unfold endScan
  extract_lets x s1 y
  have h1 : ScanKept s s1 := by
    unfold s1
    split
    · exact ScanKept.refl s
    · exact endTiles_kept x s
  split
  · exact h1
  · exact h1.trans (endBlock_kept y s1)

/-! ## What Winnow takes (R384, R390, R395) -/

/-- With no FIRED copy there is nothing to rule on. -/
theorem tryRules_unfired {s : State} (h : ∀ c ∈ s.jobs.copies, c.state ≠ .fired) : tryRules s = s := by
  have hf : (s.jobs.copies.filter fun x => decide (x.state = .fired)) = [] :=
    List.filter_eq_nil_iff.mpr fun c hc => by simpa using h c hc
  rw [tryRules, copyOrder, hf]
  rfl

theorem passFrame_closed {k n : Nat} {w : Bool} {s : State} (h : ∀ c ∈ s.jobs.copies, c.state ≠ .fired) :
    (passFrame k n w s).win.closed = ((k, n, w) :: s.win.closed).take 4096 := by
  unfold passFrame
  extract_lets s1
  have h1 : ScanKept s s1 := by
    unfold s1
    split
    · exact endScan_kept _ _ _ s
    · exact ScanKept.refl s
  have h2 : tryRules { s1 with win := { s1.win with closed := ((k, n, w) :: s1.win.closed).take 4096 } } = _ :=
    tryRules_unfired (h1.unfired h)
  exact (congrArg (fun t => t.win.closed) h2).trans (congrArg (fun l => ((k, n, w) :: l).take 4096) h1.closed)

theorem completeSeq_parked {q status r : Nat} {s : State} {p : Parked} (hp : p ∈ (completeSeq q status r s).fw.parked) : p.h.seq ≠ q := by
  unfold completeSeq at hp
  cases hf : findParked s q with
  | none =>
    rw [hf] at hp
    simpa using List.find?_eq_none.mp hf p hp
  | some x =>
    rw [hf] at hp
    have hq : x.h.seq = q := of_decide_eq_true (List.find?_some hf :)
    exact hq ▸ parked_complete_ne hp

theorem reproFinish_over (k q : Nat) (s : State) : (∀ p ∈ (reproFinish k q s).fw.parked, p.h.seq ≠ q) ∧
    ∀ x ∈ (reproFinish k q s).win.scans, x.repro = true → x.port ≠ k := by
  refine ⟨fun p hp => completeSeq_parked hp, fun x hx hr hk => ?_⟩
  unfold reproFinish at hx
  extract_lets s1 at hx
  rw [(completeSeq_keeps q 0 0 _ (fun _ p => p) (Keeps.refl _ _)).only .win (by decide)] at hx
  have := (List.mem_filter.mp hx).2
  rw [hr, hk, decide_eq_true rfl] at this
  exact Bool.false_ne_true this

theorem items_dropped {k : Nat} {s : State} {x : CamItem} {rest : List CamItem} (h : (cam s k).items = x :: rest) :
    (cam (updCam k (fun g => { g with items := g.items.drop 1 }) s) k).items = rest := by
  rw [cam_updCam_self]
  exact congrArg (List.drop 1) h

/-- What Winnow does with the item a port has for it next. -/
theorem winnowTake_waits {k : Nat} {l : RegLine} {rest : List CamItem} {s : State} (h : (cam s k).items = .line l :: rest)
    (hc : compareLine k l s = none) : winnowTake k s = s := by
  unfold winnowTake
  dsimp only
  rw [h]
  dsimp only
  rw [hc]

theorem winnowTake_line {k : Nat} {l : RegLine} {rest : List CamItem} {s u : State} (h : (cam s k).items = .line l :: rest)
    (hc : compareLine k l s = some u) : winnowTake k s = updCam k (fun g => { g with items := g.items.drop 1 }) u := by
  unfold winnowTake
  dsimp only
  rw [h]
  dsimp only
  rw [hc]

theorem winnowTake_close {k n : Nat} {w : Bool} {rest : List CamItem} {s : State} (h : (cam s k).items = .close n w :: rest) :
    winnowTake k s = passFrame k n w (updCam k (fun g => { g with items := g.items.drop 1 }) s) := by
  unfold winnowTake
  dsimp only
  rw [h]

theorem winnowTake_finish {k q : Nat} {rest : List CamItem} {s : State} (h : (cam s k).items = .finish q :: rest) :
    winnowTake k s = reproFinish k q (updCam k (fun g => { g with items := g.items.drop 1 }) s) := by
  unfold winnowTake
  dsimp only
  rw [h]

theorem winnowTake_compared {k : Nat} {l : RegLine} {rest : List CamItem} {s : State} (h : (cam s k).items = .line l :: rest)
    (hc : (compareLine k l s).isSome = true) : (cam (winnowTake k s) k).items = rest := by
  obtain ⟨u, hu⟩ := Option.isSome_iff_exists.mp hc
  have hk := compareLine_keeps k l s (fun _ q => q) (Keeps.refl _ s) u hu
  rw [winnowTake_line h hu]
  exact items_dropped ((congrArg CamPort.items (cam_congr (hk.only .ipl (by decide)) k)).trans h)

theorem winnowTake_closed {k n : Nat} {w : Bool} {rest : List CamItem} {s : State} (h : (cam s k).items = .close n w :: rest) :
    (cam (winnowTake k s) k).items = rest ∧ ((∀ c ∈ s.jobs.copies, c.state ≠ .fired) →
      (winnowTake k s).win.closed = ((k, n, w) :: s.win.closed).take 4096) := by
  rw [winnowTake_close h]
  refine ⟨?_, fun hf => passFrame_closed (s := updCam k _ s) hf⟩
  rw [cam_congr ((passFrame_keeps k n w _ (fun _ q => q) (Keeps.refl _ _)).only .ipl (by decide))]
  exact items_dropped h

theorem winnowTake_finished {k q : Nat} {rest : List CamItem} {s : State} (h : (cam s k).items = .finish q :: rest) :
    (cam (winnowTake k s) k).items = rest ∧ (∀ p ∈ (winnowTake k s).fw.parked, p.h.seq ≠ q) ∧
      ∀ x ∈ (winnowTake k s).win.scans, x.repro = true → x.port ≠ k := by
  rw [winnowTake_finish h]
  refine ⟨?_, reproFinish_over k q _⟩
  rw [cam_congr ((reproFinish_keeps k q _ (fun _ p => p) (Keeps.refl _ _)).only .ipl (by decide))]
  exact items_dropped h

/-! ## The ruling time limit (R396) -/

/-- A FIRED copy whose flags are set is RULED or SEALED with them. -/
theorem ruleCopy_found {c : Nat} {x : Copy} {s : State} (hx : findCopy s c = some x) (hf : x.state = .fired) :
    ∀ y, findCopy (ruleCopy c s) c = some y → y.state ≠ .fired ∧ y.flags = x.flags := by
  intro y hy
  unfold ruleCopy at hy
  rw [hx] at hy
  dsimp only at hy
  rw [if_pos hf] at hy
  have hr : findCopy (updCopy c (fun y => { y with state := .ruled, ruleTime := stamp s }) s) c =
      some { x with state := .ruled, ruleTime := stamp s } := by
    rw [findCopy_updCopy c _ (by intro; rfl), hx]
    rfl
  obtain ⟨z, hz, hfl⟩ := sealCopy_flags c _ y hy
  rw [hr] at hz
  have hflags : y.flags = x.flags := hfl.trans (congrArg Copy.flags (Option.some.inj hz)).symm
  refine ⟨?_, hflags⟩
  rcases (sealCopy_only c _).2 with e | e
  · rw [e, hr] at hy
    rw [← Option.some.inj hy]
    show CopyState.ruled ≠ .fired
    decide
  · rw [e y hy]
    decide

/-- A verdict UNINSPECTED on a FIRED copy. -/
structure RuledUninspected (c : Nat) (s t : State) : Prop where
  copy : ∀ y, findCopy t c = some y → y.state ≠ .fired ∧ y.flags.uninspected = true
  uninspected : rn t Reg.WIN_UNINSP_CNT = min 0xFFFFFFFF (rn s Reg.WIN_UNINSP_CNT + 1)
  ruled : rn t Reg.WIN_COPIES_RULED = min 0xFFFFFFFF (rn s Reg.WIN_COPIES_RULED + 1)

theorem verdict_uninspected {c : Nat} {x : Copy} {s : State} (hx : findCopy s c = some x) (hf : x.state = .fired) :
    RuledUninspected c s (verdict c true s) := by
  unfold verdict
  rw [hx]
  dsimp only
  rw [if_pos hf, if_pos rfl]
  generalize hu : updCopy c _ (inc Reg.WIN_COPIES_RULED 1 (inc Reg.WIN_UNINSP_CNT 1 s)) = u
  have hx' : ∃ z, findCopy u c = some z ∧ z.state = .fired ∧ z.flags.uninspected = true := by
    rw [← hu, findCopy_updCopy c _ (by intro; rfl)]
    exact ⟨_, congrArg (Option.map _) hx, hf, rfl⟩
  have hrn : ∀ r, rn u r = rn (inc Reg.WIN_COPIES_RULED 1 (inc Reg.WIN_UNINSP_CNT 1 s)) r := fun r => by rw [← hu]; rfl
  obtain ⟨z, hz, hzf, hzu⟩ := hx'
  have hreg : ∀ r, keyKind r = .win → rn (pruneInsp (ruleCopy c u)) r = rn u r := fun r hr =>
    (ruleCopy_keeps c u (fun _ q => q) (Keeps.refl _ u)).rn (by rw [hr]; decide)
  refine ⟨fun y hy => ?_, ?_, ?_⟩
  · obtain ⟨h1, h2⟩ := ruleCopy_found hz hzf y hy
    exact ⟨h1, h2 ▸ hzu⟩
  · rw [hreg _ keyKind_WIN_UNINSP_CNT, hrn, rn_inc_ne _ _ (by decide), rn_inc_self]
  · rw [hreg _ keyKind_WIN_COPIES_RULED, hrn, rn_inc_self, rn_inc_ne _ _ (by decide)]

theorem ruleTimeout_rules {c t : Nat} {x : Copy} {s : State} (hx : findCopy s c = some x) (hf : x.state = .fired)
    (ht : x.firedAt + rf s Reg.WIN_RULE_TMO 15 0 * ms ≤ s.clock.uptime) : RuledUninspected c s (ruleTimeout c t s) := by
  have hx' : findCopy (advanceTo t s) c = some x := (findCopy_congr (advance_jobs t s) c).trans hx
  have hdue : x.state = .fired ∧
      x.firedAt + rf (advanceTo t s) Reg.WIN_RULE_TMO 15 0 * ms ≤ (advanceTo t s).clock.uptime := by
    rw [rf_congr (advance_rd t s (k := Reg.WIN_RULE_TMO) (by decide)), uptime_advance]
    exact ⟨hf, by omega⟩
  unfold ruleTimeout
  extract_lets s1
  rw [hx']
  dsimp only
  rw [if_pos hdue]
  generalize le 2 x.tenant ++ _ ++ _ ++ _ = pl
  obtain ⟨copy, uninspected, ruled⟩ := verdict_uninspected hx' hf
  refine ⟨fun y hy => copy y ?_, ?_, ?_⟩
  · rwa [findCopy_congr ((raised_keeps _).only .jobs (by decide))] at hy
  · rw [raised_rn _ (by decide), uninspected, rn_congr (advance_rd t s (by decide))]
  · rw [raised_rn _ (by decide), ruled, rn_congr (advance_rd t s (by decide))]

end Sys2Proof.Machine
end

section
/-! SUPPORT. What the pipeline does with a port's queue, and the proof of O47. -/

namespace Sys2Proof.Machine
open Sys2Proof

/-! ## The queue of a port as the pipeline works (R371 to R376) -/

/-- A port keeps its queue. -/
def QueueKept (k : Nat) (s t : State) : Prop := (cam t k).waiting = (cam s k).waiting

theorem QueueKept.refl (k : Nat) (s : State) : QueueKept k s s := rfl

theorem QueueKept.trans {k : Nat} {s t u : State} (h : QueueKept k s t) (j : QueueKept k t u) : QueueKept k s u := Eq.trans j h

theorem QueueKept.of_keeps {k : Nat} {ps : List Part} {s t : State} (h : Keeps ps s t) (hp : Part.ipl ∉ ps) : QueueKept k s t :=
  congrArg CamPort.waiting (cam_congr (h.only .ipl hp) k)

theorem QueueKept.updCam {k : Nat} {f : CamPort → CamPort} {s : State} (h : (f (cam s k)).waiting = (cam s k).waiting) :
    QueueKept k s (updCam k f s) := (congrArg CamPort.waiting (cam_updCam_self k f s)).trans h

theorem QueueKept.setCam (k : Nat) (st : CamState) (cause : Nat) (s : State) : QueueKept k s (setCam k st cause s) := by
  obtain ⟨c, hc⟩ := cam_setCam_self k st cause s
  rw [QueueKept, hc]

theorem fillGap_queue (k : Nat) (a b : RegLine) (m : LatchMark) (n : Nat) (s : State) : QueueKept k s (fillGap k a b m n s) := by
  induction n generalizing s with
  | zero => exact QueueKept.refl k s
  | succ n ih =>
    have hd : QueueKept k s (drawIn 0 (runSub b.u a.u) s).2 := rfl
    exact hd.trans ((QueueKept.updCam rfl).trans (ih _))

theorem feedImage_queue (k j t u slot : Nat) (y : Int) (bs : List Byte) (s : State) : QueueKept k s (feedImage j t u slot y bs s) :=
  .of_keeps (feedImage_keeps j t u slot y bs s (fun _ q => q) (Keeps.refl _ s)) (by decide)

theorem whiteLine_queue (k j : Nat) (gs : List (Nat × Nat)) (s : State) : QueueKept k s (whiteLine j gs s) :=
  .of_keeps (whiteLine_keeps j gs s (fun _ q => q) (Keeps.refl _ s)) (by decide)

theorem startImage_queue (k j n : Nat) (s : State) : QueueKept k s (startImage j n s) :=
  .of_keeps (startImage_keeps j n s (fun _ q => q) (Keeps.refl _ s)) (by decide)

theorem frameLine_queue (k gap u : Nat) (l : CamLine) (m : LatchMark) (s : State) : QueueKept k s (frameLine k gap u l m s) := by
  unfold frameLine
  extract_lets q g y r fill s1 lost s2
  have h1 : QueueKept k s s1 := by
    unfold s1
    split
    · split
      · exact fillGap_queue _ _ _ _ _ s
      · exact QueueKept.refl k s
    · exact QueueKept.refl k s
  have h2 : QueueKept k s1 s2 := QueueKept.updCam rfl
  have h3 : QueueKept k s2 (inc64 (Reg.IPL_C_LINES k) 1 s2) := rfl
  exact (((h1.trans h2).trans h3).trans (whiteLine_queue k k _ _)).trans (feedImage_queue k k _ _ _ _ _ _)

/-- A port's page that applies leaves the port's queue. -/
theorem applyPage_queue {k : Nat} (hk : k < 4) (slot : Nat) (s : State) : QueueKept k s (applyPage (pgIpl k) slot s) := by
  unfold applyPage commitPage
  dsimp only
  split
  · rw [splitMoved, splitPage_pgIpl hk, camApplied_pgIpl hk]
    generalize hv : noteLatch (pgIpl k) slot _ = v
    have hq : QueueKept k s v := by
      refine QueueKept.of_keeps (ps := [.reg (pageKind (pgIpl k)), .fw, .msix, .out, .reg .stk, .rings, .stk]) ?_ (by simp)
      rw [← hv]
      exact Keeps.set_fw (by simp) (acceptEvent_keeps _ _ _ _ _ _ (by simp) (raiseIrq_keeps _ _ _ (by simp)
        (putPage_keeps _ _ _ (by simp) (commitPage_regs _ _ _ (by simp) (Keeps.refl _ s)))))
    refine hq.trans ?_
    refine foldl_holds (I := fun t => QueueKept k v t) _ (QueueKept.updCam rfl) fun t q _ h => h.trans ?_
    exact congrArg CamPort.waiting (cam_congr (complete_ipl _ _ _ _) k)
  · exact QueueKept.refl k s

/-- A port's queue is kept, or the port has stopped with its lines discarded. -/
def KeptOrStopped (k : Nat) (s t : State) : Prop := QueueKept k s t ∨ (cam t k).waiting = [] ∧ camRunning t k = false

theorem KeptOrStopped.after {k : Nat} {s t u : State} (h : QueueKept k s t) (j : KeptOrStopped k t u) : KeptOrStopped k s u :=
  j.imp_left h.trans

theorem camStop_queue {k : Nat} (hk : k < 4) (cause : Nat) (s : State) : KeptOrStopped k s (camStop k cause s) := by
  by_cases hr : camRunning s k = true
  · refine Or.inr ⟨?_, by rw [camStop_running hk, if_pos rfl]⟩
    have hstop : (cam (stopPort k cause s) k).waiting = [] := by
      obtain ⟨c, hc⟩ := cam_setCam_self k .off cause (updCam k (fun g => { g with
        waiting := [], items := g.items ++ (match (cam s k).frame with | some n => [CamItem.close n false] | none => [])
        frame := none, whole := false, prevReg := none }) s)
      rw [cam_updCam_self] at hc
      exact congrArg CamPort.waiting hc
    have hidle : QueueKept k (stopPort k cause s) (idleLatch (pgIpl k) (stopPort k cause s)) := by
      rw [idleLatch_pgIpl hk]
      split
      · rw [QueueKept, (iplApplied_reads hk _).1]
        exact QueueKept.updCam rfl
      · exact QueueKept.refl k _
    have hafter := QueueKept.of_keeps (k := k) (afterStop_keeps (idleLatch (pgIpl k) (stopPort k cause s))) (by decide)
    rw [camStop_eq, if_neg (by rw [hr]; decide)]
    exact Eq.trans (hidle.trans hafter) hstop
  · rw [camStop_eq, if_pos (by simpa using hr)]
    exact Or.inl (QueueKept.refl k s)

theorem boundary_queue {k : Nat} (hk : k < 4) (n : Nat) (s : State) : KeptOrStopped k s (boundary k n s) := by
  unfold boundary
  extract_lets g tail s1 s2 s3 s4
  have h1 : QueueKept k s s1 :=
    QueueKept.trans (t := updCam k (fun g => { g with items := g.items ++ tail }) s) (QueueKept.updCam rfl) rfl
  have h2 : QueueKept k s s2 := h1.trans (applyPage_queue hk n s1)
  split
  · exact .after (h2.trans (QueueKept.updCam rfl)) (camStop_queue hk 1 _)
  · have h3 : QueueKept k s s3 := h2.trans (QueueKept.updCam rfl)
    have h4 : QueueKept k s s4 := by
      unfold s4
      split
      · exact h3.trans (.setCam k _ _ _)
      · exact h3
    exact Or.inl (h4.trans (startImage_queue k k _ _))

theorem KeptOrStopped.ite {k : Nat} {c : Prop} [Decidable c] {s t u : State} (ht : c → KeptOrStopped k s t)
    (hu : ¬ c → KeptOrStopped k s u) : KeptOrStopped k s (if c then t else u) := by
  split
  · exact ht ‹_›
  · exact hu ‹_›

theorem pipeLine_queue {k : Nat} (hk : k < 4) (gap u : Nat) (l : CamLine) (s : State) : KeptOrStopped k s (pipeLine k gap u l s) := by
  have hframe : ∀ m t, QueueKept k t (frameLine k gap u l m (pipelineBusy k t)) := fun m t =>
    QueueKept.trans (t := pipelineBusy k t) rfl (frameLine_queue k gap u l m _)
  unfold pipeLine
  extract_lets g
  split
  next => exact Or.inl (QueueKept.updCam rfl)
  next m _ =>
    refine KeptOrStopped.ite (fun _ => Or.inl (hframe _ s)) fun _ => ?_
    refine KeptOrStopped.ite (fun _ => Or.inl (QueueKept.updCam rfl)) fun _ => ?_
    refine KeptOrStopped.ite (fun _ => Or.inl (QueueKept.updCam rfl)) fun _ => ?_
    generalize hs1 : boundary k m.slot _ = s1
    have h1 : KeptOrStopped k s s1 := by
      rw [← hs1]
      refine .after ?_ (boundary_queue hk _ _)
      split
      · exact QueueKept.updCam rfl
      · exact QueueKept.refl k s
    refine KeptOrStopped.ite (fun _ => h1) fun hrun => ?_
    have hkept : QueueKept k s s1 := h1.resolve_right fun h => hrun (by rw [h.2]; rfl)
    split
    · exact Or.inl (hkept.trans (hframe _ s1))
    · exact h1

/-! ## The oldest line starts (R371, R373) -/

/-- A choice between two candidates, folded over a list, is one of the list. -/
theorem foldl_choice_mem {f : Option Nat → Nat → Option Nat} (hf : ∀ b k, f b k = some k ∨ f b k = b) {l : List Nat} {b : Option Nat}
    {k : Nat} (h : l.foldl f b = some k) : k ∈ l ∨ b = some k := by
  induction l generalizing b with
  | nil => exact Or.inr h
  | cons a l ih =>
    rcases ih h with hm | ha
    · exact Or.inl (List.mem_cons_of_mem a hm)
    · rcases hf b a with e | e
      · rw [e] at ha
        exact Or.inl (Option.some.inj ha ▸ List.mem_cons_self)
      · exact Or.inr (e ▸ ha)

theorem oldestPort_lt {s : State} {inl : Bool} {k : Nat} (h : oldestPort s inl = some k) : k < 4 := by
  unfold oldestPort at h
  refine (foldl_choice_mem (fun b j => ?_) h).elim (fun hm => List.mem_range.mp (List.mem_of_mem_filter hm)) fun hn => by simp at hn
  dsimp only
  split
  · exact Or.inl rfl
  · split
    · exact Or.inl rfl
    · exact Or.inr rfl

/-- A line at the head of a port's queue, with its place and what follows it. -/
structure HeadLine (k : Nat) (l : CamLine) (rest : List CamLine) (u : Nat) (s : State) : Prop where
  queue : (cam s k).waiting = l :: rest
  place : l.u = some u

theorem HeadLine.advance {k u : Nat} {l : CamLine} {rest : List CamLine} {s : State} (h : HeadLine k l rest u s) (t : Nat) :
    HeadLine k l rest u (advanceTo t s) := ⟨(congrArg CamPort.waiting (cam_advance t s k)).trans h.queue, h.place⟩

/-- The line is off the port's queue. -/
def lineTaken (k : Nat) (rest : List CamLine) (s : State) : State := updCam k (fun g => { g with waiting := rest, carry := 0 }) s

theorem startLine_dup {k u w : Nat} {l : CamLine} {rest : List CamLine} {s : State} (h : HeadLine k l rest u s)
    (hw : (cam s k).prev = some w) (hd : runSub u w ≤ 0) : startLine k s =
      inc (Reg.IPL_C_DUP_CNT k) 1 (updCam k (fun g => { g with carry := (cam s k).carry + l.gap }) (lineTaken k rest s)) := by
  unfold startLine
  dsimp only
  rw [h.queue]
  dsimp only
  rw [h.place, hw]
  exact if_pos (decide_eq_true hd)

theorem startLine_queue {k u : Nat} {l : CamLine} {rest : List CamLine} {s : State} (hk : k < 4) (h : HeadLine k l rest u s) :
    (cam (startLine k s) k).waiting = rest ∨ (cam (startLine k s) k).waiting = [] ∧ camRunning (startLine k s) k = false := by
  have ht : (cam (lineTaken k rest s) k).waiting = rest := congrArg CamPort.waiting (cam_updCam_self k _ s)
  suffices hs : KeptOrStopped k (lineTaken k rest s) (startLine k s) from hs.imp_left fun h => Eq.trans h ht
  unfold startLine
  dsimp only
  rw [h.queue]
  dsimp only
  rw [h.place]
  refine KeptOrStopped.ite (fun _ => Or.inl ?_) fun _ => pipeLine_queue hk _ u l _
  exact QueueKept.trans (t := updCam k (fun g => { g with carry := (cam s k).carry + l.gap }) (lineTaken k rest s))
    (QueueKept.updCam rfl) rfl

/-- A line that saw no new medium is counted and carries its gap. -/
theorem startLine_dup_counted {k u w : Nat} {l : CamLine} {rest : List CamLine} {s : State} (h : HeadLine k l rest u s)
    (hw : (cam s k).prev = some w) (hd : runSub u w ≤ 0) :
    cam (startLine k s) k = { cam s k with waiting := rest, carry := (cam s k).carry + l.gap } ∧
      rn (startLine k s) (Reg.IPL_C_DUP_CNT k) = min 0xFFFFFFFF (rn s (Reg.IPL_C_DUP_CNT k) + 1) := by
  rw [startLine_dup h hw hd]
  refine ⟨?_, ?_⟩
  · rw [cam_inc, cam_updCam_self, lineTaken, cam_updCam_self]
  · exact rn_inc_self _ _ _

/-! ## Camera packets, the pipeline, stalls and Winnow's rulings -/

/-- Settles O47: packets and stalls by what they do to their port, the pipeline by what it leaves of the port's queue, Winnow's items by
their kind, and the ruling time limit by the verdict UNINSPECTED. -/
theorem camerasAndWinnowRun : Obligations.CamerasAndWinnowRun := by
  refine ⟨?long, ?short, ?line, ?repro, ?stall, ?winnow, ?rule⟩
  case long =>
    intro k vc vcx dt wc crcOk bs v s hr hh hdt
    have ha : Arrives k.val vc.toNat vcx.toNat dt.toNat s := ⟨hr, hh, hdt⟩
    have hkeep := execCsiLongPacket_keeps k vc vcx dt wc true crcOk false bs v s
    refine ⟨fun hc hw hl hf => ?_, fun hbad => ?_⟩
    · have hb : badLine s k.val dt.toNat wc.toNat crcOk bs = false := by simp [badLine, hc, ← hw, hl]
      obtain ⟨quiet, missed, state, capture⟩ := longPacket_kept (t := v.toNat) ha hb hf
      exact next_at hkeep (by decide) rfl ⟨quiet, missed, state, capture⟩
    · have hb : badLine s k.val dt.toNat wc.toNat crcOk bs = true := by
        simpa [badLine, or_assoc] using hbad
      exact next_at hkeep (by decide) rfl (longPacket_bad ha hb)
  case short =>
    intro k vc vcx v s hr hh
    refine ⟨next_at (execCsiShortPacket_keeps k vc vcx .frameStart true v s) (by decide) rfl (frameStart_noted hr hh), ?_⟩
    refine ⟨_, congrArg Host.Outcome.next (shortPacket_ends hr hh), ?_, ?_⟩
    · rw [cam_updCam_self, cam_advance]
    · exact (updCam_keeps _ _ _ (by decide) ((advanceTo_keeps v.toNat s (fun _ q => q) (Keeps.refl _ s)).mono (by decide))).only
  case line =>
    intro k l rest u v s ho hw hu
    have hk : k < 4 := oldestPort_lt ho
    have hl : HeadLine k l rest u (advanceTo v.toNat s) := HeadLine.advance ⟨hw, hu⟩ v.toNat
    refine next_at (execIplPipelineLine_keeps v s) (by decide) (congrArg Host.Outcome.next (pipelineLine_inline ho)) ?_
    refine ⟨startLine_queue hk hl, fun w hp hd => ?_⟩
    rw [← cam_advance v.toNat] at hp
    obtain ⟨hcam, hcnt⟩ := startLine_dup_counted hl hp hd
    rw [cam_advance] at hcam
    rw [rn_advance_iplP (keyKind_IPL_C_DUP_CNT k)] at hcnt
    exact ⟨hcam, hcnt⟩
  case repro =>
    intro x rest i v s h1 h0 hs hx hi
    refine next_at (execIplPipelineLine_keeps v s) (by decide) (congrArg Host.Outcome.next (pipelineLine_repro h1 h0 hs)) ?_
    exact reproLine_next (s := { advanceTo v.toNat s with ipl := { s.ipl with slice := none } }) hx hi
  case stall =>
    intro k v s hrun hpause hmove hquiet
    exact next_at (execIplStallTimeout_keeps k v s) (by decide) rfl (stallTimeout_stalls ⟨hrun, hpause, hmove, hquiet⟩)
  case winnow =>
    intro k s
    have hkeep := execWinnowLineCompare_keeps k s
    refine ⟨fun l rest hi => ⟨fun hc => ?_, fun hc => ?_⟩, fun n w rest hi => ?_, fun q rest hi => ?_⟩
    · exact congrArg Host.Outcome.next (winnowTake_waits hi hc)
    · exact next_at hkeep (by decide) rfl (winnowTake_compared hi hc)
    · exact next_at hkeep (by decide) rfl (winnowTake_closed hi)
    · exact next_at hkeep (by decide) rfl (winnowTake_finished hi)
  case rule =>
    intro c x v s hx hf ht
    obtain ⟨copy, uninspected, ruled⟩ := ruleTimeout_rules (t := v.toNat) hx hf ht
    exact next_at (execWinnowRuleTimeout_keeps c v s) (by decide) rfl ⟨copy, uninspected, ruled⟩

end Sys2Proof.Machine
end
